-- ==== Sys2Proof/Word.lean ====
section
/-!
DEFINITION. The words of the PB-7460: bytes, the 32-bit register word (R6) and the 64-bit word of the time base and of
hashes. Everything the manual adds, shifts or masks is one of these; counts, numbers and sizes are `Nat`.
-/
namespace Sys2Proof

/-- One byte of a frame, a row, a page or the flash array. -/
abbrev Byte := BitVec 8
/-- One register (R6), one lane register (R78), one FP32 or INT32 value. -/
abbrev Word := BitVec 32
/-- One 64-bit word: seeds (R93), chained hashes (R182), fill constants (R107). -/
abbrev Dword := BitVec 64
/-- A run of bytes in address order. -/
abbrev Bytes := List Byte

namespace Word

/-- The field of bits `hi` down to `lo` of a word, as a number (R5: bit 0 is the least significant bit). -/
def field (w : Word) (hi lo : Nat) : Nat := (w.toNat / 2 ^ lo) % 2 ^ (hi + 1 - lo)

/-- The word with its field of bits `hi` down to `lo` replaced by `v` (taken modulo the width of the field). -/
def setField (w : Word) (hi lo v : Nat) : Word :=
  BitVec.ofNat 32 (w.toNat - w.field hi lo * 2 ^ lo + (v % 2 ^ (hi + 1 - lo)) * 2 ^ lo)

/-- Bit `i` of a word. -/
def bit (w : Word) (i : Nat) : Bool := (w.toNat / 2 ^ i) % 2 == 1

/-- The mask with ones in bits `hi` down to `lo`. -/
def mask (hi lo : Nat) : Word := BitVec.ofNat 32 ((2 ^ (hi + 1 - lo) - 1) * 2 ^ lo)

end Word

/-- `n` as `k` bytes, most significant first (R5). -/
def beBytes : Nat → Nat → Bytes
  | 0, _ => []
  | k + 1, n => BitVec.ofNat 8 (n / 256 ^ k) :: beBytes k n

/-- `n` as `k` bytes, least significant first (R32). -/
def leBytes : Nat → Nat → Bytes
  | 0, _ => []
  | k + 1, n => BitVec.ofNat 8 n :: leBytes k (n / 256)

/-- A run of bytes read as a number, most significant first (R5). -/
def ofBe (bs : Bytes) : Nat := bs.foldl (fun acc b => acc * 256 + b.toNat) 0

/-- A run of bytes read as a number, least significant first (R32). -/
def ofLe : Bytes → Nat
  | [] => 0
  | b :: bs => b.toNat + 256 * ofLe bs

/-- The number in `len` bytes from offset `off` of a payload, most significant first; bytes past the end read as zero. -/
def beAt (bs : Bytes) (off len : Nat) : Nat :=
  ofBe ((bs.drop off).take len ++ List.replicate (len - ((bs.drop off).take len).length) 0)

/-- `len` bytes of a payload from offset `off`. -/
def slice (bs : Bytes) (off len : Nat) : Bytes := (bs.drop off).take len

/-- All bytes of a run are zero: the manual's fields marked zero. -/
def allZero (bs : Bytes) : Bool := bs.all (· == 0)

end Sys2Proof
end

