-- ==== Sys2Proof/Syntax.lean ====
section
/-!
DEFINITION. The commands of the module: one constructor of `Instr` for every row of the table of operations and events,
with the operands each row's rule gives it. The table gives no operand fields and no bits, so the operands are the ones
that the rules of the chapters name (log entry 1). A command of a host carries its header context (R363) and its payload
bytes as its chapter lays them out; a command of a step program carries the fields of its instruction class (Table 6 of
The tile); an event of the hardware carries what the event reports.
-/
namespace Sys2Proof

/-- The status codes of Table 7 of Scope and conventions: the device never returns any other value (R10). -/
inductive Status where
  | ok | pending | busyStarting | busyRecovery | deferred | deferredTimeout | badFrame | badVersion | unknownSession
  | notPermitted | noResource | tableBusy | halfErased | protected_ | passwordLocked | cancelled | expired | cacheLost
  | kvLost | digestMismatch | signatureInvalid | notBound | decodeFault | uncorrectable | tierFailed | fwVersionRefused
  deriving DecidableEq, Repr, Inhabited

/-- The carriers of Lesar (R362). -/
inductive Carrier where
  | eth | udp4 | udp6
  deriving DecidableEq, Repr, Inhabited

/-- Where a received frame came from and went to: port, source address, carrier, the endpoint it was sent to (a partition,
0xFFFF for the device-level endpoint, 0xFFFE for broadcast), its VLAN identifier and the EtherType or UDP port it used. -/
structure Via where
  port : Nat
  src : Nat
  carrier : Carrier
  endpoint : Nat
  vid : Nat
  lesarId : Nat
  deriving DecidableEq, Repr, Inhabited

/-- The header context under which a frame's operation is served (R363): its session (0xFFFF for none, 0x10000 for the sideband
mailbox), its PARTITION field (0xFFFF for device level), its object handle or tag and, for a frame with no session, where the
answer goes (R362). -/
structure Ctx where
  sess : Nat
  part : Nat
  handle : Nat
  via : Option Via
  deriving DecidableEq, Repr, Inhabited

/-- Why the MAC drops a received frame (R355, R356, R359, R362). -/
inductive DropCause where
  | overLimit | badFcs | secondTag | wrongVlan | fragment | pause | udpChecksum | multicast
  deriving DecidableEq, Repr, Inhabited

/-- A storage or path error that the environment reports as struck where a command reads (R451): the command finds it and
handles it by the rule Table 1 of Errors, recovery and self-test names. `devicePod` says that a pod that fails was written by the
device itself, and names the requests and streams whose step reads it (R131); `noSource` says that the partition reaches no source of its
shard (R260). -/
inductive Strike where
  | scratch (tile row word : Nat) (ue : Bool)
  | dram (burst : Nat) (ue : Bool)
  | nandRetry (retries : Nat)
  | nandUe
  | parity (tile : Nat)
  | romParity (tile : Nat)
  | fabric (retries : Nat)
  | gzIndex
  | flash (word : Nat) (ue : Bool)
  | noSource
  | devicePod (readers : List Nat)
  | bank (tile : Nat)
  deriving DecidableEq, Repr, Inhabited

/-- A matrix operand by its descriptor (Table 7 of The tile). -/
structure Desc where
  fmt : Nat
  pod : Bool
  krows : Bool
  cbSlot : Nat
  cbSub : Nat
  base : Nat
  scale : Nat
  extent : Nat
  k : Nat
  stride : Nat
  deriving DecidableEq, Repr, Inhabited

/-- Where a drain sends the bank (R72): rows of the scratchpad from a row, or the READY bank of a quad neighbour. -/
inductive DrainDst where
  | rows (row : Nat)
  | neighbour (tile : Nat)
  deriving DecidableEq, Repr, Inhabited

/-- The addend of twin_add (R76): an FP32 vector in 8 rows, or the exact sum of one k-slice rounded once. -/
inductive TwinSrc where
  | vector (row : Nat)
  | slice (a b : Desc) (bi bj s : Nat)
  deriving DecidableEq, Repr, Inhabited

/-- What a launched lane kernel computes. The chapters define five bodies (sampling, soft maximum, attention,
normalisation, rotary arithmetic, the segmented scan); every other kernel is its own lane instructions. Addresses are
scratchpad byte addresses. `attend` covers `count` entries of a list from `first`, its running partial at `acc` between calls; `kv` names
the layer, the key-value head and the new position's key and value, FP32 vectors, that it writes into the open page first. -/
inductive KernelBody where
  | code
  | sample (handle beam logits fmt : Nat)
  | softmax (src dst len : Nat)
  | attend (handle beam query first count scores values d acc dst : Nat) (kv : Option (Nat × Nat × Nat × Nat))
  | rms (src dst gain w xFmt gFmt yFmt : Nat)
  | layer (src dst gain bias w xFmt gFmt bFmt yFmt : Nat)
  | rotary (src dst pos : Nat)
  | scan (handle h0 a x y pairs : Nat)
  deriving DecidableEq, Repr, Inhabited

/-- Which of the bodies of the chapters a kernel is, 0 for its own lane instructions. -/
def KernelBody.kind : KernelBody → Nat
  | .code => 0
  | .sample _ _ _ _ => 1
  | .softmax _ _ _ => 2
  | .attend _ _ _ _ _ _ _ _ _ _ _ => 3
  | .rms _ _ _ _ _ _ _ => 4
  | .layer _ _ _ _ _ _ _ _ _ => 5
  | .rotary _ _ _ => 6
  | .scan _ _ _ _ _ _ => 7

/-- A lane kernel of a program section (R80, R81, Table 5 of The tile): its entry point, its instructions in the lane instruction store,
the most crews it is launched with, its registers, argument words and nesting of paths, what it computes, and whether every one of its
instructions is one that the toolchain can emit. -/
structure LaneKernel where
  entry : Nat
  instrs : Nat
  crews : Nat
  regs : Nat
  args : Nat
  depth : Nat
  body : Nat
  emitted : Bool
  deriving DecidableEq, Repr, Inhabited

/-- What the install-time rules ask of a program section, its step programs and lane kernels (R66, R67, R80, R81, R84, R98, R112, R117,
R192, R204, R247, R249): instructions for each bay of the partition, in the order of its bays; the descriptors of its matrix operands, and
the pairs of them that its operations name; the scratchpad rows that its fixed addresses name, as first row and number; the runs of the
partition's LPDDR5X share that its DMA and TABLE instructions name, as offset and bytes; its lane kernels, each with the place of its tile
among the partition's tiles; its CONST coefficients as FP32. The flags say that it names an operand outside the tile's own scratchpad, a
scale plane held in pods, a pod tensor as the source of a lane access, an SFU row operation, a TABLE load or an activation send, a lent or
NAND address as the destination of a write, or rows of a tile beyond the tile's quad or partition. -/
structure Program where
  bays : List Nat
  descs : List Bytes
  pairs : List (Nat × Nat)
  rows : List (Nat × Nat)
  share : List (Nat × Nat)
  kernels : List (Nat × LaneKernel)
  coeffs : List Word
  farOperand : Bool
  scalePods : Bool
  podSource : Bool
  farWrite : Bool
  farRows : Bool
  deriving DecidableEq, Repr, Inhabited

/-- Rounding modes of lane conversions (R45). -/
inductive RMode where
  | rne | rtz | rdn | rup
  deriving DecidableEq, Repr, Inhabited

/-- Packed lane formats (R45, R78). -/
inductive PkFmt where
  | bf16 | fp16 | int16
  deriving DecidableEq, Repr, Inhabited

/-- Arithmetic operations of the lanes (Table 4 of The tile). -/
inductive AOp where
  | add | mul | fma
  deriving DecidableEq, Repr, Inhabited

/-- Logic operations of the lanes. -/
inductive LOp where
  | and | or | xor | not
  deriving DecidableEq, Repr, Inhabited

/-- Relations of a lane compare. -/
inductive Rel where
  | eq | ne | lt | le
  deriving DecidableEq, Repr, Inhabited

/-- Types of a lane compare. -/
inductive CmpTy where
  | f32 | i32 | u32
  deriving DecidableEq, Repr, Inhabited

/-- One crew instruction of the lane engine (R77 to R79, R45, R52). Register operands are V0 to V31. -/
inductive LaneOp where
  | f32 (op : AOp) (d a b c : Nat)
  | i32 (op : AOp) (sat : Bool) (d a b c : Nat)
  | packed (fmt : PkFmt) (op : AOp) (sat : Bool) (d a b c : Nat)
  | logic (op : LOp) (d a b : Nat)
  | shift (left arith half : Bool) (d a b : Nat)
  | cmp (ty : CmpTy) (rel : Rel) (d a b : Nat)
  | select (d c a b : Nat)
  | convert (src dst : Nat) (mode : RMode) (d a : Nat)
  | shuffle (d a idx : Nat)
  | reduceLevel (level d a : Nat)
  | reduce (d a : Nat)
  | branch (c : Nat)
  | otherPath
  | reconverge
  | loop (count : Nat)
  | loopEnd
  deriving DecidableEq, Repr, Inhabited

/-- One end of a tile DMA transfer (R247): scratchpad rows of a tile, an offset of the partition's LPDDR5X share, an offset
in one of its loans, an offset of its NAND share. -/
inductive DmaEnd where
  | rows (tile row : Nat)
  | dram (off : Nat)
  | loan (loan off : Nat)
  | nand (off : Nat)
  deriving DecidableEq, Repr, Inhabited

/-- One tile DMA transfer: an identifier for its SYNC, its ends, its rows, and the pods it moves, if it moves a pod tensor
(R130): the end that holds the tensor header, the first pod's index and the number of pods. -/
structure DmaOp where
  id : Nat
  src : DmaEnd
  dst : DmaEnd
  rows : Nat
  pods : Option (DmaEnd × Nat × Nat)
  deriving DecidableEq, Repr, Inhabited

/-- A table load (R87, R88): kind 0 lane, 1 codebook, 2 mask; bank 0 SHADOW, 2 bank 0, 3 bank 1; a quad, or every tile. -/
structure LoadOp where
  kind : Nat
  slot : Nat
  row : Nat
  rows : Nat
  bank : Nat
  swap : Bool
  quad : Option Nat
  deriving DecidableEq, Repr, Inhabited

/-- Traffic classes of the Veolo links (Table 2 of Veolo links), in the order of their codes. -/
inductive LClass where
  | activation | ring | collective | lent | management
  deriving DecidableEq, Repr, Inhabited

/-- What a SYNC waits on (Table 6 of The tile): transfers of the tile DMA, flash-resident tensors that are being fetched (R264), the
queues of tiles, a bay barrier or a partition barrier. -/
structure SyncOp where
  xfers : List Nat
  fetches : List Nat
  tiles : List Nat
  bayBarrier : Bool
  partBarrier : Bool
  deriving DecidableEq, Repr, Inhabited

/-- What a flow instruction tests (R83). -/
inductive FlowOp where
  | loop (count : Nat)
  | loopBack
  | branchField (word value target : Nat)
  | branchStatus (tile : Nat) (target : Nat)
  deriving DecidableEq, Repr, Inhabited

/-- A flit as Table 2 of Veolo links lays it out; `pair` is the pair sequence number that a first flit carries (R287). -/
structure Flit where
  kind : Nat
  cls : LClass
  first : Bool
  last : Bool
  seq : Nat
  dest : Nat
  src : Nat
  len : Nat
  prio : Nat
  part : Nat
  payload : Bytes
  ackValid : Bool
  ackSeq : Nat
  crcOk : Bool
  pair : Nat
  deriving DecidableEq, Repr, Inhabited

/-- A decision of the first stage about sheets, lists, binds and the work of a step (R164, R206, R201): a sequence that has left; a node set,
with what its record holds, or cleared; a copy of an open sheet, with the sequence's entry for it; an entry added to a list; an inset that has
been computed, or removed; a request paused, restored into sheets, or freed; a stream parked, bound or closed; the positions that a sequence
takes, with its mask region (R172); the chunk that a stream advances by. -/
inductive Decision where
  | drop (handle beam : Nat)
  | node (sheet : Nat) (on : Bool) (parent : Option Nat) (hash : Dword) (stamp : Nat)
  | copySheet (handle beam src dst pos fill : Nat)
  | take (handle beam sheet pos fill : Nat) (inset : Bool)
  | insetDone (handle : Nat)
  | insetGone (handle : Nat)
  | pause (handle tier : Nat)
  | restore (handle : Nat) (sheets : List Nat)
  | free (handle : Nat)
  | close (handle : Nat)
  | park (handle : Nat)
  | bind (handle number : Nat)
  | run (handle beam index pos : Nat) (toks : List Nat) (mask : Option (Nat × Nat × Nat))
  | chunk (handle index positions : Nat) (marks : List Nat) (final : Bool)
  deriving DecidableEq, Repr, Inhabited

/-- A partial of the statistics collective (R147): m, s and o as FP32. -/
structure Partial where
  m : Word
  s : Word
  o : List Word
  deriving DecidableEq, Repr, Inhabited

/-- What training and discovery report of the peer (R279, R282, R288): whether it is a PB-5 module, whether it allows G7, its number and
its validity, its link and its alignment. -/
structure PeerInfo where
  pb5 : Bool
  g7 : Bool
  num : Nat
  valid : Bool
  link : Nat
  aligned : Bool
  deriving DecidableEq, Repr, Inhabited

/-- One sample of the power guard's sensors (R443): temperatures in quarter degrees, input voltage in 0.125 V, input
current in mA. A sensor that is not due at this sample gives `none`. -/
structure GuardReading where
  now : Nat
  junctions : Option (List Int)
  portJunction : Option Int
  lid : Option Int
  vin : Nat
  iin : Nat
  deriving DecidableEq, Repr, Inhabited

/-- A firmware or Keeper runtime image as stored (Table 2 of Processors, firmware and start-up): its bytes. -/
abbrev ImageBytes := Bytes

/-- Commands of the module: the rows of the table of operations and events, in the table's order. -/
inductive Instr where
  -- the meridian and the step
  | meridian (p now : Nat)
  | emptyStep (p now : Nat)
  | pipelineDone (p : Nat) (fromNext : Option Nat)
  | pipelineTMessage (p t count : Nat) (confirmed : List Nat)
  | pipelineMeridian (p now : Nat)
  | targetAcceptReport (p stage handle target : Nat)
  | stepDecisions (p count : Nat) (block : List Word) (ds : List Decision)
  | tokenReturn (p handle beam token : Nat)
  | heartbeat
  | mgmtProcessorStopped
  -- the tile
  | matrix (tiles : List Nat) (a b : Desc) (bank : Nat) (cont : Bool) (env : List Strike)
  | drain (t bank fmt : Nat) (dst : DrainDst) (env : List Strike)
  | drainComplete (t bank : Nat)
  | preload (t bank row : Nat) (int : Bool)
  | twinBind (t : Nat) (src : Option Nat)
  | twinUnbind (t : Nat)
  | twinAdd (t : Nat) (src : TwinSrc) (env : List Strike)
  | twinMul (t row : Nat)
  | stateRead (t row : Nat)
  | stateOverwrite (t row : Nat)
  | streamCommit (p handle slot : Nat) (planes : List (DmaEnd × DmaEnd)) (env : List Strike)
  | kernelLaunch (t crews entry : Nat) (args : List Word) (body : KernelBody) (env : List Strike)
  | kernelEnd (t kernel : Nat)
  | laneInstruction (t crew : Nat) (op : LaneOp)
  | gatherRead (t crew width addr d : Nat) (env : List Strike)
  | gatherWrite (t crew width addr a : Nat)
  | laneTableLookup (t crew width slot idx d : Nat)
  | sfuLane (t crew fn inFmt out : Nat) (upper rotary : Bool) (d a b : Nat) (env : List Strike)
  | sfuRowOperation (t fn inFmt outFmt src dst : Nat) (env : List Strike)
  | randomDraw (t crew : Nat) (seed : Dword) (pos draw beam d : Nat)
  | dma (t : Nat) (op : DmaOp) (env : List Strike)
  | dmaComplete (t id now : Nat)
  | fill (t row count : Nat) (c : Dword)
  | copy (t src dst count : Nat) (env : List Strike)
  | compressOnStore (t row : Nat) (dst tag : DmaEnd) (pod : Nat) (env : List Strike)
  | podTagWrite (bay : Nat)
  | tableLoad (t srcRow : Nat) (op : LoadOp) (env : List Strike)
  | tblLoad (c : Ctx) (p : Nat) (value : Word)
  | tableLoadComplete (p : Nat)
  | tableCopyComplete (p kind : Nat)
  | linkSend (t : Nat) (cls : LClass) (dir row count width : Nat) (fp32 : Bool) (env : List Strike)
  | linkReceive (t : Nat) (cls : LClass) (dir row count width : Nat) (fp32 : Bool)
  | sync (p bay now : Nat) (op : SyncOp)
  | flow (p bay at_ : Nat) (op : FlowOp)
  | endStep (p bay : Nat)
  | fetch (p tensor layer : Nat) (env : List Strike)
  | fetchComplete (p tensor now : Nat)
  -- the scratchpad
  | scratchpadScrub (t : Nat) (env : List Strike)
  | gratCtlWrite (c : Ctx) (p : Nat) (value : Word)
  | tileZeroFill (t : Nat)
  -- collectives and rings
  | statisticsPartial (p collective : Nat) (incoming own : Partial) (ns : Nat)
  | ringSegment (p owner handle offset round first : Nat) (toks : List Nat) (blocked : Bool) (own : List Partial)
  | ringQuery (p owner handle : Nat) (own : Partial)
  | ringRelease (p owner handle : Nat)
  -- the gazetteer and the key-value registers
  | gazetteerWalk (p handle : Nat) (env : List Strike)
  | gazetteerWalkEnd (p handle : Nat)
  | gzRebuildComplete (p : Nat)
  | gzInitComplete (p : Nat)
  | gzCtlWrite (c : Ctx) (p : Nat) (value : Word)
  | kvRingCtlWrite (c : Ctx) (p : Nat) (value : Word)
  | bitmapLoad (c : Ctx) (p : Nat) (value : Word)
  | bitmapCopyComplete (p : Nat)
  | strmCtlWrite (c : Ctx) (p : Nat) (value : Word)
  -- serving
  | openRequest (c : Ctx) (payload : Bytes)
  | appendTokens (c : Ctx) (payload : Bytes)
  | cancelRequest (c : Ctx) (payload : Bytes)
  | pauseRequest (c : Ctx) (payload : Bytes)
  | resumeRequest (c : Ctx) (payload : Bytes)
  | promptTimeout (p handle : Nat)
  | pauseMoveComplete (p handle : Nat)
  | pauseExpiry (p handle now : Nat)
  | tombstoneExpiry (p handle : Nat)
  | restoreComplete (p handle : Nat) (env : List Strike)
  | openStream (c : Ctx) (payload : Bytes)
  | streamChunk (c : Ctx) (payload : Bytes)
  | parkStream (c : Ctx) (payload : Bytes)
  | closeStream (c : Ctx) (payload : Bytes)
  | lsReqLimitWrite (c : Ctx) (p : Nat) (value : Word)
  | lsReqCtlWrite (c : Ctx) (p : Nat) (value : Word)
  -- memory tiers
  | dramPatrolScrub (burst : Nat) (env : List Strike)
  | refreshRatePoll (hottest : List Nat)
  | refreshWindow (package : Nat)
  | dramCalibration (channel : Nat) (good : Bool)
  | nandChannelFail (channel : Nat)
  | mapSave
  | readDisturbRefresh (block : Nat)
  | retentionPatrol (block : Nat) (retries : List Nat) (now : Nat)
  | garbageCollection (blocks : List Nat)
  | wearLevelling (block : Nat)
  | nandOperationComplete (die : Nat)
  | ntPauseCtlWrite (c : Ctx) (value : Word)
  | pauseAreaResize
  | loanRequest (c : Ctx) (p : Nat) (value : Word)
  | loanGrant (p link extents : Nat) (answer : Status)
  | loanRelease (c : Ctx) (p : Nat) (value : Word)
  | tierLendOfferWrite (c : Ctx) (value : Word)
  | reclaimNotice (p loan : Nat)
  | graceExpiry (p loan : Nat)
  | lentMemoryRequest (link loan off : Nat) (write : Option Bytes) (len cls : Nat)
  -- Veolo links
  | linkLossOfSignal (link : Nat)
  | linkSignalDetect (link : Nat)
  | hail (link rank : Nat)
  | hailTimeout (link : Nat)
  | backoffExpiry (link : Nat)
  | trainComplete (link : Nat) (peer : PeerInfo)
  | trainTimeout (link : Nat)
  | fastRetrain (link : Nat)
  | fastRetrainComplete (link : Nat)
  | fastRetrainTimeout (link : Nat)
  | retrain (c : Ctx) (link : Nat) (value : Word)
  | flit (link : Nat) (f : Flit) (env : List Strike)
  | nak (link seq : Nat)
  | creditReturn (link : Nat) (cls : LClass)
  | timeMarker (link : Nat) (t1 t2 t3 t4 : Int)
  | timeAligned
  | leaveNotice (dir : Nat)
  | neighbourLost (dir : Nat)
  | vlDevNumWrite (c : Ctx) (value : Word)
  | vlTopoCtlWrite (c : Ctx) (value : Word)
  | resetNotice (p stage : Nat)
  | abortNotice (p count : Nat)
  | shardQuery (link : Nat) (digest : Bytes)
  | shardQueryTimeout (p : Nat) (answers : List Nat)
  -- model images
  | installModel (c : Ctx) (payload : Bytes)
  | shardData (c : Ctx) (payload : Bytes)
  | shardDataTimeout (p : Nat)
  | shardArrived (p : Nat)
  | loadComplete (p : Nat) (readable : Bool)
  | swapLayers (c : Ctx) (payload : Bytes)
  | swapReadComplete (p : Nat) (readable : Bool)
  | stopModel (c : Ctx) (payload : Bytes)
  | startModel (c : Ctx) (payload : Bytes)
  | removeModel (c : Ctx) (payload : Bytes)
  | loadLendable (c : Ctx) (payload : Bytes)
  | installInset (c : Ctx) (payload : Bytes)
  | insetTimeout (p handle : Nat)
  | removeInset (c : Ctx) (payload : Bytes)
  | shardScrub (p : Nat) (next mismatch : Bool)
  -- configuration flash
  | cfRead (c : Ctx) (payload : Bytes) (env : List Strike)
  | cfProgram (c : Ctx) (payload : Bytes)
  | cfErase (c : Ctx) (payload : Bytes)
  | cfEraseComplete
  | cfProgramComplete
  | cfSuspend (c : Ctx) (payload : Bytes)
  | cfResume (c : Ctx) (payload : Bytes)
  | cfBlankCheck (c : Ctx) (payload : Bytes)
  | cfHalfList (c : Ctx) (payload : Bytes)
  | cfProtSet (c : Ctx) (payload : Bytes)
  | cfPwSet (c : Ctx) (payload : Bytes)
  | cfProtRead (c : Ctx) (payload : Bytes)
  | cfTwinWrite (c : Ctx) (payload : Bytes)
  | cfBootSwap (c : Ctx) (payload : Bytes)
  | cfStartClear (c : Ctx) (payload : Bytes)
  | cfPwReset (c : Ctx) (payload : Bytes)
  | cfLogRead (c : Ctx) (payload : Bytes) (env : List Strike)
  -- host ports and the Lesar protocol
  | ethLinkUp (port speed : Nat) (master : Bool) (sqi : Nat)
  | ethLinkDown (port : Nat)
  | ethFrameDrop (port : Nat) (why : DropCause)
  | arpRequest (via : Via) (target : Nat)
  | neighbourSolicitation (via : Via) (target : Nat)
  | echoRequest (via : Via) (v6 : Bool) (data : Bytes)
  | secFrameFail (port : Nat)
  | oldAssociationExpiry (port dir : Nat)
  | ethFrameReceive (via : Via) (raw : Bytes)
  | openSession (via : Via) (c : Ctx) (retry : Bool) (gen : Nat) (payload : Bytes)
  | closeSession (c : Ctx) (payload : Bytes)
  | sessionIdleTimeout (sess : Nat)
  | ack (via : Via) (sess ackNum : Nat)
  | retransmitTimeout (sess seq : Nat)
  | segmentTimeout (sess : Nat)
  | regRead (c : Ctx) (payload : Bytes)
  | regWrite (c : Ctx) (payload : Bytes)
  | eventRegister (c : Ctx) (payload : Bytes)
  | eventHoldExpiry (stream : Nat)
  | discover (via : Via) (handle : Nat)
  | status (via : Via) (handle : Nat) (payload : Bytes)
  | lesarCarrierChangeExpiry
  -- the SMBus sideband
  | clearFaults
  | statusWord
  | statusInput
  | statusTemperature
  | readVin
  | readIin
  | readTemperature1
  | readTemperature2
  | readTemperature3
  | readPin
  | pmbusRevision
  | alertResponse
  | mfrRegAddr (addr : Word)
  | mfrRegData
  | mfrMboxWr (data : Bytes)
  | mfrMboxGo
  | mfrMboxClear
  | mfrMboxStatus
  | mfrMboxRd (len : Nat)
  | sidebandReplyReady
  -- firmware
  | loadFirmware (c : Ctx) (payload : Bytes)
  | loadFirmwareTimeout
  | firmwareCheckComplete
  | firstHeartbeatTimeout
  | activateFirmware (c : Ctx) (payload : Bytes)
  | activationProceed
  | activationTimeout
  -- resets, clocks, power
  | deviceReset (c : Ctx) (payload : Bytes)
  | deviceResetMapSaved
  | coreReset
  | systemReset
  | powerOnReset
  | resetN
  | resetNRelease
  | watchdogExpiry
  | watchdogRestart
  | clockLoss
  | clockRecovery
  | underVoltageWarning
  | underVoltageFault
  | overVoltageWarning
  | overVoltageFault
  | overVoltageRecovery
  | voltageWarningEnd (high : Bool)
  | guardSample (g : GuardReading)
  | tripRelease
  | pgCtlWrite (c : Ctx) (value : Word)
  | tileBlockReset (c : Ctx) (value : Word)
  | keeperRomStart
  | keeperRuntimeStart (halfBlank : List Nat)
  | portDieRelease
  | dramTrainingComplete (failed : List Nat)
  | readyForFirmware (ms : Nat)
  | startFrameHold (via : Via) (raw : Bytes)
  | networkBootImage (via : Via) (handle : Nat) (payload : Bytes)
  -- security and partitions
  | attest (c : Ctx) (payload : Bytes)
  | bindSet (c : Ctx) (payload : Bytes)
  | bindSetTimeout
  | setKey (c : Ctx) (payload : Bytes)
  | getCerts (c : Ctx) (payload : Bytes)
  | secKey (c : Ctx) (payload : Bytes)
  | unbindSet (c : Ctx) (payload : Bytes)
  | createPartition (c : Ctx) (payload : Bytes)
  | resizePartition (c : Ctx) (payload : Bytes)
  | resetPartition (c : Ctx) (payload : Bytes)
  | partitionResetFillComplete (p : Nat)
  | deletePartition (c : Ctx) (payload : Bytes)
  | setEndpoint (c : Ctx) (payload : Bytes)
  -- errors and the survey
  | stepReplay (p : Nat)
  | weightReloadComplete (p : Nat) (good : Bool)
  | surveyS0 (c : Ctx) (payload : Bytes)
  | surveyS0Complete (item : Nat) (fail : Bool) (detail : Nat)
  | surveyS1Tile (c : Ctx) (payload : Bytes)
  | surveyS1TestComplete (t : Nat) (pass : Bool)
  | surveyS1Gazetteer (c : Ctx) (payload : Bytes)
  | gazetteerIndexTestEnd (pass : Bool)
  | surveyS2 (c : Ctx) (payload : Bytes)
  | surveyS2Complete (badChannels badTiles : List Nat)
  | veoloErrorRateCheck (corrected uncorrectable codewords : List Nat)
  | lendableCopyComplete (p : Nat)
  | loanMovesEnd (p loan : Nat)
  deriving DecidableEq, Repr

/-- A SYNC of a step program. -/
def Instr.isSync : Instr → Bool
  | .sync _ _ _ _ => true
  | _ => false

end Sys2Proof
end

