-- ==== Sys2Proof/Decode.lean ====
section
/-!
DEFINITION. The commands that the opcode table spells with bits. No row of the table gives bits: commands are frames, register
accesses, instructions of a step program and events of the hardware, and each has its own constructor (log entry 1).
-/
namespace Sys2Proof

/-- The command that a word of the table spells: none, for no row gives bits. -/
def decodeTableWord (_nbits _w : Nat) : Option Instr := none

end Sys2Proof
end

