-- ==== Sys2Proof/Config.lean ====
section
/-!
DEFINITION. What the manual leaves open, as constants with no body: no proof can use a value of them (log entries 2 and 6). Each
is a function of what it depends on; a value that nothing fixes is `freeWord` of the counter `State.free`.
-/
namespace Sys2Proof

/-- A fresh 32-bit value for every number. -/
opaque Config.freeWord : Nat → Word

/-- What a stream has come to with one more chunk (R53, R54): what it had come to, the chunk and the inputs of the step, as the bytes they
are. -/
opaque Config.streamTrace : Nat → List Bytes → Nat
/-- The output bytes of a stream that has come to a value (R53, R200): byte by byte. -/
opaque Config.streamOutput : Nat → Nat → Byte

/-- The sheets that the key-value shares of the other stages of a pipeline allow (R158): the image's cartouche, the atlas, the stage. -/
opaque Config.stageSheets : Bytes → Bytes → Nat → Nat

/-- SM3 digest of a message (R303, R389): 32 bytes. -/
opaque Config.sm3 : Bytes → Bytes

/-- SM2 signature check under a public key (R389, R409): key, message, signature. -/
opaque Config.sm2Verify : Bytes → Bytes → Bytes → Bool

/-- SM2 signature by the device identity key (R413): the attestation's message. -/
opaque Config.identitySign : Bytes → Bytes

/-- A public key names a point of the curve (R411). -/
opaque Config.onCurve : Bytes → Bool

/-- The private key that a bound set's certificate belongs to opens it (R414): certificate, private key. -/
opaque Config.keyMatches : Bytes → Bytes → Bool

/-- A wrapped key opened with the device identity key (R414): none where the unwrapping fails. -/
opaque Config.unwrap : Bytes → Option Bytes

/-- The content key in a cartouche's key block, opened with the private key of the bound set (R303): private key, key block. -/
opaque Config.contentKey : Bytes → Bytes → Bytes

/-- What a program section holds (R82, R83, R85): the manual gives its limits and not its encoding, so the reading of its bytes is a free
function (log entry 13); what the rules ask of it is checked (`installCheck`). -/
opaque Config.programOf : Bytes → Program

/-- How a step program ranks a beam (R232): a free function of the beams' tokens and the beam's index; the largest rank is the highest. -/
opaque Config.beamRank : List (List Nat) → Nat → Nat

/-- SM4 in counter mode over a run of bytes (R306): key, first counter, bytes. -/
opaque Config.sm4Ctr : Bytes → Nat → Bytes → Bytes

/-- The device identity: its certificate chain and serial number (R406). -/
opaque Config.certs : Bytes
/-- The identity public key (R406): 65 bytes. -/
opaque Config.identityKey : Bytes
/-- The 16-byte device serial number (R404, R406). -/
opaque Config.serial : Bytes
/-- The public signer keys of the Keeper ROM (R389). -/
opaque Config.romKeys : List Bytes
/-- The factory MAC address of each Ethernet port (R357). -/
opaque Config.portMac : Nat → Nat

/-- What a lane compare writes where it holds; where this is 0 it writes 1 (log entry 11). -/
opaque Config.laneTrue : Word

/-- Coefficients of the SFU's ROM (R137, R484): function, mode, index; c2, c1, c0 as FP32 (log entry 6). -/
opaque Config.sfuCoeff : Nat → Nat → Nat → Word × Word × Word
/-- Cycles that an engine counter of the graticule has counted since it was last read (Table 9 of Scratchpad and the graticule):
cycles are not part of the model (log entry 7). -/
opaque Config.cycles : Nat → Word

/-- Code lengths that a compress-on-store engine gives a block's symbol counts (R122): the manual fixes their cost only. -/
opaque Config.podLengths : List Nat → List Nat

/-- The element codes of a block sent with scale 0xFF (R57): the manual gives its scale byte only. Format, element. -/
opaque Config.nanBlockElem : Nat → Nat → Nat

end Sys2Proof
end

