-- ==== Sys2Proof/Machine/Map.lean ====
section
/-!
DEFINITION. Sparse tables and memories as plain data: lists of key and value pairs with strictly rising keys. A memory
(`Mem`) is such a table of bytes in one canonical form: it lists no byte equal to what an unlisted address reads as, so that
equal memories are equal lists.
-/
namespace Sys2Proof.Machine

/-- A sparse table keyed by a number: key and value pairs with strictly rising keys. -/
abbrev NMap (α : Type) := List (Nat × α)

/-- The value listed at key `k`. -/
def NMap.find {α : Type} : NMap α → Nat → Option α
  | [], _ => none
  | (j, v) :: m, k => if j = k then some v else NMap.find m k

/-- The value at key `k`, `d` where none is listed. -/
def NMap.get {α : Type} (d : α) (m : NMap α) (k : Nat) : α := (NMap.find m k).getD d

/-- The table with `v` listed at key `k`, in its place in the order. -/
def NMap.insert {α : Type} : NMap α → Nat → α → NMap α
  | [], k, v => [(k, v)]
  | (j, w) :: m, k, v =>
    if k < j then (k, v) :: (j, w) :: m
    else if k = j then (k, v) :: m
    else (j, w) :: NMap.insert m k v

/-- The table without key `k`. -/
def NMap.erase {α : Type} (m : NMap α) (k : Nat) : NMap α := m.filter (fun e => e.1 != k)

/-- The table without the keys from `lo` up to but not including `hi`. -/
def NMap.eraseRange {α : Type} (m : NMap α) (lo hi : Nat) : NMap α :=
  m.filter (fun e => e.1 < lo || hi ≤ e.1)

/-- The table with `v` at key `k`, listing nothing where `v` is what an unlisted key reads as. -/
def NMap.put {α : Type} [DecidableEq α] (d : α) (m : NMap α) (k : Nat) (v : α) : NMap α :=
  if v = d then NMap.erase m k else NMap.insert m k v

/-- The entry at key `k` changed by `f`, if it is listed. -/
def NMap.modify {α : Type} (m : NMap α) (k : Nat) (f : α → α) : NMap α :=
  m.map (fun e => if e.1 = k then (e.1, f e.2) else e)

/-- The keys listed, rising. -/
def NMap.keys {α : Type} (m : NMap α) : List Nat := m.map Prod.fst

/-- The values listed, in key order. -/
def NMap.values {α : Type} (m : NMap α) : List α := m.map Prod.snd

/-- Keys strictly rising. -/
def NMap.sorted {α : Type} : NMap α → Bool
  | [] => true
  | [_] => true
  | (j, _) :: (k, w) :: m => decide (j < k) && NMap.sorted ((k, w) :: m)

/-- A byte-addressed memory in canonical form. -/
abbrev Mem := NMap Byte

/-- The canonical form of a memory whose unlisted bytes read as `d`: addresses strictly rising, no listed byte equal to `d`. -/
def Mem.wf (d : Byte) (m : Mem) : Bool := NMap.sorted m && m.all (fun e => e.2 != d)

/-- One byte. -/
def Mem.read (d : Byte) (m : Mem) (a : Nat) : Byte := NMap.get d m a

/-- One byte written; writing what an unlisted byte reads as removes the entry. -/
def Mem.write (d : Byte) (m : Mem) (a : Nat) (b : Byte) : Mem := NMap.put d m a b

/-- `n` bytes from address `a`, in address order. -/
def Mem.readN (d : Byte) (m : Mem) (a : Nat) : Nat → Bytes
  | 0 => []
  | n + 1 => Mem.read d m a :: Mem.readN d m (a + 1) n

/-- A run of bytes written from address `a` upwards. -/
def Mem.writeN (d : Byte) (m : Mem) (a : Nat) : Bytes → Mem
  | [] => m
  | b :: bs => Mem.writeN d (Mem.write d m a b) (a + 1) bs

/-- `n` bytes from address `a` back at what an unlisted byte reads as. -/
def Mem.clear (m : Mem) (a n : Nat) : Mem := NMap.eraseRange m a (a + n)

end Sys2Proof.Machine
end

