-- ==== Sys2Proof/Machine/State.lean ====
section
/-!
DEFINITION. The state of the module, as plain data: everything the manual gives it. Every register of the register reference
lives in `regs`, keyed by its address, where an unlisted address reads as its reset value (R480, R483); the rest of the state
is the structures the chapters describe. `pending` is the queue of commands that wait, first in, first out.
-/
namespace Sys2Proof.Machine

open Sys2Proof

/-! ## The tile (R71 to R81, R110, R111) -/

/-- States of an accumulator bank (Table 3 of The tile). -/
inductive BankSt where
  | empty | preloaded | accum | ready | drain
  deriving DecidableEq, Repr, Inhabited

/-- One accumulator bank: entry (i, n) of the array at key 32 × i + n, unlisted entries zero (R71, R73);
`rows` and `cols` say how much of the block lies within M and N (R66), `blk` which block of C it holds, in row-major order (R63). -/
structure Bank where
  st : BankSt
  int : Bool
  sat : Bool
  blk : Nat
  rows : Nat
  cols : Nat
  cells : NMap Word
  deriving DecidableEq, Repr, Inhabited

/-- A lane crew: register r of lane l at key 32 × l + r, the active mask, the divergence stack (the mask to restore and the
mask of the other path) and the running loop counts (R78, R79). -/
structure Crew where
  kernel : Nat
  regs : NMap Word
  active : Dword
  paths : List (Dword × Dword)
  loops : List Nat
  deriving DecidableEq, Repr, Inhabited

/-- A resident lane kernel: its crews, its entry point and its argument block (R81). -/
structure Kernel where
  crews : List Nat
  entry : Nat
  args : List Word
  body : KernelBody
  deriving DecidableEq, Repr, Inhabited

/-- A matrix operation in a tile's queue (R63, R83): `next` is the block of C that it computes next, in row-major order, `bank` the bank
that it names, which it continues where that bank was left open; `dev` names the requests and streams that read a pod written by the
device, if one of its pods is (R131). -/
structure MatrixOp where
  dev : Option (List Nat)
  a : Desc
  b : Desc
  next : Nat
  bank : Nat
  cont : Bool
  deriving DecidableEq, Repr, Inhabited

/-- A kernel launch that waits (R81, R83); `rom` says that a read of the coefficient ROM fails parity while it runs (R153). -/
structure LaunchOp where
  crews : Nat
  entry : Nat
  args : List Word
  body : KernelBody
  rom : Bool
  deriving DecidableEq, Repr, Inhabited

/-- A transfer in a tile's DMA queue, with the tier stall that a SYNC on it would count (Table 5 of Memory tiers). -/
structure DmaJob where
  op : DmaOp
  cause : Option Nat
  deriving DecidableEq, Repr, Inhabited

/-- One tile, but for its scratchpad rows, which stand in `Mems.scratch`. `tables` is its table store, both banks (R86); `store` its lane
instruction store, the kernels that INSTALL_MODEL has written (R17, R81); `bankBad` says that a row of its banks has an uncorrectable error, as
a park drain finds it (R211);
`bad` its words with a struck error, `true` for uncorrectable, at key 64 × row + word (R110). -/
structure Tile where
  bank0 : Bank
  bank1 : Bank
  last : Nat
  twin : Bool
  bound : Option (Nat × Nat × Nat)
  satStatus : Bool
  crews : NMap Crew
  kernels : NMap Kernel
  nextKernel : Nat
  matrixQ : List MatrixOp
  dmaQ : List DmaJob
  launchQ : List LaunchOp
  store : List LaneKernel
  tables : Mem
  bad : NMap Bool
  bankBad : Bool
  scrubPtr : Nat
  deriving DecidableEq, Repr, Inhabited

/-- A store of a compress-on-store engine whose tag is still to be written (R129); `held` while another store to its slot has not
written its tag. -/
structure PodStore where
  part : Nat
  tile : Nat
  row : Nat
  dst : DmaEnd
  tag : DmaEnd
  pod : Nat
  held : Bool
  tagWord : Word
  deriving DecidableEq, Repr, Inhabited

/-! ## The key-value cache (R155 to R188) -/

/-- A sheet record (Table 1 of Attention and the key-value cache). -/
structure Sheet where
  refs : Nat
  start : Nat
  fill : Nat
  closed : Bool
  node : Bool
  inset : Bool
  parent : Option Nat
  hash : Dword
  stamp : Nat
  tokens : List Nat
  deriving DecidableEq, Repr, Inhabited

/-- A page-list entry (Table 2 of Attention and the key-value cache). -/
structure PageEntry where
  start : Nat
  fill : Nat
  inset : Bool
  sheet : Nat
  deriving DecidableEq, Repr, Inhabited

/-- A segment of a sequence of another module that this member holds (R177 to R180): the device that is home to the sequence, its
offset, its sheets, the running partials of ring prefill, one per query row and head, the rounds it has gone through, and the partial that answers a decode query until the
fold of R148 reaches this member. -/
structure Segment where
  owner : Nat
  handle : Nat
  offset : Nat
  sheets : List Nat
  acc : List Partial
  rounds : Nat
  reply : Option Partial
  deriving DecidableEq, Repr, Inhabited

/-! ## Requests and streams (R214 to R244) -/

/-- The fields of OPEN_REQUEST, as a resume may later replace them (Table 1 of Serving requests and streams). -/
structure ReqOpts where
  endPause : Bool
  beams : Nat
  stops : List Nat
  inset : Nat
  seed : Dword
  temperature : Word
  topK : Nat
  topP : Word
  maxNew : Nat
  ttl : Nat
  parent : Option Nat
  mask : Option (Nat × Nat × Nat)
  deriving DecidableEq, Repr, Inhabited

/-- Where a request stands: waiting (its prompt arriving, its walk running, a candidate), admitted, being moved to a slower
tier, paused, or being resumed (R218, R236, R240). -/
inductive ReqSt where
  | waiting | admitted | pausing | paused | resuming | restoring
  deriving DecidableEq, Repr, Inhabited

/-- One request of a partition. `sess` is `none` for a paused request that no session holds (R217); `prompt` the waiting
tokens; `candAt` the order in which it became a candidate; `left` its remaining budget; `moved` the entries, records and stored bytes of the sheets a pause moved and
the tier that holds them (R236); `list` the entries of a request that is not admitted; `pauseBy` the frame that its pause answers. -/
structure Req where
  sess : Option Nat
  st : ReqSt
  opts : ReqOpts
  more : Bool
  prompt : List Nat
  hits : List Nat
  walked : Bool
  candAt : Option Nat
  passed : Nat
  claimed : Nat
  left : Nat
  resumeOpts : Option ReqOpts
  tier : Nat
  tierWant : Nat
  moved : List (PageEntry × Sheet × Bytes)
  list : List PageEntry
  pos : Nat
  endsAt : Option Nat
  pauseBy : Option Ctx
  lastToken : Nat
  deriving DecidableEq, Repr, Inhabited

/-- One admitted entry: one sequence of a live request (R218). `todo` holds the prompt tokens still to be prefilled, `took`
the positions it takes in the step in progress, `sampled` what TOKEN_RETURN has brought back of this step, `out` the tokens
of a beam that are not emitted (R232), `ring` its segment table: ring member, first position, positions (R178), `mask` its mask region
(R172). -/
structure Seq where
  handle : Nat
  beam : Nat
  index : Nat
  list : List PageEntry
  pos : Nat
  todo : List Nat
  took : Nat
  inStep : Bool
  sampled : Option Nat
  lastToken : Nat
  out : List Nat
  ring : List (Nat × Nat × Nat)
  mask : Option (Nat × Nat × Nat)
  deriving DecidableEq, Repr, Inhabited

/-- One chunk of a stream: its index, positions, marks, data and place in the order of arrival (R196, R201, R208). -/
structure Chunk where
  index : Nat
  positions : Nat
  marks : List Nat
  final : Bool
  data : Bytes
  arrived : Nat
  deriving DecidableEq, Repr, Inhabited

/-- A chunk whose parts are arriving (R243): the fixed bytes its parts share, its part count and the bytes so far. -/
structure Parts where
  fixed : Bytes
  parts : Nat
  next : Nat
  data : Bytes
  chunk : Chunk
  deriving DecidableEq, Repr, Inhabited

/-- Where a stream stands (R203, R242). -/
inductive StrSt where
  | opening | parked | bound
  deriving DecidableEq, Repr, Inhabited

/-- One stream of a partition. `page` is its place in the state area; `tiles` holds the tile of each of its slots while bound; `current` the chunk of the step in
progress; `committed` the slots whose commit has completed in it (R198, R200); `boundAt` its place in the order of binding; `nonfinite` the
slots whose last commit left a pair infinite or a NaN (R202); `fresh` a stream that has not been bound yet (R206); `trace` what its chunks have come to, the model's own (R53; log entry 2). -/
structure Strm where
  page : Nat
  sess : Nat
  st : StrSt
  tiles : List Nat
  number : Nat
  queue : List Chunk
  arriving : Option Parts
  nextChunk : Nat
  doneChunk : Nat
  current : Option Chunk
  committed : List Nat
  boundAt : Nat
  finalSent : Bool
  idle : Nat
  nonfinite : List Nat
  fresh : Bool
  trace : Nat
  deriving DecidableEq, Repr, Inhabited

/-- An inset: its form, tokens or tensor, length, positions computed, page list, and whether it is installed (R325, R326). -/
structure Inset where
  form : Nat
  tokens : List Nat
  tensor : Nat
  count : Nat
  done : Nat
  list : List PageEntry
  admitted : Bool
  installed : Bool
  ctx : Ctx
  candAt : Nat
  again : Option (List PageEntry)
  deriving DecidableEq, Repr, Inhabited

/-! ## Models, loans and partitions -/

/-- Model states (Table 5 of Model images). -/
inductive MState where
  | empty | fetching | loading | loaded | started | draining | swapping | held
  deriving DecidableEq, Repr, Inhabited

/-- One image: its handle, the bytes of its cartouche and atlas, this module's stage, and the bytes of its shard (R301 to
R305). -/
structure Image where
  handle : Nat
  cart : Bytes
  atlas : Bytes
  stage : Nat
  shard : Bytes
  deriving DecidableEq, Repr, Inhabited

/-- Where an installation's shard is being taken from (R312). -/
inductive ShardSrc where
  | none | query | neighbour (n : Nat) | host
  deriving DecidableEq, Repr, Inhabited

/-- An installation that runs (R309 to R314). -/
structure Install where
  ctx : Ctx
  fetchOnly : Bool
  noHost : Bool
  cartLen : Nat
  atlasLen : Nat
  cart : Bytes
  atlas : Bytes
  shard : Bytes
  stage : Nat
  src : ShardSrc
  again : Bool
  loading : Bool
  image : Option Image
  deriving DecidableEq, Repr, Inhabited

/-- A swap of layers that runs (R318 to R324): the frame to answer, the target, the next layer of the stage, whether its read
has completed, and where the read has put its tensors in the swap room. -/
structure Swap where
  ctx : Ctx
  target : Nat
  active : Bool
  layer : Nat
  readDone : Bool
  put : NMap Nat
  recompute : List Nat
  deriving DecidableEq, Repr, Inhabited

/-- A drain of STOP_MODEL that runs: the frame to answer, its mode and limit and the instant it began (R316). -/
structure Draining where
  ctx : Ctx
  since : Nat
  seconds : Nat
  deriving DecidableEq, Repr, Inhabited

/-- A loan that the partition borrows (R265 to R270), with the number it goes by among the partition's; `mem` is what the lender holds for
it, zero when it is granted (R266). -/
structure Loan where
  id : Nat
  link : Nat
  extents : Nat
  active : Bool
  notice : Bool
  returning : Bool
  movesDone : Bool
  graceOver : Bool
  copies : List Nat
  mem : Mem
  deriving DecidableEq, Repr, Inhabited

/-- One slot of the expert cache (R263, R264): the layer that pins it, whether its tensor is still arriving, the stall that a SYNC on the fetch
would count (Table 5 of Memory tiers), and the place of the fetch in the order of issue. -/
structure XSlot where
  tensor : Option Nat
  lastUse : Nat
  pinned : Option Nat
  arriving : Bool
  cause : Nat
  order : Nat
  deriving DecidableEq, Repr, Inhabited

/-- A setting staged with a target MER_COUNT (R25). -/
inductive Targeted where
  | start (c : Ctx) | stop (c : Ctx) (now : Bool) (seconds : Nat) | swap (c : Ctx)
  deriving DecidableEq, Repr, Inhabited

/-- A resize that is staged (R419): what it changes and the values it carries. -/
structure Resize where
  ctx : Ctx
  flags : Nat
  cls : Nat
  quads : List Nat
  dram : List Nat
  nand : List Nat
  quota : Nat
  deriving DecidableEq, Repr, Inhabited

/-- Settings staged for a partition's next meridian (Table 5 of Architecture). Each frame's context is kept for its answer. -/
structure Staged where
  cancels : List (Nat × Option Ctx)
  pauses : List (Nat × Ctx × Nat × Nat)
  parks : List (Nat × Option Ctx)
  closes : List (Nat × Option Ctx)
  opens : List (Nat × Ctx)
  resize : Option Resize
  takeOut : List (Nat × Ctx)
  putBack : List Nat
  grat : Bool
  gzOff : Bool
  edition : Bool
  removeInsets : List (Nat × Ctx)
  targeted : List (Nat × Nat × Targeted)
  reset : Option Ctx
  endAll : Option Nat
  deriving DecidableEq, Repr, Inhabited

/-- The step in progress of a partition on this stage (R18, R61, R154, R213, R453 to R457): how often it has been run, why the
last attempt failed, the counts that are added only when it completes; `colls` the ring positions of the owners of the collectives that this
module's step takes part in (R150); `taken` the messages that the step has received, which a replay takes again (R455). -/
structure StepSt where
  openedAt : Nat
  count : Nat
  empty : Bool
  kind : Nat
  block : List Word
  attempts : Nat
  failed : Option Status
  repair : Bool
  amax : Word
  sat : Nat
  nan : Nat
  sfuClamp : Nat
  sfuNan : Nat
  sfuRom : Nat
  strmReset : Nat
  strmNonfinite : Nat
  strmBind : Nat
  colls : List Nat
  taken : List (Nat × LClass × Nat × Bytes)
  finished : Bool
  deriving DecidableEq, Repr, Inhabited

/-- The wait of a SYNC (R272): when it began, and the instant and the cause of the transfer that has completed last among those of
Table 5 of Memory tiers. -/
structure SyncWait where
  since : Nat
  last : Option (Nat × Nat)
  deriving DecidableEq, Repr, Inhabited

/-- A context of a bay sequencer (R82, R83): where it went on after its last flow instruction, its running loops with their first
instruction and what is left of their counts, whether it has reached END; `waiting` holds the instructions that have reached it and not
issued, in program order, the first of them waiting for its condition, and `sync` the wait of a SYNC that stands first. -/
structure BayCtx where
  pc : Nat
  loops : List (Nat × Nat)
  ended : Bool
  waiting : List Instr
  sync : Option SyncWait
  deriving DecidableEq, Repr, Inhabited

/-- One event record (Table 8 of Host ports), with the partition its frame names. -/
structure Evt where
  part : Nat
  status : Status
  source : Nat
  object : Nat
  detail : Nat
  time : Nat
  deriving DecidableEq, Repr, Inhabited

/-- The events of one partition, or of the device: the records held and not sent, and the registered session (R378 to R380). -/
structure EvtStream where
  sess : Option Nat
  held : List Evt
  deriving DecidableEq, Repr, Inhabited

/-- A table load that runs or waits (R87 to R92): `bay` is the bay whose context issued it, none where TBL_LOAD_CTL.GO started it. -/
structure LoadJob where
  op : LoadOp
  rows : Bytes
  bay : Option Nat
  deriving DecidableEq, Repr, Inhabited

/-- What has left the first stage of a pipeline since its last meridian, of which the later stages are still to be told (R164): a request or the
computation of an inset, named as its sequence is; a stream; a resume that has been taken back. -/
inductive Gone where
  | seq (h : Nat) | stream (h : Nat) | resume (h : Nat)
  deriving DecidableEq, Repr, Inhabited

/-- One partition (R417): its extents in share order; `held` the stages whose reset is awaited, `lost` those whose module is gone (R298, R425);
`refetch` the shard that is fetched again after its scrub (R330); `progs` the instructions of its step programs in the program store of each
bay (R84); `places` where tensors of the weight area stand that a swap of layers has moved, `room` the runs of the share that are its swap room
(R319, R321); `joined` says that the stages of its pipeline step together (R24); `gone` and `nodesTold` what the later stages of its
pipeline are still to be told, and the nodes that they know of, each with its stamp (R164). -/
structure Part where
  cls : Nat
  quads : List Nat
  dram : List Nat
  nand : List Nat
  mac : Nat
  vid : Nat
  ip4 : Nat
  ip6 : Nat
  ownerKey : Option Bytes
  ownerMark : Nat
  resetting : Option (Ctx × Bool)
  held : List Nat
  lost : List Nat
  -- model
  mstate : MState
  image : Option Image
  next : Option Image
  shards : List Bytes
  install : Option Install
  refetch : Option Install
  swap : Option Swap
  draining : Option Draining
  lendCopy : Option Ctx
  insets : NMap Inset
  contentKeys : NMap Bytes
  swapEn : Bool
  progs : NMap Nat
  places : NMap Nat
  room : List (Nat × Nat)
  -- step
  step : Option StepSt
  ctxs : NMap BayCtx
  staged : Staged
  joined : Bool
  pipeDone : Option Nat
  pipeT : Option (Nat × Nat × List Nat)
  accepted : List (Nat × Nat × Nat)
  decisions : List (Nat × List Word × List Decision)
  -- work
  reqs : NMap Req
  seqs : List Seq
  streams : NMap Strm
  sheets : NMap Sheet
  gone : List Gone
  nodesTold : List (Nat × Nat)
  segments : List Segment
  gzWalkOf : List Nat
  gzState : Nat
  -- tables
  active : List Nat
  swapStaged : List Bool
  copying : List Bool
  load : Option LoadJob
  loadQ : List LoadJob
  bmpCopying : Bool
  bmpQ : List (Nat × Nat × Bytes)
  -- tiers
  loans : List Loan
  loanAsk : List (Nat × Nat)
  xcache : List XSlot
  -- limits in force (R246)
  reqLimit : Word
  reqCtl : Word
  -- narrowing
  firstStep : Bool
  lastAmax : Word
  lastEmpty : Bool
  deriving DecidableEq, Repr, Inhabited

/-! ## The Lesar protocol (R363 to R381) -/

/-- Roles of a session (Table 2 of Security and partitions). -/
inductive Role where
  | client | partOwner | devOwner
  deriving DecidableEq, Repr, Inhabited

/-- A frame that the device sends: generation, kind, flags (Table 3 of Host ports), addressing, operation, status and payload;
where it goes and the VLAN identifier it carries (R359), its priority code point and DSCP (R359, R360). -/
structure OutFrame where
  gen : Nat
  kind : Nat
  flags : Nat
  sess : Nat
  part : Nat
  seq : Nat
  ackNum : Nat
  handle : Nat
  opcode : Nat
  status : Status
  payload : Bytes
  via : Via
  pcp : Nat
  dscp : Nat
  deriving DecidableEq, Repr, Inhabited

/-- A generation-3 header as received (Table 3 of Host ports). -/
structure Hdr where
  version : Nat
  kind : Nat
  flags : Nat
  part : Nat
  sess : Nat
  seq : Nat
  ackNum : Nat
  handle : Nat
  opcode : Nat
  status : Nat
  length : Nat
  check : Nat
  deriving DecidableEq, Repr, Inhabited

/-- A MGMT message in a mailbox: assembled so far, or complete and waiting for the processor that serves it (R374, R375); `left` the role and
the partition of its session, where that has closed since (R366). -/
structure Mbox where
  sess : Nat
  left : Option (Role × Nat)
  gen : Nat
  part : Nat
  handle : Nat
  opcode : Nat
  payload : Bytes
  complete : Bool
  deriving DecidableEq, Repr, Inhabited

/-- One session (R365 to R369). -/
structure Session where
  role : Role
  part : Nat
  endpoint : Nat
  gen : Nat
  src : Nat
  carrier : Carrier
  port : Nat
  lesarId : Nat
  isn : Nat
  rxNext : Nat
  txNext : Nat
  peerAck : Nat
  window : Nat
  started : Bool
  early : NMap (Via × Hdr × Bytes)
  unacked : List (OutFrame × Nat)
  waiting : List OutFrame
  swallow : Bool
  openReply : Option OutFrame
  deriving DecidableEq, Repr, Inhabited

/-- An operation that was answered PENDING by firmware and whose final status is owed (R11, R15). -/
structure Owed where
  ctx : Ctx
  opcode : Nat
  deriving DecidableEq, Repr, Inhabited

/-- A started GO of a register write whose frame waits for its final status (R482): what runs, and the entries after it. -/
structure RegWait where
  ctx : Ctx
  what : Nat
  part : Nat
  index : Nat
  rest : List (Word × Word)
  deriving DecidableEq, Repr, Inhabited

/-- The Port die's protocol state. `goDone` lists the operations started by a GO that have reached their final status: what, partition,
status. -/
structure Lesar where
  sessions : NMap Session
  mboxes : List Mbox
  owed : List Owed
  evts : NMap EvtStream
  regWaits : List RegWait
  goDone : List (Nat × Nat × Status)
  lastReply : List (Nat × Nat)
  startBuf : List (Via × Bytes)
  out : List OutFrame
  oldEtherType : Option Nat
  oldUdpPort : Option Nat
  raw : List (Nat × Bytes)
  deriving DecidableEq, Repr, Inhabited

/-! ## Device, guard, Keeper, flash, memory, links, survey, sideband -/

/-- Where the start stands (R391, R392, R436): unpowered, held in reset, the Keeper ROM, its runtime, the start record checked, the Port die
released, the LPDDR5X trained, and the states of Table 5 of Processors, firmware and start-up. -/
inductive Phase where
  | off | held | rom | runtime | checked | portDie | trained | ready | running | recovery | factory | netBoot
  deriving DecidableEq, Repr, Inhabited

/-- Reasons that hold a system reset (R428, R430, R440, R441, R446). -/
inductive Hold where
  | pin | trip | clock | overVoltage
  deriving DecidableEq, Repr, Inhabited

/-- A LOAD_FIRMWARE that is open or being checked (R396, R397). -/
structure FwLoad where
  sess : Nat
  ctx : Ctx
  gen : Nat
  bytes : Bytes
  last : Bool
  deriving DecidableEq, Repr, Inhabited

/-- A DEVICE_RESET or activation whose map save runs, or has ended and that acts next (R400, R428, R432), with the frames to answer. -/
structure ResetJob where
  ctxs : List Ctx
  system : Bool
  activation : Bool
  saved : Bool
  deriving DecidableEq, Repr, Inhabited

/-- Start, firmware, reset and pin state of the device. `fwAwait` is set while the first heartbeat of a released processor is awaited, with
the frame that it answers; `pendingGen` is the generation of the session that loaded the pending image. -/
structure Dev where
  phase : Phase
  bootSrcPins : Nat
  clkModePins : Nat
  bootSrc : Nat
  clkMode : Nat
  holds : List Hold
  lastCause : Nat
  sticky : Nat
  wdogMs : Nat
  fwVersion : Nat
  fwImage : Bytes
  fwHalted : Bool
  fwAwait : Option (Option Ctx)
  pendingImage : Option Bytes
  pendingGen : Nat
  load : Option FwLoad
  actQueued : Option Ctx
  activating : Bool
  reset : Option ResetJob
  heartbeats : Nat
  rtImage : Bytes
  rtFromNet : Bool
  readyMs : Nat
  startDrops : Nat
  netSrc : Option Nat
  powerGood : Bool
  faultLow : Bool
  locked : Bool
  inputWarnUv : Bool
  inputWarnOv : Bool
  deriving DecidableEq, Repr, Inhabited

/-- The power guard (R443 to R450): the live readings, the samples of the sliding averages, and for every condition and level
the instant since which it has stayed below its exit figure. Temperatures in quarter degrees, power in half watts times 8. -/
structure Guard where
  level : Nat
  junction : Int
  portJunction : Int
  lid : Int
  hottest : Nat
  vin : Nat
  iin : Nat
  samples : List (Nat × Nat)
  causeJ : Nat
  causeL : Nat
  causeP : Nat
  below : NMap Nat
  hot : Option Nat
  overSince : Option Nat
  normalSince : Nat
  thinNs : Nat
  lastSample : Nat
  tripAt : Nat
  deriving DecidableEq, Repr, Inhabited

/-- A bound device set (R414). -/
structure BoundSet where
  setId : Bytes
  setKey : Bytes
  devNum : Nat
  priv : Bytes
  deriving DecidableEq, Repr, Inhabited

/-- A BIND_SET that is open (R414). -/
structure BindJob where
  sess : Nat
  cert : Bytes
  key : Bytes
  part : Nat
  deriving DecidableEq, Repr, Inhabited

/-- A link-security key (R416). -/
structure SecKeyEntry where
  ssci : Nat
  sci : Nat
  nextPn : Nat
  salt : Bytes
  sak : Bytes
  deriving DecidableEq, Repr, Inhabited

/-- The Keeper's store: keys, marks, sets and link keys (R405, R408 to R416). `secKeys` is keyed 8 × port + 4 × dir + AN. -/
structure Keeper where
  ownerKey : Option Bytes
  ownerMark : Nat
  commandMark : Nat
  lastCommand : Option (Nat × OutFrame)
  signers : NMap Bytes
  sets : List BoundSet
  bind : Option BindJob
  secKeys : NMap SecKeyEntry
  secOld : List (Nat × Nat)
  deriving DecidableEq, Repr, Inhabited

/-- A parameter set in use (Table 5 of Configuration flash), as the controller holds it. -/
structure ParamSet where
  copy : Nat
  seq : Nat
  bootActive : Nat
  pwSet : Bool
  numValid : Bool
  devNum : Nat
  topo : Word
  pwDigest : Bytes
  protMain : Bytes
  protParam : Word
  floor : Nat
  deriving DecidableEq, Repr, Inhabited

/-- What follows an erase of the controller (R340, R346, R349). -/
inductive FlashAfter where
  | answer (c : Ctx)
  | param (c : Option Ctx) (opcode : Nat) (new : ParamSet)
  | twin (c : Ctx) (left : List Nat) (off : Nat) (data : Bytes)
  deriving DecidableEq, Repr, Inhabited

/-- The program or erase that runs (R338). -/
inductive FlashOp where
  | program (c : Ctx) (opcode addr : Nat) (data : Bytes)
  | param (c : Option Ctx) (opcode : Nat) (new : ParamSet)
  | erase (sector : Nat) (after : FlashAfter)
  deriving DecidableEq, Repr, Inhabited

/-- The configuration flash controller (R333 to R353); the array itself stands in `Mems.flash`. `half` holds the
sectors that are HALF_ERASED, `badWords` words with a struck error. -/
structure Flash where
  params : Option ParamSet
  op : Option FlashOp
  susp : Option FlashOp
  resumeWait : Option Ctx
  queue : List (Nat × Ctx × Bytes)
  jHead : Nat
  jSeq : Nat
  cHead : Nat
  cSeq : Nat
  pwFails : Nat
  starts : Nat
  twinWrite : Option Nat
  blankOk : List (Nat × Bool)
  fallback : Bool
  unreliable : Bool
  half : List Nat
  badWords : NMap Bool
  deriving DecidableEq, Repr, Inhabited

/-- The DRAM controller (R251 to R257): activation counts per row group and the requester port of each group's last activation, open rows per
bank, throttled ports and banks, calibration failures, failed channels, struck bursts; `targeted` lists the groups that have been refreshed at
once in this window. -/
structure Dram where
  acts : NMap Nat
  lastPort : NMap Nat
  targeted : List Nat
  openRows : NMap Nat
  throttled : List (Nat × Nat × Nat)
  calFails : NMap Nat
  failed : List Nat
  bad : NMap Bool
  rates : List Nat
  scrubHours : Nat
  deriving DecidableEq, Repr, Inhabited

/-- The NAND tier (R258 to R262): failed channels; read counts, erase counts and the instant of the last read of blocks; `weak` lists blocks
with a codeword that needed more than two retries. `map` is the translation map, from the device address of a map unit to its page, pages
numbered block by block (R259), `fill` the pages of a block that have been programmed since its erase, `saved` the map as it was last saved.
`dies` holds the dies that program or erase, at 0, or at the instant after that of the suspension by a read; `waiting` the reads that wait for
the end of the operation; free blocks in tenths of a percent of the spare blocks, bytes written since the map was saved; `kept` lists the
shards of partitions that a device reset has ended, with the extents they lie in (R427). -/
structure Nand where
  failed : List Nat
  reads : NMap Nat
  lastRead : NMap Nat
  weak : List Nat
  erases : NMap Nat
  map : NMap Nat
  fill : NMap Nat
  pauseWritten : Nat
  dies : NMap Nat
  waiting : NMap Nat
  freeTenths : Nat
  urgent : Bool
  written : Nat
  saved : NMap Nat
  pauseSize : Nat
  pauseWant : Option Nat
  pauseUsed : Nat
  kept : List (List Nat × List Bytes)
  deriving DecidableEq, Repr, Inhabited

/-- A loan that this device has granted (R265, R266): the link, its number there, the borrowing partition, its extents, whether a reclaim notice
has been sent for it. -/
structure Lent where
  link : Nat
  id : Nat
  part : Nat
  extents : List Nat
  noticed : Bool
  deriving DecidableEq, Repr, Inhabited

/-- Loans that this device grants (R265 to R268, R275). -/
structure Lender where
  loans : List Lent
  deriving DecidableEq, Repr, Inhabited

/-- Link states (Table 1 of Veolo links), in the order of their codes. -/
inductive LState where
  | disabled | down | hail | backoff | train | up | fastRetrain | miswired | duplicate
  deriving DecidableEq, Repr, Inhabited

/-- One Veolo link (R280 to R287): `replay` the flits sent and not acknowledged, `queue` those that wait with the instant they were
queued, `mid` the messages begun and not ended, `slots` the flits sent since one of the management class, `rxBuf` the flits of messages
that are arriving, `pb5` says that the peer is a PB-5 module (R279), `nakked` a NAK that its retransmission has not answered. -/
structure Link where
  st : LState
  g7 : Bool
  pb5 : Bool
  peer : Nat
  peerValid : Bool
  peerLink : Nat
  peerAligned : Bool
  equalHails : Nat
  txSeq : Nat
  rxSeq : Nat
  replay : List Flit
  resends : Nat
  credits : List Nat
  queue : List (Nat × Flit)
  mid : List (LClass × Nat × Nat)
  slots : Nat
  rxBuf : List Flit
  nakked : Bool
  draws : Nat
  deriving DecidableEq, Repr, Inhabited

/-- Neighbour states (Table 4 of Veolo links). -/
inductive NState where
  | absent | joining | active | degraded | retraining | lost | left | miswired
  deriving DecidableEq, Repr, Inhabited

/-- The module's place among its neighbours, in the directions X+, X−, Y+, Y− (R288 to R299): messages numbered per pair of links
(R287), those that arrived ahead of their turn, and `inbox` the messages delivered and not yet taken by a LINK receive; `gone` the devices
beyond the neighbours that a route no longer reaches, as they have been reported (R290). -/
structure Veolo where
  links : NMap Link
  nbrs : List NState
  aligned : Bool
  master : Bool
  masterNum : Nat
  offset : Int
  joined : Bool
  numValid : Bool
  num : Nat
  topo : Word
  pairTx : List Nat
  pairRx : List Nat
  early : List (Nat × Nat × LClass × Nat × Bytes)
  inbox : List (Nat × LClass × Nat × Bytes)
  gone : List Nat
  deriving DecidableEq, Repr, Inhabited

/-- The survey (R461 to R467): `out` holds the tiles that are out, each with its frame and whether it waits for its return. -/
structure Survey where
  s0 : List (Nat × Ctx)
  out : List (Nat × Option Ctx × Bool)
  failed : List Nat
  gzOut : Option Ctx
  s2 : Option Ctx
  deriving DecidableEq, Repr, Inhabited

/-- The SMBus target (R382 to R385); until `deadUntil` it acknowledges nothing, `readOut` is what its reads have returned. -/
structure Smb where
  commFault : Bool
  uvWarn : Bool
  ovWarn : Bool
  ovFault : Bool
  otWarn : Bool
  otFault : Bool
  regAddr : Word
  mbox : Bytes
  busy : Bool
  reply : Option OutFrame
  readPos : Nat
  replyReady : Bool
  error : Bool
  readOut : List Bytes
  deadUntil : Nat
  deriving DecidableEq, Repr, Inhabited

/-- One Ethernet port's link (R354). -/
structure EthPort where
  up : Bool
  master : Bool
  speed : Nat
  sqi : Nat
  deriving DecidableEq, Repr, Inhabited

/-- The addressed memories: the scratchpads (tile × 2^20 + byte, R97), the LPDDR5X (physical address, R248), the NAND tier
(extent × 2^34 + byte of the extent, R259) and the flash array (R333). -/
structure Mems where
  scratch : Mem
  dram : Mem
  nand : Mem
  flash : Mem
  deriving DecidableEq, Repr, Inhabited

/-- A tombstone (R239). -/
structure Tomb where
  part : Nat
  handle : Nat
  status : Status
  deriving DecidableEq, Repr, Inhabited

/-- The state of the module. `walks` holds the gazetteer walks that wait, oldest first: partition, handle and the instant each was queued
(R226). -/
structure State where
  now : Nat
  stamp : Nat
  free : Nat
  timeHi : Word
  regs : NMap Word
  mem : Mems
  tiles : NMap Tile
  pods : NMap (List PodStore)
  parts : NMap Part
  tombs : List Tomb
  walks : List (Nat × Nat × Nat)
  dev : Dev
  guard : Guard
  keeper : Keeper
  flash : Flash
  lesar : Lesar
  eth : NMap EthPort
  smb : Smb
  dram : Dram
  nand : Nand
  lender : Lender
  veolo : Veolo
  survey : Survey
  pending : List Instr
  deriving DecidableEq, Repr

/-- Why the machine stops with a fault. -/
inductive Fault where
  /-- Raised by a command that reports an event which the manual's rules exclude in the present state (a drain completes and
  no drain runs, a link trains that is DISABLED), or an operand outside the range its rule gives. Safe: the model stops where
  the hardware cannot get. -/
  | impossible (why : String)
  deriving DecidableEq, Repr

/-- Why a command has no meaning. -/
inductive Refusal where
  /-- Raised by an arm of `exec` whose command has no meaning yet. Safe: nothing can be proved of it. -/
  | notModelled (mnemonic : String)
  deriving DecidableEq, Repr

/-! ## After reset -/

/-- A bank that holds nothing (EMPTY, R71). -/
def Bank.cleared : Bank := { st := .empty, int := false, sat := false, blk := 0, rows := 32, cols := 32, cells := [] }

/-- A tile after a reset (R99, R86): banks EMPTY, nothing resident, tables clear. -/
def Tile.cleared : Tile :=
  { bank0 := Bank.cleared, bank1 := Bank.cleared, last := 1, twin := false, bound := none, satStatus := false, crews := [],
    kernels := [], nextKernel := 0, matrixQ := [], dmaQ := [], launchQ := [], store := [], tables := [], bad := [],
    bankBad := false, scrubPtr := 0 }

/-- Nothing staged. -/
def Staged.none : Staged :=
  { cancels := [], pauses := [], parks := [], closes := [], opens := [], resize := Option.none, takeOut := [], putBack := [],
    grat := false, gzOff := false, edition := false, removeInsets := [], targeted := [], reset := Option.none,
    endAll := Option.none }

/-- The device at the start of its sequence (R391): the Keeper ROM runs. The straps are the board's (log entry 5). -/
def Dev.start : Dev :=
  { phase := .rom, bootSrcPins := 0, clkModePins := 0, bootSrc := 0, clkMode := 0, holds := [], lastCause := 0, sticky := 1,
    wdogMs := 0, fwVersion := 0, fwImage := [], fwHalted := false, fwAwait := none, pendingImage := none, pendingGen := 3, load := none,
    actQueued := none, activating := false, reset := none, heartbeats := 0, rtImage := [], rtFromNet := false, readyMs := 0,
    startDrops := 0, netSrc := none, powerGood := true, faultLow := false, locked := true,
    inputWarnUv := false, inputWarnOv := false }

/-- The guard at NORMAL with no reading yet (R450). -/
def Guard.start : Guard :=
  { level := 0, junction := 0, portJunction := 0, lid := 0, hottest := 0, vin := 0, iin := 0, samples := [], causeJ := 0,
    causeL := 0, causeP := 0, below := [], hot := none, overSince := none, normalSince := 0, thinNs := 0, lastSample := 0,
    tripAt := 0 }

/-- The Keeper of a device that holds no key and no set. -/
def Keeper.start : Keeper :=
  { ownerKey := none, ownerMark := 0, commandMark := 0, lastCommand := none, signers := [], sets := [], bind := none,
    secKeys := [], secOld := [] }

/-- The flash controller before the start scan. -/
def Flash.start : Flash :=
  { params := none, op := none, susp := none, resumeWait := none, queue := [], jHead := 0, jSeq := 0, cHead := 0, cSeq := 0,
    pwFails := 0, starts := 0, twinWrite := none, blankOk := [], fallback := false, unreliable := false, half := [], badWords := [] }

/-- No session, nothing sent. -/
def Lesar.start : Lesar :=
  { sessions := [], mboxes := [], owed := [], evts := [], regWaits := [], goDone := [], lastReply := [], startBuf := [], out := [],
    oldEtherType := none, oldUdpPort := none, raw := [] }

/-- The SMBus target after power-on: it answers from 5 ms after PWR_GOOD, 4 ms after the power-on reset is released (R382, R391). -/
def Smb.start : Smb :=
  { commFault := false, uvWarn := false, ovWarn := false, ovFault := false, otWarn := false, otFault := false,
    regAddr := 0, mbox := [], busy := false, reply := none, readPos := 0, replyReady := false, error := false, readOut := [],
    deadUntil := 4000000 }

/-- The DRAM controller before training. -/
def Dram.start : Dram :=
  { acts := [], lastPort := [], targeted := [], openRows := [], throttled := [], calFails := [], failed := [], bad := [], rates := List.replicate 8 0,
    scrubHours := 12 }

/-- The NAND tier of a new device. -/
def Nand.start : Nand :=
  { failed := [], reads := [], lastRead := [], weak := [], erases := [], map := [], fill := [], pauseWritten := 0, dies := [], waiting := [], freeTenths := 0, urgent := false,
    written := 0, saved := [], pauseSize := 0, pauseWant := none, pauseUsed := 0, kept := [] }

/-- A link that has not trained (DOWN, Table 1 of Veolo links), its credits as advertised (R285). -/
def Link.start : Link :=
  { st := .down, g7 := false, pb5 := false, peer := 0, peerValid := false, peerLink := 0, peerAligned := false, equalHails := 0, txSeq := 0,
    rxSeq := 0, replay := [], resends := 0, credits := [128, 128, 96, 128, 16], queue := [], mid := [], slots := 64, rxBuf := [], nakked := false, draws := 0 }

/-- No neighbour yet, the time base running free. -/
def Veolo.start : Veolo :=
  { links := [], nbrs := [.absent, .absent, .absent, .absent], aligned := false, master := false, masterNum := 0, offset := 0,
    joined := false, numValid := false, num := 0, topo := 0, pairTx := [0, 0, 0, 0], pairRx := [0, 0, 0, 0],
    early := [], inbox := [], gone := [] }

/-- No survey item runs, no tile has failed. -/
def Survey.start : Survey := { s0 := [], out := [], failed := [], gzOut := none, s2 := none }

/-- Memories that list nothing: scratchpad, LPDDR5X and NAND bytes read 0x00, flash bytes 0xFF (log entry 3). -/
def Mems.empty : Mems := { scratch := [], dram := [], nand := [], flash := [] }

/-- The machine right after a power-on reset. -/
def State.reset : State :=
  { now := 0, stamp := 0, free := 0, timeHi := 0, regs := [], mem := Mems.empty, tiles := [], pods := [], parts := [], tombs := [],
    walks := [], dev := Dev.start, guard := Guard.start, keeper := Keeper.start, flash := Flash.start, lesar := Lesar.start,
    eth := [], smb := Smb.start, dram := Dram.start, nand := Nand.start, lender := { loans := [] }, veolo := Veolo.start,
    survey := Survey.start, pending := [] }

/-! ## One setter for every field -/

/-- The state with `now` replaced. -/
def State.setNow (s : State) (v : Nat) : State := { s with now := v }
/-- The state with `stamp` replaced. -/
def State.setStamp (s : State) (v : Nat) : State := { s with stamp := v }
/-- The state with `free` replaced. -/
def State.setFree (s : State) (v : Nat) : State := { s with free := v }
/-- The state with `timeHi` replaced. -/
def State.setTimeHi (s : State) (v : Word) : State := { s with timeHi := v }
/-- The state with `regs` replaced. -/
def State.setRegs (s : State) (v : NMap Word) : State := { s with regs := v }
/-- The state with `mem` replaced. -/
def State.setMem (s : State) (v : Mems) : State := { s with mem := v }
/-- The state with `tiles` replaced. -/
def State.setTiles (s : State) (v : NMap Tile) : State := { s with tiles := v }
/-- The state with `pods` replaced. -/
def State.setPods (s : State) (v : NMap (List PodStore)) : State := { s with pods := v }
/-- The state with `parts` replaced. -/
def State.setParts (s : State) (v : NMap Part) : State := { s with parts := v }
/-- The state with `tombs` replaced. -/
def State.setTombs (s : State) (v : List Tomb) : State := { s with tombs := v }
/-- The state with `walks` replaced. -/
def State.setWalks (s : State) (v : List (Nat × Nat × Nat)) : State := { s with walks := v }
/-- The state with `dev` replaced. -/
def State.setDev (s : State) (v : Dev) : State := { s with dev := v }
/-- The state with `guard` replaced. -/
def State.setGuard (s : State) (v : Guard) : State := { s with guard := v }
/-- The state with `keeper` replaced. -/
def State.setKeeper (s : State) (v : Keeper) : State := { s with keeper := v }
/-- The state with `flash` replaced. -/
def State.setFlash (s : State) (v : Flash) : State := { s with flash := v }
/-- The state with `lesar` replaced. -/
def State.setLesar (s : State) (v : Lesar) : State := { s with lesar := v }
/-- The state with `eth` replaced. -/
def State.setEth (s : State) (v : NMap EthPort) : State := { s with eth := v }
/-- The state with `smb` replaced. -/
def State.setSmb (s : State) (v : Smb) : State := { s with smb := v }
/-- The state with `dram` replaced. -/
def State.setDram (s : State) (v : Dram) : State := { s with dram := v }
/-- The state with `nand` replaced. -/
def State.setNand (s : State) (v : Nand) : State := { s with nand := v }
/-- The state with `lender` replaced. -/
def State.setLender (s : State) (v : Lender) : State := { s with lender := v }
/-- The state with `veolo` replaced. -/
def State.setVeolo (s : State) (v : Veolo) : State := { s with veolo := v }
/-- The state with `survey` replaced. -/
def State.setSurvey (s : State) (v : Survey) : State := { s with survey := v }
/-- The state with `pending` replaced. -/
def State.setPending (s : State) (v : List Instr) : State := { s with pending := v }

end Sys2Proof.Machine
end

