-- ==== Sys2Proof/Machine/Regs.lean ====
section
/-!
DEFINITION. The register file (R6, R480, R483): the blocks of the address map, where each register stands, its reset value, and
reading, setting and counting in a register. `State.regs` lists the registers whose value differs from reset or has been set;
every other address reads its reset value.
-/
namespace Sys2Proof.Machine

open Sys2Proof

/-- The blocks of Table 1 of the register reference; a block with a device part of its own has two entries. -/
inductive Blk where
  | dev | clk | pg | mer | tbl | grat | pod | sfu | kv | gz | strm | req | reqDev | dr | nt | tier | tierDev | model | vl | vlDev
  | narrow | cf | eth | ethDev | ls | evt | part | kpr | sv
  deriving DecidableEq, Repr, Inhabited

/-- Base address, stride between instances and number of instances of a block (Table 1 of the register reference). -/
def Blk.place : Blk → Nat × Nat × Nat
  | .dev => (0x00000000, 0x1000, 1)
  | .clk => (0x00010000, 0x40, 1)
  | .pg => (0x00020000, 0x40, 1)
  | .mer => (0x00040000, 0x20, 128)
  | .tbl => (0x00060000, 0x20, 128)
  | .grat => (0x00070000, 0x40, 128)
  | .pod => (0x00080000, 0x20, 128)
  | .sfu => (0x00090000, 0x20, 128)
  | .kv => (0x000A0000, 0x40, 128)
  | .gz => (0x000B0000, 0x20, 128)
  | .strm => (0x000C0000, 0x20, 128)
  | .req => (0x000D0000, 0x40, 128)
  | .reqDev => (0x000D2000, 0x8, 1)
  | .dr => (0x000E0000, 0x40, 1)
  | .nt => (0x000F0000, 0x40, 1)
  | .tier => (0x00100000, 0x40, 128)
  | .tierDev => (0x00104000, 0x40, 1)
  | .model => (0x00110000, 0x40, 128)
  | .vl => (0x00120000, 0x40, 8)
  | .vlDev => (0x00120400, 0x40, 1)
  | .narrow => (0x00130000, 0x20, 128)
  | .cf => (0x00140000, 0x40, 1)
  | .eth => (0x00150000, 0x40, 4)
  | .ethDev => (0x00150200, 0x40, 1)
  | .ls => (0x00160000, 0x40, 1)
  | .evt => (0x00161000, 0x10, 128)
  | .part => (0x00170000, 0x40, 128)
  | .kpr => (0x00180000, 0x40, 1)
  | .sv => (0x00190000, 0x80, 1)

/-- The address of the register at offset `off` of instance `k` of a block (R481). -/
def Blk.at (b : Blk) (k off : Nat) : Nat := b.place.1 + b.place.2.1 * k + off

/-- Every block. -/
def Blk.all : List Blk :=
  [.dev, .clk, .pg, .mer, .tbl, .grat, .pod, .sfu, .kv, .gz, .strm, .req, .reqDev, .dr, .nt, .tier, .tierDev, .model, .vl, .vlDev,
   .narrow, .cf, .eth, .ethDev, .ls, .evt, .part, .kpr, .sv]

/-- A block covers an address. -/
def Blk.covers (b : Blk) (a : Nat) : Bool :=
  decide (b.place.1 ≤ a) && decide (a < b.place.1 + b.place.2.1 * b.place.2.2)

/-- The block, instance and offset of an address inside a block. -/
def regPlace (a : Nat) : Option (Blk × Nat × Nat) :=
  (Blk.all.find? (fun b => b.covers a)).map (fun b => (b, (a - b.place.1) / b.place.2.1, (a - b.place.1) % b.place.2.1))

/-- An address lies in a range of Table 1 of the register reference (R480); the range of the links has a gap that is inside it. -/
def inRange (a : Nat) : Bool :=
  (regPlace a).isSome || (decide (0x00120200 ≤ a) && decide (a < 0x00120400))

/-- A block whose instances belong to partitions (R481). -/
def Blk.perPart : Blk → Bool
  | .mer | .tbl | .grat | .pod | .sfu | .kv | .gz | .strm | .req | .tier | .model | .narrow | .evt | .part => true
  | _ => false

/-- The reset value of the register at an offset of a block (Tables 2 to 4 of the register reference). What is sampled, comes from
flash or from the runtime is computed where it is read. -/
def Blk.reset : Blk → Nat → Word
  | .dev, 0x100 => 0x00000001#32
  | .dev, 0x300 => 0x00000062#32
  | .pg, 0x04 => 0x000000FA#32
  | .gz, 0x00 => 0x80000000#32
  | .strm, 0x00 => 0x00000001#32
  | .req, 0x00 => 0x20000000#32
  | .req, 0x04 => 0x04000010#32
  | .dr, 0x00 => 0x000007D0#32
  | .dr, 0x04 => 0x80000800#32
  | .dr, 0x20 => 0x0000000C#32
  | .nt, 0x00 => 0x00C80705#32
  | .nt, 0x24 => 0x00000006#32
  | .tierDev, 0x04 => 0x000003E8#32
  | .vl, 0x00 => 0xA0000000#32
  | .vlDev, 0x08 => 0x00000064#32
  | .narrow, 0x00 => 0x00080000#32
  | .eth, 0x00 => 0xC0000004#32
  | .ethDev, 0x00 => 0x88B5B0F4#32
  | .ethDev, 0x04 => 0x00FAC688#32
  | .ls, 0x00 => 0x003C03E8#32
  | .evt, 0x00 => 0x00000064#32
  | _, _ => 0#32

/-- The reset value of the register at an address. -/
def regReset (a : Nat) : Word :=
  match regPlace a with
  | some (b, _, off) => b.reset off
  | none => 0#32

/-- The stored value of the register at an address. -/
def State.rawReg (s : State) (a : Nat) : Word := (NMap.find s.regs a).getD (regReset a)

/-- The stored value of a register. -/
def State.reg (s : State) (b : Blk) (k off : Nat) : Word := s.rawReg (b.at k off)

/-- A register set. -/
def State.putReg (s : State) (b : Blk) (k off : Nat) (w : Word) : State :=
  s.setRegs (NMap.insert s.regs (b.at k off) w)

/-- A counter increased by `n`, stopping at 0xFFFF_FFFF. -/
def State.bump (s : State) (b : Blk) (k off n : Nat) : State :=
  s.putReg b k off (BitVec.ofNat 32 (min 0xFFFFFFFF ((s.reg b k off).toNat + n)))

/-- One field of a register set. -/
def State.putField (s : State) (b : Blk) (k off hi lo v : Nat) : State :=
  s.putReg b k off ((s.reg b k off).setField hi lo v)

/-- The registers of one instance of a block back at their reset values. -/
def State.resetRegs (s : State) (b : Blk) (k : Nat) : State :=
  s.setRegs (NMap.eraseRange s.regs (b.at k 0) (b.at k b.place.2.1))

/-- Every instance of a block back at its reset values. -/
def State.resetBlock (s : State) (b : Blk) : State :=
  s.setRegs (NMap.eraseRange s.regs (b.at 0 0) (b.at b.place.2.2 0))

/-- A record kept in a register with a VALID bit: an uncorrectable record replaces a corrected one (R115). -/
def State.record (s : State) (b : Blk) (k off : Nat) (ue : Bool) (w : Word) : State :=
  let old := s.reg b k off
  if old.bit 31 && old.bit 30 && !ue then s else s.putReg b k off w

/-- A record kept only when none is held (R132, R468). -/
def State.recordFirst (s : State) (b : Blk) (k off : Nat) (w : Word) : State :=
  if (s.reg b k off).bit 31 then s else s.putReg b k off w

end Sys2Proof.Machine
end

