-- ==== Sys2Proof/Machine/Ops.lean ====
section
/-!
DEFINITION. The operations that every family of commands shares: the outcome of a command, free values, tiles and partitions,
the addressed memories and the errors found in them (R110, R252, R451), the frames the device sends (R362 to R370), its events
(R378 to R380), and the abort of a failed step (R453).
-/
namespace Sys2Proof.Machine

open Sys2Proof

/-- The outcome of a command. -/
abbrev Res := Host.Outcome State Fault Refusal

/-- The command reports an event that the manual's rules exclude here. -/
def impossible (why : String) : Res := .fault (.impossible why)

/-- The outcome `r` where `b` holds; elsewhere the command cannot happen. -/
def require (b : Bool) (why : String) (r : Res) : Res := if b then r else impossible why

/-- The code of a status (Table 7 of Scope and conventions). -/
def Status.code : Status → Nat
  | .ok => 0x0000
  | .pending => 0x0001
  | .busyStarting => 0x0010
  | .busyRecovery => 0x0011
  | .deferred => 0x0012
  | .deferredTimeout => 0x0013
  | .badFrame => 0x0020
  | .badVersion => 0x0021
  | .unknownSession => 0x0022
  | .notPermitted => 0x0023
  | .noResource => 0x0024
  | .tableBusy => 0x0030
  | .halfErased => 0x0031
  | .protected_ => 0x0032
  | .passwordLocked => 0x0033
  | .cancelled => 0x0040
  | .expired => 0x0041
  | .cacheLost => 0x0042
  | .kvLost => 0x0043
  | .digestMismatch => 0x0050
  | .signatureInvalid => 0x0051
  | .notBound => 0x0052
  | .decodeFault => 0x0060
  | .uncorrectable => 0x0061
  | .tierFailed => 0x0062
  | .fwVersionRefused => 0x0070

/-- A free 32-bit value, and the state that will give another (log entry 2). -/
def State.fresh (s : State) : Word × State := (Config.freeWord s.free, s.setFree (s.free + 1))

/-- The device time base after an event at `t` ns: it never runs backwards. -/
def State.at (s : State) (t : Nat) : State := s.setNow (max s.now t)

/-! ## Tiles and partitions -/

/-- Tile `t`. -/
def State.tile (s : State) (t : Nat) : Tile := NMap.get Tile.cleared s.tiles t

/-- Tile `t` replaced. -/
def State.putTile (s : State) (t : Nat) (v : Tile) : State := s.setTiles (NMap.put Tile.cleared s.tiles t v)

/-- Tile `t` changed. -/
def State.modTile (s : State) (t : Nat) (f : Tile → Tile) : State := s.putTile t (f (s.tile t))

/-- Partition `p`, if it exists. -/
def State.part (s : State) (p : Nat) : Option Part := NMap.find s.parts p

/-- Partition `p` replaced or created. -/
def State.putPart (s : State) (p : Nat) (v : Part) : State := s.setParts (NMap.insert s.parts p v)

/-- Partition `p` changed, if it exists. -/
def State.modPart (s : State) (p : Nat) (f : Part → Part) : State := s.setParts (NMap.modify s.parts p f)

/-- Streams bound on this stage: a stage without slots binds none (R194, R207). -/
def Part.boundHere (pt : Part) : Nat := (pt.streams.filter (fun e => e.2.st == .bound && !e.2.tiles.isEmpty)).length

/-- The four tiles of a quad (R12). -/
def quadTiles (q : Nat) : List Nat := [4 * q, 4 * q + 1, 4 * q + 2, 4 * q + 3]

/-- The tiles of a partition, in the order of its quads. -/
def Part.tiles (pt : Part) : List Nat := pt.quads.flatMap quadTiles

/-- The partition that owns tile `t` (R112). -/
def State.ownerOf (s : State) (t : Nat) : Option Nat :=
  (s.parts.find? (fun e => e.2.quads.contains (t / 4))).map Prod.fst

/-- A tile is out of service: taken out for survey S1, or marked failed (R462, R463). -/
def State.tileOut (s : State) (t : Nat) : Bool :=
  s.survey.failed.contains t || s.survey.out.any (fun e => e.1 == t)

/-- The tiles of a partition that carry its work. -/
def State.liveTiles (s : State) (pt : Part) : List Nat := pt.tiles.filter (fun t => !s.tileOut t)

/-- The bays that a partition occupies. -/
def Part.bays (pt : Part) : List Nat := (pt.quads.map (· / 8)).eraseDups

/-! ## The addressed memories -/

/-- The memories with the scratchpads replaced. -/
def State.setScratch (s : State) (m : Mem) : State := s.setMem { s.mem with scratch := m }
/-- The memories with the LPDDR5X replaced. -/
def State.setDramMem (s : State) (m : Mem) : State := s.setMem { s.mem with dram := m }
/-- The memories with the NAND tier replaced. -/
def State.setNandMem (s : State) (m : Mem) : State := s.setMem { s.mem with nand := m }
/-- The memories with the flash array replaced. -/
def State.setFlashMem (s : State) (m : Mem) : State := s.setMem { s.mem with flash := m }

/-- Where byte `a` of tile `t`'s scratchpad stands (R97). -/
def scratchKey (t a : Nat) : Nat := t * 2 ^ 20 + a % 2 ^ 20

/-- `n` bytes of a tile's scratchpad from byte `a`. -/
def State.scratchBytes (s : State) (t a n : Nat) : Bytes := Mem.readN 0#8 s.mem.scratch (scratchKey t a) n

/-- Row `r` of a tile's scratchpad (R97). -/
def State.row (s : State) (t r : Nat) : Bytes := s.scratchBytes t (512 * r) 512

/-- A row written: 512 bytes, its struck words cleared (R110). -/
def State.writeRow (s : State) (t r : Nat) (bs : Bytes) : State :=
  (s.setScratch (Mem.writeN 0#8 s.mem.scratch (scratchKey t (512 * r)) (bs.take 512))).modTile t
    (fun v => { v with bad := NMap.eraseRange v.bad (64 * r) (64 * r + 64) })

/-- Consecutive rows written from row `r` with the bytes of `bs`, the last row padded with zeros. -/
def State.writeRows (s : State) (t : Nat) : Nat → Nat → Bytes → State
  | _, 0, _ => s
  | r, n + 1, bs =>
    (s.writeRow t r (bs.take 512 ++ List.replicate (512 - (bs.take 512).length) 0#8)).writeRows t (r + 1) n (bs.drop 512)

/-- Consecutive rows read. -/
def State.rows (s : State) (t r n : Nat) : Bytes := (List.range n).flatMap (fun i => s.row t (r + i))

/-- Rows of a tile cleared: zeros and no struck word (R99, R109). -/
def State.clearTile (s : State) (t : Nat) : State :=
  (s.setScratch (Mem.clear s.mem.scratch (t * 2 ^ 20) (2 ^ 20))).modTile t (fun v => { v with bad := [] })

/-- Bytes of a NAND extent (R259): 16 GB. -/
def nandExtent : Nat := 16000000000

/-- The physical address of an offset of a partition's LPDDR5X share (R248); none beyond the share. -/
def Part.dramAddr (pt : Part) (off : Nat) : Option Nat :=
  (pt.dram[off / 2 ^ 28]?).map (fun e => e * 2 ^ 28 + off % 2 ^ 28)

/-- Where an offset of a partition's NAND share stands (R259); none beyond the share. -/
def Part.nandAddr (pt : Part) (off : Nat) : Option Nat :=
  (pt.nand[off / nandExtent]?).map (fun e => e * 2 ^ 34 + off % nandExtent)

/-- Runs of at most the bytes left in one extent: (address, length). -/
def Part.dramRuns (pt : Part) : Nat → Nat → Nat → Option (List (Nat × Nat))
  | 0, _, n => if n = 0 then some [] else none
  | fuel + 1, off, n =>
    if n = 0 then some []
    else
      match pt.dramAddr off with
      | none => none
      | some a =>
        let k := min n (2 ^ 28 - off % 2 ^ 28)
        (Part.dramRuns pt fuel (off + k) (n - k)).map ((a, k) :: ·)

/-- The same for the NAND share. -/
def Part.nandRuns (pt : Part) : Nat → Nat → Nat → Option (List (Nat × Nat))
  | 0, _, n => if n = 0 then some [] else none
  | fuel + 1, off, n =>
    if n = 0 then some []
    else
      match pt.nandAddr off with
      | none => none
      | some a =>
        let k := min n (nandExtent - off % nandExtent)
        (Part.nandRuns pt fuel (off + k) (n - k)).map ((a, k) :: ·)

/-- `n` bytes at an offset of a partition's LPDDR5X share, if all lie within it. -/
def State.shareRead (s : State) (pt : Part) (off n : Nat) : Option Bytes :=
  (pt.dramRuns (pt.dram.length + 1) off n).map (fun rs => rs.flatMap (fun r => Mem.readN 0#8 s.mem.dram r.1 r.2))

/-- The same of the NAND share. -/
def State.nandRead (s : State) (pt : Part) (off n : Nat) : Option Bytes :=
  (pt.nandRuns (pt.nand.length + 1) off n).map (fun rs => rs.flatMap (fun r => Mem.readN 0#8 s.mem.nand r.1 r.2))

/-- The channel of a physical LPDDR5X address (R250). -/
def dramChannel (a : Nat) : Nat :=
  let g := a / 512
  (g ^^^ (g / 2 ^ 6) ^^^ (g / 2 ^ 12) ^^^ (g / 2 ^ 18) ^^^ (g / 2 ^ 24) ^^^ (g / 2 ^ 30)) % 64

/-- The data burst number within its channel (R250). -/
def dramBurstNo (a : Nat) : Nat := a / 512 / 64 * 8 + a % 512 / 64
/-- The DRAM row (R250). -/
def dramRow (a : Nat) : Nat := dramBurstNo a / 31
/-- The column burst (R250). -/
def dramColumn (a : Nat) : Nat := dramBurstNo a % 31
/-- The bank within the channel (R250). -/
def dramBank (a : Nat) : Nat := dramRow a % 16

/-- Records a burst error in DR_ERR_LOC and DR_ERR_ROW (R252). -/
def State.recordBurst (s : State) (ue : Bool) (a : Nat) : State :=
  let old := s.reg .dr 0 0x18
  if old.bit 31 && old.bit 30 && !ue then s
  else
    (s.putReg .dr 0 0x18 (BitVec.ofNat 32
      (2 ^ 31 + (if ue then 2 ^ 30 else 0) + dramChannel a * 2 ^ 10 + dramColumn a))).putReg .dr 0 0x1C
      (BitVec.ofNat 32 (dramRow a))

/-- The struck bursts of a run of physical LPDDR5X bytes, as a read finds them (R252): a correctable one is written back. Answers
whether one was uncorrectable; every burst of a failed channel is (R257). -/
def State.burstFind (s : State) (a n : Nat) : State × Bool :=
  let hit := s.dram.bad.filter (fun e => decide (a / 64 ≤ e.1) && decide (e.1 < (a + n + 63) / 64))
  let r := hit.foldl (fun (acc : State × Bool) e =>
    let s1 := (acc.1.bump .dr 0 (if e.2 then 0x14 else 0x10) 1).recordBurst e.2 (64 * e.1)
    (if e.2 then s1 else s1.setDram { s1.dram with bad := NMap.erase s1.dram.bad e.1 }, acc.2 || e.2)) (s, false)
  if s.dram.failed.isEmpty then r
  else
    let lost := (List.range ((a + n + 63) / 64 - a / 64)).filter (fun i =>
      s.dram.failed.contains (dramChannel (64 * (a / 64 + i))))
    (lost.foldl (fun s i => (s.bump .dr 0 0x14 1).recordBurst true (64 * (a / 64 + i))) r.1, r.2 || !lost.isEmpty)

/-- The bursts that a run of bytes covers in part (R251). -/
def partBursts (a n : Nat) : List Nat :=
  ((if a % 64 = 0 then [] else [a / 64]) ++ (if (a + n) % 64 = 0 then [] else [(a + n) / 64])).eraseDups

/-- Bytes written to the LPDDR5X at a physical address: bytes on failed channels are dropped (R257). A part burst is read, merged and written:
the error that the read finds is counted, and one that is uncorrectable stays (R251, R252). A burst written whole loses its struck error. -/
def State.dramWrite (s : State) (a : Nat) (bs : Bytes) : State :=
  if bs.isEmpty then s
  else
    let s1 := (partBursts a bs.length).foldl (fun s b => (s.burstFind (64 * b) 64).1) s
    let s2 := s1.setDram { s1.dram with bad := NMap.eraseRange s1.dram.bad ((a + 63) / 64) ((a + bs.length) / 64) }
    if s2.dram.failed.isEmpty then s2.setDramMem (Mem.writeN 0#8 s2.mem.dram a bs)
    else
      s2.setDramMem ((List.range bs.length).foldl (fun m i =>
        if s2.dram.failed.contains (dramChannel (a + i)) then m else Mem.write 0#8 m (a + i) (bs.getD i 0)) s2.mem.dram)

/-- The runs of a write, each with its part of the bytes. -/
def State.writeRuns (s : State) : List (Nat × Nat) → Bytes → State
  | [], _ => s
  | (a, k) :: rs, bs => (s.dramWrite a (bs.take k)).writeRuns rs (bs.drop k)

/-- Bytes written at an offset of a partition's LPDDR5X share, if all lie within it. -/
def State.shareWrite (s : State) (pt : Part) (off : Nat) (bs : Bytes) : Option State :=
  (pt.dramRuns (pt.dram.length + 1) off bs.length).map (fun rs => s.writeRuns rs bs)

/-- The runs of a NAND write. -/
def State.writeNandRuns (s : State) : List (Nat × Nat) → Bytes → State
  | [], _ => s
  | (a, k) :: rs, bs => (s.setNandMem (Mem.writeN 0#8 s.mem.nand a (bs.take k))).writeNandRuns rs (bs.drop k)

/-- The share of free blocks after a change: a free value (log entry 2), with the urgent state that follows from it (R261). -/
def State.freeBlocks (s : State) : State :=
  let f := s.fresh
  let k := f.1.toNat % 1001
  f.2.setNand { f.2.nand with freeTenths := k, urgent := decide (k < 5) || (f.2.nand.urgent && decide (k < 20)) }

/-- The translation map saved to NAND (R259), in the device area. -/
def State.saveMap (s : State) : State := s.setNand { s.nand with written := 0, saved := s.nand.map }

/-- Pages of a block (Table 2 of Memory tiers). -/
def blockPages : Nat := 1152
/-- Blocks of a plane: 250 GB in sixteen planes of blocks of 18 MiB. -/
def planeBlocks : Nat := 828

/-- The block of a plane whose pages are programmed next, never one of those left out: the lowest-numbered with an erased page (log entry
25). Block k of plane n, channel n mod 16 and die n mod 64, is 256 × k + n. -/
def Nand.openBlock (v : Nand) (plane : Nat) : Option Nat :=
  ((List.range planeBlocks).find? (fun k => decide (NMap.get 0 v.fill (256 * k + plane) < blockPages))).map (fun k => 256 * k + plane)

/-- A map unit written to a freshly erased page of a plane (R259). -/
def Nand.placeUnit (v : Nand) (key plane : Nat) : Nand :=
  match v.openBlock plane with
  | some b => { v with map := NMap.insert v.map key (b * blockPages + NMap.get 0 v.fill b), fill := NMap.insert v.fill b (NMap.get 0 v.fill b + 1) }
  | none => v

/-- Logical map units that a run of a share touches. -/
def mapUnits (off n : Nat) : List Nat := (List.range ((off + n + 16383) / 16384 - off / 16384)).map (fun i => off / 16384 + i)

/-- The map units of a run of a partition's share written to fresh pages: unit u lies on channel u mod 16, then round its dies and planes
(R259). -/
def State.placeUnits (s : State) (pt : Part) (off n : Nat) : State :=
  s.setNand ((mapUnits off n).foldl (fun v u => match pt.nandAddr (16384 * u) with | some k => v.placeUnit k (u % 256) | none => v) s.nand)

/-- Bytes written at an offset of a partition's NAND share, if all lie within it: their map units go to fresh pages. -/
def State.nandWrite (s : State) (pt : Part) (off : Nat) (bs : Bytes) : Option State :=
  (pt.nandRuns (pt.nand.length + 1) off bs.length).map (fun rs => ((s.writeNandRuns rs bs).placeUnits pt off bs.length).freeBlocks)

/-- The LPDDR5X of an extent cleared. -/
def State.clearExtent (s : State) (e : Nat) : State :=
  (s.setDramMem (Mem.clear s.mem.dram (e * 2 ^ 28) (2 ^ 28))).setDram
    { s.dram with bad := NMap.eraseRange s.dram.bad (e * 2 ^ 22) ((e + 1) * 2 ^ 22) }

/-- The NAND extent cleared: its map units are no longer valid. -/
def State.clearNandExtent (s : State) (e : Nat) : State :=
  (s.setNandMem (Mem.clear s.mem.nand (e * 2 ^ 34) (2 ^ 34))).setNand
    { s.nand with map := NMap.eraseRange s.nand.map (e * 2 ^ 34) ((e + 1) * 2 ^ 34) }

/-! ## Frames that the device sends -/

/-- The VLAN identifier of an endpoint (R359). -/
def State.endpointVid (s : State) (ep : Nat) : Nat := ((s.part ep).map (·.vid)).getD 0

/-- The class of an endpoint's frames: the partition's, 7 at device level (R359). -/
def State.endpointClass (s : State) (ep : Nat) : Nat := ((s.part ep).map (·.cls)).getD 7

/-- The priority code point of a frame: entry c of ETH_PCP_MAP when it is tagged (R359). -/
def State.pcpOf (s : State) (vid ep : Nat) : Nat :=
  if vid = 0 then 0 else (s.reg .ethDev 0 0x04).field (3 * s.endpointClass ep + 2) (3 * s.endpointClass ep)

/-- The DSCP of a frame: 8 × c over UDP (R360). -/
def State.dscpOf (s : State) (c : Carrier) (ep : Nat) : Nat := if c = .eth then 0 else 8 * s.endpointClass ep

/-- Bytes of a Lesar payload that one frame carries (R356, Table 2 of Host ports). -/
def State.payloadLimit (s : State) (via : Via) (gen : Nat) : Nat :=
  (if (s.reg .eth via.port 0).bit 29 then 9000 else 1500)
    - (match via.carrier with | .eth => 0 | .udp4 => 28 | .udp6 => 48) - (if gen = 3 then 32 else 24)

/-- A frame sent: it joins the frames that have left, and counts at its port. -/
def State.transmit (s : State) (f : OutFrame) : State :=
  (s.setLesar { s.lesar with out := s.lesar.out ++ [f] }).bump .eth f.via.port 0x0C 1

/-- Where the frames of a session go (R362, R366, R359). -/
def State.viaOf (s : State) (ss : Session) : Via :=
  { port := ss.port, src := ss.src, carrier := ss.carrier, endpoint := ss.endpoint, vid := s.endpointVid ss.endpoint,
    lesarId := ss.lesarId }

/-- The EtherType or UDP port of frames that the device sends of its own accord (R362). -/
def State.ownId (s : State) (c : Carrier) : Nat :=
  if c = .eth then (s.reg .ethDev 0 0x00).field 31 16 else (s.reg .ethDev 0 0x00).field 15 0

/-- Session `n`, if it is open. -/
def State.session (s : State) (n : Nat) : Option Session := NMap.find s.lesar.sessions n

/-- Session `n` changed, if it is open. -/
def State.modSession (s : State) (n : Nat) (f : Session → Session) : State :=
  s.setLesar { s.lesar with sessions := NMap.modify s.lesar.sessions n f }

/-- Frames of a session in flight beyond the peer's last ACK_NUM (R369). -/
def Session.inFlight (ss : Session) : Nat := (ss.txNext + 2 ^ 32 - ss.peerAck) % 2 ^ 32

/-- A sequenced frame of a session: sent with the next number while the peer's window has room, and kept until it does
otherwise (R367, R369). -/
def State.sendSeq (s : State) (n : Nat) (f : OutFrame) : State :=
  match s.session n with
  | none => s
  | some ss =>
    if ss.inFlight < ss.window then
      let home := s.viaOf ss
      let via : Via := if f.flags / 4 % 2 = 1 then home else { home with lesarId := s.ownId home.carrier }
      let g := { f with gen := ss.gen, sess := n, seq := ss.txNext, ackNum := ss.rxNext, flags := f.flags ||| 1, via := via,
                        pcp := s.pcpOf via.vid via.endpoint, dscp := s.dscpOf via.carrier via.endpoint }
      (s.transmit g).modSession n (fun v =>
        { v with txNext := (v.txNext + 1) % 2 ^ 32, unacked := v.unacked ++ [(g, 1)] })
    else s.modSession n (fun v => { v with waiting := v.waiting ++ [f] })

/-- A frame outside sequencing (R364, R367): SEQ 0, not kept; from the endpoint that the frame it answers was sent to, the device-level
endpoint for a broadcast (R359, R381). -/
def State.sendBare (s : State) (via : Via) (f : OutFrame) : State :=
  let v : Via := { via with endpoint := if via.endpoint = 0xFFFE then 0xFFFF else via.endpoint, vid := s.endpointVid via.endpoint }
  s.transmit { f with seq := 0, via := v, pcp := s.pcpOf v.vid v.endpoint, dscp := s.dscpOf v.carrier v.endpoint }

/-- The reply of a recovery-mode command kept for a repeat of its frame (R412). -/
def State.keepReply (s : State) (c : Ctx) (f : OutFrame) : State :=
  match s.keeper.lastCommand with
  | some (n, g) =>
    if s.dev.phase = .recovery && g.handle == c.handle && g.opcode == f.opcode then s.setKeeper { s.keeper with lastCommand := some (n, f) } else s
  | none => s

/-- The kind of the frames of an opcode (Table 7 of Host ports). -/
def opKind (op : Nat) : Nat := if op / 256 = 1 || op / 256 = 2 || op = 0x0405 then 1 else 2

/-- A payload cut into pieces of at most `k` bytes; `fuel` bounds their number. -/
def pieces (k : Nat) : Nat → Bytes → List Bytes
  | 0, bs => [bs]
  | fuel + 1, bs => if bs.length ≤ k then [bs] else bs.take k :: pieces k fuel (bs.drop k)

/-- Somewhere that a reply with no frame of its own goes. -/
def Via.nowhere : Via := { port := 0, src := 0, carrier := .eth, endpoint := 0xFFFF, vid := 0, lesarId := 0 }

/-- A reply frame before it is numbered (R370): REPLY set. -/
def replyFrame (c : Ctx) (op : Nat) (st : Status) (flags : Nat) (pl : Bytes) : OutFrame :=
  { gen := 3, kind := opKind op, flags := 4 + flags, sess := c.sess, part := c.part, seq := 0, ackNum := 0, handle := c.handle,
    opcode := op, status := st, payload := pl, via := Via.nowhere, pcp := 0, dscp := 0 }

/-- The session number of the sideband mailbox (R384). -/
def sidebandSess : Nat := 0x10000

/-- The reply of an operation (R364, R370, R375): to the session's frame in as many segments as its frames need, to a frame with no
session at once, to the sideband mailbox into its reply buffer. -/
def State.reply (s : State) (c : Ctx) (op : Nat) (st : Status) (pl : Bytes) : State :=
  if c.sess = sidebandSess then
    s.setSmb { s.smb with reply := some (replyFrame { c with sess := 0xFFFF } op st 0 pl), readPos := 0, replyReady := false }
  else if c.sess = 0xFFFF then
    match c.via with
    | some via =>
      let f := replyFrame c op st (if opKind op = 2 then 48 else 0) pl
      (s.sendBare via f).keepReply c f
    | none => s
  else
    match s.session c.sess with
    | none => s
    | some ss =>
      if opKind op = 1 || ss.gen ≠ 3 then s.sendSeq c.sess (replyFrame c op st 0 pl)
      else
        let ps := pieces (s.payloadLimit (s.viaOf ss) ss.gen) 8 pl
        (List.range ps.length).foldl (fun s i =>
          s.sendSeq c.sess (replyFrame c op st
            ((if i = 0 then 16 else 0) + (if i + 1 = ps.length then 32 else 0)) (ps.getD i []))) s

/-! ## Events (R378 to R380) -/

/-- The key of an event stream: partition p, 0xFFFF for device level, 0x10000 + p for partition p's events to the device owner. -/
def ownerStream (p : Nat) : Nat := 0x10000 + p

/-- The stream at a key. -/
def State.evtStream (s : State) (k : Nat) : EvtStream := NMap.get { sess := none, held := [] } s.lesar.evts k

/-- The stream at a key replaced. -/
def State.putEvtStream (s : State) (k : Nat) (v : EvtStream) : State :=
  s.setLesar { s.lesar with evts := NMap.put { sess := none, held := [] } s.lesar.evts k v }

/-- The open session that a stream's events go to (R378). -/
def State.evtSession (s : State) (k : Nat) : Option Nat :=
  match (s.evtStream (if k ≥ 0x10000 then 0xFFFF else k)).sess with
  | some n => if (s.session n).isSome then some n else none
  | none => none

/-- An event record as it travels (Table 8 of Host ports). -/
def Evt.bytes (e : Evt) : Bytes :=
  beBytes 2 (Status.code e.status) ++ beBytes 2 e.source ++ beBytes 4 e.object ++ beBytes 4 e.detail ++
    beBytes 4 (e.time / 1024 % 2 ^ 32)

/-- The EVENT frame of a batch of records (R379): COALESCED with more than one. -/
def eventFrame (part : Nat) (es : List Evt) : OutFrame :=
  { gen := 3, kind := 3, flags := if es.length > 1 then 8 else 0, sess := 0, part := part, seq := 0, ackNum := 0, handle := 0,
    opcode := 0, status := .ok, payload := es.flatMap Evt.bytes, via := Via.nowhere, pcp := 0, dscp := 0 }

/-- Held records in batches of 32; `fuel` bounds their number. -/
def batches : Nat → List Evt → List (List Evt)
  | 0, _ => []
  | n + 1, es => if es.isEmpty then [] else es.take 32 :: batches n (es.drop 32)

/-- The records held of a stream sent, if its session is open. -/
def State.flushEvents (s : State) (k : Nat) : State :=
  match s.evtSession k with
  | none => s
  | some n =>
    let st := s.evtStream k
    let part := if k ≥ 0x10000 then k - 0x10000 else k
    (batches 9 st.held).foldl (fun s es => s.sendSeq n (eventFrame part es)) (s.putEvtStream k { st with held := [] })

/-- Statuses of events that are sent at once (R379). -/
def urgentEvent (st : Status) : Bool :=
  match st with
  | .uncorrectable | .kvLost | .tierFailed | .busyRecovery => true
  | _ => false

/-- One record into a stream: dropped oldest first past 256 with no session (R380), sent at 32 or at once when urgent (R379). -/
def State.pushEvent (s : State) (k : Nat) (e : Evt) : State :=
  let st := s.evtStream k
  let held := st.held ++ [e]
  match s.evtSession k with
  | none =>
    if held.length > 256 then
      let s1 := s.putEvtStream k { st with held := held.drop 1 }
      if k = 0xFFFF then s1 else s1.bump .evt (k % 0x10000) 0x04 1
    else s.putEvtStream k { st with held := held }
  | some _ =>
    let s1 := s.putEvtStream k { st with held := held }
    if urgentEvent e.status || held.length ≥ 32 then s1.flushEvents k else s1

/-- An event of partition `p` to its own event session. -/
def State.partEvent (s : State) (p : Nat) (st : Status) (source object detail : Nat) : State :=
  s.pushEvent p { part := p, status := st, source := source, object := object, detail := detail, time := s.now }

/-- An event of partition `p` to the device owner's session (Table 9 of Security and partitions). -/
def State.ownerEvent (s : State) (p : Nat) (st : Status) (source object detail : Nat) : State :=
  s.pushEvent (ownerStream p) { part := p, status := st, source := source, object := object, detail := detail, time := s.now }

/-- A device-level event. -/
def State.devEvent (s : State) (st : Status) (source object detail : Nat) : State :=
  s.pushEvent 0xFFFF { part := 0xFFFF, status := st, source := source, object := object, detail := detail, time := s.now }

/-- The event of a shared resource's fault (Table 9 of Security and partitions): to every partition named, and the device owner. -/
def State.sharedEvent (s : State) (ps : List Nat) (st : Status) (source object detail : Nat) : State :=
  (ps.foldl (fun s p => s.partEvent p st source object detail) s).devEvent st source object detail

/-! ## Messages over the Veolo links (R283 to R287) -/

/-- The code of a class (Table 2 of Veolo links). -/
def LClass.code : LClass → Nat
  | .activation => 0
  | .ring => 1
  | .collective => 2
  | .lent => 3
  | .management => 4

/-- Link `i`. -/
def State.link (s : State) (i : Nat) : Link := NMap.get Link.start s.veolo.links i

/-- Link `i` replaced. -/
def State.putLink (s : State) (i : Nat) (l : Link) : State :=
  s.setVeolo { s.veolo with links := NMap.put Link.start s.veolo.links i l }

/-- A waiting flit may leave: its class has a credit, it neither breaks into a message of its class to its destination nor runs
ahead of its own (R285, R286), and a MISWIRED link carries management traffic only (R288). -/
def Link.mayLeave (l : Link) (f : Flit) : Bool :=
  decide (0 < l.credits.getD (LClass.code f.cls) 0) && (l.st == .up || f.cls == .management) &&
    match l.mid.find? (fun m => m.1 == f.cls && m.2.1 == f.dest) with
    | some m => !f.first && m.2.2 == f.pair
    | none => f.first

/-- The waiting flits of a class that may leave, those of the highest priority class only. -/
def Link.ofClass (l : Link) (c : LClass) : List (Nat × Flit) :=
  let q := l.queue.filter (fun e => e.2.cls == c && l.mayLeave e.2)
  let top := (q.map (fun e => e.2.prio)).foldl max 0
  q.filter (fun e => e.2.prio == top)

/-- The flit that fills the next slot (R286). -/
def Link.nextFlit (l : Link) (now : Nat) : Option (Nat × Flit) :=
  match l.queue.find? (fun e => decide (e.1 + 16000 ≤ now) && l.mayLeave e.2) with
  | some e => some e
  | none =>
    ((if 64 ≤ l.slots then l.ofClass .management else []) ++ l.ofClass .activation ++ l.ofClass .collective ++ l.ofClass .ring ++
      l.ofClass .lent ++ l.ofClass .management).head?

/-- Flits sent while the link is UP or MISWIRED and its replay buffer has room (R283, R284); `n` bounds their number. -/
def Link.pump (now : Nat) : Nat → Link → Link
  | 0, l => l
  | n + 1, l =>
    if (l.st != .up && l.st != .miswired) || decide (512 ≤ l.replay.length) then l
    else
      match l.nextFlit now with
      | none => l
      | some e =>
        let f := e.2
        Link.pump now n
          { l with queue := l.queue.erase e, replay := l.replay ++ [{ f with seq := l.txSeq }], txSeq := (l.txSeq + 1) % 4096,
                   resends := if l.replay.isEmpty then 1 else l.resends,
                   credits := l.credits.set (LClass.code f.cls) (l.credits.getD (LClass.code f.cls) 0 - 1),
                   mid := if f.last then l.mid.filter (fun m => m != (f.cls, f.dest, f.pair))
                          else if f.first then (f.cls, f.dest, f.pair) :: l.mid else l.mid,
                   slots := if f.cls == .management then 0 else l.slots + 1 }

/-- The waiting flits of the messages that have not begun to leave. -/
def Link.uncut (l : Link) : List (Nat × Flit) := l.queue.filter (fun e => l.queue.any (fun g => g.2.pair == e.2.pair && g.2.first))

/-- The two links of a direction send what they may; what waits for a link that is not UP goes to the other (R287). -/
def State.pumpPair (s : State) (dir : Nat) : State :=
  let a := s.link (2 * dir)
  let b := s.link (2 * dir + 1)
  let move := fun (x y : Link) =>
    if x.st != .up && y.st == .up && x.replay.isEmpty then ({ x with queue := [], mid := [] }, { y with queue := y.queue ++ x.uncut }) else (x, y)
  let ab := move a b
  let ba := move ab.2 ab.1
  (s.putLink (2 * dir) (ba.2.pump s.now ba.2.queue.length)).putLink (2 * dir + 1) (ba.1.pump s.now ba.1.queue.length)

/-- A message cut into flits of at most 240 bytes (Table 2 of Veolo links). -/
def messageFlits (cls : LClass) (dest src prio part pair : Nat) (bs : Bytes) : List Flit :=
  let ps := pieces 240 bs.length bs
  (List.range ps.length).map (fun i =>
    { kind := 0, cls := cls, first := i == 0, last := i + 1 == ps.length, seq := 0, dest := dest, src := src,
      len := (ps.getD i []).length, prio := prio, part := part, payload := ps.getD i [], ackValid := false, ackSeq := 0, crcOk := true,
      pair := pair })

/-- The flits of a message queued for a direction, unless its neighbour cannot be reached (R290, R299): messages go to the two links of
the pair in turn (R287). Without a valid number at both ends a link that is UP carries management traffic only (R289). -/
def State.queueFlits (s : State) (dir : Nat) (fs : List Flit) (pair : Nat) : State :=
  let n := s.veolo.nbrs.getD dir .absent
  let up := (s.link (2 * dir)).st == .up || (s.link (2 * dir + 1)).st == .up
  if n == .lost || n == .left || n == .absent && !(up && fs.all (fun f => f.cls == .management)) then s
  else
    let i := 2 * dir + pair % 2
    let l := s.link i
    (s.putLink i { l with queue := l.queue ++ fs.map (fun f => (s.now, f)) }).pumpPair dir

/-- A message from device `src` to device `dest` queued for the neighbour in direction `dir`, 0 X+, 1 X−, 2 Y+, 3 Y−. -/
def State.sendOn (s : State) (dir : Nat) (cls : LClass) (dest src prio part : Nat) (bs : Bytes) : State :=
  let pair := s.veolo.pairTx.getD dir 0
  let fs := messageFlits cls dest src prio (if cls = .management then 0 else part) pair bs
  (s.setVeolo { s.veolo with pairTx := s.veolo.pairTx.set dir (pair + 1) }).queueFlits dir fs pair

/-- The device in a direction, as either link of the pair has learnt it (R281, R287). -/
def State.nbrDev (s : State) (dir : Nat) : Nat :=
  if (s.link (2 * dir)).peerValid then (s.link (2 * dir)).peer else (s.link (2 * dir + 1)).peer

/-- A message for partition `part` of the neighbour in direction `dir`. -/
def State.sendMessage (s : State) (dir : Nat) (cls : LClass) (part : Nat) (bs : Bytes) : State :=
  s.sendOn dir cls (s.nbrDev dir) s.veolo.num (s.endpointClass part) part bs

/-- The neighbour in a direction is LOST or LEFT. -/
def State.dirLost (s : State) (dir : Nat) : Bool :=
  s.veolo.nbrs.getD dir .absent == .lost || s.veolo.nbrs.getD dir .absent == .left

/-- The direction along one axis from coordinate `x` to `y` (R290): the shorter way round an axis of `n` that wraps, ties to the + direction
`d`, the longer where the shorter meets a LOST or LEFT neighbour or passes a device that is reported lost; the direct way on an axis that does not wrap. `dev`
names the device at a coordinate. -/
def State.axisDir (s : State) (d x y n : Nat) (wrap : Bool) (dev : Nat → Nat) : Nat :=
  if wrap then
    let plus := (y + n - x % n) % n
    let minus := (x + n - y % n) % n
    let first := if plus ≤ minus then d else d + 1
    let steps := min plus minus
    let passed := (List.range (steps - 1)).map (fun i => dev (if first = d then (x + i + 1) % n else (x + n - (i + 1) % n) % n))
    if s.dirLost first || passed.any s.veolo.gone.contains then d + (d + 1) - first else first
  else if x < y then d else d + 1

/-- The direction of the next hop to a device (R290): along X, then along Y; none for this module. -/
def State.route (s : State) (dest : Nat) : Option Nat :=
  let v := s.veolo
  let (x, y) := (v.num % 64, v.num / 64)
  let (dx, dy) := (dest % 64, dest / 64 % 64)
  if x ≠ dx then some (s.axisDir 0 x dx (max 1 (v.topo.field 14 8)) (v.topo.bit 30) (fun c => 64 * y + c))
  else if y ≠ dy then some (s.axisDir 2 y dy (max 1 (v.topo.field 22 16)) (v.topo.bit 31) (fun c => 64 * c + x))
  else none

/-- A message for partition `part` of a device, sent along its route (R290). -/
def State.sendTo (s : State) (dest : Nat) (cls : LClass) (part : Nat) (bs : Bytes) : State :=
  match s.route dest with
  | some dir => s.sendOn dir cls dest s.veolo.num (s.endpointClass part) part bs
  | none => s

/-- The device that holds stage `st` of this module's pipeline (R26). -/
def State.stageDev (s : State) (st : Nat) : Nat := s.veolo.num / 64 * 64 + st

/-! ## Failure of a step (R451 to R457) -/

/-- A tile with its work stopped: banks EMPTY, queues, resident kernels and their crews gone (R453). A tile in twin mode keeps its pairs, which are the
carried state of a stream (R210; log entry 10). -/
def Tile.aborted (v : Tile) : Tile :=
  { v with bank0 := if v.twin then v.bank0 else Bank.cleared, bank1 := if v.twin then v.bank1 else Bank.cleared,
           crews := [], kernels := [], matrixQ := [], dmaQ := [], launchQ := [] }

/-- The tiles of a partition stopped, and the pods whose tags are unwritten dropped. -/
def State.abortTiles (s : State) (p : Nat) (pt : Part) : State :=
  let s1 := pt.tiles.foldl (fun s t => s.modTile t Tile.aborted) s
  s1.setPods (s1.pods.map (fun e => (e.1, e.2.filter (fun q => q.part != p))))

/-- A context at its entry point (R82): nothing waits in it. -/
def BayCtx.atEntry : BayCtx := { pc := 0, loops := [], ended := false, waiting := [], sync := none }

/-- A context of a bay. -/
def Part.ctx (pt : Part) (bay : Nat) : BayCtx := NMap.get BayCtx.atEntry pt.ctxs bay

/-- A partition's context of a bay changed. -/
def State.modCtx (s : State) (p bay : Nat) (f : BayCtx → BayCtx) : State :=
  s.modPart p (fun pt => { pt with ctxs := NMap.insert pt.ctxs bay (f (pt.ctx bay)) })

/-- Instructions wait in a partition's context of a bay (R83). -/
def State.waitsIn (s : State) (p bay : Nat) : Bool := (s.part p).any (fun pt => !(pt.ctx bay).waiting.isEmpty)

/-- An instruction that its context does not issue yet: it waits behind those that have come before it (R83). -/
def State.hold (s : State) (p bay : Nat) (i : Instr) : State :=
  s.modCtx p bay (fun c =>
    let sy := if c.waiting.isEmpty && i.isSync then some { since := s.now, last := none } else c.sync
    { c with waiting := c.waiting ++ [i], sync := sy })

/-- An instruction that reaches the sequencer of a bay (R83): instructions issue in program order, so it waits where one before it waits
or where its own condition does not hold, and otherwise issues. -/
def State.issue (s : State) (p bay : Nat) (i : Instr) (waits : Bool) (run : State) : Res :=
  .next (if s.waitsIn p bay || waits then s.hold p bay i else run)

/-- A step failure recorded in SV_LAST_FAULT, if none is held (R468): outcome 0 replayed, 1 abandoned, 2 work ended. The failure of the
second replay abandons the step (R456). -/
def State.recordFault (s : State) (p : Nat) (st : Status) (outcome : Nat) (v : StepSt) : State :=
  let last := decide (3 ≤ v.attempts)
  let s1 := if last && v.failed.isNone then s.bump .sv 0 0x4C 1 else s
  s1.recordFirst .sv 0 0x44 (BitVec.ofNat 32
    (2 ^ 31 + p % 128 * 2 ^ 24 + (if outcome = 0 && last then 1 else outcome) * 2 ^ 22 + Status.code st))

/-- The step of partition `p` is aborted with a status (R453): its work on this stage stops, the activations it has received stand to be
taken again, and the later stages are told (R455). `repair` says that a repair must complete before the replay. While no step with work runs nothing is aborted. -/
def State.abortStep (s : State) (p : Nat) (st : Status) (repair : Bool) : State :=
  match s.part p with
  | none => s
  | some pt =>
    match pt.step with
    | none => s
    | some v =>
      if v.empty then s
      else
        let s0 := (s.abortTiles p pt).modPart p (fun pt =>
          { pt with step := some { v with failed := some (v.failed.getD st), repair := v.repair || repair, finished := false,
                                          amax := 0#32, sat := 0, nan := 0, sfuClamp := 0, sfuNan := 0, taken := [] },
                    ctxs := pt.ctxs.map (fun e => (e.1, BayCtx.atEntry)),
                    xcache := pt.xcache.map (fun x => { x with pinned := none }) })
        let s1 := s0.setVeolo { s0.veolo with inbox := v.taken ++ s0.veolo.inbox }
        if pt.image.any (fun im => decide (im.stage + 1 < beAt im.cart 13 1)) then
          s1.sendMessage 0 .management p (beBytes 1 0x10 ++ beBytes 1 p ++ beBytes 4 v.count)
        else s1

/-- The step of partition `p` fails with a status and an outcome: it is aborted, the failure recorded. -/
def State.failStepAs (s : State) (p : Nat) (st : Status) (repair : Bool) (outcome : Nat) : State :=
  match (s.part p).bind (·.step) with
  | none => s
  | some v => if v.empty then s else (s.recordFault p st outcome v).abortStep p st repair

/-- A failure after which the step is replayed. -/
def State.failStep (s : State) (p : Nat) (st : Status) (repair : Bool) : State := s.failStepAs p st repair 0

/-- A failure that ends work (R457), after which the step is replayed for the rest. -/
def State.failEnding (s : State) (p : Nat) (st : Status) : State := s.failStepAs p st false 2

/-- The step failed. -/
def State.stepFailed (s : State) (p : Nat) : Bool :=
  ((s.part p).bind (·.step)).any (fun v => v.failed.isSome)

/-- An operation that a GO started has reached its final status (R482): 1 table load, 2 bitmap load, 3 loan, 4 return of loans,
5 parameter update. -/
def State.pushGo (s : State) (what p : Nat) (st : Status) : State :=
  s.setLesar { s.lesar with goDone := s.lesar.goDone ++ [(what, p, st)] }

/-! ## Errors found where they are read (R451) -/

/-- The errors that the environment reports as struck in storage. A second error in a word or a burst that has one is uncorrectable (R110,
R251). -/
def State.strike (s : State) (env : List Strike) : State :=
  env.foldl (fun s e =>
    match e with
    | .scratch t r w ue =>
      s.modTile t (fun v =>
        { v with bad := NMap.insert v.bad (64 * r + w % 64) (ue || (NMap.find v.bad (64 * r + w % 64)).isSome) })
    | .flash w ue => s.setFlash { s.flash with badWords := NMap.insert s.flash.badWords w (ue || NMap.get false s.flash.badWords w) }
    | .bank t => s.modTile t (fun v => { v with bankBad := true })
    | .dram b ue => s.setDram { s.dram with bad := NMap.insert s.dram.bad b (ue || (NMap.find s.dram.bad b).isSome) }
    | _ => s) s

/-- Path errors of a command that works for partition `p`: retries of the fabric (R451), parity of stores and queues (R451). Answers
whether the step has failed. -/
def State.pathErrors (s : State) (p : Nat) (env : List Strike) : State :=
  env.foldl (fun s e =>
    match e with
    | .fabric n =>
      let s1 := s.bump .sv 0 0x50 (min n 8)
      if n > 8 then (s1.bump .sv 0 0x54 1).failStep p .uncorrectable false else s1
    | .parity _ => (s.bump .sv 0 0x58 1).failStep p .uncorrectable true
    | _ => s) s

/-- A word of GRAT_ECC_ADDR (Table 8 of Scratchpad and the graticule). -/
def eccWord (ue : Bool) (t r w : Nat) : Word :=
  BitVec.ofNat 32 (2 ^ 31 + (if ue then 2 ^ 30 else 0) + t % 512 * 2 ^ 21 + r % 2048 * 2 ^ 10 + w % 64 * 2 ^ 4)

/-- The struck words of some rows of a tile, counted and recorded for partition `p` as a read finds them (R110, R115). Answers
whether one was uncorrectable. -/
def State.eccFind (s : State) (p t r n : Nat) : State × Bool :=
  ((s.tile t).bad.filter (fun e => decide (64 * r ≤ e.1) && decide (e.1 < 64 * (r + n)))).foldl (fun a e =>
    let s1 := a.1.bump .grat p (if e.2 then 0x0C else 0x08) 1
    (s1.record .grat p 0x10 e.2 (eccWord e.2 t (e.1 / 64) (e.1 % 64)), a.2 || e.2)) (s, false)

/-- Rows read by an engine of partition `p`: none, and the step fails, where a word is uncorrectable (R110). -/
def State.engineRows (s : State) (p t r n : Nat) : State × Option Bytes :=
  let f := s.eccFind p t r n
  if f.2 then (f.1.failStep p .uncorrectable false, none) else (f.1, some (s.rows t r n))

/-- Bytes of a partition's LPDDR5X share read with their errors found: none beyond the share or where a burst is uncorrectable, the
flag telling the latter. -/
def State.shareReadChecked (s : State) (pt : Part) (off n : Nat) : State × Option Bytes × Bool :=
  match pt.dramRuns (pt.dram.length + 1) off n with
  | none => (s, none, false)
  | some rs =>
    let f := rs.foldl (fun (acc : State × Bool) r => let g := acc.1.burstFind r.1 r.2; (g.1, acc.2 || g.2)) (s, false)
    if f.2 then (f.1, none, true)
    else (f.1, some (rs.flatMap (fun r => Mem.readN 0#8 s.mem.dram r.1 r.2)), false)

/-! ## Activations of DRAM rows (R255) -/

/-- The groups of rows next to a group of the same bank. -/
def nextGroups (g : Nat) : List Nat :=
  (if g % 2 ^ 20 = 0 then [] else [g - 1]) ++ (if g % 2 ^ 20 = 2 ^ 13 - 1 then [] else [g + 1])

/-- One access of a requester port to a DRAM row: it activates the row unless the row is open (log entry 20). An activation counts in its
group, which records the port; at the threshold the groups next to it are refreshed at once, and the port is throttled on the bank for the
rest of this window and the whole of the next. -/
def State.activate (s : State) (port ch row : Nat) : State :=
  let bk := ch * 16 + row % 16
  let d := s.dram
  if NMap.find d.openRows bk = some row then s
  else
    let g := bk * 2 ^ 20 + row / 16 / 16
    let n := NMap.get 0 d.acts g + 1
    let s1 := s.setDram { d with openRows := NMap.insert d.openRows bk row, acts := NMap.insert d.acts g n, lastPort := NMap.insert d.lastPort g port }
    let ctl := s.reg .dr 0 0x04
    if n = ctl.field 14 0 then
      (s1.setDram { s1.dram with
        targeted := if ctl.bit 31 then s1.dram.targeted ++ nextGroups g else s1.dram.targeted,
        throttled := s1.dram.throttled.filter (fun e => !(e.1 == port && e.2.1 == bk)) ++ [(port, bk, 2)] }).bump .dr 0 0x08 1
    else s1

/-- The accesses of a run of physical LPDDR5X bytes. -/
def State.touch (s : State) (port a n : Nat) : State :=
  if n = 0 then s
  else
    (List.range ((a + n - 1) / 512 + 1 - a / 512)).foldl (fun s i =>
      let g := 512 * (a / 512 + i)
      (s.activate port (dramChannel g) (dramRow g)).activate port (dramChannel g) (dramRow (g + 448))) s

/-- The accesses of a run of a partition's share. -/
def State.touchShare (s : State) (port : Nat) (pt : Part) (off n : Nat) : State :=
  ((pt.dramRuns (pt.dram.length + 1) off n).getD []).foldl (fun s r => s.touch port r.1 r.2) s

/-- The requester port of a tile's quad (R256). -/
def quadPort (t : Nat) : Nat := t / 4
/-- The requester port of the lent memory of a link. -/
def linkPort (i : Nat) : Nat := 200 + i
/-- The requester port of the expert fetches. -/
def fetchPort : Nat := 256
/-- The requester port of the pause moves. -/
def pausePort : Nat := 257

end Sys2Proof.Machine
end

