-- ==== Sys2Proof/Machine/Gate.lean ====
section
/-!
DEFINITION. Who may have an operation served (R2, R13 to R16, R372, R384, R387, R394, R410): the role of a frame's session, the states in
which hardware, Keeper and firmware serve, the mailboxes, the reply of a refusal.
-/
namespace Sys2Proof.Machine

open Sys2Proof

/-- Who serves an operation (Table 7 of Host ports): hardware at READY_FOR_FIRMWARE already, the Port die once firmware runs, the Keeper
whether or not firmware runs, the Keeper once firmware has started, the firmware. -/
inductive Server where
  | early | port | keeperEarly | keeper | firmware
  deriving DecidableEq, Repr

/-- The server of an opcode. -/
def serverOf (op : Nat) : Server :=
  if op = 0x0604 || op = 0x0605 || op = 0x0606 || op = 0x0607 then .early
  else if op = 0x0608 || op / 256 = 1 || op / 256 = 2 || op = 0x0405 then .port
  else if op = 0x0601 || op = 0x0603 || op = 0x0801 then .keeperEarly
  else if op = 0x0602 || op / 256 = 7 || op / 256 = 8 then .keeper
  else .firmware

/-- The number that stands where the number of a session stood that has closed: no session is ever open under it, so that answers to a closed
session are discarded although its number is free at once (R366). -/
def closedSess : Nat := 0xFFFE

/-- The role and the partition of the session that a complete message belonged to, which has closed while it waited (R366). -/
def State.leftOf (s : State) (c : Ctx) : Option (Role × Nat) :=
  if c.sess = closedSess then
    (s.lesar.mboxes.find? (fun m => m.sess == c.sess && m.handle == c.handle && m.part == c.part)).bind (·.left)
  else none

/-- The role that a frame's session holds; the sideband mailbox has the device owner's or a client's (R384). -/
def State.role (s : State) (c : Ctx) : Option Role :=
  if c.sess = sidebandSess then some (if (s.reg .dev 0 0x300).bit 31 then .devOwner else .client)
  else match s.leftOf c with
    | some r => some r.1
    | none => (s.session c.sess).map (·.role)

/-- The session holds the device owner's role. -/
def State.isOwner (s : State) (c : Ctx) : Bool := s.role c == some .devOwner

/-- The session may address the partition its frame names (R410): a client or partition owner only its own. -/
def State.addresses (s : State) (c : Ctx) : Bool :=
  s.isOwner c || (s.session c.sess).any (fun v => v.part == c.part) || (s.leftOf c).any (fun r => r.2 == c.part)

/-- A message in a mailbox gives it back at its first reply (R374). -/
def State.freeMbox (s : State) (c : Ctx) (op : Nat) : State :=
  match s.lesar.mboxes.find? (fun m => m.complete && m.sess == c.sess && m.handle == c.handle && m.opcode == op) with
  | some m => s.setLesar { s.lesar with mboxes := s.lesar.mboxes.erase m }
  | none => s

/-- The status with which the state of the device refuses an operation (R15, R352, R394, R465). RUN_SURVEY meets a running S2 by R467. A frame of recovery mode has had its signature
checked when it was received. -/
def State.serveRefusal (s : State) (c : Ctx) (op : Nat) (v : Server) : Option Status :=
  match s.dev.phase with
  | .running =>
    if s.survey.s2.isSome && op != 0x0606 && op != 0x0603 && op != 0x0801 && op != 0x0901 then some .busyRecovery
    else if v = .firmware && s.dev.fwHalted then some .busyRecovery else none
  | .ready => if v = .early || v = .keeperEarly then none else some .busyStarting
  | .recovery => if c.sess = 0xFFFF && (op == 0x070F || op == 0x070B || op == 0x070C || op == 0x070D) then none else some .notPermitted
  | _ => some .busyStarting

/-- The class at which firmware serves a message: that of its partition, 7 at device level (R376). -/
def State.mboxClass (s : State) (m : Mbox) : Nat := ((s.part m.part).map (·.cls)).getD 7

/-- A DELETE_PARTITION that firmware has begun: its message keeps its mailbox until its one reply (R374, R420). -/
def State.begun (s : State) (m : Mbox) : Bool :=
  m.opcode == 0x0504 && s.lesar.owed.any (fun o => o.opcode == 0x0504 && o.ctx.sess == m.sess && o.ctx.handle == m.handle)

/-- The message that firmware serves next: the oldest of those of the highest class (R376). -/
def State.nextMbox (s : State) : Option Mbox :=
  (s.lesar.mboxes.filter (fun m => m.complete && serverOf m.opcode == .firmware && !s.begun m)).foldl
    (fun b m => if b.any (fun x => decide (s.mboxClass m ≤ s.mboxClass x)) then b else some m) none

/-- It is an operation's turn: its message does not wait for firmware, or is the one that firmware serves next. -/
def State.turn (s : State) (c : Ctx) (op : Nat) (v : Server) : Bool :=
  v != .firmware ||
    match s.lesar.mboxes.find? (fun m => m.complete && m.sess == c.sess && m.handle == c.handle && m.opcode == op) with
    | some m => s.begun m || s.nextMbox == some m
    | none => true

/-- An operation served: its mailbox is freed, a refusal of the device's state or of the session's rights is answered, and otherwise
`body` runs. A message whose turn has not come stays in its mailbox (R376). `owner` says that only the device owner sends it. -/
def State.serve (s : State) (c : Ctx) (op : Nat) (v : Server) (owner : Bool) (body : State → Res) : Res :=
  let s1 := s.freeMbox c op
  match s1.serveRefusal c op v with
  | some st => .next (s1.reply c op st [])
  | none =>
    if !s.turn c op v then .next s
    else if s1.dev.phase = .recovery then body s1
    else if owner && !(s.isOwner c) then .next (s1.reply c op .notPermitted [])
    else if !(s.addresses c) then .next (s1.reply c op .notPermitted [])
    else body s1

/-- An operation answered with a status and nothing else. -/
def State.answer (s : State) (c : Ctx) (op : Nat) (st : Status) : Res := .next (s.reply c op st [])

/-- An operation of firmware answered PENDING: its final status is owed (R11, R15). -/
def State.owe (s : State) (c : Ctx) (op : Nat) : State :=
  (s.reply c op .pending []).setLesar
    { (s.reply c op .pending []).lesar with owed := (s.reply c op .pending []).lesar.owed ++ [{ ctx := c, opcode := op }] }

/-- The final status of an operation that was answered PENDING; none where it has already been given. -/
def State.settle (s : State) (c : Ctx) (op : Nat) (st : Status) (pl : Bytes) : State :=
  let o : Owed := { ctx := c, opcode := op }
  if s.lesar.owed.contains o then
    (s.setLesar { s.lesar with owed := s.lesar.owed.erase o }).reply c op st pl
  else s

end Sys2Proof.Machine
end

