-- ==== Sys2Proof/Machine/Flash.lean ====
section
/-!
DEFINITION. The configuration flash controller (R333 to R353): the map, sectors and protection, the error code of its words, the erase
journal and the counter records, the parameter set and its updates, the start scan; and signed images (R389) as the boot twins hold them.
-/
namespace Sys2Proof.Machine

open Sys2Proof

/-! ## CRC-32C -/

/-- One bit of the reflected CRC-32C polynomial. -/
def crcBit (c : Word) : Word := if c.getLsbD 0 then (c >>> 1) ^^^ 0x82F63B78#32 else c >>> 1

/-- One byte. -/
def crcByte (c : Word) (b : Byte) : Word :=
  crcBit (crcBit (crcBit (crcBit (crcBit (crcBit (crcBit (crcBit (c ^^^ b.setWidth 32))))))))

/-- CRC-32C of a run of bytes (log entry 22). -/
def crc32c (bs : Bytes) : Nat := ((bs.foldl crcByte 0xFFFFFFFF#32) ^^^ 0xFFFFFFFF#32).toNat

/-! ## The map (R333, R334) -/

/-- A sector number that names a sector. -/
def sectorOk (n : Nat) : Bool :=
  (decide (0x8000 ≤ n) && decide (n < 0x8020)) || (decide (1 ≤ n) && decide (n ≤ 511) && n != 256)

/-- First byte of a sector. -/
def sectorBase (n : Nat) : Nat := if 0x8000 ≤ n then (n - 0x8000) / 16 * 2 ^ 24 + (n - 0x8000) % 16 * 4096 else n * 65536

/-- Bytes of a sector. -/
def sectorSize (n : Nat) : Nat := if 0x8000 ≤ n then 4096 else 65536

/-- The sector of an address. -/
def sectorAt (a : Nat) : Nat :=
  if a % 2 ^ 24 < 65536 then 0x8000 + a / 2 ^ 24 * 16 + a % 2 ^ 24 / 4096 else a / 65536

/-- A sector that Table 1 gives to the owner. -/
def ownerSector (n : Nat) : Bool :=
  (decide (0x8002 ≤ n) && decide (n ≤ 0x8007)) || (decide (0x8012 ≤ n) && decide (n ≤ 0x8017)) ||
    (decide (48 ≤ n) && decide (n ≤ 255)) || (decide (304 ≤ n) && decide (n ≤ 511))

/-- The sectors of a boot twin: 0 A, 1 B. -/
def twinSectors (twin : Nat) : List Nat := (List.range 32).map (fun i => i + if twin = 0 then 16 else 272)

/-- First byte of a boot twin. -/
def twinBase (twin : Nat) : Nat := if twin = 0 then 0x00100000 else 0x01100000

/-- Bytes of a boot twin. -/
def twinSize : Nat := 2097152

/-! ## Reading (R335, R342) -/

/-- Bytes of the array as they stand. -/
def State.flashRaw (s : State) (a n : Nat) : Bytes := Mem.readN 0xFF#8 s.mem.flash a n

/-- One word read: its bytes, and whether it is unreliable; a HALF_ERASED sector and an uncorrectable word give free bytes (log entry 23). -/
def State.flashWord (s : State) (w : Nat) : State × Bytes × Bool :=
  let free := fun (s : State) =>
    ((s.setFree (s.free + 16)), (List.range 16).map (fun i => (Config.freeWord (s.free + i)).setWidth 8), true)
  if s.flash.half.contains (sectorAt (16 * w)) then free s
  else
    match NMap.find s.flash.badWords w with
    | some true => free (s.bump .cf 0 0x14 1)
    | some false => (s.bump .cf 0 0x10 1, s.flashRaw (16 * w) 16, false)
    | none => (s, s.flashRaw (16 * w) 16, false)

/-- Words read one after the other. -/
def State.flashWords (s : State) : Nat → Nat → State × Bytes × Bool
  | _, 0 => (s, [], false)
  | w, n + 1 =>
    let r := s.flashWord w
    let q := State.flashWords r.1 (w + 1) n
    (q.1, r.2.1 ++ q.2.1, r.2.2 || q.2.2)

/-- `n` bytes from address `a` read through the code; UNRELIABLE is set where a word is. -/
def State.flashRead (s : State) (a n : Nat) : State × Bytes × Bool :=
  let r := s.flashWords (a / 16) ((a + n + 15) / 16 - a / 16)
  (if r.2.2 then r.1.setFlash { r.1.flash with unreliable := true } else r.1, slice r.2.1 (a % 16) n, r.2.2)

/-! ## Programming and erasing -/

/-- Bytes programmed. -/
def State.flashPut (s : State) (a : Nat) (bs : Bytes) : State := s.setFlashMem (Mem.writeN 0xFF#8 s.mem.flash a bs)

/-- A sector erased: every byte 0xFF, every word good. -/
def State.flashClear (s : State) (n : Nat) : State :=
  (s.setFlashMem (Mem.clear s.mem.flash (sectorBase n) (sectorSize n))).setFlash
    { s.flash with badWords := NMap.eraseRange s.flash.badWords (sectorBase n / 16) ((sectorBase n + sectorSize n) / 16) }

/-- A journal or counter record (Table 4). -/
def flashRecord (ty sector seq : Nat) : Bytes :=
  let b := beBytes 1 ty ++ [0#8] ++ beBytes 2 sector ++ beBytes 4 seq ++ [0#8, 0#8, 0#8, 0#8]
  b ++ beBytes 4 (crc32c b)

/-- A record read back: its type, sector and sequence number, if its CRC holds. -/
def recordAt (bs : Bytes) : Option (Nat × Nat × Nat) :=
  if beAt bs 12 4 = crc32c (bs.take 12) then some (beAt bs 0 1, beAt bs 2 2, beAt bs 4 4) else none

/-- Where slot `i` of the journal ring stands. -/
def journalAddr (i : Nat) : Nat := 0x8000 + 16 * i
/-- Where slot `i` of the counter ring stands. -/
def counterAddr (i : Nat) : Nat := if i < 256 then 0x1000 + 16 * i else 0x01001000 + 16 * (i - 256)

/-- A record put at the head of the journal. -/
def State.journalPut (s : State) (ty sector : Nat) : State :=
  let f := s.flash
  (s.flashPut (journalAddr f.jHead) (flashRecord ty sector (f.jSeq + 1))).setFlash
    { f with jHead := (f.jHead + 1) % 2048, jSeq := f.jSeq + 1 }

/-- A record appended to the journal (R340, R341): a sector that is begun is erased and gets its HEADER, and the INTENT records that
still count in it are copied forward (log entry 24). -/
def State.journal (s : State) (ty sector : Nat) : State :=
  let f := s.flash
  if f.jHead % 256 = 0 then
    let n := 0x8008 + f.jHead / 256
    let keep := f.half.filter (fun h => (List.range 256).any (fun i =>
      recordAt (s.flashRaw (journalAddr (f.jHead + i)) 16) |>.any (fun r => r.1 == 1 && r.2.1 == h)))
    (keep.foldl (fun s h => s.journalPut 1 h) ((s.flashClear n).journalPut 0x7E 0)).journalPut ty sector
  else s.journalPut ty sector

/-- An erase begins: its INTENT stands, the sector is HALF_ERASED until its DONE (R340, R342). -/
def State.beginErase (s : State) (n : Nat) (after : FlashAfter) : State :=
  let s1 := s.journal 1 n
  s1.setFlash { s1.flash with op := some (.erase n after), half := n :: s1.flash.half.filter (· != n) }

/-- An erase ends with its DONE. -/
def State.endErase (s : State) (n : Nat) : State :=
  let s1 := (s.flashClear n).journal 2 n
  s1.setFlash { s1.flash with op := none, half := s1.flash.half.filter (· != n) }

/-- A record put at the head of the counter ring. -/
def State.counterPut (s : State) (ty : Nat) : State :=
  let f := s.flash
  (s.flashPut (counterAddr f.cHead) (flashRecord ty 0 (f.cSeq + 1))).setFlash
    { f with cHead := (f.cHead + 1) % 512, cSeq := f.cSeq + 1 }

/-- A START (0x11), CONFIRM (0x12), PW_FAIL (0x13) or PW_OK (0x14) appended; a counter sector that is begun is erased, journalled, and the
records that the counts still need are copied forward (R341, R346, R348). -/
def State.counter (s : State) (ty : Nat) : State :=
  let f := s.flash
  let s1 :=
    if f.cHead % 256 = 0 then
      let n := if f.cHead = 0 then 0x8001 else 0x8011
      let s2 := (((s.journal 1 n).flashClear n).journal 2 n).counterPut 0x7E
      let s3 := (List.range f.pwFails).foldl (fun s _ => s.counterPut 0x13) s2
      (List.range (min f.starts 240)).foldl (fun s _ => s.counterPut 0x11) s3
    else s
  let s4 := s1.counterPut ty
  s4.setFlash { s4.flash with
    starts := if ty = 0x11 then min 255 (f.starts + 1) else if ty = 0x12 then 0 else f.starts,
    pwFails := if ty = 0x13 then f.pwFails + 1 else if ty = 0x14 then 0 else f.pwFails }

/-! ## The parameter set (R345, R346) -/

/-- The set of a device with no valid copy (R345); the copy not in use is then P0 (log entry 24). -/
def ParamSet.blank : ParamSet :=
  { copy := 1, seq := 0, bootActive := 0, pwSet := false, numValid := false, devNum := 0, topo := 0, pwDigest := List.replicate 32 0,
    protMain := List.replicate 64 0, protParam := 0, floor := 0 }

/-- The set in use. -/
def State.params (s : State) : ParamSet := s.flash.params.getD ParamSet.blank

/-- A parameter set as it stands in flash (Table 5). -/
def ParamSet.bytes (v : ParamSet) : Bytes :=
  let b := beBytes 4 0x43465053 ++ beBytes 4 v.seq ++ beBytes 1 v.bootActive ++
    beBytes 1 ((if v.pwSet then 1 else 0) + (if v.numValid then 2 else 0)) ++ beBytes 2 v.devNum ++ beBytes 4 v.topo.toNat ++
    v.pwDigest ++ v.protMain ++ beBytes 4 v.protParam.toNat ++ beBytes 4 v.floor ++ List.replicate 3968 0#8
  b ++ beBytes 4 (crc32c b) ++ beBytes 4 0x434F4D54

/-- A copy read back, if it is valid. -/
def parseParams (copy : Nat) (bs : Bytes) : Option ParamSet :=
  if beAt bs 0 4 = 0x43465053 && beAt bs 4088 4 = crc32c (bs.take 4088) && beAt bs 4092 4 = 0x434F4D54 then
    some { copy := copy, seq := beAt bs 4 4, bootActive := beAt bs 8 1 % 2, pwSet := beAt bs 9 1 % 2 == 1,
           numValid := beAt bs 9 1 / 2 % 2 == 1, devNum := beAt bs 10 2 % 4096, topo := BitVec.ofNat 32 (beAt bs 12 4),
           pwDigest := slice bs 16 32, protMain := slice bs 48 64, protParam := BitVec.ofNat 32 (beAt bs 112 4), floor := beAt bs 116 4 }
  else none

/-- The sector of a copy. -/
def paramSector (copy : Nat) : Nat := if copy = 0 then 0x8000 else 0x8010

/-- A parameter update begins (R346): the copy not in use is erased; `new` carries what changes. -/
def State.beginParam (s : State) (c : Option Ctx) (opcode : Nat) (new : ParamSet) : State :=
  let v := s.params
  s.beginErase (paramSector (1 - v.copy)) (.param c opcode { new with copy := 1 - v.copy, seq := v.seq + 1 })

/-- A sector's protection bit (R347). -/
def ParamSet.protects (v : ParamSet) (n : Nat) : Bool :=
  if 0x8000 ≤ n then v.protParam.getLsbD (n - 0x8000) else ofBe v.protMain / 2 ^ n % 2 == 1

/-! ## The start scan (R344, R345, R351) -/

/-- The records of a ring, with their slots. -/
def State.ringRecords (s : State) (addr : Nat → Nat) (n : Nat) : List (Nat × Nat × Nat × Nat) :=
  (List.range n).filterMap (fun i => (recordAt (s.flashRaw (addr i) 16)).map (fun r => (i, r)))

/-- The slot and sequence number of the last record of a ring. -/
def lastRecord (rs : List (Nat × Nat × Nat × Nat)) : Option (Nat × Nat) :=
  rs.foldl (fun b r => match b with
    | some (_, q) => if q < r.2.2.2 then some (r.1, r.2.2.2) else b
    | none => some (r.1, r.2.2.2)) none

/-- The sectors whose last record is an INTENT (R342). -/
def halfErased (rs : List (Nat × Nat × Nat × Nat)) : List Nat :=
  let es := rs.filter (fun r => r.2.1 == 1 || r.2.1 == 2)
  ((es.map (fun r => r.2.2.1)).eraseDups).filter (fun n =>
    (lastRecord (es.filter (fun r => r.2.2.1 == n))).any (fun l => es.any (fun r => r.1 == l.1 && r.2.1 == 1)))

/-- Records of a type after the last record of another. -/
def countAfter (rs : List (Nat × Nat × Nat × Nat)) (ty last : Nat) : Nat :=
  let q := ((lastRecord (rs.filter (fun r => r.2.1 == last))).map Prod.snd).getD 0
  (rs.filter (fun r => r.2.1 == ty && decide (q < r.2.2.2))).length

/-- What the Keeper ROM reads of the flash at a start: the journal, the counters and the parameter set. -/
def State.scanFlash (s : State) : State :=
  let js := s.ringRecords journalAddr 2048
  let cs := s.ringRecords counterAddr 512
  let half := halfErased js
  let copy := fun (k : Nat) => if half.contains (paramSector k) then none else parseParams k (s.flashRaw (sectorBase (paramSector k)) 4096)
  let ps := match copy 0, copy 1 with
    | some a, some b => if a.seq < b.seq then some b else some a
    | some a, none => some a
    | none, b => b
  let next := fun (n : Nat) (l : Option (Nat × Nat)) => match l with | some (i, _) => (i + 1) % n | none => 0
  s.setFlash { Flash.start with
    params := ps, half := half, badWords := s.flash.badWords, jHead := next 2048 (lastRecord js),
    jSeq := ((lastRecord js).map Prod.snd).getD 0, cHead := next 512 (lastRecord cs), cSeq := ((lastRecord cs).map Prod.snd).getD 0,
    pwFails := countAfter cs 0x13 0x14, starts := min 255 (countAfter cs 0x11 0x12) }

/-! ## Signed images (R389) -/

/-- The header meets Table 2 of Processors, firmware and start-up: TYPE 1 Keeper runtime, 2 firmware. -/
def imageHeaderOk (ty : Nat) (bs : Bytes) : Bool :=
  let total := beAt bs 12 4
  decide (352 ≤ bs.length) && beAt bs 0 4 == 0x494D4147 && beAt bs 4 1 == ty && beAt bs 5 1 == 1 && beAt bs 6 2 == 0 &&
    decide (total ≤ (if ty = 1 then 2097152 else 16777216)) && total == bs.length && beAt bs 18 2 == 0 &&
    (if ty = 1 then beAt bs 16 2 == 0
     else decide (1 ≤ beAt bs 16 1) && decide (beAt bs 16 1 ≤ beAt bs 17 1) && decide (beAt bs 17 1 ≤ 3) && beAt bs 20 8 == 0) &&
    decide (beAt bs 28 4 < total) && allZero (slice bs 32 224)

/-- The check of a signed image (R389): BAD_FRAME for its header, SIGNATURE_INVALID for its signature. -/
def imageCheck (ty : Nat) (bs : Bytes) : Option Status :=
  if !imageHeaderOk ty bs then some .badFrame
  else
    match Config.romKeys.find? (fun k => Config.sm3 k == slice bs (bs.length - 96) 32) with
    | none => some .signatureInvalid
    | some k => if Config.sm2Verify k (bs.take (bs.length - 64)) (bs.drop (bs.length - 64)) then none else some .signatureInvalid

/-- VERSION of an image. -/
def imageVersion (bs : Bytes) : Nat := beAt bs 8 4

/-- The image that a boot twin holds: TOTAL bytes from its start. -/
def State.twinImage (s : State) (twin : Nat) : Bytes :=
  s.flashRaw (twinBase twin) (min twinSize (beAt (s.flashRaw (twinBase twin) 16) 12 4))

/-- A boot twin that the Keeper ROM runs (R351): it verifies and holds no HALF_ERASED sector. -/
def State.twinGood (s : State) (twin : Nat) : Bool :=
  (twinSectors twin).all (fun n => !s.flash.half.contains n) && (imageCheck 1 (s.twinImage twin)).isNone

end Sys2Proof.Machine
end

