-- ==== Sys2Proof/Machine/FlashCmds.lean ====
section
/-!
DEFINITION. The commands of the configuration flash controller (R336 to R350): the queue, reads, programs, erases with suspension and
resumption, protection and password, the boot twins.
-/
namespace Sys2Proof.Machine

open Sys2Proof

/-- The status of a command of the controller, CF_STATUS.LAST_STATUS where it is its final one: to its frame, or, for an update that a register write started, to that write (R346). -/
def State.cfDone (s : State) (c : Option Ctx) (op : Nat) (st : Status) (pl : Bytes) : State :=
  match c with
  | some c => ((if st = .pending then s else s.putField .cf 0 0 15 0 (Status.code st)).freeMbox c op).reply c op st pl
  | none => s.pushGo 5 0 st

/-- Commands that program or erase, and so wait while another program or erase runs (Table 3). -/
def cfExclusive (op : Nat) : Bool :=
  op == 0 || op == 0x0702 || op == 0x0703 || op == 0x0708 || op == 0x0709 || op == 0x070B || op == 0x070C || op == 0x070E

/-- The digest of a password (Table 5 of Configuration flash). -/
def passwordDigest (pw : Bytes) : Bytes := Config.sm3 (Config.sm3 Config.identityKey ++ pw)

/-- A password checked (R347, R348): none where it passes, with the record appended. -/
def State.cfPassword (s : State) (pw : Bytes) : State × Option Status :=
  if 8 ≤ s.flash.pwFails then (s, some .passwordLocked)
  else if !s.params.pwSet then (s, none)
  else if passwordDigest pw = s.params.pwDigest then (s.counter 0x14, none)
  else (s.counter 0x13, some .notPermitted)

/-- CF_READ and CF_LOG_READ (Table 2): the bytes, behind the UNRELIABLE byte for CF_READ. -/
def State.cfReadBytes (s : State) (c : Ctx) (op a n : Nat) : State :=
  let r := s.flashRead a n
  r.1.cfDone (some c) op .ok ((if op = 0x0701 then [if r.2.2 then 1#8 else 0#8, 0#8, 0#8, 0#8] else []) ++ r.2.1)

/-- CF_PROGRAM (R335, R337, R342). -/
def State.cfProgramRun (s : State) (c : Ctx) (pl : Bytes) : State :=
  let a := beAt pl 0 4
  let n := beAt pl 4 4
  let no := fun st => s.cfDone (some c) 0x0702 st []
  if pl.length < 8 || n + 8 != pl.length || a % 16 != 0 || n % 16 != 0 || n = 0 || decide (256 < n) || a / 256 != (a + n - 1) / 256 ||
      decide (2 ^ 25 ≤ a) then no .badFrame
  else if !ownerSector (sectorAt a) || s.params.protects (sectorAt a) then no .protected_
  else if s.flash.half.contains (sectorAt a) then no .halfErased
  else if !(s.flashRaw a n).all (· == 0xFF#8) ||
      (List.range (n / 16)).any (fun i => (NMap.find s.flash.badWords (a / 16 + i)).isSome) then no .notPermitted
  else s.setFlash { s.flash with op := some (.program c 0x0702 a (pl.drop 8)) }

/-- CF_ERASE (R337, R339, R340). -/
def State.cfEraseRun (s : State) (c : Ctx) (pl : Bytes) : State :=
  let n := beAt pl 0 2
  let no := fun st => s.cfDone (some c) 0x0703 st []
  if pl.length != 2 || !sectorOk n then no .badFrame
  else if !ownerSector n || s.params.protects n then no .protected_
  else if s.flash.susp.isSome then no .notPermitted
  else (s.cfDone (some c) 0x0703 .pending []).beginErase n (.answer c)

/-- CF_TWIN_WRITE (R349). -/
def State.cfTwinRun (s : State) (c : Ctx) (pl : Bytes) : State :=
  let fl := beAt pl 0 1
  let off := beAt pl 4 4
  let d := pl.drop 8
  let no := fun st => s.cfDone (some c) 0x070B st []
  let twin := 1 - s.params.bootActive
  let next : Option Nat := if fl / 2 % 2 = 1 then none else some (off + d.length)
  if pl.length < 8 || d.length % 16 != 0 || off % 16 != 0 || decide (4096 < d.length) || decide (twinSize < off + d.length) then no .badFrame
  else if fl % 2 = 1 then
    if s.flash.twinWrite.isSome || s.flash.susp.isSome then no .notPermitted
    else
      let ns := twinSectors twin
      ((s.cfDone (some c) 0x070B .pending []).setFlash
        { (s.cfDone (some c) 0x070B .pending []).flash with twinWrite := next }).beginErase (ns.headD 0) (.twin c (ns.drop 1) off d)
  else if s.flash.twinWrite != some off then no .notPermitted
  else s.setFlash { s.flash with twinWrite := next, op := some (.program c 0x070B (twinBase twin + off) d) }

/-- CF_BOOT_SWAP (R350). -/
def State.cfSwapRun (s : State) (c : Ctx) (pl : Bytes) : State :=
  let v := s.params
  let twin := 1 - v.bootActive
  let img := s.twinImage twin
  if pl.length != 4 then s.cfDone (some c) 0x070C .badFrame []
  else if s.flash.susp.isSome then s.cfDone (some c) 0x070C .notPermitted []
  else
    let s1 := s.cfDone (some c) 0x070C .pending []
    if !s.twinGood twin then (s1.bump .kpr 0 0x04 1).cfDone (some c) 0x070C .signatureInvalid []
    else if imageVersion img < v.floor then s1.cfDone (some c) 0x070C .notPermitted []
    else s1.beginParam (some c) 0x070C
      { v with bootActive := twin, floor := if beAt pl 0 1 % 2 = 1 then imageVersion img else v.floor }

/-- CF_PROT_SET and CF_PW_SET (R347, R348). -/
def State.cfProtectRun (s : State) (c : Ctx) (op : Nat) (pl : Bytes) : State :=
  let v := s.params
  if pl.length != (if op = 0x0708 then 84 else 32) then s.cfDone (some c) op .badFrame []
  else if s.flash.susp.isSome then s.cfDone (some c) op .notPermitted []
  else
    let q := s.cfPassword (if op = 0x0708 then slice pl 68 16 else slice pl 0 16)
    match q.2 with
    | some st => q.1.cfDone (some c) op st []
    | none =>
      if op = 0x0708 then q.1.beginParam (some c) op { v with protMain := slice pl 0 64, protParam := BitVec.ofNat 32 (beAt pl 64 4) }
      else
        let pw := slice pl 16 16
        q.1.beginParam (some c) op
          { v with pwSet := !allZero pw, pwDigest := if allZero pw then List.replicate 32 0 else passwordDigest pw }

/-- CF_PW_RESET: the signed token of R412; a repeat of the last one gets its reply again. -/
def State.cfPwResetRun (s : State) (c : Ctx) (pl : Bytes) : State :=
  let n := beAt pl 40 8
  let k := s.keeper
  let no := (s.bump .kpr 0 0x04 1).cfDone (some c) 0x070E .signatureInvalid (beBytes 8 k.commandMark)
  if pl.length != 112 || beAt pl 0 4 != 0x50575253 || beAt pl 4 4 != 0 then s.cfDone (some c) 0x070E .badFrame []
  else if slice pl 8 32 != Config.sm3 Config.identityKey || !(k.ownerKey.any (fun q => Config.sm2Verify q (pl.take 48) (pl.drop 48))) then no
  else
    match k.lastCommand with
    | some (m, f) =>
      if m = n then s.cfDone (some c) 0x070E f.status f.payload else go no n
    | none => go no n
where
  /-- A token whose counter is above the mark acts. -/
  go (no : State) (n : Nat) : State :=
    if n ≤ s.keeper.commandMark then no
    else if s.flash.susp.isSome then s.cfDone (some c) 0x070E .notPermitted []
    else
      ((s.setKeeper { s.keeper with commandMark := n, lastCommand := some (n, replyFrame c 0x070E .ok 0 []) }).counter 0x14).beginParam
        (some c) 0x070E { s.params with pwSet := false, pwDigest := List.replicate 32 0 }

/-- A write of VL_DEV_NUM.NEXT (kind 0) or VL_TOPO_CTL (kind 1) to the parameter set (R346). -/
def State.cfRegisterRun (s : State) (pl : Bytes) : State :=
  let v := s.params
  if s.flash.susp.isSome then s.pushGo 5 0 .notPermitted
  else s.beginParam none 0
    (if beAt pl 0 1 = 0 then { v with numValid := true, devNum := beAt pl 1 4 % 4096 } else { v with topo := BitVec.ofNat 32 (beAt pl 1 4) })

/-- CF_HALF_LIST (R344): sector, BLANK_OK. -/
def State.halfList (s : State) : Bytes :=
  s.flash.half.mergeSort.flatMap (fun n =>
    beBytes 2 n ++ [if s.flash.blankOk.any (fun b => b.1 == n && b.2) then 1#8 else 0#8, 0#8])

/-- CF_SUSPEND (R339, Table 3). -/
def State.cfSuspendRun (s : State) (c : Ctx) : State :=
  match s.flash.op, s.flash.susp with
  | some (.erase n a), none => (s.setFlash { s.flash with op := none, susp := some (.erase n a) }).cfDone (some c) 0x0704 .ok []
  | _, _ => s.cfDone (some c) 0x0704 .notPermitted []

/-- CF_RESUME: at once, or when the program that runs has completed (Table 3). -/
def State.cfResumeRun (s : State) (c : Ctx) : State :=
  match s.flash.susp, s.flash.op with
  | none, _ => s.cfDone (some c) 0x0705 .notPermitted []
  | some e, none => (s.setFlash { s.flash with op := some e, susp := none }).cfDone (some c) 0x0705 .ok []
  | some _, some _ =>
    if s.flash.resumeWait.isSome then s.cfDone (some c) 0x0705 .notPermitted []
    else s.setFlash { s.flash with resumeWait := some c }

/-- A command carried out (Table 2). -/
def State.cfRun (s : State) (op : Nat) (c : Ctx) (pl : Bytes) : State :=
  let no := fun st => s.cfDone (some c) op st []
  let a := beAt pl 0 4
  let n := beAt pl 4 4
  match op with
  | 0 => s.cfRegisterRun pl
  | 0x0701 =>
    if pl.length != 8 || n = 0 || decide (4096 < n) || decide (2 ^ 25 < a + n) then no .badFrame
    else if a < 0x00100000 && 0x00010000 < a + n then no .protected_
    else s.cfReadBytes c op a n
  | 0x0702 => s.cfProgramRun c pl
  | 0x0703 => s.cfEraseRun c pl
  | 0x0704 => if pl.isEmpty then s.cfSuspendRun c else no .badFrame
  | 0x0705 => if pl.isEmpty then s.cfResumeRun c else no .badFrame
  | 0x0706 =>
    let k := beAt pl 0 2
    if pl.length != 2 || !sectorOk k then no .badFrame
    else if s.flash.half.contains k then
      let f := s.fresh
      f.2.cfDone (some c) op .ok [if f.1.getLsbD 0 then 1#8 else 0#8]
    else
      let used := s.mem.flash.any (fun e => decide (sectorBase k ≤ e.1) && decide (e.1 < sectorBase k + sectorSize k))
      s.cfDone (some c) op .ok [if used then 1#8 else 0#8]
  | 0x0707 => if pl.isEmpty then s.cfDone (some c) op .ok s.halfList else no .badFrame
  | 0x0708 => s.cfProtectRun c op pl
  | 0x0709 => s.cfProtectRun c op pl
  | 0x070A => if pl.isEmpty then s.cfDone (some c) op .ok (s.params.protMain ++ beBytes 4 s.params.protParam.toNat) else no .badFrame
  | 0x070B => s.cfTwinRun c pl
  | 0x070C => s.cfSwapRun c pl
  | 0x070D => if pl.isEmpty then (s.counter 0x12).cfDone (some c) op .ok [] else no .badFrame
  | 0x070E => s.cfPwResetRun c pl
  | 0x070F =>
    let area := beAt pl 0 1
    let off := n
    let len := beAt pl 8 4
    let size := if area = 0 then 983040 else 32768
    if pl.length != 12 || decide (1 < area) || len = 0 || decide (4096 < len) || decide (size < off + len) then no .badFrame
    else s.cfReadBytes c op ((if area = 0 then 0x01010000 else 0x01008000) + off) len
  | _ => s

/-- A command of the queue, a register's update having no frame. -/
def noCtx : Ctx := { sess := 0xFFFF, part := 0xFFFF, handle := 0, via := none }

/-- A command that waits where another program or erase runs: one that programs or erases, but for a program to the sector that is being
erased, which is refused at once (Table 3). -/
def State.cfWaits (s : State) (op : Nat) (pl : Bytes) : Bool :=
  match s.flash.op with
  | some (.erase n _) => cfExclusive op && !(op == 0x0702 && sectorAt (beAt pl 0 4) == n)
  | some _ => cfExclusive op
  | none => false

/-- Commands that are carried out beside what runs (R338, R339): reads, CF_SUSPEND and CF_RESUME (log entry 24). -/
def cfBeside (op : Nat) : Bool := op == 0x0701 || op == 0x070F || op == 0x0704 || op == 0x0705

/-- A command given to the controller (R336): it waits behind those that wait, and one that programs or erases behind the one that runs, in a
queue of 8 in their order of arrival. -/
def State.cfSubmit (s : State) (op : Nat) (c : Option Ctx) (pl : Bytes) : State :=
  if s.cfWaits op pl || (!cfBeside op && !s.flash.queue.isEmpty) then
    if s.flash.queue.length < 8 then s.setFlash { s.flash with queue := s.flash.queue ++ [(op, c.getD noCtx, pl)] }
    else s.cfDone c op .noResource []
  else s.cfRun op (c.getD noCtx) pl

/-- Waiting commands carried out in their order as far as none of them waits for what runs; `n` bounds their number. -/
def State.cfPump (s : State) : Nat → State
  | 0 => s
  | n + 1 =>
    match s.flash.queue with
    | (op, c, pl) :: q => if s.cfWaits op pl then s else ((s.setFlash { s.flash with queue := q }).cfRun op c pl).cfPump n
    | [] => s

/-- An erase has ended (CF_ERASE_COMPLETE). -/
def State.cfEraseDone (s : State) (n : Nat) (after : FlashAfter) : State :=
  let s1 := s.endErase n
  match after with
  | .answer c => (s1.cfDone (some c) 0x0703 .ok []).cfPump 8
  | .param c opcode new => s1.setFlash { s1.flash with op := some (.param c opcode new) }
  | .twin c left off d =>
    match left with
    | m :: ms => s1.beginErase m (.twin c ms off d)
    | [] => s1.setFlash { s1.flash with op := some (.program c 0x070B (twinBase (1 - s1.params.bootActive) + off) d) }

/-- A program has ended (CF_PROGRAM_COMPLETE): its words are written; a waiting resume goes on (Table 3), or the queue does. -/
def State.cfProgramDone (s : State) (o : FlashOp) : State :=
  let s1 := s.setFlash { s.flash with op := none }
  let s2 :=
    match o with
    | .program c op a d => (s1.flashPut a d).cfDone (some c) op .ok []
    | .param c op new =>
      let s3 := s1.flashPut (sectorBase (paramSector new.copy)) new.bytes
      (s3.setFlash { s3.flash with params := some new }).cfDone c op .ok []
    | .erase _ _ => s1
  match s2.flash.resumeWait, s2.flash.susp with
  | some c, some e => (s2.setFlash { s2.flash with op := some e, susp := none, resumeWait := none }).cfDone (some c) 0x0705 .ok []
  | _, _ => s2.cfPump 8

/-- A command of Table 2 from its frame (R336): the device owner's alone, at device level; BUSY_STARTING until firmware runs. -/
def State.cfFrame (s : State) (op : Nat) (c : Ctx) (pl : Bytes) : Res :=
  match s.serveRefusal c op .keeper with
  | some st => .next ((s.freeMbox c op).reply c op st [])
  | none =>
    if s.dev.phase != .recovery && (!(s.isOwner c) || c.part != 0xFFFF) then .next ((s.freeMbox c op).reply c op .notPermitted [])
    else .next (s.cfSubmit op (some c) pl)

/-- CF_READ. -/
def execCfRead (c : Ctx) (payload : Bytes) (env : List Strike) (s : State) : Res := (s.strike env).cfFrame 0x0701 c payload
/-- CF_PROGRAM. -/
def execCfProgram (c : Ctx) (payload : Bytes) (s : State) : Res := s.cfFrame 0x0702 c payload
/-- CF_ERASE. -/
def execCfErase (c : Ctx) (payload : Bytes) (s : State) : Res := s.cfFrame 0x0703 c payload
/-- CF_SUSPEND. -/
def execCfSuspend (c : Ctx) (payload : Bytes) (s : State) : Res :=
  match s.cfFrame 0x0704 c payload with
  | .next t => .next (t.cfPump 8)
  | r => r
/-- CF_RESUME. -/
def execCfResume (c : Ctx) (payload : Bytes) (s : State) : Res := s.cfFrame 0x0705 c payload
/-- CF_BLANK_CHECK. -/
def execCfBlankCheck (c : Ctx) (payload : Bytes) (s : State) : Res := s.cfFrame 0x0706 c payload
/-- CF_HALF_LIST. -/
def execCfHalfList (c : Ctx) (payload : Bytes) (s : State) : Res := s.cfFrame 0x0707 c payload
/-- CF_PROT_SET. -/
def execCfProtSet (c : Ctx) (payload : Bytes) (s : State) : Res := s.cfFrame 0x0708 c payload
/-- CF_PW_SET. -/
def execCfPwSet (c : Ctx) (payload : Bytes) (s : State) : Res := s.cfFrame 0x0709 c payload
/-- CF_PROT_READ. -/
def execCfProtRead (c : Ctx) (payload : Bytes) (s : State) : Res := s.cfFrame 0x070A c payload
/-- CF_TWIN_WRITE. -/
def execCfTwinWrite (c : Ctx) (payload : Bytes) (s : State) : Res := s.cfFrame 0x070B c payload
/-- CF_BOOT_SWAP. -/
def execCfBootSwap (c : Ctx) (payload : Bytes) (s : State) : Res := s.cfFrame 0x070C c payload
/-- CF_START_CLEAR. -/
def execCfStartClear (c : Ctx) (payload : Bytes) (s : State) : Res := s.cfFrame 0x070D c payload
/-- CF_PW_RESET. -/
def execCfPwReset (c : Ctx) (payload : Bytes) (s : State) : Res := s.cfFrame 0x070E c payload
/-- CF_LOG_READ. -/
def execCfLogRead (c : Ctx) (payload : Bytes) (env : List Strike) (s : State) : Res := (s.strike env).cfFrame 0x070F c payload

end Sys2Proof.Machine
end

