-- ==== Sys2Proof/Machine/Image.lean ====
section
/-!
DEFINITION. Model images as the device reads them: fields of the cartouche and of its stage entries (Tables 1 and 2 of Model images),
the atlas, the shard's header and directory (Table 3), and the layout of a partition's LPDDR5X share (R159, log entry 14).
-/
namespace Sys2Proof.Machine

open Sys2Proof

/-- A field of the cartouche's header. -/
def Image.header (im : Image) (off len : Nat) : Nat := beAt im.cart off len
/-- A field of the stage entry of stage `st`. -/
def Image.stageField (im : Image) (st off len : Nat) : Nat := beAt im.cart (128 + 128 * st + off) len
/-- A field of this module's stage entry. -/
def Image.entry (im : Image) (off len : Nat) : Nat := im.stageField im.stage off len

/-- SFU_MODE. -/
def Image.sfuMode (im : Image) : Nat := im.header 5 1
/-- KV_FORMAT. -/
def Image.kvFormat (im : Image) : Nat := im.header 6 1
/-- Bytes of a page: 32 KiB times two to the code. -/
def Image.pageBytes (im : Image) : Nat := 32768 * 2 ^ im.header 7 1
/-- HKV. -/
def Image.hkv (im : Image) : Nat := im.header 8 2
/-- D, the head dimension. -/
def Image.headDim (im : Image) : Nat := im.header 10 2
/-- KV_POD. -/
def Image.kvPod (im : Image) : Bool := im.header 12 1 % 2 == 1
/-- SEALED of the cartouche: a key block is present. -/
def Image.hasKeyBlock (im : Image) : Bool := im.header 12 1 / 2 % 2 == 1
/-- STREAMS: stream operators are present. -/
def Image.hasStreams (im : Image) : Bool := im.header 12 1 / 8 % 2 == 1
/-- ROT_SPLIT. -/
def Image.rotSplit (im : Image) : Bool := im.header 12 1 / 4 % 2 == 1
/-- STAGES. -/
def Image.stages (im : Image) : Nat := im.header 13 1
/-- EDITION. -/
def Image.edition (im : Image) : Nat := im.header 20 4
/-- VOCAB. -/
def Image.vocab (im : Image) : Nat := im.header 28 4
/-- WIDTH. -/
def Image.width (im : Image) : Nat := im.header 32 4
/-- EPS. -/
def Image.eps (im : Image) : Word := BitVec.ofNat 32 (im.header 36 4)
/-- ROT_WIDTH. -/
def Image.rotWidth (im : Image) : Nat := im.header 40 2
/-- PREFILL_C, the prefill chunk length c. -/
def Image.chunkC (im : Image) : Nat := im.header 42 2
/-- B_MAX. -/
def Image.bMax (im : Image) : Nat := im.header 44 2
/-- PF_MAX. -/
def Image.pfMax (im : Image) : Nat := im.header 48 4
/-- CHUNK_L. -/
def Image.chunkL (im : Image) : Nat := im.header 52 2
/-- IN_WIDTH, F. -/
def Image.inWidth (im : Image) : Nat := im.header 54 2
/-- IN_FORMAT. -/
def Image.inFormat (im : Image) : Nat := im.header 56 1
/-- OUT_BYTES. -/
def Image.outBytes (im : Image) : Nat := im.header 58 2
/-- STREAMS_MAX. -/
def Image.streamsMax (im : Image) : Nat := im.header 60 4
/-- LAYERS of this stage, L. -/
def Image.layers (im : Image) : Nat := im.entry 2 1
/-- FIRST_LAYER of this stage. -/
def Image.firstLayer (im : Image) : Nat := im.entry 0 2
/-- SLOTS of this stage, T_s. -/
def Image.slots (im : Image) : Nat := im.entry 3 1
/-- T_s is 0 on every stage (R207). -/
def Image.neverBinds (im : Image) : Bool := (List.range im.stages).all (fun st => im.stageField st 3 1 == 0)
/-- SHARD_LEN of this stage. -/
def Image.shardLen (im : Image) : Nat := im.entry 44 8
/-- XCACHE of this stage. -/
def Image.xcacheSlots (im : Image) : Nat := im.entry 52 4
/-- NONCE of this stage. -/
def Image.nonce (im : Image) : Nat := im.entry 56 8
/-- DIGEST of this stage. -/
def Image.digest (im : Image) : Bytes := slice im.cart (128 + 128 * im.stage + 64) 32
/-- The number under which a partition holds an image's content key: its DIGEST. -/
def Image.keyId (im : Image) : Nat := ofBe im.digest
/-- SEALED of this stage's shard. -/
def Image.shardSealed (im : Image) : Bool := im.entry 96 1 % 2 == 1
/-- CALIB_SCALE of this stage. -/
def Image.calib (im : Image) : Word := BitVec.ofNat 32 (im.entry 8 4)
/-- This module carries the first stage. -/
def Image.isFirst (im : Image) : Bool := im.stage == 0
/-- This module carries the last stage. -/
def Image.isLast (im : Image) : Bool := im.stage + 1 == im.stages

/-- Where the records of the cartouche begin. -/
def Image.recordsOff (im : Image) : Nat := 128 + 128 * im.stages

/-- The records of a cartouche from an offset: type and body; none where they run past the end. -/
def cartRecords (cart : Bytes) : Nat → Nat → Option (List (Nat × Bytes) × Nat)
  | 0, off => some ([], off)
  | n + 1, off =>
    let len := beAt cart (off + 2) 2
    if cart.length < off + 4 + len then none
    else
      match cartRecords cart n (off + 4 + (len + 3) / 4 * 4) with
      | none => none
      | some (rs, e) => some ((beAt cart off 2, slice cart (off + 4) len) :: rs, e)

/-- The records of the image, as far as they can be read. -/
def Image.records (im : Image) : List (Nat × Bytes) :=
  ((cartRecords im.cart (im.header 14 2) im.recordsOff).map Prod.fst).getD []

/-- The body of the first record of a type. -/
def Image.record (im : Image) (ty : Nat) : Bytes := ((im.records.find? (fun r => r.1 == ty)).map Prod.snd).getD []

/-- Rotary frequency i (R174). -/
def Image.theta (im : Image) (i : Nat) : Word := BitVec.ofNat 32 (beAt (im.record 1) (4 * i) 4)

/-- An entry of the SLOT_MAP: layer, slot, first pair, pair count. -/
def Image.slotMap (im : Image) : List (Nat × Nat × Nat × Nat) :=
  let b := im.record 2
  (List.range (b.length / 8)).map (fun i => (beAt b (8 * i) 2, beAt b (8 * i + 2) 1, beAt b (8 * i + 4) 2, beAt b (8 * i + 6) 2))

/-- The graticule pattern of a bay and an entry kind 0 to 3 (R102). -/
def Image.pattern (im : Image) (bay kind : Nat) : Nat := im.entry (12 + bay) 1 / 2 ^ (6 - 2 * kind) % 4

/-- The entry point of a step kind (R82). -/
def Image.entryPoint (im : Image) (kind : Nat) : Nat := im.entry (28 + 4 * kind) 4

/-! ## Atlas -/

/-- The entries of an atlas: device number, stage, ring identifier. -/
def atlasEntries (a : Bytes) : List (Nat × Nat × Nat) :=
  (List.range (beAt a 8 4)).map (fun i => let e := beAt a (16 + 4 * i) 4; (e / 2 ^ 20, e / 2 ^ 14 % 64, e / 2 ^ 6 % 256))

/-- The device numbers of the ring that a device number belongs to (R291), in increasing Y; empty without a ring. -/
def Image.ring (im : Image) (dev : Nat) : List Nat :=
  match (atlasEntries im.atlas).find? (fun e => e.1 == dev) with
  | some (_, st, r) =>
    if r = 0 then [] else (((atlasEntries im.atlas).filter (fun e => e.2.1 == st && e.2.2 == r)).map Prod.fst).mergeSort
  | none => []

/-! ## Shard -/

/-- A directory entry of a shard (Table 3). -/
structure DirEntry where
  tensor : Nat
  layer : Nat
  flags : Nat
  format : Nat
  slotOff : Nat
  tagOff : Nat
  raw : Nat
  deriving DecidableEq, Repr, Inhabited

/-- POD of a directory entry. -/
def DirEntry.pod (d : DirEntry) : Bool := d.flags % 2 == 1
/-- FLASH: flash-resident (R263). -/
def DirEntry.flash (d : DirEntry) : Bool := d.flags / 2 % 2 == 1
/-- LENDABLE (R267). -/
def DirEntry.lendable (d : DirEntry) : Bool := d.flags / 4 % 2 == 1
/-- INSET: a vector inset. -/
def DirEntry.inset (d : DirEntry) : Bool := d.flags / 8 % 2 == 1
/-- Slots of 4 KiB that a tensor takes (R116). -/
def DirEntry.slots (d : DirEntry) : Nat := (d.raw + 4095) / 4096
/-- Bytes of a tensor's slots. -/
def DirEntry.slotBytes (d : DirEntry) : Nat := 4096 * d.slots
/-- Bytes of its tag plane (R118), in whole slots so that the next tensor's slots stay aligned (log entry 14). -/
def DirEntry.tagBytes (d : DirEntry) : Nat := if d.pod then (16 + 4 * d.slots + 4095) / 4096 * 4096 else 0
/-- Bytes of a tensor in LPDDR5X. -/
def DirEntry.stored (d : DirEntry) : Nat := d.slotBytes + d.tagBytes

/-- The directory of a plain shard. -/
def shardDir (sh : Bytes) : List DirEntry :=
  (List.range (beAt sh 8 4)).map (fun i =>
    let o := 64 + 32 * i
    { tensor := beAt sh o 4, layer := beAt sh (o + 4) 2, flags := beAt sh (o + 6) 1, format := beAt sh (o + 7) 1,
      slotOff := beAt sh (o + 8) 8, tagOff := beAt sh (o + 16) 8, raw := beAt sh (o + 24) 8 })

/-- The plain form of a shard (R306), with the content keys a partition holds. -/
def Part.plainShard (pt : Part) (im : Image) : Bytes :=
  if im.shardSealed then Config.sm4Ctr ((NMap.find pt.contentKeys im.keyId).getD []) (im.nonce * 2 ^ 64) im.shard else im.shard

/-- Bytes that a shard takes in the NAND share: whole map units of 16 KiB (R259). -/
def shardRoom (b : Bytes) : Nat := (b.length + 16383) / 16384 * 16384

/-- Where an image's shard begins in the NAND share (log entry 25). -/
def Part.shardOff (pt : Part) (im : Image) : Nat := ((pt.shards.takeWhile (fun b => b != im.shard)).map shardRoom).sum

/-- The directory of a partition's image. -/
def Part.dir (pt : Part) (im : Image) : List DirEntry := shardDir (pt.plainShard im)

/-! ## Layout of the LPDDR5X share (R159) -/

/-- Offsets and sizes of a partition's areas. -/
structure Layout where
  xcache : Nat
  xslot : Nat
  swap : Nat
  state : Nat
  bitmap : Nat
  tokens : Nat
  lists : Nat
  pool : Nat
  deriving DecidableEq, Repr, Inhabited

/-- Bytes that a layer's tensors need in the swap room (R321): the first layer carries the tensors of no layer. -/
def layerStored (dir : List DirEntry) (first l : Nat) : Nat :=
  ((dir.filter (fun d => !d.flash && (d.layer == l || (l == first && d.layer == 0xFFFF)))).map DirEntry.stored).sum

/-- The swap room of a stage (R321). -/
def swapRoom (im : Image) (dir : List DirEntry) : Nat :=
  ((List.range im.layers).map (fun i => layerStored dir im.firstLayer (im.firstLayer + i))).foldl max 0

/-- The layout of the share for an image (R159). The areas after the state area begin at a multiple of 4 KiB, as the slots of the pool must
(R116; log entry 14). -/
def layoutOf (im : Image) (dir : List DirEntry) (swap : Bool) : Layout :=
  let w := ((dir.filter (fun d => !d.flash)).map DirEntry.stored).sum
  let xs := ((dir.filter DirEntry.flash).map DirEntry.stored).foldl max 0
  let x := w + im.xcacheSlots * xs
  let r := x + (if swap then swapRoom im dir else 0)
  let st := (r + im.streamsMax * im.slots * 8704 + 4095) / 4096 * 4096
  { xcache := w, xslot := xs, swap := x, state := r, bitmap := st, tokens := st + 2 ^ 22, lists := st + 2 ^ 22 + 2 ^ 24,
    pool := st + 2 ^ 22 + 2 ^ 24 + 2 ^ 30 }

/-- The layout of a partition's current image. -/
def Part.layout (pt : Part) : Layout :=
  match pt.image with
  | some im => layoutOf im (pt.dir im) pt.swapEn
  | none => default

/-- Bytes of a sheet in the pool (R158). -/
def Image.sheetBytes (im : Image) : Nat := im.layers * (im.pageBytes + 512) + 576

/-- Bytes of a partition's LPDDR5X share. -/
def Part.shareBytes (pt : Part) : Nat := pt.dram.length * 2 ^ 28

/-- The sheets that a share has room for (R158). -/
def sheetsFor (im : Image) (lay : Layout) (share : Nat) : Nat := (share - lay.pool) / im.sheetBytes

/-- Where a non-FLASH tensor's slots lie in the weight area: directory order (R159). -/
def weightOffset (dir : List DirEntry) (tensor : Nat) : Nat :=
  (((dir.filter (fun d => !d.flash)).takeWhile (fun d => d.tensor != tensor)).map DirEntry.stored).sum

/-- Where a tensor of the weight area stands: where a swap of layers has put it, else at its place in directory order (R159, R319). -/
def Part.weightAt (pt : Part) (dir : List DirEntry) (tensor : Nat) : Nat := (NMap.find pt.places tensor).getD (weightOffset dir tensor)

/-- A swap has replaced the layer that a tensor goes with: the tensors of no layer go with the stage's first (R319). -/
def Part.replaced (pt : Part) (im : Image) (d : DirEntry) : Bool :=
  pt.swap.any (fun w => if d.layer = 0xFFFF then decide (0 < w.layer) else decide (d.layer < im.firstLayer + w.layer))

/-- The image that a tensor is taken from: the next one where a swap has replaced the tensor's layer, else the current one. -/
def Part.imageOf (pt : Part) (im : Image) (d : DirEntry) : Image :=
  match pt.next with
  | some n => if pt.replaced im d then n else im
  | none => im

/-- Where a copy of a tensor lies in a loan: behind the copies before it (log entry 29). -/
def copyOffset (dir : List DirEntry) (copies : List Nat) (tensor : Nat) : Nat :=
  ((copies.takeWhile (· != tensor)).map (fun n => ((dir.filter (fun d => d.tensor == n)).map DirEntry.stored).sum)).sum

end Sys2Proof.Machine
end

