-- ==== Sys2Proof/Machine/Fp.lean ====
section
/-!
DEFINITION. Number formats (R31 to R45): values as exact dyadic numbers, their encodings in the eight floating-point formats,
one rounding at the end of every operation. Conversions treat the cases of Table 4 of Number formats and narrowing.
-/
namespace Sys2Proof.Machine

open Sys2Proof

/-- A floating-point value: a NaN, a signed infinity, or (−1)^neg × m × 2^e, with a signed zero where m is 0 (R34, R36). -/
inductive FVal where
  | nan
  | inf (neg : Bool)
  | fin (neg : Bool) (m : Nat) (e : Int)
  deriving DecidableEq, Repr, Inhabited

/-- Which codes of a format are not numbers (Table 2): none; the all-ones exponent; the all-ones code only. -/
inductive FSpecial where
  | none | ieee | e4m3
  deriving DecidableEq, Repr, Inhabited

/-- A floating-point format: exponent bits, mantissa bits, bias, special codes (Table 2). -/
structure FFmt where
  eb : Nat
  mb : Nat
  bias : Nat
  special : FSpecial
  deriving DecidableEq, Repr, Inhabited

/-- FP32. -/
def FFmt.fp32 : FFmt := ⟨8, 23, 127, .ieee⟩
/-- BF16. -/
def FFmt.bf16 : FFmt := ⟨8, 7, 127, .ieee⟩
/-- FP16. -/
def FFmt.fp16 : FFmt := ⟨5, 10, 15, .ieee⟩
/-- FP8 E4M3. -/
def FFmt.e4m3 : FFmt := ⟨4, 3, 7, .e4m3⟩
/-- FP8 E5M2. -/
def FFmt.e5m2 : FFmt := ⟨5, 2, 15, .ieee⟩
/-- FP6 E3M2. -/
def FFmt.e3m2 : FFmt := ⟨3, 2, 3, .none⟩
/-- FP6 E2M3. -/
def FFmt.e2m3 : FFmt := ⟨2, 3, 1, .none⟩
/-- FP4 E2M1. -/
def FFmt.e2m1 : FFmt := ⟨2, 1, 1, .none⟩

/-- The floating-point format of a format code (Table 1, codes 1 to 8). -/
def floatFmt : Nat → Option FFmt
  | 1 => some .fp32
  | 2 => some .bf16
  | 3 => some .fp16
  | 4 => some .e4m3
  | 5 => some .e5m2
  | 6 => some .e3m2
  | 7 => some .e2m3
  | 8 => some .e2m1
  | _ => none

/-- The width of a two's complement integer format (Table 1, codes 9 to 12 and 24). -/
def intWidth : Nat → Option Nat
  | 9 => some 16
  | 10 => some 8
  | 11 => some 4
  | 12 => some 2
  | 24 => some 32
  | _ => none

/-- Bits of one stored element of a format (Table 1; an MX element without its scale, TER apart). -/
def elemBits : Nat → Nat
  | 1 | 24 => 32
  | 2 | 3 | 9 => 16
  | 4 | 5 | 10 | 14 | 17 | 19 => 8
  | 6 | 7 | 15 => 6
  | 8 | 11 | 16 | 18 => 4
  | 12 => 2
  | _ => 0

/-- The number of the sign bit. -/
def FFmt.signBit (f : FFmt) : Nat := f.eb + f.mb

/-- The magnitude code of the largest finite value. -/
def FFmt.maxCode (f : FFmt) : Nat :=
  match f.special with
  | .none => 2 ^ (f.eb + f.mb) - 1
  | .ieee => (2 ^ f.eb - 1) * 2 ^ f.mb - 1
  | .e4m3 => 2 ^ (f.eb + f.mb) - 2

/-- The exponent of the smallest subnormal. -/
def FFmt.minExp (f : FFmt) : Int := 1 - (f.bias : Int) - (f.mb : Int)

/-- The code of the canonical NaN (R35); +0 where the format has none (Table 4). -/
def FFmt.nanCode (f : FFmt) : Nat :=
  match f.special with
  | .none => 0
  | .ieee => (2 ^ f.eb - 1) * 2 ^ f.mb + 2 ^ (f.mb - 1)
  | .e4m3 => 2 ^ (f.eb + f.mb) - 1

/-- The value of a code (R34). -/
def FFmt.decode (f : FFmt) (code : Nat) : FVal :=
  let neg := (code / 2 ^ f.signBit) % 2 == 1
  let ex := (code / 2 ^ f.mb) % 2 ^ f.eb
  let man := code % 2 ^ f.mb
  if f.special = .ieee ∧ ex = 2 ^ f.eb - 1 then (if man = 0 then .inf neg else .nan)
  else if f.special = .e4m3 ∧ ex = 2 ^ f.eb - 1 ∧ man = 2 ^ f.mb - 1 then .nan
  else if ex = 0 then .fin neg man f.minExp
  else .fin neg (2 ^ f.mb + man) ((ex : Int) - f.bias - f.mb)

/-- Whether a magnitude with `rem` of `2 ^ sh` left over is rounded up to the next integer, `q` being the integer below. -/
def roundsUp (mode : RMode) (neg : Bool) (q rem half : Nat) : Bool :=
  match mode with
  | .rne => decide (rem > half) || (decide (rem = half) && decide (rem ≠ 0) && decide (q % 2 = 1))
  | .rtz => false
  | .rdn => neg && decide (rem ≠ 0)
  | .rup => !neg && decide (rem ≠ 0)

/-- m × 2^e as an integer multiple of 2^t, by the rounding mode. -/
def roundShift (mode : RMode) (neg : Bool) (m : Nat) (e t : Int) : Nat :=
  if t ≤ e then m * 2 ^ (e - t).toNat
  else
    let sh := (t - e).toNat
    let q := m / 2 ^ sh
    if roundsUp mode neg q (m % 2 ^ sh) (2 ^ (sh - 1)) then q + 1 else q

/-- The magnitude code of m × 2^e rounded to the format, without a bound above (R34, R44). A magnitude below half the
smallest subnormal gives zero in every mode (Table 4). -/
def FFmt.magnitude (f : FFmt) (mode : RMode) (neg : Bool) (m : Nat) (e : Int) : Nat :=
  if m = 0 then 0
  else if (m.log2 : Int) + e < f.minExp - 1 then 0
  else
    let t := max ((m.log2 : Int) + e - f.mb) f.minExp
    (t - f.minExp).toNat * 2 ^ f.mb + roundShift mode neg m e t

/-- The code of a value in a format, rounded once. `sat` is the saturation of Table 4; without it a magnitude beyond the largest
finite value becomes infinite, as the accumulators and twin pairs need it (R192, R202; log entry 8). -/
def FFmt.encode (f : FFmt) (sat : Bool) (mode : RMode) (v : FVal) : Nat :=
  let sign := fun (neg : Bool) => if neg then 2 ^ f.signBit else 0
  match v with
  | .nan => f.nanCode
  | .inf neg => sign neg + (if f.special = .ieee then f.maxCode + 1 else f.maxCode)
  | .fin neg m e =>
    let c := f.magnitude mode neg m e
    sign neg + (if c ≤ f.maxCode then c else if sat || f.special != .ieee then f.maxCode else f.maxCode + 1)

/-- Whether a finite value is beyond the largest finite value of a format after rounding: what the narrowing counters count. -/
def FFmt.saturates (f : FFmt) (v : FVal) : Bool :=
  match v with
  | .nan => false
  | .inf _ => true
  | .fin neg m e => decide (f.maxCode < f.magnitude .rne neg m e)

/-- A value with the opposite sign. -/
def FVal.neg : FVal → FVal
  | .nan => .nan
  | .inf s => .inf (!s)
  | .fin s m e => .fin (!s) m e

/-- The magnitude of a value. -/
def FVal.abs : FVal → FVal
  | .nan => .nan
  | .inf _ => .inf false
  | .fin _ m e => .fin false m e

/-- Neither a NaN nor an infinity. -/
def FVal.finite : FVal → Bool
  | .fin _ _ _ => true
  | _ => false

/-- An integer as an exact value; zero is +0. -/
def FVal.ofInt (i : Int) : FVal := .fin (decide (i < 0)) i.natAbs 0

/-- A signed multiple of a power of two, zero as +0. -/
def FVal.ofScaled (i : Int) (e : Int) : FVal := .fin (decide (i < 0)) i.natAbs e

/-- The signed mantissa of a finite value at exponent `t`, not above its own. -/
def scaledMant (neg : Bool) (m : Nat) (e t : Int) : Int :=
  let k : Int := m * 2 ^ (e - t).toNat
  if neg then -k else k

/-- The exact sum of two values (R36: +0 and −0 give +0). -/
def FVal.add : FVal → FVal → FVal
  | .nan, _ => .nan
  | _, .nan => .nan
  | .inf a, .inf b => if a = b then .inf a else .nan
  | .inf a, .fin _ _ _ => .inf a
  | .fin _ _ _, .inf b => .inf b
  | .fin a m e, .fin b n f =>
    if m = 0 ∧ n = 0 then .fin (a && b) 0 0
    else
      let t := min e f
      .ofScaled (scaledMant a m e t + scaledMant b n f t) t

/-- The exact product of two values. -/
def FVal.mul : FVal → FVal → FVal
  | .nan, _ => .nan
  | _, .nan => .nan
  | .inf a, .inf b => .inf (a != b)
  | .inf a, .fin b n _ => if n = 0 then .nan else .inf (a != b)
  | .fin a m _, .inf b => if m = 0 then .nan else .inf (a != b)
  | .fin a m e, .fin b n f => .fin (a != b) (m * n) (e + f)

/-- A value times 2^k, exactly. -/
def FVal.scale (k : Int) : FVal → FVal
  | .nan => .nan
  | .inf a => .inf a
  | .fin a m e => .fin a m (e + k)

/-- a < b for values that are numbers; false where either is a NaN. −0 and +0 are equal. -/
def FVal.lt : FVal → FVal → Bool
  | .nan, _ => false
  | _, .nan => false
  | .inf a, .inf b => a && !b
  | .inf a, .fin _ _ _ => a
  | .fin _ _ _, .inf b => !b
  | .fin a m e, .fin b n f =>
    let t := min e f
    decide (scaledMant a m e t < scaledMant b n f t)

/-- a = b as numbers. -/
def FVal.eq (a b : FVal) : Bool :=
  match a, b with
  | .nan, _ => false
  | _, .nan => false
  | x, y => !FVal.lt x y && !FVal.lt y x

/-- The quotient of two finite magnitudes as a dyadic that any format rounds as the exact quotient: 64 bits more than the
quotient's own and a sticky bit. -/
def quotient (m n : Nat) : Nat × Int :=
  let k := 80 + n.log2
  let q := m * 2 ^ k / n
  (2 * q + (if m * 2 ^ k % n = 0 then 0 else 1), -((k : Int) + 1))

/-- The quotient of two values, as far as one rounding can see it. -/
def FVal.div : FVal → FVal → FVal
  | .nan, _ => .nan
  | _, .nan => .nan
  | .inf _, .inf _ => .nan
  | .inf a, .fin b _ _ => .inf (a != b)
  | .fin a _ _, .inf b => .fin (a != b) 0 0
  | .fin a m e, .fin b n f =>
    if n = 0 then (if m = 0 then .nan else .inf (a != b))
    else
      let q := quotient m n
      .fin (a != b) q.1 (q.2 + e - f)

/-- A value as an integer by a rounding mode, clamped to a range; a NaN gives 0 (Table 4). -/
def FVal.toIntClamped (mode : RMode) (lo hi : Int) : FVal → Int
  | .nan => 0
  | .inf neg => if neg then lo else hi
  | .fin neg m e =>
    let q := roundShift mode neg m e 0
    max lo (min hi (if neg then -(q : Int) else q))

/-- A two's complement field of `w` bits as an integer (R37). -/
def signedOf (w : Nat) (n : Nat) : Int :=
  if n % 2 ^ w < 2 ^ (w - 1) then (n % 2 ^ w : Nat) else (n % 2 ^ w : Nat) - (2 ^ w : Nat)

/-- An integer as a two's complement field of `w` bits. -/
def unsignedOf (w : Nat) (i : Int) : Nat := (i % (2 ^ w : Nat)).toNat

/-! ## FP32 words -/

/-- The value of an FP32 word. -/
def f32 (w : Word) : FVal := FFmt.fp32.decode w.toNat

/-- A value rounded once to FP32 by RNE; a magnitude beyond the range becomes infinite. -/
def toF32 (v : FVal) : Word := BitVec.ofNat 32 (FFmt.fp32.encode false .rne v)

/-- A value converted to FP32 by R44: finite values saturate. -/
def toF32s (v : FVal) : Word := BitVec.ofNat 32 (FFmt.fp32.encode true .rne v)

/-- a + b in FP32, one RNE rounding. -/
def fAdd (a b : Word) : Word := toF32 (FVal.add (f32 a) (f32 b))
/-- a − b in FP32. -/
def fSub (a b : Word) : Word := toF32 (FVal.add (f32 a) (FVal.neg (f32 b)))
/-- a × b in FP32. -/
def fMul (a b : Word) : Word := toF32 (FVal.mul (f32 a) (f32 b))
/-- a × b + c in FP32, one RNE rounding. -/
def fFma (a b c : Word) : Word := toF32 (FVal.add (FVal.mul (f32 a) (f32 b)) (f32 c))
/-- a + b of the lanes: a finite sum beyond the range saturates (R44, R78). -/
def lAdd (a b : Word) : Word := toF32s (FVal.add (f32 a) (f32 b))
/-- a × b of the lanes. -/
def lMul (a b : Word) : Word := toF32s (FVal.mul (f32 a) (f32 b))
/-- a × b + c of the lanes, rounded once (R45). -/
def lFma (a b c : Word) : Word := toF32s (FVal.add (FVal.mul (f32 a) (f32 b)) (f32 c))
/-- The negative of an FP32 word. -/
def fNeg (a : Word) : Word := a ^^^ 0x80000000#32

/-- A word is infinite or a NaN. -/
def nonFinite (a : Word) : Bool := !(f32 a).finite

/-! ## Twin pairs (R50, R51) -/

/-- R51: an infinite or NaN high part sets the low part to +0. -/
def twinPair (hi lo : Word) : Word × Word := if nonFinite hi then (hi, 0) else (hi, lo)

/-- twin_add of R50. A pair whose high part is infinite or NaN keeps that value (R51, R202). -/
def twinAddPair (p : Word × Word) (x : Word) : Word × Word :=
  if nonFinite p.1 then (p.1, 0)
  else
    let s := fAdd p.1 x
    let bp := fSub s p.1
    let e := fAdd (fSub p.1 (fSub s bp)) (fSub x bp)
    let t := fAdd p.2 e
    let hi := fAdd s t
    twinPair hi (fSub t (fSub hi s))

/-- twin_mul of R50. -/
def twinMulPair (p : Word × Word) (a : Word) : Word × Word :=
  if nonFinite p.1 then (p.1, 0)
  else
    let q := fMul p.1 a
    let ep := fFma p.1 a (fNeg q)
    let t := fAdd ep (fMul p.2 a)
    let hi := fAdd q t
    twinPair hi (fSub t (fSub hi q))

/-! ## Elements of tensors (R32, R38, R39, R43) -/

/-- Element `i` of a run of bytes in a format of a power-of-two or 6-bit width, as a code (R32). -/
def elemCode (bits : Nat) (bs : Nat → Byte) (i : Nat) : Nat :=
  match bits with
  | 32 => ofLe [bs (4 * i), bs (4 * i + 1), bs (4 * i + 2), bs (4 * i + 3)]
  | 16 => ofLe [bs (2 * i), bs (2 * i + 1)]
  | 8 => (bs i).toNat
  | 6 => ofLe [bs (3 * (i / 4)), bs (3 * (i / 4) + 1), bs (3 * (i / 4) + 2)] / 2 ^ (6 * (i % 4)) % 64
  | 4 => (bs (i / 2)).toNat / 2 ^ (4 * (i % 2)) % 16
  | 2 => (bs (i / 4)).toNat / 2 ^ (2 * (i % 4)) % 4
  | _ => 0

/-- The value of trit `i` of a TER byte (R38): bytes above 242 are five zero trits. -/
def tritValue (b : Byte) (i : Nat) : Int :=
  if b.toNat > 242 then 0 else ((b.toNat / 3 ^ i % 3 : Nat) : Int) - 1

/-- Element `i` of a run of bytes in a format of codes 1 to 17, MX elements without their scale; codes 18 and 19 give their index. -/
def elemValue (fmt : Nat) (bs : Nat → Byte) (i : Nat) : FVal :=
  match fmt with
  | 13 => .ofInt (tritValue (bs (i / 5)) (i % 5))
  | 14 => FFmt.e4m3.decode (elemCode 8 bs i)
  | 15 => FFmt.e2m3.decode (elemCode 6 bs i)
  | 16 => FFmt.e2m1.decode (elemCode 4 bs i)
  | 17 => FVal.scale (-6) (.ofInt (signedOf 8 (elemCode 8 bs i)))
  | 18 => .ofInt (elemCode 4 bs i)
  | 19 => .ofInt (elemCode 8 bs i)
  | f =>
    match floatFmt f, intWidth f with
    | some ff, _ => ff.decode (elemCode (elemBits f) bs i)
    | none, some w => .ofInt (signedOf w (elemCode w bs i))
    | none, none => .nan

/-- Bytes that `n` elements of a format take in one row of a plane (R32, R38). -/
def rowBytes (fmt n : Nat) : Nat := if fmt = 13 then (n + 4) / 5 else (n * elemBits fmt + 7) / 8

/-- The value of an MX block's scale byte as an exponent of two; none for 0xFF (R39, R41). -/
def mxExponent (b : Byte) : Option Int := if b = 0xFF#8 then none else some ((b.toNat : Int) - 127)

/-- The exact value of a code in a format that lane instructions convert from (R44): codes 1 to 13 and 24. A trit in a lane register is its
digit, a code above 2 taken modulo 3 (DESIGN CHOICE, log entry 79). -/
def valueOfCode (fmt : Nat) (code : Nat) : FVal :=
  match floatFmt fmt, intWidth fmt with
  | some f, _ => f.decode code
  | none, some w => .ofInt (signedOf w code)
  | none, none => .ofInt (((code % 3 : Nat) : Int) - 1)

/-- The code of a value converted to a format that lane instructions convert to (R44, R45), with Table 4's cases. A trit is its
digit (R38). -/
def codeOfValue (fmt : Nat) (mode : RMode) (v : FVal) : Nat :=
  match floatFmt fmt, intWidth fmt with
  | some f, _ => f.encode true mode v
  | none, some w => unsignedOf w (v.toIntClamped mode (-(2 ^ (w - 1) : Nat)) ((2 ^ (w - 1) : Nat) - 1))
  | none, none => (v.toIntClamped mode (-1) 1 + 1).toNat

/-! ## Narrowing (R57, R58) -/

/-- Element format, emax and format code of an MX format (Table 3): MXINT8 elements are integers times 2^−6. -/
def mxElem (fmt : Nat) : Int :=
  match fmt with
  | 14 => 8
  | 15 => 2
  | 16 => 2
  | _ => 0

/-- The exact exponent floor(log2 |v|) of a finite non-zero value. -/
def floorLog2 : FVal → Option Int
  | .fin _ m e => if m = 0 then none else some ((m.log2 : Int) + e)
  | _ => none

/-- The largest magnitude among the finite values of a list, as a value. -/
def amaxOf (vs : List FVal) : FVal :=
  vs.foldl (fun a v => if v.finite && FVal.lt a v.abs then v.abs else a) (.fin false 0 0)

/-- One MX element of x / 2^X: its code and whether it saturated. -/
def mxCode (fmt : Nat) (x : FVal) : Nat × Bool :=
  match fmt with
  | 14 => (FFmt.e4m3.encode true .rne x, FFmt.e4m3.saturates x)
  | 15 => (FFmt.e2m3.encode true .rne x, FFmt.e2m3.saturates x)
  | 16 => (FFmt.e2m1.encode true .rne x, FFmt.e2m1.saturates x)
  | _ =>
    let y := FVal.scale 6 x
    let i := y.toIntClamped .rne (-1000000) 1000000
    (unsignedOf 8 (max (-128) (min 127 i)), decide (i > 127) || decide (i < -128))

/-- One block of 32 values narrowed to an MX format (R57): the scale byte, the element codes, the number of saturated elements,
and whether the block was sent with scale 0xFF. -/
def mxBlock (fmt : Nat) (vs : List FVal) : Byte × List Nat × Nat × Bool :=
  if vs.any (fun v => !v.finite) then (0xFF#8, (List.range vs.length).map (Config.nanBlockElem fmt), 0, true)
  else
    match floorLog2 (amaxOf vs) with
    | none => (0#8, vs.map (fun _ => 0), 0, false)
    | some l =>
      let x := max (-127) (min 127 (l - mxElem fmt))
      let cs := vs.map (fun v => mxCode fmt (FVal.scale (-x) v))
      (BitVec.ofInt 8 (x + 127), cs.map Prod.fst, (cs.filter Prod.snd).length, false)

/-- One element narrowed under the step's scale (R58): its code, whether it saturated, whether it was a NaN. -/
def fp8tElem (f : FFmt) (s x : Word) : Nat × Bool × Bool :=
  let q := f32 (toF32s (FVal.div (f32 x) (f32 s)))
  (f.encode true .rne q, f.saturates q, q == .nan)

/-- A run of codes of `bits` bits each packed by R32. -/
def packCodes (bits : Nat) (cs : List Nat) : Bytes :=
  match bits with
  | 32 => cs.flatMap (leBytes 4)
  | 16 => cs.flatMap (leBytes 2)
  | 8 => cs.map (BitVec.ofNat 8)
  | _ =>
    let n := cs.foldr (fun c acc => c % 2 ^ bits + 2 ^ bits * acc) 0
    leBytes ((cs.length * bits + 7) / 8) n

end Sys2Proof.Machine
end

