-- ==== Sys2Proof/Machine/Flags.lean ====
section
/-!
DEFINITION. Flags and saturating arithmetic: the sticky saturation flag of a bank (R48, R73), the lane engine's wrapping and clamping
integers (R78), its comparisons and shifts.
-/
namespace Sys2Proof.Machine

open Sys2Proof

/-- An integer clamped to the range of `w` bits. -/
def clampInt (w : Nat) (i : Int) : Int := max (-(2 ^ (w - 1) : Nat)) (min ((2 ^ (w - 1) : Nat) - 1) i)

/-- An INT32 accumulation: the entry after it, and whether it saturated (R48). -/
def satAdd32 (acc : Word) (x : Int) : Word × Bool :=
  let v := acc.toInt + x
  (BitVec.ofInt 32 (clampInt 32 v), decide (v ≠ clampInt 32 v))

/-- An integer result of `w` bits: clamped in the saturating forms, wrapped otherwise (R78). -/
def laneInt (w : Nat) (sat : Bool) (i : Int) : Nat := unsignedOf w (if sat then clampInt w i else i)

/-- The exact result of an arithmetic operation on integers. -/
def intOp (op : AOp) (a b c : Int) : Int :=
  match op with
  | .add => a + b
  | .mul => a * b
  | .fma => a * b + c

/-- The exact result of an arithmetic operation on values. -/
def fvalOp (op : AOp) (a b c : FVal) : FVal :=
  match op with
  | .add => FVal.add a b
  | .mul => FVal.mul a b
  | .fma => FVal.add (FVal.mul a b) c

/-- A lane comparison (R78). -/
def laneCmp (ty : CmpTy) (rel : Rel) (a b : Word) : Bool :=
  match ty, rel with
  | .f32, .eq => FVal.eq (f32 a) (f32 b)
  | .f32, .ne => !FVal.eq (f32 a) (f32 b)
  | .f32, .lt => FVal.lt (f32 a) (f32 b)
  | .f32, .le => FVal.lt (f32 a) (f32 b) || FVal.eq (f32 a) (f32 b)
  | .i32, .eq => a == b
  | .i32, .ne => a != b
  | .i32, .lt => decide (a.toInt < b.toInt)
  | .i32, .le => decide (a.toInt ≤ b.toInt)
  | .u32, .eq => a == b
  | .u32, .ne => a != b
  | .u32, .lt => decide (a.toNat < b.toNat)
  | .u32, .le => decide (a.toNat ≤ b.toNat)

/-- What a lane compare writes (log entry 11). -/
def cmpResult (b : Bool) : Word := if b then (if Config.laneTrue = 0#32 then 1#32 else Config.laneTrue) else 0#32

/-- A shift of `w` bits, its count modulo the width (R78). -/
def shiftBits (w : Nat) (left arith : Bool) (a count : Nat) : Nat :=
  let k := count % w
  let a := a % 2 ^ w
  if left then a * 2 ^ k % 2 ^ w
  else if arith then unsignedOf w (signedOf w a / (2 ^ k : Nat)) else a / 2 ^ k

/-- Rounds of the Philox generator (R93): counter words c0 to c3 under key k0, k1. -/
def philox : Nat → Word → Word → Word → Word → Word → Word → Word × Word × Word × Word
  | 0, c0, c1, c2, c3, _, _ => (c0, c1, c2, c3)
  | n + 1, c0, c1, c2, c3, k0, k1 =>
    let p0 := 0xD2511F53 * c0.toNat
    let p1 := 0xCD9E8D57 * c2.toNat
    let hi := fun (p : Nat) => BitVec.ofNat 32 (p / 2 ^ 32)
    let lo := fun (p : Nat) => BitVec.ofNat 32 p
    philox n (hi p1 ^^^ c1 ^^^ k0) (lo p1) (hi p0 ^^^ c3 ^^^ k1) (lo p0) (k0 + 0x9E3779B9#32) (k1 + 0xBB67AE85#32)

/-- The first output word of the generator for a token (R93). -/
def philoxDraw (seed : Dword) (pos draw beam : Nat) : Word :=
  (philox 10 (BitVec.ofNat 32 pos) (BitVec.ofNat 32 draw) (BitVec.ofNat 32 beam) 0#32
    (BitVec.ofNat 32 seed.toNat) (BitVec.ofNat 32 (seed.toNat / 2 ^ 32))).1

/-- The uniform value of an output word (R93): (w >> 8) × 2^−24, exact in FP32. -/
def uniform (w : Word) : Word := toF32 (.fin false (w.toNat / 256) (-24))

end Sys2Proof.Machine
end

