-- ==== Sys2Proof/Machine/Pods.lean ====
section
/-!
DEFINITION. Pod compression (R116 to R125): the tensor header, the pod tag, the code tables, the checks and the decoding of a
pod, and the coding of a block by a compress-on-store engine. Bytes and bits only; where pods stand is the business of the tile.
-/
namespace Sys2Proof.Machine

open Sys2Proof

/-- Why a pod fails (Table 7 of Pod compression), in the order of the codes 1 to 9. -/
inductive PodCause where
  | tensor | tag | header | lengths | kraft | noCode | short | long | pad
  deriving DecidableEq, Repr, Inhabited

/-- The code of a cause (Table 7). -/
def PodCause.code : PodCause → Nat
  | .tensor => 1
  | .tag => 2
  | .header => 3
  | .lengths => 4
  | .kraft => 5
  | .noCode => 6
  | .short => 7
  | .long => 8
  | .pad => 9

/-- A tensor header (Table 1 of Pod compression). -/
structure PodTensor where
  version : Nat
  fixedEn : Bool
  table : Nat
  pods : Nat
  rawBytes : Nat
  zeros : Bool
  deriving DecidableEq, Repr, Inhabited

/-- The tensor header in the first 16 bytes of a tag plane. -/
def PodTensor.parse (bs : Bytes) : PodTensor :=
  let t := beAt bs 1 1
  { version := beAt bs 0 1, fixedEn := t / 128 % 2 == 1, table := t % 16, pods := beAt bs 4 4, rawBytes := beAt bs 8 4,
    zeros := t / 16 % 8 == 0 && beAt bs 2 2 == 0 && beAt bs 12 4 == 0 }

/-- The TENSOR check of R125. -/
def PodTensor.ok (h : PodTensor) : Bool := h.version == 1 && h.zeros && h.pods == (h.rawBytes + 4095) / 4096

/-- A pod's mode (Table 2 of Pod compression), in the order of the codes. -/
inductive PodMode where
  | raw | fixed | local_ | const
  deriving DecidableEq, Repr, Inhabited

/-- The mode of a tag. -/
def tagMode (tag : Word) : PodMode :=
  match tag.field 31 30 with
  | 0 => .raw
  | 1 => .fixed
  | 2 => .local_
  | _ => .const

/-- UNITS of a tag. -/
def tagUnits (tag : Word) : Nat := tag.field 6 0

/-- The TAG check of R125. -/
def tagOk (h : PodTensor) (tag : Word) : Bool :=
  tag.field 29 16 == 0 && tag.field 7 7 == 0 &&
  match tagMode tag with
  | .raw => tagUnits tag == 64 && tag.field 15 8 == 0
  | .const => tagUnits tag == 0
  | .fixed => 1 ≤ tagUnits tag && tagUnits tag ≤ 64 && tag.field 15 8 == 0 && h.fixedEn
  | .local_ => 1 ≤ tagUnits tag && tagUnits tag ≤ 64 && tag.field 15 8 == 0 && !h.fixedEn

/-- Bytes before the payload words: the header, and in LOCAL the length table (R119). -/
def podHead : PodMode → Nat
  | .local_ => 132
  | _ => 4

/-- The HEADER check of R125 on a coded pod's stored bytes. -/
def headerOk (tag : Word) (slot : Bytes) : Bool :=
  let words := beAt slot 2 2
  let m := tagMode tag
  beAt slot 0 1 == (if m = .fixed then 1 else 2) && beAt slot 1 1 == 0 && 1 ≤ words &&
    words ≤ (if m = .fixed then 1022 else 990) && tagUnits tag == (podHead m + 4 * words + 63) / 64

/-- The checks that every mover of a pod makes: TENSOR, TAG, HEADER (R130). -/
def podMoveCheck (h : PodTensor) (tag : Word) (slot : Bytes) : Option PodCause :=
  if !h.ok then some .tensor
  else if !tagOk h tag then some .tag
  else if (tagMode tag = .fixed || tagMode tag = .local_) && !headerOk tag slot then some .header
  else none

/-! ## Code tables -/

/-- The class of a byte under a ROM key (Table 4 of Pod compression). -/
def romClass (key v : Nat) : Nat :=
  let h := v / 16
  let l := v % 16
  let fold := fun (n : Nat) => if n < 8 then n else 15 - n
  match key with
  | 0 => v % 128 / 8
  | 1 => (if 128 ≤ v then 255 - v else v) / 8
  | 2 => 4 * (h % 8 / 2) + l % 8 / 2
  | _ => 4 * (fold h / 2) + fold l / 2

/-- The code lengths of a shape's classes (Table 5 of Pod compression). -/
def romShape : Nat → List Nat
  | 0 => [6, 6, 7, 7, 8, 8, 9, 9, 10, 10, 11, 11, 12, 12, 12, 12]
  | 1 => [5, 6, 7, 9, 9, 10, 11, 11, 12, 12, 12, 12, 12, 12, 12, 12]
  | 2 => [12, 11, 10, 9, 8, 7, 6, 6, 7, 8, 9, 10, 11, 12, 12, 12]
  | _ => [12, 12, 12, 12, 12, 12, 12, 12, 11, 11, 10, 9, 9, 7, 6, 5]

/-- The code lengths of the 256 symbols under ROM table `t` (R123). -/
def romLengths (t : Nat) : List Nat :=
  (List.range 256).map (fun v => (romShape (t % 4)).getD (romClass (t / 4) v) 0)

/-- The code lengths of a LOCAL pod's length table (Table 3 of Pod compression). -/
def localLengths (slot : Bytes) : List Nat :=
  ((List.range 128).map (fun j => let b := (slot.getD (4 + j) 0).toNat; [b / 16, b % 16])).flatten

/-- The Kraft sum in units of 2^−12 (R121). -/
def kraft (lens : List Nat) : Nat := (lens.map (fun l => if l = 0 then 0 else 2 ^ (12 - l))).sum

/-- One entry of a code table: length, code, symbol. -/
abbrev CodeEntry := Nat × Nat × Nat

/-- The first code of length `l` (R121). -/
def firstCode (lens : List Nat) : Nat → Nat
  | 0 => 0
  | l + 1 => (firstCode lens l + (if l = 0 then 0 else lens.count l)) * 2

/-- The canonical code of a table of lengths (R121): one entry for every symbol with a length above 0. -/
def canonical (lens : List Nat) : List CodeEntry :=
  (List.range lens.length).filterMap (fun s =>
    let l := lens.getD s 0
    if l = 0 then none else some (l, firstCode lens l + (lens.take s).count l, s))

/-- A number as `l` bits, most significant first. -/
def bitsOf : Nat → Nat → List Bool
  | 0, _ => []
  | l + 1, n => (n / 2 ^ l % 2 == 1) :: bitsOf l n

/-- A run of bits as a number, most significant first. -/
def numOf (bs : List Bool) : Nat := bs.foldl (fun a b => 2 * a + (if b then 1 else 0)) 0

/-- The entry whose code stands at the front of a buffer, missing bits read as 0 (R124). -/
def frontEntry (tab : List CodeEntry) (buf : List Bool) : Option CodeEntry :=
  let v := numOf ((buf ++ List.replicate 12 false).take 12)
  tab.find? (fun e => v / 2 ^ (12 - e.1) == e.2.1)

/-! ## Decoding (R124, R125) -/

/-- One lane of one round: its buffer, the words still to be handed out; the symbol, the buffer and the words after. -/
def decodeLane (tab : List CodeEntry) (buf : List Bool) (words : List Nat) :
    Except PodCause (Nat × List Bool × List Nat) :=
  let take := match frontEntry tab buf with
    | some e => decide (buf.length < e.1)
    | none => false
  match (if take then (match words with
      | [] => Except.error PodCause.short
      | w :: ws => .ok (buf ++ bitsOf 32 w, ws)) else .ok (buf, words)) with
  | .error c => .error c
  | .ok (b, ws) =>
    match frontEntry tab b with
    | none => .error .noCode
    | some e => .ok (e.2.2, b.drop e.1, ws)

/-- One round over the lanes in increasing order: symbols, buffers and words after. -/
def decodeRound (tab : List CodeEntry) : List (List Bool) → List Nat → Except PodCause (List Nat × List (List Bool) × List Nat)
  | [], words => .ok ([], [], words)
  | b :: bs, words =>
    match decodeLane tab b words with
    | .error c => .error c
    | .ok (s, b', ws) =>
      match decodeRound tab bs ws with
      | .error c => .error c
      | .ok (ss, bs', ws') => .ok (s :: ss, b' :: bs', ws')

/-- `n` rounds: the symbols in the order of the raw block, the buffers and the words left. -/
def decodeRounds (tab : List CodeEntry) : Nat → List (List Bool) → List Nat → Except PodCause (List Nat × List (List Bool) × List Nat)
  | 0, bs, words => .ok ([], bs, words)
  | n + 1, bs, words =>
    match decodeRound tab bs words with
    | .error c => .error c
    | .ok (ss, bs', ws) =>
      match decodeRounds tab n bs' ws with
      | .error c => .error c
      | .ok (ts, bs'', ws') => .ok (ss ++ ts, bs'', ws')

/-- The coded part of R125 from the payload words and the bytes after them. -/
def decodePayload (lens : List Nat) (words : List Nat) (tail : Bytes) : Except PodCause Bytes :=
  match decodeRounds (canonical lens) 64 (List.replicate 64 []) words with
  | .error c => .error c
  | .ok (ss, bufs, ws) =>
    if !ws.isEmpty then .error .long
    else if bufs.any (fun b => 32 ≤ b.length || b.any id) || !allZero tail then .error .pad
    else .ok (ss.map (BitVec.ofNat 8))

/-- A pod decoded (R125): the 4,096 bytes of its block, or the first check that fails. `slot` is its slot from the first byte. -/
def podDecode (h : PodTensor) (tag : Word) (slot : Bytes) : Except PodCause Bytes :=
  match podMoveCheck h tag slot with
  | some c => .error c
  | none =>
    match tagMode tag with
    | .const => .ok (List.replicate 4096 (BitVec.ofNat 8 (tag.field 15 8)))
    | .raw => .ok (slot.take 4096)
    | m =>
      let n := beAt slot 2 2
      let words := (List.range n).map (fun i => beAt slot (podHead m + 4 * i) 4)
      let tail := slice slot (podHead m + 4 * n) (64 * tagUnits tag - (podHead m + 4 * n))
      if m = .local_ then
        let lens := localLengths slot
        if lens.any (fun l => 12 < l) then .error .lengths
        else if kraft lens != 4096 then .error .kraft
        else decodePayload lens words tail
      else decodePayload (romLengths h.table) words tail

/-! ## Coding (R120, R122, R124) -/

/-- The code bits of a symbol. -/
def symbolBits (tab : List CodeEntry) (s : Nat) : List Bool :=
  match tab.find? (fun e => e.2.2 == s) with
  | some e => bitsOf e.1 e.2.1
  | none => []

/-- A run of bits cut into 32-bit words, the last padded with zeros (R124); `n` bounds the number of words. -/
def wordsOf : Nat → List Bool → List Nat
  | 0, _ => []
  | n + 1, bs => if bs.isEmpty then [] else numOf ((bs ++ List.replicate 32 false).take 32) :: wordsOf n (bs.drop 32)

/-- The lanes as the coder follows them: bits that the decoder holds, words not yet handed out, symbol lengths to come. -/
abbrev LaneState := Nat × List Nat × List Nat

/-- One round of the demand order: the words handed out and the lanes after. -/
def demandRound : List LaneState → List Nat × List LaneState
  | [] => ([], [])
  | (held, ws, ls) :: lanes =>
    let need := ls.headD 0
    let r := demandRound lanes
    if held < need then (ws.take 1 ++ r.1, (held + 32 - need, ws.drop 1, ls.drop 1) :: r.2)
    else (r.1, (held - need, ws, ls.drop 1) :: r.2)

/-- The payload words of `n` rounds in demand order (R124). -/
def demandOrder : Nat → List LaneState → List Nat
  | 0, _ => []
  | n + 1, lanes => let r := demandRound lanes; r.1 ++ demandOrder n r.2

/-- The payload words of a block under a table (R124). -/
def codePayload (tab : List CodeEntry) (block : Bytes) : List Nat :=
  let laneSyms := fun (lane : Nat) => (List.range 64).map (fun c => symbolBits tab (block.getD (64 * c + lane) 0).toNat)
  demandOrder 64 ((List.range 64).map (fun lane =>
    (0, wordsOf 64 (laneSyms lane).flatten, (laneSyms lane).map List.length)))

/-- Occurrences of every byte value in a block. -/
def symbolCounts (block : Bytes) : List Nat := (List.range 256).map (fun s => block.count (BitVec.ofNat 8 s))

/-- The payload bits that a table of lengths gives counts. -/
def codeCost (counts lens : List Nat) : Nat := (List.zipWith (· * ·) counts lens).sum

/-- A package of the package-merge method (R122): its weight and the symbols in it. -/
abbrev Package := Nat × List Nat

/-- Packages in pairs; an odd one out is dropped. -/
def pairUp : List Package → List Package
  | a :: b :: ps => (a.1 + b.1, a.2 ++ b.2) :: pairUp ps
  | _ => []

/-- Two lists of packages merged by weight. -/
def mergePackages (as bs : List Package) : List Package := List.merge as bs (fun a b => decide (a.1 ≤ b.1))

/-- Code lengths of least cost with no length above 12, by package-merge. -/
def packageMerge (counts : List Nat) : List Nat :=
  let leaves : List Package :=
    (((List.range counts.length).filter (fun s => counts.getD s 0 != 0)).map (fun s => (counts.getD s 0, [s]))).mergeSort
      (fun a b => decide (a.1 ≤ b.1))
  let top := (List.range 11).foldl (fun ps _ => mergePackages leaves (pairUp ps)) leaves
  let chosen := ((top.take (2 * leaves.length - 2)).map Prod.snd).flatten
  (List.range counts.length).map (fun s => chosen.count s)

/-- A table of lengths is one that R122 allows for these counts: complete, no length above 12, of the least cost. -/
def lengthsOk (counts lens : List Nat) : Bool :=
  lens.length == 256 && lens.all (fun l => decide (l ≤ 12)) && kraft lens == 4096 &&
    (List.range 256).all (fun s => counts.getD s 0 == 0 || lens.getD s 0 != 0) &&
    codeCost counts lens == codeCost counts (packageMerge counts)

/-- The lengths an engine gives a block (R122): the choice among those of equal cost is left open, so it is a free function of
the counts (log entry 9). -/
def engineLengths (counts : List Nat) : List Nat :=
  if lengthsOk counts (Config.podLengths counts) then Config.podLengths counts else packageMerge counts

/-- The length table of Table 3 of Pod compression. -/
def lengthTable (lens : List Nat) : Bytes :=
  (List.range 128).map (fun j => BitVec.ofNat 8 (16 * lens.getD (2 * j) 0 + lens.getD (2 * j + 1) 0))

/-- A tag word (Table 2 of Pod compression). -/
def mkTag (mode value units : Nat) : Word := BitVec.ofNat 32 (mode * 2 ^ 30 + value * 2 ^ 8 + units)

/-- A block coded by a compress-on-store engine (R120): the tag and the stored bytes. `table` is the ROM table of a tensor whose
header has FIXED_EN. -/
def podEncode (table : Option Nat) (block : Bytes) : Word × Bytes :=
  let v := block.headD 0
  if block.all (· == v) then (mkTag 3 v.toNat 0, [])
  else
    let lens := match table with
      | some t => romLengths t
      | none => engineLengths (symbolCounts block)
    let words := codePayload (canonical lens) block
    let head := match table with
      | some _ => [1#8, 0#8] ++ beBytes 2 words.length
      | none => [2#8, 0#8] ++ beBytes 2 words.length ++ lengthTable lens
    let stored := head ++ words.flatMap (beBytes 4)
    if head.length + 4 * words.length < 4096 then
      let units := (stored.length + 63) / 64
      (mkTag (if table.isSome then 1 else 2) 0 units, stored ++ List.replicate (64 * units - stored.length) 0#8)
    else (mkTag 0 0 64, block)

end Sys2Proof.Machine
end

