-- ==== Sys2Proof/Machine/Operands.lean ====
section
/-!
DEFINITION. The operands of a tile: the table store (R86), element and scale planes named by descriptors (R33, R40, R67, R85), pods
expanded at the operand port (R126), codebook entries (R43, R70), the exact sum of a k-slice (R42, R47), rows of values.
-/
namespace Sys2Proof

open Sys2Proof.Machine

/-! ## Planes named by descriptors -/

/-- A descriptor read from its 32 bytes, its fields big-endian (Table 7 of The tile); none where a field marked zero is not. -/
def Desc.parse (bs : Bytes) : Option Desc :=
  let f := beAt bs 0 1
  let g := beAt bs 1 1
  let c := beAt bs 2 2
  if bs.length == 32 && f / 32 == 0 && g / 4 == 0 && c / 1024 == 0 && allZero (bs.drop 24) then
    some { fmt := f % 32, pod := g % 2 == 1, krows := g / 2 % 2 == 1, cbSlot := c / 16 % 64, cbSub := c % 16, base := beAt bs 4 4,
           scale := beAt bs 8 4, extent := beAt bs 12 4, k := beAt bs 16 4, stride := beAt bs 20 4 }
  else none

/-- The line of the element plane that holds element (x, k), and the element's index in the line: with KROWS the lines run over x and
K runs along them, without it the lines run over k (R32, R85; log entry 12). -/
def Desc.place (d : Desc) (x k : Nat) : Nat × Nat := if d.krows then (x, k) else (k, x)

/-- Lines of the element plane. -/
def Desc.lines (d : Desc) : Nat := if d.krows then d.extent else d.k

/-- Elements of a line. -/
def Desc.lineLen (d : Desc) : Nat := if d.krows then d.k else d.extent

/-- Bytes of the element plane from its first line to the end of its last (R116). -/
def Desc.planeBytes (d : Desc) : Nat := (d.lines - 1) * d.stride + rowBytes d.fmt d.lineLen

/-- An MX format: its blocks have scales in a plane of their own (R39). -/
def Desc.mx (d : Desc) : Bool := 14 ≤ d.fmt && d.fmt ≤ 17

/-- Pods of a plane held in pods (R116). -/
def Desc.pods (d : Desc) : Nat := (d.planeBytes + 4095) / 4096

/-- The first row of a pod plane's tag plane in the scratchpad (R118). -/
def Desc.tagRow (d : Desc) : Nat := d.base + 8 * d.pods

/-- The first row after the element plane, with its tag rows where it is held in pods (R98, R118). -/
def Desc.endRow (d : Desc) : Nat :=
  if d.pod then d.tagRow + (16 + 4 * d.pods + 511) / 512 else d.base + (d.planeBytes + 511) / 512

/-- Rows of the scale plane: a byte for every block of 32 along K (R40). -/
def Desc.scaleRows (d : Desc) : Nat := ((d.k + 31) / 32 * d.extent + 511) / 512

/-- A descriptor that INSTALL_MODEL lets through: its fields in the ranges of Table 7 of The tile, every row of its planes in the
scratchpad (R66, R85, R98, R116, R118). -/
def Desc.ok (d : Desc) : Bool :=
  decide (1 ≤ d.fmt) && decide (d.fmt ≤ 19) && decide (d.cbSlot < 64) && decide (d.cbSub < 16) &&
    (d.fmt == 18 || d.fmt == 19 || d.cbSlot == 0) && (d.fmt == 18 || d.cbSub == 0) && decide (d.endRow ≤ 2048) &&
    decide (1 ≤ d.extent) && decide (d.extent ≤ 65536) && decide (1 ≤ d.k) && decide (d.k ≤ 1048576) && d.stride % 512 == 0 &&
    (if d.mx then decide (d.scale + d.scaleRows ≤ 2048) else d.scale == 0xFFFFFFFF) && (!d.pod || d.base % 8 == 0)

/-- The byte offsets in the plane that hold element `i` of line `l`: the first byte, and how many follow it. -/
def Desc.elemSpan (d : Desc) (l i : Nat) : Nat × Nat :=
  match d.fmt with
  | 13 => (l * d.stride + i / 5, 1)
  | f =>
    match elemBits f with
    | 32 => (l * d.stride + 4 * i, 4)
    | 16 => (l * d.stride + 2 * i, 2)
    | 6 => (l * d.stride + 3 * (i / 4), 3)
    | 4 => (l * d.stride + i / 2, 1)
    | 2 => (l * d.stride + i / 4, 1)
    | _ => (l * d.stride + i, 1)

/-- The pods that a block's elements touch, in increasing order (R126): lines from `l0`, elements from `i0`. -/
def Desc.podsOf (d : Desc) (l0 ln i0 len : Nat) : List Nat :=
  ((List.range ln).flatMap (fun j =>
    let a := (d.elemSpan (l0 + j) i0).1
    let e := d.elemSpan (l0 + j) (i0 + len - 1)
    (List.range ((e.1 + e.2 - 1) / 4096 + 1 - a / 4096)).map (· + a / 4096))).mergeSort.eraseDups

/-- The rectangle of the plane that a 32-wide block of the operand reads over the whole of K: first line, lines, first element,
elements. -/
def Desc.blockRect (d : Desc) (b : Nat) : Nat × Nat × Nat × Nat :=
  let w := min 32 (d.extent - 32 * b)
  if d.krows then (32 * b, w, 0, d.k) else (0, d.k, 32 * b, w)

/-- The pods that a block of an operand touches. -/
def Desc.blockPods (d : Desc) (b : Nat) : List Nat := let r := d.blockRect b; d.podsOf r.1 r.2.1 r.2.2.1 r.2.2.2

/-- The pods that k-column `k` of a block touches, in increasing order (R127). -/
def Desc.columnPods (d : Desc) (b k : Nat) : List Nat :=
  let w := min 32 (d.extent - 32 * b)
  if d.krows then d.podsOf (32 * b) w k 1 else d.podsOf k 1 (32 * b) w

/-- Element rows of a raw plane that a block reads, as first row and number. -/
def Desc.rawRows (d : Desc) (b : Nat) : List (Nat × Nat) :=
  let r := d.blockRect b
  (List.range r.2.1).map (fun j =>
    let a := (d.elemSpan (r.1 + j) r.2.2.1).1
    let e := d.elemSpan (r.1 + j) (r.2.2.1 + r.2.2.2 - 1)
    (d.base + a / 512, (e.1 + e.2 - 1) / 512 + 1 - a / 512))

/-- The index of the block of 32 elements that holds (x, slice) in the scale plane, in the row-major order of the element plane
(R40; log entry 12). -/
def Desc.scaleIndex (d : Desc) (x sl : Nat) : Nat := if d.krows then x * ((d.k + 31) / 32) + sl else sl * d.extent + x

end Sys2Proof

namespace Sys2Proof.Machine

open Sys2Proof

/-! ## The table store -/

/-- Bytes of one bank of a table store, in the order lane tables, codebooks, mask-tile table (Table 8 of The tile). -/
def tableBank : Nat := 65536

/-- Where a kind begins in its bank, the bytes of a slot, the number of slots: lane table, codebook, mask-tile table. -/
def tableKind (kind : Nat) : Nat × Nat × Nat :=
  match kind with
  | 0 => (0, 2048, 8)
  | 1 => (16384, 512, 64)
  | _ => (49152, 16384, 1)

/-- Where byte `off` of slot `slot` of a kind stands in a bank. -/
def tableKey (bank kind slot off : Nat) : Nat := bank * tableBank + (tableKind kind).1 + slot * (tableKind kind).2.1 + off

/-- `n` bytes of a table. -/
def Tile.tableBytes (v : Tile) (bank kind slot off n : Nat) : Bytes := Mem.readN 0#8 v.tables (tableKey bank kind slot off) n

/-- The active bank number of a kind in a partition (R86). -/
def Part.activeBank (pt : Part) (kind : Nat) : Nat := pt.active.getD kind 0

/-- A codebook entry (R43): CB4 with a sub-index, CB8 without. -/
def Tile.codebook (v : Tile) (bank : Nat) (d : Desc) (i : Nat) : FVal :=
  FFmt.bf16.decode (ofLe (v.tableBytes bank 1 d.cbSlot ((if d.fmt = 18 then 32 * d.cbSub else 0) + 2 * i) 2))

/-- A pod that fails at a reader: its cause and its index. -/
abbrev PodFault := PodCause × Nat

/-- The tag of pod `i` of a plane in tile `t`'s scratchpad (R118). -/
def State.podTag (s : State) (t : Nat) (d : Desc) (i : Nat) : Word :=
  BitVec.ofNat 32 (ofBe (s.scratchBytes t (512 * d.tagRow + 16 + 4 * i) 4))

/-- Pod `i` of a plane as the expander decodes it (R125). -/
def State.podBlock (s : State) (t : Nat) (d : Desc) (i : Nat) : Except PodCause Bytes :=
  podDecode (PodTensor.parse (s.scratchBytes t (512 * d.tagRow) 16)) (s.podTag t d i) (s.scratchBytes t (512 * d.base + 4096 * i) 4096)

/-- The check that pod `i` of a plane fails. -/
def State.podCause (s : State) (t : Nat) (d : Desc) (i : Nat) : Option PodCause :=
  match s.podBlock t d i with
  | .error c => some c
  | .ok _ => none

/-- Rows of the scratchpad that a block of an operand reads, as first row and number: element rows of a raw plane; of a pod plane the tag
rows with the header and the tags it needs, and of each pod the rows that its stored units take, none for CONST (R126); scale rows. -/
def State.rowsRead (s : State) (t : Nat) (d : Desc) (b : Nat) : List (Nat × Nat) :=
  let is := d.blockPods b
  (if d.pod then
    ((d.tagRow :: is.map (fun i => d.tagRow + (16 + 4 * i) / 512)).eraseDups.map (fun r => (r, 1))) ++
      (is.filter (fun i => tagMode (s.podTag t d i) != .const)).map (fun i =>
        (d.base + 8 * i, min 8 ((64 * tagUnits (s.podTag t d i) + 511) / 512)))
   else d.rawRows b) ++ if d.mx then [(d.scale, d.scaleRows)] else []

/-- The first pod that fails at the operand port as the expander serves both operands by demand: for each k-column in turn, A before B
(R127). -/
def State.podTrouble (s : State) (t : Nat) (a b : Desc) (bi bj : Nat) : Option PodFault :=
  (List.range a.k).findSome? (fun k =>
    ((if a.pod then (a.columnPods bi k).map (fun i => (a, i)) else []) ++
      (if b.pod then (b.columnPods bj k).map (fun i => (b, i)) else [])).findSome? (fun e =>
        (s.podCause t e.1 e.2).map (fun c => (c, e.2))))

/-- The bytes of an element plane in tile `t`'s scratchpad, by offset in the plane: pods are expanded (R67, R117). -/
def State.planeOf (s : State) (t : Nat) (d : Desc) (b : Nat) : Nat → Byte :=
  if d.pod then
    let m : NMap Bytes := (d.blockPods b).map (fun i =>
      (i, match s.podBlock t d i with | .ok bs => bs | .error _ => []))
    fun off => ((NMap.find m (off / 4096)).getD []).getD (off % 4096) 0
  else fun off => Mem.read 0#8 s.mem.scratch (scratchKey t (512 * d.base + off))

/-- The exponent of an MX block; none for 0xFF; 0 for formats without a scale plane (R39, R42). -/
def State.scaleOf (s : State) (t : Nat) (d : Desc) (x sl : Nat) : Option Int :=
  if d.mx then
    mxExponent (Mem.read 0#8 s.mem.scratch (scratchKey t (512 * d.scale + d.scaleIndex x sl)))
  else some 0

/-- Element (x, k) of an operand, without its block's scale (R33: zero past the extent or past K; R43: a codebook's entry). -/
def Tile.element (v : Tile) (bank : Nat) (d : Desc) (plane : Nat → Byte) (x k : Nat) : FVal :=
  if d.extent ≤ x || d.k ≤ k then .fin false 0 0
  else
    let pl := d.place x k
    let e := elemValue d.fmt (fun off => plane (pl.1 * d.stride + off)) pl.2
    if d.fmt = 18 || d.fmt = 19 then
      match e with
      | .fin _ m _ => v.codebook bank d m
      | _ => .nan
    else e

/-- The exact sum of the 32 products of k-slice `sl` at cell (x, y), with the blocks' scales (R42, R47). -/
def State.sliceSum (s : State) (t bank : Nat) (a b : Desc) (pa pb : Nat → Byte) (x y sl : Nat) : FVal :=
  let v := s.tile t
  let sum := (List.range 32).foldl (fun acc j =>
    let k := 32 * sl + j
    if a.k ≤ k then acc else FVal.add acc (FVal.mul (v.element bank a pa x k) (v.element bank b pb y k))) (.fin true 0 0)
  match s.scaleOf t a x sl, s.scaleOf t b y sl with
  | some xa, some xb => FVal.scale (xa + xb) sum
  | _, _ => .nan

/-- A finite value as an integer: what an exact sum of products of integers is. -/
def FVal.toInt : FVal → Int
  | .fin neg m e => let q : Int := m * 2 ^ e.toNat; if neg then -q else q
  | _ => 0

/-- An operation accumulates in INT32 (R46). -/
def intPair (a b : Desc) : Bool :=
  decide (9 ≤ a.fmt) && decide (a.fmt ≤ 13) && decide (9 ≤ b.fmt) && decide (b.fmt ≤ 13)

/-- One accumulator entry after all slices of an operation, in increasing order of k, and whether an addition saturated (R47,
R48). -/
def State.accumulate (s : State) (t bank : Nat) (a b : Desc) (pa pb : Nat → Byte) (x y : Nat) (acc : Word) : Word × Bool :=
  (List.range ((a.k + 31) / 32)).foldl (fun r sl =>
    let v := s.sliceSum t bank a b pa pb x y sl
    if intPair a b then let q := satAdd32 r.1 v.toInt; (q.1, r.2 || q.2)
    else (toF32 (FVal.add (f32 r.1) v), r.2)) (acc, false)

/-! ## Rows of values -/

/-- The 32-bit words of a run of bytes, least significant byte first (R32). -/
def wordsOfBytes : Nat → Bytes → List Word
  | 0, _ => []
  | n + 1, bs => BitVec.ofNat 32 (ofLe (bs.take 4)) :: wordsOfBytes n (bs.drop 4)

/-- 32-bit words as bytes (R32). -/
def bytesOfWords (ws : List Word) : Bytes := ws.flatMap (fun w => leBytes 4 w.toNat)

/-- The cells of a bank from words in cell order; zeros are not listed. -/
def cellsOf (ws : List Word) : NMap Word :=
  (List.range ws.length).filterMap (fun i => let w := ws.getD i 0; if w = 0#32 then none else some (i, w))

/-- Cell `i` of a bank. -/
def Bank.cell (b : Bank) (i : Nat) : Word := NMap.get 0#32 b.cells i

end Sys2Proof.Machine
end

