-- ==== Sys2Proof/Machine/Checks.lean ====
section
/-!
DEFINITION. The checks of an installation (R301 to R305, and the install-time rules of the earlier chapters): the cartouche, the atlas,
the shard's header and directory.
-/
namespace Sys2Proof.Machine

open Sys2Proof

/-- A value lies in a range. -/
def within (lo hi v : Nat) : Bool := decide (lo ≤ v) && decide (v ≤ hi)

/-! ## Cartouche (R301, R302) -/

/-- The ranges of the header (Table 1 of Model images). -/
def Image.headerOk (im : Image) : Bool :=
  let h := im.header
  let sealed_ := im.hasKeyBlock
  decide (224 ≤ im.cart.length) && h 0 4 == 0x43415254 && h 4 1 == 1 && within 0 1 (h 5 1) && within 2 5 (h 6 1) && within 0 3 (h 7 1) &&
    within 1 16 (h 8 2) && within 1 256 (h 10 2) && within 0 15 (h 12 1) && within 1 64 (h 13 1) && within 1 (2 ^ 32) (h 20 4) &&
    h 24 4 == im.cart.length && within 1 16777216 (h 28 4) && within 1 65536 (h 32 4) &&
    (within 0 0x7F800000 (h 36 4) || h 36 4 == 0x80000000) && h 40 2 % 2 == 0 && decide (h 40 2 ≤ h 10 2) && within 1 4096 (h 42 2) &&
    within 1 4096 (h 44 2) && h 46 2 == 0 && within (h 42 2) 65536 (h 48 4) &&
    (if im.hasStreams then within 16 1024 (h 52 2) else h 52 2 == 0) && within 1 8192 (h 54 2) && [1, 2, 3, 9].contains (h 56 1) &&
    h 57 1 == 0 && within 1 16384 (h 58 2) && within 1 16384 (h 60 4) && (sealed_ || allZero (slice im.cart 64 32)) &&
    allZero (slice im.cart 96 32)

/-- The ranges of a stage entry (Table 2 of Model images). -/
def Image.stageOk (im : Image) (st : Nat) : Bool :=
  let e := im.stageField st
  let mode := e 4 1
  within 1 255 (e 2 1) && within 0 64 (e 3 1) && within 0 2 mode && (decide (st + 1 < im.stages) || mode == 0) &&
    (mode != 1 || within 14 17 (e 5 1)) && (mode != 2 || within 4 5 (e 5 1)) && (e 6 1 == 0 || within 4 16 (e 6 1)) && e 7 1 == 0 &&
    within 0 1 (e 96 1) && (e 96 1 == 0 || im.hasKeyBlock) && allZero (slice im.cart (128 + 128 * st + 97) 31)

/-- The records: types, lengths, padding; a SLOT_MAP exactly when STREAMS is set, no second record of a type. -/
def Image.recordsOk (im : Image) : Bool :=
  match cartRecords im.cart (im.header 14 2) im.recordsOff with
  | none => false
  | some (rs, e) =>
    rs.all (fun r => (r.1 == 1 && r.2.length == 2 * im.rotWidth) ||
      (r.1 == 2 && r.2.length % 8 == 0 && (List.range (r.2.length / 8)).all (fun i => beAt r.2 (8 * i + 3) 1 == 0))) &&
      (rs.filter (fun r => r.1 == 2)).length == (if im.hasStreams then 1 else 0) && decide ((rs.filter (fun r => r.1 == 1)).length ≤ 1) &&
      e + (if im.hasKeyBlock then 128 else 0) + 96 == im.cart.length && padded im.cart (im.header 14 2) im.recordsOff &&
      (!im.hasKeyBlock || allZero (slice im.cart (e + 113) 15))
where
  /-- The padding of every record is zero. -/
  padded (cart : Bytes) : Nat → Nat → Bool
    | 0, _ => true
    | n + 1, off =>
      let len := beAt cart (off + 2) 2
      allZero (slice cart (off + 4 + len) ((len + 3) / 4 * 4 - len)) && padded cart n (off + 4 + (len + 3) / 4 * 4)

/-- The key-value geometry (R156): D × b a multiple of 64, at most 512, and a page that holds its keys and values. -/
def Image.kvOk (im : Image) : Bool :=
  let d := im.headDim * (if im.kvFormat < 4 then 2 else 1)
  d % 64 == 0 && decide (d ≤ 512) && decide (2 * (im.hkv * d * 128) ≤ im.pageBytes)

/-- The slots of this stage's stream operators (R193): below T_s, within the pairs of a slot, disjoint within one. -/
def Image.slotsOk (im : Image) : Bool :=
  let es := im.slotMap.filter (fun e => within im.firstLayer (im.firstLayer + im.layers - 1) e.1)
  es.all (fun e => decide (e.2.1 < im.slots) && within 1 1024 e.2.2.2 && decide (e.2.2.1 + e.2.2.2 ≤ 1024)) &&
    (List.range es.length).all (fun i => (List.range i).all (fun j =>
      let a := es.getD i default
      let b := es.getD j default
      a.2.1 != b.2.1 || decide (a.2.2.1 + a.2.2.2 ≤ b.2.2.1) || decide (b.2.2.1 + b.2.2.2 ≤ a.2.2.1)))

/-- A cartouche is laid out as Tables 1 and 2 say (R301). -/
def Image.cartOk (im : Image) : Bool := im.headerOk && (List.range im.stages).all im.stageOk && im.recordsOk

/-- Where the signature block begins. -/
def Image.sigOff (im : Image) : Nat := im.cart.length - 96

/-- The key block. -/
def Image.keyBlock (im : Image) : Bytes := slice im.cart (im.sigOff - 128) 113

/-- SET_ID. -/
def Image.setId (im : Image) : Bytes := slice im.cart 64 32

/-! ## Atlas (R301, R304) -/

/-- An atlas is laid out as its section says, agrees with its cartouche, and its rings have 2 to 64 members. -/
def Image.atlasOk (im : Image) : Bool :=
  let a := im.atlas
  let n := beAt a 8 4
  let es := atlasEntries a
  within 1 4096 n && a.length == 16 + 4 * n && allZero (slice a 12 4) && slice a 0 8 == slice im.cart 16 8 &&
    (List.range n).all (fun i => beAt a (16 + 4 * i) 4 % 64 == 0) &&
    es.all (fun e => e.2.1 == e.1 % 64 && decide (e.2.1 < im.stages) &&
      (e.2.2 == 0 || within 2 64 (es.filter (fun f => f.2.1 == e.2.1 && f.2.2 == e.2.2)).length)) &&
    decide ((es.map Prod.fst).eraseDups.length = n)

/-- The stage that an atlas gives a device (R304). -/
def atlasStage (a : Bytes) (dev : Nat) : Option Nat := ((atlasEntries a).find? (fun e => e.1 == dev)).map (fun e => e.2.1)

/-! ## Shard (R301, R305) -/

/-- Two byte ranges that share no byte. -/
def apart (a b : Nat × Nat) : Bool := decide (a.1 + a.2 ≤ b.1) || decide (b.1 + b.2 ≤ a.1)

/-- The header and the directory of a plain shard of `len` bytes (Table 3 of Model images; the table section fits one bank, log entry 14). -/
def shardOk (im : Image) (sh : Bytes) : Bool :=
  let n := beAt sh 8 4
  let es := shardDir sh
  decide (64 + 32 * n ≤ sh.length) && beAt sh 0 4 == 0x53485244 && beAt sh 4 1 == 1 && beAt sh 5 1 == im.stage && beAt sh 6 2 == 0 &&
    beAt sh 12 4 == 0 && beAt sh 56 8 == 0 && decide (beAt sh 16 8 + beAt sh 24 8 ≤ sh.length) &&
    decide (beAt sh 32 8 + beAt sh 40 8 ≤ sh.length) && decide (beAt sh 40 8 ≤ 65536) && beAt sh 48 8 % 4096 == 0 &&
    es.all (fun d => within 1 19 d.format && decide (d.flags < 16) && d.slotOff % 4096 == 0 && decide (beAt sh 48 8 ≤ d.slotOff) &&
      decide (d.slotOff + d.slotBytes ≤ sh.length) && (if d.pod then decide (d.tagOff + 16 + 4 * d.slots ≤ sh.length) else d.tagOff == 0) &&
      (!d.inset || (d.format == 2 && d.raw % (2 * im.width) == 0))) &&
    (List.range es.length).all (fun i => (List.range i).all (fun j =>
      let a := es.getD i default
      let b := es.getD j default
      a.tensor != b.tensor && apart (a.slotOff, a.slotBytes) (b.slotOff, b.slotBytes)))

/-- The program section of a plain shard. -/
def shardProgram (sh : Bytes) : Bytes := slice sh (beAt sh 16 8) (beAt sh 24 8)
/-- The table section of a plain shard. -/
def shardTables (sh : Bytes) : Bytes := slice sh (beAt sh 32 8) (beAt sh 40 8)

/-- The most flash-resident tensors of one layer (R263). -/
def flashPerLayer (dir : List DirEntry) : Nat :=
  (dir.map (fun d => (dir.filter (fun e => e.flash && e.layer == d.layer)).length)).foldl max 0

/-- What a program section of a plain shard holds (R82; log entry 13). -/
def Image.program (sh : Bytes) : Program := Config.programOf (shardProgram sh)

/-- Two operands of one matrix operation (R66). -/
def programPairOk (g : Program) (e : Nat × Nat) : Bool :=
  match (g.descs[e.1]?).bind Desc.parse, (g.descs[e.2]?).bind Desc.parse with
  | some a, some b => a.k == b.k
  | _, _ => false

/-- A coefficient that R192 allows: finite, and of magnitude at most 1. -/
def coeffOk (w : Word) : Bool := (f32 w).finite && !FVal.lt (.ofInt 1) (f32 w).abs

/-- A lane kernel within Table 5 of The tile, of instructions that the toolchain emits (R80, R81). -/
def kernelOk (k : LaneKernel) : Bool :=
  within 1 32 k.crews && decide (k.regs ≤ 32) && decide (k.args ≤ 16) && decide (k.depth ≤ 16) && k.emitted

/-- A run of the share that a DMA or TABLE instruction may name: within the share and outside the state area (R204, R249). -/
def Layout.runOk (lay : Layout) (share : Nat) (r : Nat × Nat) : Bool :=
  decide (r.1 + r.2 ≤ share) && (decide (r.1 + r.2 ≤ lay.state) || decide (lay.bitmap ≤ r.1))

/-- The install-time rules over a program section that a BAD_FRAME answers: its descriptors (R66, R67, R68, R85, R98), its rows and the runs
of the share it names (R98, R112, R204, R247, R249), pod tensors as sources (R117), its kernels (R80, R81) and coefficients (R192). -/
def programOk (g : Program) (lay : Layout) (share : Nat) : Bool :=
  g.descs.all (fun b => (Desc.parse b).any Desc.ok) && g.pairs.all (programPairOk g) && !g.farOperand && !g.scalePods && !g.podSource && !g.farWrite &&
    !g.farRows && g.rows.all (fun r => decide (r.1 + r.2 ≤ 2048)) && g.share.all (lay.runOk share) && g.kernels.all (fun k => kernelOk k.2) &&
    g.coeffs.all coeffOk

/-- Instructions of every lane kernel of a program section on one tile of the partition (Table 5 of The tile). -/
def laneInstrs (g : Program) (place : Nat) : Nat := ((g.kernels.filter (fun k => k.1 == place)).map (fun k => k.2.instrs)).sum

/-- Instructions that installed programs hold in the program store of a bay (R84). -/
def State.programUse (s : State) (bay : Nat) : Nat := (s.parts.map (fun e => NMap.get 0 e.2.progs bay)).sum

/-- The instructions of a program section in each bay of a partition. -/
def Part.bayPrograms (pt : Part) (g : Program) : NMap Nat :=
  (List.range pt.bays.length).foldl (fun m i => NMap.insert m (pt.bays.mergeSort.getD i 0) (g.bays.getD i 0)) []

/-- A program section fits the lane instruction stores and, beside what is installed, the program stores of the partition's bays (R81,
R84). -/
def State.programFits (s : State) (pt : Part) (g : Program) : Bool :=
  (List.range pt.tiles.length).all (fun i => decide (laneInstrs g i ≤ 4096)) &&
    (pt.bayPrograms g).all (fun e => decide (s.programUse e.1 + e.2 ≤ 65536))

/-- The lane kernels of a program section written into the lane instruction stores of a partition's tiles, and its instructions into the
program stores of its bays (R17, R81, R84). -/
def State.storePrograms (s : State) (p : Nat) (g : Program) : State :=
  match s.part p with
  | none => s
  | some pt =>
    ((List.range pt.tiles.length).foldl (fun s i => s.modTile (pt.tiles.getD i 0) (fun v =>
      { v with store := (g.kernels.filter (fun k => k.1 == i)).map Prod.snd })) s).modPart p (fun v => { v with progs := pt.bayPrograms g })

/-- Step 2 of R310: the install-time rules over the cartouche and the sections of a plain shard for a partition; none where they hold. -/
def State.installCheck (s : State) (pt : Part) (im : Image) (sh : Bytes) : Option Status :=
  if !im.kvOk || !im.slotsOk || !shardOk im sh || !programOk (Image.program sh) (layoutOf im (shardDir sh) pt.swapEn) pt.shareBytes then some .badFrame
  else if im.xcacheSlots < 2 * flashPerLayer (shardDir sh) || !s.programFits pt (Image.program sh) then some .noResource
  else none

end Sys2Proof.Machine
end

