-- ==== Sys2Proof/Machine/Kv.lean ====
section
/-!
DEFINITION. Sheets and page lists (R155 to R169): the free list, references, new sheets and copies on writing, the sheet records in
the pool; and the gazetteer's tree: hashes, insertion, eviction, editions (R181 to R188).
-/
namespace Sys2Proof.Machine

open Sys2Proof

/-- MER_COUNT of a partition. -/
def State.merCount (s : State) (p : Nat) : Nat := (s.reg .mer p 0).toNat

/-- Sheets in the pool, S. -/
def State.sheetTotal (s : State) (p : Nat) : Nat := (s.reg .kv p 0x04).toNat

/-- Sheets that segments of other modules' sequences hold (R177). -/
def Part.segSheets (pt : Part) : Nat := (pt.segments.map (fun g => g.sheets.length)).sum

/-- KV_RING_CTL.RESERVE. -/
def State.ringReserve (s : State) (p : Nat) : Nat := (s.reg .kv p 0x10).field 31 16

/-- Sheets on the free list: neither held nor kept back for segments (R177, log entry 15). -/
def State.freeSheets (s : State) (p : Nat) (pt : Part) : Nat :=
  s.sheetTotal p - pt.sheets.length - (s.ringReserve p - pt.segSheets)

/-- The lowest sheet number that no sheet record holds (log entry 15). -/
def lowestFree {α : Type} (m : NMap α) : Nat := m.foldl (fun k e => if e.1 = k then k + 1 else k) 0

/-- A sheet as it is taken from the free list: one reference, nothing in it. -/
def Sheet.fresh (start : Nat) : Sheet :=
  { refs := 1, start := start, fill := 0, closed := false, node := false, inset := false, parent := none, hash := 0, stamp := 0,
    tokens := [] }

/-- A sheet put under its number. -/
def Part.putSheet (pt : Part) (n : Nat) (h : Sheet) : Part := { pt with sheets := NMap.insert pt.sheets n h }

/-- The record of a copy of a sheet's first `fill` positions (R167). -/
def Sheet.copyOf (h : Sheet) (fill : Nat) : Sheet :=
  { h with refs := 1, fill := fill, tokens := h.tokens.take fill, closed := false, node := false }

/-- A node of the tree has a child. -/
def Part.hasChild (pt : Part) (n : Nat) : Bool := pt.sheets.any (fun e => e.2.node && e.2.parent == some n)

/-- Node sheets with REFS = 0 that may be taken: in READY those with no child (R185), outside READY all (R187). -/
def Part.evictable (pt : Part) : List (Nat × Sheet) :=
  pt.sheets.filter (fun e => e.2.node && e.2.refs == 0 && (pt.gzState != 2 || !pt.hasChild e.1))

/-- The oldest of some nodes: the greatest age, ties to the lower sheet number (R185). -/
def oldestNode (mer : Nat) (es : List (Nat × Sheet)) : Option Nat :=
  (es.foldl (fun (best : Option (Nat × Nat)) e =>
    let age := (mer + 2 ^ 32 - e.2.stamp) % 2 ^ 32
    match best with
    | some (_, a) => if a < age then some (e.1, age) else best
    | none => some (e.1, age)) none).map Prod.fst

/-- One node evicted, if one may be (R185, R187). -/
def State.evictNode (s : State) (p : Nat) : Option State :=
  match s.part p with
  | none => none
  | some pt =>
    (oldestNode (s.merCount p) pt.evictable).map (fun n =>
      let s1 := s.putPart p { pt with sheets := NMap.erase pt.sheets n }
      if pt.gzState = 2 then s1.bump .gz p 0x14 1 else s1)

/-- The number of the sheet taken next, after an eviction if the free list is empty (R165, R185). -/
def State.takeSheet (s : State) (p start : Nat) : Option (State × Nat) :=
  let put := fun (s : State) =>
    (s.part p).map (fun pt =>
      let n := lowestFree pt.sheets
      (s.putPart p { pt with sheets := NMap.insert pt.sheets n (Sheet.fresh start) }, n))
  match s.part p with
  | none => none
  | some pt => if 0 < s.freeSheets p pt then put s else (s.evictNode p).bind put

/-- The nodes that may be evicted one after the other (R185, R187): those with REFS = 0, in READY each after its children. `n` bounds the
depth of the tree. -/
def Part.evictChain (pt : Part) : Nat → List Nat → List Nat
  | 0, gone => gone
  | n + 1, gone =>
    let more := pt.sheets.filter (fun e => e.2.node && e.2.refs == 0 && !gone.contains e.1 &&
      (pt.gzState != 2 || pt.sheets.all (fun c => !c.2.node || c.2.parent != some e.1 || gone.contains c.1)))
    if more.isEmpty then gone else Part.evictChain pt n (gone ++ more.map Prod.fst)

/-- Sheets that a partition can take at a meridian: free ones and the nodes that can be evicted. -/
def State.sheetsToTake (s : State) (p : Nat) (pt : Part) : Nat :=
  s.freeSheets p pt + (pt.evictChain pt.sheets.length []).length

/-- A sheet given one more reference (R166). -/
def Part.ref (pt : Part) (n : Nat) : Part := { pt with sheets := NMap.modify pt.sheets n (fun h => { h with refs := h.refs + 1 }) }

/-- A sheet's reference released: at 0 it is freed unless it is a node (R166). -/
def Part.unref (pt : Part) (n : Nat) : Part :=
  match NMap.find pt.sheets n with
  | none => pt
  | some h =>
    if h.refs ≤ 1 && !h.node then { pt with sheets := NMap.erase pt.sheets n }
    else { pt with sheets := NMap.insert pt.sheets n { h with refs := h.refs - 1 } }

/-- Every sheet of a page list given a reference. -/
def Part.refList (pt : Part) (l : List PageEntry) : Part := l.foldl (fun pt e => pt.ref e.sheet) pt

/-- Every reference of a page list released. -/
def Part.unrefList (pt : Part) (l : List PageEntry) : Part := l.foldl (fun pt e => pt.unref e.sheet) pt

/-! ## Sheets that a step needs (R163, R165, R167) -/

/-- The last entry of a list that is the sequence's own. -/
def lastOwn (l : List PageEntry) : Option PageEntry :=
  match l.getLast? with
  | some e => if e.inset then none else some e
  | none => none

/-- New sheets that `n` more positions need (R165). -/
def newSheets (l : List PageEntry) (n : Nat) : Nat :=
  let room := match lastOwn l with
    | some e => 128 - e.fill
    | none => 0
  (n - room + 127) / 128

/-- The sheet that a sequence's next write goes into while it is still open. -/
def openSheet (l : List PageEntry) : Option Nat :=
  match lastOwn l with
  | some e => if e.fill < 128 then some e.sheet else none
  | none => none

/-- A list stays within the limits of R163 with `n` more positions, `own` of them in sheets of this module. -/
def listFits (l : List PageEntry) (own pos n : Nat) : Bool := decide (l.length + newSheets l own ≤ 16384) && decide (pos + n ≤ 2 ^ 24)

/-- Sequence `q`, one of the writers `go`, receives a copy of its open sheet (R167). -/
def Part.copies (pt : Part) (go : List Seq) (q : Seq) : Bool :=
  match openSheet q.list with
  | none => false
  | some n =>
    let r := (NMap.get (Sheet.fresh 0) pt.sheets n).refs
    let ws := go.filter (fun v => openSheet v.list == some n)
    decide (r > ws.length) || ws.any (fun v => decide (v.index > q.index))

/-- Sheets that a writer needs: new ones and its copy (R165). -/
def Part.sheetCost (pt : Part) (go : List Seq) (q : Seq) (n : Nat) : Nat := newSheets q.list n + (if pt.copies go q then 1 else 0)

/-! ## Sheets in the LPDDR5X share (R155, R158, R160, R161) -/

/-- Bytes of a sheet record (Table 1). -/
def Sheet.bytes (h : Sheet) : Bytes :=
  beBytes 4 h.refs ++ beBytes 4 h.start ++ beBytes 1 h.fill ++
    beBytes 1 ((if h.closed then 1 else 0) + (if h.node then 2 else 0) + (if h.inset then 4 else 0)) ++ beBytes 2 0 ++
    beBytes 4 (h.parent.getD 0xFFFFFFFF) ++ beBytes 8 h.hash.toNat ++ beBytes 4 h.stamp ++ beBytes 36 0 ++
    (List.range 128).flatMap (fun i => beBytes 4 (h.tokens.getD i 0))

/-- Offset of a page of a sheet. -/
def pageOff (im : Image) (lay : Layout) (n l : Nat) : Nat := lay.pool + (n * im.layers + l) * im.pageBytes
/-- Offset of a page's tag row. -/
def tagRowOff (im : Image) (lay : Layout) (total n l : Nat) : Nat :=
  lay.pool + total * im.layers * im.pageBytes + (n * im.layers + l) * 512
/-- Offset of a sheet's record. -/
def recordOff (im : Image) (lay : Layout) (total n : Nat) : Nat := lay.pool + total * im.layers * (im.pageBytes + 512) + n * 576

/-- The runs of the share that a sheet takes: its pages, their tag rows and its record (R158). -/
def sheetRuns (im : Image) (lay : Layout) (total n : Nat) : List (Nat × Nat) :=
  (List.range im.layers).flatMap (fun l => [(pageOff im lay n l, im.pageBytes), (tagRowOff im lay total n l, 512)]) ++ [(recordOff im lay total n, 576)]

/-- Bytes at an offset of the share, where they fit. -/
def State.shareStore (s : State) (pt : Part) (off : Nat) (bs : Bytes) : State := (s.shareWrite pt off bs).getD s

/-- The tag of pod `i` of a tensor of a plain shard. -/
def shardTag (sh : Bytes) (d : DirEntry) (i : Nat) : Word := BitVec.ofNat 32 (beAt sh (d.tagOff + 16 + 4 * i) 4)

/-- The stored units of pod `i` of a tensor of a plain shard. -/
def shardPod (sh : Bytes) (d : DirEntry) (i : Nat) : Bytes := slice sh (d.slotOff + 4096 * i) (64 * min 64 (tagUnits (shardTag sh d i)))

/-- The first pod of a tensor of a plain shard that a move of it finds at fault: TENSOR, TAG, HEADER (R130). -/
def shardFault (sh : Bytes) (d : DirEntry) : Option (PodCause × Nat) :=
  if d.pod then
    (List.range d.slots).findSome? (fun i =>
      (podMoveCheck (PodTensor.parse (slice sh d.tagOff 16)) (shardTag sh d i) (shardPod sh d i)).map (fun c => (c, i)))
  else none

/-- A tensor of a plain shard written at an offset of the share: of a pod tensor the stored units of each pod, and its tag plane after its
last slot (R116, R118, R130). -/
def State.storeTensor (s : State) (pt : Part) (sh : Bytes) (d : DirEntry) (off : Nat) : State :=
  if d.pod then
    ((List.range d.slots).foldl (fun s i => s.shareStore pt (off + 4096 * i) (shardPod sh d i)) s).shareStore pt (off + d.slotBytes)
      (slice sh d.tagOff (16 + 4 * d.slots))
  else s.shareStore pt off (slice sh d.slotOff d.slotBytes)

/-- A page-list entry as it stands in the page-list area (Table 2). -/
def PageEntry.bytes (e : PageEntry) : Bytes := beBytes 8 (e.start * 2 ^ 40 + e.fill * 2 ^ 32 + e.inset.toNat * 2 ^ 31 + e.sheet)

/-- The records of a partition's sheets and the page lists of its sequences as they stand, written to the pool and the page-list area (R161, R162):
a meridian leaves them so. A list stands at the place of its request-table index, 16,384 entries to a list (log entry 49). -/
def State.keepRecords (s : State) (p : Nat) : State :=
  match s.part p with
  | none => s
  | some pt =>
    match pt.image with
    | none => s
    | some im =>
      let lay := pt.layout
      let s1 := pt.sheets.foldl (fun s e => s.shareStore pt (recordOff im lay (s.sheetTotal p) e.1) e.2.bytes) s
      pt.seqs.foldl (fun s q => s.shareStore pt (lay.lists + 2 ^ 17 * q.index) (q.list.flatMap PageEntry.bytes)) s1

/-- K_BYTES of R155. -/
def Image.keyBytes (im : Image) : Nat := 128 * im.hkv * im.headDim * ((elemBits im.kvFormat) / 8)

/-- The tag row of an open page: every pod RAW (R160). -/
def openTagRow (im : Image) : Bytes :=
  let pods := (2 * im.keyBytes + 4095) / 4096
  ([1#8, 0#8, 0#8, 0#8] ++ beBytes 4 pods ++ beBytes 4 (2 * im.keyBytes) ++ beBytes 4 0 ++
    (List.range pods).flatMap (fun _ => beBytes 4 (mkTag 0 0 64).toNat) ++ List.replicate 512 0#8).take 512

/-- Bytes of the share cleared. -/
def State.shareClear (s : State) (pt : Part) (off n : Nat) : State := if n = 0 then s else s.shareStore pt off (List.replicate n 0#8)

/-- The tag rows of a new sheet written (R160), and the bytes of its pages past the raw page length zero (R156). -/
def State.openPages (s : State) (p : Nat) (pt : Part) (n : Nat) : State :=
  match pt.image with
  | none => s
  | some im =>
    (List.range im.layers).foldl (fun s l =>
      (s.shareStore pt (tagRowOff im pt.layout (s.sheetTotal p) n l) (openTagRow im)).shareClear pt (pageOff im pt.layout n l + 2 * im.keyBytes)
        (im.pageBytes - 2 * im.keyBytes)) s

/-- The first `fill` positions of every page of a sheet copied to another (R167). -/
def State.copyPages (s : State) (pt : Part) (src dst fill : Nat) : State :=
  match pt.image with
  | none => s
  | some im =>
    let row := im.headDim * (elemBits im.kvFormat / 8)
    (List.range im.layers).foldl (fun s l =>
      (List.range (2 * im.hkv)).foldl (fun s h =>
        let off := h * 128 * row
        match s.shareRead pt (pageOff im pt.layout src l + off) (fill * row) with
        | some bs => s.shareStore pt (pageOff im pt.layout dst l + off) bs
        | none => s) s) s

/-- A run of tokens put into a list's last own sheet, as far as it has room: the list, the sheet and the tokens left. -/
def fillSheet (pt : Part) (l : List PageEntry) (toks : List Nat) : Part × List PageEntry × List Nat :=
  match lastOwn l with
  | none => (pt, l, toks)
  | some e =>
    let k := min (128 - e.fill) toks.length
    ({ pt with sheets := NMap.modify pt.sheets e.sheet (fun h =>
        { h with fill := h.fill + k, tokens := h.tokens ++ toks.take k }) },
     l.dropLast ++ [{ e with fill := e.fill + k }], toks.drop k)

/-- New sheets for the tokens left, from position `pos`; `fuel` bounds their number. -/
def State.growList (s : State) (p : Nat) : Nat → List PageEntry → Nat → List Nat → State × List PageEntry
  | 0, l, _, _ => (s, l)
  | fuel + 1, l, pos, toks =>
    if toks.isEmpty then (s, l)
    else
      match s.takeSheet p pos with
      | none => (s, l)
      | some (s1, n) =>
        match s1.part p with
        | none => (s1, l)
        | some pt =>
          let f := fillSheet pt (l ++ [{ start := pos, fill := 0, inset := false, sheet := n }]) toks
          State.growList ((s1.putPart p f.1).openPages p pt n) p fuel f.2.1 (pos + toks.length - f.2.2.length) f.2.2

/-- A sequence's list grown by the tokens it writes from position `pos` in the step that opens (R162, R165, R167): `copy` says that it
receives a copy of its open sheet. -/
def State.growSeq (s : State) (p : Nat) (copy : Bool) (l : List PageEntry) (pos : Nat) (toks : List Nat) :
    State × List PageEntry :=
  let r : State × List PageEntry :=
    match copy, lastOwn l with
    | true, some e =>
      match s.takeSheet p e.start with
      | none => (s, l)
      | some (s1, n) =>
        match s1.part p with
        | none => (s1, l)
        | some pt =>
          let old := NMap.get (Sheet.fresh e.start) pt.sheets e.sheet
          let pt1 := (pt.putSheet n (old.copyOf e.fill)).unref e.sheet
          ((((s1.putPart p pt1).openPages p pt n).copyPages pt e.sheet n e.fill).bump .kv p 0x20 1,
            l.dropLast ++ [{ e with sheet := n }])
    | _, _ => (s, l)
  match r.1.part p with
  | none => r
  | some pt =>
    let f := fillSheet pt r.2 toks
    State.growList (r.1.putPart p f.1) p 600 f.2.1 (pos + toks.length - f.2.2.length) f.2.2

/-! ## The gazetteer (R182 to R188) -/

/-- One chaining of a hash over tokens (R182). -/
def chainHash (h : Dword) (toks : List Nat) : Dword :=
  toks.foldl (fun h t =>
    let g := (h ^^^ BitVec.ofNat 64 t) * 0x9E3779B97F4A7C15#64
    g ^^^ (g >>> 29)) h

/-- h[−1] of a partition and an inset handle (R182). -/
def State.hashSeed (s : State) (p inset : Nat) : Dword :=
  BitVec.ofNat 64 ((s.reg .gz p 0x1C).toNat * 2 ^ 32) ^^^ BitVec.ofNat 64 inset

/-- The node that the index gives for a hash: the lowest-numbered (log entry 16). -/
def Part.index (pt : Part) (h : Dword) : Option (Nat × Sheet) := pt.sheets.find? (fun e => e.2.node && e.2.hash == h)

/-- How a walk ended: at its limit, by a miss, by a collision. -/
inductive WalkEnd where
  | limit | miss | collide
  deriving DecidableEq, Repr, Inhabited

/-- The walk of R183 over `n` blocks: the sheets hit and how it ended. -/
def Part.walk (pt : Part) : Nat → Dword → Option Nat → List Nat → List Nat × WalkEnd
  | 0, _, _, _ => ([], .limit)
  | n + 1, h, node, toks =>
    let h1 := chainHash h (toks.take 128)
    match pt.index h1 with
    | none => ([], .miss)
    | some (c, sh) =>
      if sh.parent != node || sh.tokens != toks.take 128 then ([], .collide)
      else let r := Part.walk pt n h1 (some c) (toks.drop 128); (c :: r.1, r.2)

/-- Blocks that a walk of a prompt may hit (R183). -/
def walkLimit (len : Nat) : Nat := if len = 128 * (len / 128) then len / 128 - 1 else len / 128

/-- The longest prefix of `hits` that the tree still confirms for a prompt at admission (log entry 16). -/
def State.confirmHits (s : State) (p : Nat) (pt : Part) (inset : Nat) (toks hits : List Nat) : List Nat :=
  if pt.gzState = 2 then
    let now := (pt.walk (walkLimit toks.length) (s.hashSeed p inset) none toks).1
    (List.zip now hits).takeWhile (fun e => e.1 == e.2) |>.map Prod.fst
  else []

/-- Every node loses NODE and the unreferenced ones are freed (R186). -/
def Part.dropNodes (pt : Part) : Part :=
  { pt with sheets := (pt.sheets.filter (fun e => !(e.2.node && e.2.refs == 0))).map (fun e =>
      (e.1, { e.2 with node := false, parent := none })) }

/-- GZ_EDITION raised (R186). -/
def State.raiseEdition (s : State) (p : Nat) : State :=
  (s.putReg .gz p 0x1C (s.reg .gz p 0x1C + 1)).modPart p Part.dropNodes

/-- GZ_CTL.QUOTA. -/
def State.gzQuota (s : State) (p : Nat) : Nat := (s.reg .gz p 0).field 20 0

/-- Nodes that a partition holds. -/
def Part.nodes (pt : Part) : Nat := (pt.sheets.filter (fun e => e.2.node)).length

/-- A sheet closed in the step considered for insertion (R184): entry `i` of a list of a request with inset handle `inset`. -/
def State.insertNode (s : State) (p inset : Nat) (l : List PageEntry) (i : Nat) : State :=
  match s.part p with
  | none => s
  | some pt =>
    match l[i]? with
    | none => s
    | some e =>
      let sh := NMap.get (Sheet.fresh 0) pt.sheets e.sheet
      let prev : Option (Option (Nat × Sheet)) :=
        if i = 0 then some none
        else
          match l[i - 1]? with
          | none => none
          | some d =>
            if d.inset then some none
            else
              let ds := NMap.get (Sheet.fresh 0) pt.sheets d.sheet
              if ds.node then some (some (d.sheet, ds)) else none
      match prev with
      | none => s
      | some pr =>
        let h := chainHash (match pr with
          | some d => d.2.hash
          | none => s.hashSeed p inset) sh.tokens
        let twin := pt.sheets.any (fun d => d.2.node && d.2.hash == h && d.2.tokens == sh.tokens)
        if pt.gzState != 2 || sh.refs != 1 || e.inset || sh.node || sh.fill != 128 || twin then s
        else
          let room : Option State := if pt.nodes < s.gzQuota p then some s else s.evictNode p
          match room with
          | none => s.bump .gz p 0x18 1
          | some s1 => s1.modPart p (fun pt =>
              { pt with sheets := NMap.modify pt.sheets e.sheet (fun v =>
                  { v with node := true, hash := h, parent := pr.map Prod.fst, stamp := s.merCount p }) })

end Sys2Proof.Machine
end

