-- ==== Sys2Proof/Machine/Serve.lean ====
section
/-!
DEFINITION. The frames and the ends of requests and streams (R228 to R235, R244): TOKENS records, STREAM_OUTPUT frames, tombstones,
the release of what a request or stream holds, and the ends outside a meridian (R457).
-/
namespace Sys2Proof.Machine

open Sys2Proof

/-! ## TOKENS (R228, R229) -/

/-- A TOKENS record (Table 5 of Serving requests and streams). -/
structure TokRec where
  handle : Nat
  fin : Bool
  paused : Bool
  status : Status
  pos : Nat
  toks : List Nat
  deriving DecidableEq, Repr, Inhabited

/-- A record as it travels: a record without END carries OK. -/
def TokRec.bytes (r : TokRec) : Bytes :=
  beBytes 4 r.handle ++ beBytes 1 ((if r.fin then 1 else 0) + (if r.paused then 2 else 0)) ++ beBytes 1 r.toks.length ++
    beBytes 2 (if r.fin then Status.code r.status else 0) ++ beBytes 4 (r.pos % 2 ^ 24) ++ r.toks.flatMap (beBytes 4)

/-- Records packed into payloads of at most `limit` bytes; one that would not fit is split into consecutive records (R229). `fuel`
bounds the number of pieces. -/
def packRecs (limit : Nat) : Nat → Bytes → List TokRec → List Bytes
  | 0, cur, _ => if cur.isEmpty then [] else [cur]
  | _, cur, [] => if cur.isEmpty then [] else [cur]
  | fuel + 1, cur, r :: rs =>
    let room := min 255 ((limit - cur.length - 12) / 4)
    if r.toks.length ≤ room && decide (cur.length + 12 ≤ limit) then packRecs limit fuel (cur ++ r.bytes) rs
    else if room = 0 || decide (limit < cur.length + 12) then
      if cur.isEmpty then [] else cur :: packRecs limit fuel [] (r :: rs)
    else
      packRecs limit fuel (cur ++ TokRec.bytes { r with fin := false, paused := false, toks := r.toks.take room })
        ({ r with pos := r.pos + room, toks := r.toks.drop room } :: rs)

/-- A DATA frame of the device's own: TOKENS or STREAM_OUTPUT. -/
def dataFrame (p handle op : Nat) (st : Status) (pl : Bytes) : OutFrame :=
  { gen := 3, kind := 1, flags := 0, sess := 0, part := p, seq := 0, ackNum := 0, handle := handle, opcode := op, status := st,
    payload := pl, via := Via.nowhere, pcp := 0, dscp := 0 }

/-- The records of a step sent to one session (R229). -/
def State.sendTokens (s : State) (p sess : Nat) (rs : List TokRec) : State :=
  match s.session sess with
  | none => s
  | some ss =>
    (packRecs (s.payloadLimit (s.viaOf ss) ss.gen) ((rs.map (fun r => r.toks.length + 4)).sum + 4) [] rs).foldl
      (fun s pl => s.sendSeq sess (dataFrame p 0 0x0110 .ok pl)) s

/-- The records of a step, each with its session, sent: one run of frames per session, in the order of the sessions' first records. -/
def State.emit (s : State) (p : Nat) (out : List (Nat × TokRec)) : State :=
  (out.map Prod.fst).eraseDups.foldl (fun s n => s.sendTokens p n ((out.filter (fun e => e.1 == n)).map Prod.snd)) s

/-- Bytes of a frame (Table 3 of Host ports): its header and its payload. -/
def OutFrame.bytes (f : OutFrame) : Nat := (if f.gen = 2 then 24 else 32) + f.payload.length

/-- Bytes of TOKENS frames of a session that are not acknowledged (R230). -/
def Session.unackedTokens (ss : Session) : Nat :=
  ((ss.unacked.map Prod.fst ++ ss.waiting).map (fun f => if f.opcode = 0x0110 then f.bytes else 0)).sum

/-! ## The end of a request -/

/-- The position of the next token of a request: of its admitted sequence, of its pause, or of its prompt. -/
def Part.nextPos (pt : Part) (h : Nat) : Nat :=
  match pt.seqs.find? (fun q => q.handle == h) with
  | some q => q.pos
  | none => ((NMap.find pt.reqs h).map (·.pos)).getD 0

/-- The pauses staged for a request, and the one that is moving it, answered with a status and taken back. -/
def State.answerPauses (s : State) (p h : Nat) (st : Status) : State :=
  match s.part p with
  | none => s
  | some pt =>
    let hit := pt.staged.pauses.filter (fun e => e.1 == h)
    let s1 := match (NMap.find pt.reqs h).bind (·.pauseBy) with
      | some c => s.reply c 0x0104 st []
      | none => s
    (hit.foldl (fun s e => s.reply e.2.1 0x0104 st []) s1).modPart p (fun pt =>
      { pt with staged := { pt.staged with pauses := pt.staged.pauses.filter (fun e => e.1 != h) } })

/-- The cancels staged for a request answered with a status and taken back. -/
def State.answerCancels (s : State) (p h : Nat) (st : Status) : State :=
  match s.part p with
  | none => s
  | some pt =>
    let hit := pt.staged.cancels.filter (fun e => e.1 == h)
    (hit.foldl (fun s e => match e.2 with | some c => s.reply c 0x0103 st [] | none => s) s).modPart p (fun pt =>
      { pt with staged := { pt.staged with cancels := pt.staged.cancels.filter (fun e => e.1 != h) } })

/-- The first position after segment 0 of a ring-held sequence (R178). -/
def Seq.homeEnd (q : Seq) : Nat := (q.ring.head?.map (fun g => g.2.1 + g.2.2)).getD 0

/-- The members that hold a segment of a sequence told of its end (R180), in the collective class; the home's own segment is freed. -/
def State.releaseRing (s0 : State) (p : Nat) (q : Seq) : State :=
  let members := ((s0.part p).bind (fun pt => pt.image.map (fun im => im.ring s0.veolo.num))).getD []
  let s := s0.modPart p (fun pt => { pt with segments := pt.segments.filter (fun g => !(g.owner == s0.veolo.num && g.handle == q.handle)) })
  q.ring.foldl (fun s g =>
    match members[g.1]? with
    | some dev =>
      if g.2.2 = 0 || dev == s.veolo.num then s
      else s.sendTo dev .collective p (beBytes 1 0x20 ++ beBytes 1 p ++ beBytes 2 s.veolo.num ++ beBytes 4 q.handle)
    | none => s) s

/-- One page of a sheet in its stored form (R130, R236): its tag row, then the stored units of each of its pods. -/
def State.storedPage (s : State) (pt : Part) (im : Image) (total n l : Nat) : Bytes :=
  let p := 2 * im.keyBytes
  let tag := (s.shareRead pt (tagRowOff im pt.layout total n l) 512).getD []
  tag ++ (List.range ((p + 4095) / 4096)).flatMap (fun i =>
    (s.shareRead pt (pageOff im pt.layout n l + 4096 * i)
      (min (64 * tagUnits (BitVec.ofNat 32 (beAt tag (16 + 4 * i) 4))) (p - 4096 * i))).getD [])

/-- A page put back from its stored form, with what is left of the bytes. -/
def State.restorePage (s : State) (pt : Part) (im : Image) (total n l : Nat) (bs : Bytes) : State × Bytes :=
  let p := 2 * im.keyBytes
  let tag := bs.take 512
  (List.range ((p + 4095) / 4096)).foldl (fun (a : State × Bytes) i =>
    let k := min (64 * tagUnits (BitVec.ofNat 32 (beAt tag (16 + 4 * i) 4))) (p - 4096 * i)
    (a.1.shareStore pt (pageOff im pt.layout n l + 4096 * i) (a.2.take k), a.2.drop k))
    (s.shareStore pt (tagRowOff im pt.layout total n l) tag, bs.drop 512)

/-- Every page of some sheets in stored form. -/
def State.storedForm (s : State) (p : Nat) (pt : Part) (sheets : List Nat) : Bytes :=
  match pt.image with
  | none => []
  | some im => sheets.flatMap (fun n => (List.range im.layers).flatMap (fun l => s.storedPage pt im (s.sheetTotal p) n l))

/-- The pages of a sheet put back from their stored form. -/
def State.restoreForm (s : State) (p : Nat) (pt : Part) (n : Nat) (bs : Bytes) : State :=
  match pt.image with
  | none => s
  | some im => ((List.range im.layers).foldl (fun (a : State × Bytes) l => a.1.restorePage pt im (s.sheetTotal p) n l a.2) (s, bs)).1

/-- Bytes that moved sheets take in a slower tier: their stored form and their records (R236). -/
def movedBytes (m : List (PageEntry × Sheet × Bytes)) : Nat := (m.map (fun e => e.2.2.length + 576)).sum

/-- A request leaves the device: its sequences' and its own references are released, its room in the pause area, its walk and its
place in the tables. -/
def State.dropReq (s : State) (p h : Nat) : State :=
  match s.part p with
  | none => s
  | some pt =>
    let mine := pt.seqs.filter (fun q => q.handle == h)
    let own := ((NMap.find pt.reqs h).map (·.list)).getD []
    let s1 := (mine.filter (fun q => q.beam == 0)).foldl (fun s q => s.releaseRing p q) s
    let s2 := match NMap.find pt.reqs h with
      | some r => if r.tier = 1 then s1.setNand { s1.nand with pauseUsed := s1.nand.pauseUsed - movedBytes r.moved } else s1
      | none => s1
    (s2.modPart p (fun pt =>
      { mine.foldl (fun pt q => pt.unrefList q.list) (pt.unrefList own) with
        seqs := pt.seqs.filter (fun q => q.handle != h), reqs := NMap.erase pt.reqs h, gone := .seq h :: pt.gone.erase (.seq h),
        gzWalkOf := pt.gzWalkOf.filter (· != h) })).setWalks (s2.walks.filter (fun w => !(w.1 == p && w.2.1 == h)))

/-- The tokens of the beam ranked highest, ties going to the lower beam index (R232). -/
def bestOf (outs : List (List Nat)) : List Nat :=
  ((List.range outs.length).foldl (fun (best : Option (Nat × List Nat)) i =>
    let k := Config.beamRank outs i
    match best with
    | some (n, _) => if n < k then some (k, outs.getD i []) else best
    | none => some (k, outs.getD i [])) none).elim [] Prod.snd

/-- The tokens that the last record of a request that ends between its steps carries: with beams those of the best one, none where it is
cancelled (R232, R233). -/
def Part.endTokens (pt : Part) (h : Nat) (st : Status) : List Nat :=
  if st = .cancelled then [] else bestOf ((pt.seqs.filter (fun q => q.handle == h)).map (·.out))

/-- A record that ends a request, with its session, if a session holds it. -/
def Part.endRec (pt : Part) (h : Nat) (st : Status) (paused : Bool) : List (Nat × TokRec) :=
  let toks := pt.endTokens h st
  match (NMap.find pt.reqs h).bind (·.sess) with
  | some n => [(n, { handle := h, fin := true, paused := paused, status := st,
                     pos := if toks.isEmpty then pt.nextPos h else pt.nextPos h + 1 - toks.length, toks := toks })]
  | none => []

/-- A request ends with a status: its record, its frames' answers, its release. The record is among those given back. -/
def State.endReq (s : State) (p h : Nat) (st : Status) : State × List (Nat × TokRec) :=
  match s.part p with
  | none => (s, [])
  | some pt =>
    let s1 := ((s.answerPauses p h (if st = .cancelled then .cancelled else .notPermitted)).answerCancels p h
      (if st = .cancelled then .ok else .notPermitted)).dropReq p h
    (if st = .cancelled then s1.bump .req p 0x14 1 else if st = .kvLost then
        s1.bump .kv p 0x2C (max 1 (pt.seqs.filter (fun q => q.handle == h)).length) else s1,
      pt.endRec h st false)

/-- A request ends outside a meridian: its record leaves at once (R457). -/
def State.endReqNow (s : State) (p h : Nat) (st : Status) : State :=
  let r := s.endReq p h st
  r.1.emit p r.2

/-- A tombstone made; the oldest is dropped past 16,384 (R239). -/
def State.addTomb (s : State) (p h : Nat) (st : Status) : State :=
  let t := s.tombs.filter (fun e => !(e.part == p && e.handle == h)) ++ [{ part := p, handle := h, status := st }]
  s.setTombs (if t.length > 16384 then t.drop 1 else t)

/-- The status of a handle's tombstone. -/
def State.tomb (s : State) (p h : Nat) : Option Status :=
  (s.tombs.find? (fun e => e.part == p && e.handle == h)).map (·.status)

/-- A tombstone cleared (R215). -/
def State.clearTomb (s : State) (p h : Nat) : State := s.setTombs (s.tombs.filter (fun e => !(e.part == p && e.handle == h)))

/-- A paused request's cache freed with a tombstone (R238): counted, and told to the partition's owner where it is lost. -/
def State.buryReq (s : State) (p h : Nat) (st : Status) : State :=
  let s1 := (s.endReqNow p h st).addTomb p h st
  if st = .expired then s1.bump .req p 0x1C 1
  else if st = .cacheLost then (s1.bump .req p 0x20 1).partEvent p .cacheLost 0 h 0
  else if st = .tierFailed then s1.bump .req p 0x20 1
  else s1

/-! ## Streams (R203 to R211, R244) -/

/-- Offset of a stream's state page of a slot in the share (R203). -/
def Part.statePage (pt : Part) (im : Image) (v : Strm) (slot : Nat) : Nat := pt.layout.state + (v.page * im.slots + slot) * 8704

/-- What the results of a partition's step depend on beside its work (R53): its image, the scale of narrowing, its tables and the banks in
use. -/
def State.stepInputs (s : State) (p : Nat) (pt : Part) (im : Image) : List Bytes :=
  [im.cart, im.atlas, beBytes 4 (s.reg .narrow p 0x04).toNat,
   (((pt.tiles.head?).map (fun t => (s.tile t).tables)).getD []).flatMap (fun c => beBytes 4 c.1 ++ [c.2]), pt.active.flatMap (beBytes 1)]

/-- The bytes that distinguish a chunk: its index, positions, marks, whether it is the last, its data. -/
def Chunk.bytes (k : Chunk) : Bytes :=
  beBytes 8 k.index ++ beBytes 2 k.positions ++ k.marks.flatMap (beBytes 2) ++ beBytes 1 (if k.final then 1 else 0) ++ k.data

/-- What the chunks of a stream up to one have come to (R53, R54): a free function of what they came to before it, of it and of the inputs of
its step. -/
def State.traceAfter (s : State) (p : Nat) (pt : Part) (im : Image) (v : Strm) (k : Chunk) : Nat :=
  Config.streamTrace v.trace (Chunk.bytes k :: s.stepInputs p pt im)

/-- The output bytes of a stream, which the manual places nowhere: a free function of what its chunks have come to (R53, R54; log entry 2). -/
def outputOf (trace n : Nat) : Bytes := (List.range n).map (Config.streamOutput trace)

/-- The payload of one part of a STREAM_OUTPUT. -/
def outputPart (chunk : Nat) (fin nonfinite : Bool) (part parts off : Nat) (d : Bytes) : Bytes :=
  beBytes 8 chunk ++ beBytes 1 ((if fin then 1 else 0) + (if nonfinite then 2 else 0)) ++ beBytes 1 part ++ beBytes 1 parts ++
    beBytes 1 0 ++ beBytes 4 off ++ d

/-- The STREAM_OUTPUT frames of a chunk (R244). -/
def State.sendOutput (s : State) (p h : Nat) (v : Strm) (chunk : Nat) (fin : Bool) (st : Status) (data : Bytes) : State :=
  match s.session v.sess with
  | none => s
  | some ss =>
    let k := s.payloadLimit (s.viaOf ss) ss.gen - 16
    let ps := pieces k 64 data
    (List.range ps.length).foldl (fun s i =>
      s.sendSeq v.sess (dataFrame p h 0x0210 st (outputPart chunk fin (!v.nonfinite.isEmpty) i ps.length (k * i) (ps.getD i [])))) s

/-- The tiles of a stream released: twin mode ends and the banks are EMPTY (R205, R209). -/
def State.releaseTiles (s : State) (ts : List Nat) : State :=
  ts.foldl (fun s t => s.modTile t (fun v =>
    { v with twin := false, bankBad := false, bound := none, bank0 := Bank.cleared, bank1 := Bank.cleared, last := 1 })) s

/-- A stream's state pages zero-filled (R209). -/
def State.zeroPages (s : State) (pt : Part) (v : Strm) : State :=
  match pt.image with
  | none => s
  | some im => (List.range im.slots).foldl (fun s i => s.shareStore pt (pt.statePage im v i) (List.replicate 8704 0#8)) s

/-- The frames staged for a stream answered with a status and taken back. -/
def State.answerStream (s : State) (p h : Nat) (st stClose : Status) : State :=
  match s.part p with
  | none => s
  | some pt =>
    let g := pt.staged
    let s1 := (g.parks.filter (fun e => e.1 == h)).foldl (fun s e =>
      match e.2 with | some c => s.reply c 0x0203 st [] | none => s) s
    let s2 := (g.closes.filter (fun e => e.1 == h)).foldl (fun s e =>
      match e.2 with | some c => s.reply c 0x0204 stClose [] | none => s) s1
    let s3 := (g.opens.filter (fun e => e.1 == h)).foldl (fun s e => s.reply e.2 0x0201 st []) s2
    s3.modPart p (fun pt =>
      { pt with staged := { pt.staged with parks := pt.staged.parks.filter (fun e => e.1 != h),
                                           closes := pt.staged.closes.filter (fun e => e.1 != h),
                                           opens := pt.staged.opens.filter (fun e => e.1 != h) } })

/-- The queued chunks of a stream answered by outputs with no data, in chunk order (R244). -/
def State.flushChunks (s : State) (p h : Nat) (v : Strm) (st : Status) : State :=
  (v.current.toList ++ v.queue).foldl (fun s c => s.sendOutput p h v c.index c.final st []) s

/-- A stream ends with a status: its queued chunks end with it, its tiles are released, its pages zero-filled (R209, R211). -/
def State.endStream (s : State) (p h : Nat) (st : Status) : State :=
  match s.part p with
  | none => s
  | some pt =>
    match NMap.find pt.streams h with
    | none => s
    | some v =>
      let s1 := ((((s.flushChunks p h v st).releaseTiles v.tiles).zeroPages pt v).answerStream p h st
        (if st = .cancelled then .ok else st)).modPart p (fun pt =>
          { pt with streams := NMap.erase pt.streams h, gone := .stream h :: pt.gone.erase (.stream h) })
      if st = .uncorrectable then s1.bump .strm p 0x1C 1 else s1

end Sys2Proof.Machine
end

