-- ==== Sys2Proof/Machine/Shards.lean ====
section
/-!
DEFINITION. Where a shard comes from (R309 to R313): the partition's own NAND share, a neighbour, the host; the end of an installation.
-/
namespace Sys2Proof.Machine

open Sys2Proof

/-- LAST_STATUS of PART_MODEL_STATUS: the final status of the last operation. -/
def State.modelStatus (s : State) (p : Nat) (st : Status) : State := s.putField .model p 0x04 15 0 (Status.code st)

/-- The final status of an operation on a partition's model. -/
def State.settleModel (s : State) (p : Nat) (c : Ctx) (op : Nat) (st : Status) : State := (s.settle c op st []).modelStatus p st

/-- Content keys are held for the images that are installed, fetched or being installed (R303). -/
def Part.trimKeys (pt : Part) : Part :=
  let ims := pt.image.toList ++ pt.next.toList ++ (pt.install.bind (·.image)).toList
  { pt with contentKeys := pt.contentKeys.filter (fun e => ims.any (fun im => im.keyId == e.1)) }

/-- The state that an installation leaves where it does not load: what it was before the shard was looked for. -/
def Part.restState (pt : Part) : MState := if pt.mstate != .fetching then pt.mstate else if pt.image.isSome then .loaded else .empty

/-- An installation ends with a status (R310). -/
def State.endInstall (s : State) (p : Nat) (st : Status) : State :=
  match (s.part p).bind (·.install) with
  | none => s
  | some v =>
    (s.modPart p (fun pt => Part.trimKeys { pt with install := none, mstate := pt.restState })).settleModel p v.ctx 0x0401 st

/-- The fetch of a partition that runs: of its installation, or the one that repairs a shard (R330). -/
def Part.fetch (pt : Part) (re : Bool) : Option Install := if re then pt.refetch else pt.install

/-- A fetch of a partition changed. -/
def State.modFetch (s : State) (p : Nat) (re : Bool) (f : Install → Install) : State :=
  s.modPart p (fun pt => if re then { pt with refetch := pt.refetch.map f } else { pt with install := pt.install.map f })

/-- A fetch fails: the installation ends with a status; a repair ends nothing, and another event follows (R330). -/
def State.failFetch (s : State) (p : Nat) (re : Bool) (st : Status) : State :=
  if re then
    match (s.part p).bind (·.refetch) with
    | none => s
    | some v => (s.modPart p (fun pt => { pt with refetch := none })).ownerEvent p .digestMismatch 0 v.ctx.handle 0
  else s.endInstall p st

/-- The shard is asked of the host (R312): TIER_FAILED with NO_HOST. -/
def State.toHost (s : State) (p : Nat) (re : Bool) : State :=
  match (s.part p).bind (fun pt => pt.fetch re) with
  | none => s
  | some v =>
    if v.noHost then s.failFetch p re .tierFailed
    else (s.modFetch p re (fun v => { v with src := .host, shard := [] })).ownerEvent p .pending 0x0401 v.ctx.handle 0

/-- The shard is asked of the neighbours in the management class (R312). -/
def State.askAll (s : State) (p : Nat) (re : Bool) (im : Image) : State :=
  (List.range 4).foldl (fun s d => s.sendMessage d .management p (beBytes 1 0x18 ++ im.digest))
    (s.modFetch p re (fun v => { v with src := .query, shard := [], image := some im }))

/-- The shard asked of a neighbour in the lent-memory class (R312; log entry 29). -/
def State.askNeighbour (s : State) (p : Nat) (re : Bool) (dev : Nat) : State :=
  match ((s.part p).bind (fun pt => pt.fetch re)).bind (·.image) with
  | none => s
  | some im =>
    (s.modFetch p re (fun v => { v with src := .neighbour dev, shard := [] })).sendTo dev .lent p
      (beBytes 1 0x47 ++ beBytes 1 p ++ beBytes 1 re.toNat ++ im.digest)

/-- A new installation. -/
def Install.begin (c : Ctx) (flags cart atlas : Nat) : Install :=
  { ctx := c, fetchOnly := flags % 2 == 1, noHost := flags / 2 % 2 == 1, cartLen := cart, atlasLen := atlas, cart := [], atlas := [],
    shard := [], stage := 0, src := .none, again := false, loading := false, image := none }

/-- The shard of an image fetched again from outside the module, unless one of the partition is being fetched again (R260, R330). -/
def State.refetchShard (s : State) (p : Nat) (im : Image) : State :=
  if (s.part p).any (·.refetch.isSome) then s
  else
    let v := { Install.begin { sess := 0xFFFF, part := p, handle := im.handle, via := none } 0 0 0 with image := some im }
    (s.modPart p (fun pt => { pt with refetch := some v })).askAll p true im

/-- A shard of this module with a digest. -/
def State.shardWith (s : State) (digest : Bytes) : Option Bytes :=
  (s.parts.flatMap (fun e => e.2.shards)).find? (fun b => Config.sm3 b == digest)

/-- A neighbour's request for a shard answered with its bytes (R312; log entry 29). -/
def State.sendShard (s : State) (dir p re : Nat) (digest : Bytes) : State :=
  match s.shardWith digest with
  | none => s
  | some b =>
    let ps := pieces 4096 b.length b
    (List.range ps.length).foldl (fun s i =>
      s.sendMessage dir .lent p (beBytes 1 0x48 ++ beBytes 1 p ++ beBytes 1 re ++ beBytes 8 (4096 * i) ++ ps.getD i [])) s

/-- Bytes of a shard from a neighbour (R312). -/
def State.shardFrom (s : State) (dev p : Nat) (re : Bool) (off : Nat) (d : Bytes) : State :=
  s.modFetch p re (fun v =>
    if v.src == .neighbour dev && v.shard.length == off && v.image.any (fun im => decide (off + d.length ≤ im.shardLen)) then
      { v with shard := v.shard ++ d }
    else v)

/-- A neighbour that fails during a fetch: the device goes on to the next source from the start of the shard (R312). -/
def State.fetchLost (s : State) (dev : Nat) : State :=
  let on := fun (v : Option Install) => v.any (fun v => v.src == .neighbour dev)
  s.parts.foldl (fun s e =>
    let s1 := if on e.2.install then s.toHost e.1 false else s
    if on e.2.refetch then s1.toHost e.1 true else s1) s

end Sys2Proof.Machine
end

