-- ==== Sys2Proof/Machine/Losses.lean ====
section
/-!
DEFINITION. Errors that end work at once (R169, R326, R457): the ends of the computations of insets, of the sequences that name a lost sheet, of
the requests and streams that read a pod at fault.
-/
namespace Sys2Proof.Machine

open Sys2Proof

/-- The handle under which the computation of an inset stands among the sequences; a request's handle is below 2^32. -/
def insetSeq (h : Nat) : Nat := 2 ^ 32 + h

/-- The sequence computes an inset. -/
def Seq.ofInset (q : Seq) : Bool := decide (2 ^ 32 ≤ q.handle)

/-- The computation of an inset ends with a status (R326). -/
def State.endInset (s : State) (p h : Nat) (st : Status) : State :=
  match s.part p with
  | none => s
  | some pt =>
    match NMap.find pt.insets h with
    | none => s
    | some v =>
      (s.modPart p (fun pt =>
        { ((pt.seqs.filter (fun q => q.handle == insetSeq h)).foldl (fun pt q => pt.unrefList q.list) pt) with
          seqs := pt.seqs.filter (fun q => q.handle != insetSeq h), gone := .seq (insetSeq h) :: pt.gone.erase (.seq (insetSeq h)),
          insets := if v.installed then NMap.insert pt.insets h { v with again := none } else NMap.erase pt.insets h })).settleModel p v.ctx 0x0301 st

/-- A sequence's list names a sheet. -/
def Seq.onSheet (q : Seq) (n : Nat) : Bool := q.list.any (fun e => e.sheet == n)

/-- The requests whose list names a sheet: admitted, paused or being restored. -/
def Part.reqsOnSheet (pt : Part) (n : Nat) : List Nat :=
  pt.reqs.keys.filter (fun h =>
    pt.seqs.any (fun q => q.handle == h && q.onSheet n) ||
      (((NMap.find pt.reqs h).map (·.list)).getD []).any (fun e => e.sheet == n))

/-- The computations of insets whose list names a sheet. -/
def Part.insetsOnSheet (pt : Part) (n : Nat) : List Nat :=
  ((pt.seqs.filter (fun q => q.ofInset && q.onSheet n)).map (fun q => q.handle - 2 ^ 32)).eraseDups

/-- A request, or the computation of an inset, named as a sequence is, ends at once with KV_LOST (R169). -/
def State.endSeqLost (s : State) (p h : Nat) : State :=
  if 2 ^ 32 ≤ h then (s.endInset p (h - 2 ^ 32) .kvLost).bump .kv p 0x2C 1 else s.endReqNow p h .kvLost

/-- The handles of a partition that a later stage cannot let go on: they end by the decision of the first stage, which is told of them with the
status in the management class (R164; log entry 26). -/
def State.tellLost (s : State) (p : Nat) (hs : List Nat) (st : Status) : State :=
  if hs.isEmpty then s
  else s.sendTo (s.stageDev 0) .management p (beBytes 1 0x1A ++ beBytes 1 p ++ beBytes 2 (Status.code st) ++ hs.flatMap (beBytes 8))

/-- The device carries the first stage of the partition's model, or no model. -/
def State.leads (s : State) (p : Nat) : Bool := (s.part p).any (fun pt => pt.image.all (·.isFirst))

/-- A page or record of a sheet is uncorrectable (R169): the sequences that name it end with KV_LOST, the sheet's NODE flag is cleared,
and a step that runs is replayed for the others. -/
def State.loseSheet (s : State) (p n : Nat) : State :=
  match s.part p with
  | none => s
  | some pt =>
    let s1 := if s.leads p then
        (pt.insetsOnSheet n).foldl (fun s h => s.endSeqLost p (insetSeq h)) ((pt.reqsOnSheet n).foldl (fun s h => s.endSeqLost p h) s)
      else
        let hs := ((pt.seqs.filter (fun q => q.onSheet n)).map (·.handle) ++ pt.reqsOnSheet n).eraseDups
        (s.bump .kv p 0x2C hs.length).tellLost p hs .kvLost
    let s2 := s1.modPart p (fun pt =>
      match NMap.find pt.sheets n with
      | none => pt
      | some h =>
        if h.refs = 0 then { pt with sheets := NMap.erase pt.sheets n }
        else { pt with sheets := NMap.insert pt.sheets n { h with node := false } })
    s2.failEnding p .uncorrectable

/-- A stream ends with a status (R211); a later stage tells the first. -/
def State.loseStream (s : State) (p h : Nat) (st : Status) : State :=
  if s.leads p then s.endStream p h st else (s.endStream p h st).tellLost p [h] st

/-- Requests, computations of insets and streams named by their handles end at once with a status (R457). -/
def State.endHandles (s : State) (p : Nat) (hs : List Nat) (st : Status) : State :=
  hs.foldl (fun s h =>
    match s.part p with
    | none => s
    | some pt =>
      if 2 ^ 32 ≤ h then s.endInset p (h - 2 ^ 32) st
      else if (NMap.find pt.reqs h).isSome then s.endReqNow p h st else s.endStream p h st) s

/-- Work named by its handles ends with a status, and the step is replayed for the rest (R457). A later stage tells the first; its own streams
end at once. -/
def State.endWork (s : State) (p : Nat) (hs : List Nat) (st : Status) : State :=
  (if s.leads p then s.endHandles p hs st else (hs.foldl (fun s h => s.endStream p h st) s).tellLost p hs st).failEnding p st

/-- The handles that a later stage has told of end at the first stage (R169, R457). -/
def State.toldLost (s : State) (p : Nat) (bs : Bytes) : State :=
  let hs := (List.range ((bs.length - 4) / 8)).map (fun i => beAt bs (4 + 8 * i) 8)
  match [Status.kvLost, .decodeFault, .tierFailed].find? (fun st => Status.code st == beAt bs 2 2) with
  | some .kvLost => (hs.foldl (fun s h => s.endSeqLost p h) s).failEnding p .kvLost
  | some st => s.endWork p hs st
  | none => s.endWork p hs .uncorrectable

/-- Every admitted request and every open stream of a partition ends with the statuses given (R298, R131). -/
def State.endAllWork (s : State) (p : Nat) (reqSt strSt : Status) : State :=
  match s.part p with
  | none => s
  | some pt =>
    let s1 := (pt.seqs.map (·.handle)).eraseDups.foldl (fun s h => s.endReqNow p h reqSt) s
    pt.streams.keys.foldl (fun s h => s.endStream p h strSt) s1

end Sys2Proof.Machine
end

