-- ==== Sys2Proof/Machine/Tile.lean ====
section
/-!
DEFINITION. The matrix array of a tile (R63 to R76) and the carried state of streams (R195, R198 to R202): matrix operations, drains,
preloads, twin mode, state reads and overwrites, commits.
-/
namespace Sys2Proof.Machine

open Sys2Proof

/-- Bank 0 or 1 of a tile. -/
def Tile.bank (v : Tile) (b : Nat) : Bank := if b = 0 then v.bank0 else v.bank1

/-- Bank 0 or 1 replaced. -/
def Tile.setBank (v : Tile) (b : Nat) (k : Bank) : Tile := if b = 0 then { v with bank0 := k } else { v with bank1 := k }

/-- A partition's reset has been staged and its step has drained: its tiles are being cleared (R109, R420). -/
def Part.clearing (pt : Part) : Bool := pt.resetting.isSome && pt.staged.reset.isNone

/-- A tile that commands may act on: it belongs to a partition that is not being cleared, and is in service (R109, R112, R462). -/
def State.tileWorks (s : State) (t : Nat) : Bool :=
  (match (s.ownerOf t).bind s.part with | some pt => !pt.clearing | none => false) && !s.tileOut t

/-- The partition of a tile that works. -/
def State.owner (s : State) (t : Nat) : Nat := (s.ownerOf t).getD 0

/-- What the environment says of a pod that fails: the readers of a pod the device wrote (R131). -/
def podReaders (env : List Strike) : Option (List Nat) :=
  env.findSome? (fun e => match e with | .devicePod r => some r | _ => none)

/-- A pod that has failed a check counted, and recorded with its place: SITE 0 operand port, 1 tile DMA, 2 Veolo receiver, 3 NAND tier
(R131, R132). -/
def State.countPodFault (s : State) (p t site : Nat) (f : PodFault) : State :=
  (s.bump .pod p 0x04 1).recordFirst .pod p 0x00
    (BitVec.ofNat 32 (2 ^ 31 + f.1.code * 2 ^ 27 + t % 512 * 2 ^ 18 + site * 2 ^ 16 + f.2 % 65536))

/-- A pod has failed a check (R131): one of the device's own ends the work that read it, a weight pod is reloaded before the replay. -/
def State.podFault (s : State) (p t site : Nat) (f : PodFault) (dev : Option (List Nat)) : State :=
  match dev with
  | some hs => (s.countPodFault p t site f).endWork p hs .decodeFault
  | none => (s.countPodFault p t site f).failStep p .decodeFault true

/-- Rows of a list of runs read by an engine, with their errors found (R110). -/
def State.readRuns (s : State) (p t : Nat) (runs : List (Nat × Nat)) : State × Bool :=
  runs.foldl (fun a r => let f := a.1.eccFind p t r.1 r.2; (f.1, a.2 || f.2)) (s, false)

/-! ## Matrix operations -/

/-- The operands of a matrix operation fit each other (R63, R66). -/
def matrixOk (a b : Desc) : Bool := a.ok && b.ok && a.k == b.k

/-- Blocks of C side by side. -/
def MatrixOp.across (op : MatrixOp) : Nat := (op.b.extent + 31) / 32

/-- Blocks of C (R66). -/
def MatrixOp.blocks (op : MatrixOp) : Nat := (op.a.extent + 31) / 32 * op.across

/-- Row and column of the next block, in row-major block order (R63). -/
def MatrixOp.bi (op : MatrixOp) : Nat := op.next / op.across
/-- The next block's column. -/
def MatrixOp.bj (op : MatrixOp) : Nat := op.next % op.across

/-- The bank that the next block of an operation takes (R71, R75): the bank it names, where that was left open with this block; else the one
after the last used, where that is EMPTY or PRELOADED or was left open with this block; none otherwise, or in twin mode (log entry 80). -/
def Tile.nextBank (v : Tile) (op : MatrixOp) : Option Nat :=
  let open_ := fun (b : Nat) => (v.bank b).st = .accum && (v.bank b).blk = op.next
  if v.twin then none
  else if open_ op.bank then some op.bank
  else if (v.bank (1 - v.last)).st = .empty || (v.bank (1 - v.last)).st = .preloaded || open_ (1 - v.last) then some (1 - v.last)
  else none

/-- The bank after a block has been accumulated into it (R46 to R48, R71). An operation whose accumulator type differs from that of a
preloaded or continued bank adds by its own type, and the bank keeps its type for the drain (DESIGN CHOICE, log entry 81). -/
def State.accumBank (s : State) (t tb : Nat) (op : MatrixOp) (pa pb : Nat → Byte) (k : Bank) : Bank :=
  let rows := min 32 (op.a.extent - 32 * op.bi)
  let cols := min 32 (op.b.extent - 32 * op.bj)
  let rs := (List.range 1024).map (fun c =>
    if c / 32 < rows && c % 32 < cols then
      s.accumulate t tb op.a op.b pa pb (32 * op.bi + c / 32) (32 * op.bj + c % 32) (k.cell c)
    else (k.cell c, false))
  { st := if op.cont then .accum else .ready,
    int := if k.st = .empty then intPair op.a op.b else k.int,
    sat := k.sat || rs.any Prod.snd, blk := op.next, rows := rows, cols := cols, cells := cellsOf (rs.map Prod.fst) }

/-- The operation at the front of a tile's matrix queue after it has computed a block: it leaves the queue with its last one. -/
def Tile.blockDone (v : Tile) : Tile :=
  match v.matrixQ with
  | [] => v
  | op :: q => { v with matrixQ := if op.next + 1 < op.blocks then { op with next := op.next + 1 } :: q else q }

/-- The operation at the front of a tile's matrix queue stopped: its bank is discarded (R127). -/
def State.dropMatrix (s : State) (t b : Nat) : State :=
  s.modTile t (fun v => { v.setBank b Bank.cleared with matrixQ := v.matrixQ.drop 1 })

/-- The next block of the operation at the front of a tile's matrix queue computed in bank `b`: its rows are read, its pods expanded, its
products accumulated over the whole of K (R63, R67, R126, R127). -/
def State.runMatrix (s : State) (t b : Nat) (op : MatrixOp) : State :=
  let p := s.owner t
  let f := s.readRuns p t (s.rowsRead t op.a op.bi ++ s.rowsRead t op.b op.bj)
  if f.2 then (f.1.dropMatrix t b).failStep p .uncorrectable false
  else
    let s1 := f.1
    match s1.podTrouble t op.a op.b op.bi op.bj with
    | some e => (s1.dropMatrix t b).podFault p t 0 e op.dev
    | none =>
      let tb := ((s1.part p).map (fun pt => pt.activeBank 1)).getD 0
      s1.modTile t (fun v =>
        { (v.setBank b (s1.accumBank t tb op (s1.planeOf t op.a op.bi) (s1.planeOf t op.b op.bj) (v.bank b))).blockDone with last := b })

/-- Blocks that the operations of a tile's matrix queue have still to compute. -/
def Tile.blocksLeft (v : Tile) : Nat := (v.matrixQ.map (fun op => op.blocks - op.next)).sum

/-- Blocks of the operations in a tile's matrix queue computed in order while a bank is free for them (R71, R83); `fuel` bounds their
number. -/
def State.pumpMatrix (s : State) (t : Nat) : Nat → State
  | 0 => s
  | n + 1 =>
    match (s.tile t).matrixQ with
    | [] => s
    | op :: _ =>
      match (s.tile t).nextBank op with
      | some b => (s.runMatrix t b op).pumpMatrix t n
      | none => s

/-- The matrix queue of a tile worked off as far as its banks allow. -/
def State.goMatrix (s : State) (t : Nat) : State := s.pumpMatrix t (s.tile t).blocksLeft

/-- The bay whose sequencer commands a tile (R12). -/
def bayOf (t : Nat) : Nat := t / 32

/-- Tiles that one MATRIX instruction may name: 1 to 32 of a partition's in one bay (Table 6 of The tile). -/
def State.matrixTiles (s : State) (ts : List Nat) : Bool :=
  match ts with
  | [] => false
  | t :: _ => decide (ts.length ≤ 32) && decide ts.Nodup && ts.all (fun u => s.tileWorks u && bayOf u == bayOf t && s.owner u == s.owner t)

/-- A MATRIX instruction waits while the matrix queue of one of its tiles holds 16 operations (R83). -/
def State.matrixWaits (s : State) (ts : List Nat) : Bool := ts.any (fun t => decide (16 ≤ (s.tile t).matrixQ.length))

/-- A matrix operation on some tiles: it joins their queues. -/
def State.doMatrix (s : State) (ts : List Nat) (op : MatrixOp) (env : List Strike) : State :=
  let p := s.owner (ts.headD 0)
  let s1 := (s.strike env).pathErrors p env
  if s1.stepFailed p then s1
  else ts.foldl (fun s t => (s.modTile t (fun v => { v with matrixQ := v.matrixQ ++ [op] })).goMatrix t) s1

/-- The operation that a MATRIX instruction gives its tiles. -/
def matrixOp (a b : Desc) (bank : Nat) (cont : Bool) (env : List Strike) : MatrixOp :=
  { dev := podReaders env, a := a, b := b, next := 0, bank := bank, cont := cont }

/-- MATRIX: C = A · B, or C + A · B where it continues a bank, on 1 to 32 tiles (R63, R83). -/
def execMatrix (ts : List Nat) (a b : Desc) (bank : Nat) (cont : Bool) (env : List Strike) (s : State) : Res :=
  require (s.matrixTiles ts && matrixOk a b && decide (bank < 2)) "no such matrix operation"
    (s.issue (s.owner (ts.headD 0)) (bayOf (ts.headD 0)) (.matrix ts a b bank cont env) (s.matrixWaits ts)
      (s.doMatrix ts (matrixOp a b bank cont env) env))

/-! ## Drains and preloads -/

/-- The code of entry `c` of a tile's bank in a drain format (R49): 1 FP32, 2 BF16, 3 FP16, 24 INT32. -/
def drainCode (v : Tile) (b fmt c : Nat) : Nat :=
  let k := v.bank b
  if v.twin then
    if fmt = 2 then FFmt.bf16.encode true .rne (FVal.add (f32 (v.bank0.cell c)) (f32 (v.bank1.cell c)))
    else (v.bank0.cell c).toNat
  else if fmt = 24 then (k.cell c).toNat
  else if k.int then codeOfValue fmt .rne (.ofInt (k.cell c).toInt)
  else if fmt = 1 then (k.cell c).toNat
  else codeOfValue fmt .rne (f32 (k.cell c))

/-- A drain format that R49 gives a bank: TWIN is 0. -/
def drainFmtOk (v : Tile) (b fmt : Nat) : Bool :=
  if v.twin then fmt == 0 || fmt == 1 || fmt == 2
  else if (v.bank b).int then fmt == 24 || fmt == 1 || fmt == 2
  else fmt == 1 || fmt == 2 || fmt == 3

/-- Rows of a drain (R72). -/
def drainRows (fmt : Nat) : Nat := match fmt with | 0 => 16 | 1 => 8 | 24 => 8 | _ => 4

/-- The bytes of a drained block over what the rows held: entries beyond M or N are not written (R66). -/
def drainBytes (v : Tile) (b fmt : Nat) (old : Bytes) : Bytes :=
  let k := v.bank b
  if fmt = 0 then (List.range 1024).flatMap (fun c => leBytes 4 (v.bank0.cell c).toNat ++ leBytes 4 (v.bank1.cell c).toNat)
  else
    let w := if fmt = 1 || fmt = 24 then 4 else 2
    (List.range 1024).flatMap (fun c =>
      if v.twin || (decide (c / 32 < k.rows) && decide (c % 32 < k.cols)) then leBytes w (drainCode v b fmt c)
      else slice old (w * c) w)

/-- Entry `c` of a drained bank as a value of the drain's format; of a TWIN drain the exact sum of the pair (log entry 82). -/
def drainValue (v : Tile) (b fmt c : Nat) : FVal :=
  if fmt = 0 then FVal.add (f32 (v.bank0.cell c)) (f32 (v.bank1.cell c)) else valueOfCode fmt (drainCode v b fmt c)

/-- A value added to an accumulator entry with one rounding (R72): a float entry as in R47; an INT32 entry clamped, and whether it was
(R48). -/
def addEntry (int : Bool) (acc : Word) (x : FVal) : Word × Bool :=
  if int then
    let v := FVal.add (.ofInt acc.toInt) x
    let w := BitVec.ofNat 32 (codeOfValue 24 .rne v)
    (w, match v with
        | .fin neg m e => let q := roundShift .rne neg m e 0; decide ((if neg then -(q : Int) else q) ≠ w.toInt)
        | .inf _ => true
        | .nan => false)
  else (toF32 (FVal.add (f32 acc) x), false)

/-- A bank with a drained block added entrywise, its flag and the sender's joined (R72, R73). -/
def addBlock (sat : Bool) (xs : Nat → FVal) (dst : Bank) : Bank :=
  let rs := (List.range 1024).map (fun c => addEntry dst.int (dst.cell c) (xs c))
  { dst with sat := dst.sat || sat || rs.any Prod.snd, cells := cellsOf (rs.map Prod.fst) }

/-- The bank of a tile in READY, the last used first. -/
def Tile.readyBank (v : Tile) : Option Nat :=
  if v.twin then none
  else if (v.bank v.last).st = .ready then some v.last else if (v.bank (1 - v.last)).st = .ready then some (1 - v.last) else none

/-- A bank in DRAIN with its flag copied to the status word and cleared (R71, R73); in twin mode only a TWIN drain ends the pairs
(R195). -/
def Tile.beginDrain (v : Tile) (b fmt : Nat) : Tile :=
  let w := { v.setBank b { v.bank b with sat := false } with satStatus := (v.bank b).sat }
  if v.twin then
    if fmt = 0 then { w with bank0 := { w.bank0 with st := .drain }, bank1 := { w.bank1 with st := .drain } } else w
  else w.setBank b { w.bank b with st := .drain }

/-- The tile is in twin mode and holds its pairs. -/
def Tile.twinReady (v : Tile) : Bool := v.twin && v.bank0.st == .preloaded && v.bank1.st == .preloaded

/-- A DRAIN waits until the bank is READY, or the tile's pairs are there, and until the neighbour it sends to has a READY bank (R71, R72,
R83). -/
def State.drainWaits (s : State) (t bank : Nat) (dst : DrainDst) : Bool :=
  (if (s.tile t).twin then !(s.tile t).twinReady else (s.tile t |>.bank bank).st != .ready) ||
    (match dst with | .rows _ => false | .neighbour u => (s.tile u).readyBank.isNone)

/-- A drain of a bank, or of a tile's pairs, to rows or into a quad neighbour's READY bank (R49, R72, R73). A format that R49 does not give
the bank writes nothing. -/
def State.doDrain (s : State) (t bank fmt : Nat) (dst : DrainDst) (env : List Strike) : State :=
  let v := s.tile t
  let s1 := (s.strike env).pathErrors (s.owner t) env
  if s1.stepFailed (s.owner t) || !drainFmtOk v bank fmt then s1
  else
    match dst with
    | .rows r =>
      (s1.writeRows t r (drainRows fmt) (drainBytes v bank fmt (s1.rows t r (drainRows fmt)))).modTile t (fun w => w.beginDrain bank fmt)
    | .neighbour u =>
      match (s1.tile u).readyBank with
      | none => s1
      | some b =>
        (s1.modTile u (fun w => w.setBank b (addBlock (v.bank bank).sat (drainValue v bank fmt) (w.bank b)))).modTile t
          (fun w => w.beginDrain bank fmt)

/-- A destination that a drain may name (R72): rows of the scratchpad, or another tile of the quad. -/
def State.drainDstOk (s : State) (t fmt : Nat) : DrainDst → Bool
  | .rows r => decide (r + drainRows fmt ≤ 2048)
  | .neighbour u => decide (u / 4 = t / 4) && decide (u ≠ t) && s.tileWorks u

/-- DRAIN: a READY bank, or a tile's pairs, to rows or to a quad neighbour's READY bank (R49, R72, R73). -/
def execDrain (t bank fmt : Nat) (dst : DrainDst) (env : List Strike) (s : State) : Res :=
  require (s.tileWorks t && decide (bank < 2) && s.drainDstOk t fmt dst && [0, 1, 2, 3, 24].contains fmt) "no such drain"
    (s.issue (s.owner t) (bayOf t) (.drain t bank fmt dst env) (s.drainWaits t bank dst) (s.doDrain t bank fmt dst env))

/-- The last row of a drain is written and the bank is EMPTY (R71); waiting operations go on. -/
def State.endDrain (s : State) (t bank : Nat) : State :=
  (s.modTile t (fun v =>
    if v.twin then { v with bank0 := Bank.cleared, bank1 := Bank.cleared } else v.setBank bank Bank.cleared)).goMatrix t

/-- A preload's bank (R74). -/
def preloaded (int : Bool) (bs : Bytes) : Bank :=
  { Bank.cleared with st := .preloaded, int := int, cells := cellsOf (wordsOfBytes 1024 bs) }

/-- A PRELOAD waits until its bank is EMPTY (Table 3 of The tile). -/
def State.preloadWaits (s : State) (t bank : Nat) : Bool := (s.tile t).twin || ((s.tile t).bank bank).st != .empty

/-- A bank filled from 8 rows. -/
def State.doPreload (s : State) (t bank row : Nat) (int : Bool) : State :=
  let r := s.engineRows (s.owner t) t row 8
  match r.2 with
  | none => r.1
  | some bs => (r.1.modTile t (fun v => v.setBank bank (preloaded int bs))).goMatrix t

/-- PRELOAD: a bank from 8 rows of FP32 or INT32 values (R74). -/
def execPreload (t bank row : Nat) (int : Bool) (s : State) : Res :=
  require (s.tileWorks t && decide (bank < 2) && decide (row + 8 ≤ 2048)) "no such preload"
    (s.issue (s.owner t) (bayOf t) (.preload t bank row int) (s.preloadWaits t bank) (s.doPreload t bank row int))

/-! ## Twin mode -/

/-- The bank of the pairs' high or low parts, from 1,024 words. -/
def pairBank (ws : List Word) : Bank := { Bank.cleared with st := .preloaded, cells := cellsOf ws }

/-- Every second word, from the first. -/
def everySecond : List Word → List Word
  | a :: _ :: ws => a :: everySecond ws
  | [a] => [a]
  | [] => []

/-- A tile's pairs set from 2,048 words, hi then lo (R74, R203). -/
def Tile.setPairs (v : Tile) (ws : List Word) : Tile :=
  { v with bank0 := pairBank (everySecond ws), bank1 := pairBank (everySecond (ws.drop 1)) }

/-- Pair `c` of a tile. -/
def Tile.pair (v : Tile) (c : Nat) : Word × Word := (v.bank0.cell c, v.bank1.cell c)

/-- Every pair of a tile replaced by a function of its number and itself. -/
def Tile.mapPairs (v : Tile) (f : Nat → Word × Word → Word × Word) : Tile :=
  let ps := (List.range 1024).map (fun c => f c (v.pair c))
  { v with bank0 := { v.bank0 with cells := cellsOf (ps.map Prod.fst) },
           bank1 := { v.bank1 with cells := cellsOf (ps.map Prod.snd) } }

/-- Rows that an instruction of a tile reads, and what it does to the tile with their bytes; nothing where a word is uncorrectable
(R110). -/
def State.withRows (s : State) (t row n : Nat) (f : Bytes → Tile → Tile) : State :=
  let r := s.engineRows (s.owner t) t row n
  match r.2 with
  | none => r.1
  | some bs => r.1.modTile t (f bs)

/-- A TWIN_BIND waits until both banks are EMPTY (R75). -/
def State.bindWaits (s : State) (t : Nat) : Bool := (s.tile t).bank0.st != .empty || (s.tile t).bank1.st != .empty

/-- Both banks become 1,024 pairs, zero or from 16 rows. -/
def State.doTwinBind (s : State) (t : Nat) : Option Nat → State
  | none => s.modTile t (fun v => { v.setPairs [] with twin := true })
  | some r => s.withRows t r 16 (fun bs v => { v.setPairs (wordsOfBytes 2048 bs) with twin := true })

/-- TWIN_BIND: both banks, once EMPTY, become 1,024 pairs, zero or from 16 rows (R75). -/
def execTwinBind (t : Nat) (src : Option Nat) (s : State) : Res :=
  require (s.tileWorks t && src.all (fun r => decide (r + 16 ≤ 2048))) "no such bind"
    (s.issue (s.owner t) (bayOf t) (.twinBind t src) (s.bindWaits t) (s.doTwinBind t src))

/-- A TWIN_UNBIND waits for the drain that leaves both banks of a tile in twin mode EMPTY (R75). -/
def State.unbindWaits (s : State) (t : Nat) : Bool := (s.tile t).twin && s.bindWaits t

/-- Twin mode ended. The next ordinary operation takes bank 0, as after a reset (DESIGN CHOICE, log entry 83). -/
def State.doTwinUnbind (s : State) (t : Nat) : State :=
  (s.modTile t (fun v => if v.twin then { v with twin := false, bound := none, last := 1 } else v)).goMatrix t

/-- TWIN_UNBIND: after a drain, both banks EMPTY and the mode ended (R75). -/
def execTwinUnbind (t : Nat) (s : State) : Res :=
  require (s.tileWorks t) "no such tile"
    (s.issue (s.owner t) (bayOf t) (.twinUnbind t) (s.unbindWaits t) (s.doTwinUnbind t))

/-- Operations on pairs wait until the tile holds them (R76). -/
def State.pairsWait (s : State) (t : Nat) : Bool := !(s.tile t).twinReady

/-- An addend that twin_add may name (R76). -/
def twinSrcOk : TwinSrc → Bool
  | .vector r => decide (r + 8 ≤ 2048)
  | .slice a b bi bj sl =>
    matrixOk a b && decide (32 * bi < a.extent) && decide (32 * bj < b.extent) && decide (32 * sl < a.k)

/-- twin_add on every pair (R50, R76). A pod that the device wrote and that fails ends the work that read it (R131). -/
def State.doTwinAdd (s : State) (t : Nat) (env : List Strike) : TwinSrc → State
  | .vector r => (s.strike env).withRows t r 8 (fun bs v =>
      let xs := wordsOfBytes 1024 bs
      v.mapPairs (fun c q => twinAddPair q (xs.getD c 0)))
  | .slice a b bi bj sl =>
    let p := s.owner t
    let s0 := s.strike env
    let f := s0.readRuns p t (s0.rowsRead t a bi ++ s0.rowsRead t b bj)
    if f.2 then f.1.failStep p .uncorrectable false
    else
      match f.1.podTrouble t a b bi bj with
      | some e => f.1.podFault p t 0 e (podReaders env)
      | none =>
        let tb := ((s.part p).map (fun pt => pt.activeBank 1)).getD 0
        f.1.modTile t (fun v => v.mapPairs (fun c q =>
          twinAddPair q (toF32 (f.1.sliceSum t tb a b (f.1.planeOf t a bi) (f.1.planeOf t b bj) (32 * bi + c / 32) (32 * bj + c % 32) sl))))

/-- TWIN_ADD: twin_add on every pair, the addend a vector of 8 rows or the exact sum of a k-slice rounded once (R76, R50). -/
def execTwinAdd (t : Nat) (src : TwinSrc) (env : List Strike) (s : State) : Res :=
  require (s.tileWorks t && twinSrcOk src) "no such addend"
    (s.issue (s.owner t) (bayOf t) (.twinAdd t src env) (s.pairsWait t) (s.doTwinAdd t env src))

/-- twin_mul on every pair by a vector of 8 rows (R50, R76). -/
def State.doTwinMul (s : State) (t row : Nat) : State :=
  s.withRows t row 8 (fun bs v =>
    let ws := wordsOfBytes 1024 bs
    v.mapPairs (fun c q => twinMulPair q (ws.getD c 0)))

/-- TWIN_MUL: twin_mul on every pair by a vector of 8 rows (R76, R50). -/
def execTwinMul (t row : Nat) (s : State) : Res :=
  require (s.tileWorks t && decide (row + 8 ≤ 2048)) "no such coefficients"
    (s.issue (s.owner t) (bayOf t) (.twinMul t row) (s.pairsWait t) (s.doTwinMul t row))

/-- The hi part of every pair written to 8 rows (R195). -/
def State.doStateRead (s : State) (t row : Nat) : State :=
  s.writeRows t row 8 ((List.range 1024).flatMap (fun c => leBytes 4 ((s.tile t).bank0.cell c).toNat))

/-- STATE_READ: the hi part of every pair to 8 rows, the pairs unchanged (R195). -/
def execStateRead (t row : Nat) (s : State) : Res :=
  require (s.tileWorks t && decide (row + 8 ≤ 2048)) "no such state read"
    (s.issue (s.owner t) (bayOf t) (.stateRead t row) (s.pairsWait t) (s.doStateRead t row))

/-- Every pair replaced from 16 rows (R195). -/
def State.doStateOverwrite (s : State) (t row : Nat) : State :=
  s.withRows t row 16 (fun bs v => v.setPairs (wordsOfBytes 2048 bs))

/-- STATE_OVERWRITE: every pair from 16 rows, the tile still in twin mode (R195). -/
def execStateOverwrite (t row : Nat) (s : State) : Res :=
  require (s.tileWorks t && decide (row + 16 ≤ 2048)) "no such overwrite"
    (s.issue (s.owner t) (bayOf t) (.stateOverwrite t row) (s.pairsWait t) (s.doStateOverwrite t row))

end Sys2Proof.Machine
end

