-- ==== Sys2Proof/Machine/Moves.lean ====
section
/-!
DEFINITION. What the tiles move: the tile DMA between scratchpad, LPDDR5X, loans and NAND (R247 to R252, R255, R260), fills and copies (R107,
R108), the compress-on-store engines (R128, R129), the commits of streams (R198 to R202), activations over the links (R55 to R58), the
expert cache (R263, R264), the scrubber and the zero fill (R109, R111).
-/
namespace Sys2Proof.Machine

open Sys2Proof

/-! ## The far ends of a transfer -/

/-- An access beyond the share is not made (R249). -/
def State.boundFail (s : State) (p : Nat) : State := (s.bump .dr 0 0x24 1).failStep p .notPermitted false

/-- Sheets whose page, tag row or record covers an offset of the pool (R158). -/
def Image.sheetsAt (im : Image) (total off : Nat) : List Nat :=
  let pages := total * im.layers * im.pageBytes
  if off < pages then [off / im.pageBytes / im.layers]
  else if off < pages + total * im.layers * 512 then [(off - pages) / 512 / im.layers]
  else
    let r := off - pages - total * im.layers * 512
    if r / 576 = (r + 511) / 576 then [r / 576] else [r / 576, (r + 511) / 576]

/-- What an uncorrectable burst at an offset of a share does (R252): a sheet's sequences end (R169), a state page's stream ends (R211),
anything else is read again from its source before the replay. -/
def State.shareFail (s : State) (p : Nat) (pt : Part) (off : Nat) : State :=
  let lay := pt.layout
  match pt.image with
  | none => s.failStep p .uncorrectable true
  | some im =>
    if lay.pool ≤ off then (im.sheetsAt (s.sheetTotal p) (off - lay.pool)).foldl (fun s n => s.loseSheet p n) s
    else if lay.state ≤ off && off < lay.bitmap then
      let k := (off - lay.state) / 8704
      match pt.streams.find? (fun e => e.2.page * im.slots ≤ k && k < (e.2.page + 1) * im.slots) with
      | some e => s.endWork p [e.1] .uncorrectable
      | none => s.failStep p .uncorrectable true
    else s.failStep p .uncorrectable true

/-- Bytes of a share read 512 at a time, each with its errors found; none past the share or past an uncorrectable burst, whose
consequence has then been drawn. `fuel` bounds the number of pieces. -/
def State.sharePull (s : State) (p : Nat) (pt : Part) : Nat → Nat → Nat → State × Option Bytes
  | 0, _, _ => (s, some [])
  | fuel + 1, off, n =>
    if n = 0 then (s, some [])
    else
      let k := min n (512 - off % 512)
      match s.shareReadChecked pt off k with
      | (s1, some bs, _) =>
        match State.sharePull s1 p pt fuel (off + k) (n - k) with
        | (s2, some cs) => (s2, some (bs ++ cs))
        | (s2, none) => (s2, none)
      | (s1, none, ue) => (if ue then s1.shareFail p pt off else s1.boundFail p, none)

/-- A NAND share offset lies on a failed channel (R259, R260). -/
def State.nandLost (s : State) (off n : Nat) : Bool :=
  (List.range ((off + n + 16383) / 16384 - off / 16384)).any (fun i => s.nand.failed.contains ((off / 16384 + i) % 16))

/-- The environment reports codewords of the NAND tier that failed every attempt. -/
def nandStruck (env : List Strike) : Nat := (env.filter (fun e => match e with | .nandUe => true | _ => false)).length

/-- Retried reads of the NAND tier (R260). -/
def nandRetries (env : List Strike) : Nat := (env.map (fun e => match e with | .nandRetry n => n | _ => 0)).sum

/-- The environment reports that no source of the shard is reachable. -/
def sourceLost (env : List Strike) : Bool := env.any (fun e => match e with | .noSource => true | _ => false)

/-- The die that holds a block: blocks of a channel are numbered round its dies, then their planes. -/
def blockDie (b : Nat) : Nat := b % 64

/-- The blocks that a run of a partition's NAND share lies in, as the translation map has them (R259). -/
def State.nandBlocks (s : State) (pt : Part) (off n : Nat) : List Nat :=
  ((mapUnits off n).filterMap (fun u => ((pt.nandAddr (16384 * u)).bind (NMap.find s.nand.map)).map (· / blockPages))).eraseDups

/-- A block read (R261): its read is counted; a die that programs or erases suspends that, serves the read within its read time of 40 µs and
resumes; a read that comes before, or in the urgent state, waits for the end of the operation. -/
def State.readBlock (s : State) (b : Nat) : State :=
  let v := s.nand
  let s1 := s.setNand { v with reads := NMap.insert v.reads b (NMap.get 0 v.reads b + 1), lastRead := NMap.insert v.lastRead b s.now }
  match NMap.find v.dies (blockDie b) with
  | none => s1
  | some k =>
    if !v.urgent && (k = 0 || decide (k - 1 + 40000 ≤ s.now)) then
      (s1.setNand { s1.nand with dies := NMap.insert v.dies (blockDie b) (s.now + 1) }).bump .nt 0 0x20 1
    else s1.setNand { s1.nand with waiting := NMap.insert v.waiting (blockDie b) (NMap.get 0 v.waiting (blockDie b) + 1) }

/-- The blocks of a run of a NAND share read. -/
def State.nandTouch (s : State) (pt : Part) (off n : Nat) : State := (s.nandBlocks pt off n).foldl State.readBlock s

/-- A codeword needed more than two retries. -/
def nandWeak (env : List Strike) : Bool := env.any (fun e => match e with | .nandRetry n => decide (2 < n) | _ => false)

/-- What the environment reports of the codewords of a NAND read, counted; the blocks with a codeword that needed more than two retries are to be
refreshed (R260, R261). -/
def State.nandErrors (s : State) (bs : List Nat) (env : List Strike) : State :=
  let s1 := if nandRetries env = 0 then s else s.bump .nt 0 0x10 (nandRetries env)
  let s2 := if nandStruck env = 0 then s1 else s1.bump .nt 0 0x14 (nandStruck env)
  if nandWeak env then s2.setNand { s2.nand with weak := (s2.nand.weak ++ bs).eraseDups } else s2

/-- A NAND read, and whether it failed. -/
def State.nandFind (s : State) (pt : Part) (off n : Nat) (env : List Strike) : State × Bool :=
  ((s.nandTouch pt off n).nandErrors (s.nandBlocks pt off n) env, decide (0 < nandStruck env) || s.nandLost off n)

/-- A shard that cannot be read: it is fetched again from its source and rewritten, and the step is replayed then (R260). -/
def State.shardLost (s : State) (p : Nat) (pt : Part) : State :=
  (match pt.image with
   | some im => s.refetchShard p im
   | none => s).failStep p .uncorrectable true

/-- Bytes of a NAND share as they reach their reader: those of a sealed shard pass the inline SM4 engine (R130, R258). -/
def State.plainNand (s : State) (pt : Part) (a n : Nat) : Option Bytes :=
  (s.nandRead pt a n).map (fun bs =>
    match pt.image with
    | none => bs
    | some im =>
      if im.shardSealed then
        let o := pt.shardOff im
        let sh := pt.plainShard im
        (List.range n).map (fun i => if o ≤ a + i && a + i < o + im.shard.length then sh.getD (a + i - o) 0 else bs.getD i 0)
      else bs)

/-- A loan of the partition in effect. -/
def Part.loan (pt : Part) (i : Nat) : Option Loan := pt.loans.find? (fun l => l.id == i && l.active)

/-- Bytes that a transfer reads from byte `off` of one of its ends, for a tile of partition `p`. A sealed shard is decrypted on the way in
(R258). -/
def State.endRead (s : State) (p t : Nat) (pt : Part) (e : DmaEnd) (off n : Nat) : State × Option Bytes :=
  match e with
  | .rows u r =>
    let f := s.readRuns p u [(r + off / 512, (off % 512 + n + 511) / 512)]
    if f.2 then (f.1.failStep p .uncorrectable false, none) else (f.1, some (s.scratchBytes u (512 * r + off) n))
  | .dram o => (s.touchShare (quadPort t) pt (o + off) n).sharePull p pt (n / 512 + 2) (o + off) n
  | .loan i o =>
    match pt.loan i with
    | none => (s.boundFail p, none)
    | some l =>
      if l.extents * 2 ^ 28 < o + off + n then (s.boundFail p, none) else (s, some (Mem.readN 0#8 l.mem (o + off) n))
  | .nand o =>
    match s.plainNand pt (o + off) n with
    | none => (s.boundFail p, none)
    | some bs =>
      let s1 := s.nandTouch pt (o + off) n
      if s.nandLost (o + off) n then (s1.shardLost p pt, none) else (s1, some bs)

/-- Bytes written in a tile's scratchpad: every row that they touch is written, and loses its struck errors (R110). -/
def State.scratchWrite (s : State) (t a : Nat) (bs : Bytes) : State :=
  (s.setScratch (Mem.writeN 0#8 s.mem.scratch (scratchKey t a) bs)).modTile t (fun v =>
    { v with bad := NMap.eraseRange v.bad (64 * (a / 512)) (64 * ((a + bs.length + 511) / 512)) })

/-- The bursts of a run of a share that a write covers in part, read to be merged (R251): whether one was uncorrectable. -/
def State.mergeFind (s : State) (pt : Part) (off n : Nat) : State × Bool :=
  let one := fun (a : State × Bool) (b : Nat) => let f := a.1.shareReadChecked pt (64 * b) 64; (f.1, a.2 || f.2.2)
  let a := if off % 64 = 0 && 64 ≤ n then (s, false) else one (s, false) (off / 64)
  if (off + n) % 64 = 0 || ((off + n) / 64 = off / 64 && (off % 64 ≠ 0 || n < 64)) then a else one a ((off + n) / 64)

/-- Bytes of a loan replaced. -/
def State.writeLoan (s : State) (p i a : Nat) (bs : Bytes) : State :=
  s.modPart p (fun pt => { pt with loans := pt.loans.map (fun l => if l.id == i then { l with mem := Mem.writeN 0#8 l.mem a bs } else l) })

/-- Bytes that a transfer writes from byte `off` of one of its ends. No new data is placed in a loan under notice or being returned (R268,
R269): the step fails instead (DESIGN CHOICE, log entry 91). -/
def State.endWrite (s : State) (p t : Nat) (pt : Part) (e : DmaEnd) (off : Nat) (bs : Bytes) : State :=
  match e with
  | .rows u r => s.scratchWrite u (512 * r + off) bs
  | .dram o =>
    let f := s.mergeFind pt (o + off) bs.length
    if f.2 then f.1.shareFail p pt (o + off)
    else
      match f.1.shareWrite pt (o + off) bs with
      | some s1 => s1.touchShare (quadPort t) pt (o + off) bs.length
      | none => s.boundFail p
  | .loan i o =>
    match pt.loan i with
    | none => s.boundFail p
    | some l =>
      if l.extents * 2 ^ 28 < o + off + bs.length then s.boundFail p
      else if l.notice || l.returning then s.failStep p .notPermitted false
      else s.writeLoan p i (o + off) bs
  | .nand _ => s

/-! ## The tile DMA (R247, R130) -/

/-- A run of the share that lies outside the state area, which no instruction may name (R204). -/
def Part.offState (pt : Part) (o n : Nat) : Bool := decide (o + n ≤ pt.layout.state) || decide (pt.layout.bitmap ≤ o)

/-- A run of the share that covers no page of a closed sheet, which is never written again (R160). -/
def Part.offClosed (pt : Part) (o n : Nat) : Bool :=
  match pt.image with
  | none => true
  | some im => pt.sheets.all (fun e => !e.2.closed || apart (o, n) (pageOff im pt.layout e.1 0, im.layers * im.pageBytes))

/-- An end of a transfer of tile `t` that the install-time checks let through: rows of the tile or of a quad neighbour within the
scratchpad; a destination is rows or LPDDR5X (R98, R112, R160, R204, R247). The slots of pods begin at a multiple of 8 rows or of 4 KiB
(R116). -/
def State.endOk (s : State) (t : Nat) (pt : Part) (isDst pods : Bool) (rows : Nat) : DmaEnd → Bool
  | .rows u r => decide (u / 4 = t / 4) && s.tileWorks u && decide (r + rows ≤ 2048) && (!pods || r % 8 == 0)
  | .dram o => o % (if pods then 4096 else 512) == 0 && pt.offState o (512 * rows) && (!isDst || pt.offClosed o (512 * rows))
  | .loan _ o | .nand o => !isDst && o % (if pods then 4096 else 512) == 0

/-- A transfer that has one end in tile `t`. -/
def DmaOp.touches (op : DmaOp) (t : Nat) : Bool :=
  (match op.src with | .rows u _ => u == t | _ => false) || (match op.dst with | .rows u _ => u == t | _ => false)

/-- Pods moved one by one: TENSOR, TAG and HEADER are checked, and the stored units alone are written (R130). -/
def State.movePods (s : State) (p t : Nat) (pt : Part) (op : DmaOp) (hdr : DmaEnd) (first : Nat) (h : PodTensor) (env : List Strike) :
    List Nat → State
  | [] => s
  | i :: is =>
    let tg := s.endRead p t pt hdr (16 + 4 * (first + i)) 4
    match tg.2 with
    | none => tg.1
    | some tb =>
      let tag : Word := BitVec.ofNat 32 (ofBe tb)
      let sl := tg.1.endRead p t pt op.src (4096 * i) (64 * min 64 (tagUnits tag))
      match sl.2 with
      | none => sl.1
      | some bs =>
        match podMoveCheck h tag bs with
        | some c => sl.1.podFault p t (match op.src with | .nand _ => 3 | .loan _ _ => 2 | _ => 1) (c, first + i) (podReaders env)
        | none =>
          let s1 := sl.1.endWrite p t pt op.dst (4096 * i) bs
          if s1.stepFailed p then s1 else State.movePods s1 p t pt op hdr first h env is

/-- The rows or pods of a transfer moved. -/
def State.moveRows (s : State) (p t : Nat) (pt : Part) (op : DmaOp) (env : List Strike) : State :=
  match op.pods with
  | some (hdr, first, num) =>
    let f := s.endRead p t pt hdr 0 16
    match f.2 with
    | none => f.1
    | some hb => f.1.movePods p t pt op hdr first (PodTensor.parse hb) env (List.range num)
  | none =>
    let f := s.endRead p t pt op.src 0 (512 * op.rows)
    match f.2 with
    | none => f.1
    | some bs => f.1.endWrite p t pt op.dst 0 bs

/-- A transfer run: what a read of the NAND tier meets is counted once for it, and one that meets a codeword that failed every attempt moves
nothing. -/
def State.runDma (s : State) (p t : Nat) (pt : Part) (op : DmaOp) (env : List Strike) : State :=
  match op.src with
  | .nand o =>
    let s1 := s.nandErrors (s.nandBlocks pt o (512 * op.rows)) env
    if nandStruck env = 0 then s1.moveRows p t pt op env else s1.shardLost p pt
  | _ => s.moveRows p t pt op env

/-- The stall that a SYNC on a transfer counts (Table 5 of Memory tiers). -/
def State.stallOf (s : State) (t : Nat) (op : DmaOp) (env : List Strike) : Option Nat :=
  let held := s.dram.throttled.any (fun e => e.1 == t / 4)
  match op.src, op.dst with
  | .nand _, _ => some (if nandRetries env = 0 then 0 else 1)
  | .loan _ _, _ => some 2
  | .dram _, _ => if held then some 4 else none
  | .rows _ _, .dram _ => if held then some 4 else none
  | .rows _ _, _ => none

/-- A transfer of tile `t` within the rules of its ends. -/
def State.dmaOk (s : State) (t : Nat) (pt : Part) (op : DmaOp) : Bool :=
  decide (1 ≤ op.rows) && decide (op.rows ≤ 2048) && DmaOp.touches op t && s.endOk t pt false op.pods.isSome op.rows op.src &&
    s.endOk t pt true op.pods.isSome op.rows op.dst && (s.tile t).dmaQ.all (fun q => q.op.id != op.id) &&
    (match op.pods with
     | some (hdr, first, n) => op.rows == 8 * n && s.endOk t pt false false ((16 + 4 * (first + n) + 511) / 512) hdr
     | none => true)

/-- A transfer that waits: the DMA queue of its tile holds 16 (R83). -/
def State.dmaWaits (s : State) (t : Nat) : Bool := decide (16 ≤ (s.tile t).dmaQ.length)

/-- A transfer: it stands in the tile's queue until DMA_COMPLETE. -/
def State.doDma (s : State) (t : Nat) (op : DmaOp) (env : List Strike) : State :=
  let p := s.owner t
  match s.part p with
  | none => s
  | some pt =>
    let s1 := (s.strike env).pathErrors p env
    if s1.stepFailed p then s1
    else
      let s2 := (s1.modTile t (fun v => { v with dmaQ := v.dmaQ ++ [{ op := op, cause := none }] })).runDma p t pt op env
      let c := s2.stallOf t op env
      s2.modTile t (fun v => { v with dmaQ := v.dmaQ.map (fun q => if q.op.id == op.id then { q with cause := c } else q) })

/-- DMA: rows between the scratchpad and LPDDR5X, a loan, the NAND tier or a quad neighbour (R247, R248). -/
def execDma (t : Nat) (op : DmaOp) (env : List Strike) (s : State) : Res :=
  match s.part (s.owner t) with
  | none => impossible "the tile belongs to no partition"
  | some pt =>
    require (s.tileWorks t && s.dmaOk t pt op) "no such transfer"
      (s.issue (s.owner t) (bayOf t) (.dma t op env) (s.dmaWaits t) (s.doDma t op env))

/-- A transfer of a tile has completed: it leaves the queue. -/
def State.endDma (s : State) (t id : Nat) : State :=
  s.modTile t (fun v => { v with dmaQ := v.dmaQ.filter (fun q => q.op.id != id) })

/-- Rows filled with a 64-bit constant, least significant byte first. -/
def State.doFill (s : State) (t row count : Nat) (c : Dword) : State :=
  s.writeRows t row count ((List.range (64 * count)).flatMap (fun _ => leBytes 8 c.toNat))

/-- FILL: a 64-bit constant across each of `count` rows (R107). -/
def execFill (t row count : Nat) (c : Dword) (s : State) : Res :=
  require (s.tileWorks t && decide (1 ≤ count) && decide (row + count ≤ 2048)) "no such fill"
    (s.issue (s.owner t) (bayOf t) (.fill t row count c) (s.dmaWaits t) (s.doFill t row count c))

/-- Rows copied one by one, each read with its errors found; a row that is uncorrectable fails the step. -/
def State.copyRows (s : State) (p t src dst : Nat) : List Nat → State
  | [] => s
  | i :: is =>
    let f := s.engineRows p t (src + i) 1
    match f.2 with
    | none => f.1
    | some bs => State.copyRows (f.1.writeRow t (dst + i) bs) p t src dst is

/-- Rows copied within a tile, in increasing order when d ≤ s and in decreasing order otherwise (R108). -/
def State.doCopy (s : State) (t src dst count : Nat) (env : List Strike) : State :=
  let s1 := (s.strike env).pathErrors (s.owner t) env
  if s1.stepFailed (s.owner t) then s1
  else s1.copyRows (s.owner t) t src dst (if dst ≤ src then List.range count else (List.range count).reverse)

/-- COPY: rows within a tile (R108). -/
def execCopy (t src dst count : Nat) (env : List Strike) (s : State) : Res :=
  require (s.tileWorks t && decide (1 ≤ count) && decide (src + count ≤ 2048) && decide (dst + count ≤ 2048)) "no such copy"
    (s.issue (s.owner t) (bayOf t) (.copy t src dst count env) (s.dmaWaits t) (s.doCopy t src dst count env))

/-! ## Compress on store (R128, R129) -/

/-- The stores of a bay. -/
def State.bayStores (s : State) (bay : Nat) : List PodStore := NMap.get [] s.pods bay

/-- The stores of a bay replaced. -/
def State.putStores (s : State) (bay : Nat) (qs : List PodStore) : State := s.setPods (NMap.put [] s.pods bay qs)

/-- The raw bytes of block `pod` of a tensor, of the bytes of eight rows: past the tensor's raw length zero (R116). -/
def blockBytes (h : PodTensor) (pod : Nat) (bs : Bytes) : Bytes :=
  let n := h.rawBytes - 4096 * pod
  if n < 4096 then bs.take n ++ List.replicate (4096 - min n 4096) 0#8 else bs

/-- A store's rows read, coded in the mode that its tensor's header allows (R120), and its units written; its tag is to follow. -/
def State.runStore (s : State) (bay : Nat) (q : PodStore) : State :=
  match s.part q.part with
  | none => s
  | some pt =>
    let g := s.endRead q.part q.tile pt q.tag 0 16
    match g.2 with
    | none => g.1
    | some hb =>
      let h := PodTensor.parse hb
      let f := g.1.engineRows q.part q.tile q.row 8
      match f.2 with
      | none => f.1
      | some bs =>
        let e := podEncode (if h.fixedEn then some h.table else none) (blockBytes h q.pod bs)
        let s1 := f.1.endWrite q.part q.tile pt q.dst 0 e.2
        if s1.stepFailed q.part then s1
        else s1.putStores bay (s1.bayStores bay ++ [{ q with held := false, tagWord := e.1 }])

/-- A destination that R128 allows a store of tile `t`: a slot of LPDDR5X or of a loan, or of the scratchpad of a tile of the same partition
in the engine's bay (R112). Slots begin at a multiple of 8 rows or of 4 KiB (R116), tag planes with a row or a burst. -/
def State.storeDst (s : State) (t : Nat) (pt : Part) (slot : Bool) (n : Nat) : DmaEnd → Bool
  | .rows u r => s.tileWorks u && s.owner u == s.owner t && bayOf u == bayOf t && decide (r + n ≤ 2048) && (!slot || r % 8 == 0)
  | .dram o => o % (if slot then 4096 else 64) == 0 && pt.offState o (512 * n)
  | .loan _ o => o % (if slot then 4096 else 64) == 0
  | .nand _ => false

/-- A store: it runs, or is held while another to its slot has not written its tag (R129). -/
def State.doStore (s : State) (t row : Nat) (dst tag : DmaEnd) (pod : Nat) (env : List Strike) : State :=
  let p := s.owner t
  let s1 := (s.strike env).pathErrors p env
  if s1.stepFailed p then s1
  else
    let q : PodStore := { part := p, tile := t, row := row, dst := dst, tag := tag, pod := pod, held := true, tagWord := 0 }
    if s1.pods.any (fun e => e.2.any (fun r => r.part == p && r.dst == dst)) then s1.putStores (bayOf t) (s1.bayStores (bayOf t) ++ [q])
    else s1.runStore (bayOf t) q

/-- COMPRESS_ON_STORE: eight rows of a tile become a pod of a slot; a second store to the slot is held until the first has written its
tag (R128, R129). `tag` is the tensor's tag plane. -/
def execCompressOnStore (t row : Nat) (dst tag : DmaEnd) (pod : Nat) (env : List Strike) (s : State) : Res :=
  match s.part (s.owner t) with
  | none => impossible "the tile belongs to no partition"
  | some pt =>
    require (s.tileWorks t && decide (row + 8 ≤ 2048) && s.storeDst t pt true 8 dst && s.storeDst t pt false ((20 + 4 * pod + 511) / 512) tag)
      "no such store"
      (s.issue (s.owner t) (bayOf t) (.compressOnStore t row dst tag pod env) (s.dmaWaits t) (s.doStore t row dst tag pod env))

/-- The counters of a pod that has been written (R132). -/
def State.countPod (s : State) (p : Nat) (tag : Word) : State :=
  match tagMode tag with
  | .raw => (s.bump .pod p 0x08 1).bump .pod p 0x18 64
  | .fixed => (s.bump .pod p 0x0C 1).bump .pod p 0x18 (tagUnits tag)
  | .local_ => (s.bump .pod p 0x10 1).bump .pod p 0x18 (tagUnits tag)
  | .const => s.bump .pod p 0x14 1

/-- The first stored pod of a bay gets its tag and is valid; a held store to its slot goes on (R129), of several bays that of the
lowest-numbered one (DESIGN CHOICE, log entry 87). -/
def State.writeTag (s : State) (bay : Nat) (pt : Part) (q : PodStore) : State :=
  let s1 := ((s.putStores bay ((s.bayStores bay).erase q)).endWrite q.part q.tile pt q.tag (16 + 4 * q.pod)
    (beBytes 4 q.tagWord.toNat)).countPod q.part q.tagWord
  match s1.pods.findSome? (fun e => (e.2.find? (fun r => r.held && r.part == q.part && r.dst == q.dst)).map (fun r => (e.1, r))) with
  | none => s1
  | some (b, r) => (s1.putStores b ((s1.bayStores b).erase r)).runStore b r

/-! ## The commit of a stream's chunk (R198, R200 to R202) -/

/-- Pair `c` of slot `slot` belongs to a stream-operator layer of this stage (R193). -/
def Image.pairUsed (im : Image) (slot c : Nat) : Bool :=
  im.slotMap.any (fun e => within im.firstLayer (im.firstLayer + im.layers - 1) e.1 && e.2.1 == slot && decide (e.2.2.1 ≤ c) &&
    decide (c < e.2.2.1 + e.2.2.2))

/-- A slot's pairs advanced by one position (R198): an overwrite with zeros at a mark, otherwise twin_mul; then twin_add. -/
def Tile.advance (v : Tile) (used : Nat → Bool) (mark : Bool) (a x : List Word) : Tile :=
  v.mapPairs (fun c q =>
    if used c then twinAddPair (if mark then (0, 0) else twinMulPair q (a.getD c 0)) (x.getD c 0) else (0, 0))

/-- A slot's pairs after positions with the coefficient and addend vectors given. -/
def Tile.advanceAll (v : Tile) (used : Nat → Bool) (marks : List Nat) (ps : List (List Word × List Word)) : Tile :=
  (List.range ps.length).foldl (fun v i => v.advance used (marks.contains i) (ps.getD i ([], [])).1 (ps.getD i ([], [])).2) v

/-- Where a commit of tile `t` may take a vector from (R200): rows of the tile, or the partition's LPDDR5X share. -/
def planeOk (t : Nat) (pt : Part) : DmaEnd → Bool
  | .rows u r => u == t && decide (r + 8 ≤ 2048)
  | .dram o => o % 512 == 0 && decide (o + 4096 ≤ pt.shareBytes) && pt.offState o 4096
  | _ => false

/-- A vector of a commit: 1,024 words of 8 rows; none where it is uncorrectable (R211). -/
def State.planeRead (s : State) (p t : Nat) (pt : Part) (e : DmaEnd) : State × Option (List Word) :=
  match e with
  | .rows u r =>
    let f := s.eccFind p u r 8
    (f.1, if f.2 then none else some (wordsOfBytes 1024 (s.rows u r 8)))
  | .dram o =>
    let f := (s.touchShare (quadPort t) pt o 4096).shareReadChecked pt o 4096
    (f.1, f.2.1.map (wordsOfBytes 1024))
  | _ => (s, none)

/-- The vectors of a commit's positions, in order; none where one is uncorrectable. -/
def State.readPlanes (s : State) (p t : Nat) (pt : Part) : List (DmaEnd × DmaEnd) → State × Option (List (List Word × List Word))
  | [] => (s, some [])
  | (a, x) :: ps =>
    let f := s.planeRead p t pt a
    let g := f.1.planeRead p t pt x
    match f.2, g.2 with
    | some ws, some vs => let r := g.1.readPlanes p t pt ps; (r.1, r.2.map ((ws, vs) :: ·))
    | _, _ => (g.1, none)

/-- The tile of a slot of a bound stream whose commit the step still owes. -/
def State.commitTile (s : State) (p handle slot : Nat) : Option Nat :=
  match (s.part p).bind (fun pt => NMap.find pt.streams handle) with
  | some v => if v.st == .bound && v.current.isSome && !v.committed.contains slot then v.tiles[slot]? else none
  | none => none

/-- A commit's outcome recorded: the slot has committed, its non-finite flag, the marks counted with the first commit (R201, R202). -/
def Part.committed (pt : Part) (handle slot : Nat) (marks : List Nat) (bad : Bool) : Part :=
  match NMap.find pt.streams handle with
  | none => pt
  | some v =>
    { pt with
      streams := NMap.insert pt.streams handle
        { v with committed := slot :: v.committed,
                 nonfinite := (v.nonfinite.filter (· != slot)) ++ (if bad then [slot] else []) },
      step := pt.step.map (fun w =>
        { w with strmReset := w.strmReset + (if v.committed.isEmpty then marks.eraseDups.length else 0),
                 strmNonfinite := w.strmNonfinite + (if bad then 1 else 0) }) }

/-- The carried state of a slot advanced over its stream's chunk. -/
def State.doCommit (s : State) (p handle slot : Nat) (planes : List (DmaEnd × DmaEnd)) (env : List Strike) : State :=
  match s.part p, s.commitTile p handle slot with
  | some pt, some t =>
    match NMap.find pt.streams handle, pt.image with
    | some v, some im =>
      let s1 := (s.strike env).pathErrors p env
      if s1.stepFailed p then s1
      else
        let f := s1.readPlanes p t pt planes
        match f.2 with
        | none => f.1.endWork p [handle] .uncorrectable
        | some ps =>
          let marks := (v.current.map (·.marks)).getD []
          let s2 := f.1.modTile t (fun w => w.advanceAll (im.pairUsed slot) marks ps)
          let bad := (List.range 1024).any (fun c => nonFinite ((s2.tile t).bank0.cell c))
          s2.modPart p (fun q => q.committed handle slot marks bad)
    | _, _ => s
  | _, _ => s

/-- STREAM_COMMIT: the carried state of a slot of a bound stream advanced over its chunk, whose coefficient and addend vectors stand where
`planes` says, one pair per position (R198, R200). -/
def execStreamCommit (p handle slot : Nat) (planes : List (DmaEnd × DmaEnd)) (env : List Strike) (s : State) : Res :=
  match s.part p, s.commitTile p handle slot with
  | some pt, some t =>
    let n := ((NMap.find pt.streams handle).bind (·.current)).map (·.positions)
    require (pt.step.isSome && n == some planes.length && planes.all (fun e => planeOk t pt e.1 && planeOk t pt e.2)) "no such commit"
      (s.issue p (bayOf t) (.streamCommit p handle slot planes env) (s.pairsWait t) (s.doCommit p handle slot planes env))
  | _, _ => impossible "the step owes no such commit"

/-! ## LINK instructions (R55 to R58) -/

/-- Rows that one token row of `width` elements takes, FP32 or BF16. -/
def tokenRows (width : Nat) (fp32 : Bool) : Nat := (width * (if fp32 then 4 else 2) + 511) / 512

/-- The values of one token row. -/
def tokenWords (width : Nat) (fp32 : Bool) (bs : Bytes) : List Word :=
  (List.range width).map (fun i =>
    if fp32 then BitVec.ofNat 32 (ofLe (slice bs (4 * i) 4)) else toF32 (FFmt.bf16.decode (ofLe (slice bs (2 * i) 2))))

/-- What narrowing adds to a step: saturations, NaNs (R57, R58). -/
abbrev NarrowCount := Nat × Nat

/-- One token row narrowed in blocks of 32 (R57): the scale bytes, then the packed elements. -/
def narrowMx (fmt : Nat) (xs : List Word) : Bytes × NarrowCount :=
  let nb := (xs.length + 31) / 32
  let bl := (List.range nb).map (fun b => mxBlock fmt ((List.range 32).map (fun j => f32 (xs.getD (32 * b + j) 0))))
  (bl.map Prod.fst ++ bl.flatMap (fun r => packCodes (elemBits fmt) r.2.1),
    ((bl.map (fun r => r.2.2.1)).sum, (bl.filter (fun r => r.2.2.2)).length))

/-- Values narrowed under a step's scale (R58). -/
def narrowFp8 (f : FFmt) (sc : Word) (xs : List Word) : Bytes × NarrowCount :=
  let es := xs.map (fp8tElem f sc)
  (es.map (fun e => BitVec.ofNat 8 e.1), ((es.filter (fun e => e.2.1)).length, (es.filter (fun e => e.2.2)).length))

/-- The FP8 format of a format code. -/
def fp8Of (fmt : Nat) : FFmt := if fmt = 4 then FFmt.e4m3 else FFmt.e5m2

/-- The message of `count` token rows in a boundary's mode: 0 NONE, 1 MX, 2 FP8T with its scale first, big-endian (R5). -/
def narrowTokens (mode fmt : Nat) (sc : Word) (width : Nat) (fp32 : Bool) (rows : List Bytes) : Bytes × NarrowCount :=
  let add := fun (a b : Bytes × NarrowCount) => (a.1 ++ b.1, (a.2.1 + b.2.1, a.2.2 + b.2.2))
  match mode with
  | 0 => (rows.flatMap (fun r => r.take (width * (if fp32 then 4 else 2))), (0, 0))
  | 1 => (rows.map (fun r => narrowMx fmt (tokenWords width fp32 r))).foldl add ([], (0, 0))
  | _ => (rows.map (fun r => narrowFp8 (fp8Of fmt) sc (tokenWords width fp32 r))).foldl add (beBytes 4 sc.toNat, (0, 0))

/-- The device numbers of a partition's ring, in order of ring position (R178). -/
def State.ringOf (s : State) (p : Nat) : List Nat :=
  (((s.part p).bind (·.image)).map (fun im => im.ring s.veolo.num)).getD []

/-- This module's ring position. -/
def State.ringPos (s : State) (p : Nat) : Nat := (s.ringOf p).findIdx (· == s.veolo.num)

/-- The larger of two magnitudes. -/
def maxF32 (a b : Word) : Word := if FVal.lt (f32 a) (f32 b) then b else a

/-- Scratchpad rows of one token row or ring row of a LINK instruction. -/
def linkRows (cls : LClass) (width : Nat) (fp32 : Bool) : Nat := if cls = .activation then tokenRows width fp32 else 1

/-- A message sent where a LINK instruction names (R26, R148, R180): 0 X+, 1 X−, 2 Y+, 3 Y− the neighbour, 4 + k the ring member k places
on. -/
def State.linkTo (s : State) (dir : Nat) (cls : LClass) (p : Nat) (bs : Bytes) : State :=
  if dir < 4 then s.sendMessage dir cls p bs
  else s.sendTo ((s.ringOf p).getD ((s.ringPos p + (dir - 4)) % (s.ringOf p).length) s.veolo.num) cls p bs

/-- Rows sent; activations are narrowed as the boundary's mode says (R55 to R58). -/
def State.doLinkSend (s : State) (t : Nat) (cls : LClass) (dir row count width : Nat) (fp32 : Bool) (env : List Strike) : State :=
  let p := s.owner t
  let per := linkRows cls width fp32
  let s1 := (s.strike env).pathErrors p env
  if s1.stepFailed p then s1
  else
    let f := s1.engineRows p t row (count * per)
    match f.2 with
    | none => f.1
    | some bs =>
      let ctl := s.reg .narrow p 0
      let rows := (List.range count).map (fun i => slice bs (512 * per * i) (512 * per))
      let mode := if cls = .activation then ctl.field 1 0 else 0
      let m := if cls = .activation then narrowTokens mode (ctl.field 12 8) (s.reg .narrow p 0x04) width fp32 rows else (bs, (0, 0))
      let am := toF32 (amaxOf (if mode = 0 then [] else rows.flatMap (fun r => (tokenWords width fp32 r).map f32)))
      (f.1.linkTo dir cls p m.1).modPart p (fun pt => { pt with step := pt.step.map (fun v =>
        { v with sat := v.sat + m.2.1, nan := v.nan + m.2.2, amax := maxF32 v.amax am }) })

/-- LINK_SEND: rows to a neighbour's partition, or in the ring and collective classes to a member of the ring (R55 to R58, R180). -/
def execLinkSend (t : Nat) (cls : LClass) (dir row count width : Nat) (fp32 : Bool) (env : List Strike) (s : State) : Res :=
  require (s.tileWorks t && (cls == .activation || cls == .ring || cls == .collective) &&
      (decide (dir < 4) || (cls != .activation && decide (dir - 4 < (s.ringOf (s.owner t)).length))) && decide (1 ≤ count) &&
      decide (1 ≤ width) && decide (row + count * linkRows cls width fp32 ≤ 2048)) "no such send"
    (s.issue (s.owner t) (bayOf t) (.linkSend t cls dir row count width fp32 env) false
      (s.doLinkSend t cls dir row count width fp32 env))

/-- Elements of one token row widened (R56): the mode, the format, the scale and the row's part of the message. A finite value beyond FP32
saturates (R44). -/
def widenRow (mode fmt : Nat) (sc : Word) (width : Nat) (fp32 : Bool) (bs : Bytes) : List Word :=
  let nb := (width + 31) / 32
  (List.range width).map (fun i =>
    match mode with
    | 0 => (tokenWords width fp32 bs).getD i 0
    | 1 =>
      match mxExponent (bs.getD (i / 32) 0) with
      | none => toF32 .nan
      | some x =>
        let k := 4 * elemBits fmt
        toF32s (FVal.scale x (elemValue fmt (fun o => bs.getD (nb + k * (i / 32) + o) 0) (i % 32)))
    | _ => toF32s (FVal.mul (f32 (toF32 ((fp8Of fmt).decode (bs.getD i 0).toNat))) (f32 sc)))

/-- Bytes of one token row on a link (Table 5 of Number formats). -/
def linkRowBytes (mode fmt width : Nat) (fp32 : Bool) : Nat :=
  match mode with
  | 0 => width * (if fp32 then 4 else 2)
  | 1 => (width + 31) / 32 * (1 + 4 * elemBits fmt)
  | _ => width

/-- A row of values stored as FP32 or converted to BF16 by R44. -/
def storeRow (fp32 : Bool) (ws : List Word) : Bytes :=
  if fp32 then bytesOfWords ws else ws.flatMap (fun w => leBytes 2 (FFmt.bf16.encode true .rne (f32 w)))

/-- How a boundary's activations are widened at a stage: mode and format (R55). -/
def Image.boundary (im : Image) : Nat × Nat :=
  if im.stage = 0 then (0, 0) else (im.stageField (im.stage - 1) 4 1, im.stageField (im.stage - 1) 5 1)

/-- Bytes of the activation message that a receive of `count` rows takes; in mode NONE its elements are FP32 or BF16 as the sender produced them. -/
def Image.messageBytes (im : Image) (count width : Nat) (fp32 : Bool) : Nat :=
  (if im.boundary.1 = 2 then 4 else 0) + count * linkRowBytes im.boundary.1 im.boundary.2 width fp32

/-- The message that a LINK receive takes: the first of its class from its direction for the partition, of activations one that holds what it
asks for. -/
def State.linkMessage (s : State) (p : Nat) (cls : LClass) (dir count width : Nat) : Option (Nat × LClass × Nat × Bytes) :=
  match (s.part p).bind (·.image) with
  | none => none
  | some im =>
    s.veolo.inbox.find? (fun m => m.1 == dir && m.2.1 == cls && m.2.2.1 == p &&
      (cls != .activation || m.2.2.2.length == im.messageBytes count width false || m.2.2.2.length == im.messageBytes count width true))

/-- The bytes of the rows that a received message fills. -/
def receivedRows (im : Image) (cls : LClass) (count width : Nat) (fp32 : Bool) (bs : Bytes) : Bytes :=
  if cls = .activation then
    let b := im.boundary
    let wide := bs.length == im.messageBytes count width true
    let head := if b.1 = 2 then 4 else 0
    let n := linkRowBytes b.1 b.2 width wide
    let sc := BitVec.ofNat 32 (ofBe (bs.take head))
    (List.range count).flatMap (fun i =>
      let ws := widenRow b.1 b.2 sc width wide (slice bs (head + n * i) n)
      let r := storeRow fp32 ws
      r ++ List.replicate (512 * tokenRows width fp32 - r.length) 0#8)
  else bs

/-- A message taken: activations are widened exactly in FP32, converted by R44 where the receiver stores BF16, and written to rows (R56). The
step keeps the message for a replay (R455; log entry 89). -/
def State.doLinkReceive (s : State) (t : Nat) (cls : LClass) (dir row count width : Nat) (fp32 : Bool) : State :=
  let p := s.owner t
  match (s.part p).bind (·.image), s.linkMessage p cls dir count width with
  | some im, some m =>
    ((s.writeRows t row (count * linkRows cls width fp32) (receivedRows im cls count width fp32 m.2.2.2)).setVeolo
      { s.veolo with inbox := s.veolo.inbox.erase m }).modPart p (fun pt =>
        { pt with step := pt.step.map (fun v => { v with taken := v.taken ++ [m] }) })
  | _, _ => s

/-- LINK_RECEIVE: a message of a class from a direction, for which the context waits until it has arrived (R55, R56). -/
def execLinkReceive (t : Nat) (cls : LClass) (dir row count width : Nat) (fp32 : Bool) (s : State) : Res :=
  require (s.tileWorks t && decide (1 ≤ count) && decide (1 ≤ width) && decide (row + count * linkRows cls width fp32 ≤ 2048))
    "no such receive"
    (s.issue (s.owner t) (bayOf t) (.linkReceive t cls dir row count width fp32)
      (s.linkMessage (s.owner t) cls dir count width).isNone (s.doLinkReceive t cls dir row count width fp32))

/-- The partition runs a step in a bay, and has not reached its END. -/
def Part.running (pt : Part) (bay : Nat) : Bool := pt.step.isSome && pt.bays.contains bay && !(pt.ctx bay).ended

/-- A tile of the partition's step has nothing left to retire. -/
def Tile.retired (v : Tile) : Bool :=
  v.matrixQ.isEmpty && v.dmaQ.isEmpty && v.launchQ.isEmpty && v.kernels.isEmpty && (v.twin || (v.bank0.st != .drain && v.bank1.st != .drain))

/-! ## The expert cache (R263, R264) -/

/-- The slot that a miss takes: the oldest last use among the slots not pinned, an empty one first, ties to the lower number. -/
def xVictim (mer : Nat) (xs : List XSlot) : Option Nat :=
  ((List.range xs.length).foldl (fun (best : Option (Nat × Nat)) i =>
    match xs[i]? with
    | none => best
    | some x =>
      if x.pinned.isSome || x.arriving then best
      else
        let age := if x.tensor.isNone then 2 ^ 32 else (mer + 2 ^ 32 - x.lastUse) % 2 ^ 32
        match best with
        | some (_, a) => if a < age then some (i, age) else best
        | none => some (i, age)) none).map Prod.fst

/-- The loan of the partition that holds a copy of a tensor of the image it is taken from (R267, R319). -/
def Part.copyLoan (pt : Part) (tensor : Nat) : Option Loan :=
  if pt.image.any (fun im => (pt.dir im).any (fun d => d.tensor == tensor && pt.replaced im d)) then none
  else pt.loans.find? (fun l => l.active && !l.notice && l.copies.contains tensor)

/-- A loan of the partition holds a copy of a tensor. -/
def Part.lentCopy (pt : Part) (tensor : Nat) : Bool := (pt.copyLoan tensor).isSome

/-- The stall of a fetch (Table 5 of Memory tiers). -/
def Part.fetchCause (pt : Part) (tensor : Nat) (env : List Strike) : Nat :=
  if pt.lentCopy tensor then 2 else if nandRetries env = 0 then 0 else 1

/-- A slot with no tensor. -/
def XSlot.empty : XSlot := { tensor := none, lastUse := 0, pinned := none, arriving := false, cause := 0, order := 0 }

/-- The slot of a tensor emptied. -/
def Part.emptySlot (pt : Part) (tensor : Nat) : Part :=
  { pt with xcache := pt.xcache.map (fun x =>
      if x.tensor == some tensor then XSlot.empty else x) }

/-- Where the slots of a tensor of the current image lie in the NAND share (log entry 25). -/
def Part.tensorNand (pt : Part) (im : Image) (tensor : Nat) : Nat × Nat :=
  match (pt.dir im).find? (fun d => d.tensor == tensor) with
  | some d => (pt.shardOff (pt.imageOf im d) + d.slotOff, d.slotBytes)
  | none => (0, 0)

/-- FETCH: a hit, or a miss that takes a slot and reads from a loan or the NAND tier (R264). A fetch that no source can serve ends the
sequences of the step and leaves its slot empty (R260). A fetch of a layer takes off the pins of the layers before the last, whose matrix
operations have retired (log entry 20). -/
def execFetch (p tensor layer : Nat) (env : List Strike) (s : State) : Res :=
  match s.part p with
  | none => impossible "no such partition"
  | some pt =>
    match pt.image with
    | none => impossible "no image"
    | some im =>
      require (pt.step.isSome && (pt.dir im).any (fun d => d.tensor == tensor && d.flash)) "no such flash-resident tensor"
        (let s1 := (s.strike env).pathErrors p env
         if s1.stepFailed p then .next s1
         else
           let xs := pt.xcache.map (fun x => if x.pinned.any (fun l => decide (l + 1 < layer)) then { x with pinned := none } else x)
           let use := fun (x : XSlot) => { x with pinned := some layer, lastUse := s.merCount p }
           if xs.any (fun x => x.tensor == some tensor) then
             .next ((s1.bump .tier p 0x18 1).modPart p (fun pt =>
               { pt with xcache := xs.map (fun x => if x.tensor == some tensor then use x else x) }))
           else
             match xVictim (s.merCount p) xs with
             | none => impossible "every slot is pinned"
             | some i =>
               let s2 := ((s1.bump .tier p 0x1C 1).modPart p (fun pt =>
                 { pt with xcache := xs.set i { tensor := some tensor, lastUse := s.merCount p, pinned := some layer, arriving := true,
                                                cause := pt.fetchCause tensor env, order := s.stamp } })).setStamp (s.stamp + 1)
               if pt.lentCopy tensor then .next s2
               else
                 let f := s2.nandFind pt (pt.tensorNand im tensor).1 (pt.tensorNand im tensor).2 env
                 if f.2 && sourceLost env then
                   .next ((f.1.modPart p (fun pt => pt.emptySlot tensor)).endWork p (pt.seqs.map (·.handle)).eraseDups .tierFailed)
                 else .next f.1)

/-- Where a fetch takes a tensor from (R264): the copy in a loan, slots first and then the tag plane, or the shard. -/
def Part.fetchSource (pt : Part) (im : Image) (d : DirEntry) : Bytes × DirEntry :=
  match pt.copyLoan d.tensor with
  | some l => (Mem.readN 0#8 l.mem (copyOffset (pt.dir im) l.copies d.tensor) d.stored, { d with slotOff := 0, tagOff := d.slotBytes })
  | none => (pt.plainShard (pt.imageOf im d), d)

/-- A fetched tensor stands in its slot of the expert cache: its pods are checked, and their stored units moved (R130, R264). A pod that
fails a check empties the slot and fails the step (R131). -/
def State.endFetch (s : State) (p tensor : Nat) (pt : Part) (im : Image) (i : Nat) : State :=
  match (pt.dir im).find? (fun d => d.tensor == tensor) with
  | none => s
  | some d =>
    let from_ := pt.fetchSource im d
    let at_ := pt.layout.xcache + i * pt.layout.xslot
    match shardFault from_.1 from_.2 with
    | some e => (s.modPart p (fun pt => pt.emptySlot tensor)).podFault p 0 (if pt.lentCopy tensor then 2 else 3) e none
    | none =>
      ((s.storeTensor pt from_.1 from_.2 at_).touchShare fetchPort pt at_ d.stored).modPart p (fun pt =>
        { pt with xcache := pt.xcache.map (fun x => if x.tensor == some tensor then { x with arriving := false } else x) })

/-! ## The scrubber and the zero fill -/

/-- SCRATCHPAD_SCRUB: the row at the pointer is read; a corrected row is written back, an uncorrectable word only counted (R111). -/
def execScratchpadScrub (t : Nat) (env : List Strike) (s : State) : Res :=
  require (decide (t < 512)) "no such tile"
    (let s1 := s.strike env
     let r := (s1.tile t).scrubPtr
     let s2 :=
       match s.ownerOf t with
       | some p => (s1.eccFind p t r 1).1
       | none => s1
     .next (s2.modTile t (fun v =>
       { v with scrubPtr := (r + 1) % 2048, bad := v.bad.filter (fun e => e.2 || e.1 / 64 != r) })))

/-- TILE_ZERO_FILL: every row of a tile of no partition, or of a partition being cleared, or taken out, is zero (R109, R113). -/
def execTileZeroFill (t : Nat) (s : State) : Res :=
  require (decide (t < 512) && (s.tileOut t || match s.ownerOf t with
    | none => true
    | some p => (s.part p).any Part.clearing)) "the tile has engine requests"
    (.next (s.clearTile t))

end Sys2Proof.Machine
end

