-- ==== Sys2Proof/Machine/Tables.lean ====
section
/-!
DEFINITION. The table stores (R86 to R92) and the mask bitmaps (R173): loads carried out one at a time, their bank rule, the swap at the
meridian and the copy after it.
-/
namespace Sys2Proof

open Sys2Proof.Machine

/-- Slot, row and count lie within Table 8 of The tile, and the bank is a code that Table 12 gives (R92). -/
def LoadOp.ok (op : LoadOp) : Bool :=
  decide (op.kind < 3) && (op.bank == 0 || op.bank == 2 || op.bank == 3) && decide (op.slot < (tableKind op.kind).2.2) &&
    decide (1 ≤ op.rows) && decide (op.rows ≤ 32) && decide (512 * (op.row + op.rows) ≤ (tableKind op.kind).2.1)

end Sys2Proof

namespace Sys2Proof.Machine

open Sys2Proof

/-- A bank code names the bank that is active (R87): 0 SHADOW, 2 bank 0, 3 bank 1. -/
def namesActive (bank active : Nat) : Bool := (bank == 2 && active == 0) || (bank == 3 && active == 1)

/-- The status of the last load (TBL_STATUS.LAST_STATUS). -/
def State.lastLoad (s : State) (p : Nat) (st : Status) : State := s.putField .tbl p 0x10 15 0 (Status.code st)

/-- A load refused with TABLE_BUSY (R87). -/
def State.tableBusy (s : State) (p : Nat) : State := (s.bump .tbl p 0x14 1).lastLoad p .tableBusy

/-- Waiting loads started in their order, as far as none runs and no copy of their kind does (R88, R89). `n` bounds their number. -/
def State.pumpLoads (s : State) (p : Nat) : Nat → State
  | 0 => s
  | n + 1 =>
    match s.part p with
    | none => s
    | some pt =>
      match pt.load, pt.loadQ with
      | none, j :: js =>
        if pt.copying.getD j.op.kind false then s
        else
          let s1 := s.modPart p (fun v => { v with loadQ := js })
          if namesActive j.op.bank (pt.activeBank j.op.kind) then
            (if j.bay.isNone then (s1.tableBusy p).pushGo 1 p .tableBusy else s1.tableBusy p).pumpLoads p n
          else s1.modPart p (fun v => { v with load := some j })
      | _, _ => s

/-- A load joins the others in order of arrival (R88). -/
def State.addLoad (s : State) (p : Nat) (j : LoadJob) : State :=
  match s.part p with
  | none => s
  | some pt => (s.modPart p (fun v => { v with loadQ := v.loadQ ++ [j] })).pumpLoads p (pt.loadQ.length + 1)

/-- A load's rows written into the shadow bank of every target tile (R87). -/
def Tile.loadRows (v : Tile) (bank : Nat) (j : LoadJob) : Tile :=
  { v with tables := Mem.writeN 0#8 v.tables (tableKey bank j.op.kind j.op.slot (512 * j.op.row)) (j.rows.take (512 * j.op.rows)) }

/-- The running load completes (R88): its rows stand in the shadow bank, and its swap is staged. -/
def State.finishLoad (s : State) (p : Nat) (j : LoadJob) : State :=
  match s.part p with
  | none => s
  | some pt =>
    let ts := match j.op.quad with | some q => quadTiles q | none => pt.tiles
    let s1 := if j.bay.isNone then s.pushGo 1 p .ok else s
    ((ts.foldl (fun s t => s.modTile t (fun v => v.loadRows (1 - pt.activeBank j.op.kind) j)) s1).lastLoad p .ok).modPart p (fun v =>
      { v with load := none, swapStaged := if j.op.swap then v.swapStaged.set j.op.kind true else v.swapStaged })

/-- Rows of a tile's scratchpad loaded into the table store (R87, R88). A load that waits carries the rows as they stood when it arrived
(DESIGN CHOICE, log entry 88). -/
def State.doTableLoad (s : State) (t srcRow : Nat) (op : LoadOp) (env : List Strike) : State :=
  let p := s.owner t
  let s1 := (s.strike env).pathErrors p env
  if s1.stepFailed p then s1
  else
    let f := s1.engineRows p t srcRow op.rows
    match f.2 with
    | none => f.1
    | some bs => f.1.addLoad p { op := op, rows := bs, bay := some (bayOf t) }

/-- TABLE_LOAD: rows of a tile's scratchpad loaded into the table store (R87, R88). -/
def execTableLoad (t srcRow : Nat) (op : LoadOp) (env : List Strike) (s : State) : Res :=
  require (s.tileWorks t && LoadOp.ok op && decide (srcRow + op.rows ≤ 2048) &&
      op.quad.all (fun q => ((s.part (s.owner t)).map (·.quads)).any (·.contains q))) "no such load"
    (s.issue (s.owner t) (bayOf t) (.tableLoad t srcRow op env) false (s.doTableLoad t srcRow op env))

/-- The bytes of a kind's slots in a bank: from, length. -/
def kindRange (bank kind : Nat) : Nat × Nat := (tableKey bank kind 0 0, (tableKind kind).2.1 * (tableKind kind).2.2)

/-- The active bank of a kind copied into the shadow bank (R89). -/
def Tile.copyKind (v : Tile) (active kind : Nat) : Tile :=
  let r := kindRange active kind
  let d := (kindRange (1 - active) kind).1
  { v with tables := Mem.writeN 0#8 (Mem.clear v.tables d r.2) d (Mem.readN 0#8 v.tables r.1 r.2) }

/-- The swaps of item 6 (R89): each kind staged that no load is writing; a copy of each starts. -/
def Part.swapTables (pt : Part) : Part :=
  (List.range 3).foldl (fun pt k =>
    if pt.swapStaged.getD k false && !(pt.load.any (fun j => j.op.kind == k)) then
      { pt with active := pt.active.set k (1 - pt.activeBank k), swapStaged := pt.swapStaged.set k false,
                copying := pt.copying.set k true, bmpCopying := pt.bmpCopying || k == 2 }
    else pt) pt

/-! ## Mask bitmaps (R173) -/

/-- Bytes of a half of the bitmap area. -/
def bitmapHalf : Nat := 2097152

/-- A bitmap load carried out: TABLE_BUSY where it names the half of the active mask bank, otherwise its bitmaps in the shadow half. -/
def State.runBitmap (s : State) (p : Nat) (pt : Part) (j : Nat × Nat × Bytes) : State × Status :=
  if namesActive j.1 (pt.activeBank 2) then (s.bump .tbl p 0x14 1, .tableBusy)
  else (s.shareStore pt (pt.layout.bitmap + (1 - pt.activeBank 2) * bitmapHalf + 2048 * j.2.1) j.2.2, .ok)

/-- The active half copied into the shadow half (R173). -/
def State.copyBitmaps (s : State) (p : Nat) : State :=
  match s.part p with
  | none => s
  | some pt =>
    let a := pt.activeBank 2
    match s.shareRead pt (pt.layout.bitmap + a * bitmapHalf) bitmapHalf with
    | none => s
    | some bs => s.shareStore pt (pt.layout.bitmap + (1 - a) * bitmapHalf) bs

end Sys2Proof.Machine
end

