-- ==== Sys2Proof/Machine/RegFile.lean ====
section
/-!
DEFINITION. Reading the registers (R6 to R9, R480, R481, R483, R487): the access of each register, who may read it, the value each shows,
and what a read clears.
-/
namespace Sys2Proof.Machine

open Sys2Proof

/-! ## The map (Tables 2 to 4 of the register reference) -/

/-- The offset holds a register of the block. -/
def Blk.occupied (b : Blk) (off : Nat) : Bool :=
  match b with
  | .dev => off == 0x100 || off == 0x104 || off == 0x108 || (decide (0x200 ≤ off) && decide (off ≤ 0x23C)) || off == 0x300 ||
      (decide (0x400 ≤ off) && decide (off ≤ 0x41C))
  | .clk => off == 0
  | .mer | .tierDev | .kpr => decide (off ≤ 0x08)
  | .reqDev | .evt => decide (off ≤ 0x04)
  | .tbl | .eth => decide (off ≤ 0x14)
  | .grat => decide (off ≤ 0x38)
  | .pod | .sfu | .vl | .vlDev | .ls => decide (off ≤ 0x18)
  | .kv | .req | .dr => decide (off ≤ 0x2C)
  | .gz | .strm | .pg | .model | .ethDev => decide (off ≤ 0x1C)
  | .nt => decide (off ≤ 0x28)
  | .tier => decide (off ≤ 0x24)
  | .narrow => decide (off ≤ 0x10)
  | .cf | .part => decide (off ≤ 0x20)
  | .sv => decide (off ≤ 0x68)

/-- A register that clears when it is read (RC); the partial ones, CF_STATUS and DR_ERR_LOC, are cleared in `State.afterRead`. -/
def Blk.clears (b : Blk) (off : Nat) : Bool :=
  match b with
  | .dev => off == 0x41C
  | .pg => decide (0x10 ≤ off) && decide (off ≤ 0x18)
  | .tbl => off == 0x14
  | .grat => decide (0x08 ≤ off)
  | .pod => true
  | .sfu => off != 0 && off != 0x14
  | .kv => decide (0x20 ≤ off)
  | .gz => decide (0x08 ≤ off) && off != 0x1C
  | .strm => decide (0x08 ≤ off)
  | .req => decide (0x10 ≤ off)
  | .dr => off == 0x08 || off == 0x10 || off == 0x14 || off == 0x18 || off == 0x24
  | .nt => (decide (0x10 ≤ off) && decide (off ≤ 0x20)) || off == 0x28
  | .tier => decide (off ≤ 0x1C)
  | .model => off == 0x1C
  | .vl => decide (0x08 ≤ off)
  | .narrow => decide (0x0C ≤ off)
  | .cf => off == 0x10 || off == 0x14
  | .eth => decide (0x08 ≤ off)
  | .ls => decide (0x0C ≤ off)
  | .evt => off == 0x04
  | .part => off == 0x20
  | .kpr => off == 0x04 || off == 0x08
  | .sv => decide (0x44 ≤ off)
  | _ => false

/-- A device-level register that every session may read (R487). -/
def Blk.everyone (b : Blk) (off : Nat) : Bool :=
  match b with
  | .dev => off == 0x100 || off == 0x108 || decide (0x400 ≤ off)
  | .clk | .pg | .reqDev => true
  | .vlDev => off == 0x10 || off == 0x14
  | _ => false

/-- A register that the sideband reads (R383). -/
def Blk.sideband (b : Blk) (off : Nat) : Bool :=
  match b with
  | .dev | .clk | .pg | .eth | .ethDev => true
  | .cf => off == 0
  | _ => false

/-! ## Figures that registers show -/

/-- A request holds a waiting entry (R218). -/
def Req.waits (r : Req) : Bool :=
  r.st == .waiting || r.st == .resuming || r.st == .restoring || (r.st == .pausing && r.resumeOpts.isSome)

/-- A request has its place in the pause directory (R218, R237). -/
def Req.inDirectory (r : Req) : Bool := r.st == .pausing || r.st == .paused || r.st == .resuming || r.st == .restoring

/-- Waiting entries of a partition. -/
def Part.waiting (pt : Part) : Nat := (pt.reqs.filter (fun e => e.2.waits)).length

/-- Paused requests of a partition. -/
def Part.paused (pt : Part) : Nat := (pt.reqs.filter (fun e => e.2.inDirectory)).length

/-- Admitted entries of all partitions. -/
def State.admitted (s : State) : Nat := (s.parts.map (fun e => e.2.seqs.length)).sum

/-- MIN in force. -/
def Part.floorIn (pt : Part) : Nat := pt.reqLimit.field 13 0

/-- Free entries of the shared remainder (R225). -/
def State.sharedFree (s : State) : Nat :=
  8192 - (s.parts.map (fun e => e.2.floorIn)).sum - (s.parts.map (fun e => e.2.seqs.length - e.2.floorIn)).sum

/-- Entries of the pause directory in use (R237). -/
def State.pausedAll (s : State) : Nat := (s.parts.map (fun e => e.2.paused)).sum

/-- The average of the guard's power samples of the last `ns` nanoseconds, in units of 0.125 mW (R443). -/
def Guard.average (g : Guard) (ns : Nat) : Nat :=
  let xs := (g.samples.filter (fun e => decide (g.lastSample < e.1 + ns))).map Prod.snd
  if xs.isEmpty then 0 else xs.sum / xs.length

/-- A tile is idle (R96). -/
def State.tileIdle (s : State) (t : Nat) : Bool :=
  let v := s.tile t
  let quiet := fun (k : Bank) => k.st != .accum && k.st != .drain
  v.matrixQ.isEmpty && v.dmaQ.isEmpty && v.launchQ.isEmpty && v.kernels.isEmpty && quiet v.bank0 && quiet v.bank1 &&
    ((s.ownerOf t).bind s.part).all (fun pt =>
      !(pt.load.any (fun j => j.op.quad.all (· == t / 4))) && pt.copying.all (!·))

/-- The bits of a predicate of 32 items. -/
def bits32 (f : Nat → Bool) : Word := BitVec.ofNat 32 (((List.range 32).map (fun i => if f i then 2 ^ i else 0)).sum)

/-- A flag as the value of a bit. -/
def bitAt (b : Bool) (i : Nat) : Nat := if b then 2 ^ i else 0

/-- The image in TYPE 1 or 2 form that runs, and its fields (R389). -/
def imageField (bs : Bytes) (off : Nat) : Word := BitVec.ofNat 32 (beAt bs off 4)

/-- The start state of DISCOVER and DEV_START_STATUS: 0 STARTING, 1 READY_FOR_FIRMWARE, 2 RUNNING, 3 RECOVERY. -/
def Phase.state : Phase → Nat
  | .ready => 1
  | .running => 2
  | .recovery => 3
  | _ => 0

/-- The code of a link's state (Table 1 of Veolo links). -/
def LState.code : LState → Nat
  | .disabled => 0
  | .down => 1
  | .hail => 2
  | .backoff => 3
  | .train => 4
  | .up => 5
  | .fastRetrain => 6
  | .miswired => 7
  | .duplicate => 8

/-- The code of a neighbour's state (Table 4 of Veolo links). -/
def NState.code : NState → Nat
  | .absent => 0
  | .joining => 1
  | .active => 2
  | .degraded => 3
  | .retraining => 4
  | .lost => 5
  | .left => 6
  | .miswired => 7

/-- The code of a model's state (Table 5 of Model images). -/
def MState.code : MState → Nat
  | .empty => 0
  | .fetching => 1
  | .loading => 2
  | .loaded => 3
  | .started => 4
  | .draining => 5
  | .swapping => 6
  | .held => 7

/-- A number in two's complement of `w` bits. -/
def twos (w : Nat) (v : Int) : Nat := (v % (2 ^ w : Int)).toNat

/-- The narrowing mode FP8T with traffic to narrow: the stage is not the last (R61). -/
def State.scales (s : State) (p : Nat) (pt : Part) : Bool :=
  (s.reg .narrow p 0).field 1 0 == 2 && pt.image.any (fun im => !im.isLast)

/-- MER_STATUS. -/
def State.merStatus (s : State) (p : Nat) (pt : Part) : Nat :=
  let g := pt.staged
  bitAt (pt.joined && pt.step.any (fun v => v.finished || v.empty)) 15 + bitAt pt.lastEmpty 14 +
    bitAt (!g.takeOut.isEmpty || !g.putBack.isEmpty) 8 +
    bitAt (pt.loans.any (fun l => !l.active || l.movesDone || l.graceOver)) 7 + bitAt (pt.swap.any (fun w => w.readDone)) 6 +
    bitAt g.resize.isSome 5 + bitAt (!(g.cancels.isEmpty && g.pauses.isEmpty && g.parks.isEmpty && g.closes.isEmpty)) 4 +
    bitAt (!g.opens.isEmpty || pt.reqs.any (fun e => e.2.candAt.isSome) ||
      pt.streams.any (fun e => e.2.st == .parked && !e.2.queue.isEmpty)) 3 +
    bitAt (s.scales p pt && pt.step.isSome) 2 + bitAt g.grat 1 + bitAt (pt.swapStaged.any id) 0

/-- TBL_STATUS: LAST_STATUS is stored. -/
def State.tblStatus (s : State) (p : Nat) (pt : Part) : Nat :=
  let on := fun (l : List Bool) (i : Nat) => bitAt (l.getD i false) 0
  bitAt pt.load.isSome 31 + (on pt.swapStaged 0 + 2 * on pt.swapStaged 1 + 4 * on pt.swapStaged 2) * 2 ^ 28 +
    (on pt.copying 0 + 2 * on pt.copying 1 + 4 * on pt.copying 2) * 2 ^ 25 +
    (pt.activeBank 0 + 2 * pt.activeBank 1 + 4 * pt.activeBank 2) * 2 ^ 16 + (s.reg .tbl p 0x10).field 15 0

/-- The sector of the program or erase that runs. -/
def FlashOp.sector : FlashOp → Nat × Nat
  | .program _ _ a _ => (1, sectorAt a)
  | .param _ _ new => (1, paramSector new.copy)
  | .erase n _ => (2, n)

/-- CF_STATUS (Table 7 of Configuration flash). -/
def State.cfStatus (s : State) : Nat :=
  let f := s.flash
  bitAt f.op.isSome 31 + bitAt f.susp.isSome 30 + bitAt f.unreliable 28 + bitAt s.params.pwSet 27 + bitAt (decide (8 ≤ f.pwFails)) 26 +
    s.params.bootActive * 2 ^ 25 + bitAt f.fallback 24 + min 255 f.half.length * 2 ^ 16 + (s.reg .cf 0 0).field 15 0

/-- Bytes that a running fetch or load has moved, in MiB. -/
def Part.loadDone (pt : Part) : Nat := min 0xFFFFFFFF (((pt.install.map (fun v => v.shard.length)).getD 0) / 1048576)

/-- Wear of the TLC blocks in tenths of a percent: mean erases against 3,000 cycles (Table 2 of Memory tiers; log entry 30). -/
def Nand.tlcUsed (v : Nand) : Nat := min 65535 (1000 * (v.erases.map Prod.snd).sum / (211928 * 3000))

/-- Wear of the pause area in tenths of a percent: bytes written against 30,000 cycles of its size. -/
def Nand.slcUsed (v : Nand) : Nat := min 65535 (1000 * v.pauseWritten / (v.pauseSize * 1000000000 * 30000))

/-! ## The value a register shows -/

/-- A device register that is computed where it is read; none: the stored value. -/
def State.devValue (s : State) (b : Blk) (k off : Nat) : Option Nat :=
  match b with
  | .dev =>
    let d := s.dev
    if 0x200 ≤ off && off ≤ 0x23C then some (bits32 (fun i => s.tileIdle (8 * (off - 0x200) + i))).toNat
    else
      match off with
      | 0x100 => some (d.lastCause * 2 ^ 28 + d.sticky)
      | 0x108 => some (4 * d.clkMode + d.bootSrc)
      | 0x400 => some (Phase.state d.phase * 2 ^ 30 + bitAt d.fwHalted 29 + bitAt d.actQueued.isSome 28 + bitAt d.pendingImage.isSome 27 +
          bitAt (d.load.any (fun l => !l.last)) 26 + min 0xFFFF d.readyMs)
      | 0x404 => some d.fwVersion
      | 0x408 => some ((d.pendingImage.map imageVersion).getD 0)
      | 0x40C => some (imageVersion d.rtImage)
      | 0x410 => some (imageField d.rtImage 20).toNat
      | 0x414 => some (imageField d.rtImage 24).toNat
      | 0x418 => some d.heartbeats
      | 0x41C => some d.startDrops
      | _ => none
  | .clk => some (bitAt s.dev.locked 31 + s.dev.clkMode * 2 ^ 29 + (if s.dev.clkMode < 2 then 1000 else 800))
  | .pg =>
    let g := s.guard
    match off with
    | 0x00 => some (g.level * 2 ^ 30 + bitAt (g.level != 0 && g.causeJ == g.level) 18 + bitAt (g.level != 0 && g.causeL == g.level) 17 +
        bitAt (g.level != 0 && g.causeP == g.level) 16 + (if g.level = 0 then min 0xFFFF ((s.now - g.normalSince) / 1000000) else 0))
    | 0x08 => some (twos 16 g.junction * 2 ^ 16 + twos 16 g.lid)
    | 0x0C => some (g.vin % 65536 * 2 ^ 16 + min 0xFFFF (g.average 10000000 / 4000))
    | 0x1C => some g.hottest
    | _ => none
  | .reqDev => if off = 0 then some (s.sharedFree * 2 ^ 16 + s.admitted) else some s.pausedAll
  | .dr =>
    let rate := fun (n : Nat) => ((List.range 8).map (fun k => bitAt (s.dram.rates.getD k 0 == n) k)).sum
    match off with
    | 0x0C => some (rate 2 * 2 ^ 8 + rate 1)
    | 0x28 => some (bits32 (fun i => s.dram.failed.contains i)).toNat
    | 0x2C => some (bits32 (fun i => s.dram.failed.contains (32 + i))).toNat
    | _ => none
  | .nt =>
    match off with
    | 0x04 => some (bitAt s.nand.pauseWant.isSome 31 + (s.reg .nt 0 0x04).field 10 0)
    | 0x0C => some (s.nand.slcUsed * 2 ^ 16 + s.nand.tlcUsed)
    | 0x08 => some (bitAt s.nand.urgent 31 + s.nand.freeTenths / 10 * 2 ^ 16 + (bits32 (fun i => s.nand.failed.contains i)).toNat)
    | _ => none
  | .tierDev =>
    if off = 0x08 then
      let ls := s.lender.loans
      some ((ls.map (fun l => l.extents.length)).sum * 2 ^ 16 + (ls.filter (fun l => l.noticed)).length * 2 ^ 8 + ls.length)
    else none
  | .vl =>
    if off = 0x04 then
      let l := s.link k
      some (LState.code l.st * 2 ^ 28 + bitAt l.g7 27 + l.peerLink % 8 * 2 ^ 24 + l.peer % 4096 * 2 ^ 12)
    else none
  | .vlDev =>
    let v := s.veolo
    match off with
    | 0x00 => some (bitAt v.numValid 31 + v.num % 4096 * 2 ^ 16 + (s.reg .vlDev 0 0).toNat % 2 ^ 16)
    | 0x04 => some ((NMap.find s.regs (Blk.vlDev.at 0 4)).getD v.topo).toNat
    | 0x0C => some (((List.range 4).map (fun i => NState.code (v.nbrs.getD i .absent) * 16 ^ i)).sum)
    | 0x10 => some (s.now % 2 ^ 32)
    | 0x14 => some s.timeHi.toNat
    | 0x18 => some (bitAt v.aligned 31 + bitAt v.master 30 + v.masterNum % 4096 * 2 ^ 16 + twos 8 (max (-127) (min 127 v.offset)))
    | _ => none
  | .cf =>
    let f := s.flash
    match off with
    | 0x00 => some s.cfStatus
    | 0x04 => some ((f.op.map (fun o => 2 ^ 31 + (FlashOp.sector o).1 * 2 ^ 29 + (FlashOp.sector o).2)).getD 0)
    | 0x08 => some ((f.susp.map (fun o => 2 ^ 31 + (FlashOp.sector o).2)).getD 0)
    | 0x0C => some f.jSeq
    | 0x18 => some (min 8 f.pwFails)
    | 0x1C => some (min 255 f.starts)
    | 0x20 => some ((f.params.map (·.seq)).getD 0)
    | _ => none
  | .eth =>
    if off = 0x04 then
      let v := NMap.get { up := false, master := false, speed := 0, sqi := 0 } s.eth k
      some (bitAt v.up 31 + bitAt v.master 30 + v.speed % 8 * 2 ^ 27 + v.sqi % 8 * 2 ^ 24)
    else none
  | .ls => if off = 0x08 then some s.lesar.sessions.length else none
  | .kpr =>
    if off = 0 then
      some (bitAt s.keeper.ownerKey.isSome 31 + s.keeper.signers.length * 2 ^ 24 + s.keeper.sets.length * 2 ^ 16 +
        (s.parts.map (fun e => e.2.contentKeys.length)).sum)
    else none
  | .sv =>
    let v := s.survey
    if off = 0 then
      some (bitAt v.s2.isSome 31 + bitAt v.gzOut.isSome 30 + ((List.range 4).map (fun i => bitAt (v.s0.any (fun e => e.1 == i)) (16 + i))).sum +
        v.out.length)
    else if off ≤ 0x40 then some (bits32 (fun i => v.failed.contains (8 * (off - 4) + i))).toNat
    else none
  | _ => none

/-- A register of a partition that is computed where it is read; none: the stored value. -/
def State.partValue (s : State) (b : Blk) (p off : Nat) (pt : Part) : Option Nat :=
  match b, off with
  | .mer, 0x04 => some (s.merStatus p pt)
  | .tbl, 0x10 => some (s.tblStatus p pt)
  | .kv, 0x08 => some (s.freeSheets p pt)
  | .kv, 0x0C => some (pt.sheets.filter (fun e => decide (1 < e.2.refs))).length
  | .gz, 0x04 => some (pt.gzState * 2 ^ 29 + pt.nodes)
  | .strm, 0x04 => some ((pt.streams.filter (fun e => e.2.st != .opening)).length * 2 ^ 16 + pt.boundHere)
  | .req, 0x08 => some (pt.seqs.length * 2 ^ 16 + pt.waiting)
  | .req, 0x0C => some pt.paused
  | .tier, 0x20 => some (((pt.loans.filter (·.active)).map (·.extents)).sum * 2 ^ 16 + (pt.loans.filter (·.active)).length)
  | .model, 0x04 => some (MState.code pt.mstate * 2 ^ 29 +
      (if pt.install.any (·.fetchOnly) then 1 else if pt.next.isSome then 2 else 0) * 2 ^ 27 +
      (pt.insets.filter (fun e => e.2.installed)).length * 2 ^ 18 + (s.reg .model p 0x04).field 15 0)
  | .model, 0x08 => some ((pt.image.map (·.handle)).getD 0)
  | .model, 0x0C => some ((pt.next.map (·.handle)).getD 0)
  | .model, 0x10 => some ((pt.image.map (·.edition)).getD 0)
  | .model, 0x14 => some pt.loadDone
  | .model, 0x18 => some ((match pt.swap, pt.image with | some w, some im => im.firstLayer + w.layer | _, _ => 0) % 65536)
  | .grat, o =>
    if 0x14 ≤ o && o ≤ 0x38 then some (min 0xFFFFFFFF ((s.reg .grat p o).toNat + (Config.cycles s.free).toNat)) else none
  | .evt, 0x00 =>
    some ((s.reg .evt p 0).field 9 0 + (match s.evtSession p with | some n => 2 ^ 31 + n % 4096 * 2 ^ 16 | none => 0))
  | .part, 0x00 =>
    some (2 ^ 31 + bitAt pt.resetting.isSome 30 + bitAt pt.ownerKey.isSome 29 + pt.cls * 2 ^ 16 +
      (bits32 (fun i => pt.bays.contains i)).toNat % 65536)
  | .part, 0x14 => some pt.dram.length
  | .part, 0x18 => some pt.nand.length
  | .part, 0x1C => some pt.vid
  | .part, o =>
    if 0x04 ≤ o && o ≤ 0x10 then some (bits32 (fun i => pt.quads.contains (8 * (o - 4) + i))).toNat else none
  | _, _ => none

/-- The value of a register (R481: a partition that does not exist shows reset values). -/
def State.regValue (s : State) (b : Blk) (k off : Nat) : Word :=
  if b.perPart then
    match s.part k with
    | none => b.reset off
    | some pt =>
      match s.partValue b k off pt with
      | some n => BitVec.ofNat 32 n
      | none => s.reg b k off
  else
    match s.devValue b k off with
    | some n => BitVec.ofNat 32 n
    | none => s.reg b k off

/-- What a read of a register does (R7, R252, R295): an RC register clears, a read of VL_TIME_LO latches the upper half. A read of an
engine counter of the graticule shows a fresh count (log entry 7). -/
def State.afterRead (s : State) (b : Blk) (k off : Nat) : State :=
  let s1 := if b.clears off && (!b.perPart || (s.part k).isSome) then s.putReg b k off 0 else s
  match b, off with
  | .grat, o => if 0x14 ≤ o then s1.setFree (s1.free + 1) else s1
  | .dev, 0x41C => s1.setDev { s1.dev with startDrops := 0 }
  | .dr, 0x18 => s1.putReg .dr 0 0x1C 0
  | .cf, 0x00 => s1.setFlash { s1.flash with unreliable := false }
  | .vlDev, 0x10 => s1.setTimeHi (BitVec.ofNat 32 (s1.now / 2 ^ 32))
  | _, _ => s1

/-! ## Who may access a register (R383, R410, R481, R487) -/

/-- A frame may access a register: the device owner any; the sideband's client the registers of R383; a session of partition p the
instances of p and what every session may read. -/
def State.mayRead (s : State) (c : Ctx) (b : Blk) (k off : Nat) : Bool :=
  if s.isOwner c then true
  else if c.sess = sidebandSess then b.sideband off
  else
    match s.session c.sess with
    | none => false
    | some v => if b.perPart then k == v.part else b.everyone off

/-- A gap of the device-level part is open to every session (R480); a gap in an instance is that instance. -/
def State.mayAccess (s : State) (c : Ctx) (b : Blk) (k off : Nat) : Bool :=
  s.mayRead c b k off || (!b.occupied off && !b.perPart)

/-- One entry of a REG_READ (R6, R480): the value and what the read clears, or the status of its refusal. -/
def State.readEntry (s : State) (c : Ctx) (a : Nat) : Except Status (State × Word) :=
  if a % 4 ≠ 0 then .error .badFrame
  else
    match regPlace a with
    | none => if inRange a then .ok (s, 0#32) else .error .badFrame
    | some (b, k, off) =>
      if !s.mayAccess c b k off then .error .notPermitted
      else if !b.occupied off then .ok (s, 0#32)
      else .ok (s.afterRead b k off, s.regValue b k off)

/-- The entries of a REG_READ one after the other (R482): a VL_TIME_HI that follows VL_TIME_LO directly returns the same instant. -/
def State.readEntries (s : State) (c : Ctx) : List Nat → Nat → Bytes → State × Except (Status × Nat) Unit × Bytes
  | [], _, acc => (s, .ok (), acc)
  | a :: as, i, acc =>
    match s.readEntry c a with
    | .error st => (s, .error (st, i), acc)
    | .ok (s1, w) => State.readEntries s1 c as (i + 1) (acc ++ beBytes 4 w.toNat)

end Sys2Proof.Machine
end

