-- ==== Sys2Proof/Machine/Links.lean ====
section
/-!
DEFINITION. Veolo links and neighbours (R280 to R299): the link states, the judgement of a neighbour, reception of flits and messages in
their pair order, and what the loss of a neighbour ends (R27, R150, R180, R270, R298).
-/
namespace Sys2Proof.Machine

open Sys2Proof

/-! ## Link states (R280 to R284) -/

/-- A link changed. -/
def State.modLink (s : State) (i : Nat) (f : Link → Link) : State := s.putLink i (f (s.link i))

/-- A link that falls to DOWN, or is disabled, discards its replay buffer and its sequence state (R284); what is queued waits, but for what is
left of a message that has begun to leave. -/
def Link.fallen (l : Link) (st : LState) : Link :=
  { Link.start with st := st, pb5 := l.pb5, peer := l.peer, peerValid := l.peerValid, peerLink := l.peerLink, queue := l.uncut, draws := l.draws }

/-- The number of links of a direction that are UP. -/
def State.upCount (s : State) (dir : Nat) : Nat :=
  ([2 * dir, 2 * dir + 1].filter (fun i => (s.link i).st == .up)).length

/-- The device number that a direction must reach (R288); none beyond the end of an axis that does not wrap. -/
def State.expected (s : State) (dir : Nat) : Option Nat :=
  let v := s.veolo
  let (x, y) := (v.num % 64, v.num / 64)
  let step := fun (c n : Nat) (wrap up : Bool) =>
    if up then (if c + 1 < n then some (c + 1) else if wrap then some 0 else none)
    else (if 0 < c then some (c - 1) else if wrap then some (n - 1) else none)
  if dir < 2 then (step x (v.topo.field 14 8) (v.topo.bit 30) (dir == 0)).map (fun x => 64 * y + x)
  else (step y (v.topo.field 22 16) (v.topo.bit 31) (dir == 2)).map (fun y => 64 * y + x)

/-- The opposite direction. -/
def opposite (dir : Nat) : Nat := dir + 1 - 2 * (dir % 2)

/-- A trained link agrees with the default assignment and the topology (R288). A number that is not valid cannot disagree. -/
def State.wiredRight (s : State) (i : Nat) (p : PeerInfo) : Bool :=
  !s.veolo.numValid || !p.valid || (s.expected (i / 2) == some p.num && p.link / 2 == opposite (i / 2))

/-- The state of the neighbour in a direction from its links (Table 4 of Veolo links). A neighbour with no valid number stays ABSENT and
one that was JOINING and has no link UP is ABSENT again (log entry 21). -/
def State.judgeNbr (s : State) (dir : Nat) : NState :=
  let a := s.link (2 * dir)
  let b := s.link (2 * dir + 1)
  let old := s.veolo.nbrs.getD dir .absent
  if a.st == .miswired || b.st == .miswired then .miswired
  else
    match s.upCount dir with
    | 0 =>
      match old with
      | .active | .degraded | .retraining => .retraining
      | .lost => .lost
      | .left => .left
      | _ => .absent
    | n =>
      let up := if a.st == .up then a else b
      if !up.peerValid || !s.veolo.numValid then .absent
      else if !up.peerAligned then .joining
      else if n = 2 then .active else .degraded


/-- The report that a device can no longer be reached, or is back (R290; log entry 21), in the management class. -/
def reachNotice (dev : Nat) (back : Bool) : Bytes := beBytes 1 0x1B ++ beBytes 2 dev ++ beBytes 1 back.toNat

/-- The report sent on along the axis of the device that it names, away from it: `from_` is the direction that it came from. -/
def State.passReach (s : State) (from_ : Nat) (dev : Nat) (back : Bool) : State :=
  let there := if from_ < 2 then dev / 64 == s.veolo.num / 64 else dev % 64 == s.veolo.num % 64
  if there && s.nbrDev (opposite from_) != dev && !s.dirLost (opposite from_) then
    s.sendMessage (opposite from_) .management 0 (reachNotice dev back)
  else s

/-- The neighbour in a direction judged anew, and its waiting flits sent; one that is back is reported (R299). -/
def State.refreshNbr (s : State) (dir : Nat) : State :=
  let n := s.judgeNbr dir
  let s1 := (s.setVeolo { s.veolo with nbrs := s.veolo.nbrs.set dir n }).pumpPair dir
  if s.dirLost dir && (n == .active || n == .degraded) then s1.passReach dir (s.nbrDev dir) true else s1

/-- The lowest valid number that this module knows is the master's (R294; log entry 21). A module that reaches no other is its own master, and
aligned; one that finds another master is aligned only once it has joined (R295). -/
def State.electMaster (s : State) : State :=
  let v := s.veolo
  let known := (if v.numValid then [v.num] else []) ++
    ((List.range 8).filter (fun i => (s.link i).st == .up && (s.link i).peerValid)).map (fun i => (s.link i).peer)
  match known with
  | [] => s.setVeolo { v with master := false }
  | k :: ks =>
    let m := ks.foldl min k
    s.setVeolo { v with master := v.numValid && m == v.num, masterNum := m,
                        aligned := if v.numValid && m == v.num then v.aligned || ks.isEmpty else v.aligned && v.joined }

/-- A link goes DOWN (R280). -/
def State.linkDown (s : State) (i : Nat) : State := ((s.modLink i (fun l => l.fallen .down)).refreshNbr (i / 2)).electMaster

/-- A link enters TRAIN or FAST_RETRAIN: VL_RETRAIN_CNT counts it. -/
def State.linkTrains (s : State) (i : Nat) (st : LState) : State :=
  ((s.modLink i (fun l => { l with st := st })).bump .vl i 0x14 1).refreshNbr (i / 2)

/-- A write of VL_LINK_CTL (R300): ENABLE and RETRAIN. -/
def State.linkControl (s : State) (i : Nat) (enable retrain : Bool) : State :=
  let l := s.link i
  if !enable then ((s.modLink i (fun l => l.fallen .disabled)).refreshNbr (i / 2)).electMaster
  else if l.st == .disabled || retrain then s.linkDown i
  else s

/-! ## Loss of a neighbour (R298) -/

/-- The tier code of a paused cache that lies in a loan. -/
def loanTier (id : Nat) : Nat := 16 + id

/-- The `what` of a loan request in `State.pushGo`. -/
def askCode (link extents : Nat) : Nat := 3 * 1024 + link * 128 + extents
/-- The `what` of a return of loans. -/
def releaseCode (link : Nat) : Nat := 4 * 1024 + link

/-- The paused caches that lie in a loan freed with CACHE_LOST (R238), but for those whose restore has completed. -/
def State.loseLoanCaches (s : State) (p id : Nat) : State :=
  match s.part p with
  | none => s
  | some pt =>
    let there := fun (r : Req) => r.tier == loanTier id && r.inDirectory
    let back := fun (r : Req) => r.st == .restoring && r.walked
    let s1 := (pt.reqs.keys.filter (fun h => (NMap.find pt.reqs h).any (fun r => there r && !back r))).foldl
      (fun s h => s.buryReq p h .cacheLost) s
    s1.modPart p (fun pt => { pt with reqs := pt.reqs.map (fun e =>
      if there e.2 && back e.2 then (e.1, { e.2 with tier := 0, moved := [] }) else e) })

/-- A loan leaves a partition, with what lies in it. -/
def State.dropLoan (s : State) (p id : Nat) : State :=
  (s.loseLoanCaches p id).modPart p (fun pt => { pt with loans := pt.loans.filter (fun l => l.id != id) })

/-- Where in the NAND share the bytes stand that a copy in a loan holds at an offset: in the slots or the tag plane of its tensor. -/
def Part.loanSource (pt : Part) (l : Loan) (off : Nat) : Option Nat :=
  pt.image.bind (fun im =>
    l.copies.findSome? (fun n =>
      ((pt.dir im).find? (fun d => d.tensor == n)).bind (fun d =>
        let o := copyOffset (pt.dir im) l.copies n
        if off < o || o + d.stored ≤ off then none
        else if off - o < d.slotBytes then some (pt.shardOff (pt.imageOf im d) + d.slotOff + (off - o))
        else some (pt.shardOff (pt.imageOf im d) + d.tagOff + (off - o - d.slotBytes)))))

/-- An end in a lost loan taken from its NAND source (R270). -/
def Part.reissueEnd (pt : Part) (l : Loan) (e : DmaEnd) : DmaEnd :=
  match e with
  | .loan i off => if i = l.id then (match pt.loanSource l off with | some o => .nand o | none => e) else e
  | e => e

/-- A transfer in flight from a lost loan issued again to the NAND tier (R270). -/
def Part.reissueJob (pt : Part) (l : Loan) (j : DmaJob) : DmaJob :=
  match j.op.src with
  | .loan i _ =>
    if i = l.id then
      { op := { j.op with src := pt.reissueEnd l j.op.src, pods := j.op.pods.map (fun v => (pt.reissueEnd l v.1, v.2)) }, cause := some 3 }
    else j
  | _ => j

/-- The reads in flight to a loan of a partition issued again (R270): transfers of its tiles, and fetches that another loan does not hold. -/
def State.reissueReads (s : State) (p : Nat) (pt : Part) (l : Loan) : State :=
  let s1 := pt.tiles.foldl (fun s t => s.modTile t (fun v => { v with dmaQ := v.dmaQ.map (pt.reissueJob l) })) s
  s1.modPart p (fun v => { v with xcache := v.xcache.map (fun x =>
    if x.arriving && x.cause = 2 && x.tensor.any l.copies.contains then { x with cause := 3 } else x) })

/-- Every return of a partition's loans over a link that a register write waits for is done (R269). -/
def State.endReturn (s : State) (p link : Nat) : State :=
  (s.lesar.regWaits.filter (fun w => w.what == releaseCode link && w.part == p)).foldl (fun s _ => s.pushGo (releaseCode link) p .ok) s

/-- The loans that partitions hold over the links of a direction lost at once, and those asked for refused (R270). -/
def State.lenderLost (s : State) (dir : Nat) : State :=
  s.parts.foldl (fun s e =>
    let here := fun (l : Nat) => l / 2 == dir
    let s1 := (e.2.loans.filter (fun l => here l.link)).foldl (fun s l =>
      let s2 := (s.reissueReads e.1 e.2 l).dropLoan e.1 l.id
      if l.returning then s2.endReturn e.1 l.link else s2) s
    let s3 := (e.2.loanAsk.filter (fun a => here a.1)).foldl (fun s a => s.pushGo (askCode a.1 a.2) e.1 .notPermitted) s1
    s3.modPart e.1 (fun pt => { pt with loanAsk := pt.loanAsk.filter (fun a => !here a.1) })) s

/-- The loans granted to the borrower in a direction freed and zero-filled (R270). -/
def State.borrowerLost (s : State) (dir : Nat) : State :=
  let gone := s.lender.loans.filter (fun l => l.link / 2 == dir)
  (gone.foldl (fun s l => l.extents.foldl State.clearExtent s) s).setLender
    { loans := s.lender.loans.filter (fun l => l.link / 2 != dir) }

/-- The work of a partition whose pipeline has lost a stage (R298). -/
def State.loseStage (s : State) (p stage : Nat) : State :=
  match s.part p with
  | none => s
  | some pt =>
    let of := fun (f : Req → Bool) => pt.reqs.keys.filter (fun h => (NMap.find pt.reqs h).any f)
    let s1 := (of (fun r => r.st == .admitted)).foldl (fun s h => s.endReqNow p h .kvLost) s
    let s2 := pt.streams.keys.foldl (fun s h => s.endStream p h .uncorrectable) s1
    let s3 := (of (fun r => r.st == .waiting)).foldl (fun s h => s.endReqNow p h .busyRecovery) s2
    let s4 := (of Req.inDirectory).foldl (fun s h => s.buryReq p h .cacheLost) s3
    (s4.failEnding p .uncorrectable).modPart p (fun pt => { pt with lost := stage :: pt.lost.filter (· != stage), joined := false })

/-- A sequence has a segment on a ring position. -/
def Seq.onMember (q : Seq) (k : Nat) : Bool := q.ring.any (fun g => g.1 == k && g.2.2 != 0)

/-- The ring work of a partition whose ring has lost the device `dev` (R150, R180): a step that takes part in a collective fails, each collective
that this module owns is counted, sequences with a segment there end with KV_LOST, segments homed there are freed. -/
def State.loseMember (s : State) (p dev k : Nat) : State :=
  match s.part p with
  | none => s
  | some pt =>
    let colls := (pt.step.map (·.colls)).getD []
    let ring := (pt.image.map (fun im => im.ring s.veolo.num)).getD []
    let own := (colls.filter (fun o => o == ring.findIdx (· == s.veolo.num))).length
    let dead := ((pt.seqs.filter (fun q => q.onMember k)).map (·.handle)).eraseDups
    let s1 := if colls.isEmpty then s
      else ((s.bump .sfu p 0x10 own).failEnding p .uncorrectable).modPart p (fun pt =>
        { pt with step := pt.step.map (fun v => { v with colls := [] }) })
    let s2 := dead.foldl (fun s h => s.endReqNow p h .kvLost) s1
    s2.modPart p (fun pt =>
      let gone := (pt.segments.filter (fun g => g.owner == dev)).flatMap (·.sheets)
      { gone.foldl Part.unref pt with segments := pt.segments.filter (fun g => g.owner != dev) })

/-- A partition's work is affected by the loss of a device: it lies next to this stage in its pipeline, or in its ring. -/
def State.touchedBy (s : State) (pt : Part) (dev : Nat) : Bool × Option Nat :=
  match pt.image with
  | none => (false, none)
  | some im =>
    let stage := dev / 64 == s.veolo.num / 64 && decide (dev % 64 < im.stages) && decide (2 ≤ im.stages)
    let r := im.ring s.veolo.num
    (stage, if r.contains dev then some (r.findIdx (· == dev)) else none)

/-- The work of the partitions that the loss of a device touches, and its event (R150, R180, R298). -/
def State.loseDevice (s : State) (dev : Nat) : State :=
  let hit := s.parts.filter (fun e => (s.touchedBy e.2 dev).1 || (s.touchedBy e.2 dev).2.isSome)
  (hit.foldl (fun s1 e =>
    let w := s.touchedBy e.2 dev
    let s3 := if w.1 then s1.loseStage e.1 (dev % 64) else s1
    match w.2 with
    | some k => s3.loseMember e.1 dev k
    | none => s3) s).sharedEvent (hit.map Prod.fst) .uncorrectable 0 0 dev

/-- A report from a direction taken (R290, R298): a device that a route no longer reaches is lost for this module too, until it is back. -/
def State.takeReach (s : State) (from_ dev : Nat) (back : Bool) : State :=
  if back then (s.setVeolo { s.veolo with gone := s.veolo.gone.filter (· != dev) }).passReach from_ dev true
  else if s.veolo.gone.contains dev || dev == s.veolo.num then s
  else ((s.setVeolo { s.veolo with gone := s.veolo.gone ++ [dev] }).loseDevice dev).passReach from_ dev false

/-- The neighbour in a direction is declared LOST or LEFT (R298, R299). -/
def State.loseNeighbour (s : State) (dir : Nat) (st : NState) : State :=
  let dev := s.nbrDev dir
  let clean := fun (s : State) (i : Nat) => s.modLink i (fun l => { l with replay := [], queue := [], mid := [], rxBuf := [] })
  let s1 := (clean (clean s (2 * dir)) (2 * dir + 1)).setVeolo
    { s.veolo with
      links := (clean (clean s (2 * dir)) (2 * dir + 1)).veolo.links, nbrs := s.veolo.nbrs.set dir st,
      pairTx := s.veolo.pairTx.set dir 0, pairRx := s.veolo.pairRx.set dir 0,
      early := s.veolo.early.filter (fun e => e.1 != dir) }
  ((((s1.lenderLost dir).borrowerLost dir).fetchLost dev).loseDevice dev).passReach dir dev false

/-- A device that this module has lost: a neighbour, or one that it has been told of. -/
def State.deviceLost (s : State) (dev : Nat) : Bool :=
  s.veolo.gone.contains dev || (List.range 4).any (fun d => s.dirLost d && s.nbrDev d == dev)

/-! ## Flits received (R283, R285, R287, R290) -/

/-- Acknowledged flits leave the replay buffer: those up to the number named (R283). -/
def Link.acked (l : Link) (n : Nat) : Link :=
  match l.replay.findIdx? (fun f => f.seq == n) with
  | some i => { l with replay := l.replay.drop (i + 1), resends := if l.replay.length ≤ i + 1 then 0 else 1 }
  | none => l

/-- The messages of a direction that are next in pair order delivered (R287): those for this module of the activation, ring and collective
classes to the inbox; those for others on their way (R290; log entry 21). `n` bounds their number. -/
def State.deliver (s : State) (dir : Nat) : Nat → State
  | 0 => s
  | n + 1 =>
    let k := s.veolo.pairRx.getD dir 0
    match s.veolo.early.find? (fun e => e.1 == dir && e.2.1 == k) with
    | none => s
    | some e =>
      let s1 := s.setVeolo { s.veolo with early := s.veolo.early.erase e, pairRx := s.veolo.pairRx.set dir (k + 1),
                                          inbox := s.veolo.inbox ++ [(dir, e.2.2.1, e.2.2.2.1, e.2.2.2.2)] }
      s1.deliver dir n

/-- The flits of the message that a last flit ends: of its class, source and destination. -/
def messageOf (buf : List Flit) (f : Flit) : List Flit := buf.filter (fun g => g.cls == f.cls && g.src == f.src && g.dest == f.dest && g.part == f.part)

/-- What a module that becomes ALIGNED tells its neighbours (log entry 21). -/
def alignedNotice : Bytes := [0x50#8, 1#8]

/-! ## The lender (R265, R266, R269; log entry 29) -/

/-- The LPDDR5X extents that no partition holds or has reserved by a resize (R419), and no loan lends. -/
def State.freeDram (s : State) : List Nat :=
  (List.range 984).filterMap (fun i =>
    let e := 8 + i
    if s.parts.any (fun p => p.2.dram.contains e || p.2.staged.resize.any (fun r => r.flags / 2 % 2 == 1 && r.dram.contains e)) || s.lender.loans.any (fun l => l.extents.contains e) then none else some e)

/-- Extents lent to neighbours. -/
def State.lent (s : State) : Nat := (s.lender.loans.map (fun l => l.extents.length)).sum

/-- The answer to a neighbour that asks for `n` extents over link `i` (R265); no loan goes over a G5 link (R279). -/
def State.lendAnswer (s : State) (i n : Nat) : Status :=
  let offer := s.reg .tierDev 0 0x00
  if s.dev.phase != .running then .busyRecovery
  else if !offer.bit (24 + i) || !(s.link i).g7 then .notPermitted
  else if offer.field 9 0 < s.lent + n || decide (s.freeDram.length < n) then .noResource
  else .ok

/-- A loan granted to a partition of the neighbour: the lowest free extents, under the lowest number free on the link. -/
def State.grantLoan (s : State) (i p n : Nat) : State :=
  let ids := (s.lender.loans.filter (fun l => l.link == i)).map (·.id)
  let id := ((List.range (ids.length + 1)).find? (fun k => !ids.contains k)).getD 0
  s.setLender { loans := s.lender.loans ++ [{ link := i, id := id, part := p, extents := s.freeDram.take n, noticed := false }] }

/-- A loan that its borrower releases: its extents are zero-filled before they are offered again (R266). `k` is its place among the loans of its
size to the partition over the link, oldest first (log entry 29). -/
def State.loanReturned (s : State) (i p n k : Nat) : State :=
  match (s.lender.loans.filter (fun l => l.link == i && l.part == p && l.extents.length == n))[k]? with
  | some l => (l.extents.foldl State.clearExtent s).setLender { loans := s.lender.loans.erase l }
  | none => s

/-- A lent-memory message: a request for a loan, its release, a request for a shard, bytes of one. The other messages of the class are commands
of their own. -/
def State.lentMessage (s : State) (i : Nat) (bs : Bytes) : State :=
  let p := beAt bs 1 1
  match beAt bs 0 1 with
  | 0x40 =>
    let n := beAt bs 3 1
    let st := s.lendAnswer i n
    (if st = .ok then s.grantLoan i p n else s).sendMessage (i / 2) .lent p
      (beBytes 1 0x41 ++ beBytes 1 p ++ beBytes 1 (beAt bs 2 1) ++ beBytes 1 n ++ beBytes 2 (Status.code st))
  | 0x43 => s.loanReturned i p (beAt bs 2 1) (beAt bs 3 1)
  | 0x47 => s.sendShard (i / 2) p (beAt bs 2 1) (slice bs 3 32)
  | 0x48 => s.shardFrom (s.link i).peer p (beAt bs 2 1 == 1) (beAt bs 3 8) (bs.drop 11)
  | _ => s

/-- A stage of a partition's pipeline has received START_MODEL (R298, R425): it is awaited no longer. -/
def State.stageBack (s : State) (p stage : Nat) : State :=
  s.modPart p (fun pt => { pt with held := pt.held.filter (· != stage), lost := pt.lost.filter (· != stage) })

/-- A data flit taken: it is buffered until its message is whole; the message is forwarded, kept in order for its partition, or dropped for a
partition that no atlas on this module names. A destination that no route reaches is reported to the sender as lost (R290). -/
def State.takeFlit (s : State) (i : Nat) (f : Flit) : State :=
  let l := s.link i
  let dir := i / 2
  let buf := l.rxBuf ++ [f]
  if !f.last then s.putLink i { l with rxBuf := buf }
  else
    let fs := messageOf buf f
    let pair := (fs.head?.map (·.pair)).getD 0
    let bs := fs.flatMap (fun g => g.payload.take g.len)
    let s1 := s.putLink i { l with rxBuf := buf.filter (fun g => !fs.contains g) }
    let keep := fun (s : State) (cls : LClass) (bs : Bytes) =>
      (s.setVeolo { s.veolo with early := s.veolo.early ++ [(dir, pair, cls, f.part, bs)] }).deliver dir (s.veolo.early.length + 1)
    if s.veolo.numValid && f.dest != s.veolo.num then
      let skip := keep s1 .management []
      match s.route f.dest with
      | some d =>
        if f.cls == .activation || f.cls == .lent then skip
        else if s.dirLost d then skip.sendTo f.src .management 0 (reachNotice f.dest false)
        else skip.sendOn d f.cls f.dest f.src f.prio f.part bs
      | none => skip
    else if f.cls == .management && bs == alignedNotice then
      ((keep s1 .management []).modLink (2 * dir) (fun l => { l with peerAligned := true })).modLink (2 * dir + 1) (fun l =>
        { l with peerAligned := true }) |>.refreshNbr dir
    else if f.cls == .lent then (keep s1 .management []).lentMessage i bs
    else if f.cls == .management && beAt bs 0 1 == 0x17 then (keep s1 .management []).stageBack (beAt bs 1 1) (beAt bs 2 1)
    else if f.cls == .management && beAt bs 0 1 == 0x1B then
      (keep s1 .management []).takeReach dir (beAt bs 1 2) (beAt bs 3 1 == 1)
    else if f.cls == .management && beAt bs 0 1 == 0x1A then (keep s1 .management []).toldLost (beAt bs 1 1) bs
    else if f.cls == .management then keep s1 .management []
    else if (s.part f.part).any (·.image.isSome) then keep s1 f.cls bs
    else (keep s1 .management []).bump .vl i 0x18 fs.length

/-- The inbox without the places of messages whose contents are their own commands. -/
def State.sweepInbox (s : State) : State :=
  s.setVeolo { s.veolo with inbox := s.veolo.inbox.filter (fun e => e.2.1 != .management) }

end Sys2Proof.Machine
end

