-- ==== Sys2Proof/Machine/RegWrite.lean ====
section
/-!
DEFINITION. Writing the registers (R6 to R9, R480 to R487): the writable fields and who may write each, the ranges that the chapters give,
what a write does, and the GO fields whose write completes when the operation they start has its final status.
-/
namespace Sys2Proof.Machine

open Sys2Proof

/-- Access types of a writable field (Table 5 of Scope and conventions). -/
inductive Acc where
  | rw | w1c | wo
  deriving DecidableEq, Repr

/-- Who may write a field: every session of the partition, its owner and the device owner, the device owner alone. -/
inductive Who where
  | client | partOwner | owner
  deriving DecidableEq, Repr

/-- A writable field: its bits, access and writers. -/
structure Fld where
  hi : Nat
  lo : Nat
  acc : Acc
  who : Who
  deriving DecidableEq, Repr

/-- RW fields of the same writers. -/
def rws (who : Who) (bits : List (Nat × Nat)) : List Fld := bits.map (fun b => { hi := b.1, lo := b.2, acc := .rw, who := who })
/-- A WO bit. -/
def wos (who : Who) (i : Nat) : Fld := { hi := i, lo := i, acc := .wo, who := who }

/-- The writable fields of a register; every other bit is read-only, clears on read or is reserved. -/
def Blk.fields (b : Blk) (off : Nat) : List Fld :=
  match b, off with
  | .dev, 0x100 => [{ hi := 8, lo := 0, acc := .w1c, who := .owner }]
  | .dev, 0x104 => wos .owner 31 :: rws .owner [(8, 0)]
  | .dev, 0x300 => rws .owner [(31, 31), (6, 0)]
  | .pg, 0x04 => rws .owner [(7, 0)]
  | .tbl, 0x00 => rws .client [(31, 9)]
  | .tbl, 0x04 => rws .client [(5, 0)]
  | .tbl, 0x08 => rws .client [(17, 16), (15, 8), (5, 0)]
  | .tbl, 0x0C => wos .client 31 :: rws .client [(30, 30), (29, 28), (27, 27), (22, 16), (5, 0)]
  | .grat, 0x00 => rws .client [(24, 16), (2, 2), (1, 0)]
  | .kv, 0x10 => rws .owner [(31, 16), (15, 0)]
  | .kv, 0x14 => rws .client [(31, 11)]
  | .kv, 0x18 => rws .client [(5, 0)]
  | .kv, 0x1C => wos .client 31 :: rws .client [(29, 28), (25, 16), (6, 0)]
  | .gz, 0x00 => rws .owner [(31, 31)]
  | .strm, 0x00 => rws .owner [(22, 16)] ++ rws .client [(7, 0)]
  | .req, 0x00 => rws .owner [(29, 16), (13, 0)]
  | .req, 0x04 => rws .owner [(26, 16), (7, 0)]
  | .dr, 0x00 => rws .owner [(13, 0)]
  | .dr, 0x04 => rws .owner [(31, 31), (14, 0)]
  | .dr, 0x20 => rws .owner [(7, 0)]
  | .nt, 0x00 => rws .owner [(31, 16), (12, 8), (4, 0)]
  | .nt, 0x04 => rws .owner [(10, 0)]
  | .nt, 0x24 => rws .owner [(7, 0)]
  | .tier, 0x24 => wos .owner 31 :: wos .owner 30 :: rws .owner [(10, 8), (6, 0)]
  | .tierDev, 0x00 => rws .owner [(31, 24), (9, 0)]
  | .tierDev, 0x04 => rws .owner [(15, 0)]
  | .model, 0x00 => rws .owner [(0, 0)]
  | .vl, 0x00 => wos .owner 30 :: rws .owner [(31, 31), (29, 29)]
  | .vlDev, 0x00 => rws .owner [(15, 15), (11, 0)]
  | .vlDev, 0x04 => rws .owner [(31, 31), (30, 30), (22, 16), (14, 8)]
  | .vlDev, 0x08 => rws .owner [(15, 0)]
  | .narrow, 0x00 => rws .client [(20, 16)]
  | .eth, 0x00 => rws .owner [(31, 31), (30, 30), (29, 29), (28, 28), (27, 27), (2, 0)]
  | .ethDev, 0x00 => rws .owner [(31, 16), (15, 0)]
  | .ethDev, 0x04 => rws .owner [(23, 0)]
  | .ethDev, 0x08 => rws .owner [(0, 0)]
  | .ethDev, 0x0C => rws .owner [(31, 0)]
  | .ethDev, 0x10 => rws .owner [(31, 0)]
  | .ethDev, 0x14 => rws .owner [(31, 0)]
  | .ethDev, 0x18 => rws .owner [(31, 0)]
  | .ethDev, 0x1C => rws .owner [(31, 0)]
  | .ls, 0x00 => rws .owner [(31, 16), (15, 0)]
  | .ls, 0x04 => rws .owner [(6, 0)]
  | .evt, 0x00 => rws .partOwner [(9, 0)]
  | _, _ => []

/-- A frame may write a field. -/
def State.mayWrite (s : State) (c : Ctx) (w : Who) : Bool :=
  match w with
  | .client => true
  | .partOwner => s.isOwner c || s.role c == some .partOwner
  | .owner => s.isOwner c

/-- The value written asks a field to change: another value for RW, any one for W1C and WO (R486). -/
def Fld.asks (f : Fld) (old v : Word) : Bool :=
  match f.acc with
  | .rw => v.field f.hi f.lo != old.field f.hi f.lo
  | _ => v.field f.hi f.lo != 0

/-- The register after a write of the fields given: RW fields take the value, reserved bits keep theirs (R8). -/
def writtenWord (fs : List Fld) (old v : Word) : Word :=
  fs.foldl (fun w f => if f.acc == .rw then w.setField f.hi f.lo (v.field f.hi f.lo) else w) old

/-- What comes of a write: done, refused, or waiting for what it started (R482). -/
inductive WOut where
  | done (s : State)
  | no (st : Status)
  | waits (s : State) (what part : Nat)
  deriving Repr

/-- A model of a partition is started: it serves, drains, swaps or is held (Table 5 of Model images). -/
def MState.up : MState → Bool
  | .started | .draining | .swapping | .held => true
  | _ => false

/-- Extents of the LPDDR5X that no partition holds. -/
def State.freeExtents (s : State) : Nat := 984 - (s.parts.map (fun e => e.2.dram.length)).sum

/-! ## Ranges (R62, R246, R262, R273 to R275, R300, R332, R448 and the register sections of the chapters) -/

/-- The status with which the range of a register refuses a word. -/
def State.outOfRange (s : State) (b : Blk) (k off : Nat) (w : Word) : Option Status :=
  let np := fun (ok : Bool) => if ok then none else some Status.notPermitted
  let within := fun (lo hi n : Nat) => np (decide (lo ≤ n) && decide (n ≤ hi))
  match b, off with
  | .dev, 0x300 => within 0x08 0x77 (w.field 6 0)
  | .pg, 0x04 => within 100 250 (w.field 7 0)
  | .dr, 0x00 => within 250 16000 (w.field 13 0)
  | .dr, 0x04 => within 256 16384 (w.field 14 0)
  | .dr, 0x20 => within 1 168 (w.field 7 0)
  | .nt, 0x00 => np (decide (1 ≤ w.field 4 0) && decide (w.field 4 0 ≤ 25) && decide (1 ≤ w.field 12 8) && decide (w.field 12 8 ≤ 30) &&
      decide (1 ≤ w.field 31 16))
  | .nt, 0x04 =>
    if 1200 < w.field 10 0 then some .notPermitted
    else if 3600 < 3 * w.field 10 0 + 16 * (s.parts.map (fun e => e.2.nand.length)).sum then some .noResource
    else none
  | .nt, 0x24 => within 1 168 (w.field 7 0)
  | .tierDev, 0x00 => if s.freeExtents < w.field 9 0 then some .noResource else none
  | .tierDev, 0x04 => within 10 60000 (w.field 15 0)
  | .vlDev, 0x00 => np (!(w.bit 15 && s.parts.any (fun e => MState.up e.2.mstate)))
  | .vlDev, 0x04 => np (decide (1 ≤ w.field 22 16) && decide (w.field 22 16 ≤ 64) && decide (1 ≤ w.field 14 8) && decide (w.field 14 8 ≤ 64))
  | .vlDev, 0x08 => within 10 10000 (w.field 15 0)
  | .narrow, 0x00 => within 4 16 (w.field 20 16)
  | .eth, 0x00 => within 0 4 (w.field 2 0)
  | .ethDev, 0x00 => np (decide (0x0600 ≤ w.field 31 16) && w.field 15 0 != 0)
  | .ls, 0x00 => np (w.field 31 16 != 0 && decide (100 ≤ w.field 15 0) && decide (w.field 15 0 ≤ 64000))
  | .evt, 0x00 => within 0 1000 (w.field 9 0)
  | .req, 0x00 =>
    if 8192 < w.field 29 16 || 8192 < w.field 13 0 || w.field 29 16 < w.field 13 0 then some .notPermitted
    else if 8192 < w.field 13 0 + ((s.parts.filter (fun e => e.1 != k)).map (fun e => (s.reg .req e.1 0).field 13 0)).sum then some .noResource
    else none
  | .req, 0x04 => within 0 1024 (w.field 26 16)
  | .strm, 0x00 => within 0 ((s.part k).map (fun pt => pt.quads.length) |>.getD 0) (w.field 22 16)
  | .grat, 0x00 => np ((s.part k).any (fun pt => pt.quads.contains (w.field 24 16 / 4)))
  | .kv, 0x10 =>
    if ((s.part k).map (fun pt => s.sheetTotal k - pt.sheets.length)).getD 0 < w.field 31 16 then some .noResource else none
  | _, _ => none

/-! ## What a write starts -/

/-- An operation of a GO that ends at once with its final status: the fields of the write stay written (R92, R189, R265). -/
def State.endGo (s : State) (what p : Nat) (st : Status) : WOut := .waits (s.pushGo what p st) what p

/-- TBL_LOAD_CTL.GO (R92): the status of a load that is refused is the last load's too. -/
def State.startTableLoad (s : State) (p : Nat) (w : Word) : WOut :=
  let d := s.reg .tbl p 0x08
  let src := (s.reg .tbl p 0x00).field 31 9 * 512 + (s.reg .tbl p 0x04).field 5 0 * 2 ^ 32
  let op : LoadOp :=
    { kind := d.field 17 16, slot := d.field 15 8, row := d.field 5 0, rows := w.field 5 0, bank := w.field 29 28, swap := w.bit 30,
      quad := if w.bit 27 then some (w.field 22 16) else none }
  match s.part p with
  | none => .no .notPermitted
  | some pt =>
    if !LoadOp.ok op then (s.lastLoad p .badFrame).endGo 1 p .badFrame
    else if op.quad.any (fun q => !pt.quads.contains q) || decide (pt.shareBytes < src + 512 * op.rows) then
      (s.lastLoad p .notPermitted).endGo 1 p .notPermitted
    else
      let r := s.shareReadChecked pt src (512 * op.rows)
      match r.2.1 with
      | some bs => .waits (r.1.addLoad p { op := op, rows := bs, bay := none }) 1 p
      | none => (r.1.lastLoad p .uncorrectable).endGo 1 p .uncorrectable

/-- KV_BMP_CTL.GO (R173, R189): a load that arrives during a copy waits for it to end. -/
def State.startBitmap (s : State) (p : Nat) (w : Word) : WOut :=
  let src := (s.reg .kv p 0x14).field 31 11 * 2048 + (s.reg .kv p 0x18).field 5 0 * 2 ^ 32
  let n := w.field 6 0
  let i := w.field 25 16
  match s.part p with
  | none => .no .notPermitted
  | some pt =>
    if w.field 29 28 = 1 || n = 0 || decide (64 < n) || decide (1024 < i + n) then s.endGo 2 p .badFrame
    else if pt.shareBytes < src + 2048 * n then s.endGo 2 p .notPermitted
    else
      let r := s.shareReadChecked pt src (2048 * n)
      match r.2.1 with
      | none => r.1.endGo 2 p .uncorrectable
      | some bs =>
        if pt.bmpCopying then .waits (r.1.modPart p (fun v => { v with bmpQ := v.bmpQ ++ [(w.field 29 28, i, bs)] })) 2 p
        else
          let q := r.1.runBitmap p pt (w.field 29 28, i, bs)
          q.1.endGo 2 p q.2

/-- A tile reset by DEV_TILE_RST (R433): its rows, its table store and its membership stay. -/
def Tile.blockReset (v : Tile) : Tile :=
  { Tile.cleared with tables := v.tables, bad := v.bad, scrubPtr := v.scrubPtr, bound := v.bound }

/-- DEV_TILE_RST.GO (R433). -/
def State.startTileReset (s : State) (w : Word) : WOut :=
  let t := w.field 8 0
  if !s.tileIdle t || ((s.ownerOf t).bind s.part).any (·.resetting.isSome) then .no .notPermitted
  else .done (s.modTile t Tile.blockReset)

/-- The loans that a device holds. -/
def State.loansHeld (s : State) : Nat := (s.parts.map (fun e => e.2.loans.length + e.2.loanAsk.length)).sum

/-- The neighbour over a link is one that traffic reaches (R265, R289). -/
def State.linkNeighbour (s : State) (i : Nat) : Bool :=
  let n := s.veolo.nbrs.getD (i / 2) .absent
  n == .active || n == .degraded || n == .retraining

/-- TIER_LOAN_CTL with GO or RELEASE (R265, R269): a request goes to the lender in the lent-memory class; a return begins with the moves. -/
def State.startLoan (s : State) (p : Nat) (w : Word) (go rel : Bool) : WOut :=
  let link := w.field 10 8
  let n := w.field 6 0
  match s.part p with
  | none => .no .notPermitted
  | some pt =>
    if go && rel then .no .badFrame
    else if go then
      if n = 0 || decide (64 < n) then .no .badFrame
      else if !s.linkNeighbour link || !(s.link link).g7 then .no .notPermitted
      else if 16 ≤ s.loansHeld then .no .noResource
      else
        .waits ((s.sendMessage (link / 2) .lent p (beBytes 1 0x40 ++ beBytes 1 p ++ beBytes 1 link ++ beBytes 1 n)).modPart p (fun v =>
          { v with loanAsk := v.loanAsk ++ [(link, n)] })) (askCode link n) p
    else if !(pt.loans.any (fun l => l.link == link && l.active)) then .no .notPermitted
    else
      .waits (s.modPart p (fun v => { v with loans := v.loans.map (fun l =>
        if l.link == link && l.active then { l with notice := true, returning := true, copies := [] } else l) })) (releaseCode link) p

/-- The most recently made loans, not under notice, that cover a difference (R268): `ls` from the newest. -/
def toReclaim : Nat → List Lent → List (Nat × Nat)
  | 0, _ => []
  | _, [] => []
  | n + 1, l :: ls => (l.link, l.id) :: toReclaim (n + 1 - l.extents.length) ls

/-- Reclaim by a lower offer (R268): a notice for each loan it covers. -/
def State.reclaim (s : State) (offer : Nat) : State :=
  let live := s.lender.loans.filter (fun l => !l.noticed)
  let lent := (live.map (fun l => l.extents.length)).sum
  let hit := toReclaim (lent - offer) live.reverse
  (hit.foldl (fun s e => s.sendMessage (e.1 / 2) .lent 0 (beBytes 1 0x42 ++ beBytes 1 e.1 ++ beBytes 2 e.2)) s).setLender
    { loans := s.lender.loans.map (fun l => if hit.contains (l.link, l.id) then { l with noticed := true } else l) }

/-- A change of GZ_CTL.EN (R186, R190): 0 is staged for the next meridian; 1 enters INIT where the gazetteer is OFF. -/
def State.gzEnable (s : State) (p : Nat) (en : Bool) : State :=
  s.modPart p (fun pt =>
    if en then
      { pt with staged := { pt.staged with gzOff := false },
                gzState := if pt.gzState = 0 && MState.up pt.mstate && (pt.image.any Image.isFirst) then 1 else pt.gzState }
    else { pt with staged := { pt.staged with gzOff := true } })

/-- What a write does beyond storing its word `w`; `v` is the value written, `old` what the register held. -/
def State.writeEffect (s : State) (b : Blk) (k off : Nat) (old w v : Word) : WOut :=
  let keep := s.putReg b k off w
  match b, off with
  | .dev, 0x100 =>
    .done (s.setDev { s.dev with sticky := ((List.range 9).map (fun i => bitAt (s.dev.sticky / 2 ^ i % 2 == 1 && !v.bit i) i)).sum })
  | .dev, 0x104 => if v.bit 31 then keep.startTileReset w else .done keep
  | .tbl, 0x0C => if v.bit 31 then keep.startTableLoad k w else .done keep
  | .kv, 0x1C => if v.bit 31 then keep.startBitmap k w else .done keep
  | .grat, 0x00 =>
    let s1 := if old.field 24 16 = w.field 24 16 then keep
      else (List.range 10).foldl (fun s i => s.putReg .grat k (0x14 + 4 * i) 0) keep
    .done (s1.modPart k (fun pt => { pt with staged := { pt.staged with grat := true } }))
  | .gz, 0x00 => .done (keep.gzEnable k (w.bit 31))
  | .nt, 0x04 =>
    .done (if s.nand.pauseUsed = 0 then keep.setNand { s.nand with pauseSize := w.field 10 0, pauseWant := none }
      else keep.setNand { s.nand with pauseWant := if w.field 10 0 = s.nand.pauseSize then none else some (w.field 10 0) })
  | .tier, 0x24 => if v.bit 31 || v.bit 30 then keep.startLoan k w (v.bit 31) (v.bit 30) else .done keep
  | .tierDev, 0x00 => .done (keep.reclaim (w.field 9 0))
  | .vl, 0x00 => .done (keep.linkControl k (w.bit 31) (v.bit 30))
  | .vlDev, 0x00 =>
    if w.bit 15 then .waits (keep.cfSubmit 0 none (beBytes 1 0 ++ beBytes 4 (w.field 11 0))) 5 0 else .done keep
  | .vlDev, 0x04 => .waits (keep.cfSubmit 0 none (beBytes 1 1 ++ beBytes 4 w.toNat)) 5 0
  | .eth, 0x00 =>
    let restart := old.field 30 30 != w.field 30 30 || old.field 29 29 != w.field 29 29 || old.field 27 27 != w.field 27 27 ||
      old.field 2 0 != w.field 2 0 || !w.bit 31
    .done (if restart then keep.setEth (NMap.erase keep.eth k) else keep)
  | .ethDev, 0x00 =>
    .done (keep.setLesar { keep.lesar with
      oldEtherType := if old.field 31 16 = w.field 31 16 then keep.lesar.oldEtherType else some (old.field 31 16),
      oldUdpPort := if old.field 15 0 = w.field 15 0 then keep.lesar.oldUdpPort else some (old.field 15 0) })
  | _, _ => .done keep

/-- One entry of a REG_WRITE (R6, R7, R480, R481, R486). -/
def State.writeEntry (s : State) (c : Ctx) (a : Nat) (v : Word) : WOut :=
  if a % 4 ≠ 0 then .no .badFrame
  else
    match regPlace a with
    | none => if inRange a then .done s else .no .badFrame
    | some (b, k, off) =>
      if !s.mayAccess c b k off then .no .notPermitted
      else if b.perPart && (s.part k).isNone then .no .notPermitted
      else if b.perPart && (s.part k).any (·.resetting.isSome) then .no .busyRecovery
      else
        let fs := b.fields off
        let mine := fs.filter (fun f => s.mayWrite c f.who)
        let old := s.regValue b k off
        if fs.isEmpty then .done s
        else if mine.isEmpty || fs.any (fun f => !s.mayWrite c f.who && f.asks old v) then .no .notPermitted
        else if b == .dev && off == 0x300 && c.sess == sidebandSess then .no .notPermitted
        else
          let w := writtenWord mine (if b == .vlDev then old else s.reg b k off) v
          match s.outOfRange b k off w with
          | some st => .no st
          | none => s.writeEffect b k off (s.reg b k off) w v

/-! ## REG_READ and REG_WRITE (R377, R482) -/

/-- The entries of a REG_WRITE from the one numbered `i`: acted on one after the other, until one is refused or waits. -/
def State.writeEntries (s : State) (c : Ctx) : List (Word × Word) → Nat → State
  | [], _ => s.reply c 0x0607 .ok []
  | (a, v) :: es, i =>
    match s.writeEntry c a.toNat v with
    | .no st => s.reply c 0x0607 st (beBytes 4 i)
    | .done s1 => State.writeEntries s1 c es (i + 1)
    | .waits s1 what part =>
      s1.setLesar { s1.lesar with regWaits := s1.lesar.regWaits ++ [{ ctx := c, what := what, part := part, index := i, rest := es }] }

/-- Operations started by a GO that have their final status answer their frames, whose next entries are acted on; `n` bounds their
number. -/
def State.settleGos (s : State) : Nat → State
  | 0 => s
  | n + 1 =>
    match s.lesar.goDone with
    | [] => s
    | (what, p, st) :: gs =>
      let s1 := s.setLesar { s.lesar with goDone := gs }
      match s1.lesar.regWaits.find? (fun w => w.what == what && w.part == p) with
      | none => s1.settleGos n
      | some w =>
        let s2 := s1.setLesar { s1.lesar with regWaits := s1.lesar.regWaits.erase w }
        (if st = .ok then s2.writeEntries w.ctx w.rest (w.index + 1) else s2.reply w.ctx 0x0607 st (beBytes 4 w.index)).settleGos n

/-- Every operation that has its final status answered. -/
def State.settleAll (s : State) : State := s.settleGos (64 * (s.lesar.goDone.length + s.lesar.regWaits.length + 1))

/-- A frame of register entries served: sequenced or from the sideband mailbox; the PARTITION of a client is its own (R2, R410). -/
def State.regFrame (s : State) (c : Ctx) (op : Nat) (body : State → Res) : Res :=
  match s.serveRefusal c op .early with
  | some st => s.answer c op st
  | none => if c.sess ≠ sidebandSess && !s.addresses c then s.answer c op .notPermitted else body s

/-- The entries of a REG_WRITE acted on, and what has ended answered. -/
def State.regWrites (s : State) (c : Ctx) (es : List (Word × Word)) : Res :=
  s.regFrame c 0x0607 (fun s => .next ((s.writeEntries c es 0).settleAll))

/-- One register written by a frame of its own. -/
def State.regWriteOne (s : State) (c : Ctx) (b : Blk) (k off : Nat) (v : Word) : Res :=
  require (decide (k < b.place.2.2)) "no such instance" (s.regWrites c [(BitVec.ofNat 32 (b.at k off), v)])

/-- REG_READ (R377). -/
def execRegRead (c : Ctx) (payload : Bytes) (s : State) : Res :=
  s.regFrame c 0x0606 (fun s =>
    let n := beAt payload 0 4
    if n = 0 || decide (64 < n) || payload.length != 4 + 4 * n then s.answer c 0x0606 .badFrame
    else
      let r := s.readEntries c ((List.range n).map (fun i => beAt payload (4 + 4 * i) 4)) 0 []
      match r.2.1 with
      | .ok () => .next (r.1.reply c 0x0606 .ok r.2.2)
      | .error (st, i) => .next (r.1.reply c 0x0606 st (beBytes 4 i ++ r.2.2)))

/-- REG_WRITE (R377). Without the device owner's role the sideband mailbox serves REG_READ alone (R384). -/
def execRegWrite (c : Ctx) (payload : Bytes) (s : State) : Res :=
  let n := beAt payload 0 4
  if c.sess = sidebandSess && !s.isOwner c then s.answer c 0x0607 .notPermitted
  else if n = 0 || decide (64 < n) || payload.length != 4 + 8 * n then s.regFrame c 0x0607 (fun s => s.answer c 0x0607 .badFrame)
  else
    s.regWrites c ((List.range n).map (fun i =>
      (BitVec.ofNat 32 (beAt payload (4 + 8 * i) 4), BitVec.ofNat 32 (beAt payload (8 + 8 * i) 4))))

/-! ## Writes of one register -/

/-- TBL_LOAD: TBL_LOAD_CTL written (R92). -/
def execTblLoad (c : Ctx) (p : Nat) (value : Word) (s : State) : Res := s.regWriteOne c .tbl p 0x0C value
/-- GRAT_CTL_WRITE (R114). -/
def execGratCtlWrite (c : Ctx) (p : Nat) (value : Word) (s : State) : Res := s.regWriteOne c .grat p 0x00 value
/-- GZ_CTL_WRITE (R190). -/
def execGzCtlWrite (c : Ctx) (p : Nat) (value : Word) (s : State) : Res := s.regWriteOne c .gz p 0x00 value
/-- KV_RING_CTL_WRITE (R177). -/
def execKvRingCtlWrite (c : Ctx) (p : Nat) (value : Word) (s : State) : Res := s.regWriteOne c .kv p 0x10 value
/-- BITMAP_LOAD: KV_BMP_CTL written (R173, R189). -/
def execBitmapLoad (c : Ctx) (p : Nat) (value : Word) (s : State) : Res := s.regWriteOne c .kv p 0x1C value
/-- STRM_CTL_WRITE (R212). -/
def execStrmCtlWrite (c : Ctx) (p : Nat) (value : Word) (s : State) : Res := s.regWriteOne c .strm p 0x00 value
/-- LS_REQ_LIMIT_WRITE (R246). -/
def execLsReqLimitWrite (c : Ctx) (p : Nat) (value : Word) (s : State) : Res := s.regWriteOne c .req p 0x00 value
/-- LS_REQ_CTL_WRITE (R246). -/
def execLsReqCtlWrite (c : Ctx) (p : Nat) (value : Word) (s : State) : Res := s.regWriteOne c .req p 0x04 value
/-- NT_PAUSE_CTL_WRITE (R262, R274). -/
def execNtPauseCtlWrite (c : Ctx) (value : Word) (s : State) : Res := s.regWriteOne c .nt 0 0x04 value
/-- LOAN_REQUEST: TIER_LOAN_CTL written (R265). -/
def execLoanRequest (c : Ctx) (p : Nat) (value : Word) (s : State) : Res := s.regWriteOne c .tier p 0x24 value
/-- LOAN_RELEASE: TIER_LOAN_CTL written (R269). -/
def execLoanRelease (c : Ctx) (p : Nat) (value : Word) (s : State) : Res := s.regWriteOne c .tier p 0x24 value
/-- TIER_LEND_OFFER_WRITE (R268, R275). -/
def execTierLendOfferWrite (c : Ctx) (value : Word) (s : State) : Res := s.regWriteOne c .tierDev 0 0x00 value
/-- RETRAIN: VL_LINK_CTL written (R300). -/
def execRetrain (c : Ctx) (link : Nat) (value : Word) (s : State) : Res := s.regWriteOne c .vl link 0x00 value
/-- VL_DEV_NUM_WRITE (R289). -/
def execVlDevNumWrite (c : Ctx) (value : Word) (s : State) : Res := s.regWriteOne c .vlDev 0 0x00 value
/-- VL_TOPO_CTL_WRITE (R300). -/
def execVlTopoCtlWrite (c : Ctx) (value : Word) (s : State) : Res := s.regWriteOne c .vlDev 0 0x04 value
/-- PG_CTL_WRITE (R448). -/
def execPgCtlWrite (c : Ctx) (value : Word) (s : State) : Res := s.regWriteOne c .pg 0 0x04 value
/-- TILE_BLOCK_RESET: DEV_TILE_RST written (R433). -/
def execTileBlockReset (c : Ctx) (value : Word) (s : State) : Res := s.regWriteOne c .dev 0 0x104 value

/-! ## What ends later -/

/-- Bitmap loads that waited for a copy carried out in their order. -/
def State.runBitmaps (s : State) (p : Nat) (js : List (Nat × Nat × Bytes)) : State :=
  js.foldl (fun s j =>
    match s.part p with
    | none => s
    | some pt => let q := s.runBitmap p pt j; q.1.pushGo 2 p q.2) s

/-- BITMAP_COPY_COMPLETE (R173). -/
def execBitmapCopyComplete (p : Nat) (s : State) : Res :=
  match s.part p with
  | none => impossible "no such partition"
  | some pt =>
    require pt.bmpCopying "no bitmap copy runs"
      (.next ((((s.copyBitmaps p).modPart p (fun v => { v with bmpCopying := false, bmpQ := [] })).runBitmaps p pt.bmpQ).settleAll))

/-- CF_ERASE_COMPLETE (R340). -/
def execCfEraseComplete (s : State) : Res :=
  match s.flash.op with
  | some (.erase n after) => .next (s.cfEraseDone n after).settleAll
  | _ => impossible "no erase runs"

/-- CF_PROGRAM_COMPLETE (R335, R346). -/
def execCfProgramComplete (s : State) : Res :=
  match s.flash.op with
  | some (.erase _ _) => impossible "no program runs"
  | some o => .next (s.cfProgramDone o).settleAll
  | none => impossible "no program runs"

end Sys2Proof.Machine
end

