-- ==== Sys2Proof/Machine/Admit.lean ====
section
/-!
DEFINITION. Admission at a meridian (R163, R165, R167, R177, R178, R206, R207, R221 to R226, R240, R242, R320, R326): the sequences that go on,
the candidates, the computation of insets, restores, new streams and bindings.
-/
namespace Sys2Proof.Machine

open Sys2Proof

/-! ## Sequences that go on (R163, R165, R222, R230) -/

/-- The sequence has a row: its request is admitted and does not pause. -/
def Part.rowed (pt : Part) (q : Seq) : Bool := q.ofInset || (NMap.find pt.reqs q.handle).any (fun r => r.st == .admitted)

/-- A beam that waits for the prompt that its first beam prefills (log entry 26). -/
def Seq.idleBeam (q : Seq) : Bool := q.beam != 0 && q.pos == 0

/-- Positions that a sequence takes in its next step: one in decode, up to a chunk in prefill. -/
def Seq.want (c : Nat) (q : Seq) : Nat := if q.todo.isEmpty then 1 else min c q.todo.length

/-- The tokens at those positions. -/
def Seq.next (c : Nat) (q : Seq) : List Nat := if q.todo.isEmpty then [q.lastToken] else q.todo.take c

/-- The tokens whose sheets this module holds, of those that a sequence takes in its next step (R178, R180): all of them, but of a prompt that is
prefilled on the ring only those of segment 0. -/
def Seq.ownNext (c : Nat) (q : Seq) : List Nat :=
  if q.ring.isEmpty || q.todo.isEmpty then q.next c else (q.next c).take (q.homeEnd - q.pos)

/-- The session of a sequence holds too many tokens that are not acknowledged (R230). -/
def State.emitHeld (s : State) (pt : Part) (q : Seq) : Bool :=
  (((NMap.find pt.reqs q.handle).bind (·.sess)).bind s.session).any (fun v => decide (65536 < v.unackedTokens))

/-- The sequences that the prefill budget lets go on, in admission order (R222); `pf` is what is used. -/
def pickBudget (c pfMax : Nat) : Nat → List Seq → List Seq
  | _, [] => []
  | pf, q :: qs =>
    if q.todo.isEmpty then q :: pickBudget c pfMax pf qs
    else if pf + q.want c ≤ pfMax then q :: pickBudget c pfMax (pf + q.want c) qs
    else pickBudget c pfMax pf qs

/-- The writers that get their sheets, in admission order, of `left` that can be taken. -/
def Part.fitSheets (pt : Part) (c : Nat) (go : List Seq) : Nat → List Seq → List Seq
  | _, [] => []
  | left, q :: qs =>
    let n := pt.sheetCost go q (q.ownNext c).length
    if n ≤ left then q :: Part.fitSheets pt c go (left - n) qs else Part.fitSheets pt c go left qs

/-- Step 1 of R165: repeated until no further sequence drops out. -/
def Part.settleGo (pt : Part) (c avail : Nat) : Nat → List Seq → List Seq
  | 0, go => go
  | n + 1, go =>
    let kept := pt.fitSheets c go avail go
    if kept.length = go.length then go else Part.settleGo pt c avail n kept

/-- The records that a meridian collects, in the order in which they are sent, each with its session. -/
abbrev Recs := List (Nat × TokRec)

/-- A sequence that cannot go on ends with NO_RESOURCE (R163, R165). -/
def State.endShort (s : State) (p h : Nat) : State × Recs :=
  let s1 := s.bump .kv p 0x28 1
  if 2 ^ 32 ≤ h then (s1.endInset p (h - 2 ^ 32) .noResource, []) else s1.endReq p h .noResource

/-- Sequences that reach a limit of R163 end at the meridian that opens the step. -/
def State.endOverlong (s : State) (p c : Nat) : State × Recs :=
  match s.part p with
  | none => (s, [])
  | some pt =>
    let ending := pt.seqs.filter (fun q => pt.rowed q && !q.idleBeam && !listFits q.list (q.ownNext c).length q.pos (q.want c))
    (ending.map (·.handle)).eraseDups.foldl (fun a h => let r := a.1.endShort p h; (r.1, a.2 ++ r.2)) (s, [])

/-- The sequences that go on in the step that opens, those that wait for sheets, and how many are held for their session (R165, R230);
`n` bounds the repetitions of step 2. -/
def State.chooseGo (s : State) (p c pfMax : Nat) : Nat → Recs → State × List Seq × Recs
  | 0, rs => (s, [], rs)
  | n + 1, rs =>
    match s.part p with
    | none => (s, [], rs)
    | some pt =>
      let live := pt.seqs.filter (fun q => pt.rowed q && !q.idleBeam)
      let free := live.filter (fun q => !s.emitHeld pt q)
      let go := pickBudget c pfMax 0 free
      let kept := pt.settleGo c (s.sheetsToTake p pt) go.length go
      let short := go.filter (fun q => !kept.contains q)
      match kept, short.getLast? with
      | [], some q =>
        let r := s.endShort p q.handle
        State.chooseGo r.1 p c pfMax n (rs ++ r.2)
      | _, _ => (((s.bump .kv p 0x24 short.length).bump .req p 0x24 (live.length - free.length)), kept, rs)

/-- A sequence of a partition changed. -/
def State.modSeq (s : State) (p h beam : Nat) (f : Seq → Seq) : State :=
  s.modPart p (fun pt => { pt with seqs := pt.seqs.map (fun q => if q.handle == h && q.beam == beam then f q else q) })

/-- A sequence takes its positions in the step that opens: its list grows by them (R162, R165, R167). -/
def State.advanceSeq (s : State) (p c : Nat) (copy : Bool) (q : Seq) : State :=
  let g := s.growSeq p (copy && !(q.ownNext c).isEmpty) q.list q.pos (q.ownNext c)
  g.1.modSeq p q.handle q.beam (fun v => { v with list := g.2, took := v.want c, inStep := true, sampled := none })

/-- Step 1 of R165 carried out: the copies and sheets of the sequences that go on. -/
def State.continueSeqs (s : State) (p c pfMax : Nat) : State × Recs :=
  let e := s.endOverlong p c
  let ch := e.1.chooseGo p c pfMax (((e.1.part p).map (fun pt => pt.seqs.length)).getD 0 + 1) []
  match ch.1.part p with
  | none => (ch.1, e.2 ++ ch.2.2)
  | some pt =>
    let plan := ch.2.1.map (fun q => (q, pt.copies ch.2.1 q))
    (plan.foldl (fun s w => s.advanceSeq p c w.2 w.1) ch.1, e.2 ++ ch.2.2)

/-! ## Room for a candidate (R221, R225) -/

/-- A claim on the shared remainder ranks above another (R225): one past 256 meridians, then the higher class, then the lower partition. -/
def claimAbove (a b : Bool × Nat × Nat) : Bool :=
  if a.1 != b.1 then a.1
  else if a.2.1 != b.2.1 then decide (b.2.1 < a.2.1)
  else decide (a.2.2 < b.2.2)

/-- Entries that a partition takes from the shared remainder for `n` more: those above its floor (R225). -/
def Part.extraFor (pt : Part) (n : Nat) : Nat := (pt.seqs.length + n - pt.floorIn) - (pt.seqs.length - pt.floorIn)

/-- The entries of the shared remainder that waiting claims of other partitions above this one ask for. -/
def State.claimsAbove (s : State) (p : Nat) (pt : Part) (waited : Nat) : Nat :=
  (s.parts.map (fun e =>
    if e.1 = p then 0
    else e.2.extraFor (((e.2.reqs.filter (fun r => decide (0 < r.2.claimed) &&
      claimAbove (decide (256 ≤ r.2.claimed), e.2.cls, e.1) (decide (256 ≤ waited), pt.cls, p))).map (fun r => r.2.opts.beams)).sum))).sum

/-- Whether `n` admitted entries can be had, and whether only the shared remainder, or while a floor has been raised over entries that others
hold the device's 8,192, is short (R218, R225). -/
def State.entryRoom (s : State) (p : Nat) (pt : Part) (n waited : Nat) : Bool × Bool :=
  if pt.reqLimit.field 29 16 < pt.seqs.length + n then (false, false)
  else
    let extra := pt.extraFor n
    if decide (s.admitted + n ≤ 8192) && (extra = 0 || decide (extra + s.claimsAbove p pt waited ≤ s.sharedFree)) then (true, false)
    else (false, true)

/-- The lowest request-table indices that are free (R218). -/
def State.freeIndices (s : State) (n : Nat) : List Nat :=
  let used := s.parts.flatMap (fun e => e.2.seqs.map (·.index))
  ((List.range 8192).filter (fun i => !used.contains i)).take n

/-! ## Building a sequence -/

/-- The entries of an inset as a request's list holds them (R162, R241). -/
def Part.insetList (pt : Part) (h : Nat) : List PageEntry :=
  ((NMap.find pt.insets h).map (fun v => v.list.map (fun e => { e with inset := true }))).getD []

/-- Positions that a list holds. -/
def listEnd (l : List PageEntry) : Nat := ((l.getLast?).map (fun e => e.start + e.fill)).getD 0

/-- A list cut at a position: what a branch copies of its parent's list while the parent's step is open (R167). -/
def cutList (l : List PageEntry) (pos : Nat) : List PageEntry :=
  (l.filter (fun e => decide (e.start < pos))).map (fun e => { e with fill := min e.fill (pos - e.start) })

/-- A sequence as it is admitted. -/
def Seq.start (h index : Nat) (l : List PageEntry) (pos : Nat) (todo : List Nat) (last : Nat) : Seq :=
  { handle := h, beam := 0, index := index, list := l, pos := pos, todo := todo, took := 0, inStep := false, sampled := none,
    lastToken := last, out := [], ring := [], mask := none }

/-- The segments of a list of `e` entries over `n` ring members from position `home` (R178): the member, its first entry and its entries. -/
def segmentsOf (e n home : Nat) : List (Nat × Nat × Nat) :=
  let k := (e + n - 1) / n
  (List.range n).map (fun i => ((home + i) % n, i * k, min k (e - i * k)))

/-- A prompt of `len` tokens is prefilled on the ring (R178, R298): it is long enough, no member is lost and every member can take its segment,
of which the manual gives the home no account (log entry 2). -/
def State.ringPrefill (s : State) (p len : Nat) : Bool × State :=
  let ring := ((s.part p).bind (fun pt => pt.image.map (fun im => im.ring s.veolo.num))).getD []
  let low := (s.reg .kv p 0x10).field 15 0
  if low = 0 || len ≤ low * 128 || ring.length < 2 || !ring.contains s.veolo.num || ring.any s.deviceLost then (false, s)
  else ((s.fresh).1.bit 0, (s.fresh).2)

/-- The segment table of a sequence that is prefilled on the ring (R178): for every segment the ring member that holds it, its first position and
its positions. The entries are those of its list and of the prompt behind it, from position `q.pos`. -/
def segmentTable (q : Seq) (n home : Nat) : List (Nat × Nat × Nat) :=
  let old := q.list.length
  let ends := q.pos + q.todo.length
  let at_ := fun (i : Nat) => if i < old then ((q.list[i]?).map (·.start)).getD 0 else min ends (q.pos + 128 * (i - old))
  (segmentsOf (old + (q.todo.length + 127) / 128) n home).map (fun g =>
    (g.1, at_ g.2.1, if g.2.2 = 0 then 0 else at_ (g.2.1 + g.2.2) - at_ g.2.1))

/-- The sheets that two sequences hold at one position exchanged, with their records (R167): of two writers of one sheet the one with the higher
request-table index keeps the original. -/
def State.swapSheets (s : State) (p start : Nat) (a b : Seq) : State :=
  match a.list.find? (fun e => e.start == start), b.list.find? (fun e => e.start == start) with
  | some x, some y =>
    s.modPart p (fun pt =>
      let h := NMap.get (Sheet.fresh start) pt.sheets x.sheet
      let k := NMap.get (Sheet.fresh start) pt.sheets y.sheet
      let change := fun (q : Seq) (n : Nat) => { q with list := q.list.map (fun e => if e.start == start then { e with sheet := n } else e) }
      { (pt.putSheet x.sheet k).putSheet y.sheet h with
        seqs := pt.seqs.map (fun q =>
          if q.handle == a.handle && q.beam == a.beam then change q y.sheet
          else if q.handle == b.handle && q.beam == b.beam then change q x.sheet else q) })
  | _, _ => s

/-- The writers of a branch's open sheet in the step that opens (R167): its parent, where that advances, and the branches of it that have been
admitted at the same meridian. -/
def Part.coWriters (pt : Part) (h parent : Nat) : List Seq :=
  if pt.seqs.any (fun q => q.handle == parent && q.inStep && decide (0 < q.took)) then
    pt.seqs.filter (fun q => q.handle != h && q.inStep && decide (0 < q.took) && (q.handle == parent ||
      ((NMap.find pt.reqs q.handle).any (fun r => r.opts.parent == some parent) &&
        pt.seqs.any (fun v => v.handle == parent && v.pos == q.pos))))
  else []

/-- An admitted branch's open sheet as the counts of R167 over all writers of the step leave it: with the highest index the branch keeps the
original, and the writer that had it takes the copy. -/
def State.settleBranch (s : State) (p h parent start : Nat) : State :=
  match s.part p with
  | none => s
  | some pt =>
    match pt.seqs.find? (fun q => q.handle == h && q.beam == 0),
      ((pt.coWriters h parent).mergeSort (fun a b => decide (b.index ≤ a.index))).head? with
    | some q, some top => if top.index < q.index then s.swapSheets p start top q else s
    | _, _ => s

/-- A new request's sequence at its admission: its inset, the hits that still hold (R183) and what is left of its prompt. -/
def State.buildNew (s : State) (p : Nat) (pt : Part) (h : Nat) (r : Req) : State × Seq :=
  let hits := s.confirmHits p pt r.opts.inset r.prompt r.hits
  let base := pt.insetList r.opts.inset
  let at0 := listEnd base
  let l := base ++ (List.range hits.length).map (fun i => { start := at0 + 128 * i, fill := 128, inset := false, sheet := hits.getD i 0 })
  let pt1 := pt.refList l
  let pt2 := { pt1 with sheets := hits.foldl (fun m n => NMap.modify m n (fun v => { v with stamp := s.merCount p })) pt1.sheets }
  ((s.putPart p pt2).bump .gz p 0x08 hits.length, Seq.start h 0 l (at0 + 128 * hits.length) (r.prompt.drop (128 * hits.length)) 0)

/-- A branch of a live sequence (R167): its parent's list, what is left of the parent's prompt, and its own prompt. -/
def State.buildBranch (s : State) (p : Nat) (pt : Part) (h : Nat) (r : Req) (parent : Seq) : State × Seq :=
  let l := cutList parent.list parent.pos
  let lead := if parent.todo.isEmpty && !r.prompt.isEmpty then [parent.lastToken] else []
  (s.putPart p (pt.refList l), Seq.start h 0 l parent.pos (parent.todo ++ lead ++ r.prompt) parent.lastToken)

/-- A resume's sequence (R240): its own list, its last token before its new ones. -/
def State.buildResume (s : State) (h : Nat) (r : Req) : State × Seq :=
  (s, Seq.start h 0 r.list r.pos (if r.prompt.isEmpty then [] else r.lastToken :: r.prompt) r.lastToken)

/-- What has become of a candidate: admitted with the rows and budget it uses, ended with its records, or passed over; `true` where only
the shared remainder of entries was short. -/
inductive Tried where
  | admitted (s : State) (rows pf : Nat)
  | ended (s : State) (recs : Recs)
  | passed (claims : Bool)

/-- The request of an admitted sequence: its waiting entry and its place in the pause directory are free (R237, R240). -/
def Req.entered (r : Req) : Req :=
  match r.resumeOpts with
  | none => { r with st := .admitted, candAt := none, passed := 0, claimed := 0, prompt := [], hits := [] }
  | some o =>
    { r with st := .admitted, candAt := none, passed := 0, claimed := 0, prompt := [], hits := [], list := [], moved := [], tier := 0,
             resumeOpts := none, left := if o.maxNew = 0 then r.left else o.maxNew,
             opts := { r.opts with endPause := o.endPause, ttl := o.ttl, maxNew := o.maxNew } }

/-- A built sequence given its sheets and its place in the tables: none where the sheets cannot all be had (R165 step 3). -/
def State.seat (s : State) (p c : Nat) (r : Req) (q0 : Seq) : Option State :=
  match s.part p with
  | none => none
  | some pt =>
    let ring := s.ringPrefill p r.prompt.length
    let members := ((pt.image.map (fun im => im.ring s.veolo.num)).getD [])
    let q := { q0 with
      ring := if ring.1 then segmentTable q0 members.length (members.findIdx (· == s.veolo.num)) else [],
      mask := r.opts.mask }
    let toks := q.ownNext c
    let copy := pt.copies [q] q && !toks.isEmpty
    if ring.2.sheetsToTake p pt < newSheets q.list toks.length + copy.toNat then none
    else
      let idx := s.freeIndices r.opts.beams
      let g := ring.2.growSeq p copy q.list q.pos toks
      let first := { q with index := idx.getD 0 0, list := g.2, took := q.want c, inStep := true }
      let others := (List.range (r.opts.beams - 1)).map (fun i =>
        { Seq.start q.handle (idx.getD (i + 1) 0) [] 0 [] 0 with beam := i + 1, ring := q.ring, mask := r.opts.mask })
      let s1 := g.1.modPart p (fun pt => { pt with seqs := pt.seqs ++ first :: others })
      some (match copy, lastOwn q.list, r.opts.parent with
        | true, some e, some h => s1.settleBranch p q.handle h e.start
        | _, _, _ => s1)

/-- A candidate tried (R221): entries, rows, budget for its first chunk, sheets; all or none. A request whose parent has ended, or whose inset has
been removed, while it waited ends with NOT_PERMITTED (log entry 26). -/
def State.tryReq (s : State) (p c bMax pfMax h rows pf : Nat) : Tried :=
  match s.part p with
  | none => .passed false
  | some pt =>
    match NMap.find pt.reqs h with
    | none => .passed false
    | some r =>
      let parent := r.opts.parent.bind (fun n => if (NMap.find pt.reqs n).any (fun v => v.st == .admitted)
        then pt.seqs.find? (fun q => q.handle == n && q.beam == 0) else none)
      if r.resumeOpts.isNone && ((r.opts.parent.isSome && parent.isNone) ||
          (r.opts.inset != 0 && r.opts.parent.isNone && !(NMap.find pt.insets r.opts.inset).any (·.installed))) then
        let e := s.endReq p h .notPermitted
        .ended e.1 e.2
      else
        let room := s.entryRoom p pt r.opts.beams r.claimed
        if !room.1 then .passed room.2
        else
          let b := match r.resumeOpts, parent with
            | some _, _ => s.buildResume h r
            | none, some q => s.buildBranch p pt h r q
            | none, none => s.buildNew p pt h r
          let q := b.2
          let first := if q.todo.isEmpty then 0 else q.want c
          if bMax < rows + r.opts.beams || pfMax < pf + first then .passed false
          else if !listFits q.list (q.ownNext c).length q.pos (q.want c) then
            let e := (s.bump .kv p 0x28 1).endReq p h .noResource
            .ended e.1 e.2
          else
            match b.1.seat p c r q with
            | none => .passed false
            | some s1 =>
              let s2 := if r.tier = 1 then s1.setNand { s1.nand with pauseUsed := s1.nand.pauseUsed - movedBytes r.moved } else s1
              .admitted ((s2.modPart p (fun pt => { pt with reqs := NMap.modify pt.reqs h Req.entered })).bump .req p 0x10 1)
                (rows + r.opts.beams) (pf + first)

/-- The computation of an inset admitted under R221 (R326): one row, room for its first chunk, its sheets. -/
def State.tryInset (s : State) (p c bMax pfMax h rows pf : Nat) : Tried :=
  match s.part p with
  | none => .passed false
  | some pt =>
    match NMap.find pt.insets h with
    | none => .passed false
    | some v =>
      let q := Seq.start (insetSeq h) ((s.freeIndices 1).getD 0 0) [] 0 v.tokens 0
      let n := q.want c
      if !(s.entryRoom p pt 1 0).1 || bMax < rows + 1 || pfMax < pf + n || s.sheetsToTake p pt < pt.sheetCost [q] q n then .passed false
      else
        let g := s.growSeq p false [] 0 (q.next c)
        .admitted (g.1.modPart p (fun pt =>
          { pt with seqs := pt.seqs ++ [{ q with list := g.2, took := n, inStep := true }],
                    insets := NMap.insert pt.insets h { v with admitted := true } })) (rows + 1) (pf + n)

/-! ## The candidates of a meridian -/

/-- A request is a candidate (R221): its prompt is complete and walked, or its restore has completed. -/
def Req.isCandidate (r : Req) : Bool := r.candAt.isSome && r.walked && (r.st == .waiting || r.st == .restoring)

/-- The candidates in order: the instant at which each became one, then its handle; an inset by the handle of its computation. -/
def Part.candidates (pt : Part) : List Nat :=
  let rs := (pt.reqs.filter (fun e => e.2.isCandidate)).map (fun e => (e.2.candAt.getD 0, e.1))
  let is := (pt.insets.filter (fun e => !e.2.admitted && (!e.2.installed || e.2.again.isSome))).map (fun e => (e.2.candAt, insetSeq e.1))
  ((rs ++ is).mergeSort (fun a b => decide (a.1 < b.1) || (a.1 == b.1 && decide (a.2 ≤ b.2)))).map Prod.snd

/-- A candidate passed over once more (R223); `claims` says that only the shared remainder was short (R225). -/
def State.passOver (s : State) (p h : Nat) (claims : Bool) : State :=
  (s.modPart p (fun pt => { pt with reqs := NMap.modify pt.reqs h (fun r =>
    { r with passed := r.passed + 1, claimed := if claims then r.claimed + 1 else 0 }) })).bump .req p 0x28 1

/-- Candidates that are not tried at a meridian are not passed over: their runs of consecutive meridians end (R223). -/
def State.notTried (s : State) (p : Nat) (hs : List Nat) : State :=
  s.modPart p (fun pt => { pt with reqs := hs.foldl (fun m h => NMap.modify m h (fun r => { r with passed := 0 })) pt.reqs })

/-- A candidate that has been passed over often enough blocks those behind it (R223). -/
def State.blocks (s : State) (p h : Nat) : Bool :=
  match s.part p with
  | none => false
  | some pt =>
    let n := pt.reqCtl.field 7 0
    n != 0 && (NMap.find pt.reqs h).any (fun r => decide (n ≤ r.passed))

/-- The candidates tried in their order (R221, R223). -/
def State.admitAll (s : State) (p c bMax pfMax : Nat) : List Nat → Nat → Nat → Recs → State × Recs
  | [], _, _, rs => (s, rs)
  | h :: hs, rows, pf, rs =>
    match (if 2 ^ 32 ≤ h then s.tryInset p c bMax pfMax (h - 2 ^ 32) rows pf else s.tryReq p c bMax pfMax h rows pf) with
    | .admitted s1 rows1 pf1 => State.admitAll s1 p c bMax pfMax hs rows1 pf1 rs
    | .ended s1 e => State.admitAll s1 p c bMax pfMax hs rows pf (rs ++ e)
    | .passed claims =>
      if 2 ^ 32 ≤ h then State.admitAll s p c bMax pfMax hs rows pf rs
      else
        let s1 := s.passOver p h claims
        if s1.blocks p h then (s1.notTried p hs, rs) else State.admitAll s1 p c bMax pfMax hs rows pf rs

/-! ## Restores (R168, R240) -/

/-- Sheets taken for the entries of a moved cache; none where they cannot all be had. -/
def State.takeMoved (s : State) (p : Nat) : List (PageEntry × Sheet × Bytes) → List PageEntry → Option (State × List PageEntry)
  | [], acc => some (s, acc)
  | m :: ms, acc =>
    match s.takeSheet p m.1.start with
    | none => none
    | some (s1, n) =>
      State.takeMoved (s1.modPart p (fun pt => pt.putSheet n { m.2.1 with refs := 1, node := false, parent := none }))
        p ms (acc ++ [{ m.1 with sheet := n }])

/-- Entries in position order. -/
def sortEntries (l : List PageEntry) : List PageEntry := l.mergeSort (fun a b => decide (a.start ≤ b.start))

/-- A resume takes its sheets and its restore begins, if they can all be had (R240 step 2). -/
def State.beginRestore (s : State) (p h : Nat) : State :=
  match (s.part p).bind (fun pt => NMap.find pt.reqs h) with
  | none => s
  | some r =>
    match s.takeMoved p r.moved [] with
    | none => s
    | some (s1, es) =>
      s1.modPart p (fun pt => { pt with reqs := NMap.insert pt.reqs h { r with st := .restoring, list := sortEntries (r.list ++ es) } })

/-- The resumes that wait for their sheets, in order of acceptance. -/
def State.beginRestores (s : State) (p : Nat) : State :=
  match s.part p with
  | none => s
  | some pt =>
    let rs := (pt.reqs.filter (fun e => e.2.st == .resuming)).map (fun e => (e.2.candAt.getD 0, e.1))
    ((rs.mergeSort (fun a b => decide (a.1 ≤ b.1))).map Prod.snd).foldl (fun s h => s.beginRestore p h) s

/-! ## Streams (R203, R206, R207, R242) -/

/-- The streams staged for opening are created parked with zeroed state, and their frames answered (R242). -/
def State.openStreams (s : State) (p : Nat) : State :=
  match s.part p with
  | none => s
  | some pt =>
    let s1 := pt.staged.opens.foldl (fun s e =>
      match (s.part p).bind (fun pt => (NMap.find pt.streams e.1).map (fun v => (pt, v))) with
      | none => s
      | some (pt, v) =>
        ((s.zeroPages pt v).modPart p (fun pt => { pt with streams := NMap.insert pt.streams e.1 { v with st := .parked } })).reply
          e.2 0x0201 .ok []) s
    s1.modPart p (fun pt => { pt with staged := { pt.staged with opens := [] } })

/-- The tiles of the binding quads: the BIND_QUADS highest-numbered of the partition (R206). -/
def State.bindTiles (s : State) (p : Nat) (pt : Part) : List Nat :=
  ((pt.quads.mergeSort (fun a b => decide (b ≤ a))).take ((s.reg .strm p 0).field 22 16)).flatMap quadTiles

/-- The binding tiles that hold no slot, in increasing number. -/
def State.freeBindTiles (s : State) (p : Nat) (pt : Part) : List Nat :=
  ((s.bindTiles p pt).filter (fun t => !s.tileOut t && !(s.tile t).twin && (s.tile t).bound.isNone)).mergeSort

/-- A stream's oldest queued chunk orders it among those that wait; ties go to the lower handle (R206). -/
def waitingStreams (pt : Part) (st : StrSt) : List Nat :=
  let es := (pt.streams.filter (fun e => e.2.st == st && !e.2.queue.isEmpty)).map (fun e => ((e.2.queue.head?.map (·.arrived)).getD 0, e.1))
  (es.mergeSort (fun a b => decide (a.1 < b.1) || (a.1 == b.1 && decide (a.2 ≤ b.2)))).map Prod.snd

/-- The pages of a stream's slots read with their errors found: none where one is uncorrectable. -/
def State.readPages (s : State) (pt : Part) (im : Image) (v : Strm) : List Nat → State × Option (List Bytes)
  | [] => (s, some [])
  | i :: is =>
    let f := s.shareReadChecked pt (pt.statePage im v i) 8704
    match f.2.1 with
    | none => (f.1, none)
    | some bs =>
      match State.readPages f.1 pt im v is with
      | (s1, none) => (s1, none)
      | (s1, some r) => (s1, some (bs :: r))

/-- A parked stream bound to the tiles given (R206): its pairs are those of its pages, but zero for a new stream; a page that is uncorrectable
ends it (R211). On a stage without slots there is nothing to bind (R194). -/
def State.bindStream (s : State) (p h number : Nat) (tiles : List Nat) : State :=
  match s.part p with
  | none => s
  | some pt =>
    match NMap.find pt.streams h, pt.image with
    | some v, some im =>
      let f := if v.fresh then (s, some []) else s.readPages pt im v (List.range tiles.length)
      match f.2 with
      | none => f.1.loseStream p h .uncorrectable
      | some pages =>
        let s1 := (List.range tiles.length).foldl (fun s i =>
          s.modTile (tiles.getD i 0) (fun w =>
            let w1 := w.setPairs (wordsOfBytes 2048 ((pages.getD i []).drop 512))
            { w1 with twin := true, bankBad := false, bound := some (p, h, i) })) f.1
        let s2 := if v.fresh then s1 else
          (List.range tiles.length).foldl (fun s i => s.touchShare (quadPort (tiles.getD i 0)) pt (pt.statePage im v i) 8704) s1
        let v1 : Strm := { v with st := .bound, tiles := tiles, number := number, idle := 0, boundAt := s.stamp, fresh := false }
        (s2.modPart p (fun pt => { pt with streams := NMap.insert pt.streams h v1 })).setStamp (s.stamp + 1)
    | _, _ => s

/-- The lowest bound-stream number that no stream of the partition has. -/
def Part.freeNumber (pt : Part) : Nat :=
  let used := (pt.streams.filter (fun e => e.2.st == .bound)).map (fun e => e.2.number)
  ((List.range 512).find? (fun i => !used.contains i)).getD 0

/-- Streams bound in all partitions. -/
def State.boundStreams (s : State) : Nat := (s.parts.map (fun e => e.2.boundHere)).sum

/-- Parked streams bound in their order until one cannot be (R206). Whether every later stage with slots has room is a free value. On a stage
without slots the limit is that of the stages with slots, which hold as many of the partition's streams (R207). -/
def State.bindAll (s : State) (p : Nat) (im : Image) : List Nat → State
  | [] => s
  | h :: hs =>
    match s.part p with
    | none => s
    | some pt =>
      let free := s.freeBindTiles p pt
      let others := (List.range im.stages).any (fun st => st != im.stage && im.stageField st 3 1 != 0)
      let f := s.fresh
      let bound := if im.slots = 0 then (pt.streams.filter (fun e => e.2.st == .bound)).length else s.boundStreams
      if free.length < im.slots || 512 ≤ bound || (others && !f.1.bit 0) then s
      else State.bindAll ((if others then f.2 else s).bindStream p h pt.freeNumber (free.take im.slots)) p im hs

/-! ## Item 9 as a whole -/

/-- Admission is open (R224, R319, R324): the model is started, no swap holds it, and the power guard is below LEVEL2. -/
def State.admits (s : State) (pt : Part) : Bool := pt.mstate == .started && decide (s.guard.level < 2)

/-- The computations of insets that a swap asks for (R320): admitted in spite of the hold. -/
def Part.recomputes (pt : Part) : List Nat := pt.candidates.filter (fun h => decide (2 ^ 32 ≤ h) && (NMap.find pt.insets (h - 2 ^ 32)).any (·.again.isSome))

/-- Item 9 on a first stage: the sequences that go on, the candidates, restores, new streams, bindings. -/
def State.admission (s : State) (p : Nat) (im : Image) : State × Recs :=
  let c := im.chunkC
  let a := s.continueSeqs p c im.pfMax
  match a.1.part p with
  | none => a
  | some pt =>
    let rows := (pt.seqs.filter pt.rowed).length
    let pf := ((pt.seqs.filter (fun q => q.inStep && !q.todo.isEmpty)).map (·.took)).sum
    let open_ := a.1.admits pt
    let s0 := if open_ then a.1 else a.1.notTried p pt.candidates
    let b := s0.admitAll p c im.bMax im.pfMax (if open_ then pt.candidates else pt.recomputes) rows pf []
    let s1 := b.1.beginRestores p
    let s2 := if open_ then s1.openStreams p else s1
    let s3 := match s2.part p with
      | some pt => if im.neverBinds then s2 else s2.bindAll p im (waitingStreams pt .parked)
      | none => s2
    (s3, a.2 ++ b.2)

end Sys2Proof.Machine
end

