-- ==== Sys2Proof/Machine/Walks.lean ====
section
/-!
DEFINITION. The gazetteer engine (R183, R187, R188, R226): the walks of prompts, one at a time over all partitions, and the end of a
pool's formatting and of a rebuild.
-/
namespace Sys2Proof.Machine

open Sys2Proof

/-- A walk runs. -/
def State.walkRuns (s : State) : Bool := s.parts.any (fun e => !e.2.gzWalkOf.isEmpty)

/-- The walk that runs next (R226): the oldest, once it has been queued for 10 ms; else that of the highest class, the first to arrive among
those. -/
def State.nextWalk (s : State) : Option (Nat × Nat × Nat) :=
  match s.walks.find? (fun w => decide (w.2.2 + 10000000 ≤ s.now)) with
  | some w => some w
  | none => s.walks.find? (fun w => s.walks.all (fun v => decide (s.endpointClass v.1 ≤ s.endpointClass w.1)))

/-- It is the turn of a request's walk. -/
def State.walkTurn (s : State) (p h : Nat) : Bool := s.nextWalk.any (fun w => w.1 == p && w.2.1 == h)

/-- The index has a parity error (R187, R451): every gazetteer that is READY rebuilds, and the fault of the shared resource is told. -/
def State.indexFault (s : State) : State :=
  let hit := (s.parts.filter (fun e => e.2.gzState == 2)).map Prod.fst
  (s.setParts (s.parts.map (fun e => (e.1, if e.2.gzState = 2 then { e.2 with gzState := 3 } else e.2)))).sharedEvent hit .uncorrectable 0 0 0

/-- The records of sheets read in their order, an uncorrectable one losing its sheet where the partition holds it (R169): the sheets before the
first loss. -/
def State.readRecords (s : State) (p : Nat) : List Nat → State × List Nat
  | [] => (s, [])
  | n :: ns =>
    match s.part p with
    | none => (s, [])
    | some pt =>
      match pt.image with
      | none => (s, [])
      | some im =>
        let r := s.shareReadChecked pt (recordOff im pt.layout (s.sheetTotal p) n) 576
        if r.2.2 then (if (NMap.find pt.sheets n).isSome then r.1.loseSheet p n else r.1, [])
        else let q := State.readRecords r.1 p ns; (q.1, n :: q.2)

/-- A request becomes a candidate now. -/
def State.nowCandidate (s : State) (p h : Nat) : State :=
  (s.modPart p (fun pt => { pt with reqs := NMap.modify pt.reqs h (fun r => { r with walked := true, candAt := some s.stamp }) })).setStamp
    (s.stamp + 1)

/-- GAZETTEER_WALK (R183, R226): a queued walk begins. -/
def execGazetteerWalk (p handle : Nat) (env : List Strike) (s : State) : Res :=
  match s.part p with
  | none => impossible "no such partition"
  | some _ =>
    require (!s.walkRuns && s.survey.gzOut.isNone && s.walkTurn p handle) "not the turn of this walk"
      (let s1 := (s.strike env).modPart p (fun pt => { pt with gzWalkOf := [handle] })
       .next (if env.contains .gzIndex then s1.indexFault else s1))

/-- GAZETTEER_WALK_END (R183): the walk, begun again by every meridian, ends on the tree as it stands; its request becomes a candidate. -/
def execGazetteerWalkEnd (p handle : Nat) (s : State) : Res :=
  match s.part p with
  | none => impossible "no such partition"
  | some pt =>
    match NMap.find pt.reqs handle with
    | none => impossible "no such request"
    | some r =>
      require (pt.gzWalkOf.contains handle) "no walk of this request runs"
        (let w := if pt.gzState = 2 then pt.walk (walkLimit r.prompt.length) (s.hashSeed p r.opts.inset) none r.prompt else ([], .limit)
         let s1 := if w.2 = .miss then s.bump .gz p 0x0C 1 else if w.2 = .collide then s.bump .gz p 0x10 1 else s
         let s2 := (s1.modPart p (fun pt => { pt with gzWalkOf := [] })).setWalks (s1.walks.filter (fun v => !(v.1 == p && v.2.1 == handle)))
         let q := s2.readRecords p w.1
         .next ((q.1.modPart p (fun pt => { pt with reqs := NMap.modify pt.reqs handle (fun r => { r with hits := q.2 }) })).nowCandidate
           p handle))

/-- GZ_REBUILD_COMPLETE (R188): the records of the pool have been read in increasing sheet number. -/
def execGzRebuildComplete (p : Nat) (s : State) : Res :=
  match s.part p with
  | none => impossible "no such partition"
  | some pt =>
    require (pt.gzState == 3 && s.survey.gzOut.isNone) "no rebuild runs"
      (let s1 := (List.range (s.sheetTotal p)).foldl (fun s n => (s.readRecords p [n]).1) s
       .next (s1.modPart p (fun pt => { pt with gzState := 2 })))

/-- GZ_INIT_COMPLETE (R187): the pool is formatted. -/
def execGzInitComplete (p : Nat) (s : State) : Res :=
  match s.part p with
  | none => impossible "no such partition"
  | some pt => require (pt.gzState == 1) "no pool is being formatted" (.next (s.modPart p (fun pt => { pt with gzState := 2 })))

end Sys2Proof.Machine
end

