-- ==== Sys2Proof/Machine/Requests.lean ====
section
/-!
DEFINITION. The frames of requests (R214 to R220, R233, R236 to R241): opening, continuing, cancelling, pausing and resuming, their checks in
the order of Table 3 of Serving requests and streams, and the ends of moves, restores, walks and times to live.
-/
namespace Sys2Proof.Machine

open Sys2Proof

/-! ## Checks (Table 3) -/

/-- The status of the first case that holds. -/
def firstBad (cs : List (Bool × Status)) : Option Status := (cs.find? (fun e => e.1)).map Prod.snd

/-- A frame refused: one for want of resources is counted. -/
def State.refuse (s : State) (c : Ctx) (op : Nat) (st : Status) : State :=
  (if st = .noResource then s.bump .req c.part 0x2C 1 else s).reply c op st []

/-- A DATA frame served by the first stage of a partition (R214, R235, R298, R425): its partition exists, is not being reset, has lost no stage and
waits for none. -/
def State.serveData (s : State) (c : Ctx) (op : Nat) (body : State → Part → Res) : Res :=
  s.serve c op .port false (fun s =>
    match s.part c.part with
    | none => s.answer c op .notPermitted
    | some pt =>
      if pt.resetting.isSome || !pt.lost.isEmpty || !pt.held.isEmpty then s.answer c op .busyRecovery
      else if pt.image.any (fun im => !im.isFirst) then s.answer c op .notPermitted
      else body s pt)

/-- A handle that names nothing (R215). -/
def badHandle (h : Nat) : Bool := h == 0 || h == 0xFFFFFFFF

/-- A handle in use in a partition (R215). -/
def Part.inUse (pt : Part) (h : Nat) : Bool := (NMap.find pt.reqs h).isSome || (NMap.find pt.streams h).isSome

/-- A frame may act on an object that belongs to a session (R216). -/
def State.holds (s : State) (c : Ctx) (sess : Option Nat) : Bool :=
  sess == some c.sess || s.isOwner c || s.role c == some .partOwner

/-- Token identifiers of a payload. -/
def tokensAt (pl : Bytes) (off n : Nat) : List Nat := (List.range n).map (fun i => beAt pl (off + 4 * i) 4)

/-- A token is outside the vocabulary of the partition's model. -/
def Part.badToken (pt : Part) (ts : List Nat) : Bool := pt.image.any (fun im => ts.any (fun t => decide (im.vocab ≤ t)))

/-- A PAUSE_TTL field is wrong: outside 1 to 86,400 with END_PAUSE, not zero without (Tables 1 and 2). -/
def badTtl (endPause : Bool) (ttl : Nat) : Bool := if endPause then ttl == 0 || decide (86400 < ttl) else false

/-- TEMPERATURE is NaN or outside 0 to 100. -/
def badTemperature (w : Word) : Bool :=
  let v := f32 w
  !(FVal.eq v (.fin false 0 0) || (FVal.lt (.fin false 0 0) v && !FVal.lt (.fin false 100 0) v))

/-- TOP_P is NaN, 0 or less, or above 1. -/
def badTopP (w : Word) : Bool :=
  let v := f32 w
  !(FVal.lt (.fin false 0 0) v && !FVal.lt (.fin false 1 0) v)

/-- Prompt tokens that wait in a partition (R245). -/
def Part.waitingTokens (pt : Part) : Nat := ((pt.reqs.filter (fun e => e.2.waits)).map (fun e => e.2.prompt.length)).sum

/-- There is no waiting entry for a new request or resume (R218). -/
def State.waitFull (s : State) (pt : Part) : Bool :=
  decide (1024 ≤ (s.parts.map (fun e => e.2.waiting)).sum) || decide (pt.reqCtl.field 26 16 ≤ pt.waiting)

/-- The waiting-token area has no room for `n` tokens more. -/
def Part.tokensFull (pt : Part) (n : Nat) : Bool := decide (4194304 < pt.waitingTokens + n)

/-- A model serves in the partition: it takes requests and resumes (Table 5 of Model images). -/
def Part.serves (pt : Part) : Bool := pt.mstate == .started || pt.mstate == .swapping || pt.mstate == .held

/-- The options of an OPEN_REQUEST (Table 1). -/
def openOpts (pl : Bytes) : ReqOpts :=
  let flags := beAt pl 0 1
  { endPause := flags / 2 % 2 == 1, beams := beAt pl 1 1, stops := tokensAt pl 48 (beAt pl 2 2), inset := beAt pl 4 4,
    seed := BitVec.ofNat 64 (beAt pl 8 8), temperature := BitVec.ofNat 32 (beAt pl 16 4), topK := beAt pl 20 2,
    topP := BitVec.ofNat 32 (beAt pl 24 4), maxNew := beAt pl 28 4, ttl := beAt pl 32 4,
    parent := if flags / 4 % 2 = 1 then some (beAt pl 36 4) else none,
    mask := if flags / 8 % 2 = 1 then some (beAt pl 40 2, beAt pl 42 2, beAt pl 44 2) else none }

/-- The payload of an OPEN_REQUEST is malformed: its length, or a field marked zero. -/
def openMalformed (pl : Bytes) : Bool :=
  let o := openOpts pl
  decide (pl.length < 84) || pl.length != 84 + 4 * beAt pl 80 4 || decide (16 ≤ beAt pl 0 1) || beAt pl 22 2 != 0 || beAt pl 46 2 != 0 ||
    (!o.endPause && o.ttl != 0) || (o.parent.isNone && beAt pl 36 4 != 0) ||
    (List.range 8).any (fun i => decide (o.stops.length ≤ i) && beAt pl (48 + 4 * i) 4 != 0)

/-- The check of a branch (Table 3, R232, R241). -/
def Part.badParent (pt : Part) (o : ReqOpts) : Bool :=
  match o.parent with
  | none => false
  | some h =>
    match NMap.find pt.reqs h with
    | none => true
    | some v => v.st != .admitted || v.opts.beams != 1 || o.beams != 1 || v.opts.inset != o.inset

/-- The checks of an OPEN_REQUEST in the order of Table 3. -/
def State.openRefusal (s : State) (pt : Part) (h : Nat) (pl : Bytes) : Option Status :=
  let o := openOpts pl
  let toks := tokensAt pl 84 (beAt pl 80 4)
  firstBad
    [(openMalformed pl, .badFrame), (badHandle h, .badFrame), (pt.inUse h, .notPermitted),
     (badTemperature o.temperature || decide (1024 < o.topK) || badTopP o.topP, .badFrame),
     (o.beams == 0 || decide (8 < o.beams) || o.maxNew == 0 || decide (2 ^ 24 ≤ o.maxNew) || decide (8 < o.stops.length) ||
       badTtl o.endPause o.ttl, .badFrame),
     (pt.badToken (toks ++ o.stops), .badFrame),
     (o.mask.any (fun m => decide (4096 < m.1 + m.2.1 * m.2.2)), .badFrame),
     (beAt pl 0 1 % 2 == 0 && toks.isEmpty && o.parent.isNone, .badFrame),
     (o.inset != 0 && !((NMap.find pt.insets o.inset).any (·.installed)), .notPermitted),
     (pt.badParent o, .notPermitted), (!pt.serves, .notPermitted),
     (s.waitFull pt || pt.tokensFull toks.length, .noResource)]

/-! ## The life of a waiting request -/

/-- The prompt of a request is complete: its walk is queued (R183); a branch, whose prefix is its parent's, becomes a candidate at once. -/
def State.promptDone (s : State) (p h : Nat) : State :=
  match (s.part p).bind (fun pt => NMap.find pt.reqs h) with
  | none => s
  | some r => if r.opts.parent.isSome then s.nowCandidate p h else s.setWalks (s.walks ++ [(p, h, s.now)])

/-- A resume is taken back: its restored sheets are released and the request stays paused (R219, R220, R240). -/
def Req.revert (r : Req) : Req :=
  { r with sess := none, st := if r.st = .pausing then .pausing else .paused, resumeOpts := none, more := false, prompt := [], walked := false,
           candAt := none, passed := 0, claimed := 0,
           list := if r.st = .restoring then r.list.filter (fun e => !r.moved.any (fun m => m.1.start == e.start)) else r.list }

/-- The entries that a restore has filled. -/
def Req.restored (r : Req) : List PageEntry :=
  if r.st = .restoring then r.list.filter (fun e => r.moved.any (fun m => m.1.start == e.start)) else []

/-- A resume of a partition taken back, its session told with a status. -/
def State.revertResume (s : State) (p h : Nat) (st : Status) : State :=
  match s.part p with
  | none => s
  | some pt =>
    match NMap.find pt.reqs h with
    | none => s
    | some r =>
      let rec_ := pt.endRec h st true
      (s.modPart p (fun pt =>
        let pt1 := pt.unrefList r.restored
        { pt1 with reqs := NMap.insert pt1.reqs h r.revert, gone := if r.st = .restoring then .resume h :: pt1.gone else pt1.gone })).emit p rec_

/-- A later frame of a request is refused with a status: the request ends with it, a paused request stays paused (R220). -/
def State.endContinuation (s : State) (p h : Nat) (r : Req) (st : Status) : State :=
  let s1 := if st = .noResource then s.bump .req p 0x2C 1 else s
  if r.resumeOpts.isSome then s1.revertResume p h st else s1.endReqNow p h st

/-- The first whole second of the device time base at or after an instant (R238). -/
def wholeSecond (t : Nat) : Nat := (t + 999999999) / 1000000000 * 1000000000

/-- A resume with nothing to do ends at once with OK (R240): with END_PAUSE the request stays paused for the resume's time to live. -/
def State.endEmptyResume (s : State) (p h : Nat) (r : Req) (o : ReqOpts) : State :=
  if o.endPause then
    (s.revertResume p h .ok).modPart p (fun pt => { pt with reqs := NMap.modify pt.reqs h (fun v =>
      { v with opts := { v.opts with endPause := true, ttl := o.ttl },
               endsAt := if r.st = .pausing then none else some (wholeSecond (s.now + o.ttl * 1000000000)) }) })
  else s.endReqNow p h .ok

/-- The last frame of a request or resume has been accepted (R219, R240). -/
def State.promptComplete (s : State) (p h : Nat) : State :=
  match (s.part p).bind (fun pt => NMap.find pt.reqs h) with
  | none => s
  | some r =>
    match r.resumeOpts with
    | none => if r.prompt.isEmpty && r.opts.parent.isNone then s.endReqNow p h .badFrame else s.promptDone p h
    | some o =>
      if o.maxNew = 0 && r.left = 0 && r.prompt.isEmpty then s.endEmptyResume p h r o
      else
        let s1 := s.modPart p (fun pt => { pt with reqs := NMap.modify pt.reqs h (fun v => { v with endsAt := none }) })
        if r.st = .restoring && r.walked then s1.nowCandidate p h else s1

/-! ## The frames -/

/-- A request as it enters the table. -/
def Req.opened (sess : Nat) (o : ReqOpts) (more : Bool) (toks : List Nat) : Req :=
  { sess := some sess, st := .waiting, opts := o, more := more, prompt := toks, hits := [], walked := false, candAt := none, passed := 0,
    claimed := 0, left := o.maxNew, resumeOpts := none, tier := 0, tierWant := 0, moved := [], list := [], pos := 0, endsAt := none,
    pauseBy := none, lastToken := 0 }

/-- OPEN_REQUEST (R214 to R220). -/
def execOpenRequest (c : Ctx) (payload : Bytes) (s : State) : Res :=
  s.serveData c 0x0101 (fun s pt =>
    match s.openRefusal pt c.handle payload with
    | some st => .next (s.refuse c 0x0101 st)
    | none =>
      let more := beAt payload 0 1 % 2 == 1
      let r := Req.opened c.sess (openOpts payload) more (tokensAt payload 84 (beAt payload 80 4))
      let s1 := ((s.clearTomb c.part c.handle).modPart c.part (fun pt => { pt with reqs := NMap.insert pt.reqs c.handle r })).reply
        c 0x0101 .pending []
      .next (if more then s1 else s1.promptDone c.part c.handle))

/-- APPEND_TOKENS (R219, R220): a frame that continues nothing is refused, a bad continuation ends its request. -/
def execAppendTokens (c : Ctx) (payload : Bytes) (s : State) : Res :=
  s.serveData c 0x0102 (fun s pt =>
    if badHandle c.handle then s.answer c 0x0102 .badFrame
    else
      match NMap.find pt.reqs c.handle with
      | none => s.answer c 0x0102 .notPermitted
      | some r =>
        if !s.holds c r.sess || !r.more then s.answer c 0x0102 .notPermitted
        else
          let n := beAt payload 4 4
          let toks := tokensAt payload 8 n
          let bad := firstBad
            [(decide (payload.length < 8) || payload.length != 8 + 4 * n || decide (2 ≤ beAt payload 0 1) || beAt payload 1 3 != 0, .badFrame),
             (pt.badToken toks, .badFrame), (pt.tokensFull toks.length, .noResource)]
          match bad with
          | some st => .next (s.endContinuation c.part c.handle r st)
          | none =>
            let more := beAt payload 0 1 % 2 == 1
            let s1 := s.modPart c.part (fun pt => { pt with reqs := NMap.insert pt.reqs c.handle { r with more := more, prompt := r.prompt ++ toks } })
            .next (if more then s1 else s1.promptComplete c.part c.handle))

/-- CANCEL_REQUEST (R216, R233): staged for the next meridian; an earlier one is answered OK (R22). -/
def execCancelRequest (c : Ctx) (payload : Bytes) (s : State) : Res :=
  s.serveData c 0x0103 (fun s pt =>
    if payload != [] || badHandle c.handle then s.answer c 0x0103 .badFrame
    else
      match NMap.find pt.reqs c.handle with
      | none => s.answer c 0x0103 .notPermitted
      | some r =>
        if r.sess.isSome && !s.holds c r.sess then s.answer c 0x0103 .notPermitted
        else
          let s1 := s.answerCancels c.part c.handle .ok
          .next (s1.modPart c.part (fun pt => { pt with staged := { pt.staged with cancels := pt.staged.cancels ++ [(c.handle, some c)] } })))

/-- A request that can be paused or branched from: admitted, decoding, with one beam (R232, R236). -/
def Part.decodes (pt : Part) (h : Nat) : Bool :=
  (NMap.find pt.reqs h).any (fun r => r.st == .admitted && r.opts.beams == 1) && pt.seqs.any (fun q => q.handle == h && q.todo.isEmpty)

/-- PAUSE_REQUEST (R236, R237): staged for the next meridian; an earlier one is answered OK (R234). -/
def execPauseRequest (c : Ctx) (payload : Bytes) (s : State) : Res :=
  s.serveData c 0x0104 (fun s pt =>
    let ttl := beAt payload 0 4
    let tier := beAt payload 4 1
    let sess := (NMap.find pt.reqs c.handle).bind (·.sess)
    let bad := firstBad
      [(payload.length != 8 || ttl == 0 || decide (86400 < ttl) || decide (2 < tier) || beAt payload 5 3 != 0 || badHandle c.handle, .badFrame),
       (!pt.decodes c.handle || !s.holds c sess, .notPermitted), (decide (65536 ≤ s.pausedAll), .noResource)]
    match bad with
    | some st => .next (s.refuse c 0x0104 st)
    | none =>
      let hit := pt.staged.pauses.filter (fun e => e.1 == c.handle)
      let s1 := hit.foldl (fun s e => s.reply e.2.1 0x0104 .ok []) s
      .next (s1.modPart c.part (fun pt => { pt with staged := { pt.staged with
        pauses := pt.staged.pauses.filter (fun e => e.1 != c.handle) ++ [(c.handle, c, ttl, tier)] } })))

/-- The checks of a RESUME_REQUEST (R239, R240, Table 3). -/
def State.resumeRefusal (s : State) (pt : Part) (p h : Nat) (pl : Bytes) : Option Status :=
  let flags := beAt pl 0 1
  let endPause := flags / 2 % 2 == 1
  let toks := tokensAt pl 16 (beAt pl 12 4)
  let paused := (NMap.find pt.reqs h).any (fun r => (r.st == .paused || r.st == .pausing) && r.resumeOpts.isNone)
  firstBad
    [(decide (pl.length < 16) || pl.length != 16 + 4 * beAt pl 12 4 || decide (4 ≤ flags) || beAt pl 1 3 != 0 ||
       (!endPause && beAt pl 8 4 != 0), .badFrame),
     (badHandle h, .badFrame), ((s.tomb p h).isSome, (s.tomb p h).getD .ok), (!paused, .notPermitted),
     (decide (2 ^ 24 ≤ beAt pl 4 4) || badTtl endPause (beAt pl 8 4), .badFrame), (pt.badToken toks, .badFrame),
     (!pt.serves, .notPermitted), (s.waitFull pt || pt.tokensFull toks.length, .noResource)]

/-- RESUME_REQUEST (R239, R240). -/
def execResumeRequest (c : Ctx) (payload : Bytes) (s : State) : Res :=
  s.serveData c 0x0105 (fun s pt =>
    match s.resumeRefusal pt c.part c.handle payload, NMap.find pt.reqs c.handle with
    | some st, _ => .next (s.refuse c 0x0105 st)
    | none, none => s.answer c 0x0105 .notPermitted
    | none, some r =>
      let flags := beAt payload 0 1
      let o : ReqOpts := { r.opts with endPause := flags / 2 % 2 == 1, maxNew := beAt payload 4 4, ttl := beAt payload 8 4 }
      let more := flags % 2 == 1
      let r1 : Req := { r with sess := some c.sess, st := if r.st = .pausing then .pausing else .resuming, resumeOpts := some o, more := more,
                               prompt := tokensAt payload 16 (beAt payload 12 4), walked := false, candAt := some s.stamp, passed := 0,
                               claimed := 0 }
      let s1 := ((s.modPart c.part (fun pt => { pt with reqs := NMap.insert pt.reqs c.handle r1 })).setStamp (s.stamp + 1)).reply
        c 0x0105 .pending []
      .next (if more then s1 else s1.promptComplete c.part c.handle))

/-- PROMPT_TIMEOUT (R219): 10 s after a frame with MORE. -/
def execPromptTimeout (p handle : Nat) (s : State) : Res :=
  match (s.part p).bind (fun pt => NMap.find pt.reqs handle) with
  | none => impossible "no such request"
  | some r => require r.more "no further frame is awaited" (.next (s.endContinuation p handle r .badFrame))

/-! ## Moves, restores and times to live (R236 to R240, R271) -/

/-- Bytes of a loan in use: paused caches and copies of weights. -/
def Part.loanUsed (pt : Part) (l : Loan) : Nat :=
  ((pt.reqs.filter (fun e => e.2.tier == loanTier l.id)).map (fun e => movedBytes e.2.moved)).sum +
    (l.copies.map (fun t => ((pt.image.map (fun im => ((pt.dir im).filter (fun d => d.tensor == t)).map DirEntry.stored |>.sum)).getD 0))).sum

/-- A loan with room that is not under notice (R271). -/
def Part.roomyLoan (pt : Part) (bytes : Nat) : Option Nat :=
  (pt.loans.find? (fun l => l.active && !l.notice && decide (pt.loanUsed l + bytes ≤ l.extents * 2 ^ 28))).map (·.id)

/-- The pause area has room (R262). -/
def State.pauseRoom (s : State) (bytes : Nat) : Bool :=
  decide (s.nand.pauseUsed + bytes ≤ s.nand.pauseSize * 1000000000)

/-- The tier that takes a cache (R236, R271): as `Req.tier` codes it. -/
def State.pauseTier (s : State) (pt : Part) (want bytes : Nat) : Nat :=
  let nand := if s.pauseRoom bytes then some 1 else none
  let lent := (pt.roomyLoan bytes).map loanTier
  ((if want = 1 then nand <|> lent else lent <|> nand)).getD 0

/-- Bytes written to the pause area of the NAND tier (R258, R262). -/
def State.nandPauseWrite (s : State) (bytes : Nat) : State :=
  (s.setNand { s.nand with pauseUsed := s.nand.pauseUsed + bytes, pauseWritten := s.nand.pauseWritten + bytes, written := s.nand.written + bytes }).freeBlocks

/-- The accesses of a pause move or a restore to the sheets of some entries (R255, R256). -/
def State.touchSheets (s : State) (p : Nat) (pt : Part) (es : List PageEntry) : State :=
  match pt.image with
  | none => s
  | some im =>
    es.foldl (fun s e => (sheetRuns im pt.layout (s.sheetTotal p) e.sheet).foldl (fun s r => s.touchShare pausePort pt r.1 r.2) s) s

/-- The sheets of a sequence that a pause moves, those with REFS 1, with their records and their stored form (R168, R236). -/
def State.privateCache (s : State) (p : Nat) (pt : Part) (q : Seq) : List (PageEntry × Sheet × Bytes) :=
  (q.list.filter (fun e => (NMap.find pt.sheets e.sheet).any (fun v => v.refs == 1))).map (fun e =>
    (e, NMap.get (Sheet.fresh e.start) pt.sheets e.sheet, s.storedForm p pt [e.sheet]))

/-- The move of a request's cache to a tier begins, or none where the tier takes nothing: its sequence leaves the step set and keeps its admitted
entry (R168, R236). -/
def State.beginPause (s : State) (p h ttl want : Nat) (by_ : Option Ctx) (pt : Part) (r : Req) (q : Seq) (held : List (PageEntry × Sheet × Bytes))
    (tier : Nat) : State :=
  let r1 : Req := { r with st := .pausing, list := q.list, moved := held, tier := tier, tierWant := want, pos := q.pos,
                           lastToken := q.lastToken, pauseBy := by_, opts := { r.opts with ttl := ttl }, endsAt := none }
  let s0 := s.touchSheets p pt (held.map Prod.fst)
  let s1 := if tier = 1 then s0.nandPauseWrite (movedBytes held) else s0
  s1.modPart p (fun pt =>
    { pt with reqs := NMap.insert pt.reqs h r1,
              seqs := pt.seqs.map (fun v => if v.handle == h then { v with list := [], inStep := false, took := 0, sampled := none, ring := [] } else v) })

/-- A pause of a request begins in the tier that takes its cache; where none does, its sheets stay in LPDDR5X (R236, R271). -/
def State.startPause (s : State) (p h ttl want : Nat) (by_ : Option Ctx) : State :=
  match s.part p with
  | none => s
  | some pt =>
    match NMap.find pt.reqs h, pt.seqs.find? (fun q => q.handle == h) with
    | some r, some q =>
      let held := s.privateCache p pt q
      let tier := s.pauseTier pt want (movedBytes held)
      s.beginPause p h ttl want by_ pt r q (if tier = 0 then [] else held) tier
    | _, _ => s

/-- The byte that answers a pause: 0 LPDDR5X, 1 NAND weight tier, 2 lent memory (R236). -/
def tierByte (tier : Nat) : Byte := if tier = 0 then 0#8 else if tier = 1 then 1#8 else 2#8

/-- PAUSE_MOVE_COMPLETE (R236, R238): the admitted entry is freed, the time to live runs, the pause is answered. -/
def execPauseMoveComplete (p handle : Nat) (s : State) : Res :=
  match s.part p with
  | none => impossible "no such partition"
  | some pt =>
    match NMap.find pt.reqs handle with
    | none => impossible "no such request"
    | some r =>
      require (r.st == .pausing) "no move of this request runs"
        (let gone := r.list.filter (fun e => r.moved.any (fun m => m.1.start == e.start))
         let kept := r.list.filter (fun e => !r.moved.any (fun m => m.1.start == e.start))
         let runs := (r.resumeOpts.isNone || r.more) && s.leads p
         let r1 : Req := { r with st := if r.resumeOpts.isSome then .resuming else .paused, sess := if r.resumeOpts.isSome then r.sess else none,
                                  list := kept, pauseBy := none,
                                  endsAt := if runs then some (wholeSecond (s.now + r.opts.ttl * 1000000000)) else none }
         let s1 := s.modPart p (fun pt =>
           { pt.unrefList gone with seqs := pt.seqs.filter (fun q => q.handle != handle), reqs := NMap.insert pt.reqs handle r1 })
         let s2 := match r.pauseBy with
           | some c => s1.reply c 0x0104 .ok [tierByte r.tier]
           | none => s1
         .next (s2.bump .req p 0x18 1))

/-- PAUSE_EXPIRY (R238). -/
def execPauseExpiry (p handle now : Nat) (s : State) : Res :=
  match (s.part p).bind (fun pt => NMap.find pt.reqs handle) with
  | none => impossible "no such request"
  | some r => require (r.endsAt.any (fun t => decide (t ≤ now))) "its time to live has not ended" (.next ((s.at now).buryReq p handle .expired))

/-- TOMBSTONE_EXPIRY (R239): 24 h after it was made. -/
def execTombstoneExpiry (p handle : Nat) (s : State) : Res :=
  require (s.tomb p handle).isSome "no such tombstone" (.next (s.clearTomb p handle))

/-- The sheets of a restore filled from the stored form of what was moved. -/
def State.fillRestored (s : State) (p : Nat) (r : Req) : State :=
  r.moved.foldl (fun s m =>
    match s.part p, r.list.find? (fun e => e.start == m.1.start) with
    | some pt, some e => (s.restoreForm p pt e.sheet m.2.2).touchSheets p pt [e]
    | _, _ => s) s

/-- The sheets of a cache that was left in LPDDR5X, read with their errors found; whether one was uncorrectable (R252). -/
def State.readCache (s : State) (p : Nat) (pt : Part) (es : List PageEntry) : State × Bool :=
  match pt.image with
  | none => (s, false)
  | some im =>
    (es.flatMap (fun e => sheetRuns im pt.layout (s.sheetTotal p) e.sheet)).foldl (fun (a : State × Bool) r =>
      let f := a.1.shareReadChecked pt r.1 r.2
      (f.1, a.2 || f.2.2)) (s, false)

/-- What a cache of some bytes in the pause area meets on a failed channel: its map units lie on the channels in turn, unit u on channel
u mod 16 (R259, R260; log entry 25). -/
def State.pauseLost (s : State) (bytes : Nat) : Bool := s.nand.failed.any (fun c => decide (c < (bytes + 16383) / 16384))

/-- A restore reads its cache: the state with the errors counted that the read meets, and whether the cache is lost (R240, R252, R260). -/
def State.restoreRead (s : State) (p : Nat) (pt : Part) (r : Req) (env : List Strike) : State × Bool :=
  match r.tier with
  | 0 => (s.strike env).readCache p pt (r.list.filter (fun e => (NMap.find pt.sheets e.sheet).any (fun v => v.refs == 1)))
  | 1 => (s.nandErrors [] env, decide (0 < nandStruck env) || s.pauseLost (movedBytes r.moved))
  | _ => (s, sourceLost env)

/-- RESTORE_COMPLETE (R238, R240): the request becomes a candidate, or its cache, which could not be read, is freed with a tombstone. -/
def execRestoreComplete (p handle : Nat) (env : List Strike) (s : State) : Res :=
  match s.part p with
  | none => impossible "no such partition"
  | some pt =>
    match NMap.find pt.reqs handle with
    | none => impossible "no such request"
    | some r =>
      require (r.st == .restoring && !r.walked) "no restore of this request runs"
        (let f := s.restoreRead p pt r env
         if f.2 then .next (f.1.buryReq p handle .tierFailed)
         else
           let s1 := f.1.fillRestored p r
           .next (if r.more then
               s1.modPart p (fun pt => { pt with reqs := NMap.modify pt.reqs handle (fun v => { v with walked := true, candAt := none }) })
             else s1.nowCandidate p handle))

/-! ## The close of a session (R217) -/

/-- What a closed session held in a partition: its requests are cancelled and its streams closed at the next meridian; a request that is being
paused belongs to no session. -/
def Part.sessionClosed (pt : Part) (n : Nat) : Part :=
  let rs := pt.reqs.filter (fun e => e.2.sess == some n && !(e.2.st == .pausing && e.2.resumeOpts.isNone) && !(pt.staged.cancels.any (fun v => v.1 == e.1)))
  let ss := pt.streams.filter (fun e => e.2.sess == n && !(pt.staged.closes.any (fun v => v.1 == e.1)))
  { pt with
    reqs := pt.reqs.map (fun e => if e.2.sess == some n && e.2.st == .pausing && e.2.resumeOpts.isNone then (e.1, { e.2 with sess := none }) else e),
    staged := { pt.staged with cancels := pt.staged.cancels ++ rs.map (fun e => (e.1, none)), closes := pt.staged.closes ++ ss.map (fun e => (e.1, none)) } }

/-- The same in every partition. -/
def State.sessionWorkClosed (s : State) (n : Nat) : State := s.setParts (s.parts.map (fun e => (e.1, e.2.sessionClosed n)))

end Sys2Proof.Machine
end

