-- ==== Sys2Proof/Machine/Streams.lean ====
section
/-!
DEFINITION. The frames of streams (R196, R201, R203, R205, R208, R209, R242, R243): opening, chunks and their parts, parking, closing.
-/
namespace Sys2Proof.Machine

open Sys2Proof

/-- The lowest page place of a partition's state area that no stream has. -/
def Part.freePage (pt : Part) : Nat :=
  let used := pt.streams.map (fun e => e.2.page)
  ((List.range 16384).find? (fun i => !used.contains i)).getD 0

/-- Streams that a model's state area has places for (R203). -/
def Image.streamPlaces (im : Image) : Nat := im.streamsMax

/-- A stream as it is opened (R203, R242). -/
def Strm.opened (sess page : Nat) : Strm :=
  { page := page, sess := sess, st := .opening, tiles := [], number := 0, queue := [], arriving := none, nextChunk := 0, doneChunk := 0,
    current := none, committed := [], boundAt := 0, finalSent := false, idle := 0, nonfinite := [], fresh := true, trace := 0 }

/-- OPEN_STREAM (R203, R215, R242). -/
def execOpenStream (c : Ctx) (payload : Bytes) (s : State) : Res :=
  s.serveData c 0x0201 (fun s pt =>
    let places := (pt.image.map Image.streamPlaces).getD 0
    let bad := firstBad
      [(payload != [] || badHandle c.handle, .badFrame), (pt.inUse c.handle, .notPermitted), (!pt.serves, .notPermitted),
       (decide (places ≤ pt.streams.length) || decide (16384 ≤ (s.parts.map (fun e => e.2.streams.length)).sum), .noResource)]
    match bad with
    | some st => .next (s.refuse c 0x0201 st)
    | none =>
      .next (((s.clearTomb c.part c.handle).modPart c.part (fun pt =>
        { pt with streams := NMap.insert pt.streams c.handle (Strm.opened c.sess pt.freePage),
                  staged := { pt.staged with opens := pt.staged.opens ++ [(c.handle, c)] } })).reply c 0x0201 .pending []))

/-- A STREAM_CHUNK is malformed by itself (Table 7, R196, R201). -/
def Image.chunkMalformed (im : Image) (pl : Bytes) : Bool :=
  let final := beAt pl 0 1 % 2 == 1
  let marks := beAt pl 1 1
  let parts := beAt pl 3 1
  let positions := beAt pl 12 2
  decide (pl.length < 52) || decide (2 ≤ beAt pl 0 1) || decide (16 < marks) || parts == 0 || decide (64 < parts) || decide (parts ≤ beAt pl 2 1) ||
    beAt pl 14 2 != 0 || (if final then positions == 0 || decide (im.chunkL < positions) else positions != im.chunkL) ||
    (List.range 16).any (fun i => if i < marks then decide (positions ≤ beAt pl (16 + 2 * i) 2) else beAt pl (16 + 2 * i) 2 != 0)

/-- The fields that all parts of a chunk share. -/
def chunkFixed (pl : Bytes) : Bytes := pl.take 2 ++ slice pl 3 45

/-- Bytes of a chunk's input (R243). -/
def Image.chunkBytes (im : Image) (positions : Nat) : Nat := positions * im.inWidth * (elemBits im.inFormat / 8)

/-- The first part of a chunk: what it brings into being. -/
def partsOf (pl : Bytes) : Parts :=
  { fixed := chunkFixed pl, parts := beAt pl 3 1, next := 0, data := [],
    chunk := { index := beAt pl 4 8, positions := beAt pl 12 2, marks := (List.range (beAt pl 1 1)).map (fun i => beAt pl (16 + 2 * i) 2),
               final := beAt pl 0 1 % 2 == 1, data := [], arrived := 0 } }

/-- A part of a chunk taken by a stream (R208, R243): the parts after it, or the status that refuses it. -/
def Strm.takePart (v : Strm) (im : Image) (pl : Bytes) : Except Status Parts :=
  if im.chunkMalformed pl then .error .badFrame
  else
    let part := beAt pl 2 1
    let place : Except Status Parts :=
      match v.arriving, part with
      | none, 0 => if beAt pl 4 8 ≠ v.nextChunk then .error .badFrame else if 8 ≤ v.queue.length then .error .noResource else .ok (partsOf pl)
      | none, _ + 1 => .error .badFrame
      | some a, k => if a.next = k && a.fixed == chunkFixed pl then .ok a else .error .badFrame
    match place with
    | .error st => .error st
    | .ok a =>
      let data := a.data ++ pl.drop 52
      let total := im.chunkBytes a.chunk.positions
      if beAt pl 48 4 ≠ a.data.length || decide (total < data.length) || (part + 1 == a.parts && data.length != total) then .error .badFrame
      else .ok { a with next := part + 1, data := data }

/-- STREAM_CHUNK (R196, R201, R208, R243): each complete chunk is answered OK, a refusal discards the parts received. -/
def execStreamChunk (c : Ctx) (payload : Bytes) (s : State) : Res :=
  s.serveData c 0x0202 (fun s pt =>
    match badHandle c.handle, NMap.find pt.streams c.handle, pt.image with
    | true, _, _ => s.answer c 0x0202 .badFrame
    | false, some v, some im =>
      if !s.holds c (some v.sess) || v.finalSent then s.answer c 0x0202 .notPermitted
      else
        let put := fun (s : State) (w : Strm) => s.modPart c.part (fun pt => { pt with streams := NMap.insert pt.streams c.handle w })
        match v.takePart im payload with
        | .error st =>
          let s1 := put s { v with arriving := none }
          .next ((if st = .noResource then s1.bump .strm c.part 0x10 1 else s1).refuse c 0x0202 st)
        | .ok a =>
          if a.next < a.parts then .next (put s { v with arriving := some a })
          else
            let k : Chunk := { a.chunk with data := a.data, arrived := s.stamp }
            .next (((put s { v with arriving := none, queue := v.queue ++ [k], nextChunk := v.nextChunk + 1, finalSent := k.final }).setStamp
              (s.stamp + 1)).reply c 0x0202 .ok [])
    | false, _, _ => s.answer c 0x0202 .notPermitted)

/-- PARK_STREAM (R205, R207, R244): answered at once where there is nothing to park, staged otherwise. -/
def execParkStream (c : Ctx) (payload : Bytes) (s : State) : Res :=
  s.serveData c 0x0203 (fun s pt =>
    if payload != [] || badHandle c.handle then s.answer c 0x0203 .badFrame
    else
      match NMap.find pt.streams c.handle with
      | none => s.answer c 0x0203 .notPermitted
      | some v =>
        if !s.holds c (some v.sess) then s.answer c 0x0203 .notPermitted
        else if v.st != .bound then s.answer c 0x0203 .ok
        else
          let old := pt.staged.parks.filter (fun e => e.1 == c.handle)
          let s1 := old.foldl (fun s e => match e.2 with | some k => s.reply k 0x0203 .ok [] | none => s) s
          .next (s1.modPart c.part (fun pt => { pt with staged := { pt.staged with
            parks := pt.staged.parks.filter (fun e => e.1 != c.handle) ++ [(c.handle, some c)] } })))

/-- CLOSE_STREAM (R209, R244): staged for the next meridian. -/
def execCloseStream (c : Ctx) (payload : Bytes) (s : State) : Res :=
  s.serveData c 0x0204 (fun s pt =>
    if payload != [] || badHandle c.handle then s.answer c 0x0204 .badFrame
    else
      match NMap.find pt.streams c.handle with
      | none => s.answer c 0x0204 .notPermitted
      | some v =>
        if !s.holds c (some v.sess) then s.answer c 0x0204 .notPermitted
        else
          let old := pt.staged.closes.filter (fun e => e.1 == c.handle)
          let s1 := old.foldl (fun s e => match e.2 with | some k => s.reply k 0x0204 .ok [] | none => s) s
          .next (s1.modPart c.part (fun pt => { pt with staged := { pt.staged with
            closes := pt.staged.closes.filter (fun e => e.1 != c.handle) ++ [(c.handle, some c)] } })))

end Sys2Proof.Machine
end

