-- ==== Sys2Proof/Machine/ModelWork.lean ====
section
/-!
DEFINITION. What the meridian does for a partition's model (R241, R315 to R327): the ends of its work, start and stop, the
replacement of layers, the insets; and where its shards lie in its NAND share (R259; log entry 25).
-/
namespace Sys2Proof.Machine

open Sys2Proof

/-! ## Shards in the NAND share -/

/-- A partition's shards set, laid out in their order from offset 0 (log entry 25). -/
def State.layShards (s : State) (p : Nat) (shs : List Bytes) : State :=
  match s.part p with
  | none => s
  | some pt =>
    let s1 := pt.nand.foldl State.clearNandExtent s
    let r := shs.foldl (fun (a : State × Nat) b => ((a.1.nandWrite pt a.2 b).getD a.1, a.2 + shardRoom b)) (s1, 0)
    r.1.modPart p (fun pt => { pt with shards := shs })

/-! ## Work that ends at a meridian -/

/-- The requests of a partition that satisfy a test, ended with a status: their records are given back. -/
def State.endReqsIf (s : State) (p : Nat) (f : Req → Bool) (st : Status) : State × Recs :=
  match s.part p with
  | none => (s, [])
  | some pt =>
    (pt.reqs.keys.filter (fun h => (NMap.find pt.reqs h).any f)).foldl (fun a h => let r := a.1.endReq p h st; (r.1, a.2 ++ r.2)) (s, [])

/-- The paused requests of a partition freed with a tombstone. -/
def State.buryPaused (s : State) (p : Nat) (st : Status) : State :=
  match s.part p with
  | none => s
  | some pt => (pt.reqs.keys.filter (fun h => (NMap.find pt.reqs h).any Req.inDirectory)).foldl (fun s h => s.buryReq p h st) s

/-- The computations of insets of a partition that satisfy a test ended with a status. -/
def State.endInsetsIf (s : State) (p : Nat) (f : Inset → Bool) (st : Status) : State :=
  match s.part p with
  | none => s
  | some pt => (pt.insets.keys.filter (fun h => (NMap.find pt.insets h).any f)).foldl (fun s h => s.endInset p h st) s

/-- Every stream of a partition ended with a status. -/
def State.endStreams (s : State) (p : Nat) (st : Status) : State :=
  match s.part p with
  | none => s
  | some pt => pt.streams.keys.foldl (fun s h => s.endStream p h st) s

/-- Everything of a partition ends with BUSY_RECOVERY and without tombstones (R235, R425). -/
def State.endEverything (s : State) (p : Nat) : State × Recs :=
  let r := s.endReqsIf p (fun _ => true) .busyRecovery
  ((r.1.endInsetsIf p (fun v => !v.installed) .busyRecovery).endStreams p .busyRecovery, r.2)

/-! ## Start and stop (R315, R316) -/

/-- What was staged for a target answered with a status. -/
def State.settleTargeted (s : State) (p : Nat) (t : Targeted) (st : Status) : State :=
  match t with
  | .start c => s.settleModel p c 0x0404 st
  | .stop c _ _ => s.settleModel p c 0x0403 st
  | .swap c => s.settleModel p c 0x0402 st

/-- START_MODEL takes effect (R186, R187, R315). -/
def State.startModel (s : State) (p : Nat) (im : Image) (c : Ctx) : State :=
  let on := (s.reg .gz p 0).bit 31
  ((s.raiseEdition p).modPart p (fun pt =>
    { pt with mstate := .started, firstStep := true, gzState := if !im.isFirst then 4 else if on then 1 else 0 })).settleModel p c 0x0404 .ok

/-- The work that a stop with NOW ends, and a drain at its end (R316). -/
def State.cancelWork (s : State) (p : Nat) : State × Recs :=
  let r := s.endReqsIf p (fun r => r.st == .admitted) .cancelled
  ((r.1.endInsetsIf p (fun v => !v.installed || v.again.isSome) .cancelled).endStreams p .cancelled, r.2)

/-- The stop is complete: the state is LOADED, the gazetteer OFF (R187, R316). -/
def State.finishStop (s : State) (p : Nat) (c : Ctx) : State :=
  (s.modPart p (fun pt =>
    { pt with mstate := .loaded, draining := none, gzState := if pt.gzState = 4 then 4 else 0 })).settleModel p c 0x0403 .ok

/-- STOP_MODEL takes effect (R316). -/
def State.stopModel (s : State) (p : Nat) (c : Ctx) (now_ : Bool) (seconds : Nat) : State × Recs :=
  let w := s.endReqsIf p (fun r => r.st == .waiting) .cancelled
  let s1 := (w.1.buryPaused p .cancelled).endInsetsIf p (fun v => !v.admitted && !v.installed) .cancelled
  if now_ then let r := s1.cancelWork p; (r.1.finishStop p c, w.2 ++ r.2)
  else (s1.modPart p (fun pt => { pt with mstate := .draining, draining := some { ctx := c, since := s.now, seconds := seconds } }), w.2)

/-- A partition has neither an admitted request nor a bound stream left (R316). -/
def Part.drained (pt : Part) : Bool := pt.seqs.isEmpty && pt.streams.all (fun e => e.2.st != .bound && e.2.current.isNone)

/-- A drain ends at the first meridian at which nothing is left or its time has passed (R316). -/
def State.drainDeadline (s : State) (p : Nat) : State × Recs :=
  match s.part p with
  | none => (s, [])
  | some pt =>
    match pt.draining with
    | none => (s, [])
    | some d =>
      if pt.drained || decide (d.since + d.seconds * 1000000000 ≤ s.now) then
        let r := s.cancelWork p
        (r.1.finishStop p d.ctx, r.2)
      else (s, [])

/-- SWAP_LAYERS takes effect (R319, R324): admission is held, the read of the first layer not yet replaced begins. -/
def State.startSwap (s : State) (p : Nat) (c : Ctx) (target : Nat) : State :=
  s.modPart p (fun pt =>
    { pt with mstate := .swapping,
              swap := some { ctx := c, target := target, active := true, layer := (pt.swap.map (·.layer)).getD 0, readDone := false,
                             put := [], recompute := [] } })

/-- The state of the model still allows a setting that was staged. -/
def Targeted.fits (t : Targeted) (st : Option MState) : Bool :=
  match t with
  | .start _ => st == some .loaded
  | .stop _ _ _ | .swap _ => st == some .started || st == some .held

/-- The settings staged for a target (R25): on a partition of its own those whose target is this count or 0, in a pipeline those whose
target is this count, if every stage has accepted them. `confirmed` is none outside a pipeline meridian. -/
def State.applyTargeted (s : State) (p count : Nat) (im : Image) (confirmed : Option (List Nat)) : State × Recs :=
  match s.part p with
  | none => (s, [])
  | some pt =>
    let now_ := fun (n : Nat) => n == count || (n == 0 && im.stages == 1)
    let due := pt.staged.targeted.filter (fun e => now_ e.1)
    let s1 := s.modPart p (fun pt => { pt with staged := { pt.staged with targeted := pt.staged.targeted.filter (fun e => !now_ e.1) },
                                               accepted := pt.accepted.filter (fun e => e.2.2 != count) })
    due.foldl (fun (a : State × Recs) e =>
      if confirmed.any (fun l => !l.contains e.2.1) || !Targeted.fits e.2.2 ((a.1.part p).map (·.mstate)) then (a.1.settleTargeted p e.2.2 .notPermitted, a.2)
      else
        match e.2.2 with
        | .start c => (a.1.startModel p im c, a.2)
        | .stop c n k => let r := a.1.stopModel p c n k; (r.1, a.2 ++ r.2)
        | .swap c => (a.1.startSwap p c e.1, a.2)) (s1, [])

/-! ## Replacement of layers (R319, R320) -/

/-- The directory entries of a stage that go with a layer (R319). -/
def layerEntries (dir : List DirEntry) (first l : Nat) : List DirEntry := dir.filter (fun d => d.layer == l || (l == first && d.layer == 0xFFFF))

/-- A run of a swap room taken for so many bytes: where it begins, and what is left; none where no run is long enough. -/
def takeRun : List (Nat × Nat) → Nat → Option (Nat × List (Nat × Nat))
  | [], _ => none
  | (o, k) :: rs, n =>
    if n ≤ k then some (o, if n = k then rs else (o + n, k - n) :: rs) else (takeRun rs n).map (fun e => (e.1, (o, k) :: e.2))

/-- A run given to a swap room, joined to those beside it. -/
def giveRun : List (Nat × Nat) → Nat × Nat → List (Nat × Nat)
  | [], r => [r]
  | (o, k) :: rs, r =>
    if o + k < r.1 then (o, k) :: giveRun rs r
    else if o + k = r.1 then giveRun rs (o, k + r.2)
    else if r.1 + r.2 = o then (r.1, r.2 + k) :: rs
    else r :: (o, k) :: rs

/-- Places in a swap room for tensors in their order, and what of the room is left; a tensor that no run holds gets none (log entry 54). -/
def placeLayer : List DirEntry → List (Nat × Nat) → NMap Nat × List (Nat × Nat)
  | [], room => ([], room)
  | d :: ds, room =>
    match takeRun room d.stored with
    | some (o, rs) => let q := placeLayer ds rs; (NMap.insert q.1 d.tensor o, q.2)
    | none => placeLayer ds room

/-- The non-FLASH tensors that go with a layer of a swap. -/
def Part.swapTensors (pt : Part) (im : Image) (w : Swap) : List DirEntry :=
  (layerEntries (pt.dir im) im.firstLayer (im.firstLayer + w.layer)).filter (fun d => !d.flash)

/-- A layer of the next image read into the swap room (R319, step 1): its tensors at their places there. -/
def State.readLayer (s : State) (p : Nat) (pt : Part) (im next : Image) (w : Swap) : State :=
  let ds := pt.swapTensors im w
  let put := (placeLayer ds pt.room).1
  (ds.foldl (fun s d =>
    match NMap.find put d.tensor with
    | some o => s.storeTensor pt (pt.plainShard next) d o
    | none => s) s).modPart p (fun pt => { pt with swap := some { w with readDone := true, put := put } })

/-- One layer replaced by the next image's (R319, step 2): its tensors are those of the swap room, their old space becomes swap room; its slots of
the expert cache are emptied, the edition rises. A tensor that found no place in the room is written where the old one stood (log entry 54). -/
def State.replaceLayer (s : State) (p : Nat) (pt : Part) (im next : Image) (w : Swap) : State :=
  let dir := pt.dir im
  let ds := pt.swapTensors im w
  let moved := ds.filterMap (fun d => (NMap.find w.put d.tensor).map (fun o => (d, o)))
  let s1 := (ds.filter (fun d => (NMap.find w.put d.tensor).isNone)).foldl
    (fun s d => s.storeTensor pt (pt.plainShard next) d (pt.weightAt dir d.tensor)) s
  let gone := ((layerEntries dir im.firstLayer (im.firstLayer + w.layer)).filter DirEntry.flash).map (·.tensor)
  (s1.raiseEdition p).modPart p (fun pt =>
    { pt with swap := some { w with layer := w.layer + 1, readDone := false, put := [] }, firstStep := pt.firstStep || w.layer + 1 == im.layers,
              places := moved.foldl (fun m e => NMap.insert m e.1.tensor e.2) pt.places,
              room := moved.foldl (fun r e => giveRun r (pt.weightAt dir e.1.tensor, e.1.stored)) (placeLayer ds pt.room).2,
              xcache := pt.xcache.map (fun x => if x.tensor.any gone.contains then XSlot.empty else x) })

/-- The next image becomes current (R320): the old one's copy in NAND is freed, its copies in loans are dropped, admission resumes. -/
def State.finishSwap (s : State) (p : Nat) (next : Image) (w : Swap) : State :=
  match s.part p with
  | none => s
  | some pt =>
    let s1 := s.layShards p (pt.shards.filter (fun b => b == next.shard || !pt.image.any (fun im => im.shard == b)))
    (s1.modPart p (fun pt =>
      Part.trimKeys { pt with image := some next, next := none, swap := none, mstate := .started, loans := pt.loans.map (fun l => { l with copies := [] }) })).settleModel
        p w.ctx 0x0402 .ok

/-- The installed insets whose recomputation a swap still asks for. -/
def Part.toRecompute (pt : Part) : List Nat := (pt.insets.filter (fun e => e.2.installed && e.2.again.isSome)).map Prod.fst

/-- Every installed inset is to be computed again, in increasing handle order (R320). -/
def State.askRecompute (s : State) (p : Nat) (w : Swap) : State :=
  match s.part p with
  | none => s
  | some pt =>
    let hs := (pt.insets.filter (fun e => e.2.installed)).map Prod.fst
    (s.modPart p (fun pt =>
      { pt with swap := some { w with recompute := hs },
                insets := pt.insets.map (fun e =>
                  if e.2.installed then (e.1, { e.2 with again := some [], admitted := false, candAt := s.stamp + hs.findIdx (· == e.1) }) else e) })).setStamp
      (s.stamp + hs.length)

/-- Item 4 of a meridian (R319, R320): a layer whose read has completed is replaced; past the last one the insets are computed again and the
next image becomes current. Whether every other stage has replaced its last layer is a free value (log entry 2). -/
def State.swapItem (s : State) (p : Nat) (im : Image) : State :=
  match s.part p with
  | none => s
  | some pt =>
    match pt.swap, pt.next with
    | some w, some next =>
      if !w.active || pt.mstate != .swapping then s
      else
        let s1 := if w.readDone && decide (w.layer < im.layers) then s.replaceLayer p pt im next w else s
        match (s1.part p).bind (fun v => v.swap.map (fun w => (v, w))) with
        | none => s1
        | some (pt, w) =>
          if w.layer < im.layers then s1
          else
            let f := if im.stages = 1 then (true, s1) else ((s1.fresh).1.bit 0, (s1.fresh).2)
            if !f.1 then f.2
            else if !im.isFirst then f.2.finishSwap p next w
            else if w.recompute.isEmpty && pt.insets.any (fun e => e.2.installed) then f.2.askRecompute p w
            else if pt.toRecompute.isEmpty then f.2.finishSwap p next w
            else f.2
    | _, _ => s

/-! ## The tensors in the LPDDR5X share (R131, R314) -/

/-- The tensors of an image that stand in the share, with their places: those of the weight area, and those of the expert cache's slots. -/
def Part.standing (pt : Part) (im : Image) : List (DirEntry × Nat) :=
  let dir := pt.dir im
  let lay := pt.layout
  (dir.filter (fun d => !d.flash)).map (fun d => (d, pt.weightAt dir d.tensor)) ++
    (List.range pt.xcache.length).filterMap (fun i => ((pt.xcache[i]?).filter (fun x => !x.arriving)).bind (fun x =>
      (x.tensor.bind (fun n => dir.find? (fun d => d.tensor == n))).map (fun d => (d, lay.xcache + i * lay.xslot))))

/-- The tensors that stand in the share written from their shards. -/
def State.loadTensors (s : State) (pt : Part) (im : Image) : State :=
  (pt.standing im).foldl (fun s e => s.storeTensor pt (pt.plainShard (pt.imageOf im e.1)) e.1 e.2) s

/-- The first pod of those tensors that the NAND tier finds at fault as it moves them (R130). -/
def Part.loadFault (pt : Part) (im : Image) : Option PodFault :=
  (pt.standing im).findSome? (fun e => shardFault (pt.plainShard (pt.imageOf im e.1)) e.1)

/-! ## Insets (R241, R326, R327) -/

/-- An inset's computation is complete: it holds its sheets, which carry the INSET flag; a recomputation releases the old ones (R320). -/
def State.finishInset (s : State) (p h : Nat) (q : Seq) : State :=
  match s.part p with
  | none => s
  | some pt =>
    match NMap.find pt.insets h with
    | none => s
    | some v =>
      let s1 := s.modPart p (fun pt =>
        let pt1 := pt.unrefList v.list
        { pt1 with
          seqs := pt1.seqs.filter (fun w => w.handle != q.handle),
          sheets := pt1.sheets.map (fun e => if q.list.any (fun l => l.sheet == e.1) then (e.1, { e.2 with inset := true }) else e),
          insets := NMap.insert pt1.insets h { v with list := q.list, done := q.pos, installed := true, admitted := true, again := none } })
      if v.installed then s1 else s1.settleModel p v.ctx 0x0301 .ok

/-- The insets staged for removal are removed, with the sheets of one that is being computed again (R166, R241, R327). -/
def State.removeInsets (s : State) (p : Nat) : State :=
  match s.part p with
  | none => s
  | some pt =>
    let s1 := pt.staged.removeInsets.foldl (fun s e =>
      (s.modPart p (fun pt =>
        { (pt.unrefList (((NMap.find pt.insets e.1).map (·.list)).getD [])).unrefList
            ((pt.seqs.filter (fun q => q.handle == insetSeq e.1)).flatMap (·.list)) with
          seqs := pt.seqs.filter (fun q => q.handle != insetSeq e.1), insets := NMap.erase pt.insets e.1,
          gone := .seq (insetSeq e.1) :: pt.gone.erase (.seq (insetSeq e.1)) })).settleModel p e.2 0x0302 .ok) s
    s1.modPart p (fun pt => { pt with staged := { pt.staged with removeInsets := [] } })

end Sys2Proof.Machine
end

