-- ==== Sys2Proof/Machine/Items.lean ====
section
/-!
DEFINITION. The settings that a meridian applies, items 1 to 8 of Table 5 of Architecture, but for the requests: parking and closing of
streams, resizing, tiles taken out and returned, loans, the scale of narrowing, the graticule; and what firmware staged and a stopped
processor leaves behind (R14).
-/
namespace Sys2Proof.Machine

open Sys2Proof

/-! ## Item 1: parking and closing of streams (R205, R209) -/

/-- The header of a state page (Table 2 of Recurrent stream operators). -/
def pageHeader (v : Strm) (h slot mer : Nat) : Bytes :=
  [1#8, if v.nonfinite.contains slot then 1#8 else 0#8] ++ beBytes 2 slot ++ beBytes 4 h ++ beBytes 8 v.doneChunk ++ beBytes 4 mer ++ List.replicate 492 0#8

/-- The pairs of a tile as a state page holds them, hi then lo (R203). -/
def Tile.pairBytes (v : Tile) : Bytes := bytesOfWords ((List.range 1024).flatMap (fun c => [(v.pair c).1, (v.pair c).2]))

/-- A bound stream parked: every slot's page written, its tiles released; `done` says that the step that closes has completed, whose parks are
counted (R213). A row of its banks that is uncorrectable ends the stream (R211). -/
def State.parkStream (s : State) (p h : Nat) (done : Bool) : State :=
  match s.part p with
  | none => s
  | some pt =>
    match NMap.find pt.streams h, pt.image with
    | some v, some im =>
      if v.st != .bound then s
      else if v.tiles.any (fun t => (s.tile t).bankBad) then s.loseStream p h .uncorrectable
      else
        let s1 := (List.range v.tiles.length).foldl (fun s i =>
          (s.shareStore pt (pt.statePage im v i) (pageHeader v h i (s.merCount p) ++ (s.tile (v.tiles.getD i 0)).pairBytes)).touchShare
            (quadPort (v.tiles.getD i 0)) pt (pt.statePage im v i) 8704) s
        let w : Strm := { v with st := .parked, tiles := [], number := 0, idle := 0 }
        let s2 := (s1.releaseTiles v.tiles).modPart p (fun pt => { pt with streams := NMap.insert pt.streams h w })
        if done && !v.tiles.isEmpty then s2.bump .strm p 0x08 1 else s2
    | _, _ => s

/-- The tiles that a partition loses at this meridian, by a resize or a take-out. -/
def Part.leaving (pt : Part) : List Nat :=
  (match pt.staged.resize with
   | some r => if r.flags % 2 = 1 then (pt.quads.filter (fun q => !r.quads.contains q)).flatMap quadTiles else []
   | none => []) ++ pt.staged.takeOut.map Prod.fst

/-- The partition's quads after a resize that is staged. -/
def Part.quadsNext (pt : Part) : List Nat :=
  match pt.staged.resize with
  | some r => if r.flags % 2 = 1 then r.quads else pt.quads
  | none => pt.quads

/-- The bound streams that the loss of a tile parks (R205). -/
def State.forcedParks (s : State) (p : Nat) (pt : Part) : List Nat :=
  let bind := s.bindTiles p { pt with quads := pt.quadsNext }
  (pt.streams.filter (fun e => e.2.st == .bound && e.2.tiles.any (fun t => pt.leaving.contains t || !bind.contains t))).map Prod.fst

/-- The parks staged, and those that the loss of a tile forces. -/
def State.parkItem (s : State) (p : Nat) (done : Bool) : State :=
  match s.part p with
  | none => s
  | some pt =>
    let hs := pt.staged.parks.map Prod.fst ++ s.forcedParks p pt
    let s1 := hs.eraseDups.foldl (fun s h => s.parkStream p h done) s
    let s2 := pt.staged.parks.foldl (fun s e => match e.2 with | some c => s.reply c 0x0203 .ok [] | none => s) s1
    s2.modPart p (fun pt => { pt with staged := { pt.staged with parks := [] } })

/-- The closes staged. -/
def State.closeItem (s : State) (p : Nat) : State :=
  match s.part p with
  | none => s
  | some pt => pt.staged.closes.foldl (fun s e => s.endStream p e.1 .cancelled) s

/-! ## Item 2: resizing and priority (R419) -/

/-- A tile leaves a partition: its rows are zero, its table store clear (R91, R113). -/
def State.tileLeaves (s : State) (t : Nat) : State := (s.clearTile t).putTile t Tile.cleared

/-- A tile joins a partition: its table store is the partition's (R91). -/
def State.tileJoins (s : State) (pt : Part) (t : Nat) : State :=
  match pt.tiles.head? with
  | some u => s.modTile t (fun v => { v with tables := (s.tile u).tables })
  | none => s

/-- Nodes evicted until a quota is met or none can be (R185, R419). -/
def State.evictTo (s : State) (p quota : Nat) : Nat → State
  | 0 => s
  | n + 1 =>
    match s.part p with
    | none => s
    | some pt =>
      if pt.nodes ≤ quota then s
      else
        match s.evictNode p with
        | some s1 => s1.evictTo p quota n
        | none => s

/-- The quads of a resize: departing tiles zero-filled, joining tiles given the table stores. -/
def State.resizeQuads (s : State) (p : Nat) (pt : Part) (quads : List Nat) : State :=
  let s1 := ((quads.filter (fun q => !pt.quads.contains q)).flatMap quadTiles).foldl (fun s t => s.tileJoins pt t) s
  (((pt.quads.filter (fun q => !quads.contains q)).flatMap quadTiles).foldl State.tileLeaves s1).modPart p (fun pt => { pt with quads := quads })

/-- The shares of a resize: removed extents are zero-filled. -/
def State.resizeShares (s : State) (p : Nat) (pt : Part) (dram nand : List Nat) : State :=
  let s1 := (pt.dram.filter (fun e => !dram.contains e)).foldl State.clearExtent s
  ((pt.nand.filter (fun e => !nand.contains e)).foldl State.clearNandExtent s1).modPart p (fun pt => { pt with dram := dram, nand := nand })

/-- A staged resize takes effect and is answered OK. -/
def State.resizeItem (s : State) (p : Nat) : State :=
  match s.part p with
  | none => s
  | some pt =>
    match pt.staged.resize with
    | none => s
    | some r =>
      let s1 := if r.flags % 2 = 1 then s.resizeQuads p pt r.quads else s
      let s2 := if r.flags / 2 % 2 = 1 then s1.resizeShares p pt r.dram r.nand else s1
      let s3 := if r.flags / 4 % 2 = 1 then s2.modPart p (fun pt => { pt with cls := r.cls }) else s2
      let s4 := if r.flags / 8 % 2 = 1 then (s3.putField .gz p 0 20 0 r.quota).evictTo p r.quota pt.nodes else s3
      (s4.modPart p (fun pt => { pt with staged := { pt.staged with resize := none } })).settle r.ctx 0x0502 .ok []

/-! ## Item 3: tiles for survey class S1 (R462) -/

/-- Tiles staged for take-out are taken out, and tested tiles come back zero-filled with the table stores of their neighbours. -/
def State.surveyItem (s : State) (p : Nat) : State :=
  match s.part p with
  | none => s
  | some pt =>
    let s1 := s.setSurvey { s.survey with out := s.survey.out ++ pt.staged.takeOut.map (fun e => (e.1, some e.2, false)) }
    let s2 := pt.staged.putBack.foldl (fun s t =>
      let u := (pt.tiles.find? (fun u => u != t && !s.tileOut u)).getD t
      let tables := (s.tile u).tables
      ((s.tileLeaves t).modTile t (fun v => { v with tables := tables })).setSurvey
        { s.survey with out := s.survey.out.filter (fun e => e.1 != t) }) s1
    s2.modPart p (fun pt => { pt with staged := { pt.staged with takeOut := [], putBack := [] } })

/-! ## Item 5: loans (R265, R268, R269) -/

/-- A loan whose return is due is released: a restore that runs completes, the other caches in it are freed, the lender is told. -/
def State.releaseLoan (s : State) (p : Nat) (l : Loan) : State :=
  let s0 := s.modPart p (fun pt =>
    { pt with reqs := pt.reqs.map (fun e => if e.2.tier == loanTier l.id && e.2.st == .restoring then (e.1, { e.2 with tier := 0 }) else e) })
  let k := ((((s.part p).map (·.loans)).getD []).takeWhile (fun m => m.id != l.id)).filter (fun m => m.link == l.link && m.extents == l.extents)
  let s1 := (s0.dropLoan p l.id).sendMessage (l.link / 2) .lent p
    (beBytes 1 0x43 ++ beBytes 1 p ++ beBytes 1 l.extents ++ beBytes 1 k.length)
  if l.returning && !((s1.part p).any (fun pt => pt.loans.any (fun m => m.link == l.link && m.returning))) then s1.endReturn p l.link
  else s1

/-- Loans granted take effect, loans under notice whose moves or grace have ended are released. -/
def State.loanItem (s : State) (p : Nat) : State :=
  match s.part p with
  | none => s
  | some pt =>
    let s1 := (pt.loans.filter (fun l => !l.active)).foldl (fun s l => s.pushGo (askCode l.link l.extents) p .ok)
      (s.modPart p (fun pt => { pt with loans := pt.loans.map (fun l => { l with active := true }) }))
    (pt.loans.filter (fun l => l.active && l.notice && (l.movesDone || l.graceOver))).foldl (fun s l => s.releaseLoan p l) s1

/-! ## Item 7: the graticule (R102) -/

/-- The step kind that the composition of a step gives (Table 4 of Serving requests and streams). -/
def stepKind (decode prefill streams : Nat) : Nat :=
  if streams = 0 then (if prefill = 0 then 0 else if decode = 0 then 1 else 3) else if decode = 0 && prefill = 0 then 2 else 3

/-- GRAT_ACTIVE for a step of a kind. An empty step, which has no entry point, shows the pattern of kind 0, and a partition without an image P0
(DESIGN CHOICE, log entry 96). -/
def State.gratItem (s : State) (p kind : Nat) : State :=
  match s.part p with
  | none => s
  | some pt =>
    let ctl := s.reg .grat p 0
    let code := fun (b : Nat) => if ctl.bit 2 then ctl.field 1 0 else (pt.image.map (fun im => im.pattern b kind)).getD 0
    (s.putReg .grat p 0x04 (BitVec.ofNat 32 ((pt.bays.map (fun b => code b * 4 ^ b)).sum))).modPart p (fun pt =>
      { pt with staged := { pt.staged with grat := false } })

/-! ## Item 8: the scale of narrowing (R59) -/

/-- The largest finite magnitude of the narrowed element. -/
def fp8Max (elem : Nat) : FVal := if elem = 4 then .ofInt 448 else .ofInt 57344

/-- A scale clamped to [2^−126, largest finite FP32] (R59); a NaN, of which the rule does not speak, to the largest finite FP32 (DESIGN CHOICE, log
entry 95). -/
def clampScale (w : Word) : Word :=
  if f32 w = .nan then 0x7F7FFFFF#32
  else if w.bit 31 || decide (w.toNat < 0x00800000) then 0x00800000#32
  else if 0x7F7FFFFF < w.toNat then 0x7F7FFFFF#32 else w

/-- The next scale from the largest magnitude of the last step and the headroom. A product beyond FP32, of which the rule does not speak, is infinite
(DESIGN CHOICE, log entry 95). -/
def adaptScale (amax : Word) (headroom elem : Nat) : Word :=
  let x := toF32 (FVal.mul (f32 amax) (.fin false headroom (-2)))
  clampScale (toF32 (FVal.div (f32 x) (fp8Max elem)))

/-- The scale set at a meridian. -/
def State.scaleItem (s : State) (p : Nat) (im : Image) : State :=
  match s.part p with
  | none => s
  | some pt =>
    if !s.scales p pt then s
    else
      let ctl := s.reg .narrow p 0
      let calib := match pt.swap, pt.next with
        | some w, some n => if w.layer = im.layers then n.calib else im.calib
        | _, _ => im.calib
      let w := if pt.firstStep then clampScale calib
        else if pt.lastEmpty || pt.lastAmax = 0 then s.reg .narrow p 0x04
        else adaptScale pt.lastAmax (ctl.field 20 16) (ctl.field 12 8)
      (s.putReg .narrow p 0x04 w).modPart p (fun pt => { pt with firstStep := false })

/-! ## The gazetteer switched off (R186) -/

/-- GZ_CTL.EN written 0: the edition is raised and the gazetteer is OFF. -/
def State.gzOffItem (s : State) (p : Nat) : State :=
  if (s.part p).any (·.staged.gzOff) then
    (s.raiseEdition p).modPart p (fun pt =>
      { pt with gzState := if pt.gzState = 4 then 4 else 0, staged := { pt.staged with gzOff := false } })
  else s

/-- The installation of an image raises the edition at the next meridian (R186). -/
def State.editionItem (s : State) (p : Nat) : State :=
  if (s.part p).any (·.staged.edition) then
    (s.raiseEdition p).modPart p (fun pt => { pt with staged := { pt.staged with edition := false } })
  else s

/-! ## What a stopped processor leaves (R14) -/

/-- The settings of a partition that firmware staged and that have not taken effect, discarded with BUSY_RECOVERY. -/
def State.discardFirmware (s : State) (p : Nat) : State :=
  match s.part p with
  | none => s
  | some pt =>
    let g := pt.staged
    let s1 := g.targeted.foldl (fun s e => s.settleTargeted p e.2.2 .busyRecovery) s
    let s2 := match g.resize with
      | some r => s1.settle r.ctx 0x0502 .busyRecovery []
      | none => s1
    let s3 := g.takeOut.foldl (fun s e => s.settle e.2 0x0901 .busyRecovery []) s2
    let s4 := g.removeInsets.foldl (fun s e => s.settleModel p e.2 0x0302 .busyRecovery) s3
    (s4.modPart p (fun pt =>
      { pt with staged := { pt.staged with targeted := [], resize := none, takeOut := [], removeInsets := [] } })).endInsetsIf p
        (fun v => !v.admitted && !v.installed) .busyRecovery

end Sys2Proof.Machine
end

