-- ==== Sys2Proof/Machine/Close.lean ====
section
/-!
DEFINITION. The closing of a step (R20, R154, R160, R184, R213, R228 to R234, R244, R456): its counts, the positions written, the pages
closed and the nodes inserted, the tokens and the ends of requests, cancels and pauses, the outputs of chunks.
-/
namespace Sys2Proof.Machine

open Sys2Proof

/-! ## Pages closed and nodes inserted -/

/-- A page stored again as pods (R160): every block through the engine's encoder, its tag in the page's tag row. -/
def State.podPage (s : State) (p : Nat) (pt : Part) (im : Image) (n l : Nat) : State :=
  let len := 2 * im.keyBytes
  let off := pageOff im pt.layout n l
  let tags := tagRowOff im pt.layout (s.sheetTotal p) n l
  let bs := (s.shareRead pt off len).getD []
  (List.range ((len + 4095) / 4096)).foldl (fun s i =>
    let b := slice bs (4096 * i) 4096
    let e := podEncode none (b ++ List.replicate (4096 - b.length) 0#8)
    ((s.shareStore pt (off + 4096 * i) (e.2.take b.length)).shareStore pt (tags + 16 + 4 * i) (beBytes 4 e.1.toNat)).countPod p e.1) s

/-- The sheets that the closing step has filled. -/
def Part.filled (pt : Part) : List Nat := (pt.sheets.filter (fun e => e.2.fill == 128 && !e.2.closed)).map Prod.fst

/-- The pages of the sheets that the step has filled closed (R160). -/
def State.closePages (s : State) (p : Nat) : State :=
  match s.part p with
  | none => s
  | some pt =>
    match pt.image with
    | none => s
    | some im =>
      let s1 := if im.kvPod then pt.filled.foldl (fun s n => (List.range im.layers).foldl (fun s l => s.podPage p pt im n l) s) s else s
      s1.modPart p (fun v => { v with sheets := v.sheets.map (fun e => if pt.filled.contains e.1 then (e.1, { e.2 with closed := true }) else e) })

/-- The sheets closed in the step considered for insertion, in increasing request-table index (R184). -/
def State.insertNodes (s : State) (p : Nat) (closed : List Nat) : State :=
  match s.part p with
  | none => s
  | some pt =>
    let qs := (pt.seqs.filter (fun q => !q.ofInset)).mergeSort (fun a b => decide (a.index ≤ b.index))
    qs.foldl (fun s q =>
      let inset := ((NMap.find pt.reqs q.handle).map (·.opts.inset)).getD 0
      (List.range q.list.length).foldl (fun s i =>
        if (q.list[i]?).any (fun e => closed.contains e.sheet) then s.insertNode p inset q.list i else s) s) s

/-! ## Positions -/

/-- The sequence samples a token at the end of the step (R228). -/
def Seq.samples (q : Seq) : Bool := q.inStep && !q.ofInset && decide (q.todo.length ≤ q.took)

/-- A sequence past the positions of its step. -/
def Seq.past (q : Seq) : Seq :=
  if q.inStep then { q with pos := q.pos + q.took, todo := q.todo.drop q.took, took := 0, inStep := false } else q

/-- Every sequence past its step; beams that waited for the prompt take the list of the first (R167; log entry 26). -/
def Part.pastStep (pt : Part) : Part :=
  let news := pt.seqs.filter (fun q => q.beam != 0 && q.inStep && q.list.isEmpty)
  let listOf := fun (h : Nat) => ((pt.seqs.find? (fun q => q.handle == h && q.beam == 0)).map (·.list)).getD []
  let pt1 := news.foldl (fun v q => v.refList (listOf q.handle)) pt
  { pt1 with seqs := pt1.seqs.map (fun q => if q.beam != 0 && q.inStep && q.list.isEmpty then { q.past with list := listOf q.handle } else q.past) }

/-- The handles of the requests in a step, in step-block order (R227, R229). -/
def Part.stepOrder (pt : Part) : List Nat :=
  let on := pt.seqs.filter (fun q => q.inStep && !q.ofInset)
  (((on.filter (fun q => q.todo.isEmpty)).mergeSort (fun a b => decide (a.index ≤ b.index))).map (·.handle) ++
    (on.filter (fun q => !q.todo.isEmpty)).map (·.handle)).eraseDups

/-! ## Tokens and ends (R228 to R234) -/

/-- A request ends at a meridian (R231): it pauses where a pause is staged or END_PAUSE is set and the directory has room (R237). -/
def State.finishReq (s : State) (p h : Nat) (pt : Part) (r : Req) (toks : List Nat) (pos : Nat) : State × Recs :=
  let rec_ := fun (paused : Bool) (st : Status) =>
    match r.sess with
    | some n => [(n, ({ handle := h, fin := true, paused := paused, status := st, pos := pos, toks := toks } : TokRec))]
    | none => []
  let staged := pt.staged.pauses.find? (fun e => e.1 == h)
  if r.opts.beams != 1 || (staged.isNone && !r.opts.endPause) then ((s.endReq p h .ok).1, rec_ false .ok)
  else if 65536 ≤ s.pausedAll then ((s.endReq p h .noResource).1, rec_ false .noResource)
  else
    let s1 := s.modPart p (fun pt => { pt with staged := { pt.staged with pauses := pt.staged.pauses.filter (fun e => e.1 != h) } })
    match staged with
    | some (_, c, ttl, tier) => (s1.startPause p h ttl tier (some c), rec_ true .ok)
    | none => (s1.startPause p h r.opts.ttl 0 none, rec_ true .ok)

/-- A token of a request with one beam. -/
def State.oneToken (s : State) (p h : Nat) (pt : Part) (r : Req) (q : Seq) (t : Nat) : State × Recs :=
  if r.left = 0 then s.finishReq p h pt r [] q.pos
  else
    let s1 := s.modPart p (fun pt =>
      { pt with reqs := NMap.insert pt.reqs h { r with left := r.left - 1 },
                seqs := pt.seqs.map (fun v => if v.handle == h then { v with lastToken := t, sampled := none } else v) })
    if r.opts.stops.contains t || r.left = 1 then s1.finishReq p h pt { r with left := r.left - 1 } [t] q.pos
    else
      match r.sess with
      | some n => (s1, [(n, { handle := h, fin := false, paused := false, status := .ok, pos := q.pos, toks := [t] })])
      | none => (s1, [])

/-- The tokens of the beams of a request: kept until it ends with those of the beam ranked highest (R232). -/
def State.beamTokens (s : State) (p h : Nat) (pt : Part) (r : Req) (qs : List Seq) : State × Recs :=
  let outs := qs.map (fun q => q.out ++ q.sampled.toList)
  let s1 := s.modPart p (fun pt =>
    { pt with seqs := pt.seqs.map (fun v =>
        match v.handle == h, v.sampled with
        | true, some t => { v with lastToken := t, out := v.out ++ [t], sampled := none }
        | _, _ => v) })
  if qs.any (fun q => q.sampled.any r.opts.stops.contains) || outs.any (fun o => decide (r.left ≤ o.length)) then
    let best := bestOf outs
    let pos := ((qs.head?).map (·.pos)).getD 0
    s1.finishReq p h pt r best (pos + 1 - best.length)
  else (s1, [])

/-- What becomes of a request of the step at its closing meridian: a cancel takes effect before anything is emitted (R233, R234). -/
def State.closeReq (s : State) (p h : Nat) : State × Recs :=
  match s.part p with
  | none => (s, [])
  | some pt =>
    match NMap.find pt.reqs h with
    | none => (s, [])
    | some r =>
      let qs := pt.seqs.filter (fun q => q.handle == h)
      if pt.staged.cancels.any (fun e => e.1 == h) then s.endReq p h .cancelled
      else if qs.all (fun q => q.sampled.isNone) then (s, [])
      else if r.opts.beams = 1 then
        match qs with
        | q :: _ => match q.sampled with
          | some t => s.oneToken p h pt r q t
          | none => (s, [])
        | [] => (s, [])
      else s.beamTokens p h pt r qs

/-- The cancels of requests that are not in the step (R233). -/
def State.cancelItem (s : State) (p : Nat) : State × Recs :=
  match s.part p with
  | none => (s, [])
  | some pt =>
    let r := (pt.staged.cancels.map Prod.fst).eraseDups.foldl (fun (a : State × Recs) h => let e := a.1.endReq p h .cancelled; (e.1, a.2 ++ e.2)) (s, [])
    (r.1.modPart p (fun pt => { pt with staged := { pt.staged with cancels := [] } }), r.2)

/-- The pauses staged (R236): a full directory leaves the request as it is (R237). -/
def State.pauseItem (s : State) (p : Nat) : State :=
  match s.part p with
  | none => s
  | some pt =>
    let s0 := s.modPart p (fun pt => { pt with staged := { pt.staged with pauses := [] } })
    pt.staged.pauses.foldl (fun s e =>
      if 65536 ≤ s.pausedAll then (s.bump .req p 0x2C 1).reply e.2.1 0x0104 .noResource [] else s.startPause p e.1 e.2.2.1 e.2.2.2 (some e.2.1)) s0

/-! ## Streams (R200, R208, R244) -/

/-- The streams of the step in binding order. -/
def Part.stepStreams (pt : Part) : List Nat :=
  let es := (pt.streams.filter (fun e => e.2.current.isSome)).map (fun e => (e.2.boundAt, (e.2.current.map (·.arrived)).getD 0, e.1))
  (es.mergeSort (fun a b => decide (a.1 < b.1) || (a.1 == b.1 && (decide (a.2.1 < b.2.1) || (a.2.1 == b.2.1 && decide (a.2.2 ≤ b.2.2)))))).map
    (fun e => e.2.2)

/-- The chunk of a stream is done: its output is sent by the first stage, and the final one ends the stream. -/
def State.closeChunk (s : State) (p h : Nat) (im : Image) : State :=
  match s.part p, (s.part p).bind (fun pt => NMap.find pt.streams h) with
  | some pt, some v =>
    match v.current with
    | none => s
    | some k =>
      let tr := s.traceAfter p pt im v k
      let w : Strm := { v with current := none, doneChunk := k.index + 1, committed := [], trace := tr }
      let s1 := s.modPart p (fun q => { q with streams := NMap.insert q.streams h w })
      let s2 := if im.isFirst then s1.sendOutput p h v k.index k.final .ok (outputOf tr im.outBytes) else s1
      if k.final then s2.endStream p h .ok else s2
  | _, _ => s

/-! ## The step as a whole -/

/-- Every stream of the step has committed all its slots, and every sampling sequence of a first stage has its token. -/
def Part.allCommitted (pt : Part) (im : Image) : Bool :=
  pt.streams.all (fun e => e.2.current.isNone || e.2.tiles.isEmpty || e.2.committed.length == e.2.tiles.length) &&
    (!im.isFirst || pt.seqs.all (fun q => !q.samples || q.sampled.isSome))

/-- The step is abandoned (R456): its last replay has failed. -/
def StepSt.abandoned (v : StepSt) : Bool := v.failed.isSome && decide (3 ≤ v.attempts)

/-- A step may close: complete, or abandoned. -/
def Part.mayClose (pt : Part) : Bool :=
  match pt.step, pt.image with
  | some v, some im => v.abandoned || (v.failed.isNone && v.finished && pt.allCommitted im)
  | some v, none => v.empty
  | none, _ => false

/-- The counts of a completed step (R61, R154, R213). -/
def State.addCounts (s : State) (p : Nat) (v : StepSt) : State :=
  let s1 := ((s.bump .sfu p 0x04 v.sfuClamp).bump .sfu p 0x08 v.sfuNan).bump .sfu p 0x18 v.sfuRom
  let s2 := ((s1.bump .narrow p 0x0C v.sat).bump .narrow p 0x10 v.nan).putReg .narrow p 0x08 v.amax
  (((s2.bump .strm p 0x0C v.strmBind).bump .strm p 0x14 v.strmReset).bump .strm p 0x18 v.strmNonfinite).modPart p (fun pt => { pt with lastAmax := v.amax, lastEmpty := v.empty })

/-- An abandoned step: every sequence and stream of it ends with the status of the last failure (R456). The next scale is drawn from the amax of
the step before it (DESIGN CHOICE, log entry 95). -/
def State.abandonStep (s : State) (p : Nat) (st : Status) : State × Recs :=
  match s.part p with
  | none => (s, [])
  | some pt =>
    let keep := pt.stepOrder.filter (fun h => !pt.staged.cancels.any (fun e => e.1 == h))
    let r := keep.foldl (fun (a : State × Recs) h => let e := a.1.endReq p h st; (e.1, a.2 ++ e.2)) (s, [])
    let s1 := ((pt.seqs.filter (fun q => q.inStep && q.ofInset)).map (·.handle)).foldl (fun s h => s.endInset p (h - 2 ^ 32) st) r.1
    (pt.stepStreams.foldl (fun s h => s.endStream p h st) s1, r.2)

/-- The computations of insets whose last chunk has been written. -/
def State.closeInsets (s : State) (p : Nat) : State :=
  match s.part p with
  | none => s
  | some pt => (pt.seqs.filter (fun q => q.ofInset && q.todo.isEmpty && decide (0 < q.pos))).foldl (fun s q => s.finishInset p (q.handle - 2 ^ 32) q) s

/-- A step that has run to its end closed: counts, positions, pages, nodes, tokens and ends, outputs. -/
def State.completeStep (s : State) (p : Nat) (im : Image) (v : StepSt) : State × Recs :=
  match s.part p with
  | none => (s, [])
  | some pt =>
    let order := pt.stepOrder
    let s1 := ((s.addCounts p v).closePages p).modPart p Part.pastStep
    let s2 := (if im.isFirst then s1.insertNodes p pt.filled else s1).closeInsets p
    let r := order.foldl (fun (a : State × Recs) h => let e := a.1.closeReq p h; (e.1, a.2 ++ e.2)) (s2, [])
    (pt.stepStreams.foldl (fun s h => s.closeChunk p h im) r.1, r.2)

/-- The closing of whatever step a partition has: the slots of its expert cache are pinned no longer (R264). -/
def State.closeStep (s : State) (p : Nat) (im : Image) : State × Recs :=
  match (s.part p).bind (·.step) with
  | none => (s, [])
  | some v =>
    let a := if v.empty then ((s.putReg .narrow p 0x08 0).modPart p (fun pt => { pt with lastAmax := 0, lastEmpty := true }), [])
      else if v.failed.isSome then s.abandonStep p (v.failed.getD .uncorrectable)
      else s.completeStep p im v
    let s1 := a.1.modPart p (fun pt =>
      { pt with step := none, seqs := pt.seqs.map (fun q => { q with inStep := false, took := 0 }),
                xcache := pt.xcache.map (fun x => { x with pinned := none }) })
    (s1, a.2)

/-- Item 1 of a meridian: cancels, pauses, parks and closes; `done` says that the step that closes has completed. -/
def State.firstItem (s : State) (p : Nat) (done : Bool) : State × Recs :=
  let c := s.cancelItem p
  (((c.1.pauseItem p).parkItem p done).closeItem p, c.2)

end Sys2Proof.Machine
end

