-- ==== Sys2Proof/Machine/Compose.lean ====
section
/-!
DEFINITION. The opening of a step (R164, R205, R206, R208, R227): the chunks that streams take, the step block, the decisions of the first stage
and their application on the later stages.
-/
namespace Sys2Proof.Machine

open Sys2Proof

/-! ## Streams of the step (R205, R207, R208) -/

/-- A stream takes its oldest chunk into the step that opens. -/
def Strm.takeChunk (v : Strm) : Strm :=
  match v.queue with
  | k :: ks => { v with current := some k, queue := ks, committed := [], idle := 0 }
  | [] => { v with idle := v.idle + 1 }

/-- Every bound stream takes its next chunk; of a model that binds nothing, the streams that have waited longest do, up to 512 (R207). The idle rule
stages the park of a stream whose queue has been empty often enough (R205). -/
def State.takeChunks (s : State) (p : Nat) (im : Image) : State :=
  match s.part p with
  | none => s
  | some pt =>
    let on : List Nat := if im.neverBinds then (waitingStreams pt .parked).take 512
      else (pt.streams.filter (fun e => e.2.st == .bound)).map Prod.fst
    let streams := pt.streams.map (fun e => if on.contains e.1 then (e.1, e.2.takeChunk) else e)
    let limit := (s.reg .strm p 0).field 7 0
    let idle := if im.neverBinds || limit = 0 then [] else
      (streams.filter (fun e => e.2.st == .bound && decide (limit ≤ e.2.idle) && !pt.staged.parks.any (fun v => v.1 == e.1))).map (fun e => (e.1, none))
    s.modPart p (fun pt => { pt with streams := streams, staged := { pt.staged with parks := pt.staged.parks ++ idle } })

/-! ## Beams that wait (log entry 26) -/

/-- The beams whose first beam completes its prompt in this step sample with it. -/
def Part.wakeBeams (pt : Part) : Part :=
  { pt with seqs := pt.seqs.map (fun q =>
      if q.beam != 0 && q.list.isEmpty then
        match pt.seqs.find? (fun b => b.handle == q.handle && b.beam == 0) with
        | some b => if b.inStep && !b.todo.isEmpty && b.todo.length == b.took then { q with inStep := true, took := 0, pos := b.pos + b.took } else q
        | none => q
      else q) }

/-! ## The step block (Table 4 of Serving requests and streams) -/

/-- One record of the step block. -/
def stepRecord (ty beam index pos count marks : Nat) (sample : Bool) : List Word :=
  [BitVec.ofNat 32 (ty * 2 ^ 30 + beam * 2 ^ 13 + index), BitVec.ofNat 32 pos, BitVec.ofNat 32 count,
   BitVec.ofNat 32 (marks * 2 ^ 16 + (if sample then 1 else 0))]

/-- The record of a sequence. -/
def Seq.record (q : Seq) : List Word :=
  stepRecord (if q.todo.isEmpty then 0 else 1) q.beam q.index (q.pos % 2 ^ 24) q.took 0 q.samples

/-- The sequences of a step: those in decode by index, then those in prefill in admission order. -/
def Part.decoding (pt : Part) : List Seq :=
  (pt.seqs.filter (fun q => q.inStep && decide (0 < q.took) && q.todo.isEmpty)).mergeSort (fun a b => decide (a.index ≤ b.index))
/-- The sequences in prefill. -/
def Part.prefilling (pt : Part) : List Seq := pt.seqs.filter (fun q => q.inStep && decide (0 < q.took) && !q.todo.isEmpty)

/-- The records of the streams of a step; `place` numbers those of a model that binds nothing. -/
def streamRecords (pt : Part) (never : Bool) : List Nat → Nat → List Word
  | [], _ => []
  | h :: hs, place =>
    (match NMap.find pt.streams h with
     | some v => match v.current with
       | some k => stepRecord 2 0 (if never then place else v.number) (k.index % 2 ^ 32) k.positions k.marks.length false
       | none => []
     | none => []) ++ streamRecords pt never hs (place + 1)

/-- The step block of a first stage and its kind. -/
def Part.stepBlock (pt : Part) (im : Image) (count : Nat) : List Word × Nat :=
  let ds := pt.decoding
  let ps := pt.prefilling
  let ss := pt.stepStreams
  let kind := stepKind ds.length ps.length ss.length
  ([BitVec.ofNat 32 count, BitVec.ofNat 32 kind, BitVec.ofNat 32 (ps.length * 2 ^ 16 + ds.length), BitVec.ofNat 32 ss.length,
    BitVec.ofNat 32 ((ps.map (·.took)).sum)] ++ List.replicate 11 0#32 ++ ds.flatMap Seq.record ++ ps.flatMap Seq.record ++
    streamRecords pt im.neverBinds ss 0, kind)

/-- The step that a block opens, which has bound `binds` streams: empty without a record. -/
def StepSt.opened (now count kind : Nat) (block : List Word) (binds : Nat) : StepSt :=
  { openedAt := now, count := count, empty := decide (block.length ≤ 16), kind := kind, block := block, attempts := 1, failed := none,
    repair := false, amax := 0, sat := 0, nan := 0, sfuClamp := 0, sfuNan := 0, sfuRom := 0, strmReset := 0, strmNonfinite := 0,
    strmBind := binds, colls := [], taken := [], finished := false }

/-- Every bay context at the entry point of a step kind (R82). -/
def Part.atEntry (pt : Part) (im : Image) (kind : Nat) : NMap BayCtx :=
  pt.bays.mergeSort.map (fun b => (b, { BayCtx.atEntry with pc := im.entryPoint kind }))

/-- A stream is bound that was not bound before a meridian, or not by the same binding. -/
def Part.bindsAnew (old : Part) (h : Nat) (v : Strm) : Bool :=
  v.st == .bound && !(NMap.find old.streams h).any (fun u => u.st == .bound && u.boundAt == v.boundAt)

/-- The streams that a meridian has bound to tiles here, for STRM_BIND_CNT (R213). -/
def Part.binds (old new : Part) : Nat := (new.streams.filter (fun e => old.bindsAnew e.1 e.2 && !e.2.tiles.isEmpty)).length

/-- A step opened with a block (R82, R102, R227). -/
def State.openStep (s : State) (p : Nat) (im : Image) (count kind : Nat) (block : List Word) (binds : Nat) : State :=
  (s.modPart p (fun pt =>
    { pt with step := some (StepSt.opened s.now count kind block binds),
              ctxs := if block.length ≤ 16 then [] else pt.atEntry im kind })).gratItem p kind

/-! ## The decisions of the first stage (R164, R206) -/

/-- A mask region as it travels: whether there is one, its base entry, rows and columns. -/
def maskBytes (m : Option (Nat × Nat × Nat)) : Bytes :=
  match m with
  | none => beBytes 1 0
  | some (e, r, c) => beBytes 1 1 ++ beBytes 2 e ++ beBytes 2 r ++ beBytes 2 c

/-- A decision as it travels; the manual gives no layout (log entry 26). -/
def Decision.bytes : Decision → Bytes
  | .drop h b => beBytes 1 1 ++ beBytes 8 h ++ beBytes 1 b
  | .node n on p h st => beBytes 1 2 ++ beBytes 4 n ++ beBytes 1 on.toNat ++ beBytes 4 (p.getD 0xFFFFFFFF) ++ beBytes 8 h.toNat ++ beBytes 4 st
  | .copySheet h b x y pos f => beBytes 1 3 ++ beBytes 8 h ++ beBytes 1 b ++ beBytes 4 x ++ beBytes 4 y ++ beBytes 4 pos ++ beBytes 1 f
  | .take h b n pos f i => beBytes 1 4 ++ beBytes 8 h ++ beBytes 1 b ++ beBytes 4 n ++ beBytes 4 pos ++ beBytes 1 f ++ beBytes 1 i.toNat
  | .insetDone h => beBytes 1 13 ++ beBytes 4 h
  | .insetGone h => beBytes 1 14 ++ beBytes 4 h
  | .pause h t => beBytes 1 5 ++ beBytes 4 h ++ beBytes 1 t
  | .restore h ns => beBytes 1 6 ++ beBytes 4 h ++ beBytes 2 ns.length ++ ns.flatMap (beBytes 4)
  | .free h => beBytes 1 7 ++ beBytes 4 h
  | .close h => beBytes 1 8 ++ beBytes 4 h
  | .park h => beBytes 1 9 ++ beBytes 4 h
  | .bind h n => beBytes 1 10 ++ beBytes 4 h ++ beBytes 2 n
  | .run h b i pos ts m =>
    beBytes 1 11 ++ beBytes 8 h ++ beBytes 1 b ++ beBytes 2 i ++ beBytes 4 pos ++ beBytes 4 ts.length ++ ts.flatMap (beBytes 4) ++ maskBytes m
  | .chunk h k n ms f =>
    beBytes 1 12 ++ beBytes 4 h ++ beBytes 8 k ++ beBytes 2 n ++ beBytes 1 ms.length ++ ms.flatMap (beBytes 2) ++ beBytes 1 f.toNat

/-- The sequence stood in the tables before a meridian, and has not left since the one before it. -/
def Part.hadSeq (old new : Part) (h b : Nat) : Bool := !new.gone.contains (.seq h) && old.seqs.any (fun v => v.handle == h && v.beam == b)

/-- The page list that a sequence had before a meridian: its own, that of the first beam where it has waited for the prompt with it, or that of the
request it resumes. -/
def Part.oldList (old new : Part) (h b : Nat) : List PageEntry :=
  let of := fun (k : Nat) => old.seqs.find? (fun v => v.handle == h && v.beam == k)
  if new.gone.contains (.seq h) then []
  else
    match of b with
    | some v => if b != 0 && v.inStep && v.list.isEmpty then ((of 0).map (·.list)).getD [] else v.list
    | none => if b = 0 then ((NMap.find old.reqs h).map (·.list)).getD [] else []

/-- The list, before a meridian, of the sequence that a new one branches from (R167). -/
def Part.parentList (old new : Part) (h : Nat) : List PageEntry :=
  match (NMap.find new.reqs h).bind (·.opts.parent) with
  | some k => old.oldList new k 0
  | none => []

/-- What a sequence's list has gained (R162, R167): a copy where it, or the sequence it branches from, held another sheet at the place. -/
def listDecisions (own parent : List PageEntry) (q : Seq) : List Decision :=
  q.list.filterMap (fun e =>
    let fill := min e.fill (q.pos - e.start)
    let copy := fun (o : PageEntry) => Decision.copySheet q.handle q.beam o.sheet e.sheet e.start fill
    let took := Decision.take q.handle q.beam e.sheet e.start fill e.inset
    match own.find? (fun o => o.start == e.start), parent.find? (fun o => o.start == e.start) with
    | some o, _ => if o.sheet = e.sheet then none else some (copy o)
    | none, some o => if o.sheet = e.sheet then some took else some (copy o)
    | none, none => some took)

/-- The decisions about what has left (R164): work that has ended, resumes taken back. -/
def Gone.decision : Gone → Decision
  | .seq h => if h < 2 ^ 32 then .free h else .drop h 0
  | .stream h => .close h
  | .resume h => .restore h []

/-- The tokens of a sequence's positions in the step. -/
def Seq.stepTokens (q : Seq) : List Nat := if q.took = 0 then [] else if q.todo.isEmpty then [q.lastToken] else q.todo.take q.took

/-- The decisions of a meridian: what it changed in the sheets, lists, binds and the work of the step. The lists of sequences that are new come
before those of the others, which may give sheets up. -/
def decisionsOf (old new : Part) : List Decision :=
  let st := fun (pt : Part) (h : Nat) => (NMap.find pt.reqs h).map (·.st)
  let first := new.seqs.filter (fun q => !old.hadSeq new q.handle q.beam)
  let others := new.seqs.filter (fun q => old.hadSeq new q.handle q.beam)
  ((new.sheets.filter (fun e => e.2.node && !new.nodesTold.contains (e.1, e.2.stamp))).map (fun e =>
    Decision.node e.1 true e.2.parent e.2.hash e.2.stamp)) ++
  ((old.seqs.filter (fun q => q.ofInset && !new.gone.contains (.seq q.handle) && !new.seqs.any (fun v => v.handle == q.handle))).map (fun q =>
    Decision.insetDone (q.handle - 2 ^ 32))) ++
  new.gone.reverse.map Gone.decision ++
  ((new.reqs.filter (fun e => e.2.st == .pausing && st old e.1 != some .pausing)).map (fun e => Decision.pause e.1 (min 2 e.2.tier))) ++
  ((old.insets.filter (fun e => e.2.installed && (NMap.find new.insets e.1).isNone)).map (fun e => Decision.insetGone e.1)) ++
  ((new.nodesTold.filter (fun e => !(NMap.find new.sheets e.1).any (·.node))).map (fun e => Decision.node e.1 false none 0 0)) ++
  first.flatMap (fun q => listDecisions (old.oldList new q.handle q.beam) (old.parentList new q.handle) q) ++
  others.flatMap (fun q => listDecisions (old.oldList new q.handle q.beam) [] q) ++
  ((new.reqs.filter (fun e => e.2.st == .restoring && st old e.1 != some .restoring)).map (fun e =>
    Decision.restore e.1 ((e.2.list.filter (fun l => e.2.moved.any (fun m => m.1.start == l.start))).map (·.sheet)))) ++
  ((new.seqs.filter (·.inStep)).map (fun q => Decision.run q.handle q.beam q.index q.pos q.stepTokens q.mask)) ++
  ((old.streams.filter (fun e => e.2.st == .bound && (NMap.find new.streams e.1).any (fun v => v.st == .parked || old.bindsAnew e.1 v))).map (fun e =>
    Decision.park e.1)) ++
  ((new.streams.filter (fun e => old.bindsAnew e.1 e.2)).map (fun e => Decision.bind e.1 e.2.number)) ++
  new.streams.filterMap (fun e => e.2.current.map (fun k => Decision.chunk e.1 k.index k.positions k.marks k.final))

/-- The later stages have been told of everything. -/
def Part.allTold (pt : Part) : Part :=
  { pt with gone := [], nodesTold := (pt.sheets.filter (fun e => e.2.node)).map (fun e => (e.1, e.2.stamp)) }

/-- The message of the first stage's decisions with the step block, in the activation class to the second stage (R164, R227). -/
def State.sendDecisions (s : State) (p count : Nat) (block : List Word) (ds : List Decision) : State :=
  s.sendMessage 0 .activation p
    (beBytes 1 0x05 ++ beBytes 4 count ++ beBytes 4 block.length ++ block.flatMap (fun w => beBytes 4 w.toNat) ++ ds.flatMap Decision.bytes)

/-! ## Their application on a later stage -/

/-- A paused request as a later stage knows it: only what its cache needs. -/
def Req.remote : Req := { Req.opened 0xFFFF { (default : ReqOpts) with beams := 1 } false [] with sess := none }

/-- A run of tokens written into the sequence's own entries that their positions fall in. -/
def Part.writeTokens (pt : Part) (l : List PageEntry) (pos : Nat) (toks : List Nat) : Part × List PageEntry :=
  l.foldl (fun (a : Part × List PageEntry) e =>
    let lo := max pos e.start
    let hi := min (pos + toks.length) (e.start + 128)
    if e.inset || decide (hi ≤ lo) then (a.1, a.2 ++ [e])
    else
      ({ a.1 with sheets := NMap.modify a.1.sheets e.sheet (fun v =>
          { v with fill := hi - e.start, tokens := v.tokens.take (lo - e.start) ++ (toks.drop (lo - pos)).take (hi - lo) }) },
       a.2 ++ [{ e with fill := hi - e.start }])) (pt, [])

/-- A sequence of a later stage brought into being: with the list of the paused request that it resumes, else with none. -/
def Part.haveSeq (pt : Part) (h beam : Nat) : Part :=
  if pt.seqs.any (fun q => q.handle == h && q.beam == beam) then pt
  else
    match (NMap.find pt.reqs h).filter (fun _ => beam == 0) with
    | some r => { pt with seqs := pt.seqs ++ [Seq.start h 0 r.list r.pos [] 0], reqs := NMap.erase pt.reqs h }
    | none => { pt with seqs := pt.seqs ++ [{ Seq.start h 0 [] 0 [] 0 with beam := beam }] }

/-- The list of a sequence changed. -/
def Part.modList (pt : Part) (h beam : Nat) (f : List PageEntry → List PageEntry) : Part :=
  { pt with seqs := pt.seqs.map (fun q => if q.handle == h && q.beam == beam then { q with list := f q.list } else q) }

/-- An entry added to a list of a later stage: a reference to a sheet it has, or a new sheet. -/
def State.takeEntry (s : State) (p h beam n pos fill : Nat) (inset : Bool) : State :=
  match s.part p with
  | none => s
  | some pt =>
    let new := (NMap.find pt.sheets n).isNone
    let pt1 := (if new then pt.putSheet n (Sheet.fresh pos) else pt.ref n).haveSeq h beam
    let s1 := s.putPart p (pt1.modList h beam (fun l => l ++ [{ start := pos, fill := if new then 0 else fill, inset := inset, sheet := n }]))
    if new then s1.openPages p pt1 n else s1

/-- A copy of an open sheet on a later stage (R167): it takes the place of the sheet in the sequence's list, whose reference is released, or stands in
a branch's list for what its parent holds there. -/
def State.copyEntry (s : State) (p h beam src dst pos fill : Nat) : State :=
  match s.part p with
  | none => s
  | some pt =>
    let pt0 := pt.haveSeq h beam
    let has := pt0.seqs.any (fun q => q.handle == h && q.beam == beam && q.list.any (fun e => e.sheet == src && e.start == pos))
    let pt1 := pt0.putSheet dst ((NMap.get (Sheet.fresh pos) pt.sheets src).copyOf fill)
    let pt2 := if has then
        (pt1.unref src).modList h beam (fun l => l.map (fun e => if e.sheet == src && e.start == pos then { e with sheet := dst } else e))
      else pt1.modList h beam (fun l => l ++ [{ start := pos, fill := fill, inset := false, sheet := dst }])
    (((s.putPart p pt2).openPages p pt2 dst).copyPages pt src dst fill).bump .kv p 0x20 1

/-- A sequence of a later stage takes its positions. -/
def State.runSeq (s : State) (p h beam index pos : Nat) (toks : List Nat) (mask : Option (Nat × Nat × Nat)) : State :=
  s.modPart p (fun pt =>
    let pt1 := pt.haveSeq h beam
    match pt1.seqs.find? (fun q => q.handle == h && q.beam == beam) with
    | none => pt1
    | some q =>
      let w := pt1.writeTokens q.list pos toks
      { w.1 with seqs := w.1.seqs.map (fun v => if v.handle == h && v.beam == beam then
          { v with list := w.2, index := index, pos := pos, took := toks.length, inStep := true, mask := mask,
                   todo := if toks.length = 1 then [] else toks } else v) })

/-- A stream that a later stage does not know yet, parked with zeroed pairs (R206). -/
def State.openRemote (s : State) (p h : Nat) : State :=
  match s.part p with
  | none => s
  | some pt =>
    let v : Strm := { Strm.opened 0xFFFF pt.freePage with st := .parked }
    (s.zeroPages pt v).modPart p (fun pt => { pt with streams := NMap.insert pt.streams h v })

/-- A stream bound on a later stage (R206). -/
def State.bindRemote (s : State) (p h number : Nat) (im : Image) : State :=
  let s1 := if (s.part p).any (fun pt => (NMap.find pt.streams h).isSome) then s else s.openRemote p h
  match s1.part p with
  | none => s1
  | some pt => s1.bindStream p h number ((s1.freeBindTiles p pt).take im.slots)

/-- A stream of a later stage advances by a chunk; one that this stage has parked for the loss of its tiles is bound again (log entry 26). -/
def State.chunkRemote (s : State) (p h : Nat) (im : Image) (k : Chunk) : State :=
  let s1 := match (s.part p).bind (fun pt => NMap.find pt.streams h) with
    | none => s.openRemote p h
    | some v => if v.st == StrSt.parked && im.slots != 0 then s.bindRemote p h 0 im else s
  s1.modPart p (fun pt => { pt with streams := NMap.modify pt.streams h (fun v => { v with current := some k, committed := [] }) })

/-- A request paused on a later stage (R236): where the first stage has left its sheets in LPDDR5X they stay here, elsewhere they move as a pause of
that tier moves them; where no tier has room their stored form is kept with the request (log entry 26). -/
def State.pauseRemote (s : State) (p h tier : Nat) : State :=
  match s.part p with
  | none => s
  | some pt =>
    match pt.seqs.find? (fun q => q.handle == h) with
    | none => s
    | some q =>
      let held := if tier = 0 then [] else s.privateCache p pt q
      s.beginPause p h 0 tier none pt Req.remote q held (if tier = 0 then 0 else s.pauseTier pt tier (movedBytes held))

/-- A restore on a later stage: it begins with the sheets that the first stage has taken, or is taken back. -/
def Part.restoreRemote (pt : Part) (h : Nat) (ns : List Nat) : Part :=
  match NMap.find pt.reqs h with
  | none => pt
  | some r =>
    if r.st == .restoring then
      let pt1 := pt.unrefList r.restored
      { pt1 with reqs := NMap.insert pt1.reqs h r.revert }
    else
      let es := (List.range r.moved.length).map (fun i =>
        let m := r.moved.getD i default
        ({ m.1 with sheet := ns.getD i 0 }, m.2.1))
      let pt1 := es.foldl (fun v e => v.putSheet e.1.sheet { e.2 with refs := 1, node := false, parent := none }) pt
      { pt1 with reqs := NMap.insert pt1.reqs h { r with st := .restoring, walked := false, list := sortEntries (r.list ++ es.map Prod.fst) } }

/-- A node of the gazetteer as the first stage sets or clears it (R161, R164). -/
def Part.nodeRemote (pt : Part) (n : Nat) (on : Bool) (parent : Option Nat) (hash : Dword) (stamp : Nat) : Part :=
  match NMap.find pt.sheets n with
  | none => pt
  | some v =>
    if on then pt.putSheet n { v with node := true, parent := parent, hash := hash, stamp := stamp }
    else if v.refs = 0 then { pt with sheets := NMap.erase pt.sheets n }
    else pt.putSheet n { v with node := false }

/-- An inset that the first stage holds complete: its sheets are the inset's here too (R326). -/
def State.insetRemote (s : State) (p h : Nat) : State :=
  match (s.part p).bind (fun pt => pt.seqs.find? (fun q => q.handle == insetSeq h)) with
  | none => s
  | some q =>
    (s.modPart p (fun pt =>
      { pt with insets := NMap.insert pt.insets h { NMap.get (default : Inset) pt.insets h with installed := true } })).finishInset p h q

/-- A decision of the first stage applied on a later one. -/
def State.applyDecision (s : State) (p : Nat) (im : Image) : Decision → State
  | .drop h b => s.modPart p (fun pt =>
      let gone := pt.seqs.filter (fun q => q.handle == h && q.beam == b)
      { gone.foldl (fun v q => v.unrefList q.list) pt with seqs := pt.seqs.filter (fun q => !(q.handle == h && q.beam == b)) })
  | .node n on par hash stamp => s.modPart p (fun pt => pt.nodeRemote n on par hash stamp)
  | .copySheet h b x y pos f => s.copyEntry p h b x y pos f
  | .take h b n pos f i => s.takeEntry p h b n pos f i
  | .insetDone h => s.insetRemote p h
  | .insetGone h => s.modPart p (fun pt =>
      { pt.unrefList (((NMap.find pt.insets h).map (·.list)).getD []) with insets := NMap.erase pt.insets h })
  | .pause h t => s.pauseRemote p h t
  | .restore h ns => s.modPart p (fun pt => pt.restoreRemote h ns)
  | .free h => s.dropReq p h
  | .close h => s.endStream p h .cancelled
  | .park h => s.parkStream p h true
  | .bind h n => s.bindRemote p h n im
  | .run h b i pos ts m => s.runSeq p h b i pos ts m
  | .chunk h k n ms f => s.chunkRemote p h im { index := k, positions := n, marks := ms, final := f, data := [], arrived := 0 }

/-- The step of a later stage: the decisions held for this count applied, its block the first stage's. -/
def State.followStep (s : State) (p : Nat) (im : Image) (count : Nat) : State :=
  match s.part p with
  | none => s
  | some pt =>
    match pt.decisions.find? (fun e => e.1 == count) with
    | none => s.openStep p im count 0 [] 0
    | some (_, block, ds) =>
      let s1 := (ds.foldl (fun s d => s.applyDecision p im d) s).modPart p (fun pt =>
        { pt with gone := [], decisions := pt.decisions.filter (fun e => e.1 != count) })
      s1.openStep p im count ((block.getD 1 0).field 1 0) block (((s1.part p).map (fun new => pt.binds new)).getD 0)

/-- The step of a first stage composed, and its decisions sent on. -/
def State.leadStep (s : State) (p : Nat) (im : Image) (count : Nat) (old : Part) : State :=
  let s1 := (s.takeChunks p im).modPart p Part.wakeBeams
  match s1.part p with
  | none => s1
  | some pt =>
    let b := pt.stepBlock im count
    let s2 := (s1.openStep p im count b.2 b.1 (old.binds pt)).modPart p Part.allTold
    if im.stages < 2 then s2 else s2.sendDecisions p count b.1 (decisionsOf old pt)

end Sys2Proof.Machine
end

