-- ==== Sys2Proof/Machine/SfuExact.lean ====
section
/-!
DEFINITION. The functions of the special-function unit as real functions, in fixed point with 400 bits after the point, and the bounds that
R136 and R142 set on a result. The error of an evaluation stays below 2^−350 (log entry 6).
-/
namespace Sys2Proof.Machine

open Sys2Proof

/-- One in fixed point. -/
def fxOne : Int := 2 ^ 400

/-- A product in fixed point. -/
def fxMul (a b : Int) : Int := a * b / 2 ^ 400

/-- A quotient in fixed point. -/
def fxDiv (a b : Int) : Int := a * 2 ^ 400 / b

/-- A finite value in fixed point. -/
def fxOf : FVal → Int
  | .fin neg m e =>
    let q : Int := if -400 ≤ e then m * 2 ^ (e + 400).toNat else m / 2 ^ (-400 - e).toNat
    if neg then -q else q
  | _ => 0

/-- A sum of `n` terms, each formed from its index and the one before; `use` gives what a term adds. -/
def fxSeries (n : Nat) (t0 : Int) (next : Nat → Int → Int) (use : Nat → Int → Int) : Int :=
  ((List.range n).foldl (fun (a : Int × Int) i => (next (i + 1) a.1, a.2 + use i a.1)) (t0, 0)).2

/-- atanh of a magnitude of at most 1/3. -/
def fxAtanh (z : Int) : Int := fxSeries 130 z (fun _ t => fxMul (fxMul t z) z) (fun i t => t / (2 * i + 1))

/-- arctan of 1/k. -/
def fxAtanInv (k : Int) : Int :=
  fxSeries 100 (fxOne / k) (fun _ t => -(t / (k * k))) (fun i t => t / (2 * i + 1))

/-- ln 2. -/
def fxLn2 : Int := 2 * fxAtanh (fxOne / 3)

/-- π. -/
def fxPi : Int := 16 * fxAtanInv 5 - 4 * fxAtanInv 239

/-- ln of a positive number in fixed point. -/
def fxLn (x : Int) : Int :=
  let k := x.toNat.log2
  let u : Int := if k ≤ 400 then x * 2 ^ (400 - k) else x / 2 ^ (k - 400)
  2 * fxAtanh (fxDiv (u - fxOne) (u + fxOne)) + ((k : Int) - 400) * fxLn2

/-- e to a power. -/
def fxExp (x : Int) : Int :=
  let n := x / fxLn2
  let r := x - n * fxLn2
  let y := fxSeries 100 fxOne (fun i t => fxMul t r / i) (fun _ t => t)
  if 0 ≤ n then y * 2 ^ n.toNat else y / 2 ^ (-n).toNat

/-- The square root of a number that is not negative. -/
def fxSqrt (x : Int) : Int := ((x.toNat * 2 ^ 400).sqrt : Nat)

/-- The error function. -/
def fxErf (x : Int) : Int :=
  let s := fxSeries 400 x (fun i t => -(fxMul (fxMul t x) x / i)) (fun i t => t / (2 * i + 1))
  fxDiv (2 * s) (fxSqrt fxPi)

/-- The hyperbolic tangent. -/
def fxTanh (x : Int) : Int := fxOne - fxDiv (2 * fxOne) (fxExp (2 * x) + fxOne)

/-- The logistic function. -/
def fxSigmoid (x : Int) : Int := fxDiv fxOne (fxOne + fxExp (-x))

/-- The sine of an angle in [0, π/2). -/
def fxSin0 (r : Int) : Int := fxSeries 60 r (fun i t => -(fxMul (fxMul t r) r / (2 * i * (2 * i + 1)))) (fun _ t => t)

/-- The cosine of an angle in [0, π/2). -/
def fxCos0 (r : Int) : Int := fxSeries 60 fxOne (fun i t => -(fxMul (fxMul t r) r / (2 * i * (2 * i - 1)))) (fun _ t => t)

/-- The sine of any angle, or with `q` = 1 its cosine. -/
def fxSin (x : Int) (q : Int) : Int :=
  let h := fxPi / 2
  let n := x / h
  let r := x - n * h
  match ((n + q) % 4).toNat with
  | 0 => fxSin0 r
  | 1 => fxCos0 r
  | 2 => -(fxSin0 r)
  | _ => -(fxCos0 r)

/-- A function of Table 2 of Special functions at a finite value of its domain. -/
def sfuExact (fn : Nat) (v : FVal) : Int :=
  let x := fxOf v
  match fn with
  | 0 => fxExp (fxMul x fxLn2)
  | 1 => fxExp x
  | 2 => fxDiv (fxLn x) fxLn2
  | 3 => fxLn x
  | 4 => fxDiv fxOne x
  | 5 => fxDiv fxOne (fxSqrt x)
  | 6 => fxSqrt x
  | 7 => fxSigmoid x
  | 8 => fxTanh x
  | 9 =>
    let c := fxMul (fxSqrt (fxDiv (2 * fxOne) fxPi)) (x + fxMul (fxMul x x) x * 44715 / 1000000)
    fxMul x (fxOne + fxTanh c) / 2
  | 10 => fxMul x (fxOne + fxErf (fxDiv x (fxSqrt (2 * fxOne)))) / 2
  | 11 => fxMul x (fxSigmoid x)
  | 12 => fxLn (fxOne + fxExp x)
  | 13 => fxErf x
  | 14 => fxSin x 0
  | _ => fxSin x 1

/-- The format of an output code. -/
def outFmt (out : Nat) : FFmt := (floatFmt out).getD FFmt.fp32

/-- The spacing of a format in the binade of a number. -/
def fxUlp (f : FFmt) (e : Int) : Int := 2 ^ (max ((e.natAbs.log2 : Int) - (f.mb : Int)) (f.minExp + 400)).toNat

/-- What R136 lets an evaluation be off by where the exact result is `e`: `none` where the result must be faithful. R142 sets 4 ulp in
place of the ulp bounds. -/
def sfuBounds (fn mode out : Nat) (e : Int) : Option Int :=
  let small := decide (e.natAbs < 2 ^ 394)
  if fn = 14 || fn = 15 then if out = 1 then some (2 ^ 377) else none
  else if (fn = 9 || fn = 10 || fn = 11) && small then some (2 ^ 370)
  else if out ≠ 1 then none
  else some ((if mode = 1 then 4 else if fn ≤ 6 then 1 else 2) * fxUlp FFmt.fp32 e)

/-- A result is faithful (R136). -/
def fxFaithful (f : FFmt) (e y : Int) : Bool := decide ((y - e).natAbs + 2 ^ 50 < (fxUlp f e).natAbs)

/-- A code meets the bound of R136 or R142 for the exact result `e`; beyond the format's range it is the largest finite value (R133). -/
def sfuMeets (fn mode out : Nat) (e : Int) (code : Nat) : Bool :=
  let f := outFmt out
  let top := fxOf (f.decode f.maxCode)
  match f.decode code with
  | .fin neg m x =>
    let y := fxOf (.fin neg m x)
    if top < (e.natAbs : Int) then decide (y = if e < 0 then -top else top)
    else
      match sfuBounds fn mode out e with
      | some b => decide (((y - e).natAbs : Int) ≤ b)
      | none => fxFaithful f e y || ((fn = 14 || fn = 15) && decide ((y - e).natAbs ≤ 2 ^ 377)) || decide (y = e)
  | _ => false

/-- The exact result rounded once to an output format (R133). -/
def sfuNearest (out : Nat) (e : Int) : Nat := codeOfValue out .rne (.ofScaled e (-400))

end Sys2Proof.Machine
end

