-- ==== Sys2Proof/Machine/Sfu.lean ====
section
/-!
DEFINITION. The special-function unit (R133 to R144): the core argument and segment of every function, the polynomial of R137 over
the coefficient ROM, the reconstruction, the values outside the core, the seam correction and the conversion. The contents of the
ROM are not in the manual (R484): they are constants of `Config` with no body, held to what R136, R139, R142 and R143 say of every result
(log entry 6).
-/
namespace Sys2Proof.Machine

open Sys2Proof

/-- log2(e) held to 48 bits. -/
def sfuLog2e : FVal := .fin false 0xB8AA3B295C18 (-47)
/-- ln 2 held to 48 bits. -/
def sfuLn2 : FVal := .fin false 0xB17217F7D1CF (-48)
/-- 2/π held to 192 bits: the significand. -/
def sfuTwoOverPi : Nat := 0xA2F9836E4E441529FC2757D1F534DDC0DB6295993C439042
/-- π/2 to 192 bits, for the offset within a segment of an angle. -/
def sfuHalfPi : FVal := .fin false 0xC90FDAA22168C234C4C6628B80DC1CD129024E088A67CC74 (-191)

/-- Where a segment begins: at the smallest input not below a value, at the smallest above it, at the smallest whose product with log2(e)
reaches a value (Table 4). -/
inductive Edge where
  | from_ (v : FVal)
  | past (v : FVal)
  | expFrom (v : FVal)
  deriving DecidableEq, Repr, Inhabited

/-- One result before the seam correction: its exact value after the reconstruction; where a segment of the function's own core gave it, the
edge of that segment; whether the ROM was read, and whether the seam correction of the exp core has changed it. -/
structure SfuRaw where
  v : FVal
  edge : Option Edge
  rom : Bool
  clamp : Bool
  deriving DecidableEq, Repr, Inhabited

/-- A result from outside the core. -/
def SfuRaw.plain (v : FVal) : SfuRaw := { v := v, edge := none, rom := false, clamp := false }

/-- A result of a segment. -/
def SfuRaw.of (v : FVal) (e : Option Edge) : SfuRaw := { v := v, edge := e, rom := true, clamp := false }

/-- The polynomial of R137 in segment `idx` at the exact offset `d`, with two roundings. -/
def sfuCore (fn mode idx : Nat) (d : FVal) : FVal :=
  let c := Config.sfuCoeff fn mode idx
  let step := fun (y c : Word) => toF32 (FVal.add (FVal.mul (f32 y) d) (f32 c))
  f32 (step (step c.1 c.2.1) c.2.2)

/-- The largest integer not above a finite value. -/
def FVal.floor : FVal → Int
  | .fin neg m e => if 0 ≤ e then scaledMant neg m e 0 else (if neg then -(m : Int) else m) / (2 ^ (-e).toNat : Nat)
  | _ => 0

/-- The top `k` mantissa bits of a magnitude m × 2^e. -/
def topBits (m k : Nat) : Nat := m * 2 ^ k / 2 ^ m.log2 - 2 ^ k

/-- exp2 of an exact argument, in a segment whose edge `e` names (codes 0 and 1). exp2(0) is exactly 1 (R147). -/
def sfuExp2 (fn mode : Nat) (e : FVal → Edge) (x : FVal) : SfuRaw :=
  match x with
  | .nan => .plain .nan
  | .inf neg => .plain (if neg then .fin false 0 0 else .inf false)
  | .fin _ m _ =>
    if m = 0 then .plain (.fin false 1 0)
    else if !FVal.lt x (.ofInt 128) then .plain (.fin false 1 128)
    else
      let n := x.floor
      let u := FVal.add x (.ofInt (-n))
      let idx := (FVal.scale 6 u).floor.toNat
      .of (FVal.scale n (sfuCore fn mode idx (FVal.add u (.ofScaled (-idx) (-6))))) (some (e (.ofScaled (64 * n + idx) (-6))))

/-- exp of an exact argument (code 1). -/
def sfuExpRaw (mode : Nat) (x : FVal) : SfuRaw := sfuExp2 1 mode .expFrom (FVal.mul x sfuLog2e)

/-- log2 of a positive magnitude m × 2^e, with e added exactly (codes 2 and 3). -/
def sfuLog2 (fn mode m : Nat) (e : Int) : SfuRaw :=
  let ex : Int := m.log2 + e
  let idx := topBits m 6
  let d := FVal.add (.fin false m (-(m.log2 : Int))) (.ofScaled (-(64 + idx)) (-6))
  .of (FVal.add (sfuCore fn mode idx d) (.ofInt ex)) (some (.from_ (.ofScaled (64 + idx) (ex - 6))))

/-- The root functions of a positive magnitude: segment by exponent parity and the top 5 mantissa bits; `half` maps the even exponent to
the scale of the result (codes 5 and 6). -/
def sfuRoot (fn mode m : Nat) (e : Int) (half : Int → Int) : SfuRaw :=
  let ex : Int := m.log2 + e
  let par := (ex % 2).toNat
  let j := topBits m 5
  let u := FVal.scale par (.fin false m (-(m.log2 : Int)))
  let d := FVal.add u (.ofScaled (-(32 + j)) ((par : Int) - 5))
  .of (FVal.scale (half ((ex - par) / 2)) (sfuCore fn mode (32 * par + j) d)) (some (.from_ (.ofScaled (32 + j) (ex - 5))))

/-- The functions of a magnitude in [2^−12, 2^top): segment by exponent and the top 4 mantissa bits, `side` where each sign has segments
of its own; below 2^−12 one segment that starts at 0. A segment of negative inputs begins past the magnitude that ends it. -/
def sfuBinades (fn mode top m : Nat) (e : Int) (neg sides : Bool) : SfuRaw :=
  let ex : Int := m.log2 + e
  let per := (12 + top) * 16
  let base := if sides && neg then per else 0
  let all := if sides then 2 * per else per
  if m = 0 || ex < -12 then
    .of (sfuCore fn mode (all + if sides && neg then 1 else 0) (.fin false m e))
      (some (if neg then .past (.fin true 1 (-12)) else .from_ (.fin false 0 0)))
  else
    let j := topBits m 4
    .of (sfuCore fn mode (base + (ex + 12).toNat * 16 + j) (FVal.add (.fin false m e) (.ofScaled (-(16 + j)) (ex - 4))))
      (some (if neg then .past (.ofScaled (-(17 + j)) (ex - 4)) else .from_ (.ofScaled (16 + j) (ex - 4))))

/-- Sine or cosine of an exact angle (R144): reduced by π/2 with 2/π of 192 bits; a canonical NaN beyond 2^24. -/
def sfuAngle (fn mode : Nat) (x : FVal) : SfuRaw :=
  match x with
  | .fin neg m e =>
    if FVal.lt (.fin false 1 24) (.fin false m e) then .plain .nan
    else
      let k := (192 - e).toNat
      let t := m * sfuTwoOverPi
      let q := t / 2 ^ k
      let f := t % 2 ^ k
      let idx := 64 * f / 2 ^ k
      let d := FVal.mul (.fin false (64 * f - idx * 2 ^ k) (-(k : Int) - 6)) sfuHalfPi
      let useSin := (fn = 14) = (q % 2 = 0)
      let y := sfuCore (if useSin then 14 else 15) mode idx d
      let flip := if fn = 14 then neg != decide (q % 4 ≥ 2) else decide (q % 4 = 1) || decide (q % 4 = 2)
      .of (if flip then y.neg else y) none
  | _ => .plain .nan

/-- The place of an FP32 word among all, from −∞ to +∞. -/
def wordOrd (w : Word) : Int := if w.toNat < 2 ^ 31 then w.toNat else 2 ^ 31 - 1 - w.toNat

/-- The FP32 word at a place. -/
def ordWord (i : Int) : Word := if 0 ≤ i then BitVec.ofInt 32 i else BitVec.ofInt 32 (2 ^ 31 - 1 - i)

/-- The first place between two for which a test holds, by halving; the test holds of every place after one for which it does. -/
def firstPlace (p : Int → Bool) : Nat → Int → Int → Int
  | 0, _, hi => hi
  | n + 1, lo, hi =>
    if hi ≤ lo then hi
    else
      let mid := (lo + hi) / 2
      if p mid then firstPlace p n lo mid else firstPlace p n (mid + 1) hi

/-- An input lies at or beyond the edge of a segment. -/
def Edge.reached : Edge → FVal → Bool
  | .from_ v, x => !FVal.lt x v
  | .past v, x => FVal.lt v x
  | .expFrom v, x => !FVal.lt (FVal.mul x sfuLog2e) v

/-- The largest FP32 input below the seam input of a segment (R140). -/
def belowSeam (e : Edge) : Word :=
  ordWord (firstPlace (fun i => e.reached (f32 (ordWord i))) 40 (-0x7F800001) 0x7F800000 - 1)

/-- The direction in which a function is monotone at an input (Table 5): increasing, decreasing, or neither. -/
def sfuDirection (fn : Nat) (x : FVal) : Option Bool :=
  match fn with
  | 0 | 1 | 2 | 3 | 6 | 7 | 8 | 12 | 13 => some true
  | 4 | 5 => some false
  | 9 | 10 => if FVal.lt x (.fin true 3 (-2)) then none else some true
  | 11 => if FVal.lt (FVal.mul x (.ofInt 100)) (.ofInt (-127)) then none else some true
  | _ => none

/-- A result after the seam correction of native mode (R140): `below` gives the segment below its FP32 result. At a pole and at
the end of a domain there is none. -/
def sfuClamp (fn mode : Nat) (x : FVal) (below : Word → FVal) (r : SfuRaw) : SfuRaw :=
  match r.edge, sfuDirection fn x with
  | some e, some up =>
    let b := f32 (toF32s (below (belowSeam e)))
    if mode = 0 && b.finite && (if up then FVal.lt r.v b else FVal.lt b r.v)
    then { r with v := b, clamp := true }
    else r
  | _, _ => r

/-- exp by the exp core, its seam correction made: what the functions of Table 2 take outside their own core. -/
def sfuExpCore (mode : Nat) (x : FVal) : SfuRaw :=
  { sfuClamp 1 mode x (fun w => (sfuExpRaw mode (f32 w)).v) (sfuExpRaw mode x) with edge := none }

/-- A function of Table 2 at a value that is not a NaN, before its seam correction. SiLU of −∞ is −∞ times exp(−∞), for which Table 2 names
no value: the product of an infinity and zero, a canonical NaN, counted as one (DESIGN CHOICE, log entry 84). -/
def sfuRaw (fn mode : Nat) (x : FVal) : SfuRaw :=
  match x with
  | .nan => .plain .nan
  | .inf neg =>
    match fn with
    | 0 | 1 => .plain (if neg then .fin false 0 0 else .inf false)
    | 2 | 3 | 6 => .plain (if neg then .nan else .inf false)
    | 4 => .plain (.fin neg 0 0)
    | 5 => .plain (if neg then .nan else .fin false 0 0)
    | 7 => .plain (if neg then .fin false 0 0 else .fin false 1 0)
    | 8 | 13 => .plain (.fin neg 1 0)
    | 9 | 10 => .plain (if neg then .fin true 0 0 else .inf false)
    | 11 => .plain (if neg then .nan else .inf false)
    | 12 => .plain (if neg then .fin false 0 0 else .inf false)
    | _ => .plain .nan
  | .fin neg m e =>
    let big := fun (t : Nat) => !FVal.lt (.fin false m e) (.fin false 1 t)
    let signed := fun (r : SfuRaw) => { r with v := if neg then r.v.neg else r.v }
    match fn with
    | 0 => sfuExp2 fn mode .from_ x
    | 1 => sfuExpRaw mode x
    | 2 | 3 =>
      if m = 0 then .plain (.inf true)
      else if neg then .plain .nan
      else
        let r := sfuLog2 fn mode m e
        if fn = 2 then r else { r with v := FVal.mul r.v sfuLn2 }
    | 4 =>
      if m = 0 then .plain (.inf neg)
      else
        let ex : Int := m.log2 + e
        let idx := topBits m 6
        let d := FVal.add (.fin false m (-(m.log2 : Int))) (.ofScaled (-(64 + idx)) (-6))
        signed (.of (FVal.scale (-ex) (sfuCore fn mode idx d))
          (some (if neg then .past (.ofScaled (-(65 + idx)) (ex - 6)) else .from_ (.ofScaled (64 + idx) (ex - 6)))))
    | 5 =>
      if m = 0 then .plain (.inf neg) else if neg then .plain .nan else sfuRoot fn mode m e (fun h => -h)
    | 6 =>
      if m = 0 then .plain x else if neg then .plain .nan else sfuRoot fn mode m e id
    | 7 =>
      if big 5 then (if neg then sfuExpCore mode x else .plain (.fin false 1 0))
      else sfuBinades fn mode 5 m e neg true
    | 8 =>
      if big 4 then .plain (.fin neg 1 0) else signed (sfuBinades fn mode 4 m e neg false)
    | 9 | 10 =>
      if big 3 then
        if !neg then .plain x
        else if FVal.eq x (.ofInt (-8)) then .of (sfuCore fn mode 482 (.fin false 0 0)) none else .plain (.fin true 0 0)
      else sfuBinades fn mode 3 m e neg true
    | 11 =>
      if big 5 then
        if !neg then .plain x
        else if FVal.eq x (.ofInt (-32)) then .of (sfuCore fn mode 546 (.fin false 0 0)) none
        else let r := sfuExpCore mode x; { r with v := FVal.mul x r.v }
      else sfuBinades fn mode 5 m e neg true
    | 12 =>
      if big 5 then
        if !neg then .plain x
        else if FVal.eq x (.ofInt (-32)) then .of (sfuCore fn mode 546 (.fin false 0 0)) none
        else sfuExpCore mode x
      else sfuBinades fn mode 5 m e neg true
    | 13 =>
      if big 2 then .plain (.fin neg 1 0) else signed (sfuBinades fn mode 2 m e neg false)
    | _ => sfuAngle fn mode x

/-- The results that Table 6 gives in BF16: seam input, code below and at the seam in Saffron mode, code at the seam in native mode. -/
def sfuTable6 : List (Nat × Nat × Nat × Nat × Nat) :=
  [(8, 0x3F000000, 0x3EED, 0x3EEC, 0x3EED), (8, 0x3F400000, 0x3F23, 0x3F22, 0x3F23), (8, 0x3F800000, 0x3F43, 0x3F42, 0x3F43),
   (8, 0x3FC00000, 0x3F68, 0x3F67, 0x3F68), (8, 0x40000000, 0x3F77, 0x3F76, 0x3F77), (7, 0xC0000000, 0x3DF5, 0x3DF4, 0x3DF4),
   (7, 0xBF800000, 0x3E8A, 0x3E89, 0x3E8A), (7, 0x3F800000, 0x3F3C, 0x3F3B, 0x3F3B), (7, 0x40000000, 0x3F62, 0x3F61, 0x3F61)]

/-- The code that Table 6 fixes for an input, if it does. -/
def sfuFixed (fn mode out : Nat) (x : Word) : Option Nat :=
  if out ≠ 2 then none
  else sfuTable6.findSome? (fun e =>
    if e.1 ≠ fn then none
    else if x.toNat = e.2.1 then some (if mode = 0 then e.2.2.2.2 else e.2.2.2.1)
    else if mode = 1 && x.toNat = (if e.2.1 < 0x80000000 then e.2.1 - 1 else e.2.1 + 1) then some e.2.2.1
    else none)

/-- One result of the SFU: its code in the output format, whether a NaN came of an input that is not one, whether the seam correction
changed it. -/
structure SfuOut where
  code : Nat
  nan : Bool
  clamp : Bool
  deriving DecidableEq, Repr, Inhabited

/-- A result converted (R133). Where the ROM gave it, it meets the bound of R136 or R142 for the exact result `e`: a ROM whose evaluation
does not is none that the manual allows, and the exact result rounded once stands in its place (log entry 6). -/
def SfuRaw.result (r : SfuRaw) (fn mode out : Nat) (e : Int) (isNan : Bool) : SfuOut :=
  let c := codeOfValue out .rne r.v
  { code := if r.rom && !sfuMeets fn mode out e c then sfuNearest out e else c, nan := r.v == .nan && !isNan, clamp := r.clamp }

/-- A function evaluated by R137 and R140 with the contents of the ROM. -/
def sfuByRom (fn mode out : Nat) (x : Word) : SfuOut :=
  let r := sfuClamp fn mode (f32 x) (fun w => (sfuRaw fn mode (f32 w)).v) (sfuRaw fn mode (f32 x))
  match sfuFixed fn mode out x with
  | some c => { code := c, nan := false, clamp := r.clamp }
  | none => r.result fn mode out (sfuExact fn (f32 x)) (f32 x == .nan)

/-- A function with every result of the ROM replaced by the exact one, rounded once. -/
def sfuByNearest (fn mode out : Nat) (x : Word) : SfuOut :=
  let r := sfuRaw fn mode (f32 x)
  match sfuFixed fn mode out x with
  | some c => { code := c, nan := false, clamp := false }
  | none =>
    { code := if r.rom then sfuNearest out (sfuExact fn (f32 x)) else codeOfValue out .rne r.v, nan := r.v == .nan && f32 x != .nan,
      clamp := false }

/-- Two neighbouring FP32 inputs, by their place, at which a function in an output format goes the right way: by R139 in native mode; by
R143 in Saffron mode and BF16, where sigmoid and tanh go back at the seams of Table 6 alone. -/
def sfuInOrder (fn mode out : Nat) (i : Int) : Bool :=
  let a := ordWord i
  let b := ordWord (i + 1)
  let val := fun (w : Word) => valueOfCode out (sfuByRom fn mode out w).code
  if mode = 0 then
    match sfuDirection fn (f32 a) with
    | some up => ((fn = 4 || fn = 5) && i = -1) || (if up then !FVal.lt (val b) (val a) else !FVal.lt (val a) (val b))
    | none => true
  else if out = 2 && (fn = 7 || fn = 8) then
    FVal.lt (val b) (val a) == sfuTable6.any (fun e => e.1 == fn && e.2.1 == b.toNat)
  else true

/-- The ROM is one that R139 and R143 allow: every pair of neighbouring inputs of every function is in order. -/
def sfuRomOk : Bool :=
  (List.range 16).all (fun fn => [0, 1].all (fun mode => [1, 2, 3].all (fun out =>
    (List.range (2 * 0x7F800000 + 1)).all (fun n => sfuInOrder fn mode out ((n : Int) - 0x7F800001)))))

/-- A function at an FP32 input, in output format 1, 2 or 3 (R133, R135): by the ROM, where the ROM is one that the manual allows; the exact
result rounded once for a result of the ROM otherwise (log entry 6). -/
def sfu (fn mode out : Nat) (x : Word) : SfuOut :=
  if (sfuRaw fn mode (f32 x)).rom && !sfuRomOk then sfuByNearest fn mode out x else sfuByRom fn mode out x

/-- Sine or cosine in the ROTARY form (R144): the low 24 bits of a position times a frequency, exactly. -/
def sfuRotary (fn mode out : Nat) (p theta : Word) : SfuOut :=
  let x := FVal.mul (.ofInt (p.toNat % 2 ^ 24)) (f32 theta)
  (sfuAngle fn mode x).result fn mode out (sfuExact fn x) (f32 theta == .nan)

/-- exp in FP32 (code 1). -/
def sfuExp (mode : Nat) (x : Word) : Word := BitVec.ofNat 32 (sfu 1 mode 1 x).code
/-- reciprocal in FP32 (code 4). -/
def sfuRecip (mode : Nat) (x : Word) : Word := BitVec.ofNat 32 (sfu 4 mode 1 x).code
/-- rsqrt in FP32 (code 5). -/
def sfuRsqrt (mode : Nat) (x : Word) : Word := BitVec.ofNat 32 (sfu 5 mode 1 x).code

/-- What a number of FP32 evaluations, each a function and its input, adds to the counters: results that the seam correction changed, and
NaNs (R140, R154). -/
def sfuTally (mode : Nat) (es : List (Nat × Word)) : Nat × Nat :=
  let rs := es.map (fun e => sfu e.1 mode 1 e.2)
  ((rs.filter (·.clamp)).length, (rs.filter (·.nan)).length)

end Sys2Proof.Machine
end

