-- ==== Sys2Proof/Machine/Lanes.lean ====
section
/-!
DEFINITION. The lane engine of a tile (R77 to R81): crew instructions, the gather buffer (R105, R106), lane tables (R90), the SFU's two
paths (R134), random draws (R93), and the launch and end of kernels, with the bodies that the chapters define: sampling (R94, R95),
the soft maximum and attention (R145, R146, R170 to R175), normalisation (R151, R152), rotary arithmetic (R174) and the scan of a
chunk (R198).
-/
namespace Sys2Proof.Machine

open Sys2Proof

/-! ## Crews -/

/-- A crew with nothing in its registers. -/
def Crew.blank : Crew := { kernel := 0, regs := [], active := 0xFFFFFFFFFFFFFFFF#64, paths := [], loops := [] }

/-- Crew `c` of a tile. -/
def Tile.crew (v : Tile) (c : Nat) : Crew := NMap.get Crew.blank v.crews c

/-- A crew of a resident kernel (R81). -/
def Tile.resident (v : Tile) (c : Nat) : Bool := v.kernels.any (fun k => k.2.crews.contains c)

/-- Register `r` of lane `l`. -/
def Crew.get (c : Crew) (l r : Nat) : Word := NMap.get 0#32 c.regs (32 * l + r)

/-- Register `r` of lane `l` set. -/
def Crew.set (c : Crew) (l r : Nat) (w : Word) : Crew := { c with regs := NMap.put 0#32 c.regs (32 * l + r) w }

/-- Lane `l` is active. -/
def Crew.on (c : Crew) (l : Nat) : Bool := c.active.getLsbD l

/-- Register `d` of every active lane set by a function of the lane (R77). -/
def Crew.eachLane (c : Crew) (d : Nat) (f : Nat → Word) : Crew :=
  (List.range 64).foldl (fun k l => if c.on l then k.set l d (f l) else k) c

/-- The 64 values of a register that a reduction adds: inactive lanes contribute nothing (DESIGN CHOICE, log entry 18). -/
def Crew.column (c : Crew) (a : Nat) : List Word := (List.range 64).map (fun l => if c.on l then c.get l a else 0)

/-- One level of R52: adjacent values added. -/
def pairSums : List Word → List Word
  | a :: b :: ws => lAdd a b :: pairSums ws
  | ws => ws

/-- The six levels of R52 over 64 values. -/
def treeSum (ws : List Word) : Word := (pairSums (pairSums (pairSums (pairSums (pairSums (pairSums ws)))))).headD 0

/-- One half of a word, as a number. -/
def half (w : Word) (h : Nat) : Nat := w.toNat / 2 ^ (16 * h) % 65536

/-- A word from its halves. -/
def ofHalves (lo hi : Nat) : Word := BitVec.ofNat 32 (lo % 65536 + hi % 65536 * 65536)

/-- An FP32 result of the lanes (R78). -/
def laneF32 (op : AOp) (a b c : Word) : Word := match op with | .add => lAdd a b | .mul => lMul a b | .fma => lFma a b c

/-- An INT32 result of the lanes (R78). -/
def laneI32 (op : AOp) (sat : Bool) (a b c : Word) : Word :=
  BitVec.ofNat 32 (laneInt 32 sat (intOp op a.toInt b.toInt c.toInt))

/-- One half of a packed result (R78). -/
def laneHalf (fmt : PkFmt) (op : AOp) (sat : Bool) (a b c : Nat) : Nat :=
  match fmt with
  | .bf16 => codeOfValue 2 .rne (fvalOp op (valueOfCode 2 a) (valueOfCode 2 b) (valueOfCode 2 c))
  | .fp16 => codeOfValue 3 .rne (fvalOp op (valueOfCode 3 a) (valueOfCode 3 b) (valueOfCode 3 c))
  | .int16 => laneInt 16 sat (intOp op (signedOf 16 a) (signedOf 16 b) (signedOf 16 c))

/-- The number of the lowest active lane; 0 with none. -/
def Crew.lowest (c : Crew) : Nat := ((List.range 64).find? (fun l => c.on l)).getD 0

/-- The mask of the active lanes for which a test holds. -/
def Crew.where_ (c : Crew) (f : Nat → Bool) : Dword :=
  BitVec.ofNat 64 (((List.range 64).map (fun l => if c.on l && f l then 2 ^ l else 0)).sum)

/-- One crew instruction (R45, R52, R78, R79). A shuffle takes its source lane modulo 64 and reads inactive lanes too, and a loop whose count
is 0 runs once (DESIGN CHOICE, log entry 85). -/
def Crew.run (k : Crew) : LaneOp → Crew
  | .f32 op d a b c => k.eachLane d (fun l => laneF32 op (k.get l a) (k.get l b) (k.get l c))
  | .i32 op sat d a b c => k.eachLane d (fun l => laneI32 op sat (k.get l a) (k.get l b) (k.get l c))
  | .packed fmt op sat d a b c => k.eachLane d (fun l =>
      let h := fun i => laneHalf fmt op sat (half (k.get l a) i) (half (k.get l b) i) (half (k.get l c) i)
      ofHalves (h 0) (h 1))
  | .logic op d a b => k.eachLane d (fun l =>
      match op with
      | .and => k.get l a &&& k.get l b
      | .or => k.get l a ||| k.get l b
      | .xor => k.get l a ^^^ k.get l b
      | .not => ~~~ (k.get l a))
  | .shift left arith hf d a b => k.eachLane d (fun l =>
      if hf then
        let h := fun i => shiftBits 16 left arith (half (k.get l a) i) (half (k.get l b) i)
        ofHalves (h 0) (h 1)
      else BitVec.ofNat 32 (shiftBits 32 left arith (k.get l a).toNat (k.get l b).toNat))
  | .cmp ty rel d a b => k.eachLane d (fun l => cmpResult (laneCmp ty rel (k.get l a) (k.get l b)))
  | .select d c a b => k.eachLane d (fun l => if k.get l c = 0#32 then k.get l b else k.get l a)
  | .convert src dst mode d a => k.eachLane d (fun l =>
      BitVec.ofNat 32 (codeOfValue dst mode (valueOfCode src (k.get l a).toNat)))
  | .shuffle d a idx => k.eachLane d (fun l => k.get ((k.get l idx).toNat % 64) a)
  | .reduceLevel level d a =>
    let ws := pairSums ((k.column a).take (64 / 2 ^ level))
    k.eachLane d (fun l => if l < 32 / 2 ^ level then ws.getD l 0 else k.get l d)
  | .reduce d a => k.eachLane d (fun l => if l = 0 then treeSum (k.column a) else k.get l d)
  | .branch c =>
    let t := k.where_ (fun l => k.get l c != 0#32)
    { k with active := t, paths := (k.active, k.active &&& ~~~t) :: k.paths }
  | .otherPath => match k.paths with
    | (_, o) :: _ => { k with active := o }
    | [] => k
  | .reconverge => match k.paths with
    | (m, _) :: ps => { k with active := m, paths := ps }
    | [] => k
  | .loop c => { k with loops := min 65535 (k.get k.lowest c).toNat :: k.loops }
  | .loopEnd => match k.loops with
    | n :: ls => if n ≤ 1 then { k with loops := ls } else { k with loops := (n - 1) :: ls }
    | [] => k

/-- The registers and formats that a lane instruction may name (R78, R81). -/
def laneOpOk : LaneOp → Bool
  | .f32 _ d a b c | .i32 _ _ d a b c | .packed _ _ _ d a b c | .select d c a b =>
    decide (d < 32) && decide (a < 32) && decide (b < 32) && decide (c < 32)
  | .logic _ d a b | .shift _ _ _ d a b | .cmp _ _ d a b | .shuffle d a b => decide (d < 32) && decide (a < 32) && decide (b < 32)
  | .convert src dst _ d a =>
    decide (d < 32) && decide (a < 32) && ((1 ≤ src && src ≤ 13) || src == 24) && ((1 ≤ dst && dst ≤ 13) || dst == 24)
  | .reduceLevel level d a => decide (level < 6) && decide (d < 32) && decide (a < 32)
  | .reduce d a => decide (d < 32) && decide (a < 32)
  | .branch c | .loop c => decide (c < 32)
  | _ => true

/-- A crew instruction may issue: the crew is resident and its registers exist. -/
def State.crewReady (s : State) (t crew : Nat) : Bool := s.tileWorks t && decide (crew < 32) && (s.tile t).resident crew

/-- A crew replaced. -/
def State.putCrew (s : State) (t crew : Nat) (k : Crew) : State :=
  s.modTile t (fun v => { v with crews := NMap.insert v.crews crew k })

/-- LANE_INSTRUCTION: one crew instruction of arithmetic, conversion, shuffle, reduction or flow (R77). Paths nest to 16 (R79). -/
def execLaneInstruction (t crew : Nat) (op : LaneOp) (s : State) : Res :=
  let k := (s.tile t).crew crew
  require (s.crewReady t crew && laneOpOk op && (decide (k.paths.length < 16) || !execLaneInstruction.opensPath op)) "no such lane instruction"
    (.next (s.putCrew t crew (k.run op)))
where
  /-- An instruction that opens a path. -/
  opensPath : LaneOp → Bool
    | .branch _ => true
    | _ => false

/-! ## The gather buffer -/

/-- Bits 19:0 of an address aligned down to a width (R105). -/
def gatherAddr (w : Word) (width : Nat) : Nat := w.toNat % 2 ^ 20 / width * width

/-- Widths of a lane access (R105). -/
def gatherWidth (w : Nat) : Bool := w == 4 || w == 8 || w == 16 || w == 32 || w == 64

/-- The distinct rows of an instruction in increasing order (R105). -/
def gatherRows (k : Crew) (width addr : Nat) : List Nat :=
  (((List.range 64).filter k.on).map (fun l => gatherAddr (k.get l addr) width / 512)).mergeSort.eraseDups

/-- GATHER_READ: every active lane gets its bytes, in registers from `d` (R105). -/
def execGatherRead (t crew width addr d : Nat) (env : List Strike) (s : State) : Res :=
  let p := s.owner t
  require (s.crewReady t crew && gatherWidth width && decide (addr < 32) && decide (d + width / 4 ≤ 32)) "no such lane read"
    (let s1 := (s.strike env).pathErrors p env
     let k := (s1.tile t).crew crew
     let f := s1.readRuns p t ((gatherRows k width addr).map (fun r => (r, 1)))
     if s1.stepFailed p then .next s1
     else if f.2 then .next (f.1.failStep p .uncorrectable false)
     else
       let k2 := (List.range 64).foldl (fun c l =>
         if k.on l then
           let ws := wordsOfBytes (width / 4) (s1.scratchBytes t (gatherAddr (k.get l addr) width) width)
           (List.range (width / 4)).foldl (fun c i => c.set l (d + i) (ws.getD i 0)) c
         else c) k
       .next (f.1.putCrew t crew k2))

/-- Bytes merged into the rows of a tile: each row is read, merged and written (R106). Answers whether a row was uncorrectable. -/
def State.mergeRows (s : State) (p t : Nat) (rows : List Nat) (writes : List (Nat × Bytes)) : State × Bool :=
  let f := s.readRuns p t (rows.map (fun r => (r, 1)))
  if f.2 then (f.1.failStep p .uncorrectable false, true)
  else
    let m := writes.foldl (fun m w => Mem.writeN 0#8 m (scratchKey t w.1) w.2) f.1.mem.scratch
    (((f.1.setScratch m).modTile t (fun v =>
      { v with bad := rows.foldl (fun b r => NMap.eraseRange b (64 * r) (64 * r + 64)) v.bad })), false)

/-- GATHER_WRITE: each distinct row is read, merged and written; the higher-numbered lane wins (R106). -/
def execGatherWrite (t crew width addr a : Nat) (s : State) : Res :=
  let k := (s.tile t).crew crew
  require (s.crewReady t crew && gatherWidth width && decide (addr < 32) && decide (a + width / 4 ≤ 32)) "no such lane write"
    (.next (s.mergeRows (s.owner t) t (gatherRows k width addr) (((List.range 64).filter k.on).map (fun l =>
      (gatherAddr (k.get l addr) width, bytesOfWords ((List.range (width / 4)).map (fun i => k.get l (a + i))))))).1)

/-- LANE_TABLE_LOOKUP: the active bank of a lane table, the index masked to the slot (R80, R86, R90). -/
def execLaneTableLookup (t crew width slot idx d : Nat) (s : State) : Res :=
  let v := s.tile t
  let k := v.crew crew
  let tb := ((s.part (s.owner t)).map (fun pt => pt.activeBank 0)).getD 0
  require (s.crewReady t crew && (width == 8 || width == 16 || width == 32) && decide (slot < 8) && decide (idx < 32) && decide (d < 32))
    "no such lookup"
    (.next (s.putCrew t crew (k.eachLane d (fun l =>
      let i := (k.get l idx).toNat % (16384 / width)
      BitVec.ofNat 32 (ofLe (v.tableBytes tb 0 slot (width / 8 * i) (width / 8)))))))

/-! ## The SFU (R134, R153, R154) -/

/-- The SFU mode of a partition (R141). -/
def State.sfuMode (s : State) (p : Nat) : Nat := (s.reg .sfu p 0).field 0 0

/-- Results counted in the step that runs (R154). -/
def State.countSfu (s : State) (p clamps nans : Nat) : State :=
  s.modPart p (fun pt => { pt with step := pt.step.map (fun v =>
    { v with sfuClamp := v.sfuClamp + clamps, sfuNan := v.sfuNan + nans }) })

/-- A coefficient ROM read that fails parity (R153): no result, the step fails. -/
def State.romFail (s : State) (p : Nat) : State :=
  (s.modPart p (fun pt => { pt with step := pt.step.map (fun v => { v with sfuRom := v.sfuRom + 1 }) })).failStep p
    .uncorrectable false

/-- The environment reports a ROM parity failure in a tile. -/
def romStruck (t : Nat) (env : List Strike) : Bool := env.any (fun e => match e with | .romParity u => u == t | _ => false)

/-- An SFU operand of a lane as FP32 (R133): a whole register, or one half of a packed BF16 or FP16 pair, widened exactly. -/
def sfuInput (inFmt : Nat) (upper : Bool) (w : Word) : Word :=
  if inFmt = 1 then w else toF32 (valueOfCode inFmt (half w (if upper then 1 else 0)))

/-- An SFU result in a lane's register: a whole register, or the half of a packed pair, whose other half is kept (log entry 18). -/
def sfuOutput (out : Nat) (upper : Bool) (old : Word) (code : Nat) : Word :=
  if out = 1 then BitVec.ofNat 32 code else if upper then ofHalves (half old 0) code else ofHalves code (half old 1)

/-- SFU_LANE: a function of Table 2 on 64 inputs (R133 to R144). The ROTARY form takes a position and an FP32 frequency. -/
def execSfuLane (t crew fn inFmt out : Nat) (upper rotary : Bool) (d a b : Nat) (env : List Strike) (s : State) : Res :=
  let p := s.owner t
  require (s.crewReady t crew && decide (fn < 16) && decide (1 ≤ inFmt) && decide (inFmt ≤ 3) && decide (1 ≤ out) && decide (out ≤ 3) &&
      decide (d < 32) && decide (a < 32) && decide (b < 32) && (!rotary || fn == 14 || fn == 15)) "no such SFU instruction"
    (let s1 := (s.strike env).pathErrors p env
     if s1.stepFailed p then .next s1
     else if romStruck t env then .next (s1.romFail p)
     else
       let k := (s1.tile t).crew crew
       let rs := (List.range 64).map (fun l =>
         if rotary then sfuRotary fn (s1.sfuMode p) out (k.get l a) (k.get l b) else sfu fn (s1.sfuMode p) out (sfuInput inFmt upper (k.get l a)))
       let on := (List.range 64).filter k.on
       let count := fun (f : SfuOut → Bool) => (on.filter (fun l => f (rs.getD l default))).length
       .next ((s1.putCrew t crew (k.eachLane d (fun l => sfuOutput out upper (k.get l d) (rs.getD l default).code))).countSfu p
         (count (·.clamp)) (count (·.nan))))

/-- One function on every element of a row (R133, R134). -/
def State.doSfuRow (s : State) (t fn inFmt outFmt src dst : Nat) (env : List Strike) : State :=
  let p := s.owner t
  let w := elemBits inFmt / 8
  let s1 := (s.strike env).pathErrors p env
  if s1.stepFailed p then s1
  else if romStruck t env then s1.romFail p
  else
    let f := s1.engineRows p t src 1
    match f.2 with
    | none => f.1
    | some bs =>
      let rs := (List.range (512 / w)).map (fun i =>
        sfu fn (s1.sfuMode p) outFmt (toF32 (valueOfCode inFmt (ofLe (slice bs (w * i) w)))))
      (f.1.writeRow t dst (rs.flatMap (fun r => leBytes w r.code))).countSfu p
        (rs.filter (·.clamp)).length (rs.filter (·.nan)).length

/-- SFU_ROW_OPERATION: one function on every element of a row (R133, R134). -/
def execSfuRowOperation (t fn inFmt outFmt src dst : Nat) (env : List Strike) (s : State) : Res :=
  require (s.tileWorks t && decide (fn < 16) && decide (1 ≤ inFmt) && decide (inFmt ≤ 3) && decide (1 ≤ outFmt) && decide (outFmt ≤ 3) &&
      elemBits inFmt == elemBits outFmt && decide (src < 2048) && decide (dst < 2048)) "no such row operation"
    (s.issue (s.owner t) (bayOf t) (.sfuRowOperation t fn inFmt outFmt src dst env) false (s.doSfuRow t fn inFmt outFmt src dst env))

/-- RANDOM_DRAW: the four output words of the generator, in registers from `d` of every active lane (R93; log entry 18). -/
def execRandomDraw (t crew : Nat) (seed : Dword) (pos draw beam d : Nat) (s : State) : Res :=
  let k := (s.tile t).crew crew
  let w := philox 10 (BitVec.ofNat 32 pos) (BitVec.ofNat 32 draw) (BitVec.ofNat 32 beam) 0#32 (BitVec.ofNat 32 seed.toNat)
    (BitVec.ofNat 32 (seed.toNat / 2 ^ 32))
  require (s.crewReady t crew && decide (d + 4 ≤ 32)) "no such draw"
    (.next (s.putCrew t crew ((((k.eachLane d (fun _ => w.1)).eachLane (d + 1) (fun _ => w.2.1)).eachLane (d + 2)
      (fun _ => w.2.2.1)).eachLane (d + 3) (fun _ => w.2.2.2))))

end Sys2Proof.Machine
end

