-- ==== Sys2Proof/Machine/Kernels.lean ====
section
/-!
DEFINITION. Lane kernels (R81) and the bodies that the chapters define: sampling (R94, R95), the fused soft maximum and attention
(R145, R146, R170 to R175), normalisation (R151, R152), rotary arithmetic (R174), the scan of a chunk (R198).
-/
namespace Sys2Proof.Machine

open Sys2Proof

/-! ## Operands in the scratchpad -/

/-- `n` bytes that a kernel reads from a byte address; none, and the step fails, where a word is uncorrectable. -/
def State.gatherBytes (s : State) (p t addr n : Nat) : State × Option Bytes :=
  let f := s.readRuns p t [(addr / 512, (addr + n + 511) / 512 - addr / 512)]
  if f.2 then (f.1.failStep p .uncorrectable false, none) else (f.1, some (s.scratchBytes t addr n))

/-- Bytes that a kernel writes from a byte address. -/
def State.gatherStore (s : State) (p t addr : Nat) (bs : Bytes) : State :=
  (s.mergeRows p t ((List.range ((addr + bs.length + 511) / 512 - addr / 512)).map (· + addr / 512)) [(addr, bs)]).1

/-- Elements of a floating-point format, widened to FP32. -/
def wordsOfFmt (fmt : Nat) (bs : Bytes) : List Word :=
  let w := elemBits fmt / 8
  (List.range (bs.length / w)).map (fun i => toF32 (valueOfCode fmt (ofLe (slice bs (w * i) w))))

/-- FP32 values as elements of a format. -/
def fmtOfWords (fmt : Nat) (ws : List Word) : Bytes :=
  ws.flatMap (fun w => leBytes (elemBits fmt / 8) (codeOfValue fmt .rne (f32 w)))

/-! ## Sums and maxima -/

/-- FP32 −∞. -/
def negInf : Word := 0xFF800000#32
/-- The canonical NaN of FP32 (R35). -/
def nanWord : Word := 0x7FC00000#32

/-- The larger of two numbers. -/
def maxWord (a b : Word) : Word := if FVal.lt (f32 a) (f32 b) then b else a

/-- Terms dealt to the lanes, each lane adding its own in increasing order, and reduced by R52 (R95, R145). -/
def dealtSum (ts : List Word) : Word :=
  treeSum ((List.range 64).map (fun l =>
    match (List.range ts.length).filter (fun i => i % 64 = l) with
    | [] => 0
    | i :: is => is.foldl (fun a j => lAdd a (ts.getD j 0)) (ts.getD i 0)))

/-- The sum of fma(x, x, acc) per lane, reduced by R52 (R151). -/
def dealtSquares (xs : List Word) : Word :=
  treeSum ((List.range 64).map (fun l =>
    ((List.range xs.length).filter (fun i => i % 64 = l)).foldl (fun a i => lFma (xs.getD i 0) (xs.getD i 0) a) 0))

/-- Evaluations of the SFU counted in the step that runs (R140, R154). -/
def State.countEvals (s : State) (p : Nat) (es : List (Nat × Word)) : State :=
  let q := sfuTally (s.sfuMode p) es
  s.countSfu p q.1 q.2

/-! ## Sampling (R94, R95) -/

/-- A logit as sampling reads it: a NaN counts as −∞. -/
def logit (w : Word) : Word := if f32 w == .nan then negInf else w

/-- The lowest index of the largest logit. -/
def argmax (zs : List Word) : Nat :=
  ((List.range zs.length).foldl (fun (b : Nat × Word) i =>
    if FVal.lt (f32 b.2) (f32 (zs.getD i 0)) then (i, zs.getD i 0) else b) (0, zs.getD 0 0)).1

/-- The prefix of the candidates that is kept, with the running sum (R95): probabilities in candidate order. -/
def keptPrefix (p : Word) : List (Nat × Word) → Word → List (Nat × Word) → List (Nat × Word) × Word
  | [], run, kept => (kept.reverse, run)
  | c :: cs, run, kept =>
    let run := lAdd run c.2
    if FVal.lt (f32 p) (.ofInt 1) && !FVal.lt (f32 run) (f32 p) then ((c :: kept).reverse, run)
    else keptPrefix p cs run (c :: kept)

/-- The walk over the kept tokens: the first whose running sum exceeds `t`, otherwise the last. -/
def walkKept (t : Word) : List (Nat × Word) → Word → Nat → Nat
  | [], _, last => last
  | c :: cs, acc, _ => let acc := lAdd acc c.2; if FVal.lt (f32 t) (f32 acc) then c.1 else walkKept t cs acc c.1

/-- The logits of a row settle its token without a draw: the lowest +∞, 0 where all are −∞, the largest where the temperature is 0 or k
is 1 (R94, R95). -/
def settled (temp : Word) (k : Nat) (zs : List Word) : Option Nat :=
  match (List.range zs.length).find? (fun i => f32 (zs.getD i 0) == .inf false) with
  | some i => some i
  | none =>
    if zs.all (fun z => f32 z == .inf true) then some 0
    else if FVal.eq (f32 temp) (.ofInt 0) || k = 1 then some (argmax zs)
    else none

/-- Logits divided by the temperature. -/
def tempered (mode : Nat) (temp : Word) (zs : List Word) : List Word := let rT := sfuRecip mode temp; zs.map (fun z => lMul z rT)

/-- The arguments of exp in sampling: every scaled logit less the largest. -/
def expArgs (ys : List Word) : List Word := let m := ys.foldl maxWord negInf; ys.map (fun y => lAdd y (fNeg m))

/-- The token sampled from some logits: SFU mode, temperature, top-k, top-p, and the generator's word for draw 0. -/
def sampleToken (mode : Nat) (temp : Word) (k : Nat) (p w0 : Word) (raw : List Word) : Nat :=
  let zs := raw.map logit
  match settled temp k zs with
  | some i => i
  | none =>
    let ys := tempered mode temp zs
    let es := (expArgs ys).map (sfuExp mode)
    let rS := sfuRecip mode (dealtSum es)
    let all := List.range zs.length
    let cand :=
      if k = 0 && FVal.eq (f32 p) (.ofInt 1) then all
      else (all.mergeSort (fun i j =>
        FVal.lt (f32 (ys.getD j 0)) (f32 (ys.getD i 0)) || (FVal.eq (f32 (ys.getD i 0)) (f32 (ys.getD j 0)) && decide (i ≤ j)))).take
          (min (if k = 0 then 1024 else k) zs.length)
    let kept := keptPrefix p (cand.map (fun i => (i, lMul (es.getD i 0) rS))) 0 []
    walkKept (lMul (uniform w0) kept.2) kept.1 0 0

/-- What sampling evaluates: the reciprocals of the temperature and the sum, and exp of every logit. -/
def sampleEvals (mode : Nat) (temp : Word) (k : Nat) (raw : List Word) : List (Nat × Word) :=
  let zs := raw.map logit
  match settled temp k zs with
  | some _ => []
  | none =>
    let as := expArgs (tempered mode temp zs)
    (4, temp) :: (4, dealtSum (as.map (sfuExp mode))) :: as.map (fun a => (1, a))

/-- A sampled token brought to its sequence on the first stage, or sent towards it in the collective class (R228). A token of a sequence
that has ended is discarded. -/
def State.bringToken (s : State) (p handle beam token : Nat) : State :=
  match s.part p with
  | none => s
  | some pt =>
    if (pt.image.map Image.isFirst).getD true then
      s.modPart p (fun pt => { pt with seqs := pt.seqs.map (fun q =>
        if q.handle == handle && q.beam == beam && q.inStep then { q with sampled := some token } else q) })
    else s.sendTo (s.stageDev 0) .collective p (beBytes 1 0x30 ++ beBytes 1 p ++ beBytes 4 handle ++ beBytes 2 beam ++ beBytes 4 token)

/-- The sampling parameters of a sequence: the request's where this stage holds it, otherwise the kernel's argument words (log entry 19):
seed, position, temperature, top-k, top-p. -/
def Part.sampling (pt : Part) (handle beam : Nat) (args : List Word) : Dword × Nat × Word × Nat × Word :=
  match NMap.find pt.reqs handle, pt.seqs.find? (fun q => q.handle == handle && q.beam == beam) with
  | some r, some q => (r.opts.seed, q.pos + q.took, r.opts.temperature, r.opts.topK, r.opts.topP)
  | _, _ => (BitVec.ofNat 64 ((args.getD 0 0).toNat + (args.getD 1 0).toNat * 2 ^ 32), (args.getD 2 0).toNat, args.getD 3 0,
      (args.getD 4 0).toNat, args.getD 5 0)

/-- Sampling of one sequence by one crew. -/
def State.runSample (s : State) (p t handle beam logits fmt : Nat) (args : List Word) : State :=
  match s.part p with
  | none => s
  | some pt =>
    match pt.image with
    | none => s
    | some im =>
      let r := s.gatherBytes p t logits (im.vocab * (elemBits fmt / 8))
      match r.2 with
      | none => r.1
      | some bs =>
        let q := pt.sampling handle beam args
        (r.1.countEvals p (sampleEvals (s.sfuMode p) q.2.2.1 q.2.2.2.1 (wordsOfFmt fmt bs))).bringToken p handle beam
          (sampleToken (s.sfuMode p) q.2.2.1 q.2.2.2.1 q.2.2.2.2 (philoxDraw q.1 q.2.1 0 beam) (wordsOfFmt fmt bs))

/-! ## Soft maximum and attention (R145, R146, R170 to R172, R175) -/

/-- A running partial of a row: maximum, sum and output vector. -/
def Partial.none (d : Nat) : Partial := { m := negInf, s := 0, o := List.replicate d 0 }

/-- One block of scores and values folded into a partial (R145). -/
def foldBlock (mode : Nat) (a : Partial) (xs : List Word) (vs : List (List Word)) : Partial :=
  let m := maxWord a.m (xs.foldl maxWord negInf)
  let c := if m = negInf then 0x3F800000#32 else sfuExp mode (lAdd a.m (fNeg m))
  let es := xs.map (fun x => if x = negInf then 0#32 else sfuExp mode (lAdd x (fNeg m)))
  { m := m, s := lFma a.s c (dealtSum es),
    o := (List.range a.o.length).map (fun j =>
      lFma (a.o.getD j 0) c (dealtSum ((List.range es.length).map (fun i => lMul (es.getD i 0) ((vs.getD i []).getD j 0))))) }

/-- What the fold of a block evaluates: exp of what the old maximum and every score lie below the new one. -/
def foldEvals (a : Partial) (xs : List Word) : List (Nat × Word) :=
  let m := maxWord a.m (xs.foldl maxWord negInf)
  if m = negInf then [] else ((a.m :: xs).filter (fun x => x != negInf)).map (fun x => (1, lAdd x (fNeg m)))

/-- The fold of several blocks, with what it evaluates. -/
def foldBlocks (mode : Nat) (a : Partial) (bs : List (List Word × List (List Word))) : Partial × List (Nat × Word) :=
  bs.foldl (fun r b => (foldBlock mode r.1 b.1 b.2, r.2 ++ foldEvals r.1 b.1)) (a, [])

/-- What the finish of a partial evaluates. -/
def finishEvals (a : Partial) : List (Nat × Word) := if FVal.eq (f32 a.s) (.ofInt 0) then [] else [(4, a.s)]

/-- The finish of a partial: its output vector (R145). -/
def finishPartial (mode : Nat) (a : Partial) : List Word :=
  if FVal.eq (f32 a.s) (.ofInt 0) then a.o.map (fun _ => 0)
  else let r := sfuRecip mode a.s; a.o.map (fun w => lMul w r)

/-- A row that is made NaN (R146). -/
def rowIsNan (xs : List Word) : Bool := xs.any (fun x => f32 x == .nan || f32 x == .inf false)

/-- A run of values cut into rows of `n`. -/
def cutRows (n : Nat) : Nat → List Word → List (List Word)
  | 0, _ => []
  | k + 1, ws => ws.take n :: cutRows n k (ws.drop n)

/-- The code of a mask tile and the bitmap it names (R170 to R172), at entries i and j of a list; `table` reads an entry of the mask-tile
table. -/
def maskCode (table : Nat → Word) (mask : Option (Nat × Nat × Nat)) (l : List PageEntry) (i j : Nat) : Nat × Nat :=
  let byPos : Nat × Nat :=
    match l[i]?, l[j]? with
    | some q, some k =>
      if k.start > q.start + q.fill - 1 then (1, 0) else if k.start + k.fill - 1 ≤ q.start then (0, 0) else (2, 0)
    | _, _ => (1, 0)
  match mask with
  | some (b, r, c) => if i < r && j < c then let w := table (b + i * c + j); (w.field 31 30, w.field 9 0) else byPos
  | none => byPos

/-- Whether query position `q`, in entry i, may attend to key position c of entry j (R170). -/
def mayAttend (code : Nat) (bit : Nat → Nat → Bool) (qe ke : PageEntry) (q c : Nat) : Bool :=
  decide (c < ke.fill) &&
  match code with
  | 0 => true
  | 1 => false
  | 2 => decide (ke.start + c ≤ q)
  | _ => bit (q - qe.start) c

/-- An entry of the active mask-tile table as tile `t` holds it; entries are stored by R32. -/
def State.maskEntry (s : State) (p t i : Nat) : Word :=
  let tb := ((s.part p).map (fun pt => pt.activeBank 2)).getD 0
  BitVec.ofNat 32 (ofLe ((s.tile t).tableBytes tb 2 0 (4 * i) 4))

/-- A bitmap of the active half of a partition's bitmap area (R171, R173). -/
def State.bitmapOf (s : State) (pt : Part) (n : Nat) : Bytes :=
  (s.shareRead pt (pt.layout.bitmap + pt.activeBank 2 * 2 ^ 21 + n * 2048) 2048).getD []

/-- Bit (r, c) of a bitmap (R171). -/
def bitmapBit (b : Bytes) (r c : Nat) : Bool := (b.getD (16 * r + c / 8) 0).getLsbD (c % 8)

/-- The scores of entry j as the query sees them, −∞ where it may not attend; none where the whole tile is BLOCK_ALL. -/
def State.maskedScores (s : State) (p t : Nat) (pt : Part) (mask : Option (Nat × Nat × Nat)) (l : List PageEntry) (i j q : Nat)
    (xs : List Word) : Option (List Word) :=
  let c := maskCode (s.maskEntry p t) mask l i j
  if c.1 = 1 then none
  else
    let b := if c.1 = 3 then s.bitmapOf pt c.2 else []
    some ((List.range 128).map (fun k =>
      if mayAttend c.1 (bitmapBit b) (l.getD i default) (l.getD j default) q k then xs.getD k 0 else negInf))

/-- The entry of a list that holds a position. -/
def entryOf (l : List PageEntry) (q : Nat) : Nat := (l.findIdx? (fun e => decide (e.start ≤ q) && decide (q < e.start + e.fill))).getD l.length

/-- A new position's key and value, FP32 vectors in a tile's scratchpad, converted to the key-value format and written into the open page
of their layer and head (R155, R160, R175): each vector of D elements takes whole units of 64 bytes. -/
def State.writeKv (s : State) (p t : Nat) (pt : Part) (im : Image) (l : List PageEntry) (query : Nat) (kv : Nat × Nat × Nat × Nat) :
    State :=
  match l[entryOf l query]? with
  | none => s
  | some e =>
    if e.inset || im.layers ≤ kv.1 || im.hkv ≤ kv.2.1 then s
    else
      let row := im.headDim * (elemBits im.kvFormat / 8)
      let off := pageOff im pt.layout e.sheet kv.1 + (kv.2.1 * 128 + (query - e.start)) * row
      let rk := s.gatherBytes p t kv.2.2.1 (4 * im.headDim)
      let rv := rk.1.gatherBytes p t kv.2.2.2 (4 * im.headDim)
      match rk.2, rv.2 with
      | some bk, some bv =>
        let put := fun (s : State) (off : Nat) (bs : Bytes) => s.shareStore pt off (fmtOfWords im.kvFormat (wordsOfBytes im.headDim bs))
        put (put rv.1 off bk) (off + im.keyBytes) bv
      | _, _ => rv.1

/-- The scores and values of one entry of a list, from the addresses given; none, and the step fails, where a word is uncorrectable. -/
def State.gatherBlock (s : State) (p t scores values d : Nat) : State × Option (List Word × List (List Word)) :=
  let rx := s.gatherBytes p t scores 512
  let rv := rx.1.gatherBytes p t values (512 * d)
  match rx.2, rv.2 with
  | some bx, some bv => (rv.1, some (wordsOfBytes 128 bx, cutRows d 128 (wordsOfBytes (128 * d) bv)))
  | _, _ => (rv.1, none)

/-- The blocks of the entries of a list that a query does not skip, masked (R170, R175): entry j's scores and values stand `k` places
after the addresses given. Nothing is read of a tile whose code is BLOCK_ALL. -/
def State.gatherBlocks (s : State) (p t : Nat) (pt : Part) (q : Seq) (i query scores values d : Nat) :
    List (Nat × Nat) → State × Option (List (List Word × List (List Word)))
  | [] => (s, some [])
  | (j, k) :: js =>
    if (maskCode (s.maskEntry p t) q.mask q.list i j).1 = 1 then s.gatherBlocks p t pt q i query scores values d js
    else
      match s.gatherBlock p t (scores + 512 * k) (values + 512 * d * k) d with
      | (s1, none) => (s1, none)
      | (s1, some b) =>
        match s1.gatherBlocks p t pt q i query scores values d js with
        | (s2, some bs) => (s2, some (((s.maskedScores p t pt q.mask q.list i j query b.1).getD [], b.2) :: bs))
        | (s2, none) => (s2, none)

/-- A running partial as it stands in the scratchpad between calls: m, s and o. -/
def partialOf (d : Nat) (bs : Bytes) : Partial :=
  let ws := wordsOfBytes (d + 2) bs
  { m := ws.getD 0 0, s := ws.getD 1 0, o := ws.drop 2 }

/-- A partial in the scratchpad's order. -/
def Partial.words (a : Partial) : List Word := a.m :: a.s :: a.o

/-- Attention of one query position over `count` entries of its sequence's list from `first` (R145, R146, R175): the new position's key and
value are written first, the running partial of the entries before is read from `acc`, and the row is finished with the last entry. -/
def State.runAttend (s : State) (p t handle beam query first count scores values d acc dst : Nat) (kv : Option (Nat × Nat × Nat × Nat)) :
    State :=
  match s.part p with
  | none => s
  | some pt =>
    match pt.seqs.find? (fun q => q.handle == handle && q.beam == beam), pt.image with
    | some q, some im =>
      let s0 := match kv with | some v => s.writeKv p t pt im q.list query v | none => s
      let n := q.list.length
      let mode := s.sfuMode p
      let ra := if first = 0 then (s0, some (Partial.none d))
        else let r := s0.gatherBytes p t acc (4 * (d + 2)); (r.1, r.2.map (partialOf d))
      let rb := ra.1.gatherBlocks p t pt q (entryOf q.list query) query scores values d
        ((List.range (min count (n - first))).map (fun k => (first + k, k)))
      match ra.2, rb.2 with
      | some a, some bs =>
        if bs.any (fun b => rowIsNan b.1) || f32 a.m == .nan then
          if first + count < n then rb.1.gatherStore p t acc (bytesOfWords (List.replicate (d + 2) nanWord))
          else (rb.1.gatherStore p t dst (bytesOfWords (List.replicate d nanWord))).countSfu p 0 1
        else
          let f := foldBlocks mode a bs
          if first + count < n then (rb.1.gatherStore p t acc (bytesOfWords (Partial.words f.1))).countEvals p f.2
          else (rb.1.gatherStore p t dst (bytesOfWords (finishPartial mode f.1))).countEvals p (f.2 ++ finishEvals f.1)
      | _, _ => rb.1
    | _, _ => s

/-- Blocks of 128 of a row. -/
def blocksOf : Nat → List Word → List (List Word)
  | 0, _ => []
  | n + 1, ws => if ws.isEmpty then [] else ws.take 128 :: blocksOf n (ws.drop 128)

/-- The soft maximum of a row of FP32 scores (R145, R146). -/
def State.runSoftmax (s : State) (p t src dst len : Nat) : State :=
  let r := s.gatherBytes p t src (4 * len)
  match r.2 with
  | none => r.1
  | some bs =>
    let xs := wordsOfBytes len bs
    let mode := s.sfuMode p
    if rowIsNan xs then (r.1.gatherStore p t dst (bytesOfWords (xs.map (fun _ => nanWord)))).countSfu p 0 1
    else
      let f := foldBlocks mode (Partial.none 0) ((blocksOf (len / 128 + 1) xs).map (fun b => (b, [])))
      let a := f.1
      let zero := FVal.eq (f32 a.s) (.ofInt 0)
      let ps :=
        if zero then xs.map (fun _ => 0#32)
        else let rs := sfuRecip mode a.s; xs.map (fun x => lMul (if x = negInf then 0 else sfuExp mode (lAdd x (fNeg a.m))) rs)
      (r.1.gatherStore p t dst (bytesOfWords ps)).countEvals p
        (f.2 ++ finishEvals a ++ if zero then [] else (xs.filter (fun x => x != negInf)).map (fun x => (1, lAdd x (fNeg a.m))))

/-! ## Normalisation (R151, R152) -/

/-- r of R151: rsqrt(q × invW + ε), +0 where the argument is +0 (R152). -/
def normRoot (mode : Nat) (q invW eps : Word) : Word :=
  let v := lAdd (lMul q invW) eps
  if v = 0 then 0 else sfuRsqrt mode v

/-- invW of R151. -/
def invWidth (n : Nat) : Word := toF32 (FVal.div (.ofInt 1) (.ofInt n))

/-- The values of a row that a normalisation squares: themselves, or with a bias what they lie above their mean. -/
def centred (layer : Bool) (xs : List Word) : List Word :=
  if layer then let mu := lMul (dealtSum xs) (invWidth xs.length); xs.map (fun x => lAdd x (fNeg mu)) else xs

/-- RMS or layer normalisation of a row. -/
def normRow (mode : Nat) (eps : Word) (xs gs : List Word) (bias : Option (List Word)) : List Word :=
  let cs := centred bias.isSome xs
  let r := normRoot mode (dealtSquares cs) (invWidth xs.length) eps
  (List.range xs.length).map (fun i =>
    match bias with
    | none => lMul (lMul (cs.getD i 0) r) (gs.getD i 0)
    | some bs => lFma (lMul (cs.getD i 0) r) (gs.getD i 0) (bs.getD i 0))

/-- What a normalisation evaluates: one rsqrt, unless its argument is +0 (R152). -/
def normEvals (eps : Word) (layer : Bool) (xs : List Word) : List (Nat × Word) :=
  let v := lAdd (lMul (dealtSquares (centred layer xs)) (invWidth xs.length)) eps
  if v = 0 then [] else [(5, v)]

/-- A normalisation kernel on a row of width `w`: the row, the gain, the bias and the result each in FP32 or BF16 (R151). -/
def State.runNorm (s : State) (p t src dst gain : Nat) (bias : Option (Nat × Nat)) (w xFmt gFmt yFmt : Nat) : State :=
  let n := fun (fmt : Nat) => w * (elemBits fmt / 8)
  let rx := s.gatherBytes p t src (n xFmt)
  let rg := rx.1.gatherBytes p t gain (n gFmt)
  let rb := match bias with
    | some b => let q := rg.1.gatherBytes p t b.1 (n b.2); (q.1, q.2.map (fun bs => some (wordsOfFmt b.2 bs)))
    | none => (rg.1, some none)
  match rx.2, rg.2, rb.2 with
  | some bx, some bg, some bias =>
    let xs := wordsOfFmt xFmt bx
    let eps := (((s.part p).bind (·.image)).map Image.eps).getD 0
    if xs.any nonFinite then (rb.1.gatherStore p t dst (fmtOfWords yFmt (xs.map (fun _ => nanWord)))).countSfu p 0 1
    else (rb.1.gatherStore p t dst (fmtOfWords yFmt (normRow (s.sfuMode p) eps xs (wordsOfFmt gFmt bg) bias))).countEvals p
      (normEvals eps bias.isSome xs)
  | _, _, _ => rb.1

/-! ## Rotary arithmetic (R174) -/

/-- One pair rotated by its cosine and sine. -/
def rotatePair (c sn x0 x1 : Word) : Word × Word := (lFma x0 c (fNeg (lMul x1 sn)), lFma x0 sn (lMul x1 c))

/-- A vector of D FP32 values rotated at a position. -/
def State.runRotary (s : State) (p t src dst pos : Nat) : State :=
  match (s.part p).bind (·.image) with
  | none => s
  | some im =>
    let r := s.gatherBytes p t src (4 * im.headDim)
    match r.2 with
    | none => r.1
    | some bs =>
      let xs := wordsOfBytes im.headDim bs
      let mode := s.sfuMode p
      let half := im.rotWidth / 2
      let at2 := fun (i : Nat) => if im.rotSplit then (i, i + half) else (2 * i, 2 * i + 1)
      let pq := BitVec.ofNat 32 pos
      let rs := (List.range half).map (fun i => (sfuRotary 15 mode 1 pq (im.theta i), sfuRotary 14 mode 1 pq (im.theta i)))
      let ys := (List.range half).foldl (fun (ys : List Word) i =>
        let q := rs.getD i default
        let z := rotatePair (BitVec.ofNat 32 q.1.code) (BitVec.ofNat 32 q.2.code) (xs.getD (at2 i).1 0) (xs.getD (at2 i).2 0)
        (ys.set (at2 i).1 z.1).set (at2 i).2 z.2) xs
      (r.1.gatherStore p t dst (bytesOfWords ys)).countSfu p 0
        ((rs.filter (fun q => q.1.nan)).length + (rs.filter (fun q => q.2.nan)).length)

/-! ## The scan of a chunk (R198) -/

/-- One level of the segmented scan at distance `d`: every position reads the values before the level. The lanes do the arithmetic, so a
finite result beyond FP32 saturates (R44, R78; log entry 8). -/
def scanLevel (d : Nat) (v : List (Word × Word × Bool)) : List (Word × Word × Bool) :=
  (List.range v.length).map (fun t =>
    let c := v.getD t default
    if t < d || c.2.2 then c
    else let e := v.getD (t - d) default; (lMul c.1 e.1, lFma c.1 e.2.1 c.2.1, e.2.2))

/-- The levels d = 1, 2, 4, … below the length; `fuel` bounds their number. -/
def scanLevels : Nat → Nat → List (Word × Word × Bool) → List (Word × Word × Bool)
  | 0, _, v => v
  | n + 1, d, v => if d < v.length then scanLevels n (2 * d) (scanLevel d v) else v

/-- The outputs of a chunk for one pair (R198). -/
def scanPair (h0 : Word) (v : List (Word × Word × Bool)) : List Word :=
  (scanLevels 11 1 v).map (fun e => if e.2.2 then e.2.1 else lFma e.1 h0 e.2.1)

/-- The scan of some pairs of a slot over a stream's chunk: `h0` is where the state read of those pairs stands, `a`, `x` and `y` planes of
one vector of the pairs per position. Pairs may be shared across kernels and tiles as the step program likes (R198). -/
def State.runScan (s : State) (p t handle h0 a x y pairs : Nat) : State :=
  match ((s.part p).bind (fun pt => NMap.find pt.streams handle)).bind (·.current) with
  | none => s
  | some ch =>
    let n := ch.positions
    let w := 4 * pairs
    if 2 ^ 20 < max a (max x y) + w * n then s
    else
      let rh := s.gatherBytes p t h0 w
      let ra := rh.1.gatherBytes p t a (w * n)
      let rx := ra.1.gatherBytes p t x (w * n)
      match rh.2, ra.2, rx.2 with
      | some bh, some ba, some bx =>
        let at_ := fun (bs : Bytes) (i c : Nat) => BitVec.ofNat 32 (ofLe (slice bs (w * i + 4 * c) 4))
        let outs := (List.range pairs).map (fun c =>
          scanPair (at_ bh 0 c) ((List.range n).map (fun i => (at_ ba i c, at_ bx i c, ch.marks.contains i))))
        rx.1.gatherStore p t y ((List.range n).flatMap (fun i => bytesOfWords (outs.map (fun o => o.getD i 0))))
      | _, _, _ => rx.1

/-! ## Launch and end (R81) -/

/-- What a kernel's body computes. -/
def State.runBody (s : State) (p t : Nat) (args : List Word) : KernelBody → State
  | .code => s
  | .sample handle beam logits fmt => s.runSample p t handle beam logits fmt args
  | .softmax src dst len => s.runSoftmax p t src dst len
  | .attend handle beam query first count scores values d acc dst kv =>
    s.runAttend p t handle beam query first count scores values d acc dst kv
  | .rms src dst gain w x g y => s.runNorm p t src dst gain none w x g y
  | .layer src dst gain bias w x g b y => s.runNorm p t src dst gain (some (bias, b)) w x g y
  | .rotary src dst pos => s.runRotary p t src dst pos
  | .scan handle h0 a x y pairs => s.runScan p t handle h0 a x y pairs

/-- A format that a normalisation takes (R151): FP32 or BF16. -/
def normFmt (fmt : Nat) : Bool := fmt == 1 || fmt == 2

/-- A body that the chapters allow: its addresses lie in the scratchpad and its sizes in their ranges. -/
def KernelBody.ok : KernelBody → Bool
  | .code => true
  | .sample _ _ a fmt => decide (a < 2 ^ 20) && decide (1 ≤ fmt) && decide (fmt ≤ 3)
  | .softmax src dst len => decide (src + 4 * len ≤ 2 ^ 20) && decide (dst + 4 * len ≤ 2 ^ 20)
  | .attend _ _ _ _ n a b d acc dst kv => decide (1 ≤ n) && decide (a + 512 * n ≤ 2 ^ 20) && decide (b + 512 * d * n ≤ 2 ^ 20) &&
      decide (1 ≤ d) && decide (d ≤ 256) && decide (acc + 4 * (d + 2) ≤ 2 ^ 20) && decide (dst + 4 * d ≤ 2 ^ 20) &&
      kv.all (fun v => decide (v.2.2.1 + 1024 ≤ 2 ^ 20) && decide (v.2.2.2 + 1024 ≤ 2 ^ 20))
  | .rms src dst g w xf gf yf => [xf, gf, yf].all normFmt && decide (1 ≤ w) && decide (w ≤ 65536) &&
      [src, dst, g].all (fun a => decide (a + 4 * w ≤ 2 ^ 20))
  | .layer src dst g b w xf gf bf yf => [xf, gf, bf, yf].all normFmt && decide (1 ≤ w) && decide (w ≤ 65536) &&
      [src, dst, g, b].all (fun a => decide (a + 4 * w ≤ 2 ^ 20))
  | .rotary src dst _ => decide (src + 1024 ≤ 2 ^ 20) && decide (dst + 1024 ≤ 2 ^ 20)
  | .scan _ h0 a x y pairs => decide (pairs ≤ 1024) && [h0, a, x, y].all (fun b => decide (b < 2 ^ 20))

/-- Crews of a tile that no resident kernel uses. -/
def Tile.freeCrews (v : Tile) : List Nat := (List.range 32).filter (fun c => !v.resident c)

/-- A launch may start: a residency and enough crews are free (Table 5 of The tile). -/
def Tile.canLaunch (v : Tile) (crews : Nat) : Bool := decide (v.kernels.length < 8) && decide (crews ≤ v.freeCrews.length)

/-- A kernel started: the lowest free crews, every lane active, its body computed. A coefficient ROM that fails parity gives its body no
result (R153). -/
def State.startKernel (s : State) (t : Nat) (op : LaunchOp) : State :=
  let v := s.tile t
  let cs := v.freeCrews.take op.crews
  let s1 := s.modTile t (fun v =>
    { v with kernels := NMap.insert v.kernels v.nextKernel { crews := cs, entry := op.entry, args := op.args, body := op.body },
             nextKernel := v.nextKernel + 1,
             crews := cs.foldl (fun m c => NMap.insert m c { v.crew c with
               kernel := v.nextKernel, active := 0xFFFFFFFFFFFFFFFF#64, paths := [], loops := [] }) v.crews })
  if op.rom && op.body.kind != 0 then s1.romFail (s.owner t) else s1.runBody (s.owner t) t op.args op.body

/-- Waiting launches started in order while there is room; `fuel` bounds their number. -/
def State.pumpLaunch (s : State) (t : Nat) : Nat → State
  | 0 => s
  | n + 1 =>
    match (s.tile t).launchQ with
    | [] => s
    | op :: q =>
      if (s.tile t).canLaunch op.crews then ((s.modTile t (fun v => { v with launchQ := q })).startKernel t op).pumpLaunch t n else s

/-- The launch queue of a tile worked off as far as residencies and crews allow. -/
def State.goLaunch (s : State) (t : Nat) : State := s.pumpLaunch t (s.tile t).launchQ.length

/-- A kernel of the tile's lane instruction store that a launch may name (R17, R81): at the entry point, with its body, and within the crews
and argument words it was installed with. -/
def Tile.holdsKernel (v : Tile) (entry crews args body : Nat) : Bool :=
  v.store.any (fun k => k.entry == entry && decide (crews ≤ k.crews) && decide (args ≤ k.args) && k.body == body)

/-- A KERNEL_LAUNCH waits while its tile's launch queue holds 16 (R83). -/
def State.launchWaits (s : State) (t : Nat) : Bool := decide (16 ≤ (s.tile t).launchQ.length)

/-- A launch that joins its tile's queue. -/
def State.doLaunch (s : State) (t : Nat) (op : LaunchOp) (env : List Strike) : State :=
  let s1 := (s.strike env).pathErrors (s.owner t) env
  if s1.stepFailed (s.owner t) then s1 else (s1.modTile t (fun v => { v with launchQ := v.launchQ ++ [op] })).goLaunch t

/-- What a KERNEL_LAUNCH gives its tile. -/
def launchOp (t crews entry : Nat) (args : List Word) (body : KernelBody) (env : List Strike) : LaunchOp :=
  { crews := crews, entry := entry, args := args, body := body, rom := romStruck t env }

/-- KERNEL_LAUNCH: a lane kernel launched with 1 to 32 crews and at most 16 argument words; it waits for residency and crews (R81). -/
def execKernelLaunch (t crews entry : Nat) (args : List Word) (body : KernelBody) (env : List Strike) (s : State) : Res :=
  require (s.tileWorks t && decide (1 ≤ crews) && decide (crews ≤ 32) && decide (args.length ≤ 16) && KernelBody.ok body &&
      (s.tile t).holdsKernel entry crews args.length body.kind) "no such kernel"
    (s.issue (s.owner t) (bayOf t) (.kernelLaunch t crews entry args body env) (s.launchWaits t)
      (s.doLaunch t (launchOp t crews entry args body env) env))

/-- A kernel ends and frees its crews and its residency; waiting launches go on (R81). -/
def State.endKernel (s : State) (t kernel : Nat) : State :=
  (s.modTile t (fun v => { v with kernels := NMap.erase v.kernels kernel })).goLaunch t

end Sys2Proof.Machine
end

