-- ==== Sys2Proof/Machine/Sequencer.lean ====
section
/-!
DEFINITION. The contexts of the bay sequencers (R82, R83): when a waiting instruction may issue and what it then does, SYNC with its barriers
and its stalls (R272), flow instructions and END, and the events that let contexts go on.
-/
namespace Sys2Proof.Machine

open Sys2Proof

/-! ## Conditions -/

/-- A transfer of a partition's tiles in a bay, among some, has not completed. -/
def State.xferRuns (s : State) (pt : Part) (bay : Nat) (ids : List Nat) : Bool :=
  ((s.liveTiles pt).filter (fun t => bayOf t == bay)).any (fun t => (s.tile t).dmaQ.any (fun q => ids.contains q.op.id))

/-- Nothing is left in the queues of a tile, and no kernel is resident (log entry 92). -/
def Tile.queuesEmpty (v : Tile) : Bool := v.matrixQ.isEmpty && v.dmaQ.isEmpty && v.launchQ.isEmpty && v.kernels.isEmpty

/-- Everything that a partition issued in a bay has retired, every pod with its tag, every table load (R18, R82, R129). -/
def State.bayRetired (s : State) (p : Nat) (pt : Part) (bay : Nat) : Bool :=
  ((s.liveTiles pt).filter (fun t => bayOf t == bay)).all (fun t => (s.tile t).retired) && (s.bayStores bay).all (fun q => q.part != p) &&
    !(pt.load.any (fun j => j.bay == some bay)) && pt.loadQ.all (fun j => j.bay != some bay)

/-- What a SYNC of a bay waits for, but for the other bays at a partition barrier, has ended: its transfers, its fetches, the queues of its
tiles; at a bay barrier, all that was issued in the bay (Table 6 of The tile; log entry 92). -/
def State.syncMet (s : State) (p : Nat) (pt : Part) (bay : Nat) (op : SyncOp) : Bool :=
  !s.xferRuns pt bay op.xfers && pt.xcache.all (fun x => !(x.arriving && x.tensor.any (fun n => op.fetches.contains n))) &&
    op.tiles.all (fun t => (s.tile t).queuesEmpty) && (!op.bayBarrier || s.bayRetired p pt bay)

/-- A bay's context stands at a partition barrier, and what else its SYNC waits for has ended. -/
def State.atBarrier (s : State) (p : Nat) (pt : Part) (bay : Nat) : Bool :=
  match (pt.ctx bay).waiting with
  | .sync _ _ _ op :: _ => op.partBarrier && s.syncMet p pt bay op
  | _ => false

/-- A SYNC waits. A partition barrier is passed once every bay of the partition has reached it or its END (log entry 92). -/
def State.syncWaits (s : State) (p bay : Nat) (op : SyncOp) : Bool :=
  match s.part p with
  | none => false
  | some pt =>
    !s.syncMet p pt bay op || (op.partBarrier && !(pt.bays.all (fun b => b == bay || (pt.ctx b).ended || s.atBarrier p pt b)))

/-- END waits until everything that the context issued has retired (R18, R82). -/
def State.endWaits (s : State) (p bay : Nat) : Bool := (s.part p).any (fun pt => !s.bayRetired p pt bay)

/-- An instruction that stands first in its context waits (R83): its queue is full, its bank or its message is not there, what it waits for
has not ended. -/
def State.waits (s : State) : Instr → Bool
  | .matrix ts _ _ _ _ _ => s.matrixWaits ts
  | .drain t bank _ dst _ => s.drainWaits t bank dst
  | .preload t bank _ _ => s.preloadWaits t bank
  | .twinBind t _ => s.bindWaits t
  | .twinUnbind t => s.unbindWaits t
  | .twinAdd t _ _ => s.pairsWait t
  | .twinMul t _ => s.pairsWait t
  | .stateRead t _ => s.pairsWait t
  | .stateOverwrite t _ => s.pairsWait t
  | .streamCommit p h slot _ _ => (s.commitTile p h slot).any s.pairsWait
  | .kernelLaunch t _ _ _ _ _ => s.launchWaits t
  | .dma t _ _ => s.dmaWaits t
  | .fill t _ _ _ => s.dmaWaits t
  | .copy t _ _ _ _ => s.dmaWaits t
  | .compressOnStore t _ _ _ _ _ => s.dmaWaits t
  | .linkReceive t cls dir _ count width _ => (s.linkMessage (s.owner t) cls dir count width).isNone
  | .sync p bay _ op => s.syncWaits p bay op
  | .endStep p bay => s.endWaits p bay
  | _ => false

/-! ## Stalls (R272) -/

/-- The stall of a SYNC that has waited counted with its time, where a transfer of Table 5 of Memory tiers was among those it waited for. -/
def State.countStall (s : State) (p bay : Nat) : State :=
  match ((s.part p).bind (fun pt => (pt.ctx bay).sync)).bind (fun w => w.last.map (fun l => (w.since, l))) with
  | none => s
  | some (since, done, cause) => (s.bump .tier p (4 * cause) 1).bump .tier p 0x14 (done - since)

/-- The first waiting instruction taken from a context; a SYNC that is then first begins to wait. -/
def State.popWaiting (s : State) (p bay : Nat) : State :=
  s.modCtx p bay (fun c =>
    let w := c.waiting.drop 1
    { c with waiting := w, sync := if w.head?.any Instr.isSync then some { since := s.now, last := none } else none })

/-- The later of two completions; of two at one instant the lower cause (R272). -/
def laterDone (a : Option (Nat × Nat)) (b : Nat × Nat) : Nat × Nat :=
  match a with
  | none => b
  | some x => if b.1 < x.1 then x else if x.1 < b.1 then b else (x.1, min x.2 b.2)

/-- A completion with a cause noted in a context whose first instruction is a SYNC that waits for it. -/
def BayCtx.note (c : BayCtx) (hit : SyncOp → Bool) (now : Nat) (cause : Option Nat) : BayCtx :=
  match c.waiting, c.sync, cause with
  | .sync _ _ _ op :: _, some w, some k => if hit op then { c with sync := some { w with last := some (laterDone w.last (now, k)) } } else c
  | _, _, _ => c

/-! ## What SYNC, flow instructions and END do -/

/-- A SYNC that is passed: at a partition barrier the contexts of the other bays that stand at it pass it too. -/
def State.doSync (s : State) (p bay : Nat) (op : SyncOp) : State :=
  match s.part p with
  | none => s
  | some pt =>
    if op.partBarrier then
      (pt.bays.filter (fun b => b != bay && s.atBarrier p pt b)).foldl (fun s b => (s.countStall p b).popWaiting p b) s
    else s

/-- A counted loop or a branch on a field of the step block or on a tile's status word (R83); `at_` is the instruction's place. A count of
0 runs the body once, and a loop's end without a loop goes on (DESIGN CHOICE, log entry 93). -/
def State.doFlow (s : State) (p bay at_ : Nat) : FlowOp → State
  | .loop n => s.modCtx p bay (fun c => { c with pc := at_ + 1, loops := (at_ + 1, n) :: c.loops })
  | .loopBack => s.modCtx p bay (fun c =>
      match c.loops with
      | [] => { c with pc := at_ + 1 }
      | (b, n) :: ls => if 1 < n then { c with pc := b, loops := (b, n - 1) :: ls } else { c with pc := at_ + 1, loops := ls })
  | .branchField w v t =>
    let field := (((s.part p).bind (·.step)).map (·.block)).getD []
    s.modCtx p bay (fun c => { c with pc := if field.getD w 0 = BitVec.ofNat 32 v then t else at_ + 1 })
  | .branchStatus u t => s.modCtx p bay (fun c => { c with pc := if (s.tile u).satStatus then t else at_ + 1 })

/-- The context has reached its END: the partition's step ends when every bay has ended (R82). -/
def State.doEnd (s : State) (p bay : Nat) : State :=
  (s.modCtx p bay (fun c => { c with ended := true })).modPart p (fun pt =>
    if pt.bays.all (fun b => (pt.ctx b).ended) then { pt with step := pt.step.map (fun v => { v with finished := true }) } else pt)

/-- What an instruction does once it issues. -/
def State.runInstr (s : State) : Instr → State
  | .matrix ts a b bank cont env => s.doMatrix ts (matrixOp a b bank cont env) env
  | .drain t bank fmt dst env => s.doDrain t bank fmt dst env
  | .preload t bank row int => s.doPreload t bank row int
  | .twinBind t src => s.doTwinBind t src
  | .twinUnbind t => s.doTwinUnbind t
  | .twinAdd t src env => s.doTwinAdd t env src
  | .twinMul t row => s.doTwinMul t row
  | .stateRead t row => s.doStateRead t row
  | .stateOverwrite t row => s.doStateOverwrite t row
  | .streamCommit p h slot planes env => s.doCommit p h slot planes env
  | .kernelLaunch t crews entry args body env => s.doLaunch t (launchOp t crews entry args body env) env
  | .sfuRowOperation t fn inFmt outFmt src dst env => s.doSfuRow t fn inFmt outFmt src dst env
  | .dma t op env => s.doDma t op env
  | .fill t row count c => s.doFill t row count c
  | .copy t src dst count env => s.doCopy t src dst count env
  | .compressOnStore t row dst tag pod env => s.doStore t row dst tag pod env
  | .tableLoad t row op env => s.doTableLoad t row op env
  | .linkSend t cls dir row count width fp32 env => s.doLinkSend t cls dir row count width fp32 env
  | .linkReceive t cls dir row count width fp32 => s.doLinkReceive t cls dir row count width fp32
  | .sync p bay _ op => s.doSync p bay op
  | .flow p bay at_ op => s.doFlow p bay at_ op
  | .endStep p bay => s.doEnd p bay
  | _ => s

/-! ## Contexts that go on -/

/-- The first waiting instruction of a context issued, where it no longer waits. -/
def State.stepBay (s : State) (p bay : Nat) : Option State :=
  match (s.part p).bind (fun pt => (pt.ctx bay).waiting.head?) with
  | none => none
  | some i => if s.waits i then none else some (((if i.isSync then s.countStall p bay else s).popWaiting p bay).runInstr i)

/-- Waiting instructions of a partition's contexts issued, context by context, while one can be; `n` bounds their number. -/
def State.pumpBays (s : State) (p : Nat) : Nat → State
  | 0 => s
  | n + 1 =>
    match (s.part p).bind (fun pt => pt.bays.findSome? (fun b => s.stepBay p b)) with
    | some s1 => s1.pumpBays p n
    | none => s

/-- Instructions that wait in a partition's contexts. -/
def Part.waitingCount (pt : Part) : Nat := (pt.ctxs.map (fun e => e.2.waiting.length)).sum

/-- The contexts of a partition go on as far as they can (R83). -/
def State.pump (s : State) (p : Nat) : State := s.pumpBays p (((s.part p).map Part.waitingCount).getD 0)

/-- The contexts of every partition go on. -/
def State.pumpAll (s : State) : State := (s.parts.map Prod.fst).foldl State.pump s

/-! ## SYNC, FLOW, END -/

/-- SYNC: a wait on transfers, fetches, tile queues or a barrier (R83, R272). -/
def execSync (p bay now : Nat) (op : SyncOp) (s : State) : Res :=
  match s.part p with
  | none => impossible "no such partition"
  | some pt =>
    require (pt.running bay && op.tiles.all (fun t => pt.tiles.contains t && bayOf t == bay)) "the context does not run"
      ((s.at now).issue p bay (.sync p bay now op) ((s.at now).syncWaits p bay op) (((s.at now).doSync p bay op).pump p))

/-- FLOW: a counted loop or a branch (R83); `at_` is the instruction's place. -/
def execFlow (p bay at_ : Nat) (op : FlowOp) (s : State) : Res :=
  match s.part p with
  | none => impossible "no such partition"
  | some pt => require (pt.running bay) "the context does not run" (s.issue p bay (.flow p bay at_ op) false (s.doFlow p bay at_ op))

/-- END: the context ends once everything it issued has retired (R18, R82). -/
def execEndStep (p bay : Nat) (s : State) : Res :=
  match s.part p with
  | none => impossible "no such partition"
  | some pt =>
    require (pt.running bay && !(s.stepFailed p)) "the context does not run"
      (s.issue p bay (.endStep p bay) (s.endWaits p bay) ((s.doEnd p bay).pump p))

/-! ## Events after which contexts go on -/

/-- DRAIN_COMPLETE: the last row is written and the bank is EMPTY (R71). -/
def execDrainComplete (t bank : Nat) (s : State) : Res :=
  require (decide (bank < 2) && ((s.tile t).bank bank).st == .drain) "no drain runs" (.next ((s.endDrain t bank).pump (s.owner t)))

/-- DMA_COMPLETE: the transfer leaves the queue, and a SYNC that waits for it notes its stall (R272). -/
def execDmaComplete (t id now : Nat) (s : State) : Res :=
  match (s.tile t).dmaQ.find? (fun q => q.op.id == id) with
  | none => impossible "no such transfer runs"
  | some q =>
    let s0 := s.at now
    .next (((s0.modCtx (s.owner t) (bayOf t) (fun c => c.note (fun op => op.xfers.contains id) s0.now q.cause)).endDma t id).pump (s.owner t))

/-- The fetch that a partition is served next: the first issued of those that run (R264). -/
def Part.nextFetch (pt : Part) : Option Nat :=
  ((List.range pt.xcache.length).filter (fun i => (pt.xcache[i]?).any (·.arriving))).foldl (fun (best : Option Nat) i =>
    match best with
    | none => some i
    | some b => if ((pt.xcache[i]?).map (·.order)).getD 0 < ((pt.xcache[b]?).map (·.order)).getD 0 then some i else some b) none

/-- FETCH_COMPLETE: the tensor, of the fetch that was issued first, stands in its slot of the expert cache, and a SYNC that waits for it notes
its stall (R264, R272). -/
def execFetchComplete (p tensor now : Nat) (s : State) : Res :=
  match s.part p with
  | none => impossible "no such partition"
  | some pt =>
    match pt.image, pt.nextFetch.filter (fun i => (pt.xcache[i]?).any (fun x => x.tensor == some tensor)) with
    | some im, some i =>
      let s0 := s.at now
      let cause := (pt.xcache[i]?).map (·.cause)
      .next (((pt.bays.foldl (fun s b => s.modCtx p b (fun c => c.note (fun op => op.fetches.contains tensor) s0.now cause)) s0).endFetch
        p tensor pt im i).pump p)
    | _, _ => impossible "no such fetch runs"

/-- KERNEL_END: the kernel's crews are free; waiting launches go on (R81). -/
def execKernelEnd (t kernel : Nat) (s : State) : Res :=
  require ((NMap.find (s.tile t).kernels kernel).isSome) "no such kernel" (.next ((s.endKernel t kernel).pump (s.owner t)))

/-- POD_TAG_WRITE: the first stored pod of a bay gets its tag and is valid (R129). -/
def execPodTagWrite (bay : Nat) (s : State) : Res :=
  match (s.bayStores bay).find? (fun q => !q.held) with
  | none => impossible "no pod of the bay waits for its tag"
  | some q =>
    match s.part q.part with
    | none => impossible "the pod's partition is gone"
    | some pt => .next ((s.writeTag bay pt q).pump q.part)

/-- TABLE_LOAD_COMPLETE (R88): the load that runs has written its rows; the next one starts. -/
def execTableLoadComplete (p : Nat) (s : State) : Res :=
  match (s.part p).bind (·.load) with
  | none => impossible "no table load runs"
  | some j => .next ((((s.finishLoad p j).pumpLoads p 64)).settleAll.pump p)

/-- TABLE_COPY_COMPLETE (R89): the shadow bank of a kind holds what the active bank holds; loads that wait go on. -/
def execTableCopyComplete (p kind : Nat) (s : State) : Res :=
  match s.part p with
  | none => impossible "no such partition"
  | some pt =>
    require (pt.copying.getD kind false) "no such copy runs"
      (let s1 := pt.tiles.foldl (fun s t => s.modTile t (fun v => v.copyKind (pt.activeBank kind) kind)) s
       .next (((s1.modPart p (fun v => { v with copying := v.copying.set kind false })).pumpLoads p 64).settleAll.pump p))

end Sys2Proof.Machine
end

