-- ==== Sys2Proof/Machine/Rings.lean ====
section
/-!
DEFINITION. The statistics collective (R147 to R149) and ring prefill and scattered decode at a member (R177 to R180).
-/
namespace Sys2Proof.Machine

open Sys2Proof

/-- A partial has a NaN in some field. -/
def Partial.hasNan (a : Partial) : Bool := (a.m :: a.s :: a.o).any (fun w => f32 w == .nan)

/-- Two partials combined (R147). -/
def Partial.combine (mode : Nat) (a b : Partial) : Partial :=
  let n := max a.o.length b.o.length
  if Partial.hasNan a || Partial.hasNan b then { m := 0x7FC00000, s := 0x7FC00000, o := List.replicate n 0x7FC00000 }
  else
    let m := maxWord a.m b.m
    if m = negInf then Partial.none n
    else
      let ca := sfuExp mode (lAdd a.m (fNeg m))
      let cb := sfuExp mode (lAdd b.m (fNeg m))
      { m := m, s := lFma a.s ca (lMul b.s cb),
        o := (List.range n).map (fun i => lFma (a.o.getD i 0) ca (lMul (b.o.getD i 0) cb)) }

/-- What a combination evaluates: exp of what each maximum lies below the larger. -/
def Partial.combineEvals (a b : Partial) : List (Nat × Word) :=
  let m := maxWord a.m b.m
  if Partial.hasNan a || Partial.hasNan b || m = negInf then [] else [(1, lAdd a.m (fNeg m)), (1, lAdd b.m (fNeg m))]

/-- A partial as it travels (R149): m, s and o as FP32, m and s big-endian (R5), o as elements of a tensor (R32). -/
def Partial.bytes (a : Partial) : Bytes := beBytes 4 a.m.toNat ++ beBytes 4 a.s.toNat ++ bytesOfWords a.o

/-- A partition takes part in a ring. -/
def State.inRing (s : State) (p : Nat) : Bool := (s.ringOf p).contains s.veolo.num && decide (2 ≤ (s.ringOf p).length)

/-- The step of a partition takes part in a collective, whose owner stands at a ring position, until its result has come (R150). -/
def State.joinColl (s : State) (p owner : Nat) : State :=
  s.modPart p (fun pt => { pt with step := pt.step.map (fun v => { v with colls := v.colls ++ [owner] }) })

/-- A collective that this module owns is over: its finish step is made, its result stands where a LINK receive takes it, and it is counted
with its duration (R145, R148, R154). -/
def State.endColl (s : State) (p ns : Nat) (r : Partial) : State :=
  let k := s.ringPos p
  let s1 := (s.modPart p (fun pt => { pt with step := pt.step.map (fun v => { v with colls := v.colls.erase k }) })).countEvals p (finishEvals r)
  ((s1.setVeolo { s1.veolo with inbox := s1.veolo.inbox ++ [(2, .collective, p, bytesOfWords (finishPartial (s.sfuMode p) r))] }).bump
    .sfu p 0x0C 1).putReg .sfu p 0x14 (BitVec.ofNat 32 (min 0xFFFFFFFF ns))

/-- The fold of the positions before this one combined with this module's partial on the right and sent to the next position, from the last
one to the member that owns the sequence, at ring position `owner` (R148); where that is this module the collective is over. -/
def State.foldOn (s : State) (p owner ns : Nat) (incoming own : Partial) : State :=
  let k := s.ringPos p
  let n := (s.ringOf p).length
  let r := Partial.combine (s.sfuMode p) incoming own
  let s1 := (s.joinColl p owner).countEvals p (Partial.combineEvals incoming own)
  if k + 1 == n && owner == k then s1.endColl p ns r
  else s1.sendTo ((s.ringOf p).getD (if k + 1 < n then k + 1 else owner) 0) .collective p (Partial.bytes r)

/-- The partial that answers a decode query of an owner's sequence and waits for the fold, taken from its segment (R180). -/
def Part.takeReply (pt : Part) (owner : Nat) : Option (Partial × Part) :=
  match pt.segments.findIdx? (fun g => g.owner == owner && g.reply.isSome) with
  | none => none
  | some i => ((pt.segments[i]?).bind (·.reply)).map (fun r =>
      (r, { pt with segments := pt.segments.modify i (fun g => { g with reply := none }) }))

/-- STATISTICS_PARTIAL (R148): a partial reaches this member. Where it is the result of a collective that this module owns, `ns` is the
duration of the collective and the module finishes it; otherwise the member folds its own partial into it and sends the result on. -/
def execStatisticsPartial (p collective : Nat) (incoming own : Partial) (ns : Nat) (s : State) : Res :=
  let k := s.ringPos p
  require (s.inRing p && decide (collective < (s.ringOf p).length)) "the partition has no such ring"
    (if ns ≠ 0 && collective = k && k + 1 ≠ (s.ringOf p).length then .next ((s.endColl p ns incoming).pump p)
     else
       match (s.part p).bind (fun pt => pt.takeReply ((s.ringOf p).getD collective 0)) with
       | some (r, pt) => .next (((s.putPart p pt).foldOn p collective ns incoming r).pump p)
       | none => .next ((s.foldOn p collective ns incoming own).pump p))

/-- A segment that this member holds. -/
def Part.segment (pt : Part) (owner handle : Nat) : Option Segment := pt.segments.find? (fun g => g.owner == owner && g.handle == handle)

/-- Partials folded into running ones, row by row. -/
def foldPartials (mode : Nat) (acc own : List Partial) : List Partial :=
  (List.range (max acc.length own.length)).map (fun i =>
    match acc[i]?, own[i]? with
    | some a, some b => Partial.combine mode a b
    | some a, none => a
    | none, some b => Partial.combine mode (Partial.none 0) b
    | none, none => Partial.none 0)

/-- The sheet of a segment that holds some tokens from a position. -/
def Sheet.ofSegment (first : Nat) (toks : List Nat) : Sheet :=
  { Sheet.fresh first with fill := min 128 toks.length, closed := decide (128 ≤ toks.length), tokens := toks.take 128 }

/-- A segment's sheets taken from the reserve, with the tag rows of their pages (R160, R177). `n` bounds their number. -/
def State.takeReserve (s : State) (p : Nat) : Nat → Nat → List Nat → List Nat → State × List Nat
  | 0, _, _, acc => (s, acc)
  | n + 1, first, toks, acc =>
    match s.part p with
    | none => (s, acc)
    | some pt =>
      if toks.isEmpty then (s, acc)
      else
        let k := lowestFree pt.sheets
        let pt1 := pt.putSheet k (Sheet.ofSegment first toks)
        State.takeReserve ((s.putPart p pt1).openPages p pt1 k) p n (first + 128) (toks.drop 128) (acc ++ [k])

/-- A message of a class for a partition taken from those that have arrived. -/
def State.takeMessage (s : State) (p : Nat) (cls : LClass) : State × Bytes :=
  match s.veolo.inbox.find? (fun e => e.2.1 == cls && e.2.2.1 == p) with
  | some e => (s.setVeolo { s.veolo with inbox := s.veolo.inbox.erase e }, e.2.2.2)
  | none => (s, [])

/-- The sheets that the home of a ring-held sequence keeps: segment 0 of its list, its inset and hit sheets first (R178). -/
def Part.homeSheets (pt : Part) (handle : Nat) : List Nat :=
  match pt.seqs.find? (fun q => q.handle == handle && !q.ring.isEmpty) with
  | none => []
  | some q => (q.list.filter (fun e => decide (e.start < q.homeEnd))).map (·.sheet)

/-- The segment with which a member enters round 0 of a ring prefill (R178, R179): at home, offset 0, the sheets are those of the sequence's
own list; elsewhere they are taken from the reserve, for the tokens of the segment from position `first`. -/
def State.enterSegment (s : State) (p owner handle offset first : Nat) (toks : List Nat) : State :=
  let t := if offset = 0 then (s, []) else s.takeReserve p (toks.length / 128 + 1) first toks []
  t.1.modPart p (fun v => { v with segments := v.segments ++
    [{ owner := owner, handle := handle, offset := offset, sheets := t.2, acc := [], rounds := 0, reply := none }] })

/-- The stored form of a member's own segment (R130, R179). -/
def State.ownSegment (s : State) (p owner handle offset : Nat) : Bytes :=
  match s.part p with
  | none => []
  | some v => s.storedForm p v (if offset = 0 then v.homeSheets handle else ((v.segment owner handle).map (·.sheets)).getD [])

/-- RING_SEGMENT (R179): in round 0 a member enters with its own segment; in every round it folds the partials of the segment that has reached
it into its own, unless every tile is BLOCK_ALL, and sends that segment to the next offset in the ring class, in stored form. -/
def execRingSegment (p owner handle offset round first : Nat) (toks : List Nat) (blocked : Bool) (own : List Partial) (s : State) : Res :=
  match s.part p with
  | none => impossible "no such partition"
  | some pt =>
    let n := (s.ringOf p).length
    let known := pt.segment owner handle
    require (s.inRing p && decide (offset < n) && decide (round < n) && (s.ringOf p).getD ((s.ringPos p + n - offset) % n) 0 == owner &&
        (if round = 0 then known.isNone && (offset == 0 || (decide (pt.segSheets + (toks.length + 127) / 128 ≤ s.ringReserve p) &&
            decide (pt.sheets.length + (toks.length + 127) / 128 ≤ s.sheetTotal p)))
         else known.any (fun g => g.rounds == round)))
      "no such segment"
      (let s1 := if round = 0 then s.enterSegment p owner handle offset first toks else s
       let m : State × Bytes := if round = 0 then (s1, s1.ownSegment p owner handle offset) else s1.takeMessage p .ring
       let s2 := m.1.modPart p (fun v =>
         { v with segments := v.segments.map (fun g =>
             if g.owner == owner && g.handle == handle then
               { g with acc := if blocked then g.acc else foldPartials (s.sfuMode p) g.acc own, rounds := round + 1 }
             else g) })
       .next (s2.sendTo ((s.ringOf p).getD ((s.ringPos p + 1) % n) 0) .ring p m.2))

/-- RING_QUERY (R180): a decode query of a ring-held sequence reaches this member. Its partial, the identity where it holds no segment (R148),
answers by the chain of R148: ring position 0 begins it, every other position keeps its partial until the fold reaches it. -/
def execRingQuery (p owner handle : Nat) (own : Partial) (s : State) : Res :=
  require (s.inRing p && (s.ringOf p).contains owner) "the partition has no such ring"
    (let s1 := (s.takeMessage p .collective).1
     let held := ((s.part p).bind (fun pt => pt.segment owner handle)).any (fun g => !g.sheets.isEmpty)
     let r := if held then own else Partial.none own.o.length
     if s.ringPos p = 0 then .next (s1.foldOn p ((s.ringOf p).findIdx (· == owner)) 0 (Partial.none own.o.length) r)
     else
       .next (s1.modPart p (fun pt =>
         { pt with segments := pt.segments.map (fun g => if g.owner == owner && g.handle == handle then { g with reply := some r } else g) })))

/-- RING_RELEASE (R180): the segment is freed. -/
def execRingRelease (p owner handle : Nat) (s : State) : Res :=
  match (s.part p).bind (fun pt => pt.segment owner handle) with
  | none => impossible "no such segment"
  | some g => .next (s.modPart p (fun pt =>
      { g.sheets.foldl Part.unref pt with segments := pt.segments.erase g }))

end Sys2Proof.Machine
end

