-- ==== Sys2Proof/Machine/Meridian.lean ====
section
/-!
DEFINITION. The meridian (R18 to R25, R296, R424, R425, R453 to R457): the settings applied in the order of Table 5 of Architecture, the step
opened, the meridians of a pipeline, the decisions and tokens that its stages exchange, and the replay of a failed step.
-/
namespace Sys2Proof.Machine

open Sys2Proof

/-! ## A reset's drain and a reset notice (R424, R425) -/

/-- The operations of a partition's model end with BUSY_RECOVERY (R309). -/
def State.endModelOps (s : State) (p : Nat) : State :=
  match s.part p with
  | none => s
  | some pt =>
    let s1 := match pt.install with
      | some v => s.settleModel p v.ctx 0x0401 .busyRecovery
      | none => s
    let s2 := match pt.swap with
      | some v => if v.active then s1.settleModel p v.ctx 0x0402 .busyRecovery else s1
      | none => s1
    let s3 := match pt.draining with
      | some v => s2.settleModel p v.ctx 0x0403 .busyRecovery
      | none => s2
    let s4 := match pt.lendCopy with
      | some c => s3.settleModel p c 0x0406 .busyRecovery
      | none => s3
    let s5 := pt.staged.targeted.foldl (fun s e => s.settleTargeted p e.2.2 .busyRecovery) s4
    let s6 := pt.staged.removeInsets.foldl (fun s e => s.settleModel p e.2 0x0302 .busyRecovery) s5
    s6.modPart p (fun pt => { pt with install := none, refetch := none, swap := none, draining := none, lendCopy := none })

/-- A partition's loans end without grace (R424). -/
def State.endLoans (s : State) (p : Nat) : State :=
  match s.part p with
  | none => s
  | some pt =>
    let s1 := pt.loans.foldl (fun s l => s.releaseLoan p l) s
    (pt.loanAsk.foldl (fun s a => s.pushGo (askCode a.1 a.2) p .busyRecovery) s1).modPart p (fun pt => { pt with loanAsk := [] })

/-- The tiles of a partition stopped. -/
def State.abortAll (s : State) (p : Nat) : State :=
  match s.part p with
  | none => s
  | some pt => s.abortTiles p pt

/-- A partition's work ends for its reset (R424 steps 2 and 3): nothing of the step is emitted, the fill begins. -/
def State.drainForReset (s : State) (p : Nat) : State :=
  let r := (s.abortAll p).endEverything p
  let s1 := ((r.1.emit p r.2).endModelOps p).endLoans p
  let s2 := match (s1.part p).bind (·.load) with
    | some j => if j.bay.isNone then s1.pushGo 1 p .busyRecovery else s1
    | none => s1
  let g := ((s2.part p).map (·.staged)).getD Staged.none
  let s3 := (g.takeOut.foldl (fun s e => s.settle e.2 0x0901 .busyRecovery []) s2).setSurvey
    { s2.survey with out := s2.survey.out.filter (fun e => !g.putBack.contains e.1) }
  s3.modPart p (fun pt =>
    { pt with step := none, staged := Staged.none, contentKeys := [], load := none, loadQ := [], bmpQ := [], decisions := [], accepted := [],
              joined := false, pipeT := none, pipeDone := none, segments := [] })

/-- A reset notice's consequence at the next meridian (R425): the work ends, the model and its state stay. -/
def State.endForNotice (s : State) (p : Nat) : State :=
  if (s.part p).any (·.staged.endAll.isSome) then
    let r := s.endEverything p
    (r.1.emit p r.2).modPart p (fun pt => { pt with staged := { pt.staged with endAll := none } })
  else s

/-! ## The meridian as a whole -/

/-- Items 1 to 8 of a meridian of a partition with an image, after the closing of its step, which has completed or not. -/
def State.items (s : State) (p count : Nat) (im : Image) (confirmed : Option (List Nat)) (done : Bool) : State × Recs :=
  let a := s.firstItem p done
  let b := ((a.1.removeInsets p).resizeItem p).surveyItem p
  let t := b.applyTargeted p count im confirmed
  let d := ((((t.1.editionItem p).swapItem p im).gzOffItem p).drainDeadline p)
  let e := ((d.1.loanItem p).modPart p Part.swapTables)
  (e, a.2 ++ t.2 ++ d.2)

/-- Items 8 and 9, the records sent, the next step opened. A pipeline admits once its stages step together (log entry 94). -/
def State.openNext (s : State) (p count : Nat) (old : Part) (recs : Recs) : State :=
  match (s.part p).bind (·.image) with
  | none => s
  | some im =>
    let s1 := s.scaleItem p im
    if im.isFirst then
      let a := if (s1.part p).any (fun pt => MState.up pt.mstate && (im.stages == 1 || pt.joined)) then s1.admission p im else (s1, [])
      (a.1.emit p (recs ++ a.2)).leadStep p im count old
    else s1.followStep p im count

/-- A meridian of a partition without an image: its settings, and an empty step. -/
def State.bareMeridian (s : State) (p count : Nat) : State :=
  let s1 := ((s.resizeItem p).surveyItem p).loanItem p
  ((s1.modPart p (fun pt =>
    { Part.swapTables pt with step := some (StepSt.opened s.now count 0 [] 0), lastEmpty := true, ctxs := [] })).gzOffItem p).gratItem p 0

/-- The meridian of a partition at the present instant: `target` is the count that a pipeline's first stage carries, `confirmed` its settings. The
records of sheets and the page lists then stand in the share as they are (R161, R162). -/
def State.meridianAt (s : State) (p : Nat) (target : Option Nat) (confirmed : Option (List Nat)) : State :=
  let s0 := if s.dev.fwHalted then s.discardFirmware p else s
  match s0.part p with
  | none => s
  | some old =>
    let count := (target.getD (s0.merCount p + 1)) % 2 ^ 32
    let took := match old.step with
      | some v => s0.putReg .mer p 0x08 (BitVec.ofNat 32 (min 0xFFFFFFFF (s0.now - v.openedAt)))
      | none => s0
    let s1 := (took.putReg .mer p 0 (BitVec.ofNat 32 count)).modPart p (fun pt =>
      { pt with reqLimit := s.reg .req p 0, reqCtl := s.reg .req p 4 })
    if old.staged.reset.isSome then s1.drainForReset p
    else
      match old.image with
      | none => (s1.endForNotice p).bareMeridian p count
      | some im =>
        let c := s1.closeStep p im
        let i := (c.1.endForNotice p).items p count im confirmed (old.step.all (fun v => v.failed.isNone))
        (i.1.openNext p count old (c.2 ++ i.2)).keepRecords p

/-! ## MERIDIAN, EMPTY_STEP -/

/-- No stage of the partition's pipeline is lost or resetting (R298, R425). -/
def Part.whole (pt : Part) : Bool := pt.lost.isEmpty && pt.held.isEmpty

/-- The stage steps with the others of its pipeline (R24): it has been aligned, and no stage has been lost since. A neighbour that retrains makes the
stages wait (R297). -/
def Part.stepsTogether (pt : Part) : Bool := pt.image.any (fun im => decide (2 ≤ im.stages)) && pt.joined && pt.whole

/-- The neighbours that hold the adjacent stages are ACTIVE or DEGRADED (R24, R315). -/
def State.adjacentUp (s : State) (im : Image) : Bool :=
  let on := fun (d : Nat) => let n := s.veolo.nbrs.getD d .absent; n == .active || n == .degraded
  (im.isLast || on 0) && (im.isFirst || on 1)

/-- The stage can step with the others (R24): its image is loaded or beyond, its time base is aligned, its neighbours are there. That the other stages
hold the image too is what their DONE says. -/
def State.pipelineUp (s : State) (pt : Part) (im : Image) : Bool :=
  (pt.mstate == .loaded || MState.up pt.mstate) && s.veolo.aligned && pt.whole && s.adjacentUp im

/-- The settings that a meridian of the stage's own may apply: in a pipeline none of those with a target (R25). -/
def Part.ownSettings (pt : Part) : Option (List Nat) := if pt.image.any (fun im => decide (2 ≤ im.stages)) then some [] else none

/-- Nothing to close: no step, or an empty one. -/
def Part.idleStep (pt : Part) : Bool := pt.step.all (·.empty)

/-- MERIDIAN (R20): the last operation of the step has retired. -/
def execMeridian (p now : Nat) (s : State) : Res :=
  match s.part p with
  | none => impossible "no such partition"
  | some pt =>
    require (pt.mayClose && !pt.idleStep && !pt.stepsTogether) "no step has ended"
      (.next (((s.at now).meridianAt p none pt.ownSettings).settleAll))

/-- EMPTY_STEP (R19): at a whole millisecond an idle partition opens its next empty step. The empty steps of a pipeline that steps together end at
its pipeline meridians (R20, R24). -/
def execEmptyStep (p now : Nat) (s : State) : Res :=
  match s.part p with
  | none => impossible "no such partition"
  | some pt =>
    require (now % 1000000 == 0 && decide (s.now ≤ now) && pt.idleStep && pt.pipeT.isNone && !pt.stepsTogether &&
        !(pt.resetting.isSome && pt.staged.reset.isNone))
      "the partition is not idle" (.next (((s.at now).meridianAt p none pt.ownSettings).settleAll))

/-! ## Pipelines (R24, R25, R296) -/

/-- The settings for a count that every stage has accepted (R25). -/
def Part.confirmedFor (pt : Part) (im : Image) (count : Nat) : List Nat :=
  ((pt.accepted.filter (fun e => e.2.2 == count)).map (fun e => e.2.1)).eraseDups.filter (fun h =>
    (List.range im.stages).all (fun st => pt.accepted.any (fun e => e.1 == st && e.2.1 == h && e.2.2 == count)))

/-- The message of R296: T, the count of the meridian and the settings confirmed for it. -/
def tMessage (p t count : Nat) (conf : List Nat) : Bytes :=
  beBytes 1 0x12 ++ beBytes 1 p ++ beBytes 8 t ++ beBytes 4 count ++ beBytes 1 conf.length ++ conf.flatMap (beBytes 4)

/-- PIPELINE_DONE (R296): DONE for a count has come from the next stage, or this stage has finished; it hands DONE on, and the first stage
chooses T. Until the stages have been aligned their counts differ, and a DONE of any count is taken (DESIGN CHOICE, log entry 94). -/
def execPipelineDone (p : Nat) (fromNext : Option Nat) (s : State) : Res :=
  match s.part p with
  | none => impossible "no such partition"
  | some pt =>
    match pt.image with
    | none => impossible "no image"
    | some im =>
      require (decide (2 ≤ im.stages) && (fromNext.isNone || !im.isLast) && (fromNext.isSome || pt.mayClose || pt.idleStep)) "no stage has finished"
        (let got := match fromNext with | some c => some c | none => pt.pipeDone
         let s1 := s.modPart p (fun pt => { pt with pipeDone := got })
         if !(pt.mayClose || pt.idleStep) || !s.pipelineUp pt im || !(im.isLast || (if pt.joined then got == some (s.merCount p) else got.isSome)) then
           .next s1
         else if im.isFirst then
           let t := s.now + (im.stages - 1) * 150 + 200
           let count := (s.merCount p + 1) % 2 ^ 32
           let conf := pt.confirmedFor im count
           .next ((s1.modPart p (fun pt => { pt with pipeT := some (t, count, conf) })).sendMessage 0 .management p (tMessage p t count conf))
         else .next (s1.sendMessage 1 .management p (beBytes 1 0x11 ++ beBytes 1 p ++ beBytes 4 (s.merCount p))))

/-- PIPELINE_T_MESSAGE (R296): a later stage takes T and hands it on. -/
def execPipelineTMessage (p t count : Nat) (confirmed : List Nat) (s : State) : Res :=
  match s.part p with
  | none => impossible "no such partition"
  | some pt =>
    match pt.image with
    | none => impossible "no image"
    | some im =>
      require (decide (2 ≤ im.stages) && !im.isFirst) "not a later stage"
        (let s1 := s.modPart p (fun pt => { pt with pipeT := some (t, count % 2 ^ 32, confirmed) })
         .next (if im.isLast then s1 else s1.sendMessage 0 .management p (tMessage p t count confirmed)))

/-- PIPELINE_MERIDIAN (R24, R25): at T, with the count and the settings that the first stage carries. -/
def execPipelineMeridian (p now : Nat) (s : State) : Res :=
  match s.part p with
  | none => impossible "no such partition"
  | some pt =>
    match pt.pipeT with
    | none => impossible "no instant is set"
    | some (t, count, conf) =>
      require (decide (t ≤ now) && (pt.mayClose || pt.idleStep)) "not yet T"
        (.next ((((s.at now).modPart p (fun pt => { pt with pipeT := none, pipeDone := none, joined := pt.whole })).meridianAt p (some count)
          (some conf)).settleAll))

/-- TARGET_ACCEPT_REPORT (R25). -/
def execTargetAcceptReport (p stage handle target : Nat) (s : State) : Res :=
  match s.part p with
  | none => impossible "no such partition"
  | some pt =>
    require (pt.image.any (fun im => im.isFirst && decide (stage < im.stages))) "not the first stage"
      (.next (s.modPart p (fun pt => { pt with accepted := pt.accepted ++ [(stage, handle, target)] })))

/-- STEP_DECISIONS (R164): a later stage keeps the decisions for its meridian of that count and forwards them. -/
def execStepDecisions (p count : Nat) (block : List Word) (ds : List Decision) (s : State) : Res :=
  match s.part p with
  | none => impossible "no such partition"
  | some pt =>
    match pt.image with
    | none => impossible "no image"
    | some im =>
      require (!im.isFirst) "the first stage decides"
        (let s1 := (s.takeMessage p .activation).1.modPart p (fun pt => { pt with decisions := pt.decisions ++ [(count, block, ds)] })
         .next (if im.isLast then s1 else s1.sendDecisions p count block ds))

/-- TOKEN_RETURN (R228): a token arrives for the first stage in the collective class. -/
def execTokenReturn (p handle beam token : Nat) (s : State) : Res :=
  match s.part p with
  | none => impossible "no such partition"
  | some _ => .next ((s.takeMessage p .collective).1.bringToken p handle beam token)

/-! ## Replay (R131, R453 to R457) -/

/-- STEP_REPLAY (R453, R454): the failed step runs again with the block of its opening meridian. -/
def execStepReplay (p : Nat) (s : State) : Res :=
  match s.part p with
  | none => impossible "no such partition"
  | some pt =>
    match pt.step, pt.image with
    | some v, some im =>
      require (v.failed.isSome && !v.repair && decide (v.attempts < 3)) "no replay is due"
        (.next ((s.bump .sv 0 0x48 1).modPart p (fun pt =>
          { pt with step := some { v with failed := none, finished := false, attempts := v.attempts + 1 },
                    ctxs := pt.atEntry im v.kind,
                    seqs := pt.seqs.map (fun q => { q with sampled := none }) })))
    | _, _ => impossible "no step runs"

/-- A model stopped by a weight pod that fails again (R131): everything ends with DECODE_FAULT. -/
def State.failModel (s : State) (p : Nat) : State :=
  let a := s.endReqsIf p (fun r => r.st == .admitted || r.st == .waiting) .decodeFault
  let s1 := ((a.1.emit p a.2).endInsetsIf p (fun v => !v.installed || v.again.isSome) .decodeFault).endStreams p .decodeFault
  let s2 := s1.buryPaused p .decodeFault
  let s3 := match (s2.part p).bind (·.draining) with
    | some d => s2.settleModel p d.ctx 0x0403 .ok
    | none => s2
  let s4 := match (s3.part p).bind (·.swap) with
    | some w => if w.active then s3.settleModel p w.ctx 0x0402 .decodeFault else s3
    | none => s3
  s4.modPart p (fun pt =>
    { pt with step := none, mstate := .loaded, draining := none, gzState := if pt.gzState = 4 then 4 else 0,
              swap := pt.swap.map (fun w => { w with active := false, readDone := false, put := [] }) })

/-- WEIGHT_RELOAD_COMPLETE (R131, R260): the weights stand again as their shard has them. A pod that fails again is counted and stops the model; data
that no source can give end the sequences of the step with TIER_FAILED. -/
def execWeightReloadComplete (p : Nat) (good : Bool) (s : State) : Res :=
  match s.part p with
  | none => impossible "no such partition"
  | some pt =>
    match pt.step, pt.image with
    | some v, some im =>
      require (v.failed.isSome && v.repair) "no reload runs"
        (let s1 := s.modPart p (fun pt => { pt with step := some { v with repair := false } })
         match good, pt.loadFault im with
         | true, none => .next (s1.loadTensors pt im)
         | true, some e => .next ((s.countPodFault p 0 3 e).failModel p)
         | false, _ =>
           if v.failed = some .decodeFault then .next ((s.bump .pod p 0x04 1).failModel p)
           else .next (s1.endWork p (pt.seqs.filter (·.inStep) |>.map (·.handle)).eraseDups .tierFailed))
    | _, _ => impossible "no step runs"

end Sys2Proof.Machine
end

