-- ==== Sys2Proof/Machine/Models.lean ====
section
/-!
DEFINITION. Model images (R308 to R317, R488): installing, the shard's sources, loading, starting, stopping and removing.
-/
namespace Sys2Proof.Machine

open Sys2Proof

/-! ## The frames of a partition's model (R308) -/

/-- An operation refused at once: its status is that of the last operation. -/
def State.modelNo (s : State) (c : Ctx) (op : Nat) (st : Status) : Res := .next ((s.reply c op st []).modelStatus c.part st)

/-- An operation of Table 4 of Model images: for the owner, on a partition that exists and is not being reset, with a handle that names something. -/
def State.modelOp (s : State) (c : Ctx) (op : Nat) (body : State → Part → Res) : Res :=
  s.serve c op .firmware true (fun s =>
    match s.part c.part with
    | none => s.answer c op .notPermitted
    | some pt =>
      if badHandle c.handle then s.modelNo c op .badFrame
      else if pt.resetting.isSome then s.modelNo c op .busyRecovery
      else body s pt)

/-- The state holds every such operation (R309). -/
def MState.busy : MState → Bool
  | .fetching | .loading | .draining | .swapping => true
  | .empty | .loaded | .started | .held => false

/-- An operation carried out at once: PENDING, then its final status. -/
def State.atOnce (s : State) (c : Ctx) (op : Nat) (st : Status) : State := (s.owe c op).settleModel c.part c op st

/-! ## The share laid out (R158, R159, R263, R321) -/

/-- PART_MODEL_CTL.SWAP_EN. -/
def State.swapEnable (s : State) (p : Nat) : Bool := (s.reg .model p 0).bit 0

/-- The sheets that every stage has room for, S (R158). The shares of the other stages lie on other modules, so what they have room for is a free
number, the same to every stage of the image (log entry 2). -/
def Image.poolSheets (im : Image) (own : Nat) : Nat :=
  ((List.range im.stages).filter (· != im.stage)).foldl (fun n st => min n (Config.stageSheets im.cart im.atlas st)) own

/-- A new image fits the partition's share as though no image were installed. -/
def State.layoutFits (s : State) (p : Nat) (pt : Part) (im : Image) : Bool :=
  let lay := layoutOf im (pt.dir im) (s.swapEnable p)
  decide (lay.pool ≤ pt.shareBytes) && decide (0 < im.poolSheets (sheetsFor im lay pt.shareBytes))

/-! ## Removing an image (R310, R317, R488) -/

/-- The model registers return to their reset values (R488). -/
def State.resetModelRegs (s : State) (p : Nat) : State :=
  let s1 := [(Blk.sfu, 0), (.narrow, 0), (.narrow, 4), (.narrow, 8), (.kv, 0), (.kv, 4)].foldl
    (fun s e => s.putReg e.1 p e.2 (Blk.reset e.1 e.2)) s
  s1.modPart p (fun pt =>
    { pt with gzState := 0, active := [0, 0, 0], swapStaged := [false, false, false], copying := [false, false, false] })

/-- Settings staged for the model that is removed: those with a target end with NOT_PERMITTED, removals of insets are done. -/
def State.dropModelStaged (s : State) (p : Nat) : State :=
  match s.part p with
  | none => s
  | some pt =>
    let s1 := pt.staged.targeted.foldl (fun s e => s.settleTargeted p e.2.2 .notPermitted) s
    let s2 := pt.staged.removeInsets.foldl (fun s e => s.settleModel p e.2 0x0302 .ok) s1
    s2.modPart p (fun pt => { pt with staged := { pt.staged with targeted := [], removeInsets := [] } })

/-- The current image and its insets removed. Its shard stays in the NAND share (R419). -/
def State.removeImage (s : State) (p : Nat) : State :=
  ((s.dropModelStaged p).resetModelRegs p).modPart p (fun pt =>
    { pt with image := none, insets := [], sheets := [], segments := [], xcache := [], swap := none, refetch := none, joined := false,
              gone := [], nodesTold := [], progs := [], places := [], room := [],
              loans := pt.loans.map (fun l => { l with copies := [] }) })

/-! ## Installing (R310 to R313) -/

/-- Step 1 of R310 after the cartouche and atlas have arrived: R301, R304, R302, R303, in that order; the image with this module's stage and, if
its cartouche is sealed, the content key. A module without a valid number or without ALIGNED holds no stage (R289, R295). A refused signature is counted. -/
def State.checkParts (s : State) (v : Install) : State × Except Status (Image × Option Bytes) :=
  let im0 : Image := { handle := v.ctx.handle, cart := v.cart, atlas := v.atlas, stage := 0, shard := [] }
  if !im0.cartOk || !im0.atlasOk then (s, .error .badFrame)
  else
    match (if s.veolo.numValid && s.veolo.aligned then atlasStage v.atlas s.veolo.num else none) with
    | none => (s, .error .notPermitted)
    | some st =>
      let im := { im0 with stage := st }
      let sig := v.cart.drop (im.sigOff + 32)
      let good := (s.keeper.signers.values.find? (fun k => Config.sm3 k == slice v.cart im.sigOff 32)).any
        (fun k => Config.sm2Verify k (v.cart.take (im.sigOff + 32)) sig)
      if !good then (s.bump .kpr 0 0x04 1, .error .signatureInvalid)
      else if im.hasKeyBlock then
        match s.keeper.sets.find? (fun b => b.setId == im.setId && b.devNum == s.veolo.num) with
        | none => (s, .error .notBound)
        | some b => (s, .ok (im, some (Config.contentKey b.priv im.keyBlock)))
      else (s, .ok (im, none))

/-- An MX boundary whose receiving stage lies on a PB-5 module, as the links to it have found when they trained (R276, R279). -/
def State.mxToPb5 (s : State) (im : Image) : Bool := im.entry 4 1 = 1 && [0, 1].any (fun i => (s.link i).pb5)

/-- A shard fits the NAND share beside those that lie there (R312). -/
def Part.shardFits (pt : Part) (len : Nat) : Bool :=
  decide ((pt.shards.map shardRoom).sum + (len + 16383) / 16384 * 16384 ≤ pt.nand.length * nandExtent)

/-- A shard that has arrived put into the NAND share behind those that lie there (log entry 25). -/
def State.storeShard (s : State) (p : Nat) (b : Bytes) : State :=
  match s.part p with
  | none => s
  | some pt =>
    if pt.shards.contains b then s
    else
      let s1 := s.layShards p (pt.shards ++ [b])
      s1.setNand { s1.nand with written := s1.nand.written + b.length }

/-- Step 5 of R310: the image is loaded, if the state and the layout allow it. -/
def State.beginLoad (s : State) (p : Nat) (im : Image) : State :=
  match s.part p with
  | none => s
  | some pt =>
    let rest := pt.restState
    if rest != .empty && rest != .loaded then s.endInstall p .notPermitted
    else if !s.layoutFits p pt im then s.endInstall p .noResource
    else
      (s.removeImage p).modPart p (fun pt => Part.trimKeys
        { pt with mstate := .loading, next := pt.next.filter (fun n => n.handle != im.handle),
                  install := pt.install.map (fun v => { v with loading := true, src := .none, image := some im }) })

/-- Steps 2, 4 and 5 of R310 on a shard that this module holds. -/
def State.shardReady (s : State) (p : Nat) (b : Bytes) : State :=
  match s.part p with
  | none => s
  | some pt =>
    match pt.install, pt.install.bind (·.image) with
    | some v, some im0 =>
      let im := { im0 with shard := b }
      match s.installCheck { pt with swapEn := s.swapEnable p } im (pt.plainShard im) with
      | some st => s.endInstall p st
      | none =>
        let s1 := s.storeShard p b
        if v.fetchOnly then
          (s1.modPart p (fun pt => { pt with next := some im, swap := pt.swap.filter (·.active) })).endInstall p .ok
        else s1.beginLoad p im
    | _, _ => s

/-- Step 3 of R310: the shard is looked for (R312), in the module's own NAND share first. -/
def State.findShard (s : State) (p : Nat) (im : Image) : State :=
  match s.part p with
  | none => s
  | some pt =>
    match pt.shards.find? (fun b => b.length == im.shardLen && Config.sm3 b == im.digest) with
    | some b => s.shardReady p b
    | none => if pt.shardFits im.shardLen then s.askAll p false im else s.endInstall p .noResource

/-- The cartouche and the atlas are complete. -/
def State.partsDone (s : State) (p : Nat) (v : Install) : State :=
  let r := s.checkParts v
  match r.2 with
  | .error st => r.1.endInstall p st
  | .ok (im, key) =>
    if r.1.mxToPb5 im then r.1.endInstall p .notPermitted
    else
      (r.1.modPart p (fun pt =>
        { pt with install := pt.install.map (fun v => { v with image := some im, stage := im.stage }),
                  contentKeys := match key with
                    | some k => NMap.insert pt.contentKeys im.keyId k
                    | none => pt.contentKeys })).findShard p im

/-- INSTALL_MODEL (R309, R310). -/
def execInstallModel (c : Ctx) (payload : Bytes) (s : State) : Res :=
  s.modelOp c 0x0401 (fun s pt =>
    let f := beAt payload 0 1
    if payload.length != 16 || decide (3 < f) || !allZero (slice payload 1 3) || decide (65536 < beAt payload 4 4) ||
        !within 20 16400 (beAt payload 8 4) || !allZero (slice payload 12 4) then s.modelNo c 0x0401 .badFrame
    else if MState.busy pt.mstate || pt.install.isSome then s.modelNo c 0x0401 .notPermitted
    else
      let v := Install.begin c f (beAt payload 4 4) (beAt payload 8 4)
      match pt.next.filter (fun im => im.handle == c.handle) with
      | some im =>
        .next (((s.owe c 0x0401).modPart c.part (fun pt => { pt with install := some { v with fetchOnly := false, image := some im } })).beginLoad c.part im)
      | none =>
        let next := if !v.fetchOnly && (pt.mstate == .empty || pt.mstate == .loaded) then .fetching else pt.mstate
        .next ((s.owe c 0x0401).modPart c.part (fun pt => { pt with install := some v, mstate := next })))

/-- An installation after bytes of its part `k`: the next part follows when the part is complete. -/
def State.afterPart (s : State) (p : Nat) : State :=
  match (s.part p).bind (·.install) with
  | none => s
  | some v =>
    if v.image.isNone && v.cart.length == v.cartLen && v.atlas.length == v.atlasLen then s.partsDone p v else s

/-- The bytes of a SHARD_DATA taken by an installation that waits for them (R311). -/
def Install.take (v : Install) (part off : Nat) (d : Bytes) : Option Install :=
  match part with
  | 0 =>
    if v.image.isNone && off == v.cart.length && decide (off + d.length ≤ v.cartLen) then some { v with cart := v.cart ++ d } else none
  | 1 =>
    if v.image.isNone && v.cart.length == v.cartLen && off == v.atlas.length && decide (off + d.length ≤ v.atlasLen) then
      some { v with atlas := v.atlas ++ d }
    else none
  | 2 =>
    if v.src == .host && off == v.shard.length && v.image.any (fun im => decide (off + d.length ≤ im.shardLen)) then
      some { v with shard := v.shard ++ d }
    else none
  | _ => none

/-- SHARD_DATA (R311): bytes for an installation open on its session and handle, or for a shard that is fetched again; no reply. -/
def execShardData (c : Ctx) (payload : Bytes) (s : State) : Res :=
  s.serve c 0x0405 .port true (fun s =>
    match s.part c.part with
    | none => s.answer c 0x0405 .notPermitted
    | some pt =>
      let d := payload.drop 16
      let good := decide (16 ≤ payload.length) && allZero (slice payload 1 7)
      let took := fun (v : Install) => if good then v.take (beAt payload 0 1) (beAt payload 8 8) d else none
      let mine := pt.install.filter (fun v => v.ctx.sess == c.sess && v.ctx.handle == c.handle && !v.loading)
      let repair := pt.refetch.filter (fun v => v.ctx.handle == c.handle && v.src == .host)
      if badHandle c.handle then s.answer c 0x0405 .badFrame
      else
        match mine, repair with
        | some v, _ =>
          match took v with
          | some w => .next ((s.modFetch c.part false (fun _ => w)).afterPart c.part)
          | none => .next (s.endInstall c.part .badFrame)
        | none, some v =>
          match took v with
          | some w => .next (s.modFetch c.part true (fun _ => w))
          | none => .next (s.failFetch c.part true .badFrame)
        | none, none => s.answer c 0x0405 .notPermitted)

/-- A part of an installation or of a repair is awaited from the host. -/
def Install.awaits (v : Install) : Bool :=
  if v.image.isNone then true else v.src == .host && v.image.any (fun im => decide (v.shard.length < im.shardLen))

/-- SHARD_DATA_TIMEOUT (R311): 10 s without a frame while a part is incomplete. -/
def execShardDataTimeout (p : Nat) (s : State) : Res :=
  match s.part p with
  | none => impossible "no such partition"
  | some pt =>
    if pt.install.any Install.awaits then .next (s.endInstall p .badFrame)
    else require (pt.refetch.any Install.awaits) "no part is awaited" (.next (s.failFetch p true .badFrame))

/-- SHARD_QUERY (R312): a neighbour's query is answered where a shard with the digest is here. -/
def execShardQuery (link : Nat) (digest : Bytes) (s : State) : Res :=
  require (decide (link < 8) && (s.link link).st == .up) "the link is not up"
    (.next (if (s.shardWith digest).isSome then s.sendMessage (link / 2) .management 0 (beBytes 1 0x19 ++ digest) else s))

/-- SHARD_QUERY_TIMEOUT (R312): the shard is fetched from the lowest-numbered neighbour that has answered, or asked of the host. -/
def execShardQueryTimeout (p : Nat) (answers : List Nat) (s : State) : Res :=
  match s.part p with
  | none => impossible "no such partition"
  | some pt =>
    let re := !pt.install.any (fun v => v.src == .query)
    require ((pt.fetch re).any (fun v => v.src == .query)) "no query runs"
      (.next (match answers with
        | [] => s.toHost p re
        | a :: as => s.askNeighbour p re (as.foldl min a)))

/-- A fetch whose bytes are all there. -/
def Install.complete (v : Install) : Bool :=
  (v.src != .none && v.src != .query) && v.image.any (fun im => v.shard.length == im.shardLen)

/-- A shard that does not have its digest (R313): it is fetched once more from the same source, then from the next one. -/
def State.shardBad (s : State) (p : Nat) (re : Bool) (v : Install) : State :=
  let s1 := s.bump .model p 0x1C 1
  match v.src with
  | .neighbour d =>
    if !v.again then (s1.modFetch p re (fun v => { v with again := true })).askNeighbour p re d
    else if v.noHost then s1.failFetch p re .digestMismatch
    else (s1.modFetch p re (fun v => { v with again := false })).toHost p re
  | _ =>
    if !v.again then (s1.modFetch p re (fun v => { v with again := true })).toHost p re
    else s1.failFetch p re .digestMismatch

/-- A repaired shard takes the old one's place (R330). -/
def State.repairShard (s : State) (p : Nat) (im : Image) (b : Bytes) : State :=
  match s.part p with
  | none => s
  | some pt =>
    let old := ((pt.image.toList ++ pt.next.toList).find? (fun c => c.digest == im.digest)).map (·.shard)
    let put := fun (c : Image) => if c.digest == im.digest then { c with shard := b } else c
    (s.layShards p (pt.shards.map (fun c => if old == some c then b else c))).modPart p (fun pt =>
      { pt with refetch := none, image := pt.image.map put, next := pt.next.map put })

/-- SHARD_ARRIVED (R313): the last byte is written to the NAND tier, its digest compared. -/
def execShardArrived (p : Nat) (s : State) : Res :=
  match s.part p with
  | none => impossible "no such partition"
  | some pt =>
    let re := !pt.install.any Install.complete
    match (pt.fetch re).filter Install.complete, ((pt.fetch re).filter Install.complete).bind (·.image) with
    | some v, some im =>
      if Config.sm3 v.shard != im.digest then .next (s.shardBad p re v)
      else if re then .next (s.repairShard p im v.shard)
      else .next (s.shardReady p v.shard)
    | _, _ => impossible "no shard has arrived whole"

/-! ## Loading (R314) -/

/-- VL_NARROW_CTL as a load sets it: no mode on the last stage, the default headroom of 8 (R62). -/
def Image.narrowCtl (im : Image) : Word :=
  let hr := if im.entry 6 1 = 0 then 8 else im.entry 6 1
  BitVec.ofNat 32 (hr * 2 ^ 16 + (if im.isLast || im.entry 4 1 = 0 then 0 else im.entry 5 1 * 2 ^ 8 + im.entry 4 1))

/-- KV_POOL_CFG as a load sets it. -/
def Image.poolCfg (im : Image) : Word :=
  BitVec.ofNat 32 (im.layers * 2 ^ 16 + im.kvFormat * 2 ^ 8 + bitAt im.kvPod 3 + im.header 7 1)

/-- The initial tables in both banks of every tile's table store (R314). -/
def State.loadTables (s : State) (pt : Part) (tables : Bytes) : State :=
  pt.tiles.foldl (fun s t => s.modTile t (fun v =>
    { v with tables := Mem.writeN 0#8 (Mem.writeN 0#8 [] (tableKey 0 0 0 0) tables) (tableKey 1 0 0 0) tables })) s

/-- The image stands in the LPDDR5X share, its programs in the bays and the tiles, its registers are set; the gazetteer's edition rises at the next
meridian (R186). -/
def State.loadImage (s : State) (p : Nat) (im : Image) : State :=
  match s.part p with
  | none => s
  | some pt =>
    let en := s.swapEnable p
    let lay := layoutOf im (pt.dir im) en
    let n := im.poolSheets (sheetsFor im lay pt.shareBytes)
    let s1 := ((s.loadTensors pt im).loadTables pt (shardTables (pt.plainShard im))).storePrograms p (Image.program (pt.plainShard im))
    let s2 := (((s1.putField .sfu p 0 0 0 im.sfuMode).putReg .narrow p 0 im.narrowCtl).putReg .kv p 0 im.poolCfg).putReg .kv p 4 (BitVec.ofNat 32 n)
    s2.modPart p (fun pt =>
      { pt with image := some im, swapEn := en, mstate := .loaded, firstStep := true, lastAmax := 0#32, lastEmpty := true,
                gzState := if im.isFirst then 0 else 4, staged := { pt.staged with edition := true },
                room := if en then [(lay.swap, swapRoom im (pt.dir im))] else [],
                xcache := List.replicate im.xcacheSlots XSlot.empty })

/-- LOAD_COMPLETE (R314): the load has ended; a shard that could not be read again ends it with TIER_FAILED and nothing installed. A pod that the NAND
tier finds at fault is counted, and again as it is reloaded, and the shard then cannot be read (R130, R131; log entry 54). -/
def execLoadComplete (p : Nat) (readable : Bool) (s : State) : Res :=
  match (s.part p).bind (·.install), ((s.part p).bind (·.install)).bind (·.image) with
  | some v, some im =>
    require v.loading "no load runs"
      (let fail := fun (s : State) => Host.Outcome.next ((s.modPart p (fun pt => { pt with mstate := .empty })).endInstall p .tierFailed)
       match readable, (s.part p).bind (fun pt => pt.loadFault im) with
       | true, none => .next ((s.loadImage p im).endInstall p .ok)
       | true, some e => fail ((s.countPodFault p 0 3 e).countPodFault p 0 3 e)
       | false, _ => fail s)
  | _, _ => impossible "no load runs"

/-! ## Starting, stopping, removing (R315 to R317) -/

/-- A target of R25: in a pipeline at least 2 ahead of the count, elsewhere still ahead of it, or 0 for the next meridian. -/
def State.targetOk (s : State) (p : Nat) (im : Image) (target : Nat) : Bool :=
  let d := (target + 2 ^ 32 - s.merCount p) % 2 ^ 32
  if im.stages = 1 then target == 0 || within 1 (2 ^ 31 - 1) d else within 2 (2 ^ 31 - 1) d

/-- Two settings with targets are of one kind. -/
def Targeted.sameKind (a b : Targeted) : Bool :=
  match a, b with
  | .start _, .start _ | .stop .., .stop .. | .swap _, .swap _ => true
  | _, _ => false

/-- A setting with a target staged (R25): a stage of a pipeline reports its acceptance to the first stage. The same setting staged before
completes with OK (R22). -/
def State.stageTargeted (s : State) (p handle target : Nat) (im : Image) (t : Targeted) : State :=
  let same := fun (e : Nat × Nat × Targeted) => e.2.1 == handle && Targeted.sameKind e.2.2 t
  let old := ((s.part p).map (fun pt => pt.staged.targeted.filter same)).getD []
  let s0 := old.foldl (fun s e => s.settleTargeted p e.2.2 .ok) s
  let s1 := s0.modPart p (fun pt =>
    { pt with staged := { pt.staged with targeted := pt.staged.targeted.filter (fun e => !same e) ++ [(target, handle, t)] },
              accepted := if old.isEmpty then pt.accepted else pt.accepted.filter (fun e => e.2.1 != handle) })
  if im.stages = 1 then s1
  else if im.isFirst then s1.modPart p (fun pt => { pt with accepted := pt.accepted ++ [(0, handle, target)] })
  else s1.sendTo (s.stageDev 0) .management p (beBytes 1 0x13 ++ beBytes 1 p ++ beBytes 1 im.stage ++ beBytes 4 handle ++ beBytes 4 target)

/-- The other stages are told that this one has received START_MODEL (R425). -/
def State.tellStarted (s : State) (p : Nat) (im : Image) : State :=
  ((List.range im.stages).filter (· != im.stage)).foldl
    (fun s st => s.sendTo (s.stageDev st) .management p (beBytes 1 0x17 ++ beBytes 1 p ++ beBytes 1 im.stage)) s

/-- START_MODEL (R315). -/
def execStartModel (c : Ctx) (payload : Bytes) (s : State) : Res :=
  s.modelOp c 0x0404 (fun s pt =>
    let target := beAt payload 0 4
    if payload.length != 4 then s.modelNo c 0x0404 .badFrame
    else
      match pt.image with
      | none => s.modelNo c 0x0404 .notPermitted
      | some im =>
        if pt.mstate != .loaded then s.modelNo c 0x0404 .notPermitted
        else if !s.adjacentUp im then s.modelNo c 0x0404 .busyRecovery
        else if !s.targetOk c.part im target then s.modelNo c 0x0404 .notPermitted
        else .next (((s.owe c 0x0404).stageTargeted c.part c.handle target im (.start c)).tellStarted c.part im))

/-- STOP_MODEL (R316). -/
def execStopModel (c : Ctx) (payload : Bytes) (s : State) : Res :=
  s.modelOp c 0x0403 (fun s pt =>
    let mode := beAt payload 0 1
    let secs := beAt payload 2 2
    let target := beAt payload 4 4
    if payload.length != 8 || decide (1 < mode) || beAt payload 1 1 != 0 || (mode == 0 && !within 1 600 secs) then s.modelNo c 0x0403 .badFrame
    else
      match pt.image with
      | none => s.modelNo c 0x0403 .notPermitted
      | some im =>
        if (pt.mstate != .started && pt.mstate != .held) || !s.targetOk c.part im target then s.modelNo c 0x0403 .notPermitted
        else .next ((s.owe c 0x0403).stageTargeted c.part c.handle target im (.stop c (mode == 1) secs)))

/-- REMOVE_MODEL (R317). -/
def execRemoveModel (c : Ctx) (payload : Bytes) (s : State) : Res :=
  s.modelOp c 0x0407 (fun s pt =>
    if !payload.isEmpty then s.modelNo c 0x0407 .badFrame
    else if (pt.mstate != .empty && pt.mstate != .loaded) || pt.install.isSome then s.modelNo c 0x0407 .notPermitted
    else
      .next ((((s.removeImage c.part).layShards c.part []).modPart c.part (fun pt =>
        { pt with next := none, contentKeys := [], mstate := .empty })).atOnce c 0x0407 .ok))

/-! ## Notices from other stages (R425, R455) -/

/-- RESET_NOTICE (R425): the work ends at the next meridian, frames are refused until the stage starts again. -/
def execResetNotice (p stage : Nat) (s : State) : Res :=
  match s.part p with
  | none => impossible "no such partition"
  | some pt =>
    require (pt.image.any (fun im => decide (stage < im.stages) && stage != im.stage)) "no such stage"
      (.next (s.modPart p (fun pt =>
        { pt with held := stage :: pt.held.filter (· != stage), joined := false, staged := { pt.staged with endAll := some stage } })))

/-- The activations of a partition that have arrived dropped (R455). -/
def State.dropReceived (s : State) (p : Nat) : State :=
  s.setVeolo { s.veolo with inbox := s.veolo.inbox.filter (fun e => !(e.2.1 == .activation && e.2.2.1 == p)) }

/-- ABORT_NOTICE (R455): a later stage that carries the same count aborts its step, hands the notice on, and drops what it has received of the
attempt. -/
def execAbortNotice (p count : Nat) (s : State) : Res :=
  match s.part p with
  | none => impossible "no such partition"
  | some pt =>
    require (pt.image.any (fun im => !im.isFirst)) "not a later stage"
      (if pt.step.any (fun v => v.count == count && !v.empty) then
        .next ((s.abortStep p .uncorrectable false).dropReceived p)
      else .next s)

end Sys2Proof.Machine
end

