-- ==== Sys2Proof/Machine/Insets.lean ====
section
/-!
DEFINITION. Replacing layers in place (R318 to R324), insets (R325 to R327), lendable copies (R328) and the shard scrub (R329, R330).
-/
namespace Sys2Proof.Machine

open Sys2Proof

/-! ## SWAP_LAYERS -/

/-- A cartouche without what R318 lets a next image change: EDITION, CALIB_SCALE, DIGEST, NONCE, the key block and the signature. -/
def Image.sameCart (im : Image) : Bytes :=
  let blank := fun (off n : Nat) (b : Bytes) => b.take off ++ List.replicate n 0#8 ++ b.drop (off + n)
  let tail := im.sigOff - (if im.hasKeyBlock then 128 else 0)
  (List.range im.stages).foldl (fun b st => blank (192 + 128 * st) 32 (blank (184 + 128 * st) 8 (blank (136 + 128 * st) 4 b)))
    (blank 20 4 (im.cart.take tail))

/-- An atlas without its EDITION, which follows the cartouche's. -/
def Image.sameAtlas (im : Image) : Bytes := im.atlas.take 4 ++ im.atlas.drop 8

/-- Everything of a shard but the contents of its tensors. -/
def sameShard (sh : Bytes) : Bytes := sh.take (64 + 32 * beAt sh 8 4) ++ shardProgram sh ++ shardTables sh

/-- The next image differs from the current one in nothing else than R318 names. -/
def Part.swappable (pt : Part) (cur next : Image) : Bool :=
  cur.sameCart == next.sameCart && cur.cart.length == next.cart.length && cur.sameAtlas == next.sameAtlas && cur.stage == next.stage &&
    sameShard (pt.plainShard cur) == sameShard (pt.plainShard next)

/-- SWAP_LAYERS (R318, R319, R324). -/
def execSwapLayers (c : Ctx) (payload : Bytes) (s : State) : Res :=
  s.modelOp c 0x0402 (fun s pt =>
    let target := beAt payload 0 4
    if payload.length != 4 then s.modelNo c 0x0402 .badFrame
    else
      match pt.image, pt.next with
      | some cur, some next =>
        if !pt.swapEn || !(pt.mstate == .started || (pt.mstate == .held && pt.swap.isSome)) || next.handle != c.handle || !pt.swappable cur next ||
            !s.targetOk c.part cur target then s.modelNo c 0x0402 .notPermitted
        else .next ((s.owe c 0x0402).stageTargeted c.part c.handle target cur (.swap c))
      | _, _ => s.modelNo c 0x0402 .notPermitted)

/-- SWAP_READ_COMPLETE (R319, R324): the layer stands in the swap room; one that cannot be read ends the swap, and admission stays held. A pod that
the NAND tier finds at fault fails the step, and the shard is fetched again before the layer is read once more (R130, R131, R324). -/
def execSwapReadComplete (p : Nat) (readable : Bool) (s : State) : Res :=
  match s.part p with
  | none => impossible "no such partition"
  | some pt =>
    match pt.swap, pt.image, pt.next with
    | some w, some im, some next =>
      require (w.active && pt.mstate == .swapping && !w.readDone && decide (w.layer < im.layers)) "no layer is read"
        (match readable, (pt.swapTensors im w).findSome? (shardFault (pt.plainShard next)) with
         | true, none => .next (s.readLayer p pt im next w)
         | true, some e => .next ((s.refetchShard p next).podFault p 0 3 e none)
         | false, _ =>
           .next ((s.modPart p (fun pt => { pt with mstate := .held, swap := some { w with active := false } })).settleModel p w.ctx 0x0402 .tierFailed))
    | _, _, _ => impossible "no swap runs"

/-! ## Insets -/

/-- A frame for the insets of a partition: refused on every stage but the first, and before a model is there. -/
def State.insetOp (s : State) (c : Ctx) (op : Nat) (body : State → Part → Image → Res) : Res :=
  s.modelOp c op (fun s pt =>
    match pt.image with
    | none => s.modelNo c op .notPermitted
    | some im => if !im.isFirst then s.modelNo c op .notPermitted else body s pt im)

/-- The tokens that an INSTALL_INSET asks for (R325): its own, or those that the sheet records of vector rows hold. None where FORM, COUNT, the
length, a token or the tensor is wrong. -/
def Part.insetTokens (pt : Part) (im : Image) (pl : Bytes) : Option (List Nat) :=
  let n := beAt pl 4 4
  if pl.length < 12 || !allZero (slice pl 1 3) then none
  else
    match beAt pl 0 1 with
    | 0 =>
      let ts := tokensAt pl 12 n
      if within 1 1000 n && pl.length == 12 + 4 * n && !pt.badToken ts then some ts else none
    | 1 =>
      match (pt.dir im).find? (fun d => d.tensor == beAt pl 8 4) with
      | some d => if pl.length == 12 && within 1 65536 n && d.inset && d.raw == n * (2 * im.width) then some (List.replicate n 0xFFFFFFFF) else none
      | none => none
    | _ => none

/-- INSTALL_INSET (R325, R326). -/
def execInstallInset (c : Ctx) (payload : Bytes) (s : State) : Res :=
  s.insetOp c 0x0301 (fun s pt im =>
    if pt.mstate != .started || (NMap.find pt.insets c.handle).isSome then s.modelNo c 0x0301 .notPermitted
    else
      match pt.insetTokens im payload with
      | none => s.modelNo c 0x0301 .badFrame
      | some ts =>
        if 256 ≤ pt.insets.length then s.modelNo c 0x0301 .noResource
        else
          let v : Inset :=
            { form := beAt payload 0 1, tokens := ts, tensor := beAt payload 8 4, count := beAt payload 4 4, done := 0, list := [], admitted := false,
              installed := false, ctx := c, candAt := s.stamp, again := none }
          .next (((s.owe c 0x0301).modPart c.part (fun pt => { pt with insets := NMap.insert pt.insets c.handle v })).setStamp (s.stamp + 1)))

/-- INSET_TIMEOUT (R326): an inset not admitted within 10 s. -/
def execInsetTimeout (p handle : Nat) (s : State) : Res :=
  require (((s.part p).bind (fun pt => NMap.find pt.insets handle)).any (fun v => !v.admitted && !v.installed)) "no such inset waits"
    (.next (s.endInset p handle .noResource))

/-- REMOVE_INSET (R241, R327): staged for the next meridian; one staged before for the same inset completes with OK (R22). -/
def execRemoveInset (c : Ctx) (payload : Bytes) (s : State) : Res :=
  s.insetOp c 0x0302 (fun s pt _ =>
    if !payload.isEmpty then s.modelNo c 0x0302 .badFrame
    else if !(NMap.find pt.insets c.handle).any (·.installed) then s.modelNo c 0x0302 .notPermitted
    else
      let s1 := (pt.staged.removeInsets.filter (fun e => e.1 == c.handle)).foldl (fun s e => s.settleModel c.part e.2 0x0302 .ok) s
      .next ((s1.owe c 0x0302).modPart c.part (fun pt =>
        { pt with staged := { pt.staged with removeInsets := pt.staged.removeInsets.filter (fun e => e.1 != c.handle) ++ [(c.handle, c)] } })))

/-! ## Lendable copies (R267, R328) -/

/-- LOAD_LENDABLE. -/
def execLoadLendable (c : Ctx) (payload : Bytes) (s : State) : Res :=
  s.modelOp c 0x0406 (fun s pt =>
    if !payload.isEmpty then s.modelNo c 0x0406 .badFrame
    else if !pt.loans.any (·.active) || pt.mstate != .started || pt.lendCopy.isSome then s.modelNo c 0x0406 .notPermitted
    else .next ((s.owe c 0x0406).modPart c.part (fun pt => { pt with lendCopy := some c })))

/-- A tensor of a plain shard as a loan holds it from an offset on: its slots, of a pod tensor their stored units, then its tag plane (R130, R267). -/
def DirEntry.intoLoan (d : DirEntry) (sh : Bytes) (m : Mem) (off : Nat) : Mem :=
  if d.pod then
    Mem.writeN 0#8 ((List.range d.slots).foldl (fun m i => Mem.writeN 0#8 m (off + 4096 * i) (shardPod sh d i)) m) (off + d.slotBytes)
      (slice sh d.tagOff (16 + 4 * d.slots))
  else Mem.writeN 0#8 m off (slice sh d.slotOff d.slotBytes)

/-- A tensor copied into the first loan that has room, behind the copies there; `false` where none has. -/
def Part.lendTensor (pt : Part) (im : Image) (d : DirEntry) : Part × Bool :=
  match pt.loans.findIdx? (fun l => l.active && !l.notice && !l.returning && decide (pt.loanUsed l + d.stored ≤ l.extents * 2 ^ 28)) with
  | some i =>
    ({ pt with loans := pt.loans.modify i (fun l =>
        { l with copies := l.copies ++ [d.tensor],
                 mem := d.intoLoan (pt.plainShard (pt.imageOf im d)) l.mem (copyOffset (pt.dir im) l.copies d.tensor) }) }, true)
  | none => (pt, false)

/-- The copies of LOAD_LENDABLE in directory order, up to the first tensor that no loan can hold. -/
def Part.lendAll (pt : Part) (im : Image) : List DirEntry → Part × Bool
  | [] => (pt, true)
  | d :: ds =>
    let r := pt.lendTensor im d
    if r.2 then Part.lendAll r.1 im ds else (r.1, false)

/-- The loans without copies, as a new LOAD_LENDABLE finds them. -/
def Part.bareLoans (pt : Part) : Part := { pt with lendCopy := none, loans := pt.loans.map (fun l => { l with copies := [] }) }

/-- LENDABLE_COPY_COMPLETE (R328): the copies stand in the loans; NO_RESOURCE where not every tensor has room. A pod that the NAND tier finds at fault
ends the copying, and the step, with DECODE_FAULT (R130, R131). -/
def execLendableCopyComplete (p : Nat) (s : State) : Res :=
  match s.part p with
  | none => impossible "no such partition"
  | some pt =>
    match pt.lendCopy, pt.image with
    | some c, some im =>
      let ds := (pt.dir im).filter DirEntry.lendable
      match ds.findSome? (fun d => shardFault (pt.plainShard (pt.imageOf im d)) d) with
      | some e => .next (((s.putPart p pt.bareLoans).podFault p 0 3 e none).settleModel p c 0x0406 .decodeFault)
      | none =>
        let r := pt.bareLoans.lendAll im ds
        .next ((s.putPart p r.1).settleModel p c 0x0406 (if r.2 then .ok else .noResource))
    | _, _ => impossible "no copy runs"

/-! ## Shard scrub (R329, R330) -/

/-- SHARD_SCRUB: a sealed shard, of the current or the next image, reread; with a mismatch it is counted, told and fetched again from outside the
module, while service goes on from the old copy. -/
def execShardScrub (p : Nat) (next mismatch : Bool) (s : State) : Res :=
  match s.part p with
  | none => impossible "no such partition"
  | some pt =>
    match (if next then pt.next else pt.image).filter Image.shardSealed with
    | none => impossible "no sealed shard"
    | some im =>
      if !mismatch then .next s
      else
        let s1 := ((s.bump .model p 0x1C 1).bump .nt 0 0x28 1).ownerEvent p .digestMismatch 0 im.handle 0
        .next (s1.refetchShard p im)

end Sys2Proof.Machine
end

