-- ==== Sys2Proof/Machine/Resets.lean ====
section
/-!
DEFINITION. Resets, clocks, input power and the power guard (R426 to R450), and the watchdog.
-/
namespace Sys2Proof.Machine

open Sys2Proof

/-! ## What the levels clear (R427, Table 2) -/

/-- The shards that lie in partitions' NAND shares, as they outlast a device reset (log entry 31). -/
def State.keptShards (s : State) : List (List Nat × List Bytes) :=
  s.nand.kept ++ (s.parts.filter (fun e => !e.2.shards.isEmpty)).map (fun e => (e.2.nand, e.2.shards))

/-- The blocks whose registers a core reset returns to their reset values (Table 1 of the register reference). -/
def coreBlocks : List Blk :=
  [.mer, .tbl, .grat, .pod, .sfu, .kv, .gz, .strm, .req, .reqDev, .dr, .tier, .tierDev, .model, .narrow, .evt, .part]

/-- What every level clears: tiles, scratchpads, LPDDR5X, partitions, tombstones, the pause area, loans, sessions, events. Frames that have
left, and the SMBus reads that were made, stay as they are. -/
def State.clearWork (s : State) : State :=
  let s1 := ((((((s.setScratch []).setDramMem []).setTiles []).setPods []).setParts []).setTombs []).setWalks []
  let s2 := ((s1.setLender { loans := [] }).setDram Dram.start).setNand { s.nand with pauseUsed := 0, kept := s.keptShards }
  (s2.setKeeper { s.keeper with bind := none }).setLesar
    { Lesar.start with out := s.lesar.out, raw := s.lesar.raw, oldEtherType := s.lesar.oldEtherType, oldUdpPort := s.lesar.oldUdpPort }

/-- The links and the place among the neighbours after a core reset: from HAIL, the number and the topology kept (R402). -/
def Veolo.rejoin (v : Veolo) : Veolo :=
  { Veolo.start with
    num := v.num, numValid := v.numValid, topo := v.topo, inbox := [],
    links := (List.range 8).map (fun i =>
      let l := NMap.get Link.start v.links i
      (i, { Link.start with st := if l.st == .disabled then .disabled else .hail, draws := l.draws })) }

/-- A survey that a core reset ends, its marks kept (R467). -/
def Survey.ended (v : Survey) : Survey := { Survey.start with failed := v.failed }

/-- The device after a core reset with a code (R402): the runtime restarts from its SRAM, the Port die serves at once;
a message of the sideband mailbox that waited for its reply gets none. -/
def State.coreReset (s : State) (code : Nat) (activation : Bool) : State :=
  let s1 := coreBlocks.foldl State.resetBlock s.clearWork
  let s2 := s1.putReg .dev 0 0x104 0
  (((((s2.setVeolo s.veolo.rejoin).electMaster).setSurvey s.survey.ended).setSmb { s.smb with busy := false }).setFlash
    { s.flash with queue := [], resumeWait := none }).setDev
    { s.dev with
      phase := .portDie, lastCause := code, sticky := s.dev.sticky ||| 2 ^ code, wdogMs := 2000, fwVersion := 0, fwImage := [],
      fwHalted := false, fwAwait := none, load := none, actQueued := none, activating := activation, reset := none, heartbeats := 0,
      readyMs := 0 }

/-- Words of a program that a deeper reset abandons (R343). -/
def Flash.torn (f : Flash) : NMap Bool :=
  match f.op with
  | some (.program _ _ a d) => (List.range (d.length / 16)).foldl (fun m i => NMap.insert m (a / 16 + i) true) f.badWords
  | some (.param _ _ new) => (List.range 256).foldl (fun m i => NMap.insert m (sectorBase (paramSector new.copy) / 16 + i) true) f.badWords
  | _ => f.badWords

/-- What a system reset and a power-on reset clear beyond a core reset: the ports, the NAND channels, the flash controller, the sideband, the
links and every register. `guard` is what is left of the guard, `regs` the registers that stay. -/
def State.clearAll (s : State) (guard : Guard) (regs : NMap Word) : State :=
  let s1 := s.clearWork
  let s2 := (((s1.setRegs regs).setTimeHi 0).setEth []).setSmb { Smb.start with deadUntil := s.now + 5000000, readOut := s.smb.readOut }
  let s3 := (s2.setLesar { s1.lesar with oldEtherType := none, oldUdpPort := none }).setNand
    { s1.nand with failed := [], dies := [], waiting := [], pauseSize := 0, pauseWant := none }
  (((s3.setFlash { Flash.start with badWords := s.flash.torn }).setVeolo Veolo.start).setSurvey Survey.start).setGuard guard

/-- The guard after a system reset that a TRIP did not cause: sensing runs on, the registers read their reset values (R450). -/
def Guard.registersReset (g : Guard) (now : Nat) : Guard :=
  { g with level := 0, junction := 0, lid := 0, hottest := 0, vin := 0, iin := 0, causeJ := 0, causeL := 0, causeP := 0, normalSince := now, thinNs := 0 }

/-- The guard's registers. -/
def State.guardRegs (s : State) : NMap Word := s.regs.filter (fun e => Blk.covers .pg e.1)

/-- The device at the release of a reset: the straps are sampled (R437), the Keeper ROM starts. -/
def Dev.released (d : Dev) : Dev :=
  { d with phase := .rom, holds := [], bootSrc := d.bootSrcPins, clkMode := d.clkModePins, faultLow := false, wdogMs := 2000 }

/-- The device in a system reset that a source of Table 1 has started. -/
def Dev.systemReset (d : Dev) (code : Nat) (hold : Option Hold) : Dev :=
  let e : Dev := { Dev.start with
    bootSrcPins := d.bootSrcPins, clkModePins := d.clkModePins, lastCause := code, sticky := d.sticky ||| 2 ^ code,
    locked := d.locked && hold != some .clock, inputWarnUv := d.inputWarnUv, inputWarnOv := d.inputWarnOv }
  match hold with
  | none => e.released
  | some h => { e with phase := .held, holds := [h], faultLow := true }

/-- A system reset (R426 to R429): `hold` says what holds it. While one is held, another source has no effect but its sticky bit and its
own hold (log entry 31). An unpowered device stays so. -/
def State.systemReset (s : State) (code : Nat) (hold : Option Hold) : State :=
  match s.dev.phase with
  | .off => s
  | .held =>
    s.setDev { s.dev with
      sticky := s.dev.sticky ||| 2 ^ code, holds := s.dev.holds ++ hold.toList.filter (fun h => !s.dev.holds.contains h),
      locked := s.dev.locked && hold != some .clock }
  | _ =>
    let s1 := if hold = some .trip then s.clearAll s.guard s.guardRegs else s.clearAll (s.guard.registersReset s.now) []
    s1.setDev (s.dev.systemReset code hold)

/-- One reason that holds a reset ends; with the last one the reset is released. -/
def State.releaseHold (s : State) (h : Hold) : State :=
  let left := s.dev.holds.filter (· != h)
  if left.isEmpty then s.setDev s.dev.released
  else s.setDev { s.dev with holds := left }

/-! ## The sources -/

/-- A reset is held for a reason. -/
def State.heldBy (s : State) (h : Hold) : Bool := s.dev.phase == .held && s.dev.holds.contains h

/-- The device has power. -/
def State.powered (s : State) : Bool := s.dev.phase != .off

/-- CORE_RESET (R402): 100 µs after the reply of a DEVICE_RESET core, or after an activation's map save. -/
def execCoreReset (s : State) : Res :=
  match s.dev.reset with
  | some j => require (j.saved && !j.system) "no core reset is due" (.next (s.coreReset (if j.activation then 8 else 7) j.activation))
  | none => impossible "no core reset is due"

/-- SYSTEM_RESET (R427, R432): 100 µs after the reply of a DEVICE_RESET with LEVEL 1. The other sources of a system reset are commands of
their own. -/
def execSystemReset (s : State) : Res :=
  match s.dev.reset with
  | some j => require (j.saved && j.system) "no system reset is due" (.next (s.systemReset 3 none))
  | none => impossible "no system reset is due"

/-- The device without power: what outlasts it is the configuration flash with the Keeper area, and the NAND weight tier. -/
def State.powerOff (s : State) : State :=
  (s.clearAll Guard.start []).setDev
    { Dev.start with phase := .off, bootSrcPins := s.dev.bootSrcPins, clkModePins := s.dev.clkModePins, sticky := 0, powerGood := false, locked := false }

/-- POWER_ON_RESET (R426, R441): the rails are in regulation, PWR_GOOD is asserted and the start sequence runs. -/
def execPowerOnReset (s : State) : Res :=
  require (!s.powered) "the device has power"
    (.next ((s.clearAll Guard.start []).setDev { Dev.released { s.dev with sticky := 1 } with lastCause := 0, powerGood := true, locked := true }))

/-- RESET_N (R430). -/
def execResetN (s : State) : Res := require s.powered "the device has no power" (.next (s.systemReset 1 (some .pin)))

/-- RESET_N_RELEASE (R430). -/
def execResetNRelease (s : State) : Res := require (s.heldBy .pin) "RESET_N is not low" (.next (s.releaseHold .pin))

/-- WATCHDOG_EXPIRY (R431). -/
def execWatchdogExpiry (s : State) : Res :=
  require (s.powered && s.dev.phase != .held) "the watchdog is not armed" (.next (s.systemReset 2 none))

/-- WATCHDOG_RESTART (R431): the runtime sets the period to 1 s. -/
def execWatchdogRestart (s : State) : Res :=
  require ([Phase.runtime, .checked, .portDie, .trained, .ready, .running, .recovery].contains s.dev.phase) "no runtime runs"
    (.next (s.setDev { s.dev with wdogMs := 1000 }))

/-- CLOCK_LOSS (R440). -/
def execClockLoss (s : State) : Res := require s.powered "the device has no power" (.next (s.systemReset 5 (some .clock)))

/-- CLOCK_RECOVERY (R440). -/
def execClockRecovery (s : State) : Res :=
  require (s.heldBy .clock) "no clock was lost" (.next ((s.setDev { s.dev with locked := true }).releaseHold .clock))

/-! ## Input power (R441) -/

/-- UNDER_VOLTAGE_WARNING. -/
def execUnderVoltageWarning (s : State) : Res :=
  require s.powered "the device has no power" (.next ((s.setSmb { s.smb with uvWarn := true }).setDev { s.dev with inputWarnUv := true }))

/-- UNDER_VOLTAGE_FAULT: PWR_GOOD deasserted, the rails off. -/
def execUnderVoltageFault (s : State) : Res := require s.powered "the device has no power" (.next s.powerOff)

/-- OVER_VOLTAGE_WARNING. -/
def execOverVoltageWarning (s : State) : Res :=
  require s.powered "the device has no power" (.next ((s.setSmb { s.smb with ovWarn := true }).setDev { s.dev with inputWarnOv := true }))

/-- OVER_VOLTAGE_FAULT: FAULT_N low, the system reset held. -/
def execOverVoltageFault (s : State) : Res :=
  require s.powered "the device has no power"
    (let s1 := s.systemReset 6 (some .overVoltage)
     .next (s1.setSmb { s1.smb with ovFault := true }))

/-- OVER_VOLTAGE_RECOVERY. -/
def execOverVoltageRecovery (s : State) : Res := require (s.heldBy .overVoltage) "no over-voltage holds the reset" (.next (s.releaseHold .overVoltage))

/-- VOLTAGE_WARNING_END: the condition ends, its bit stays set until it is read or cleared (R385). -/
def execVoltageWarningEnd (high : Bool) (s : State) : Res :=
  if high then require s.dev.inputWarnOv "no such warning" (.next (s.setDev { s.dev with inputWarnOv := false }))
  else require s.dev.inputWarnUv "no such warning" (.next (s.setDev { s.dev with inputWarnUv := false }))

/-! ## The power guard (R443 to R447) -/

/-- The level at which a condition enters, by condition (0 junction in quarter degrees, 1 lid in quarter degrees, 2 power in 0.125 mW) and level
(Table 12). -/
def guardEntry (cap cond level : Nat) : Int :=
  match cond, level with
  | 0, 1 => 400
  | 0, _ => 412
  | 1, 1 => 352
  | 1, _ => 368
  | _, 1 => cap * 8000
  | _, _ => (cap + 15) * 8000

/-- How far below its entry a level is left, and for how long in ns. -/
def guardExit (cond : Nat) : Int × Nat :=
  match cond with
  | 0 => (20, 10000000)
  | 1 => (12, 1000000000)
  | _ => (80000, 100000000)

/-- One level of one condition at a sample: whether it asks for the level, and since when its value has stayed below the exit figure. `asked`
says that it asked before. -/
def guardJudge (now cap cond level : Nat) (v : Int) (asked : Bool) (below : NMap Nat) : Bool × NMap Nat :=
  let k := 4 * cond + level
  let e := guardEntry cap cond level
  if e ≤ v then (true, NMap.erase below k)
  else if v ≤ e - (guardExit cond).1 then
    let t := (NMap.find below k).getD now
    (asked && decide (now < t + (guardExit cond).2), NMap.insert below k t)
  else (asked, NMap.erase below k)

/-- The level that a condition asks for, from the level it asked for. -/
def guardLevel (now cap cond : Nat) (v : Int) (old : Nat) (below : NMap Nat) : Nat × NMap Nat :=
  let a := guardJudge now cap cond 1 v (decide (1 ≤ old)) below
  let b := guardJudge now cap cond 2 v (decide (2 ≤ old)) a.2
  (if b.1 then 2 else if a.1 then 1 else 0, b.2)

/-- The largest of some readings, and its place. -/
def hottestOf (l : List Int) : Int × Nat :=
  ((List.range l.length).foldl (fun (b : Int × Nat) i => if b.1 < l.getD i 0 then (l.getD i 0, i) else b) (l.getD 0 0, 0))

/-- The instant since which a condition has held without a break. -/
def sinceWhen (holds : Bool) (old : Option Nat) (now : Nat) : Option Nat := if holds then some (old.getD now) else none

/-- The guard after the readings of a sample, its level still to be formed. -/
def Guard.read (g : Guard) (r : GuardReading) (now : Nat) : Guard :=
  let h : Int × Nat := match r.junctions with | some l => hottestOf l | none => (g.junction, g.hottest)
  let xs := g.samples.filter (fun e => decide (now < e.1 + 10000000)) ++ [(now, r.vin * r.iin)]
  { g with
    junction := h.1, hottest := h.2, portJunction := r.portJunction.getD g.portJunction, lid := r.lid.getD g.lid, vin := r.vin, iin := r.iin,
    samples := xs, lastSample := now, hot := sinceWhen (decide ((440 : Int) ≤ h.1)) g.hot now, overSince := sinceWhen (decide (8000 ≤ r.iin)) g.overSince now }

/-- The conditions judged at a sample (R443). -/
def Guard.judge (g : Guard) (now cap : Nat) : Guard :=
  let j := guardLevel now cap 0 g.junction g.causeJ g.below
  let l := guardLevel now cap 1 g.lid g.causeL j.2
  let p := guardLevel now cap 2 (g.average 10000000) g.causeP l.2
  let lv := max j.1 (max l.1 p.1)
  { g with level := lv, causeJ := j.1, causeL := l.1, causeP := p.1, below := p.2,
           normalSince := if lv = 0 && g.level != 0 then now else g.normalSince }

/-- A TRIP condition of Table 12 holds. -/
def Guard.trips (g : Guard) (now : Nat) : Bool :=
  g.hot.any (fun t => decide (t + 100000 ≤ now)) || decide (392 ≤ g.lid) || decide (320 * 8000 ≤ g.average 100000) ||
    g.overSince.any (fun t => decide (t + 10000 ≤ now))

/-- The cause bits of PG_LEVEL as an event carries them (R447). -/
def Guard.causes (g : Guard) : Nat :=
  bitAt (g.level != 0 && g.causeJ == g.level) 6 + bitAt (g.level != 0 && g.causeL == g.level) 5 + bitAt (g.level != 0 && g.causeP == g.level) 4

/-- The counters of a sample: entries, and whole milliseconds at LEVEL1 or LEVEL2. -/
def State.guardCounts (s : State) (old new : Guard) : State :=
  let s1 := if old.level = 0 && new.level != 0 then s.bump .pg 0 0x10 1 else s
  let s2 := if old.level != 2 && new.level = 2 then s1.bump .pg 0 0x14 1 else s1
  let thin := old.thinNs + (if old.level = 0 then 0 else new.lastSample - old.lastSample)
  let s3 := if thin / 1000000 = 0 then s2 else s2.bump .pg 0 0x18 (thin / 1000000)
  s3.setGuard { new with thinNs := thin % 1000000 }

/-- The event of a change of level (R447): entry into LEVEL1 or LEVEL2 from below, and the return to NORMAL. None while a reset is held. -/
def State.guardEvent (s : State) (old new : Guard) : State :=
  if s.dev.phase != .held && (decide (old.level < new.level) || (new.level = 0 && old.level != 0)) then
    s.devEvent .ok 0 0 (new.level + new.causes)
  else s

/-- GUARD_SAMPLE (R443 to R447): the readings, the averages, the level, and the TRIP. -/
def execGuardSample (g : GuardReading) (s : State) : Res :=
  require (s.powered && (g.junctions.all (fun l => l.length == 64))) "the guard does not sample"
    (let s0 := s.at g.now
     let old := s0.guard
     let new := (old.read g s0.now).judge s0.now ((s0.reg .pg 0 4).field 7 0)
     let s1 := (s0.guardCounts old new).guardEvent old new
     let s2 := if new.level = 0 then s1 else s1.setSmb { s1.smb with otWarn := true }
     if new.trips s0.now then
       let s3 := (s2.setGuard { s2.guard with tripAt := s0.now }).systemReset 4 (some .trip)
       .next (s3.setSmb { s3.smb with otFault := true })
     else .next s2)

/-- TRIP_RELEASE (R446): at least 1 s after the TRIP, with every condition asking for NORMAL. -/
def execTripRelease (s : State) : Res :=
  require (s.heldBy .trip && decide (s.guard.tripAt + 1000000000 ≤ s.now) && s.guard.level == 0 && !s.guard.trips s.now) "the TRIP still holds"
    (.next (s.releaseHold .trip))

end Sys2Proof.Machine
end

