-- ==== Sys2Proof/Machine/Sessions.lean ====
section
/-!
DEFINITION. Sessions and their events (R217, R365 to R370, R378 to R380, R408 to R410): opening and its roles, closing and what follows from it,
acknowledgement and retransmission, registration and sending of events.
-/
namespace Sys2Proof.Machine

open Sys2Proof

/-! ## What a closed session leaves (R366) -/

/-- A frame's context after session `n` has closed. -/
def orphan (n : Nat) (c : Ctx) : Ctx := if c.sess = n then { c with sess := closedSess } else c

/-- The settings staged for a partition. -/
def Staged.orphan (n : Nat) (g : Staged) : Staged :=
  let o := Machine.orphan n
  { g with
    cancels := g.cancels.map (fun e => (e.1, e.2.map o)), pauses := g.pauses.map (fun e => (e.1, o e.2.1, e.2.2)),
    parks := g.parks.map (fun e => (e.1, e.2.map o)), closes := g.closes.map (fun e => (e.1, e.2.map o)),
    opens := g.opens.map (fun e => (e.1, o e.2)), resize := g.resize.map (fun r => { r with ctx := o r.ctx }),
    takeOut := g.takeOut.map (fun e => (e.1, o e.2)), removeInsets := g.removeInsets.map (fun e => (e.1, o e.2)),
    targeted := g.targeted.map (fun e => (e.1, e.2.1, match e.2.2 with
      | .start c => .start (o c)
      | .stop c now seconds => .stop (o c) now seconds
      | .swap c => .swap (o c))),
    reset := g.reset.map o }

/-- A partition. -/
def Part.orphan (n : Nat) (pt : Part) : Part :=
  let o := Machine.orphan n
  { pt with
    resetting := pt.resetting.map (fun e => (o e.1, e.2)), install := pt.install.map (fun v => { v with ctx := o v.ctx }),
    refetch := pt.refetch.map (fun v => { v with ctx := o v.ctx }), swap := pt.swap.map (fun v => { v with ctx := o v.ctx }),
    draining := pt.draining.map (fun v => { v with ctx := o v.ctx }), lendCopy := pt.lendCopy.map o,
    insets := pt.insets.map (fun e => (e.1, { e.2 with ctx := o e.2.ctx })),
    reqs := pt.reqs.map (fun e => (e.1, { e.2 with
      pauseBy := e.2.pauseBy.map o, sess := e.2.sess.map (fun k => if k = n then closedSess else k) })),
    streams := pt.streams.map (fun e => (e.1, { e.2 with sess := if e.2.sess = n then closedSess else e.2.sess })),
    staged := Staged.orphan n pt.staged }

/-- An operation of the flash controller. -/
def FlashOp.orphan (n : Nat) (p : FlashOp) : FlashOp :=
  let o := Machine.orphan n
  match p with
  | .program c opcode addr data => .program (o c) opcode addr data
  | .param c opcode new => .param (c.map o) opcode new
  | .erase sector (.answer c) => .erase sector (.answer (o c))
  | .erase sector (.param c opcode new) => .erase sector (.param (c.map o) opcode new)
  | .erase sector (.twin c left off data) => .erase sector (.twin (o c) left off data)

/-- The Port die after session `n` has closed: its number is free, what it was still sent and a message that was being assembled are
discarded, a complete message runs on. -/
def Lesar.orphan (n : Nat) (l : Lesar) : Lesar :=
  let o := Machine.orphan n
  let left := (NMap.find l.sessions n).map (fun v => (v.role, v.part))
  { l with
    sessions := NMap.erase l.sessions n,
    mboxes := (l.mboxes.filter (fun m => m.sess != n || m.complete)).map (fun m =>
      if m.sess = n then { m with sess := closedSess, left := left } else m),
    owed := l.owed.map (fun v => { v with ctx := o v.ctx }), regWaits := l.regWaits.map (fun v => { v with ctx := o v.ctx }),
    evts := (l.evts.map (fun e => (e.1, { e.2 with sess := if e.2.sess = some n then none else e.2.sess }))).filter
      (fun e => e.2.sess.isSome || !e.2.held.isEmpty) }

/-- A session closes (R366, R217): its requests and streams end at the next meridian, its frames are discarded, its number is free. -/
def State.closeSession (s : State) (n : Nat) : State :=
  if (s.session n).isNone then s
  else
    let o := Machine.orphan n
    let s1 := s.sessionWorkClosed n
    let s2 := (s1.setParts (s1.parts.map (fun e => (e.1, Part.orphan n e.2)))).setLesar (Lesar.orphan n s1.lesar)
    let s3 := s2.setFlash
      { s1.flash with
        op := s1.flash.op.map (FlashOp.orphan n), susp := s1.flash.susp.map (FlashOp.orphan n), resumeWait := s1.flash.resumeWait.map o,
        queue := s1.flash.queue.map (fun e => (e.1, o e.2.1, e.2.2)) }
    let s4 := s3.setDev
      { s1.dev with
        fwAwait := s1.dev.fwAwait.map (fun c => c.map o),
        load := s1.dev.load.map (fun l => { l with ctx := o l.ctx, sess := if l.sess = n then closedSess else l.sess }),
        actQueued := s1.dev.actQueued.map o, reset := s1.dev.reset.map (fun j => { j with ctxs := j.ctxs.map o }) }
    let s5 := s4.setKeeper { s1.keeper with bind := s1.keeper.bind.map (fun b => { b with sess := if b.sess = n then closedSess else b.sess }) }
    s5.setSurvey
      { s1.survey with
        s0 := s1.survey.s0.map (fun e => (e.1, o e.2)), out := s1.survey.out.map (fun e => (e.1, e.2.1.map o, e.2.2)),
        gzOut := s1.survey.gzOut.map o, s2 := s1.survey.s2.map o }

/-! ## Acknowledgement (R367, R369) -/

/-- Frames that waited for the peer's window sent while it has room; `fuel` bounds their number. -/
def State.pumpSession (s : State) (n : Nat) : Nat → State
  | 0 => s
  | fuel + 1 =>
    match s.session n with
    | none => s
    | some v =>
      match v.waiting with
      | [] => s
      | f :: fs =>
        if v.inFlight < v.window then
          ((s.modSession n (fun v => { v with waiting := fs })).sendSeq n f).pumpSession n fuel
        else s

/-- The peer of a session expects number `a` next: what it has taken is not kept longer. A number outside what is in flight changes nothing. -/
def State.acknowledge (s : State) (n a : Nat) : State :=
  match s.session n with
  | none => s
  | some v =>
    let d := (a + 2 ^ 32 - v.peerAck) % 2 ^ 32
    if d = 0 || v.inFlight < d then s
    else
      let s1 := s.modSession n (fun v =>
        { v with peerAck := a % 2 ^ 32, unacked := v.unacked.filter (fun u => decide (d ≤ (u.1.seq + 2 ^ 32 - v.peerAck) % 2 ^ 32)) })
      s1.pumpSession n v.waiting.length

/-- An ACK frame of a session (R367): SEQ 0, the number expected next. -/
def State.sendAck (s : State) (n : Nat) : State :=
  match s.session n with
  | none => s
  | some v =>
    s.sendBare (s.viaOf v)
      { gen := v.gen, kind := 4, flags := 1, sess := n, part := v.part, seq := 0, ackNum := v.rxNext, handle := 0, opcode := 0, status := .ok,
        payload := [], via := Via.nowhere, pcp := 0, dscp := 0 }

/-- A frame comes from the peer that a session is bound to (R365). -/
def Session.boundTo (v : Session) (via : Via) : Bool := v.src == via.src && v.carrier == via.carrier

/-- The answer of a header refusal (R364): an ACK frame outside sequencing with the status, HANDLE and OPCODE, and the number that the session
expects next, if it is the source's. -/
def State.refuseHeader (s : State) (via : Via) (gen sess part handle op : Nat) (st : Status) : State :=
  let mine := (s.session sess).filter (fun v => v.boundTo via)
  s.sendBare via
    { gen := gen, kind := 4, flags := if mine.isSome then 1 else 0, sess := sess, part := part, seq := 0,
      ackNum := (mine.map (·.rxNext)).getD 0, handle := handle, opcode := op, status := st, payload := [], via := via, pcp := 0, dscp := 0 }

/-- A valid frame of a session has come by a port, under an EtherType or UDP port: the device's frames follow it (R362, R366). -/
def State.heardOn (s : State) (n : Nat) (via : Via) : State := s.modSession n (fun v => { v with port := via.port, lesarId := via.lesarId })

/-- ACK (R367): from the session's own source; from another it is answered UNKNOWN_SESSION (R365). -/
def execAck (via : Via) (sess ackNum : Nat) (s : State) : Res :=
  if (s.session sess).any (fun v => v.boundTo via) then .next ((s.heardOn sess via).acknowledge sess ackNum)
  else .next (s.refuseHeader via 3 sess 0xFFFF 0 0 .unknownSession)

/-- RETRANSMIT_TIMEOUT (R369): the frame again with RETRY, or, after its tenth transmission, the end of the session. -/
def execRetransmitTimeout (sess seq : Nat) (s : State) : Res :=
  match (s.session sess).bind (fun v => (v.unacked.find? (fun u => u.1.seq == seq)).map (fun u => (v, u))) with
  | none => impossible "no such frame is unacknowledged"
  | some (v, f, k) =>
    if 10 ≤ k then .next (s.closeSession sess)
    else
      let home := s.viaOf v
      let g : OutFrame := { f with flags := if f.flags / 2 % 2 = 1 then f.flags else f.flags + 2, ackNum := v.rxNext,
                                   via := { f.via with port := home.port, endpoint := home.endpoint } }
      let s1 := s.modSession sess (fun v => { v with unacked := v.unacked.map (fun u => if u.1.seq = seq then (g, k + 1) else u) })
      .next ((s1.transmit g).bump .ls 0 0x14 1)

/-- SESSION_IDLE_TIMEOUT (R366). -/
def execSessionIdleTimeout (sess : Nat) (s : State) : Res :=
  require (s.session sess).isSome "the session is not open" (.next (s.closeSession sess))

/-- CLOSE_SESSION (R366): answered OK, then the session closes. -/
def execCloseSession (c : Ctx) (payload : Bytes) (s : State) : Res :=
  s.serve c 0x0605 .early false (fun s =>
    if (s.session c.sess).isNone then s.answer c 0x0605 .notPermitted
    else if !payload.isEmpty then s.answer c 0x0605 .badFrame
    else .next ((s.reply c 0x0605 .ok []).closeSession c.sess))

/-! ## Opening (R365, R408, R409) -/

/-- The message that a credential signs (R408): the identity digest, PARTITION, ISN. -/
def credentialMessage (part isn : Nat) : Bytes := Config.sm3 Config.identityKey ++ beBytes 2 part ++ beBytes 4 isn

/-- A credential verifies under a registered key, with an ISN above its mark (R409). -/
def credentialGood (key : Option Bytes) (mark part isn : Nat) (cred : Bytes) : Bool :=
  key.any (fun k => Config.sm2Verify k (credentialMessage part isn) cred) && decide (mark < isn)

/-- The role that a credential gives, with the marks raised, or the refusal and its payload (Table 2 of Security and partitions). -/
def State.decideRole (s : State) (part isn : Nat) (cred : Bytes) : State × Except (Status × Bytes) Role :=
  let k := s.keeper
  if allZero cred then
    if part != 0xFFFF then (s, .ok .client) else if k.ownerKey.isNone then (s, .ok .devOwner) else (s, .error (.notPermitted, []))
  else if credentialGood k.ownerKey k.ownerMark part isn cred then (s.setKeeper { k with ownerMark := isn }, .ok .devOwner)
  else
    match s.part part with
    | some pt =>
      if credentialGood pt.ownerKey pt.ownerMark part isn cred then (s.modPart part (fun pt => { pt with ownerMark := isn }), .ok .partOwner)
      else (s.bump .kpr 0 0x04 1, .error (.signatureInvalid, beBytes 4 (if pt.ownerKey.isSome then pt.ownerMark else k.ownerMark)))
    | none => (s.bump .kpr 0 0x04 1, .error (.signatureInvalid, beBytes 4 k.ownerMark))

/-- The answer of an OPEN_SESSION, which is not sequenced. -/
def State.answerOpen (s : State) (via : Via) (c : Ctx) (gen : Nat) (st : Status) (pl : Bytes) : State :=
  s.sendBare via { replyFrame { c with sess := 0xFFFF } 0x0604 st (if gen = 3 then 48 else 0) pl with gen := gen }

/-- A new session of a role, with the reply of its OPEN_SESSION. The device's ISN is its own choice (log entry 2). -/
def State.newSession (s : State) (via : Via) (c : Ctx) (gen : Nat) (payload : Bytes) (role : Role) : State :=
  let f := s.fresh
  let n := lowestFree s.lesar.sessions
  let isn := beAt payload 0 4
  let w := beAt payload 4 2
  let pl := beBytes 4 f.1.toNat ++ beBytes 1 (if role = .client then 0 else 1) ++ [0#8] ++ beBytes 2 64 ++
    beBytes 4 ((s.reg .ls 0 0).field 31 16)
  let r : OutFrame := { replyFrame { c with sess := n } 0x0604 .ok (if gen = 3 then 49 else 1) pl with gen := gen, ackNum := isn }
  let v : Session :=
    { role := role, part := c.part, endpoint := if via.endpoint = 0xFFFE then 0xFFFF else via.endpoint, gen := gen, src := via.src, carrier := via.carrier,
      port := via.port, lesarId := via.lesarId, isn := isn, rxNext := isn, txNext := f.1.toNat, peerAck := f.1.toNat, window := if w = 0 then 64 else w,
      started := false, early := [], unacked := [], waiting := [], swallow := false, openReply := some r }
  (f.2.setLesar { f.2.lesar with sessions := NMap.insert f.2.lesar.sessions n v }).sendBare via r

/-- OPEN_SESSION (R365). A retry that finds its session still untouched gets the reply again. -/
def execOpenSession (via : Via) (c : Ctx) (retry : Bool) (gen : Nat) (payload : Bytes) (s : State) : Res :=
  let no := fun (s : State) (st : Status) (pl : Bytes) => Host.Outcome.next (s.answerOpen via c gen st pl)
  let isn := beAt payload 0 4
  let w := beAt payload 4 2
  match s.serveRefusal c 0x0604 .early with
  | some st => no s st []
  | none =>
    if via.endpoint < 0xFFFE && via.endpoint != c.part then no s .notPermitted []
    else if payload.length != 72 || beAt payload 6 2 != 0 || !(w == 0 || (decide (16 ≤ w) && decide (w ≤ 128))) then no s .badFrame []
    else if c.part != 0xFFFF && (s.part c.part).isNone then no s .notPermitted []
    else
      let old := if retry then s.lesar.sessions.find? (fun e => e.2.boundTo via && e.2.isn == isn && e.2.part == c.part && !e.2.started) else none
      match old.bind (fun e => e.2.openReply) with
      | some r => .next (s.sendBare via r)
      | none =>
        if 4096 ≤ s.lesar.sessions.length then no s .noResource []
        else
          match s.decideRole c.part isn (payload.drop 8) with
          | (s1, .error e) => no s1 e.1 e.2
          | (s1, .ok role) => .next (s1.newSession via c gen payload role)

/-! ## Events (R378, R379) -/

/-- A session may register, or take, the events of partition `p` or of the device (0xFFFF). -/
def Session.takesEvents (v : Session) (p : Nat) : Bool := v.role == .devOwner || (p != 0xFFFF && v.role == .partOwner && v.part == p)

/-- EVENT_REGISTER (R378): what is held is sent as soon as the session is registered (R380). -/
def execEventRegister (c : Ctx) (payload : Bytes) (s : State) : Res :=
  s.serve c 0x0608 .port false (fun s =>
    let n := beAt payload 0 2
    let p := c.part
    if payload.length != 2 then s.answer c 0x0608 .badFrame
    else if p != 0xFFFF && (s.part p).isNone then s.answer c 0x0608 .notPermitted
    else if (s.session c.sess).any (fun v => v.takesEvents p) && (s.session n).any (fun v => v.gen == 3 && v.takesEvents p) then
      let s1 := (s.putEvtStream p { s.evtStream p with sess := some n }).reply c 0x0608 .ok []
      let s2 := s1.flushEvents p
      .next (if p = 0xFFFF then (s2.lesar.evts.keys.filter (fun k => decide (0x10000 ≤ k))).foldl State.flushEvents s2 else s2)
    else s.answer c 0x0608 .notPermitted)

/-- EVENT_HOLD_EXPIRY (R379): the batch of an event stream that has been held is sent. -/
def execEventHoldExpiry (stream : Nat) (s : State) : Res :=
  require ((s.evtSession stream).isSome && !(s.evtStream stream).held.isEmpty) "no batch is held for a session" (.next (s.flushEvents stream))

end Sys2Proof.Machine
end

