-- ==== Sys2Proof/Machine/Lesar.lean ====
section
/-!
DEFINITION. Lesar frames as they arrive (R357 to R364, R367, R368, R371 to R375, R381, R393): the headers of the three generations, the header
checks in their order, sequencing, mailboxes and segments, DISCOVER and STATUS, and what each state of the device makes of a frame.
-/
namespace Sys2Proof.Machine

open Sys2Proof

/-! ## Headers (Tables 3 and 5) -/

/-- A generation-3 header as its 28 bytes before CHECK. -/
def Hdr.bytes28 (h : Hdr) : Bytes :=
  beBytes 1 h.version ++ beBytes 1 h.kind ++ beBytes 2 h.flags ++ beBytes 2 h.part ++ beBytes 2 h.sess ++ beBytes 4 h.seq ++
    beBytes 4 h.ackNum ++ beBytes 4 h.handle ++ beBytes 2 h.opcode ++ beBytes 2 h.status ++ beBytes 4 h.length

/-- A generation-3 frame as it travels, from a header whose LENGTH and CHECK are formed from the payload. -/
def buildFrame (h : Hdr) (pl : Bytes) : Bytes :=
  let b := Hdr.bytes28 { h with length := pl.length }
  b ++ beBytes 4 (crc32c (b ++ pl)) ++ pl

/-- A generation-3 header read. -/
def parseHdr3 (raw : Bytes) : Hdr :=
  { version := beAt raw 0 1, kind := beAt raw 1 1, flags := beAt raw 2 2, part := beAt raw 4 2, sess := beAt raw 6 2, seq := beAt raw 8 4,
    ackNum := beAt raw 12 4, handle := beAt raw 16 4, opcode := beAt raw 20 2, status := beAt raw 22 2, length := beAt raw 24 4,
    check := beAt raw 28 4 }

/-- A generation-1 or generation-2 header read. -/
def parseHdr12 (raw : Bytes) : Hdr :=
  { version := beAt raw 0 1, kind := beAt raw 1 1, flags := beAt raw 2 1, part := beAt raw 3 1, sess := beAt raw 4 2, seq := beAt raw 6 4,
    ackNum := beAt raw 10 4, handle := beAt raw 14 4, opcode := beAt raw 18 2, status := beAt raw 20 2, length := beAt raw 22 2, check := 0 }

/-- Bytes of the header of a generation. -/
def hdrLen (version : Nat) : Nat := if version = 1 || version = 2 then 24 else 32

/-- A received header. -/
def parseHdr (raw : Bytes) : Hdr := if hdrLen (beAt raw 0 1) = 24 then parseHdr12 raw else parseHdr3 raw

/-- The header's partition as a partition of the device (R372). -/
def State.mapPart (s : State) (h : Hdr) : Nat :=
  if h.version = 1 then (s.reg .ls 0 0x04).field 6 0 else if h.version = 2 && h.part = 0xFF then 0xFFFF else h.part

/-! ## Header checks (R364, R372, R373) -/

/-- Opcodes that a kind allows (Table 7 of Host ports). -/
def kindAllows (kind op : Nat) : Bool :=
  match kind with
  | 1 => op / 256 == 1 || op / 256 == 2 || op == 0x0405
  | 2 => (decide (0x0300 ≤ op) && decide (op < 0x0A00)) && op != 0x0405
  | 4 | 5 | 6 => op == 0
  | _ => false

/-- The operations of the manual that a host sends. -/
def opNames (op : Nat) : Bool :=
  within 0x0101 0x0105 op || within 0x0201 0x0204 op || within 0x0301 0x0302 op || within 0x0401 0x0407 op || within 0x0501 0x0505 op ||
    within 0x0601 0x0608 op || within 0x0701 0x070F op || within 0x0801 0x0806 op || op == 0x0901

/-- Opcodes that a generation serves (Table 6). -/
def inScope (gen op : Nat) : Bool :=
  match gen with
  | 1 => within 0x0101 0x0103 op || op == 0x0110 || within 0x0604 0x0607 op
  | 2 => within 0x0100 0x06FF op && op != 0x0608
  | _ => true

/-- What the header checks before CHECK find (R364), on a header as received with `present` bytes behind it. -/
def Hdr.refusal (h : Hdr) (present : Nat) : Option Status :=
  let old := h.version = 1 || h.version = 2
  if !within 1 3 h.version then some .badVersion
  else if !within 1 6 h.kind || (if old then decide (8 ≤ h.flags) else decide (64 ≤ h.flags)) ||
      (if h.version = 1 then h.part != 0 else if h.version = 2 then decide (15 < h.part) && h.part != 0xFF
        else decide (127 < h.part) && h.part != 0xFFFF) || decide (present < h.length) then some .badFrame
  else if old && decide (h.kind ≤ 2) && !inScope h.version h.opcode then some .badVersion
  else if !kindAllows h.kind h.opcode then some .badFrame
  else if decide (h.kind ≤ 2) && !opNames h.opcode then some .badFrame
  else none

/-! ## Mailboxes -/

/-- An opcode whose messages take a mailbox (R374): those of firmware, and those of the Keeper that come through mailboxes. -/
def usesMbox (op : Nat) : Bool := serverOf op = .firmware || within 0x0601 0x0603 op

/-- A mailbox of the kind that a generation uses is free, and its session holds fewer than 8 (R374). -/
def State.mboxFree (s : State) (n gen : Nat) : Bool :=
  let ms := s.lesar.mboxes.filter (fun m => usesMbox m.opcode && m.sess != sidebandSess)
  decide ((ms.filter (fun m => (m.gen == 3) == (gen == 3))).length < (if gen = 3 then 64 else 32)) &&
    decide ((ms.filter (fun m => m.sess == n)).length < 8)

/-- `f` after a next state. -/
def andThen (r : Res) (f : State → Res) : Res :=
  match r with
  | .next s => f s
  | .fault e => .fault e
  | .refused e => .refused e

/-- A DATA operation, which the Port die parser serves at once (R214). -/
def State.runData (s : State) (c : Ctx) (op : Nat) (pl : Bytes) : Res :=
  match op with
  | 0x0101 => execOpenRequest c pl s
  | 0x0102 => execAppendTokens c pl s
  | 0x0103 => execCancelRequest c pl s
  | 0x0104 => execPauseRequest c pl s
  | 0x0105 => execResumeRequest c pl s
  | 0x0201 => execOpenStream c pl s
  | 0x0202 => execStreamChunk c pl s
  | 0x0203 => execParkStream c pl s
  | 0x0204 => execCloseStream c pl s
  | 0x0405 => execShardData c pl s
  | _ => s.answer c op .badFrame

/-- A complete MGMT message: the Port die serves its own at once, the others wait for their processor (R373, R374). -/
def State.runMgmt (s : State) (gen : Nat) (c : Ctx) (op : Nat) (pl : Bytes) : Res :=
  match op with
  | 0x0605 => execCloseSession c pl s
  | 0x0606 => execRegRead c pl s
  | 0x0607 => execRegWrite c pl s
  | 0x0608 => execEventRegister c pl s
  | _ =>
    .next (s.setLesar { s.lesar with mboxes := s.lesar.mboxes ++
      [{ sess := c.sess, left := none, gen := gen, part := c.part, handle := c.handle, opcode := op, payload := pl, complete := true }] })

/-! ## Segments (R375) -/

/-- Whether the session's later segments belong to a refused message. -/
def State.setSwallow (s : State) (n : Nat) (b : Bool) : State := s.modSession n (fun v => { v with swallow := b })

/-- The message that a session is sending. -/
def State.assembling (s : State) (n : Nat) : Option Mbox := s.lesar.mboxes.find? (fun m => !m.complete && m.sess == n)

/-- A message refused before its end: answered once, its mailbox freed. -/
def State.refuseMessage (s : State) (m : Mbox) : State :=
  (s.setLesar { s.lesar with mboxes := s.lesar.mboxes.erase m }).reply
    { sess := m.sess, part := m.part, handle := m.handle, via := none } m.opcode .badFrame []

/-- What refuses a message at its first frame. `there` says that it came to an endpoint that serves its partition (R357). -/
def State.firstRefusal (s : State) (c : Ctx) (gen op : Nat) (there : Bool) (len : Nat) : Option Status :=
  if !there then some .notPermitted
  else
    match s.serveRefusal c op (serverOf op) with
    | some st => some st
    | none =>
      if op = 0x0604 || decide ((if gen = 3 then 4096 else 232) < len) then some .badFrame
      else if usesMbox op && !s.mboxFree c.sess gen then some .noResource
      else none

/-- The first frame of a message. -/
def State.beginMessage (s : State) (gen : Nat) (c : Ctx) (op : Nat) (pl : Bytes) (there last : Bool) : Res :=
  match s.firstRefusal c gen op there pl.length with
  | some st => .next ((s.reply c op st []).setSwallow c.sess (!last))
  | none =>
    let s1 := s.setSwallow c.sess false
    if last then s1.runMgmt gen c op pl
    else
      .next (s1.setLesar { s1.lesar with mboxes := s1.lesar.mboxes ++
        [{ sess := c.sess, left := none, gen := gen, part := c.part, handle := c.handle, opcode := op, payload := pl, complete := false }] })

/-- A MGMT frame of a session in its turn. -/
def State.takeMgmt (s : State) (gen : Nat) (c : Ctx) (flags op : Nat) (pl : Bytes) (there : Bool) : Res :=
  let first := gen != 3 || flags / 16 % 2 == 1
  let last := gen != 3 || flags / 32 % 2 == 1
  match s.assembling c.sess with
  | some m =>
    if first then (s.refuseMessage m).beginMessage gen c op pl there last
    else if m.opcode != op || m.handle != c.handle || decide (4096 < m.payload.length + pl.length) then
      .next ((s.refuseMessage m).setSwallow c.sess (!last))
    else
      let s1 := s.setLesar { s.lesar with mboxes := s.lesar.mboxes.erase m }
      if last then s1.runMgmt gen { c with part := m.part } op (m.payload ++ pl)
      else .next (s1.setLesar { s1.lesar with mboxes := s1.lesar.mboxes ++ [{ m with payload := m.payload ++ pl }] })
  | none =>
    if first then s.beginMessage gen c op pl there last
    else if (s.session c.sess).any (·.swallow) then .next (s.setSwallow c.sess (!last))
    else s.answer c op .badFrame

/-- SEGMENT_TIMEOUT: 10 s without a segment. -/
def execSegmentTimeout (sess : Nat) (s : State) : Res :=
  match s.assembling sess with
  | none => impossible "no message is being assembled"
  | some m => .next ((s.refuseMessage m).setSwallow sess true)

/-! ## Sequencing (R368, R369) -/

/-- The frame that a session expects next, processed: its number is taken first. -/
def State.processFrame (s : State) (n : Nat) (via : Via) (h : Hdr) (pl : Bytes) : Res :=
  let s1 := s.modSession n (fun v => { v with rxNext := (v.rxNext + 1) % 2 ^ 32, started := true })
  let c : Ctx := { sess := n, part := h.part, handle := h.handle, via := none }
  let there := decide (0xFFFE ≤ via.endpoint) || via.endpoint == h.part
  if h.kind = 1 then (if there then s1.runData c h.opcode pl else s1.answer c h.opcode .notPermitted)
  else s1.takeMgmt h.version c h.flags h.opcode pl there

/-- The frames held behind a gap that has been filled, in their order; `fuel` bounds their number. -/
def State.processHeld (n : Nat) : Nat → State → Res
  | 0, s => .next s
  | fuel + 1, s =>
    match (s.session n).bind (fun v => (NMap.find v.early v.rxNext).map (fun e => (v.rxNext, e))) with
    | none => .next s
    | some (k, via, h, pl) =>
      andThen ((s.modSession n (fun v => { v with early := NMap.erase v.early k })).processFrame n via h pl) (State.processHeld n fuel)

/-- What has been processed acknowledged (R369): by a frame that was sent since and carries the number, or by an ACK frame. -/
def State.ackProcessed (s : State) (n sent : Nat) : State :=
  match s.session n with
  | none => s
  | some v =>
    if (s.lesar.out.drop sent).any (fun f => f.sess == n && f.flags % 2 == 1 && f.ackNum == v.rxNext) then s else s.sendAck n

/-- A sequenced frame of a session by its number: processed, held, acknowledged again or dropped. -/
def State.sequence (s : State) (n : Nat) (via : Via) (h : Hdr) (pl : Bytes) : Res :=
  match s.session n with
  | none => .next s
  | some v =>
    let d := (h.seq + 2 ^ 32 - v.rxNext) % 2 ^ 32
    if d = 0 then
      andThen (andThen (s.processFrame n via h pl) (State.processHeld n 64)) (fun t => .next (t.ackProcessed n s.lesar.out.length))
    else if d < 64 then
      .next ((s.modSession n (fun v => { v with early := NMap.insert v.early h.seq (via, h, pl) })).sendAck n)
    else if 2 ^ 31 ≤ d then .next (s.sendAck n)
    else .next (s.bump .ls 0 0x10 1)

/-! ## DISCOVER and STATUS (R381) -/

/-- The device number as DISCOVER and quotes show it. -/
def State.numField (s : State) : Nat := (if s.veolo.numValid then 0x8000 else 0) + s.veolo.num % 4096

/-- Payload of a DISCOVER reply (Table 9). -/
def State.discoverPayload (s : State) : Bytes :=
  let port := fun (i : Nat) =>
    let v := NMap.get { up := false, master := false, speed := 0, sqi := 0 } s.eth i
    beBytes 1 (if v.up then 128 + v.speed % 8 else 0)
  [0x50#8, 0x42#8, 0x37#8, 0x34#8, 0x36#8, 0x30#8, 0x2D#8, 0x4D#8, 0x34#8, 0x41#8, 0#8, 0#8] ++ beBytes 2 s.numField ++ [7#8] ++
    beBytes 1 (Phase.state s.dev.phase) ++ Config.sm3 Config.identityKey ++ beBytes 4 (imageVersion s.dev.rtImage) ++ beBytes 4 s.dev.fwVersion ++
    (List.range 4).flatMap port ++ beBytes 4 0

/-- Payload of a STATUS reply (Table 9). -/
def State.statusPayload (s : State) : Bytes :=
  beBytes 1 (Phase.state s.dev.phase) ++ beBytes 1 s.guard.level ++ beBytes 2 s.parts.length ++ beBytes 2 s.lesar.sessions.length ++ beBytes 2 0 ++
    beBytes 8 s.now ++ beBytes 4 (s.regValue .dev 0 0x100).toNat ++ beBytes 4 (s.regValue .cf 0 0x1C).toNat ++ beBytes 8 0

/-- Whether a source may be answered now: at most once every 10 ms. -/
def State.rateOk (s : State) (src : Nat) : Bool := !s.lesar.lastReply.any (fun e => e.1 == src && decide (s.now < e.2 + 10000000))

/-- A reply of DISCOVER (kind 5) or STATUS (kind 6) to a source, or the count of one dropped for its rate. -/
def State.greet (s : State) (via : Via) (gen kind handle : Nat) (st : Status) (pl : Bytes) : State :=
  if s.rateOk via.src then
    (s.sendBare via
      { gen := gen, kind := kind, flags := 4, sess := 0xFFFF, part := 0xFFFF, seq := 0, ackNum := 0, handle := handle, opcode := 0, status := st,
        payload := pl, via := via, pcp := 0, dscp := 0 }).setLesar
      { (s.sendBare via
          { gen := gen, kind := kind, flags := 4, sess := 0xFFFF, part := 0xFFFF, seq := 0, ackNum := 0, handle := handle, opcode := 0, status := st,
            payload := pl, via := via, pcp := 0, dscp := 0 }).lesar with
        lastReply := (via.src, s.now) :: s.lesar.lastReply.filter (fun e => e.1 != via.src && decide (s.now < e.2 + 10000000)) }
  else s.bump .ls 0 0x18 1

/-- The status that DISCOVER and STATUS carry: BUSY_STARTING until firmware runs (R392 to R394). -/
def State.greetStatus (s : State) : Status := if s.dev.phase = .running || s.dev.phase = .recovery then .ok else .busyStarting

/-- A phase in which the Port die sees frames. -/
def Phase.hears (p : Phase) : Bool :=
  p == .portDie || p == .trained || p == .ready || p == .running || p == .recovery || p == .factory || p == .netBoot

/-- A frame that a port hears: in recovery mode and network boot port 0 alone (R352, R392). -/
def State.hears (s : State) (via : Via) : Bool :=
  Phase.hears s.dev.phase && (via.port == 0 || !(s.dev.phase == .recovery || s.dev.phase == .netBoot))

/-- DISCOVER and STATUS reach the device-level endpoint and the broadcast address only. -/
def State.greets (s : State) (via : Via) (gen kind handle : Nat) (len : Nat) (pl : Bytes) : State :=
  if !s.hears via then s
  else if via.endpoint < 0xFFFE then s.refuseHeader via gen 0xFFFF 0xFFFF handle 0 .notPermitted
  else if len != 0 then s.greet via gen kind handle .badFrame []
  else s.greet via gen kind handle s.greetStatus pl

/-- DISCOVER. -/
def execDiscover (via : Via) (handle : Nat) (s : State) : Res := .next (s.greets via 3 5 handle 0 s.discoverPayload)

/-! ## Recovery mode (R352, R412) -/

/-- Whether the trailer of a recovery frame lets it act: none where it does, and then the mark is raised; otherwise the answer, if any. `head` is
bytes 0 to 27 of its header. -/
def State.recoveryGate (s : State) (c : Ctx) (op : Nat) (head pl : Bytes) : State × Option (Option (Status × Bytes)) :=
  let k := s.keeper
  let body := pl.take (pl.length - 72)
  let n := beAt pl (pl.length - 72) 8
  let no := (s.bump .kpr 0 0x04 1, some (some (Status.signatureInvalid, beBytes 8 k.commandMark)))
  if pl.length < 72 then (s, some (some (.badFrame, [])))
  else
    match k.ownerKey with
    | none => (s, none)
    | some key =>
      if !Config.sm2Verify key (head ++ body ++ beBytes 8 n) (pl.drop (pl.length - 64)) || n < k.commandMark then no
      else
        match k.lastCommand with
        | some (m, f) =>
          if m = n then (s, some (if f.flags / 4 % 2 = 1 then some (f.status, f.payload) else none)) else raise k n
        | none => if n = k.commandMark then no else raise k n
where
  /-- The mark raised; the reply is still to come. -/
  raise (k : Keeper) (n : Nat) : State × Option (Option (Status × Bytes)) :=
    (s.setKeeper { k with commandMark := n, lastCommand := some (n, { replyFrame c op .ok 0 [] with flags := 0 }) }, none)

/-- STATUS with a payload: empty but in recovery mode, where it carries the signature of R412 over the header `head`. -/
def State.statusFrame (s : State) (via : Via) (gen handle : Nat) (head payload : Bytes) : State :=
  if s.dev.phase = .recovery && s.hears via && decide (0xFFFE ≤ via.endpoint) then
    let c : Ctx := { sess := 0xFFFF, part := 0xFFFF, handle := handle, via := some via }
    match s.recoveryGate c 0 head payload with
    | (s1, some none) => s1
    | (s1, some (some e)) => s1.greet via gen 6 handle e.1 e.2
    | (s1, none) =>
      if payload.length = 72 then
        let s2 := s1.greet via gen 6 handle .ok s1.statusPayload
        s2.keepReply c { replyFrame c 0 .ok 0 s1.statusPayload with kind := 6 }
      else s1.greet via gen 6 handle .badFrame []
  else if s.dev.phase = .netBoot || s.dev.phase = .factory then s
  else s.greets via gen 6 handle payload.length s.statusPayload

/-- STATUS. A signed one of recovery mode is read with the header that R352 and R363 give it: both segment flags, device level, no session. -/
def execStatus (via : Via) (handle : Nat) (payload : Bytes) (s : State) : Res :=
  .next (s.statusFrame via 3 handle
    (Hdr.bytes28 { version := 3, kind := 6, flags := 48, part := 0xFFFF, sess := 0xFFFF, seq := 0, ackNum := 0, handle := handle, opcode := 0,
                   status := 0, length := payload.length, check := 0 }) payload)

/-- A command of recovery mode that the signature lets act. -/
def State.runRecovery (s : State) (c : Ctx) (op : Nat) (pl : Bytes) : Res :=
  match op with
  | 0x070F => execCfLogRead c pl [] s
  | 0x070B => execCfTwinWrite c pl s
  | 0x070C => execCfBootSwap c pl s
  | 0x070D => execCfStartClear c pl s
  | _ => s.answer c op .notPermitted

/-- A MGMT frame of recovery mode, with SESSION 0xFFFF. -/
def State.recoveryFrame (s : State) (via : Via) (raw : Bytes) (h : Hdr) (pl : Bytes) : Res :=
  let c : Ctx := { sess := 0xFFFF, part := h.part, handle := h.handle, via := some via }
  let no := fun (s : State) (st : Status) (b : Bytes) =>
    Host.Outcome.next (s.sendBare via (replyFrame c h.opcode st 48 b))
  if h.flags / 16 % 4 != 3 then no s .badFrame []
  else if !(h.opcode == 0x070F || h.opcode == 0x070B || h.opcode == 0x070C || h.opcode == 0x070D) || via.endpoint != 0xFFFF then no s .notPermitted []
  else
    match s.recoveryGate c h.opcode (raw.take 28) pl with
    | (s1, some none) => .next s1
    | (s1, some (some e)) => no s1 e.1 e.2
    | (s1, none) => s1.runRecovery c h.opcode (pl.take (pl.length - 72))

/-! ## Network boot (R392) -/

/-- A LOAD_FIRMWARE frame of network boot: one TYPE 1 image, from the first source that sends FIRST, under the ordering of R396. -/
def State.netBootFrame (s : State) (via : Via) (handle : Nat) (pl : Bytes) : State :=
  let c : Ctx := { sess := 0xFFFF, part := 0xFFFF, handle := handle, via := some via }
  let say := fun (s : State) (st : Status) => s.sendBare via (replyFrame c 0x0601 st 48 [])
  let d := s.dev
  let fl := beAt pl 0 1
  let off := beAt pl 4 4
  let data := pl.drop 8
  let ended := fun (s : State) => s.setDev { s.dev with load := none, netSrc := none }
  if d.netSrc.any (· != via.src) then say s .notPermitted
  else if pl.length < 8 || decide (4 ≤ fl) || beAt pl 1 3 != 0 || off % 16 != 0 || data.length % 16 != 0 || decide (4080 < data.length) then
    say s .badFrame
  else
    let sofar : Option Bytes := if fl % 2 = 1 then some [] else d.load.map (·.bytes)
    match sofar with
    | none => say s .badFrame
    | some bs =>
      let img := bs ++ data
      if off != bs.length || decide (16777216 < img.length) then say (ended s) .badFrame
      else if fl / 2 % 2 = 0 then
        say (s.setDev { d with netSrc := some via.src, load := some { sess := 0xFFFF, ctx := c, gen := 3, bytes := img, last := false } }) .ok
      else
        match imageCheck 1 img with
        | some st => say (if st = .signatureInvalid then (ended s).bump .kpr 0 0x04 1 else ended s) st
        | none =>
          if imageVersion img < s.params.floor then say (ended s) .notPermitted
          else say ((ended s).setDev { (ended s).dev with rtImage := img, rtFromNet := true, phase := .runtime }) .ok

/-- NETWORK_BOOT_IMAGE: a message of the image that the ROM waits for at port 0. -/
def execNetworkBootImage (via : Via) (handle : Nat) (payload : Bytes) (s : State) : Res :=
  require (s.dev.phase == .netBoot && via.port == 0) "the ROM does not wait for an image" (.next (s.netBootFrame via handle payload))

/-! ## Frames before READY_FOR_FIRMWARE (R393) -/

/-- A frame held, or dropped with the buffer full or 8 of its source in it. -/
def State.holdFrame (s : State) (via : Via) (raw : Bytes) : State :=
  let b := s.lesar.startBuf
  if b.length < 64 && decide ((b.filter (fun e => e.1.src == via.src)).length < 8) then
    s.setLesar { s.lesar with startBuf := b ++ [(via, raw)] }
  else s.setDev { s.dev with startDrops := min 0xFFFFFFFF (s.dev.startDrops + 1) }

/-! ## The whole reception -/

/-- A frame with no session (R365, R375, R392, R352). -/
def State.sessionless (s : State) (via : Via) (raw : Bytes) (h : Hdr) (pl : Bytes) : Res :=
  let c : Ctx := { sess := 0xFFFF, part := h.part, handle := h.handle, via := some via }
  if h.kind = 2 && s.dev.phase = .recovery then s.recoveryFrame via raw h pl
  else if h.kind = 2 && s.dev.phase = .netBoot then
    if h.opcode = 0x0601 then
      if h.flags / 16 % 4 != 3 then .next (s.sendBare via (replyFrame c 0x0601 .badFrame 48 [])) else .next (s.netBootFrame via h.handle pl)
    else .next s
  else if h.kind = 2 && h.opcode = 0x0604 then
    if h.version = 3 && h.flags / 16 % 4 != 3 then .next (s.answerOpen via c h.version .badFrame [])
    else execOpenSession via c (h.flags / 2 % 2 == 1) h.version pl s
  else .next (s.refuseHeader via h.version h.sess h.part h.handle h.opcode .unknownSession)

/-- A frame that has passed the header checks but the session check; `h` names its partition as the device's. -/
def State.goodFrame (s : State) (via : Via) (raw : Bytes) (h : Hdr) (pl : Bytes) : Res :=
  let no := fun (s : State) (st : Status) => Host.Outcome.next (s.refuseHeader via h.version h.sess h.part h.handle h.opcode st)
  if h.kind = 5 || h.kind = 6 then
    if h.sess != 0xFFFF then no s .badFrame
    else if h.kind = 5 then .next (s.greets via h.version 5 h.handle pl.length s.discoverPayload)
    else if s.dev.phase = .recovery && h.flags / 16 % 4 != 3 then .next (s.greet via h.version 6 h.handle .badFrame [])
    else .next (s.statusFrame via h.version h.handle (raw.take 28) pl)
  else if s.dev.phase = .factory then .next s
  else if h.sess = 0xFFFF then s.sessionless via raw h pl
  else
    match s.session h.sess with
    | none => no s .unknownSession
    | some v =>
      if !v.boundTo via then no s .unknownSession
      else if v.gen != h.version then no s .badVersion
      else
        let s1 := s.heardOn h.sess via
        let s2 := if h.flags % 2 = 1 then s1.acknowledge h.sess h.ackNum else s1
        if h.kind = 4 then .next s2 else s2.sequence h.sess via h pl

/-- A Lesar frame by its bytes: the header checks of R364 in their order, then the frame. -/
def State.lesarFrame (s : State) (via : Via) (raw : Bytes) : Res :=
  let h := parseHdr raw
  let k := hdrLen h.version
  let pl := slice raw k h.length
  let g := { h with part := s.mapPart h }
  let no := fun (s : State) (st : Status) =>
    Host.Outcome.next (s.refuseHeader via (if within 1 3 h.version then h.version else 3) h.sess g.part h.handle h.opcode st)
  match h.refusal (raw.length - k) with
  | some st => no s st
  | none =>
    if h.version = 3 && crc32c (raw.take 28 ++ pl) != h.check then no (s.bump .ls 0 0x0C 1) .badFrame
    else s.goodFrame via raw g pl

/-- A frame of the start (R393): DISCOVER and STATUS are answered, others held. -/
def State.startFrame (s : State) (via : Via) (raw : Bytes) : State :=
  let h := parseHdr raw
  let k := hdrLen h.version
  if (h.kind = 5 || h.kind = 6) && h.sess = 0xFFFF && (h.refusal (raw.length - k)).isNone &&
      !(h.version = 3 && crc32c (raw.take 28 ++ slice raw k h.length) != h.check) then
    s.greets via h.version h.kind h.handle h.length (if h.kind = 5 then s.discoverPayload else s.statusPayload)
  else s.holdFrame via raw

/-- START_FRAME_HOLD (R393). -/
def execStartFrameHold (via : Via) (raw : Bytes) (s : State) : Res :=
  require (s.dev.phase == .portDie || s.dev.phase == .trained) "the device does not hold frames" (.next (s.startFrame via raw))

/-- What a port makes of a frame before its header is read. -/
inductive PortCheck where
  | take | drop | ignore
  deriving DecidableEq, Repr

/-- Bytes that the carrier adds within the limit of R356. -/
def carrierBytes : Carrier → Nat
  | .eth => 0
  | .udp4 => 28
  | .udp6 => 48

/-- An endpoint has an address of a carrier (R357, R358). -/
def State.endpointServes (s : State) (ep : Nat) (c : Carrier) : Bool :=
  if 0xFFFE ≤ ep then c != .udp4 || s.reg .ethDev 0 0x0C != 0
  else (s.part ep).any (fun pt => match c with | .eth => true | .udp4 => pt.ip4 != 0 | .udp6 => pt.ip6 != 0)

/-- An EtherType or UDP port is Lesar's: the present one, or for 10 s the one before (R362). -/
def State.isLesar (s : State) (via : Via) : Bool :=
  via.lesarId == s.ownId via.carrier ||
    (if via.carrier = .eth then s.lesar.oldEtherType else s.lesar.oldUdpPort) == some via.lesarId

/-- The checks of R356 to R359 and R362: dropped and counted, not the device's, or taken. -/
def State.portCheck (s : State) (via : Via) (raw : Bytes) : PortCheck :=
  let limit := if (s.reg .eth via.port 0).bit 29 then 9000 else 1500
  if limit < carrierBytes via.carrier + raw.length then .drop
  else if !s.isLesar via || !s.endpointServes via.endpoint via.carrier || decide (raw.length < hdrLen (beAt raw 0 1)) then .ignore
  else if (s.reg .ethDev 0 0x08).bit 0 && via.vid != s.endpointVid via.endpoint then .drop
  else if via.endpoint = 0xFFFE && !(beAt raw 1 1 == 5 || beAt raw 1 1 == 6) then .drop
  else .take

/-- A port's link is up. -/
def State.linkUp (s : State) (port : Nat) : Bool := (NMap.find s.eth port).any (·.up)

/-- ETH_FRAME_RECEIVE (R368, R393): a frame at a port whose link is up. -/
def execEthFrameReceive (via : Via) (raw : Bytes) (s : State) : Res :=
  require (s.linkUp via.port) "the port has no link"
    (if !s.hears via then .next s
    else
      match s.portCheck via raw with
      | .ignore => .next s
      | .drop => .next (s.bump .eth via.port 0x10 1)
      | .take =>
        let s1 := s.bump .eth via.port 0x08 1
        if s.dev.phase = .portDie || s.dev.phase = .trained then .next (s1.startFrame via raw) else s1.lesarFrame via raw)

/-! ## Ports (R354 to R361) -/

/-- ETH_LINK_UP: as auto-negotiation resolves it, or as a forced port is set. -/
def execEthLinkUp (port speed : Nat) (master : Bool) (sqi : Nat) (s : State) : Res :=
  let r := s.reg .eth port 0
  require (decide (port < 4) && decide (speed ≤ 4) && decide (sqi ≤ 7) && r.bit 31 && Phase.hears s.dev.phase &&
      (r.bit 30 || (speed == r.field 2 0 && master == r.bit 27))) "the link cannot come up so"
    (.next (s.setEth (NMap.insert s.eth port { up := true, master := master, speed := speed, sqi := sqi })))

/-- ETH_LINK_DOWN. -/
def execEthLinkDown (port : Nat) (s : State) : Res :=
  require (s.linkUp port) "the port has no link" (.next (s.setEth (NMap.erase s.eth port)))

/-- ETH_FRAME_DROP (R355 to R359, R362): every cause counts in ETH_RX_DROP_CNT. -/
def execEthFrameDrop (port : Nat) (_why : DropCause) (s : State) : Res :=
  require (s.linkUp port) "the port has no link" (.next (s.bump .eth port 0x10 1))

/-- SEC_FRAME_FAIL (R361). -/
def execSecFrameFail (port : Nat) (s : State) : Res :=
  require (s.linkUp port && (s.reg .eth port 0).bit 28) "the port runs no link security" (.next (s.bump .eth port 0x14 1))

/-- OLD_ASSOCIATION_EXPIRY (R361): 10 ms after a change of key. -/
def execOldAssociationExpiry (port dir : Nat) (s : State) : Res :=
  require (s.keeper.secOld.contains (port, dir)) "no old association is accepted"
    (.next (s.setKeeper { s.keeper with secOld := s.keeper.secOld.filter (· != (port, dir)) }))

/-- LESAR_CARRIER_CHANGE_EXPIRY (R362): the value before the last change is no longer accepted. -/
def execLesarCarrierChangeExpiry (s : State) : Res :=
  require (s.lesar.oldEtherType.isSome || s.lesar.oldUdpPort.isSome) "no old value is accepted"
    (.next (s.setLesar { s.lesar with oldEtherType := none, oldUdpPort := none }))

/-- The MAC address that an IPv4 address of the device stands at, on a port (R357, R358). -/
def State.mac4 (s : State) (port a : Nat) : Option Nat :=
  if a = 0 then none
  else if (s.reg .ethDev 0 0x0C).toNat = a then some (Config.portMac port)
  else (s.parts.find? (fun e => e.2.ip4 == a)).map (fun e => e.2.mac)

/-- The device's global IPv6 address, 0 for none. -/
def State.devIp6 (s : State) : Nat :=
  ((s.reg .ethDev 0 0x10).toNat * 2 ^ 96 + (s.reg .ethDev 0 0x14).toNat * 2 ^ 64 + (s.reg .ethDev 0 0x18).toNat * 2 ^ 32 +
    (s.reg .ethDev 0 0x1C).toNat)

/-- The link-local IPv6 address of a port: modified EUI-64 of its MAC address (R358). -/
def linkLocal (mac : Nat) : Nat :=
  0xFE80 * 2 ^ 112 + ((mac / 2 ^ 24) ^^^ 0x020000) * 2 ^ 40 + 0xFFFE * 2 ^ 24 + mac % 2 ^ 24

/-- The MAC address that an IPv6 address of the device stands at, on a port. -/
def State.mac6 (s : State) (port a : Nat) : Option Nat :=
  if a = 0 then none
  else if linkLocal (Config.portMac port) = a || s.devIp6 = a then some (Config.portMac port)
  else (s.parts.find? (fun e => e.2.ip6 == a)).map (fun e => e.2.mac)

/-- An answer outside Lesar, by its port: what it says, before the bytes that its own standard puts round it. -/
def State.answerRaw (s : State) (port : Nat) (bs : Bytes) : State :=
  (s.setLesar { s.lesar with raw := s.lesar.raw ++ [(port, bs)] }).bump .eth port 0x0C 1

/-- ARP_REQUEST (R357): the answer says which MAC address has the target. -/
def execArpRequest (via : Via) (target : Nat) (s : State) : Res :=
  .next (if s.hears via then
    match s.mac4 via.port target with
    | some m => s.answerRaw via.port (beBytes 1 1 ++ beBytes 6 m ++ beBytes 4 target ++ beBytes 6 via.src)
    | none => s
  else s)

/-- NEIGHBOUR_SOLICITATION (R357). -/
def execNeighbourSolicitation (via : Via) (target : Nat) (s : State) : Res :=
  .next (if s.hears via then
    match s.mac6 via.port target with
    | some m => s.answerRaw via.port (beBytes 1 2 ++ beBytes 6 m ++ beBytes 16 target ++ beBytes 16 via.src)
    | none => s
  else s)

/-- ECHO_REQUEST (R357): the data returns to its source. -/
def execEchoRequest (via : Via) (v6 : Bool) (data : Bytes) (s : State) : Res :=
  .next (if s.hears via && decide (via.endpoint != 0xFFFE) && s.endpointServes via.endpoint (if v6 then .udp6 else .udp4) then
    s.answerRaw via.port (beBytes 1 (if v6 then 4 else 3) ++ beBytes 16 via.src ++ data)
  else s)

end Sys2Proof.Machine
end

