-- ==== Sys2Proof/Machine/Partitions.lean ====
section
/-!
DEFINITION. Partitions (R417 to R425, R485): creation, resizing, endpoints, the partition reset and deletion.
-/
namespace Sys2Proof.Machine

open Sys2Proof

/-! ## What is free (R417, R419) -/

/-- A staged resize reserves what the flag `bit` selects. -/
def Part.reserves (pt : Part) (bit : Nat) : Option Resize := pt.staged.resize.filter (fun r => r.flags / 2 ^ bit % 2 == 1)

/-- A quad that no partition holds or has reserved, and that holds no tile marked failed (R463). -/
def State.quadFree (s : State) (q : Nat) : Bool :=
  !s.parts.any (fun e => e.2.quads.contains q || (e.2.reserves 0).any (fun r => r.quads.contains q)) &&
    !(quadTiles q).any (fun t => s.survey.failed.contains t)

/-- NAND extents that partitions hold or have reserved. -/
def State.nandTaken (s : State) : List Nat :=
  s.parts.flatMap (fun e => e.2.nand ++ ((e.2.reserves 1).map (fun r => r.nand.filter (fun x => !e.2.nand.contains x))).getD [])

/-- The free NAND extents in increasing number: as many as the tier offers beside the pause area and a larger one that is wanted (R262, R417). -/
def State.freeNand (s : State) : List Nat :=
  let taken := s.nandTaken
  let offered := (3600 - 3 * max s.nand.pauseSize (s.nand.pauseWant.getD 0)) / 16
  ((List.range 225).filter (fun x => !taken.contains x)).take (offered - taken.length)

/-- The gazetteer quota that partitions other than `p` hold or have reserved. -/
def State.quotaTaken (s : State) (p : Nat) : Nat :=
  ((s.parts.filter (fun e => e.1 != p)).map (fun e => max (s.gzQuota e.1) (((e.2.reserves 3).map (·.quota)).getD 0))).sum

/-! ## Payloads (Table 7 of Security and partitions) -/

/-- The quads of a bitmap of 16 bytes: bit q of byte q div 8, at bit q mod 8. -/
def quadsOf (bs : Bytes) : List Nat := (List.range 128).filter (fun q => ((bs.getD (q / 8) 0#8).toNat / 2 ^ (q % 8)) % 2 == 1)

/-- A public key of the form of R404. -/
def keyOk (k : Bytes) : Bool := k.length == 65 && k.headD 0#8 == 4#8 && Config.onCurve k

/-- The fields MAC, VID, IPV4, IPV6 of an endpoint from an offset. -/
def endpointAt (pl : Bytes) (off : Nat) : Nat × Nat × Nat × Nat := (beAt pl off 6, beAt pl (off + 6) 2, beAt pl (off + 8) 4, beAt pl (off + 12) 16)

/-- A field of an endpoint outside Table 7: a group MAC address, or a VLAN identifier above 4,094. -/
def endpointBad (e : Nat × Nat × Nat × Nat) : Bool := e.1 / 2 ^ 40 % 2 == 1 || decide (4094 < e.2.1)

/-- An address of an endpoint is used by another endpoint than partition `p`'s (R418). -/
def State.addressUsed (s : State) (p : Nat) (e : Nat × Nat × Nat × Nat) : Bool :=
  let macs := (List.range 4).map Config.portMac
  macs.contains e.1 || (e.2.2.1 != 0 && (s.reg .ethDev 0 0x0C).toNat == e.2.2.1) ||
    (e.2.2.2 != 0 && (s.devIp6 == e.2.2.2 || macs.any (fun m => linkLocal m == e.2.2.2))) ||
    s.parts.any (fun v => v.1 != p && (v.2.mac == e.1 || (e.2.2.1 != 0 && v.2.ip4 == e.2.2.1) || (e.2.2.2 != 0 && v.2.ip6 == e.2.2.2)))

/-! ## CREATE_PARTITION (R418) -/

/-- A field of CREATE_PARTITION outside Table 7. -/
def createBad (pl : Bytes) : Bool :=
  pl.length != 132 || !within 0 127 (beAt pl 0 1) || !within 0 7 (beAt pl 1 1) || beAt pl 2 2 != 0 || (quadsOf (slice pl 4 16)).isEmpty ||
    !within 1 984 (beAt pl 20 2) || !within 0 225 (beAt pl 22 2) || !within 0 1048576 (beAt pl 24 4) || endpointBad (endpointAt pl 28) ||
    !within 0 1 (beAt pl 56 1) || beAt pl 57 7 != 0 ||
    (if beAt pl 56 1 = 1 then !keyOk (slice pl 64 65) else !allZero (slice pl 64 65)) || beAt pl 129 3 != 0

/-- A partition that has just been created: no model, nothing staged, its first step open. -/
def Part.created (now : Nat) : Part :=
  { cls := 0, quads := [], dram := [], nand := [], mac := 0, vid := 0, ip4 := 0, ip6 := 0, ownerKey := none, ownerMark := 0, resetting := none,
    held := [], lost := [], mstate := .empty, image := none, next := none, shards := [], install := none, refetch := none, swap := none,
    draining := none, lendCopy := none, insets := [], contentKeys := [], swapEn := false, progs := [], places := [], room := [],
    step := some (StepSt.opened now 0 0 [] 0), ctxs := [],
    staged := Staged.none, joined := false, pipeDone := none, pipeT := none, accepted := [], decisions := [], reqs := [], seqs := [], streams := [], sheets := [],
    gone := [], nodesTold := [], segments := [], gzWalkOf := [], gzState := 0, active := [0, 0, 0], swapStaged := [false, false, false], copying := [false, false, false],
    load := none, loadQ := [], bmpCopying := false, bmpQ := [], loans := [], loanAsk := [], xcache := [], reqLimit := Blk.reset .req 0,
    reqCtl := Blk.reset .req 4, firstStep := true, lastAmax := 0, lastEmpty := false }

/-- The blocks of a partition's registers but its own PART_ block, which outlasts a partition reset. -/
def partBlocks : List Blk := [.mer, .tbl, .grat, .pod, .sfu, .kv, .gz, .strm, .req, .tier, .model, .narrow, .evt]

/-- Every register of a partition but PART_ at its reset value. -/
def State.resetPartRegs (s : State) (p : Nat) : State := partBlocks.foldl (fun s b => s.resetRegs b p) s

/-- The shards that a device reset left in exactly these extents (R427): they are the partition's; what else lies in one of the extents is zero-filled
and no longer kept. -/
def State.takeKept (s : State) (nand : List Nat) : State × List Bytes :=
  match s.nand.kept.find? (fun e => e.1 == nand) with
  | some e => (s.setNand { s.nand with kept := s.nand.kept.erase e }, e.2)
  | none =>
    let hit := s.nand.kept.filter (fun e => e.1.any (fun x => nand.contains x))
    let s1 := (hit.flatMap (fun e => e.1)).foldl State.clearNandExtent s
    (s1.setNand { s1.nand with kept := s1.nand.kept.filter (fun e => !e.1.any (fun x => nand.contains x)) }, [])

/-- A partition created from a payload that has passed its checks. -/
def State.createPart (s : State) (p : Nat) (pl : Bytes) : State :=
  let quads := quadsOf (slice pl 4 16)
  let nand := s.freeNand.take (beAt pl 22 2)
  let e := endpointAt pl 28
  let k := s.takeKept nand
  let s1 := (k.1.resetPartRegs p).resetRegs .part p
  let s2 := (s1.putField .gz p 0 20 0 (beAt pl 24 4)).putField .grat p 0 24 16 (4 * quads.headD 0)
  s2.putPart p
    { Part.created s.now with
      cls := beAt pl 1 1, quads := quads, dram := s.freeDram.take (beAt pl 20 2), nand := nand, mac := e.1, vid := e.2.1, ip4 := e.2.2.1,
      ip6 := e.2.2.2, ownerKey := if beAt pl 56 1 = 1 then some (slice pl 64 65) else none, shards := k.2 }

/-- CREATE_PARTITION. -/
def execCreatePartition (c : Ctx) (payload : Bytes) (s : State) : Res :=
  s.serve c 0x0501 .firmware true (fun s =>
    let p := beAt payload 0 1
    if (c.part != 0xFFFF && c.part != p) || createBad payload then s.answer c 0x0501 .badFrame
    else if (s.part p).isSome || s.addressUsed p (endpointAt payload 28) then s.answer c 0x0501 .notPermitted
    else if (quadsOf (slice payload 4 16)).any (fun q => !s.quadFree q) || decide (s.freeDram.length < beAt payload 20 2) ||
        decide (s.freeNand.length < beAt payload 22 2) || decide (1048576 < s.quotaTaken p + beAt payload 24 4) then s.answer c 0x0501 .noResource
    else (s.createPart p payload).answer c 0x0501 .ok)

/-! ## SET_ENDPOINT (R418) -/

/-- SET_ENDPOINT. -/
def execSetEndpoint (c : Ctx) (payload : Bytes) (s : State) : Res :=
  s.serve c 0x0505 .firmware true (fun s =>
    match s.part c.part with
    | none => s.answer c 0x0505 .notPermitted
    | some pt =>
      let e := endpointAt payload 0
      if pt.resetting.isSome then s.answer c 0x0505 .busyRecovery
      else if payload.length != 28 || endpointBad e then s.answer c 0x0505 .badFrame
      else if s.addressUsed c.part e then s.answer c 0x0505 .notPermitted
      else
        (s.modPart c.part (fun pt => { pt with mac := e.1, vid := e.2.1, ip4 := e.2.2.1, ip6 := e.2.2.2 })).answer c 0x0505 .ok)

/-! ## RESIZE_PARTITION (R419) -/

/-- A field of RESIZE_PARTITION outside Table 7. The lower bounds hold for what its flags select. -/
def resizeBad (pl : Bytes) : Bool :=
  let fl := beAt pl 2 1
  pl.length != 28 || !within 0 127 (beAt pl 0 1) || !within 0 7 (beAt pl 1 1) || decide (16 ≤ fl) || beAt pl 3 1 != 0 ||
    (fl % 2 == 1 && (quadsOf (slice pl 4 16)).isEmpty) || decide (984 < beAt pl 20 2) || (fl / 2 % 2 == 1 && beAt pl 20 2 == 0) ||
    decide (225 < beAt pl 22 2) || decide (1048576 < beAt pl 24 4)

/-- A share's extents at a new length: those it keeps from its front, and free ones behind them (R419). -/
def extentsAt (held free : List Nat) (n : Nat) : List Nat := held.take n ++ free.take (n - held.length)

/-- The states of R309 in which no resize is accepted. -/
def MState.noResize (m : MState) : Bool := m == .fetching || m == .loading || m == .draining || m == .swapping

/-- The partition's NAND share holds shards (R419). -/
def Part.holdsShards (pt : Part) : Bool := !pt.shards.isEmpty || pt.install.isSome || pt.refetch.isSome

/-- The bays of some quads. -/
def baysOf (qs : List Nat) : List Nat := (List.range 16).filter (fun b => qs.any (fun q => q / 8 == b))

/-- The refusal of a resize by the state of its partition (R419). -/
def Part.resizeRefused (pt : Part) (fl : Nat) (quads : List Nat) (dram nand : Nat) : Bool :=
  MState.noResize pt.mstate || (pt.mstate != .empty && fl % 2 == 1 && baysOf quads != baysOf pt.quads) ||
    (fl / 2 % 2 == 1 && ((pt.mstate != .empty && (decide (dram < pt.dram.length) || decide (nand < pt.nand.length))) ||
      (pt.holdsShards && decide (nand < pt.nand.length))))

/-- RESIZE_PARTITION: its additions are reserved when it is accepted, the partition is changed at its meridian. -/
def execResizePartition (c : Ctx) (payload : Bytes) (s : State) : Res :=
  s.serve c 0x0502 .firmware true (fun s0 =>
    let p := beAt payload 0 1
    let fl := beAt payload 2 1
    let quads := quadsOf (slice payload 4 16)
    let s := s0.modPart p (fun pt => { pt with staged := { pt.staged with resize := none } })
    if c.part != 0xFFFF && c.part != p then s0.answer c 0x0502 .badFrame
    else
      match s.part p with
      | none => s0.answer c 0x0502 (if resizeBad payload then .badFrame else .notPermitted)
      | some pt =>
        if pt.resetting.isSome then s0.answer c 0x0502 .busyRecovery
        else if resizeBad payload then s0.answer c 0x0502 .badFrame
        else if (fl % 2 == 1 && quads.any (fun q => !pt.quads.contains q && !s.quadFree q)) ||
            (fl / 2 % 2 == 1 && (decide (pt.dram.length + s.freeDram.length < beAt payload 20 2) ||
              decide (pt.nand.length + s.freeNand.length < beAt payload 22 2))) ||
            (fl / 8 % 2 == 1 && decide (1048576 < s.quotaTaken p + max (s.gzQuota p) (beAt payload 24 4))) then s0.answer c 0x0502 .noResource
        else if pt.resizeRefused fl quads (beAt payload 20 2) (beAt payload 22 2) then s0.answer c 0x0502 .notPermitted
        else
          let r : Resize :=
            { ctx := c, flags := fl, cls := beAt payload 1 1, quads := quads, dram := extentsAt pt.dram s.freeDram (beAt payload 20 2),
              nand := extentsAt pt.nand s.freeNand (beAt payload 22 2), quota := beAt payload 24 4 }
          let s1 := match ((s0.part p).map (·.staged)).bind (·.resize) with
            | some old => s0.settle old.ctx 0x0502 .ok []
            | none => s0
          .next ((s1.owe c 0x0502).modPart p (fun pt => { pt with staged := { pt.staged with resize := some r } })))

/-! ## Partition reset (R424, R425) -/

/-- The events of a partition reset: to the partition's session and the device owner's (Table 9). -/
def State.resetEvents (s : State) (p : Nat) (st : Status) : State := (s.partEvent p st 0x0503 0 0).ownerEvent p st 0x0503 0 0

/-- A partition reset begins: frames are refused from now on, a staged resize is discarded, the stages of its pipeline are told. -/
def State.beginPartReset (s : State) (p : Nat) (pt : Part) (c : Ctx) (delete : Bool) : State :=
  let s1 := match pt.staged.resize with
    | some r => s.settle r.ctx 0x0502 .busyRecovery []
    | none => s
  let s2 := s1.modPart p (fun pt =>
    { pt with resetting := some (c, delete), staged := { pt.staged with resize := none, reset := some c } })
  let s3 := match pt.image with
    | some im =>
      ((List.range im.stages).filter (· != im.stage)).foldl
        (fun (s : State) st => s.sendTo (s.stageDev st) .management p (beBytes 1 0x15 ++ beBytes 1 p ++ beBytes 1 im.stage)) s2
    | none => s2
  s3.resetEvents p .busyRecovery

/-- RESET_PARTITION. -/
def execResetPartition (c : Ctx) (payload : Bytes) (s : State) : Res :=
  let owner := s.isOwner c || s.role c == some .partOwner
  s.serve c 0x0503 .firmware false (fun s =>
    match s.part c.part with
    | none => s.answer c 0x0503 .notPermitted
    | some pt =>
      if !owner || pt.resetting.isSome then s.answer c 0x0503 .notPermitted
      else if !payload.isEmpty then s.answer c 0x0503 .badFrame
      else .next ((s.owe c 0x0503).beginPartReset c.part pt c false))

/-- The partition after the fill of its share: its tiles cleared, its registers and tables at their reset values, its place kept. -/
def State.partCleared (s : State) (p : Nat) (pt : Part) : State :=
  let quota := s.gzQuota p
  let s1 := (pt.tiles.foldl State.tileLeaves (pt.dram.foldl State.clearExtent s)).resetPartRegs p
  (s1.putField .gz p 0 20 0 quota).putPart p
    { Part.created s.now with
      cls := pt.cls, quads := pt.quads, dram := pt.dram, nand := pt.nand, mac := pt.mac, vid := pt.vid, ip4 := pt.ip4, ip6 := pt.ip6,
      ownerKey := pt.ownerKey, ownerMark := pt.ownerMark, shards := pt.shards }

/-- What a deletion does after the reset (R420): sessions closed, keys erased, everything freed. -/
def State.deletePart (s : State) (p : Nat) (pt : Part) : State :=
  let s1 := ((s.lesar.sessions.filter (fun e => e.2.part == p)).map Prod.fst).foldl State.closeSession s
  let s2 := ((pt.nand.foldl State.clearNandExtent s1).resetPartRegs p).resetRegs .part p
  (((s2.setParts (NMap.erase s2.parts p)).setTombs (s2.tombs.filter (fun t => t.part != p))).setWalks
    (s2.walks.filter (fun w => w.1 != p))).setLesar { s2.lesar with evts := NMap.erase s2.lesar.evts p }

/-- PARTITION_RESET_FILL_COMPLETE (R424 steps 4 to 6, R420). -/
def execPartitionResetFillComplete (p : Nat) (s : State) : Res :=
  match s.part p with
  | none => impossible "no such partition"
  | some pt =>
    match pt.resetting with
    | none => impossible "no partition reset runs"
    | some (c, delete) =>
      require pt.staged.reset.isNone "the work has not ended yet"
        (let s1 := ((s.partCleared p pt).bump .part p 0x20 1).resetEvents p .ok
         .next (if delete then
            let s2 := s1.deletePart p pt
            ((s2.lesar.owed.filter (fun o => o.opcode == 0x0504 && o.ctx.part == p)).foldl
              (fun s o => (s.freeMbox o.ctx 0x0504).settle o.ctx 0x0504 .ok []) s2).settleAll
          else (s1.settle c 0x0503 .ok []).settleAll))

/-- DELETE_PARTITION (R420): its message stays in its mailbox until it is answered. -/
def execDeletePartition (c : Ctx) (payload : Bytes) (s : State) : Res :=
  s.serve c 0x0504 .firmware true (fun t =>
    match t.part c.part with
    | none => t.answer c 0x0504 .notPermitted
    | some pt =>
      if pt.resetting.isSome then t.answer c 0x0504 .busyRecovery
      else if !payload.isEmpty then t.answer c 0x0504 .badFrame
      else if pt.mstate != .empty then t.answer c 0x0504 .notPermitted
      else
        let t1 := t.setLesar { t.lesar with mboxes := s.lesar.mboxes, owed := t.lesar.owed ++ [{ ctx := c, opcode := 0x0504 }] }
        .next (t1.beginPartReset c.part pt c true))

end Sys2Proof.Machine
end

