-- ==== Sys2Proof/Machine/Tiers.lean ====
section
/-!
DEFINITION. The memory tiers (R252 to R271): patrol scrubbing, refresh rates and windows, calibration, the NAND tier's failures and
housekeeping, the pause area, and loans on both sides.
-/
namespace Sys2Proof.Machine

open Sys2Proof

/-! ## LPDDR5X (R253 to R257) -/

/-- The granule of a group of 64 that lies on a channel (R250). -/
def granuleOn (k ch : Nat) : Nat := 64 * k + (List.range 64).foldl (fun b c => if dramChannel (512 * (64 * k + c)) = ch then c else b) 0

/-- The physical address of a data burst from its channel, row and column (R250). -/
def burstAddr (ch row col : Nat) : Nat :=
  let n := row * 31 + col
  512 * granuleOn (n / 8) ch + 64 * (n % 8)

/-- DRAM_PATROL_SCRUB (R253): every burst of all 256 GiB, column bursts of rows of channels, is read; an error that a data burst holds is
counted and recorded, a correctable one is written back; no step fails. What strikes data or code of a burst is held with the burst (R251), so the
code burst of a row, column 31, has no error of its own. -/
def execDramPatrolScrub (burst : Nat) (env : List Strike) (s : State) : Res :=
  require (decide (burst < 2 ^ 32)) "no such burst"
    (let s1 := s.strike env
     .next (if burst % 32 = 31 then s1 else (s1.burstFind (burstAddr (burst / 2 ^ 26) (burst / 32 % 2 ^ 21) (burst % 32)) 64).1))

/-- The refresh rate of a package from the indication of its hottest die in °C (R254): 0 the normal rate, 1 doubled, 2 quadrupled. -/
def refreshRate (t : Nat) : Nat := if t ≤ 85 then 0 else if t ≤ 105 then 1 else 2

/-- REFRESH_RATE_POLL (R254): the rate of each package, with an event for each that enters the quadrupled rate. -/
def execRefreshRatePoll (hottest : List Nat) (s : State) : Res :=
  require (decide (hottest.length = 8)) "eight packages are read"
    (let s1 := s.setDram { s.dram with rates := hottest.map refreshRate }
     .next ((List.range 8).foldl (fun s1 k =>
       if refreshRate (hottest.getD k 0) = 2 && s.dram.rates.getD k 0 != 2 then s1.devEvent .ok 0 0 k else s1) s1))

/-- REFRESH_WINDOW (R254, R255): a refresh window of a package starts, at the rate of the package. Its counts are cleared, a throttling that
has had its next window ends. A package is eight channels of sixteen banks, and a group's number begins with its bank's. -/
def execRefreshWindow (package : Nat) (s : State) : Res :=
  require (decide (package < 8)) "no such package"
    (let d := s.dram
     let mine := fun (bk : Nat) => bk / 128 == package
     .next (s.setDram { d with
       acts := d.acts.filter (fun e => !mine (e.1 / 2 ^ 20)), lastPort := d.lastPort.filter (fun e => !mine (e.1 / 2 ^ 20)),
       targeted := d.targeted.filter (fun g => !mine (g / 2 ^ 20)),
       throttled := (d.throttled.map (fun e => if mine e.2.1 then (e.1, e.2.1, e.2.2 - 1) else e)).filter (fun e => decide (0 < e.2.2)) }))

/-- The partitions that hold an LPDDR5X extent: every extent lies on every channel (R250). -/
def State.dramParts (s : State) : List Nat := (s.parts.filter (fun e => !e.2.dram.isEmpty)).map Prod.fst

/-- DRAM_CALIBRATION (R257). -/
def execDramCalibration (channel : Nat) (good : Bool) (s : State) : Res :=
  require (decide (channel < 64) && !s.dram.failed.contains channel) "no such channel is calibrated"
    (let d := s.dram
     let n := NMap.get 0 d.calFails channel + 1
     if good then .next (s.setDram { d with calFails := NMap.erase d.calFails channel })
     else if n < 3 then .next (s.setDram { d with calFails := NMap.insert d.calFails channel n })
     else
       .next ((s.setDram { d with calFails := NMap.erase d.calFails channel, failed := (channel :: d.failed).mergeSort }).sharedEvent s.dramParts
         .uncorrectable 0 0 channel))

/-! ## The NAND tier (R259 to R262) -/

/-- A partition has data in the NAND tier: a shard, or a paused cache in the pause area. -/
def Part.onNand (pt : Part) : Bool := !pt.shards.isEmpty || pt.reqs.any (fun e => e.2.tier == 1 && !e.2.moved.isEmpty)

/-- NAND_CHANNEL_FAIL (R260). -/
def execNandChannelFail (channel : Nat) (s : State) : Res :=
  require (decide (channel < 16) && !s.nand.failed.contains channel) "no such channel answers"
    (.next ((s.setNand { s.nand with failed := (channel :: s.nand.failed).mergeSort }).sharedEvent
      ((s.parts.filter (fun e => e.2.onNand)).map Prod.fst) .tierFailed 0 0 channel))

/-- MAP_SAVE (R259): the map is saved to the device area. -/
def execMapSave (s : State) : Res :=
  require (decide (256000000 ≤ s.nand.written)) "256 MB have not been written" (.next s.saveMap.freeBlocks)

/-- A die that housekeeping may use: it neither programs nor erases, and no read waits for it (R261). -/
def State.dieFree (s : State) (d : Nat) : Bool := (NMap.find s.nand.dies d).isNone && NMap.get 0 s.nand.waiting d == 0

/-- The map units that are valid in a block. -/
def Nand.valid (v : Nand) (b : Nat) : List Nat := (v.map.filter (fun e => e.2 / blockPages == b)).map Prod.fst

/-- A block's valid map units copied to fresh pages of its plane, the block erased: its reads are counted anew, its die is busy. -/
def Nand.renew (v : Nand) (b : Nat) : Nand :=
  let w := (v.valid b).foldl (fun w k => w.placeUnit k (b % 256)) { v with fill := NMap.insert v.fill b blockPages }
  { w with reads := NMap.erase w.reads b, weak := w.weak.filter (· != b), erases := NMap.insert w.erases b (NMap.get 0 w.erases b + 1),
           fill := NMap.erase w.fill b, dies := NMap.insert w.dies (blockDie b) 0 }

/-- A block renewed; copying writes its map units. -/
def State.eraseBlock (s : State) (b : Nat) : State :=
  let v := s.nand.renew b
  s.setNand { v with written := v.written + 16384 * (s.nand.valid b).length }

/-- Blocks of the NAND tier: 828 of each of 256 planes. -/
def blockOk (b : Nat) : Bool := decide (b < 256 * planeBlocks)

/-- READ_DISTURB_REFRESH (R261): a block at its read limit, or with a codeword that needed more than two retries: its units are copied, the block is
erased. -/
def execReadDisturbRefresh (block : Nat) (s : State) : Res :=
  require (blockOk block && s.dieFree (blockDie block) &&
      (decide ((s.reg .nt 0 0x00).field 31 16 * 1000 ≤ NMap.get 0 s.nand.reads block) || s.nand.weak.contains block))
    "the block is not due, or its die is in use" (.next ((s.eraseBlock block).bump .nt 0 0x18 1).freeBlocks)

/-- RETENTION_PATROL (R260, R261): a block not read for PATROL_DAYS days has every codeword read, `retries` giving what each needed; more than
two in one refreshes the block. -/
def execRetentionPatrol (block : Nat) (retries : List Nat) (now : Nat) (s : State) : Res :=
  require (blockOk block && s.dieFree (blockDie block) &&
      decide (NMap.get 0 s.nand.lastRead block + (s.reg .nt 0 0x00).field 12 8 * 86400000000000 ≤ (s.at now).now))
    "the block is not due, or its die is in use"
    (let s0 := s.at now
     let s1 := s0.setNand { s0.nand with lastRead := NMap.insert s0.nand.lastRead block s0.now }
     let s2 := if retries.sum = 0 then s1 else s1.bump .nt 0 0x10 retries.sum
     .next (if retries.any (fun n => decide (2 < n)) then ((s2.eraseBlock block).bump .nt 0 0x18 1).freeBlocks else s2))

/-- GARBAGE_COLLECTION (R261): free blocks are below 2 % of the spare blocks; the blocks with the fewest valid units are copied and erased. -/
def execGarbageCollection (blocks : List Nat) (s : State) : Res :=
  require (decide (s.nand.freeTenths < 20) && !blocks.isEmpty && blocks.all (fun b => blockOk b && s.dieFree (blockDie b) &&
      s.nand.fill.all (fun e => blocks.contains e.1 || decide ((s.nand.valid b).length ≤ (s.nand.valid e.1).length)))) "nothing is collected"
    (.next (((blocks.foldl State.eraseBlock s).bump .nt 0 0x1C blocks.length).freeBlocks))

/-- Erases of the blocks of a plane. -/
def Nand.planeErases (v : Nand) (plane : Nat) : Nat := ((v.erases.filter (fun e => e.1 % 256 == plane)).map Prod.snd).sum

/-- The block of a plane with cold data: of those that hold valid units the one with the fewest reads, ties to the lower number (log entry
25). -/
def Nand.coldBlock (v : Nand) (plane : Nat) : Option Nat :=
  ((v.fill.filter (fun e => e.1 % 256 == plane && !(v.valid e.1).isEmpty)).map Prod.fst).foldl (fun (best : Option Nat) b =>
    match best with
    | none => some b
    | some c => if NMap.get 0 v.reads b < NMap.get 0 v.reads c then some b else some c) none

/-- Map units of the plane's cold block moved onto an erased block. -/
def Nand.moveCold (v : Nand) (block : Nat) : Nand :=
  match v.coldBlock (block % 256) with
  | none => v
  | some c => (v.valid c).foldl (fun w k =>
      { w with map := NMap.insert w.map k (block * blockPages + NMap.get 0 w.fill block), fill := NMap.insert w.fill block (NMap.get 0 w.fill block + 1) }) v

/-- WEAR_LEVELLING (R261): an erased block whose erase count exceeds its plane's average by 10 % has cold data programmed onto it. -/
def execWearLevelling (block : Nat) (s : State) : Res :=
  require (blockOk block && s.dieFree (blockDie block) && decide (NMap.get 0 s.nand.fill block = 0) &&
      decide (11 * s.nand.planeErases (block % 256) < 10 * planeBlocks * NMap.get 0 s.nand.erases block))
    "the block is not worn, or holds data, or its die is in use"
    (let v := s.nand.moveCold block
     .next (s.setNand { v with dies := NMap.insert v.dies (blockDie block) 0, written := v.written + 16384 * NMap.get 0 v.fill block }).freeBlocks)

/-- NAND_OPERATION_COMPLETE (R261): the reads that waited for the die are served. -/
def execNandOperationComplete (die : Nat) (s : State) : Res :=
  require (NMap.find s.nand.dies die).isSome "the die neither programs nor erases"
    (.next (s.setNand { s.nand with dies := NMap.erase s.nand.dies die, waiting := NMap.erase s.nand.waiting die }))

/-- PAUSE_AREA_RESIZE (R262, R274). -/
def execPauseAreaResize (s : State) : Res :=
  match s.nand.pauseWant with
  | none => impossible "no change of size waits"
  | some n => require (decide (s.nand.pauseUsed = 0)) "the pause area holds caches" (.next (s.setNand { s.nand with pauseSize := n, pauseWant := none }))

/-! ## Loans that a partition borrows (R265, R268, R269) -/

/-- LOAN_GRANT (R265): the lender's answer. A grant takes effect at the next meridian, a refusal completes the write. -/
def execLoanGrant (p link extents : Nat) (answer : Status) (s : State) : Res :=
  match s.part p with
  | none => impossible "no such partition"
  | some pt =>
    require (pt.loanAsk.contains (link, extents) && [.ok, .notPermitted, .noResource, .busyRecovery].contains answer) "no such loan is asked for"
      (let ids := pt.loans.map (·.id)
       let id := ((List.range (ids.length + 1)).find? (fun k => !ids.contains k)).getD 0
       let s1 := s.modPart p (fun v => { v with loanAsk := v.loanAsk.erase (link, extents) })
       if answer = .ok then
         let l : Loan := { id := id, link := link, extents := extents, active := false, notice := false, returning := false,
                           movesDone := false, graceOver := false, copies := [], mem := [] }
         .next (s1.modPart p (fun v => { v with loans := v.loans ++ [l] }))
       else .next ((s1.pushGo (askCode link extents) p answer).settleAll))

/-- A loan of a partition changed. -/
def State.modLoan (s : State) (p id : Nat) (f : Loan → Loan) : State :=
  s.modPart p (fun v => { v with loans := v.loans.map (fun l => if l.id == id then f l else l) })

/-- A loan command on a loan that satisfies a test. -/
def State.onLoan (s : State) (p id : Nat) (ok : Loan → Bool) (body : Loan → Res) : Res :=
  match (s.part p).bind (fun pt => pt.loans.find? (fun l => l.id == id)) with
  | none => impossible "no such loan"
  | some l => require (ok l) "the loan is in another state" (body l)

/-- RECLAIM_NOTICE (R268): nothing new is placed in the loan, its weight copies are dropped. -/
def execReclaimNotice (p loan : Nat) (s : State) : Res :=
  s.onLoan p loan (fun l => !l.notice) (fun _ => .next (s.modLoan p loan (fun l => { l with notice := true, copies := [] })))

/-- GRACE_EXPIRY (R268): the extents are released at the next meridian. -/
def execGraceExpiry (p loan : Nat) (s : State) : Res :=
  s.onLoan p loan (fun l => l.notice) (fun _ => .next (s.modLoan p loan (fun l => { l with graceOver := true })))

/-- One paused cache moved out of a loan (R268): to the pause area, or, if that is full, to sheets of the LPDDR5X if they can be had
(log entry 29); a pipeline, whose sheet numbers are the first stage's to give (R164), keeps it there in its stored form until it is restored. A restore
that runs completes from the loan. -/
def State.moveCacheOut (s : State) (p h : Nat) : State :=
  match s.part p with
  | none => s
  | some pt =>
    match NMap.find pt.reqs h with
    | none => s
    | some r =>
      if s.pauseRoom (movedBytes r.moved) then
        (s.nandPauseWrite (movedBytes r.moved)).modPart p (fun pt => { pt with reqs := NMap.insert pt.reqs h { r with tier := 1 } })
      else if pt.image.any (fun im => im.stages == 1) then
        match s.takeMoved p r.moved [] with
        | none => s
        | some (s1, es) =>
          let s2 := s1.fillRestored p { r with list := es }
          s2.modPart p (fun pt => { pt with reqs := NMap.insert pt.reqs h { r with tier := 0, moved := [], list := sortEntries (r.list ++ es) } })
      else if r.moved.length ≤ s.sheetsToTake p pt then s.modPart p (fun pt => { pt with reqs := NMap.insert pt.reqs h { r with tier := 0 } })
      else s

/-- LOAN_MOVES_END (R268). -/
def execLoanMovesEnd (p loan : Nat) (s : State) : Res :=
  s.onLoan p loan (fun l => l.notice && !l.movesDone) (fun _ =>
    let hs := ((s.part p).map (fun pt => pt.reqs.keys.filter (fun h => (NMap.find pt.reqs h).any (fun r =>
      r.tier == loanTier loan && (r.st == .paused || r.st == .resuming))))).getD []
    .next ((hs.foldl (fun s h => s.moveCacheOut p h) s).modLoan p loan (fun l => { l with movesDone := true })))

/-! ## Lending (R266) -/

/-- Where an offset of a loan stands in this module's LPDDR5X. -/
def lentAddr (es : List Nat) (off : Nat) : Nat := es.getD (off / 2 ^ 28) 0 * 2 ^ 28 + off % 2 ^ 28

/-- The runs of an access to a loan, one per extent. -/
def lentRuns (es : List Nat) : Nat → Nat → Nat → List (Nat × Nat)
  | 0, _, _ => []
  | k + 1, off, n =>
    if n = 0 then []
    else
      let m := min n (2 ^ 28 - off % 2 ^ 28)
      (lentAddr es off, m) :: lentRuns es k (off + m) (n - m)

/-- LENT_MEMORY_REQUEST (R266): a read or a write of a borrower, answered in the lent-memory class; an access beyond the loan is not made. -/
def execLentMemoryRequest (link loan off : Nat) (write : Option Bytes) (len cls : Nat) (s : State) : Res :=
  match s.lender.loans.find? (fun l => l.link == link && l.id == loan) with
  | none => impossible "no such loan"
  | some l =>
    require (decide (cls < 8) && decide (1 ≤ len) && write.all (fun bs => decide (bs.length = len))) "no such request"
      (let es := l.extents
       let answer := fun (s : State) (st : Status) (bs : Bytes) =>
         Host.Outcome.next (s.sendOn (link / 2) .lent (s.link link).peer s.veolo.num cls l.part
           (beBytes 1 0x46 ++ beBytes 1 loan ++ beBytes 2 (Status.code st) ++ bs))
       if es.length * 2 ^ 28 < off + len then answer (s.bump .dr 0 0x24 1) .notPermitted []
       else
         let rs := lentRuns es (es.length + 1) off len
         let s1 := rs.foldl (fun s r => s.touch (linkPort link) r.1 r.2) s
         match write with
         | some bs => answer (s1.writeRuns rs bs) .ok []
         | none =>
           let f := rs.foldl (fun (a : State × Bool) r => let g := a.1.burstFind r.1 r.2; (g.1, a.2 || g.2)) (s1, false)
           if f.2 then answer f.1 .uncorrectable []
           else answer f.1 .ok (rs.flatMap (fun r => Mem.readN 0#8 s.mem.dram r.1 r.2)))

end Sys2Proof.Machine
end

