-- ==== Sys2Proof/Machine/Survey.lean ====
section
/-!
DEFINITION. The survey (R461 to R467): RUN_SURVEY, the passes and tests it starts, and the error-rate check of the links.
-/
namespace Sys2Proof.Machine

open Sys2Proof

/-- The payload of a final reply of RUN_SURVEY (R466). -/
def surveyResult (fail : Bool) (detail : Nat) : Bytes := beBytes 1 (if fail then 1 else 0) ++ beBytes 3 0 ++ beBytes 4 detail

/-- A pass of an S0 item starts (R461). -/
def State.beginS0 (s : State) (c : Ctx) (item : Nat) : Res :=
  if s.survey.s2.isSome then s.answer c 0x0901 .busyRecovery
  else if s.survey.s0.any (fun e => e.1 == item) then s.answer c 0x0901 .notPermitted
  else .next ((s.owe c 0x0901).setSurvey { s.survey with s0 := s.survey.s0 ++ [(item, c)] })

/-- A tile is staged to be taken out. -/
def State.stagedOut (s : State) (t : Nat) : Bool := s.parts.any (fun e => e.2.staged.takeOut.any (fun v => v.1 == t))

/-- An S1 test of a tile is asked for (R462, R467): a tile of a partition goes out at its next meridian, one of no partition at once. The same
tile staged before completes with OK (R22). -/
def State.beginS1 (s : State) (c : Ctx) (t : Nat) : Res :=
  let owner := s.ownerOf t
  if s.survey.s2.isSome then s.answer c 0x0901 .notPermitted
  else if (owner.bind s.part).any (·.resetting.isSome) then s.answer c 0x0901 .busyRecovery
  else if s.tileOut t then s.answer c 0x0901 .notPermitted
  else if (quadTiles (t / 4)).any (fun u => u != t && (s.tileOut u || s.stagedOut u)) then s.answer c 0x0901 .noResource
  else
    match owner with
    | none => .next ((s.owe c 0x0901).setSurvey { s.survey with out := s.survey.out ++ [(t, some c, false)] })
    | some p =>
      let old := ((s.part p).map (fun pt => pt.staged.takeOut.filter (fun v => v.1 == t))).getD []
      let s1 := old.foldl (fun s v => s.settle v.2 0x0901 .ok (surveyResult false 0)) s
      .next ((s1.owe c 0x0901).modPart p (fun pt =>
        { pt with staged := { pt.staged with takeOut := pt.staged.takeOut.filter (fun v => v.1 != t) ++ [(t, c)] } }))

/-- The S1 test of the gazetteer index starts (R464): gazetteers that are READY are in REBUILDING from now on (R187). -/
def State.beginS1Gazetteer (s : State) (c : Ctx) : Res :=
  if s.survey.s2.isSome || s.survey.gzOut.isSome then s.answer c 0x0901 .notPermitted
  else
    let s1 := (s.owe c 0x0901).setSurvey { s.survey with gzOut := some c }
    .next (s1.setParts (s1.parts.map (fun e => (e.1, if e.2.gzState = 2 then { e.2 with gzState := 3 } else e.2))))

/-- A partition is drained (R465). -/
def Part.quiet (pt : Part) : Bool :=
  (pt.mstate == .empty || pt.mstate == .loaded) && pt.reqs.isEmpty && pt.streams.isEmpty && pt.resetting.isNone && pt.loans.isEmpty && pt.loanAsk.isEmpty

/-- An S1 test runs or is staged. -/
def State.s1Runs (s : State) : Bool := !s.survey.out.isEmpty || s.survey.gzOut.isSome || s.parts.any (fun e => !e.2.staged.takeOut.isEmpty)

/-- S2 is asked for (R465, R467). -/
def State.beginS2 (s : State) (c : Ctx) : Res :=
  if s.survey.s2.isSome then s.answer c 0x0901 .busyRecovery
  else if s.s1Runs || s.parts.any (fun e => !e.2.quiet) then s.answer c 0x0901 .notPermitted
  else if s.guard.level != 0 then s.answer c 0x0901 .deferred
  else .next ((s.owe c 0x0901).setSurvey { s.survey with s2 := some c })

/-- A payload of RUN_SURVEY outside R466. -/
def surveyBad (pl : Bytes) : Bool :=
  let tile := beAt pl 2 2
  pl.length != 8 || beAt pl 4 4 != 0 ||
    (match beAt pl 0 1 with
     | 0 => decide (3 < beAt pl 1 1) || tile != 0
     | 1 => decide (1 < beAt pl 1 1) || (if beAt pl 1 1 = 0 then decide (512 ≤ tile) else tile != 0)
     | 2 => beAt pl 1 1 != 0 || tile != 0
     | _ => true)

/-- RUN_SURVEY (R466), of the class that its payload names. -/
def State.runSurvey (s : State) (c : Ctx) (pl : Bytes) : Res :=
  s.serve c 0x0901 .firmware true (fun s =>
    if surveyBad pl then s.answer c 0x0901 .badFrame
    else
      match beAt pl 0 1 with
      | 0 => s.beginS0 c (beAt pl 1 1)
      | 1 => if beAt pl 1 1 = 0 then s.beginS1 c (beAt pl 2 2) else s.beginS1Gazetteer c
      | _ => s.beginS2 c)

/-- SURVEY_S0: RUN_SURVEY with class 0. -/
def execSurveyS0 (c : Ctx) (payload : Bytes) (s : State) : Res := s.runSurvey c payload
/-- SURVEY_S1_TILE: RUN_SURVEY with class 1 and a tile. -/
def execSurveyS1Tile (c : Ctx) (payload : Bytes) (s : State) : Res := s.runSurvey c payload
/-- SURVEY_S1_GAZETTEER: RUN_SURVEY with class 1 and the gazetteer engine. -/
def execSurveyS1Gazetteer (c : Ctx) (payload : Bytes) (s : State) : Res := s.runSurvey c payload
/-- SURVEY_S2: RUN_SURVEY with class 2. -/
def execSurveyS2 (c : Ctx) (payload : Bytes) (s : State) : Res := s.runSurvey c payload

/-- SURVEY_S0_COMPLETE: the pass of an item ends. -/
def execSurveyS0Complete (item : Nat) (fail : Bool) (detail : Nat) (s : State) : Res :=
  match s.survey.s0.find? (fun e => e.1 == item) with
  | none => impossible "no pass of this item runs"
  | some e =>
    .next ((s.setSurvey { s.survey with s0 := s.survey.s0.erase e }).settle e.2 0x0901 .ok (surveyResult fail detail))

/-- A tile that passed returns: at the next meridian of its partition, at once where it has none or the partition is being reset (R462, R467). -/
def State.tilePassed (s : State) (t : Nat) (c : Option Ctx) : State :=
  let away := s.survey.out.filter (fun e => e.1 != t)
  match s.ownerOf t with
  | some p =>
    if (s.part p).any (·.resetting.isSome) then (s.tileLeaves t).setSurvey { s.survey with out := away }
    else
      (s.setSurvey { s.survey with out := away ++ [(t, c, true)] }).modPart p (fun pt =>
        { pt with staged := { pt.staged with putBack := pt.staged.putBack ++ [t] } })
  | none => (s.tileLeaves t).setSurvey { s.survey with out := away }

/-- A tile that failed is marked (R463): with an event to its partition's owner and to the device owner. -/
def State.tileFailed (s : State) (t : Nat) : State :=
  let s1 := s.setSurvey { s.survey with out := s.survey.out.filter (fun e => e.1 != t), failed := t :: s.survey.failed.filter (· != t) }
  match s.ownerOf t with
  | some p => (s1.partEvent p .uncorrectable 0x0901 0 t).ownerEvent p .uncorrectable 0x0901 0 t
  | none => s1.devEvent .uncorrectable 0x0901 0 t

/-- SURVEY_S1_TEST_COMPLETE (R463). -/
def execSurveyS1TestComplete (t : Nat) (pass : Bool) (s : State) : Res :=
  match s.survey.out.find? (fun e => e.1 == t && !e.2.2) with
  | none => impossible "no test of this tile runs"
  | some (_, c, _) =>
    let s1 := s.bump .sv 0 0x5C 1
    let s2 := if pass then s1.tilePassed t c else (s1.bump .sv 0 0x60 1).tileFailed t
    .next (match c with
      | some c => s2.settle c 0x0901 .ok (surveyResult (!pass) (if pass then 0 else t))
      | none => s2)

/-- GAZETTEER_INDEX_TEST_END (R464): the rebuild of every partition begins. -/
def execGazetteerIndexTestEnd (pass : Bool) (s : State) : Res :=
  match s.survey.gzOut with
  | none => impossible "the index is not out"
  | some c =>
    let s1 := (s.setSurvey { s.survey with gzOut := none }).bump .sv 0 0x5C 1
    .next ((if pass then s1 else s1.bump .sv 0 0x60 1).settle c 0x0901 .ok (surveyResult (!pass) 0))

/-- A partition that is LOADED at the end of S2 is EMPTY, its shards kept. -/
def State.emptyAfterS2 (s : State) (p : Nat) : State :=
  match s.part p with
  | none => s
  | some pt =>
    if pt.mstate = .loaded then
      (s.removeImage p).modPart p (fun pt => Part.trimKeys { pt with mstate := .empty })
    else s

/-- SURVEY_S2_COMPLETE (R465): the LPDDR5X is trained afresh and holds zeros, every tile has been tested, the map has been saved. -/
def execSurveyS2Complete (badChannels badTiles : List Nat) (s : State) : Res :=
  match s.survey.s2 with
  | none => impossible "no S2 runs"
  | some c =>
    require (badChannels.all (fun k => decide (k < 64)) && badTiles.all (fun t => decide (t < 512))) "no such channel or tile"
      (let s1 := (s.setDramMem []).setDram
         { s.dram with acts := [], lastPort := [], targeted := [], openRows := [], throttled := [], calFails := [], bad := [], failed := badChannels.eraseDups.mergeSort }
       let s2 := ((s1.setScratch []).setTiles []).setSurvey { s1.survey with s2 := none, failed := [] }
       let s3 := (badChannels.filter (fun k => !s.dram.failed.contains k)).foldl
         (fun s k => s.sharedEvent s.dramParts .uncorrectable 0 0 k) s2
       let s4 := badTiles.eraseDups.foldl State.tileFailed s3
       let s5 := (s4.parts.keys.foldl State.emptyAfterS2 s4).bump .sv 0 0x64 1
       let s6 := s5.saveMap
       let fail := !badChannels.isEmpty || !badTiles.isEmpty
       .next (s6.settle c 0x0901 .ok (surveyResult fail ((badChannels ++ badTiles).headD 0))))

/-- VEOLO_ERROR_RATE_CHECK (R461): the codewords of every UP link over a second are counted, and a link above 10^-5 uncorrectable is retrained
(R284). -/
def execVeoloErrorRateCheck (corrected uncorrectable codewords : List Nat) (s : State) : Res :=
  .next ((List.range 8).foldl (fun (s : State) i =>
    if (s.link i).st != .up then s
    else
      let u := uncorrectable.getD i 0
      let s1 := (s.bump .vl i 0x08 (corrected.getD i 0)).bump .vl i 0x0C u
      if codewords.getD i 0 < 100000 * u then (s1.linkTrains i .fastRetrain).bump .sv 0 0x68 1 else s1) s)

end Sys2Proof.Machine
end

