-- ==== Sys2Proof/Machine/Firmware.lean ====
section
/-!
DEFINITION. The management processor and its firmware (R13 to R16, R387 to R401), DEVICE_RESET (R432), and the start sequence (R344, R351,
R391, R392, R434, R435).
-/
namespace Sys2Proof.Machine

open Sys2Proof

/-! ## The start sequence -/

/-- A link beyond the end of an axis that does not wrap stays DOWN (R288). -/
def State.linkHails (s : State) (i : Nat) : State :=
  if (s.link i).st == .disabled || (s.veolo.numValid && (s.expected (i / 2)).isNone) then s
  else s.modLink i (fun l => { l with st := .hail, equalHails := 0 })

/-- The number and topology of this start (R289, R300). -/
def Veolo.numbered (v : Veolo) (ps : ParamSet) : Veolo := { v with numValid := ps.numValid, num := ps.devNum, topo := ps.topo }

/-- The twin that the ROM runs, and whether it is the inactive one; none where neither verifies (R351). -/
def State.bootTwin (s : State) : Option (Nat × Bool) :=
  let a := s.params.bootActive
  if s.twinGood a then some (a, false) else if s.twinGood (1 - a) then some (1 - a, true) else none

/-- KEEPER_ROM_START (R344, R345, R351, R392, R435): the flash is scanned, and the strap says how the start goes on. -/
def execKeeperRomStart (s : State) : Res :=
  require (s.dev.phase == .rom) "the Keeper ROM does not run"
    (let s1 := s.scanFlash
     let s2 := s1.setVeolo (s1.veolo.numbered s1.params)
     let go := fun (p : Phase) => Host.Outcome.next (s2.setDev { s2.dev with phase := p })
     match s.dev.bootSrc with
     | 0 =>
       match s2.bootTwin with
       | some (t, other) =>
         .next ((s2.setDev { s2.dev with phase := .runtime, rtImage := s2.twinImage t, rtFromNet := false }).setFlash
           { s2.flash with fallback := other })
       | none => go .recovery
     | 1 => go .netBoot
     | 2 => go .recovery
     | _ => go .factory)

/-- The journal and counter sectors (R340, R341). -/
def ringSectors : List Nat := (List.range 8).map (0x8008 + ·) ++ [0x8001, 0x8011]

/-- A sector of a ring that is not blank and has no valid HEADER (R344). -/
def State.headless (s : State) (n : Nat) : Bool :=
  s.mem.flash.any (fun e => decide (sectorBase n ≤ e.1) && decide (e.1 < sectorBase n + sectorSize n)) &&
    !((recordAt (s.flashRaw (sectorBase n) 16)).any (fun r => r.1 == 0x7E))

/-- The ring sectors without a HEADER erased again, unjournalled; the rings are then read again (R344 step 1). -/
def State.mendRings (s : State) : State :=
  let bad := ringSectors.filter s.headless
  if bad.isEmpty then s
  else
    let t := (bad.foldl State.flashClear s).scanFlash
    t.setFlash { t.flash with params := s.flash.params, half := s.flash.half, fallback := s.flash.fallback }

/-- KEEPER_RUNTIME_START (R344, R434): the rings are mended, the HALF_ERASED sectors are checked for blankness, `halfBlank` naming those
that pass, the START record is appended. -/
def execKeeperRuntimeStart (halfBlank : List Nat) (s : State) : Res :=
  require (s.dev.phase == .runtime) "the Keeper runtime does not start"
    (let s1 := s.mendRings
     let s2 := s1.setFlash { s1.flash with blankOk := s1.flash.half.map (fun n => (n, halfBlank.contains n)) }
     let recover := fun (t : State) => t.setDev { t.dev with phase := .recovery, wdogMs := 1000 }
     if 4 ≤ s2.flash.starts then .next (recover s2)
     else
       let s3 := s2.counter 0x11
       .next (if 4 ≤ s3.flash.starts then recover s3 else s3.setDev { s3.dev with phase := .checked, wdogMs := 1000 }))

/-- PORT_DIE_RELEASE (R391): the ports serve, the links enter HAIL, the scratchpads are zeroed (R99). -/
def execPortDieRelease (s : State) : Res :=
  require (s.dev.phase == .checked) "the start record is not checked"
    (.next ((List.range 8).foldl State.linkHails ((s.setScratch []).setDev { s.dev with phase := .portDie })).electMaster)

/-- DRAM_TRAINING_COMPLETE (R257, R391): the channels that failed training are marked. -/
def execDramTrainingComplete (failed : List Nat) (s : State) : Res :=
  require (s.dev.phase == .portDie && failed.all (fun k => decide (k < 64))) "no training runs"
    (let bad := failed.eraseDups.mergeSort
     let s1 := (s.setDram { s.dram with failed := bad, calFails := [] }).setDev { s.dev with phase := .trained }
     .next (bad.foldl (fun s k => s.devEvent .uncorrectable 0 0 k) s1))

/-! ## Firmware images (R389, R390) -/

/-- A valid firmware image is compatible (R390). -/
def State.compatible (s : State) (img : Bytes) (gen : Nat) : Bool :=
  within (imageField s.dev.rtImage 20).toNat (imageField s.dev.rtImage 24).toNat (imageVersion img) && within (beAt img 16 1) (beAt img 17 1) gen

/-- What the Keeper finds of a firmware image; the third part is the state with a refused signature counted. -/
def State.firmwareCheck (s : State) (img : Bytes) (gen : Nat) : Option Status × State :=
  match imageCheck 2 img with
  | some st => (some st, if st = .signatureInvalid then s.bump .kpr 0 0x04 1 else s)
  | none => (if s.compatible img gen then none else some .fwVersionRefused, s)

/-- The management processor is released with an image; `c` is the frame that its first heartbeat answers. -/
def State.release (s : State) (img : Bytes) (c : Option Ctx) : State :=
  s.setDev { s.dev with fwImage := img, fwAwait := some c, heartbeats := 0 }

/-- The held frames processed in their order of arrival (R394). -/
def State.processStart : List (Via × Bytes) → State → Res
  | [], s => .next s
  | f :: fs, s => andThen (s.lesarFrame f.1 f.2) (State.processStart fs)

/-- READY_FOR_FIRMWARE (R391, R394, R400): the held frames are processed, and after an activation the pending image is checked again and
released. -/
def execReadyForFirmware (ms : Nat) (s : State) : Res :=
  require (s.dev.phase == .trained) "the memory is not trained"
    (let s1 := (s.setLesar { s.lesar with startBuf := [] }).setDev { s.dev with phase := .ready, readyMs := min 0xFFFF ms, activating := false }
     let s2 := match s.dev.activating, s.dev.pendingImage with
       | true, some img =>
         match s1.firmwareCheck img s.dev.pendingGen with
         | (none, t) => (t.setDev { t.dev with pendingImage := none }).release img none
         | (some _, t) => t
       | _, _ => s1
     State.processStart s.lesar.startBuf s2)

/-! ## LOAD_FIRMWARE (R396, R397) -/

/-- The generation of the session of a frame. -/
def State.genOf (s : State) (c : Ctx) : Nat := ((s.session c.sess).map (·.gen)).getD 3

/-- The message breaks the layout of R396. -/
def loadBad (gen : Nat) (pl : Bytes) : Bool :=
  pl.length < 8 || decide (4 ≤ beAt pl 0 1) || beAt pl 1 3 != 0 || beAt pl 4 4 % 16 != 0 || (pl.length - 8) % 16 != 0 ||
    decide ((if gen = 2 then 224 else 4080) < pl.length - 8)

/-- LOAD_FIRMWARE. -/
def execLoadFirmware (c : Ctx) (payload : Bytes) (s : State) : Res :=
  s.serve c 0x0601 .keeperEarly true (fun s =>
    let first := beAt payload 0 1 % 2 == 1
    let last := beAt payload 0 1 / 2 % 2 == 1
    let off := beAt payload 4 4
    let d := s.dev
    if loadBad (s.genOf c) payload then s.answer c 0x0601 .badFrame
    else if d.fwAwait.isSome || d.load.any (fun l => l.last || l.sess != c.sess) || (first && d.actQueued.isSome) then
      s.answer c 0x0601 .notPermitted
    else
      let sofar : Option Bytes := if first then some [] else d.load.map (·.bytes)
      let stop := (s.setDev { d with load := none }).answer c 0x0601 .badFrame
      match sofar with
      | none => stop
      | some bs =>
        let img := bs ++ payload.drop 8
        if off != bs.length || decide (16777216 < img.length) then stop
        else
          let s1 := s.setDev
            { d with pendingImage := if first then none else d.pendingImage,
                     load := some { sess := c.sess, ctx := c, gen := s.genOf c, bytes := img, last := last } }
          if last then .next (s1.owe c 0x0601) else s1.answer c 0x0601 .ok)

/-- LOAD_FIRMWARE_TIMEOUT (R396, R392): 10 s without a message. -/
def execLoadFirmwareTimeout (s : State) : Res :=
  require (s.dev.load.any (fun l => !l.last)) "no load is open" (.next (s.setDev { s.dev with load := none, netSrc := none }))

/-- FIRMWARE_CHECK_COMPLETE (R397): the image of the last message has been checked. -/
def execFirmwareCheckComplete (s : State) : Res :=
  match s.dev.load.filter (·.last) with
  | none => impossible "no image is being checked"
  | some l =>
    let r := (s.setDev { s.dev with load := none }).firmwareCheck l.bytes l.gen
    .next (match r.1 with
      | some st => r.2.settle l.ctx 0x0601 st []
      | none =>
        if s.dev.phase = .running then
          (r.2.setDev { r.2.dev with pendingImage := some l.bytes, pendingGen := l.gen }).settle l.ctx 0x0601 .ok []
        else r.2.release l.bytes (some l.ctx))

/-- FIRST_HEARTBEAT_TIMEOUT (R397): the processor is halted again. -/
def execFirstHeartbeatTimeout (s : State) : Res :=
  match s.dev.fwAwait with
  | none => impossible "no heartbeat is awaited"
  | some c =>
    let s1 := s.setDev { s.dev with fwAwait := none, fwImage := [] }
    .next (match c with
      | some c => s1.settle c 0x0601 .busyRecovery []
      | none => s1)

/-! ## The heartbeat (R388, R15) -/

/-- The device is RUNNING; with HALF_ERASED sectors the device owner is told (R344). -/
def State.nowRunning (s : State) (c : Option Ctx) : State :=
  let s1 := s.setDev { s.dev with phase := .running, fwVersion := imageVersion s.dev.fwImage, fwAwait := none, fwHalted := false }
  let s2 := match c with
    | some c => s1.settle c 0x0601 .ok []
    | none => s1
  if s.flash.half.isEmpty then s2 else s2.devEvent .halfErased 0 0 0

/-- HEARTBEAT. -/
def execHeartbeat (s : State) : Res :=
  let s1 := s.setDev { s.dev with heartbeats := (s.dev.heartbeats + 1) % 2 ^ 32 }
  match s.dev.fwAwait with
  | some c => require (s.dev.phase == .ready) "no firmware is released" (.next (s1.nowRunning c))
  | none => require (s.dev.phase == .running) "no firmware runs" (.next s1)

/-- The operations of a partition that firmware had staged, left to its next meridian (R14). -/
def Part.stagedCtxs (pt : Part) : List Ctx :=
  let g := pt.staged
  g.targeted.map (fun e => match e.2.2 with | .start c => c | .stop c _ _ => c | .swap c => c) ++ (g.resize.map (·.ctx)).toList ++
    g.takeOut.map Prod.snd ++ g.removeInsets.map Prod.snd ++
    ((pt.insets.map Prod.snd).filter (fun v => !v.admitted && !v.installed)).map (·.ctx)

/-- A message that waits for firmware, or is being assembled for it, answered BUSY_RECOVERY and freed (R15). -/
def State.refuseMbox (s : State) (m : Mbox) : State :=
  let c : Ctx := { sess := m.sess, part := m.part, handle := m.handle, via := none }
  let s1 := (s.setLesar { s.lesar with mboxes := s.lesar.mboxes.erase m }).reply c m.opcode .busyRecovery []
  if m.complete then s1 else s1.modSession m.sess (fun v => { v with swallow := true })

/-- What firmware was doing for a partition's model ends: a fetch, a repair, a lendable copy; a load that the engines carry out goes on. A
deletion ends as the reset that it began with (R424). -/
def State.partWithoutFirmware (s : State) (p : Nat) : State :=
  let s1 := if ((s.part p).bind (·.install)).any (fun v => !v.loading) then s.endInstall p .busyRecovery else s
  s1.modPart p (fun pt => { pt with refetch := none, lendCopy := none, resetting := pt.resetting.map (fun r => (r.1, false)) })

/-- MGMT_PROCESSOR_STOPPED (R15): 100 ms without a heartbeat. -/
def execMgmtProcessorStopped (s : State) : Res :=
  require (s.dev.phase == .running && !s.dev.fwHalted) "no firmware runs"
    (let s1 := s.setDev { s.dev with fwHalted := true }
     let s2 := (s.lesar.mboxes.filter (fun m => serverOf m.opcode == .firmware)).foldl State.refuseMbox s1
     let s3 := s2.setLesar { s2.lesar with owed := s2.lesar.owed.filter (fun o => o.opcode != 0x0504) }
     let s4 := s3.parts.keys.foldl State.partWithoutFirmware s3
     let later := s4.parts.flatMap (fun e => Part.stagedCtxs e.2)
     let due := s4.lesar.owed.filter (fun o => serverOf o.opcode == .firmware && o.opcode != 0x0503 && !later.contains o.ctx)
     .next ((due.foldl (fun s o => s.settle o.ctx o.opcode .busyRecovery []) s4).devEvent .busyRecovery 0 0 0))

/-! ## Activation and DEVICE_RESET (R399 to R401, R432) -/

/-- The leave notices to every neighbour, in the management class (R298). -/
def State.leaveNotices (s : State) : State := (List.range 4).foldl (fun s d => s.sendMessage d .management 0 [0x16#8]) s

/-- A reset of the device begins: leave notices, then the save of the map. -/
def State.beginReset (s : State) (cs : List Ctx) (system activation : Bool) : State :=
  s.leaveNotices.setDev { s.leaveNotices.dev with reset := some { ctxs := cs, system := system, activation := activation, saved := false } }

/-- PG_LEVEL has been NORMAL for the whole of the last second. -/
def State.calm (s : State) : Bool := s.guard.level == 0 && decide (s.guard.normalSince + 1000000000 ≤ s.now)

/-- ACTIVATE_FIRMWARE. -/
def execActivateFirmware (c : Ctx) (payload : Bytes) (s : State) : Res :=
  s.serve c 0x0602 .keeper true (fun s =>
    let d := s.dev
    if !payload.isEmpty then s.answer c 0x0602 .badFrame
    else if d.pendingImage.isNone || d.load.isSome || d.actQueued.isSome || d.reset.isSome then s.answer c 0x0602 .notPermitted
    else if s.calm then .next ((s.reply c 0x0602 .ok []).beginReset [] false true)
    else (s.setDev { d with actQueued := some c }).answer c 0x0602 .deferred)

/-- ACTIVATION_PROCEED (R399): NORMAL has lasted 1 s. -/
def execActivationProceed (s : State) : Res :=
  match s.dev.actQueued with
  | none => impossible "no activation is queued"
  | some c =>
    require s.calm "the guard has not been NORMAL for 1 s"
      (.next (((s.setDev { s.dev with actQueued := none }).reply c 0x0602 .ok []).beginReset [] false true))

/-- ACTIVATION_TIMEOUT (R399): 30 s after the receipt. -/
def execActivationTimeout (s : State) : Res :=
  match s.dev.actQueued with
  | none => impossible "no activation is queued"
  | some c => .next ((s.setDev { s.dev with actQueued := none }).reply c 0x0602 .deferredTimeout [])

/-- DEVICE_RESET: a queued activation and its image are discarded (R401); during a save the frame joins the reset that runs. -/
def execDeviceReset (c : Ctx) (payload : Bytes) (s : State) : Res :=
  s.serve c 0x0603 .keeperEarly true (fun s =>
    let system := beAt payload 0 1 == 1
    if payload.length != 4 || decide (1 < beAt payload 0 1) || beAt payload 1 3 != 0 then s.answer c 0x0603 .badFrame
    else
      let s1 := if s.dev.actQueued.isSome then s.setDev { s.dev with actQueued := none, pendingImage := none } else s
      match s1.dev.reset with
      | none => .next (s1.beginReset [c] system false)
      | some j =>
        let k : ResetJob := { j with system := j.system || system }
        if j.saved then (s1.setDev { s1.dev with reset := some k }).answer c 0x0603 .ok
        else .next (s1.setDev { s1.dev with reset := some { k with ctxs := k.ctxs ++ [c] } }))

/-- DEVICE_RESET_MAP_SAVED (R432): the frames are answered; the reset acts 100 µs later. -/
def execDeviceResetMapSaved (s : State) : Res :=
  match s.dev.reset with
  | none => impossible "no reset has begun"
  | some j =>
    require (!j.saved) "the map is saved already"
      (let s1 := (s.setDev { s.dev with reset := some { j with saved := true, ctxs := [] } }).saveMap
       .next (j.ctxs.foldl (fun s c => s.reply c 0x0603 .ok []) s1))

end Sys2Proof.Machine
end

