-- ==== Sys2Proof/Machine/LinkCmds.lean ====
section
/-!
DEFINITION. The events of the Veolo links (R280 to R299): training, flits, credits, the time base, the neighbours.
-/
namespace Sys2Proof.Machine

open Sys2Proof

/-- The rank that this module hails with (R281). -/
def State.rank (s : State) : Nat :=
  if s.veolo.numValid then s.veolo.num else 4096 + ofBe (Config.sm3 Config.identityKey) % 4096

/-- A link in one of some states. -/
def State.linkIn (s : State) (i : Nat) (sts : List LState) : Bool := decide (i < 8) && sts.contains (s.link i).st

/-- LINK_LOSS_OF_SIGNAL (R280): a link that is not DISABLED goes DOWN. -/
def execLinkLossOfSignal (link : Nat) (s : State) : Res :=
  require (decide (link < 8)) "no such link" (.next (if (s.link link).st == .disabled then s else s.linkDown link))

/-- The Veolo ports run (R391, R436). -/
def State.portsRun (s : State) : Bool := [Phase.portDie, .trained, .ready, .running].contains s.dev.phase

/-- LINK_SIGNAL_DETECT (R280, R288): a link that is DOWN enters HAIL, unless it lies beyond the end of an axis that does not wrap. -/
def execLinkSignalDetect (link : Nat) (s : State) : Res :=
  require (s.linkIn link [.down] && s.portsRun) "the link is not DOWN"
    (.next (if s.veolo.numValid && (s.expected (link / 2)).isNone then s
      else s.modLink link (fun l => { l with st := .hail, equalHails := 0 })))

/-- HAIL (R281): another rank starts training, the eighth equal one makes the link DUPLICATE. -/
def execHail (link rank : Nat) (s : State) : Res :=
  require (s.linkIn link [.hail] && decide (rank < 8192)) "no hail is expected"
    (if rank = s.rank then
      let n := (s.link link).equalHails + 1
      if n < 8 then .next (s.modLink link (fun l => { l with equalHails := n }))
      else .next ((s.modLink link (fun l => { l with equalHails := n, st := .duplicate })).devEvent .notPermitted 0 0 link)
    else
      .next ((s.modLink link (fun l => { l with peer := rank % 4096, peerValid := decide (rank < 4096) })).linkTrains link .train))

/-- HAIL_TIMEOUT (R281). -/
def execHailTimeout (link : Nat) (s : State) : Res :=
  require (s.linkIn link [.hail]) "the link is not in HAIL"
    (.next (s.modLink link (fun l => { l with st := .backoff, draws := l.draws + 1 })))

/-- BACKOFF_EXPIRY (R280). -/
def execBackoffExpiry (link : Nat) (s : State) : Res :=
  require (s.linkIn link [.backoff]) "the link is not in BACKOFF" (.next (s.modLink link (fun l => { l with st := .hail, equalHails := 0 })))

/-- TRAIN_COMPLETE (R279, R282, R288): UP, or MISWIRED where discovery disagrees with the topology. The link runs at G5 when the peer is a
PB-5 module or either end does not allow G7. -/
def execTrainComplete (link : Nat) (peer : PeerInfo) (s : State) : Res :=
  require (s.linkIn link [.train]) "the link is not in TRAIN"
    (let ok := s.wiredRight link peer
     let s1 := s.modLink link (fun l =>
       { l with st := if ok then .up else .miswired, g7 := peer.g7 && !peer.pb5 && (s.reg .vl link 0).bit 29, pb5 := peer.pb5,
                peer := peer.num % 4096, peerValid := peer.valid, peerLink := peer.link % 8, peerAligned := peer.aligned })
     let s2 := (s1.refreshNbr (link / 2)).electMaster
     .next (if ok then s2 else s2.devEvent .notPermitted 0 link (peer.num % 4096)))

/-- TRAIN_TIMEOUT (R280). -/
def execTrainTimeout (link : Nat) (s : State) : Res :=
  require (s.linkIn link [.train]) "the link is not in TRAIN" (.next (s.linkDown link))

/-- FAST_RETRAIN (R284): the coefficients, the sequence numbers and the replay buffer stay. -/
def execFastRetrain (link : Nat) (s : State) : Res :=
  require (s.linkIn link [.up]) "the link is not UP" (.next (s.linkTrains link .fastRetrain))

/-- FAST_RETRAIN_COMPLETE (R284): the sender resumes from the oldest flit that is not acknowledged. -/
def execFastRetrainComplete (link : Nat) (s : State) : Res :=
  require (s.linkIn link [.fastRetrain]) "the link is not in FAST_RETRAIN"
    (.next (((s.modLink link (fun l => { l with st := .up, resends := if l.replay.isEmpty then 0 else 1 })).refreshNbr (link / 2))))

/-- FAST_RETRAIN_TIMEOUT (R280). -/
def execFastRetrainTimeout (link : Nat) (s : State) : Res :=
  require (s.linkIn link [.fastRetrain]) "the link is not in FAST_RETRAIN" (.next (s.linkDown link))

/-- A flit that fails a check is discarded (R283): a NAK asks for the expected number, unless one for a sequence error is outstanding. -/
def State.refuseFlit (s : State) (i : Nat) (crc : Bool) : State :=
  if !crc && (s.link i).nakked then s else (s.modLink i (fun l => { l with nakked := true })).bump .vl i 0x10 1

/-- FLIT (R283): its CRC and, for a data flit, its sequence number are checked; what it acknowledges leaves the replay buffer, and a data
flit is taken, and a context that waits for its message goes on. A link that is MISWIRED, or a module with no valid number, takes management traffic only (R288, R289). -/
def execFlit (link : Nat) (f : Flit) (env : List Strike) (s : State) : Res :=
  require (s.linkIn link [.up, .miswired] && decide (f.seq < 4096) && decide (1 ≤ f.len) && decide (f.len ≤ 240) &&
      decide (f.payload.length ≤ 240) && decide (f.part < 128)) "no flit can arrive"
    (if !f.crcOk then .next (s.refuseFlit link true)
     else if f.kind = 0 && f.seq != (s.link link).rxSeq then .next (s.refuseFlit link false)
     else
       let s1 := if f.ackValid then s.modLink link (fun l => l.acked f.ackSeq) else s
       if f.kind ≠ 0 then .next (s1.pumpPair (link / 2))
       else
         let s2 := s1.modLink link (fun l => { l with rxSeq := (l.rxSeq + 1) % 4096, nakked := false })
         let s3 := (s2.strike env).pathErrors f.part env
         let closed := (s.link link).st == .miswired || !s.veolo.numValid
         let s4 := if closed && f.cls != .management then s3 else (s3.takeFlit link f).sweepInbox
         .next (s4.pumpPair (link / 2)).pumpAll)

/-- NAK (R283, R284): the flits before the one named are acknowledged, the rest is sent again; the eighth sending of one flit is a
retrain trigger. -/
def execNak (link seq : Nat) (s : State) : Res :=
  require (s.linkIn link [.up, .miswired] && decide (seq < 4096)) "no NAK can arrive"
    (let l := s.link link
     let s1 := s.bump .vl link 0x10 1
     match l.replay.findIdx? (fun f => f.seq == seq) with
     | none => .next (if seq = l.txSeq then (s1.modLink link (fun l => { l with replay := [], resends := 0 })).pumpPair (link / 2) else s1)
     | some i =>
       let n := if i = 0 then l.resends + 1 else 2
       let s2 := s1.modLink link (fun l => { l with replay := l.replay.drop i, resends := n })
       .next (if 8 ≤ n && l.st == .up then s2.linkTrains link .fastRetrain else s2.pumpPair (link / 2)))

/-- CREDIT_RETURN (R285). -/
def execCreditReturn (link : Nat) (cls : LClass) (s : State) : Res :=
  let i := LClass.code cls
  require (s.linkIn link [.up, .miswired] && decide ((s.link link).credits.getD i 0 < Link.start.credits.getD i 0)) "no credit is outstanding"
    (.next ((s.modLink link (fun l => { l with credits := l.credits.set i (l.credits.getD i 0 + 1) })).pumpPair (link / 2)))

/-- TIME_MARKER (R294, R295): the offset to the parent; a module that is joining steps its count to it once, and then steers, which moves a
count of whole nanoseconds by less than one. -/
def execTimeMarker (link : Nat) (t1 t2 t3 t4 : Int) (s : State) : Res :=
  require (s.linkIn link [.up]) "the link is not UP"
    (if s.veolo.master || s.route s.veolo.masterNum != some (link / 2) then .next s
     else
       let off := ((t2 - t1) - (t4 - t3)) / 2
       let s1 := s.setVeolo { s.veolo with offset := off, joined := true }
       .next (if s.veolo.joined then s1 else s1.setNow (max 0 ((s.now : Int) + off)).toNat))

/-- TIME_ALIGNED (R295): the neighbours learn of it (log entry 21). -/
def execTimeAligned (s : State) : Res :=
  require (s.veolo.joined || s.veolo.master) "the module has not joined"
    (.next ((List.range 4).foldl (fun s d => s.sendMessage d .management 0 alignedNotice) (s.setVeolo { s.veolo with aligned := true })))

/-- A neighbour that may be lost: some link to it has been UP. -/
def State.hasNeighbour (s : State) (dir : Nat) : Bool :=
  let n := s.veolo.nbrs.getD dir .absent
  decide (dir < 4) && n != .absent && n != .lost && n != .left

/-- LEAVE_NOTICE (R298). -/
def execLeaveNotice (dir : Nat) (s : State) : Res :=
  require (s.hasNeighbour dir) "no such neighbour" (.next (s.loseNeighbour dir .left).settleAll)

/-- NEIGHBOUR_LOST (R298). -/
def execNeighbourLost (dir : Nat) (s : State) : Res :=
  require (s.hasNeighbour dir) "no such neighbour" (.next (s.loseNeighbour dir .lost).settleAll)

end Sys2Proof.Machine
end

