-- ==== Sys2Proof/Machine/Security.lean ====
section
/-!
DEFINITION. The Keeper's commands (R404 to R416): attestation, keys, certificates, device sets, link-security keys.
-/
namespace Sys2Proof.Machine

open Sys2Proof

/-- A digest of 32 bytes, or zeros. -/
def digestOr (b : Option Bytes) : Bytes := (b.map Config.sm3).getD (List.replicate 32 0#8)

/-- Bytes brought to a length by zeros behind them. -/
def padTo (n : Nat) (b : Bytes) : Bytes := b.take n ++ List.replicate (n - (b.take n).length) 0#8

/-! ## ATTEST (R407, R413) -/

/-- The firmware image that runs (R407). -/
def State.runningImage (s : State) : Option Bytes := if s.dev.phase = .running then some s.dev.fwImage else none

/-- The SET_IDs bound, in increasing order. -/
def Keeper.setIds (k : Keeper) : List Bytes := (k.sets.map (·.setId)).mergeSort (fun a b => decide (ofBe a ≤ ofBe b))

/-- Bytes 256 to 383 of a quote: the partition it is addressed to, zero at device level. -/
def quotePart (pt : Option Part) : Bytes :=
  match pt with
  | none => List.replicate 128 0#8
  | some pt =>
    beBytes 4 ((pt.image.map (·.handle)).getD 0) ++ beBytes 4 ((pt.image.map (·.edition)).getD 0) ++ beBytes 1 (MState.code pt.mstate) ++
      beBytes 1 pt.cls ++ beBytes 2 pt.quads.length ++ beBytes 4 0 ++ padTo 32 (digestOr (pt.image.map (·.cart))) ++
      padTo 32 (match pt.image with | some im => if im.hasKeyBlock then im.setId else [] | none => []) ++
      (List.range 16).flatMap (fun b =>
        beBytes 1 (((List.range 8).map (fun i => if pt.quads.contains (8 * b + i) then 2 ^ i else 0)).sum)) ++ padTo 32 (digestOr pt.ownerKey)

/-- Bytes 0 to 383 of a quote (Table 5). -/
def State.quoteBody (s : State) (p : Nat) (nonce : Bytes) : Bytes :=
  let k := s.keeper
  let sets := k.setIds
  beBytes 4 0x51554F54 ++ beBytes 1 1 ++ beBytes 1 (Phase.state s.dev.phase) ++ beBytes 2 p ++ beBytes 2 s.numField ++ beBytes 2 0 ++
    beBytes 4 (imageVersion s.dev.rtImage) ++ beBytes 4 s.dev.fwVersion ++ beBytes 4 s.params.floor ++ beBytes 8 s.now ++ padTo 32 nonce ++
    padTo 32 (Config.sm3 Config.identityKey) ++ padTo 32 (Config.sm3 s.dev.rtImage) ++ padTo 32 (digestOr s.runningImage) ++
    padTo 32 (digestOr s.dev.pendingImage) ++ padTo 32 (digestOr k.ownerKey) ++
    padTo 32 (if sets.isEmpty then [] else Config.sm3 sets.flatten) ++ quotePart (s.part p)

/-- A quote with its signature. -/
def State.quote (s : State) (p : Nat) (nonce : Bytes) : Bytes :=
  s.quoteBody p nonce ++ padTo 64 (Config.identitySign (s.quoteBody p nonce))

/-- ATTEST. A partition that does not exist cannot be quoted. -/
def execAttest (c : Ctx) (payload : Bytes) (s : State) : Res :=
  s.serve c 0x0801 .keeperEarly false (fun s =>
    if payload.length != 32 then s.answer c 0x0801 .badFrame
    else if c.part != 0xFFFF && (s.part c.part).isNone then s.answer c 0x0801 .notPermitted
    else .next ((s.bump .kpr 0 0x08 1).reply c 0x0801 .ok (s.quote c.part payload)))

/-! ## GET_CERTS (R406), SET_KEY (R411) -/

/-- GET_CERTS. -/
def execGetCerts (c : Ctx) (payload : Bytes) (s : State) : Res :=
  s.serve c 0x0804 .keeper false (fun s =>
    if !payload.isEmpty then s.answer c 0x0804 .badFrame else .next (s.reply c 0x0804 .ok (Config.certs.take 4096)))

/-- A field of SET_KEY out of its range; a key that is not of the form of R404, but for the zeros of a removal. -/
def setKeyBad (pl : Bytes) : Bool :=
  let i := beAt pl 1 1
  let k := slice pl 4 65
  pl.length != 72 || !within 0 (match beAt pl 0 1 with | 0 => 0 | 1 => 7 | _ => 127) i || decide (2 < beAt pl 0 1) || beAt pl 2 2 != 0 ||
    beAt pl 69 3 != 0 || !(allZero k || keyOk k)

/-- The device owner key removed: every registered key, bound set and mark with it. -/
def Keeper.unowned (k : Keeper) : Keeper :=
  { k with ownerKey := none, ownerMark := 0, commandMark := 0, lastCommand := none, signers := [], sets := [], bind := none }

/-- SET_KEY. Registering a key sets its marks to 0 (R409, R412). -/
def execSetKey (c : Ctx) (payload : Bytes) (s : State) : Res :=
  s.serve c 0x0803 .keeper true (fun s =>
    let i := beAt payload 1 1
    let key := slice payload 4 65
    let remove := allZero key
    let k := s.keeper
    if setKeyBad payload then s.answer c 0x0803 .badFrame
    else
      match beAt payload 0 1 with
      | 0 =>
        if remove then
          if !s.parts.isEmpty then s.answer c 0x0803 .notPermitted else (s.setKeeper k.unowned).answer c 0x0803 .ok
        else (s.setKeeper { k with ownerKey := some key, ownerMark := 0, commandMark := 0, lastCommand := none }).answer c 0x0803 .ok
      | 1 => (s.setKeeper { k with signers := if remove then NMap.erase k.signers i else NMap.insert k.signers i key }).answer c 0x0803 .ok
      | _ =>
        if (s.part i).isNone then s.answer c 0x0803 .notPermitted
        else (s.modPart i (fun pt => { pt with ownerKey := if remove then none else some key, ownerMark := 0 })).answer c 0x0803 .ok)

/-! ## Device sets (R414, R415) -/

/-- An entry of a set certificate, from its place (Table 6). -/
def certEntry (cert : Bytes) (i : Nat) : Bytes := slice cert (128 + 36 * i) 36

/-- A certificate meets Table 6, and its length its ENTRIES. -/
def certOk (cert : Bytes) : Bool :=
  let n := beAt cert 6 2
  beAt cert 0 4 == 0x53455443 && beAt cert 4 1 == 1 && beAt cert 5 1 == 0 && within 1 4096 n && cert.length == 128 + 36 * n + 96 &&
    beAt cert 12 1 == 4 && allZero (slice cert 77 51) &&
    (List.range n).all (fun i => decide (beAt (certEntry cert i) 0 2 < 4096) && beAt (certEntry cert i) 2 2 == 0)

/-- A certificate's signature under a registered signer key. -/
def State.certSigned (s : State) (cert : Bytes) : Bool :=
  let body := cert.take (cert.length - 96)
  s.keeper.signers.any (fun e =>
    Config.sm3 e.2 == slice cert (cert.length - 96) 32 && Config.sm2Verify e.2 body (cert.drop (cert.length - 64)))

/-- The entry with this module's identity digest: its device number. -/
def certDevice (cert : Bytes) : Option Nat :=
  (((List.range (beAt cert 6 2)).map (certEntry cert)).find? (fun e => slice e 4 32 == Config.sm3 Config.identityKey)).map (fun e => beAt e 0 2)

/-- What a complete BIND_SET comes to: its checks in the order of R414. -/
def State.finishBind (s : State) (cert key : Bytes) : State × Status :=
  let k := s.keeper
  if !certOk cert then (s, .badFrame)
  else if !s.certSigned cert then (s.bump .kpr 0 0x04 1, .signatureInvalid)
  else
    match certDevice cert with
    | none => (s, .notBound)
    | some n =>
      match (if key.length = 129 then Config.unwrap key else none) with
      | none => (s, .digestMismatch)
      | some priv =>
        if !Config.keyMatches cert priv then (s, .digestMismatch)
        else if k.sets.any (fun b => b.setId == Config.sm3 cert) then (s, .ok)
        else if 16 ≤ k.sets.length then (s, .noResource)
        else (s.setKeeper { k with sets := k.sets ++ [{ setId := Config.sm3 cert, setKey := slice cert 12 65, devNum := n, priv := priv }] }, .ok)

/-- A message taken by the BIND_SET that is open: the certificate first, then the wrapped key, each from offset 0 without gaps; none where it does
not follow. -/
def BindJob.take (j : BindJob) (part off : Nat) (d : Bytes) : Option BindJob :=
  if part = 0 then
    if j.part = 0 && off = j.cert.length && decide (off + d.length ≤ 147680) then some { j with cert := j.cert ++ d } else none
  else if off = j.key.length && !j.cert.isEmpty && decide (off + d.length ≤ 129) then some { j with part := 1, key := j.key ++ d } else none

/-- BIND_SET. -/
def execBindSet (c : Ctx) (payload : Bytes) (s : State) : Res :=
  s.serve c 0x0802 .keeper true (fun s =>
    let fl := beAt payload 0 1
    let d := payload.drop 8
    let ended := s.setKeeper { s.keeper with bind := none }
    if payload.length < 8 || decide (4 ≤ fl) || decide (1 < beAt payload 1 1) || beAt payload 2 2 != 0 || decide (4080 < d.length) then
      s.answer c 0x0802 .badFrame
    else if s.keeper.bind.any (fun j => j.sess != c.sess) then s.answer c 0x0802 .notPermitted
    else
      let open_ : Option BindJob := if fl % 2 = 1 then some { sess := c.sess, cert := [], key := [], part := 0 } else s.keeper.bind
      match open_.bind (fun j => j.take (beAt payload 1 1) (beAt payload 4 4) d) with
      | none => ended.answer c 0x0802 .badFrame
      | some j =>
        if fl / 2 % 2 = 0 then (s.setKeeper { s.keeper with bind := some j }).answer c 0x0802 .ok
        else
          let r := ended.finishBind j.cert j.key
          r.1.answer c 0x0802 r.2)

/-- BIND_SET_TIMEOUT: 10 s without a message. -/
def execBindSetTimeout (s : State) : Res :=
  require s.keeper.bind.isSome "no BIND_SET is open" (.next (s.setKeeper { s.keeper with bind := none }))

/-- An image names a device set. -/
def Image.namesSet (im : Image) (id : Bytes) : Bool := im.hasKeyBlock && im.setId == id

/-- UNBIND_SET. -/
def execUnbindSet (c : Ctx) (payload : Bytes) (s : State) : Res :=
  s.serve c 0x0806 .keeper true (fun s =>
    if payload.length != 32 then s.answer c 0x0806 .badFrame
    else if s.parts.any (fun e => e.2.image.any (fun im => im.namesSet payload) || e.2.next.any (fun im => im.namesSet payload)) then
      s.answer c 0x0806 .notPermitted
    else (s.setKeeper { s.keeper with sets := s.keeper.sets.filter (fun b => b.setId != payload) }).answer c 0x0806 .ok)

/-! ## SEC_KEY (R416) -/

/-- SEC_KEY. While another association of the channel has a key, frames under it are still accepted for 10 ms after the change (R361). -/
def execSecKey (c : Ctx) (payload : Bytes) (s : State) : Res :=
  s.serve c 0x0805 .keeper true (fun s =>
    let port := beAt payload 0 1
    let dir := beAt payload 1 1
    let an := beAt payload 2 1
    if payload.length != 168 || decide (3 < port) || decide (1 < dir) || decide (3 < an) || beAt payload 3 1 != 0 || beAt payload 165 3 != 0 then
      s.answer c 0x0805 .badFrame
    else
      match Config.unwrap (slice payload 36 129) with
      | none => s.answer c 0x0805 .digestMismatch
      | some sak =>
        let k := s.keeper
        let base := 8 * port + 4 * dir
        let v : SecKeyEntry :=
          { ssci := beAt payload 4 4, sci := beAt payload 8 8, nextPn := beAt payload 16 8, salt := slice payload 24 12, sak := sak }
        let others := k.secKeys.any (fun e => e.1 / 4 == base / 4 && e.1 != base + an)
        let old := k.secOld.filter (· != (port, dir))
        (s.setKeeper
          { k with secKeys := NMap.insert k.secKeys (base + an) v, secOld := if others then (port, dir) :: old else old }).answer c 0x0805 .ok)

end Sys2Proof.Machine
end

