-- ==== Sys2Proof/Machine/Sideband.lean ====
section
/-!
DEFINITION. The SMBus sideband (R382 to R385): the PMBus commands, register reads, the mailbox, the alert. The bit places of the PMBus status
words are those of PMBus 1.4 (log entry 27).
-/
namespace Sys2Proof.Machine

open Sys2Proof

/-! ## When it answers -/

/-- The PMBus commands are acknowledged: with power, but for 5 ms after power good and after the start of each system reset. -/
def State.pmbus (s : State) : Bool := s.powered && decide (s.smb.deadUntil ≤ s.now)

/-- MFR_REG_ADDR and MFR_REG_DATA are acknowledged: STARTING, READY_FOR_FIRMWARE or RUNNING. -/
def State.smbRegs (s : State) : Bool := s.pmbus && s.dev.phase != .held && s.dev.phase != .recovery

/-- The mailbox commands are acknowledged: while firmware runs. -/
def State.smbMailbox (s : State) : Bool := s.pmbus && s.dev.phase == .running && !s.dev.fwHalted

/-- A command that is not acknowledged has no effect. -/
def State.smbDo (s : State) (ok : Bool) (t : State) : Res := .next (if ok then t else s)

/-- The bytes that a read returns. -/
def State.smbRead (s : State) (bs : Bytes) : State := s.setSmb { s.smb with readOut := s.smb.readOut ++ [bs] }

/-- A word as SMBus carries it: the low byte first. -/
def smbWord (w : Nat) : Bytes := (beBytes 2 w).reverse

/-! ## Status and readings -/

/-- STATUS_INPUT: over-voltage fault and warning, under-voltage warning. The under-voltage fault takes the power away, so its bit reads 0. -/
def Smb.statusInput (v : Smb) : Nat := bitAt v.ovFault 7 + bitAt v.ovWarn 6 + bitAt v.uvWarn 5

/-- STATUS_TEMPERATURE: over-temperature fault and warning. -/
def Smb.statusTemperature (v : Smb) : Nat := bitAt v.otFault 7 + bitAt v.otWarn 6

/-- STATUS_WORD: input, temperature and communication. -/
def Smb.statusWord (v : Smb) : Nat :=
  bitAt (v.statusInput != 0) 13 + bitAt (v.statusTemperature != 0) 2 + bitAt v.commFault 1

/-- SMB_ALERT_N is asserted (R384, R385). -/
def Smb.alert (v : Smb) : Bool := v.statusWord != 0 || v.replyReady

/-- A number in LINEAR11: five bits of exponent, eleven of mantissa, which saturates. -/
def linear11 (e m : Int) : Nat := twos 5 e * 2048 + twos 11 (max (-1023) (min 1023 m))

/-- CLEAR_FAULTS. -/
def execClearFaults (s : State) : Res :=
  s.smbDo s.pmbus (s.setSmb
    { s.smb with commFault := false, uvWarn := false, ovWarn := false, ovFault := false, otWarn := false, otFault := false })

/-- STATUS_WORD: the read clears the communication fault, whose condition is over (R385). -/
def execStatusWord (s : State) : Res :=
  let t := s.smbRead (smbWord s.smb.statusWord)
  s.smbDo s.pmbus (t.setSmb { t.smb with commFault := false })

/-- STATUS_INPUT: the read clears the bits whose conditions have ended (R385). -/
def execStatusInput (s : State) : Res :=
  let t := s.smbRead (beBytes 1 s.smb.statusInput)
  s.smbDo s.pmbus (t.setSmb
    { t.smb with uvWarn := t.smb.uvWarn && s.dev.inputWarnUv, ovWarn := t.smb.ovWarn && s.dev.inputWarnOv,
                 ovFault := t.smb.ovFault && s.heldBy .overVoltage })

/-- STATUS_TEMPERATURE: the read clears the bits whose conditions have ended. -/
def execStatusTemperature (s : State) : Res :=
  let t := s.smbRead (beBytes 1 s.smb.statusTemperature)
  s.smbDo s.pmbus (t.setSmb { t.smb with otWarn := t.smb.otWarn && s.guard.level != 0, otFault := t.smb.otFault && s.heldBy .trip })

/-- READ_VIN: 0.125 V. -/
def execReadVin (s : State) : Res := s.smbDo s.pmbus (s.smbRead (smbWord (linear11 (-3) s.guard.vin)))

/-- READ_IIN: 15.625 mA. -/
def execReadIin (s : State) : Res := s.smbDo s.pmbus (s.smbRead (smbWord (linear11 (-6) (s.guard.iin * 64 / 1000 : Nat))))

/-- READ_TEMPERATURE_1: the hottest junction, 0.25 °C. -/
def execReadTemperature1 (s : State) : Res := s.smbDo s.pmbus (s.smbRead (smbWord (linear11 (-2) s.guard.junction)))

/-- READ_TEMPERATURE_2: the lid. -/
def execReadTemperature2 (s : State) : Res := s.smbDo s.pmbus (s.smbRead (smbWord (linear11 (-2) s.guard.lid)))

/-- READ_TEMPERATURE_3: the Port die. -/
def execReadTemperature3 (s : State) : Res := s.smbDo s.pmbus (s.smbRead (smbWord (linear11 (-2) s.guard.portJunction)))

/-- READ_PIN: 0.5 W, the average of PG_POWER. -/
def execReadPin (s : State) : Res := s.smbDo s.pmbus (s.smbRead (smbWord (linear11 (-1) (s.guard.average 10000000 / 4000 : Nat))))

/-- PMBUS_REVISION. -/
def execPmbusRevision (s : State) : Res := s.smbDo s.pmbus (s.smbRead [0x44#8])

/-- ALERT_RESPONSE: while the alert is asserted, the device gives its address, in bits 7:1. -/
def execAlertResponse (s : State) : Res :=
  s.smbDo (s.pmbus && s.smb.alert) (s.smbRead (beBytes 1 (2 * (s.reg .dev 0 0x300).field 6 0)))

/-! ## Registers (R383) -/

/-- MFR_REG_ADDR. -/
def execMfrRegAddr (addr : Word) (s : State) : Res := s.smbDo s.smbRegs (s.setSmb { s.smb with regAddr := addr })

/-- The communication fault of STATUS_WORD set. -/
def State.smbFault (s : State) : State := s.setSmb { s.smb with commFault := true }

/-- A register read by the sideband: the value and what the read clears, or ones and the communication fault. -/
def State.sidebandReg (s : State) (a : Nat) : State × Word :=
  match regPlace a with
  | some (b, k, off) =>
    if a % 4 != 0 || !b.sideband off then (s.smbFault, 0xFFFFFFFF#32)
    else if b.occupied off then (s.afterRead b k off, s.regValue b k off)
    else (s, 0#32)
  | none => (s.smbFault, 0xFFFFFFFF#32)

/-- MFR_REG_DATA. -/
def execMfrRegData (s : State) : Res :=
  let r := s.sidebandReg s.smb.regAddr.toNat
  s.smbDo s.smbRegs (r.1.smbRead (beBytes 4 r.2.toNat))

/-! ## The mailbox (R384) -/

/-- MFR_MBOX_WR: bytes past the 256th are not taken and set the error bit; a block of no byte or of more than 128 is a communication fault. -/
def execMfrMboxWr (data : Bytes) (s : State) : Res :=
  s.smbDo s.smbMailbox
    (if !within 1 128 data.length then s.smbFault
     else
       let b := s.smb.mbox ++ data
       s.setSmb { s.smb with mbox := b.take 256, error := s.smb.error || decide (256 < b.length) })

/-- What refuses a sideband message: the header checks of R364, then SESSION, the kind and the segments of R384, then CHECK. -/
def sidebandRefusal (raw : Bytes) : Option Status :=
  let h := parseHdr3 raw
  if raw.length < 32 then some .badFrame
  else if h.version != 3 then some .badVersion
  else
    match h.refusal (raw.length - 32) with
    | some st => some st
    | none =>
      if h.sess != 0xFFFF || h.kind != 2 || !(h.flags / 16 % 4 == 0 || h.flags / 16 % 4 == 3) || crc32c (raw.take 28 ++ slice raw 32 h.length) != h.check then
        some .badFrame
      else none

/-- A sideband message served: with the device owner's role when MBOX_OWNER is 1, else REG_READ alone. -/
def State.sidebandMessage (s : State) (raw : Bytes) : Res :=
  let h := parseHdr3 raw
  let c : Ctx := { sess := sidebandSess, part := h.part, handle := h.handle, via := none }
  match sidebandRefusal raw with
  | some st => s.answer c h.opcode st
  | none =>
    if (!s.isOwner c && h.opcode != 0x0606) || h.opcode == 0x0604 then s.answer c h.opcode .notPermitted
    else s.runMgmt 3 c h.opcode (slice raw 32 h.length)

/-- MFR_MBOX_GO: the mailbox gives up its message; a go while one is served sets the error bit. -/
def execMfrMboxGo (s : State) : Res :=
  if !s.smbMailbox then .next s
  else if s.smb.busy then .next (s.setSmb { s.smb with error := true })
  else
    (s.setSmb { s.smb with busy := true, mbox := [], reply := none, readPos := 0, replyReady := false }).sidebandMessage s.smb.mbox

/-- MFR_MBOX_CLEAR: the mailbox and its reply are cleared; a message that is served goes on. -/
def execMfrMboxClear (s : State) : Res :=
  s.smbDo s.smbMailbox (s.setSmb { s.smb with
    mbox := [], reply := if s.smb.replyReady then none else s.smb.reply, readPos := 0, replyReady := false, error := false })

/-- MFR_MBOX_CTL read: busy, reply ready, error. -/
def execMfrMboxStatus (s : State) : Res :=
  s.smbDo s.smbMailbox (s.smbRead (beBytes 1 (bitAt s.smb.busy 0 + bitAt s.smb.replyReady 1 + bitAt s.smb.error 2)))

/-- The reply as it is read: a generation-3 frame. -/
def Smb.replyBytes (v : Smb) : Bytes :=
  match v.reply with
  | none => []
  | some f =>
    buildFrame { version := f.gen, kind := f.kind, flags := f.flags, part := f.part, sess := f.sess, seq := 0, ackNum := 0, handle := f.handle,
                 opcode := f.opcode, status := Status.code f.status, length := 0, check := 0 } f.payload

/-- MFR_MBOX_RD: the next bytes of the reply, at most 128; at its end the alert is released. -/
def execMfrMboxRd (len : Nat) (s : State) : Res :=
  let bs := if s.smb.replyReady then slice s.smb.replyBytes s.smb.readPos (min 128 len) else []
  let pos := s.smb.readPos + bs.length
  let t := s.smbRead bs
  s.smbDo s.smbMailbox (t.setSmb { t.smb with
    readPos := pos, replyReady := t.smb.replyReady && decide (pos < s.smb.replyBytes.length),
    reply := if s.smb.replyReady && decide (s.smb.replyBytes.length ≤ pos) then none else t.smb.reply })

/-- SIDEBAND_REPLY_READY: a reply stands in the mailbox; after PENDING the message is still served, and its final status follows. -/
def execSidebandReplyReady (s : State) : Res :=
  match s.smb.reply with
  | none => impossible "no reply is due"
  | some f =>
    require (!s.smb.replyReady) "the reply is ready already"
      (.next (s.setSmb { s.smb with busy := s.smb.busy && f.status == .pending, readPos := 0, replyReady := true }))

end Sys2Proof.Machine
end

