-- ==== Sys2Proof/Machine/Dispatch.lean ====
section
/-!
DEFINITION. The dispatch: one arm per command, each one call of its meaning in the files of the families.
-/
namespace Sys2Proof.Machine

def exec (i : Instr) (s : State) : Host.Outcome State Fault Refusal :=
  match i with
  | .meridian p now => Sys2Proof.Machine.execMeridian p now s
  | .emptyStep p now => Sys2Proof.Machine.execEmptyStep p now s
  | .pipelineDone p fromNext => Sys2Proof.Machine.execPipelineDone p fromNext s
  | .pipelineTMessage p t count confirmed => Sys2Proof.Machine.execPipelineTMessage p t count confirmed s
  | .pipelineMeridian p now => Sys2Proof.Machine.execPipelineMeridian p now s
  | .targetAcceptReport p stage handle target => Sys2Proof.Machine.execTargetAcceptReport p stage handle target s
  | .stepDecisions p count block ds => Sys2Proof.Machine.execStepDecisions p count block ds s
  | .tokenReturn p handle beam token => Sys2Proof.Machine.execTokenReturn p handle beam token s
  | .heartbeat => Sys2Proof.Machine.execHeartbeat s
  | .mgmtProcessorStopped => Sys2Proof.Machine.execMgmtProcessorStopped s
  | .matrix tiles a b bank cont env => Sys2Proof.Machine.execMatrix tiles a b bank cont env s
  | .drain t bank fmt dst env => Sys2Proof.Machine.execDrain t bank fmt dst env s
  | .drainComplete t bank => Sys2Proof.Machine.execDrainComplete t bank s
  | .preload t bank row int => Sys2Proof.Machine.execPreload t bank row int s
  | .twinBind t src => Sys2Proof.Machine.execTwinBind t src s
  | .twinUnbind t => Sys2Proof.Machine.execTwinUnbind t s
  | .twinAdd t src env => Sys2Proof.Machine.execTwinAdd t src env s
  | .twinMul t row => Sys2Proof.Machine.execTwinMul t row s
  | .stateRead t row => Sys2Proof.Machine.execStateRead t row s
  | .stateOverwrite t row => Sys2Proof.Machine.execStateOverwrite t row s
  | .streamCommit p handle slot planes env => Sys2Proof.Machine.execStreamCommit p handle slot planes env s
  | .kernelLaunch t crews entry args body env => Sys2Proof.Machine.execKernelLaunch t crews entry args body env s
  | .kernelEnd t kernel => Sys2Proof.Machine.execKernelEnd t kernel s
  | .laneInstruction t crew op => Sys2Proof.Machine.execLaneInstruction t crew op s
  | .gatherRead t crew width addr d env => Sys2Proof.Machine.execGatherRead t crew width addr d env s
  | .gatherWrite t crew width addr a => Sys2Proof.Machine.execGatherWrite t crew width addr a s
  | .laneTableLookup t crew width slot idx d => Sys2Proof.Machine.execLaneTableLookup t crew width slot idx d s
  | .sfuLane t crew fn inFmt out upper rotary d a b env => Sys2Proof.Machine.execSfuLane t crew fn inFmt out upper rotary d a b env s
  | .sfuRowOperation t fn inFmt outFmt src dst env => Sys2Proof.Machine.execSfuRowOperation t fn inFmt outFmt src dst env s
  | .randomDraw t crew seed pos draw beam d => Sys2Proof.Machine.execRandomDraw t crew seed pos draw beam d s
  | .dma t op env => Sys2Proof.Machine.execDma t op env s
  | .dmaComplete t id now => Sys2Proof.Machine.execDmaComplete t id now s
  | .fill t row count c => Sys2Proof.Machine.execFill t row count c s
  | .copy t src dst count env => Sys2Proof.Machine.execCopy t src dst count env s
  | .compressOnStore t row dst tag pod env => Sys2Proof.Machine.execCompressOnStore t row dst tag pod env s
  | .podTagWrite bay => Sys2Proof.Machine.execPodTagWrite bay s
  | .tableLoad t srcRow op env => Sys2Proof.Machine.execTableLoad t srcRow op env s
  | .tblLoad c p value => Sys2Proof.Machine.execTblLoad c p value s
  | .tableLoadComplete p => Sys2Proof.Machine.execTableLoadComplete p s
  | .tableCopyComplete p kind => Sys2Proof.Machine.execTableCopyComplete p kind s
  | .linkSend t cls dir row count width fp32 env => Sys2Proof.Machine.execLinkSend t cls dir row count width fp32 env s
  | .linkReceive t cls dir row count width fp32 => Sys2Proof.Machine.execLinkReceive t cls dir row count width fp32 s
  | .sync p bay now op => Sys2Proof.Machine.execSync p bay now op s
  | .flow p bay at_ op => Sys2Proof.Machine.execFlow p bay at_ op s
  | .endStep p bay => Sys2Proof.Machine.execEndStep p bay s
  | .fetch p tensor layer env => Sys2Proof.Machine.execFetch p tensor layer env s
  | .fetchComplete p tensor now => Sys2Proof.Machine.execFetchComplete p tensor now s
  | .scratchpadScrub t env => Sys2Proof.Machine.execScratchpadScrub t env s
  | .gratCtlWrite c p value => Sys2Proof.Machine.execGratCtlWrite c p value s
  | .tileZeroFill t => Sys2Proof.Machine.execTileZeroFill t s
  | .statisticsPartial p collective incoming own ns => Sys2Proof.Machine.execStatisticsPartial p collective incoming own ns s
  | .ringSegment p owner handle offset round first toks blocked own => Sys2Proof.Machine.execRingSegment p owner handle offset round first toks blocked own s
  | .ringQuery p owner handle own => Sys2Proof.Machine.execRingQuery p owner handle own s
  | .ringRelease p owner handle => Sys2Proof.Machine.execRingRelease p owner handle s
  | .gazetteerWalk p handle env => Sys2Proof.Machine.execGazetteerWalk p handle env s
  | .gazetteerWalkEnd p handle => Sys2Proof.Machine.execGazetteerWalkEnd p handle s
  | .gzRebuildComplete p => Sys2Proof.Machine.execGzRebuildComplete p s
  | .gzInitComplete p => Sys2Proof.Machine.execGzInitComplete p s
  | .gzCtlWrite c p value => Sys2Proof.Machine.execGzCtlWrite c p value s
  | .kvRingCtlWrite c p value => Sys2Proof.Machine.execKvRingCtlWrite c p value s
  | .bitmapLoad c p value => Sys2Proof.Machine.execBitmapLoad c p value s
  | .bitmapCopyComplete p => Sys2Proof.Machine.execBitmapCopyComplete p s
  | .strmCtlWrite c p value => Sys2Proof.Machine.execStrmCtlWrite c p value s
  | .openRequest c payload => Sys2Proof.Machine.execOpenRequest c payload s
  | .appendTokens c payload => Sys2Proof.Machine.execAppendTokens c payload s
  | .cancelRequest c payload => Sys2Proof.Machine.execCancelRequest c payload s
  | .pauseRequest c payload => Sys2Proof.Machine.execPauseRequest c payload s
  | .resumeRequest c payload => Sys2Proof.Machine.execResumeRequest c payload s
  | .promptTimeout p handle => Sys2Proof.Machine.execPromptTimeout p handle s
  | .pauseMoveComplete p handle => Sys2Proof.Machine.execPauseMoveComplete p handle s
  | .pauseExpiry p handle now => Sys2Proof.Machine.execPauseExpiry p handle now s
  | .tombstoneExpiry p handle => Sys2Proof.Machine.execTombstoneExpiry p handle s
  | .restoreComplete p handle env => Sys2Proof.Machine.execRestoreComplete p handle env s
  | .openStream c payload => Sys2Proof.Machine.execOpenStream c payload s
  | .streamChunk c payload => Sys2Proof.Machine.execStreamChunk c payload s
  | .parkStream c payload => Sys2Proof.Machine.execParkStream c payload s
  | .closeStream c payload => Sys2Proof.Machine.execCloseStream c payload s
  | .lsReqLimitWrite c p value => Sys2Proof.Machine.execLsReqLimitWrite c p value s
  | .lsReqCtlWrite c p value => Sys2Proof.Machine.execLsReqCtlWrite c p value s
  | .dramPatrolScrub burst env => Sys2Proof.Machine.execDramPatrolScrub burst env s
  | .refreshRatePoll hottest => Sys2Proof.Machine.execRefreshRatePoll hottest s
  | .refreshWindow package => Sys2Proof.Machine.execRefreshWindow package s
  | .dramCalibration channel good => Sys2Proof.Machine.execDramCalibration channel good s
  | .nandChannelFail channel => Sys2Proof.Machine.execNandChannelFail channel s
  | .mapSave => Sys2Proof.Machine.execMapSave s
  | .readDisturbRefresh block => Sys2Proof.Machine.execReadDisturbRefresh block s
  | .retentionPatrol block retries now => Sys2Proof.Machine.execRetentionPatrol block retries now s
  | .garbageCollection blocks => Sys2Proof.Machine.execGarbageCollection blocks s
  | .wearLevelling block => Sys2Proof.Machine.execWearLevelling block s
  | .nandOperationComplete die => Sys2Proof.Machine.execNandOperationComplete die s
  | .ntPauseCtlWrite c value => Sys2Proof.Machine.execNtPauseCtlWrite c value s
  | .pauseAreaResize => Sys2Proof.Machine.execPauseAreaResize s
  | .loanRequest c p value => Sys2Proof.Machine.execLoanRequest c p value s
  | .loanGrant p link extents answer => Sys2Proof.Machine.execLoanGrant p link extents answer s
  | .loanRelease c p value => Sys2Proof.Machine.execLoanRelease c p value s
  | .tierLendOfferWrite c value => Sys2Proof.Machine.execTierLendOfferWrite c value s
  | .reclaimNotice p loan => Sys2Proof.Machine.execReclaimNotice p loan s
  | .graceExpiry p loan => Sys2Proof.Machine.execGraceExpiry p loan s
  | .lentMemoryRequest link loan off write len cls => Sys2Proof.Machine.execLentMemoryRequest link loan off write len cls s
  | .linkLossOfSignal link => Sys2Proof.Machine.execLinkLossOfSignal link s
  | .linkSignalDetect link => Sys2Proof.Machine.execLinkSignalDetect link s
  | .hail link rank => Sys2Proof.Machine.execHail link rank s
  | .hailTimeout link => Sys2Proof.Machine.execHailTimeout link s
  | .backoffExpiry link => Sys2Proof.Machine.execBackoffExpiry link s
  | .trainComplete link peer => Sys2Proof.Machine.execTrainComplete link peer s
  | .trainTimeout link => Sys2Proof.Machine.execTrainTimeout link s
  | .fastRetrain link => Sys2Proof.Machine.execFastRetrain link s
  | .fastRetrainComplete link => Sys2Proof.Machine.execFastRetrainComplete link s
  | .fastRetrainTimeout link => Sys2Proof.Machine.execFastRetrainTimeout link s
  | .retrain c link value => Sys2Proof.Machine.execRetrain c link value s
  | .flit link f env => Sys2Proof.Machine.execFlit link f env s
  | .nak link seq => Sys2Proof.Machine.execNak link seq s
  | .creditReturn link cls => Sys2Proof.Machine.execCreditReturn link cls s
  | .timeMarker link t1 t2 t3 t4 => Sys2Proof.Machine.execTimeMarker link t1 t2 t3 t4 s
  | .timeAligned => Sys2Proof.Machine.execTimeAligned s
  | .leaveNotice dir => Sys2Proof.Machine.execLeaveNotice dir s
  | .neighbourLost dir => Sys2Proof.Machine.execNeighbourLost dir s
  | .vlDevNumWrite c value => Sys2Proof.Machine.execVlDevNumWrite c value s
  | .vlTopoCtlWrite c value => Sys2Proof.Machine.execVlTopoCtlWrite c value s
  | .resetNotice p stage => Sys2Proof.Machine.execResetNotice p stage s
  | .abortNotice p count => Sys2Proof.Machine.execAbortNotice p count s
  | .shardQuery link digest => Sys2Proof.Machine.execShardQuery link digest s
  | .shardQueryTimeout p answers => Sys2Proof.Machine.execShardQueryTimeout p answers s
  | .installModel c payload => Sys2Proof.Machine.execInstallModel c payload s
  | .shardData c payload => Sys2Proof.Machine.execShardData c payload s
  | .shardDataTimeout p => Sys2Proof.Machine.execShardDataTimeout p s
  | .shardArrived p => Sys2Proof.Machine.execShardArrived p s
  | .loadComplete p readable => Sys2Proof.Machine.execLoadComplete p readable s
  | .swapLayers c payload => Sys2Proof.Machine.execSwapLayers c payload s
  | .swapReadComplete p readable => Sys2Proof.Machine.execSwapReadComplete p readable s
  | .stopModel c payload => Sys2Proof.Machine.execStopModel c payload s
  | .startModel c payload => Sys2Proof.Machine.execStartModel c payload s
  | .removeModel c payload => Sys2Proof.Machine.execRemoveModel c payload s
  | .loadLendable c payload => Sys2Proof.Machine.execLoadLendable c payload s
  | .installInset c payload => Sys2Proof.Machine.execInstallInset c payload s
  | .insetTimeout p handle => Sys2Proof.Machine.execInsetTimeout p handle s
  | .removeInset c payload => Sys2Proof.Machine.execRemoveInset c payload s
  | .shardScrub p next mismatch => Sys2Proof.Machine.execShardScrub p next mismatch s
  | .cfRead c payload env => Sys2Proof.Machine.execCfRead c payload env s
  | .cfProgram c payload => Sys2Proof.Machine.execCfProgram c payload s
  | .cfErase c payload => Sys2Proof.Machine.execCfErase c payload s
  | .cfEraseComplete => Sys2Proof.Machine.execCfEraseComplete s
  | .cfProgramComplete => Sys2Proof.Machine.execCfProgramComplete s
  | .cfSuspend c payload => Sys2Proof.Machine.execCfSuspend c payload s
  | .cfResume c payload => Sys2Proof.Machine.execCfResume c payload s
  | .cfBlankCheck c payload => Sys2Proof.Machine.execCfBlankCheck c payload s
  | .cfHalfList c payload => Sys2Proof.Machine.execCfHalfList c payload s
  | .cfProtSet c payload => Sys2Proof.Machine.execCfProtSet c payload s
  | .cfPwSet c payload => Sys2Proof.Machine.execCfPwSet c payload s
  | .cfProtRead c payload => Sys2Proof.Machine.execCfProtRead c payload s
  | .cfTwinWrite c payload => Sys2Proof.Machine.execCfTwinWrite c payload s
  | .cfBootSwap c payload => Sys2Proof.Machine.execCfBootSwap c payload s
  | .cfStartClear c payload => Sys2Proof.Machine.execCfStartClear c payload s
  | .cfPwReset c payload => Sys2Proof.Machine.execCfPwReset c payload s
  | .cfLogRead c payload env => Sys2Proof.Machine.execCfLogRead c payload env s
  | .ethLinkUp port speed master sqi => Sys2Proof.Machine.execEthLinkUp port speed master sqi s
  | .ethLinkDown port => Sys2Proof.Machine.execEthLinkDown port s
  | .ethFrameDrop port why => Sys2Proof.Machine.execEthFrameDrop port why s
  | .arpRequest via target => Sys2Proof.Machine.execArpRequest via target s
  | .neighbourSolicitation via target => Sys2Proof.Machine.execNeighbourSolicitation via target s
  | .echoRequest via v6 data => Sys2Proof.Machine.execEchoRequest via v6 data s
  | .secFrameFail port => Sys2Proof.Machine.execSecFrameFail port s
  | .oldAssociationExpiry port dir => Sys2Proof.Machine.execOldAssociationExpiry port dir s
  | .ethFrameReceive via raw => Sys2Proof.Machine.execEthFrameReceive via raw s
  | .openSession via c retry gen payload => Sys2Proof.Machine.execOpenSession via c retry gen payload s
  | .closeSession c payload => Sys2Proof.Machine.execCloseSession c payload s
  | .sessionIdleTimeout sess => Sys2Proof.Machine.execSessionIdleTimeout sess s
  | .ack via sess ackNum => Sys2Proof.Machine.execAck via sess ackNum s
  | .retransmitTimeout sess seq => Sys2Proof.Machine.execRetransmitTimeout sess seq s
  | .segmentTimeout sess => Sys2Proof.Machine.execSegmentTimeout sess s
  | .regRead c payload => Sys2Proof.Machine.execRegRead c payload s
  | .regWrite c payload => Sys2Proof.Machine.execRegWrite c payload s
  | .eventRegister c payload => Sys2Proof.Machine.execEventRegister c payload s
  | .eventHoldExpiry stream => Sys2Proof.Machine.execEventHoldExpiry stream s
  | .discover via handle => Sys2Proof.Machine.execDiscover via handle s
  | .status via handle payload => Sys2Proof.Machine.execStatus via handle payload s
  | .lesarCarrierChangeExpiry => Sys2Proof.Machine.execLesarCarrierChangeExpiry s
  | .clearFaults => Sys2Proof.Machine.execClearFaults s
  | .statusWord => Sys2Proof.Machine.execStatusWord s
  | .statusInput => Sys2Proof.Machine.execStatusInput s
  | .statusTemperature => Sys2Proof.Machine.execStatusTemperature s
  | .readVin => Sys2Proof.Machine.execReadVin s
  | .readIin => Sys2Proof.Machine.execReadIin s
  | .readTemperature1 => Sys2Proof.Machine.execReadTemperature1 s
  | .readTemperature2 => Sys2Proof.Machine.execReadTemperature2 s
  | .readTemperature3 => Sys2Proof.Machine.execReadTemperature3 s
  | .readPin => Sys2Proof.Machine.execReadPin s
  | .pmbusRevision => Sys2Proof.Machine.execPmbusRevision s
  | .alertResponse => Sys2Proof.Machine.execAlertResponse s
  | .mfrRegAddr addr => Sys2Proof.Machine.execMfrRegAddr addr s
  | .mfrRegData => Sys2Proof.Machine.execMfrRegData s
  | .mfrMboxWr data => Sys2Proof.Machine.execMfrMboxWr data s
  | .mfrMboxGo => Sys2Proof.Machine.execMfrMboxGo s
  | .mfrMboxClear => Sys2Proof.Machine.execMfrMboxClear s
  | .mfrMboxStatus => Sys2Proof.Machine.execMfrMboxStatus s
  | .mfrMboxRd len => Sys2Proof.Machine.execMfrMboxRd len s
  | .sidebandReplyReady => Sys2Proof.Machine.execSidebandReplyReady s
  | .loadFirmware c payload => Sys2Proof.Machine.execLoadFirmware c payload s
  | .loadFirmwareTimeout => Sys2Proof.Machine.execLoadFirmwareTimeout s
  | .firmwareCheckComplete => Sys2Proof.Machine.execFirmwareCheckComplete s
  | .firstHeartbeatTimeout => Sys2Proof.Machine.execFirstHeartbeatTimeout s
  | .activateFirmware c payload => Sys2Proof.Machine.execActivateFirmware c payload s
  | .activationProceed => Sys2Proof.Machine.execActivationProceed s
  | .activationTimeout => Sys2Proof.Machine.execActivationTimeout s
  | .deviceReset c payload => Sys2Proof.Machine.execDeviceReset c payload s
  | .deviceResetMapSaved => Sys2Proof.Machine.execDeviceResetMapSaved s
  | .coreReset => Sys2Proof.Machine.execCoreReset s
  | .systemReset => Sys2Proof.Machine.execSystemReset s
  | .powerOnReset => Sys2Proof.Machine.execPowerOnReset s
  | .resetN => Sys2Proof.Machine.execResetN s
  | .resetNRelease => Sys2Proof.Machine.execResetNRelease s
  | .watchdogExpiry => Sys2Proof.Machine.execWatchdogExpiry s
  | .watchdogRestart => Sys2Proof.Machine.execWatchdogRestart s
  | .clockLoss => Sys2Proof.Machine.execClockLoss s
  | .clockRecovery => Sys2Proof.Machine.execClockRecovery s
  | .underVoltageWarning => Sys2Proof.Machine.execUnderVoltageWarning s
  | .underVoltageFault => Sys2Proof.Machine.execUnderVoltageFault s
  | .overVoltageWarning => Sys2Proof.Machine.execOverVoltageWarning s
  | .overVoltageFault => Sys2Proof.Machine.execOverVoltageFault s
  | .overVoltageRecovery => Sys2Proof.Machine.execOverVoltageRecovery s
  | .voltageWarningEnd high => Sys2Proof.Machine.execVoltageWarningEnd high s
  | .guardSample g => Sys2Proof.Machine.execGuardSample g s
  | .tripRelease => Sys2Proof.Machine.execTripRelease s
  | .pgCtlWrite c value => Sys2Proof.Machine.execPgCtlWrite c value s
  | .tileBlockReset c value => Sys2Proof.Machine.execTileBlockReset c value s
  | .keeperRomStart => Sys2Proof.Machine.execKeeperRomStart s
  | .keeperRuntimeStart halfBlank => Sys2Proof.Machine.execKeeperRuntimeStart halfBlank s
  | .portDieRelease => Sys2Proof.Machine.execPortDieRelease s
  | .dramTrainingComplete failed => Sys2Proof.Machine.execDramTrainingComplete failed s
  | .readyForFirmware ms => Sys2Proof.Machine.execReadyForFirmware ms s
  | .startFrameHold via raw => Sys2Proof.Machine.execStartFrameHold via raw s
  | .networkBootImage via handle payload => Sys2Proof.Machine.execNetworkBootImage via handle payload s
  | .attest c payload => Sys2Proof.Machine.execAttest c payload s
  | .bindSet c payload => Sys2Proof.Machine.execBindSet c payload s
  | .bindSetTimeout => Sys2Proof.Machine.execBindSetTimeout s
  | .setKey c payload => Sys2Proof.Machine.execSetKey c payload s
  | .getCerts c payload => Sys2Proof.Machine.execGetCerts c payload s
  | .secKey c payload => Sys2Proof.Machine.execSecKey c payload s
  | .unbindSet c payload => Sys2Proof.Machine.execUnbindSet c payload s
  | .createPartition c payload => Sys2Proof.Machine.execCreatePartition c payload s
  | .resizePartition c payload => Sys2Proof.Machine.execResizePartition c payload s
  | .resetPartition c payload => Sys2Proof.Machine.execResetPartition c payload s
  | .partitionResetFillComplete p => Sys2Proof.Machine.execPartitionResetFillComplete p s
  | .deletePartition c payload => Sys2Proof.Machine.execDeletePartition c payload s
  | .setEndpoint c payload => Sys2Proof.Machine.execSetEndpoint c payload s
  | .stepReplay p => Sys2Proof.Machine.execStepReplay p s
  | .weightReloadComplete p good => Sys2Proof.Machine.execWeightReloadComplete p good s
  | .surveyS0 c payload => Sys2Proof.Machine.execSurveyS0 c payload s
  | .surveyS0Complete item fail detail => Sys2Proof.Machine.execSurveyS0Complete item fail detail s
  | .surveyS1Tile c payload => Sys2Proof.Machine.execSurveyS1Tile c payload s
  | .surveyS1TestComplete t pass => Sys2Proof.Machine.execSurveyS1TestComplete t pass s
  | .surveyS1Gazetteer c payload => Sys2Proof.Machine.execSurveyS1Gazetteer c payload s
  | .gazetteerIndexTestEnd pass => Sys2Proof.Machine.execGazetteerIndexTestEnd pass s
  | .surveyS2 c payload => Sys2Proof.Machine.execSurveyS2 c payload s
  | .surveyS2Complete badChannels badTiles => Sys2Proof.Machine.execSurveyS2Complete badChannels badTiles s
  | .veoloErrorRateCheck corrected uncorrectable codewords => Sys2Proof.Machine.execVeoloErrorRateCheck corrected uncorrectable codewords s
  | .lendableCopyComplete p => Sys2Proof.Machine.execLendableCopyComplete p s
  | .loanMovesEnd p loan => Sys2Proof.Machine.execLoanMovesEnd p loan s

end Sys2Proof.Machine
end

