-- ==== Sys2Proof/Machine/Step.lean ====
section
/-!
DEFINITION. One step of the module: the command at the front of the queue runs, with the queue's rest. On an empty queue the device
idles for one microsecond of its time base (log entry 4).
-/
namespace Sys2Proof.Machine

open Sys2Proof

/-- One step. -/
def step (s : State) : Host.Outcome State Fault Refusal :=
  match s.pending with
  | [] => .next (s.setNow (s.now + 1000))
  | c :: cs => exec c (s.setPending cs)

/-- `s` with the command that a word spells at the front of its queue: no row of the table gives bits, so no word spells one
(log entry 1). -/
def State.withFetchWord (s : State) (nbits w : Nat) : State :=
  match decodeTableWord nbits w with
  | some c => s.setPending (c :: s.pending)
  | none => s

end Sys2Proof.Machine
end

