-- ==== Sys2Proof/WellFormed.lean ====
section
/-!
DEFINITION. Commands whose operands lie in the ranges that the manual gives them: tiles 0 to 511 and bays 0 to 15 (R12),
partitions 0 to 127 (R481), links 0 to 7 and directions 0 to 3 (R288), ports 0 to 3 (R354), banks 0 and 1 (R71), lane registers
V0 to V31 (R78), crews 0 to 31 (R77), scratchpad rows 0 to 2,047 (R97). `exec` has a meaning for every command, well formed or not.
-/
namespace Sys2Proof

/-- A partition number (R481). -/
def okPart (p : Nat) : Bool := decide (p < 128)
/-- A tile number (R12). -/
def okTile (t : Nat) : Bool := decide (t < 512)
/-- A bay number (R12). -/
def okBay (b : Nat) : Bool := decide (b < 16)
/-- A link number (R288). -/
def okLink (l : Nat) : Bool := decide (l < 8)
/-- A direction: X+, X−, Y+, Y− (R288). -/
def okDir (d : Nat) : Bool := decide (d < 4)
/-- An Ethernet port (R354). -/
def okPort (p : Nat) : Bool := decide (p < 4)
/-- An accumulator bank (R71). -/
def okBank (b : Nat) : Bool := decide (b < 2)
/-- A lane register (R78). -/
def okReg (r : Nat) : Bool := decide (r < 32)
/-- A crew of a tile (R77). -/
def okCrew (c : Nat) : Bool := decide (c < 32)
/-- Rows of a scratchpad (R97, R98). -/
def okRows (r n : Nat) : Bool := decide (1 ≤ n) && decide (r + n ≤ 2048)
/-- The width of a lane access in bytes (R105). -/
def okWidth (w : Nat) : Bool := [4, 8, 16, 32, 64].contains w
/-- A header context (R363): a session number, the device level or the sideband; a partition or device level; a 32-bit handle. -/
def okCtx (c : Ctx) : Bool := decide (c.sess ≤ 0x10000) && (okPart c.part || c.part == 0xFFFF) && decide (c.handle < 2 ^ 32)
/-- A payload: at most the 4,096 bytes of a message (R373). -/
def okPayload (bs : Bytes) : Bool := decide (bs.length ≤ 4096)
/-- A matrix operand (Table 7 of The tile). -/
def okDesc (d : Desc) : Bool := decide (d.fmt < 32) && okRows d.base 1 && decide (1 ≤ d.extent) && decide (1 ≤ d.k)
/-- A kind of table: lane, codebook or mask (R86). -/
def okKind (k : Nat) : Bool := decide (k < 3)

/-- The registers that a crew instruction names. -/
def LaneOp.regs : LaneOp → List Nat
  | .f32 _ d a b c | .i32 _ _ d a b c | .packed _ _ _ d a b c | .select d c a b => [d, a, b, c]
  | .logic _ d a b | .shift _ _ _ d a b | .cmp _ _ d a b => [d, a, b]
  | .convert _ _ _ d a | .reduceLevel _ d a | .reduce d a => [d, a]
  | .shuffle d a i => [d, a, i]
  | .branch c | .loop c => [c]
  | .otherPath | .reconverge | .loopEnd => []

/-- The rows that a transfer touches in a scratchpad. -/
def okEnd (n : Nat) : DmaEnd → Bool
  | .rows t r => okTile t && okRows r n
  | .dram _ | .loan _ _ | .nand _ => true

/-- The operands of a command lie in their ranges. -/
def Instr.wellFormed : Instr → Bool
  -- the meridian, the step and what a partition's events name
  | .meridian p _ | .emptyStep p _ | .pipelineDone p _ | .pipelineTMessage p _ _ _ | .pipelineMeridian p _
  | .targetAcceptReport p _ _ _ | .stepDecisions p _ _ _ | .tokenReturn p _ _ _ | .tableLoadComplete p
  | .statisticsPartial p _ _ _ _ | .ringSegment p _ _ _ _ _ _ _ _ | .ringQuery p _ _ _ | .ringRelease p _ _
  | .gazetteerWalk p _ _ | .gazetteerWalkEnd p _ | .gzRebuildComplete p | .gzInitComplete p | .bitmapCopyComplete p
  | .promptTimeout p _ | .pauseMoveComplete p _ | .pauseExpiry p _ _ | .tombstoneExpiry p _ | .restoreComplete p _ _
  | .fetch p _ _ _ | .fetchComplete p _ _ | .reclaimNotice p _ | .graceExpiry p _ | .loanMovesEnd p _ | .resetNotice p _
  | .abortNotice p _ | .shardQueryTimeout p _ | .shardDataTimeout p | .shardArrived p | .loadComplete p _
  | .swapReadComplete p _ | .insetTimeout p _ | .shardScrub p _ _ | .partitionResetFillComplete p | .stepReplay p
  | .weightReloadComplete p _ | .lendableCopyComplete p | .streamCommit p _ _ _ _ => okPart p
  | .tableCopyComplete p k => okPart p && okKind k
  | .sync p b _ _ | .flow p b _ _ | .endStep p b => okPart p && okBay b
  -- the tile
  | .matrix ts a b k _ _ => decide (1 ≤ ts.length) && decide (ts.length ≤ 32) && ts.all okTile && okDesc a && okDesc b && okBank k
  | .drain t b _ (.rows r) _ => okTile t && okBank b && okRows r 1
  | .drain t b _ (.neighbour n) _ => okTile t && okBank b && okTile n
  | .drainComplete t b => okTile t && okBank b
  | .preload t b r _ => okTile t && okBank b && okRows r 8
  | .twinBind t none | .twinUnbind t | .tileZeroFill t | .surveyS1TestComplete t _ | .scratchpadScrub t _ => okTile t
  | .twinBind t (some r) | .stateOverwrite t r => okTile t && okRows r 16
  | .twinAdd t (.vector r) _ | .twinMul t r | .stateRead t r => okTile t && okRows r 8
  | .twinAdd t (.slice a b _ _ _) _ => okTile t && okDesc a && okDesc b
  | .kernelLaunch t n _ as _ _ => okTile t && decide (1 ≤ n) && decide (n ≤ 32) && decide (as.length ≤ 16)
  | .kernelEnd t _ | .dmaComplete t _ _ => okTile t
  | .laneInstruction t c op => okTile t && okCrew c && op.regs.all okReg
  | .gatherRead t c w _ d _ | .gatherWrite t c w _ d | .laneTableLookup t c w _ _ d => okTile t && okCrew c && okWidth w && okReg d
  | .sfuLane t c _ _ _ _ _ d a b _ => okTile t && okCrew c && okReg d && okReg a && okReg b
  | .sfuRowOperation t _ _ _ s d _ => okTile t && okRows s 1 && okRows d 1
  | .randomDraw t c _ _ _ _ d => okTile t && okCrew c && decide (d + 3 < 32)
  | .dma t op _ => okTile t && okEnd op.rows op.src && okEnd op.rows op.dst
  | .fill t r n _ => okTile t && okRows r n
  | .copy t s d n _ => okTile t && okRows s n && okRows d n
  | .compressOnStore t r _ _ _ _ => okTile t && okRows r 1
  | .podTagWrite b => okBay b
  | .tableLoad t r op _ => okTile t && okRows r op.rows && okKind op.kind
  | .linkSend t _ d r n _ _ _ | .linkReceive t _ d r n _ _ => okTile t && okDir d && okRows r n
  -- registers of a partition
  | .tblLoad c p _ | .gratCtlWrite c p _ | .gzCtlWrite c p _ | .kvRingCtlWrite c p _ | .bitmapLoad c p _ | .strmCtlWrite c p _
  | .lsReqLimitWrite c p _ | .lsReqCtlWrite c p _ | .loanRequest c p _ | .loanRelease c p _ => okCtx c && okPart p
  | .retrain c l _ => okCtx c && okLink l
  | .ntPauseCtlWrite c _ | .tierLendOfferWrite c _ | .vlDevNumWrite c _ | .vlTopoCtlWrite c _ | .pgCtlWrite c _
  | .tileBlockReset c _ => okCtx c
  -- operations of hosts
  | .openRequest c b | .appendTokens c b | .cancelRequest c b | .pauseRequest c b | .resumeRequest c b | .openStream c b
  | .streamChunk c b | .parkStream c b | .closeStream c b | .installModel c b | .shardData c b | .swapLayers c b
  | .stopModel c b | .startModel c b | .removeModel c b | .loadLendable c b | .installInset c b | .removeInset c b
  | .cfRead c b _ | .cfProgram c b | .cfErase c b | .cfSuspend c b | .cfResume c b | .cfBlankCheck c b | .cfHalfList c b
  | .cfProtSet c b | .cfPwSet c b | .cfProtRead c b | .cfTwinWrite c b | .cfBootSwap c b | .cfStartClear c b
  | .cfPwReset c b | .cfLogRead c b _ | .closeSession c b | .regRead c b | .regWrite c b | .eventRegister c b
  | .loadFirmware c b | .activateFirmware c b | .deviceReset c b | .attest c b | .bindSet c b | .setKey c b
  | .getCerts c b | .secKey c b | .unbindSet c b | .createPartition c b | .resizePartition c b | .resetPartition c b
  | .deletePartition c b | .setEndpoint c b | .surveyS0 c b | .surveyS1Tile c b | .surveyS1Gazetteer c b
  | .surveyS2 c b => okCtx c && okPayload b
  -- memory tiers
  | .loanGrant p l _ _ => okPart p && okLink l
  | .lentMemoryRequest l _ _ _ _ _ => okLink l
  | .refreshRatePoll h => decide (h.length = 8)
  | .refreshWindow k => decide (k < 8)
  | .dramCalibration ch _ => decide (ch < 64)
  | .nandChannelFail ch => decide (ch < 16)
  | .dramPatrolScrub _ _ | .mapSave | .readDisturbRefresh _ | .retentionPatrol _ _ _ | .garbageCollection _
  | .wearLevelling _ | .nandOperationComplete _ | .pauseAreaResize => true
  -- links and ports
  | .linkLossOfSignal l | .linkSignalDetect l | .hail l _ | .hailTimeout l | .backoffExpiry l | .trainComplete l _
  | .trainTimeout l | .fastRetrain l | .fastRetrainComplete l | .fastRetrainTimeout l | .flit l _ _ | .nak l _
  | .creditReturn l _ | .timeMarker l _ _ _ _ | .shardQuery l _ => okLink l
  | .leaveNotice d | .neighbourLost d => okDir d
  | .ethLinkUp p _ _ _ | .ethLinkDown p | .ethFrameDrop p _ | .secFrameFail p => okPort p
  | .oldAssociationExpiry p d => okPort p && decide (d < 2)
  | .arpRequest v _ | .neighbourSolicitation v _ | .echoRequest v _ _ | .ethFrameReceive v _ | .startFrameHold v _
  | .ack v _ _ | .discover v _ | .status v _ _ | .networkBootImage v _ _ => okPort v.port
  | .openSession v c _ g b => okPort v.port && okCtx c && decide (1 ≤ g) && decide (g ≤ 3) && okPayload b
  -- the sideband
  | .mfrMboxWr d => decide (1 ≤ d.length) && decide (d.length ≤ 128)
  | .mfrMboxRd n => decide (1 ≤ n) && decide (n ≤ 128)
  | .surveyS0Complete i _ _ => decide (i < 4)
  -- commands without an operand that a rule bounds
  | .heartbeat | .mgmtProcessorStopped | .timeAligned | .cfEraseComplete | .cfProgramComplete | .sessionIdleTimeout _
  | .retransmitTimeout _ _ | .segmentTimeout _ | .eventHoldExpiry _ | .lesarCarrierChangeExpiry | .clearFaults | .statusWord
  | .statusInput | .statusTemperature | .readVin | .readIin | .readTemperature1 | .readTemperature2 | .readTemperature3
  | .readPin | .pmbusRevision
  | .alertResponse | .mfrRegAddr _ | .mfrRegData | .mfrMboxGo | .mfrMboxClear | .mfrMboxStatus
  | .sidebandReplyReady | .loadFirmwareTimeout | .firmwareCheckComplete | .firstHeartbeatTimeout | .activationProceed
  | .activationTimeout | .deviceResetMapSaved | .coreReset | .systemReset | .powerOnReset | .resetN | .resetNRelease
  | .watchdogExpiry | .watchdogRestart | .clockLoss | .clockRecovery | .underVoltageWarning | .underVoltageFault
  | .overVoltageWarning | .overVoltageFault | .overVoltageRecovery | .voltageWarningEnd _ | .guardSample _ | .tripRelease
  | .keeperRomStart | .keeperRuntimeStart _ | .portDieRelease | .dramTrainingComplete _ | .readyForFirmware _
  | .bindSetTimeout | .gazetteerIndexTestEnd _ | .surveyS2Complete _ _ | .veoloErrorRateCheck _ _ _ => true

end Sys2Proof
end

