-- ==== Sys2Proof/Safety.lean ====
section
/-!
DEFINITION. What statements say of a run: a command completes, what a command leaves unchanged, and the states in which the memories keep
their canonical form.
-/
namespace Sys2Proof.Machine

open Sys2Proof

/-- The command answers a next state of which `P` holds. -/
def completes (c : Instr) (s : State) (P : State → Prop) : Prop := ∃ t, exec c s = .next t ∧ P t

/-- Every next state that the command answers satisfies `P`. -/
def ensures (c : Instr) (s : State) (P : State → Prop) : Prop := ∀ t, exec c s = .next t → P t

/-- The state of the device and the rights of its session let an operation of a frame, whose turn it is, through to its body (R2, R15, R376, R410). -/
def State.accepts (s : State) (c : Ctx) (op : Nat) (v : Server) (own : Bool) : Prop :=
  (s.freeMbox c op).serveRefusal c op v = none ∧ s.addresses c = true ∧ (own = true → s.isOwner c = true) ∧ s.turn c op v = true

/-- A DATA frame reaches the first stage of a partition that exists, is not being reset, has lost no stage and waits for none (R214, R235, R298,
R425). -/
def State.dataServes (s : State) (c : Ctx) (op : Nat) (pt : Part) : Prop :=
  s.accepts c op .port false ∧ s.part c.part = some pt ∧ pt.resetting = none ∧ pt.lost = [] ∧ pt.held = [] ∧
    ∀ im, pt.image = some im → im.isFirst = true

/-- A frame of a partition's model reaches its operation: for the owner, on a partition that exists and is not being reset, with a handle that names
something (R15, R308). -/
def State.modelServes (s : State) (c : Ctx) (op : Nat) (pt : Part) : Prop :=
  s.accepts c op .firmware true ∧ s.part c.part = some pt ∧ badHandle c.handle = false ∧ pt.resetting = none

/-- A port takes a generation-3 frame whose header `h` and payload `pl` pass the header checks up to CHECK (R356 to R364, R393). -/
def State.takesFrame (s : State) (via : Via) (raw : Bytes) (h : Hdr) (pl : Bytes) : Prop :=
  s.linkUp via.port = true ∧ s.hears via = true ∧ s.dev.phase ≠ .portDie ∧ s.dev.phase ≠ .trained ∧ s.portCheck via raw = .take ∧ parseHdr raw = h ∧
    h.version = 3 ∧ h.refusal (raw.length - 32) = none ∧ slice raw 32 h.length = pl

/-- The command comes to a state of which `P` holds and answers its frame from there, with a status and a payload. -/
def answered (i : Instr) (s : State) (c : Ctx) (op : Nat) (st : Status) (pl : Bytes) (P : State → Prop) : Prop :=
  ∃ t, exec i s = .next (t.reply c op st pl) ∧ P t

/-- The state of the device and the rights of its session let a command of the configuration flash through (R336, R352). -/
def State.flashServes (s : State) (c : Ctx) (op : Nat) : Prop :=
  s.serveRefusal c op .keeper = none ∧ (s.dev.phase = .recovery ∨ (s.isOwner c = true ∧ c.part = 0xFFFF))

/-- A command of the configuration flash comes to a state of which `P` holds, records its status in CF_STATUS and answers its frame. -/
def flashAnswered (i : Instr) (s : State) (c : Ctx) (op : Nat) (st : Status) (pl : Bytes) (P : State → Prop) : Prop :=
  answered i s c op st pl (fun t => ∃ u, P u ∧ t = (u.putField .cf 0 0 15 0 (Status.code st)).freeMbox c op)

/-- The entries of a REG_WRITE take effect one after the other, each at once, and lead from one state to another (R377). -/
def writesDone (c : Ctx) : List (Word × Word) → State → State → Prop
  | [], s, s1 => s1 = s
  | (a, v) :: es, s, s1 => ∃ t, s.writeEntry c a.toNat v = .done t ∧ writesDone c es t s1

/-- The entries of a REG_READ are read one after the other and lead from one state to another with their values (R377). -/
def readsDone (c : Ctx) : List Nat → List Word → State → State → Prop
  | [], [], s, s1 => s1 = s
  | a :: as, v :: vs, s, s1 => ∃ t, s.readEntry c a = .ok (t, v) ∧ readsDone c as vs t s1
  | _, _, _, _ => False

/-- The state of the device and the rights of its session let a register frame reach its entries. -/
def State.registersServe (s : State) (c : Ctx) (op : Nat) : Prop :=
  s.serveRefusal c op .early = none ∧ (c.sess = sidebandSess ∨ s.addresses c = true)

/-- The state of the device and the rights of its session let a register frame of the device owner reach its entries, and no operation that
a GO started has a final status still to be answered. -/
def State.ownerWrites (s : State) (c : Ctx) : Prop :=
  s.isOwner c = true ∧ s.serveRefusal c 0x0607 .early = none ∧ s.lesar.goDone = []

/-- The frame of a GO that is its frame's only entry waits for the final status of what it started (R482). -/
def waitsFor (s s' : State) (c : Ctx) (what p : Nat) : Prop :=
  s'.lesar = { s.lesar with regWaits := s.lesar.regWaits ++ [⟨c, what, p, 0, []⟩] }

/-! ## What is unchanged -/

/-- Nothing but tile `t` has changed. -/
def onlyTile (s s' : State) (t : Nat) : Prop := s'.setTiles s.tiles = s ∧ ∀ u, u ≠ t → s'.tile u = s.tile u

/-- Nothing but rows `r` to `r + n - 1` of tile `t`'s scratchpad and the tile itself has changed: every other byte of every memory reads as
before. -/
def onlyRows (s s' : State) (t r n : Nat) : Prop :=
  (s'.setTiles s.tiles).setMem s.mem = s ∧ (∀ u, u ≠ t → s'.tile u = s.tile u) ∧
    s'.mem = { s.mem with scratch := s'.mem.scratch } ∧
    ∀ x, (x < t * 2 ^ 20 + 512 * r ∨ t * 2 ^ 20 + 512 * r + 512 * n ≤ x) →
      Mem.read 0#8 s'.mem.scratch x = Mem.read 0#8 s.mem.scratch x

/-- Nothing but partition `p` has changed. -/
def onlyPart (s s' : State) (p : Nat) : Prop := s'.setParts s.parts = s ∧ ∀ q, q ≠ p → s'.part q = s.part q

/-- Nothing but registers has changed, and of them only the one at address `a`. -/
def onlyReg (s s' : State) (a : Nat) : Prop := s'.setRegs s.regs = s ∧ ∀ b, b ≠ a → s'.rawReg b = s.rawReg b

/-- A tile that commands of a step may act on: in service, owned, no word of its scratchpad struck, its partition's step not failed, and no
instruction waiting before the command in the context of its bay. -/
def State.tileClear (s : State) (t : Nat) : Prop :=
  s.tileWorks t = true ∧ (s.tile t).bad = [] ∧ s.stepFailed (s.owner t) = false ∧ s.waitsIn (s.owner t) (bayOf t) = false

/-- The free blocks are some tenths of a percent of the spare blocks, and the urgent state follows from them (R261). -/
def Nand.sparesOk (v : Nand) : Prop := v.freeTenths ≤ 1000 ∧ (v.freeTenths < 5 → v.urgent = true) ∧ (20 ≤ v.freeTenths → v.urgent = false)

/-- Block `b` has been renewed: its valid map units are copied within its plane and written once more, its reads are counted anew, it has been erased once
more, its die is busy; the map units of every other block lie where they lay (R259, R261). -/
def Nand.renewed (v w : Nand) (b : Nat) : Prop :=
  NMap.find w.reads b = none ∧ b ∉ w.weak ∧ NMap.get 0 w.erases b = NMap.get 0 v.erases b + 1 ∧ NMap.find w.fill b = none ∧
    NMap.find w.dies (blockDie b) = some 0 ∧ w.written = v.written + 16384 * (v.valid b).length ∧
    (∀ k, k ∉ v.valid b → NMap.find w.map k = NMap.find v.map k) ∧
    (∀ c, c ≠ b → NMap.find w.reads c = NMap.find v.reads c ∧ NMap.find w.erases c = NMap.find v.erases c) ∧
    { w with reads := v.reads, weak := v.weak, erases := v.erases, fill := v.fill, dies := v.dies, map := v.map, written := v.written,
             freeTenths := v.freeTenths, urgent := v.urgent } = v

/-- A meridian has led to `t`: register frames whose GO has ended are answered, and where the partition then has an image its next step has opened at
`now` with this count (R19, R20, R482). -/
def opensStep (t : State) (p now count : Nat) : Prop :=
  ∃ (u : State) (v : Part), t = u.settleAll ∧ u.now = now ∧ u.part p = some v ∧
    (v.image ≠ none → ∃ kind block binds, v.step = some (StepSt.opened now count kind block binds))

/-- Bank `k'` is bank `k` of tile `t` after the next block of an operation: every entry within M and N is the accumulation of its k-slices in
increasing order onto what it held (R63, R66, R71, R73). -/
def State.blockDone (s : State) (t : Nat) (op : MatrixOp) (k k' : Bank) : Prop :=
  let tb := ((s.part (s.owner t)).map (fun pt => pt.activeBank 1)).getD 0
  let acc := fun i n => s.accumulate t tb op.a op.b (s.planeOf t op.a op.bi) (s.planeOf t op.b op.bj) (32 * op.bi + i) (32 * op.bj + n)
    (k.cell (32 * i + n))
  k'.st = (if op.cont then .accum else .ready) ∧
    (∀ i n, i < 32 → n < 32 → 32 * op.bi + i < op.a.extent → 32 * op.bj + n < op.b.extent → k'.cell (32 * i + n) = (acc i n).1) ∧
    (k'.sat = true ↔ k.sat = true ∨
      ∃ i n, i < 32 ∧ n < 32 ∧ 32 * op.bi + i < op.a.extent ∧ 32 * op.bj + n < op.b.extent ∧ (acc i n).2 = true)

/-- A crew has written register `d` of its active lanes, each with its lane's value, and nothing else of itself. -/
def Crew.writes (k k' : Crew) (d : Nat) (f : Nat → Word) : Prop :=
  k'.active = k.active ∧ k'.paths = k.paths ∧ k'.loops = k.loops ∧
    ∀ l r, l < 64 → r < 32 → k'.get l r = if k.on l = true ∧ r = d then f l else k.get l r

/-- Only crew `c` of tile `t` has changed. -/
def onlyCrew (s s' : State) (t c : Nat) : Prop :=
  onlyTile s s' t ∧ ({ s'.tile t with crews := (s.tile t).crews } : Tile) = s.tile t ∧
    ∀ e, e ≠ c → (s'.tile t).crew e = (s.tile t).crew e

/-! ## Canonical memories -/

/-- The four memories are in canonical form: addresses strictly rising, no byte listed that equals what an unlisted one reads as. -/
def Mems.wf (m : Mems) : Bool := Mem.wf 0#8 m.scratch && Mem.wf 0#8 m.dram && Mem.wf 0#8 m.nand && Mem.wf 0xFF#8 m.flash

/-- The invariant of every state: its memories are canonical. -/
def State.canonical (s : State) : Prop := s.mem.wf = true

/-- A run is safe for `n` steps: no step ends in a fault or a refusal. -/
def State.safeFor (s : State) : Nat → Prop
  | 0 => True
  | n + 1 => ∃ t, step s = .next t ∧ State.safeFor t n

end Sys2Proof.Machine
end

