-- ==== Sys2Proof/Certificates/Slice0/Obligations.lean ====
section
/-!
DEFINITION. The statements for the provers. Each docstring says in words what its statement says, with the rules of the manual that it formalises, and names the log
entries of the choices that it rests on. `completes` and `answered` say that the command answers a next state, so a statement of a command's result is also the
statement that it completes.
-/

open Sys2Proof Sys2Proof.Machine

/-- A step takes the command at the front of the queue and runs it with the queue's rest. On an empty queue the device idles for 1 us of its time base, and
nothing else changes (this is the model's choice: log entry 4). -/
def Obligations.StepRunsTheFrontCommand : Prop :=
  (∀ (c : Instr) (cs : List Instr) (s : State), s.pending = c :: cs → step s = exec c (s.setPending cs)) ∧
  (∀ s : State, s.pending = [] → step s = .next (s.setNow (s.now + 1000)))

/-- After reset no partition, session, request or neighbour's loan exists, every register of the blocks stands at its reset value, the device is about to
start from the Keeper ROM, and every memory is in its canonical form with nothing listed. Where the rules leave a point open, this rests on a choice of the
model: log entries 3 and 5. -/
def Obligations.ResetHoldsNothing : Prop :=
  let r := State.reset
  r.parts = [] ∧ r.lesar.sessions = [] ∧ r.lender.loans = [] ∧ r.tiles = [] ∧ r.pending = [] ∧ r.now = 0 ∧ r.dev.phase = .rom ∧ (∀ a, r.rawReg a = regReset a) ∧
  r.mem.wf = true ∧ r.mem.scratch = [] ∧ r.mem.dram = [] ∧ r.mem.nand = [] ∧ r.mem.flash = []

/-- Every step keeps the memories in their canonical form: addresses strictly rising, and no byte listed that reads as an unlisted one does. This holds from
every state, whatever command is at the front of its queue. Where the rules leave a point open, this rests on a choice of the model: log entry 3. -/
def Obligations.StepKeepsMemoryCanonical : Prop :=
  ∀ s t : State, s.mem.wf = true → step s = .next t → t.mem.wf = true

/-- No command looks at the queue's rest or changes it: what waits behind a command waits as it did. Where the rules leave a point open, this rests on a
choice of the model: log entry 78. -/
def Obligations.CommandsLeaveTheQueue : Prop :=
  ∀ (c : Instr) (s t : State), exec c s = .next t → t.pending = s.pending

/-- A generation-3 frame that is built from a header and a payload reads back as that header, with the payload's length and the CRC over header and payload,
and as that payload, for every value that the fields of the header can hold (R363, Table 3). Where the rules leave a point open, this rests on a choice of the
model: log entry 22. -/
def Obligations.FramesReadBack : Prop :=
  ∀ (h : Hdr) (pl rest : Bytes), h.version < 256 → h.version ≠ 1 → h.version ≠ 2 → h.kind < 256 → h.flags < 2 ^ 16 → h.part < 2 ^ 16 → h.sess < 2 ^ 16 → h.seq < 2 ^ 32 →
    h.ackNum < 2 ^ 32 → h.handle < 2 ^ 32 → h.opcode < 2 ^ 16 → h.status < 2 ^ 16 → pl.length < 2 ^ 32 →
    let raw := buildFrame h pl ++ rest
    parseHdr raw = { h with length := pl.length, check := crc32c (raw.take 28 ++ pl) } ∧ slice raw 32 (parseHdr raw).length = pl ∧
    crc32c (raw.take 28 ++ slice raw 32 (parseHdr raw).length) = (parseHdr raw).check

/-- UNBIND_SET carries a SET_ID of 32 bytes. It is refused with NOT_PERMITTED while a current or next image of any partition names that set; otherwise it
erases the set, changes nothing else but for its mailbox, and is answered OK, also when no set has that SET_ID (R415). Completion is stated of: unbindSet. -/
def Obligations.UnbindSetErases : Prop :=
  (∀ (s : State) (c : Ctx) (id : Bytes), s.accepts c 0x0806 .keeper true →
    let m := s.freeMbox c 0x0806
    let named := ∃ e ∈ s.parts, ∃ im : Image, (e.2.image = some im ∨ e.2.next = some im) ∧ im.hasKeyBlock = true ∧ im.setId = id
    (id.length ≠ 32 → exec (.unbindSet c id) s = .next (m.reply c 0x0806 .badFrame [])) ∧
    (id.length = 32 → named → exec (.unbindSet c id) s = .next (m.reply c 0x0806 .notPermitted [])) ∧
    (id.length = 32 → ¬named → exec (.unbindSet c id) s = .next ((m.setKeeper { s.keeper with sets := s.keeper.sets.filter (fun b => b.setId != id) }).reply c 0x0806 .ok [])))

/-- CREATE_PARTITION and RESIZE_PARTITION act on the partition that byte 0 of the payload, PART, names, and on no other. A header whose PARTITION is neither
0xFFFF nor PART is refused with BAD_FRAME. A RESIZE_PARTITION of a partition that does not exist, and a frame that acts on the partition of its header where
there is none, are refused with NOT_PERMITTED (R485). -/
def Obligations.PartitionsAreNamed : Prop :=
  (∀ (s : State) (c : Ctx) (pl : Bytes) (i : Instr) (op : Nat), ((i = .createPartition c pl ∧ op = 0x0501) ∨ (i = .resizePartition c pl ∧ op = 0x0502)) →
    s.accepts c op .firmware true →
    (c.part ≠ 0xFFFF → c.part ≠ beAt pl 0 1 → exec i s = .next ((s.freeMbox c op).reply c op .badFrame [])) ∧
    (∃ t, exec i s = .next t ∧ ∀ q, q ≠ beAt pl 0 1 → t.part q = s.part q)) ∧
  (∀ (s : State) (c : Ctx) (pl : Bytes), s.accepts c 0x0502 .firmware true → (c.part = 0xFFFF ∨ c.part = beAt pl 0 1) → s.part (beAt pl 0 1) = none →
    pl.length = 28 → beAt pl 0 1 ≤ 127 → beAt pl 1 1 ≤ 7 → beAt pl 2 1 = 4 → beAt pl 3 1 = 0 → beAt pl 20 2 ≤ 984 → beAt pl 22 2 ≤ 225 → beAt pl 24 4 ≤ 1048576 →
    exec (.resizePartition c pl) s = .next ((s.freeMbox c 0x0502).reply c 0x0502 .notPermitted [])) ∧
  (∀ (s : State) (c : Ctx) (pl : Bytes) (i : Instr) (op : Nat), s.part c.part = none →
    ((i = .resetPartition c pl ∧ op = 0x0503 ∧ s.accepts c op .firmware false) ∨ (i = .deletePartition c pl ∧ op = 0x0504 ∧ s.accepts c op .firmware true) ∨
      (i = .setEndpoint c pl ∧ op = 0x0505 ∧ s.accepts c op .firmware true) ∨ (i = .installInset c pl ∧ op = 0x0301 ∧ s.accepts c op .firmware true) ∨
      (i = .removeInset c pl ∧ op = 0x0302 ∧ s.accepts c op .firmware true) ∨ (i = .installModel c pl ∧ op = 0x0401 ∧ s.accepts c op .firmware true) ∨
      (i = .swapLayers c pl ∧ op = 0x0402 ∧ s.accepts c op .firmware true) ∨ (i = .stopModel c pl ∧ op = 0x0403 ∧ s.accepts c op .firmware true) ∨
      (i = .startModel c pl ∧ op = 0x0404 ∧ s.accepts c op .firmware true) ∨ (i = .loadLendable c pl ∧ op = 0x0406 ∧ s.accepts c op .firmware true) ∨
      (i = .removeModel c pl ∧ op = 0x0407 ∧ s.accepts c op .firmware true)) →
    exec i s = .next ((s.freeMbox c op).reply c op .notPermitted []))

/-- SV_LAST_FAULT holds the first step failure since it was last read: a failure is recorded when no record is held, with its partition and status, and while
one is held a later failure changes no register but the counter of abandoned steps. The device owner's read returns the record and clears it (R468). -/
def Obligations.FirstFaultIsKept : Prop :=
  (∀ (s : State) (p : Nat) (st : Status) (outcome : Nat) (v : StepSt), p < 128 → outcome < 3 → (s.reg .sv 0 0x44).bit 31 = false →
    let w := (s.recordFault p st outcome v).reg .sv 0 0x44
    w.bit 31 = true ∧ w.field 30 24 = p ∧ w.field 23 22 = (if outcome = 0 ∧ 3 ≤ v.attempts then 1 else outcome) ∧ w.field 21 16 = 0 ∧ w.field 15 0 = Status.code st) ∧
  (∀ (s : State) (p : Nat) (st : Status) (outcome : Nat) (v : StepSt), (s.reg .sv 0 0x44).bit 31 = true →
    (s.recordFault p st outcome v).setRegs s.regs = s ∧ ∀ a, a ≠ Blk.at .sv 0 0x4C → (s.recordFault p st outcome v).rawReg a = s.rawReg a) ∧
  (∀ (s : State) (c : Ctx), s.isOwner c = true → ∃ t, s.readEntry c (Blk.at .sv 0 0x44) = .ok (t, s.reg .sv 0 0x44) ∧ t.reg .sv 0 0x44 = 0#32)

/-- At a meridian the count rises by one and, unless a reset waits for this meridian or a stopped processor's settings go first, the next step of a partition
with an image opens with that count at that instant: MERIDIAN for a step whose last operation has retired, EMPTY_STEP for an idle partition at a whole
millisecond, PIPELINE_MERIDIAN with the count and the settings that the first stage carried with T. REG_WRITE frames whose GO has ended are then answered. A
partition without an image and without staged settings opens an empty step, and LENGTH is what the step before it took (R19, R20, R24, R25, R227). Completion
is stated of: meridian, emptyStep, pipelineMeridian. Where the rules leave a point open, this rests on a choice of the model: log entries 56 and 57. -/
def Obligations.MeridiansOpenSteps : Prop :=
  (∀ (s : State) (p now : Nat) (pt : Part) (im : Image), s.part p = some pt → pt.image = some im → s.dev.fwHalted = false →
    pt.staged.reset = none → s.now ≤ now → pt.mayClose = true → pt.idleStep = false → pt.stepsTogether = false →
    completes (.meridian p now) s (fun t => opensStep t p now ((s.merCount p + 1) % 2 ^ 32))) ∧
  (∀ (s : State) (p now : Nat) (pt : Part) (im : Image), s.part p = some pt → pt.image = some im → s.dev.fwHalted = false →
    pt.staged.reset = none → s.now ≤ now → now % 1000000 = 0 → pt.idleStep = true → pt.pipeT = none → pt.stepsTogether = false →
    pt.resetting = none → completes (.emptyStep p now) s (fun t => opensStep t p now ((s.merCount p + 1) % 2 ^ 32))) ∧
  (∀ (s : State) (p now : Nat) (pt : Part) (im : Image) (t0 count : Nat) (conf : List Nat), s.part p = some pt → pt.image = some im →
    s.dev.fwHalted = false → pt.staged.reset = none → s.now ≤ now → pt.pipeT = some (t0, count, conf) → t0 ≤ now →
    (pt.mayClose = true ∨ pt.idleStep = true) → count < 2 ^ 32 →
    completes (.pipelineMeridian p now) s (fun t => opensStep t p now count)) ∧
  (∀ (s : State) (p now : Nat) (pt : Part), s.part p = some pt → pt.image = none → s.dev.fwHalted = false → pt.staged = Staged.none → pt.loans = [] →
    p < 128 → s.now ≤ now → now % 1000000 = 0 → pt.idleStep = true → pt.pipeT = none → pt.resetting = none → s.lesar.goDone = [] →
    completes (.emptyStep p now) s (fun t => t.reg .mer p 0 = BitVec.ofNat 32 (s.merCount p + 1) ∧
      (∀ v, pt.step = some v → t.reg .mer p 0x08 = BitVec.ofNat 32 (min 0xFFFFFFFF (now - v.openedAt))) ∧
      (t.part p).map (·.step) = some (some (StepSt.opened now ((s.merCount p + 1) % 2 ^ 32) 0 [] 0)) ∧
      (∀ q, q ≠ p → t.part q = s.part q) ∧ ((t.setParts s.parts).setRegs s.regs).setNow s.now = s))

/-- The stages of a pipeline step as one: a stage that has finished, and has DONE from the stage after it (of its own count, once the stages have been
aligned: log entry 94), hands DONE to the stage before it; the first stage then chooses T as 150 ns per link and 200 ns from now and sends it on with the
count and the settings that every stage has accepted, and a later stage takes T and hands it on. The first stage keeps every report of a setting accepted; a
later stage keeps the decisions for their meridian and forwards them; a sampled token comes to the first stage (R24, R25, R164, R228, R296). A step that
failed runs again, at most three times, from the block of its opening meridian: its bays stand at their entry points and its sampled tokens are gone. A weight
pod that failed has its weights reloaded first; if it fails again the model stops at LOADED; data that no source can give end the sequences of the step with
TIER_FAILED (R131, R260, R453, R454). Completion is stated of: pipelineDone, pipelineTMessage, targetAcceptReport, stepDecisions, tokenReturn, stepReplay,
weightReloadComplete. Where the rules leave a point open, this rests on a choice of the model: log entries 43 and 55. -/
def Obligations.PipelinesStepAndReplay : Prop :=
  (∀ (s : State) (p : Nat) (pt : Part) (im : Image) (fromNext : Option Nat), s.part p = some pt → pt.image = some im → 2 ≤ im.stages →
    (fromNext = none ∨ im.isLast = false) → (fromNext = none → (pt.mayClose = true ∨ pt.idleStep = true)) →
    let got := if fromNext = none then pt.pipeDone else fromNext
    let done := (pt.mayClose = true ∨ pt.idleStep = true) ∧ s.pipelineUp pt im = true ∧
      (im.isLast = true ∨ (pt.joined = true ∧ got = some (s.merCount p)) ∨ (pt.joined = false ∧ got ≠ none))
    let s1 := s.modPart p (fun v => { v with pipeDone := got })
    (¬ done → exec (.pipelineDone p fromNext) s = .next s1) ∧
    (done → im.isFirst = false →
      exec (.pipelineDone p fromNext) s = .next (s1.sendMessage 1 .management p (beBytes 1 0x11 ++ beBytes 1 p ++ beBytes 4 (s.merCount p)))) ∧
    (done → im.isFirst = true →
      let t := s.now + (im.stages - 1) * 150 + 200
      let count := (s.merCount p + 1) % 2 ^ 32
      completes (.pipelineDone p fromNext) s (fun u => (u.part p).map (·.pipeT) = some (some (t, count, pt.confirmedFor im count)) ∧
        u = (s1.modPart p (fun v => { v with pipeT := some (t, count, pt.confirmedFor im count) })).sendMessage 0 .management p
          (tMessage p t count (pt.confirmedFor im count))))) ∧
  (∀ (s : State) (p t count : Nat) (conf : List Nat) (pt : Part) (im : Image), s.part p = some pt → pt.image = some im → 2 ≤ im.stages →
    im.isFirst = false → count < 2 ^ 32 →
    let s1 := s.modPart p (fun v => { v with pipeT := some (t, count, conf) })
    completes (.pipelineTMessage p t count conf) s (fun u => (u.part p).map (·.pipeT) = some (some (t, count, conf)) ∧
      (im.isLast = true → u = s1) ∧ (im.isLast = false → u = s1.sendMessage 0 .management p (tMessage p t count conf)))) ∧
  (∀ (s : State) (p stage handle target : Nat) (pt : Part) (im : Image), s.part p = some pt → pt.image = some im → im.isFirst = true →
    stage < im.stages →
    completes (.targetAcceptReport p stage handle target) s (fun u => u.part p = some { pt with accepted := pt.accepted ++ [(stage, handle, target)] } ∧
      onlyPart s u p)) ∧
  (∀ (s : State) (p count : Nat) (block : List Word) (ds : List Decision) (pt : Part) (im : Image), s.part p = some pt → pt.image = some im →
    im.isFirst = false →
    completes (.stepDecisions p count block ds) s (fun u => (u.part p).map (·.decisions) = some (pt.decisions ++ [(count, block, ds)]) ∧
      (u.setVeolo s.veolo).setParts s.parts = s ∧ ∀ q, q ≠ p → u.part q = s.part q)) ∧
  (∀ (s : State) (p handle beam token : Nat) (pt : Part), s.part p = some pt →
    completes (.tokenReturn p handle beam token) s (fun u => (u.setVeolo s.veolo).setParts s.parts = s ∧ (∀ q, q ≠ p → u.part q = s.part q) ∧
      ((pt.image.map Image.isFirst).getD true = true → u.part p = some { pt with seqs := pt.seqs.map (fun q =>
        if q.handle == handle && q.beam == beam && q.inStep then { q with sampled := some token } else q) }) ∧
      ((pt.image.map Image.isFirst).getD true = false → u.part p = some pt))) ∧
  (∀ (s : State) (p : Nat) (pt : Part) (im : Image) (v : StepSt), s.part p = some pt → pt.image = some im → pt.step = some v → v.failed ≠ none →
    v.repair = false → v.attempts < 3 → p < 128 →
    completes (.stepReplay p) s (fun t => t.part p = some { pt with
        step := some { v with failed := none, finished := false, attempts := v.attempts + 1 },
        ctxs := pt.atEntry im v.kind, seqs := pt.seqs.map (fun q => { q with sampled := none }) } ∧
      (t.reg .sv 0 0x48).toNat = min 0xFFFFFFFF ((s.reg .sv 0 0x48).toNat + 1) ∧
      (t.setParts s.parts).setRegs s.regs = s ∧ ∀ q, q ≠ p → t.part q = s.part q)) ∧
  (∀ (s : State) (p : Nat) (pt : Part) (im : Image) (v : StepSt), s.part p = some pt → pt.image = some im → pt.step = some v → v.failed ≠ none →
    v.repair = true →
    let s1 := s.modPart p (fun pt => { pt with step := some { v with repair := false } })
    let stopped := fun t : State => ∃ w, t.part p = some w ∧ w.step = none ∧ w.mstate = .loaded ∧ w.draining = none ∧
      ∀ x, w.swap = some x → x.active = false
    (pt.loadFault im = none → completes (.weightReloadComplete p true) s (fun t => t = s1.loadTensors pt im ∧
      t.part p = some { pt with step := some { v with repair := false } } ∧
      ((t.setMem s1.mem).setDram s1.dram).setRegs s1.regs = s1 ∧ t.mem = { s.mem with dram := t.mem.dram })) ∧
    (pt.loadFault im ≠ none → completes (.weightReloadComplete p true) s stopped) ∧
    (v.failed = some .decodeFault → completes (.weightReloadComplete p false) s stopped) ∧
    (v.failed ≠ some .decodeFault → completes (.weightReloadComplete p false) s (fun t =>
      t = s1.endWork p (pt.seqs.filter (·.inStep) |>.map (·.handle)).eraseDups .tierFailed)))

/-- MATRIX on 1 to 32 tiles of a bay whose queues are empty, whose next bank is free and whose operands expand, raw or in pods. Of a product of one block, on
every tile that block is accumulated in the tile's next bank, which is READY, or stays in ACCUM where the operation is to be continued; the other bank, the
other tiles and the memories stay as they are. Of a product of more blocks a tile whose other bank is in use computes the first and keeps the operation in its
queue for the next one. With a full queue the instruction waits (R63, R66, R71, R83). Completion is stated of: matrix. Where the rules leave a point open,
this rests on a choice of the model: log entries 8, 12, 80 and 81. -/
def Obligations.MatrixAccumulatesBlock : Prop :=
  (∀ (s : State) (ts : List Nat) (a b : Desc) (bank : Nat) (cont : Bool) (k : Nat → Nat), ts ≠ [] → ts.length ≤ 32 → ts.Nodup →
    (∀ t ∈ ts, s.tileClear t ∧ bayOf t = bayOf (ts.headD 0) ∧ s.owner t = s.owner (ts.headD 0) ∧ (s.tile t).matrixQ = [] ∧
      (s.tile t).nextBank (matrixOp a b bank cont []) = some (k t) ∧ s.podTrouble t a b 0 0 = none) →
    matrixOk a b = true → bank < 2 → a.extent ≤ 32 → b.extent ≤ 32 →
    completes (.matrix ts a b bank cont []) s (fun s' =>
      (∀ t ∈ ts, s.blockDone t (matrixOp a b bank cont []) ((s.tile t).bank (k t)) ((s'.tile t).bank (k t)) ∧
        (s'.tile t).bank (1 - k t) = (s.tile t).bank (1 - k t) ∧ (s'.tile t).last = k t ∧ (s'.tile t).matrixQ = []) ∧
      s'.setTiles s.tiles = s ∧ ∀ u, u ∉ ts → s'.tile u = s.tile u)) ∧
  (∀ (s : State) (t : Nat) (a b : Desc) (bank k : Nat) (cont : Bool), s.tileClear t → matrixOk a b = true → bank < 2 →
    (s.tile t).matrixQ = [] → (s.tile t).nextBank (matrixOp a b bank cont []) = some k → s.podTrouble t a b 0 0 = none →
    32 < a.extent ∨ 32 < b.extent → (((s.tile t).bank (1 - k)).st = .ready ∨ ((s.tile t).bank (1 - k)).st = .drain) → cont = false →
    completes (.matrix [t] a b bank cont []) s (fun s' =>
      s.blockDone t (matrixOp a b bank cont []) ((s.tile t).bank k) ((s'.tile t).bank k) ∧
      (s'.tile t).bank (1 - k) = (s.tile t).bank (1 - k) ∧ (s'.tile t).matrixQ = [{ matrixOp a b bank cont [] with next := 1 }] ∧
      onlyTile s s' t)) ∧
  (∀ (s : State) (ts : List Nat) (a b : Desc) (bank : Nat) (cont : Bool) (env : List Strike), s.matrixTiles ts = true →
    matrixOk a b = true → bank < 2 → (∃ t ∈ ts, 16 ≤ (s.tile t).matrixQ.length) →
    completes (.matrix ts a b bank cont env) s
      (fun s' => s' = s.hold (s.owner (ts.headD 0)) (bayOf (ts.headD 0)) (.matrix ts a b bank cont env)))

/-- DRAIN of a READY bank to rows writes the block as little-endian codes of its format where it lies within M and N, and nothing else; the bank is in DRAIN,
its flag copied to the status word and cleared. In twin mode a TWIN drain writes every pair and takes both banks to DRAIN, and any other drain leaves the
pairs. A drain of a bank that is not READY waits. DRAIN_COMPLETE makes the bank, or in twin mode both, EMPTY; then the operations of the tile's queue and the
instructions that wait go on (R49, R66, R71 to R73, R195). DRAIN to a quad neighbour with a READY bank adds the block, in the drain's format, entrywise to
that bank with one rounding or clamp per entry, of an FP32 block in FP32 as an FP32 addition; it joins the saturation flags and leaves the neighbour's bank
READY (R72, R73). That a TWIN drain adds the exact sum of each pair is the model's choice (log entry 82). Completion is stated of: drain, drainComplete. Where
the rules leave a point open, this rests on a choice of the model: log entries 8 and 47. -/
def Obligations.DrainWritesOrAdds : Prop :=
  (∀ (s : State) (t k fmt r : Nat), s.tileClear t → k < 2 → (s.tile t).twin = false → ((s.tile t).bank k).st = .ready →
    drainFmtOk (s.tile t) k fmt = true → r + drainRows fmt ≤ 2048 →
    completes (.drain t k fmt (.rows r) []) s (fun s' =>
      ((s'.tile t).bank k).st = .drain ∧ ((s'.tile t).bank k).sat = false ∧ (s'.tile t).satStatus = ((s.tile t).bank k).sat ∧
      (s'.tile t).bank (1 - k) = (s.tile t).bank (1 - k) ∧
      (∀ x, x < 512 * drainRows fmt → Mem.read 0#8 s'.mem.scratch (t * 2 ^ 20 + 512 * r + x) =
        (drainBytes (s.tile t) k fmt (s.rows t r (drainRows fmt))).getD x 0#8) ∧
      onlyRows s s' t r (drainRows fmt))) ∧
  (∀ (s : State) (t k fmt r : Nat), s.tileClear t → k < 2 → (s.tile t).twinReady = true → fmt < 3 → r + drainRows fmt ≤ 2048 →
    completes (.drain t k fmt (.rows r) []) s (fun s' =>
      (fmt = 0 → (s'.tile t).bank0.st = .drain ∧ (s'.tile t).bank1.st = .drain) ∧
      (fmt ≠ 0 → (s'.tile t).bank0.st = .preloaded ∧ (s'.tile t).bank1.st = .preloaded) ∧
      (∀ c, (s'.tile t).pair c = (s.tile t).pair c) ∧ (s'.tile t).satStatus = ((s.tile t).bank k).sat ∧
      (∀ x, x < 512 * drainRows fmt → Mem.read 0#8 s'.mem.scratch (t * 2 ^ 20 + 512 * r + x) =
        (drainBytes (s.tile t) k fmt (s.rows t r (drainRows fmt))).getD x 0#8) ∧
      onlyRows s s' t r (drainRows fmt))) ∧
  (∀ (s : State) (t k fmt : Nat) (dst : DrainDst) (env : List Strike), s.tileWorks t = true → k < 2 → fmt ∈ [0, 1, 2, 3, 24] →
    s.drainDstOk t fmt dst = true → s.drainWaits t k dst = true →
    completes (.drain t k fmt dst env) s (fun s' => s' = s.hold (s.owner t) (bayOf t) (.drain t k fmt dst env))) ∧
  (∀ (s : State) (t k : Nat), k < 2 → ((s.tile t).bank k).st = .drain →
    completes (.drainComplete t k) s (fun s' => ∃ u, s' = (u.goMatrix t).pump (s.owner t) ∧ onlyTile s u t ∧
      (u.tile t).matrixQ = (s.tile t).matrixQ ∧ (u.tile t).twin = (s.tile t).twin ∧
      (u.tile t).bank k = Bank.cleared ∧
      (u.tile t).bank (1 - k) = if (s.tile t).twin then Bank.cleared else (s.tile t).bank (1 - k))) ∧
  (∀ (s : State) (t u k j fmt : Nat), s.tileClear t → s.tileWorks u = true → u / 4 = t / 4 → u ≠ t → k < 2 →
    s.drainWaits t k (.neighbour u) = false → (s.tile u).readyBank = some j → fmt ∈ [0, 1, 2, 3, 24] →
    drainFmtOk (s.tile t) k fmt = true →
    completes (.drain t k fmt (.neighbour u) []) s (fun s' =>
      s'.tile t = (s.tile t).beginDrain k fmt ∧ (s'.tile t).satStatus = ((s.tile t).bank k).sat ∧
      ((s.tile t).twin = false → ((s'.tile t).bank k).st = .drain ∧ ((s'.tile t).bank k).sat = false) ∧
      ((s'.tile u).bank j).st = .ready ∧ ((s'.tile u).bank j).int = ((s.tile u).bank j).int ∧
      ((s'.tile u).bank j).sat = (((s.tile u).bank j).sat || ((s.tile t).bank k).sat || (List.range 1024).any (fun c =>
        (addEntry ((s.tile u).bank j).int (((s.tile u).bank j).cell c) (drainValue (s.tile t) k fmt c)).2)) ∧
      (∀ c, c < 1024 → ((s'.tile u).bank j).cell c =
        (addEntry ((s.tile u).bank j).int (((s.tile u).bank j).cell c) (drainValue (s.tile t) k fmt c)).1) ∧
      (fmt = 1 → (s.tile t).twin = false → ((s.tile t).bank k).int = false → ((s.tile u).bank j).int = false → ∀ c, c < 1024 →
        ((s'.tile u).bank j).cell c = fAdd (((s.tile u).bank j).cell c) (((s.tile t).bank k).cell c)) ∧
      (s'.tile u).bank (1 - j) = (s.tile u).bank (1 - j) ∧
      s'.setTiles s.tiles = s ∧ ∀ v, v ≠ t → v ≠ u → s'.tile v = s.tile v))

/-- PRELOAD fills an EMPTY bank from 8 rows; TWIN_BIND forms 1,024 pairs in two EMPTY banks, zero or from 16 rows of pairs; STATE_OVERWRITE sets the pairs of
a bound tile; TWIN_UNBIND after a drain leaves twin mode with both banks EMPTY. Each waits while its banks are not as it needs them; after a preload and an
unbind the tile's matrix queue goes on (R71, R74, R75, R195). Completion is stated of: preload, twinBind, twinUnbind, stateOverwrite. Where the rules leave a
point open, this rests on a choice of the model: log entries 17 and 83. -/
def Obligations.BanksAreFilled : Prop :=
  (∀ (s : State) (t k r : Nat) (int : Bool), s.tileClear t → k < 2 → (s.tile t).twin = false → ((s.tile t).bank k).st = .empty →
    r + 8 ≤ 2048 →
    completes (.preload t k r int) s (fun s' => ∃ u, s' = u.goMatrix t ∧ ((u.tile t).bank k).st = .preloaded ∧ ((u.tile t).bank k).int = int ∧
      ((u.tile t).bank k).sat = false ∧
      (∀ c, c < 1024 → ((u.tile t).bank k).cell c = (wordsOfBytes 1024 (s.rows t r 8)).getD c 0) ∧
      (u.tile t).bank (1 - k) = (s.tile t).bank (1 - k) ∧ (u.tile t).matrixQ = (s.tile t).matrixQ ∧ onlyTile s u t)) ∧
  (∀ (s : State) (t k r : Nat) (int : Bool), s.tileWorks t = true → k < 2 → r + 8 ≤ 2048 → s.preloadWaits t k = true →
    completes (.preload t k r int) s (fun s' => s' = s.hold (s.owner t) (bayOf t) (.preload t k r int))) ∧
  (∀ (s : State) (t : Nat) (src : Option Nat), s.tileClear t → (s.tile t).bank0.st = .empty →
    (s.tile t).bank1.st = .empty → (∀ r, src = some r → r + 16 ≤ 2048) →
    completes (.twinBind t src) s (fun s' => (s'.tile t).twinReady = true ∧
      (∀ c, c < 1024 → (s'.tile t).pair c = match src with
        | none => (0, 0)
        | some r => ((wordsOfBytes 2048 (s.rows t r 16)).getD (2 * c) 0, (wordsOfBytes 2048 (s.rows t r 16)).getD (2 * c + 1) 0)) ∧
      onlyTile s s' t)) ∧
  (∀ (s : State) (t : Nat) (src : Option Nat), s.tileWorks t = true → (∀ r, src = some r → r + 16 ≤ 2048) → s.bindWaits t = true →
    completes (.twinBind t src) s (fun s' => s' = s.hold (s.owner t) (bayOf t) (.twinBind t src))) ∧
  (∀ (s : State) (t r : Nat), s.tileClear t → (s.tile t).twinReady = true → r + 16 ≤ 2048 →
    completes (.stateOverwrite t r) s (fun s' => (s'.tile t).twinReady = true ∧
      (∀ c, c < 1024 → (s'.tile t).pair c =
        ((wordsOfBytes 2048 (s.rows t r 16)).getD (2 * c) 0, (wordsOfBytes 2048 (s.rows t r 16)).getD (2 * c + 1) 0)) ∧
      onlyTile s s' t)) ∧
  (∀ (s : State) (t : Nat), s.tileClear t → (s.tile t).twin = true → (s.tile t).bank0.st = .empty → (s.tile t).bank1.st = .empty →
    completes (.twinUnbind t) s (fun s' => ∃ u, s' = u.goMatrix t ∧ (u.tile t).twin = false ∧ (u.tile t).bank0 = (s.tile t).bank0 ∧
      (u.tile t).bank1 = (s.tile t).bank1 ∧ (u.tile t).matrixQ = (s.tile t).matrixQ ∧ onlyTile s u t))

/-- TWIN_ADD and TWIN_MUL update every pair by twin_add and twin_mul with the FP32 vector of 8 rows, TWIN_ADD also with the exact sum of a k-slice rounded
once; STATE_READ writes the high parts to 8 rows and leaves the pairs; on a tile that holds no pairs they wait (R76, R195). Completion is stated of: twinAdd,
twinMul, stateRead. Where the rules leave a point open, this rests on a choice of the model: log entry 8. -/
def Obligations.TwinOperations : Prop :=
  (∀ (s : State) (t r : Nat), s.tileClear t → (s.tile t).twinReady = true → r + 8 ≤ 2048 →
    completes (.twinAdd t (.vector r) []) s (fun s' =>
      (∀ c, c < 1024 → (s'.tile t).pair c = twinAddPair ((s.tile t).pair c) ((wordsOfBytes 1024 (s.rows t r 8)).getD c 0)) ∧
      onlyTile s s' t)) ∧
  (∀ (s : State) (t : Nat) (a b : Desc) (bi bj sl : Nat), s.tileClear t → (s.tile t).twinReady = true →
    twinSrcOk (.slice a b bi bj sl) = true → s.podTrouble t a b bi bj = none →
    completes (.twinAdd t (.slice a b bi bj sl) []) s (fun s' =>
      let tb := ((s.part (s.owner t)).map (fun pt => pt.activeBank 1)).getD 0
      (∀ i n, i < 32 → n < 32 → (s'.tile t).pair (32 * i + n) =
        twinAddPair ((s.tile t).pair (32 * i + n)) (toF32 (s.sliceSum t tb a b (s.planeOf t a bi) (s.planeOf t b bj) (32 * bi + i) (32 * bj + n) sl))) ∧
      onlyTile s s' t)) ∧
  (∀ (s : State) (t r : Nat), s.tileClear t → (s.tile t).twinReady = true → r + 8 ≤ 2048 →
    completes (.twinMul t r) s (fun s' =>
      (∀ c, c < 1024 → (s'.tile t).pair c = twinMulPair ((s.tile t).pair c) ((wordsOfBytes 1024 (s.rows t r 8)).getD c 0)) ∧
      onlyTile s s' t)) ∧
  (∀ (s : State) (t r : Nat), s.tileClear t → (s.tile t).twinReady = true → r + 8 ≤ 2048 →
    completes (.stateRead t r) s (fun s' =>
      (∀ c b, c < 1024 → b < 4 → Mem.read 0#8 s'.mem.scratch (t * 2 ^ 20 + 512 * r + (4 * c + b)) =
        (leBytes 4 ((s.tile t).bank0.cell c).toNat).getD b 0#8) ∧
      (∀ c, (s'.tile t).pair c = (s.tile t).pair c) ∧ onlyRows s s' t r 8)) ∧
  (∀ (s : State) (t r : Nat), s.tileWorks t = true → (s.tile t).twinReady = false → r + 8 ≤ 2048 →
    ∀ i ∈ [Instr.twinAdd t (.vector r) [], .twinMul t r, .stateRead t r],
      completes i s (fun s' => s' = s.hold (s.owner t) (bayOf t) i))

/-- STREAM_COMMIT on a tile that holds its pairs advances every pair of the slot that a stream-operator layer uses over the chunk's positions in order, by
twin_mul and twin_add of the vectors that `planes` names, rows of the tile or of the partition's LPDDR5X share, and from zero at a mark; it leaves the rows
and memories, marks the slot committed and notes whether a high part is not finite. A tile whose pairs are not there makes it wait (R76, R198, R200, R202).
Completion is stated of: streamCommit. Where the rules leave a point open, this rests on a choice of the model: log entry 8. -/
def Obligations.StreamCommitAdvances : Prop :=
  (∀ (s : State) (p handle slot t : Nat) (planes : List (DmaEnd × DmaEnd)) (pt : Part) (v : Strm) (im : Image) (stp : StepSt) (ch : Chunk)
    (ps : List (List Word × List Word)),
    s.part p = some pt → NMap.find pt.streams handle = some v → pt.image = some im → pt.step = some stp → v.current = some ch →
    v.tiles[slot]? = some t → v.st = .bound → slot ∉ v.committed → (s.tile t).twinReady = true → s.waitsIn p (bayOf t) = false →
    s.stepFailed p = false → planes.length = ch.positions → (∀ r ∈ planes, planeOk t pt r.1 = true ∧ planeOk t pt r.2 = true) →
    (s.readPlanes p t pt planes).2 = some ps →
    completes (.streamCommit p handle slot planes []) s (fun s' =>
      (∀ c, c < 1024 → (s'.tile t).pair c = (List.range ps.length).foldl (fun q i =>
        if im.pairUsed slot c then
          twinAddPair (if ch.marks.contains i then (0, 0) else twinMulPair q ((ps.getD i ([], [])).1.getD c 0)) ((ps.getD i ([], [])).2.getD c 0)
        else (0, 0)) ((s.tile t).pair c)) ∧
      (∃ w, (s'.part p).bind (fun q => NMap.find q.streams handle) = some w ∧ w.committed = slot :: v.committed ∧
        (slot ∈ w.nonfinite ↔ (List.range 1024).any (fun c => nonFinite ((s'.tile t).bank0.cell c)) = true)) ∧
      s'.mem = s.mem ∧ (∀ q, q ≠ p → s'.part q = s.part q) ∧ ∀ u, u ≠ t → s'.tile u = s.tile u)) ∧
  (∀ (s : State) (p t : Nat) (pt : Part) (rows : List (Nat × Nat)), (s.tile t).bad = [] → (∀ r ∈ rows, r.1 + 8 ≤ 2048 ∧ r.2 + 8 ≤ 2048) →
    s.readPlanes p t pt (rows.map (fun r => (.rows t r.1, .rows t r.2))) =
      (s, some (rows.map (fun r => (wordsOfBytes 1024 (s.rows t r.1 8), wordsOfBytes 1024 (s.rows t r.2 8)))))) ∧
  (∀ (s : State) (p handle slot t : Nat) (planes : List (DmaEnd × DmaEnd)) (env : List Strike) (pt : Part) (v : Strm) (ch : Chunk),
    s.part p = some pt → NMap.find pt.streams handle = some v → pt.step.isSome = true → v.current = some ch →
    v.tiles[slot]? = some t → v.st = .bound → slot ∉ v.committed → (s.tile t).twinReady = false → planes.length = ch.positions →
    (∀ r ∈ planes, planeOk t pt r.1 = true ∧ planeOk t pt r.2 = true) →
    completes (.streamCommit p handle slot planes env) s (fun s' => s' = s.hold p (bayOf t) (.streamCommit p handle slot planes env)))

/-- KERNEL_LAUNCH of a kernel of the tile's store with a residency and enough crews free makes it resident on the lowest free crews, every lane active, and
its body runs from there; without room the launch stands in the tile's queue, and with 16 there the instruction waits; KERNEL_END frees the crews and the
residency, and launches and instructions that wait go on (R17, R81, R83). Completion is stated of: kernelLaunch, kernelEnd. Where the rules leave a point
open, this rests on a choice of the model: log entries 18 and 19. -/
def Obligations.KernelsLaunchAndEnd : Prop :=
  (∀ (s : State) (t n entry : Nat) (args : List Word) (body : KernelBody), s.tileClear t → 1 ≤ n → n ≤ 32 →
    args.length ≤ 16 → KernelBody.ok body = true → (s.tile t).holdsKernel entry n args.length body.kind = true → (s.tile t).launchQ = [] →
    (s.tile t).canLaunch n = true →
    ∃ s1, exec (.kernelLaunch t n entry args body []) s = .next (s1.runBody (s.owner t) t args body) ∧ onlyTile s s1 t ∧
      NMap.find (s1.tile t).kernels (s.tile t).nextKernel =
        some { crews := (s.tile t).freeCrews.take n, entry := entry, args := args, body := body } ∧
      (∀ k, k ≠ (s.tile t).nextKernel → NMap.find (s1.tile t).kernels k = NMap.find (s.tile t).kernels k) ∧
      (∀ c, c ∈ (s.tile t).freeCrews.take n → ((s1.tile t).crew c).active = 0xFFFFFFFFFFFFFFFF#64 ∧
        ((s1.tile t).crew c).regs = ((s.tile t).crew c).regs) ∧
      (∀ c, c ∉ (s.tile t).freeCrews.take n → (s1.tile t).crew c = (s.tile t).crew c)) ∧
  (∀ (s : State) (t n entry : Nat) (args : List Word) (body : KernelBody), s.tileClear t → 1 ≤ n → n ≤ 32 →
    args.length ≤ 16 → KernelBody.ok body = true → (s.tile t).holdsKernel entry n args.length body.kind = true → (s.tile t).launchQ = [] →
    (s.tile t).canLaunch n = false →
    completes (.kernelLaunch t n entry args body []) s (fun s' =>
      (s'.tile t) = { s.tile t with launchQ := [launchOp t n entry args body []] } ∧ onlyTile s s' t)) ∧
  (∀ (s : State) (t n entry : Nat) (args : List Word) (body : KernelBody) (env : List Strike), s.tileWorks t = true → 1 ≤ n → n ≤ 32 →
    args.length ≤ 16 → KernelBody.ok body = true → (s.tile t).holdsKernel entry n args.length body.kind = true →
    16 ≤ (s.tile t).launchQ.length →
    completes (.kernelLaunch t n entry args body env) s
      (fun s' => s' = s.hold (s.owner t) (bayOf t) (.kernelLaunch t n entry args body env))) ∧
  (∀ (s : State) (t k : Nat), (NMap.find (s.tile t).kernels k).isSome = true →
    completes (.kernelEnd t k) s (fun s' => ∃ u, s' = (u.goLaunch t).pump (s.owner t) ∧ NMap.find (u.tile t).kernels k = none ∧
      (∀ j, j ≠ k → NMap.find (u.tile t).kernels j = NMap.find (s.tile t).kernels j) ∧
      ({ u.tile t with kernels := (s.tile t).kernels } : Tile) = s.tile t ∧ onlyTile s u t))

/-- LANE_INSTRUCTION of arithmetic, logic, shift, compare, select, conversion or shuffle writes its result into the destination register of every active lane
and nothing else (R45, R77, R78). LANE_INSTRUCTION of flow: a branch keeps the lanes whose register is not zero and stacks the others, the other path takes
those, the reconvergence point brings back the mask of before, a loop takes at most 65,535 runs from its register and its end counts one off (R79).
LANE_INSTRUCTION of a reduction adds the values of the active lanes in the fixed order of the levels: a full reduction lands in lane 0, one level in the lower
half of the lanes it leaves (R52; the place is log entry 18). Completion is stated of: laneInstruction. Where the rules leave a point open, this rests on a
choice of the model: log entries 8, 11 and 85. -/
def Obligations.LaneInstructionsAct : Prop :=
  (∀ (s : State) (t crew : Nat) (op : LaneOp) (d : Nat) (f : Crew → Nat → Word), s.crewReady t crew = true → laneOpOk op = true →
    ((∃ o a b c, op = .f32 o d a b c ∧ f = fun k l => laneF32 o (k.get l a) (k.get l b) (k.get l c)) ∨
     (∃ o sat a b c, op = .i32 o sat d a b c ∧ f = fun k l => laneI32 o sat (k.get l a) (k.get l b) (k.get l c)) ∨
     (∃ pf o sat a b c, op = .packed pf o sat d a b c ∧ f = fun k l => ofHalves
       (laneHalf pf o sat (half (k.get l a) 0) (half (k.get l b) 0) (half (k.get l c) 0))
       (laneHalf pf o sat (half (k.get l a) 1) (half (k.get l b) 1) (half (k.get l c) 1))) ∨
     (∃ a b, op = .logic .and d a b ∧ f = fun k l => k.get l a &&& k.get l b) ∨
     (∃ a b, op = .logic .or d a b ∧ f = fun k l => k.get l a ||| k.get l b) ∨
     (∃ a b, op = .logic .xor d a b ∧ f = fun k l => k.get l a ^^^ k.get l b) ∨
     (∃ a b, op = .logic .not d a b ∧ f = fun k l => ~~~ (k.get l a)) ∨
     (∃ left arith a b, op = .shift left arith false d a b ∧
       f = fun k l => BitVec.ofNat 32 (shiftBits 32 left arith (k.get l a).toNat (k.get l b).toNat)) ∨
     (∃ left arith a b, op = .shift left arith true d a b ∧ f = fun k l => ofHalves
       (shiftBits 16 left arith (half (k.get l a) 0) (half (k.get l b) 0))
       (shiftBits 16 left arith (half (k.get l a) 1) (half (k.get l b) 1))) ∨
     (∃ ty rel a b, op = .cmp ty rel d a b ∧ f = fun k l => cmpResult (laneCmp ty rel (k.get l a) (k.get l b))) ∨
     (∃ c a b, op = .select d c a b ∧ f = fun k l => if k.get l c = 0#32 then k.get l b else k.get l a) ∨
     (∃ sf df m a, op = .convert sf df m d a ∧ f = fun k l => BitVec.ofNat 32 (codeOfValue df m (valueOfCode sf (k.get l a).toNat))) ∨
     (∃ a i, op = .shuffle d a i ∧ f = fun k l => k.get ((k.get l i).toNat % 64) a)) →
    completes (.laneInstruction t crew op) s (fun s' =>
      Crew.writes ((s.tile t).crew crew) ((s'.tile t).crew crew) d (f ((s.tile t).crew crew)) ∧ onlyCrew s s' t crew)) ∧
  (∀ (s : State) (t crew c : Nat), s.crewReady t crew = true → c < 32 → ((s.tile t).crew crew).paths.length < 16 →
    completes (.laneInstruction t crew (.branch c)) s (fun s' =>
      (∀ l, l < 64 → ((s'.tile t).crew crew).on l = (((s.tile t).crew crew).on l && ((s.tile t).crew crew).get l c != 0#32)) ∧
      ((s'.tile t).crew crew).paths = (((s.tile t).crew crew).active,
        ((s.tile t).crew crew).active &&& ~~~((s'.tile t).crew crew).active) :: ((s.tile t).crew crew).paths ∧
      ((s'.tile t).crew crew).regs = ((s.tile t).crew crew).regs ∧ onlyCrew s s' t crew)) ∧
  (∀ (s : State) (t crew : Nat) (m o : Dword) (ps : List (Dword × Dword)), s.crewReady t crew = true →
    ((s.tile t).crew crew).paths = (m, o) :: ps →
    completes (.laneInstruction t crew .otherPath) s (fun s' =>
      (s'.tile t).crew crew = { (s.tile t).crew crew with active := o } ∧ onlyCrew s s' t crew)) ∧
  (∀ (s : State) (t crew : Nat) (m o : Dword) (ps : List (Dword × Dword)), s.crewReady t crew = true →
    ((s.tile t).crew crew).paths = (m, o) :: ps →
    completes (.laneInstruction t crew .reconverge) s (fun s' =>
      (s'.tile t).crew crew = { (s.tile t).crew crew with active := m, paths := ps } ∧ onlyCrew s s' t crew)) ∧
  (∀ (s : State) (t crew c : Nat), s.crewReady t crew = true → c < 32 →
    completes (.laneInstruction t crew (.loop c)) s (fun s' =>
      (s'.tile t).crew crew = { (s.tile t).crew crew with
        loops := min 65535 (((s.tile t).crew crew).get ((s.tile t).crew crew).lowest c).toNat :: ((s.tile t).crew crew).loops } ∧
      onlyCrew s s' t crew)) ∧
  (∀ (s : State) (t crew n : Nat) (ns : List Nat), s.crewReady t crew = true → ((s.tile t).crew crew).loops = n :: ns →
    completes (.laneInstruction t crew .loopEnd) s (fun s' =>
      (s'.tile t).crew crew = { (s.tile t).crew crew with loops := if n ≤ 1 then ns else (n - 1) :: ns } ∧ onlyCrew s s' t crew)) ∧
  (∀ (s : State) (t crew d a : Nat), s.crewReady t crew = true → d < 32 → a < 32 →
    completes (.laneInstruction t crew (.reduce d a)) s (fun s' =>
      Crew.writes ((s.tile t).crew crew) ((s'.tile t).crew crew) d
        (fun l => if l = 0 then treeSum (((s.tile t).crew crew).column a) else ((s.tile t).crew crew).get l d) ∧ onlyCrew s s' t crew)) ∧
  (∀ (s : State) (t crew level d a : Nat), s.crewReady t crew = true → level < 6 → d < 32 → a < 32 →
    completes (.laneInstruction t crew (.reduceLevel level d a)) s (fun s' =>
      Crew.writes ((s.tile t).crew crew) ((s'.tile t).crew crew) d
        (fun l => if l < 32 / 2 ^ level then
            lAdd ((((s.tile t).crew crew).column a).getD (2 * l) 0) ((((s.tile t).crew crew).column a).getD (2 * l + 1) 0)
          else ((s.tile t).crew crew).get l d) ∧ onlyCrew s s' t crew))

/-- GATHER_READ delivers to every active lane the bytes at its address, aligned down to the width, in consecutive registers; GATHER_WRITE stores every active
lane's bytes, of two lanes that write one byte the higher wins, and changes no other byte (R80, R105, R106). LANE_TABLE_LOOKUP reads the partition's active
bank at the index masked to the slot; SFU_LANE writes the function's code of its operand, FP32 or half of a packed pair, or with a ROM parity error no result;
RANDOM_DRAW writes the generator's four words to four registers; each into the active lanes alone (R80, R86, R90, R93, R133, R134, R153). Which half of a
register a packed result takes is log entry 18. Completion is stated of: gatherRead, gatherWrite, laneTableLookup, sfuLane, randomDraw. Where the rules leave
a point open, this rests on a choice of the model: log entry 6. -/
def Obligations.GatherAndLaneUnits : Prop :=
  (∀ (s : State) (t crew width addr d : Nat), s.crewReady t crew = true → s.tileClear t → gatherWidth width = true → addr < 32 →
    d + width / 4 ≤ 32 →
    completes (.gatherRead t crew width addr d []) s (fun s' =>
      let k := (s.tile t).crew crew
      let k' := (s'.tile t).crew crew
      k'.active = k.active ∧
      (∀ l i, l < 64 → i < width / 4 → k.on l = true → k'.get l (d + i) =
        BitVec.ofNat 32 (ofLe (s.scratchBytes t (gatherAddr (k.get l addr) width + 4 * i) 4))) ∧
      (∀ l r, l < 64 → r < 32 → (k.on l = false ∨ r < d ∨ d + width / 4 ≤ r) → k'.get l r = k.get l r) ∧ onlyCrew s s' t crew)) ∧
  (∀ (s : State) (t crew width addr a : Nat), s.crewReady t crew = true → s.tileClear t → gatherWidth width = true → addr < 32 →
    a + width / 4 ≤ 32 →
    completes (.gatherWrite t crew width addr a) s (fun s' =>
      let k := (s.tile t).crew crew
      let at_ := fun l => gatherAddr (k.get l addr) width
      (∀ l x, l < 64 → k.on l = true → x < width →
        (∀ m, l < m → m < 64 → k.on m = true → ¬(at_ m ≤ at_ l + x ∧ at_ l + x < at_ m + width)) →
        Mem.read 0#8 s'.mem.scratch (scratchKey t (at_ l + x)) = (leBytes 4 (k.get l (a + x / 4)).toNat).getD (x % 4) 0#8) ∧
      (∀ x, (∀ l, l < 64 → k.on l = true → ¬(scratchKey t (at_ l) ≤ x ∧ x < scratchKey t (at_ l) + width)) →
        Mem.read 0#8 s'.mem.scratch x = Mem.read 0#8 s.mem.scratch x) ∧
      s'.mem = { s.mem with scratch := s'.mem.scratch } ∧ (s'.setTiles s.tiles).setMem s.mem = s ∧
      (s'.tile t).crews = (s.tile t).crews ∧ ∀ u, u ≠ t → s'.tile u = s.tile u)) ∧
  (∀ (s : State) (t crew width slot idx d : Nat), s.crewReady t crew = true → (width = 8 ∨ width = 16 ∨ width = 32) → slot < 8 →
    idx < 32 → d < 32 →
    completes (.laneTableLookup t crew width slot idx d) s (fun s' =>
      let k := (s.tile t).crew crew
      let tb := ((s.part (s.owner t)).map (fun pt => pt.activeBank 0)).getD 0
      Crew.writes k ((s'.tile t).crew crew) d (fun l => BitVec.ofNat 32 (ofLe ((s.tile t).tableBytes tb 0 slot
        (width / 8 * ((k.get l idx).toNat % (16384 / width))) (width / 8)))) ∧ onlyCrew s s' t crew)) ∧
  (∀ (s : State) (t crew fn inFmt out d a b : Nat) (upper rotary : Bool), s.crewReady t crew = true → s.stepFailed (s.owner t) = false → fn < 16 →
    1 ≤ inFmt → inFmt ≤ 3 → 1 ≤ out → out ≤ 3 → d < 32 → a < 32 → b < 32 → (rotary = true → fn = 14 ∨ fn = 15) →
    completes (.sfuLane t crew fn inFmt out upper rotary d a b []) s (fun s' =>
      let k := (s.tile t).crew crew
      let mode := s.sfuMode (s.owner t)
      Crew.writes k ((s'.tile t).crew crew) d (fun l => sfuOutput out upper (k.get l d)
        (if rotary then (sfuRotary fn mode out (k.get l a) (k.get l b)).code
         else (sfu fn mode out (sfuInput inFmt upper (k.get l a))).code)) ∧
      onlyCrew s (s'.setParts s.parts) t crew ∧ s'.mem = s.mem ∧ s'.regs = s.regs ∧
      ∀ q, q ≠ s.owner t → s'.part q = s.part q) ∧
    completes (.sfuLane t crew fn inFmt out upper rotary d a b [.romParity t]) s (fun s' => s' = s.romFail (s.owner t))) ∧
  (∀ (s : State) (t crew pos draw beam d : Nat) (seed : Dword), s.crewReady t crew = true → d + 4 ≤ 32 →
    completes (.randomDraw t crew seed pos draw beam d) s (fun s' =>
      let k := (s.tile t).crew crew
      let k' := (s'.tile t).crew crew
      let w := philox 10 (BitVec.ofNat 32 pos) (BitVec.ofNat 32 draw) (BitVec.ofNat 32 beam) 0#32
        (BitVec.ofNat 32 seed.toNat) (BitVec.ofNat 32 (seed.toNat / 2 ^ 32))
      (∀ l, l < 64 → k.on l = true → k'.get l d = w.1 ∧ k'.get l (d + 1) = w.2.1 ∧ k'.get l (d + 2) = w.2.2.1 ∧
        k'.get l (d + 3) = w.2.2.2) ∧
      (∀ l r, l < 64 → r < 32 → (k.on l = false ∨ r < d ∨ d + 4 ≤ r) → k'.get l r = k.get l r) ∧ onlyCrew s s' t crew))

/-- SFU_ROW_OPERATION writes the function of every element of its source row to its destination row, in the row's order, and changes no other byte; with a ROM
parity error it writes nothing and fails the step (R134, R153). Completion is stated of: sfuRowOperation. Where the rules leave a point open, this rests on a
choice of the model: log entry 6. -/
def Obligations.SfuRowOperation : Prop :=
  ∀ (s : State) (t fn inFmt outFmt src dst : Nat), s.tileClear t → fn < 16 → 1 ≤ inFmt → inFmt ≤ 3 → 1 ≤ outFmt → outFmt ≤ 3 →
    elemBits inFmt = elemBits outFmt → src < 2048 → dst < 2048 →
    completes (.sfuRowOperation t fn inFmt outFmt src dst []) s (fun s' =>
      let w := elemBits inFmt / 8
      (∀ i b, i < 512 / w → b < w → Mem.read 0#8 s'.mem.scratch (t * 2 ^ 20 + 512 * dst + (w * i + b)) =
        (leBytes w (sfu fn (s.sfuMode (s.owner t)) outFmt
          (toF32 (valueOfCode inFmt (ofLe (slice (s.row t src) (w * i) w))))).code).getD b 0#8) ∧
      onlyRows s (s'.setParts s.parts) t dst 1 ∧ ∀ q, q ≠ s.owner t → s'.part q = s.part q) ∧
    completes (.sfuRowOperation t fn inFmt outFmt src dst [.romParity t]) s (fun s' => s' = s.romFail (s.owner t))

/-- FILL writes the 64-bit constant, low byte first, across the rows named; COPY leaves in the destination rows what the source rows held before it, also
where the two ranges overlap; each writes those rows alone. While the tile's DMA queue holds 16 they wait (R32, R83, R107, R108). DMA puts the transfer in its
tile's queue, or waits while that holds 16. Rows of the tile or of a quad neighbour become the destination rows; any other source gives the bytes that its end
reads, and the destination's end writes them. DMA_COMPLETE takes the transfer out of the queue, and instructions that wait go on (R83, R247, R272). Completion
is stated of: dma, dmaComplete, fill, copy. Where the rules leave a point open, this rests on a choice of the model: log entry 2. -/
def Obligations.RowsFilledCopiedAndMoved : Prop :=
  (∀ (s : State) (t row count : Nat) (c : Dword), s.tileClear t → (s.tile t).dmaQ.length < 16 → 1 ≤ count → row + count ≤ 2048 →
    completes (.fill t row count c) s (fun s' =>
      (∀ w b, w < 64 * count → b < 8 → Mem.read 0#8 s'.mem.scratch (t * 2 ^ 20 + 512 * row + (8 * w + b)) = c.extractLsb' (8 * b) 8) ∧
      onlyRows s s' t row count)) ∧
  (∀ (s : State) (t src dst count : Nat), s.tileClear t → (s.tile t).dmaQ.length < 16 → 1 ≤ count → src + count ≤ 2048 → dst + count ≤ 2048 →
    completes (.copy t src dst count []) s (fun s' =>
      (∀ i, i < count → s'.row t (dst + i) = s.row t (src + i)) ∧ onlyRows s s' t dst count)) ∧
  (∀ (s : State) (t r q count : Nat) (c : Dword) (env : List Strike), s.tileWorks t = true → 16 ≤ (s.tile t).dmaQ.length → 1 ≤ count →
    r + count ≤ 2048 → q + count ≤ 2048 →
    completes (.fill t r count c) s (fun s' => s' = s.hold (s.owner t) (bayOf t) (.fill t r count c)) ∧
    completes (.copy t r q count env) s (fun s' => s' = s.hold (s.owner t) (bayOf t) (.copy t r q count env))) ∧
  (∀ (s : State) (t id u r v q n : Nat) (pt : Part), s.tileClear t → s.part (s.owner t) = some pt → (s.tile t).dmaQ.length < 16 →
    s.tileWorks u = true → s.tileWorks v = true → u / 4 = t / 4 → v / 4 = t / 4 → (u = t ∨ v = t) → (s.tile u).bad = [] →
    1 ≤ n → r + n ≤ 2048 → q + n ≤ 2048 → (∀ o ∈ (s.tile t).dmaQ, o.op.id ≠ id) →
    completes (.dma t { id := id, src := .rows u r, dst := .rows v q, rows := n, pods := none } []) s (fun s' =>
      (∀ i, i < n → s'.row v (q + i) = s.row u (r + i)) ∧
      (∀ x, (x < v * 2 ^ 20 + 512 * q ∨ v * 2 ^ 20 + 512 * q + 512 * n ≤ x) →
        Mem.read 0#8 s'.mem.scratch x = Mem.read 0#8 s.mem.scratch x) ∧
      (s'.tile t).dmaQ = (s.tile t).dmaQ ++
        [{ op := { id := id, src := .rows u r, dst := .rows v q, rows := n, pods := none }, cause := none }] ∧
      s'.mem = { s.mem with scratch := s'.mem.scratch } ∧ (s'.setTiles s.tiles).setMem s.mem = s ∧
      ∀ w, w ≠ t → w ≠ v → s'.tile w = s.tile w)) ∧
  (∀ (s s1 : State) (t : Nat) (op : DmaOp) (bs : Bytes) (pt : Part), s.tileClear t → s.part (s.owner t) = some pt →
    (s.tile t).dmaQ.length < 16 → s.dmaOk t pt op = true → op.pods = none →
    (s.modTile t (fun v => { v with dmaQ := v.dmaQ ++ [{ op := op, cause := none }] })).endRead (s.owner t) t pt op.src 0
      (512 * op.rows) = (s1, some bs) →
    completes (.dma t op []) s (fun s' => ∃ s2, s2 = s1.endWrite (s.owner t) t pt op.dst 0 bs ∧ onlyTile s2 s' t ∧
      ((s'.tile t).dmaQ = (s2.tile t).dmaQ.map (fun q => if q.op.id == op.id then { q with cause := s2.stallOf t op [] } else q)) ∧
      ({ s'.tile t with dmaQ := (s2.tile t).dmaQ } : Tile) = s2.tile t)) ∧
  (∀ (s : State) (t : Nat) (op : DmaOp) (env : List Strike) (pt : Part), s.tileWorks t = true → s.part (s.owner t) = some pt →
    s.dmaOk t pt op = true → 16 ≤ (s.tile t).dmaQ.length →
    completes (.dma t op env) s (fun s' => s' = s.hold (s.owner t) (bayOf t) (.dma t op env))) ∧
  (∀ (s : State) (t id now : Nat), (∃ q ∈ (s.tile t).dmaQ, q.op.id = id) →
    completes (.dmaComplete t id now) s (fun s' => ∃ u : State, s' = u.pump (s.owner t) ∧
      (∀ q, q ∈ (u.tile t).dmaQ ↔ q ∈ (s.tile t).dmaQ ∧ q.op.id ≠ id) ∧
      ({ u.tile t with dmaQ := (s.tile t).dmaQ } : Tile) = s.tile t ∧ (∀ v, v ≠ t → u.tile v = s.tile v) ∧
      (∀ q, q ≠ s.owner t → u.part q = s.part q) ∧ ((u.setTiles s.tiles).setParts s.parts) = s.at now))

/-- SCRATCHPAD_SCRUB moves the pointer to the next row, wrapping at 2,048, writes the corrected words of its row back and leaves the uncorrectable ones; a
corrected word is counted. TILE_ZERO_FILL leaves every byte of the tile zero and no struck word, and every other byte as it is (R109 to R111, R113).
Completion is stated of: scratchpadScrub, tileZeroFill. -/
def Obligations.RowsScrubbedAndCleared : Prop :=
  (∀ (s : State) (t : Nat), t < 512 →
    completes (.scratchpadScrub t []) s (fun s' =>
      (s'.tile t).scrubPtr = ((s.tile t).scrubPtr + 1) % 2048 ∧
      (s'.tile t).bad = (s.tile t).bad.filter (fun e => e.2 || e.1 / 64 != (s.tile t).scrubPtr) ∧
      s'.mem = s.mem ∧ s'.parts = s.parts ∧ ∀ u, u ≠ t → s'.tile u = s.tile u)) ∧
  (∀ (s : State) (t p w : Nat), t < 512 → s.ownerOf t = some p → w < 64 → (s.tile t).bad = [(64 * (s.tile t).scrubPtr + w, false)] →
    completes (.scratchpadScrub t []) s (fun s' =>
      (s'.reg .grat p 0x08).toNat = min 0xFFFFFFFF ((s.reg .grat p 0x08).toNat + 1) ∧
      ((s.reg .grat p 0x10).bit 31 = false → s'.reg .grat p 0x10 = eccWord false t (s.tile t).scrubPtr w))) ∧
  (∀ (s : State) (t : Nat), t < 512 →
    (s.ownerOf t = none ∨ s.tileOut t = true ∨ ∃ p pt, s.ownerOf t = some p ∧ s.part p = some pt ∧ pt.clearing = true) →
    completes (.tileZeroFill t) s (fun s' =>
      (∀ x, x < 2 ^ 20 → Mem.read 0#8 s'.mem.scratch (t * 2 ^ 20 + x) = 0#8) ∧
      (∀ x, (x < t * 2 ^ 20 ∨ t * 2 ^ 20 + 2 ^ 20 ≤ x) → Mem.read 0#8 s'.mem.scratch x = Mem.read 0#8 s.mem.scratch x) ∧
      s'.tile t = { s.tile t with bad := [] } ∧ (s'.setTiles s.tiles).setMem s.mem = s ∧ s'.mem = { s.mem with scratch := s'.mem.scratch } ∧
      ∀ u, u ≠ t → s'.tile u = s.tile u))

/-- COMPRESS_ON_STORE reads eight rows and the tensor's header, codes the block in the modes that the header allows, writes its units to the slot of its
destination and leaves the tag to be written; a store to a slot whose tag is still to come is held, and while the tile's DMA queue holds 16 the instruction
waits. POD_TAG_WRITE writes the tag behind the tensor header and counts the pod, and instructions that wait go on (R83, R120, R128, R129, R132). TABLE_LOAD of
rows runs when its kind is free, waits behind others, and is refused with TABLE_BUSY where it names the active bank. TABLE_LOAD_COMPLETE puts the rows into
the shadow bank of every target tile and stages the swap that SWAP asks for; a load of the registers has its final status. TABLE_COPY_COMPLETE leaves the
shadow bank of the kind equal to the active one. After both, loads, frames and instructions that wait go on (R83, R86 to R91, R482). Completion is stated of:
compressOnStore, podTagWrite, tableLoad, tableLoadComplete, tableCopyComplete. Where the rules leave a point open, this rests on a choice of the model: log
entries 9, 35 and 88. -/
def Obligations.PodsAndTablesAreStored : Prop :=
  (∀ (s : State) (t row pod : Nat) (dst tag : DmaEnd) (hb : Bytes) (pt : Part), s.tileClear t → s.part (s.owner t) = some pt →
    (s.tile t).dmaQ.length < 16 → row + 8 ≤ 2048 → s.storeDst t pt true 8 dst = true →
    s.storeDst t pt false ((20 + 4 * pod + 511) / 512) tag = true → (∀ e ∈ s.pods, ∀ q ∈ e.2, q.part = s.owner t → q.dst ≠ dst) →
    s.endRead (s.owner t) t pt tag 0 16 = (s, some hb) →
    completes (.compressOnStore t row dst tag pod []) s (fun s' =>
      let h := PodTensor.parse hb
      let e := podEncode (if h.fixedEn then some h.table else none) (blockBytes h pod (s.rows t row 8))
      let u := s.endWrite (s.owner t) t pt dst 0 e.2
      s' = if u.stepFailed (s.owner t) then u
        else u.putStores (t / 32) (u.bayStores (t / 32) ++ [⟨s.owner t, t, row, dst, tag, pod, false, e.1⟩]))) ∧
  (∀ (s : State) (t row u r w q pod : Nat) (pt : Part), s.tileClear t → s.part (s.owner t) = some pt →
    (s.tile t).dmaQ.length < 16 → row + 8 ≤ 2048 → s.storeDst t pt true 8 (.rows u r) = true →
    s.storeDst t pt false ((20 + 4 * pod + 511) / 512) (.rows w q) = true → (s.tile w).bad = [] →
    (∀ e ∈ s.pods, ∀ q ∈ e.2, q.part = s.owner t → q.dst ≠ .rows u r) →
    completes (.compressOnStore t row (.rows u r) (.rows w q) pod []) s (fun s' =>
      let h := PodTensor.parse (s.scratchBytes w (512 * q) 16)
      let e := podEncode (if h.fixedEn then some h.table else none) (blockBytes h pod (s.rows t row 8))
      (∀ x, x < e.2.length → Mem.read 0#8 s'.mem.scratch (u * 2 ^ 20 + 512 * r + x) = e.2.getD x 0#8) ∧
      (∀ x, (x < u * 2 ^ 20 + 512 * r ∨ u * 2 ^ 20 + 512 * r + e.2.length ≤ x) →
        Mem.read 0#8 s'.mem.scratch x = Mem.read 0#8 s.mem.scratch x) ∧
      s'.bayStores (t / 32) = s.bayStores (t / 32) ++ [⟨s.owner t, t, row, .rows u r, .rows w q, pod, false, e.1⟩] ∧
      (∀ b, b ≠ t / 32 → s'.bayStores b = s.bayStores b) ∧ s'.mem = { s.mem with scratch := s'.mem.scratch } ∧
      ((s'.setPods s.pods).setTiles s.tiles).setMem s.mem = s ∧ ∀ v, v ≠ u → s'.tile v = s.tile v)) ∧
  (∀ (s : State) (t row pod : Nat) (dst tag : DmaEnd) (pt : Part), s.tileClear t → s.part (s.owner t) = some pt →
    (s.tile t).dmaQ.length < 16 → row + 8 ≤ 2048 → s.storeDst t pt true 8 dst = true →
    s.storeDst t pt false ((20 + 4 * pod + 511) / 512) tag = true → (∃ e ∈ s.pods, ∃ q ∈ e.2, q.part = s.owner t ∧ q.dst = dst) →
    completes (.compressOnStore t row dst tag pod []) s (fun s' => s'.setPods s.pods = s ∧
      s'.bayStores (t / 32) = s.bayStores (t / 32) ++ [⟨s.owner t, t, row, dst, tag, pod, true, 0⟩] ∧
      ∀ b, b ≠ t / 32 → s'.bayStores b = s.bayStores b)) ∧
  (∀ (s : State) (t row pod : Nat) (dst tag : DmaEnd) (env : List Strike) (pt : Part), s.tileWorks t = true → s.part (s.owner t) = some pt →
    16 ≤ (s.tile t).dmaQ.length → row + 8 ≤ 2048 → s.storeDst t pt true 8 dst = true →
    s.storeDst t pt false ((20 + 4 * pod + 511) / 512) tag = true →
    completes (.compressOnStore t row dst tag pod env) s
      (fun s' => s' = s.hold (s.owner t) (bayOf t) (.compressOnStore t row dst tag pod env))) ∧
  (∀ (s : State) (bay u r : Nat) (q : PodStore) (pt : Part), (s.bayStores bay).find? (fun q => !q.held) = some q → s.part q.part = some pt →
    q.tag = .rows u r → 512 * r + 16 + 4 * q.pod < 2 ^ 20 → (∀ e ∈ s.pods, ∀ h ∈ e.2, h.held = false) →
    completes (.podTagWrite bay) s (fun s' => ∃ w : State, s' = w.pump q.part ∧
      w.bayStores bay = (s.bayStores bay).erase q ∧ (∀ b, b ≠ bay → w.bayStores b = s.bayStores b) ∧
      (∀ x, x < 4 → Mem.read 0#8 w.mem.scratch (u * 2 ^ 20 + (512 * r + 16 + 4 * q.pod) + x) =
        (beBytes 4 q.tagWord.toNat).getD x 0#8) ∧
      (∀ x, (x < u * 2 ^ 20 + (512 * r + 16 + 4 * q.pod) ∨ u * 2 ^ 20 + (512 * r + 16 + 4 * q.pod) + 4 ≤ x) →
        Mem.read 0#8 w.mem.scratch x = Mem.read 0#8 s.mem.scratch x) ∧
      (tagMode q.tagWord = .local_ → (w.reg .pod q.part 0x10).toNat = min 0xFFFFFFFF ((s.reg .pod q.part 0x10).toNat + 1) ∧
        (w.reg .pod q.part 0x18).toNat = min 0xFFFFFFFF ((s.reg .pod q.part 0x18).toNat + tagUnits q.tagWord)) ∧
      (∀ v, v ≠ u → w.tile v = s.tile v) ∧ w.parts = s.parts)) ∧
  (∀ (s : State) (t src : Nat) (op : LoadOp) (pt : Part), s.tileClear t → s.part (s.owner t) = some pt → LoadOp.ok op = true →
    src + op.rows ≤ 2048 → op.quad.all (fun q => pt.quads.contains q) = true → pt.load = none → pt.loadQ = [] →
    pt.copying.getD op.kind false = false →
    (namesActive op.bank (pt.activeBank op.kind) = false → completes (.tableLoad t src op []) s (fun s' =>
      s'.part (s.owner t) = some { pt with load := some { op := op, rows := s.rows t src op.rows, bay := some (bayOf t) } } ∧ onlyPart s s' (s.owner t))) ∧
    (namesActive op.bank (pt.activeBank op.kind) = true → completes (.tableLoad t src op []) s (fun s' =>
      (s'.reg .tbl (s.owner t) 0x14).toNat = min 0xFFFFFFFF ((s.reg .tbl (s.owner t) 0x14).toNat + 1) ∧
      (s'.reg .tbl (s.owner t) 0x10).field 15 0 = Status.code .tableBusy ∧ s'.part (s.owner t) = some pt ∧
      (s'.setRegs s.regs).setParts s.parts = s))) ∧
  (∀ (s : State) (t src : Nat) (op : LoadOp) (pt : Part) (j : LoadJob), s.tileClear t → s.part (s.owner t) = some pt → LoadOp.ok op = true →
    src + op.rows ≤ 2048 → op.quad.all (fun q => pt.quads.contains q) = true → pt.load = some j →
    completes (.tableLoad t src op []) s (fun s' =>
      s'.part (s.owner t) = some { pt with loadQ := pt.loadQ ++ [{ op := op, rows := s.rows t src op.rows, bay := some (bayOf t) }] } ∧
      onlyPart s s' (s.owner t))) ∧
  (∀ (s : State) (p : Nat) (pt : Part) (j : LoadJob), s.part p = some pt → pt.load = some j → j.rows.length = 512 * j.op.rows →
    completes (.tableLoadComplete p) s (fun s' => ∃ u : State, s' = ((u.pumpLoads p 64).settleAll).pump p ∧
      let ts := match j.op.quad with | some q => quadTiles q | none => pt.tiles
      let at_ := tableKey (1 - pt.activeBank j.op.kind) j.op.kind j.op.slot (512 * j.op.row)
      (∀ t x, t ∈ ts → x < 512 * j.op.rows → Mem.read 0#8 (u.tile t).tables (at_ + x) = j.rows.getD x 0#8) ∧
      (∀ t x, t ∈ ts → (x < at_ ∨ at_ + 512 * j.op.rows ≤ x) → Mem.read 0#8 (u.tile t).tables x = Mem.read 0#8 (s.tile t).tables x) ∧
      (∀ t, t ∉ ts → u.tile t = s.tile t) ∧ (u.reg .tbl p 0x10).field 15 0 = 0 ∧
      u.lesar.goDone = s.lesar.goDone ++ (if j.bay.isNone then [(1, p, .ok)] else []) ∧
      u.part p = some { pt with load := none, swapStaged := if j.op.swap then pt.swapStaged.set j.op.kind true else pt.swapStaged } ∧
      u.mem = s.mem ∧ ∀ q, q ≠ p → u.part q = s.part q)) ∧
  (∀ (s : State) (p kind : Nat) (pt : Part), s.part p = some pt → kind < 3 → pt.copying.getD kind false = true →
    completes (.tableCopyComplete p kind) s (fun s' => ∃ u : State, s' = ((u.pumpLoads p 64).settleAll).pump p ∧
      let a := pt.activeBank kind
      (∀ t x, t ∈ pt.tiles → x < (kindRange a kind).2 →
        Mem.read 0#8 (u.tile t).tables ((kindRange (1 - a) kind).1 + x) = Mem.read 0#8 (s.tile t).tables ((kindRange a kind).1 + x)) ∧
      (∀ t x, (x < (kindRange (1 - a) kind).1 ∨ (kindRange (1 - a) kind).1 + (kindRange a kind).2 ≤ x) →
        Mem.read 0#8 (u.tile t).tables x = Mem.read 0#8 (s.tile t).tables x) ∧
      (∀ t, t ∉ pt.tiles → u.tile t = s.tile t) ∧ u.part p = some { pt with copying := pt.copying.set kind false } ∧
      u.mem = s.mem ∧ u.regs = s.regs ∧ ∀ q, q ≠ p → u.part q = s.part q))

/-- LINK_SEND gives a neighbour, or in the ring and collective classes a member of the ring, the rows as they stand, and a neighbour the narrowed tokens in
the activation class, and adds the step's saturations and NaNs. LINK_RECEIVE takes the first message of its class, direction and partition and writes its
rows, an activation widened element by element and stored as FP32 or BF16; it waits while there is none (R26, R44, R55 to R58, R83, R180). That the step keeps
the message for a replay is log entry 89. Completion is stated of: linkSend, linkReceive. Where the rules leave a point open, this rests on a choice of the
model: log entry 21. -/
def Obligations.LinksCarryRows : Prop :=
  (∀ (s : State) (t dir row count width : Nat) (cls : LClass) (fp32 : Bool), s.tileClear t → (cls = .ring ∨ cls = .collective) →
    (dir < 4 ∨ dir - 4 < (s.ringOf (s.owner t)).length) → 1 ≤ count → 1 ≤ width → row + count ≤ 2048 →
    ∃ f : Part → Part, exec (.linkSend t cls dir row count width fp32 []) s =
        .next ((s.linkTo dir cls (s.owner t) (s.rows t row count)).modPart (s.owner t) f) ∧
      (dir < 4 → s.linkTo dir cls (s.owner t) (s.rows t row count) = s.sendMessage dir cls (s.owner t) (s.rows t row count)) ∧
      ∀ pt, ({ f pt with step := pt.step } : Part) = pt ∧ (f pt).step.map (fun v => (v.sat, v.nan)) = pt.step.map (fun v => (v.sat, v.nan))) ∧
  (∀ (s : State) (t dir row count width : Nat) (fp32 : Bool), s.tileClear t → dir < 4 → 1 ≤ count → 1 ≤ width →
    row + count * tokenRows width fp32 ≤ 2048 →
    ∃ f : Part → Part,
      let ctl := s.reg .narrow (s.owner t) 0
      let per := tokenRows width fp32
      let m := narrowTokens (ctl.field 1 0) (ctl.field 12 8) (s.reg .narrow (s.owner t) 0x04) width fp32
        ((List.range count).map (fun i => slice (s.rows t row (count * per)) (512 * per * i) (512 * per)))
      exec (.linkSend t .activation dir row count width fp32 []) s =
        .next ((s.sendMessage dir .activation (s.owner t) m.1).modPart (s.owner t) f) ∧
      ∀ pt, ({ f pt with step := pt.step } : Part) = pt ∧
        (f pt).step.map (fun v => (v.sat, v.nan)) = pt.step.map (fun v => (v.sat + m.2.1, v.nan + m.2.2))) ∧
  (∀ (s : State) (t dir row count width : Nat) (cls : LClass) (fp32 : Bool) (pt : Part) (m : Nat × LClass × Nat × Bytes), s.tileClear t →
    s.part (s.owner t) = some pt → cls ≠ .activation → s.linkMessage (s.owner t) cls dir count width = some m →
    1 ≤ count → 1 ≤ width → row + count ≤ 2048 →
    completes (.linkReceive t cls dir row count width fp32) s (fun s' =>
      (∀ x, x < 512 * count → Mem.read 0#8 s'.mem.scratch (t * 2 ^ 20 + 512 * row + x) = m.2.2.2.getD x 0#8) ∧
      s'.veolo = { s.veolo with inbox := s.veolo.inbox.erase m } ∧
      s'.part (s.owner t) = some { pt with step := pt.step.map (fun v => { v with taken := v.taken ++ [m] }) } ∧
      (∀ q, q ≠ s.owner t → s'.part q = s.part q) ∧ onlyRows s ((s'.setParts s.parts).setVeolo s.veolo) t row count)) ∧
  (∀ (s : State) (t dir row count width : Nat) (fp32 : Bool) (pt : Part) (im : Image) (m : Nat × LClass × Nat × Bytes), s.tileClear t →
    s.part (s.owner t) = some pt → pt.image = some im → s.linkMessage (s.owner t) .activation dir count width = some m →
    1 ≤ count → 1 ≤ width → row + count * tokenRows width fp32 ≤ 2048 →
    completes (.linkReceive t .activation dir row count width fp32) s (fun s' =>
      let wide := m.2.2.2.length == im.messageBytes count width true
      let head := if im.boundary.1 = 2 then 4 else 0
      let n := linkRowBytes im.boundary.1 im.boundary.2 width wide
      let sc : Word := BitVec.ofNat 32 (ofBe (m.2.2.2.take head))
      (∀ i x, i < count → x < 512 * tokenRows width fp32 →
        Mem.read 0#8 s'.mem.scratch (t * 2 ^ 20 + 512 * row + (512 * tokenRows width fp32 * i + x)) =
          (storeRow fp32 (widenRow im.boundary.1 im.boundary.2 sc width wide (slice m.2.2.2 (head + n * i) n))).getD x 0#8) ∧
      s'.veolo = { s.veolo with inbox := s.veolo.inbox.erase m } ∧
      s'.part (s.owner t) = some { pt with step := pt.step.map (fun v => { v with taken := v.taken ++ [m] }) } ∧
      (∀ q, q ≠ s.owner t → s'.part q = s.part q) ∧
      onlyRows s ((s'.setParts s.parts).setVeolo s.veolo) t row (count * tokenRows width fp32))) ∧
  (∀ (s : State) (t dir row count width : Nat) (cls : LClass) (fp32 : Bool), s.tileWorks t = true → 1 ≤ count → 1 ≤ width →
    row + count * linkRows cls width fp32 ≤ 2048 → s.linkMessage (s.owner t) cls dir count width = none →
    completes (.linkReceive t cls dir row count width fp32) s
      (fun s' => s' = s.hold (s.owner t) (bayOf t) (.linkReceive t cls dir row count width fp32)))

/-- SYNC on what has ended passes, and the instructions behind it go on; on what has not it waits. A SYNC that has waited counts one tier stall with its time
by the cause that ended it. FLOW moves a bay context through counted loops and branches on the step block or a status word; END ends the context once all that
it issued has retired, and with the last bay of its partition the step (R82, R83, R272). That the end of a loop without a loop goes on is the model's choice
(log entry 93). Completion is stated of: sync, flow, endStep. Where the rules leave a point open, this rests on a choice of the model: log entries 17 and 92.
-/
def Obligations.SequencerFlow : Prop :=
  (∀ (s : State) (p bay now : Nat) (op : SyncOp) (pt : Part), s.part p = some pt → pt.running bay = true →
    op.tiles.all (fun t => pt.tiles.contains t && bayOf t == bay) = true →
    (s.waitsIn p bay = false → (s.at now).syncWaits p bay op = false → completes (.sync p bay now op) s (fun s' => ∃ u : State,
      s' = u.pump p ∧ u = (s.at now).doSync p bay op ∧ (op.partBarrier = false → u = s.at now))) ∧
    ((s.waitsIn p bay = true ∨ (s.at now).syncWaits p bay op = true) →
      completes (.sync p bay now op) s (fun s' => s' = (s.at now).hold p bay (.sync p bay now op)))) ∧
  (∀ (s : State) (p bay since done cause : Nat) (pt : Part), s.part p = some pt →
    (pt.ctx bay).sync = some { since := since, last := some (done, cause) } → cause < 5 →
    let u := s.countStall p bay
    (u.reg .tier p (4 * cause)).toNat = min 0xFFFFFFFF ((s.reg .tier p (4 * cause)).toNat + 1) ∧
      (u.reg .tier p 0x14).toNat = min 0xFFFFFFFF ((s.reg .tier p 0x14).toNat + (done - since)) ∧ u.setRegs s.regs = s) ∧
  (∀ (s : State) (p bay a : Nat) (op : FlowOp) (pt : Part), s.part p = some pt → pt.running bay = true →
    (s.waitsIn p bay = false → completes (.flow p bay a op) s (fun s' =>
      s'.part p = some { pt with ctxs := NMap.insert pt.ctxs bay (match op with
        | .loop n => { pt.ctx bay with pc := a + 1, loops := (a + 1, n) :: (pt.ctx bay).loops }
        | .loopBack =>
          let l := (pt.ctx bay).loops.headD (0, 0)
          if 1 < l.2 then { pt.ctx bay with pc := l.1, loops := (l.1, l.2 - 1) :: (pt.ctx bay).loops.tail }
          else { pt.ctx bay with pc := a + 1, loops := (pt.ctx bay).loops.tail }
        | .branchField w v d =>
          { pt.ctx bay with pc := if ((pt.step.map (·.block)).getD []).getD w 0#32 = BitVec.ofNat 32 v then d else a + 1 }
        | .branchStatus u d => { pt.ctx bay with pc := if (s.tile u).satStatus then d else a + 1 }) } ∧ onlyPart s s' p)) ∧
    (s.waitsIn p bay = true → completes (.flow p bay a op) s (fun s' => s' = s.hold p bay (.flow p bay a op)))) ∧
  (∀ (s : State) (p bay : Nat) (pt : Part), s.part p = some pt → pt.running bay = true → s.stepFailed p = false →
    (s.waitsIn p bay = false → s.bayRetired p pt bay = true → completes (.endStep p bay) s (fun s' => ∃ u : State, s' = u.pump p ∧
      ∃ q, u.part p = some q ∧ (q.ctx bay).ended = true ∧ (∀ b, b ≠ bay → q.ctx b = pt.ctx b) ∧
      q.step.map (·.finished) = pt.step.map (fun v => if pt.bays.all (fun b => b == bay || (pt.ctx b).ended) then true else v.finished) ∧
      ({ q with ctxs := pt.ctxs, step := pt.step } : Part) = pt ∧ onlyPart s u p)) ∧
    ((s.waitsIn p bay = true ∨ s.bayRetired p pt bay = false) →
      completes (.endStep p bay) s (fun s' => s' = s.hold p bay (.endStep p bay))))

/-- FETCH of a tensor in the expert cache is a hit that pins its slot; a miss takes the slot that is neither pinned nor filling and whose last use is the
oldest, an empty one first and the lower of equals. FETCH_COMPLETE puts the tensor of the fetch that was issued first into its slot; a pod of it that fails
its check empties the slot and fails the step (R130, R131, R263, R264). Completion is stated of: fetch, fetchComplete. Where the rules leave a point open,
this rests on a choice of the model: log entries 14 and 20. -/
def Obligations.ExpertCacheFetches : Prop :=
  (∀ (s : State) (p tensor layer : Nat) (pt : Part) (im : Image), s.part p = some pt → pt.image = some im → pt.step.isSome = true →
    s.stepFailed p = false → (pt.dir im).any (fun d => d.tensor == tensor && d.flash) = true →
    let unpin := fun (x : XSlot) => if x.pinned.any (fun l => decide (l + 1 < layer)) then { x with pinned := none } else x
    let use := fun (x : XSlot) => { x with pinned := some layer, lastUse := s.merCount p }
    let xs := pt.xcache.map unpin
    (xs.any (fun x => x.tensor == some tensor) = true → completes (.fetch p tensor layer []) s (fun s' =>
      (s'.reg .tier p 0x18).toNat = min 0xFFFFFFFF ((s.reg .tier p 0x18).toNat + 1) ∧
      s'.part p = some { pt with xcache := xs.map (fun x => if x.tensor == some tensor then use x else x) } ∧
      (s'.setParts s.parts).setRegs s.regs = s ∧ ∀ q, q ≠ p → s'.part q = s.part q)) ∧
    (∀ i, xs.any (fun x => x.tensor == some tensor) = false → xVictim (s.merCount p) xs = some i →
      completes (.fetch p tensor layer []) s (fun s' =>
        (s'.reg .tier p 0x1C).toNat = min 0xFFFFFFFF ((s.reg .tier p 0x1C).toNat + 1) ∧
        s'.part p = some { pt with xcache := xs.set i (
          { tensor := some tensor, lastUse := s.merCount p, pinned := some layer, arriving := true, cause := pt.fetchCause tensor [],
            order := s.stamp } : XSlot) } ∧ s'.stamp = s.stamp + 1 ∧
        s'.mem = s.mem ∧ s'.tiles = s.tiles ∧ ∀ q, q ≠ p → s'.part q = s.part q))) ∧
  (∀ (mer i : Nat) (xs : List XSlot), xVictim mer xs = some i →
    let age := fun (x : XSlot) => if x.tensor.isNone then 2 ^ 32 else (mer + 2 ^ 32 - x.lastUse) % 2 ^ 32
    ∃ x, xs[i]? = some x ∧ x.pinned = none ∧ x.arriving = false ∧
      ∀ (j : Nat) (y : XSlot), xs[j]? = some y → y.pinned = none → y.arriving = false → age y ≤ age x ∧ (j < i → age y < age x)) ∧
  (∀ (s : State) (p tensor i now : Nat) (pt : Part) (im : Image) (d : DirEntry), s.part p = some pt → pt.image = some im →
    pt.nextFetch = some i → (pt.xcache[i]?).bind (·.tensor) = some tensor → (pt.dir im).find? (fun d => d.tensor == tensor) = some d →
    completes (.fetchComplete p tensor now) s (fun s' => ∃ (v : State) (cs : NMap BayCtx), v.part p = some { pt with ctxs := cs } ∧
      v.mem = s.mem ∧ (∀ q, q ≠ p → v.part q = s.part q) ∧
      (∀ e, shardFault (pt.fetchSource im d).1 (pt.fetchSource im d).2 = some e → ∃ w : State, w.part p = some (Machine.Part.emptySlot { pt with ctxs := cs } tensor) ∧
        w.setParts v.parts = v ∧ s' = (w.podFault p 0 (if pt.lentCopy tensor then 2 else 3) e none).pump p) ∧
      (shardFault (pt.fetchSource im d).1 (pt.fetchSource im d).2 = none → ∃ w : State, s' = w.pump p ∧
        w.mem = (v.storeTensor pt (pt.fetchSource im d).1 (pt.fetchSource im d).2 (pt.layout.xcache + i * pt.layout.xslot)).mem ∧
        w.part p = some { pt with ctxs := cs, xcache := pt.xcache.map (fun x => if x.tensor == some tensor then { x with arriving := false } else x) } ∧
        ∀ q, q ≠ p → w.part q = s.part q)))

/-- REG_READ returns the values of its registers in order, each read at once, and REG_WRITE writes its registers in order. The first refused entry stops the
frame, whose answer carries its status, its index and, of a read, the values before it; the entries before it keep their effect. An entry that is not aligned
or lies in no range is refused with BAD_FRAME; a read-clear register is 0 after it is read (R6, R7, R377, R480, R482). Completion is stated of: regRead,
regWrite. Where the rules leave a point open, this rests on a choice of the model: log entry 37. -/
def Obligations.RegisterFrames : Prop :=
  (∀ (s s1 : State) (c : Ctx) (as : List Nat) (vs : List Word), s.registersServe c 0x0606 → 1 ≤ as.length → as.length ≤ 64 →
    (∀ a ∈ as, a < 2 ^ 32) → readsDone c as vs s s1 →
    answered (.regRead c (beBytes 4 as.length ++ as.flatMap (beBytes 4))) s c 0x0606 .ok (vs.flatMap (fun v => beBytes 4 v.toNat)) (fun t => t = s1)) ∧
  (∀ (s s1 : State) (c : Ctx) (pre post : List Nat) (a : Nat) (vs : List Word) (st : Status), s.registersServe c 0x0606 →
    pre.length + 1 + post.length ≤ 64 → (∀ x ∈ pre ++ a :: post, x < 2 ^ 32) → readsDone c pre vs s s1 → s1.readEntry c a = .error st →
    answered (.regRead c (beBytes 4 (pre.length + 1 + post.length) ++ (pre ++ a :: post).flatMap (beBytes 4))) s c 0x0606 st
      (beBytes 4 pre.length ++ vs.flatMap (fun v => beBytes 4 v.toNat)) (fun t => t = s1)) ∧
  (∀ (s s1 : State) (c : Ctx) (es : List (Word × Word)), s.registersServe c 0x0607 → (c.sess = sidebandSess → s.isOwner c = true) →
    1 ≤ es.length → es.length ≤ 64 → writesDone c es s s1 → s1.lesar.goDone = [] →
    answered (.regWrite c (beBytes 4 es.length ++ es.flatMap (fun e => beBytes 4 e.1.toNat ++ beBytes 4 e.2.toNat))) s c 0x0607 .ok []
      (fun t => t = s1)) ∧
  (∀ (s s1 : State) (c : Ctx) (pre post : List (Word × Word)) (e : Word × Word) (st : Status), s.registersServe c 0x0607 →
    (c.sess = sidebandSess → s.isOwner c = true) → pre.length + 1 + post.length ≤ 64 → writesDone c pre s s1 →
    s1.writeEntry c e.1.toNat e.2 = .no st → s1.lesar.goDone = [] →
    answered (.regWrite c (beBytes 4 (pre.length + 1 + post.length) ++
      (pre ++ e :: post).flatMap (fun e => beBytes 4 e.1.toNat ++ beBytes 4 e.2.toNat))) s c 0x0607 st (beBytes 4 pre.length) (fun t => t = s1)) ∧
  (∀ (s : State) (c : Ctx) (a : Nat) (v : Word), (a % 4 ≠ 0 ∨ inRange a = false) → s.readEntry c a = .error .badFrame ∧
    s.writeEntry c a v = .no .badFrame) ∧
  (∀ (s : State) (c : Ctx) (b : Blk) (k off : Nat), s.isOwner c = true → k < b.place.2.2 → off < b.place.2.1 → off % 4 = 0 → b.occupied off = true →
    ∃ t, s.readEntry c (b.at k off) = .ok (t, s.regValue b k off) ∧
      (b.clears off = true → (b.perPart = true → (s.part k).isSome = true) → t.reg b k off = 0#32) ∧
      (b.clears off = false → t.regs = s.regs) ∧ t.mem = s.mem ∧ t.parts = s.parts ∧ t.lesar = s.lesar)

/-- A write of KV_RING_CTL, STRM_CTL, LS_REQ_LIMIT, LS_REQ_CTL or PG_CTL by the device owner, in range, sets the register's writable fields, keeps its other
bits, changes nothing else and is answered OK; out of range it is refused and changes nothing. GRAT_CTL, GZ_CTL, NT_PAUSE_CTL and TIER_LEND_OFFER also stage,
enable, resize or reclaim (R8, R114, R177, R190, R212, R246, R262, R268, R274, R448). A GO of TBL_LOAD_CTL starts the load, and its frame waits until
TABLE_LOAD_COMPLETE answers it OK. A bitmap load is carried out at once, or waits for the copy after a swap, which BITMAP_COPY_COMPLETE ends. A GO of
DEV_TILE_RST resets an idle tile and no other (R88, R92, R173, R189, R433, R482). Completion is stated of: tblLoad, tableLoadComplete, gratCtlWrite,
gzCtlWrite, kvRingCtlWrite, bitmapLoad, bitmapCopyComplete, strmCtlWrite, lsReqLimitWrite, lsReqCtlWrite, ntPauseCtlWrite, tierLendOfferWrite, pgCtlWrite,
tileBlockReset. Where the rules leave a point open, this rests on a choice of the model: log entries 35, 37, 38 and 45. -/
def Obligations.RegisterRowsAct : Prop :=
  (∀ (s : State) (c : Ctx) (i : Instr) (b : Blk) (k off : Nat) (v : Word), s.isOwner c = true → s.serveRefusal c 0x0607 .early = none →
    s.lesar.goDone = [] →
    ((i = .kvRingCtlWrite c k v ∧ b = .kv ∧ off = 0x10) ∨ (i = .strmCtlWrite c k v ∧ b = .strm ∧ off = 0) ∨
      (i = .lsReqLimitWrite c k v ∧ b = .req ∧ off = 0) ∨ (i = .lsReqCtlWrite c k v ∧ b = .req ∧ off = 4) ∨
      (i = .pgCtlWrite c v ∧ b = .pg ∧ k = 0 ∧ off = 4)) →
    k < 128 → (b ≠ .pg → ∃ pt, s.part k = some pt ∧ pt.resetting = none) →
    let w := writtenWord (b.fields off) (s.reg b k off) v
    (∀ st, s.outOfRange b k off w = some st → answered i s c 0x0607 st (beBytes 4 0) (fun t => t = s)) ∧
    (s.outOfRange b k off w = none → answered i s c 0x0607 .ok [] (fun t => t.reg b k off = w ∧ onlyReg s t (b.at k off)))) ∧
  (∀ (fs : List Fld) (old v : Word) (i : Nat), i < 32 → (∀ f ∈ fs, f.lo ≤ f.hi ∧ f.hi < 32) →
    (writtenWord fs old v).getLsbD i = if fs.any (fun f => f.acc == .rw && decide (f.lo ≤ i) && decide (i ≤ f.hi)) then v.getLsbD i
      else old.getLsbD i) ∧
  (∀ (s : State) (c : Ctx) (p : Nat) (v : Word) (pt : Part), s.isOwner c = true → s.serveRefusal c 0x0607 .early = none →
    s.lesar.goDone = [] → p < 128 → s.part p = some pt → pt.resetting = none →
    (pt.quads.contains (v.field 24 16 / 4) = true → v.field 24 16 ≠ (s.reg .grat p 0).field 24 16 →
      answered (.gratCtlWrite c p v) s c 0x0607 .ok [] (fun t =>
        t.reg .grat p 0 = writtenWord (Blk.fields .grat 0) (s.reg .grat p 0) v ∧ (∀ i, i < 10 → t.reg .grat p (0x14 + 4 * i) = 0#32) ∧
        t.part p = some { pt with staged := { pt.staged with grat := true } } ∧ (t.setRegs s.regs).setParts s.parts = s)) ∧
    answered (.gzCtlWrite c p v) s c 0x0607 .ok [] (fun t =>
      t.reg .gz p 0 = writtenWord (Blk.fields .gz 0) (s.reg .gz p 0) v ∧
      (v.bit 31 = false → t.part p = some { pt with staged := { pt.staged with gzOff := true } }) ∧
      (v.bit 31 = true → pt.gzState = 0 → MState.up pt.mstate = true → pt.image.any Image.isFirst = true →
        t.part p = some { pt with staged := { pt.staged with gzOff := false }, gzState := 1 }) ∧ (t.setRegs s.regs).setParts s.parts = s)) ∧
  (∀ (s : State) (c : Ctx) (v : Word), s.isOwner c = true → s.serveRefusal c 0x0607 .early = none → s.lesar.goDone = [] →
    (v.field 10 0 ≤ 1200 → 3 * v.field 10 0 + 16 * (s.parts.map (fun e => e.2.nand.length)).sum ≤ 3600 →
      answered (.ntPauseCtlWrite c v) s c 0x0607 .ok [] (fun t =>
        (s.nand.pauseUsed = 0 → t.nand.pauseSize = v.field 10 0 ∧ t.nand.pauseWant = none) ∧
        (s.nand.pauseUsed ≠ 0 → t.nand.pauseSize = s.nand.pauseSize ∧
          t.nand.pauseWant = if v.field 10 0 = s.nand.pauseSize then none else some (v.field 10 0)) ∧ t.mem = s.mem ∧ t.parts = s.parts)) ∧
    (v.field 9 0 ≤ s.freeExtents → answered (.tierLendOfferWrite c v) s c 0x0607 .ok [] (fun t =>
        t = (s.putReg .tierDev 0 0 (writtenWord (Blk.fields .tierDev 0) (s.reg .tierDev 0 0) v)).reclaim (v.field 9 0))) ∧
    (v.field 9 0 ≤ s.freeExtents → (s.lender.loans.map (fun l => if l.noticed then 0 else l.extents.length)).sum ≤ v.field 9 0 →
      answered (.tierLendOfferWrite c v) s c 0x0607 .ok [] (fun t =>
        t.reg .tierDev 0 0 = writtenWord (Blk.fields .tierDev 0) (s.reg .tierDev 0 0) v ∧ t.lender = s.lender ∧
        onlyReg s t (Blk.tierDev.at 0 0)))) ∧
  (∀ (s : State) (c : Ctx) (p : Nat) (v : Word) (pt : Part) (bs : Bytes), s.ownerWrites c → p < 128 → s.part p = some pt → pt.resetting = none →
    v.bit 31 = true →
    let w := writtenWord (Blk.fields .tbl 0x0C) (s.reg .tbl p 0x0C) v
    let d := s.reg .tbl p 0x08
    let op : LoadOp := ⟨d.field 17 16, d.field 15 8, d.field 5 0, w.field 5 0, w.field 29 28, w.bit 30, if w.bit 27 then some (w.field 22 16) else none⟩
    let src := (s.reg .tbl p 0x00).field 31 9 * 512 + (s.reg .tbl p 0x04).field 5 0 * 2 ^ 32
    LoadOp.ok op = true → op.quad.all (fun q => pt.quads.contains q) = true → s.shareRead pt src (512 * op.rows) = some bs →
    src + 512 * op.rows ≤ pt.shareBytes → s.dram.bad = [] → s.dram.failed = [] → pt.load = none → pt.loadQ = [] →
    pt.copying.getD op.kind false = false → namesActive op.bank (pt.activeBank op.kind) = false →
    completes (.tblLoad c p v) s (fun t => t.part p = some { pt with load := some ⟨op, bs, none⟩ } ∧ waitsFor s t c 1 p ∧
      t.reg .tbl p 0x0C = w ∧ ((t.setRegs s.regs).setParts s.parts).setLesar s.lesar = s ∧ ∀ q, q ≠ p → t.part q = s.part q)) ∧
  (∀ (s : State) (p : Nat) (pt : Part) (j : LoadJob) (w : RegWait), s.part p = some pt → pt.load = some j → j.bay = none → pt.loadQ = [] →
    s.lesar.goDone = [] → s.lesar.regWaits.find? (fun w => w.what == 1 && w.part == p) = some w → w.rest = [] →
    completes (.tableLoadComplete p) s (fun t => ∃ u : State, t = (u.reply w.ctx 0x0607 .ok []).pump p ∧
      u.lesar.regWaits = s.lesar.regWaits.erase w ∧
      u.part p = some { pt with load := none, swapStaged := if j.op.swap then pt.swapStaged.set j.op.kind true else pt.swapStaged })) ∧
  (∀ (s : State) (c : Ctx) (p : Nat) (v : Word) (pt : Part) (bs : Bytes) (u : State), s.ownerWrites c → p < 128 → s.part p = some pt →
    pt.resetting = none → v.bit 31 = true → (∀ w ∈ s.lesar.regWaits, ¬ (w.what = 2 ∧ w.part = p)) →
    let w := writtenWord (Blk.fields .kv 0x1C) (s.reg .kv p 0x1C) v
    let src := (s.reg .kv p 0x14).field 31 11 * 2048 + (s.reg .kv p 0x18).field 5 0 * 2 ^ 32
    let n := w.field 6 0
    w.field 29 28 ≠ 1 → 1 ≤ n → n ≤ 64 → w.field 25 16 + n ≤ 1024 → src + 2048 * n ≤ pt.shareBytes → s.dram.bad = [] → s.dram.failed = [] →
    s.shareRead pt src (2048 * n) = some bs →
    (pt.bmpCopying = true → completes (.bitmapLoad c p v) s (fun t =>
      t.part p = some { pt with bmpQ := pt.bmpQ ++ [(w.field 29 28, w.field 25 16, bs)] } ∧ waitsFor s t c 2 p ∧
      ((t.setRegs s.regs).setParts s.parts).setLesar s.lesar = s)) ∧
    (pt.bmpCopying = false → namesActive (w.field 29 28) (pt.activeBank 2) = false →
      s.shareWrite pt (pt.layout.bitmap + (1 - pt.activeBank 2) * bitmapHalf + 2048 * w.field 25 16) bs = some u →
      answered (.bitmapLoad c p v) s c 0x0607 .ok [] (fun t => t.mem = u.mem ∧ t.reg .kv p 0x1C = w ∧ onlyReg u t (Blk.kv.at p 0x1C)))) ∧
  (∀ (s : State) (p : Nat) (pt : Part) (bs : Bytes) (u : State), s.part p = some pt → pt.bmpCopying = true → pt.bmpQ = [] → s.lesar.goDone = [] →
    s.shareRead pt (pt.layout.bitmap + pt.activeBank 2 * bitmapHalf) bitmapHalf = some bs →
    s.shareWrite pt (pt.layout.bitmap + (1 - pt.activeBank 2) * bitmapHalf) bs = some u →
    completes (.bitmapCopyComplete p) s (fun t => t.part p = some { pt with bmpCopying := false, bmpQ := [] } ∧ t.mem = u.mem ∧ onlyPart u t p)) ∧
  (∀ (s : State) (c : Ctx) (v : Word), s.ownerWrites c → v.bit 31 = true →
    let t := v.field 8 0
    ((s.tileIdle t = true ∧ ∀ p pt, s.ownerOf t = some p → s.part p = some pt → pt.resetting = none) →
      answered (.tileBlockReset c v) s c 0x0607 .ok [] (fun u =>
        (let x := s.tile t
         u.tile t = { Tile.cleared with tables := x.tables, bad := x.bad, scrubPtr := x.scrubPtr, bound := x.bound }) ∧
        (u.setRegs s.regs).setTiles s.tiles = s ∧ ∀ x, x ≠ t → u.tile x = s.tile x)) ∧
    (s.tileIdle t = false → answered (.tileBlockReset c v) s c 0x0607 .notPermitted (beBytes 4 0) (fun u => u = s)))

/-- RETRAIN sends an enabled link to DOWN with its replay buffer and sequence state discarded. A write of VL_DEV_NUM.NEXT with NEXT_EN, and one of
VL_TOPO_CTL, begins an update of the parameter set, and its frame waits for the update (R284, R289, R300, R346). A GO of TIER_LOAN_CTL asks the neighbour over
its link for the extents, in the lent-memory class, and its frame waits for the answer; a RELEASE puts the partition's loans over the link under return, and
its frame waits until they have ended (R265, R269, R482). Completion is stated of: loanRequest, loanRelease, retrain, vlDevNumWrite, vlTopoCtlWrite. Where the
rules leave a point open, this rests on a choice of the model: log entry 29. -/
def Obligations.LinkRegistersAndLoans : Prop :=
  (∀ (s : State) (c : Ctx) (i : Nat) (v : Word), s.ownerWrites c → i < 8 → v.bit 31 = true → v.bit 30 = true →
    answered (.retrain c i v) s c 0x0607 .ok [] (fun t => (t.link i).st = .down ∧ (t.link i).replay = [] ∧ (t.link i).txSeq = 0 ∧
      (t.link i).rxSeq = 0 ∧ (∀ j, j ≠ i → (t.link j).st = (s.link j).st) ∧
      t.reg .vl i 0 = writtenWord (Blk.fields .vl 0) (s.reg .vl i 0) v ∧ (t.setRegs s.regs).setVeolo s.veolo = s)) ∧
  (∀ (s : State) (c : Ctx) (i : Instr) (off : Nat) (v : Word) (new : ParamSet), s.ownerWrites c → s.flash.op = none → s.flash.queue = [] →
    s.flash.susp = none →
    let w := writtenWord (Blk.fields .vlDev off) (s.regValue .vlDev 0 off) v
    s.outOfRange .vlDev 0 off w = none →
    ((i = .vlDevNumWrite c v ∧ off = 0 ∧ v.bit 15 = true ∧ new = { s.params with numValid := true, devNum := v.field 11 0 }) ∨
      (i = .vlTopoCtlWrite c v ∧ off = 4 ∧ new = { s.params with topo := w })) →
    completes i s (fun t => waitsFor s t c 5 0 ∧ t.reg .vlDev 0 off = w ∧
      t.flash.op = some (.erase (paramSector (1 - s.params.copy)) (.param none 0 { new with copy := 1 - s.params.copy, seq := s.params.seq + 1 })) ∧
      paramSector (1 - s.params.copy) ∈ t.flash.half ∧ t.mem = { s.mem with flash := t.mem.flash } ∧
      (((t.setRegs s.regs).setLesar s.lesar).setFlash s.flash).setMem s.mem = s)) ∧
  (∀ (s : State) (c : Ctx) (p : Nat) (v : Word) (pt : Part), s.ownerWrites c → p < 128 → s.part p = some pt → pt.resetting = none →
    v.bit 31 = true → v.bit 30 = false →
    let link := v.field 10 8
    let n := v.field 6 0
    1 ≤ n → n ≤ 64 → s.linkNeighbour link = true → (s.link link).g7 = true → s.loansHeld < 16 →
    completes (.loanRequest c p v) s (fun t => waitsFor s t c (askCode link n) p ∧
      t.part p = some { pt with loanAsk := pt.loanAsk ++ [(link, n)] } ∧ (∀ q, q ≠ p → t.part q = s.part q) ∧
      t.veolo = (s.sendMessage (link / 2) .lent p (beBytes 1 0x40 ++ beBytes 1 p ++ beBytes 1 link ++ beBytes 1 n)).veolo ∧
      (((t.setRegs s.regs).setLesar s.lesar).setParts s.parts).setVeolo s.veolo = s)) ∧
  (∀ (s : State) (c : Ctx) (p : Nat) (v : Word) (pt : Part), s.ownerWrites c → p < 128 → s.part p = some pt → pt.resetting = none →
    v.bit 31 = false → v.bit 30 = true → pt.loans.any (fun l => l.link == v.field 10 8 && l.active) = true →
    completes (.loanRelease c p v) s (fun t => waitsFor s t c (releaseCode (v.field 10 8)) p ∧
      t.part p = some { pt with loans := pt.loans.map (fun l =>
        if l.link == v.field 10 8 && l.active then { l with notice := true, returning := true, copies := [] } else l) } ∧
      (∀ q, q ≠ p → t.part q = s.part q) ∧ ((t.setRegs s.regs).setLesar s.lesar).setParts s.parts = s)) ∧
  (∀ (s : State) (c : Ctx) (p : Nat) (v : Word) (pt : Part), s.ownerWrites c → p < 128 → s.part p = some pt → pt.resetting = none →
    v.bit 31 = true → v.bit 30 = true → answered (.loanRequest c p v) s c 0x0607 .badFrame (beBytes 4 0) (fun t => t = s))

/-- CF_READ returns the bytes of the flash from an address behind an UNRELIABLE byte, which is 1 where the first sector read is HALF_ERASED; a read that
touches the Keeper area is refused with PROTECTED. CF_LOG_READ returns bytes of its area, CF_BLANK_CHECK whether a sector holds a byte that is not erased,
CF_HALF_LIST the HALF_ERASED sectors in order, CF_PROT_READ both bitmaps (R335 to R337, R342, R344). Completion is stated of: cfRead, cfBlankCheck,
cfHalfList, cfProtRead, cfLogRead. Where the rules leave a point open, this rests on a choice of the model: log entries 23 and 34. -/
def Obligations.FlashReads : Prop :=
  (∀ (s : State) (c : Ctx) (a n : Nat), s.flashServes c 0x0701 → 1 ≤ n → n ≤ 4096 → a + n ≤ 2 ^ 25 →
    ((0x00100000 ≤ a ∨ a + n ≤ 0x00010000) → s.flash.half = [] → s.flash.badWords = [] →
      flashAnswered (.cfRead c (beBytes 4 a ++ beBytes 4 n) []) s c 0x0701 .ok
        ([0#8, 0#8, 0#8, 0#8] ++ (List.range n).map (fun i => Mem.read 0xFF#8 s.mem.flash (a + i))) (fun u => u = s)) ∧
    ((0x00100000 ≤ a ∨ a + n ≤ 0x00010000) → s.flash.half.contains (sectorAt a) = true →
      ∃ d, flashAnswered (.cfRead c (beBytes 4 a ++ beBytes 4 n) []) s c 0x0701 .ok ([1#8, 0#8, 0#8, 0#8] ++ d)
        (fun u => u.flash.unreliable = true ∧ u.mem = s.mem ∧ { u.flash with unreliable := s.flash.unreliable } = s.flash)) ∧
    (a < 0x00100000 → 0x00010000 < a + n →
      flashAnswered (.cfRead c (beBytes 4 a ++ beBytes 4 n) []) s c 0x0701 .protected_ [] (fun u => u = s))) ∧
  (∀ (s : State) (c : Ctx) (area off n : Nat), s.flashServes c 0x070F → area < 2 → 1 ≤ n → n ≤ 4096 →
    off + n ≤ (if area = 0 then 983040 else 32768) → s.flash.half = [] → s.flash.badWords = [] →
    flashAnswered (.cfLogRead c ([BitVec.ofNat 8 area, 0#8, 0#8, 0#8] ++ (beBytes 4 off ++ beBytes 4 n)) []) s c 0x070F .ok
      ((List.range n).map (fun i => Mem.read 0xFF#8 s.mem.flash ((if area = 0 then 0x01010000 else 0x01008000) + off + i))) (fun u => u = s)) ∧
  (∀ (s : State) (c : Ctx) (k : Nat), s.flashServes c 0x0706 → s.flash.queue = [] → sectorOk k = true → s.flash.half.contains k = false →
    Mem.wf 0xFF#8 s.mem.flash = true →
    ((∀ x, x < sectorSize k → Mem.read 0xFF#8 s.mem.flash (sectorBase k + x) = 0xFF#8) →
      flashAnswered (.cfBlankCheck c (beBytes 2 k)) s c 0x0706 .ok [0#8] (fun u => u = s)) ∧
    (∀ x, x < sectorSize k → Mem.read 0xFF#8 s.mem.flash (sectorBase k + x) ≠ 0xFF#8 →
      flashAnswered (.cfBlankCheck c (beBytes 2 k)) s c 0x0706 .ok [1#8] (fun u => u = s))) ∧
  (∀ (s : State) (c : Ctx), s.flash.queue = [] → (s.flashServes c 0x0707 → flashAnswered (.cfHalfList c []) s c 0x0707 .ok
      (s.flash.half.mergeSort.flatMap (fun n => beBytes 2 n ++ [if s.flash.blankOk.any (fun b => b.1 == n && b.2) then 1#8 else 0#8, 0#8]))
      (fun u => u = s)) ∧
    (s.flashServes c 0x070A → flashAnswered (.cfProtRead c []) s c 0x070A .ok (s.params.protMain ++ beBytes 4 s.params.protParam.toNat)
      (fun u => u = s)))

/-- CF_PROGRAM of an erased run of words in an unprotected owner sector starts a program, whose completion writes the bytes, and nothing else, and answers the
frame; a sector that is not the owner's, or protected, is refused with PROTECTED (R335, R337, R338). CF_ERASE is answered PENDING and starts the erase, its
sector HALF_ERASED; the completion leaves the sector erased and no longer HALF_ERASED, and answers OK. CF_SUSPEND holds a running erase, CF_RESUME lets it
run, and each is refused with NOT_PERMITTED where there is none. CF_TWIN_WRITE with FIRST begins to erase the inactive twin, and without it programs at the
end of the last frame (R339, R340, R342, R349). Completion is stated of: cfProgram, cfErase, cfEraseComplete, cfProgramComplete, cfSuspend, cfResume,
cfTwinWrite. Where the rules leave a point open, this rests on a choice of the model: log entries 23 and 32. -/
def Obligations.FlashProgramsAndErases : Prop :=
  (∀ (s : State) (c : Ctx) (a n : Nat) (d : Bytes), s.flashServes c 0x0702 → s.flash.op = none → s.flash.queue = [] → d.length = n →
    a % 16 = 0 → n % 16 = 0 → 1 ≤ n → n ≤ 256 → a / 256 = (a + n - 1) / 256 → a < 2 ^ 25 →
    ((ownerSector (sectorAt a) = false ∨ s.params.protects (sectorAt a) = true) →
      flashAnswered (.cfProgram c (beBytes 4 a ++ (beBytes 4 n ++ d))) s c 0x0702 .protected_ [] (fun u => u = s)) ∧
    (ownerSector (sectorAt a) = true → s.params.protects (sectorAt a) = false → s.flash.half.contains (sectorAt a) = true →
      flashAnswered (.cfProgram c (beBytes 4 a ++ (beBytes 4 n ++ d))) s c 0x0702 .halfErased [] (fun u => u = s)) ∧
    (ownerSector (sectorAt a) = true → s.params.protects (sectorAt a) = false → s.flash.half.contains (sectorAt a) = false →
      s.flash.badWords = [] → (∀ x, x < n → Mem.read 0xFF#8 s.mem.flash (a + x) = 0xFF#8) →
      completes (.cfProgram c (beBytes 4 a ++ (beBytes 4 n ++ d))) s (fun t =>
        t = s.setFlash { s.flash with op := some (.program c 0x0702 a d) }))) ∧
  (∀ (s : State) (c : Ctx) (op a : Nat) (d : Bytes), s.flash.op = some (.program c op a d) → s.flash.queue = [] → s.flash.resumeWait = none →
    s.lesar.goDone = [] →
    flashAnswered .cfProgramComplete s c op .ok [] (fun u => u.flash = { s.flash with op := none } ∧
      (∀ x, x < d.length → Mem.read 0xFF#8 u.mem.flash (a + x) = d.getD x 0#8) ∧
      (∀ x, (x < a ∨ a + d.length ≤ x) → Mem.read 0xFF#8 u.mem.flash x = Mem.read 0xFF#8 s.mem.flash x) ∧
      u.mem = { s.mem with flash := u.mem.flash } ∧ (u.setFlash s.flash).setMem s.mem = s)) ∧
  (∀ (s : State) (c : Ctx) (n : Nat), s.flashServes c 0x0703 → s.flash.op = none → s.flash.queue = [] → s.flash.susp = none →
    sectorOk n = true → ownerSector n = true → s.params.protects n = false →
    completes (.cfErase c (beBytes 2 n)) s (fun t =>
      let u := s.cfDone (some c) 0x0703 .pending []
      t.flash.op = some (.erase n (.answer c)) ∧ n ∈ t.flash.half ∧ t.mem = { s.mem with flash := t.mem.flash } ∧
      (t.setFlash u.flash).setMem u.mem = u)) ∧
  (∀ (s : State) (c : Ctx) (n : Nat), s.flash.op = some (.erase n (.answer c)) → s.flash.queue = [] → ownerSector n = true →
    s.flash.jHead < 2048 → s.lesar.goDone = [] →
    flashAnswered .cfEraseComplete s c 0x0703 .ok [] (fun u => u.flash.op = none ∧ u.flash.half = s.flash.half.filter (· != n) ∧
      (∀ x, x < sectorSize n → Mem.read 0xFF#8 u.mem.flash (sectorBase n + x) = 0xFF#8) ∧
      u.mem = { s.mem with flash := u.mem.flash } ∧ (u.setFlash s.flash).setMem s.mem = s)) ∧
  (∀ (s : State) (c : Ctx), s.flashServes c 0x0704 →
    (∀ n a, s.flash.op = some (.erase n a) → s.flash.susp = none → s.flash.queue = [] →
      flashAnswered (.cfSuspend c []) s c 0x0704 .ok [] (fun u => u = s.setFlash { s.flash with op := none, susp := some (.erase n a) })) ∧
    (s.flash.op = none → s.flash.queue = [] → flashAnswered (.cfSuspend c []) s c 0x0704 .notPermitted [] (fun u => u = s))) ∧
  (∀ (s : State) (c : Ctx), s.flashServes c 0x0705 →
    (∀ e, s.flash.susp = some e → s.flash.op = none →
      flashAnswered (.cfResume c []) s c 0x0705 .ok [] (fun u => u = s.setFlash { s.flash with op := some e, susp := none })) ∧
    (s.flash.susp = none → flashAnswered (.cfResume c []) s c 0x0705 .notPermitted [] (fun u => u = s)) ∧
    (∀ e o, s.flash.susp = some e → s.flash.op = some o → s.flash.resumeWait = none →
      completes (.cfResume c []) s (fun t => t = s.setFlash { s.flash with resumeWait := some c }))) ∧
  (∀ (s : State) (c : Ctx) (last off : Nat) (d : Bytes), s.flashServes c 0x070B → s.flash.op = none → s.flash.queue = [] → last < 2 →
    d.length % 16 = 0 → d.length ≤ 4096 → off % 16 = 0 → off + d.length ≤ twinSize →
    let twin := 1 - s.params.bootActive
    let next := if last = 1 then none else some (off + d.length)
    (s.flash.twinWrite = none → s.flash.susp = none →
      completes (.cfTwinWrite c ([BitVec.ofNat 8 (1 + 2 * last), 0#8, 0#8, 0#8] ++ (beBytes 4 off ++ d))) s (fun t =>
        t.flash.op = some (.erase ((twinSectors twin).headD 0) (.twin c ((twinSectors twin).drop 1) off d)) ∧ t.flash.twinWrite = next)) ∧
    (s.flash.twinWrite = some off →
      completes (.cfTwinWrite c ([BitVec.ofNat 8 (2 * last), 0#8, 0#8, 0#8] ++ (beBytes 4 off ++ d))) s (fun t =>
        t = s.setFlash { s.flash with twinWrite := next, op := some (.program c 0x070B (twinBase twin + off) d) })))

/-- CF_PROT_SET and CF_PW_SET begin an update of the parameter set where no password is set or the one given matches; one that does not match is refused and
counted, and past 8 failures both are refused with PASSWORD_LOCKED and nothing is appended. The program that ends an update puts the new set in force.
CF_BOOT_SWAP begins an update that inverts BOOT_ACTIVE where the inactive twin verifies and is not below the floor; CF_START_CLEAR sets the start record to 0;
a valid token of CF_PW_RESET clears the password and the failures (R346 to R348, R350, R412). Completion is stated of: cfProgramComplete, cfProtSet, cfPwSet,
cfBootSwap, cfStartClear, cfPwReset. Where the rules leave a point open, this rests on a choice of the model: log entries 24, 33 and 34. -/
def Obligations.FlashProtection : Prop :=
  (∀ (s : State) (c : Ctx) (i : Instr) (op : Nat) (pw : Bytes) (new : ParamSet), s.flashServes c op → s.flash.op = none → s.flash.queue = [] →
    s.flash.susp = none → pw.length = 16 →
    ((∃ (m : Bytes) (w : Word), i = .cfProtSet c (m ++ (beBytes 4 w.toNat ++ pw)) ∧ op = 0x0708 ∧ m.length = 64 ∧
        new = { s.params with protMain := m, protParam := w }) ∨
      (∃ nw : Bytes, i = .cfPwSet c (pw ++ nw) ∧ op = 0x0709 ∧ nw.length = 16 ∧
        new = { s.params with pwSet := !allZero nw, pwDigest := if allZero nw then List.replicate 32 0 else passwordDigest nw })) →
    (8 ≤ s.flash.pwFails → flashAnswered i s c op .passwordLocked [] (fun u => u = s)) ∧
    (s.flash.pwFails < 8 → s.params.pwSet = true → passwordDigest pw ≠ s.params.pwDigest →
      flashAnswered i s c op .notPermitted [] (fun u => u.flash.pwFails = s.flash.pwFails + 1 ∧ u.flash.op = none ∧
        (u.setFlash s.flash).setMem s.mem = s)) ∧
    (s.flash.pwFails < 8 → (s.params.pwSet = false ∨ passwordDigest pw = s.params.pwDigest) → completes i s (fun t =>
      t.flash.op = some (.erase (paramSector (1 - s.params.copy)) (.param (some c) op { new with copy := 1 - s.params.copy, seq := s.params.seq + 1 })) ∧
      (s.params.pwSet = true → t.flash.pwFails = 0) ∧ (t.setFlash s.flash).setMem s.mem = s))) ∧
  (∀ (s : State) (c : Ctx) (op : Nat) (new : ParamSet), s.flash.op = some (.param (some c) op new) → s.flash.queue = [] →
    s.flash.resumeWait = none → s.lesar.goDone = [] →
    flashAnswered .cfProgramComplete s c op .ok [] (fun u => u.flash = { s.flash with op := none, params := some new } ∧
      (∀ x, x < new.bytes.length → Mem.read 0xFF#8 u.mem.flash (sectorBase (paramSector new.copy) + x) = new.bytes.getD x 0#8))) ∧
  (∀ (s : State) (c : Ctx) (raise : Bool), s.flashServes c 0x070C → s.flash.op = none → s.flash.queue = [] → s.flash.susp = none →
    let v := s.params
    let twin := 1 - v.bootActive
    let version := imageVersion (s.twinImage twin)
    (s.twinGood twin = true → v.floor ≤ version →
      completes (.cfBootSwap c [if raise then 1#8 else 0#8, 0#8, 0#8, 0#8]) s (fun t =>
        t.flash.op = some (.erase (paramSector (1 - v.copy)) (.param (some c) 0x070C
          { v with bootActive := twin, floor := if raise then version else v.floor, copy := 1 - v.copy, seq := v.seq + 1 })))) ∧
    (s.twinGood twin = false → flashAnswered (.cfBootSwap c [if raise then 1#8 else 0#8, 0#8, 0#8, 0#8]) s c 0x070C .signatureInvalid []
      (fun u => u.flash = s.flash ∧ u.mem = s.mem))) ∧
  (∀ (s : State) (c : Ctx), s.flashServes c 0x070D → s.flash.queue = [] → flashAnswered (.cfStartClear c []) s c 0x070D .ok [] (fun u => u.flash.starts = 0 ∧
    u.flash.pwFails = s.flash.pwFails ∧ u.flash.params = s.flash.params ∧ (u.setFlash s.flash).setMem s.mem = s)) ∧
  (∀ (s : State) (c : Ctx) (n : Nat) (key sig : Bytes), s.flashServes c 0x070E → s.flash.op = none → s.flash.queue = [] → s.flash.susp = none →
    s.keeper.lastCommand = none → s.keeper.ownerKey = some key → sig.length = 64 → n < 2 ^ 64 →
    let msg := beBytes 4 0x50575253 ++ ([0#8, 0#8, 0#8, 0#8] ++ (Config.sm3 Config.identityKey ++ beBytes 8 n))
    (Config.sm3 Config.identityKey).length = 32 →
    (Config.sm2Verify key msg sig = true → s.keeper.commandMark < n → completes (.cfPwReset c (msg ++ sig)) s (fun t =>
      t.flash.op = some (.erase (paramSector (1 - s.params.copy)) (.param (some c) 0x070E
        { s.params with pwSet := false, pwDigest := List.replicate 32 0, copy := 1 - s.params.copy, seq := s.params.seq + 1 })) ∧
      t.flash.pwFails = 0 ∧ t.keeper.commandMark = n)) ∧
    ((Config.sm2Verify key msg sig = false ∨ n ≤ s.keeper.commandMark) →
      flashAnswered (.cfPwReset c (msg ++ sig)) s c 0x070E .signatureInvalid (beBytes 8 s.keeper.commandMark)
        (fun u => u = s.bump .kpr 0 0x04 1)))

/-- LOAD_FIRMWARE takes an image message by message, each at the offset where the last one ended; a message elsewhere ends the load with BAD_FRAME, 10 s
without one end it too. The last message is answered PENDING. When its image has been checked, a running device keeps it as the pending image and answers OK,
a ready device releases the processor with it, and an image that the Keeper refuses is answered with the refusal. The first heartbeat answers OK and the
device runs; without it the processor is halted again with BUSY_RECOVERY; every later one is counted (R388, R389, R396, R397). Completion is stated of:
heartbeat, loadFirmware, loadFirmwareTimeout, firmwareCheckComplete, firstHeartbeatTimeout. Where the rules leave a point open, this rests on a choice of the
model: log entries 44 and 73. -/
def Obligations.FirmwareIsLoaded : Prop :=
  (∀ (s : State) (c : Ctx) (flags : Nat) (off : Nat) (d : Bytes), s.accepts c 0x0601 .keeperEarly true → flags < 4 → off % 16 = 0 → d.length % 16 = 0 →
    d.length ≤ (if s.genOf c = 2 then 224 else 4080) → s.dev.fwAwait = none → (∀ l, s.dev.load = some l → l.last = false ∧ l.sess = c.sess) →
    (flags % 2 = 1 → s.dev.actQueued = none) → off < 2 ^ 32 →
    let so : Option Bytes := if flags % 2 = 1 then some [] else s.dev.load.map (·.bytes)
    let i : Instr := .loadFirmware c (beBytes 1 flags ++ (beBytes 3 0 ++ (beBytes 4 off ++ d)))
    let m := s.freeMbox c 0x0601
    (∀ bs, so = some bs → off = bs.length → (bs ++ d).length ≤ 16777216 →
      let l : FwLoad := { sess := c.sess, ctx := c, gen := s.genOf c, bytes := bs ++ d, last := flags / 2 % 2 == 1 }
      let u := m.setDev { s.dev with pendingImage := if flags % 2 = 1 then none else s.dev.pendingImage, load := some l }
      (flags / 2 % 2 = 0 → exec i s = .next (u.reply c 0x0601 .ok [])) ∧ (flags / 2 % 2 = 1 → exec i s = .next (u.owe c 0x0601))) ∧
    ((so = none ∨ ∃ bs, so = some bs ∧ (off ≠ bs.length ∨ 16777216 < (bs ++ d).length)) →
      exec i s = .next ((m.setDev { s.dev with load := none }).reply c 0x0601 .badFrame []))) ∧
  (∀ (s : State) (l : FwLoad), s.dev.load = some l → l.last = false → exec .loadFirmwareTimeout s = .next (s.setDev { s.dev with load := none, netSrc := none })) ∧
  (∀ (s : State) (l : FwLoad), s.dev.load = some l → l.last = true → ⟨l.ctx, 0x0601⟩ ∈ s.lesar.owed →
    let s0 := (s.setDev { s.dev with load := none }).setLesar { s.lesar with owed := s.lesar.owed.erase ⟨l.ctx, 0x0601⟩ }
    (∀ st, imageCheck 2 l.bytes = some st → exec .firmwareCheckComplete s =
      .next ((if st = .signatureInvalid then s0.bump .kpr 0 0x04 1 else s0).reply l.ctx 0x0601 st [])) ∧
    (imageCheck 2 l.bytes = none → s.compatible l.bytes l.gen = false → exec .firmwareCheckComplete s = .next (s0.reply l.ctx 0x0601 .fwVersionRefused [])) ∧
    (imageCheck 2 l.bytes = none → s.compatible l.bytes l.gen = true →
      (s.dev.phase = .running → exec .firmwareCheckComplete s =
        .next ((s0.setDev { s.dev with load := none, pendingImage := some l.bytes, pendingGen := l.gen }).reply l.ctx 0x0601 .ok [])) ∧
      (s.dev.phase = .ready → exec .firmwareCheckComplete s =
        .next (s.setDev { s.dev with load := none, fwImage := l.bytes, fwAwait := some (some l.ctx), heartbeats := 0 })))) ∧
  (∀ (s : State) (c : Ctx), s.dev.fwAwait = some (some c) → ⟨c, 0x0601⟩ ∈ s.lesar.owed →
    let s0 := s.setLesar { s.lesar with owed := s.lesar.owed.erase ⟨c, 0x0601⟩ }
    exec .firstHeartbeatTimeout s = .next ((s0.setDev { s.dev with fwAwait := none, fwImage := [] }).reply c 0x0601 .busyRecovery []) ∧
    (s.dev.phase = .ready → s.flash.half = [] →
      let d := { s.dev with heartbeats := (s.dev.heartbeats + 1) % 2 ^ 32, phase := .running, fwVersion := imageVersion s.dev.fwImage }
      exec .heartbeat s = .next ((s0.setDev { d with fwAwait := none, fwHalted := false }).reply c 0x0601 .ok []))) ∧
  (∀ s : State, s.dev.fwAwait = none → s.dev.phase = .running →
    exec .heartbeat s = .next (s.setDev { s.dev with heartbeats := (s.dev.heartbeats + 1) % 2 ^ 32 }))

/-- 100 ms without a heartbeat: the device owner is told, the message that waits for firmware is answered BUSY_RECOVERY and its mailbox freed, what firmware
was doing for a partition ends (R15). ACTIVATE_FIRMWARE begins the reset that starts a pending image once the power guard has been NORMAL for 1 s, after leave
notices to the neighbours; until then it is DEFERRED, and after 30 s DEFERRED_TIMEOUT ends it (R298, R399). Completion is stated of: mgmtProcessorStopped,
activateFirmware, activationProceed, activationTimeout. Where the rules leave a point open, this rests on a choice of the model: log entries 73, 74 and 75. -/
def Obligations.FirmwareStopsAndActivates : Prop :=
  (∀ s : State, s.dev.phase = .running → s.dev.fwHalted = false → completes .mgmtProcessorStopped s (fun t => t.dev = { s.dev with fwHalted := true } ∧
    t.mem = s.mem ∧ t.tiles = s.tiles ∧ ∀ q, t.part q = (s.part q).map (fun pt =>
      let v : Machine.Part := if pt.install.any (fun v => !v.loading) then Part.trimKeys { pt with install := none, mstate := pt.restState } else pt
      { v with refetch := none, lendCopy := none, resetting := pt.resetting.map (fun r => (r.1, false)) }))) ∧
  (∀ s : State, s.dev.phase = .running → s.dev.fwHalted = false → s.parts = [] → (∀ o ∈ s.lesar.owed, serverOf o.opcode ≠ .firmware) →
    ((∀ m ∈ s.lesar.mboxes, serverOf m.opcode ≠ .firmware) →
      completes .mgmtProcessorStopped s (fun t => t = (s.setDev { s.dev with fwHalted := true }).devEvent .busyRecovery 0 0 0)) ∧
    (∀ m : Mbox, s.lesar.mboxes = [m] → serverOf m.opcode = .firmware → m.complete = true →
      completes .mgmtProcessorStopped s (fun t => t = (((s.setDev { s.dev with fwHalted := true }).setLesar { s.lesar with mboxes := [] }).reply
        { sess := m.sess, part := m.part, handle := m.handle, via := none } m.opcode .busyRecovery []).devEvent .busyRecovery 0 0 0))) ∧
  (∀ (s : State) (c : Ctx) (img : Bytes), s.accepts c 0x0602 .keeper true → s.dev.pendingImage = some img → s.dev.load = none → s.dev.actQueued = none →
    s.dev.reset = none →
    let m := s.freeMbox c 0x0602
    (s.calm = true → completes (.activateFirmware c []) s (fun t => t.setVeolo s.veolo = (m.reply c 0x0602 .ok []).setDev
      { s.dev with reset := some { ctxs := [], system := false, activation := true, saved := false } })) ∧
    (s.calm = false → answered (.activateFirmware c []) s c 0x0602 .deferred [] (fun u => u = m.setDev { s.dev with actQueued := some c }))) ∧
  (∀ (s : State) (c : Ctx), s.dev.actQueued = some c →
    (s.calm = true → completes .activationProceed s (fun t => t.setVeolo s.veolo =
      ((s.setDev { s.dev with actQueued := none }).reply c 0x0602 .ok []).setDev { s.dev with actQueued := none, reset := some { ctxs := [], system := false, activation := true, saved := false } })) ∧
    answered .activationTimeout s c 0x0602 .deferredTimeout [] (fun u => u = s.setDev { s.dev with actQueued := none }))

/-- Partials of statistics fold in ring order: a member combines the fold of the positions before it with its own partial on the right and sends the result to
the next position, the last member to the owner, with the evaluations counted and the collective open in its step; at its owner the result is finished,
arrives, is counted with its duration (R145, R147, R148, R150, R154). In round 0 of a ring prefill a member takes its segment's sheets from its reserve, or at
home uses those of the sequence, and sends the segment on in stored form; in every later round it sends on the segment that has arrived, and it folds partials
in unless the segment is BLOCK_ALL (R179). A query is answered by the chain of R148, which ring position 0 begins and for which every other member keeps its
partial, the identity where it holds nothing of the sequence; a release frees the segment (R180). Completion is stated of: statisticsPartial, ringSegment,
ringQuery, ringRelease. Where the rules leave a point open, this rests on a choice of the model: log entries 39 and 86. -/
def Obligations.RingMembersFold : Prop :=
  (∀ (s : State) (p col ns : Nat) (inc own : Partial),
    let k := s.ringPos p
    let n := (s.ringOf p).length
    let r := Partial.combine (s.sfuMode p) inc own
    let e := sfuTally (s.sfuMode p) (Partial.combineEvals inc own)
    let u := s.modPart p (fun pt => { pt with step := pt.step.map (fun v =>
      { v with colls := v.colls ++ [col], sfuClamp := v.sfuClamp + e.1, sfuNan := v.sfuNan + e.2 }) })
    (k + 1 < n → s.foldOn p col ns inc own = u.sendTo ((s.ringOf p).getD (k + 1) 0) .collective p (Partial.bytes r)) ∧
    (k + 1 = n → col ≠ k → s.foldOn p col ns inc own = u.sendTo ((s.ringOf p).getD col 0) .collective p (Partial.bytes r)) ∧
    (k + 1 = n → col = k → s.foldOn p col ns inc own = u.endColl p ns r)) ∧
  (∀ (s : State) (p ns : Nat) (r : Partial) (pt : Part), s.part p = some pt →
    let t := s.endColl p ns r
    let e := sfuTally (s.sfuMode p) (finishEvals r)
    t.veolo = { s.veolo with inbox := s.veolo.inbox ++ [(2, .collective, p, bytesOfWords (finishPartial (s.sfuMode p) r))] } ∧
    t.part p = some { pt with step := pt.step.map (fun v =>
      { v with colls := v.colls.erase (s.ringPos p), sfuClamp := v.sfuClamp + e.1, sfuNan := v.sfuNan + e.2 }) } ∧
    t.reg .sfu p 0x14 = BitVec.ofNat 32 (min 0xFFFFFFFF ns) ∧ (t.reg .sfu p 0x0C).toNat = min 0xFFFFFFFF ((s.reg .sfu p 0x0C).toNat + 1) ∧
    (∀ q, q ≠ p → t.part q = s.part q) ∧ ((t.setVeolo s.veolo).setParts s.parts).setRegs s.regs = s) ∧
  (∀ (s : State) (p col ns : Nat) (inc own : Partial) (pt : Part), s.part p = some pt → s.inRing p = true → col < (s.ringOf p).length →
    let k := s.ringPos p
    let n := (s.ringOf p).length
    let o := (s.ringOf p).getD col 0
    (ns ≠ 0 → col = k → k + 1 ≠ n → exec (.statisticsPartial p col inc own ns) s = .next ((s.endColl p ns inc).pump p)) ∧
    ((ns = 0 ∨ col ≠ k ∨ k + 1 = n) →
      ((∀ g ∈ pt.segments, g.owner = o → g.reply = none) →
        exec (.statisticsPartial p col inc own ns) s = .next ((s.foldOn p col ns inc own).pump p)) ∧
      (∀ (l1 l2 : List Segment) (g : Segment) (r : Partial), pt.segments = l1 ++ g :: l2 → (∀ x ∈ l1, x.owner = o → x.reply = none) → g.owner = o →
        g.reply = some r → exec (.statisticsPartial p col inc own ns) s =
          .next (((s.putPart p { pt with segments := l1 ++ { g with reply := none } :: l2 }).foldOn p col ns inc r).pump p)))) ∧
  (∀ (s : State) (p owner h off first : Nat) (toks : List Nat) (blocked : Bool) (own : List Partial) (pt : Part), s.part p = some pt →
    s.inRing p = true → off < (s.ringOf p).length → (s.ringOf p).getD ((s.ringPos p + (s.ringOf p).length - off) % (s.ringOf p).length) 0 = owner →
    pt.segment owner h = none →
    let next := (s.ringOf p).getD ((s.ringPos p + 1) % (s.ringOf p).length) 0
    let acc := if blocked then [] else foldPartials (s.sfuMode p) [] own
    (off = 0 → completes (.ringSegment p owner h off 0 first toks blocked own) s (fun t => ∃ u : State, onlyPart s u p ∧
      u.part p = some { pt with segments := pt.segments ++
        [{ owner := owner, handle := h, offset := 0, sheets := [], acc := acc, rounds := 1, reply := none }] } ∧
      t = u.sendTo next .ring p (s.storedForm p pt (pt.homeSheets h)))) ∧
    (off ≠ 0 → pt.segSheets + (toks.length + 127) / 128 ≤ s.ringReserve p → pt.sheets.length + (toks.length + 127) / 128 ≤ s.sheetTotal p →
      NMap.sorted pt.sheets = true →
      completes (.ringSegment p owner h off 0 first toks blocked own) s (fun t => ∃ (u : State) (v : Part) (ks : List Nat),
        (((u.setParts s.parts).setMem s.mem).setDram s.dram).setRegs s.regs = s ∧ (∀ q, q ≠ p → u.part q = s.part q) ∧
        ks.length = (toks.length + 127) / 128 ∧ u.part p = some { pt with sheets := v.sheets, segments := v.segments } ∧
        v.segments = pt.segments ++ [{ owner := owner, handle := h, offset := off, sheets := ks, acc := acc, rounds := 1, reply := none }] ∧
        (∀ k, k ∉ ks → NMap.find v.sheets k = NMap.find pt.sheets k) ∧
        (∀ i (hi : i < ks.length), NMap.find pt.sheets ks[i] = none ∧
          NMap.find v.sheets ks[i] = some (Sheet.ofSegment (first + 128 * i) (toks.drop (128 * i)))) ∧
        t = u.sendTo next .ring p (u.storedForm p v ks)))) ∧
  (∀ (s : State) (p owner h off round first : Nat) (toks : List Nat) (blocked : Bool) (own : List Partial) (pt : Part) (g : Segment),
    s.part p = some pt → s.inRing p = true → off < (s.ringOf p).length →
    (s.ringOf p).getD ((s.ringPos p + (s.ringOf p).length - off) % (s.ringOf p).length) 0 = owner → 0 < round → round < (s.ringOf p).length →
    pt.segment owner h = some g → g.rounds = round →
    let m := s.takeMessage p .ring
    let fold := fun (e : Segment) => if e.owner == owner && e.handle == h then
      { e with acc := if blocked then e.acc else foldPartials (s.sfuMode p) e.acc own, rounds := round + 1 } else e
    exec (.ringSegment p owner h off round first toks blocked own) s = .next ((m.1.modPart p (fun v => { v with segments := v.segments.map fold })).sendTo
        ((s.ringOf p).getD ((s.ringPos p + 1) % (s.ringOf p).length) 0) .ring p m.2)) ∧
  (∀ (s : State) (p owner h : Nat) (own : Partial) (pt : Part), s.part p = some pt → s.inRing p = true → owner ∈ s.ringOf p →
    let s1 := (s.takeMessage p .collective).1
    let r := if (pt.segment owner h).any (fun g => !g.sheets.isEmpty) then own else Partial.none own.o.length
    (s.ringPos p = 0 → exec (.ringQuery p owner h own) s =
      .next (s1.foldOn p ((s.ringOf p).findIdx (· == owner)) 0 (Partial.none own.o.length) r)) ∧
    (s.ringPos p ≠ 0 → exec (.ringQuery p owner h own) s = .next (s1.modPart p (fun pt => { pt with segments := pt.segments.map (fun g =>
      if g.owner == owner && g.handle == h then { g with reply := some r } else g) })))) ∧
  (∀ (s : State) (p owner h : Nat) (pt : Part) (g : Segment), s.part p = some pt → pt.segment owner h = some g →
    exec (.ringRelease p owner h) s = .next (s.modPart p (fun pt => { g.sheets.foldl Part.unref pt with segments := pt.segments.erase g })))

/-- The gazetteer engine takes, while no walk runs, the oldest walk that has been queued for 10 ms, and where there is none the first of the highest class;
the walk of the tree, where the gazetteer is READY, gives the request its hits, counts a miss or a collision and makes the request a candidate, behind those
before it. A parity error of the index sends every gazetteer that is READY into REBUILDING, from which the rebuild brings it back, as the formatting of its
pool brings a new one to READY (R183, R187, R188, R221, R226, R451). Completion is stated of: gazetteerWalk, gazetteerWalkEnd, gzRebuildComplete,
gzInitComplete. Where the rules leave a point open, this rests on a choice of the model: log entries 16, 38 and 52. -/
def Obligations.GazetteerWalksEnd : Prop :=
  (∀ (s : State) (p h t0 : Nat) (pt : Part), s.part p = some pt → s.walkRuns = false → s.survey.gzOut = none →
    let late := s.walks.find? (fun w => decide (w.2.2 + 10000000 ≤ s.now))
    (late = some (p, h, t0) ∨ (late = none ∧
      s.walks.find? (fun w => s.walks.all (fun v => decide (s.endpointClass v.1 ≤ s.endpointClass w.1))) = some (p, h, t0))) →
    exec (.gazetteerWalk p h []) s = .next (s.modPart p (fun pt => { pt with gzWalkOf := [h] })) ∧
    completes (.gazetteerWalk p h [.gzIndex]) s (fun t => (∀ (q : Nat) (v : Part), s.part q = some v →
      (t.part q).map (·.gzState) = some (if v.gzState = 2 then 3 else v.gzState)) ∧ (t.part p).map (·.gzWalkOf) = some [h])) ∧
  (∀ (s : State) (p h : Nat) (pt : Part) (im : Image) (r : Req), s.part p = some pt → pt.image = some im → NMap.find pt.reqs h = some r → h ∈ pt.gzWalkOf →
    s.dram.bad = [] → s.dram.failed = [] →
    let w := pt.walk (walkLimit r.prompt.length) (s.hashSeed p r.opts.inset) none r.prompt
    let hits := if pt.gzState = 2 then w.1 else []
    let done := NMap.modify (NMap.modify pt.reqs h (fun r => { r with hits := hits })) h (fun r => { r with walked := true, candAt := some s.stamp })
    completes (.gazetteerWalkEnd p h) s (fun t =>
      t.part p = some { pt with gzWalkOf := [], reqs := done } ∧
      t.stamp = s.stamp + 1 ∧ t.walks = s.walks.filter (fun v => !(v.1 == p && v.2.1 == h)) ∧ (∀ q, q ≠ p → t.part q = s.part q) ∧
      (t.reg .gz p 0x0C).toNat = (if pt.gzState = 2 ∧ w.2 = .miss then min 0xFFFFFFFF ((s.reg .gz p 0x0C).toNat + 1) else (s.reg .gz p 0x0C).toNat) ∧
      (t.reg .gz p 0x10).toNat = (if pt.gzState = 2 ∧ w.2 = .collide then min 0xFFFFFFFF ((s.reg .gz p 0x10).toNat + 1) else (s.reg .gz p 0x10).toNat) ∧
      (((t.setParts s.parts).setWalks s.walks).setStamp s.stamp).setRegs s.regs = s)) ∧
  (∀ (s : State) (p : Nat) (pt : Part) (im : Image), s.part p = some pt → pt.image = some im →
    (pt.gzState = 3 → s.survey.gzOut = none → s.dram.bad = [] → s.dram.failed = [] →
      exec (.gzRebuildComplete p) s = .next (s.modPart p (fun pt => { pt with gzState := 2 }))) ∧
    (pt.gzState = 1 → exec (.gzInitComplete p) s = .next (s.modPart p (fun pt => { pt with gzState := 2 }))))

/-- OPEN_REQUEST enters a request: answered PENDING, it clears a tombstone of its handle, and with its last frame its prompt's walk is queued, or a branch
becomes a candidate; a request whose checks fail is answered with the first failure, one for want of resources counted. APPEND_TOKENS continues the prompt of
a request that expects it, a frame that continues nothing is refused, and a bad token ends its request (R214 to R216, R218 to R220, R183, R241).
CANCEL_REQUEST and PAUSE_REQUEST are staged for the next meridian and answered there; RESUME_REQUEST of a paused request is answered PENDING, puts its tokens
and its new settings into the request and stops its time to live once its last frame has come; a resume with nothing to do ends at once. A pause or a resume
whose checks fail is answered with the first failure (R216, R233, R236, R237, R239, R240). Completion is stated of: openRequest, appendTokens, cancelRequest,
pauseRequest, resumeRequest. Where the rules leave a point open, this rests on a choice of the model: log entries 26, 42, 45 and 53. -/
def Obligations.RequestsOpenAndChange : Prop :=
  (∀ (s : State) (c : Ctx) (pl : Bytes) (pt : Part), s.dataServes c 0x0101 pt →
    let m := s.freeMbox c 0x0101
    let r := Req.opened c.sess (openOpts pl) (beAt pl 0 1 % 2 == 1) (tokensAt pl 84 (beAt pl 80 4))
    let u := ((m.clearTomb c.part c.handle).modPart c.part (fun pt => { pt with reqs := NMap.insert pt.reqs c.handle r })).reply c 0x0101 .pending []
    (∀ st, m.openRefusal pt c.handle pl = some st → exec (.openRequest c pl) s =
      .next ((if st = .noResource then m.bump .req c.part 0x2C 1 else m).reply c 0x0101 st [])) ∧
    (m.openRefusal pt c.handle pl = none →
      (beAt pl 0 1 % 2 = 1 → exec (.openRequest c pl) s = .next u) ∧
      (beAt pl 0 1 % 2 = 0 → beAt pl 0 1 / 4 % 2 = 0 → r.prompt ≠ [] → exec (.openRequest c pl) s = .next (u.setWalks (u.walks ++ [(c.part, c.handle, s.now)]))) ∧
      (beAt pl 0 1 % 2 = 0 → beAt pl 0 1 / 4 % 2 = 1 → exec (.openRequest c pl) s =
        .next ((u.modPart c.part (fun pt => { pt with reqs := NMap.modify pt.reqs c.handle (fun r => { r with walked := true, candAt := some s.stamp }) })).setStamp
          (s.stamp + 1))))) ∧
  (∀ (s : State) (c : Ctx) (pt : Part) (r : Req) (fl : Nat) (toks : List Nat), s.dataServes c 0x0102 pt → badHandle c.handle = false →
    NMap.find pt.reqs c.handle = some r → (s.freeMbox c 0x0102).holds c r.sess = true → fl < 2 → toks.length < 2 ^ 32 → (∀ t ∈ toks, t < 2 ^ 32) →
    let i : Instr := .appendTokens c (beBytes 1 fl ++ beBytes 3 0 ++ beBytes 4 toks.length ++ toks.flatMap (beBytes 4))
    let m := s.freeMbox c 0x0102
    let u := m.modPart c.part (fun pt => { pt with reqs := NMap.insert pt.reqs c.handle { r with more := fl % 2 == 1, prompt := r.prompt ++ toks } })
    (r.more = false → exec i s = .next (m.reply c 0x0102 .notPermitted [])) ∧
    (r.more = true → pt.badToken toks = true → r.resumeOpts = none → exec i s = .next (m.endReqNow c.part c.handle .badFrame)) ∧
    (r.more = true → pt.badToken toks = false → pt.tokensFull toks.length = false →
      (fl = 1 → exec i s = .next u) ∧
      (fl = 0 → r.resumeOpts = none → r.opts.parent = none → r.prompt ++ toks ≠ [] → exec i s = .next (u.setWalks (u.walks ++ [(c.part, c.handle, s.now)]))))) ∧
  (∀ (s : State) (c : Ctx) (pt : Part) (r : Req), s.dataServes c 0x0103 pt → badHandle c.handle = false → NMap.find pt.reqs c.handle = some r →
    (r.sess = none ∨ (s.freeMbox c 0x0103).holds c r.sess = true) → (∀ e ∈ pt.staged.cancels, e.1 ≠ c.handle) →
    completes (.cancelRequest c []) s (fun t => onlyPart (s.freeMbox c 0x0103) t c.part ∧
      t.part c.part = some { pt with staged := { pt.staged with cancels := pt.staged.cancels ++ [(c.handle, some c)] } })) ∧
  (∀ (s : State) (c : Ctx) (pt : Part) (ttl tier : Nat), s.dataServes c 0x0104 pt → badHandle c.handle = false → ttl < 2 ^ 32 → tier < 256 →
    let i : Instr := .pauseRequest c (beBytes 4 ttl ++ (beBytes 1 tier ++ beBytes 3 0))
    let m := s.freeMbox c 0x0104
    ((ttl = 0 ∨ 86400 < ttl ∨ 2 < tier) → exec i s = .next (m.reply c 0x0104 .badFrame [])) ∧
    (1 ≤ ttl → ttl ≤ 86400 → tier ≤ 2 →
      (pt.decodes c.handle = false → exec i s = .next (m.reply c 0x0104 .notPermitted [])) ∧
      (pt.decodes c.handle = true → m.holds c ((NMap.find pt.reqs c.handle).bind (·.sess)) = true →
        (65536 ≤ s.pausedAll → exec i s = .next ((m.bump .req c.part 0x2C 1).reply c 0x0104 .noResource [])) ∧
        (s.pausedAll < 65536 → (∀ e ∈ pt.staged.pauses, e.1 ≠ c.handle) → completes i s (fun t => onlyPart m t c.part ∧
          t.part c.part = some { pt with staged := { pt.staged with pauses := pt.staged.pauses ++ [(c.handle, c, ttl, tier)] } }))))) ∧
  (∀ (s : State) (c : Ctx) (pl : Bytes) (pt : Part) (r : Req), s.dataServes c 0x0105 pt → NMap.find pt.reqs c.handle = some r →
    let m := s.freeMbox c 0x0105
    let endPause := beAt pl 0 1 / 2 % 2 == 1
    let more := beAt pl 0 1 % 2 == 1
    let toks := tokensAt pl 16 (beAt pl 12 4)
    let o : ReqOpts := { r.opts with endPause := endPause, maxNew := beAt pl 4 4, ttl := beAt pl 8 4 }
    let st : ReqSt := if r.st = .pausing then .pausing else .resuming
    let r1 : Req := { r with sess := some c.sess, st := st, resumeOpts := some o, more := more, prompt := toks, walked := false, candAt := some s.stamp, passed := 0, claimed := 0 }
    let u := ((m.modPart c.part (fun pt => { pt with reqs := NMap.insert pt.reqs c.handle r1 })).setStamp (s.stamp + 1)).reply c 0x0105 .pending []
    (∀ st, m.resumeRefusal pt c.part c.handle pl = some st → exec (.resumeRequest c pl) s =
      .next ((if st = .noResource then m.bump .req c.part 0x2C 1 else m).reply c 0x0105 st [])) ∧
    (m.resumeRefusal pt c.part c.handle pl = none →
      (more = true → exec (.resumeRequest c pl) s = .next u) ∧
      (more = false → ¬(o.maxNew = 0 ∧ r.left = 0 ∧ toks = []) → exec (.resumeRequest c pl) s =
        .next (u.modPart c.part (fun pt => { pt with reqs := NMap.modify pt.reqs c.handle (fun v => { v with endsAt := none }) }))) ∧
      (more = false → o.maxNew = 0 → r.left = 0 → toks = [] → endPause = false → exec (.resumeRequest c pl) s = .next (u.endReqNow c.part c.handle .ok))))

/-- A request whose next frame does not come ends with BAD_FRAME, a resume goes back to its pause; the end of a move frees the moved sheets and the request's
entries, starts on the first stage its time to live at a whole second, answers the pause with the tier's byte and counts it; a time to live that ends, or a
restore whose cache cannot be read, buries the cache under a tombstone, which is dropped after its 24 h; a restore that has filled its sheets makes the
request a candidate, once its last frame has come (R219, R236, R238 to R240, R252, R260; which channels hold a parked cache: log entry 25). Completion is
stated of: promptTimeout, pauseMoveComplete, pauseExpiry, tombstoneExpiry, restoreComplete. Where the rules leave a point open, this rests on a choice of the
model: log entries 42 and 53. -/
def Obligations.RequestsWaitAndEnd : Prop :=
  (∀ (s : State) (p h : Nat) (pt : Part) (r : Req), s.part p = some pt → NMap.find pt.reqs h = some r → r.more = true →
    (r.resumeOpts = none → exec (.promptTimeout p h) s = .next (s.endReqNow p h .badFrame) ∧
      completes (.promptTimeout p h) s (fun t => (∃ v, t.part p = some v ∧ NMap.find v.reqs h = none ∧ ∀ q ∈ v.seqs, q.handle ≠ h) ∧
        (∀ q, q ≠ p → t.part q = s.part q) ∧ t.mem = s.mem ∧ t.tombs = s.tombs)) ∧
    (r.resumeOpts ≠ none → exec (.promptTimeout p h) s = .next (s.revertResume p h .badFrame) ∧
      completes (.promptTimeout p h) s (fun t => ((t.part p).bind (fun v => NMap.find v.reqs h)) = some r.revert))) ∧
  (∀ (s : State) (p h : Nat) (pt : Part) (r : Req), s.part p = some pt → NMap.find pt.reqs h = some r → r.st = .pausing → r.resumeOpts = none →
    let gone := r.list.filter (fun e => r.moved.any (fun m => m.1.start == e.start))
    let kept := r.list.filter (fun e => !r.moved.any (fun m => m.1.start == e.start))
    let r1 : Req := { r with st := .paused, sess := none, list := kept, pauseBy := none, endsAt := if s.leads p then some (wholeSecond (s.now + r.opts.ttl * 1000000000)) else none }
    let u := s.modPart p (fun pt => { pt.unrefList gone with seqs := pt.seqs.filter (fun q => q.handle != h), reqs := NMap.insert pt.reqs h r1 })
    (∀ c, r.pauseBy = some c → exec (.pauseMoveComplete p h) s = .next ((u.reply c 0x0104 .ok [tierByte r.tier]).bump .req p 0x18 1)) ∧
    (r.pauseBy = none → exec (.pauseMoveComplete p h) s = .next (u.bump .req p 0x18 1))) ∧
  (∀ (s : State) (p h now t0 : Nat) (pt : Part) (r : Req), s.part p = some pt → NMap.find pt.reqs h = some r →
    (r.endsAt = some t0 → t0 ≤ now → completes (.pauseExpiry p h now) s (fun t => t = (s.at now).buryReq p h .expired ∧ t.tomb p h = some .expired ∧
      ∃ v, t.part p = some v ∧ NMap.find v.reqs h = none)) ∧
    (r.st = .restoring → r.walked = false → ∀ env : List Strike,
      let f := s.restoreRead p pt r env
      ((((f.1.setTiles s.tiles).setFlash s.flash).setDram s.dram).setNand s.nand).setRegs s.regs = s ∧
      (r.tier = 0 → s.dram.bad = [] → s.dram.failed = [] → env = [] → f = (s, false)) ∧
      (r.tier = 1 → f.2 = (decide (0 < nandStruck env) || s.pauseLost (movedBytes r.moved))) ∧
      (1 < r.tier → f = (s, sourceLost env)) ∧
      (f.2 = true → completes (.restoreComplete p h env) s (fun t => t = f.1.buryReq p h .tierFailed ∧ t.tomb p h = some .tierFailed ∧
        ∃ v, t.part p = some v ∧ NMap.find v.reqs h = none)) ∧
      (f.2 = false → completes (.restoreComplete p h env) s (fun t => ∃ (u : State) (v : Req), u = f.1.fillRestored p r ∧
        ((u.setMem f.1.mem).setDram f.1.dram).setRegs f.1.regs = f.1 ∧
        (t.part p).bind (fun pt => NMap.find pt.reqs h) = some v ∧ v = { r with walked := true, candAt := if r.more then none else some s.stamp } ∧
        t.mem = u.mem ∧ t.stamp = if r.more then s.stamp else s.stamp + 1)))) ∧
  (∀ (s : State) (p h : Nat), s.tomb p h ≠ none → completes (.tombstoneExpiry p h) s (fun t => t.tomb p h = none ∧
    (∀ q k, (q ≠ p ∨ k ≠ h) → t.tomb q k = s.tomb q k) ∧ t.setTombs s.tombs = s))

/-- OPEN_STREAM takes a free handle and the lowest free place of the state area, is answered PENDING and opened at the next meridian; a handle in use or a
model that does not serve refuses it, no place left is NO_RESOURCE and counted. Parts of a chunk are taken in order; the last one queues the chunk and is
answered OK, a refused part discards those received. PARK_STREAM and CLOSE_STREAM are staged for the next meridian, a stream that is not bound parks at once
(R201, R203, R205, R207 to R209, R215, R242 to R244). Completion is stated of: openStream, streamChunk, parkStream, closeStream. Where the rules leave a point
open, this rests on a choice of the model: log entry 48. -/
def Obligations.StreamsTakeFrames : Prop :=
  (∀ (s : State) (c : Ctx) (pt : Part), s.dataServes c 0x0201 pt → badHandle c.handle = false →
    let m := s.freeMbox c 0x0201
    let places := (pt.image.map Image.streamPlaces).getD 0
    let full := places ≤ pt.streams.length ∨ 16384 ≤ (s.parts.map (fun e => e.2.streams.length)).sum
    let v := Strm.opened c.sess pt.freePage
    (pt.inUse c.handle = true ∨ pt.serves = false → exec (.openStream c []) s = .next (m.reply c 0x0201 .notPermitted [])) ∧
    (pt.inUse c.handle = false → pt.serves = true → full → exec (.openStream c []) s = .next ((m.bump .req c.part 0x2C 1).reply c 0x0201 .noResource [])) ∧
    (pt.inUse c.handle = false → pt.serves = true → ¬full → completes (.openStream c []) s (fun t => ∃ u : State, t = u.reply c 0x0201 .pending [] ∧
      u.tomb c.part c.handle = none ∧ onlyPart (m.setTombs u.tombs) u c.part ∧
      u.part c.part = some { pt with streams := NMap.insert pt.streams c.handle v, staged := { pt.staged with opens := pt.staged.opens ++ [(c.handle, c)] } }))) ∧
  (∀ (s : State) (c : Ctx) (pl : Bytes) (pt : Part) (im : Image) (v : Strm), s.dataServes c 0x0202 pt → badHandle c.handle = false → pt.image = some im →
    NMap.find pt.streams c.handle = some v → (s.freeMbox c 0x0202).holds c (some v.sess) = true →
    let m := s.freeMbox c 0x0202
    let put := fun (w : Strm) => m.modPart c.part (fun pt => { pt with streams := NMap.insert pt.streams c.handle w })
    (v.finalSent = true → exec (.streamChunk c pl) s = .next (m.reply c 0x0202 .notPermitted [])) ∧
    (v.finalSent = false → v.takePart im pl = .error .badFrame → exec (.streamChunk c pl) s = .next ((put { v with arriving := none }).reply c 0x0202 .badFrame [])) ∧
    (v.finalSent = false → v.takePart im pl = .error .noResource → exec (.streamChunk c pl) s =
      .next ((((put { v with arriving := none }).bump .strm c.part 0x10 1).bump .req c.part 0x2C 1).reply c 0x0202 .noResource [])) ∧
    (∀ a : Parts, v.finalSent = false → v.takePart im pl = .ok a →
      let k : Chunk := { a.chunk with data := a.data, arrived := s.stamp }
      let w : Strm := { v with arriving := none, queue := v.queue ++ [k], nextChunk := v.nextChunk + 1, finalSent := k.final }
      (a.next < a.parts → exec (.streamChunk c pl) s = .next (put { v with arriving := some a })) ∧
      (a.parts ≤ a.next → exec (.streamChunk c pl) s = .next (((put w).setStamp (s.stamp + 1)).reply c 0x0202 .ok [])))) ∧
  (∀ (v : Strm) (im : Image) (pl : Bytes) (a : Parts), (∀ b : Parts, v.arriving = some b → 0 < b.next) → v.takePart im pl = .ok a →
    a.next = beAt pl 2 1 + 1 ∧ a.data.length ≤ im.chunkBytes a.chunk.positions ∧ (a.next = a.parts → a.data.length = im.chunkBytes a.chunk.positions) ∧
    (beAt pl 2 1 = 0 → v.arriving = none ∧ v.queue.length < 8 ∧ a.chunk.index = v.nextChunk ∧ a.data = pl.drop 52) ∧
    (∀ b : Parts, v.arriving = some b → b.next = beAt pl 2 1 ∧ a.chunk = b.chunk ∧ a.data = b.data ++ pl.drop 52)) ∧
  (∀ (s : State) (c : Ctx) (pt : Part) (v : Strm), s.dataServes c 0x0203 pt → badHandle c.handle = false → NMap.find pt.streams c.handle = some v →
    (s.freeMbox c 0x0203).holds c (some v.sess) = true →
    (v.st ≠ .bound → exec (.parkStream c []) s = .next ((s.freeMbox c 0x0203).reply c 0x0203 .ok [])) ∧
    (v.st = .bound → (∀ e ∈ pt.staged.parks, e.1 ≠ c.handle) → completes (.parkStream c []) s (fun t => onlyPart (s.freeMbox c 0x0203) t c.part ∧
      t.part c.part = some { pt with staged := { pt.staged with parks := pt.staged.parks ++ [(c.handle, some c)] } }))) ∧
  (∀ (s : State) (c : Ctx) (pt : Part) (v : Strm), s.dataServes c 0x0204 pt → badHandle c.handle = false → NMap.find pt.streams c.handle = some v →
    (s.freeMbox c 0x0204).holds c (some v.sess) = true → (∀ e ∈ pt.staged.closes, e.1 ≠ c.handle) →
    completes (.closeStream c []) s (fun t => onlyPart (s.freeMbox c 0x0204) t c.part ∧
      t.part c.part = some { pt with staged := { pt.staged with closes := pt.staged.closes ++ [(c.handle, some c)] } }))

/-- The patrol scrubber goes through every column burst of every row and channel, counts and records the error a data burst holds and writes a correctable one
back, failing no step; the refresh rate of a package follows its hottest die, with an event where it becomes quadrupled; a refresh window of a package clears
the activation counts of its banks; a channel whose calibration fails three times in a row is marked failed and told to every partition with an extent on it
(R252 to R255, R257). The NAND tier: a failed channel is told to every partition with data on it; the map is saved after 256 MB written; a block that read
disturb or retention threatens is copied and erased, its reads counted anew; garbage is collected while under 2 percent of the blocks are free; cold data goes
to a worn block (which block is cold: log entry 25); a die that has ended its operation serves what waited; the pause area takes its new size once it is empty
(R259 to R262, R274). Completion is stated of: dramPatrolScrub, refreshRatePoll, refreshWindow, dramCalibration, nandChannelFail, mapSave, readDisturbRefresh,
retentionPatrol, garbageCollection, wearLevelling, nandOperationComplete, pauseAreaResize. Where the rules leave a point open, this rests on a choice of the
model: log entries 20 and 30. -/
def Obligations.DramAndNandAreKept : Prop :=
  (∀ (s : State) (b d : Nat), b < 2 ^ 32 → s.dram.failed = [] → NMap.sorted s.dram.bad = true →
    64 * d = burstAddr (b / 2 ^ 26) (b / 32 % 2 ^ 21) (b % 32) →
    (b % 32 = 31 ∨ NMap.find s.dram.bad d = none → exec (.dramPatrolScrub b []) s = .next s) ∧
    (∀ ue : Bool, b % 32 ≠ 31 → NMap.find s.dram.bad d = some ue → completes (.dramPatrolScrub b []) s (fun t =>
      t.dram = { s.dram with bad := if ue then s.dram.bad else NMap.erase s.dram.bad d } ∧ (t.setDram s.dram).setRegs s.regs = s ∧
      (t.reg .dr 0 (if ue then 0x14 else 0x10)).toNat = min 0xFFFFFFFF ((s.reg .dr 0 (if ue then 0x14 else 0x10)).toNat + 1) ∧
      t.reg .dr 0 (if ue then 0x10 else 0x14) = s.reg .dr 0 (if ue then 0x10 else 0x14) ∧
      ((s.reg .dr 0 0x18).bit 31 = false ∨ (s.reg .dr 0 0x18).bit 30 = false ∨ ue = true →
        t.reg .dr 0 0x18 = BitVec.ofNat 32 (2 ^ 31 + (if ue then 2 ^ 30 else 0) + dramChannel (64 * d) * 2 ^ 10 + dramColumn (64 * d)) ∧
        t.reg .dr 0 0x1C = BitVec.ofNat 32 (dramRow (64 * d)))))) ∧
  (∀ ch row col : Nat, ch < 64 → col < 31 →
    let a := burstAddr ch row col
    a % 64 = 0 ∧ dramChannel a = ch ∧ dramRow a = row ∧ dramColumn a = col) ∧
  (∀ (s : State) (hottest : List Nat), hottest.length = 8 →
    let rate := fun t : Nat => if t ≤ 85 then 0 else if t ≤ 105 then 1 else 2
    let u := s.setDram { s.dram with rates := hottest.map rate }
    completes (.refreshRatePoll hottest) s (fun t => t.dram = u.dram ∧ t.parts = s.parts ∧ t.mem = s.mem ∧ t.tiles = s.tiles) ∧
    ((∀ k, k < 8 → 105 < hottest.getD k 0 → s.dram.rates.getD k 0 = 2) → exec (.refreshRatePoll hottest) s = .next u) ∧
    (∀ k, k < 8 → 105 < hottest.getD k 0 → s.dram.rates.getD k 0 ≠ 2 → (∀ j, j < 8 → j ≠ k → 105 < hottest.getD j 0 → s.dram.rates.getD j 0 = 2) →
      exec (.refreshRatePoll hottest) s = .next (u.devEvent .ok 0 0 k))) ∧
  (∀ (s : State) (k : Nat), k < 8 → completes (.refreshWindow k) s (fun t => t.setDram s.dram = s ∧
    (∀ e, e ∈ t.dram.acts ↔ e ∈ s.dram.acts ∧ e.1 / 2 ^ 20 / 128 ≠ k) ∧ (∀ e, e ∈ t.dram.lastPort ↔ e ∈ s.dram.lastPort ∧ e.1 / 2 ^ 20 / 128 ≠ k) ∧
    (∀ g, g ∈ t.dram.targeted ↔ g ∈ s.dram.targeted ∧ g / 2 ^ 20 / 128 ≠ k) ∧
    (∀ port bank left, (port, bank, left) ∈ t.dram.throttled ↔ 0 < left ∧ (port, bank, if bank / 128 = k then left + 1 else left) ∈ s.dram.throttled) ∧
    { t.dram with acts := s.dram.acts, lastPort := s.dram.lastPort, targeted := s.dram.targeted, throttled := s.dram.throttled } = s.dram)) ∧
  (∀ (s : State) (ch : Nat), ch < 64 → ch ∉ s.dram.failed →
    let n := NMap.get 0 s.dram.calFails ch
    exec (.dramCalibration ch true) s = .next (s.setDram { s.dram with calFails := NMap.erase s.dram.calFails ch }) ∧
    (n < 2 → exec (.dramCalibration ch false) s = .next (s.setDram { s.dram with calFails := NMap.insert s.dram.calFails ch (n + 1) })) ∧
    (2 ≤ n → completes (.dramCalibration ch false) s (fun t => ∃ d : Dram, t = (s.setDram d).sharedEvent s.dramParts .uncorrectable 0 0 ch ∧
      (∀ k, k ∈ d.failed ↔ k = ch ∨ k ∈ s.dram.failed) ∧ { d with failed := s.dram.failed } = { s.dram with calFails := NMap.erase s.dram.calFails ch }))) ∧
  (∀ (s : State) (ch : Nat), ch < 16 → ch ∉ s.nand.failed → completes (.nandChannelFail ch) s (fun t => ∃ f : List Nat,
    t = (s.setNand { s.nand with failed := f }).sharedEvent ((s.parts.filter (fun e => e.2.onNand)).map Prod.fst) .tierFailed 0 0 ch ∧
    ∀ k, k ∈ f ↔ k = ch ∨ k ∈ s.nand.failed)) ∧
  (∀ s : State, 256000000 ≤ s.nand.written → completes .mapSave s (fun t => (t.setNand s.nand).setFree s.free = s ∧
    t.nand = { s.nand with written := 0, saved := s.nand.map, freeTenths := t.nand.freeTenths, urgent := t.nand.urgent } ∧ t.nand.freeTenths ≤ 1000 ∧
    (t.nand.freeTenths < 5 → t.nand.urgent = true) ∧ (20 ≤ t.nand.freeTenths → t.nand.urgent = false))) ∧
  (∀ (s : State) (b : Nat), b < 211968 → s.dieFree (blockDie b) = true →
    ((s.reg .nt 0 0).field 31 16 * 1000 ≤ NMap.get 0 s.nand.reads b ∨ b ∈ s.nand.weak) →
    completes (.readDisturbRefresh b) s (fun t => s.nand.renewed t.nand b ∧ t.nand.sparesOk ∧
      (t.reg .nt 0 0x18).toNat = min 0xFFFFFFFF ((s.reg .nt 0 0x18).toNat + 1) ∧ ((t.setNand s.nand).setFree s.free).setRegs s.regs = s)) ∧
  (∀ (s : State) (b now : Nat) (retries : List Nat), b < 211968 → s.dieFree (blockDie b) = true → s.now ≤ now →
    NMap.get 0 s.nand.lastRead b + (s.reg .nt 0 0).field 12 8 * 86400000000000 ≤ now →
    let u := (s.setNow now).setNand { s.nand with lastRead := NMap.insert s.nand.lastRead b now }
    (retries.sum = 0 → exec (.retentionPatrol b retries now) s = .next u) ∧
    (retries.sum ≠ 0 → (∀ k ∈ retries, k ≤ 2) → exec (.retentionPatrol b retries now) s = .next (u.bump .nt 0 0x10 retries.sum)) ∧
    ((∃ k ∈ retries, 2 < k) → completes (.retentionPatrol b retries now) s (fun t => u.nand.renewed t.nand b ∧ t.nand.sparesOk ∧
      (t.reg .nt 0 0x10).toNat = min 0xFFFFFFFF ((s.reg .nt 0 0x10).toNat + retries.sum) ∧
      (t.reg .nt 0 0x18).toNat = min 0xFFFFFFFF ((s.reg .nt 0 0x18).toNat + 1) ∧ ((t.setNand u.nand).setFree s.free).setRegs s.regs = u))) ∧
  (∀ (s : State) (b : Nat), b < 211968 → s.dieFree (blockDie b) = true → NMap.get 0 s.nand.fill b = 0 →
    11 * s.nand.planeErases (b % 256) < 10 * 828 * NMap.get 0 s.nand.erases b →
    let cold := ((s.nand.coldBlock (b % 256)).map s.nand.valid).getD []
    completes (.wearLevelling b) s (fun t => (∀ k, k ∉ cold → NMap.find t.nand.map k = NMap.find s.nand.map k) ∧
      (∀ k ∈ cold, ∃ i, i < cold.length ∧ NMap.find t.nand.map k = some (b * 1152 + i)) ∧ NMap.find t.nand.dies (blockDie b) = some 0 ∧
      t.nand.written = s.nand.written + 16384 * cold.length ∧ t.nand.sparesOk ∧
      { t.nand with map := s.nand.map, fill := s.nand.fill, dies := s.nand.dies, written := s.nand.written, freeTenths := s.nand.freeTenths,
                    urgent := s.nand.urgent } = s.nand ∧ (t.setNand s.nand).setFree s.free = s)) ∧
  (∀ (s : State) (bs : List Nat), s.nand.freeTenths < 20 → bs ≠ [] →
    (∀ b ∈ bs, b < 211968 ∧ s.dieFree (blockDie b) = true ∧ ∀ e ∈ s.nand.fill, e.1 ∈ bs ∨ (s.nand.valid b).length ≤ (s.nand.valid e.1).length) →
    completes (.garbageCollection bs) s (fun t => (∀ b ∈ bs, NMap.find t.nand.reads b = none ∧ NMap.find t.nand.dies (blockDie b) = some 0) ∧
      (∀ b, bs = [b] → s.nand.renewed t.nand b) ∧ t.nand.sparesOk ∧
      (t.reg .nt 0 0x1C).toNat = min 0xFFFFFFFF ((s.reg .nt 0 0x1C).toNat + bs.length) ∧ ((t.setNand s.nand).setFree s.free).setRegs s.regs = s)) ∧
  (∀ (s : State) (d : Nat), NMap.find s.nand.dies d ≠ none →
    exec (.nandOperationComplete d) s = .next (s.setNand { s.nand with dies := NMap.erase s.nand.dies d, waiting := NMap.erase s.nand.waiting d })) ∧
  (∀ (s : State) (n : Nat), s.nand.pauseWant = some n → s.nand.pauseUsed = 0 →
    exec .pauseAreaResize s = .next (s.setNand { s.nand with pauseSize := n, pauseWant := none }))

/-- A loan that its lender grants stands in the partition under a free number until the next meridian makes it active; another answer completes the write that
asked. A reclaim notice drops the weight copies, its caches are moved out, to the pause area where it has room, and the end of the grace is noted for the next
meridian. The lender serves a borrower's reads and writes from the loan's extents, and makes no access beyond them (R265, R266, R268). Completion is stated
of: loanGrant, reclaimNotice, graceExpiry, lentMemoryRequest, loanMovesEnd. Where the rules leave a point open, this rests on a choice of the model: log entry
29. -/
def Obligations.LoansAreServed : Prop :=
  (∀ (s : State) (p link n : Nat) (st : Status) (pt : Part), s.part p = some pt → (link, n) ∈ pt.loanAsk →
    (completes (.loanGrant p link n .ok) s (fun t => onlyPart s t p ∧ ∃ l : Loan, t.part p = some { pt with loanAsk := pt.loanAsk.erase (link, n), loans := pt.loans ++ [l] } ∧
      (∀ k ∈ pt.loans, k.id ≠ l.id) ∧ l.link = link ∧ l.extents = n ∧ l.active = false ∧ l.notice = false ∧ l.copies = [] ∧ l.mem = [])) ∧
    (st = .notPermitted ∨ st = .noResource ∨ st = .busyRecovery →
      exec (.loanGrant p link n st) s = .next ((s.modPart p (fun v => { v with loanAsk := v.loanAsk.erase (link, n) })).setLesar
        { s.lesar with goDone := s.lesar.goDone ++ [(3 * 1024 + link * 128 + n, p, st)] }).settleAll)) ∧
  (∀ (s : State) (p id : Nat) (pt : Part) (l : Loan), s.part p = some pt → pt.loans.find? (fun l => l.id == id) = some l →
    let now := fun (f : Loan → Loan) => s.modPart p (fun v => { v with loans := v.loans.map (fun l => if l.id == id then f l else l) })
    (l.notice = false → exec (.reclaimNotice p id) s = .next (now (fun l => { l with notice := true, copies := [] }))) ∧
    (l.notice = true → exec (.graceExpiry p id) s = .next (now (fun l => { l with graceOver := true }))) ∧
    (l.notice = true → l.movesDone = false → (∀ h r, NMap.find pt.reqs h = some r → r.tier = 16 + id → r.st ≠ .paused ∧ r.st ≠ .resuming) →
      exec (.loanMovesEnd p id) s = .next (now (fun l => { l with movesDone := true }))) ∧
    (∀ (h : Nat) (r : Req), l.notice = true → l.movesDone = false → NMap.find pt.reqs h = some r → r.tier = 16 + id → r.st = .paused ∨ r.st = .resuming →
      pt.reqs.keys.filter (fun k => (NMap.find pt.reqs k).any (fun v => v.tier == 16 + id && (v.st == .paused || v.st == .resuming))) = [h] →
      s.pauseRoom (movedBytes r.moved) = true →
      completes (.loanMovesEnd p id) s (fun t => (t.part p).bind (fun v => NMap.find v.reqs h) = some { r with tier := 1 } ∧
        t.nand.pauseUsed = s.nand.pauseUsed + movedBytes r.moved ∧
        (t.part p).map (·.loans) = some (pt.loans.map (fun l => if l.id == id then { l with movesDone := true } else l))))) ∧
  (∀ (s : State) (link loan off len cls : Nat) (l : Lent), s.lender.loans.find? (fun l => l.link == link && l.id == loan) = some l →
    cls < 8 → 1 ≤ len →
    let es := l.extents
    let send := fun (u : State) (st : Status) (bs : Bytes) => u.sendOn (link / 2) .lent (s.link link).peer s.veolo.num cls l.part (beBytes 1 0x46 ++ beBytes 1 loan ++ beBytes 2 (Status.code st) ++ bs)
    let a := es.getD (off / 2 ^ 28) 0 * 2 ^ 28 + off % 2 ^ 28
    (es.length * 2 ^ 28 < off + len → exec (.lentMemoryRequest link loan off none len cls) s = .next (send (s.bump .dr 0 0x24 1) .notPermitted []) ∧
      ∀ bs : Bytes, bs.length = len → exec (.lentMemoryRequest link loan off (some bs) len cls) s = .next (send (s.bump .dr 0 0x24 1) .notPermitted [])) ∧
    (off + len ≤ es.length * 2 ^ 28 → off % 2 ^ 28 + len ≤ 2 ^ 28 → s.dram.failed = [] → s.dram.bad = [] →
      completes (.lentMemoryRequest link loan off none len cls) s (fun t => ∃ u : State, t = send u .ok (Mem.readN 0#8 s.mem.dram a len) ∧ u.mem = s.mem ∧ u.veolo = s.veolo ∧ u.parts = s.parts) ∧
      ∀ bs : Bytes, bs.length = len → completes (.lentMemoryRequest link loan off (some bs) len cls) s (fun t => ∃ u : State, t = send u .ok [] ∧
        u.mem = { s.mem with dram := Mem.writeN 0#8 s.mem.dram a bs } ∧ u.veolo = s.veolo ∧ u.parts = s.parts)))

/-- The states of a link: a loss of signal, and a training or a fast retraining that ends without success, send it DOWN with its replay buffer and its
sequence numbers gone; a signal on a link that is DOWN begins its hails; another rank trains it, eight of the own rank make it DUPLICATE; a hail without an
answer backs off; a link whose peer stands where the topology says is UP, another MISWIRED; a fast retrain keeps the replay buffer and resumes with it. Every
training is counted, and no link but the one named changes its state (R280 to R284, R288). Completion is stated of: linkLossOfSignal, linkSignalDetect, hail,
hailTimeout, backoffExpiry, trainComplete, trainTimeout, fastRetrain, fastRetrainComplete, fastRetrainTimeout. Where the rules leave a point open, this rests
on a choice of the model: log entries 2 and 74. -/
def Obligations.LinksTrain : Prop :=
  (∀ (s : State) (i : Nat) (c : Instr), i < 8 → ((c = .linkLossOfSignal i ∧ (s.link i).st ≠ .disabled) ∨ (c = .trainTimeout i ∧ (s.link i).st = .train) ∨
      (c = .fastRetrainTimeout i ∧ (s.link i).st = .fastRetrain)) →
    completes c s (fun t => (t.link i).st = .down ∧ (t.link i).replay = [] ∧ (t.link i).txSeq = 0 ∧ (t.link i).rxSeq = 0 ∧ (t.link i).peer = (s.link i).peer ∧
      (∀ j, j ≠ i → (t.link j).st = (s.link j).st) ∧ t.setVeolo s.veolo = s)) ∧
  (∀ (s : State) (i : Nat), i < 8 → (s.link i).st = .disabled → exec (.linkLossOfSignal i) s = .next s) ∧
  (∀ (s : State) (i : Nat), i < 8 → (s.link i).st = .down → s.portsRun = true →
    (s.veolo.numValid = true → s.expected (i / 2) = none → exec (.linkSignalDetect i) s = .next s) ∧
    ((s.veolo.numValid = false ∨ s.expected (i / 2) ≠ none) →
      exec (.linkSignalDetect i) s = .next (s.putLink i { s.link i with st := .hail, equalHails := 0 }))) ∧
  (∀ (s : State) (i : Nat), i < 8 → (s.link i).st = .hail →
    let n := (s.link i).equalHails + 1
    (s.rank < 8192 → n < 8 → exec (.hail i s.rank) s = .next (s.putLink i { s.link i with equalHails := n })) ∧
    (s.rank < 8192 → 8 ≤ n → exec (.hail i s.rank) s = .next ((s.putLink i { s.link i with equalHails := n, st := .duplicate }).devEvent .notPermitted 0 0 i)) ∧
    (∀ r, r < 8192 → r ≠ s.rank → completes (.hail i r) s (fun t => (t.link i).st = .train ∧ (t.link i).peer = r % 4096 ∧ (t.link i).peerValid = decide (r < 4096) ∧
      (t.reg .vl i 0x14).toNat = min 0xFFFFFFFF ((s.reg .vl i 0x14).toNat + 1) ∧ (∀ j, j ≠ i → (t.link j).st = (s.link j).st) ∧
      (t.setVeolo s.veolo).setRegs s.regs = s)) ∧
    exec (.hailTimeout i) s = .next (s.putLink i { s.link i with st := .backoff, draws := (s.link i).draws + 1 })) ∧
  (∀ (s : State) (i : Nat), i < 8 → (s.link i).st = .backoff → exec (.backoffExpiry i) s = .next (s.putLink i { s.link i with st := .hail, equalHails := 0 })) ∧
  (∀ (s : State) (i : Nat) (p : PeerInfo), i < 8 → (s.link i).st = .train → s.veolo.nbrs.length = 4 →
    completes (.trainComplete i p) s (fun t => (t.link i).st = (if s.wiredRight i p then .up else .miswired) ∧ (t.link i).peer = p.num % 4096 ∧
      (t.link i).peerValid = p.valid ∧ (t.link i).peerLink = p.link % 8 ∧ (t.link i).peerAligned = p.aligned ∧
      (t.link i).g7 = (p.g7 && !p.pb5 && (s.reg .vl i 0).bit 29) ∧ (t.link i).pb5 = p.pb5 ∧ (∀ j, j ≠ i → (t.link j).st = (s.link j).st) ∧ t.parts = s.parts ∧ t.mem = s.mem ∧
      (s.wiredRight i p = true → t.setVeolo s.veolo = s) ∧
      (s.wiredRight i p = false → t.veolo.nbrs.getD (i / 2) .absent = .miswired) ∧
      (s.wiredRight i p = true → s.veolo.numValid = true → p.valid = true → (∀ j, j / 2 = i / 2 → j ≠ i → (s.link j).st ≠ .up ∧ (s.link j).st ≠ .miswired) →
        t.veolo.nbrs.getD (i / 2) .absent = if p.aligned then .degraded else .joining))) ∧
  (∀ (s : State) (i : Nat), i < 8 → (s.link i).st = .up → completes (.fastRetrain i) s (fun t => (t.link i).st = .fastRetrain ∧
    (t.link i).replay = (s.link i).replay ∧ (t.link i).txSeq = (s.link i).txSeq ∧ (t.link i).rxSeq = (s.link i).rxSeq ∧
    (t.reg .vl i 0x14).toNat = min 0xFFFFFFFF ((s.reg .vl i 0x14).toNat + 1) ∧ (∀ j, j ≠ i → (t.link j).st = (s.link j).st) ∧ (t.setVeolo s.veolo).setRegs s.regs = s)) ∧
  (∀ (s : State) (i : Nat), i < 8 → (s.link i).st = .fastRetrain → completes (.fastRetrainComplete i) s (fun t => (t.link i).st = .up ∧
    (s.link i).replay <+: (t.link i).replay ∧ (t.link i).rxSeq = (s.link i).rxSeq ∧ (∀ j, j ≠ i → (t.link j).st = (s.link j).st) ∧ t.setVeolo s.veolo = s))

/-- A flit that fails its CRC or is out of turn is discarded and NAKed once; one in turn is taken, what it acknowledges leaves the replay buffer, and the last
flit of a message delivers it to this module. A NAK discards what came before the flit it names and resends the rest, its eighth resending retrains the link;
credits come back to their class; a second's codewords are counted on every link that is UP, and one above 10^-5 uncorrectable is retrained (R283 to R287,
R461). A time marker from the master's side gives the offset, which a module that joins steps its count by, once; an aligned module tells its neighbours. A
neighbour that leaves or is lost is marked so, what waited for it is gone. The reset of another stage ends the work at the next meridian; an abort of the step
that an earlier stage names is taken over, of another one ignored (R294, R295, R298, R425, R455). Completion is stated of: flit, nak, creditReturn,
timeMarker, timeAligned, leaveNotice, neighbourLost, resetNotice, abortNotice, veoloErrorRateCheck. Where the rules leave a point open, this rests on a choice
of the model: log entries 21, 63 and 74. -/
def Obligations.LinksCarryAndHear : Prop :=
  (∀ (s : State) (i : Nat) (f : Flit), i < 8 → ((s.link i).st = .up ∨ (s.link i).st = .miswired) → f.seq < 4096 → 1 ≤ f.len → f.len ≤ 240 → f.payload.length ≤ 240 → f.part < 128 →
    let no := (s.putLink i { s.link i with nakked := true }).bump .vl i 0x10 1
    (f.crcOk = false → exec (.flit i f []) s = .next no) ∧
    (f.crcOk = true → f.kind = 0 → f.seq ≠ (s.link i).rxSeq → exec (.flit i f []) s = .next (if (s.link i).nakked then s else no)) ∧
    (f.crcOk = true → f.kind ≠ 0 → completes (.flit i f []) s (fun t => t.setVeolo s.veolo = s ∧ (t.link i).rxSeq = (s.link i).rxSeq ∧
      (∀ k, f.ackValid = true → (s.link i).replay.findIdx? (fun g => g.seq == f.ackSeq) = some k → (s.link i).replay.drop (k + 1) <+: (t.link i).replay) ∧
      (f.ackValid = false → (s.link i).replay <+: (t.link i).replay))) ∧
    (f.crcOk = true → f.kind = 0 → f.seq = (s.link i).rxSeq → f.ackValid = false → (s.link i).st = .up → s.veolo.numValid = true → f.dest = s.veolo.num →
      (f.last = false → completes (.flit i f []) s (fun w => ∃ t : State, w = t.pumpAll ∧ t.setVeolo s.veolo = s ∧ (t.link i).rxSeq = ((s.link i).rxSeq + 1) % 4096 ∧ (t.link i).nakked = false ∧
        (t.link i).rxBuf = (s.link i).rxBuf ++ [f])) ∧
      (f.last = true → (f.cls = .activation ∨ f.cls = .ring ∨ f.cls = .collective) → (s.part f.part).any (·.image.isSome) = true → (s.link i).rxBuf = [] → s.veolo.early = [] →
        f.pair = s.veolo.pairRx.getD (i / 2) 0 → (∀ e ∈ s.veolo.inbox, e.2.1 ≠ .management) → completes (.flit i f []) s (fun w => ∃ t : State, w = t.pumpAll ∧ t.setVeolo s.veolo = s ∧
          (t.link i).rxSeq = ((s.link i).rxSeq + 1) % 4096 ∧ t.veolo.inbox = s.veolo.inbox ++ [(i / 2, f.cls, f.part, f.payload.take f.len)] ∧
          t.veolo.pairRx = s.veolo.pairRx.set (i / 2) (f.pair + 1) ∧ t.veolo.early = [])))) ∧
  (∀ (s : State) (i seq : Nat), i < 8 → ((s.link i).st = .up ∨ (s.link i).st = .miswired) → seq < 4096 →
    (∀ k, (s.link i).replay.findIdx? (fun f => f.seq == seq) = some k →
      let n := if k = 0 then (s.link i).resends + 1 else 2
      (n < 8 → completes (.nak i seq) s (fun t => (s.link i).replay.drop k <+: (t.link i).replay ∧ (t.link i).st = (s.link i).st ∧ (t.setVeolo s.veolo).setRegs s.regs = s ∧
        (t.reg .vl i 0x10).toNat = min 0xFFFFFFFF ((s.reg .vl i 0x10).toNat + 1))) ∧
      (8 ≤ n → (s.link i).st = .up → completes (.nak i seq) s (fun t => (t.link i).st = .fastRetrain ∧ (t.link i).replay = (s.link i).replay.drop k ∧
        (t.reg .vl i 0x14).toNat = min 0xFFFFFFFF ((s.reg .vl i 0x14).toNat + 1) ∧ (t.setVeolo s.veolo).setRegs s.regs = s))) ∧
    ((s.link i).replay.findIdx? (fun f => f.seq == seq) = none → seq ≠ (s.link i).txSeq → exec (.nak i seq) s = .next (s.bump .vl i 0x10 1))) ∧
  (∀ (s : State) (i : Nat) (cls : LClass), i < 8 → ((s.link i).st = .up ∨ (s.link i).st = .miswired) →
    (s.link i).credits.getD (LClass.code cls) 0 < [128, 128, 96, 128, 16].getD (LClass.code cls) 0 →
    completes (.creditReturn i cls) s (fun t => t.setVeolo s.veolo = s ∧ (t.link i).st = (s.link i).st ∧ ((∀ j, j / 2 = i / 2 → (s.link j).queue = []) →
      (t.link i).credits = (s.link i).credits.set (LClass.code cls) ((s.link i).credits.getD (LClass.code cls) 0 + 1)))) ∧
  (∀ (s : State) (co un cw : List Nat), completes (.veoloErrorRateCheck co un cw) s (fun t => (t.setVeolo s.veolo).setRegs s.regs = s ∧ ∀ i, i < 8 →
    let bad := cw.getD i 0 < 100000 * un.getD i 0
    ((s.link i).st ≠ .up → (t.link i).st = (s.link i).st ∧ t.reg .vl i 0x08 = s.reg .vl i 0x08 ∧ t.reg .vl i 0x0C = s.reg .vl i 0x0C) ∧
    ((s.link i).st = .up → (t.link i).st = (if bad then .fastRetrain else .up) ∧ (t.reg .vl i 0x08).toNat = min 0xFFFFFFFF ((s.reg .vl i 0x08).toNat + co.getD i 0) ∧
      (t.reg .vl i 0x0C).toNat = min 0xFFFFFFFF ((s.reg .vl i 0x0C).toNat + un.getD i 0)))) ∧
  (∀ (s : State) (i : Nat) (t1 t2 t3 t4 : Int), i < 8 → (s.link i).st = .up →
    let off := ((t2 - t1) - (t4 - t3)) / 2
    (s.veolo.master = true ∨ s.route s.veolo.masterNum ≠ some (i / 2) → exec (.timeMarker i t1 t2 t3 t4) s = .next s) ∧
    (s.veolo.master = false → s.route s.veolo.masterNum = some (i / 2) →
      (s.veolo.joined = true → exec (.timeMarker i t1 t2 t3 t4) s = .next (s.setVeolo { s.veolo with offset := off })) ∧
      (s.veolo.joined = false → exec (.timeMarker i t1 t2 t3 t4) s =
        .next ((s.setVeolo { s.veolo with offset := off, joined := true }).setNow (max 0 ((s.now : Int) + off)).toNat)))) ∧
  (∀ s : State, (s.veolo.joined = true ∨ s.veolo.master = true) → completes .timeAligned s (fun t => t.veolo.aligned = true ∧ t.setVeolo s.veolo = s ∧ t.veolo.nbrs = s.veolo.nbrs)) ∧
  (∀ (s : State) (d : Nat), s.hasNeighbour d = true →
    exec (.leaveNotice d) s = .next (s.loseNeighbour d .left).settleAll ∧ exec (.neighbourLost d) s = .next (s.loseNeighbour d .lost).settleAll ∧
    ∀ (i : Instr) (st : NState), ((i = .leaveNotice d ∧ st = .left) ∨ (i = .neighbourLost d ∧ st = .lost)) → s.parts = [] → s.lender.loans = [] → s.lesar.goDone = [] →
      completes i s (fun w => ∃ t : State, w = t.passReach d (s.nbrDev d) false ∧ t.veolo.nbrs = s.veolo.nbrs.set d st ∧
        (∀ j, j / 2 = d → (t.link j).replay = [] ∧ (t.link j).queue = [] ∧ (t.link j).rxBuf = []) ∧ (∀ j, j / 2 ≠ d → t.link j = s.link j) ∧ (∀ e ∈ t.veolo.early, e.1 ≠ d) ∧ t.mem = s.mem ∧ t.parts = [])) ∧
  (∀ (s : State) (p stage : Nat) (pt : Part) (im : Image), s.part p = some pt → pt.image = some im → stage < im.stages → stage ≠ im.stage →
    exec (.resetNotice p stage) s = .next (s.modPart p (fun pt => { pt with held := stage :: pt.held.filter (· != stage), joined := false, staged := { pt.staged with endAll := some stage } }))) ∧
  (∀ (s : State) (p count : Nat) (pt : Part) (im : Image), s.part p = some pt → pt.image = some im → im.isFirst = false →
    (∀ v, pt.step = some v → v.count = count → v.empty = false → exec (.abortNotice p count) s =
      .next ((s.abortStep p .uncorrectable false).setVeolo { (s.abortStep p .uncorrectable false).veolo with
        inbox := (s.abortStep p .uncorrectable false).veolo.inbox.filter (fun e => !(e.2.1 == .activation && e.2.2.1 == p)) })) ∧
    ((∀ v, pt.step = some v → v.count ≠ count ∨ v.empty = true) → exec (.abortNotice p count) s = .next s))

/-- INSTALL_MODEL checks its frame, holds the partition's model while it runs, and takes a fetched image of its handle without asking for it again. SHARD_DATA
is taken in order, part by part, without a reply; a frame that does not continue its part ends the installation with BAD_FRAME, as 10 s without one do; with
the atlas complete the cartouche and the atlas are checked (R309 to R311). A shard is asked of the neighbours first: a query is answered where a shard with
its digest is held, the lowest-numbered neighbour that answers sends it, and without an answer the host does. A shard that has arrived with another digest is
counted and fetched once more from the same source, then from the next one; with its own digest it is checked, stored and loaded, or kept as the next image. A
load that completes leaves the image LOADED with the registers that it sets (R310, R312 to R314, R330). Completion is stated of: shardQuery,
shardQueryTimeout, installModel, shardData, shardDataTimeout, shardArrived, loadComplete. Where the rules leave a point open, this rests on a choice of the
model: log entries 13, 44, 59 and 60. -/
def Obligations.ModelsArriveWithShards : Prop :=
  (∀ (s : State) (c : Ctx) (pl : Bytes) (pt : Part), s.modelServes c 0x0401 pt →
    let i : Instr := .installModel c pl
    let m := s.freeMbox c 0x0401
    let f := beAt pl 0 1
    let good := pl.length = 16 ∧ f < 4 ∧ allZero (slice pl 1 3) = true ∧ beAt pl 4 4 ≤ 65536 ∧ 20 ≤ beAt pl 8 4 ∧ beAt pl 8 4 ≤ 16400 ∧ allZero (slice pl 12 4) = true
    let v : Install := { ctx := c, fetchOnly := f % 2 == 1, noHost := f / 2 % 2 == 1, cartLen := beAt pl 4 4, atlasLen := beAt pl 8 4, cart := [], atlas := [],
                         shard := [], stage := 0, src := .none, again := false, loading := false, image := none }
    (¬good → exec i s = .next ((m.reply c 0x0401 .badFrame []).modelStatus c.part .badFrame)) ∧
    (good → (pt.mstate.busy = true ∨ pt.install.isSome = true) → exec i s = .next ((m.reply c 0x0401 .notPermitted []).modelStatus c.part .notPermitted)) ∧
    (good → pt.mstate.busy = false → pt.install = none → (∀ im, pt.next = some im → im.handle ≠ c.handle) → exec i s = .next ((m.owe c 0x0401).modPart c.part (fun x =>
      { x with install := some v, mstate := if f % 2 = 0 ∧ (pt.mstate = .empty ∨ pt.mstate = .loaded) then .fetching else pt.mstate }))) ∧
    (∀ im, good → pt.mstate.busy = false → pt.install = none → pt.next = some im → im.handle = c.handle → exec i s =
      .next (((m.owe c 0x0401).modPart c.part (fun pt => { pt with install := some { v with fetchOnly := false, image := some im } })).beginLoad c.part im))) ∧
  (∀ (s : State) (c : Ctx) (pl : Bytes) (pt : Part), s.accepts c 0x0405 .port true → s.part c.part = some pt → badHandle c.handle = false →
    let i : Instr := .shardData c pl
    let m := s.freeMbox c 0x0405
    let d := pl.drop 16
    let good := 16 ≤ pl.length ∧ allZero (slice pl 1 7) = true
    (pt.install = none → pt.refetch = none → exec i s = .next (m.reply c 0x0405 .notPermitted [])) ∧
    (∀ v, pt.install = some v → v.ctx.sess = c.sess → v.ctx.handle = c.handle → v.loading = false →
      let end1 := (m.modPart c.part (fun pt => Part.trimKeys { pt with install := none, mstate := pt.restState })).settle v.ctx 0x0401 .badFrame []
      ((¬good ∨ v.take (beAt pl 0 1) (beAt pl 8 8) d = none) → exec i s = .next (end1.modelStatus c.part .badFrame)) ∧
      (good → beAt pl 0 1 = 0 → v.image = none → beAt pl 8 8 = v.cart.length → v.cart.length + d.length ≤ v.cartLen →
        (v.cart.length + d.length ≠ v.cartLen ∨ v.atlas.length ≠ v.atlasLen) → completes i s (fun t => onlyPart m t c.part ∧
          t.part c.part = some { pt with install := some { v with cart := v.cart ++ d } })) ∧
      (good → beAt pl 0 1 = 1 → v.image = none → v.cart.length = v.cartLen → beAt pl 8 8 = v.atlas.length → v.atlas.length + d.length ≤ v.atlasLen →
        let w := { v with atlas := v.atlas ++ d }
        (w.atlas.length ≠ v.atlasLen → completes i s (fun t => onlyPart m t c.part ∧ t.part c.part = some { pt with install := some w })) ∧
        (w.atlas.length = v.atlasLen → ∃ u, onlyPart m u c.part ∧ u.part c.part = some { pt with install := some w } ∧ exec i s = .next (u.partsDone c.part w))) ∧
      (∀ im, good → beAt pl 0 1 = 2 → v.src = .host → v.image = some im → beAt pl 8 8 = v.shard.length → v.shard.length + d.length ≤ im.shardLen →
        completes i s (fun t => onlyPart m t c.part ∧ t.part c.part = some { pt with install := some { v with shard := v.shard ++ d } }))) ∧
    (∀ v im, pt.install = none → pt.refetch = some v → v.ctx.handle = c.handle → v.src = .host → v.image = some im →
      (good → beAt pl 0 1 = 2 → beAt pl 8 8 = v.shard.length → v.shard.length + d.length ≤ im.shardLen →
        completes i s (fun t => onlyPart m t c.part ∧ t.part c.part = some { pt with refetch := some { v with shard := v.shard ++ d } })) ∧
      (¬good → exec i s = .next ((m.modPart c.part (fun pt => { pt with refetch := none })).ownerEvent c.part .digestMismatch 0 v.ctx.handle 0)))) ∧
  (∀ (s : State) (p : Nat) (pt : Part) (v : Install), s.part p = some pt → v.awaits = true →
    (pt.install = some v → exec (.shardDataTimeout p) s =
      .next (((s.modPart p (fun pt => Part.trimKeys { pt with install := none, mstate := pt.restState })).settle v.ctx 0x0401 .badFrame []).modelStatus p .badFrame)) ∧
    (pt.install = none → pt.refetch = some v → exec (.shardDataTimeout p) s =
      .next ((s.modPart p (fun pt => { pt with refetch := none })).ownerEvent p .digestMismatch 0 v.ctx.handle 0))) ∧
  (∀ (s : State) (l : Nat) (dg : Bytes), l < 8 → (s.link l).st = .up →
    (∀ b, s.shardWith dg = some b → exec (.shardQuery l dg) s = .next (s.sendMessage (l / 2) .management 0 (beBytes 1 0x19 ++ dg))) ∧
    (s.shardWith dg = none → exec (.shardQuery l dg) s = .next s)) ∧
  (∀ (s : State) (p a : Nat) (as : List Nat) (pt : Part) (v : Install) (im : Image), s.part p = some pt → pt.install = some v → v.src = .query → v.image = some im →
    (v.noHost = true → exec (.shardQueryTimeout p []) s = .next (s.endInstall p .tierFailed)) ∧
    (v.noHost = false → exec (.shardQueryTimeout p []) s = .next ((s.modFetch p false (fun v => { v with src := .host, shard := [] })).ownerEvent p .pending 0x0401 v.ctx.handle 0)) ∧
    (let dev := as.foldl min a
     exec (.shardQueryTimeout p (a :: as)) s = .next ((s.modFetch p false (fun v => { v with src := .neighbour dev, shard := [] })).sendTo dev .lent p
      (beBytes 1 0x47 ++ beBytes 1 p ++ beBytes 1 0 ++ im.digest)))) ∧
  (∀ (s : State) (p : Nat) (pt : Part) (v : Install) (im : Image), s.part p = some pt → pt.install = some v → v.image = some im → v.shard.length = im.shardLen →
    (Config.sm3 v.shard ≠ im.digest →
      let s1 := s.bump .model p 0x1C 1
      (v.src = .host → v.again = true → exec (.shardArrived p) s = .next (s1.endInstall p .digestMismatch)) ∧
      (v.src = .host → v.again = false → exec (.shardArrived p) s = .next ((s1.modFetch p false (fun v => { v with again := true })).toHost p false)) ∧
      (∀ d, v.src = .neighbour d →
        (v.again = false → exec (.shardArrived p) s = .next ((s1.modFetch p false (fun v => { v with again := true })).askNeighbour p false d)) ∧
        (v.again = true → v.noHost = true → exec (.shardArrived p) s = .next (s1.endInstall p .digestMismatch)) ∧
        (v.again = true → v.noHost = false → exec (.shardArrived p) s = .next ((s1.modFetch p false (fun v => { v with again := false })).toHost p false)))) ∧
    (Config.sm3 v.shard = im.digest → (v.src = .host ∨ ∃ d, v.src = .neighbour d) →
      let im1 := { im with shard := v.shard }
      let verdict := s.installCheck { pt with swapEn := s.swapEnable p } im1 (pt.plainShard im1)
      (∀ st, verdict = some st → exec (.shardArrived p) s = .next (s.endInstall p st)) ∧
      (verdict = none →
        (v.fetchOnly = false → exec (.shardArrived p) s = .next ((s.storeShard p v.shard).beginLoad p im1)) ∧
        (v.fetchOnly = true → exec (.shardArrived p) s = .next (((s.storeShard p v.shard).modPart p (fun pt =>
          { pt with next := some im1, swap := pt.swap.filter (·.active) })).endInstall p .ok))))) ∧
  (∀ (s : State) (p : Nat) (pt : Part) (v : Install) (im : Image), s.part p = some pt → pt.install = none → pt.refetch = some v → v.image = some im →
    v.shard.length = im.shardLen → v.src = .host → Config.sm3 v.shard = im.digest → exec (.shardArrived p) s = .next (s.repairShard p im v.shard)) ∧
  (∀ (s : State) (p : Nat) (pt : Part) (v : Install) (im : Image), p < 128 → s.part p = some pt → pt.install = some v → v.image = some im → v.loading = true →
    (exec (.loadComplete p false) s = .next ((s.modPart p (fun pt => { pt with mstate := .empty })).endInstall p .tierFailed)) ∧
    (∀ e, pt.loadFault im = some e → exec (.loadComplete p true) s =
      .next ((((s.countPodFault p 0 3 e).countPodFault p 0 3 e).modPart p (fun pt => { pt with mstate := .empty })).endInstall p .tierFailed)) ∧
    (pt.loadFault im = none → ∃ (u : State) (pt1 : Part), u.part p = some pt1 ∧ exec (.loadComplete p true) s =
        .next (((u.modPart p (fun pt => Part.trimKeys { pt with install := none, mstate := pt.restState })).settle v.ctx 0x0401 .ok []).modelStatus p .ok) ∧
      pt1.image = some im ∧ pt1.mstate = .loaded ∧ pt1.install = some v ∧ pt1.firstStep = true ∧ pt1.swapEn = s.swapEnable p ∧
      pt1.gzState = (if im.isFirst then 0 else 4) ∧ pt1.xcache.length = im.xcacheSlots ∧ u.reg .narrow p 0 = im.narrowCtl ∧
      u.reg .kv p 0 = im.poolCfg ∧
      pt1.staged.edition = true ∧ pt1.progs = pt.bayPrograms (Image.program (pt.plainShard im))))

/-- START_MODEL, STOP_MODEL and SWAP_LAYERS check their frame, the state of the model and their target, and are staged for the meridian that they name: a
first stage of a pipeline accepts for itself, a later one tells it. A layer of a swap that has been read stands ready in the swap room; a pod at fault fails
the step and has the shard fetched again (R130, R131; log entry 54); a layer that cannot be read ends the swap with TIER_FAILED and holds admission.
REMOVE_MODEL removes the images, their shards and content keys and returns the model's registers (R22, R25, R315 to R319, R324, R488). Completion is stated
of: swapLayers, swapReadComplete, stopModel, startModel, removeModel. Where the rules leave a point open, this rests on a choice of the model: log entry 61.
-/
def Obligations.ModelsStartStopAndSwap : Prop :=
  (∀ (s : State) (c : Ctx) (pl : Bytes) (pt : Part) (im : Image), s.modelServes c 0x0404 pt → pt.image = some im →
    let i : Instr := .startModel c pl
    let m := s.freeMbox c 0x0404
    let target := beAt pl 0 4
    let no := fun st : Status => exec i s = .next ((m.reply c 0x0404 st []).modelStatus c.part st)
    (pl.length ≠ 4 → no .badFrame) ∧
    (pl.length = 4 → pt.mstate ≠ .loaded → no .notPermitted) ∧
    (pl.length = 4 → pt.mstate = .loaded → m.adjacentUp im = false → no .busyRecovery) ∧
    (pl.length = 4 → pt.mstate = .loaded → m.adjacentUp im = true → m.targetOk c.part im target = false → no .notPermitted) ∧
    (pl.length = 4 → pt.mstate = .loaded → m.adjacentUp im = true → m.targetOk c.part im target = true → (∀ e ∈ pt.staged.targeted, e.2.1 ≠ c.handle) →
      ∃ u : State, onlyPart (m.owe c 0x0404) u c.part ∧
        u.part c.part = some { pt with staged := { pt.staged with targeted := pt.staged.targeted ++ [(target, c.handle, .start c)] },
                                       accepted := if im.stages ≠ 1 ∧ im.isFirst = true then pt.accepted ++ [(0, c.handle, target)] else pt.accepted } ∧
        exec i s = .next ((if im.stages = 1 ∨ im.isFirst = true then u
          else u.sendTo (u.stageDev 0) .management c.part (beBytes 1 0x13 ++ beBytes 1 c.part ++ beBytes 1 im.stage ++ beBytes 4 c.handle ++ beBytes 4 target)).tellStarted c.part im))) ∧
  (∀ (s : State) (c : Ctx) (pl : Bytes) (pt : Part) (im : Image), s.modelServes c 0x0403 pt → pt.image = some im →
    let i : Instr := .stopModel c pl
    let m := s.freeMbox c 0x0403
    let target := beAt pl 4 4
    let good := pl.length = 8 ∧ beAt pl 0 1 < 2 ∧ beAt pl 1 1 = 0 ∧ (beAt pl 0 1 = 1 ∨ 1 ≤ beAt pl 2 2 ∧ beAt pl 2 2 ≤ 600)
    let no := fun st : Status => exec i s = .next ((m.reply c 0x0403 st []).modelStatus c.part st)
    (¬good → no .badFrame) ∧
    (good → ((pt.mstate ≠ .started ∧ pt.mstate ≠ .held) ∨ m.targetOk c.part im target = false) → no .notPermitted) ∧
    (good → (pt.mstate = .started ∨ pt.mstate = .held) → m.targetOk c.part im target = true → (∀ e ∈ pt.staged.targeted, e.2.1 ≠ c.handle) →
      ∃ u : State, onlyPart (m.owe c 0x0403) u c.part ∧
        u.part c.part = some { pt with staged := { pt.staged with targeted := pt.staged.targeted ++ [(target, c.handle, .stop c (beAt pl 0 1 == 1) (beAt pl 2 2))] },
                                       accepted := if im.stages ≠ 1 ∧ im.isFirst = true then pt.accepted ++ [(0, c.handle, target)] else pt.accepted } ∧
        exec i s = .next (if im.stages = 1 ∨ im.isFirst = true then u
          else u.sendTo (u.stageDev 0) .management c.part (beBytes 1 0x13 ++ beBytes 1 c.part ++ beBytes 1 im.stage ++ beBytes 4 c.handle ++ beBytes 4 target)))) ∧
  (∀ (s : State) (c : Ctx) (pl : Bytes) (pt : Part) (cur next : Image), s.modelServes c 0x0402 pt → pt.image = some cur → pt.next = some next → pl.length = 4 →
    let i : Instr := .swapLayers c pl
    let m := s.freeMbox c 0x0402
    let target := beAt pl 0 4
    let may := pt.swapEn = true ∧ (pt.mstate = .started ∨ pt.mstate = .held ∧ pt.swap.isSome = true) ∧ next.handle = c.handle ∧ pt.swappable cur next = true ∧
      m.targetOk c.part cur target = true
    (¬may → exec i s = .next ((m.reply c 0x0402 .notPermitted []).modelStatus c.part .notPermitted)) ∧
    (may → (∀ e ∈ pt.staged.targeted, e.2.1 ≠ c.handle) →
      ∃ u : State, onlyPart (m.owe c 0x0402) u c.part ∧
        u.part c.part = some { pt with staged := { pt.staged with targeted := pt.staged.targeted ++ [(target, c.handle, .swap c)] },
                                       accepted := if cur.stages ≠ 1 ∧ cur.isFirst = true then pt.accepted ++ [(0, c.handle, target)] else pt.accepted } ∧
        exec i s = .next (if cur.stages = 1 ∨ cur.isFirst = true then u
          else u.sendTo (u.stageDev 0) .management c.part (beBytes 1 0x13 ++ beBytes 1 c.part ++ beBytes 1 cur.stage ++ beBytes 4 c.handle ++ beBytes 4 target)))) ∧
  (∀ (s : State) (p : Nat) (pt : Part) (w : Swap) (im next : Image), s.part p = some pt → pt.swap = some w → pt.image = some im → pt.next = some next →
    w.active = true → pt.mstate = .swapping → w.readDone = false → w.layer < im.layers →
    let fault := (pt.swapTensors im w).findSome? (shardFault (pt.plainShard next))
    (fault = none → completes (.swapReadComplete p true) s (fun t => t = s.readLayer p pt im next w ∧
      t.part p = some { pt with swap := some { w with readDone := true, put := (placeLayer (pt.swapTensors im w) pt.room).1 } } ∧
      (∀ q, q ≠ p → t.part q = s.part q) ∧ (((t.setMem s.mem).setDram s.dram).setRegs s.regs).setParts s.parts = s)) ∧
    (∀ e, fault = some e → exec (.swapReadComplete p true) s = .next ((s.refetchShard p next).podFault p 0 3 e none)) ∧
    exec (.swapReadComplete p false) s = .next (((s.modPart p (fun pt => { pt with mstate := .held, swap := some { w with active := false } })).settle w.ctx 0x0402 .tierFailed []).modelStatus p .tierFailed)) ∧
  (∀ (s : State) (c : Ctx) (pt : Part), s.modelServes c 0x0407 pt → c.part < 128 →
    let m := s.freeMbox c 0x0407
    (((pt.mstate ≠ .empty ∧ pt.mstate ≠ .loaded) ∨ pt.install.isSome = true) → exec (.removeModel c []) s =
      .next ((m.reply c 0x0407 .notPermitted []).modelStatus c.part .notPermitted)) ∧
    ((pt.mstate = .empty ∨ pt.mstate = .loaded) → pt.install = none → ∃ (u : State) (pt1 : Part), u.part c.part = some pt1 ∧
      exec (.removeModel c []) s = .next (((u.owe c 0x0407).settle c 0x0407 .ok []).modelStatus c.part .ok) ∧ pt1.image = none ∧ pt1.next = none ∧ pt1.shards = [] ∧
      pt1.contentKeys = [] ∧ pt1.mstate = .empty ∧ pt1.insets = [] ∧ pt1.segments = [] ∧ pt1.xcache = [] ∧ pt1.staged.targeted = [] ∧ pt1.gzState = 0 ∧
      u.reg .sfu c.part 0 = Blk.reset .sfu 0 ∧ u.reg .narrow c.part 0 = Blk.reset .narrow 0 ∧ u.reg .kv c.part 0 = Blk.reset .kv 0 ∧ u.reg .kv c.part 4 = Blk.reset .kv 4))

/-- LOAD_LENDABLE copies the lendable tensors into the loans, in directory order, until one has no room; a pod at fault ends it with DECODE_FAULT. A scrub
that finds a mismatch counts it, tells the owner and asks for the shard again. INSTALL_INSET takes its tokens or its vectors, waits for a meridian for 10 s at
most; REMOVE_INSET is staged (R241, R325 to R330). Completion is stated of: loadLendable, installInset, insetTimeout, removeInset, shardScrub,
lendableCopyComplete. Where the rules leave a point open, this rests on a choice of the model: log entries 40 and 62. -/
def Obligations.CopiesScrubsAndInsets : Prop :=
  (∀ (s : State) (c : Ctx) (pt : Part), s.modelServes c 0x0406 pt →
    let m := s.freeMbox c 0x0406
    let may := pt.loans.any (fun l => l.active) = true ∧ pt.mstate = .started ∧ pt.lendCopy = none
    (¬may → exec (.loadLendable c []) s = .next ((m.reply c 0x0406 .notPermitted []).modelStatus c.part .notPermitted)) ∧
    (may → exec (.loadLendable c []) s = .next ((m.owe c 0x0406).modPart c.part (fun pt => { pt with lendCopy := some c })))) ∧
  (∀ (s : State) (p : Nat) (pt : Part) (c : Ctx) (im : Image), s.part p = some pt → pt.lendCopy = some c → pt.image = some im →
    let bare : Part := { pt with lendCopy := none, loans := pt.loans.map (fun l => { l with copies := [] }) }
    let ds := (pt.dir im).filter DirEntry.lendable
    let r := bare.lendAll im ds
    let st : Status := if r.2 = true then .ok else .noResource
    let fault := ds.findSome? (fun d => shardFault (pt.plainShard (pt.imageOf im d)) d)
    (fault = none → exec (.lendableCopyComplete p) s = .next (((s.putPart p r.1).settle c 0x0406 st []).modelStatus p st)) ∧
    (∀ e, fault = some e → exec (.lendableCopyComplete p) s =
      .next ((((s.putPart p bare).podFault p 0 3 e none).settle c 0x0406 .decodeFault []).modelStatus p .decodeFault))) ∧
  (∀ (s : State) (p : Nat) (next : Bool) (pt : Part) (im : Image), s.part p = some pt → (if next = true then pt.next else pt.image) = some im → im.shardSealed = true →
    exec (.shardScrub p next false) s = .next s ∧
    (let v : Install := { ctx := { sess := 0xFFFF, part := p, handle := im.handle, via := none }, fetchOnly := false, noHost := false, cartLen := 0, atlasLen := 0, cart := [],
                          atlas := [], shard := [], stage := 0, src := .none, again := false, loading := false, image := some im }
     let s1 := ((s.bump .model p 0x1C 1).bump .nt 0 0x28 1).ownerEvent p .digestMismatch 0 im.handle 0
     (pt.refetch.isSome = true → exec (.shardScrub p next true) s = .next s1) ∧
     (pt.refetch = none → exec (.shardScrub p next true) s = .next ((s1.modPart p (fun pt => { pt with refetch := some v })).askAll p true im)))) ∧
  (∀ (s : State) (c : Ctx) (pl : Bytes) (pt : Part) (im : Image), s.modelServes c 0x0301 pt → pt.image = some im → im.isFirst = true →
    let i : Instr := .installInset c pl
    let m := s.freeMbox c 0x0301
    let no := fun st : Status => exec i s = .next ((m.reply c 0x0301 st []).modelStatus c.part st)
    let v := fun ts : List Nat => ({ form := beAt pl 0 1, tokens := ts, tensor := beAt pl 8 4, count := beAt pl 4 4, done := 0, list := [], admitted := false, installed := false,
                                     ctx := c, candAt := s.stamp, again := none } : Inset)
    ((pt.mstate ≠ .started ∨ (NMap.find pt.insets c.handle).isSome = true) → no .notPermitted) ∧
    (pt.mstate = .started → NMap.find pt.insets c.handle = none →
      (pt.insetTokens im pl = none → no .badFrame) ∧
      (∀ ts, pt.insetTokens im pl = some ts → (256 ≤ pt.insets.length → no .noResource) ∧
        (pt.insets.length < 256 → exec i s = .next (((m.owe c 0x0301).modPart c.part (fun pt => { pt with insets := NMap.insert pt.insets c.handle (v ts) })).setStamp (s.stamp + 1)))))) ∧
  (∀ (s : State) (p h : Nat) (pt : Part) (v : Inset), s.part p = some pt → NMap.find pt.insets h = some v → v.admitted = false → v.installed = false →
    (∀ q ∈ pt.seqs, q.handle ≠ insetSeq h) → ∃ u : State, onlyPart s u p ∧ u.part p = some { pt with insets := NMap.erase pt.insets h, gone := Gone.seq (insetSeq h) :: pt.gone.erase (Gone.seq (insetSeq h)) } ∧
      exec (.insetTimeout p h) s = .next ((u.settle v.ctx 0x0301 .noResource []).modelStatus p .noResource)) ∧
  (∀ (s : State) (c : Ctx) (pt : Part) (im : Image), s.modelServes c 0x0302 pt → pt.image = some im → im.isFirst = true →
    let m := s.freeMbox c 0x0302
    ((∀ v, NMap.find pt.insets c.handle = some v → v.installed = false) → exec (.removeInset c []) s = .next ((m.reply c 0x0302 .notPermitted []).modelStatus c.part .notPermitted)) ∧
    (∀ v, NMap.find pt.insets c.handle = some v → v.installed = true → (∀ e ∈ pt.staged.removeInsets, e.1 ≠ c.handle) → completes (.removeInset c []) s (fun t =>
      onlyPart (m.owe c 0x0302) t c.part ∧ t.part c.part = some { pt with staged := { pt.staged with removeInsets := pt.staged.removeInsets ++ [(c.handle, c)] } })))

/-- A port comes up as auto-negotiation resolves it or as it is forced, and goes down; dropped frames and failures of link security are counted; what was
accepted beside a new key, EtherType or UDP port is accepted no longer; ARP, neighbour solicitation and echo are answered for the device's own addresses (R354
to R362). Completion is stated of: ethLinkUp, ethLinkDown, ethFrameDrop, arpRequest, neighbourSolicitation, echoRequest, secFrameFail, oldAssociationExpiry,
lesarCarrierChangeExpiry. Where the rules leave a point open, this rests on a choice of the model: log entry 67. -/
def Obligations.PortsServe : Prop :=
  (∀ (s : State) (port speed sqi : Nat) (master : Bool), port < 4 → speed ≤ 4 → sqi ≤ 7 → s.dev.phase.hears = true → (s.reg .eth port 0).bit 31 = true →
    ((s.reg .eth port 0).bit 30 = true ∨ (speed = (s.reg .eth port 0).field 2 0 ∧ master = (s.reg .eth port 0).bit 27)) →
    completes (.ethLinkUp port speed master sqi) s (fun t => t.setEth s.eth = s ∧ NMap.find t.eth port = some { up := true, master := master, speed := speed, sqi := sqi } ∧
      ∀ q, q ≠ port → NMap.find t.eth q = NMap.find s.eth q)) ∧
  (∀ (s : State) (port : Nat), s.linkUp port = true →
    exec (.ethLinkDown port) s = .next (s.setEth (NMap.erase s.eth port)) ∧
    (∀ w, exec (.ethFrameDrop port w) s = .next (s.bump .eth port 0x10 1)) ∧
    ((s.reg .eth port 0).bit 28 = true → exec (.secFrameFail port) s = .next (s.bump .eth port 0x14 1))) ∧
  (∀ (s : State) (port dir : Nat), (port, dir) ∈ s.keeper.secOld →
    exec (.oldAssociationExpiry port dir) s = .next (s.setKeeper { s.keeper with secOld := s.keeper.secOld.filter (· != (port, dir)) })) ∧
  (∀ s : State, (s.lesar.oldEtherType ≠ none ∨ s.lesar.oldUdpPort ≠ none) →
    exec .lesarCarrierChangeExpiry s = .next (s.setLesar { s.lesar with oldEtherType := none, oldUdpPort := none })) ∧
  (∀ (s : State) (via : Via) (a : Nat), s.hears via = true →
    (∀ m, s.mac4 via.port a = some m → exec (.arpRequest via a) s =
      .next ((s.setLesar { s.lesar with raw := s.lesar.raw ++ [(via.port, beBytes 1 1 ++ beBytes 6 m ++ beBytes 4 a ++ beBytes 6 via.src)] }).bump .eth via.port 0x0C 1)) ∧
    (s.mac4 via.port a = none → exec (.arpRequest via a) s = .next s) ∧
    (∀ m, s.mac6 via.port a = some m → exec (.neighbourSolicitation via a) s =
      .next ((s.setLesar { s.lesar with raw := s.lesar.raw ++ [(via.port, beBytes 1 2 ++ beBytes 6 m ++ beBytes 16 a ++ beBytes 16 via.src)] }).bump .eth via.port 0x0C 1)) ∧
    (s.mac6 via.port a = none → exec (.neighbourSolicitation via a) s = .next s)) ∧
  (∀ (s : State) (via : Via) (v6 : Bool) (d : Bytes), s.hears via = true →
    let mine := via.endpoint ≠ 0xFFFE ∧ s.endpointServes via.endpoint (if v6 = true then .udp6 else .udp4) = true
    (mine → exec (.echoRequest via v6 d) s =
      .next ((s.setLesar { s.lesar with raw := s.lesar.raw ++ [(via.port, beBytes 1 (if v6 = true then 4 else 3) ++ beBytes 16 via.src ++ d)] }).bump .eth via.port 0x0C 1)) ∧
    (¬mine → exec (.echoRequest via v6 d) s = .next s))

/-- A frame that a port drops or that is not Lesar's changes no more than its count; one taken is counted, and refused on its CHECK, on its session or on its
session's generation. DISCOVER and STATUS are answered at the device level, at most every 10 ms to one source. An acknowledgement frees what it acknowledges;
a sequenced frame ahead of its turn is held and acknowledged, an old one acknowledged again, one beyond the window dropped and counted; a message in its turn
takes a mailbox, or is refused (R356, R364, R365, R367, R368, R374, R381). Completion is stated of: ethFrameReceive, discover, status. Where the rules leave a
point open, this rests on a choice of the model: log entries 65, 66 and 68. -/
def Obligations.FramesAreTaken : Prop :=
  (∀ (s : State) (via : Via) (raw : Bytes), s.linkUp via.port = true →
    ((s.hears via = false ∨ s.portCheck via raw = .ignore) → exec (.ethFrameReceive via raw) s = .next s) ∧
    (s.hears via = true → s.portCheck via raw = .drop → exec (.ethFrameReceive via raw) s = .next (s.bump .eth via.port 0x10 1))) ∧
  (∀ (s : State) (via : Via) (raw : Bytes) (h : Hdr) (pl : Bytes), s.takesFrame via raw h pl →
    let i : Instr := .ethFrameReceive via raw
    let s1 := s.bump .eth via.port 0x08 1
    let n := h.sess
    (crc32c (raw.take 28 ++ pl) ≠ h.check → exec i s = .next ((s1.bump .ls 0 0x0C 1).refuseHeader via 3 n h.part h.handle h.opcode .badFrame)) ∧
    (crc32c (raw.take 28 ++ pl) = h.check → h.kind = 5 → n = 0xFFFF → exec i s = .next (s1.greets via 3 5 h.handle pl.length s1.discoverPayload)) ∧
    (crc32c (raw.take 28 ++ pl) = h.check → h.kind ≠ 5 → h.kind ≠ 6 → n ≠ 0xFFFF → s.dev.phase ≠ .factory →
      ((s.session n = none ∨ ∃ v, s.session n = some v ∧ v.boundTo via = false) → exec i s = .next (s1.refuseHeader via 3 n h.part h.handle h.opcode .unknownSession)) ∧
      (∀ v, s.session n = some v → v.boundTo via = true → v.gen ≠ 3 → exec i s = .next (s1.refuseHeader via 3 n h.part h.handle h.opcode .badVersion)))) ∧
  (∀ (s : State) (via : Via) (raw : Bytes) (h : Hdr) (pl : Bytes) (v : Session), s.takesFrame via raw h pl → crc32c (raw.take 28 ++ pl) = h.check → h.kind ≠ 5 → h.kind ≠ 6 →
    h.sess ≠ 0xFFFF → s.dev.phase ≠ .factory → s.session h.sess = some v → v.boundTo via = true → v.gen = 3 →
    let i : Instr := .ethFrameReceive via raw
    let n := h.sess
    let s2 := (s.bump .eth via.port 0x08 1).modSession n (fun v => { v with port := via.port, lesarId := via.lesarId })
    let s3 := if h.flags % 2 = 1 then s2.acknowledge n h.ackNum else s2
    (h.kind = 4 → exec i s = .next s3) ∧
    (∀ v3, h.kind ≠ 4 → s3.session n = some v3 →
      let d := (h.seq + 2 ^ 32 - v3.rxNext) % 2 ^ 32
      (1 ≤ d → d < 64 → exec i s = .next ((s3.modSession n (fun v => { v with early := NMap.insert v.early h.seq (via, h, pl) })).sendAck n)) ∧
      (2 ^ 31 ≤ d → exec i s = .next (s3.sendAck n)) ∧
      (64 ≤ d → d < 2 ^ 31 → exec i s = .next (s3.bump .ls 0 0x10 1)) ∧
      (d = 0 → h.kind = 2 → h.flags / 16 % 4 = 3 → usesMbox h.opcode = true → v3.early = [] → s3.lesar.mboxes.find? (fun m => !m.complete && m.sess == n) = none →
        let c : Ctx := { sess := n, part := h.part, handle := h.handle, via := none }
        let u := s3.modSession n (fun v => { v with rxNext := (v.rxNext + 1) % 2 ^ 32, started := true })
        let w := u.modSession n (fun v => { v with swallow := false })
        let box : Mbox := { sess := n, left := none, gen := 3, part := h.part, handle := h.handle, opcode := h.opcode, payload := pl, complete := true }
        let there := decide (0xFFFE ≤ via.endpoint) || via.endpoint == h.part
        (∀ st, u.firstRefusal c 3 h.opcode there pl.length = some st →
          exec i s = .next (((u.reply c h.opcode st []).modSession n (fun v => { v with swallow := false })).ackProcessed n s3.lesar.out.length)) ∧
        (u.firstRefusal c 3 h.opcode there pl.length = none →
          exec i s = .next ((w.setLesar { w.lesar with mboxes := w.lesar.mboxes ++ [box] }).ackProcessed n s3.lesar.out.length))))) ∧
  (∀ (s : State) (via : Via) (handle : Nat), s.hears via = true →
    (via.endpoint < 0xFFFE → exec (.discover via handle) s = .next (s.refuseHeader via 3 0xFFFF 0xFFFF handle 0 .notPermitted)) ∧
    (0xFFFE ≤ via.endpoint →
      let st : Status := if s.dev.phase = .running ∨ s.dev.phase = .recovery then .ok else .busyStarting
      let f := fun (kind : Nat) (pl : Bytes) => ({ gen := 3, kind := kind, flags := 4, sess := 0xFFFF, part := 0xFFFF, seq := 0, ackNum := 0, handle := handle, opcode := 0, status := st,
                                                   payload := pl, via := via, pcp := 0, dscp := 0 } : OutFrame)
      let sent := fun (kind : Nat) (pl : Bytes) => (s.sendBare via (f kind pl)).setLesar { (s.sendBare via (f kind pl)).lesar with
        lastReply := (via.src, s.now) :: s.lesar.lastReply.filter (fun e => e.1 != via.src && decide (s.now < e.2 + 10000000)) }
      ((∀ e ∈ s.lesar.lastReply, e.1 = via.src → e.2 + 10000000 ≤ s.now) → exec (.discover via handle) s = .next (sent 5 s.discoverPayload) ∧
        (s.dev.phase = .running → exec (.status via handle []) s = .next (sent 6 s.statusPayload))) ∧
      ((∃ e ∈ s.lesar.lastReply, e.1 = via.src ∧ s.now < e.2 + 10000000) → exec (.discover via handle) s = .next (s.bump .ls 0 0x18 1) ∧
        (s.dev.phase = .running → exec (.status via handle []) s = .next (s.bump .ls 0 0x18 1)))))

/-- OPEN_SESSION is refused with the first check that fails, answers a retry whose session is untouched again, and otherwise opens the lowest free number with
the role that its credential gives. A session closes when it is told to, when it is idle, or when a frame has been sent ten times: it is closed, the other
sessions stay, and a registration of events with it ends. A frame not acknowledged is sent again with RETRY. A message without a segment for 10 s is refused.
Events go to the session registered for them (R365 to R369, R375, R378, R379, R408, R409). Completion is stated of: openSession, closeSession,
sessionIdleTimeout, ack, retransmitTimeout, segmentTimeout, eventRegister, eventHoldExpiry. Where the rules leave a point open, this rests on a choice of the
model: log entries 2, 66 and 68. -/
def Obligations.SessionsOpenAndClose : Prop :=
  (∀ (s : State) (via : Via) (c : Ctx) (retry : Bool) (pl : Bytes), s.serveRefusal c 0x0604 .early = none →
    let i : Instr := .openSession via c retry 3 pl
    let isn := beAt pl 0 4
    let cred := pl.drop 8
    let k := s.keeper
    let ans := fun (s : State) (st : Status) (b : Bytes) => s.sendBare via { replyFrame { c with sess := 0xFFFF } 0x0604 st 48 b with gen := 3 }
    let good := pl.length = 72 ∧ beAt pl 6 2 = 0 ∧ (beAt pl 4 2 = 0 ∨ 16 ≤ beAt pl 4 2 ∧ beAt pl 4 2 ≤ 128)
    let here := 0xFFFE ≤ via.endpoint ∨ via.endpoint = c.part
    let there := c.part = 0xFFFF ∨ (s.part c.part).isSome = true
    (¬here → exec i s = .next (ans s .notPermitted [])) ∧
    (here → ¬good → exec i s = .next (ans s .badFrame [])) ∧
    (here → good → ¬there → exec i s = .next (ans s .notPermitted [])) ∧
    (here → good → there → retry = false →
      (4096 ≤ s.lesar.sessions.length → exec i s = .next (ans s .noResource [])) ∧
      (s.lesar.sessions.length < 4096 →
        (allZero cred = true → c.part = 0xFFFF → k.ownerKey ≠ none → exec i s = .next (ans s .notPermitted [])) ∧
        (allZero cred = true → c.part ≠ 0xFFFF → exec i s = .next (s.newSession via c 3 pl .client)) ∧
        (allZero cred = true → c.part = 0xFFFF → k.ownerKey = none → exec i s = .next (s.newSession via c 3 pl .devOwner)) ∧
        (∀ key, allZero cred = false → k.ownerKey = some key → Config.sm2Verify key (credentialMessage c.part isn) cred = true → k.ownerMark < isn →
          exec i s = .next ((s.setKeeper { k with ownerMark := isn }).newSession via c 3 pl .devOwner)) ∧
        (∀ pt, allZero cred = false → credentialGood k.ownerKey k.ownerMark c.part isn cred = false → s.part c.part = some pt →
          (credentialGood pt.ownerKey pt.ownerMark c.part isn cred = true →
            exec i s = .next ((s.modPart c.part (fun pt => { pt with ownerMark := isn })).newSession via c 3 pl .partOwner)) ∧
          (credentialGood pt.ownerKey pt.ownerMark c.part isn cred = false →
            exec i s = .next (ans (s.bump .kpr 0 0x04 1) .signatureInvalid (beBytes 4 (if pt.ownerKey.isSome = true then pt.ownerMark else k.ownerMark)))))))) ∧
  (∀ (s : State) (via : Via) (c : Ctx) (gen : Nat) (pl : Bytes) (role : Role),
    let t := s.newSession via c gen pl role
    let isn := beAt pl 0 4
    let n := lowestFree s.lesar.sessions
    ∃ v, t.session n = some v ∧ v.role = role ∧ v.part = c.part ∧ v.gen = gen ∧ v.src = via.src ∧ v.carrier = via.carrier ∧ v.isn = isn ∧ v.rxNext = isn ∧
      v.window = (if beAt pl 4 2 = 0 then 64 else beAt pl 4 2) ∧ v.peerAck = v.txNext ∧ v.unacked = [] ∧ (NMap.sorted s.lesar.sessions = true → s.session n = none) ∧ (∀ q, q ≠ n → t.session q = s.session q)) ∧
  (∀ (s : State) (n : Nat) (v : Session), s.session n = some v →
    exec (.sessionIdleTimeout n) s = .next (s.closeSession n) ∧
    (∀ c : Ctx, c.sess = n → s.accepts c 0x0605 .early false → exec (.closeSession c []) s = .next (((s.freeMbox c 0x0605).reply c 0x0605 .ok []).closeSession n)) ∧
    ((s.closeSession n).session n = none ∧ (∀ q, q ≠ n → (s.closeSession n).session q = s.session q) ∧ (s.closeSession n).mem = s.mem ∧ (s.closeSession n).regs = s.regs ∧
      (∀ e ∈ (s.closeSession n).lesar.evts, e.2.sess ≠ some n) ∧ ∀ m ∈ (s.closeSession n).lesar.mboxes, m.sess ≠ n ∨ n = closedSess) ∧
    (∀ (f : OutFrame) (k seq : Nat), v.unacked.find? (fun u => u.1.seq == seq) = some (f, k) →
      (10 ≤ k → exec (.retransmitTimeout n seq) s = .next (s.closeSession n)) ∧
      (k < 10 →
        let home := s.viaOf v
        let g : OutFrame := { f with flags := if f.flags / 2 % 2 = 1 then f.flags else f.flags + 2, ackNum := v.rxNext, via := { f.via with port := home.port, endpoint := home.endpoint } }
        exec (.retransmitTimeout n seq) s = .next (((s.modSession n (fun v => { v with unacked := v.unacked.map (fun u => if u.1.seq = seq then (g, k + 1) else u) })).transmit g).bump
          .ls 0 0x14 1))) ∧
    (∀ (via : Via) (a : Nat), (v.boundTo via = true → exec (.ack via n a) s =
        .next ((s.modSession n (fun v => { v with port := via.port, lesarId := via.lesarId })).acknowledge n a)) ∧
      (v.boundTo via = false → exec (.ack via n a) s = .next (s.refuseHeader via 3 n 0xFFFF 0 0 .unknownSession)))) ∧
  (∀ (s : State) (n : Nat) (m : Mbox), s.lesar.mboxes.find? (fun m => !m.complete && m.sess == n) = some m →
    exec (.segmentTimeout n) s = .next (((s.setLesar { s.lesar with mboxes := s.lesar.mboxes.erase m }).reply
      { sess := m.sess, part := m.part, handle := m.handle, via := none } m.opcode .badFrame []).modSession n (fun v => { v with swallow := true }))) ∧
  (∀ (s : State) (c : Ctx) (k : Nat) (v w : Session), s.accepts c 0x0608 .port false → k < 2 ^ 16 → s.session c.sess = some v → s.session k = some w →
    let m := s.freeMbox c 0x0608
    ((c.part ≠ 0xFFFF ∧ s.part c.part = none) → exec (.eventRegister c (beBytes 2 k)) s = .next (m.reply c 0x0608 .notPermitted [])) ∧
    ((v.takesEvents c.part = false ∨ w.gen ≠ 3 ∨ w.takesEvents c.part = false) → exec (.eventRegister c (beBytes 2 k)) s = .next (m.reply c 0x0608 .notPermitted [])) ∧
    (c.part ≠ 0xFFFF → (s.part c.part).isSome = true → v.takesEvents c.part = true → w.gen = 3 → w.takesEvents c.part = true →
      exec (.eventRegister c (beBytes 2 k)) s =
        .next (((m.putEvtStream c.part { m.evtStream c.part with sess := some k }).reply c 0x0608 .ok []).flushEvents c.part)) ∧
    (c.part = 0xFFFF → v.takesEvents c.part = true → w.gen = 3 → w.takesEvents c.part = true →
      let u := ((m.putEvtStream c.part { m.evtStream c.part with sess := some k }).reply c 0x0608 .ok []).flushEvents c.part
      exec (.eventRegister c (beBytes 2 k)) s = .next ((u.lesar.evts.keys.filter (fun k => decide (0x10000 ≤ k))).foldl State.flushEvents u))) ∧
  (∀ (s : State) (k n : Nat), s.evtSession k = some n → (s.evtStream k).held ≠ [] → exec (.eventHoldExpiry k) s =
    .next ((batches 9 (s.evtStream k).held).foldl (fun u es => u.sendSeq n (eventFrame (if 0x10000 ≤ k then k - 0x10000 else k) es)) (s.putEvtStream k { s.evtStream k with held := [] })))

/-- The PMBus commands of the sideband answer with power, but for 5 ms after a reset: the readings in LINEAR11, STATUS_WORD, STATUS_INPUT and
STATUS_TEMPERATURE by their bits, whose read clears those whose conditions have ended, CLEAR_FAULTS, the revision, and the address of a device whose alert is
asserted. Otherwise they are not acknowledged and have no effect (R382, R383, R385). Completion is stated of: clearFaults, statusWord, statusInput,
statusTemperature, readVin, readIin, readTemperature1, readTemperature2, readTemperature3, readPin, pmbusRevision, alertResponse. Where the rules leave a
point open, this rests on a choice of the model: log entry 27. -/
def Obligations.SidebandReadsAndClears : Prop :=
  (∀ (s : State) (i : Instr), (s.dev.phase = .off ∨ s.now < s.smb.deadUntil) →
    i ∈ [Instr.clearFaults, .statusWord, .statusInput, .statusTemperature, .readVin, .readIin, .readTemperature1, .readTemperature2, .readTemperature3, .readPin,
         .pmbusRevision, .alertResponse] → exec i s = .next s) ∧
  (∀ s : State, s.dev.phase ≠ .off → s.smb.deadUntil ≤ s.now →
    let v := s.smb
    let out := fun bs : Bytes => ({ v with readOut := v.readOut ++ [bs] } : Smb)
    let inputBits := bitAt v.ovFault 7 + bitAt v.ovWarn 6 + bitAt v.uvWarn 5
    let tempBits := bitAt v.otFault 7 + bitAt v.otWarn 6
    let wordBits := bitAt (inputBits != 0) 13 + bitAt (tempBits != 0) 2 + bitAt v.commFault 1
    exec .clearFaults s = .next (s.setSmb { v with commFault := false, uvWarn := false, ovWarn := false, ovFault := false, otWarn := false, otFault := false }) ∧
    exec .statusWord s = .next (s.setSmb { out (smbWord wordBits) with commFault := false }) ∧
    exec .statusInput s = .next (s.setSmb { out (beBytes 1 inputBits) with uvWarn := v.uvWarn && s.dev.inputWarnUv, ovWarn := v.ovWarn && s.dev.inputWarnOv, ovFault := v.ovFault && s.heldBy .overVoltage }) ∧
    exec .statusTemperature s = .next (s.setSmb { out (beBytes 1 tempBits) with otWarn := v.otWarn && s.guard.level != 0, otFault := v.otFault && s.heldBy .trip }) ∧
    exec .readVin s = .next (s.setSmb (out (smbWord (linear11 (-3) s.guard.vin)))) ∧
    exec .readIin s = .next (s.setSmb (out (smbWord (linear11 (-6) (s.guard.iin * 64 / 1000 : Nat))))) ∧
    exec .readTemperature1 s = .next (s.setSmb (out (smbWord (linear11 (-2) s.guard.junction)))) ∧
    exec .readTemperature2 s = .next (s.setSmb (out (smbWord (linear11 (-2) s.guard.lid)))) ∧
    exec .readTemperature3 s = .next (s.setSmb (out (smbWord (linear11 (-2) s.guard.portJunction)))) ∧
    exec .readPin s = .next (s.setSmb (out (smbWord (linear11 (-1) (s.guard.average 10000000 / 4000 : Nat))))) ∧
    exec .pmbusRevision s = .next (s.setSmb (out [0x44#8])) ∧
    (wordBits ≠ 0 ∨ v.replyReady = true → exec .alertResponse s = .next (s.setSmb (out (beBytes 1 (2 * (s.reg .dev 0 0x300).field 6 0))))) ∧
    (wordBits = 0 → v.replyReady = false → exec .alertResponse s = .next s))

/-- The register window of the sideband takes an address and reads a register there, or ones with a communication fault. Its mailbox collects a message of at
most 256 bytes, serves it with the rights that MBOX_OWNER gives, answers by one reply that is read in pieces, and is cleared (R383, R384). Completion is
stated of: mfrRegAddr, mfrRegData, mfrMboxWr, mfrMboxGo, mfrMboxClear, mfrMboxStatus, mfrMboxRd, sidebandReplyReady. Where the rules leave a point open, this
rests on a choice of the model: log entries 28 and 37. -/
def Obligations.SidebandMailboxServes : Prop :=
  (∀ s : State, s.smbRegs = true →
    (∀ a, exec (.mfrRegAddr a) s = .next (s.setSmb { s.smb with regAddr := a })) ∧
    (∀ b k off, regPlace s.smb.regAddr.toNat = some (b, k, off) → s.smb.regAddr.toNat % 4 = 0 → b.sideband off = true → b.occupied off = true →
      let u := s.afterRead b k off
      exec .mfrRegData s = .next (u.setSmb { u.smb with readOut := u.smb.readOut ++ [beBytes 4 (s.regValue b k off).toNat] })) ∧
    ((regPlace s.smb.regAddr.toNat = none ∨ s.smb.regAddr.toNat % 4 ≠ 0) →
      exec .mfrRegData s = .next (s.setSmb { s.smb with commFault := true, readOut := s.smb.readOut ++ [beBytes 4 0xFFFFFFFF] }))) ∧
  (∀ s : State, s.smbMailbox = true →
    (∀ d : Bytes, 1 ≤ d.length → d.length ≤ 128 → exec (.mfrMboxWr d) s =
      .next (s.setSmb { s.smb with mbox := (s.smb.mbox ++ d).take 256, error := s.smb.error || decide (256 < s.smb.mbox.length + d.length) })) ∧
    (∀ d : Bytes, (d = [] ∨ 128 < d.length) → exec (.mfrMboxWr d) s = .next (s.setSmb { s.smb with commFault := true })) ∧
    exec .mfrMboxClear s = .next (s.setSmb { s.smb with mbox := [], reply := if s.smb.replyReady = true then none else s.smb.reply, readPos := 0, replyReady := false, error := false }) ∧
    exec .mfrMboxStatus s = .next (s.setSmb { s.smb with readOut := s.smb.readOut ++ [beBytes 1 (bitAt s.smb.busy 0 + bitAt s.smb.replyReady 1 + bitAt s.smb.error 2)] }) ∧
    (∀ n, s.smb.replyReady = false → exec (.mfrMboxRd n) s = .next (s.setSmb { s.smb with readOut := s.smb.readOut ++ [[]] })) ∧
    (∀ n, s.smb.replyReady = true →
      let bs := slice s.smb.replyBytes s.smb.readPos (min 128 n)
      let pos := s.smb.readPos + bs.length
      exec (.mfrMboxRd n) s = .next (s.setSmb { s.smb with readOut := s.smb.readOut ++ [bs], readPos := pos, replyReady := decide (pos < s.smb.replyBytes.length), reply := if s.smb.replyBytes.length ≤ pos then none else s.smb.reply })) ∧
    (s.smb.busy = true → exec .mfrMboxGo s = .next (s.setSmb { s.smb with error := true })) ∧
    (s.smb.busy = false →
      let raw := s.smb.mbox
      let h := parseHdr3 raw
      let u := s.setSmb { s.smb with busy := true, mbox := [], reply := none, readPos := 0, replyReady := false }
      let c : Ctx := { sess := sidebandSess, part := h.part, handle := h.handle, via := none }
      let box : Mbox := { sess := sidebandSess, left := none, gen := 3, part := h.part, handle := h.handle, opcode := h.opcode, payload := slice raw 32 h.length, complete := true }
      (∀ st, sidebandRefusal raw = some st → exec .mfrMboxGo s = .next (u.reply c h.opcode st [])) ∧
      (sidebandRefusal raw = none → (h.opcode = 0x0604 ∨ (u.isOwner c = false ∧ h.opcode ≠ 0x0606)) → exec .mfrMboxGo s = .next (u.reply c h.opcode .notPermitted [])) ∧
      (sidebandRefusal raw = none → u.isOwner c = true → usesMbox h.opcode = true → exec .mfrMboxGo s =
        .next (u.setLesar { u.lesar with mboxes := u.lesar.mboxes ++ [box] })))) ∧
  (∀ (s : State) (f : OutFrame), s.smb.reply = some f → s.smb.replyReady = false → exec .sidebandReplyReady s =
    .next (s.setSmb { s.smb with busy := s.smb.busy && f.status == .pending, readPos := 0, replyReady := true })) ∧
  (∀ (s : State) (i : Instr) (d : Bytes) (n : Nat), s.smbMailbox = false → i ∈ [Instr.mfrMboxWr d, .mfrMboxGo, .mfrMboxClear, .mfrMboxStatus, .mfrMboxRd n] → exec i s = .next s) ∧
  (∀ (s : State) (a : Word), s.smbRegs = false → exec (.mfrRegAddr a) s = .next s ∧ exec .mfrRegData s = .next s)

/-- DEVICE_RESET is told to the neighbours and waits for the save of the map, then its frames are answered. A core reset clears the work, the sessions, the
LPDDR5X and the scratchpads and the registers of the core, a system reset every register and the ports as well; the NAND tier, the flash and the Keeper's keys
stay. Each source leaves its code and its sticky bit; one that holds the reset does so until it is released, and another that comes in the meantime adds its
hold. Loss of input power switches the device off, until power returns (R426 to R432, R440, R441). Completion is stated of: deviceReset, deviceResetMapSaved,
coreReset, systemReset, powerOnReset, resetN, resetNRelease, watchdogExpiry, watchdogRestart, clockLoss, clockRecovery, underVoltageWarning,
underVoltageFault, overVoltageWarning, overVoltageFault, overVoltageRecovery, voltageWarningEnd. Where the rules leave a point open, this rests on a choice of
the model: log entries 31 and 73. -/
def Obligations.ResetsClear : Prop :=
  (∀ (s : State) (c : Ctx) (lv : Nat), s.accepts c 0x0603 .keeperEarly true → lv < 2 →
    let i : Instr := .deviceReset c (beBytes 1 lv ++ beBytes 3 0)
    let m := s.freeMbox c 0x0603
    let d : Dev := if s.dev.actQueued.isSome = true then { s.dev with actQueued := none, pendingImage := none } else s.dev
    (s.dev.reset = none → completes i s (fun t => t.setVeolo s.veolo = m.setDev { d with reset := some { ctxs := [c], system := lv == 1, activation := false, saved := false } })) ∧
    (∀ j, s.dev.reset = some j → j.saved = false → exec i s = .next (m.setDev { d with reset := some { j with system := j.system || lv == 1, ctxs := j.ctxs ++ [c] } })) ∧
    (∀ j, s.dev.reset = some j → j.saved = true → exec i s = .next ((m.setDev { d with reset := some { j with system := j.system || lv == 1 } }).reply c 0x0603 .ok []))) ∧
  (∀ (s : State) (j : ResetJob), s.dev.reset = some j → j.saved = false → exec .deviceResetMapSaved s =
    .next (j.ctxs.foldl (fun u c => u.reply c 0x0603 .ok []) ((s.setDev { s.dev with reset := some { j with saved := true, ctxs := [] } }).setNand
      { s.nand with written := 0, saved := s.nand.map }))) ∧
  (∀ (s : State) (j : ResetJob), s.dev.reset = some j → j.saved = true → j.system = false → completes .coreReset s (fun t =>
    (t.parts = [] ∧ t.tiles = [] ∧ t.tombs = [] ∧ t.lender.loans = [] ∧ t.lesar.sessions = [] ∧ t.lesar.mboxes = [] ∧ t.mem.scratch = [] ∧ t.mem.dram = [] ∧
      t.mem.nand = s.mem.nand ∧ t.mem.flash = s.mem.flash ∧ t.keeper = { s.keeper with bind := none }) ∧
    t.eth = s.eth ∧ t.guard = s.guard ∧ t.veolo.num = s.veolo.num ∧ t.dev.phase = .portDie ∧ t.dev.lastCause = (if j.activation = true then 8 else 7) ∧
    t.dev.sticky = s.dev.sticky ||| 2 ^ (if j.activation = true then 8 else 7) ∧ t.dev.reset = none ∧
    (∀ a, (∃ b ∈ coreBlocks, b.covers a = true) → NMap.find t.regs a = none) ∧
    (∀ a, (∀ b ∈ coreBlocks, b.covers a = false) → a ≠ Blk.at .dev 0 0x104 → NMap.find t.regs a = NMap.find s.regs a))) ∧
  (∀ (s : State) (i : Instr) (code : Nat) (hold : Option Hold),
    ((i, code, hold) ∈ [(Instr.watchdogExpiry, 2, none), (.resetN, 1, some .pin), (.clockLoss, 5, some .clock), (.overVoltageFault, 6, some .overVoltage)] ∨
      (i = .systemReset ∧ code = 3 ∧ hold = none ∧ ∃ j, s.dev.reset = some j ∧ j.saved = true ∧ j.system = true)) →
    (s.dev.phase ≠ .off → s.dev.phase ≠ .held → completes i s (fun t =>
      (t.parts = [] ∧ t.tiles = [] ∧ t.tombs = [] ∧ t.lender.loans = [] ∧ t.lesar.sessions = [] ∧ t.lesar.mboxes = [] ∧ t.mem.scratch = [] ∧ t.mem.dram = [] ∧
        t.mem.nand = s.mem.nand ∧ t.mem.flash = s.mem.flash ∧ t.keeper = { s.keeper with bind := none }) ∧
      t.regs = [] ∧ t.eth = [] ∧ t.guard.level = 0 ∧ t.veolo.numValid = false ∧ t.dev.lastCause = code ∧ t.dev.sticky = s.dev.sticky ||| 2 ^ code ∧
      (hold = none → t.dev.phase = .rom ∧ t.dev.holds = [] ∧ t.dev.bootSrc = s.dev.bootSrcPins) ∧
      (∀ h, hold = some h → t.dev.phase = .held ∧ t.dev.holds = [h] ∧ t.dev.faultLow = true))) ∧
    (s.dev.phase = .held → (∃ h, hold = some h) → completes i s (fun t => t.mem = s.mem ∧ t.regs = s.regs ∧ t.dev.phase = .held ∧ t.dev.sticky = s.dev.sticky ||| 2 ^ code ∧
      (∀ h, h ∈ t.dev.holds ↔ h ∈ s.dev.holds ∨ hold = some h)))) ∧
  (∀ (s : State) (i : Instr) (h : Hold), (i, h) ∈ [(Instr.resetNRelease, Hold.pin), (.clockRecovery, .clock), (.overVoltageRecovery, .overVoltage)] →
    s.dev.phase = .held → h ∈ s.dev.holds →
    let d : Dev := if h = .clock then { s.dev with locked := true } else s.dev
    let left := s.dev.holds.filter (· != h)
    (left = [] → exec i s = .next (s.setDev { d with phase := .rom, holds := [], bootSrc := d.bootSrcPins, clkMode := d.clkModePins, faultLow := false, wdogMs := 2000 })) ∧
    (left ≠ [] → exec i s = .next (s.setDev { d with holds := left }))) ∧
  (∀ s : State, s.dev.phase = .off → completes .powerOnReset s (fun t => t.parts = [] ∧ t.lesar.sessions = [] ∧ t.mem.scratch = [] ∧ t.mem.dram = [] ∧
    t.mem.nand = s.mem.nand ∧ t.mem.flash = s.mem.flash ∧ t.regs = [] ∧ t.eth = [] ∧ t.dev.phase = .rom ∧ t.dev.lastCause = 0 ∧ t.dev.sticky = 1 ∧ t.dev.powerGood = true ∧
    t.dev.bootSrc = s.dev.bootSrcPins)) ∧
  (∀ s : State, s.dev.phase ≠ .off →
    completes .underVoltageFault s (fun t => t.parts = [] ∧ t.lesar.sessions = [] ∧ t.mem.scratch = [] ∧ t.mem.dram = [] ∧ t.mem.nand = s.mem.nand ∧
      t.mem.flash = s.mem.flash ∧ t.regs = [] ∧ t.eth = [] ∧ t.dev.phase = .off ∧ t.dev.powerGood = false) ∧
    exec .underVoltageWarning s = .next ((s.setSmb { s.smb with uvWarn := true }).setDev { s.dev with inputWarnUv := true }) ∧
    exec .overVoltageWarning s = .next ((s.setSmb { s.smb with ovWarn := true }).setDev { s.dev with inputWarnOv := true })) ∧
  (∀ s : State, (s.dev.inputWarnOv = true → exec (.voltageWarningEnd true) s = .next (s.setDev { s.dev with inputWarnOv := false })) ∧
    (s.dev.inputWarnUv = true → exec (.voltageWarningEnd false) s = .next (s.setDev { s.dev with inputWarnUv := false })) ∧
    (s.dev.phase ∈ [Phase.runtime, .checked, .portDie, .trained, .ready, .running, .recovery] → exec .watchdogRestart s = .next (s.setDev { s.dev with wdogMs := 1000 })))

/-- A sample of the power guard takes its readings and forms the level: from NORMAL a condition asks for LEVEL1 or LEVEL2 at the figures of Table 12, the
highest counts. A junction, the lid, the power or the current beyond the TRIP figures for their time resets the device and holds it, until after at least 1 s
every condition asks for NORMAL (R443 to R446). Completion is stated of: guardSample, tripRelease. -/
def Obligations.PowerGuardActs : Prop :=
  (∀ (s : State) (g : GuardReading) (l : List Int), s.dev.phase ≠ .off → g.junctions = some l → l.length = 64 →
    let now := max s.now g.now
    let rd := s.guard.read g now
    let new := rd.judge now ((s.reg .pg 0 4).field 7 0)
    let trip := (∃ t, new.hot = some t ∧ t + 100000 ≤ now) ∨ 392 ≤ new.lid ∨ 320 * 8000 ≤ new.average 100000 ∨ ∃ t, new.overSince = some t ∧ t + 10000 ≤ now
    (¬trip → completes (.guardSample g) s (fun t => { t.guard with thinNs := new.thinNs } = new ∧ t.now = now ∧ t.dev = s.dev ∧ t.mem = s.mem ∧ t.parts = s.parts ∧
      t.smb.otWarn = (s.smb.otWarn || new.level != 0))) ∧
    (trip → s.dev.phase ≠ .held → completes (.guardSample g) s (fun t => t.dev.phase = .held ∧ t.dev.holds = [.trip] ∧ t.dev.faultLow = true ∧ t.dev.lastCause = 4 ∧
      t.dev.sticky = s.dev.sticky ||| 16 ∧ t.guard.tripAt = now ∧ t.guard.level = new.level ∧ t.smb.otFault = true ∧ t.parts = [] ∧ t.lesar.sessions = [])) ∧
    (rd.vin = g.vin ∧ rd.iin = g.iin ∧ rd.lid = g.lid.getD s.guard.lid ∧ rd.portJunction = g.portJunction.getD s.guard.portJunction ∧ (∀ v ∈ l, v ≤ rd.junction) ∧ rd.junction ∈ l) ∧
    (s.guard.causeJ = 0 → s.guard.causeL = 0 → s.guard.causeP = 0 → s.guard.below = [] →
      let cap : Nat := (s.reg .pg 0 4).field 7 0
      let lvl := fun (a b v : Int) => if b ≤ v then 2 else if a ≤ v then 1 else 0
      new.level = max (lvl 400 412 rd.junction) (max (lvl 352 368 rd.lid) (lvl (cap * 8000) ((cap + 15) * 8000) (rd.average 10000000))))) ∧
  (∀ s : State, s.dev.phase = .held → Hold.trip ∈ s.dev.holds → s.guard.tripAt + 1000000000 ≤ s.now → s.guard.level = 0 → s.guard.trips s.now = false →
    let left := s.dev.holds.filter (· != .trip)
    (left = [] → exec .tripRelease s = .next (s.setDev { s.dev with phase := .rom, holds := [], bootSrc := s.dev.bootSrcPins, clkMode := s.dev.clkModePins, faultLow := false, wdogMs := 2000 })) ∧
    (left ≠ [] → exec .tripRelease s = .next (s.setDev { s.dev with holds := left })))

/-- The start runs from the Keeper ROM, which scans the flash and starts as BOOT_SRC says, by the runtime, which counts its starts and goes to recovery after
four without a success, to the Port die, whose links hail, the training of the memory and READY_FOR_FIRMWARE, with which the frames held so far are processed.
In network boot the ROM takes one image from one source (R344, R351, R391 to R394). Completion is stated of: keeperRomStart, keeperRuntimeStart,
portDieRelease, dramTrainingComplete, readyForFirmware, startFrameHold, networkBootImage. Where the rules leave a point open, this rests on a choice of the
model: log entries 5 and 69. -/
def Obligations.StartSequenceRuns : Prop :=
  (∀ s : State, s.dev.phase = .rom →
    let s1 := s.scanFlash
    let s2 := s1.setVeolo { s1.veolo with numValid := s1.params.numValid, num := s1.params.devNum, topo := s1.params.topo }
    (∀ t other, s.dev.bootSrc = 0 → s2.bootTwin = some (t, other) → exec .keeperRomStart s =
      .next ((s2.setDev { s.dev with phase := .runtime, rtImage := s2.twinImage t, rtFromNet := false }).setFlash { s2.flash with fallback := other })) ∧
    ((s.dev.bootSrc = 0 ∧ s2.bootTwin = none ∨ s.dev.bootSrc = 2) → exec .keeperRomStart s = .next (s2.setDev { s.dev with phase := .recovery })) ∧
    (s.dev.bootSrc = 1 → exec .keeperRomStart s = .next (s2.setDev { s.dev with phase := .netBoot })) ∧
    (3 ≤ s.dev.bootSrc → exec .keeperRomStart s = .next (s2.setDev { s.dev with phase := .factory }))) ∧
  (∀ (s : State) (hb : List Nat), s.dev.phase = .runtime →
    let s1 := s.mendRings
    let s2 := s1.setFlash { s1.flash with blankOk := s1.flash.half.map (fun n => (n, hb.contains n)) }
    let s3 := s2.counter 0x11
    (s2.flash.starts < 3 → exec (.keeperRuntimeStart hb) s = .next (s3.setDev { s3.dev with phase := .checked, wdogMs := 1000 })) ∧
    (s2.flash.starts = 3 → exec (.keeperRuntimeStart hb) s = .next (s3.setDev { s3.dev with phase := .recovery, wdogMs := 1000 })) ∧
    (4 ≤ s2.flash.starts → exec (.keeperRuntimeStart hb) s = .next (s2.setDev { s2.dev with phase := .recovery, wdogMs := 1000 }))) ∧
  (∀ s : State, s.dev.phase = .checked → completes .portDieRelease s (fun t => t.dev = { s.dev with phase := .portDie } ∧ t.mem = { s.mem with scratch := [] } ∧ ∀ i, i < 8 →
    ((s.link i).st = .disabled → t.link i = s.link i) ∧ (s.veolo.numValid = true → s.expected (i / 2) = none → t.link i = s.link i) ∧
    ((s.link i).st ≠ .disabled → (s.veolo.numValid = false ∨ (s.expected (i / 2)).isSome = true) → t.link i = { s.link i with st := .hail, equalHails := 0 }))) ∧
  (∀ (s : State) (bad : List Nat), s.dev.phase = .portDie → (∀ k ∈ bad, k < 64) → completes (.dramTrainingComplete bad) s (fun t => t.dev = { s.dev with phase := .trained } ∧
    t.mem = s.mem ∧ t.parts = s.parts ∧ t.dram.calFails = [] ∧ (∀ k, k ∈ t.dram.failed ↔ k ∈ bad) ∧ (bad = [] → t.lesar = s.lesar))) ∧
  (∀ (s : State) (ms : Nat), s.dev.phase = .trained →
    let s1 := (s.setLesar { s.lesar with startBuf := [] }).setDev { s.dev with phase := .ready, readyMs := min 0xFFFF ms, activating := false }
    (s.dev.activating = false ∨ s.dev.pendingImage = none → (s.lesar.startBuf = [] → exec (.readyForFirmware ms) s = .next s1) ∧
      (∀ via raw, s.lesar.startBuf = [(via, raw)] → exec (.readyForFirmware ms) s = s1.lesarFrame via raw)) ∧
    (∀ img, s.dev.activating = true → s.dev.pendingImage = some img → s.lesar.startBuf = [] → imageCheck 2 img = none → s.compatible img s.dev.pendingGen = true →
      exec (.readyForFirmware ms) s = .next (s1.setDev { s1.dev with pendingImage := none, fwImage := img, fwAwait := some none, heartbeats := 0 }))) ∧
  (∀ (s : State) (via : Via) (raw : Bytes), (s.dev.phase = .portDie ∨ s.dev.phase = .trained) → (parseHdr raw).kind ≠ 5 → (parseHdr raw).kind ≠ 6 →
    let b := s.lesar.startBuf
    let room := b.length < 64 ∧ (b.filter (fun e => e.1.src == via.src)).length < 8
    (room → exec (.startFrameHold via raw) s = .next (s.setLesar { s.lesar with startBuf := b ++ [(via, raw)] })) ∧
    (¬room → exec (.startFrameHold via raw) s = .next (s.setDev { s.dev with startDrops := min 0xFFFFFFFF (s.dev.startDrops + 1) }))) ∧
  (∀ (s : State) (via : Via) (handle : Nat) (pl : Bytes), s.dev.phase = .netBoot → via.port = 0 →
    let c : Ctx := { sess := 0xFFFF, part := 0xFFFF, handle := handle, via := some via }
    let say := fun (u : State) (st : Status) => u.sendBare via (replyFrame c 0x0601 st 48 [])
    let fl := beAt pl 0 1
    let data := pl.drop 8
    let good := 8 ≤ pl.length ∧ fl < 4 ∧ beAt pl 1 3 = 0 ∧ beAt pl 4 4 % 16 = 0 ∧ data.length % 16 = 0 ∧ data.length ≤ 4080
    let ended := s.setDev { s.dev with load := none, netSrc := none }
    ((∃ n, s.dev.netSrc = some n ∧ n ≠ via.src) → exec (.networkBootImage via handle pl) s = .next (say s .notPermitted)) ∧
    ((∀ n, s.dev.netSrc = some n → n = via.src) → ¬good → exec (.networkBootImage via handle pl) s = .next (say s .badFrame)) ∧
    (∀ bs, (∀ n, s.dev.netSrc = some n → n = via.src) → good → (if fl % 2 = 1 then some [] else s.dev.load.map (·.bytes)) = some bs →
      let img := bs ++ data
      ((beAt pl 4 4 ≠ bs.length ∨ 16777216 < img.length) → exec (.networkBootImage via handle pl) s = .next (say ended .badFrame)) ∧
      (beAt pl 4 4 = bs.length → img.length ≤ 16777216 →
        (fl / 2 % 2 = 0 → exec (.networkBootImage via handle pl) s =
          .next (say (s.setDev { s.dev with netSrc := some via.src, load := some { sess := 0xFFFF, ctx := c, gen := 3, bytes := img, last := false } }) .ok)) ∧
        (fl / 2 % 2 = 1 → imageCheck 1 img = none → imageVersion img < s.params.floor → exec (.networkBootImage via handle pl) s = .next (say ended .notPermitted)) ∧
        (fl / 2 % 2 = 1 → imageCheck 1 img = none → s.params.floor ≤ imageVersion img → exec (.networkBootImage via handle pl) s =
          .next (say (s.setDev { s.dev with load := none, netSrc := none, rtImage := img, rtFromNet := true, phase := .runtime }) .ok)))))

/-- ATTEST is answered with the quote of Table 5: the nonce as sent, the digests of what the device is and runs, what it owns and has bound, the partition's
model and quads, and a signature of all of it. GET_CERTS answers the certificates. SET_KEY registers and removes the public keys of the owner, the signers and
the partition owners, and SEC_KEY a key of link security, whose wrapped key must open (R406, R407, R411, R413, R416). Completion is stated of: attest, setKey,
getCerts, secKey. Where the rules leave a point open, this rests on a choice of the model: log entries 34, 64 and 71. -/
def Obligations.QuotesAndKeys : Prop :=
  (∀ (s : State) (c : Ctx) (pl : Bytes), s.accepts c 0x0801 .keeperEarly false →
    let m := s.freeMbox c 0x0801
    (pl.length ≠ 32 → exec (.attest c pl) s = .next (m.reply c 0x0801 .badFrame [])) ∧
    (pl.length = 32 → c.part ≠ 0xFFFF → s.part c.part = none → exec (.attest c pl) s = .next (m.reply c 0x0801 .notPermitted [])) ∧
    (pl.length = 32 → (c.part = 0xFFFF ∨ (s.part c.part).isSome = true) → ∃ q : Bytes,
      exec (.attest c pl) s = .next ((m.bump .kpr 0 0x08 1).reply c 0x0801 .ok q) ∧ q.length = 448 ∧
      beAt q 0 4 = 0x51554F54 ∧ beAt q 4 1 = 1 ∧ beAt q 5 1 = Phase.state s.dev.phase % 256 ∧ beAt q 6 2 = c.part % 65536 ∧ beAt q 8 2 = s.numField % 65536 ∧ beAt q 10 2 = 0 ∧
      beAt q 12 4 = imageVersion s.dev.rtImage % 2 ^ 32 ∧ beAt q 16 4 = s.dev.fwVersion % 2 ^ 32 ∧ beAt q 20 4 = s.params.floor % 2 ^ 32 ∧ beAt q 24 8 = s.now % 2 ^ 64 ∧ slice q 32 32 = pl ∧
      slice q 64 32 = padTo 32 (Config.sm3 Config.identityKey) ∧ slice q 96 32 = padTo 32 (Config.sm3 s.dev.rtImage) ∧
      (s.dev.phase = .running → slice q 128 32 = padTo 32 (Config.sm3 s.dev.fwImage)) ∧ (s.dev.phase ≠ .running → slice q 128 32 = List.replicate 32 0#8) ∧
      (∀ img, s.dev.pendingImage = some img → slice q 160 32 = padTo 32 (Config.sm3 img)) ∧ (s.dev.pendingImage = none → slice q 160 32 = List.replicate 32 0#8) ∧
      (∀ k, s.keeper.ownerKey = some k → slice q 192 32 = padTo 32 (Config.sm3 k)) ∧ (s.keeper.ownerKey = none → slice q 192 32 = List.replicate 32 0#8) ∧
      (s.keeper.sets = [] → slice q 224 32 = List.replicate 32 0#8) ∧
      (s.keeper.sets ≠ [] → ∃ ids : List Bytes, ids.Perm (s.keeper.sets.map (·.setId)) ∧ ids.Pairwise (fun a b => ofBe a ≤ ofBe b) ∧ slice q 224 32 = padTo 32 (Config.sm3 ids.flatten)) ∧ slice q 256 128 = quotePart (s.part c.part) ∧
      slice q 384 64 = padTo 64 (Config.identitySign (q.take 384)))) ∧
  (∀ (s : State) (c : Ctx) (pl : Bytes), s.accepts c 0x0804 .keeper false →
    exec (.getCerts c pl) s = .next (if pl = [] then (s.freeMbox c 0x0804).reply c 0x0804 .ok (Config.certs.take 4096)
      else (s.freeMbox c 0x0804).reply c 0x0804 .badFrame [])) ∧
  (∀ (s : State) (c : Ctx) (pl : Bytes), s.accepts c 0x0803 .keeper true →
    let m := s.freeMbox c 0x0803
    let i := beAt pl 1 1
    let key := slice pl 4 65
    let none0 := key.all (· == 0#8) = true
    let good := pl.length = 72 ∧ beAt pl 0 1 ≤ 2 ∧ i ≤ (match beAt pl 0 1 with | 0 => 0 | 1 => 7 | _ => 127) ∧ beAt pl 2 2 = 0 ∧ beAt pl 69 3 = 0 ∧
      (none0 ∨ key.headD 0#8 = 4#8 ∧ Config.onCurve key = true)
    let ok := fun (u : State) => exec (.setKey c pl) s = .next (u.reply c 0x0803 .ok [])
    (¬good → exec (.setKey c pl) s = .next (m.reply c 0x0803 .badFrame [])) ∧
    (good → beAt pl 0 1 = 0 → none0 → s.parts ≠ [] → exec (.setKey c pl) s = .next (m.reply c 0x0803 .notPermitted [])) ∧
    (good → beAt pl 0 1 = 0 → none0 → s.parts = [] → ok (m.setKeeper { s.keeper with ownerKey := none, ownerMark := 0, commandMark := 0, lastCommand := none, signers := [], sets := [], bind := none })) ∧
    (good → beAt pl 0 1 = 0 → ¬none0 → ok (m.setKeeper { s.keeper with ownerKey := some key, ownerMark := 0, commandMark := 0, lastCommand := none })) ∧
    (good → beAt pl 0 1 = 1 → none0 → ok (m.setKeeper { s.keeper with signers := NMap.erase s.keeper.signers i })) ∧
    (good → beAt pl 0 1 = 1 → ¬none0 → ok (m.setKeeper { s.keeper with signers := NMap.insert s.keeper.signers i key })) ∧
    (good → beAt pl 0 1 = 2 → s.part i = none → exec (.setKey c pl) s = .next (m.reply c 0x0803 .notPermitted [])) ∧
    (∀ pt, good → beAt pl 0 1 = 2 → s.part i = some pt → ∃ u : State, onlyPart m u i ∧
      (none0 → u.part i = some { pt with ownerKey := none, ownerMark := 0 }) ∧ (¬none0 → u.part i = some { pt with ownerKey := some key, ownerMark := 0 }) ∧ ok u)) ∧
  (∀ (s : State) (c : Ctx) (pl : Bytes), s.accepts c 0x0805 .keeper true →
    let m := s.freeMbox c 0x0805
    let port := beAt pl 0 1
    let dir := beAt pl 1 1
    let an := beAt pl 2 1
    let good := pl.length = 168 ∧ port ≤ 3 ∧ dir ≤ 1 ∧ an ≤ 3 ∧ beAt pl 3 1 = 0 ∧ beAt pl 165 3 = 0
    (¬good → exec (.secKey c pl) s = .next (m.reply c 0x0805 .badFrame [])) ∧
    (good → Config.unwrap (slice pl 36 129) = none → exec (.secKey c pl) s = .next (m.reply c 0x0805 .digestMismatch [])) ∧
    (∀ sak, good → Config.unwrap (slice pl 36 129) = some sak → ∃ old : List (Nat × Nat),
      let v : SecKeyEntry := { ssci := beAt pl 4 4, sci := beAt pl 8 8, nextPn := beAt pl 16 8, salt := slice pl 24 12, sak := sak }
      exec (.secKey c pl) s = .next ((m.setKeeper { s.keeper with secKeys := NMap.insert s.keeper.secKeys (8 * port + 4 * dir + an) v, secOld := old }).reply c 0x0805 .ok []) ∧
      (∀ q, q ≠ (port, dir) → (q ∈ old ↔ q ∈ s.keeper.secOld)) ∧
      ((port, dir) ∈ old ↔ ∃ e ∈ s.keeper.secKeys, e.1 / 4 = 2 * port + dir ∧ e.1 ≠ 8 * port + 4 * dir + an)))

/-- BIND_SET gathers a certificate and then the wrapped key, each without gaps, and checks both at LAST in the order of R414; a device set that passes is kept
with its identity, this module's number in it and its private key. A BIND_SET without a message for 10 s is forgotten (R414). Completion is stated of:
bindSet, bindSetTimeout. Where the rules leave a point open, this rests on a choice of the model: log entries 34, 44 and 71. -/
def Obligations.DeviceSetsAreBound : Prop :=
  (∀ (s : State) (c : Ctx) (pl : Bytes), s.accepts c 0x0802 .keeper true →
    let m := s.freeMbox c 0x0802
    let fl := beAt pl 0 1
    let part := beAt pl 1 1
    let off := beAt pl 4 4
    let d := pl.drop 8
    let good := 8 ≤ pl.length ∧ fl < 4 ∧ part ≤ 1 ∧ beAt pl 2 2 = 0 ∧ d.length ≤ 4080
    let job : Option BindJob := if fl % 2 = 1 then some { sess := c.sess, cert := [], key := [], part := 0 } else s.keeper.bind
    let follows := fun (j : BindJob) => if part = 0 then j.part = 0 ∧ off = j.cert.length ∧ off + d.length ≤ 147680
      else off = j.key.length ∧ j.cert ≠ [] ∧ off + d.length ≤ 129
    let next := fun (j : BindJob) => if part = 0 then { j with cert := j.cert ++ d } else { j with part := 1, key := j.key ++ d }
    let ended := m.setKeeper { s.keeper with bind := none }
    let answers := fun (u : State) (st : Status) => exec (.bindSet c pl) s = .next (u.reply c 0x0802 st [])
    (¬good → answers m .badFrame) ∧
    (∀ j, good → s.keeper.bind = some j → j.sess ≠ c.sess → answers m .notPermitted) ∧
    (good → (∀ j, s.keeper.bind = some j → j.sess = c.sess) → (job = none ∨ ∃ j, job = some j ∧ ¬follows j) → answers ended .badFrame) ∧
    (∀ j, good → (∀ j, s.keeper.bind = some j → j.sess = c.sess) → job = some j → follows j →
      (fl / 2 % 2 = 0 → answers (m.setKeeper { s.keeper with bind := some (next j) }) .ok) ∧
      (fl / 2 % 2 = 1 →
        let cert := (next j).cert
        let key := (next j).key
        let n := beAt cert 6 2
        let form := beAt cert 0 4 = 0x53455443 ∧ beAt cert 4 1 = 1 ∧ beAt cert 5 1 = 0 ∧ 1 ≤ n ∧ n ≤ 4096 ∧ cert.length = 128 + 36 * n + 96 ∧ beAt cert 12 1 = 4 ∧
          (slice cert 77 51).all (· == 0#8) = true ∧ ∀ k, k < n → beAt (slice cert (128 + 36 * k) 36) 0 2 < 4096 ∧ beAt (slice cert (128 + 36 * k) 36) 2 2 = 0
        let signed := ∃ e ∈ s.keeper.signers, Config.sm3 e.2 = slice cert (cert.length - 96) 32 ∧
          Config.sm2Verify e.2 (cert.take (cert.length - 96)) (cert.drop (cert.length - 64)) = true
        let mine := fun (k : Nat) => slice (slice cert (128 + 36 * k) 36) 4 32 = Config.sm3 Config.identityKey
        let opens := fun (priv : Bytes) => key.length = 129 ∧ Config.unwrap key = some priv ∧ Config.keyMatches cert priv = true
        let id := Config.sm3 cert
        (¬form → answers ended .badFrame) ∧
        (form → ¬signed → answers (ended.bump .kpr 0 0x04 1) .signatureInvalid) ∧
        (form → signed → (∀ k, k < n → ¬mine k) → answers ended .notBound) ∧
        (∀ k, form → signed → k < n → mine k → (∀ k', k' < k → ¬mine k') →
          ((∀ priv, ¬opens priv) → answers ended .digestMismatch) ∧
          (∀ priv, opens priv →
            ((∃ b ∈ s.keeper.sets, b.setId = id) → answers ended .ok) ∧
            ((∀ b ∈ s.keeper.sets, b.setId ≠ id) → 16 ≤ s.keeper.sets.length → answers ended .noResource) ∧
            ((∀ b ∈ s.keeper.sets, b.setId ≠ id) → s.keeper.sets.length < 16 →
              let b : BoundSet := { setId := id, setKey := slice cert 12 65, devNum := beAt (slice cert (128 + 36 * k) 36) 0 2, priv := priv }
              answers (m.setKeeper { s.keeper with bind := none, sets := s.keeper.sets ++ [b] }) .ok)))))) ∧
  (∀ s : State, s.keeper.bind ≠ none → exec .bindSetTimeout s = .next (s.setKeeper { s.keeper with bind := none }))

/-- CREATE_PARTITION refuses what Table 7 rules out, what exists or is used, and what is not free; otherwise the partition holds the quads it names and free
extents in increasing number, has no model and its registers stand at reset. SET_ENDPOINT changes an endpoint at once. RESIZE_PARTITION is checked when it is
accepted and reserves what it adds until its meridian (R418, R419, R485). Completion is stated of: createPartition, resizePartition, setEndpoint. Where the
rules leave a point open, this rests on a choice of the model: log entries 64 and 70. -/
def Obligations.PartitionsAreMade : Prop :=
  (∀ (s : State) (c : Ctx) (pl : Bytes), s.accepts c 0x0501 .firmware true →
    let m := s.freeMbox c 0x0501
    let p := beAt pl 0 1
    let quads := (List.range 128).filter (fun q => ((slice pl 4 16).getD (q / 8) 0#8).toNat / 2 ^ (q % 8) % 2 == 1)
    let e := (beAt pl 28 6, beAt pl 34 2, beAt pl 36 4, beAt pl 40 16)
    let key := slice pl 64 65
    let named := c.part = 0xFFFF ∨ c.part = p
    let good := pl.length = 132 ∧ p ≤ 127 ∧ beAt pl 1 1 ≤ 7 ∧ beAt pl 2 2 = 0 ∧ quads ≠ [] ∧ 1 ≤ beAt pl 20 2 ∧ beAt pl 20 2 ≤ 984 ∧ beAt pl 22 2 ≤ 225 ∧
      beAt pl 24 4 ≤ 1048576 ∧ e.1 / 2 ^ 40 % 2 = 0 ∧ e.2.1 ≤ 4094 ∧ beAt pl 56 1 ≤ 1 ∧ beAt pl 57 7 = 0 ∧ beAt pl 129 3 = 0 ∧
      (if beAt pl 56 1 = 1 then key.length = 65 ∧ key.headD 0#8 = 4#8 ∧ Config.onCurve key = true else key.all (· == 0#8) = true)
    let used := (s.part p).isSome = true ∨ s.addressUsed p e = true
    let lacks := (∃ q ∈ quads, s.quadFree q = false) ∨ s.freeDram.length < beAt pl 20 2 ∨ s.freeNand.length < beAt pl 22 2 ∨ 1048576 < s.quotaTaken p + beAt pl 24 4
    (¬(named ∧ good) → exec (.createPartition c pl) s = .next (m.reply c 0x0501 .badFrame [])) ∧
    (named → good → used → exec (.createPartition c pl) s = .next (m.reply c 0x0501 .notPermitted [])) ∧
    (named → good → ¬used → lacks → exec (.createPartition c pl) s = .next (m.reply c 0x0501 .noResource [])) ∧
    (named → good → ¬used → ¬lacks → ∃ (u : State) (pt : Part), exec (.createPartition c pl) s = .next (u.reply c 0x0501 .ok []) ∧ u.part p = some pt ∧
      (∀ q, q ≠ p → u.part q = s.part q) ∧
      (pt.cls = beAt pl 1 1 ∧ pt.quads = quads ∧ pt.dram = s.freeDram.take (beAt pl 20 2) ∧ pt.nand = s.freeNand.take (beAt pl 22 2) ∧
        (pt.mac, pt.vid, pt.ip4, pt.ip6) = e ∧ pt.ownerKey = (if beAt pl 56 1 = 1 then some key else none)) ∧
      (pt.mstate = .empty ∧ pt.image = none ∧ pt.reqs = [] ∧ pt.streams = [] ∧ pt.insets = [] ∧ pt.sheets = [] ∧ pt.gzState = 0 ∧ pt.resetting = none ∧ pt.staged = Staged.none ∧ pt.contentKeys = []) ∧
      ((u.reg .gz p 0).field 20 0 = beAt pl 24 4 ∧ (u.reg .grat p 0).field 24 16 = 4 * quads.headD 0 ∧ ∀ b, b = Blk.part ∨ b ∈ partBlocks → ∀ a, b.at p 0 ≤ a → a < b.at (p + 1) 0 →
        a ≠ Blk.at .gz p 0 → a ≠ Blk.at .grat p 0 → NMap.find u.regs a = none) ∧
      (u.mem.dram = s.mem.dram ∧ u.mem.scratch = s.mem.scratch ∧ u.tiles = s.tiles ∧ u.keeper = s.keeper ∧ u.lesar = m.lesar))) ∧
  (∀ (s : State) (c : Ctx) (pl : Bytes) (pt : Part), s.accepts c 0x0505 .firmware true → s.part c.part = some pt →
    let m := s.freeMbox c 0x0505
    let e := (beAt pl 0 6, beAt pl 6 2, beAt pl 8 4, beAt pl 12 16)
    let good := pl.length = 28 ∧ e.1 / 2 ^ 40 % 2 = 0 ∧ e.2.1 ≤ 4094
    (pt.resetting ≠ none → exec (.setEndpoint c pl) s = .next (m.reply c 0x0505 .busyRecovery [])) ∧
    (pt.resetting = none → ¬good → exec (.setEndpoint c pl) s = .next (m.reply c 0x0505 .badFrame [])) ∧
    (pt.resetting = none → good → s.addressUsed c.part e = true → exec (.setEndpoint c pl) s = .next (m.reply c 0x0505 .notPermitted [])) ∧
    (pt.resetting = none → good → s.addressUsed c.part e = false → ∃ u : State, onlyPart m u c.part ∧
      u.part c.part = some { pt with mac := e.1, vid := e.2.1, ip4 := e.2.2.1, ip6 := e.2.2.2 } ∧ exec (.setEndpoint c pl) s = .next (u.reply c 0x0505 .ok []))) ∧
  (∀ (s : State) (c : Ctx) (pl : Bytes), s.accepts c 0x0505 .firmware true → s.part c.part = none →
    exec (.setEndpoint c pl) s = .next ((s.freeMbox c 0x0505).reply c 0x0505 .notPermitted [])) ∧
  (∀ (s : State) (c : Ctx) (pl : Bytes), s.accepts c 0x0502 .firmware true →
    let m := s.freeMbox c 0x0502
    let p := beAt pl 0 1
    let fl := beAt pl 2 1
    let quads := (List.range 128).filter (fun q => ((slice pl 4 16).getD (q / 8) 0#8).toNat / 2 ^ (q % 8) % 2 == 1)
    let dram := beAt pl 20 2
    let nand := beAt pl 22 2
    let good := pl.length = 28 ∧ p ≤ 127 ∧ beAt pl 1 1 ≤ 7 ∧ fl < 16 ∧ beAt pl 3 1 = 0 ∧ (fl % 2 = 1 → quads ≠ []) ∧ dram ≤ 984 ∧ (fl / 2 % 2 = 1 → dram ≠ 0) ∧
      nand ≤ 225 ∧ beAt pl 24 4 ≤ 1048576
    let answers := fun (st : Status) => exec (.resizePartition c pl) s = .next (m.reply c 0x0502 st [])
    (c.part ≠ 0xFFFF → c.part ≠ p → answers .badFrame) ∧
    ((c.part = 0xFFFF ∨ c.part = p) → s.part p = none → (¬good → answers .badFrame) ∧ (good → answers .notPermitted)) ∧
    (∀ pt, (c.part = 0xFFFF ∨ c.part = p) → s.part p = some pt →
      let f := m.modPart p (fun pt => { pt with staged := { pt.staged with resize := none } })
      let lacks := (fl % 2 = 1 ∧ ∃ q ∈ quads, q ∉ pt.quads ∧ f.quadFree q = false) ∨
        (fl / 2 % 2 = 1 ∧ (pt.dram.length + f.freeDram.length < dram ∨ pt.nand.length + f.freeNand.length < nand)) ∨
        (fl / 8 % 2 = 1 ∧ 1048576 < f.quotaTaken p + max (f.gzQuota p) (beAt pl 24 4))
      let bays := fun (qs : List Nat) (b : Nat) => ∃ q ∈ qs, q / 8 = b
      let barred := pt.mstate ∈ [MState.fetching, .loading, .draining, .swapping] ∨
        (pt.mstate ≠ .empty ∧ fl % 2 = 1 ∧ ∃ b, b < 16 ∧ ¬(bays quads b ↔ bays pt.quads b)) ∨
        (pt.mstate ≠ .empty ∧ fl / 2 % 2 = 1 ∧ (dram < pt.dram.length ∨ nand < pt.nand.length)) ∨
        (fl / 2 % 2 = 1 ∧ (pt.shards ≠ [] ∨ pt.install ≠ none ∨ pt.refetch ≠ none) ∧ nand < pt.nand.length)
      (pt.resetting ≠ none → answers .busyRecovery) ∧
      (pt.resetting = none → ¬good → answers .badFrame) ∧
      (pt.resetting = none → good → lacks → answers .noResource) ∧
      (pt.resetting = none → good → ¬lacks → barred → answers .notPermitted) ∧
      (pt.resetting = none → good → ¬lacks → ¬barred → ∃ (u : State) (r : Resize),
        (r.ctx = c ∧ r.flags = fl ∧ r.cls = beAt pl 1 1 ∧ r.quads = quads ∧ r.quota = beAt pl 24 4 ∧
          r.dram = pt.dram.take dram ++ f.freeDram.take (dram - pt.dram.length) ∧ r.nand = pt.nand.take nand ++ f.freeNand.take (nand - pt.nand.length)) ∧
        u.part p = some { pt with staged := { pt.staged with resize := some r } } ∧
        (∀ q, q ≠ p → u.part q = s.part q) ∧ exec (.resizePartition c pl) s = .next u ∧
        (pt.staged.resize = none → onlyPart (m.owe c 0x0502) u p) ∧
        (∀ old, pt.staged.resize = some old → onlyPart ((m.settle old.ctx 0x0502 .ok []).owe c 0x0502) u p))))

/-- A partition reset begins at once: it is told to the partition's session and the owner's, a staged resize is discarded, and the reset waits for the
meridian. It ends with the fill: the partition keeps its place, its shards and its owner's key, and everything else of it is as it was created, its share and
its tiles zero-filled and its registers at reset; the count of its resets outlasts it. A deletion resets the partition in the same way and then removes it,
closes its sessions and clears its NAND extents (R420, R424, R425). Completion is stated of: resetPartition, partitionResetFillComplete, deletePartition.
Where the rules leave a point open, this rests on a choice of the model: log entries 70, 75 and 76. -/
def Obligations.PartitionsAreReset : Prop :=
  (∀ (s : State) (c : Ctx) (pl : Bytes) (i : Instr) (op : Nat) (delete : Bool),
    ((i = .resetPartition c pl ∧ op = 0x0503 ∧ delete = false) ∨ (i = .deletePartition c pl ∧ op = 0x0504 ∧ delete = true)) → s.accepts c op .firmware delete →
    let m := s.freeMbox c op
    let answers := fun (st : Status) => exec i s = .next (m.reply c op st [])
    let entitled := delete = true ∨ s.role c = some .devOwner ∨ s.role c = some .partOwner
    (s.part c.part = none → answers .notPermitted) ∧
    (∀ pt, s.part c.part = some pt →
      (delete = false → ¬entitled ∨ pt.resetting ≠ none → answers .notPermitted) ∧
      (delete = true → pt.resetting ≠ none → answers .busyRecovery) ∧
      (entitled → pt.resetting = none → pl ≠ [] → answers .badFrame) ∧
      (delete = true → pt.resetting = none → pl = [] → pt.mstate ≠ .empty → answers .notPermitted) ∧
      (entitled → pt.resetting = none → pl = [] → (delete = true → pt.mstate = .empty) → completes i s (fun t =>
        t.part c.part = some { pt with resetting := some (c, delete), staged := { pt.staged with resize := none, reset := some c } } ∧
        (∀ q, q ≠ c.part → t.part q = s.part q) ∧ t.mem = s.mem ∧ t.tiles = s.tiles)))) ∧
  (∀ (s : State) (p : Nat) (pt : Part) (c : Ctx), p < 128 → s.part p = some pt → pt.resetting = some (c, false) → pt.staged.reset = none →
    ∃ (u : State) (new : Part), exec (.partitionResetFillComplete p) s = .next ((((u.bump .part p 0x20 1).resetEvents p .ok).settle c 0x0503 .ok []).settleAll) ∧
      u.part p = some new ∧ (∀ q, q ≠ p → u.part q = s.part q) ∧
      (new.cls = pt.cls ∧ new.quads = pt.quads ∧ new.dram = pt.dram ∧ new.nand = pt.nand ∧ new.mac = pt.mac ∧ new.ip4 = pt.ip4 ∧ new.ip6 = pt.ip6 ∧ new.vid = pt.vid ∧
        new.ownerKey = pt.ownerKey ∧ new.ownerMark = pt.ownerMark ∧ new.shards = pt.shards) ∧
      (new.mstate = .empty ∧ new.image = none ∧ new.reqs = [] ∧ new.streams = [] ∧ new.insets = [] ∧ new.sheets = [] ∧ new.resetting = none ∧ new.staged = Staged.none ∧ new.contentKeys = []) ∧
      (∀ a, Mem.read 0#8 u.mem.dram a = if a / 2 ^ 28 ∈ pt.dram then 0#8 else Mem.read 0#8 s.mem.dram a) ∧
      (∀ a, Mem.read 0#8 u.mem.scratch a = if a / 2 ^ 20 ∈ pt.quads.flatMap (fun q => [4 * q, 4 * q + 1, 4 * q + 2, 4 * q + 3]) then 0#8 else Mem.read 0#8 s.mem.scratch a) ∧
      (u.mem.nand = s.mem.nand ∧ u.mem.flash = s.mem.flash ∧ u.lesar = s.lesar ∧ u.keeper = s.keeper) ∧
      ((u.reg .gz p 0).field 20 0 = (s.reg .gz p 0).field 20 0 ∧ (∀ a, Blk.at .part p 0 ≤ a → a < Blk.at .part (p + 1) 0 → u.rawReg a = s.rawReg a) ∧
        ∀ b ∈ partBlocks, ∀ a, b.at p 0 ≤ a → a < b.at (p + 1) 0 → a ≠ Blk.at .gz p 0 → NMap.find u.regs a = none)) ∧
  (∀ (s : State) (p : Nat) (pt : Part) (c : Ctx), s.part p = some pt → pt.resetting = some (c, true) → pt.staged.reset = none →
    ∃ u : State, exec (.partitionResetFillComplete p) s = .next ((u.lesar.owed.filter (fun o => o.opcode == 0x0504 && o.ctx.part == p)).foldl
        (fun s o => (s.freeMbox o.ctx 0x0504).settle o.ctx 0x0504 .ok []) u).settleAll ∧
      u.part p = none ∧ (∀ q, q ≠ p → (u.part q).map (fun v => (v.cls, v.quads, v.dram, v.nand)) = (s.part q).map (fun v => (v.cls, v.quads, v.dram, v.nand))) ∧
      (∀ n v, u.session n = some v → v.part ≠ p) ∧ (∀ w ∈ u.walks, w.1 ≠ p) ∧ (∀ t ∈ u.tombs, t.part ≠ p) ∧
      (∀ a, Mem.read 0#8 u.mem.dram a = if a / 2 ^ 28 ∈ pt.dram then 0#8 else Mem.read 0#8 s.mem.dram a) ∧
      (∀ a, Mem.read 0#8 u.mem.nand a = if a / 2 ^ 34 ∈ pt.nand then 0#8 else Mem.read 0#8 s.mem.nand a) ∧
      (∀ b, b = Blk.part ∨ b ∈ partBlocks → ∀ a, b.at p 0 ≤ a → a < b.at (p + 1) 0 → NMap.find u.regs a = none))

/-- RUN_SURVEY starts what its payload names: a pass of an S0 item, an S1 test of a tile, which a partition gives up at its next meridian, an S1 test of the
gazetteer index, or S2, which all partitions must be drained for. Each is refused as Table 6 says where another survey, a partition reset or a power level
stands against it (R461 to R467). Completion is stated of: surveyS0, surveyS1Tile, surveyS1Gazetteer, surveyS2. Where the rules leave a point open, this rests
on a choice of the model: log entry 72. -/
def Obligations.SurveysStart : Prop :=
  (∀ (s : State) (c : Ctx) (pl : Bytes) (i : Instr), i ∈ [Instr.surveyS0 c pl, .surveyS1Tile c pl, .surveyS1Gazetteer c pl, .surveyS2 c pl] → s.accepts c 0x0901 .firmware true →
    ¬(pl.length = 8 ∧ beAt pl 4 4 = 0 ∧ ((beAt pl 0 1 = 0 ∧ beAt pl 1 1 ≤ 3 ∧ beAt pl 2 2 = 0) ∨ (beAt pl 0 1 = 1 ∧ beAt pl 1 1 = 0 ∧ beAt pl 2 2 < 512) ∨
      (beAt pl 0 1 = 1 ∧ beAt pl 1 1 = 1 ∧ beAt pl 2 2 = 0) ∨ (beAt pl 0 1 = 2 ∧ beAt pl 1 1 = 0 ∧ beAt pl 2 2 = 0))) →
    exec i s = .next ((s.freeMbox c 0x0901).reply c 0x0901 .badFrame [])) ∧
  (∀ (s : State) (c : Ctx) (item : Nat), s.accepts c 0x0901 .firmware true → item ≤ 3 →
    let i : Instr := .surveyS0 c (beBytes 1 0 ++ beBytes 1 item ++ beBytes 2 0 ++ beBytes 4 0)
    let m := s.freeMbox c 0x0901
    (s.survey.s2 ≠ none → exec i s = .next (m.reply c 0x0901 .busyRecovery [])) ∧
    (s.survey.s2 = none → (∃ e ∈ s.survey.s0, e.1 = item) → exec i s = .next (m.reply c 0x0901 .notPermitted [])) ∧
    (s.survey.s2 = none → (∀ e ∈ s.survey.s0, e.1 ≠ item) → exec i s = .next ((m.owe c 0x0901).setSurvey { s.survey with s0 := s.survey.s0 ++ [(item, c)] }))) ∧
  (∀ (s : State) (c : Ctx) (t : Nat), s.accepts c 0x0901 .firmware true → t < 512 →
    let i : Instr := .surveyS1Tile c (beBytes 1 1 ++ beBytes 1 0 ++ beBytes 2 t ++ beBytes 4 0)
    let m := s.freeMbox c 0x0901
    let answers := fun (st : Status) => exec i s = .next (m.reply c 0x0901 st [])
    let quad := fun (u : Nat) => u / 4 = t / 4
    let away := fun (u : Nat) => u ∈ s.survey.failed ∨ ∃ e ∈ s.survey.out, e.1 = u
    let staged := fun (u : Nat) => ∃ e ∈ s.parts, ∃ v ∈ e.2.staged.takeOut, v.1 = u
    let resets := ∃ p pt, s.ownerOf t = some p ∧ s.part p = some pt ∧ pt.resetting ≠ none
    let near := ∃ u, quad u ∧ u ≠ t ∧ (away u ∨ staged u)
    (s.survey.s2 ≠ none → answers .notPermitted) ∧
    (s.survey.s2 = none → resets → answers .busyRecovery) ∧
    (s.survey.s2 = none → ¬resets → away t → answers .notPermitted) ∧
    (s.survey.s2 = none → ¬resets → ¬away t → near → answers .noResource) ∧
    (s.survey.s2 = none → ¬away t → ¬near → s.ownerOf t = none → exec i s = .next ((m.owe c 0x0901).setSurvey { s.survey with out := s.survey.out ++ [(t, some c, false)] })) ∧
    (∀ p pt, s.survey.s2 = none → ¬resets → ¬away t → ¬near → s.ownerOf t = some p → s.part p = some pt → ∃ u : State, exec i s = .next u ∧
      u.part p = some { pt with staged := { pt.staged with takeOut := pt.staged.takeOut.filter (fun v => v.1 != t) ++ [(t, c)] } } ∧ (∀ q, q ≠ p → u.part q = s.part q) ∧
      u.survey = s.survey ∧ u.mem = s.mem ∧ ((∀ v ∈ pt.staged.takeOut, v.1 ≠ t) → onlyPart (m.owe c 0x0901) u p))) ∧
  (∀ (s : State) (c : Ctx), s.accepts c 0x0901 .firmware true →
    let i : Instr := .surveyS1Gazetteer c (beBytes 1 1 ++ beBytes 1 1 ++ beBytes 2 0 ++ beBytes 4 0)
    let m := s.freeMbox c 0x0901
    ((s.survey.s2 ≠ none ∨ s.survey.gzOut ≠ none) → exec i s = .next (m.reply c 0x0901 .notPermitted [])) ∧
    (s.survey.s2 = none → s.survey.gzOut = none → completes i s (fun t => t.setParts s.parts = (m.owe c 0x0901).setSurvey { s.survey with gzOut := some c } ∧
      ∀ p, t.part p = (s.part p).map (fun pt => if pt.gzState = 2 then { pt with gzState := 3 } else pt)))) ∧
  (∀ (s : State) (c : Ctx), s.accepts c 0x0901 .firmware true →
    let i : Instr := .surveyS2 c (beBytes 1 2 ++ beBytes 1 0 ++ beBytes 2 0 ++ beBytes 4 0)
    let m := s.freeMbox c 0x0901
    let answers := fun (st : Status) => exec i s = .next (m.reply c 0x0901 st [])
    let drained := ∀ e ∈ s.parts, (e.2.mstate = .empty ∨ e.2.mstate = .loaded) ∧ e.2.reqs = [] ∧ e.2.streams = [] ∧ e.2.resetting = none ∧ e.2.loans = [] ∧ e.2.loanAsk = []
    let s1 := s.survey.out ≠ [] ∨ s.survey.gzOut ≠ none ∨ ∃ e ∈ s.parts, e.2.staged.takeOut ≠ []
    (s.survey.s2 ≠ none → answers .busyRecovery) ∧
    (s.survey.s2 = none → (s1 ∨ ¬drained) → answers .notPermitted) ∧
    (s.survey.s2 = none → ¬s1 → drained → s.guard.level ≠ 0 → answers .deferred) ∧
    (s.survey.s2 = none → ¬s1 → drained → s.guard.level = 0 → exec i s = .next ((m.owe c 0x0901).setSurvey { s.survey with s2 := some c })))

/-- Surveys end with their results: a pass of an S0 item, an S1 test of a tile, which returns zero-filled where it passed and is marked and reported where it
failed, an S1 test of the index, after which every gazetteer is rebuilt, and S2, which leaves the LPDDR5X and the scratchpads zero, marks the channels and the
tiles that failed, and leaves no partition loaded (R461 to R466). Completion is stated of: surveyS0Complete, surveyS1TestComplete, gazetteerIndexTestEnd,
surveyS2Complete. Where the rules leave a point open, this rests on a choice of the model: log entries 64 and 72. -/
def Obligations.SurveysEnd : Prop :=
  (∀ (s : State) (e : Nat × Ctx) (fail : Bool) (detail : Nat), s.survey.s0.find? (fun v => v.1 == e.1) = some e →
    exec (.surveyS0Complete e.1 fail detail) s = .next ((s.setSurvey { s.survey with s0 := s.survey.s0.erase e }).settle e.2 0x0901 .ok
      (beBytes 1 (if fail = true then 1 else 0) ++ beBytes 3 0 ++ beBytes 4 detail))) ∧
  (∀ (s : State) (t : Nat) (co : Option Ctx) (pass : Bool), s.survey.out.find? (fun e => e.1 == t && !e.2.2) = some (t, co, false) →
    let i : Instr := .surveyS1TestComplete t pass
    let result := beBytes 1 (if pass = true then 0 else 1) ++ beBytes 3 0 ++ beBytes 4 (if pass = true then 0 else t)
    let done := fun (u : State) => match co with | some c => u.settle c 0x0901 .ok result | none => u
    let s1 := s.bump .sv 0 0x5C 1
    let away := s.survey.out.filter (fun e => e.1 != t)
    let zeroed := fun (u : State) => u.tile t = Tile.cleared ∧ ∀ a, Mem.read 0#8 u.mem.scratch a = if a / 2 ^ 20 = t then 0#8 else Mem.read 0#8 s.mem.scratch a
    (pass = true → s.ownerOf t = none → ∃ u : State, exec i s = .next (done u) ∧ u.survey = { s.survey with out := away } ∧ u.parts = s.parts ∧ u.regs = s1.regs ∧ zeroed u) ∧
    (∀ p pt, pass = true → s.ownerOf t = some p → s.part p = some pt → pt.resetting = none → ∃ u : State, exec i s = .next (done u) ∧
      u.survey = { s.survey with out := away ++ [(t, co, true)] } ∧ u.part p = some { pt with staged := { pt.staged with putBack := pt.staged.putBack ++ [t] } } ∧ u.mem = s.mem ∧ u.regs = s1.regs) ∧
    (∀ p pt, pass = true → s.ownerOf t = some p → s.part p = some pt → pt.resetting ≠ none → ∃ u : State, exec i s = .next (done u) ∧
      u.survey = { s.survey with out := away } ∧ u.parts = s.parts ∧ u.regs = s1.regs ∧ zeroed u) ∧
    (pass = false →
      let s2 := (s1.bump .sv 0 0x60 1).setSurvey { s.survey with out := away, failed := t :: s.survey.failed.filter (· != t) }
      (s.ownerOf t = none → exec i s = .next (done (s2.devEvent .uncorrectable 0x0901 0 t))) ∧
      (∀ p, s.ownerOf t = some p → exec i s = .next (done ((s2.partEvent p .uncorrectable 0x0901 0 t).ownerEvent p .uncorrectable 0x0901 0 t))))) ∧
  (∀ (s : State) (c : Ctx) (pass : Bool), s.survey.gzOut = some c →
    let s1 := (s.setSurvey { s.survey with gzOut := none }).bump .sv 0 0x5C 1
    exec (.gazetteerIndexTestEnd pass) s = .next (if pass = true then s1.settle c 0x0901 .ok (beBytes 1 0 ++ beBytes 3 0 ++ beBytes 4 0)
      else (s1.bump .sv 0 0x60 1).settle c 0x0901 .ok (beBytes 1 1 ++ beBytes 3 0 ++ beBytes 4 0))) ∧
  (∀ (s : State) (c : Ctx) (channels tiles : List Nat), s.survey.s2 = some c → (∀ k ∈ channels, k < 64) → (∀ t ∈ tiles, t < 512) →
    ∃ u : State, exec (.surveyS2Complete channels tiles) s = .next (u.settle c 0x0901 .ok
        (beBytes 1 (if channels = [] ∧ tiles = [] then 0 else 1) ++ beBytes 3 0 ++ beBytes 4 ((channels ++ tiles).headD 0))) ∧
      u.mem.dram = [] ∧ u.mem.scratch = [] ∧ u.mem.nand = s.mem.nand ∧ u.tiles = [] ∧ u.survey.s2 = none ∧ (∀ k, k ∈ u.dram.failed ↔ k ∈ channels) ∧
      (∀ t, t ∈ u.survey.failed ↔ t ∈ tiles) ∧ u.nand.saved = s.nand.map ∧ u.nand.written = 0 ∧
      ∀ p pt, s.part p = some pt → (pt.mstate ≠ .loaded → u.part p = some pt) ∧
        (pt.mstate = .loaded → ∃ v, u.part p = some v ∧ v.mstate = .empty ∧ v.image = none ∧ v.next = pt.next ∧ v.insets = [] ∧ v.sheets = [] ∧
          v.contentKeys = pt.contentKeys.filter (fun e => (pt.next.toList ++ (pt.install.bind (·.image)).toList).any (fun im => im.keyId == e.1)) ∧
          v.shards = pt.shards ∧ v.quads = pt.quads ∧ v.dram = pt.dram ∧ v.nand = pt.nand))
end

