-- ==== Sys2Proof/Laws/Map.lean ====
section
/-!
SUPPORT. The laws of sparse tables and memories: what a key reads after a write, and that every operation keeps keys rising and a
memory in its canonical form.
-/
namespace Sys2Proof.Machine

variable {α : Type}

/-! ## Reading a table -/

@[simp] theorem NMap.find_nil (k : Nat) : NMap.find ([] : NMap α) k = none := rfl

theorem NMap.find_cons (j : Nat) (v : α) (m : NMap α) (k : Nat) :
    NMap.find ((j, v) :: m) k = if j = k then some v else NMap.find m k := rfl

@[simp] theorem NMap.find_insert_self (m : NMap α) (k : Nat) (v : α) : NMap.find (NMap.insert m k v) k = some v := by
  induction m with
  | nil => simp [NMap.insert, NMap.find_cons]
  | cons e m ih =>
    obtain ⟨j, w⟩ := e
    simp only [NMap.insert]
    split
    · simp [NMap.find_cons]
    · split
      · simp [NMap.find_cons]
      · rw [NMap.find_cons, if_neg (by omega), ih]

theorem NMap.find_insert_ne (m : NMap α) {k j : Nat} (v : α) (h : j ≠ k) : NMap.find (NMap.insert m k v) j = NMap.find m j := by
  induction m with
  | nil => simp [NMap.insert, NMap.find_cons, Ne.symm h]
  | cons e m ih =>
    obtain ⟨i, w⟩ := e
    simp only [NMap.insert]
    split
    · simp [NMap.find_cons, Ne.symm h]
    · split
      · subst_vars
        simp [NMap.find_cons, Ne.symm h]
      · simp [NMap.find_cons, ih]

theorem NMap.find_filter (m : NMap α) (p : Nat → Bool) (k : Nat) :
    NMap.find (m.filter (fun e => p e.1)) k = if p k then NMap.find m k else none := by
  induction m with
  | nil => simp
  | cons e m ih =>
    obtain ⟨j, w⟩ := e
    by_cases hj : p j
    · by_cases hk : j = k
      · subst hk; simp [hj, NMap.find_cons]
      · simp [hj, NMap.find_cons, hk, ih]
    · by_cases hk : j = k
      · subst hk; simp [hj, ih]
      · simp [hj, NMap.find_cons, hk, ih]

@[simp] theorem NMap.find_erase_self (m : NMap α) (k : Nat) : NMap.find (NMap.erase m k) k = none := by
  unfold NMap.erase
  rw [NMap.find_filter m (fun j => j != k)]
  simp

theorem NMap.find_erase_ne (m : NMap α) {k j : Nat} (h : j ≠ k) : NMap.find (NMap.erase m k) j = NMap.find m j := by
  unfold NMap.erase
  rw [NMap.find_filter m (fun i => i != k)]
  simp [h]

theorem NMap.find_eraseRange (m : NMap α) (lo hi k : Nat) :
    NMap.find (NMap.eraseRange m lo hi) k = if lo ≤ k ∧ k < hi then none else NMap.find m k := by
  unfold NMap.eraseRange
  rw [NMap.find_filter m (fun i => i < lo || hi ≤ i)]
  by_cases h : lo ≤ k ∧ k < hi
  · rw [if_pos h, if_neg (by simp; omega)]
  · rw [if_neg h, if_pos (by simp; omega)]

@[simp] theorem NMap.get_put_self [DecidableEq α] (d : α) (m : NMap α) (k : Nat) (v : α) :
    NMap.get d (NMap.put d m k v) k = v := by
  unfold NMap.put NMap.get
  split
  · simp_all
  · simp

theorem NMap.get_put_ne [DecidableEq α] (d : α) (m : NMap α) {k j : Nat} (v : α) (h : j ≠ k) :
    NMap.get d (NMap.put d m k v) j = NMap.get d m j := by
  unfold NMap.put NMap.get
  split
  · rw [NMap.find_erase_ne m h]
  · rw [NMap.find_insert_ne m v h]

theorem NMap.find_modify_self (m : NMap α) (k : Nat) (f : α → α) :
    NMap.find (NMap.modify m k f) k = (NMap.find m k).map f := by
  induction m with
  | nil => rfl
  | cons e m ih =>
    obtain ⟨j, w⟩ := e
    by_cases h : j = k
    · subst h; simp [NMap.modify, NMap.find_cons]
    · have : NMap.modify ((j, w) :: m) k f = (j, w) :: NMap.modify m k f := by simp [NMap.modify, h]
      rw [this, NMap.find_cons, NMap.find_cons, if_neg h, if_neg h, ih]

theorem NMap.find_modify_ne (m : NMap α) {k j : Nat} (f : α → α) (h : j ≠ k) :
    NMap.find (NMap.modify m k f) j = NMap.find m j := by
  induction m with
  | nil => rfl
  | cons e m ih =>
    obtain ⟨i, w⟩ := e
    by_cases hi : i = k
    · have : NMap.modify ((i, w) :: m) k f = (i, f w) :: NMap.modify m k f := by simp [NMap.modify, hi]
      rw [this, NMap.find_cons, NMap.find_cons, if_neg (by omega), if_neg (by omega), ih]
    · have : NMap.modify ((i, w) :: m) k f = (i, w) :: NMap.modify m k f := by simp [NMap.modify, hi]
      rw [this, NMap.find_cons, NMap.find_cons, ih]

/-! ## Rising keys -/

theorem NMap.sorted_iff (m : NMap α) : NMap.sorted m = true ↔ (m.map Prod.fst).Pairwise (· < ·) := by
  induction m with
  | nil => simp [NMap.sorted]
  | cons e m ih =>
    obtain ⟨j, v⟩ := e
    cases m with
    | nil => simp [NMap.sorted]
    | cons e' m' =>
      obtain ⟨k, w⟩ := e'
      simp only [NMap.sorted, Bool.and_eq_true, decide_eq_true_eq, ih]
      constructor
      · rintro ⟨h1, h2⟩
        refine List.Pairwise.cons ?_ h2
        intro x hx
        simp only [List.map_cons, List.mem_cons] at hx
        rcases hx with rfl | hx
        · exact h1
        · have := List.rel_of_pairwise_cons h2 hx
          omega
      · intro h
        rw [List.map_cons, List.pairwise_cons] at h
        exact ⟨h.1 k (by simp), h.2⟩

theorem NMap.sorted_insert (m : NMap α) (k : Nat) (v : α) (h : NMap.sorted m = true) : NMap.sorted (NMap.insert m k v) = true := by
  rw [NMap.sorted_iff] at *
  have keys : ∀ (m : NMap α) (x : Nat), x ∈ (NMap.insert m k v).map Prod.fst → x = k ∨ x ∈ m.map Prod.fst := by
    intro m
    induction m with
    | nil => intro x hx; simp [NMap.insert] at hx; exact .inl hx
    | cons e m ih =>
      obtain ⟨j, w⟩ := e
      intro x hx
      simp only [NMap.insert] at hx
      split at hx
      · simpa using hx
      · split at hx
        · simp only [List.map_cons, List.mem_cons] at hx ⊢; tauto
        · simp only [List.map_cons, List.mem_cons] at hx ⊢
          rcases hx with hx | hx
          · exact .inr (.inl hx)
          · rcases ih x hx with h | h <;> tauto
  induction m with
  | nil => simp [NMap.insert]
  | cons e m ih =>
    obtain ⟨j, w⟩ := e
    rw [List.map_cons, List.pairwise_cons] at h
    simp only [NMap.insert]
    split
    · rename_i hk
      refine List.Pairwise.cons ?_ (List.Pairwise.cons h.1 h.2)
      intro x hx
      simp only [List.map_cons, List.mem_cons] at hx
      rcases hx with rfl | hx
      · exact hk
      · have := h.1 x hx; omega
    · split
      · rename_i hk; subst hk; exact List.Pairwise.cons h.1 h.2
      · refine List.Pairwise.cons ?_ (ih h.2)
        intro x hx
        rcases keys m x hx with rfl | hx
        · omega
        · exact h.1 x hx

theorem NMap.sorted_filter (m : NMap α) (p : Nat × α → Bool) (h : NMap.sorted m = true) : NMap.sorted (m.filter p) = true := by
  rw [NMap.sorted_iff] at *
  exact List.Pairwise.sublist (List.Sublist.map _ List.filter_sublist) h

/-! ## Memories -/

theorem Mem.wf_iff (d : Byte) (m : Mem) : Mem.wf d m = true ↔ NMap.sorted m = true ∧ ∀ e ∈ m, e.2 ≠ d := by
  simp [Mem.wf]

theorem Mem.wf_nil (d : Byte) : Mem.wf d [] = true := rfl

theorem Mem.wf_filter (d : Byte) (m : Mem) (p : Nat × Byte → Bool) (h : Mem.wf d m = true) : Mem.wf d (m.filter p) = true := by
  rw [Mem.wf_iff] at *
  exact ⟨NMap.sorted_filter m p h.1, fun e he => h.2 e (List.mem_of_mem_filter he)⟩

/-- A byte written keeps the canonical form. -/
theorem Mem.wf_write (d : Byte) (m : Mem) (a : Nat) (b : Byte) (h : Mem.wf d m = true) : Mem.wf d (Mem.write d m a b) = true := by
  unfold Mem.write NMap.put
  split
  · exact Mem.wf_filter d m _ h
  · rename_i hb
    rw [Mem.wf_iff] at *
    refine ⟨NMap.sorted_insert m a b h.1, ?_⟩
    have mem : ∀ (m : Mem) (e : Nat × Byte), e ∈ NMap.insert m a b → e = (a, b) ∨ e ∈ m := by
      intro m
      induction m with
      | nil => intro e he; simpa [NMap.insert] using he
      | cons x m ih =>
        obtain ⟨j, w⟩ := x
        intro e he
        simp only [NMap.insert] at he
        split at he
        · simpa using he
        · split at he
          · simp only [List.mem_cons] at he ⊢; tauto
          · simp only [List.mem_cons] at he ⊢
            rcases he with he | he
            · exact .inr (.inl he)
            · rcases ih e he with h | h <;> tauto
    intro e he
    rcases mem m e he with rfl | he
    · exact hb
    · exact h.2 e he

/-- A run of bytes written keeps the canonical form. -/
theorem Mem.wf_writeN (d : Byte) (bs : Bytes) (m : Mem) (a : Nat) (h : Mem.wf d m = true) :
    Mem.wf d (Mem.writeN d m a bs) = true := by
  induction bs generalizing m a with
  | nil => exact h
  | cons b bs ih => exact ih _ _ (Mem.wf_write d m a b h)

/-- A run of bytes cleared keeps the canonical form. -/
theorem Mem.wf_clear (d : Byte) (m : Mem) (a n : Nat) (h : Mem.wf d m = true) : Mem.wf d (Mem.clear m a n) = true :=
  Mem.wf_filter d m _ h

@[simp] theorem Mem.read_write_self (d : Byte) (m : Mem) (a : Nat) (b : Byte) : Mem.read d (Mem.write d m a b) a = b :=
  NMap.get_put_self d m a b

theorem Mem.read_write_ne (d : Byte) (m : Mem) {a a' : Nat} (b : Byte) (h : a' ≠ a) :
    Mem.read d (Mem.write d m a b) a' = Mem.read d m a' :=
  NMap.get_put_ne d m b h

/-- A byte outside a run that is written keeps its value. -/
theorem Mem.read_writeN_outside (d : Byte) (bs : Bytes) (m : Mem) (a x : Nat) (h : x < a ∨ a + bs.length ≤ x) :
    Mem.read d (Mem.writeN d m a bs) x = Mem.read d m x := by
  induction bs generalizing m a with
  | nil => rfl
  | cons b bs ih =>
    simp only [List.length_cons] at h
    rw [Mem.writeN, ih _ _ (by omega), Mem.read_write_ne d m b (by omega)]

/-- A byte of a run that is written reads as written. -/
theorem Mem.read_writeN_inside (d : Byte) (bs : Bytes) (m : Mem) (a i : Nat) (h : i < bs.length) :
    Mem.read d (Mem.writeN d m a bs) (a + i) = bs.getD i d := by
  induction bs generalizing m a i with
  | nil => simp at h
  | cons b bs ih =>
    rw [Mem.writeN]
    cases i with
    | zero => rw [Mem.read_writeN_outside d bs _ _ _ (by omega)]; simp
    | succ i =>
      have := ih (Mem.write d m a b) (a + 1) i (by simpa using h)
      rw [show a + (i + 1) = a + 1 + i by omega, this]
      simp

/-- A byte of a run that is cleared reads as an unlisted one. -/
theorem Mem.read_clear (d : Byte) (m : Mem) (a n x : Nat) :
    Mem.read d (Mem.clear m a n) x = if a ≤ x ∧ x < a + n then d else Mem.read d m x := by
  unfold Mem.read NMap.get Mem.clear
  rw [NMap.find_eraseRange]
  split <;> rfl

theorem Mem.readN_length (d : Byte) (m : Mem) (a n : Nat) : (Mem.readN d m a n).length = n := by
  induction n generalizing a with
  | zero => rfl
  | succ n ih => simp [Mem.readN, ih]

theorem Mem.readN_getD (d e : Byte) (m : Mem) (a n i : Nat) (h : i < n) : (Mem.readN d m a n).getD i e = Mem.read d m (a + i) := by
  induction n generalizing a i with
  | zero => omega
  | succ n ih =>
    cases i with
    | zero => simp [Mem.readN]
    | succ i =>
      have := ih (a + 1) i (by omega)
      simp only [Mem.readN, List.getD_cons_succ, this]
      congr 1
      omega

/-- A run that is read after a run that does not meet it is written keeps its value. -/
theorem Mem.readN_writeN_outside (d : Byte) (bs : Bytes) (m : Mem) (a x n : Nat) (h : x + n ≤ a ∨ a + bs.length ≤ x) :
    Mem.readN d (Mem.writeN d m a bs) x n = Mem.readN d m x n := by
  induction n generalizing x with
  | zero => rfl
  | succ n ih => rw [Mem.readN, Mem.readN, ih (x + 1) (by omega), Mem.read_writeN_outside d bs m a x (by omega)]

/-- A run that is read back where it was written. -/
theorem Mem.readN_writeN_same (d : Byte) (bs : Bytes) (m : Mem) (a : Nat) : Mem.readN d (Mem.writeN d m a bs) a bs.length = bs := by
  induction bs generalizing m a with
  | nil => rfl
  | cons b bs ih =>
    rw [List.length_cons, Mem.readN, Mem.writeN, ih, Mem.read_writeN_outside d bs _ _ _ (by omega), Mem.read_write_self]

end Sys2Proof.Machine
end

