-- ==== Sys2Proof/Laws/State.lean ====
section
/-!
SUPPORT. One lemma for every field of the state and every setter, each true by `rfl`.
-/
namespace Sys2Proof.Machine

@[simp] theorem State.setNow_now (s : State) (v : Nat) : (s.setNow v).now = v := rfl
@[simp] theorem State.setNow_stamp (s : State) (v : Nat) : (s.setNow v).stamp = s.stamp := rfl
@[simp] theorem State.setNow_free (s : State) (v : Nat) : (s.setNow v).free = s.free := rfl
@[simp] theorem State.setNow_timeHi (s : State) (v : Nat) : (s.setNow v).timeHi = s.timeHi := rfl
@[simp] theorem State.setNow_regs (s : State) (v : Nat) : (s.setNow v).regs = s.regs := rfl
@[simp] theorem State.setNow_mem (s : State) (v : Nat) : (s.setNow v).mem = s.mem := rfl
@[simp] theorem State.setNow_tiles (s : State) (v : Nat) : (s.setNow v).tiles = s.tiles := rfl
@[simp] theorem State.setNow_pods (s : State) (v : Nat) : (s.setNow v).pods = s.pods := rfl
@[simp] theorem State.setNow_parts (s : State) (v : Nat) : (s.setNow v).parts = s.parts := rfl
@[simp] theorem State.setNow_tombs (s : State) (v : Nat) : (s.setNow v).tombs = s.tombs := rfl
@[simp] theorem State.setNow_walks (s : State) (v : Nat) : (s.setNow v).walks = s.walks := rfl
@[simp] theorem State.setNow_dev (s : State) (v : Nat) : (s.setNow v).dev = s.dev := rfl
@[simp] theorem State.setNow_guard (s : State) (v : Nat) : (s.setNow v).guard = s.guard := rfl
@[simp] theorem State.setNow_keeper (s : State) (v : Nat) : (s.setNow v).keeper = s.keeper := rfl
@[simp] theorem State.setNow_flash (s : State) (v : Nat) : (s.setNow v).flash = s.flash := rfl
@[simp] theorem State.setNow_lesar (s : State) (v : Nat) : (s.setNow v).lesar = s.lesar := rfl
@[simp] theorem State.setNow_eth (s : State) (v : Nat) : (s.setNow v).eth = s.eth := rfl
@[simp] theorem State.setNow_smb (s : State) (v : Nat) : (s.setNow v).smb = s.smb := rfl
@[simp] theorem State.setNow_dram (s : State) (v : Nat) : (s.setNow v).dram = s.dram := rfl
@[simp] theorem State.setNow_nand (s : State) (v : Nat) : (s.setNow v).nand = s.nand := rfl
@[simp] theorem State.setNow_lender (s : State) (v : Nat) : (s.setNow v).lender = s.lender := rfl
@[simp] theorem State.setNow_veolo (s : State) (v : Nat) : (s.setNow v).veolo = s.veolo := rfl
@[simp] theorem State.setNow_survey (s : State) (v : Nat) : (s.setNow v).survey = s.survey := rfl
@[simp] theorem State.setNow_pending (s : State) (v : Nat) : (s.setNow v).pending = s.pending := rfl

@[simp] theorem State.setStamp_now (s : State) (v : Nat) : (s.setStamp v).now = s.now := rfl
@[simp] theorem State.setStamp_stamp (s : State) (v : Nat) : (s.setStamp v).stamp = v := rfl
@[simp] theorem State.setStamp_free (s : State) (v : Nat) : (s.setStamp v).free = s.free := rfl
@[simp] theorem State.setStamp_timeHi (s : State) (v : Nat) : (s.setStamp v).timeHi = s.timeHi := rfl
@[simp] theorem State.setStamp_regs (s : State) (v : Nat) : (s.setStamp v).regs = s.regs := rfl
@[simp] theorem State.setStamp_mem (s : State) (v : Nat) : (s.setStamp v).mem = s.mem := rfl
@[simp] theorem State.setStamp_tiles (s : State) (v : Nat) : (s.setStamp v).tiles = s.tiles := rfl
@[simp] theorem State.setStamp_pods (s : State) (v : Nat) : (s.setStamp v).pods = s.pods := rfl
@[simp] theorem State.setStamp_parts (s : State) (v : Nat) : (s.setStamp v).parts = s.parts := rfl
@[simp] theorem State.setStamp_tombs (s : State) (v : Nat) : (s.setStamp v).tombs = s.tombs := rfl
@[simp] theorem State.setStamp_walks (s : State) (v : Nat) : (s.setStamp v).walks = s.walks := rfl
@[simp] theorem State.setStamp_dev (s : State) (v : Nat) : (s.setStamp v).dev = s.dev := rfl
@[simp] theorem State.setStamp_guard (s : State) (v : Nat) : (s.setStamp v).guard = s.guard := rfl
@[simp] theorem State.setStamp_keeper (s : State) (v : Nat) : (s.setStamp v).keeper = s.keeper := rfl
@[simp] theorem State.setStamp_flash (s : State) (v : Nat) : (s.setStamp v).flash = s.flash := rfl
@[simp] theorem State.setStamp_lesar (s : State) (v : Nat) : (s.setStamp v).lesar = s.lesar := rfl
@[simp] theorem State.setStamp_eth (s : State) (v : Nat) : (s.setStamp v).eth = s.eth := rfl
@[simp] theorem State.setStamp_smb (s : State) (v : Nat) : (s.setStamp v).smb = s.smb := rfl
@[simp] theorem State.setStamp_dram (s : State) (v : Nat) : (s.setStamp v).dram = s.dram := rfl
@[simp] theorem State.setStamp_nand (s : State) (v : Nat) : (s.setStamp v).nand = s.nand := rfl
@[simp] theorem State.setStamp_lender (s : State) (v : Nat) : (s.setStamp v).lender = s.lender := rfl
@[simp] theorem State.setStamp_veolo (s : State) (v : Nat) : (s.setStamp v).veolo = s.veolo := rfl
@[simp] theorem State.setStamp_survey (s : State) (v : Nat) : (s.setStamp v).survey = s.survey := rfl
@[simp] theorem State.setStamp_pending (s : State) (v : Nat) : (s.setStamp v).pending = s.pending := rfl

@[simp] theorem State.setFree_now (s : State) (v : Nat) : (s.setFree v).now = s.now := rfl
@[simp] theorem State.setFree_stamp (s : State) (v : Nat) : (s.setFree v).stamp = s.stamp := rfl
@[simp] theorem State.setFree_free (s : State) (v : Nat) : (s.setFree v).free = v := rfl
@[simp] theorem State.setFree_timeHi (s : State) (v : Nat) : (s.setFree v).timeHi = s.timeHi := rfl
@[simp] theorem State.setFree_regs (s : State) (v : Nat) : (s.setFree v).regs = s.regs := rfl
@[simp] theorem State.setFree_mem (s : State) (v : Nat) : (s.setFree v).mem = s.mem := rfl
@[simp] theorem State.setFree_tiles (s : State) (v : Nat) : (s.setFree v).tiles = s.tiles := rfl
@[simp] theorem State.setFree_pods (s : State) (v : Nat) : (s.setFree v).pods = s.pods := rfl
@[simp] theorem State.setFree_parts (s : State) (v : Nat) : (s.setFree v).parts = s.parts := rfl
@[simp] theorem State.setFree_tombs (s : State) (v : Nat) : (s.setFree v).tombs = s.tombs := rfl
@[simp] theorem State.setFree_walks (s : State) (v : Nat) : (s.setFree v).walks = s.walks := rfl
@[simp] theorem State.setFree_dev (s : State) (v : Nat) : (s.setFree v).dev = s.dev := rfl
@[simp] theorem State.setFree_guard (s : State) (v : Nat) : (s.setFree v).guard = s.guard := rfl
@[simp] theorem State.setFree_keeper (s : State) (v : Nat) : (s.setFree v).keeper = s.keeper := rfl
@[simp] theorem State.setFree_flash (s : State) (v : Nat) : (s.setFree v).flash = s.flash := rfl
@[simp] theorem State.setFree_lesar (s : State) (v : Nat) : (s.setFree v).lesar = s.lesar := rfl
@[simp] theorem State.setFree_eth (s : State) (v : Nat) : (s.setFree v).eth = s.eth := rfl
@[simp] theorem State.setFree_smb (s : State) (v : Nat) : (s.setFree v).smb = s.smb := rfl
@[simp] theorem State.setFree_dram (s : State) (v : Nat) : (s.setFree v).dram = s.dram := rfl
@[simp] theorem State.setFree_nand (s : State) (v : Nat) : (s.setFree v).nand = s.nand := rfl
@[simp] theorem State.setFree_lender (s : State) (v : Nat) : (s.setFree v).lender = s.lender := rfl
@[simp] theorem State.setFree_veolo (s : State) (v : Nat) : (s.setFree v).veolo = s.veolo := rfl
@[simp] theorem State.setFree_survey (s : State) (v : Nat) : (s.setFree v).survey = s.survey := rfl
@[simp] theorem State.setFree_pending (s : State) (v : Nat) : (s.setFree v).pending = s.pending := rfl

@[simp] theorem State.setTimeHi_now (s : State) (v : Word) : (s.setTimeHi v).now = s.now := rfl
@[simp] theorem State.setTimeHi_stamp (s : State) (v : Word) : (s.setTimeHi v).stamp = s.stamp := rfl
@[simp] theorem State.setTimeHi_free (s : State) (v : Word) : (s.setTimeHi v).free = s.free := rfl
@[simp] theorem State.setTimeHi_timeHi (s : State) (v : Word) : (s.setTimeHi v).timeHi = v := rfl
@[simp] theorem State.setTimeHi_regs (s : State) (v : Word) : (s.setTimeHi v).regs = s.regs := rfl
@[simp] theorem State.setTimeHi_mem (s : State) (v : Word) : (s.setTimeHi v).mem = s.mem := rfl
@[simp] theorem State.setTimeHi_tiles (s : State) (v : Word) : (s.setTimeHi v).tiles = s.tiles := rfl
@[simp] theorem State.setTimeHi_pods (s : State) (v : Word) : (s.setTimeHi v).pods = s.pods := rfl
@[simp] theorem State.setTimeHi_parts (s : State) (v : Word) : (s.setTimeHi v).parts = s.parts := rfl
@[simp] theorem State.setTimeHi_tombs (s : State) (v : Word) : (s.setTimeHi v).tombs = s.tombs := rfl
@[simp] theorem State.setTimeHi_walks (s : State) (v : Word) : (s.setTimeHi v).walks = s.walks := rfl
@[simp] theorem State.setTimeHi_dev (s : State) (v : Word) : (s.setTimeHi v).dev = s.dev := rfl
@[simp] theorem State.setTimeHi_guard (s : State) (v : Word) : (s.setTimeHi v).guard = s.guard := rfl
@[simp] theorem State.setTimeHi_keeper (s : State) (v : Word) : (s.setTimeHi v).keeper = s.keeper := rfl
@[simp] theorem State.setTimeHi_flash (s : State) (v : Word) : (s.setTimeHi v).flash = s.flash := rfl
@[simp] theorem State.setTimeHi_lesar (s : State) (v : Word) : (s.setTimeHi v).lesar = s.lesar := rfl
@[simp] theorem State.setTimeHi_eth (s : State) (v : Word) : (s.setTimeHi v).eth = s.eth := rfl
@[simp] theorem State.setTimeHi_smb (s : State) (v : Word) : (s.setTimeHi v).smb = s.smb := rfl
@[simp] theorem State.setTimeHi_dram (s : State) (v : Word) : (s.setTimeHi v).dram = s.dram := rfl
@[simp] theorem State.setTimeHi_nand (s : State) (v : Word) : (s.setTimeHi v).nand = s.nand := rfl
@[simp] theorem State.setTimeHi_lender (s : State) (v : Word) : (s.setTimeHi v).lender = s.lender := rfl
@[simp] theorem State.setTimeHi_veolo (s : State) (v : Word) : (s.setTimeHi v).veolo = s.veolo := rfl
@[simp] theorem State.setTimeHi_survey (s : State) (v : Word) : (s.setTimeHi v).survey = s.survey := rfl
@[simp] theorem State.setTimeHi_pending (s : State) (v : Word) : (s.setTimeHi v).pending = s.pending := rfl

@[simp] theorem State.setRegs_now (s : State) (v : NMap Word) : (s.setRegs v).now = s.now := rfl
@[simp] theorem State.setRegs_stamp (s : State) (v : NMap Word) : (s.setRegs v).stamp = s.stamp := rfl
@[simp] theorem State.setRegs_free (s : State) (v : NMap Word) : (s.setRegs v).free = s.free := rfl
@[simp] theorem State.setRegs_timeHi (s : State) (v : NMap Word) : (s.setRegs v).timeHi = s.timeHi := rfl
@[simp] theorem State.setRegs_regs (s : State) (v : NMap Word) : (s.setRegs v).regs = v := rfl
@[simp] theorem State.setRegs_mem (s : State) (v : NMap Word) : (s.setRegs v).mem = s.mem := rfl
@[simp] theorem State.setRegs_tiles (s : State) (v : NMap Word) : (s.setRegs v).tiles = s.tiles := rfl
@[simp] theorem State.setRegs_pods (s : State) (v : NMap Word) : (s.setRegs v).pods = s.pods := rfl
@[simp] theorem State.setRegs_parts (s : State) (v : NMap Word) : (s.setRegs v).parts = s.parts := rfl
@[simp] theorem State.setRegs_tombs (s : State) (v : NMap Word) : (s.setRegs v).tombs = s.tombs := rfl
@[simp] theorem State.setRegs_walks (s : State) (v : NMap Word) : (s.setRegs v).walks = s.walks := rfl
@[simp] theorem State.setRegs_dev (s : State) (v : NMap Word) : (s.setRegs v).dev = s.dev := rfl
@[simp] theorem State.setRegs_guard (s : State) (v : NMap Word) : (s.setRegs v).guard = s.guard := rfl
@[simp] theorem State.setRegs_keeper (s : State) (v : NMap Word) : (s.setRegs v).keeper = s.keeper := rfl
@[simp] theorem State.setRegs_flash (s : State) (v : NMap Word) : (s.setRegs v).flash = s.flash := rfl
@[simp] theorem State.setRegs_lesar (s : State) (v : NMap Word) : (s.setRegs v).lesar = s.lesar := rfl
@[simp] theorem State.setRegs_eth (s : State) (v : NMap Word) : (s.setRegs v).eth = s.eth := rfl
@[simp] theorem State.setRegs_smb (s : State) (v : NMap Word) : (s.setRegs v).smb = s.smb := rfl
@[simp] theorem State.setRegs_dram (s : State) (v : NMap Word) : (s.setRegs v).dram = s.dram := rfl
@[simp] theorem State.setRegs_nand (s : State) (v : NMap Word) : (s.setRegs v).nand = s.nand := rfl
@[simp] theorem State.setRegs_lender (s : State) (v : NMap Word) : (s.setRegs v).lender = s.lender := rfl
@[simp] theorem State.setRegs_veolo (s : State) (v : NMap Word) : (s.setRegs v).veolo = s.veolo := rfl
@[simp] theorem State.setRegs_survey (s : State) (v : NMap Word) : (s.setRegs v).survey = s.survey := rfl
@[simp] theorem State.setRegs_pending (s : State) (v : NMap Word) : (s.setRegs v).pending = s.pending := rfl

@[simp] theorem State.setMem_now (s : State) (v : Mems) : (s.setMem v).now = s.now := rfl
@[simp] theorem State.setMem_stamp (s : State) (v : Mems) : (s.setMem v).stamp = s.stamp := rfl
@[simp] theorem State.setMem_free (s : State) (v : Mems) : (s.setMem v).free = s.free := rfl
@[simp] theorem State.setMem_timeHi (s : State) (v : Mems) : (s.setMem v).timeHi = s.timeHi := rfl
@[simp] theorem State.setMem_regs (s : State) (v : Mems) : (s.setMem v).regs = s.regs := rfl
@[simp] theorem State.setMem_mem (s : State) (v : Mems) : (s.setMem v).mem = v := rfl
@[simp] theorem State.setMem_tiles (s : State) (v : Mems) : (s.setMem v).tiles = s.tiles := rfl
@[simp] theorem State.setMem_pods (s : State) (v : Mems) : (s.setMem v).pods = s.pods := rfl
@[simp] theorem State.setMem_parts (s : State) (v : Mems) : (s.setMem v).parts = s.parts := rfl
@[simp] theorem State.setMem_tombs (s : State) (v : Mems) : (s.setMem v).tombs = s.tombs := rfl
@[simp] theorem State.setMem_walks (s : State) (v : Mems) : (s.setMem v).walks = s.walks := rfl
@[simp] theorem State.setMem_dev (s : State) (v : Mems) : (s.setMem v).dev = s.dev := rfl
@[simp] theorem State.setMem_guard (s : State) (v : Mems) : (s.setMem v).guard = s.guard := rfl
@[simp] theorem State.setMem_keeper (s : State) (v : Mems) : (s.setMem v).keeper = s.keeper := rfl
@[simp] theorem State.setMem_flash (s : State) (v : Mems) : (s.setMem v).flash = s.flash := rfl
@[simp] theorem State.setMem_lesar (s : State) (v : Mems) : (s.setMem v).lesar = s.lesar := rfl
@[simp] theorem State.setMem_eth (s : State) (v : Mems) : (s.setMem v).eth = s.eth := rfl
@[simp] theorem State.setMem_smb (s : State) (v : Mems) : (s.setMem v).smb = s.smb := rfl
@[simp] theorem State.setMem_dram (s : State) (v : Mems) : (s.setMem v).dram = s.dram := rfl
@[simp] theorem State.setMem_nand (s : State) (v : Mems) : (s.setMem v).nand = s.nand := rfl
@[simp] theorem State.setMem_lender (s : State) (v : Mems) : (s.setMem v).lender = s.lender := rfl
@[simp] theorem State.setMem_veolo (s : State) (v : Mems) : (s.setMem v).veolo = s.veolo := rfl
@[simp] theorem State.setMem_survey (s : State) (v : Mems) : (s.setMem v).survey = s.survey := rfl
@[simp] theorem State.setMem_pending (s : State) (v : Mems) : (s.setMem v).pending = s.pending := rfl

@[simp] theorem State.setTiles_now (s : State) (v : NMap Tile) : (s.setTiles v).now = s.now := rfl
@[simp] theorem State.setTiles_stamp (s : State) (v : NMap Tile) : (s.setTiles v).stamp = s.stamp := rfl
@[simp] theorem State.setTiles_free (s : State) (v : NMap Tile) : (s.setTiles v).free = s.free := rfl
@[simp] theorem State.setTiles_timeHi (s : State) (v : NMap Tile) : (s.setTiles v).timeHi = s.timeHi := rfl
@[simp] theorem State.setTiles_regs (s : State) (v : NMap Tile) : (s.setTiles v).regs = s.regs := rfl
@[simp] theorem State.setTiles_mem (s : State) (v : NMap Tile) : (s.setTiles v).mem = s.mem := rfl
@[simp] theorem State.setTiles_tiles (s : State) (v : NMap Tile) : (s.setTiles v).tiles = v := rfl
@[simp] theorem State.setTiles_pods (s : State) (v : NMap Tile) : (s.setTiles v).pods = s.pods := rfl
@[simp] theorem State.setTiles_parts (s : State) (v : NMap Tile) : (s.setTiles v).parts = s.parts := rfl
@[simp] theorem State.setTiles_tombs (s : State) (v : NMap Tile) : (s.setTiles v).tombs = s.tombs := rfl
@[simp] theorem State.setTiles_walks (s : State) (v : NMap Tile) : (s.setTiles v).walks = s.walks := rfl
@[simp] theorem State.setTiles_dev (s : State) (v : NMap Tile) : (s.setTiles v).dev = s.dev := rfl
@[simp] theorem State.setTiles_guard (s : State) (v : NMap Tile) : (s.setTiles v).guard = s.guard := rfl
@[simp] theorem State.setTiles_keeper (s : State) (v : NMap Tile) : (s.setTiles v).keeper = s.keeper := rfl
@[simp] theorem State.setTiles_flash (s : State) (v : NMap Tile) : (s.setTiles v).flash = s.flash := rfl
@[simp] theorem State.setTiles_lesar (s : State) (v : NMap Tile) : (s.setTiles v).lesar = s.lesar := rfl
@[simp] theorem State.setTiles_eth (s : State) (v : NMap Tile) : (s.setTiles v).eth = s.eth := rfl
@[simp] theorem State.setTiles_smb (s : State) (v : NMap Tile) : (s.setTiles v).smb = s.smb := rfl
@[simp] theorem State.setTiles_dram (s : State) (v : NMap Tile) : (s.setTiles v).dram = s.dram := rfl
@[simp] theorem State.setTiles_nand (s : State) (v : NMap Tile) : (s.setTiles v).nand = s.nand := rfl
@[simp] theorem State.setTiles_lender (s : State) (v : NMap Tile) : (s.setTiles v).lender = s.lender := rfl
@[simp] theorem State.setTiles_veolo (s : State) (v : NMap Tile) : (s.setTiles v).veolo = s.veolo := rfl
@[simp] theorem State.setTiles_survey (s : State) (v : NMap Tile) : (s.setTiles v).survey = s.survey := rfl
@[simp] theorem State.setTiles_pending (s : State) (v : NMap Tile) : (s.setTiles v).pending = s.pending := rfl

@[simp] theorem State.setPods_now (s : State) (v : NMap (List PodStore)) : (s.setPods v).now = s.now := rfl
@[simp] theorem State.setPods_stamp (s : State) (v : NMap (List PodStore)) : (s.setPods v).stamp = s.stamp := rfl
@[simp] theorem State.setPods_free (s : State) (v : NMap (List PodStore)) : (s.setPods v).free = s.free := rfl
@[simp] theorem State.setPods_timeHi (s : State) (v : NMap (List PodStore)) : (s.setPods v).timeHi = s.timeHi := rfl
@[simp] theorem State.setPods_regs (s : State) (v : NMap (List PodStore)) : (s.setPods v).regs = s.regs := rfl
@[simp] theorem State.setPods_mem (s : State) (v : NMap (List PodStore)) : (s.setPods v).mem = s.mem := rfl
@[simp] theorem State.setPods_tiles (s : State) (v : NMap (List PodStore)) : (s.setPods v).tiles = s.tiles := rfl
@[simp] theorem State.setPods_pods (s : State) (v : NMap (List PodStore)) : (s.setPods v).pods = v := rfl
@[simp] theorem State.setPods_parts (s : State) (v : NMap (List PodStore)) : (s.setPods v).parts = s.parts := rfl
@[simp] theorem State.setPods_tombs (s : State) (v : NMap (List PodStore)) : (s.setPods v).tombs = s.tombs := rfl
@[simp] theorem State.setPods_walks (s : State) (v : NMap (List PodStore)) : (s.setPods v).walks = s.walks := rfl
@[simp] theorem State.setPods_dev (s : State) (v : NMap (List PodStore)) : (s.setPods v).dev = s.dev := rfl
@[simp] theorem State.setPods_guard (s : State) (v : NMap (List PodStore)) : (s.setPods v).guard = s.guard := rfl
@[simp] theorem State.setPods_keeper (s : State) (v : NMap (List PodStore)) : (s.setPods v).keeper = s.keeper := rfl
@[simp] theorem State.setPods_flash (s : State) (v : NMap (List PodStore)) : (s.setPods v).flash = s.flash := rfl
@[simp] theorem State.setPods_lesar (s : State) (v : NMap (List PodStore)) : (s.setPods v).lesar = s.lesar := rfl
@[simp] theorem State.setPods_eth (s : State) (v : NMap (List PodStore)) : (s.setPods v).eth = s.eth := rfl
@[simp] theorem State.setPods_smb (s : State) (v : NMap (List PodStore)) : (s.setPods v).smb = s.smb := rfl
@[simp] theorem State.setPods_dram (s : State) (v : NMap (List PodStore)) : (s.setPods v).dram = s.dram := rfl
@[simp] theorem State.setPods_nand (s : State) (v : NMap (List PodStore)) : (s.setPods v).nand = s.nand := rfl
@[simp] theorem State.setPods_lender (s : State) (v : NMap (List PodStore)) : (s.setPods v).lender = s.lender := rfl
@[simp] theorem State.setPods_veolo (s : State) (v : NMap (List PodStore)) : (s.setPods v).veolo = s.veolo := rfl
@[simp] theorem State.setPods_survey (s : State) (v : NMap (List PodStore)) : (s.setPods v).survey = s.survey := rfl
@[simp] theorem State.setPods_pending (s : State) (v : NMap (List PodStore)) : (s.setPods v).pending = s.pending := rfl

@[simp] theorem State.setParts_now (s : State) (v : NMap Part) : (s.setParts v).now = s.now := rfl
@[simp] theorem State.setParts_stamp (s : State) (v : NMap Part) : (s.setParts v).stamp = s.stamp := rfl
@[simp] theorem State.setParts_free (s : State) (v : NMap Part) : (s.setParts v).free = s.free := rfl
@[simp] theorem State.setParts_timeHi (s : State) (v : NMap Part) : (s.setParts v).timeHi = s.timeHi := rfl
@[simp] theorem State.setParts_regs (s : State) (v : NMap Part) : (s.setParts v).regs = s.regs := rfl
@[simp] theorem State.setParts_mem (s : State) (v : NMap Part) : (s.setParts v).mem = s.mem := rfl
@[simp] theorem State.setParts_tiles (s : State) (v : NMap Part) : (s.setParts v).tiles = s.tiles := rfl
@[simp] theorem State.setParts_pods (s : State) (v : NMap Part) : (s.setParts v).pods = s.pods := rfl
@[simp] theorem State.setParts_parts (s : State) (v : NMap Part) : (s.setParts v).parts = v := rfl
@[simp] theorem State.setParts_tombs (s : State) (v : NMap Part) : (s.setParts v).tombs = s.tombs := rfl
@[simp] theorem State.setParts_walks (s : State) (v : NMap Part) : (s.setParts v).walks = s.walks := rfl
@[simp] theorem State.setParts_dev (s : State) (v : NMap Part) : (s.setParts v).dev = s.dev := rfl
@[simp] theorem State.setParts_guard (s : State) (v : NMap Part) : (s.setParts v).guard = s.guard := rfl
@[simp] theorem State.setParts_keeper (s : State) (v : NMap Part) : (s.setParts v).keeper = s.keeper := rfl
@[simp] theorem State.setParts_flash (s : State) (v : NMap Part) : (s.setParts v).flash = s.flash := rfl
@[simp] theorem State.setParts_lesar (s : State) (v : NMap Part) : (s.setParts v).lesar = s.lesar := rfl
@[simp] theorem State.setParts_eth (s : State) (v : NMap Part) : (s.setParts v).eth = s.eth := rfl
@[simp] theorem State.setParts_smb (s : State) (v : NMap Part) : (s.setParts v).smb = s.smb := rfl
@[simp] theorem State.setParts_dram (s : State) (v : NMap Part) : (s.setParts v).dram = s.dram := rfl
@[simp] theorem State.setParts_nand (s : State) (v : NMap Part) : (s.setParts v).nand = s.nand := rfl
@[simp] theorem State.setParts_lender (s : State) (v : NMap Part) : (s.setParts v).lender = s.lender := rfl
@[simp] theorem State.setParts_veolo (s : State) (v : NMap Part) : (s.setParts v).veolo = s.veolo := rfl
@[simp] theorem State.setParts_survey (s : State) (v : NMap Part) : (s.setParts v).survey = s.survey := rfl
@[simp] theorem State.setParts_pending (s : State) (v : NMap Part) : (s.setParts v).pending = s.pending := rfl

@[simp] theorem State.setTombs_now (s : State) (v : List Tomb) : (s.setTombs v).now = s.now := rfl
@[simp] theorem State.setTombs_stamp (s : State) (v : List Tomb) : (s.setTombs v).stamp = s.stamp := rfl
@[simp] theorem State.setTombs_free (s : State) (v : List Tomb) : (s.setTombs v).free = s.free := rfl
@[simp] theorem State.setTombs_timeHi (s : State) (v : List Tomb) : (s.setTombs v).timeHi = s.timeHi := rfl
@[simp] theorem State.setTombs_regs (s : State) (v : List Tomb) : (s.setTombs v).regs = s.regs := rfl
@[simp] theorem State.setTombs_mem (s : State) (v : List Tomb) : (s.setTombs v).mem = s.mem := rfl
@[simp] theorem State.setTombs_tiles (s : State) (v : List Tomb) : (s.setTombs v).tiles = s.tiles := rfl
@[simp] theorem State.setTombs_pods (s : State) (v : List Tomb) : (s.setTombs v).pods = s.pods := rfl
@[simp] theorem State.setTombs_parts (s : State) (v : List Tomb) : (s.setTombs v).parts = s.parts := rfl
@[simp] theorem State.setTombs_tombs (s : State) (v : List Tomb) : (s.setTombs v).tombs = v := rfl
@[simp] theorem State.setTombs_walks (s : State) (v : List Tomb) : (s.setTombs v).walks = s.walks := rfl
@[simp] theorem State.setTombs_dev (s : State) (v : List Tomb) : (s.setTombs v).dev = s.dev := rfl
@[simp] theorem State.setTombs_guard (s : State) (v : List Tomb) : (s.setTombs v).guard = s.guard := rfl
@[simp] theorem State.setTombs_keeper (s : State) (v : List Tomb) : (s.setTombs v).keeper = s.keeper := rfl
@[simp] theorem State.setTombs_flash (s : State) (v : List Tomb) : (s.setTombs v).flash = s.flash := rfl
@[simp] theorem State.setTombs_lesar (s : State) (v : List Tomb) : (s.setTombs v).lesar = s.lesar := rfl
@[simp] theorem State.setTombs_eth (s : State) (v : List Tomb) : (s.setTombs v).eth = s.eth := rfl
@[simp] theorem State.setTombs_smb (s : State) (v : List Tomb) : (s.setTombs v).smb = s.smb := rfl
@[simp] theorem State.setTombs_dram (s : State) (v : List Tomb) : (s.setTombs v).dram = s.dram := rfl
@[simp] theorem State.setTombs_nand (s : State) (v : List Tomb) : (s.setTombs v).nand = s.nand := rfl
@[simp] theorem State.setTombs_lender (s : State) (v : List Tomb) : (s.setTombs v).lender = s.lender := rfl
@[simp] theorem State.setTombs_veolo (s : State) (v : List Tomb) : (s.setTombs v).veolo = s.veolo := rfl
@[simp] theorem State.setTombs_survey (s : State) (v : List Tomb) : (s.setTombs v).survey = s.survey := rfl
@[simp] theorem State.setTombs_pending (s : State) (v : List Tomb) : (s.setTombs v).pending = s.pending := rfl

@[simp] theorem State.setWalks_now (s : State) (v : List (Nat × Nat × Nat)) : (s.setWalks v).now = s.now := rfl
@[simp] theorem State.setWalks_stamp (s : State) (v : List (Nat × Nat × Nat)) : (s.setWalks v).stamp = s.stamp := rfl
@[simp] theorem State.setWalks_free (s : State) (v : List (Nat × Nat × Nat)) : (s.setWalks v).free = s.free := rfl
@[simp] theorem State.setWalks_timeHi (s : State) (v : List (Nat × Nat × Nat)) : (s.setWalks v).timeHi = s.timeHi := rfl
@[simp] theorem State.setWalks_regs (s : State) (v : List (Nat × Nat × Nat)) : (s.setWalks v).regs = s.regs := rfl
@[simp] theorem State.setWalks_mem (s : State) (v : List (Nat × Nat × Nat)) : (s.setWalks v).mem = s.mem := rfl
@[simp] theorem State.setWalks_tiles (s : State) (v : List (Nat × Nat × Nat)) : (s.setWalks v).tiles = s.tiles := rfl
@[simp] theorem State.setWalks_pods (s : State) (v : List (Nat × Nat × Nat)) : (s.setWalks v).pods = s.pods := rfl
@[simp] theorem State.setWalks_parts (s : State) (v : List (Nat × Nat × Nat)) : (s.setWalks v).parts = s.parts := rfl
@[simp] theorem State.setWalks_tombs (s : State) (v : List (Nat × Nat × Nat)) : (s.setWalks v).tombs = s.tombs := rfl
@[simp] theorem State.setWalks_walks (s : State) (v : List (Nat × Nat × Nat)) : (s.setWalks v).walks = v := rfl
@[simp] theorem State.setWalks_dev (s : State) (v : List (Nat × Nat × Nat)) : (s.setWalks v).dev = s.dev := rfl
@[simp] theorem State.setWalks_guard (s : State) (v : List (Nat × Nat × Nat)) : (s.setWalks v).guard = s.guard := rfl
@[simp] theorem State.setWalks_keeper (s : State) (v : List (Nat × Nat × Nat)) : (s.setWalks v).keeper = s.keeper := rfl
@[simp] theorem State.setWalks_flash (s : State) (v : List (Nat × Nat × Nat)) : (s.setWalks v).flash = s.flash := rfl
@[simp] theorem State.setWalks_lesar (s : State) (v : List (Nat × Nat × Nat)) : (s.setWalks v).lesar = s.lesar := rfl
@[simp] theorem State.setWalks_eth (s : State) (v : List (Nat × Nat × Nat)) : (s.setWalks v).eth = s.eth := rfl
@[simp] theorem State.setWalks_smb (s : State) (v : List (Nat × Nat × Nat)) : (s.setWalks v).smb = s.smb := rfl
@[simp] theorem State.setWalks_dram (s : State) (v : List (Nat × Nat × Nat)) : (s.setWalks v).dram = s.dram := rfl
@[simp] theorem State.setWalks_nand (s : State) (v : List (Nat × Nat × Nat)) : (s.setWalks v).nand = s.nand := rfl
@[simp] theorem State.setWalks_lender (s : State) (v : List (Nat × Nat × Nat)) : (s.setWalks v).lender = s.lender := rfl
@[simp] theorem State.setWalks_veolo (s : State) (v : List (Nat × Nat × Nat)) : (s.setWalks v).veolo = s.veolo := rfl
@[simp] theorem State.setWalks_survey (s : State) (v : List (Nat × Nat × Nat)) : (s.setWalks v).survey = s.survey := rfl
@[simp] theorem State.setWalks_pending (s : State) (v : List (Nat × Nat × Nat)) : (s.setWalks v).pending = s.pending := rfl

@[simp] theorem State.setDev_now (s : State) (v : Dev) : (s.setDev v).now = s.now := rfl
@[simp] theorem State.setDev_stamp (s : State) (v : Dev) : (s.setDev v).stamp = s.stamp := rfl
@[simp] theorem State.setDev_free (s : State) (v : Dev) : (s.setDev v).free = s.free := rfl
@[simp] theorem State.setDev_timeHi (s : State) (v : Dev) : (s.setDev v).timeHi = s.timeHi := rfl
@[simp] theorem State.setDev_regs (s : State) (v : Dev) : (s.setDev v).regs = s.regs := rfl
@[simp] theorem State.setDev_mem (s : State) (v : Dev) : (s.setDev v).mem = s.mem := rfl
@[simp] theorem State.setDev_tiles (s : State) (v : Dev) : (s.setDev v).tiles = s.tiles := rfl
@[simp] theorem State.setDev_pods (s : State) (v : Dev) : (s.setDev v).pods = s.pods := rfl
@[simp] theorem State.setDev_parts (s : State) (v : Dev) : (s.setDev v).parts = s.parts := rfl
@[simp] theorem State.setDev_tombs (s : State) (v : Dev) : (s.setDev v).tombs = s.tombs := rfl
@[simp] theorem State.setDev_walks (s : State) (v : Dev) : (s.setDev v).walks = s.walks := rfl
@[simp] theorem State.setDev_dev (s : State) (v : Dev) : (s.setDev v).dev = v := rfl
@[simp] theorem State.setDev_guard (s : State) (v : Dev) : (s.setDev v).guard = s.guard := rfl
@[simp] theorem State.setDev_keeper (s : State) (v : Dev) : (s.setDev v).keeper = s.keeper := rfl
@[simp] theorem State.setDev_flash (s : State) (v : Dev) : (s.setDev v).flash = s.flash := rfl
@[simp] theorem State.setDev_lesar (s : State) (v : Dev) : (s.setDev v).lesar = s.lesar := rfl
@[simp] theorem State.setDev_eth (s : State) (v : Dev) : (s.setDev v).eth = s.eth := rfl
@[simp] theorem State.setDev_smb (s : State) (v : Dev) : (s.setDev v).smb = s.smb := rfl
@[simp] theorem State.setDev_dram (s : State) (v : Dev) : (s.setDev v).dram = s.dram := rfl
@[simp] theorem State.setDev_nand (s : State) (v : Dev) : (s.setDev v).nand = s.nand := rfl
@[simp] theorem State.setDev_lender (s : State) (v : Dev) : (s.setDev v).lender = s.lender := rfl
@[simp] theorem State.setDev_veolo (s : State) (v : Dev) : (s.setDev v).veolo = s.veolo := rfl
@[simp] theorem State.setDev_survey (s : State) (v : Dev) : (s.setDev v).survey = s.survey := rfl
@[simp] theorem State.setDev_pending (s : State) (v : Dev) : (s.setDev v).pending = s.pending := rfl

@[simp] theorem State.setGuard_now (s : State) (v : Guard) : (s.setGuard v).now = s.now := rfl
@[simp] theorem State.setGuard_stamp (s : State) (v : Guard) : (s.setGuard v).stamp = s.stamp := rfl
@[simp] theorem State.setGuard_free (s : State) (v : Guard) : (s.setGuard v).free = s.free := rfl
@[simp] theorem State.setGuard_timeHi (s : State) (v : Guard) : (s.setGuard v).timeHi = s.timeHi := rfl
@[simp] theorem State.setGuard_regs (s : State) (v : Guard) : (s.setGuard v).regs = s.regs := rfl
@[simp] theorem State.setGuard_mem (s : State) (v : Guard) : (s.setGuard v).mem = s.mem := rfl
@[simp] theorem State.setGuard_tiles (s : State) (v : Guard) : (s.setGuard v).tiles = s.tiles := rfl
@[simp] theorem State.setGuard_pods (s : State) (v : Guard) : (s.setGuard v).pods = s.pods := rfl
@[simp] theorem State.setGuard_parts (s : State) (v : Guard) : (s.setGuard v).parts = s.parts := rfl
@[simp] theorem State.setGuard_tombs (s : State) (v : Guard) : (s.setGuard v).tombs = s.tombs := rfl
@[simp] theorem State.setGuard_walks (s : State) (v : Guard) : (s.setGuard v).walks = s.walks := rfl
@[simp] theorem State.setGuard_dev (s : State) (v : Guard) : (s.setGuard v).dev = s.dev := rfl
@[simp] theorem State.setGuard_guard (s : State) (v : Guard) : (s.setGuard v).guard = v := rfl
@[simp] theorem State.setGuard_keeper (s : State) (v : Guard) : (s.setGuard v).keeper = s.keeper := rfl
@[simp] theorem State.setGuard_flash (s : State) (v : Guard) : (s.setGuard v).flash = s.flash := rfl
@[simp] theorem State.setGuard_lesar (s : State) (v : Guard) : (s.setGuard v).lesar = s.lesar := rfl
@[simp] theorem State.setGuard_eth (s : State) (v : Guard) : (s.setGuard v).eth = s.eth := rfl
@[simp] theorem State.setGuard_smb (s : State) (v : Guard) : (s.setGuard v).smb = s.smb := rfl
@[simp] theorem State.setGuard_dram (s : State) (v : Guard) : (s.setGuard v).dram = s.dram := rfl
@[simp] theorem State.setGuard_nand (s : State) (v : Guard) : (s.setGuard v).nand = s.nand := rfl
@[simp] theorem State.setGuard_lender (s : State) (v : Guard) : (s.setGuard v).lender = s.lender := rfl
@[simp] theorem State.setGuard_veolo (s : State) (v : Guard) : (s.setGuard v).veolo = s.veolo := rfl
@[simp] theorem State.setGuard_survey (s : State) (v : Guard) : (s.setGuard v).survey = s.survey := rfl
@[simp] theorem State.setGuard_pending (s : State) (v : Guard) : (s.setGuard v).pending = s.pending := rfl

@[simp] theorem State.setKeeper_now (s : State) (v : Keeper) : (s.setKeeper v).now = s.now := rfl
@[simp] theorem State.setKeeper_stamp (s : State) (v : Keeper) : (s.setKeeper v).stamp = s.stamp := rfl
@[simp] theorem State.setKeeper_free (s : State) (v : Keeper) : (s.setKeeper v).free = s.free := rfl
@[simp] theorem State.setKeeper_timeHi (s : State) (v : Keeper) : (s.setKeeper v).timeHi = s.timeHi := rfl
@[simp] theorem State.setKeeper_regs (s : State) (v : Keeper) : (s.setKeeper v).regs = s.regs := rfl
@[simp] theorem State.setKeeper_mem (s : State) (v : Keeper) : (s.setKeeper v).mem = s.mem := rfl
@[simp] theorem State.setKeeper_tiles (s : State) (v : Keeper) : (s.setKeeper v).tiles = s.tiles := rfl
@[simp] theorem State.setKeeper_pods (s : State) (v : Keeper) : (s.setKeeper v).pods = s.pods := rfl
@[simp] theorem State.setKeeper_parts (s : State) (v : Keeper) : (s.setKeeper v).parts = s.parts := rfl
@[simp] theorem State.setKeeper_tombs (s : State) (v : Keeper) : (s.setKeeper v).tombs = s.tombs := rfl
@[simp] theorem State.setKeeper_walks (s : State) (v : Keeper) : (s.setKeeper v).walks = s.walks := rfl
@[simp] theorem State.setKeeper_dev (s : State) (v : Keeper) : (s.setKeeper v).dev = s.dev := rfl
@[simp] theorem State.setKeeper_guard (s : State) (v : Keeper) : (s.setKeeper v).guard = s.guard := rfl
@[simp] theorem State.setKeeper_keeper (s : State) (v : Keeper) : (s.setKeeper v).keeper = v := rfl
@[simp] theorem State.setKeeper_flash (s : State) (v : Keeper) : (s.setKeeper v).flash = s.flash := rfl
@[simp] theorem State.setKeeper_lesar (s : State) (v : Keeper) : (s.setKeeper v).lesar = s.lesar := rfl
@[simp] theorem State.setKeeper_eth (s : State) (v : Keeper) : (s.setKeeper v).eth = s.eth := rfl
@[simp] theorem State.setKeeper_smb (s : State) (v : Keeper) : (s.setKeeper v).smb = s.smb := rfl
@[simp] theorem State.setKeeper_dram (s : State) (v : Keeper) : (s.setKeeper v).dram = s.dram := rfl
@[simp] theorem State.setKeeper_nand (s : State) (v : Keeper) : (s.setKeeper v).nand = s.nand := rfl
@[simp] theorem State.setKeeper_lender (s : State) (v : Keeper) : (s.setKeeper v).lender = s.lender := rfl
@[simp] theorem State.setKeeper_veolo (s : State) (v : Keeper) : (s.setKeeper v).veolo = s.veolo := rfl
@[simp] theorem State.setKeeper_survey (s : State) (v : Keeper) : (s.setKeeper v).survey = s.survey := rfl
@[simp] theorem State.setKeeper_pending (s : State) (v : Keeper) : (s.setKeeper v).pending = s.pending := rfl

@[simp] theorem State.setFlash_now (s : State) (v : Flash) : (s.setFlash v).now = s.now := rfl
@[simp] theorem State.setFlash_stamp (s : State) (v : Flash) : (s.setFlash v).stamp = s.stamp := rfl
@[simp] theorem State.setFlash_free (s : State) (v : Flash) : (s.setFlash v).free = s.free := rfl
@[simp] theorem State.setFlash_timeHi (s : State) (v : Flash) : (s.setFlash v).timeHi = s.timeHi := rfl
@[simp] theorem State.setFlash_regs (s : State) (v : Flash) : (s.setFlash v).regs = s.regs := rfl
@[simp] theorem State.setFlash_mem (s : State) (v : Flash) : (s.setFlash v).mem = s.mem := rfl
@[simp] theorem State.setFlash_tiles (s : State) (v : Flash) : (s.setFlash v).tiles = s.tiles := rfl
@[simp] theorem State.setFlash_pods (s : State) (v : Flash) : (s.setFlash v).pods = s.pods := rfl
@[simp] theorem State.setFlash_parts (s : State) (v : Flash) : (s.setFlash v).parts = s.parts := rfl
@[simp] theorem State.setFlash_tombs (s : State) (v : Flash) : (s.setFlash v).tombs = s.tombs := rfl
@[simp] theorem State.setFlash_walks (s : State) (v : Flash) : (s.setFlash v).walks = s.walks := rfl
@[simp] theorem State.setFlash_dev (s : State) (v : Flash) : (s.setFlash v).dev = s.dev := rfl
@[simp] theorem State.setFlash_guard (s : State) (v : Flash) : (s.setFlash v).guard = s.guard := rfl
@[simp] theorem State.setFlash_keeper (s : State) (v : Flash) : (s.setFlash v).keeper = s.keeper := rfl
@[simp] theorem State.setFlash_flash (s : State) (v : Flash) : (s.setFlash v).flash = v := rfl
@[simp] theorem State.setFlash_lesar (s : State) (v : Flash) : (s.setFlash v).lesar = s.lesar := rfl
@[simp] theorem State.setFlash_eth (s : State) (v : Flash) : (s.setFlash v).eth = s.eth := rfl
@[simp] theorem State.setFlash_smb (s : State) (v : Flash) : (s.setFlash v).smb = s.smb := rfl
@[simp] theorem State.setFlash_dram (s : State) (v : Flash) : (s.setFlash v).dram = s.dram := rfl
@[simp] theorem State.setFlash_nand (s : State) (v : Flash) : (s.setFlash v).nand = s.nand := rfl
@[simp] theorem State.setFlash_lender (s : State) (v : Flash) : (s.setFlash v).lender = s.lender := rfl
@[simp] theorem State.setFlash_veolo (s : State) (v : Flash) : (s.setFlash v).veolo = s.veolo := rfl
@[simp] theorem State.setFlash_survey (s : State) (v : Flash) : (s.setFlash v).survey = s.survey := rfl
@[simp] theorem State.setFlash_pending (s : State) (v : Flash) : (s.setFlash v).pending = s.pending := rfl

@[simp] theorem State.setLesar_now (s : State) (v : Lesar) : (s.setLesar v).now = s.now := rfl
@[simp] theorem State.setLesar_stamp (s : State) (v : Lesar) : (s.setLesar v).stamp = s.stamp := rfl
@[simp] theorem State.setLesar_free (s : State) (v : Lesar) : (s.setLesar v).free = s.free := rfl
@[simp] theorem State.setLesar_timeHi (s : State) (v : Lesar) : (s.setLesar v).timeHi = s.timeHi := rfl
@[simp] theorem State.setLesar_regs (s : State) (v : Lesar) : (s.setLesar v).regs = s.regs := rfl
@[simp] theorem State.setLesar_mem (s : State) (v : Lesar) : (s.setLesar v).mem = s.mem := rfl
@[simp] theorem State.setLesar_tiles (s : State) (v : Lesar) : (s.setLesar v).tiles = s.tiles := rfl
@[simp] theorem State.setLesar_pods (s : State) (v : Lesar) : (s.setLesar v).pods = s.pods := rfl
@[simp] theorem State.setLesar_parts (s : State) (v : Lesar) : (s.setLesar v).parts = s.parts := rfl
@[simp] theorem State.setLesar_tombs (s : State) (v : Lesar) : (s.setLesar v).tombs = s.tombs := rfl
@[simp] theorem State.setLesar_walks (s : State) (v : Lesar) : (s.setLesar v).walks = s.walks := rfl
@[simp] theorem State.setLesar_dev (s : State) (v : Lesar) : (s.setLesar v).dev = s.dev := rfl
@[simp] theorem State.setLesar_guard (s : State) (v : Lesar) : (s.setLesar v).guard = s.guard := rfl
@[simp] theorem State.setLesar_keeper (s : State) (v : Lesar) : (s.setLesar v).keeper = s.keeper := rfl
@[simp] theorem State.setLesar_flash (s : State) (v : Lesar) : (s.setLesar v).flash = s.flash := rfl
@[simp] theorem State.setLesar_lesar (s : State) (v : Lesar) : (s.setLesar v).lesar = v := rfl
@[simp] theorem State.setLesar_eth (s : State) (v : Lesar) : (s.setLesar v).eth = s.eth := rfl
@[simp] theorem State.setLesar_smb (s : State) (v : Lesar) : (s.setLesar v).smb = s.smb := rfl
@[simp] theorem State.setLesar_dram (s : State) (v : Lesar) : (s.setLesar v).dram = s.dram := rfl
@[simp] theorem State.setLesar_nand (s : State) (v : Lesar) : (s.setLesar v).nand = s.nand := rfl
@[simp] theorem State.setLesar_lender (s : State) (v : Lesar) : (s.setLesar v).lender = s.lender := rfl
@[simp] theorem State.setLesar_veolo (s : State) (v : Lesar) : (s.setLesar v).veolo = s.veolo := rfl
@[simp] theorem State.setLesar_survey (s : State) (v : Lesar) : (s.setLesar v).survey = s.survey := rfl
@[simp] theorem State.setLesar_pending (s : State) (v : Lesar) : (s.setLesar v).pending = s.pending := rfl

@[simp] theorem State.setEth_now (s : State) (v : NMap EthPort) : (s.setEth v).now = s.now := rfl
@[simp] theorem State.setEth_stamp (s : State) (v : NMap EthPort) : (s.setEth v).stamp = s.stamp := rfl
@[simp] theorem State.setEth_free (s : State) (v : NMap EthPort) : (s.setEth v).free = s.free := rfl
@[simp] theorem State.setEth_timeHi (s : State) (v : NMap EthPort) : (s.setEth v).timeHi = s.timeHi := rfl
@[simp] theorem State.setEth_regs (s : State) (v : NMap EthPort) : (s.setEth v).regs = s.regs := rfl
@[simp] theorem State.setEth_mem (s : State) (v : NMap EthPort) : (s.setEth v).mem = s.mem := rfl
@[simp] theorem State.setEth_tiles (s : State) (v : NMap EthPort) : (s.setEth v).tiles = s.tiles := rfl
@[simp] theorem State.setEth_pods (s : State) (v : NMap EthPort) : (s.setEth v).pods = s.pods := rfl
@[simp] theorem State.setEth_parts (s : State) (v : NMap EthPort) : (s.setEth v).parts = s.parts := rfl
@[simp] theorem State.setEth_tombs (s : State) (v : NMap EthPort) : (s.setEth v).tombs = s.tombs := rfl
@[simp] theorem State.setEth_walks (s : State) (v : NMap EthPort) : (s.setEth v).walks = s.walks := rfl
@[simp] theorem State.setEth_dev (s : State) (v : NMap EthPort) : (s.setEth v).dev = s.dev := rfl
@[simp] theorem State.setEth_guard (s : State) (v : NMap EthPort) : (s.setEth v).guard = s.guard := rfl
@[simp] theorem State.setEth_keeper (s : State) (v : NMap EthPort) : (s.setEth v).keeper = s.keeper := rfl
@[simp] theorem State.setEth_flash (s : State) (v : NMap EthPort) : (s.setEth v).flash = s.flash := rfl
@[simp] theorem State.setEth_lesar (s : State) (v : NMap EthPort) : (s.setEth v).lesar = s.lesar := rfl
@[simp] theorem State.setEth_eth (s : State) (v : NMap EthPort) : (s.setEth v).eth = v := rfl
@[simp] theorem State.setEth_smb (s : State) (v : NMap EthPort) : (s.setEth v).smb = s.smb := rfl
@[simp] theorem State.setEth_dram (s : State) (v : NMap EthPort) : (s.setEth v).dram = s.dram := rfl
@[simp] theorem State.setEth_nand (s : State) (v : NMap EthPort) : (s.setEth v).nand = s.nand := rfl
@[simp] theorem State.setEth_lender (s : State) (v : NMap EthPort) : (s.setEth v).lender = s.lender := rfl
@[simp] theorem State.setEth_veolo (s : State) (v : NMap EthPort) : (s.setEth v).veolo = s.veolo := rfl
@[simp] theorem State.setEth_survey (s : State) (v : NMap EthPort) : (s.setEth v).survey = s.survey := rfl
@[simp] theorem State.setEth_pending (s : State) (v : NMap EthPort) : (s.setEth v).pending = s.pending := rfl

@[simp] theorem State.setSmb_now (s : State) (v : Smb) : (s.setSmb v).now = s.now := rfl
@[simp] theorem State.setSmb_stamp (s : State) (v : Smb) : (s.setSmb v).stamp = s.stamp := rfl
@[simp] theorem State.setSmb_free (s : State) (v : Smb) : (s.setSmb v).free = s.free := rfl
@[simp] theorem State.setSmb_timeHi (s : State) (v : Smb) : (s.setSmb v).timeHi = s.timeHi := rfl
@[simp] theorem State.setSmb_regs (s : State) (v : Smb) : (s.setSmb v).regs = s.regs := rfl
@[simp] theorem State.setSmb_mem (s : State) (v : Smb) : (s.setSmb v).mem = s.mem := rfl
@[simp] theorem State.setSmb_tiles (s : State) (v : Smb) : (s.setSmb v).tiles = s.tiles := rfl
@[simp] theorem State.setSmb_pods (s : State) (v : Smb) : (s.setSmb v).pods = s.pods := rfl
@[simp] theorem State.setSmb_parts (s : State) (v : Smb) : (s.setSmb v).parts = s.parts := rfl
@[simp] theorem State.setSmb_tombs (s : State) (v : Smb) : (s.setSmb v).tombs = s.tombs := rfl
@[simp] theorem State.setSmb_walks (s : State) (v : Smb) : (s.setSmb v).walks = s.walks := rfl
@[simp] theorem State.setSmb_dev (s : State) (v : Smb) : (s.setSmb v).dev = s.dev := rfl
@[simp] theorem State.setSmb_guard (s : State) (v : Smb) : (s.setSmb v).guard = s.guard := rfl
@[simp] theorem State.setSmb_keeper (s : State) (v : Smb) : (s.setSmb v).keeper = s.keeper := rfl
@[simp] theorem State.setSmb_flash (s : State) (v : Smb) : (s.setSmb v).flash = s.flash := rfl
@[simp] theorem State.setSmb_lesar (s : State) (v : Smb) : (s.setSmb v).lesar = s.lesar := rfl
@[simp] theorem State.setSmb_eth (s : State) (v : Smb) : (s.setSmb v).eth = s.eth := rfl
@[simp] theorem State.setSmb_smb (s : State) (v : Smb) : (s.setSmb v).smb = v := rfl
@[simp] theorem State.setSmb_dram (s : State) (v : Smb) : (s.setSmb v).dram = s.dram := rfl
@[simp] theorem State.setSmb_nand (s : State) (v : Smb) : (s.setSmb v).nand = s.nand := rfl
@[simp] theorem State.setSmb_lender (s : State) (v : Smb) : (s.setSmb v).lender = s.lender := rfl
@[simp] theorem State.setSmb_veolo (s : State) (v : Smb) : (s.setSmb v).veolo = s.veolo := rfl
@[simp] theorem State.setSmb_survey (s : State) (v : Smb) : (s.setSmb v).survey = s.survey := rfl
@[simp] theorem State.setSmb_pending (s : State) (v : Smb) : (s.setSmb v).pending = s.pending := rfl

@[simp] theorem State.setDram_now (s : State) (v : Dram) : (s.setDram v).now = s.now := rfl
@[simp] theorem State.setDram_stamp (s : State) (v : Dram) : (s.setDram v).stamp = s.stamp := rfl
@[simp] theorem State.setDram_free (s : State) (v : Dram) : (s.setDram v).free = s.free := rfl
@[simp] theorem State.setDram_timeHi (s : State) (v : Dram) : (s.setDram v).timeHi = s.timeHi := rfl
@[simp] theorem State.setDram_regs (s : State) (v : Dram) : (s.setDram v).regs = s.regs := rfl
@[simp] theorem State.setDram_mem (s : State) (v : Dram) : (s.setDram v).mem = s.mem := rfl
@[simp] theorem State.setDram_tiles (s : State) (v : Dram) : (s.setDram v).tiles = s.tiles := rfl
@[simp] theorem State.setDram_pods (s : State) (v : Dram) : (s.setDram v).pods = s.pods := rfl
@[simp] theorem State.setDram_parts (s : State) (v : Dram) : (s.setDram v).parts = s.parts := rfl
@[simp] theorem State.setDram_tombs (s : State) (v : Dram) : (s.setDram v).tombs = s.tombs := rfl
@[simp] theorem State.setDram_walks (s : State) (v : Dram) : (s.setDram v).walks = s.walks := rfl
@[simp] theorem State.setDram_dev (s : State) (v : Dram) : (s.setDram v).dev = s.dev := rfl
@[simp] theorem State.setDram_guard (s : State) (v : Dram) : (s.setDram v).guard = s.guard := rfl
@[simp] theorem State.setDram_keeper (s : State) (v : Dram) : (s.setDram v).keeper = s.keeper := rfl
@[simp] theorem State.setDram_flash (s : State) (v : Dram) : (s.setDram v).flash = s.flash := rfl
@[simp] theorem State.setDram_lesar (s : State) (v : Dram) : (s.setDram v).lesar = s.lesar := rfl
@[simp] theorem State.setDram_eth (s : State) (v : Dram) : (s.setDram v).eth = s.eth := rfl
@[simp] theorem State.setDram_smb (s : State) (v : Dram) : (s.setDram v).smb = s.smb := rfl
@[simp] theorem State.setDram_dram (s : State) (v : Dram) : (s.setDram v).dram = v := rfl
@[simp] theorem State.setDram_nand (s : State) (v : Dram) : (s.setDram v).nand = s.nand := rfl
@[simp] theorem State.setDram_lender (s : State) (v : Dram) : (s.setDram v).lender = s.lender := rfl
@[simp] theorem State.setDram_veolo (s : State) (v : Dram) : (s.setDram v).veolo = s.veolo := rfl
@[simp] theorem State.setDram_survey (s : State) (v : Dram) : (s.setDram v).survey = s.survey := rfl
@[simp] theorem State.setDram_pending (s : State) (v : Dram) : (s.setDram v).pending = s.pending := rfl

@[simp] theorem State.setNand_now (s : State) (v : Nand) : (s.setNand v).now = s.now := rfl
@[simp] theorem State.setNand_stamp (s : State) (v : Nand) : (s.setNand v).stamp = s.stamp := rfl
@[simp] theorem State.setNand_free (s : State) (v : Nand) : (s.setNand v).free = s.free := rfl
@[simp] theorem State.setNand_timeHi (s : State) (v : Nand) : (s.setNand v).timeHi = s.timeHi := rfl
@[simp] theorem State.setNand_regs (s : State) (v : Nand) : (s.setNand v).regs = s.regs := rfl
@[simp] theorem State.setNand_mem (s : State) (v : Nand) : (s.setNand v).mem = s.mem := rfl
@[simp] theorem State.setNand_tiles (s : State) (v : Nand) : (s.setNand v).tiles = s.tiles := rfl
@[simp] theorem State.setNand_pods (s : State) (v : Nand) : (s.setNand v).pods = s.pods := rfl
@[simp] theorem State.setNand_parts (s : State) (v : Nand) : (s.setNand v).parts = s.parts := rfl
@[simp] theorem State.setNand_tombs (s : State) (v : Nand) : (s.setNand v).tombs = s.tombs := rfl
@[simp] theorem State.setNand_walks (s : State) (v : Nand) : (s.setNand v).walks = s.walks := rfl
@[simp] theorem State.setNand_dev (s : State) (v : Nand) : (s.setNand v).dev = s.dev := rfl
@[simp] theorem State.setNand_guard (s : State) (v : Nand) : (s.setNand v).guard = s.guard := rfl
@[simp] theorem State.setNand_keeper (s : State) (v : Nand) : (s.setNand v).keeper = s.keeper := rfl
@[simp] theorem State.setNand_flash (s : State) (v : Nand) : (s.setNand v).flash = s.flash := rfl
@[simp] theorem State.setNand_lesar (s : State) (v : Nand) : (s.setNand v).lesar = s.lesar := rfl
@[simp] theorem State.setNand_eth (s : State) (v : Nand) : (s.setNand v).eth = s.eth := rfl
@[simp] theorem State.setNand_smb (s : State) (v : Nand) : (s.setNand v).smb = s.smb := rfl
@[simp] theorem State.setNand_dram (s : State) (v : Nand) : (s.setNand v).dram = s.dram := rfl
@[simp] theorem State.setNand_nand (s : State) (v : Nand) : (s.setNand v).nand = v := rfl
@[simp] theorem State.setNand_lender (s : State) (v : Nand) : (s.setNand v).lender = s.lender := rfl
@[simp] theorem State.setNand_veolo (s : State) (v : Nand) : (s.setNand v).veolo = s.veolo := rfl
@[simp] theorem State.setNand_survey (s : State) (v : Nand) : (s.setNand v).survey = s.survey := rfl
@[simp] theorem State.setNand_pending (s : State) (v : Nand) : (s.setNand v).pending = s.pending := rfl

@[simp] theorem State.setLender_now (s : State) (v : Lender) : (s.setLender v).now = s.now := rfl
@[simp] theorem State.setLender_stamp (s : State) (v : Lender) : (s.setLender v).stamp = s.stamp := rfl
@[simp] theorem State.setLender_free (s : State) (v : Lender) : (s.setLender v).free = s.free := rfl
@[simp] theorem State.setLender_timeHi (s : State) (v : Lender) : (s.setLender v).timeHi = s.timeHi := rfl
@[simp] theorem State.setLender_regs (s : State) (v : Lender) : (s.setLender v).regs = s.regs := rfl
@[simp] theorem State.setLender_mem (s : State) (v : Lender) : (s.setLender v).mem = s.mem := rfl
@[simp] theorem State.setLender_tiles (s : State) (v : Lender) : (s.setLender v).tiles = s.tiles := rfl
@[simp] theorem State.setLender_pods (s : State) (v : Lender) : (s.setLender v).pods = s.pods := rfl
@[simp] theorem State.setLender_parts (s : State) (v : Lender) : (s.setLender v).parts = s.parts := rfl
@[simp] theorem State.setLender_tombs (s : State) (v : Lender) : (s.setLender v).tombs = s.tombs := rfl
@[simp] theorem State.setLender_walks (s : State) (v : Lender) : (s.setLender v).walks = s.walks := rfl
@[simp] theorem State.setLender_dev (s : State) (v : Lender) : (s.setLender v).dev = s.dev := rfl
@[simp] theorem State.setLender_guard (s : State) (v : Lender) : (s.setLender v).guard = s.guard := rfl
@[simp] theorem State.setLender_keeper (s : State) (v : Lender) : (s.setLender v).keeper = s.keeper := rfl
@[simp] theorem State.setLender_flash (s : State) (v : Lender) : (s.setLender v).flash = s.flash := rfl
@[simp] theorem State.setLender_lesar (s : State) (v : Lender) : (s.setLender v).lesar = s.lesar := rfl
@[simp] theorem State.setLender_eth (s : State) (v : Lender) : (s.setLender v).eth = s.eth := rfl
@[simp] theorem State.setLender_smb (s : State) (v : Lender) : (s.setLender v).smb = s.smb := rfl
@[simp] theorem State.setLender_dram (s : State) (v : Lender) : (s.setLender v).dram = s.dram := rfl
@[simp] theorem State.setLender_nand (s : State) (v : Lender) : (s.setLender v).nand = s.nand := rfl
@[simp] theorem State.setLender_lender (s : State) (v : Lender) : (s.setLender v).lender = v := rfl
@[simp] theorem State.setLender_veolo (s : State) (v : Lender) : (s.setLender v).veolo = s.veolo := rfl
@[simp] theorem State.setLender_survey (s : State) (v : Lender) : (s.setLender v).survey = s.survey := rfl
@[simp] theorem State.setLender_pending (s : State) (v : Lender) : (s.setLender v).pending = s.pending := rfl

@[simp] theorem State.setVeolo_now (s : State) (v : Veolo) : (s.setVeolo v).now = s.now := rfl
@[simp] theorem State.setVeolo_stamp (s : State) (v : Veolo) : (s.setVeolo v).stamp = s.stamp := rfl
@[simp] theorem State.setVeolo_free (s : State) (v : Veolo) : (s.setVeolo v).free = s.free := rfl
@[simp] theorem State.setVeolo_timeHi (s : State) (v : Veolo) : (s.setVeolo v).timeHi = s.timeHi := rfl
@[simp] theorem State.setVeolo_regs (s : State) (v : Veolo) : (s.setVeolo v).regs = s.regs := rfl
@[simp] theorem State.setVeolo_mem (s : State) (v : Veolo) : (s.setVeolo v).mem = s.mem := rfl
@[simp] theorem State.setVeolo_tiles (s : State) (v : Veolo) : (s.setVeolo v).tiles = s.tiles := rfl
@[simp] theorem State.setVeolo_pods (s : State) (v : Veolo) : (s.setVeolo v).pods = s.pods := rfl
@[simp] theorem State.setVeolo_parts (s : State) (v : Veolo) : (s.setVeolo v).parts = s.parts := rfl
@[simp] theorem State.setVeolo_tombs (s : State) (v : Veolo) : (s.setVeolo v).tombs = s.tombs := rfl
@[simp] theorem State.setVeolo_walks (s : State) (v : Veolo) : (s.setVeolo v).walks = s.walks := rfl
@[simp] theorem State.setVeolo_dev (s : State) (v : Veolo) : (s.setVeolo v).dev = s.dev := rfl
@[simp] theorem State.setVeolo_guard (s : State) (v : Veolo) : (s.setVeolo v).guard = s.guard := rfl
@[simp] theorem State.setVeolo_keeper (s : State) (v : Veolo) : (s.setVeolo v).keeper = s.keeper := rfl
@[simp] theorem State.setVeolo_flash (s : State) (v : Veolo) : (s.setVeolo v).flash = s.flash := rfl
@[simp] theorem State.setVeolo_lesar (s : State) (v : Veolo) : (s.setVeolo v).lesar = s.lesar := rfl
@[simp] theorem State.setVeolo_eth (s : State) (v : Veolo) : (s.setVeolo v).eth = s.eth := rfl
@[simp] theorem State.setVeolo_smb (s : State) (v : Veolo) : (s.setVeolo v).smb = s.smb := rfl
@[simp] theorem State.setVeolo_dram (s : State) (v : Veolo) : (s.setVeolo v).dram = s.dram := rfl
@[simp] theorem State.setVeolo_nand (s : State) (v : Veolo) : (s.setVeolo v).nand = s.nand := rfl
@[simp] theorem State.setVeolo_lender (s : State) (v : Veolo) : (s.setVeolo v).lender = s.lender := rfl
@[simp] theorem State.setVeolo_veolo (s : State) (v : Veolo) : (s.setVeolo v).veolo = v := rfl
@[simp] theorem State.setVeolo_survey (s : State) (v : Veolo) : (s.setVeolo v).survey = s.survey := rfl
@[simp] theorem State.setVeolo_pending (s : State) (v : Veolo) : (s.setVeolo v).pending = s.pending := rfl

@[simp] theorem State.setSurvey_now (s : State) (v : Survey) : (s.setSurvey v).now = s.now := rfl
@[simp] theorem State.setSurvey_stamp (s : State) (v : Survey) : (s.setSurvey v).stamp = s.stamp := rfl
@[simp] theorem State.setSurvey_free (s : State) (v : Survey) : (s.setSurvey v).free = s.free := rfl
@[simp] theorem State.setSurvey_timeHi (s : State) (v : Survey) : (s.setSurvey v).timeHi = s.timeHi := rfl
@[simp] theorem State.setSurvey_regs (s : State) (v : Survey) : (s.setSurvey v).regs = s.regs := rfl
@[simp] theorem State.setSurvey_mem (s : State) (v : Survey) : (s.setSurvey v).mem = s.mem := rfl
@[simp] theorem State.setSurvey_tiles (s : State) (v : Survey) : (s.setSurvey v).tiles = s.tiles := rfl
@[simp] theorem State.setSurvey_pods (s : State) (v : Survey) : (s.setSurvey v).pods = s.pods := rfl
@[simp] theorem State.setSurvey_parts (s : State) (v : Survey) : (s.setSurvey v).parts = s.parts := rfl
@[simp] theorem State.setSurvey_tombs (s : State) (v : Survey) : (s.setSurvey v).tombs = s.tombs := rfl
@[simp] theorem State.setSurvey_walks (s : State) (v : Survey) : (s.setSurvey v).walks = s.walks := rfl
@[simp] theorem State.setSurvey_dev (s : State) (v : Survey) : (s.setSurvey v).dev = s.dev := rfl
@[simp] theorem State.setSurvey_guard (s : State) (v : Survey) : (s.setSurvey v).guard = s.guard := rfl
@[simp] theorem State.setSurvey_keeper (s : State) (v : Survey) : (s.setSurvey v).keeper = s.keeper := rfl
@[simp] theorem State.setSurvey_flash (s : State) (v : Survey) : (s.setSurvey v).flash = s.flash := rfl
@[simp] theorem State.setSurvey_lesar (s : State) (v : Survey) : (s.setSurvey v).lesar = s.lesar := rfl
@[simp] theorem State.setSurvey_eth (s : State) (v : Survey) : (s.setSurvey v).eth = s.eth := rfl
@[simp] theorem State.setSurvey_smb (s : State) (v : Survey) : (s.setSurvey v).smb = s.smb := rfl
@[simp] theorem State.setSurvey_dram (s : State) (v : Survey) : (s.setSurvey v).dram = s.dram := rfl
@[simp] theorem State.setSurvey_nand (s : State) (v : Survey) : (s.setSurvey v).nand = s.nand := rfl
@[simp] theorem State.setSurvey_lender (s : State) (v : Survey) : (s.setSurvey v).lender = s.lender := rfl
@[simp] theorem State.setSurvey_veolo (s : State) (v : Survey) : (s.setSurvey v).veolo = s.veolo := rfl
@[simp] theorem State.setSurvey_survey (s : State) (v : Survey) : (s.setSurvey v).survey = v := rfl
@[simp] theorem State.setSurvey_pending (s : State) (v : Survey) : (s.setSurvey v).pending = s.pending := rfl

@[simp] theorem State.setPending_now (s : State) (v : List Instr) : (s.setPending v).now = s.now := rfl
@[simp] theorem State.setPending_stamp (s : State) (v : List Instr) : (s.setPending v).stamp = s.stamp := rfl
@[simp] theorem State.setPending_free (s : State) (v : List Instr) : (s.setPending v).free = s.free := rfl
@[simp] theorem State.setPending_timeHi (s : State) (v : List Instr) : (s.setPending v).timeHi = s.timeHi := rfl
@[simp] theorem State.setPending_regs (s : State) (v : List Instr) : (s.setPending v).regs = s.regs := rfl
@[simp] theorem State.setPending_mem (s : State) (v : List Instr) : (s.setPending v).mem = s.mem := rfl
@[simp] theorem State.setPending_tiles (s : State) (v : List Instr) : (s.setPending v).tiles = s.tiles := rfl
@[simp] theorem State.setPending_pods (s : State) (v : List Instr) : (s.setPending v).pods = s.pods := rfl
@[simp] theorem State.setPending_parts (s : State) (v : List Instr) : (s.setPending v).parts = s.parts := rfl
@[simp] theorem State.setPending_tombs (s : State) (v : List Instr) : (s.setPending v).tombs = s.tombs := rfl
@[simp] theorem State.setPending_walks (s : State) (v : List Instr) : (s.setPending v).walks = s.walks := rfl
@[simp] theorem State.setPending_dev (s : State) (v : List Instr) : (s.setPending v).dev = s.dev := rfl
@[simp] theorem State.setPending_guard (s : State) (v : List Instr) : (s.setPending v).guard = s.guard := rfl
@[simp] theorem State.setPending_keeper (s : State) (v : List Instr) : (s.setPending v).keeper = s.keeper := rfl
@[simp] theorem State.setPending_flash (s : State) (v : List Instr) : (s.setPending v).flash = s.flash := rfl
@[simp] theorem State.setPending_lesar (s : State) (v : List Instr) : (s.setPending v).lesar = s.lesar := rfl
@[simp] theorem State.setPending_eth (s : State) (v : List Instr) : (s.setPending v).eth = s.eth := rfl
@[simp] theorem State.setPending_smb (s : State) (v : List Instr) : (s.setPending v).smb = s.smb := rfl
@[simp] theorem State.setPending_dram (s : State) (v : List Instr) : (s.setPending v).dram = s.dram := rfl
@[simp] theorem State.setPending_nand (s : State) (v : List Instr) : (s.setPending v).nand = s.nand := rfl
@[simp] theorem State.setPending_lender (s : State) (v : List Instr) : (s.setPending v).lender = s.lender := rfl
@[simp] theorem State.setPending_veolo (s : State) (v : List Instr) : (s.setPending v).veolo = s.veolo := rfl
@[simp] theorem State.setPending_survey (s : State) (v : List Instr) : (s.setPending v).survey = s.survey := rfl
@[simp] theorem State.setPending_pending (s : State) (v : List Instr) : (s.setPending v).pending = v := rfl

end Sys2Proof.Machine
end

