-- ==== Sys2Proof/Laws/Ops.lean ====
section
/-!
SUPPORT. What the shared operations do, said once: a tile or partition changed, rows of a scratchpad written, rows read where no word is
struck, registers set.
-/
namespace Sys2Proof.Machine

/-! ## Tiles -/

@[simp] theorem State.tile_modTile_self (s : State) (t : Nat) (f : Tile → Tile) : (s.modTile t f).tile t = f (s.tile t) := by
  simp [State.modTile, State.putTile, State.tile]

theorem State.tile_modTile_ne (s : State) {t u : Nat} (f : Tile → Tile) (h : u ≠ t) : (s.modTile t f).tile u = s.tile u := by
  simp [State.modTile, State.putTile, State.tile, NMap.get_put_ne _ _ _ h]

/-- A change of one tile changes nothing but the tiles. -/
theorem State.modTile_frame (s : State) (t : Nat) (f : Tile → Tile) : (s.modTile t f).setTiles s.tiles = s := rfl

@[simp] theorem State.modTile_mem (s : State) (t : Nat) (f : Tile → Tile) : (s.modTile t f).mem = s.mem := rfl
@[simp] theorem State.modTile_regs (s : State) (t : Nat) (f : Tile → Tile) : (s.modTile t f).regs = s.regs := rfl
@[simp] theorem State.modTile_parts (s : State) (t : Nat) (f : Tile → Tile) : (s.modTile t f).parts = s.parts := rfl
@[simp] theorem State.modTile_part (s : State) (t p : Nat) (f : Tile → Tile) : (s.modTile t f).part p = s.part p := rfl
@[simp] theorem State.modTile_ownerOf (s : State) (t u : Nat) (f : Tile → Tile) : (s.modTile t f).ownerOf u = s.ownerOf u := rfl
@[simp] theorem State.modTile_owner (s : State) (t u : Nat) (f : Tile → Tile) : (s.modTile t f).owner u = s.owner u := rfl
@[simp] theorem State.modTile_tileWorks (s : State) (t u : Nat) (f : Tile → Tile) : (s.modTile t f).tileWorks u = s.tileWorks u := rfl
@[simp] theorem State.modTile_stepFailed (s : State) (t p : Nat) (f : Tile → Tile) : (s.modTile t f).stepFailed p = s.stepFailed p := rfl
@[simp] theorem State.modTile_row (s : State) (t u r : Nat) (f : Tile → Tile) : (s.modTile t f).row u r = s.row u r := rfl
@[simp] theorem State.modTile_rows (s : State) (t u r n : Nat) (f : Tile → Tile) : (s.modTile t f).rows u r n = s.rows u r n := rfl
@[simp] theorem State.setScratch_tile (s : State) (m : Mem) (t : Nat) : (s.setScratch m).tile t = s.tile t := rfl
@[simp] theorem State.setScratch_scratch (s : State) (m : Mem) : (s.setScratch m).mem.scratch = m := rfl

@[simp] theorem State.modTile_stamp (s : State) (t : Nat) (f : Tile → Tile) : (s.modTile t f).stamp = s.stamp := rfl
@[simp] theorem State.modTile_pending (s : State) (t : Nat) (f : Tile → Tile) : (s.modTile t f).pending = s.pending := rfl

/-! ## Partitions -/

@[simp] theorem State.part_modPart_self (s : State) (p : Nat) (f : Part → Part) : (s.modPart p f).part p = (s.part p).map f := by
  simp [State.modPart, State.part, NMap.find_modify_self]

theorem State.part_modPart_ne (s : State) {p q : Nat} (f : Part → Part) (h : q ≠ p) : (s.modPart p f).part q = s.part q := by
  simp [State.modPart, State.part, NMap.find_modify_ne _ _ h]

/-- A change of one partition changes nothing but the partitions. -/
theorem State.modPart_frame (s : State) (p : Nat) (f : Part → Part) : (s.modPart p f).setParts s.parts = s := rfl

@[simp] theorem State.modPart_mem (s : State) (p : Nat) (f : Part → Part) : (s.modPart p f).mem = s.mem := rfl
@[simp] theorem State.modPart_regs (s : State) (p : Nat) (f : Part → Part) : (s.modPart p f).regs = s.regs := rfl
@[simp] theorem State.modPart_tiles (s : State) (p : Nat) (f : Part → Part) : (s.modPart p f).tiles = s.tiles := rfl
@[simp] theorem State.modPart_tile (s : State) (p t : Nat) (f : Part → Part) : (s.modPart p f).tile t = s.tile t := rfl
@[simp] theorem State.modPart_pending (s : State) (p : Nat) (f : Part → Part) : (s.modPart p f).pending = s.pending := rfl
@[simp] theorem State.modPart_lesar (s : State) (p : Nat) (f : Part → Part) : (s.modPart p f).lesar = s.lesar := rfl

@[simp] theorem State.part_putPart_self (s : State) (p : Nat) (v : Part) : (s.putPart p v).part p = some v := by
  simp [State.putPart, State.part]

theorem State.part_putPart_ne (s : State) {p q : Nat} (v : Part) (h : q ≠ p) : (s.putPart p v).part q = s.part q := by
  simp [State.putPart, State.part, NMap.find_insert_ne _ _ h]

/-! ## Registers -/

theorem Blk.at_ne {b : Blk} {k off off' : Nat} (h : off ≠ off') : b.at k off ≠ b.at k off' := by
  simp [Blk.at]; omega

@[simp] theorem State.reg_putReg_self (s : State) (b : Blk) (k off : Nat) (w : Word) : (s.putReg b k off w).reg b k off = w := by
  simp [State.reg, State.rawReg, State.putReg]

theorem State.rawReg_putReg_ne (s : State) (b : Blk) (k off : Nat) (w : Word) {a : Nat} (h : a ≠ b.at k off) :
    (s.putReg b k off w).rawReg a = s.rawReg a := by
  simp [State.rawReg, State.putReg, NMap.find_insert_ne _ _ h]

/-- Setting a register changes nothing but the registers. -/
theorem State.putReg_frame (s : State) (b : Blk) (k off : Nat) (w : Word) : (s.putReg b k off w).setRegs s.regs = s := rfl

/-- Counting changes nothing but the registers. -/
theorem State.bump_frame (s : State) (b : Blk) (k off n : Nat) : (s.bump b k off n).setRegs s.regs = s := rfl

/-- A counter after counting, which stops at 0xFFFF_FFFF. -/
theorem State.reg_bump_self (s : State) (b : Blk) (k off n : Nat) :
    ((s.bump b k off n).reg b k off).toNat = min 0xFFFFFFFF ((s.reg b k off).toNat + n) := by
  rw [State.bump, State.reg_putReg_self, BitVec.toNat_ofNat]
  omega

/-! ## No struck error, nothing found -/

@[simp] theorem State.strike_nil (s : State) : s.strike [] = s := rfl
@[simp] theorem State.pathErrors_nil (s : State) (p : Nat) : s.pathErrors p [] = s := rfl

theorem State.eccFind_clean (s : State) (p t r n : Nat) (h : (s.tile t).bad = []) : s.eccFind p t r n = (s, false) := by
  simp [State.eccFind, h]

theorem State.readRuns_clean (s : State) (p t : Nat) (runs : List (Nat × Nat)) (h : (s.tile t).bad = []) :
    s.readRuns p t runs = (s, false) := by
  unfold State.readRuns
  induction runs with
  | nil => rfl
  | cons r rs ih => simp [State.eccFind_clean s p t r.1 r.2 h, ih]

theorem State.engineRows_clean (s : State) (p t r n : Nat) (h : (s.tile t).bad = []) :
    s.engineRows p t r n = (s, some (s.rows t r n)) := by
  simp [State.engineRows, State.eccFind_clean s p t r n h]

/-! ## Rows of a scratchpad -/

theorem scratchKey_lt {t a : Nat} (h : a < 2 ^ 20) : scratchKey t a = t * 2 ^ 20 + a := by
  unfold scratchKey
  omega

/-- The 512 bytes that go into row `r + i` of a run of rows written with `bs`. -/
def rowOf (bs : Bytes) (i : Nat) : Bytes :=
  (bs.drop (512 * i)).take 512 ++ List.replicate (512 - ((bs.drop (512 * i)).take 512).length) 0#8

theorem rowOf_length (bs : Bytes) (i : Nat) : (rowOf bs i).length = 512 := by
  simp [rowOf]

theorem State.writeRow_scratch (s : State) (t r : Nat) (bs : Bytes) :
    (s.writeRow t r bs).mem.scratch = Mem.writeN 0#8 s.mem.scratch (scratchKey t (512 * r)) (bs.take 512) := rfl

/-- Writing a row changes the scratchpad and the tile's struck words, nothing else. -/
theorem State.writeRow_frame (s : State) (t r : Nat) (bs : Bytes) :
    ((s.writeRow t r bs).setTiles s.tiles).setMem s.mem = s := rfl

theorem State.writeRow_mem (s : State) (t r : Nat) (bs : Bytes) :
    (s.writeRow t r bs).mem = { s.mem with scratch := (s.writeRow t r bs).mem.scratch } := rfl

theorem State.writeRow_tile (s : State) (t r : Nat) (bs : Bytes) :
    (s.writeRow t r bs).tile t = { s.tile t with bad := NMap.eraseRange (s.tile t).bad (64 * r) (64 * r + 64) } := by
  simp [State.writeRow]

theorem State.writeRow_tile_ne (s : State) {t u : Nat} (r : Nat) (bs : Bytes) (h : u ≠ t) : (s.writeRow t r bs).tile u = s.tile u := by
  simp [State.writeRow, State.tile_modTile_ne _ _ h]

/-- Writing rows changes the scratchpads and the struck words of the tile, nothing else. -/
theorem State.writeRows_frame (s : State) (t : Nat) : ∀ (n r : Nat) (bs : Bytes),
    ((s.writeRows t r n bs).setTiles s.tiles).setMem s.mem = s := by
  intro n
  induction n generalizing s with
  | zero => intros; rfl
  | succ n ih =>
    intro r bs
    have := ih (s.writeRow t r (bs.take 512 ++ List.replicate (512 - (bs.take 512).length) 0#8)) (r + 1) (bs.drop 512)
    have h := congrArg (fun x : State => (x.setTiles s.tiles).setMem s.mem) this
    exact h

theorem State.writeRows_mem (s : State) (t : Nat) : ∀ (n r : Nat) (bs : Bytes),
    (s.writeRows t r n bs).mem = { s.mem with scratch := (s.writeRows t r n bs).mem.scratch } := by
  intro n
  induction n generalizing s with
  | zero => intros; rfl
  | succ n ih => intro r bs; rw [State.writeRows, ih]; rfl

/-- The tile's banks, crews and queues stay while its rows are written. -/
theorem State.writeRows_tile (s : State) (t : Nat) : ∀ (n r : Nat) (bs : Bytes),
    ∃ m, (s.writeRows t r n bs).tile t = { s.tile t with bad := m } ∧ ∀ k, k ∈ m → k ∈ (s.tile t).bad := by
  intro n
  induction n generalizing s with
  | zero => intros; exact ⟨_, rfl, fun _ h => h⟩
  | succ n ih =>
    intro r bs
    obtain ⟨m, hm, hs⟩ := ih (s.writeRow t r (bs.take 512 ++ List.replicate (512 - (bs.take 512).length) 0#8)) (r + 1) (bs.drop 512)
    rw [State.writeRow_tile] at hm hs
    exact ⟨m, hm, fun k hk => List.mem_of_mem_filter (hs k hk)⟩

theorem State.writeRows_tile_ne (s : State) {t u : Nat} (h : u ≠ t) : ∀ (n r : Nat) (bs : Bytes),
    (s.writeRows t r n bs).tile u = s.tile u := by
  intro n
  induction n generalizing s with
  | zero => intros; rfl
  | succ n ih => intro r bs; rw [State.writeRows, ih, State.writeRow_tile_ne _ _ _ h]

/-- The first row of a run, of `K` bytes, and the rows after it. -/
theorem State.read_first (m : Mem) (bs ro : Bytes) (K A N x A' N' : Nat) (hK : ro.length = K) (hA : A' = A + K) (hN : N' = N + K)
    (hr : ∀ i, i < K → ro.getD i 0#8 = bs.getD i 0#8) :
    (if A' ≤ x ∧ x < A' + N then (bs.drop K).getD (x - A') 0#8 else Mem.read 0#8 (Mem.writeN 0#8 m A ro) x) =
    if A ≤ x ∧ x < A + N' then bs.getD (x - A) 0#8 else Mem.read 0#8 m x := by
  subst hA hN
  by_cases h1 : A + K ≤ x ∧ x < A + K + N
  · have h3 : A ≤ x ∧ x < A + (N + K) := by omega
    have hi : K + (x - (A + K)) = x - A := by omega
    rw [if_pos h1, if_pos h3]
    simp only [List.getD_eq_getElem?_getD, List.getElem?_drop, hi]
  · rw [if_neg h1]
    by_cases h2 : A ≤ x ∧ x < A + K
    · have h3 : A ≤ x ∧ x < A + (N + K) := by omega
      have hi : x - A < K := by omega
      have := Mem.read_writeN_inside 0#8 ro m A (x - A) (by omega)
      rw [show A + (x - A) = x by omega] at this
      rw [if_pos h3, this, hr _ hi]
    · have h3 : ¬ (A ≤ x ∧ x < A + (N + K)) := by omega
      rw [if_neg h3, Mem.read_writeN_outside 0#8 _ _ _ _ (by omega)]

theorem rowOf_getD (bs : Bytes) (i : Nat) (h : i < 512) : (rowOf bs 0).getD i 0#8 = bs.getD i 0#8 := by
  simp only [rowOf, Nat.mul_zero, List.drop_zero, List.getD_eq_getElem?_getD, List.getElem?_append, List.length_take]
  split
  · rw [List.getElem?_take_of_lt h]
  · rename_i hlen
    rw [List.getElem?_replicate]
    have : bs.length ≤ i := by omega
    rw [List.getElem?_eq_none this]
    split <;> rfl

/-- What the rows of a run hold after they are written, and that every other byte keeps its value. -/
theorem State.read_writeRows (s : State) (t : Nat) : ∀ (n r : Nat) (bs : Bytes) (x : Nat), r + n ≤ 2048 →
    Mem.read 0#8 (s.writeRows t r n bs).mem.scratch x =
      if t * 2 ^ 20 + 512 * r ≤ x ∧ x < t * 2 ^ 20 + 512 * r + 512 * n then bs.getD (x - (t * 2 ^ 20 + 512 * r)) 0#8
      else Mem.read 0#8 s.mem.scratch x := by
  intro n
  induction n generalizing s with
  | zero =>
    intro r bs x _
    rw [if_neg (by omega)]
    rfl
  | succ n ih =>
    intro r bs x hr
    have hk : scratchKey t (512 * r) = t * 2 ^ 20 + 512 * r := scratchKey_lt (by omega)
    rw [State.writeRows, ih _ (r + 1) _ x (by omega), State.writeRow_scratch, hk]
    have hl : ((bs.take 512 ++ List.replicate (512 - (bs.take 512).length) 0#8).take 512) = rowOf bs 0 := by
      have : (bs.take 512 ++ List.replicate (512 - (bs.take 512).length) 0#8) = rowOf bs 0 := by simp [rowOf]
      rw [this]
      exact List.take_of_length_le (by rw [rowOf_length])
    rw [hl]
    exact State.read_first s.mem.scratch bs _ 512 (t * 2 ^ 20 + 512 * r) (512 * n) x _ _ (rowOf_length bs 0) (by rw [Nat.mul_add]; omega)
      (by rw [Nat.mul_add]) (fun i hi => rowOf_getD bs i hi)

/-! ## Banks -/

theorem find_filterMap_range (f : Nat → Word) : ∀ (n i : Nat),
    NMap.find ((List.range n).filterMap (fun i => if f i = 0#32 then none else some (i, f i))) i =
      if i < n ∧ f i ≠ 0#32 then some (f i) else none := by
  intro n
  induction n with
  | zero => intro i; simp
  | succ n ih =>
    intro i
    have app : ∀ (a b : NMap Word), NMap.find (a ++ b) i = (NMap.find a i).or (NMap.find b i) := by
      intro a b
      induction a with
      | nil => simp
      | cons e a iha =>
        obtain ⟨j, v⟩ := e
        by_cases h : j = i <;> simp [NMap.find_cons, h, iha]
    rw [List.range_succ, List.filterMap_append, app, ih i]
    by_cases h0 : f n = 0#32
    · simp only [List.filterMap_cons, h0, if_true, List.filterMap_nil, NMap.find_nil, Option.or_none]
      by_cases h : i < n
      · simp [h, Nat.lt_succ_of_lt h]
      · by_cases h2 : i = n
        · subst h2; simp [h0]
        · rw [if_neg (by omega), if_neg (by omega)]
    · simp only [List.filterMap_cons, h0, if_false, List.filterMap_nil, NMap.find_cons, NMap.find_nil]
      by_cases h : i < n
      · by_cases hf : f i = 0#32
        · simp [h, hf, show n ≠ i by omega]
        · simp [h, hf, Nat.lt_succ_of_lt h]
      · by_cases h2 : i = n
        · subst h2; simp [h0]
        · simp [h, show ¬ i < n + 1 by omega, show n ≠ i by omega]

/-- Cell `i` of a bank whose cells are given as words. -/
theorem cell_cellsOf {k : Bank} {ws : List Word} (hk : k.cells = cellsOf ws) (i : Nat) : k.cell i = ws.getD i 0 := by
  unfold Bank.cell NMap.get
  rw [hk]
  unfold cellsOf
  have := find_filterMap_range (fun i => ws.getD i 0) ws.length i
  simp only at this ⊢
  rw [this]
  by_cases h : i < ws.length
  · by_cases h0 : ws.getD i 0 = 0#32
    · rw [if_neg (fun hh => hh.2 h0), h0]; rfl
    · rw [if_pos ⟨h, h0⟩]; rfl
  · rw [if_neg (by omega)]
    have h1 : ws[i]? = none := List.getElem?_eq_none (by omega)
    simp only [List.getD_eq_getElem?_getD, h1]
    rfl

end Sys2Proof.Machine
end

