-- ==== Sys2Proof/Laws/Frames.lean ====
section
/-!
SUPPORT. What tile commands leave unchanged, and what banks, pairs and rows read after the operations that set them.
-/
namespace Sys2Proof.Machine

open Sys2Proof

theorem getD_map_range {α : Type} (f : Nat → α) (n i : Nat) (d : α) (h : i < n) : ((List.range n).map f).getD i d = f i := by
  simp [List.getD_eq_getElem?_getD, h]

theorem Tile.bank_setBank_self (v : Tile) (k : Nat) (b : Bank) : (v.setBank k b).bank k = b := by
  unfold Tile.setBank Tile.bank; split <;> rfl

theorem Tile.bank_setBank_other (v : Tile) (k : Nat) (b : Bank) : (v.setBank k b).bank (1 - k) = v.bank (1 - k) := by
  unfold Tile.setBank Tile.bank
  by_cases h : k = 0
  · subst h; rfl
  · simp [h, show 1 - k = 0 by omega]

theorem onlyTile_modTile (s : State) (t : Nat) (f : Tile → Tile) : onlyTile s (s.modTile t f) t :=
  ⟨rfl, fun _ h => State.tile_modTile_ne s f h⟩

theorem onlyTile_trans {s s1 s2 : State} {t : Nat} (h1 : onlyTile s s1 t) (h2 : onlyTile s1 s2 t) : onlyTile s s2 t := by
  refine ⟨?_, fun u hu => (h2.2 u hu).trans (h1.2 u hu)⟩
  have := congrArg (fun x : State => x.setTiles s.tiles) h2.1
  exact this.trans h1.1

theorem pumpMatrix_idle (s : State) (t : Nat) (h : (s.tile t).matrixQ = []) : ∀ n, s.pumpMatrix t n = s
  | 0 => rfl
  | n + 1 => by unfold State.pumpMatrix; rw [h]

theorem goMatrix_idle (s : State) (t : Nat) (h : (s.tile t).matrixQ = []) : s.goMatrix t = s := pumpMatrix_idle s t h _

/-- The block that an operation at the front of the queue computes first where a bank is free. -/
theorem goMatrix_step (s : State) (t b : Nat) (op : MatrixOp) (q : List MatrixOp) (hq : (s.tile t).matrixQ = op :: q) (hl : op.next < op.blocks)
    (hn : (s.tile t).nextBank op = some b) : s.goMatrix t = (s.runMatrix t b op).pumpMatrix t ((s.tile t).blocksLeft - 1) := by
  have h1 : (s.tile t).blocksLeft = ((s.tile t).blocksLeft - 1) + 1 := by
    unfold Tile.blocksLeft
    rw [hq, List.map_cons, List.sum_cons]
    omega
  unfold State.goMatrix
  rw [h1, State.pumpMatrix]
  simp only [hq, hn, Nat.add_sub_cancel]

/-- A queue whose front operation finds no bank stands. -/
theorem pumpMatrix_stands (s : State) (t : Nat) (op : MatrixOp) (q : List MatrixOp) (hq : (s.tile t).matrixQ = op :: q)
    (hn : (s.tile t).nextBank op = none) : ∀ n, s.pumpMatrix t n = s
  | 0 => rfl
  | n + 1 => by unfold State.pumpMatrix; simp only [hq, hn]

theorem sliceSum_congr (s s' : State) (t bank : Nat) (a b : Desc) (pa pb : Nat → Byte) (x y sl : Nat)
    (hm : s'.mem.scratch = s.mem.scratch) (ht : (s'.tile t).tables = (s.tile t).tables) :
    s'.sliceSum t bank a b pa pb x y sl = s.sliceSum t bank a b pa pb x y sl := by
  have he : ∀ (d : Desc) (p : Nat → Byte) (x k : Nat), (s'.tile t).element bank d p x k = (s.tile t).element bank d p x k := by
    intro d p x k
    simp only [Tile.element, Tile.codebook, Tile.tableBytes, ht]
  have hsc : ∀ (d : Desc) (x sl : Nat), s'.scaleOf t d x sl = s.scaleOf t d x sl := by
    intro d x sl
    simp only [State.scaleOf, hm]
  simp only [State.sliceSum, he, hsc]

theorem accumulate_congr (s s' : State) (t bank : Nat) (a b : Desc) (pa pb : Nat → Byte) (x y : Nat) (acc : Word)
    (hm : s'.mem.scratch = s.mem.scratch) (ht : (s'.tile t).tables = (s.tile t).tables) :
    s'.accumulate t bank a b pa pb x y acc = s.accumulate t bank a b pa pb x y acc := by
  simp only [State.accumulate, sliceSum_congr s s' t bank a b pa pb x y _ hm ht]

theorem nextBank_lt (v : Tile) (op : MatrixOp) (k : Nat) (hb : op.bank < 2) (h : v.nextBank op = some k) : k < 2 := by
  unfold Tile.nextBank at h
  simp only at h
  split at h
  · simp at h
  · split at h
    · simp at h; omega
    · split at h
      · simp at h; omega
      · simp at h

/-- An instruction whose context issues acts. -/
theorem issue_runs (s : State) (p bay : Nat) (i : Instr) (w : Bool) (run : State) (h : s.waitsIn p bay = false) (hw : w = false) :
    s.issue p bay i w run = .next run := by
  unfold State.issue
  simp [h, hw]

/-- An instruction whose context does not issue it waits. -/
theorem issue_waits (s : State) (p bay : Nat) (i : Instr) (w : Bool) (run : State) (h : s.waitsIn p bay = true ∨ w = true) :
    s.issue p bay i w run = .next (s.hold p bay i) := by
  unfold State.issue
  rcases h with h | h <;> simp [h]

/-- A partition whose contexts hold no waiting instruction has none that could go on. -/
theorem pump_idle (s : State) (p : Nat) (h : ((s.part p).map Part.waitingCount).getD 0 = 0) : s.pump p = s := by
  unfold State.pump
  rw [h]
  rfl

theorem in_run {x N : Nat} (A : Nat) (h : x < N) : A ≤ A + x ∧ A + x < A + N := by omega

theorem out_run {A N x : Nat} (h : x < A ∨ A + N ≤ x) : ¬ (A ≤ x ∧ x < A + N) := by omega

theorem read_after_writeRows (s : State) (t r n x : Nat) (bs : Bytes) (hr : r + n ≤ 2048) (hx : x < 512 * n) :
    Mem.read 0#8 (s.writeRows t r n bs).mem.scratch (t * 2 ^ 20 + 512 * r + x) = bs.getD x 0#8 := by
  rw [State.read_writeRows s t n r bs _ hr, if_pos (in_run _ hx), Nat.add_sub_cancel_left]

theorem onlyRows_writeRows (s : State) (t r n : Nat) (bs : Bytes) (f : Tile → Tile) (hr : r + n ≤ 2048) :
    onlyRows s ((s.writeRows t r n bs).modTile t f) t r n := by
  refine ⟨?_, ?_, ?_, ?_⟩
  · have := State.writeRows_frame s t n r bs
    exact this
  · intro u hu
    rw [State.tile_modTile_ne _ _ hu, State.writeRows_tile_ne _ hu]
  · rw [State.modTile_mem]; exact State.writeRows_mem s t n r bs
  · intro x hx
    rw [State.modTile_mem, State.read_writeRows s t n r bs _ hr]
    rw [if_neg (out_run hx)]

theorem onlyRows_writeRows0 (s : State) (t r n : Nat) (bs : Bytes) (hr : r + n ≤ 2048) :
    onlyRows s (s.writeRows t r n bs) t r n := by
  refine ⟨State.writeRows_frame s t n r bs, fun u hu => State.writeRows_tile_ne _ hu _ _ _, State.writeRows_mem s t n r bs, ?_⟩
  intro x hx
  rw [State.read_writeRows s t n r bs _ hr, if_neg (out_run hx)]

theorem flatMap_getD (f : Nat → Bytes) (w : Nat) (hw : ∀ c, (f c).length = w) : ∀ (n c b : Nat), c < n → b < w →
    ((List.range n).flatMap f).getD (w * c + b) 0#8 = (f c).getD b 0#8 := by
  intro n
  induction n with
  | zero => intro c b h; omega
  | succ n ih =>
    intro c b hc hb
    have hl : ((List.range n).flatMap f).length = w * n := by
      simp [List.length_flatMap, hw, Nat.mul_comm]
    rw [List.range_succ, List.flatMap_append]
    by_cases h : c < n
    · have : w * c + b < w * n := by
        calc w * c + b < w * c + w := by omega
          _ = w * (c + 1) := by rw [Nat.mul_succ]
          _ ≤ w * n := Nat.mul_le_mul_left _ h
      rw [List.getD_append _ _ _ _ (by omega)]
      exact ih c b h hb
    · have : c = n := by omega
      subst this
      rw [List.getD_append_right _ _ _ _ (by omega), hl, Nat.add_sub_cancel_left]
      simp

theorem drainRows_le (fmt : Nat) : drainRows fmt ≤ 16 := by
  unfold drainRows; split <;> decide

theorem Tile.setBank_set (v : Tile) (k : Nat) (b : Bank) : (v.setBank k b).twin = v.twin ∧ (v.setBank k b).matrixQ = v.matrixQ := by
  unfold Tile.setBank; split <;> exact ⟨rfl, rfl⟩

theorem everySecond_getD : ∀ (ws : List Word) (c : Nat), (everySecond ws).getD c 0 = ws.getD (2 * c) 0
  | [], c => by simp [everySecond]
  | [a], 0 => by simp [everySecond]
  | [a], c + 1 => by simp [everySecond]
  | a :: b :: ws, 0 => by simp [everySecond]
  | a :: b :: ws, c + 1 => by
    have := everySecond_getD ws c
    simp only [everySecond, show 2 * (c + 1) = 2 * c + 1 + 1 by omega]
    simpa using this

theorem setPairs_pair (v : Tile) (ws : List Word) (c : Nat) : (v.setPairs ws).pair c = (ws.getD (2 * c) 0, ws.getD (2 * c + 1) 0) := by
  simp only [Tile.setPairs, Tile.pair, pairBank]
  rw [cell_cellsOf rfl, cell_cellsOf rfl, everySecond_getD, everySecond_getD]
  simp [List.getD_eq_getElem?_getD, Nat.add_comm]

theorem mapPairs_pair (v : Tile) (f : Nat → Word × Word → Word × Word) (c : Nat) (hc : c < 1024) : (v.mapPairs f).pair c = f c (v.pair c) := by
  simp only [Tile.mapPairs, Tile.pair]
  rw [cell_cellsOf rfl, cell_cellsOf rfl, List.map_map, List.map_map, getD_map_range _ _ _ _ hc, getD_map_range _ _ _ _ hc]
  rfl

theorem Crew.get_set (c : Crew) (l d l' r : Nat) (w : Word) (hd : d < 32) (hr : r < 32) :
    (c.set l d w).get l' r = if l' = l ∧ r = d then w else c.get l' r := by
  unfold Crew.set Crew.get
  by_cases h : l' = l ∧ r = d
  · rw [if_pos h, h.1, h.2]; simp
  · rw [if_neg h]
    exact NMap.get_put_ne _ _ _ (by omega)

theorem Crew.foldl_set (k : Crew) (d : Nat) (f : Nat → Word) (hd : d < 32) : ∀ (n : Nat) (l r : Nat), r < 32 →
    ((List.range n).foldl (fun c l => if k.on l then c.set l d (f l) else c) k).get l r =
      if l < n ∧ k.on l = true ∧ r = d then f l else k.get l r := by
  intro n
  induction n with
  | zero => intro l r hr; simp
  | succ n ih =>
    intro l r hr
    rw [List.range_succ, List.foldl_append, List.foldl_cons, List.foldl_nil]
    by_cases hn : k.on n = true
    · rw [if_pos hn, Crew.get_set _ _ _ _ _ _ hd hr, ih l r hr]
      by_cases h : l = n ∧ r = d
      · rw [if_pos h, if_pos ⟨by omega, h.1 ▸ hn, h.2⟩, h.1]
      · rw [if_neg h]
        by_cases h2 : l < n ∧ k.on l = true ∧ r = d
        · rw [if_pos h2, if_pos ⟨by omega, h2.2⟩]
        · rw [if_neg h2, if_neg (by intro h3; by_cases h4 : l = n; exact h ⟨h4, h3.2.2⟩; exact h2 ⟨by omega, h3.2⟩)]
    · rw [if_neg hn, ih l r hr]
      by_cases h2 : l < n ∧ k.on l = true ∧ r = d
      · rw [if_pos h2, if_pos ⟨by omega, h2.2⟩]
      · rw [if_neg h2, if_neg (by intro h3; by_cases h4 : l = n; exact hn (h4 ▸ h3.2.1); exact h2 ⟨by omega, h3.2⟩)]

theorem Crew.foldl_frame (k0 : Crew) (d : Nat) (f : Nat → Word) (ls : List Nat) (k : Crew) :
    let c := ls.foldl (fun c l => if k0.on l then c.set l d (f l) else c) k
    c.active = k.active ∧ c.paths = k.paths ∧ c.loops = k.loops ∧ c.kernel = k.kernel := by
  induction ls generalizing k with
  | nil => exact ⟨rfl, rfl, rfl, rfl⟩
  | cons l ls ih =>
    simp only [List.foldl_cons]
    by_cases h : k0.on l = true
    · rw [if_pos h]; exact ih (k.set l d (f l))
    · rw [if_neg h]; exact ih k

theorem Crew.writes_eachLane (k : Crew) (d : Nat) (f : Nat → Word) (hd : d < 32) : Crew.writes k (k.eachLane d f) d f := by
  have := Crew.foldl_frame k d f (List.range 64) k
  refine ⟨this.1, this.2.1, this.2.2.1, ?_⟩
  intro l r hl hr
  rw [Crew.eachLane, Crew.foldl_set k d f hd 64 l r hr]
  simp [hl]

theorem onlyCrew_putCrew (s : State) (t c : Nat) (k : Crew) : onlyCrew s (s.putCrew t c k) t c := by
  refine ⟨onlyTile_modTile s t _, ?_, ?_⟩
  · rw [State.putCrew, State.tile_modTile_self]
  · intro e he
    rw [State.putCrew, State.tile_modTile_self]
    exact congrArg (fun o => o.getD Crew.blank) (NMap.find_insert_ne _ _ he)

theorem crew_putCrew (s : State) (t c : Nat) (k : Crew) : ((s.putCrew t c k).tile t).crew c = k := by
  rw [State.putCrew, State.tile_modTile_self]
  simp [Tile.crew, NMap.get]

theorem lane_completes (s : State) (t crew : Nat) (op : LaneOp) (hr : s.crewReady t crew = true) (ho : laneOpOk op = true)
    (hp : ((s.tile t).crew crew).paths.length < 16 ∨ execLaneInstruction.opensPath op = false) :
    exec (.laneInstruction t crew op) s = .next (s.putCrew t crew (((s.tile t).crew crew).run op)) := by
  show execLaneInstruction t crew op s = _
  unfold execLaneInstruction
  rcases hp with hp | hp <;> simp [require, hr, ho, hp]

theorem sum_bits (g : Nat → Bool) : ∀ n, ((List.range n).map (fun l => if g l then 2 ^ l else 0)).sum < 2 ^ n ∧
    ∀ l, (((List.range n).map (fun l => if g l then 2 ^ l else 0)).sum).testBit l = (decide (l < n) && g l) := by
  intro n
  induction n with
  | zero => simp
  | succ n ih =>
    obtain ⟨ih1, ih2⟩ := ih
    have hs : ((List.range (n + 1)).map (fun l => if g l then 2 ^ l else 0)).sum = ((List.range n).map (fun l => if g l then 2 ^ l else 0)).sum + (if g n then 2 ^ n else 0) := by
      rw [List.range_succ, List.map_append, List.sum_append]; simp
    rw [hs]
    generalize ((List.range n).map (fun l => if g l then 2 ^ l else 0)).sum = S at *
    constructor
    · rw [Nat.pow_succ]; split <;> omega
    · intro l
      by_cases hg : g n = true
      · rw [if_pos hg, Nat.add_comm]
        by_cases hl : l = n
        · subst hl
          rw [Nat.testBit_two_pow_add_eq, Nat.testBit_lt_two_pow ih1]; simp [hg]
        · by_cases hlt : l < n
          · rw [Nat.testBit_two_pow_add_gt hlt, ih2]; simp [hlt, Nat.lt_succ_of_lt hlt]
          · have : 2 ^ n + S < 2 ^ l := by
              have : 2 ^ (n + 1) ≤ 2 ^ l := Nat.pow_le_pow_right (by omega) (by omega)
              rw [Nat.pow_succ] at this; omega
            rw [Nat.testBit_lt_two_pow this]; simp [show ¬ l < n + 1 by omega]
      · rw [if_neg hg, Nat.add_zero, ih2]
        by_cases hl : l = n
        · subst hl; simp [hg]
        · by_cases hlt : l < n
          · simp [hlt, Nat.lt_succ_of_lt hlt]
          · simp [hlt, show ¬ l < n + 1 by omega]

theorem ofNat_bits (g : Nat → Bool) (n w l : Nat) (hw : n = w) (hl : l < n) :
    (BitVec.ofNat w (((List.range n).map (fun l => if g l then 2 ^ l else 0)).sum)).getLsbD l = g l := by
  subst hw
  have := (sum_bits g n).2 l
  rw [BitVec.getLsbD, BitVec.toNat_ofNat, Nat.testBit_mod_two_pow, this]
  simp [hl]

theorem Crew.where_getLsbD (k : Crew) (f : Nat → Bool) (l : Nat) (hl : l < 64) : (k.where_ f).getLsbD l = (k.on l && f l) :=
  ofNat_bits (fun l => k.on l && f l) 64 64 l rfl hl

theorem pairSums_getD : ∀ (ws : List Word) (l : Nat), 2 * l + 1 < ws.length →
    (pairSums ws).getD l 0 = lAdd (ws.getD (2 * l) 0) (ws.getD (2 * l + 1) 0)
  | [], _, h => by simp at h
  | [_], l, h => by simp at h
  | a :: b :: ws, 0, _ => by simp [pairSums]
  | a :: b :: ws, l + 1, h => by
    have := pairSums_getD ws l (by simp at h; omega)
    rw [pairSums, show 2 * (l + 1) = 2 * l + 1 + 1 by omega]
    simpa using this

theorem Crew.writes_congr {k k' : Crew} {d : Nat} {f g : Nat → Word} (h : Crew.writes k k' d f) (he : ∀ l, l < 64 → f l = g l) :
    Crew.writes k k' d g := by
  refine ⟨h.1, h.2.1, h.2.2.1, ?_⟩
  intro l r hl hr
  rw [h.2.2.2 l r hl hr, he l hl]

theorem foldl_inv {α β : Type} (P : β → Prop) (f : β → α → β) (hf : ∀ b a, P b → P (f b a)) : ∀ (l : List α) (b : β), P b → P (l.foldl f b)
  | [], _, h => h
  | a :: l, b, h => foldl_inv P f hf l (f b a) (hf b a h)

/-- A pair after one position of a commit (R198): `r` holds the position's coefficient and addend vectors. -/
def commitPos (used : Nat → Bool) (marks : List Nat) (c i : Nat) (r : List Word × List Word) (q : Word × Word) : Word × Word :=
  if used c then
    twinAddPair (if marks.contains i then (0, 0) else twinMulPair q (r.1.getD c 0)) (r.2.getD c 0)
  else (0, 0)

theorem advanceAll_pair (used : Nat → Bool) (marks : List Nat) (c : Nat) (hc : c < 1024) (ps : List (List Word × List Word)) (v : Tile) :
    (v.advanceAll used marks ps).pair c =
      (List.range ps.length).foldl (fun q j => commitPos used marks c j (ps.getD j ([], [])) q) (v.pair c) := by
  unfold Tile.advanceAll
  generalize ps.length = n
  induction n with
  | zero => rfl
  | succ n ih =>
    rw [List.range_succ, List.foldl_append, List.foldl_append, List.foldl_cons, List.foldl_nil, List.foldl_cons, List.foldl_nil, Tile.advance,
      mapPairs_pair _ _ _ hc, ih]
    rfl

theorem advanceAll_rest (used : Nat → Bool) (marks : List Nat) (ps : List (List Word × List Word)) (v : Tile) :
    ({ v.advanceAll used marks ps with bank0 := v.bank0, bank1 := v.bank1 } : Tile) = v ∧
      (v.advanceAll used marks ps).bank0.st = v.bank0.st ∧ (v.advanceAll used marks ps).bank1.st = v.bank1.st := by
  unfold Tile.advanceAll
  refine foldl_inv (fun w : Tile => ({ w with bank0 := v.bank0, bank1 := v.bank1 } : Tile) = v ∧ w.bank0.st = v.bank0.st ∧
    w.bank1.st = v.bank1.st) _ ?_ _ v ⟨rfl, rfl, rfl⟩
  intro w i h
  unfold Tile.advance Tile.mapPairs
  exact h

theorem foldl_insert_find {α : Type} (g : Nat → α) : ∀ (cs : List Nat) (m : NMap α) (c : Nat),
    NMap.find (cs.foldl (fun m c => NMap.insert m c (g c)) m) c = if c ∈ cs then some (g c) else NMap.find m c := by
  intro cs
  induction cs with
  | nil => intro m c; simp
  | cons x cs ih =>
    intro m c
    rw [List.foldl_cons, ih]
    by_cases h : c ∈ cs
    · simp [h]
    · by_cases hx : c = x
      · subst hx; simp [h]
      · simp [h, hx, NMap.find_insert_ne _ _ hx]

theorem wordsOfBytes_getD : ∀ (n : Nat) (bs : Bytes) (i : Nat), i < n →
    (wordsOfBytes n bs).getD i 0 = BitVec.ofNat 32 (ofLe ((bs.drop (4 * i)).take 4)) := by
  intro n
  induction n with
  | zero => intro bs i h; omega
  | succ n ih =>
    intro bs i h
    cases i with
    | zero => simp [wordsOfBytes]
    | succ i =>
      have := ih (bs.drop 4) i (by omega)
      rw [wordsOfBytes, List.getD_cons_succ, this, List.drop_drop, show 4 + 4 * i = 4 * (i + 1) by omega]

theorem readN_drop_take (d : Byte) (m : Mem) : ∀ (n a j k : Nat), j + k ≤ n → ((Mem.readN d m a n).drop j).take k = Mem.readN d m (a + j) k := by
  intro n
  induction n with
  | zero =>
    intro a j k h
    obtain ⟨rfl, rfl⟩ : j = 0 ∧ k = 0 := by omega
    rfl
  | succ n ih =>
    intro a j k h
    cases j with
    | succ j =>
      rw [Mem.readN, List.drop_succ_cons, ih (a + 1) j k (by omega), show a + 1 + j = a + (j + 1) by omega]
    | zero =>
      cases k with
      | zero => simp [Mem.readN]
      | succ k =>
        have := ih (a + 1) 0 k (by omega)
        simp only [List.drop_zero, Nat.add_zero] at this
        rw [Mem.readN, List.drop_zero, List.take_succ_cons, this, Nat.add_zero]; rfl

theorem Crew.foldl_sets (d n : Nat) (f : Nat → Nat → Word) (hd : d + n ≤ 32) : ∀ (j : Nat) (c : Crew) (l l' r : Nat), j ≤ n → r < 32 →
    ((List.range j).foldl (fun c i => c.set l (d + i) (f l i)) c).get l' r =
      if l' = l ∧ d ≤ r ∧ r < d + j then f l (r - d) else c.get l' r := by
  intro j
  induction j with
  | zero => intro c l l' r _ _; rw [if_neg (by omega)]; rfl
  | succ j ih =>
    intro c l l' r hj hr
    rw [List.range_succ, List.foldl_append, List.foldl_cons, List.foldl_nil, Crew.get_set _ _ _ _ _ _ (by omega) hr, ih c l l' r (by omega) hr]
    by_cases h : l' = l ∧ r = d + j
    · rw [if_pos h, if_pos ⟨h.1, by omega, by omega⟩, h.2, Nat.add_sub_cancel_left]
    · rw [if_neg h]
      by_cases h2 : l' = l ∧ d ≤ r ∧ r < d + j
      · rw [if_pos h2, if_pos ⟨h2.1, h2.2.1, by omega⟩]
      · rw [if_neg h2, if_neg (by intro h3; by_cases h4 : r = d + j; exact h ⟨h3.1, h4⟩; exact h2 ⟨h3.1, h3.2.1, by omega⟩)]

theorem Crew.foldl_lanes (k : Crew) (d n : Nat) (f : Nat → Nat → Word) (hd : d + n ≤ 32) : ∀ (m l r : Nat), r < 32 →
    ((List.range m).foldl (fun c l => if k.on l then (List.range n).foldl (fun c i => c.set l (d + i) (f l i)) c else c) k).get l r =
      if l < m ∧ k.on l = true ∧ d ≤ r ∧ r < d + n then f l (r - d) else k.get l r := by
  intro m
  induction m with
  | zero => intro l r _; rw [if_neg (by omega)]; rfl
  | succ m ih =>
    intro l r hr
    rw [List.range_succ, List.foldl_append, List.foldl_cons, List.foldl_nil]
    by_cases hm : k.on m = true
    · rw [if_pos hm, Crew.foldl_sets d n f hd n _ m l r (Nat.le_refl _) hr, ih l r hr]
      by_cases h : l = m ∧ d ≤ r ∧ r < d + n
      · rw [if_pos h, if_pos ⟨by omega, h.1 ▸ hm, h.2⟩, h.1]
      · rw [if_neg h]
        by_cases h2 : l < m ∧ k.on l = true ∧ d ≤ r ∧ r < d + n
        · rw [if_pos h2, if_pos ⟨by omega, h2.2⟩]
        · rw [if_neg h2, if_neg (by intro h3; by_cases h4 : l = m; exact h ⟨h4, h3.2.2⟩; exact h2 ⟨by omega, h3.2⟩)]
    · rw [if_neg hm, ih l r hr]
      by_cases h2 : l < m ∧ k.on l = true ∧ d ≤ r ∧ r < d + n
      · rw [if_pos h2, if_pos ⟨by omega, h2.2⟩]
      · rw [if_neg h2, if_neg (by intro h3; by_cases h4 : l = m; exact hm (h4 ▸ h3.2.1); exact h2 ⟨by omega, h3.2⟩)]

theorem Crew.foldl_lanes_active (k : Crew) (d n : Nat) (f : Nat → Nat → Word) (ls : List Nat) (c : Crew) :
    (ls.foldl (fun c l => if k.on l then (List.range n).foldl (fun c i => c.set l (d + i) (f l i)) c else c) c).active = c.active := by
  induction ls generalizing c with
  | nil => rfl
  | cons l ls ih =>
    rw [List.foldl_cons, ih]
    split
    · exact foldl_inv (fun x : Crew => x.active = c.active) (fun (c : Crew) i => c.set l (d + i) (f l i)) (fun b a h => h) _ c rfl
    · rfl

theorem gatherWidth_cases {w : Nat} (h : gatherWidth w = true) : w = 4 ∨ w = 8 ∨ w = 16 ∨ w = 32 ∨ w = 64 := by
  simpa [gatherWidth, or_assoc] using h

theorem align_lt {a w : Nat} (hw : w = 4 ∨ w = 8 ∨ w = 16 ∨ w = 32 ∨ w = 64) (ha : a < 1048576) : a / w * w + w ≤ 1048576 := by
  rcases hw with rfl | rfl | rfl | rfl | rfl <;> omega

theorem gatherAddr_lt (w : Word) (width : Nat) (h : gatherWidth width = true) : gatherAddr w width + width ≤ 2 ^ 20 :=
  align_lt (gatherWidth_cases h) (Nat.mod_lt _ (by decide))

theorem key_add {t a i : Nat} (h : a + i < 2 ^ 20) : scratchKey t a + i = scratchKey t (a + i) := by
  rw [scratchKey_lt h, scratchKey_lt (by omega), Nat.add_assoc]

theorem scatter_read (t : Nat) (on : Nat → Bool) (at_ : Nat → Nat) (dat : Nat → Bytes) (m0 : Mem) (x : Nat) : ∀ (n : Nat),
    (∀ l, l < n → on l = true → (scratchKey t (at_ l) ≤ x ∧ x < scratchKey t (at_ l) + (dat l).length) →
      (∀ j, l < j → j < n → on j = true → ¬(scratchKey t (at_ j) ≤ x ∧ x < scratchKey t (at_ j) + (dat j).length)) →
      Mem.read 0#8 ((((List.range n).filter on).map (fun l => (at_ l, dat l))).foldl (fun m w => Mem.writeN 0#8 m (scratchKey t w.1) w.2) m0) x =
        (dat l).getD (x - scratchKey t (at_ l)) 0#8) ∧
    ((∀ l, l < n → on l = true → ¬(scratchKey t (at_ l) ≤ x ∧ x < scratchKey t (at_ l) + (dat l).length)) →
      Mem.read 0#8 ((((List.range n).filter on).map (fun l => (at_ l, dat l))).foldl (fun m w => Mem.writeN 0#8 m (scratchKey t w.1) w.2) m0) x =
        Mem.read 0#8 m0 x) := by
  intro n
  induction n with
  | zero => exact ⟨fun l h => by omega, fun _ => rfl⟩
  | succ n ih =>
    obtain ⟨ih1, ih2⟩ := ih
    rw [List.range_succ, List.filter_append]
    by_cases hn : on n = true
    · rw [show [n].filter on = [n] by simp [hn], List.map_append, List.foldl_append, List.map_cons, List.map_nil, List.foldl_cons, List.foldl_nil]
      constructor
      · intro l hl ho hc hno
        by_cases h : l = n
        · subst h
          obtain ⟨i, hi⟩ : ∃ i, x = scratchKey t (at_ l) + i := ⟨x - scratchKey t (at_ l), by omega⟩
          subst hi
          rw [Mem.read_writeN_inside _ _ _ _ _ (by simp only; omega), Nat.add_sub_cancel_left]
        · have hnc := hno n (by omega) (by omega) hn
          rw [Mem.read_writeN_outside _ _ _ _ _ (by simp only; omega)]
          exact ih1 l (by omega) ho hc (fun j h1 h2 => hno j h1 (by omega))
      · intro hno
        have hnc := hno n (by omega) hn
        rw [Mem.read_writeN_outside _ _ _ _ _ (by simp only; omega)]
        exact ih2 (fun l hl => hno l (by omega))
    · rw [show [n].filter on = [] by simp [hn], List.append_nil]
      constructor
      · intro l hl ho hc hno
        have : l ≠ n := fun h => hn (h ▸ ho)
        exact ih1 l (by omega) ho hc (fun j h1 h2 => hno j h1 (by omega))
      · intro hno
        exact ih2 (fun l hl => hno l (by omega))

theorem leBytes_length : ∀ (k n : Nat), (leBytes k n).length = k
  | 0, _ => rfl
  | k + 1, n => by rw [leBytes, List.length_cons, leBytes_length k]

theorem bytesOfWords_getD (f : Nat → Word) (n x : Nat) (hx : x < 4 * n) :
    (bytesOfWords ((List.range n).map f)).getD x 0#8 = (leBytes 4 (f (x / 4)).toNat).getD (x % 4) 0#8 := by
  have := flatMap_getD (fun i => leBytes 4 (f i).toNat) 4 (fun _ => rfl) n (x / 4) (x % 4) (by omega) (by omega)
  rw [show 4 * (x / 4) + x % 4 = x by omega] at this
  rw [bytesOfWords, List.flatMap_map]
  exact this

theorem bytesOfWords_length (ws : List Word) : (bytesOfWords ws).length = 4 * ws.length := by
  unfold bytesOfWords
  rw [List.length_flatMap]
  induction ws with
  | nil => rfl
  | cons w ws ih => rw [List.map_cons, List.sum_cons, ih, leBytes_length, List.length_cons]; omega

theorem eraseRange_nil {α : Type} (lo hi : Nat) : NMap.eraseRange ([] : NMap α) lo hi = [] := rfl

theorem foldl_eraseRange_nil (rows : List Nat) : rows.foldl (fun (b : NMap Bool) r => NMap.eraseRange b (64 * r) (64 * r + 64)) [] = [] := by
  induction rows with
  | nil => rfl
  | cons r rs ih => exact ih

theorem writeRows_one (s : State) (t r : Nat) (bs : Bytes) (h : bs.length = 512) : s.writeRows t r 1 bs = s.writeRow t r bs := by
  simp only [State.writeRows, List.take_of_length_le (Nat.le_of_eq h), h, Nat.sub_self, List.replicate_zero, List.append_nil]

theorem readN_ext {d : Byte} {m m' : Mem} {a a' n : Nat} (h : ∀ i, i < n → Mem.read d m (a + i) = Mem.read d m' (a' + i)) :
    Mem.readN d m a n = Mem.readN d m' a' n := by
  refine List.ext_getElem? (fun i => ?_)
  have l1 := Mem.readN_length d m a n
  have l2 := Mem.readN_length d m' a' n
  by_cases hi : i < n
  · have g1 := Mem.readN_getD d d m a n i hi
    have g2 := Mem.readN_getD d d m' a' n i hi
    rw [List.getD_eq_getElem?_getD] at g1 g2
    rw [List.getElem?_eq_getElem (by omega)] at g1 g2 ⊢
    rw [List.getElem?_eq_getElem (by omega)]
    simp only [Option.getD_some] at g1 g2
    rw [g1, g2, h i hi]
  · rw [List.getElem?_eq_none (by omega), List.getElem?_eq_none (by omega)]

theorem reg_putReg_ne (s : State) (b : Blk) (k : Nat) {off off' : Nat} (w : Word) (h : off' ≠ off) :
    (s.putReg b k off w).reg b k off' = s.reg b k off' := by
  unfold State.reg
  exact State.rawReg_putReg_ne _ _ _ _ _ (Blk.at_ne h)

theorem reg_bump_ne (s : State) (b : Blk) (k n : Nat) {off off' : Nat} (h : off' ≠ off) :
    (s.bump b k off n).reg b k off' = s.reg b k off' := reg_putReg_ne _ _ _ _ h

theorem reg_record_ne (s : State) (b : Blk) (k : Nat) {off off' : Nat} (ue : Bool) {w : Word} (h : off' ≠ off) :
    (s.record b k off ue w).reg b k off' = s.reg b k off' := by
  unfold State.record
  simp only
  split
  · rfl
  · exact reg_putReg_ne _ _ _ _ h

theorem rowKey {t r : Nat} (h : r < 2048) : scratchKey t (512 * r) = t * 2 ^ 20 + 512 * r := scratchKey_lt (by omega)

theorem row_writeRow (s : State) (t r q : Nat) (bs : Bytes) (hb : bs.length = 512) (hr : r < 2048) (hq : q < 2048) :
    (s.writeRow t r bs).row t q = if q = r then bs else s.row t q := by
  have e : (s.writeRow t r bs).row t q = Mem.readN 0#8 (Mem.writeN 0#8 s.mem.scratch (t * 2 ^ 20 + 512 * r) bs) (t * 2 ^ 20 + 512 * q) 512 := by
    unfold State.row State.scratchBytes
    rw [State.writeRow_scratch, rowKey hr, rowKey hq, List.take_of_length_le (Nat.le_of_eq hb)]
  rw [e]
  split
  · next h =>
    subst h
    have := Mem.readN_writeN_same 0#8 bs s.mem.scratch (t * 2 ^ 20 + 512 * q)
    rw [hb] at this
    exact this
  · next h =>
    rw [Mem.readN_writeN_outside 0#8 bs s.mem.scratch (t * 2 ^ 20 + 512 * r) _ 512 (by rw [hb]; omega)]
    unfold State.row State.scratchBytes
    rw [rowKey hq]

theorem row_length (s : State) (t r : Nat) : (s.row t r).length = 512 := Mem.readN_length _ _ _ _

theorem onlyRows_refl (s : State) (t r n : Nat) : onlyRows s s t r n := ⟨rfl, fun _ _ => rfl, rfl, fun _ _ => rfl⟩

theorem onlyRows_trans {s s1 s2 : State} {t r n : Nat} (h1 : onlyRows s s1 t r n) (h2 : onlyRows s1 s2 t r n) : onlyRows s s2 t r n := by
  obtain ⟨a1, b1, c1, d1⟩ := h1
  obtain ⟨a2, b2, c2, d2⟩ := h2
  refine ⟨?_, fun u hu => (b2 u hu).trans (b1 u hu), ?_, fun x hx => (d2 x hx).trans (d1 x hx)⟩
  · have : (((s2.setTiles s1.tiles).setMem s1.mem).setTiles s.tiles).setMem s.mem = (s1.setTiles s.tiles).setMem s.mem := by rw [a2]
    exact this.trans a1
  · rw [c2, c1]

theorem onlyRows_writeRow (s : State) (t r n i : Nat) (bs : Bytes) (hb : bs.length = 512) (hi : i < n) (hn : r + n ≤ 2048) :
    onlyRows s (s.writeRow t (r + i) bs) t r n := by
  refine ⟨State.writeRow_frame _ _ _ _, fun u hu => State.writeRow_tile_ne _ _ _ hu, State.writeRow_mem _ _ _ _, ?_⟩
  intro x hx
  rw [State.writeRow_scratch, rowKey (by omega), List.take_of_length_le (Nat.le_of_eq hb), Mem.read_writeN_outside]
  rw [hb]
  omega

theorem writeRow_bad (s : State) (t r : Nat) (bs : Bytes) (h : (s.tile t).bad = []) : ((s.writeRow t r bs).tile t).bad = [] := by
  rw [State.writeRow_tile, h]; rfl

/-- What copying rows one by one does when no later source is an earlier destination. -/
theorem copyRows_spec (p t src dst n : Nat) (hs : src + n ≤ 2048) (hd : dst + n ≤ 2048) : ∀ (is : List Nat) (s : State),
    (s.tile t).bad = [] → (∀ i ∈ is, i < n) → is.Pairwise (fun i j => dst + i ≠ src + j ∧ i ≠ j) →
    (∀ i ∈ is, (s.copyRows p t src dst is).row t (dst + i) = s.row t (src + i)) ∧
    (∀ q, q < 2048 → (∀ i ∈ is, q ≠ dst + i) → (s.copyRows p t src dst is).row t q = s.row t q) ∧
    onlyRows s (s.copyRows p t src dst is) t dst n := by
  intro is
  induction is with
  | nil => intro s _ _ _; exact ⟨fun i hi => absurd hi (by simp), fun _ _ _ => rfl, onlyRows_refl _ _ _ _⟩
  | cons i is ih =>
    intro s hb hlt hp
    rw [List.pairwise_cons] at hp
    have hi : i < n := hlt i (by simp)
    have hrow : s.rows t (src + i) 1 = s.row t (src + i) := by simp [State.rows]
    have e : s.copyRows p t src dst (i :: is) = (s.writeRow t (dst + i) (s.row t (src + i))).copyRows p t src dst is := by
      rw [State.copyRows, State.engineRows_clean _ _ _ _ _ hb, hrow]
    have hl := row_length s t (src + i)
    obtain ⟨h1, h2, h3⟩ := ih _ (writeRow_bad s t (dst + i) (s.row t (src + i)) hb) (fun j hj => hlt j (by simp [hj])) hp.2
    rw [e]
    refine ⟨?_, ?_, onlyRows_trans (onlyRows_writeRow s t dst n i _ hl hi hd) h3⟩
    · intro j hj
      rcases List.mem_cons.mp hj with rfl | hj
      · rw [h2 (dst + j) (by omega) (fun k hk => by have := (hp.1 k hk).2; omega), row_writeRow _ _ _ _ _ hl (by omega) (by omega), if_pos rfl]
      · have hjn := hlt j (by simp [hj])
        rw [h1 j hj, row_writeRow _ _ _ _ _ hl (by omega) (by omega), if_neg (fun h => (hp.1 j hj).1 h.symm)]
    · intro q hq hno
      rw [h2 q hq (fun k hk => hno k (by simp [hk])), row_writeRow _ _ _ _ _ hl (by omega) hq, if_neg (hno i (by simp))]

theorem leBytes_getD : ∀ (k n b : Nat), b < k → (leBytes k n).getD b 0#8 = BitVec.ofNat 8 (n / 2 ^ (8 * b)) := by
  intro k
  induction k with
  | zero => intro n b h; omega
  | succ k ih =>
    intro n b h
    cases b with
    | zero => simp [leBytes]
    | succ b =>
      rw [leBytes, List.getD_cons_succ, ih _ _ (by omega), Nat.div_div_eq_div_mul, show 8 * (b + 1) = 8 + 8 * b by omega, Nat.pow_add]

theorem scratchWrite_mem (s : State) (t a : Nat) (bs : Bytes) :
    (s.scratchWrite t a bs).mem = { s.mem with scratch := (s.scratchWrite t a bs).mem.scratch } := rfl

theorem scratchWrite_frame (s : State) (t a : Nat) (bs : Bytes) (ts : NMap Tile) (m : Mems) : ((s.scratchWrite t a bs).setTiles ts).setMem m = (s.setTiles ts).setMem m := rfl

/-- What a scrub leaves: its row is read with its errors found, and the pointer moves on. -/
theorem exec_scratchpadScrub (s : State) (t : Nat) (ht : t < 512) :
    exec (.scratchpadScrub t []) s = .next ((match s.ownerOf t with
       | some p => (s.eccFind p t (s.tile t).scrubPtr 1).1
       | none => s).modTile t (fun v =>
       { v with scrubPtr := ((s.tile t).scrubPtr + 1) % 2048, bad := v.bad.filter (fun e => e.2 || e.1 / 64 != (s.tile t).scrubPtr) })) := by
  show execScratchpadScrub t [] s = _
  simp only [execScratchpadScrub, ht, decide_true, require, if_true, State.strike_nil]
  try rfl

theorem eccFind_tiles (s : State) (p t r n : Nat) : (s.eccFind p t r n).1.setRegs s.regs = s := by
  unfold State.eccFind
  have : ∀ (l : List (Nat × Bool)) (a : State × Bool), a.1.setRegs s.regs = s →
      (l.foldl (fun a e => let s1 := a.1.bump .grat p (if e.2 then 0x0C else 0x08) 1
        (s1.record .grat p 0x10 e.2 (eccWord e.2 t (e.1 / 64) (e.1 % 64)), a.2 || e.2)) a).1.setRegs s.regs = s :=
    fun l => foldl_inv (fun a : State × Bool => a.1.setRegs s.regs = s) _ (fun a e h => by
      simp only [State.record]
      split <;> split <;> exact h) l
  exact this _ (s, false) rfl

theorem field_setField_low (w : Word) (v : Nat) : (Word.setField w 15 0 v).field 15 0 = v % 65536 := by
  unfold Word.setField Word.field
  rw [BitVec.toNat_ofNat]
  have := w.isLt
  omega

theorem State.modPart_modPart (s : State) (p : Nat) (f g : Part → Part) : (s.modPart p f).modPart p g = s.modPart p (fun v => g (f v)) := by
  unfold State.modPart State.setParts NMap.modify
  simp only [List.map_map]
  congr 1
  apply List.map_congr_left
  intro e _
  simp only [Function.comp]
  split <;> simp_all

theorem part_of_modPart {s : State} {p : Nat} {pt : Part} (f : Part → Part) (h : s.part p = some pt) : (s.modPart p f).part p = some (f pt) := by
  rw [State.part_modPart_self, h]; rfl

theorem onlyPart_modPart (s : State) (p : Nat) (f : Part → Part) : onlyPart s (s.modPart p f) p :=
  ⟨rfl, fun _ h => State.part_modPart_ne _ _ h⟩

theorem foldl_modTile_frame (f : Tile → Tile) : ∀ (ts : List Nat) (s : State), (ts.foldl (fun s t => s.modTile t f) s).setTiles s.tiles = s := by
  intro ts
  induction ts with
  | nil => intro s; rfl
  | cons t ts ih =>
    intro s
    have := ih (s.modTile t f)
    show ((ts.foldl (fun s t => s.modTile t f) (s.modTile t f)).setTiles (s.modTile t f).tiles).setTiles s.tiles = s
    rw [this]; rfl

theorem foldl_modTile_tile (f : Tile → Tile) : ∀ (ts : List Nat) (s : State) (u : Nat),
    (ts.foldl (fun s t => s.modTile t f) s).tile u = f^[ts.count u] (s.tile u) := by
  intro ts
  induction ts with
  | nil => intro s u; rfl
  | cons t ts ih =>
    intro s u
    rw [List.foldl_cons, ih, List.count_cons]
    by_cases h : t = u
    · subst h
      rw [State.tile_modTile_self]
      simp only [beq_self_eq_true, if_true, Function.iterate_succ, Function.comp]
    · rw [State.tile_modTile_ne _ _ (fun e => h e.symm)]
      simp [h]

theorem iterate_inv {α : Type} (P : α → Prop) (f : α → α) (hf : ∀ a, P a → P (f a)) : ∀ (n : Nat) (a : α), P a → P (f^[n] a) := by
  intro n
  induction n with
  | zero => intro a h; exact h
  | succ n ih => intro a h; exact ih (f a) (hf a h)

theorem settleAll_idle (s : State) (h : s.lesar.goDone = []) : s.settleAll = s := by
  unfold State.settleAll
  cases 64 * (s.lesar.goDone.length + s.lesar.regWaits.length + 1) with
  | zero => rfl
  | succ n => rw [State.settleGos, h]

theorem bayStores_put_self (s : State) (b : Nat) (qs : List PodStore) : (s.putStores b qs).bayStores b = qs := by
  simp [State.putStores, State.bayStores]

theorem bayStores_put_ne (s : State) {b c : Nat} (qs : List PodStore) (h : c ≠ b) : (s.putStores b qs).bayStores c = s.bayStores c := by
  simp [State.putStores, State.bayStores, NMap.get_put_ne _ _ _ h]

theorem scratchWrite_scratch (s : State) (t a : Nat) (bs : Bytes) (h : a < 2 ^ 20) :
    (s.scratchWrite t a bs).mem.scratch = Mem.writeN 0#8 s.mem.scratch (t * 2 ^ 20 + a) bs := by
  rw [← scratchKey_lt h]; rfl

theorem scratchWrite_tile_ne (s : State) {t v : Nat} (a : Nat) (bs : Bytes) (h : v ≠ t) : (s.scratchWrite t a bs).tile v = s.tile v := by
  unfold State.scratchWrite
  rw [State.tile_modTile_ne _ _ h]; rfl

theorem find_none_of {s : State} (h : ∀ e ∈ s.pods, ∀ q ∈ e.2, q.held = false) (f : PodStore → Bool) (hf : ∀ q, f q = true → q.held = true) :
    s.pods.findSome? (fun e => (e.2.find? f).map (fun r => (e.1, r))) = none := by
  rw [List.findSome?_eq_none_iff]
  intro e he
  rw [Option.map_eq_none_iff, List.find?_eq_none]
  intro q hq hfq
  have := hf q hfq
  rw [h e he q hq] at this
  exact absurd this (by decide)

theorem mem_of_find {α : Type} : ∀ {m : NMap α} {k : Nat} {v : α}, NMap.find m k = some v → (k, v) ∈ m
  | [], k, v, h => by simp [NMap.find] at h
  | (j, w) :: m, k, v, h => by
    rw [NMap.find] at h
    split at h
    · next e => subst e; cases h; simp
    · exact List.mem_cons_of_mem _ (mem_of_find h)

theorem mem_insert {α : Type} : ∀ {m : NMap α} {k : Nat} {v : α} {e : Nat × α}, e ∈ NMap.insert m k v → e = (k, v) ∨ e ∈ m
  | [], k, v, e, h => by simp [NMap.insert] at h; exact .inl h
  | (j, w) :: m, k, v, e, h => by
    rw [NMap.insert] at h
    split at h
    · rcases List.mem_cons.mp h with h | h
      · exact .inl h
      · exact .inr h
    · split at h
      · rcases List.mem_cons.mp h with h | h
        · exact .inl h
        · exact .inr (List.mem_cons_of_mem _ h)
      · rcases List.mem_cons.mp h with h | h
        · exact .inr (by rw [h]; simp)
        · rcases mem_insert h with h | h
          · exact .inl h
          · exact .inr (List.mem_cons_of_mem _ h)

theorem mem_put {α : Type} [DecidableEq α] {d : α} {m : NMap α} {k : Nat} {v : α} {e : Nat × α} (h : e ∈ NMap.put d m k v) : e = (k, v) ∨ e ∈ m := by
  unfold NMap.put at h
  split at h
  · exact .inr (List.mem_filter.mp h).1
  · exact mem_insert h

theorem putField_field_low (s : State) (b : Blk) (k off v : Nat) : ((s.putField b k off 15 0 v).reg b k off).field 15 0 = v % 65536 := by
  unfold State.putField
  rw [State.reg_putReg_self]
  exact field_setField_low _ _

theorem addLoad_run (s : State) (p : Nat) (pt : Part) (j : LoadJob) (hp : s.part p = some pt) (hl : pt.load = none) (hq : pt.loadQ = [])
    (hc : pt.copying.getD j.op.kind false = false) (hr : j.bay.isSome = true) :
    s.addLoad p j = if namesActive j.op.bank (pt.activeBank j.op.kind)
      then ((s.modPart p (fun v => { v with loadQ := v.loadQ ++ [j] })).modPart p (fun v => { v with loadQ := [] })).tableBusy p
      else ((s.modPart p (fun v => { v with loadQ := v.loadQ ++ [j] })).modPart p (fun v => { v with loadQ := [] })).modPart p
        (fun v => { v with load := some j }) := by
  unfold State.addLoad
  rw [hp]
  simp only [hq, List.length_nil, Nat.zero_add]
  have hp1 : (s.modPart p (fun v => { v with loadQ := v.loadQ ++ [j] })).part p = some { pt with loadQ := [j] } := by
    rw [part_of_modPart _ hp, hq]; rfl
  have hr' : j.bay.isNone = false := by cases h : j.bay <;> simp_all
  simp only [State.pumpLoads, hp1, hl, hc, hr', Bool.false_eq_true, if_false]
  rfl

theorem part_modPart_map (s : State) (p : Nat) (pt : Part) (f : Part → Part) (h : s.part p = some pt) :
    (s.modPart p f).part p = some (f pt) := part_of_modPart f h

theorem tokenRows_bytes (width : Nat) : 4 * width ≤ 512 * tokenRows width true := by
  unfold tokenRows
  rw [if_pos rfl]
  omega

theorem ctx_insert_self (pt : Part) (bay : Nat) (c : BayCtx) : ({ pt with ctxs := NMap.insert pt.ctxs bay c } : Part).ctx bay = c := by
  simp [Part.ctx, NMap.get]

theorem ctx_insert_ne (pt : Part) {bay b : Nat} (c : BayCtx) (h : b ≠ bay) : ({ pt with ctxs := NMap.insert pt.ctxs bay c } : Part).ctx b = pt.ctx b := by
  simp [Part.ctx, NMap.get, NMap.find_insert_ne _ _ h]

theorem xVictim_spec (mer : Nat) (xs : List XSlot) :
    ∀ n, n ≤ xs.length →
    let age := fun (x : XSlot) => if x.tensor.isNone then 2 ^ 32 else (mer + 2 ^ 32 - x.lastUse) % 2 ^ 32
    let r := (List.range n).foldl (fun (best : Option (Nat × Nat)) i =>
      match xs[i]? with
      | none => best
      | some x =>
        if x.pinned.isSome || x.arriving then best
        else
          let age := if x.tensor.isNone then 2 ^ 32 else (mer + 2 ^ 32 - x.lastUse) % 2 ^ 32
          match best with
          | some (_, a) => if a < age then some (i, age) else best
          | none => some (i, age)) none
    (r = none → ∀ (j : Nat) (y : XSlot), j < n → xs[j]? = some y → ¬(y.pinned = none ∧ y.arriving = false)) ∧
    (∀ i a, r = some (i, a) → i < n ∧ ∃ x, xs[i]? = some x ∧ a = age x ∧ x.pinned = none ∧ x.arriving = false ∧
      ∀ (j : Nat) (y : XSlot), j < n → xs[j]? = some y → y.pinned = none → y.arriving = false → age y ≤ age x ∧ (j < i → age y < age x)) := by
  intro n
  induction n with
  | zero => intro _; refine ⟨fun _ j y h => absurd h (by omega), fun i a h => by simp at h⟩
  | succ n ih =>
    intro hn age
    obtain ⟨ih1, ih2⟩ := ih (by omega)
    rw [List.range_succ, List.foldl_append, List.foldl_cons, List.foldl_nil]
    generalize hr0 : (List.range n).foldl _ none = r0 at ih1 ih2 ⊢
    have hx : xs[n]? = some xs[n] := List.getElem?_eq_getElem (by omega)
    simp only [hx]
    by_cases hp : (xs[n].pinned.isSome || xs[n].arriving) = true
    · rw [if_pos hp]
      have hbad : ¬(xs[n].pinned = none ∧ xs[n].arriving = false) := by
        rintro ⟨h1, h2⟩; rw [h1, h2] at hp; exact absurd hp (by decide)
      refine ⟨fun h j y hj hy => ?_, fun i a h => ?_⟩
      · by_cases hjn : j = n
        · subst hjn; rw [hx] at hy; cases hy; exact hbad
        · exact ih1 h j y (by omega) hy
      · obtain ⟨hi, x, g1, g2, g3, g4, g5⟩ := ih2 i a h
        refine ⟨by omega, x, g1, g2, g3, g4, fun j y hj hy h1 h2 => ?_⟩
        by_cases hjn : j = n
        · subst hjn; rw [hx] at hy; cases hy; exact absurd ⟨h1, h2⟩ hbad
        · exact g5 j y (by omega) hy h1 h2
    · rw [if_neg hp]
      have hgood : xs[n].pinned = none ∧ xs[n].arriving = false := by
        revert hp; cases xs[n].pinned <;> cases xs[n].arriving <;> simp
      have hnew : ∀ (hrest : ∀ (j : Nat) (y : XSlot), j < n → xs[j]? = some y → y.pinned = none → y.arriving = false → age y < age xs[n]),
          n < n + 1 ∧ ∃ x, xs[n]? = some x ∧ age xs[n] = age x ∧ x.pinned = none ∧ x.arriving = false ∧
            ∀ (j : Nat) (y : XSlot), j < n + 1 → xs[j]? = some y → y.pinned = none → y.arriving = false → age y ≤ age x ∧ (j < n → age y < age x) := by
        intro hrest
        refine ⟨by omega, xs[n], hx, rfl, hgood.1, hgood.2, fun j y hj hy h1 h2 => ?_⟩
        by_cases hjn : j = n
        · subst hjn; rw [hx] at hy; cases hy; exact ⟨Nat.le_refl _, fun h => absurd h (by omega)⟩
        · have := hrest j y (by omega) hy h1 h2
          exact ⟨by omega, fun _ => this⟩
      cases r0 with
      | none =>
        refine ⟨fun h => absurd (show some (n, age xs[n]) = none from h) (by simp), fun i a h => ?_⟩
        have h' : some (n, age xs[n]) = some (i, a) := h
        simp only [Option.some.injEq, Prod.mk.injEq] at h'
        obtain ⟨rfl, rfl⟩ := h'
        exact hnew (fun j y hj hy h1 h2 => absurd ⟨h1, h2⟩ (ih1 rfl j y hj hy))
      | some b =>
        obtain ⟨b1, b2⟩ := b
        obtain ⟨hi, x, g1, g2, g3, g4, g5⟩ := ih2 b1 b2 rfl
        show ((if b2 < age xs[n] then some (n, age xs[n]) else some (b1, b2)) = none → _) ∧ ∀ i a, (if b2 < age xs[n] then some (n, age xs[n]) else some (b1, b2)) = some (i, a) → _
        split
        · next hlt =>
          refine ⟨fun h => absurd h (by simp), fun i a h => ?_⟩
          simp only [Option.some.injEq, Prod.mk.injEq] at h
          obtain ⟨rfl, rfl⟩ := h
          refine hnew (fun j y hj hy h1 h2 => ?_)
          have := (g5 j y hj hy h1 h2).1
          rw [g2] at hlt
          exact Nat.lt_of_le_of_lt this hlt
        · next hge =>
          refine ⟨fun h => absurd h (by simp), fun i a h => ?_⟩
          simp only [Option.some.injEq, Prod.mk.injEq] at h
          obtain ⟨rfl, rfl⟩ := h
          refine ⟨by omega, x, g1, g2, g3, g4, fun j y hj hy h1 h2 => ?_⟩
          by_cases hjn : j = n
          · subst hjn; rw [hx] at hy; cases hy
            rw [g2] at hge
            exact ⟨Nat.le_of_not_lt hge, fun h => absurd h (by omega)⟩
          · exact g5 j y (by omega) hy h1 h2

theorem readBlock_frame (s : State) (b : Nat) : ((s.readBlock b).setNand s.nand).setRegs s.regs = s := by
  unfold State.readBlock
  simp only
  split
  · rfl
  · split <;> rfl

theorem at_tier_nt (p o : Nat) (off : Nat) (h : off < 0x40) : Blk.tier.at p o ≠ Blk.nt.at 0 off := by
  simp only [Blk.at, Blk.place]; omega

theorem readBlock_tier (s : State) (b p o : Nat) : (s.readBlock b).reg .tier p o = s.reg .tier p o := by
  unfold State.readBlock
  simp only
  split
  · rfl
  · split
    · exact State.rawReg_putReg_ne _ _ _ _ _ (at_tier_nt _ _ _ (by decide))
    · rfl

theorem nandFind_nil (s : State) (pt : Part) (off n : Nat) : (s.nandFind pt off n []).1 = (s.nandBlocks pt off n).foldl State.readBlock s := rfl

theorem burstFind_clean (s : State) (a n : Nat) (hb : s.dram.bad = []) (hf : s.dram.failed = []) : s.burstFind a n = (s, false) := by
  unfold State.burstFind; rw [hb, hf]; rfl

theorem recordBurst_frame (s : State) (ue : Bool) (a : Nat) : (s.recordBurst ue a).setRegs s.regs = s := by
  unfold State.recordBurst
  simp only
  split <;> rfl

theorem burstFind_frame (s : State) (a n : Nat) : ((s.burstFind a n).1.setDram s.dram).setRegs s.regs = s := by
  have rec_ : ∀ (u : State) (ue : Bool) (a : Nat), (u.setDram s.dram).setRegs s.regs = s → ((u.recordBurst ue a).setDram s.dram).setRegs s.regs = s := by
    intro u ue a h
    have := congrArg (fun x : State => (x.setDram s.dram).setRegs s.regs) (recordBurst_frame u ue a)
    exact this.trans h
  unfold State.burstFind
  have h1 : ∀ (l : List (Nat × Bool)) (acc : State × Bool), ((acc.1.setDram s.dram).setRegs s.regs = s) → ((((l.foldl (fun (acc : State × Bool) e =>
    let s1 := (acc.1.bump .dr 0 (if e.2 then 0x14 else 0x10) 1).recordBurst e.2 (64 * e.1)
    (if e.2 then s1 else s1.setDram { s1.dram with bad := NMap.erase s1.dram.bad e.1 }, acc.2 || e.2)) acc).1).setDram s.dram).setRegs s.regs = s) := by
    intro l
    refine foldl_inv (fun acc : State × Bool => (acc.1.setDram s.dram).setRegs s.regs = s) _ ?_ l
    intro b e hb
    have := rec_ (b.1.bump .dr 0 (if e.2 then 0x14 else 0x10) 1) e.2 (64 * e.1) hb
    generalize (b.1.bump .dr 0 (if e.2 then 0x14 else 0x10) 1).recordBurst e.2 (64 * e.1) = u at this
    simp only
    split <;> exact this
  have h2 : ∀ (l : List Nat) (u : State), ((u.setDram s.dram).setRegs s.regs = s) →
      (((l.foldl (fun (s : State) i => (s.bump .dr 0 0x14 1).recordBurst true (64 * (a / 64 + i))) u).setDram s.dram).setRegs s.regs = s) := by
    intro l
    refine foldl_inv (fun u : State => (u.setDram s.dram).setRegs s.regs = s) _ ?_ l
    intro b e hb
    exact rec_ (b.bump .dr 0 0x14 1) true _ hb
  simp only
  split
  · exact h1 _ (s, false) rfl
  · exact h2 _ _ (h1 _ (s, false) rfl)

theorem dramWrite_frame (s : State) (a : Nat) (bs : Bytes) : (((s.dramWrite a bs).setMem s.mem).setDram s.dram).setRegs s.regs = s := by
  unfold State.dramWrite
  split
  · rfl
  · have h1 : ∀ (l : List Nat) (u : State), ((u.setDram s.dram).setRegs s.regs = s) →
        (((l.foldl (fun (s : State) b => (s.burstFind (64 * b) 64).1) u).setDram s.dram).setRegs s.regs = s) := by
      intro l
      refine foldl_inv (fun u : State => (u.setDram s.dram).setRegs s.regs = s) _ ?_ l
      intro b e hb
      have := congrArg (fun x : State => (x.setDram s.dram).setRegs s.regs) (burstFind_frame b (64 * e) 64)
      exact this.trans hb
    have h2 := h1 (partBursts a bs.length) s rfl
    generalize (partBursts a bs.length).foldl (fun (s : State) b => (s.burstFind (64 * b) 64).1) s = u at h2
    have h3 := congrArg (fun x : State => x.setMem s.mem) h2
    simp only
    split <;> exact h3

theorem writeRuns_frame : ∀ (rs : List (Nat × Nat)) (s : State) (bs : Bytes), (((s.writeRuns rs bs).setMem s.mem).setDram s.dram).setRegs s.regs = s
  | [], s, bs => rfl
  | (a, k) :: rs, s, bs => by
    have h1 := dramWrite_frame s a (bs.take k)
    have h2 := congrArg (fun x : State => ((x.setMem s.mem).setDram s.dram).setRegs s.regs) (writeRuns_frame rs (s.dramWrite a (bs.take k)) (bs.drop k))
    rw [State.writeRuns]
    exact h2.trans h1

/-- A write where no burst is struck and no channel has failed. -/
theorem dramWrite_clean (s : State) (a : Nat) (bs : Bytes) (hb : s.dram.bad = []) (hf : s.dram.failed = []) :
    s.dramWrite a bs = s.setDramMem (Mem.writeN 0#8 s.mem.dram a bs) := by
  unfold State.dramWrite
  split
  · next h => rw [List.isEmpty_iff.1 h]; rfl
  · have h1 : (partBursts a bs.length).foldl (fun s b => (s.burstFind (64 * b) 64).1) s = s :=
      foldl_inv (fun u => u = s) _ (fun b e h => by rw [h, burstFind_clean s _ _ hb hf]) _ s rfl
    have h2 : s.setDram { s.dram with bad := NMap.eraseRange s.dram.bad ((a + 63) / 64) ((a + bs.length) / 64) } = s := by
      have : ({ s.dram with bad := NMap.eraseRange s.dram.bad ((a + 63) / 64) ((a + bs.length) / 64) } : Dram) = s.dram := by
        rw [hb, eraseRange_nil, ← hb]
      rw [this]; rfl
    simp only [h1]
    rw [h2, hf]; rfl

/-- What a clean write of runs leaves of the memory. -/
def writtenRuns : Mem → List (Nat × Nat) → Bytes → Mem
  | m, [], _ => m
  | m, (a, k) :: rs, bs => writtenRuns (Mem.writeN 0#8 m a (bs.take k)) rs (bs.drop k)

theorem writeRuns_clean : ∀ (rs : List (Nat × Nat)) (s : State) (bs : Bytes), s.dram.bad = [] → s.dram.failed = [] →
    s.writeRuns rs bs = s.setDramMem (writtenRuns s.mem.dram rs bs)
  | [], s, bs, _, _ => rfl
  | (a, k) :: rs, s, bs, hb, hf => by
    have := writeRuns_clean rs (s.setDramMem (Mem.writeN 0#8 s.mem.dram a (bs.take k))) (bs.drop k) hb hf
    rw [State.writeRuns, dramWrite_clean s _ _ hb hf, this]
    rfl

theorem writeRuns_parts (s : State) (rs : List (Nat × Nat)) (bs : Bytes) : (s.writeRuns rs bs).parts = s.parts :=
  (congrArg State.parts (writeRuns_frame rs s bs) : ((((s.writeRuns rs bs).setMem s.mem).setDram s.dram).setRegs s.regs).parts = s.parts)

end Sys2Proof.Machine
end

