-- ==== Sys2Proof/Laws/Keep.lean ====
section
/-!
SUPPORT. What every operation keeps. A `Keep` is a property of states that no setter of a field can lose, but for those of the clock, of the queue
and of the memories; the memories may only change to canonical ones. One lemma for each operation of the machine says that it keeps every such
property.
-/
namespace Sys2Proof.Machine

open Sys2Proof

/-- A property that the setters keep. -/
structure Keep where
  P : State → Prop
  stamp : ∀ s v, P s → P (s.setStamp v)
  free : ∀ s v, P s → P (s.setFree v)
  timeHi : ∀ s v, P s → P (s.setTimeHi v)
  regs : ∀ s v, P s → P (s.setRegs v)
  tiles : ∀ s v, P s → P (s.setTiles v)
  pods : ∀ s v, P s → P (s.setPods v)
  tombs : ∀ s v, P s → P (s.setTombs v)
  walks : ∀ s v, P s → P (s.setWalks v)
  dev : ∀ s v, P s → P (s.setDev v)
  guard : ∀ s v, P s → P (s.setGuard v)
  keeper : ∀ s v, P s → P (s.setKeeper v)
  flash : ∀ s v, P s → P (s.setFlash v)
  lesar : ∀ s v, P s → P (s.setLesar v)
  eth : ∀ s v, P s → P (s.setEth v)
  smb : ∀ s v, P s → P (s.setSmb v)
  dram : ∀ s v, P s → P (s.setDram v)
  nand : ∀ s v, P s → P (s.setNand v)
  lender : ∀ s v, P s → P (s.setLender v)
  veolo : ∀ s v, P s → P (s.setVeolo v)
  survey : ∀ s v, P s → P (s.setSurvey v)
  modPart : ∀ s p f, P s → P (s.modPart p f)
  putPart : ∀ s p v, P s → P (s.putPart p v)
  mapParts : ∀ (s : State) (f : Nat × Part → Part), P s → P (s.setParts (s.parts.map (fun e => (e.1, f e))))
  mem : ∀ (s : State) (m : Mems), P s → (s.mem.wf = true → m.wf = true) → P (s.setMem m)

/-- The property holds of a state. -/
def Ok (I : Keep) (s : State) : Prop := I.P s

/-- The property holds of the next state, if there is one. -/
structure OkR (I : Keep) (r : Res) : Prop where
  get : ∀ t, r = .next t → Ok I t

/-- The property holds of a state that may be absent. -/
structure OkO (I : Keep) (o : Option State) : Prop where
  get : ∀ t, o = some t → Ok I t

/-- The property holds of a state that may be absent, with a value. -/
structure OkP {α : Type} (I : Keep) (o : Option (State × α)) : Prop where
  get : ∀ t a, o = some (t, a) → Ok I t

theorem okR_next {I : Keep} {s : State} (h : Ok I s) : OkR I (.next s) := ⟨fun _ e => by cases e; exact h⟩
theorem okR_fault {I : Keep} {e : Fault} : OkR I (.fault e) := ⟨fun _ h => by cases h⟩
theorem okR_refused {I : Keep} {e : Refusal} : OkR I (.refused e) := ⟨fun _ h => by cases h⟩
theorem okO_some {I : Keep} {s : State} (h : Ok I s) : OkO I (some s) := ⟨fun _ e => by cases e; exact h⟩
theorem okO_none {I : Keep} : OkO I none := ⟨fun _ h => by cases h⟩
theorem okP_some {α : Type} {I : Keep} {s : State} {a : α} (h : Ok I s) : OkP I (some (s, a)) := ⟨fun _ _ e => by cases e; exact h⟩
theorem okP_none {α : Type} {I : Keep} : OkP (α := α) I none := ⟨fun _ _ h => by cases h⟩
theorem okO_get {I : Keep} {o : Option State} {t : State} (e : o = some t) (h : OkO I o) : Ok I t := h.get t e
theorem okP_get {α : Type} {I : Keep} {o : Option (State × α)} {t : State} {a : α} (e : o = some (t, a)) (h : OkP I o) : Ok I t := h.get t a e
theorem okO_map {α : Type} {I : Keep} {f : α → State} {o : Option α} (h : ∀ a, Ok I (f a)) : OkO I (o.map f) := by
  cases o with
  | none => exact okO_none
  | some a => exact okO_some (h a)
theorem okO_getD {I : Keep} {o : Option State} {s : State} (h : OkO I o) (hs : Ok I s) : Ok I (o.getD s) := by
  cases o with
  | none => exact hs
  | some t => exact h.get t rfl
theorem ok_fst {α : Type} {I : Keep} {x : State × α} {s : State} {a : α} (e : x = (s, a)) (h : Ok I x.1) : Ok I s := by rw [e] at h; exact h
theorem ok_snd {α : Type} {I : Keep} {x : α × State} {s : State} {a : α} (e : x = (a, s)) (h : Ok I x.2) : Ok I s := by rw [e] at h; exact h
theorem okR_ite {I : Keep} {c : Prop} [Decidable c] {a b : Res} (ha : OkR I a) (hb : OkR I b) : OkR I (if c then a else b) := by
  split
  · exact ha
  · exact hb
theorem ok_ite {I : Keep} {c : Prop} [Decidable c] {a b : State} (ha : Ok I a) (hb : Ok I b) : Ok I (if c then a else b) := by
  split
  · exact ha
  · exact hb
theorem ok_foldl {α : Type} {I : Keep} {f : State → α → State} (hf : ∀ s a, Ok I s → Ok I (f s a)) : ∀ {l : List α} {s : State}, Ok I s →
    Ok I (l.foldl f s)
  | [], _, h => h
  | a :: l, s, h => ok_foldl hf (l := l) (hf s a h)
theorem ok_foldl1 {α β : Type} {I : Keep} {f : State × β → α → State × β} (hf : ∀ b a, Ok I b.1 → Ok I (f b a).1) : ∀ {l : List α} {b : State × β},
    Ok I b.1 → Ok I (l.foldl f b).1
  | [], _, h => h
  | a :: l, b, h => ok_foldl1 hf (l := l) (hf b a h)
theorem ok_foldl2 {α β : Type} {I : Keep} {f : β × State → α → β × State} (hf : ∀ b a, Ok I b.2 → Ok I (f b a).2) : ∀ {l : List α} {b : β × State},
    Ok I b.2 → Ok I (l.foldl f b).2
  | [], _, h => h
  | a :: l, b, h => ok_foldl2 hf (l := l) (hf b a h)
theorem okO_foldl {α : Type} {I : Keep} {f : Option State → α → Option State} (hf : ∀ b a, OkO I b → OkO I (f b a)) : ∀ {l : List α} {b : Option State},
    OkO I b → OkO I (l.foldl f b)
  | [], _, h => h
  | a :: l, b, h => okO_foldl hf (l := l) (hf b a h)

/-- The property holds of the state that the write of a register leads to. -/
structure OkW (I : Keep) (o : WOut) : Prop where
  done : ∀ t, o = .done t → Ok I t
  waits : ∀ t a b, o = .waits t a b → Ok I t

/-- The property holds of the state that an admission leads to. -/
structure OkT (I : Keep) (o : Tried) : Prop where
  admitted : ∀ t a b, o = .admitted t a b → Ok I t
  ended : ∀ t e, o = .ended t e → Ok I t

/-- The property holds of the state that the read of a register leads to. -/
structure OkE (I : Keep) (o : Except Status (State × Word)) : Prop where
  get : ∀ t a, o = .ok (t, a) → Ok I t

/-- A property that the setters of the clock and of the partitions keep too, and the loss of the memories. -/
structure KeepAll extends Keep where
  now : ∀ s v, P s → P (s.setNow v)
  parts : ∀ s v, P s → P (s.setParts v)

theorem okW_done {I : Keep} {s : State} (h : Ok I s) : OkW I (.done s) := ⟨fun _ e => (by cases e; exact h), fun _ _ _ e => (by cases e)⟩
theorem okW_waits {I : Keep} {s : State} {a b : Nat} (h : Ok I s) : OkW I (.waits s a b) := ⟨fun _ e => (by cases e), fun _ _ _ e => by cases e; exact h⟩
theorem okW_no {I : Keep} {st : Status} : OkW I (.no st) := ⟨fun _ e => (by cases e), fun _ _ _ e => (by cases e)⟩
theorem okW_ite {I : Keep} {c : Prop} [Decidable c] {a b : WOut} (ha : OkW I a) (hb : OkW I b) : OkW I (if c then a else b) := by
  split
  · exact ha
  · exact hb
theorem okT_admitted {I : Keep} {s : State} {a b : Nat} (h : Ok I s) : OkT I (.admitted s a b) :=
  ⟨fun _ _ _ e => (by cases e; exact h), fun _ _ e => (by cases e)⟩
theorem okT_ended {I : Keep} {s : State} {e : Recs} (h : Ok I s) : OkT I (.ended s e) := ⟨fun _ _ _ e => (by cases e), fun _ _ e => by cases e; exact h⟩
theorem okT_passed {I : Keep} {b : Bool} : OkT I (.passed b) := ⟨fun _ _ _ e => (by cases e), fun _ _ e => (by cases e)⟩
theorem okT_ite {I : Keep} {c : Prop} [Decidable c] {a b : Tried} (ha : OkT I a) (hb : OkT I b) : OkT I (if c then a else b) := by
  split
  · exact ha
  · exact hb
theorem okE_ok {I : Keep} {s : State} {w : Word} (h : Ok I s) : OkE I (.ok (s, w)) := ⟨fun _ _ e => by cases e; exact h⟩
theorem okE_error {I : Keep} {st : Status} : OkE I (.error st) := ⟨fun _ _ e => (by cases e)⟩
theorem okW_get {I : Keep} {o : WOut} {t : State} (e : o = .done t) (h : OkW I o) : Ok I t := h.done t e
theorem okW_get2 {I : Keep} {o : WOut} {t : State} {a b : Nat} (e : o = .waits t a b) (h : OkW I o) : Ok I t := h.waits t a b e
theorem okT_get {I : Keep} {o : Tried} {t : State} {a b : Nat} (e : o = .admitted t a b) (h : OkT I o) : Ok I t := h.admitted t a b e
theorem okT_get2 {I : Keep} {o : Tried} {t : State} {a : Recs} (e : o = .ended t a) (h : OkT I o) : Ok I t := h.ended t a e
theorem okE_get {I : Keep} {o : Except Status (State × Word)} {t : State} {a : Word} (e : o = .ok (t, a)) (h : OkE I o) : Ok I t := h.get t a e
theorem State.mapParts_keep (I : Keep) (s : State) (f : Nat × Part → Part) (h : Ok I s) : Ok I (s.setParts (s.parts.map (fun e => (e.1, f e)))) :=
  I.mapParts s f h
theorem State.setNow_keep (J : KeepAll) (s : State) (v : Nat) (h : Ok J.toKeep s) : Ok J.toKeep (s.setNow v) := J.now s v h
theorem State.at_keep (J : KeepAll) (s : State) (v : Nat) (h : Ok J.toKeep s) : Ok J.toKeep (s.at v) := J.now s _ h
theorem State.setParts_keep (J : KeepAll) (s : State) (v : NMap Part) (h : Ok J.toKeep s) : Ok J.toKeep (s.setParts v) := J.parts s v h

theorem State.setStamp_keep (I : Keep) (s : State) (v) (h : Ok I s) : Ok I (s.setStamp v) := I.stamp s v h
theorem State.setFree_keep (I : Keep) (s : State) (v) (h : Ok I s) : Ok I (s.setFree v) := I.free s v h
theorem State.setTimeHi_keep (I : Keep) (s : State) (v) (h : Ok I s) : Ok I (s.setTimeHi v) := I.timeHi s v h
theorem State.setRegs_keep (I : Keep) (s : State) (v) (h : Ok I s) : Ok I (s.setRegs v) := I.regs s v h
theorem State.setTiles_keep (I : Keep) (s : State) (v) (h : Ok I s) : Ok I (s.setTiles v) := I.tiles s v h
theorem State.setPods_keep (I : Keep) (s : State) (v) (h : Ok I s) : Ok I (s.setPods v) := I.pods s v h
theorem State.setTombs_keep (I : Keep) (s : State) (v) (h : Ok I s) : Ok I (s.setTombs v) := I.tombs s v h
theorem State.setWalks_keep (I : Keep) (s : State) (v) (h : Ok I s) : Ok I (s.setWalks v) := I.walks s v h
theorem State.setDev_keep (I : Keep) (s : State) (v) (h : Ok I s) : Ok I (s.setDev v) := I.dev s v h
theorem State.setGuard_keep (I : Keep) (s : State) (v) (h : Ok I s) : Ok I (s.setGuard v) := I.guard s v h
theorem State.setKeeper_keep (I : Keep) (s : State) (v) (h : Ok I s) : Ok I (s.setKeeper v) := I.keeper s v h
theorem State.setFlash_keep (I : Keep) (s : State) (v) (h : Ok I s) : Ok I (s.setFlash v) := I.flash s v h
theorem State.setLesar_keep (I : Keep) (s : State) (v) (h : Ok I s) : Ok I (s.setLesar v) := I.lesar s v h
theorem State.setEth_keep (I : Keep) (s : State) (v) (h : Ok I s) : Ok I (s.setEth v) := I.eth s v h
theorem State.setSmb_keep (I : Keep) (s : State) (v) (h : Ok I s) : Ok I (s.setSmb v) := I.smb s v h
theorem State.setDram_keep (I : Keep) (s : State) (v) (h : Ok I s) : Ok I (s.setDram v) := I.dram s v h
theorem State.setNand_keep (I : Keep) (s : State) (v) (h : Ok I s) : Ok I (s.setNand v) := I.nand s v h
theorem State.setLender_keep (I : Keep) (s : State) (v) (h : Ok I s) : Ok I (s.setLender v) := I.lender s v h
theorem State.setVeolo_keep (I : Keep) (s : State) (v) (h : Ok I s) : Ok I (s.setVeolo v) := I.veolo s v h
theorem State.setSurvey_keep (I : Keep) (s : State) (v) (h : Ok I s) : Ok I (s.setSurvey v) := I.survey s v h
theorem State.modPart_keep (I : Keep) (s : State) (p : Nat) (f : Part → Part) (h : Ok I s) : Ok I (s.modPart p f) := I.modPart s p f h
theorem State.putPart_keep (I : Keep) (s : State) (p : Nat) (v : Part) (h : Ok I s) : Ok I (s.putPart p v) := I.putPart s p v h

theorem Mems.wf_parts {m : Mems} : m.wf = true ↔ Mem.wf 0#8 m.scratch = true ∧ Mem.wf 0#8 m.dram = true ∧ Mem.wf 0#8 m.nand = true ∧
    Mem.wf 0xFF#8 m.flash = true := by
  unfold Mems.wf
  simp only [Bool.and_eq_true]
  tauto

theorem State.setScratch_keep (I : Keep) (s : State) (m : Mem) (h : Ok I s) (hm : Mem.wf 0#8 s.mem.scratch = true → Mem.wf 0#8 m = true) :
    Ok I (s.setScratch m) := I.mem s _ h fun w => by
  rw [Mems.wf_parts] at w ⊢
  exact ⟨hm w.1, w.2.1, w.2.2.1, w.2.2.2⟩
theorem State.setDramMem_keep (I : Keep) (s : State) (m : Mem) (h : Ok I s) (hm : Mem.wf 0#8 s.mem.dram = true → Mem.wf 0#8 m = true) :
    Ok I (s.setDramMem m) := I.mem s _ h fun w => by
  rw [Mems.wf_parts] at w ⊢
  exact ⟨w.1, hm w.2.1, w.2.2.1, w.2.2.2⟩
theorem State.setNandMem_keep (I : Keep) (s : State) (m : Mem) (h : Ok I s) (hm : Mem.wf 0#8 s.mem.nand = true → Mem.wf 0#8 m = true) :
    Ok I (s.setNandMem m) := I.mem s _ h fun w => by
  rw [Mems.wf_parts] at w ⊢
  exact ⟨w.1, w.2.1, hm w.2.2.1, w.2.2.2⟩
theorem State.setFlashMem_keep (I : Keep) (s : State) (m : Mem) (h : Ok I s) (hm : Mem.wf 0xFF#8 s.mem.flash = true → Mem.wf 0xFF#8 m = true) :
    Ok I (s.setFlashMem m) := I.mem s _ h fun w => by
  rw [Mems.wf_parts] at w ⊢
  exact ⟨w.1, w.2.1, w.2.2.1, hm w.2.2.2⟩

end Sys2Proof.Machine
end

