-- ==== Sys2Proof/Laws/KeepUnits.lean ====
section
/-!
SUPPORT. What the operations of the registers, the memories, the frames, the flash, the links and the tables keep.
-/
namespace Sys2Proof.Machine

open Sys2Proof
set_option maxRecDepth 20000

/-! ## Regs -/

theorem State.putReg_keep (I : Keep) (s : State) (b : Blk) (k : Nat) (off : Nat) (w : Word) (H_s : Ok I s) :
    Ok I (State.putReg s b k off w) := by
  unfold State.putReg; try dsimp only
  repeat' first | with_reducible assumption | with_reducible apply State.setRegs_keep

theorem State.bump_keep (I : Keep) (s : State) (b : Blk) (k : Nat) (off : Nat) (n : Nat) (H_s : Ok I s) :
    Ok I (State.bump s b k off n) := by
  unfold State.bump; try dsimp only
  repeat' first | with_reducible assumption | with_reducible apply State.putReg_keep

theorem State.putField_keep (I : Keep) (s : State) (b : Blk) (k : Nat) (off : Nat) (hi : Nat) (lo : Nat) (v : Nat) (H_s : Ok I s) :
    Ok I (State.putField s b k off hi lo v) := by
  unfold State.putField; try dsimp only
  repeat' first | with_reducible assumption | with_reducible apply State.putReg_keep

theorem State.resetRegs_keep (I : Keep) (s : State) (b : Blk) (k : Nat) (H_s : Ok I s) :
    Ok I (State.resetRegs s b k) := by
  unfold State.resetRegs; try dsimp only
  repeat' first | with_reducible assumption | with_reducible apply State.setRegs_keep

theorem State.resetBlock_keep (I : Keep) (s : State) (b : Blk) (H_s : Ok I s) :
    Ok I (State.resetBlock s b) := by
  unfold State.resetBlock; try dsimp only
  repeat' first | with_reducible assumption | with_reducible apply State.setRegs_keep

theorem State.record_keep (I : Keep) (s : State) (b : Blk) (k : Nat) (off : Nat) (ue : Bool) (w : Word) (H_s : Ok I s) :
    Ok I (State.record s b k off ue w) := by
  unfold State.record; try dsimp only
  repeat' first | with_reducible assumption | with_reducible apply State.putReg_keep | with_reducible apply ok_ite

theorem State.recordFirst_keep (I : Keep) (s : State) (b : Blk) (k : Nat) (off : Nat) (w : Word) (H_s : Ok I s) :
    Ok I (State.recordFirst s b k off w) := by
  unfold State.recordFirst; try dsimp only
  repeat' first | with_reducible assumption | with_reducible apply State.putReg_keep | with_reducible apply ok_ite

/-! ## Ops -/

theorem impossible_keep (I : Keep) (why : String) :
    OkR I (impossible why) := by
  unfold impossible; try dsimp only
  repeat' first | with_reducible apply okR_fault

theorem require_keep (I : Keep) (b : Bool) (why : String) (r : Res) (H_r : OkR I r) :
    OkR I (require b why r) := by
  unfold require; try dsimp only
  repeat' first | with_reducible assumption | with_reducible apply impossible_keep | with_reducible apply okR_ite

theorem State.fresh_keep (I : Keep) (s : State) (H_s : Ok I s) :
    Ok I ((State.fresh s).2) := by
  unfold State.fresh; try dsimp only
  repeat' first | with_reducible assumption | with_reducible apply State.setFree_keep

theorem State.putTile_keep (I : Keep) (s : State) (t : Nat) (v : Tile) (H_s : Ok I s) :
    Ok I (State.putTile s t v) := by
  unfold State.putTile; try dsimp only
  repeat' first | with_reducible assumption | with_reducible apply State.setTiles_keep

theorem State.modTile_keep (I : Keep) (s : State) (t : Nat) (f : Tile → Tile) (H_s : Ok I s) :
    Ok I (State.modTile s t f) := by
  unfold State.modTile; try dsimp only
  repeat' first | with_reducible assumption | with_reducible apply State.putTile_keep

theorem State.writeRow_keep (I : Keep) (s : State) (t : Nat) (r : Nat) (bs : Bytes) (H_s : Ok I s) :
    Ok I (State.writeRow s t r bs) := by
  unfold State.writeRow; try dsimp only
  repeat' first
      | (exact fun w => Mem.wf_writeN _ _ _ _ w) | with_reducible assumption | with_reducible apply State.modTile_keep
      | with_reducible apply State.setScratch_keep

theorem State.writeRows_keep (I : Keep) (s : State) (t : Nat) (y0 : Nat) (y1 : Nat) (y2 : Bytes) (H_s : Ok I s) :
    Ok I (State.writeRows s t y0 y1 y2) := by
  induction y1 generalizing s t y0 y2 with
  | zero =>
    unfold State.writeRows; try dsimp only
    repeat' first | with_reducible assumption
  | succ n ih =>
    unfold State.writeRows; try dsimp only
    repeat' first | with_reducible assumption | with_reducible apply ih | with_reducible apply State.writeRow_keep

theorem State.clearTile_keep (I : Keep) (s : State) (t : Nat) (H_s : Ok I s) :
    Ok I (State.clearTile s t) := by
  unfold State.clearTile; try dsimp only
  repeat' first
      | (exact fun w => Mem.wf_clear _ _ _ _ w) | with_reducible assumption | with_reducible apply State.modTile_keep
      | with_reducible apply State.setScratch_keep

theorem State.recordBurst_keep (I : Keep) (s : State) (ue : Bool) (a : Nat) (H_s : Ok I s) :
    Ok I (State.recordBurst s ue a) := by
  unfold State.recordBurst; try dsimp only
  repeat' first | with_reducible assumption | with_reducible apply State.putReg_keep | with_reducible apply ok_ite

theorem State.burstFind_keep (I : Keep) (s : State) (a : Nat) (n : Nat) (H_s : Ok I s) :
    Ok I ((State.burstFind s a n).1) := by
  unfold State.burstFind; try dsimp only
  repeat' first
      | with_reducible assumption | with_reducible apply State.bump_keep | with_reducible apply State.recordBurst_keep
      | with_reducible apply State.setDram_keep | (with_reducible apply ok_foldl; intro _ _ _) | (with_reducible apply ok_foldl1; intro _ _ _)
      | with_reducible apply ok_ite | split

theorem State.dramWrite_keep (I : Keep) (s : State) (a : Nat) (bs : Bytes) (hs : Ok I s) : Ok I (s.dramWrite a bs) := by
  unfold State.dramWrite
  refine ok_ite hs ?_
  extract_lets s1 d s2
  have h2 : Ok I s2 := State.setDram_keep _ _ _ (ok_foldl (fun s b h => State.burstFind_keep I s (64 * b) 64 h) hs)
  clear_value s2
  refine ok_ite ?_ ?_
  · exact State.setDramMem_keep _ _ _ h2 fun w => Mem.wf_writeN _ _ _ _ w
  · refine State.setDramMem_keep _ _ _ h2 fun w => ?_
    generalize List.range bs.length = l
    generalize s2.mem.dram = m at w
    induction l generalizing m with
    | nil => exact w
    | cons i is ih =>
      rw [List.foldl_cons]
      refine ih _ ?_
      split
      · exact w
      · exact Mem.wf_write _ _ _ _ w

theorem State.writeRuns_keep (I : Keep) (s : State) (y0 : List (Nat × Nat)) (y1 : Bytes) (H_s : Ok I s) :
    Ok I (State.writeRuns s y0 y1) := by
  induction y0 generalizing s y1 with
  | nil =>
    unfold State.writeRuns; try dsimp only
    repeat' first | with_reducible assumption
  | cons x xs ih =>
    unfold State.writeRuns; try dsimp only
    repeat' first | with_reducible assumption | with_reducible apply ih | with_reducible apply State.dramWrite_keep

theorem State.shareWrite_keep (I : Keep) (s : State) (pt : Part) (off : Nat) (bs : Bytes) (H_s : Ok I s) :
    OkO I (State.shareWrite s pt off bs) := by
  unfold State.shareWrite; try dsimp only
  repeat' first | with_reducible assumption | with_reducible apply State.writeRuns_keep | with_reducible apply okO_map | intro _

theorem State.writeNandRuns_keep (I : Keep) (s : State) (y0 : List (Nat × Nat)) (y1 : Bytes) (H_s : Ok I s) :
    Ok I (State.writeNandRuns s y0 y1) := by
  induction y0 generalizing s y1 with
  | nil =>
    unfold State.writeNandRuns; try dsimp only
    repeat' first | with_reducible assumption
  | cons x xs ih =>
    unfold State.writeNandRuns; try dsimp only
    repeat' first
        | (exact fun w => Mem.wf_writeN _ _ _ _ w) | with_reducible assumption | with_reducible apply ih | with_reducible apply State.setNandMem_keep

theorem State.freeBlocks_keep (I : Keep) (s : State) (H_s : Ok I s) :
    Ok I (State.freeBlocks s) := by
  unfold State.freeBlocks; try dsimp only
  repeat' first | with_reducible assumption | with_reducible apply State.fresh_keep | with_reducible apply State.setNand_keep

theorem State.saveMap_keep (I : Keep) (s : State) (H_s : Ok I s) :
    Ok I (State.saveMap s) := by
  unfold State.saveMap; try dsimp only
  repeat' first | with_reducible assumption | with_reducible apply State.setNand_keep

theorem State.placeUnits_keep (I : Keep) (s : State) (pt : Part) (off : Nat) (n : Nat) (H_s : Ok I s) :
    Ok I (State.placeUnits s pt off n) := by
  unfold State.placeUnits; try dsimp only
  repeat' first | with_reducible assumption | with_reducible apply State.setNand_keep

theorem State.nandWrite_keep (I : Keep) (s : State) (pt : Part) (off : Nat) (bs : Bytes) (H_s : Ok I s) :
    OkO I (State.nandWrite s pt off bs) := by
  unfold State.nandWrite; try dsimp only
  repeat' first
      | with_reducible assumption | with_reducible apply State.freeBlocks_keep | with_reducible apply State.placeUnits_keep
      | with_reducible apply State.writeNandRuns_keep | with_reducible apply okO_map | intro _

theorem State.clearExtent_keep (I : Keep) (s : State) (e : Nat) (H_s : Ok I s) :
    Ok I (State.clearExtent s e) := by
  unfold State.clearExtent; try dsimp only
  repeat' first
      | (exact fun w => Mem.wf_clear _ _ _ _ w) | with_reducible assumption | with_reducible apply State.setDramMem_keep
      | with_reducible apply State.setDram_keep

theorem State.clearNandExtent_keep (I : Keep) (s : State) (e : Nat) (H_s : Ok I s) :
    Ok I (State.clearNandExtent s e) := by
  unfold State.clearNandExtent; try dsimp only
  repeat' first
      | (exact fun w => Mem.wf_clear _ _ _ _ w) | with_reducible assumption | with_reducible apply State.setNandMem_keep
      | with_reducible apply State.setNand_keep

theorem State.transmit_keep (I : Keep) (s : State) (f : OutFrame) (H_s : Ok I s) :
    Ok I (State.transmit s f) := by
  unfold State.transmit; try dsimp only
  repeat' first | with_reducible assumption | with_reducible apply State.bump_keep | with_reducible apply State.setLesar_keep

theorem State.modSession_keep (I : Keep) (s : State) (n : Nat) (f : Session → Session) (H_s : Ok I s) :
    Ok I (State.modSession s n f) := by
  unfold State.modSession; try dsimp only
  repeat' first | with_reducible assumption | with_reducible apply State.setLesar_keep

theorem State.sendSeq_keep (I : Keep) (s : State) (n : Nat) (f : OutFrame) (H_s : Ok I s) :
    Ok I (State.sendSeq s n f) := by
  unfold State.sendSeq; try dsimp only
  repeat' first
      | with_reducible assumption | with_reducible apply State.modSession_keep | with_reducible apply State.transmit_keep
      | with_reducible apply ok_ite | split

theorem State.sendBare_keep (I : Keep) (s : State) (via : Via) (f : OutFrame) (H_s : Ok I s) :
    Ok I (State.sendBare s via f) := by
  unfold State.sendBare; try dsimp only
  repeat' first | with_reducible assumption | with_reducible apply State.transmit_keep

theorem State.keepReply_keep (I : Keep) (s : State) (c : Ctx) (f : OutFrame) (H_s : Ok I s) :
    Ok I (State.keepReply s c f) := by
  unfold State.keepReply; try dsimp only
  repeat' first | with_reducible assumption | with_reducible apply State.setKeeper_keep | with_reducible apply ok_ite | split

theorem State.reply_keep (I : Keep) (s : State) (c : Ctx) (op : Nat) (st : Status) (pl : Bytes) (H_s : Ok I s) :
    Ok I (State.reply s c op st pl) := by
  unfold State.reply; try dsimp only
  repeat' first
      | with_reducible assumption | with_reducible apply State.keepReply_keep | with_reducible apply State.sendBare_keep
      | with_reducible apply State.sendSeq_keep | with_reducible apply State.setSmb_keep | (with_reducible apply ok_foldl; intro _ _ _)
      | with_reducible apply ok_ite | split

theorem State.putEvtStream_keep (I : Keep) (s : State) (k : Nat) (v : EvtStream) (H_s : Ok I s) :
    Ok I (State.putEvtStream s k v) := by
  unfold State.putEvtStream; try dsimp only
  repeat' first | with_reducible assumption | with_reducible apply State.setLesar_keep

theorem State.flushEvents_keep (I : Keep) (s : State) (k : Nat) (H_s : Ok I s) :
    Ok I (State.flushEvents s k) := by
  unfold State.flushEvents; try dsimp only
  repeat' first
      | with_reducible assumption | with_reducible apply State.putEvtStream_keep | with_reducible apply State.sendSeq_keep
      | (with_reducible apply ok_foldl; intro _ _ _) | split

theorem State.pushEvent_keep (I : Keep) (s : State) (k : Nat) (e : Evt) (H_s : Ok I s) :
    Ok I (State.pushEvent s k e) := by
  unfold State.pushEvent; try dsimp only
  repeat' first
      | with_reducible assumption | with_reducible apply State.bump_keep | with_reducible apply State.flushEvents_keep
      | with_reducible apply State.putEvtStream_keep | with_reducible apply ok_ite | split

theorem State.partEvent_keep (I : Keep) (s : State) (p : Nat) (st : Status) (source : Nat) (object : Nat) (detail : Nat) (H_s : Ok I s) :
    Ok I (State.partEvent s p st source object detail) := by
  unfold State.partEvent; try dsimp only
  repeat' first | with_reducible assumption | with_reducible apply State.pushEvent_keep

theorem State.ownerEvent_keep (I : Keep) (s : State) (p : Nat) (st : Status) (source : Nat) (object : Nat) (detail : Nat) (H_s : Ok I s) :
    Ok I (State.ownerEvent s p st source object detail) := by
  unfold State.ownerEvent; try dsimp only
  repeat' first | with_reducible assumption | with_reducible apply State.pushEvent_keep

theorem State.devEvent_keep (I : Keep) (s : State) (st : Status) (source : Nat) (object : Nat) (detail : Nat) (H_s : Ok I s) :
    Ok I (State.devEvent s st source object detail) := by
  unfold State.devEvent; try dsimp only
  repeat' first | with_reducible assumption | with_reducible apply State.pushEvent_keep

theorem State.sharedEvent_keep (I : Keep) (s : State) (ps : List Nat) (st : Status) (source : Nat) (object : Nat) (detail : Nat) (H_s : Ok I s) :
    Ok I (State.sharedEvent s ps st source object detail) := by
  unfold State.sharedEvent; try dsimp only
  repeat' first
      | with_reducible assumption | with_reducible apply State.devEvent_keep | with_reducible apply State.partEvent_keep
      | (with_reducible apply ok_foldl; intro _ _ _)

theorem State.putLink_keep (I : Keep) (s : State) (i : Nat) (l : Link) (H_s : Ok I s) :
    Ok I (State.putLink s i l) := by
  unfold State.putLink; try dsimp only
  repeat' first | with_reducible assumption | with_reducible apply State.setVeolo_keep

theorem State.pumpPair_keep (I : Keep) (s : State) (dir : Nat) (H_s : Ok I s) :
    Ok I (State.pumpPair s dir) := by
  unfold State.pumpPair; try dsimp only
  repeat' first | with_reducible assumption | with_reducible apply State.putLink_keep

theorem State.queueFlits_keep (I : Keep) (s : State) (dir : Nat) (fs : List Flit) (pair : Nat) (hs : Ok I s) : Ok I (s.queueFlits dir fs pair) := by
  unfold State.queueFlits; try dsimp only
  split
  · exact hs
  · exact State.pumpPair_keep _ _ _ (State.putLink_keep _ _ _ _ hs)

theorem State.sendOn_keep (I : Keep) (s : State) (dir : Nat) (cls : LClass) (dest : Nat) (src : Nat) (prio : Nat) (part : Nat) (bs : Bytes) (H_s : Ok I s) :
    Ok I (State.sendOn s dir cls dest src prio part bs) := by
  unfold State.sendOn; try dsimp only
  repeat' first | with_reducible assumption | with_reducible apply State.queueFlits_keep | with_reducible apply State.setVeolo_keep

theorem State.sendMessage_keep (I : Keep) (s : State) (dir : Nat) (cls : LClass) (part : Nat) (bs : Bytes) (H_s : Ok I s) :
    Ok I (State.sendMessage s dir cls part bs) := by
  unfold State.sendMessage; try dsimp only
  repeat' first | with_reducible assumption | with_reducible apply State.sendOn_keep

theorem State.sendTo_keep (I : Keep) (s : State) (dest : Nat) (cls : LClass) (part : Nat) (bs : Bytes) (H_s : Ok I s) :
    Ok I (State.sendTo s dest cls part bs) := by
  unfold State.sendTo; try dsimp only
  repeat' first | with_reducible assumption | with_reducible apply State.sendOn_keep | split

theorem State.abortTiles_keep (I : Keep) (s : State) (p : Nat) (pt : Part) (H_s : Ok I s) :
    Ok I (State.abortTiles s p pt) := by
  unfold State.abortTiles; try dsimp only
  repeat' first
      | with_reducible assumption | with_reducible apply State.modTile_keep | with_reducible apply State.setPods_keep
      | (with_reducible apply ok_foldl; intro _ _ _)

theorem State.modCtx_keep (I : Keep) (s : State) (p : Nat) (bay : Nat) (f : BayCtx → BayCtx) (H_s : Ok I s) :
    Ok I (State.modCtx s p bay f) := by
  unfold State.modCtx; try dsimp only
  repeat' first | with_reducible assumption | with_reducible apply State.modPart_keep

theorem State.hold_keep (I : Keep) (s : State) (p : Nat) (bay : Nat) (i : Instr) (H_s : Ok I s) :
    Ok I (State.hold s p bay i) := by
  unfold State.hold; try dsimp only
  repeat' first | with_reducible assumption | with_reducible apply State.modCtx_keep

theorem State.issue_keep (I : Keep) (s : State) (p : Nat) (bay : Nat) (i : Instr) (waits : Bool) (run : State) (H_s : Ok I s) (H_run : Ok I run) :
    OkR I (State.issue s p bay i waits run) := by
  unfold State.issue; try dsimp only
  repeat' first | with_reducible assumption | with_reducible apply State.hold_keep | with_reducible apply okR_next | with_reducible apply ok_ite

theorem State.recordFault_keep (I : Keep) (s : State) (p : Nat) (st : Status) (outcome : Nat) (v : StepSt) (H_s : Ok I s) :
    Ok I (State.recordFault s p st outcome v) := by
  unfold State.recordFault; try dsimp only
  repeat' first
      | with_reducible assumption | with_reducible apply State.bump_keep | with_reducible apply State.recordFirst_keep | with_reducible apply ok_ite

theorem State.abortStep_keep (I : Keep) (s : State) (p : Nat) (st : Status) (repair : Bool) (H_s : Ok I s) :
    Ok I (State.abortStep s p st repair) := by
  unfold State.abortStep; try dsimp only
  repeat' first
      | with_reducible assumption | with_reducible apply State.abortTiles_keep | with_reducible apply State.modPart_keep
      | with_reducible apply State.sendMessage_keep | with_reducible apply State.setVeolo_keep | with_reducible apply ok_ite | split

theorem State.failStepAs_keep (I : Keep) (s : State) (p : Nat) (st : Status) (repair : Bool) (outcome : Nat) (H_s : Ok I s) :
    Ok I (State.failStepAs s p st repair outcome) := by
  unfold State.failStepAs; try dsimp only
  repeat' first
      | with_reducible assumption | with_reducible apply State.abortStep_keep | with_reducible apply State.recordFault_keep
      | with_reducible apply ok_ite | split

theorem State.failStep_keep (I : Keep) (s : State) (p : Nat) (st : Status) (repair : Bool) (H_s : Ok I s) :
    Ok I (State.failStep s p st repair) := by
  unfold State.failStep; try dsimp only
  repeat' first | with_reducible assumption | with_reducible apply State.failStepAs_keep

theorem State.failEnding_keep (I : Keep) (s : State) (p : Nat) (st : Status) (H_s : Ok I s) :
    Ok I (State.failEnding s p st) := by
  unfold State.failEnding; try dsimp only
  repeat' first | with_reducible assumption | with_reducible apply State.failStepAs_keep

theorem State.pushGo_keep (I : Keep) (s : State) (what : Nat) (p : Nat) (st : Status) (H_s : Ok I s) :
    Ok I (State.pushGo s what p st) := by
  unfold State.pushGo; try dsimp only
  repeat' first | with_reducible assumption | with_reducible apply State.setLesar_keep

theorem State.strike_keep (I : Keep) (s : State) (env : List Strike) (H_s : Ok I s) :
    Ok I (State.strike s env) := by
  unfold State.strike; try dsimp only
  repeat' first
      | with_reducible assumption | with_reducible apply State.modTile_keep | with_reducible apply State.setDram_keep
      | with_reducible apply State.setFlash_keep | (with_reducible apply ok_foldl; intro _ _ _) | split

theorem State.pathErrors_keep (I : Keep) (s : State) (p : Nat) (env : List Strike) (H_s : Ok I s) :
    Ok I (State.pathErrors s p env) := by
  unfold State.pathErrors; try dsimp only
  repeat' first
      | with_reducible assumption | with_reducible apply State.bump_keep | with_reducible apply State.failStep_keep
      | (with_reducible apply ok_foldl; intro _ _ _) | with_reducible apply ok_ite | split

theorem State.eccFind_keep (I : Keep) (s : State) (p : Nat) (t : Nat) (r : Nat) (n : Nat) (H_s : Ok I s) :
    Ok I ((State.eccFind s p t r n).1) := by
  unfold State.eccFind; try dsimp only
  repeat' first
      | with_reducible assumption | with_reducible apply State.bump_keep | with_reducible apply State.record_keep
      | (with_reducible apply ok_foldl1; intro _ _ _)

theorem State.engineRows_keep (I : Keep) (s : State) (p : Nat) (t : Nat) (r : Nat) (n : Nat) (H_s : Ok I s) :
    Ok I ((State.engineRows s p t r n).1) := by
  unfold State.engineRows; try dsimp only
  repeat' first | with_reducible assumption | with_reducible apply State.eccFind_keep | with_reducible apply State.failStep_keep | split

theorem State.shareReadChecked_keep (I : Keep) (s : State) (pt : Part) (off : Nat) (n : Nat) (H_s : Ok I s) :
    Ok I ((State.shareReadChecked s pt off n).1) := by
  unfold State.shareReadChecked; try dsimp only
  repeat' first | with_reducible assumption | with_reducible apply State.burstFind_keep | (with_reducible apply ok_foldl1; intro _ _ _) | split

theorem State.activate_keep (I : Keep) (s : State) (port : Nat) (ch : Nat) (row : Nat) (H_s : Ok I s) :
    Ok I (State.activate s port ch row) := by
  unfold State.activate; try dsimp only
  repeat' first
      | with_reducible assumption | with_reducible apply State.bump_keep | with_reducible apply State.setDram_keep | with_reducible apply ok_ite

theorem State.touch_keep (I : Keep) (s : State) (port : Nat) (a : Nat) (n : Nat) (H_s : Ok I s) :
    Ok I (State.touch s port a n) := by
  unfold State.touch; try dsimp only
  repeat' first
      | with_reducible assumption | with_reducible apply State.activate_keep | (with_reducible apply ok_foldl; intro _ _ _)
      | with_reducible apply ok_ite

theorem State.touchShare_keep (I : Keep) (s : State) (port : Nat) (pt : Part) (off : Nat) (n : Nat) (H_s : Ok I s) :
    Ok I (State.touchShare s port pt off n) := by
  unfold State.touchShare; try dsimp only
  repeat' first | with_reducible assumption | with_reducible apply State.touch_keep | (with_reducible apply ok_foldl; intro _ _ _)

/-! ## Gate -/

theorem State.freeMbox_keep (I : Keep) (s : State) (c : Ctx) (op : Nat) (H_s : Ok I s) :
    Ok I (State.freeMbox s c op) := by
  unfold State.freeMbox; try dsimp only
  repeat' first | with_reducible assumption | with_reducible apply State.setLesar_keep | split

theorem State.serve_keep (I : Keep) (s : State) (c : Ctx) (op : Nat) (v : Server) (owner : Bool) (body : State → Res) (H_s : Ok I s) (H_body : ∀ x0, Ok I x0 → OkR I (body x0)) :
    OkR I (State.serve s c op v owner body) := by
  unfold State.serve; try dsimp only
  repeat' first
      | with_reducible assumption | with_reducible apply State.freeMbox_keep | with_reducible apply State.reply_keep | apply H_body
      | with_reducible apply okR_next | with_reducible apply okR_ite | split

theorem State.answer_keep (I : Keep) (s : State) (c : Ctx) (op : Nat) (st : Status) (H_s : Ok I s) :
    OkR I (State.answer s c op st) := by
  unfold State.answer; try dsimp only
  repeat' first | with_reducible assumption | with_reducible apply State.reply_keep | with_reducible apply okR_next

theorem State.owe_keep (I : Keep) (s : State) (c : Ctx) (op : Nat) (H_s : Ok I s) :
    Ok I (State.owe s c op) := by
  unfold State.owe; try dsimp only
  repeat' first | with_reducible assumption | with_reducible apply State.reply_keep | with_reducible apply State.setLesar_keep

theorem State.settle_keep (I : Keep) (s : State) (c : Ctx) (op : Nat) (st : Status) (pl : Bytes) (H_s : Ok I s) :
    Ok I (State.settle s c op st pl) := by
  unfold State.settle; try dsimp only
  repeat' first
      | with_reducible assumption | with_reducible apply State.reply_keep | with_reducible apply State.setLesar_keep | with_reducible apply ok_ite

/-! ## Kv -/

theorem State.evictNode_keep (I : Keep) (s : State) (p : Nat) (H_s : Ok I s) :
    OkO I (State.evictNode s p) := by
  unfold State.evictNode; try dsimp only
  repeat' first
      | with_reducible assumption | with_reducible apply State.bump_keep | with_reducible apply State.putPart_keep | with_reducible apply okO_none
      | with_reducible apply okO_map | with_reducible apply ok_ite | intro _ | split

theorem State.takeSheet_keep (I : Keep) (s : State) (p : Nat) (start : Nat) (hs : Ok I s) : OkP I (s.takeSheet p start) := by
  have put : ∀ s : State, Ok I s → OkP I ((s.part p).map (fun pt =>
      (s.putPart p { pt with sheets := NMap.insert pt.sheets (lowestFree pt.sheets) (Sheet.fresh start) }, lowestFree pt.sheets))) := by
    intro s hs
    cases s.part p with
    | none => exact okP_none
    | some pt => exact okP_some (State.putPart_keep _ _ _ _ hs)
  unfold State.takeSheet; dsimp only
  split
  · exact okP_none
  · split
    · exact put s hs
    · cases he : s.evictNode p with
      | none => exact okP_none
      | some u => exact put u ((State.evictNode_keep I s p hs).get u he)

theorem State.shareStore_keep (I : Keep) (s : State) (pt : Part) (off : Nat) (bs : Bytes) (H_s : Ok I s) :
    Ok I (State.shareStore s pt off bs) := by
  unfold State.shareStore; try dsimp only
  repeat' first | with_reducible assumption | with_reducible apply State.shareWrite_keep | with_reducible apply okO_getD

theorem State.storeTensor_keep (I : Keep) (s : State) (pt : Part) (sh : Bytes) (d : DirEntry) (off : Nat) (H_s : Ok I s) :
    Ok I (State.storeTensor s pt sh d off) := by
  unfold State.storeTensor; try dsimp only
  repeat' first
      | with_reducible assumption | with_reducible apply State.shareStore_keep | (with_reducible apply ok_foldl; intro _ _ _)
      | with_reducible apply ok_ite

theorem State.keepRecords_keep (I : Keep) (s : State) (p : Nat) (H_s : Ok I s) :
    Ok I (State.keepRecords s p) := by
  unfold State.keepRecords; try dsimp only
  repeat' first | with_reducible assumption | with_reducible apply State.shareStore_keep | (with_reducible apply ok_foldl; intro _ _ _) | split

theorem State.shareClear_keep (I : Keep) (s : State) (pt : Part) (off : Nat) (n : Nat) (H_s : Ok I s) :
    Ok I (State.shareClear s pt off n) := by
  unfold State.shareClear; try dsimp only
  repeat' first | with_reducible assumption | with_reducible apply State.shareStore_keep | with_reducible apply ok_ite

theorem State.openPages_keep (I : Keep) (s : State) (p : Nat) (pt : Part) (n : Nat) (H_s : Ok I s) :
    Ok I (State.openPages s p pt n) := by
  unfold State.openPages; try dsimp only
  repeat' first
      | with_reducible assumption | with_reducible apply State.shareClear_keep | with_reducible apply State.shareStore_keep
      | (with_reducible apply ok_foldl; intro _ _ _) | split

theorem State.copyPages_keep (I : Keep) (s : State) (pt : Part) (src : Nat) (dst : Nat) (fill : Nat) (H_s : Ok I s) :
    Ok I (State.copyPages s pt src dst fill) := by
  unfold State.copyPages; try dsimp only
  repeat' first | with_reducible assumption | with_reducible apply State.shareStore_keep | (with_reducible apply ok_foldl; intro _ _ _) | split

theorem State.growList_keep (I : Keep) (s : State) (p : Nat) (y0 : Nat) (y1 : List PageEntry) (y2 : Nat) (y3 : List Nat) (H_s : Ok I s) :
    Ok I ((State.growList s p y0 y1 y2 y3).1) := by
  induction y0 generalizing s p y1 y2 y3 with
  | zero =>
    unfold State.growList; try dsimp only
    repeat' first | with_reducible assumption
  | succ n ih =>
    unfold State.growList; try dsimp only
    repeat' first
        | with_reducible assumption | with_reducible apply ih | with_reducible apply State.openPages_keep | with_reducible apply State.putPart_keep
        | with_reducible apply State.takeSheet_keep | split | (with_reducible apply okP_get; assumption)

theorem State.growSeq_keep (I : Keep) (s : State) (p : Nat) (copy : Bool) (l : List PageEntry) (pos : Nat) (toks : List Nat) (H_s : Ok I s) :
    Ok I ((State.growSeq s p copy l pos toks).1) := by
  unfold State.growSeq; try dsimp only
  repeat' first
      | with_reducible assumption | with_reducible apply State.bump_keep | with_reducible apply State.copyPages_keep
      | with_reducible apply State.growList_keep | with_reducible apply State.openPages_keep | with_reducible apply State.putPart_keep
      | with_reducible apply State.takeSheet_keep | split | (with_reducible apply okP_get; assumption)

theorem State.raiseEdition_keep (I : Keep) (s : State) (p : Nat) (H_s : Ok I s) :
    Ok I (State.raiseEdition s p) := by
  unfold State.raiseEdition; try dsimp only
  repeat' first | with_reducible assumption | with_reducible apply State.modPart_keep | with_reducible apply State.putReg_keep

theorem State.insertNode_keep (I : Keep) (s : State) (p : Nat) (inset : Nat) (l : List PageEntry) (i : Nat) (H_s : Ok I s) :
    Ok I (State.insertNode s p inset l i) := by
  unfold State.insertNode; try dsimp only
  repeat' first
      | with_reducible assumption | with_reducible apply State.bump_keep | with_reducible apply State.evictNode_keep
      | with_reducible apply State.modPart_keep | with_reducible apply okO_some | with_reducible apply ok_ite | split
      | (with_reducible apply okO_get; assumption)

/-! ## Serve -/

theorem State.sendTokens_keep (I : Keep) (s : State) (p : Nat) (sess : Nat) (rs : List TokRec) (H_s : Ok I s) :
    Ok I (State.sendTokens s p sess rs) := by
  unfold State.sendTokens; try dsimp only
  repeat' first | with_reducible assumption | with_reducible apply State.sendSeq_keep | (with_reducible apply ok_foldl; intro _ _ _) | split

theorem State.emit_keep (I : Keep) (s : State) (p : Nat) (out : List (Nat × TokRec)) (H_s : Ok I s) :
    Ok I (State.emit s p out) := by
  unfold State.emit; try dsimp only
  repeat' first | with_reducible assumption | with_reducible apply State.sendTokens_keep | (with_reducible apply ok_foldl; intro _ _ _)

theorem State.answerPauses_keep (I : Keep) (s : State) (p : Nat) (h : Nat) (st : Status) (H_s : Ok I s) :
    Ok I (State.answerPauses s p h st) := by
  unfold State.answerPauses; try dsimp only
  repeat' first
      | with_reducible assumption | with_reducible apply State.modPart_keep | with_reducible apply State.reply_keep
      | (with_reducible apply ok_foldl; intro _ _ _) | split

theorem State.answerCancels_keep (I : Keep) (s : State) (p : Nat) (h : Nat) (st : Status) (H_s : Ok I s) :
    Ok I (State.answerCancels s p h st) := by
  unfold State.answerCancels; try dsimp only
  repeat' first
      | with_reducible assumption | with_reducible apply State.modPart_keep | with_reducible apply State.reply_keep
      | (with_reducible apply ok_foldl; intro _ _ _) | split

theorem State.releaseRing_keep (I : Keep) (s0 : State) (p : Nat) (q : Seq) (H_s0 : Ok I s0) :
    Ok I (State.releaseRing s0 p q) := by
  unfold State.releaseRing; try dsimp only
  repeat' first
      | with_reducible assumption | with_reducible apply State.modPart_keep | with_reducible apply State.sendTo_keep
      | (with_reducible apply ok_foldl; intro _ _ _) | with_reducible apply ok_ite | split

theorem State.restorePage_keep (I : Keep) (s : State) (pt : Part) (im : Image) (total : Nat) (n : Nat) (l : Nat) (bs : Bytes) (H_s : Ok I s) :
    Ok I ((State.restorePage s pt im total n l bs).1) := by
  unfold State.restorePage; try dsimp only
  repeat' first | with_reducible assumption | with_reducible apply State.shareStore_keep | (with_reducible apply ok_foldl1; intro _ _ _)

theorem State.restoreForm_keep (I : Keep) (s : State) (p : Nat) (pt : Part) (n : Nat) (bs : Bytes) (H_s : Ok I s) :
    Ok I (State.restoreForm s p pt n bs) := by
  unfold State.restoreForm; try dsimp only
  repeat' first | with_reducible assumption | with_reducible apply State.restorePage_keep | (with_reducible apply ok_foldl1; intro _ _ _) | split

theorem State.dropReq_keep (I : Keep) (s : State) (p : Nat) (h : Nat) (H_s : Ok I s) :
    Ok I (State.dropReq s p h) := by
  unfold State.dropReq; try dsimp only
  repeat' first
      | with_reducible assumption | with_reducible apply State.modPart_keep | with_reducible apply State.releaseRing_keep
      | with_reducible apply State.setNand_keep | with_reducible apply State.setWalks_keep | (with_reducible apply ok_foldl; intro _ _ _)
      | with_reducible apply ok_ite | split

theorem State.endReq_keep (I : Keep) (s : State) (p : Nat) (h : Nat) (st : Status) (H_s : Ok I s) :
    Ok I ((State.endReq s p h st).1) := by
  unfold State.endReq; try dsimp only
  repeat' first
      | with_reducible assumption | with_reducible apply State.answerCancels_keep | with_reducible apply State.answerPauses_keep
      | with_reducible apply State.bump_keep | with_reducible apply State.dropReq_keep | with_reducible apply ok_ite | split

theorem State.endReqNow_keep (I : Keep) (s : State) (p : Nat) (h : Nat) (st : Status) (H_s : Ok I s) :
    Ok I (State.endReqNow s p h st) := by
  unfold State.endReqNow; try dsimp only
  repeat' first | with_reducible assumption | with_reducible apply State.emit_keep | with_reducible apply State.endReq_keep

theorem State.addTomb_keep (I : Keep) (s : State) (p : Nat) (h : Nat) (st : Status) (H_s : Ok I s) :
    Ok I (State.addTomb s p h st) := by
  unfold State.addTomb; try dsimp only
  repeat' first | with_reducible assumption | with_reducible apply State.setTombs_keep

theorem State.clearTomb_keep (I : Keep) (s : State) (p : Nat) (h : Nat) (H_s : Ok I s) :
    Ok I (State.clearTomb s p h) := by
  unfold State.clearTomb; try dsimp only
  repeat' first | with_reducible assumption | with_reducible apply State.setTombs_keep

theorem State.buryReq_keep (I : Keep) (s : State) (p : Nat) (h : Nat) (st : Status) (H_s : Ok I s) :
    Ok I (State.buryReq s p h st) := by
  unfold State.buryReq; try dsimp only
  repeat' first
      | with_reducible assumption | with_reducible apply State.addTomb_keep | with_reducible apply State.bump_keep
      | with_reducible apply State.endReqNow_keep | with_reducible apply State.partEvent_keep | with_reducible apply ok_ite

theorem State.sendOutput_keep (I : Keep) (s : State) (p : Nat) (h : Nat) (v : Strm) (chunk : Nat) (fin : Bool) (st : Status) (data : Bytes) (H_s : Ok I s) :
    Ok I (State.sendOutput s p h v chunk fin st data) := by
  unfold State.sendOutput; try dsimp only
  repeat' first | with_reducible assumption | with_reducible apply State.sendSeq_keep | (with_reducible apply ok_foldl; intro _ _ _) | split

theorem State.releaseTiles_keep (I : Keep) (s : State) (ts : List Nat) (H_s : Ok I s) :
    Ok I (State.releaseTiles s ts) := by
  unfold State.releaseTiles; try dsimp only
  repeat' first | with_reducible assumption | with_reducible apply State.modTile_keep | (with_reducible apply ok_foldl; intro _ _ _)

theorem State.zeroPages_keep (I : Keep) (s : State) (pt : Part) (v : Strm) (H_s : Ok I s) :
    Ok I (State.zeroPages s pt v) := by
  unfold State.zeroPages; try dsimp only
  repeat' first | with_reducible assumption | with_reducible apply State.shareStore_keep | (with_reducible apply ok_foldl; intro _ _ _) | split

theorem State.answerStream_keep (I : Keep) (s : State) (p : Nat) (h : Nat) (st : Status) (stClose : Status) (H_s : Ok I s) :
    Ok I (State.answerStream s p h st stClose) := by
  unfold State.answerStream; try dsimp only
  repeat' first
      | with_reducible assumption | with_reducible apply State.modPart_keep | with_reducible apply State.reply_keep
      | (with_reducible apply ok_foldl; intro _ _ _) | split

theorem State.flushChunks_keep (I : Keep) (s : State) (p : Nat) (h : Nat) (v : Strm) (st : Status) (H_s : Ok I s) :
    Ok I (State.flushChunks s p h v st) := by
  unfold State.flushChunks; try dsimp only
  repeat' first | with_reducible assumption | with_reducible apply State.sendOutput_keep | (with_reducible apply ok_foldl; intro _ _ _)

theorem State.endStream_keep (I : Keep) (s : State) (p : Nat) (h : Nat) (st : Status) (H_s : Ok I s) :
    Ok I (State.endStream s p h st) := by
  unfold State.endStream; try dsimp only
  repeat' first
      | with_reducible assumption | with_reducible apply State.answerStream_keep | with_reducible apply State.bump_keep
      | with_reducible apply State.flushChunks_keep | with_reducible apply State.modPart_keep | with_reducible apply State.releaseTiles_keep
      | with_reducible apply State.zeroPages_keep | with_reducible apply ok_ite | split

/-! ## Checks -/

theorem State.storePrograms_keep (I : Keep) (s : State) (p : Nat) (g : Program) (H_s : Ok I s) :
    Ok I (State.storePrograms s p g) := by
  unfold State.storePrograms; try dsimp only
  repeat' first
      | with_reducible assumption | with_reducible apply State.modPart_keep | with_reducible apply State.modTile_keep
      | (with_reducible apply ok_foldl; intro _ _ _) | split

/-! ## Shards -/

theorem State.modelStatus_keep (I : Keep) (s : State) (p : Nat) (st : Status) (H_s : Ok I s) :
    Ok I (State.modelStatus s p st) := by
  unfold State.modelStatus; try dsimp only
  repeat' first | with_reducible assumption | with_reducible apply State.putField_keep

theorem State.settleModel_keep (I : Keep) (s : State) (p : Nat) (c : Ctx) (op : Nat) (st : Status) (H_s : Ok I s) :
    Ok I (State.settleModel s p c op st) := by
  unfold State.settleModel; try dsimp only
  repeat' first | with_reducible assumption | with_reducible apply State.modelStatus_keep | with_reducible apply State.settle_keep

theorem State.endInstall_keep (I : Keep) (s : State) (p : Nat) (st : Status) (H_s : Ok I s) :
    Ok I (State.endInstall s p st) := by
  unfold State.endInstall; try dsimp only
  repeat' first | with_reducible assumption | with_reducible apply State.modPart_keep | with_reducible apply State.settleModel_keep | split

theorem State.modFetch_keep (I : Keep) (s : State) (p : Nat) (re : Bool) (f : Install → Install) (H_s : Ok I s) :
    Ok I (State.modFetch s p re f) := by
  unfold State.modFetch; try dsimp only
  repeat' first | with_reducible assumption | with_reducible apply State.modPart_keep

theorem State.failFetch_keep (I : Keep) (s : State) (p : Nat) (re : Bool) (st : Status) (H_s : Ok I s) :
    Ok I (State.failFetch s p re st) := by
  unfold State.failFetch; try dsimp only
  repeat' first
      | with_reducible assumption | with_reducible apply State.endInstall_keep | with_reducible apply State.modPart_keep
      | with_reducible apply State.ownerEvent_keep | with_reducible apply ok_ite | split

theorem State.toHost_keep (I : Keep) (s : State) (p : Nat) (re : Bool) (H_s : Ok I s) :
    Ok I (State.toHost s p re) := by
  unfold State.toHost; try dsimp only
  repeat' first
      | with_reducible assumption | with_reducible apply State.failFetch_keep | with_reducible apply State.modFetch_keep
      | with_reducible apply State.ownerEvent_keep | with_reducible apply ok_ite | split

theorem State.askAll_keep (I : Keep) (s : State) (p : Nat) (re : Bool) (im : Image) (H_s : Ok I s) :
    Ok I (State.askAll s p re im) := by
  unfold State.askAll; try dsimp only
  repeat' first
      | with_reducible assumption | with_reducible apply State.modFetch_keep | with_reducible apply State.sendMessage_keep
      | (with_reducible apply ok_foldl; intro _ _ _)

theorem State.askNeighbour_keep (I : Keep) (s : State) (p : Nat) (re : Bool) (dev : Nat) (H_s : Ok I s) :
    Ok I (State.askNeighbour s p re dev) := by
  unfold State.askNeighbour; try dsimp only
  repeat' first | with_reducible assumption | with_reducible apply State.modFetch_keep | with_reducible apply State.sendTo_keep | split

theorem State.refetchShard_keep (I : Keep) (s : State) (p : Nat) (im : Image) (H_s : Ok I s) :
    Ok I (State.refetchShard s p im) := by
  unfold State.refetchShard; try dsimp only
  repeat' first
      | with_reducible assumption | with_reducible apply State.askAll_keep | with_reducible apply State.modPart_keep | with_reducible apply ok_ite

theorem State.sendShard_keep (I : Keep) (s : State) (dir : Nat) (p : Nat) (re : Nat) (digest : Bytes) (H_s : Ok I s) :
    Ok I (State.sendShard s dir p re digest) := by
  unfold State.sendShard; try dsimp only
  repeat' first | with_reducible assumption | with_reducible apply State.sendMessage_keep | (with_reducible apply ok_foldl; intro _ _ _) | split

theorem State.shardFrom_keep (I : Keep) (s : State) (dev : Nat) (p : Nat) (re : Bool) (off : Nat) (d : Bytes) (H_s : Ok I s) :
    Ok I (State.shardFrom s dev p re off d) := by
  unfold State.shardFrom; try dsimp only
  repeat' first | with_reducible assumption | with_reducible apply State.modFetch_keep

theorem State.fetchLost_keep (I : Keep) (s : State) (dev : Nat) (H_s : Ok I s) :
    Ok I (State.fetchLost s dev) := by
  unfold State.fetchLost; try dsimp only
  repeat' first
      | with_reducible assumption | with_reducible apply State.toHost_keep | (with_reducible apply ok_foldl; intro _ _ _)
      | with_reducible apply ok_ite

/-! ## Losses -/

theorem State.endInset_keep (I : Keep) (s : State) (p : Nat) (h : Nat) (st : Status) (H_s : Ok I s) :
    Ok I (State.endInset s p h st) := by
  unfold State.endInset; try dsimp only
  repeat' first | with_reducible assumption | with_reducible apply State.modPart_keep | with_reducible apply State.settleModel_keep | split

theorem State.endSeqLost_keep (I : Keep) (s : State) (p : Nat) (h : Nat) (H_s : Ok I s) :
    Ok I (State.endSeqLost s p h) := by
  unfold State.endSeqLost; try dsimp only
  repeat' first
      | with_reducible assumption | with_reducible apply State.bump_keep | with_reducible apply State.endInset_keep
      | with_reducible apply State.endReqNow_keep | with_reducible apply ok_ite

theorem State.tellLost_keep (I : Keep) (s : State) (p : Nat) (hs : List Nat) (st : Status) (H_s : Ok I s) :
    Ok I (State.tellLost s p hs st) := by
  unfold State.tellLost; try dsimp only
  repeat' first | with_reducible assumption | with_reducible apply State.sendTo_keep | with_reducible apply ok_ite

theorem State.loseSheet_keep (I : Keep) (s : State) (p : Nat) (n : Nat) (H_s : Ok I s) :
    Ok I (State.loseSheet s p n) := by
  unfold State.loseSheet; try dsimp only
  repeat' first
      | with_reducible assumption | with_reducible apply State.bump_keep | with_reducible apply State.endSeqLost_keep
      | with_reducible apply State.failEnding_keep | with_reducible apply State.modPart_keep | with_reducible apply State.tellLost_keep
      | (with_reducible apply ok_foldl; intro _ _ _) | with_reducible apply ok_ite | split

theorem State.loseStream_keep (I : Keep) (s : State) (p : Nat) (h : Nat) (st : Status) (H_s : Ok I s) :
    Ok I (State.loseStream s p h st) := by
  unfold State.loseStream; try dsimp only
  repeat' first
      | with_reducible assumption | with_reducible apply State.endStream_keep | with_reducible apply State.tellLost_keep | with_reducible apply ok_ite

theorem State.endHandles_keep (I : Keep) (s : State) (p : Nat) (hs : List Nat) (st : Status) (H_s : Ok I s) :
    Ok I (State.endHandles s p hs st) := by
  unfold State.endHandles; try dsimp only
  repeat' first
      | with_reducible assumption | with_reducible apply State.endInset_keep | with_reducible apply State.endReqNow_keep
      | with_reducible apply State.endStream_keep | (with_reducible apply ok_foldl; intro _ _ _) | with_reducible apply ok_ite | split

theorem State.endWork_keep (I : Keep) (s : State) (p : Nat) (hs : List Nat) (st : Status) (H_s : Ok I s) :
    Ok I (State.endWork s p hs st) := by
  unfold State.endWork; try dsimp only
  repeat' first
      | with_reducible assumption | with_reducible apply State.endHandles_keep | with_reducible apply State.endStream_keep
      | with_reducible apply State.failEnding_keep | with_reducible apply State.tellLost_keep | (with_reducible apply ok_foldl; intro _ _ _)
      | with_reducible apply ok_ite

theorem State.toldLost_keep (I : Keep) (s : State) (p : Nat) (bs : Bytes) (H_s : Ok I s) :
    Ok I (State.toldLost s p bs) := by
  unfold State.toldLost; try dsimp only
  repeat' first
      | with_reducible assumption | with_reducible apply State.endSeqLost_keep | with_reducible apply State.endWork_keep
      | with_reducible apply State.failEnding_keep | (with_reducible apply ok_foldl; intro _ _ _) | split

theorem State.endAllWork_keep (I : Keep) (s : State) (p : Nat) (reqSt : Status) (strSt : Status) (H_s : Ok I s) :
    Ok I (State.endAllWork s p reqSt strSt) := by
  unfold State.endAllWork; try dsimp only
  repeat' first
      | with_reducible assumption | with_reducible apply State.endReqNow_keep | with_reducible apply State.endStream_keep
      | (with_reducible apply ok_foldl; intro _ _ _) | split

/-! ## Tile -/

theorem State.countPodFault_keep (I : Keep) (s : State) (p : Nat) (t : Nat) (site : Nat) (f : PodFault) (H_s : Ok I s) :
    Ok I (State.countPodFault s p t site f) := by
  unfold State.countPodFault; try dsimp only
  repeat' first | with_reducible assumption | with_reducible apply State.bump_keep | with_reducible apply State.recordFirst_keep

theorem State.podFault_keep (I : Keep) (s : State) (p : Nat) (t : Nat) (site : Nat) (f : PodFault) (dev : Option (List Nat)) (H_s : Ok I s) :
    Ok I (State.podFault s p t site f dev) := by
  unfold State.podFault; try dsimp only
  repeat' first
      | with_reducible assumption | with_reducible apply State.countPodFault_keep | with_reducible apply State.endWork_keep
      | with_reducible apply State.failStep_keep | split

theorem State.readRuns_keep (I : Keep) (s : State) (p : Nat) (t : Nat) (runs : List (Nat × Nat)) (H_s : Ok I s) :
    Ok I ((State.readRuns s p t runs).1) := by
  unfold State.readRuns; try dsimp only
  repeat' first | with_reducible assumption | with_reducible apply State.eccFind_keep | (with_reducible apply ok_foldl1; intro _ _ _)

theorem State.dropMatrix_keep (I : Keep) (s : State) (t : Nat) (b : Nat) (H_s : Ok I s) :
    Ok I (State.dropMatrix s t b) := by
  unfold State.dropMatrix; try dsimp only
  repeat' first | with_reducible assumption | with_reducible apply State.modTile_keep

theorem State.runMatrix_keep (I : Keep) (s : State) (t : Nat) (b : Nat) (op : MatrixOp) (H_s : Ok I s) :
    Ok I (State.runMatrix s t b op) := by
  unfold State.runMatrix; try dsimp only
  repeat' first
      | with_reducible assumption | with_reducible apply State.dropMatrix_keep | with_reducible apply State.failStep_keep
      | with_reducible apply State.modTile_keep | with_reducible apply State.podFault_keep | with_reducible apply State.readRuns_keep
      | with_reducible apply ok_ite | split

theorem State.pumpMatrix_keep (I : Keep) (s : State) (t : Nat) (y0 : Nat) (H_s : Ok I s) :
    Ok I (State.pumpMatrix s t y0) := by
  induction y0 generalizing s t with
  | zero =>
    unfold State.pumpMatrix; try dsimp only
    repeat' first | with_reducible assumption
  | succ n ih =>
    unfold State.pumpMatrix; try dsimp only
    repeat' first | with_reducible assumption | with_reducible apply ih | with_reducible apply State.runMatrix_keep | split

theorem State.goMatrix_keep (I : Keep) (s : State) (t : Nat) (H_s : Ok I s) :
    Ok I (State.goMatrix s t) := by
  unfold State.goMatrix; try dsimp only
  repeat' first | with_reducible assumption | with_reducible apply State.pumpMatrix_keep

theorem State.doMatrix_keep (I : Keep) (s : State) (ts : List Nat) (op : MatrixOp) (env : List Strike) (H_s : Ok I s) :
    Ok I (State.doMatrix s ts op env) := by
  unfold State.doMatrix; try dsimp only
  repeat' first
      | with_reducible assumption | with_reducible apply State.goMatrix_keep | with_reducible apply State.modTile_keep
      | with_reducible apply State.pathErrors_keep | with_reducible apply State.strike_keep | (with_reducible apply ok_foldl; intro _ _ _)
      | with_reducible apply ok_ite

theorem execMatrix_keep (I : Keep) (ts : List Nat) (a : Desc) (b : Desc) (bank : Nat) (cont : Bool) (env : List Strike) (s : State) (H_s : Ok I s) :
    OkR I (execMatrix ts a b bank cont env s) := by
  unfold execMatrix; try dsimp only
  repeat' first
      | with_reducible assumption | with_reducible apply State.doMatrix_keep | with_reducible apply State.issue_keep
      | with_reducible apply require_keep

theorem State.doDrain_keep (I : Keep) (s : State) (t : Nat) (bank : Nat) (fmt : Nat) (dst : DrainDst) (env : List Strike) (H_s : Ok I s) :
    Ok I (State.doDrain s t bank fmt dst env) := by
  unfold State.doDrain; try dsimp only
  repeat' first
      | with_reducible assumption | with_reducible apply State.modTile_keep | with_reducible apply State.pathErrors_keep
      | with_reducible apply State.strike_keep | with_reducible apply State.writeRows_keep | with_reducible apply ok_ite | split

theorem execDrain_keep (I : Keep) (t : Nat) (bank : Nat) (fmt : Nat) (dst : DrainDst) (env : List Strike) (s : State) (H_s : Ok I s) :
    OkR I (execDrain t bank fmt dst env s) := by
  unfold execDrain; try dsimp only
  repeat' first
      | with_reducible assumption | with_reducible apply State.doDrain_keep | with_reducible apply State.issue_keep
      | with_reducible apply require_keep

theorem State.endDrain_keep (I : Keep) (s : State) (t : Nat) (bank : Nat) (H_s : Ok I s) :
    Ok I (State.endDrain s t bank) := by
  unfold State.endDrain; try dsimp only
  repeat' first | with_reducible assumption | with_reducible apply State.goMatrix_keep | with_reducible apply State.modTile_keep

theorem State.doPreload_keep (I : Keep) (s : State) (t : Nat) (bank : Nat) (row : Nat) (int : Bool) (H_s : Ok I s) :
    Ok I (State.doPreload s t bank row int) := by
  unfold State.doPreload; try dsimp only
  repeat' first
      | with_reducible assumption | with_reducible apply State.engineRows_keep | with_reducible apply State.goMatrix_keep
      | with_reducible apply State.modTile_keep | split

theorem execPreload_keep (I : Keep) (t : Nat) (bank : Nat) (row : Nat) (int : Bool) (s : State) (H_s : Ok I s) :
    OkR I (execPreload t bank row int s) := by
  unfold execPreload; try dsimp only
  repeat' first
      | with_reducible assumption | with_reducible apply State.doPreload_keep | with_reducible apply State.issue_keep
      | with_reducible apply require_keep

theorem State.withRows_keep (I : Keep) (s : State) (t : Nat) (row : Nat) (n : Nat) (f : Bytes → Tile → Tile) (H_s : Ok I s) :
    Ok I (State.withRows s t row n f) := by
  unfold State.withRows; try dsimp only
  repeat' first | with_reducible assumption | with_reducible apply State.engineRows_keep | with_reducible apply State.modTile_keep | split

theorem State.doTwinBind_keep (I : Keep) (s : State) (t : Nat) (y0 : Option Nat) (H_s : Ok I s) :
    Ok I (State.doTwinBind s t y0) := by
  unfold State.doTwinBind; try dsimp only
  repeat' first | with_reducible assumption | with_reducible apply State.modTile_keep | with_reducible apply State.withRows_keep | split

theorem execTwinBind_keep (I : Keep) (t : Nat) (src : Option Nat) (s : State) (H_s : Ok I s) :
    OkR I (execTwinBind t src s) := by
  unfold execTwinBind; try dsimp only
  repeat' first
      | with_reducible assumption | with_reducible apply State.doTwinBind_keep | with_reducible apply State.issue_keep
      | with_reducible apply require_keep

theorem State.doTwinUnbind_keep (I : Keep) (s : State) (t : Nat) (H_s : Ok I s) :
    Ok I (State.doTwinUnbind s t) := by
  unfold State.doTwinUnbind; try dsimp only
  repeat' first | with_reducible assumption | with_reducible apply State.goMatrix_keep | with_reducible apply State.modTile_keep

theorem execTwinUnbind_keep (I : Keep) (t : Nat) (s : State) (H_s : Ok I s) :
    OkR I (execTwinUnbind t s) := by
  unfold execTwinUnbind; try dsimp only
  repeat' first
      | with_reducible assumption | with_reducible apply State.doTwinUnbind_keep | with_reducible apply State.issue_keep
      | with_reducible apply require_keep

theorem State.doTwinAdd_keep (I : Keep) (s : State) (t : Nat) (env : List Strike) (y0 : TwinSrc) (H_s : Ok I s) :
    Ok I (State.doTwinAdd s t env y0) := by
  unfold State.doTwinAdd; try dsimp only
  repeat' first
      | with_reducible assumption | with_reducible apply State.failStep_keep | with_reducible apply State.modTile_keep
      | with_reducible apply State.podFault_keep | with_reducible apply State.readRuns_keep | with_reducible apply State.strike_keep
      | with_reducible apply State.withRows_keep | with_reducible apply ok_ite | split

theorem execTwinAdd_keep (I : Keep) (t : Nat) (src : TwinSrc) (env : List Strike) (s : State) (H_s : Ok I s) :
    OkR I (execTwinAdd t src env s) := by
  unfold execTwinAdd; try dsimp only
  repeat' first
      | with_reducible assumption | with_reducible apply State.doTwinAdd_keep | with_reducible apply State.issue_keep
      | with_reducible apply require_keep

theorem State.doTwinMul_keep (I : Keep) (s : State) (t : Nat) (row : Nat) (H_s : Ok I s) :
    Ok I (State.doTwinMul s t row) := by
  unfold State.doTwinMul; try dsimp only
  repeat' first | with_reducible assumption | with_reducible apply State.withRows_keep

theorem execTwinMul_keep (I : Keep) (t : Nat) (row : Nat) (s : State) (H_s : Ok I s) :
    OkR I (execTwinMul t row s) := by
  unfold execTwinMul; try dsimp only
  repeat' first
      | with_reducible assumption | with_reducible apply State.doTwinMul_keep | with_reducible apply State.issue_keep
      | with_reducible apply require_keep

theorem State.doStateRead_keep (I : Keep) (s : State) (t : Nat) (row : Nat) (H_s : Ok I s) :
    Ok I (State.doStateRead s t row) := by
  unfold State.doStateRead; try dsimp only
  repeat' first | with_reducible assumption | with_reducible apply State.writeRows_keep

theorem execStateRead_keep (I : Keep) (t : Nat) (row : Nat) (s : State) (H_s : Ok I s) :
    OkR I (execStateRead t row s) := by
  unfold execStateRead; try dsimp only
  repeat' first
      | with_reducible assumption | with_reducible apply State.doStateRead_keep | with_reducible apply State.issue_keep
      | with_reducible apply require_keep

theorem State.doStateOverwrite_keep (I : Keep) (s : State) (t : Nat) (row : Nat) (H_s : Ok I s) :
    Ok I (State.doStateOverwrite s t row) := by
  unfold State.doStateOverwrite; try dsimp only
  repeat' first | with_reducible assumption | with_reducible apply State.withRows_keep

theorem execStateOverwrite_keep (I : Keep) (t : Nat) (row : Nat) (s : State) (H_s : Ok I s) :
    OkR I (execStateOverwrite t row s) := by
  unfold execStateOverwrite; try dsimp only
  repeat' first
      | with_reducible assumption | with_reducible apply State.doStateOverwrite_keep | with_reducible apply State.issue_keep
      | with_reducible apply require_keep

/-! ## Tables -/

theorem State.lastLoad_keep (I : Keep) (s : State) (p : Nat) (st : Status) (H_s : Ok I s) :
    Ok I (State.lastLoad s p st) := by
  unfold State.lastLoad; try dsimp only
  repeat' first | with_reducible assumption | with_reducible apply State.putField_keep

theorem State.tableBusy_keep (I : Keep) (s : State) (p : Nat) (H_s : Ok I s) :
    Ok I (State.tableBusy s p) := by
  unfold State.tableBusy; try dsimp only
  repeat' first | with_reducible assumption | with_reducible apply State.bump_keep | with_reducible apply State.lastLoad_keep

theorem State.pumpLoads_keep (I : Keep) (s : State) (p : Nat) (y0 : Nat) (H_s : Ok I s) :
    Ok I (State.pumpLoads s p y0) := by
  induction y0 generalizing s p with
  | zero =>
    unfold State.pumpLoads; try dsimp only
    repeat' first | with_reducible assumption
  | succ n ih =>
    unfold State.pumpLoads; try dsimp only
    repeat' first
        | with_reducible assumption | with_reducible apply ih | with_reducible apply State.modPart_keep | with_reducible apply State.pushGo_keep
        | with_reducible apply State.tableBusy_keep | with_reducible apply ok_ite | split

theorem State.addLoad_keep (I : Keep) (s : State) (p : Nat) (j : LoadJob) (H_s : Ok I s) :
    Ok I (State.addLoad s p j) := by
  unfold State.addLoad; try dsimp only
  repeat' first | with_reducible assumption | with_reducible apply State.modPart_keep | with_reducible apply State.pumpLoads_keep | split

theorem State.finishLoad_keep (I : Keep) (s : State) (p : Nat) (j : LoadJob) (H_s : Ok I s) :
    Ok I (State.finishLoad s p j) := by
  unfold State.finishLoad; try dsimp only
  repeat' first
      | with_reducible assumption | with_reducible apply State.lastLoad_keep | with_reducible apply State.modPart_keep
      | with_reducible apply State.modTile_keep | with_reducible apply State.pushGo_keep | (with_reducible apply ok_foldl; intro _ _ _)
      | with_reducible apply ok_ite | split

theorem State.doTableLoad_keep (I : Keep) (s : State) (t : Nat) (srcRow : Nat) (op : LoadOp) (env : List Strike) (H_s : Ok I s) :
    Ok I (State.doTableLoad s t srcRow op env) := by
  unfold State.doTableLoad; try dsimp only
  repeat' first
      | with_reducible assumption | with_reducible apply State.addLoad_keep | with_reducible apply State.engineRows_keep
      | with_reducible apply State.pathErrors_keep | with_reducible apply State.strike_keep | with_reducible apply ok_ite | split

theorem execTableLoad_keep (I : Keep) (t : Nat) (srcRow : Nat) (op : LoadOp) (env : List Strike) (s : State) (H_s : Ok I s) :
    OkR I (execTableLoad t srcRow op env s) := by
  unfold execTableLoad; try dsimp only
  repeat' first
      | with_reducible assumption | with_reducible apply State.doTableLoad_keep | with_reducible apply State.issue_keep
      | with_reducible apply require_keep

theorem State.runBitmap_keep (I : Keep) (s : State) (p : Nat) (pt : Part) (j : Nat × Nat × Bytes) (H_s : Ok I s) :
    Ok I ((State.runBitmap s p pt j).1) := by
  unfold State.runBitmap; try dsimp only
  repeat' first | with_reducible assumption | with_reducible apply State.bump_keep | with_reducible apply State.shareStore_keep | split

theorem State.copyBitmaps_keep (I : Keep) (s : State) (p : Nat) (H_s : Ok I s) :
    Ok I (State.copyBitmaps s p) := by
  unfold State.copyBitmaps; try dsimp only
  repeat' first | with_reducible assumption | with_reducible apply State.shareStore_keep | split

/-! ## Flash -/

theorem State.flashWord_keep (I : Keep) (s : State) (w : Nat) (H_s : Ok I s) :
    Ok I ((State.flashWord s w).1) := by
  unfold State.flashWord; try dsimp only
  repeat' first | with_reducible assumption | with_reducible apply State.bump_keep | with_reducible apply State.setFree_keep | split

theorem State.flashWords_keep (I : Keep) (s : State) (y0 : Nat) (y1 : Nat) (H_s : Ok I s) :
    Ok I ((State.flashWords s y0 y1).1) := by
  induction y1 generalizing s y0 with
  | zero =>
    unfold State.flashWords; try dsimp only
    repeat' first | with_reducible assumption
  | succ n ih =>
    unfold State.flashWords; try dsimp only
    repeat' first | with_reducible assumption | with_reducible apply ih | with_reducible apply State.flashWord_keep

theorem State.flashRead_keep (I : Keep) (s : State) (a : Nat) (n : Nat) (H_s : Ok I s) :
    Ok I ((State.flashRead s a n).1) := by
  unfold State.flashRead; try dsimp only
  repeat' first
      | with_reducible assumption | with_reducible apply State.flashWords_keep | with_reducible apply State.setFlash_keep
      | with_reducible apply ok_ite

theorem State.flashPut_keep (I : Keep) (s : State) (a : Nat) (bs : Bytes) (H_s : Ok I s) :
    Ok I (State.flashPut s a bs) := by
  unfold State.flashPut; try dsimp only
  repeat' first | (exact fun w => Mem.wf_writeN _ _ _ _ w) | with_reducible assumption | with_reducible apply State.setFlashMem_keep

theorem State.flashClear_keep (I : Keep) (s : State) (n : Nat) (H_s : Ok I s) :
    Ok I (State.flashClear s n) := by
  unfold State.flashClear; try dsimp only
  repeat' first
      | (exact fun w => Mem.wf_clear _ _ _ _ w) | with_reducible assumption | with_reducible apply State.setFlashMem_keep
      | with_reducible apply State.setFlash_keep

theorem State.journalPut_keep (I : Keep) (s : State) (ty : Nat) (sector : Nat) (H_s : Ok I s) :
    Ok I (State.journalPut s ty sector) := by
  unfold State.journalPut; try dsimp only
  repeat' first | with_reducible assumption | with_reducible apply State.flashPut_keep | with_reducible apply State.setFlash_keep

theorem State.journal_keep (I : Keep) (s : State) (ty : Nat) (sector : Nat) (H_s : Ok I s) :
    Ok I (State.journal s ty sector) := by
  unfold State.journal; try dsimp only
  repeat' first
      | with_reducible assumption | with_reducible apply State.flashClear_keep | with_reducible apply State.journalPut_keep
      | (with_reducible apply ok_foldl; intro _ _ _) | with_reducible apply ok_ite

theorem State.beginErase_keep (I : Keep) (s : State) (n : Nat) (after : FlashAfter) (H_s : Ok I s) :
    Ok I (State.beginErase s n after) := by
  unfold State.beginErase; try dsimp only
  repeat' first | with_reducible assumption | with_reducible apply State.journal_keep | with_reducible apply State.setFlash_keep

theorem State.endErase_keep (I : Keep) (s : State) (n : Nat) (H_s : Ok I s) :
    Ok I (State.endErase s n) := by
  unfold State.endErase; try dsimp only
  repeat' first
      | with_reducible assumption | with_reducible apply State.flashClear_keep | with_reducible apply State.journal_keep
      | with_reducible apply State.setFlash_keep

theorem State.counterPut_keep (I : Keep) (s : State) (ty : Nat) (H_s : Ok I s) :
    Ok I (State.counterPut s ty) := by
  unfold State.counterPut; try dsimp only
  repeat' first | with_reducible assumption | with_reducible apply State.flashPut_keep | with_reducible apply State.setFlash_keep

theorem State.counter_keep (I : Keep) (s : State) (ty : Nat) (H_s : Ok I s) :
    Ok I (State.counter s ty) := by
  unfold State.counter; try dsimp only
  repeat' first
      | with_reducible assumption | with_reducible apply State.counterPut_keep | with_reducible apply State.flashClear_keep
      | with_reducible apply State.journal_keep | with_reducible apply State.setFlash_keep | (with_reducible apply ok_foldl; intro _ _ _)
      | with_reducible apply ok_ite

theorem State.beginParam_keep (I : Keep) (s : State) (c : Option Ctx) (opcode : Nat) (new : ParamSet) (H_s : Ok I s) :
    Ok I (State.beginParam s c opcode new) := by
  unfold State.beginParam; try dsimp only
  repeat' first | with_reducible assumption | with_reducible apply State.beginErase_keep

theorem State.scanFlash_keep (I : Keep) (s : State) (H_s : Ok I s) :
    Ok I (State.scanFlash s) := by
  unfold State.scanFlash; try dsimp only
  repeat' first | with_reducible assumption | with_reducible apply State.setFlash_keep

/-! ## FlashCmds -/

theorem State.cfDone_keep (I : Keep) (s : State) (c : Option Ctx) (op : Nat) (st : Status) (pl : Bytes) (H_s : Ok I s) :
    Ok I (State.cfDone s c op st pl) := by
  unfold State.cfDone; try dsimp only
  repeat' first
      | with_reducible assumption | with_reducible apply State.freeMbox_keep | with_reducible apply State.pushGo_keep
      | with_reducible apply State.putField_keep | with_reducible apply State.reply_keep | with_reducible apply ok_ite | split

theorem State.cfPassword_keep (I : Keep) (s : State) (pw : Bytes) (H_s : Ok I s) :
    Ok I ((State.cfPassword s pw).1) := by
  unfold State.cfPassword; try dsimp only
  repeat' first | with_reducible assumption | with_reducible apply State.counter_keep | split

theorem State.cfReadBytes_keep (I : Keep) (s : State) (c : Ctx) (op : Nat) (a : Nat) (n : Nat) (H_s : Ok I s) :
    Ok I (State.cfReadBytes s c op a n) := by
  unfold State.cfReadBytes; try dsimp only
  repeat' first | with_reducible assumption | with_reducible apply State.cfDone_keep | with_reducible apply State.flashRead_keep

theorem State.cfProgramRun_keep (I : Keep) (s : State) (c : Ctx) (pl : Bytes) (H_s : Ok I s) :
    Ok I (State.cfProgramRun s c pl) := by
  unfold State.cfProgramRun; try dsimp only
  repeat' first
      | with_reducible assumption | with_reducible apply State.cfDone_keep | with_reducible apply State.setFlash_keep | with_reducible apply ok_ite

theorem State.cfEraseRun_keep (I : Keep) (s : State) (c : Ctx) (pl : Bytes) (H_s : Ok I s) :
    Ok I (State.cfEraseRun s c pl) := by
  unfold State.cfEraseRun; try dsimp only
  repeat' first
      | with_reducible assumption | with_reducible apply State.beginErase_keep | with_reducible apply State.cfDone_keep | with_reducible apply ok_ite

theorem State.cfTwinRun_keep (I : Keep) (s : State) (c : Ctx) (pl : Bytes) (H_s : Ok I s) :
    Ok I (State.cfTwinRun s c pl) := by
  unfold State.cfTwinRun; try dsimp only
  repeat' first
      | with_reducible assumption | with_reducible apply State.beginErase_keep | with_reducible apply State.cfDone_keep
      | with_reducible apply State.setFlash_keep | with_reducible apply ok_ite

theorem State.cfSwapRun_keep (I : Keep) (s : State) (c : Ctx) (pl : Bytes) (H_s : Ok I s) :
    Ok I (State.cfSwapRun s c pl) := by
  unfold State.cfSwapRun; try dsimp only
  repeat' first
      | with_reducible assumption | with_reducible apply State.beginParam_keep | with_reducible apply State.bump_keep
      | with_reducible apply State.cfDone_keep | with_reducible apply ok_ite

theorem State.cfProtectRun_keep (I : Keep) (s : State) (c : Ctx) (op : Nat) (pl : Bytes) (H_s : Ok I s) :
    Ok I (State.cfProtectRun s c op pl) := by
  unfold State.cfProtectRun; try dsimp only
  repeat' first
      | with_reducible assumption | with_reducible apply State.beginParam_keep | with_reducible apply State.cfDone_keep
      | with_reducible apply State.cfPassword_keep | with_reducible apply ok_ite | split

theorem State.cfPwResetRun_keep (I : Keep) (s : State) (c : Ctx) (pl : Bytes) (hs : Ok I s) : Ok I (s.cfPwResetRun c pl) := by
  have go : ∀ (no : State) (n : Nat), Ok I no → Ok I (State.cfPwResetRun.go s c no n) := by
    intro no n h
    unfold State.cfPwResetRun.go
    refine ok_ite h (ok_ite (State.cfDone_keep _ _ _ _ _ _ hs) ?_)
    exact State.beginParam_keep _ _ _ _ _ (State.counter_keep _ _ _ (State.setKeeper_keep _ _ _ hs))
  have no : Ok I ((s.bump .kpr 0 0x04 1).cfDone (some c) 0x070E .signatureInvalid (beBytes 8 s.keeper.commandMark)) :=
    State.cfDone_keep _ _ _ _ _ _ (State.bump_keep _ _ _ _ _ _ hs)
  unfold State.cfPwResetRun; try dsimp only
  refine ok_ite (State.cfDone_keep _ _ _ _ _ _ hs) (ok_ite no ?_)
  split
  · exact ok_ite (State.cfDone_keep _ _ _ _ _ _ hs) (go _ _ no)
  · exact go _ _ no

theorem State.cfRegisterRun_keep (I : Keep) (s : State) (pl : Bytes) (H_s : Ok I s) :
    Ok I (State.cfRegisterRun s pl) := by
  unfold State.cfRegisterRun; try dsimp only
  repeat' first
      | with_reducible assumption | with_reducible apply State.beginParam_keep | with_reducible apply State.pushGo_keep | with_reducible apply ok_ite

theorem State.cfSuspendRun_keep (I : Keep) (s : State) (c : Ctx) (H_s : Ok I s) :
    Ok I (State.cfSuspendRun s c) := by
  unfold State.cfSuspendRun; try dsimp only
  repeat' first | with_reducible assumption | with_reducible apply State.cfDone_keep | with_reducible apply State.setFlash_keep | split

theorem State.cfResumeRun_keep (I : Keep) (s : State) (c : Ctx) (H_s : Ok I s) :
    Ok I (State.cfResumeRun s c) := by
  unfold State.cfResumeRun; try dsimp only
  repeat' first
      | with_reducible assumption | with_reducible apply State.cfDone_keep | with_reducible apply State.setFlash_keep | with_reducible apply ok_ite
      | split

theorem State.cfRun_keep (I : Keep) (s : State) (op : Nat) (c : Ctx) (pl : Bytes) (H_s : Ok I s) :
    Ok I (State.cfRun s op c pl) := by
  unfold State.cfRun; try dsimp only
  repeat' first
      | with_reducible assumption | with_reducible apply State.cfDone_keep | with_reducible apply State.cfEraseRun_keep
      | with_reducible apply State.cfProgramRun_keep | with_reducible apply State.cfProtectRun_keep | with_reducible apply State.cfPwResetRun_keep
      | with_reducible apply State.cfReadBytes_keep | with_reducible apply State.cfRegisterRun_keep | with_reducible apply State.cfResumeRun_keep
      | with_reducible apply State.cfSuspendRun_keep | with_reducible apply State.cfSwapRun_keep | with_reducible apply State.cfTwinRun_keep
      | with_reducible apply State.counter_keep | with_reducible apply State.fresh_keep | with_reducible apply ok_ite | split

theorem State.cfSubmit_keep (I : Keep) (s : State) (op : Nat) (c : Option Ctx) (pl : Bytes) (H_s : Ok I s) :
    Ok I (State.cfSubmit s op c pl) := by
  unfold State.cfSubmit; try dsimp only
  repeat' first
      | with_reducible assumption | with_reducible apply State.cfDone_keep | with_reducible apply State.cfRun_keep
      | with_reducible apply State.setFlash_keep | with_reducible apply ok_ite

theorem State.cfPump_keep (I : Keep) (s : State) (y0 : Nat) (H_s : Ok I s) :
    Ok I (State.cfPump s y0) := by
  induction y0 generalizing s with
  | zero =>
    unfold State.cfPump; try dsimp only
    repeat' first | with_reducible assumption
  | succ n ih =>
    unfold State.cfPump; try dsimp only
    repeat' first
        | with_reducible assumption | with_reducible apply ih | with_reducible apply State.cfRun_keep | with_reducible apply State.setFlash_keep
        | with_reducible apply ok_ite | split

theorem State.cfEraseDone_keep (I : Keep) (s : State) (n : Nat) (after : FlashAfter) (H_s : Ok I s) :
    Ok I (State.cfEraseDone s n after) := by
  unfold State.cfEraseDone; try dsimp only
  repeat' first
      | with_reducible assumption | with_reducible apply State.beginErase_keep | with_reducible apply State.cfDone_keep
      | with_reducible apply State.cfPump_keep | with_reducible apply State.endErase_keep | with_reducible apply State.setFlash_keep | split

theorem State.cfProgramDone_keep (I : Keep) (s : State) (o : FlashOp) (H_s : Ok I s) :
    Ok I (State.cfProgramDone s o) := by
  unfold State.cfProgramDone; try dsimp only
  repeat' first
      | with_reducible assumption | with_reducible apply State.cfDone_keep | with_reducible apply State.cfPump_keep
      | with_reducible apply State.flashPut_keep | with_reducible apply State.setFlash_keep | split

theorem State.cfFrame_keep (I : Keep) (s : State) (op : Nat) (c : Ctx) (pl : Bytes) (H_s : Ok I s) :
    OkR I (State.cfFrame s op c pl) := by
  unfold State.cfFrame; try dsimp only
  repeat' first
      | with_reducible assumption | with_reducible apply State.cfSubmit_keep | with_reducible apply State.freeMbox_keep
      | with_reducible apply State.reply_keep | with_reducible apply okR_next | with_reducible apply okR_ite | split

theorem execCfRead_keep (I : Keep) (c : Ctx) (payload : Bytes) (env : List Strike) (s : State) (H_s : Ok I s) :
    OkR I (execCfRead c payload env s) := by
  unfold execCfRead; try dsimp only
  repeat' first | with_reducible assumption | with_reducible apply State.cfFrame_keep | with_reducible apply State.strike_keep

theorem execCfProgram_keep (I : Keep) (c : Ctx) (payload : Bytes) (s : State) (H_s : Ok I s) :
    OkR I (execCfProgram c payload s) := by
  unfold execCfProgram; try dsimp only
  repeat' first | with_reducible assumption | with_reducible apply State.cfFrame_keep

theorem execCfErase_keep (I : Keep) (c : Ctx) (payload : Bytes) (s : State) (H_s : Ok I s) :
    OkR I (execCfErase c payload s) := by
  unfold execCfErase; try dsimp only
  repeat' first | with_reducible assumption | with_reducible apply State.cfFrame_keep

theorem execCfSuspend_keep (I : Keep) (c : Ctx) (payload : Bytes) (s : State) (hs : Ok I s) : OkR I (execCfSuspend c payload s) := by
  have h := State.cfFrame_keep I s 0x0704 c payload hs
  unfold execCfSuspend
  split
  · next t e => exact okR_next (State.cfPump_keep _ _ _ (h.get t e))
  · exact h

theorem execCfResume_keep (I : Keep) (c : Ctx) (payload : Bytes) (s : State) (H_s : Ok I s) :
    OkR I (execCfResume c payload s) := by
  unfold execCfResume; try dsimp only
  repeat' first | with_reducible assumption | with_reducible apply State.cfFrame_keep

theorem execCfBlankCheck_keep (I : Keep) (c : Ctx) (payload : Bytes) (s : State) (H_s : Ok I s) :
    OkR I (execCfBlankCheck c payload s) := by
  unfold execCfBlankCheck; try dsimp only
  repeat' first | with_reducible assumption | with_reducible apply State.cfFrame_keep

theorem execCfHalfList_keep (I : Keep) (c : Ctx) (payload : Bytes) (s : State) (H_s : Ok I s) :
    OkR I (execCfHalfList c payload s) := by
  unfold execCfHalfList; try dsimp only
  repeat' first | with_reducible assumption | with_reducible apply State.cfFrame_keep

theorem execCfProtSet_keep (I : Keep) (c : Ctx) (payload : Bytes) (s : State) (H_s : Ok I s) :
    OkR I (execCfProtSet c payload s) := by
  unfold execCfProtSet; try dsimp only
  repeat' first | with_reducible assumption | with_reducible apply State.cfFrame_keep

theorem execCfPwSet_keep (I : Keep) (c : Ctx) (payload : Bytes) (s : State) (H_s : Ok I s) :
    OkR I (execCfPwSet c payload s) := by
  unfold execCfPwSet; try dsimp only
  repeat' first | with_reducible assumption | with_reducible apply State.cfFrame_keep

theorem execCfProtRead_keep (I : Keep) (c : Ctx) (payload : Bytes) (s : State) (H_s : Ok I s) :
    OkR I (execCfProtRead c payload s) := by
  unfold execCfProtRead; try dsimp only
  repeat' first | with_reducible assumption | with_reducible apply State.cfFrame_keep

theorem execCfTwinWrite_keep (I : Keep) (c : Ctx) (payload : Bytes) (s : State) (H_s : Ok I s) :
    OkR I (execCfTwinWrite c payload s) := by
  unfold execCfTwinWrite; try dsimp only
  repeat' first | with_reducible assumption | with_reducible apply State.cfFrame_keep

theorem execCfBootSwap_keep (I : Keep) (c : Ctx) (payload : Bytes) (s : State) (H_s : Ok I s) :
    OkR I (execCfBootSwap c payload s) := by
  unfold execCfBootSwap; try dsimp only
  repeat' first | with_reducible assumption | with_reducible apply State.cfFrame_keep

theorem execCfStartClear_keep (I : Keep) (c : Ctx) (payload : Bytes) (s : State) (H_s : Ok I s) :
    OkR I (execCfStartClear c payload s) := by
  unfold execCfStartClear; try dsimp only
  repeat' first | with_reducible assumption | with_reducible apply State.cfFrame_keep

theorem execCfPwReset_keep (I : Keep) (c : Ctx) (payload : Bytes) (s : State) (H_s : Ok I s) :
    OkR I (execCfPwReset c payload s) := by
  unfold execCfPwReset; try dsimp only
  repeat' first | with_reducible assumption | with_reducible apply State.cfFrame_keep

theorem execCfLogRead_keep (I : Keep) (c : Ctx) (payload : Bytes) (env : List Strike) (s : State) (H_s : Ok I s) :
    OkR I (execCfLogRead c payload env s) := by
  unfold execCfLogRead; try dsimp only
  repeat' first | with_reducible assumption | with_reducible apply State.cfFrame_keep | with_reducible apply State.strike_keep

/-! ## RegFile -/

theorem State.afterRead_keep (I : Keep) (s : State) (b : Blk) (k : Nat) (off : Nat) (H_s : Ok I s) :
    Ok I (State.afterRead s b k off) := by
  unfold State.afterRead; try dsimp only
  repeat' first
      | with_reducible assumption | with_reducible apply State.putReg_keep | with_reducible apply State.setDev_keep
      | with_reducible apply State.setFlash_keep | with_reducible apply State.setFree_keep | with_reducible apply State.setTimeHi_keep
      | with_reducible apply ok_ite | split

theorem State.readEntry_keep (I : Keep) (s : State) (c : Ctx) (a : Nat) (H_s : Ok I s) :
    OkE I (State.readEntry s c a) := by
  unfold State.readEntry; try dsimp only
  repeat' first
      | with_reducible assumption | with_reducible apply State.afterRead_keep | with_reducible apply okE_ok | with_reducible apply okE_error | split

theorem State.readEntries_keep (I : Keep) (s : State) (c : Ctx) (y0 : List Nat) (y1 : Nat) (y2 : Bytes) (H_s : Ok I s) :
    Ok I ((State.readEntries s c y0 y1 y2).1) := by
  induction y0 generalizing s c y1 y2 with
  | nil =>
    unfold State.readEntries; try dsimp only
    repeat' first | with_reducible assumption
  | cons x xs ih =>
    unfold State.readEntries; try dsimp only
    repeat' first
        | with_reducible assumption | with_reducible apply ih | with_reducible apply State.readEntry_keep | split
        | (with_reducible apply okE_get; assumption)

/-! ## Links -/

theorem State.modLink_keep (I : Keep) (s : State) (i : Nat) (f : Link → Link) (H_s : Ok I s) :
    Ok I (State.modLink s i f) := by
  unfold State.modLink; try dsimp only
  repeat' first | with_reducible assumption | with_reducible apply State.putLink_keep

theorem State.passReach_keep (I : Keep) (s : State) (from_ : Nat) (dev : Nat) (back : Bool) (H_s : Ok I s) :
    Ok I (State.passReach s from_ dev back) := by
  unfold State.passReach; try dsimp only
  repeat' first | with_reducible assumption | with_reducible apply State.sendMessage_keep | with_reducible apply ok_ite

theorem State.refreshNbr_keep (I : Keep) (s : State) (dir : Nat) (H_s : Ok I s) :
    Ok I (State.refreshNbr s dir) := by
  unfold State.refreshNbr; try dsimp only
  repeat' first
      | with_reducible assumption | with_reducible apply State.passReach_keep | with_reducible apply State.pumpPair_keep
      | with_reducible apply State.setVeolo_keep | with_reducible apply ok_ite

theorem State.electMaster_keep (I : Keep) (s : State) (H_s : Ok I s) :
    Ok I (State.electMaster s) := by
  unfold State.electMaster; try dsimp only
  repeat' first | with_reducible assumption | with_reducible apply State.setVeolo_keep | split

theorem State.linkDown_keep (I : Keep) (s : State) (i : Nat) (H_s : Ok I s) :
    Ok I (State.linkDown s i) := by
  unfold State.linkDown; try dsimp only
  repeat' first
      | with_reducible assumption | with_reducible apply State.electMaster_keep | with_reducible apply State.modLink_keep
      | with_reducible apply State.refreshNbr_keep

theorem State.linkTrains_keep (I : Keep) (s : State) (i : Nat) (st : LState) (H_s : Ok I s) :
    Ok I (State.linkTrains s i st) := by
  unfold State.linkTrains; try dsimp only
  repeat' first
      | with_reducible assumption | with_reducible apply State.bump_keep | with_reducible apply State.modLink_keep
      | with_reducible apply State.refreshNbr_keep

theorem State.linkControl_keep (I : Keep) (s : State) (i : Nat) (enable : Bool) (retrain : Bool) (H_s : Ok I s) :
    Ok I (State.linkControl s i enable retrain) := by
  unfold State.linkControl; try dsimp only
  repeat' first
      | with_reducible assumption | with_reducible apply State.electMaster_keep | with_reducible apply State.linkDown_keep
      | with_reducible apply State.modLink_keep | with_reducible apply State.refreshNbr_keep | with_reducible apply ok_ite

theorem State.loseLoanCaches_keep (I : Keep) (s : State) (p : Nat) (id : Nat) (H_s : Ok I s) :
    Ok I (State.loseLoanCaches s p id) := by
  unfold State.loseLoanCaches; try dsimp only
  repeat' first
      | with_reducible assumption | with_reducible apply State.buryReq_keep | with_reducible apply State.modPart_keep
      | (with_reducible apply ok_foldl; intro _ _ _) | split

theorem State.dropLoan_keep (I : Keep) (s : State) (p : Nat) (id : Nat) (H_s : Ok I s) :
    Ok I (State.dropLoan s p id) := by
  unfold State.dropLoan; try dsimp only
  repeat' first | with_reducible assumption | with_reducible apply State.loseLoanCaches_keep | with_reducible apply State.modPart_keep

theorem State.reissueReads_keep (I : Keep) (s : State) (p : Nat) (pt : Part) (l : Loan) (H_s : Ok I s) :
    Ok I (State.reissueReads s p pt l) := by
  unfold State.reissueReads; try dsimp only
  repeat' first
      | with_reducible assumption | with_reducible apply State.modPart_keep | with_reducible apply State.modTile_keep
      | (with_reducible apply ok_foldl; intro _ _ _)

theorem State.endReturn_keep (I : Keep) (s : State) (p : Nat) (link : Nat) (H_s : Ok I s) :
    Ok I (State.endReturn s p link) := by
  unfold State.endReturn; try dsimp only
  repeat' first | with_reducible assumption | with_reducible apply State.pushGo_keep | (with_reducible apply ok_foldl; intro _ _ _)

theorem State.lenderLost_keep (I : Keep) (s : State) (dir : Nat) (H_s : Ok I s) :
    Ok I (State.lenderLost s dir) := by
  unfold State.lenderLost; try dsimp only
  repeat' first
      | with_reducible assumption | with_reducible apply State.dropLoan_keep | with_reducible apply State.endReturn_keep
      | with_reducible apply State.modPart_keep | with_reducible apply State.pushGo_keep | with_reducible apply State.reissueReads_keep
      | (with_reducible apply ok_foldl; intro _ _ _) | with_reducible apply ok_ite

theorem State.borrowerLost_keep (I : Keep) (s : State) (dir : Nat) (H_s : Ok I s) :
    Ok I (State.borrowerLost s dir) := by
  unfold State.borrowerLost; try dsimp only
  repeat' first
      | with_reducible assumption | with_reducible apply State.clearExtent_keep | with_reducible apply State.setLender_keep
      | (with_reducible apply ok_foldl; intro _ _ _)

theorem State.loseStage_keep (I : Keep) (s : State) (p : Nat) (stage : Nat) (H_s : Ok I s) :
    Ok I (State.loseStage s p stage) := by
  unfold State.loseStage; try dsimp only
  repeat' first
      | with_reducible assumption | with_reducible apply State.buryReq_keep | with_reducible apply State.endReqNow_keep
      | with_reducible apply State.endStream_keep | with_reducible apply State.failEnding_keep | with_reducible apply State.modPart_keep
      | (with_reducible apply ok_foldl; intro _ _ _) | split

theorem State.loseMember_keep (I : Keep) (s : State) (p : Nat) (dev : Nat) (k : Nat) (H_s : Ok I s) :
    Ok I (State.loseMember s p dev k) := by
  unfold State.loseMember; try dsimp only
  repeat' first
      | with_reducible assumption | with_reducible apply State.bump_keep | with_reducible apply State.endReqNow_keep
      | with_reducible apply State.failEnding_keep | with_reducible apply State.modPart_keep | (with_reducible apply ok_foldl; intro _ _ _)
      | with_reducible apply ok_ite | split

theorem State.loseDevice_keep (I : Keep) (s : State) (dev : Nat) (H_s : Ok I s) :
    Ok I (State.loseDevice s dev) := by
  unfold State.loseDevice; try dsimp only
  repeat' first
      | with_reducible assumption | with_reducible apply State.loseMember_keep | with_reducible apply State.loseStage_keep
      | with_reducible apply State.sharedEvent_keep | (with_reducible apply ok_foldl; intro _ _ _) | with_reducible apply ok_ite | split

theorem State.takeReach_keep (I : Keep) (s : State) (from_ : Nat) (dev : Nat) (back : Bool) (H_s : Ok I s) :
    Ok I (State.takeReach s from_ dev back) := by
  unfold State.takeReach; try dsimp only
  repeat' first
      | with_reducible assumption | with_reducible apply State.loseDevice_keep | with_reducible apply State.passReach_keep
      | with_reducible apply State.setVeolo_keep | with_reducible apply ok_ite

theorem State.loseNeighbour_keep (I : Keep) (s : State) (dir : Nat) (st : NState) (H_s : Ok I s) :
    Ok I (State.loseNeighbour s dir st) := by
  unfold State.loseNeighbour; try dsimp only
  repeat' first
      | with_reducible assumption | with_reducible apply State.borrowerLost_keep | with_reducible apply State.fetchLost_keep
      | with_reducible apply State.lenderLost_keep | with_reducible apply State.loseDevice_keep | with_reducible apply State.modLink_keep
      | with_reducible apply State.passReach_keep | with_reducible apply State.setVeolo_keep

theorem State.deliver_keep (I : Keep) (s : State) (dir : Nat) (y0 : Nat) (H_s : Ok I s) :
    Ok I (State.deliver s dir y0) := by
  induction y0 generalizing s dir with
  | zero =>
    unfold State.deliver; try dsimp only
    repeat' first | with_reducible assumption
  | succ n ih =>
    unfold State.deliver; try dsimp only
    repeat' first | with_reducible assumption | with_reducible apply ih | with_reducible apply State.setVeolo_keep | split

theorem State.grantLoan_keep (I : Keep) (s : State) (i : Nat) (p : Nat) (n : Nat) (H_s : Ok I s) :
    Ok I (State.grantLoan s i p n) := by
  unfold State.grantLoan; try dsimp only
  repeat' first | with_reducible assumption | with_reducible apply State.setLender_keep

theorem State.loanReturned_keep (I : Keep) (s : State) (i : Nat) (p : Nat) (n : Nat) (k : Nat) (H_s : Ok I s) :
    Ok I (State.loanReturned s i p n k) := by
  unfold State.loanReturned; try dsimp only
  repeat' first
      | with_reducible assumption | with_reducible apply State.clearExtent_keep | with_reducible apply State.setLender_keep
      | (with_reducible apply ok_foldl; intro _ _ _) | split

theorem State.lentMessage_keep (I : Keep) (s : State) (i : Nat) (bs : Bytes) (H_s : Ok I s) :
    Ok I (State.lentMessage s i bs) := by
  unfold State.lentMessage; try dsimp only
  repeat' first
      | with_reducible assumption | with_reducible apply State.grantLoan_keep | with_reducible apply State.loanReturned_keep
      | with_reducible apply State.sendMessage_keep | with_reducible apply State.sendShard_keep | with_reducible apply State.shardFrom_keep
      | with_reducible apply ok_ite | split

theorem State.stageBack_keep (I : Keep) (s : State) (p : Nat) (stage : Nat) (H_s : Ok I s) :
    Ok I (State.stageBack s p stage) := by
  unfold State.stageBack; try dsimp only
  repeat' first | with_reducible assumption | with_reducible apply State.modPart_keep

theorem State.takeFlit_keep (I : Keep) (s : State) (i : Nat) (f : Flit) (H_s : Ok I s) :
    Ok I (State.takeFlit s i f) := by
  unfold State.takeFlit; try dsimp only
  repeat' first
      | with_reducible assumption | with_reducible apply State.bump_keep | with_reducible apply State.deliver_keep
      | with_reducible apply State.lentMessage_keep | with_reducible apply State.modLink_keep | with_reducible apply State.putLink_keep
      | with_reducible apply State.refreshNbr_keep | with_reducible apply State.sendOn_keep | with_reducible apply State.sendTo_keep
      | with_reducible apply State.setVeolo_keep | with_reducible apply State.stageBack_keep | with_reducible apply State.takeReach_keep
      | with_reducible apply State.toldLost_keep | with_reducible apply ok_ite | split

theorem State.sweepInbox_keep (I : Keep) (s : State) (H_s : Ok I s) :
    Ok I (State.sweepInbox s) := by
  unfold State.sweepInbox; try dsimp only
  repeat' first | with_reducible assumption | with_reducible apply State.setVeolo_keep

/-! ## RegWrite -/

theorem State.endGo_keep (I : Keep) (s : State) (what : Nat) (p : Nat) (st : Status) (H_s : Ok I s) :
    OkW I (State.endGo s what p st) := by
  unfold State.endGo; try dsimp only
  repeat' first | with_reducible assumption | with_reducible apply State.pushGo_keep | with_reducible apply okW_waits

theorem State.startTableLoad_keep (I : Keep) (s : State) (p : Nat) (w : Word) (H_s : Ok I s) :
    OkW I (State.startTableLoad s p w) := by
  unfold State.startTableLoad; try dsimp only
  repeat' first
      | with_reducible assumption | with_reducible apply State.addLoad_keep | with_reducible apply State.endGo_keep
      | with_reducible apply State.lastLoad_keep | with_reducible apply State.shareReadChecked_keep | with_reducible apply okW_waits
      | with_reducible apply okW_no | with_reducible apply okW_ite | split

theorem State.startBitmap_keep (I : Keep) (s : State) (p : Nat) (w : Word) (H_s : Ok I s) :
    OkW I (State.startBitmap s p w) := by
  unfold State.startBitmap; try dsimp only
  repeat' first
      | with_reducible assumption | with_reducible apply State.endGo_keep | with_reducible apply State.modPart_keep
      | with_reducible apply State.runBitmap_keep | with_reducible apply State.shareReadChecked_keep | with_reducible apply okW_waits
      | with_reducible apply okW_no | with_reducible apply okW_ite | split

theorem State.startTileReset_keep (I : Keep) (s : State) (w : Word) (H_s : Ok I s) :
    OkW I (State.startTileReset s w) := by
  unfold State.startTileReset; try dsimp only
  repeat' first
      | with_reducible assumption | with_reducible apply State.modTile_keep | with_reducible apply okW_done | with_reducible apply okW_no
      | with_reducible apply okW_ite

theorem State.startLoan_keep (I : Keep) (s : State) (p : Nat) (w : Word) (go : Bool) (rel : Bool) (H_s : Ok I s) :
    OkW I (State.startLoan s p w go rel) := by
  unfold State.startLoan; try dsimp only
  repeat' first
      | with_reducible assumption | with_reducible apply State.modPart_keep | with_reducible apply State.sendMessage_keep
      | with_reducible apply okW_waits | with_reducible apply okW_no | with_reducible apply okW_ite | split

theorem State.reclaim_keep (I : Keep) (s : State) (offer : Nat) (H_s : Ok I s) :
    Ok I (State.reclaim s offer) := by
  unfold State.reclaim; try dsimp only
  repeat' first
      | with_reducible assumption | with_reducible apply State.sendMessage_keep | with_reducible apply State.setLender_keep
      | (with_reducible apply ok_foldl; intro _ _ _)

theorem State.gzEnable_keep (I : Keep) (s : State) (p : Nat) (en : Bool) (H_s : Ok I s) :
    Ok I (State.gzEnable s p en) := by
  unfold State.gzEnable; try dsimp only
  repeat' first | with_reducible assumption | with_reducible apply State.modPart_keep

theorem State.writeEffect_keep (I : Keep) (s : State) (b : Blk) (k : Nat) (off : Nat) (old : Word) (w : Word) (v : Word) (H_s : Ok I s) :
    OkW I (State.writeEffect s b k off old w v) := by
  unfold State.writeEffect; try dsimp only
  repeat' first
      | with_reducible assumption | with_reducible apply State.cfSubmit_keep | with_reducible apply State.gzEnable_keep
      | with_reducible apply State.linkControl_keep | with_reducible apply State.modPart_keep | with_reducible apply State.putReg_keep
      | with_reducible apply State.reclaim_keep | with_reducible apply State.setDev_keep | with_reducible apply State.setEth_keep
      | with_reducible apply State.setLesar_keep | with_reducible apply State.setNand_keep | with_reducible apply State.startBitmap_keep
      | with_reducible apply State.startLoan_keep | with_reducible apply State.startTableLoad_keep | with_reducible apply State.startTileReset_keep
      | (with_reducible apply ok_foldl; intro _ _ _) | with_reducible apply okW_done | with_reducible apply okW_waits | with_reducible apply okW_ite
      | with_reducible apply ok_ite | split

theorem State.writeEntry_keep (I : Keep) (s : State) (c : Ctx) (a : Nat) (v : Word) (H_s : Ok I s) :
    OkW I (State.writeEntry s c a v) := by
  unfold State.writeEntry; try dsimp only
  repeat' first
      | with_reducible assumption | with_reducible apply State.writeEffect_keep | with_reducible apply okW_done | with_reducible apply okW_no
      | with_reducible apply okW_ite | split

theorem State.writeEntries_keep (I : Keep) (s : State) (c : Ctx) (y0 : List (Word × Word)) (y1 : Nat) (H_s : Ok I s) :
    Ok I (State.writeEntries s c y0 y1) := by
  induction y0 generalizing s c y1 with
  | nil =>
    unfold State.writeEntries; try dsimp only
    repeat' first | with_reducible assumption | with_reducible apply State.reply_keep
  | cons x xs ih =>
    unfold State.writeEntries; try dsimp only
    repeat' first
        | with_reducible assumption | with_reducible apply ih | with_reducible apply State.reply_keep | with_reducible apply State.setLesar_keep
        | with_reducible apply State.writeEntry_keep | split | (with_reducible apply okW_get; assumption)
        | (with_reducible apply okW_get2; assumption)

theorem State.settleGos_keep (I : Keep) (s : State) (y0 : Nat) (H_s : Ok I s) :
    Ok I (State.settleGos s y0) := by
  induction y0 generalizing s with
  | zero =>
    unfold State.settleGos; try dsimp only
    repeat' first | with_reducible assumption
  | succ n ih =>
    unfold State.settleGos; try dsimp only
    repeat' first
        | with_reducible assumption | with_reducible apply ih | with_reducible apply State.reply_keep | with_reducible apply State.setLesar_keep
        | with_reducible apply State.writeEntries_keep | with_reducible apply ok_ite | split

theorem State.settleAll_keep (I : Keep) (s : State) (H_s : Ok I s) :
    Ok I (State.settleAll s) := by
  unfold State.settleAll; try dsimp only
  repeat' first | with_reducible assumption | with_reducible apply State.settleGos_keep

theorem State.regFrame_keep (I : Keep) (s : State) (c : Ctx) (op : Nat) (body : State → Res) (H_s : Ok I s) (H_body : ∀ x0, Ok I x0 → OkR I (body x0)) :
    OkR I (State.regFrame s c op body) := by
  unfold State.regFrame; try dsimp only
  repeat' first | with_reducible assumption | with_reducible apply State.answer_keep | apply H_body | with_reducible apply okR_ite | split

theorem State.regWrites_keep (I : Keep) (s : State) (c : Ctx) (es : List (Word × Word)) (H_s : Ok I s) :
    OkR I (State.regWrites s c es) := by
  unfold State.regWrites; try dsimp only
  repeat' first
      | with_reducible assumption | with_reducible apply State.regFrame_keep | with_reducible apply State.settleAll_keep
      | with_reducible apply State.writeEntries_keep | with_reducible apply okR_next | intro _

theorem State.regWriteOne_keep (I : Keep) (s : State) (c : Ctx) (b : Blk) (k : Nat) (off : Nat) (v : Word) (H_s : Ok I s) :
    OkR I (State.regWriteOne s c b k off v) := by
  unfold State.regWriteOne; try dsimp only
  repeat' first | with_reducible assumption | with_reducible apply State.regWrites_keep | with_reducible apply require_keep

theorem execRegRead_keep (I : Keep) (c : Ctx) (payload : Bytes) (s : State) (H_s : Ok I s) :
    OkR I (execRegRead c payload s) := by
  unfold execRegRead; try dsimp only
  repeat' first
      | with_reducible assumption | with_reducible apply State.answer_keep | with_reducible apply State.readEntries_keep
      | with_reducible apply State.regFrame_keep | with_reducible apply State.reply_keep | with_reducible apply okR_next
      | with_reducible apply okR_ite | intro _ | split

theorem execRegWrite_keep (I : Keep) (c : Ctx) (payload : Bytes) (s : State) (H_s : Ok I s) :
    OkR I (execRegWrite c payload s) := by
  unfold execRegWrite; try dsimp only
  repeat' first
      | with_reducible assumption | with_reducible apply State.answer_keep | with_reducible apply State.regFrame_keep
      | with_reducible apply State.regWrites_keep | with_reducible apply okR_ite | intro _

theorem execTblLoad_keep (I : Keep) (c : Ctx) (p : Nat) (value : Word) (s : State) (H_s : Ok I s) :
    OkR I (execTblLoad c p value s) := by
  unfold execTblLoad; try dsimp only
  repeat' first | with_reducible assumption | with_reducible apply State.regWriteOne_keep

theorem execGratCtlWrite_keep (I : Keep) (c : Ctx) (p : Nat) (value : Word) (s : State) (H_s : Ok I s) :
    OkR I (execGratCtlWrite c p value s) := by
  unfold execGratCtlWrite; try dsimp only
  repeat' first | with_reducible assumption | with_reducible apply State.regWriteOne_keep

theorem execGzCtlWrite_keep (I : Keep) (c : Ctx) (p : Nat) (value : Word) (s : State) (H_s : Ok I s) :
    OkR I (execGzCtlWrite c p value s) := by
  unfold execGzCtlWrite; try dsimp only
  repeat' first | with_reducible assumption | with_reducible apply State.regWriteOne_keep

theorem execKvRingCtlWrite_keep (I : Keep) (c : Ctx) (p : Nat) (value : Word) (s : State) (H_s : Ok I s) :
    OkR I (execKvRingCtlWrite c p value s) := by
  unfold execKvRingCtlWrite; try dsimp only
  repeat' first | with_reducible assumption | with_reducible apply State.regWriteOne_keep

theorem execBitmapLoad_keep (I : Keep) (c : Ctx) (p : Nat) (value : Word) (s : State) (H_s : Ok I s) :
    OkR I (execBitmapLoad c p value s) := by
  unfold execBitmapLoad; try dsimp only
  repeat' first | with_reducible assumption | with_reducible apply State.regWriteOne_keep

theorem execStrmCtlWrite_keep (I : Keep) (c : Ctx) (p : Nat) (value : Word) (s : State) (H_s : Ok I s) :
    OkR I (execStrmCtlWrite c p value s) := by
  unfold execStrmCtlWrite; try dsimp only
  repeat' first | with_reducible assumption | with_reducible apply State.regWriteOne_keep

theorem execLsReqLimitWrite_keep (I : Keep) (c : Ctx) (p : Nat) (value : Word) (s : State) (H_s : Ok I s) :
    OkR I (execLsReqLimitWrite c p value s) := by
  unfold execLsReqLimitWrite; try dsimp only
  repeat' first | with_reducible assumption | with_reducible apply State.regWriteOne_keep

theorem execLsReqCtlWrite_keep (I : Keep) (c : Ctx) (p : Nat) (value : Word) (s : State) (H_s : Ok I s) :
    OkR I (execLsReqCtlWrite c p value s) := by
  unfold execLsReqCtlWrite; try dsimp only
  repeat' first | with_reducible assumption | with_reducible apply State.regWriteOne_keep

theorem execNtPauseCtlWrite_keep (I : Keep) (c : Ctx) (value : Word) (s : State) (H_s : Ok I s) :
    OkR I (execNtPauseCtlWrite c value s) := by
  unfold execNtPauseCtlWrite; try dsimp only
  repeat' first | with_reducible assumption | with_reducible apply State.regWriteOne_keep

theorem execLoanRequest_keep (I : Keep) (c : Ctx) (p : Nat) (value : Word) (s : State) (H_s : Ok I s) :
    OkR I (execLoanRequest c p value s) := by
  unfold execLoanRequest; try dsimp only
  repeat' first | with_reducible assumption | with_reducible apply State.regWriteOne_keep

theorem execLoanRelease_keep (I : Keep) (c : Ctx) (p : Nat) (value : Word) (s : State) (H_s : Ok I s) :
    OkR I (execLoanRelease c p value s) := by
  unfold execLoanRelease; try dsimp only
  repeat' first | with_reducible assumption | with_reducible apply State.regWriteOne_keep

theorem execTierLendOfferWrite_keep (I : Keep) (c : Ctx) (value : Word) (s : State) (H_s : Ok I s) :
    OkR I (execTierLendOfferWrite c value s) := by
  unfold execTierLendOfferWrite; try dsimp only
  repeat' first | with_reducible assumption | with_reducible apply State.regWriteOne_keep

theorem execRetrain_keep (I : Keep) (c : Ctx) (link : Nat) (value : Word) (s : State) (H_s : Ok I s) :
    OkR I (execRetrain c link value s) := by
  unfold execRetrain; try dsimp only
  repeat' first | with_reducible assumption | with_reducible apply State.regWriteOne_keep

theorem execVlDevNumWrite_keep (I : Keep) (c : Ctx) (value : Word) (s : State) (H_s : Ok I s) :
    OkR I (execVlDevNumWrite c value s) := by
  unfold execVlDevNumWrite; try dsimp only
  repeat' first | with_reducible assumption | with_reducible apply State.regWriteOne_keep

theorem execVlTopoCtlWrite_keep (I : Keep) (c : Ctx) (value : Word) (s : State) (H_s : Ok I s) :
    OkR I (execVlTopoCtlWrite c value s) := by
  unfold execVlTopoCtlWrite; try dsimp only
  repeat' first | with_reducible assumption | with_reducible apply State.regWriteOne_keep

theorem execPgCtlWrite_keep (I : Keep) (c : Ctx) (value : Word) (s : State) (H_s : Ok I s) :
    OkR I (execPgCtlWrite c value s) := by
  unfold execPgCtlWrite; try dsimp only
  repeat' first | with_reducible assumption | with_reducible apply State.regWriteOne_keep

theorem execTileBlockReset_keep (I : Keep) (c : Ctx) (value : Word) (s : State) (H_s : Ok I s) :
    OkR I (execTileBlockReset c value s) := by
  unfold execTileBlockReset; try dsimp only
  repeat' first | with_reducible assumption | with_reducible apply State.regWriteOne_keep

theorem State.runBitmaps_keep (I : Keep) (s : State) (p : Nat) (js : List (Nat × Nat × Bytes)) (H_s : Ok I s) :
    Ok I (State.runBitmaps s p js) := by
  unfold State.runBitmaps; try dsimp only
  repeat' first
      | with_reducible assumption | with_reducible apply State.pushGo_keep | with_reducible apply State.runBitmap_keep
      | (with_reducible apply ok_foldl; intro _ _ _) | split

theorem execBitmapCopyComplete_keep (I : Keep) (p : Nat) (s : State) (H_s : Ok I s) :
    OkR I (execBitmapCopyComplete p s) := by
  unfold execBitmapCopyComplete; try dsimp only
  repeat' first
      | with_reducible assumption | with_reducible apply State.copyBitmaps_keep | with_reducible apply State.modPart_keep
      | with_reducible apply State.runBitmaps_keep | with_reducible apply State.settleAll_keep | with_reducible apply impossible_keep
      | with_reducible apply require_keep | with_reducible apply okR_next | split

theorem execCfEraseComplete_keep (I : Keep) (s : State) (H_s : Ok I s) :
    OkR I (execCfEraseComplete s) := by
  unfold execCfEraseComplete; try dsimp only
  repeat' first
      | with_reducible assumption | with_reducible apply State.cfEraseDone_keep | with_reducible apply State.settleAll_keep
      | with_reducible apply impossible_keep | with_reducible apply okR_next | split

theorem execCfProgramComplete_keep (I : Keep) (s : State) (H_s : Ok I s) :
    OkR I (execCfProgramComplete s) := by
  unfold execCfProgramComplete; try dsimp only
  repeat' first
      | with_reducible assumption | with_reducible apply State.cfProgramDone_keep | with_reducible apply State.settleAll_keep
      | with_reducible apply impossible_keep | with_reducible apply okR_next | split

end Sys2Proof.Machine
end

