-- ==== Sys2Proof/Laws/KeepServing.lean ====
section
/-!
SUPPORT. What the operations of requests, streams, the meridian and the tiles keep.
-/
namespace Sys2Proof.Machine

open Sys2Proof
set_option maxRecDepth 20000

/-! ## Admit -/

theorem State.endShort_keep (I : Keep) (s : State) (p : Nat) (h : Nat) (H_s : Ok I s) :
    Ok I ((State.endShort s p h).1) := by
  unfold State.endShort; try dsimp only
  repeat' first
      | with_reducible assumption | with_reducible apply State.bump_keep | with_reducible apply State.endInset_keep
      | with_reducible apply State.endReq_keep | split

theorem State.endOverlong_keep (I : Keep) (s : State) (p : Nat) (c : Nat) (H_s : Ok I s) :
    Ok I ((State.endOverlong s p c).1) := by
  unfold State.endOverlong; try dsimp only
  repeat' first | with_reducible assumption | with_reducible apply State.endShort_keep | (with_reducible apply ok_foldl1; intro _ _ _) | split

theorem State.chooseGo_keep (I : Keep) (s : State) (p : Nat) (c : Nat) (pfMax : Nat) (y0 : Nat) (y1 : Recs) (H_s : Ok I s) :
    Ok I ((State.chooseGo s p c pfMax y0 y1).1) := by
  induction y0 generalizing s p c pfMax y1 with
  | zero =>
    unfold State.chooseGo; try dsimp only
    repeat' first | with_reducible assumption
  | succ n ih =>
    unfold State.chooseGo; try dsimp only
    repeat' first
        | with_reducible assumption | with_reducible apply ih | with_reducible apply State.bump_keep | with_reducible apply State.endShort_keep
        | split

theorem State.modSeq_keep (I : Keep) (s : State) (p : Nat) (h : Nat) (beam : Nat) (f : Seq → Seq) (H_s : Ok I s) :
    Ok I (State.modSeq s p h beam f) := by
  unfold State.modSeq; try dsimp only
  repeat' first | with_reducible assumption | with_reducible apply State.modPart_keep

theorem State.advanceSeq_keep (I : Keep) (s : State) (p : Nat) (c : Nat) (copy : Bool) (q : Seq) (H_s : Ok I s) :
    Ok I (State.advanceSeq s p c copy q) := by
  unfold State.advanceSeq; try dsimp only
  repeat' first | with_reducible assumption | with_reducible apply State.growSeq_keep | with_reducible apply State.modSeq_keep

theorem State.continueSeqs_keep (I : Keep) (s : State) (p : Nat) (c : Nat) (pfMax : Nat) (H_s : Ok I s) :
    Ok I ((State.continueSeqs s p c pfMax).1) := by
  unfold State.continueSeqs; try dsimp only
  repeat' first
      | with_reducible assumption | with_reducible apply State.advanceSeq_keep | with_reducible apply State.chooseGo_keep
      | with_reducible apply State.endOverlong_keep | (with_reducible apply ok_foldl; intro _ _ _) | split

theorem State.ringPrefill_keep (I : Keep) (s : State) (p : Nat) (len : Nat) (H_s : Ok I s) :
    Ok I ((State.ringPrefill s p len).2) := by
  unfold State.ringPrefill; try dsimp only
  repeat' first | with_reducible assumption | with_reducible apply State.fresh_keep | split

theorem State.swapSheets_keep (I : Keep) (s : State) (p : Nat) (start : Nat) (a : Seq) (b : Seq) (H_s : Ok I s) :
    Ok I (State.swapSheets s p start a b) := by
  unfold State.swapSheets; try dsimp only
  repeat' first | with_reducible assumption | with_reducible apply State.modPart_keep | split

theorem State.settleBranch_keep (I : Keep) (s : State) (p : Nat) (h : Nat) (parent : Nat) (start : Nat) (H_s : Ok I s) :
    Ok I (State.settleBranch s p h parent start) := by
  unfold State.settleBranch; try dsimp only
  repeat' first | with_reducible assumption | with_reducible apply State.swapSheets_keep | with_reducible apply ok_ite | split

theorem State.buildNew_keep (I : Keep) (s : State) (p : Nat) (pt : Part) (h : Nat) (r : Req) (H_s : Ok I s) :
    Ok I ((State.buildNew s p pt h r).1) := by
  unfold State.buildNew; try dsimp only
  repeat' first | with_reducible assumption | with_reducible apply State.bump_keep | with_reducible apply State.putPart_keep

theorem State.buildBranch_keep (I : Keep) (s : State) (p : Nat) (pt : Part) (h : Nat) (r : Req) (parent : Seq) (H_s : Ok I s) :
    Ok I ((State.buildBranch s p pt h r parent).1) := by
  unfold State.buildBranch; try dsimp only
  repeat' first | with_reducible assumption | with_reducible apply State.putPart_keep

theorem State.buildResume_keep (I : Keep) (s : State) (h : Nat) (r : Req) (H_s : Ok I s) :
    Ok I ((State.buildResume s h r).1) := by
  unfold State.buildResume; try dsimp only
  repeat' first | with_reducible assumption

theorem State.seat_keep (I : Keep) (s : State) (p : Nat) (c : Nat) (r : Req) (q0 : Seq) (H_s : Ok I s) :
    OkO I (State.seat s p c r q0) := by
  unfold State.seat; try dsimp only
  repeat' first
      | with_reducible assumption | with_reducible apply State.growSeq_keep | with_reducible apply State.modPart_keep
      | with_reducible apply State.ringPrefill_keep | with_reducible apply State.settleBranch_keep | with_reducible apply okO_some
      | with_reducible apply okO_none | split

theorem State.tryReq_keep (I : Keep) (s : State) (p : Nat) (c : Nat) (bMax : Nat) (pfMax : Nat) (h : Nat) (rows : Nat) (pf : Nat) (H_s : Ok I s) :
    OkT I (State.tryReq s p c bMax pfMax h rows pf) := by
  unfold State.tryReq; try dsimp only
  repeat' first
      | with_reducible assumption | with_reducible apply State.buildBranch_keep | with_reducible apply State.buildNew_keep
      | with_reducible apply State.buildResume_keep | with_reducible apply State.bump_keep | with_reducible apply State.endReq_keep
      | with_reducible apply State.modPart_keep | with_reducible apply State.seat_keep | with_reducible apply State.setNand_keep
      | with_reducible apply okT_admitted | with_reducible apply okT_ended | with_reducible apply okT_passed | with_reducible apply okT_ite
      | with_reducible apply ok_ite | split | (with_reducible apply okO_get; assumption)

theorem State.tryInset_keep (I : Keep) (s : State) (p : Nat) (c : Nat) (bMax : Nat) (pfMax : Nat) (h : Nat) (rows : Nat) (pf : Nat) (H_s : Ok I s) :
    OkT I (State.tryInset s p c bMax pfMax h rows pf) := by
  unfold State.tryInset; try dsimp only
  repeat' first
      | with_reducible assumption | with_reducible apply State.growSeq_keep | with_reducible apply State.modPart_keep
      | with_reducible apply okT_admitted | with_reducible apply okT_passed | with_reducible apply okT_ite | split

theorem State.passOver_keep (I : Keep) (s : State) (p : Nat) (h : Nat) (claims : Bool) (H_s : Ok I s) :
    Ok I (State.passOver s p h claims) := by
  unfold State.passOver; try dsimp only
  repeat' first | with_reducible assumption | with_reducible apply State.bump_keep | with_reducible apply State.modPart_keep

theorem State.notTried_keep (I : Keep) (s : State) (p : Nat) (hs : List Nat) (H_s : Ok I s) :
    Ok I (State.notTried s p hs) := by
  unfold State.notTried; try dsimp only
  repeat' first | with_reducible assumption | with_reducible apply State.modPart_keep

theorem State.admitAll_keep (I : Keep) (s : State) (p : Nat) (c : Nat) (bMax : Nat) (pfMax : Nat) (y0 : List Nat) (y1 : Nat) (y2 : Nat) (y3 : Recs) (H_s : Ok I s) :
    Ok I ((State.admitAll s p c bMax pfMax y0 y1 y2 y3).1) := by
  induction y0 generalizing s p c bMax pfMax y1 y2 y3 with
  | nil =>
    unfold State.admitAll; try dsimp only
    repeat' first | with_reducible assumption
  | cons x xs ih =>
    unfold State.admitAll; try dsimp only
    repeat' first
        | with_reducible assumption | with_reducible apply ih | with_reducible apply State.notTried_keep | with_reducible apply State.passOver_keep
        | with_reducible apply State.tryInset_keep | with_reducible apply State.tryReq_keep | split | (with_reducible apply okT_get; assumption)
        | (with_reducible apply okT_get2; assumption)

theorem State.takeMoved_keep (I : Keep) (s : State) (p : Nat) (y0 : List (PageEntry × Sheet × Bytes)) (y1 : List PageEntry) (H_s : Ok I s) :
    OkP I (State.takeMoved s p y0 y1) := by
  induction y0 generalizing s p y1 with
  | nil =>
    unfold State.takeMoved; try dsimp only
    repeat' first | with_reducible assumption | with_reducible apply okP_some
  | cons x xs ih =>
    unfold State.takeMoved; try dsimp only
    repeat' first
        | with_reducible assumption | with_reducible apply ih | with_reducible apply State.modPart_keep | with_reducible apply State.takeSheet_keep
        | with_reducible apply okP_none | split | (with_reducible apply okP_get; assumption)

theorem State.beginRestore_keep (I : Keep) (s : State) (p : Nat) (h : Nat) (H_s : Ok I s) :
    Ok I (State.beginRestore s p h) := by
  unfold State.beginRestore; try dsimp only
  repeat' first
      | with_reducible assumption | with_reducible apply State.modPart_keep | with_reducible apply State.takeMoved_keep | split
      | (with_reducible apply okP_get; assumption)

theorem State.beginRestores_keep (I : Keep) (s : State) (p : Nat) (H_s : Ok I s) :
    Ok I (State.beginRestores s p) := by
  unfold State.beginRestores; try dsimp only
  repeat' first | with_reducible assumption | with_reducible apply State.beginRestore_keep | (with_reducible apply ok_foldl; intro _ _ _) | split

theorem State.openStreams_keep (I : Keep) (s : State) (p : Nat) (H_s : Ok I s) :
    Ok I (State.openStreams s p) := by
  unfold State.openStreams; try dsimp only
  repeat' first
      | with_reducible assumption | with_reducible apply State.modPart_keep | with_reducible apply State.reply_keep
      | with_reducible apply State.zeroPages_keep | (with_reducible apply ok_foldl; intro _ _ _) | split

theorem State.readPages_keep (I : Keep) (s : State) (pt : Part) (im : Image) (v : Strm) (y0 : List Nat) (H_s : Ok I s) :
    Ok I ((State.readPages s pt im v y0).1) := by
  induction y0 generalizing s pt im v with
  | nil =>
    unfold State.readPages; try dsimp only
    repeat' first | with_reducible assumption
  | cons x xs ih =>
    unfold State.readPages; try dsimp only
    repeat' first
        | with_reducible assumption | with_reducible apply ih | with_reducible apply State.shareReadChecked_keep | split
        | (with_reducible apply ok_fst; assumption)

theorem State.bindStream_keep (I : Keep) (s : State) (p : Nat) (h : Nat) (number : Nat) (tiles : List Nat) (H_s : Ok I s) :
    Ok I (State.bindStream s p h number tiles) := by
  unfold State.bindStream; try dsimp only
  repeat' first
      | with_reducible assumption | with_reducible apply State.loseStream_keep | with_reducible apply State.modPart_keep
      | with_reducible apply State.modTile_keep | with_reducible apply State.readPages_keep | with_reducible apply State.setStamp_keep
      | with_reducible apply State.touchShare_keep | (with_reducible apply ok_foldl; intro _ _ _) | with_reducible apply ok_ite | split

theorem State.bindAll_keep (I : Keep) (s : State) (p : Nat) (im : Image) (y0 : List Nat) (H_s : Ok I s) :
    Ok I (State.bindAll s p im y0) := by
  induction y0 generalizing s p im with
  | nil =>
    unfold State.bindAll; try dsimp only
    repeat' first | with_reducible assumption
  | cons x xs ih =>
    unfold State.bindAll; try dsimp only
    repeat' first
        | with_reducible assumption | with_reducible apply ih | with_reducible apply State.bindStream_keep | with_reducible apply State.fresh_keep
        | with_reducible apply ok_ite | split

theorem State.admission_keep (I : Keep) (s : State) (p : Nat) (im : Image) (H_s : Ok I s) :
    Ok I ((State.admission s p im).1) := by
  unfold State.admission; try dsimp only
  repeat' first
      | with_reducible assumption | with_reducible apply State.admitAll_keep | with_reducible apply State.beginRestores_keep
      | with_reducible apply State.bindAll_keep | with_reducible apply State.continueSeqs_keep | with_reducible apply State.notTried_keep
      | with_reducible apply State.openStreams_keep | with_reducible apply ok_ite | split

/-! ## Walks -/

theorem State.indexFault_keep (I : Keep) (s : State) (H_s : Ok I s) :
    Ok I (State.indexFault s) := by
  unfold State.indexFault; try dsimp only
  repeat' first | with_reducible assumption | with_reducible apply State.sharedEvent_keep | with_reducible apply State.mapParts_keep

theorem State.readRecords_keep (I : Keep) (s : State) (p : Nat) (y0 : List Nat) (H_s : Ok I s) :
    Ok I ((State.readRecords s p y0).1) := by
  induction y0 generalizing s p with
  | nil =>
    unfold State.readRecords; try dsimp only
    repeat' first | with_reducible assumption
  | cons x xs ih =>
    unfold State.readRecords; try dsimp only
    repeat' first
        | with_reducible assumption | with_reducible apply ih | with_reducible apply State.loseSheet_keep
        | with_reducible apply State.shareReadChecked_keep | with_reducible apply ok_ite | split

theorem State.nowCandidate_keep (I : Keep) (s : State) (p : Nat) (h : Nat) (H_s : Ok I s) :
    Ok I (State.nowCandidate s p h) := by
  unfold State.nowCandidate; try dsimp only
  repeat' first | with_reducible assumption | with_reducible apply State.modPart_keep | with_reducible apply State.setStamp_keep

theorem execGazetteerWalk_keep (I : Keep) (p : Nat) (handle : Nat) (env : List Strike) (s : State) (H_s : Ok I s) :
    OkR I (execGazetteerWalk p handle env s) := by
  unfold execGazetteerWalk; try dsimp only
  repeat' first
      | with_reducible assumption | with_reducible apply State.indexFault_keep | with_reducible apply State.modPart_keep
      | with_reducible apply State.strike_keep | with_reducible apply impossible_keep | with_reducible apply require_keep
      | with_reducible apply okR_next | with_reducible apply ok_ite | split

theorem execGazetteerWalkEnd_keep (I : Keep) (p : Nat) (handle : Nat) (s : State) (H_s : Ok I s) :
    OkR I (execGazetteerWalkEnd p handle s) := by
  unfold execGazetteerWalkEnd; try dsimp only
  repeat' first
      | with_reducible assumption | with_reducible apply State.bump_keep | with_reducible apply State.modPart_keep
      | with_reducible apply State.nowCandidate_keep | with_reducible apply State.readRecords_keep | with_reducible apply State.setWalks_keep
      | with_reducible apply impossible_keep | with_reducible apply require_keep | with_reducible apply okR_next | with_reducible apply ok_ite | split

theorem execGzRebuildComplete_keep (I : Keep) (p : Nat) (s : State) (H_s : Ok I s) :
    OkR I (execGzRebuildComplete p s) := by
  unfold execGzRebuildComplete; try dsimp only
  repeat' first
      | with_reducible assumption | with_reducible apply State.modPart_keep | with_reducible apply State.readRecords_keep
      | with_reducible apply impossible_keep | with_reducible apply require_keep | with_reducible apply okR_next
      | (with_reducible apply ok_foldl; intro _ _ _) | split

theorem execGzInitComplete_keep (I : Keep) (p : Nat) (s : State) (H_s : Ok I s) :
    OkR I (execGzInitComplete p s) := by
  unfold execGzInitComplete; try dsimp only
  repeat' first
      | with_reducible assumption | with_reducible apply State.modPart_keep | with_reducible apply impossible_keep | with_reducible apply require_keep
      | with_reducible apply okR_next | split

/-! ## Moves -/

theorem State.boundFail_keep (I : Keep) (s : State) (p : Nat) (H_s : Ok I s) :
    Ok I (State.boundFail s p) := by
  unfold State.boundFail; try dsimp only
  repeat' first | with_reducible assumption | with_reducible apply State.bump_keep | with_reducible apply State.failStep_keep

theorem State.shareFail_keep (I : Keep) (s : State) (p : Nat) (pt : Part) (off : Nat) (H_s : Ok I s) :
    Ok I (State.shareFail s p pt off) := by
  unfold State.shareFail; try dsimp only
  repeat' first
      | with_reducible assumption | with_reducible apply State.endWork_keep | with_reducible apply State.failStep_keep
      | with_reducible apply State.loseSheet_keep | (with_reducible apply ok_foldl; intro _ _ _) | with_reducible apply ok_ite | split

theorem State.sharePull_keep (I : Keep) (s : State) (p : Nat) (pt : Part) (y0 : Nat) (y1 : Nat) (y2 : Nat) (H_s : Ok I s) :
    Ok I ((State.sharePull s p pt y0 y1 y2).1) := by
  induction y0 generalizing s p pt y1 y2 with
  | zero =>
    unfold State.sharePull; try dsimp only
    repeat' first | with_reducible assumption
  | succ n ih =>
    unfold State.sharePull; try dsimp only
    repeat' first
        | with_reducible assumption | with_reducible apply ih | with_reducible apply State.boundFail_keep | with_reducible apply State.shareFail_keep
        | with_reducible apply State.shareReadChecked_keep | with_reducible apply ok_ite | split | (with_reducible apply ok_fst; assumption)

theorem State.readBlock_keep (I : Keep) (s : State) (b : Nat) (H_s : Ok I s) :
    Ok I (State.readBlock s b) := by
  unfold State.readBlock; try dsimp only
  repeat' first
      | with_reducible assumption | with_reducible apply State.bump_keep | with_reducible apply State.setNand_keep | with_reducible apply ok_ite
      | split

theorem State.nandTouch_keep (I : Keep) (s : State) (pt : Part) (off : Nat) (n : Nat) (H_s : Ok I s) :
    Ok I (State.nandTouch s pt off n) := by
  unfold State.nandTouch; try dsimp only
  repeat' first | with_reducible assumption | with_reducible apply State.readBlock_keep | (with_reducible apply ok_foldl; intro _ _ _)

theorem State.nandErrors_keep (I : Keep) (s : State) (bs : List Nat) (env : List Strike) (H_s : Ok I s) :
    Ok I (State.nandErrors s bs env) := by
  unfold State.nandErrors; try dsimp only
  repeat' first
      | with_reducible assumption | with_reducible apply State.bump_keep | with_reducible apply State.setNand_keep | with_reducible apply ok_ite

theorem State.nandFind_keep (I : Keep) (s : State) (pt : Part) (off : Nat) (n : Nat) (env : List Strike) (H_s : Ok I s) :
    Ok I ((State.nandFind s pt off n env).1) := by
  unfold State.nandFind; try dsimp only
  repeat' first | with_reducible assumption | with_reducible apply State.nandErrors_keep | with_reducible apply State.nandTouch_keep

theorem State.shardLost_keep (I : Keep) (s : State) (p : Nat) (pt : Part) (H_s : Ok I s) :
    Ok I (State.shardLost s p pt) := by
  unfold State.shardLost; try dsimp only
  repeat' first | with_reducible assumption | with_reducible apply State.failStep_keep | with_reducible apply State.refetchShard_keep | split

theorem State.endRead_keep (I : Keep) (s : State) (p : Nat) (t : Nat) (pt : Part) (e : DmaEnd) (off : Nat) (n : Nat) (H_s : Ok I s) :
    Ok I ((State.endRead s p t pt e off n).1) := by
  unfold State.endRead; try dsimp only
  repeat' first
      | with_reducible assumption | with_reducible apply State.boundFail_keep | with_reducible apply State.failStep_keep
      | with_reducible apply State.nandTouch_keep | with_reducible apply State.readRuns_keep | with_reducible apply State.shardLost_keep
      | with_reducible apply State.sharePull_keep | with_reducible apply State.touchShare_keep | split

theorem State.scratchWrite_keep (I : Keep) (s : State) (t : Nat) (a : Nat) (bs : Bytes) (H_s : Ok I s) :
    Ok I (State.scratchWrite s t a bs) := by
  unfold State.scratchWrite; try dsimp only
  repeat' first
      | (exact fun w => Mem.wf_writeN _ _ _ _ w) | with_reducible assumption | with_reducible apply State.modTile_keep
      | with_reducible apply State.setScratch_keep

theorem State.mergeFind_keep (I : Keep) (s : State) (pt : Part) (off : Nat) (n : Nat) (H_s : Ok I s) :
    Ok I ((State.mergeFind s pt off n).1) := by
  unfold State.mergeFind; try dsimp only
  repeat' first | with_reducible assumption | with_reducible apply State.shareReadChecked_keep | split

theorem State.writeLoan_keep (I : Keep) (s : State) (p : Nat) (i : Nat) (a : Nat) (bs : Bytes) (H_s : Ok I s) :
    Ok I (State.writeLoan s p i a bs) := by
  unfold State.writeLoan; try dsimp only
  repeat' first | with_reducible assumption | with_reducible apply State.modPart_keep

theorem State.endWrite_keep (I : Keep) (s : State) (p : Nat) (t : Nat) (pt : Part) (e : DmaEnd) (off : Nat) (bs : Bytes) (H_s : Ok I s) :
    Ok I (State.endWrite s p t pt e off bs) := by
  unfold State.endWrite; try dsimp only
  repeat' first
      | with_reducible assumption | with_reducible apply State.boundFail_keep | with_reducible apply State.failStep_keep
      | with_reducible apply State.mergeFind_keep | with_reducible apply State.scratchWrite_keep | with_reducible apply State.shareFail_keep
      | with_reducible apply State.shareWrite_keep | with_reducible apply State.touchShare_keep | with_reducible apply State.writeLoan_keep
      | with_reducible apply ok_ite | split | (with_reducible apply okO_get; assumption)

theorem State.movePods_keep (I : Keep) (s : State) (p : Nat) (t : Nat) (pt : Part) (op : DmaOp) (hdr : DmaEnd) (first : Nat) (h : PodTensor) (env : List Strike) (y0 : List Nat) (H_s : Ok I s) :
    Ok I (State.movePods s p t pt op hdr first h env y0) := by
  induction y0 generalizing s p t pt op hdr first h env with
  | nil =>
    unfold State.movePods; try dsimp only
    repeat' first | with_reducible assumption
  | cons x xs ih =>
    unfold State.movePods; try dsimp only
    repeat' first
        | with_reducible assumption | with_reducible apply ih | with_reducible apply State.endRead_keep | with_reducible apply State.endWrite_keep
        | with_reducible apply State.podFault_keep | with_reducible apply ok_ite | split

theorem State.moveRows_keep (I : Keep) (s : State) (p : Nat) (t : Nat) (pt : Part) (op : DmaOp) (env : List Strike) (H_s : Ok I s) :
    Ok I (State.moveRows s p t pt op env) := by
  unfold State.moveRows; try dsimp only
  repeat' first
      | with_reducible assumption | with_reducible apply State.endRead_keep | with_reducible apply State.endWrite_keep
      | with_reducible apply State.movePods_keep | split

theorem State.runDma_keep (I : Keep) (s : State) (p : Nat) (t : Nat) (pt : Part) (op : DmaOp) (env : List Strike) (H_s : Ok I s) :
    Ok I (State.runDma s p t pt op env) := by
  unfold State.runDma; try dsimp only
  repeat' first
      | with_reducible assumption | with_reducible apply State.moveRows_keep | with_reducible apply State.nandErrors_keep
      | with_reducible apply State.shardLost_keep | with_reducible apply ok_ite | split

theorem State.doDma_keep (I : Keep) (s : State) (t : Nat) (op : DmaOp) (env : List Strike) (H_s : Ok I s) :
    Ok I (State.doDma s t op env) := by
  unfold State.doDma; try dsimp only
  repeat' first
      | with_reducible assumption | with_reducible apply State.modTile_keep | with_reducible apply State.pathErrors_keep
      | with_reducible apply State.runDma_keep | with_reducible apply State.strike_keep | with_reducible apply ok_ite | split

theorem execDma_keep (I : Keep) (t : Nat) (op : DmaOp) (env : List Strike) (s : State) (H_s : Ok I s) :
    OkR I (execDma t op env s) := by
  unfold execDma; try dsimp only
  repeat' first
      | with_reducible assumption | with_reducible apply State.doDma_keep | with_reducible apply State.issue_keep
      | with_reducible apply impossible_keep | with_reducible apply require_keep | split

theorem State.endDma_keep (I : Keep) (s : State) (t : Nat) (id : Nat) (H_s : Ok I s) :
    Ok I (State.endDma s t id) := by
  unfold State.endDma; try dsimp only
  repeat' first | with_reducible assumption | with_reducible apply State.modTile_keep

theorem State.doFill_keep (I : Keep) (s : State) (t : Nat) (row : Nat) (count : Nat) (c : Dword) (H_s : Ok I s) :
    Ok I (State.doFill s t row count c) := by
  unfold State.doFill; try dsimp only
  repeat' first | with_reducible assumption | with_reducible apply State.writeRows_keep

theorem execFill_keep (I : Keep) (t : Nat) (row : Nat) (count : Nat) (c : Dword) (s : State) (H_s : Ok I s) :
    OkR I (execFill t row count c s) := by
  unfold execFill; try dsimp only
  repeat' first
      | with_reducible assumption | with_reducible apply State.doFill_keep | with_reducible apply State.issue_keep | with_reducible apply require_keep

theorem State.copyRows_keep (I : Keep) (s : State) (p : Nat) (t : Nat) (src : Nat) (dst : Nat) (y0 : List Nat) (H_s : Ok I s) :
    Ok I (State.copyRows s p t src dst y0) := by
  induction y0 generalizing s p t src dst with
  | nil =>
    unfold State.copyRows; try dsimp only
    repeat' first | with_reducible assumption
  | cons x xs ih =>
    unfold State.copyRows; try dsimp only
    repeat' first
        | with_reducible assumption | with_reducible apply ih | with_reducible apply State.engineRows_keep | with_reducible apply State.writeRow_keep
        | split

theorem State.doCopy_keep (I : Keep) (s : State) (t : Nat) (src : Nat) (dst : Nat) (count : Nat) (env : List Strike) (H_s : Ok I s) :
    Ok I (State.doCopy s t src dst count env) := by
  unfold State.doCopy; try dsimp only
  repeat' first
      | with_reducible assumption | with_reducible apply State.copyRows_keep | with_reducible apply State.pathErrors_keep
      | with_reducible apply State.strike_keep | with_reducible apply ok_ite

theorem execCopy_keep (I : Keep) (t : Nat) (src : Nat) (dst : Nat) (count : Nat) (env : List Strike) (s : State) (H_s : Ok I s) :
    OkR I (execCopy t src dst count env s) := by
  unfold execCopy; try dsimp only
  repeat' first
      | with_reducible assumption | with_reducible apply State.doCopy_keep | with_reducible apply State.issue_keep | with_reducible apply require_keep

theorem State.putStores_keep (I : Keep) (s : State) (bay : Nat) (qs : List PodStore) (H_s : Ok I s) :
    Ok I (State.putStores s bay qs) := by
  unfold State.putStores; try dsimp only
  repeat' first | with_reducible assumption | with_reducible apply State.setPods_keep

theorem State.runStore_keep (I : Keep) (s : State) (bay : Nat) (q : PodStore) (H_s : Ok I s) :
    Ok I (State.runStore s bay q) := by
  unfold State.runStore; try dsimp only
  repeat' first
      | with_reducible assumption | with_reducible apply State.endRead_keep | with_reducible apply State.endWrite_keep
      | with_reducible apply State.engineRows_keep | with_reducible apply State.putStores_keep | with_reducible apply ok_ite | split

theorem State.doStore_keep (I : Keep) (s : State) (t : Nat) (row : Nat) (dst : DmaEnd) (tag : DmaEnd) (pod : Nat) (env : List Strike) (H_s : Ok I s) :
    Ok I (State.doStore s t row dst tag pod env) := by
  unfold State.doStore; try dsimp only
  repeat' first
      | with_reducible assumption | with_reducible apply State.pathErrors_keep | with_reducible apply State.putStores_keep
      | with_reducible apply State.runStore_keep | with_reducible apply State.strike_keep | with_reducible apply ok_ite

theorem execCompressOnStore_keep (I : Keep) (t : Nat) (row : Nat) (dst : DmaEnd) (tag : DmaEnd) (pod : Nat) (env : List Strike) (s : State) (H_s : Ok I s) :
    OkR I (execCompressOnStore t row dst tag pod env s) := by
  unfold execCompressOnStore; try dsimp only
  repeat' first
      | with_reducible assumption | with_reducible apply State.doStore_keep | with_reducible apply State.issue_keep
      | with_reducible apply impossible_keep | with_reducible apply require_keep | split

theorem State.countPod_keep (I : Keep) (s : State) (p : Nat) (tag : Word) (H_s : Ok I s) :
    Ok I (State.countPod s p tag) := by
  unfold State.countPod; try dsimp only
  repeat' first | with_reducible assumption | with_reducible apply State.bump_keep | split

theorem State.writeTag_keep (I : Keep) (s : State) (bay : Nat) (pt : Part) (q : PodStore) (H_s : Ok I s) :
    Ok I (State.writeTag s bay pt q) := by
  unfold State.writeTag; try dsimp only
  repeat' first
      | with_reducible assumption | with_reducible apply State.countPod_keep | with_reducible apply State.endWrite_keep
      | with_reducible apply State.putStores_keep | with_reducible apply State.runStore_keep | split

theorem State.planeRead_keep (I : Keep) (s : State) (p : Nat) (t : Nat) (pt : Part) (e : DmaEnd) (H_s : Ok I s) :
    Ok I ((State.planeRead s p t pt e).1) := by
  unfold State.planeRead; try dsimp only
  repeat' first
      | with_reducible assumption | with_reducible apply State.eccFind_keep | with_reducible apply State.shareReadChecked_keep
      | with_reducible apply State.touchShare_keep | split

theorem State.readPlanes_keep (I : Keep) (s : State) (p : Nat) (t : Nat) (pt : Part) (y0 : List (DmaEnd × DmaEnd)) (H_s : Ok I s) :
    Ok I ((State.readPlanes s p t pt y0).1) := by
  induction y0 generalizing s p t pt with
  | nil =>
    unfold State.readPlanes; try dsimp only
    repeat' first | with_reducible assumption
  | cons x xs ih =>
    unfold State.readPlanes; try dsimp only
    repeat' first | with_reducible assumption | with_reducible apply ih | with_reducible apply State.planeRead_keep | split

theorem State.doCommit_keep (I : Keep) (s : State) (p : Nat) (handle : Nat) (slot : Nat) (planes : List (DmaEnd × DmaEnd)) (env : List Strike) (H_s : Ok I s) :
    Ok I (State.doCommit s p handle slot planes env) := by
  unfold State.doCommit; try dsimp only
  repeat' first
      | with_reducible assumption | with_reducible apply State.endWork_keep | with_reducible apply State.modPart_keep
      | with_reducible apply State.modTile_keep | with_reducible apply State.pathErrors_keep | with_reducible apply State.readPlanes_keep
      | with_reducible apply State.strike_keep | with_reducible apply ok_ite | split

theorem execStreamCommit_keep (I : Keep) (p : Nat) (handle : Nat) (slot : Nat) (planes : List (DmaEnd × DmaEnd)) (env : List Strike) (s : State) (H_s : Ok I s) :
    OkR I (execStreamCommit p handle slot planes env s) := by
  unfold execStreamCommit; try dsimp only
  repeat' first
      | with_reducible assumption | with_reducible apply State.doCommit_keep | with_reducible apply State.issue_keep
      | with_reducible apply impossible_keep | with_reducible apply require_keep | split

theorem State.linkTo_keep (I : Keep) (s : State) (dir : Nat) (cls : LClass) (p : Nat) (bs : Bytes) (H_s : Ok I s) :
    Ok I (State.linkTo s dir cls p bs) := by
  unfold State.linkTo; try dsimp only
  repeat' first
      | with_reducible assumption | with_reducible apply State.sendMessage_keep | with_reducible apply State.sendTo_keep | with_reducible apply ok_ite

theorem State.doLinkSend_keep (I : Keep) (s : State) (t : Nat) (cls : LClass) (dir : Nat) (row : Nat) (count : Nat) (width : Nat) (fp32 : Bool) (env : List Strike) (H_s : Ok I s) :
    Ok I (State.doLinkSend s t cls dir row count width fp32 env) := by
  unfold State.doLinkSend; try dsimp only
  repeat' first
      | with_reducible assumption | with_reducible apply State.engineRows_keep | with_reducible apply State.linkTo_keep
      | with_reducible apply State.modPart_keep | with_reducible apply State.pathErrors_keep | with_reducible apply State.strike_keep
      | with_reducible apply ok_ite | split

theorem execLinkSend_keep (I : Keep) (t : Nat) (cls : LClass) (dir : Nat) (row : Nat) (count : Nat) (width : Nat) (fp32 : Bool) (env : List Strike) (s : State) (H_s : Ok I s) :
    OkR I (execLinkSend t cls dir row count width fp32 env s) := by
  unfold execLinkSend; try dsimp only
  repeat' first
      | with_reducible assumption | with_reducible apply State.doLinkSend_keep | with_reducible apply State.issue_keep
      | with_reducible apply require_keep

theorem State.doLinkReceive_keep (I : Keep) (s : State) (t : Nat) (cls : LClass) (dir : Nat) (row : Nat) (count : Nat) (width : Nat) (fp32 : Bool) (H_s : Ok I s) :
    Ok I (State.doLinkReceive s t cls dir row count width fp32) := by
  unfold State.doLinkReceive; try dsimp only
  repeat' first
      | with_reducible assumption | with_reducible apply State.modPart_keep | with_reducible apply State.setVeolo_keep
      | with_reducible apply State.writeRows_keep | split

theorem execLinkReceive_keep (I : Keep) (t : Nat) (cls : LClass) (dir : Nat) (row : Nat) (count : Nat) (width : Nat) (fp32 : Bool) (s : State) (H_s : Ok I s) :
    OkR I (execLinkReceive t cls dir row count width fp32 s) := by
  unfold execLinkReceive; try dsimp only
  repeat' first
      | with_reducible assumption | with_reducible apply State.doLinkReceive_keep | with_reducible apply State.issue_keep
      | with_reducible apply require_keep

theorem execFetch_keep (I : Keep) (p : Nat) (tensor : Nat) (layer : Nat) (env : List Strike) (s : State) (H_s : Ok I s) :
    OkR I (execFetch p tensor layer env s) := by
  unfold execFetch; try dsimp only
  repeat' first
      | with_reducible assumption | with_reducible apply State.bump_keep | with_reducible apply State.endWork_keep
      | with_reducible apply State.modPart_keep | with_reducible apply State.nandFind_keep | with_reducible apply State.pathErrors_keep
      | with_reducible apply State.setStamp_keep | with_reducible apply State.strike_keep | with_reducible apply impossible_keep
      | with_reducible apply require_keep | with_reducible apply okR_next | with_reducible apply okR_ite | split

theorem State.endFetch_keep (I : Keep) (s : State) (p : Nat) (tensor : Nat) (pt : Part) (im : Image) (i : Nat) (H_s : Ok I s) :
    Ok I (State.endFetch s p tensor pt im i) := by
  unfold State.endFetch; try dsimp only
  repeat' first
      | with_reducible assumption | with_reducible apply State.modPart_keep | with_reducible apply State.podFault_keep
      | with_reducible apply State.storeTensor_keep | with_reducible apply State.touchShare_keep | split

theorem execScratchpadScrub_keep (I : Keep) (t : Nat) (env : List Strike) (s : State) (H_s : Ok I s) :
    OkR I (execScratchpadScrub t env s) := by
  unfold execScratchpadScrub; try dsimp only
  repeat' first
      | with_reducible assumption | with_reducible apply State.eccFind_keep | with_reducible apply State.modTile_keep
      | with_reducible apply State.strike_keep | with_reducible apply require_keep | with_reducible apply okR_next | split

theorem execTileZeroFill_keep (I : Keep) (t : Nat) (s : State) (H_s : Ok I s) :
    OkR I (execTileZeroFill t s) := by
  unfold execTileZeroFill; try dsimp only
  repeat' first
      | with_reducible assumption | with_reducible apply State.clearTile_keep | with_reducible apply require_keep | with_reducible apply okR_next

/-! ## Requests -/

theorem State.refuse_keep (I : Keep) (s : State) (c : Ctx) (op : Nat) (st : Status) (H_s : Ok I s) :
    Ok I (State.refuse s c op st) := by
  unfold State.refuse; try dsimp only
  repeat' first
      | with_reducible assumption | with_reducible apply State.bump_keep | with_reducible apply State.reply_keep | with_reducible apply ok_ite

theorem State.serveData_keep (I : Keep) (s : State) (c : Ctx) (op : Nat) (body : State → Part → Res) (H_s : Ok I s) (H_body : ∀ x0 x1, Ok I x0 → OkR I (body x0 x1)) :
    OkR I (State.serveData s c op body) := by
  unfold State.serveData; try dsimp only
  repeat' first
      | with_reducible assumption | with_reducible apply State.answer_keep | with_reducible apply State.serve_keep | apply H_body
      | with_reducible apply okR_ite | intro _ | split

theorem State.promptDone_keep (I : Keep) (s : State) (p : Nat) (h : Nat) (H_s : Ok I s) :
    Ok I (State.promptDone s p h) := by
  unfold State.promptDone; try dsimp only
  repeat' first
      | with_reducible assumption | with_reducible apply State.nowCandidate_keep | with_reducible apply State.setWalks_keep
      | with_reducible apply ok_ite | split

theorem State.revertResume_keep (I : Keep) (s : State) (p : Nat) (h : Nat) (st : Status) (H_s : Ok I s) :
    Ok I (State.revertResume s p h st) := by
  unfold State.revertResume; try dsimp only
  repeat' first | with_reducible assumption | with_reducible apply State.emit_keep | with_reducible apply State.modPart_keep | split

theorem State.endContinuation_keep (I : Keep) (s : State) (p : Nat) (h : Nat) (r : Req) (st : Status) (H_s : Ok I s) :
    Ok I (State.endContinuation s p h r st) := by
  unfold State.endContinuation; try dsimp only
  repeat' first
      | with_reducible assumption | with_reducible apply State.bump_keep | with_reducible apply State.endReqNow_keep
      | with_reducible apply State.revertResume_keep | with_reducible apply ok_ite

theorem State.endEmptyResume_keep (I : Keep) (s : State) (p : Nat) (h : Nat) (r : Req) (o : ReqOpts) (H_s : Ok I s) :
    Ok I (State.endEmptyResume s p h r o) := by
  unfold State.endEmptyResume; try dsimp only
  repeat' first
      | with_reducible assumption | with_reducible apply State.endReqNow_keep | with_reducible apply State.modPart_keep
      | with_reducible apply State.revertResume_keep | with_reducible apply ok_ite

theorem State.promptComplete_keep (I : Keep) (s : State) (p : Nat) (h : Nat) (H_s : Ok I s) :
    Ok I (State.promptComplete s p h) := by
  unfold State.promptComplete; try dsimp only
  repeat' first
      | with_reducible assumption | with_reducible apply State.endEmptyResume_keep | with_reducible apply State.endReqNow_keep
      | with_reducible apply State.modPart_keep | with_reducible apply State.nowCandidate_keep | with_reducible apply State.promptDone_keep
      | with_reducible apply ok_ite | split

theorem execOpenRequest_keep (I : Keep) (c : Ctx) (payload : Bytes) (s : State) (H_s : Ok I s) :
    OkR I (execOpenRequest c payload s) := by
  unfold execOpenRequest; try dsimp only
  repeat' first
      | with_reducible assumption | with_reducible apply State.clearTomb_keep | with_reducible apply State.modPart_keep
      | with_reducible apply State.promptDone_keep | with_reducible apply State.refuse_keep | with_reducible apply State.reply_keep
      | with_reducible apply State.serveData_keep | with_reducible apply okR_next | with_reducible apply ok_ite | intro _ | split

theorem execAppendTokens_keep (I : Keep) (c : Ctx) (payload : Bytes) (s : State) (H_s : Ok I s) :
    OkR I (execAppendTokens c payload s) := by
  unfold execAppendTokens; try dsimp only
  repeat' first
      | with_reducible assumption | with_reducible apply State.answer_keep | with_reducible apply State.endContinuation_keep
      | with_reducible apply State.modPart_keep | with_reducible apply State.promptComplete_keep | with_reducible apply State.serveData_keep
      | with_reducible apply okR_next | with_reducible apply okR_ite | with_reducible apply ok_ite | intro _ | split

theorem execCancelRequest_keep (I : Keep) (c : Ctx) (payload : Bytes) (s : State) (H_s : Ok I s) :
    OkR I (execCancelRequest c payload s) := by
  unfold execCancelRequest; try dsimp only
  repeat' first
      | with_reducible assumption | with_reducible apply State.answerCancels_keep | with_reducible apply State.answer_keep
      | with_reducible apply State.modPart_keep | with_reducible apply State.serveData_keep | with_reducible apply okR_next
      | with_reducible apply okR_ite | intro _ | split

theorem execPauseRequest_keep (I : Keep) (c : Ctx) (payload : Bytes) (s : State) (H_s : Ok I s) :
    OkR I (execPauseRequest c payload s) := by
  unfold execPauseRequest; try dsimp only
  repeat' first
      | with_reducible assumption | with_reducible apply State.modPart_keep | with_reducible apply State.refuse_keep
      | with_reducible apply State.reply_keep | with_reducible apply State.serveData_keep | with_reducible apply okR_next
      | (with_reducible apply ok_foldl; intro _ _ _) | intro _ | split

theorem execResumeRequest_keep (I : Keep) (c : Ctx) (payload : Bytes) (s : State) (H_s : Ok I s) :
    OkR I (execResumeRequest c payload s) := by
  unfold execResumeRequest; try dsimp only
  repeat' first
      | with_reducible assumption | with_reducible apply State.answer_keep | with_reducible apply State.modPart_keep
      | with_reducible apply State.promptComplete_keep | with_reducible apply State.refuse_keep | with_reducible apply State.reply_keep
      | with_reducible apply State.serveData_keep | with_reducible apply State.setStamp_keep | with_reducible apply okR_next
      | with_reducible apply ok_ite | intro _ | split

theorem execPromptTimeout_keep (I : Keep) (p : Nat) (handle : Nat) (s : State) (H_s : Ok I s) :
    OkR I (execPromptTimeout p handle s) := by
  unfold execPromptTimeout; try dsimp only
  repeat' first
      | with_reducible assumption | with_reducible apply State.endContinuation_keep | with_reducible apply impossible_keep
      | with_reducible apply require_keep | with_reducible apply okR_next | split

theorem State.nandPauseWrite_keep (I : Keep) (s : State) (bytes : Nat) (H_s : Ok I s) :
    Ok I (State.nandPauseWrite s bytes) := by
  unfold State.nandPauseWrite; try dsimp only
  repeat' first | with_reducible assumption | with_reducible apply State.freeBlocks_keep | with_reducible apply State.setNand_keep

theorem State.touchSheets_keep (I : Keep) (s : State) (p : Nat) (pt : Part) (es : List PageEntry) (H_s : Ok I s) :
    Ok I (State.touchSheets s p pt es) := by
  unfold State.touchSheets; try dsimp only
  repeat' first | with_reducible assumption | with_reducible apply State.touchShare_keep | (with_reducible apply ok_foldl; intro _ _ _) | split

theorem State.beginPause_keep (I : Keep) (s : State) (p : Nat) (h : Nat) (ttl : Nat) (want : Nat) (by_ : Option Ctx) (pt : Part) (r : Req) (q : Seq) (held : List (PageEntry × Sheet × Bytes)) (tier : Nat) (H_s : Ok I s) :
    Ok I (State.beginPause s p h ttl want by_ pt r q held tier) := by
  unfold State.beginPause; try dsimp only
  repeat' first
      | with_reducible assumption | with_reducible apply State.modPart_keep | with_reducible apply State.nandPauseWrite_keep
      | with_reducible apply State.touchSheets_keep | with_reducible apply ok_ite

theorem State.startPause_keep (I : Keep) (s : State) (p : Nat) (h : Nat) (ttl : Nat) (want : Nat) (by_ : Option Ctx) (H_s : Ok I s) :
    Ok I (State.startPause s p h ttl want by_) := by
  unfold State.startPause; try dsimp only
  repeat' first | with_reducible assumption | with_reducible apply State.beginPause_keep | split

theorem execPauseMoveComplete_keep (I : Keep) (p : Nat) (handle : Nat) (s : State) (H_s : Ok I s) :
    OkR I (execPauseMoveComplete p handle s) := by
  unfold execPauseMoveComplete; try dsimp only
  repeat' first
      | with_reducible assumption | with_reducible apply State.bump_keep | with_reducible apply State.modPart_keep
      | with_reducible apply State.reply_keep | with_reducible apply impossible_keep | with_reducible apply require_keep
      | with_reducible apply okR_next | split

theorem execPauseExpiry_keep (J : KeepAll) (p : Nat) (handle : Nat) (now : Nat) (s : State) (H_s : Ok J.toKeep s) :
    OkR J.toKeep (execPauseExpiry p handle now s) := by
  unfold execPauseExpiry; try dsimp only
  repeat' first
      | with_reducible assumption | with_reducible apply State.buryReq_keep | with_reducible apply impossible_keep | with_reducible apply require_keep
      | with_reducible apply State.at_keep | with_reducible apply okR_next | split

theorem execTombstoneExpiry_keep (I : Keep) (p : Nat) (handle : Nat) (s : State) (H_s : Ok I s) :
    OkR I (execTombstoneExpiry p handle s) := by
  unfold execTombstoneExpiry; try dsimp only
  repeat' first
      | with_reducible assumption | with_reducible apply State.clearTomb_keep | with_reducible apply require_keep | with_reducible apply okR_next

theorem State.fillRestored_keep (I : Keep) (s : State) (p : Nat) (r : Req) (H_s : Ok I s) :
    Ok I (State.fillRestored s p r) := by
  unfold State.fillRestored; try dsimp only
  repeat' first
      | with_reducible assumption | with_reducible apply State.restoreForm_keep | with_reducible apply State.touchSheets_keep
      | (with_reducible apply ok_foldl; intro _ _ _) | split

theorem State.readCache_keep (I : Keep) (s : State) (p : Nat) (pt : Part) (es : List PageEntry) (H_s : Ok I s) :
    Ok I ((State.readCache s p pt es).1) := by
  unfold State.readCache; try dsimp only
  repeat' first | with_reducible assumption | with_reducible apply State.shareReadChecked_keep | (with_reducible apply ok_foldl1; intro _ _ _) | split

theorem State.restoreRead_keep (I : Keep) (s : State) (p : Nat) (pt : Part) (r : Req) (env : List Strike) (H_s : Ok I s) :
    Ok I ((State.restoreRead s p pt r env).1) := by
  unfold State.restoreRead; try dsimp only
  repeat' first
      | with_reducible assumption | with_reducible apply State.nandErrors_keep | with_reducible apply State.readCache_keep
      | with_reducible apply State.strike_keep | split

theorem execRestoreComplete_keep (I : Keep) (p : Nat) (handle : Nat) (env : List Strike) (s : State) (H_s : Ok I s) :
    OkR I (execRestoreComplete p handle env s) := by
  unfold execRestoreComplete; try dsimp only
  repeat' first
      | with_reducible assumption | with_reducible apply State.buryReq_keep | with_reducible apply State.fillRestored_keep
      | with_reducible apply State.modPart_keep | with_reducible apply State.nowCandidate_keep | with_reducible apply State.restoreRead_keep
      | with_reducible apply impossible_keep | with_reducible apply require_keep | with_reducible apply okR_next | with_reducible apply okR_ite
      | with_reducible apply ok_ite | split

theorem State.sessionWorkClosed_keep (I : Keep) (s : State) (n : Nat) (H_s : Ok I s) :
    Ok I (State.sessionWorkClosed s n) := by
  unfold State.sessionWorkClosed; try dsimp only
  repeat' first | with_reducible assumption | with_reducible apply State.mapParts_keep

/-! ## Streams -/

theorem execOpenStream_keep (I : Keep) (c : Ctx) (payload : Bytes) (s : State) (H_s : Ok I s) :
    OkR I (execOpenStream c payload s) := by
  unfold execOpenStream; try dsimp only
  repeat' first
      | with_reducible assumption | with_reducible apply State.clearTomb_keep | with_reducible apply State.modPart_keep
      | with_reducible apply State.refuse_keep | with_reducible apply State.reply_keep | with_reducible apply State.serveData_keep
      | with_reducible apply okR_next | intro _ | split

theorem execStreamChunk_keep (I : Keep) (c : Ctx) (payload : Bytes) (s : State) (H_s : Ok I s) :
    OkR I (execStreamChunk c payload s) := by
  unfold execStreamChunk; try dsimp only
  repeat' first
      | with_reducible assumption | with_reducible apply State.answer_keep | with_reducible apply State.bump_keep
      | with_reducible apply State.modPart_keep | with_reducible apply State.refuse_keep | with_reducible apply State.reply_keep
      | with_reducible apply State.serveData_keep | with_reducible apply State.setStamp_keep | with_reducible apply okR_next
      | with_reducible apply okR_ite | with_reducible apply ok_ite | intro _ | split

theorem execParkStream_keep (I : Keep) (c : Ctx) (payload : Bytes) (s : State) (H_s : Ok I s) :
    OkR I (execParkStream c payload s) := by
  unfold execParkStream; try dsimp only
  repeat' first
      | with_reducible assumption | with_reducible apply State.answer_keep | with_reducible apply State.modPart_keep
      | with_reducible apply State.reply_keep | with_reducible apply State.serveData_keep | with_reducible apply okR_next
      | (with_reducible apply ok_foldl; intro _ _ _) | with_reducible apply okR_ite | intro _ | split

theorem execCloseStream_keep (I : Keep) (c : Ctx) (payload : Bytes) (s : State) (H_s : Ok I s) :
    OkR I (execCloseStream c payload s) := by
  unfold execCloseStream; try dsimp only
  repeat' first
      | with_reducible assumption | with_reducible apply State.answer_keep | with_reducible apply State.modPart_keep
      | with_reducible apply State.reply_keep | with_reducible apply State.serveData_keep | with_reducible apply okR_next
      | (with_reducible apply ok_foldl; intro _ _ _) | with_reducible apply okR_ite | intro _ | split

/-! ## ModelWork -/

theorem State.layShards_keep (I : Keep) (s : State) (p : Nat) (shs : List Bytes) (H_s : Ok I s) :
    Ok I (State.layShards s p shs) := by
  unfold State.layShards; try dsimp only
  repeat' first
      | with_reducible assumption | with_reducible apply State.clearNandExtent_keep | with_reducible apply State.modPart_keep
      | with_reducible apply State.nandWrite_keep | (with_reducible apply ok_foldl; intro _ _ _) | (with_reducible apply ok_foldl1; intro _ _ _)
      | with_reducible apply okO_getD | split

theorem State.endReqsIf_keep (I : Keep) (s : State) (p : Nat) (f : Req → Bool) (st : Status) (H_s : Ok I s) :
    Ok I ((State.endReqsIf s p f st).1) := by
  unfold State.endReqsIf; try dsimp only
  repeat' first | with_reducible assumption | with_reducible apply State.endReq_keep | (with_reducible apply ok_foldl1; intro _ _ _) | split

theorem State.buryPaused_keep (I : Keep) (s : State) (p : Nat) (st : Status) (H_s : Ok I s) :
    Ok I (State.buryPaused s p st) := by
  unfold State.buryPaused; try dsimp only
  repeat' first | with_reducible assumption | with_reducible apply State.buryReq_keep | (with_reducible apply ok_foldl; intro _ _ _) | split

theorem State.endInsetsIf_keep (I : Keep) (s : State) (p : Nat) (f : Inset → Bool) (st : Status) (H_s : Ok I s) :
    Ok I (State.endInsetsIf s p f st) := by
  unfold State.endInsetsIf; try dsimp only
  repeat' first | with_reducible assumption | with_reducible apply State.endInset_keep | (with_reducible apply ok_foldl; intro _ _ _) | split

theorem State.endStreams_keep (I : Keep) (s : State) (p : Nat) (st : Status) (H_s : Ok I s) :
    Ok I (State.endStreams s p st) := by
  unfold State.endStreams; try dsimp only
  repeat' first | with_reducible assumption | with_reducible apply State.endStream_keep | (with_reducible apply ok_foldl; intro _ _ _) | split

theorem State.endEverything_keep (I : Keep) (s : State) (p : Nat) (H_s : Ok I s) :
    Ok I ((State.endEverything s p).1) := by
  unfold State.endEverything; try dsimp only
  repeat' first
      | with_reducible assumption | with_reducible apply State.endInsetsIf_keep | with_reducible apply State.endReqsIf_keep
      | with_reducible apply State.endStreams_keep

theorem State.settleTargeted_keep (I : Keep) (s : State) (p : Nat) (t : Targeted) (st : Status) (H_s : Ok I s) :
    Ok I (State.settleTargeted s p t st) := by
  unfold State.settleTargeted; try dsimp only
  repeat' first | with_reducible assumption | with_reducible apply State.settleModel_keep | split

theorem State.startModel_keep (I : Keep) (s : State) (p : Nat) (im : Image) (c : Ctx) (H_s : Ok I s) :
    Ok I (State.startModel s p im c) := by
  unfold State.startModel; try dsimp only
  repeat' first
      | with_reducible assumption | with_reducible apply State.modPart_keep | with_reducible apply State.raiseEdition_keep
      | with_reducible apply State.settleModel_keep

theorem State.cancelWork_keep (I : Keep) (s : State) (p : Nat) (H_s : Ok I s) :
    Ok I ((State.cancelWork s p).1) := by
  unfold State.cancelWork; try dsimp only
  repeat' first
      | with_reducible assumption | with_reducible apply State.endInsetsIf_keep | with_reducible apply State.endReqsIf_keep
      | with_reducible apply State.endStreams_keep

theorem State.finishStop_keep (I : Keep) (s : State) (p : Nat) (c : Ctx) (H_s : Ok I s) :
    Ok I (State.finishStop s p c) := by
  unfold State.finishStop; try dsimp only
  repeat' first | with_reducible assumption | with_reducible apply State.modPart_keep | with_reducible apply State.settleModel_keep

theorem State.stopModel_keep (I : Keep) (s : State) (p : Nat) (c : Ctx) (now_ : Bool) (seconds : Nat) (H_s : Ok I s) :
    Ok I ((State.stopModel s p c now_ seconds).1) := by
  unfold State.stopModel; try dsimp only
  repeat' first
      | with_reducible assumption | with_reducible apply State.buryPaused_keep | with_reducible apply State.cancelWork_keep
      | with_reducible apply State.endInsetsIf_keep | with_reducible apply State.endReqsIf_keep | with_reducible apply State.finishStop_keep
      | with_reducible apply State.modPart_keep | split

theorem State.drainDeadline_keep (I : Keep) (s : State) (p : Nat) (H_s : Ok I s) :
    Ok I ((State.drainDeadline s p).1) := by
  unfold State.drainDeadline; try dsimp only
  repeat' first | with_reducible assumption | with_reducible apply State.cancelWork_keep | with_reducible apply State.finishStop_keep | split

theorem State.startSwap_keep (I : Keep) (s : State) (p : Nat) (c : Ctx) (target : Nat) (H_s : Ok I s) :
    Ok I (State.startSwap s p c target) := by
  unfold State.startSwap; try dsimp only
  repeat' first | with_reducible assumption | with_reducible apply State.modPart_keep

theorem State.applyTargeted_keep (I : Keep) (s : State) (p : Nat) (count : Nat) (im : Image) (confirmed : Option (List Nat)) (H_s : Ok I s) :
    Ok I ((State.applyTargeted s p count im confirmed).1) := by
  unfold State.applyTargeted; try dsimp only
  repeat' first
      | with_reducible assumption | with_reducible apply State.modPart_keep | with_reducible apply State.settleTargeted_keep
      | with_reducible apply State.startModel_keep | with_reducible apply State.startSwap_keep | with_reducible apply State.stopModel_keep
      | (with_reducible apply ok_foldl1; intro _ _ _) | split

theorem State.readLayer_keep (I : Keep) (s : State) (p : Nat) (pt : Part) (im : Image) (next : Image) (w : Swap) (H_s : Ok I s) :
    Ok I (State.readLayer s p pt im next w) := by
  unfold State.readLayer; try dsimp only
  repeat' first
      | with_reducible assumption | with_reducible apply State.modPart_keep | with_reducible apply State.storeTensor_keep
      | (with_reducible apply ok_foldl; intro _ _ _) | split

theorem State.replaceLayer_keep (I : Keep) (s : State) (p : Nat) (pt : Part) (im : Image) (next : Image) (w : Swap) (H_s : Ok I s) :
    Ok I (State.replaceLayer s p pt im next w) := by
  unfold State.replaceLayer; try dsimp only
  repeat' first
      | with_reducible assumption | with_reducible apply State.modPart_keep | with_reducible apply State.raiseEdition_keep
      | with_reducible apply State.storeTensor_keep | (with_reducible apply ok_foldl; intro _ _ _)

theorem State.finishSwap_keep (I : Keep) (s : State) (p : Nat) (next : Image) (w : Swap) (H_s : Ok I s) :
    Ok I (State.finishSwap s p next w) := by
  unfold State.finishSwap; try dsimp only
  repeat' first
      | with_reducible assumption | with_reducible apply State.layShards_keep | with_reducible apply State.modPart_keep
      | with_reducible apply State.settleModel_keep | split

theorem State.askRecompute_keep (I : Keep) (s : State) (p : Nat) (w : Swap) (H_s : Ok I s) :
    Ok I (State.askRecompute s p w) := by
  unfold State.askRecompute; try dsimp only
  repeat' first | with_reducible assumption | with_reducible apply State.modPart_keep | with_reducible apply State.setStamp_keep | split

theorem State.swapItem_keep (I : Keep) (s : State) (p : Nat) (im : Image) (H_s : Ok I s) :
    Ok I (State.swapItem s p im) := by
  unfold State.swapItem; try dsimp only
  repeat' first
      | with_reducible assumption | with_reducible apply State.askRecompute_keep | with_reducible apply State.finishSwap_keep
      | with_reducible apply State.fresh_keep | with_reducible apply State.replaceLayer_keep | with_reducible apply ok_ite | split

theorem State.loadTensors_keep (I : Keep) (s : State) (pt : Part) (im : Image) (H_s : Ok I s) :
    Ok I (State.loadTensors s pt im) := by
  unfold State.loadTensors; try dsimp only
  repeat' first | with_reducible assumption | with_reducible apply State.storeTensor_keep | (with_reducible apply ok_foldl; intro _ _ _)

theorem State.finishInset_keep (I : Keep) (s : State) (p : Nat) (h : Nat) (q : Seq) (H_s : Ok I s) :
    Ok I (State.finishInset s p h q) := by
  unfold State.finishInset; try dsimp only
  repeat' first
      | with_reducible assumption | with_reducible apply State.modPart_keep | with_reducible apply State.settleModel_keep
      | with_reducible apply ok_ite | split

theorem State.removeInsets_keep (I : Keep) (s : State) (p : Nat) (H_s : Ok I s) :
    Ok I (State.removeInsets s p) := by
  unfold State.removeInsets; try dsimp only
  repeat' first
      | with_reducible assumption | with_reducible apply State.modPart_keep | with_reducible apply State.settleModel_keep
      | (with_reducible apply ok_foldl; intro _ _ _) | split

/-! ## Items -/

theorem State.parkStream_keep (I : Keep) (s : State) (p : Nat) (h : Nat) (done : Bool) (H_s : Ok I s) :
    Ok I (State.parkStream s p h done) := by
  unfold State.parkStream; try dsimp only
  repeat' first
      | with_reducible assumption | with_reducible apply State.bump_keep | with_reducible apply State.loseStream_keep
      | with_reducible apply State.modPart_keep | with_reducible apply State.releaseTiles_keep | with_reducible apply State.shareStore_keep
      | with_reducible apply State.touchShare_keep | (with_reducible apply ok_foldl; intro _ _ _) | with_reducible apply ok_ite | split

theorem State.parkItem_keep (I : Keep) (s : State) (p : Nat) (done : Bool) (H_s : Ok I s) :
    Ok I (State.parkItem s p done) := by
  unfold State.parkItem; try dsimp only
  repeat' first
      | with_reducible assumption | with_reducible apply State.modPart_keep | with_reducible apply State.parkStream_keep
      | with_reducible apply State.reply_keep | (with_reducible apply ok_foldl; intro _ _ _) | split

theorem State.closeItem_keep (I : Keep) (s : State) (p : Nat) (H_s : Ok I s) :
    Ok I (State.closeItem s p) := by
  unfold State.closeItem; try dsimp only
  repeat' first | with_reducible assumption | with_reducible apply State.endStream_keep | (with_reducible apply ok_foldl; intro _ _ _) | split

theorem State.tileLeaves_keep (I : Keep) (s : State) (t : Nat) (H_s : Ok I s) :
    Ok I (State.tileLeaves s t) := by
  unfold State.tileLeaves; try dsimp only
  repeat' first | with_reducible assumption | with_reducible apply State.clearTile_keep | with_reducible apply State.putTile_keep

theorem State.tileJoins_keep (I : Keep) (s : State) (pt : Part) (t : Nat) (H_s : Ok I s) :
    Ok I (State.tileJoins s pt t) := by
  unfold State.tileJoins; try dsimp only
  repeat' first | with_reducible assumption | with_reducible apply State.modTile_keep | split

theorem State.evictTo_keep (I : Keep) (s : State) (p : Nat) (quota : Nat) (y0 : Nat) (H_s : Ok I s) :
    Ok I (State.evictTo s p quota y0) := by
  induction y0 generalizing s p quota with
  | zero =>
    unfold State.evictTo; try dsimp only
    repeat' first | with_reducible assumption
  | succ n ih =>
    unfold State.evictTo; try dsimp only
    repeat' first
        | with_reducible assumption | with_reducible apply ih | with_reducible apply State.evictNode_keep | with_reducible apply ok_ite | split
        | (with_reducible apply okO_get; assumption)

theorem State.resizeQuads_keep (I : Keep) (s : State) (p : Nat) (pt : Part) (quads : List Nat) (H_s : Ok I s) :
    Ok I (State.resizeQuads s p pt quads) := by
  unfold State.resizeQuads; try dsimp only
  repeat' first
      | with_reducible assumption | with_reducible apply State.modPart_keep | with_reducible apply State.tileJoins_keep
      | with_reducible apply State.tileLeaves_keep | (with_reducible apply ok_foldl; intro _ _ _)

theorem State.resizeShares_keep (I : Keep) (s : State) (p : Nat) (pt : Part) (dram : List Nat) (nand : List Nat) (H_s : Ok I s) :
    Ok I (State.resizeShares s p pt dram nand) := by
  unfold State.resizeShares; try dsimp only
  repeat' first
      | with_reducible assumption | with_reducible apply State.clearExtent_keep | with_reducible apply State.clearNandExtent_keep
      | with_reducible apply State.modPart_keep | (with_reducible apply ok_foldl; intro _ _ _)

theorem State.resizeItem_keep (I : Keep) (s : State) (p : Nat) (H_s : Ok I s) :
    Ok I (State.resizeItem s p) := by
  unfold State.resizeItem; try dsimp only
  repeat' first
      | with_reducible assumption | with_reducible apply State.evictTo_keep | with_reducible apply State.modPart_keep
      | with_reducible apply State.putField_keep | with_reducible apply State.resizeQuads_keep | with_reducible apply State.resizeShares_keep
      | with_reducible apply State.settle_keep | with_reducible apply ok_ite | split

theorem State.surveyItem_keep (I : Keep) (s : State) (p : Nat) (H_s : Ok I s) :
    Ok I (State.surveyItem s p) := by
  unfold State.surveyItem; try dsimp only
  repeat' first
      | with_reducible assumption | with_reducible apply State.modPart_keep | with_reducible apply State.modTile_keep
      | with_reducible apply State.setSurvey_keep | with_reducible apply State.tileLeaves_keep | (with_reducible apply ok_foldl; intro _ _ _) | split

theorem State.releaseLoan_keep (I : Keep) (s : State) (p : Nat) (l : Loan) (H_s : Ok I s) :
    Ok I (State.releaseLoan s p l) := by
  unfold State.releaseLoan; try dsimp only
  repeat' first
      | with_reducible assumption | with_reducible apply State.dropLoan_keep | with_reducible apply State.endReturn_keep
      | with_reducible apply State.modPart_keep | with_reducible apply State.sendMessage_keep | with_reducible apply ok_ite

theorem State.loanItem_keep (I : Keep) (s : State) (p : Nat) (H_s : Ok I s) :
    Ok I (State.loanItem s p) := by
  unfold State.loanItem; try dsimp only
  repeat' first
      | with_reducible assumption | with_reducible apply State.modPart_keep | with_reducible apply State.pushGo_keep
      | with_reducible apply State.releaseLoan_keep | (with_reducible apply ok_foldl; intro _ _ _) | split

theorem State.gratItem_keep (I : Keep) (s : State) (p : Nat) (kind : Nat) (H_s : Ok I s) :
    Ok I (State.gratItem s p kind) := by
  unfold State.gratItem; try dsimp only
  repeat' first | with_reducible assumption | with_reducible apply State.modPart_keep | with_reducible apply State.putReg_keep | split

theorem State.scaleItem_keep (I : Keep) (s : State) (p : Nat) (im : Image) (H_s : Ok I s) :
    Ok I (State.scaleItem s p im) := by
  unfold State.scaleItem; try dsimp only
  repeat' first
      | with_reducible assumption | with_reducible apply State.modPart_keep | with_reducible apply State.putReg_keep | with_reducible apply ok_ite
      | split

theorem State.gzOffItem_keep (I : Keep) (s : State) (p : Nat) (H_s : Ok I s) :
    Ok I (State.gzOffItem s p) := by
  unfold State.gzOffItem; try dsimp only
  repeat' first
      | with_reducible assumption | with_reducible apply State.modPart_keep | with_reducible apply State.raiseEdition_keep
      | with_reducible apply ok_ite

theorem State.editionItem_keep (I : Keep) (s : State) (p : Nat) (H_s : Ok I s) :
    Ok I (State.editionItem s p) := by
  unfold State.editionItem; try dsimp only
  repeat' first
      | with_reducible assumption | with_reducible apply State.modPart_keep | with_reducible apply State.raiseEdition_keep
      | with_reducible apply ok_ite

theorem State.discardFirmware_keep (I : Keep) (s : State) (p : Nat) (H_s : Ok I s) :
    Ok I (State.discardFirmware s p) := by
  unfold State.discardFirmware; try dsimp only
  repeat' first
      | with_reducible assumption | with_reducible apply State.endInsetsIf_keep | with_reducible apply State.modPart_keep
      | with_reducible apply State.settleModel_keep | with_reducible apply State.settleTargeted_keep | with_reducible apply State.settle_keep
      | (with_reducible apply ok_foldl; intro _ _ _) | split

/-! ## Close -/

theorem State.podPage_keep (I : Keep) (s : State) (p : Nat) (pt : Part) (im : Image) (n : Nat) (l : Nat) (H_s : Ok I s) :
    Ok I (State.podPage s p pt im n l) := by
  unfold State.podPage; try dsimp only
  repeat' first
      | with_reducible assumption | with_reducible apply State.countPod_keep | with_reducible apply State.shareStore_keep
      | (with_reducible apply ok_foldl; intro _ _ _)

theorem State.closePages_keep (I : Keep) (s : State) (p : Nat) (H_s : Ok I s) :
    Ok I (State.closePages s p) := by
  unfold State.closePages; try dsimp only
  repeat' first
      | with_reducible assumption | with_reducible apply State.modPart_keep | with_reducible apply State.podPage_keep
      | (with_reducible apply ok_foldl; intro _ _ _) | with_reducible apply ok_ite | split

theorem State.insertNodes_keep (I : Keep) (s : State) (p : Nat) (closed : List Nat) (H_s : Ok I s) :
    Ok I (State.insertNodes s p closed) := by
  unfold State.insertNodes; try dsimp only
  repeat' first
      | with_reducible assumption | with_reducible apply State.insertNode_keep | (with_reducible apply ok_foldl; intro _ _ _)
      | with_reducible apply ok_ite | split

theorem State.finishReq_keep (I : Keep) (s : State) (p : Nat) (h : Nat) (pt : Part) (r : Req) (toks : List Nat) (pos : Nat) (H_s : Ok I s) :
    Ok I ((State.finishReq s p h pt r toks pos).1) := by
  unfold State.finishReq; try dsimp only
  repeat' first
      | with_reducible assumption | with_reducible apply State.endReq_keep | with_reducible apply State.modPart_keep
      | with_reducible apply State.startPause_keep | split

theorem State.oneToken_keep (I : Keep) (s : State) (p : Nat) (h : Nat) (pt : Part) (r : Req) (q : Seq) (t : Nat) (H_s : Ok I s) :
    Ok I ((State.oneToken s p h pt r q t).1) := by
  unfold State.oneToken; try dsimp only
  repeat' first | with_reducible assumption | with_reducible apply State.finishReq_keep | with_reducible apply State.modPart_keep | split

theorem State.beamTokens_keep (I : Keep) (s : State) (p : Nat) (h : Nat) (pt : Part) (r : Req) (qs : List Seq) (H_s : Ok I s) :
    Ok I ((State.beamTokens s p h pt r qs).1) := by
  unfold State.beamTokens; try dsimp only
  repeat' first | with_reducible assumption | with_reducible apply State.finishReq_keep | with_reducible apply State.modPart_keep | split

theorem State.closeReq_keep (I : Keep) (s : State) (p : Nat) (h : Nat) (H_s : Ok I s) :
    Ok I ((State.closeReq s p h).1) := by
  unfold State.closeReq; try dsimp only
  repeat' first
      | with_reducible assumption | with_reducible apply State.beamTokens_keep | with_reducible apply State.endReq_keep
      | with_reducible apply State.oneToken_keep | split

theorem State.cancelItem_keep (I : Keep) (s : State) (p : Nat) (H_s : Ok I s) :
    Ok I ((State.cancelItem s p).1) := by
  unfold State.cancelItem; try dsimp only
  repeat' first
      | with_reducible assumption | with_reducible apply State.endReq_keep | with_reducible apply State.modPart_keep
      | (with_reducible apply ok_foldl1; intro _ _ _) | split

theorem State.pauseItem_keep (I : Keep) (s : State) (p : Nat) (H_s : Ok I s) :
    Ok I (State.pauseItem s p) := by
  unfold State.pauseItem; try dsimp only
  repeat' first
      | with_reducible assumption | with_reducible apply State.bump_keep | with_reducible apply State.modPart_keep
      | with_reducible apply State.reply_keep | with_reducible apply State.startPause_keep | (with_reducible apply ok_foldl; intro _ _ _)
      | with_reducible apply ok_ite | split

theorem State.closeChunk_keep (I : Keep) (s : State) (p : Nat) (h : Nat) (im : Image) (H_s : Ok I s) :
    Ok I (State.closeChunk s p h im) := by
  unfold State.closeChunk; try dsimp only
  repeat' first
      | with_reducible assumption | with_reducible apply State.endStream_keep | with_reducible apply State.modPart_keep
      | with_reducible apply State.sendOutput_keep | with_reducible apply ok_ite | split

theorem State.addCounts_keep (I : Keep) (s : State) (p : Nat) (v : StepSt) (H_s : Ok I s) :
    Ok I (State.addCounts s p v) := by
  unfold State.addCounts; try dsimp only
  repeat' first
      | with_reducible assumption | with_reducible apply State.bump_keep | with_reducible apply State.modPart_keep
      | with_reducible apply State.putReg_keep

theorem State.abandonStep_keep (I : Keep) (s : State) (p : Nat) (st : Status) (H_s : Ok I s) :
    Ok I ((State.abandonStep s p st).1) := by
  unfold State.abandonStep; try dsimp only
  repeat' first
      | with_reducible assumption | with_reducible apply State.endInset_keep | with_reducible apply State.endReq_keep
      | with_reducible apply State.endStream_keep | (with_reducible apply ok_foldl; intro _ _ _) | (with_reducible apply ok_foldl1; intro _ _ _)
      | split

theorem State.closeInsets_keep (I : Keep) (s : State) (p : Nat) (H_s : Ok I s) :
    Ok I (State.closeInsets s p) := by
  unfold State.closeInsets; try dsimp only
  repeat' first | with_reducible assumption | with_reducible apply State.finishInset_keep | (with_reducible apply ok_foldl; intro _ _ _) | split

theorem State.completeStep_keep (I : Keep) (s : State) (p : Nat) (im : Image) (v : StepSt) (H_s : Ok I s) :
    Ok I ((State.completeStep s p im v).1) := by
  unfold State.completeStep; try dsimp only
  repeat' first
      | with_reducible assumption | with_reducible apply State.addCounts_keep | with_reducible apply State.closeChunk_keep
      | with_reducible apply State.closeInsets_keep | with_reducible apply State.closePages_keep | with_reducible apply State.closeReq_keep
      | with_reducible apply State.insertNodes_keep | with_reducible apply State.modPart_keep | (with_reducible apply ok_foldl; intro _ _ _)
      | (with_reducible apply ok_foldl1; intro _ _ _) | with_reducible apply ok_ite | split

theorem State.closeStep_keep (I : Keep) (s : State) (p : Nat) (im : Image) (H_s : Ok I s) :
    Ok I ((State.closeStep s p im).1) := by
  unfold State.closeStep; try dsimp only
  repeat' first
      | with_reducible assumption | with_reducible apply State.abandonStep_keep | with_reducible apply State.completeStep_keep
      | with_reducible apply State.modPart_keep | with_reducible apply State.putReg_keep | split

theorem State.firstItem_keep (I : Keep) (s : State) (p : Nat) (done : Bool) (H_s : Ok I s) :
    Ok I ((State.firstItem s p done).1) := by
  unfold State.firstItem; try dsimp only
  repeat' first
      | with_reducible assumption | with_reducible apply State.cancelItem_keep | with_reducible apply State.closeItem_keep
      | with_reducible apply State.parkItem_keep | with_reducible apply State.pauseItem_keep

/-! ## Compose -/

theorem State.takeChunks_keep (I : Keep) (s : State) (p : Nat) (im : Image) (H_s : Ok I s) :
    Ok I (State.takeChunks s p im) := by
  unfold State.takeChunks; try dsimp only
  repeat' first | with_reducible assumption | with_reducible apply State.modPart_keep | split

theorem State.openStep_keep (I : Keep) (s : State) (p : Nat) (im : Image) (count : Nat) (kind : Nat) (block : List Word) (binds : Nat) (H_s : Ok I s) :
    Ok I (State.openStep s p im count kind block binds) := by
  unfold State.openStep; try dsimp only
  repeat' first | with_reducible assumption | with_reducible apply State.gratItem_keep | with_reducible apply State.modPart_keep

theorem State.sendDecisions_keep (I : Keep) (s : State) (p : Nat) (count : Nat) (block : List Word) (ds : List Decision) (H_s : Ok I s) :
    Ok I (State.sendDecisions s p count block ds) := by
  unfold State.sendDecisions; try dsimp only
  repeat' first | with_reducible assumption | with_reducible apply State.sendMessage_keep

theorem State.takeEntry_keep (I : Keep) (s : State) (p : Nat) (h : Nat) (beam : Nat) (n : Nat) (pos : Nat) (fill : Nat) (inset : Bool) (H_s : Ok I s) :
    Ok I (State.takeEntry s p h beam n pos fill inset) := by
  unfold State.takeEntry; try dsimp only
  repeat' first
      | with_reducible assumption | with_reducible apply State.openPages_keep | with_reducible apply State.putPart_keep | with_reducible apply ok_ite
      | split

theorem State.copyEntry_keep (I : Keep) (s : State) (p : Nat) (h : Nat) (beam : Nat) (src : Nat) (dst : Nat) (pos : Nat) (fill : Nat) (H_s : Ok I s) :
    Ok I (State.copyEntry s p h beam src dst pos fill) := by
  unfold State.copyEntry; try dsimp only
  repeat' first
      | with_reducible assumption | with_reducible apply State.bump_keep | with_reducible apply State.copyPages_keep
      | with_reducible apply State.openPages_keep | with_reducible apply State.putPart_keep | split

theorem State.runSeq_keep (I : Keep) (s : State) (p : Nat) (h : Nat) (beam : Nat) (index : Nat) (pos : Nat) (toks : List Nat) (mask : Option (Nat × Nat × Nat)) (H_s : Ok I s) :
    Ok I (State.runSeq s p h beam index pos toks mask) := by
  unfold State.runSeq; try dsimp only
  repeat' first | with_reducible assumption | with_reducible apply State.modPart_keep

theorem State.openRemote_keep (I : Keep) (s : State) (p : Nat) (h : Nat) (H_s : Ok I s) :
    Ok I (State.openRemote s p h) := by
  unfold State.openRemote; try dsimp only
  repeat' first | with_reducible assumption | with_reducible apply State.modPart_keep | with_reducible apply State.zeroPages_keep | split

theorem State.bindRemote_keep (I : Keep) (s : State) (p : Nat) (h : Nat) (number : Nat) (im : Image) (H_s : Ok I s) :
    Ok I (State.bindRemote s p h number im) := by
  unfold State.bindRemote; try dsimp only
  repeat' first
      | with_reducible assumption | with_reducible apply State.bindStream_keep | with_reducible apply State.openRemote_keep
      | with_reducible apply ok_ite | split

theorem State.chunkRemote_keep (I : Keep) (s : State) (p : Nat) (h : Nat) (im : Image) (k : Chunk) (H_s : Ok I s) :
    Ok I (State.chunkRemote s p h im k) := by
  unfold State.chunkRemote; try dsimp only
  repeat' first
      | with_reducible assumption | with_reducible apply State.bindRemote_keep | with_reducible apply State.modPart_keep
      | with_reducible apply State.openRemote_keep | with_reducible apply ok_ite | split

theorem State.pauseRemote_keep (I : Keep) (s : State) (p : Nat) (h : Nat) (tier : Nat) (H_s : Ok I s) :
    Ok I (State.pauseRemote s p h tier) := by
  unfold State.pauseRemote; try dsimp only
  repeat' first | with_reducible assumption | with_reducible apply State.beginPause_keep | split

theorem State.insetRemote_keep (I : Keep) (s : State) (p : Nat) (h : Nat) (H_s : Ok I s) :
    Ok I (State.insetRemote s p h) := by
  unfold State.insetRemote; try dsimp only
  repeat' first | with_reducible assumption | with_reducible apply State.finishInset_keep | with_reducible apply State.modPart_keep | split

theorem State.applyDecision_keep (I : Keep) (s : State) (p : Nat) (im : Image) (y0 : Decision) (H_s : Ok I s) :
    Ok I (State.applyDecision s p im y0) := by
  unfold State.applyDecision; try dsimp only
  repeat' first
      | with_reducible assumption | with_reducible apply State.bindRemote_keep | with_reducible apply State.chunkRemote_keep
      | with_reducible apply State.copyEntry_keep | with_reducible apply State.dropReq_keep | with_reducible apply State.endStream_keep
      | with_reducible apply State.insetRemote_keep | with_reducible apply State.modPart_keep | with_reducible apply State.parkStream_keep
      | with_reducible apply State.pauseRemote_keep | with_reducible apply State.runSeq_keep | with_reducible apply State.takeEntry_keep | split

theorem State.followStep_keep (I : Keep) (s : State) (p : Nat) (im : Image) (count : Nat) (H_s : Ok I s) :
    Ok I (State.followStep s p im count) := by
  unfold State.followStep; try dsimp only
  repeat' first
      | with_reducible assumption | with_reducible apply State.applyDecision_keep | with_reducible apply State.modPart_keep
      | with_reducible apply State.openStep_keep | (with_reducible apply ok_foldl; intro _ _ _) | split

theorem State.leadStep_keep (I : Keep) (s : State) (p : Nat) (im : Image) (count : Nat) (old : Part) (H_s : Ok I s) :
    Ok I (State.leadStep s p im count old) := by
  unfold State.leadStep; try dsimp only
  repeat' first
      | with_reducible assumption | with_reducible apply State.modPart_keep | with_reducible apply State.openStep_keep
      | with_reducible apply State.sendDecisions_keep | with_reducible apply State.takeChunks_keep | with_reducible apply ok_ite | split

/-! ## Lanes -/

theorem State.putCrew_keep (I : Keep) (s : State) (t : Nat) (crew : Nat) (k : Crew) (H_s : Ok I s) :
    Ok I (State.putCrew s t crew k) := by
  unfold State.putCrew; try dsimp only
  repeat' first | with_reducible assumption | with_reducible apply State.modTile_keep

theorem execLaneInstruction_keep (I : Keep) (t : Nat) (crew : Nat) (op : LaneOp) (s : State) (H_s : Ok I s) :
    OkR I (execLaneInstruction t crew op s) := by
  unfold execLaneInstruction; try dsimp only
  repeat' first
      | with_reducible assumption | with_reducible apply State.putCrew_keep | with_reducible apply require_keep | with_reducible apply okR_next

theorem execGatherRead_keep (I : Keep) (t : Nat) (crew : Nat) (width : Nat) (addr : Nat) (d : Nat) (env : List Strike) (s : State) (H_s : Ok I s) :
    OkR I (execGatherRead t crew width addr d env s) := by
  unfold execGatherRead; try dsimp only
  repeat' first
      | with_reducible assumption | with_reducible apply State.failStep_keep | with_reducible apply State.pathErrors_keep
      | with_reducible apply State.putCrew_keep | with_reducible apply State.readRuns_keep | with_reducible apply State.strike_keep
      | with_reducible apply require_keep | with_reducible apply okR_next | with_reducible apply okR_ite

theorem State.mergeRows_keep (I : Keep) (s : State) (p t : Nat) (rows : List Nat) (writes : List (Nat × Bytes)) (hs : Ok I s) :
    Ok I (s.mergeRows p t rows writes).1 := by
  have h1 := State.readRuns_keep I s p t (rows.map (fun r => (r, 1))) hs
  unfold State.mergeRows; dsimp only
  split
  · exact State.failStep_keep _ _ _ _ _ h1
  · dsimp only; apply State.modTile_keep
    apply State.setScratch_keep _ _ _ h1
    intro w
    generalize (s.readRuns p t (rows.map (fun r => (r, 1)))).1.mem.scratch = m at w
    induction writes generalizing m with
    | nil => exact w
    | cons x xs ih => exact ih _ (Mem.wf_writeN _ _ _ _ w)

theorem execGatherWrite_keep (I : Keep) (t : Nat) (crew : Nat) (width : Nat) (addr : Nat) (a : Nat) (s : State) (H_s : Ok I s) :
    OkR I (execGatherWrite t crew width addr a s) := by
  unfold execGatherWrite; try dsimp only
  repeat' first
      | with_reducible assumption | with_reducible apply State.mergeRows_keep | with_reducible apply require_keep | with_reducible apply okR_next

theorem execLaneTableLookup_keep (I : Keep) (t : Nat) (crew : Nat) (width : Nat) (slot : Nat) (idx : Nat) (d : Nat) (s : State) (H_s : Ok I s) :
    OkR I (execLaneTableLookup t crew width slot idx d s) := by
  unfold execLaneTableLookup; try dsimp only
  repeat' first
      | with_reducible assumption | with_reducible apply State.putCrew_keep | with_reducible apply require_keep | with_reducible apply okR_next

theorem State.countSfu_keep (I : Keep) (s : State) (p : Nat) (clamps : Nat) (nans : Nat) (H_s : Ok I s) :
    Ok I (State.countSfu s p clamps nans) := by
  unfold State.countSfu; try dsimp only
  repeat' first | with_reducible assumption | with_reducible apply State.modPart_keep

theorem State.romFail_keep (I : Keep) (s : State) (p : Nat) (H_s : Ok I s) :
    Ok I (State.romFail s p) := by
  unfold State.romFail; try dsimp only
  repeat' first | with_reducible assumption | with_reducible apply State.failStep_keep | with_reducible apply State.modPart_keep

theorem execSfuLane_keep (I : Keep) (t : Nat) (crew : Nat) (fn : Nat) (inFmt : Nat) (out : Nat) (upper : Bool) (rotary : Bool) (d : Nat) (a : Nat) (b : Nat) (env : List Strike) (s : State) (H_s : Ok I s) :
    OkR I (execSfuLane t crew fn inFmt out upper rotary d a b env s) := by
  unfold execSfuLane; try dsimp only
  repeat' first
      | with_reducible assumption | with_reducible apply State.countSfu_keep | with_reducible apply State.pathErrors_keep
      | with_reducible apply State.putCrew_keep | with_reducible apply State.romFail_keep | with_reducible apply State.strike_keep
      | with_reducible apply require_keep | with_reducible apply okR_next | with_reducible apply okR_ite

theorem State.doSfuRow_keep (I : Keep) (s : State) (t : Nat) (fn : Nat) (inFmt : Nat) (outFmt : Nat) (src : Nat) (dst : Nat) (env : List Strike) (H_s : Ok I s) :
    Ok I (State.doSfuRow s t fn inFmt outFmt src dst env) := by
  unfold State.doSfuRow; try dsimp only
  repeat' first
      | with_reducible assumption | with_reducible apply State.countSfu_keep | with_reducible apply State.engineRows_keep
      | with_reducible apply State.pathErrors_keep | with_reducible apply State.romFail_keep | with_reducible apply State.strike_keep
      | with_reducible apply State.writeRow_keep | with_reducible apply ok_ite | split

theorem execSfuRowOperation_keep (I : Keep) (t : Nat) (fn : Nat) (inFmt : Nat) (outFmt : Nat) (src : Nat) (dst : Nat) (env : List Strike) (s : State) (H_s : Ok I s) :
    OkR I (execSfuRowOperation t fn inFmt outFmt src dst env s) := by
  unfold execSfuRowOperation; try dsimp only
  repeat' first
      | with_reducible assumption | with_reducible apply State.doSfuRow_keep | with_reducible apply State.issue_keep
      | with_reducible apply require_keep

theorem execRandomDraw_keep (I : Keep) (t : Nat) (crew : Nat) (seed : Dword) (pos : Nat) (draw : Nat) (beam : Nat) (d : Nat) (s : State) (H_s : Ok I s) :
    OkR I (execRandomDraw t crew seed pos draw beam d s) := by
  unfold execRandomDraw; try dsimp only
  repeat' first
      | with_reducible assumption | with_reducible apply State.putCrew_keep | with_reducible apply require_keep | with_reducible apply okR_next

/-! ## Kernels -/

theorem State.gatherBytes_keep (I : Keep) (s : State) (p : Nat) (t : Nat) (addr : Nat) (n : Nat) (H_s : Ok I s) :
    Ok I ((State.gatherBytes s p t addr n).1) := by
  unfold State.gatherBytes; try dsimp only
  repeat' first | with_reducible assumption | with_reducible apply State.failStep_keep | with_reducible apply State.readRuns_keep | split

theorem State.gatherStore_keep (I : Keep) (s : State) (p : Nat) (t : Nat) (addr : Nat) (bs : Bytes) (H_s : Ok I s) :
    Ok I (State.gatherStore s p t addr bs) := by
  unfold State.gatherStore; try dsimp only
  repeat' first | with_reducible assumption | with_reducible apply State.mergeRows_keep

theorem State.countEvals_keep (I : Keep) (s : State) (p : Nat) (es : List (Nat × Word)) (H_s : Ok I s) :
    Ok I (State.countEvals s p es) := by
  unfold State.countEvals; try dsimp only
  repeat' first | with_reducible assumption | with_reducible apply State.countSfu_keep

theorem State.bringToken_keep (I : Keep) (s : State) (p : Nat) (handle : Nat) (beam : Nat) (token : Nat) (H_s : Ok I s) :
    Ok I (State.bringToken s p handle beam token) := by
  unfold State.bringToken; try dsimp only
  repeat' first
      | with_reducible assumption | with_reducible apply State.modPart_keep | with_reducible apply State.sendTo_keep | with_reducible apply ok_ite
      | split

theorem State.runSample_keep (I : Keep) (s : State) (p : Nat) (t : Nat) (handle : Nat) (beam : Nat) (logits : Nat) (fmt : Nat) (args : List Word) (H_s : Ok I s) :
    Ok I (State.runSample s p t handle beam logits fmt args) := by
  unfold State.runSample; try dsimp only
  repeat' first
      | with_reducible assumption | with_reducible apply State.bringToken_keep | with_reducible apply State.countEvals_keep
      | with_reducible apply State.gatherBytes_keep | split

theorem State.writeKv_keep (I : Keep) (s : State) (p : Nat) (t : Nat) (pt : Part) (im : Image) (l : List PageEntry) (query : Nat) (kv : Nat × Nat × Nat × Nat) (H_s : Ok I s) :
    Ok I (State.writeKv s p t pt im l query kv) := by
  unfold State.writeKv; try dsimp only
  repeat' first
      | with_reducible assumption | with_reducible apply State.gatherBytes_keep | with_reducible apply State.shareStore_keep
      | with_reducible apply ok_ite | split

theorem State.gatherBlock_keep (I : Keep) (s : State) (p : Nat) (t : Nat) (scores : Nat) (values : Nat) (d : Nat) (H_s : Ok I s) :
    Ok I ((State.gatherBlock s p t scores values d).1) := by
  unfold State.gatherBlock; try dsimp only
  repeat' first | with_reducible assumption | with_reducible apply State.gatherBytes_keep | split

theorem State.gatherBlocks_keep (I : Keep) (s : State) (p : Nat) (t : Nat) (pt : Part) (q : Seq) (i : Nat) (query : Nat) (scores : Nat) (values : Nat) (d : Nat) (y0 : List (Nat × Nat)) (H_s : Ok I s) :
    Ok I ((State.gatherBlocks s p t pt q i query scores values d y0).1) := by
  induction y0 generalizing s p t pt q i query scores values d with
  | nil =>
    unfold State.gatherBlocks; try dsimp only
    repeat' first | with_reducible assumption
  | cons x xs ih =>
    unfold State.gatherBlocks; try dsimp only
    repeat' first
        | with_reducible assumption | with_reducible apply ih | with_reducible apply State.gatherBlock_keep | split
        | (with_reducible apply ok_fst; assumption)

theorem State.runAttend_keep (I : Keep) (s : State) (p : Nat) (t : Nat) (handle : Nat) (beam : Nat) (query : Nat) (first : Nat) (count : Nat) (scores : Nat) (values : Nat) (d : Nat) (acc : Nat) (dst : Nat) (kv : Option (Nat × Nat × Nat × Nat)) (H_s : Ok I s) :
    Ok I (State.runAttend s p t handle beam query first count scores values d acc dst kv) := by
  unfold State.runAttend; try dsimp only
  repeat' first
      | with_reducible assumption | with_reducible apply State.countEvals_keep | with_reducible apply State.countSfu_keep
      | with_reducible apply State.gatherBlocks_keep | with_reducible apply State.gatherBytes_keep | with_reducible apply State.gatherStore_keep
      | with_reducible apply State.writeKv_keep | with_reducible apply ok_ite | split

theorem State.runSoftmax_keep (I : Keep) (s : State) (p : Nat) (t : Nat) (src : Nat) (dst : Nat) (len : Nat) (H_s : Ok I s) :
    Ok I (State.runSoftmax s p t src dst len) := by
  unfold State.runSoftmax; try dsimp only
  repeat' first
      | with_reducible assumption | with_reducible apply State.countEvals_keep | with_reducible apply State.countSfu_keep
      | with_reducible apply State.gatherBytes_keep | with_reducible apply State.gatherStore_keep | with_reducible apply ok_ite | split

theorem State.runNorm_keep (I : Keep) (s : State) (p : Nat) (t : Nat) (src : Nat) (dst : Nat) (gain : Nat) (bias : Option (Nat × Nat)) (w : Nat) (xFmt : Nat) (gFmt : Nat) (yFmt : Nat) (H_s : Ok I s) :
    Ok I (State.runNorm s p t src dst gain bias w xFmt gFmt yFmt) := by
  unfold State.runNorm; try dsimp only
  repeat' first
      | with_reducible assumption | with_reducible apply State.countEvals_keep | with_reducible apply State.countSfu_keep
      | with_reducible apply State.gatherBytes_keep | with_reducible apply State.gatherStore_keep | with_reducible apply ok_ite | split

theorem State.runRotary_keep (I : Keep) (s : State) (p : Nat) (t : Nat) (src : Nat) (dst : Nat) (pos : Nat) (H_s : Ok I s) :
    Ok I (State.runRotary s p t src dst pos) := by
  unfold State.runRotary; try dsimp only
  repeat' first
      | with_reducible assumption | with_reducible apply State.countSfu_keep | with_reducible apply State.gatherBytes_keep
      | with_reducible apply State.gatherStore_keep | split

theorem State.runScan_keep (I : Keep) (s : State) (p : Nat) (t : Nat) (handle : Nat) (h0 : Nat) (a : Nat) (x : Nat) (y : Nat) (pairs : Nat) (H_s : Ok I s) :
    Ok I (State.runScan s p t handle h0 a x y pairs) := by
  unfold State.runScan; try dsimp only
  repeat' first
      | with_reducible assumption | with_reducible apply State.gatherBytes_keep | with_reducible apply State.gatherStore_keep
      | with_reducible apply ok_ite | split

theorem State.runBody_keep (I : Keep) (s : State) (p : Nat) (t : Nat) (args : List Word) (y0 : KernelBody) (H_s : Ok I s) :
    Ok I (State.runBody s p t args y0) := by
  unfold State.runBody; try dsimp only
  repeat' first
      | with_reducible assumption | with_reducible apply State.runAttend_keep | with_reducible apply State.runNorm_keep
      | with_reducible apply State.runRotary_keep | with_reducible apply State.runSample_keep | with_reducible apply State.runScan_keep
      | with_reducible apply State.runSoftmax_keep | split

theorem State.startKernel_keep (I : Keep) (s : State) (t : Nat) (op : LaunchOp) (H_s : Ok I s) :
    Ok I (State.startKernel s t op) := by
  unfold State.startKernel; try dsimp only
  repeat' first
      | with_reducible assumption | with_reducible apply State.modTile_keep | with_reducible apply State.romFail_keep
      | with_reducible apply State.runBody_keep | with_reducible apply ok_ite

theorem State.pumpLaunch_keep (I : Keep) (s : State) (t : Nat) (y0 : Nat) (H_s : Ok I s) :
    Ok I (State.pumpLaunch s t y0) := by
  induction y0 generalizing s t with
  | zero =>
    unfold State.pumpLaunch; try dsimp only
    repeat' first | with_reducible assumption
  | succ n ih =>
    unfold State.pumpLaunch; try dsimp only
    repeat' first
        | with_reducible assumption | with_reducible apply ih | with_reducible apply State.modTile_keep | with_reducible apply State.startKernel_keep
        | with_reducible apply ok_ite | split

theorem State.goLaunch_keep (I : Keep) (s : State) (t : Nat) (H_s : Ok I s) :
    Ok I (State.goLaunch s t) := by
  unfold State.goLaunch; try dsimp only
  repeat' first | with_reducible assumption | with_reducible apply State.pumpLaunch_keep

theorem State.doLaunch_keep (I : Keep) (s : State) (t : Nat) (op : LaunchOp) (env : List Strike) (H_s : Ok I s) :
    Ok I (State.doLaunch s t op env) := by
  unfold State.doLaunch; try dsimp only
  repeat' first
      | with_reducible assumption | with_reducible apply State.goLaunch_keep | with_reducible apply State.modTile_keep
      | with_reducible apply State.pathErrors_keep | with_reducible apply State.strike_keep | with_reducible apply ok_ite

theorem execKernelLaunch_keep (I : Keep) (t : Nat) (crews : Nat) (entry : Nat) (args : List Word) (body : KernelBody) (env : List Strike) (s : State) (H_s : Ok I s) :
    OkR I (execKernelLaunch t crews entry args body env s) := by
  unfold execKernelLaunch; try dsimp only
  repeat' first
      | with_reducible assumption | with_reducible apply State.doLaunch_keep | with_reducible apply State.issue_keep
      | with_reducible apply require_keep

theorem State.endKernel_keep (I : Keep) (s : State) (t : Nat) (kernel : Nat) (H_s : Ok I s) :
    Ok I (State.endKernel s t kernel) := by
  unfold State.endKernel; try dsimp only
  repeat' first | with_reducible assumption | with_reducible apply State.goLaunch_keep | with_reducible apply State.modTile_keep

/-! ## Sequencer -/

theorem State.countStall_keep (I : Keep) (s : State) (p : Nat) (bay : Nat) (H_s : Ok I s) :
    Ok I (State.countStall s p bay) := by
  unfold State.countStall; try dsimp only
  repeat' first | with_reducible assumption | with_reducible apply State.bump_keep | split

theorem State.popWaiting_keep (I : Keep) (s : State) (p : Nat) (bay : Nat) (H_s : Ok I s) :
    Ok I (State.popWaiting s p bay) := by
  unfold State.popWaiting; try dsimp only
  repeat' first | with_reducible assumption | with_reducible apply State.modCtx_keep

theorem State.doSync_keep (I : Keep) (s : State) (p : Nat) (bay : Nat) (op : SyncOp) (H_s : Ok I s) :
    Ok I (State.doSync s p bay op) := by
  unfold State.doSync; try dsimp only
  repeat' first
      | with_reducible assumption | with_reducible apply State.countStall_keep | with_reducible apply State.popWaiting_keep
      | (with_reducible apply ok_foldl; intro _ _ _) | with_reducible apply ok_ite | split

theorem State.doFlow_keep (I : Keep) (s : State) (p : Nat) (bay : Nat) (at_ : Nat) (y0 : FlowOp) (H_s : Ok I s) :
    Ok I (State.doFlow s p bay at_ y0) := by
  unfold State.doFlow; try dsimp only
  repeat' first | with_reducible assumption | with_reducible apply State.modCtx_keep | split

theorem State.doEnd_keep (I : Keep) (s : State) (p : Nat) (bay : Nat) (H_s : Ok I s) :
    Ok I (State.doEnd s p bay) := by
  unfold State.doEnd; try dsimp only
  repeat' first | with_reducible assumption | with_reducible apply State.modCtx_keep | with_reducible apply State.modPart_keep

theorem State.runInstr_keep (I : Keep) (s : State) (y0 : Instr) (H_s : Ok I s) :
    Ok I (State.runInstr s y0) := by
  unfold State.runInstr; try dsimp only
  repeat' first
      | with_reducible assumption | with_reducible apply State.doCommit_keep | with_reducible apply State.doCopy_keep
      | with_reducible apply State.doDma_keep | with_reducible apply State.doDrain_keep | with_reducible apply State.doEnd_keep
      | with_reducible apply State.doFill_keep | with_reducible apply State.doFlow_keep | with_reducible apply State.doLaunch_keep
      | with_reducible apply State.doLinkReceive_keep | with_reducible apply State.doLinkSend_keep | with_reducible apply State.doMatrix_keep
      | with_reducible apply State.doPreload_keep | with_reducible apply State.doSfuRow_keep | with_reducible apply State.doStateOverwrite_keep
      | with_reducible apply State.doStateRead_keep | with_reducible apply State.doStore_keep | with_reducible apply State.doSync_keep
      | with_reducible apply State.doTableLoad_keep | with_reducible apply State.doTwinAdd_keep | with_reducible apply State.doTwinBind_keep
      | with_reducible apply State.doTwinMul_keep | with_reducible apply State.doTwinUnbind_keep | split

theorem State.stepBay_keep (I : Keep) (s : State) (p : Nat) (bay : Nat) (H_s : Ok I s) :
    OkO I (State.stepBay s p bay) := by
  unfold State.stepBay; try dsimp only
  repeat' first
      | with_reducible assumption | with_reducible apply State.countStall_keep | with_reducible apply State.popWaiting_keep
      | with_reducible apply State.runInstr_keep | with_reducible apply okO_some | with_reducible apply okO_none | with_reducible apply ok_ite | split

theorem State.pumpBays_keep (I : Keep) (s : State) (p n : Nat) (hs : Ok I s) : Ok I (s.pumpBays p n) := by
  induction n generalizing s with
  | zero => exact hs
  | succ n ih =>
    unfold State.pumpBays
    split
    · next s1 e =>
      refine ih s1 ?_
      obtain ⟨pt, -, h⟩ := Option.bind_eq_some_iff.1 e
      obtain ⟨l, b, l', -, h, -⟩ := List.findSome?_eq_some_iff.1 h
      exact (State.stepBay_keep I s p b hs).get _ h
    · exact hs

theorem State.pump_keep (I : Keep) (s : State) (p : Nat) (H_s : Ok I s) :
    Ok I (State.pump s p) := by
  unfold State.pump; try dsimp only
  repeat' first | with_reducible assumption | with_reducible apply State.pumpBays_keep

theorem State.pumpAll_keep (I : Keep) (s : State) (H_s : Ok I s) :
    Ok I (State.pumpAll s) := by
  unfold State.pumpAll; try dsimp only
  repeat' first | with_reducible assumption | with_reducible apply State.pump_keep | (with_reducible apply ok_foldl; intro _ _ _)

theorem execSync_keep (J : KeepAll) (p : Nat) (bay : Nat) (now : Nat) (op : SyncOp) (s : State) (H_s : Ok J.toKeep s) :
    OkR J.toKeep (execSync p bay now op s) := by
  unfold execSync; try dsimp only
  repeat' first
      | with_reducible assumption | with_reducible apply State.doSync_keep | with_reducible apply State.issue_keep
      | with_reducible apply State.pump_keep | with_reducible apply impossible_keep | with_reducible apply require_keep
      | with_reducible apply State.at_keep | split

theorem execFlow_keep (I : Keep) (p : Nat) (bay : Nat) (at_ : Nat) (op : FlowOp) (s : State) (H_s : Ok I s) :
    OkR I (execFlow p bay at_ op s) := by
  unfold execFlow; try dsimp only
  repeat' first
      | with_reducible assumption | with_reducible apply State.doFlow_keep | with_reducible apply State.issue_keep
      | with_reducible apply impossible_keep | with_reducible apply require_keep | split

theorem execEndStep_keep (I : Keep) (p : Nat) (bay : Nat) (s : State) (H_s : Ok I s) :
    OkR I (execEndStep p bay s) := by
  unfold execEndStep; try dsimp only
  repeat' first
      | with_reducible assumption | with_reducible apply State.doEnd_keep | with_reducible apply State.issue_keep
      | with_reducible apply State.pump_keep | with_reducible apply impossible_keep | with_reducible apply require_keep | split

theorem execDrainComplete_keep (I : Keep) (t : Nat) (bank : Nat) (s : State) (H_s : Ok I s) :
    OkR I (execDrainComplete t bank s) := by
  unfold execDrainComplete; try dsimp only
  repeat' first
      | with_reducible assumption | with_reducible apply State.endDrain_keep | with_reducible apply State.pump_keep
      | with_reducible apply require_keep | with_reducible apply okR_next

theorem execDmaComplete_keep (J : KeepAll) (t : Nat) (id : Nat) (now : Nat) (s : State) (H_s : Ok J.toKeep s) :
    OkR J.toKeep (execDmaComplete t id now s) := by
  unfold execDmaComplete; try dsimp only
  repeat' first
      | with_reducible assumption | with_reducible apply State.endDma_keep | with_reducible apply State.modCtx_keep
      | with_reducible apply State.pump_keep | with_reducible apply impossible_keep | with_reducible apply State.at_keep
      | with_reducible apply okR_next | split

theorem execFetchComplete_keep (J : KeepAll) (p : Nat) (tensor : Nat) (now : Nat) (s : State) (H_s : Ok J.toKeep s) :
    OkR J.toKeep (execFetchComplete p tensor now s) := by
  unfold execFetchComplete; try dsimp only
  repeat' first
      | with_reducible assumption | with_reducible apply State.endFetch_keep | with_reducible apply State.modCtx_keep
      | with_reducible apply State.pump_keep | with_reducible apply impossible_keep | with_reducible apply State.at_keep
      | with_reducible apply okR_next | (with_reducible apply ok_foldl; intro _ _ _) | split

theorem execKernelEnd_keep (I : Keep) (t : Nat) (kernel : Nat) (s : State) (H_s : Ok I s) :
    OkR I (execKernelEnd t kernel s) := by
  unfold execKernelEnd; try dsimp only
  repeat' first
      | with_reducible assumption | with_reducible apply State.endKernel_keep | with_reducible apply State.pump_keep
      | with_reducible apply require_keep | with_reducible apply okR_next

theorem execPodTagWrite_keep (I : Keep) (bay : Nat) (s : State) (H_s : Ok I s) :
    OkR I (execPodTagWrite bay s) := by
  unfold execPodTagWrite; try dsimp only
  repeat' first
      | with_reducible assumption | with_reducible apply State.pump_keep | with_reducible apply State.writeTag_keep
      | with_reducible apply impossible_keep | with_reducible apply okR_next | split

theorem execTableLoadComplete_keep (I : Keep) (p : Nat) (s : State) (H_s : Ok I s) :
    OkR I (execTableLoadComplete p s) := by
  unfold execTableLoadComplete; try dsimp only
  repeat' first
      | with_reducible assumption | with_reducible apply State.finishLoad_keep | with_reducible apply State.pumpLoads_keep
      | with_reducible apply State.pump_keep | with_reducible apply State.settleAll_keep | with_reducible apply impossible_keep
      | with_reducible apply okR_next | split

theorem execTableCopyComplete_keep (I : Keep) (p : Nat) (kind : Nat) (s : State) (H_s : Ok I s) :
    OkR I (execTableCopyComplete p kind s) := by
  unfold execTableCopyComplete; try dsimp only
  repeat' first
      | with_reducible assumption | with_reducible apply State.modPart_keep | with_reducible apply State.modTile_keep
      | with_reducible apply State.pumpLoads_keep | with_reducible apply State.pump_keep | with_reducible apply State.settleAll_keep
      | with_reducible apply impossible_keep | with_reducible apply require_keep | with_reducible apply okR_next
      | (with_reducible apply ok_foldl; intro _ _ _) | split

/-! ## Rings -/

theorem State.joinColl_keep (I : Keep) (s : State) (p : Nat) (owner : Nat) (H_s : Ok I s) :
    Ok I (State.joinColl s p owner) := by
  unfold State.joinColl; try dsimp only
  repeat' first | with_reducible assumption | with_reducible apply State.modPart_keep

theorem State.endColl_keep (I : Keep) (s : State) (p : Nat) (ns : Nat) (r : Partial) (H_s : Ok I s) :
    Ok I (State.endColl s p ns r) := by
  unfold State.endColl; try dsimp only
  repeat' first
      | with_reducible assumption | with_reducible apply State.bump_keep | with_reducible apply State.countEvals_keep
      | with_reducible apply State.modPart_keep | with_reducible apply State.putReg_keep | with_reducible apply State.setVeolo_keep

theorem State.foldOn_keep (I : Keep) (s : State) (p : Nat) (owner : Nat) (ns : Nat) (incoming : Partial) (own : Partial) (H_s : Ok I s) :
    Ok I (State.foldOn s p owner ns incoming own) := by
  unfold State.foldOn; try dsimp only
  repeat' first
      | with_reducible assumption | with_reducible apply State.countEvals_keep | with_reducible apply State.endColl_keep
      | with_reducible apply State.joinColl_keep | with_reducible apply State.sendTo_keep | with_reducible apply ok_ite

theorem execStatisticsPartial_keep (I : Keep) (p : Nat) (collective : Nat) (incoming : Partial) (own : Partial) (ns : Nat) (s : State) (H_s : Ok I s) :
    OkR I (execStatisticsPartial p collective incoming own ns s) := by
  unfold execStatisticsPartial; try dsimp only
  repeat' first
      | with_reducible assumption | with_reducible apply State.endColl_keep | with_reducible apply State.foldOn_keep
      | with_reducible apply State.pump_keep | with_reducible apply State.putPart_keep | with_reducible apply require_keep
      | with_reducible apply okR_next | with_reducible apply okR_ite | split

theorem State.takeReserve_keep (I : Keep) (s : State) (p : Nat) (y0 : Nat) (y1 : Nat) (y2 : List Nat) (y3 : List Nat) (H_s : Ok I s) :
    Ok I ((State.takeReserve s p y0 y1 y2 y3).1) := by
  induction y0 generalizing s p y1 y2 y3 with
  | zero =>
    unfold State.takeReserve; try dsimp only
    repeat' first | with_reducible assumption
  | succ n ih =>
    unfold State.takeReserve; try dsimp only
    repeat' first
        | with_reducible assumption | with_reducible apply ih | with_reducible apply State.openPages_keep | with_reducible apply State.putPart_keep
        | split

theorem State.takeMessage_keep (I : Keep) (s : State) (p : Nat) (cls : LClass) (H_s : Ok I s) :
    Ok I ((State.takeMessage s p cls).1) := by
  unfold State.takeMessage; try dsimp only
  repeat' first | with_reducible assumption | with_reducible apply State.setVeolo_keep | split

theorem State.enterSegment_keep (I : Keep) (s : State) (p : Nat) (owner : Nat) (handle : Nat) (offset : Nat) (first : Nat) (toks : List Nat) (H_s : Ok I s) :
    Ok I (State.enterSegment s p owner handle offset first toks) := by
  unfold State.enterSegment; try dsimp only
  repeat' first | with_reducible assumption | with_reducible apply State.modPart_keep | with_reducible apply State.takeReserve_keep | split

theorem execRingSegment_keep (I : Keep) (p : Nat) (owner : Nat) (handle : Nat) (offset : Nat) (round : Nat) (first : Nat) (toks : List Nat) (blocked : Bool) (own : List Partial) (s : State) (H_s : Ok I s) :
    OkR I (execRingSegment p owner handle offset round first toks blocked own s) := by
  unfold execRingSegment; try dsimp only
  repeat' first
      | with_reducible assumption | with_reducible apply State.enterSegment_keep | with_reducible apply State.modPart_keep
      | with_reducible apply State.sendTo_keep | with_reducible apply State.takeMessage_keep | with_reducible apply impossible_keep
      | with_reducible apply require_keep | with_reducible apply okR_next | split

theorem execRingQuery_keep (I : Keep) (p : Nat) (owner : Nat) (handle : Nat) (own : Partial) (s : State) (H_s : Ok I s) :
    OkR I (execRingQuery p owner handle own s) := by
  unfold execRingQuery; try dsimp only
  repeat' first
      | with_reducible assumption | with_reducible apply State.foldOn_keep | with_reducible apply State.modPart_keep
      | with_reducible apply State.takeMessage_keep | with_reducible apply require_keep | with_reducible apply okR_next | with_reducible apply okR_ite

theorem execRingRelease_keep (I : Keep) (p : Nat) (owner : Nat) (handle : Nat) (s : State) (H_s : Ok I s) :
    OkR I (execRingRelease p owner handle s) := by
  unfold execRingRelease; try dsimp only
  repeat' first
      | with_reducible assumption | with_reducible apply State.modPart_keep | with_reducible apply impossible_keep | with_reducible apply okR_next
      | split

/-! ## Meridian -/

theorem State.endModelOps_keep (I : Keep) (s : State) (p : Nat) (H_s : Ok I s) :
    Ok I (State.endModelOps s p) := by
  unfold State.endModelOps; try dsimp only
  repeat' first
      | with_reducible assumption | with_reducible apply State.modPart_keep | with_reducible apply State.settleModel_keep
      | with_reducible apply State.settleTargeted_keep | (with_reducible apply ok_foldl; intro _ _ _) | with_reducible apply ok_ite | split

theorem State.endLoans_keep (I : Keep) (s : State) (p : Nat) (H_s : Ok I s) :
    Ok I (State.endLoans s p) := by
  unfold State.endLoans; try dsimp only
  repeat' first
      | with_reducible assumption | with_reducible apply State.modPart_keep | with_reducible apply State.pushGo_keep
      | with_reducible apply State.releaseLoan_keep | (with_reducible apply ok_foldl; intro _ _ _) | split

theorem State.abortAll_keep (I : Keep) (s : State) (p : Nat) (H_s : Ok I s) :
    Ok I (State.abortAll s p) := by
  unfold State.abortAll; try dsimp only
  repeat' first | with_reducible assumption | with_reducible apply State.abortTiles_keep | split

theorem State.drainForReset_keep (I : Keep) (s : State) (p : Nat) (H_s : Ok I s) :
    Ok I (State.drainForReset s p) := by
  unfold State.drainForReset; try dsimp only
  repeat' first
      | with_reducible assumption | with_reducible apply State.abortAll_keep | with_reducible apply State.emit_keep
      | with_reducible apply State.endEverything_keep | with_reducible apply State.endLoans_keep | with_reducible apply State.endModelOps_keep
      | with_reducible apply State.modPart_keep | with_reducible apply State.pushGo_keep | with_reducible apply State.setSurvey_keep
      | with_reducible apply State.settle_keep | (with_reducible apply ok_foldl; intro _ _ _) | with_reducible apply ok_ite | split

theorem State.endForNotice_keep (I : Keep) (s : State) (p : Nat) (H_s : Ok I s) :
    Ok I (State.endForNotice s p) := by
  unfold State.endForNotice; try dsimp only
  repeat' first
      | with_reducible assumption | with_reducible apply State.emit_keep | with_reducible apply State.endEverything_keep
      | with_reducible apply State.modPart_keep | with_reducible apply ok_ite

theorem State.items_keep (I : Keep) (s : State) (p : Nat) (count : Nat) (im : Image) (confirmed : Option (List Nat)) (done : Bool) (H_s : Ok I s) :
    Ok I ((State.items s p count im confirmed done).1) := by
  unfold State.items; try dsimp only
  repeat' first
      | with_reducible assumption | with_reducible apply State.applyTargeted_keep | with_reducible apply State.drainDeadline_keep
      | with_reducible apply State.editionItem_keep | with_reducible apply State.firstItem_keep | with_reducible apply State.gzOffItem_keep
      | with_reducible apply State.loanItem_keep | with_reducible apply State.modPart_keep | with_reducible apply State.removeInsets_keep
      | with_reducible apply State.resizeItem_keep | with_reducible apply State.surveyItem_keep | with_reducible apply State.swapItem_keep

theorem State.openNext_keep (I : Keep) (s : State) (p : Nat) (count : Nat) (old : Part) (recs : Recs) (H_s : Ok I s) :
    Ok I (State.openNext s p count old recs) := by
  unfold State.openNext; try dsimp only
  repeat' first
      | with_reducible assumption | with_reducible apply State.admission_keep | with_reducible apply State.emit_keep
      | with_reducible apply State.followStep_keep | with_reducible apply State.leadStep_keep | with_reducible apply State.scaleItem_keep
      | with_reducible apply ok_ite | split

theorem State.bareMeridian_keep (I : Keep) (s : State) (p : Nat) (count : Nat) (H_s : Ok I s) :
    Ok I (State.bareMeridian s p count) := by
  unfold State.bareMeridian; try dsimp only
  repeat' first
      | with_reducible assumption | with_reducible apply State.gratItem_keep | with_reducible apply State.gzOffItem_keep
      | with_reducible apply State.loanItem_keep | with_reducible apply State.modPart_keep | with_reducible apply State.resizeItem_keep
      | with_reducible apply State.surveyItem_keep

theorem State.meridianAt_keep (I : Keep) (s : State) (p : Nat) (target : Option Nat) (confirmed : Option (List Nat)) (H_s : Ok I s) :
    Ok I (State.meridianAt s p target confirmed) := by
  unfold State.meridianAt; try dsimp only
  repeat' first
      | with_reducible assumption | with_reducible apply State.bareMeridian_keep | with_reducible apply State.closeStep_keep
      | with_reducible apply State.discardFirmware_keep | with_reducible apply State.drainForReset_keep | with_reducible apply State.endForNotice_keep
      | with_reducible apply State.items_keep | with_reducible apply State.keepRecords_keep | with_reducible apply State.modPart_keep
      | with_reducible apply State.openNext_keep | with_reducible apply State.putReg_keep | with_reducible apply ok_ite | split

theorem execMeridian_keep (J : KeepAll) (p : Nat) (now : Nat) (s : State) (H_s : Ok J.toKeep s) :
    OkR J.toKeep (execMeridian p now s) := by
  unfold execMeridian; try dsimp only
  repeat' first
      | with_reducible assumption | with_reducible apply State.meridianAt_keep | with_reducible apply State.settleAll_keep
      | with_reducible apply impossible_keep | with_reducible apply require_keep | with_reducible apply State.at_keep | with_reducible apply okR_next
      | split

theorem execEmptyStep_keep (J : KeepAll) (p : Nat) (now : Nat) (s : State) (H_s : Ok J.toKeep s) :
    OkR J.toKeep (execEmptyStep p now s) := by
  unfold execEmptyStep; try dsimp only
  repeat' first
      | with_reducible assumption | with_reducible apply State.meridianAt_keep | with_reducible apply State.settleAll_keep
      | with_reducible apply impossible_keep | with_reducible apply require_keep | with_reducible apply State.at_keep | with_reducible apply okR_next
      | split

theorem execPipelineDone_keep (I : Keep) (p : Nat) (fromNext : Option Nat) (s : State) (H_s : Ok I s) :
    OkR I (execPipelineDone p fromNext s) := by
  unfold execPipelineDone; try dsimp only
  repeat' first
      | with_reducible assumption | with_reducible apply State.modPart_keep | with_reducible apply State.sendMessage_keep
      | with_reducible apply impossible_keep | with_reducible apply require_keep | with_reducible apply okR_next | with_reducible apply okR_ite
      | split

theorem execPipelineTMessage_keep (I : Keep) (p : Nat) (t : Nat) (count : Nat) (confirmed : List Nat) (s : State) (H_s : Ok I s) :
    OkR I (execPipelineTMessage p t count confirmed s) := by
  unfold execPipelineTMessage; try dsimp only
  repeat' first
      | with_reducible assumption | with_reducible apply State.modPart_keep | with_reducible apply State.sendMessage_keep
      | with_reducible apply impossible_keep | with_reducible apply require_keep | with_reducible apply okR_next | with_reducible apply ok_ite | split

theorem execPipelineMeridian_keep (J : KeepAll) (p : Nat) (now : Nat) (s : State) (H_s : Ok J.toKeep s) :
    OkR J.toKeep (execPipelineMeridian p now s) := by
  unfold execPipelineMeridian; try dsimp only
  repeat' first
      | with_reducible assumption | with_reducible apply State.meridianAt_keep | with_reducible apply State.modPart_keep
      | with_reducible apply State.settleAll_keep | with_reducible apply impossible_keep | with_reducible apply require_keep
      | with_reducible apply State.at_keep | with_reducible apply okR_next | split

theorem execTargetAcceptReport_keep (I : Keep) (p : Nat) (stage : Nat) (handle : Nat) (target : Nat) (s : State) (H_s : Ok I s) :
    OkR I (execTargetAcceptReport p stage handle target s) := by
  unfold execTargetAcceptReport; try dsimp only
  repeat' first
      | with_reducible assumption | with_reducible apply State.modPart_keep | with_reducible apply impossible_keep | with_reducible apply require_keep
      | with_reducible apply okR_next | split

theorem execStepDecisions_keep (I : Keep) (p : Nat) (count : Nat) (block : List Word) (ds : List Decision) (s : State) (H_s : Ok I s) :
    OkR I (execStepDecisions p count block ds s) := by
  unfold execStepDecisions; try dsimp only
  repeat' first
      | with_reducible assumption | with_reducible apply State.modPart_keep | with_reducible apply State.sendDecisions_keep
      | with_reducible apply State.takeMessage_keep | with_reducible apply impossible_keep | with_reducible apply require_keep
      | with_reducible apply okR_next | with_reducible apply ok_ite | split

theorem execTokenReturn_keep (I : Keep) (p : Nat) (handle : Nat) (beam : Nat) (token : Nat) (s : State) (H_s : Ok I s) :
    OkR I (execTokenReturn p handle beam token s) := by
  unfold execTokenReturn; try dsimp only
  repeat' first
      | with_reducible assumption | with_reducible apply State.bringToken_keep | with_reducible apply State.takeMessage_keep
      | with_reducible apply impossible_keep | with_reducible apply okR_next | split

theorem execStepReplay_keep (I : Keep) (p : Nat) (s : State) (H_s : Ok I s) :
    OkR I (execStepReplay p s) := by
  unfold execStepReplay; try dsimp only
  repeat' first
      | with_reducible assumption | with_reducible apply State.bump_keep | with_reducible apply State.modPart_keep
      | with_reducible apply impossible_keep | with_reducible apply require_keep | with_reducible apply okR_next | split

theorem State.failModel_keep (I : Keep) (s : State) (p : Nat) (H_s : Ok I s) :
    Ok I (State.failModel s p) := by
  unfold State.failModel; try dsimp only
  repeat' first
      | with_reducible assumption | with_reducible apply State.buryPaused_keep | with_reducible apply State.emit_keep
      | with_reducible apply State.endInsetsIf_keep | with_reducible apply State.endReqsIf_keep | with_reducible apply State.endStreams_keep
      | with_reducible apply State.modPart_keep | with_reducible apply State.settleModel_keep | with_reducible apply ok_ite | split

theorem execWeightReloadComplete_keep (I : Keep) (p : Nat) (good : Bool) (s : State) (H_s : Ok I s) :
    OkR I (execWeightReloadComplete p good s) := by
  unfold execWeightReloadComplete; try dsimp only
  repeat' first
      | with_reducible assumption | with_reducible apply State.bump_keep | with_reducible apply State.countPodFault_keep
      | with_reducible apply State.endWork_keep | with_reducible apply State.failModel_keep | with_reducible apply State.loadTensors_keep
      | with_reducible apply State.modPart_keep | with_reducible apply impossible_keep | with_reducible apply require_keep
      | with_reducible apply okR_next | with_reducible apply okR_ite | split

end Sys2Proof.Machine
end

