-- ==== Sys2Proof/Laws/KeepDevice.lean ====
section
/-!
SUPPORT. What the operations of models, memory tiers, links, resets, sessions, partitions and firmware; and what every command keeps.
-/
namespace Sys2Proof.Machine

open Sys2Proof
set_option maxRecDepth 20000

/-! ## Models -/

theorem State.modelNo_keep (I : Keep) (s : State) (c : Ctx) (op : Nat) (st : Status) (H_s : Ok I s) :
    OkR I (State.modelNo s c op st) := by
  unfold State.modelNo; try dsimp only
  repeat' first
      | with_reducible assumption | with_reducible apply State.modelStatus_keep | with_reducible apply State.reply_keep
      | with_reducible apply okR_next

theorem State.modelOp_keep (I : Keep) (s : State) (c : Ctx) (op : Nat) (body : State → Part → Res) (H_s : Ok I s) (H_body : ∀ x0 x1, Ok I x0 → OkR I (body x0 x1)) :
    OkR I (State.modelOp s c op body) := by
  unfold State.modelOp; try dsimp only
  repeat' first
      | with_reducible assumption | with_reducible apply State.answer_keep | with_reducible apply State.modelNo_keep
      | with_reducible apply State.serve_keep | apply H_body | with_reducible apply okR_ite | intro _ | split

theorem State.atOnce_keep (I : Keep) (s : State) (c : Ctx) (op : Nat) (st : Status) (H_s : Ok I s) :
    Ok I (State.atOnce s c op st) := by
  unfold State.atOnce; try dsimp only
  repeat' first | with_reducible assumption | with_reducible apply State.owe_keep | with_reducible apply State.settleModel_keep

theorem State.resetModelRegs_keep (I : Keep) (s : State) (p : Nat) (H_s : Ok I s) :
    Ok I (State.resetModelRegs s p) := by
  unfold State.resetModelRegs; try dsimp only
  repeat' first
      | with_reducible assumption | with_reducible apply State.modPart_keep | with_reducible apply State.putReg_keep
      | (with_reducible apply ok_foldl; intro _ _ _)

theorem State.dropModelStaged_keep (I : Keep) (s : State) (p : Nat) (H_s : Ok I s) :
    Ok I (State.dropModelStaged s p) := by
  unfold State.dropModelStaged; try dsimp only
  repeat' first
      | with_reducible assumption | with_reducible apply State.modPart_keep | with_reducible apply State.settleModel_keep
      | with_reducible apply State.settleTargeted_keep | (with_reducible apply ok_foldl; intro _ _ _) | split

theorem State.removeImage_keep (I : Keep) (s : State) (p : Nat) (H_s : Ok I s) :
    Ok I (State.removeImage s p) := by
  unfold State.removeImage; try dsimp only
  repeat' first
      | with_reducible assumption | with_reducible apply State.dropModelStaged_keep | with_reducible apply State.modPart_keep
      | with_reducible apply State.resetModelRegs_keep

theorem State.checkParts_keep (I : Keep) (s : State) (v : Install) (H_s : Ok I s) :
    Ok I ((State.checkParts s v).1) := by
  unfold State.checkParts; try dsimp only
  repeat' first | with_reducible assumption | with_reducible apply State.bump_keep | split

theorem State.storeShard_keep (I : Keep) (s : State) (p : Nat) (b : Bytes) (H_s : Ok I s) :
    Ok I (State.storeShard s p b) := by
  unfold State.storeShard; try dsimp only
  repeat' first
      | with_reducible assumption | with_reducible apply State.layShards_keep | with_reducible apply State.setNand_keep | with_reducible apply ok_ite
      | split

theorem State.beginLoad_keep (I : Keep) (s : State) (p : Nat) (im : Image) (H_s : Ok I s) :
    Ok I (State.beginLoad s p im) := by
  unfold State.beginLoad; try dsimp only
  repeat' first
      | with_reducible assumption | with_reducible apply State.endInstall_keep | with_reducible apply State.modPart_keep
      | with_reducible apply State.removeImage_keep | with_reducible apply ok_ite | split

theorem State.shardReady_keep (I : Keep) (s : State) (p : Nat) (b : Bytes) (H_s : Ok I s) :
    Ok I (State.shardReady s p b) := by
  unfold State.shardReady; try dsimp only
  repeat' first
      | with_reducible assumption | with_reducible apply State.beginLoad_keep | with_reducible apply State.endInstall_keep
      | with_reducible apply State.modPart_keep | with_reducible apply State.storeShard_keep | with_reducible apply ok_ite | split

theorem State.findShard_keep (I : Keep) (s : State) (p : Nat) (im : Image) (H_s : Ok I s) :
    Ok I (State.findShard s p im) := by
  unfold State.findShard; try dsimp only
  repeat' first
      | with_reducible assumption | with_reducible apply State.askAll_keep | with_reducible apply State.endInstall_keep
      | with_reducible apply State.shardReady_keep | with_reducible apply ok_ite | split

theorem State.partsDone_keep (I : Keep) (s : State) (p : Nat) (v : Install) (H_s : Ok I s) :
    Ok I (State.partsDone s p v) := by
  unfold State.partsDone; try dsimp only
  repeat' first
      | with_reducible assumption | with_reducible apply State.checkParts_keep | with_reducible apply State.endInstall_keep
      | with_reducible apply State.findShard_keep | with_reducible apply State.modPart_keep | with_reducible apply ok_ite | split

theorem execInstallModel_keep (I : Keep) (c : Ctx) (payload : Bytes) (s : State) (H_s : Ok I s) :
    OkR I (execInstallModel c payload s) := by
  unfold execInstallModel; try dsimp only
  repeat' first
      | with_reducible assumption | with_reducible apply State.beginLoad_keep | with_reducible apply State.modPart_keep
      | with_reducible apply State.modelNo_keep | with_reducible apply State.modelOp_keep | with_reducible apply State.owe_keep
      | with_reducible apply okR_next | with_reducible apply okR_ite | intro _ | split

theorem State.afterPart_keep (I : Keep) (s : State) (p : Nat) (H_s : Ok I s) :
    Ok I (State.afterPart s p) := by
  unfold State.afterPart; try dsimp only
  repeat' first | with_reducible assumption | with_reducible apply State.partsDone_keep | with_reducible apply ok_ite | split

theorem execShardData_keep (I : Keep) (c : Ctx) (payload : Bytes) (s : State) (H_s : Ok I s) :
    OkR I (execShardData c payload s) := by
  unfold execShardData; try dsimp only
  repeat' first
      | with_reducible assumption | with_reducible apply State.afterPart_keep | with_reducible apply State.answer_keep
      | with_reducible apply State.endInstall_keep | with_reducible apply State.failFetch_keep | with_reducible apply State.modFetch_keep
      | with_reducible apply State.serve_keep | with_reducible apply okR_next | with_reducible apply okR_ite | intro _ | split

theorem execShardDataTimeout_keep (I : Keep) (p : Nat) (s : State) (H_s : Ok I s) :
    OkR I (execShardDataTimeout p s) := by
  unfold execShardDataTimeout; try dsimp only
  repeat' first
      | with_reducible assumption | with_reducible apply State.endInstall_keep | with_reducible apply State.failFetch_keep
      | with_reducible apply impossible_keep | with_reducible apply require_keep | with_reducible apply okR_next | with_reducible apply okR_ite
      | split

theorem execShardQuery_keep (I : Keep) (link : Nat) (digest : Bytes) (s : State) (H_s : Ok I s) :
    OkR I (execShardQuery link digest s) := by
  unfold execShardQuery; try dsimp only
  repeat' first
      | with_reducible assumption | with_reducible apply State.sendMessage_keep | with_reducible apply require_keep | with_reducible apply okR_next
      | with_reducible apply ok_ite

theorem execShardQueryTimeout_keep (I : Keep) (p : Nat) (answers : List Nat) (s : State) (H_s : Ok I s) :
    OkR I (execShardQueryTimeout p answers s) := by
  unfold execShardQueryTimeout; try dsimp only
  repeat' first
      | with_reducible assumption | with_reducible apply State.askNeighbour_keep | with_reducible apply State.toHost_keep
      | with_reducible apply impossible_keep | with_reducible apply require_keep | with_reducible apply okR_next | split

theorem State.shardBad_keep (I : Keep) (s : State) (p : Nat) (re : Bool) (v : Install) (H_s : Ok I s) :
    Ok I (State.shardBad s p re v) := by
  unfold State.shardBad; try dsimp only
  repeat' first
      | with_reducible assumption | with_reducible apply State.askNeighbour_keep | with_reducible apply State.bump_keep
      | with_reducible apply State.failFetch_keep | with_reducible apply State.modFetch_keep | with_reducible apply State.toHost_keep
      | with_reducible apply ok_ite | split

theorem State.repairShard_keep (I : Keep) (s : State) (p : Nat) (im : Image) (b : Bytes) (H_s : Ok I s) :
    Ok I (State.repairShard s p im b) := by
  unfold State.repairShard; try dsimp only
  repeat' first | with_reducible assumption | with_reducible apply State.layShards_keep | with_reducible apply State.modPart_keep | split

theorem execShardArrived_keep (I : Keep) (p : Nat) (s : State) (H_s : Ok I s) :
    OkR I (execShardArrived p s) := by
  unfold execShardArrived; try dsimp only
  repeat' first
      | with_reducible assumption | with_reducible apply State.repairShard_keep | with_reducible apply State.shardBad_keep
      | with_reducible apply State.shardReady_keep | with_reducible apply impossible_keep | with_reducible apply okR_next
      | with_reducible apply okR_ite | split

theorem State.loadTables_keep (I : Keep) (s : State) (pt : Part) (tables : Bytes) (H_s : Ok I s) :
    Ok I (State.loadTables s pt tables) := by
  unfold State.loadTables; try dsimp only
  repeat' first | with_reducible assumption | with_reducible apply State.modTile_keep | (with_reducible apply ok_foldl; intro _ _ _)

theorem State.loadImage_keep (I : Keep) (s : State) (p : Nat) (im : Image) (H_s : Ok I s) :
    Ok I (State.loadImage s p im) := by
  unfold State.loadImage; try dsimp only
  repeat' first
      | with_reducible assumption | with_reducible apply State.loadTables_keep | with_reducible apply State.loadTensors_keep
      | with_reducible apply State.modPart_keep | with_reducible apply State.putField_keep | with_reducible apply State.putReg_keep
      | with_reducible apply State.storePrograms_keep | split

theorem execLoadComplete_keep (I : Keep) (p : Nat) (readable : Bool) (s : State) (H_s : Ok I s) :
    OkR I (execLoadComplete p readable s) := by
  unfold execLoadComplete; try dsimp only
  repeat' first
      | with_reducible assumption | with_reducible apply State.countPodFault_keep | with_reducible apply State.endInstall_keep
      | with_reducible apply State.loadImage_keep | with_reducible apply State.modPart_keep | with_reducible apply impossible_keep
      | with_reducible apply require_keep | with_reducible apply okR_next | split

theorem State.stageTargeted_keep (I : Keep) (s : State) (p : Nat) (handle : Nat) (target : Nat) (im : Image) (t : Targeted) (H_s : Ok I s) :
    Ok I (State.stageTargeted s p handle target im t) := by
  unfold State.stageTargeted; try dsimp only
  repeat' first
      | with_reducible assumption | with_reducible apply State.modPart_keep | with_reducible apply State.sendTo_keep
      | with_reducible apply State.settleTargeted_keep | (with_reducible apply ok_foldl; intro _ _ _) | with_reducible apply ok_ite

theorem State.tellStarted_keep (I : Keep) (s : State) (p : Nat) (im : Image) (H_s : Ok I s) :
    Ok I (State.tellStarted s p im) := by
  unfold State.tellStarted; try dsimp only
  repeat' first | with_reducible assumption | with_reducible apply State.sendTo_keep | (with_reducible apply ok_foldl; intro _ _ _)

theorem execStartModel_keep (I : Keep) (c : Ctx) (payload : Bytes) (s : State) (H_s : Ok I s) :
    OkR I (execStartModel c payload s) := by
  unfold execStartModel; try dsimp only
  repeat' first
      | with_reducible assumption | with_reducible apply State.modelNo_keep | with_reducible apply State.modelOp_keep
      | with_reducible apply State.owe_keep | with_reducible apply State.stageTargeted_keep | with_reducible apply State.tellStarted_keep
      | with_reducible apply okR_next | with_reducible apply okR_ite | intro _ | split

theorem execStopModel_keep (I : Keep) (c : Ctx) (payload : Bytes) (s : State) (H_s : Ok I s) :
    OkR I (execStopModel c payload s) := by
  unfold execStopModel; try dsimp only
  repeat' first
      | with_reducible assumption | with_reducible apply State.modelNo_keep | with_reducible apply State.modelOp_keep
      | with_reducible apply State.owe_keep | with_reducible apply State.stageTargeted_keep | with_reducible apply okR_next
      | with_reducible apply okR_ite | intro _ | split

theorem execRemoveModel_keep (I : Keep) (c : Ctx) (payload : Bytes) (s : State) (H_s : Ok I s) :
    OkR I (execRemoveModel c payload s) := by
  unfold execRemoveModel; try dsimp only
  repeat' first
      | with_reducible assumption | with_reducible apply State.atOnce_keep | with_reducible apply State.layShards_keep
      | with_reducible apply State.modPart_keep | with_reducible apply State.modelNo_keep | with_reducible apply State.modelOp_keep
      | with_reducible apply State.removeImage_keep | with_reducible apply okR_next | with_reducible apply okR_ite | intro _

theorem execResetNotice_keep (I : Keep) (p : Nat) (stage : Nat) (s : State) (H_s : Ok I s) :
    OkR I (execResetNotice p stage s) := by
  unfold execResetNotice; try dsimp only
  repeat' first
      | with_reducible assumption | with_reducible apply State.modPart_keep | with_reducible apply impossible_keep | with_reducible apply require_keep
      | with_reducible apply okR_next | split

theorem State.dropReceived_keep (I : Keep) (s : State) (p : Nat) (H_s : Ok I s) :
    Ok I (State.dropReceived s p) := by
  unfold State.dropReceived; try dsimp only
  repeat' first | with_reducible assumption | with_reducible apply State.setVeolo_keep

theorem execAbortNotice_keep (I : Keep) (p : Nat) (count : Nat) (s : State) (H_s : Ok I s) :
    OkR I (execAbortNotice p count s) := by
  unfold execAbortNotice; try dsimp only
  repeat' first
      | with_reducible assumption | with_reducible apply State.abortStep_keep | with_reducible apply State.dropReceived_keep
      | with_reducible apply impossible_keep | with_reducible apply require_keep | with_reducible apply okR_next | with_reducible apply okR_ite
      | split

/-! ## Insets -/

theorem execSwapLayers_keep (I : Keep) (c : Ctx) (payload : Bytes) (s : State) (H_s : Ok I s) :
    OkR I (execSwapLayers c payload s) := by
  unfold execSwapLayers; try dsimp only
  repeat' first
      | with_reducible assumption | with_reducible apply State.modelNo_keep | with_reducible apply State.modelOp_keep
      | with_reducible apply State.owe_keep | with_reducible apply State.stageTargeted_keep | with_reducible apply okR_next
      | with_reducible apply okR_ite | intro _ | split

theorem execSwapReadComplete_keep (I : Keep) (p : Nat) (readable : Bool) (s : State) (H_s : Ok I s) :
    OkR I (execSwapReadComplete p readable s) := by
  unfold execSwapReadComplete; try dsimp only
  repeat' first
      | with_reducible assumption | with_reducible apply State.modPart_keep | with_reducible apply State.podFault_keep
      | with_reducible apply State.readLayer_keep | with_reducible apply State.refetchShard_keep | with_reducible apply State.settleModel_keep
      | with_reducible apply impossible_keep | with_reducible apply require_keep | with_reducible apply okR_next | split

theorem State.insetOp_keep (I : Keep) (s : State) (c : Ctx) (op : Nat) (body : State → Part → Image → Res) (H_s : Ok I s) (H_body : ∀ x0 x1 x2, Ok I x0 → OkR I (body x0 x1 x2)) :
    OkR I (State.insetOp s c op body) := by
  unfold State.insetOp; try dsimp only
  repeat' first
      | with_reducible assumption | with_reducible apply State.modelNo_keep | with_reducible apply State.modelOp_keep | apply H_body
      | with_reducible apply okR_ite | intro _ | split

theorem execInstallInset_keep (I : Keep) (c : Ctx) (payload : Bytes) (s : State) (H_s : Ok I s) :
    OkR I (execInstallInset c payload s) := by
  unfold execInstallInset; try dsimp only
  repeat' first
      | with_reducible assumption | with_reducible apply State.insetOp_keep | with_reducible apply State.modPart_keep
      | with_reducible apply State.modelNo_keep | with_reducible apply State.owe_keep | with_reducible apply State.setStamp_keep
      | with_reducible apply okR_next | with_reducible apply okR_ite | intro _ | split

theorem execInsetTimeout_keep (I : Keep) (p : Nat) (handle : Nat) (s : State) (H_s : Ok I s) :
    OkR I (execInsetTimeout p handle s) := by
  unfold execInsetTimeout; try dsimp only
  repeat' first
      | with_reducible assumption | with_reducible apply State.endInset_keep | with_reducible apply require_keep | with_reducible apply okR_next

theorem execRemoveInset_keep (I : Keep) (c : Ctx) (payload : Bytes) (s : State) (H_s : Ok I s) :
    OkR I (execRemoveInset c payload s) := by
  unfold execRemoveInset; try dsimp only
  repeat' first
      | with_reducible assumption | with_reducible apply State.insetOp_keep | with_reducible apply State.modPart_keep
      | with_reducible apply State.modelNo_keep | with_reducible apply State.owe_keep | with_reducible apply State.settleModel_keep
      | with_reducible apply okR_next | (with_reducible apply ok_foldl; intro _ _ _) | with_reducible apply okR_ite | intro _

theorem execLoadLendable_keep (I : Keep) (c : Ctx) (payload : Bytes) (s : State) (H_s : Ok I s) :
    OkR I (execLoadLendable c payload s) := by
  unfold execLoadLendable; try dsimp only
  repeat' first
      | with_reducible assumption | with_reducible apply State.modPart_keep | with_reducible apply State.modelNo_keep
      | with_reducible apply State.modelOp_keep | with_reducible apply State.owe_keep | with_reducible apply okR_next | with_reducible apply okR_ite
      | intro _

theorem execLendableCopyComplete_keep (I : Keep) (p : Nat) (s : State) (H_s : Ok I s) :
    OkR I (execLendableCopyComplete p s) := by
  unfold execLendableCopyComplete; try dsimp only
  repeat' first
      | with_reducible assumption | with_reducible apply State.podFault_keep | with_reducible apply State.putPart_keep
      | with_reducible apply State.settleModel_keep | with_reducible apply impossible_keep | with_reducible apply okR_next | split

theorem execShardScrub_keep (I : Keep) (p : Nat) (next : Bool) (mismatch : Bool) (s : State) (H_s : Ok I s) :
    OkR I (execShardScrub p next mismatch s) := by
  unfold execShardScrub; try dsimp only
  repeat' first
      | with_reducible assumption | with_reducible apply State.bump_keep | with_reducible apply State.ownerEvent_keep
      | with_reducible apply State.refetchShard_keep | with_reducible apply impossible_keep | with_reducible apply okR_next
      | with_reducible apply okR_ite | split

/-! ## Tiers -/

theorem execDramPatrolScrub_keep (I : Keep) (burst : Nat) (env : List Strike) (s : State) (H_s : Ok I s) :
    OkR I (execDramPatrolScrub burst env s) := by
  unfold execDramPatrolScrub; try dsimp only
  repeat' first
      | with_reducible assumption | with_reducible apply State.burstFind_keep | with_reducible apply State.strike_keep
      | with_reducible apply require_keep | with_reducible apply okR_next | with_reducible apply ok_ite

theorem execRefreshRatePoll_keep (I : Keep) (hottest : List Nat) (s : State) (H_s : Ok I s) :
    OkR I (execRefreshRatePoll hottest s) := by
  unfold execRefreshRatePoll; try dsimp only
  repeat' first
      | with_reducible assumption | with_reducible apply State.devEvent_keep | with_reducible apply State.setDram_keep
      | with_reducible apply require_keep | with_reducible apply okR_next | (with_reducible apply ok_foldl; intro _ _ _) | with_reducible apply ok_ite

theorem execRefreshWindow_keep (I : Keep) (package : Nat) (s : State) (H_s : Ok I s) :
    OkR I (execRefreshWindow package s) := by
  unfold execRefreshWindow; try dsimp only
  repeat' first
      | with_reducible assumption | with_reducible apply State.setDram_keep | with_reducible apply require_keep | with_reducible apply okR_next

theorem execDramCalibration_keep (I : Keep) (channel : Nat) (good : Bool) (s : State) (H_s : Ok I s) :
    OkR I (execDramCalibration channel good s) := by
  unfold execDramCalibration; try dsimp only
  repeat' first
      | with_reducible assumption | with_reducible apply State.setDram_keep | with_reducible apply State.sharedEvent_keep
      | with_reducible apply require_keep | with_reducible apply okR_next | with_reducible apply okR_ite

theorem execNandChannelFail_keep (I : Keep) (channel : Nat) (s : State) (H_s : Ok I s) :
    OkR I (execNandChannelFail channel s) := by
  unfold execNandChannelFail; try dsimp only
  repeat' first
      | with_reducible assumption | with_reducible apply State.setNand_keep | with_reducible apply State.sharedEvent_keep
      | with_reducible apply require_keep | with_reducible apply okR_next

theorem execMapSave_keep (I : Keep) (s : State) (H_s : Ok I s) :
    OkR I (execMapSave s) := by
  unfold execMapSave; try dsimp only
  repeat' first
      | with_reducible assumption | with_reducible apply State.freeBlocks_keep | with_reducible apply State.saveMap_keep
      | with_reducible apply require_keep | with_reducible apply okR_next

theorem State.eraseBlock_keep (I : Keep) (s : State) (b : Nat) (H_s : Ok I s) :
    Ok I (State.eraseBlock s b) := by
  unfold State.eraseBlock; try dsimp only
  repeat' first | with_reducible assumption | with_reducible apply State.setNand_keep

theorem execReadDisturbRefresh_keep (I : Keep) (block : Nat) (s : State) (H_s : Ok I s) :
    OkR I (execReadDisturbRefresh block s) := by
  unfold execReadDisturbRefresh; try dsimp only
  repeat' first
      | with_reducible assumption | with_reducible apply State.bump_keep | with_reducible apply State.eraseBlock_keep
      | with_reducible apply State.freeBlocks_keep | with_reducible apply require_keep | with_reducible apply okR_next

theorem execRetentionPatrol_keep (J : KeepAll) (block : Nat) (retries : List Nat) (now : Nat) (s : State) (H_s : Ok J.toKeep s) :
    OkR J.toKeep (execRetentionPatrol block retries now s) := by
  unfold execRetentionPatrol; try dsimp only
  repeat' first
      | with_reducible assumption | with_reducible apply State.bump_keep | with_reducible apply State.eraseBlock_keep
      | with_reducible apply State.freeBlocks_keep | with_reducible apply State.setNand_keep | with_reducible apply require_keep
      | with_reducible apply State.at_keep | with_reducible apply okR_next | with_reducible apply ok_ite

theorem execGarbageCollection_keep (I : Keep) (blocks : List Nat) (s : State) (H_s : Ok I s) :
    OkR I (execGarbageCollection blocks s) := by
  unfold execGarbageCollection; try dsimp only
  repeat' first
      | with_reducible assumption | with_reducible apply State.bump_keep | with_reducible apply State.eraseBlock_keep
      | with_reducible apply State.freeBlocks_keep | with_reducible apply require_keep | with_reducible apply okR_next
      | (with_reducible apply ok_foldl; intro _ _ _)

theorem execWearLevelling_keep (I : Keep) (block : Nat) (s : State) (H_s : Ok I s) :
    OkR I (execWearLevelling block s) := by
  unfold execWearLevelling; try dsimp only
  repeat' first
      | with_reducible assumption | with_reducible apply State.freeBlocks_keep | with_reducible apply State.setNand_keep
      | with_reducible apply require_keep | with_reducible apply okR_next

theorem execNandOperationComplete_keep (I : Keep) (die : Nat) (s : State) (H_s : Ok I s) :
    OkR I (execNandOperationComplete die s) := by
  unfold execNandOperationComplete; try dsimp only
  repeat' first
      | with_reducible assumption | with_reducible apply State.setNand_keep | with_reducible apply require_keep | with_reducible apply okR_next

theorem execPauseAreaResize_keep (I : Keep) (s : State) (H_s : Ok I s) :
    OkR I (execPauseAreaResize s) := by
  unfold execPauseAreaResize; try dsimp only
  repeat' first
      | with_reducible assumption | with_reducible apply State.setNand_keep | with_reducible apply impossible_keep | with_reducible apply require_keep
      | with_reducible apply okR_next | split

theorem execLoanGrant_keep (I : Keep) (p : Nat) (link : Nat) (extents : Nat) (answer : Status) (s : State) (H_s : Ok I s) :
    OkR I (execLoanGrant p link extents answer s) := by
  unfold execLoanGrant; try dsimp only
  repeat' first
      | with_reducible assumption | with_reducible apply State.modPart_keep | with_reducible apply State.pushGo_keep
      | with_reducible apply State.settleAll_keep | with_reducible apply impossible_keep | with_reducible apply require_keep
      | with_reducible apply okR_next | with_reducible apply okR_ite | split

theorem State.modLoan_keep (I : Keep) (s : State) (p : Nat) (id : Nat) (f : Loan → Loan) (H_s : Ok I s) :
    Ok I (State.modLoan s p id f) := by
  unfold State.modLoan; try dsimp only
  repeat' first | with_reducible assumption | with_reducible apply State.modPart_keep

theorem State.onLoan_keep (I : Keep) (s : State) (p : Nat) (id : Nat) (ok : Loan → Bool) (body : Loan → Res) (H_s : Ok I s) (H_body : ∀ x0, OkR I (body x0)) :
    OkR I (State.onLoan s p id ok body) := by
  unfold State.onLoan; try dsimp only
  repeat' first | with_reducible apply impossible_keep | with_reducible apply require_keep | apply H_body | split

theorem execReclaimNotice_keep (I : Keep) (p : Nat) (loan : Nat) (s : State) (H_s : Ok I s) :
    OkR I (execReclaimNotice p loan s) := by
  unfold execReclaimNotice; try dsimp only
  repeat' first
      | with_reducible assumption | with_reducible apply State.modLoan_keep | with_reducible apply State.onLoan_keep | with_reducible apply okR_next
      | intro _

theorem execGraceExpiry_keep (I : Keep) (p : Nat) (loan : Nat) (s : State) (H_s : Ok I s) :
    OkR I (execGraceExpiry p loan s) := by
  unfold execGraceExpiry; try dsimp only
  repeat' first
      | with_reducible assumption | with_reducible apply State.modLoan_keep | with_reducible apply State.onLoan_keep | with_reducible apply okR_next
      | intro _

theorem State.moveCacheOut_keep (I : Keep) (s : State) (p : Nat) (h : Nat) (H_s : Ok I s) :
    Ok I (State.moveCacheOut s p h) := by
  unfold State.moveCacheOut; try dsimp only
  repeat' first
      | with_reducible assumption | with_reducible apply State.fillRestored_keep | with_reducible apply State.modPart_keep
      | with_reducible apply State.nandPauseWrite_keep | with_reducible apply State.takeMoved_keep | with_reducible apply ok_ite | split
      | (with_reducible apply okP_get; assumption)

theorem execLoanMovesEnd_keep (I : Keep) (p : Nat) (loan : Nat) (s : State) (H_s : Ok I s) :
    OkR I (execLoanMovesEnd p loan s) := by
  unfold execLoanMovesEnd; try dsimp only
  repeat' first
      | with_reducible assumption | with_reducible apply State.modLoan_keep | with_reducible apply State.moveCacheOut_keep
      | with_reducible apply State.onLoan_keep | with_reducible apply okR_next | (with_reducible apply ok_foldl; intro _ _ _) | intro _

theorem execLentMemoryRequest_keep (I : Keep) (link : Nat) (loan : Nat) (off : Nat) (write : Option Bytes) (len : Nat) (cls : Nat) (s : State) (H_s : Ok I s) :
    OkR I (execLentMemoryRequest link loan off write len cls s) := by
  unfold execLentMemoryRequest; try dsimp only
  repeat' first
      | with_reducible assumption | with_reducible apply State.bump_keep | with_reducible apply State.burstFind_keep
      | with_reducible apply State.sendOn_keep | with_reducible apply State.touch_keep | with_reducible apply State.writeRuns_keep
      | with_reducible apply impossible_keep | with_reducible apply require_keep | with_reducible apply okR_next
      | (with_reducible apply ok_foldl; intro _ _ _) | (with_reducible apply ok_foldl1; intro _ _ _) | with_reducible apply okR_ite | split

/-! ## LinkCmds -/

theorem execLinkLossOfSignal_keep (I : Keep) (link : Nat) (s : State) (H_s : Ok I s) :
    OkR I (execLinkLossOfSignal link s) := by
  unfold execLinkLossOfSignal; try dsimp only
  repeat' first
      | with_reducible assumption | with_reducible apply State.linkDown_keep | with_reducible apply require_keep | with_reducible apply okR_next
      | with_reducible apply ok_ite

theorem execLinkSignalDetect_keep (I : Keep) (link : Nat) (s : State) (H_s : Ok I s) :
    OkR I (execLinkSignalDetect link s) := by
  unfold execLinkSignalDetect; try dsimp only
  repeat' first
      | with_reducible assumption | with_reducible apply State.modLink_keep | with_reducible apply require_keep | with_reducible apply okR_next
      | with_reducible apply ok_ite

theorem execHail_keep (I : Keep) (link : Nat) (rank : Nat) (s : State) (H_s : Ok I s) :
    OkR I (execHail link rank s) := by
  unfold execHail; try dsimp only
  repeat' first
      | with_reducible assumption | with_reducible apply State.devEvent_keep | with_reducible apply State.linkTrains_keep
      | with_reducible apply State.modLink_keep | with_reducible apply require_keep | with_reducible apply okR_next | with_reducible apply okR_ite

theorem execHailTimeout_keep (I : Keep) (link : Nat) (s : State) (H_s : Ok I s) :
    OkR I (execHailTimeout link s) := by
  unfold execHailTimeout; try dsimp only
  repeat' first
      | with_reducible assumption | with_reducible apply State.modLink_keep | with_reducible apply require_keep | with_reducible apply okR_next

theorem execBackoffExpiry_keep (I : Keep) (link : Nat) (s : State) (H_s : Ok I s) :
    OkR I (execBackoffExpiry link s) := by
  unfold execBackoffExpiry; try dsimp only
  repeat' first
      | with_reducible assumption | with_reducible apply State.modLink_keep | with_reducible apply require_keep | with_reducible apply okR_next

theorem execTrainComplete_keep (I : Keep) (link : Nat) (peer : PeerInfo) (s : State) (H_s : Ok I s) :
    OkR I (execTrainComplete link peer s) := by
  unfold execTrainComplete; try dsimp only
  repeat' first
      | with_reducible assumption | with_reducible apply State.devEvent_keep | with_reducible apply State.electMaster_keep
      | with_reducible apply State.modLink_keep | with_reducible apply State.refreshNbr_keep | with_reducible apply require_keep
      | with_reducible apply okR_next | with_reducible apply ok_ite

theorem execTrainTimeout_keep (I : Keep) (link : Nat) (s : State) (H_s : Ok I s) :
    OkR I (execTrainTimeout link s) := by
  unfold execTrainTimeout; try dsimp only
  repeat' first
      | with_reducible assumption | with_reducible apply State.linkDown_keep | with_reducible apply require_keep | with_reducible apply okR_next

theorem execFastRetrain_keep (I : Keep) (link : Nat) (s : State) (H_s : Ok I s) :
    OkR I (execFastRetrain link s) := by
  unfold execFastRetrain; try dsimp only
  repeat' first
      | with_reducible assumption | with_reducible apply State.linkTrains_keep | with_reducible apply require_keep | with_reducible apply okR_next

theorem execFastRetrainComplete_keep (I : Keep) (link : Nat) (s : State) (H_s : Ok I s) :
    OkR I (execFastRetrainComplete link s) := by
  unfold execFastRetrainComplete; try dsimp only
  repeat' first
      | with_reducible assumption | with_reducible apply State.modLink_keep | with_reducible apply State.refreshNbr_keep
      | with_reducible apply require_keep | with_reducible apply okR_next

theorem execFastRetrainTimeout_keep (I : Keep) (link : Nat) (s : State) (H_s : Ok I s) :
    OkR I (execFastRetrainTimeout link s) := by
  unfold execFastRetrainTimeout; try dsimp only
  repeat' first
      | with_reducible assumption | with_reducible apply State.linkDown_keep | with_reducible apply require_keep | with_reducible apply okR_next

theorem State.refuseFlit_keep (I : Keep) (s : State) (i : Nat) (crc : Bool) (H_s : Ok I s) :
    Ok I (State.refuseFlit s i crc) := by
  unfold State.refuseFlit; try dsimp only
  repeat' first
      | with_reducible assumption | with_reducible apply State.bump_keep | with_reducible apply State.modLink_keep | with_reducible apply ok_ite

theorem execFlit_keep (I : Keep) (link : Nat) (f : Flit) (env : List Strike) (s : State) (H_s : Ok I s) :
    OkR I (execFlit link f env s) := by
  unfold execFlit; try dsimp only
  repeat' first
      | with_reducible assumption | with_reducible apply State.modLink_keep | with_reducible apply State.pathErrors_keep
      | with_reducible apply State.pumpAll_keep | with_reducible apply State.pumpPair_keep | with_reducible apply State.refuseFlit_keep
      | with_reducible apply State.strike_keep | with_reducible apply State.sweepInbox_keep | with_reducible apply State.takeFlit_keep
      | with_reducible apply require_keep | with_reducible apply okR_next | with_reducible apply okR_ite | with_reducible apply ok_ite

theorem execNak_keep (I : Keep) (link : Nat) (seq : Nat) (s : State) (H_s : Ok I s) :
    OkR I (execNak link seq s) := by
  unfold execNak; try dsimp only
  repeat' first
      | with_reducible assumption | with_reducible apply State.bump_keep | with_reducible apply State.linkTrains_keep
      | with_reducible apply State.modLink_keep | with_reducible apply State.pumpPair_keep | with_reducible apply require_keep
      | with_reducible apply okR_next | with_reducible apply ok_ite | split

theorem execCreditReturn_keep (I : Keep) (link : Nat) (cls : LClass) (s : State) (H_s : Ok I s) :
    OkR I (execCreditReturn link cls s) := by
  unfold execCreditReturn; try dsimp only
  repeat' first
      | with_reducible assumption | with_reducible apply State.modLink_keep | with_reducible apply State.pumpPair_keep
      | with_reducible apply require_keep | with_reducible apply okR_next

theorem execTimeMarker_keep (J : KeepAll) (link : Nat) (t1 : Int) (t2 : Int) (t3 : Int) (t4 : Int) (s : State) (H_s : Ok J.toKeep s) :
    OkR J.toKeep (execTimeMarker link t1 t2 t3 t4 s) := by
  unfold execTimeMarker; try dsimp only
  repeat' first
      | with_reducible assumption | with_reducible apply State.setVeolo_keep | with_reducible apply require_keep
      | with_reducible apply State.setNow_keep | with_reducible apply okR_next | with_reducible apply okR_ite | with_reducible apply ok_ite

theorem execTimeAligned_keep (I : Keep) (s : State) (H_s : Ok I s) :
    OkR I (execTimeAligned s) := by
  unfold execTimeAligned; try dsimp only
  repeat' first
      | with_reducible assumption | with_reducible apply State.sendMessage_keep | with_reducible apply State.setVeolo_keep
      | with_reducible apply require_keep | with_reducible apply okR_next | (with_reducible apply ok_foldl; intro _ _ _)

theorem execLeaveNotice_keep (I : Keep) (dir : Nat) (s : State) (H_s : Ok I s) :
    OkR I (execLeaveNotice dir s) := by
  unfold execLeaveNotice; try dsimp only
  repeat' first
      | with_reducible assumption | with_reducible apply State.loseNeighbour_keep | with_reducible apply State.settleAll_keep
      | with_reducible apply require_keep | with_reducible apply okR_next

theorem execNeighbourLost_keep (I : Keep) (dir : Nat) (s : State) (H_s : Ok I s) :
    OkR I (execNeighbourLost dir s) := by
  unfold execNeighbourLost; try dsimp only
  repeat' first
      | with_reducible assumption | with_reducible apply State.loseNeighbour_keep | with_reducible apply State.settleAll_keep
      | with_reducible apply require_keep | with_reducible apply okR_next

/-! ## Resets -/

theorem State.clearWork_keep (J : KeepAll) (s : State) (H_s : Ok J.toKeep s) :
    Ok J.toKeep (State.clearWork s) := by
  unfold State.clearWork; try dsimp only
  repeat' first
      | (exact fun _ => rfl) | with_reducible assumption | with_reducible apply State.setDramMem_keep | with_reducible apply State.setDram_keep
      | with_reducible apply State.setKeeper_keep | with_reducible apply State.setLender_keep | with_reducible apply State.setLesar_keep
      | with_reducible apply State.setNand_keep | with_reducible apply State.setPods_keep | with_reducible apply State.setScratch_keep
      | with_reducible apply State.setTiles_keep | with_reducible apply State.setTombs_keep | with_reducible apply State.setWalks_keep
      | with_reducible apply State.setParts_keep

theorem State.coreReset_keep (J : KeepAll) (s : State) (code : Nat) (activation : Bool) (H_s : Ok J.toKeep s) :
    Ok J.toKeep (State.coreReset s code activation) := by
  unfold State.coreReset; try dsimp only
  repeat' first
      | with_reducible assumption | with_reducible apply State.clearWork_keep | with_reducible apply State.electMaster_keep
      | with_reducible apply State.putReg_keep | with_reducible apply State.resetBlock_keep | with_reducible apply State.setDev_keep
      | with_reducible apply State.setFlash_keep | with_reducible apply State.setSmb_keep | with_reducible apply State.setSurvey_keep
      | with_reducible apply State.setVeolo_keep | (with_reducible apply ok_foldl; intro _ _ _)

theorem State.clearAll_keep (J : KeepAll) (s : State) (guard : Guard) (regs : NMap Word) (H_s : Ok J.toKeep s) :
    Ok J.toKeep (State.clearAll s guard regs) := by
  unfold State.clearAll; try dsimp only
  repeat' first
      | with_reducible assumption | with_reducible apply State.clearWork_keep | with_reducible apply State.setEth_keep
      | with_reducible apply State.setFlash_keep | with_reducible apply State.setGuard_keep | with_reducible apply State.setLesar_keep
      | with_reducible apply State.setNand_keep | with_reducible apply State.setRegs_keep | with_reducible apply State.setSmb_keep
      | with_reducible apply State.setSurvey_keep | with_reducible apply State.setTimeHi_keep | with_reducible apply State.setVeolo_keep

theorem State.systemReset_keep (J : KeepAll) (s : State) (code : Nat) (hold : Option Hold) (H_s : Ok J.toKeep s) :
    Ok J.toKeep (State.systemReset s code hold) := by
  unfold State.systemReset; try dsimp only
  repeat' first
      | with_reducible assumption | with_reducible apply State.clearAll_keep | with_reducible apply State.setDev_keep | with_reducible apply ok_ite
      | split

theorem State.releaseHold_keep (I : Keep) (s : State) (h : Hold) (H_s : Ok I s) :
    Ok I (State.releaseHold s h) := by
  unfold State.releaseHold; try dsimp only
  repeat' first | with_reducible assumption | with_reducible apply State.setDev_keep | with_reducible apply ok_ite

theorem execCoreReset_keep (J : KeepAll) (s : State) (H_s : Ok J.toKeep s) :
    OkR J.toKeep (execCoreReset s) := by
  unfold execCoreReset; try dsimp only
  repeat' first
      | with_reducible assumption | with_reducible apply State.coreReset_keep | with_reducible apply impossible_keep
      | with_reducible apply require_keep | with_reducible apply okR_next | split

theorem execSystemReset_keep (J : KeepAll) (s : State) (H_s : Ok J.toKeep s) :
    OkR J.toKeep (execSystemReset s) := by
  unfold execSystemReset; try dsimp only
  repeat' first
      | with_reducible assumption | with_reducible apply State.systemReset_keep | with_reducible apply impossible_keep
      | with_reducible apply require_keep | with_reducible apply okR_next | split

theorem State.powerOff_keep (J : KeepAll) (s : State) (H_s : Ok J.toKeep s) :
    Ok J.toKeep (State.powerOff s) := by
  unfold State.powerOff; try dsimp only
  repeat' first | with_reducible assumption | with_reducible apply State.clearAll_keep | with_reducible apply State.setDev_keep

theorem execPowerOnReset_keep (J : KeepAll) (s : State) (H_s : Ok J.toKeep s) :
    OkR J.toKeep (execPowerOnReset s) := by
  unfold execPowerOnReset; try dsimp only
  repeat' first
      | with_reducible assumption | with_reducible apply State.clearAll_keep | with_reducible apply State.setDev_keep
      | with_reducible apply require_keep | with_reducible apply okR_next

theorem execResetN_keep (J : KeepAll) (s : State) (H_s : Ok J.toKeep s) :
    OkR J.toKeep (execResetN s) := by
  unfold execResetN; try dsimp only
  repeat' first
      | with_reducible assumption | with_reducible apply State.systemReset_keep | with_reducible apply require_keep | with_reducible apply okR_next

theorem execResetNRelease_keep (I : Keep) (s : State) (H_s : Ok I s) :
    OkR I (execResetNRelease s) := by
  unfold execResetNRelease; try dsimp only
  repeat' first
      | with_reducible assumption | with_reducible apply State.releaseHold_keep | with_reducible apply require_keep | with_reducible apply okR_next

theorem execWatchdogExpiry_keep (J : KeepAll) (s : State) (H_s : Ok J.toKeep s) :
    OkR J.toKeep (execWatchdogExpiry s) := by
  unfold execWatchdogExpiry; try dsimp only
  repeat' first
      | with_reducible assumption | with_reducible apply State.systemReset_keep | with_reducible apply require_keep | with_reducible apply okR_next

theorem execWatchdogRestart_keep (I : Keep) (s : State) (H_s : Ok I s) :
    OkR I (execWatchdogRestart s) := by
  unfold execWatchdogRestart; try dsimp only
  repeat' first
      | with_reducible assumption | with_reducible apply State.setDev_keep | with_reducible apply require_keep | with_reducible apply okR_next

theorem execClockLoss_keep (J : KeepAll) (s : State) (H_s : Ok J.toKeep s) :
    OkR J.toKeep (execClockLoss s) := by
  unfold execClockLoss; try dsimp only
  repeat' first
      | with_reducible assumption | with_reducible apply State.systemReset_keep | with_reducible apply require_keep | with_reducible apply okR_next

theorem execClockRecovery_keep (I : Keep) (s : State) (H_s : Ok I s) :
    OkR I (execClockRecovery s) := by
  unfold execClockRecovery; try dsimp only
  repeat' first
      | with_reducible assumption | with_reducible apply State.releaseHold_keep | with_reducible apply State.setDev_keep
      | with_reducible apply require_keep | with_reducible apply okR_next

theorem execUnderVoltageWarning_keep (I : Keep) (s : State) (H_s : Ok I s) :
    OkR I (execUnderVoltageWarning s) := by
  unfold execUnderVoltageWarning; try dsimp only
  repeat' first
      | with_reducible assumption | with_reducible apply State.setDev_keep | with_reducible apply State.setSmb_keep
      | with_reducible apply require_keep | with_reducible apply okR_next

theorem execUnderVoltageFault_keep (J : KeepAll) (s : State) (H_s : Ok J.toKeep s) :
    OkR J.toKeep (execUnderVoltageFault s) := by
  unfold execUnderVoltageFault; try dsimp only
  repeat' first
      | with_reducible assumption | with_reducible apply State.powerOff_keep | with_reducible apply require_keep | with_reducible apply okR_next

theorem execOverVoltageWarning_keep (I : Keep) (s : State) (H_s : Ok I s) :
    OkR I (execOverVoltageWarning s) := by
  unfold execOverVoltageWarning; try dsimp only
  repeat' first
      | with_reducible assumption | with_reducible apply State.setDev_keep | with_reducible apply State.setSmb_keep
      | with_reducible apply require_keep | with_reducible apply okR_next

theorem execOverVoltageFault_keep (J : KeepAll) (s : State) (H_s : Ok J.toKeep s) :
    OkR J.toKeep (execOverVoltageFault s) := by
  unfold execOverVoltageFault; try dsimp only
  repeat' first
      | with_reducible assumption | with_reducible apply State.setSmb_keep | with_reducible apply State.systemReset_keep
      | with_reducible apply require_keep | with_reducible apply okR_next

theorem execOverVoltageRecovery_keep (I : Keep) (s : State) (H_s : Ok I s) :
    OkR I (execOverVoltageRecovery s) := by
  unfold execOverVoltageRecovery; try dsimp only
  repeat' first
      | with_reducible assumption | with_reducible apply State.releaseHold_keep | with_reducible apply require_keep | with_reducible apply okR_next

theorem execVoltageWarningEnd_keep (I : Keep) (high : Bool) (s : State) (H_s : Ok I s) :
    OkR I (execVoltageWarningEnd high s) := by
  unfold execVoltageWarningEnd; try dsimp only
  repeat' first
      | with_reducible assumption | with_reducible apply State.setDev_keep | with_reducible apply require_keep | with_reducible apply okR_next
      | with_reducible apply okR_ite

theorem State.guardCounts_keep (I : Keep) (s : State) (old : Guard) (new : Guard) (H_s : Ok I s) :
    Ok I (State.guardCounts s old new) := by
  unfold State.guardCounts; try dsimp only
  repeat' first
      | with_reducible assumption | with_reducible apply State.bump_keep | with_reducible apply State.setGuard_keep | with_reducible apply ok_ite

theorem State.guardEvent_keep (I : Keep) (s : State) (old : Guard) (new : Guard) (H_s : Ok I s) :
    Ok I (State.guardEvent s old new) := by
  unfold State.guardEvent; try dsimp only
  repeat' first | with_reducible assumption | with_reducible apply State.devEvent_keep | with_reducible apply ok_ite

theorem execGuardSample_keep (J : KeepAll) (g : GuardReading) (s : State) (H_s : Ok J.toKeep s) :
    OkR J.toKeep (execGuardSample g s) := by
  unfold execGuardSample; try dsimp only
  repeat' first
      | with_reducible assumption | with_reducible apply State.guardCounts_keep | with_reducible apply State.guardEvent_keep
      | with_reducible apply State.setGuard_keep | with_reducible apply State.setSmb_keep | with_reducible apply State.systemReset_keep
      | with_reducible apply require_keep | with_reducible apply State.at_keep | with_reducible apply okR_next | with_reducible apply okR_ite
      | with_reducible apply ok_ite

theorem execTripRelease_keep (I : Keep) (s : State) (H_s : Ok I s) :
    OkR I (execTripRelease s) := by
  unfold execTripRelease; try dsimp only
  repeat' first
      | with_reducible assumption | with_reducible apply State.releaseHold_keep | with_reducible apply require_keep | with_reducible apply okR_next

/-! ## Sessions -/

theorem State.closeSession_keep (I : Keep) (s : State) (n : Nat) (H_s : Ok I s) :
    Ok I (State.closeSession s n) := by
  unfold State.closeSession; try dsimp only
  repeat' first
      | with_reducible assumption | with_reducible apply State.sessionWorkClosed_keep | with_reducible apply State.setDev_keep
      | with_reducible apply State.setFlash_keep | with_reducible apply State.setKeeper_keep | with_reducible apply State.setLesar_keep
      | with_reducible apply State.setSurvey_keep | with_reducible apply ok_ite | with_reducible apply State.mapParts_keep

theorem State.pumpSession_keep (I : Keep) (s : State) (n : Nat) (y0 : Nat) (H_s : Ok I s) :
    Ok I (State.pumpSession s n y0) := by
  induction y0 generalizing s n with
  | zero =>
    unfold State.pumpSession; try dsimp only
    repeat' first | with_reducible assumption
  | succ n ih =>
    unfold State.pumpSession; try dsimp only
    repeat' first
        | with_reducible assumption | with_reducible apply ih | with_reducible apply State.modSession_keep | with_reducible apply State.sendSeq_keep
        | with_reducible apply ok_ite | split

theorem State.acknowledge_keep (I : Keep) (s : State) (n : Nat) (a : Nat) (H_s : Ok I s) :
    Ok I (State.acknowledge s n a) := by
  unfold State.acknowledge; try dsimp only
  repeat' first
      | with_reducible assumption | with_reducible apply State.modSession_keep | with_reducible apply State.pumpSession_keep
      | with_reducible apply ok_ite | split

theorem State.sendAck_keep (I : Keep) (s : State) (n : Nat) (H_s : Ok I s) :
    Ok I (State.sendAck s n) := by
  unfold State.sendAck; try dsimp only
  repeat' first | with_reducible assumption | with_reducible apply State.sendBare_keep | split

theorem State.refuseHeader_keep (I : Keep) (s : State) (via : Via) (gen : Nat) (sess : Nat) (part : Nat) (handle : Nat) (op : Nat) (st : Status) (H_s : Ok I s) :
    Ok I (State.refuseHeader s via gen sess part handle op st) := by
  unfold State.refuseHeader; try dsimp only
  repeat' first | with_reducible assumption | with_reducible apply State.sendBare_keep

theorem State.heardOn_keep (I : Keep) (s : State) (n : Nat) (via : Via) (H_s : Ok I s) :
    Ok I (State.heardOn s n via) := by
  unfold State.heardOn; try dsimp only
  repeat' first | with_reducible assumption | with_reducible apply State.modSession_keep

theorem execAck_keep (I : Keep) (via : Via) (sess : Nat) (ackNum : Nat) (s : State) (H_s : Ok I s) :
    OkR I (execAck via sess ackNum s) := by
  unfold execAck; try dsimp only
  repeat' first
      | with_reducible assumption | with_reducible apply State.acknowledge_keep | with_reducible apply State.heardOn_keep
      | with_reducible apply State.refuseHeader_keep | with_reducible apply okR_next | with_reducible apply okR_ite

theorem execRetransmitTimeout_keep (I : Keep) (sess : Nat) (seq : Nat) (s : State) (H_s : Ok I s) :
    OkR I (execRetransmitTimeout sess seq s) := by
  unfold execRetransmitTimeout; try dsimp only
  repeat' first
      | with_reducible assumption | with_reducible apply State.bump_keep | with_reducible apply State.closeSession_keep
      | with_reducible apply State.modSession_keep | with_reducible apply State.transmit_keep | with_reducible apply impossible_keep
      | with_reducible apply okR_next | with_reducible apply okR_ite | split

theorem execSessionIdleTimeout_keep (I : Keep) (sess : Nat) (s : State) (H_s : Ok I s) :
    OkR I (execSessionIdleTimeout sess s) := by
  unfold execSessionIdleTimeout; try dsimp only
  repeat' first
      | with_reducible assumption | with_reducible apply State.closeSession_keep | with_reducible apply require_keep | with_reducible apply okR_next

theorem execCloseSession_keep (I : Keep) (c : Ctx) (payload : Bytes) (s : State) (H_s : Ok I s) :
    OkR I (execCloseSession c payload s) := by
  unfold execCloseSession; try dsimp only
  repeat' first
      | with_reducible assumption | with_reducible apply State.answer_keep | with_reducible apply State.closeSession_keep
      | with_reducible apply State.reply_keep | with_reducible apply State.serve_keep | with_reducible apply okR_next | with_reducible apply okR_ite
      | intro _

theorem State.decideRole_keep (I : Keep) (s : State) (part : Nat) (isn : Nat) (cred : Bytes) (H_s : Ok I s) :
    Ok I ((State.decideRole s part isn cred).1) := by
  unfold State.decideRole; try dsimp only
  repeat' first
      | with_reducible assumption | with_reducible apply State.bump_keep | with_reducible apply State.modPart_keep
      | with_reducible apply State.setKeeper_keep | split

theorem State.answerOpen_keep (I : Keep) (s : State) (via : Via) (c : Ctx) (gen : Nat) (st : Status) (pl : Bytes) (H_s : Ok I s) :
    Ok I (State.answerOpen s via c gen st pl) := by
  unfold State.answerOpen; try dsimp only
  repeat' first | with_reducible assumption | with_reducible apply State.sendBare_keep

theorem State.newSession_keep (I : Keep) (s : State) (via : Via) (c : Ctx) (gen : Nat) (payload : Bytes) (role : Role) (H_s : Ok I s) :
    Ok I (State.newSession s via c gen payload role) := by
  unfold State.newSession; try dsimp only
  repeat' first
      | with_reducible assumption | with_reducible apply State.fresh_keep | with_reducible apply State.sendBare_keep
      | with_reducible apply State.setLesar_keep

theorem execOpenSession_keep (I : Keep) (via : Via) (c : Ctx) (retry : Bool) (gen : Nat) (payload : Bytes) (s : State) (H_s : Ok I s) :
    OkR I (execOpenSession via c retry gen payload s) := by
  unfold execOpenSession; try dsimp only
  repeat' first
      | with_reducible assumption | with_reducible apply State.answerOpen_keep | with_reducible apply State.decideRole_keep
      | with_reducible apply State.newSession_keep | with_reducible apply State.sendBare_keep | with_reducible apply okR_next
      | with_reducible apply okR_ite | split | (with_reducible apply ok_fst; assumption)

theorem execEventRegister_keep (I : Keep) (c : Ctx) (payload : Bytes) (s : State) (H_s : Ok I s) :
    OkR I (execEventRegister c payload s) := by
  unfold execEventRegister; try dsimp only
  repeat' first
      | with_reducible assumption | with_reducible apply State.answer_keep | with_reducible apply State.flushEvents_keep
      | with_reducible apply State.putEvtStream_keep | with_reducible apply State.reply_keep | with_reducible apply State.serve_keep
      | with_reducible apply okR_next | (with_reducible apply ok_foldl; intro _ _ _) | with_reducible apply okR_ite | with_reducible apply ok_ite
      | intro _

theorem execEventHoldExpiry_keep (I : Keep) (stream : Nat) (s : State) (H_s : Ok I s) :
    OkR I (execEventHoldExpiry stream s) := by
  unfold execEventHoldExpiry; try dsimp only
  repeat' first
      | with_reducible assumption | with_reducible apply State.flushEvents_keep | with_reducible apply require_keep | with_reducible apply okR_next

/-! ## Lesar -/

theorem andThen_keep (I : Keep) (r : Res) (f : State → Res) (H_r : OkR I r) (H_f : ∀ x0, Ok I x0 → OkR I (f x0)) : OkR I (andThen r f) := by
  cases r with
  | next s => exact H_f s (H_r.get s rfl)
  | fault e => exact okR_fault
  | refused e => exact okR_refused

theorem State.runData_keep (I : Keep) (s : State) (c : Ctx) (op : Nat) (pl : Bytes) (H_s : Ok I s) :
    OkR I (State.runData s c op pl) := by
  unfold State.runData; try dsimp only
  repeat' first
      | with_reducible assumption | with_reducible apply State.answer_keep | with_reducible apply execAppendTokens_keep
      | with_reducible apply execCancelRequest_keep | with_reducible apply execCloseStream_keep | with_reducible apply execOpenRequest_keep
      | with_reducible apply execOpenStream_keep | with_reducible apply execParkStream_keep | with_reducible apply execPauseRequest_keep
      | with_reducible apply execResumeRequest_keep | with_reducible apply execShardData_keep | with_reducible apply execStreamChunk_keep | split

theorem State.runMgmt_keep (I : Keep) (s : State) (gen : Nat) (c : Ctx) (op : Nat) (pl : Bytes) (H_s : Ok I s) :
    OkR I (State.runMgmt s gen c op pl) := by
  unfold State.runMgmt; try dsimp only
  repeat' first
      | with_reducible assumption | with_reducible apply State.setLesar_keep | with_reducible apply execCloseSession_keep
      | with_reducible apply execEventRegister_keep | with_reducible apply execRegRead_keep | with_reducible apply execRegWrite_keep
      | with_reducible apply okR_next | split

theorem State.setSwallow_keep (I : Keep) (s : State) (n : Nat) (b : Bool) (H_s : Ok I s) :
    Ok I (State.setSwallow s n b) := by
  unfold State.setSwallow; try dsimp only
  repeat' first | with_reducible assumption | with_reducible apply State.modSession_keep

theorem State.refuseMessage_keep (I : Keep) (s : State) (m : Mbox) (H_s : Ok I s) :
    Ok I (State.refuseMessage s m) := by
  unfold State.refuseMessage; try dsimp only
  repeat' first | with_reducible assumption | with_reducible apply State.reply_keep | with_reducible apply State.setLesar_keep

theorem State.beginMessage_keep (I : Keep) (s : State) (gen : Nat) (c : Ctx) (op : Nat) (pl : Bytes) (there : Bool) (last : Bool) (H_s : Ok I s) :
    OkR I (State.beginMessage s gen c op pl there last) := by
  unfold State.beginMessage; try dsimp only
  repeat' first
      | with_reducible assumption | with_reducible apply State.reply_keep | with_reducible apply State.runMgmt_keep
      | with_reducible apply State.setLesar_keep | with_reducible apply State.setSwallow_keep | with_reducible apply okR_next
      | with_reducible apply okR_ite | split

theorem State.takeMgmt_keep (I : Keep) (s : State) (gen : Nat) (c : Ctx) (flags : Nat) (op : Nat) (pl : Bytes) (there : Bool) (H_s : Ok I s) :
    OkR I (State.takeMgmt s gen c flags op pl there) := by
  unfold State.takeMgmt; try dsimp only
  repeat' first
      | with_reducible assumption | with_reducible apply State.answer_keep | with_reducible apply State.beginMessage_keep
      | with_reducible apply State.refuseMessage_keep | with_reducible apply State.runMgmt_keep | with_reducible apply State.setLesar_keep
      | with_reducible apply State.setSwallow_keep | with_reducible apply okR_next | with_reducible apply okR_ite | split

theorem execSegmentTimeout_keep (I : Keep) (sess : Nat) (s : State) (H_s : Ok I s) :
    OkR I (execSegmentTimeout sess s) := by
  unfold execSegmentTimeout; try dsimp only
  repeat' first
      | with_reducible assumption | with_reducible apply State.refuseMessage_keep | with_reducible apply State.setSwallow_keep
      | with_reducible apply impossible_keep | with_reducible apply okR_next | split

theorem State.processFrame_keep (I : Keep) (s : State) (n : Nat) (via : Via) (h : Hdr) (pl : Bytes) (H_s : Ok I s) :
    OkR I (State.processFrame s n via h pl) := by
  unfold State.processFrame; try dsimp only
  repeat' first
      | with_reducible assumption | with_reducible apply State.answer_keep | with_reducible apply State.modSession_keep
      | with_reducible apply State.runData_keep | with_reducible apply State.takeMgmt_keep | with_reducible apply okR_ite

theorem State.processHeld_keep (I : Keep) (n : Nat) (y0 : Nat) (y1 : State) (H_y1 : Ok I y1) :
    OkR I (State.processHeld n y0 y1) := by
  induction y0 generalizing n y1 with
  | zero =>
    unfold State.processHeld; try dsimp only
    repeat' first | with_reducible assumption | with_reducible apply okR_next
  | succ n ih =>
    unfold State.processHeld; try dsimp only
    repeat' first
        | with_reducible assumption | with_reducible apply ih | with_reducible apply State.modSession_keep
        | with_reducible apply State.processFrame_keep | with_reducible apply andThen_keep | with_reducible apply okR_next | split

theorem State.ackProcessed_keep (I : Keep) (s : State) (n : Nat) (sent : Nat) (H_s : Ok I s) :
    Ok I (State.ackProcessed s n sent) := by
  unfold State.ackProcessed; try dsimp only
  repeat' first | with_reducible assumption | with_reducible apply State.sendAck_keep | with_reducible apply ok_ite | split

theorem State.sequence_keep (I : Keep) (s : State) (n : Nat) (via : Via) (h : Hdr) (pl : Bytes) (H_s : Ok I s) :
    OkR I (State.sequence s n via h pl) := by
  unfold State.sequence; try dsimp only
  repeat' first
      | with_reducible assumption | with_reducible apply State.ackProcessed_keep | with_reducible apply State.bump_keep
      | with_reducible apply State.modSession_keep | with_reducible apply State.processFrame_keep | with_reducible apply State.processHeld_keep
      | with_reducible apply State.sendAck_keep | with_reducible apply andThen_keep | with_reducible apply okR_next | with_reducible apply okR_ite
      | intro _ | split

theorem State.greet_keep (I : Keep) (s : State) (via : Via) (gen : Nat) (kind : Nat) (handle : Nat) (st : Status) (pl : Bytes) (H_s : Ok I s) :
    Ok I (State.greet s via gen kind handle st pl) := by
  unfold State.greet; try dsimp only
  repeat' first
      | with_reducible assumption | with_reducible apply State.bump_keep | with_reducible apply State.sendBare_keep
      | with_reducible apply State.setLesar_keep | with_reducible apply ok_ite

theorem State.greets_keep (I : Keep) (s : State) (via : Via) (gen : Nat) (kind : Nat) (handle : Nat) (len : Nat) (pl : Bytes) (H_s : Ok I s) :
    Ok I (State.greets s via gen kind handle len pl) := by
  unfold State.greets; try dsimp only
  repeat' first
      | with_reducible assumption | with_reducible apply State.greet_keep | with_reducible apply State.refuseHeader_keep | with_reducible apply ok_ite

theorem execDiscover_keep (I : Keep) (via : Via) (handle : Nat) (s : State) (H_s : Ok I s) :
    OkR I (execDiscover via handle s) := by
  unfold execDiscover; try dsimp only
  repeat' first | with_reducible assumption | with_reducible apply State.greets_keep | with_reducible apply okR_next

theorem State.recoveryGate_keep (I : Keep) (s : State) (c : Ctx) (op : Nat) (head : Bytes) (pl : Bytes) (hs : Ok I s) :
    Ok I (s.recoveryGate c op head pl).1 := by
  have hr : ∀ (k : Keeper) (n : Nat), Ok I (State.recoveryGate.raise s c op k n).1 := fun _ _ => State.setKeeper_keep _ _ _ hs
  have hb : Ok I (s.bump .kpr 0 0x04 1) := State.bump_keep _ _ _ _ _ _ hs
  unfold State.recoveryGate; try dsimp only
  repeat' first | with_reducible assumption | with_reducible apply hr | split

theorem State.statusFrame_keep (I : Keep) (s : State) (via : Via) (gen : Nat) (handle : Nat) (head : Bytes) (payload : Bytes) (H_s : Ok I s) :
    Ok I (State.statusFrame s via gen handle head payload) := by
  unfold State.statusFrame; try dsimp only
  repeat' first
      | with_reducible assumption | with_reducible apply State.greet_keep | with_reducible apply State.greets_keep
      | with_reducible apply State.keepReply_keep | with_reducible apply State.recoveryGate_keep | with_reducible apply ok_ite | split
      | (with_reducible apply ok_fst; assumption)

theorem execStatus_keep (I : Keep) (via : Via) (handle : Nat) (payload : Bytes) (s : State) (H_s : Ok I s) :
    OkR I (execStatus via handle payload s) := by
  unfold execStatus; try dsimp only
  repeat' first | with_reducible assumption | with_reducible apply State.statusFrame_keep | with_reducible apply okR_next

theorem State.runRecovery_keep (I : Keep) (s : State) (c : Ctx) (op : Nat) (pl : Bytes) (H_s : Ok I s) :
    OkR I (State.runRecovery s c op pl) := by
  unfold State.runRecovery; try dsimp only
  repeat' first
      | with_reducible assumption | with_reducible apply State.answer_keep | with_reducible apply execCfBootSwap_keep
      | with_reducible apply execCfLogRead_keep | with_reducible apply execCfStartClear_keep | with_reducible apply execCfTwinWrite_keep | split

theorem State.recoveryFrame_keep (I : Keep) (s : State) (via : Via) (raw : Bytes) (h : Hdr) (pl : Bytes) (H_s : Ok I s) :
    OkR I (State.recoveryFrame s via raw h pl) := by
  unfold State.recoveryFrame; try dsimp only
  repeat' first
      | with_reducible assumption | with_reducible apply State.recoveryGate_keep | with_reducible apply State.runRecovery_keep
      | with_reducible apply State.sendBare_keep | with_reducible apply okR_next | with_reducible apply okR_ite | split
      | (with_reducible apply ok_fst; assumption)

theorem State.netBootFrame_keep (I : Keep) (s : State) (via : Via) (handle : Nat) (pl : Bytes) (H_s : Ok I s) :
    Ok I (State.netBootFrame s via handle pl) := by
  unfold State.netBootFrame; try dsimp only
  repeat' first
      | with_reducible assumption | with_reducible apply State.bump_keep | with_reducible apply State.sendBare_keep
      | with_reducible apply State.setDev_keep | with_reducible apply ok_ite | split

theorem execNetworkBootImage_keep (I : Keep) (via : Via) (handle : Nat) (payload : Bytes) (s : State) (H_s : Ok I s) :
    OkR I (execNetworkBootImage via handle payload s) := by
  unfold execNetworkBootImage; try dsimp only
  repeat' first
      | with_reducible assumption | with_reducible apply State.netBootFrame_keep | with_reducible apply require_keep | with_reducible apply okR_next

theorem State.holdFrame_keep (I : Keep) (s : State) (via : Via) (raw : Bytes) (H_s : Ok I s) :
    Ok I (State.holdFrame s via raw) := by
  unfold State.holdFrame; try dsimp only
  repeat' first
      | with_reducible assumption | with_reducible apply State.setDev_keep | with_reducible apply State.setLesar_keep | with_reducible apply ok_ite

theorem State.sessionless_keep (I : Keep) (s : State) (via : Via) (raw : Bytes) (h : Hdr) (pl : Bytes) (H_s : Ok I s) :
    OkR I (State.sessionless s via raw h pl) := by
  unfold State.sessionless; try dsimp only
  repeat' first
      | with_reducible assumption | with_reducible apply State.answerOpen_keep | with_reducible apply State.netBootFrame_keep
      | with_reducible apply State.recoveryFrame_keep | with_reducible apply State.refuseHeader_keep | with_reducible apply State.sendBare_keep
      | with_reducible apply execOpenSession_keep | with_reducible apply okR_next | with_reducible apply okR_ite

theorem State.goodFrame_keep (I : Keep) (s : State) (via : Via) (raw : Bytes) (h : Hdr) (pl : Bytes) (H_s : Ok I s) :
    OkR I (State.goodFrame s via raw h pl) := by
  unfold State.goodFrame; try dsimp only
  repeat' first
      | with_reducible assumption | with_reducible apply State.acknowledge_keep | with_reducible apply State.greet_keep
      | with_reducible apply State.greets_keep | with_reducible apply State.heardOn_keep | with_reducible apply State.refuseHeader_keep
      | with_reducible apply State.sequence_keep | with_reducible apply State.sessionless_keep | with_reducible apply State.statusFrame_keep
      | with_reducible apply okR_next | with_reducible apply okR_ite | with_reducible apply ok_ite | split

theorem State.lesarFrame_keep (I : Keep) (s : State) (via : Via) (raw : Bytes) (H_s : Ok I s) :
    OkR I (State.lesarFrame s via raw) := by
  unfold State.lesarFrame; try dsimp only
  repeat' first
      | with_reducible assumption | with_reducible apply State.bump_keep | with_reducible apply State.goodFrame_keep
      | with_reducible apply State.refuseHeader_keep | with_reducible apply okR_next | with_reducible apply okR_ite | split

theorem State.startFrame_keep (I : Keep) (s : State) (via : Via) (raw : Bytes) (H_s : Ok I s) :
    Ok I (State.startFrame s via raw) := by
  unfold State.startFrame; try dsimp only
  repeat' first
      | with_reducible assumption | with_reducible apply State.greets_keep | with_reducible apply State.holdFrame_keep | with_reducible apply ok_ite

theorem execStartFrameHold_keep (I : Keep) (via : Via) (raw : Bytes) (s : State) (H_s : Ok I s) :
    OkR I (execStartFrameHold via raw s) := by
  unfold execStartFrameHold; try dsimp only
  repeat' first
      | with_reducible assumption | with_reducible apply State.startFrame_keep | with_reducible apply require_keep | with_reducible apply okR_next

theorem execEthFrameReceive_keep (I : Keep) (via : Via) (raw : Bytes) (s : State) (H_s : Ok I s) :
    OkR I (execEthFrameReceive via raw s) := by
  unfold execEthFrameReceive; try dsimp only
  repeat' first
      | with_reducible assumption | with_reducible apply State.bump_keep | with_reducible apply State.lesarFrame_keep
      | with_reducible apply State.startFrame_keep | with_reducible apply require_keep | with_reducible apply okR_next | with_reducible apply okR_ite
      | split

theorem execEthLinkUp_keep (I : Keep) (port : Nat) (speed : Nat) (master : Bool) (sqi : Nat) (s : State) (H_s : Ok I s) :
    OkR I (execEthLinkUp port speed master sqi s) := by
  unfold execEthLinkUp; try dsimp only
  repeat' first
      | with_reducible assumption | with_reducible apply State.setEth_keep | with_reducible apply require_keep | with_reducible apply okR_next

theorem execEthLinkDown_keep (I : Keep) (port : Nat) (s : State) (H_s : Ok I s) :
    OkR I (execEthLinkDown port s) := by
  unfold execEthLinkDown; try dsimp only
  repeat' first
      | with_reducible assumption | with_reducible apply State.setEth_keep | with_reducible apply require_keep | with_reducible apply okR_next

theorem execEthFrameDrop_keep (I : Keep) (port : Nat) (_why : DropCause) (s : State) (H_s : Ok I s) :
    OkR I (execEthFrameDrop port _why s) := by
  unfold execEthFrameDrop; try dsimp only
  repeat' first | with_reducible assumption | with_reducible apply State.bump_keep | with_reducible apply require_keep | with_reducible apply okR_next

theorem execSecFrameFail_keep (I : Keep) (port : Nat) (s : State) (H_s : Ok I s) :
    OkR I (execSecFrameFail port s) := by
  unfold execSecFrameFail; try dsimp only
  repeat' first | with_reducible assumption | with_reducible apply State.bump_keep | with_reducible apply require_keep | with_reducible apply okR_next

theorem execOldAssociationExpiry_keep (I : Keep) (port : Nat) (dir : Nat) (s : State) (H_s : Ok I s) :
    OkR I (execOldAssociationExpiry port dir s) := by
  unfold execOldAssociationExpiry; try dsimp only
  repeat' first
      | with_reducible assumption | with_reducible apply State.setKeeper_keep | with_reducible apply require_keep | with_reducible apply okR_next

theorem execLesarCarrierChangeExpiry_keep (I : Keep) (s : State) (H_s : Ok I s) :
    OkR I (execLesarCarrierChangeExpiry s) := by
  unfold execLesarCarrierChangeExpiry; try dsimp only
  repeat' first
      | with_reducible assumption | with_reducible apply State.setLesar_keep | with_reducible apply require_keep | with_reducible apply okR_next

theorem State.answerRaw_keep (I : Keep) (s : State) (port : Nat) (bs : Bytes) (H_s : Ok I s) :
    Ok I (State.answerRaw s port bs) := by
  unfold State.answerRaw; try dsimp only
  repeat' first | with_reducible assumption | with_reducible apply State.bump_keep | with_reducible apply State.setLesar_keep

theorem execArpRequest_keep (I : Keep) (via : Via) (target : Nat) (s : State) (H_s : Ok I s) :
    OkR I (execArpRequest via target s) := by
  unfold execArpRequest; try dsimp only
  repeat' first
      | with_reducible assumption | with_reducible apply State.answerRaw_keep | with_reducible apply okR_next | with_reducible apply ok_ite | split

theorem execNeighbourSolicitation_keep (I : Keep) (via : Via) (target : Nat) (s : State) (H_s : Ok I s) :
    OkR I (execNeighbourSolicitation via target s) := by
  unfold execNeighbourSolicitation; try dsimp only
  repeat' first
      | with_reducible assumption | with_reducible apply State.answerRaw_keep | with_reducible apply okR_next | with_reducible apply ok_ite | split

theorem execEchoRequest_keep (I : Keep) (via : Via) (v6 : Bool) (data : Bytes) (s : State) (H_s : Ok I s) :
    OkR I (execEchoRequest via v6 data s) := by
  unfold execEchoRequest; try dsimp only
  repeat' first | with_reducible assumption | with_reducible apply State.answerRaw_keep | with_reducible apply okR_next | with_reducible apply ok_ite

/-! ## Partitions -/

theorem State.resetPartRegs_keep (I : Keep) (s : State) (p : Nat) (H_s : Ok I s) :
    Ok I (State.resetPartRegs s p) := by
  unfold State.resetPartRegs; try dsimp only
  repeat' first | with_reducible assumption | with_reducible apply State.resetRegs_keep | (with_reducible apply ok_foldl; intro _ _ _)

theorem State.takeKept_keep (I : Keep) (s : State) (nand : List Nat) (H_s : Ok I s) :
    Ok I ((State.takeKept s nand).1) := by
  unfold State.takeKept; try dsimp only
  repeat' first
      | with_reducible assumption | with_reducible apply State.clearNandExtent_keep | with_reducible apply State.setNand_keep
      | (with_reducible apply ok_foldl; intro _ _ _) | split

theorem State.createPart_keep (I : Keep) (s : State) (p : Nat) (pl : Bytes) (H_s : Ok I s) :
    Ok I (State.createPart s p pl) := by
  unfold State.createPart; try dsimp only
  repeat' first
      | with_reducible assumption | with_reducible apply State.putField_keep | with_reducible apply State.putPart_keep
      | with_reducible apply State.resetPartRegs_keep | with_reducible apply State.resetRegs_keep | with_reducible apply State.takeKept_keep

theorem execCreatePartition_keep (I : Keep) (c : Ctx) (payload : Bytes) (s : State) (H_s : Ok I s) :
    OkR I (execCreatePartition c payload s) := by
  unfold execCreatePartition; try dsimp only
  repeat' first
      | with_reducible assumption | with_reducible apply State.answer_keep | with_reducible apply State.createPart_keep
      | with_reducible apply State.serve_keep | with_reducible apply okR_ite | intro _

theorem execSetEndpoint_keep (I : Keep) (c : Ctx) (payload : Bytes) (s : State) (H_s : Ok I s) :
    OkR I (execSetEndpoint c payload s) := by
  unfold execSetEndpoint; try dsimp only
  repeat' first
      | with_reducible assumption | with_reducible apply State.answer_keep | with_reducible apply State.modPart_keep
      | with_reducible apply State.serve_keep | with_reducible apply okR_ite | intro _ | split

theorem execResizePartition_keep (I : Keep) (c : Ctx) (payload : Bytes) (s : State) (H_s : Ok I s) :
    OkR I (execResizePartition c payload s) := by
  unfold execResizePartition; try dsimp only
  repeat' first
      | with_reducible assumption | with_reducible apply State.answer_keep | with_reducible apply State.modPart_keep
      | with_reducible apply State.owe_keep | with_reducible apply State.serve_keep | with_reducible apply State.settle_keep
      | with_reducible apply okR_next | with_reducible apply okR_ite | intro _ | split

theorem State.resetEvents_keep (I : Keep) (s : State) (p : Nat) (st : Status) (H_s : Ok I s) :
    Ok I (State.resetEvents s p st) := by
  unfold State.resetEvents; try dsimp only
  repeat' first | with_reducible assumption | with_reducible apply State.ownerEvent_keep | with_reducible apply State.partEvent_keep

theorem State.beginPartReset_keep (I : Keep) (s : State) (p : Nat) (pt : Part) (c : Ctx) (delete : Bool) (H_s : Ok I s) :
    Ok I (State.beginPartReset s p pt c delete) := by
  unfold State.beginPartReset; try dsimp only
  repeat' first
      | with_reducible assumption | with_reducible apply State.modPart_keep | with_reducible apply State.resetEvents_keep
      | with_reducible apply State.sendTo_keep | with_reducible apply State.settle_keep | (with_reducible apply ok_foldl; intro _ _ _) | split

theorem execResetPartition_keep (I : Keep) (c : Ctx) (payload : Bytes) (s : State) (H_s : Ok I s) :
    OkR I (execResetPartition c payload s) := by
  unfold execResetPartition; try dsimp only
  repeat' first
      | with_reducible assumption | with_reducible apply State.answer_keep | with_reducible apply State.beginPartReset_keep
      | with_reducible apply State.owe_keep | with_reducible apply State.serve_keep | with_reducible apply okR_next | with_reducible apply okR_ite
      | intro _ | split

theorem State.partCleared_keep (I : Keep) (s : State) (p : Nat) (pt : Part) (H_s : Ok I s) :
    Ok I (State.partCleared s p pt) := by
  unfold State.partCleared; try dsimp only
  repeat' first
      | with_reducible assumption | with_reducible apply State.clearExtent_keep | with_reducible apply State.putField_keep
      | with_reducible apply State.putPart_keep | with_reducible apply State.resetPartRegs_keep | with_reducible apply State.tileLeaves_keep
      | (with_reducible apply ok_foldl; intro _ _ _)

theorem State.deletePart_keep (J : KeepAll) (s : State) (p : Nat) (pt : Part) (H_s : Ok J.toKeep s) :
    Ok J.toKeep (State.deletePart s p pt) := by
  unfold State.deletePart; try dsimp only
  repeat' first
      | with_reducible assumption | with_reducible apply State.clearNandExtent_keep | with_reducible apply State.closeSession_keep
      | with_reducible apply State.resetPartRegs_keep | with_reducible apply State.resetRegs_keep | with_reducible apply State.setLesar_keep
      | with_reducible apply State.setTombs_keep | with_reducible apply State.setWalks_keep | with_reducible apply State.setParts_keep
      | (with_reducible apply ok_foldl; intro _ _ _)

theorem execPartitionResetFillComplete_keep (J : KeepAll) (p : Nat) (s : State) (H_s : Ok J.toKeep s) :
    OkR J.toKeep (execPartitionResetFillComplete p s) := by
  unfold execPartitionResetFillComplete; try dsimp only
  repeat' first
      | with_reducible assumption | with_reducible apply State.bump_keep | with_reducible apply State.deletePart_keep
      | with_reducible apply State.freeMbox_keep | with_reducible apply State.partCleared_keep | with_reducible apply State.resetEvents_keep
      | with_reducible apply State.settleAll_keep | with_reducible apply State.settle_keep | with_reducible apply impossible_keep
      | with_reducible apply require_keep | with_reducible apply okR_next | (with_reducible apply ok_foldl; intro _ _ _) | with_reducible apply ok_ite
      | split

theorem execDeletePartition_keep (I : Keep) (c : Ctx) (payload : Bytes) (s : State) (H_s : Ok I s) :
    OkR I (execDeletePartition c payload s) := by
  unfold execDeletePartition; try dsimp only
  repeat' first
      | with_reducible assumption | with_reducible apply State.answer_keep | with_reducible apply State.beginPartReset_keep
      | with_reducible apply State.serve_keep | with_reducible apply State.setLesar_keep | with_reducible apply okR_next
      | with_reducible apply okR_ite | intro _ | split

/-! ## Survey -/

theorem State.beginS0_keep (I : Keep) (s : State) (c : Ctx) (item : Nat) (H_s : Ok I s) :
    OkR I (State.beginS0 s c item) := by
  unfold State.beginS0; try dsimp only
  repeat' first
      | with_reducible assumption | with_reducible apply State.answer_keep | with_reducible apply State.owe_keep
      | with_reducible apply State.setSurvey_keep | with_reducible apply okR_next | with_reducible apply okR_ite

theorem State.beginS1_keep (I : Keep) (s : State) (c : Ctx) (t : Nat) (H_s : Ok I s) :
    OkR I (State.beginS1 s c t) := by
  unfold State.beginS1; try dsimp only
  repeat' first
      | with_reducible assumption | with_reducible apply State.answer_keep | with_reducible apply State.modPart_keep
      | with_reducible apply State.owe_keep | with_reducible apply State.setSurvey_keep | with_reducible apply State.settle_keep
      | with_reducible apply okR_next | (with_reducible apply ok_foldl; intro _ _ _) | with_reducible apply okR_ite | split

theorem State.beginS1Gazetteer_keep (I : Keep) (s : State) (c : Ctx) (H_s : Ok I s) :
    OkR I (State.beginS1Gazetteer s c) := by
  unfold State.beginS1Gazetteer; try dsimp only
  repeat' first
      | with_reducible assumption | with_reducible apply State.answer_keep | with_reducible apply State.owe_keep
      | with_reducible apply State.setSurvey_keep | with_reducible apply okR_next | with_reducible apply okR_ite
      | with_reducible apply State.mapParts_keep

theorem State.beginS2_keep (I : Keep) (s : State) (c : Ctx) (H_s : Ok I s) :
    OkR I (State.beginS2 s c) := by
  unfold State.beginS2; try dsimp only
  repeat' first
      | with_reducible assumption | with_reducible apply State.answer_keep | with_reducible apply State.owe_keep
      | with_reducible apply State.setSurvey_keep | with_reducible apply okR_next | with_reducible apply okR_ite

theorem State.runSurvey_keep (I : Keep) (s : State) (c : Ctx) (pl : Bytes) (H_s : Ok I s) :
    OkR I (State.runSurvey s c pl) := by
  unfold State.runSurvey; try dsimp only
  repeat' first
      | with_reducible assumption | with_reducible apply State.answer_keep | with_reducible apply State.beginS0_keep
      | with_reducible apply State.beginS1Gazetteer_keep | with_reducible apply State.beginS1_keep | with_reducible apply State.beginS2_keep
      | with_reducible apply State.serve_keep | with_reducible apply okR_ite | intro _ | split

theorem execSurveyS0_keep (I : Keep) (c : Ctx) (payload : Bytes) (s : State) (H_s : Ok I s) :
    OkR I (execSurveyS0 c payload s) := by
  unfold execSurveyS0; try dsimp only
  repeat' first | with_reducible assumption | with_reducible apply State.runSurvey_keep

theorem execSurveyS1Tile_keep (I : Keep) (c : Ctx) (payload : Bytes) (s : State) (H_s : Ok I s) :
    OkR I (execSurveyS1Tile c payload s) := by
  unfold execSurveyS1Tile; try dsimp only
  repeat' first | with_reducible assumption | with_reducible apply State.runSurvey_keep

theorem execSurveyS1Gazetteer_keep (I : Keep) (c : Ctx) (payload : Bytes) (s : State) (H_s : Ok I s) :
    OkR I (execSurveyS1Gazetteer c payload s) := by
  unfold execSurveyS1Gazetteer; try dsimp only
  repeat' first | with_reducible assumption | with_reducible apply State.runSurvey_keep

theorem execSurveyS2_keep (I : Keep) (c : Ctx) (payload : Bytes) (s : State) (H_s : Ok I s) :
    OkR I (execSurveyS2 c payload s) := by
  unfold execSurveyS2; try dsimp only
  repeat' first | with_reducible assumption | with_reducible apply State.runSurvey_keep

theorem execSurveyS0Complete_keep (I : Keep) (item : Nat) (fail : Bool) (detail : Nat) (s : State) (H_s : Ok I s) :
    OkR I (execSurveyS0Complete item fail detail s) := by
  unfold execSurveyS0Complete; try dsimp only
  repeat' first
      | with_reducible assumption | with_reducible apply State.setSurvey_keep | with_reducible apply State.settle_keep
      | with_reducible apply impossible_keep | with_reducible apply okR_next | split

theorem State.tilePassed_keep (I : Keep) (s : State) (t : Nat) (c : Option Ctx) (H_s : Ok I s) :
    Ok I (State.tilePassed s t c) := by
  unfold State.tilePassed; try dsimp only
  repeat' first
      | with_reducible assumption | with_reducible apply State.modPart_keep | with_reducible apply State.setSurvey_keep
      | with_reducible apply State.tileLeaves_keep | with_reducible apply ok_ite | split

theorem State.tileFailed_keep (I : Keep) (s : State) (t : Nat) (H_s : Ok I s) :
    Ok I (State.tileFailed s t) := by
  unfold State.tileFailed; try dsimp only
  repeat' first
      | with_reducible assumption | with_reducible apply State.devEvent_keep | with_reducible apply State.ownerEvent_keep
      | with_reducible apply State.partEvent_keep | with_reducible apply State.setSurvey_keep | split

theorem execSurveyS1TestComplete_keep (I : Keep) (t : Nat) (pass : Bool) (s : State) (H_s : Ok I s) :
    OkR I (execSurveyS1TestComplete t pass s) := by
  unfold execSurveyS1TestComplete; try dsimp only
  repeat' first
      | with_reducible assumption | with_reducible apply State.bump_keep | with_reducible apply State.settle_keep
      | with_reducible apply State.tileFailed_keep | with_reducible apply State.tilePassed_keep | with_reducible apply impossible_keep
      | with_reducible apply okR_next | with_reducible apply ok_ite | split

theorem execGazetteerIndexTestEnd_keep (I : Keep) (pass : Bool) (s : State) (H_s : Ok I s) :
    OkR I (execGazetteerIndexTestEnd pass s) := by
  unfold execGazetteerIndexTestEnd; try dsimp only
  repeat' first
      | with_reducible assumption | with_reducible apply State.bump_keep | with_reducible apply State.setSurvey_keep
      | with_reducible apply State.settle_keep | with_reducible apply impossible_keep | with_reducible apply okR_next | with_reducible apply ok_ite
      | split

theorem State.emptyAfterS2_keep (I : Keep) (s : State) (p : Nat) (H_s : Ok I s) :
    Ok I (State.emptyAfterS2 s p) := by
  unfold State.emptyAfterS2; try dsimp only
  repeat' first
      | with_reducible assumption | with_reducible apply State.modPart_keep | with_reducible apply State.removeImage_keep
      | with_reducible apply ok_ite | split

theorem execSurveyS2Complete_keep (I : Keep) (badChannels : List Nat) (badTiles : List Nat) (s : State) (H_s : Ok I s) :
    OkR I (execSurveyS2Complete badChannels badTiles s) := by
  unfold execSurveyS2Complete; try dsimp only
  repeat' first
      | (exact fun _ => rfl) | with_reducible assumption | with_reducible apply State.bump_keep | with_reducible apply State.emptyAfterS2_keep
      | with_reducible apply State.saveMap_keep | with_reducible apply State.setDramMem_keep | with_reducible apply State.setDram_keep
      | with_reducible apply State.setScratch_keep | with_reducible apply State.setSurvey_keep | with_reducible apply State.setTiles_keep
      | with_reducible apply State.settle_keep | with_reducible apply State.sharedEvent_keep | with_reducible apply State.tileFailed_keep
      | with_reducible apply impossible_keep | with_reducible apply require_keep | with_reducible apply okR_next
      | (with_reducible apply ok_foldl; intro _ _ _) | split

theorem execVeoloErrorRateCheck_keep (I : Keep) (corrected : List Nat) (uncorrectable : List Nat) (codewords : List Nat) (s : State) (H_s : Ok I s) :
    OkR I (execVeoloErrorRateCheck corrected uncorrectable codewords s) := by
  unfold execVeoloErrorRateCheck; try dsimp only
  repeat' first
      | with_reducible assumption | with_reducible apply State.bump_keep | with_reducible apply State.linkTrains_keep | with_reducible apply okR_next
      | (with_reducible apply ok_foldl; intro _ _ _) | with_reducible apply ok_ite

/-! ## Security -/

theorem execAttest_keep (I : Keep) (c : Ctx) (payload : Bytes) (s : State) (H_s : Ok I s) :
    OkR I (execAttest c payload s) := by
  unfold execAttest; try dsimp only
  repeat' first
      | with_reducible assumption | with_reducible apply State.answer_keep | with_reducible apply State.bump_keep
      | with_reducible apply State.reply_keep | with_reducible apply State.serve_keep | with_reducible apply okR_next | with_reducible apply okR_ite
      | intro _

theorem execGetCerts_keep (I : Keep) (c : Ctx) (payload : Bytes) (s : State) (H_s : Ok I s) :
    OkR I (execGetCerts c payload s) := by
  unfold execGetCerts; try dsimp only
  repeat' first
      | with_reducible assumption | with_reducible apply State.answer_keep | with_reducible apply State.reply_keep
      | with_reducible apply State.serve_keep | with_reducible apply okR_next | with_reducible apply okR_ite | intro _

theorem execSetKey_keep (I : Keep) (c : Ctx) (payload : Bytes) (s : State) (H_s : Ok I s) :
    OkR I (execSetKey c payload s) := by
  unfold execSetKey; try dsimp only
  repeat' first
      | with_reducible assumption | with_reducible apply State.answer_keep | with_reducible apply State.modPart_keep
      | with_reducible apply State.serve_keep | with_reducible apply State.setKeeper_keep | with_reducible apply okR_ite | intro _ | split

theorem State.finishBind_keep (I : Keep) (s : State) (cert : Bytes) (key : Bytes) (H_s : Ok I s) :
    Ok I ((State.finishBind s cert key).1) := by
  unfold State.finishBind; try dsimp only
  repeat' first | with_reducible assumption | with_reducible apply State.bump_keep | with_reducible apply State.setKeeper_keep | split

theorem execBindSet_keep (I : Keep) (c : Ctx) (payload : Bytes) (s : State) (H_s : Ok I s) :
    OkR I (execBindSet c payload s) := by
  unfold execBindSet; try dsimp only
  repeat' first
      | with_reducible assumption | with_reducible apply State.answer_keep | with_reducible apply State.finishBind_keep
      | with_reducible apply State.serve_keep | with_reducible apply State.setKeeper_keep | with_reducible apply okR_ite | intro _ | split

theorem execBindSetTimeout_keep (I : Keep) (s : State) (H_s : Ok I s) :
    OkR I (execBindSetTimeout s) := by
  unfold execBindSetTimeout; try dsimp only
  repeat' first
      | with_reducible assumption | with_reducible apply State.setKeeper_keep | with_reducible apply require_keep | with_reducible apply okR_next

theorem execUnbindSet_keep (I : Keep) (c : Ctx) (payload : Bytes) (s : State) (H_s : Ok I s) :
    OkR I (execUnbindSet c payload s) := by
  unfold execUnbindSet; try dsimp only
  repeat' first
      | with_reducible assumption | with_reducible apply State.answer_keep | with_reducible apply State.serve_keep
      | with_reducible apply State.setKeeper_keep | with_reducible apply okR_ite | intro _

theorem execSecKey_keep (I : Keep) (c : Ctx) (payload : Bytes) (s : State) (H_s : Ok I s) :
    OkR I (execSecKey c payload s) := by
  unfold execSecKey; try dsimp only
  repeat' first
      | with_reducible assumption | with_reducible apply State.answer_keep | with_reducible apply State.serve_keep
      | with_reducible apply State.setKeeper_keep | with_reducible apply okR_ite | intro _ | split

/-! ## Firmware -/

theorem State.linkHails_keep (I : Keep) (s : State) (i : Nat) (H_s : Ok I s) :
    Ok I (State.linkHails s i) := by
  unfold State.linkHails; try dsimp only
  repeat' first | with_reducible assumption | with_reducible apply State.modLink_keep | with_reducible apply ok_ite

theorem execKeeperRomStart_keep (I : Keep) (s : State) (H_s : Ok I s) :
    OkR I (execKeeperRomStart s) := by
  unfold execKeeperRomStart; try dsimp only
  repeat' first
      | with_reducible assumption | with_reducible apply State.scanFlash_keep | with_reducible apply State.setDev_keep
      | with_reducible apply State.setFlash_keep | with_reducible apply State.setVeolo_keep | with_reducible apply require_keep
      | with_reducible apply okR_next | split

theorem State.mendRings_keep (I : Keep) (s : State) (H_s : Ok I s) :
    Ok I (State.mendRings s) := by
  unfold State.mendRings; try dsimp only
  repeat' first
      | with_reducible assumption | with_reducible apply State.flashClear_keep | with_reducible apply State.scanFlash_keep
      | with_reducible apply State.setFlash_keep | (with_reducible apply ok_foldl; intro _ _ _) | with_reducible apply ok_ite

theorem execKeeperRuntimeStart_keep (I : Keep) (halfBlank : List Nat) (s : State) (H_s : Ok I s) :
    OkR I (execKeeperRuntimeStart halfBlank s) := by
  unfold execKeeperRuntimeStart; try dsimp only
  repeat' first
      | with_reducible assumption | with_reducible apply State.counter_keep | with_reducible apply State.mendRings_keep
      | with_reducible apply State.setDev_keep | with_reducible apply State.setFlash_keep | with_reducible apply require_keep
      | with_reducible apply okR_next | with_reducible apply okR_ite | with_reducible apply ok_ite

theorem execPortDieRelease_keep (I : Keep) (s : State) (H_s : Ok I s) :
    OkR I (execPortDieRelease s) := by
  unfold execPortDieRelease; try dsimp only
  repeat' first
      | (exact fun _ => rfl) | with_reducible assumption | with_reducible apply State.electMaster_keep | with_reducible apply State.linkHails_keep
      | with_reducible apply State.setDev_keep | with_reducible apply State.setScratch_keep | with_reducible apply require_keep
      | with_reducible apply okR_next | (with_reducible apply ok_foldl; intro _ _ _)

theorem execDramTrainingComplete_keep (I : Keep) (failed : List Nat) (s : State) (H_s : Ok I s) :
    OkR I (execDramTrainingComplete failed s) := by
  unfold execDramTrainingComplete; try dsimp only
  repeat' first
      | with_reducible assumption | with_reducible apply State.devEvent_keep | with_reducible apply State.setDev_keep
      | with_reducible apply State.setDram_keep | with_reducible apply require_keep | with_reducible apply okR_next
      | (with_reducible apply ok_foldl; intro _ _ _)

theorem State.firmwareCheck_keep (I : Keep) (s : State) (img : Bytes) (gen : Nat) (H_s : Ok I s) :
    Ok I ((State.firmwareCheck s img gen).2) := by
  unfold State.firmwareCheck; try dsimp only
  repeat' first | with_reducible assumption | with_reducible apply State.bump_keep | with_reducible apply ok_ite | split

theorem State.release_keep (I : Keep) (s : State) (img : Bytes) (c : Option Ctx) (H_s : Ok I s) :
    Ok I (State.release s img c) := by
  unfold State.release; try dsimp only
  repeat' first | with_reducible assumption | with_reducible apply State.setDev_keep

theorem State.processStart_keep (I : Keep) (y0 : List (Via × Bytes)) (y1 : State) (H_y1 : Ok I y1) :
    OkR I (State.processStart y0 y1) := by
  induction y0 generalizing y1 with
  | nil =>
    unfold State.processStart; try dsimp only
    repeat' first | with_reducible assumption | with_reducible apply okR_next
  | cons x xs ih =>
    unfold State.processStart; try dsimp only
    repeat' first | with_reducible assumption | with_reducible apply State.lesarFrame_keep | with_reducible apply andThen_keep

theorem execReadyForFirmware_keep (I : Keep) (ms : Nat) (s : State) (H_s : Ok I s) :
    OkR I (execReadyForFirmware ms s) := by
  unfold execReadyForFirmware; try dsimp only
  repeat' first
      | with_reducible assumption | with_reducible apply State.firmwareCheck_keep | with_reducible apply State.processStart_keep
      | with_reducible apply State.release_keep | with_reducible apply State.setDev_keep | with_reducible apply State.setLesar_keep
      | with_reducible apply require_keep | split | (with_reducible apply ok_snd; assumption)

theorem execLoadFirmware_keep (I : Keep) (c : Ctx) (payload : Bytes) (s : State) (H_s : Ok I s) :
    OkR I (execLoadFirmware c payload s) := by
  unfold execLoadFirmware; try dsimp only
  repeat' first
      | with_reducible assumption | with_reducible apply State.answer_keep | with_reducible apply State.owe_keep
      | with_reducible apply State.serve_keep | with_reducible apply State.setDev_keep | with_reducible apply okR_next | with_reducible apply okR_ite
      | intro _ | split

theorem execLoadFirmwareTimeout_keep (I : Keep) (s : State) (H_s : Ok I s) :
    OkR I (execLoadFirmwareTimeout s) := by
  unfold execLoadFirmwareTimeout; try dsimp only
  repeat' first
      | with_reducible assumption | with_reducible apply State.setDev_keep | with_reducible apply require_keep | with_reducible apply okR_next

theorem execFirmwareCheckComplete_keep (I : Keep) (s : State) (H_s : Ok I s) :
    OkR I (execFirmwareCheckComplete s) := by
  unfold execFirmwareCheckComplete; try dsimp only
  repeat' first
      | with_reducible assumption | with_reducible apply State.firmwareCheck_keep | with_reducible apply State.release_keep
      | with_reducible apply State.setDev_keep | with_reducible apply State.settle_keep | with_reducible apply impossible_keep
      | with_reducible apply okR_next | with_reducible apply ok_ite | split

theorem execFirstHeartbeatTimeout_keep (I : Keep) (s : State) (H_s : Ok I s) :
    OkR I (execFirstHeartbeatTimeout s) := by
  unfold execFirstHeartbeatTimeout; try dsimp only
  repeat' first
      | with_reducible assumption | with_reducible apply State.setDev_keep | with_reducible apply State.settle_keep
      | with_reducible apply impossible_keep | with_reducible apply okR_next | split

theorem State.nowRunning_keep (I : Keep) (s : State) (c : Option Ctx) (H_s : Ok I s) :
    Ok I (State.nowRunning s c) := by
  unfold State.nowRunning; try dsimp only
  repeat' first
      | with_reducible assumption | with_reducible apply State.devEvent_keep | with_reducible apply State.setDev_keep
      | with_reducible apply State.settle_keep | with_reducible apply ok_ite | split

theorem execHeartbeat_keep (I : Keep) (s : State) (H_s : Ok I s) :
    OkR I (execHeartbeat s) := by
  unfold execHeartbeat; try dsimp only
  repeat' first
      | with_reducible assumption | with_reducible apply State.nowRunning_keep | with_reducible apply State.setDev_keep
      | with_reducible apply require_keep | with_reducible apply okR_next | split

theorem State.refuseMbox_keep (I : Keep) (s : State) (m : Mbox) (H_s : Ok I s) :
    Ok I (State.refuseMbox s m) := by
  unfold State.refuseMbox; try dsimp only
  repeat' first
      | with_reducible assumption | with_reducible apply State.modSession_keep | with_reducible apply State.reply_keep
      | with_reducible apply State.setLesar_keep | with_reducible apply ok_ite

theorem State.partWithoutFirmware_keep (I : Keep) (s : State) (p : Nat) (H_s : Ok I s) :
    Ok I (State.partWithoutFirmware s p) := by
  unfold State.partWithoutFirmware; try dsimp only
  repeat' first
      | with_reducible assumption | with_reducible apply State.endInstall_keep | with_reducible apply State.modPart_keep | with_reducible apply ok_ite

theorem execMgmtProcessorStopped_keep (I : Keep) (s : State) (H_s : Ok I s) :
    OkR I (execMgmtProcessorStopped s) := by
  unfold execMgmtProcessorStopped; try dsimp only
  repeat' first
      | with_reducible assumption | with_reducible apply State.devEvent_keep | with_reducible apply State.partWithoutFirmware_keep
      | with_reducible apply State.refuseMbox_keep | with_reducible apply State.setDev_keep | with_reducible apply State.setLesar_keep
      | with_reducible apply State.settle_keep | with_reducible apply require_keep | with_reducible apply okR_next
      | (with_reducible apply ok_foldl; intro _ _ _)

theorem State.leaveNotices_keep (I : Keep) (s : State) (H_s : Ok I s) :
    Ok I (State.leaveNotices s) := by
  unfold State.leaveNotices; try dsimp only
  repeat' first | with_reducible assumption | with_reducible apply State.sendMessage_keep | (with_reducible apply ok_foldl; intro _ _ _)

theorem State.beginReset_keep (I : Keep) (s : State) (cs : List Ctx) (system : Bool) (activation : Bool) (H_s : Ok I s) :
    Ok I (State.beginReset s cs system activation) := by
  unfold State.beginReset; try dsimp only
  repeat' first | with_reducible assumption | with_reducible apply State.leaveNotices_keep | with_reducible apply State.setDev_keep

theorem execActivateFirmware_keep (I : Keep) (c : Ctx) (payload : Bytes) (s : State) (H_s : Ok I s) :
    OkR I (execActivateFirmware c payload s) := by
  unfold execActivateFirmware; try dsimp only
  repeat' first
      | with_reducible assumption | with_reducible apply State.answer_keep | with_reducible apply State.beginReset_keep
      | with_reducible apply State.reply_keep | with_reducible apply State.serve_keep | with_reducible apply State.setDev_keep
      | with_reducible apply okR_next | with_reducible apply okR_ite | intro _

theorem execActivationProceed_keep (I : Keep) (s : State) (H_s : Ok I s) :
    OkR I (execActivationProceed s) := by
  unfold execActivationProceed; try dsimp only
  repeat' first
      | with_reducible assumption | with_reducible apply State.beginReset_keep | with_reducible apply State.reply_keep
      | with_reducible apply State.setDev_keep | with_reducible apply impossible_keep | with_reducible apply require_keep
      | with_reducible apply okR_next | split

theorem execActivationTimeout_keep (I : Keep) (s : State) (H_s : Ok I s) :
    OkR I (execActivationTimeout s) := by
  unfold execActivationTimeout; try dsimp only
  repeat' first
      | with_reducible assumption | with_reducible apply State.reply_keep | with_reducible apply State.setDev_keep
      | with_reducible apply impossible_keep | with_reducible apply okR_next | split

theorem execDeviceReset_keep (I : Keep) (c : Ctx) (payload : Bytes) (s : State) (H_s : Ok I s) :
    OkR I (execDeviceReset c payload s) := by
  unfold execDeviceReset; try dsimp only
  repeat' first
      | with_reducible assumption | with_reducible apply State.answer_keep | with_reducible apply State.beginReset_keep
      | with_reducible apply State.serve_keep | with_reducible apply State.setDev_keep | with_reducible apply okR_next | with_reducible apply okR_ite
      | with_reducible apply ok_ite | intro _ | split

theorem execDeviceResetMapSaved_keep (I : Keep) (s : State) (H_s : Ok I s) :
    OkR I (execDeviceResetMapSaved s) := by
  unfold execDeviceResetMapSaved; try dsimp only
  repeat' first
      | with_reducible assumption | with_reducible apply State.reply_keep | with_reducible apply State.saveMap_keep
      | with_reducible apply State.setDev_keep | with_reducible apply impossible_keep | with_reducible apply require_keep
      | with_reducible apply okR_next | (with_reducible apply ok_foldl; intro _ _ _) | split

/-! ## Sideband -/

theorem State.smbDo_keep (I : Keep) (s : State) (ok : Bool) (t : State) (H_s : Ok I s) (H_t : Ok I t) :
    OkR I (State.smbDo s ok t) := by
  unfold State.smbDo; try dsimp only
  repeat' first | with_reducible assumption | with_reducible apply okR_next | with_reducible apply ok_ite

theorem State.smbRead_keep (I : Keep) (s : State) (bs : Bytes) (H_s : Ok I s) :
    Ok I (State.smbRead s bs) := by
  unfold State.smbRead; try dsimp only
  repeat' first | with_reducible assumption | with_reducible apply State.setSmb_keep

theorem execClearFaults_keep (I : Keep) (s : State) (H_s : Ok I s) :
    OkR I (execClearFaults s) := by
  unfold execClearFaults; try dsimp only
  repeat' first | with_reducible assumption | with_reducible apply State.setSmb_keep | with_reducible apply State.smbDo_keep

theorem execStatusWord_keep (I : Keep) (s : State) (H_s : Ok I s) :
    OkR I (execStatusWord s) := by
  unfold execStatusWord; try dsimp only
  repeat' first
      | with_reducible assumption | with_reducible apply State.setSmb_keep | with_reducible apply State.smbDo_keep
      | with_reducible apply State.smbRead_keep

theorem execStatusInput_keep (I : Keep) (s : State) (H_s : Ok I s) :
    OkR I (execStatusInput s) := by
  unfold execStatusInput; try dsimp only
  repeat' first
      | with_reducible assumption | with_reducible apply State.setSmb_keep | with_reducible apply State.smbDo_keep
      | with_reducible apply State.smbRead_keep

theorem execStatusTemperature_keep (I : Keep) (s : State) (H_s : Ok I s) :
    OkR I (execStatusTemperature s) := by
  unfold execStatusTemperature; try dsimp only
  repeat' first
      | with_reducible assumption | with_reducible apply State.setSmb_keep | with_reducible apply State.smbDo_keep
      | with_reducible apply State.smbRead_keep

theorem execReadVin_keep (I : Keep) (s : State) (H_s : Ok I s) :
    OkR I (execReadVin s) := by
  unfold execReadVin; try dsimp only
  repeat' first | with_reducible assumption | with_reducible apply State.smbDo_keep | with_reducible apply State.smbRead_keep

theorem execReadIin_keep (I : Keep) (s : State) (H_s : Ok I s) :
    OkR I (execReadIin s) := by
  unfold execReadIin; try dsimp only
  repeat' first | with_reducible assumption | with_reducible apply State.smbDo_keep | with_reducible apply State.smbRead_keep

theorem execReadTemperature1_keep (I : Keep) (s : State) (H_s : Ok I s) :
    OkR I (execReadTemperature1 s) := by
  unfold execReadTemperature1; try dsimp only
  repeat' first | with_reducible assumption | with_reducible apply State.smbDo_keep | with_reducible apply State.smbRead_keep

theorem execReadTemperature2_keep (I : Keep) (s : State) (H_s : Ok I s) :
    OkR I (execReadTemperature2 s) := by
  unfold execReadTemperature2; try dsimp only
  repeat' first | with_reducible assumption | with_reducible apply State.smbDo_keep | with_reducible apply State.smbRead_keep

theorem execReadTemperature3_keep (I : Keep) (s : State) (H_s : Ok I s) :
    OkR I (execReadTemperature3 s) := by
  unfold execReadTemperature3; try dsimp only
  repeat' first | with_reducible assumption | with_reducible apply State.smbDo_keep | with_reducible apply State.smbRead_keep

theorem execReadPin_keep (I : Keep) (s : State) (H_s : Ok I s) :
    OkR I (execReadPin s) := by
  unfold execReadPin; try dsimp only
  repeat' first | with_reducible assumption | with_reducible apply State.smbDo_keep | with_reducible apply State.smbRead_keep

theorem execPmbusRevision_keep (I : Keep) (s : State) (H_s : Ok I s) :
    OkR I (execPmbusRevision s) := by
  unfold execPmbusRevision; try dsimp only
  repeat' first | with_reducible assumption | with_reducible apply State.smbDo_keep | with_reducible apply State.smbRead_keep

theorem execAlertResponse_keep (I : Keep) (s : State) (H_s : Ok I s) :
    OkR I (execAlertResponse s) := by
  unfold execAlertResponse; try dsimp only
  repeat' first | with_reducible assumption | with_reducible apply State.smbDo_keep | with_reducible apply State.smbRead_keep

theorem execMfrRegAddr_keep (I : Keep) (addr : Word) (s : State) (H_s : Ok I s) :
    OkR I (execMfrRegAddr addr s) := by
  unfold execMfrRegAddr; try dsimp only
  repeat' first | with_reducible assumption | with_reducible apply State.setSmb_keep | with_reducible apply State.smbDo_keep

theorem State.smbFault_keep (I : Keep) (s : State) (H_s : Ok I s) :
    Ok I (State.smbFault s) := by
  unfold State.smbFault; try dsimp only
  repeat' first | with_reducible assumption | with_reducible apply State.setSmb_keep

theorem State.sidebandReg_keep (I : Keep) (s : State) (a : Nat) (H_s : Ok I s) :
    Ok I ((State.sidebandReg s a).1) := by
  unfold State.sidebandReg; try dsimp only
  repeat' first | with_reducible assumption | with_reducible apply State.afterRead_keep | with_reducible apply State.smbFault_keep | split

theorem execMfrRegData_keep (I : Keep) (s : State) (H_s : Ok I s) :
    OkR I (execMfrRegData s) := by
  unfold execMfrRegData; try dsimp only
  repeat' first
      | with_reducible assumption | with_reducible apply State.sidebandReg_keep | with_reducible apply State.smbDo_keep
      | with_reducible apply State.smbRead_keep

theorem execMfrMboxWr_keep (I : Keep) (data : Bytes) (s : State) (H_s : Ok I s) :
    OkR I (execMfrMboxWr data s) := by
  unfold execMfrMboxWr; try dsimp only
  repeat' first
      | with_reducible assumption | with_reducible apply State.setSmb_keep | with_reducible apply State.smbDo_keep
      | with_reducible apply State.smbFault_keep | with_reducible apply ok_ite

theorem State.sidebandMessage_keep (I : Keep) (s : State) (raw : Bytes) (H_s : Ok I s) :
    OkR I (State.sidebandMessage s raw) := by
  unfold State.sidebandMessage; try dsimp only
  repeat' first
      | with_reducible assumption | with_reducible apply State.answer_keep | with_reducible apply State.runMgmt_keep | with_reducible apply okR_ite
      | split

theorem execMfrMboxGo_keep (I : Keep) (s : State) (H_s : Ok I s) :
    OkR I (execMfrMboxGo s) := by
  unfold execMfrMboxGo; try dsimp only
  repeat' first
      | with_reducible assumption | with_reducible apply State.setSmb_keep | with_reducible apply State.sidebandMessage_keep
      | with_reducible apply okR_next | with_reducible apply okR_ite

theorem execMfrMboxClear_keep (I : Keep) (s : State) (H_s : Ok I s) :
    OkR I (execMfrMboxClear s) := by
  unfold execMfrMboxClear; try dsimp only
  repeat' first | with_reducible assumption | with_reducible apply State.setSmb_keep | with_reducible apply State.smbDo_keep

theorem execMfrMboxStatus_keep (I : Keep) (s : State) (H_s : Ok I s) :
    OkR I (execMfrMboxStatus s) := by
  unfold execMfrMboxStatus; try dsimp only
  repeat' first | with_reducible assumption | with_reducible apply State.smbDo_keep | with_reducible apply State.smbRead_keep

theorem execMfrMboxRd_keep (I : Keep) (len : Nat) (s : State) (H_s : Ok I s) :
    OkR I (execMfrMboxRd len s) := by
  unfold execMfrMboxRd; try dsimp only
  repeat' first
      | with_reducible assumption | with_reducible apply State.setSmb_keep | with_reducible apply State.smbDo_keep
      | with_reducible apply State.smbRead_keep

theorem execSidebandReplyReady_keep (I : Keep) (s : State) (H_s : Ok I s) :
    OkR I (execSidebandReplyReady s) := by
  unfold execSidebandReplyReady; try dsimp only
  repeat' first
      | with_reducible assumption | with_reducible apply State.setSmb_keep | with_reducible apply impossible_keep | with_reducible apply require_keep
      | with_reducible apply okR_next | split

/-! ## Every command -/

theorem exec_keep (J : KeepAll) (i : Instr) (s : State) (h : Ok J.toKeep s) : OkR J.toKeep (exec i s) := by
  cases i with
  | meridian p now => exact execMeridian_keep J p now s h
  | emptyStep p now => exact execEmptyStep_keep J p now s h
  | pipelineDone p fromNext => exact execPipelineDone_keep _ p fromNext s h
  | pipelineTMessage p t count confirmed => exact execPipelineTMessage_keep _ p t count confirmed s h
  | pipelineMeridian p now => exact execPipelineMeridian_keep J p now s h
  | targetAcceptReport p stage handle target => exact execTargetAcceptReport_keep _ p stage handle target s h
  | stepDecisions p count block ds => exact execStepDecisions_keep _ p count block ds s h
  | tokenReturn p handle beam token => exact execTokenReturn_keep _ p handle beam token s h
  | heartbeat => exact execHeartbeat_keep _ s h
  | mgmtProcessorStopped => exact execMgmtProcessorStopped_keep _ s h
  | matrix tiles a b bank cont env => exact execMatrix_keep _ tiles a b bank cont env s h
  | drain t bank fmt dst env => exact execDrain_keep _ t bank fmt dst env s h
  | drainComplete t bank => exact execDrainComplete_keep _ t bank s h
  | preload t bank row int => exact execPreload_keep _ t bank row int s h
  | twinBind t src => exact execTwinBind_keep _ t src s h
  | twinUnbind t => exact execTwinUnbind_keep _ t s h
  | twinAdd t src env => exact execTwinAdd_keep _ t src env s h
  | twinMul t row => exact execTwinMul_keep _ t row s h
  | stateRead t row => exact execStateRead_keep _ t row s h
  | stateOverwrite t row => exact execStateOverwrite_keep _ t row s h
  | streamCommit p handle slot planes env => exact execStreamCommit_keep _ p handle slot planes env s h
  | kernelLaunch t crews entry args body env => exact execKernelLaunch_keep _ t crews entry args body env s h
  | kernelEnd t kernel => exact execKernelEnd_keep _ t kernel s h
  | laneInstruction t crew op => exact execLaneInstruction_keep _ t crew op s h
  | gatherRead t crew width addr d env => exact execGatherRead_keep _ t crew width addr d env s h
  | gatherWrite t crew width addr a => exact execGatherWrite_keep _ t crew width addr a s h
  | laneTableLookup t crew width slot idx d => exact execLaneTableLookup_keep _ t crew width slot idx d s h
  | sfuLane t crew fn inFmt out upper rotary d a b env => exact execSfuLane_keep _ t crew fn inFmt out upper rotary d a b env s h
  | sfuRowOperation t fn inFmt outFmt src dst env => exact execSfuRowOperation_keep _ t fn inFmt outFmt src dst env s h
  | randomDraw t crew seed pos draw beam d => exact execRandomDraw_keep _ t crew seed pos draw beam d s h
  | dma t op env => exact execDma_keep _ t op env s h
  | dmaComplete t id now => exact execDmaComplete_keep J t id now s h
  | fill t row count c => exact execFill_keep _ t row count c s h
  | copy t src dst count env => exact execCopy_keep _ t src dst count env s h
  | compressOnStore t row dst tag pod env => exact execCompressOnStore_keep _ t row dst tag pod env s h
  | podTagWrite bay => exact execPodTagWrite_keep _ bay s h
  | tableLoad t srcRow op env => exact execTableLoad_keep _ t srcRow op env s h
  | tblLoad c p value => exact execTblLoad_keep _ c p value s h
  | tableLoadComplete p => exact execTableLoadComplete_keep _ p s h
  | tableCopyComplete p kind => exact execTableCopyComplete_keep _ p kind s h
  | linkSend t cls dir row count width fp32 env => exact execLinkSend_keep _ t cls dir row count width fp32 env s h
  | linkReceive t cls dir row count width fp32 => exact execLinkReceive_keep _ t cls dir row count width fp32 s h
  | sync p bay now op => exact execSync_keep J p bay now op s h
  | flow p bay at_ op => exact execFlow_keep _ p bay at_ op s h
  | endStep p bay => exact execEndStep_keep _ p bay s h
  | fetch p tensor layer env => exact execFetch_keep _ p tensor layer env s h
  | fetchComplete p tensor now => exact execFetchComplete_keep J p tensor now s h
  | scratchpadScrub t env => exact execScratchpadScrub_keep _ t env s h
  | gratCtlWrite c p value => exact execGratCtlWrite_keep _ c p value s h
  | tileZeroFill t => exact execTileZeroFill_keep _ t s h
  | statisticsPartial p collective incoming own ns => exact execStatisticsPartial_keep _ p collective incoming own ns s h
  | ringSegment p owner handle offset round first toks blocked own => exact execRingSegment_keep _ p owner handle offset round first toks blocked own s h
  | ringQuery p owner handle own => exact execRingQuery_keep _ p owner handle own s h
  | ringRelease p owner handle => exact execRingRelease_keep _ p owner handle s h
  | gazetteerWalk p handle env => exact execGazetteerWalk_keep _ p handle env s h
  | gazetteerWalkEnd p handle => exact execGazetteerWalkEnd_keep _ p handle s h
  | gzRebuildComplete p => exact execGzRebuildComplete_keep _ p s h
  | gzInitComplete p => exact execGzInitComplete_keep _ p s h
  | gzCtlWrite c p value => exact execGzCtlWrite_keep _ c p value s h
  | kvRingCtlWrite c p value => exact execKvRingCtlWrite_keep _ c p value s h
  | bitmapLoad c p value => exact execBitmapLoad_keep _ c p value s h
  | bitmapCopyComplete p => exact execBitmapCopyComplete_keep _ p s h
  | strmCtlWrite c p value => exact execStrmCtlWrite_keep _ c p value s h
  | openRequest c payload => exact execOpenRequest_keep _ c payload s h
  | appendTokens c payload => exact execAppendTokens_keep _ c payload s h
  | cancelRequest c payload => exact execCancelRequest_keep _ c payload s h
  | pauseRequest c payload => exact execPauseRequest_keep _ c payload s h
  | resumeRequest c payload => exact execResumeRequest_keep _ c payload s h
  | promptTimeout p handle => exact execPromptTimeout_keep _ p handle s h
  | pauseMoveComplete p handle => exact execPauseMoveComplete_keep _ p handle s h
  | pauseExpiry p handle now => exact execPauseExpiry_keep J p handle now s h
  | tombstoneExpiry p handle => exact execTombstoneExpiry_keep _ p handle s h
  | restoreComplete p handle env => exact execRestoreComplete_keep _ p handle env s h
  | openStream c payload => exact execOpenStream_keep _ c payload s h
  | streamChunk c payload => exact execStreamChunk_keep _ c payload s h
  | parkStream c payload => exact execParkStream_keep _ c payload s h
  | closeStream c payload => exact execCloseStream_keep _ c payload s h
  | lsReqLimitWrite c p value => exact execLsReqLimitWrite_keep _ c p value s h
  | lsReqCtlWrite c p value => exact execLsReqCtlWrite_keep _ c p value s h
  | dramPatrolScrub burst env => exact execDramPatrolScrub_keep _ burst env s h
  | refreshRatePoll hottest => exact execRefreshRatePoll_keep _ hottest s h
  | refreshWindow package => exact execRefreshWindow_keep _ package s h
  | dramCalibration channel good => exact execDramCalibration_keep _ channel good s h
  | nandChannelFail channel => exact execNandChannelFail_keep _ channel s h
  | mapSave => exact execMapSave_keep _ s h
  | readDisturbRefresh block => exact execReadDisturbRefresh_keep _ block s h
  | retentionPatrol block retries now => exact execRetentionPatrol_keep J block retries now s h
  | garbageCollection blocks => exact execGarbageCollection_keep _ blocks s h
  | wearLevelling block => exact execWearLevelling_keep _ block s h
  | nandOperationComplete die => exact execNandOperationComplete_keep _ die s h
  | ntPauseCtlWrite c value => exact execNtPauseCtlWrite_keep _ c value s h
  | pauseAreaResize => exact execPauseAreaResize_keep _ s h
  | loanRequest c p value => exact execLoanRequest_keep _ c p value s h
  | loanGrant p link extents answer => exact execLoanGrant_keep _ p link extents answer s h
  | loanRelease c p value => exact execLoanRelease_keep _ c p value s h
  | tierLendOfferWrite c value => exact execTierLendOfferWrite_keep _ c value s h
  | reclaimNotice p loan => exact execReclaimNotice_keep _ p loan s h
  | graceExpiry p loan => exact execGraceExpiry_keep _ p loan s h
  | lentMemoryRequest link loan off write len cls => exact execLentMemoryRequest_keep _ link loan off write len cls s h
  | linkLossOfSignal link => exact execLinkLossOfSignal_keep _ link s h
  | linkSignalDetect link => exact execLinkSignalDetect_keep _ link s h
  | hail link rank => exact execHail_keep _ link rank s h
  | hailTimeout link => exact execHailTimeout_keep _ link s h
  | backoffExpiry link => exact execBackoffExpiry_keep _ link s h
  | trainComplete link peer => exact execTrainComplete_keep _ link peer s h
  | trainTimeout link => exact execTrainTimeout_keep _ link s h
  | fastRetrain link => exact execFastRetrain_keep _ link s h
  | fastRetrainComplete link => exact execFastRetrainComplete_keep _ link s h
  | fastRetrainTimeout link => exact execFastRetrainTimeout_keep _ link s h
  | retrain c link value => exact execRetrain_keep _ c link value s h
  | flit link f env => exact execFlit_keep _ link f env s h
  | nak link seq => exact execNak_keep _ link seq s h
  | creditReturn link cls => exact execCreditReturn_keep _ link cls s h
  | timeMarker link t1 t2 t3 t4 => exact execTimeMarker_keep J link t1 t2 t3 t4 s h
  | timeAligned => exact execTimeAligned_keep _ s h
  | leaveNotice dir => exact execLeaveNotice_keep _ dir s h
  | neighbourLost dir => exact execNeighbourLost_keep _ dir s h
  | vlDevNumWrite c value => exact execVlDevNumWrite_keep _ c value s h
  | vlTopoCtlWrite c value => exact execVlTopoCtlWrite_keep _ c value s h
  | resetNotice p stage => exact execResetNotice_keep _ p stage s h
  | abortNotice p count => exact execAbortNotice_keep _ p count s h
  | shardQuery link digest => exact execShardQuery_keep _ link digest s h
  | shardQueryTimeout p answers => exact execShardQueryTimeout_keep _ p answers s h
  | installModel c payload => exact execInstallModel_keep _ c payload s h
  | shardData c payload => exact execShardData_keep _ c payload s h
  | shardDataTimeout p => exact execShardDataTimeout_keep _ p s h
  | shardArrived p => exact execShardArrived_keep _ p s h
  | loadComplete p readable => exact execLoadComplete_keep _ p readable s h
  | swapLayers c payload => exact execSwapLayers_keep _ c payload s h
  | swapReadComplete p readable => exact execSwapReadComplete_keep _ p readable s h
  | stopModel c payload => exact execStopModel_keep _ c payload s h
  | startModel c payload => exact execStartModel_keep _ c payload s h
  | removeModel c payload => exact execRemoveModel_keep _ c payload s h
  | loadLendable c payload => exact execLoadLendable_keep _ c payload s h
  | installInset c payload => exact execInstallInset_keep _ c payload s h
  | insetTimeout p handle => exact execInsetTimeout_keep _ p handle s h
  | removeInset c payload => exact execRemoveInset_keep _ c payload s h
  | shardScrub p next mismatch => exact execShardScrub_keep _ p next mismatch s h
  | cfRead c payload env => exact execCfRead_keep _ c payload env s h
  | cfProgram c payload => exact execCfProgram_keep _ c payload s h
  | cfErase c payload => exact execCfErase_keep _ c payload s h
  | cfEraseComplete => exact execCfEraseComplete_keep _ s h
  | cfProgramComplete => exact execCfProgramComplete_keep _ s h
  | cfSuspend c payload => exact execCfSuspend_keep _ c payload s h
  | cfResume c payload => exact execCfResume_keep _ c payload s h
  | cfBlankCheck c payload => exact execCfBlankCheck_keep _ c payload s h
  | cfHalfList c payload => exact execCfHalfList_keep _ c payload s h
  | cfProtSet c payload => exact execCfProtSet_keep _ c payload s h
  | cfPwSet c payload => exact execCfPwSet_keep _ c payload s h
  | cfProtRead c payload => exact execCfProtRead_keep _ c payload s h
  | cfTwinWrite c payload => exact execCfTwinWrite_keep _ c payload s h
  | cfBootSwap c payload => exact execCfBootSwap_keep _ c payload s h
  | cfStartClear c payload => exact execCfStartClear_keep _ c payload s h
  | cfPwReset c payload => exact execCfPwReset_keep _ c payload s h
  | cfLogRead c payload env => exact execCfLogRead_keep _ c payload env s h
  | ethLinkUp port speed master sqi => exact execEthLinkUp_keep _ port speed master sqi s h
  | ethLinkDown port => exact execEthLinkDown_keep _ port s h
  | ethFrameDrop port why => exact execEthFrameDrop_keep _ port why s h
  | arpRequest via target => exact execArpRequest_keep _ via target s h
  | neighbourSolicitation via target => exact execNeighbourSolicitation_keep _ via target s h
  | echoRequest via v6 data => exact execEchoRequest_keep _ via v6 data s h
  | secFrameFail port => exact execSecFrameFail_keep _ port s h
  | oldAssociationExpiry port dir => exact execOldAssociationExpiry_keep _ port dir s h
  | ethFrameReceive via raw => exact execEthFrameReceive_keep _ via raw s h
  | openSession via c retry gen payload => exact execOpenSession_keep _ via c retry gen payload s h
  | closeSession c payload => exact execCloseSession_keep _ c payload s h
  | sessionIdleTimeout sess => exact execSessionIdleTimeout_keep _ sess s h
  | ack via sess ackNum => exact execAck_keep _ via sess ackNum s h
  | retransmitTimeout sess seq => exact execRetransmitTimeout_keep _ sess seq s h
  | segmentTimeout sess => exact execSegmentTimeout_keep _ sess s h
  | regRead c payload => exact execRegRead_keep _ c payload s h
  | regWrite c payload => exact execRegWrite_keep _ c payload s h
  | eventRegister c payload => exact execEventRegister_keep _ c payload s h
  | eventHoldExpiry stream => exact execEventHoldExpiry_keep _ stream s h
  | discover via handle => exact execDiscover_keep _ via handle s h
  | status via handle payload => exact execStatus_keep _ via handle payload s h
  | lesarCarrierChangeExpiry => exact execLesarCarrierChangeExpiry_keep _ s h
  | clearFaults => exact execClearFaults_keep _ s h
  | statusWord => exact execStatusWord_keep _ s h
  | statusInput => exact execStatusInput_keep _ s h
  | statusTemperature => exact execStatusTemperature_keep _ s h
  | readVin => exact execReadVin_keep _ s h
  | readIin => exact execReadIin_keep _ s h
  | readTemperature1 => exact execReadTemperature1_keep _ s h
  | readTemperature2 => exact execReadTemperature2_keep _ s h
  | readTemperature3 => exact execReadTemperature3_keep _ s h
  | readPin => exact execReadPin_keep _ s h
  | pmbusRevision => exact execPmbusRevision_keep _ s h
  | alertResponse => exact execAlertResponse_keep _ s h
  | mfrRegAddr addr => exact execMfrRegAddr_keep _ addr s h
  | mfrRegData => exact execMfrRegData_keep _ s h
  | mfrMboxWr data => exact execMfrMboxWr_keep _ data s h
  | mfrMboxGo => exact execMfrMboxGo_keep _ s h
  | mfrMboxClear => exact execMfrMboxClear_keep _ s h
  | mfrMboxStatus => exact execMfrMboxStatus_keep _ s h
  | mfrMboxRd len => exact execMfrMboxRd_keep _ len s h
  | sidebandReplyReady => exact execSidebandReplyReady_keep _ s h
  | loadFirmware c payload => exact execLoadFirmware_keep _ c payload s h
  | loadFirmwareTimeout => exact execLoadFirmwareTimeout_keep _ s h
  | firmwareCheckComplete => exact execFirmwareCheckComplete_keep _ s h
  | firstHeartbeatTimeout => exact execFirstHeartbeatTimeout_keep _ s h
  | activateFirmware c payload => exact execActivateFirmware_keep _ c payload s h
  | activationProceed => exact execActivationProceed_keep _ s h
  | activationTimeout => exact execActivationTimeout_keep _ s h
  | deviceReset c payload => exact execDeviceReset_keep _ c payload s h
  | deviceResetMapSaved => exact execDeviceResetMapSaved_keep _ s h
  | coreReset => exact execCoreReset_keep J s h
  | systemReset => exact execSystemReset_keep J s h
  | powerOnReset => exact execPowerOnReset_keep J s h
  | resetN => exact execResetN_keep J s h
  | resetNRelease => exact execResetNRelease_keep _ s h
  | watchdogExpiry => exact execWatchdogExpiry_keep J s h
  | watchdogRestart => exact execWatchdogRestart_keep _ s h
  | clockLoss => exact execClockLoss_keep J s h
  | clockRecovery => exact execClockRecovery_keep _ s h
  | underVoltageWarning => exact execUnderVoltageWarning_keep _ s h
  | underVoltageFault => exact execUnderVoltageFault_keep J s h
  | overVoltageWarning => exact execOverVoltageWarning_keep _ s h
  | overVoltageFault => exact execOverVoltageFault_keep J s h
  | overVoltageRecovery => exact execOverVoltageRecovery_keep _ s h
  | voltageWarningEnd high => exact execVoltageWarningEnd_keep _ high s h
  | guardSample g => exact execGuardSample_keep J g s h
  | tripRelease => exact execTripRelease_keep _ s h
  | pgCtlWrite c value => exact execPgCtlWrite_keep _ c value s h
  | tileBlockReset c value => exact execTileBlockReset_keep _ c value s h
  | keeperRomStart => exact execKeeperRomStart_keep _ s h
  | keeperRuntimeStart halfBlank => exact execKeeperRuntimeStart_keep _ halfBlank s h
  | portDieRelease => exact execPortDieRelease_keep _ s h
  | dramTrainingComplete failed => exact execDramTrainingComplete_keep _ failed s h
  | readyForFirmware ms => exact execReadyForFirmware_keep _ ms s h
  | startFrameHold via raw => exact execStartFrameHold_keep _ via raw s h
  | networkBootImage via handle payload => exact execNetworkBootImage_keep _ via handle payload s h
  | attest c payload => exact execAttest_keep _ c payload s h
  | bindSet c payload => exact execBindSet_keep _ c payload s h
  | bindSetTimeout => exact execBindSetTimeout_keep _ s h
  | setKey c payload => exact execSetKey_keep _ c payload s h
  | getCerts c payload => exact execGetCerts_keep _ c payload s h
  | secKey c payload => exact execSecKey_keep _ c payload s h
  | unbindSet c payload => exact execUnbindSet_keep _ c payload s h
  | createPartition c payload => exact execCreatePartition_keep _ c payload s h
  | resizePartition c payload => exact execResizePartition_keep _ c payload s h
  | resetPartition c payload => exact execResetPartition_keep _ c payload s h
  | partitionResetFillComplete p => exact execPartitionResetFillComplete_keep J p s h
  | deletePartition c payload => exact execDeletePartition_keep _ c payload s h
  | setEndpoint c payload => exact execSetEndpoint_keep _ c payload s h
  | stepReplay p => exact execStepReplay_keep _ p s h
  | weightReloadComplete p good => exact execWeightReloadComplete_keep _ p good s h
  | surveyS0 c payload => exact execSurveyS0_keep _ c payload s h
  | surveyS0Complete item fail detail => exact execSurveyS0Complete_keep _ item fail detail s h
  | surveyS1Tile c payload => exact execSurveyS1Tile_keep _ c payload s h
  | surveyS1TestComplete t pass => exact execSurveyS1TestComplete_keep _ t pass s h
  | surveyS1Gazetteer c payload => exact execSurveyS1Gazetteer_keep _ c payload s h
  | gazetteerIndexTestEnd pass => exact execGazetteerIndexTestEnd_keep _ pass s h
  | surveyS2 c payload => exact execSurveyS2_keep _ c payload s h
  | surveyS2Complete badChannels badTiles => exact execSurveyS2Complete_keep _ badChannels badTiles s h
  | veoloErrorRateCheck corrected uncorrectable codewords => exact execVeoloErrorRateCheck_keep _ corrected uncorrectable codewords s h
  | lendableCopyComplete p => exact execLendableCopyComplete_keep _ p s h
  | loanMovesEnd p loan => exact execLoanMovesEnd_keep _ p loan s h

end Sys2Proof.Machine
end

