-- ==== Sys2Proof/Laws/Replies.lean ====
section
/-!
SUPPORT. What answering a frame changes, how a served operation reaches its meaning, and where the register of an address stands.
-/
namespace Sys2Proof.Machine

open Sys2Proof

/-! ## Answers -/

/-- `s` with the protocol state, the sideband, the Keeper and the registers of `w`. -/
def State.withReply (s w : State) : State := { s with lesar := w.lesar, smb := w.smb, keeper := w.keeper, regs := w.regs }

/-- `s'` differs from `s` in nothing but the protocol state, the sideband, the Keeper's last reply and the registers. -/
def repliesOnly (s s' : State) : Prop := s' = s.withReply s'

theorem repliesOnly_refl (s : State) : repliesOnly s s := rfl

theorem withReply_withReply (s a b : State) : (s.withReply a).withReply b = s.withReply b := rfl

theorem repliesOnly_trans {s s1 s2 : State} (h1 : repliesOnly s s1) (h2 : repliesOnly s1 s2) : repliesOnly s s2 := by
  have e : s1.withReply s2 = s.withReply s2 := by
    have := congrArg (fun w : State => w.withReply s2) h1
    exact this.trans (withReply_withReply s s1 s2)
  exact Eq.trans h2 e

/-- What an answer keeps of the protocol state. -/
def keepsGos (s s' : State) : Prop := s'.lesar.goDone = s.lesar.goDone ∧ s'.lesar.regWaits = s.lesar.regWaits ∧ s'.lesar.mboxes = s.lesar.mboxes

theorem keepsGos_trans {s s1 s2 : State} (h1 : keepsGos s s1) (h2 : keepsGos s1 s2) : keepsGos s s2 :=
  ⟨h2.1.trans h1.1, h2.2.1.trans h1.2.1, h2.2.2.trans h1.2.2⟩

theorem sendSeq_only (s : State) (n : Nat) (f : OutFrame) : repliesOnly s (s.sendSeq n f) ∧ keepsGos s (s.sendSeq n f) := by
  unfold State.sendSeq
  split
  · exact ⟨rfl, rfl, rfl, rfl⟩
  · split
    · exact ⟨rfl, rfl, rfl, rfl⟩
    · exact ⟨rfl, rfl, rfl, rfl⟩

theorem keepReply_only (s : State) (c : Ctx) (f : OutFrame) : repliesOnly s (s.keepReply c f) ∧ keepsGos s (s.keepReply c f) := by
  unfold State.keepReply
  split
  · split <;> exact ⟨rfl, rfl, rfl, rfl⟩
  · exact ⟨rfl, rfl, rfl, rfl⟩

theorem sendBare_only (s : State) (via : Via) (f : OutFrame) : repliesOnly s (s.sendBare via f) ∧ keepsGos s (s.sendBare via f) :=
  ⟨rfl, rfl, rfl, rfl⟩

theorem reply_only (s : State) (c : Ctx) (op : Nat) (st : Status) (pl : Bytes) : repliesOnly s (s.reply c op st pl) ∧ keepsGos s (s.reply c op st pl) := by
  unfold State.reply
  split
  · exact ⟨rfl, rfl, rfl, rfl⟩
  · split
    · split
      · simp only
        have h := keepReply_only (s.sendBare ‹Via› (replyFrame c op st (if opKind op = 2 then 48 else 0) pl)) c
          (replyFrame c op st (if opKind op = 2 then 48 else 0) pl)
        exact ⟨repliesOnly_trans (sendBare_only _ _ _).1 h.1, keepsGos_trans (sendBare_only _ _ _).2 h.2⟩
      · exact ⟨rfl, rfl, rfl, rfl⟩
    · split
      · exact ⟨rfl, rfl, rfl, rfl⟩
      · next ss hss =>
        split
        · exact sendSeq_only _ _ _
        · simp only
          refine foldl_inv (fun s' => repliesOnly s s' ∧ keepsGos s s') _ (fun b a h => ?_) _ s ⟨rfl, rfl, rfl, rfl⟩
          have h2 := sendSeq_only b c.sess (replyFrame c op st
            ((if a = 0 then 16 else 0) + (if a + 1 = (pieces (s.payloadLimit (s.viaOf ss) ss.gen) 8 pl).length then 32 else 0))
            ((pieces (s.payloadLimit (s.viaOf ss) ss.gen) 8 pl).getD a []))
          exact ⟨repliesOnly_trans h.1 h2.1, keepsGos_trans h.2 h2.2⟩

theorem settleAll_reply (s : State) (c : Ctx) (op : Nat) (st : Status) (pl : Bytes) (h : s.lesar.goDone = []) :
    (s.reply c op st pl).settleAll = s.reply c op st pl :=
  settleAll_idle _ ((reply_only s c op st pl).2.1.trans h)

/-! ## Served operations -/

theorem isOwner_addresses {s : State} {c : Ctx} (h : s.isOwner c = true) : s.addresses c = true := by
  unfold State.addresses; rw [h]; rfl

/-- An operation that firmware does not serve waits for no turn. -/
theorem turn_of (s : State) (c : Ctx) (op : Nat) (v : Server) (h : (v != .firmware) = true) : s.turn c op v = true := by
  unfold State.turn
  rw [h]; rfl

/-- An operation with no message in a mailbox waits for no turn. -/
theorem turn_none (s : State) (c : Ctx) (op : Nat) (v : Server)
    (h : s.lesar.mboxes.find? (fun m => m.complete && m.sess == c.sess && m.handle == c.handle && m.opcode == op) = none) : s.turn c op v = true := by
  unfold State.turn
  simp [h]

/-- A frame that the state of the device and the rights of its session let through, when it is its turn, reaches its operation. -/
theorem serve_body (s : State) (c : Ctx) (op : Nat) (v : Server) (own : Bool) (body : State → Res)
    (h1 : (s.freeMbox c op).serveRefusal c op v = none) (h2 : s.addresses c = true) (h3 : own = true → s.isOwner c = true)
    (h4 : s.turn c op v = true) : s.serve c op v own body = body (s.freeMbox c op) := by
  unfold State.serve
  simp only [h1, h4, Bool.not_true, Bool.false_eq_true, if_false]
  split
  · rfl
  · cases own with
    | false => simp [h2]
    | true => simp [h3 rfl, h2]

theorem freeMbox_frame (s : State) (c : Ctx) (op : Nat) : (s.freeMbox c op).setLesar s.lesar = s := by
  unfold State.freeMbox; split <;> rfl

theorem freeMbox_goDone (s : State) (c : Ctx) (op : Nat) : (s.freeMbox c op).lesar.goDone = s.lesar.goDone := by
  unfold State.freeMbox; split <;> rfl

/-! ## The place of a register -/

/-- The first address past a block. -/
def Blk.stop (b : Blk) : Nat := b.place.1 + b.place.2.1 * b.place.2.2

theorem blk_apart : ∀ b ∈ Blk.all, ∀ d ∈ Blk.all, b = d ∨ b.stop ≤ d.place.1 ∨ d.stop ≤ b.place.1 := by decide

theorem blk_mem (b : Blk) : b ∈ Blk.all := by cases b <;> decide

theorem blk_stop_lt (b : Blk) : b.stop ≤ 2 ^ 32 := by cases b <;> decide

theorem blk_aligned (b : Blk) : b.place.1 % 4 = 0 ∧ b.place.2.1 % 4 = 0 ∧ 0 < b.place.2.1 := by cases b <;> decide

theorem at_bounds {b : Blk} {k off : Nat} (hk : k < b.place.2.2) (ho : off < b.place.2.1) : b.place.1 ≤ b.at k off ∧ b.at k off < b.stop := by
  unfold Blk.at Blk.stop
  have : b.place.2.1 * (k + 1) ≤ b.place.2.1 * b.place.2.2 := Nat.mul_le_mul_left _ hk
  rw [Nat.mul_succ] at this
  omega

theorem find_unique {α : Type} (p : α → Bool) (l : List α) (b : α) (hb : b ∈ l) (hp : p b = true) (hu : ∀ d ∈ l, p d = true → d = b) :
    l.find? p = some b := by
  cases h : l.find? p with
  | none => exact absurd hp (by simpa using (List.find?_eq_none.mp h) b hb)
  | some d => rw [hu d (List.mem_of_find?_eq_some h) (List.find?_some h)]

theorem regPlace_at {b : Blk} {k off : Nat} (hk : k < b.place.2.2) (ho : off < b.place.2.1) : regPlace (b.at k off) = some (b, k, off) := by
  obtain ⟨h1, h2⟩ := at_bounds hk ho
  have hf : Blk.all.find? (fun d => d.covers (b.at k off)) = some b := by
    refine find_unique _ _ _ (blk_mem b) ?_ ?_
    · simp only [Blk.covers, Bool.and_eq_true, decide_eq_true_eq]; exact ⟨h1, h2⟩
    · intro d hd hc
      simp only [Blk.covers, Bool.and_eq_true, decide_eq_true_eq] at hc
      rcases blk_apart b (blk_mem b) d hd with h | h | h
      · exact h.symm
      · exact absurd (Nat.lt_of_lt_of_le h2 h) (by omega)
      · have : d.stop = d.place.1 + d.place.2.1 * d.place.2.2 := rfl
        omega
  unfold regPlace
  rw [hf]
  simp only [Option.map_some]
  have hs := (blk_aligned b).2.2
  have e : b.at k off - b.place.1 = off + b.place.2.1 * k := by unfold Blk.at; omega
  rw [e, Nat.add_mul_div_left _ _ hs, Nat.div_eq_of_lt ho, Nat.add_mul_mod_self_left, Nat.mod_eq_of_lt ho, Nat.zero_add]

theorem at_lt {b : Blk} {k off : Nat} (hk : k < b.place.2.2) (ho : off < b.place.2.1) : b.at k off < 2 ^ 32 :=
  Nat.lt_of_lt_of_le (at_bounds hk ho).2 (blk_stop_lt b)

theorem at_mod4 {b : Blk} {k off : Nat} (ho : off % 4 = 0) : b.at k off % 4 = 0 := by
  obtain ⟨h1, h2, _⟩ := blk_aligned b
  unfold Blk.at
  rw [Nat.add_mod, Nat.add_mod b.place.1, Nat.mul_mod, h1, h2, ho]
  simp

/-! ## The device owner's writes -/

theorem mayWrite_owner {s : State} {c : Ctx} (h : s.isOwner c = true) (w : Who) : s.mayWrite c w = true := by
  cases w <;> simp [State.mayWrite, h]

/-- One entry of the device owner's: what its range says, and then what the write does. -/
theorem writeEntry_owner (s : State) (c : Ctx) (b : Blk) (k off : Nat) (v : Word) (ho : s.isOwner c = true) (hk : k < b.place.2.2)
    (hoff : off < b.place.2.1) (h4 : off % 4 = 0) (hp : b.perPart = true → ∃ pt, s.part k = some pt ∧ pt.resetting = none)
    (hf : b.fields off ≠ []) (hd : (b == .dev && off == 0x300) = false) :
    s.writeEntry c (b.at k off) v =
      match s.outOfRange b k off (writtenWord (b.fields off) (if b == .vlDev then s.regValue b k off else s.reg b k off) v) with
      | some st => .no st
      | none => s.writeEffect b k off (s.reg b k off)
          (writtenWord (b.fields off) (if b == .vlDev then s.regValue b k off else s.reg b k off) v) v := by
  have hmr : s.mayAccess c b k off = true := by unfold State.mayAccess State.mayRead; rw [ho]; rfl
  have hmine : (b.fields off).filter (fun f => s.mayWrite c f.who) = b.fields off := by
    rw [List.filter_eq_self]; intro f _; exact mayWrite_owner ho f.who
  have hany : (b.fields off).any (fun f => !s.mayWrite c f.who && f.asks (s.regValue b k off) v) = false := by
    rw [List.any_eq_false]; intro f _; rw [mayWrite_owner ho f.who]; simp
  have hem : (b.fields off).isEmpty = false := by
    cases h : b.fields off with
    | nil => exact absurd h hf
    | cons _ _ => rfl
  have hp1 : (b.perPart && (s.part k).isNone) = false := by
    cases h : b.perPart with
    | false => rfl
    | true => obtain ⟨pt, h1, _⟩ := hp h; rw [h1]; rfl
  have hp2 : (b.perPart && (s.part k).any (·.resetting.isSome)) = false := by
    cases h : b.perPart with
    | false => rfl
    | true => obtain ⟨pt, h1, h2⟩ := hp h; rw [h1]; simp [h2]
  unfold State.writeEntry
  rw [if_neg (by rw [at_mod4 h4]; decide), regPlace_at hk hoff]
  simp only [hmr, Bool.not_true, Bool.false_eq_true, if_false, hp1, hp2, hem, hmine, hany, Bool.or_self, hd, Bool.false_and]
  try (split <;> simp_all)

/-- The frame of one register entry of the device owner's that the state of the device serves. -/
theorem regWriteOne_eq (s : State) (c : Ctx) (b : Blk) (k off : Nat) (v : Word) (ho : s.isOwner c = true)
    (hs : s.serveRefusal c 0x0607 .early = none) (hk : k < b.place.2.2) (hoff : off < b.place.2.1) :
    s.regWriteOne c b k off v = .next (State.settleAll (match s.writeEntry c (b.at k off) v with
      | .no st => s.reply c 0x0607 st (beBytes 4 0)
      | .done s1 => s1.reply c 0x0607 .ok []
      | .waits s1 what part =>
        s1.setLesar { s1.lesar with regWaits := s1.lesar.regWaits ++ [⟨c, what, part, 0, []⟩] })) := by
  have ha : (decide (c.sess ≠ sidebandSess) && !s.addresses c) = false := by rw [isOwner_addresses ho]; simp
  have hn : (BitVec.ofNat 32 (b.at k off)).toNat = b.at k off := by
    rw [BitVec.toNat_ofNat, Nat.mod_eq_of_lt (at_lt hk hoff)]
  unfold State.regWriteOne State.regWrites State.regFrame
  simp only [hk, decide_true, require, if_true, hs, ha, Bool.false_eq_true, if_false, State.writeEntries, hn]
  try rfl

/-- The bits of a word whose field has been replaced. -/
theorem setField_getLsbD (w : Word) (hi lo v i : Nat) (h : lo ≤ hi) (hh : hi < 32) (hi' : i < 32) :
    (Word.setField w hi lo v).getLsbD i = if lo ≤ i ∧ i ≤ hi then v.testBit (i - lo) else w.getLsbD i := by
  unfold Word.setField Word.field
  rw [BitVec.getLsbD_ofNat, BitVec.getLsbD]
  simp only [hi', decide_true, Bool.true_and]
  have hw := w.isLt
  generalize w.toNat = x at hw ⊢
  obtain ⟨n, rfl⟩ : ∃ n, hi = lo + n := ⟨hi - lo, by omega⟩
  have e1 : lo + n + 1 - lo = n + 1 := by omega
  rw [e1]
  -- x = (a * 2^(n+1) + f) * 2^lo + l
  have hl : x % 2 ^ lo < 2 ^ lo := Nat.mod_lt _ (Nat.two_pow_pos _)
  have hf : x / 2 ^ lo % 2 ^ (n + 1) < 2 ^ (n + 1) := Nat.mod_lt _ (Nat.two_pow_pos _)
  have hv : v % 2 ^ (n + 1) < 2 ^ (n + 1) := Nat.mod_lt _ (Nat.two_pow_pos _)
  have d1 : x = 2 ^ lo * (2 ^ (n + 1) * (x / 2 ^ lo / 2 ^ (n + 1)) + x / 2 ^ lo % 2 ^ (n + 1)) + x % 2 ^ lo := by
    rw [Nat.div_add_mod, Nat.div_add_mod]
  have d2 : x - x / 2 ^ lo % 2 ^ (n + 1) * 2 ^ lo + v % 2 ^ (n + 1) * 2 ^ lo =
      2 ^ lo * (2 ^ (n + 1) * (x / 2 ^ lo / 2 ^ (n + 1)) + v % 2 ^ (n + 1)) + x % 2 ^ lo := by
    generalize x / 2 ^ lo % 2 ^ (n + 1) = f at *
    generalize v % 2 ^ (n + 1) = g at *
    generalize x / 2 ^ lo / 2 ^ (n + 1) = a at *
    generalize x % 2 ^ lo = l at *
    rw [Nat.mul_add] at d1 ⊢
    rw [Nat.mul_comm f, Nat.mul_comm g]
    generalize 2 ^ lo * (2 ^ (n + 1) * a) = A at *
    generalize 2 ^ lo * f = F at *
    generalize 2 ^ lo * g = G at *
    omega
  rw [d2]
  conv_rhs => rw [d1]
  rw [Nat.testBit_two_pow_mul_add _ hl, Nat.testBit_two_pow_mul_add _ hl, Nat.testBit_two_pow_mul_add _ hf, Nat.testBit_two_pow_mul_add _ hv]
  by_cases c1 : i < lo
  · rw [if_pos c1, if_pos c1, if_neg (by omega)]
  · rw [if_neg c1, if_neg c1]
    by_cases c2 : i - lo < n + 1
    · rw [if_pos c2, if_pos c2, if_pos (by omega), Nat.testBit_mod_two_pow]
      simp [c2]
    · rw [if_neg c2, if_neg c2, if_neg (by omega)]

theorem field_testBit (v : Word) (hi lo i : Nat) (h : lo ≤ i) (hh : i ≤ hi) : (v.field hi lo).testBit (i - lo) = v.getLsbD i := by
  unfold Word.field
  rw [Nat.testBit_mod_two_pow, Nat.testBit_div_two_pow, BitVec.getLsbD]
  rw [show i - lo + lo = i by omega]
  simp; omega

theorem writtenWord_bits (old v : Word) (i : Nat) (hi : i < 32) : ∀ (fs : List Fld), (∀ f ∈ fs, f.lo ≤ f.hi ∧ f.hi < 32) →
    (writtenWord fs old v).getLsbD i = if fs.any (fun f => f.acc == .rw && decide (f.lo ≤ i) && decide (i ≤ f.hi)) then v.getLsbD i
      else old.getLsbD i := by
  have main : ∀ (fs : List Fld) (w : Word), (∀ f ∈ fs, f.lo ≤ f.hi ∧ f.hi < 32) → (w.getLsbD i = v.getLsbD i ∨ w.getLsbD i = old.getLsbD i) →
      (fs.foldl (fun w f => if f.acc == .rw then w.setField f.hi f.lo (v.field f.hi f.lo) else w) w).getLsbD i =
      if fs.any (fun f => f.acc == .rw && decide (f.lo ≤ i) && decide (i ≤ f.hi)) then v.getLsbD i else w.getLsbD i := by
    intro fs
    induction fs with
    | nil => intro w _ _; rfl
    | cons f fs ih =>
      intro w hf hw
      rw [List.foldl_cons, List.any_cons]
      obtain ⟨h1, h2⟩ := hf f (by simp)
      have hw2 : (if f.acc == .rw then w.setField f.hi f.lo (v.field f.hi f.lo) else w).getLsbD i =
          if (f.acc == .rw && decide (f.lo ≤ i) && decide (i ≤ f.hi)) = true then v.getLsbD i else w.getLsbD i := by
        cases ha : (f.acc == .rw) with
        | false => simp
        | true =>
          simp only [if_true, Bool.true_and, Bool.and_eq_true, decide_eq_true_eq]
          rw [setField_getLsbD _ _ _ _ _ h1 h2 hi]
          split
          · next hc => exact field_testBit _ _ _ _ hc.1 hc.2
          · rfl
      rw [ih _ (fun g hg => hf g (by simp [hg])) (by rw [hw2]; split; exact .inl rfl; exact hw), hw2]
      cases (f.acc == .rw && decide (f.lo ≤ i) && decide (i ≤ f.hi)) <;> cases fs.any (fun f => f.acc == .rw && decide (f.lo ≤ i) && decide (i ≤ f.hi)) <;> rfl
  intro fs hfs
  exact main fs old hfs (.inr rfl)

theorem bit_getLsbD (w : Word) (i : Nat) : w.bit i = w.getLsbD i := by
  unfold Word.bit
  rw [BitVec.getLsbD, Nat.testBit_eq_decide_div_mod_eq]
  rw [Bool.eq_iff_iff]; simp

theorem field_congr (a b : Word) (hi lo : Nat) (h : ∀ i, lo ≤ i → i ≤ hi → a.getLsbD i = b.getLsbD i) : a.field hi lo = b.field hi lo := by
  unfold Word.field
  refine Nat.eq_of_testBit_eq (fun j => ?_)
  rw [Nat.testBit_mod_two_pow, Nat.testBit_mod_two_pow, Nat.testBit_div_two_pow, Nat.testBit_div_two_pow]
  by_cases hj : j < hi + 1 - lo
  · have := h (j + lo) (by omega) (by omega)
    rw [BitVec.getLsbD, BitVec.getLsbD] at this
    rw [this]
  · simp [hj]

theorem rawReg_putReg_self (s : State) (b : Blk) (k off : Nat) (w : Word) : (s.putReg b k off w).rawReg (b.at k off) = w :=
  State.reg_putReg_self s b k off w

theorem onlyReg_putReg (s : State) (b : Blk) (k off : Nat) (w : Word) : onlyReg s (s.putReg b k off w) (b.at k off) :=
  ⟨rfl, fun _ h => State.rawReg_putReg_ne _ _ _ _ _ h⟩

theorem gratClear_spec (t : State) (p : Nat) :
    ((List.range 10).foldl (fun s i => s.putReg .grat p (0x14 + 4 * i) 0) t).setRegs t.regs = t ∧
    ((List.range 10).foldl (fun s i => s.putReg .grat p (0x14 + 4 * i) 0) t).reg .grat p 0 = t.reg .grat p 0 ∧
    ∀ i, i < 10 → ((List.range 10).foldl (fun s i => s.putReg .grat p (0x14 + 4 * i) 0) t).reg .grat p (0x14 + 4 * i) = 0#32 := by
  refine ⟨?_, ?_, ?_⟩
  · exact foldl_inv (fun u : State => u.setRegs t.regs = t) (fun s i => s.putReg .grat p (0x14 + 4 * i) 0) (fun b a h => h) _ _ rfl
  · have : ∀ (l : List Nat) (t : State), (l.foldl (fun s i => s.putReg .grat p (0x14 + 4 * i) 0) t).reg .grat p 0 = t.reg .grat p 0 := by
      intro l
      induction l with
      | nil => intro t; rfl
      | cons a l ih => intro t; rw [List.foldl_cons, ih, reg_putReg_ne _ _ _ _ (by omega)]
    exact this _ _
  · intro i hi
    have : ∀ (l : List Nat) (t : State), (i ∈ l ∨ t.reg .grat p (0x14 + 4 * i) = 0#32) →
        (l.foldl (fun s i => s.putReg .grat p (0x14 + 4 * i) 0) t).reg .grat p (0x14 + 4 * i) = 0#32 := by
      intro l
      induction l with
      | nil => intro t h; rcases h with h | h; exact absurd h (by simp); exact h
      | cons a l ih =>
        intro t h
        rw [List.foldl_cons]
        by_cases ha : a = i
        · subst ha; exact ih _ (.inr (State.reg_putReg_self _ _ _ _ _))
        · refine ih _ ?_
          rcases h with h | h
          · rcases List.mem_cons.mp h with h | h
            · exact absurd h.symm ha
            · exact .inl h
          · right; rw [reg_putReg_ne _ _ _ _ (by omega)]; exact h
    exact this _ _ (.inl (List.mem_range.mpr hi))

theorem erase_append_self {α : Type} [DecidableEq α] (l : List α) (x : α) (h : x ∉ l) : (l ++ [x]).erase x = l := by
  rw [List.erase_append_right _ h]; simp

theorem settleGos_one (s : State) (n what p : Nat) (st : Status) (w : RegWait) (hg : s.lesar.goDone = [(what, p, st)])
    (hf : s.lesar.regWaits.find? (fun w => w.what == what && w.part == p) = some w) (hr : w.rest = []) :
    s.settleGos (n + 1) = (s.setLesar { s.lesar with goDone := [], regWaits := s.lesar.regWaits.erase w }).reply w.ctx 0x0607 st
      (if st = .ok then [] else beBytes 4 w.index) := by
  have idle : ∀ (n : Nat) (t : State), t.lesar.goDone = [] → t.settleGos n = t := by
    intro n t h
    cases n with
    | zero => rfl
    | succ n => simp only [State.settleGos, h]
  simp only [State.settleGos, hg, State.setLesar_lesar, hf, hr, State.writeEntries]
  rw [idle]
  · by_cases h : st = .ok
    · subst h; rfl
    · rw [if_neg h, if_neg h]; rfl
  · split
    · rw [(reply_only _ _ _ _ _).2.1]; rfl
    · rw [(reply_only _ _ _ _ _).2.1]; rfl

/-- A GO whose operation has ended at once answers its frame. -/
theorem settle_now (s : State) (c : Ctx) (what p : Nat) (st : Status) (h : s.lesar.goDone = [])
    (hw : ∀ w ∈ s.lesar.regWaits, ¬ (w.what = what ∧ w.part = p)) :
    ((s.pushGo what p st).setLesar { (s.pushGo what p st).lesar with
      regWaits := (s.pushGo what p st).lesar.regWaits ++ [⟨c, what, p, 0, []⟩] }).settleAll = s.reply c 0x0607 st (if st = .ok then [] else beBytes 4 0) := by
  have hf : (s.lesar.regWaits ++ [(⟨c, what, p, 0, []⟩ : RegWait)]).find? (fun w => w.what == what && w.part == p) =
      some ⟨c, what, p, 0, []⟩ := by
    rw [List.find?_append]
    have : s.lesar.regWaits.find? (fun w => w.what == what && w.part == p) = none := by
      rw [List.find?_eq_none]; intro w hwm; have := hw w hwm; simpa using this
    rw [this]; simp
  have he : (s.lesar.regWaits ++ [(⟨c, what, p, 0, []⟩ : RegWait)]).erase ⟨c, what, p, 0, []⟩ = s.lesar.regWaits :=
    erase_append_self _ _ (fun hm => hw _ hm ⟨rfl, rfl⟩)
  unfold State.settleAll
  obtain ⟨n, hn⟩ : ∃ n, 64 * (((s.pushGo what p st).setLesar { (s.pushGo what p st).lesar with
      regWaits := (s.pushGo what p st).lesar.regWaits ++ [⟨c, what, p, 0, []⟩] }).lesar.goDone.length +
      ((s.pushGo what p st).setLesar { (s.pushGo what p st).lesar with
      regWaits := (s.pushGo what p st).lesar.regWaits ++ [⟨c, what, p, 0, []⟩] }).lesar.regWaits.length + 1) = n + 1 := ⟨_, rfl⟩
  rw [hn, settleGos_one _ n what p st ⟨c, what, p, 0, []⟩ (by show s.lesar.goDone ++ [(what, p, st)] = _; rw [h]; rfl) hf rfl]
  have e : (((s.pushGo what p st).setLesar { (s.pushGo what p st).lesar with
      regWaits := (s.pushGo what p st).lesar.regWaits ++ [⟨c, what, p, 0, []⟩] }).setLesar
      { ((s.pushGo what p st).setLesar { (s.pushGo what p st).lesar with
      regWaits := (s.pushGo what p st).lesar.regWaits ++ [⟨c, what, p, 0, []⟩] }).lesar with
        goDone := [], regWaits := List.erase ((s.pushGo what p st).setLesar { (s.pushGo what p st).lesar with
      regWaits := (s.pushGo what p st).lesar.regWaits ++ [⟨c, what, p, 0, []⟩] }).lesar.regWaits ⟨c, what, p, 0, []⟩ }) = s := by
    show s.setLesar { s.lesar with goDone := [], regWaits := (s.lesar.regWaits ++ [(⟨c, what, p, 0, []⟩ : RegWait)]).erase ⟨c, what, p, 0, []⟩ } = s
    rw [he, ← h]
    rfl
  rw [e]

/-- A GO that waits: the frame of the device owner's one entry. -/
theorem go_waits (s s1 : State) (c : Ctx) (b : Blk) (k off what p : Nat) (v : Word) (hw : s.ownerWrites c) (hk : k < b.place.2.2)
    (hoff : off < b.place.2.1) (he : s.writeEntry c (b.at k off) v = .waits s1 what p) (hg : s1.lesar = s.lesar) :
    s.regWriteOne c b k off v = .next (s1.setLesar { s.lesar with regWaits := s.lesar.regWaits ++ [⟨c, what, p, 0, []⟩] }) := by
  rw [regWriteOne_eq s c b k off v hw.1 hw.2.1 hk hoff, he]
  simp only
  rw [hg, settleAll_idle]
  exact hw.2.2

/-- A GO whose operation ends at once. -/
theorem go_ends (s s1 : State) (c : Ctx) (b : Blk) (k off what p : Nat) (v : Word) (st : Status) (hw : s.ownerWrites c) (hk : k < b.place.2.2)
    (hoff : off < b.place.2.1) (he : s.writeEntry c (b.at k off) v = .waits (s1.pushGo what p st) what p) (hg : s1.lesar = s.lesar)
    (hn : ∀ w ∈ s.lesar.regWaits, ¬ (w.what = what ∧ w.part = p)) :
    s.regWriteOne c b k off v = .next (s1.reply c 0x0607 st (if st = .ok then [] else beBytes 4 0)) := by
  rw [regWriteOne_eq s c b k off v hw.1 hw.2.1 hk hoff, he]
  simp only
  rw [settle_now s1 c what p st (by rw [hg]; exact hw.2.2) (by rw [hg]; exact hn)]

theorem shareReadChecked_clean (s : State) (pt : Part) (off n : Nat) (bs : Bytes) (hb : s.dram.bad = []) (hf : s.dram.failed = [])
    (h : s.shareRead pt off n = some bs) : s.shareReadChecked pt off n = (s, some bs, false) := by
  unfold State.shareRead at h
  unfold State.shareReadChecked
  cases hr : pt.dramRuns (pt.dram.length + 1) off n with
  | none => rw [hr] at h; cases h
  | some rs =>
    rw [hr] at h
    simp only [Option.map_some, Option.some.injEq] at h
    have hfold : rs.foldl (fun (acc : State × Bool) r => ((acc.1.burstFind r.1 r.2).1, acc.2 || (acc.1.burstFind r.1 r.2).2)) (s, false) = (s, false) := by
      refine foldl_inv (fun a => a = (s, false)) _ ?_ rs _ rfl
      intro b a hb'
      rw [hb', burstFind_clean s _ _ hb hf]; rfl
    simp only [hfold, h]
    rfl

theorem shareWrite_clean {s u : State} {pt : Part} {off : Nat} {bs : Bytes} (h : s.shareWrite pt off bs = some u) (hb : s.dram.bad = [])
    (hf : s.dram.failed = []) : ∃ rs, u = s.setDramMem (writtenRuns s.mem.dram rs bs) := by
  unfold State.shareWrite at h
  cases hr : pt.dramRuns (pt.dram.length + 1) off bs.length with
  | none => rw [hr] at h; cases h
  | some rs => rw [hr] at h; cases h; exact ⟨rs, writeRuns_clean rs s bs hb hf⟩

theorem shareWrite_setRegs (s : State) (r : NMap Word) (pt : Part) (off : Nat) (bs : Bytes) (hb : s.dram.bad = []) (hf : s.dram.failed = []) :
    (s.setRegs r).shareWrite pt off bs = (s.shareWrite pt off bs).map (·.setRegs r) := by
  unfold State.shareWrite
  cases pt.dramRuns (pt.dram.length + 1) off bs.length with
  | none => rfl
  | some rs =>
    have h1 := writeRuns_clean rs s bs hb hf
    have h2 := writeRuns_clean rs (s.setRegs r) bs hb hf
    simp only [Option.map_some, h1, h2]
    rfl

theorem shareWrite_frame {s u : State} {pt : Part} {off : Nat} {bs : Bytes} (h : s.shareWrite pt off bs = some u) :
    ((u.setMem s.mem).setDram s.dram).setRegs s.regs = s := by
  unfold State.shareWrite at h
  cases hr : pt.dramRuns (pt.dram.length + 1) off bs.length with
  | none => rw [hr] at h; cases h
  | some rs => rw [hr] at h; cases h; exact writeRuns_frame _ _ _

theorem writeEntry_ownerPart (s : State) (c : Ctx) (b : Blk) (p off : Nat) (v : Word) (pt : Part) (hw : s.ownerWrites c) (hk : p < b.place.2.2)
    (hoff : off < b.place.2.1) (h4 : off % 4 = 0) (hp : s.part p = some pt) (hr : pt.resetting = none) (hf : b.fields off ≠ [])
    (hd : (b == .dev && off == 0x300) = false) (hv : (b == .vlDev) = false)
    (ho : s.outOfRange b p off (writtenWord (b.fields off) (s.reg b p off) v) = none) :
    s.writeEntry c (b.at p off) v = s.writeEffect b p off (s.reg b p off) (writtenWord (b.fields off) (s.reg b p off) v) v := by
  rw [writeEntry_owner s c b p off v hw.1 hk hoff h4 (fun _ => ⟨pt, hp, hr⟩) hf hd]
  simp only [hv, Bool.false_eq_true, if_false, ho]

theorem startTableLoad_run (s : State) (p : Nat) (w : Word) (pt : Part) (bs : Bytes) (hpt : s.part p = some pt) (op : LoadOp) (src : Nat)
    (hop : op = ⟨(s.reg .tbl p 0x08).field 17 16, (s.reg .tbl p 0x08).field 15 8, (s.reg .tbl p 0x08).field 5 0, w.field 5 0, w.field 29 28, w.bit 30,
      if w.bit 27 then some (w.field 22 16) else none⟩)
    (hsrc : src = (s.reg .tbl p 0x00).field 31 9 * 512 + (s.reg .tbl p 0x04).field 5 0 * 2 ^ 32)
    (hok : LoadOp.ok op = true) (hquad : op.quad.all (fun q => pt.quads.contains q) = true) (hread : s.shareRead pt src (512 * op.rows) = some bs)
    (hlen : src + 512 * op.rows ≤ pt.shareBytes) (hbad : s.dram.bad = []) (hfail : s.dram.failed = []) :
    s.startTableLoad p w = .waits (s.addLoad p ⟨op, bs, none⟩) 1 p := by
  have h2 : (op.quad.any (fun q => !pt.quads.contains q) || decide (pt.shareBytes < src + 512 * op.rows)) = false := by
    have : decide (pt.shareBytes < src + 512 * op.rows) = false := by simp; exact hlen
    rw [this, Bool.or_false]
    cases ho : op.quad with
    | none => rfl
    | some q => rw [ho] at hquad; simp only [Option.all_some] at hquad; simp only [Option.any_some, hquad]; rfl
  have h3 := shareReadChecked_clean s pt src (512 * op.rows) bs hbad hfail hread
  have h1 := hok
  rw [hop] at h1 h2 h3
  simp only at h1 h2 h3
  unfold State.startTableLoad
  simp only [hpt, ← hop, ← hsrc, hok, h2, h3, Bool.not_true, Bool.false_eq_true, if_false]

theorem writeEffect_tblGo (s : State) (p : Nat) (old w v : Word) (h : v.bit 31 = true) :
    s.writeEffect .tbl p 0x0C old w v = (s.putReg .tbl p 0x0C w).startTableLoad p w := by
  simp only [State.writeEffect, h, if_true]

theorem addLoad_start (s : State) (p : Nat) (pt : Part) (j : LoadJob) (hp : s.part p = some pt) (hl : pt.load = none) (hq : pt.loadQ = [])
    (hc : pt.copying.getD j.op.kind false = false) (ha : namesActive j.op.bank (pt.activeBank j.op.kind) = false) :
    (s.addLoad p j).part p = some { pt with load := some j } ∧ onlyPart s (s.addLoad p j) p := by
  have e : s.addLoad p j = s.modPart p (fun v => { { { v with loadQ := v.loadQ ++ [j] } with loadQ := [] } with load := some j }) := by
    unfold State.addLoad
    rw [hp]
    simp only [hq, List.length_nil, Nat.zero_add]
    simp only [State.pumpLoads, part_of_modPart (fun v => { v with loadQ := v.loadQ ++ [j] }) hp, hl, hq, List.nil_append]
    simp only [hc, Bool.false_eq_true, if_false, State.modPart_modPart]
    refine (if_neg ?_).trans rfl
    rw [Bool.not_eq_true]; exact ha
  rw [e]
  refine ⟨?_, onlyPart_modPart _ _ _⟩
  rw [part_of_modPart _ hp]
  rw [← hq]

theorem go_frame (s s1 : State) (b : Blk) (p off : Nat) (w : Word) (l : Lesar) (h : onlyPart (s.putReg b p off w) s1 p) :
    (((s1.setLesar l).setRegs s.regs).setParts s.parts).setLesar s.lesar = s := by
  have h1 := congrArg (fun x : State => (x.setRegs s.regs).setLesar s.lesar) h.1
  exact h1

theorem pumpLoads_idle (s : State) (p n : Nat) (pt : Part) (hp : s.part p = some pt) (hq : pt.loadQ = []) : s.pumpLoads p n = s := by
  cases n with
  | zero => rfl
  | succ n =>
    simp only [State.pumpLoads, hp, hq]
    split
    · next h => cases h
    · rfl

theorem settle_one (s : State) (what p : Nat) (st : Status) (w : RegWait) (hg : s.lesar.goDone = [(what, p, st)])
    (hf : s.lesar.regWaits.find? (fun w => w.what == what && w.part == p) = some w) (hr : w.rest = []) :
    s.settleAll = (s.setLesar { s.lesar with goDone := [], regWaits := s.lesar.regWaits.erase w }).reply w.ctx 0x0607 st
      (if st = .ok then [] else beBytes 4 w.index) := by
  unfold State.settleAll
  obtain ⟨n, hn⟩ : ∃ n, 64 * (s.lesar.goDone.length + s.lesar.regWaits.length + 1) = n + 1 := ⟨_, rfl⟩
  rw [hn, settleGos_one s n what p st w hg hf hr]

theorem finishLoad_go (s : State) (p : Nat) (pt : Part) (j : LoadJob) (hp : s.part p = some pt) (hreg : j.bay = none) (hg : s.lesar.goDone = []) :
    (s.finishLoad p j).part p = some { pt with load := none, swapStaged := if j.op.swap then pt.swapStaged.set j.op.kind true else pt.swapStaged } ∧
      (s.finishLoad p j).lesar = { s.lesar with goDone := [(1, p, .ok)] } := by
  have main : ∀ ts : List Nat, ∀ g : Part → Part,
      (((ts.foldl (fun (s : State) t => s.modTile t (fun v => v.loadRows (1 - pt.activeBank j.op.kind) j)) (s.pushGo 1 p .ok)).lastLoad p .ok).modPart p g).part p =
        some (g pt) ∧
      (((ts.foldl (fun (s : State) t => s.modTile t (fun v => v.loadRows (1 - pt.activeBank j.op.kind) j)) (s.pushGo 1 p .ok)).lastLoad p .ok).modPart p g).lesar =
        { s.lesar with goDone := [(1, p, .ok)] } := by
    intro ts g
    have hl := foldl_modTile_frame (fun v => v.loadRows (1 - pt.activeBank j.op.kind) j) ts (s.pushGo 1 p .ok)
    generalize ts.foldl (fun (s : State) t => s.modTile t (fun v => v.loadRows (1 - pt.activeBank j.op.kind) j)) (s.pushGo 1 p .ok) = u at hl
    have hu : u.parts = s.parts := (congrArg State.parts hl : (u.setTiles _).parts = _)
    have hul : u.lesar = (s.pushGo 1 p .ok).lesar := (congrArg State.lesar hl : (u.setTiles _).lesar = _)
    refine ⟨part_of_modPart (s := u.lastLoad p .ok) _ (show NMap.find u.parts p = _ by rw [hu]; exact hp), ?_⟩
    show u.lesar = _
    rw [hul]
    unfold State.pushGo
    rw [State.setLesar_lesar, hg]; rfl
  unfold State.finishLoad
  rw [hp]
  simp only [hreg, Option.isNone_none, if_true]
  cases j.op.quad with
  | none => exact main _ _
  | some q => exact main _ _

theorem startBitmap_ok (s : State) (p : Nat) (w : Word) (pt : Part) (bs : Bytes) (src : Nat) (hpt : s.part p = some pt)
    (hsrc : src = (s.reg .kv p 0x14).field 31 11 * 2048 + (s.reg .kv p 0x18).field 5 0 * 2 ^ 32)
    (h1 : w.field 29 28 ≠ 1) (h2 : 1 ≤ w.field 6 0) (h3 : w.field 6 0 ≤ 64) (h4 : w.field 25 16 + w.field 6 0 ≤ 1024)
    (h5 : src + 2048 * w.field 6 0 ≤ pt.shareBytes) (hbad : s.dram.bad = []) (hfail : s.dram.failed = [])
    (hread : s.shareRead pt src (2048 * w.field 6 0) = some bs) :
    s.startBitmap p w = if pt.bmpCopying then .waits (s.modPart p (fun v => { v with bmpQ := v.bmpQ ++ [(w.field 29 28, w.field 25 16, bs)] })) 2 p
      else (s.runBitmap p pt (w.field 29 28, w.field 25 16, bs)).1.endGo 2 p (s.runBitmap p pt (w.field 29 28, w.field 25 16, bs)).2 := by
  have h0 := shareReadChecked_clean s pt src (2048 * w.field 6 0) bs hbad hfail hread
  have hc : (decide (w.field 29 28 = 1) || decide (w.field 6 0 = 0) || decide (64 < w.field 6 0) || decide (1024 < w.field 25 16 + w.field 6 0)) = false := by
    simp only [Bool.or_eq_false_iff, decide_eq_false_iff_not]; omega
  unfold State.startBitmap
  rw [← hsrc]
  simp only [hpt, hc, h0, Bool.false_eq_true, if_false]
  rw [if_neg (by omega)]

theorem writeEffect_bmpGo (s : State) (p : Nat) (old w v : Word) (h : v.bit 31 = true) :
    s.writeEffect .kv p 0x1C old w v = (s.putReg .kv p 0x1C w).startBitmap p w := by
  simp only [State.writeEffect, h, if_true]

end Sys2Proof.Machine
end

