-- ==== Sys2Proof/Laws/Works.lean ====
section
/-!
SUPPORT. What the flash controller, the links and the other units keep and change, said once for each of their operations.
-/
namespace Sys2Proof.Machine

open Sys2Proof

/-- Nothing but the flash controller and its array has changed. -/
def flashOnly (s s' : State) : Prop := (s'.setFlash s.flash).setMem s.mem = s ∧ s'.mem = { s.mem with flash := s'.mem.flash }

theorem flashOnly_refl (s : State) : flashOnly s s := ⟨rfl, rfl⟩

theorem flashOnly_trans {a b c : State} (h1 : flashOnly a b) (h2 : flashOnly b c) : flashOnly a c := by
  obtain ⟨e1, m1⟩ := h1
  obtain ⟨e2, m2⟩ := h2
  refine ⟨?_, ?_⟩
  · have : ((((c.setFlash b.flash).setMem b.mem).setFlash a.flash).setMem a.mem) = a := by rw [e2]; exact e1
    exact this
  · rw [m2, m1]

theorem flashPut_only (s : State) (a : Nat) (bs : Bytes) : flashOnly s (s.flashPut a bs) := ⟨rfl, rfl⟩

theorem flashClear_only (s : State) (n : Nat) : flashOnly s (s.flashClear n) := ⟨rfl, rfl⟩

theorem setFlash_only (s : State) (f : Flash) : flashOnly s (s.setFlash f) := ⟨rfl, rfl⟩

theorem journalPut_only (s : State) (ty n : Nat) : flashOnly s (s.journalPut ty n) := by
  unfold State.journalPut
  exact flashOnly_trans (flashPut_only _ _ _) (setFlash_only _ _)

theorem counterPut_only (s : State) (ty : Nat) : flashOnly s (s.counterPut ty) := by
  unfold State.counterPut
  exact flashOnly_trans (flashPut_only _ _ _) (setFlash_only _ _)

theorem journal_only (s : State) (ty n : Nat) : flashOnly s (s.journal ty n) := by
  unfold State.journal
  simp only
  split
  · refine flashOnly_trans ?_ (journalPut_only _ _ _)
    refine foldl_inv (flashOnly s) _ (fun b a h => flashOnly_trans h (journalPut_only _ _ _)) _ _ ?_
    exact flashOnly_trans (flashClear_only _ _) (journalPut_only _ _ _)
  · exact journalPut_only _ _ _

theorem beginErase_only (s : State) (n : Nat) (a : FlashAfter) : flashOnly s (s.beginErase n a) :=
  flashOnly_trans (journal_only s 1 n) (setFlash_only _ _)

theorem beginErase_op (s : State) (n : Nat) (a : FlashAfter) : (s.beginErase n a).flash.op = some (.erase n a) ∧ n ∈ (s.beginErase n a).flash.half :=
  ⟨rfl, List.mem_cons_self⟩

theorem foldl_be (bs : Bytes) : ∀ acc : Nat, bs.foldl (fun acc b => acc * 256 + b.toNat) acc = acc * 256 ^ bs.length + ofBe bs := by
  induction bs with
  | nil => intro acc; simp [ofBe]
  | cons b bs ih =>
    intro acc
    rw [List.foldl_cons, ih, show ofBe (b :: bs) = (0 * 256 + b.toNat) * 256 ^ bs.length + ofBe bs from ih _, List.length_cons]
    ring

theorem beBytes_length : ∀ (k n : Nat), (beBytes k n).length = k
  | 0, _ => rfl
  | k + 1, n => by rw [beBytes, List.length_cons, beBytes_length k n]

theorem ofBe_beBytes : ∀ (k n : Nat), ofBe (beBytes k n) = n % 256 ^ k
  | 0, n => by simp [beBytes, ofBe, Nat.mod_one]
  | k + 1, n => by
    have e : ofBe (BitVec.ofNat 8 (n / 256 ^ k) :: beBytes k n) = (0 * 256 + (BitVec.ofNat 8 (n / 256 ^ k)).toNat) * 256 ^ (beBytes k n).length +
      ofBe (beBytes k n) := foldl_be (beBytes k n) (0 * 256 + (BitVec.ofNat 8 (n / 256 ^ k)).toNat)
    rw [beBytes, e, ofBe_beBytes k n, beBytes_length, BitVec.toNat_ofNat, Nat.zero_mul, Nat.zero_add,
      show (2 : Nat) ^ 8 = 256 from rfl, Nat.pow_succ, Nat.mod_mul (x := n) (a := 256 ^ k) (b := 256)]
    ring

/-- A number written behind other bytes reads back. -/
theorem beAt_append (pre rest : Bytes) (k n off : Nat) (h : pre.length = off) : beAt (pre ++ (beBytes k n ++ rest)) off k = n % 256 ^ k := by
  subst h
  unfold beAt
  rw [List.drop_left, List.take_left' (beBytes_length k n), beBytes_length]
  simp [ofBe_beBytes]

theorem beAt_first (rest : Bytes) (k n : Nat) : beAt (beBytes k n ++ rest) 0 k = n % 256 ^ k := beAt_append [] rest k n 0 rfl

theorem beAt_last (pre : Bytes) (k n off : Nat) (h : pre.length = off) : beAt (pre ++ beBytes k n) off k = n % 256 ^ k := by
  have := beAt_append pre [] k n off h
  rw [List.append_nil] at this; exact this

theorem beginParam_spec (s : State) (c : Option Ctx) (op : Nat) (new : ParamSet) :
    (s.beginParam c op new).flash.op = some (.erase (paramSector (1 - s.params.copy)) (.param c op { new with copy := 1 - s.params.copy, seq := s.params.seq + 1 })) ∧
      paramSector (1 - s.params.copy) ∈ (s.beginParam c op new).flash.half ∧ flashOnly s (s.beginParam c op new) :=
  ⟨(beginErase_op _ _ _).1, (beginErase_op _ _ _).2, beginErase_only _ _ _⟩

theorem field_lt (w : Word) (hi lo : Nat) : w.field hi lo < 2 ^ (hi + 1 - lo) := Nat.mod_lt _ (Nat.two_pow_pos _)

/-- A field that a register stores whole is the field of the value written. -/
theorem written_field (fs : List Fld) (old v : Word) (hi lo : Nat) (hh : hi < 32) (hf : ∀ f ∈ fs, f.lo ≤ f.hi ∧ f.hi < 32)
    (hm : ({ hi := hi, lo := lo, acc := .rw, who := .owner } : Fld) ∈ fs) : (writtenWord fs old v).field hi lo = v.field hi lo := by
  refine field_congr _ _ _ _ (fun i h1 h2 => ?_)
  rw [writtenWord_bits _ _ _ (by omega) _ hf, if_pos]
  rw [List.any_eq_true]
  exact ⟨_, hm, by simp [h1, h2]⟩

theorem written_bit (fs : List Fld) (old v : Word) (i : Nat) (hh : i < 32) (hf : ∀ f ∈ fs, f.lo ≤ f.hi ∧ f.hi < 32)
    (hm : ({ hi := i, lo := i, acc := .rw, who := .owner } : Fld) ∈ fs) : (writtenWord fs old v).bit i = v.bit i := by
  rw [bit_getLsbD, bit_getLsbD, writtenWord_bits _ _ _ hh _ hf, if_pos]
  rw [List.any_eq_true]
  exact ⟨_, hm, by simp⟩

theorem link_putLink_self (s : State) (i : Nat) (l : Link) : (s.putLink i l).link i = l := by
  unfold State.link State.putLink; simp

theorem link_putLink_ne (s : State) {i j : Nat} (l : Link) (h : j ≠ i) : (s.putLink i l).link j = s.link j := by
  unfold State.link State.putLink; simp [NMap.get_put_ne _ _ _ h]

theorem pump_st (now : Nat) : ∀ (n : Nat) (l : Link), (l.pump now n).st = l.st
  | 0, _ => rfl
  | n + 1, l => by
    unfold Link.pump
    split
    · rfl
    · split
      · rfl
      · rw [pump_st now n]

theorem pump_down (now n : Nat) (l : Link) (h : l.st ≠ .up) (h2 : l.st ≠ .miswired) : l.pump now n = l := by
  cases n with
  | zero => rfl
  | succ n => unfold Link.pump; rw [if_pos]; simp [h, h2]

/-- What sending on a pair of links keeps of each link: its state, and of one that is neither UP nor MISWIRED all but what waits. -/
def keepsLink (a b : Link) : Prop := b.st = a.st ∧ (a.st ≠ .up → a.st ≠ .miswired → ({ b with queue := a.queue, mid := a.mid } : Link) = a)

theorem keepsLink_refl (a : Link) : keepsLink a a := ⟨rfl, fun _ _ => rfl⟩

theorem keepsLink_trans {a b c : Link} (h1 : keepsLink a b) (h2 : keepsLink b c) : keepsLink a c := by
  refine ⟨h2.1.trans h1.1, fun h h' => ?_⟩
  have e2 := h2.2 (by rw [h1.1]; exact h) (by rw [h1.1]; exact h')
  have e1 := h1.2 h h'
  rw [← e1, ← e2]

theorem pumpPair_link (s : State) (dir j : Nat) : keepsLink (s.link j) ((s.pumpPair dir).link j) := by
  have hm : ∀ (x y : Link),
      keepsLink x (if x.st != .up && y.st == .up && x.replay.isEmpty then (({ x with queue := [], mid := [] } : Link), ({ y with queue := y.queue ++ x.uncut } : Link)) else (x, y)).1 ∧
      keepsLink y (if x.st != .up && y.st == .up && x.replay.isEmpty then (({ x with queue := [], mid := [] } : Link), ({ y with queue := y.queue ++ x.uncut } : Link)) else (x, y)).2 := by
    intro x y
    split <;> exact ⟨⟨rfl, fun _ _ => rfl⟩, ⟨rfl, fun _ _ => rfl⟩⟩
  have hp : ∀ (a b : Link) (now n : Nat), keepsLink a b → keepsLink a (b.pump now n) := by
    intro a b now n h
    refine keepsLink_trans h ⟨pump_st _ _ _, fun hb hm => ?_⟩
    rw [pump_down _ _ _ hb hm]
  unfold State.pumpPair
  simp only
  have h1 := hm (s.link (2 * dir)) (s.link (2 * dir + 1))
  generalize (if (s.link (2 * dir)).st != .up && (s.link (2 * dir + 1)).st == .up && (s.link (2 * dir)).replay.isEmpty then
    (({ s.link (2 * dir) with queue := [], mid := [] } : Link), ({ s.link (2 * dir + 1) with queue := (s.link (2 * dir + 1)).queue ++ (s.link (2 * dir)).uncut } : Link))
    else (s.link (2 * dir), s.link (2 * dir + 1))) = ab at h1 ⊢
  have h2 := hm ab.2 ab.1
  generalize (if ab.2.st != .up && ab.1.st == .up && ab.2.replay.isEmpty then
    (({ ab.2 with queue := [], mid := [] } : Link), ({ ab.1 with queue := ab.1.queue ++ ab.2.uncut } : Link)) else (ab.2, ab.1)) = ba at h2 ⊢
  by_cases hj : j = 2 * dir + 1
  · subst hj
    rw [link_putLink_self]
    exact hp _ _ _ _ (keepsLink_trans h1.2 h2.1)
  · rw [link_putLink_ne _ _ hj]
    by_cases hj2 : j = 2 * dir
    · subst hj2
      rw [link_putLink_self]
      exact hp _ _ _ _ (keepsLink_trans h1.1 h2.2)
    · rw [link_putLink_ne _ _ hj2]
      exact keepsLink_refl _

theorem veolo_trans {a b c : State} (h1 : b.setVeolo a.veolo = a) (h2 : c.setVeolo b.veolo = b) : c.setVeolo a.veolo = a := by
  have : (c.setVeolo b.veolo).setVeolo a.veolo = a := by rw [h2]; exact h1
  exact this

theorem setVeolo_frame (s : State) (v : Veolo) : (s.setVeolo v).setVeolo s.veolo = s := rfl

theorem putLink_frame (s : State) (i : Nat) (l : Link) : (s.putLink i l).setVeolo s.veolo = s := rfl

theorem pumpPair_frame (s : State) (dir : Nat) : (s.pumpPair dir).setVeolo s.veolo = s := by
  unfold State.pumpPair
  exact veolo_trans (putLink_frame _ _ _) (putLink_frame _ _ _)

theorem queueFlits_frame (s : State) (dir : Nat) (fs : List Flit) (pair : Nat) : (s.queueFlits dir fs pair).setVeolo s.veolo = s := by
  unfold State.queueFlits
  simp only
  split
  · rfl
  · exact veolo_trans (putLink_frame _ _ _) (pumpPair_frame _ _)

theorem sendOn_frame (s : State) (dir : Nat) (cls : LClass) (dest src prio part : Nat) (bs : Bytes) :
    (s.sendOn dir cls dest src prio part bs).setVeolo s.veolo = s := by
  unfold State.sendOn
  exact veolo_trans (setVeolo_frame s _) (queueFlits_frame _ _ _ _)

theorem sendMessage_frame (s : State) (dir : Nat) (cls : LClass) (part : Nat) (bs : Bytes) : (s.sendMessage dir cls part bs).setVeolo s.veolo = s :=
  sendOn_frame _ _ _ _ _ _ _ _

theorem queueFlits_link (s : State) (dir : Nat) (fs : List Flit) (pair j : Nat) :
    keepsLink (s.link j) ((s.queueFlits dir fs pair).link j) := by
  unfold State.queueFlits
  simp only
  split
  · exact keepsLink_refl _
  · refine keepsLink_trans ?_ (pumpPair_link _ _ _)
    by_cases hj : j = 2 * dir + pair % 2
    · subst hj; rw [link_putLink_self]; exact ⟨rfl, fun _ _ => rfl⟩
    · rw [link_putLink_ne _ _ hj]; exact keepsLink_refl _

theorem sendMessage_link (s : State) (dir : Nat) (cls : LClass) (part : Nat) (bs : Bytes) (j : Nat) :
    keepsLink (s.link j) ((s.sendMessage dir cls part bs).link j) := by
  unfold State.sendMessage State.sendOn
  extract_lets pair fs
  exact queueFlits_link (s.setVeolo { s.veolo with pairTx := s.veolo.pairTx.set dir (pair + 1) }) dir fs pair j

theorem passReach_link (s : State) (f dev : Nat) (back : Bool) (j : Nat) : keepsLink (s.link j) ((s.passReach f dev back).link j) := by
  unfold State.passReach
  extract_lets there
  split
  · exact sendMessage_link _ _ _ _ _ _
  · exact keepsLink_refl _

theorem passReach_frame (s : State) (f dev : Nat) (back : Bool) : (s.passReach f dev back).setVeolo s.veolo = s := by
  unfold State.passReach
  extract_lets there
  split
  · exact sendMessage_frame _ _ _ _ _
  · rfl

theorem refreshNbr_link (s : State) (dir j : Nat) : keepsLink (s.link j) ((s.refreshNbr dir).link j) := by
  unfold State.refreshNbr
  simp only
  have h := pumpPair_link (s.setVeolo { s.veolo with nbrs := s.veolo.nbrs.set dir (s.judgeNbr dir) }) dir j
  split
  · exact keepsLink_trans h (passReach_link _ _ _ _ _)
  · exact h

theorem refreshNbr_frame (s : State) (dir : Nat) : (s.refreshNbr dir).setVeolo s.veolo = s := by
  unfold State.refreshNbr
  simp only
  have h := veolo_trans (setVeolo_frame s { s.veolo with nbrs := s.veolo.nbrs.set dir (s.judgeNbr dir) }) (pumpPair_frame _ dir)
  split
  · exact veolo_trans h (passReach_frame _ _ _ _)
  · exact h

theorem electMaster_link (s : State) (j : Nat) : s.electMaster.link j = s.link j := by
  unfold State.electMaster; simp only; split <;> rfl

theorem electMaster_frame (s : State) : s.electMaster.setVeolo s.veolo = s := by
  unfold State.electMaster; simp only; split <;> rfl

/-- A link changed, its neighbour judged anew and the master elected: the link is as changed, the others keep their states. -/
theorem linkChange_spec (s : State) (i : Nat) (f : Link → Link) :
    let t := ((s.modLink i f).refreshNbr (i / 2)).electMaster
    keepsLink (f (s.link i)) (t.link i) ∧ (∀ j, j ≠ i → keepsLink (s.link j) (t.link j)) ∧ t.setVeolo s.veolo = s := by
  intro t
  have h := refreshNbr_link (s.modLink i f) (i / 2)
  have hself : (s.modLink i f).link i = f (s.link i) := link_putLink_self _ _ _
  refine ⟨?_, fun j hj => ?_, ?_⟩
  · rw [electMaster_link, ← hself]; exact h i
  · rw [electMaster_link]
    have : (s.modLink i f).link j = s.link j := link_putLink_ne _ _ hj
    rw [← this]; exact h j
  · exact veolo_trans (veolo_trans (putLink_frame _ _ _) (refreshNbr_frame _ _)) (electMaster_frame _)

theorem link_setRegs (s : State) (r : NMap Word) (i : Nat) : (s.setRegs r).link i = s.link i := rfl

theorem pumpPair_setRegs (s : State) (r : NMap Word) (dir : Nat) : ((s.setRegs r).pumpPair dir) = (s.pumpPair dir).setRegs r := by
  unfold State.pumpPair
  simp only [link_setRegs]
  rfl

theorem putLink_setRegs (s : State) (r : NMap Word) (i : Nat) (l : Link) : (s.setRegs r).putLink i l = (s.putLink i l).setRegs r := rfl

theorem queueFlits_setRegs (s : State) (r : NMap Word) (dir : Nat) (fs : List Flit) (pair : Nat) :
    (s.setRegs r).queueFlits dir fs pair = (s.queueFlits dir fs pair).setRegs r := by
  unfold State.queueFlits
  simp only
  split
  · next h => rw [if_pos (by exact h)]
  · next h =>
    rw [if_neg (by exact h), show (s.setRegs r).link (2 * dir + pair % 2) = s.link (2 * dir + pair % 2) from rfl, putLink_setRegs, pumpPair_setRegs]
    rfl

theorem sendMessage_setRegs (s : State) (r : NMap Word) (dir : Nat) (cls : LClass) (part : Nat) (bs : Bytes) :
    (s.setRegs r).sendMessage dir cls part bs = (s.sendMessage dir cls part bs).setRegs r := by
  unfold State.sendMessage State.sendOn
  exact queueFlits_setRegs (s.setVeolo _) r dir _ _

theorem tierFields (s : State) (p : Nat) (v : Word) : (writtenWord (Blk.fields .tier 0x24) (s.reg .tier p 0x24) v).field 10 8 = v.field 10 8 ∧
    (writtenWord (Blk.fields .tier 0x24) (s.reg .tier p 0x24) v).field 6 0 = v.field 6 0 :=
  ⟨written_field _ _ _ _ _ (by decide) (by decide) (by decide), written_field _ _ _ _ _ (by decide) (by decide) (by decide)⟩

theorem tierEntry (s : State) (c : Ctx) (p : Nat) (v : Word) (pt : Part) (hw : s.ownerWrites c) (hp : p < 128) (hpt : s.part p = some pt)
    (hres : pt.resetting = none) (hv : (v.bit 31 || v.bit 30) = true) : ∃ w : Word, w.field 10 8 = v.field 10 8 ∧ w.field 6 0 = v.field 6 0 ∧
    s.writeEntry c (Blk.tier.at p 0x24) v = (s.putReg .tier p 0x24 w).startLoan p w (v.bit 31) (v.bit 30) := by
  have he := writeEntry_ownerPart s c .tier p 0x24 v pt hw hp (by decide) (by decide) hpt hres (by decide) rfl rfl (by simp only [State.outOfRange])
  have hf := tierFields s p v
  refine ⟨_, hf.1, hf.2, he.trans ?_⟩
  simp only [State.writeEffect, hv, if_true]

theorem flatMap_be_length (as : List Nat) : (as.flatMap (beBytes 4)).length = 4 * as.length := by
  induction as with
  | nil => rfl
  | cons a as ih => rw [List.flatMap_cons, List.length_append, beBytes_length, ih, List.length_cons]; omega

theorem beAt_flat : ∀ (as : List Nat) (pre : Bytes) (i : Nat), i < as.length → (∀ a ∈ as, a < 2 ^ 32) →
    beAt (pre ++ as.flatMap (beBytes 4)) (pre.length + 4 * i) 4 = as.getD i 0
  | [], _, _, h, _ => absurd h (by simp)
  | a :: as, pre, i, h, hb => by
    rw [List.flatMap_cons]
    cases i with
    | zero =>
      rw [beAt_append pre _ 4 a _ (by simp)]
      have := hb a (by simp)
      simp; omega
    | succ i =>
      have := beAt_flat as (pre ++ beBytes 4 a) i (by simpa using h) (fun x hx => hb x (by simp [hx]))
      rw [List.append_assoc, List.length_append, beBytes_length] at this
      rw [show pre.length + 4 * (i + 1) = pre.length + 4 + 4 * i by omega, this]
      rfl

theorem map_beAt_flat (as : List Nat) (n : Nat) (hb : ∀ a ∈ as, a < 2 ^ 32) :
    (List.range as.length).map (fun i => beAt (beBytes 4 n ++ as.flatMap (beBytes 4)) (4 + 4 * i) 4) = as := by
  refine List.ext_getElem (by simp) (fun i h1 h2 => ?_)
  rw [List.getElem_map, List.getElem_range]
  have := beAt_flat as (beBytes 4 n) i h2 hb
  rw [beBytes_length] at this
  rw [this]; simp [h2]

theorem readEntries_ok (c : Ctx) : ∀ (as : List Nat) (vs : List Word) (s s1 : State) (i : Nat) (acc : Bytes), readsDone c as vs s s1 →
    s.readEntries c as i acc = (s1, .ok (), acc ++ vs.flatMap (fun v => beBytes 4 v.toNat))
  | [], [], s, s1, i, acc, h => by rw [show s1 = s from h]; simp [State.readEntries]
  | [], _ :: _, _, _, _, _, h => absurd h (by simp [readsDone])
  | _ :: _, [], _, _, _, _, h => absurd h (by simp [readsDone])
  | a :: as, v :: vs, s, s1, i, acc, h => by
    obtain ⟨t, h1, h2⟩ := h
    simp only [State.readEntries, h1]
    rw [readEntries_ok c as vs t s1 _ _ h2, List.flatMap_cons, List.append_assoc]

theorem readEntries_no (c : Ctx) (a : Nat) (post : List Nat) (st : Status) : ∀ (as : List Nat) (vs : List Word) (s s1 : State) (i : Nat) (acc : Bytes),
    readsDone c as vs s s1 → s1.readEntry c a = .error st →
    s.readEntries c (as ++ a :: post) i acc = (s1, .error (st, i + as.length), acc ++ vs.flatMap (fun v => beBytes 4 v.toNat))
  | [], [], s, s1, i, acc, h, he => by rw [show s1 = s from h] at he ⊢; simp [State.readEntries, he]
  | [], _ :: _, _, _, _, _, h, _ => absurd h (by simp [readsDone])
  | _ :: _, [], _, _, _, _, h, _ => absurd h (by simp [readsDone])
  | b :: as, v :: vs, s, s1, i, acc, h, he => by
    obtain ⟨t, h1, h2⟩ := h
    rw [List.cons_append]
    simp only [State.readEntries, h1]
    rw [readEntries_no c a post st as vs t s1 _ _ h2 he, List.flatMap_cons, List.append_assoc, List.length_cons]
    congr 4; omega

theorem writeEntries_ok (c : Ctx) : ∀ (es : List (Word × Word)) (s s1 : State) (i : Nat), writesDone c es s s1 →
    s.writeEntries c es i = s1.reply c 0x0607 .ok []
  | [], s, s1, i, h => by rw [show s1 = s from h]; rfl
  | (a, v) :: es, s, s1, i, h => by
    obtain ⟨t, h1, h2⟩ := h
    simp only [State.writeEntries, h1]
    exact writeEntries_ok c es t s1 _ h2

theorem writeEntries_no (c : Ctx) (e : Word × Word) (post : List (Word × Word)) (st : Status) : ∀ (es : List (Word × Word)) (s s1 : State) (i : Nat),
    writesDone c es s s1 → s1.writeEntry c e.1.toNat e.2 = .no st →
    s.writeEntries c (es ++ e :: post) i = s1.reply c 0x0607 st (beBytes 4 (i + es.length))
  | [], s, s1, i, h, he => by rw [show s1 = s from h] at he ⊢; obtain ⟨a, v⟩ := e; simp [State.writeEntries, he]
  | (a, v) :: es, s, s1, i, h, he => by
    obtain ⟨t, h1, h2⟩ := h
    rw [List.cons_append]
    simp only [State.writeEntries, h1]
    rw [writeEntries_no c e post st es t s1 _ h2 he, List.length_cons]
    congr 2; omega

theorem regFrame_body (s : State) (c : Ctx) (op : Nat) (body : State → Res) (h : s.registersServe c op) : s.regFrame c op body = body s := by
  unfold State.regFrame
  rw [h.1]
  simp only
  rw [if_neg]
  rcases h.2 with h | h <;> simp [h]

theorem pairs_flat (es : List (Word × Word)) : es.flatMap (fun e => beBytes 4 e.1.toNat ++ beBytes 4 e.2.toNat) =
    (es.flatMap (fun e => [e.1.toNat, e.2.toNat])).flatMap (beBytes 4) := by
  induction es with
  | nil => rfl
  | cons e es ih => simp [List.flatMap_cons, ih]

theorem pairs_getD : ∀ (es : List (Word × Word)) (i : Nat), i < es.length →
    (es.flatMap (fun e => [e.1.toNat, e.2.toNat])).getD (2 * i) 0 = (es.getD i (0, 0)).1.toNat ∧
    (es.flatMap (fun e => [e.1.toNat, e.2.toNat])).getD (2 * i + 1) 0 = (es.getD i (0, 0)).2.toNat
  | [], _, h => absurd h (by simp)
  | e :: es, i, h => by
    cases i with
    | zero => exact ⟨rfl, rfl⟩
    | succ i =>
      have := pairs_getD es i (by simpa using h)
      exact this

theorem pairs_length (es : List (Word × Word)) : (es.flatMap (fun e => [e.1.toNat, e.2.toNat])).length = 2 * es.length := by
  induction es with
  | nil => rfl
  | cons e es ih => rw [List.flatMap_cons, List.length_append, ih, List.length_cons]; simp; omega

theorem map_pairs (es : List (Word × Word)) (n : Nat) :
    (List.range es.length).map (fun i =>
      (BitVec.ofNat 32 (beAt (beBytes 4 n ++ es.flatMap (fun e => beBytes 4 e.1.toNat ++ beBytes 4 e.2.toNat)) (4 + 8 * i) 4),
        BitVec.ofNat 32 (beAt (beBytes 4 n ++ es.flatMap (fun e => beBytes 4 e.1.toNat ++ beBytes 4 e.2.toNat)) (8 + 8 * i) 4))) = es := by
  have hb : ∀ a ∈ es.flatMap (fun e => [e.1.toNat, e.2.toNat]), a < 2 ^ 32 := by
    intro a ha
    rw [List.mem_flatMap] at ha
    obtain ⟨e, _, ha⟩ := ha
    simp only [List.mem_cons, List.not_mem_nil, or_false] at ha
    rcases ha with rfl | rfl
    · exact e.1.isLt
    · exact e.2.isLt
  refine List.ext_getElem (by simp) (fun i h1 h2 => ?_)
  rw [List.getElem_map, List.getElem_range, pairs_flat]
  have a1 := beAt_flat _ (beBytes 4 n) (2 * i) (by rw [pairs_length]; omega) hb
  have a2 := beAt_flat _ (beBytes 4 n) (2 * i + 1) (by rw [pairs_length]; omega) hb
  rw [beBytes_length, (pairs_getD es i h2).1] at a1
  rw [beBytes_length, (pairs_getD es i h2).2] at a2
  rw [show 4 + 8 * i = 4 + 4 * (2 * i) by omega, show 8 + 8 * i = 4 + 4 * (2 * i + 1) by omega, a1, a2]
  simp [h2]

theorem regRead_run (s : State) (c : Ctx) (as : List Nat) (n : Nat) (hs : s.registersServe c 0x0606) (hn : n = as.length) (h1 : 1 ≤ n) (h2 : n ≤ 64)
    (hb : ∀ a ∈ as, a < 2 ^ 32) : exec (.regRead c (beBytes 4 n ++ as.flatMap (beBytes 4))) s =
      (match (s.readEntries c as 0 []).2.1 with
      | .ok () => .next ((s.readEntries c as 0 []).1.reply c 0x0606 .ok (s.readEntries c as 0 []).2.2)
      | .error (st, i) => .next ((s.readEntries c as 0 []).1.reply c 0x0606 st (beBytes 4 i ++ (s.readEntries c as 0 []).2.2))) := by
  show execRegRead c _ s = _
  unfold execRegRead
  rw [regFrame_body _ _ _ _ hs]
  simp only
  have e1 : beAt (beBytes 4 n ++ as.flatMap (beBytes 4)) 0 4 = n := by
    rw [beAt_first]; omega
  have e2 : (beBytes 4 n ++ as.flatMap (beBytes 4)).length = 4 + 4 * n := by
    rw [List.length_append, beBytes_length, flatMap_be_length, hn]
  rw [e1, e2, if_neg (by simp; omega), hn, map_beAt_flat as as.length hb]
  try (split <;> next h => rw [h])

theorem regWrite_run (s : State) (c : Ctx) (es : List (Word × Word)) (n : Nat) (hs : s.registersServe c 0x0607)
    (ho : c.sess = sidebandSess → s.isOwner c = true) (hn : n = es.length) (h1 : 1 ≤ n) (h2 : n ≤ 64) :
    exec (.regWrite c (beBytes 4 n ++ es.flatMap (fun e => beBytes 4 e.1.toNat ++ beBytes 4 e.2.toNat))) s =
      .next ((s.writeEntries c es 0).settleAll) := by
  show execRegWrite c _ s = _
  unfold execRegWrite
  have e1 : beAt (beBytes 4 n ++ es.flatMap (fun e => beBytes 4 e.1.toNat ++ beBytes 4 e.2.toNat)) 0 4 = n := by
    rw [beAt_first]; omega
  have e2 : (beBytes 4 n ++ es.flatMap (fun e => beBytes 4 e.1.toNat ++ beBytes 4 e.2.toNat)).length = 4 + 8 * n := by
    rw [List.length_append, beBytes_length, pairs_flat, flatMap_be_length, pairs_length, hn]; omega
  simp only [e1, e2]
  rw [if_neg, if_neg]
  · unfold State.regWrites
    rw [regFrame_body _ _ _ _ hs, hn, map_pairs]
  · simp; omega
  · by_cases h : c.sess = sidebandSess
    · simp [ho h]
    · simp [h]

theorem entry_unplaced (s : State) (c : Ctx) (a : Nat) (v : Word) (h4 : a % 4 = 0) (hr : inRange a = false) :
    s.readEntry c a = .error .badFrame ∧ s.writeEntry c a v = .no .badFrame := by
  have hp : regPlace a = none := by
    cases hq : regPlace a with
    | none => rfl
    | some x => unfold inRange at hr; rw [hq] at hr; exact absurd hr (by simp)
  constructor
  · unfold State.readEntry
    rw [if_neg (show ¬ (a % 4 ≠ 0) by simp [h4]), hp]
    simp only [hr, Bool.false_eq_true, if_false]
  · unfold State.writeEntry
    rw [if_neg (show ¬ (a % 4 ≠ 0) by simp [h4]), hp]
    simp only [hr, Bool.false_eq_true, if_false]

theorem afterRead_spec (s : State) (b : Blk) (k off : Nat) :
    (b.clears off = true → (b.perPart = true → (s.part k).isSome = true) → (s.afterRead b k off).reg b k off = 0#32) ∧
    (b.clears off = false → (s.afterRead b k off).regs = s.regs) ∧ (s.afterRead b k off).mem = s.mem ∧ (s.afterRead b k off).parts = s.parts ∧
    (s.afterRead b k off).lesar = s.lesar := by
  have h1 : ∀ s1 : State, (∃ f : State → State, s1 = f s) → True := fun _ _ => trivial
  unfold State.afterRead
  generalize hs1 : (if (b.clears off && (!b.perPart || (s.part k).isSome)) = true then s.putReg b k off 0 else s) = s1
  have k1 : b.clears off = true → (b.perPart = true → (s.part k).isSome = true) → s1.reg b k off = 0#32 := by
    intro hc hp
    have : (b.clears off && (!b.perPart || (s.part k).isSome)) = true := by
      rw [hc]
      cases hq : b.perPart with
      | false => rfl
      | true => rw [hp hq]; rfl
    rw [← hs1, if_pos this]
    exact State.reg_putReg_self _ _ _ _ _
  have k2 : b.clears off = false → s1.regs = s.regs := by
    intro hc
    rw [← hs1, if_neg (by rw [hc]; simp)]
  have k3 : s1.mem = s.mem ∧ s1.parts = s.parts ∧ s1.lesar = s.lesar := by
    rw [← hs1]; split <;> exact ⟨rfl, rfl, rfl⟩
  simp only
  split
  · split
    · exact ⟨k1, k2, k3⟩
    · exact ⟨k1, k2, k3⟩
  · exact ⟨k1, k2, k3⟩
  · refine ⟨fun hc hp => ?_, fun h => absurd h (by decide), k3⟩
    have e : Blk.dr.at k 0x18 ≠ Blk.dr.at 0 0x1C := by
      intro h
      unfold Blk.at at h
      simp only [Blk.place] at h
      omega
    have := State.rawReg_putReg_ne s1 .dr 0 0x1C 0 e
    exact this.trans (k1 hc hp)
  · exact ⟨k1, k2, k3⟩
  · exact ⟨k1, k2, k3⟩
  · exact ⟨k1, k2, k3⟩

theorem cfFrame_run (s : State) (c : Ctx) (op : Nat) (pl : Bytes) (h : s.flashServes c op) : s.cfFrame op c pl = .next (s.cfSubmit op (some c) pl) := by
  unfold State.cfFrame
  rw [h.1]
  simp only
  rw [if_neg]
  rcases h.2 with h | ⟨h1, h2⟩
  · simp [h]
  · simp [h1, h2]

theorem cfSubmit_run (s : State) (c : Ctx) (op : Nat) (pl : Bytes)
    (h : cfBeside op = true ∨ (s.flash.queue = [] ∧ (cfExclusive op = false ∨ s.flash.op = none))) :
    s.cfSubmit op (some c) pl = s.cfRun op c pl := by
  have hb : cfBeside op = true → cfExclusive op = false := by
    unfold cfBeside cfExclusive
    simp only [Bool.or_eq_true, beq_iff_eq]
    rintro (((h | h) | h) | h) <;> subst h <;> decide
  have hw : s.cfWaits op pl = false := by
    unfold State.cfWaits
    rcases h with h | ⟨-, h | h⟩
    · split <;> simp [hb h]
    · split <;> simp [h]
    · rw [h]
  unfold State.cfSubmit
  rw [if_neg]
  · rfl
  · rcases h with h | ⟨h, -⟩ <;> simp [hw, h]

theorem flashWord_clean (s : State) (w : Nat) (h : s.flash.half = []) (hb : s.flash.badWords = []) : s.flashWord w = (s, s.flashRaw (16 * w) 16, false) := by
  unfold State.flashWord
  simp only [h, hb, List.contains_nil, Bool.false_eq_true, if_false, NMap.find_nil]

theorem flashWords_clean (s : State) (h : s.flash.half = []) (hb : s.flash.badWords = []) : ∀ (n w : Nat),
    s.flashWords w n = (s, s.flashRaw (16 * w) (16 * n), false)
  | 0, w => rfl
  | n + 1, w => by
    simp only [State.flashWords, flashWord_clean s w h hb, flashWords_clean s h hb n (w + 1), Bool.or_self]
    congr 2

theorem readN_map (d : Byte) (m : Mem) (a n : Nat) : Mem.readN d m a n = (List.range n).map (fun i => Mem.read d m (a + i)) := by
  refine List.ext_getElem (by simp [Mem.readN_length]) (fun i h1 h2 => ?_)
  have hi : i < n := by simpa [Mem.readN_length] using h1
  have := Mem.readN_getD d 0#8 m a n i hi
  rw [List.getElem_map, List.getElem_range, ← this]
  simp [h1]

theorem flashRead_clean (s : State) (a n : Nat) (h : s.flash.half = []) (hb : s.flash.badWords = []) :
    s.flashRead a n = (s, (List.range n).map (fun i => Mem.read 0xFF#8 s.mem.flash (a + i)), false) := by
  unfold State.flashRead
  simp only [flashWords_clean s h hb, Bool.false_eq_true, if_false]
  unfold slice State.flashRaw
  rw [readN_drop_take _ _ _ _ _ _ (by omega), show 16 * (a / 16) + a % 16 = a by omega, readN_map]

theorem flashWord_only (s : State) (w : Nat) : (s.flashWord w).1.mem = s.mem ∧ (s.flashWord w).1.flash = s.flash := by
  unfold State.flashWord
  simp only
  split
  · exact ⟨rfl, rfl⟩
  · split <;> exact ⟨rfl, rfl⟩

theorem flashWords_only : ∀ (n : Nat) (s : State) (w : Nat), (s.flashWords w n).1.mem = s.mem ∧ (s.flashWords w n).1.flash = s.flash
  | 0, _, _ => ⟨rfl, rfl⟩
  | n + 1, s, w => by
    have h1 := flashWord_only s w
    have h2 := flashWords_only n (s.flashWord w).1 (w + 1)
    simp only [State.flashWords]
    exact ⟨h2.1.trans h1.1, h2.2.trans h1.2⟩

theorem sectorAt_word (a : Nat) : sectorAt (16 * (a / 16)) = sectorAt a := by
  unfold sectorAt
  have e1 : 16 * (a / 16) % 2 ^ 24 < 65536 ↔ a % 2 ^ 24 < 65536 := by omega
  by_cases h : a % 2 ^ 24 < 65536
  · rw [if_pos (e1.mpr h), if_pos h]; omega
  · rw [if_neg (fun hh => h (e1.mp hh)), if_neg h]; omega

/-- A read whose first sector is HALF_ERASED is unreliable. -/
theorem flashRead_half (s : State) (a n : Nat) (hn : 1 ≤ n) (h : s.flash.half.contains (sectorAt a) = true) :
    (s.flashRead a n).2.2 = true ∧ (s.flashRead a n).1.flash = { s.flash with unreliable := true } ∧ (s.flashRead a n).1.mem = s.mem := by
  have hw : ∀ m, (s.flashWords (a / 16) (m + 1)).2.2 = true := by
    intro m
    have : (s.flashWord (a / 16)).2.2 = true := by
      unfold State.flashWord
      simp only [sectorAt_word, h, if_true]
    simp only [State.flashWords, this, Bool.true_or]
  obtain ⟨m, hm⟩ : ∃ m, (a + n + 15) / 16 - a / 16 = m + 1 := ⟨(a + n + 15) / 16 - a / 16 - 1, by omega⟩
  have ho := flashWords_only (m + 1) s (a / 16)
  have hr : s.flashRead a n = ((s.flashWords (a / 16) (m + 1)).1.setFlash { (s.flashWords (a / 16) (m + 1)).1.flash with unreliable := true },
      slice (s.flashWords (a / 16) (m + 1)).2.1 (a % 16) n, true) := by
    unfold State.flashRead
    rw [hm]
    simp only [hw, if_true]
  rw [hr]
  refine ⟨rfl, ?_, ho.1⟩
  show { (s.flashWords (a / 16) (m + 1)).1.flash with unreliable := true } = _
  rw [ho.2]

theorem beAt_two (a b n m : Nat) (h : n = 4) (h2 : m = 4) : beAt (beBytes n a ++ beBytes m b) 0 4 = a % 2 ^ 32 ∧ beAt (beBytes n a ++ beBytes m b) 4 4 = b % 2 ^ 32 := by
  subst h; subst h2
  exact ⟨beAt_first _ _ _, beAt_last _ _ _ _ (beBytes_length _ _)⟩

theorem cfRead_run (s : State) (c : Ctx) (a n : Nat) (hs : s.flashServes c 0x0701) (h1 : 1 ≤ n) (h2 : n ≤ 4096) (h3 : a + n ≤ 2 ^ 25) :
    exec (.cfRead c (beBytes 4 a ++ beBytes 4 n) []) s = .next (if a < 0x00100000 ∧ 0x00010000 < a + n then s.cfDone (some c) 0x0701 .protected_ []
      else s.cfReadBytes c 0x0701 a n) := by
  show (s.strike []).cfFrame 0x0701 c _ = _
  rw [State.strike_nil, cfFrame_run _ _ _ _ hs, cfSubmit_run _ _ _ _ (.inl rfl)]
  congr 1
  have e := beAt_two a n 4 4 rfl rfl
  have el : (beBytes 4 a ++ beBytes 4 n).length = 8 := by rw [List.length_append, beBytes_length, beBytes_length]
  simp only [State.cfRun]
  rw [e.1, e.2, el, Nat.mod_eq_of_lt (by omega), Nat.mod_eq_of_lt (by omega)]
  rw [if_neg (by simp; omega)]
  by_cases h : a < 0x00100000 ∧ 0x00010000 < a + n
  · rw [if_pos h, if_pos (by simpa using h)]
  · rw [if_neg h, if_neg (by simpa using h)]

theorem find_of_mem {α : Type} {m : NMap α} (hs : NMap.sorted m = true) {e : Nat × α} (he : e ∈ m) : NMap.find m e.1 = some e.2 := by
  rw [NMap.sorted_iff] at hs
  induction m with
  | nil => exact absurd he (by simp)
  | cons a m ih =>
    rw [List.map_cons, List.pairwise_cons] at hs
    rw [show (a :: m) = ((a.1, a.2) :: m) from rfl, NMap.find_cons]
    rcases List.mem_cons.mp he with h | h
    · subst h; rw [if_pos rfl]
    · have := hs.1 e.1 (List.mem_map.mpr ⟨e, h, rfl⟩)
      rw [if_neg (by omega)]
      exact ih hs.2 h

theorem flash_used (m : Mem) (b n : Nat) (hw : Mem.wf 0xFF#8 m = true) :
    m.any (fun e => decide (b ≤ e.1) && decide (e.1 < b + n)) = true ↔ ∃ x, x < n ∧ Mem.read 0xFF#8 m (b + x) ≠ 0xFF#8 := by
  obtain ⟨hs, hd⟩ := (Mem.wf_iff _ _).mp hw
  rw [List.any_eq_true]
  constructor
  · rintro ⟨e, he, hc⟩
    simp only [Bool.and_eq_true, decide_eq_true_eq] at hc
    refine ⟨e.1 - b, by omega, ?_⟩
    rw [show b + (e.1 - b) = e.1 by omega]
    have hf := find_of_mem hs he
    unfold Mem.read NMap.get
    rw [hf]
    exact hd e he
  · rintro ⟨x, hx, hr⟩
    unfold Mem.read NMap.get at hr
    cases hf : NMap.find m (b + x) with
    | none => rw [hf] at hr; exact absurd rfl hr
    | some v => exact ⟨(b + x, v), mem_of_find hf, by simp; exact hx⟩

theorem beAt_second (a n : Nat) (d : Bytes) : beAt (beBytes 4 a ++ (beBytes 4 n ++ d)) 0 4 = a % 2 ^ 32 ∧ beAt (beBytes 4 a ++ (beBytes 4 n ++ d)) 4 4 = n % 2 ^ 32 ∧
    (beBytes 4 a ++ (beBytes 4 n ++ d)).drop 8 = d ∧ (beBytes 4 a ++ (beBytes 4 n ++ d)).length = 8 + d.length := by
  refine ⟨beAt_first _ _ _, beAt_append _ _ _ _ _ (beBytes_length _ _), ?_, ?_⟩
  · rw [← List.append_assoc]
    exact List.drop_left' (by rw [List.length_append, beBytes_length, beBytes_length])
  · rw [List.length_append, List.length_append, beBytes_length, beBytes_length]; omega

theorem reply_field {α : Type} (f : State → α) (hf : ∀ s w : State, f (s.withReply w) = f s) (s : State) (c : Ctx) (op : Nat) (st : Status) (pl : Bytes) :
    f (s.reply c op st pl) = f s := by
  rw [(reply_only s c op st pl).1]; exact hf _ _

theorem freeMbox_field {α : Type} (f : State → α) (hf : ∀ (s : State) (l : Lesar), f (s.setLesar l) = f s) (s : State) (c : Ctx) (op : Nat) :
    f (s.freeMbox c op) = f s := by
  unfold State.freeMbox; split
  · exact hf _ _
  · rfl

theorem cfDone_keeps (s : State) (c : Ctx) (op : Nat) (st : Status) (pl : Bytes) :
    (s.cfDone (some c) op st pl).flash = s.flash ∧ (s.cfDone (some c) op st pl).mem = s.mem ∧
      (s.cfDone (some c) op st pl).lesar.goDone = s.lesar.goDone := by
  refine ⟨?_, ?_, ?_⟩
  · refine (reply_field State.flash (fun _ _ => rfl) _ _ _ _ _).trans ((freeMbox_field State.flash (fun _ _ => rfl) _ _ _).trans ?_)
    split <;> rfl
  · refine (reply_field State.mem (fun _ _ => rfl) _ _ _ _ _).trans ((freeMbox_field State.mem (fun _ _ => rfl) _ _ _).trans ?_)
    split <;> rfl
  · refine ((reply_only _ _ _ _ _).2.1).trans ((freeMbox_goDone _ _ _).trans ?_)
    split <;> rfl

theorem cfPump_idle (s : State) (n : Nat) (hq : s.flash.queue = []) : s.cfPump n = s := by
  cases n with
  | zero => rfl
  | succ n => simp only [State.cfPump, hq]

theorem flashPut_read (s : State) (a : Nat) (d : Bytes) :
    (∀ x, x < d.length → Mem.read 0xFF#8 (s.flashPut a d).mem.flash (a + x) = d.getD x 0#8) ∧
    (∀ x, (x < a ∨ a + d.length ≤ x) → Mem.read 0xFF#8 (s.flashPut a d).mem.flash x = Mem.read 0xFF#8 s.mem.flash x) := by
  refine ⟨fun x hx => ?_, fun x hx => ?_⟩
  · have := Mem.read_writeN_inside 0xFF#8 d s.mem.flash a x hx
    refine this.trans ?_
    simp [hx]
  · exact Mem.read_writeN_outside 0xFF#8 d s.mem.flash a x hx

/-- The journal changes nothing of the controller but its head, its number and the words it erases. -/
theorem journal_keeps (s : State) (ty n : Nat) :
    ({ (s.journal ty n).flash with jHead := s.flash.jHead, jSeq := s.flash.jSeq, badWords := s.flash.badWords } : Flash) = s.flash := by
  have hp : ∀ (t : State) (ty n : Nat), ({ t.flash with jHead := s.flash.jHead, jSeq := s.flash.jSeq, badWords := s.flash.badWords } : Flash) = s.flash →
      ({ (t.journalPut ty n).flash with jHead := s.flash.jHead, jSeq := s.flash.jSeq, badWords := s.flash.badWords } : Flash) = s.flash := fun t ty n h => h
  unfold State.journal
  simp only
  split
  · refine hp _ _ _ ?_
    exact foldl_inv (fun t : State => ({ t.flash with jHead := s.flash.jHead, jSeq := s.flash.jSeq, badWords := s.flash.badWords } : Flash) = s.flash) _
      (fun b a h => hp b 1 a h) _ _ (hp _ _ _ rfl)
  · exact hp s _ _ rfl

theorem owner_away {n x : Nat} (ho : ownerSector n = true) (hx : x < sectorSize n) : sectorBase n + x < 0x8000 ∨ 0x10000 ≤ sectorBase n + x := by
  unfold ownerSector at ho
  simp only [Bool.or_eq_true, Bool.and_eq_true, decide_eq_true_eq] at ho
  unfold sectorSize at hx
  unfold sectorBase
  by_cases h : 0x8000 ≤ n
  · rw [if_pos h] at hx
    rw [if_pos h]
    rcases ho with ((h1 | h1) | h1) | h1
    · have : (n - 0x8000) / 16 = 0 := by omega
      rw [this]; omega
    · have : (n - 0x8000) / 16 = 1 := by omega
      rw [this]; omega
    · omega
    · omega
  · rw [if_neg h] at hx
    rw [if_neg h]
    rcases ho with ((h1 | h1) | h1) | h1 <;> omega

/-- The bytes of a sector are erased and the journal's head is a slot. -/
def erasedAt (n : Nat) (s : State) : Prop :=
  s.flash.jHead < 2048 ∧ ∀ x, x < sectorSize n → Mem.read 0xFF#8 s.mem.flash (sectorBase n + x) = 0xFF#8

theorem erased_put {n : Nat} (ho : ownerSector n = true) (s : State) (ty m : Nat) (h : erasedAt n s) : erasedAt n (s.journalPut ty m) := by
  refine ⟨Nat.mod_lt _ (by decide), fun x hx => ?_⟩
  have hw := owner_away ho hx
  have hl : (flashRecord ty m (s.flash.jSeq + 1)).length = 16 := by
    unfold flashRecord
    simp only [List.length_append, beBytes_length]; rfl
  refine (Mem.read_writeN_outside 0xFF#8 (flashRecord ty m (s.flash.jSeq + 1)) s.mem.flash (journalAddr s.flash.jHead) (sectorBase n + x) ?_).trans (h.2 x hx)
  rw [hl]
  unfold journalAddr
  have := h.1
  omega

theorem erased_clear {n : Nat} (s : State) (m : Nat) (h : erasedAt n s) : erasedAt n (s.flashClear m) := by
  refine ⟨h.1, fun x hx => ?_⟩
  refine (Mem.read_clear 0xFF#8 s.mem.flash (sectorBase m) (sectorSize m) (sectorBase n + x)).trans ?_
  rw [h.2 x hx, ite_self]

theorem erased_journal {n : Nat} (ho : ownerSector n = true) (s : State) (ty m : Nat) (h : erasedAt n s) : erasedAt n (s.journal ty m) := by
  unfold State.journal
  simp only
  split
  · refine erased_put ho _ _ _ ?_
    exact foldl_inv (erasedAt n) _ (fun b a hb => erased_put ho b 1 a hb) _ _ (erased_put ho _ _ _ (erased_clear _ _ h))
  · exact erased_put ho _ _ _ h

theorem counterPut_keeps (t : State) (ty : Nat) : ∃ m cH cS, (t.counterPut ty).flash = { t.flash with cHead := cH, cSeq := cS } ∧
    t.counterPut ty = (t.setFlashMem m).setFlash { t.flash with cHead := cH, cSeq := cS } := ⟨_, _, _, rfl, rfl⟩

/-- What an appended counter record changes: the counts, the rings and the array. -/
theorem counter_keeps (s : State) (ty : Nat) :
    ({ (s.counter ty).flash with jHead := s.flash.jHead, jSeq := s.flash.jSeq, badWords := s.flash.badWords, cHead := s.flash.cHead, cSeq := s.flash.cSeq, starts := s.flash.starts, pwFails := s.flash.pwFails } : Flash) = s.flash ∧
    flashOnly s (s.counter ty) ∧
    (s.counter ty).flash.starts = (if ty = 0x11 then min 255 (s.flash.starts + 1) else if ty = 0x12 then 0 else s.flash.starts) ∧
    (s.counter ty).flash.pwFails = (if ty = 0x13 then s.flash.pwFails + 1 else if ty = 0x14 then 0 else s.flash.pwFails) := by
  have K : ∀ t : State, ({ t.flash with jHead := s.flash.jHead, jSeq := s.flash.jSeq, badWords := s.flash.badWords, cHead := s.flash.cHead, cSeq := s.flash.cSeq, starts := s.flash.starts, pwFails := s.flash.pwFails } : Flash) = s.flash ∧ flashOnly s t →
      ∀ ty, ({ (t.counterPut ty).flash with jHead := s.flash.jHead, jSeq := s.flash.jSeq, badWords := s.flash.badWords, cHead := s.flash.cHead, cSeq := s.flash.cSeq, starts := s.flash.starts, pwFails := s.flash.pwFails } : Flash) = s.flash ∧ flashOnly s (t.counterPut ty) :=
    fun t h ty => ⟨h.1, flashOnly_trans h.2 (counterPut_only t ty)⟩
  have J : ∀ t : State, ({ t.flash with jHead := s.flash.jHead, jSeq := s.flash.jSeq, badWords := s.flash.badWords, cHead := s.flash.cHead, cSeq := s.flash.cSeq, starts := s.flash.starts, pwFails := s.flash.pwFails } : Flash) = s.flash ∧ flashOnly s t →
      ∀ ty n, ({ (t.journal ty n).flash with jHead := s.flash.jHead, jSeq := s.flash.jSeq, badWords := s.flash.badWords, cHead := s.flash.cHead, cSeq := s.flash.cSeq, starts := s.flash.starts, pwFails := s.flash.pwFails } : Flash) = s.flash ∧ flashOnly s (t.journal ty n) := by
    intro t h ty n
    refine ⟨?_, flashOnly_trans h.2 (journal_only t ty n)⟩
    have := journal_keeps t ty n
    have e := congrArg (fun f : Flash => ({ f with jHead := s.flash.jHead, jSeq := s.flash.jSeq, badWords := s.flash.badWords, cHead := s.flash.cHead, cSeq := s.flash.cSeq, starts := s.flash.starts, pwFails := s.flash.pwFails } : Flash)) this
    exact e.trans h.1
  have C : ∀ t : State, ({ t.flash with jHead := s.flash.jHead, jSeq := s.flash.jSeq, badWords := s.flash.badWords, cHead := s.flash.cHead, cSeq := s.flash.cSeq, starts := s.flash.starts, pwFails := s.flash.pwFails } : Flash) = s.flash ∧ flashOnly s t →
      ∀ n, ({ (t.flashClear n).flash with jHead := s.flash.jHead, jSeq := s.flash.jSeq, badWords := s.flash.badWords, cHead := s.flash.cHead, cSeq := s.flash.cSeq, starts := s.flash.starts, pwFails := s.flash.pwFails } : Flash) = s.flash ∧ flashOnly s (t.flashClear n) :=
    fun t h n => ⟨h.1, flashOnly_trans h.2 (flashClear_only t n)⟩
  have main : ∀ s1 : State, ({ s1.flash with jHead := s.flash.jHead, jSeq := s.flash.jSeq, badWords := s.flash.badWords, cHead := s.flash.cHead, cSeq := s.flash.cSeq, starts := s.flash.starts, pwFails := s.flash.pwFails } : Flash) = s.flash ∧ flashOnly s s1 →
      ∀ a b : Nat, ({ ((s1.counterPut ty).setFlash { (s1.counterPut ty).flash with starts := a, pwFails := b }).flash with jHead := s.flash.jHead, jSeq := s.flash.jSeq, badWords := s.flash.badWords, cHead := s.flash.cHead, cSeq := s.flash.cSeq, starts := s.flash.starts, pwFails := s.flash.pwFails } : Flash) = s.flash ∧
        flashOnly s ((s1.counterPut ty).setFlash { (s1.counterPut ty).flash with starts := a, pwFails := b }) :=
    fun s1 h a b => ⟨(K s1 h ty).1, flashOnly_trans (K s1 h ty).2 (setFlash_only _ _)⟩
  refine and_assoc.mp ⟨?_, rfl, rfl⟩
  unfold State.counter
  simp only
  refine main _ ?_ _ _
  split
  · refine foldl_inv (fun t : State => ({ t.flash with jHead := s.flash.jHead, jSeq := s.flash.jSeq, badWords := s.flash.badWords, cHead := s.flash.cHead, cSeq := s.flash.cSeq, starts := s.flash.starts, pwFails := s.flash.pwFails } : Flash) = s.flash ∧ flashOnly s t) _
      (fun b _ h => K b h 0x11) _ _ ?_
    refine foldl_inv (fun t : State => ({ t.flash with jHead := s.flash.jHead, jSeq := s.flash.jSeq, badWords := s.flash.badWords, cHead := s.flash.cHead, cSeq := s.flash.cSeq, starts := s.flash.starts, pwFails := s.flash.pwFails } : Flash) = s.flash ∧ flashOnly s t) _
      (fun b _ h => K b h 0x13) _ _ ?_
    exact K _ (J _ (C _ (J s ⟨rfl, flashOnly_refl s⟩ _ _) _) _ _) _
  · exact ⟨rfl, flashOnly_refl s⟩

theorem counter_op (s : State) (ty : Nat) : (s.counter ty).flash.op = s.flash.op := by
  have h := (counter_keeps s ty).1
  have e := congrArg Flash.op h
  exact e

theorem counter_params (s : State) (ty : Nat) : (s.counter ty).flash.params = s.flash.params := by
  have h := (counter_keeps s ty).1
  have e := congrArg Flash.params h
  exact e

theorem protPayload (m pw : Bytes) (w : Nat) (hm : m.length = 64) (hp : pw.length = 16) :
    (m ++ (beBytes 4 w ++ pw)).length = 84 ∧ slice (m ++ (beBytes 4 w ++ pw)) 0 64 = m ∧ beAt (m ++ (beBytes 4 w ++ pw)) 64 4 = w % 2 ^ 32 ∧
      slice (m ++ (beBytes 4 w ++ pw)) 68 16 = pw := by
  refine ⟨?_, ?_, beAt_append m pw 4 w 64 hm, ?_⟩
  · rw [List.length_append, List.length_append, beBytes_length]; omega
  · unfold slice
    rw [List.drop_zero]; exact List.take_left' hm
  · unfold slice
    rw [← List.append_assoc, List.drop_left' (by rw [List.length_append, beBytes_length, hm]), List.take_of_length_le (by omega)]

theorem pwPayload (pw nw : Bytes) (hp : pw.length = 16) (hn : nw.length = 16) :
    (pw ++ nw).length = 32 ∧ slice (pw ++ nw) 0 16 = pw ∧ slice (pw ++ nw) 16 16 = nw := by
  refine ⟨by rw [List.length_append]; omega, ?_, ?_⟩
  · unfold slice
    rw [List.drop_zero]; exact List.take_left' hp
  · unfold slice
    rw [List.drop_left' hp, List.take_of_length_le (by omega)]

theorem protect_run (s : State) (c : Ctx) (op : Nat) (pw pl : Bytes) (new : ParamSet) (hsu : s.flash.susp = none)
    (hl : pl.length = if op = 0x0708 then 84 else 32) (hpw : (if op = 0x0708 then slice pl 68 16 else slice pl 0 16) = pw)
    (hnew : ∀ q : State, (if op = 0x0708 then q.beginParam (some c) op { s.params with protMain := slice pl 0 64, protParam := BitVec.ofNat 32 (beAt pl 64 4) }
      else q.beginParam (some c) op { s.params with pwSet := !allZero (slice pl 16 16), pwDigest := if allZero (slice pl 16 16) then List.replicate 32 0 else passwordDigest (slice pl 16 16) }) = q.beginParam (some c) op new) :
    s.cfProtectRun c op pl = (match (s.cfPassword pw).2 with
      | some st => (s.cfPassword pw).1.cfDone (some c) op st []
      | none => (s.cfPassword pw).1.beginParam (some c) op new) := by
  unfold State.cfProtectRun
  simp only
  rw [hl, hpw, hsu, if_neg (by simp), if_neg (by simp)]
  cases h : (s.cfPassword pw).2 with
  | some st => rfl
  | none => exact hnew _

/-- The instant and the existence of a partition. -/
def keepHere (n p : Nat) : Keep where
  P s := s.now = n ∧ (s.part p).isSome = true
  stamp _ _ h := h
  free _ _ h := h
  timeHi _ _ h := h
  regs _ _ h := h
  tiles _ _ h := h
  pods _ _ h := h
  tombs _ _ h := h
  walks _ _ h := h
  dev _ _ h := h
  guard _ _ h := h
  keeper _ _ h := h
  flash _ _ h := h
  lesar _ _ h := h
  eth _ _ h := h
  smb _ _ h := h
  dram _ _ h := h
  nand _ _ h := h
  lender _ _ h := h
  veolo _ _ h := h
  survey _ _ h := h
  modPart s q f h := ⟨h.1, by
    by_cases e : p = q
    · subst e; rw [State.part_modPart_self, Option.isSome_map]; exact h.2
    · rw [State.part_modPart_ne s f e]; exact h.2⟩
  putPart s q v h := ⟨h.1, by
    by_cases e : p = q
    · subst e; rw [State.part_putPart_self]; rfl
    · rw [State.part_putPart_ne s v e]; exact h.2⟩
  mapParts s f h := ⟨h.1, by
    have : ∀ m : NMap Part, NMap.find (m.map (fun e => (e.1, f e))) p = (NMap.find m p).map (fun v => f (p, v)) := by
      intro m
      induction m with
      | nil => rfl
      | cons e m ih =>
        obtain ⟨k, v⟩ := e
        rw [List.map_cons, NMap.find_cons, NMap.find_cons]
        by_cases hk : k = p
        · subst hk; simp
        · rw [if_neg hk, if_neg hk]; exact ih
    show (NMap.find _ p).isSome = true
    rw [State.setParts_parts, this, Option.isSome_map]
    exact h.2⟩
  mem _ _ h _ := h

/-- A partition's step is `st`. -/
def stepIs (s : State) (p : Nat) (st : StepSt) : Prop := ∃ v, s.part p = some v ∧ v.step = some st

theorem stepIs_modPart {s : State} {p : Nat} {st : StepSt} (f : Part → Part) (hf : ∀ v, (f v).step = v.step) (h : stepIs s p st) :
    stepIs (s.modPart p f) p st := by
  obtain ⟨v, hv, e⟩ := h
  exact ⟨f v, part_of_modPart f hv, (hf v).trans e⟩

theorem stepIs_of {s u : State} {p : Nat} {st : StepSt} (e : u.part p = s.part p) (h : stepIs s p st) : stepIs u p st := by
  obtain ⟨v, hv, hs⟩ := h
  exact ⟨v, e.trans hv, hs⟩

theorem openStep_here (s : State) (p : Nat) (im : Image) (count kind n : Nat) (block : List Word) (binds : Nat) (h : Ok (keepHere n p) s) :
    stepIs (s.openStep p im count kind block binds) p (StepSt.opened n count kind block binds) := by
  obtain ⟨h1, h2⟩ := h
  obtain ⟨pt, hp⟩ := Option.isSome_iff_exists.mp h2
  unfold State.openStep
  have hs : stepIs (s.modPart p (fun pt => { pt with step := some (StepSt.opened s.now count kind block binds), ctxs := if block.length ≤ 16 then [] else pt.atEntry im kind }))
      p (StepSt.opened n count kind block binds) := ⟨_, part_of_modPart _ hp, by rw [← h1]⟩
  generalize s.modPart p (fun pt => { pt with step := some (StepSt.opened s.now count kind block binds), ctxs := if block.length ≤ 16 then [] else pt.atEntry im kind }) = s1 at hs
  obtain ⟨q, hq, hqs⟩ := hs
  unfold State.gratItem
  rw [hq]
  exact stepIs_modPart (s := s1.putReg .grat p 0x04 _) (fun pt => { pt with staged := { pt.staged with grat := false } }) (fun _ => rfl) ⟨q, hq, hqs⟩

theorem keepRecords_frame (s : State) (p : Nat) : (((s.keepRecords p).setMem s.mem).setDram s.dram).setRegs s.regs = s := by
  have step : ∀ (u : State) (pt : Part) (off : Nat) (bs : Bytes), ((u.setMem s.mem).setDram s.dram).setRegs s.regs = s →
      (((u.shareStore pt off bs).setMem s.mem).setDram s.dram).setRegs s.regs = s := by
    intro u pt off bs h
    unfold State.shareStore
    cases hw : u.shareWrite pt off bs with
    | none => exact h
    | some w =>
      have := congrArg (fun x : State => ((x.setMem s.mem).setDram s.dram).setRegs s.regs) (shareWrite_frame hw)
      exact this.trans h
  unfold State.keepRecords
  split
  · rfl
  · split
    · rfl
    · refine foldl_inv (fun u : State => ((u.setMem s.mem).setDram s.dram).setRegs s.regs = s) _ (fun u q h => step u _ _ _ h) _ _ ?_
      exact foldl_inv (fun u : State => ((u.setMem s.mem).setDram s.dram).setRegs s.regs = s) _ (fun u q h => step u _ _ _ h) _ _ rfl

theorem keepRecords_part (s : State) (p q : Nat) : (s.keepRecords p).part q = s.part q :=
  (congrArg (fun x : State => x.part q) (keepRecords_frame s p) : (State.setRegs _ _).part q = _)

theorem openNext_here (s : State) (p count n : Nat) (old : Part) (recs : Recs) (h : Ok (keepHere n p) s) :
    ∃ v, (s.openNext p count old recs).part p = some v ∧ (v.image ≠ none → ∃ kind block binds, v.step = some (StepSt.opened n count kind block binds)) := by
  have fin : ∀ {u : State} {kind : Nat} {block : List Word} {binds : Nat}, stepIs u p (StepSt.opened n count kind block binds) →
      ∃ v, u.part p = some v ∧ (v.image ≠ none → ∃ kind block binds, v.step = some (StepSt.opened n count kind block binds)) := by
    rintro u kind block binds ⟨v, hv, hs⟩
    exact ⟨v, hv, fun _ => ⟨kind, block, binds, hs⟩⟩
  unfold State.openNext
  cases hi : (s.part p).bind (·.image) with
  | none =>
    obtain ⟨pt, hp⟩ := Option.isSome_iff_exists.mp h.2
    refine ⟨pt, hp, fun hn => absurd ?_ hn⟩
    rw [hp] at hi
    exact hi
  | some im =>
    simp only
    have h1 := State.scaleItem_keep _ s p im h
    generalize s.scaleItem p im = s1 at h1 ⊢
    split
    · have h2 : Ok (keepHere n p) (if (s1.part p).any (fun pt => MState.up pt.mstate && (im.stages == 1 || pt.joined)) then s1.admission p im else (s1, [])).1 := by
        split
        · exact State.admission_keep _ s1 p im h1
        · exact h1
      generalize (if (s1.part p).any (fun pt => MState.up pt.mstate && (im.stages == 1 || pt.joined)) then s1.admission p im else (s1, [])) = a at h2 ⊢
      have h3 := State.emit_keep _ a.1 p (recs ++ a.2) h2
      generalize a.1.emit p (recs ++ a.2) = s3 at h3 ⊢
      unfold State.leadStep
      simp only
      have h4 := State.modPart_keep _ _ p Part.wakeBeams (State.takeChunks_keep _ s3 p im h3)
      generalize (s3.takeChunks p im).modPart p Part.wakeBeams = s4 at h4 ⊢
      obtain ⟨pt, hp⟩ := Option.isSome_iff_exists.mp h4.2
      rw [hp]
      simp only
      have h5 := stepIs_modPart Part.allTold (fun _ => rfl) (openStep_here s4 p im count (pt.stepBlock im count).2 n (pt.stepBlock im count).1 (old.binds pt) h4)
      split
      · exact fin h5
      · exact fin (stepIs_of (congrArg (fun x : State => x.part p) (sendMessage_frame _ 0 .activation p _) : (State.setVeolo _ _).part p = _) h5)
    · unfold State.followStep
      obtain ⟨pt, hp⟩ := Option.isSome_iff_exists.mp h1.2
      rw [hp]
      simp only
      split
      · exact fin (openStep_here s1 p im count 0 n [] 0 h1)
      · next block ds _ =>
        have h5 : Ok (keepHere n p) (ds.foldl (fun s d => s.applyDecision p im d) s1) :=
          ok_foldl (fun s d h => State.applyDecision_keep _ s p im d h) h1
        exact fin (openStep_here _ p im count ((block.getD 1 0).field 1 0) n block _
          (State.modPart_keep _ _ p (fun pt => { pt with gone := [], decisions := pt.decisions.filter (fun e => e.1 != count) }) h5))

theorem meridianAt_here (s : State) (p n : Nat) (pt : Part) (im : Image) (target : Option Nat) (conf : Option (List Nat)) (hp : s.part p = some pt)
    (hi : pt.image = some im) (hf : s.dev.fwHalted = false) (hr : pt.staged.reset = none) (hn : s.now = n) :
    ∃ v, (s.meridianAt p target conf).now = n ∧ (s.meridianAt p target conf).part p = some v ∧
      (v.image ≠ none → ∃ kind block binds, v.step = some (StepSt.opened n ((target.getD (s.merCount p + 1)) % 2 ^ 32) kind block binds)) := by
  have h0 : Ok (keepHere n p) s := ⟨hn, by rw [hp]; rfl⟩
  have hk : Ok (keepHere n p) (s.meridianAt p target conf) := State.meridianAt_keep _ s p target conf h0
  suffices ∃ v, (s.meridianAt p target conf).part p = some v ∧
      (v.image ≠ none → ∃ kind block binds, v.step = some (StepSt.opened n ((target.getD (s.merCount p + 1)) % 2 ^ 32) kind block binds)) by
    obtain ⟨v, a, b⟩ := this
    exact ⟨v, hk.1, a, b⟩
  unfold State.meridianAt
  rw [hf]
  simp only [Bool.false_eq_true, if_false, hp, hr, Option.isSome_none, hi]
  rw [keepRecords_part]
  refine openNext_here _ p _ n pt _ ?_
  refine State.items_keep _ _ _ _ _ _ _ (State.endForNotice_keep _ _ _ (State.closeStep_keep _ _ _ _ (State.modPart_keep _ _ _ _ (State.putReg_keep _ _ _ _ _ _ ?_))))
  split
  · exact State.putReg_keep _ _ _ _ _ _ h0
  · exact h0

theorem part_of_veolo {w u : State} (h : u.setVeolo w.veolo = w) (q : Nat) : u.part q = w.part q :=
  (congrArg (fun x : State => x.part q) h : (u.setVeolo _).part q = _)

theorem takeMessage_spec (s : State) (p : Nat) (cls : LClass) : (s.takeMessage p cls).1.setVeolo s.veolo = s ∧ ∀ q, (s.takeMessage p cls).1.part q = s.part q := by
  unfold State.takeMessage
  split
  · exact ⟨rfl, fun _ => rfl⟩
  · exact ⟨rfl, fun _ => rfl⟩

theorem sendTo_frame (s : State) (dest : Nat) (cls : LClass) (part : Nat) (bs : Bytes) : (s.sendTo dest cls part bs).setVeolo s.veolo = s := by
  unfold State.sendTo
  split
  · exact sendOn_frame _ _ _ _ _ _ _ _
  · rfl

theorem setDram_part (s : State) (d : Dram) (q : Nat) : (s.setDram d).part q = s.part q := rfl

theorem burstFind_mem (s : State) (a n : Nat) : (s.burstFind a n).1.mem = s.mem :=
  (congrArg State.mem (burstFind_frame s a n) : (((s.burstFind a n).1.setDram _).setRegs _).mem = _)

theorem dramWrite_mem (s : State) (a : Nat) (bs : Bytes) : (s.dramWrite a bs).mem = { s.mem with dram := (s.dramWrite a bs).mem.dram } := by
  unfold State.dramWrite
  split
  · rfl
  · have h1 : ((partBursts a bs.length).foldl (fun (s : State) b => (s.burstFind (64 * b) 64).1) s).mem = s.mem :=
      foldl_inv (fun u : State => u.mem = s.mem) _ (fun u b h => (burstFind_mem u _ _).trans h) _ s rfl
    generalize (partBursts a bs.length).foldl (fun (s : State) b => (s.burstFind (64 * b) 64).1) s = u at h1
    have h2 : ∀ m : Mem, ((u.setDram { u.dram with bad := NMap.eraseRange u.dram.bad ((a + 63) / 64) ((a + bs.length) / 64) }).setDramMem m).mem = { s.mem with dram := m } := by
      intro m
      show { u.mem with dram := m } = _
      rw [h1]
    simp only
    split <;> rw [h2]

theorem writeRuns_mem : ∀ (rs : List (Nat × Nat)) (s : State) (bs : Bytes), (s.writeRuns rs bs).mem = { s.mem with dram := (s.writeRuns rs bs).mem.dram }
  | [], _, _ => rfl
  | (a, k) :: rs, s, bs => by
    show ((s.dramWrite a (bs.take k)).writeRuns rs (bs.drop k)).mem = _
    rw [writeRuns_mem rs, dramWrite_mem]
    rfl

theorem shareWrite_mem {s u : State} {pt : Part} {off : Nat} {bs : Bytes} (h : s.shareWrite pt off bs = some u) :
    u.mem = { s.mem with dram := u.mem.dram } := by
  unfold State.shareWrite at h
  obtain ⟨rs, _, rfl⟩ := Option.map_eq_some_iff.mp h
  exact writeRuns_mem rs s bs

theorem shareStore_frame (s : State) (pt : Part) (off : Nat) (bs : Bytes) :
    (((s.shareStore pt off bs).setMem s.mem).setDram s.dram).setRegs s.regs = s ∧
      (s.shareStore pt off bs).mem = { s.mem with dram := (s.shareStore pt off bs).mem.dram } := by
  unfold State.shareStore
  cases h : s.shareWrite pt off bs with
  | none => exact ⟨rfl, rfl⟩
  | some u => exact ⟨shareWrite_frame h, shareWrite_mem h⟩

theorem settle_owed (s : State) (c : Ctx) (op : Nat) (st : Status) (pl : Bytes) (h : ⟨c, op⟩ ∈ s.lesar.owed) :
    s.settle c op st pl = (s.setLesar { s.lesar with owed := s.lesar.owed.erase ⟨c, op⟩ }).reply c op st pl := by
  unfold State.settle
  simp only
  rw [if_pos (List.elem_eq_true_of_mem h)]

theorem freeMbox_genOf (s : State) (c : Ctx) (op : Nat) : (s.freeMbox c op).genOf c = s.genOf c := by
  unfold State.freeMbox
  split <;> rfl

theorem freeMbox_dev (s : State) (c : Ctx) (op : Nat) : (s.freeMbox c op).dev = s.dev := by
  unfold State.freeMbox
  split <;> rfl

theorem sendSeq_owed (s : State) (n : Nat) (f : OutFrame) : (s.sendSeq n f).lesar.owed = s.lesar.owed := by
  unfold State.sendSeq
  split
  · rfl
  · split <;> rfl

theorem keepReply_owed (s : State) (c : Ctx) (f : OutFrame) : (s.keepReply c f).lesar.owed = s.lesar.owed := by
  unfold State.keepReply
  split
  · split <;> rfl
  · rfl

theorem reply_owed (s : State) (c : Ctx) (op : Nat) (st : Status) (pl : Bytes) : (s.reply c op st pl).lesar.owed = s.lesar.owed := by
  unfold State.reply
  split
  · rfl
  · split
    · split
      · simp only
        exact (keepReply_owed _ _ _).trans rfl
      · rfl
    · split
      · rfl
      · split
        · exact sendSeq_owed _ _ _
        · simp only
          exact foldl_inv (fun t : State => t.lesar.owed = s.lesar.owed) _ (fun b a h => (sendSeq_owed _ _ _).trans h) _ s rfl

theorem leaveNotices_frame (s : State) : s.leaveNotices.setVeolo s.veolo = s := by
  unfold State.leaveNotices
  exact foldl_inv (fun t : State => t.setVeolo s.veolo = s) _ (fun b a h => veolo_trans (a := s) (b := b) h (sendMessage_frame b a .management 0 _)) _ s rfl

theorem beginReset_frame (s : State) (cs : List Ctx) (system activation : Bool) :
    (s.beginReset cs system activation).setVeolo s.veolo = s.setDev { s.dev with reset := some { ctxs := cs, system := system, activation := activation, saved := false } } := by
  have h := leaveNotices_frame s
  unfold State.beginReset
  generalize s.leaveNotices = u at h ⊢
  have hd : u.dev = s.dev := by rw [← h]; rfl
  rw [hd]
  have e : ∀ (d : Dev) (v : Veolo), (u.setDev d).setVeolo v = (u.setVeolo v).setDev d := fun _ _ => rfl
  rw [e, h]

theorem freeMbox_calm (s : State) (c : Ctx) (op : Nat) : (s.freeMbox c op).calm = s.calm := by
  unfold State.freeMbox
  split <;> rfl

theorem lowestFree_ge {α : Type} : ∀ (m : NMap α) (k : Nat), (∀ e ∈ m, k < e.1) → m.foldl (fun k e => if e.1 = k then k + 1 else k) k = k := by
  intro m
  induction m with
  | nil => intro k _; rfl
  | cons e m ih =>
    intro k h
    have h1 := h e (List.mem_cons_self ..)
    simp only [List.foldl_cons, if_neg (Nat.ne_of_gt h1)]
    exact ih k (fun a ha => h a (List.mem_cons_of_mem _ ha))

theorem lowestFree_aux {α : Type} : ∀ (m : NMap α) (k : Nat), (m.map Prod.fst).Pairwise (· < ·) → (∀ e ∈ m, k ≤ e.1) →
    ∀ e ∈ m, e.1 ≠ m.foldl (fun k e => if e.1 = k then k + 1 else k) k := by
  intro m
  induction m with
  | nil => intro k _ _ e he; cases he
  | cons a m ih =>
    intro k hs hk e he
    simp only [List.map_cons, List.pairwise_cons, List.mem_map, forall_exists_index, and_imp, forall_apply_eq_imp_iff₂] at hs
    have ha := hk a (List.mem_cons_self ..)
    simp only [List.foldl_cons]
    by_cases h : a.1 = k
    · rw [if_pos h]
      have hm : ∀ e ∈ m, k + 1 ≤ e.1 := fun e he => by have := hs.1 e he; omega
      have hge : ∀ (m : NMap α) (k : Nat), k ≤ m.foldl (fun k e => if e.1 = k then k + 1 else k) k := by
        intro m
        induction m with
        | nil => intro k; exact Nat.le_refl _
        | cons b m ihm => intro k; simp only [List.foldl_cons]; refine Nat.le_trans ?_ (ihm _); split <;> omega
      cases he with
      | head => have := hge m (k + 1); omega
      | tail _ he => exact ih (k + 1) hs.2 hm e he
    · rw [if_neg h]
      have hlt : ∀ e ∈ m, k < e.1 := fun e he => by have := hs.1 e he; omega
      rw [lowestFree_ge m k hlt]
      cases he with
      | head => exact h
      | tail _ he => have := hlt e he; omega

theorem lowestFree_free {α : Type} (m : NMap α) (h : NMap.sorted m = true) : NMap.find m (lowestFree m) = none := by
  have h1 := lowestFree_aux m 0 ((NMap.sorted_iff m).1 h) (fun _ _ => Nat.zero_le _)
  have h2 : ∀ (l : NMap α), (∀ e ∈ l, e ∈ m) → NMap.find l (lowestFree m) = none := by
    intro l
    induction l with
    | nil => intro _; rfl
    | cons e l ih =>
      intro hl
      have hne : ¬ e.1 = lowestFree m := h1 e (hl e (List.mem_cons_self ..))
      rw [NMap.find_cons, if_neg hne]
      exact ih (fun a ha => hl a (List.mem_cons_of_mem _ ha))
  exact h2 m (fun _ h => h)

/-- What writes of a share change: memory, the DRAM's counts and the registers. -/
def shareOnly (s t : State) : Prop := ((t.setMem s.mem).setDram s.dram).setRegs s.regs = s

theorem shareOnly_refl (s : State) : shareOnly s s := rfl

theorem shareOnly_trans {a b c : State} (h1 : shareOnly a b) (h2 : shareOnly b c) : shareOnly a c :=
  (congrArg (fun x : State => ((x.setMem a.mem).setDram a.dram).setRegs a.regs) h2 : _).trans h1

theorem shareOnly_part {s t : State} (h : shareOnly s t) (q : Nat) : t.part q = s.part q :=
  (congrArg (fun x : State => x.part q) h : (State.setRegs _ _).part q = _)

theorem shareOnly_store (s : State) (pt : Part) (off : Nat) (bs : Bytes) : shareOnly s (s.shareStore pt off bs) := (shareStore_frame s pt off bs).1

theorem shareOnly_clear (s : State) (pt : Part) (off n : Nat) : shareOnly s (s.shareClear pt off n) := by
  unfold State.shareClear
  split
  · exact shareOnly_refl s
  · exact shareOnly_store _ _ _ _

theorem openPages_only (s : State) (p : Nat) (pt : Part) (n : Nat) : shareOnly s (s.openPages p pt n) := by
  unfold State.openPages
  split
  · exact shareOnly_refl s
  · exact foldl_inv (fun x : State => shareOnly s x) _ (fun b l h => shareOnly_trans h (shareOnly_trans (shareOnly_store _ _ _ _) (shareOnly_clear _ _ _ _))) _ _
      (shareOnly_refl s)

/-- Sheets taken from the reserve for a segment: as many as its tokens need, none in use before, each with its 128 tokens; nothing else changes but
the bytes of their pages. -/
theorem takeReserve_spec (p : Nat) : ∀ (n first : Nat) (toks : List Nat) (s : State) (acc : List Nat) (pt : Part), s.part p = some pt → NMap.sorted pt.sheets = true →
    toks.length ≤ 128 * n →
    ∃ (ks : List Nat) (sh : NMap Sheet), (s.takeReserve p n first toks acc).2 = acc ++ ks ∧ ks.length = (toks.length + 127) / 128 ∧
      shareOnly s ((s.takeReserve p n first toks acc).1.setParts s.parts) ∧
      (∀ q, q ≠ p → (s.takeReserve p n first toks acc).1.part q = s.part q) ∧ (s.takeReserve p n first toks acc).1.part p = some { pt with sheets := sh } ∧
      (∀ k, k ∉ ks → NMap.find sh k = NMap.find pt.sheets k) ∧
      (∀ i (h : i < ks.length), NMap.find pt.sheets ks[i] = none ∧ NMap.find sh ks[i] = some (Sheet.ofSegment (first + 128 * i) (toks.drop (128 * i)))) := by
  intro n
  induction n with
  | zero =>
    intro first toks s acc pt hp hs hl
    have : toks.length = 0 := by omega
    exact ⟨[], pt.sheets, (List.append_nil _).symm, by rw [this]; rfl, shareOnly_refl s, fun _ _ => rfl, hp, fun _ _ => rfl, fun i h => absurd h (Nat.not_lt_zero i)⟩
  | succ n ih =>
    intro first toks s acc pt hp hs hl
    have hu : s.takeReserve p (n + 1) first toks acc = if toks.isEmpty then (s, acc) else
        ((s.putPart p (pt.putSheet (lowestFree pt.sheets) (Sheet.ofSegment first toks))).openPages p (pt.putSheet (lowestFree pt.sheets) (Sheet.ofSegment first toks))
          (lowestFree pt.sheets)).takeReserve p n (first + 128) (toks.drop 128) (acc ++ [lowestFree pt.sheets]) := by
      conv_lhs => unfold State.takeReserve
      rw [hp]
    rw [hu]
    cases he : toks.isEmpty with
    | true =>
      have : toks = [] := List.isEmpty_iff.1 he
      subst this
      rw [if_pos rfl]
      exact ⟨[], pt.sheets, (List.append_nil _).symm, rfl, shareOnly_refl s, fun _ _ => rfl, hp, fun _ _ => rfl, fun i h => absurd h (Nat.not_lt_zero i)⟩
    | false =>
      rw [if_neg Bool.false_ne_true]
      have hne : 0 < toks.length := by
        cases toks with
        | nil => cases he
        | cons _ _ => exact Nat.succ_pos _
      generalize hk : lowestFree pt.sheets = k
      have hfree : NMap.find pt.sheets k = none := hk ▸ lowestFree_free _ hs
      have ho := openPages_only (s.putPart p (pt.putSheet k (Sheet.ofSegment first toks))) p (pt.putSheet k (Sheet.ofSegment first toks)) k
      generalize (s.putPart p (pt.putSheet k (Sheet.ofSegment first toks))).openPages p (pt.putSheet k (Sheet.ofSegment first toks)) k = u at ho ⊢
      have h1 : u.part p = some (pt.putSheet k (Sheet.ofSegment first toks)) := (shareOnly_part ho p).trans (NMap.find_insert_self _ _ _)
      have hq1 : ∀ q, q ≠ p → u.part q = s.part q := fun q hq => (shareOnly_part ho q).trans (NMap.find_insert_ne _ _ hq)
      have hset : ∀ R : State, shareOnly u (R.setParts u.parts) → shareOnly s (R.setParts s.parts) := by
        intro R c
        have e1 : shareOnly (u.setParts s.parts) (R.setParts s.parts) := congrArg (fun x : State => x.setParts s.parts) c
        have e2 : shareOnly s (u.setParts s.parts) := congrArg (fun x : State => x.setParts s.parts) ho
        exact shareOnly_trans e2 e1
      obtain ⟨ks, sh, a, b, c, d, e, f, g⟩ := ih (first + 128) (toks.drop 128) u (acc ++ [k]) _ h1 (NMap.sorted_insert _ _ _ hs) (by rw [List.length_drop]; omega)
      have hkk : k ∉ ks → NMap.find sh k = some (Sheet.ofSegment first toks) := fun h => (f k h).trans (NMap.find_insert_self _ _ _)
      have hnk : ∀ i (h : i < ks.length), ks[i] ≠ k := by
        intro i h hik
        have := (g i h).1
        rw [hik, show NMap.find (pt.putSheet k (Sheet.ofSegment first toks)).sheets k = _ from NMap.find_insert_self _ _ _] at this
        cases this
      have hkn : k ∉ ks := fun h => by
        obtain ⟨i, hi, he⟩ := List.mem_iff_getElem.1 h
        exact hnk i hi he
      refine ⟨k :: ks, sh, by rw [a, List.append_assoc]; rfl, by rw [List.length_cons, b, List.length_drop]; omega, hset _ c, fun q hq => (d q hq).trans (hq1 q hq), e, ?_, ?_⟩
      · intro j hj
        rw [f j (fun h => hj (List.mem_cons_of_mem _ h))]
        exact NMap.find_insert_ne _ _ (fun h => hj (h ▸ List.mem_cons_self ..))
      · intro i hi
        cases i with
        | zero => exact ⟨hfree, by rw [Nat.mul_zero, Nat.add_zero, List.drop_zero]; exact hkk hkn⟩
        | succ i =>
          have hi' : i < ks.length := by rw [List.length_cons] at hi; omega
          obtain ⟨g1, g2⟩ := g i hi'
          refine ⟨?_, ?_⟩
          · rw [← g1]; exact (NMap.find_insert_ne _ _ (hnk i hi')).symm
          · rw [List.drop_drop] at g2
            rw [List.getElem_cons_succ, g2, show first + 128 + 128 * i = first + 128 * (i + 1) by omega, show 128 + 128 * i = 128 * (i + 1) by omega]

theorem dramRuns_congr (a b : Part) (h : a.dram = b.dram) : ∀ (fuel off n : Nat), a.dramRuns fuel off n = b.dramRuns fuel off n := by
  intro fuel
  induction fuel with
  | zero => intro off n; rfl
  | succ k ih =>
    intro off n
    have hd : a.dramAddr off = b.dramAddr off := by unfold Part.dramAddr; rw [h]
    unfold Part.dramRuns
    rw [hd]
    split
    · rfl
    · split
      · rfl
      · simp only [ih]

theorem shareRead_congr (s : State) (a b : Part) (h : a.dram = b.dram) (off n : Nat) : s.shareRead a off n = s.shareRead b off n := by
  unfold State.shareRead
  rw [dramRuns_congr a b h, h]

theorem storedForm_congr (s : State) (p : Nat) (a b : Part) (h : a.dram = b.dram) (hi : a.image = b.image) (hl : a.layout = b.layout) (ks : List Nat) :
    s.storedForm p a ks = s.storedForm p b ks := by
  unfold State.storedForm State.storedPage
  simp only [shareRead_congr s a b h, hi, hl]

theorem readRecords_clean (p : Nat) (pt : Part) (im : Image) (hi : pt.image = some im) : ∀ (ns : List Nat) (s : State), s.part p = some pt → s.dram.bad = [] → s.dram.failed = [] →
    s.readRecords p ns = (s, ns) := by
  intro ns
  induction ns with
  | nil => intro s _ _ _; rfl
  | cons n ns ih =>
    intro s hp hb hf
    unfold State.readRecords
    rw [hp]
    simp only [hi]
    have hc : s.shareReadChecked pt (recordOff im pt.layout (s.sheetTotal p) n) 576 = (s, s.shareRead pt (recordOff im pt.layout (s.sheetTotal p) n) 576, false) := by
      cases hr : s.shareRead pt (recordOff im pt.layout (s.sheetTotal p) n) 576 with
      | some bs => exact shareReadChecked_clean s pt _ _ bs hb hf hr
      | none =>
        unfold State.shareRead at hr
        unfold State.shareReadChecked
        cases hd : pt.dramRuns (pt.dram.length + 1) (recordOff im pt.layout (s.sheetTotal p) n) 576 with
        | none => rfl
        | some rs => rw [hd] at hr; cases hr
    rw [hc]
    simp only [Bool.false_eq_true, if_false, ih s hp hb hf]

theorem flushEvents_only (s : State) (k : Nat) : repliesOnly s (s.flushEvents k) := by
  unfold State.flushEvents
  split
  · exact repliesOnly_refl s
  · exact foldl_inv (fun x : State => repliesOnly s x) _ (fun b a h => repliesOnly_trans h (sendSeq_only b _ _).1) _ _ rfl

theorem pushEvent_only (s : State) (k : Nat) (e : Evt) : repliesOnly s (s.pushEvent k e) := by
  unfold State.pushEvent
  (try dsimp only)
  split
  · split
    · split <;> rfl
    · rfl
  · split
    · exact repliesOnly_trans (s1 := s.putEvtStream k { s.evtStream k with held := (s.evtStream k).held ++ [e] }) rfl (flushEvents_only _ k)
    · rfl

theorem partEvent_only (s : State) (p : Nat) (st : Status) (a b c : Nat) : repliesOnly s (s.partEvent p st a b c) := pushEvent_only _ _ _

theorem ownerEvent_only (s : State) (p : Nat) (st : Status) (a b c : Nat) : repliesOnly s (s.ownerEvent p st a b c) := pushEvent_only _ _ _

theorem devEvent_only (s : State) (st : Status) (a b c : Nat) : repliesOnly s (s.devEvent st a b c) := pushEvent_only _ _ _

theorem sharedEvent_only (s : State) (ps : List Nat) (st : Status) (a b c : Nat) : repliesOnly s (s.sharedEvent ps st a b c) :=
  repliesOnly_trans (foldl_inv (fun x : State => repliesOnly s x) _ (fun _ _ h => repliesOnly_trans h (partEvent_only _ _ _ _ _ _)) ps s (repliesOnly_refl s))
    (devEvent_only _ _ _ _ _)

theorem repliesOnly_field {α : Type} (f : State → α) (hf : ∀ s w : State, f (s.withReply w) = f s) {s t : State} (h : repliesOnly s t) : f t = f s := by
  rw [h]; exact hf s t

theorem find_mapParts (f : Nat × Part → Part) (p : Nat) : ∀ m : NMap Part, NMap.find (m.map (fun e => (e.1, f e))) p = (NMap.find m p).map (fun v => f (p, v)) := by
  intro m
  induction m with
  | nil => rfl
  | cons e m ih =>
    obtain ⟨k, v⟩ := e
    rw [List.map_cons, NMap.find_cons, NMap.find_cons]
    by_cases hk : k = p
    · subst hk; simp
    · rw [if_neg hk, if_neg hk]; exact ih

theorem serveData_run (s : State) (c : Ctx) (op : Nat) (pt : Part) (body : State → Part → Res) (h : s.dataServes c op pt) :
    s.serveData c op body = body (s.freeMbox c op) pt := by
  obtain ⟨hs, hp, h1, h2, h3, h4⟩ := h
  unfold State.serveData
  rw [serve_body _ _ _ _ _ _ hs.1 hs.2.1 hs.2.2.1 hs.2.2.2]
  have hp' : (s.freeMbox c op).part c.part = some pt := (freeMbox_field (fun x : State => x.part c.part) (fun _ _ => rfl) s c op).trans hp
  rw [hp']
  have hb : pt.image.any (fun im => !im.isFirst) = false := by
    cases hi : pt.image with
    | none => rfl
    | some im => simp [h4 im hi]
  simp only [h1, h2, h3, hb]
  rfl

theorem reply_part (s : State) (c : Ctx) (op : Nat) (st : Status) (pl : Bytes) (p : Nat) : (s.reply c op st pl).part p = s.part p :=
  reply_field (fun x : State => x.part p) (fun _ _ => rfl) s c op st pl

theorem freeMbox_part (s : State) (c : Ctx) (op p : Nat) : (s.freeMbox c op).part p = s.part p :=
  freeMbox_field (fun x : State => x.part p) (fun _ _ => rfl) s c op

theorem appendPayload (fl n : Nat) (toks : List Nat) (hf : fl < 2) (hn : toks.length < 2 ^ 32) (hb : ∀ t ∈ toks, t < 2 ^ 32) :
    let pl := beBytes 1 fl ++ beBytes 3 0 ++ beBytes 4 toks.length ++ toks.flatMap (beBytes 4)
    beAt pl 0 1 = fl ∧ beAt pl 1 3 = 0 ∧ beAt pl 4 4 = toks.length ∧ tokensAt pl 8 toks.length = toks ∧ pl.length = 8 + 4 * toks.length := by
  intro pl
  refine ⟨?_, ?_, ?_, ?_, ?_⟩
  · have := beAt_first (beBytes 3 0 ++ (beBytes 4 toks.length ++ toks.flatMap (beBytes 4))) 1 fl
    simp only [pl, List.append_assoc]
    rw [this]; omega
  · have := beAt_append (beBytes 1 fl) (beBytes 4 toks.length ++ toks.flatMap (beBytes 4)) 3 0 1 (beBytes_length _ _)
    simp only [pl, List.append_assoc]
    rw [this]; rfl
  · have := beAt_append (beBytes 1 fl ++ beBytes 3 0) (toks.flatMap (beBytes 4)) 4 toks.length 4 (by simp [beBytes_length])
    simp only [pl, List.append_assoc] at this ⊢
    rw [this]; omega
  · unfold tokensAt
    refine List.ext_getElem (by simp) (fun i h1 h2 => ?_)
    rw [List.getElem_map, List.getElem_range]
    have := beAt_flat toks (beBytes 1 fl ++ beBytes 3 0 ++ beBytes 4 toks.length) i h2 hb
    simp only [List.length_append, beBytes_length] at this
    rw [show 8 + 4 * i = 1 + 3 + 4 + 4 * i by omega, this]; simp [h2]
  · simp only [pl, List.length_append, beBytes_length, flatMap_be_length]

theorem pausePayload (ttl tier : Nat) (ht : ttl < 2 ^ 32) (hr : tier < 256) :
    let pl := beBytes 4 ttl ++ (beBytes 1 tier ++ beBytes 3 0)
    beAt pl 0 4 = ttl ∧ beAt pl 4 1 = tier ∧ beAt pl 5 3 = 0 ∧ pl.length = 8 := by
  intro pl
  refine ⟨?_, ?_, ?_, ?_⟩
  · rw [beAt_first]; omega
  · rw [beAt_append (beBytes 4 ttl) (beBytes 3 0) 1 tier 4 (beBytes_length _ _)]; omega
  · have := beAt_last (beBytes 4 ttl ++ beBytes 1 tier) 3 0 5 (by simp [beBytes_length])
    simp only [pl, List.append_assoc] at this ⊢
    rw [this]; rfl
  · simp only [pl, List.length_append, beBytes_length]

/-- `t` with everything of `s` that the end of a request may change. -/
def unended (t s : State) : State :=
  { t with lesar := s.lesar, smb := s.smb, keeper := s.keeper, regs := s.regs, veolo := s.veolo, nand := s.nand, walks := s.walks, parts := s.parts }

/-- The end of a request in partition `p` leads from `s` to `t`: replies, messages of the links, the pause area, the walks and that partition. -/
def endOnly (p : Nat) (s t : State) : Prop := unended t s = s ∧ ∀ q, q ≠ p → t.part q = s.part q

theorem endOnly_refl (p : Nat) (s : State) : endOnly p s s := ⟨rfl, fun _ _ => rfl⟩

theorem endOnly_trans {p : Nat} {a b c : State} (h1 : endOnly p a b) (h2 : endOnly p b c) : endOnly p a c := by
  refine ⟨?_, fun q hq => (h2.2 q hq).trans (h1.2 q hq)⟩
  have e := congrArg (fun x : State => unended x a) h2.1
  exact e.trans h1.1

theorem endOnly_replies {p : Nat} {s t : State} (h : repliesOnly s t) : endOnly p s t := by
  refine ⟨?_, fun q _ => repliesOnly_field (fun x : State => x.part q) (fun _ _ => rfl) h⟩
  have e := congrArg (fun x : State => unended x s) h
  exact e

theorem endOnly_modPart (p : Nat) (s : State) (f : Part → Part) : endOnly p s (s.modPart p f) :=
  ⟨rfl, fun _ hq => State.part_modPart_ne s f hq⟩

theorem endOnly_sendTo (p : Nat) (s : State) (dest : Nat) (cls : LClass) (part : Nat) (bs : Bytes) : endOnly p s (s.sendTo dest cls part bs) := by
  have h := sendTo_frame s dest cls part bs
  refine ⟨?_, fun q _ => part_of_veolo h q⟩
  have e := congrArg (fun x : State => unended x s) h
  exact e

theorem endOnly_foldl {α : Type} (p : Nat) (f : State → α → State) (hf : ∀ s a, endOnly p s (f s a)) (l : List α) (s : State) : endOnly p s (l.foldl f s) :=
  foldl_inv (fun x => endOnly p s x) f (fun b a h => endOnly_trans h (hf b a)) l s (endOnly_refl p s)

theorem endOnly_reply (p : Nat) (s : State) (c : Ctx) (op : Nat) (st : Status) (pl : Bytes) : endOnly p s (s.reply c op st pl) :=
  endOnly_replies (reply_only s c op st pl).1

theorem answerPauses_end (s : State) (p h : Nat) (st : Status) : endOnly p s (s.answerPauses p h st) := by
  unfold State.answerPauses
  split
  · exact endOnly_refl p s
  · refine endOnly_trans (endOnly_trans ?_
      (endOnly_foldl p (fun (s : State) (e : Nat × Ctx × Nat × Nat) => s.reply e.2.1 0x0104 st []) (fun s e => endOnly_reply p s e.2.1 0x0104 st []) _ _)) (endOnly_modPart p _ _)
    split
    · exact endOnly_reply ..
    · exact endOnly_refl p s

theorem answerCancels_end (s : State) (p h : Nat) (st : Status) : endOnly p s (s.answerCancels p h st) := by
  unfold State.answerCancels
  split
  · exact endOnly_refl p s
  · refine endOnly_trans (endOnly_foldl p _ (fun (s : State) e => ?_) _ _) (endOnly_modPart p _ _)
    (try dsimp only)
    split
    · exact endOnly_reply ..
    · exact endOnly_refl p s

theorem releaseRing_end (s : State) (p : Nat) (q : Seq) : endOnly p s (s.releaseRing p q) := by
  unfold State.releaseRing
  extract_lets members u
  refine endOnly_trans (endOnly_modPart p s _) (endOnly_foldl p _ (fun (s : State) (g : Nat × Nat × Nat) => ?_) _ u)
  (try dsimp only)
  split
  · split
    · exact endOnly_refl p s
    · exact endOnly_sendTo ..
  · exact endOnly_refl p s

theorem releaseRing_here (s : State) (p : Nat) (q : Seq) (h : (s.part p).isSome = true) : ((s.releaseRing p q).part p).isSome = true := by
  unfold State.releaseRing
  extract_lets members u
  refine foldl_inv (fun x : State => (x.part p).isSome = true) _ (fun b g hb => ?_) _ u ?_
  · (try dsimp only)
    split
    · split
      · exact hb
      · rw [part_of_veolo (sendTo_frame _ _ _ _ _) p]; exact hb
    · exact hb
  · obtain ⟨v, hv⟩ := Option.isSome_iff_exists.1 h
    rw [show u.part p = some _ from part_of_modPart _ hv]; rfl

theorem dropReq_end (s : State) (p h : Nat) : endOnly p s (s.dropReq p h) ∧
    ∀ pt, s.part p = some pt → ∃ v, (s.dropReq p h).part p = some v ∧ NMap.find v.reqs h = none ∧ ∀ q ∈ v.seqs, q.handle ≠ h := by
  unfold State.dropReq
  cases hp : s.part p with
  | none => exact ⟨endOnly_refl p s, fun _ e => by cases e⟩
  | some pt =>
    (try dsimp only)
    have h1 := endOnly_foldl p (fun (s : State) q => s.releaseRing p q) (fun s q => releaseRing_end s p q) ((pt.seqs.filter (fun q => q.handle == h)).filter (fun q => q.beam == 0)) s
    have hpart := foldl_inv (fun x : State => (x.part p).isSome = true) (fun (s : State) q => s.releaseRing p q) (fun b a hb => releaseRing_here b p a hb)
      ((pt.seqs.filter (fun q => q.handle == h)).filter (fun q => q.beam == 0)) s (by rw [hp]; rfl)
    generalize ((pt.seqs.filter (fun q => q.handle == h)).filter (fun q => q.beam == 0)).foldl (fun (s : State) q => s.releaseRing p q) s = s1 at h1 hpart ⊢
    have key : ∀ (f : Part → Part) (s2 : State) ws, (∀ v, NMap.find (f v).reqs h = none ∧ ∀ q ∈ (f v).seqs, q.handle ≠ h) → endOnly p s1 s2 → (s2.part p).isSome = true →
        ∀ t, t = (s2.modPart p f).setWalks ws → endOnly p s t ∧
          ∀ pt', some pt = some pt' → ∃ v, t.part p = some v ∧ NMap.find v.reqs h = none ∧ ∀ q ∈ v.seqs, q.handle ≠ h := by
      intro f s2 ws hf e2 hp2 t ht
      subst ht
      obtain ⟨v, hv⟩ := Option.isSome_iff_exists.1 hp2
      refine ⟨endOnly_trans (endOnly_trans h1 e2) (endOnly_trans (endOnly_modPart p s2 f) ⟨rfl, fun _ _ => rfl⟩), fun pt' _ => ?_⟩
      exact ⟨_, part_of_modPart f hv, (hf v).1, (hf v).2⟩
    refine key _ _ _ (fun v => ⟨NMap.find_erase_self _ _, fun q hq => ?_⟩) ?_ ?_ _ rfl
    · have := (List.mem_filter.1 hq).2
      simpa using this
    · cases NMap.find pt.reqs h with
      | none => exact endOnly_refl p _
      | some r =>
        (try dsimp only)
        split
        · exact ⟨rfl, fun _ _ => rfl⟩
        · exact endOnly_refl p _
    · cases NMap.find pt.reqs h with
      | none => exact hpart
      | some r =>
        (try dsimp only)
        split
        · exact hpart
        · exact hpart

theorem sendTokens_only (s : State) (p n : Nat) (rs : List TokRec) : repliesOnly s (s.sendTokens p n rs) := by
  unfold State.sendTokens
  split
  · exact repliesOnly_refl s
  · exact foldl_inv (fun x : State => repliesOnly s x) _ (fun b a h => repliesOnly_trans h (sendSeq_only b _ _).1) _ _ (repliesOnly_refl s)

theorem emit_only (s : State) (p : Nat) (out : List (Nat × TokRec)) : repliesOnly s (s.emit p out) := by
  unfold State.emit
  exact foldl_inv (fun x : State => repliesOnly s x) _ (fun b a h => repliesOnly_trans h (sendTokens_only b _ _ _)) _ _ (repliesOnly_refl s)

theorem endReqNow_end (s : State) (p h : Nat) (st : Status) (pt : Part) (hp : s.part p = some pt) : endOnly p s (s.endReqNow p h st) ∧
    ∃ v, (s.endReqNow p h st).part p = some v ∧ NMap.find v.reqs h = none ∧ ∀ q ∈ v.seqs, q.handle ≠ h := by
  unfold State.endReqNow State.endReq
  rw [hp]
  (try dsimp only)
  have h1 := answerPauses_end s p h (if st = .cancelled then .cancelled else .notPermitted)
  have k1 : Ok (keepHere s.now p) (s.answerPauses p h (if st = .cancelled then .cancelled else .notPermitted)) :=
    State.answerPauses_keep _ s p h _ ⟨rfl, by rw [hp]; rfl⟩
  generalize s.answerPauses p h (if st = .cancelled then .cancelled else .notPermitted) = s1 at h1 k1 ⊢
  have h2 := answerCancels_end s1 p h (if st = .cancelled then .ok else .notPermitted)
  have k2 := State.answerCancels_keep _ s1 p h (if st = .cancelled then .ok else .notPermitted) k1
  generalize s1.answerCancels p h (if st = .cancelled then .ok else .notPermitted) = s2 at h2 k2 ⊢
  obtain ⟨p2, hp2⟩ := Option.isSome_iff_exists.mp k2.2
  obtain ⟨h3, h4⟩ := dropReq_end s2 p h
  obtain ⟨v, a, b, c⟩ := h4 p2 hp2
  generalize s2.dropReq p h = s3 at h3 a ⊢
  have h5 : repliesOnly s3 (if st = .cancelled then s3.bump .req p 0x14 1 else if st = .kvLost then
        s3.bump .kv p 0x2C (max 1 (pt.seqs.filter (fun q => q.handle == h)).length) else s3) := by
    split
    · rfl
    · split <;> rfl
  have h6 := repliesOnly_trans h5 (emit_only _ p (pt.endRec h st false))
  refine ⟨endOnly_trans (endOnly_trans (endOnly_trans h1 h2) h3) (endOnly_replies h6), v, ?_, b, c⟩
  exact (repliesOnly_field (fun x : State => x.part p) (fun _ _ => rfl) h6).trans a

theorem endOnly_field {α : Type} {p : Nat} (f : State → α) (hf : ∀ t s : State, f (unended t s) = f t) {s t : State} (h : endOnly p s t) : f t = f s := by
  rw [← hf t s, h.1]

theorem buryReq_spec (s : State) (p h : Nat) (st : Status) (pt : Part) (hp : s.part p = some pt) : (s.buryReq p h st).tomb p h = some st ∧
    ∃ v, (s.buryReq p h st).part p = some v ∧ NMap.find v.reqs h = none := by
  obtain ⟨a, v, b, c, _⟩ := endReqNow_end s p h st pt hp
  have h1 : repliesOnly ((s.endReqNow p h st).addTomb p h st) (s.buryReq p h st) := by
    unfold State.buryReq
    (try dsimp only)
    split
    · rfl
    · split
      · exact repliesOnly_trans (s1 := ((s.endReqNow p h st).addTomb p h st).bump .req p 0x20 1) rfl (partEvent_only _ _ _ _ _ _)
      · split <;> rfl
  refine ⟨?_, v, ?_, c⟩
  · rw [repliesOnly_field (fun x : State => x.tomb p h) (fun _ _ => rfl) h1]
    generalize s.endReqNow p h st = u
    unfold State.addTomb State.tomb
    (try dsimp only)
    show Option.map _ (List.find? _ (if (u.tombs.filter (fun e : Tomb => !(e.part == p && e.handle == h)) ++ [({ part := p, handle := h, status := st } : Tomb)]).length > 16384 then
      (u.tombs.filter (fun e : Tomb => !(e.part == p && e.handle == h)) ++ [({ part := p, handle := h, status := st } : Tomb)]).drop 1 else
      u.tombs.filter (fun e : Tomb => !(e.part == p && e.handle == h)) ++ [({ part := p, handle := h, status := st } : Tomb)])) = _
    have hno : ∀ l : List Tomb, (∀ e ∈ l, e ∈ u.tombs.filter (fun e => !(e.part == p && e.handle == h))) →
        (l ++ [({ part := p, handle := h, status := st } : Tomb)]).find? (fun e : Tomb => e.part == p && e.handle == h) = some { part := p, handle := h, status := st } := by
      intro l hl
      rw [List.find?_append, List.find?_eq_none.2]
      · simp
      · intro e he
        have := (List.mem_filter.1 (hl e he)).2
        cases hb : (e.part == p && e.handle == h) with
        | false => exact Bool.false_ne_true
        | true => rw [hb] at this; cases this
    generalize u.tombs.filter (fun e => !(e.part == p && e.handle == h)) = l at hno ⊢
    split
    · rename_i hlen
      have : (l ++ [({ part := p, handle := h, status := st } : Tomb)]).drop 1 = l.drop 1 ++ [{ part := p, handle := h, status := st }] := by
        rw [List.drop_append_of_le_length]
        simp only [List.length_append, List.length_singleton] at hlen; omega
      rw [this, hno _ (fun e he => List.mem_of_mem_drop he)]; rfl
    · rw [hno l (fun e he => he)]; rfl
  · exact (repliesOnly_field (fun x : State => x.part p) (fun _ _ => rfl) h1).trans b

theorem restoreForm_frame (s : State) (p : Nat) (pt : Part) (n : Nat) (bs : Bytes) : shareOnly s (s.restoreForm p pt n bs) := by
  unfold State.restoreForm
  split
  · exact shareOnly_refl s
  · refine foldl_inv (fun x : State × Bytes => shareOnly s x.1) _ (fun b l hb => ?_) _ (s, bs) (shareOnly_refl s)
    unfold State.restorePage
    refine foldl_inv (fun x : State × Bytes => shareOnly s x.1) _ (fun b2 l2 hb2 => ?_) _ _ ?_
    · exact shareOnly_trans hb2 (shareOnly_store _ _ _ _)
    · exact shareOnly_trans hb (shareOnly_store _ _ _ _)

theorem clearTomb_tomb (s : State) (p h : Nat) : (s.clearTomb p h).tomb p h = none := by
  have hcl : (s.clearTomb p h).tomb p h = ((s.tombs.filter (fun e => !(e.part == p && e.handle == h))).find? (fun e => e.part == p && e.handle == h)).map (·.status) := rfl
  rw [hcl, List.find?_eq_none.2]
  · rfl
  · intro e he
    have := (List.mem_filter.1 he).2
    cases hb : (e.part == p && e.handle == h) with
    | false => exact Bool.false_ne_true
    | true => rw [hb] at this; cases this

theorem takePart_place (v : Strm) (im : Image) (pl : Bytes) (a : Parts) (h : v.takePart im pl = .ok a) :
    ∃ b : Parts, ((v.arriving = none ∧ beAt pl 2 1 = 0 ∧ beAt pl 4 8 = v.nextChunk ∧ v.queue.length < 8 ∧ b = partsOf pl) ∨
      (v.arriving = some b ∧ b.next = beAt pl 2 1)) ∧ beAt pl 48 4 = b.data.length ∧ (b.data ++ pl.drop 52).length ≤ im.chunkBytes b.chunk.positions ∧
      (beAt pl 2 1 + 1 = b.parts → (b.data ++ pl.drop 52).length = im.chunkBytes b.chunk.positions) ∧
      a = { b with next := beAt pl 2 1 + 1, data := b.data ++ pl.drop 52 } := by
  unfold Strm.takePart at h
  by_cases hm : im.chunkMalformed pl = true
  · rw [if_pos hm] at h; exact absurd h (by simp)
  · rw [if_neg hm] at h
    have fin : ∀ b : Parts, (if decide (beAt pl 48 4 ≠ b.data.length) || decide (im.chunkBytes b.chunk.positions < (b.data ++ pl.drop 52).length) ||
        (beAt pl 2 1 + 1 == b.parts && (b.data ++ pl.drop 52).length != im.chunkBytes b.chunk.positions) then (Except.error Status.badFrame : Except Status Parts)
        else .ok { b with next := beAt pl 2 1 + 1, data := b.data ++ pl.drop 52 }) = .ok a → beAt pl 48 4 = b.data.length ∧
          (b.data ++ pl.drop 52).length ≤ im.chunkBytes b.chunk.positions ∧
          (beAt pl 2 1 + 1 = b.parts → (b.data ++ pl.drop 52).length = im.chunkBytes b.chunk.positions) ∧
          a = { b with next := beAt pl 2 1 + 1, data := b.data ++ pl.drop 52 } := by
      intro b hb
      split at hb
      · exact absurd hb (by simp)
      · rename_i hc
        simp only [Bool.not_eq_true, Bool.or_eq_false_iff, decide_eq_false_iff_not, Bool.and_eq_false_iff, bne_eq_false_iff_eq, beq_eq_false_iff_ne, ne_eq, Decidable.not_not, Nat.not_lt] at hc
        refine ⟨hc.1.1, hc.1.2, fun e => ?_, (Except.ok.inj hb).symm⟩
        rcases hc.2 with h | h
        · exact absurd e h
        · exact h
    cases ha : v.arriving with
    | none =>
      cases hk : beAt pl 2 1 with
      | zero =>
        simp only [ha, hk] at h
        by_cases h1 : beAt pl 4 8 ≠ v.nextChunk
        · rw [if_pos h1] at h; exact absurd h (by simp)
        · rw [if_neg h1] at h
          by_cases h2 : 8 ≤ v.queue.length
          · rw [if_pos h2] at h; exact absurd h (by simp)
          · rw [if_neg h2] at h
            have := fin (partsOf pl) (by rw [hk]; simpa using h)
            rw [hk] at this
            exact ⟨_, Or.inl ⟨rfl, rfl, Decidable.not_not.1 h1, Nat.not_le.1 h2, rfl⟩, this⟩
      | succ k =>
        simp only [ha, hk] at h
        exact absurd h (by simp)
    | some b =>
      have hk : ∀ k, beAt pl 2 1 = k → (decide (b.next = k) && b.fixed == chunkFixed pl) = true → (∃ b' : Parts, b = b' ∧ b'.next = k) := fun k _ h => by
        simp only [Bool.and_eq_true, decide_eq_true_eq] at h
        exact ⟨b, rfl, h.1⟩
      simp only [ha] at h
      by_cases h1 : (decide (b.next = beAt pl 2 1) && b.fixed == chunkFixed pl) = true
      · rw [if_pos h1] at h
        have := fin b (by simpa using h)
        simp only [Bool.and_eq_true, decide_eq_true_eq] at h1
        exact ⟨b, Or.inr ⟨rfl, h1.1⟩, this⟩
      · rw [if_neg h1] at h; exact absurd h (by simp)

theorem filter_key {α : Type} (k : Nat) : ∀ (m : NMap α), (m.map Prod.fst).Pairwise (· < ·) → (P : Nat → Bool) → (∀ j, P j = decide (j = k)) →
    m.filter (fun e => P e.1) = ((NMap.find m k).map (fun v => (k, v))).toList := by
  intro m
  induction m with
  | nil => intro _ _ _; rfl
  | cons e m ih =>
    intro hs P hP
    obtain ⟨j, v⟩ := e
    simp only [List.map_cons, List.pairwise_cons, List.mem_map, forall_exists_index, and_imp, forall_apply_eq_imp_iff₂] at hs
    rw [NMap.find_cons, List.filter_cons, hP j]
    by_cases h : j = k
    · subst h
      have : m.filter (fun e => P e.1) = [] := List.filter_eq_nil_iff.2 (fun e he => by
        rw [hP]
        have := hs.1 e he
        simp; omega)
      rw [this, if_pos rfl]; simp
    · rw [if_neg h, decide_eq_false h]
      simp only [Bool.false_eq_true, if_false]
      exact ih hs.2 P hP

theorem burst_one (s : State) (b : Nat) (hb : NMap.sorted s.dram.bad = true) :
    s.dram.bad.filter (fun e => decide (64 * b / 64 ≤ e.1) && decide (e.1 < (64 * b + 64 + 63) / 64)) =
      ((NMap.find s.dram.bad b).map (fun v => (b, v))).toList := by
  refine filter_key b _ ((NMap.sorted_iff _).1 hb) (fun j => decide (64 * b / 64 ≤ j) && decide (j < (64 * b + 64 + 63) / 64)) (fun j => ?_)
  by_cases h : j = b
  · subst h
    have h1 : 64 * j / 64 ≤ j := by omega
    have h2 : j < (64 * j + 64 + 63) / 64 := by omega
    simp [h1, h2]
  · have : ¬ (64 * b / 64 ≤ j ∧ j < (64 * b + 64 + 63) / 64) := by omega
    rw [decide_eq_false h, Bool.and_eq_false_iff, decide_eq_false_iff_not, decide_eq_false_iff_not]
    omega

theorem recordBurst_regs (s : State) (ue : Bool) (a : Nat) : (s.recordBurst ue a).setRegs s.regs = s := by
  unfold State.recordBurst
  (try dsimp only)
  split <;> rfl

theorem recordBurst_ne (s : State) (ue : Bool) (a off : Nat) (h : off ≠ 0x18) (h' : off ≠ 0x1C) : (s.recordBurst ue a).reg .dr 0 off = s.reg .dr 0 off := by
  unfold State.recordBurst
  (try dsimp only)
  split
  · rfl
  · rw [reg_putReg_ne _ _ _ _ h', reg_putReg_ne _ _ _ _ h]

theorem recordBurst_put (s : State) (ue : Bool) (a : Nat) (h : (s.reg .dr 0 0x18).bit 31 = false ∨ (s.reg .dr 0 0x18).bit 30 = false ∨ ue = true) :
    (s.recordBurst ue a).reg .dr 0 0x18 = BitVec.ofNat 32 (2 ^ 31 + (if ue then 2 ^ 30 else 0) + dramChannel a * 2 ^ 10 + dramColumn a) ∧
    (s.recordBurst ue a).reg .dr 0 0x1C = BitVec.ofNat 32 (dramRow a) := by
  have hc : ((s.reg .dr 0 0x18).bit 31 && (s.reg .dr 0 0x18).bit 30 && !ue) = false := by
    rcases h with h | h | h <;> rw [h] <;> simp
  unfold State.recordBurst
  rw [if_neg (by rw [hc]; decide)]
  refine ⟨?_, rawReg_putReg_self _ _ _ _ _⟩
  rw [reg_putReg_ne _ _ _ _ (by omega)]
  exact rawReg_putReg_self _ _ _ _ _

theorem freeBlocks_spec (s : State) : ((s.freeBlocks).setNand s.nand).setFree s.free = s ∧
    s.freeBlocks.nand = { s.nand with freeTenths := s.freeBlocks.nand.freeTenths, urgent := s.freeBlocks.nand.urgent } ∧ s.freeBlocks.nand.freeTenths ≤ 1000 ∧
    (s.freeBlocks.nand.freeTenths < 5 → s.freeBlocks.nand.urgent = true) ∧ (20 ≤ s.freeBlocks.nand.freeTenths → s.freeBlocks.nand.urgent = false) := by
  refine ⟨rfl, rfl, ?_, fun h => ?_, fun h => ?_⟩
  · show (Config.freeWord s.free).toNat % 1001 ≤ 1000
    omega
  · show (decide ((Config.freeWord s.free).toNat % 1001 < 5) || _) = true
    have h' : (Config.freeWord s.free).toNat % 1001 < 5 := h
    rw [decide_eq_true h']; rfl
  · have h' : 20 ≤ (Config.freeWord s.free).toNat % 1001 := h
    show (decide ((Config.freeWord s.free).toNat % 1001 < 5) || (_ && decide ((Config.freeWord s.free).toNat % 1001 < 20))) = false
    rw [decide_eq_false (by omega), decide_eq_false (by omega), Bool.and_false]; rfl

/-- What accesses of DRAM rows change: the counts of activations with their ports, the open rows, the targeted refreshes, the throttlings and the
registers. -/
def touchOnly (s t : State) : Prop :=
  (t.setDram s.dram).setRegs s.regs = s ∧
    { t.dram with acts := s.dram.acts, openRows := s.dram.openRows, throttled := s.dram.throttled, lastPort := s.dram.lastPort, targeted := s.dram.targeted } = s.dram

theorem touchOnly_trans {a b c : State} (h1 : touchOnly a b) (h2 : touchOnly b c) : touchOnly a c := by
  refine ⟨?_, ?_⟩
  · have e := congrArg (fun x : State => (x.setDram a.dram).setRegs a.regs) h2.1
    exact e.trans h1.1
  · have e := congrArg (fun x : Dram => { x with acts := a.dram.acts, openRows := a.dram.openRows, throttled := a.dram.throttled, lastPort := a.dram.lastPort, targeted := a.dram.targeted }) h2.2
    exact e.trans h1.2

theorem activate_only (s : State) (port ch row : Nat) : touchOnly s (s.activate port ch row) := by
  unfold State.activate
  (try dsimp only)
  split
  · exact ⟨rfl, rfl⟩
  · split <;> exact ⟨rfl, rfl⟩

theorem touch_only (s : State) (port a n : Nat) : touchOnly s (s.touch port a n) := by
  unfold State.touch
  split
  · exact ⟨rfl, rfl⟩
  · refine foldl_inv (fun x : State => touchOnly s x) _ (fun b i h => ?_) _ s ⟨rfl, rfl⟩
    exact touchOnly_trans h (touchOnly_trans (activate_only _ _ _ _) (activate_only _ _ _ _))

theorem touchShare_only (s : State) (port : Nat) (pt : Part) (off n : Nat) : touchOnly s (s.touchShare port pt off n) := by
  unfold State.touchShare
  exact foldl_inv (fun x : State => touchOnly s x) _ (fun b r h => touchOnly_trans h (touch_only _ _ _ _)) _ s ⟨rfl, rfl⟩

theorem touchOnly_share {s t : State} (h : touchOnly s t) : shareOnly s t := congrArg (fun x : State => x.setMem s.mem) h.1

theorem touchSheets_only (s : State) (p : Nat) (pt : Part) (es : List PageEntry) : shareOnly s (s.touchSheets p pt es) := by
  unfold State.touchSheets
  split
  · exact shareOnly_refl s
  · refine foldl_inv (fun x : State => shareOnly s x) _ (fun b e h => ?_) _ s (shareOnly_refl s)
    exact foldl_inv (fun x : State => shareOnly s x) _ (fun b r h => shareOnly_trans h (touchOnly_share (touchShare_only _ _ _ _ _))) _ b h

theorem fillRestored_frame (s : State) (p : Nat) (r : Req) : shareOnly s (s.fillRestored p r) := by
  unfold State.fillRestored
  refine foldl_inv (fun x : State => shareOnly s x) _ (fun b m hb => ?_) _ s (shareOnly_refl s)
  (try dsimp only)
  split
  · exact shareOnly_trans hb (shareOnly_trans (restoreForm_frame ..) (touchSheets_only ..))
  · exact hb

theorem touchOnly_field {α : Type} (f : State → α) (hf : ∀ (s : State) d r, f ((s.setDram d).setRegs r) = f s) {s t : State} (h : touchOnly s t) : f t = f s := by
  rw [← hf t s.dram s.regs, h.1]

theorem pump_fn {α : Type} (f : Link → α) (hf : ∀ (l : Link) q rp tx rs cr md sl, f { l with queue := q, replay := rp, txSeq := tx, resends := rs, credits := cr, mid := md, slots := sl } = f l)
    (now : Nat) : ∀ (n : Nat) (l : Link), f (l.pump now n) = f l
  | 0, _ => rfl
  | n + 1, l => by
    unfold Link.pump
    split
    · rfl
    · split
      · rfl
      · rw [pump_fn f hf now n]
        exact hf l _ _ _ _ _ _ _

theorem pumpPair_fn {α : Type} (f : Link → α) (hf : ∀ (l : Link) q rp tx rs cr md sl, f { l with queue := q, replay := rp, txSeq := tx, resends := rs, credits := cr, mid := md, slots := sl } = f l)
    (s : State) (dir j : Nat) : f ((s.pumpPair dir).link j) = f (s.link j) := by
  have hm : ∀ (x y : Link),
      f (if x.st != .up && y.st == .up && x.replay.isEmpty then (({ x with queue := [], mid := [] } : Link), ({ y with queue := y.queue ++ x.uncut } : Link)) else (x, y)).1 = f x ∧
      f (if x.st != .up && y.st == .up && x.replay.isEmpty then (({ x with queue := [], mid := [] } : Link), ({ y with queue := y.queue ++ x.uncut } : Link)) else (x, y)).2 = f y := by
    intro x y
    split
    · exact ⟨hf x _ _ _ _ _ _ _, hf y _ _ _ _ _ _ _⟩
    · exact ⟨rfl, rfl⟩
  unfold State.pumpPair
  simp only
  have h1 := hm (s.link (2 * dir)) (s.link (2 * dir + 1))
  generalize (if (s.link (2 * dir)).st != .up && (s.link (2 * dir + 1)).st == .up && (s.link (2 * dir)).replay.isEmpty then
    (({ s.link (2 * dir) with queue := [], mid := [] } : Link), ({ s.link (2 * dir + 1) with queue := (s.link (2 * dir + 1)).queue ++ (s.link (2 * dir)).uncut } : Link))
    else (s.link (2 * dir), s.link (2 * dir + 1))) = ab at h1 ⊢
  have h2 := hm ab.2 ab.1
  generalize (if ab.2.st != .up && ab.1.st == .up && ab.2.replay.isEmpty then
    (({ ab.2 with queue := [], mid := [] } : Link), ({ ab.1 with queue := ab.1.queue ++ ab.2.uncut } : Link)) else (ab.2, ab.1)) = ba at h2 ⊢
  by_cases hj : j = 2 * dir + 1
  · subst hj
    rw [link_putLink_self, pump_fn f hf]
    exact h2.1.trans h1.2
  · rw [link_putLink_ne _ _ hj]
    by_cases hj2 : j = 2 * dir
    · subst hj2
      rw [link_putLink_self, pump_fn f hf]
      exact h2.2.trans h1.1
    · rw [link_putLink_ne _ _ hj2]

theorem pump_replay (now : Nat) : ∀ (n : Nat) (l : Link), l.replay <+: (l.pump now n).replay
  | 0, _ => List.prefix_rfl
  | n + 1, l => by
    unfold Link.pump
    split
    · exact List.prefix_rfl
    · split
      · exact List.prefix_rfl
      · (try dsimp only)
        refine List.IsPrefix.trans ?_ (pump_replay now n _)
        exact List.prefix_append _ _

theorem pumpPair_replay (s : State) (dir j : Nat) : (s.link j).replay <+: ((s.pumpPair dir).link j).replay := by
  have hm : ∀ (x y : Link),
      (if x.st != .up && y.st == .up && x.replay.isEmpty then (({ x with queue := [], mid := [] } : Link), ({ y with queue := y.queue ++ x.uncut } : Link)) else (x, y)).1.replay = x.replay ∧
      (if x.st != .up && y.st == .up && x.replay.isEmpty then (({ x with queue := [], mid := [] } : Link), ({ y with queue := y.queue ++ x.uncut } : Link)) else (x, y)).2.replay = y.replay := by
    intro x y
    split <;> exact ⟨rfl, rfl⟩
  unfold State.pumpPair
  simp only
  have h1 := hm (s.link (2 * dir)) (s.link (2 * dir + 1))
  generalize (if (s.link (2 * dir)).st != .up && (s.link (2 * dir + 1)).st == .up && (s.link (2 * dir)).replay.isEmpty then
    (({ s.link (2 * dir) with queue := [], mid := [] } : Link), ({ s.link (2 * dir + 1) with queue := (s.link (2 * dir + 1)).queue ++ (s.link (2 * dir)).uncut } : Link))
    else (s.link (2 * dir), s.link (2 * dir + 1))) = ab at h1 ⊢
  have h2 := hm ab.2 ab.1
  generalize (if ab.2.st != .up && ab.1.st == .up && ab.2.replay.isEmpty then
    (({ ab.2 with queue := [], mid := [] } : Link), ({ ab.1 with queue := ab.1.queue ++ ab.2.uncut } : Link)) else (ab.2, ab.1)) = ba at h2 ⊢
  by_cases hj : j = 2 * dir + 1
  · subst hj
    rw [link_putLink_self, ← h1.2, ← h2.1]
    exact pump_replay _ _ _
  · rw [link_putLink_ne _ _ hj]
    by_cases hj2 : j = 2 * dir
    · subst hj2
      rw [link_putLink_self, ← h1.1, ← h2.2]
      exact pump_replay _ _ _
    · rw [link_putLink_ne _ _ hj2]

theorem keepsLink_get {a b : Link} (h : keepsLink a b) (hn : a.st ≠ .up) (hm : a.st ≠ .miswired) : b.st = a.st ∧ b.replay = a.replay ∧ b.txSeq = a.txSeq ∧
    b.rxSeq = a.rxSeq ∧ b.peer = a.peer ∧ b.peerValid = a.peerValid ∧ b.peerLink = a.peerLink ∧ b.credits = a.credits := by
  obtain ⟨h1, h2⟩ := h
  have e := h2 hn hm
  refine ⟨h1, ?_, ?_, ?_, ?_, ?_, ?_, ?_⟩ <;> rw [← e]

/-- A link changed and its neighbour judged anew: the link is as changed, the others keep their states. -/
theorem refresh_spec (s u : State) (i : Nat) (l : Link) (hu : u.link i = l) (hj : ∀ j, j ≠ i → u.link j = s.link j) (hf : (u.setVeolo s.veolo).setRegs s.regs = s) :
    keepsLink l ((u.refreshNbr (i / 2)).link i) ∧ (∀ j, j ≠ i → keepsLink (s.link j) ((u.refreshNbr (i / 2)).link j)) ∧
      ((u.refreshNbr (i / 2)).setVeolo s.veolo).setRegs s.regs = s ∧ (∀ b k off, (u.refreshNbr (i / 2)).reg b k off = u.reg b k off) := by
  have h := refreshNbr_link u (i / 2)
  have hfr := refreshNbr_frame u (i / 2)
  generalize u.refreshNbr (i / 2) = w at h hfr ⊢
  refine ⟨?_, fun j hne => ?_, ?_, fun b k off => ?_⟩
  · have := h i; rw [hu] at this; exact this
  · have := h j; rw [hj j hne] at this; exact this
  · have e := congrArg (fun x : State => (x.setVeolo s.veolo).setRegs s.regs) hfr
    exact e.trans hf
  · exact (congrArg (fun x : State => x.reg b k off) hfr : (State.setVeolo _ _).reg b k off = _)

/-- A link that begins a training: its state, the others', the count, and that nothing else changes. -/
theorem linkTrains_spec (s : State) (i : Nat) (st : LState) :
    keepsLink { s.link i with st := st } ((s.linkTrains i st).link i) ∧ (∀ j, j ≠ i → keepsLink (s.link j) ((s.linkTrains i st).link j)) ∧
      ((s.linkTrains i st).setVeolo s.veolo).setRegs s.regs = s ∧ ((s.linkTrains i st).reg .vl i 0x14).toNat = min 0xFFFFFFFF ((s.reg .vl i 0x14).toNat + 1) := by
  obtain ⟨a, b, c, d⟩ := refresh_spec s ((s.modLink i (fun l => { l with st := st })).bump .vl i 0x14 1) i { s.link i with st := st } (link_putLink_self s i _)
    (fun j hj => link_putLink_ne s _ hj) rfl
  refine ⟨a, b, c, ?_⟩
  have e := State.reg_bump_self (s.modLink i (fun l => { l with st := st })) .vl i 0x14 1
  have d' := d .vl i 0x14
  exact (congrArg BitVec.toNat d').trans e

theorem linkIn_of {s : State} {i : Nat} {st : LState} {sts : List LState} (hi : i < 8) (h : (s.link i).st = st) (hm : sts.contains st = true) : s.linkIn i sts = true := by
  unfold State.linkIn
  rw [decide_eq_true hi, h, hm]; rfl

theorem queueFlits_fn {α : Type} (f : Link → α) (hf : ∀ (l : Link) q rp tx rs cr md sl, f { l with queue := q, replay := rp, txSeq := tx, resends := rs, credits := cr, mid := md, slots := sl } = f l)
    (s : State) (dir : Nat) (fs : List Flit) (pair j : Nat) : f ((s.queueFlits dir fs pair).link j) = f (s.link j) := by
  unfold State.queueFlits
  extract_lets n up i l
  split
  · rfl
  · rw [pumpPair_fn f hf]
    by_cases hj : j = i
    · subst hj; rw [link_putLink_self]; exact hf l _ _ _ _ _ _ _
    · rw [link_putLink_ne _ _ hj]

theorem sendMessage_fn {α : Type} (f : Link → α) (hf : ∀ (l : Link) q rp tx rs cr md sl, f { l with queue := q, replay := rp, txSeq := tx, resends := rs, credits := cr, mid := md, slots := sl } = f l)
    (s : State) (dir : Nat) (cls : LClass) (part : Nat) (bs : Bytes) (j : Nat) : f ((s.sendMessage dir cls part bs).link j) = f (s.link j) := by
  unfold State.sendMessage State.sendOn
  extract_lets pair fs
  exact queueFlits_fn f hf (s.setVeolo { s.veolo with pairTx := s.veolo.pairTx.set dir (pair + 1) }) dir fs pair j

theorem passReach_fn {α : Type} (f : Link → α) (hf : ∀ (l : Link) q rp tx rs cr md sl, f { l with queue := q, replay := rp, txSeq := tx, resends := rs, credits := cr, mid := md, slots := sl } = f l)
    (s : State) (dir dev : Nat) (back : Bool) (j : Nat) : f ((s.passReach dir dev back).link j) = f (s.link j) := by
  unfold State.passReach
  extract_lets there
  split
  · exact sendMessage_fn f hf _ _ _ _ _ _
  · rfl

theorem refreshNbr_fn {α : Type} (f : Link → α) (hf : ∀ (l : Link) q rp tx rs cr md sl, f { l with queue := q, replay := rp, txSeq := tx, resends := rs, credits := cr, mid := md, slots := sl } = f l)
    (s : State) (dir j : Nat) : f ((s.refreshNbr dir).link j) = f (s.link j) := by
  have h := pumpPair_fn f hf (s.setVeolo { s.veolo with nbrs := s.veolo.nbrs.set dir (s.judgeNbr dir) }) dir j
  unfold State.refreshNbr
  extract_lets n s1
  split
  · exact (passReach_fn f hf _ _ _ _ _).trans h
  · exact h

theorem queueFlits_replay (s : State) (dir : Nat) (fs : List Flit) (pair j : Nat) : (s.link j).replay <+: ((s.queueFlits dir fs pair).link j).replay := by
  unfold State.queueFlits
  extract_lets n up i l
  split
  · exact List.prefix_rfl
  · refine List.IsPrefix.trans ?_ (pumpPair_replay _ _ _)
    by_cases hj : j = i
    · subst hj; rw [link_putLink_self]
    · rw [link_putLink_ne _ _ hj]

theorem passReach_replay (s : State) (dir dev : Nat) (back : Bool) (j : Nat) : (s.link j).replay <+: ((s.passReach dir dev back).link j).replay := by
  unfold State.passReach
  extract_lets there
  split
  · unfold State.sendMessage State.sendOn
    extract_lets pair fs
    exact queueFlits_replay (s.setVeolo { s.veolo with pairTx := s.veolo.pairTx.set (opposite dir) (pair + 1) }) (opposite dir) fs pair j
  · exact List.prefix_rfl

theorem refreshNbr_replay (s : State) (dir j : Nat) : (s.link j).replay <+: ((s.refreshNbr dir).link j).replay := by
  have h := pumpPair_replay (s.setVeolo { s.veolo with nbrs := s.veolo.nbrs.set dir (s.judgeNbr dir) }) dir j
  unfold State.refreshNbr
  extract_lets n s1
  split
  · exact List.IsPrefix.trans h (passReach_replay _ _ _ _ _)
  · exact h

theorem pumpPair_veolo (s : State) (dir : Nat) : (s.pumpPair dir).veolo = { s.veolo with links := (s.pumpPair dir).veolo.links } := by
  unfold State.pumpPair
  extract_lets a b move ab ba
  rfl

theorem queueFlits_nbrs (s : State) (dir : Nat) (fs : List Flit) (pair : Nat) : (s.queueFlits dir fs pair).veolo.nbrs = s.veolo.nbrs := by
  unfold State.queueFlits
  extract_lets n up i l
  split
  · rfl
  · rw [pumpPair_veolo]; rfl

theorem passReach_nbrs (s : State) (dir dev : Nat) (back : Bool) : (s.passReach dir dev back).veolo.nbrs = s.veolo.nbrs := by
  unfold State.passReach
  extract_lets there
  split
  · unfold State.sendMessage State.sendOn
    extract_lets pair fs
    exact queueFlits_nbrs (s.setVeolo { s.veolo with pairTx := s.veolo.pairTx.set (opposite dir) (pair + 1) }) (opposite dir) fs pair
  · rfl

theorem refreshNbr_nbrs (s : State) (dir : Nat) : (s.refreshNbr dir).veolo.nbrs = s.veolo.nbrs.set dir (s.judgeNbr dir) := by
  unfold State.refreshNbr
  extract_lets n s1
  split
  · exact passReach_nbrs _ _ _ _
  · rfl

theorem electMaster_nbrs (s : State) : s.electMaster.veolo.nbrs = s.veolo.nbrs := by
  unfold State.electMaster; simp only; split <;> rfl

theorem keepsGos_refl (s : State) : keepsGos s s := ⟨rfl, rfl, rfl⟩

theorem flushEvents_gos (s : State) (k : Nat) : keepsGos s (s.flushEvents k) := by
  unfold State.flushEvents
  split
  · exact keepsGos_refl s
  · exact foldl_inv (fun x : State => keepsGos s x) _ (fun b a h => keepsGos_trans h (sendSeq_only b _ _).2) _ _ ⟨rfl, rfl, rfl⟩

theorem pushEvent_gos (s : State) (k : Nat) (e : Evt) : keepsGos s (s.pushEvent k e) := by
  unfold State.pushEvent
  (try dsimp only)
  split
  · split
    · split <;> exact ⟨rfl, rfl, rfl⟩
    · exact ⟨rfl, rfl, rfl⟩
  · split
    · exact keepsGos_trans (s1 := s.putEvtStream k { s.evtStream k with held := (s.evtStream k).held ++ [e] }) ⟨rfl, rfl, rfl⟩ (flushEvents_gos _ k)
    · exact ⟨rfl, rfl, rfl⟩

theorem sharedEvent_gos (s : State) (ps : List Nat) (st : Status) (a b c : Nat) : keepsGos s (s.sharedEvent ps st a b c) :=
  keepsGos_trans (foldl_inv (fun x : State => keepsGos s x) _ (fun _ _ h => keepsGos_trans h (pushEvent_gos _ _ _)) ps s (keepsGos_refl s))
    (pushEvent_gos _ _ _)

theorem linkIn_two {s : State} {i : Nat} (hi : i < 8) (h : (s.link i).st = .up ∨ (s.link i).st = .miswired) : s.linkIn i [.up, .miswired] = true := by
  unfold State.linkIn
  rw [decide_eq_true hi]
  rcases h with h | h <;> rw [h] <;> rfl

theorem acked_drop (l : Link) (n k : Nat) (h : l.replay.findIdx? (fun g => g.seq == n) = some k) : (l.acked n).replay = l.replay.drop (k + 1) := by
  unfold Link.acked; rw [h]

theorem acked_rxSeq (l : Link) (n : Nat) : (l.acked n).rxSeq = l.rxSeq := by
  unfold Link.acked; split <;> rfl

theorem deliver_one (s : State) (dir k : Nat) (c : LClass) (p : Nat) (bs : Bytes) (h : s.veolo.early = [(dir, k, c, p, bs)]) (hk : s.veolo.pairRx.getD dir 0 = k) :
    s.deliver dir 1 = s.setVeolo { s.veolo with early := [], pairRx := s.veolo.pairRx.set dir (k + 1), inbox := s.veolo.inbox ++ [(dir, c, p, bs)] } := by
  have hf : s.veolo.early.find? (fun e => e.1 == dir && e.2.1 == k) = some (dir, k, c, p, bs) := by rw [h]; simp
  have he : s.veolo.early.erase (dir, k, c, p, bs) = [] := by rw [h]; simp
  unfold State.deliver
  simp only [hk]
  rw [hf]
  simp only [he, State.deliver]

theorem takeFlit_last (u : State) (i : Nat) (f : Flit) (hla : f.last = true) (hb : (u.link i).rxBuf = []) (hdest : f.dest = u.veolo.num)
    (hc1 : (f.cls == .management) = false) (hc2 : (f.cls == .lent) = false) (himg : (u.part f.part).any (·.image.isSome) = true) :
    u.takeFlit i f = ((u.putLink i { u.link i with rxBuf := [] }).setVeolo
      { (u.putLink i { u.link i with rxBuf := [] }).veolo with early := u.veolo.early ++ [(i / 2, f.pair, f.cls, f.part, f.payload.take f.len)] }).deliver (i / 2) (u.veolo.early.length + 1) := by
  have hbs : [f].flatMap (fun g => g.payload.take g.len) = f.payload.take f.len := by simp
  have hfs : messageOf [f] f = [f] := by unfold messageOf; simp
  have hnm : (u.veolo.numValid && f.dest != u.veolo.num) = false := by rw [hdest]; simp
  have himg2 : ∀ l, ((u.putLink i l).part f.part).any (·.image.isSome) = true := fun l => himg
  have hfil : [f].filter (fun g => !([f].contains g)) = [] := by simp
  unfold State.takeFlit
  simp only [hla, hb, List.nil_append, hfs, hbs, hnm, hc1, hc2, himg, hfil, List.head?_cons, Option.map_some, Option.getD_some, Bool.not_true,
    Bool.false_and, Bool.false_eq_true, if_false, if_true]
  try rfl

theorem pump_zero (now : Nat) (l : Link) : l.pump now 0 = l := rfl

theorem pumpPair_empty {α : Type} (f : Link → α) (hf : ∀ (l : Link) q md, f { l with queue := q, mid := md } = f l) (s : State) (dir j : Nat)
    (h0 : (s.link (2 * dir)).queue = []) (h1 : (s.link (2 * dir + 1)).queue = []) : f ((s.pumpPair dir).link j) = f (s.link j) := by
  have hm : ∀ (x y : Link), x.queue = [] → y.queue = [] →
      (f (if x.st != .up && y.st == .up && x.replay.isEmpty then (({ x with queue := [], mid := [] } : Link), ({ y with queue := y.queue ++ x.uncut } : Link)) else (x, y)).1 = f x ∧
      f (if x.st != .up && y.st == .up && x.replay.isEmpty then (({ x with queue := [], mid := [] } : Link), ({ y with queue := y.queue ++ x.uncut } : Link)) else (x, y)).2 = f y) ∧
      (if x.st != .up && y.st == .up && x.replay.isEmpty then (({ x with queue := [], mid := [] } : Link), ({ y with queue := y.queue ++ x.uncut } : Link)) else (x, y)).1.queue = [] ∧
      (if x.st != .up && y.st == .up && x.replay.isEmpty then (({ x with queue := [], mid := [] } : Link), ({ y with queue := y.queue ++ x.uncut } : Link)) else (x, y)).2.queue = [] := by
    intro x y hx hy
    split
    · exact ⟨⟨hf x _ _, hf y _ _⟩, rfl, by rw [hy, show x.uncut = [] by unfold Link.uncut; rw [hx]; rfl]; rfl⟩
    · exact ⟨⟨rfl, rfl⟩, hx, hy⟩
  unfold State.pumpPair
  simp only
  have h1' := hm (s.link (2 * dir)) (s.link (2 * dir + 1)) h0 h1
  generalize (if (s.link (2 * dir)).st != .up && (s.link (2 * dir + 1)).st == .up && (s.link (2 * dir)).replay.isEmpty then
    (({ s.link (2 * dir) with queue := [], mid := [] } : Link), ({ s.link (2 * dir + 1) with queue := (s.link (2 * dir + 1)).queue ++ (s.link (2 * dir)).uncut } : Link))
    else (s.link (2 * dir), s.link (2 * dir + 1))) = ab at h1' ⊢
  have h2 := hm ab.2 ab.1 h1'.2.2 h1'.2.1
  generalize (if ab.2.st != .up && ab.1.st == .up && ab.2.replay.isEmpty then
    (({ ab.2 with queue := [], mid := [] } : Link), ({ ab.1 with queue := ab.1.queue ++ ab.2.uncut } : Link)) else (ab.2, ab.1)) = ba at h2 ⊢
  rw [h2.2.1, h2.2.2]
  by_cases hj : j = 2 * dir + 1
  · subst hj
    rw [link_putLink_self]
    exact h2.1.1.trans h1'.1.2
  · rw [link_putLink_ne _ _ hj]
    by_cases hj2 : j = 2 * dir
    · subst hj2
      rw [link_putLink_self]
      exact h2.1.2.trans h1'.1.1
    · rw [link_putLink_ne _ _ hj2]

theorem vl_apart {i j o o' : Nat} (h : i ≠ j) (ho : o < 0x20) (ho' : o' < 0x20) : Blk.vl.at i o ≠ Blk.vl.at j o' := by
  simp only [Blk.at, Blk.place]; omega

/-- The links of the direction emptied, the neighbour marked and what came over it dropped. -/
def cutNbr (s : State) (d : Nat) (st : NState) : State :=
  let l0 := fun (l : Link) => ({ l with replay := [], queue := [], mid := [], rxBuf := [] } : Link)
  let c1 := (s.modLink (2 * d) l0).modLink (2 * d + 1) l0
  c1.setVeolo { s.veolo with links := c1.veolo.links, nbrs := s.veolo.nbrs.set d st, pairTx := s.veolo.pairTx.set d 0, pairRx := s.veolo.pairRx.set d 0, early := s.veolo.early.filter (fun e => e.1 != d) }

theorem cutNbr_link (s : State) (d : Nat) (st : NState) (j : Nat) : (cutNbr s d st).link j =
    ((s.modLink (2 * d) (fun (l : Link) => ({ l with replay := [], queue := [], mid := [], rxBuf := [] } : Link))).modLink (2 * d + 1)
      (fun (l : Link) => ({ l with replay := [], queue := [], mid := [], rxBuf := [] } : Link))).link j := by
  unfold cutNbr
  dsimp only
  generalize ((s.modLink (2 * d) (fun (l : Link) => ({ l with replay := [], queue := [], mid := [], rxBuf := [] } : Link))).modLink (2 * d + 1)
      (fun (l : Link) => ({ l with replay := [], queue := [], mid := [], rxBuf := [] } : Link))) = c
  rfl

theorem modLink_link_self (s : State) (i : Nat) (f : Link → Link) : (s.modLink i f).link i = f (s.link i) := link_putLink_self s i _

theorem modLink_link_ne (s : State) {i j : Nat} (f : Link → Link) (h : j ≠ i) : (s.modLink i f).link j = s.link j := link_putLink_ne s _ h

theorem lost_nothing (u : State) (d dev : Nat) (h1 : u.parts = []) (h2 : u.lender.loans = []) : ((u.lenderLost d).borrowerLost d).fetchLost dev = u := by
  have e2 : u.lenderLost d = u := by unfold State.lenderLost; rw [h1]; rfl
  have e3 : u.borrowerLost d = u := by
    unfold State.borrowerLost
    rw [h2]
    show u.setLender { loans := [] } = u
    have : ({ loans := [] } : Lender) = u.lender := by cases hq : u.lender; rw [hq] at h2; simp only at h2; rw [h2]
    rw [this]; rfl
  rw [e2, e3]
  unfold State.fetchLost
  rw [h1]; rfl

theorem loseNeighbour_alone (s : State) (d : Nat) (st : NState) (hp : s.parts = []) (hl : s.lender.loans = []) :
    ∃ u : State, s.loseNeighbour d st = (u.sharedEvent [] .uncorrectable 0 0 (s.nbrDev d)).passReach d (s.nbrDev d) false ∧ u.veolo.nbrs = s.veolo.nbrs.set d st ∧
      (∀ j, j / 2 = d → (u.link j).replay = [] ∧ (u.link j).queue = [] ∧ (u.link j).rxBuf = []) ∧ (∀ j, j / 2 ≠ d → u.link j = s.link j) ∧
      (∀ e ∈ u.veolo.early, e.1 ≠ d) ∧ u.lesar = s.lesar ∧ u.mem = s.mem ∧ u.parts = s.parts := by
  have hu : ∃ u, cutNbr s d st = u := ⟨_, rfl⟩
  obtain ⟨u, hu⟩ := hu
  have hup : u.parts = s.parts := by rw [← hu]; rfl
  have hul : u.lender = s.lender := by rw [← hu]; rfl
  refine ⟨u, ?_, by rw [← hu]; rfl, fun j hj => ?_, fun j hj => ?_, ?_, by rw [← hu]; rfl, by rw [← hu]; rfl, hup⟩
  · have e := lost_nothing u d (s.nbrDev d) (hup.trans hp) (by rw [hul]; exact hl)
    have e2 : u.loseDevice (s.nbrDev d) = u.sharedEvent [] .uncorrectable 0 0 (s.nbrDev d) := by
      unfold State.loseDevice
      rw [hup, hp]; rfl
    unfold State.loseNeighbour
    show (((((cutNbr s d st).lenderLost d).borrowerLost d).fetchLost (s.nbrDev d)).loseDevice (s.nbrDev d)).passReach d (s.nbrDev d) false = _
    rw [hu, e, e2]
  · rw [← hu]
    have : j = 2 * d ∨ j = 2 * d + 1 := by omega
    rw [cutNbr_link]
    rcases this with rfl | rfl
    · rw [modLink_link_ne _ _ (by omega), modLink_link_self]; exact ⟨rfl, rfl, rfl⟩
    · rw [modLink_link_self]; exact ⟨rfl, rfl, rfl⟩
  · rw [← hu, cutNbr_link, modLink_link_ne _ _ (by omega), modLink_link_ne _ _ (by omega)]
  · rw [← hu]
    intro e he
    have := (List.mem_filter.1 he).2
    simpa using this

end Sys2Proof.Machine
end

