-- ==== Sys2Proof/Laws/Services.lean ====
section
/-!
SUPPORT. What the operations on models, sessions, the sideband, the device's phases and its partitions do: one lemma each.
-/
namespace Sys2Proof.Machine

open Sys2Proof

theorem modelOp_run (s : State) (c : Ctx) (op : Nat) (pt : Part) (body : State → Part → Res) (h : s.modelServes c op pt) :
    s.modelOp c op body = body (s.freeMbox c op) pt := by
  obtain ⟨hs, hp, h1, h2⟩ := h
  unfold State.modelOp
  rw [serve_body _ _ _ _ _ _ hs.1 hs.2.1 hs.2.2.1 hs.2.2.2]
  have hp' : (s.freeMbox c op).part c.part = some pt := (freeMbox_part s c op c.part).trans hp
  rw [hp']
  simp only [h1, h2]
  rfl

theorem owe_part (s : State) (c : Ctx) (op q : Nat) : (s.owe c op).part q = s.part q := (reply_part s c op .pending [] q)

theorem settle_part (s : State) (c : Ctx) (op : Nat) (st : Status) (pl : Bytes) (q : Nat) : (s.settle c op st pl).part q = s.part q := by
  unfold State.settle
  simp only
  split
  · exact reply_part _ _ _ _ _ _
  · rfl

theorem settle_field {α : Type} (f : State → α) (hf : ∀ s w : State, f (s.withReply w) = f s) (hl : ∀ (s : State) (l : Lesar), f (s.setLesar l) = f s) (s : State) (c : Ctx) (op : Nat) (st : Status) (pl : Bytes) :
    f (s.settle c op st pl) = f s := by
  unfold State.settle
  simp only
  split
  · exact (reply_field f hf _ _ _ _ _).trans (hl _ _)
  · rfl

theorem take_some (v : Install) (k off : Nat) (d : Bytes) (w : Install) : v.take k off d = some w → k = 0 ∨ k = 1 ∨ k = 2 := by
  intro h
  unfold Install.take at h
  split at h
  · exact Or.inl rfl
  · exact Or.inr (Or.inl rfl)
  · exact Or.inr (Or.inr rfl)
  · cases h

theorem modFetch_only (m : State) (p : Nat) (pt : Part) (h : m.part p = some pt) (re : Bool) (f : Install → Install) :
    onlyPart m (m.modFetch p re f) p ∧
      (m.modFetch p re f).part p = some (if re then { pt with refetch := pt.refetch.map f } else { pt with install := pt.install.map f }) :=
  ⟨⟨rfl, fun q hq => State.part_modPart_ne m _ hq⟩, part_of_modPart _ h⟩

theorem endInstall_of (s : State) (p : Nat) (pt : Part) (v : Install) (h : s.part p = some pt) (h1 : pt.install = some v) (st : Status) :
    s.endInstall p st = (s.modPart p (fun pt => Part.trimKeys { pt with install := none, mstate := pt.restState })).settleModel p v.ctx 0x0401 st := by
  unfold State.endInstall
  rw [h]
  show (match pt.install with | none => _ | some v => _) = _
  rw [h1]

def sameBook (s t : State) : Prop := t.parts = s.parts ∧ t.regs = s.regs

theorem shareOnly_parts {s t : State} (h : shareOnly s t) : t.parts = s.parts := (congrArg State.parts h : (State.setRegs _ _).parts = _)

/-- The tensors of a shard written into the share change nothing but its bytes and what is counted of them. -/
theorem storeTensor_only (s : State) (pt : Part) (sh : Bytes) (d : DirEntry) (off : Nat) : shareOnly s (s.storeTensor pt sh d off) := by
  unfold State.storeTensor
  split
  · exact shareOnly_trans (foldl_inv (fun x : State => shareOnly s x) _ (fun b i h => shareOnly_trans h (shareOnly_store _ _ _ _)) _ s (shareOnly_refl s))
      (shareOnly_store _ _ _ _)
  · exact shareOnly_store _ _ _ _

theorem loadTensors_only (s : State) (pt : Part) (im : Image) : shareOnly s (s.loadTensors pt im) := by
  unfold State.loadTensors
  exact foldl_inv (fun x : State => shareOnly s x) _ (fun b e h => shareOnly_trans h (storeTensor_only _ _ _ _ _)) _ s (shareOnly_refl s)

theorem modTiles_book {α : Type} (k : α → Nat) (f : α → Tile → Tile) (l : List α) (s : State) : sameBook s (l.foldl (fun s i => s.modTile (k i) (f i)) s) := by
  refine foldl_inv (fun x : State => sameBook s x) (fun (s : State) i => s.modTile (k i) (f i)) (fun b a h => ?_) l s ⟨rfl, rfl⟩
  exact h

theorem loadTables_book (s : State) (pt : Part) (tb : Bytes) : sameBook s (s.loadTables pt tb) := by
  unfold State.loadTables
  exact modTiles_book (fun t => t) (fun _ v => ({ v with tables := Mem.writeN 0#8 (Mem.writeN 0#8 [] (tableKey 0 0 0 0) tb) (tableKey 1 0 0 0) tb } : Tile)) pt.tiles s

/-- The programs stored change the tiles and the programs of the partition alone. -/
theorem storePrograms_spec (s : State) (p : Nat) (g : Program) (pt : Part) (h : s.part p = some pt) :
    (s.storePrograms p g).part p = some { pt with progs := pt.bayPrograms g } ∧ (s.storePrograms p g).regs = s.regs ∧
      (∀ q, q ≠ p → (s.storePrograms p g).part q = s.part q) := by
  unfold State.storePrograms
  rw [h]
  (try dsimp only)
  have hb : sameBook s ((List.range pt.tiles.length).foldl (fun s i => s.modTile (pt.tiles.getD i 0) (fun v =>
      { v with store := (g.kernels.filter (fun k => k.1 == i)).map Prod.snd })) s) :=
    modTiles_book (fun i => pt.tiles.getD i 0) (fun i v => ({ v with store := (g.kernels.filter (fun k => k.1 == i)).map Prod.snd } : Tile)) (List.range pt.tiles.length) s
  generalize (List.range pt.tiles.length).foldl (fun s i => s.modTile (pt.tiles.getD i 0) (fun v =>
      { v with store := (g.kernels.filter (fun k => k.1 == i)).map Prod.snd })) s = u at hb ⊢
  have hp : ∀ q, u.part q = s.part q := fun q => by unfold State.part; rw [hb.1]
  exact ⟨part_of_modPart _ ((hp p).trans h), hb.2, fun q hq => (State.part_modPart_ne _ _ hq).trans (hp q)⟩

theorem blk_ne {a b : Nat} (h : a < b) : a ≠ b := Nat.ne_of_lt h

theorem onlyPart_trans {a b c : State} {p : Nat} (h1 : onlyPart a b p) (h2 : onlyPart b c p) : onlyPart a c p := by
  refine ⟨?_, fun q hq => (h2.2 q hq).trans (h1.2 q hq)⟩
  have := congrArg (fun x : State => x.setParts a.parts) h2.1
  exact this.trans h1.1

theorem stageTargeted_spec (s : State) (p handle target : Nat) (pt : Part) (im : Image) (t : Targeted) (h : s.part p = some pt)
    (hn : ∀ e ∈ pt.staged.targeted, e.2.1 ≠ handle) : ∃ u : State, onlyPart s u p ∧
      u.part p = some { pt with staged := { pt.staged with targeted := pt.staged.targeted ++ [(target, handle, t)] },
                                accepted := if im.stages ≠ 1 ∧ im.isFirst = true then pt.accepted ++ [(0, handle, target)] else pt.accepted } ∧
      s.stageTargeted p handle target im t = (if im.stages = 1 ∨ im.isFirst = true then u
        else u.sendTo (u.stageDev 0) .management p (beBytes 1 0x13 ++ beBytes 1 p ++ beBytes 1 im.stage ++ beBytes 4 handle ++ beBytes 4 target)) := by
  have e1 : pt.staged.targeted.filter (fun e : Nat × Nat × Targeted => e.2.1 == handle && Targeted.sameKind e.2.2 t) = [] := by
    rw [List.filter_eq_nil_iff]
    intro e he
    simp [hn e he]
  have e2 : pt.staged.targeted.filter (fun e : Nat × Nat × Targeted => !(e.2.1 == handle && Targeted.sameKind e.2.2 t)) = pt.staged.targeted := by
    rw [List.filter_eq_self]
    intro e he
    simp [hn e he]
  obtain ⟨f, hf⟩ : ∃ f : Part → Part, (fun pt : Part => ({ pt with staged := { pt.staged with targeted := pt.staged.targeted.filter (fun e : Nat × Nat × Targeted => !(e.2.1 == handle && Targeted.sameKind e.2.2 t)) ++ [(target, handle, t)] }, accepted := pt.accepted } : Part)) = f := ⟨_, rfl⟩
  have hfp : f pt = { pt with staged := { pt.staged with targeted := pt.staged.targeted ++ [(target, handle, t)] } } := by
    rw [← hf]; simp only [e2]
  have hs : s.stageTargeted p handle target im t = (if im.stages = 1 then s.modPart p f
      else if im.isFirst then (s.modPart p f).modPart p (fun pt => { pt with accepted := pt.accepted ++ [(0, handle, target)] })
      else (s.modPart p f).sendTo ((s.modPart p f).stageDev 0) .management p (beBytes 1 0x13 ++ beBytes 1 p ++ beBytes 1 im.stage ++ beBytes 4 handle ++ beBytes 4 target)) := by
    unfold State.stageTargeted
    rw [h, ← hf]
    simp only [Option.map_some, Option.getD_some, e1, List.foldl_nil, List.isEmpty_nil, if_true]
    rfl
  have hp1 : (s.modPart p f).part p = some (f pt) := part_of_modPart _ h
  by_cases h1 : im.stages = 1
  · refine ⟨s.modPart p f, onlyPart_modPart s p f, ?_, ?_⟩
    · rw [hp1, hfp, if_neg (fun hc => hc.1 h1)]
    · rw [hs, if_pos h1, if_pos (Or.inl h1)]
  · by_cases h2 : im.isFirst = true
    · refine ⟨(s.modPart p f).modPart p (fun pt => { pt with accepted := pt.accepted ++ [(0, handle, target)] }),
        onlyPart_trans (onlyPart_modPart s p f) (onlyPart_modPart _ p _), ?_, ?_⟩
      · rw [part_of_modPart _ hp1, hfp, if_pos ⟨h1, h2⟩]
      · rw [hs, if_neg h1, if_pos h2, if_pos (Or.inr h2)]
    · refine ⟨s.modPart p f, onlyPart_modPart s p f, ?_, ?_⟩
      · rw [hp1, hfp, if_neg (fun hc => h2 hc.2)]
      · rw [hs, if_neg h1, if_neg h2, if_neg (fun hc => hc.elim h1 h2)]

theorem settleModel_part (s : State) (p : Nat) (c : Ctx) (op : Nat) (st : Status) (q : Nat) : (s.settleModel p c op st).part q = s.part q :=
  settle_part s c op st [] q

theorem settleTargeted_part (s : State) (p : Nat) (t : Targeted) (st : Status) (q : Nat) : (s.settleTargeted p t st).part q = s.part q := by
  cases t <;> exact settleModel_part _ _ _ _ _ _

theorem dropModelStaged_part (s : State) (p : Nat) (pt : Part) (h : s.part p = some pt) :
    (s.dropModelStaged p).part p = some { pt with staged := { pt.staged with targeted := [], removeInsets := [] } } := by
  unfold State.dropModelStaged
  rw [h]
  refine part_of_modPart _ ?_
  have h1 := foldl_inv (fun x : State => x.part p = some pt) (fun s (e : Nat × Nat × Targeted) => s.settleTargeted p e.2.2 .notPermitted)
    (fun b a hb => (settleTargeted_part b p a.2.2 _ p).trans hb) pt.staged.targeted s h
  exact foldl_inv (fun x : State => x.part p = some pt) (fun s (e : Nat × Ctx) => s.settleModel p e.2 0x0302 .ok)
    (fun b a hb => (settleModel_part b p a.2 _ _ p).trans hb) pt.staged.removeInsets _ h1

def regBlank (pt : Part) : Part := { pt with gzState := 0, active := [0, 0, 0], swapStaged := [false, false, false], copying := [false, false, false] }

def imgBlank (pt : Part) : Part :=
  { pt with image := none, insets := [], sheets := [], segments := [], xcache := [], swap := none, refetch := none, joined := false, gone := [], nodesTold := [],
            progs := [], places := [], room := [], loans := pt.loans.map (fun l => { l with copies := [] }) }

def modelBlank (pt : Part) : Part := imgBlank (regBlank { pt with staged := { pt.staged with targeted := [], removeInsets := [] } })

theorem removeImage_spec (s : State) (p : Nat) (pt : Part) (hp : p < 128) (h : s.part p = some pt) : (s.removeImage p).part p = some (modelBlank pt) ∧
    ∀ b off, (b, off) ∈ [(Blk.sfu, 0), (.narrow, 0), (.narrow, 4), (.narrow, 8), (.kv, 0), (.kv, 4)] → (s.removeImage p).reg b p off = Blk.reset b off := by
  have h1 := dropModelStaged_part s p pt h
  obtain ⟨u, hu⟩ : ∃ u, s.dropModelStaged p = u := ⟨_, rfl⟩
  rw [hu] at h1
  unfold State.removeImage
  rw [hu]
  have hr : u.resetModelRegs p = (((((((u.putReg .sfu p 0 (Blk.reset .sfu 0)).putReg .narrow p 0 (Blk.reset .narrow 0)).putReg .narrow p 4 (Blk.reset .narrow 4)).putReg .narrow p 8 (Blk.reset .narrow 8)).putReg .kv p 0 (Blk.reset .kv 0)).putReg .kv p 4 (Blk.reset .kv 4)).modPart p regBlank) := rfl
  show (State.modPart _ _ imgBlank).part p = _ ∧ ∀ b off, _ → (State.modPart _ _ imgBlank).reg b p off = _
  refine ⟨?_, fun b off hb => ?_⟩
  · rw [hr]
    have h2 : ∀ w : State, w.part p = some { pt with staged := { pt.staged with targeted := [], removeInsets := [] } } → ((w.modPart p regBlank).modPart p imgBlank).part p = some (modelBlank pt) :=
      fun w hw => part_of_modPart imgBlank (part_of_modPart regBlank hw)
    exact h2 _ h1
  · rw [hr]
    show State.rawReg (State.putReg _ _ _ _ _) _ = _
    simp only [List.mem_cons, List.not_mem_nil, or_false, Prod.mk.injEq] at hb
    have g := fun (a : Nat) (h4 : a ≠ Blk.at .kv p 4) => State.rawReg_putReg_ne (((((u.putReg .sfu p 0 (Blk.reset .sfu 0)).putReg .narrow p 0 (Blk.reset .narrow 0)).putReg .narrow p 4 (Blk.reset .narrow 4)).putReg .narrow p 8 (Blk.reset .narrow 8)).putReg .kv p 0 (Blk.reset .kv 0)) .kv p 4 (Blk.reset .kv 4) h4
    rcases hb with ⟨rfl, rfl⟩ | ⟨rfl, rfl⟩ | ⟨rfl, rfl⟩ | ⟨rfl, rfl⟩ | ⟨rfl, rfl⟩ | ⟨rfl, rfl⟩
    · rw [g _ (by simp only [Blk.at, Blk.place]; omega), State.rawReg_putReg_ne _ _ _ _ _ (by simp only [Blk.at, Blk.place]; omega), State.rawReg_putReg_ne _ _ _ _ _ (by simp only [Blk.at, Blk.place]; omega),
        State.rawReg_putReg_ne _ _ _ _ _ (by simp only [Blk.at, Blk.place]; omega), State.rawReg_putReg_ne _ _ _ _ _ (by simp only [Blk.at, Blk.place]; omega)]
      exact State.reg_putReg_self _ _ _ _ _
    · rw [g _ (by simp only [Blk.at, Blk.place]; omega), State.rawReg_putReg_ne _ _ _ _ _ (by simp only [Blk.at, Blk.place]; omega), State.rawReg_putReg_ne _ _ _ _ _ (by simp only [Blk.at, Blk.place]; omega),
        State.rawReg_putReg_ne _ _ _ _ _ (by simp only [Blk.at, Blk.place]; omega)]
      exact State.reg_putReg_self _ _ _ _ _
    · rw [g _ (by simp only [Blk.at, Blk.place]; omega), State.rawReg_putReg_ne _ _ _ _ _ (by simp only [Blk.at, Blk.place]; omega), State.rawReg_putReg_ne _ _ _ _ _ (by simp only [Blk.at, Blk.place]; omega)]
      exact State.reg_putReg_self _ _ _ _ _
    · rw [g _ (by simp only [Blk.at, Blk.place]; omega), State.rawReg_putReg_ne _ _ _ _ _ (by simp only [Blk.at, Blk.place]; omega)]
      exact State.reg_putReg_self _ _ _ _ _
    · rw [g _ (by simp only [Blk.at, Blk.place]; omega)]
      exact State.reg_putReg_self _ _ _ _ _
    · exact State.reg_putReg_self _ _ _ _ _

theorem clearNand_book (l : List Nat) (s : State) : sameBook s (l.foldl State.clearNandExtent s) :=
  foldl_inv (fun x : State => sameBook s x) State.clearNandExtent (fun _ _ h => h) l s ⟨rfl, rfl⟩

theorem insetOp_run (s : State) (c : Ctx) (op : Nat) (pt : Part) (im : Image) (body : State → Part → Image → Res) (h : s.modelServes c op pt) (hi : pt.image = some im)
    (hf : im.isFirst = true) : s.insetOp c op body = body (s.freeMbox c op) pt im := by
  unfold State.insetOp
  rw [modelOp_run s c op pt _ h]
  simp only [hi, hf]
  rfl

theorem takesFrame_run (s : State) (via : Via) (raw : Bytes) (h : Hdr) (pl : Bytes) (ht : s.takesFrame via raw h pl) :
    exec (.ethFrameReceive via raw) s = if crc32c (raw.take 28 ++ pl) != h.check then
      .next (((s.bump .eth via.port 0x08 1).bump .ls 0 0x0C 1).refuseHeader via 3 h.sess h.part h.handle h.opcode .badFrame)
    else (s.bump .eth via.port 0x08 1).goodFrame via raw h pl := by
  obtain ⟨h1, h2, h3, h4, h5, h6, h7, h8, h9⟩ := ht
  have e : (decide (s.dev.phase = .portDie) || decide (s.dev.phase = .trained)) = false := by rw [decide_eq_false h3, decide_eq_false h4]; rfl
  have hx : exec (.ethFrameReceive via raw) s = (s.bump .eth via.port 0x08 1).lesarFrame via raw := by
    show execEthFrameReceive via raw s = _
    unfold execEthFrameReceive
    rw [h1, h2, h5]
    show (if (_ || _) = true then _ else _) = _
    rw [e]; rfl
  rw [hx]
  obtain ⟨u, hu⟩ : ∃ u, s.bump .eth via.port 0x08 1 = u := ⟨_, rfl⟩
  rw [hu]
  have hk : hdrLen h.version = 32 := by rw [h7]; rfl
  have hm : u.mapPart h = h.part := by unfold State.mapPart; rw [h7]; rfl
  have hh : ({ h with part := h.part } : Hdr) = h := rfl
  have hw : within 1 3 h.version = true := by rw [h7]; rfl
  have e3 : decide (h.version = 3) = true := decide_eq_true h7
  unfold State.lesarFrame
  simp only [h6, hk, h9, h8, hm, hw, if_true, e3, Bool.true_and]
  by_cases hc : (crc32c (raw.take 28 ++ pl) != h.check) = true
  · rw [if_pos hc, if_pos hc, h7]
  · rw [if_neg hc, if_neg hc]

theorem session_modSession (s : State) (n : Nat) (f : Session → Session) : (s.modSession n f).session n = (s.session n).map f := NMap.find_modify_self _ _ _

theorem sendSeq_early (s : State) (n k : Nat) (f : OutFrame) : ((s.sendSeq k f).session n).map (·.early) = (s.session n).map (·.early) := by
  unfold State.sendSeq
  cases hk : s.session k with
  | none => rfl
  | some ss =>
    have hm : ∀ (u : State) (g : Session → Session), u.lesar.sessions = s.lesar.sessions → (∀ v, (g v).early = v.early) →
        ((u.modSession k g).session n).map (·.early) = (s.session n).map (·.early) := by
      intro u g hu hg
      by_cases h : n = k
      · subst h
        rw [session_modSession]
        show ((NMap.find u.lesar.sessions n).map g).map _ = _
        rw [hu]
        show ((s.session n).map g).map _ = _
        cases s.session n with
        | none => rfl
        | some v => exact congrArg some (hg v)
      · show (NMap.find (NMap.modify u.lesar.sessions k g) n).map _ = _
        rw [NMap.find_modify_ne _ _ h, hu]
        rfl
    show ((if _ then _ else _ : State).session n).map _ = _
    split
    · exact hm _ _ rfl (fun _ => rfl)
    · exact hm _ _ rfl (fun _ => rfl)

theorem keepReply_sessions (s : State) (c : Ctx) (f : OutFrame) : (s.keepReply c f).lesar.sessions = s.lesar.sessions := by
  unfold State.keepReply
  split
  · split <;> rfl
  · rfl

theorem reply_early (s : State) (n : Nat) (c : Ctx) (op : Nat) (st : Status) (pl : Bytes) : ((s.reply c op st pl).session n).map (·.early) = (s.session n).map (·.early) := by
  unfold State.reply
  split
  · rfl
  · split
    · split
      · simp only
        exact congrArg (fun x : NMap Session => (NMap.find x n).map (·.early)) (keepReply_sessions _ _ _)
      · rfl
    · split
      · rfl
      · split
        · exact sendSeq_early _ _ _ _
        · simp only
          exact foldl_inv (fun t : State => (t.session n).map (·.early) = (s.session n).map (·.early)) _ (fun b a h => (sendSeq_early _ _ _ _).trans h) _ s rfl

theorem processHeld_none (n k : Nat) (s : State) (h : (s.session n).map (·.early) = some [] ∨ s.session n = none) : State.processHeld n k s = .next s := by
  cases k with
  | zero => rfl
  | succ k =>
    unfold State.processHeld
    have : (s.session n).bind (fun v => (NMap.find v.early v.rxNext).map (fun e => (v.rxNext, e))) = none := by
      cases hs : s.session n with
      | none => rfl
      | some v =>
        rw [hs] at h
        have he : v.early = [] := by
          rcases h with h | h
          · exact Option.some.inj h
          · cases h
        rw [Option.bind_some, he]; rfl
    rw [this]

theorem resetBlock_find (s : State) (b : Blk) (a : Nat) : NMap.find (s.resetBlock b).regs a = if b.covers a then none else NMap.find s.regs a := by
  show NMap.find (NMap.eraseRange s.regs (b.at 0 0) (b.at b.place.2.2 0)) a = _
  rw [NMap.find_eraseRange]
  have h1 : b.at 0 0 = b.place.1 := by simp [Blk.at]
  have h2 : b.at b.place.2.2 0 = b.place.1 + b.place.2.1 * b.place.2.2 := by simp [Blk.at]
  rw [h1, h2]
  unfold Blk.covers
  by_cases h : b.place.1 ≤ a ∧ a < b.place.1 + b.place.2.1 * b.place.2.2
  · rw [if_pos h, if_pos (by simp [h.1, h.2])]
  · rw [if_neg h, if_neg (by simpa using h)]

theorem resetBlocks_find (a : Nat) : ∀ (bs : List Blk) (s : State),
    ((∃ b ∈ bs, b.covers a = true) → NMap.find (bs.foldl State.resetBlock s).regs a = none) ∧
    ((∀ b ∈ bs, b.covers a = false) → NMap.find (bs.foldl State.resetBlock s).regs a = NMap.find s.regs a) ∧
    (NMap.find s.regs a = none → NMap.find (bs.foldl State.resetBlock s).regs a = none)
  | [], s => ⟨fun ⟨b, hb, _⟩ => absurd hb (List.not_mem_nil), fun _ => rfl, fun h => h⟩
  | b :: bs, s => by
    obtain ⟨i1, i2, i3⟩ := resetBlocks_find a bs (s.resetBlock b)
    have hf := resetBlock_find s b a
    refine ⟨fun ⟨c, hc, hcov⟩ => ?_, fun h => ?_, fun h => ?_⟩
    · rcases List.mem_cons.1 hc with rfl | hc
      · exact i3 (by rw [hf, if_pos hcov])
      · exact i1 ⟨c, hc, hcov⟩
    · exact (i2 (fun c hc => h c (List.mem_cons_of_mem _ hc))).trans (by rw [hf, if_neg (by rw [h b (List.mem_cons_self ..)]; decide)])
    · refine i3 ?_
      rw [hf]
      split
      · rfl
      · exact h

theorem resetBlocks_frame (bs : List Blk) (s : State) : (bs.foldl State.resetBlock s).setRegs s.regs = s :=
  foldl_inv (fun x : State => x.setRegs s.regs = s) State.resetBlock (fun _ _ h => h) bs s rfl

theorem clearWork_spec (s : State) : s.clearWork.parts = [] ∧ s.clearWork.tiles = [] ∧ s.clearWork.tombs = [] ∧ s.clearWork.lender.loans = [] ∧ s.clearWork.lesar.sessions = [] ∧
      s.clearWork.lesar.mboxes = [] ∧ s.clearWork.mem.scratch = [] ∧ s.clearWork.mem.dram = [] ∧ s.clearWork.mem.nand = s.mem.nand ∧ s.clearWork.mem.flash = s.mem.flash ∧
      s.clearWork.keeper = { s.keeper with bind := none } ∧ s.clearWork.eth = s.eth ∧ s.clearWork.guard = s.guard := by
  refine ⟨by simp [State.clearWork], by simp [State.clearWork], by simp [State.clearWork], by simp [State.clearWork], by simp [State.clearWork, Lesar.start], by simp [State.clearWork, Lesar.start],
    by simp [State.clearWork, State.setScratch, State.setDramMem], by simp [State.clearWork, State.setScratch, State.setDramMem], by simp [State.clearWork, State.setScratch, State.setDramMem],
    by simp [State.clearWork, State.setScratch, State.setDramMem], by simp [State.clearWork, State.setScratch, State.setDramMem], by simp [State.clearWork, State.setScratch, State.setDramMem],
    by simp [State.clearWork, State.setScratch, State.setDramMem]⟩

theorem clearAll_spec (s : State) (g : Guard) (r : NMap Word) : (s.clearAll g r).parts = [] ∧ (s.clearAll g r).tiles = [] ∧ (s.clearAll g r).tombs = [] ∧ (s.clearAll g r).lender.loans = [] ∧
      (s.clearAll g r).lesar.sessions = [] ∧ (s.clearAll g r).lesar.mboxes = [] ∧ (s.clearAll g r).mem.scratch = [] ∧ (s.clearAll g r).mem.dram = [] ∧ (s.clearAll g r).mem.nand = s.mem.nand ∧
      (s.clearAll g r).mem.flash = s.mem.flash ∧ (s.clearAll g r).keeper = { s.keeper with bind := none } ∧ (s.clearAll g r).regs = r ∧ (s.clearAll g r).eth = [] ∧ (s.clearAll g r).guard = g ∧
      (s.clearAll g r).veolo = Veolo.start := by
  obtain ⟨c1, c2, c3, c4, c5, c6, c7, c8, c9, c10, c11, c12, c13⟩ := clearWork_spec s
  obtain ⟨w, hw⟩ : ∃ w, s.clearWork = w := ⟨_, rfl⟩
  rw [hw] at c1 c2 c3 c4 c5 c6 c7 c8 c9 c10 c11 c12 c13
  unfold State.clearAll
  simp only [hw]
  refine ⟨by simp [c1], by simp [c2], by simp [c3], by simp [c4], by simp [c5], by simp [c6], by simp [c7], by simp [c8], by simp [c9], by simp [c10], by simp [c11], by simp, by simp, by simp, by simp⟩

theorem guardJudge_new (now cap cond level : Nat) (v : Int) (b : NMap Nat) :
    (guardJudge now cap cond level v false b).1 = decide (guardEntry cap cond level ≤ v) := by
  unfold guardJudge
  simp only
  split
  · rename_i h; rw [decide_eq_true h]
  · rename_i h
    rw [decide_eq_false h]
    split <;> simp

theorem guardLevel_new (now cap cond : Nat) (v : Int) (b : NMap Nat) :
    (guardLevel now cap cond v 0 b).1 = if guardEntry cap cond 2 ≤ v then 2 else if guardEntry cap cond 1 ≤ v then 1 else 0 := by
  unfold guardLevel
  have e1 : decide (1 ≤ 0) = false := rfl
  have e2 : decide (2 ≤ 0) = false := rfl
  simp only [e1, e2, guardJudge_new, decide_eq_true_eq]

theorem hottest_spec (l : List Int) (h : l ≠ []) : (∀ v ∈ l, v ≤ (hottestOf l).1) ∧ (hottestOf l).1 ∈ l := by
  have hl : 0 < l.length := List.length_pos_iff.2 h
  have key : ∀ n, n ≤ l.length → 
      let r := (List.range n).foldl (fun (b : Int × Nat) i => if b.1 < l.getD i 0 then (l.getD i 0, i) else b) (l.getD 0 0, 0)
      (∀ i, i < n → l.getD i 0 ≤ r.1) ∧ r.1 ∈ l ∧ l.getD 0 0 ≤ r.1 := by
    intro n
    induction n with
    | zero =>
      intro _
      refine ⟨fun i hi => absurd hi (by omega), ?_, Int.le_refl _⟩
      show l.getD 0 0 ∈ l
      rw [List.getD_eq_getElem _ _ hl]
      exact List.getElem_mem hl
    | succ n ih =>
      intro hn
      obtain ⟨a, b, c⟩ := ih (by omega)
      rw [List.range_succ, List.foldl_append]
      obtain ⟨r, hr⟩ : ∃ r, (List.range n).foldl (fun (b : Int × Nat) i => if b.1 < l.getD i 0 then (l.getD i 0, i) else b) (l.getD 0 0, 0) = r := ⟨_, rfl⟩
      rw [hr] at a b c ⊢
      show (∀ i, i < n + 1 → l.getD i 0 ≤ (if r.1 < l.getD n 0 then (l.getD n 0, n) else r).1) ∧ (if r.1 < l.getD n 0 then (l.getD n 0, n) else r).1 ∈ l ∧ _ ≤ (if r.1 < l.getD n 0 then (l.getD n 0, n) else r).1
      by_cases hq : r.1 < l.getD n 0
      · rw [if_pos hq]
        refine ⟨fun i hi => ?_, ?_, by have := c; show _ ≤ l.getD n 0; omega⟩
        · show l.getD i 0 ≤ l.getD n 0
          by_cases hin : i = n
          · subst hin; exact Int.le_refl _
          · have := a i (by omega); omega
        · show l.getD n 0 ∈ l
          rw [List.getD_eq_getElem _ _ (by omega)]
          exact List.getElem_mem _
      · rw [if_neg hq]
        refine ⟨fun i hi => ?_, b, c⟩
        by_cases hin : i = n
        · subst hin; omega
        · exact a i (by omega)
  obtain ⟨a, b, _⟩ := key l.length (Nat.le_refl _)
  refine ⟨fun v hv => ?_, b⟩
  obtain ⟨i, hi, rfl⟩ := List.mem_iff_getElem.1 hv
  have := a i hi
  rw [List.getD_eq_getElem _ _ hi] at this
  exact this

def evOnly (s t : State) : Prop := (t.setLesar s.lesar).setRegs s.regs = s

theorem evOnly_refl (s : State) : evOnly s s := rfl

theorem evOnly_trans {a b c : State} (h1 : evOnly a b) (h2 : evOnly b c) : evOnly a c := by
  have := congrArg (fun x : State => (x.setLesar a.lesar).setRegs a.regs) h2
  exact this.trans h1

theorem sendSeq_ev (s : State) (n : Nat) (f : OutFrame) : evOnly s (s.sendSeq n f) := by
  unfold State.sendSeq
  split
  · rfl
  · split <;> rfl

theorem flushEvents_ev (s : State) (k : Nat) : evOnly s (s.flushEvents k) := by
  unfold State.flushEvents
  split
  · exact evOnly_refl s
  · exact foldl_inv (fun x : State => evOnly s x) _ (fun b a h => evOnly_trans h (sendSeq_ev b _ _)) _ _ rfl

theorem pushEvent_ev (s : State) (k : Nat) (e : Evt) : evOnly s (s.pushEvent k e) := by
  unfold State.pushEvent
  (try dsimp only)
  split
  · split
    · split <;> rfl
    · rfl
  · split
    · exact evOnly_trans (b := s.putEvtStream k { s.evtStream k with held := (s.evtStream k).held ++ [e] }) rfl (flushEvents_ev _ k)
    · rfl

theorem devEvent_ev (s : State) (st : Status) (a b c : Nat) : evOnly s (s.devEvent st a b c) := pushEvent_ev _ _ _

theorem guardEvent_ev (s : State) (o n : Guard) : evOnly s (s.guardEvent o n) := by
  unfold State.guardEvent
  split
  · exact devEvent_ev _ _ _ _ _
  · rfl

theorem guardCounts_spec (s : State) (o n : Guard) : ∃ k, ((s.guardCounts o n).setGuard s.guard).setRegs s.regs = s ∧ (s.guardCounts o n).guard = { n with thinNs := k } := by
  have b : ∀ (w : State) (off k : Nat), w.setRegs s.regs = s → (w.bump .pg 0 off k).setRegs s.regs = s := fun w off k h => h
  have c : ∀ (w : State) (g : Guard), w.setRegs s.regs = s → ((w.setGuard g).setGuard s.guard).setRegs s.regs = s := fun w g h => by
    have e : w.guard = s.guard := Eq.trans (b := (w.setRegs s.regs).guard) rfl (congrArg State.guard h)
    rw [← e]; exact h
  unfold State.guardCounts
  dsimp only
  refine ⟨_, c _ _ ?_, rfl⟩
  have i : ∀ (P : Prop) [Decidable P] (x y : State), x.setRegs s.regs = s → y.setRegs s.regs = s → (if P then x else y).setRegs s.regs = s := fun P _ x y hx hy => by
    split
    · exact hx
    · exact hy
  have h1 := i ((decide (o.level = 0) && n.level != 0) = true) (s.bump .pg 0 0x10 1) s rfl rfl
  have h2 := i ((o.level != 2 && decide (n.level = 2)) = true) _ _ (b _ 0x14 1 h1) h1
  exact i _ _ _ h2 (b _ 0x18 _ h2)

theorem ev_field {α : Type} (f : State → α) (hf : ∀ (s : State) (l : Lesar) (r : NMap Word), f ((s.setLesar l).setRegs r) = f s) {s t : State} (h : evOnly s t) : f t = f s := by
  have := congrArg f h
  rw [hf] at this
  exact this

theorem scanFlash_dev (s : State) : s.scanFlash.dev = s.dev := by
  unfold State.scanFlash
  simp only [State.setFlash_dev]

theorem linkHails_spec (s : State) (i : Nat) : (s.linkHails i).setVeolo s.veolo = s ∧ (s.linkHails i).veolo = { s.veolo with links := (s.linkHails i).veolo.links } ∧
    (∀ j, j ≠ i → (s.linkHails i).link j = s.link j) ∧
    ((s.link i).st = .disabled → (s.linkHails i).link i = s.link i) ∧ (s.veolo.numValid = true → s.expected (i / 2) = none → (s.linkHails i).link i = s.link i) ∧
    ((s.link i).st ≠ .disabled → (s.veolo.numValid = false ∨ (s.expected (i / 2)).isSome = true) → (s.linkHails i).link i = { s.link i with st := .hail, equalHails := 0 }) := by
  have hdef : s.linkHails i = if ((s.link i).st == .disabled || (s.veolo.numValid && (s.expected (i / 2)).isNone)) then s else s.modLink i (fun l => { l with st := .hail, equalHails := 0 }) := rfl
  by_cases hc : ((s.link i).st == .disabled || (s.veolo.numValid && (s.expected (i / 2)).isNone)) = true
  · rw [if_pos hc] at hdef
    rw [hdef]
    refine ⟨rfl, rfl, fun _ _ => rfl, fun _ => rfl, fun _ _ => rfl, fun h1 h2 => ?_⟩
    rw [Bool.or_eq_true, Bool.and_eq_true] at hc
    rcases hc with hc | ⟨a, b⟩
    · exact absurd (by simpa using hc) h1
    · rcases h2 with h2 | h2
      · rw [h2] at a; cases a
      · cases hq : s.expected (i / 2) with
        | none => rw [hq] at h2; cases h2
        | some _ => rw [hq] at b; cases b
  · rw [if_neg hc] at hdef
    rw [hdef]
    refine ⟨rfl, rfl, fun j hj => link_putLink_ne s _ hj, fun h => ?_, fun h1 h2 => ?_, fun _ _ => link_putLink_self s i _⟩
    · exact absurd (by rw [h]; rfl) hc
    · exact absurd (by rw [h1, h2]; simp) hc

theorem padTo_length (n : Nat) (b : Bytes) : (padTo n b).length = n := by
  unfold padTo
  rw [List.length_append, List.length_replicate, List.length_take]
  omega

/-- Bytes that begin behind the first piece of a run. -/
theorem slice_skip (x r : Bytes) (off n k : Nat) (hx : x.length = k) (h : k ≤ off) : slice (x ++ r) off n = slice r (off - k) n := by
  unfold slice
  rw [List.drop_append, hx, List.drop_eq_nil_of_le (by omega), List.nil_append]

/-- The first piece of a run. -/
theorem slice_here (x r : Bytes) (n : Nat) (hx : x.length = n) : slice (x ++ r) 0 n = x := by
  unfold slice
  rw [List.drop_zero, List.take_left' hx]

/-- A number behind the first piece of a run. -/
theorem beAt_skip (x r : Bytes) (off n k : Nat) (hx : x.length = k) (h : k ≤ off) : beAt (x ++ r) off n = beAt r (off - k) n := by
  have := slice_skip x r off n k hx h
  unfold slice at this
  unfold beAt
  rw [this]

theorem slice_over (x r : Bytes) (off n : Nat) (h : x.length ≤ off) : slice (x ++ r) off n = slice r (off - x.length) n := slice_skip x r off n _ rfl h

theorem beAt_over (x r : Bytes) (off n : Nat) (h : x.length ≤ off) : beAt (x ++ r) off n = beAt r (off - x.length) n := beAt_skip x r off n _ rfl h

theorem slice_front (x r : Bytes) (n : Nat) (hx : x.length = n) : slice (x ++ r) 0 n = x := slice_here x r n hx

theorem quads_length (f : Nat → Nat) : ((List.range 16).flatMap (fun b => beBytes 1 (f b))).length = 16 := by
  rw [List.length_flatMap]
  simp [beBytes_length]

theorem quotePart_length (o : Option Part) : (quotePart o).length = 128 := by
  unfold quotePart
  split
  · rfl
  · simp only [List.length_append, beBytes_length, padTo_length, quads_length]

theorem keeper_freeMbox (s : State) (c : Ctx) (op : Nat) : (s.freeMbox c op).keeper = s.keeper := freeMbox_field State.keeper (fun _ _ => rfl) s c op

theorem take_follows (j : BindJob) (part off : Nat) (d : Bytes) (hp : part ≤ 1) :
    j.take part off d = if (if part = 0 then j.part = 0 ∧ off = j.cert.length ∧ off + d.length ≤ 147680 else off = j.key.length ∧ j.cert ≠ [] ∧ off + d.length ≤ 129) then
      some (if part = 0 then { j with cert := j.cert ++ d } else { j with part := 1, key := j.key ++ d }) else none := by
  unfold BindJob.take
  by_cases h : part = 0
  · simp only [h, if_true]
    congr 1
    simp
    tauto
  · simp only [h, if_false]
    congr 1
    simp [List.isEmpty_iff]
    tauto

theorem certOk_iff (cert : Bytes) : certOk cert = decide (beAt cert 0 4 = 0x53455443 ∧ beAt cert 4 1 = 1 ∧ beAt cert 5 1 = 0 ∧ 1 ≤ beAt cert 6 2 ∧ beAt cert 6 2 ≤ 4096 ∧
    cert.length = 128 + 36 * beAt cert 6 2 + 96 ∧ beAt cert 12 1 = 4 ∧ (slice cert 77 51).all (· == 0#8) = true ∧
    ∀ k, k < beAt cert 6 2 → beAt (slice cert (128 + 36 * k) 36) 0 2 < 4096 ∧ beAt (slice cert (128 + 36 * k) 36) 2 2 = 0) := by
  rw [Bool.eq_iff_iff]
  simp only [certOk, certEntry, allZero, within, Bool.and_eq_true, beq_iff_eq, decide_eq_true_eq, List.all_eq_true, List.mem_range, and_assoc]
  simp
  intros
  exact ⟨fun h k hk => ⟨of_decide_eq_true (h k hk).1, (h k hk).2⟩, fun h k hk => ⟨decide_eq_true (h k hk).1, (h k hk).2⟩⟩

theorem certDevice_none (cert : Bytes) (h : ∀ k, k < beAt cert 6 2 → slice (slice cert (128 + 36 * k) 36) 4 32 ≠ Config.sm3 Config.identityKey) : certDevice cert = none := by
  unfold certDevice
  rw [List.find?_eq_none.mpr, Option.map_none]
  intro e he
  obtain ⟨k, hk, rfl⟩ := List.mem_map.mp he
  simpa [certEntry] using h k (List.mem_range.mp hk)

theorem certDevice_some (cert : Bytes) (k : Nat) (hk : k < beAt cert 6 2) (h1 : slice (slice cert (128 + 36 * k) 36) 4 32 = Config.sm3 Config.identityKey)
    (h : ∀ k', k' < k → slice (slice cert (128 + 36 * k') 36) 4 32 ≠ Config.sm3 Config.identityKey) :
    certDevice cert = some (beAt (slice cert (128 + 36 * k) 36) 0 2) := by
  unfold certDevice
  have : ((List.range (beAt cert 6 2)).map (certEntry cert)).find? (fun e => slice e 4 32 == Config.sm3 Config.identityKey) = some (certEntry cert k) := by
    rw [List.find?_map]
    have : (List.range (beAt cert 6 2)).find? ((fun e => slice e 4 32 == Config.sm3 Config.identityKey) ∘ certEntry cert) = some k := by
      rw [List.find?_range_eq_some]
      refine ⟨?_, List.mem_range.mpr hk, fun j hj => ?_⟩
      · simpa [certEntry] using h1
      · simpa [certEntry] using h j hj
    rw [this]; rfl
  rw [this]; rfl

theorem finishBind_cases (s : State) (cert key : Bytes) : s.finishBind cert key =
    if certOk cert = false then (s, .badFrame)
    else if s.certSigned cert = false then (s.bump .kpr 0 0x04 1, .signatureInvalid)
    else
      match certDevice cert with
      | none => (s, .notBound)
      | some n =>
        match (if key.length = 129 then Config.unwrap key else none) with
        | none => (s, .digestMismatch)
        | some priv =>
          if !Config.keyMatches cert priv then (s, .digestMismatch)
          else if s.keeper.sets.any (fun b => b.setId == Config.sm3 cert) then (s, .ok)
          else if 16 ≤ s.keeper.sets.length then (s, .noResource)
          else (s.setKeeper { s.keeper with sets := s.keeper.sets ++ [{ setId := Config.sm3 cert, setKey := slice cert 12 65, devNum := n, priv := priv }] }, .ok) := by
  unfold State.finishBind
  simp only [Bool.not_eq_true']
  try rfl

theorem at_stop (b : Blk) (k : Nat) : b.at k b.place.2.1 = b.at (k + 1) 0 := by
  unfold Blk.at
  rw [Nat.mul_succ]; omega

theorem resetRegs_find (s : State) (b : Blk) (k a : Nat) : NMap.find (s.resetRegs b k).regs a = if b.at k 0 ≤ a ∧ a < b.at (k + 1) 0 then none else NMap.find s.regs a := by
  show NMap.find (NMap.eraseRange s.regs (b.at k 0) (b.at k b.place.2.1)) a = _
  rw [NMap.find_eraseRange, at_stop]

theorem resetRegs_folded (p a : Nat) : ∀ (bs : List Blk) (s : State),
    ((∃ b ∈ bs, b.at p 0 ≤ a ∧ a < b.at (p + 1) 0) → NMap.find (bs.foldl (fun s b => s.resetRegs b p) s).regs a = none) ∧
    ((∀ b ∈ bs, ¬(b.at p 0 ≤ a ∧ a < b.at (p + 1) 0)) → NMap.find (bs.foldl (fun s b => s.resetRegs b p) s).regs a = NMap.find s.regs a) ∧
    (NMap.find s.regs a = none → NMap.find (bs.foldl (fun s b => s.resetRegs b p) s).regs a = none)
  | [], s => ⟨fun ⟨b, hb, _⟩ => absurd hb (List.not_mem_nil), fun _ => rfl, fun h => h⟩
  | b :: bs, s => by
    obtain ⟨i1, i2, i3⟩ := resetRegs_folded p a bs (s.resetRegs b p)
    have hf := resetRegs_find s b p a
    refine ⟨fun ⟨c, hc, hcov⟩ => ?_, fun h => ?_, fun h => ?_⟩
    · rcases List.mem_cons.1 hc with rfl | hc
      · exact i3 (by rw [hf, if_pos hcov])
      · exact i1 ⟨c, hc, hcov⟩
    · exact (i2 (fun c hc => h c (List.mem_cons_of_mem _ hc))).trans (by rw [hf, if_neg (h b (List.mem_cons_self ..))])
    · refine i3 ?_
      rw [hf]
      split
      · rfl
      · exact h

theorem resetPartRegs_frame (s : State) (p : Nat) : (s.resetPartRegs p).setRegs s.regs = s :=
  foldl_inv (fun x : State => x.setRegs s.regs = s) (fun (s : State) b => s.resetRegs b p) (fun _ _ h => h) partBlocks s rfl

theorem field_setField_in (w : Word) (hi lo v : Nat) (hh : hi < 32) (hl : lo ≤ hi) : (Word.setField w hi lo v).field hi lo = v % 2 ^ (hi + 1 - lo) := by
  obtain ⟨k, rfl⟩ : ∃ k, hi = lo + k := ⟨hi - lo, by omega⟩
  rw [show lo + k + 1 - lo = k + 1 by omega]
  have hsub : Word.field w (lo + k) lo * 2 ^ lo ≤ w.toNat := by
    unfold Word.field
    exact le_trans (Nat.mul_le_mul_right _ (Nat.mod_le _ _)) (Nat.div_mul_le_self _ _)
  have hw := w.isLt
  generalize hx : v % 2 ^ (k + 1) = x
  have hx' : x < 2 ^ (k + 1) := hx ▸ Nat.mod_lt _ (Nat.two_pow_pos _)
  unfold Word.setField
  rw [show lo + k + 1 - lo = k + 1 by omega, hx]
  have hdec : w.toNat = w.toNat % 2 ^ lo + 2 ^ lo * (w.toNat / 2 ^ lo % 2 ^ (k + 1)) + 2 ^ lo * (2 ^ (k + 1) * (w.toNat / 2 ^ lo / 2 ^ (k + 1))) := by
    have h1 := Nat.mod_add_div w.toNat (2 ^ lo)
    have h2 := Nat.mod_add_div (w.toNat / 2 ^ lo) (2 ^ (k + 1))
    rw [Nat.add_assoc, ← Nat.mul_add, h2, h1]
  have hf : Word.field w (lo + k) lo = w.toNat / 2 ^ lo % 2 ^ (k + 1) := by
    unfold Word.field
    rw [show lo + k + 1 - lo = k + 1 by omega]
  obtain ⟨r, hr⟩ : ∃ r, w.toNat % 2 ^ lo = r := ⟨_, rfl⟩
  obtain ⟨f, hf'⟩ : ∃ f, w.toNat / 2 ^ lo % 2 ^ (k + 1) = f := ⟨_, rfl⟩
  obtain ⟨q, hq⟩ : ∃ q, w.toNat / 2 ^ lo / 2 ^ (k + 1) = q := ⟨_, rfl⟩
  have hrl : r < 2 ^ lo := hr ▸ Nat.mod_lt _ (Nat.two_pow_pos _)
  rw [hr, hf', hq] at hdec
  rw [hf, hf']
  have hval : w.toNat - f * 2 ^ lo + x * 2 ^ lo = r + 2 ^ lo * (x + 2 ^ (k + 1) * q) := by
    rw [hdec, Nat.mul_add, Nat.mul_comm x, Nat.mul_comm f]
    omega
  rw [hval]
  have hpow : 2 ^ lo * 2 ^ (k + 1) * 2 ^ (31 - (lo + k)) = 2 ^ 32 := by
    rw [← Nat.pow_add, ← Nat.pow_add]; congr 1; omega
  have hlt : r + 2 ^ lo * (x + 2 ^ (k + 1) * q) < 2 ^ 32 := by
    have hq' : q < 2 ^ (31 - (lo + k)) := by
      rw [← hq, Nat.div_div_eq_div_mul]
      refine Nat.div_lt_of_lt_mul ?_
      rw [hpow]; exact hw
    have h1 : x + 2 ^ (k + 1) * q < 2 ^ (k + 1) * 2 ^ (31 - (lo + k)) := by
      have : 2 ^ (k + 1) * (q + 1) ≤ 2 ^ (k + 1) * 2 ^ (31 - (lo + k)) := Nat.mul_le_mul_left _ hq'
      rw [Nat.mul_succ] at this
      omega
    have h2 : 2 ^ lo * (x + 2 ^ (k + 1) * q + 1) ≤ 2 ^ lo * (2 ^ (k + 1) * 2 ^ (31 - (lo + k))) := Nat.mul_le_mul_left _ h1
    rw [Nat.mul_succ, ← Nat.mul_assoc (2 ^ lo), hpow] at h2
    omega
  unfold Word.field
  rw [BitVec.toNat_ofNat, Nat.mod_eq_of_lt hlt, Nat.add_mul_div_left _ _ (Nat.two_pow_pos _), Nat.div_eq_of_lt hrl, Nat.zero_add,
    show lo + k + 1 - lo = k + 1 by omega, Nat.add_mul_mod_self_left, Nat.mod_eq_of_lt hx']

theorem putField_field (s : State) (b : Blk) (k off hi lo v : Nat) (hh : hi < 32) (hl : lo ≤ hi) (hv : v < 2 ^ (hi + 1 - lo)) :
    ((s.putField b k off hi lo v).reg b k off).field hi lo = v := by
  unfold State.putField
  rw [State.reg_putReg_self, field_setField_in _ _ _ _ hh hl, Nat.mod_eq_of_lt hv]

theorem addressUsed_mbox (s : State) (c : Ctx) (op p : Nat) (e : Nat × Nat × Nat × Nat) : (s.freeMbox c op).addressUsed p e = s.addressUsed p e :=
  freeMbox_field (fun x : State => x.addressUsed p e) (fun _ _ => rfl) s c op

theorem takeKept_frame (s : State) (nand : List Nat) : ((s.takeKept nand).1.setNand s.nand).setMem { (s.takeKept nand).1.mem with nand := s.mem.nand } = s := by
  unfold State.takeKept
  split
  · rfl
  · have := foldl_inv (fun x : State => (x.setNand s.nand).setMem { x.mem with nand := s.mem.nand } = s) State.clearNandExtent (fun _ _ h => h)
      ((s.nand.kept.filter (fun e => e.1.any (fun x => nand.contains x))).flatMap (fun e => e.1)) s rfl
    exact this

theorem baysOf_ne (a b : List Nat) : (baysOf a != baysOf b) = true ↔ ∃ n, n < 16 ∧ ¬((∃ q ∈ a, q / 8 = n) ↔ (∃ q ∈ b, q / 8 = n)) := by
  rw [bne_iff_ne]
  constructor
  · intro h
    by_contra hn
    push_neg at hn
    apply h
    unfold baysOf
    apply List.filter_congr
    intro n hn'
    rw [Bool.eq_iff_iff]
    simp only [List.any_eq_true, beq_iff_eq]
    exact hn n (List.mem_range.mp hn')
  · rintro ⟨n, hn, h⟩ he
    apply h
    have h1 : n ∈ baysOf a ↔ n ∈ baysOf b := by rw [he]
    simpa [baysOf, hn] using h1

theorem resizeRefused_iff (pt : Part) (fl : Nat) (quads : List Nat) (dram nand : Nat) : pt.resizeRefused fl quads dram nand = true ↔
    (pt.mstate ∈ [MState.fetching, .loading, .draining, .swapping] ∨
        (pt.mstate ≠ .empty ∧ fl % 2 = 1 ∧ ∃ b, b < 16 ∧ ¬((∃ q ∈ quads, q / 8 = b) ↔ (∃ q ∈ pt.quads, q / 8 = b))) ∨
        (pt.mstate ≠ .empty ∧ fl / 2 % 2 = 1 ∧ (dram < pt.dram.length ∨ nand < pt.nand.length)) ∨
        (fl / 2 % 2 = 1 ∧ (pt.shards ≠ [] ∨ pt.install ≠ none ∨ pt.refetch ≠ none) ∧ nand < pt.nand.length)) := by
  rw [← baysOf_ne]
  have h1 : MState.noResize pt.mstate = true ↔ pt.mstate ∈ [MState.fetching, .loading, .draining, .swapping] := by cases pt.mstate <;> decide
  have h2 : pt.holdsShards = true ↔ (pt.shards ≠ [] ∨ pt.install ≠ none ∨ pt.refetch ≠ none) := by
    unfold Part.holdsShards
    simp only [Bool.or_eq_true, Bool.not_eq_true', List.isEmpty_eq_false_iff, Option.isSome_iff_ne_none, or_assoc]
  unfold Part.resizeRefused
  simp only [Bool.or_eq_true, Bool.and_eq_true, h1, h2, beq_iff_eq, decide_eq_true_eq, and_assoc, or_assoc]
  generalize (pt.shards ≠ [] ∨ pt.install ≠ none ∨ pt.refetch ≠ none) = x
  generalize hE : ((pt.mstate != .empty) = true) = y
  have hy : (pt.mstate ≠ .empty) = y := by rw [← hE, bne_iff_ne]
  rw [hy]
  generalize (baysOf quads != baysOf pt.quads) = z
  generalize (pt.mstate ∈ [MState.fetching, .loading, .draining, .swapping]) = w
  generalize pt.dram.length = d1
  generalize pt.nand.length = d2
  clear h1 h2 hE hy
  tauto

theorem beginPartReset_spec (s : State) (p : Nat) (pt : Part) (c : Ctx) (d : Bool) (h : s.part p = some pt) :
    (s.beginPartReset p pt c d).part p = some { pt with resetting := some (c, d), staged := { pt.staged with resize := none, reset := some c } } ∧
    (∀ q, q ≠ p → (s.beginPartReset p pt c d).part q = s.part q) ∧ (s.beginPartReset p pt c d).mem = s.mem ∧ (s.beginPartReset p pt c d).tiles = s.tiles := by
  obtain ⟨s1, hs1⟩ : ∃ s1, (match pt.staged.resize with | some r => s.settle r.ctx 0x0502 .busyRecovery [] | none => s) = s1 := ⟨_, rfl⟩
  have f1 : ∀ {α : Type} (f : State → α), (∀ s w : State, f (s.withReply w) = f s) → (∀ (s : State) (l : Lesar), f (s.setLesar l) = f s) → f s1 = f s := by
    intro α f a b
    rw [← hs1]
    cases pt.staged.resize with
    | none => rfl
    | some r => exact settle_field f a b s _ _ _ _
  obtain ⟨s3, hs3⟩ : ∃ s3, s3 = (match pt.image with
    | some im => ((List.range im.stages).filter (· != im.stage)).foldl
        (fun (s : State) st => s.sendTo (s.stageDev st) .management p (beBytes 1 0x15 ++ beBytes 1 p ++ beBytes 1 im.stage))
        (s1.modPart p (fun pt => { pt with resetting := some (c, d), staged := { pt.staged with resize := none, reset := some c } }))
    | none => s1.modPart p (fun pt => { pt with resetting := some (c, d), staged := { pt.staged with resize := none, reset := some c } })) := ⟨_, rfl⟩
  have f3 : s3.setVeolo s1.veolo = s1.modPart p (fun pt => { pt with resetting := some (c, d), staged := { pt.staged with resize := none, reset := some c } }) := by
    rw [hs3]
    cases pt.image with
    | none => rfl
    | some im =>
      exact foldl_inv (fun x : State => x.setVeolo s1.veolo = s1.modPart p (fun pt => { pt with resetting := some (c, d), staged := { pt.staged with resize := none, reset := some c } })) _
        (fun b a hb => by
          have := congrArg (fun x : State => x.setVeolo s1.veolo) (sendTo_frame b (b.stageDev a) .management p (beBytes 1 0x15 ++ beBytes 1 p ++ beBytes 1 im.stage))
          exact this.trans hb) _ _ rfl
  have hx : s.beginPartReset p pt c d = (s3.partEvent p .busyRecovery 0x0503 0 0).ownerEvent p .busyRecovery 0x0503 0 0 := by
    subst hs3; subst hs1; rfl
  have hev : evOnly s3 (s.beginPartReset p pt c d) := by
    rw [hx]
    exact evOnly_trans (pushEvent_ev _ _ _) (pushEvent_ev _ _ _)
  have f4 : ∀ {α : Type} (f : State → α), (∀ (s : State) v, f (s.setVeolo v) = f s) → (∀ (s : State) (l : Lesar) (r : NMap Word), f ((s.setLesar l).setRegs r) = f s) →
      f (s.beginPartReset p pt c d) = f (s1.modPart p (fun pt => { pt with resetting := some (c, d), staged := { pt.staged with resize := none, reset := some c } })) := by
    intro α f a b
    rw [ev_field f b hev, ← f3, a]
  have hp1 : ∀ q, s1.part q = s.part q := fun q => f1 (fun x => x.part q) (fun _ _ => rfl) (fun _ _ => rfl)
  clear hx hev f3 hs3
  refine ⟨?_, fun q hq => ?_, ?_, ?_⟩
  · rw [f4 (fun x => x.part p) (fun _ _ => rfl) (fun _ _ _ => rfl)]
    exact part_of_modPart _ ((hp1 p).trans h)
  · rw [f4 (fun x => x.part q) (fun _ _ => rfl) (fun _ _ _ => rfl), State.part_modPart_ne _ _ hq]
    exact hp1 q
  · rw [f4 (fun x => x.mem) (fun _ _ => rfl) (fun _ _ _ => rfl)]
    exact f1 (fun x => x.mem) (fun _ _ => rfl) (fun _ _ => rfl)
  · rw [f4 (fun x => x.tiles) (fun _ _ => rfl) (fun _ _ _ => rfl)]
    exact f1 (fun x => x.tiles) (fun _ _ => rfl) (fun _ _ => rfl)

theorem clearExtents_read (a : Nat) : ∀ (l : List Nat) (s : State),
    Mem.read 0#8 (l.foldl State.clearExtent s).mem.dram a = if a / 2 ^ 28 ∈ l then 0#8 else Mem.read 0#8 s.mem.dram a
  | [], s => by rw [if_neg List.not_mem_nil]; rfl
  | e :: l, s => by
    rw [List.foldl_cons, clearExtents_read a l]
    have : Mem.read 0#8 (s.clearExtent e).mem.dram a = if e * 2 ^ 28 ≤ a ∧ a < e * 2 ^ 28 + 2 ^ 28 then 0#8 else Mem.read 0#8 s.mem.dram a := Mem.read_clear _ _ _ _ _
    rw [this]
    by_cases hl : a / 2 ^ 28 ∈ l
    · rw [if_pos hl, if_pos (List.mem_cons_of_mem _ hl)]
    · rw [if_neg hl]
      by_cases h : a / 2 ^ 28 = e
      · rw [if_pos (by omega), if_pos (List.mem_cons.2 (.inl h))]
      · rw [if_neg (by omega), if_neg (by simp only [List.mem_cons, h, hl, or_self, not_false_eq_true])]

theorem tilesLeave_read (a : Nat) : ∀ (l : List Nat) (s : State),
    Mem.read 0#8 (l.foldl State.tileLeaves s).mem.scratch a = if a / 2 ^ 20 ∈ l then 0#8 else Mem.read 0#8 s.mem.scratch a
  | [], s => by rw [if_neg List.not_mem_nil]; rfl
  | e :: l, s => by
    rw [List.foldl_cons, tilesLeave_read a l]
    have : Mem.read 0#8 (s.tileLeaves e).mem.scratch a = if e * 2 ^ 20 ≤ a ∧ a < e * 2 ^ 20 + 2 ^ 20 then 0#8 else Mem.read 0#8 s.mem.scratch a := Mem.read_clear _ _ _ _ _
    rw [this]
    by_cases hl : a / 2 ^ 20 ∈ l
    · rw [if_pos hl, if_pos (List.mem_cons_of_mem _ hl)]
    · rw [if_neg hl]
      by_cases h : a / 2 ^ 20 = e
      · rw [if_pos (by omega), if_pos (List.mem_cons.2 (.inl h))]
      · rw [if_neg (by omega), if_neg (by simp only [List.mem_cons, h, hl, or_self, not_false_eq_true])]

theorem clearNand_read (a : Nat) : ∀ (l : List Nat) (s : State),
    Mem.read 0#8 (l.foldl State.clearNandExtent s).mem.nand a = if a / 2 ^ 34 ∈ l then 0#8 else Mem.read 0#8 s.mem.nand a
  | [], s => by rw [if_neg List.not_mem_nil]; rfl
  | e :: l, s => by
    rw [List.foldl_cons, clearNand_read a l]
    have : Mem.read 0#8 (s.clearNandExtent e).mem.nand a = if e * 2 ^ 34 ≤ a ∧ a < e * 2 ^ 34 + 2 ^ 34 then 0#8 else Mem.read 0#8 s.mem.nand a := Mem.read_clear _ _ _ _ _
    rw [this]
    by_cases hl : a / 2 ^ 34 ∈ l
    · rw [if_pos hl, if_pos (List.mem_cons_of_mem _ hl)]
    · rw [if_neg hl]
      by_cases h : a / 2 ^ 34 = e
      · rw [if_pos (by omega), if_pos (List.mem_cons.2 (.inl h))]
      · rw [if_neg (by omega), if_neg (by simp only [List.mem_cons, h, hl, or_self, not_false_eq_true])]

/-- The state after the fill: what was cleared, and what stands as it did. -/
theorem filled_spec (s : State) (p : Nat) (pt : Part) :
    let w := (pt.tiles.foldl State.tileLeaves (pt.dram.foldl State.clearExtent s)).resetPartRegs p
    (∀ q, w.part q = s.part q) ∧ w.lesar = s.lesar ∧ w.keeper = s.keeper ∧ w.mem.nand = s.mem.nand ∧ w.mem.flash = s.mem.flash ∧
    (∀ a, Mem.read 0#8 w.mem.dram a = if a / 2 ^ 28 ∈ pt.dram then 0#8 else Mem.read 0#8 s.mem.dram a) ∧
    (∀ a, Mem.read 0#8 w.mem.scratch a = if a / 2 ^ 20 ∈ pt.tiles then 0#8 else Mem.read 0#8 s.mem.scratch a) ∧
    (∀ b ∈ partBlocks, ∀ a, b.at p 0 ≤ a → a < b.at (p + 1) 0 → NMap.find w.regs a = none) ∧
    (∀ a, (∀ b ∈ partBlocks, ¬(b.at p 0 ≤ a ∧ a < b.at (p + 1) 0)) → NMap.find w.regs a = NMap.find s.regs a) := by
  intro w
  obtain ⟨x, hx⟩ : ∃ x, x = pt.dram.foldl State.clearExtent s := ⟨_, rfl⟩
  obtain ⟨y, hy⟩ : ∃ y, y = pt.tiles.foldl State.tileLeaves x := ⟨_, rfl⟩
  have hw : w = y.resetPartRegs p := by subst hy; subst hx; rfl
  have x1 : x.parts = s.parts ∧ x.lesar = s.lesar ∧ x.keeper = s.keeper ∧ x.mem.nand = s.mem.nand ∧ x.mem.flash = s.mem.flash ∧ x.mem.scratch = s.mem.scratch ∧ x.regs = s.regs := by
    rw [hx]
    exact foldl_inv (fun x : State => x.parts = s.parts ∧ x.lesar = s.lesar ∧ x.keeper = s.keeper ∧ x.mem.nand = s.mem.nand ∧ x.mem.flash = s.mem.flash ∧
      x.mem.scratch = s.mem.scratch ∧ x.regs = s.regs) State.clearExtent (fun _ _ h => h) _ s ⟨rfl, rfl, rfl, rfl, rfl, rfl, rfl⟩
  have y1 : y.parts = x.parts ∧ y.lesar = x.lesar ∧ y.keeper = x.keeper ∧ y.mem.nand = x.mem.nand ∧ y.mem.flash = x.mem.flash ∧ y.mem.dram = x.mem.dram ∧ y.regs = x.regs := by
    rw [hy]
    exact foldl_inv (fun y : State => y.parts = x.parts ∧ y.lesar = x.lesar ∧ y.keeper = x.keeper ∧ y.mem.nand = x.mem.nand ∧ y.mem.flash = x.mem.flash ∧
      y.mem.dram = x.mem.dram ∧ y.regs = x.regs) State.tileLeaves (fun _ _ h => h) _ x ⟨rfl, rfl, rfl, rfl, rfl, rfl, rfl⟩
  have hd : ∀ a, Mem.read 0#8 x.mem.dram a = if a / 2 ^ 28 ∈ pt.dram then 0#8 else Mem.read 0#8 s.mem.dram a := fun a => by rw [hx]; exact clearExtents_read a _ _
  have hs : ∀ a, Mem.read 0#8 y.mem.scratch a = if a / 2 ^ 20 ∈ pt.tiles then 0#8 else Mem.read 0#8 x.mem.scratch a := fun a => by rw [hy]; exact tilesLeave_read a _ _
  have hr := resetPartRegs_frame y p
  have hf : ∀ {α : Type} (f : State → α), (∀ (s : State) r, f (s.setRegs r) = f s) → f w = f y := fun f h => by
    have := congrArg f hr
    rw [h] at this
    rw [hw]; exact this
  have hreg : ∀ a, _ := fun a => resetRegs_folded p a partBlocks y
  have hwr : w.regs = (partBlocks.foldl (fun s b => s.resetRegs b p) y).regs := by rw [hw]; rfl
  clear_value w
  clear hx hy hw hr
  refine ⟨fun q => ?_, ?_, ?_, ?_, ?_, fun a => ?_, fun a => ?_, fun b hb a h1 h2 => ?_, fun a h => ?_⟩
  · exact (hf (fun x => x.part q) (fun _ _ => rfl)).trans (congrArg (fun l => NMap.find l q) (y1.1.trans x1.1))
  · exact (hf (fun x => x.lesar) (fun _ _ => rfl)).trans (y1.2.1.trans x1.2.1)
  · exact (hf (fun x => x.keeper) (fun _ _ => rfl)).trans (y1.2.2.1.trans x1.2.2.1)
  · exact (hf (fun x => x.mem.nand) (fun _ _ => rfl)).trans (y1.2.2.2.1.trans x1.2.2.2.1)
  · exact (hf (fun x => x.mem.flash) (fun _ _ => rfl)).trans (y1.2.2.2.2.1.trans x1.2.2.2.2.1)
  · rw [hf (fun x => x.mem.dram) (fun _ _ => rfl), y1.2.2.2.2.2.1]; exact hd a
  · rw [hf (fun x => x.mem.scratch) (fun _ _ => rfl), hs a, x1.2.2.2.2.2.1]
  · rw [hwr]; exact (hreg a).1 ⟨b, hb, h1, h2⟩
  · rw [hwr, (hreg a).2.1 h, y1.2.2.2.2.2.2, x1.2.2.2.2.2.2]

/-- The partition whose share has been filled. -/
def filledPart (s : State) (pt : Part) : Part :=
  { Part.created s.now with cls := pt.cls, quads := pt.quads, dram := pt.dram, nand := pt.nand, mac := pt.mac, vid := pt.vid, ip4 := pt.ip4, ip6 := pt.ip6, ownerKey := pt.ownerKey, ownerMark := pt.ownerMark, shards := pt.shards }

theorem find_mapVals {α β : Type} (f : α → β) (k : Nat) : ∀ m : NMap α, NMap.find (m.map (fun e => (e.1, f e.2))) k = (NMap.find m k).map f
  | [] => rfl
  | e :: m => by
    obtain ⟨j, v⟩ := e
    show NMap.find ((j, f v) :: m.map (fun e => (e.1, f e.2))) k = _
    rw [NMap.find_cons, NMap.find_cons, find_mapVals f k m]
    split <;> rfl

/-- What a partition holds, for a comparison. -/
def holdings (v : Part) : Nat × List Nat × List Nat × List Nat := (v.cls, v.quads, v.dram, v.nand)

theorem closeSession_spec (s : State) (n : Nat) : (s.closeSession n).mem = s.mem ∧
    (∀ k, NMap.find (s.closeSession n).lesar.sessions k = if k = n then none else NMap.find s.lesar.sessions k) ∧
    ∀ q, ((s.closeSession n).part q).map holdings = (s.part q).map holdings := by
  unfold State.closeSession
  by_cases h : (s.session n).isNone = true
  · rw [if_pos h]
    refine ⟨rfl, fun k => ?_, fun _ => rfl⟩
    split
    · rename_i hk
      rw [hk]; exact Option.isNone_iff_eq_none.mp h
    · rfl
  · rw [if_neg h]
    have key : ∀ (a a' : NMap Part) (b : Lesar) (c : Flash) (d : Dev) (e : Keeper) (f : Survey),
        let t := ((((((s.setParts a).setParts a').setLesar b).setFlash c).setDev d).setKeeper e).setSurvey f
        t.mem = s.mem ∧ t.lesar = b ∧ ∀ q, t.part q = NMap.find a' q := by
      intro a a' b c d e f
      simp [State.part]
    unfold State.sessionWorkClosed
    dsimp only
    refine ⟨(key _ _ _ _ _ _ _).1, fun k => ?_, fun q => ?_⟩
    · rw [(key _ _ _ _ _ _ _).2.1]
      show NMap.find (NMap.erase s.lesar.sessions n) k = _
      by_cases hk : k = n
      · rw [if_pos hk, hk]; exact NMap.find_erase_self _ _
      · rw [if_neg hk]; exact NMap.find_erase_ne _ hk
    · rw [(key _ _ _ _ _ _ _).2.2]
      show (NMap.find ((s.parts.map (fun e => (e.1, e.2.sessionClosed n))).map (fun e => (e.1, Part.orphan n e.2))) q).map holdings = _
      rw [find_mapVals (Part.orphan n) q, find_mapVals (fun v : Part => v.sessionClosed n) q]
      unfold State.part
      cases NMap.find s.parts q <;> rfl

theorem closeSessions_spec : ∀ (l : List Nat) (s : State), (l.foldl State.closeSession s).mem = s.mem ∧
    (∀ k, NMap.find (l.foldl State.closeSession s).lesar.sessions k = if k ∈ l then none else NMap.find s.lesar.sessions k) ∧
    ∀ q, ((l.foldl State.closeSession s).part q).map holdings = (s.part q).map holdings
  | [], s => ⟨rfl, fun _ => by rw [if_neg List.not_mem_nil]; rfl, fun _ => rfl⟩
  | n :: l, s => by
    obtain ⟨a1, a2, a3⟩ := closeSession_spec s n
    obtain ⟨b1, b2, b3⟩ := closeSessions_spec l (s.closeSession n)
    refine ⟨b1.trans a1, fun k => ?_, fun q => (b3 q).trans (a3 q)⟩
    rw [List.foldl_cons, b2 k, a2 k]
    by_cases hl : k ∈ l
    · rw [if_pos hl, if_pos (List.mem_cons_of_mem _ hl)]
    · rw [if_neg hl]
      by_cases h : k = n
      · rw [if_pos h, if_pos (List.mem_cons.2 (.inl h))]
      · rw [if_neg h, if_neg (by simp only [List.mem_cons, h, hl, or_self, not_false_eq_true])]

theorem find_mem {α : Type} (k : Nat) (v : α) : ∀ m : NMap α, NMap.find m k = some v → (k, v) ∈ m
  | [], h => nomatch h
  | (j, w) :: m, h => by
    rw [NMap.find_cons] at h
    by_cases hj : j = k
    · rw [if_pos hj] at h
      cases h; subst hj; exact List.mem_cons_self ..
    · rw [if_neg hj] at h
      exact List.mem_cons_of_mem _ (find_mem k v m h)

theorem surveyBad_iff (pl : Bytes) : surveyBad pl = !decide (pl.length = 8 ∧ beAt pl 4 4 = 0 ∧ ((beAt pl 0 1 = 0 ∧ beAt pl 1 1 ≤ 3 ∧ beAt pl 2 2 = 0) ∨
    (beAt pl 0 1 = 1 ∧ beAt pl 1 1 = 0 ∧ beAt pl 2 2 < 512) ∨ (beAt pl 0 1 = 1 ∧ beAt pl 1 1 = 1 ∧ beAt pl 2 2 = 0) ∨ (beAt pl 0 1 = 2 ∧ beAt pl 1 1 = 0 ∧ beAt pl 2 2 = 0))) := by
  unfold surveyBad
  rw [Bool.eq_iff_iff, Bool.not_eq_true', decide_eq_false_iff_not]
  by_cases h0 : beAt pl 0 1 = 0
  · simp [h0]; omega
  by_cases h1 : beAt pl 0 1 = 1
  · simp only [h1]
    by_cases h2 : beAt pl 1 1 = 0
    · simp [h2]; omega
    · simp [h2]; omega
  by_cases h2 : beAt pl 0 1 = 2
  · simp [h2]; omega
  · obtain ⟨k, hk⟩ : ∃ k, beAt pl 0 1 = k + 3 := ⟨beAt pl 0 1 - 3, by omega⟩
    simp [hk]

theorem runSurvey_run (s : State) (c : Ctx) (pl : Bytes) (h : s.accepts c 0x0901 .firmware true) : s.runSurvey c pl =
    (if surveyBad pl then (s.freeMbox c 0x0901).answer c 0x0901 .badFrame
    else
      match beAt pl 0 1 with
      | 0 => (s.freeMbox c 0x0901).beginS0 c (beAt pl 1 1)
      | 1 => if beAt pl 1 1 = 0 then (s.freeMbox c 0x0901).beginS1 c (beAt pl 2 2) else (s.freeMbox c 0x0901).beginS1Gazetteer c
      | _ => (s.freeMbox c 0x0901).beginS2 c) := serve_body s c _ _ _ _ h.1 h.2.1 h.2.2.1 h.2.2.2

theorem surveyPl (a b n : Nat) : let pl := beBytes 1 a ++ beBytes 1 b ++ beBytes 2 n ++ beBytes 4 0
    pl.length = 8 ∧ beAt pl 0 1 = a % 256 ∧ beAt pl 1 1 = b % 256 ∧ beAt pl 2 2 = n % 65536 ∧ beAt pl 4 4 = 0 := by
  intro pl
  have e : pl = beBytes 1 a ++ (beBytes 1 b ++ (beBytes 2 n ++ beBytes 4 0)) := by simp only [pl, List.append_assoc]
  rw [e]
  refine ⟨by simp only [List.length_append, beBytes_length], beAt_first _ _ _, ?_, ?_, ?_⟩
  · rw [beAt_skip _ _ _ _ 1 (beBytes_length _ _) (by decide)]; exact beAt_first _ _ _
  · rw [beAt_skip _ _ _ _ 1 (beBytes_length _ _) (by decide), beAt_skip _ _ _ _ 1 (beBytes_length _ _) (by decide)]; exact beAt_first _ _ _
  · rw [beAt_skip _ _ _ _ 1 (beBytes_length _ _) (by decide), beAt_skip _ _ _ _ 1 (beBytes_length _ _) (by decide), beAt_skip _ _ _ _ 2 (beBytes_length _ _) (by decide)]
    rfl

theorem survey_freeMbox (s : State) (c : Ctx) (op : Nat) : (s.freeMbox c op).survey = s.survey := freeMbox_field State.survey (fun _ _ => rfl) s c op

theorem survey_owe (s : State) (c : Ctx) (op : Nat) : (s.owe c op).survey = s.survey := reply_field State.survey (fun _ _ => rfl) s c op _ _

theorem settleModel_field {α : Type} (f : State → α) (h1 : ∀ s w : State, f (s.withReply w) = f s) (h2 : ∀ (s : State) (l : Lesar), f (s.setLesar l) = f s) (h3 : ∀ (s : State) r, f (s.setRegs r) = f s) (s : State) (p : Nat) (c : Ctx)
    (op : Nat) (st : Status) : f (s.settleModel p c op st) = f s := (h3 _ _).trans (settle_field f h1 h2 s c op st [])

/-- What a reply, an assignment of registers and a change of partitions leave alone, the removal of a model does. -/
theorem removeImage_field {α : Type} (f : State → α) (h1 : ∀ s w : State, f (s.withReply w) = f s) (h2 : ∀ (s : State) (l : Lesar), f (s.setLesar l) = f s)
    (h3 : ∀ (s : State) r, f (s.setRegs r) = f s) (h4 : ∀ (s : State) l, f (s.setParts l) = f s) (s : State) (p : Nat) : f (s.removeImage p) = f s := by
  have hd : f (s.dropModelStaged p) = f s := by
    unfold State.dropModelStaged
    split
    · rfl
    · rename_i pt _
      refine (h4 _ _).trans ?_
      refine foldl_inv (fun x : State => f x = f s) (fun s (e : Nat × Ctx) => s.settleModel p e.2 0x0302 .ok) (fun b a hb => (settleModel_field f h1 h2 h3 b p a.2 0x0302 .ok).trans hb) _ _ ?_
      refine foldl_inv (fun x : State => f x = f s) (fun s (e : Nat × Nat × Targeted) => s.settleTargeted p e.2.2 .notPermitted) (fun b a hb => ?_) _ _ rfl
      obtain ⟨_, _, t⟩ := a
      cases t <;> exact (settleModel_field f h1 h2 h3 b p _ _ _).trans hb
  have hr : f ((s.dropModelStaged p).resetModelRegs p) = f (s.dropModelStaged p) := by
    refine (h4 _ _).trans ?_
    exact foldl_inv (fun x : State => f x = f (s.dropModelStaged p)) (fun (s : State) (e : Blk × Nat) => s.putReg e.1 p e.2 (Blk.reset e.1 e.2)) (fun b a hb => (h3 _ _).trans hb) _ _ rfl
  exact (h4 _ _).trans (hr.trans hd)

theorem removeImage_part (s : State) (p : Nat) (pt : Part) (h : s.part p = some pt) : (s.removeImage p).part p = some (modelBlank pt) := by
  have h1 := dropModelStaged_part s p pt h
  obtain ⟨u, hu⟩ : ∃ u, s.dropModelStaged p = u := ⟨_, rfl⟩
  rw [hu] at h1
  unfold State.removeImage
  rw [hu]
  refine part_of_modPart imgBlank (part_of_modPart regBlank ?_)
  exact foldl_inv (fun x : State => x.part p = some { pt with staged := { pt.staged with targeted := [], removeInsets := [] } })
    (fun (s : State) (e : Blk × Nat) => s.putReg e.1 p e.2 (Blk.reset e.1 e.2)) (fun b a hb => hb) _ u h1

theorem removeImage_other (s : State) (p q : Nat) (hq : q ≠ p) : (s.removeImage p).part q = s.part q := by
  have hd : (s.dropModelStaged p).part q = s.part q := by
    unfold State.dropModelStaged
    split
    · rfl
    · rename_i pt _
      rw [State.part_modPart_ne _ _ hq]
      refine foldl_inv (fun x : State => x.part q = s.part q) (fun s (e : Nat × Ctx) => s.settleModel p e.2 0x0302 .ok) (fun b a hb => (settleModel_part b _ _ _ _ q).trans hb) _ _ ?_
      exact foldl_inv (fun x : State => x.part q = s.part q) (fun s (e : Nat × Nat × Targeted) => s.settleTargeted p e.2.2 .notPermitted) (fun b a hb => (settleTargeted_part b _ _ _ q).trans hb) _ _ rfl
  unfold State.removeImage
  rw [State.part_modPart_ne _ _ hq]
  unfold State.resetModelRegs
  dsimp only
  rw [State.part_modPart_ne _ _ hq]
  exact foldl_inv (fun x : State => x.part q = s.part q) (fun (s : State) (e : Blk × Nat) => s.putReg e.1 p e.2 (Blk.reset e.1 e.2)) (fun b a hb => hb) _ _ hd

theorem emptyAfter_field {α : Type} (f : State → α) (h1 : ∀ s w : State, f (s.withReply w) = f s) (h2 : ∀ (s : State) (l : Lesar), f (s.setLesar l) = f s)
    (h3 : ∀ (s : State) r, f (s.setRegs r) = f s) (h4 : ∀ (s : State) l, f (s.setParts l) = f s) (s : State) (p : Nat) : f (s.emptyAfterS2 p) = f s := by
  unfold State.emptyAfterS2
  split
  · rfl
  · split
    · exact (h4 _ _).trans (removeImage_field f h1 h2 h3 h4 s p)
    · rfl

def emptiedAfter (pt : Part) : Part := if pt.mstate = .loaded then Part.trimKeys { modelBlank pt with mstate := .empty } else pt

theorem emptyAfter_part (s : State) (p q : Nat) : (s.emptyAfterS2 p).part q = if q = p then (s.part q).map emptiedAfter else s.part q := by
  unfold State.emptyAfterS2
  cases hp : s.part p with
  | none =>
    dsimp only
    split
    · rename_i h
      rw [h, hp]; rfl
    · rfl
  | some pt =>
    dsimp only
    by_cases hl : pt.mstate = .loaded
    · rw [if_pos hl]
      by_cases hq : q = p
      · rw [if_pos hq, hq, part_of_modPart _ (removeImage_part s p pt hp), hp]
        show _ = some (emptiedAfter pt)
        unfold emptiedAfter
        rw [if_pos hl]
      · rw [if_neg hq, State.part_modPart_ne _ _ hq]
        exact removeImage_other s p q hq
    · rw [if_neg hl]
      split
      · rename_i h
        rw [h, hp]
        show _ = some (emptiedAfter pt)
        unfold emptiedAfter
        rw [if_neg hl]
      · rfl

theorem emptiedAfter_twice (pt : Part) : emptiedAfter (emptiedAfter pt) = emptiedAfter pt := by
  unfold emptiedAfter
  by_cases hl : pt.mstate = .loaded
  · rw [if_pos hl, if_neg (fun h => by cases h)]
  · rw [if_neg hl, if_neg hl]

theorem emptyAfters_part (q : Nat) : ∀ (l : List Nat) (s : State), (l.foldl State.emptyAfterS2 s).part q = if q ∈ l then (s.part q).map emptiedAfter else s.part q
  | [], s => by rw [if_neg List.not_mem_nil]; rfl
  | p :: l, s => by
    rw [List.foldl_cons, emptyAfters_part q l, emptyAfter_part]
    by_cases hl : q ∈ l
    · rw [if_pos hl, if_pos (List.mem_cons_of_mem _ hl)]
      split
      · cases s.part q with
        | none => rfl
        | some v => show some (emptiedAfter (emptiedAfter v)) = _; rw [emptiedAfter_twice]; rfl
      · rfl
    · rw [if_neg hl]
      by_cases h : q = p
      · rw [if_pos h, if_pos (List.mem_cons.2 (.inl h))]
      · rw [if_neg h, if_neg (by simp only [List.mem_cons, h, hl, or_self, not_false_eq_true])]

theorem tileFailed_spec (s : State) (t : Nat) : (s.tileFailed t).survey = { s.survey with out := s.survey.out.filter (fun e => e.1 != t), failed := t :: s.survey.failed.filter (· != t) } ∧
    (s.tileFailed t).parts = s.parts ∧ (s.tileFailed t).mem = s.mem ∧ (s.tileFailed t).tiles = s.tiles ∧ (s.tileFailed t).dram = s.dram ∧ (s.tileFailed t).nand = s.nand := by
  have hev : evOnly (s.setSurvey { s.survey with out := s.survey.out.filter (fun e => e.1 != t), failed := t :: s.survey.failed.filter (· != t) }) (s.tileFailed t) := by
    unfold State.tileFailed
    dsimp only
    split
    · exact evOnly_trans (pushEvent_ev _ _ _) (pushEvent_ev _ _ _)
    · exact devEvent_ev _ _ _ _ _
  refine ⟨?_, ?_, ?_, ?_, ?_, ?_⟩
  · rw [ev_field State.survey (fun _ _ _ => rfl) hev]; rfl
  · rw [ev_field State.parts (fun _ _ _ => rfl) hev]; rfl
  · rw [ev_field State.mem (fun _ _ _ => rfl) hev]; rfl
  · rw [ev_field State.tiles (fun _ _ _ => rfl) hev]; rfl
  · rw [ev_field State.dram (fun _ _ _ => rfl) hev]; rfl
  · rw [ev_field State.nand (fun _ _ _ => rfl) hev]; rfl

theorem tilesFailed_spec : ∀ (l : List Nat) (s : State), (∀ t, t ∈ (l.foldl State.tileFailed s).survey.failed ↔ t ∈ l ∨ t ∈ s.survey.failed) ∧
    (l.foldl State.tileFailed s).survey.s2 = s.survey.s2 ∧ (l.foldl State.tileFailed s).parts = s.parts ∧ (l.foldl State.tileFailed s).mem = s.mem ∧
    (l.foldl State.tileFailed s).tiles = s.tiles ∧ (l.foldl State.tileFailed s).dram = s.dram ∧ (l.foldl State.tileFailed s).nand = s.nand
  | [], s => ⟨fun _ => by simp, rfl, rfl, rfl, rfl, rfl, rfl⟩
  | u :: l, s => by
    obtain ⟨a1, a2, a3, a4, a5, a6⟩ := tileFailed_spec s u
    obtain ⟨b1, b2, b3, b4, b5, b6, b7⟩ := tilesFailed_spec l (s.tileFailed u)
    refine ⟨fun t => ?_, b2.trans (by rw [a1]), b3.trans a2, b4.trans a3, b5.trans a4, b6.trans a5, b7.trans a6⟩
    rw [List.foldl_cons, b1 t, a1]
    simp only [List.mem_cons, List.mem_filter, bne_iff_ne]
    by_cases h : t = u <;> simp [h]

theorem keys_mem {α : Type} (k : Nat) (v : α) (m : NMap α) (h : NMap.find m k = some v) : k ∈ m.keys := List.mem_map.mpr ⟨(k, v), find_mem k v m h, rfl⟩

end Sys2Proof.Machine
end

