-- ==== Sys2Proof/Tests/Slice0.lean ====
section
/-!
SUPPORT. Tests of the model: an ill-formed command for every check of WellFormed, the worked example of a page's size and the check value of CRC-32C,
and for every statement a state and operands that meet its hypotheses (`test_w_<statement>_<clause>`), the paths on which its commands complete among them.
-/
namespace Sys2Proof.Tests

open Sys2Proof Sys2Proof.Machine

set_option Elab.async false

/-! ## WellFormed refuses what lies outside a range -/

/-- The device owner at the sideband mailbox, naming partition 127 and object 5. -/
def own : Ctx := ⟨sidebandSess, 127, 5, none⟩
/-- A descriptor of FP32 elements that lies within its ranges. -/
def dsc : Desc := ⟨1, false, true, 0, 0, 0, 0xFFFFFFFF, 32, 32, 512⟩
/-- A port's carrier. -/
def viaOf (port : Nat) : Via := ⟨port, 0x020000000001, .eth, 0xFFFF, 0, 0x88B5⟩

theorem test_wf_part : (Instr.meridian 128 0).wellFormed = false ∧ (Instr.meridian 127 0).wellFormed = true := by decide
theorem test_wf_tile : (Instr.tileZeroFill 512).wellFormed = false ∧ (Instr.tileZeroFill 511).wellFormed = true := by decide
theorem test_wf_bay : (Instr.podTagWrite 16).wellFormed = false ∧ (Instr.podTagWrite 15).wellFormed = true := by decide
theorem test_wf_link : (Instr.linkLossOfSignal 8).wellFormed = false ∧ (Instr.linkLossOfSignal 7).wellFormed = true := by decide
theorem test_wf_dir : (Instr.leaveNotice 4).wellFormed = false ∧ (Instr.leaveNotice 3).wellFormed = true := by decide
theorem test_wf_port : (Instr.ethLinkDown 4).wellFormed = false ∧ (Instr.ethLinkDown 3).wellFormed = true := by decide
theorem test_wf_via_port : (Instr.arpRequest (viaOf 4) 0).wellFormed = false ∧ (Instr.arpRequest (viaOf 3) 0).wellFormed = true := by decide
theorem test_wf_bank : (Instr.drainComplete 0 2).wellFormed = false ∧ (Instr.drainComplete 0 1).wellFormed = true := by decide
theorem test_wf_reg : (Instr.laneInstruction 0 0 (.reduce 32 0)).wellFormed = false ∧ (Instr.laneInstruction 0 0 (.reduce 31 31)).wellFormed = true := by decide
theorem test_wf_draw : (Instr.randomDraw 0 0 0#64 0 0 0 29).wellFormed = false ∧ (Instr.randomDraw 0 0 0#64 0 0 0 28).wellFormed = true := by decide
theorem test_wf_crew : (Instr.gatherRead 0 32 4 0 0 []).wellFormed = false ∧ (Instr.gatherRead 0 31 4 0 0 []).wellFormed = true := by decide
theorem test_wf_width : (Instr.gatherWrite 0 0 5 0 0).wellFormed = false ∧ (Instr.gatherWrite 0 0 64 0 0).wellFormed = true := by decide
theorem test_wf_rows : (Instr.fill 0 2047 2 0#64).wellFormed = false ∧ (Instr.fill 0 0 0 0#64).wellFormed = false ∧ (Instr.fill 0 2047 1 0#64).wellFormed = true := by decide
theorem test_wf_drain_rows : (Instr.drain 0 0 1 (.rows 2048) []).wellFormed = false ∧ (Instr.drain 0 0 1 (.neighbour 512) []).wellFormed = false := by decide
theorem test_wf_twin_rows : (Instr.twinBind 0 (some 2033)).wellFormed = false ∧ (Instr.twinBind 0 (some 2032)).wellFormed = true := by decide
theorem test_wf_desc : (Instr.matrix [0] { dsc with fmt := 32 } dsc 0 false []).wellFormed = false ∧ (Instr.matrix [0] { dsc with k := 0 } dsc 0 false []).wellFormed = false ∧
    (Instr.matrix [0] dsc dsc 0 false []).wellFormed = true := by decide
theorem test_wf_launch : (Instr.kernelLaunch 0 33 0 [] .code []).wellFormed = false ∧ (Instr.kernelLaunch 0 0 0 [] .code []).wellFormed = false ∧
    (Instr.kernelLaunch 0 32 0 (List.replicate 17 0#32) .code []).wellFormed = false ∧ (Instr.kernelLaunch 0 32 0 [] .code []).wellFormed = true := by decide
theorem test_wf_dma : (Instr.dma 0 ⟨0, .rows 512 0, .dram 0, 1, none⟩ []).wellFormed = false ∧ (Instr.dma 0 ⟨0, .rows 511 2047, .dram 0, 1, none⟩ []).wellFormed = true := by decide
theorem test_wf_kind : (Instr.tableCopyComplete 0 3).wellFormed = false ∧ (Instr.tableCopyComplete 0 2).wellFormed = true := by decide
theorem test_wf_ctx : (Instr.tileBlockReset { own with sess := 0x10001 } 0#32).wellFormed = false ∧ (Instr.tileBlockReset { own with part := 128 } 0#32).wellFormed = false ∧
    (Instr.tileBlockReset { own with handle := 2 ^ 32 } 0#32).wellFormed = false ∧ (Instr.tileBlockReset { own with part := 0xFFFF } 0#32).wellFormed = true := by decide
theorem test_wf_payload : (Instr.openRequest own (List.replicate 4097 0#8)).wellFormed = false ∧ (Instr.openRequest own (List.replicate 4096 0#8)).wellFormed = true := by
  constructor
  · show (okCtx own && decide ((List.replicate 4097 0#8).length ≤ 4096)) = false
    rw [List.length_replicate]; rfl
  · show (okCtx own && decide ((List.replicate 4096 0#8).length ≤ 4096)) = true
    rw [List.length_replicate]; rfl
theorem test_wf_dies : (Instr.refreshRatePoll [0]).wellFormed = false ∧ (Instr.refreshRatePoll (List.replicate 8 0)).wellFormed = true := by decide
theorem test_wf_channels : (Instr.dramCalibration 64 true).wellFormed = false ∧ (Instr.nandChannelFail 16).wellFormed = false := by decide
theorem test_wf_association : (Instr.oldAssociationExpiry 0 2).wellFormed = false ∧ (Instr.oldAssociationExpiry 3 1).wellFormed = true := by decide
theorem test_wf_generation : (Instr.openSession (viaOf 0) own false 4 []).wellFormed = false ∧ (Instr.openSession (viaOf 0) own false 3 []).wellFormed = true := by decide
theorem test_wf_block : (Instr.mfrMboxWr []).wellFormed = false ∧ (Instr.mfrMboxRd 129).wellFormed = false ∧ (Instr.mfrMboxRd 128).wellFormed = true := by decide
theorem test_wf_item : (Instr.surveyS0Complete 4 false 0).wellFormed = false ∧ (Instr.surveyS0Complete 3 false 0).wellFormed = true := by decide

/-- What an answer that is there holds. -/
theorem got {α : Type} {o : Option α} (h : o.isSome = true) : o = some (o.get h) := (Option.some_get h).symm

/-! ## States that the witnesses start from -/

/-- The device runs, and the sideband mailbox has the owner's rights. -/
def run : State := { State.reset with dev := { Dev.start with phase := .running }, regs := [(Blk.at .dev 0 0x300, 0x80000000#32)] }
/-- The device runs with one partition, number 127. -/
def withPart (pt : Part) : State := { run with parts := [(127, pt)] }
/-- A partition of the last quad with two extents and no model. -/
def pt0 : Part := let c := Part.created 0
  { c with quads := [127], dram := [8, 9], nand := [0] }
/-- The device runs with a partition and the last tile in a given state. -/
def withTile (v : Tile) : State := { withPart pt0 with tiles := [(511, v)] }
/-- A tile whose banks hold pairs. -/
def twinTile : Tile := let b := { Bank.cleared with st := .preloaded }
  { Tile.cleared with twin := true, bank0 := b, bank1 := b }
/-- A bank in a state. -/
def bankIn (st : BankSt) : Bank := { Bank.cleared with st := st }
/-- A cartouche of some stages, each with one layer, nothing else set. -/
def cartOf (stages : Nat) : Bytes := ((List.replicate (128 + 128 * stages) 0#8).set 13 (BitVec.ofNat 8 stages)).set 130 1#8
/-- The image of a module that carries a stage of several. -/
def imOf (stages stage : Nat) : Image := { handle := 5, cart := cartOf stages, atlas := [], stage := stage, shard := [] }
/-- A partition with an image. -/
def ptIm (im : Image) : Part := { pt0 with image := some im, mstate := .started }
/-- A step with work, opened at 0. -/
def stepAt (count : Nat) : StepSt := StepSt.opened 0 count 0 (List.replicate 32 0#32) 0
/-- A kernel without a body of its own, at the last entry point. -/
def codeKernel : LaneKernel := { entry := 4095, instrs := 1, crews := 32, regs := 32, args := 16, depth := 1, body := KernelBody.code.kind, emitted := false }
/-- A tile with one resident kernel of one crew, all its lanes active. -/
def laneTile (k : Crew) : Tile := { Tile.cleared with store := [codeKernel], crews := [(31, k)], kernels := [(0, { crews := [31], entry := 0, args := [], body := .code })] }
/-- A crew with every lane active. -/
def crewOn : Crew := { Crew.blank with active := 0xFFFFFFFFFFFFFFFF#64 }
/-- A transfer of one row from the share into the last tile, by its identifier. -/
def dmaJob (id : Nat) : DmaJob := ⟨⟨id, .dram 0, .rows 511 2047, 1, none⟩, none⟩
/-- A tile whose transfer queue is full. -/
def dmaFull : Tile := { Tile.cleared with dmaQ := List.replicate 16 (dmaJob 7) }
/-- A context of the last bay in which an instruction waits. -/
def waits : BayCtx := { BayCtx.atEntry with waiting := [.endStep 127 15] }

/-! ## Hypotheses that are met -/

theorem test_w_MatrixAccumulatesBlock_1 : ∃ (s : State) (ts : List Nat) (a b : Desc) (bank : Nat) (cont : Bool) (k : Nat → Nat), ts ≠ [] ∧ ts.length ≤ 32 ∧ ts.Nodup ∧ ((∀ t ∈ ts, s.tileClear t ∧ bayOf t = bayOf (ts.headD 0) ∧ s.owner t = s.owner (ts.headD 0) ∧ (s.tile t).matrixQ = [] ∧ (s.tile t).nextBank (matrixOp a b bank cont []) = some (k t) ∧ s.podTrouble t a b 0 0 = none)) ∧ matrixOk a b = true ∧ bank < 2 ∧ a.extent ≤ 32 ∧ b.extent ≤ 32 :=
  ⟨withTile Tile.cleared, [511], dsc, dsc, 0, false, fun _ => 0, by decide, by decide, by decide, fun t h => by cases List.mem_singleton.mp h; exact ⟨⟨rfl, rfl, rfl, rfl⟩, rfl, rfl, rfl, rfl, by decide +kernel⟩, rfl, by decide, by rfl, by rfl⟩

theorem test_w_MatrixAccumulatesBlock_2 : ∃ (s : State) (t : Nat) (a b : Desc) (bank k : Nat) (cont : Bool), s.tileClear t ∧ matrixOk a b = true ∧ bank < 2 ∧ (s.tile t).matrixQ = [] ∧ (s.tile t).nextBank (matrixOp a b bank cont []) = some k ∧ s.podTrouble t a b 0 0 = none ∧ (32 < a.extent ∨ 32 < b.extent) ∧ ((((s.tile t).bank (1 - k)).st = .ready ∨ ((s.tile t).bank (1 - k)).st = .drain)) ∧ cont = false :=
  ⟨withTile { Tile.cleared with bank1 := bankIn .ready }, 511, { dsc with extent := 64 }, dsc, 0, 0, false, ⟨rfl, rfl, rfl, rfl⟩, rfl, by decide, rfl, rfl, rfl, by decide +kernel, .inl (by decide), rfl⟩

theorem test_w_MatrixAccumulatesBlock_3 : ∃ (s : State) (ts : List Nat) (a b : Desc) (bank : Nat) (cont : Bool) (env : List Strike), s.matrixTiles ts = true ∧ matrixOk a b = true ∧ bank < 2 ∧ ((∃ t ∈ ts, 16 ≤ (s.tile t).matrixQ.length)) :=
  ⟨withTile { Tile.cleared with matrixQ := List.replicate 16 (matrixOp dsc dsc 0 false []) }, [511], dsc, dsc, 1, true, [], rfl, rfl, by decide, by decide⟩

theorem test_w_DrainWritesOrAdds_1 : ∃ (s : State) (t k fmt r : Nat), s.tileClear t ∧ k < 2 ∧ (s.tile t).twin = false ∧ ((s.tile t).bank k).st = .ready ∧ drainFmtOk (s.tile t) k fmt = true ∧ r + drainRows fmt ≤ 2048 :=
  ⟨withTile { Tile.cleared with bank1 := bankIn .ready }, 511, 1, 1, 2040, ⟨rfl, rfl, rfl, rfl⟩, by decide, rfl, rfl, rfl, by rfl⟩

theorem test_w_DrainWritesOrAdds_2 : ∃ (s : State) (t k fmt r : Nat), s.tileClear t ∧ k < 2 ∧ (s.tile t).twinReady = true ∧ fmt < 3 ∧ r + drainRows fmt ≤ 2048 :=
  ⟨withTile twinTile, 511, 1, 0, 2032, ⟨rfl, rfl, rfl, rfl⟩, by decide, rfl, by decide, by rfl⟩

theorem test_w_DrainWritesOrAdds_3 : ∃ (s : State) (t k fmt : Nat) (dst : DrainDst) (env : List Strike), s.tileWorks t = true ∧ k < 2 ∧ fmt ∈ [0, 1, 2, 3, 24] ∧ s.drainDstOk t fmt dst = true ∧ s.drainWaits t k dst = true :=
  ⟨withTile { Tile.cleared with bank1 := bankIn .ready }, 511, 1, 1, .neighbour 510, [], rfl, by decide, by decide, rfl, rfl⟩

theorem test_w_DrainWritesOrAdds_4 : ∃ (s : State) (t k : Nat), k < 2 ∧ ((s.tile t).bank k).st = .drain :=
  ⟨withTile { Tile.cleared with bank1 := bankIn .drain }, 511, 1, by decide, rfl⟩

theorem test_w_DrainWritesOrAdds_4z : ∃ (s : State) (t k : Nat), k < 2 ∧ ((s.tile t).bank k).st = .drain :=
  ⟨withTile { twinTile with bank0 := bankIn .drain, bank1 := bankIn .drain }, 511, 0, by decide, rfl⟩

theorem test_w_DrainWritesOrAdds_5 : ∃ (s : State) (t u k j fmt : Nat), s.tileClear t ∧ s.tileWorks u = true ∧ u / 4 = t / 4 ∧ u ≠ t ∧ k < 2 ∧ s.drainWaits t k (.neighbour u) = false ∧ (s.tile u).readyBank = some j ∧ fmt ∈ [0, 1, 2, 3, 24] ∧ drainFmtOk (s.tile t) k fmt = true :=
  ⟨{ withPart pt0 with tiles := [(510, { Tile.cleared with bank0 := bankIn .ready }), (511, { Tile.cleared with bank1 := bankIn .ready })] }, 511, 510, 1, 0, 1, ⟨rfl, rfl, rfl, rfl⟩, rfl, rfl, by decide, by decide, rfl, rfl, by decide, rfl⟩

theorem test_w_BanksAreFilled_1 : ∃ (s : State) (t k r : Nat) (int : Bool), s.tileClear t ∧ k < 2 ∧ (s.tile t).twin = false ∧ ((s.tile t).bank k).st = .empty ∧ r + 8 ≤ 2048 :=
  ⟨withTile Tile.cleared, 511, 1, 2040, true, ⟨rfl, rfl, rfl, rfl⟩, by decide, rfl, rfl, by rfl⟩

theorem test_w_BanksAreFilled_2 : ∃ (s : State) (t k r : Nat) (int : Bool), s.tileWorks t = true ∧ k < 2 ∧ r + 8 ≤ 2048 ∧ s.preloadWaits t k = true :=
  ⟨withTile { Tile.cleared with bank1 := bankIn .ready }, 511, 1, 2040, true, rfl, by decide, by rfl, rfl⟩

theorem test_w_BanksAreFilled_3 : ∃ (s : State) (t : Nat) (src : Option Nat), s.tileClear t ∧ (s.tile t).bank0.st = .empty ∧ (s.tile t).bank1.st = .empty ∧ ((∀ r, src = some r → r + 16 ≤ 2048)) :=
  ⟨withTile Tile.cleared, 511, some 2032, ⟨rfl, rfl, rfl, rfl⟩, rfl, rfl, fun r h => by cases h; decide⟩

theorem test_w_BanksAreFilled_3z : ∃ (s : State) (t : Nat) (src : Option Nat), s.tileClear t ∧ (s.tile t).bank0.st = .empty ∧ (s.tile t).bank1.st = .empty ∧ ((∀ r, src = some r → r + 16 ≤ 2048)) :=
  ⟨withTile Tile.cleared, 511, none, ⟨rfl, rfl, rfl, rfl⟩, rfl, rfl, fun r h => nomatch h⟩

theorem test_w_BanksAreFilled_4 : ∃ (s : State) (t : Nat) (src : Option Nat), s.tileWorks t = true ∧ ((∀ r, src = some r → r + 16 ≤ 2048)) ∧ s.bindWaits t = true :=
  ⟨withTile { Tile.cleared with bank1 := bankIn .ready }, 511, some 2032, rfl, fun r h => by cases h; decide, rfl⟩

theorem test_w_BanksAreFilled_5 : ∃ (s : State) (t r : Nat), s.tileClear t ∧ (s.tile t).twinReady = true ∧ r + 16 ≤ 2048 :=
  ⟨withTile twinTile, 511, 2032, ⟨rfl, rfl, rfl, rfl⟩, rfl, by rfl⟩

theorem test_w_BanksAreFilled_6 : ∃ (s : State) (t : Nat), s.tileClear t ∧ (s.tile t).twin = true ∧ (s.tile t).bank0.st = .empty ∧ (s.tile t).bank1.st = .empty :=
  ⟨withTile { Tile.cleared with twin := true }, 511, ⟨rfl, rfl, rfl, rfl⟩, rfl, rfl, rfl⟩

theorem test_w_TwinOperations_1 : ∃ (s : State) (t r : Nat), s.tileClear t ∧ (s.tile t).twinReady = true ∧ r + 8 ≤ 2048 :=
  ⟨withTile twinTile, 511, 2040, ⟨rfl, rfl, rfl, rfl⟩, rfl, by rfl⟩

theorem test_w_TwinOperations_2 : ∃ (s : State) (t : Nat) (a b : Desc) (bi bj sl : Nat), s.tileClear t ∧ (s.tile t).twinReady = true ∧ twinSrcOk (.slice a b bi bj sl) = true ∧ s.podTrouble t a b bi bj = none :=
  ⟨withTile twinTile, 511, dsc, dsc, 0, 0, 0, ⟨rfl, rfl, rfl, rfl⟩, rfl, rfl, by decide +kernel⟩

theorem test_w_TwinOperations_3 : ∃ (s : State) (t r : Nat), s.tileClear t ∧ (s.tile t).twinReady = true ∧ r + 8 ≤ 2048 :=
  ⟨withTile twinTile, 511, 2040, ⟨rfl, rfl, rfl, rfl⟩, rfl, by rfl⟩

theorem test_w_TwinOperations_4 : ∃ (s : State) (t r : Nat), s.tileClear t ∧ (s.tile t).twinReady = true ∧ r + 8 ≤ 2048 :=
  ⟨withTile twinTile, 511, 2040, ⟨rfl, rfl, rfl, rfl⟩, rfl, by rfl⟩

theorem test_w_TwinOperations_5 : ∃ (s : State) (t r : Nat), s.tileWorks t = true ∧ (s.tile t).twinReady = false ∧ r + 8 ≤ 2048 :=
  ⟨withTile Tile.cleared, 511, 2040, rfl, rfl, by decide⟩

/-- A chunk of one position. -/
def chunk0 : Chunk := { index := 0, positions := 1, marks := [], final := false, data := [], arrived := 0 }
/-- A bound stream with that chunk. -/
def strm0 : Strm := { (default : Strm) with st := .bound, tiles := [511], current := some chunk0 }
/-- A step of that stream's partition, its pairs in a tile. -/
def commitAt (v : Tile) : State := { withTile v with parts := [(127, { ptIm (imOf 1 0) with streams := [(5, strm0)], step := some (stepAt 1) })] }

theorem test_w_StreamCommitAdvances_1 : ∃ (s : State) (p handle slot t : Nat) (planes : List (DmaEnd × DmaEnd)) (pt : Part) (v : Strm) (im : Image) (stp : StepSt) (ch : Chunk) (ps : List (List Word × List Word)), s.part p = some pt ∧ NMap.find pt.streams handle = some v ∧ pt.image = some im ∧ pt.step = some stp ∧ v.current = some ch ∧ v.tiles[slot]? = some t ∧ v.st = .bound ∧ slot ∉ v.committed ∧ (s.tile t).twinReady = true ∧ s.waitsIn p (bayOf t) = false ∧ s.stepFailed p = false ∧ planes.length = ch.positions ∧ ((∀ r ∈ planes, planeOk t pt r.1 = true ∧ planeOk t pt r.2 = true)) ∧ (s.readPlanes p t pt planes).2 = some ps :=
  ⟨commitAt twinTile, 127, 5, 0, 511, [(.rows 511 2040, .rows 511 2040)], _, _, _, _, _, _, rfl, rfl, rfl, rfl, rfl, rfl, rfl, by decide, rfl, rfl, rfl, rfl, fun r h => by cases List.mem_singleton.mp h; decide, rfl⟩

theorem test_w_StreamCommitAdvances_2 : ∃ (s : State) (p t : Nat) (pt : Part) (rows : List (Nat × Nat)), (s.tile t).bad = [] ∧ ((∀ r ∈ rows, r.1 + 8 ≤ 2048 ∧ r.2 + 8 ≤ 2048)) :=
  ⟨withTile Tile.cleared, 127, 511, pt0, [(2040, 2040)], rfl, fun r h => by cases List.mem_singleton.mp h; decide⟩

theorem test_w_StreamCommitAdvances_3 : ∃ (s : State) (p handle slot t : Nat) (planes : List (DmaEnd × DmaEnd)) (env : List Strike) (pt : Part) (v : Strm) (ch : Chunk), s.part p = some pt ∧ NMap.find pt.streams handle = some v ∧ pt.step.isSome = true ∧ v.current = some ch ∧ v.tiles[slot]? = some t ∧ v.st = .bound ∧ slot ∉ v.committed ∧ (s.tile t).twinReady = false ∧ planes.length = ch.positions ∧ ((∀ r ∈ planes, planeOk t pt r.1 = true ∧ planeOk t pt r.2 = true)) :=
  ⟨commitAt Tile.cleared, 127, 5, 0, 511, [(.rows 511 2040, .rows 511 2040)], [], _, _, _, rfl, rfl, rfl, rfl, rfl, rfl, by decide, rfl, rfl, fun r h => by cases List.mem_singleton.mp h; decide⟩

theorem test_w_KernelsLaunchAndEnd_1 : ∃ (s : State) (t n entry : Nat) (args : List Word) (body : KernelBody), s.tileClear t ∧ 1 ≤ n ∧ n ≤ 32 ∧ args.length ≤ 16 ∧ KernelBody.ok body = true ∧ (s.tile t).holdsKernel entry n args.length body.kind = true ∧ (s.tile t).launchQ = [] ∧ (s.tile t).canLaunch n = true :=
  ⟨withTile { Tile.cleared with store := [codeKernel] }, 511, 32, 4095, [], .code, ⟨rfl, rfl, rfl, rfl⟩, by decide, by rfl, by decide, rfl, rfl, rfl, rfl⟩

theorem test_w_KernelsLaunchAndEnd_2 : ∃ (s : State) (t n entry : Nat) (args : List Word) (body : KernelBody), s.tileClear t ∧ 1 ≤ n ∧ n ≤ 32 ∧ args.length ≤ 16 ∧ KernelBody.ok body = true ∧ (s.tile t).holdsKernel entry n args.length body.kind = true ∧ (s.tile t).launchQ = [] ∧ (s.tile t).canLaunch n = false :=
  ⟨withTile (laneTile crewOn), 511, 32, 4095, [], .code, ⟨rfl, rfl, rfl, rfl⟩, by decide, by rfl, by decide, rfl, rfl, rfl, rfl⟩

theorem test_w_KernelsLaunchAndEnd_3 : ∃ (s : State) (t n entry : Nat) (args : List Word) (body : KernelBody) (env : List Strike), s.tileWorks t = true ∧ 1 ≤ n ∧ n ≤ 32 ∧ args.length ≤ 16 ∧ KernelBody.ok body = true ∧ (s.tile t).holdsKernel entry n args.length body.kind = true ∧ 16 ≤ (s.tile t).launchQ.length :=
  ⟨withTile { laneTile crewOn with launchQ := List.replicate 16 (launchOp 511 1 4095 [] .code []) }, 511, 32, 4095, [], .code, [], rfl, by decide, by rfl, by decide, rfl, rfl, by rfl⟩

theorem test_w_KernelsLaunchAndEnd_4 : ∃ (s : State) (t k : Nat), (NMap.find (s.tile t).kernels k).isSome = true :=
  ⟨withTile (laneTile crewOn), 511, 0, rfl⟩

theorem test_w_LaneInstructionsAct_1 : ∃ (s : State) (t crew : Nat) (op : LaneOp) (d : Nat) (f : Crew → Nat → Word), s.crewReady t crew = true ∧ laneOpOk op = true ∧ (((∃ o a b c, op = .f32 o d a b c ∧ f = fun k l => laneF32 o (k.get l a) (k.get l b) (k.get l c)) ∨ (∃ o sat a b c, op = .i32 o sat d a b c ∧ f = fun k l => laneI32 o sat (k.get l a) (k.get l b) (k.get l c)) ∨ (∃ pf o sat a b c, op = .packed pf o sat d a b c ∧ f = fun k l => ofHalves (laneHalf pf o sat (half (k.get l a) 0) (half (k.get l b) 0) (half (k.get l c) 0)) (laneHalf pf o sat (half (k.get l a) 1) (half (k.get l b) 1) (half (k.get l c) 1))) ∨ (∃ a b, op = .logic .and d a b ∧ f = fun k l => k.get l a &&& k.get l b) ∨ (∃ a b, op = .logic .or d a b ∧ f = fun k l => k.get l a ||| k.get l b) ∨ (∃ a b, op = .logic .xor d a b ∧ f = fun k l => k.get l a ^^^ k.get l b) ∨ (∃ a b, op = .logic .not d a b ∧ f = fun k l => ~~~ (k.get l a)) ∨ (∃ left arith a b, op = .shift left arith false d a b ∧ f = fun k l => BitVec.ofNat 32 (shiftBits 32 left arith (k.get l a).toNat (k.get l b).toNat)) ∨ (∃ left arith a b, op = .shift left arith true d a b ∧ f = fun k l => ofHalves (shiftBits 16 left arith (half (k.get l a) 0) (half (k.get l b) 0)) (shiftBits 16 left arith (half (k.get l a) 1) (half (k.get l b) 1))) ∨ (∃ ty rel a b, op = .cmp ty rel d a b ∧ f = fun k l => cmpResult (laneCmp ty rel (k.get l a) (k.get l b))) ∨ (∃ c a b, op = .select d c a b ∧ f = fun k l => if k.get l c = 0#32 then k.get l b else k.get l a) ∨ (∃ sf df m a, op = .convert sf df m d a ∧ f = fun k l => BitVec.ofNat 32 (codeOfValue df m (valueOfCode sf (k.get l a).toNat))) ∨ (∃ a i, op = .shuffle d a i ∧ f = fun k l => k.get ((k.get l i).toNat % 64) a))) :=
  ⟨withTile (laneTile crewOn), 511, 31, .f32 .fma 31 0 1 2, 31, fun k l => laneF32 .fma (k.get l 0) (k.get l 1) (k.get l 2), rfl, rfl, .inl ⟨.fma, 0, 1, 2, rfl, rfl⟩⟩

theorem test_w_LaneInstructionsAct_2 : ∃ (s : State) (t crew c : Nat), s.crewReady t crew = true ∧ c < 32 ∧ ((s.tile t).crew crew).paths.length < 16 :=
  ⟨withTile (laneTile crewOn), 511, 31, 31, rfl, by decide, by decide⟩

theorem test_w_LaneInstructionsAct_3 : ∃ (s : State) (t crew : Nat) (m o : Dword) (ps : List (Dword × Dword)), s.crewReady t crew = true ∧ ((s.tile t).crew crew).paths = (m, o) :: ps :=
  ⟨withTile (laneTile { crewOn with paths := [(1#64, 2#64)], loops := [2] }), 511, 31, 1#64, 2#64, [], rfl, rfl⟩

theorem test_w_LaneInstructionsAct_4 : ∃ (s : State) (t crew : Nat) (m o : Dword) (ps : List (Dword × Dword)), s.crewReady t crew = true ∧ ((s.tile t).crew crew).paths = (m, o) :: ps :=
  ⟨withTile (laneTile { crewOn with paths := [(1#64, 2#64)], loops := [2] }), 511, 31, 1#64, 2#64, [], rfl, rfl⟩

theorem test_w_LaneInstructionsAct_5 : ∃ (s : State) (t crew c : Nat), s.crewReady t crew = true ∧ c < 32 :=
  ⟨withTile (laneTile { crewOn with paths := [(1#64, 2#64)], loops := [2] }), 511, 31, 31, rfl, by decide⟩

theorem test_w_LaneInstructionsAct_6 : ∃ (s : State) (t crew n : Nat) (ns : List Nat), s.crewReady t crew = true ∧ ((s.tile t).crew crew).loops = n :: ns :=
  ⟨withTile (laneTile { crewOn with paths := [(1#64, 2#64)], loops := [2] }), 511, 31, 2, [], rfl, rfl⟩

theorem test_w_LaneInstructionsAct_7 : ∃ (s : State) (t crew d a : Nat), s.crewReady t crew = true ∧ d < 32 ∧ a < 32 :=
  ⟨withTile (laneTile crewOn), 511, 31, 31, 31, rfl, by decide, by decide⟩

theorem test_w_LaneInstructionsAct_8 : ∃ (s : State) (t crew level d a : Nat), s.crewReady t crew = true ∧ level < 6 ∧ d < 32 ∧ a < 32 :=
  ⟨withTile (laneTile crewOn), 511, 31, 5, 31, 31, rfl, by decide, by decide, by decide⟩

theorem test_w_GatherAndLaneUnits_1 : ∃ (s : State) (t crew width addr d : Nat), s.crewReady t crew = true ∧ s.tileClear t ∧ gatherWidth width = true ∧ addr < 32 ∧ d + width / 4 ≤ 32 :=
  ⟨withTile (laneTile crewOn), 511, 31, 64, 31, 16, rfl, ⟨rfl, rfl, rfl, rfl⟩, rfl, by decide, by rfl⟩

theorem test_w_GatherAndLaneUnits_2 : ∃ (s : State) (t crew width addr a : Nat), s.crewReady t crew = true ∧ s.tileClear t ∧ gatherWidth width = true ∧ addr < 32 ∧ a + width / 4 ≤ 32 :=
  ⟨withTile (laneTile crewOn), 511, 31, 64, 31, 16, rfl, ⟨rfl, rfl, rfl, rfl⟩, rfl, by decide, by rfl⟩

theorem test_w_GatherAndLaneUnits_3 : ∃ (s : State) (t crew width slot idx d : Nat), s.crewReady t crew = true ∧ ((width = 8 ∨ width = 16 ∨ width = 32)) ∧ slot < 8 ∧ idx < 32 ∧ d < 32 :=
  ⟨withTile (laneTile crewOn), 511, 31, 32, 7, 31, 31, rfl, by decide, by decide, by decide, by decide⟩

theorem test_w_GatherAndLaneUnits_4 : ∃ (s : State) (t crew fn inFmt out d a b : Nat) (upper rotary : Bool), s.crewReady t crew = true ∧ s.stepFailed (s.owner t) = false ∧ fn < 16 ∧ 1 ≤ inFmt ∧ inFmt ≤ 3 ∧ 1 ≤ out ∧ out ≤ 3 ∧ d < 32 ∧ a < 32 ∧ b < 32 ∧ ((rotary = true → fn = 14 ∨ fn = 15)) :=
  ⟨withTile (laneTile crewOn), 511, 31, 15, 3, 3, 31, 31, 31, false, true, rfl, rfl, by decide, by decide, by rfl, by decide, by rfl, by decide, by decide, by decide, by decide⟩

theorem test_w_GatherAndLaneUnits_5 : ∃ (s : State) (t crew pos draw beam d : Nat) (seed : Dword), s.crewReady t crew = true ∧ d + 4 ≤ 32 :=
  ⟨withTile (laneTile crewOn), 511, 31, 0, 0, 0, 28, 0#64, rfl, by rfl⟩

theorem test_w_SfuRowOperation_1 : ∃ (s : State) (t fn inFmt outFmt src dst : Nat), s.tileClear t ∧ fn < 16 ∧ 1 ≤ inFmt ∧ inFmt ≤ 3 ∧ 1 ≤ outFmt ∧ outFmt ≤ 3 ∧ elemBits inFmt = elemBits outFmt ∧ src < 2048 ∧ dst < 2048 :=
  ⟨withTile Tile.cleared, 511, 15, 1, 1, 2047, 2047, ⟨rfl, rfl, rfl, rfl⟩, by decide, by rfl, by decide, by rfl, by decide, rfl, by decide, by decide⟩

theorem test_w_RowsFilledCopiedAndMoved_1 : ∃ (s : State) (t row count : Nat) (c : Dword), s.tileClear t ∧ (s.tile t).dmaQ.length < 16 ∧ 1 ≤ count ∧ row + count ≤ 2048 :=
  ⟨withTile Tile.cleared, 511, 2047, 1, 0#64, ⟨rfl, rfl, rfl, rfl⟩, by decide, by rfl, by rfl⟩

theorem test_w_RowsFilledCopiedAndMoved_2 : ∃ (s : State) (t src dst count : Nat), s.tileClear t ∧ (s.tile t).dmaQ.length < 16 ∧ 1 ≤ count ∧ src + count ≤ 2048 ∧ dst + count ≤ 2048 :=
  ⟨withTile Tile.cleared, 511, 0, 1024, 1024, ⟨rfl, rfl, rfl, rfl⟩, by decide, by decide, by decide, by rfl⟩

theorem test_w_RowsFilledCopiedAndMoved_3 : ∃ (s : State) (t r q count : Nat) (c : Dword) (env : List Strike), s.tileWorks t = true ∧ 16 ≤ (s.tile t).dmaQ.length ∧ 1 ≤ count ∧ r + count ≤ 2048 ∧ q + count ≤ 2048 :=
  ⟨withTile dmaFull, 511, 0, 1024, 1024, 0#64, [], rfl, by rfl, by decide, by decide, by rfl⟩

theorem test_w_RowsFilledCopiedAndMoved_4 : ∃ (s : State) (t id u r v q n : Nat) (pt : Part), s.tileClear t ∧ s.part (s.owner t) = some pt ∧ (s.tile t).dmaQ.length < 16 ∧ s.tileWorks u = true ∧ s.tileWorks v = true ∧ u / 4 = t / 4 ∧ v / 4 = t / 4 ∧ ((u = t ∨ v = t)) ∧ (s.tile u).bad = [] ∧ 1 ≤ n ∧ r + n ≤ 2048 ∧ q + n ≤ 2048 ∧ ((∀ o ∈ (s.tile t).dmaQ, o.op.id ≠ id)) :=
  ⟨withTile Tile.cleared, 511, 1, 510, 0, 511, 1024, 1024, _, ⟨rfl, rfl, rfl, rfl⟩, rfl, by decide, rfl, rfl, rfl, rfl, by decide, rfl, by decide, by decide, by rfl, fun o h => (by cases h)⟩

/-- What the end of that transfer reads. -/
def dmaRead : State × Option Bytes :=
  State.endRead ((withTile Tile.cleared).modTile 511 (fun v => { v with dmaQ := v.dmaQ ++ [dmaJob 1] })) ((withTile Tile.cleared).owner 511) 511 pt0 (.dram 0) 0 (512 * 1)
theorem dmaRead_some : dmaRead.2 = some (dmaRead.2.getD []) := by
  have h : dmaRead.2.isSome = true := by decide +kernel
  cases hx : dmaRead.2 with
  | none => rw [hx] at h; exact absurd h (by decide)
  | some b => rfl

theorem test_w_RowsFilledCopiedAndMoved_5 : ∃ (s s1 : State) (t : Nat) (op : DmaOp) (bs : Bytes) (pt : Part), s.tileClear t ∧ s.part (s.owner t) = some pt ∧ (s.tile t).dmaQ.length < 16 ∧ s.dmaOk t pt op = true ∧ op.pods = none ∧ (s.modTile t (fun v => { v with dmaQ := v.dmaQ ++ [{ op := op, cause := none }] })).endRead (s.owner t) t pt op.src 0 (512 * op.rows) = (s1, some bs) :=
  ⟨withTile Tile.cleared, dmaRead.1, 511, (dmaJob 1).op, dmaRead.2.getD [], pt0, ⟨rfl, rfl, rfl, rfl⟩, rfl, by decide, rfl, rfl, by show dmaRead = _; exact Prod.ext rfl dmaRead_some⟩

theorem test_w_RowsFilledCopiedAndMoved_6 : ∃ (s : State) (t : Nat) (op : DmaOp) (env : List Strike) (pt : Part), s.tileWorks t = true ∧ s.part (s.owner t) = some pt ∧ s.dmaOk t pt op = true ∧ 16 ≤ (s.tile t).dmaQ.length :=
  ⟨withTile dmaFull, 511, (dmaJob 1).op, [], _, rfl, rfl, rfl, by rfl⟩

theorem test_w_RowsFilledCopiedAndMoved_7 : ∃ (s : State) (t id now : Nat), ((∃ q ∈ (s.tile t).dmaQ, q.op.id = id)) :=
  ⟨withTile dmaFull, 511, 7, 1000, ⟨dmaJob 7, by decide, rfl⟩⟩

theorem test_w_RowsScrubbedAndCleared_1 : ∃ (s : State) (t : Nat), t < 512 :=
  ⟨withTile Tile.cleared, 511, by decide⟩

theorem test_w_RowsScrubbedAndCleared_2 : ∃ (s : State) (t p w : Nat), t < 512 ∧ s.ownerOf t = some p ∧ w < 64 ∧ (s.tile t).bad = [(64 * (s.tile t).scrubPtr + w, false)] :=
  ⟨withTile { Tile.cleared with scrubPtr := 2047, bad := [(64 * 2047 + 63, false)] }, 511, 127, 63, by decide, rfl, by decide, rfl⟩

theorem test_w_RowsScrubbedAndCleared_3 : ∃ (s : State) (t : Nat), t < 512 ∧ ((s.ownerOf t = none ∨ s.tileOut t = true ∨ ∃ p pt, s.ownerOf t = some p ∧ s.part p = some pt ∧ pt.clearing = true)) :=
  ⟨run, 511, by decide, .inl rfl⟩

theorem test_w_RowsScrubbedAndCleared_3z : ∃ (s : State) (t : Nat), t < 512 ∧ ((s.ownerOf t = none ∨ s.tileOut t = true ∨ ∃ p pt, s.ownerOf t = some p ∧ s.part p = some pt ∧ pt.clearing = true)) :=
  ⟨withPart { pt0 with resetting := some (own, false) }, 511, by decide, .inr (.inr ⟨127, _, rfl, rfl, rfl⟩)⟩

theorem test_w_PodsAndTablesAreStored_1 : ∃ (s : State) (t row pod : Nat) (dst tag : DmaEnd) (hb : Bytes) (pt : Part), s.tileClear t ∧ s.part (s.owner t) = some pt ∧ (s.tile t).dmaQ.length < 16 ∧ row + 8 ≤ 2048 ∧ s.storeDst t pt true 8 dst = true ∧ s.storeDst t pt false ((20 + 4 * pod + 511) / 512) tag = true ∧ ((∀ e ∈ s.pods, ∀ q ∈ e.2, q.part = s.owner t → q.dst ≠ dst)) ∧ s.endRead (s.owner t) t pt tag 0 16 = (s, some hb) :=
  ⟨withTile Tile.cleared, 511, 2040, 0, .rows 511 0, .rows 511 8, _, _, ⟨rfl, rfl, rfl, rfl⟩, rfl, by decide, by rfl, rfl, rfl, fun e h => (by cases h), rfl⟩

theorem test_w_PodsAndTablesAreStored_2 : ∃ (s : State) (t row u r w q pod : Nat) (pt : Part), s.tileClear t ∧ s.part (s.owner t) = some pt ∧ (s.tile t).dmaQ.length < 16 ∧ row + 8 ≤ 2048 ∧ s.storeDst t pt true 8 (.rows u r) = true ∧ s.storeDst t pt false ((20 + 4 * pod + 511) / 512) (.rows w q) = true ∧ (s.tile w).bad = [] ∧ ((∀ e ∈ s.pods, ∀ q ∈ e.2, q.part = s.owner t → q.dst ≠ .rows u r)) :=
  ⟨withTile Tile.cleared, 511, 2040, 510, 0, 510, 8, 0, _, ⟨rfl, rfl, rfl, rfl⟩, rfl, by decide, by rfl, rfl, rfl, rfl, fun e h => (by cases h)⟩

theorem test_w_PodsAndTablesAreStored_3 : ∃ (s : State) (t row pod : Nat) (dst tag : DmaEnd) (pt : Part), s.tileClear t ∧ s.part (s.owner t) = some pt ∧ (s.tile t).dmaQ.length < 16 ∧ row + 8 ≤ 2048 ∧ s.storeDst t pt true 8 dst = true ∧ s.storeDst t pt false ((20 + 4 * pod + 511) / 512) tag = true ∧ ((∃ e ∈ s.pods, ∃ q ∈ e.2, q.part = s.owner t ∧ q.dst = dst)) :=
  ⟨{ withTile Tile.cleared with pods := [(15, [⟨127, 511, 0, .rows 511 8, .rows 511 0, 0, false, 0#32⟩])] }, 511, 2040, 0, .rows 511 8, .rows 511 0, _, ⟨rfl, rfl, rfl, rfl⟩, rfl, by decide, by rfl, rfl, rfl, by decide⟩

theorem test_w_PodsAndTablesAreStored_4 : ∃ (s : State) (t row pod : Nat) (dst tag : DmaEnd) (env : List Strike) (pt : Part), s.tileWorks t = true ∧ s.part (s.owner t) = some pt ∧ 16 ≤ (s.tile t).dmaQ.length ∧ row + 8 ≤ 2048 ∧ s.storeDst t pt true 8 dst = true ∧ s.storeDst t pt false ((20 + 4 * pod + 511) / 512) tag = true :=
  ⟨withTile dmaFull, 511, 2040, 0, .rows 511 8, .rows 511 0, [], _, rfl, rfl, by rfl, by rfl, rfl, rfl⟩

theorem test_w_PodsAndTablesAreStored_5 : ∃ (s : State) (bay u r : Nat) (q : PodStore) (pt : Part), (s.bayStores bay).find? (fun q => !q.held) = some q ∧ s.part q.part = some pt ∧ q.tag = .rows u r ∧ 512 * r + 16 + 4 * q.pod < 2 ^ 20 ∧ ((∀ e ∈ s.pods, ∀ h ∈ e.2, h.held = false)) :=
  ⟨{ withTile Tile.cleared with pods := [(15, [⟨127, 511, 0, .rows 511 8, .rows 511 0, 0, false, 0#32⟩])] }, 15, 511, 0, ⟨127, 511, 0, .rows 511 8, .rows 511 0, 0, false, 0#32⟩, _, rfl, rfl, rfl, by decide, fun e h q hq => by cases List.mem_singleton.mp h; cases List.mem_singleton.mp hq; rfl⟩

theorem test_w_PodsAndTablesAreStored_6 : ∃ (s : State) (t src : Nat) (op : LoadOp) (pt : Part), s.tileClear t ∧ s.part (s.owner t) = some pt ∧ LoadOp.ok op = true ∧ src + op.rows ≤ 2048 ∧ op.quad.all (fun q => pt.quads.contains q) = true ∧ pt.load = none ∧ pt.loadQ = [] ∧ pt.copying.getD op.kind false = false ∧ 
    (namesActive (LoadOp.bank ⟨0, 0, 0, 1, 0, true, some 127⟩) (pt0.activeBank 0) = false) :=
  ⟨withTile Tile.cleared, 511, 2047, ⟨0, 0, 0, 1, 0, true, some 127⟩, _, ⟨rfl, rfl, rfl, rfl⟩, rfl, rfl, by rfl, rfl, rfl, rfl, rfl, rfl⟩

theorem test_w_PodsAndTablesAreStored_6z : ∃ (s : State) (t src : Nat) (op : LoadOp) (pt : Part), s.tileClear t ∧ s.part (s.owner t) = some pt ∧ LoadOp.ok op = true ∧ src + op.rows ≤ 2048 ∧ op.quad.all (fun q => pt.quads.contains q) = true ∧ pt.load = none ∧ pt.loadQ = [] ∧ pt.copying.getD op.kind false = false ∧ 
    (namesActive (LoadOp.bank ⟨0, 0, 0, 1, 2, true, some 127⟩) (pt0.activeBank 0) = true) :=
  ⟨withTile Tile.cleared, 511, 2047, ⟨0, 0, 0, 1, 2, true, some 127⟩, _, ⟨rfl, rfl, rfl, rfl⟩, rfl, rfl, by rfl, rfl, rfl, rfl, rfl, rfl⟩

theorem test_w_PodsAndTablesAreStored_7 : ∃ (s : State) (t src : Nat) (op : LoadOp) (pt : Part) (j : LoadJob), s.tileClear t ∧ s.part (s.owner t) = some pt ∧ LoadOp.ok op = true ∧ src + op.rows ≤ 2048 ∧ op.quad.all (fun q => pt.quads.contains q) = true ∧ pt.load = some j :=
  ⟨{ withTile Tile.cleared with parts := [(127, { pt0 with load := some ⟨⟨0, 0, 0, 1, 0, true, some 127⟩, List.replicate 512 0#8, none⟩ })] }, 511, 2047, ⟨0, 0, 0, 1, 3, true, some 127⟩, _, _, ⟨rfl, rfl, rfl, rfl⟩, rfl, rfl, by rfl, rfl, rfl⟩

theorem test_w_PodsAndTablesAreStored_8 : ∃ (s : State) (p : Nat) (pt : Part) (j : LoadJob), s.part p = some pt ∧ pt.load = some j ∧ j.rows.length = 512 * j.op.rows :=
  ⟨withPart { pt0 with load := some ⟨⟨0, 0, 0, 1, 0, true, some 127⟩, List.replicate 512 0#8, none⟩ }, 127, _, _, rfl, rfl, List.length_replicate⟩

theorem test_w_PodsAndTablesAreStored_9 : ∃ (s : State) (p kind : Nat) (pt : Part), s.part p = some pt ∧ kind < 3 ∧ pt.copying.getD kind false = true :=
  ⟨withPart { pt0 with copying := [false, false, true] }, 127, 2, _, rfl, by decide, rfl⟩

theorem test_w_LinksCarryRows_1 : ∃ (s : State) (t dir row count width : Nat) (cls : LClass) (fp32 : Bool), s.tileClear t ∧ ((cls = .ring ∨ cls = .collective)) ∧ ((dir < 4 ∨ dir - 4 < (s.ringOf (s.owner t)).length)) ∧ 1 ≤ count ∧ 1 ≤ width ∧ row + count ≤ 2048 :=
  ⟨withTile Tile.cleared, 511, 3, 2047, 1, 1, .ring, false, ⟨rfl, rfl, rfl, rfl⟩, by decide, by decide, by rfl, by rfl, by rfl⟩

theorem test_w_LinksCarryRows_2 : ∃ (s : State) (t dir row count width : Nat) (fp32 : Bool), s.tileClear t ∧ dir < 4 ∧ 1 ≤ count ∧ 1 ≤ width ∧ row + count * tokenRows width fp32 ≤ 2048 :=
  ⟨withTile Tile.cleared, 511, 3, 2047, 1, 1, false, ⟨rfl, rfl, rfl, rfl⟩, by decide, by rfl, by rfl, by rfl⟩

theorem test_w_LinksCarryRows_3 : ∃ (s : State) (t dir row count width : Nat) (cls : LClass) (fp32 : Bool) (pt : Part) (m : Nat × LClass × Nat × Bytes), s.tileClear t ∧ s.part (s.owner t) = some pt ∧ cls ≠ .activation ∧ s.linkMessage (s.owner t) cls dir count width = some m ∧ 1 ≤ count ∧ 1 ≤ width ∧ row + count ≤ 2048 :=
  ⟨{ withPart (ptIm (imOf 1 0)) with veolo := { State.reset.veolo with inbox := [(3, .ring, 127, [])] } }, 511, 3, 2047, 1, 1, .ring, false, _, _, ⟨rfl, rfl, rfl, rfl⟩, rfl, by decide, rfl, by rfl, by rfl, by rfl⟩

theorem test_w_LinksCarryRows_4 : ∃ (s : State) (t dir row count width : Nat) (fp32 : Bool) (pt : Part) (im : Image) (m : Nat × LClass × Nat × Bytes), s.tileClear t ∧ s.part (s.owner t) = some pt ∧ pt.image = some im ∧ s.linkMessage (s.owner t) .activation dir count width = some m ∧ 1 ≤ count ∧ 1 ≤ width ∧ row + count * tokenRows width fp32 ≤ 2048 :=
  ⟨{ withPart (ptIm (imOf 1 0)) with veolo := { State.reset.veolo with inbox := [(3, .activation, 127, [1#8, 0#8])] } }, 511, 3, 2047, 1, 1, false, _, _, _, ⟨rfl, rfl, rfl, rfl⟩, rfl, rfl, rfl, by rfl, by rfl, by rfl⟩

theorem test_w_LinksCarryRows_5 : ∃ (s : State) (t dir row count width : Nat) (cls : LClass) (fp32 : Bool), s.tileWorks t = true ∧ 1 ≤ count ∧ 1 ≤ width ∧ row + count * linkRows cls width fp32 ≤ 2048 ∧ s.linkMessage (s.owner t) cls dir count width = none :=
  ⟨{ withPart (ptIm (imOf 1 0)) with veolo := { State.reset.veolo with inbox := [(3, .activation, 127, [])] } }, 511, 3, 2047, 1, 1, .activation, false, rfl, by rfl, by rfl, by rfl, rfl⟩

theorem test_w_SequencerFlow_1 : ∃ (s : State) (p bay now : Nat) (op : SyncOp) (pt : Part), s.part p = some pt ∧ pt.running bay = true ∧ op.tiles.all (fun t => pt.tiles.contains t && bayOf t == bay) = true ∧ 
    (s.waitsIn p bay = false) ∧ ((s.at now).syncWaits p bay op = false) ∧ (op.partBarrier = false) :=
  ⟨withPart { ptIm (imOf 1 0) with step := some (stepAt 1) }, 127, 15, 1000, ⟨[1], [], [511], false, false⟩, _, rfl, rfl, rfl, ⟨by decide +kernel, by decide +kernel, by decide +kernel⟩⟩

theorem test_w_SequencerFlow_1y : ∃ (s : State) (p bay now : Nat) (op : SyncOp) (pt : Part), s.part p = some pt ∧ pt.running bay = true ∧ op.tiles.all (fun t => pt.tiles.contains t && bayOf t == bay) = true ∧ 
    (s.waitsIn p bay = true) :=
  ⟨withPart { ptIm (imOf 1 0) with step := some (stepAt 1), ctxs := [(15, waits)] }, 127, 15, 1000, ⟨[1], [], [511], false, true⟩, _, rfl, rfl, rfl, by decide +kernel⟩

theorem test_w_SequencerFlow_1z : ∃ (s : State) (p bay now : Nat) (op : SyncOp) (pt : Part), s.part p = some pt ∧ pt.running bay = true ∧ op.tiles.all (fun t => pt.tiles.contains t && bayOf t == bay) = true ∧ 
    ((s.at now).syncWaits p bay op = true) :=
  ⟨{ withPart { ptIm (imOf 1 0) with step := some (stepAt 1) } with tiles := [(511, dmaFull)] }, 127, 15, 1000, ⟨[1], [], [511], false, true⟩, _, rfl, rfl, rfl, by decide +kernel⟩

theorem test_w_SequencerFlow_2 : ∃ (s : State) (p bay since done cause : Nat) (pt : Part), s.part p = some pt ∧ (pt.ctx bay).sync = some { since := since, last := some (done, cause) } ∧ cause < 5 :=
  ⟨withPart { ptIm (imOf 1 0) with step := some (stepAt 1), ctxs := [(15, { BayCtx.atEntry with sync := some ⟨0, some (5, 4)⟩ })] }, 127, 15, 0, 5, 4, _, rfl, rfl, by decide⟩

theorem test_w_SequencerFlow_3 : ∃ (s : State) (p bay a : Nat) (op : FlowOp) (pt : Part), s.part p = some pt ∧ pt.running bay = true ∧ 
    (s.waitsIn p bay = false) :=
  ⟨withPart { ptIm (imOf 1 0) with step := some (stepAt 1), ctxs := [(15, { BayCtx.atEntry with loops := [(0, 2)] })] }, 127, 15, 7, .loopBack, _, rfl, rfl, by decide +kernel⟩

theorem test_w_SequencerFlow_3z : ∃ (s : State) (p bay a : Nat) (op : FlowOp) (pt : Part), s.part p = some pt ∧ pt.running bay = true ∧ 
    (s.waitsIn p bay = true) :=
  ⟨withPart { ptIm (imOf 1 0) with step := some (stepAt 1), ctxs := [(15, waits)] }, 127, 15, 7, .loop 2, _, rfl, rfl, by decide +kernel⟩

theorem test_w_SequencerFlow_4 : ∃ (s : State) (p bay : Nat) (pt : Part), s.part p = some pt ∧ pt.running bay = true ∧ s.stepFailed p = false ∧ 
    (s.waitsIn p bay = false) ∧ (s.bayRetired p pt bay = true) :=
  ⟨withPart { ptIm (imOf 1 0) with step := some (stepAt 1) }, 127, 15, _, rfl, rfl, rfl, ⟨by decide +kernel, by decide +kernel⟩⟩

theorem test_w_SequencerFlow_4z : ∃ (s : State) (p bay : Nat) (pt : Part), s.part p = some pt ∧ pt.running bay = true ∧ s.stepFailed p = false ∧ 
    (s.bayRetired p pt bay = false) :=
  ⟨{ withPart { ptIm (imOf 1 0) with step := some (stepAt 1) } with tiles := [(511, dmaFull)] }, 127, 15, _, rfl, rfl, rfl, by decide +kernel⟩

/-- A shard whose directory names one flash-resident tensor, number 7, without bytes. -/
def flashShard : Bytes := (((List.replicate 96 0#8).set 11 1#8).set 67 7#8).set 70 2#8
/-- A shard whose directory names one pod tensor, number 7, with the flags given, its tensor header of 0. -/
def podShard (flags : Nat) : Bytes := ((((List.replicate 96 0#8).set 11 1#8).set 67 7#8).set 70 (BitVec.ofNat 8 flags)).set 95 1#8
/-- A partition whose image has that shard, with some slots of its expert cache. -/
def ptExp (xs : List XSlot) : Part := { ptIm { imOf 1 0 with shard := flashShard } with xcache := xs, step := some (stepAt 1) }
/-- A slot of the expert cache. -/
def slotOf (tensor : Option Nat) (arriving : Bool) : XSlot := ⟨tensor, 0, none, arriving, 0, 0⟩

theorem test_w_ExpertCacheFetches_1 : ∃ (s : State) (p tensor layer : Nat) (pt : Part) (im : Image), s.part p = some pt ∧ pt.image = some im ∧ pt.step.isSome = true ∧ s.stepFailed p = false ∧ (pt.dir im).any (fun d => d.tensor == tensor && d.flash) = true ∧ 
    (let unpin := fun (x : XSlot) => if x.pinned.any (fun l => decide (l + 1 < layer)) then { x with pinned := none } else x; let xs := pt.xcache.map unpin; (xs.any (fun x => x.tensor == some tensor) = true)) :=
  ⟨withPart (ptExp [slotOf none false, slotOf (some 7) false]), 127, 7, 0, _, _, rfl, rfl, rfl, rfl, rfl, rfl⟩

theorem test_w_ExpertCacheFetches_1z : ∃ (s : State) (p tensor layer : Nat) (pt : Part) (im : Image), s.part p = some pt ∧ pt.image = some im ∧ pt.step.isSome = true ∧ s.stepFailed p = false ∧ (pt.dir im).any (fun d => d.tensor == tensor && d.flash) = true ∧ 
    (let unpin := fun (x : XSlot) => if x.pinned.any (fun l => decide (l + 1 < layer)) then { x with pinned := none } else x; let xs := pt.xcache.map unpin; (xs.any (fun x => x.tensor == some tensor) = false) ∧ (xVictim (s.merCount p) xs = some 0)) :=
  ⟨withPart (ptExp [slotOf none false, slotOf (some 8) false]), 127, 7, 0, _, _, rfl, rfl, rfl, rfl, rfl, ⟨rfl, rfl⟩⟩

theorem test_w_ExpertCacheFetches_2 : ∃ (mer i : Nat) (xs : List XSlot), xVictim mer xs = some i :=
  ⟨5, 1, [{ slotOf (some 7) false with lastUse := 4 }, { slotOf (some 8) false with lastUse := 3 }], rfl⟩

theorem test_w_ExpertCacheFetches_3 : ∃ (s : State) (p tensor i now : Nat) (pt : Part) (im : Image) (d : DirEntry), s.part p = some pt ∧ pt.image = some im ∧ pt.nextFetch = some i ∧ (pt.xcache[i]?).bind (·.tensor) = some tensor ∧ (pt.dir im).find? (fun d => d.tensor == tensor) = some d :=
  ⟨withPart (ptExp [slotOf (some 7) true]), 127, 7, 0, 1000, _, _, _, rfl, rfl, rfl, rfl, rfl⟩

theorem test_w_ExpertCacheFetches_3z : ∃ (s : State) (p tensor i now : Nat) (pt : Part) (im : Image) (d : DirEntry), s.part p = some pt ∧ pt.image = some im ∧ pt.nextFetch = some i ∧ (pt.xcache[i]?).bind (·.tensor) = some tensor ∧ (pt.dir im).find? (fun d => d.tensor == tensor) = some d ∧ 
    (shardFault (pt.fetchSource im d).1 (pt.fetchSource im d).2 = some (.tensor, 0)) :=
  ⟨withPart { ptExp [slotOf (some 7) true] with image := some { imOf 1 0 with shard := podShard 3 } }, 127, 7, 0, 1000, _, _, _, rfl, rfl, rfl, rfl, rfl, by decide +kernel⟩

theorem test_w_RegisterRowsAct_1 : ∃ (s : State) (c : Ctx) (i : Instr) (b : Blk) (k off : Nat) (v : Word), s.isOwner c = true ∧ s.serveRefusal c 0x0607 .early = none ∧ s.lesar.goDone = [] ∧ (((i = .kvRingCtlWrite c k v ∧ b = .kv ∧ off = 0x10) ∨ (i = .strmCtlWrite c k v ∧ b = .strm ∧ off = 0) ∨ (i = .lsReqLimitWrite c k v ∧ b = .req ∧ off = 0) ∨ (i = .lsReqCtlWrite c k v ∧ b = .req ∧ off = 4) ∨ (i = .pgCtlWrite c v ∧ b = .pg ∧ k = 0 ∧ off = 4))) ∧ k < 128 ∧ ((b ≠ .pg → ∃ pt, s.part k = some pt ∧ pt.resetting = none)) ∧ 
    (let w := writtenWord (b.fields off) (s.reg b k off) v; (s.outOfRange b k off w = none)) :=
  ⟨withPart pt0, own, .lsReqCtlWrite own 127 0#32, .req, 127, 4, 0#32, rfl, rfl, rfl, .inr (.inr (.inr (.inl ⟨rfl, rfl, rfl⟩))), by decide, fun _ => ⟨pt0, rfl, rfl⟩, rfl⟩

theorem test_w_RegisterRowsAct_1z : ∃ (s : State) (c : Ctx) (i : Instr) (b : Blk) (k off : Nat) (v : Word), s.isOwner c = true ∧ s.serveRefusal c 0x0607 .early = none ∧ s.lesar.goDone = [] ∧ (((i = .kvRingCtlWrite c k v ∧ b = .kv ∧ off = 0x10) ∨ (i = .strmCtlWrite c k v ∧ b = .strm ∧ off = 0) ∨ (i = .lsReqLimitWrite c k v ∧ b = .req ∧ off = 0) ∨ (i = .lsReqCtlWrite c k v ∧ b = .req ∧ off = 4) ∨ (i = .pgCtlWrite c v ∧ b = .pg ∧ k = 0 ∧ off = 4))) ∧ k < 128 ∧ ((b ≠ .pg → ∃ pt, s.part k = some pt ∧ pt.resetting = none)) ∧ 
    (let w := writtenWord (b.fields off) (s.reg b k off) v; (s.outOfRange b k off w = none ∨ (s.outOfRange b k off w).isSome = true)) :=
  ⟨withPart pt0, own, .pgCtlWrite own 0#32, .pg, 0, 4, 0#32, rfl, rfl, rfl, .inr (.inr (.inr (.inr ⟨rfl, rfl, rfl, rfl⟩))), by decide, fun h => absurd rfl h, by decide⟩

theorem test_w_RegisterRowsAct_2 : ∃ (fs : List Fld) (old v : Word) (i : Nat), i < 32 ∧ ((∀ f ∈ fs, f.lo ≤ f.hi ∧ f.hi < 32)) :=
  ⟨[⟨31, 0, .rw, .owner⟩], 0#32, 0#32, 31, by decide, by decide⟩

theorem test_w_RegisterRowsAct_3 : ∃ (s : State) (c : Ctx) (p : Nat) (v : Word) (pt : Part), s.isOwner c = true ∧ s.serveRefusal c 0x0607 .early = none ∧ s.lesar.goDone = [] ∧ p < 128 ∧ s.part p = some pt ∧ pt.resetting = none ∧ 
    (pt.quads.contains (v.field 24 16 / 4) = true) ∧ (v.field 24 16 ≠ (s.reg .grat p 0).field 24 16) :=
  ⟨withPart pt0, own, 127, 0x01FF0000#32, pt0, rfl, rfl, rfl, by decide, rfl, rfl, ⟨rfl, by decide⟩⟩

theorem test_w_RegisterRowsAct_3z : ∃ (s : State) (c : Ctx) (p : Nat) (v : Word) (pt : Part), s.isOwner c = true ∧ s.serveRefusal c 0x0607 .early = none ∧ s.lesar.goDone = [] ∧ p < 128 ∧ s.part p = some pt ∧ pt.resetting = none ∧ 
    (v.bit 31 = true ∧ pt.gzState = 0 ∧ MState.up pt.mstate = true ∧ pt.image.any Image.isFirst = true) :=
  ⟨withPart (ptIm (imOf 1 0)), own, 127, 0x80000000#32, _, rfl, rfl, rfl, by decide, rfl, rfl, by decide +kernel⟩

theorem test_w_RegisterRowsAct_4 : ∃ (s : State) (c : Ctx) (v : Word), s.isOwner c = true ∧ s.serveRefusal c 0x0607 .early = none ∧ s.lesar.goDone = [] ∧ 
    (v.field 10 0 ≤ 1200) ∧ (3 * v.field 10 0 + 16 * (s.parts.map (fun e => e.2.nand.length)).sum ≤ 3600) ∧ (v.field 9 0 ≤ s.freeExtents) ∧ ((s.lender.loans.map (fun l => if l.noticed then 0 else l.extents.length)).sum ≤ v.field 9 0) :=
  ⟨run, own, 1200#32, rfl, rfl, rfl, ⟨by decide, by decide, by decide, by decide⟩⟩

theorem test_w_RegisterRowsAct_5 : ∃ (s : State) (c : Ctx) (p : Nat) (v : Word) (pt : Part) (bs : Bytes), s.ownerWrites c ∧ p < 128 ∧ s.part p = some pt ∧ pt.resetting = none ∧ v.bit 31 = true ∧ 
    (let w := writtenWord (Blk.fields .tbl 0x0C) (s.reg .tbl p 0x0C) v; let d := s.reg .tbl p 0x08; let op : LoadOp := ⟨d.field 17 16, d.field 15 8, d.field 5 0, w.field 5 0, w.field 29 28, w.bit 30, if w.bit 27 then some (w.field 22 16) else none⟩; let src := (s.reg .tbl p 0x00).field 31 9 * 512 + (s.reg .tbl p 0x04).field 5 0 * 2 ^ 32; (LoadOp.ok op = true) ∧ (op.quad.all (fun q => pt.quads.contains q) = true) ∧ (s.shareRead pt src (512 * op.rows) = some bs) ∧ (src + 512 * op.rows ≤ pt.shareBytes) ∧ (pt.copying.getD op.kind false = false) ∧ (namesActive op.bank (pt.activeBank op.kind) = false)) :=
  ⟨withPart pt0, own, 127, 0x80000001#32, pt0, _, ⟨rfl, rfl, rfl⟩, by decide, rfl, rfl, rfl, ⟨rfl, rfl, rfl, by decide, rfl, rfl⟩⟩

theorem test_w_RegisterRowsAct_6 : ∃ (s : State) (p : Nat) (pt : Part) (j : LoadJob) (w : RegWait), s.part p = some pt ∧ pt.load = some j ∧ j.bay = none ∧ pt.loadQ = [] ∧ s.lesar.goDone = [] ∧ s.lesar.regWaits.find? (fun w => w.what == 1 && w.part == p) = some w ∧ w.rest = [] :=
  ⟨{ withPart { pt0 with load := some ⟨⟨0, 0, 0, 1, 0, true, none⟩, [], none⟩ } with lesar := { Lesar.start with regWaits := [⟨own, 1, 127, 0, []⟩] } }, 127, _, _, _, rfl, rfl, rfl, rfl, rfl, rfl, rfl⟩

theorem test_w_RegisterRowsAct_7 : ∃ (s : State) (c : Ctx) (p : Nat) (v : Word) (pt : Part) (bs : Bytes) (u : State), s.ownerWrites c ∧ p < 128 ∧ s.part p = some pt ∧ pt.resetting = none ∧ v.bit 31 = true ∧ ((∀ w ∈ s.lesar.regWaits, ¬ (w.what = 2 ∧ w.part = p))) ∧ 
    (let w := writtenWord (Blk.fields .kv 0x1C) (s.reg .kv p 0x1C) v; let src := (s.reg .kv p 0x14).field 31 11 * 2048 + (s.reg .kv p 0x18).field 5 0 * 2 ^ 32; let n := w.field 6 0; (w.field 29 28 ≠ 1) ∧ (1 ≤ n ∧ n ≤ 64 ∧ w.field 25 16 + n ≤ 1024) ∧ (src + 2048 * n ≤ pt.shareBytes) ∧ (s.shareRead pt src (2048 * n) = some bs) ∧ (namesActive (w.field 29 28) (pt.activeBank 2) = false) ∧ (s.shareWrite pt (pt.layout.bitmap + (1 - pt.activeBank 2) * bitmapHalf + 2048 * w.field 25 16) bs = some u)) :=
  ⟨withPart pt0, own, 127, 0x80000001#32, pt0, _, _, ⟨rfl, rfl, rfl⟩, by decide, rfl, rfl, rfl, fun w h => (by cases h), ⟨by decide, by decide, by decide, got (by decide +kernel), rfl, got (by decide +kernel)⟩⟩

/-- What a read of a half of the bitmap area of `ptBmp` gives. -/
def bmpBytes : Bytes := [((8 * 2 ^ 28 : Nat), 2097152)].flatMap (fun r => Mem.readN 0#8 ([] : Mem) r.1 r.2)
theorem bmpBytes_length : bmpBytes.length = 2097152 := by simp [bmpBytes, Mem.readN_length]
/-- A partition whose bitmap copy runs. -/
def ptBmp : Part := { pt0 with bmpCopying := true }
theorem bmp_read : (withPart ptBmp).shareRead ptBmp (ptBmp.layout.bitmap + ptBmp.activeBank 2 * bitmapHalf) bitmapHalf = some bmpBytes := by
  unfold State.shareRead
  rw [show Part.dramRuns ptBmp (ptBmp.dram.length + 1) (ptBmp.layout.bitmap + ptBmp.activeBank 2 * bitmapHalf) bitmapHalf = some [((8 * 2 ^ 28 : Nat), 2097152)] by decide]
  rfl
theorem bmp_write : ∃ u, (withPart ptBmp).shareWrite ptBmp (ptBmp.layout.bitmap + (1 - ptBmp.activeBank 2) * bitmapHalf) bmpBytes = some u := by
  unfold State.shareWrite
  rw [bmpBytes_length, show Part.dramRuns ptBmp (ptBmp.dram.length + 1) (ptBmp.layout.bitmap + (1 - ptBmp.activeBank 2) * bitmapHalf) 2097152 = some [((8 * 2 ^ 28 + 2097152 : Nat), 2097152)] by decide]
  exact ⟨_, rfl⟩

theorem test_w_RegisterRowsAct_8 : ∃ (s : State) (p : Nat) (pt : Part) (bs : Bytes) (u : State), s.part p = some pt ∧ pt.bmpCopying = true ∧ pt.bmpQ = [] ∧ s.lesar.goDone = [] ∧ s.shareRead pt (pt.layout.bitmap + pt.activeBank 2 * bitmapHalf) bitmapHalf = some bs ∧ s.shareWrite pt (pt.layout.bitmap + (1 - pt.activeBank 2) * bitmapHalf) bs = some u :=
  ⟨withPart ptBmp, 127, ptBmp, bmpBytes, _, rfl, rfl, rfl, rfl, bmp_read, bmp_write.choose_spec⟩

theorem test_w_RegisterRowsAct_9 : ∃ (s : State) (c : Ctx) (v : Word), s.ownerWrites c ∧ v.bit 31 = true ∧ 
    (let t := v.field 8 0; (s.tileIdle t = true) ∧ (s.ownerOf t = none)) :=
  ⟨run, own, 0x800001FF#32, ⟨rfl, rfl, rfl⟩, rfl, ⟨rfl, rfl⟩⟩

theorem test_w_RegisterRowsAct_9z : ∃ (s : State) (c : Ctx) (v : Word), s.ownerWrites c ∧ v.bit 31 = true ∧ 
    (let t := v.field 8 0; (s.tileIdle t = false)) :=
  ⟨withTile { Tile.cleared with bank0 := bankIn .accum }, own, 0x800001FF#32, ⟨rfl, rfl, rfl⟩, rfl, rfl⟩

theorem test_w_LinkRegistersAndLoans_1 : ∃ (s : State) (c : Ctx) (i : Nat) (v : Word), s.ownerWrites c ∧ i < 8 ∧ v.bit 31 = true ∧ v.bit 30 = true :=
  ⟨run, own, 7, 0xC0000000#32, ⟨rfl, rfl, rfl⟩, by decide, rfl, rfl⟩

theorem test_w_LinkRegistersAndLoans_2 : ∃ (s : State) (c : Ctx) (i : Instr) (off : Nat) (v : Word) (new : ParamSet), s.ownerWrites c ∧ s.flash.op = none ∧ s.flash.queue = [] ∧ s.flash.susp = none ∧ 
    (let w := writtenWord (Blk.fields .vlDev off) (s.regValue .vlDev 0 off) v; (s.outOfRange .vlDev 0 off w = none) ∧ (i = .vlDevNumWrite c v ∧ off = 0 ∧ v.bit 15 = true ∧ new = { s.params with numValid := true, devNum := v.field 11 0 })) :=
  ⟨run, own, .vlDevNumWrite own 0x8FFF#32, 0, 0x8FFF#32, _, ⟨rfl, rfl, rfl⟩, rfl, rfl, rfl, ⟨rfl, ⟨rfl, rfl, rfl, rfl⟩⟩⟩

theorem test_w_LinkRegistersAndLoans_2z : ∃ (s : State) (c : Ctx) (i : Instr) (off : Nat) (v : Word) (new : ParamSet), s.ownerWrites c ∧ s.flash.op = none ∧ s.flash.queue = [] ∧ s.flash.susp = none ∧ 
    (let w := writtenWord (Blk.fields .vlDev off) (s.regValue .vlDev 0 off) v; (i = .vlTopoCtlWrite c v ∧ off = 4 ∧ new = { s.params with topo := w })) :=
  ⟨run, own, .vlTopoCtlWrite own 0#32, 4, 0#32, _, ⟨rfl, rfl, rfl⟩, rfl, rfl, rfl, ⟨rfl, rfl, rfl⟩⟩

theorem test_w_LinkRegistersAndLoans_3 : ∃ (s : State) (c : Ctx) (p : Nat) (v : Word) (pt : Part), s.ownerWrites c ∧ p < 128 ∧ s.part p = some pt ∧ pt.resetting = none ∧ v.bit 31 = true ∧ v.bit 30 = false ∧ 
    (let link := v.field 10 8; let n := v.field 6 0; (1 ≤ n ∧ n ≤ 64 ∧ s.linkNeighbour link = true ∧ s.loansHeld < 16)) :=
  ⟨{ withPart pt0 with veolo := { State.reset.veolo with nbrs := [.absent, .absent, .absent, .active] } }, own, 127, 0x80000740#32, pt0, ⟨rfl, rfl, rfl⟩, by decide, rfl, rfl, rfl, rfl, by decide⟩

theorem test_w_LinkRegistersAndLoans_4 : ∃ (s : State) (c : Ctx) (p : Nat) (v : Word) (pt : Part), s.ownerWrites c ∧ p < 128 ∧ s.part p = some pt ∧ pt.resetting = none ∧ v.bit 31 = false ∧ v.bit 30 = true ∧ pt.loans.any (fun l => l.link == v.field 10 8 && l.active) = true :=
  ⟨withPart { pt0 with loans := [⟨0, 7, 64, true, false, false, false, false, [], []⟩] }, own, 127, 0x40000700#32, _, ⟨rfl, rfl, rfl⟩, by decide, rfl, rfl, rfl, rfl, rfl⟩

theorem test_w_LinkRegistersAndLoans_5 : ∃ (s : State) (c : Ctx) (p : Nat) (v : Word) (pt : Part), s.ownerWrites c ∧ p < 128 ∧ s.part p = some pt ∧ pt.resetting = none ∧ v.bit 31 = true ∧ v.bit 30 = true :=
  ⟨withPart pt0, own, 127, 0xC0000000#32, _, ⟨rfl, rfl, rfl⟩, by decide, rfl, rfl, rfl, rfl⟩

/-- The first register that REG_READ names in the tests, its value and the state after it. -/
def devCtl : Nat := Blk.at .dev 0 0x300

/-- The state after a register write that went through, and what a register read gives. -/
def wrote (o : WOut) : State := match o with
  | .done t => t
  | _ => run
def wroteOk (o : WOut) : Bool := match o with
  | .done _ => true
  | _ => false
theorem wrote_eq {o : WOut} (h : wroteOk o = true) : o = .done (wrote o) := by
  cases o with
  | done t => rfl
  | no e => cases h
  | waits a b c => cases h
theorem readGave {o : Except Status (State × Word)} (h : o.toOption.isSome = true) : o = .ok ((o.toOption.get h).1, (o.toOption.get h).2) := by
  cases o with
  | ok t => rfl
  | error e => exact absurd h (by simp [Except.toOption])
theorem devCtlRead : (run.readEntry own devCtl).toOption.isSome = true := by decide +kernel
def pgWrite : WOut := run.writeEntry own (BitVec.ofNat 32 (Blk.at .pg 0 4)).toNat 250#32

theorem test_w_RegisterFrames_1 : ∃ (s s1 : State) (c : Ctx) (as : List Nat) (vs : List Word), s.registersServe c 0x0606 ∧ 1 ≤ as.length ∧ as.length ≤ 64 ∧ ((∀ a ∈ as, a < 2 ^ 32)) ∧ readsDone c as vs s s1 :=
  ⟨run, _, own, [devCtl], [_], ⟨rfl, .inl rfl⟩, by rfl, by decide, fun a h => (by cases List.mem_singleton.mp h; decide), ⟨_, readGave devCtlRead, rfl⟩⟩

theorem test_w_RegisterFrames_2 : ∃ (s s1 : State) (c : Ctx) (pre post : List Nat) (a : Nat) (vs : List Word) (st : Status), s.registersServe c 0x0606 ∧ pre.length + 1 + post.length ≤ 64 ∧ ((∀ x ∈ pre ++ a :: post, x < 2 ^ 32)) ∧ readsDone c pre vs s s1 ∧ s1.readEntry c a = .error st :=
  ⟨run, run, own, [], [], 1, [], .badFrame, ⟨rfl, .inl rfl⟩, by decide, fun a h => (by cases List.mem_singleton.mp h; decide), rfl, rfl⟩

theorem test_w_RegisterFrames_3 : ∃ (s s1 : State) (c : Ctx) (es : List (Word × Word)), s.registersServe c 0x0607 ∧ ((c.sess = sidebandSess → s.isOwner c = true)) ∧ 1 ≤ es.length ∧ es.length ≤ 64 ∧ writesDone c es s s1 ∧ s1.lesar.goDone = [] :=
  ⟨run, wrote pgWrite, own, [(BitVec.ofNat 32 (Blk.at .pg 0 4), 250#32)], ⟨rfl, .inl rfl⟩, fun _ => rfl, by rfl, by decide, ⟨_, wrote_eq (by decide +kernel), rfl⟩, by decide +kernel⟩

theorem test_w_RegisterFrames_4 : ∃ (s s1 : State) (c : Ctx) (pre post : List (Word × Word)) (e : Word × Word) (st : Status), s.registersServe c 0x0607 ∧ ((c.sess = sidebandSess → s.isOwner c = true)) ∧ pre.length + 1 + post.length ≤ 64 ∧ writesDone c pre s s1 ∧ s1.writeEntry c e.1.toNat e.2 = .no st ∧ s1.lesar.goDone = [] :=
  ⟨run, run, own, [], [], (1#32, 0#32), .badFrame, ⟨rfl, .inl rfl⟩, fun _ => rfl, by decide, rfl, rfl, rfl⟩

theorem test_w_RegisterFrames_5 : ∃ (s : State) (c : Ctx) (a : Nat) (v : Word), ((a % 4 ≠ 0 ∨ inRange a = false)) :=
  ⟨run, own, 1, 0#32, .inl (by decide)⟩

theorem test_w_RegisterFrames_5z : ∃ (s : State) (c : Ctx) (a : Nat) (v : Word), ((a % 4 ≠ 0 ∨ inRange a = false)) :=
  ⟨run, own, 0xFFFFFFFC, 0#32, .inr rfl⟩

theorem test_w_RegisterFrames_6 : ∃ (s : State) (c : Ctx) (b : Blk) (k off : Nat), s.isOwner c = true ∧ k < b.place.2.2 ∧ off < b.place.2.1 ∧ off % 4 = 0 ∧ b.occupied off = true :=
  ⟨run, own, .evt, 127, 0, rfl, by decide, by decide, rfl, rfl⟩

/-- The device owner at the sideband mailbox, at device level. -/
def ownDev : Ctx := { own with part := 0xFFFF }

theorem test_w_FlashReads_1 : ∃ (s : State) (c : Ctx) (a n : Nat), s.flashServes c 0x0701 ∧ 1 ≤ n ∧ n ≤ 4096 ∧ a + n ≤ 2 ^ 25 ∧ 
    ((0x00100000 ≤ a ∨ a + n ≤ 0x00010000) ∧ s.flash.half = [] ∧ s.flash.badWords = []) :=
  ⟨run, ownDev, 0x1FFF000, 4096, ⟨rfl, .inr ⟨rfl, rfl⟩⟩, by decide, by rfl, by rfl, by decide⟩

theorem test_w_FlashReads_1y : ∃ (s : State) (c : Ctx) (a n : Nat), s.flashServes c 0x0701 ∧ 1 ≤ n ∧ n ≤ 4096 ∧ a + n ≤ 2 ^ 25 ∧ 
    ((0x00100000 ≤ a ∨ a + n ≤ 0x00010000) ∧ s.flash.half.contains (sectorAt a) = true) :=
  ⟨{ run with flash := { Flash.start with half := [511] } }, ownDev, 0x1FFF000, 4096, ⟨rfl, .inr ⟨rfl, rfl⟩⟩, by decide, by rfl, by rfl, by decide⟩

theorem test_w_FlashReads_1z : ∃ (s : State) (c : Ctx) (a n : Nat), s.flashServes c 0x0701 ∧ 1 ≤ n ∧ n ≤ 4096 ∧ a + n ≤ 2 ^ 25 ∧ 
    (a < 0x00100000 ∧ 0x00010000 < a + n) :=
  ⟨run, ownDev, 0x000FFFFF, 1, ⟨rfl, .inr ⟨rfl, rfl⟩⟩, by rfl, by decide, by decide, by decide⟩

theorem test_w_FlashReads_2 : ∃ (s : State) (c : Ctx) (area off n : Nat), s.flashServes c 0x070F ∧ area < 2 ∧ 1 ≤ n ∧ n ≤ 4096 ∧ off + n ≤ (if area = 0 then 983040 else 32768) ∧ s.flash.half = [] ∧ s.flash.badWords = [] :=
  ⟨run, ownDev, 1, 28672, 4096, ⟨rfl, .inr ⟨rfl, rfl⟩⟩, by decide, by decide, by rfl, by rfl, rfl, rfl⟩

theorem test_w_FlashReads_3 : ∃ (s : State) (c : Ctx) (k : Nat), s.flashServes c 0x0706 ∧ s.flash.queue = [] ∧ sectorOk k = true ∧ s.flash.half.contains k = false ∧ Mem.wf 0xFF#8 s.mem.flash = true ∧ 
    (∀ x, x < sectorSize k → Mem.read 0xFF#8 s.mem.flash (sectorBase k + x) = 0xFF#8) :=
  ⟨run, ownDev, 511, ⟨rfl, .inr ⟨rfl, rfl⟩⟩, rfl, rfl, rfl, rfl, fun _ _ => rfl⟩

theorem test_w_FlashReads_3z : ∃ (s : State) (c : Ctx) (k : Nat), s.flashServes c 0x0706 ∧ s.flash.queue = [] ∧ sectorOk k = true ∧ s.flash.half.contains k = false ∧ Mem.wf 0xFF#8 s.mem.flash = true ∧ 
    (65535 < sectorSize k ∧ Mem.read 0xFF#8 s.mem.flash (sectorBase k + 65535) ≠ 0xFF#8) :=
  ⟨{ run with mem := { run.mem with flash := [(0x1FFFFFF, 0#8)] } }, ownDev, 511, ⟨rfl, .inr ⟨rfl, rfl⟩⟩, rfl, rfl, rfl, rfl, by decide⟩

theorem test_w_FlashReads_4 : run.flashServes ownDev 0x0707 ∧ run.flashServes ownDev 0x070A := ⟨⟨rfl, .inr ⟨rfl, rfl⟩⟩, rfl, .inr ⟨rfl, rfl⟩⟩

/-- The device runs with a parameter set that protects no sector. -/
def runFlash (f : Flash) : State := { run with flash := { f with params := some { ParamSet.blank with protMain := List.replicate 64 0#8, protParam := 0#32, pwSet := false } } }

theorem test_w_FlashProgramsAndErases_1 : ∃ (s : State) (c : Ctx) (a n : Nat) (d : Bytes), s.flashServes c 0x0702 ∧ s.flash.op = none ∧ s.flash.queue = [] ∧ d.length = n ∧ a % 16 = 0 ∧ n % 16 = 0 ∧ 1 ≤ n ∧ n ≤ 256 ∧ a / 256 = (a + n - 1) / 256 ∧ a < 2 ^ 25 ∧ 
    (ownerSector (sectorAt a) = true ∧ s.params.protects (sectorAt a) = false ∧ s.flash.half.contains (sectorAt a) = false ∧ s.flash.badWords = []) ∧ (∀ x, x < n → Mem.read 0xFF#8 s.mem.flash (a + x) = 0xFF#8) :=
  ⟨runFlash Flash.start, ownDev, 0x1FFFF00, 256, List.replicate 256 0#8, ⟨rfl, .inr ⟨rfl, rfl⟩⟩, rfl, rfl, List.length_replicate, rfl, rfl, by decide, by rfl, rfl, by decide, ⟨by decide +kernel, fun _ _ => rfl⟩⟩

theorem test_w_FlashProgramsAndErases_1y : ∃ (s : State) (c : Ctx) (a n : Nat) (d : Bytes), s.flashServes c 0x0702 ∧ s.flash.op = none ∧ s.flash.queue = [] ∧ d.length = n ∧ a % 16 = 0 ∧ n % 16 = 0 ∧ 1 ≤ n ∧ n ≤ 256 ∧ a / 256 = (a + n - 1) / 256 ∧ a < 2 ^ 25 ∧ 
    (ownerSector (sectorAt a) = true ∧ s.params.protects (sectorAt a) = false ∧ s.flash.half.contains (sectorAt a) = true) :=
  ⟨runFlash { Flash.start with half := [511] }, ownDev, 0x1FFFF00, 16, List.replicate 16 0#8, ⟨rfl, .inr ⟨rfl, rfl⟩⟩, rfl, rfl, rfl, rfl, rfl, by decide, by decide, rfl, by decide, by decide +kernel⟩

theorem test_w_FlashProgramsAndErases_1z : ∃ (s : State) (c : Ctx) (a n : Nat) (d : Bytes), s.flashServes c 0x0702 ∧ s.flash.op = none ∧ s.flash.queue = [] ∧ d.length = n ∧ a % 16 = 0 ∧ n % 16 = 0 ∧ 1 ≤ n ∧ n ≤ 256 ∧ a / 256 = (a + n - 1) / 256 ∧ a < 2 ^ 25 ∧ 
    (ownerSector (sectorAt a) = false) :=
  ⟨runFlash Flash.start, ownDev, 0x0010000, 16, List.replicate 16 0#8, ⟨rfl, .inr ⟨rfl, rfl⟩⟩, rfl, rfl, rfl, rfl, rfl, by decide, by decide, rfl, by decide, rfl⟩

theorem test_w_FlashProgramsAndErases_2 : ∃ (s : State) (c : Ctx) (op a : Nat) (d : Bytes), s.flash.op = some (.program c op a d) ∧ s.flash.queue = [] ∧ s.flash.resumeWait = none ∧ s.lesar.goDone = [] :=
  ⟨runFlash { Flash.start with op := some (.program ownDev 0x0702 0x1FFFFF0 (List.replicate 16 0#8)) }, _, _, _, _, rfl, rfl, rfl, rfl⟩

theorem test_w_FlashProgramsAndErases_3 : ∃ (s : State) (c : Ctx) (n : Nat), s.flashServes c 0x0703 ∧ s.flash.op = none ∧ s.flash.queue = [] ∧ s.flash.susp = none ∧ sectorOk n = true ∧ ownerSector n = true ∧ s.params.protects n = false :=
  ⟨runFlash Flash.start, ownDev, 511, ⟨rfl, .inr ⟨rfl, rfl⟩⟩, rfl, rfl, rfl, rfl, rfl, by decide +kernel⟩

theorem test_w_FlashProgramsAndErases_4 : ∃ (s : State) (c : Ctx) (n : Nat), s.flash.op = some (.erase n (.answer c)) ∧ s.flash.queue = [] ∧ ownerSector n = true ∧ s.flash.jHead < 2048 ∧ s.lesar.goDone = [] :=
  ⟨runFlash { Flash.start with op := some (.erase 511 (.answer ownDev)), jHead := 2047 }, _, 511, rfl, rfl, rfl, by decide, rfl⟩

theorem test_w_FlashProgramsAndErases_5 : ∃ (s : State) (c : Ctx), s.flashServes c 0x0704 ∧ 
    (s.flash.op = some (.erase 511 (.answer ownDev)) ∧ s.flash.susp = none ∧ s.flash.queue = []) :=
  ⟨runFlash { Flash.start with op := some (.erase 511 (.answer ownDev)) }, ownDev, ⟨rfl, .inr ⟨rfl, rfl⟩⟩, ⟨rfl, rfl, rfl⟩⟩

theorem test_w_FlashProgramsAndErases_5z : ∃ (s : State) (c : Ctx), s.flashServes c 0x0704 ∧ 
    (s.flash.op = none ∧ s.flash.queue = []) :=
  ⟨runFlash Flash.start, ownDev, ⟨rfl, .inr ⟨rfl, rfl⟩⟩, ⟨rfl, rfl⟩⟩

theorem test_w_FlashProgramsAndErases_6 : ∃ (s : State) (c : Ctx), s.flashServes c 0x0705 ∧ 
    (s.flash.susp = some (.erase 511 (.answer ownDev)) ∧ s.flash.op = none) :=
  ⟨runFlash { Flash.start with susp := some (.erase 511 (.answer ownDev)) }, ownDev, ⟨rfl, .inr ⟨rfl, rfl⟩⟩, ⟨rfl, rfl⟩⟩

theorem test_w_FlashProgramsAndErases_6y : ∃ (s : State) (c : Ctx), s.flashServes c 0x0705 ∧ 
    (s.flash.susp = none) :=
  ⟨runFlash Flash.start, ownDev, ⟨rfl, .inr ⟨rfl, rfl⟩⟩, rfl⟩

theorem test_w_FlashProgramsAndErases_6z : ∃ (s : State) (c : Ctx), s.flashServes c 0x0705 ∧ 
    (s.flash.susp.isSome = true ∧ s.flash.op.isSome = true ∧ s.flash.resumeWait = none) :=
  ⟨runFlash { Flash.start with susp := some (.erase 511 (.answer ownDev)), op := some (.erase 510 (.answer ownDev)) }, ownDev, ⟨rfl, .inr ⟨rfl, rfl⟩⟩, ⟨rfl, rfl, rfl⟩⟩

theorem test_w_FlashProgramsAndErases_7 : ∃ (s : State) (c : Ctx) (last off : Nat) (d : Bytes), s.flashServes c 0x070B ∧ s.flash.op = none ∧ s.flash.queue = [] ∧ last < 2 ∧ d.length % 16 = 0 ∧ d.length ≤ 4096 ∧ off % 16 = 0 ∧ off + d.length ≤ twinSize ∧ 
    (s.flash.twinWrite = none ∧ s.flash.susp = none) :=
  ⟨runFlash Flash.start, ownDev, 1, 2097152, [], ⟨rfl, .inr ⟨rfl, rfl⟩⟩, rfl, rfl, by decide, rfl, by decide, rfl, by rfl, ⟨rfl, rfl⟩⟩

theorem test_w_FlashProgramsAndErases_7z : ∃ (s : State) (c : Ctx) (last off : Nat) (d : Bytes), s.flashServes c 0x070B ∧ s.flash.op = none ∧ s.flash.queue = [] ∧ last < 2 ∧ d.length % 16 = 0 ∧ d.length ≤ 4096 ∧ off % 16 = 0 ∧ off + d.length ≤ twinSize ∧ 
    (s.flash.twinWrite = some off) :=
  ⟨runFlash { Flash.start with twinWrite := some 2097136 }, ownDev, 0, 2097136, List.replicate 16 0#8, ⟨rfl, .inr ⟨rfl, rfl⟩⟩, rfl, rfl, by decide, rfl, by decide, rfl, by rfl, rfl⟩

theorem test_w_FlashProtection_1 : ∃ (s : State) (c : Ctx) (i : Instr) (op : Nat) (pw : Bytes) (new : ParamSet), s.flashServes c op ∧ s.flash.op = none ∧ s.flash.queue = [] ∧ s.flash.susp = none ∧ pw.length = 16 ∧ (((∃ (m : Bytes) (w : Word), i = .cfProtSet c (m ++ (beBytes 4 w.toNat ++ pw)) ∧ op = 0x0708 ∧ m.length = 64 ∧ new = { s.params with protMain := m, protParam := w }) ∨ (∃ nw : Bytes, i = .cfPwSet c (pw ++ nw) ∧ op = 0x0709 ∧ nw.length = 16 ∧ new = { s.params with pwSet := !allZero nw, pwDigest := if allZero nw then List.replicate 32 0 else passwordDigest nw }))) ∧ 
    (s.flash.pwFails < 8 ∧ s.params.pwSet = false) :=
  ⟨runFlash Flash.start, ownDev, .cfProtSet ownDev (List.replicate 64 0#8 ++ (beBytes 4 (0#32).toNat ++ List.replicate 16 0#8)), 0x0708, List.replicate 16 0#8, _, ⟨rfl, .inr ⟨rfl, rfl⟩⟩, rfl, rfl, rfl, rfl, .inl ⟨_, _, rfl, rfl, List.length_replicate, rfl⟩, by decide⟩

theorem test_w_FlashProtection_1z : ∃ (s : State) (c : Ctx) (i : Instr) (op : Nat) (pw : Bytes) (new : ParamSet), s.flashServes c op ∧ s.flash.op = none ∧ s.flash.queue = [] ∧ s.flash.susp = none ∧ pw.length = 16 ∧ (((∃ (m : Bytes) (w : Word), i = .cfProtSet c (m ++ (beBytes 4 w.toNat ++ pw)) ∧ op = 0x0708 ∧ m.length = 64 ∧ new = { s.params with protMain := m, protParam := w }) ∨ (∃ nw : Bytes, i = .cfPwSet c (pw ++ nw) ∧ op = 0x0709 ∧ nw.length = 16 ∧ new = { s.params with pwSet := !allZero nw, pwDigest := if allZero nw then List.replicate 32 0 else passwordDigest nw }))) ∧ 
    (8 ≤ s.flash.pwFails) :=
  ⟨runFlash { Flash.start with pwFails := 8 }, ownDev, .cfPwSet ownDev (List.replicate 16 0#8 ++ List.replicate 16 1#8), 0x0709, List.replicate 16 0#8, _, ⟨rfl, .inr ⟨rfl, rfl⟩⟩, rfl, rfl, rfl, rfl, .inr ⟨_, rfl, rfl, List.length_replicate, rfl⟩, by decide⟩

theorem test_w_FlashProtection_2 : ∃ (s : State) (c : Ctx) (op : Nat) (new : ParamSet), s.flash.op = some (.param (some c) op new) ∧ s.flash.queue = [] ∧ s.flash.resumeWait = none ∧ s.lesar.goDone = [] :=
  ⟨runFlash { Flash.start with op := some (.param (some ownDev) 0x0709 ParamSet.blank) }, _, _, _, rfl, rfl, rfl, rfl⟩

theorem test_w_FlashProtection_3 : ∃ (s : State) (c : Ctx) (raise : Bool), s.flashServes c 0x070C ∧ s.flash.op = none ∧ s.flash.queue = [] ∧ s.flash.susp = none :=
  ⟨runFlash Flash.start, ownDev, true, ⟨rfl, .inr ⟨rfl, rfl⟩⟩, rfl, rfl, rfl⟩

theorem test_w_FlashProtection_4 : ∃ (s : State) (c : Ctx), s.flashServes c 0x070D ∧ s.flash.queue = [] :=
  ⟨runFlash Flash.start, ownDev, ⟨rfl, .inr ⟨rfl, rfl⟩⟩, rfl⟩

theorem test_w_FlashProtection_5 : ∃ (s : State) (c : Ctx) (n : Nat) (key sig : Bytes), s.flashServes c 0x070E ∧ s.flash.op = none ∧ s.flash.queue = [] ∧ s.flash.susp = none ∧ s.keeper.lastCommand = none ∧ s.keeper.ownerKey = some key ∧ sig.length = 64 ∧ n < 2 ^ 64 ∧ 
    (s.keeper.commandMark < n) :=
  ⟨{ runFlash Flash.start with keeper := { Keeper.start with ownerKey := some [4#8] } }, ownDev, 18446744073709551615, _, List.replicate 64 0#8, ⟨rfl, .inr ⟨rfl, rfl⟩⟩, rfl, rfl, rfl, rfl, rfl, List.length_replicate, by decide, by decide⟩

theorem test_w_MeridiansOpenSteps_1 : ∃ (s : State) (p now : Nat) (pt : Part) (im : Image), s.part p = some pt ∧ pt.image = some im ∧ s.dev.fwHalted = false ∧ pt.staged.reset = none ∧ s.now ≤ now ∧ pt.mayClose = true ∧ pt.idleStep = false ∧ pt.stepsTogether = false :=
  ⟨withPart { ptIm (imOf 1 0) with step := some { stepAt 1 with empty := false, finished := true } }, 127, 1000, _, _, rfl, rfl, rfl, rfl, by decide, rfl, rfl, rfl⟩

theorem test_w_MeridiansOpenSteps_2 : ∃ (s : State) (p now : Nat) (pt : Part) (im : Image), s.part p = some pt ∧ pt.image = some im ∧ s.dev.fwHalted = false ∧ pt.staged.reset = none ∧ s.now ≤ now ∧ now % 1000000 = 0 ∧ pt.idleStep = true ∧ pt.pipeT = none ∧ pt.stepsTogether = false ∧ pt.resetting = none :=
  ⟨withPart { ptIm (imOf 2 1) with step := none }, 127, 1000000, _, _, rfl, rfl, rfl, rfl, by decide, rfl, rfl, rfl, rfl, rfl⟩

theorem test_w_MeridiansOpenSteps_3 : ∃ (s : State) (p now : Nat) (pt : Part) (im : Image) (t0 count : Nat) (conf : List Nat), s.part p = some pt ∧ pt.image = some im ∧ s.dev.fwHalted = false ∧ pt.staged.reset = none ∧ s.now ≤ now ∧ pt.pipeT = some (t0, count, conf) ∧ t0 ≤ now ∧ ((pt.mayClose = true ∨ pt.idleStep = true)) ∧ count < 2 ^ 32 :=
  ⟨withPart { ptIm (imOf 2 1) with step := none, pipeT := some (500, 4294967295, []) }, 127, 500, _, _, 500, 4294967295, [], rfl, rfl, rfl, rfl, by decide, rfl, by rfl, .inr rfl, by decide⟩

theorem test_w_MeridiansOpenSteps_4 : ∃ (s : State) (p now : Nat) (pt : Part), s.part p = some pt ∧ pt.image = none ∧ s.dev.fwHalted = false ∧ pt.staged = Staged.none ∧ pt.loans = [] ∧ p < 128 ∧ s.now ≤ now ∧ now % 1000000 = 0 ∧ pt.idleStep = true ∧ pt.pipeT = none ∧ pt.resetting = none ∧ s.lesar.goDone = [] ∧ 
    (∃ v, pt.step = some v) :=
  ⟨withPart { pt0 with step := some { stepAt 1 with empty := true } }, 127, 1000000, _, rfl, rfl, rfl, rfl, rfl, by decide, by decide, rfl, rfl, rfl, rfl, rfl, ⟨_, rfl⟩⟩

/-- The device in the middle of a pipeline, with both neighbours of it active. -/
def withPipe (pt : Part) : State := { withPart pt with veolo := { State.reset.veolo with aligned := true, nbrs := [.active, .degraded, .absent, .absent] } }

theorem test_w_PipelinesStepAndReplay_1 : ∃ (s : State) (p : Nat) (pt : Part) (im : Image) (fromNext : Option Nat), s.part p = some pt ∧ pt.image = some im ∧ 2 ≤ im.stages ∧ ((fromNext = none ∨ im.isLast = false)) ∧ ((fromNext = none → (pt.mayClose = true ∨ pt.idleStep = true))) ∧ 
    ((pt.mayClose = true ∨ pt.idleStep = true) ∧ s.pipelineUp pt im = true ∧ pt.joined = true ∧ fromNext = some (s.merCount p) ∧ im.isFirst = true) :=
  ⟨withPipe { ptIm (imOf 2 0) with step := none, joined := true }, 127, _, _, some 0, rfl, rfl, by rfl, .inr rfl, fun h => (nomatch h), ⟨.inr rfl, rfl, rfl, rfl, rfl⟩⟩

theorem test_w_PipelinesStepAndReplay_1x : ∃ (s : State) (p : Nat) (pt : Part) (im : Image) (fromNext : Option Nat), s.part p = some pt ∧ pt.image = some im ∧ 2 ≤ im.stages ∧ ((fromNext = none ∨ im.isLast = false)) ∧ ((fromNext = none → (pt.mayClose = true ∨ pt.idleStep = true))) ∧ 
    ((pt.mayClose = true ∨ pt.idleStep = true) ∧ s.pipelineUp pt im = true ∧ pt.joined = false ∧ pt.pipeDone ≠ none ∧ im.isFirst = true) :=
  ⟨withPipe { ptIm (imOf 2 0) with step := none, pipeDone := some 9 }, 127, _, _, none, rfl, rfl, by rfl, .inl rfl, fun _ => .inr rfl, ⟨.inr rfl, rfl, rfl, by decide, rfl⟩⟩

theorem test_w_PipelinesStepAndReplay_1y : ∃ (s : State) (p : Nat) (pt : Part) (im : Image) (fromNext : Option Nat), s.part p = some pt ∧ pt.image = some im ∧ 2 ≤ im.stages ∧ ((fromNext = none ∨ im.isLast = false)) ∧ ((fromNext = none → (pt.mayClose = true ∨ pt.idleStep = true))) ∧ 
    ((pt.mayClose = true ∨ pt.idleStep = true) ∧ s.pipelineUp pt im = true ∧ im.isLast = true ∧ im.isFirst = false) :=
  ⟨withPipe { ptIm (imOf 2 1) with step := none }, 127, _, _, none, rfl, rfl, by rfl, .inl rfl, fun _ => .inr rfl, ⟨.inr rfl, rfl, rfl, rfl⟩⟩

theorem test_w_PipelinesStepAndReplay_1z : ∃ (s : State) (p : Nat) (pt : Part) (im : Image) (fromNext : Option Nat), s.part p = some pt ∧ pt.image = some im ∧ 2 ≤ im.stages ∧ ((fromNext = none ∨ im.isLast = false)) ∧ ((fromNext = none → (pt.mayClose = true ∨ pt.idleStep = true))) ∧ 
    (s.pipelineUp pt im = false) :=
  ⟨withPart { ptIm (imOf 2 0) with step := none }, 127, _, _, none, rfl, rfl, by rfl, .inl rfl, fun _ => .inr rfl, rfl⟩

theorem test_w_PipelinesStepAndReplay_2 : ∃ (s : State) (p t count : Nat) (conf : List Nat) (pt : Part) (im : Image), s.part p = some pt ∧ pt.image = some im ∧ 2 ≤ im.stages ∧ im.isFirst = false ∧ count < 2 ^ 32 :=
  ⟨withPipe (ptIm (imOf 2 1)), 127, 500, 4294967295, [], _, _, rfl, rfl, by rfl, rfl, by decide⟩

theorem test_w_PipelinesStepAndReplay_3 : ∃ (s : State) (p stage handle target : Nat) (pt : Part) (im : Image), s.part p = some pt ∧ pt.image = some im ∧ im.isFirst = true ∧ stage < im.stages :=
  ⟨withPipe (ptIm (imOf 2 0)), 127, 1, 5, 2, _, _, rfl, rfl, rfl, by decide⟩

theorem test_w_PipelinesStepAndReplay_4 : ∃ (s : State) (p count : Nat) (block : List Word) (ds : List Decision) (pt : Part) (im : Image), s.part p = some pt ∧ pt.image = some im ∧ im.isFirst = false :=
  ⟨withPipe (ptIm (imOf 2 1)), 127, 1, [], [], _, _, rfl, rfl, rfl⟩

theorem test_w_PipelinesStepAndReplay_5 : ∃ (s : State) (p handle beam token : Nat) (pt : Part), s.part p = some pt :=
  ⟨withPipe (ptIm (imOf 2 1)), 127, 5, 0, 9, _, rfl⟩

theorem test_w_PipelinesStepAndReplay_6 : ∃ (s : State) (p : Nat) (pt : Part) (im : Image) (v : StepSt), s.part p = some pt ∧ pt.image = some im ∧ pt.step = some v ∧ v.failed ≠ none ∧ v.repair = false ∧ v.attempts < 3 ∧ p < 128 :=
  ⟨withPart { ptIm (imOf 1 0) with step := some { stepAt 1 with failed := some .uncorrectable, attempts := 2 } }, 127, _, _, _, rfl, rfl, rfl, by decide, rfl, by decide, by decide⟩

theorem test_w_PipelinesStepAndReplay_7 : ∃ (s : State) (p : Nat) (pt : Part) (im : Image) (v : StepSt), s.part p = some pt ∧ pt.image = some im ∧ pt.step = some v ∧ v.failed ≠ none ∧ v.repair = true ∧ 
    (pt.loadFault im = none) ∧ (v.failed = some .decodeFault) :=
  ⟨withPart { ptIm (imOf 1 0) with step := some { stepAt 1 with failed := some .decodeFault, repair := true } }, 127, _, _, _, rfl, rfl, rfl, by decide, rfl, ⟨by decide +kernel, by decide +kernel⟩⟩

theorem test_w_PipelinesStepAndReplay_7z : ∃ (s : State) (p : Nat) (pt : Part) (im : Image) (v : StepSt), s.part p = some pt ∧ pt.image = some im ∧ pt.step = some v ∧ v.failed ≠ none ∧ v.repair = true ∧ 
    (v.failed ≠ some .decodeFault) :=
  ⟨withPart { ptIm (imOf 1 0) with step := some { stepAt 1 with failed := some .uncorrectable, repair := true } }, 127, _, _, _, rfl, rfl, rfl, by decide, rfl, by decide +kernel⟩

theorem test_w_PipelinesStepAndReplay_7y : ∃ (s : State) (p : Nat) (pt : Part) (im : Image) (v : StepSt), s.part p = some pt ∧ pt.image = some im ∧ pt.step = some v ∧ v.failed ≠ none ∧ v.repair = true ∧ 
    (pt.loadFault im ≠ none) :=
  ⟨withPart { ptIm { imOf 1 0 with shard := podShard 1 } with step := some { stepAt 1 with failed := some .decodeFault, repair := true } }, 127, _, _, _, rfl, rfl, rfl, by decide, rfl, by decide +kernel⟩

/-- A frame on a partition. -/
def reqIdle : Req := Req.opened 0 (openOpts []) true []
/-- The atlas of a ring of the modules 0 and 64. -/
def ringAtlas : Bytes := List.replicate 11 0#8 ++ [2#8] ++ List.replicate 4 0#8 ++ [0#8, 0#8, 0#8, 0x40#8, 4#8, 0#8, 0#8, 0x40#8]
/-- A partition in that ring. -/
def ringIm : Image := { imOf 1 0 with atlas := ringAtlas }
/-- A partition in it. -/
def ptRing : Part := ptIm ringIm
/-- The device with a number in the ring, two sheets and one of them kept back for segments. -/
def inRingAt (n : Nat) (pt : Part) : State :=
  let s := ((withPart pt).putReg .kv 127 0x04 2#32).putReg .kv 127 0x10 0x10000#32
  { s with veolo := { State.reset.veolo with num := n } }
/-- A partition's installation under way. -/
def inst3 : Install := { ctx := own, fetchOnly := false, noHost := false, cartLen := 1, atlasLen := 20, cart := [], atlas := [], shard := [], stage := 0, src := .none, again := false, loading := false, image := none }
/-- The partial of nothing over one value. -/
def part1 : Partial := Partial.none 1
theorem ring_eq {n : Nat} {pt : Part} (hn : n = 0 ∨ n = 64) (h : pt.image = ptRing.image) : (inRingAt n pt).ringOf 127 = [0, 64] := by
  unfold State.ringOf
  rw [show (inRingAt n pt).part 127 = some pt by rfl]
  simp only [Option.bind_some, h]
  rw [show ptRing.image = some ringIm from rfl, show (inRingAt n pt).veolo.num = n from rfl]
  simp only [Option.map_some, Option.bind_some, Option.getD_some]
  unfold Image.ring
  rw [show atlasEntries ringIm.atlas = [(0, 0, 1), (64, 0, 1)] by decide +kernel]
  have e : ([0, 64] : List Nat).mergeSort = [0, 64] := List.mergeSort_of_pairwise (by decide)
  obtain rfl | rfl := hn <;> simp [e]
theorem ring_in {n : Nat} {pt : Part} (hn : n = 0 ∨ n = 64) (h : pt.image = ptRing.image) : (inRingAt n pt).inRing 127 = true := by
  unfold State.inRing
  rw [ring_eq hn h]
  obtain rfl | rfl := hn <;> rfl
theorem ring_pos {n : Nat} {pt : Part} (hn : n = 0 ∨ n = 64) (h : pt.image = ptRing.image) : (inRingAt n pt).ringPos 127 = n / 64 := by
  unfold State.ringPos
  rw [ring_eq hn h]
  obtain rfl | rfl := hn <;> rfl

theorem test_w_FirmwareIsLoaded_1 : ∃ (s : State) (c : Ctx) (flags : Nat) (off : Nat) (d : Bytes), s.accepts c 0x0601 .keeperEarly true ∧ flags < 4 ∧ off % 16 = 0 ∧ d.length % 16 = 0 ∧ d.length ≤ (if s.genOf c = 2 then 224 else 4080) ∧ s.dev.fwAwait = none ∧ ((∀ l, s.dev.load = some l → l.last = false ∧ l.sess = c.sess)) ∧ ((flags % 2 = 1 → s.dev.actQueued = none)) ∧ off < 2 ^ 32 ∧ 
    (let so : Option Bytes := if flags % 2 = 1 then some [] else s.dev.load.map (·.bytes); (flags % 2 = 1) ∧ (so = some [] ∧ off = 0 ∧ ([] ++ d).length ≤ 16777216) ∧ (flags / 2 % 2 = 0)) :=
  ⟨run, own, 1, 0, List.replicate 16 0#8, ⟨rfl, rfl, fun _ => rfl, rfl⟩, by decide, rfl, rfl, by decide, rfl, fun l h => (by cases h), by decide, by decide, ⟨rfl, by decide, rfl⟩⟩

theorem test_w_FirmwareIsLoaded_1y : ∃ (s : State) (c : Ctx) (flags : Nat) (off : Nat) (d : Bytes), s.accepts c 0x0601 .keeperEarly true ∧ flags < 4 ∧ off % 16 = 0 ∧ d.length % 16 = 0 ∧ d.length ≤ (if s.genOf c = 2 then 224 else 4080) ∧ s.dev.fwAwait = none ∧ ((∀ l, s.dev.load = some l → l.last = false ∧ l.sess = c.sess)) ∧ ((flags % 2 = 1 → s.dev.actQueued = none)) ∧ off < 2 ^ 32 ∧ 
    (let so : Option Bytes := if flags % 2 = 1 then some [] else s.dev.load.map (·.bytes); (so = some [] ∧ flags / 2 % 2 = 1)) :=
  ⟨{ run with dev := { run.dev with load := some ⟨sidebandSess, own, 3, [], false⟩ } }, own, 2, 0, List.replicate 16 0#8, ⟨rfl, rfl, fun _ => rfl, rfl⟩, by decide, rfl, rfl, by decide, rfl, fun l h => (by cases h; exact ⟨rfl, rfl⟩), fun h => (by cases h), by decide, by decide⟩

theorem test_w_FirmwareIsLoaded_1z : ∃ (s : State) (c : Ctx) (flags : Nat) (off : Nat) (d : Bytes), s.accepts c 0x0601 .keeperEarly true ∧ flags < 4 ∧ off % 16 = 0 ∧ d.length % 16 = 0 ∧ d.length ≤ (if s.genOf c = 2 then 224 else 4080) ∧ s.dev.fwAwait = none ∧ ((∀ l, s.dev.load = some l → l.last = false ∧ l.sess = c.sess)) ∧ ((flags % 2 = 1 → s.dev.actQueued = none)) ∧ off < 2 ^ 32 ∧ 
    (let so : Option Bytes := if flags % 2 = 1 then some [] else s.dev.load.map (·.bytes); (so = none)) :=
  ⟨run, own, 0, 4294967280, List.replicate 16 0#8, ⟨rfl, rfl, fun _ => rfl, rfl⟩, by decide, rfl, rfl, by decide, rfl, fun l h => (by cases h), fun h => (by cases h), by decide, rfl⟩

theorem test_w_FirmwareIsLoaded_2 : ∃ (s : State) (l : FwLoad), s.dev.load = some l ∧ l.last = false :=
  ⟨{ run with dev := { run.dev with load := some ⟨sidebandSess, own, 3, [], false⟩ } }, _, rfl, rfl⟩

theorem test_w_FirmwareIsLoaded_3 : ∃ (s : State) (l : FwLoad), s.dev.load = some l ∧ l.last = true ∧ ⟨l.ctx, 0x0601⟩ ∈ s.lesar.owed ∧ 
    (imageCheck 2 l.bytes = some .badFrame) :=
  ⟨{ { run with dev := { run.dev with load := some ⟨sidebandSess, own, 3, [], true⟩ } } with lesar := { run.lesar with owed := [⟨own, 0x0601⟩] } }, _, rfl, rfl, List.mem_singleton.mpr rfl, rfl⟩

theorem test_w_FirmwareIsLoaded_4 : ∃ (s : State) (c : Ctx), s.dev.fwAwait = some (some c) ∧ ⟨c, 0x0601⟩ ∈ s.lesar.owed ∧ 
    (s.dev.phase = .ready) ∧ (s.flash.half = []) :=
  ⟨{ { run with dev := { run.dev with fwAwait := some (some own), phase := .ready } } with lesar := { run.lesar with owed := [⟨own, 0x0601⟩] } }, own, rfl, List.mem_singleton.mpr rfl, ⟨rfl, rfl⟩⟩

theorem test_w_FirmwareIsLoaded_5 : ∃ (s : State), s.dev.fwAwait = none ∧ s.dev.phase = .running :=
  ⟨run, rfl, rfl⟩

theorem test_w_FirmwareStopsAndActivates_1 : ∃ (s : State), s.dev.phase = .running ∧ s.dev.fwHalted = false :=
  ⟨{ withPart { pt0 with install := some inst3 } with lender := run.lender }, rfl, rfl⟩

theorem test_w_FirmwareStopsAndActivates_2 : ∃ (s : State), s.dev.phase = .running ∧ s.dev.fwHalted = false ∧ s.parts = [] ∧ ((∀ o ∈ s.lesar.owed, serverOf o.opcode ≠ .firmware)) ∧ 
    (∃ m : Mbox, s.lesar.mboxes = [m] ∧ serverOf m.opcode = .firmware ∧ m.complete = true) :=
  ⟨{ run with lesar := { run.lesar with mboxes := [⟨sidebandSess, none, 3, 127, 5, 0x0501, [], true⟩] } }, rfl, rfl, rfl, fun o h => (by cases h), ⟨_, rfl, rfl, rfl⟩⟩

theorem test_w_FirmwareStopsAndActivates_2z : ∃ (s : State), s.dev.phase = .running ∧ s.dev.fwHalted = false ∧ s.parts = [] ∧ ((∀ o ∈ s.lesar.owed, serverOf o.opcode ≠ .firmware)) ∧ 
    (∀ m ∈ s.lesar.mboxes, serverOf m.opcode ≠ .firmware) :=
  ⟨run, rfl, rfl, rfl, fun o h => (by cases h), fun m h => (by cases h)⟩

theorem test_w_FirmwareStopsAndActivates_3 : ∃ (s : State) (c : Ctx) (img : Bytes), s.accepts c 0x0602 .keeper true ∧ s.dev.pendingImage = some img ∧ s.dev.load = none ∧ s.dev.actQueued = none ∧ s.dev.reset = none ∧ 
    (s.calm = true) :=
  ⟨{ run with now := 1000000000, guard := { run.guard with normalSince := 0 }, dev := { run.dev with pendingImage := some [1#8], actQueued := none } }, own, [1#8], ⟨rfl, rfl, fun _ => rfl, rfl⟩, rfl, rfl, rfl, rfl, by decide +kernel⟩

theorem test_w_FirmwareStopsAndActivates_3z : ∃ (s : State) (c : Ctx) (img : Bytes), s.accepts c 0x0602 .keeper true ∧ s.dev.pendingImage = some img ∧ s.dev.load = none ∧ s.dev.actQueued = none ∧ s.dev.reset = none ∧ 
    (s.calm = false) :=
  ⟨{ run with now := 999999999, guard := { run.guard with normalSince := 0 }, dev := { run.dev with pendingImage := some [1#8], actQueued := none } }, own, [1#8], ⟨rfl, rfl, fun _ => rfl, rfl⟩, rfl, rfl, rfl, rfl, by decide +kernel⟩

theorem test_w_FirmwareStopsAndActivates_4 : ∃ (s : State) (c : Ctx), s.dev.actQueued = some c ∧ 
    (s.calm = true) :=
  ⟨{ run with now := 1000000000, guard := { run.guard with normalSince := 0 }, dev := { run.dev with pendingImage := some [1#8], actQueued := some own } }, own, rfl, by decide +kernel⟩

theorem test_w_RingMembersFold_1 : ∃ (s : State) (p col ns : Nat) (inc own : Partial), 
    (let k := s.ringPos p; let n := (s.ringOf p).length; (k + 1 < n)) :=
  ⟨inRingAt 0 ptRing, 127, 1, 0, part1, part1, (by show (inRingAt 0 ptRing).ringPos 127 + 1 < ((inRingAt 0 ptRing).ringOf 127).length; rw [ring_pos (pt := ptRing) (.inl rfl) rfl, ring_eq (pt := ptRing) (.inl rfl) rfl]; first | done | decide)⟩

theorem test_w_RingMembersFold_1y : ∃ (s : State) (p col ns : Nat) (inc own : Partial), 
    (let k := s.ringPos p; let n := (s.ringOf p).length; (k + 1 = n ∧ col ≠ k)) :=
  ⟨inRingAt 64 ptRing, 127, 0, 0, part1, part1, (by show (inRingAt 64 ptRing).ringPos 127 + 1 = ((inRingAt 64 ptRing).ringOf 127).length ∧ 0 ≠ (inRingAt 64 ptRing).ringPos 127; rw [ring_pos (pt := ptRing) (.inr rfl) rfl, ring_eq (pt := ptRing) (.inr rfl) rfl]; first | done | decide)⟩

theorem test_w_RingMembersFold_1z : ∃ (s : State) (p col ns : Nat) (inc own : Partial), 
    (let k := s.ringPos p; let n := (s.ringOf p).length; (k + 1 = n ∧ col = k)) :=
  ⟨inRingAt 64 ptRing, 127, 1, 0, part1, part1, (by show (inRingAt 64 ptRing).ringPos 127 + 1 = ((inRingAt 64 ptRing).ringOf 127).length ∧ 1 = (inRingAt 64 ptRing).ringPos 127; rw [ring_pos (pt := ptRing) (.inr rfl) rfl, ring_eq (pt := ptRing) (.inr rfl) rfl]; first | done | decide)⟩

theorem test_w_RingMembersFold_2 : ∃ (s : State) (p ns : Nat) (r : Partial) (pt : Part), s.part p = some pt :=
  ⟨inRingAt 0 ptRing, 127, 1, part1, _, rfl⟩

theorem test_w_RingMembersFold_3 : ∃ (s : State) (p col ns : Nat) (inc own : Partial) (pt : Part), s.part p = some pt ∧ s.inRing p = true ∧ col < (s.ringOf p).length ∧ 
    (let k := s.ringPos p; let n := (s.ringOf p).length; (ns ≠ 0 ∧ col = k ∧ k + 1 ≠ n)) :=
  ⟨inRingAt 0 ptRing, 127, 0, 7, part1, part1, _, rfl, ring_in (.inl rfl) rfl, (by show 0 < ((inRingAt 0 ptRing).ringOf 127).length; rw [ring_eq (pt := ptRing) (.inl rfl) rfl]; first | done | decide), (by show 7 ≠ 0 ∧ 0 = (inRingAt 0 ptRing).ringPos 127 ∧ (inRingAt 0 ptRing).ringPos 127 + 1 ≠ ((inRingAt 0 ptRing).ringOf 127).length; rw [ring_pos (pt := ptRing) (.inl rfl) rfl, ring_eq (pt := ptRing) (.inl rfl) rfl]; first | done | decide)⟩

theorem test_w_RingMembersFold_3y : ∃ (s : State) (p col ns : Nat) (inc own : Partial) (pt : Part), s.part p = some pt ∧ s.inRing p = true ∧ col < (s.ringOf p).length ∧ 
    (ns = 0) ∧ (∀ g ∈ pt.segments, g.reply = none) :=
  ⟨inRingAt 0 ptRing, 127, 0, 0, part1, part1, _, rfl, ring_in (.inl rfl) rfl, (by show 0 < ((inRingAt 0 ptRing).ringOf 127).length; rw [ring_eq (pt := ptRing) (.inl rfl) rfl]; first | done | decide), ⟨by decide +kernel, fun g h => (by cases h)⟩⟩

theorem test_w_RingMembersFold_3z : ∃ (s : State) (p col ns : Nat) (inc own : Partial) (pt : Part), s.part p = some pt ∧ s.inRing p = true ∧ col < (s.ringOf p).length ∧ 
    (let o := (s.ringOf p).getD col 0; (ns = 0) ∧ (∃ g r, pt.segments = [] ++ g :: [] ∧ g.owner = o ∧ g.reply = some r)) :=
  ⟨inRingAt 0 { ptRing with segments := [⟨64, 5, 1, [], [], 1, some part1⟩] }, 127, 1, 0, part1, part1, _, rfl, ring_in (.inl rfl) rfl, (by show 1 < ((inRingAt 0 { ptRing with segments := [⟨64, 5, 1, [], [], 1, some part1⟩] }).ringOf 127).length; rw [ring_eq (pt := { ptRing with segments := [⟨64, 5, 1, [], [], 1, some part1⟩] }) (.inl rfl) rfl]; first | done | decide), ⟨by decide +kernel, ⟨_, part1, rfl, (by show 64 = ((inRingAt 0 { ptRing with segments := [⟨64, 5, 1, [], [], 1, some part1⟩] }).ringOf 127).getD 1 0; rw [ring_eq (pt := { ptRing with segments := [⟨64, 5, 1, [], [], 1, some part1⟩] }) (.inl rfl) rfl]; first | done | decide), rfl⟩⟩⟩

theorem test_w_RingMembersFold_4 : ∃ (s : State) (p owner h off first : Nat) (toks : List Nat) (blocked : Bool) (own : List Partial) (pt : Part), s.part p = some pt ∧ s.inRing p = true ∧ off < (s.ringOf p).length ∧ (s.ringOf p).getD ((s.ringPos p + (s.ringOf p).length - off) % (s.ringOf p).length) 0 = owner ∧ pt.segment owner h = none ∧ 
    (off = 0) :=
  ⟨inRingAt 0 ptRing, 127, 0, 5, 0, 0, [7], false, [part1], _, rfl, ring_in (.inl rfl) rfl, (by show 0 < ((inRingAt 0 ptRing).ringOf 127).length; rw [ring_eq (pt := ptRing) (.inl rfl) rfl]; first | done | decide), (by show ((inRingAt 0 ptRing).ringOf 127).getD (((inRingAt 0 ptRing).ringPos 127 + ((inRingAt 0 ptRing).ringOf 127).length - 0) % ((inRingAt 0 ptRing).ringOf 127).length) 0 = 0; rw [ring_pos (pt := ptRing) (.inl rfl) rfl, ring_eq (pt := ptRing) (.inl rfl) rfl]; first | done | decide), rfl, by decide +kernel⟩

theorem test_w_RingMembersFold_4z : ∃ (s : State) (p owner h off first : Nat) (toks : List Nat) (blocked : Bool) (own : List Partial) (pt : Part), s.part p = some pt ∧ s.inRing p = true ∧ off < (s.ringOf p).length ∧ (s.ringOf p).getD ((s.ringPos p + (s.ringOf p).length - off) % (s.ringOf p).length) 0 = owner ∧ pt.segment owner h = none ∧ 
    (off ≠ 0) ∧ (pt.segSheets + (toks.length + 127) / 128 ≤ s.ringReserve p ∧ pt.sheets.length + (toks.length + 127) / 128 ≤ s.sheetTotal p ∧ NMap.sorted pt.sheets = true) :=
  ⟨inRingAt 0 ptRing, 127, 64, 5, 1, 0, [7], true, [part1], _, rfl, ring_in (.inl rfl) rfl, (by show 1 < ((inRingAt 0 ptRing).ringOf 127).length; rw [ring_eq (pt := ptRing) (.inl rfl) rfl]; first | done | decide), (by show ((inRingAt 0 ptRing).ringOf 127).getD (((inRingAt 0 ptRing).ringPos 127 + ((inRingAt 0 ptRing).ringOf 127).length - 1) % ((inRingAt 0 ptRing).ringOf 127).length) 0 = 64; rw [ring_pos (pt := ptRing) (.inl rfl) rfl, ring_eq (pt := ptRing) (.inl rfl) rfl]; first | done | decide), rfl, ⟨by decide +kernel, by decide +kernel⟩⟩

theorem test_w_RingMembersFold_5 : ∃ (s : State) (p owner h off round first : Nat) (toks : List Nat) (blocked : Bool) (own : List Partial) (pt : Part) (g : Segment), s.part p = some pt ∧ s.inRing p = true ∧ off < (s.ringOf p).length ∧ (s.ringOf p).getD ((s.ringPos p + (s.ringOf p).length - off) % (s.ringOf p).length) 0 = owner ∧ 0 < round ∧ round < (s.ringOf p).length ∧ pt.segment owner h = some g ∧ g.rounds = round :=
  ⟨inRingAt 0 { ptRing with segments := [⟨64, 5, 1, [0], [], 1, none⟩] }, 127, 64, 5, 1, 1, 0, [7], true, [part1], _, _, rfl, ring_in (.inl rfl) rfl, (by show 1 < ((inRingAt 0 { ptRing with segments := [⟨64, 5, 1, [0], [], 1, none⟩] }).ringOf 127).length; rw [ring_eq (pt := { ptRing with segments := [⟨64, 5, 1, [0], [], 1, none⟩] }) (.inl rfl) rfl]; first | done | decide), (by show ((inRingAt 0 { ptRing with segments := [⟨64, 5, 1, [0], [], 1, none⟩] }).ringOf 127).getD (((inRingAt 0 { ptRing with segments := [⟨64, 5, 1, [0], [], 1, none⟩] }).ringPos 127 + ((inRingAt 0 { ptRing with segments := [⟨64, 5, 1, [0], [], 1, none⟩] }).ringOf 127).length - 1) % ((inRingAt 0 { ptRing with segments := [⟨64, 5, 1, [0], [], 1, none⟩] }).ringOf 127).length) 0 = 64; rw [ring_pos (pt := { ptRing with segments := [⟨64, 5, 1, [0], [], 1, none⟩] }) (.inl rfl) rfl, ring_eq (pt := { ptRing with segments := [⟨64, 5, 1, [0], [], 1, none⟩] }) (.inl rfl) rfl]; first | done | decide), by decide, (by show 1 < ((inRingAt 0 { ptRing with segments := [⟨64, 5, 1, [0], [], 1, none⟩] }).ringOf 127).length; rw [ring_eq (pt := { ptRing with segments := [⟨64, 5, 1, [0], [], 1, none⟩] }) (.inl rfl) rfl]; first | done | decide), rfl, rfl⟩

theorem test_w_RingMembersFold_6 : ∃ (s : State) (p owner h : Nat) (own : Partial) (pt : Part), s.part p = some pt ∧ s.inRing p = true ∧ owner ∈ s.ringOf p ∧ 
    (s.ringPos p = 0) :=
  ⟨inRingAt 0 ptRing, 127, 64, 5, part1, _, rfl, ring_in (.inl rfl) rfl, (by show 64 ∈ (inRingAt 0 ptRing).ringOf 127; rw [ring_eq (pt := ptRing) (.inl rfl) rfl]; first | done | decide), (by show (inRingAt 0 ptRing).ringPos 127 = 0; rw [ring_pos (pt := ptRing) (.inl rfl) rfl]; first | done | decide)⟩

theorem test_w_RingMembersFold_6z : ∃ (s : State) (p owner h : Nat) (own : Partial) (pt : Part), s.part p = some pt ∧ s.inRing p = true ∧ owner ∈ s.ringOf p ∧ 
    (s.ringPos p ≠ 0) :=
  ⟨inRingAt 64 ptRing, 127, 64, 5, part1, _, rfl, ring_in (.inr rfl) rfl, (by show 64 ∈ (inRingAt 64 ptRing).ringOf 127; rw [ring_eq (pt := ptRing) (.inr rfl) rfl]; first | done | decide), (by show (inRingAt 64 ptRing).ringPos 127 ≠ 0; rw [ring_pos (pt := ptRing) (.inr rfl) rfl]; first | done | decide)⟩

theorem test_w_RingMembersFold_7 : ∃ (s : State) (p owner h : Nat) (pt : Part) (g : Segment), s.part p = some pt ∧ pt.segment owner h = some g :=
  ⟨inRingAt 0 { ptRing with segments := [⟨64, 5, 1, [0], [], 1, none⟩] }, 127, 64, 5, _, _, rfl, rfl⟩

theorem test_w_GazetteerWalksEnd_1 : ∃ (s : State) (p h t0 : Nat) (pt : Part), s.part p = some pt ∧ s.walkRuns = false ∧ s.survey.gzOut = none ∧ 
    (let late := s.walks.find? (fun w => decide (w.2.2 + 10000000 ≤ s.now)); (late = some (p, h, t0))) :=
  ⟨{ withPart pt0 with now := 10000000, walks := [(127, 5, 0)] }, 127, 5, 0, _, rfl, rfl, rfl, by decide +kernel⟩

theorem test_w_GazetteerWalksEnd_1z : ∃ (s : State) (p h t0 : Nat) (pt : Part), s.part p = some pt ∧ s.walkRuns = false ∧ s.survey.gzOut = none ∧ 
    (let late := s.walks.find? (fun w => decide (w.2.2 + 10000000 ≤ s.now)); (late = none ∧ s.walks.find? (fun w => s.walks.all (fun v => decide (s.endpointClass v.1 ≤ s.endpointClass w.1))) = some (p, h, t0))) :=
  ⟨{ withPart pt0 with now := 9999999, walks := [(127, 5, 0)] }, 127, 5, 0, _, rfl, rfl, rfl, by decide +kernel⟩

theorem test_w_GazetteerWalksEnd_2 : ∃ (s : State) (p h : Nat) (pt : Part) (im : Image) (r : Req), s.part p = some pt ∧ pt.image = some im ∧ NMap.find pt.reqs h = some r ∧ h ∈ pt.gzWalkOf ∧ s.dram.bad = [] ∧ s.dram.failed = [] ∧ 
    (let w := pt.walk (walkLimit r.prompt.length) (s.hashSeed p r.opts.inset) none r.prompt; (pt.gzState = 2 ∧ w.2 = .limit)) :=
  ⟨withPart { ptIm (imOf 1 0) with reqs := [(5, reqIdle)], gzWalkOf := [5], gzState := 2 }, 127, 5, _, _, _, rfl, rfl, rfl, List.mem_singleton.mpr rfl, rfl, rfl, by decide⟩

theorem test_w_GazetteerWalksEnd_3 : ∃ (s : State) (p : Nat) (pt : Part) (im : Image), s.part p = some pt ∧ pt.image = some im ∧ 
    (pt.gzState = 3) ∧ (s.survey.gzOut = none ∧ s.dram.bad = [] ∧ s.dram.failed = []) :=
  ⟨withPart { ptIm (imOf 1 0) with reqs := [(5, reqIdle)], gzWalkOf := [5], gzState := 3 }, 127, _, _, rfl, rfl, ⟨rfl, by decide⟩⟩

theorem test_w_GazetteerWalksEnd_3z : ∃ (s : State) (p : Nat) (pt : Part) (im : Image), s.part p = some pt ∧ pt.image = some im ∧ 
    (pt.gzState = 1) :=
  ⟨withPart { ptIm (imOf 1 0) with reqs := [(5, reqIdle)], gzWalkOf := [5], gzState := 1 }, 127, _, _, rfl, rfl, rfl⟩

/-- An OPEN_REQUEST with one beam, one token and the budget of one token. -/
def openPl (flags : Nat) : Bytes := beBytes 1 flags ++ [1#8] ++ List.replicate 22 0#8 ++ [0x3F#8, 0x80#8, 0#8, 0#8, 0#8, 0#8, 0#8, 1#8] ++ List.replicate 51 0#8 ++ [1#8] ++ List.replicate 4 0#8
/-- A started model whose vocabulary is token 0. -/
def ptVoc : Part := { ptIm { imOf 1 0 with cart := (cartOf 1).set 31 1#8 } with reqLimit := 0xFFFFFFFF#32, reqCtl := 0xFFFFFFFF#32 }
/-- That partition with request 5. -/
def reqSt (r : Req) : State := withPart { ptVoc with reqs := [(5, r)] }

theorem test_w_RequestsOpenAndChange_1 : ∃ (s : State) (c : Ctx) (pl : Bytes) (pt : Part), s.dataServes c 0x0101 pt ∧ 
    (let m := s.freeMbox c 0x0101; let r := Req.opened c.sess (openOpts pl) (beAt pl 0 1 % 2 == 1) (tokensAt pl 84 (beAt pl 80 4)); (m.openRefusal pt c.handle pl = none) ∧ (beAt pl 0 1 % 2 = 0 ∧ beAt pl 0 1 / 4 % 2 = 0 ∧ r.prompt ≠ [])) :=
  ⟨withPart ptVoc, own, openPl 0, _, ⟨⟨rfl, rfl, fun h => (nomatch h), rfl⟩, rfl, rfl, rfl, rfl, fun im h => (by cases h; rfl)⟩, ⟨by decide +kernel, by decide⟩⟩

theorem test_w_RequestsOpenAndChange_1x : ∃ (s : State) (c : Ctx) (pl : Bytes) (pt : Part), s.dataServes c 0x0101 pt ∧ 
    (let m := s.freeMbox c 0x0101; (m.openRefusal pt c.handle pl = none) ∧ (beAt pl 0 1 % 2 = 1)) :=
  ⟨withPart ptVoc, own, openPl 1, _, ⟨⟨rfl, rfl, fun h => (nomatch h), rfl⟩, rfl, rfl, rfl, rfl, fun im h => (by cases h; rfl)⟩, ⟨by decide +kernel, rfl⟩⟩

theorem test_w_RequestsOpenAndChange_1z : ∃ (s : State) (c : Ctx) (pl : Bytes) (pt : Part), s.dataServes c 0x0101 pt ∧ 
    (let m := s.freeMbox c 0x0101; (m.openRefusal pt c.handle pl = some .noResource)) :=
  ⟨withPart { ptVoc with reqCtl := 0#32 }, own, openPl 1, _, ⟨⟨rfl, rfl, fun h => (nomatch h), rfl⟩, rfl, rfl, rfl, rfl, fun im h => (by cases h; rfl)⟩, by decide +kernel⟩

theorem test_w_RequestsOpenAndChange_2 : ∃ (s : State) (c : Ctx) (pt : Part) (r : Req) (fl : Nat) (toks : List Nat), s.dataServes c 0x0102 pt ∧ badHandle c.handle = false ∧ NMap.find pt.reqs c.handle = some r ∧ (s.freeMbox c 0x0102).holds c r.sess = true ∧ fl < 2 ∧ toks.length < 2 ^ 32 ∧ ((∀ t ∈ toks, t < 2 ^ 32)) ∧ 
    (r.more = true) ∧ (pt.badToken toks = false) ∧ (pt.tokensFull toks.length = false) ∧ (fl = 0 ∧ r.resumeOpts = none ∧ r.opts.parent = none ∧ r.prompt ++ toks ≠ []) :=
  ⟨reqSt reqIdle, own, _, _, 0, [0], ⟨⟨rfl, rfl, fun h => (nomatch h), rfl⟩, rfl, rfl, rfl, rfl, fun im h => (by cases h; rfl)⟩, rfl, rfl, rfl, by decide, by decide, by decide, ⟨rfl, by decide +kernel, rfl, by decide⟩⟩

theorem test_w_RequestsOpenAndChange_2y : ∃ (s : State) (c : Ctx) (pt : Part) (r : Req) (fl : Nat) (toks : List Nat), s.dataServes c 0x0102 pt ∧ badHandle c.handle = false ∧ NMap.find pt.reqs c.handle = some r ∧ (s.freeMbox c 0x0102).holds c r.sess = true ∧ fl < 2 ∧ toks.length < 2 ^ 32 ∧ ((∀ t ∈ toks, t < 2 ^ 32)) ∧ 
    (r.more = true) ∧ (pt.badToken toks = true) ∧ (r.resumeOpts = none) :=
  ⟨reqSt reqIdle, own, _, _, 1, [1], ⟨⟨rfl, rfl, fun h => (nomatch h), rfl⟩, rfl, rfl, rfl, rfl, fun im h => (by cases h; rfl)⟩, rfl, rfl, rfl, by decide, by decide, by decide, ⟨rfl, by decide +kernel, rfl⟩⟩

theorem test_w_RequestsOpenAndChange_2z : ∃ (s : State) (c : Ctx) (pt : Part) (r : Req) (fl : Nat) (toks : List Nat), s.dataServes c 0x0102 pt ∧ badHandle c.handle = false ∧ NMap.find pt.reqs c.handle = some r ∧ (s.freeMbox c 0x0102).holds c r.sess = true ∧ fl < 2 ∧ toks.length < 2 ^ 32 ∧ ((∀ t ∈ toks, t < 2 ^ 32)) ∧ 
    (r.more = false) :=
  ⟨reqSt { reqIdle with more := false }, own, _, _, 1, [4294967295], ⟨⟨rfl, rfl, fun h => (nomatch h), rfl⟩, rfl, rfl, rfl, rfl, fun im h => (by cases h; rfl)⟩, rfl, rfl, rfl, by decide, by decide, by decide, rfl⟩

theorem test_w_RequestsOpenAndChange_3 : ∃ (s : State) (c : Ctx) (pt : Part) (r : Req), s.dataServes c 0x0103 pt ∧ badHandle c.handle = false ∧ NMap.find pt.reqs c.handle = some r ∧ ((r.sess = none ∨ (s.freeMbox c 0x0103).holds c r.sess = true)) ∧ ((∀ e ∈ pt.staged.cancels, e.1 ≠ c.handle)) :=
  ⟨reqSt { reqIdle with sess := none }, own, _, _, ⟨⟨rfl, rfl, fun h => (nomatch h), rfl⟩, rfl, rfl, rfl, rfl, fun im h => (by cases h; rfl)⟩, rfl, rfl, .inl rfl, fun e h => (by cases h)⟩

theorem test_w_RequestsOpenAndChange_4 : ∃ (s : State) (c : Ctx) (pt : Part) (ttl tier : Nat), s.dataServes c 0x0104 pt ∧ badHandle c.handle = false ∧ ttl < 2 ^ 32 ∧ tier < 256 ∧ 
    (86400 < ttl) :=
  ⟨reqSt reqIdle, own, _, 86401, 0, ⟨⟨rfl, rfl, fun h => (nomatch h), rfl⟩, rfl, rfl, rfl, rfl, fun im h => (by cases h; rfl)⟩, rfl, by decide, by decide, by decide⟩

theorem test_w_RequestsOpenAndChange_4y : ∃ (s : State) (c : Ctx) (pt : Part) (ttl tier : Nat), s.dataServes c 0x0104 pt ∧ badHandle c.handle = false ∧ ttl < 2 ^ 32 ∧ tier < 256 ∧ 
    (1 ≤ ttl ∧ ttl ≤ 86400 ∧ tier ≤ 2) ∧ (pt.decodes c.handle = false) :=
  ⟨reqSt reqIdle, own, _, 86400, 2, ⟨⟨rfl, rfl, fun h => (nomatch h), rfl⟩, rfl, rfl, rfl, rfl, fun im h => (by cases h; rfl)⟩, rfl, by decide, by decide, ⟨by decide, rfl⟩⟩

/-- An admitted sequence with nothing left to prefill. -/
def seq5 : Seq := ⟨5, 0, 0, [], 0, [], 0, false, none, 0, [], [], none⟩
/-- A request that decodes with one beam. -/
def reqRuns : Req := { Req.opened 0 { openOpts [] with beams := 1 } false [] with st := .admitted }

theorem test_w_RequestsOpenAndChange_4z : ∃ (s : State) (c : Ctx) (pt : Part) (ttl tier : Nat), s.dataServes c 0x0104 pt ∧ badHandle c.handle = false ∧ ttl < 2 ^ 32 ∧ tier < 256 ∧ 
    (let m := s.freeMbox c 0x0104; (1 ≤ ttl ∧ ttl ≤ 86400 ∧ tier ≤ 2) ∧ (pt.decodes c.handle = true ∧ m.holds c ((NMap.find pt.reqs c.handle).bind (·.sess)) = true ∧ s.pausedAll < 65536) ∧ (∀ e ∈ pt.staged.pauses, e.1 ≠ c.handle)) :=
  ⟨withPart { ptVoc with reqs := [(5, reqRuns)], seqs := [seq5] }, own, _, 1, 0, ⟨⟨rfl, rfl, fun h => (nomatch h), rfl⟩, rfl, rfl, rfl, rfl, fun im h => (by cases h; rfl)⟩, rfl, by decide, by decide, ⟨by decide, by decide, fun e h => (by cases h)⟩⟩

theorem test_w_RequestsOpenAndChange_5 : ∃ (s : State) (c : Ctx) (pl : Bytes) (pt : Part) (r : Req), s.dataServes c 0x0105 pt ∧ NMap.find pt.reqs c.handle = some r ∧ 
    (let m := s.freeMbox c 0x0105; let endPause := beAt pl 0 1 / 2 % 2 == 1; let more := beAt pl 0 1 % 2 == 1; let toks := tokensAt pl 16 (beAt pl 12 4); let o : ReqOpts := { r.opts with endPause := endPause, maxNew := beAt pl 4 4, ttl := beAt pl 8 4 }; (m.resumeRefusal pt c.part c.handle pl = none) ∧ (more = false ∧ o.maxNew = 0 ∧ r.left = 0 ∧ toks = [] ∧ endPause = false)) :=
  ⟨reqSt { reqIdle with st := .paused, more := false }, own, List.replicate 16 0#8, _, _, ⟨⟨rfl, rfl, fun h => (nomatch h), rfl⟩, rfl, rfl, rfl, rfl, fun im h => (by cases h; rfl)⟩, rfl, ⟨by decide +kernel, by decide⟩⟩

theorem test_w_RequestsOpenAndChange_5x : ∃ (s : State) (c : Ctx) (pl : Bytes) (pt : Part) (r : Req), s.dataServes c 0x0105 pt ∧ NMap.find pt.reqs c.handle = some r ∧ 
    (let m := s.freeMbox c 0x0105; let endPause := beAt pl 0 1 / 2 % 2 == 1; let more := beAt pl 0 1 % 2 == 1; let toks := tokensAt pl 16 (beAt pl 12 4); let o : ReqOpts := { r.opts with endPause := endPause, maxNew := beAt pl 4 4, ttl := beAt pl 8 4 }; (m.resumeRefusal pt c.part c.handle pl = none) ∧ (more = false ∧ ¬(o.maxNew = 0 ∧ r.left = 0 ∧ toks = []))) :=
  ⟨reqSt { reqIdle with st := .paused, more := false, left := 1 }, own, List.replicate 16 0#8, _, _, ⟨⟨rfl, rfl, fun h => (nomatch h), rfl⟩, rfl, rfl, rfl, rfl, fun im h => (by cases h; rfl)⟩, rfl, ⟨by decide +kernel, by decide⟩⟩

theorem test_w_RequestsOpenAndChange_5y : ∃ (s : State) (c : Ctx) (pl : Bytes) (pt : Part) (r : Req), s.dataServes c 0x0105 pt ∧ NMap.find pt.reqs c.handle = some r ∧ 
    (let m := s.freeMbox c 0x0105; let more := beAt pl 0 1 % 2 == 1; (m.resumeRefusal pt c.part c.handle pl = none) ∧ (more = true)) :=
  ⟨reqSt { reqIdle with st := .paused, more := false }, own, 1#8 :: List.replicate 15 0#8, _, _, ⟨⟨rfl, rfl, fun h => (nomatch h), rfl⟩, rfl, rfl, rfl, rfl, fun im h => (by cases h; rfl)⟩, rfl, ⟨by decide +kernel, rfl⟩⟩

theorem test_w_RequestsOpenAndChange_5z : ∃ (s : State) (c : Ctx) (pl : Bytes) (pt : Part) (r : Req), s.dataServes c 0x0105 pt ∧ NMap.find pt.reqs c.handle = some r ∧ 
    (let m := s.freeMbox c 0x0105; (m.resumeRefusal pt c.part c.handle pl = some .notPermitted)) :=
  ⟨reqSt reqIdle, own, List.replicate 16 0#8, _, _, ⟨⟨rfl, rfl, fun h => (nomatch h), rfl⟩, rfl, rfl, rfl, rfl, fun im h => (by cases h; rfl)⟩, rfl, by decide +kernel⟩

theorem test_w_RequestsWaitAndEnd_1 : ∃ (s : State) (p h : Nat) (pt : Part) (r : Req), s.part p = some pt ∧ NMap.find pt.reqs h = some r ∧ r.more = true ∧ 
    (r.resumeOpts = none) :=
  ⟨reqSt reqIdle, 127, 5, _, _, rfl, rfl, rfl, rfl⟩

theorem test_w_RequestsWaitAndEnd_1z : ∃ (s : State) (p h : Nat) (pt : Part) (r : Req), s.part p = some pt ∧ NMap.find pt.reqs h = some r ∧ r.more = true ∧ 
    (r.resumeOpts ≠ none) :=
  ⟨reqSt { reqIdle with resumeOpts := some reqIdle.opts }, 127, 5, _, _, rfl, rfl, rfl, by decide⟩

theorem test_w_RequestsWaitAndEnd_2 : ∃ (s : State) (p h : Nat) (pt : Part) (r : Req), s.part p = some pt ∧ NMap.find pt.reqs h = some r ∧ r.st = .pausing ∧ r.resumeOpts = none ∧ 
    (∃ c, r.pauseBy = some c) :=
  ⟨reqSt { reqIdle with st := .pausing, pauseBy := some own }, 127, 5, _, _, rfl, rfl, rfl, rfl, ⟨_, rfl⟩⟩

theorem test_w_RequestsWaitAndEnd_3 : ∃ (s : State) (p h now t0 : Nat) (pt : Part) (r : Req), s.part p = some pt ∧ NMap.find pt.reqs h = some r ∧ 
    (r.endsAt = some t0 ∧ t0 ≤ now) ∧ (r.st = .restoring ∧ r.walked = false) :=
  ⟨reqSt { reqIdle with st := .restoring, endsAt := some 9 }, 127, 5, 9, 9, _, _, rfl, rfl, ⟨by decide, by decide⟩⟩

theorem test_w_RequestsWaitAndEnd_4 : ∃ (s : State) (p h : Nat), s.tomb p h ≠ none :=
  ⟨{ run with tombs := [⟨127, 5, .expired⟩] }, 127, 5, by decide⟩

/-- A bound stream with nothing queued. -/
def strm5 : Strm := { Strm.opened 0 0 with st := .bound }
/-- A started model with one place for a stream and chunks of one position. -/
def imStr : Image := { imOf 1 0 with cart := (((cartOf 1).set 12 8#8).set 63 1#8).set 53 1#8 }
/-- A partition of it with some streams. -/
def ptStr (ss : NMap Strm) : Part := { ptIm imStr with streams := ss }
/-- The first part of two of a chunk without bytes of one position. -/
def chunkPl (parts : Nat) : Bytes := [0#8, 0#8, 0#8] ++ beBytes 1 parts ++ List.replicate 9 0#8 ++ [1#8] ++ List.replicate 38 0#8

theorem test_w_StreamsTakeFrames_1 : ∃ (s : State) (c : Ctx) (pt : Part), s.dataServes c 0x0201 pt ∧ badHandle c.handle = false ∧ 
    (let places := (pt.image.map Image.streamPlaces).getD 0; let full := places ≤ pt.streams.length ∨ 16384 ≤ (s.parts.map (fun e => e.2.streams.length)).sum; (pt.inUse c.handle = false ∧ pt.serves = true ∧ ¬full)) :=
  ⟨withPart (ptStr []), own, _, ⟨⟨rfl, rfl, fun h => (nomatch h), rfl⟩, rfl, rfl, rfl, rfl, fun im h => (by cases h; rfl)⟩, rfl, by decide +kernel⟩

theorem test_w_StreamsTakeFrames_1y : ∃ (s : State) (c : Ctx) (pt : Part), s.dataServes c 0x0201 pt ∧ badHandle c.handle = false ∧ 
    (let places := (pt.image.map Image.streamPlaces).getD 0; let full := places ≤ pt.streams.length ∨ 16384 ≤ (s.parts.map (fun e => e.2.streams.length)).sum; (pt.inUse c.handle = false ∧ pt.serves = true ∧ full)) :=
  ⟨withPart (ptIm (imOf 1 0)), own, _, ⟨⟨rfl, rfl, fun h => (nomatch h), rfl⟩, rfl, rfl, rfl, rfl, fun im h => (by cases h; rfl)⟩, rfl, by decide +kernel⟩

theorem test_w_StreamsTakeFrames_1z : ∃ (s : State) (c : Ctx) (pt : Part), s.dataServes c 0x0201 pt ∧ badHandle c.handle = false ∧ 
    (pt.inUse c.handle = true) :=
  ⟨withPart (ptStr [(5, strm5)]), own, _, ⟨⟨rfl, rfl, fun h => (nomatch h), rfl⟩, rfl, rfl, rfl, rfl, fun im h => (by cases h; rfl)⟩, rfl, by decide +kernel⟩

theorem tookPart {o : Except Status Parts} (h : o.toOption.isSome = true) : o = .ok (o.toOption.get h) := by
  cases o with
  | ok t => rfl
  | error e => exact absurd h (by simp [Except.toOption])
theorem notTaken {o : Except Status Parts} {st : Status} (h : (match o with | .ok _ => none | .error e => some e) = some st) : o = .error st := by
  cases o with
  | ok t => cases h
  | error e => cases h; rfl

theorem test_w_StreamsTakeFrames_2 : ∃ (s : State) (c : Ctx) (pl : Bytes) (pt : Part) (im : Image) (v : Strm), s.dataServes c 0x0202 pt ∧ badHandle c.handle = false ∧ pt.image = some im ∧ NMap.find pt.streams c.handle = some v ∧ (s.freeMbox c 0x0202).holds c (some v.sess) = true ∧ 
    (v.finalSent = false) ∧ (∃ a : Parts, v.takePart im pl = .ok a ∧ a.next < a.parts) :=
  ⟨withPart (ptStr [(5, strm5)]), own, chunkPl 2, _, _, _, ⟨⟨rfl, rfl, fun h => (nomatch h), rfl⟩, rfl, rfl, rfl, rfl, fun im h => (by cases h; rfl)⟩, rfl, rfl, rfl, rfl, ⟨by decide +kernel, ⟨_, tookPart (by decide +kernel), by decide +kernel⟩⟩⟩

theorem test_w_StreamsTakeFrames_2x : ∃ (s : State) (c : Ctx) (pl : Bytes) (pt : Part) (im : Image) (v : Strm), s.dataServes c 0x0202 pt ∧ badHandle c.handle = false ∧ pt.image = some im ∧ NMap.find pt.streams c.handle = some v ∧ (s.freeMbox c 0x0202).holds c (some v.sess) = true ∧ 
    (v.finalSent = false) ∧ (∃ a : Parts, v.takePart im pl = .ok a ∧ a.parts ≤ a.next) :=
  ⟨withPart (ptStr [(5, strm5)]), own, chunkPl 1, _, _, _, ⟨⟨rfl, rfl, fun h => (nomatch h), rfl⟩, rfl, rfl, rfl, rfl, fun im h => (by cases h; rfl)⟩, rfl, rfl, rfl, rfl, ⟨by decide +kernel, ⟨_, tookPart (by decide +kernel), by decide +kernel⟩⟩⟩

theorem test_w_StreamsTakeFrames_2y : ∃ (s : State) (c : Ctx) (pl : Bytes) (pt : Part) (im : Image) (v : Strm), s.dataServes c 0x0202 pt ∧ badHandle c.handle = false ∧ pt.image = some im ∧ NMap.find pt.streams c.handle = some v ∧ (s.freeMbox c 0x0202).holds c (some v.sess) = true ∧ 
    (v.takePart im pl = .error .badFrame) :=
  ⟨withPart (ptStr [(5, strm5)]), own, [], _, _, _, ⟨⟨rfl, rfl, fun h => (nomatch h), rfl⟩, rfl, rfl, rfl, rfl, fun im h => (by cases h; rfl)⟩, rfl, rfl, rfl, rfl, notTaken (by decide +kernel)⟩

theorem test_w_StreamsTakeFrames_2z : ∃ (s : State) (c : Ctx) (pl : Bytes) (pt : Part) (im : Image) (v : Strm), s.dataServes c 0x0202 pt ∧ badHandle c.handle = false ∧ pt.image = some im ∧ NMap.find pt.streams c.handle = some v ∧ (s.freeMbox c 0x0202).holds c (some v.sess) = true ∧ 
    (v.takePart im pl = .error .noResource) :=
  ⟨withPart (ptStr [(5, { strm5 with queue := List.replicate 8 default })]), own, chunkPl 1, _, _, _, ⟨⟨rfl, rfl, fun h => (nomatch h), rfl⟩, rfl, rfl, rfl, rfl, fun im h => (by cases h; rfl)⟩, rfl, rfl, rfl, rfl, notTaken (by decide +kernel)⟩

theorem test_w_StreamsTakeFrames_3 : ∃ (v : Strm) (im : Image) (pl : Bytes) (a : Parts), ((∀ b : Parts, v.arriving = some b → 0 < b.next)) ∧ v.takePart im pl = .ok a :=
  ⟨strm5, imStr, chunkPl 1, _, fun b h => (by cases h), tookPart (by decide +kernel)⟩

theorem test_w_StreamsTakeFrames_4 : ∃ (s : State) (c : Ctx) (pt : Part) (v : Strm), s.dataServes c 0x0203 pt ∧ badHandle c.handle = false ∧ NMap.find pt.streams c.handle = some v ∧ (s.freeMbox c 0x0203).holds c (some v.sess) = true ∧ 
    (v.st = .bound) ∧ (∀ e ∈ pt.staged.parks, e.1 ≠ c.handle) :=
  ⟨withPart (ptStr [(5, strm5)]), own, _, _, ⟨⟨rfl, rfl, fun h => (nomatch h), rfl⟩, rfl, rfl, rfl, rfl, fun im h => (by cases h; rfl)⟩, rfl, rfl, rfl, ⟨by decide +kernel, fun e h => (by cases h)⟩⟩

theorem test_w_StreamsTakeFrames_4z : ∃ (s : State) (c : Ctx) (pt : Part) (v : Strm), s.dataServes c 0x0203 pt ∧ badHandle c.handle = false ∧ NMap.find pt.streams c.handle = some v ∧ (s.freeMbox c 0x0203).holds c (some v.sess) = true ∧ 
    (v.st ≠ .bound) :=
  ⟨withPart (ptStr [(5, { strm5 with st := .parked })]), own, _, _, ⟨⟨rfl, rfl, fun h => (nomatch h), rfl⟩, rfl, rfl, rfl, rfl, fun im h => (by cases h; rfl)⟩, rfl, rfl, rfl, by decide +kernel⟩

theorem test_w_StreamsTakeFrames_5 : ∃ (s : State) (c : Ctx) (pt : Part) (v : Strm), s.dataServes c 0x0204 pt ∧ badHandle c.handle = false ∧ NMap.find pt.streams c.handle = some v ∧ (s.freeMbox c 0x0204).holds c (some v.sess) = true ∧ ((∀ e ∈ pt.staged.closes, e.1 ≠ c.handle)) :=
  ⟨withPart (ptStr [(5, strm5)]), own, _, _, ⟨⟨rfl, rfl, fun h => (nomatch h), rfl⟩, rfl, rfl, rfl, rfl, fun im h => (by cases h; rfl)⟩, rfl, rfl, rfl, fun e h => (by cases h)⟩

theorem test_w_DramAndNandAreKept_1 : ∃ (s : State) (b d : Nat), b < 2 ^ 32 ∧ s.dram.failed = [] ∧ NMap.sorted s.dram.bad = true ∧ 64 * d = burstAddr (b / 2 ^ 26) (b / 32 % 2 ^ 21) (b % 32) ∧ 
    (b % 32 ≠ 31 ∧ NMap.find s.dram.bad d = some true) :=
  ⟨{ run with dram := { run.dram with bad := [(burstAddr 63 2097151 30 / 64, true)] } }, 4294967294, burstAddr 63 2097151 30 / 64, by decide, rfl, rfl, by decide +kernel, by decide +kernel⟩

theorem test_w_DramAndNandAreKept_1z : ∃ (s : State) (b d : Nat), b < 2 ^ 32 ∧ s.dram.failed = [] ∧ NMap.sorted s.dram.bad = true ∧ 64 * d = burstAddr (b / 2 ^ 26) (b / 32 % 2 ^ 21) (b % 32) ∧ 
    (b % 32 = 31) :=
  ⟨run, 4294967295, burstAddr 63 2097151 31 / 64, by decide, rfl, rfl, by decide +kernel, by decide +kernel⟩

theorem test_w_DramAndNandAreKept_2 : ∃ (ch row col : Nat), ch < 64 ∧ col < 31 :=
  ⟨63, 2097151, 30, by decide, by decide⟩

theorem test_w_DramAndNandAreKept_3 : ∃ (s : State) (hottest : List Nat), hottest.length = 8 ∧ 
    (105 < hottest.getD 0 0 ∧ s.dram.rates.getD 0 0 ≠ 2 ∧ (∀ j, j < 8 → j ≠ 0 → 105 < hottest.getD j 0 → s.dram.rates.getD j 0 = 2)) :=
  ⟨run, [106, 85, 86, 105, 0, 0, 0, 0], rfl, by decide +kernel⟩

theorem test_w_DramAndNandAreKept_3z : ∃ (s : State) (hottest : List Nat), hottest.length = 8 ∧ 
    ((∀ k, k < 8 → 105 < hottest.getD k 0 → s.dram.rates.getD k 0 = 2)) :=
  ⟨run, [105, 85, 86, 105, 0, 0, 0, 0], rfl, by decide +kernel⟩

theorem test_w_DramAndNandAreKept_4 : ∃ (s : State) (k : Nat), k < 8 :=
  ⟨run, 7, by decide⟩

theorem test_w_DramAndNandAreKept_5 : ∃ (s : State) (ch : Nat), ch < 64 ∧ ch ∉ s.dram.failed ∧ 
    (let n := NMap.get 0 s.dram.calFails ch; (n < 2)) :=
  ⟨run, 63, by decide, by decide, by decide +kernel⟩

theorem test_w_DramAndNandAreKept_5z : ∃ (s : State) (ch : Nat), ch < 64 ∧ ch ∉ s.dram.failed ∧ 
    (let n := NMap.get 0 s.dram.calFails ch; (2 ≤ n)) :=
  ⟨{ run with dram := { run.dram with calFails := [(63, 2)] } }, 63, by decide, by decide, by decide +kernel⟩

theorem test_w_DramAndNandAreKept_6 : ∃ (s : State) (ch : Nat), ch < 16 ∧ ch ∉ s.nand.failed :=
  ⟨run, 15, by decide, by decide⟩

theorem test_w_DramAndNandAreKept_7 : ∃ (s : State), 256000000 ≤ s.nand.written :=
  ⟨{ run with nand := { run.nand with written := 256000000 } }, by rfl⟩

theorem test_w_DramAndNandAreKept_8 : ∃ (s : State) (b : Nat), b < 211968 ∧ s.dieFree (blockDie b) = true ∧ (((s.reg .nt 0 0).field 31 16 * 1000 ≤ NMap.get 0 s.nand.reads b ∨ b ∈ s.nand.weak)) :=
  ⟨{ run with nand := { run.nand with weak := [211967] } }, 211967, by decide, rfl, .inr (by decide)⟩

theorem test_w_DramAndNandAreKept_8z : ∃ (s : State) (b : Nat), b < 211968 ∧ s.dieFree (blockDie b) = true ∧ (((s.reg .nt 0 0).field 31 16 * 1000 ≤ NMap.get 0 s.nand.reads b ∨ b ∈ s.nand.weak)) :=
  ⟨{ { run with nand := { run.nand with reads := [(63, 1000)] } } with regs := [(Blk.at .nt 0 0, 0x00010000#32)] }, 63, by decide, rfl, .inl (by decide +kernel)⟩

theorem test_w_DramAndNandAreKept_9 : ∃ (s : State) (b now : Nat) (retries : List Nat), b < 211968 ∧ s.dieFree (blockDie b) = true ∧ s.now ≤ now ∧ NMap.get 0 s.nand.lastRead b + (s.reg .nt 0 0).field 12 8 * 86400000000000 ≤ now ∧ 
    (retries.sum ≠ 0 ∧ (∀ k ∈ retries, k ≤ 2)) :=
  ⟨run, 211967, 2592000000000000, [1, 2], by decide, rfl, by decide, by decide +kernel, by decide +kernel⟩

theorem test_w_DramAndNandAreKept_9y : ∃ (s : State) (b now : Nat) (retries : List Nat), b < 211968 ∧ s.dieFree (blockDie b) = true ∧ s.now ≤ now ∧ NMap.get 0 s.nand.lastRead b + (s.reg .nt 0 0).field 12 8 * 86400000000000 ≤ now ∧ 
    (retries.sum = 0) :=
  ⟨run, 211967, 2592000000000000, [0], by decide, rfl, by decide, by decide +kernel, by decide +kernel⟩

theorem test_w_DramAndNandAreKept_9z : ∃ (s : State) (b now : Nat) (retries : List Nat), b < 211968 ∧ s.dieFree (blockDie b) = true ∧ s.now ≤ now ∧ NMap.get 0 s.nand.lastRead b + (s.reg .nt 0 0).field 12 8 * 86400000000000 ≤ now ∧ 
    (∃ k ∈ retries, 2 < k) :=
  ⟨run, 211967, 2592000000000000, [3], by decide, rfl, by decide, by decide +kernel, by decide +kernel⟩

theorem test_w_DramAndNandAreKept_10 : ∃ (s : State) (b : Nat), b < 211968 ∧ s.dieFree (blockDie b) = true ∧ NMap.get 0 s.nand.fill b = 0 ∧ 11 * s.nand.planeErases (b % 256) < 10 * 828 * NMap.get 0 s.nand.erases b ∧ 
    (let cold := ((s.nand.coldBlock (b % 256)).map s.nand.valid).getD []; (cold = [7])) :=
  ⟨{ run with nand := { run.nand with erases := [(63, 100)], fill := [(319, 1)], map := [(7, 319 * 1152)] } }, 63, by decide, rfl, rfl, by decide +kernel, by decide +kernel⟩

theorem test_w_DramAndNandAreKept_11 : ∃ (s : State) (bs : List Nat), s.nand.freeTenths < 20 ∧ bs ≠ [] ∧ ((∀ b ∈ bs, b < 211968 ∧ s.dieFree (blockDie b) = true ∧ ∀ e ∈ s.nand.fill, e.1 ∈ bs ∨ (s.nand.valid b).length ≤ (s.nand.valid e.1).length)) :=
  ⟨{ run with nand := { run.nand with freeTenths := 19 } }, [0, 63], by decide, by decide, by decide⟩

theorem test_w_DramAndNandAreKept_12 : ∃ (s : State) (d : Nat), NMap.find s.nand.dies d ≠ none :=
  ⟨{ run with nand := { run.nand with dies := [(63, 0)] } }, 63, by decide⟩

theorem test_w_DramAndNandAreKept_13 : ∃ (s : State) (n : Nat), s.nand.pauseWant = some n ∧ s.nand.pauseUsed = 0 :=
  ⟨{ run with nand := { run.nand with pauseWant := some 1200 } }, 1200, rfl, rfl⟩

theorem test_w_LoansAreServed_1 : ∃ (s : State) (p link n : Nat) (st : Status) (pt : Part), s.part p = some pt ∧ (link, n) ∈ pt.loanAsk ∧ 
    (st = .noResource) :=
  ⟨withPart { pt0 with loanAsk := [(7, 64)] }, 127, 7, 64, .noResource, _, rfl, List.mem_singleton.mpr rfl, by decide +kernel⟩

theorem test_w_LoansAreServed_2 : ∃ (s : State) (p id : Nat) (pt : Part) (l : Loan), s.part p = some pt ∧ pt.loans.find? (fun l => l.id == id) = some l ∧ 
    (l.notice = false) :=
  ⟨withPart { pt0 with loans := [⟨1, 7, 64, true, false, false, false, false, [], []⟩] }, 127, 1, _, _, rfl, rfl, by decide +kernel⟩

theorem test_w_LoansAreServed_2y : ∃ (s : State) (p id : Nat) (pt : Part) (l : Loan), s.part p = some pt ∧ pt.loans.find? (fun l => l.id == id) = some l ∧ 
    (l.notice = true ∧ l.movesDone = false) ∧ (∀ h r, NMap.find pt.reqs h = some r → r.tier = 16 + id → r.st ≠ .paused ∧ r.st ≠ .resuming) :=
  ⟨withPart { pt0 with loans := [⟨1, 7, 64, true, true, false, false, false, [], []⟩] }, 127, 1, _, _, rfl, rfl, ⟨by decide +kernel, fun h r e => (by cases e)⟩⟩

theorem test_w_LoansAreServed_2z : ∃ (s : State) (p id : Nat) (pt : Part) (l : Loan), s.part p = some pt ∧ pt.loans.find? (fun l => l.id == id) = some l ∧ 
    (l.notice = true ∧ l.movesDone = false) ∧ (∃ r, NMap.find pt.reqs 5 = some r ∧ r.tier = 16 + id ∧ r.st = .paused ∧ s.pauseRoom (movedBytes r.moved) = true) ∧ (pt.reqs.keys.filter (fun k => (NMap.find pt.reqs k).any (fun v => v.tier == 16 + id && (v.st == .paused || v.st == .resuming))) = [5]) :=
  ⟨{ withPart { pt0 with loans := [⟨1, 7, 64, true, true, false, false, false, [], []⟩], reqs := [(5, { reqIdle with tier := 17, st := .paused })] } with nand := { run.nand with pauseSize := 1 } }, 127, 1, _, _, rfl, rfl, ⟨by decide +kernel, ⟨_, rfl, rfl, rfl, by decide⟩, by decide +kernel⟩⟩

theorem test_w_LoansAreServed_3 : ∃ (s : State) (link loan off len cls : Nat) (l : Lent), s.lender.loans.find? (fun l => l.link == link && l.id == loan) = some l ∧ cls < 8 ∧ 1 ≤ len ∧ 
    (let es := l.extents; (off + len ≤ es.length * 2 ^ 28 ∧ off % 2 ^ 28 + len ≤ 2 ^ 28 ∧ s.dram.failed = [] ∧ s.dram.bad = [])) :=
  ⟨{ run with lender := { run.lender with loans := [⟨7, 1, 127, [3], true⟩] } }, 7, 1, 2 ^ 28 - 64, 64, 7, ⟨7, 1, 127, [3], true⟩, rfl, by decide, by decide, by decide +kernel⟩

theorem test_w_LoansAreServed_3z : ∃ (s : State) (link loan off len cls : Nat) (l : Lent), s.lender.loans.find? (fun l => l.link == link && l.id == loan) = some l ∧ cls < 8 ∧ 1 ≤ len ∧ 
    (let es := l.extents; (es.length * 2 ^ 28 < off + len)) :=
  ⟨{ run with lender := { run.lender with loans := [⟨7, 1, 127, [3], true⟩] } }, 7, 1, 2 ^ 28 - 63, 64, 7, ⟨7, 1, 127, [3], true⟩, rfl, by decide, by decide, by decide +kernel⟩

/-- The device with one link in a state. -/
def linkAt (i : Nat) (st : LState) : State := { run with veolo := { State.reset.veolo with links := [(i, { Link.start with st := st })] } }
/-- A link's start in a state, with a flit in its replay buffer. -/
def flit7 : Flit := ⟨0, .activation, true, true, 7, 0, 0, 240, 0, 127, List.replicate 240 0#8, false, 0, true, 0⟩
def flitLink (l : Link) : State := { withPart (ptIm (imOf 1 0)) with veolo := { State.reset.veolo with links := [(7, { l with st := .up })], numValid := true } }

theorem test_w_LinksTrain_1 : ∃ (s : State) (i : Nat) (c : Instr), i < 8 ∧ (((c = .linkLossOfSignal i ∧ (s.link i).st ≠ .disabled) ∨ (c = .trainTimeout i ∧ (s.link i).st = .train) ∨ (c = .fastRetrainTimeout i ∧ (s.link i).st = .fastRetrain))) :=
  ⟨linkAt 7 .up, 7, .linkLossOfSignal 7, by decide, .inl ⟨rfl, by decide⟩⟩

theorem test_w_LinksTrain_1y : ∃ (s : State) (i : Nat) (c : Instr), i < 8 ∧ (((c = .linkLossOfSignal i ∧ (s.link i).st ≠ .disabled) ∨ (c = .trainTimeout i ∧ (s.link i).st = .train) ∨ (c = .fastRetrainTimeout i ∧ (s.link i).st = .fastRetrain))) :=
  ⟨linkAt 7 .train, 7, .trainTimeout 7, by decide, .inr (.inl ⟨rfl, rfl⟩)⟩

theorem test_w_LinksTrain_1z : ∃ (s : State) (i : Nat) (c : Instr), i < 8 ∧ (((c = .linkLossOfSignal i ∧ (s.link i).st ≠ .disabled) ∨ (c = .trainTimeout i ∧ (s.link i).st = .train) ∨ (c = .fastRetrainTimeout i ∧ (s.link i).st = .fastRetrain))) :=
  ⟨linkAt 7 .fastRetrain, 7, .fastRetrainTimeout 7, by decide, .inr (.inr ⟨rfl, rfl⟩)⟩

theorem test_w_LinksTrain_2 : ∃ (s : State) (i : Nat), i < 8 ∧ (s.link i).st = .disabled :=
  ⟨linkAt 7 .disabled, 7, by decide, rfl⟩

theorem test_w_LinksTrain_3 : ∃ (s : State) (i : Nat), i < 8 ∧ (s.link i).st = .down ∧ s.portsRun = true ∧ 
    (s.veolo.numValid = false) :=
  ⟨linkAt 7 .down, 7, by decide, rfl, rfl, by decide +kernel⟩

theorem test_w_LinksTrain_3z : ∃ (s : State) (i : Nat), i < 8 ∧ (s.link i).st = .down ∧ s.portsRun = true ∧ 
    (s.veolo.numValid = true ∧ s.expected (i / 2) = none) :=
  ⟨{ run with veolo := { State.reset.veolo with numValid := true } }, 7, by decide, rfl, rfl, by decide +kernel⟩

theorem test_w_LinksTrain_4 : ∃ (s : State) (i : Nat), i < 8 ∧ (s.link i).st = .hail ∧ 
    (let n := (s.link i).equalHails + 1; (s.rank < 8192 ∧ n < 8)) :=
  ⟨{ run with veolo := { State.reset.veolo with numValid := true, num := 4095, links := [(7, { Link.start with st := .hail, equalHails := 6 })] } }, 7, by decide, rfl, by decide +kernel⟩

theorem test_w_LinksTrain_4y : ∃ (s : State) (i : Nat), i < 8 ∧ (s.link i).st = .hail ∧ 
    (let n := (s.link i).equalHails + 1; (s.rank < 8192 ∧ 8 ≤ n)) :=
  ⟨{ run with veolo := { State.reset.veolo with numValid := true, num := 4095, links := [(7, { Link.start with st := .hail, equalHails := 7 })] } }, 7, by decide, rfl, by decide +kernel⟩

theorem test_w_LinksTrain_4z : ∃ (s : State) (i : Nat), i < 8 ∧ (s.link i).st = .hail ∧ 
    (∃ r, r < 8192 ∧ r ≠ s.rank) :=
  ⟨{ run with veolo := { State.reset.veolo with numValid := true, num := 4095, links := [(7, { Link.start with st := .hail, equalHails := 0 })] } }, 7, by decide, rfl, ⟨8191, by decide, by decide⟩⟩

theorem test_w_LinksTrain_5 : ∃ (s : State) (i : Nat), i < 8 ∧ (s.link i).st = .backoff :=
  ⟨linkAt 7 .backoff, 7, by decide, rfl⟩

theorem test_w_LinksTrain_6 : ∃ (s : State) (i : Nat) (p : PeerInfo), i < 8 ∧ (s.link i).st = .train ∧ s.veolo.nbrs.length = 4 ∧ 
    (s.wiredRight i p = true) :=
  ⟨linkAt 7 .train, 7, ⟨false, true, 4095, true, 7, true⟩, by decide, rfl, rfl, by decide +kernel⟩

theorem test_w_LinksTrain_6y : ∃ (s : State) (i : Nat) (p : PeerInfo), i < 8 ∧ (s.link i).st = .train ∧ s.veolo.nbrs.length = 4 ∧ 
    (s.wiredRight i p = false) :=
  ⟨{ run with veolo := { State.reset.veolo with numValid := true, num := 4095, links := [(7, { Link.start with st := .train, equalHails := 0 })] } }, 7, ⟨false, true, 4095, true, 7, true⟩, by decide, rfl, rfl, by decide +kernel⟩

theorem test_w_LinksTrain_6z : ∃ (s : State) (i : Nat) (p : PeerInfo), i < 8 ∧ (s.link i).st = .train ∧ s.veolo.nbrs.length = 4 ∧ 
    (s.wiredRight i p = true ∧ s.veolo.numValid = true ∧ p.valid = true) ∧ (∀ j, j / 2 = i / 2 → j ≠ i → (s.link j).st ≠ .up ∧ (s.link j).st ≠ .miswired) :=
  ⟨{ run with veolo := { State.reset.veolo with numValid := true, num := 0, topo := 0x00020200#32, links := [(0, { Link.start with st := .train })] } }, 0, ⟨false, true, 1, true, 2, true⟩, by decide, rfl, rfl, ⟨by decide +kernel, fun j h hj => (by have : j = 1 := (by simp at h; omega); subst this; decide)⟩⟩

theorem test_w_LinksTrain_7 : ∃ (s : State) (i : Nat), i < 8 ∧ (s.link i).st = .up :=
  ⟨linkAt 7 .up, 7, by decide, rfl⟩

theorem test_w_LinksTrain_8 : ∃ (s : State) (i : Nat), i < 8 ∧ (s.link i).st = .fastRetrain :=
  ⟨linkAt 7 .fastRetrain, 7, by decide, rfl⟩

theorem test_w_LinksCarryAndHear_1 : ∃ (s : State) (i : Nat) (f : Flit), i < 8 ∧ (((s.link i).st = .up ∨ (s.link i).st = .miswired)) ∧ f.seq < 4096 ∧ 1 ≤ f.len ∧ f.len ≤ 240 ∧ f.payload.length ≤ 240 ∧ f.part < 128 ∧ 
    (f.crcOk = true ∧ f.kind = 0 ∧ f.seq = (s.link i).rxSeq ∧ f.ackValid = false) ∧ ((s.link i).st = .up ∧ s.veolo.numValid = true ∧ f.dest = s.veolo.num) ∧ (f.last = true ∧ f.cls = .activation ∧ (s.part f.part).any (·.image.isSome) = true ∧ (s.link i).rxBuf = [] ∧ s.veolo.early = [] ∧ f.pair = s.veolo.pairRx.getD (i / 2) 0) ∧ (∀ e ∈ s.veolo.inbox, e.2.1 ≠ .management) :=
  ⟨flitLink { Link.start with rxSeq := 7 }, 7, flit7, by decide, .inl rfl, by decide, by decide, by rfl, by rfl, by decide, ⟨by decide +kernel, by decide +kernel, by decide +kernel, fun e h => (by cases h)⟩⟩

theorem test_w_LinksCarryAndHear_1v : ∃ (s : State) (i : Nat) (f : Flit), i < 8 ∧ (((s.link i).st = .up ∨ (s.link i).st = .miswired)) ∧ f.seq < 4096 ∧ 1 ≤ f.len ∧ f.len ≤ 240 ∧ f.payload.length ≤ 240 ∧ f.part < 128 ∧ 
    (f.crcOk = true ∧ f.kind = 0 ∧ f.seq = (s.link i).rxSeq ∧ f.ackValid = false) ∧ ((s.link i).st = .up ∧ s.veolo.numValid = true ∧ f.dest = s.veolo.num) ∧ (f.last = false) :=
  ⟨flitLink { Link.start with rxSeq := 7 }, 7, { flit7 with last := false }, by decide, .inl rfl, by decide, by decide, by rfl, by rfl, by decide, ⟨by decide +kernel, by decide +kernel, by decide +kernel⟩⟩

theorem test_w_LinksCarryAndHear_1x : ∃ (s : State) (i : Nat) (f : Flit), i < 8 ∧ (((s.link i).st = .up ∨ (s.link i).st = .miswired)) ∧ f.seq < 4096 ∧ 1 ≤ f.len ∧ f.len ≤ 240 ∧ f.payload.length ≤ 240 ∧ f.part < 128 ∧ 
    (f.crcOk = true ∧ f.kind = 0 ∧ f.seq ≠ (s.link i).rxSeq) :=
  ⟨flitLink Link.start, 7, { flit7 with seq := 4095 }, by decide, .inl rfl, by decide, by decide, by rfl, by rfl, by decide, by decide +kernel⟩

theorem test_w_LinksCarryAndHear_1y : ∃ (s : State) (i : Nat) (f : Flit), i < 8 ∧ (((s.link i).st = .up ∨ (s.link i).st = .miswired)) ∧ f.seq < 4096 ∧ 1 ≤ f.len ∧ f.len ≤ 240 ∧ f.payload.length ≤ 240 ∧ f.part < 128 ∧ 
    (f.crcOk = true ∧ f.kind ≠ 0) ∧ (f.ackValid = true ∧ (s.link i).replay.findIdx? (fun g => g.seq == f.ackSeq) = some 0) :=
  ⟨flitLink { Link.start with replay := [flit7] }, 7, { flit7 with kind := 1, ackValid := true, ackSeq := 7 }, by decide, .inl rfl, by decide, by decide, by rfl, by rfl, by decide, ⟨by decide +kernel, by decide +kernel⟩⟩

theorem test_w_LinksCarryAndHear_1z : ∃ (s : State) (i : Nat) (f : Flit), i < 8 ∧ (((s.link i).st = .up ∨ (s.link i).st = .miswired)) ∧ f.seq < 4096 ∧ 1 ≤ f.len ∧ f.len ≤ 240 ∧ f.payload.length ≤ 240 ∧ f.part < 128 ∧ 
    (f.crcOk = false) :=
  ⟨flitLink Link.start, 7, { flit7 with crcOk := false }, by decide, .inl rfl, by decide, by decide, by rfl, by rfl, by decide, by decide +kernel⟩

theorem test_w_LinksCarryAndHear_2 : ∃ (s : State) (i seq : Nat), i < 8 ∧ (((s.link i).st = .up ∨ (s.link i).st = .miswired)) ∧ seq < 4096 ∧ 
    ((s.link i).replay.findIdx? (fun f => f.seq == seq) = some 0) ∧ ((s.link i).resends + 1 < 8) :=
  ⟨flitLink { Link.start with replay := [flit7], resends := 6 }, 7, 7, by decide, .inl rfl, by decide, ⟨by decide +kernel, by decide +kernel⟩⟩

theorem test_w_LinksCarryAndHear_2y : ∃ (s : State) (i seq : Nat), i < 8 ∧ (((s.link i).st = .up ∨ (s.link i).st = .miswired)) ∧ seq < 4096 ∧ 
    ((s.link i).replay.findIdx? (fun f => f.seq == seq) = some 0) ∧ (8 ≤ (s.link i).resends + 1 ∧ (s.link i).st = .up) :=
  ⟨flitLink { Link.start with replay := [flit7], resends := 7 }, 7, 7, by decide, .inl rfl, by decide, ⟨by decide +kernel, by decide +kernel⟩⟩

theorem test_w_LinksCarryAndHear_2z : ∃ (s : State) (i seq : Nat), i < 8 ∧ (((s.link i).st = .up ∨ (s.link i).st = .miswired)) ∧ seq < 4096 ∧ 
    ((s.link i).replay.findIdx? (fun f => f.seq == seq) = none) ∧ (seq ≠ (s.link i).txSeq) :=
  ⟨flitLink Link.start, 7, 4095, by decide, .inl rfl, by decide, ⟨by decide +kernel, by decide +kernel⟩⟩

theorem test_w_LinksCarryAndHear_3 : ∃ (s : State) (i : Nat) (cls : LClass), i < 8 ∧ (((s.link i).st = .up ∨ (s.link i).st = .miswired)) ∧ (s.link i).credits.getD (LClass.code cls) 0 < [128, 128, 96, 128, 16].getD (LClass.code cls) 0 ∧ 
    (∀ j, j / 2 = i / 2 → (s.link j).queue = []) :=
  ⟨flitLink { Link.start with credits := [127, 128, 96, 128, 16] }, 7, .activation, by decide, .inl rfl, by decide, fun j h => (by have : j = 6 ∨ j = 7 := (by simp at h; omega); obtain rfl | rfl := this <;> rfl)⟩

theorem test_w_LinksCarryAndHear_5 : ∃ (s : State) (i : Nat) (t1 t2 t3 t4 : Int), i < 8 ∧ (s.link i).st = .up ∧ 
    (s.veolo.master = false ∧ s.route s.veolo.masterNum = some (i / 2)) ∧ (s.veolo.joined = false) :=
  ⟨{ run with veolo := { State.reset.veolo with links := [(5, { Link.start with st := .up })], masterNum := 64, topo := 0x80020200#32, joined := false } }, 5, 0, 10, 10, 0, by decide, rfl, ⟨by decide +kernel, by decide +kernel⟩⟩

theorem test_w_LinksCarryAndHear_6 : ∃ (s : State), ((s.veolo.joined = true ∨ s.veolo.master = true)) :=
  ⟨{ run with veolo := { State.reset.veolo with master := true } }, .inr rfl⟩

theorem test_w_LinksCarryAndHear_7 : ∃ (s : State) (d : Nat), s.hasNeighbour d = true ∧ 
    (s.parts = [] ∧ s.lender.loans = [] ∧ s.lesar.goDone = []) :=
  ⟨{ run with veolo := { State.reset.veolo with nbrs := [.absent, .absent, .absent, .active] } }, 3, rfl, by decide +kernel⟩

theorem test_w_LinksCarryAndHear_8 : ∃ (s : State) (p stage : Nat) (pt : Part) (im : Image), s.part p = some pt ∧ pt.image = some im ∧ stage < im.stages ∧ stage ≠ im.stage :=
  ⟨withPart (ptIm (imOf 2 0)), 127, 1, _, _, rfl, rfl, by decide, by decide⟩

theorem test_w_LinksCarryAndHear_9 : ∃ (s : State) (p count : Nat) (pt : Part) (im : Image), s.part p = some pt ∧ pt.image = some im ∧ im.isFirst = false ∧ 
    (∃ v, pt.step = some v ∧ v.count = count ∧ v.empty = false) :=
  ⟨withPart { ptIm (imOf 2 1) with step := some (stepAt 4294967295) }, 127, 4294967295, _, _, rfl, rfl, rfl, ⟨_, rfl, rfl, rfl⟩⟩

theorem test_w_LinksCarryAndHear_9z : ∃ (s : State) (p count : Nat) (pt : Part) (im : Image), s.part p = some pt ∧ pt.image = some im ∧ im.isFirst = false ∧ 
    (∀ v, pt.step = some v → v.count ≠ count ∨ v.empty = true) :=
  ⟨withPart { ptIm (imOf 2 1) with step := some (stepAt 4294967295) }, 127, 4294967294, _, _, rfl, rfl, rfl, (by intro v h; cases h; left; decide)⟩

/-- An installation of the device owner that has asked for nothing yet. -/
def inst5 : Install := { ctx := own, fetchOnly := false, noHost := false, cartLen := 1, atlasLen := 20, cart := [], atlas := [], shard := [], stage := 0, src := .none, again := false, loading := false, image := none }
/-- The payload of an INSTALL_MODEL of a cartouche of 64 KiB and an atlas of 16,400 bytes. -/
def installPl (flags : Nat) : Bytes := beBytes 1 flags ++ List.replicate 3 0#8 ++ beBytes 4 65536 ++ beBytes 4 16400 ++ List.replicate 4 0#8

theorem test_w_ModelsArriveWithShards_1 : ∃ (s : State) (c : Ctx) (pl : Bytes) (pt : Part), s.modelServes c 0x0401 pt ∧ 
    (let f := beAt pl 0 1; let good := pl.length = 16 ∧ f < 4 ∧ allZero (slice pl 1 3) = true ∧ beAt pl 4 4 ≤ 65536 ∧ 20 ≤ beAt pl 8 4 ∧ beAt pl 8 4 ≤ 16400 ∧ allZero (slice pl 12 4) = true; (good) ∧ (pt.mstate.busy = false ∧ pt.install = none) ∧ (∀ im, pt.next = some im → im.handle ≠ c.handle)) :=
  ⟨withPart pt0, own, installPl 3, _, ⟨⟨rfl, rfl, fun _ => rfl, rfl⟩, rfl, rfl, rfl⟩, ⟨by decide +kernel, by decide +kernel, fun im h => (by cases h)⟩⟩

theorem test_w_ModelsArriveWithShards_1x : ∃ (s : State) (c : Ctx) (pl : Bytes) (pt : Part), s.modelServes c 0x0401 pt ∧ 
    (let f := beAt pl 0 1; let good := pl.length = 16 ∧ f < 4 ∧ allZero (slice pl 1 3) = true ∧ beAt pl 4 4 ≤ 65536 ∧ 20 ≤ beAt pl 8 4 ∧ beAt pl 8 4 ≤ 16400 ∧ allZero (slice pl 12 4) = true; (good) ∧ (pt.mstate.busy = false ∧ pt.install = none) ∧ (∃ im, pt.next = some im ∧ im.handle = c.handle)) :=
  ⟨withPart { pt0 with next := some (imOf 1 0) }, own, installPl 0, _, ⟨⟨rfl, rfl, fun _ => rfl, rfl⟩, rfl, rfl, rfl⟩, ⟨by decide +kernel, by decide +kernel, ⟨_, rfl, rfl⟩⟩⟩

theorem test_w_ModelsArriveWithShards_1y : ∃ (s : State) (c : Ctx) (pl : Bytes) (pt : Part), s.modelServes c 0x0401 pt ∧ 
    (let f := beAt pl 0 1; let good := pl.length = 16 ∧ f < 4 ∧ allZero (slice pl 1 3) = true ∧ beAt pl 4 4 ≤ 65536 ∧ 20 ≤ beAt pl 8 4 ∧ beAt pl 8 4 ≤ 16400 ∧ allZero (slice pl 12 4) = true; (good) ∧ (pt.mstate.busy = true ∨ pt.install.isSome = true)) :=
  ⟨withPart { pt0 with install := some inst5 }, own, installPl 0, _, ⟨⟨rfl, rfl, fun _ => rfl, rfl⟩, rfl, rfl, rfl⟩, ⟨by decide +kernel, by decide +kernel⟩⟩

theorem test_w_ModelsArriveWithShards_1z : ∃ (s : State) (c : Ctx) (pl : Bytes) (pt : Part), s.modelServes c 0x0401 pt ∧ 
    (let f := beAt pl 0 1; let good := pl.length = 16 ∧ f < 4 ∧ allZero (slice pl 1 3) = true ∧ beAt pl 4 4 ≤ 65536 ∧ 20 ≤ beAt pl 8 4 ∧ beAt pl 8 4 ≤ 16400 ∧ allZero (slice pl 12 4) = true; (¬good)) :=
  ⟨withPart pt0, own, installPl 4, _, ⟨⟨rfl, rfl, fun _ => rfl, rfl⟩, rfl, rfl, rfl⟩, by decide +kernel⟩

theorem test_w_ModelsArriveWithShards_2 : ∃ (s : State) (c : Ctx) (pl : Bytes) (pt : Part), s.accepts c 0x0405 .port true ∧ s.part c.part = some pt ∧ badHandle c.handle = false ∧ 
    (let d := pl.drop 16; let good := 16 ≤ pl.length ∧ allZero (slice pl 1 7) = true; (good) ∧ (∃ v, pt.install = some v ∧ v.ctx.sess = c.sess ∧ v.ctx.handle = c.handle ∧ v.loading = false ∧ beAt pl 0 1 = 0 ∧ v.image = none ∧ beAt pl 8 8 = v.cart.length ∧ v.cart.length + d.length ≤ v.cartLen ∧ v.atlas.length ≠ v.atlasLen)) :=
  ⟨withPart { pt0 with install := some { inst5 with cartLen := 65536 } }, own, beBytes 1 0 ++ List.replicate 7 0#8 ++ beBytes 8 0 ++ List.replicate 16 0#8, _, ⟨rfl, rfl, fun _ => rfl, rfl⟩, rfl, rfl, ⟨by decide +kernel, ⟨_, rfl, rfl, rfl, rfl, by decide, rfl, by decide, by decide, by decide⟩⟩⟩

theorem test_w_ModelsArriveWithShards_2w : ∃ (s : State) (c : Ctx) (pl : Bytes) (pt : Part), s.accepts c 0x0405 .port true ∧ s.part c.part = some pt ∧ badHandle c.handle = false ∧ 
    (let d := pl.drop 16; let good := 16 ≤ pl.length ∧ allZero (slice pl 1 7) = true; (good) ∧ (∃ v, pt.install = some v ∧ v.ctx.sess = c.sess ∧ v.ctx.handle = c.handle ∧ v.loading = false ∧ beAt pl 0 1 = 1 ∧ v.image = none ∧ v.cart.length = v.cartLen ∧ beAt pl 8 8 = v.atlas.length ∧ v.atlas.length + d.length = v.atlasLen)) :=
  ⟨withPart { pt0 with install := some { inst5 with cart := [0#8] } }, own, beBytes 1 1 ++ List.replicate 7 0#8 ++ beBytes 8 0 ++ List.replicate 20 0#8, _, ⟨rfl, rfl, fun _ => rfl, rfl⟩, rfl, rfl, ⟨by decide +kernel, ⟨_, rfl, rfl, rfl, rfl, by decide, rfl, by decide, by decide, by decide⟩⟩⟩

theorem test_w_ModelsArriveWithShards_2x : ∃ (s : State) (c : Ctx) (pl : Bytes) (pt : Part), s.accepts c 0x0405 .port true ∧ s.part c.part = some pt ∧ badHandle c.handle = false ∧ 
    (let d := pl.drop 16; let good := 16 ≤ pl.length ∧ allZero (slice pl 1 7) = true; (good) ∧ (∃ v im, pt.install = some v ∧ v.ctx.sess = c.sess ∧ v.ctx.handle = c.handle ∧ v.loading = false ∧ beAt pl 0 1 = 2 ∧ v.src = .host ∧ v.image = some im ∧ beAt pl 8 8 = v.shard.length ∧ v.shard.length + d.length ≤ im.shardLen)) :=
  ⟨withPart { pt0 with install := some { inst5 with src := .host, image := some { imOf 1 0 with cart := (cartOf 1).set 179 1#8 } } }, own, beBytes 1 2 ++ List.replicate 7 0#8 ++ beBytes 8 0 ++ List.replicate 1 0#8, _, ⟨rfl, rfl, fun _ => rfl, rfl⟩, rfl, rfl, ⟨by decide +kernel, ⟨_, _, rfl, rfl, rfl, rfl, by decide, rfl, rfl, by decide, by decide⟩⟩⟩

theorem test_w_ModelsArriveWithShards_2y : ∃ (s : State) (c : Ctx) (pl : Bytes) (pt : Part), s.accepts c 0x0405 .port true ∧ s.part c.part = some pt ∧ badHandle c.handle = false ∧ 
    (let d := pl.drop 16; let good := 16 ≤ pl.length ∧ allZero (slice pl 1 7) = true; (good) ∧ (∃ v im, pt.install = none ∧ pt.refetch = some v ∧ v.ctx.handle = c.handle ∧ v.src = .host ∧ v.image = some im ∧ beAt pl 0 1 = 2 ∧ beAt pl 8 8 = v.shard.length ∧ v.shard.length + d.length ≤ im.shardLen)) :=
  ⟨withPart { pt0 with refetch := some { inst5 with src := .host, image := some { imOf 1 0 with cart := (cartOf 1).set 179 1#8 } } }, own, beBytes 1 2 ++ List.replicate 7 0#8 ++ beBytes 8 0 ++ List.replicate 1 0#8, _, ⟨rfl, rfl, fun _ => rfl, rfl⟩, rfl, rfl, ⟨by decide +kernel, ⟨_, _, rfl, rfl, rfl, rfl, rfl, by decide, by decide, by decide⟩⟩⟩

theorem test_w_ModelsArriveWithShards_2z : ∃ (s : State) (c : Ctx) (pl : Bytes) (pt : Part), s.accepts c 0x0405 .port true ∧ s.part c.part = some pt ∧ badHandle c.handle = false ∧ 
    (let good := 16 ≤ pl.length ∧ allZero (slice pl 1 7) = true; (pt.install = none ∧ pt.refetch = none) ∧ (¬good)) :=
  ⟨withPart pt0, own, [], _, ⟨rfl, rfl, fun _ => rfl, rfl⟩, rfl, rfl, ⟨by decide +kernel, by decide +kernel⟩⟩

theorem test_w_ModelsArriveWithShards_3 : ∃ (s : State) (p : Nat) (pt : Part) (v : Install), s.part p = some pt ∧ v.awaits = true ∧ 
    (pt.install = some v) :=
  ⟨withPart { pt0 with install := some inst5 }, 127, _, _, rfl, rfl, rfl⟩

theorem test_w_ModelsArriveWithShards_4 : ∃ (s : State) (l : Nat) (dg : Bytes), l < 8 ∧ (s.link l).st = .up ∧ 
    (s.shardWith dg = none) :=
  ⟨linkAt 7 .up, 7, List.replicate 32 0#8, by decide, rfl, by decide +kernel⟩

theorem test_w_ModelsArriveWithShards_5 : ∃ (s : State) (p a : Nat) (as : List Nat) (pt : Part) (v : Install) (im : Image), s.part p = some pt ∧ pt.install = some v ∧ v.src = .query ∧ v.image = some im ∧ 
    (v.noHost = false) :=
  ⟨withPart { ptIm (imOf 1 0) with install := some { inst5 with src := .query, image := some (imOf 1 0) } }, 127, 4095, [4094], _, _, _, rfl, rfl, rfl, rfl, by decide +kernel⟩

theorem test_w_ModelsArriveWithShards_6 : ∃ (s : State) (p : Nat) (pt : Part) (v : Install) (im : Image), s.part p = some pt ∧ pt.install = some v ∧ v.image = some im ∧ v.shard.length = im.shardLen ∧ 
    (∃ d, v.src = .neighbour d) :=
  ⟨withPart { ptIm (imOf 1 0) with install := some { inst5 with src := .neighbour 4095, image := some (imOf 1 0) } }, 127, _, _, _, rfl, rfl, rfl, rfl, ⟨_, rfl⟩⟩

theorem test_w_ModelsArriveWithShards_8 : ∃ (s : State) (p : Nat) (pt : Part) (v : Install) (im : Image), p < 128 ∧ s.part p = some pt ∧ pt.install = some v ∧ v.image = some im ∧ v.loading = true :=
  ⟨withPart { ptIm (imOf 1 0) with install := some { inst5 with src := .host, image := some (imOf 1 0), loading := true } }, 127, _, _, _, by decide, rfl, rfl, rfl, rfl⟩

theorem test_w_LinksCarryAndHear_5y : ∃ (s : State) (i : Nat) (t1 t2 t3 t4 : Int), i < 8 ∧ (s.link i).st = .up ∧ 
    (s.veolo.master = false ∧ s.route s.veolo.masterNum = some (i / 2) ∧ s.veolo.joined = true) :=
  ⟨{ run with veolo := { State.reset.veolo with links := [(5, { Link.start with st := .up })], masterNum := 64, topo := 0x80020200#32, joined := true } }, 5, 0, 10, 10, 0, by decide, rfl, by decide +kernel⟩

theorem test_w_LinksCarryAndHear_5z : ∃ (s : State) (i : Nat) (t1 t2 t3 t4 : Int), i < 8 ∧ (s.link i).st = .up ∧ 
    (s.veolo.master = true) :=
  ⟨{ run with veolo := { State.reset.veolo with master := true, links := [(5, { Link.start with st := .up })], masterNum := 64, topo := 0x80020200#32, joined := true } }, 5, 0, 10, 10, 0, by decide, rfl, by decide +kernel⟩

theorem test_w_ModelsStartStopAndSwap_1 : ∃ (s : State) (c : Ctx) (pl : Bytes) (pt : Part) (im : Image), s.modelServes c 0x0404 pt ∧ pt.image = some im ∧ 
    (let m := s.freeMbox c 0x0404; let target := beAt pl 0 4; (pl.length = 4 ∧ pt.mstate = .loaded) ∧ (m.adjacentUp im = true) ∧ (m.targetOk c.part im target = true) ∧ (∀ e ∈ pt.staged.targeted, e.2.1 ≠ c.handle)) :=
  ⟨withPart { ptIm (imOf 1 0) with mstate := .loaded }, own, List.replicate 4 0#8, _, _, ⟨⟨rfl, rfl, fun _ => rfl, rfl⟩, rfl, rfl, rfl⟩, rfl, ⟨by decide +kernel, by decide +kernel, by decide +kernel, fun e h => (by cases h)⟩⟩

theorem test_w_ModelsStartStopAndSwap_1z : ∃ (s : State) (c : Ctx) (pl : Bytes) (pt : Part) (im : Image), s.modelServes c 0x0404 pt ∧ pt.image = some im ∧ 
    (let m := s.freeMbox c 0x0404; (pl.length = 4 ∧ pt.mstate = .loaded) ∧ (m.adjacentUp im = false)) :=
  ⟨withPart { ptIm (imOf 2 1) with mstate := .loaded }, own, List.replicate 4 0#8, _, _, ⟨⟨rfl, rfl, fun _ => rfl, rfl⟩, rfl, rfl, rfl⟩, rfl, ⟨by decide +kernel, by decide +kernel⟩⟩

theorem test_w_ModelsStartStopAndSwap_2 : ∃ (s : State) (c : Ctx) (pl : Bytes) (pt : Part) (im : Image), s.modelServes c 0x0403 pt ∧ pt.image = some im ∧ 
    (let m := s.freeMbox c 0x0403; let target := beAt pl 4 4; let good := pl.length = 8 ∧ beAt pl 0 1 < 2 ∧ beAt pl 1 1 = 0 ∧ (beAt pl 0 1 = 1 ∨ 1 ≤ beAt pl 2 2 ∧ beAt pl 2 2 ≤ 600); (good) ∧ (pt.mstate = .started ∨ pt.mstate = .held) ∧ (m.targetOk c.part im target = true) ∧ (∀ e ∈ pt.staged.targeted, e.2.1 ≠ c.handle)) :=
  ⟨withPart { ptIm (imOf 1 0) with mstate := .started }, own, [0#8, 0#8, 2#8, 88#8, 0#8, 0#8, 0#8, 0#8], _, _, ⟨⟨rfl, rfl, fun _ => rfl, rfl⟩, rfl, rfl, rfl⟩, rfl, ⟨by decide +kernel, by decide +kernel, by decide +kernel, fun e h => (by cases h)⟩⟩

theorem test_w_ModelsStartStopAndSwap_2z : ∃ (s : State) (c : Ctx) (pl : Bytes) (pt : Part) (im : Image), s.modelServes c 0x0403 pt ∧ pt.image = some im ∧ 
    (let good := pl.length = 8 ∧ beAt pl 0 1 < 2 ∧ beAt pl 1 1 = 0 ∧ (beAt pl 0 1 = 1 ∨ 1 ≤ beAt pl 2 2 ∧ beAt pl 2 2 ≤ 600); (¬good)) :=
  ⟨withPart { ptIm (imOf 1 0) with mstate := .started }, own, [0#8, 0#8, 2#8, 89#8, 0#8, 0#8, 0#8, 0#8], _, _, ⟨⟨rfl, rfl, fun _ => rfl, rfl⟩, rfl, rfl, rfl⟩, rfl, by decide +kernel⟩

theorem test_w_ModelsStartStopAndSwap_3 : ∃ (s : State) (c : Ctx) (pl : Bytes) (pt : Part) (cur next : Image), s.modelServes c 0x0402 pt ∧ pt.image = some cur ∧ pt.next = some next ∧ pl.length = 4 ∧ 
    (let m := s.freeMbox c 0x0402; let target := beAt pl 0 4; let may := pt.swapEn = true ∧ (pt.mstate = .started ∨ pt.mstate = .held ∧ pt.swap.isSome = true) ∧ next.handle = c.handle ∧ pt.swappable cur next = true ∧ m.targetOk c.part cur target = true; (may) ∧ (∀ e ∈ pt.staged.targeted, e.2.1 ≠ c.handle)) :=
  ⟨withPart { ptIm (imOf 1 0) with next := some (imOf 1 0), swapEn := true }, own, List.replicate 4 0#8, _, _, _, ⟨⟨rfl, rfl, fun _ => rfl, rfl⟩, rfl, rfl, rfl⟩, rfl, rfl, rfl, ⟨by decide +kernel, fun e h => (by cases h)⟩⟩

theorem test_w_ModelsStartStopAndSwap_3z : ∃ (s : State) (c : Ctx) (pl : Bytes) (pt : Part) (cur next : Image), s.modelServes c 0x0402 pt ∧ pt.image = some cur ∧ pt.next = some next ∧ pl.length = 4 ∧ 
    (let m := s.freeMbox c 0x0402; let target := beAt pl 0 4; let may := pt.swapEn = true ∧ (pt.mstate = .started ∨ pt.mstate = .held ∧ pt.swap.isSome = true) ∧ next.handle = c.handle ∧ pt.swappable cur next = true ∧ m.targetOk c.part cur target = true; (¬may)) :=
  ⟨withPart { ptIm (imOf 1 0) with next := some (imOf 1 0) }, own, List.replicate 4 0#8, _, _, _, ⟨⟨rfl, rfl, fun _ => rfl, rfl⟩, rfl, rfl, rfl⟩, rfl, rfl, rfl, by decide +kernel⟩

theorem test_w_ModelsStartStopAndSwap_4 : ∃ (s : State) (p : Nat) (pt : Part) (w : Swap) (im next : Image), s.part p = some pt ∧ pt.swap = some w ∧ pt.image = some im ∧ pt.next = some next ∧ w.active = true ∧ pt.mstate = .swapping ∧ w.readDone = false ∧ w.layer < im.layers ∧ 
    (let fault := (pt.swapTensors im w).findSome? (shardFault (pt.plainShard next)); (fault = none)) :=
  ⟨withPart { ptIm (imOf 1 0) with mstate := .swapping, next := some (imOf 1 0), swap := some ⟨own, 0, true, 0, false, [], []⟩ }, 127, _, _, _, _, rfl, rfl, rfl, rfl, rfl, rfl, rfl, by decide, by decide +kernel⟩

theorem test_w_ModelsStartStopAndSwap_4z : ∃ (s : State) (p : Nat) (pt : Part) (w : Swap) (im next : Image), s.part p = some pt ∧ pt.swap = some w ∧ pt.image = some im ∧ pt.next = some next ∧ w.active = true ∧ pt.mstate = .swapping ∧ w.readDone = false ∧ w.layer < im.layers ∧ 
    (let fault := (pt.swapTensors im w).findSome? (shardFault (pt.plainShard next)); (fault = some (.tensor, 0))) :=
  ⟨withPart { ptIm { imOf 1 0 with shard := podShard 1 } with mstate := .swapping, next := some { imOf 1 0 with shard := podShard 1 }, swap := some ⟨own, 0, true, 0, false, [], []⟩ }, 127, _, _, _, _, rfl, rfl, rfl, rfl, rfl, rfl, rfl, by decide, by decide +kernel⟩

theorem test_w_ModelsStartStopAndSwap_5 : ∃ (s : State) (c : Ctx) (pt : Part), s.modelServes c 0x0407 pt ∧ c.part < 128 ∧ 
    (pt.mstate = .empty ∨ pt.mstate = .loaded) ∧ (pt.install = none) :=
  ⟨withPart { ptIm (imOf 1 0) with mstate := .loaded }, own, _, ⟨⟨rfl, rfl, fun _ => rfl, rfl⟩, rfl, rfl, rfl⟩, by decide, ⟨by decide +kernel, by decide +kernel⟩⟩

theorem test_w_ModelsStartStopAndSwap_5z : ∃ (s : State) (c : Ctx) (pt : Part), s.modelServes c 0x0407 pt ∧ c.part < 128 ∧ 
    ((pt.mstate ≠ .empty ∧ pt.mstate ≠ .loaded) ∨ pt.install.isSome = true) :=
  ⟨withPart { ptIm (imOf 1 0) with mstate := .held }, own, _, ⟨⟨rfl, rfl, fun _ => rfl, rfl⟩, rfl, rfl, rfl⟩, by decide, by decide +kernel⟩

theorem test_w_CopiesScrubsAndInsets_1 : ∃ (s : State) (c : Ctx) (pt : Part), s.modelServes c 0x0406 pt ∧ 
    (let may := pt.loans.any (fun l => l.active) = true ∧ pt.mstate = .started ∧ pt.lendCopy = none; (may)) :=
  ⟨withPart { ptIm (imOf 1 0) with loans := [⟨1, 7, 64, true, false, false, false, false, [], []⟩] }, own, _, ⟨⟨rfl, rfl, fun _ => rfl, rfl⟩, rfl, rfl, rfl⟩, by decide +kernel⟩

theorem test_w_CopiesScrubsAndInsets_1z : ∃ (s : State) (c : Ctx) (pt : Part), s.modelServes c 0x0406 pt ∧ 
    (let may := pt.loans.any (fun l => l.active) = true ∧ pt.mstate = .started ∧ pt.lendCopy = none; (¬may)) :=
  ⟨withPart (ptIm (imOf 1 0)), own, _, ⟨⟨rfl, rfl, fun _ => rfl, rfl⟩, rfl, rfl, rfl⟩, by decide +kernel⟩

theorem test_w_CopiesScrubsAndInsets_2 : ∃ (s : State) (p : Nat) (pt : Part) (c : Ctx) (im : Image), s.part p = some pt ∧ pt.lendCopy = some c ∧ pt.image = some im :=
  ⟨withPart { ptIm (imOf 1 0) with loans := [⟨1, 7, 64, true, false, false, false, false, [], []⟩], lendCopy := some own }, 127, _, _, _, rfl, rfl, rfl⟩

theorem test_w_CopiesScrubsAndInsets_3 : ∃ (s : State) (p : Nat) (next : Bool) (pt : Part) (im : Image), s.part p = some pt ∧ (if next = true then pt.next else pt.image) = some im ∧ im.shardSealed = true ∧ 
    (pt.refetch = none) :=
  ⟨withPart (ptIm { imOf 1 0 with cart := (cartOf 1).set 224 1#8 }), 127, false, _, _, rfl, rfl, rfl, by decide +kernel⟩

/-- The payload of an INSTALL_INSET of one token. -/
def insetPl : Bytes := List.replicate 7 0#8 ++ [1#8] ++ List.replicate 8 0#8
/-- An inset of one token that waits. -/
def inset5 (on : Bool) : Inset := { form := 0, tokens := [0], tensor := 0, count := 1, done := 0, list := [], admitted := false, installed := on, ctx := own, candAt := 0, again := none }

theorem test_w_CopiesScrubsAndInsets_4 : ∃ (s : State) (c : Ctx) (pl : Bytes) (pt : Part) (im : Image), s.modelServes c 0x0301 pt ∧ pt.image = some im ∧ im.isFirst = true ∧ 
    (pt.mstate = .started ∧ NMap.find pt.insets c.handle = none) ∧ (pt.insetTokens im pl = some [0] ∧ pt.insets.length < 256) :=
  ⟨withPart ptVoc, own, insetPl, _, _, ⟨⟨rfl, rfl, fun _ => rfl, rfl⟩, rfl, rfl, rfl⟩, rfl, rfl, ⟨by decide +kernel, by decide +kernel⟩⟩

theorem test_w_CopiesScrubsAndInsets_4z : ∃ (s : State) (c : Ctx) (pl : Bytes) (pt : Part) (im : Image), s.modelServes c 0x0301 pt ∧ pt.image = some im ∧ im.isFirst = true ∧ 
    (pt.mstate = .started ∧ NMap.find pt.insets c.handle = none) ∧ (pt.insetTokens im pl = none) :=
  ⟨withPart ptVoc, own, [], _, _, ⟨⟨rfl, rfl, fun _ => rfl, rfl⟩, rfl, rfl, rfl⟩, rfl, rfl, ⟨by decide +kernel, by decide +kernel⟩⟩

theorem test_w_CopiesScrubsAndInsets_5 : ∃ (s : State) (p h : Nat) (pt : Part) (v : Inset), s.part p = some pt ∧ NMap.find pt.insets h = some v ∧ v.admitted = false ∧ v.installed = false ∧ ((∀ q ∈ pt.seqs, q.handle ≠ insetSeq h)) :=
  ⟨withPart { ptVoc with insets := [(5, inset5 false)] }, 127, 5, _, _, rfl, rfl, rfl, rfl, fun e h => (by cases h)⟩

theorem test_w_CopiesScrubsAndInsets_6 : ∃ (s : State) (c : Ctx) (pt : Part) (im : Image), s.modelServes c 0x0302 pt ∧ pt.image = some im ∧ im.isFirst = true ∧ 
    (∃ v, NMap.find pt.insets c.handle = some v ∧ v.installed = true) ∧ (∀ e ∈ pt.staged.removeInsets, e.1 ≠ c.handle) :=
  ⟨withPart { ptVoc with insets := [(5, inset5 true)] }, own, _, _, ⟨⟨rfl, rfl, fun _ => rfl, rfl⟩, rfl, rfl, rfl⟩, rfl, rfl, ⟨⟨_, rfl, rfl⟩, fun e h => (by cases h)⟩⟩

theorem test_w_CopiesScrubsAndInsets_6z : ∃ (s : State) (c : Ctx) (pt : Part) (im : Image), s.modelServes c 0x0302 pt ∧ pt.image = some im ∧ im.isFirst = true ∧ 
    (∀ v, NMap.find pt.insets c.handle = some v → v.installed = false) :=
  ⟨withPart { ptVoc with insets := [(5, inset5 false)] }, own, _, _, ⟨⟨rfl, rfl, fun _ => rfl, rfl⟩, rfl, rfl, rfl⟩, rfl, rfl, fun v h => (by cases h; rfl)⟩

/-- Port 3 has a link, and the device a session. -/
def ethRun (ss : NMap Session) : State := { run with eth := [(3, { up := true, master := false, speed := 4, sqi := 7 })], lesar := { run.lesar with sessions := ss } }
/-- A frame by port 3 to the device's endpoint, under the EtherType of reset. -/
def via3 : Via := { viaOf 3 with lesarId := run.ownId .eth }
def ss5 : Session := ⟨.devOwner, 0xFFFF, 0xFFFF, 3, 0x020000000001, .eth, 3, 0, 0, 0, 0, 0, 64, true, [], [], [], false, none⟩
/-- A frame of generation 3 without a payload, its CHECK right. -/
def frameOf (kind flags sess seq op : Nat) : Bytes :=
  let h := [3#8] ++ beBytes 1 kind ++ beBytes 2 flags ++ beBytes 2 0xFFFF ++ beBytes 2 sess ++ beBytes 4 seq ++ beBytes 4 0 ++ beBytes 4 5 ++ beBytes 2 op ++ beBytes 2 0 ++ beBytes 4 0
  h ++ beBytes 4 (crc32c h)

theorem test_w_PortsServe_1 : ∃ (s : State) (port speed sqi : Nat) (master : Bool), port < 4 ∧ speed ≤ 4 ∧ sqi ≤ 7 ∧ s.dev.phase.hears = true ∧ (s.reg .eth port 0).bit 31 = true ∧ (((s.reg .eth port 0).bit 30 = true ∨ (speed = (s.reg .eth port 0).field 2 0 ∧ master = (s.reg .eth port 0).bit 27))) :=
  ⟨{ run with regs := [(Blk.at .dev 0 0x300, 0x80000000#32), (Blk.at .eth 3 0, 0xC0000000#32)] }, 3, 4, 7, false, by decide, by rfl, by rfl, rfl, rfl, .inl rfl⟩

theorem test_w_PortsServe_1z : ∃ (s : State) (port speed sqi : Nat) (master : Bool), port < 4 ∧ speed ≤ 4 ∧ sqi ≤ 7 ∧ s.dev.phase.hears = true ∧ (s.reg .eth port 0).bit 31 = true ∧ (((s.reg .eth port 0).bit 30 = true ∨ (speed = (s.reg .eth port 0).field 2 0 ∧ master = (s.reg .eth port 0).bit 27))) :=
  ⟨{ run with regs := [(Blk.at .dev 0 0x300, 0x80000000#32), (Blk.at .eth 3 0, 0x88000004#32)] }, 3, 4, 0, true, by decide, by rfl, by decide, rfl, rfl, .inr ⟨rfl, rfl⟩⟩

theorem test_w_PortsServe_2 : ∃ (s : State) (port : Nat), s.linkUp port = true :=
  ⟨ethRun [], 3, rfl⟩

theorem test_w_PortsServe_3 : ∃ (s : State) (port dir : Nat), (port, dir) ∈ s.keeper.secOld :=
  ⟨{ run with keeper := { run.keeper with secOld := [(3, 1)] } }, 3, 1, List.mem_singleton.mpr rfl⟩

theorem test_w_PortsServe_4 : ∃ (s : State), ((s.lesar.oldEtherType ≠ none ∨ s.lesar.oldUdpPort ≠ none)) :=
  ⟨{ run with lesar := { run.lesar with oldUdpPort := some 65535 } }, .inr (by decide)⟩

theorem test_w_PortsServe_5 : ∃ (s : State) (via : Via) (a : Nat), s.hears via = true ∧ 
    (s.mac4 via.port a = some 9) :=
  ⟨withPart { pt0 with ip4 := 4294967295, mac := 9 }, via3, 4294967295, rfl, by decide +kernel⟩

theorem test_w_PortsServe_5z : ∃ (s : State) (via : Via) (a : Nat), s.hears via = true ∧ 
    (s.mac4 via.port a = none ∧ s.mac6 via.port a = none) :=
  ⟨run, via3, 0, rfl, by decide +kernel⟩

theorem test_w_PortsServe_6 : ∃ (s : State) (via : Via) (v6 : Bool) (d : Bytes), s.hears via = true ∧ 
    (let mine := via.endpoint ≠ 0xFFFE ∧ s.endpointServes via.endpoint (if v6 = true then .udp6 else .udp4) = true; (mine)) :=
  ⟨run, via3, true, [], rfl, by decide +kernel⟩

theorem test_w_PortsServe_6z : ∃ (s : State) (via : Via) (v6 : Bool) (d : Bytes), s.hears via = true ∧ 
    (let mine := via.endpoint ≠ 0xFFFE ∧ s.endpointServes via.endpoint (if v6 = true then .udp6 else .udp4) = true; (¬mine)) :=
  ⟨run, { via3 with endpoint := 0xFFFE }, false, [], rfl, by decide +kernel⟩

theorem test_w_FramesAreTaken_1 : ∃ (s : State) (via : Via) (raw : Bytes), s.linkUp via.port = true ∧ 
    (s.hears via = true) ∧ (s.portCheck via raw = .drop) :=
  ⟨ethRun [], via3, List.replicate 9001 0#8, rfl, ⟨by decide +kernel, by decide +kernel⟩⟩

theorem test_w_FramesAreTaken_1z : ∃ (s : State) (via : Via) (raw : Bytes), s.linkUp via.port = true ∧ 
    (s.portCheck via raw = .ignore) :=
  ⟨ethRun [], via3, [], rfl, by decide +kernel⟩

theorem test_w_FramesAreTaken_2 : ∃ (s : State) (via : Via) (raw : Bytes) (h : Hdr) (pl : Bytes), s.takesFrame via raw h pl ∧ 
    (let n := h.sess; (crc32c (raw.take 28 ++ pl) = h.check) ∧ (h.kind = 5 ∧ n = 0xFFFF)) :=
  ⟨ethRun [], via3, frameOf 5 48 0xFFFF 0 0, _, _, ⟨by decide +kernel, by decide +kernel, by decide +kernel, by decide +kernel, by decide +kernel, rfl, by decide +kernel, by decide +kernel, rfl⟩, ⟨by decide +kernel, by decide +kernel⟩⟩

theorem test_w_FramesAreTaken_2x : ∃ (s : State) (via : Via) (raw : Bytes) (h : Hdr) (pl : Bytes), s.takesFrame via raw h pl ∧ 
    (let n := h.sess; (crc32c (raw.take 28 ++ pl) = h.check) ∧ (h.kind ≠ 5 ∧ h.kind ≠ 6 ∧ n ≠ 0xFFFF) ∧ (s.session n = none)) :=
  ⟨ethRun [], via3, frameOf 2 48 7 0 0x0606, _, _, ⟨by decide +kernel, by decide +kernel, by decide +kernel, by decide +kernel, by decide +kernel, rfl, by decide +kernel, by decide +kernel, rfl⟩, ⟨by decide +kernel, by decide +kernel, by decide +kernel⟩⟩

theorem test_w_FramesAreTaken_2y : ∃ (s : State) (via : Via) (raw : Bytes) (h : Hdr) (pl : Bytes), s.takesFrame via raw h pl ∧ 
    (let n := h.sess; (crc32c (raw.take 28 ++ pl) = h.check) ∧ (∃ v, s.session n = some v ∧ v.boundTo via = true ∧ v.gen ≠ 3)) :=
  ⟨ethRun [(7, { ss5 with gen := 2 })], via3, frameOf 2 48 7 0 0x0606, _, _, ⟨by decide +kernel, by decide +kernel, by decide +kernel, by decide +kernel, by decide +kernel, rfl, by decide +kernel, by decide +kernel, rfl⟩, ⟨by decide +kernel, ⟨_, rfl, by decide +kernel, by decide⟩⟩⟩

theorem test_w_FramesAreTaken_2z : ∃ (s : State) (via : Via) (raw : Bytes) (h : Hdr) (pl : Bytes), s.takesFrame via raw h pl ∧ 
    (crc32c (raw.take 28 ++ pl) ≠ h.check) :=
  ⟨ethRun [], via3, frameOf 2 48 7 0 0x0606 |>.set 31 0xA5#8, _, _, ⟨by decide +kernel, by decide +kernel, by decide +kernel, by decide +kernel, by decide +kernel, rfl, by decide +kernel, by decide +kernel, rfl⟩, by decide +kernel⟩

theorem test_w_FramesAreTaken_3 : ∃ (s : State) (via : Via) (raw : Bytes) (h : Hdr) (pl : Bytes) (v : Session), s.takesFrame via raw h pl ∧ crc32c (raw.take 28 ++ pl) = h.check ∧ h.kind ≠ 5 ∧ h.kind ≠ 6 ∧ h.sess ≠ 0xFFFF ∧ s.dev.phase ≠ .factory ∧ s.session h.sess = some v ∧ v.boundTo via = true ∧ v.gen = 3 ∧ 
    (let n := h.sess; let s2 := (s.bump .eth via.port 0x08 1).modSession n (fun v => { v with port := via.port, lesarId := via.lesarId }); let s3 := if h.flags % 2 = 1 then s2.acknowledge n h.ackNum else s2; (∃ v3, h.kind ≠ 4 ∧ s3.session n = some v3 ∧ (h.seq + 2 ^ 32 - v3.rxNext) % 2 ^ 32 = 0 ∧ h.kind = 2 ∧ h.flags / 16 % 4 = 3 ∧ usesMbox h.opcode = true ∧ v3.early = [] ∧ s3.lesar.mboxes.find? (fun m => !m.complete && m.sess == n) = none)) :=
  ⟨ethRun [(7, ss5)], via3, frameOf 2 48 7 0 0x0603, _, _, _, ⟨by decide +kernel, by decide +kernel, by decide +kernel, by decide +kernel, by decide +kernel, rfl, by decide +kernel, by decide +kernel, rfl⟩, by decide +kernel, by decide +kernel, by decide +kernel, by decide +kernel, by decide +kernel, rfl, by decide +kernel, by decide +kernel, ⟨_, by decide +kernel, got (by decide +kernel), by decide +kernel, by decide +kernel, by decide +kernel, by decide +kernel, by decide +kernel, by decide +kernel⟩⟩

theorem test_w_FramesAreTaken_3w : ∃ (s : State) (via : Via) (raw : Bytes) (h : Hdr) (pl : Bytes) (v : Session), s.takesFrame via raw h pl ∧ crc32c (raw.take 28 ++ pl) = h.check ∧ h.kind ≠ 5 ∧ h.kind ≠ 6 ∧ h.sess ≠ 0xFFFF ∧ s.dev.phase ≠ .factory ∧ s.session h.sess = some v ∧ v.boundTo via = true ∧ v.gen = 3 ∧ 
    (let n := h.sess; let s2 := (s.bump .eth via.port 0x08 1).modSession n (fun v => { v with port := via.port, lesarId := via.lesarId }); let s3 := if h.flags % 2 = 1 then s2.acknowledge n h.ackNum else s2; (∃ v3, h.kind ≠ 4 ∧ s3.session n = some v3 ∧ 1 ≤ (h.seq + 2 ^ 32 - v3.rxNext) % 2 ^ 32 ∧ (h.seq + 2 ^ 32 - v3.rxNext) % 2 ^ 32 < 64)) :=
  ⟨ethRun [(7, ss5)], via3, frameOf 2 48 7 63 0x0606, _, _, _, ⟨by decide +kernel, by decide +kernel, by decide +kernel, by decide +kernel, by decide +kernel, rfl, by decide +kernel, by decide +kernel, rfl⟩, by decide +kernel, by decide +kernel, by decide +kernel, by decide +kernel, by decide +kernel, rfl, by decide +kernel, by decide +kernel, ⟨_, by decide +kernel, got (by decide +kernel), by decide +kernel, by decide +kernel⟩⟩

theorem test_w_FramesAreTaken_3x : ∃ (s : State) (via : Via) (raw : Bytes) (h : Hdr) (pl : Bytes) (v : Session), s.takesFrame via raw h pl ∧ crc32c (raw.take 28 ++ pl) = h.check ∧ h.kind ≠ 5 ∧ h.kind ≠ 6 ∧ h.sess ≠ 0xFFFF ∧ s.dev.phase ≠ .factory ∧ s.session h.sess = some v ∧ v.boundTo via = true ∧ v.gen = 3 ∧ 
    (let n := h.sess; let s2 := (s.bump .eth via.port 0x08 1).modSession n (fun v => { v with port := via.port, lesarId := via.lesarId }); let s3 := if h.flags % 2 = 1 then s2.acknowledge n h.ackNum else s2; (∃ v3, h.kind ≠ 4 ∧ s3.session n = some v3 ∧ 64 ≤ (h.seq + 2 ^ 32 - v3.rxNext) % 2 ^ 32 ∧ (h.seq + 2 ^ 32 - v3.rxNext) % 2 ^ 32 < 2 ^ 31)) :=
  ⟨ethRun [(7, ss5)], via3, frameOf 2 48 7 64 0x0606, _, _, _, ⟨by decide +kernel, by decide +kernel, by decide +kernel, by decide +kernel, by decide +kernel, rfl, by decide +kernel, by decide +kernel, rfl⟩, by decide +kernel, by decide +kernel, by decide +kernel, by decide +kernel, by decide +kernel, rfl, by decide +kernel, by decide +kernel, ⟨_, by decide +kernel, got (by decide +kernel), by decide +kernel, by decide +kernel⟩⟩

theorem test_w_FramesAreTaken_3y : ∃ (s : State) (via : Via) (raw : Bytes) (h : Hdr) (pl : Bytes) (v : Session), s.takesFrame via raw h pl ∧ crc32c (raw.take 28 ++ pl) = h.check ∧ h.kind ≠ 5 ∧ h.kind ≠ 6 ∧ h.sess ≠ 0xFFFF ∧ s.dev.phase ≠ .factory ∧ s.session h.sess = some v ∧ v.boundTo via = true ∧ v.gen = 3 ∧ 
    (let n := h.sess; let s2 := (s.bump .eth via.port 0x08 1).modSession n (fun v => { v with port := via.port, lesarId := via.lesarId }); let s3 := if h.flags % 2 = 1 then s2.acknowledge n h.ackNum else s2; (∃ v3, h.kind ≠ 4 ∧ s3.session n = some v3 ∧ 2 ^ 31 ≤ (h.seq + 2 ^ 32 - v3.rxNext) % 2 ^ 32)) :=
  ⟨ethRun [(7, ss5)], via3, frameOf 2 48 7 2147483648 0x0606, _, _, _, ⟨by decide +kernel, by decide +kernel, by decide +kernel, by decide +kernel, by decide +kernel, rfl, by decide +kernel, by decide +kernel, rfl⟩, by decide +kernel, by decide +kernel, by decide +kernel, by decide +kernel, by decide +kernel, rfl, by decide +kernel, by decide +kernel, ⟨_, by decide +kernel, got (by decide +kernel), by decide +kernel⟩⟩

theorem test_w_FramesAreTaken_3z : ∃ (s : State) (via : Via) (raw : Bytes) (h : Hdr) (pl : Bytes) (v : Session), s.takesFrame via raw h pl ∧ crc32c (raw.take 28 ++ pl) = h.check ∧ h.kind ≠ 5 ∧ h.kind ≠ 6 ∧ h.sess ≠ 0xFFFF ∧ s.dev.phase ≠ .factory ∧ s.session h.sess = some v ∧ v.boundTo via = true ∧ v.gen = 3 ∧ 
    (h.kind = 4) :=
  ⟨ethRun [(7, ss5)], via3, frameOf 4 1 7 0 0, _, _, _, ⟨by decide +kernel, by decide +kernel, by decide +kernel, by decide +kernel, by decide +kernel, rfl, by decide +kernel, by decide +kernel, rfl⟩, by decide +kernel, by decide +kernel, by decide +kernel, by decide +kernel, by decide +kernel, rfl, by decide +kernel, by decide +kernel, by decide +kernel⟩

theorem test_w_FramesAreTaken_4 : ∃ (s : State) (via : Via) (handle : Nat), s.hears via = true ∧ 
    (0xFFFE ≤ via.endpoint) ∧ (s.dev.phase = .running) ∧ (∀ e ∈ s.lesar.lastReply, e.1 = via.src → e.2 + 10000000 ≤ s.now) :=
  ⟨run, via3, 5, rfl, ⟨by decide +kernel, by decide +kernel, fun e h => (by cases h)⟩⟩

theorem test_w_FramesAreTaken_4y : ∃ (s : State) (via : Via) (handle : Nat), s.hears via = true ∧ 
    (0xFFFE ≤ via.endpoint) ∧ (∃ e ∈ s.lesar.lastReply, e.1 = via.src ∧ s.now < e.2 + 10000000) :=
  ⟨{ run with now := 9999999, lesar := { run.lesar with lastReply := [(0x020000000001, 0)] } }, via3, 5, rfl, ⟨by decide +kernel, by decide +kernel⟩⟩

theorem test_w_FramesAreTaken_4z : ∃ (s : State) (via : Via) (handle : Nat), s.hears via = true ∧ 
    (via.endpoint < 0xFFFE) :=
  ⟨run, { via3 with endpoint := 0xFFFD }, 5, rfl, by decide +kernel⟩

/-- The payload of an OPEN_SESSION with the widest window. -/
def sessPl (isn : Nat) : Bytes := beBytes 4 isn ++ beBytes 2 128 ++ List.replicate 66 0#8

theorem test_w_SessionsOpenAndClose_1 : ∃ (s : State) (via : Via) (c : Ctx) (retry : Bool) (pl : Bytes), s.serveRefusal c 0x0604 .early = none ∧ 
    (let cred := pl.drop 8; let k := s.keeper; let good := pl.length = 72 ∧ beAt pl 6 2 = 0 ∧ (beAt pl 4 2 = 0 ∨ 16 ≤ beAt pl 4 2 ∧ beAt pl 4 2 ≤ 128); let here := 0xFFFE ≤ via.endpoint ∨ via.endpoint = c.part; let there := c.part = 0xFFFF ∨ (s.part c.part).isSome = true; (good) ∧ (here ∧ there) ∧ (allZero cred = true ∧ c.part = 0xFFFF) ∧ (k.ownerKey = none)) :=
  ⟨run, via3, ⟨0xFFFF, 0xFFFF, 0, none⟩, false, sessPl 1, rfl, ⟨by decide +kernel, by decide +kernel, by decide +kernel, by decide +kernel⟩⟩

theorem test_w_SessionsOpenAndClose_1w : ∃ (s : State) (via : Via) (c : Ctx) (retry : Bool) (pl : Bytes), s.serveRefusal c 0x0604 .early = none ∧ 
    (let cred := pl.drop 8; let good := pl.length = 72 ∧ beAt pl 6 2 = 0 ∧ (beAt pl 4 2 = 0 ∨ 16 ≤ beAt pl 4 2 ∧ beAt pl 4 2 ≤ 128); let here := 0xFFFE ≤ via.endpoint ∨ via.endpoint = c.part; let there := c.part = 0xFFFF ∨ (s.part c.part).isSome = true; (good) ∧ (here ∧ there) ∧ (allZero cred = true ∧ c.part ≠ 0xFFFF)) :=
  ⟨withPart pt0, via3, ⟨0xFFFF, 127, 0, none⟩, false, sessPl 1, rfl, ⟨by decide +kernel, by decide +kernel, by decide +kernel⟩⟩

theorem test_w_SessionsOpenAndClose_1x : ∃ (s : State) (via : Via) (c : Ctx) (retry : Bool) (pl : Bytes), s.serveRefusal c 0x0604 .early = none ∧ 
    (let isn := beAt pl 0 4; let cred := pl.drop 8; let k := s.keeper; let good := pl.length = 72 ∧ beAt pl 6 2 = 0 ∧ (beAt pl 4 2 = 0 ∨ 16 ≤ beAt pl 4 2 ∧ beAt pl 4 2 ≤ 128); let here := 0xFFFE ≤ via.endpoint ∨ via.endpoint = c.part; let there := c.part = 0xFFFF ∨ (s.part c.part).isSome = true; (good) ∧ (here ∧ there) ∧ (allZero cred = false) ∧ (∃ pt, s.part c.part = some pt ∧ credentialGood k.ownerKey k.ownerMark c.part isn cred = false ∧ credentialGood pt.ownerKey pt.ownerMark c.part isn cred = false)) :=
  ⟨withPart pt0, via3, ⟨0xFFFF, 127, 0, none⟩, false, (sessPl 1).set 71 1#8, rfl, ⟨by decide +kernel, by decide +kernel, by decide +kernel, ⟨_, rfl, by decide +kernel, by decide +kernel⟩⟩⟩

theorem test_w_SessionsOpenAndClose_1y : ∃ (s : State) (via : Via) (c : Ctx) (retry : Bool) (pl : Bytes), s.serveRefusal c 0x0604 .early = none ∧ 
    (let good := pl.length = 72 ∧ beAt pl 6 2 = 0 ∧ (beAt pl 4 2 = 0 ∨ 16 ≤ beAt pl 4 2 ∧ beAt pl 4 2 ≤ 128); let here := 0xFFFE ≤ via.endpoint ∨ via.endpoint = c.part; (here) ∧ (¬good)) :=
  ⟨run, via3, ⟨0xFFFF, 0xFFFF, 0, none⟩, false, (sessPl 1).set 5 129#8, rfl, ⟨by decide +kernel, by decide +kernel⟩⟩

theorem test_w_SessionsOpenAndClose_1z : ∃ (s : State) (via : Via) (c : Ctx) (retry : Bool) (pl : Bytes), s.serveRefusal c 0x0604 .early = none ∧ 
    (let here := 0xFFFE ≤ via.endpoint ∨ via.endpoint = c.part; (¬here)) :=
  ⟨run, { via3 with endpoint := 127 }, ⟨0xFFFF, 0xFFFF, 0, none⟩, false, sessPl 1, rfl, by decide +kernel⟩

theorem test_w_SessionsOpenAndClose_3 : ∃ (s : State) (n : Nat) (v : Session), s.session n = some v ∧ 
    (∃ f k, v.unacked.find? (fun u => u.1.seq == 9) = some (f, k) ∧ k < 10) :=
  ⟨ethRun [(7, { ss5 with unacked := [(⟨3, 2, 48, 7, 0xFFFF, 9, 0, 5, 0x0606, .ok, [], via3, 0, 0⟩, 9)] })], 7, _, rfl, ⟨_, _, rfl, by decide⟩⟩

theorem test_w_SessionsOpenAndClose_3z : ∃ (s : State) (n : Nat) (v : Session), s.session n = some v ∧ 
    (∃ f k, v.unacked.find? (fun u => u.1.seq == 9) = some (f, k) ∧ 10 ≤ k) ∧ (∃ c : Ctx, c.sess = n ∧ s.accepts c 0x0605 .early false) :=
  ⟨ethRun [(7, { ss5 with unacked := [(⟨3, 2, 48, 7, 0xFFFF, 9, 0, 5, 0x0606, .ok, [], via3, 0, 0⟩, 10)] })], 7, _, rfl, ⟨⟨_, _, rfl, by decide⟩, ⟨⟨7, 0xFFFF, 0, none⟩, rfl, rfl, rfl, fun h => (nomatch h), rfl⟩⟩⟩

theorem test_w_SessionsOpenAndClose_4 : ∃ (s : State) (n : Nat) (m : Mbox), s.lesar.mboxes.find? (fun m => !m.complete && m.sess == n) = some m :=
  ⟨{ run with lesar := { run.lesar with mboxes := [⟨7, none, 3, 0xFFFF, 5, 0x0601, [], false⟩] } }, 7, _, rfl⟩

theorem test_w_SessionsOpenAndClose_5 : ∃ (s : State) (c : Ctx) (k : Nat) (v w : Session), s.accepts c 0x0608 .port false ∧ k < 2 ^ 16 ∧ s.session c.sess = some v ∧ s.session k = some w ∧ 
    (c.part = 0xFFFF) ∧ (v.takesEvents c.part = true ∧ w.gen = 3 ∧ w.takesEvents c.part = true) :=
  ⟨ethRun [(7, ss5)], ⟨7, 0xFFFF, 0, none⟩, 7, _, _, ⟨rfl, rfl, fun h => (nomatch h), rfl⟩, by decide, rfl, rfl, ⟨by decide +kernel, by decide +kernel⟩⟩

theorem test_w_SessionsOpenAndClose_5y : ∃ (s : State) (c : Ctx) (k : Nat) (v w : Session), s.accepts c 0x0608 .port false ∧ k < 2 ^ 16 ∧ s.session c.sess = some v ∧ s.session k = some w ∧ 
    (c.part ≠ 0xFFFF ∧ (s.part c.part).isSome = true) ∧ (v.takesEvents c.part = true ∧ w.gen = 3 ∧ w.takesEvents c.part = true) :=
  ⟨{ ethRun [(7, ss5)] with parts := [(127, pt0)] }, ⟨7, 127, 0, none⟩, 7, _, _, ⟨rfl, rfl, fun h => (nomatch h), rfl⟩, by decide, rfl, rfl, ⟨by decide +kernel, by decide +kernel⟩⟩

theorem test_w_SessionsOpenAndClose_5z : ∃ (s : State) (c : Ctx) (k : Nat) (v w : Session), s.accepts c 0x0608 .port false ∧ k < 2 ^ 16 ∧ s.session c.sess = some v ∧ s.session k = some w ∧ 
    (c.part ≠ 0xFFFF ∧ s.part c.part = none) :=
  ⟨ethRun [(7, ss5)], ⟨7, 127, 0, none⟩, 7, _, _, ⟨rfl, rfl, fun h => (nomatch h), rfl⟩, by decide, rfl, rfl, by decide +kernel⟩

theorem test_w_SessionsOpenAndClose_6 : ∃ (s : State) (k n : Nat), s.evtSession k = some n ∧ (s.evtStream k).held ≠ [] :=
  ⟨let t := ethRun [(7, ss5)]; { t with lesar := { t.lesar with evts := [(127, { sess := some 7, held := [⟨127, .ok, 0, 0, 0, 0⟩] })] } }, 127, 7, rfl, by decide⟩

theorem test_w_SidebandReadsAndClears_1 : ∃ (s : State) (i : Instr), ((s.dev.phase = .off ∨ s.now < s.smb.deadUntil)) ∧ i ∈ [Instr.clearFaults, .statusWord, .statusInput, .statusTemperature, .readVin, .readIin, .readTemperature1, .readTemperature2, .readTemperature3, .readPin, .pmbusRevision, .alertResponse] :=
  ⟨{ run with dev := { run.dev with phase := .off } }, .alertResponse, .inl rfl, by decide⟩

theorem test_w_SidebandReadsAndClears_2 : ∃ (s : State), s.dev.phase ≠ .off ∧ s.smb.deadUntil ≤ s.now ∧ 
    (let v := s.smb; let inputBits := bitAt v.ovFault 7 + bitAt v.ovWarn 6 + bitAt v.uvWarn 5; let tempBits := bitAt v.otFault 7 + bitAt v.otWarn 6; let wordBits := bitAt (inputBits != 0) 13 + bitAt (tempBits != 0) 2 + bitAt v.commFault 1; (wordBits ≠ 0 ∨ v.replyReady = true)) :=
  ⟨{ run with now := 5000000, smb := { run.smb with deadUntil := 5000000, replyReady := true } }, by decide, by rfl, by decide +kernel⟩

theorem test_w_SidebandReadsAndClears_2z : ∃ (s : State), s.dev.phase ≠ .off ∧ s.smb.deadUntil ≤ s.now ∧ 
    (let v := s.smb; let inputBits := bitAt v.ovFault 7 + bitAt v.ovWarn 6 + bitAt v.uvWarn 5; let tempBits := bitAt v.otFault 7 + bitAt v.otWarn 6; let wordBits := bitAt (inputBits != 0) 13 + bitAt (tempBits != 0) 2 + bitAt v.commFault 1; (wordBits = 0 ∧ v.replyReady = false)) :=
  ⟨{ run with now := 5000000 }, by decide, by decide, by decide +kernel⟩

theorem test_w_SidebandMailboxServes_1 : ∃ (s : State), s.smbRegs = true ∧ 
    (∃ a, regPlace a = none ∨ a % 4 ≠ 0) :=
  ⟨{ run with now := 5000000 }, rfl, ⟨1, .inr (by decide)⟩⟩

theorem test_w_SidebandMailboxServes_1z : ∃ (s : State), s.smbRegs = true ∧ 
    (regPlace s.smb.regAddr.toNat = some (.dev, 0, 0x300)) ∧ (s.smb.regAddr.toNat % 4 = 0 ∧ Blk.sideband .dev 0x300 = true ∧ Blk.occupied .dev 0x300 = true) :=
  ⟨{ run with now := 5000000, smb := { run.smb with regAddr := BitVec.ofNat 32 (Blk.at .dev 0 0x300) } }, rfl, ⟨by decide +kernel, by decide +kernel⟩⟩

/-- A mailbox message of the sideband. -/
def boxOf (op : Nat) : Bytes := frameOf 2 48 0xFFFF 0 op

theorem test_w_SidebandMailboxServes_2 : ∃ (s : State), s.smbMailbox = true ∧ 
    (s.smb.busy = false) ∧ (sidebandRefusal s.smb.mbox = none ∧ usesMbox (parseHdr3 s.smb.mbox).opcode = true) :=
  ⟨{ run with now := 5000000, smb := { run.smb with mbox := boxOf 0x0603 } }, rfl, ⟨by decide +kernel, by decide +kernel⟩⟩

theorem test_w_SidebandMailboxServes_2y : ∃ (s : State), s.smbMailbox = true ∧ 
    (s.smb.busy = false) ∧ (sidebandRefusal s.smb.mbox = none ∧ (parseHdr3 s.smb.mbox).opcode = 0x0604) :=
  ⟨{ run with now := 5000000, smb := { run.smb with mbox := boxOf 0x0604 } }, rfl, ⟨by decide +kernel, by decide +kernel⟩⟩

theorem test_w_SidebandMailboxServes_2z : ∃ (s : State), s.smbMailbox = true ∧ 
    (s.smb.busy = false) ∧ (sidebandRefusal s.smb.mbox = some .badFrame) :=
  ⟨{ run with now := 5000000 }, rfl, ⟨by decide +kernel, by decide +kernel⟩⟩

theorem test_w_SidebandMailboxServes_3 : ∃ (s : State) (f : OutFrame), s.smb.reply = some f ∧ s.smb.replyReady = false :=
  ⟨{ run with smb := { run.smb with reply := some ⟨3, 2, 48, 7, 0xFFFF, 9, 0, 5, 0x0606, .ok, [], via3, 0, 0⟩ } }, _, rfl, rfl⟩

theorem test_w_SidebandMailboxServes_4 : ∃ (s : State) (i : Instr) (d : Bytes) (n : Nat), s.smbMailbox = false ∧ i ∈ [Instr.mfrMboxWr d, .mfrMboxGo, .mfrMboxClear, .mfrMboxStatus, .mfrMboxRd n] :=
  ⟨{ run with dev := { run.dev with phase := .off } }, .mfrMboxRd 129, [], 129, rfl, by decide⟩

theorem test_w_SidebandMailboxServes_5 : ∃ (s : State) (a : Word), s.smbRegs = false :=
  ⟨{ run with dev := { run.dev with phase := .off } }, 0#32, rfl⟩

theorem test_w_ResetsClear_1 : ∃ (s : State) (c : Ctx) (lv : Nat), s.accepts c 0x0603 .keeperEarly true ∧ lv < 2 ∧ 
    (s.dev.reset = none) :=
  ⟨run, own, 1, ⟨rfl, rfl, fun _ => rfl, rfl⟩, by decide, by decide +kernel⟩

theorem test_w_ResetsClear_1y : ∃ (s : State) (c : Ctx) (lv : Nat), s.accepts c 0x0603 .keeperEarly true ∧ lv < 2 ∧ 
    (∃ j, s.dev.reset = some j ∧ j.saved = false) :=
  ⟨{ run with dev := { run.dev with reset := some ⟨[own], false, false, false⟩ } }, own, 1, ⟨rfl, rfl, fun _ => rfl, rfl⟩, by decide, ⟨_, rfl, rfl⟩⟩

theorem test_w_ResetsClear_1z : ∃ (s : State) (c : Ctx) (lv : Nat), s.accepts c 0x0603 .keeperEarly true ∧ lv < 2 ∧ 
    (∃ j, s.dev.reset = some j ∧ j.saved = true) :=
  ⟨{ run with dev := { run.dev with reset := some ⟨[own], false, false, true⟩ } }, own, 0, ⟨rfl, rfl, fun _ => rfl, rfl⟩, by decide, ⟨_, rfl, rfl⟩⟩

theorem test_w_ResetsClear_2 : ∃ (s : State) (j : ResetJob), s.dev.reset = some j ∧ j.saved = false :=
  ⟨{ run with dev := { run.dev with reset := some ⟨[own], false, false, false⟩ } }, _, rfl, rfl⟩

theorem test_w_ResetsClear_3 : ∃ (s : State) (j : ResetJob), s.dev.reset = some j ∧ j.saved = true ∧ j.system = false :=
  ⟨{ run with dev := { run.dev with reset := some ⟨[own], false, false, true⟩ } }, _, rfl, rfl, rfl⟩

theorem test_w_ResetsClear_4 : ∃ (s : State) (i : Instr) (code : Nat) (hold : Option Hold), (((i, code, hold) ∈ [(Instr.watchdogExpiry, 2, none), (.resetN, 1, some .pin), (.clockLoss, 5, some .clock), (.overVoltageFault, 6, some .overVoltage)] ∨ (i = .systemReset ∧ code = 3 ∧ hold = none ∧ ∃ j, s.dev.reset = some j ∧ j.saved = true ∧ j.system = true))) ∧ 
    (s.dev.phase ≠ .off ∧ s.dev.phase ≠ .held) :=
  ⟨run, .overVoltageFault, 6, some .overVoltage, .inl (by decide), by decide +kernel⟩

theorem test_w_ResetsClear_4y : ∃ (s : State) (i : Instr) (code : Nat) (hold : Option Hold), (((i, code, hold) ∈ [(Instr.watchdogExpiry, 2, none), (.resetN, 1, some .pin), (.clockLoss, 5, some .clock), (.overVoltageFault, 6, some .overVoltage)] ∨ (i = .systemReset ∧ code = 3 ∧ hold = none ∧ ∃ j, s.dev.reset = some j ∧ j.saved = true ∧ j.system = true))) ∧ 
    (s.dev.phase = .held) ∧ (∃ h, hold = some h) :=
  ⟨{ run with dev := { run.dev with phase := .held, holds := [.clock] } }, .resetN, 1, some .pin, .inl (by decide), ⟨by decide +kernel, ⟨_, rfl⟩⟩⟩

theorem test_w_ResetsClear_4z : ∃ (s : State) (i : Instr) (code : Nat) (hold : Option Hold), (((i, code, hold) ∈ [(Instr.watchdogExpiry, 2, none), (.resetN, 1, some .pin), (.clockLoss, 5, some .clock), (.overVoltageFault, 6, some .overVoltage)] ∨ (i = .systemReset ∧ code = 3 ∧ hold = none ∧ ∃ j, s.dev.reset = some j ∧ j.saved = true ∧ j.system = true))) ∧ 
    (s.dev.phase ≠ .off ∧ s.dev.phase ≠ .held) :=
  ⟨{ run with dev := { run.dev with reset := some ⟨[own], true, false, true⟩ } }, .systemReset, 3, none, .inr ⟨rfl, rfl, rfl, _, rfl, rfl, rfl⟩, by decide +kernel⟩

theorem test_w_ResetsClear_5 : ∃ (s : State) (i : Instr) (h : Hold), (i, h) ∈ [(Instr.resetNRelease, Hold.pin), (.clockRecovery, .clock), (.overVoltageRecovery, .overVoltage)] ∧ s.dev.phase = .held ∧ h ∈ s.dev.holds ∧ 
    (s.dev.holds.filter (· != h) = []) :=
  ⟨{ run with dev := { run.dev with phase := .held, holds := [.clock] } }, .clockRecovery, .clock, by decide, rfl, by decide, by decide +kernel⟩

theorem test_w_ResetsClear_5z : ∃ (s : State) (i : Instr) (h : Hold), (i, h) ∈ [(Instr.resetNRelease, Hold.pin), (.clockRecovery, .clock), (.overVoltageRecovery, .overVoltage)] ∧ s.dev.phase = .held ∧ h ∈ s.dev.holds ∧ 
    (s.dev.holds.filter (· != h) ≠ []) :=
  ⟨{ run with dev := { run.dev with phase := .held, holds := [.clock, .pin] } }, .resetNRelease, .pin, by decide, rfl, by decide, by decide +kernel⟩

theorem test_w_ResetsClear_6 : ∃ (s : State), s.dev.phase = .off :=
  ⟨{ run with dev := { run.dev with phase := .off } }, rfl⟩

theorem test_w_ResetsClear_7 : ∃ (s : State), s.dev.phase ≠ .off :=
  ⟨run, by decide⟩

theorem test_w_voltage_warnings : ∃ s : State, s.dev.inputWarnOv = true ∧ s.dev.inputWarnUv = true ∧ s.dev.phase ∈ [Phase.runtime, .checked, .portDie, .trained, .ready, .running, .recovery] :=
  ⟨{ run with dev := { run.dev with inputWarnOv := true, inputWarnUv := true } }, rfl, rfl, by decide⟩

theorem test_w_PowerGuardActs_1 : ∃ (s : State) (g : GuardReading) (l : List Int), s.dev.phase ≠ .off ∧ g.junctions = some l ∧ l.length = 64 ∧ 
    (let now := max s.now g.now; let rd := s.guard.read g now; let new := rd.judge now ((s.reg .pg 0 4).field 7 0); (392 ≤ new.lid) ∧ (s.dev.phase ≠ .held)) :=
  ⟨run, ⟨1000, some (List.replicate 64 0), none, some 392, 384, 0⟩, List.replicate 64 0, by decide, rfl, rfl, ⟨by decide +kernel, by decide +kernel⟩⟩

theorem test_w_PowerGuardActs_1z : ∃ (s : State) (g : GuardReading) (l : List Int), s.dev.phase ≠ .off ∧ g.junctions = some l ∧ l.length = 64 ∧ 
    (let now := max s.now g.now; let rd := s.guard.read g now; let new := rd.judge now ((s.reg .pg 0 4).field 7 0); (new.hot = none ∧ ¬392 ≤ new.lid ∧ ¬320 * 8000 ≤ new.average 100000 ∧ new.overSince = none) ∧ (s.guard.causeJ = 0 ∧ s.guard.causeL = 0 ∧ s.guard.causeP = 0 ∧ s.guard.below = [])) :=
  ⟨run, ⟨1000, some (List.replicate 64 0), none, some 391, 384, 0⟩, List.replicate 64 0, by decide, rfl, rfl, ⟨by decide +kernel, by decide +kernel⟩⟩

theorem test_w_PowerGuardActs_2 : ∃ (s : State), s.dev.phase = .held ∧ Hold.trip ∈ s.dev.holds ∧ s.guard.tripAt + 1000000000 ≤ s.now ∧ s.guard.level = 0 ∧ s.guard.trips s.now = false ∧ 
    (s.dev.holds.filter (· != .trip) = []) :=
  ⟨{ run with now := 1000000000, dev := { run.dev with phase := .held, holds := [.trip] } }, rfl, List.mem_singleton.mpr rfl, by rfl, rfl, rfl, by decide +kernel⟩

theorem test_w_PowerGuardActs_2z : ∃ (s : State), s.dev.phase = .held ∧ Hold.trip ∈ s.dev.holds ∧ s.guard.tripAt + 1000000000 ≤ s.now ∧ s.guard.level = 0 ∧ s.guard.trips s.now = false ∧ 
    (s.dev.holds.filter (· != .trip) ≠ []) :=
  ⟨{ run with now := 1000000000, dev := { run.dev with phase := .held, holds := [.trip, .pin] } }, rfl, List.mem_cons_self .., by rfl, rfl, rfl, by decide +kernel⟩

theorem test_w_StartSequenceRuns_1 : ∃ (s : State), s.dev.phase = .rom ∧ 
    (3 ≤ s.dev.bootSrc) :=
  ⟨{ run with dev := { run.dev with phase := .rom, bootSrc := 3 } }, rfl, by decide +kernel⟩

theorem test_w_StartSequenceRuns_1z : ∃ (s : State), s.dev.phase = .rom ∧ 
    (s.dev.bootSrc = 2) :=
  ⟨{ run with dev := { run.dev with phase := .rom, bootSrc := 2 } }, rfl, by decide +kernel⟩

theorem test_w_StartSequenceRuns_2 : ∃ (s : State) (hb : List Nat), s.dev.phase = .runtime :=
  ⟨{ run with dev := { run.dev with phase := .runtime } }, [], rfl⟩

theorem test_w_StartSequenceRuns_3 : ∃ (s : State), s.dev.phase = .checked :=
  ⟨{ run with dev := { run.dev with phase := .checked } }, rfl⟩

theorem test_w_StartSequenceRuns_4 : ∃ (s : State) (bad : List Nat), s.dev.phase = .portDie ∧ ((∀ k ∈ bad, k < 64)) :=
  ⟨{ run with dev := { run.dev with phase := .portDie } }, [63], rfl, fun k h => (by cases List.mem_singleton.mp h; decide)⟩

theorem test_w_StartSequenceRuns_5 : ∃ (s : State) (ms : Nat), s.dev.phase = .trained ∧ 
    (s.dev.activating = false ∨ s.dev.pendingImage = none) ∧ (s.lesar.startBuf = []) :=
  ⟨{ run with dev := { run.dev with phase := .trained } }, 65536, rfl, ⟨by decide +kernel, by decide +kernel⟩⟩

theorem test_w_StartSequenceRuns_6 : ∃ (s : State) (via : Via) (raw : Bytes), ((s.dev.phase = .portDie ∨ s.dev.phase = .trained)) ∧ (parseHdr raw).kind ≠ 5 ∧ (parseHdr raw).kind ≠ 6 ∧ 
    (let b := s.lesar.startBuf; (b.length < 64 ∧ (b.filter (fun e => e.1.src == via.src)).length < 8)) :=
  ⟨{ run with dev := { run.dev with phase := .trained } }, via3, frameOf 2 48 7 0 0x0606, .inr rfl, by decide +kernel, by decide +kernel, by decide +kernel⟩

theorem test_w_StartSequenceRuns_6z : ∃ (s : State) (via : Via) (raw : Bytes), ((s.dev.phase = .portDie ∨ s.dev.phase = .trained)) ∧ (parseHdr raw).kind ≠ 5 ∧ (parseHdr raw).kind ≠ 6 ∧ 
    (let b := s.lesar.startBuf; (¬(b.length < 64 ∧ (b.filter (fun e => e.1.src == via.src)).length < 8))) :=
  ⟨{ { run with dev := { run.dev with phase := .trained } } with lesar := { run.lesar with startBuf := List.replicate 8 (via3, []) } }, via3, frameOf 2 48 7 0 0x0606, .inr rfl, by decide +kernel, by decide +kernel, by decide +kernel⟩

theorem test_w_StartSequenceRuns_7 : ∃ (s : State) (via : Via) (handle : Nat) (pl : Bytes), s.dev.phase = .netBoot ∧ via.port = 0 ∧ 
    (let fl := beAt pl 0 1; let data := pl.drop 8; let good := 8 ≤ pl.length ∧ fl < 4 ∧ beAt pl 1 3 = 0 ∧ beAt pl 4 4 % 16 = 0 ∧ data.length % 16 = 0 ∧ data.length ≤ 4080; (good) ∧ ((if fl % 2 = 1 then some [] else s.dev.load.map (·.bytes)) = some [] ∧ beAt pl 4 4 = 0 ∧ fl / 2 % 2 = 0) ∧ (∀ n, s.dev.netSrc = some n → n = via.src)) :=
  ⟨{ run with dev := { run.dev with phase := .netBoot } }, viaOf 0, 5, [1#8] ++ List.replicate 23 0#8, rfl, rfl, ⟨by decide +kernel, by decide +kernel, fun n h => (by cases h)⟩⟩

theorem test_w_StartSequenceRuns_7y : ∃ (s : State) (via : Via) (handle : Nat) (pl : Bytes), s.dev.phase = .netBoot ∧ via.port = 0 ∧ 
    (∃ n, s.dev.netSrc = some n ∧ n ≠ via.src) :=
  ⟨{ run with dev := { run.dev with phase := .netBoot, netSrc := some 5 } }, viaOf 0, 5, [], rfl, rfl, ⟨_, rfl, by decide⟩⟩

theorem test_w_StartSequenceRuns_7z : ∃ (s : State) (via : Via) (handle : Nat) (pl : Bytes), s.dev.phase = .netBoot ∧ via.port = 0 ∧ 
    (let fl := beAt pl 0 1; let data := pl.drop 8; let good := 8 ≤ pl.length ∧ fl < 4 ∧ beAt pl 1 3 = 0 ∧ beAt pl 4 4 % 16 = 0 ∧ data.length % 16 = 0 ∧ data.length ≤ 4080; (¬good) ∧ (∀ n, s.dev.netSrc = some n → n = via.src)) :=
  ⟨{ run with dev := { run.dev with phase := .netBoot } }, viaOf 0, 5, [], rfl, rfl, ⟨by decide +kernel, fun n h => (by cases h)⟩⟩

theorem test_w_QuotesAndKeys_1 : ∃ (s : State) (c : Ctx) (pl : Bytes), s.accepts c 0x0801 .keeperEarly false ∧ 
    (pl.length = 32 ∧ c.part = 0xFFFF) :=
  ⟨run, ownDev, List.replicate 32 0#8, ⟨rfl, rfl, fun h => (nomatch h), rfl⟩, by decide +kernel⟩

theorem test_w_QuotesAndKeys_1z : ∃ (s : State) (c : Ctx) (pl : Bytes), s.accepts c 0x0801 .keeperEarly false ∧ 
    (pl.length = 32 ∧ c.part ≠ 0xFFFF ∧ s.part c.part = none) :=
  ⟨run, own, List.replicate 32 0#8, ⟨rfl, rfl, fun h => (nomatch h), rfl⟩, by decide +kernel⟩

theorem test_w_QuotesAndKeys_2 : ∃ (s : State) (c : Ctx) (pl : Bytes), s.accepts c 0x0804 .keeper false :=
  ⟨run, ownDev, [], ⟨rfl, rfl, fun h => (nomatch h), rfl⟩⟩

theorem test_w_QuotesAndKeys_3 : ∃ (s : State) (c : Ctx) (pl : Bytes), s.accepts c 0x0803 .keeper true ∧ 
    (let i := beAt pl 1 1; let key := slice pl 4 65; let none0 := key.all (· == 0#8) = true; let good := pl.length = 72 ∧ beAt pl 0 1 ≤ 2 ∧ i ≤ (match beAt pl 0 1 with | 0 => 0 | 1 => 7 | _ => 127) ∧ beAt pl 2 2 = 0 ∧ beAt pl 69 3 = 0 ∧ (none0 ∨ key.headD 0#8 = 4#8 ∧ Config.onCurve key = true); (good) ∧ (none0) ∧ (beAt pl 0 1 = 0 ∧ s.parts = [])) :=
  ⟨run, ownDev, [0#8, 0#8] ++ List.replicate 70 0#8, ⟨rfl, rfl, fun _ => rfl, rfl⟩, ⟨by decide +kernel, by decide +kernel, by decide +kernel⟩⟩

theorem test_w_QuotesAndKeys_3w : ∃ (s : State) (c : Ctx) (pl : Bytes), s.accepts c 0x0803 .keeper true ∧ 
    (let i := beAt pl 1 1; let key := slice pl 4 65; let none0 := key.all (· == 0#8) = true; let good := pl.length = 72 ∧ beAt pl 0 1 ≤ 2 ∧ i ≤ (match beAt pl 0 1 with | 0 => 0 | 1 => 7 | _ => 127) ∧ beAt pl 2 2 = 0 ∧ beAt pl 69 3 = 0 ∧ (none0 ∨ key.headD 0#8 = 4#8 ∧ Config.onCurve key = true); (good) ∧ (none0) ∧ (beAt pl 0 1 = 1)) :=
  ⟨run, ownDev, [1#8, 7#8] ++ List.replicate 70 0#8, ⟨rfl, rfl, fun _ => rfl, rfl⟩, ⟨by decide +kernel, by decide +kernel, by decide +kernel⟩⟩

theorem test_w_QuotesAndKeys_3x : ∃ (s : State) (c : Ctx) (pl : Bytes), s.accepts c 0x0803 .keeper true ∧ 
    (let i := beAt pl 1 1; let key := slice pl 4 65; let none0 := key.all (· == 0#8) = true; let good := pl.length = 72 ∧ beAt pl 0 1 ≤ 2 ∧ i ≤ (match beAt pl 0 1 with | 0 => 0 | 1 => 7 | _ => 127) ∧ beAt pl 2 2 = 0 ∧ beAt pl 69 3 = 0 ∧ (none0 ∨ key.headD 0#8 = 4#8 ∧ Config.onCurve key = true); (good) ∧ (none0) ∧ (beAt pl 0 1 = 2 ∧ ∃ pt, s.part i = some pt)) :=
  ⟨withPart pt0, ownDev, [2#8, 127#8] ++ List.replicate 70 0#8, ⟨rfl, rfl, fun _ => rfl, rfl⟩, ⟨by decide +kernel, by decide +kernel, ⟨by decide +kernel, pt0, rfl⟩⟩⟩

theorem test_w_QuotesAndKeys_3y : ∃ (s : State) (c : Ctx) (pl : Bytes), s.accepts c 0x0803 .keeper true ∧ 
    (let i := beAt pl 1 1; let key := slice pl 4 65; let none0 := key.all (· == 0#8) = true; let good := pl.length = 72 ∧ beAt pl 0 1 ≤ 2 ∧ i ≤ (match beAt pl 0 1 with | 0 => 0 | 1 => 7 | _ => 127) ∧ beAt pl 2 2 = 0 ∧ beAt pl 69 3 = 0 ∧ (none0 ∨ key.headD 0#8 = 4#8 ∧ Config.onCurve key = true); (good) ∧ (none0) ∧ (beAt pl 0 1 = 0 ∧ s.parts ≠ [])) :=
  ⟨withPart pt0, ownDev, [0#8, 0#8] ++ List.replicate 70 0#8, ⟨rfl, rfl, fun _ => rfl, rfl⟩, ⟨by decide +kernel, by decide +kernel, by decide +kernel⟩⟩

theorem test_w_QuotesAndKeys_3z : ∃ (s : State) (c : Ctx) (pl : Bytes), s.accepts c 0x0803 .keeper true ∧ 
    (let i := beAt pl 1 1; let key := slice pl 4 65; let none0 := key.all (· == 0#8) = true; let good := pl.length = 72 ∧ beAt pl 0 1 ≤ 2 ∧ i ≤ (match beAt pl 0 1 with | 0 => 0 | 1 => 7 | _ => 127) ∧ beAt pl 2 2 = 0 ∧ beAt pl 69 3 = 0 ∧ (none0 ∨ key.headD 0#8 = 4#8 ∧ Config.onCurve key = true); (¬good)) :=
  ⟨run, ownDev, [1#8, 8#8] ++ List.replicate 70 0#8, ⟨rfl, rfl, fun _ => rfl, rfl⟩, by decide +kernel⟩

theorem test_w_QuotesAndKeys_4 : ∃ (s : State) (c : Ctx) (pl : Bytes), s.accepts c 0x0805 .keeper true ∧ 
    (let port := beAt pl 0 1; let dir := beAt pl 1 1; let an := beAt pl 2 1; let good := pl.length = 168 ∧ port ≤ 3 ∧ dir ≤ 1 ∧ an ≤ 3 ∧ beAt pl 3 1 = 0 ∧ beAt pl 165 3 = 0; (good)) :=
  ⟨run, ownDev, [3#8, 1#8, 3#8] ++ List.replicate 165 0#8, ⟨rfl, rfl, fun _ => rfl, rfl⟩, by decide +kernel⟩

theorem test_w_QuotesAndKeys_4z : ∃ (s : State) (c : Ctx) (pl : Bytes), s.accepts c 0x0805 .keeper true ∧ 
    (let port := beAt pl 0 1; let dir := beAt pl 1 1; let an := beAt pl 2 1; let good := pl.length = 168 ∧ port ≤ 3 ∧ dir ≤ 1 ∧ an ≤ 3 ∧ beAt pl 3 1 = 0 ∧ beAt pl 165 3 = 0; (¬good)) :=
  ⟨run, ownDev, [4#8, 1#8, 3#8] ++ List.replicate 165 0#8, ⟨rfl, rfl, fun _ => rfl, rfl⟩, by decide +kernel⟩

theorem test_w_DeviceSetsAreBound_1 : ∃ (s : State) (c : Ctx) (pl : Bytes), s.accepts c 0x0802 .keeper true ∧ 
    (let fl := beAt pl 0 1; let part := beAt pl 1 1; let off := beAt pl 4 4; let d := pl.drop 8; let good := 8 ≤ pl.length ∧ fl < 4 ∧ part ≤ 1 ∧ beAt pl 2 2 = 0 ∧ d.length ≤ 4080; let job : Option BindJob := if fl % 2 = 1 then some { sess := c.sess, cert := [], key := [], part := 0 } else s.keeper.bind; let follows := fun (j : BindJob) => if part = 0 then j.part = 0 ∧ off = j.cert.length ∧ off + d.length ≤ 147680 else off = j.key.length ∧ j.cert ≠ [] ∧ off + d.length ≤ 129; (good) ∧ (∃ j, job = some j ∧ follows j ∧ fl / 2 % 2 = 0)) :=
  ⟨run, ownDev, [1#8] ++ List.replicate 8 0#8, ⟨rfl, rfl, fun _ => rfl, rfl⟩, ⟨by decide +kernel, ⟨_, rfl, by decide +kernel, by decide +kernel⟩⟩⟩

theorem test_w_DeviceSetsAreBound_1x : ∃ (s : State) (c : Ctx) (pl : Bytes), s.accepts c 0x0802 .keeper true ∧ 
    (let fl := beAt pl 0 1; let part := beAt pl 1 1; let off := beAt pl 4 4; let d := pl.drop 8; let good := 8 ≤ pl.length ∧ fl < 4 ∧ part ≤ 1 ∧ beAt pl 2 2 = 0 ∧ d.length ≤ 4080; let job : Option BindJob := if fl % 2 = 1 then some { sess := c.sess, cert := [], key := [], part := 0 } else s.keeper.bind; let follows := fun (j : BindJob) => if part = 0 then j.part = 0 ∧ off = j.cert.length ∧ off + d.length ≤ 147680 else off = j.key.length ∧ j.cert ≠ [] ∧ off + d.length ≤ 129; let next := fun (j : BindJob) => if part = 0 then { j with cert := j.cert ++ d } else { j with part := 1, key := j.key ++ d }; (good) ∧ (∃ j, job = some j ∧ follows j ∧ fl / 2 % 2 = 1 ∧ beAt (next j).cert 0 4 ≠ 0x53455443)) :=
  ⟨run, ownDev, [3#8] ++ List.replicate 8 0#8, ⟨rfl, rfl, fun _ => rfl, rfl⟩, ⟨by decide +kernel, ⟨_, rfl, by decide +kernel, by decide +kernel, by decide +kernel⟩⟩⟩

theorem test_w_DeviceSetsAreBound_1y : ∃ (s : State) (c : Ctx) (pl : Bytes), s.accepts c 0x0802 .keeper true ∧ 
    (let fl := beAt pl 0 1; let part := beAt pl 1 1; let d := pl.drop 8; let good := 8 ≤ pl.length ∧ fl < 4 ∧ part ≤ 1 ∧ beAt pl 2 2 = 0 ∧ d.length ≤ 4080; let job : Option BindJob := if fl % 2 = 1 then some { sess := c.sess, cert := [], key := [], part := 0 } else s.keeper.bind; (good) ∧ (job = none)) :=
  ⟨run, ownDev, [0#8] ++ List.replicate 8 0#8, ⟨rfl, rfl, fun _ => rfl, rfl⟩, ⟨by decide +kernel, by decide +kernel⟩⟩

theorem test_w_DeviceSetsAreBound_1z : ∃ (s : State) (c : Ctx) (pl : Bytes), s.accepts c 0x0802 .keeper true ∧ 
    (let fl := beAt pl 0 1; let part := beAt pl 1 1; let d := pl.drop 8; let good := 8 ≤ pl.length ∧ fl < 4 ∧ part ≤ 1 ∧ beAt pl 2 2 = 0 ∧ d.length ≤ 4080; (¬good)) :=
  ⟨run, ownDev, [], ⟨rfl, rfl, fun _ => rfl, rfl⟩, by decide +kernel⟩

theorem test_w_DeviceSetsAreBound_2 : ∃ (s : State), s.keeper.bind ≠ none :=
  ⟨{ run with keeper := { run.keeper with bind := some ⟨7, [], [], 0⟩ } }, by decide⟩

/-- The payload of a CREATE_PARTITION of number 127 with the last quad, one extent of LPDDR5X and none of NAND. -/
def createPl : Bytes := [127#8, 7#8, 0#8, 0#8] ++ List.replicate 15 0#8 ++ [128#8, 0#8, 1#8] ++ List.replicate 110 0#8
/-- The payload of a RESIZE_PARTITION of partition 127 to the quotas it names. -/
def resizePl (p dram : Nat) : Bytes := beBytes 1 p ++ [7#8, 2#8, 0#8] ++ List.replicate 16 0#8 ++ beBytes 2 dram ++ List.replicate 6 0#8

/-- One of five addresses is none of the ports' own. -/
theorem freeMac : ∃ m, (m = 0 ∨ m = 1 ∨ m = 2 ∨ m = 3 ∨ m = 4) ∧ ((List.range 4).map Config.portMac).contains m = false := by
  refine Classical.byContradiction (fun h => ?_)
  have h' : ∀ m, (m = 0 ∨ m = 1 ∨ m = 2 ∨ m = 3 ∨ m = 4) → m = Config.portMac 0 ∨ m = Config.portMac 1 ∨ m = Config.portMac 2 ∨ m = Config.portMac 3 := fun m hm =>
    Classical.byContradiction (fun hn => h ⟨m, hm, by simp [List.range, List.range.loop]; simp at hn; exact hn⟩)
  have h0 := h' 0 (by simp)
  have h1 := h' 1 (by simp)
  have h2 := h' 2 (by simp)
  have h3 := h' 3 (by simp)
  have h4 := h' 4 (by simp)
  omega
theorem addr_free {m v : Nat} (h : ((List.range 4).map Config.portMac).contains m = false) (s : State) (p : Nat) (hs : s.parts.any (fun v => v.1 != p && (v.2.mac == m)) = false) :
    s.addressUsed p (m, v, 0, 0) = false := by
  simp only [State.addressUsed, h]
  simp only [bne_self_eq_false, Bool.false_and, Bool.false_or, Bool.or_false]
  exact hs
/-- That payload with a MAC address. -/
def macPl (m : Nat) : Bytes := createPl.set 33 (BitVec.ofNat 8 m)

theorem test_w_PartitionsAreMade_1 : ∃ (s : State) (c : Ctx) (pl : Bytes), s.accepts c 0x0501 .firmware true ∧ 
    (let p := beAt pl 0 1; let quads := (List.range 128).filter (fun q => ((slice pl 4 16).getD (q / 8) 0#8).toNat / 2 ^ (q % 8) % 2 == 1); let e := (beAt pl 28 6, beAt pl 34 2, beAt pl 36 4, beAt pl 40 16); let key := slice pl 64 65; let named := c.part = 0xFFFF ∨ c.part = p; let good := pl.length = 132 ∧ p ≤ 127 ∧ beAt pl 1 1 ≤ 7 ∧ beAt pl 2 2 = 0 ∧ quads ≠ [] ∧ 1 ≤ beAt pl 20 2 ∧ beAt pl 20 2 ≤ 984 ∧ beAt pl 22 2 ≤ 225 ∧ beAt pl 24 4 ≤ 1048576 ∧ e.1 / 2 ^ 40 % 2 = 0 ∧ e.2.1 ≤ 4094 ∧ beAt pl 56 1 ≤ 1 ∧ beAt pl 57 7 = 0 ∧ beAt pl 129 3 = 0 ∧ (if beAt pl 56 1 = 1 then key.length = 65 ∧ key.headD 0#8 = 4#8 ∧ Config.onCurve key = true else key.all (· == 0#8) = true); let used := (s.part p).isSome = true ∨ s.addressUsed p e = true; let lacks := (∃ q ∈ quads, s.quadFree q = false) ∨ s.freeDram.length < beAt pl 20 2 ∨ s.freeNand.length < beAt pl 22 2 ∨ 1048576 < s.quotaTaken p + beAt pl 24 4; (named ∧ good) ∧ (¬used) ∧ (¬lacks)) :=
  by
  obtain ⟨m, hm, h⟩ := freeMac
  obtain rfl | rfl | rfl | rfl | rfl := hm
  · exact ⟨run, ownDev, macPl 0, ⟨rfl, rfl, fun _ => rfl, rfl⟩, ⟨(by decide +kernel), fun u => u.elim (fun u => absurd u (by decide +kernel)) (fun u => Bool.noConfusion ((addr_free h _ 127 (by decide +kernel)).symm.trans u)), (by decide +kernel)⟩⟩
  · exact ⟨run, ownDev, macPl 1, ⟨rfl, rfl, fun _ => rfl, rfl⟩, ⟨(by decide +kernel), fun u => u.elim (fun u => absurd u (by decide +kernel)) (fun u => Bool.noConfusion ((addr_free h _ 127 (by decide +kernel)).symm.trans u)), (by decide +kernel)⟩⟩
  · exact ⟨run, ownDev, macPl 2, ⟨rfl, rfl, fun _ => rfl, rfl⟩, ⟨(by decide +kernel), fun u => u.elim (fun u => absurd u (by decide +kernel)) (fun u => Bool.noConfusion ((addr_free h _ 127 (by decide +kernel)).symm.trans u)), (by decide +kernel)⟩⟩
  · exact ⟨run, ownDev, macPl 3, ⟨rfl, rfl, fun _ => rfl, rfl⟩, ⟨(by decide +kernel), fun u => u.elim (fun u => absurd u (by decide +kernel)) (fun u => Bool.noConfusion ((addr_free h _ 127 (by decide +kernel)).symm.trans u)), (by decide +kernel)⟩⟩
  · exact ⟨run, ownDev, macPl 4, ⟨rfl, rfl, fun _ => rfl, rfl⟩, ⟨(by decide +kernel), fun u => u.elim (fun u => absurd u (by decide +kernel)) (fun u => Bool.noConfusion ((addr_free h _ 127 (by decide +kernel)).symm.trans u)), (by decide +kernel)⟩⟩

theorem test_w_PartitionsAreMade_1x : ∃ (s : State) (c : Ctx) (pl : Bytes), s.accepts c 0x0501 .firmware true ∧ 
    (let p := beAt pl 0 1; let quads := (List.range 128).filter (fun q => ((slice pl 4 16).getD (q / 8) 0#8).toNat / 2 ^ (q % 8) % 2 == 1); let e := (beAt pl 28 6, beAt pl 34 2, beAt pl 36 4, beAt pl 40 16); let key := slice pl 64 65; let named := c.part = 0xFFFF ∨ c.part = p; let good := pl.length = 132 ∧ p ≤ 127 ∧ beAt pl 1 1 ≤ 7 ∧ beAt pl 2 2 = 0 ∧ quads ≠ [] ∧ 1 ≤ beAt pl 20 2 ∧ beAt pl 20 2 ≤ 984 ∧ beAt pl 22 2 ≤ 225 ∧ beAt pl 24 4 ≤ 1048576 ∧ e.1 / 2 ^ 40 % 2 = 0 ∧ e.2.1 ≤ 4094 ∧ beAt pl 56 1 ≤ 1 ∧ beAt pl 57 7 = 0 ∧ beAt pl 129 3 = 0 ∧ (if beAt pl 56 1 = 1 then key.length = 65 ∧ key.headD 0#8 = 4#8 ∧ Config.onCurve key = true else key.all (· == 0#8) = true); let used := (s.part p).isSome = true ∨ s.addressUsed p e = true; (named ∧ good) ∧ (used)) :=
  ⟨withPart pt0, ownDev, createPl, ⟨rfl, rfl, fun _ => rfl, rfl⟩, ⟨by decide +kernel, by decide +kernel⟩⟩

theorem test_w_PartitionsAreMade_1y : ∃ (s : State) (c : Ctx) (pl : Bytes), s.accepts c 0x0501 .firmware true ∧ 
    (let p := beAt pl 0 1; let quads := (List.range 128).filter (fun q => ((slice pl 4 16).getD (q / 8) 0#8).toNat / 2 ^ (q % 8) % 2 == 1); let e := (beAt pl 28 6, beAt pl 34 2, beAt pl 36 4, beAt pl 40 16); let key := slice pl 64 65; let named := c.part = 0xFFFF ∨ c.part = p; let good := pl.length = 132 ∧ p ≤ 127 ∧ beAt pl 1 1 ≤ 7 ∧ beAt pl 2 2 = 0 ∧ quads ≠ [] ∧ 1 ≤ beAt pl 20 2 ∧ beAt pl 20 2 ≤ 984 ∧ beAt pl 22 2 ≤ 225 ∧ beAt pl 24 4 ≤ 1048576 ∧ e.1 / 2 ^ 40 % 2 = 0 ∧ e.2.1 ≤ 4094 ∧ beAt pl 56 1 ≤ 1 ∧ beAt pl 57 7 = 0 ∧ beAt pl 129 3 = 0 ∧ (if beAt pl 56 1 = 1 then key.length = 65 ∧ key.headD 0#8 = 4#8 ∧ Config.onCurve key = true else key.all (· == 0#8) = true); let used := (s.part p).isSome = true ∨ s.addressUsed p e = true; let lacks := (∃ q ∈ quads, s.quadFree q = false) ∨ s.freeDram.length < beAt pl 20 2 ∨ s.freeNand.length < beAt pl 22 2 ∨ 1048576 < s.quotaTaken p + beAt pl 24 4; (named ∧ good) ∧ (¬used) ∧ (lacks)) :=
  by
  obtain ⟨m, hm, h⟩ := freeMac
  obtain rfl | rfl | rfl | rfl | rfl := hm
  · exact ⟨{ run with parts := [(0, { pt0 with mac := 9 })] }, ownDev, macPl 0, ⟨rfl, rfl, fun _ => rfl, rfl⟩, ⟨(by decide +kernel), fun u => u.elim (fun u => absurd u (by decide +kernel)) (fun u => Bool.noConfusion ((addr_free h _ 127 (by decide +kernel)).symm.trans u)), (by decide +kernel)⟩⟩
  · exact ⟨{ run with parts := [(0, { pt0 with mac := 9 })] }, ownDev, macPl 1, ⟨rfl, rfl, fun _ => rfl, rfl⟩, ⟨(by decide +kernel), fun u => u.elim (fun u => absurd u (by decide +kernel)) (fun u => Bool.noConfusion ((addr_free h _ 127 (by decide +kernel)).symm.trans u)), (by decide +kernel)⟩⟩
  · exact ⟨{ run with parts := [(0, { pt0 with mac := 9 })] }, ownDev, macPl 2, ⟨rfl, rfl, fun _ => rfl, rfl⟩, ⟨(by decide +kernel), fun u => u.elim (fun u => absurd u (by decide +kernel)) (fun u => Bool.noConfusion ((addr_free h _ 127 (by decide +kernel)).symm.trans u)), (by decide +kernel)⟩⟩
  · exact ⟨{ run with parts := [(0, { pt0 with mac := 9 })] }, ownDev, macPl 3, ⟨rfl, rfl, fun _ => rfl, rfl⟩, ⟨(by decide +kernel), fun u => u.elim (fun u => absurd u (by decide +kernel)) (fun u => Bool.noConfusion ((addr_free h _ 127 (by decide +kernel)).symm.trans u)), (by decide +kernel)⟩⟩
  · exact ⟨{ run with parts := [(0, { pt0 with mac := 9 })] }, ownDev, macPl 4, ⟨rfl, rfl, fun _ => rfl, rfl⟩, ⟨(by decide +kernel), fun u => u.elim (fun u => absurd u (by decide +kernel)) (fun u => Bool.noConfusion ((addr_free h _ 127 (by decide +kernel)).symm.trans u)), (by decide +kernel)⟩⟩

theorem test_w_PartitionsAreMade_1z : ∃ (s : State) (c : Ctx) (pl : Bytes), s.accepts c 0x0501 .firmware true ∧ 
    (let p := beAt pl 0 1; let quads := (List.range 128).filter (fun q => ((slice pl 4 16).getD (q / 8) 0#8).toNat / 2 ^ (q % 8) % 2 == 1); let e := (beAt pl 28 6, beAt pl 34 2, beAt pl 36 4, beAt pl 40 16); let key := slice pl 64 65; let named := c.part = 0xFFFF ∨ c.part = p; let good := pl.length = 132 ∧ p ≤ 127 ∧ beAt pl 1 1 ≤ 7 ∧ beAt pl 2 2 = 0 ∧ quads ≠ [] ∧ 1 ≤ beAt pl 20 2 ∧ beAt pl 20 2 ≤ 984 ∧ beAt pl 22 2 ≤ 225 ∧ beAt pl 24 4 ≤ 1048576 ∧ e.1 / 2 ^ 40 % 2 = 0 ∧ e.2.1 ≤ 4094 ∧ beAt pl 56 1 ≤ 1 ∧ beAt pl 57 7 = 0 ∧ beAt pl 129 3 = 0 ∧ (if beAt pl 56 1 = 1 then key.length = 65 ∧ key.headD 0#8 = 4#8 ∧ Config.onCurve key = true else key.all (· == 0#8) = true); (¬(named ∧ good))) :=
  ⟨run, own, createPl.set 0 126#8, ⟨rfl, rfl, fun _ => rfl, rfl⟩, by decide +kernel⟩

theorem test_w_PartitionsAreMade_2 : ∃ (s : State) (c : Ctx) (pl : Bytes) (pt : Part), s.accepts c 0x0505 .firmware true ∧ s.part c.part = some pt ∧ 
    (let e := (beAt pl 0 6, beAt pl 6 2, beAt pl 8 4, beAt pl 12 16); let good := pl.length = 28 ∧ e.1 / 2 ^ 40 % 2 = 0 ∧ e.2.1 ≤ 4094; (pt.resetting = none) ∧ (good) ∧ (e = (beAt pl 0 6, 4094, 0, 0) ∧ s.addressUsed c.part (beAt pl 0 6, beAt pl 6 2, beAt pl 8 4, beAt pl 12 16) = false)) :=
  by
  obtain ⟨m, hm, h⟩ := freeMac
  obtain rfl | rfl | rfl | rfl | rfl := hm
  · exact ⟨withPart pt0, own, List.replicate 5 0#8 ++ [0#8, 0x0F#8, 0xFE#8] ++ List.replicate 20 0#8, _, ⟨rfl, rfl, fun _ => rfl, rfl⟩, rfl, ⟨rfl, (by decide +kernel), ⟨by decide +kernel, addr_free h _ 127 (by decide +kernel)⟩⟩⟩
  · exact ⟨withPart pt0, own, List.replicate 5 0#8 ++ [1#8, 0x0F#8, 0xFE#8] ++ List.replicate 20 0#8, _, ⟨rfl, rfl, fun _ => rfl, rfl⟩, rfl, ⟨rfl, (by decide +kernel), ⟨by decide +kernel, addr_free h _ 127 (by decide +kernel)⟩⟩⟩
  · exact ⟨withPart pt0, own, List.replicate 5 0#8 ++ [2#8, 0x0F#8, 0xFE#8] ++ List.replicate 20 0#8, _, ⟨rfl, rfl, fun _ => rfl, rfl⟩, rfl, ⟨rfl, (by decide +kernel), ⟨by decide +kernel, addr_free h _ 127 (by decide +kernel)⟩⟩⟩
  · exact ⟨withPart pt0, own, List.replicate 5 0#8 ++ [3#8, 0x0F#8, 0xFE#8] ++ List.replicate 20 0#8, _, ⟨rfl, rfl, fun _ => rfl, rfl⟩, rfl, ⟨rfl, (by decide +kernel), ⟨by decide +kernel, addr_free h _ 127 (by decide +kernel)⟩⟩⟩
  · exact ⟨withPart pt0, own, List.replicate 5 0#8 ++ [4#8, 0x0F#8, 0xFE#8] ++ List.replicate 20 0#8, _, ⟨rfl, rfl, fun _ => rfl, rfl⟩, rfl, ⟨rfl, (by decide +kernel), ⟨by decide +kernel, addr_free h _ 127 (by decide +kernel)⟩⟩⟩

theorem test_w_PartitionsAreMade_2y : ∃ (s : State) (c : Ctx) (pl : Bytes) (pt : Part), s.accepts c 0x0505 .firmware true ∧ s.part c.part = some pt ∧ 
    (let e := (beAt pl 0 6, beAt pl 6 2, beAt pl 8 4, beAt pl 12 16); let good := pl.length = 28 ∧ e.1 / 2 ^ 40 % 2 = 0 ∧ e.2.1 ≤ 4094; (pt.resetting = none) ∧ (¬good)) :=
  ⟨withPart pt0, own, List.replicate 6 0#8 ++ [0x0F#8, 0xFF#8] ++ List.replicate 20 0#8, _, ⟨rfl, rfl, fun _ => rfl, rfl⟩, rfl, ⟨by decide +kernel, by decide +kernel⟩⟩

theorem test_w_PartitionsAreMade_2z : ∃ (s : State) (c : Ctx) (pl : Bytes) (pt : Part), s.accepts c 0x0505 .firmware true ∧ s.part c.part = some pt ∧ 
    (pt.resetting ≠ none) :=
  ⟨withPart { pt0 with resetting := some (own, false) }, own, List.replicate 28 0#8, _, ⟨rfl, rfl, fun _ => rfl, rfl⟩, rfl, by decide +kernel⟩

theorem test_w_PartitionsAreMade_3 : ∃ (s : State) (c : Ctx) (pl : Bytes), s.accepts c 0x0505 .firmware true ∧ s.part c.part = none :=
  ⟨run, own, List.replicate 28 0#8, ⟨rfl, rfl, fun _ => rfl, rfl⟩, rfl⟩

theorem test_w_PartitionsAreMade_4 : ∃ (s : State) (c : Ctx) (pl : Bytes), s.accepts c 0x0502 .firmware true ∧ 
    (let m := s.freeMbox c 0x0502; let p := beAt pl 0 1; let fl := beAt pl 2 1; let quads := (List.range 128).filter (fun q => ((slice pl 4 16).getD (q / 8) 0#8).toNat / 2 ^ (q % 8) % 2 == 1); let dram := beAt pl 20 2; let nand := beAt pl 22 2; let good := pl.length = 28 ∧ p ≤ 127 ∧ beAt pl 1 1 ≤ 7 ∧ fl < 16 ∧ beAt pl 3 1 = 0 ∧ (fl % 2 = 1 → quads ≠ []) ∧ dram ≤ 984 ∧ (fl / 2 % 2 = 1 → dram ≠ 0) ∧ nand ≤ 225 ∧ beAt pl 24 4 ≤ 1048576; (good) ∧ (c.part = p) ∧ (∃ pt, s.part p = some pt ∧ pt.resetting = none ∧ pt.mstate = .empty ∧ ¬(pt.dram.length + (m.modPart p (fun pt => { pt with staged := { pt.staged with resize := none } })).freeDram.length < dram))) :=
  ⟨withPart pt0, own, resizePl 127 984, ⟨rfl, rfl, fun _ => rfl, rfl⟩, ⟨by decide +kernel, by decide +kernel, ⟨_, rfl, rfl, rfl, by decide +kernel⟩⟩⟩

theorem test_w_PartitionsAreMade_4y : ∃ (s : State) (c : Ctx) (pl : Bytes), s.accepts c 0x0502 .firmware true ∧ 
    (let p := beAt pl 0 1; (c.part ≠ 0xFFFF ∧ c.part ≠ p)) :=
  ⟨withPart pt0, own, resizePl 126 984, ⟨rfl, rfl, fun _ => rfl, rfl⟩, by decide +kernel⟩

theorem test_w_PartitionsAreMade_4z : ∃ (s : State) (c : Ctx) (pl : Bytes), s.accepts c 0x0502 .firmware true ∧ 
    (let p := beAt pl 0 1; let fl := beAt pl 2 1; let quads := (List.range 128).filter (fun q => ((slice pl 4 16).getD (q / 8) 0#8).toNat / 2 ^ (q % 8) % 2 == 1); let dram := beAt pl 20 2; let nand := beAt pl 22 2; let good := pl.length = 28 ∧ p ≤ 127 ∧ beAt pl 1 1 ≤ 7 ∧ fl < 16 ∧ beAt pl 3 1 = 0 ∧ (fl % 2 = 1 → quads ≠ []) ∧ dram ≤ 984 ∧ (fl / 2 % 2 = 1 → dram ≠ 0) ∧ nand ≤ 225 ∧ beAt pl 24 4 ≤ 1048576; (c.part = p) ∧ (s.part p = none) ∧ (good)) :=
  ⟨run, own, resizePl 127 984, ⟨rfl, rfl, fun _ => rfl, rfl⟩, ⟨by decide +kernel, by decide +kernel, by decide +kernel⟩⟩

theorem test_w_PartitionsAreReset_1 : ∃ (s : State) (c : Ctx) (pl : Bytes) (i : Instr) (op : Nat) (delete : Bool), (((i = .resetPartition c pl ∧ op = 0x0503 ∧ delete = false) ∨ (i = .deletePartition c pl ∧ op = 0x0504 ∧ delete = true))) ∧ s.accepts c op .firmware delete ∧ 
    (let entitled := delete = true ∨ s.role c = some .devOwner ∨ s.role c = some .partOwner; (entitled) ∧ (∃ pt, s.part c.part = some pt ∧ pt.resetting = none ∧ pl = [] ∧ delete = false)) :=
  ⟨withPart pt0, own, [], .resetPartition own [], 0x0503, false, .inl ⟨rfl, rfl, rfl⟩, ⟨rfl, rfl, fun h => (nomatch h), rfl⟩, ⟨.inr (.inl (by decide +kernel)), ⟨_, rfl, rfl, rfl, rfl⟩⟩⟩

theorem test_w_PartitionsAreReset_1z : ∃ (s : State) (c : Ctx) (pl : Bytes) (i : Instr) (op : Nat) (delete : Bool), (((i = .resetPartition c pl ∧ op = 0x0503 ∧ delete = false) ∨ (i = .deletePartition c pl ∧ op = 0x0504 ∧ delete = true))) ∧ s.accepts c op .firmware delete ∧ 
    (let entitled := delete = true ∨ s.role c = some .devOwner ∨ s.role c = some .partOwner; (entitled) ∧ (∃ pt, s.part c.part = some pt ∧ pt.resetting = none ∧ pl = [] ∧ delete = true ∧ pt.mstate = .empty)) :=
  ⟨withPart pt0, own, [], .deletePartition own [], 0x0504, true, .inr ⟨rfl, rfl, rfl⟩, ⟨rfl, rfl, fun _ => rfl, rfl⟩, ⟨.inl rfl, ⟨_, rfl, rfl, rfl, rfl, rfl⟩⟩⟩

theorem test_w_PartitionsAreReset_2 : ∃ (s : State) (p : Nat) (pt : Part) (c : Ctx), p < 128 ∧ s.part p = some pt ∧ pt.resetting = some (c, false) ∧ pt.staged.reset = none :=
  ⟨withPart { pt0 with resetting := some (own, false) }, 127, _, _, by decide, rfl, rfl, rfl⟩

theorem test_w_PartitionsAreReset_3 : ∃ (s : State) (p : Nat) (pt : Part) (c : Ctx), s.part p = some pt ∧ pt.resetting = some (c, true) ∧ pt.staged.reset = none :=
  ⟨withPart { pt0 with resetting := some (own, true) }, 127, _, _, rfl, rfl, rfl⟩

theorem test_w_SurveysStart_1 : ∃ (s : State) (c : Ctx) (pl : Bytes) (i : Instr), i ∈ [Instr.surveyS0 c pl, .surveyS1Tile c pl, .surveyS1Gazetteer c pl, .surveyS2 c pl] ∧ s.accepts c 0x0901 .firmware true ∧ (¬(pl.length = 8 ∧ beAt pl 4 4 = 0 ∧ ((beAt pl 0 1 = 0 ∧ beAt pl 1 1 ≤ 3 ∧ beAt pl 2 2 = 0) ∨ (beAt pl 0 1 = 1 ∧ beAt pl 1 1 = 0 ∧ beAt pl 2 2 < 512) ∨ (beAt pl 0 1 = 1 ∧ beAt pl 1 1 = 1 ∧ beAt pl 2 2 = 0) ∨ (beAt pl 0 1 = 2 ∧ beAt pl 1 1 = 0 ∧ beAt pl 2 2 = 0)))) :=
  ⟨run, own, [], .surveyS2 own [], by decide, ⟨rfl, rfl, fun _ => rfl, rfl⟩, by decide⟩

theorem test_w_SurveysStart_2 : ∃ (s : State) (c : Ctx) (item : Nat), s.accepts c 0x0901 .firmware true ∧ item ≤ 3 ∧ 
    (s.survey.s2 = none) ∧ (∀ e ∈ s.survey.s0, e.1 ≠ item) :=
  ⟨run, own, 3, ⟨rfl, rfl, fun _ => rfl, rfl⟩, by rfl, ⟨by decide +kernel, fun e h => (by cases h)⟩⟩

theorem test_w_SurveysStart_2z : ∃ (s : State) (c : Ctx) (item : Nat), s.accepts c 0x0901 .firmware true ∧ item ≤ 3 ∧ 
    (s.survey.s2 = none) ∧ (∃ e ∈ s.survey.s0, e.1 = item) :=
  ⟨{ run with survey := { run.survey with s0 := [(3, own)] } }, own, 3, ⟨rfl, rfl, fun _ => rfl, rfl⟩, by rfl, ⟨by decide +kernel, by decide +kernel⟩⟩

theorem test_w_SurveysStart_3 : ∃ (s : State) (c : Ctx) (t : Nat), s.accepts c 0x0901 .firmware true ∧ t < 512 ∧ 
    (let quad := fun (u : Nat) => u / 4 = t / 4; let away := fun (u : Nat) => u ∈ s.survey.failed ∨ ∃ e ∈ s.survey.out, e.1 = u; let staged := fun (u : Nat) => ∃ e ∈ s.parts, ∃ v ∈ e.2.staged.takeOut, v.1 = u; let near := ∃ u, quad u ∧ u ≠ t ∧ (away u ∨ staged u); (s.survey.s2 = none) ∧ (s.ownerOf t = none) ∧ (¬away t) ∧ (¬near)) :=
  ⟨run, own, 511, ⟨rfl, rfl, fun _ => rfl, rfl⟩, by decide, ⟨by decide +kernel, by decide +kernel, fun h => h.elim (fun h => (by cases h)) (fun h => (by obtain ⟨e, h, _⟩ := h; cases h)), fun ⟨u, _, _, h⟩ => h.elim (fun h => h.elim (fun h => (by cases h)) (fun h => (by obtain ⟨e, h, _⟩ := h; cases h))) (fun h => (by obtain ⟨e, h, _⟩ := h; cases h))⟩⟩

theorem test_w_SurveysStart_3y : ∃ (s : State) (c : Ctx) (t : Nat), s.accepts c 0x0901 .firmware true ∧ t < 512 ∧ 
    (let away := fun (u : Nat) => u ∈ s.survey.failed ∨ ∃ e ∈ s.survey.out, e.1 = u; (s.survey.s2 = none) ∧ (s.ownerOf t = some 127) ∧ (¬away t)) :=
  ⟨withPart pt0, own, 511, ⟨rfl, rfl, fun _ => rfl, rfl⟩, by decide, ⟨by decide +kernel, by decide +kernel, fun h => h.elim (fun h => (by cases h)) (fun h => (by obtain ⟨e, h, _⟩ := h; cases h))⟩⟩

theorem test_w_SurveysStart_3z : ∃ (s : State) (c : Ctx) (t : Nat), s.accepts c 0x0901 .firmware true ∧ t < 512 ∧ 
    (let away := fun (u : Nat) => u ∈ s.survey.failed ∨ ∃ e ∈ s.survey.out, e.1 = u; (s.survey.s2 = none) ∧ (away t)) :=
  ⟨{ run with survey := { run.survey with failed := [511] } }, own, 511, ⟨rfl, rfl, fun _ => rfl, rfl⟩, by decide, ⟨by decide +kernel, by decide +kernel⟩⟩

theorem test_w_SurveysStart_4 : ∃ (s : State) (c : Ctx), s.accepts c 0x0901 .firmware true ∧ 
    (s.survey.s2 = none ∧ s.survey.gzOut = none) :=
  ⟨run, own, ⟨rfl, rfl, fun _ => rfl, rfl⟩, by decide +kernel⟩

theorem test_w_SurveysStart_5 : ∃ (s : State) (c : Ctx), s.accepts c 0x0901 .firmware true ∧ 
    (let drained := ∀ e ∈ s.parts, (e.2.mstate = .empty ∨ e.2.mstate = .loaded) ∧ e.2.reqs = [] ∧ e.2.streams = [] ∧ e.2.resetting = none ∧ e.2.loans = [] ∧ e.2.loanAsk = []; let s1 := s.survey.out ≠ [] ∨ s.survey.gzOut ≠ none ∨ ∃ e ∈ s.parts, e.2.staged.takeOut ≠ []; (s.survey.s2 = none) ∧ (¬s1) ∧ (drained) ∧ (s.guard.level = 0)) :=
  ⟨run, own, ⟨rfl, rfl, fun _ => rfl, rfl⟩, ⟨by decide +kernel, by decide +kernel, by decide +kernel, by decide +kernel⟩⟩

theorem test_w_SurveysStart_5z : ∃ (s : State) (c : Ctx), s.accepts c 0x0901 .firmware true ∧ 
    (let drained := ∀ e ∈ s.parts, (e.2.mstate = .empty ∨ e.2.mstate = .loaded) ∧ e.2.reqs = [] ∧ e.2.streams = [] ∧ e.2.resetting = none ∧ e.2.loans = [] ∧ e.2.loanAsk = []; (s.survey.s2 = none) ∧ (¬drained)) :=
  ⟨withPart { pt0 with mstate := .started }, own, ⟨rfl, rfl, fun _ => rfl, rfl⟩, ⟨by decide +kernel, by decide +kernel⟩⟩

theorem test_w_SurveysEnd_1 : ∃ (s : State) (e : Nat × Ctx) (fail : Bool) (detail : Nat), s.survey.s0.find? (fun v => v.1 == e.1) = some e :=
  ⟨{ run with survey := { run.survey with s0 := [(3, own)] } }, (3, own), true, 7, rfl⟩

theorem test_w_SurveysEnd_2 : ∃ (s : State) (t : Nat) (co : Option Ctx) (pass : Bool), s.survey.out.find? (fun e => e.1 == t && !e.2.2) = some (t, co, false) ∧ 
    (s.ownerOf t = some 127) ∧ (∃ pt, s.part 127 = some pt ∧ pt.resetting = none) :=
  ⟨{ withPart pt0 with survey := { run.survey with out := [(511, some own, false)] } }, 511, some own, true, rfl, ⟨by decide +kernel, ⟨_, rfl, rfl⟩⟩⟩

theorem test_w_SurveysEnd_2z : ∃ (s : State) (t : Nat) (co : Option Ctx) (pass : Bool), s.survey.out.find? (fun e => e.1 == t && !e.2.2) = some (t, co, false) ∧ 
    (s.ownerOf t = none) :=
  ⟨{ run with survey := { run.survey with out := [(511, some own, false)] } }, 511, some own, false, rfl, by decide +kernel⟩

theorem test_w_SurveysEnd_3 : ∃ (s : State) (c : Ctx) (pass : Bool), s.survey.gzOut = some c :=
  ⟨{ run with survey := { run.survey with gzOut := some own } }, own, true, rfl⟩

theorem test_w_surveys_end : ∃ (s : State) (c : Ctx) (channels tiles : List Nat), s.survey.s2 = some c ∧ (∀ k ∈ channels, k < 64) ∧ (∀ t ∈ tiles, t < 512) ∧
    ∃ pt, s.part 127 = some pt ∧ pt.mstate = .loaded :=
  ⟨{ withPart { pt0 with mstate := .loaded } with survey := { run.survey with s2 := some own } }, own, [63], [511], rfl, by decide, by decide, _, rfl, rfl⟩

theorem test_w_StepRunsTheFrontCommand_1 : ∃ (c : Instr) (cs : List Instr) (s : State), s.pending = c :: cs :=
  ⟨.surveyS2 own [], [], { run with pending := [.surveyS2 own []] }, rfl⟩

theorem test_w_StepRunsTheFrontCommand_2 : ∃ (s : State), s.pending = [] :=
  ⟨run, rfl⟩

theorem test_w_StepKeepsMemoryCanonical_1 : ∃ s t : State, s.mem.wf = true ∧ step s = .next t :=
  ⟨{ run with pending := [.clearFaults] }, _, rfl, rfl⟩
theorem test_w_CommandsLeaveTheQueue_1 : ∃ (c : Instr) (s t : State), exec c s = .next t ∧ s.pending = [.clearFaults] :=
  ⟨.clearFaults, { run with pending := [.clearFaults] }, _, rfl, rfl⟩

theorem test_w_FramesReadBack_1 : ∃ (h : Hdr) (pl rest : Bytes), h.version < 256 ∧ h.version ≠ 1 ∧ h.version ≠ 2 ∧ h.kind < 256 ∧ h.flags < 2 ^ 16 ∧ h.part < 2 ^ 16 ∧ h.sess < 2 ^ 16 ∧ h.seq < 2 ^ 32 ∧ h.ackNum < 2 ^ 32 ∧ h.handle < 2 ^ 32 ∧ h.opcode < 2 ^ 16 ∧ h.status < 2 ^ 16 ∧ pl.length < 2 ^ 32 :=
  ⟨⟨3, 5, 65535, 65535, 65535, 4294967295, 0, 4294967295, 65535, 65535, 0, 0⟩, [0xFF#8], [], by decide, by decide, by decide, by decide, by decide, by decide, by decide, by decide, by decide, by decide, by decide, by decide, by decide⟩

/-- An image whose key block names the set of 32 bytes of 0. -/
def imKey : Image := { imOf 1 0 with cart := (cartOf 1).set 12 2#8 }

theorem test_w_UnbindSetErases_1 : ∃ (s : State) (c : Ctx) (id : Bytes), s.accepts c 0x0806 .keeper true ∧ 
    (let named := ∃ e ∈ s.parts, ∃ im : Image, (e.2.image = some im ∨ e.2.next = some im) ∧ im.hasKeyBlock = true ∧ im.setId = id; (id.length = 32) ∧ (¬named)) :=
  ⟨run, ownDev, List.replicate 32 0#8, ⟨rfl, rfl, fun _ => rfl, rfl⟩, ⟨by decide +kernel, (by rintro ⟨e, h, _⟩; cases h)⟩⟩

theorem test_w_UnbindSetErases_1y : ∃ (s : State) (c : Ctx) (id : Bytes), s.accepts c 0x0806 .keeper true ∧ 
    (let named := ∃ e ∈ s.parts, ∃ im : Image, (e.2.image = some im ∨ e.2.next = some im) ∧ im.hasKeyBlock = true ∧ im.setId = id; (id.length = 32) ∧ (named)) :=
  ⟨withPart (ptIm imKey), ownDev, List.replicate 32 0#8, ⟨rfl, rfl, fun _ => rfl, rfl⟩, ⟨by decide +kernel, ⟨_, List.mem_singleton.mpr rfl, imKey, .inl rfl, by decide +kernel, by decide +kernel⟩⟩⟩

theorem test_w_UnbindSetErases_1z : ∃ (s : State) (c : Ctx) (id : Bytes), s.accepts c 0x0806 .keeper true ∧ 
    (id.length ≠ 32) :=
  ⟨run, ownDev, List.replicate 31 0#8, ⟨rfl, rfl, fun _ => rfl, rfl⟩, by decide +kernel⟩

theorem test_w_PartitionsAreNamed_1 : ∃ (s : State) (c : Ctx) (pl : Bytes) (i : Instr) (op : Nat), (((i = .createPartition c pl ∧ op = 0x0501) ∨ (i = .resizePartition c pl ∧ op = 0x0502))) ∧ s.accepts c op .firmware true ∧ 
    (c.part ≠ 0xFFFF ∧ c.part ≠ beAt pl 0 1) :=
  ⟨withPart pt0, own, resizePl 126 1, .resizePartition own (resizePl 126 1), 0x0502, .inr ⟨rfl, rfl⟩, ⟨rfl, rfl, fun _ => rfl, rfl⟩, by decide +kernel⟩

theorem test_w_PartitionsAreNamed_1z : ∃ (s : State) (c : Ctx) (pl : Bytes) (i : Instr) (op : Nat), (((i = .createPartition c pl ∧ op = 0x0501) ∨ (i = .resizePartition c pl ∧ op = 0x0502))) ∧ s.accepts c op .firmware true ∧ 
    (c.part = beAt pl 0 1) :=
  ⟨run, own, createPl, .createPartition own createPl, 0x0501, .inl ⟨rfl, rfl⟩, ⟨rfl, rfl, fun _ => rfl, rfl⟩, by decide +kernel⟩

theorem test_w_PartitionsAreNamed_2 : ∃ (s : State) (c : Ctx) (pl : Bytes), s.accepts c 0x0502 .firmware true ∧ ((c.part = 0xFFFF ∨ c.part = beAt pl 0 1)) ∧ s.part (beAt pl 0 1) = none ∧ pl.length = 28 ∧ beAt pl 0 1 ≤ 127 ∧ beAt pl 1 1 ≤ 7 ∧ beAt pl 2 1 = 4 ∧ beAt pl 3 1 = 0 ∧ beAt pl 20 2 ≤ 984 ∧ beAt pl 22 2 ≤ 225 ∧ beAt pl 24 4 ≤ 1048576 :=
  ⟨run, own, (resizePl 127 984).set 2 4#8, ⟨rfl, rfl, fun _ => rfl, rfl⟩, .inr (by decide +kernel), by decide +kernel, by decide +kernel, by decide +kernel, by decide +kernel, by decide +kernel, by decide +kernel, by decide +kernel, by decide +kernel, by decide +kernel⟩

theorem test_w_PartitionsAreNamed_3 : ∃ (s : State) (c : Ctx) (pl : Bytes) (i : Instr) (op : Nat), s.part c.part = none ∧ (((i = .resetPartition c pl ∧ op = 0x0503 ∧ s.accepts c op .firmware false) ∨ (i = .deletePartition c pl ∧ op = 0x0504 ∧ s.accepts c op .firmware true) ∨ (i = .setEndpoint c pl ∧ op = 0x0505 ∧ s.accepts c op .firmware true) ∨ (i = .installInset c pl ∧ op = 0x0301 ∧ s.accepts c op .firmware true) ∨ (i = .removeInset c pl ∧ op = 0x0302 ∧ s.accepts c op .firmware true) ∨ (i = .installModel c pl ∧ op = 0x0401 ∧ s.accepts c op .firmware true) ∨ (i = .swapLayers c pl ∧ op = 0x0402 ∧ s.accepts c op .firmware true) ∨ (i = .stopModel c pl ∧ op = 0x0403 ∧ s.accepts c op .firmware true) ∨ (i = .startModel c pl ∧ op = 0x0404 ∧ s.accepts c op .firmware true) ∨ (i = .loadLendable c pl ∧ op = 0x0406 ∧ s.accepts c op .firmware true) ∨ (i = .removeModel c pl ∧ op = 0x0407 ∧ s.accepts c op .firmware true))) :=
  ⟨run, own, [], .resetPartition own [], 0x0503, rfl, .inl ⟨rfl, rfl, ⟨rfl, rfl, fun h => (nomatch h), rfl⟩⟩⟩

theorem test_w_PartitionsAreNamed_3z : ∃ (s : State) (c : Ctx) (pl : Bytes) (i : Instr) (op : Nat), s.part c.part = none ∧ (((i = .resetPartition c pl ∧ op = 0x0503 ∧ s.accepts c op .firmware false) ∨ (i = .deletePartition c pl ∧ op = 0x0504 ∧ s.accepts c op .firmware true) ∨ (i = .setEndpoint c pl ∧ op = 0x0505 ∧ s.accepts c op .firmware true) ∨ (i = .installInset c pl ∧ op = 0x0301 ∧ s.accepts c op .firmware true) ∨ (i = .removeInset c pl ∧ op = 0x0302 ∧ s.accepts c op .firmware true) ∨ (i = .installModel c pl ∧ op = 0x0401 ∧ s.accepts c op .firmware true) ∨ (i = .swapLayers c pl ∧ op = 0x0402 ∧ s.accepts c op .firmware true) ∨ (i = .stopModel c pl ∧ op = 0x0403 ∧ s.accepts c op .firmware true) ∨ (i = .startModel c pl ∧ op = 0x0404 ∧ s.accepts c op .firmware true) ∨ (i = .loadLendable c pl ∧ op = 0x0406 ∧ s.accepts c op .firmware true) ∨ (i = .removeModel c pl ∧ op = 0x0407 ∧ s.accepts c op .firmware true))) :=
  ⟨run, own, [], .removeModel own [], 0x0407, rfl, .inr (.inr (.inr (.inr (.inr (.inr (.inr (.inr (.inr (.inr ⟨rfl, rfl, ⟨rfl, rfl, fun _ => rfl, rfl⟩⟩)))))))))⟩

theorem test_w_FirstFaultIsKept_1 : ∃ (s : State) (p : Nat) (st : Status) (outcome : Nat) (v : StepSt), p < 128 ∧ outcome < 3 ∧ (s.reg .sv 0 0x44).bit 31 = false :=
  ⟨run, 127, .uncorrectable, 2, stepAt 7, by decide, by decide, rfl⟩

theorem test_w_FirstFaultIsKept_2 : ∃ s : State, (s.reg .sv 0 0x44).bit 31 = true :=
  ⟨run.putReg .sv 0 0x44 0x80000000#32, by decide +kernel⟩

theorem test_w_FirstFaultIsKept_3 : ∃ (s : State) (c : Ctx), s.isOwner c = true :=
  ⟨run, own, rfl⟩

/-- SM3 gives 32 bytes: then a shard can have the digest that its cartouche names. -/
theorem test_w_ShardsAreFetched_digest (h : (Config.sm3 []).length = 32) : ∃ (s : State) (p : Nat) (pt : Part) (v : Install) (im : Image), s.part p = some pt ∧ pt.install = none ∧
    pt.refetch = some v ∧ v.image = some im ∧ v.shard.length = im.shardLen ∧ v.src = .host ∧ Config.sm3 v.shard = im.digest := by
  let im : Image := { imOf 1 0 with cart := List.replicate 192 0#8 ++ (Config.sm3 [] ++ List.replicate 32 0#8) }
  let v : Install := { inst5 with src := .host, image := some im }
  refine ⟨withPart { ptIm im with refetch := some v }, 127, _, v, im, rfl, rfl, rfl, rfl, ?_, rfl, ?_⟩
  · show 0 = ofBe ((im.cart.drop 172).take 8)
    show 0 = ofBe (((List.replicate 192 0#8 ++ (Config.sm3 [] ++ List.replicate 32 0#8)).drop 172).take 8)
    rw [List.drop_append_of_le_length (by decide +kernel), List.take_append_of_le_length (by decide +kernel)]
    decide +kernel
  · show Config.sm3 [] = ((List.replicate 192 0#8 ++ (Config.sm3 [] ++ List.replicate 32 0#8)).drop 192).take 32
    rw [List.drop_left' (by decide +kernel), List.take_left' h]

/-- Model D26 of Attention and the key-value cache: 4 key-value heads of 128 elements of one byte fill a page of 128 KiB exactly. -/
theorem test_page_of_d26 : (let im : Image := { imOf 1 0 with cart := ((((cartOf 1).set 6 4#8).set 7 2#8).set 9 4#8).set 11 128#8 }; (im.pageBytes, im.hkv * im.headDim * 128, im.kvOk)) = (131072, 65536, true) := by
  decide +kernel
/-- The check value of CRC-32C: of the digits 1 to 9 in ASCII. -/
theorem test_crc32c : crc32c [0x31#8, 0x32#8, 0x33#8, 0x34#8, 0x35#8, 0x36#8, 0x37#8, 0x38#8, 0x39#8] = 0xE3069283 := by decide +kernel

end Sys2Proof.Tests
end

section
/-!
PROOFS. The register frames REG_READ and REG_WRITE as wholes: their entries, their refusals and what one entry reads.
-/
namespace Sys2Proof.Machine

open Sys2Proof

/-! ## One entry -/

/-- An address that is not aligned or lies in no range is refused (R6, R480). -/
theorem entry_badAddress (s : State) (c : Ctx) (a : Nat) (v : Word) (h : a % 4 ≠ 0 ∨ inRange a = false) :
    s.readEntry c a = .error .badFrame ∧ s.writeEntry c a v = .no .badFrame := by
  by_cases h4 : a % 4 = 0
  · exact entry_unplaced s c a v h4 (h.resolve_left (not_not_intro h4))
  · unfold State.readEntry State.writeEntry
    exact ⟨if_pos h4, if_pos h4⟩

/-- The device owner reads any register there is (R487). -/
theorem readEntry_owner (s : State) (c : Ctx) (b : Blk) (k off : Nat) (ho : s.isOwner c = true) (hk : k < b.place.2.2)
    (hoff : off < b.place.2.1) (h4 : off % 4 = 0) (hocc : b.occupied off = true) :
    s.readEntry c (b.at k off) = .ok (s.afterRead b k off, s.regValue b k off) := by
  have hmay : s.mayAccess c b k off = true := by unfold State.mayAccess State.mayRead; rw [ho]; rfl
  have haligned : ¬ (b.at k off % 4 ≠ 0) := by rw [at_mod4 h4]; decide
  unfold State.readEntry
  rw [if_neg haligned, regPlace_at hk hoff]
  simp [hmay, hocc]

/-! ## The frames -/

/-- The entries of a REG_READ that are all read answer their values. -/
theorem regRead_answers (s s1 : State) (c : Ctx) (as : List Nat) (vs : List Word) (hs : s.registersServe c 0x0606) (h1 : 1 ≤ as.length)
    (h64 : as.length ≤ 64) (hb : ∀ a ∈ as, a < 2 ^ 32) (hd : readsDone c as vs s s1) :
    answered (.regRead c (beBytes 4 as.length ++ as.flatMap (beBytes 4))) s c 0x0606 .ok (vs.flatMap (fun v => beBytes 4 v.toNat))
      (fun t => t = s1) :=
  ⟨s1, by rw [regRead_run s c as _ hs rfl h1 h64 hb, readEntries_ok c as vs s s1 0 [] hd]; rfl, rfl⟩

/-- The first refused entry of a REG_READ stops it with its index and the values before it (R377). -/
theorem regRead_stops (s s1 : State) (c : Ctx) (pre post : List Nat) (a : Nat) (vs : List Word) (st : Status) (hs : s.registersServe c 0x0606)
    (h64 : pre.length + 1 + post.length ≤ 64) (hb : ∀ x ∈ pre ++ a :: post, x < 2 ^ 32) (hd : readsDone c pre vs s s1)
    (he : s1.readEntry c a = .error st) :
    answered (.regRead c (beBytes 4 (pre.length + 1 + post.length) ++ (pre ++ a :: post).flatMap (beBytes 4))) s c 0x0606 st
      (beBytes 4 pre.length ++ vs.flatMap (fun v => beBytes 4 v.toNat)) (fun t => t = s1) := by
  have hn : pre.length + 1 + post.length = (pre ++ a :: post).length := by simp; omega
  refine ⟨s1, ?_, rfl⟩
  rw [regRead_run s c _ _ hs hn (by omega) h64 hb, readEntries_no c a post st pre vs s s1 0 [] hd he]
  simp

/-- The entries of a REG_WRITE that are all done answer OK. -/
theorem regWrite_answers (s s1 : State) (c : Ctx) (es : List (Word × Word)) (hs : s.registersServe c 0x0607)
    (ho : c.sess = sidebandSess → s.isOwner c = true) (h1 : 1 ≤ es.length) (h64 : es.length ≤ 64) (hd : writesDone c es s s1)
    (hg : s1.lesar.goDone = []) :
    answered (.regWrite c (beBytes 4 es.length ++ es.flatMap (fun e => beBytes 4 e.1.toNat ++ beBytes 4 e.2.toNat))) s c 0x0607 .ok []
      (fun t => t = s1) := by
  refine ⟨s1, ?_, rfl⟩
  rw [regWrite_run s c es _ hs ho rfl h1 h64, writeEntries_ok c es s s1 0 hd, settleAll_reply _ _ _ _ _ hg]

/-- The first refused entry of a REG_WRITE stops it with its index; the entries before it keep their effect (R377). -/
theorem regWrite_stops (s s1 : State) (c : Ctx) (pre post : List (Word × Word)) (e : Word × Word) (st : Status)
    (hs : s.registersServe c 0x0607) (ho : c.sess = sidebandSess → s.isOwner c = true) (h64 : pre.length + 1 + post.length ≤ 64)
    (hd : writesDone c pre s s1) (he : s1.writeEntry c e.1.toNat e.2 = .no st) (hg : s1.lesar.goDone = []) :
    answered (.regWrite c (beBytes 4 (pre.length + 1 + post.length) ++
      (pre ++ e :: post).flatMap (fun e => beBytes 4 e.1.toNat ++ beBytes 4 e.2.toNat))) s c 0x0607 st (beBytes 4 pre.length)
      (fun t => t = s1) := by
  have hn : pre.length + 1 + post.length = (pre ++ e :: post).length := by simp; omega
  refine ⟨s1, ?_, rfl⟩
  rw [regWrite_run s c _ _ hs ho hn (by omega) h64, writeEntries_no c e post st pre s s1 0 hd he, Nat.zero_add,
    settleAll_reply _ _ _ _ _ hg]

/-- Settles O26: the entries of a frame act one after the other from `readEntries_ok` and `writeEntries_ok` on, and a refused one stops them. -/
theorem registerFrames : Obligations.RegisterFrames := by
  refine ⟨regRead_answers, regRead_stops, regWrite_answers, regWrite_stops, entry_badAddress, ?_⟩
  intro s c b k off ho hk hoff h4 hocc
  obtain ⟨hclear, hkeep, hmem, hparts, hlesar⟩ := afterRead_spec s b k off
  exact ⟨_, readEntry_owner s c b k off ho hk hoff h4 hocc, hclear, hkeep, hmem, hparts, hlesar⟩

end Sys2Proof.Machine
end

section
/-!
PROOFS. One register written by the device owner: a register that a write alone sets, and the writes that do more or start an operation.
-/
namespace Sys2Proof.Machine

open Sys2Proof

/-! ## One entry of the device owner's -/

/-- The register at offset `off` of copy `k` of a block is one that the device owner writes over its stored value. -/
def Blk.ownerWritable (b : Blk) (k off : Nat) : Prop :=
  k < b.place.2.2 ∧ off < b.place.2.1 ∧ off % 4 = 0 ∧ b.fields off ≠ [] ∧ (b == .dev && off == 0x300) = false ∧ (b == .vlDev) = false

/-- The partition to which copy `k` of a block belongs, where it belongs to one, exists and is not being reset. -/
def State.partServes (s : State) (b : Blk) (k : Nat) : Prop := b.perPart = true → ∃ pt, s.part k = some pt ∧ pt.resetting = none

section OwnerEntry
variable {s : State} {c : Ctx} {b : Blk} {k off : Nat} {v : Word}
  (hw : s.ownerWrites c) (hb : b.ownerWritable k off) (hp : s.partServes b k)
include hw hb hp

theorem writeEntry_outOfRange {st : Status} (hr : s.outOfRange b k off (writtenWord (b.fields off) (s.reg b k off) v) = some st) :
    s.writeEntry c (b.at k off) v = .no st := by
  obtain ⟨hk, hoff, h4, hf, hd, hv⟩ := hb
  rw [writeEntry_owner s c b k off v hw.1 hk hoff h4 hp hf hd]
  simp only [hv, Bool.false_eq_true, if_false, hr]

theorem writeEntry_inRange (hr : s.outOfRange b k off (writtenWord (b.fields off) (s.reg b k off) v) = none) :
    s.writeEntry c (b.at k off) v = s.writeEffect b k off (s.reg b k off) (writtenWord (b.fields off) (s.reg b k off) v) v := by
  obtain ⟨hk, hoff, h4, hf, hd, hv⟩ := hb
  rw [writeEntry_owner s c b k off v hw.1 hk hoff h4 hp hf hd]
  simp only [hv, Bool.false_eq_true, if_false, hr]

omit hp in
/-- A refused entry changes nothing. -/
theorem regWriteOne_refused {st : Status} (he : s.writeEntry c (b.at k off) v = .no st) :
    s.regWriteOne c b k off v = .next (s.reply c 0x0607 st (beBytes 4 0)) := by
  rw [regWriteOne_eq s c b k off v hw.1 hw.2.1 hb.1 hb.2.1, he]
  exact congrArg _ (settleAll_reply _ _ _ _ _ hw.2.2)

/-- A write in range whose effect is done at once is answered OK. -/
theorem regWriteOne_done {t : State} (hr : s.outOfRange b k off (writtenWord (b.fields off) (s.reg b k off) v) = none)
    (he : s.writeEffect b k off (s.reg b k off) (writtenWord (b.fields off) (s.reg b k off) v) v = .done t)
    (hg : t.lesar.goDone = s.lesar.goDone) : s.regWriteOne c b k off v = .next (t.reply c 0x0607 .ok []) := by
  rw [regWriteOne_eq s c b k off v hw.1 hw.2.1 hb.1 hb.2.1, writeEntry_inRange hw hb hp hr, he]
  exact congrArg _ (settleAll_reply _ _ _ _ _ (hg.trans hw.2.2))

/-- A register that a write sets and nothing else (R8). -/
theorem storedRegister_answers {i : Instr} (hi : exec i s = s.regWriteOne c b k off v)
    (he : ∀ old w, s.writeEffect b k off old w v = .done (s.putReg b k off w)) :
    let w := writtenWord (b.fields off) (s.reg b k off) v
    (∀ st, s.outOfRange b k off w = some st → answered i s c 0x0607 st (beBytes 4 0) (fun t => t = s)) ∧
    (s.outOfRange b k off w = none → answered i s c 0x0607 .ok [] (fun t => t.reg b k off = w ∧ onlyReg s t (b.at k off))) :=
  ⟨fun _ hr => ⟨s, hi.trans (regWriteOne_refused hw hb (writeEntry_outOfRange hw hb hp hr)), rfl⟩,
    fun hr => ⟨_, hi.trans (regWriteOne_done hw hb hp hr (he _ _) rfl), State.reg_putReg_self _ _ _ _ _, onlyReg_putReg _ _ _ _ _⟩⟩

end OwnerEntry

/-- A field that a register stores whole is the field of the value written, whoever may write it. -/
theorem writtenWord_field (who : Who) (fs : List Fld) (old v : Word) (hi lo : Nat) (hh : hi < 32) (hf : ∀ f ∈ fs, f.lo ≤ f.hi ∧ f.hi < 32)
    (hm : (⟨hi, lo, .rw, who⟩ : Fld) ∈ fs) : (writtenWord fs old v).field hi lo = v.field hi lo := by
  refine field_congr _ _ _ _ (fun i h1 h2 => ?_)
  rw [writtenWord_bits _ _ _ (by omega) _ hf, if_pos]
  exact List.any_eq_true.mpr ⟨_, hm, by simp [h1, h2]⟩

/-! ## The registers that a write alone sets -/

theorem storedRegisters_answer (s : State) (c : Ctx) (i : Instr) (b : Blk) (k off : Nat) (v : Word) (hw : s.ownerWrites c)
    (hi : (i = .kvRingCtlWrite c k v ∧ b = .kv ∧ off = 0x10) ∨ (i = .strmCtlWrite c k v ∧ b = .strm ∧ off = 0) ∨
      (i = .lsReqLimitWrite c k v ∧ b = .req ∧ off = 0) ∨ (i = .lsReqCtlWrite c k v ∧ b = .req ∧ off = 4) ∨
      (i = .pgCtlWrite c v ∧ b = .pg ∧ k = 0 ∧ off = 4))
    (hk : k < 128) (hpt : b ≠ .pg → ∃ pt, s.part k = some pt ∧ pt.resetting = none) :
    let w := writtenWord (b.fields off) (s.reg b k off) v
    (∀ st, s.outOfRange b k off w = some st → answered i s c 0x0607 st (beBytes 4 0) (fun t => t = s)) ∧
    (s.outOfRange b k off w = none → answered i s c 0x0607 .ok [] (fun t => t.reg b k off = w ∧ onlyReg s t (b.at k off))) := by
  rcases hi with ⟨rfl, rfl, rfl⟩ | ⟨rfl, rfl, rfl⟩ | ⟨rfl, rfl, rfl⟩ | ⟨rfl, rfl, rfl⟩ | ⟨rfl, rfl, rfl, rfl⟩
  case inl | inr.inl | inr.inr.inl | inr.inr.inr.inl =>
    exact storedRegister_answers hw ⟨hk, by decide, by decide, by decide, rfl, rfl⟩ (fun _ => hpt (by decide)) rfl (fun _ _ => rfl)
  case inr.inr.inr.inr =>
    exact storedRegister_answers hw ⟨by decide, by decide, by decide, by decide, rfl, rfl⟩ (fun h => absurd h (by decide)) rfl
      (fun _ _ => rfl)

/-! ## GRAT_CTL and GZ_CTL -/

/-- Another reference tile clears the engine counters and stages the change (R114). -/
theorem gratCtlWrite_answers (s : State) (c : Ctx) (p : Nat) (v : Word) (pt : Part) (hw : s.ownerWrites c) (hp : p < 128)
    (hpt : s.part p = some pt) (hres : pt.resetting = none) (hq : pt.quads.contains (v.field 24 16 / 4) = true)
    (hne : v.field 24 16 ≠ (s.reg .grat p 0).field 24 16) :
    answered (.gratCtlWrite c p v) s c 0x0607 .ok [] (fun t =>
      t.reg .grat p 0 = writtenWord (Blk.fields .grat 0) (s.reg .grat p 0) v ∧ (∀ i, i < 10 → t.reg .grat p (0x14 + 4 * i) = 0#32) ∧
      t.part p = some { pt with staged := { pt.staged with grat := true } } ∧ (t.setRegs s.regs).setParts s.parts = s) := by
  generalize hword : writtenWord (Blk.fields .grat 0) (s.reg .grat p 0) v = w
  have hfield : w.field 24 16 = v.field 24 16 := hword ▸ writtenWord_field .client _ _ _ _ _ (by decide) (by decide) (by decide)
  have hrange : s.outOfRange .grat p 0 w = none := by
    simp only [State.outOfRange, hpt, Option.any_some, hfield, hq, if_true]
  obtain ⟨hframe, hctl, hcount⟩ := gratClear_spec (s.putReg .grat p 0 w) p
  have heffect : s.writeEffect .grat p 0 (s.reg .grat p 0) w v =
      .done (((List.range 10).foldl (fun s i => s.putReg .grat p (0x14 + 4 * i) 0) (s.putReg .grat p 0 w)).modPart p
        (fun pt => { pt with staged := { pt.staged with grat := true } })) := by
    simp only [State.writeEffect, hfield, if_neg hne.symm]
  generalize (List.range 10).foldl (fun s i => s.putReg .grat p (0x14 + 4 * i) 0) (s.putReg .grat p 0 w) = u at *
  have hu := congrArg (fun x : State => x.setRegs s.regs) hframe
  have hup : u.part p = some pt := (congrArg (fun x : State => x.part p) hu :).trans hpt
  have hug : u.lesar.goDone = s.lesar.goDone := (congrArg (fun x : State => x.lesar.goDone) hu :)
  subst hword
  have hrun := regWriteOne_done hw ⟨hp, by decide, by decide, by decide, rfl, rfl⟩ (fun _ => ⟨pt, hpt, hres⟩) hrange heffect hug
  refine ⟨_, hrun, ?_, hcount, part_of_modPart _ hup, ?_⟩
  · exact hctl.trans (State.reg_putReg_self _ _ _ _ _)
  · exact (congrArg (fun x : State => x.setParts s.parts) hu :)

/-- EN off is staged for the next meridian; EN on brings a gazetteer that is OFF to INIT where the model is up (R186, R190). -/
theorem gzCtlWrite_answers (s : State) (c : Ctx) (p : Nat) (v : Word) (pt : Part) (hw : s.ownerWrites c) (hp : p < 128)
    (hpt : s.part p = some pt) (hres : pt.resetting = none) :
    answered (.gzCtlWrite c p v) s c 0x0607 .ok [] (fun t =>
      t.reg .gz p 0 = writtenWord (Blk.fields .gz 0) (s.reg .gz p 0) v ∧
      (v.bit 31 = false → t.part p = some { pt with staged := { pt.staged with gzOff := true } }) ∧
      (v.bit 31 = true → pt.gzState = 0 → MState.up pt.mstate = true → pt.image.any Image.isFirst = true →
        t.part p = some { pt with staged := { pt.staged with gzOff := false }, gzState := 1 }) ∧ (t.setRegs s.regs).setParts s.parts = s) := by
  have hbit : (writtenWord (Blk.fields .gz 0) (s.reg .gz p 0) v).bit 31 = v.bit 31 := written_bit _ _ _ _ (by decide) (by decide) (by decide)
  have hrun := regWriteOne_done (v := v) hw (b := .gz) (k := p) (off := 0) ⟨hp, by decide, by decide, by decide, rfl, rfl⟩
    (fun _ => ⟨pt, hpt, hres⟩) rfl rfl rfl
  generalize writtenWord (Blk.fields .gz 0) (s.reg .gz p 0) v = w at hbit hrun ⊢
  have hpart : (s.putReg .gz p 0 w).part p = some pt := hpt
  refine ⟨_, hrun, State.reg_putReg_self _ _ _ _ _, fun hoff => ?_, fun hon hst hup hfirst => ?_, rfl⟩
  · rw [hbit, hoff, State.gzEnable, part_of_modPart _ hpart]; rfl
  · rw [hbit, hon, State.gzEnable, part_of_modPart _ hpart]; simp [hst, hup, hfirst]

/-! ## NT_PAUSE_CTL and TIER_LEND_OFFER -/

/-- The pause area takes its new size at once where none of it is in use, and else when it can (R262). -/
theorem ntPauseCtlWrite_answers (s : State) (c : Ctx) (v : Word) (hw : s.ownerWrites c) (h1 : v.field 10 0 ≤ 1200)
    (h2 : 3 * v.field 10 0 + 16 * (s.parts.map (fun e => e.2.nand.length)).sum ≤ 3600) :
    answered (.ntPauseCtlWrite c v) s c 0x0607 .ok [] (fun t =>
      (s.nand.pauseUsed = 0 → t.nand.pauseSize = v.field 10 0 ∧ t.nand.pauseWant = none) ∧
      (s.nand.pauseUsed ≠ 0 → t.nand.pauseSize = s.nand.pauseSize ∧
        t.nand.pauseWant = if v.field 10 0 = s.nand.pauseSize then none else some (v.field 10 0)) ∧ t.mem = s.mem ∧ t.parts = s.parts) := by
  generalize hword : writtenWord (Blk.fields .nt 4) (s.reg .nt 0 4) v = w
  have hfield : w.field 10 0 = v.field 10 0 := hword ▸ written_field _ _ _ _ _ (by decide) (by decide) (by decide)
  have hrange : s.outOfRange .nt 0 4 w = none := by
    simp only [State.outOfRange, hfield]
    rw [if_neg (by omega), if_neg (by omega)]
  have hb : Blk.nt.ownerWritable 0 4 := ⟨by decide, by decide, by decide, by decide, rfl, rfl⟩
  have hs : s.partServes .nt 0 := fun h => absurd h (by decide)
  have heffect : ∀ old, s.writeEffect .nt 0 4 old w v = .done (if s.nand.pauseUsed = 0
      then (s.putReg .nt 0 4 w).setNand { s.nand with pauseSize := v.field 10 0, pauseWant := none }
      else (s.putReg .nt 0 4 w).setNand { s.nand with
        pauseWant := if v.field 10 0 = s.nand.pauseSize then none else some (v.field 10 0) }) := by
    intro old
    rw [← hfield]; rfl
  subst hword
  by_cases hu : s.nand.pauseUsed = 0
  · simp only [if_pos hu] at heffect
    have hrun := regWriteOne_done hw hb hs hrange (heffect _) rfl
    exact ⟨_, hrun, fun _ => ⟨rfl, rfl⟩, fun h => absurd hu h, rfl, rfl⟩
  · simp only [if_neg hu] at heffect
    have hrun := regWriteOne_done hw hb hs hrange (heffect _) rfl
    exact ⟨_, hrun, fun h => absurd h hu, fun _ => ⟨rfl, rfl⟩, rfl, rfl⟩

/-- The extents of the loans not under notice, counted over all loans. -/
theorem unnoticed_sum (ls : List Lent) : ((ls.filter (fun l => !l.noticed)).map (fun l => l.extents.length)).sum =
    (ls.map (fun l => if l.noticed then 0 else l.extents.length)).sum := by
  induction ls with
  | nil => rfl
  | cons l ls ih => cases h : l.noticed <;> simp [h, ih]

/-- An offer that covers what is lent reclaims nothing. -/
theorem reclaim_covered (s : State) (offer : Nat)
    (h : (s.lender.loans.map (fun l => if l.noticed then 0 else l.extents.length)).sum ≤ offer) : s.reclaim offer = s := by
  simp only [State.reclaim, unnoticed_sum, Nat.sub_eq_zero_of_le h, toReclaim]
  simp [State.setLender]

theorem reclaim_lesar (s : State) (offer : Nat) : (s.reclaim offer).lesar = s.lesar := by
  show (List.foldl _ s _).lesar = s.lesar
  refine foldl_inv (fun t : State => t.lesar = s.lesar) _ (fun t e h => ?_) _ s rfl
  exact (congrArg State.lesar (sendMessage_frame t (e.1 / 2) .lent 0 (beBytes 1 0x42 ++ beBytes 1 e.1 ++ beBytes 2 e.2))).trans h

/-- A lower offer reclaims (R268). -/
theorem tierLendOfferWrite_answers (s : State) (c : Ctx) (v : Word) (hw : s.ownerWrites c) (h : v.field 9 0 ≤ s.freeExtents) :
    answered (.tierLendOfferWrite c v) s c 0x0607 .ok [] (fun t =>
      t = (s.putReg .tierDev 0 0 (writtenWord (Blk.fields .tierDev 0) (s.reg .tierDev 0 0) v)).reclaim (v.field 9 0)) := by
  have hfield : (writtenWord (Blk.fields .tierDev 0) (s.reg .tierDev 0 0) v).field 9 0 = v.field 9 0 :=
    written_field _ _ _ _ _ (by decide) (by decide) (by decide)
  have hrange : s.outOfRange .tierDev 0 0 (writtenWord (Blk.fields .tierDev 0) (s.reg .tierDev 0 0) v) = none := by
    simp only [State.outOfRange, hfield]
    exact if_neg (by omega)
  have hrun := regWriteOne_done hw ⟨by decide, by decide, by decide, by decide, rfl, rfl⟩ (fun h => absurd h (by decide)) hrange rfl
    (congrArg Lesar.goDone (reclaim_lesar _ _))
  exact ⟨_, hrun, by rw [hfield]⟩

/-- An offer that covers what is lent sets its register and nothing else. -/
theorem tierLendOfferWrite_covered (s : State) (c : Ctx) (v : Word) (hw : s.ownerWrites c) (h : v.field 9 0 ≤ s.freeExtents)
    (hc : (s.lender.loans.map (fun l => if l.noticed then 0 else l.extents.length)).sum ≤ v.field 9 0) :
    answered (.tierLendOfferWrite c v) s c 0x0607 .ok [] (fun t =>
      t.reg .tierDev 0 0 = writtenWord (Blk.fields .tierDev 0) (s.reg .tierDev 0 0) v ∧ t.lender = s.lender ∧
      onlyReg s t (Blk.tierDev.at 0 0)) := by
  obtain ⟨t, ht, rfl⟩ := tierLendOfferWrite_answers s c v hw h
  rw [reclaim_covered (s.putReg .tierDev 0 0 _) _ hc] at ht
  exact ⟨_, ht, State.reg_putReg_self _ _ _ _ _, rfl, onlyReg_putReg _ _ _ _ _⟩

/-! ## TBL_LOAD_CTL -/

/-- A GO of TBL_LOAD_CTL starts the load, and its frame waits (R88, R92, R482). -/
theorem tblLoad_starts (s : State) (c : Ctx) (p : Nat) (v : Word) (pt : Part) (bs : Bytes) (hw : s.ownerWrites c) (hp : p < 128)
    (hpt : s.part p = some pt) (hres : pt.resetting = none) (hgo : v.bit 31 = true) :
    let w := writtenWord (Blk.fields .tbl 0x0C) (s.reg .tbl p 0x0C) v
    let d := s.reg .tbl p 0x08
    let op : LoadOp := ⟨d.field 17 16, d.field 15 8, d.field 5 0, w.field 5 0, w.field 29 28, w.bit 30, if w.bit 27 then some (w.field 22 16) else none⟩
    let src := (s.reg .tbl p 0x00).field 31 9 * 512 + (s.reg .tbl p 0x04).field 5 0 * 2 ^ 32
    LoadOp.ok op = true → op.quad.all (fun q => pt.quads.contains q) = true → s.shareRead pt src (512 * op.rows) = some bs →
    src + 512 * op.rows ≤ pt.shareBytes → s.dram.bad = [] → s.dram.failed = [] → pt.load = none → pt.loadQ = [] →
    pt.copying.getD op.kind false = false → namesActive op.bank (pt.activeBank op.kind) = false →
    completes (.tblLoad c p v) s (fun t => t.part p = some { pt with load := some ⟨op, bs, none⟩ } ∧ waitsFor s t c 1 p ∧
      t.reg .tbl p 0x0C = w ∧ ((t.setRegs s.regs).setParts s.parts).setLesar s.lesar = s ∧ ∀ q, q ≠ p → t.part q = s.part q) := by
  intro w d op src hok hquad hread hlen hbad hfail hload hloadQ hcopy hact
  have hstart : (s.putReg .tbl p 0x0C w).startTableLoad p w = .waits ((s.putReg .tbl p 0x0C w).addLoad p ⟨op, bs, none⟩) 1 p :=
    startTableLoad_run (s.putReg .tbl p 0x0C w) p w pt bs hpt op src (by rw [reg_putReg_ne _ _ _ _ (by decide)])
      (by rw [reg_putReg_ne _ _ _ _ (by decide), reg_putReg_ne _ _ _ _ (by decide)]) hok hquad hread hlen hbad hfail
  have hentry := (writeEntry_ownerPart s c .tbl p 0x0C v pt hw hp (by decide) (by decide) hpt hres (by decide) rfl rfl rfl).trans
    ((writeEffect_tblGo s p _ w v hgo).trans hstart)
  obtain ⟨hpart, honly⟩ := addLoad_start (s.putReg .tbl p 0x0C w) p pt ⟨op, bs, none⟩ hpt hload hloadQ hcopy hact
  have hregs : ((s.putReg .tbl p 0x0C w).addLoad p ⟨op, bs, none⟩).regs = (s.putReg .tbl p 0x0C w).regs :=
    (congrArg State.regs honly.1 :)
  have hlesar : ((s.putReg .tbl p 0x0C w).addLoad p ⟨op, bs, none⟩).lesar = s.lesar := (congrArg State.lesar honly.1 :)
  have hrun := go_waits s _ c .tbl p 0x0C 1 p v hw hp (by decide) hentry hlesar
  refine ⟨_, hrun, hpart, rfl, ?_, ?_, honly.2⟩
  · show State.reg (State.addLoad _ _ _) .tbl p 0x0C = w
    rw [State.reg, State.rawReg, hregs]
    exact State.reg_putReg_self s .tbl p 0x0C w
  · exact go_frame s _ .tbl p 0x0C w _ honly

/-- The end of a load that a GO started answers its frame OK (R92, R482). -/
theorem tableLoadComplete_answers (s : State) (p : Nat) (pt : Part) (j : LoadJob) (w : RegWait) (hpt : s.part p = some pt)
    (hload : pt.load = some j) (hbay : j.bay = none) (hloadQ : pt.loadQ = []) (hg : s.lesar.goDone = [])
    (hfind : s.lesar.regWaits.find? (fun w => w.what == 1 && w.part == p) = some w) (hrest : w.rest = []) :
    completes (.tableLoadComplete p) s (fun t => ∃ u : State, t = (u.reply w.ctx 0x0607 .ok []).pump p ∧
      u.lesar.regWaits = s.lesar.regWaits.erase w ∧
      u.part p = some { pt with load := none, swapStaged := if j.op.swap then pt.swapStaged.set j.op.kind true else pt.swapStaged }) := by
  obtain ⟨hpart, hlesar⟩ := finishLoad_go s p pt j hpt hbay hg
  have hexec : exec (.tableLoadComplete p) s = .next ((((s.finishLoad p j).pumpLoads p 64)).settleAll.pump p) := by
    show execTableLoadComplete p s = _
    simp [execTableLoadComplete, hpt, hload]
  have hsettled := settle_one (s.finishLoad p j) 1 p .ok w (by rw [hlesar]) (by rw [hlesar]; exact hfind) hrest
  rw [pumpLoads_idle _ _ _ _ hpart hloadQ, hsettled] at hexec
  refine ⟨_, hexec, _, rfl, ?_, hpart⟩
  show (s.finishLoad p j).lesar.regWaits.erase w = _
  rw [hlesar]

/-! ## KV_BMP_CTL -/

/-- A GO of KV_BMP_CTL during the copy after a swap waits for it, and else stores the bits in the shadow half at once (R173, R189). -/
theorem bitmapLoad_runs (s : State) (c : Ctx) (p : Nat) (v : Word) (pt : Part) (bs : Bytes) (u : State) (hw : s.ownerWrites c) (hp : p < 128)
    (hpt : s.part p = some pt) (hres : pt.resetting = none) (hgo : v.bit 31 = true)
    (hfree : ∀ w ∈ s.lesar.regWaits, ¬ (w.what = 2 ∧ w.part = p)) :
    let w := writtenWord (Blk.fields .kv 0x1C) (s.reg .kv p 0x1C) v
    let src := (s.reg .kv p 0x14).field 31 11 * 2048 + (s.reg .kv p 0x18).field 5 0 * 2 ^ 32
    let n := w.field 6 0
    w.field 29 28 ≠ 1 → 1 ≤ n → n ≤ 64 → w.field 25 16 + n ≤ 1024 → src + 2048 * n ≤ pt.shareBytes → s.dram.bad = [] → s.dram.failed = [] →
    s.shareRead pt src (2048 * n) = some bs →
    (pt.bmpCopying = true → completes (.bitmapLoad c p v) s (fun t =>
      t.part p = some { pt with bmpQ := pt.bmpQ ++ [(w.field 29 28, w.field 25 16, bs)] } ∧ waitsFor s t c 2 p ∧
      ((t.setRegs s.regs).setParts s.parts).setLesar s.lesar = s)) ∧
    (pt.bmpCopying = false → namesActive (w.field 29 28) (pt.activeBank 2) = false →
      s.shareWrite pt (pt.layout.bitmap + (1 - pt.activeBank 2) * bitmapHalf + 2048 * w.field 25 16) bs = some u →
      answered (.bitmapLoad c p v) s c 0x0607 .ok [] (fun t => t.mem = u.mem ∧ t.reg .kv p 0x1C = w ∧ onlyReg u t (Blk.kv.at p 0x1C))) := by
  intro w src n hbank h1 h64 hend hlen hbad hfail hread
  have hstart := startBitmap_ok (s.putReg .kv p 0x1C w) p w pt bs src hpt
    (by rw [reg_putReg_ne _ _ _ _ (by decide), reg_putReg_ne _ _ _ _ (by decide)]) hbank h1 h64 hend hlen hbad hfail hread
  have hentry := (writeEntry_ownerPart s c .kv p 0x1C v pt hw hp (by decide) (by decide) hpt hres (by decide) rfl rfl rfl).trans
    ((writeEffect_bmpGo s p _ w v hgo).trans hstart)
  constructor
  · intro hcopy
    rw [if_pos hcopy] at hentry
    have hrun := go_waits s _ c .kv p 0x1C 2 p v hw hp (by decide) hentry rfl
    have hpart := part_of_modPart (s := s.putReg .kv p 0x1C w)
      (fun v => { v with bmpQ := v.bmpQ ++ [(w.field 29 28, w.field 25 16, bs)] }) hpt
    exact ⟨_, hrun, hpart, rfl, go_frame s _ .kv p 0x1C w _ (onlyPart_modPart _ _ _)⟩
  · intro hcopy hact hwrite
    have hstore : (s.putReg .kv p 0x1C w).runBitmap p pt (w.field 29 28, w.field 25 16, bs) =
        (u.setRegs (s.putReg .kv p 0x1C w).regs, .ok) := by
      have h := shareWrite_setRegs s (s.putReg .kv p 0x1C w).regs pt
        (pt.layout.bitmap + (1 - pt.activeBank 2) * bitmapHalf + 2048 * w.field 25 16) bs hbad hfail
      rw [hwrite] at h
      simp only [State.runBitmap, hact, Bool.false_eq_true, if_false, State.shareStore]
      exact congrArg (fun x : Option State => (x.getD _, Status.ok)) h
    rw [hcopy, if_neg Bool.false_ne_true, hstore] at hentry
    obtain ⟨rs, hu⟩ := shareWrite_clean hwrite hbad hfail
    have hrun := go_ends s _ c .kv p 0x1C 2 p v .ok hw hp (by decide) hentry (by rw [hu]; rfl) hfree
    refine ⟨_, hrun, rfl, State.reg_putReg_self s .kv p 0x1C w, rfl, fun a ha => ?_⟩
    rw [hu]
    exact State.rawReg_putReg_ne s .kv p 0x1C w ha

/-- The end of the copy: the shadow half holds what the active half holds (R173). -/
theorem bitmapCopyComplete_runs (s : State) (p : Nat) (pt : Part) (bs : Bytes) (u : State) (hpt : s.part p = some pt)
    (hcopy : pt.bmpCopying = true) (hq : pt.bmpQ = []) (hg : s.lesar.goDone = [])
    (hread : s.shareRead pt (pt.layout.bitmap + pt.activeBank 2 * bitmapHalf) bitmapHalf = some bs)
    (hwrite : s.shareWrite pt (pt.layout.bitmap + (1 - pt.activeBank 2) * bitmapHalf) bs = some u) :
    completes (.bitmapCopyComplete p) s (fun t => t.part p = some { pt with bmpCopying := false, bmpQ := [] } ∧ t.mem = u.mem ∧
      onlyPart u t p) := by
  have hframe := shareWrite_frame hwrite
  have hup : u.part p = some pt := (congrArg (fun x : State => x.part p) hframe).trans hpt
  have hug : u.lesar.goDone = [] := (congrArg (fun x : State => x.lesar.goDone) hframe).trans hg
  have hcopied : s.copyBitmaps p = u := by simp [State.copyBitmaps, hpt, hread, State.shareStore, hwrite]
  refine ⟨u.modPart p (fun v => { v with bmpCopying := false, bmpQ := [] }), ?_, part_of_modPart _ hup, rfl, onlyPart_modPart _ _ _⟩
  show execBitmapCopyComplete p s = _
  simp only [execBitmapCopyComplete, hpt, hcopy, require, if_true, hcopied, hq, State.runBitmaps, List.foldl_nil]
  exact congrArg _ (settleAll_idle _ hug)

/-! ## DEV_TILE_RST -/

/-- A GO of DEV_TILE_RST resets an idle tile and is refused for any other (R433). -/
theorem tileBlockReset_answers (s : State) (c : Ctx) (v : Word) (hw : s.ownerWrites c) (hgo : v.bit 31 = true) :
    let t := v.field 8 0
    ((s.tileIdle t = true ∧ ∀ p pt, s.ownerOf t = some p → s.part p = some pt → pt.resetting = none) →
      answered (.tileBlockReset c v) s c 0x0607 .ok [] (fun u =>
        (let x := s.tile t
         u.tile t = { Tile.cleared with tables := x.tables, bad := x.bad, scrubPtr := x.scrubPtr, bound := x.bound }) ∧
        (u.setRegs s.regs).setTiles s.tiles = s ∧ ∀ x, x ≠ t → u.tile x = s.tile x)) ∧
    (s.tileIdle t = false → answered (.tileBlockReset c v) s c 0x0607 .notPermitted (beBytes 4 0) (fun u => u = s)) := by
  intro t
  generalize hword : writtenWord (Blk.fields .dev 0x104) (s.reg .dev 0 0x104) v = w
  have hfield : w.field 8 0 = t := hword ▸ written_field _ _ _ _ _ (by decide) (by decide) (by decide)
  have hb : Blk.dev.ownerWritable 0 0x104 := ⟨by decide, by decide, by decide, by decide, rfl, rfl⟩
  have hs : s.partServes .dev 0 := fun h => absurd h (by decide)
  have heffect : s.writeEffect .dev 0 0x104 (s.reg .dev 0 0x104) w v =
      if !s.tileIdle t || ((s.ownerOf t).bind s.part).any (·.resetting.isSome) then .no .notPermitted
      else .done ((s.putReg .dev 0 0x104 w).modTile t Tile.blockReset) := by
    simp only [State.writeEffect, hgo, if_true, State.startTileReset, hfield]
    rfl
  constructor
  · rintro ⟨hidle, howner⟩
    have hreset : ((s.ownerOf t).bind s.part).any (·.resetting.isSome) = false := by
      rw [Option.any_eq_false_iff_get]
      intro h
      obtain ⟨p, h1, h2⟩ := Option.bind_eq_some_iff.mp (Option.some_get h).symm
      rw [howner p _ h1 h2]; rfl
    rw [hidle, hreset] at heffect
    subst hword
    have hrun := regWriteOne_done hw hb hs rfl heffect rfl
    exact ⟨_, hrun, State.tile_modTile_self _ _ _, rfl, fun x hx => State.tile_modTile_ne _ _ hx⟩
  · intro hbusy
    rw [hbusy] at heffect
    subst hword
    exact ⟨s, regWriteOne_refused hw hb ((writeEntry_inRange hw hb hs rfl).trans heffect), rfl⟩

/-- Settles O27, register by register: each clause is the lemma above about its write or about the completion of what it started. -/
theorem registerRowsAct : Obligations.RegisterRowsAct :=
  ⟨fun s c i b k off v ho hs hg hi hk hpt => storedRegisters_answer s c i b k off v ⟨ho, hs, hg⟩ hi hk hpt,
    fun fs old v i hi hf => writtenWord_bits old v i hi fs hf,
    fun s c p v pt ho hs hg hp hpt hres =>
      ⟨gratCtlWrite_answers s c p v pt ⟨ho, hs, hg⟩ hp hpt hres, gzCtlWrite_answers s c p v pt ⟨ho, hs, hg⟩ hp hpt hres⟩,
    fun s c v ho hs hg => ⟨ntPauseCtlWrite_answers s c v ⟨ho, hs, hg⟩, tierLendOfferWrite_answers s c v ⟨ho, hs, hg⟩,
      tierLendOfferWrite_covered s c v ⟨ho, hs, hg⟩⟩,
    tblLoad_starts, tableLoadComplete_answers, bitmapLoad_runs, bitmapCopyComplete_runs, tileBlockReset_answers⟩

end Sys2Proof.Machine
end

section
/-!
PROOFS. Meridians: the step that a meridian closes and the one that it opens.
-/
namespace Sys2Proof.Machine

open Sys2Proof

/-! ## A meridian of a partition with an image -/

/-- The clock at an instant that has not passed. -/
theorem at_now {s : State} {n : Nat} (h : s.now ≤ n) : (s.at n).now = n := Nat.max_eq_right h

/-- A meridian that no reset waits for opens the next step of the image that the partition then has (R19, R20). -/
theorem meridianAt_opensStep (s : State) (p n : Nat) (pt : Part) (im : Image) (target : Option Nat) (conf : Option (List Nat))
    (hp : s.part p = some pt) (hi : pt.image = some im) (hf : s.dev.fwHalted = false) (hr : pt.staged.reset = none) (hn : s.now = n) :
    opensStep (s.meridianAt p target conf).settleAll p n ((target.getD (s.merCount p + 1)) % 2 ^ 32) := by
  obtain ⟨v, hnow, hpart, hstep⟩ := meridianAt_here s p n pt im target conf hp hi hf hr hn
  exact ⟨_, v, rfl, hnow, hpart, hstep⟩

section Opening
variable {s : State} {p now : Nat} {pt : Part} {im : Image} (hp : s.part p = some pt) (hi : pt.image = some im)
  (hf : s.dev.fwHalted = false) (hr : pt.staged.reset = none) (hn : s.now ≤ now)
include hp hi hf hr hn

theorem meridian_opens (hc : pt.mayClose = true) (hw : pt.idleStep = false) (ht : pt.stepsTogether = false) :
    completes (.meridian p now) s (fun t => opensStep t p now ((s.merCount p + 1) % 2 ^ 32)) := by
  refine ⟨_, ?_, meridianAt_opensStep (s.at now) p now pt im none pt.ownSettings hp hi hf hr (at_now hn)⟩
  show execMeridian p now s = _
  simp [execMeridian, hp, hc, hw, ht, require]

theorem emptyStep_opens (hm : now % 1000000 = 0) (hw : pt.idleStep = true) (hT : pt.pipeT = none) (ht : pt.stepsTogether = false)
    (hres : pt.resetting = none) : completes (.emptyStep p now) s (fun t => opensStep t p now ((s.merCount p + 1) % 2 ^ 32)) := by
  refine ⟨_, ?_, meridianAt_opensStep (s.at now) p now pt im none pt.ownSettings hp hi hf hr (at_now hn)⟩
  show execEmptyStep p now s = _
  simp [execEmptyStep, hp, hm, hn, hw, hT, ht, hres, require]

theorem pipelineMeridian_opens {t0 count : Nat} {conf : List Nat} (hT : pt.pipeT = some (t0, count, conf)) (h0 : t0 ≤ now)
    (hc : pt.mayClose = true ∨ pt.idleStep = true) (hcount : count < 2 ^ 32) :
    completes (.pipelineMeridian p now) s (fun t => opensStep t p now count) := by
  let v : Part := { pt with pipeT := none, pipeDone := none, joined := pt.whole }
  have hv : ((s.at now).modPart p (fun pt => { pt with pipeT := none, pipeDone := none, joined := pt.whole })).part p = some v :=
    part_of_modPart _ hp
  have hopen := meridianAt_opensStep _ p now v im (some count) (some conf) hv hi hf hr (at_now hn)
  rw [Option.getD_some, Nat.mod_eq_of_lt hcount] at hopen
  refine ⟨_, ?_, hopen⟩
  show execPipelineMeridian p now s = _
  rcases hc with hc | hc <;> simp [execPipelineMeridian, hp, hT, h0, hc, require]

end Opening

/-- A partition without an image after its meridian: the banks of its tables switched, an empty step, no context. -/
def Part.bareStep (v : StepSt) (pt : Part) : Part := { Part.swapTables pt with step := some v, lastEmpty := true, ctxs := [] }

theorem bareStep_staged (v : StepSt) (pt : Part) : (pt.bareStep v).staged = pt.staged :=
  foldl_inv (fun w : Part => w.staged = pt.staged) _ (fun w k h => by split <;> exact h) (List.range 3) pt rfl

theorem bareMeridian_eq (s : State) (p count : Nat) : s.bareMeridian p count =
    (((((s.resizeItem p).surveyItem p).loanItem p).modPart p
      (Part.bareStep (StepSt.opened s.now count 0 [] 0))).gzOffItem p).gratItem p 0 := rfl

/-! ## The items of a meridian that have nothing to do -/

section NothingStaged
variable {s : State} {p : Nat} {pt : Part} (hp : s.part p = some pt)
include hp

theorem endForNotice_none (h : pt.staged.endAll = none) : s.endForNotice p = s := by
  simp [State.endForNotice, hp, h]

theorem resizeItem_none (h : pt.staged.resize = none) : s.resizeItem p = s := by
  simp [State.resizeItem, hp, h]

theorem surveyItem_none (ht : pt.staged.takeOut = []) (hb : pt.staged.putBack = []) :
    onlyPart s (s.surveyItem p) p ∧ (s.surveyItem p).part p = some pt := by
  have heq : s.surveyItem p = (s.setSurvey { s.survey with out := s.survey.out ++ [] }).modPart p
      (fun pt => { pt with staged := { pt.staged with takeOut := [], putBack := [] } }) := by
    simp only [State.surveyItem, hp, ht, hb, List.map_nil, List.foldl_nil]
  rw [List.append_nil] at heq
  rw [heq]
  refine ⟨onlyPart_modPart s p _, (part_of_modPart _ hp).trans ?_⟩
  rw [← ht, ← hb]

theorem loanItem_none (h : pt.loans = []) : onlyPart s (s.loanItem p) p ∧ (s.loanItem p).part p = some pt := by
  have heq : s.loanItem p = s.modPart p (fun pt => { pt with loans := pt.loans.map (fun l => { l with active := true }) }) := by
    simp only [State.loanItem, hp, h, List.filter_nil, List.foldl_nil]
  rw [heq]
  refine ⟨onlyPart_modPart s p _, (part_of_modPart _ hp).trans ?_⟩
  rw [h, List.map_nil, ← h]

theorem gzOffItem_none (h : pt.staged.gzOff = false) : s.gzOffItem p = s := by
  simp [State.gzOffItem, hp, h]

/-- The graticule shows its codes in one register, and its setting is no longer staged (R102). -/
theorem gratItem_spec (kind : Nat) : let t := s.gratItem p kind
    (t.setParts s.parts).setRegs s.regs = s ∧ (∀ q, q ≠ p → t.part q = s.part q) ∧
      t.part p = some { pt with staged := { pt.staged with grat := false } } ∧ ∀ a, a ≠ Blk.grat.at p 0x04 → t.rawReg a = s.rawReg a := by
  unfold State.gratItem
  rw [hp]
  exact ⟨rfl, fun q hq => State.part_modPart_ne _ _ hq, part_of_modPart _ hp, fun a ha => State.rawReg_putReg_ne s _ _ _ _ ha⟩

/-- Where nothing is staged and nothing lent, the meridian of a partition without an image opens an empty step and shows the graticule. -/
theorem bareMeridian_spec (count : Nat) (hg : pt.staged = Staged.none) (hl : pt.loans = []) : let t := s.bareMeridian p count
    (t.setParts s.parts).setRegs s.regs = s ∧ (∀ q, q ≠ p → t.part q = s.part q) ∧
      (t.part p).map (·.step) = some (some (StepSt.opened s.now count 0 [] 0)) ∧
      ∀ a, a ≠ Blk.grat.at p 0x04 → t.rawReg a = s.rawReg a := by
  obtain ⟨hsurvey, hp1⟩ := surveyItem_none hp (by rw [hg]; rfl) (by rw [hg]; rfl)
  obtain ⟨hloan, hp2⟩ := loanItem_none hp1 hl
  have hitems := onlyPart_trans hsurvey hloan
  rw [bareMeridian_eq, resizeItem_none hp (by rw [hg]; rfl)]
  generalize (s.surveyItem p).loanItem p = s2 at hitems hp2 ⊢
  have hp3 := part_of_modPart (Part.bareStep (StepSt.opened s.now count 0 [] 0)) hp2
  have hall := onlyPart_trans hitems (onlyPart_modPart s2 p (Part.bareStep (StepSt.opened s.now count 0 [] 0)))
  have hoff : (pt.bareStep (StepSt.opened s.now count 0 [] 0)).staged.gzOff = false := by
    rw [bareStep_staged, hg]; rfl
  rw [gzOffItem_none hp3 hoff]
  generalize s2.modPart p (Part.bareStep (StepSt.opened s.now count 0 [] 0)) = s3 at hp3 hall ⊢
  obtain ⟨hframe, hother, hpart, hreg⟩ := gratItem_spec hp3 0
  have hregs : s3.regs = s.regs := (congrArg (fun x : State => x.regs) hall.1 :)
  refine ⟨?_, fun q hq => (hother q hq).trans (hall.2 q hq), by rw [hpart]; rfl, fun a ha => (hreg a ha).trans ?_⟩
  · rw [← hregs]
    exact (congrArg (fun x : State => x.setParts s.parts) hframe :).trans hall.1
  · unfold State.rawReg
    rw [hregs]

end NothingStaged

/-! ## A meridian of a partition without an image -/

/-- The length of the step that a meridian closes, in its register (R20). -/
def State.lengthShown (s : State) (p : Nat) : Option StepSt → State
  | some v => s.putReg .mer p 0x08 (BitVec.ofNat 32 (min 0xFFFFFFFF (s.now - v.openedAt)))
  | none => s

theorem lengthShown_frame (s : State) (p : Nat) (o : Option StepSt) : (s.lengthShown p o).setRegs s.regs = s := by
  cases o <;> rfl

/-- The count and the length that a meridian shows, and the limits of requests that the next step goes by (R19, R20, R219). -/
def State.countStep (s : State) (p : Nat) (old : Part) (count : Nat) : State :=
  ((s.lengthShown p old.step).putReg .mer p 0 (BitVec.ofNat 32 count)).modPart p
    (fun pt => { pt with reqLimit := s.reg .req p 0, reqCtl := s.reg .req p 4 })

theorem countStep_spec (s : State) (p : Nat) (old : Part) (count : Nat) (hp : s.part p = some old) : let t := s.countStep p old count
    (t.setParts s.parts).setRegs s.regs = s ∧ (∀ q, q ≠ p → t.part q = s.part q) ∧
      t.part p = some { old with reqLimit := s.reg .req p 0, reqCtl := s.reg .req p 4 } ∧ t.reg .mer p 0 = BitVec.ofNat 32 count ∧
      ∀ v, old.step = some v → t.reg .mer p 0x08 = BitVec.ofNat 32 (min 0xFFFFFFFF (s.now - v.openedAt)) := by
  have hframe := lengthShown_frame s p old.step
  have hlen : ∀ v, old.step = some v → (s.lengthShown p old.step).reg .mer p 0x08 = BitVec.ofNat 32 (min 0xFFFFFFFF (s.now - v.openedAt)) := by
    intro v hv
    rw [hv]
    exact State.reg_putReg_self _ _ _ _ _
  unfold State.countStep
  generalize s.lengthShown p old.step = u at hframe hlen ⊢
  have hpart : ∀ q, u.part q = s.part q := fun q => (congrArg (fun x : State => x.part q) hframe :)
  exact ⟨(congrArg (fun x : State => x.setParts s.parts) hframe :), fun q hq => (State.part_modPart_ne _ _ hq).trans (hpart q),
    part_of_modPart _ ((hpart p).trans hp), State.reg_putReg_self _ _ _ _ _,
    fun v hv => (State.rawReg_putReg_ne _ _ _ _ _ (Blk.at_ne (by decide))).trans (hlen v hv)⟩

/-- What a meridian of an idle partition without an image and without staged settings leads to: its count and the length of its last step in their
registers, and an empty step. -/
theorem meridianAt_bare (s : State) (p : Nat) (pt : Part) (conf : Option (List Nat)) (hp : s.part p = some pt) (hi : pt.image = none)
    (hf : s.dev.fwHalted = false) (hg : pt.staged = Staged.none) (hl : pt.loans = []) (hp128 : p < 128) : let t := s.meridianAt p none conf
    t.reg .mer p 0 = BitVec.ofNat 32 (s.merCount p + 1) ∧
      (∀ v, pt.step = some v → t.reg .mer p 0x08 = BitVec.ofNat 32 (min 0xFFFFFFFF (s.now - v.openedAt))) ∧
      (t.part p).map (·.step) = some (some (StepSt.opened s.now ((s.merCount p + 1) % 2 ^ 32) 0 [] 0)) ∧
      (∀ q, q ≠ p → t.part q = s.part q) ∧ (t.setParts s.parts).setRegs s.regs = s := by
  have hmer : s.meridianAt p none conf =
      ((s.countStep p pt ((s.merCount p + 1) % 2 ^ 32)).endForNotice p).bareMeridian p ((s.merCount p + 1) % 2 ^ 32) := by
    have hreset : pt.staged.reset.isSome = false := by rw [hg]; rfl
    simp only [State.meridianAt, hf, hp, hreset, hi, Bool.false_eq_true, if_false]
    rfl
  rw [hmer]
  obtain ⟨hframe, hother, hp1, hcount, hlen⟩ := countStep_spec s p pt ((s.merCount p + 1) % 2 ^ 32) hp
  generalize s.countStep p pt ((s.merCount p + 1) % 2 ^ 32) = s1 at hframe hother hp1 hcount hlen ⊢
  have hnow : s1.now = s.now := (congrArg (fun x : State => x.now) hframe :)
  rw [endForNotice_none hp1 (by show pt.staged.endAll = none; rw [hg]; rfl)]
  obtain ⟨hframe2, hother2, hstep, hreg⟩ := bareMeridian_spec hp1 ((s.merCount p + 1) % 2 ^ 32) hg hl
  generalize s1.bareMeridian p ((s.merCount p + 1) % 2 ^ 32) = t at hframe2 hother2 hstep hreg ⊢
  have haway : ∀ off, off < 0x20 → Blk.mer.at p off ≠ Blk.grat.at p 0x04 := by
    intro off hoff
    simp only [Blk.at, Blk.place]
    omega
  refine ⟨(hreg _ (haway 0 (by decide))).trans (hcount.trans ?_), fun v hv => (hreg _ (haway 8 (by decide))).trans (hlen v hv), ?_,
    fun q hq => (hother2 q hq).trans (hother q hq), ?_⟩
  · exact BitVec.eq_of_toNat_eq (by simp)
  · rw [hstep, hnow]
  · exact (congrArg (fun x : State => (x.setParts s.parts).setRegs s.regs) hframe2 :).trans hframe

/-- An idle partition without an image and without staged settings opens an empty step at a whole millisecond (R19). -/
theorem emptyStep_bare (s : State) (p now : Nat) (pt : Part) (hp : s.part p = some pt) (hi : pt.image = none) (hf : s.dev.fwHalted = false)
    (hg : pt.staged = Staged.none) (hl : pt.loans = []) (hp128 : p < 128) (hn : s.now ≤ now) (hm : now % 1000000 = 0)
    (hw : pt.idleStep = true) (hT : pt.pipeT = none) (hres : pt.resetting = none) (hgo : s.lesar.goDone = []) :
    completes (.emptyStep p now) s (fun t => t.reg .mer p 0 = BitVec.ofNat 32 (s.merCount p + 1) ∧
      (∀ v, pt.step = some v → t.reg .mer p 0x08 = BitVec.ofNat 32 (min 0xFFFFFFFF (now - v.openedAt))) ∧
      (t.part p).map (·.step) = some (some (StepSt.opened now ((s.merCount p + 1) % 2 ^ 32) 0 [] 0)) ∧
      (∀ q, q ≠ p → t.part q = s.part q) ∧ ((t.setParts s.parts).setRegs s.regs).setNow s.now = s) := by
  obtain ⟨hcount, hlen, hstep, hother, hframe⟩ := meridianAt_bare (s.at now) p pt pt.ownSettings hp hi hf hg hl hp128
  have hidle : ((s.at now).meridianAt p none pt.ownSettings).lesar.goDone = [] :=
    (congrArg (fun x : State => x.lesar.goDone) hframe :).trans hgo
  have hrun : exec (.emptyStep p now) s = .next ((s.at now).meridianAt p none pt.ownSettings) := by
    show execEmptyStep p now s = _
    simp [execEmptyStep, hp, hm, hn, hw, hT, hres, Part.stepsTogether, hi, require, settleAll_idle _ hidle]
  rw [at_now hn] at hlen hstep
  exact ⟨_, hrun, hcount, hlen, hstep, hother, (congrArg (fun x : State => x.setNow s.now) hframe :)⟩

/-- Settles O9: `meridianAt_opensStep` for the three meridians of a partition with an image, `meridianAt_bare` for one without. -/
theorem meridiansOpenSteps : Obligations.MeridiansOpenSteps :=
  ⟨fun _ _ _ _ _ hp hi hf hr hn hc hw ht => meridian_opens hp hi hf hr hn hc hw ht,
    fun _ _ _ _ _ hp hi hf hr hn hm hw hT ht hres => emptyStep_opens hp hi hf hr hn hm hw hT ht hres,
    fun _ _ _ _ _ _ _ _ hp hi hf hr hn hT h0 hc hcount => pipelineMeridian_opens hp hi hf hr hn hT h0 hc hcount,
    fun s p now pt hp hi hf hg hl hp128 hn hm hw hT hres hgo => emptyStep_bare s p now pt hp hi hf hg hl hp128 hn hm hw hT hres hgo⟩
end Sys2Proof.Machine
end

section
/-!
PROOFS. The stages of a pipeline that step together, and the replay of a step that has failed.
-/
namespace Sys2Proof.Machine

open Sys2Proof

/-! ## DONE and T (R24, R296) -/

/-- A stage hands DONE on: it has finished, the others can step, and the stage after it has handed its own (log entry 94). -/
def State.handsDone (s : State) (p : Nat) (pt : Part) (im : Image) (got : Option Nat) : Bool :=
  (pt.mayClose || pt.idleStep) && s.pipelineUp pt im && (im.isLast || if pt.joined then got == some (s.merCount p) else got.isSome)

theorem handsDone_iff (s : State) (p : Nat) (pt : Part) (im : Image) (got : Option Nat) : s.handsDone p pt im got = true ↔
    (pt.mayClose = true ∨ pt.idleStep = true) ∧ s.pipelineUp pt im = true ∧
      (im.isLast = true ∨ (pt.joined = true ∧ got = some (s.merCount p)) ∨ (pt.joined = false ∧ got ≠ none)) := by
  unfold State.handsDone
  cases pt.joined <;> simp [and_assoc, Option.isSome_iff_ne_none]

/-- What DONE leads to: the first stage chooses T, a later one hands DONE on, where the stage may not yet it waits. -/
theorem exec_pipelineDone (s : State) (p : Nat) (pt : Part) (im : Image) (fromNext : Option Nat) (hp : s.part p = some pt)
    (hi : pt.image = some im) (h2 : 2 ≤ im.stages) (hn : fromNext = none ∨ im.isLast = false)
    (hc : fromNext = none → (pt.mayClose = true ∨ pt.idleStep = true)) :
    let got := if fromNext = none then pt.pipeDone else fromNext
    let s1 := s.modPart p (fun v => { v with pipeDone := got })
    let t := s.now + (im.stages - 1) * 150 + 200
    let count := (s.merCount p + 1) % 2 ^ 32
    let conf := pt.confirmedFor im count
    exec (.pipelineDone p fromNext) s = .next (if s.handsDone p pt im got = true then
      if im.isFirst = true then
        (s1.modPart p (fun v => { v with pipeT := some (t, count, conf) })).sendMessage 0 .management p (tMessage p t count conf)
      else s1.sendMessage 1 .management p (beBytes 1 0x11 ++ beBytes 1 p ++ beBytes 4 (s.merCount p))
    else s1) := by
  have hmay : (decide (2 ≤ im.stages) && (fromNext.isNone || !im.isLast) && (fromNext.isSome || pt.mayClose || pt.idleStep)) = true := by
    cases fromNext with
    | none => rcases hc rfl with h | h <;> simp [h2, h]
    | some c => simp [h2, hn.resolve_left (by simp)]
  have hnot : ∀ got, (!(pt.mayClose || pt.idleStep) || !s.pipelineUp pt im ||
      !(im.isLast || (if pt.joined then got == some (s.merCount p) else got.isSome))) = !s.handsDone p pt im got := by
    intro got
    simp only [State.handsDone, Bool.not_and]
  intro got s1 t count conf
  show execPipelineDone p fromNext s = _
  have hrun : execPipelineDone p fromNext s = (if (!s.handsDone p pt im got) = true then .next s1 else if im.isFirst = true then
      .next ((s1.modPart p (fun v => { v with pipeT := some (t, count, conf) })).sendMessage 0 .management p (tMessage p t count conf))
      else .next (s1.sendMessage 1 .management p (beBytes 1 0x11 ++ beBytes 1 p ++ beBytes 4 (s.merCount p)))) := by
    unfold execPipelineDone
    simp only [hp, hi, require, hmay, if_true, hnot]
    cases fromNext <;> rfl
  rw [hrun]
  cases s.handsDone p pt im got <;> cases im.isFirst <;> rfl

/-- DONE at a stage that hands it on, and at one that does not yet (R24, R296; log entry 94). -/
theorem pipelineDone_answers (s : State) (p : Nat) (pt : Part) (im : Image) (fromNext : Option Nat) (hp : s.part p = some pt)
    (hi : pt.image = some im) (h2 : 2 ≤ im.stages) (hn : fromNext = none ∨ im.isLast = false)
    (hc : fromNext = none → (pt.mayClose = true ∨ pt.idleStep = true)) :
    let got := if fromNext = none then pt.pipeDone else fromNext
    let done := (pt.mayClose = true ∨ pt.idleStep = true) ∧ s.pipelineUp pt im = true ∧
      (im.isLast = true ∨ (pt.joined = true ∧ got = some (s.merCount p)) ∨ (pt.joined = false ∧ got ≠ none))
    let s1 := s.modPart p (fun v => { v with pipeDone := got })
    (¬ done → exec (.pipelineDone p fromNext) s = .next s1) ∧
    (done → im.isFirst = false →
      exec (.pipelineDone p fromNext) s = .next (s1.sendMessage 1 .management p (beBytes 1 0x11 ++ beBytes 1 p ++ beBytes 4 (s.merCount p)))) ∧
    (done → im.isFirst = true →
      let t := s.now + (im.stages - 1) * 150 + 200
      let count := (s.merCount p + 1) % 2 ^ 32
      completes (.pipelineDone p fromNext) s (fun u => (u.part p).map (·.pipeT) = some (some (t, count, pt.confirmedFor im count)) ∧
        u = (s1.modPart p (fun v => { v with pipeT := some (t, count, pt.confirmedFor im count) })).sendMessage 0 .management p
          (tMessage p t count (pt.confirmedFor im count)))) := by
  intro got done s1
  have hrun := exec_pipelineDone s p pt im fromNext hp hi h2 hn hc
  have hdone : s.handsDone p pt im got = true ↔ done := handsDone_iff s p pt im got
  refine ⟨fun h => ?_, fun h hf => ?_, fun h hf => ⟨_, ?_, ?_, rfl⟩⟩
  · exact hrun.trans (congrArg _ (if_neg (fun hd => h (hdone.mp hd))))
  · exact hrun.trans (congrArg _ ((if_pos (hdone.mpr h)).trans (if_neg (by simp [hf]))))
  · exact hrun.trans (congrArg _ ((if_pos (hdone.mpr h)).trans (if_pos hf)))
  · rw [part_of_veolo (sendMessage_frame _ _ _ _ _), part_of_modPart _ (part_of_modPart _ hp)]
    rfl

/-- A later stage takes T and hands it on, the last one keeps it (R296). -/
theorem pipelineTMessage_takes (s : State) (p t count : Nat) (conf : List Nat) (pt : Part) (im : Image) (hp : s.part p = some pt)
    (hi : pt.image = some im) (h2 : 2 ≤ im.stages) (hf : im.isFirst = false) (hcount : count < 2 ^ 32) :
    let s1 := s.modPart p (fun v => { v with pipeT := some (t, count, conf) })
    completes (.pipelineTMessage p t count conf) s (fun u => (u.part p).map (·.pipeT) = some (some (t, count, conf)) ∧
      (im.isLast = true → u = s1) ∧ (im.isLast = false → u = s1.sendMessage 0 .management p (tMessage p t count conf))) := by
  intro s1
  have hp1 : s1.part p = some { pt with pipeT := some (t, count, conf) } := part_of_modPart _ hp
  have hrun : exec (.pipelineTMessage p t count conf) s =
      .next (if im.isLast then s1 else s1.sendMessage 0 .management p (tMessage p t count conf)) := by
    show execPipelineTMessage p t count conf s = _
    simp only [execPipelineTMessage, hp, hi, h2, hf, require, Nat.mod_eq_of_lt hcount]
    rfl
  refine ⟨_, hrun, ?_, fun hl => if_pos hl, fun hl => if_neg (by simp [hl])⟩
  split
  · rw [hp1]; rfl
  · rw [part_of_veolo (sendMessage_frame _ _ _ _ _), hp1]; rfl

/-! ## What the stages exchange (R25, R164, R228) -/

/-- The first stage keeps every report of an accepted setting (R25). -/
theorem targetAcceptReport_kept (s : State) (p stage handle target : Nat) (pt : Part) (im : Image) (hp : s.part p = some pt)
    (hi : pt.image = some im) (hf : im.isFirst = true) (hs : stage < im.stages) :
    completes (.targetAcceptReport p stage handle target) s (fun u =>
      u.part p = some { pt with accepted := pt.accepted ++ [(stage, handle, target)] } ∧ onlyPart s u p) := by
  refine ⟨s.modPart p (fun pt => { pt with accepted := pt.accepted ++ [(stage, handle, target)] }), ?_, part_of_modPart _ hp,
    onlyPart_modPart s p _⟩
  show execTargetAcceptReport p stage handle target s = _
  simp [execTargetAcceptReport, hp, hi, hf, hs, require]

/-- A later stage keeps the decisions for their meridian and hands them on (R164). -/
theorem stepDecisions_kept (s : State) (p count : Nat) (block : List Word) (ds : List Decision) (pt : Part) (im : Image)
    (hp : s.part p = some pt) (hi : pt.image = some im) (hf : im.isFirst = false) :
    completes (.stepDecisions p count block ds) s (fun u => (u.part p).map (·.decisions) = some (pt.decisions ++ [(count, block, ds)]) ∧
      (u.setVeolo s.veolo).setParts s.parts = s ∧ ∀ q, q ≠ p → u.part q = s.part q) := by
  obtain ⟨hframe, hparts⟩ := takeMessage_spec s p .activation
  have hrun : exec (.stepDecisions p count block ds) s =
      .next (let s1 := (s.takeMessage p .activation).1.modPart p (fun pt => { pt with decisions := pt.decisions ++ [(count, block, ds)] })
        if im.isLast then s1 else s1.sendDecisions p count block ds) := by
    show execStepDecisions p count block ds s = _
    simp only [execStepDecisions, hp, hi, hf, require]
    rfl
  generalize (s.takeMessage p .activation).1 = w at hframe hparts hrun
  have hp1 := part_of_modPart (fun pt : Part => { pt with decisions := pt.decisions ++ [(count, block, ds)] }) ((hparts p).trans hp)
  have hframe1 : (((w.modPart p (fun pt => { pt with decisions := pt.decisions ++ [(count, block, ds)] })).setVeolo s.veolo).setParts s.parts) = s :=
    (congrArg (fun x : State => x.setParts s.parts) hframe :)
  have hother : ∀ q, q ≠ p → (w.modPart p (fun pt => { pt with decisions := pt.decisions ++ [(count, block, ds)] })).part q = s.part q :=
    fun q hq => (State.part_modPart_ne _ _ hq).trans (hparts q)
  refine ⟨_, hrun, ?_⟩
  generalize w.modPart p (fun pt => { pt with decisions := pt.decisions ++ [(count, block, ds)] }) = s1 at hp1 hframe1 hother ⊢
  have hsent : (s1.sendDecisions p count block ds).setVeolo s1.veolo = s1 := sendMessage_frame _ _ _ _ _
  show (State.part (if im.isLast then s1 else _) p).map _ = _ ∧ _
  split
  · exact ⟨by rw [hp1]; rfl, hframe1, hother⟩
  · refine ⟨by rw [part_of_veolo hsent, hp1]; rfl, ?_, fun q hq => (part_of_veolo hsent q).trans (hother q hq)⟩
    exact (congrArg (fun x : State => (x.setVeolo s.veolo).setParts s.parts) hsent :).trans hframe1

/-- A token comes to the first stage, and a later stage sends it there (R228). -/
theorem tokenReturn_brings (s : State) (p handle beam token : Nat) (pt : Part) (hp : s.part p = some pt) :
    completes (.tokenReturn p handle beam token) s (fun u => (u.setVeolo s.veolo).setParts s.parts = s ∧ (∀ q, q ≠ p → u.part q = s.part q) ∧
      ((pt.image.map Image.isFirst).getD true = true → u.part p = some { pt with seqs := pt.seqs.map (fun q =>
        if q.handle == handle && q.beam == beam && q.inStep then { q with sampled := some token } else q) }) ∧
      ((pt.image.map Image.isFirst).getD true = false → u.part p = some pt)) := by
  obtain ⟨hframe, hparts⟩ := takeMessage_spec s p .collective
  refine ⟨(s.takeMessage p .collective).1.bringToken p handle beam token, ?_, ?_⟩
  · show execTokenReturn p handle beam token s = _
    simp only [execTokenReturn, hp]
  generalize (s.takeMessage p .collective).1 = w at hframe hparts ⊢
  have hpw : w.part p = some pt := (hparts p).trans hp
  unfold State.bringToken
  rw [hpw]
  dsimp only
  cases (pt.image.map Image.isFirst).getD true with
  | true =>
    exact ⟨(congrArg (fun x : State => x.setParts s.parts) hframe :), fun q hq => (State.part_modPart_ne _ _ hq).trans (hparts q),
      fun _ => part_of_modPart _ hpw, fun h => absurd h (by decide)⟩
  | false =>
    have hsent := sendTo_frame w (w.stageDev 0) .collective p
      (beBytes 1 0x30 ++ beBytes 1 p ++ beBytes 4 handle ++ beBytes 2 beam ++ beBytes 4 token)
    refine ⟨?_, fun q _ => (part_of_veolo hsent q).trans (hparts q), fun h => absurd h (by decide), fun _ => (part_of_veolo hsent p).trans hpw⟩
    exact (congrArg (fun x : State => (x.setVeolo s.veolo).setParts s.parts) hsent :).trans (congrArg (fun x : State => x.setParts s.parts) hframe :)

/-! ## Replay (R131, R260, R453, R454) -/

/-- The replay of a step that has failed (R453, R454). -/
theorem stepReplay_runs (s : State) (p : Nat) (pt : Part) (im : Image) (v : StepSt) (hp : s.part p = some pt) (hi : pt.image = some im)
    (hv : pt.step = some v) (hfail : v.failed ≠ none) (hr : v.repair = false) (ha : v.attempts < 3) :
    completes (.stepReplay p) s (fun t => t.part p = some { pt with
        step := some { v with failed := none, finished := false, attempts := v.attempts + 1 },
        ctxs := pt.atEntry im v.kind, seqs := pt.seqs.map (fun q => { q with sampled := none }) } ∧
      (t.reg .sv 0 0x48).toNat = min 0xFFFFFFFF ((s.reg .sv 0 0x48).toNat + 1) ∧
      (t.setParts s.parts).setRegs s.regs = s ∧ ∀ q, q ≠ p → t.part q = s.part q) := by
  refine ⟨(s.bump .sv 0 0x48 1).modPart p (fun pt =>
      { pt with step := some { v with failed := none, finished := false, attempts := v.attempts + 1 }, ctxs := pt.atEntry im v.kind,
                seqs := pt.seqs.map (fun q => { q with sampled := none }) }), ?_, part_of_modPart _ hp, State.reg_bump_self _ _ _ _ _, rfl,
    fun q hq => State.part_modPart_ne _ _ hq⟩
  have hfailed : v.failed.isSome = true := Option.isSome_iff_ne_none.mpr hfail
  show execStepReplay p s = _
  simp only [execStepReplay, hp, hi, hv, hfailed, hr, ha, require]
  rfl

/-- The model of partition `p` has stopped at LOADED: no step, no drain, no swap that runs. -/
def modelStopped (p : Nat) (t : State) : Prop := ∃ w, t.part p = some w ∧ w.step = none ∧ w.mstate = .loaded ∧ w.draining = none ∧
  ∀ x, w.swap = some x → x.active = false

/-- A model that is stopped for a weight pod stands at LOADED, whatever it was doing (R131). -/
theorem failModel_stops (s : State) (p : Nat) (hp : (s.part p).isSome = true) : modelStopped p (s.failModel p) := by
  have hkeep : Ok (keepHere s.now p) (s.failModel p) := State.failModel_keep _ s p ⟨rfl, hp⟩
  obtain ⟨-, hhere⟩ := hkeep
  unfold State.failModel at hhere ⊢
  dsimp only at hhere ⊢
  rw [State.part_modPart_self, Option.isSome_map] at hhere
  obtain ⟨w, hw⟩ := Option.isSome_iff_exists.mp hhere
  refine ⟨_, part_of_modPart _ hw, rfl, rfl, rfl, ?_⟩
  intro x hx
  obtain ⟨y, -, rfl⟩ := Option.map_eq_some_iff.mp hx
  rfl

/-- A tensor written to the share changes no memory but the LPDDR5X. -/
theorem storeTensor_mem (s : State) (pt : Part) (sh : Bytes) (d : DirEntry) (off : Nat) :
    (s.storeTensor pt sh d off).mem = { s.mem with dram := (s.storeTensor pt sh d off).mem.dram } := by
  have hstore : ∀ (u : State) (off : Nat) (bs : Bytes), u.mem = { s.mem with dram := u.mem.dram } →
      (u.shareStore pt off bs).mem = { s.mem with dram := (u.shareStore pt off bs).mem.dram } := by
    intro u off bs hu
    rw [(shareStore_frame u pt off bs).2, hu]
  unfold State.storeTensor
  split
  · exact hstore _ _ _ (foldl_inv (fun u : State => u.mem = { s.mem with dram := u.mem.dram }) _ (fun u i hu => hstore u _ _ hu) _ s rfl)
  · exact hstore s _ _ rfl

theorem loadTensors_mem (s : State) (pt : Part) (im : Image) :
    (s.loadTensors pt im).mem = { s.mem with dram := (s.loadTensors pt im).mem.dram } := by
  have hfold := foldl_inv (fun u : State => u.mem = { s.mem with dram := u.mem.dram })
    (fun (u : State) (e : DirEntry × Nat) => u.storeTensor pt (pt.plainShard (pt.imageOf im e.1)) e.1 e.2)
    (fun u e hu => by rw [storeTensor_mem, hu]) (pt.standing im) s rfl
  unfold State.loadTensors
  exact hfold

section Reload
variable {s : State} {p : Nat} {pt : Part} {im : Image} {v : StepSt} (hp : s.part p = some pt) (hi : pt.image = some im)
  (hv : pt.step = some v) (hfail : v.failed ≠ none) (hr : v.repair = true)
include hp hi hv hfail hr

/-- Where a weight pod fails again the model stops (R131). -/
theorem exec_weightReloadComplete_fault {e : PodFault} (he : pt.loadFault im = some e) :
    exec (.weightReloadComplete p true) s = .next ((s.countPodFault p 0 3 e).failModel p) := by
  have hfailed : v.failed.isSome = true := Option.isSome_iff_ne_none.mpr hfail
  show execWeightReloadComplete p true s = _
  simp only [execWeightReloadComplete, hp, hi, hv, hfailed, hr, he, require]
  rfl

/-- The weights stand again as their shard has them (R131). -/
theorem exec_weightReloadComplete_good (hl : pt.loadFault im = none) : exec (.weightReloadComplete p true) s =
    .next ((s.modPart p (fun pt => { pt with step := some { v with repair := false } })).loadTensors pt im) := by
  have hfailed : v.failed.isSome = true := Option.isSome_iff_ne_none.mpr hfail
  show execWeightReloadComplete p true s = _
  simp only [execWeightReloadComplete, hp, hi, hv, hfailed, hr, hl, require]
  rfl

/-- Where no source can give the data, a weight pod stops the model and other data end the sequences of the step (R131, R260). -/
theorem exec_weightReloadComplete_lost : exec (.weightReloadComplete p false) s =
    if v.failed = some .decodeFault then .next ((s.bump .pod p 0x04 1).failModel p)
    else .next ((s.modPart p (fun pt => { pt with step := some { v with repair := false } })).endWork p
      (pt.seqs.filter (·.inStep) |>.map (·.handle)).eraseDups .tierFailed) := by
  have hfailed : v.failed.isSome = true := Option.isSome_iff_ne_none.mpr hfail
  show execWeightReloadComplete p false s = _
  simp only [execWeightReloadComplete, hp, hi, hv, hfailed, hr, require]
  rfl

theorem weightReloadComplete_answers :
    let s1 := s.modPart p (fun pt => { pt with step := some { v with repair := false } })
    (pt.loadFault im = none → completes (.weightReloadComplete p true) s (fun t => t = s1.loadTensors pt im ∧
      t.part p = some { pt with step := some { v with repair := false } } ∧
      ((t.setMem s1.mem).setDram s1.dram).setRegs s1.regs = s1 ∧ t.mem = { s.mem with dram := t.mem.dram })) ∧
    (pt.loadFault im ≠ none → completes (.weightReloadComplete p true) s (modelStopped p)) ∧
    (v.failed = some .decodeFault → completes (.weightReloadComplete p false) s (modelStopped p)) ∧
    (v.failed ≠ some .decodeFault → completes (.weightReloadComplete p false) s (fun t =>
      t = s1.endWork p (pt.seqs.filter (·.inStep) |>.map (·.handle)).eraseDups .tierFailed)) := by
  intro s1
  have hhere : (s.part p).isSome = true := by rw [hp]; rfl
  have hlost := exec_weightReloadComplete_lost hp hi hv hfail hr
  have hs1 : s1.part p = some { pt with step := some { v with repair := false } } := part_of_modPart _ hp
  refine ⟨fun hl => ?_, fun hl => ?_, fun hd => ⟨_, hlost.trans (if_pos hd), failModel_stops _ p hhere⟩,
    fun hd => ⟨_, hlost.trans (if_neg hd), rfl⟩⟩
  · have hmem := loadTensors_mem s1 pt im
    have hshare := loadTensors_only s1 pt im
    refine ⟨s1.loadTensors pt im, exec_weightReloadComplete_good hp hi hv hfail hr hl, ?_⟩
    generalize s1.loadTensors pt im = t at hmem hshare
    exact ⟨rfl, (shareOnly_part hshare p).trans hs1, hshare, hmem⟩
  · obtain ⟨e, he⟩ := Option.ne_none_iff_exists'.mp hl
    refine ⟨_, exec_weightReloadComplete_fault hp hi hv hfail hr he, failModel_stops _ p ?_⟩
    unfold State.countPodFault State.recordFirst
    split <;> exact hhere

end Reload

/-- Settles O10: one lemma above for each command that the stages of a pipeline and a replay take. -/
theorem pipelinesStepAndReplay : Obligations.PipelinesStepAndReplay :=
  ⟨fun s p pt im fromNext hp hi h2 hn hc => pipelineDone_answers s p pt im fromNext hp hi h2 hn hc,
    fun s p t count conf pt im hp hi h2 hf hcount => pipelineTMessage_takes s p t count conf pt im hp hi h2 hf hcount,
    fun s p stage handle target pt im hp hi hf hs => targetAcceptReport_kept s p stage handle target pt im hp hi hf hs,
    fun s p count block ds pt im hp hi hf => stepDecisions_kept s p count block ds pt im hp hi hf,
    fun s p handle beam token pt hp => tokenReturn_brings s p handle beam token pt hp,
    fun s p pt im v hp hi hv hfail hr ha _ => stepReplay_runs s p pt im v hp hi hv hfail hr ha,
    fun _ _ _ _ _ hp hi hv hfail hr => weightReloadComplete_answers hp hi hv hfail hr⟩

end Sys2Proof.Machine
end

section
/-!
PROOFS. KERNEL_LAUNCH and KERNEL_END: the launch queue of a tile, its residencies and its crews.
-/
namespace Sys2Proof.Machine

open Sys2Proof

/-! ## The tile of a kernel that starts -/

/-- A tile with a kernel resident on some crews, every lane of them active (R81). -/
def Tile.launched (op : LaunchOp) (cs : List Nat) (v : Tile) : Tile :=
  { v with kernels := NMap.insert v.kernels v.nextKernel { crews := cs, entry := op.entry, args := op.args, body := op.body },
           nextKernel := v.nextKernel + 1,
           crews := cs.foldl (fun m c => NMap.insert m c { v.crew c with
             kernel := v.nextKernel, active := 0xFFFFFFFFFFFFFFFF#64, paths := [], loops := [] }) v.crews }

theorem launched_kernel (op : LaunchOp) (cs : List Nat) (v : Tile) : NMap.find (v.launched op cs).kernels v.nextKernel =
    some { crews := cs, entry := op.entry, args := op.args, body := op.body } := NMap.find_insert_self _ _ _

theorem launched_kernel_ne (op : LaunchOp) (cs : List Nat) (v : Tile) {k : Nat} (h : k ≠ v.nextKernel) :
    NMap.find (v.launched op cs).kernels k = NMap.find v.kernels k := NMap.find_insert_ne _ _ h

theorem launched_crew (op : LaunchOp) (cs : List Nat) (v : Tile) (c : Nat) : (v.launched op cs).crew c =
    if c ∈ cs then { v.crew c with kernel := v.nextKernel, active := 0xFFFFFFFFFFFFFFFF#64, paths := [], loops := [] } else v.crew c := by
  have hfind : NMap.find (v.launched op cs).crews c = _ := foldl_insert_find (fun c => ({ v.crew c with
    kernel := v.nextKernel, active := 0xFFFFFFFFFFFFFFFF#64, paths := [], loops := [] } : Crew)) cs v.crews c
  unfold Tile.crew NMap.get
  rw [hfind]
  split <;> rfl

/-- A kernel whose coefficient ROM reads well starts on the lowest free crews, and its body runs from there. -/
theorem startKernel_eq (s : State) (t : Nat) (op : LaunchOp) (hr : op.rom = false) : s.startKernel t op =
    (s.modTile t (Tile.launched op ((s.tile t).freeCrews.take op.crews))).runBody (s.owner t) t op.args op.body := by
  unfold State.startKernel
  rw [hr]
  rfl

/-! ## The launch queue -/

section Launch
variable {s : State} {t n entry : Nat} {args : List Word} {body : KernelBody} (hn : 1 ≤ n) (hn32 : n ≤ 32) (ha : args.length ≤ 16)
  (hb : KernelBody.ok body = true) (hk : (s.tile t).holdsKernel entry n args.length body.kind = true)
include hn hn32 ha hb hk

/-- A launch that the tile holds a kernel for reaches its tile's queue, or waits in its context. -/
theorem exec_kernelLaunch (env : List Strike) (hw : s.tileWorks t = true) : exec (.kernelLaunch t n entry args body env) s =
    s.issue (s.owner t) (bayOf t) (.kernelLaunch t n entry args body env) (s.launchWaits t)
      (s.doLaunch t (launchOp t n entry args body env) env) := by
  show execKernelLaunch t n entry args body env s = _
  simp only [execKernelLaunch, hw, hn, hn32, ha, hb, hk, require]
  rfl

/-- With 16 launches in the queue the instruction waits (R83). -/
theorem kernelLaunch_waits (env : List Strike) (hw : s.tileWorks t = true) (hq : 16 ≤ (s.tile t).launchQ.length) :
    exec (.kernelLaunch t n entry args body env) s = .next (s.hold (s.owner t) (bayOf t) (.kernelLaunch t n entry args body env)) :=
  (exec_kernelLaunch hn hn32 ha hb hk env hw).trans (issue_waits _ _ _ _ _ _ (.inr (decide_eq_true hq)))

/-- A launch that finds the queue empty is worked off from there. -/
theorem kernelLaunch_queues (hc : s.tileClear t) (hq : (s.tile t).launchQ = []) : exec (.kernelLaunch t n entry args body []) s =
    .next ((s.modTile t (fun v => { v with launchQ := v.launchQ ++ [launchOp t n entry args body []] })).pumpLaunch t 1) := by
  obtain ⟨hw, -, hfail, hwait⟩ := hc
  rw [exec_kernelLaunch hn hn32 ha hb hk [] hw, issue_runs _ _ _ _ _ _ hwait (by simp [State.launchWaits, hq])]
  have hdo : s.doLaunch t (launchOp t n entry args body []) [] =
      (s.modTile t (fun v => { v with launchQ := v.launchQ ++ [launchOp t n entry args body []] })).goLaunch t :=
    if_neg (by rw [State.strike_nil, State.pathErrors_nil, hfail]; decide)
  rw [hdo]
  unfold State.goLaunch
  rw [State.tile_modTile_self, hq]
  rfl

/-- With a residency and enough crews free the kernel is resident on the lowest free crews, and its body runs (R81). -/
theorem kernelLaunch_starts (hc : s.tileClear t) (hq : (s.tile t).launchQ = []) (hcan : (s.tile t).canLaunch n = true) :
    ∃ s1, exec (.kernelLaunch t n entry args body []) s = .next (s1.runBody (s.owner t) t args body) ∧ onlyTile s s1 t ∧
      s1.tile t = (s.tile t).launched (launchOp t n entry args body []) ((s.tile t).freeCrews.take n) := by
  let op := launchOp t n entry args body []
  let s0 := (s.modTile t (fun v => { v with launchQ := v.launchQ ++ [op] })).modTile t (fun v => { v with launchQ := [] })
  have h0 : s0.tile t = s.tile t := by
    rw [State.tile_modTile_self, State.tile_modTile_self, ← hq]
  have hpump : (s.modTile t (fun v => { v with launchQ := v.launchQ ++ [op] })).pumpLaunch t 1 = s0.startKernel t op := by
    have hfront : ((s.modTile t (fun v => { v with launchQ := v.launchQ ++ [op] })).tile t).launchQ = [op] := by
      rw [State.tile_modTile_self, hq]; rfl
    have hroom : ((s.modTile t (fun v => { v with launchQ := v.launchQ ++ [op] })).tile t).canLaunch op.crews = true := by
      rw [State.tile_modTile_self]; exact hcan
    unfold State.pumpLaunch
    simp only [hfront, hroom, if_true]
    rfl
  refine ⟨s0.modTile t (Tile.launched op ((s0.tile t).freeCrews.take op.crews)), ?_, ?_, ?_⟩
  · rw [kernelLaunch_queues hn hn32 ha hb hk hc hq, hpump, startKernel_eq s0 t op rfl]
    rfl
  · exact onlyTile_trans (onlyTile_trans (onlyTile_modTile _ _ _) (onlyTile_modTile _ _ _)) (onlyTile_modTile _ _ _)
  · rw [State.tile_modTile_self, h0]
    rfl

/-- Without room the launch stands in the tile's queue (R81). -/
theorem kernelLaunch_stands (hc : s.tileClear t) (hq : (s.tile t).launchQ = []) (hcan : (s.tile t).canLaunch n = false) :
    completes (.kernelLaunch t n entry args body []) s (fun s' =>
      (s'.tile t) = { s.tile t with launchQ := [launchOp t n entry args body []] } ∧ onlyTile s s' t) := by
  refine ⟨_, kernelLaunch_queues hn hn32 ha hb hk hc hq, ?_⟩
  have hroom : ((s.modTile t (fun v => { v with launchQ := v.launchQ ++ [launchOp t n entry args body []] })).tile t).canLaunch n = false := by
    rw [State.tile_modTile_self]; exact hcan
  have hstands : (s.modTile t (fun v => { v with launchQ := v.launchQ ++ [launchOp t n entry args body []] })).pumpLaunch t 1 =
      s.modTile t (fun v => { v with launchQ := v.launchQ ++ [launchOp t n entry args body []] }) := by
    unfold State.pumpLaunch
    split
    · rfl
    · next op q h =>
      rw [State.tile_modTile_self, hq] at h
      obtain ⟨rfl, -⟩ := List.cons.inj h
      exact if_neg (by rw [show (launchOp t n entry args body []).crews = n from rfl, hroom]; decide)
  rw [hstands]
  exact ⟨by rw [State.tile_modTile_self, hq]; rfl, onlyTile_modTile _ _ _⟩

end Launch

/-- KERNEL_END frees the residency and with it the crews; then launches and instructions that wait go on (R81). -/
theorem kernelEnd_frees (s : State) (t k : Nat) (hk : (NMap.find (s.tile t).kernels k).isSome = true) :
    completes (.kernelEnd t k) s (fun s' => ∃ u, s' = (u.goLaunch t).pump (s.owner t) ∧ NMap.find (u.tile t).kernels k = none ∧
      (∀ j, j ≠ k → NMap.find (u.tile t).kernels j = NMap.find (s.tile t).kernels j) ∧
      ({ u.tile t with kernels := (s.tile t).kernels } : Tile) = s.tile t ∧ onlyTile s u t) := by
  have hrun : exec (.kernelEnd t k) s = .next ((s.endKernel t k).pump (s.owner t)) := if_pos hk
  refine ⟨_, hrun, _, rfl, ?_, fun j hj => ?_, ?_, onlyTile_modTile _ _ _⟩ <;> rw [State.tile_modTile_self]
  · exact NMap.find_erase_self _ _
  · exact NMap.find_erase_ne _ hj

/-- Settles O16: a launch starts, stands or waits by what its tile has free, and the end of a kernel frees what it held. -/
theorem kernelsLaunchAndEnd : Obligations.KernelsLaunchAndEnd := by
  refine ⟨fun s t n entry args body hc hn hn32 ha hb hk hq hcan => ?_,
    fun s t n entry args body hc hn hn32 ha hb hk hq hcan => kernelLaunch_stands hn hn32 ha hb hk hc hq hcan,
    fun s t n entry args body env hw hn hn32 ha hb hk hq => ⟨_, kernelLaunch_waits hn hn32 ha hb hk env hw hq, rfl⟩, kernelEnd_frees⟩
  obtain ⟨s1, hrun, honly, htile⟩ := kernelLaunch_starts hn hn32 ha hb hk hc hq hcan
  refine ⟨s1, hrun, honly, ?_, ?_, fun c hin => ?_, fun c hout => ?_⟩
  all_goals rw [htile]
  · exact launched_kernel _ _ _
  · exact fun k hne => launched_kernel_ne _ _ _ hne
  · rw [launched_crew, if_pos hin]
    exact ⟨rfl, rfl⟩
  · rw [launched_crew, if_neg hout]

end Sys2Proof.Machine
end

section
/-!
PROOFS. LINK_SEND and LINK_RECEIVE: the rows that leave and those that a message fills.
-/
namespace Sys2Proof.Machine

open Sys2Proof

/-! ## LINK_SEND -/

/-- A partition whose step has sent rows: what narrowing has saturated and met of NaNs is counted, the largest magnitude kept (R57 to R59). -/
def Part.linkSent (n : NarrowCount) (am : Word) (pt : Part) : Part :=
  { pt with step := pt.step.map (fun v => { v with sat := v.sat + n.1, nan := v.nan + n.2, amax := maxF32 v.amax am }) }

theorem linkSent_frame (n : NarrowCount) (am : Word) (pt : Part) : ({ pt.linkSent n am with step := pt.step } : Part) = pt := rfl

theorem linkSent_counts (n : NarrowCount) (am : Word) (pt : Part) :
    (pt.linkSent n am).step.map (fun v => (v.sat, v.nan)) = pt.step.map (fun v => (v.sat + n.1, v.nan + n.2)) := by
  show (pt.step.map _).map _ = _
  rw [Option.map_map]
  rfl

section Send
variable {s : State} {t dir row count width : Nat} {cls : LClass} {fp32 : Bool} (hc : s.tileClear t)
include hc

/-- Rows of the ring and collective classes leave as they stand. -/
theorem doLinkSend_rows (hcls : cls ≠ .activation) : ∃ am, s.doLinkSend t cls dir row count width fp32 [] =
    (s.linkTo dir cls (s.owner t) (s.rows t row count)).modPart (s.owner t) (Part.linkSent (0, 0) am) := by
  obtain ⟨-, hbad, hfail, -⟩ := hc
  unfold State.doLinkSend
  simp only [State.strike_nil, State.pathErrors_nil, hfail, linkRows, if_neg hcls, Nat.mul_one, State.engineRows_clean s _ t _ _ hbad]
  exact ⟨_, rfl⟩

/-- Tokens of the activation class leave as the boundary narrows them (R57, R58). -/
theorem doLinkSend_tokens :
    let ctl := s.reg .narrow (s.owner t) 0
    let per := tokenRows width fp32
    let m := narrowTokens (ctl.field 1 0) (ctl.field 12 8) (s.reg .narrow (s.owner t) 0x04) width fp32
      ((List.range count).map (fun i => slice (s.rows t row (count * per)) (512 * per * i) (512 * per)))
    ∃ am, s.doLinkSend t .activation dir row count width fp32 [] =
      (s.linkTo dir .activation (s.owner t) m.1).modPart (s.owner t) (Part.linkSent m.2 am) := by
  obtain ⟨-, hbad, hfail, -⟩ := hc
  unfold State.doLinkSend
  simp only [State.strike_nil, State.pathErrors_nil, hfail, linkRows, if_true, State.engineRows_clean s _ t _ _ hbad]
  exact ⟨_, rfl⟩

/-- A send whose rows lie in the scratchpad and that names a neighbour or a member of the ring issues. -/
theorem exec_linkSend (hcls : cls = .activation ∨ cls = .ring ∨ cls = .collective)
    (hdir : dir < 4 ∨ cls ≠ .activation ∧ dir - 4 < (s.ringOf (s.owner t)).length) (h1 : 1 ≤ count) (hw : 1 ≤ width)
    (hr : row + count * linkRows cls width fp32 ≤ 2048) :
    exec (.linkSend t cls dir row count width fp32 []) s = .next (s.doLinkSend t cls dir row count width fp32 []) := by
  obtain ⟨hworks, -, -, hwait⟩ := hc
  have hclass : (cls == .activation || cls == .ring || cls == .collective) = true := by
    rcases hcls with rfl | rfl | rfl <;> rfl
  have hway : (decide (dir < 4) || (cls != .activation && decide (dir - 4 < (s.ringOf (s.owner t)).length))) = true := by
    rcases hdir with h | ⟨h, h'⟩ <;> simp [*]
  show execLinkSend t cls dir row count width fp32 [] s = _
  simp only [execLinkSend, hworks, hclass, hway, h1, hw, hr, require]
  exact issue_runs _ _ _ _ _ _ hwait rfl

end Send

theorem linkTo_neighbour (s : State) (dir : Nat) (cls : LClass) (p : Nat) (bs : Bytes) (h : dir < 4) :
    s.linkTo dir cls p bs = s.sendMessage dir cls p bs := if_pos h

/-! ## LINK_RECEIVE -/

/-- A receive whose rows lie in the scratchpad issues, and waits while there is no message. -/
theorem exec_linkReceive {s : State} {t dir row count width : Nat} {cls : LClass} {fp32 : Bool} (hworks : s.tileWorks t = true)
    (h1 : 1 ≤ count) (hw : 1 ≤ width) (hr : row + count * linkRows cls width fp32 ≤ 2048) :
    exec (.linkReceive t cls dir row count width fp32) s =
      s.issue (s.owner t) (bayOf t) (.linkReceive t cls dir row count width fp32)
        (s.linkMessage (s.owner t) cls dir count width).isNone (s.doLinkReceive t cls dir row count width fp32) := by
  show execLinkReceive t cls dir row count width fp32 s = _
  simp only [execLinkReceive, hworks, h1, hw, hr, require]
  rfl

theorem storeRow_length (fp32 : Bool) (ws : List Word) : (storeRow fp32 ws).length = ws.length * (if fp32 then 4 else 2) := by
  cases fp32 with
  | true => simp [storeRow, bytesOfWords_length, Nat.mul_comm]
  | false => simp [storeRow, List.length_flatMap, leBytes_length]

/-- Stored elements of a token row fit its rows. -/
theorem storeRow_fits (fp32 : Bool) (ws : List Word) : (storeRow fp32 ws).length ≤ 512 * tokenRows ws.length fp32 := by
  rw [storeRow_length]
  unfold tokenRows
  omega

theorem widenRow_length (mode fmt : Nat) (sc : Word) (width : Nat) (fp32 : Bool) (bs : Bytes) :
    (widenRow mode fmt sc width fp32 bs).length = width := by simp [widenRow]

/-- A byte of a run that is filled up with zeros. -/
theorem getD_padded (bs : Bytes) (n x : Nat) : (bs ++ List.replicate n 0#8).getD x 0#8 = bs.getD x 0#8 := by
  simp only [List.getD_eq_getElem?_getD, List.getElem?_append]
  split
  · rfl
  · next h =>
    rw [List.getElem?_eq_none (by omega : bs.length ≤ x), List.getElem?_replicate]
    split <;> rfl

/-- The bytes of row `i` of an activation message: its elements widened and stored as the receiver stores them, then zeros (R56). -/
theorem receivedRows_activation (im : Image) (count width : Nat) (fp32 : Bool) (bs : Bytes) {i x : Nat} (hi : i < count)
    (hx : x < 512 * tokenRows width fp32) :
    let wide := bs.length == im.messageBytes count width true
    let head := if im.boundary.1 = 2 then 4 else 0
    let n := linkRowBytes im.boundary.1 im.boundary.2 width wide
    let sc : Word := BitVec.ofNat 32 (ofBe (bs.take head))
    (receivedRows im .activation count width fp32 bs).getD (512 * tokenRows width fp32 * i + x) 0#8 =
      (storeRow fp32 (widenRow im.boundary.1 im.boundary.2 sc width wide (slice bs (head + n * i) n))).getD x 0#8 := by
  intro wide head n sc
  have hrow := fun i => storeRow_fits fp32 (widenRow im.boundary.1 im.boundary.2 sc width wide (slice bs (head + n * i) n))
  simp only [widenRow_length] at hrow
  have hflat := flatMap_getD (fun i =>
    storeRow fp32 (widenRow im.boundary.1 im.boundary.2 sc width wide (slice bs (head + n * i) n)) ++
      List.replicate (512 * tokenRows width fp32 -
        (storeRow fp32 (widenRow im.boundary.1 im.boundary.2 sc width wide (slice bs (head + n * i) n))).length) 0#8)
    (512 * tokenRows width fp32) (fun i => by rw [List.length_append, List.length_replicate]; have := hrow i; omega) count i x hi hx
  rw [getD_padded] at hflat
  exact hflat

/-- A message that is there fills its rows, leaves the inbox and stays with the step for a replay (R56, R455). -/
theorem linkReceive_takes {s : State} {t dir row count width : Nat} {cls : LClass} {fp32 : Bool} {pt : Part} {im : Image}
    {m : Nat × LClass × Nat × Bytes} (hc : s.tileClear t) (hp : s.part (s.owner t) = some pt) (hi : pt.image = some im)
    (hm : s.linkMessage (s.owner t) cls dir count width = some m) (h1 : 1 ≤ count) (hw : 1 ≤ width)
    (hr : row + count * linkRows cls width fp32 ≤ 2048) :
    completes (.linkReceive t cls dir row count width fp32) s (fun s' =>
      (∀ x, x < 512 * (count * linkRows cls width fp32) → Mem.read 0#8 s'.mem.scratch (t * 2 ^ 20 + 512 * row + x) =
        (receivedRows im cls count width fp32 m.2.2.2).getD x 0#8) ∧
      s'.veolo = { s.veolo with inbox := s.veolo.inbox.erase m } ∧
      s'.part (s.owner t) = some { pt with step := pt.step.map (fun v => { v with taken := v.taken ++ [m] }) } ∧
      (∀ q, q ≠ s.owner t → s'.part q = s.part q) ∧
      onlyRows s ((s'.setParts s.parts).setVeolo s.veolo) t row (count * linkRows cls width fp32)) := by
  obtain ⟨hworks, -, -, hwait⟩ := hc
  have hdo : s.doLinkReceive t cls dir row count width fp32 =
      ((s.writeRows t row (count * linkRows cls width fp32) (receivedRows im cls count width fp32 m.2.2.2)).setVeolo
        { s.veolo with inbox := s.veolo.inbox.erase m }).modPart (s.owner t)
          (fun pt => { pt with step := pt.step.map (fun v => { v with taken := v.taken ++ [m] }) }) := by
    unfold State.doLinkReceive
    simp only [hp, Option.bind_some, hi, hm]
  have hread := fun x => read_after_writeRows s t row (count * linkRows cls width fp32) x (receivedRows im cls count width fp32 m.2.2.2) hr
  have honly := onlyRows_writeRows0 s t row (count * linkRows cls width fp32) (receivedRows im cls count width fp32 m.2.2.2) hr
  have hframe := State.writeRows_frame s t (count * linkRows cls width fp32) row (receivedRows im cls count width fp32 m.2.2.2)
  refine ⟨_, (exec_linkReceive hworks h1 hw hr).trans (issue_runs _ _ _ _ _ _ hwait (by rw [hm]; rfl)), ?_⟩
  rw [hdo]
  generalize s.writeRows t row (count * linkRows cls width fp32) (receivedRows im cls count width fp32 m.2.2.2) = u at hread honly hframe ⊢
  have hparts : u.parts = s.parts := (congrArg (fun x : State => x.parts) hframe :)
  have hveolo : u.veolo = s.veolo := (congrArg (fun x : State => x.veolo) hframe :)
  have hpart : ∀ q, u.part q = s.part q := fun q => (congrArg (fun x : State => x.part q) hframe :)
  refine ⟨hread, rfl, part_of_modPart _ ((hpart _).trans hp), fun q hq => (State.part_modPart_ne _ _ hq).trans (hpart q), ?_⟩
  have hsame : (((u.setVeolo { s.veolo with inbox := s.veolo.inbox.erase m }).modPart (s.owner t)
      (fun pt => { pt with step := pt.step.map (fun v => { v with taken := v.taken ++ [m] }) })).setParts s.parts).setVeolo s.veolo = u := by
    rw [← hparts, ← hveolo]
    rfl
  rw [hsame]
  exact honly

/-- Settles O23: the rows that a send gives its neighbour or its ring, and the rows that a received message fills. -/
theorem linksCarryRows : Obligations.LinksCarryRows := by
  refine ⟨fun s t dir row count width cls fp32 hc hcls hdir h1 hw hr => ?_, fun s t dir row count width fp32 hc hdir h1 hw hr => ?_,
    fun s t dir row count width cls fp32 pt m hc hp hcls hm h1 hw hr => ?_,
    fun s t dir row count width fp32 pt im m hc hp hi hm h1 hw hr => ?_,
    fun s t dir row count width cls fp32 hworks h1 hw hr hm =>
      ⟨_, (exec_linkReceive hworks h1 hw hr).trans (issue_waits _ _ _ _ _ _ (.inr (by rw [hm]; rfl))), rfl⟩⟩
  · have hna : cls ≠ .activation := by rcases hcls with rfl | rfl <;> decide
    obtain ⟨am, hdo⟩ := doLinkSend_rows (dir := dir) (row := row) (count := count) (width := width) (fp32 := fp32) hc hna
    refine ⟨Part.linkSent (0, 0) am, ?_, fun h => linkTo_neighbour _ _ _ _ _ h, fun pt => ⟨linkSent_frame _ _ _, linkSent_counts _ _ _⟩⟩
    rw [exec_linkSend hc (.inr hcls) (hdir.imp_right (⟨hna, ·⟩)) h1 hw (by simpa only [linkRows, if_neg hna, Nat.mul_one] using hr), hdo]
  · obtain ⟨am, hdo⟩ := doLinkSend_tokens (dir := dir) (row := row) (count := count) (width := width) (fp32 := fp32) hc
    refine ⟨Part.linkSent _ am, ?_, fun pt => ⟨linkSent_frame _ _ _, linkSent_counts _ _ _⟩⟩
    rw [exec_linkSend hc (.inl rfl) (.inl hdir) h1 hw hr, hdo, linkTo_neighbour _ _ _ _ _ hdir]
  · have hrows : linkRows cls width fp32 = 1 := if_neg hcls
    obtain ⟨im, hi⟩ : ∃ im, pt.image = some im := by
      cases hi : pt.image with
      | some im => exact ⟨im, rfl⟩
      | none => simp [State.linkMessage, hp, hi] at hm
    obtain ⟨s', hrun, hread, hrest⟩ := linkReceive_takes (fp32 := fp32) hc hp hi hm h1 hw (by rw [hrows, Nat.mul_one]; exact hr)
    rw [hrows, Nat.mul_one] at hread hrest
    exact ⟨s', hrun, fun x hx => (hread x hx).trans (by rw [receivedRows, if_neg hcls]), hrest⟩
  · obtain ⟨s', hrun, hread, hrest⟩ := linkReceive_takes (fp32 := fp32) hc hp hi hm h1 hw hr
    refine ⟨s', hrun, fun i x hic hx => (hread _ ?_).trans (receivedRows_activation im count width fp32 m.2.2.2 hic hx), hrest⟩
    have hle : 512 * tokenRows width fp32 * (i + 1) ≤ 512 * tokenRows width fp32 * count := Nat.mul_le_mul_left _ hic
    have hrows : linkRows .activation width fp32 = tokenRows width fp32 := if_pos rfl
    rw [hrows, Nat.mul_comm count, ← Nat.mul_assoc]
    rw [Nat.mul_succ] at hle
    omega

end Sys2Proof.Machine
end

section
/-!
PROOFS. Firmware that stops, and the activation of an image (O33).
-/
namespace Sys2Proof.Machine

open Sys2Proof

/-! ## What an answer that ends firmware's work leaves alone -/

theorem settle_only (s : State) (c : Ctx) (op : Nat) (st : Status) (pl : Bytes) : repliesOnly s (s.settle c op st pl) := by
  unfold State.settle
  dsimp only
  split
  · exact repliesOnly_trans (s1 := s.setLesar _) rfl (reply_only _ _ _ _ _).1
  · exact repliesOnly_refl s

theorem refuseMbox_only (s : State) (m : Mbox) : repliesOnly s (s.refuseMbox m) := by
  have hreply := repliesOnly_trans (s1 := s.setLesar { s.lesar with mboxes := s.lesar.mboxes.erase m }) rfl
    (reply_only _ { sess := m.sess, part := m.part, handle := m.handle, via := none } m.opcode .busyRecovery []).1
  unfold State.refuseMbox
  dsimp only
  split
  · exact hreply
  · exact repliesOnly_trans hreply rfl

theorem settleModel_only (s : State) (p : Nat) (c : Ctx) (op : Nat) (st : Status) : repliesOnly s (s.settleModel p c op st) :=
  repliesOnly_trans (settle_only s c op st []) rfl

/-- `t` differs from `s` in nothing but answers and the partitions. -/
def repliesAndParts (s t : State) : Prop := repliesOnly (s.setParts t.parts) t

theorem repliesAndParts_trans {s t u : State} (h1 : repliesAndParts s t) (h2 : repliesAndParts t u) : repliesAndParts s u := by
  have h := congrArg (fun x : State => (x.setParts u.parts).withReply u) h1
  exact Eq.trans h2 h

theorem repliesAndParts_modPart (s : State) (p : Nat) (f : Part → Part) : repliesAndParts s (s.modPart p f) := rfl

theorem repliesAndParts_of_replies {s t : State} (h : repliesOnly s t) : repliesAndParts s t := by
  have hparts : t.parts = s.parts := repliesOnly_field State.parts (fun _ _ => rfl) h
  unfold repliesAndParts
  rw [hparts]
  exact h

/-! ## What firmware was doing for a partition -/

/-- The partition without an installation that firmware carries out; a load that the engines carry out goes on. -/
def Part.withoutInstall (pt : Part) : Part :=
  if pt.install.any (fun v => !v.loading) then Part.trimKeys { pt with install := none, mstate := pt.restState } else pt

/-- The partition without a repair and a lendable copy, its deletion ending as a reset. -/
def Part.withoutRepairs (pt : Part) : Part :=
  { pt with refetch := none, lendCopy := none, resetting := pt.resetting.map (fun r => (r.1, false)) }

/-- The partition without what firmware was doing for its model (R15). -/
def Part.withoutFirmware (pt : Part) : Part := pt.withoutInstall.withoutRepairs

theorem Part.withoutFirmware_eq (pt : Part) : pt.withoutFirmware =
    (let v : Part := if pt.install.any (fun v => !v.loading) then Part.trimKeys { pt with install := none, mstate := pt.restState } else pt
     { v with refetch := none, lendCopy := none, resetting := pt.resetting.map (fun r => (r.1, false)) }) := by
  unfold Part.withoutFirmware Part.withoutInstall
  split <;> rfl

theorem Part.withoutFirmware_twice (pt : Part) : pt.withoutFirmware.withoutFirmware = pt.withoutFirmware := by
  cases h : pt.install.any (fun v => !v.loading) <;>
    simp [Part.withoutFirmware, Part.withoutRepairs, Part.withoutInstall, Part.trimKeys, h, Function.comp_def]

/-- The end of an installation that firmware carries out, or the state as it is. -/
def State.withoutInstall (s : State) (p : Nat) : State :=
  if ((s.part p).bind (·.install)).any (fun v => !v.loading) then s.endInstall p .busyRecovery else s

theorem endInstall_part_ne (s : State) {p q : Nat} (hq : q ≠ p) (st : Status) : (s.endInstall p st).part q = s.part q := by
  unfold State.endInstall
  split
  · rfl
  · exact (settleModel_part _ _ _ _ _ _).trans (State.part_modPart_ne s _ hq)

theorem endInstall_repliesAndParts (s : State) (p : Nat) (st : Status) : repliesAndParts s (s.endInstall p st) := by
  unfold State.endInstall
  split
  · rfl
  · exact repliesAndParts_trans (repliesAndParts_modPart s p _) (repliesAndParts_of_replies (settleModel_only _ _ _ _ _))

theorem withoutInstall_part (s : State) (p : Nat) (pt : Part) (hp : s.part p = some pt) : (s.withoutInstall p).part p = some pt.withoutInstall := by
  unfold State.withoutInstall Part.withoutInstall
  rw [hp]
  cases hi : pt.install with
  | none => simp [hi, hp]
  | some v =>
    cases hv : v.loading with
    | true => simp [hi, hv, hp]
    | false =>
      have hend := (congrArg (fun x : State => x.part p) (endInstall_of s p pt v hp hi .busyRecovery)).trans (settleModel_part _ p v.ctx 0x0401 _ p)
      simpa [hi, hv] using hend.trans (part_of_modPart _ hp)

theorem partWithoutFirmware_part (s : State) (p q : Nat) :
    (s.partWithoutFirmware p).part q = if q = p then (s.part q).map Part.withoutFirmware else s.part q := by
  have hrun : s.partWithoutFirmware p = (s.withoutInstall p).modPart p Part.withoutRepairs := rfl
  rw [hrun]
  by_cases hq : q = p
  · subst hq
    rw [if_pos rfl]
    cases hp : s.part q with
    | none =>
      have hnone : s.withoutInstall q = s := by simp [State.withoutInstall, hp]
      rw [hnone]
      exact (NMap.find_modify_self _ _ _).trans (congrArg (Option.map Part.withoutRepairs) hp)
    | some pt => exact part_of_modPart Part.withoutRepairs (withoutInstall_part s q pt hp)
  · rw [if_neg hq, State.part_modPart_ne _ _ hq]
    unfold State.withoutInstall
    split
    · exact endInstall_part_ne s hq _
    · rfl

theorem partWithoutFirmware_repliesAndParts (s : State) (p : Nat) : repliesAndParts s (s.partWithoutFirmware p) := by
  unfold State.partWithoutFirmware
  dsimp only
  split
  · exact repliesAndParts_trans (endInstall_repliesAndParts s p _) (repliesAndParts_modPart _ p _)
  · exact repliesAndParts_modPart s p _

/-- Over a list of partitions, in which one may stand twice: the second time changes nothing. -/
theorem foldl_partWithoutFirmware (q : Nat) : ∀ (ps : List Nat) (s : State),
    (ps.foldl State.partWithoutFirmware s).part q = if q ∈ ps then (s.part q).map Part.withoutFirmware else s.part q := by
  intro ps
  induction ps with
  | nil => intro s; rfl
  | cons p ps ih =>
    intro s
    rw [List.foldl_cons, ih, partWithoutFirmware_part]
    by_cases hq : q = p
    · simp [hq, Function.comp_def, Part.withoutFirmware_twice]
    · simp [hq]

theorem partsWithoutFirmware (s : State) (q : Nat) :
    (s.parts.keys.foldl State.partWithoutFirmware s).part q = (s.part q).map Part.withoutFirmware := by
  rw [foldl_partWithoutFirmware]
  cases hq : s.part q with
  | none => simp
  | some pt => rw [if_pos (keys_mem q pt s.parts hq)]

/-! ## 100 ms without a heartbeat -/

/-- The frames that wait for firmware, answered. -/
def State.mboxesRefused (s : State) : State :=
  (s.lesar.mboxes.filter (fun m => serverOf m.opcode == .firmware)).foldl State.refuseMbox (s.setDev { s.dev with fwHalted := true })

/-- The operations that the stop of firmware ends, in a state whose partitions are without firmware. -/
def State.endedOwed (s : State) : List Owed :=
  s.lesar.owed.filter (fun o => serverOf o.opcode == .firmware && o.opcode != 0x0503 && !(s.parts.flatMap (fun e => Part.stagedCtxs e.2)).contains o.ctx)

/-- The deletions that firmware had begun, forgotten. -/
def State.withoutDeletions (s : State) : State := s.setLesar { s.lesar with owed := s.lesar.owed.filter (fun o => o.opcode != 0x0504) }

/-- The operations that firmware owed answered, and the device owner told. -/
def State.owedRefused (s : State) : State :=
  (s.endedOwed.foldl (fun s o => s.settle o.ctx o.opcode .busyRecovery []) s).devEvent .busyRecovery 0 0 0

theorem exec_mgmtProcessorStopped (s : State) (h1 : s.dev.phase = .running) (h2 : s.dev.fwHalted = false) :
    exec .mgmtProcessorStopped s =
      .next (s.mboxesRefused.withoutDeletions.parts.keys.foldl State.partWithoutFirmware s.mboxesRefused.withoutDeletions).owedRefused := by
  show require (s.dev.phase == .running && !s.dev.fwHalted) _ _ = _
  rw [h1, h2]
  rfl

theorem mboxesRefused_only (s : State) : repliesOnly (s.setDev { s.dev with fwHalted := true }) s.mboxesRefused :=
  foldl_inv (fun x : State => repliesOnly (s.setDev { s.dev with fwHalted := true }) x) State.refuseMbox
    (fun b m h => repliesOnly_trans h (refuseMbox_only b m)) _ _ (repliesOnly_refl _)

theorem owedRefused_only (s : State) : repliesOnly s s.owedRefused :=
  repliesOnly_trans (foldl_inv (fun x : State => repliesOnly s x) (fun s (o : Owed) => s.settle o.ctx o.opcode .busyRecovery [])
    (fun b _ h => repliesOnly_trans h (settle_only b _ _ _ _)) _ _ (repliesOnly_refl s)) (devEvent_only _ _ _ _ _)

theorem mgmtProcessorStopped_ends (s : State) (h1 : s.dev.phase = .running) (h2 : s.dev.fwHalted = false) :
    completes .mgmtProcessorStopped s (fun t => t.dev = { s.dev with fwHalted := true } ∧ t.mem = s.mem ∧ t.tiles = s.tiles ∧
      ∀ q, t.part q = (s.part q).map Part.withoutFirmware) := by
  refine ⟨_, exec_mgmtProcessorStopped s h1 h2, ?_⟩
  have hboxes : repliesOnly (s.setDev { s.dev with fwHalted := true }) s.mboxesRefused.withoutDeletions :=
    repliesOnly_trans (mboxesRefused_only s) rfl
  generalize s.mboxesRefused.withoutDeletions = u at hboxes ⊢
  have hparts := fun q => partsWithoutFirmware u q
  have hframe : repliesAndParts u (u.parts.keys.foldl State.partWithoutFirmware u) :=
    foldl_inv (fun x : State => repliesAndParts u x) State.partWithoutFirmware
      (fun b p h => repliesAndParts_trans h (partWithoutFirmware_repliesAndParts b p)) _ _ rfl
  generalize u.parts.keys.foldl State.partWithoutFirmware u = v at hparts hframe ⊢
  have howed := owedRefused_only v
  generalize v.owedRefused = t at howed ⊢
  have hall : repliesAndParts (s.setDev { s.dev with fwHalted := true }) t :=
    repliesAndParts_trans (repliesAndParts_trans (repliesAndParts_of_replies hboxes) hframe) (repliesAndParts_of_replies howed)
  refine ⟨(congrArg State.dev hall :), (congrArg State.mem hall :), (congrArg State.tiles hall :), fun q => ?_⟩
  rw [repliesOnly_field (fun x : State => x.part q) (fun _ _ => rfl) howed, hparts q,
    repliesOnly_field (fun x : State => x.part q) (fun _ _ => rfl) hboxes]
  rfl

theorem withoutDeletions_none (s : State) (h : ∀ o ∈ s.lesar.owed, serverOf o.opcode ≠ .firmware) : s.withoutDeletions = s := by
  have hkept : s.lesar.owed.filter (fun o => o.opcode != 0x0504) = s.lesar.owed :=
    List.filter_eq_self.mpr (fun o ho => bne_iff_ne.mpr (fun he => h o ho (he ▸ rfl)))
  unfold State.withoutDeletions
  rw [hkept]
  rfl

theorem owedRefused_none (s : State) (h : ∀ o ∈ s.lesar.owed, serverOf o.opcode ≠ .firmware) : s.owedRefused = s.devEvent .busyRecovery 0 0 0 := by
  have hnone : s.endedOwed = [] := List.filter_eq_nil_iff.mpr (fun o ho => by simp [h o ho])
  unfold State.owedRefused
  rw [hnone]
  rfl

/-- Without partitions and operations owed, the stop of firmware refuses the messages and tells the device owner. -/
theorem mgmtProcessorStopped_bare (s u : State) (h1 : s.dev.phase = .running) (h2 : s.dev.fwHalted = false) (hu : s.mboxesRefused = u)
    (hparts : u.parts = []) (howed : ∀ o ∈ u.lesar.owed, serverOf o.opcode ≠ .firmware) :
    completes .mgmtProcessorStopped s (fun t => t = u.devEvent .busyRecovery 0 0 0) := by
  refine ⟨_, exec_mgmtProcessorStopped s h1 h2, ?_⟩
  rw [hu, withoutDeletions_none u howed, hparts]
  exact owedRefused_none u howed

theorem mboxesRefused_none (s : State) (h : ∀ m ∈ s.lesar.mboxes, serverOf m.opcode ≠ .firmware) :
    s.mboxesRefused = s.setDev { s.dev with fwHalted := true } := by
  have hnone : s.lesar.mboxes.filter (fun m => serverOf m.opcode == .firmware) = [] :=
    List.filter_eq_nil_iff.mpr (fun m hm => by simp [h m hm])
  unfold State.mboxesRefused
  rw [hnone]
  rfl

theorem mboxesRefused_one (s : State) (m : Mbox) (h : s.lesar.mboxes = [m]) (hm : serverOf m.opcode = .firmware) (hc : m.complete = true) :
    s.mboxesRefused = ((s.setDev { s.dev with fwHalted := true }).setLesar { s.lesar with mboxes := [] }).reply
      { sess := m.sess, part := m.part, handle := m.handle, via := none } m.opcode .busyRecovery [] := by
  have hone : s.lesar.mboxes.filter (fun m => serverOf m.opcode == .firmware) = [m] := by simp [h, hm]
  have hfreed : s.lesar.mboxes.erase m = [] := by simp [h]
  unfold State.mboxesRefused
  rw [hone, List.foldl_cons, List.foldl_nil, State.refuseMbox]
  dsimp only
  rw [if_pos hc]
  show State.reply (State.setLesar _ { s.lesar with mboxes := s.lesar.mboxes.erase m }) _ _ _ _ = _
  rw [hfreed]

/-! ## ACTIVATE_FIRMWARE -/

theorem activateFirmware_run (s : State) (c : Ctx) (img : Bytes) (hs : s.accepts c 0x0602 .keeper true) (h1 : s.dev.pendingImage = some img)
    (h2 : s.dev.load = none) (h3 : s.dev.actQueued = none) (h4 : s.dev.reset = none) :
    exec (.activateFirmware c []) s =
      (if s.calm then .next (((s.freeMbox c 0x0602).reply c 0x0602 .ok []).beginReset [] false true)
       else ((s.freeMbox c 0x0602).setDev { s.dev with actQueued := some c }).answer c 0x0602 .deferred) := by
  obtain ⟨hrefusal, haddr, howner, hturn⟩ := hs
  show execActivateFirmware c [] s = _
  unfold execActivateFirmware
  rw [serve_body _ _ _ _ _ _ hrefusal haddr howner hturn]
  simp [freeMbox_dev, freeMbox_calm, h1, h2, h3, h4]

/-- The reset that starts a pending image begins once its frame has been answered (R298, R399). -/
theorem beginActivation (s : State) (c : Ctx) (v : Veolo) (hv : s.veolo = v) :
    ((s.reply c 0x0602 .ok []).beginReset [] false true).setVeolo v =
      (s.reply c 0x0602 .ok []).setDev { s.dev with reset := some { ctxs := [], system := false, activation := true, saved := false } } := by
  have hveolo : (s.reply c 0x0602 .ok []).veolo = v := (reply_field State.veolo (fun _ _ => rfl) s c 0x0602 .ok []).trans hv
  have hdev : (s.reply c 0x0602 .ok []).dev = s.dev := reply_field State.dev (fun _ _ => rfl) s c 0x0602 .ok []
  have hreset := beginReset_frame (s.reply c 0x0602 .ok []) [] false true
  rwa [hveolo, hdev] at hreset

/-- Settles O33: the stop of firmware is followed through its three steps, each of which changes only answers and the partitions; an
activation is answered and then begins a reset, of which only the leave notices reach the links. -/
theorem firmwareStopsAndActivates : Obligations.FirmwareStopsAndActivates := by
  unfold Obligations.FirmwareStopsAndActivates
  refine ⟨fun s h1 h2 => ?_, fun s h1 h2 hparts howed => ⟨fun hm => ?_, fun m hm hserver hc => ?_⟩,
    fun s c img hs h1 h2 h3 h4 => ⟨fun hcalm => ?_, fun hcalm => ?_⟩, fun s c hq => ⟨fun hcalm => ?_, ?_⟩⟩
  · obtain ⟨t, hrun, hdev, hmem, htiles, hpart⟩ := mgmtProcessorStopped_ends s h1 h2
    exact ⟨t, hrun, hdev, hmem, htiles, fun q => (hpart q).trans (congrArg (fun f => (s.part q).map f) (funext Part.withoutFirmware_eq))⟩
  · exact mgmtProcessorStopped_bare s _ h1 h2 (mboxesRefused_none s hm) hparts howed
  · refine mgmtProcessorStopped_bare s _ h1 h2 (mboxesRefused_one s m hm hserver hc) ?_ ?_
    · exact (reply_field State.parts (fun _ _ => rfl) _ _ _ _ _).trans hparts
    · rw [reply_owed]; exact howed
  · refine ⟨_, (activateFirmware_run s c img hs h1 h2 h3 h4).trans (if_pos hcalm), ?_⟩
    have hveolo : (s.freeMbox c 0x0602).veolo = s.veolo := freeMbox_field State.veolo (fun _ _ => rfl) s c 0x0602
    exact (beginActivation _ c s.veolo hveolo).trans (by rw [freeMbox_dev])
  · exact ⟨_, (activateFirmware_run s c img hs h1 h2 h3 h4).trans (if_neg (by simp [hcalm])), rfl⟩
  · refine ⟨(((s.setDev { s.dev with actQueued := none }).reply c 0x0602 .ok []).beginReset [] false true), ?_,
      beginActivation (s.setDev { s.dev with actQueued := none }) c s.veolo rfl⟩
    show execActivationProceed s = _
    unfold execActivationProceed
    rw [hq]
    exact if_pos hcalm
  · refine ⟨_, ?_, rfl⟩
    show execActivationTimeout s = _
    unfold execActivationTimeout
    rw [hq]

end Sys2Proof.Machine
end

section
/-!
PROOFS. Models started, stopped, swapped and removed (O44).
-/
namespace Sys2Proof.Machine

open Sys2Proof

/-! ## Frames that are staged for a target -/

/-- A setting with a target staged by a frame that has been answered PENDING. -/
theorem stageTargeted_owed (s : State) (c : Ctx) (op target : Nat) (pt : Part) (im : Image) (t : Targeted) (hp : s.part c.part = some pt)
    (hn : ∀ e ∈ pt.staged.targeted, e.2.1 ≠ c.handle) : ∃ u : State, onlyPart ((s.freeMbox c op).owe c op) u c.part ∧
      u.part c.part = some { pt with staged := { pt.staged with targeted := pt.staged.targeted ++ [(target, c.handle, t)] },
                                     accepted := if im.stages ≠ 1 ∧ im.isFirst = true then pt.accepted ++ [(0, c.handle, target)] else pt.accepted } ∧
      ((s.freeMbox c op).owe c op).stageTargeted c.part c.handle target im t = (if im.stages = 1 ∨ im.isFirst = true then u
        else u.sendTo (u.stageDev 0) .management c.part
          (beBytes 1 0x13 ++ beBytes 1 c.part ++ beBytes 1 im.stage ++ beBytes 4 c.handle ++ beBytes 4 target)) :=
  stageTargeted_spec _ _ _ _ pt im t ((owe_part _ _ _ _).trans ((freeMbox_part s c op c.part).trans hp)) hn

theorem startModel_run (s : State) (c : Ctx) (pl : Bytes) (pt : Part) (im : Image) (h : s.modelServes c 0x0404 pt) (hi : pt.image = some im) :
    exec (.startModel c pl) s =
      (let m := s.freeMbox c 0x0404
       if pl.length ≠ 4 then m.modelNo c 0x0404 .badFrame
       else if pt.mstate ≠ .loaded then m.modelNo c 0x0404 .notPermitted
       else if m.adjacentUp im = false then m.modelNo c 0x0404 .busyRecovery
       else if m.targetOk c.part im (beAt pl 0 4) = false then m.modelNo c 0x0404 .notPermitted
       else .next (((m.owe c 0x0404).stageTargeted c.part c.handle (beAt pl 0 4) im (.start c)).tellStarted c.part im)) := by
  show execStartModel c pl s = _
  unfold execStartModel
  rw [modelOp_run s c 0x0404 pt _ h]
  simp only [hi, bne_iff_ne, Bool.not_eq_true']

/-- The frame of STOP_MODEL is well formed (R316). -/
def stopFrame (pl : Bytes) : Prop :=
  pl.length = 8 ∧ beAt pl 0 1 < 2 ∧ beAt pl 1 1 = 0 ∧ (beAt pl 0 1 = 1 ∨ 1 ≤ beAt pl 2 2 ∧ beAt pl 2 2 ≤ 600)

theorem stopFrame_bad (pl : Bytes) :
    (pl.length != 8 || decide (1 < beAt pl 0 1) || beAt pl 1 1 != 0 || (beAt pl 0 1 == 0 && !within 1 600 (beAt pl 2 2))) = true ↔ ¬ stopFrame pl := by
  unfold stopFrame within
  simp only [Bool.or_eq_true, Bool.and_eq_true, bne_iff_ne, beq_iff_eq, decide_eq_true_eq, Bool.not_eq_true', Bool.and_eq_false_iff, decide_eq_false_iff_not]
  omega

theorem stopModel_run (s : State) (c : Ctx) (pl : Bytes) (pt : Part) (im : Image) (h : s.modelServes c 0x0403 pt) (hi : pt.image = some im) :
    (¬ stopFrame pl → exec (.stopModel c pl) s = (s.freeMbox c 0x0403).modelNo c 0x0403 .badFrame) ∧
    (stopFrame pl → exec (.stopModel c pl) s =
      (if (pt.mstate ≠ .started ∧ pt.mstate ≠ .held) ∨ (s.freeMbox c 0x0403).targetOk c.part im (beAt pl 4 4) = false then
        (s.freeMbox c 0x0403).modelNo c 0x0403 .notPermitted
       else .next (((s.freeMbox c 0x0403).owe c 0x0403).stageTargeted c.part c.handle (beAt pl 4 4) im
        (.stop c (beAt pl 0 1 == 1) (beAt pl 2 2))))) := by
  have hrun : exec (.stopModel c pl) s = execStopModel c pl s := rfl
  rw [hrun]
  unfold execStopModel
  rw [modelOp_run s c 0x0403 pt _ h]
  refine ⟨fun hbad => if_pos ((stopFrame_bad pl).mpr hbad), fun hgood => (if_neg (fun hb => (stopFrame_bad pl).mp hb hgood)).trans ?_⟩
  simp only [hi, Bool.or_eq_true, Bool.and_eq_true, bne_iff_ne, Bool.not_eq_true']

/-- What SWAP_LAYERS asks of the model and of its target (R318, R319, R324). -/
def State.maySwap (s : State) (c : Ctx) (target : Nat) (pt : Part) (cur next : Image) : Prop :=
  pt.swapEn = true ∧ (pt.mstate = .started ∨ pt.mstate = .held ∧ pt.swap.isSome = true) ∧ next.handle = c.handle ∧ pt.swappable cur next = true ∧
    s.targetOk c.part cur target = true

theorem maySwap_not (s : State) (c : Ctx) (target : Nat) (pt : Part) (cur next : Image) :
    (!pt.swapEn || !(pt.mstate == .started || (pt.mstate == .held && pt.swap.isSome)) || next.handle != c.handle || !pt.swappable cur next ||
      !s.targetOk c.part cur target) = true ↔ ¬ s.maySwap c target pt cur next := by
  unfold State.maySwap
  simp only [Bool.or_eq_true, Bool.not_eq_true', bne_iff_ne, Bool.or_eq_false_iff, Bool.and_eq_false_iff, beq_eq_false_iff_ne]
  grind

theorem swapLayers_run (s : State) (c : Ctx) (pl : Bytes) (pt : Part) (cur next : Image) (h : s.modelServes c 0x0402 pt) (hi : pt.image = some cur)
    (hx : pt.next = some next) (hl : pl.length = 4) :
    (¬ (s.freeMbox c 0x0402).maySwap c (beAt pl 0 4) pt cur next → exec (.swapLayers c pl) s = (s.freeMbox c 0x0402).modelNo c 0x0402 .notPermitted) ∧
    ((s.freeMbox c 0x0402).maySwap c (beAt pl 0 4) pt cur next → exec (.swapLayers c pl) s =
      .next (((s.freeMbox c 0x0402).owe c 0x0402).stageTargeted c.part c.handle (beAt pl 0 4) cur (.swap c))) := by
  have hrun : exec (.swapLayers c pl) s = execSwapLayers c pl s := rfl
  rw [hrun]
  unfold execSwapLayers
  rw [modelOp_run s c 0x0402 pt _ h]
  simp only [hi, hx, hl, bne_self_eq_false, Bool.false_eq_true, if_false]
  exact ⟨fun hn => if_pos ((maySwap_not _ _ _ _ _ _).mpr hn), fun hm => if_neg (fun hb => (maySwap_not _ _ _ _ _ _).mp hb hm)⟩

/-! ## A layer that has been read -/

/-- A swap whose layer stands ready in the swap room. -/
def Swap.read (w : Swap) (put : NMap Nat) : Swap := { w with readDone := true, put := put }

theorem readLayer_stored (s : State) (p : Nat) (pt : Part) (im next : Image) (w : Swap) : ∃ u, shareOnly s u ∧
    s.readLayer p pt im next w = u.modPart p (fun pt' => { pt' with swap := some (w.read (placeLayer (pt.swapTensors im w) pt.room).1) }) := by
  unfold State.readLayer
  dsimp only
  refine ⟨_, ?_, rfl⟩
  refine foldl_inv (fun x : State => shareOnly s x) _ (fun b d h => ?_) _ _ (shareOnly_refl s)
  split
  · exact shareOnly_trans h (storeTensor_only _ _ _ _ _)
  · exact h

theorem readLayer_spec (s : State) (p : Nat) (pt : Part) (im next : Image) (w : Swap) (hp : s.part p = some pt) :
    (s.readLayer p pt im next w).part p = some { pt with swap := some (w.read (placeLayer (pt.swapTensors im w) pt.room).1) } ∧
    (∀ q, q ≠ p → (s.readLayer p pt im next w).part q = s.part q) ∧
    ((((s.readLayer p pt im next w).setMem s.mem).setDram s.dram).setRegs s.regs).setParts s.parts = s := by
  obtain ⟨u, hstored, hread⟩ := readLayer_stored s p pt im next w
  rw [hread]
  refine ⟨part_of_modPart _ ((shareOnly_part hstored p).trans hp), fun q hq => (State.part_modPart_ne _ _ hq).trans (shareOnly_part hstored q), ?_⟩
  exact (congrArg (fun x : State => x.setParts s.parts) hstored :)

theorem swapReadComplete_run (s : State) (p : Nat) (pt : Part) (w : Swap) (im next : Image) (readable : Bool) (hp : s.part p = some pt) (hw : pt.swap = some w)
    (hi : pt.image = some im) (hx : pt.next = some next) (h1 : w.active = true) (h2 : pt.mstate = .swapping) (h3 : w.readDone = false)
    (h4 : w.layer < im.layers) : exec (.swapReadComplete p readable) s =
      (if readable = true then
        ((pt.swapTensors im w).findSome? (shardFault (pt.plainShard next))).elim (.next (s.readLayer p pt im next w))
          (fun e => .next ((s.refetchShard p next).podFault p 0 3 e none))
       else .next ((s.modPart p (fun pt => { pt with mstate := .held, swap := some { w with active := false } })).settleModel p w.ctx 0x0402 .tierFailed)) := by
  show execSwapReadComplete p readable s = _
  unfold execSwapReadComplete
  simp only [hp, hw, hi, hx, h1, h2, h3, h4, require]
  cases readable with
  | false => rfl
  | true => cases (pt.swapTensors im w).findSome? (shardFault (pt.plainShard next)) <;> rfl

/-! ## A model removed -/

/-- The model's registers of a partition read as after a reset (R317). -/
def State.modelRegsBlank (s : State) (p : Nat) : Prop :=
  ∀ b off, (b, off) ∈ [(Blk.sfu, 0), (.narrow, 0), (.narrow, 4), (.narrow, 8), (.kv, 0), (.kv, 4)] → s.reg b p off = Blk.reset b off

theorem layShards_nil (s : State) (p : Nat) (pt : Part) (hp : s.part p = some pt) :
    (s.layShards p []).part p = some { pt with shards := [] } ∧ (s.layShards p []).regs = s.regs := by
  have hclear := clearNand_book pt.nand s
  unfold State.layShards
  rw [hp]
  exact ⟨part_of_modPart _ ((congrArg (fun m : NMap Part => NMap.find m p) hclear.1).trans hp), hclear.2⟩

/-- The partition when its model has been removed. -/
def Part.removed (pt : Part) : Part := { pt with next := none, contentKeys := [], mstate := .empty }

/-- The removal of a partition's images, shards and content keys (R317). -/
def State.modelRemoved (s : State) (p : Nat) : State := ((s.removeImage p).layShards p []).modPart p Part.removed

theorem modelRemoved_spec (s : State) (p : Nat) (pt : Part) (hp : s.part p = some pt) (h128 : p < 128) :
    (s.modelRemoved p).part p = some ({ modelBlank pt with shards := [] } : Part).removed ∧ (s.modelRemoved p).modelRegsBlank p := by
  obtain ⟨hblank, hregs⟩ := removeImage_spec s p pt h128 hp
  obtain ⟨hlaid, hkept⟩ := layShards_nil (s.removeImage p) p (modelBlank pt) hblank
  refine ⟨part_of_modPart _ hlaid, fun b off hb => Eq.trans ?_ (hregs b off hb)⟩
  exact congrArg (fun r : NMap Word => State.reg { s.removeImage p with regs := r } b p off) hkept

theorem removeModel_run (s : State) (c : Ctx) (pt : Part) (h : s.modelServes c 0x0407 pt) : exec (.removeModel c []) s =
    (if (pt.mstate ≠ .empty ∧ pt.mstate ≠ .loaded) ∨ pt.install.isSome = true then (s.freeMbox c 0x0407).modelNo c 0x0407 .notPermitted
     else .next (((s.freeMbox c 0x0407).modelRemoved c.part).atOnce c 0x0407 .ok)) := by
  show execRemoveModel c [] s = _
  unfold execRemoveModel
  rw [modelOp_run s c 0x0407 pt _ h]
  simp only [List.isEmpty_nil, Bool.not_true, Bool.false_eq_true, if_false, Bool.or_eq_true, Bool.and_eq_true, bne_iff_ne]
  rfl

/-- Settles O44: each frame is followed to the answer or to the setting that it stages; a layer read changes only the share and the swap;
a model removed leaves a blank partition with blank registers. -/
theorem modelsStartStopAndSwap : Obligations.ModelsStartStopAndSwap := by
  unfold Obligations.ModelsStartStopAndSwap
  refine ⟨fun s c pl pt im h hi => ?_, fun s c pl pt im h hi => ?_, fun s c pl pt cur next h hi hx hl => ?_,
    fun s p pt w im next hp hw hi hx h1 h2 h3 h4 => ?_, fun s c pt h h128 => ?_⟩
  · have hrun := startModel_run s c pl pt im h hi
    have hp := h.2.1
    dsimp only at hrun ⊢
    rw [hrun]
    refine ⟨fun hl => if_pos hl, fun hl hm => ?_, fun hl hm ha => ?_, fun hl hm ha ht => ?_, fun hl hm ha ht hn => ?_⟩
    · rw [if_neg (not_not.mpr hl), if_pos hm]; rfl
    · rw [if_neg (not_not.mpr hl), if_neg (not_not.mpr hm), if_pos ha]; rfl
    · rw [if_neg (not_not.mpr hl), if_neg (not_not.mpr hm), if_neg (by simp [ha]), if_pos ht]; rfl
    · obtain ⟨u, honly, hpart, hstage⟩ := stageTargeted_owed s c 0x0404 (beAt pl 0 4) pt im (.start c) hp hn
      refine ⟨u, honly, hpart, ?_⟩
      rw [if_neg (not_not.mpr hl), if_neg (not_not.mpr hm), if_neg (by simp [ha]), if_neg (by simp [ht]), hstage]
  · obtain ⟨hbad, hgood⟩ := stopModel_run s c pl pt im h hi
    have hp := h.2.1
    refine ⟨hbad, fun hg hno => (hgood hg).trans (if_pos hno), fun hg hst ht hn => ?_⟩
    obtain ⟨u, honly, hpart, hstage⟩ := stageTargeted_owed s c 0x0403 (beAt pl 4 4) pt im (.stop c (beAt pl 0 1 == 1) (beAt pl 2 2)) hp hn
    refine ⟨u, honly, hpart, (hgood hg).trans ((if_neg ?_).trans (congrArg _ hstage))⟩
    rintro (⟨hns, hnh⟩ | hnt)
    · exact hst.elim hns hnh
    · exact absurd (hnt.symm.trans ht) (by decide)
  · obtain ⟨hno, hmay⟩ := swapLayers_run s c pl pt cur next h hi hx hl
    have hp := h.2.1
    refine ⟨hno, fun hm hn => ?_⟩
    obtain ⟨u, honly, hpart, hstage⟩ := stageTargeted_owed s c 0x0402 (beAt pl 0 4) pt cur (.swap c) hp hn
    exact ⟨u, honly, hpart, (hmay hm).trans (congrArg _ hstage)⟩
  · have hrun := fun r => swapReadComplete_run s p pt w im next r hp hw hi hx h1 h2 h3 h4
    refine ⟨fun hf => ⟨_, ?_, rfl, readLayer_spec s p pt im next w hp⟩, fun e hf => ?_, hrun false⟩
    · exact (hrun true).trans (by rw [if_pos rfl, hf]; rfl)
    · exact (hrun true).trans (by rw [if_pos rfl, hf]; rfl)
  · have hrun := removeModel_run s c pt h
    have hp := (freeMbox_part s c 0x0407 c.part).trans h.2.1
    refine ⟨fun hno => hrun.trans (if_pos hno), fun hst hnone => ?_⟩
    obtain ⟨hpart, hregs⟩ := modelRemoved_spec (s.freeMbox c 0x0407) c.part pt hp h128
    refine ⟨_, _, hpart, hrun.trans (if_neg ?_), rfl, rfl, rfl, rfl, rfl, rfl, rfl, rfl, rfl, rfl,
      hregs .sfu 0 (by decide), hregs .narrow 0 (by decide), hregs .kv 0 (by decide), hregs .kv 4 (by decide)⟩
    rintro (⟨hne, hnl⟩ | hsome)
    · exact hst.elim hne hnl
    · rw [hnone] at hsome; exact absurd hsome (by decide)

end Sys2Proof.Machine
end

section
/-!
PROOFS. LANE_INSTRUCTION: results, flow and reductions (O17).
-/
namespace Sys2Proof.Machine

open Sys2Proof

/-- The instruction sets register `d` of every active lane by `f` and opens no path. -/
def setsLanes (op : LaneOp) (d : Nat) (f : Crew → Nat → Word) : Prop :=
  (∀ k : Crew, k.run op = k.eachLane d (f k)) ∧ (laneOpOk op = true → d < 32) ∧ execLaneInstruction.opensPath op = false

/-- A crew instruction that may issue replaces its crew by the crew after it. -/
theorem laneInstruction_runs {s : State} {t crew : Nat} {op : LaneOp} (hr : s.crewReady t crew = true) (ho : laneOpOk op = true)
    (hp : ((s.tile t).crew crew).paths.length < 16 ∨ execLaneInstruction.opensPath op = false) :
    ∃ s', exec (.laneInstruction t crew op) s = .next s' ∧ (s'.tile t).crew crew = ((s.tile t).crew crew).run op ∧ onlyCrew s s' t crew :=
  ⟨_, lane_completes s t crew op hr ho hp, crew_putCrew s t crew _, onlyCrew_putCrew s t crew _⟩

/-- An instruction that sets a register of the active lanes completes with that register written (R77). -/
theorem laneInstruction_writes {s : State} {t crew d : Nat} {op : LaneOp} {f : Crew → Nat → Word} (hr : s.crewReady t crew = true)
    (ho : laneOpOk op = true) (hf : setsLanes op d f) :
    completes (.laneInstruction t crew op) s (fun s' =>
      Crew.writes ((s.tile t).crew crew) ((s'.tile t).crew crew) d (f ((s.tile t).crew crew)) ∧ onlyCrew s s' t crew) := by
  obtain ⟨hrun, hd, hopen⟩ := hf
  obtain ⟨s', hexec, hcrew, honly⟩ := laneInstruction_runs hr ho (.inr hopen)
  refine ⟨s', hexec, ?_, honly⟩
  rw [hcrew, hrun]
  exact Crew.writes_eachLane _ d _ (hd ho)

/-! ## Flow (R79) -/

/-- A branch keeps the lanes whose register is not zero. -/
theorem branch_on (k : Crew) (c l : Nat) (hl : l < 64) : (k.run (.branch c)).on l = (k.on l && k.get l c != 0#32) :=
  Crew.where_getLsbD k (fun l => k.get l c != 0#32) l hl

/-- A branch stacks its mask and the lanes that it leaves for the other path. -/
theorem branch_paths (k : Crew) (c : Nat) :
    (k.run (.branch c)).paths = (k.active, k.active &&& ~~~(k.run (.branch c)).active) :: k.paths := by
  simp only [Crew.run]

theorem branch_regs (k : Crew) (c : Nat) : (k.run (.branch c)).regs = k.regs := by
  simp only [Crew.run]

theorem run_otherPath {k : Crew} {m o : Dword} {ps : List (Dword × Dword)} (h : k.paths = (m, o) :: ps) :
    k.run .otherPath = { k with active := o } := by
  simp only [Crew.run, h]

theorem run_reconverge {k : Crew} {m o : Dword} {ps : List (Dword × Dword)} (h : k.paths = (m, o) :: ps) :
    k.run .reconverge = { k with active := m, paths := ps } := by
  simp only [Crew.run, h]

theorem run_loopEnd {k : Crew} {n : Nat} {ns : List Nat} (h : k.loops = n :: ns) :
    k.run .loopEnd = { k with loops := if n ≤ 1 then ns else (n - 1) :: ns } := by
  simp only [Crew.run, h]
  split <;> rfl

/-! ## Reductions (R52) -/

/-- What one level of R52 leaves in a lane: the sum of the adjacent pair of the values that the levels before have left. -/
theorem pairSums_take (ws : List Word) (level l : Nat) (hn : 64 ≤ ws.length) (hl : l < 32 / 2 ^ level) :
    (pairSums (ws.take (64 / 2 ^ level))).getD l 0 = lAdd (ws.getD (2 * l) 0) (ws.getD (2 * l + 1) 0) := by
  have htwice : 2 * (32 / 2 ^ level) ≤ 64 / 2 ^ level := Nat.mul_div_le_mul_div_assoc 2 32 (2 ^ level)
  have hle : 64 / 2 ^ level ≤ 64 := Nat.div_le_self _ _
  have htake : ∀ i, i < 64 / 2 ^ level → (ws.take (64 / 2 ^ level)).getD i 0 = ws.getD i 0 := fun i hi => by
    rw [List.getD_eq_getElem?_getD, List.getD_eq_getElem?_getD, List.getElem?_take_of_lt hi]
  rw [pairSums_getD _ l (by rw [List.length_take]; omega), htake _ (by omega), htake _ (by omega)]

theorem Crew.column_length (k : Crew) (a : Nat) : (k.column a).length = 64 := by simp [Crew.column]

/-- Settles O17: an instruction with a result sets its register lane by lane, one of flow changes the mask, the paths or the loops as its
case of `Crew.run` says, and a level of a reduction adds pairs. -/
theorem laneInstructionsAct : Obligations.LaneInstructionsAct := by
  unfold Obligations.LaneInstructionsAct
  refine ⟨fun s t crew op d f hr ho hop => laneInstruction_writes hr ho ?_, fun s t crew c hr hc hp => ?_, fun s t crew m o ps hr hp => ?_,
    fun s t crew m o ps hr hp => ?_, fun s t crew c hr hc => ?_, fun s t crew n ns hr hl => ?_, fun s t crew d a hr hd ha => ?_,
    fun s t crew level d a hr hlev hd ha => ?_⟩
  · rcases hop with ⟨_, _, _, _, rfl, rfl⟩ | ⟨_, _, _, _, _, rfl, rfl⟩ | ⟨_, _, _, _, _, _, rfl, rfl⟩ | ⟨_, _, rfl, rfl⟩ | ⟨_, _, rfl, rfl⟩ |
      ⟨_, _, rfl, rfl⟩ | ⟨_, _, rfl, rfl⟩ | ⟨_, _, _, _, rfl, rfl⟩ | ⟨_, _, _, _, rfl, rfl⟩ | ⟨_, _, _, _, rfl, rfl⟩ | ⟨_, _, _, rfl, rfl⟩ |
      ⟨_, _, _, _, rfl, rfl⟩ | ⟨_, _, rfl, rfl⟩
    all_goals exact ⟨fun _ => rfl, fun h => by simp only [laneOpOk, Bool.and_eq_true, decide_eq_true_eq] at h; omega, rfl⟩
  · obtain ⟨s', hexec, hcrew, honly⟩ := laneInstruction_runs (op := .branch c) hr (decide_eq_true hc) (.inl hp)
    refine ⟨s', hexec, ?_⟩
    simp only [hcrew]
    exact ⟨fun l => branch_on _ c l, branch_paths _ c, branch_regs _ c, honly⟩
  · obtain ⟨s', hexec, hcrew, honly⟩ := laneInstruction_runs (op := .otherPath) hr rfl (.inr rfl)
    exact ⟨s', hexec, hcrew.trans (run_otherPath hp), honly⟩
  · obtain ⟨s', hexec, hcrew, honly⟩ := laneInstruction_runs (op := .reconverge) hr rfl (.inr rfl)
    exact ⟨s', hexec, hcrew.trans (run_reconverge hp), honly⟩
  · exact laneInstruction_runs (op := .loop c) hr (decide_eq_true hc) (.inr rfl)
  · obtain ⟨s', hexec, hcrew, honly⟩ := laneInstruction_runs (op := .loopEnd) hr rfl (.inr rfl)
    exact ⟨s', hexec, hcrew.trans (run_loopEnd hl), honly⟩
  · exact laneInstruction_writes (f := fun k l => if l = 0 then treeSum (k.column a) else k.get l d) hr
      (by simp [laneOpOk, hd, ha]) ⟨fun _ => rfl, fun _ => hd, rfl⟩
  · obtain ⟨s', hexec, hwrites, honly⟩ := laneInstruction_writes (op := .reduceLevel level d a)
      (f := fun k l => if l < 32 / 2 ^ level then (pairSums ((k.column a).take (64 / 2 ^ level))).getD l 0 else k.get l d) hr
      (by simp [laneOpOk, hlev, hd, ha]) ⟨fun _ => rfl, fun _ => hd, rfl⟩
    refine ⟨s', hexec, Crew.writes_congr hwrites (fun l _ => ?_), honly⟩
    by_cases hl : l < 32 / 2 ^ level
    · simp only [if_pos hl]
      exact pairSums_take _ level l (Crew.column_length _ a).ge hl
    · simp only [if_neg hl]

end Sys2Proof.Machine
end

section
/-!
PROOFS. FILL, COPY and the tile DMA: what they write and what they leave (O20).
-/
namespace Sys2Proof.Machine

open Sys2Proof

theorem dmaWaits_iff (s : State) (t : Nat) : s.dmaWaits t = true ↔ 16 ≤ (s.tile t).dmaQ.length := decide_eq_true_iff

theorem dmaWaits_room {s : State} {t : Nat} (h : (s.tile t).dmaQ.length < 16) : s.dmaWaits t = false := decide_eq_false (by omega)

/-! ## FILL (R107) -/

/-- A fill of rows within the scratchpad reaches its sequencer. -/
theorem exec_fill {s : State} {t row count : Nat} (c : Dword) (hworks : s.tileWorks t = true) (h1 : 1 ≤ count) (hr : row + count ≤ 2048) :
    exec (.fill t row count c) s =
      s.issue (s.owner t) (bayOf t) (.fill t row count c) (s.dmaWaits t) (s.doFill t row count c) := by
  show execFill t row count c s = _
  simp [execFill, hworks, h1, hr, require]

/-- Byte `b` of a double word stored low byte first (R32). -/
theorem leBytes_extract (c : Dword) {b : Nat} (hb : b < 8) : (leBytes 8 c.toNat).getD b 0#8 = c.extractLsb' (8 * b) 8 := by
  rw [leBytes_getD 8 _ b hb, ← Nat.shiftRight_eq_div_pow]
  rfl

/-- Every double word of the filled rows holds the constant. -/
theorem read_doFill {s : State} {t row count w b : Nat} (c : Dword) (hr : row + count ≤ 2048) (hw : w < 64 * count) (hb : b < 8) :
    Mem.read 0#8 (s.doFill t row count c).mem.scratch (t * 2 ^ 20 + 512 * row + (8 * w + b)) = c.extractLsb' (8 * b) 8 := by
  unfold State.doFill
  rw [read_after_writeRows s t row count _ _ hr (by omega),
    flatMap_getD (fun _ => leBytes 8 c.toNat) 8 (fun _ => leBytes_length 8 _) _ w b hw hb, leBytes_extract c hb]

/-! ## COPY (R108) -/

/-- A copy of rows within the scratchpad reaches its sequencer. -/
theorem exec_copy {s : State} {t src dst count : Nat} (env : List Strike) (hworks : s.tileWorks t = true) (h1 : 1 ≤ count)
    (hs : src + count ≤ 2048) (hd : dst + count ≤ 2048) :
    exec (.copy t src dst count env) s =
      s.issue (s.owner t) (bayOf t) (.copy t src dst count env) (s.dmaWaits t) (s.doCopy t src dst count env) := by
  show execCopy t src dst count env s = _
  simp [execCopy, hworks, h1, hs, hd, require]

/-- The order in which a copy takes its rows. -/
def copyOrder (src dst count : Nat) : List Nat := if dst ≤ src then List.range count else (List.range count).reverse

theorem mem_copyOrder {src dst count i : Nat} : i ∈ copyOrder src dst count ↔ i < count := by
  unfold copyOrder
  split <;> simp

/-- In the order of a copy no row is read after it has been written: upwards where the rows move down, downwards where they move up. -/
theorem copyOrder_safe (src dst count : Nat) : (copyOrder src dst count).Pairwise (fun i j => dst + i ≠ src + j ∧ i ≠ j) := by
  unfold copyOrder
  split
  · exact (List.pairwise_lt_range (n := count)).imp (fun h => by omega)
  · rw [List.pairwise_reverse]
    exact (List.pairwise_lt_range (n := count)).imp (fun h => by omega)

/-- A copy of clean rows leaves in its destination what the source held before it, and changes those rows alone. -/
theorem doCopy_spec {s : State} {t src dst count : Nat} (hc : s.tileClear t) (hs : src + count ≤ 2048) (hd : dst + count ≤ 2048) :
    (∀ i, i < count → (s.doCopy t src dst count []).row t (dst + i) = s.row t (src + i)) ∧
      onlyRows s (s.doCopy t src dst count []) t dst count := by
  obtain ⟨-, hbad, hfail, -⟩ := hc
  have hdo : s.doCopy t src dst count [] = s.copyRows (s.owner t) t src dst (copyOrder src dst count) := by
    simp [State.doCopy, hfail, copyOrder]
  obtain ⟨hrows, -, honly⟩ := copyRows_spec (s.owner t) t src dst count hs hd (copyOrder src dst count) s hbad
    (fun i hi => mem_copyOrder.mp hi) (copyOrder_safe src dst count)
  rw [hdo]
  exact ⟨fun i hi => hrows i (mem_copyOrder.mpr hi), honly⟩

/-! ## DMA (R247) -/

/-- A transfer within the rules of its ends reaches its sequencer. -/
theorem exec_dma {s : State} {t : Nat} {op : DmaOp} {pt : Part} (env : List Strike) (hworks : s.tileWorks t = true)
    (hp : s.part (s.owner t) = some pt) (hok : s.dmaOk t pt op = true) :
    exec (.dma t op env) s = s.issue (s.owner t) (bayOf t) (.dma t op env) (s.dmaWaits t) (s.doDma t op env) := by
  show execDma t op env s = _
  simp [execDma, hp, hworks, hok, require]

/-- A transfer of rows between the scratchpads of one quad is within the rules of its ends. -/
theorem dmaOk_rows {s : State} {t id u r v q n : Nat} (pt : Part) (hu : s.tileWorks u = true) (hv : s.tileWorks v = true)
    (huq : u / 4 = t / 4) (hvq : v / 4 = t / 4) (hend : u = t ∨ v = t) (h1 : 1 ≤ n) (hr : r + n ≤ 2048) (hq : q + n ≤ 2048)
    (hid : ∀ o ∈ (s.tile t).dmaQ, o.op.id ≠ id) :
    s.dmaOk t pt { id := id, src := .rows u r, dst := .rows v q, rows := n, pods := none } = true := by
  have hn : n ≤ 2048 := by omega
  simpa [State.dmaOk, DmaOp.touches, State.endOk, *] using hid

/-- The transfer stands in the tile's queue. -/
def State.queueDma (s : State) (t : Nat) (op : DmaOp) : State :=
  s.modTile t (fun v => { v with dmaQ := v.dmaQ ++ [{ op := op, cause := none }] })

/-- A transfer of the queue notes the stall that a SYNC on it counts. -/
def State.noteStall (s : State) (t id : Nat) (cause : Option Nat) : State :=
  s.modTile t (fun v => { v with dmaQ := v.dmaQ.map (fun q => if q.op.id == id then { q with cause := cause } else q) })

/-- Where the environment reports nothing of the NAND tier, a transfer without pods writes the bytes that its source end reads. -/
theorem runDma_bytes {s s1 : State} {p t : Nat} {pt : Part} {op : DmaOp} {bs : Bytes} (hpods : op.pods = none)
    (hread : s.endRead p t pt op.src 0 (512 * op.rows) = (s1, some bs)) : s.runDma p t pt op [] = s1.endWrite p t pt op.dst 0 bs := by
  have hmove : s.moveRows p t pt op [] = s1.endWrite p t pt op.dst 0 bs := by
    unfold State.moveRows
    simp only [hpods, hread]
  unfold State.runDma
  split
  · exact hmove
  · exact hmove

/-- A transfer without pods stands in the queue, writes what it reads and notes its stall. -/
theorem doDma_bytes {s s1 : State} {t : Nat} {op : DmaOp} {bs : Bytes} {pt : Part} (hc : s.tileClear t) (hp : s.part (s.owner t) = some pt)
    (hpods : op.pods = none) (hread : (s.queueDma t op).endRead (s.owner t) t pt op.src 0 (512 * op.rows) = (s1, some bs)) :
    let s2 := s1.endWrite (s.owner t) t pt op.dst 0 bs
    s.doDma t op [] = s2.noteStall t op.id (s2.stallOf t op []) := by
  obtain ⟨-, -, hfail, -⟩ := hc
  have hrun := runDma_bytes hpods hread
  unfold State.queueDma at hrun
  unfold State.doDma
  simp only [hp, State.strike_nil, State.pathErrors_nil, hfail, Bool.false_eq_true, if_false, hrun]
  rfl

/-- Clean rows of a tile are read as they stand. -/
theorem endRead_rows {s : State} {p t u r n : Nat} (pt : Part) (hbad : (s.tile u).bad = []) :
    s.endRead p t pt (.rows u r) 0 n = (s, some (s.scratchBytes u (512 * r) n)) := by
  simp [State.endRead, State.readRuns_clean s p u _ hbad]

/-- Writing bytes in a scratchpad leaves the transfers in the queues. -/
theorem scratchWrite_dmaQ (s : State) (v a t : Nat) (bs : Bytes) : ((s.scratchWrite v a bs).tile t).dmaQ = (s.tile t).dmaQ := by
  by_cases h : t = v
  · subst h
    simp [State.scratchWrite]
  · rw [scratchWrite_tile_ne s a bs h]

/-- Byte `x` of row `i` of a run of rows. -/
theorem rowByte (a r i x : Nat) : a + 512 * (r + i) + x = a + 512 * r + (512 * i + x) := by omega

/-- Where a run of rows has been written with a run of rows, each row reads as its source did. -/
theorem row_of_rowsWritten {s s' : State} {u r v q n i : Nat} (hr : r + n ≤ 2048) (hq : q + n ≤ 2048) (hi : i < n)
    (hmem : s'.mem.scratch = Mem.writeN 0#8 s.mem.scratch (v * 2 ^ 20 + 512 * q) (s.scratchBytes u (512 * r) (512 * n))) :
    s'.row v (q + i) = s.row u (r + i) := by
  have hrow : ∀ x, x < 512 → 512 * i + x < 512 * n := fun x hx => by omega
  unfold State.row State.scratchBytes at *
  rw [hmem, rowKey (by omega), rowKey (by omega), rowKey (by omega)]
  refine readN_ext (fun x hx => ?_)
  rw [rowByte, rowByte, Mem.read_writeN_inside _ _ _ _ _ (by rw [Mem.readN_length]; exact hrow x hx), Mem.readN_getD _ _ _ _ _ _ (hrow x hx)]

/-- A transfer whose identifier is new is the only one that notes its stall, and without one it stands as it was queued. -/
theorem noteStall_last (Q : List DmaJob) (op : DmaOp) (hid : ∀ o ∈ Q, o.op.id ≠ op.id) :
    (Q ++ [({ op := op, cause := none } : DmaJob)]).map (fun q => if q.op.id == op.id then { q with cause := none } else q) =
      Q ++ [{ op := op, cause := none }] := by
  have hkeep : Q.map (fun q => if q.op.id == op.id then { q with cause := none } else q) = Q := by
    refine (List.map_congr_left (fun o ho => ?_)).trans Q.map_id
    rw [if_neg (by simpa using hid o ho)]
    rfl
  rw [List.map_append, hkeep, List.map_singleton, if_pos (beq_self_eq_true _)]

theorem modTile_setTiles (s : State) (t : Nat) (f : Tile → Tile) (ts : NMap Tile) : (s.modTile t f).setTiles ts = s.setTiles ts := rfl

/-- The transfer of clean rows of a quad: the state with the transfer queued, the rows written and no stall noted. -/
def State.moveRowsQuad (s : State) (t : Nat) (op : DmaOp) (u r v q : Nat) : State :=
  ((s.queueDma t op).scratchWrite v (512 * q) (s.scratchBytes u (512 * r) (512 * op.rows))).noteStall t op.id none

theorem exec_dma_rows {s : State} {t id u r v q n : Nat} {pt : Part} (hc : s.tileClear t) (hp : s.part (s.owner t) = some pt)
    (hlen : (s.tile t).dmaQ.length < 16) (hok : s.dmaOk t pt { id := id, src := .rows u r, dst := .rows v q, rows := n, pods := none } = true)
    (hbad : (s.tile u).bad = []) :
    exec (.dma t { id := id, src := .rows u r, dst := .rows v q, rows := n, pods := none } []) s =
      .next (s.moveRowsQuad t { id := id, src := .rows u r, dst := .rows v q, rows := n, pods := none } u r v q) := by
  have hqbad : ((s.queueDma t { id := id, src := .rows u r, dst := .rows v q, rows := n, pods := none }).tile u).bad = [] := by
    unfold State.queueDma
    by_cases h : u = t
    · subst h
      rw [State.tile_modTile_self]
      exact hbad
    · rw [State.tile_modTile_ne _ _ h]
      exact hbad
  rw [exec_dma [] hc.1 hp hok, issue_runs _ _ _ _ _ _ hc.2.2.2 (dmaWaits_room hlen), doDma_bytes hc hp rfl (endRead_rows pt hqbad)]
  rfl

section Quad
variable (s : State) (t : Nat) (op : DmaOp) (u r v q : Nat)

theorem moveRowsQuad_scratch (hq : 512 * q < 2 ^ 20) : (s.moveRowsQuad t op u r v q).mem.scratch =
    Mem.writeN 0#8 s.mem.scratch (v * 2 ^ 20 + 512 * q) (s.scratchBytes u (512 * r) (512 * op.rows)) := by
  unfold State.moveRowsQuad State.noteStall State.queueDma
  rw [State.modTile_mem, scratchWrite_scratch _ _ _ _ hq, State.modTile_mem]

theorem moveRowsQuad_mem : (s.moveRowsQuad t op u r v q).mem = { s.mem with scratch := (s.moveRowsQuad t op u r v q).mem.scratch } := by
  unfold State.moveRowsQuad State.noteStall State.queueDma
  rw [State.modTile_mem, scratchWrite_mem, State.modTile_mem]

theorem moveRowsQuad_frame : ((s.moveRowsQuad t op u r v q).setTiles s.tiles).setMem s.mem = s := by
  unfold State.moveRowsQuad State.noteStall State.queueDma
  rw [modTile_setTiles, scratchWrite_frame, modTile_setTiles]
  rfl

theorem moveRowsQuad_dmaQ (hid : ∀ o ∈ (s.tile t).dmaQ, o.op.id ≠ op.id) :
    ((s.moveRowsQuad t op u r v q).tile t).dmaQ = (s.tile t).dmaQ ++ [{ op := op, cause := none }] := by
  unfold State.moveRowsQuad State.noteStall
  rw [State.tile_modTile_self, scratchWrite_dmaQ]
  unfold State.queueDma
  rw [State.tile_modTile_self]
  exact noteStall_last _ _ hid

theorem moveRowsQuad_tile_ne {w : Nat} (hwt : w ≠ t) (hwv : w ≠ v) : (s.moveRowsQuad t op u r v q).tile w = s.tile w := by
  unfold State.moveRowsQuad State.noteStall State.queueDma
  rw [State.tile_modTile_ne _ _ hwt, scratchWrite_tile_ne _ _ _ hwv, State.tile_modTile_ne _ _ hwt]

end Quad

/-- DMA_COMPLETE of a transfer that stands in the queue (R272). -/
theorem exec_dmaComplete {s : State} {t id : Nat} (now : Nat) (h : ∃ q ∈ (s.tile t).dmaQ, q.op.id = id) :
    ∃ q : DmaJob, exec (.dmaComplete t id now) s =
      .next ((((s.at now).modCtx (s.owner t) (bayOf t) (fun c => c.note (fun op => op.xfers.contains id) (s.at now).now q.cause)).endDma t
        id).pump (s.owner t)) := by
  obtain ⟨j, hj, hid⟩ := h
  cases hf : (s.tile t).dmaQ.find? (fun q => q.op.id == id) with
  | none => exact absurd (beq_iff_eq.mpr hid) (List.find?_eq_none.mp hf j hj)
  | some q =>
    refine ⟨q, ?_⟩
    show execDmaComplete t id now s = _
    simp only [execDmaComplete, hf]

/-- Settles O20: FILL and COPY by `read_doFill` and `doCopy_spec`, DMA by `exec_dma_rows` and `doDma_bytes`; each waits as its `exec_` lemma and
the length of the queue say. -/
theorem rowsFilledCopiedAndMoved : Obligations.RowsFilledCopiedAndMoved := by
  unfold Obligations.RowsFilledCopiedAndMoved
  refine ⟨fun s t row count c hc hlen h1 hr => ?_, fun s t src dst count hc hlen h1 hs hd => ?_,
    fun s t r q count c env hworks hfull h1 hr hq => ?_,
    fun s t id u r v q n pt hc hp hlen hu hv huq hvq hend hbad h1 hr hq hid => ?_,
    fun s s1 t op bs pt hc hp hlen hok hpods hread => ?_, fun s t op env pt hworks hp hok hfull => ?_, fun s t id now h => ?_⟩
  · exact ⟨_, (exec_fill c hc.1 h1 hr).trans (issue_runs _ _ _ _ _ _ hc.2.2.2 (dmaWaits_room hlen)),
      fun w b hw hb => read_doFill c hr hw hb, onlyRows_writeRows0 s t row count _ hr⟩
  · exact ⟨_, (exec_copy [] hc.1 h1 hs hd).trans (issue_runs _ _ _ _ _ _ hc.2.2.2 (dmaWaits_room hlen)), doCopy_spec hc hs hd⟩
  · have hwaits := (dmaWaits_iff s t).mpr hfull
    exact ⟨⟨_, (exec_fill c hworks h1 hr).trans (issue_waits _ _ _ _ _ _ (.inr hwaits)), rfl⟩,
      ⟨_, (exec_copy env hworks h1 hr hq).trans (issue_waits _ _ _ _ _ _ (.inr hwaits)), rfl⟩⟩
  · have hok := dmaOk_rows pt hu hv huq hvq hend h1 hr hq hid
    have hmem := moveRowsQuad_scratch s t { id := id, src := .rows u r, dst := .rows v q, rows := n, pods := none } u r v q (by omega)
    refine ⟨_, exec_dma_rows hc hp hlen hok hbad, fun i hi => row_of_rowsWritten hr hq hi hmem, fun x hx => ?_,
      moveRowsQuad_dmaQ s t _ u r v q hid, moveRowsQuad_mem s t _ u r v q, moveRowsQuad_frame s t _ u r v q,
      fun w hwt hwv => moveRowsQuad_tile_ne s t _ u r v q hwt hwv⟩
    rw [hmem, Mem.read_writeN_outside]
    rw [State.scratchBytes, Mem.readN_length]
    exact hx
  · refine ⟨_, (exec_dma [] hc.1 hp hok).trans (issue_runs _ _ _ _ _ _ hc.2.2.2 (dmaWaits_room hlen)), _, rfl, ?_⟩
    rw [doDma_bytes hc hp hpods hread]
    unfold State.noteStall
    exact ⟨onlyTile_modTile _ t _, by rw [State.tile_modTile_self], by rw [State.tile_modTile_self]⟩
  · exact ⟨_, (exec_dma env hworks hp hok).trans (issue_waits _ _ _ _ _ _ (.inr ((dmaWaits_iff s t).mpr hfull))), rfl⟩
  · obtain ⟨q, hexec⟩ := exec_dmaComplete now h
    refine ⟨_, hexec, _, rfl, ?_⟩
    unfold State.endDma State.modCtx
    refine ⟨fun j => ?_, ?_, fun v hv => State.tile_modTile_ne _ _ hv,
      fun p hne => (State.modTile_part _ _ _ _).trans (State.part_modPart_ne (s.at now) _ hne), rfl⟩
    · rw [State.tile_modTile_self, List.mem_filter, bne_iff_ne]
      rfl
    · rw [State.tile_modTile_self]
      rfl

end Sys2Proof.Machine
end

section
/-!
PROOFS. DRAIN and DRAIN_COMPLETE: a block to rows or into a neighbour's bank (O12).
-/
namespace Sys2Proof.Machine

open Sys2Proof

/-! ## A bank that begins its drain (R71, R73) -/

theorem beginDrain_satStatus (v : Tile) (k fmt : Nat) : (v.beginDrain k fmt).satStatus = (v.bank k).sat := by
  unfold Tile.beginDrain Tile.setBank
  by_cases ht : v.twin = true <;> by_cases hk : k = 0 <;> by_cases hf : fmt = 0 <;> simp [ht, hk, hf]

section Single
variable {v : Tile} (ht : v.twin = false) (k fmt : Nat)
include ht

theorem beginDrain_single : v.beginDrain k fmt =
    ({ v.setBank k { v.bank k with sat := false } with satStatus := (v.bank k).sat } : Tile).setBank k { v.bank k with sat := false, st := .drain } := by
  unfold Tile.beginDrain Tile.setBank Tile.bank
  by_cases hk : k = 0 <;> simp [ht, hk]

theorem bank_beginDrain_self : (v.beginDrain k fmt).bank k = { v.bank k with sat := false, st := .drain } := by
  rw [beginDrain_single ht, Tile.bank_setBank_self]

theorem bank_beginDrain_other : (v.beginDrain k fmt).bank (1 - k) = v.bank (1 - k) := by
  rw [beginDrain_single ht, Tile.bank_setBank_other]
  exact Tile.bank_setBank_other v k _

end Single

section Twin
variable {v : Tile} (ht : v.twin = true) (k : Nat)
include ht

/-- A TWIN drain takes both banks to DRAIN (R195). -/
theorem beginDrain_pairs : (v.beginDrain k 0).bank0.st = .drain ∧ (v.beginDrain k 0).bank1.st = .drain := by
  simp [Tile.beginDrain, Tile.setBank, ht]

/-- Any other drain of a tile in twin mode leaves its banks as they stand (R195). -/
theorem beginDrain_keeps {fmt : Nat} (hf : fmt ≠ 0) :
    (v.beginDrain k fmt).bank0.st = v.bank0.st ∧ (v.beginDrain k fmt).bank1.st = v.bank1.st := by
  unfold Tile.beginDrain Tile.setBank Tile.bank
  by_cases hk : k = 0 <;> simp [ht, hf, hk]

theorem beginDrain_pair (fmt c : Nat) : (v.beginDrain k fmt).pair c = v.pair c := by
  unfold Tile.beginDrain Tile.setBank Tile.bank Tile.pair Bank.cell
  by_cases hk : k = 0 <;> by_cases hf : fmt = 0 <;> simp [ht, hf, hk]

end Twin

theorem twinReady_iff (v : Tile) : v.twinReady = true ↔ v.twin = true ∧ v.bank0.st = .preloaded ∧ v.bank1.st = .preloaded := by
  simp [Tile.twinReady, and_assoc]

/-! ## The instruction -/

/-- A drain that names an end within the rules reaches its sequencer. -/
theorem exec_drain {s : State} {t k fmt : Nat} {dst : DrainDst} (env : List Strike) (hworks : s.tileWorks t = true) (hk : k < 2)
    (hdst : s.drainDstOk t fmt dst = true) (hfmt : fmt ∈ [0, 1, 2, 3, 24]) :
    exec (.drain t k fmt dst env) s =
      s.issue (s.owner t) (bayOf t) (.drain t k fmt dst env) (s.drainWaits t k dst) (s.doDrain t k fmt dst env) := by
  have hlisted : [0, 1, 2, 3, 24].contains fmt = true := List.contains_iff_mem.mpr hfmt
  show execDrain t k fmt dst env s = _
  simp only [execDrain, hworks, hk, hdst, hlisted, require, decide_true, Bool.and_self, if_true]

/-- The formats that R49 gives a bank are formats of the instruction. -/
theorem drainFmtOk_mem {v : Tile} {k fmt : Nat} (h : drainFmtOk v k fmt = true) : fmt ∈ [0, 1, 2, 3, 24] := by
  unfold drainFmtOk at h
  simp only [List.mem_cons]
  split at h
  · simp at h; omega
  · split at h <;> (simp at h; omega)

/-- A drain to rows that need not wait leaves the block's bytes in them; of the tile its bank and status word change, and words that were struck. -/
theorem drain_rows {s : State} {t k fmt r : Nat} (hc : s.tileClear t) (hk : k < 2) (hw : s.drainWaits t k (.rows r) = false)
    (hf : drainFmtOk (s.tile t) k fmt = true) (hr : r + drainRows fmt ≤ 2048) :
    ∃ s' m, exec (.drain t k fmt (.rows r) []) s = .next s' ∧ s'.tile t = ({ s.tile t with bad := m } : Tile).beginDrain k fmt ∧
      (∀ x, x < 512 * drainRows fmt → Mem.read 0#8 s'.mem.scratch (t * 2 ^ 20 + 512 * r + x) =
        (drainBytes (s.tile t) k fmt (s.rows t r (drainRows fmt))).getD x 0#8) ∧
      onlyRows s s' t r (drainRows fmt) := by
  obtain ⟨hworks, -, hfail, hwait⟩ := hc
  have hdo : s.doDrain t k fmt (.rows r) [] = (s.writeRows t r (drainRows fmt)
      (drainBytes (s.tile t) k fmt (s.rows t r (drainRows fmt)))).modTile t (fun w => w.beginDrain k fmt) := by
    simp [State.doDrain, hfail, hf]
  obtain ⟨m, hm, -⟩ := State.writeRows_tile s t (drainRows fmt) r (drainBytes (s.tile t) k fmt (s.rows t r (drainRows fmt)))
  refine ⟨_, m, (exec_drain (dst := .rows r) [] hworks hk (decide_eq_true hr) (drainFmtOk_mem hf)).trans (issue_runs _ _ _ _ _ _ hwait hw), ?_⟩
  rw [hdo, State.tile_modTile_self, hm, State.modTile_mem]
  exact ⟨rfl, fun x => read_after_writeRows s t r _ x _ hr, onlyRows_writeRows s t r _ _ _ hr⟩

/-! ## DRAIN_COMPLETE (R71) -/

/-- The banks of a tile after the last row of a drain: in twin mode both are EMPTY. -/
def Tile.drained (v : Tile) (k : Nat) : Tile :=
  if v.twin then { v with bank0 := Bank.cleared, bank1 := Bank.cleared } else v.setBank k Bank.cleared

theorem drained_rest (v : Tile) (k : Nat) : (v.drained k).matrixQ = v.matrixQ ∧ (v.drained k).twin = v.twin := by
  unfold Tile.drained
  split
  · exact ⟨rfl, rfl⟩
  · exact (Tile.setBank_set v k _).symm

theorem drained_bank (v : Tile) (k : Nat) : (v.drained k).bank k = Bank.cleared := by
  unfold Tile.drained
  split
  · unfold Tile.bank
    split <;> rfl
  · exact Tile.bank_setBank_self v k _

theorem drained_other (v : Tile) (k : Nat) : (v.drained k).bank (1 - k) = if v.twin then Bank.cleared else v.bank (1 - k) := by
  unfold Tile.drained
  split
  · unfold Tile.bank
    split <;> rfl
  · exact Tile.bank_setBank_other v k _

/-- The completion of a drain that runs: the banks are emptied, the tile's queue and the waiting instructions go on. -/
theorem exec_drainComplete {s : State} {t k : Nat} (hk : k < 2) (hst : ((s.tile t).bank k).st = .drain) :
    exec (.drainComplete t k) s = .next (((s.modTile t (fun v => v.drained k)).goMatrix t).pump (s.owner t)) := by
  have hruns : (decide (k < 2) && ((s.tile t).bank k).st == .drain) = true := by simp [hk, hst]
  show execDrainComplete t k s = _
  unfold execDrainComplete require
  exact if_pos hruns

/-! ## A block added to a neighbour's bank (R72) -/

theorem readyBank_ready {v : Tile} {j : Nat} (h : v.readyBank = some j) : (v.bank j).st = .ready := by
  unfold Tile.readyBank at h
  split at h
  · cases h
  · split at h
    next hlast =>
      cases h
      exact hlast
    next =>
      split at h
      next hother =>
        cases h
        exact hother
      next => cases h

theorem addBlock_cell (sat : Bool) (xs : Nat → FVal) (b : Bank) {c : Nat} (hc : c < 1024) :
    (addBlock sat xs b).cell c = (addEntry b.int (b.cell c) (xs c)).1 := by
  have hcells : (addBlock sat xs b).cells = cellsOf (((List.range 1024).map (fun c => addEntry b.int (b.cell c) (xs c))).map Prod.fst) := by
    simp only [addBlock]
  rw [cell_cellsOf hcells, List.map_map, getD_map_range _ _ _ _ hc, Function.comp_apply]

theorem addBlock_sat (sat : Bool) (xs : Nat → FVal) (b : Bank) :
    (addBlock sat xs b).sat = (b.sat || sat || (List.range 1024).any (fun c => (addEntry b.int (b.cell c) (xs c)).2)) := by
  simp only [addBlock, List.any_map]
  rfl

/-- An FP32 entry of an ordinary bank drained in FP32 is added as an FP32 value. -/
theorem addEntry_f32 {v : Tile} {k : Nat} (acc : Word) (c : Nat) (ht : v.twin = false) (hi : (v.bank k).int = false) :
    (addEntry false acc (drainValue v k 1 c)).1 = fAdd acc ((v.bank k).cell c) := by
  have hcode : drainCode v k 1 c = ((v.bank k).cell c).toNat := by simp [drainCode, ht, hi]
  have hvalue : drainValue v k 1 c = f32 ((v.bank k).cell c) := by
    unfold drainValue
    rw [if_neg (by decide), hcode]
    rfl
  rw [hvalue]
  rfl

/-- The state after a drain into bank `j` of a neighbour. -/
def State.drainInto (s : State) (t k fmt u j : Nat) : State :=
  (s.modTile u (fun w => w.setBank j (addBlock ((s.tile t).bank k).sat (drainValue (s.tile t) k fmt) (w.bank j)))).modTile t
    (fun w => w.beginDrain k fmt)

theorem exec_drain_neighbour {s : State} {t u k j fmt : Nat} (hc : s.tileClear t) (hu : s.tileWorks u = true) (hq : u / 4 = t / 4)
    (hne : u ≠ t) (hk : k < 2) (hw : s.drainWaits t k (.neighbour u) = false) (hj : (s.tile u).readyBank = some j)
    (hf : drainFmtOk (s.tile t) k fmt = true) : exec (.drain t k fmt (.neighbour u) []) s = .next (s.drainInto t k fmt u j) := by
  obtain ⟨hworks, -, hfail, hwait⟩ := hc
  have hdst : s.drainDstOk t fmt (.neighbour u) = true := by simp [State.drainDstOk, hq, hne, hu]
  have hdo : s.doDrain t k fmt (.neighbour u) [] = s.drainInto t k fmt u j := by
    simp [State.doDrain, hfail, hf, hj, State.drainInto]
  rw [exec_drain [] hworks hk hdst (drainFmtOk_mem hf), issue_runs _ _ _ _ _ _ hwait hw, hdo]

section Neighbour
variable (s : State) {t u : Nat} (k fmt j : Nat)

theorem drainInto_frame : (s.drainInto t k fmt u j).setTiles s.tiles = s := by
  unfold State.drainInto
  rw [modTile_setTiles, modTile_setTiles]
  rfl

theorem drainInto_tile_ne {w : Nat} (ht : w ≠ t) (hu : w ≠ u) : (s.drainInto t k fmt u j).tile w = s.tile w := by
  unfold State.drainInto
  rw [State.tile_modTile_ne _ _ ht, State.tile_modTile_ne _ _ hu]

variable (hne : u ≠ t)
include hne

theorem drainInto_sender : (s.drainInto t k fmt u j).tile t = (s.tile t).beginDrain k fmt := by
  unfold State.drainInto
  rw [State.tile_modTile_self, State.tile_modTile_ne _ _ hne.symm]

theorem drainInto_receiver : (s.drainInto t k fmt u j).tile u =
    (s.tile u).setBank j (addBlock ((s.tile t).bank k).sat (drainValue (s.tile t) k fmt) ((s.tile u).bank j)) := by
  unfold State.drainInto
  rw [State.tile_modTile_ne _ _ hne, State.tile_modTile_self]

end Neighbour

/-- Settles O12: a drain to rows by `drain_rows` and the laws of `Tile.beginDrain`, one to a neighbour by `exec_drain_neighbour` and the laws of
`addBlock`, the completion by the laws of `Tile.drained`. -/
theorem drainWritesOrAdds : Obligations.DrainWritesOrAdds := by
  unfold Obligations.DrainWritesOrAdds
  refine ⟨fun s t k fmt r hc hk ht hst hf hr => ?_, fun s t k fmt r hc hk hready hfmt hr => ?_,
    fun s t k fmt dst env hworks hk hfmt hdst hw => ?_, fun s t k hk hst => ?_, fun s t u k j fmt hc hu hq hne hk hw hj _ hf => ?_⟩
  · have hw : s.drainWaits t k (.rows r) = false := by simp [State.drainWaits, ht, hst]
    obtain ⟨s', m, hexec, htile, hread, honly⟩ := drain_rows hc hk hw hf hr
    have hself := bank_beginDrain_self (v := { s.tile t with bad := m }) ht k fmt
    have hother := bank_beginDrain_other (v := { s.tile t with bad := m }) ht k fmt
    have hstatus := beginDrain_satStatus { s.tile t with bad := m } k fmt
    rw [← htile] at hself hother hstatus
    exact ⟨s', hexec, by rw [hself], by rw [hself], hstatus, hother, hread, honly⟩
  · obtain ⟨ht, hbank0, hbank1⟩ := (twinReady_iff _).mp hready
    have hw : s.drainWaits t k (.rows r) = false := by simp [State.drainWaits, ht, hready]
    have hf : drainFmtOk (s.tile t) k fmt = true := by
      simp [drainFmtOk, ht]
      omega
    obtain ⟨s', m, hexec, htile, hread, honly⟩ := drain_rows hc hk hw hf hr
    have hkeeps := beginDrain_keeps (v := { s.tile t with bad := m }) ht k (fmt := fmt)
    have hpair := beginDrain_pair (v := { s.tile t with bad := m }) ht k fmt
    have hstatus := beginDrain_satStatus { s.tile t with bad := m } k fmt
    refine ⟨s', hexec, fun h0 => ?_, fun h0 => ?_, fun c => by rw [htile]; exact hpair c, by rw [htile]; exact hstatus, hread, honly⟩
    · rw [htile, h0]
      exact beginDrain_pairs (v := { s.tile t with bad := m }) ht k
    · rw [htile]
      exact (hkeeps h0).imp (·.trans hbank0) (·.trans hbank1)
  · exact ⟨_, (exec_drain env hworks hk hdst hfmt).trans (issue_waits _ _ _ _ _ _ (.inr hw)), rfl⟩
  · have hrest := drained_rest (s.tile t) k
    refine ⟨_, exec_drainComplete hk hst, s.modTile t (fun v => v.drained k), rfl, onlyTile_modTile s t _, ?_⟩
    rw [State.tile_modTile_self]
    exact ⟨hrest.1, hrest.2, drained_bank _ k, drained_other _ k⟩
  · refine ⟨_, exec_drain_neighbour hc hu hq hne hk hw hj hf, ?_⟩
    beta_reduce
    rw [drainInto_sender s k fmt j hne, drainInto_receiver s k fmt j hne, Tile.bank_setBank_self, Tile.bank_setBank_other]
    refine ⟨rfl, beginDrain_satStatus _ k fmt, fun ht => ?_, readyBank_ready hj, rfl, addBlock_sat _ _ _, fun c hc => addBlock_cell _ _ _ hc,
      fun h1 ht hsend hrecv c hc => ?_, rfl, drainInto_frame s k fmt j, fun w => drainInto_tile_ne s k fmt j⟩
    · rw [bank_beginDrain_self ht]
      exact ⟨rfl, rfl⟩
    · rw [addBlock_cell _ _ _ hc, hrecv, h1]
      exact addEntry_f32 _ c ht hsend

end Sys2Proof.Machine
end

section
/-!
PROOFS. PRELOAD and twin mode: banks filled from rows (O13), pairs combined, read and replaced (O14).
-/
namespace Sys2Proof.Machine

open Sys2Proof

/-! ## Instructions of a tile that its sequencer issues -/

theorem issue_clear {s : State} {t : Nat} {w : Bool} (i : Instr) (run : State) (hc : s.tileClear t) (hw : w = false) :
    s.issue (s.owner t) (bayOf t) i w run = .next run := issue_runs _ _ _ _ _ _ hc.2.2.2 hw

/-- Rows without a struck word reach the tile as they stand. -/
theorem withRows_clean {s : State} {t : Nat} (row n : Nat) (f : Bytes → Tile → Tile) (hbad : (s.tile t).bad = []) :
    s.withRows t row n f = s.modTile t (f (s.rows t row n)) := by
  simp [State.withRows, State.engineRows_clean s _ t row n hbad]

section Exec
variable {s : State} {t r : Nat} (hworks : s.tileWorks t = true)
include hworks

theorem exec_preload {k : Nat} (int : Bool) (hk : k < 2) (hr : r + 8 ≤ 2048) : exec (.preload t k r int) s =
    s.issue (s.owner t) (bayOf t) (.preload t k r int) (s.preloadWaits t k) (s.doPreload t k r int) := by
  show execPreload t k r int s = _
  simp [execPreload, hworks, hk, hr, require]

theorem exec_twinBind {src : Option Nat} (hsrc : ∀ r, src = some r → r + 16 ≤ 2048) : exec (.twinBind t src) s =
    s.issue (s.owner t) (bayOf t) (.twinBind t src) (s.bindWaits t) (s.doTwinBind t src) := by
  have hall : src.all (fun r => decide (r + 16 ≤ 2048)) = true := by
    cases src with
    | none => rfl
    | some r => exact decide_eq_true (hsrc r rfl)
  show execTwinBind t src s = _
  simp only [execTwinBind, hworks, hall, require, Bool.and_self, if_true]

theorem exec_twinUnbind : exec (.twinUnbind t) s =
    s.issue (s.owner t) (bayOf t) (.twinUnbind t) (s.unbindWaits t) (s.doTwinUnbind t) := by
  show execTwinUnbind t s = _
  simp [execTwinUnbind, hworks, require]

theorem exec_stateOverwrite (hr : r + 16 ≤ 2048) : exec (.stateOverwrite t r) s =
    s.issue (s.owner t) (bayOf t) (.stateOverwrite t r) (s.pairsWait t) (s.doStateOverwrite t r) := by
  show execStateOverwrite t r s = _
  simp [execStateOverwrite, hworks, hr, require]

theorem exec_twinAdd {src : TwinSrc} (env : List Strike) (hsrc : twinSrcOk src = true) : exec (.twinAdd t src env) s =
    s.issue (s.owner t) (bayOf t) (.twinAdd t src env) (s.pairsWait t) (s.doTwinAdd t env src) := by
  show execTwinAdd t src env s = _
  simp [execTwinAdd, hworks, hsrc, require]

theorem exec_twinMul (hr : r + 8 ≤ 2048) : exec (.twinMul t r) s =
    s.issue (s.owner t) (bayOf t) (.twinMul t r) (s.pairsWait t) (s.doTwinMul t r) := by
  show execTwinMul t r s = _
  simp [execTwinMul, hworks, hr, require]

theorem exec_stateRead (hr : r + 8 ≤ 2048) : exec (.stateRead t r) s =
    s.issue (s.owner t) (bayOf t) (.stateRead t r) (s.pairsWait t) (s.doStateRead t r) := by
  show execStateRead t r s = _
  simp [execStateRead, hworks, hr, require]

end Exec

/-! ## Banks that are filled and left (R74, R75) -/

theorem preloadWaits_empty {s : State} {t k : Nat} (ht : (s.tile t).twin = false) (hst : ((s.tile t).bank k).st = .empty) :
    s.preloadWaits t k = false := by
  simp [State.preloadWaits, ht, hst]

theorem bindWaits_empty {s : State} {t : Nat} (h0 : (s.tile t).bank0.st = .empty) (h1 : (s.tile t).bank1.st = .empty) :
    s.bindWaits t = false := by
  simp [State.bindWaits, h0, h1]

theorem pairsWait_ready {s : State} {t : Nat} (h : (s.tile t).twinReady = true) : s.pairsWait t = false := by
  simp [State.pairsWait, h]

theorem preloaded_cell (int : Bool) (bs : Bytes) (c : Nat) : (preloaded int bs).cell c = (wordsOfBytes 1024 bs).getD c 0 := by
  have hcells : (preloaded int bs).cells = cellsOf (wordsOfBytes 1024 bs) := by unfold preloaded; with_reducible rfl
  exact cell_cellsOf hcells c

/-- Pairs that are set leave a tile in twin mode ready. -/
theorem twinReady_setPairs (v : Tile) (ws : List Word) : (v.setPairs ws).twinReady = v.twin := by
  simp [Tile.twinReady, Tile.setPairs, pairBank]

theorem twinReady_bind (v : Tile) (ws : List Word) : ({ v.setPairs ws with twin := true } : Tile).twinReady = true := rfl

theorem bind_pair (v : Tile) (ws : List Word) (c : Nat) :
    ({ v.setPairs ws with twin := true } : Tile).pair c = (ws.getD (2 * c) 0, ws.getD (2 * c + 1) 0) := setPairs_pair v ws c

/-- A preload of an EMPTY bank fills it; then the tile's queue goes on. -/
theorem preload_fills {s : State} {t k r : Nat} (int : Bool) (hc : s.tileClear t) (hk : k < 2) (ht : (s.tile t).twin = false)
    (hst : ((s.tile t).bank k).st = .empty) (hr : r + 8 ≤ 2048) : exec (.preload t k r int) s =
      .next ((s.modTile t (fun v => v.setBank k (preloaded int (s.rows t r 8)))).goMatrix t) := by
  rw [exec_preload hc.1 int hk hr, issue_clear _ _ hc (preloadWaits_empty ht hst)]
  simp only [State.doPreload, State.engineRows_clean s _ t r 8 hc.2.1]

theorem twinBind_zero {s : State} {t : Nat} (hc : s.tileClear t) (h0 : (s.tile t).bank0.st = .empty) (h1 : (s.tile t).bank1.st = .empty) :
    exec (.twinBind t none) s = .next (s.modTile t (fun v => { v.setPairs [] with twin := true })) := by
  rw [exec_twinBind hc.1 (fun r h => by cases h), issue_clear _ _ hc (bindWaits_empty h0 h1)]
  rfl

theorem twinBind_rows {s : State} {t r : Nat} (hc : s.tileClear t) (h0 : (s.tile t).bank0.st = .empty) (h1 : (s.tile t).bank1.st = .empty)
    (hr : r + 16 ≤ 2048) : exec (.twinBind t (some r)) s =
      .next (s.modTile t (fun v => { v.setPairs (wordsOfBytes 2048 (s.rows t r 16)) with twin := true })) := by
  rw [exec_twinBind hc.1 (fun q h => by cases h; exact hr), issue_clear _ _ hc (bindWaits_empty h0 h1), State.doTwinBind,
    withRows_clean _ _ _ hc.2.1]

theorem stateOverwrite_sets {s : State} {t r : Nat} (hc : s.tileClear t) (hready : (s.tile t).twinReady = true) (hr : r + 16 ≤ 2048) :
    exec (.stateOverwrite t r) s = .next (s.modTile t (fun v => v.setPairs (wordsOfBytes 2048 (s.rows t r 16)))) := by
  rw [exec_stateOverwrite hc.1 hr, issue_clear _ _ hc (pairsWait_ready hready), State.doStateOverwrite, withRows_clean _ _ _ hc.2.1]

theorem twinUnbind_leaves {s : State} {t : Nat} (hc : s.tileClear t) (h0 : (s.tile t).bank0.st = .empty)
    (h1 : (s.tile t).bank1.st = .empty) : exec (.twinUnbind t) s = .next (s.doTwinUnbind t) := by
  have hwait : s.unbindWaits t = false := by simp [State.unbindWaits, bindWaits_empty h0 h1]
  rw [exec_twinUnbind hc.1, issue_clear _ _ hc hwait]

/-- Settles O13: each instruction by its equation above, what its banks then hold by `preloaded_cell` and `setPairs_pair`. -/
theorem banksAreFilled : Obligations.BanksAreFilled := by
  refine ⟨fun s t k r int hc hk ht hst hr => ?_,
    fun s t k r int hworks hk hr hw => ⟨_, (exec_preload hworks int hk hr).trans (issue_waits _ _ _ _ _ _ (.inr hw)), rfl⟩,
    fun s t src hc h0 h1 hsrc => ?_,
    fun s t src hworks hsrc hw => ⟨_, (exec_twinBind hworks hsrc).trans (issue_waits _ _ _ _ _ _ (.inr hw)), rfl⟩,
    fun s t r hc hready hr => ?_, fun s t hc ht h0 h1 => ?_⟩
  · refine ⟨_, preload_fills int hc hk ht hst hr, _, rfl, ?_⟩
    rw [State.tile_modTile_self, Tile.bank_setBank_self, Tile.bank_setBank_other]
    exact ⟨rfl, rfl, rfl, fun c _ => preloaded_cell int _ c, rfl, (Tile.setBank_set _ k _).2, onlyTile_modTile s t _⟩
  · cases src with
    | none =>
      refine ⟨_, twinBind_zero hc h0 h1, ?_⟩
      beta_reduce
      rw [State.tile_modTile_self]
      exact ⟨twinReady_bind _ _, fun c _ => bind_pair _ [] c, onlyTile_modTile s t _⟩
    | some r =>
      refine ⟨_, twinBind_rows hc h0 h1 (hsrc r rfl), ?_⟩
      beta_reduce
      rw [State.tile_modTile_self]
      exact ⟨twinReady_bind _ _, fun c _ => bind_pair _ _ c, onlyTile_modTile s t _⟩
  · refine ⟨_, stateOverwrite_sets hc hready hr, ?_⟩
    beta_reduce
    rw [State.tile_modTile_self, twinReady_setPairs]
    exact ⟨((twinReady_iff _).mp hready).1, fun c _ => setPairs_pair _ _ c, onlyTile_modTile s t _⟩
  · refine ⟨_, twinUnbind_leaves hc h0 h1, _, rfl, ?_⟩
    rw [State.tile_modTile_self, if_pos ht]
    exact ⟨rfl, rfl, rfl, rfl, onlyTile_modTile s t _⟩

/-! ## Operations on pairs (R76, R195) -/

/-- A run of rows without a struck word updates every pair of the tile. -/
theorem mapPairs_rows {s : State} {t : Nat} (row n : Nat) (f : Bytes → Nat → Word × Word → Word × Word) (hbad : (s.tile t).bad = []) :
    let s' := s.withRows t row n (fun bs v => v.mapPairs (f bs))
    (∀ c, c < 1024 → (s'.tile t).pair c = f (s.rows t row n) c ((s.tile t).pair c)) ∧ onlyTile s s' t := by
  intro s'
  have hs' : s' = s.modTile t (fun v => v.mapPairs (f (s.rows t row n))) := withRows_clean row n _ hbad
  rw [hs', State.tile_modTile_self]
  exact ⟨fun c hc => mapPairs_pair _ _ c hc, onlyTile_modTile s t _⟩

/-- Where no word is struck and every pod expands, a k-slice is added to every pair. -/
theorem doTwinAdd_slice {s : State} {t : Nat} {a b : Desc} {bi bj : Nat} (sl : Nat) (hbad : (s.tile t).bad = [])
    (hpods : s.podTrouble t a b bi bj = none) : s.doTwinAdd t [] (.slice a b bi bj sl) =
      s.modTile t (fun v => v.mapPairs (fun c q => twinAddPair q (toF32 (s.sliceSum t
        (((s.part (s.owner t)).map (fun pt => pt.activeBank 1)).getD 0) a b (s.planeOf t a bi) (s.planeOf t b bj)
        (32 * bi + c / 32) (32 * bj + c % 32) sl)))) := by
  simp only [State.doTwinAdd, State.strike_nil, State.readRuns_clean s _ t _ hbad, hpods, Bool.false_eq_true, if_false]

/-- The cell of entry (i, n) of a block. -/
theorem cell_div_mod {i n : Nat} (hi : i < 32) (hn : n < 32) : 32 * i + n < 1024 ∧ (32 * i + n) / 32 = i ∧ (32 * i + n) % 32 = n := by omega

/-- The high parts stand in the rows that STATE_READ writes. -/
theorem read_doStateRead {s : State} {t r c b : Nat} (hr : r + 8 ≤ 2048) (hc : c < 1024) (hb : b < 4) :
    Mem.read 0#8 (s.doStateRead t r).mem.scratch (t * 2 ^ 20 + 512 * r + (4 * c + b)) =
      (leBytes 4 ((s.tile t).bank0.cell c).toNat).getD b 0#8 := by
  unfold State.doStateRead
  rw [read_after_writeRows s t r 8 _ _ hr (by omega),
    flatMap_getD (fun c => leBytes 4 ((s.tile t).bank0.cell c).toNat) 4 (fun _ => leBytes_length 4 _) _ c b hc hb]

theorem doStateRead_pair (s : State) (t r c : Nat) : ((s.doStateRead t r).tile t).pair c = (s.tile t).pair c := by
  obtain ⟨m, hm, -⟩ := State.writeRows_tile s t 8 r ((List.range 1024).flatMap (fun c => leBytes 4 ((s.tile t).bank0.cell c).toNat))
  unfold State.doStateRead
  rw [hm]
  rfl

/-- Settles O14: TWIN_ADD and TWIN_MUL by `mapPairs_rows` and `doTwinAdd_slice`, STATE_READ by `read_doStateRead`. -/
theorem twinOperations : Obligations.TwinOperations := by
  refine ⟨fun s t r hc hready hr => ?_, fun s t a b bi bj sl hc hready hsrc hpods => ?_, fun s t r hc hready hr => ?_,
    fun s t r hc hready hr => ?_, fun s t r hworks hready hr i hi => ?_⟩
  · exact ⟨_, (exec_twinAdd (src := .vector r) hc.1 [] (decide_eq_true hr)).trans (issue_clear _ _ hc (pairsWait_ready hready)),
      mapPairs_rows r 8 (fun bs c q => twinAddPair q ((wordsOfBytes 1024 bs).getD c 0)) hc.2.1⟩
  · refine ⟨_, (exec_twinAdd hc.1 [] hsrc).trans (issue_clear _ _ hc (pairsWait_ready hready)), ?_⟩
    rw [doTwinAdd_slice sl hc.2.1 hpods]
    refine ⟨fun i n hi hn => ?_, onlyTile_modTile s t _⟩
    obtain ⟨hlt, hdiv, hmod⟩ := cell_div_mod hi hn
    rw [State.tile_modTile_self, mapPairs_pair _ _ _ hlt, hdiv, hmod]
  · exact ⟨_, (exec_twinMul hc.1 hr).trans (issue_clear _ _ hc (pairsWait_ready hready)),
      mapPairs_rows r 8 (fun bs c q => twinMulPair q ((wordsOfBytes 1024 bs).getD c 0)) hc.2.1⟩
  · exact ⟨_, (exec_stateRead hc.1 hr).trans (issue_clear _ _ hc (pairsWait_ready hready)), fun c b => read_doStateRead hr,
      doStateRead_pair s t r, onlyRows_writeRows0 s t r 8 _ hr⟩
  · have hwait : s.pairsWait t = true := by simp [State.pairsWait, hready]
    simp only [List.mem_cons, List.not_mem_nil, or_false] at hi
    rcases hi with rfl | rfl | rfl
    · exact ⟨_, (exec_twinAdd (src := .vector r) hworks [] (decide_eq_true hr)).trans (issue_waits _ _ _ _ _ _ (.inr hwait)), rfl⟩
    · exact ⟨_, (exec_twinMul hworks hr).trans (issue_waits _ _ _ _ _ _ (.inr hwait)), rfl⟩
    · exact ⟨_, (exec_stateRead hworks hr).trans (issue_waits _ _ _ _ _ _ (.inr hwait)), rfl⟩

end Sys2Proof.Machine
end

section
/-!
PROOFS. STREAM_COMMIT: the vectors of a chunk's positions read, and the pairs of a slot advanced over them (O15).
-/
namespace Sys2Proof.Machine

open Sys2Proof

/-! ## Reads that find errors -/

/-- What reads with their errors found may change: the registers, and what the LPDDR5X unit notes. -/
def readsOnly (s t : State) : Prop := (t.setDram s.dram).setRegs s.regs = s

theorem readsOnly_refl (s : State) : readsOnly s s := rfl

theorem readsOnly_trans {a b c : State} (h1 : readsOnly a b) (h2 : readsOnly b c) : readsOnly a c :=
  (congrArg (fun x : State => (x.setDram a.dram).setRegs a.regs) h2 : _).trans h1

theorem readsOnly_eccFind (s : State) (p t r n : Nat) : readsOnly s (s.eccFind p t r n).1 :=
  congrArg (fun x : State => x.setDram s.dram) (eccFind_tiles s p t r n)

theorem readsOnly_shareReadChecked (s : State) (pt : Part) (off n : Nat) : readsOnly s (s.shareReadChecked pt off n).1 := by
  unfold State.shareReadChecked
  split
  · exact readsOnly_refl s
  · next rs _ =>
    have hfold : readsOnly s (rs.foldl (fun (acc : State × Bool) r =>
        let g := acc.1.burstFind r.1 r.2; (g.1, acc.2 || g.2)) (s, false)).1 := by
      refine foldl_inv (fun acc : State × Bool => readsOnly s acc.1) _ (fun acc r h => ?_) rs _ (readsOnly_refl s)
      exact readsOnly_trans h (burstFind_frame acc.1 r.1 r.2)
    dsimp only
    split
    · exact hfold
    · exact hfold

theorem readsOnly_planeRead (s : State) (p t : Nat) (pt : Part) (e : DmaEnd) : readsOnly s (s.planeRead p t pt e).1 := by
  unfold State.planeRead
  split
  · exact readsOnly_eccFind s p _ _ 8
  · exact readsOnly_trans (touchShare_only s _ pt _ 4096).1 (readsOnly_shareReadChecked _ pt _ 4096)
  · exact readsOnly_refl s

/-- Reading the vectors of a commit changes no memory, no tile and no partition. -/
theorem readsOnly_readPlanes (p t : Nat) (pt : Part) : ∀ (planes : List (DmaEnd × DmaEnd)) (s : State),
    readsOnly s (s.readPlanes p t pt planes).1
  | [], s => readsOnly_refl s
  | (a, x) :: planes, s => by
    have hvectors := readsOnly_trans (readsOnly_planeRead s p t pt a) (readsOnly_planeRead (s.planeRead p t pt a).1 p t pt x)
    simp only [State.readPlanes]
    split
    · exact readsOnly_trans hvectors (readsOnly_readPlanes p t pt planes _)
    · exact hvectors

/-- Clean rows of the tile are a commit's vectors as they stand (R200). -/
theorem planeRead_rows {s : State} {t : Nat} (p : Nat) (pt : Part) (r : Nat) (hbad : (s.tile t).bad = []) :
    s.planeRead p t pt (.rows t r) = (s, some (wordsOfBytes 1024 (s.rows t r 8))) := by
  simp only [State.planeRead, State.eccFind_clean s p t r 8 hbad, Bool.false_eq_true, if_false]

theorem readPlanes_rows {s : State} {t : Nat} (p : Nat) (pt : Part) (hbad : (s.tile t).bad = []) : ∀ rows : List (Nat × Nat),
    s.readPlanes p t pt (rows.map (fun r => (.rows t r.1, .rows t r.2))) =
      (s, some (rows.map (fun r => (wordsOfBytes 1024 (s.rows t r.1 8), wordsOfBytes 1024 (s.rows t r.2 8)))))
  | [] => rfl
  | r :: rows => by
    rw [List.map_cons, State.readPlanes]
    simp only [planeRead_rows p pt _ hbad, readPlanes_rows p pt hbad rows]
    rfl

/-! ## The commit -/

/-- A bound stream with a chunk whose slot has not committed owes the commit on the slot's tile. -/
theorem commitTile_owed {s : State} {p handle slot t : Nat} {pt : Part} {v : Strm} {ch : Chunk} (hp : s.part p = some pt)
    (hv : NMap.find pt.streams handle = some v) (hch : v.current = some ch) (ht : v.tiles[slot]? = some t) (hst : v.st = .bound)
    (hnew : slot ∉ v.committed) : s.commitTile p handle slot = some t := by
  simp [State.commitTile, hp, hv, hst, hch, hnew, ht]

/-- A commit that the step owes, with vectors for each position in places that R200 allows, reaches its sequencer. -/
theorem exec_streamCommit {s : State} {p handle slot t : Nat} {planes : List (DmaEnd × DmaEnd)} {pt : Part} {v : Strm} {ch : Chunk}
    (env : List Strike) (hp : s.part p = some pt) (hv : NMap.find pt.streams handle = some v) (hstp : pt.step.isSome = true)
    (hch : v.current = some ch) (ht : s.commitTile p handle slot = some t) (hlen : planes.length = ch.positions)
    (hok : ∀ r ∈ planes, planeOk t pt r.1 = true ∧ planeOk t pt r.2 = true) : exec (.streamCommit p handle slot planes env) s =
      s.issue p (bayOf t) (.streamCommit p handle slot planes env) (s.pairsWait t) (s.doCommit p handle slot planes env) := by
  have hall : planes.all (fun e => planeOk t pt e.1 && planeOk t pt e.2) = true :=
    List.all_eq_true.mpr (fun r hr => by rw [(hok r hr).1, (hok r hr).2]; rfl)
  show execStreamCommit p handle slot planes env s = _
  simp [execStreamCommit, hp, ht, hv, hch, hstp, hlen, hall, require]

/-- A commit whose vectors are read advances the pairs of its tile and is recorded with the stream. -/
theorem doCommit_advances {s : State} {p handle slot t : Nat} {planes : List (DmaEnd × DmaEnd)} {pt : Part} {v : Strm} {im : Image}
    {ch : Chunk} {ps : List (List Word × List Word)} (hp : s.part p = some pt) (hv : NMap.find pt.streams handle = some v)
    (him : pt.image = some im) (hch : v.current = some ch) (ht : s.commitTile p handle slot = some t) (hfail : s.stepFailed p = false)
    (hps : (s.readPlanes p t pt planes).2 = some ps) :
    let u := (s.readPlanes p t pt planes).1.modTile t (fun w => w.advanceAll (im.pairUsed slot) ch.marks ps)
    s.doCommit p handle slot planes [] = u.modPart p (fun q => q.committed handle slot ch.marks
      ((List.range 1024).any (fun c => nonFinite ((u.tile t).bank0.cell c)))) := by
  simp only [State.doCommit, hp, ht, hv, him, State.strike_nil, State.pathErrors_nil, hfail, hps, hch, Bool.false_eq_true, if_false,
    Option.map_some, Option.getD_some]

/-- What a commit records of its stream (R201, R202). -/
theorem committed_stream {pt : Part} {handle : Nat} {v : Strm} (slot : Nat) (marks : List Nat) (bad : Bool)
    (hv : NMap.find pt.streams handle = some v) : ∃ w, NMap.find (pt.committed handle slot marks bad).streams handle = some w ∧
      w.committed = slot :: v.committed ∧ (slot ∈ w.nonfinite ↔ bad = true) := by
  have hstreams : NMap.find (pt.committed handle slot marks bad).streams handle =
      some { v with committed := slot :: v.committed,
                    nonfinite := (v.nonfinite.filter (· != slot)) ++ (if bad then [slot] else []) } := by
    simp only [Part.committed, hv]
    exact NMap.find_insert_self _ _ _
  refine ⟨_, hstreams, rfl, ?_⟩
  cases bad <;> simp

/-- Settles O15: `doCommit_advances` on what `readPlanes` answers, the pairs by `advanceAll_pair`, the rows of a tile by `readPlanes_rows`. -/
theorem streamCommitAdvances : Obligations.StreamCommitAdvances := by
  refine ⟨fun s p handle slot t planes pt v im stp ch ps hp hv him hstp hch ht hst hnew hready hwait hfail hlen hok hps => ?_,
    fun s p t pt rows hbad _ => readPlanes_rows p pt hbad rows,
    fun s p handle slot t planes env pt v ch hp hv hstp hch ht hst hnew hready hlen hok => ?_⟩
  · have howed := commitTile_owed hp hv hch ht hst hnew
    have hrun := (exec_streamCommit [] hp hv (by rw [hstp]; rfl) hch howed hlen hok).trans
      (issue_runs _ _ _ _ _ _ hwait (pairsWait_ready hready))
    rw [doCommit_advances hp hv him hch howed hfail hps] at hrun
    have hreads := readsOnly_readPlanes p t pt planes s
    generalize (s.readPlanes p t pt planes).1 = s1 at hreads hrun
    have htile : ∀ u, s1.tile u = s.tile u := fun u => (congrArg (fun x : State => x.tile u) hreads :)
    have hpart : ∀ q, s1.part q = s.part q := fun q => (congrArg (fun x : State => x.part q) hreads :)
    have hmem : s1.mem = s.mem := (congrArg (fun x : State => x.mem) hreads :)
    have hadvanced : (s1.modTile t (fun w => w.advanceAll (im.pairUsed slot) ch.marks ps)).tile t =
        (s.tile t).advanceAll (im.pairUsed slot) ch.marks ps := by rw [State.tile_modTile_self, htile]
    have hothers : ∀ u, u ≠ t → (s1.modTile t (fun w => w.advanceAll (im.pairUsed slot) ch.marks ps)).tile u = s.tile u :=
      fun u hu => (State.tile_modTile_ne s1 _ hu).trans (htile u)
    have hpart' : ∀ q, (s1.modTile t (fun w => w.advanceAll (im.pairUsed slot) ch.marks ps)).part q = s.part q := hpart
    have hmem' : (s1.modTile t (fun w => w.advanceAll (im.pairUsed slot) ch.marks ps)).mem = s.mem := hmem
    generalize s1.modTile t (fun w => w.advanceAll (im.pairUsed slot) ch.marks ps) = u at hrun hadvanced hothers hpart' hmem'
    obtain ⟨w, hw, hcommitted, hnonfinite⟩ := committed_stream slot ch.marks
      ((List.range 1024).any (fun c => nonFinite ((u.tile t).bank0.cell c))) hv
    refine ⟨_, hrun, fun c hc => ?_, ⟨w, ?_, hcommitted, hnonfinite⟩, hmem', fun q hq => (State.part_modPart_ne _ _ hq).trans (hpart' q),
      hothers⟩
    · rw [State.modPart_tile, hadvanced, advanceAll_pair _ _ _ hc]
      rfl
    · rw [part_of_modPart _ ((hpart' p).trans hp)]
      exact hw
  · have hpairs : s.pairsWait t = true := by simp [State.pairsWait, hready]
    exact ⟨_, (exec_streamCommit env hp hv hstp hch (commitTile_owed hp hv hch ht hst hnew) hlen hok).trans
      (issue_waits _ _ _ _ _ _ (.inr hpairs)), rfl⟩

end Sys2Proof.Machine
end

section
/-!
PROOFS. SYNC, FLOW and END of a bay context (O24).
-/
namespace Sys2Proof.Machine

open Sys2Proof

theorem part_modCtx {s : State} {p : Nat} {pt : Part} (bay : Nat) (f : BayCtx → BayCtx) (hp : s.part p = some pt) :
    (s.modCtx p bay f).part p = some { pt with ctxs := NMap.insert pt.ctxs bay (f (pt.ctx bay)) } := part_of_modPart _ hp

/-! ## SYNC (R83) -/

/-- A SYNC on tiles of its bay, in a context that runs, reaches the sequencer at its instant. -/
theorem exec_sync {s : State} {p bay : Nat} {op : SyncOp} {pt : Part} (now : Nat) (hp : s.part p = some pt) (hrun : pt.running bay = true)
    (htiles : op.tiles.all (fun t => pt.tiles.contains t && bayOf t == bay) = true) : exec (.sync p bay now op) s =
      (s.at now).issue p bay (.sync p bay now op) ((s.at now).syncWaits p bay op) (((s.at now).doSync p bay op).pump p) := by
  show execSync p bay now op s = _
  simp only [execSync, hp, hrun, htiles, require, Bool.and_self, if_true]

/-- A SYNC without a partition barrier changes nothing when it is passed. -/
theorem doSync_plain (s : State) (p bay : Nat) {op : SyncOp} (h : op.partBarrier = false) : s.doSync p bay op = s := by
  unfold State.doSync
  split
  · rfl
  · rw [h]
    rfl

/-! ## Stalls (R272) -/

/-- A SYNC that has waited counts one stall with its time, by the cause noted with the completion that ended it. -/
theorem countStall_counts {s : State} {p bay since done cause : Nat} {pt : Part} (hp : s.part p = some pt)
    (hsync : (pt.ctx bay).sync = some { since := since, last := some (done, cause) }) :
    s.countStall p bay = (s.bump .tier p (4 * cause) 1).bump .tier p 0x14 (done - since) := by
  simp only [State.countStall, hp, Option.bind_some, hsync, Option.map_some]

/-! ## FLOW (R83) -/

theorem exec_flow {s : State} {p bay : Nat} {pt : Part} (a : Nat) (op : FlowOp) (hp : s.part p = some pt) (hrun : pt.running bay = true) :
    exec (.flow p bay a op) s = s.issue p bay (.flow p bay a op) false (s.doFlow p bay a op) := by
  show execFlow p bay a op s = _
  simp only [execFlow, hp, hrun, require, if_true]

/-- A context at a loop's end: it goes back while rounds are left, and otherwise leaves the loop; without a loop it goes on (log entry 93). -/
def BayCtx.loopedBack (c : BayCtx) (a : Nat) : BayCtx :=
  let l := c.loops.headD (0, 0)
  if 1 < l.2 then { c with pc := l.1, loops := (l.1, l.2 - 1) :: c.loops.tail } else { c with pc := a + 1, loops := c.loops.tail }

theorem part_loopBack {s : State} {p : Nat} {pt : Part} (bay a : Nat) (hp : s.part p = some pt) :
    (s.doFlow p bay a .loopBack).part p = some { pt with ctxs := NMap.insert pt.ctxs bay ((pt.ctx bay).loopedBack a) } := by
  refine (part_modCtx bay _ hp).trans ?_
  generalize pt.ctx bay = c
  obtain ⟨pc, loops, ended, waiting, sync⟩ := c
  cases loops with
  | nil => rfl
  | cons l ls => rfl

/-! ## END (R18, R82) -/

theorem exec_endStep {s : State} {p bay : Nat} {pt : Part} (hp : s.part p = some pt) (hrun : pt.running bay = true)
    (hfail : s.stepFailed p = false) : exec (.endStep p bay) s = s.issue p bay (.endStep p bay) (s.endWaits p bay) ((s.doEnd p bay).pump p) := by
  show execEndStep p bay s = _
  simp [execEndStep, hp, hrun, hfail, require]

theorem endWaits_part {s : State} {p : Nat} {pt : Part} (bay : Nat) (hp : s.part p = some pt) : s.endWaits p bay = !s.bayRetired p pt bay := by
  simp [State.endWaits, hp]

/-- The partition with the context of a bay ended. -/
def Part.endBay (pt : Part) (bay : Nat) : Part := { pt with ctxs := NMap.insert pt.ctxs bay { pt.ctx bay with ended := true } }

theorem endBay_ctx_self (pt : Part) (bay : Nat) : ((pt.endBay bay).ctx bay).ended = true := by
  unfold Part.endBay
  rw [ctx_insert_self]

theorem endBay_ctx_ne (pt : Part) {bay b : Nat} (h : b ≠ bay) : (pt.endBay bay).ctx b = pt.ctx b := ctx_insert_ne pt _ h

/-- With the context of a bay ended all have ended where the others had. -/
theorem endBay_all (pt : Part) (bay : Nat) :
    (pt.endBay bay).bays.all (fun b => ((pt.endBay bay).ctx b).ended) = pt.bays.all (fun b => b == bay || (pt.ctx b).ended) := by
  refine List.all_congr rfl (fun b => ?_)
  by_cases h : b = bay
  · subst h
    rw [endBay_ctx_self, beq_self_eq_true, Bool.true_or]
  · rw [endBay_ctx_ne pt h, beq_eq_false_iff_ne.mpr h, Bool.false_or]

/-- The partition after END: with its last bay its step ends. -/
def Part.atEnd (pt : Part) (bay : Nat) : Part :=
  if pt.bays.all (fun b => b == bay || (pt.ctx b).ended)
  then { pt.endBay bay with step := pt.step.map (fun v => { v with finished := true }) } else pt.endBay bay

theorem part_doEnd {s : State} {p : Nat} {pt : Part} (bay : Nat) (hp : s.part p = some pt) : (s.doEnd p bay).part p = some (pt.atEnd bay) := by
  unfold State.doEnd Part.atEnd
  rw [part_of_modPart _ (part_modCtx bay _ hp), ← endBay_all]
  rfl

theorem onlyPart_doEnd (s : State) (p bay : Nat) : onlyPart s (s.doEnd p bay) p := by
  unfold State.doEnd State.modCtx
  rw [State.modPart_modPart]
  exact onlyPart_modPart s p _

theorem atEnd_ctx (pt : Part) (bay : Nat) :
    ((pt.atEnd bay).ctx bay).ended = true ∧ ∀ b, b ≠ bay → (pt.atEnd bay).ctx b = pt.ctx b := by
  have hctx : ∀ b, (pt.atEnd bay).ctx b = (pt.endBay bay).ctx b := fun b => by
    unfold Part.atEnd
    split <;> rfl
  exact ⟨by rw [hctx, endBay_ctx_self], fun b hb => by rw [hctx, endBay_ctx_ne pt hb]⟩

theorem atEnd_finished (pt : Part) (bay : Nat) : (pt.atEnd bay).step.map (·.finished) =
    pt.step.map (fun v => if pt.bays.all (fun b => b == bay || (pt.ctx b).ended) then true else v.finished) := by
  unfold Part.atEnd
  cases pt.bays.all (fun b => b == bay || (pt.ctx b).ended) with
  | true =>
    rw [if_pos rfl]
    exact Option.map_map _ _ _
  | false => rfl

theorem atEnd_rest (pt : Part) (bay : Nat) : ({ pt.atEnd bay with ctxs := pt.ctxs, step := pt.step } : Part) = pt := by
  unfold Part.atEnd
  split <;> rfl

/-- Settles O24: SYNC by `doSync_plain`, its stall by `countStall_counts`, FLOW case by case, END by the laws of `Part.atEnd`. -/
theorem sequencerFlow : Obligations.SequencerFlow := by
  refine ⟨fun s p bay now op pt hp hrun htiles => ⟨fun hnone hpass => ?_, fun hwait => ?_⟩,
    fun s p bay since done cause pt hp hsync hcause => ?_, fun s p bay a op pt hp hrun => ⟨fun hnone => ?_, fun hwait => ?_⟩,
    fun s p bay pt hp hrun hfail => ⟨fun hnone hret => ?_, fun hwait => ?_⟩⟩
  · exact ⟨_, (exec_sync now hp hrun htiles).trans (issue_runs _ _ _ _ _ _ hnone hpass), _, rfl, rfl, fun h => doSync_plain _ p bay h⟩
  · exact ⟨_, (exec_sync now hp hrun htiles).trans (issue_waits _ _ _ _ _ _ hwait), rfl⟩
  · intro u
    have hu : u = _ := countStall_counts hp hsync
    rw [hu]
    refine ⟨?_, ?_, rfl⟩
    · rw [reg_bump_ne _ _ _ _ (by omega), State.reg_bump_self]
    · rw [State.reg_bump_self, reg_bump_ne _ _ _ _ (by omega)]
  · refine ⟨_, (exec_flow a op hp hrun).trans (issue_runs _ _ _ _ _ _ hnone rfl), ?_⟩
    cases op with
    | loop n => exact ⟨part_modCtx bay _ hp, onlyPart_modPart _ _ _⟩
    | loopBack => exact ⟨part_loopBack bay a hp, onlyPart_modPart _ _ _⟩
    | branchField w v d =>
      refine ⟨(part_modCtx bay _ hp).trans ?_, onlyPart_modPart _ _ _⟩
      simp only [hp, Option.bind_some]
      rfl
    | branchStatus u d => exact ⟨part_modCtx bay _ hp, onlyPart_modPart _ _ _⟩
  · exact ⟨_, (exec_flow a op hp hrun).trans (issue_waits _ _ _ _ _ _ (.inl hwait)), rfl⟩
  · obtain ⟨hended, hothers⟩ := atEnd_ctx pt bay
    exact ⟨_, (exec_endStep hp hrun hfail).trans (issue_runs _ _ _ _ _ _ hnone (by rw [endWaits_part bay hp, hret]; rfl)), _, rfl, _,
      part_doEnd bay hp, hended, hothers, atEnd_finished pt bay, atEnd_rest pt bay, onlyPart_doEnd s p bay⟩
  · refine ⟨_, (exec_endStep hp hrun hfail).trans (issue_waits _ _ _ _ _ _ (hwait.imp_right (fun h => ?_))), rfl⟩
    rw [endWaits_part bay hp, h]
    rfl

end Sys2Proof.Machine
end

section
/-!
PROOFS. The gather buffer, lane tables, the SFU and random draws of the lanes (O18).
-/
namespace Sys2Proof.Machine

open Sys2Proof

/-! ## The gather buffer read (R105) -/

/-- Word `i` of a run of bytes within a scratchpad. -/
theorem word_scratchBytes (s : State) (t : Nat) {a n i : Nat} (ha : a + n ≤ 2 ^ 20) (hi : i < n / 4) :
    (wordsOfBytes (n / 4) (s.scratchBytes t a n)).getD i 0 = BitVec.ofNat 32 (ofLe (s.scratchBytes t (a + 4 * i) 4)) := by
  rw [wordsOfBytes_getD _ _ _ hi]
  unfold State.scratchBytes
  rw [readN_drop_take _ _ _ _ _ _ (by omega), key_add (by omega)]

/-- A crew whose active lanes have got their bytes in `n` registers from `d`. -/
def Crew.gathered (k : Crew) (d n : Nat) (f : Nat → Nat → Word) : Crew :=
  (List.range 64).foldl (fun c l => if k.on l then (List.range n).foldl (fun c i => c.set l (d + i) (f l i)) c else c) k

theorem gathered_get (k : Crew) {d n : Nat} (f : Nat → Nat → Word) (hd : d + n ≤ 32) {l r : Nat} (hl : l < 64) (hr : r < 32) :
    (k.gathered d n f).get l r = if k.on l = true ∧ d ≤ r ∧ r < d + n then f l (r - d) else k.get l r := by
  rw [Crew.gathered, Crew.foldl_lanes k d n f hd 64 l r hr]
  simp only [hl, true_and]

theorem gathered_active (k : Crew) (d n : Nat) (f : Nat → Nat → Word) : (k.gathered d n f).active = k.active :=
  Crew.foldl_lanes_active k d n f _ k

/-- Where no word is struck a gather read delivers to every active lane the words at its address. -/
theorem exec_gatherRead {s : State} {t crew width addr d : Nat} (hr : s.crewReady t crew = true) (hc : s.tileClear t)
    (hw : gatherWidth width = true) (ha : addr < 32) (hd : d + width / 4 ≤ 32) : exec (.gatherRead t crew width addr d []) s =
      .next (s.putCrew t crew (((s.tile t).crew crew).gathered d (width / 4) (fun l i =>
        (wordsOfBytes (width / 4) (s.scratchBytes t (gatherAddr (((s.tile t).crew crew).get l addr) width) width)).getD i 0))) := by
  obtain ⟨-, hbad, hfail, -⟩ := hc
  show execGatherRead t crew width addr d [] s = _
  simp only [execGatherRead, hr, hw, ha, hd, require, State.strike_nil, State.pathErrors_nil, State.readRuns_clean s _ t _ hbad, hfail,
    decide_true, Bool.and_self, if_true, Bool.false_eq_true, if_false]
  rfl

/-! ## The gather buffer written (R106) -/

/-- Where no word is struck the bytes are merged in their order. -/
theorem mergeRows_clean {s : State} {t : Nat} (p : Nat) (rows : List Nat) (writes : List (Nat × Bytes)) (hbad : (s.tile t).bad = []) :
    (s.mergeRows p t rows writes).1 =
      (s.setScratch (writes.foldl (fun m w => Mem.writeN 0#8 m (scratchKey t w.1) w.2) s.mem.scratch)).modTile t (fun v =>
        { v with bad := rows.foldl (fun b r => NMap.eraseRange b (64 * r) (64 * r + 64)) v.bad }) := by
  simp only [State.mergeRows, State.readRuns_clean s p t _ hbad, Bool.false_eq_true, if_false]

/-- The bytes that a lane of a gather write stores. -/
def Crew.laneBytes (k : Crew) (a width l : Nat) : Bytes := bytesOfWords ((List.range (width / 4)).map (fun i => k.get l (a + i)))

theorem width_words {width : Nat} (hw : gatherWidth width = true) : 4 * (width / 4) = width := by
  rcases gatherWidth_cases hw with rfl | rfl | rfl | rfl | rfl <;> rfl

theorem laneBytes_length (k : Crew) (a l : Nat) {width : Nat} (hw : gatherWidth width = true) : (k.laneBytes a width l).length = width := by
  rw [Crew.laneBytes, bytesOfWords_length, List.length_map, List.length_range, width_words hw]

theorem laneBytes_getD (k : Crew) (a l : Nat) {width x : Nat} (hw : gatherWidth width = true) (hx : x < width) :
    (k.laneBytes a width l).getD x 0#8 = (leBytes 4 (k.get l (a + x / 4)).toNat).getD (x % 4) 0#8 :=
  bytesOfWords_getD (fun i => k.get l (a + i)) (width / 4) x (by rw [width_words hw]; exact hx)

/-- The scratchpads after a gather write: the lanes' bytes one after the other, by rising lane. -/
def State.scattered (s : State) (t : Nat) (k : Crew) (width addr a : Nat) : Mem :=
  (((List.range 64).filter k.on).map (fun l => (gatherAddr (k.get l addr) width, k.laneBytes a width l))).foldl
    (fun m w => Mem.writeN 0#8 m (scratchKey t w.1) w.2) s.mem.scratch

/-- A tile whose rows have been written anew: their struck words are cleared (R110). -/
def Tile.mended (rows : List Nat) (v : Tile) : Tile :=
  { v with bad := rows.foldl (fun b r => NMap.eraseRange b (64 * r) (64 * r + 64)) v.bad }

theorem exec_gatherWrite {s : State} {t crew width addr a : Nat} (hr : s.crewReady t crew = true) (hc : s.tileClear t)
    (hw : gatherWidth width = true) (ha : addr < 32) (hd : a + width / 4 ≤ 32) : exec (.gatherWrite t crew width addr a) s =
      .next ((s.setScratch (s.scattered t ((s.tile t).crew crew) width addr a)).modTile t
        (Tile.mended (gatherRows ((s.tile t).crew crew) width addr))) := by
  show execGatherWrite t crew width addr a s = _
  simp only [execGatherWrite, hr, hw, ha, hd, require, mergeRows_clean _ _ _ hc.2.1, decide_true, Bool.and_self, if_true]
  rfl

section Scattered
variable {s : State} {t width addr a : Nat} (k : Crew) (hw : gatherWidth width = true)
include hw

/-- A byte that a lane stores, and no higher one, holds that lane's byte. -/
theorem read_scattered_lane {l x : Nat} (hl : l < 64) (hon : k.on l = true) (hx : x < width)
    (hlast : ∀ m, l < m → m < 64 → k.on m = true →
      ¬(gatherAddr (k.get m addr) width ≤ gatherAddr (k.get l addr) width + x ∧
        gatherAddr (k.get l addr) width + x < gatherAddr (k.get m addr) width + width)) :
    Mem.read 0#8 (s.scattered t k width addr a) (scratchKey t (gatherAddr (k.get l addr) width + x)) =
      (leBytes 4 (k.get l (a + x / 4)).toNat).getD (x % 4) 0#8 := by
  have hkey : ∀ m y, y < width → scratchKey t (gatherAddr (k.get m addr) width + y) = t * 2 ^ 20 + (gatherAddr (k.get m addr) width + y) :=
    fun m y hy => scratchKey_lt (by have := gatherAddr_lt (k.get m addr) width hw; omega)
  have hkey0 : ∀ m, scratchKey t (gatherAddr (k.get m addr) width) = t * 2 ^ 20 + gatherAddr (k.get m addr) width :=
    fun m => hkey m 0 (by omega)
  have hread := (scatter_read t k.on (fun m => gatherAddr (k.get m addr) width) (k.laneBytes a width) s.mem.scratch
    (scratchKey t (gatherAddr (k.get l addr) width + x)) 64).1 l hl hon
  simp only [laneBytes_length k a _ hw, hkey l x hx, hkey0] at hread
  rw [hkey l x hx]
  refine (hread (by omega) (fun m h1 h2 h3 hin => hlast m h1 h2 h3 (by omega))).trans ?_
  rw [show t * 2 ^ 20 + (gatherAddr (k.get l addr) width + x) - (t * 2 ^ 20 + gatherAddr (k.get l addr) width) = x by omega,
    laneBytes_getD k a l hw hx]

/-- A byte that no active lane stores stays. -/
theorem read_scattered_outside {x : Nat} (hout : ∀ l, l < 64 → k.on l = true →
      ¬(scratchKey t (gatherAddr (k.get l addr) width) ≤ x ∧ x < scratchKey t (gatherAddr (k.get l addr) width) + width)) :
    Mem.read 0#8 (s.scattered t k width addr a) x = Mem.read 0#8 s.mem.scratch x := by
  refine (scatter_read t k.on (fun m => gatherAddr (k.get m addr) width) (k.laneBytes a width) s.mem.scratch x 64).2 (fun l hl hon => ?_)
  rw [laneBytes_length k a l hw]
  exact hout l hl hon

end Scattered

/-! ## Lane tables (R80, R86, R90) -/

theorem exec_laneTableLookup {s : State} {t crew width slot idx d : Nat} (hr : s.crewReady t crew = true)
    (hw : width = 8 ∨ width = 16 ∨ width = 32) (hs : slot < 8) (hi : idx < 32) (hd : d < 32) :
    exec (.laneTableLookup t crew width slot idx d) s = .next (s.putCrew t crew (((s.tile t).crew crew).eachLane d (fun l =>
      BitVec.ofNat 32 (ofLe ((s.tile t).tableBytes (((s.part (s.owner t)).map (fun pt => pt.activeBank 0)).getD 0) 0 slot
        (width / 8 * ((((s.tile t).crew crew).get l idx).toNat % (16384 / width))) (width / 8)))))) := by
  show execLaneTableLookup t crew width slot idx d s = _
  rcases hw with rfl | rfl | rfl <;> simp [execLaneTableLookup, hr, hs, hi, hd, require]

/-- An instruction that sets a register of a crew's active lanes changes that crew alone. -/
theorem putCrew_eachLane (s : State) (t crew : Nat) {d : Nat} (f : Nat → Word) (hd : d < 32) :
    let s' := s.putCrew t crew (((s.tile t).crew crew).eachLane d f)
    Crew.writes ((s.tile t).crew crew) ((s'.tile t).crew crew) d f ∧ onlyCrew s s' t crew := by
  intro s'
  rw [show (s'.tile t).crew crew = _ from crew_putCrew s t crew _]
  exact ⟨Crew.writes_eachLane _ d f hd, onlyCrew_putCrew s t crew _⟩

/-! ## The SFU (R133, R134, R153) -/

/-- The result of the SFU in lane `l`. -/
def Crew.sfuResult (k : Crew) (fn mode inFmt out a b : Nat) (upper rotary : Bool) (l : Nat) : SfuOut :=
  if rotary then sfuRotary fn mode out (k.get l a) (k.get l b) else sfu fn mode out (sfuInput inFmt upper (k.get l a))

/-- Counting results with a step leaves the crew as it is, and the other partitions. -/
theorem onlyCrew_countSfu {s u : State} {t crew : Nat} (p clamps nans : Nat) (h : onlyCrew s u t crew) :
    onlyCrew s ((u.countSfu p clamps nans).setParts s.parts) t crew ∧ (u.countSfu p clamps nans).mem = s.mem ∧
      (u.countSfu p clamps nans).regs = s.regs ∧ ∀ q, q ≠ p → (u.countSfu p clamps nans).part q = s.part q := by
  have hframe := h.1.1
  have hparts : s.parts = u.parts := (congrArg (fun x : State => x.parts) hframe :).symm
  refine ⟨?_, (congrArg (fun x : State => x.mem) hframe :), (congrArg (fun x : State => x.regs) hframe :), fun q hq => ?_⟩
  · rw [hparts]
    exact h
  · exact (State.part_modPart_ne u _ hq).trans (congrArg (fun x : State => x.part q) hframe :)

/-- Active lanes whose result has a mark. -/
def Crew.countResults (k : Crew) (r : Nat → SfuOut) (f : SfuOut → Bool) : Nat :=
  (((List.range 64).filter k.on).filter (fun l => f (((List.range 64).map r).getD l default))).length

/-- The ROTARY form is one of SIN and COS. -/
theorem rotary_form {rotary : Bool} {fn : Nat} (h : rotary = true → fn = 14 ∨ fn = 15) : (!rotary || fn == 14 || fn == 15) = true := by
  cases rotary with
  | false => rfl
  | true => rcases h rfl with rfl | rfl <;> rfl

section Sfu
variable {s : State} {t crew fn inFmt out d a b : Nat} {upper rotary : Bool} (hr : s.crewReady t crew = true)
  (hfail : s.stepFailed (s.owner t) = false) (hfn : fn < 16) (hi1 : 1 ≤ inFmt) (hi3 : inFmt ≤ 3) (ho1 : 1 ≤ out) (ho3 : out ≤ 3) (hd : d < 32)
  (ha : a < 32) (hb : b < 32) (hrot : rotary = true → fn = 14 ∨ fn = 15)
include hr hfail hfn hi1 hi3 ho1 ho3 hd ha hb hrot

/-- An SFU instruction writes the function's code in every active lane and counts its clamps and NaNs with the step. -/
theorem exec_sfuLane :
    let k := (s.tile t).crew crew
    let r := k.sfuResult fn (s.sfuMode (s.owner t)) inFmt out a b upper rotary
    exec (.sfuLane t crew fn inFmt out upper rotary d a b []) s =
      .next ((s.putCrew t crew (k.eachLane d (fun l => sfuOutput out upper (k.get l d) (((List.range 64).map r).getD l default).code))).countSfu
        (s.owner t) (k.countResults r (·.clamp)) (k.countResults r (·.nan))) := by
  have hform := rotary_form hrot
  show execSfuLane t crew fn inFmt out upper rotary d a b [] s = _
  simp only [execSfuLane, hr, hfn, hi1, hi3, ho1, ho3, hd, ha, hb, hform, hfail, require, State.strike_nil, State.pathErrors_nil,
    decide_true, Bool.and_self, if_true, Bool.false_eq_true, if_false, romStruck, List.any_nil]
  rfl

/-- With a ROM parity error there is no result and the step fails (R153). -/
theorem exec_sfuLane_parity : exec (.sfuLane t crew fn inFmt out upper rotary d a b [.romParity t]) s = .next (s.romFail (s.owner t)) := by
  have hform := rotary_form hrot
  have hclean : (s.strike [.romParity t]).pathErrors (s.owner t) [.romParity t] = s := rfl
  have hstruck : romStruck t [.romParity t] = true := by simp [romStruck]
  show execSfuLane t crew fn inFmt out upper rotary d a b [.romParity t] s = _
  simp only [execSfuLane, hr, hfn, hi1, hi3, ho1, ho3, hd, ha, hb, hform, hfail, require, hclean, hstruck,
    decide_true, Bool.and_self, if_true, Bool.false_eq_true, if_false]

theorem sfuLane_writes : completes (.sfuLane t crew fn inFmt out upper rotary d a b []) s (fun s' =>
    Crew.writes ((s.tile t).crew crew) ((s'.tile t).crew crew) d (fun l => sfuOutput out upper (((s.tile t).crew crew).get l d)
      (((s.tile t).crew crew).sfuResult fn (s.sfuMode (s.owner t)) inFmt out a b upper rotary l).code) ∧
    onlyCrew s (s'.setParts s.parts) t crew ∧ s'.mem = s.mem ∧ s'.regs = s.regs ∧ ∀ q, q ≠ s.owner t → s'.part q = s.part q) := by
  have hexec := exec_sfuLane (upper := upper) hr hfail hfn hi1 hi3 ho1 ho3 hd ha hb hrot
  dsimp only at hexec
  generalize ((s.tile t).crew crew).sfuResult fn (s.sfuMode (s.owner t)) inFmt out a b upper rotary = r at hexec ⊢
  obtain ⟨hwrites, honly⟩ := putCrew_eachLane s t crew
    (fun l => sfuOutput out upper (((s.tile t).crew crew).get l d) (((List.range 64).map r).getD l default).code) hd
  have hresults := Crew.writes_congr (g := fun l => sfuOutput out upper (((s.tile t).crew crew).get l d) (r l).code) hwrites
    (fun l hl => by rw [getD_map_range _ _ _ _ hl])
  generalize s.putCrew t crew (((s.tile t).crew crew).eachLane d _) = u at hexec hresults honly
  exact ⟨_, hexec, hresults, onlyCrew_countSfu _ _ _ honly⟩

end Sfu

/-! ## Random draws (R93) -/

theorem eachLane_on (k : Crew) (d : Nat) (f : Nat → Word) (hd : d < 32) (l : Nat) : (k.eachLane d f).on l = k.on l :=
  congrArg (fun a : Dword => a.getLsbD l) (Crew.writes_eachLane k d f hd).1

theorem eachLane_get (k : Crew) {d : Nat} (f : Nat → Word) (hd : d < 32) {l r : Nat} (hl : l < 64) (hr : r < 32) :
    (k.eachLane d f).get l r = if k.on l = true ∧ r = d then f l else k.get l r := by
  obtain ⟨-, -, -, hget⟩ := Crew.writes_eachLane k d f hd
  exact hget l r hl hr

/-- A crew with four words in the registers from `d` of its active lanes. -/
def Crew.drawn (k : Crew) (d : Nat) (w : Word × Word × Word × Word) : Crew :=
  (((k.eachLane d (fun _ => w.1)).eachLane (d + 1) (fun _ => w.2.1)).eachLane (d + 2) (fun _ => w.2.2.1)).eachLane (d + 3) (fun _ => w.2.2.2)

theorem drawn_get (k : Crew) {d : Nat} (w : Word × Word × Word × Word) (hd : d + 4 ≤ 32) {l r : Nat} (hl : l < 64) (hr : r < 32) :
    (k.drawn d w).get l r = if k.on l = true ∧ r = d + 3 then w.2.2.2 else if k.on l = true ∧ r = d + 2 then w.2.2.1
      else if k.on l = true ∧ r = d + 1 then w.2.1 else if k.on l = true ∧ r = d then w.1 else k.get l r := by
  have h0 : d < 32 := by omega
  have h1 : d + 1 < 32 := by omega
  have h2 : d + 2 < 32 := by omega
  have h3 : d + 3 < 32 := by omega
  unfold Crew.drawn
  rw [eachLane_get _ _ h3 hl hr, eachLane_get _ _ h2 hl hr, eachLane_get _ _ h1 hl hr, eachLane_get _ _ h0 hl hr,
    eachLane_on _ _ _ h2, eachLane_on _ _ _ h1, eachLane_on _ _ _ h0]

theorem drawn_words (k : Crew) {d : Nat} (w : Word × Word × Word × Word) (hd : d + 4 ≤ 32) {l : Nat} (hl : l < 64) (hon : k.on l = true) :
    (k.drawn d w).get l d = w.1 ∧ (k.drawn d w).get l (d + 1) = w.2.1 ∧ (k.drawn d w).get l (d + 2) = w.2.2.1 ∧
      (k.drawn d w).get l (d + 3) = w.2.2.2 := by
  have hget := fun i (hi : i < 4) => drawn_get k w hd hl (show d + i < 32 by omega)
  have h0 := hget 0 (by omega)
  have h1 := hget 1 (by omega)
  have h2 := hget 2 (by omega)
  have h3 := hget 3 (by omega)
  simp [hon] at h0 h1 h2 h3
  exact ⟨h0, h1, h2, h3⟩

theorem drawn_rest (k : Crew) {d : Nat} (w : Word × Word × Word × Word) (hd : d + 4 ≤ 32) {l r : Nat} (hl : l < 64) (hr : r < 32)
    (hout : k.on l = false ∨ r < d ∨ d + 4 ≤ r) : (k.drawn d w).get l r = k.get l r := by
  rw [drawn_get k w hd hl hr]
  rcases hout with hoff | hout
  · simp [hoff]
  · rw [if_neg (by omega), if_neg (by omega), if_neg (by omega), if_neg (by omega)]

theorem exec_randomDraw {s : State} {t crew d : Nat} (seed : Dword) (pos draw beam : Nat) (hr : s.crewReady t crew = true) (hd : d + 4 ≤ 32) :
    exec (.randomDraw t crew seed pos draw beam d) s = .next (s.putCrew t crew (((s.tile t).crew crew).drawn d
      (philox 10 (BitVec.ofNat 32 pos) (BitVec.ofNat 32 draw) (BitVec.ofNat 32 beam) 0#32 (BitVec.ofNat 32 seed.toNat)
        (BitVec.ofNat 32 (seed.toNat / 2 ^ 32))))) := by
  show execRandomDraw t crew seed pos draw beam d s = _
  simp only [execRandomDraw, hr, hd, require, decide_true, Bool.and_self, if_true]
  rfl

/-- Settles O18: each instruction by its `exec_` equation, what its lanes then hold by the laws of `Crew.gathered`, `State.scattered`,
`Crew.eachLane` and `Crew.drawn`. -/
theorem gatherAndLaneUnits : Obligations.GatherAndLaneUnits := by
  refine ⟨fun s t crew width addr d hr hc hw ha hd => ?_, fun s t crew width addr a hr hc hw ha hd => ?_,
    fun s t crew width slot idx d hr hw hs hi hd => ⟨_, exec_laneTableLookup hr hw hs hi hd, putCrew_eachLane s t crew _ hd⟩,
    fun s t crew fn inFmt out d a b upper rotary hr hfail hfn hi1 hi3 ho1 ho3 hd ha hb hrot => ⟨?_, ?_⟩,
    fun s t crew pos draw beam d seed hr hd => ?_⟩
  · refine ⟨_, exec_gatherRead hr hc hw ha hd, ?_⟩
    beta_reduce
    rw [crew_putCrew]
    refine ⟨gathered_active _ _ _ _, fun l i hl hi hon => ?_, fun l r hl hr hout => ?_, onlyCrew_putCrew s t crew _⟩
    · rw [gathered_get _ _ hd hl (by omega), if_pos ⟨hon, by omega, by omega⟩, Nat.add_sub_cancel_left,
        word_scratchBytes s t (gatherAddr_lt _ _ hw) hi]
    · rw [gathered_get _ _ hd hl hr, if_neg]
      rintro ⟨hon, h1, h2⟩
      rcases hout with hoff | hout
      · rw [hon] at hoff
        cases hoff
      · omega
  · refine ⟨_, exec_gatherWrite hr hc hw ha hd, fun l x hl hon hx hlast => read_scattered_lane _ hw hl hon hx hlast, fun x hout => read_scattered_outside _ hw hout,
      rfl, rfl, ?_, fun u hu => State.tile_modTile_ne _ _ hu⟩
    rw [State.tile_modTile_self, State.setScratch_tile]
    rfl
  · obtain ⟨s', hexec, hwrites, hrest⟩ := sfuLane_writes (upper := upper) hr hfail hfn hi1 hi3 ho1 ho3 hd ha hb hrot
    refine ⟨s', hexec, Crew.writes_congr hwrites (fun l _ => ?_), hrest⟩
    cases rotary <;> rfl
  · exact ⟨_, exec_sfuLane_parity hr hfail hfn hi1 hi3 ho1 ho3 hd ha hb hrot, rfl⟩
  · refine ⟨_, exec_randomDraw seed pos draw beam hr hd, ?_⟩
    beta_reduce
    rw [crew_putCrew]
    exact ⟨fun l hl hon => drawn_words _ _ hd hl hon, fun l r hl hr hout => drawn_rest _ _ hd hl hr hout, onlyCrew_putCrew s t crew _⟩

end Sys2Proof.Machine
end

section
/-!
PROOFS. MATRIX: the next block of an operation accumulated in a bank of each tile (O11).
-/
namespace Sys2Proof.Machine

open Sys2Proof

/-! ## A block accumulated (R63, R66, R71) -/

/-- The table bank whose codebooks a tile's operands use. -/
def State.codebookBank (s : State) (t : Nat) : Nat := ((s.part (s.owner t)).map (fun pt => pt.activeBank 1)).getD 0

/-- A bank after the next block of an operation. -/
def State.blockBank (s : State) (t : Nat) (op : MatrixOp) (k : Bank) : Bank :=
  s.accumBank t (s.codebookBank t) op (s.planeOf t op.a op.bi) (s.planeOf t op.b op.bj) k

section Accumulated
variable (s : State) (t tb : Nat) (op : MatrixOp) (pa pb : Nat → Byte) (k : Bank)

/-- Entry `c` of an accumulated block, and whether an addition to it saturated: entries beyond M or N stay. -/
def State.accumEntry (c : Nat) : Word × Bool :=
  if c / 32 < min 32 (op.a.extent - 32 * op.bi) && c % 32 < min 32 (op.b.extent - 32 * op.bj) then
    s.accumulate t tb op.a op.b pa pb (32 * op.bi + c / 32) (32 * op.bj + c % 32) (k.cell c)
  else (k.cell c, false)

theorem accumBank_cell {c : Nat} (hc : c < 1024) : (s.accumBank t tb op pa pb k).cell c = (s.accumEntry t tb op pa pb k c).1 := by
  have hcells : (s.accumBank t tb op pa pb k).cells = cellsOf (((List.range 1024).map (fun c => s.accumEntry t tb op pa pb k c)).map Prod.fst) := by
    simp only [State.accumBank, State.accumEntry]
  rw [cell_cellsOf hcells, List.map_map, getD_map_range _ _ _ _ hc, Function.comp_apply]

theorem accumBank_sat : (s.accumBank t tb op pa pb k).sat =
    (k.sat || (List.range 1024).any (fun c => (s.accumEntry t tb op pa pb k c).2)) := by
  unfold State.accumBank
  dsimp only
  rw [List.any_map]
  rfl

theorem accumEntry_inside {i n : Nat} (hi : i < 32) (hn : n < 32) (hM : 32 * op.bi + i < op.a.extent) (hN : 32 * op.bj + n < op.b.extent) :
    s.accumEntry t tb op pa pb k (32 * i + n) =
      s.accumulate t tb op.a op.b pa pb (32 * op.bi + i) (32 * op.bj + n) (k.cell (32 * i + n)) := by
  obtain ⟨-, hdiv, hmod⟩ := cell_div_mod hi hn
  have hrow : i < min 32 (op.a.extent - 32 * op.bi) := by omega
  have hcol : n < min 32 (op.b.extent - 32 * op.bj) := by omega
  unfold State.accumEntry
  rw [hdiv, hmod, decide_eq_true hrow, decide_eq_true hcol]
  rfl

/-- Only an entry within M and N can saturate. -/
theorem accumEntry_sat {c : Nat} (h : (s.accumEntry t tb op pa pb k c).2 = true) :
    32 * op.bi + c / 32 < op.a.extent ∧ 32 * op.bj + c % 32 < op.b.extent := by
  unfold State.accumEntry at h
  split at h
  · next hin =>
    rw [Bool.and_eq_true, decide_eq_true_iff, decide_eq_true_iff] at hin
    omega
  · cases h

end Accumulated

/-- The bank of the next block holds the accumulations of R63 to R66. -/
theorem blockDone_blockBank (s : State) (t : Nat) (op : MatrixOp) (k : Bank) : s.blockDone t op k (s.blockBank t op k) := by
  refine ⟨rfl, fun i n hi hn hM hN => ?_, ?_⟩
  · obtain ⟨hlt, -, -⟩ := cell_div_mod hi hn
    rw [State.blockBank, accumBank_cell _ _ _ _ _ _ _ hlt, accumEntry_inside _ _ _ _ _ _ _ hi hn hM hN]
    rfl
  · rw [State.blockBank, accumBank_sat, Bool.or_eq_true, List.any_eq_true]
    refine or_congr_right ⟨?_, ?_⟩
    · rintro ⟨c, hc, hsat⟩
      obtain ⟨hM, hN⟩ := accumEntry_sat _ _ _ _ _ _ _ hsat
      have hlt := List.mem_range.mp hc
      have hcell : 32 * (c / 32) + c % 32 = c := Nat.div_add_mod c 32
      rw [← hcell, accumEntry_inside _ _ _ _ _ _ _ (by omega) (by omega) hM hN] at hsat
      exact ⟨c / 32, c % 32, by omega, by omega, hM, hN, hsat⟩
    · rintro ⟨i, n, hi, hn, hM, hN, hsat⟩
      refine ⟨32 * i + n, List.mem_range.mpr (cell_div_mod hi hn).1, ?_⟩
      rw [accumEntry_inside _ _ _ _ _ _ _ hi hn hM hN]
      exact hsat

/-- A block depends on the scratchpads, the partitions and the tile's table store, and on no other tile. -/
theorem blockBank_setTiles {s : State} {t : Nat} {ts : NMap Tile} (op : MatrixOp) (k : Bank)
    (ht : ((s.setTiles ts).tile t).tables = (s.tile t).tables) : (s.setTiles ts).blockBank t op k = s.blockBank t op k := by
  have hacc := fun tb pa pb x y acc => accumulate_congr s (s.setTiles ts) t tb op.a op.b pa pb x y acc rfl ht
  have hplane : ∀ d b, (s.setTiles ts).planeOf t d b = s.planeOf t d b := fun _ _ => rfl
  have hbank : (s.setTiles ts).codebookBank t = s.codebookBank t := rfl
  unfold State.blockBank State.accumBank
  simp only [hacc, hplane, hbank]

theorem podTrouble_setTiles (s : State) (ts : NMap Tile) (t : Nat) (a b : Desc) (bi bj : Nat) :
    (s.setTiles ts).podTrouble t a b bi bj = s.podTrouble t a b bi bj := rfl

/-! ## The operation at the front of a tile's queue -/

/-- An operation joins the queue of a tile. -/
def Tile.queueMatrix (op : MatrixOp) (v : Tile) : Tile := { v with matrixQ := v.matrixQ ++ [op] }

/-- A tile whose queue was empty after the next block of an operation in bank `k`: what is left of the operation stays in the queue. -/
def State.blockTile (s : State) (t : Nat) (op : MatrixOp) (k : Nat) : Tile :=
  { (s.tile t).setBank k (s.blockBank t op ((s.tile t).bank k)) with
    matrixQ := if op.next + 1 < op.blocks then [{ op with next := op.next + 1 }] else [], last := k }

theorem blockTile_self (s : State) (t : Nat) (op : MatrixOp) (k : Nat) :
    (s.blockTile t op k).bank k = s.blockBank t op ((s.tile t).bank k) := Tile.bank_setBank_self _ _ _

theorem blockTile_other (s : State) (t : Nat) (op : MatrixOp) (k : Nat) : (s.blockTile t op k).bank (1 - k) = (s.tile t).bank (1 - k) :=
  Tile.bank_setBank_other _ _ _

/-- A tile may take the next block of an operation in bank `k`: no word is struck, its queue is empty, the bank is free and every pod expands. -/
def State.takesBlock (s : State) (t : Nat) (op : MatrixOp) (k : Nat) : Prop :=
  (s.tile t).bad = [] ∧ (s.tile t).matrixQ = [] ∧ (s.tile t).nextBank op = some k ∧ s.podTrouble t op.a op.b op.bi op.bj = none

/-- Where no word is struck and every pod expands, the block is accumulated. -/
theorem runMatrix_clean {s : State} {t : Nat} {op : MatrixOp} (k : Nat) (hbad : (s.tile t).bad = [])
    (hpods : s.podTrouble t op.a op.b op.bi op.bj = none) : s.runMatrix t k op =
      s.modTile t (fun v => { (v.setBank k (s.blockBank t op (v.bank k))).blockDone with last := k }) := by
  simp only [State.runMatrix, State.readRuns_clean s _ t _ hbad, hpods, Bool.false_eq_true, if_false]
  rfl

/-- The tile of a block that is accumulated once its operation stands in the queue. -/
theorem blockTile_eq {s : State} {t : Nat} {op : MatrixOp} {k : Nat} (hq : (s.tile t).matrixQ = []) :
    ({ (((s.tile t).queueMatrix op).setBank k (s.blockBank t op (((s.tile t).queueMatrix op).bank k))).blockDone with last := k } : Tile) =
      s.blockTile t op k := by
  unfold State.blockTile Tile.queueMatrix Tile.blockDone Tile.setBank Tile.bank
  by_cases hk : k = 0 <;> simp [hq, hk]

section Step
variable {s : State} {t k : Nat} {op : MatrixOp} {ts : NMap Tile} (htake : s.takesBlock t op k) (ht : (s.setTiles ts).tile t = s.tile t)
include htake ht

/-- A tile that may take a block takes it, whatever the other tiles hold. -/
theorem runMatrix_queued : (((s.setTiles ts).modTile t (Tile.queueMatrix op)).runMatrix t k op).tile t = s.blockTile t op k ∧
    onlyTile (s.setTiles ts) (((s.setTiles ts).modTile t (Tile.queueMatrix op)).runMatrix t k op) t := by
  obtain ⟨hbad, hq, -, hpods⟩ := htake
  have htile : ((s.setTiles ts).modTile t (Tile.queueMatrix op)).tile t = (s.tile t).queueMatrix op := by
    rw [State.tile_modTile_self, ht]
  have honly := onlyTile_modTile (s.setTiles ts) t (Tile.queueMatrix op)
  obtain ⟨us, hus⟩ : ∃ us, (s.setTiles ts).modTile t (Tile.queueMatrix op) = s.setTiles us := ⟨_, rfl⟩
  rw [hus] at htile honly ⊢
  have hblock : ∀ b, (s.setTiles us).blockBank t op b = s.blockBank t op b := fun b => blockBank_setTiles op b (by rw [htile]; rfl)
  rw [runMatrix_clean k (by rw [htile]; exact hbad) ((podTrouble_setTiles s us t _ _ _ _).trans hpods), State.tile_modTile_self, htile,
    hblock]
  exact ⟨blockTile_eq hq, onlyTile_trans honly (onlyTile_modTile _ _ _)⟩

/-- The tile's queue is worked off: the block is taken, and what is left of the operation finds no bank. -/
theorem goMatrix_queued (hl : op.next < op.blocks)
    (hrest : op.next + 1 = op.blocks ∨ (s.blockTile t op k).nextBank { op with next := op.next + 1 } = none) :
    (((s.setTiles ts).modTile t (Tile.queueMatrix op)).goMatrix t).tile t = s.blockTile t op k ∧
      onlyTile (s.setTiles ts) (((s.setTiles ts).modTile t (Tile.queueMatrix op)).goMatrix t) t := by
  have hrun := runMatrix_queued htake ht
  obtain ⟨-, hq, hnext, -⟩ := htake
  have htile : ((s.setTiles ts).modTile t (Tile.queueMatrix op)).tile t = (s.tile t).queueMatrix op := by
    rw [State.tile_modTile_self, ht]
  rw [goMatrix_step _ t k op [] (by rw [htile, Tile.queueMatrix, hq]; rfl) hl (by rw [htile]; exact hnext)]
  generalize ((s.setTiles ts).modTile t (Tile.queueMatrix op)).runMatrix t k op = r at hrun ⊢
  suffices hpump : ∀ n, r.pumpMatrix t n = r by rw [hpump]; exact hrun
  by_cases hlast : op.next + 1 < op.blocks
  · refine pumpMatrix_stands r t { op with next := op.next + 1 } [] ?_ ?_
    · rw [hrun.1, State.blockTile, if_pos hlast]
    · rw [hrun.1]
      exact hrest.resolve_left (by omega)
  · refine pumpMatrix_idle r t ?_
    rw [hrun.1, State.blockTile, if_neg hlast]

end Step

theorem setTiles_of_onlyTile {s r : State} {ts : NMap Tile} {t : Nat} (h : onlyTile (s.setTiles ts) r t) : r = s.setTiles r.tiles :=
  (congrArg (fun x : State => x.setTiles r.tiles) h.1 :)

/-- Of an operation with one block left every tile of the instruction takes that block. -/
theorem foldl_takesBlock {s : State} {op : MatrixOp} {k : Nat → Nat} (hl : op.next + 1 = op.blocks) : ∀ (qs : List Nat) (ts : NMap Tile),
    qs.Nodup → (∀ t ∈ qs, s.takesBlock t op (k t) ∧ (s.setTiles ts).tile t = s.tile t) →
    let s' := qs.foldl (fun s t => (s.modTile t (Tile.queueMatrix op)).goMatrix t) (s.setTiles ts)
    s'.setTiles s.tiles = s ∧ (∀ t ∈ qs, s'.tile t = s.blockTile t op (k t)) ∧ ∀ u, u ∉ qs → s'.tile u = (s.setTiles ts).tile u
  | [], ts, _, _ => ⟨rfl, fun t h => absurd h List.not_mem_nil, fun _ _ => rfl⟩
  | t :: qs, ts, hnodup, htakes => by
    obtain ⟨hnew, hnodup⟩ := List.nodup_cons.mp hnodup
    obtain ⟨htake, ht⟩ := htakes t List.mem_cons_self
    obtain ⟨htile, honly⟩ := goMatrix_queued htake ht (by omega) (.inl hl)
    rw [List.foldl_cons]
    generalize ((s.setTiles ts).modTile t (Tile.queueMatrix op)).goMatrix t = r at htile honly ⊢
    obtain ⟨us, rfl⟩ : ∃ us, r = s.setTiles us := ⟨_, setTiles_of_onlyTile honly⟩
    have hne : ∀ u ∈ qs, u ≠ t := fun u hu h => hnew (h ▸ hu)
    obtain ⟨hframe, hdone, hothers⟩ := foldl_takesBlock hl qs us hnodup (fun u hu =>
      (htakes u (List.mem_cons_of_mem _ hu)).imp_right ((honly.2 u (hne u hu)).trans ·))
    refine ⟨hframe, fun u hu => ?_, fun u hu => ?_⟩
    · rcases List.mem_cons.mp hu with rfl | hu
      · exact (hothers u hnew).trans htile
      · exact hdone u hu
    · rw [List.mem_cons, not_or] at hu
      exact (hothers u hu.2).trans (honly.2 u hu.1)

/-! ## The instruction -/

theorem exec_matrix {s : State} {ts : List Nat} {a b : Desc} {bank : Nat} (cont : Bool) (env : List Strike) (hts : s.matrixTiles ts = true)
    (hok : matrixOk a b = true) (hbank : bank < 2) : exec (.matrix ts a b bank cont env) s =
      s.issue (s.owner (ts.headD 0)) (bayOf (ts.headD 0)) (.matrix ts a b bank cont env) (s.matrixWaits ts)
        (s.doMatrix ts (matrixOp a b bank cont env) env) := by
  show execMatrix ts a b bank cont env s = _
  simp [execMatrix, hts, hok, hbank, require]

/-- Tiles that work in one bay and for one partition may be named by one instruction (Table 6 of The tile). -/
theorem matrixTiles_ok {s : State} {ts : List Nat} (hne : ts ≠ []) (hlen : ts.length ≤ 32) (hnodup : ts.Nodup)
    (hts : ∀ t ∈ ts, s.tileWorks t = true ∧ bayOf t = bayOf (ts.headD 0) ∧ s.owner t = s.owner (ts.headD 0)) :
    s.matrixTiles ts = true := by
  cases ts with
  | nil => exact absurd rfl hne
  | cons t ts =>
    have hall : (t :: ts).all (fun u => s.tileWorks u && bayOf u == bayOf t && s.owner u == s.owner t) = true :=
      List.all_eq_true.mpr (fun u hu => by
        obtain ⟨hworks, hbay, howner⟩ := hts u hu
        exact Bool.and_eq_true_iff.mpr ⟨Bool.and_eq_true_iff.mpr ⟨hworks, beq_iff_eq.mpr hbay⟩, beq_iff_eq.mpr howner⟩)
    simp only [State.matrixTiles, hall, decide_eq_true hlen, decide_eq_true hnodup, Bool.and_self]

/-- Tiles that are clear and whose queues are empty have the instruction act on each of them. -/
theorem matrix_runs {s : State} {ts : List Nat} {a b : Desc} {bank : Nat} (cont : Bool) (hne : ts ≠ []) (hlen : ts.length ≤ 32)
    (hnodup : ts.Nodup) (hts : ∀ t ∈ ts, s.tileClear t ∧ bayOf t = bayOf (ts.headD 0) ∧ s.owner t = s.owner (ts.headD 0))
    (hq : ∀ t ∈ ts, (s.tile t).matrixQ = []) (hok : matrixOk a b = true) (hbank : bank < 2) : exec (.matrix ts a b bank cont []) s =
      .next (ts.foldl (fun s t => (s.modTile t (Tile.queueMatrix (matrixOp a b bank cont []))).goMatrix t) s) := by
  have hhead : ts.headD 0 ∈ ts := by
    cases ts with
    | nil => exact absurd rfl hne
    | cons t ts => exact List.mem_cons_self
  obtain ⟨-, -, hfail, hwait⟩ := (hts _ hhead).1
  have hwaits : s.matrixWaits ts = false := List.any_eq_false.mpr (fun t ht => by rw [hq t ht]; decide)
  rw [exec_matrix cont [] (matrixTiles_ok hne hlen hnodup (fun t ht => (hts t ht).imp_left (·.1))) hok hbank,
    issue_runs _ _ _ _ _ _ hwait hwaits]
  simp only [State.doMatrix, State.strike_nil, State.pathErrors_nil, hfail, Bool.false_eq_true, if_false]
  rfl

/-! ## Blocks of C -/

theorem matrixOk_extents {a b : Desc} (h : matrixOk a b = true) : 1 ≤ a.extent ∧ 1 ≤ b.extent := by
  simp only [matrixOk, Desc.ok, Bool.and_eq_true, decide_eq_true_iff] at h
  omega

/-- The first block of an operation is the one at row 0, column 0. -/
theorem matrixOp_first (a b : Desc) (bank : Nat) (cont : Bool) :
    (matrixOp a b bank cont []).bi = 0 ∧ (matrixOp a b bank cont []).bj = 0 := ⟨Nat.zero_div _, Nat.zero_mod _⟩

theorem takesBlock_first {s : State} {t k : Nat} {a b : Desc} {bank : Nat} {cont : Bool} (hc : s.tileClear t) (hq : (s.tile t).matrixQ = [])
    (hnext : (s.tile t).nextBank (matrixOp a b bank cont []) = some k) (hpods : s.podTrouble t a b 0 0 = none) :
    s.takesBlock t (matrixOp a b bank cont []) k := by
  obtain ⟨hi, hj⟩ := matrixOp_first a b bank cont
  refine ⟨hc.2.1, hq, hnext, ?_⟩
  rw [hi, hj]
  exact hpods

theorem matrixOp_blocks (a b : Desc) (bank : Nat) (cont : Bool) :
    (matrixOp a b bank cont []).blocks = (a.extent + 31) / 32 * ((b.extent + 31) / 32) := rfl

theorem blocks_one {a b : Desc} (bank : Nat) (cont : Bool) (h : matrixOk a b = true) (ha : a.extent ≤ 32) (hb : b.extent ≤ 32) :
    (matrixOp a b bank cont []).blocks = 1 := by
  obtain ⟨ha1, hb1⟩ := matrixOk_extents h
  rw [matrixOp_blocks, show (a.extent + 31) / 32 = 1 by omega, show (b.extent + 31) / 32 = 1 by omega]

theorem blocks_more {a b : Desc} (bank : Nat) (cont : Bool) (h : matrixOk a b = true) (hab : 32 < a.extent ∨ 32 < b.extent) :
    1 < (matrixOp a b bank cont []).blocks := by
  obtain ⟨ha1, hb1⟩ := matrixOk_extents h
  rw [matrixOp_blocks]
  have hrows : 1 ≤ (a.extent + 31) / 32 := by omega
  have hcols : 1 ≤ (b.extent + 31) / 32 := by omega
  rcases hab with ha | hb
  · exact Nat.lt_of_lt_of_le (by omega : 1 < (a.extent + 31) / 32) (Nat.le_mul_of_pos_right _ hcols)
  · exact Nat.lt_of_lt_of_le (by omega : 1 < (b.extent + 31) / 32) (Nat.le_mul_of_pos_left _ hrows)

/-- After a block that is not to be continued, with the other bank in use, the tile has no bank for the next block (R71). -/
theorem nextBank_used {s : State} {t k : Nat} {op op' : MatrixOp} (hk : k < 2) (hbank : op'.bank < 2) (hcont : op.cont = false)
    (hother : ((s.tile t).bank (1 - k)).st = .ready ∨ ((s.tile t).bank (1 - k)).st = .drain) : (s.blockTile t op k).nextBank op' = none := by
  have hst : ∀ j, j < 2 → ((s.blockTile t op k).bank j).st = .ready ∨ ((s.blockTile t op k).bank j).st = .drain := by
    intro j hj
    by_cases h : j = k
    · left
      rw [h, blockTile_self, State.blockBank, State.accumBank]
      simp [hcont]
    · rw [show j = 1 - k by omega, blockTile_other]
      exact hother
  have hno : ∀ j, j < 2 → ((s.blockTile t op k).bank j).st ≠ .accum ∧ ((s.blockTile t op k).bank j).st ≠ .empty ∧
      ((s.blockTile t op k).bank j).st ≠ .preloaded := by
    intro j hj
    rcases hst j hj with h | h <;> rw [h] <;> decide
  obtain ⟨hnamed, -, -⟩ := hno op'.bank hbank
  obtain ⟨haccum, hempty, hpre⟩ := hno (1 - (s.blockTile t op k).last) (by omega)
  simp [Tile.nextBank, hnamed, haccum, hempty, hpre]

/-- Settles O11: every tile takes the block by `foldl_takesBlock`, one with more blocks left by `goMatrix_queued`; what the bank then holds is
`blockDone_blockBank`. -/
theorem matrixAccumulatesBlock : Obligations.MatrixAccumulatesBlock := by
  refine ⟨fun s ts a b bank cont k hne hlen hnodup hts hok hbank ha hb => ?_,
    fun s t a b bank k cont hc hok hbank hq hnext hpods hab hother hcont => ?_,
    fun s ts a b bank cont env hts hok hbank hfull => ?_⟩
  · have hone := blocks_one bank cont hok ha hb
    have hrun := matrix_runs cont hne hlen hnodup (fun t ht => (hts t ht).imp_right (fun h => ⟨h.1, h.2.1⟩))
      (fun t ht => (hts t ht).2.2.2.1) hok hbank
    have hfold := foldl_takesBlock (s := s) (k := k) hone.symm ts s.tiles hnodup (fun t ht => by
      obtain ⟨hc, -, -, hq, hnext, hpods⟩ := hts t ht
      exact ⟨takesBlock_first hc hq hnext hpods, rfl⟩)
    rw [show s.setTiles s.tiles = s from rfl] at hfold
    generalize ts.foldl _ s = r at hrun hfold
    obtain ⟨hframe, hdone, hothers⟩ := hfold
    refine ⟨r, hrun, fun t ht => ?_, hframe, hothers⟩
    rw [hdone t ht, blockTile_self, blockTile_other]
    exact ⟨blockDone_blockBank s t _ _, rfl, rfl, if_neg (by rw [hone]; exact Nat.lt_irrefl 1)⟩
  · have hmore := blocks_more bank cont hok hab
    have hrun := matrix_runs (s := s) (ts := [t]) cont (List.cons_ne_nil _ _) (by simp) (List.nodup_singleton t)
      (List.forall_mem_singleton.mpr ⟨hc, rfl, rfl⟩) (List.forall_mem_singleton.mpr hq) hok hbank
    have hblock := goMatrix_queued (ts := s.tiles) (takesBlock_first hc hq hnext hpods) rfl (Nat.zero_lt_of_lt hmore)
      (.inr (nextBank_used (nextBank_lt _ _ _ hbank hnext) hbank hcont hother))
    rw [show s.setTiles s.tiles = s from rfl] at hblock
    rw [List.foldl_cons, List.foldl_nil] at hrun
    generalize (s.modTile t _).goMatrix t = r at hrun hblock
    obtain ⟨htile, honly⟩ := hblock
    refine ⟨r, hrun, ?_⟩
    beta_reduce
    rw [htile, blockTile_self, blockTile_other]
    exact ⟨blockDone_blockBank s t _ _, rfl, if_pos hmore, honly⟩
  · exact ⟨_, (exec_matrix cont env hts hok hbank).trans (issue_waits _ _ _ _ _ _ (.inr
      (List.any_eq_true.mpr (hfull.imp (fun t ht => ⟨ht.1, decide_eq_true ht.2⟩))))), rfl⟩

end Sys2Proof.Machine
end

section
/-!
PROOFS. COMPRESS_ON_STORE and POD_TAG_WRITE: pods stored and then tagged.
-/
namespace Sys2Proof.Machine

open Sys2Proof

/-! ## A store that issues (R128) -/

/-- The store of an instruction, before it has run. -/
def storeOf (s : State) (t row : Nat) (dst tag : DmaEnd) (pod : Nat) : PodStore :=
  { part := s.owner t, tile := t, row := row, dst := dst, tag := tag, pod := pod, held := true, tagWord := 0 }

/-- The tag word and the units of a pod, coded in the modes that the tensor's header allows (R120). -/
def podCoded (hb : Bytes) (pod : Nat) (bs : Bytes) : Word × Bytes :=
  podEncode (if (PodTensor.parse hb).fixedEn then some (PodTensor.parse hb).table else none) (blockBytes (PodTensor.parse hb) pod bs)

section Store
variable {s : State} {t row pod : Nat} {dst tag : DmaEnd} {pt : Part} (hp : s.part (s.owner t) = some pt)
include hp

theorem exec_compressOnStore (env : List Strike) (hworks : s.tileWorks t = true) (hrow : row + 8 ≤ 2048)
    (hdst : s.storeDst t pt true 8 dst = true) (htag : s.storeDst t pt false ((20 + 4 * pod + 511) / 512) tag = true) :
    exec (.compressOnStore t row dst tag pod env) s =
      s.issue (s.owner t) (bayOf t) (.compressOnStore t row dst tag pod env) (s.dmaWaits t) (s.doStore t row dst tag pod env) := by
  show execCompressOnStore t row dst tag pod env s = _
  simp [execCompressOnStore, hp, hworks, hrow, hdst, htag, require]

omit hp in
/-- Another store to the slot of this one has still to write its tag. -/
theorem storeHeld_iff (s : State) (t : Nat) (dst : DmaEnd) : s.pods.any (fun e => e.2.any (fun r => r.part == s.owner t && r.dst == dst)) = true ↔
    ∃ e ∈ s.pods, ∃ q ∈ e.2, q.part = s.owner t ∧ q.dst = dst := by
  simp only [List.any_eq_true, Bool.and_eq_true, beq_iff_eq]

omit hp in
theorem doStore_held (hfail : s.stepFailed (s.owner t) = false) (hheld : ∃ e ∈ s.pods, ∃ q ∈ e.2, q.part = s.owner t ∧ q.dst = dst) :
    s.doStore t row dst tag pod [] = s.putStores (bayOf t) (s.bayStores (bayOf t) ++ [storeOf s t row dst tag pod]) := by
  simp only [State.doStore, State.strike_nil, State.pathErrors_nil, hfail, Bool.false_eq_true, if_false, (storeHeld_iff s t dst).mpr hheld,
    if_true]
  rfl

/-- A store to a slot of its own codes its clean rows and writes the units; its tag is left to be written. -/
theorem doStore_runs {hb : Bytes} (hbad : (s.tile t).bad = []) (hfail : s.stepFailed (s.owner t) = false)
    (hfree : ∀ e ∈ s.pods, ∀ q ∈ e.2, q.part = s.owner t → q.dst ≠ dst) (hread : s.endRead (s.owner t) t pt tag 0 16 = (s, some hb)) :
    let u := s.endWrite (s.owner t) t pt dst 0 (podCoded hb pod (s.rows t row 8)).2
    s.doStore t row dst tag pod [] = if u.stepFailed (s.owner t) then u
      else u.putStores (bayOf t) (u.bayStores (bayOf t) ++
        [{ storeOf s t row dst tag pod with held := false, tagWord := (podCoded hb pod (s.rows t row 8)).1 }]) := by
  have hnone : ¬ s.pods.any (fun e => e.2.any (fun r => r.part == s.owner t && r.dst == dst)) = true := by
    rw [storeHeld_iff]
    rintro ⟨e, he, q, hq, hpart, hdst⟩
    exact hfree e he q hq hpart hdst
  simp only [State.doStore, State.strike_nil, State.pathErrors_nil, hfail, Bool.false_eq_true, if_false, hnone, State.runStore, hp, hread,
    State.engineRows_clean s _ t row 8 hbad]
  rfl

theorem compressOnStore_runs {hb : Bytes} (hc : s.tileClear t) (hlen : (s.tile t).dmaQ.length < 16) (hrow : row + 8 ≤ 2048)
    (hdst : s.storeDst t pt true 8 dst = true) (htag : s.storeDst t pt false ((20 + 4 * pod + 511) / 512) tag = true)
    (hfree : ∀ e ∈ s.pods, ∀ q ∈ e.2, q.part = s.owner t → q.dst ≠ dst) (hread : s.endRead (s.owner t) t pt tag 0 16 = (s, some hb)) :
    let u := s.endWrite (s.owner t) t pt dst 0 (podCoded hb pod (s.rows t row 8)).2
    exec (.compressOnStore t row dst tag pod []) s = .next (if u.stepFailed (s.owner t) then u
      else u.putStores (bayOf t) (u.bayStores (bayOf t) ++
        [{ storeOf s t row dst tag pod with held := false, tagWord := (podCoded hb pod (s.rows t row 8)).1 }])) := by
  intro u
  rw [exec_compressOnStore hp [] hc.1 hrow hdst htag, issue_clear _ _ hc (dmaWaits_room hlen), doStore_runs hp hc.2.1 hc.2.2.1 hfree hread]

end Store

/-! ## A slot in a scratchpad -/

/-- A slot of a scratchpad begins within it. -/
theorem storeDst_rows {s : State} {t u r n : Nat} {pt : Part} {slot : Bool} (h : s.storeDst t pt slot n (.rows u r) = true) : r + n ≤ 2048 := by
  simp only [State.storeDst, Bool.and_eq_true, decide_eq_true_iff] at h
  exact h.1.2

/-- Rows with a pod's units: what they hold, what stays. -/
theorem storedRows_spec {s : State} {u r : Nat} (hr : r < 2048) (bs : Bytes) :
    let s' := s.scratchWrite u (512 * r) bs
    (∀ x, x < bs.length → Mem.read 0#8 s'.mem.scratch (u * 2 ^ 20 + 512 * r + x) = bs.getD x 0#8) ∧
    (∀ x, (x < u * 2 ^ 20 + 512 * r ∨ u * 2 ^ 20 + 512 * r + bs.length ≤ x) →
      Mem.read 0#8 s'.mem.scratch x = Mem.read 0#8 s.mem.scratch x) := by
  intro s'
  have hscratch : s'.mem.scratch = _ := scratchWrite_scratch s u (512 * r) bs (by omega)
  rw [hscratch]
  exact ⟨fun x hx => Mem.read_writeN_inside _ _ _ _ _ hx, fun x hx => Mem.read_writeN_outside _ _ _ _ _ hx⟩

/-- What a pod's units in the rows of a tile, and its store noted, leave. -/
theorem storedPod_spec {s : State} {u r : Nat} (hr : r < 2048) (bs : Bytes) (bay : Nat) (q : PodStore) :
    let s' := (s.scratchWrite u (512 * r) bs).putStores bay (s.bayStores bay ++ [q])
    (∀ x, x < bs.length → Mem.read 0#8 s'.mem.scratch (u * 2 ^ 20 + 512 * r + x) = bs.getD x 0#8) ∧
    (∀ x, (x < u * 2 ^ 20 + 512 * r ∨ u * 2 ^ 20 + 512 * r + bs.length ≤ x) →
      Mem.read 0#8 s'.mem.scratch x = Mem.read 0#8 s.mem.scratch x) ∧
    s'.bayStores bay = s.bayStores bay ++ [q] ∧ (∀ b, b ≠ bay → s'.bayStores b = s.bayStores b) ∧
    s'.mem = { s.mem with scratch := s'.mem.scratch } ∧ ((s'.setPods s.pods).setTiles s.tiles).setMem s.mem = s ∧
    ∀ v, v ≠ u → s'.tile v = s.tile v := by
  intro s'
  obtain ⟨hinside, houtside⟩ := storedRows_spec (s := s) (u := u) hr bs
  exact ⟨hinside, houtside, bayStores_put_self _ _ _, fun b hb => bayStores_put_ne _ _ hb, rfl, rfl,
    fun v hv => scratchWrite_tile_ne s _ _ hv⟩

/-- COMPRESS_ON_STORE of a tensor in one scratchpad to the rows of another. -/
theorem compressOnStore_rows {s : State} {t row pod u r w q : Nat} {pt : Part} (hp : s.part (s.owner t) = some pt) (hc : s.tileClear t)
    (hlen : (s.tile t).dmaQ.length < 16) (hrow : row + 8 ≤ 2048) (hdst : s.storeDst t pt true 8 (.rows u r) = true)
    (htag : s.storeDst t pt false ((20 + 4 * pod + 511) / 512) (.rows w q) = true)
    (hfree : ∀ e ∈ s.pods, ∀ q ∈ e.2, q.part = s.owner t → q.dst ≠ .rows u r) (hbad : (s.tile w).bad = []) :
    let e := podCoded (s.scratchBytes w (512 * q) 16) pod (s.rows t row 8)
    exec (.compressOnStore t row (.rows u r) (.rows w q) pod []) s =
      .next ((s.scratchWrite u (512 * r) e.2).putStores (bayOf t) (s.bayStores (bayOf t) ++
        [{ storeOf s t row (.rows u r) (.rows w q) pod with held := false, tagWord := e.1 }])) := by
  have hrun := compressOnStore_runs hp hc hlen hrow hdst htag hfree (endRead_rows (p := s.owner t) (t := t) (r := q) (n := 16) pt hbad)
  generalize podCoded (s.scratchBytes w (512 * q) 16) pod (s.rows t row 8) = e at hrun ⊢
  exact hrun.trans (congrArg _ (if_neg (fun hf => Bool.false_ne_true (hc.2.2.1.symm.trans hf))))

/-! ## The tag of a stored pod (R129, R132) -/

theorem countPod_frame (s : State) (p : Nat) (tag : Word) : (s.countPod p tag).setRegs s.regs = s := by
  unfold State.countPod
  split <;> rfl

/-- A pod in mode LOCAL counts once, with its units. -/
theorem countPod_local {s : State} {p : Nat} {tag : Word} (h : tagMode tag = .local_) :
    ((s.countPod p tag).reg .pod p 0x10).toNat = min 0xFFFFFFFF ((s.reg .pod p 0x10).toNat + 1) ∧
      ((s.countPod p tag).reg .pod p 0x18).toNat = min 0xFFFFFFFF ((s.reg .pod p 0x18).toNat + tagUnits tag) := by
  unfold State.countPod
  rw [h]
  refine ⟨?_, ?_⟩
  · rw [reg_bump_ne _ _ _ _ (by decide), State.reg_bump_self]
  · rw [State.reg_bump_self, reg_bump_ne _ _ _ _ (by decide)]

/-- The stores of a bay are stores of the state. -/
theorem bayStores_sub {s : State} {bay : Nat} {q : PodStore} (h : q ∈ s.bayStores bay) : ∃ e ∈ s.pods, q ∈ e.2 := by
  unfold State.bayStores NMap.get at h
  cases hf : NMap.find s.pods bay with
  | none =>
    rw [hf] at h
    exact absurd h List.not_mem_nil
  | some qs =>
    rw [hf] at h
    exact ⟨(bay, qs), mem_of_find hf, h⟩

/-- Where no store is held, one that leaves its bay leaves none that is held. -/
theorem noneHeld_erase {s : State} (bay : Nat) (q : PodStore) (h : ∀ e ∈ s.pods, ∀ r ∈ e.2, r.held = false) :
    ∀ e ∈ (s.putStores bay ((s.bayStores bay).erase q)).pods, ∀ r ∈ e.2, r.held = false := by
  intro e he r hr
  rcases mem_put he with rfl | he
  · obtain ⟨e, he, hr⟩ := bayStores_sub (List.mem_of_mem_erase hr)
    exact h e he r hr
  · exact h e he r hr

/-- The state once the tag of a pod whose tensor stands in a scratchpad is written, where no store is held. -/
def State.tagged (s : State) (bay : Nat) (q : PodStore) (u a : Nat) : State :=
  ((s.putStores bay ((s.bayStores bay).erase q)).scratchWrite u a (beBytes 4 q.tagWord.toNat)).countPod q.part q.tagWord

theorem exec_podTagWrite {s : State} {bay u r : Nat} {q : PodStore} {pt : Part} (hq : (s.bayStores bay).find? (fun q => !q.held) = some q)
    (hp : s.part q.part = some pt) (htag : q.tag = .rows u r) (hheld : ∀ e ∈ s.pods, ∀ h ∈ e.2, h.held = false) :
    exec (.podTagWrite bay) s = .next ((s.tagged bay q u (512 * r + (16 + 4 * q.pod))).pump q.part) := by
  have hwrite : s.writeTag bay pt q = s.tagged bay q u (512 * r + (16 + 4 * q.pod)) := by
    have hpods : (s.tagged bay q u (512 * r + (16 + 4 * q.pod))).pods = (s.putStores bay ((s.bayStores bay).erase q)).pods :=
      (congrArg (fun x : State => x.pods) (countPod_frame _ _ _) :)
    have hnone := find_none_of (s := s.tagged bay q u (512 * r + (16 + 4 * q.pod)))
      (by rw [hpods]; exact noneHeld_erase bay q hheld) (fun x => x.held && x.part == q.part && x.dst == q.dst)
      (fun x hx => by simp only [Bool.and_eq_true] at hx; exact hx.1.1)
    unfold State.tagged at hnone ⊢
    simp only [State.writeTag, htag, State.endWrite, hnone]
  show execPodTagWrite bay s = _
  simp only [execPodTagWrite, hq, hp, hwrite]

section Tagged
variable (s : State) (bay : Nat) (q : PodStore) (u : Nat) {a : Nat}

theorem tagged_unregs : (s.tagged bay q u a).setRegs s.regs =
    (s.putStores bay ((s.bayStores bay).erase q)).scratchWrite u a (beBytes 4 q.tagWord.toNat) :=
  countPod_frame ((s.putStores bay ((s.bayStores bay).erase q)).scratchWrite u a (beBytes 4 q.tagWord.toNat)) q.part q.tagWord

theorem tagged_scratch (ha : a < 2 ^ 20) : (s.tagged bay q u a).mem.scratch =
    Mem.writeN 0#8 s.mem.scratch (u * 2 ^ 20 + a) (beBytes 4 q.tagWord.toNat) :=
  (congrArg (fun x : State => x.mem.scratch) (tagged_unregs s bay q u) :).trans (scratchWrite_scratch _ u a _ ha)

theorem tagged_stores : (s.tagged bay q u a).bayStores bay = (s.bayStores bay).erase q ∧
    ∀ b, b ≠ bay → (s.tagged bay q u a).bayStores b = s.bayStores b := by
  have hstores : ∀ b, (s.tagged bay q u a).bayStores b = (s.putStores bay ((s.bayStores bay).erase q)).bayStores b :=
    fun b => (congrArg (fun x : State => x.bayStores b) (tagged_unregs s bay q u (a := a)) :)
  exact ⟨(hstores bay).trans (bayStores_put_self s bay _), fun b hb => (hstores b).trans (bayStores_put_ne s _ hb)⟩

theorem tagged_tile_ne {v : Nat} (hv : v ≠ u) : (s.tagged bay q u a).tile v = s.tile v :=
  (congrArg (fun x : State => x.tile v) (tagged_unregs s bay q u (a := a)) :).trans (scratchWrite_tile_ne _ a _ hv)

theorem tagged_parts : (s.tagged bay q u a).parts = s.parts :=
  (congrArg (fun x : State => x.parts) (tagged_unregs s bay q u (a := a)) :)

end Tagged

end Sys2Proof.Machine
end

section
/-!
PROOFS. TABLE_LOAD, TABLE_LOAD_COMPLETE and TABLE_COPY_COMPLETE, and with them pods and tables as stored (O22).
-/
namespace Sys2Proof.Machine

open Sys2Proof

/-! ## A load that is asked for (R87, R88) -/

section Load
variable {s : State} {t src : Nat} {op : LoadOp} {pt : Part} (hp : s.part (s.owner t) = some pt)
include hp

/-- The job of a load of clean rows. -/
def loadJob (s : State) (t src : Nat) (op : LoadOp) : LoadJob := { op := op, rows := s.rows t src op.rows, bay := some (bayOf t) }

theorem exec_tableLoad (hc : s.tileClear t) (hok : LoadOp.ok op = true) (hsrc : src + op.rows ≤ 2048)
    (hquad : op.quad.all (fun q => pt.quads.contains q) = true) :
    exec (.tableLoad t src op []) s = .next (s.addLoad (s.owner t) (loadJob s t src op)) := by
  have hrun : s.doTableLoad t src op [] = s.addLoad (s.owner t) (loadJob s t src op) := by
    simp only [State.doTableLoad, State.strike_nil, State.pathErrors_nil, hc.2.2.1, Bool.false_eq_true, if_false,
      State.engineRows_clean s _ t src op.rows hc.2.1]
    rfl
  have hown : op.quad.all (fun q => ((s.part (s.owner t)).map (·.quads)).any (·.contains q)) = true := by
    rw [hp]
    exact hquad
  show execTableLoad t src op [] s = _
  simp only [execTableLoad, hc.1, hok, hsrc, hown, require, decide_true, Bool.and_self, if_true, hrun, issue_clear _ _ hc rfl]

omit hp in
/-- The next load finds another one running and stands behind it. -/
theorem addLoad_behind {p : Nat} {j : LoadJob} (run : LoadJob) (hp : s.part p = some pt) (hload : pt.load = some run) :
    s.addLoad p j = s.modPart p (fun v => { v with loadQ := v.loadQ ++ [j] }) := by
  have hpart := part_of_modPart (fun v => { v with loadQ := v.loadQ ++ [j] }) hp
  unfold State.addLoad
  simp only [hp]
  rw [State.pumpLoads, hpart]
  simp only [hload]

omit hp in
theorem tableBusy_counts (s : State) (p : Nat) : ((s.tableBusy p).reg .tbl p 0x14).toNat = min 0xFFFFFFFF ((s.reg .tbl p 0x14).toNat + 1) ∧
    ((s.tableBusy p).reg .tbl p 0x10).field 15 0 = Status.code .tableBusy ∧ (s.tableBusy p).setRegs s.regs = s := by
  unfold State.tableBusy State.lastLoad
  refine ⟨?_, putField_field_low _ _ _ _ _, rfl⟩
  rw [State.putField, reg_putReg_ne _ _ _ _ (by decide), State.reg_bump_self]

omit hp in
/-- A load that names the active bank is refused and leaves its partition as it was. -/
theorem addLoad_busy {p : Nat} {j : LoadJob} (hp : s.part p = some pt) (hl : pt.load = none) (hq : pt.loadQ = [])
    (hc : pt.copying.getD j.op.kind false = false) (hr : j.bay.isSome = true) (ha : namesActive j.op.bank (pt.activeBank j.op.kind) = true) :
    ∃ u : State, s.addLoad p j = u.tableBusy p ∧ u.part p = some pt ∧ u.setParts s.parts = s := by
  refine ⟨_, (addLoad_run s p pt j hp hl hq hc hr).trans (if_pos ha), ?_, rfl⟩
  rw [State.modPart_modPart, part_of_modPart _ hp, ← hq]

end Load

/-! ## One change of every tile of a list -/

/-- A tile of the list has changed, perhaps more than once. -/
theorem foldl_modTile_mem (f : Tile → Tile) {ts : List Nat} {t : Nat} (s : State) (ht : t ∈ ts) :
    ∃ n, (ts.foldl (fun s t => s.modTile t f) s).tile t = f (f^[n] (s.tile t)) := by
  obtain ⟨n, hn⟩ := Nat.exists_eq_add_of_lt (List.count_pos_iff.mpr ht)
  refine ⟨n, ?_⟩
  rw [foldl_modTile_tile, hn, Nat.zero_add, Function.iterate_succ_apply']

theorem foldl_modTile_not_mem (f : Tile → Tile) {ts : List Nat} {t : Nat} (s : State) (ht : t ∉ ts) :
    (ts.foldl (fun s t => s.modTile t f) s).tile t = s.tile t := by
  rw [foldl_modTile_tile, List.count_eq_zero.mpr ht]
  rfl

/-- What one change of a tile's table store leaves of a byte, all of them leave. -/
theorem iterate_keeps_byte {f : Tile → Tile} {x : Nat} (hf : ∀ v : Tile, Mem.read 0#8 (f v).tables x = Mem.read 0#8 v.tables x) (n : Nat)
    (v : Tile) : Mem.read 0#8 (f^[n] v).tables x = Mem.read 0#8 v.tables x :=
  iterate_inv (fun w : Tile => Mem.read 0#8 w.tables x = Mem.read 0#8 v.tables x) f (fun w h => (hf w).trans h) n v rfl

theorem foldl_keeps_byte {f : Tile → Tile} {x : Nat} (hf : ∀ v : Tile, Mem.read 0#8 (f v).tables x = Mem.read 0#8 v.tables x)
    (ts : List Nat) (s : State) (t : Nat) :
    Mem.read 0#8 ((ts.foldl (fun s t => s.modTile t f) s).tile t).tables x = Mem.read 0#8 (s.tile t).tables x := by
  rw [foldl_modTile_tile]
  exact iterate_keeps_byte hf _ _

/-! ## The end of a load (R87, R88) -/

section LoadRows
variable (v : Tile) (bank : Nat) {j : LoadJob} (hlen : j.rows.length = 512 * j.op.rows)
include hlen

theorem loadRows_tables : (v.loadRows bank j).tables = Mem.writeN 0#8 v.tables (tableKey bank j.op.kind j.op.slot (512 * j.op.row)) j.rows := by
  rw [Tile.loadRows, List.take_of_length_le (Nat.le_of_eq hlen)]

theorem loadRows_inside {x : Nat} (hx : x < 512 * j.op.rows) :
    Mem.read 0#8 (v.loadRows bank j).tables (tableKey bank j.op.kind j.op.slot (512 * j.op.row) + x) = j.rows.getD x 0#8 := by
  rw [loadRows_tables v bank hlen, Mem.read_writeN_inside _ _ _ _ _ (by rw [hlen]; exact hx)]

theorem loadRows_outside {x : Nat} (hx : x < tableKey bank j.op.kind j.op.slot (512 * j.op.row) ∨
    tableKey bank j.op.kind j.op.slot (512 * j.op.row) + 512 * j.op.rows ≤ x) :
    Mem.read 0#8 (v.loadRows bank j).tables x = Mem.read 0#8 v.tables x := by
  rw [loadRows_tables v bank hlen, Mem.read_writeN_outside _ _ _ _ _ (by rw [hlen]; exact hx)]

end LoadRows

/-- The tiles that a load is for. -/
def LoadJob.targets (j : LoadJob) (pt : Part) : List Nat := match j.op.quad with | some q => quadTiles q | none => pt.tiles

/-- The end of a load that a GO started is noted for its frame (R482). -/
def State.loadEnded (s : State) (p : Nat) (j : LoadJob) : State := if j.bay.isNone then s.pushGo 1 p .ok else s

theorem loadEnded_frame (s : State) (p : Nat) (j : LoadJob) : (s.loadEnded p j).setLesar s.lesar = s ∧
    (s.loadEnded p j).lesar.goDone = s.lesar.goDone ++ (if j.bay.isNone then [(1, p, .ok)] else []) := by
  unfold State.loadEnded
  split
  · exact ⟨rfl, rfl⟩
  · exact ⟨rfl, (List.append_nil _).symm⟩

theorem finishLoad_spec {s : State} {p : Nat} {pt : Part} (j : LoadJob) (hp : s.part p = some pt) :
    let u := s.finishLoad p j
    (∀ t, u.tile t = ((j.targets pt).foldl (fun s t => s.modTile t (fun v => v.loadRows (1 - pt.activeBank j.op.kind) j)) s).tile t) ∧
    (u.reg .tbl p 0x10).field 15 0 = 0 ∧
    u.lesar.goDone = s.lesar.goDone ++ (if j.bay.isNone then [(1, p, .ok)] else []) ∧
    u.part p = some { pt with load := none, swapStaged := if j.op.swap then pt.swapStaged.set j.op.kind true else pt.swapStaged } ∧
    u.mem = s.mem ∧ ∀ q, q ≠ p → u.part q = s.part q := by
  intro u
  have hu : u = (((j.targets pt).foldl (fun s t => s.modTile t (fun v => v.loadRows (1 - pt.activeBank j.op.kind) j))
      (s.loadEnded p j)).lastLoad p .ok).modPart p (fun v =>
        { v with load := none, swapStaged := if j.op.swap then v.swapStaged.set j.op.kind true else v.swapStaged }) := by
    simp only [u, State.finishLoad, hp]
    rfl
  obtain ⟨hended, hgo⟩ := loadEnded_frame s p j
  have hframe := foldl_modTile_frame (fun v => v.loadRows (1 - pt.activeBank j.op.kind) j) (j.targets pt) (s.loadEnded p j)
  have htiles : ∀ t, ((j.targets pt).foldl (fun s t => s.modTile t (fun v => v.loadRows (1 - pt.activeBank j.op.kind) j))
      (s.loadEnded p j)).tile t = ((j.targets pt).foldl (fun s t => s.modTile t (fun v => v.loadRows (1 - pt.activeBank j.op.kind) j)) s).tile t := by
    intro t
    rw [foldl_modTile_tile, foldl_modTile_tile]
    exact congrArg _ (congrArg (fun x : State => x.tile t) hended :)
  generalize (j.targets pt).foldl _ (s.loadEnded p j) = w at hu hframe htiles
  have hparts : ∀ q, w.part q = s.part q := fun q =>
    (congrArg (fun x : State => x.part q) hframe :).trans (congrArg (fun x : State => x.part q) hended :)
  have hmem : w.mem = s.mem := (congrArg (fun x : State => x.mem) hframe :).trans (congrArg (fun x : State => x.mem) hended :)
  have hlesar : w.lesar.goDone = (s.loadEnded p j).lesar.goDone := (congrArg (fun x : State => x.lesar.goDone) hframe :)
  rw [hu]
  exact ⟨htiles, putField_field_low w .tbl p 0x10 0, hlesar.trans hgo, part_of_modPart _ ((hparts p).trans hp), hmem,
    fun q hq => (State.part_modPart_ne _ _ hq).trans (hparts q)⟩

theorem exec_tableLoadComplete {s : State} {p : Nat} {pt : Part} {j : LoadJob} (hp : s.part p = some pt) (hload : pt.load = some j) :
    exec (.tableLoadComplete p) s = .next ((((s.finishLoad p j).pumpLoads p 64).settleAll).pump p) := by
  show execTableLoadComplete p s = _
  simp only [execTableLoadComplete, hp, Option.bind_some, hload]

/-! ## The copy after a swap (R89) -/

/-- The slots of a kind lie within their bank. -/
theorem kindRange_bank (bank : Nat) {kind : Nat} (hk : kind < 3) :
    bank * 65536 ≤ (kindRange bank kind).1 ∧ (kindRange bank kind).1 + (kindRange bank kind).2 ≤ (bank + 1) * 65536 := by
  have hcases : kind = 0 ∨ kind = 1 ∨ kind = 2 := by omega
  rcases hcases with rfl | rfl | rfl <;> simp only [kindRange, tableKey, tableKind, tableBank] <;> omega

theorem kindRange_length (a b kind : Nat) : (kindRange a kind).2 = (kindRange b kind).2 := rfl

/-- The same kind stands apart in the active and in the shadow bank. -/
theorem kindRange_apart (a : Nat) {kind x : Nat} (hk : kind < 3) (hx : x < (kindRange a kind).2) :
    (kindRange a kind).1 + x < (kindRange (1 - a) kind).1 ∨
      (kindRange (1 - a) kind).1 + (kindRange a kind).2 ≤ (kindRange a kind).1 + x := by
  have hactive := kindRange_bank a hk
  have hshadow := kindRange_bank (1 - a) hk
  rw [kindRange_length (1 - a) a] at hshadow
  rcases Nat.eq_zero_or_pos a with rfl | hpos
  · left
    omega
  · right
    have hzero : 1 - a = 0 := by omega
    rw [hzero] at hshadow ⊢
    omega

theorem copyKind_outside (v : Tile) (a : Nat) {kind x : Nat}
    (hx : x < (kindRange (1 - a) kind).1 ∨ (kindRange (1 - a) kind).1 + (kindRange a kind).2 ≤ x) :
    Mem.read 0#8 (v.copyKind a kind).tables x = Mem.read 0#8 v.tables x := by
  unfold Tile.copyKind
  dsimp only
  rw [Mem.read_writeN_outside _ _ _ _ _ (by rw [Mem.readN_length]; exact hx), Mem.read_clear, if_neg (by omega)]

theorem copyKind_inside (v : Tile) (a : Nat) {kind x : Nat} (hx : x < (kindRange a kind).2) :
    Mem.read 0#8 (v.copyKind a kind).tables ((kindRange (1 - a) kind).1 + x) = Mem.read 0#8 v.tables ((kindRange a kind).1 + x) := by
  unfold Tile.copyKind
  dsimp only
  rw [Mem.read_writeN_inside _ _ _ _ _ (by rw [Mem.readN_length]; exact hx), Mem.readN_getD _ _ _ _ _ _ hx]

/-- The state after the copy of a kind, before loads and instructions that wait go on. -/
def State.copied (s : State) (p : Nat) (pt : Part) (kind : Nat) : State :=
  (pt.tiles.foldl (fun s t => s.modTile t (fun v => v.copyKind (pt.activeBank kind) kind)) s).modPart p
    (fun v => { v with copying := v.copying.set kind false })

theorem exec_tableCopyComplete {s : State} {p kind : Nat} {pt : Part} (hp : s.part p = some pt) (hcopy : pt.copying.getD kind false = true) :
    exec (.tableCopyComplete p kind) s = .next ((((s.copied p pt kind).pumpLoads p 64).settleAll).pump p) := by
  show execTableCopyComplete p kind s = _
  simp only [execTableCopyComplete, hp, hcopy, require, if_true]
  rfl

theorem copied_frame (s : State) {p : Nat} {pt : Part} (kind : Nat) (hp : s.part p = some pt) :
    (s.copied p pt kind).part p = some { pt with copying := pt.copying.set kind false } ∧ (s.copied p pt kind).mem = s.mem ∧
      (s.copied p pt kind).regs = s.regs ∧ ∀ q, q ≠ p → (s.copied p pt kind).part q = s.part q := by
  unfold State.copied
  have hframe := foldl_modTile_frame (fun v => v.copyKind (pt.activeBank kind) kind) pt.tiles s
  generalize pt.tiles.foldl _ s = w at hframe ⊢
  have hparts : ∀ q, w.part q = s.part q := fun q => (congrArg (fun x : State => x.part q) hframe :)
  exact ⟨part_of_modPart _ ((hparts p).trans hp), (congrArg (fun x : State => x.mem) hframe :), (congrArg (fun x : State => x.regs) hframe :),
    fun q hq => (State.part_modPart_ne _ _ hq).trans (hparts q)⟩

/-- Settles O22: stores by `compressOnStore_runs` and the laws of `State.tagged`, loads by `exec_tableLoad` and the laws of `addLoad`, the
completions by `finishLoad_spec` and the laws of `Tile.copyKind`. -/
theorem podsAndTablesAreStored : Obligations.PodsAndTablesAreStored := by
  refine ⟨fun s t row pod dst tag hb pt hc hp hlen hrow hdst htag hfree hread => ?_,
    fun s t row u r w q pod pt hc hp hlen hrow hdst htag hbad hfree => ?_, fun s t row pod dst tag pt hc hp hlen hrow hdst htag hheld => ?_,
    fun s t row pod dst tag env pt hworks hp hfull hrow hdst htag => ?_, fun s bay u r q pt hq hp htag ha hheld => ?_,
    fun s t src op pt hc hp hok hsrc hquad hload hloadQ hcopy => ⟨fun hact => ?_, fun hact => ?_⟩,
    fun s t src op pt j hc hp hok hsrc hquad hload => ?_, fun s p pt j hp hload hrows => ?_, fun s p kind pt hp hk hcopy => ?_⟩
  · exact ⟨_, compressOnStore_runs hp hc hlen hrow hdst htag hfree hread, rfl⟩
  · exact ⟨_, compressOnStore_rows hp hc hlen hrow hdst htag hfree hbad,
      storedPod_spec (Nat.lt_of_add_lt_add_right (Nat.lt_of_le_of_lt (storeDst_rows hdst) (by decide : 2048 < 2048 + 8))) _ _ _⟩
  · refine ⟨_, (exec_compressOnStore hp [] hc.1 hrow hdst htag).trans (issue_clear _ _ hc (dmaWaits_room hlen)), ?_⟩
    rw [doStore_held hc.2.2.1 hheld]
    exact ⟨rfl, bayStores_put_self _ _ _, fun b hb => bayStores_put_ne _ _ hb⟩
  · exact ⟨_, (exec_compressOnStore hp env hworks hrow hdst htag).trans (issue_waits _ _ _ _ _ _ (.inr ((dmaWaits_iff s t).mpr hfull))), rfl⟩
  · have haddr : 512 * r + (16 + 4 * q.pod) = 512 * r + 16 + 4 * q.pod := (Nat.add_assoc _ _ _).symm
    have hrun := exec_podTagWrite hq hp htag hheld
    rw [haddr] at hrun
    have hscratch := tagged_scratch s bay q u ha
    obtain ⟨hself, hothers⟩ := tagged_stores s bay q u (a := 512 * r + 16 + 4 * q.pod)
    refine ⟨_, hrun, _, rfl, hself, hothers, fun x hx => ?_, fun x hx => ?_, countPod_local, fun v hv => tagged_tile_ne s bay q u hv,
      tagged_parts s bay q u⟩
    · rw [hscratch, Mem.read_writeN_inside _ _ _ _ _ (by rw [beBytes_length]; exact hx)]
    · rw [hscratch, Mem.read_writeN_outside _ _ _ _ _ (by rw [beBytes_length]; exact hx)]
  · exact ⟨_, exec_tableLoad hp hc hok hsrc hquad, addLoad_start s _ pt _ hp hload hloadQ hcopy hact⟩
  · obtain ⟨u, hu, hpart, hframe⟩ := addLoad_busy (j := loadJob s t src op) hp hload hloadQ hcopy rfl hact
    obtain ⟨hcount, hstatus, hregs⟩ := tableBusy_counts u (s.owner t)
    have hureg : ∀ o, u.reg .tbl (s.owner t) o = s.reg .tbl (s.owner t) o := fun o => (congrArg (fun x : State => x.reg .tbl (s.owner t) o) hframe :)
    refine ⟨_, (exec_tableLoad hp hc hok hsrc hquad).trans (congrArg _ hu), ?_, hstatus,
      (congrArg (fun x : State => x.part (s.owner t)) hregs :).trans hpart, ?_⟩
    · rw [hcount, hureg]
    · have huregs : u.regs = s.regs := (congrArg (fun x : State => x.regs) hframe :)
      rw [← huregs, hregs]
      exact hframe
  · refine ⟨_, (exec_tableLoad hp hc hok hsrc hquad).trans (congrArg _ (addLoad_behind j hp hload)), part_of_modPart _ hp, onlyPart_modPart _ _ _⟩
  · obtain ⟨htiles, hrest⟩ := finishLoad_spec j hp
    refine ⟨_, exec_tableLoadComplete hp hload, _, rfl, fun t x ht hx => ?_, fun t x _ hx => ?_, fun t ht => ?_, hrest⟩
    · obtain ⟨n, hn⟩ := foldl_modTile_mem (ts := j.targets pt) (fun v => v.loadRows (1 - pt.activeBank j.op.kind) j) s ht
      rw [htiles, hn, loadRows_inside _ _ hrows hx]
    · rw [htiles]
      exact foldl_keeps_byte (fun v => loadRows_outside v _ hrows hx) _ s t
    · rw [htiles]
      exact foldl_modTile_not_mem _ s ht
  · refine ⟨_, exec_tableCopyComplete hp hcopy, _, rfl, fun t x ht hx => ?_, fun t x hx => ?_, fun t ht => ?_, copied_frame s kind hp⟩
    · obtain ⟨n, hn⟩ := foldl_modTile_mem (fun v => v.copyKind (pt.activeBank kind) kind) s ht
      rw [show State.tile (s.copied p pt kind) t = _ from hn, copyKind_inside _ _ hx]
      exact iterate_keeps_byte (fun v => copyKind_outside v _ (kindRange_apart _ hk hx)) n _
    · exact foldl_keeps_byte (fun v => copyKind_outside v _ hx) _ s t
    · exact foldl_modTile_not_mem _ s ht

end Sys2Proof.Machine
end

section
/-!
PROOFS. The memories in their canonical form, at reset and along every step; the scrubber of a scratchpad and the zero fill of a tile.
-/
namespace Sys2Proof.Machine

open Sys2Proof

/-! ## After reset (R99, R335, R483) -/

/-- A register that the table does not list holds its reset value (R483). -/
theorem rawReg_unlisted {s : State} {a : Nat} (h : NMap.find s.regs a = none) : s.rawReg a = regReset a := by
  rw [State.rawReg, h, Option.getD_none]

/-- Memories that list nothing are canonical. -/
theorem Mems.wf_empty : Mems.empty.wf = true :=
  Mems.wf_parts.mpr ⟨Mem.wf_nil _, Mem.wf_nil _, Mem.wf_nil _, Mem.wf_nil _⟩

/-- Settles O2: the tables of the reset state list nothing, so every register reads its reset value by `rawReg_unlisted` and the memories are
canonical by `Mems.wf_empty`. -/
theorem resetHoldsNothing : Obligations.ResetHoldsNothing :=
  ⟨rfl, rfl, rfl, rfl, rfl, rfl, rfl, fun a => rawReg_unlisted (NMap.find_nil a), Mems.wf_empty, rfl, rfl, rfl, rfl⟩

/-! ## Along every step -/

/-- A step keeps every property that the commands keep and that does not depend on the queue. -/
theorem step_keep (J : KeepAll) (hqueue : ∀ s v, J.P s → J.P (s.setPending v)) {s : State} (h : Ok J.toKeep s) : OkR J.toKeep (step s) := by
  unfold step
  cases s.pending with
  | nil => exact okR_next (State.setNow_keep J s _ h)
  | cons c cs => exact exec_keep J c _ (hqueue s cs h)

/-- That the memories are canonical is kept by the setters: only `setMem` touches the memories, and it may only put canonical ones. -/
def canonicalKeep : KeepAll where
  P := State.canonical
  now _ _ h := h
  stamp _ _ h := h
  free _ _ h := h
  timeHi _ _ h := h
  regs _ _ h := h
  tiles _ _ h := h
  pods _ _ h := h
  parts _ _ h := h
  tombs _ _ h := h
  walks _ _ h := h
  dev _ _ h := h
  guard _ _ h := h
  keeper _ _ h := h
  flash _ _ h := h
  lesar _ _ h := h
  eth _ _ h := h
  smb _ _ h := h
  dram _ _ h := h
  nand _ _ h := h
  lender _ _ h := h
  veolo _ _ h := h
  survey _ _ h := h
  modPart _ _ _ h := h
  putPart _ _ _ h := h
  mapParts _ _ h := h
  mem _ _ h hm := hm h

/-- Settles O3: being canonical is a property that every command keeps (`exec_keep`), and the queue has no part in it. -/
theorem stepKeepsMemoryCanonical : Obligations.StepKeepsMemoryCanonical := fun _ t hcanonical hstep =>
  (step_keep canonicalKeep (fun _ _ h => h) hcanonical).get t hstep

/-! ## The scrubber (R110, R111) -/

/-- The state once the scrubber has read the row at the pointer of tile `t`: the errors found count for the partition that owns the tile. -/
def State.scrubRead (s : State) (t : Nat) : State :=
  ((s.ownerOf t).map (fun p => (s.eccFind p t (s.tile t).scrubPtr 1).1)).getD s

/-- A tile whose scrubber has written its row back: corrected words are good again, uncorrectable ones stay, the pointer moves on. -/
def Tile.scrubbed (v : Tile) : Tile :=
  { v with scrubPtr := (v.scrubPtr + 1) % 2048, bad := v.bad.filter (fun e => e.2 || e.1 / 64 != v.scrubPtr) }

theorem scrubRead_owned {s : State} {t p : Nat} (h : s.ownerOf t = some p) :
    s.scrubRead t = (s.eccFind p t (s.tile t).scrubPtr 1).1 := by
  rw [State.scrubRead, h, Option.map_some, Option.getD_some]

theorem scrubRead_unowned {s : State} {t : Nat} (h : s.ownerOf t = none) : s.scrubRead t = s := by
  rw [State.scrubRead, h, Option.map_none, Option.getD_none]

/-- The read changes nothing but the registers. -/
theorem scrubRead_frame (s : State) (t : Nat) : (s.scrubRead t).setRegs s.regs = s := by
  cases howner : s.ownerOf t with
  | none => rw [scrubRead_unowned howner]; rfl
  | some p => rw [scrubRead_owned howner]; exact eccFind_tiles s p t _ 1

theorem scrubRead_tile (s : State) (t u : Nat) : (s.scrubRead t).tile u = s.tile u :=
  (congrArg (fun x : State => x.tile u) (scrubRead_frame s t) :)

theorem scratchpadScrub_runs (s : State) {t : Nat} (ht : t < 512) :
    exec (.scratchpadScrub t []) s = .next ((s.scrubRead t).modTile t Tile.scrubbed) := by
  have htile := scrubRead_tile s t t
  rw [exec_scratchpadScrub s t ht]
  cases howner : s.ownerOf t with
  | none => simp only [scrubRead_unowned howner, State.modTile, Tile.scrubbed]
  | some p =>
    rw [scrubRead_owned howner] at htile ⊢
    simp only [State.modTile, htile, Tile.scrubbed]

/-- A read of the row that holds the tile's one struck word counts and records that word. -/
theorem eccFind_single {s : State} {p t r w : Nat} {ue : Bool} (hw : w < 64) (hbad : (s.tile t).bad = [(64 * r + w, ue)]) :
    s.eccFind p t r 1 = ((s.bump .grat p (if ue then 0x0C else 0x08) 1).record .grat p 0x10 ue (eccWord ue t r w), ue) := by
  have hrow : (64 * r + w) / 64 = r := by omega
  have hword : (64 * r + w) % 64 = w := by omega
  have hin : 64 * r + w < 64 * (r + 1) := by omega
  simp [State.eccFind, hbad, hin, hrow, hword]

/-- Where no record is held, the record is the word given. -/
theorem reg_record_free {s : State} {b : Blk} {k off : Nat} (ue : Bool) (w : Word) (h : (s.reg b k off).bit 31 = false) :
    (s.record b k off ue w).reg b k off = w := by
  simp [State.record, h]

/-! ## The zero fill (R109, R113) -/

/-- A tile that nobody uses, that is out of service or that is being cleared may be filled. -/
theorem tileZeroFill_runs {s : State} {t : Nat} (ht : t < 512)
    (hfree : s.ownerOf t = none ∨ s.tileOut t = true ∨ ∃ p pt, s.ownerOf t = some p ∧ s.part p = some pt ∧ pt.clearing = true) :
    exec (.tileZeroFill t) s = .next (s.clearTile t) := by
  show execTileZeroFill t s = _
  unfold execTileZeroFill require
  rcases hfree with hnone | hout | ⟨p, pt, hp, hpt, hclear⟩
  · simp [ht, hnone]
  · simp [ht, hout]
  · simp [ht, hp, hpt, hclear]

theorem clearTile_scratch (s : State) (t : Nat) : (s.clearTile t).mem.scratch = Mem.clear s.mem.scratch (t * 2 ^ 20) (2 ^ 20) := rfl

theorem clearTile_inside (s : State) (t : Nat) {x : Nat} (hx : x < 2 ^ 20) :
    Mem.read 0#8 (s.clearTile t).mem.scratch (t * 2 ^ 20 + x) = 0#8 := by
  rw [clearTile_scratch, Mem.read_clear, if_pos (in_run _ hx)]

theorem clearTile_outside (s : State) (t : Nat) {x : Nat} (hx : x < t * 2 ^ 20 ∨ t * 2 ^ 20 + 2 ^ 20 ≤ x) :
    Mem.read 0#8 (s.clearTile t).mem.scratch x = Mem.read 0#8 s.mem.scratch x := by
  rw [clearTile_scratch, Mem.read_clear, if_neg (out_run hx)]

theorem clearTile_tile (s : State) (t : Nat) : (s.clearTile t).tile t = { s.tile t with bad := [] } :=
  State.tile_modTile_self _ _ _

theorem clearTile_tile_ne (s : State) {t u : Nat} (hu : u ≠ t) : (s.clearTile t).tile u = s.tile u :=
  State.tile_modTile_ne _ _ hu

/-- Settles O21: a scrub by `scratchpadScrub_runs`, the word it counts and records by `eccFind_single`, the zero fill by `tileZeroFill_runs` and
the laws of `State.clearTile`. -/
theorem rowsScrubbedAndCleared : Obligations.RowsScrubbedAndCleared := by
  refine ⟨fun s t ht => ?_, fun s t p w ht howner hw hbad => ?_, fun s t ht hfree => ?_⟩
  · have htile : ((s.scrubRead t).modTile t Tile.scrubbed).tile t = (s.tile t).scrubbed := by
      rw [State.tile_modTile_self, scrubRead_tile]
    have hframe := scrubRead_frame s t
    refine ⟨_, scratchpadScrub_runs s ht, ?_, ?_, (congrArg (fun x : State => x.mem) hframe :), (congrArg (fun x : State => x.parts) hframe :),
      fun u hu => (State.tile_modTile_ne _ _ hu).trans (scrubRead_tile s t u)⟩
    · rw [htile, Tile.scrubbed]
    · rw [htile, Tile.scrubbed]
  · have hregs : ∀ off, ((s.scrubRead t).modTile t Tile.scrubbed).reg .grat p off = (((s.bump .grat p 0x08 1).record .grat p 0x10 false
        (eccWord false t (s.tile t).scrubPtr w)).reg .grat p off) := by
      intro off
      rw [scrubRead_owned howner, eccFind_single hw hbad]
      rfl
    refine ⟨_, scratchpadScrub_runs s ht, ?_, fun hfree => ?_⟩
    · rw [hregs, reg_record_ne _ _ _ _ (by decide), State.reg_bump_self]
    · exact (hregs 0x10).trans (reg_record_free _ _ (by rwa [reg_bump_ne _ _ _ _ (by decide)]))
  · exact ⟨_, tileZeroFill_runs ht hfree, fun x hx => clearTile_inside s t hx, fun x hx => clearTile_outside s t hx, clearTile_tile s t, rfl, rfl,
      fun u hu => clearTile_tile_ne s hu⟩

end Sys2Proof.Machine
end

section
/-!
PROOFS. The expert cache: FETCH, that hits a slot or takes one, and FETCH_COMPLETE, that fills it (R130, R131, R263, R264).
-/
namespace Sys2Proof.Machine

open Sys2Proof

/-! ## The slot that a miss takes (R264) -/

/-- The age of a slot's last use at a meridian, that of an empty slot beyond all others. -/
def XSlot.age (mer : Nat) (x : XSlot) : Nat := if x.tensor.isNone then 2 ^ 32 else (mer + 2 ^ 32 - x.lastUse) % 2 ^ 32

/-- The slot taken is free, no free slot is older, and those before it are younger. -/
theorem xVictim_oldest {mer i : Nat} {xs : List XSlot} (h : xVictim mer xs = some i) :
    ∃ x, xs[i]? = some x ∧ x.pinned = none ∧ x.arriving = false ∧
      ∀ (j : Nat) (y : XSlot), xs[j]? = some y → y.pinned = none → y.arriving = false →
        y.age mer ≤ x.age mer ∧ (j < i → y.age mer < x.age mer) := by
  obtain ⟨⟨_, a⟩, hfold, rfl⟩ := Option.map_eq_some_iff.mp h
  obtain ⟨-, x, hx, -, hpin, harr, hold⟩ := (xVictim_spec mer xs xs.length (Nat.le_refl _)).2 _ a hfold
  exact ⟨x, hx, hpin, harr, fun j y hy => hold j y (List.getElem?_eq_some_iff.mp hy).1 hy⟩

/-! ## FETCH (R264) -/

/-- The slots as a fetch of a layer finds them: the pins of the layers before the last are off (log entry 20). -/
def Part.unpinned (pt : Part) (layer : Nat) : List XSlot :=
  pt.xcache.map (fun x => if x.pinned.any (fun l => decide (l + 1 < layer)) then { x with pinned := none } else x)

/-- The slots after a hit on a tensor: its slot is pinned and used now. -/
def hitSlots (mer tensor layer : Nat) (xs : List XSlot) : List XSlot :=
  xs.map (fun x => if x.tensor == some tensor then { x with pinned := some layer, lastUse := mer } else x)

/-- A partition whose slots are `xs`, with slot `i` taken for a fetch. -/
def State.slotTaken (s : State) (p tensor layer i : Nat) (xs : List XSlot) (pt : Part) : Part :=
  { pt with xcache := xs.set i { tensor := some tensor, lastUse := s.merCount p, pinned := some layer, arriving := true,
                                 cause := pt.fetchCause tensor [], order := s.stamp } }

/-- A miss counted, a slot taken, the fetch numbered. -/
def State.takeSlot (s : State) (p tensor layer i : Nat) (xs : List XSlot) : State :=
  ((s.bump .tier p 0x1C 1).modPart p (s.slotTaken p tensor layer i xs)).setStamp (s.stamp + 1)

theorem takeSlot_part {s : State} {p : Nat} {pt : Part} (tensor layer i : Nat) (xs : List XSlot) (hp : s.part p = some pt) :
    (s.takeSlot p tensor layer i xs).part p = some (s.slotTaken p tensor layer i xs pt) :=
  part_of_modPart (s.slotTaken p tensor layer i xs) hp

theorem takeSlot_part_ne (s : State) {p q : Nat} (tensor layer i : Nat) (xs : List XSlot) (hq : q ≠ p) :
    (s.takeSlot p tensor layer i xs).part q = s.part q :=
  State.part_modPart_ne s (s.slotTaken p tensor layer i xs) hq

section Fetch
variable {s : State} {p tensor layer : Nat} {pt : Part} {im : Image} (hp : s.part p = some pt) (hi : pt.image = some im)
  (hstep : pt.step.isSome = true) (hfail : s.stepFailed p = false) (hdir : (pt.dir im).any (fun d => d.tensor == tensor && d.flash) = true)
include hp hi hstep hfail hdir

theorem fetch_hits (hhit : (pt.unpinned layer).any (fun x => x.tensor == some tensor) = true) : exec (.fetch p tensor layer []) s =
    .next ((s.bump .tier p 0x18 1).modPart p (fun w => { w with xcache := hitSlots (s.merCount p) tensor layer (pt.unpinned layer) })) := by
  rw [Part.unpinned] at hhit
  show execFetch p tensor layer [] s = _
  simp only [execFetch, hp, hi, hstep, hdir, hfail, hhit, require, State.strike_nil, State.pathErrors_nil, Bool.and_self, if_true,
    Bool.false_eq_true, if_false]
  rfl

/-- A miss takes its slot and, of a tensor that no loan holds, reads the blocks of the NAND tier. -/
theorem fetch_misses {i : Nat} (hmiss : (pt.unpinned layer).any (fun x => x.tensor == some tensor) = false)
    (hvictim : xVictim (s.merCount p) (pt.unpinned layer) = some i) :
    ∃ blocks : List Nat, exec (.fetch p tensor layer []) s = .next (blocks.foldl State.readBlock (s.takeSlot p tensor layer i (pt.unpinned layer))) := by
  rw [Part.unpinned] at hmiss hvictim
  have hexec : exec (.fetch p tensor layer []) s = .next (if pt.lentCopy tensor then s.takeSlot p tensor layer i (pt.unpinned layer)
      else ((s.takeSlot p tensor layer i (pt.unpinned layer)).nandFind pt (pt.tensorNand im tensor).1 (pt.tensorNand im tensor).2 []).1) := by
    show execFetch p tensor layer [] s = _
    simp only [execFetch, hp, hi, hstep, hdir, hfail, hmiss, hvictim, require, State.strike_nil, State.pathErrors_nil, Bool.and_self, if_true,
      Bool.false_eq_true, if_false, sourceLost, List.any_nil, Bool.and_false]
    split <;> rfl
  rw [hexec]
  split
  · exact ⟨[], rfl⟩
  · exact ⟨_, congrArg _ (nandFind_nil _ _ _ _)⟩

end Fetch

/-- Blocks read change nothing but the NAND tier's state and registers. -/
theorem readBlocks_frame (bs : List Nat) (s : State) : ((bs.foldl State.readBlock s).setNand s.nand).setRegs s.regs = s :=
  foldl_inv (fun u : State => (u.setNand s.nand).setRegs s.regs = s) State.readBlock
    (fun u b hu => (congrArg (fun x : State => (x.setNand s.nand).setRegs s.regs) (readBlock_frame u b) :).trans hu) bs s rfl

theorem readBlocks_part (bs : List Nat) (s : State) (q : Nat) : (bs.foldl State.readBlock s).part q = s.part q :=
  (congrArg (fun u : State => u.part q) (readBlocks_frame bs s) :)

theorem readBlocks_tier (bs : List Nat) (s : State) (p off : Nat) : (bs.foldl State.readBlock s).reg .tier p off = s.reg .tier p off :=
  foldl_inv (fun u : State => u.reg .tier p off = s.reg .tier p off) _ (fun u b hu => (readBlock_tier u b p off).trans hu) bs s rfl

/-! ## FETCH_COMPLETE (R130, R131, R264, R272) -/

/-- The end of a fetch noted in the contexts of bays whose SYNC waits for it (R272). -/
def State.noteFetch (s : State) (p tensor now : Nat) (cause : Option Nat) (bays : List Nat) : State :=
  bays.foldl (fun s b => s.modCtx p b (fun c => c.note (fun op => op.fetches.contains tensor) now cause)) s

/-- A note changes nothing but contexts of its partition. -/
theorem noteFetch_spec {s : State} {p : Nat} {pt : Part} (tensor now : Nat) (cause : Option Nat) (bays : List Nat) (hp : s.part p = some pt) :
    (∃ cs, (s.noteFetch p tensor now cause bays).part p = some { pt with ctxs := cs }) ∧ onlyPart s (s.noteFetch p tensor now cause bays) p :=
  foldl_inv (fun u : State => (∃ cs, u.part p = some { pt with ctxs := cs }) ∧ onlyPart s u p) _
    (fun u b ⟨⟨_, hu⟩, honly⟩ => ⟨⟨_, (part_modCtx b _ hu :)⟩, onlyPart_trans honly (onlyPart_modPart u p _)⟩)
    bays s ⟨⟨pt.ctxs, hp⟩, rfl, fun _ _ => rfl⟩

theorem fetchComplete_runs {s : State} {p tensor i : Nat} {pt : Part} {im : Image} (now : Nat) (hp : s.part p = some pt)
    (hi : pt.image = some im) (hnext : pt.nextFetch = some i) (hslot : (pt.xcache[i]?).bind (·.tensor) = some tensor) :
    exec (.fetchComplete p tensor now) s = .next ((((s.at now).noteFetch p tensor (s.at now).now ((pt.xcache[i]?).map (·.cause)) pt.bays).endFetch
      p tensor pt im i).pump p) := by
  obtain ⟨x, hx, htensor⟩ := Option.bind_eq_some_iff.mp hslot
  show execFetchComplete p tensor now s = _
  simp only [execFetchComplete, hp, hi, hnext, Option.filter_some, hx, Option.any_some, htensor, beq_self_eq_true, if_true]
  rfl

section Filled
variable {v : State} {p tensor i : Nat} {pt : Part} {im : Image} {d : DirEntry} (hd : (pt.dir im).find? (fun d => d.tensor == tensor) = some d)
include hd

/-- A pod at fault empties the slot and fails the step. -/
theorem endFetch_fails {e : PodFault} (hfault : shardFault (pt.fetchSource im d).1 (pt.fetchSource im d).2 = some e) :
    v.endFetch p tensor pt im i = (v.modPart p (fun pt => pt.emptySlot tensor)).podFault p 0 (if pt.lentCopy tensor then 2 else 3) e none := by
  simp only [State.endFetch, hd, hfault]

/-- The state in which a fetched tensor's bytes stand in slot `i`. -/
def State.slotFilled (v : State) (i : Nat) (pt : Part) (im : Image) (d : DirEntry) : State :=
  let slot := pt.layout.xcache + i * pt.layout.xslot
  (v.storeTensor pt (pt.fetchSource im d).1 (pt.fetchSource im d).2 slot).touchShare fetchPort pt slot d.stored

theorem endFetch_fills (hsound : shardFault (pt.fetchSource im d).1 (pt.fetchSource im d).2 = none) :
    v.endFetch p tensor pt im i = (v.slotFilled i pt im d).modPart p (fun w =>
      { w with xcache := w.xcache.map (fun x => if x.tensor == some tensor then { x with arriving := false } else x) }) := by
  simp only [State.endFetch, hd, hsound]
  rfl

end Filled

/-- The bytes written change no partition. -/
theorem slotFilled_part (v : State) (i : Nat) (pt : Part) (im : Image) (d : DirEntry) (q : Nat) : (v.slotFilled i pt im d).part q = v.part q :=
  shareOnly_part (shareOnly_trans (storeTensor_only ..) (touchOnly_share (touchShare_only ..))) q

/-- The accesses counted change no memory. -/
theorem slotFilled_mem (v : State) (i : Nat) (pt : Part) (im : Image) (d : DirEntry) : (v.slotFilled i pt im d).mem =
    (v.storeTensor pt (pt.fetchSource im d).1 (pt.fetchSource im d).2 (pt.layout.xcache + i * pt.layout.xslot)).mem :=
  touchOnly_field (·.mem) (fun _ _ _ => rfl) (touchShare_only ..)

/-- Settles O25: a hit by `fetch_hits`, a miss by `fetch_misses` with the laws of the blocks read, the slot taken by `xVictim_oldest`, the end of
a fetch by `fetchComplete_runs`, whose slot is emptied by `endFetch_fails` or filled by `endFetch_fills`. -/
theorem expertCacheFetches : Obligations.ExpertCacheFetches := by
  refine ⟨fun s p tensor layer pt im hp hi hstep hfail hdir => ⟨fun hhit => ?_, fun i hmiss hvictim => ?_⟩,
    fun mer i xs h => xVictim_oldest h, fun s p tensor i now pt im d hp hi hnext hslot hd => ?_⟩
  · exact ⟨_, fetch_hits hp hi hstep hfail hdir hhit, State.reg_bump_self _ _ _ _ _, part_of_modPart _ hp, rfl,
      fun q hq => State.part_modPart_ne _ _ hq⟩
  · obtain ⟨blocks, hexec⟩ := fetch_misses hp hi hstep hfail hdir hmiss hvictim
    have hframe := readBlocks_frame blocks (s.takeSlot p tensor layer i (pt.unpinned layer))
    refine ⟨_, hexec, ?_, (readBlocks_part ..).trans (takeSlot_part tensor layer i _ hp), (congrArg (fun u : State => u.stamp) hframe :),
      (congrArg (fun u : State => u.mem) hframe :), (congrArg (fun u : State => u.tiles) hframe :),
      fun q hq => (readBlocks_part ..).trans (takeSlot_part_ne s tensor layer i _ hq)⟩
    rw [readBlocks_tier]
    exact State.reg_bump_self _ _ _ _ _
  · obtain ⟨⟨cs, hv⟩, honly, hothers⟩ :=
      noteFetch_spec (s := s.at now) tensor (s.at now).now ((pt.xcache[i]?).map (·.cause)) pt.bays hp
    refine ⟨_, fetchComplete_runs now hp hi hnext hslot, _, cs, hv, (congrArg (fun u : State => u.mem) honly :), hothers,
      fun e hfault => ⟨_, part_of_modPart (fun w => w.emptySlot tensor) hv, rfl, congrArg (State.pump · p) (endFetch_fails hd hfault)⟩,
      fun hsound => ⟨_, congrArg (State.pump · p) (endFetch_fills hd hsound), slotFilled_mem .., ?_, fun q hq => ?_⟩⟩
    · exact part_of_modPart _ ((slotFilled_part ..).trans hv)
    · exact (State.part_modPart_ne _ _ hq).trans ((slotFilled_part ..).trans (hothers q hq))

end Sys2Proof.Machine
end

section
/-!
PROOFS. SFU_ROW_OPERATION: one function on every element of a row (O19).
-/
namespace Sys2Proof.Machine

open Sys2Proof

/-- The result of the SFU for element `i` of a row, elements of `w` bytes each. -/
def State.sfuElement (s : State) (t fn inFmt outFmt src w i : Nat) : SfuOut :=
  sfu fn (s.sfuMode (s.owner t)) outFmt (toF32 (valueOfCode inFmt (ofLe (slice (s.row t src) (w * i) w))))

/-- The codes of a row's results as bytes, in the row's order. -/
def codeBytes (w n : Nat) (r : Nat → SfuOut) : Bytes := (List.range n).flatMap (fun i => leBytes w (r i).code)

/-- Results of a row that have a mark. -/
def countMarks (n : Nat) (r : Nat → SfuOut) (f : SfuOut → Bool) : Nat := (((List.range n).map r).filter f).length

/-- Elements of FP32, BF16 and FP16 fill a row exactly. -/
theorem elements_fill_row {fmt : Nat} (h1 : 1 ≤ fmt) (h3 : fmt ≤ 3) : 512 / (elemBits fmt / 8) * (elemBits fmt / 8) = 512 := by
  obtain rfl | rfl | rfl : fmt = 1 ∨ fmt = 2 ∨ fmt = 3 := by omega
  all_goals rfl

theorem codeBytes_length (w n : Nat) (r : Nat → SfuOut) : (codeBytes w n r).length = n * w := by
  simp [codeBytes, List.length_flatMap, leBytes_length]

theorem codeBytes_getD {w n i b : Nat} (r : Nat → SfuOut) (hi : i < n) (hb : b < w) :
    (codeBytes w n r).getD (w * i + b) 0#8 = (leBytes w (r i).code).getD b 0#8 :=
  flatMap_getD _ w (fun _ => leBytes_length w _) n i b hi hb

/-- Where no ROM read fails and no word is struck, the codes of the row's results are written and counted with the step. -/
theorem doSfuRow_writes {s : State} {t : Nat} (fn inFmt outFmt src dst : Nat) (hbad : (s.tile t).bad = [])
    (hfail : s.stepFailed (s.owner t) = false) :
    let w := elemBits inFmt / 8
    let r := s.sfuElement t fn inFmt outFmt src w
    s.doSfuRow t fn inFmt outFmt src dst [] = (s.writeRow t dst (codeBytes w (512 / w) r)).countSfu (s.owner t)
      (countMarks (512 / w) r (·.clamp)) (countMarks (512 / w) r (·.nan)) := by
  have hrow : s.rows t src 1 = s.row t src := by simp [State.rows]
  simp only [State.doSfuRow, State.strike_nil, State.pathErrors_nil, hfail, State.engineRows_clean s _ t src 1 hbad, hrow, romStruck,
    List.any_nil, Bool.false_eq_true, if_false, List.flatMap_map]
  rfl

/-- With a ROM parity error nothing is written and the step fails (R153). -/
theorem doSfuRow_parity {s : State} {t : Nat} (fn inFmt outFmt src dst : Nat) (hfail : s.stepFailed (s.owner t) = false) :
    s.doSfuRow t fn inFmt outFmt src dst [.romParity t] = s.romFail (s.owner t) := by
  have hclean : (s.strike [.romParity t]).pathErrors (s.owner t) [.romParity t] = s := rfl
  have hstruck : romStruck t [.romParity t] = true := by simp [romStruck]
  simp only [State.doSfuRow, hclean, hfail, hstruck, Bool.false_eq_true, if_false, if_true]

/-- Counting results with a step leaves the rows and the other partitions as they are. -/
theorem onlyRows_countSfu {s u : State} {t r n : Nat} (p clamps nans : Nat) (h : onlyRows s u t r n) :
    onlyRows s ((u.countSfu p clamps nans).setParts s.parts) t r n ∧ ∀ q, q ≠ p → (u.countSfu p clamps nans).part q = s.part q := by
  have hframe := h.1
  have hparts : s.parts = u.parts := (congrArg (fun x : State => x.parts) hframe :).symm
  refine ⟨?_, fun q hq => (State.part_modPart_ne u _ hq).trans (congrArg (fun x : State => x.part q) hframe :)⟩
  rw [hparts]
  exact h

section SfuRow
variable {s : State} {t fn inFmt outFmt src dst : Nat} (hc : s.tileClear t) (hfn : fn < 16) (hi1 : 1 ≤ inFmt) (hi3 : inFmt ≤ 3)
  (ho1 : 1 ≤ outFmt) (ho3 : outFmt ≤ 3) (hbits : elemBits inFmt = elemBits outFmt) (hsrc : src < 2048) (hdst : dst < 2048)
include hc hfn hi1 hi3 ho1 ho3 hbits hsrc hdst

/-- A row operation of a clear tile acts. -/
theorem exec_sfuRowOperation (env : List Strike) : exec (.sfuRowOperation t fn inFmt outFmt src dst env) s =
    .next (s.doSfuRow t fn inFmt outFmt src dst env) := by
  refine Eq.trans ?_ (issue_clear (.sfuRowOperation t fn inFmt outFmt src dst env) _ hc rfl)
  show execSfuRowOperation t fn inFmt outFmt src dst env s = _
  simp only [execSfuRowOperation, hc.1, hfn, hi1, hi3, ho1, ho3, hbits, hsrc, hdst, require, decide_true, beq_self_eq_true,
    Bool.and_self, if_true]

/-- The destination row holds the code of every element's result; nothing else changes but what the step counts. -/
theorem sfuRow_writes : completes (.sfuRowOperation t fn inFmt outFmt src dst []) s (fun s' =>
    (∀ i b, i < 512 / (elemBits inFmt / 8) → b < elemBits inFmt / 8 →
      Mem.read 0#8 s'.mem.scratch (t * 2 ^ 20 + 512 * dst + (elemBits inFmt / 8 * i + b)) =
        (leBytes (elemBits inFmt / 8) (s.sfuElement t fn inFmt outFmt src (elemBits inFmt / 8) i).code).getD b 0#8) ∧
    onlyRows s (s'.setParts s.parts) t dst 1 ∧ ∀ q, q ≠ s.owner t → s'.part q = s.part q) := by
  have hrun := exec_sfuRowOperation hc hfn hi1 hi3 ho1 ho3 hbits hsrc hdst []
  rw [doSfuRow_writes fn inFmt outFmt src dst hc.2.1 hc.2.2.1] at hrun
  have hfill := elements_fill_row hi1 hi3
  generalize elemBits inFmt / 8 = w at hrun hfill ⊢
  have hlen := (codeBytes_length w (512 / w) (s.sfuElement t fn inFmt outFmt src w)).trans hfill
  refine ⟨_, hrun, fun i b hi hb => ?_, onlyRows_countSfu _ _ _ (onlyRows_writeRow s t dst 1 0 _ hlen Nat.one_pos (by omega))⟩
  have hin : w * i + b < 512 := by
    calc w * i + b < w * (i + 1) := by rw [Nat.mul_succ]; omega
      _ ≤ w * (512 / w) := Nat.mul_le_mul_left w hi
      _ = 512 := (Nat.mul_comm ..).trans hfill
  show Mem.read 0#8 (s.writeRow t dst _).mem.scratch _ = _
  rw [← writeRows_one s t dst _ hlen, read_after_writeRows s t dst 1 _ _ (by omega) (by omega), codeBytes_getD _ hi hb]

end SfuRow

/-- Settles O19: the row written by `sfuRow_writes`, the failed ROM read by `doSfuRow_parity`. -/
theorem sfuRowOperation : Obligations.SfuRowOperation := by
  intro s t fn inFmt outFmt src dst hc hfn hi1 hi3 ho1 ho3 hbits hsrc hdst
  refine ⟨sfuRow_writes hc hfn hi1 hi3 ho1 ho3 hbits hsrc hdst, _, exec_sfuRowOperation hc hfn hi1 hi3 ho1 ho3 hbits hsrc hdst _, ?_⟩
  exact doSfuRow_parity fn inFmt outFmt src dst hc.2.2.1

end Sys2Proof.Machine
end

section
/-!
PROOFS. Statistics collectives and rings: the fold of partials, ring prefill, decode queries and releases (O34).
-/
namespace Sys2Proof.Machine

open Sys2Proof

/-! ## The fold of statistics (R145, R147, R148, R150, R154) -/

/-- A step whose open collectives become `colls`, with evaluations counted. -/
def StepSt.collected (v : StepSt) (colls : List Nat) (e : Nat × Nat) : StepSt :=
  { v with colls := colls, sfuClamp := v.sfuClamp + e.1, sfuNan := v.sfuNan + e.2 }

/-- A change of the open collectives and the count of evaluations are one change of the partition. -/
theorem modPart_countEvals (s : State) (p : Nat) (f : List Nat → List Nat) (es : List (Nat × Word)) :
    (s.modPart p (fun pt => { pt with step := pt.step.map (fun v => { v with colls := f v.colls }) })).countEvals p es =
      s.modPart p (fun pt => { pt with step := pt.step.map (fun v => v.collected (f v.colls) (sfuTally (s.sfuMode p) es)) }) := by
  unfold State.countEvals State.countSfu
  rw [State.modPart_modPart]
  simp only [Option.map_map]
  rfl

/-- What a member has after it has combined the fold with its own partial: the collective open in its step, the evaluations counted. -/
def State.foldedAt (s : State) (p col : Nat) (inc own : Partial) : State :=
  s.modPart p (fun pt => { pt with step := pt.step.map (fun v =>
    v.collected (v.colls ++ [col]) (sfuTally (s.sfuMode p) (Partial.combineEvals inc own))) })

section Fold
variable (s : State) {p col : Nat} (ns : Nat) (inc own : Partial)

theorem foldOn_eq (p col : Nat) : s.foldOn p col ns inc own =
    if s.ringPos p + 1 == (s.ringOf p).length && col == s.ringPos p then
      (s.foldedAt p col inc own).endColl p ns (Partial.combine (s.sfuMode p) inc own)
    else (s.foldedAt p col inc own).sendTo ((s.ringOf p).getD (if s.ringPos p + 1 < (s.ringOf p).length then s.ringPos p + 1 else col) 0)
      .collective p (Partial.bytes (Partial.combine (s.sfuMode p) inc own)) := by
  have hjoin := modPart_countEvals s p (fun cs => cs ++ [col]) (Partial.combineEvals inc own)
  unfold State.foldOn State.joinColl
  rw [hjoin]
  rfl

theorem foldOn_next (h : s.ringPos p + 1 < (s.ringOf p).length) : s.foldOn p col ns inc own =
    (s.foldedAt p col inc own).sendTo ((s.ringOf p).getD (s.ringPos p + 1) 0) .collective p
      (Partial.bytes (Partial.combine (s.sfuMode p) inc own)) := by
  rw [foldOn_eq, if_neg (by simp [Nat.ne_of_lt h]), if_pos h]

theorem foldOn_owner (h : s.ringPos p + 1 = (s.ringOf p).length) (hcol : col ≠ s.ringPos p) : s.foldOn p col ns inc own =
    (s.foldedAt p col inc own).sendTo ((s.ringOf p).getD col 0) .collective p
      (Partial.bytes (Partial.combine (s.sfuMode p) inc own)) := by
  rw [foldOn_eq, if_neg (by simp [hcol]), if_neg (Nat.not_lt.mpr (Nat.le_of_eq h.symm))]

theorem foldOn_ends (h : s.ringPos p + 1 = (s.ringOf p).length) (hcol : col = s.ringPos p) : s.foldOn p col ns inc own =
    (s.foldedAt p col inc own).endColl p ns (Partial.combine (s.sfuMode p) inc own) := by
  rw [foldOn_eq, if_pos (by simp [h, hcol])]

end Fold

/-- A partition whose collective has ended: it is no longer open in the step, and its finish is counted. -/
def Part.collEnded (pt : Part) (k : Nat) (e : Nat × Nat) : Part :=
  { pt with step := pt.step.map (fun v => v.collected (v.colls.erase k) e) }

/-- A collective that ends at its owner: the result arrives and is counted with its duration. -/
theorem endColl_eq (s : State) (p ns : Nat) (r : Partial) : s.endColl p ns r =
    (((s.modPart p (fun pt => pt.collEnded (s.ringPos p) (sfuTally (s.sfuMode p) (finishEvals r)))).setVeolo
      { s.veolo with inbox := s.veolo.inbox ++ [(2, .collective, p, bytesOfWords (finishPartial (s.sfuMode p) r))] }).bump
        .sfu p 0x0C 1).putReg .sfu p 0x14 (BitVec.ofNat 32 (min 0xFFFFFFFF ns)) := by
  have hleave := modPart_countEvals s p (fun cs => cs.erase (s.ringPos p)) (finishEvals r)
  exact congrArg (fun u : State => ((u.setVeolo
    { u.veolo with inbox := u.veolo.inbox ++ [(2, .collective, p, bytesOfWords (finishPartial (s.sfuMode p) r))] }).bump
      .sfu p 0x0C 1).putReg .sfu p 0x14 (BitVec.ofNat 32 (min 0xFFFFFFFF ns))) hleave

theorem endColl_veolo (s : State) (p ns : Nat) (r : Partial) : (s.endColl p ns r).veolo =
    { s.veolo with inbox := s.veolo.inbox ++ [(2, .collective, p, bytesOfWords (finishPartial (s.sfuMode p) r))] } := by
  rw [endColl_eq]
  rfl

/-- Registers set are no longer seen where the registers are put back. -/
theorem putReg_restored (s : State) (b : Blk) (k off : Nat) (w : Word) (v : Veolo) (ps : NMap Part) (rs : NMap Word) :
    (((s.putReg b k off w).setVeolo v).setParts ps).setRegs rs = ((s.setVeolo v).setParts ps).setRegs rs := rfl

/-- The end of a collective changes nothing but the links, the partition and the registers. -/
theorem endColl_frame (s : State) (p ns : Nat) (r : Partial) :
    (((s.endColl p ns r).setVeolo s.veolo).setParts s.parts).setRegs s.regs = s := by
  rw [endColl_eq, putReg_restored, State.bump, putReg_restored]
  rfl

theorem endColl_part {s : State} {p : Nat} {pt : Part} (ns : Nat) (r : Partial) (hp : s.part p = some pt) :
    (s.endColl p ns r).part p = some (pt.collEnded (s.ringPos p) (sfuTally (s.sfuMode p) (finishEvals r))) := by
  rw [endColl_eq]
  exact part_of_modPart (fun pt => pt.collEnded (s.ringPos p) (sfuTally (s.sfuMode p) (finishEvals r))) hp

theorem endColl_part_ne (s : State) {p q : Nat} (ns : Nat) (r : Partial) (hq : q ≠ p) : (s.endColl p ns r).part q = s.part q := by
  rw [endColl_eq]
  exact State.part_modPart_ne s (fun pt => pt.collEnded (s.ringPos p) (sfuTally (s.sfuMode p) (finishEvals r))) hq

theorem endColl_counts (s : State) (p ns : Nat) (r : Partial) :
    ((s.endColl p ns r).reg .sfu p 0x0C).toNat = min 0xFFFFFFFF ((s.reg .sfu p 0x0C).toNat + 1) := by
  rw [endColl_eq, reg_putReg_ne _ _ _ _ (by decide), State.reg_bump_self]
  rfl

theorem endColl_duration (s : State) (p ns : Nat) (r : Partial) :
    (s.endColl p ns r).reg .sfu p 0x14 = BitVec.ofNat 32 (min 0xFFFFFFFF ns) := by
  rw [endColl_eq, State.reg_putReg_self]

/-! ## STATISTICS_PARTIAL (R148, R180) -/

theorem modify_middle {α : Type} (f : α → α) (g : α) (l2 : List α) : ∀ l1 : List α,
    (l1 ++ g :: l2).modify l1.length f = l1 ++ f g :: l2
  | [] => rfl
  | a :: l1 => congrArg (a :: ·) (modify_middle f g l2 l1)

theorem takeReply_none {pt : Part} {o : Nat} (h : ∀ g ∈ pt.segments, g.owner = o → g.reply = none) : pt.takeReply o = none := by
  have hfind : pt.segments.findIdx? (fun g => g.owner == o && g.reply.isSome) = none :=
    List.findIdx?_eq_none_iff.mpr (fun g hg => by simpa using fun ho => h g hg ho)
  rw [Part.takeReply, hfind]

/-- The first reply that waits for an owner's fold is taken out of its segment. -/
theorem takeReply_first {pt : Part} {o : Nat} {l1 l2 : List Segment} {g : Segment} {r : Partial} (hl : pt.segments = l1 ++ g :: l2)
    (h : ∀ x ∈ l1, x.owner = o → x.reply = none) (ho : g.owner = o) (hr : g.reply = some r) :
    pt.takeReply o = some (r, { pt with segments := l1 ++ { g with reply := none } :: l2 }) := by
  have hbefore : l1.findIdx? (fun g => g.owner == o && g.reply.isSome) = none :=
    List.findIdx?_eq_none_iff.mpr (fun x hx => by simpa using fun hxo => h x hx hxo)
  have hfind : pt.segments.findIdx? (fun g => g.owner == o && g.reply.isSome) = some l1.length := by
    simp [hl, List.findIdx?_append, hbefore, List.findIdx?_cons, ho, hr]
  have hat : pt.segments[l1.length]? = some g := by simp [hl]
  have hmod : pt.segments.modify l1.length (fun g => { g with reply := none }) = l1 ++ { g with reply := none } :: l2 :=
    (congrArg (fun l => List.modify l l1.length _) hl).trans (modify_middle _ g l2 l1)
  simp only [Part.takeReply, hfind, hat, Option.bind_some, hr, Option.map_some, hmod]

section Statistics
variable {s : State} {p col ns : Nat} (inc own : Partial) {pt : Part} (hp : s.part p = some pt) (hring : s.inRing p = true)
  (hcol : col < (s.ringOf p).length)

include hring hcol in
/-- The result of a collective comes back to its owner. -/
theorem statistics_end (hns : ns ≠ 0) (hown : col = s.ringPos p) (hlast : s.ringPos p + 1 ≠ (s.ringOf p).length) :
    exec (.statisticsPartial p col inc own ns) s = .next ((s.endColl p ns inc).pump p) := by
  show execStatisticsPartial p col inc own ns s = _
  have hmine : (decide (ns ≠ 0) && decide (col = s.ringPos p) && decide (s.ringPos p + 1 ≠ (s.ringOf p).length)) = true := by
    simp [hns, hown, hlast]
  simp only [execStatisticsPartial, require, hring, hcol, decide_true, Bool.and_self, if_true, hmine]

section OnItsWay
variable (hway : ns = 0 ∨ col ≠ s.ringPos p ∨ s.ringPos p + 1 = (s.ringOf p).length)
include hway

/-- A partial on its way is no result of this member's collective. -/
theorem statistics_not_result : (decide (ns ≠ 0) && decide (col = s.ringPos p) && decide (s.ringPos p + 1 ≠ (s.ringOf p).length)) = false := by
  simp only [Bool.and_eq_false_iff, decide_eq_false_iff_not]
  tauto

include hp hring hcol

/-- Where no reply waits for the fold, the member's own partial goes into it. -/
theorem statistics_fold_own (hnone : pt.takeReply ((s.ringOf p).getD col 0) = none) : exec (.statisticsPartial p col inc own ns) s =
    .next ((s.foldOn p col ns inc own).pump p) := by
  have hway := statistics_not_result hway
  show execStatisticsPartial p col inc own ns s = _
  simp only [execStatisticsPartial, require, hring, hcol, decide_true, Bool.and_self, if_true, hway, Bool.false_eq_true, if_false, hp,
    Option.bind_some, hnone]

/-- A reply that waits for the fold goes into it in place of the member's own partial. -/
theorem statistics_fold_reply {r : Partial} {v : Part} (hreply : pt.takeReply ((s.ringOf p).getD col 0) = some (r, v)) :
    exec (.statisticsPartial p col inc own ns) s = .next (((s.putPart p v).foldOn p col ns inc r).pump p) := by
  have hway := statistics_not_result hway
  show execStatisticsPartial p col inc own ns s = _
  simp only [execStatisticsPartial, require, hring, hcol, decide_true, Bool.and_self, if_true, hway, Bool.false_eq_true, if_false, hp,
    Option.bind_some, hreply]

end OnItsWay

end Statistics

/-! ## Ring prefill (R177 to R179) -/

/-- A segment with the sheets `ks`, after `rounds` rounds whose partials have been folded into `acc`. -/
def Segment.entered (owner handle off : Nat) (ks : List Nat) (acc : List Partial) (rounds : Nat) : Segment :=
  { owner := owner, handle := handle, offset := off, sheets := ks, acc := acc, rounds := rounds, reply := none }

/-- A partition with the sheets `sh` and one more segment. -/
def Part.enter (pt : Part) (sh : NMap Sheet) (g : Segment) : Part := { pt with sheets := sh, segments := pt.segments ++ [g] }

/-- The stored form of sheets does not look at the records of the sheets and segments. -/
theorem storedForm_enter (s : State) (p : Nat) (pt : Part) (sh : NMap Sheet) (g : Segment) (ks : List Nat) :
    s.storedForm p (pt.enter sh g) ks = s.storedForm p pt ks := storedForm_congr s p (pt.enter sh g) pt rfl rfl rfl ks

theorem homeSheets_enter (pt : Part) (sh : NMap Sheet) (g : Segment) (handle : Nat) :
    (pt.enter sh g).homeSheets handle = pt.homeSheets handle := rfl

/-- A segment after the partials of a round have been folded into it, where it is the one named. -/
def Segment.folded (mode owner handle round : Nat) (blocked : Bool) (own : List Partial) (g : Segment) : Segment :=
  if g.owner == owner && g.handle == handle then
    { g with acc := if blocked then g.acc else foldPartials mode g.acc own, rounds := round + 1 }
  else g

/-- A partition whose segments have been through a round. -/
def Part.foldRound (mode owner handle round : Nat) (blocked : Bool) (own : List Partial) (pt : Part) : Part :=
  { pt with segments := pt.segments.map (Segment.folded mode owner handle round blocked own) }

/-- What the first round folds. -/
def firstFold (mode : Nat) (blocked : Bool) (own : List Partial) : List Partial := if blocked then [] else foldPartials mode [] own

/-- The next offset of a ring. -/
def State.ringNext (s : State) (p : Nat) : Nat := (s.ringOf p).getD ((s.ringPos p + 1) % (s.ringOf p).length) 0

section Absent
variable {pt : Part} {owner handle : Nat} (h : pt.segment owner handle = none)
include h

theorem segment_none_ne : ∀ g ∈ pt.segments, ¬(g.owner == owner && g.handle == handle) = true := List.find?_eq_none.mp h

/-- The first round touches the segment just entered alone. -/
theorem foldRound_enter (mode off : Nat) (ks : List Nat) (sh : NMap Sheet) (blocked : Bool) (own : List Partial) :
    (pt.enter sh (Segment.entered owner handle off ks [] 0)).foldRound mode owner handle 0 blocked own =
      pt.enter sh (Segment.entered owner handle off ks (firstFold mode blocked own) 1) := by
  have hold : pt.segments.map (Segment.folded mode owner handle 0 blocked own) = pt.segments :=
    (List.map_congr_left (fun g hg => if_neg (segment_none_ne h g hg))).trans (List.map_id' _)
  have hnew : Segment.folded mode owner handle 0 blocked own (Segment.entered owner handle off ks [] 0) =
      Segment.entered owner handle off ks (firstFold mode blocked own) 1 := if_pos (by simp [Segment.entered])
  simp only [Part.foldRound, Part.enter, List.map_append, hold, List.map_singleton, hnew]

/-- The segment entered is the one that its owner and handle name. -/
theorem segment_enter (sh : NMap Sheet) (off : Nat) (ks : List Nat) (acc : List Partial) (rounds : Nat) :
    (pt.enter sh (Segment.entered owner handle off ks acc rounds)).segment owner handle =
      some (Segment.entered owner handle off ks acc rounds) := by
  have hnone : pt.segments.find? (fun g => g.owner == owner && g.handle == handle) = none := h
  rw [Part.segment, Part.enter, List.find?_append, hnone]
  simp [Segment.entered]

end Absent

/-- A member's own segment goes in stored form: at home the sheets that the sequence keeps, elsewhere those of the segment. -/
theorem ownSegment_eq {s : State} {p : Nat} {v : Part} (owner handle off : Nat) (hv : s.part p = some v) :
    s.ownSegment p owner handle off =
      s.storedForm p v (if off = 0 then v.homeSheets handle else ((v.segment owner handle).map (·.sheets)).getD []) := by
  simp only [State.ownSegment, hv]

section RingSegment
variable {s : State} {p owner h off : Nat} {pt : Part} (first : Nat) (toks : List Nat) (blocked : Bool) (own : List Partial)
  (hp : s.part p = some pt) (hring : s.inRing p = true) (hoff : off < (s.ringOf p).length)
  (howner : (s.ringOf p).getD ((s.ringPos p + (s.ringOf p).length - off) % (s.ringOf p).length) 0 = owner)
include hp hring hoff howner

/-- Round 0: the member enters, folds its partials into the new segment and sends its own segment on. -/
theorem exec_ringSegment_enters (hnew : pt.segment owner h = none)
    (hroom : off ≠ 0 → pt.segSheets + (toks.length + 127) / 128 ≤ s.ringReserve p ∧
      pt.sheets.length + (toks.length + 127) / 128 ≤ s.sheetTotal p) :
    let s1 := s.enterSegment p owner h off first toks
    exec (.ringSegment p owner h off 0 first toks blocked own) s =
      .next ((s1.modPart p (Part.foldRound (s.sfuMode p) owner h 0 blocked own)).sendTo
        (s.ringNext p) .ring p (s1.ownSegment p owner h off)) := by
  have hfits : (off == 0 || (decide (pt.segSheets + (toks.length + 127) / 128 ≤ s.ringReserve p) &&
      decide (pt.sheets.length + (toks.length + 127) / 128 ≤ s.sheetTotal p))) = true := by
    by_cases h0 : off = 0
    · simp [h0]
    · simp [hroom h0]
  have hpos : 0 < (s.ringOf p).length := Nat.zero_lt_of_lt hoff
  show execRingSegment p owner h off 0 first toks blocked own s = _
  simp only [execRingSegment, hp, require, hring, hoff, howner, hnew, hfits, hpos, Option.isNone_none, beq_self_eq_true, decide_true,
    Bool.and_self, if_true]
  rfl

/-- A later round: the member folds its partials into its segment and sends on the segment that has arrived. -/
theorem exec_ringSegment_passes {round : Nat} {g : Segment} (h0 : 0 < round) (hround : round < (s.ringOf p).length)
    (hg : pt.segment owner h = some g) (hrounds : g.rounds = round) :
    let m := s.takeMessage p .ring
    exec (.ringSegment p owner h off round first toks blocked own) s =
      .next ((m.1.modPart p (Part.foldRound (s.sfuMode p) owner h round blocked own)).sendTo
        (s.ringNext p) .ring p m.2) := by
  show execRingSegment p owner h off round first toks blocked own s = _
  simp only [execRingSegment, hp, require, hring, hoff, howner, hround, hg, hrounds, Nat.ne_of_gt h0, Option.any_some, beq_self_eq_true,
    decide_true, Bool.and_self, if_true, if_false]
  rfl

end RingSegment

/-- The stored form of sheets does not look at the partitions' records. -/
theorem storedForm_modPart (s : State) (p q : Nat) (f : Part → Part) (v : Part) (ks : List Nat) :
    (s.modPart q f).storedForm p v ks = s.storedForm p v ks := rfl

section Enters
variable {s : State} {p owner h off : Nat} {pt : Part} (first : Nat) (toks : List Nat) (blocked : Bool) (own : List Partial)
  (hp : s.part p = some pt) (hring : s.inRing p = true) (hoff : off < (s.ringOf p).length)
  (howner : (s.ringOf p).getD ((s.ringPos p + (s.ringOf p).length - off) % (s.ringOf p).length) 0 = owner)
  (hnew : pt.segment owner h = none)
include hp hring hoff howner hnew

/-- At home the member takes no sheets of its reserve, and sends those that the sequence keeps. -/
theorem ringSegment_home (h0 : off = 0) : ∃ u : State,
    exec (.ringSegment p owner h off 0 first toks blocked own) s =
      .next (u.sendTo (s.ringNext p) .ring p (s.storedForm p pt (pt.homeSheets h))) ∧
    onlyPart s u p ∧ u.part p = some (pt.enter pt.sheets (Segment.entered owner h 0 [] (firstFold (s.sfuMode p) blocked own) 1)) := by
  subst h0
  have hrun := exec_ringSegment_enters (h := h) first toks blocked own hp hring hoff howner hnew (fun h0 => absurd rfl h0)
  have henter : s.enterSegment p owner h 0 first toks = s.modPart p (fun v => v.enter v.sheets (Segment.entered owner h 0 [] [] 0)) := rfl
  dsimp only at hrun
  have hpart := part_of_modPart (fun v => v.enter v.sheets (Segment.entered owner h 0 [] [] 0)) hp
  rw [henter, ownSegment_eq owner h 0 hpart, if_pos rfl, storedForm_modPart, storedForm_enter, homeSheets_enter] at hrun
  refine ⟨_, hrun, onlyPart_trans (onlyPart_modPart s p _) (onlyPart_modPart _ p _), ?_⟩
  rw [part_of_modPart _ hpart]
  exact congrArg some (foldRound_enter hnew _ 0 [] pt.sheets blocked own)

/-- Away from home the member takes sheets from its reserve for the tokens of its segment, and sends them. -/
theorem ringSegment_reserve (h0 : off ≠ 0) (hreserve : pt.segSheets + (toks.length + 127) / 128 ≤ s.ringReserve p)
    (htotal : pt.sheets.length + (toks.length + 127) / 128 ≤ s.sheetTotal p) (hsorted : NMap.sorted pt.sheets = true) :
    ∃ (u : State) (sh : NMap Sheet) (ks : List Nat),
      exec (.ringSegment p owner h off 0 first toks blocked own) s = .next (u.sendTo (s.ringNext p) .ring p (u.storedForm p pt ks)) ∧
      shareOnly s (u.setParts s.parts) ∧ (∀ q, q ≠ p → u.part q = s.part q) ∧ ks.length = (toks.length + 127) / 128 ∧
      u.part p = some (pt.enter sh (Segment.entered owner h off ks (firstFold (s.sfuMode p) blocked own) 1)) ∧
      (∀ k, k ∉ ks → NMap.find sh k = NMap.find pt.sheets k) ∧
      (∀ i (hi : i < ks.length), NMap.find pt.sheets ks[i] = none ∧
        NMap.find sh ks[i] = some (Sheet.ofSegment (first + 128 * i) (toks.drop (128 * i)))) := by
  have hrun := exec_ringSegment_enters first toks blocked own hp hring hoff howner hnew (fun _ => ⟨hreserve, htotal⟩)
  obtain ⟨ks, sh, hks, hlen, honly, hothers, hpart, hkept, htaken⟩ :=
    takeReserve_spec p (toks.length / 128 + 1) first toks s [] pt hp hsorted (by omega)
  have henter : s.enterSegment p owner h off first toks = (s.takeReserve p (toks.length / 128 + 1) first toks []).1.modPart p
      (fun v => v.enter v.sheets (Segment.entered owner h off ks [] 0)) := by
    simp only [State.enterSegment, if_neg h0, hks, List.nil_append]
    rfl
  dsimp only at hrun
  rw [henter] at hrun
  generalize (s.takeReserve p (toks.length / 128 + 1) first toks []).1 = w at hrun honly hothers hpart
  have hentered : (w.modPart p (fun v => v.enter v.sheets (Segment.entered owner h off ks [] 0))).part p =
      some (pt.enter sh (Segment.entered owner h off ks [] 0)) := part_of_modPart _ hpart
  rw [ownSegment_eq owner h off hentered, if_neg h0, segment_enter hnew, storedForm_modPart, storedForm_enter] at hrun
  refine ⟨_, sh, ks, hrun, honly, fun q hq => ?_, hlen, ?_, hkept, htaken⟩
  · rw [State.part_modPart_ne _ _ hq, State.part_modPart_ne _ _ hq, hothers q hq]
  · rw [part_of_modPart _ hentered]
    exact congrArg some (foldRound_enter hnew _ off ks sh blocked own)

end Enters

/-! ## Decode queries and releases (R148, R180) -/

/-- The partial with which a member answers a query: the identity where it holds nothing of the sequence. -/
def Part.answer (pt : Part) (owner handle : Nat) (own : Partial) : Partial :=
  if (pt.segment owner handle).any (fun g => !g.sheets.isEmpty) then own else Partial.none own.o.length

section Query
variable {s : State} {p owner : Nat} (h : Nat) (own : Partial) {pt : Part} (hp : s.part p = some pt) (hring : s.inRing p = true)
  (hmem : owner ∈ s.ringOf p)
include hp hring hmem

/-- Ring position 0 begins the fold. -/
theorem ringQuery_begins (h0 : s.ringPos p = 0) : exec (.ringQuery p owner h own) s =
    .next ((s.takeMessage p .collective).1.foldOn p ((s.ringOf p).findIdx (· == owner)) 0 (Partial.none own.o.length)
      (pt.answer owner h own)) := by
  show execRingQuery p owner h own s = _
  simp only [execRingQuery, require, hring, List.contains_iff_mem.mpr hmem, Bool.and_self, if_true, hp, Option.bind_some, h0]
  rfl

/-- Every other position keeps its partial with its segment. -/
theorem ringQuery_keeps (h0 : s.ringPos p ≠ 0) : exec (.ringQuery p owner h own) s =
    .next ((s.takeMessage p .collective).1.modPart p (fun v => { v with segments := v.segments.map (fun g =>
      if g.owner == owner && g.handle == h then { g with reply := some (pt.answer owner h own) } else g) })) := by
  show execRingQuery p owner h own s = _
  simp only [execRingQuery, require, hring, List.contains_iff_mem.mpr hmem, Bool.and_self, if_true, hp, Option.bind_some, h0, if_false]
  rfl

end Query

theorem exec_ringRelease {s : State} {p owner h : Nat} {pt : Part} {g : Segment} (hp : s.part p = some pt)
    (hg : pt.segment owner h = some g) : exec (.ringRelease p owner h) s =
      .next (s.modPart p (fun pt => { g.sheets.foldl Part.unref pt with segments := pt.segments.erase g })) := by
  show execRingRelease p owner h s = _
  simp only [execRingRelease, hp, Option.bind_some, hg]

/-- Settles O34: a fold by the three cases of `foldOn_eq`, the end of a collective by `endColl_eq`, a partial by what `Part.takeReply` finds, a
segment by the round and the offset, a query by the ring position. -/
theorem ringMembersFold : Obligations.RingMembersFold := by
  refine ⟨fun s p col ns inc own => ⟨foldOn_next s ns inc own, foldOn_owner s ns inc own, foldOn_ends s ns inc own⟩,
    fun s p ns r pt hp => ?_, fun s p col ns inc own pt hp hring hcol => ⟨statistics_end inc own hring hcol, fun hway => ?_⟩,
    fun s p owner h off first toks blocked own pt hp hring hoff howner hnew => ⟨fun h0 => ?_, fun h0 hreserve htotal hsorted => ?_⟩,
    fun s p owner h off round first toks blocked own pt g hp hring hoff howner h0 hround hg hrounds => ?_,
    fun s p owner h own pt hp hring hmem => ⟨ringQuery_begins h own hp hring hmem, ringQuery_keeps h own hp hring hmem⟩,
    fun s p owner h pt g hp hg => exec_ringRelease hp hg⟩
  · exact ⟨endColl_veolo s p ns r, endColl_part ns r hp, endColl_duration s p ns r, endColl_counts s p ns r,
      fun q hq => endColl_part_ne s ns r hq, endColl_frame s p ns r⟩
  · exact ⟨fun hnone => statistics_fold_own inc own hp hring hcol hway (takeReply_none hnone),
      fun l1 l2 g r hl hbefore ho hr => statistics_fold_reply inc own hp hring hcol hway (takeReply_first hl hbefore ho hr)⟩
  · obtain ⟨u, hrun, honly, hpart⟩ := ringSegment_home first toks blocked own hp hring hoff howner hnew h0
    subst h0
    exact ⟨_, hrun, u, honly, hpart, rfl⟩
  · obtain ⟨u, sh, ks, hrun, honly, hothers, hlen, hpart, hkept, htaken⟩ :=
      ringSegment_reserve first toks blocked own hp hring hoff howner hnew h0 hreserve htotal hsorted
    exact ⟨_, hrun, u, pt.enter sh _, ks, honly, hothers, hlen, hpart, rfl, hkept, htaken, congrArg _ (storedForm_enter ..).symm⟩
  · exact exec_ringSegment_passes first toks blocked own hp hring hoff howner h0 hround hg hrounds

end Sys2Proof.Machine
end

section
/-!
PROOFS. The gazetteer engine: the walk that runs next, its end, parity errors of the index, formatting and rebuilding (O35).
-/
namespace Sys2Proof.Machine

open Sys2Proof

/-! ## The turn of a walk (R226) -/

/-- A walk that has been queued for 10 ms runs next. -/
theorem nextWalk_late {s : State} {w : Nat × Nat × Nat} (hlate : s.walks.find? (fun v => decide (v.2.2 + 10000000 ≤ s.now)) = some w) :
    s.nextWalk = some w := by
  rw [State.nextWalk, hlate]

/-- While no walk has been queued for 10 ms, the first of the highest class runs next. -/
theorem nextWalk_highest {s : State} (hlate : s.walks.find? (fun v => decide (v.2.2 + 10000000 ≤ s.now)) = none) :
    s.nextWalk = s.walks.find? (fun w => s.walks.all (fun v => decide (s.endpointClass v.1 ≤ s.endpointClass w.1))) := by
  rw [State.nextWalk, hlate]

theorem walkTurn_of_nextWalk {s : State} {p h t0 : Nat} (hnext : s.nextWalk = some (p, h, t0)) : s.walkTurn p h = true := by
  simp [State.walkTurn, hnext]

/-- A partition of which the walks `hs` run. -/
def Part.walking (hs : List Nat) (pt : Part) : Part := { pt with gzWalkOf := hs }

/-- A walk whose turn it is begins, and a struck parity error of the index is found with it. -/
theorem exec_gazetteerWalk {s : State} {p h : Nat} {pt : Part} (env : List Strike) (hp : s.part p = some pt) (hruns : s.walkRuns = false)
    (hout : s.survey.gzOut = none) (hturn : s.walkTurn p h = true) : exec (.gazetteerWalk p h env) s =
      .next (if env.contains .gzIndex then ((s.strike env).modPart p (Part.walking [h])).indexFault
        else (s.strike env).modPart p (Part.walking [h])) := by
  show execGazetteerWalk p h env s = _
  simp only [execGazetteerWalk, require, hp, hruns, hout, hturn, Option.isNone_none, Bool.not_false, Bool.and_self, if_true]
  rfl

/-! ## A parity error of the index (R187, R451) -/

/-- A partition after a parity error of the index: a gazetteer that was READY rebuilds. -/
def Part.indexStruck (v : Part) : Part := if v.gzState = 2 then { v with gzState := 3 } else v

theorem indexStruck_gzState (v : Part) : v.indexStruck.gzState = if v.gzState = 2 then 3 else v.gzState := by
  unfold Part.indexStruck
  split <;> rfl

theorem indexStruck_gzWalkOf (v : Part) : v.indexStruck.gzWalkOf = v.gzWalkOf := by
  unfold Part.indexStruck
  split <;> rfl

/-- The fault of the index reaches every partition; the events that tell it change no partition. -/
theorem indexFault_part (s : State) (q : Nat) : s.indexFault.part q = (s.part q).map Part.indexStruck :=
  calc s.indexFault.part q
      = NMap.find (s.parts.map (fun e => (e.1, e.2.indexStruck))) q :=
        repliesOnly_field (fun x : State => x.part q) (fun _ _ => rfl) (sharedEvent_only _ _ _ _ _ _)
    _ = (s.part q).map Part.indexStruck := find_mapVals Part.indexStruck q s.parts

/-- The beginning of a walk leaves every gazetteer in its state. -/
theorem gzState_beginWalk (s : State) (p h q : Nat) :
    ((s.modPart p (Part.walking [h])).part q).map (·.gzState) = (s.part q).map (·.gzState) := by
  by_cases hq : q = p
  · subst hq
    rw [State.part_modPart_self, Option.map_map]
    rfl
  · rw [State.part_modPart_ne s _ hq]

/-- A parity error found as a walk begins: every gazetteer that is READY rebuilds, and the walk runs. -/
theorem gazetteerWalk_struck {s : State} {p h : Nat} {pt : Part} (hp : s.part p = some pt) :
    let t := (s.modPart p (Part.walking [h])).indexFault
    (∀ (q : Nat) (v : Part), s.part q = some v → (t.part q).map (·.gzState) = some (if v.gzState = 2 then 3 else v.gzState)) ∧
    (t.part p).map (·.gzWalkOf) = some [h] := by
  refine ⟨fun q v hv => ?_, ?_⟩
  · have hbegun := gzState_beginWalk s p h q
    rw [hv, Option.map_some, Option.map_eq_some_iff] at hbegun
    obtain ⟨u, hu, hstate⟩ := hbegun
    rw [indexFault_part, hu, Option.map_some, Option.map_some, indexStruck_gzState, hstate]
  · rw [indexFault_part, part_of_modPart (Part.walking [h]) hp, Option.map_some, Option.map_some, indexStruck_gzWalkOf, Part.walking]

/-! ## The end of a walk (R183, R188) -/

/-- What the walk of a request finds: the sheets hit and how it ended; a gazetteer that is not READY is not walked. -/
def State.walkFound (s : State) (p : Nat) (pt : Part) (r : Req) : List Nat × WalkEnd :=
  if pt.gzState = 2 then pt.walk (walkLimit r.prompt.length) (s.hashSeed p r.opts.inset) none r.prompt else ([], .limit)

theorem walkFound_hits (s : State) (p : Nat) (pt : Part) (r : Req) : (s.walkFound p pt r).1 =
    if pt.gzState = 2 then (pt.walk (walkLimit r.prompt.length) (s.hashSeed p r.opts.inset) none r.prompt).1 else [] := by
  unfold State.walkFound
  split <;> rfl

/-- Only a walk of the tree ends otherwise than at its limit. -/
theorem walkFound_ends {s : State} {p : Nat} {pt : Part} {r : Req} {e : WalkEnd} (he : e ≠ .limit) : (s.walkFound p pt r).2 = e ↔
    pt.gzState = 2 ∧ (pt.walk (walkLimit r.prompt.length) (s.hashSeed p r.opts.inset) none r.prompt).2 = e := by
  unfold State.walkFound
  split
  next hready => exact (and_iff_right hready).symm
  next hready => exact ⟨fun hlimit => absurd hlimit.symm he, fun hwalk => absurd hwalk.1 hready⟩

/-- The counter of misses or of collisions counts the end of a walk. -/
def State.walkCounted (s : State) (p : Nat) (e : WalkEnd) : State :=
  if e = .miss then s.bump .gz p 0x0C 1 else if e = .collide then s.bump .gz p 0x10 1 else s

theorem walkCounted_frame (s : State) (p : Nat) (e : WalkEnd) : (s.walkCounted p e).setRegs s.regs = s := by
  cases e <;> rfl

theorem walkCounted_part (s : State) (p : Nat) (e : WalkEnd) (q : Nat) : (s.walkCounted p e).part q = s.part q :=
  (congrArg (fun x : State => x.part q) (walkCounted_frame s p e) :)

theorem walkCounted_dram (s : State) (p : Nat) (e : WalkEnd) : (s.walkCounted p e).dram = s.dram :=
  (congrArg (fun x : State => x.dram) (walkCounted_frame s p e) :)

theorem walkCounted_stamp (s : State) (p : Nat) (e : WalkEnd) : (s.walkCounted p e).stamp = s.stamp :=
  (congrArg (fun x : State => x.stamp) (walkCounted_frame s p e) :)

theorem walkCounted_walks (s : State) (p : Nat) (e : WalkEnd) : (s.walkCounted p e).walks = s.walks :=
  (congrArg (fun x : State => x.walks) (walkCounted_frame s p e) :)

theorem walkCounted_misses (s : State) (p : Nat) (e : WalkEnd) : ((s.walkCounted p e).reg .gz p 0x0C).toNat =
    if e = .miss then min 0xFFFFFFFF ((s.reg .gz p 0x0C).toNat + 1) else (s.reg .gz p 0x0C).toNat := by
  cases e with
  | limit => rfl
  | miss => exact State.reg_bump_self _ _ _ _ _
  | collide => exact congrArg BitVec.toNat (reg_bump_ne _ _ _ _ (by decide))

theorem walkCounted_collisions (s : State) (p : Nat) (e : WalkEnd) : ((s.walkCounted p e).reg .gz p 0x10).toNat =
    if e = .collide then min 0xFFFFFFFF ((s.reg .gz p 0x10).toNat + 1) else (s.reg .gz p 0x10).toNat := by
  cases e with
  | limit => rfl
  | miss => exact congrArg BitVec.toNat (reg_bump_ne _ _ _ _ (by decide))
  | collide => exact State.reg_bump_self _ _ _ _ _

/-- The queue and a partition of which no walk runs any more. -/
def State.walkTaken (s : State) (p h : Nat) : State :=
  (s.modPart p (Part.walking [])).setWalks (s.walks.filter (fun v => !(v.1 == p && v.2.1 == h)))

/-- Reading the records of the sheets hit changes nothing, where every record can be read. -/
theorem readRecords_walkTaken {s : State} {p h : Nat} {pt : Part} {im : Image} (hp : s.part p = some pt) (hi : pt.image = some im)
    (hbad : s.dram.bad = []) (hfailed : s.dram.failed = []) (hits : List Nat) :
    (s.walkTaken p h).readRecords p hits = (s.walkTaken p h, hits) :=
  readRecords_clean p (pt.walking []) im hi hits _ (part_of_modPart (Part.walking []) hp) hbad hfailed

/-- A request gets the hits whose records have been read, and becomes a candidate. -/
def State.hitsGiven (p h : Nat) (q : State × List Nat) : State :=
  (q.1.modPart p (fun pt => { pt with reqs := NMap.modify pt.reqs h (fun r => { r with hits := q.2 }) })).nowCandidate p h

/-- A partition after the end of a walk: the request has its hits and is a candidate behind those before it. -/
def Part.walkEnded (h : Nat) (hits : List Nat) (stamp : Nat) (pt : Part) : Part :=
  { pt with
    gzWalkOf := []
    reqs := NMap.modify (NMap.modify pt.reqs h (fun r => { r with hits := hits })) h (fun r => { r with walked := true, candAt := some stamp }) }

/-- The state after the end of a walk that hit `hits`. -/
def State.walkEnded (s : State) (p h : Nat) (hits : List Nat) : State :=
  ((s.modPart p (Part.walkEnded h hits s.stamp)).setWalks (s.walks.filter (fun v => !(v.1 == p && v.2.1 == h)))).setStamp (s.stamp + 1)

theorem walkEnded_part {s : State} {p : Nat} {pt : Part} (h : Nat) (hits : List Nat) (hp : s.part p = some pt) :
    (s.walkEnded p h hits).part p = some (pt.walkEnded h hits s.stamp) :=
  part_of_modPart (Part.walkEnded h hits s.stamp) hp

theorem walkEnded_part_ne (s : State) {p q : Nat} (h : Nat) (hits : List Nat) (hq : q ≠ p) : (s.walkEnded p h hits).part q = s.part q :=
  State.part_modPart_ne s (Part.walkEnded h hits s.stamp) hq

theorem walkEnded_reg (s : State) (p h : Nat) (hits : List Nat) (b : Blk) (k off : Nat) : (s.walkEnded p h hits).reg b k off = s.reg b k off := rfl

/-- The end of a walk changes the partitions, the queue and the stamp: what else changes has changed before it. -/
theorem walkEnded_frame {s u : State} (p h : Nat) (hits : List Nat) (hframe : u.setRegs s.regs = s) :
    ((((u.walkEnded p h hits).setParts s.parts).setWalks s.walks).setStamp s.stamp).setRegs s.regs = s :=
  (congrArg (fun x : State => ((x.setParts s.parts).setWalks s.walks).setStamp s.stamp) hframe :)

/-- Ending the walk, giving the hits and making the request a candidate are one change of its partition. -/
theorem hitsGiven_walkTaken (s : State) (p h : Nat) (hits : List Nat) : State.hitsGiven p h (s.walkTaken p h, hits) = s.walkEnded p h hits := by
  have hone : ((s.modPart p (Part.walking [])).modPart p (fun pt =>
      { pt with reqs := NMap.modify pt.reqs h (fun r => { r with hits := hits }) })).modPart p (fun pt =>
        { pt with reqs := NMap.modify pt.reqs h (fun r => { r with walked := true, candAt := some s.stamp }) }) =
      s.modPart p (Part.walkEnded h hits s.stamp) := by
    rw [State.modPart_modPart, State.modPart_modPart]
    rfl
  exact congrArg (fun x : State => (x.setWalks (s.walks.filter (fun v => !(v.1 == p && v.2.1 == h)))).setStamp (s.stamp + 1)) hone

/-- The walk of a request that runs ends: it is counted, and its request gets the hits whose records can be read. -/
theorem exec_gazetteerWalkEnd {s : State} {p h : Nat} {pt : Part} {r : Req} (hp : s.part p = some pt) (hr : NMap.find pt.reqs h = some r)
    (hwalk : h ∈ pt.gzWalkOf) : exec (.gazetteerWalkEnd p h) s = .next (State.hitsGiven p h
      (((s.walkCounted p (s.walkFound p pt r).2).walkTaken p h).readRecords p (s.walkFound p pt r).1)) := by
  show execGazetteerWalkEnd p h s = _
  simp only [execGazetteerWalkEnd, require, hp, hr, List.contains_iff_mem.mpr hwalk, if_true]
  rfl

/-- The walk of a request that runs ends, where every record of the sheets hit can be read. -/
theorem exec_gazetteerWalkEnd_clean {s : State} {p h : Nat} {pt : Part} {im : Image} {r : Req} (hp : s.part p = some pt)
    (hi : pt.image = some im) (hr : NMap.find pt.reqs h = some r) (hwalk : h ∈ pt.gzWalkOf) (hbad : s.dram.bad = [])
    (hfailed : s.dram.failed = []) : exec (.gazetteerWalkEnd p h) s =
      .next ((s.walkCounted p (s.walkFound p pt r).2).walkEnded p h (s.walkFound p pt r).1) := by
  have hdram := walkCounted_dram s p (s.walkFound p pt r).2
  rw [exec_gazetteerWalkEnd hp hr hwalk, readRecords_walkTaken ((walkCounted_part ..).trans hp) hi (hdram ▸ hbad) (hdram ▸ hfailed),
    hitsGiven_walkTaken]

/-! ## Formatting and rebuilding (R187, R188) -/

/-- Reading every record of a pool changes nothing, where every record can be read. -/
theorem readPool_clean {s : State} {p : Nat} {pt : Part} {im : Image} (hp : s.part p = some pt) (hi : pt.image = some im)
    (hbad : s.dram.bad = []) (hfailed : s.dram.failed = []) (ns : List Nat) : ns.foldl (fun s n => (s.readRecords p [n]).1) s = s := by
  induction ns with
  | nil => rfl
  | cons n ns ih => rw [List.foldl_cons, readRecords_clean p pt im hi [n] s hp hbad hfailed, ih]

/-- A rebuild whose records can all be read makes the gazetteer READY. -/
theorem exec_gzRebuildComplete {s : State} {p : Nat} {pt : Part} {im : Image} (hp : s.part p = some pt) (hi : pt.image = some im)
    (hstate : pt.gzState = 3) (hout : s.survey.gzOut = none) (hbad : s.dram.bad = []) (hfailed : s.dram.failed = []) :
    exec (.gzRebuildComplete p) s = .next (s.modPart p (fun pt => { pt with gzState := 2 })) := by
  show execGzRebuildComplete p s = _
  simp only [execGzRebuildComplete, require, hp, hstate, hout, Option.isNone_none, beq_self_eq_true, Bool.and_self, if_true,
    readPool_clean hp hi hbad hfailed]

/-- A pool that has been formatted makes the gazetteer READY. -/
theorem exec_gzInitComplete {s : State} {p : Nat} {pt : Part} (hp : s.part p = some pt) (hstate : pt.gzState = 1) :
    exec (.gzInitComplete p) s = .next (s.modPart p (fun pt => { pt with gzState := 2 })) := by
  show execGzInitComplete p s = _
  simp only [execGzInitComplete, require, hp, hstate, beq_self_eq_true, if_true]

/-- Settles O35: the walk that runs next by the two cases of `nextWalk`, a parity error by `gazetteerWalk_struck`, the end of a walk by
`exec_gazetteerWalkEnd_clean`, with the counters that `walkCounted` gives. -/
theorem gazetteerWalksEnd : Obligations.GazetteerWalksEnd := by
  refine ⟨fun s p h t0 pt hp hruns hout hturn => ?_, fun s p h pt im r hp hi hr hwalk hbad hfailed => ?_,
    fun s p pt im hp hi => ⟨exec_gzRebuildComplete hp hi, exec_gzInitComplete hp⟩⟩
  · have hnext : s.nextWalk = some (p, h, t0) := by
      rcases hturn with hlate | ⟨hlate, hhighest⟩
      · exact nextWalk_late hlate
      · exact (nextWalk_highest hlate).trans hhighest
    have hrun (env : List Strike) := exec_gazetteerWalk env hp hruns hout (walkTurn_of_nextWalk hnext)
    exact ⟨hrun [], _, hrun [.gzIndex], gazetteerWalk_struck hp⟩
  · refine ⟨_, exec_gazetteerWalkEnd_clean hp hi hr hwalk hbad hfailed, ?_, ?_, ?_, fun q hq => ?_, ?_, ?_, ?_⟩
    · rw [walkEnded_part h _ ((walkCounted_part ..).trans hp), walkFound_hits, walkCounted_stamp]
      rfl
    · exact congrArg (· + 1) (walkCounted_stamp ..)
    · exact congrArg (List.filter _) (walkCounted_walks ..)
    · exact (walkEnded_part_ne _ h _ hq).trans (walkCounted_part ..)
    · rw [walkEnded_reg, walkCounted_misses]
      exact if_congr (walkFound_ends (by decide)) rfl rfl
    · rw [walkEnded_reg, walkCounted_collisions]
      exact if_congr (walkFound_ends (by decide)) rfl rfl
    · exact walkEnded_frame p h _ (walkCounted_frame ..)

end Sys2Proof.Machine
end

section
/-!
PROOFS. The frames of streams: opening, chunks in parts, parking and closing (O38).
-/
namespace Sys2Proof.Machine

open Sys2Proof

/-! ## OPEN_STREAM (R203, R215, R242) -/

@[simp] theorem firstBad_true (st : Status) (cs : List (Bool × Status)) : firstBad ((true, st) :: cs) = some st := rfl

@[simp] theorem firstBad_false (st : Status) (cs : List (Bool × Status)) : firstBad ((false, st) :: cs) = firstBad cs := rfl

@[simp] theorem firstBad_nil : firstBad [] = none := rfl

/-- No place for one more stream is left in the state area of the partition's model or in the device (R203). -/
def State.streamsFull (s : State) (pt : Part) : Bool :=
  decide ((pt.image.map Image.streamPlaces).getD 0 ≤ pt.streams.length) || decide (16384 ≤ (s.parts.map (fun e => e.2.streams.length)).sum)

theorem streamsFull_iff (s : State) (pt : Part) : s.streamsFull pt = true ↔
    (pt.image.map Image.streamPlaces).getD 0 ≤ pt.streams.length ∨ 16384 ≤ (s.parts.map (fun e => e.2.streams.length)).sum := by
  simp [State.streamsFull]

theorem streamsFull_freeMbox (s : State) (c : Ctx) (op : Nat) (pt : Part) : (s.freeMbox c op).streamsFull pt = s.streamsFull pt :=
  freeMbox_field (fun x : State => x.streamsFull pt) (fun _ _ => rfl) s c op

/-- The status with which a well-formed OPEN_STREAM is refused (R215, R242). -/
def State.streamRefusal (s : State) (pt : Part) (h : Nat) : Option Status :=
  firstBad [(pt.inUse h, .notPermitted), (!pt.serves, .notPermitted), (s.streamsFull pt, .noResource)]

theorem streamRefusal_notPermitted {s : State} {pt : Part} {h : Nat} (hno : pt.inUse h = true ∨ pt.serves = false) :
    s.streamRefusal pt h = some .notPermitted := by
  unfold State.streamRefusal
  cases huse : pt.inUse h with
  | true => rfl
  | false => simp [hno.resolve_left (by simp [huse])]

theorem streamRefusal_served {s : State} {pt : Part} {h : Nat} (huse : pt.inUse h = false) (hserves : pt.serves = true) :
    s.streamRefusal pt h = if s.streamsFull pt then some .noResource else none := by
  unfold State.streamRefusal
  cases hfull : s.streamsFull pt <;> simp [huse, hserves]

/-- A partition with a new stream under the frame's handle, at the lowest free place, to be opened at the next meridian. -/
def Part.withStream (pt : Part) (c : Ctx) : Part :=
  { pt with streams := NMap.insert pt.streams c.handle (Strm.opened c.sess pt.freePage),
            staged := { pt.staged with opens := pt.staged.opens ++ [(c.handle, c)] } }

/-- The state with that stream; its handle has no tombstone any more. -/
def State.withStream (s : State) (c : Ctx) : State := (s.clearTomb c.part c.handle).modPart c.part (fun pt => pt.withStream c)

theorem withStream_part {s : State} {c : Ctx} {pt : Part} (hp : s.part c.part = some pt) :
    (s.withStream c).part c.part = some (pt.withStream c) :=
  part_of_modPart _ hp

theorem withStream_frame (s : State) (c : Ctx) : onlyPart (s.setTombs (s.withStream c).tombs) (s.withStream c) c.part :=
  onlyPart_modPart (s.clearTomb c.part c.handle) c.part _

section OpenStream
variable {s : State} {c : Ctx} {pt : Part} (hserve : s.dataServes c 0x0201 pt) (hhandle : badHandle c.handle = false)
include hserve hhandle

/-- A well-formed OPEN_STREAM is refused with its first refusal. -/
theorem exec_openStream_refused {st : Status} (href : (s.freeMbox c 0x0201).streamRefusal pt c.handle = some st) :
    exec (.openStream c []) s = .next ((s.freeMbox c 0x0201).refuse c 0x0201 st) := by
  show execOpenStream c [] s = _
  unfold State.streamRefusal State.streamsFull at href
  simp only [execOpenStream, serveData_run _ _ _ _ _ hserve, hhandle, bne_self_eq_false, Bool.or_self, firstBad_false, href]

/-- A well-formed OPEN_STREAM that nothing refuses is answered PENDING, with its stream in the partition. -/
theorem exec_openStream_taken (href : (s.freeMbox c 0x0201).streamRefusal pt c.handle = none) :
    exec (.openStream c []) s = .next (((s.freeMbox c 0x0201).withStream c).reply c 0x0201 .pending []) := by
  show execOpenStream c [] s = _
  unfold State.streamRefusal State.streamsFull at href
  simp only [execOpenStream, serveData_run _ _ _ _ _ hserve, hhandle, bne_self_eq_false, Bool.or_self, firstBad_false, href]
  rfl

end OpenStream

/-! ## STREAM_CHUNK (R201, R208, R243) -/

/-- The state with stream `w` under the frame's handle. -/
def State.putStream (s : State) (c : Ctx) (w : Strm) : State :=
  s.modPart c.part (fun pt => { pt with streams := NMap.insert pt.streams c.handle w })

/-- The chunk whose last part has come, as it enters the queue. -/
def Parts.arrived (a : Parts) (stamp : Nat) : Chunk := { a.chunk with data := a.data, arrived := stamp }

/-- A stream that has queued a chunk. -/
def Strm.queued (v : Strm) (k : Chunk) : Strm :=
  { v with arriving := none, queue := v.queue ++ [k], nextChunk := v.nextChunk + 1, finalSent := k.final }

section StreamChunk
variable {s : State} {c : Ctx} {pl : Bytes} {pt : Part} {im : Image} {v : Strm} (hserve : s.dataServes c 0x0202 pt)
  (hhandle : badHandle c.handle = false) (himage : pt.image = some im) (hstream : NMap.find pt.streams c.handle = some v)
  (hholds : (s.freeMbox c 0x0202).holds c (some v.sess) = true)
include hserve hhandle himage hstream hholds

/-- A stream whose final chunk has come takes no more. -/
theorem exec_streamChunk_final (hfinal : v.finalSent = true) :
    exec (.streamChunk c pl) s = .next ((s.freeMbox c 0x0202).reply c 0x0202 .notPermitted []) := by
  show execStreamChunk c pl s = _
  simp [execStreamChunk, serveData_run _ _ _ _ _ hserve, hhandle, himage, hstream, hholds, hfinal, State.answer]

/-- A refused part discards those received; one for want of a place in the queue is counted. -/
theorem exec_streamChunk_refused {st : Status} (hfinal : v.finalSent = false) (hpart : v.takePart im pl = .error st) :
    exec (.streamChunk c pl) s =
      .next ((if st = .noResource then ((s.freeMbox c 0x0202).putStream c { v with arriving := none }).bump .strm c.part 0x10 1
        else (s.freeMbox c 0x0202).putStream c { v with arriving := none }).refuse c 0x0202 st) := by
  show execStreamChunk c pl s = _
  simp only [execStreamChunk, serveData_run _ _ _ _ _ hserve, hhandle, himage, hstream, hholds, hfinal, hpart, Bool.not_true, Bool.or_self,
    Bool.false_eq_true, if_false]
  rfl

/-- A part that is taken waits for the parts after it, or completes its chunk, which is queued. -/
theorem exec_streamChunk_taken {a : Parts} (hfinal : v.finalSent = false) (hpart : v.takePart im pl = .ok a) :
    exec (.streamChunk c pl) s =
      (if a.next < a.parts then .next ((s.freeMbox c 0x0202).putStream c { v with arriving := some a })
       else .next ((((s.freeMbox c 0x0202).putStream c (v.queued (a.arrived s.stamp))).setStamp (s.stamp + 1)).reply c 0x0202 .ok [])) := by
  show execStreamChunk c pl s = _
  have hstamp : (s.freeMbox c 0x0202).stamp = s.stamp := freeMbox_field State.stamp (fun _ _ => rfl) s c 0x0202
  simp only [execStreamChunk, serveData_run _ _ _ _ _ hserve, hhandle, himage, hstream, hholds, hfinal, hpart, hstamp, Bool.not_true,
    Bool.or_self, Bool.false_eq_true, if_false]
  rfl

end StreamChunk

/-- What a part that is taken leaves: it follows those received, its bytes after theirs, within what the chunk holds. -/
theorem takePart_follows {v : Strm} {im : Image} {pl : Bytes} {a : Parts} (hnext : ∀ b : Parts, v.arriving = some b → 0 < b.next)
    (h : v.takePart im pl = .ok a) :
    a.next = beAt pl 2 1 + 1 ∧ a.data.length ≤ im.chunkBytes a.chunk.positions ∧
    (a.next = a.parts → a.data.length = im.chunkBytes a.chunk.positions) ∧
    (beAt pl 2 1 = 0 → v.arriving = none ∧ v.queue.length < 8 ∧ a.chunk.index = v.nextChunk ∧ a.data = pl.drop 52) ∧
    (∀ b : Parts, v.arriving = some b → b.next = beAt pl 2 1 ∧ a.chunk = b.chunk ∧ a.data = b.data ++ pl.drop 52) := by
  obtain ⟨b, hplace, -, hlength, hcomplete, rfl⟩ := takePart_place v im pl a h
  refine ⟨rfl, hlength, hcomplete, ?_⟩
  rcases hplace with ⟨hnone, -, hindex, hroom, rfl⟩ | ⟨hsome, hplace⟩
  case inl => exact ⟨fun _ => ⟨hnone, hroom, hindex, rfl⟩, fun b hb => by simp [hnone] at hb⟩
  case inr =>
    have hpos := hnext b hsome
    exact ⟨fun hzero => by omega, fun b' hb' => by
      cases hsome.symm.trans hb'
      exact ⟨hplace, rfl, rfl⟩⟩

/-! ## PARK_STREAM and CLOSE_STREAM (R205, R207, R209, R244) -/

/-- Of a list of staged frames in which a handle does not occur, none is of that handle. -/
theorem filter_handle_absent {α : Type} {l : List (Nat × α)} {h : Nat} (habsent : ∀ e ∈ l, e.1 ≠ h) : l.filter (fun e => e.1 == h) = [] :=
  List.filter_eq_nil_iff.mpr (fun e he => by simp [habsent e he])

theorem filter_otherHandle_absent {α : Type} {l : List (Nat × α)} {h : Nat} (habsent : ∀ e ∈ l, e.1 ≠ h) : l.filter (fun e => e.1 != h) = l :=
  List.filter_eq_self.mpr (fun e he => bne_iff_ne.mpr (habsent e he))

/-- A partition with a PARK_STREAM staged, in the place of an earlier one of its handle. -/
def Part.parkStaged (pt : Part) (c : Ctx) : Part :=
  { pt with staged := { pt.staged with parks := pt.staged.parks.filter (fun e => e.1 != c.handle) ++ [(c.handle, some c)] } }

theorem parkStaged_absent {pt : Part} {c : Ctx} (habsent : ∀ e ∈ pt.staged.parks, e.1 ≠ c.handle) :
    pt.parkStaged c = { pt with staged := { pt.staged with parks := pt.staged.parks ++ [(c.handle, some c)] } } := by
  rw [Part.parkStaged, filter_otherHandle_absent habsent]

/-- A partition with a CLOSE_STREAM staged, in the place of an earlier one of its handle. -/
def Part.closeStaged (pt : Part) (c : Ctx) : Part :=
  { pt with staged := { pt.staged with closes := pt.staged.closes.filter (fun e => e.1 != c.handle) ++ [(c.handle, some c)] } }

theorem closeStaged_absent {pt : Part} {c : Ctx} (habsent : ∀ e ∈ pt.staged.closes, e.1 ≠ c.handle) :
    pt.closeStaged c = { pt with staged := { pt.staged with closes := pt.staged.closes ++ [(c.handle, some c)] } } := by
  rw [Part.closeStaged, filter_otherHandle_absent habsent]

/-- Where a command changes the partition of a served frame and nothing else, the partition is all that it changes of the frame's state. -/
theorem completes_modPart {i : Instr} {s : State} {c : Ctx} {op : Nat} {pt : Part} (f : Part → Part) (hp : s.part c.part = some pt)
    (hexec : exec i s = .next ((s.freeMbox c op).modPart c.part f)) :
    completes i s (fun t => onlyPart (s.freeMbox c op) t c.part ∧ t.part c.part = some (f pt)) :=
  ⟨_, hexec, onlyPart_modPart _ _ f, part_of_modPart f ((freeMbox_part s c op c.part).trans hp)⟩

section ParkStream
variable {s : State} {c : Ctx} {pt : Part} {v : Strm} (hserve : s.dataServes c 0x0203 pt) (hhandle : badHandle c.handle = false)
  (hstream : NMap.find pt.streams c.handle = some v) (hholds : (s.freeMbox c 0x0203).holds c (some v.sess) = true)
include hserve hhandle hstream hholds

/-- A stream that is not bound is parked at once. -/
theorem exec_parkStream_idle (hidle : v.st ≠ .bound) :
    exec (.parkStream c []) s = .next ((s.freeMbox c 0x0203).reply c 0x0203 .ok []) := by
  show execParkStream c [] s = _
  simp [execParkStream, serveData_run _ _ _ _ _ hserve, hhandle, hstream, hholds, hidle, State.answer]

/-- A bound stream is parked at the next meridian. -/
theorem exec_parkStream_bound (hbound : v.st = .bound) (habsent : ∀ e ∈ pt.staged.parks, e.1 ≠ c.handle) :
    exec (.parkStream c []) s = .next ((s.freeMbox c 0x0203).modPart c.part (fun pt => pt.parkStaged c)) := by
  show execParkStream c [] s = _
  simp only [execParkStream, serveData_run _ _ _ _ _ hserve, hhandle, hstream, hholds, hbound, filter_handle_absent habsent, List.foldl_nil,
    bne_self_eq_false, Bool.not_true, Bool.or_self, Bool.false_eq_true, if_false]
  rfl

end ParkStream

/-- A stream is closed at the next meridian. -/
theorem exec_closeStream {s : State} {c : Ctx} {pt : Part} {v : Strm} (hserve : s.dataServes c 0x0204 pt) (hhandle : badHandle c.handle = false)
    (hstream : NMap.find pt.streams c.handle = some v) (hholds : (s.freeMbox c 0x0204).holds c (some v.sess) = true)
    (habsent : ∀ e ∈ pt.staged.closes, e.1 ≠ c.handle) :
    exec (.closeStream c []) s = .next ((s.freeMbox c 0x0204).modPart c.part (fun pt => pt.closeStaged c)) := by
  show execCloseStream c [] s = _
  simp only [execCloseStream, serveData_run _ _ _ _ _ hserve, hhandle, hstream, hholds, filter_handle_absent habsent, List.foldl_nil,
    bne_self_eq_false, Bool.not_true, Bool.or_self, Bool.false_eq_true, if_false]
  rfl

/-- Settles O38: each frame by what it does where it is served (`exec_openStream_taken`, `exec_streamChunk_taken`, `exec_parkStream_bound`,
`exec_closeStream` and their refusals), the order of the parts by `takePart_follows`. -/
theorem streamsTakeFrames : Obligations.StreamsTakeFrames := by
  refine ⟨fun s c pt hserve hhandle => ?opened, fun s c pl pt im v hserve hhandle himage hstream hholds => ?fed,
    fun _ _ _ _ => takePart_follows, fun s c pt v hserve hhandle hstream hholds => ?parked,
    fun s c pt v hserve hhandle hstream hholds habsent => ?closed⟩
  case opened =>
    have hfull := (streamsFull_freeMbox s c 0x0201 pt).symm ▸ streamsFull_iff s pt
    refine ⟨fun hno => exec_openStream_refused hserve hhandle (streamRefusal_notPermitted hno), fun huse hserves hnone => ?_,
      fun huse hserves hplace => ?_⟩
    · exact exec_openStream_refused hserve hhandle ((streamRefusal_served huse hserves).trans (if_pos (hfull.mpr hnone)))
    · have href := (streamRefusal_served (s := s.freeMbox c 0x0201) huse hserves).trans (if_neg (mt hfull.mp hplace))
      exact ⟨_, exec_openStream_taken hserve hhandle href, _, rfl, clearTomb_tomb _ _ _, withStream_frame _ c,
        withStream_part ((freeMbox_part s c 0x0201 c.part).trans hserve.2.1)⟩
  case fed =>
    refine ⟨exec_streamChunk_final hserve hhandle himage hstream hholds,
      exec_streamChunk_refused hserve hhandle himage hstream hholds, exec_streamChunk_refused hserve hhandle himage hstream hholds,
      fun a hfinal hpart => ?_⟩
    have htaken := exec_streamChunk_taken hserve hhandle himage hstream hholds hfinal hpart
    exact ⟨fun hmore => htaken.trans (if_pos hmore), fun hlast => htaken.trans (if_neg (Nat.not_lt.mpr hlast))⟩
  case parked =>
    refine ⟨exec_parkStream_idle hserve hhandle hstream hholds, fun hbound habsent => ?_⟩
    exact parkStaged_absent habsent ▸
      completes_modPart (·.parkStaged c) hserve.2.1 (exec_parkStream_bound hserve hhandle hstream hholds hbound habsent)
  case closed =>
    exact closeStaged_absent habsent ▸
      completes_modPart (·.closeStaged c) hserve.2.1 (exec_closeStream hserve hhandle hstream hholds habsent)

end Sys2Proof.Machine
end

section
/-!
PROOFS. The frames of requests: opening, continuing, cancelling, pausing and resuming (O36).
-/
namespace Sys2Proof.Machine

open Sys2Proof

/-! ## A request in the table -/

/-- The request under a handle of a partition. -/
def State.req (s : State) (p h : Nat) : Option Req := (s.part p).bind (fun pt => NMap.find pt.reqs h)

theorem req_of_part {s : State} {p h : Nat} {pt : Part} {r : Req} (hp : s.part p = some pt) (hr : NMap.find pt.reqs h = some r) :
    s.req p h = some r := by
  rw [State.req, hp]
  exact hr

/-- The state with request `r` under a handle of a partition. -/
def State.putReq (s : State) (p h : Nat) (r : Req) : State := s.modPart p (fun pt => { pt with reqs := NMap.insert pt.reqs h r })

theorem req_putReq {s : State} {p : Nat} {pt : Part} (h : Nat) (r : Req) (hp : s.part p = some pt) : (s.putReq p h r).req p h = some r :=
  req_of_part (part_of_modPart _ hp) (NMap.find_insert_self _ _ _)

/-- Answering a frame leaves every request. -/
theorem req_reply (s : State) (c : Ctx) (op : Nat) (st : Status) (pl : Bytes) (p h : Nat) : (s.reply c op st pl).req p h = s.req p h :=
  reply_field (fun x : State => x.req p h) (fun _ _ => rfl) s c op st pl

theorem freeMbox_now (s : State) (c : Ctx) (op : Nat) : (s.freeMbox c op).now = s.now := freeMbox_field State.now (fun _ _ => rfl) s c op

theorem freeMbox_stamp (s : State) (c : Ctx) (op : Nat) : (s.freeMbox c op).stamp = s.stamp := freeMbox_field State.stamp (fun _ _ => rfl) s c op

theorem freeMbox_pausedAll (s : State) (c : Ctx) (op : Nat) : (s.freeMbox c op).pausedAll = s.pausedAll :=
  freeMbox_field State.pausedAll (fun _ _ => rfl) s c op

/-! ## The last frame of a prompt (R183, R219, R240) -/

/-- The walk of a prompt is queued behind the others. -/
def State.queueWalk (s : State) (p h : Nat) : State := s.setWalks (s.walks ++ [(p, h, s.now)])

/-- The prompt of a request with no parent is walked. -/
theorem promptDone_walk {s : State} {p h : Nat} {r : Req} (hr : s.req p h = some r) (hparent : r.opts.parent = none) :
    s.promptDone p h = s.queueWalk p h := by
  unfold State.req at hr
  simp only [State.promptDone, hr, hparent, Option.isSome_none, Bool.false_eq_true, if_false]
  rfl

/-- A branch is a candidate at once. -/
theorem promptDone_branch {s : State} {p h : Nat} {r : Req} (hr : s.req p h = some r) (hparent : r.opts.parent.isSome = true) :
    s.promptDone p h = s.nowCandidate p h := by
  unfold State.req at hr
  simp only [State.promptDone, hr, hparent, if_true]

/-- A new request with a prompt that is complete. -/
theorem promptComplete_opened {s : State} {p h : Nat} {r : Req} (hr : s.req p h = some r) (hnew : r.resumeOpts = none) (hprompt : r.prompt ≠ []) :
    s.promptComplete p h = s.promptDone p h := by
  unfold State.req at hr
  simp only [State.promptComplete, hr, hnew, List.isEmpty_eq_false_iff.mpr hprompt, Bool.false_and, Bool.false_eq_true, if_false]

/-- A request whose time to live no longer runs. -/
def State.stopTtl (s : State) (p h : Nat) : State :=
  s.modPart p (fun pt => { pt with reqs := NMap.modify pt.reqs h (fun v => { v with endsAt := none }) })

/-- A resume that has something to do, of a request whose restore has not begun: its time to live stops. -/
theorem promptComplete_resumed {s : State} {p h : Nat} {r : Req} {o : ReqOpts} (hr : s.req p h = some r) (hresume : r.resumeOpts = some o)
    (hst : r.st ≠ .restoring) (hwork : ¬(o.maxNew = 0 ∧ r.left = 0 ∧ r.prompt = [])) : s.promptComplete p h = s.stopTtl p h := by
  have hidle : (decide (o.maxNew = 0) && decide (r.left = 0) && r.prompt.isEmpty) = false :=
    Bool.eq_false_iff.mpr (fun hidle => hwork (by simpa [and_assoc] using hidle))
  unfold State.req at hr
  simp only [State.promptComplete, hr, hresume, hidle, decide_eq_false hst, Bool.false_and, Bool.false_eq_true, if_false]
  rfl

/-- A resume with nothing to do and without END_PAUSE ends its request at once. -/
theorem promptComplete_idle {s : State} {p h : Nat} {r : Req} {o : ReqOpts} (hr : s.req p h = some r) (hresume : r.resumeOpts = some o)
    (hnew : o.maxNew = 0) (hleft : r.left = 0) (hprompt : r.prompt = []) (hend : o.endPause = false) :
    s.promptComplete p h = s.endReqNow p h .ok := by
  unfold State.req at hr
  simp [State.promptComplete, hr, hresume, hnew, hleft, hprompt, State.endEmptyResume, hend]

/-! ## OPEN_REQUEST (R214, R215, R218) -/

/-- The request that an OPEN_REQUEST enters. -/
def Req.ofOpen (c : Ctx) (pl : Bytes) : Req := Req.opened c.sess (openOpts pl) (beAt pl 0 1 % 2 == 1) (tokensAt pl 84 (beAt pl 80 4))

theorem ofOpen_parent_none {pl : Bytes} (c : Ctx) (hflag : beAt pl 0 1 / 4 % 2 = 0) : (Req.ofOpen c pl).opts.parent = none :=
  if_neg (by omega)

theorem ofOpen_parent_some {pl : Bytes} (c : Ctx) (hflag : beAt pl 0 1 / 4 % 2 = 1) : (Req.ofOpen c pl).opts.parent.isSome = true :=
  (congrArg Option.isSome (if_pos hflag :) :)

/-- The state after an OPEN_REQUEST is answered PENDING. -/
def State.openAnswered (s : State) (c : Ctx) (pl : Bytes) : State :=
  ((s.clearTomb c.part c.handle).putReq c.part c.handle (Req.ofOpen c pl)).reply c 0x0101 .pending []

theorem openAnswered_req {s : State} {c : Ctx} {pt : Part} (pl : Bytes) (hp : s.part c.part = some pt) :
    (s.openAnswered c pl).req c.part c.handle = some (Req.ofOpen c pl) :=
  (req_reply ..).trans (req_putReq c.handle (Req.ofOpen c pl) hp)

theorem openAnswered_now (s : State) (c : Ctx) (pl : Bytes) : (s.openAnswered c pl).now = s.now :=
  reply_field State.now (fun _ _ => rfl) _ c 0x0101 .pending []

theorem openAnswered_stamp (s : State) (c : Ctx) (pl : Bytes) : (s.openAnswered c pl).stamp = s.stamp :=
  reply_field State.stamp (fun _ _ => rfl) _ c 0x0101 .pending []

section OpenRequest
variable {s : State} {c : Ctx} {pl : Bytes} {pt : Part} (hserve : s.dataServes c 0x0101 pt)
include hserve

/-- An OPEN_REQUEST is refused with its first refusal. -/
theorem exec_openRequest_refused {st : Status} (href : (s.freeMbox c 0x0101).openRefusal pt c.handle pl = some st) :
    exec (.openRequest c pl) s = .next ((s.freeMbox c 0x0101).refuse c 0x0101 st) := by
  show execOpenRequest c pl s = _
  simp only [execOpenRequest, serveData_run _ _ _ _ _ hserve, href]

/-- An OPEN_REQUEST that nothing refuses is answered PENDING; without MORE its prompt is complete. -/
theorem exec_openRequest_taken (href : (s.freeMbox c 0x0101).openRefusal pt c.handle pl = none) :
    exec (.openRequest c pl) s = .next (if (beAt pl 0 1 % 2 == 1) = true then (s.freeMbox c 0x0101).openAnswered c pl
      else ((s.freeMbox c 0x0101).openAnswered c pl).promptDone c.part c.handle) := by
  show execOpenRequest c pl s = _
  simp only [execOpenRequest, serveData_run _ _ _ _ _ hserve, href]
  rfl

end OpenRequest

/-! ## APPEND_TOKENS (R219, R220) -/

/-- The payload of an APPEND_TOKENS with the flags `fl`. -/
def appendFrame (fl : Nat) (toks : List Nat) : Bytes := beBytes 1 fl ++ beBytes 3 0 ++ beBytes 4 toks.length ++ toks.flatMap (beBytes 4)

/-- A request continued by a frame with the flags `fl`. -/
def Req.continued (r : Req) (fl : Nat) (toks : List Nat) : Req := { r with more := fl % 2 == 1, prompt := r.prompt ++ toks }

section AppendTokens
variable {s : State} {c : Ctx} {pt : Part} {r : Req} {fl : Nat} {toks : List Nat} (hserve : s.dataServes c 0x0102 pt)
  (hhandle : badHandle c.handle = false) (hreq : NMap.find pt.reqs c.handle = some r)
include hserve hhandle hreq

/-- A request that expects no further frame refuses one. -/
theorem exec_appendTokens_unexpected {pl : Bytes} (hmore : r.more = false) :
    exec (.appendTokens c pl) s = .next ((s.freeMbox c 0x0102).reply c 0x0102 .notPermitted []) := by
  show execAppendTokens c pl s = _
  simp [execAppendTokens, serveData_run _ _ _ _ _ hserve, hhandle, hreq, hmore, State.answer]

variable (hholds : (s.freeMbox c 0x0102).holds c r.sess = true) (hfl : fl < 2) (hlength : toks.length < 2 ^ 32)
  (htoks : ∀ t ∈ toks, t < 2 ^ 32) (hmore : r.more = true)
include hholds hfl hlength htoks hmore

/-- A well-formed frame with a bad token ends what it continues. -/
theorem exec_appendTokens_badToken (hbad : pt.badToken toks = true) :
    exec (.appendTokens c (appendFrame fl toks)) s = .next ((s.freeMbox c 0x0102).endContinuation c.part c.handle r .badFrame) := by
  obtain ⟨hflags, hzero, hcount, htokens, hlen⟩ := appendPayload fl toks.length toks hfl hlength htoks
  show execAppendTokens c (beBytes 1 fl ++ beBytes 3 0 ++ beBytes 4 toks.length ++ toks.flatMap (beBytes 4)) s = _
  simp only [execAppendTokens, serveData_run _ _ _ _ _ hserve, hhandle, hreq, hholds, hmore, hflags, hzero, hcount, htokens, hlen, hbad]
  simp [Nat.not_le.mpr hfl]

/-- A well-formed frame with good tokens continues the prompt; without MORE the prompt is complete. -/
theorem exec_appendTokens_taken (hgood : pt.badToken toks = false) (hroom : pt.tokensFull toks.length = false) :
    exec (.appendTokens c (appendFrame fl toks)) s = .next
      (if (fl % 2 == 1) = true then (s.freeMbox c 0x0102).putReq c.part c.handle (r.continued fl toks)
        else ((s.freeMbox c 0x0102).putReq c.part c.handle (r.continued fl toks)).promptComplete c.part c.handle) := by
  obtain ⟨hflags, hzero, hcount, htokens, hlen⟩ := appendPayload fl toks.length toks hfl hlength htoks
  show execAppendTokens c (beBytes 1 fl ++ beBytes 3 0 ++ beBytes 4 toks.length ++ toks.flatMap (beBytes 4)) s = _
  simp only [execAppendTokens, serveData_run _ _ _ _ _ hserve, hhandle, hreq, hholds, hmore, hflags, hzero, hcount, htokens, hlen, hgood, hroom]
  simp [Nat.not_le.mpr hfl]
  rfl

end AppendTokens

/-! ## CANCEL_REQUEST (R216, R233) -/

/-- A partition with a CANCEL_REQUEST staged, in the place of an earlier one of its handle. -/
def Part.cancelStaged (pt : Part) (c : Ctx) : Part :=
  { pt with staged := { pt.staged with cancels := pt.staged.cancels.filter (fun e => e.1 != c.handle) ++ [(c.handle, some c)] } }

theorem cancelStaged_absent {pt : Part} {c : Ctx} (habsent : ∀ e ∈ pt.staged.cancels, e.1 ≠ c.handle) :
    pt.cancelStaged c = { pt with staged := { pt.staged with cancels := pt.staged.cancels ++ [(c.handle, some c)] } } := by
  rw [Part.cancelStaged, filter_otherHandle_absent habsent]

/-- A request is cancelled at the next meridian. -/
theorem exec_cancelRequest {s : State} {c : Ctx} {pt : Part} {r : Req} (hserve : s.dataServes c 0x0103 pt) (hhandle : badHandle c.handle = false)
    (hreq : NMap.find pt.reqs c.handle = some r) (hholds : r.sess = none ∨ (s.freeMbox c 0x0103).holds c r.sess = true)
    (habsent : ∀ e ∈ pt.staged.cancels, e.1 ≠ c.handle) :
    exec (.cancelRequest c []) s = .next ((s.freeMbox c 0x0103).modPart c.part (fun pt => pt.cancelStaged c)) := by
  have hpart : (s.freeMbox c 0x0103).part c.part = some pt := (freeMbox_part ..).trans hserve.2.1
  have hmay : (r.sess.isSome && !(s.freeMbox c 0x0103).holds c r.sess) = false := by
    rcases hholds with hnone | hholds
    · rw [hnone]; rfl
    · rw [hholds, Bool.not_true, Bool.and_false]
  show execCancelRequest c [] s = _
  simp only [execCancelRequest, serveData_run _ _ _ _ _ hserve, hhandle, hreq, hmay, State.answerCancels, hpart, filter_handle_absent habsent,
    List.foldl_nil, State.modPart_modPart, bne_self_eq_false, Bool.or_self, Bool.false_eq_true, if_false]
  rfl

/-! ## PAUSE_REQUEST (R236, R237) -/

/-- The payload of a PAUSE_REQUEST. -/
def pauseFrame (ttl tier : Nat) : Bytes := beBytes 4 ttl ++ (beBytes 1 tier ++ beBytes 3 0)

/-- A partition with a PAUSE_REQUEST staged, in the place of an earlier one of its handle. -/
def Part.pauseStaged (pt : Part) (c : Ctx) (ttl tier : Nat) : Part :=
  { pt with staged := { pt.staged with pauses := pt.staged.pauses.filter (fun e => e.1 != c.handle) ++ [(c.handle, c, ttl, tier)] } }

theorem pauseStaged_absent {pt : Part} {c : Ctx} {ttl tier : Nat} (habsent : ∀ e ∈ pt.staged.pauses, e.1 ≠ c.handle) :
    pt.pauseStaged c ttl tier = { pt with staged := { pt.staged with pauses := pt.staged.pauses ++ [(c.handle, c, ttl, tier)] } } := by
  rw [Part.pauseStaged, filter_otherHandle_absent habsent]

/-- The status with which a PAUSE_REQUEST with zero reserved bytes is refused (Table 3). -/
def State.pauseRefusal (s : State) (pt : Part) (c : Ctx) (ttl tier : Nat) : Option Status :=
  firstBad [(ttl == 0 || decide (86400 < ttl) || decide (2 < tier), .badFrame),
    (!pt.decodes c.handle || !s.holds c ((NMap.find pt.reqs c.handle).bind (·.sess)), .notPermitted), (decide (65536 ≤ s.pausedAll), .noResource)]

theorem pauseRefusal_badFrame {s : State} {pt : Part} {c : Ctx} {ttl tier : Nat} (hbad : ttl = 0 ∨ 86400 < ttl ∨ 2 < tier) :
    s.pauseRefusal pt c ttl tier = some .badFrame := by
  have hfirst : (ttl == 0 || decide (86400 < ttl) || decide (2 < tier)) = true := by simpa [or_assoc] using hbad
  rw [State.pauseRefusal, hfirst, firstBad_true]

section PauseFields
variable {s : State} {pt : Part} {c : Ctx} {ttl tier : Nat} (hlow : 1 ≤ ttl) (hhigh : ttl ≤ 86400) (htier : tier ≤ 2)
include hlow hhigh htier

theorem pauseFields_good : (ttl == 0 || decide (86400 < ttl) || decide (2 < tier)) = false := by
  simp only [Bool.or_eq_false_iff, beq_eq_false_iff_ne, decide_eq_false_iff_not]
  omega

theorem pauseRefusal_notPermitted (hdecodes : pt.decodes c.handle = false) : s.pauseRefusal pt c ttl tier = some .notPermitted := by
  rw [State.pauseRefusal, pauseFields_good hlow hhigh htier, firstBad_false, hdecodes, Bool.not_false, Bool.true_or, firstBad_true]

theorem pauseRefusal_held (hdecodes : pt.decodes c.handle = true) (hholds : s.holds c ((NMap.find pt.reqs c.handle).bind (·.sess)) = true) :
    s.pauseRefusal pt c ttl tier = if 65536 ≤ s.pausedAll then some .noResource else none := by
  rw [State.pauseRefusal, pauseFields_good hlow hhigh htier, firstBad_false, hdecodes, hholds, Bool.not_true, Bool.or_self, firstBad_false]
  split
  next hfull => rw [decide_eq_true hfull, firstBad_true]
  next hroom => rw [decide_eq_false hroom, firstBad_false, firstBad_nil]

end PauseFields

section PauseRequest
variable {s : State} {c : Ctx} {pt : Part} {ttl tier : Nat} (hserve : s.dataServes c 0x0104 pt) (hhandle : badHandle c.handle = false)
  (httl : ttl < 2 ^ 32) (htier : tier < 256)
include hserve hhandle httl htier

/-- A PAUSE_REQUEST is refused with its first refusal. -/
theorem exec_pauseRequest_refused {st : Status} (href : (s.freeMbox c 0x0104).pauseRefusal pt c ttl tier = some st) :
    exec (.pauseRequest c (pauseFrame ttl tier)) s = .next ((s.freeMbox c 0x0104).refuse c 0x0104 st) := by
  obtain ⟨hfield, htierField, hzero, hlen⟩ := pausePayload ttl tier httl htier
  unfold State.pauseRefusal at href
  show execPauseRequest c (beBytes 4 ttl ++ (beBytes 1 tier ++ beBytes 3 0)) s = _
  simp only [execPauseRequest, serveData_run _ _ _ _ _ hserve, hfield, htierField, hzero, hlen, hhandle, bne_self_eq_false, Bool.false_or,
    Bool.or_false, href]

/-- A PAUSE_REQUEST that nothing refuses is staged for the next meridian. -/
theorem exec_pauseRequest_staged (href : (s.freeMbox c 0x0104).pauseRefusal pt c ttl tier = none)
    (habsent : ∀ e ∈ pt.staged.pauses, e.1 ≠ c.handle) : exec (.pauseRequest c (pauseFrame ttl tier)) s =
      .next ((s.freeMbox c 0x0104).modPart c.part (fun pt => pt.pauseStaged c ttl tier)) := by
  obtain ⟨hfield, htierField, hzero, hlen⟩ := pausePayload ttl tier httl htier
  unfold State.pauseRefusal at href
  show execPauseRequest c (beBytes 4 ttl ++ (beBytes 1 tier ++ beBytes 3 0)) s = _
  simp only [execPauseRequest, serveData_run _ _ _ _ _ hserve, hfield, htierField, hzero, hlen, hhandle, bne_self_eq_false, Bool.false_or,
    Bool.or_false, href, filter_handle_absent habsent, List.foldl_nil]
  rfl

end PauseRequest

/-! ## RESUME_REQUEST (R239, R240) -/

/-- The options that a RESUME_REQUEST gives a request. -/
def Req.resumeOptsOf (r : Req) (pl : Bytes) : ReqOpts :=
  { r.opts with endPause := beAt pl 0 1 / 2 % 2 == 1, maxNew := beAt pl 4 4, ttl := beAt pl 8 4 }

/-- A paused request as a RESUME_REQUEST leaves it. -/
def Req.resumedBy (r : Req) (c : Ctx) (pl : Bytes) (stamp : Nat) : Req :=
  { r with sess := some c.sess, st := if r.st = .pausing then .pausing else .resuming, resumeOpts := some (r.resumeOptsOf pl),
           more := beAt pl 0 1 % 2 == 1, prompt := tokensAt pl 16 (beAt pl 12 4), walked := false, candAt := some stamp, passed := 0, claimed := 0 }

theorem resumedBy_st (r : Req) (c : Ctx) (pl : Bytes) (stamp : Nat) : (r.resumedBy c pl stamp).st ≠ .restoring := by
  unfold Req.resumedBy
  split <;> nofun

/-- The state after a RESUME_REQUEST is answered PENDING. -/
def State.resumeAnswered (s : State) (c : Ctx) (pl : Bytes) (r : Req) : State :=
  ((s.putReq c.part c.handle (r.resumedBy c pl s.stamp)).setStamp (s.stamp + 1)).reply c 0x0105 .pending []

theorem resumeAnswered_req {s : State} {c : Ctx} {pt : Part} (pl : Bytes) (r : Req) (hp : s.part c.part = some pt) :
    (s.resumeAnswered c pl r).req c.part c.handle = some (r.resumedBy c pl s.stamp) :=
  (req_reply ..).trans (req_putReq c.handle (r.resumedBy c pl s.stamp) hp)

section ResumeRequest
variable {s : State} {c : Ctx} {pl : Bytes} {pt : Part} (hserve : s.dataServes c 0x0105 pt)
include hserve

/-- A RESUME_REQUEST is refused with its first refusal. -/
theorem exec_resumeRequest_refused {st : Status} (href : (s.freeMbox c 0x0105).resumeRefusal pt c.part c.handle pl = some st) :
    exec (.resumeRequest c pl) s = .next ((s.freeMbox c 0x0105).refuse c 0x0105 st) := by
  show execResumeRequest c pl s = _
  simp only [execResumeRequest, serveData_run _ _ _ _ _ hserve, href]

/-- A RESUME_REQUEST that nothing refuses is answered PENDING; without MORE its prompt is complete. -/
theorem exec_resumeRequest_taken {r : Req} (href : (s.freeMbox c 0x0105).resumeRefusal pt c.part c.handle pl = none)
    (hreq : NMap.find pt.reqs c.handle = some r) :
    exec (.resumeRequest c pl) s = .next (if (beAt pl 0 1 % 2 == 1) = true then (s.freeMbox c 0x0105).resumeAnswered c pl r
      else ((s.freeMbox c 0x0105).resumeAnswered c pl r).promptComplete c.part c.handle) := by
  show execResumeRequest c pl s = _
  simp only [execResumeRequest, serveData_run _ _ _ _ _ hserve, href, hreq]
  rfl

end ResumeRequest

/-- Settles O36: each frame by what it does where it is served (`exec_openRequest_taken`, `exec_appendTokens_taken`, `exec_cancelRequest`,
`exec_pauseRequest_staged`, `exec_resumeRequest_taken` and their refusals), the last frame of a prompt by the cases of `promptComplete`. -/
theorem requestsOpenAndChange : Obligations.RequestsOpenAndChange := by
  refine ⟨fun s c pl pt hserve => ?opened, fun s c pt r fl toks hserve hhandle hreq hholds hfl hlength htoks => ?continued,
    fun s c pt r hserve hhandle hreq hholds habsent => ?cancelled, fun s c pt ttl tier hserve hhandle httl htier => ?paused,
    fun s c pl pt r hserve hreq => ?resumed⟩
  case opened =>
    have hreq := openAnswered_req pl ((freeMbox_part s c 0x0101 c.part).trans hserve.2.1)
    refine ⟨fun st => exec_openRequest_refused hserve, fun href => ?_⟩
    have htaken := exec_openRequest_taken hserve href
    refine ⟨fun hmore => ?_, fun hlast hnew _ => ?_, fun hlast hbranch => ?_⟩
    · exact htaken.trans (congrArg _ (if_pos (beq_iff_eq.mpr hmore)))
    · rw [htaken, if_neg (by simp [hlast]), promptDone_walk hreq (ofOpen_parent_none c hnew), State.queueWalk, openAnswered_now, freeMbox_now]
      rfl
    · rw [htaken, if_neg (by simp [hlast]), promptDone_branch hreq (ofOpen_parent_some c hbranch), State.nowCandidate, openAnswered_stamp,
        freeMbox_stamp]
      rfl
  case continued =>
    refine ⟨exec_appendTokens_unexpected hserve hhandle hreq, fun hmore hbad hnew => ?_, fun hmore hgood hroom => ?_⟩
    · have hended := exec_appendTokens_badToken hserve hhandle hreq hholds hfl hlength htoks hmore hbad
      rw [State.endContinuation, hnew] at hended
      exact hended
    · have htaken := exec_appendTokens_taken hserve hhandle hreq hholds hfl hlength htoks hmore hgood hroom
      refine ⟨fun hone => ?_, fun hlast hnew hparent hprompt => ?_⟩
      · exact htaken.trans (congrArg _ (if_pos (by rw [hone]; rfl)))
      · have hdone := req_putReq c.handle (r.continued fl toks) ((freeMbox_part s c 0x0102 c.part).trans hserve.2.1)
        rw [if_neg (by simp [hlast]), promptComplete_opened hdone hnew hprompt, promptDone_walk hdone hparent, State.queueWalk] at htaken
        exact htaken.trans (by rw [show s.now = (s.freeMbox c 0x0102).now from (freeMbox_now s c 0x0102).symm]; rfl)
  case cancelled =>
    exact cancelStaged_absent habsent ▸
      completes_modPart (·.cancelStaged c) hserve.2.1 (exec_cancelRequest hserve hhandle hreq hholds habsent)
  case paused =>
    have hrefused {st : Status} := exec_pauseRequest_refused (st := st) hserve hhandle httl htier
    refine ⟨fun hbad => hrefused (pauseRefusal_badFrame hbad), fun hlow hhigh hfast =>
      ⟨fun hidle => hrefused (pauseRefusal_notPermitted hlow hhigh hfast hidle), fun hdecodes hholds => ?_⟩⟩
    have href := pauseRefusal_held hlow hhigh hfast hdecodes hholds
    rw [freeMbox_pausedAll] at href
    refine ⟨fun hfull => hrefused (href.trans (if_pos hfull)), fun hroom habsent => ?_⟩
    exact pauseStaged_absent habsent ▸ completes_modPart (·.pauseStaged c ttl tier) hserve.2.1
      (exec_pauseRequest_staged hserve hhandle httl htier (href.trans (if_neg (Nat.not_le.mpr hroom))) habsent)
  case resumed =>
    have hdone := resumeAnswered_req pl r ((freeMbox_part s c 0x0105 c.part).trans hserve.2.1)
    rw [← freeMbox_stamp s c 0x0105]
    refine ⟨fun st => exec_resumeRequest_refused hserve, fun href => ?_⟩
    have htaken := exec_resumeRequest_taken hserve href hreq
    refine ⟨fun hmore => ?_, fun hlast hwork => ?_, fun hlast hnew hleft hprompt hend => ?_⟩
    · exact htaken.trans (congrArg _ (if_pos hmore))
    · exact htaken.trans (congrArg _ ((if_neg (by simp [hlast])).trans (promptComplete_resumed hdone rfl (resumedBy_st r c pl _) hwork)))
    · exact htaken.trans (congrArg _ ((if_neg (by simp [hlast])).trans (promptComplete_idle hdone rfl hnew hleft hprompt hend)))

end Sys2Proof.Machine
end

section
/-!
PROOFS. Requests that wait: time-outs of prompts, the end of a move, times to live, tombstones and restores (O37).
-/
namespace Sys2Proof.Machine

open Sys2Proof

/-! ## The time-out of a prompt (R219, R220) -/

/-- The end of a resume leaves its request as it was before the resume. -/
theorem revertResume_req {s : State} {p h : Nat} {pt : Part} {r : Req} (hp : s.part p = some pt) (hr : NMap.find pt.reqs h = some r) (st : Status) :
    (s.revertResume p h st).req p h = some r.revert := by
  simp only [State.revertResume, hp, hr]
  exact (repliesOnly_field (fun x : State => x.req p h) (fun _ _ => rfl) (emit_only _ _ _)).trans
    (req_of_part (part_of_modPart _ hp) (NMap.find_insert_self _ _ _))

/-- A request whose further frame does not come ends as a bad continuation ends it. -/
theorem exec_promptTimeout {s : State} {p h : Nat} {r : Req} (hr : s.req p h = some r) (hmore : r.more = true) :
    exec (.promptTimeout p h) s = .next (s.endContinuation p h r .badFrame) := by
  unfold State.req at hr
  show execPromptTimeout p h s = _
  simp only [execPromptTimeout, hr, require, hmore, if_true]

theorem endContinuation_opened {s : State} {p h : Nat} {r : Req} (hnew : r.resumeOpts = none) :
    s.endContinuation p h r .badFrame = s.endReqNow p h .badFrame := by
  rw [State.endContinuation, hnew]
  rfl

theorem endContinuation_resumed {s : State} {p h : Nat} {r : Req} (hresume : r.resumeOpts ≠ none) :
    s.endContinuation p h r .badFrame = s.revertResume p h .badFrame := by
  rw [State.endContinuation, Option.isSome_iff_ne_none.mpr hresume]
  rfl

/-! ## The end of a move (R236, R238) -/

/-- The page entries of a request whose sheets have been moved. -/
def Req.goneEntries (r : Req) : List PageEntry := r.list.filter (fun e => r.moved.any (fun m => m.1.start == e.start))

/-- A request that is paused once its move has ended. -/
def Req.movedOut (r : Req) (s : State) (p : Nat) : Req :=
  { r with st := .paused, sess := none, list := r.list.filter (fun e => !r.moved.any (fun m => m.1.start == e.start)), pauseBy := none,
           endsAt := if s.leads p then some (wholeSecond (s.now + r.opts.ttl * 1000000000)) else none }

/-- A partition after the end of a move: the sheets moved and the entries of the request are free. -/
def Part.movedOut (h : Nat) (r r1 : Req) (pt : Part) : Part :=
  { pt.unrefList r.goneEntries with seqs := pt.seqs.filter (fun q => q.handle != h), reqs := NMap.insert pt.reqs h r1 }

/-- The PAUSE_REQUEST that a move completes, if a frame asked for it, answered with the tier's byte. -/
def State.answerMove (s : State) (r : Req) : State :=
  match r.pauseBy with
  | some c => s.reply c 0x0104 .ok [tierByte r.tier]
  | none => s

theorem answerMove_asked (s : State) {r : Req} {c : Ctx} (hby : r.pauseBy = some c) :
    s.answerMove r = s.reply c 0x0104 .ok [tierByte r.tier] := by
  rw [State.answerMove, hby]

theorem answerMove_unasked (s : State) {r : Req} (hby : r.pauseBy = none) : s.answerMove r = s := by
  rw [State.answerMove, hby]

/-- The end of a move of a request that no RESUME_REQUEST has reached. -/
theorem exec_pauseMoveComplete {s : State} {p h : Nat} {pt : Part} {r : Req} (hp : s.part p = some pt) (hr : NMap.find pt.reqs h = some r)
    (hst : r.st = .pausing) (hnew : r.resumeOpts = none) : exec (.pauseMoveComplete p h) s =
      .next (((s.modPart p (Part.movedOut h r (r.movedOut s p))).answerMove r).bump .req p 0x18 1) := by
  have hsome : r.resumeOpts.isSome = false := congrArg Option.isSome hnew
  have hnone : r.resumeOpts.isNone = true := congrArg Option.isNone hnew
  show execPauseMoveComplete p h s = _
  simp only [execPauseMoveComplete, require, hp, hr, hst, hsome, hnone, beq_self_eq_true, if_true, Bool.true_or, Bool.true_and,
    Bool.false_eq_true, if_false]
  rfl

/-! ## Times to live and tombstones (R238, R239) -/

theorem exec_pauseExpiry {s : State} {p h now t0 : Nat} {r : Req} (hr : s.req p h = some r) (hends : r.endsAt = some t0) (hpast : t0 ≤ now) :
    exec (.pauseExpiry p h now) s = .next ((s.at now).buryReq p h .expired) := by
  unfold State.req at hr
  show execPauseExpiry p h now s = _
  simp only [execPauseExpiry, hr, require, hends, Option.any_some, decide_eq_true hpast, if_true]

theorem exec_tombstoneExpiry {s : State} {p h : Nat} (htomb : s.tomb p h ≠ none) : exec (.tombstoneExpiry p h) s = .next (s.clearTomb p h) := by
  show execTombstoneExpiry p h s = _
  simp only [execTombstoneExpiry, require, Option.isSome_iff_ne_none.mpr htomb, if_true]

/-- Clearing a tombstone leaves the others. -/
theorem clearTomb_tomb_ne (s : State) {p h q k : Nat} (hne : q ≠ p ∨ k ≠ h) : (s.clearTomb p h).tomb q k = s.tomb q k := by
  have hpred : (fun e : Tomb => decide ((!(e.part == p && e.handle == h)) = true ∧ (e.part == q && e.handle == k) = true)) =
      fun e => e.part == q && e.handle == k := by
    funext e
    rw [Bool.eq_iff_iff]
    simp only [decide_eq_true_eq, Bool.not_eq_true', Bool.and_eq_false_iff, beq_eq_false_iff_ne, Bool.and_eq_true, beq_iff_eq]
    omega
  show ((s.tombs.filter (fun e => !(e.part == p && e.handle == h))).find? (fun e => e.part == q && e.handle == k)).map (·.status) = _
  rw [List.find?_filter, hpred]
  rfl

/-! ## The read of a restore (R240, R252, R260) -/

/-- `t` with what the storage of `s` notes of its errors, and with its registers. -/
def State.unread (t s : State) : State := { t with tiles := s.tiles, flash := s.flash, dram := s.dram, nand := s.nand, regs := s.regs }

theorem unread_eq (t s : State) :
    ((((t.setTiles s.tiles).setFlash s.flash).setDram s.dram).setNand s.nand).setRegs s.regs = t.unread s := rfl

/-- What the read of a paused cache may change: what the storage notes of its errors, and the registers. -/
def errorsOnly (s t : State) : Prop := t.unread s = s

theorem errorsOnly_refl (s : State) : errorsOnly s s := rfl

theorem errorsOnly_trans {a b c : State} (h1 : errorsOnly a b) (h2 : errorsOnly b c) : errorsOnly a c :=
  (congrArg (fun x : State => x.unread a) h2 :).trans h1

theorem errorsOnly_part {s t : State} (h : errorsOnly s t) (p : Nat) : t.part p = s.part p :=
  (congrArg (fun x : State => x.part p) h :)

theorem errorsOnly_stamp {s t : State} (h : errorsOnly s t) : t.stamp = s.stamp :=
  (congrArg (fun x : State => x.stamp) h :)

theorem errorsOnly_reads {s t : State} (h : readsOnly s t) : errorsOnly s t :=
  (congrArg (fun x : State => x.unread s) h :)

theorem errorsOnly_strike (s : State) (env : List Strike) : errorsOnly s (s.strike env) :=
  foldl_inv (errorsOnly s) _ (fun _ e h => errorsOnly_trans h (by cases e <;> rfl)) env s (errorsOnly_refl s)

/-- Counting what is not none. -/
theorem errorsOnly_counted (s : State) (off n : Nat) : errorsOnly s (if n = 0 then s else s.bump .nt 0 off n) := by
  split <;> rfl

theorem errorsOnly_weakened (s : State) (bs : List Nat) (weak : Bool) :
    errorsOnly s (if weak then s.setNand { s.nand with weak := (s.nand.weak ++ bs).eraseDups } else s) := by
  cases weak <;> rfl

theorem errorsOnly_nandErrors (s : State) (bs : List Nat) (env : List Strike) : errorsOnly s (s.nandErrors bs env) :=
  errorsOnly_trans (errorsOnly_trans (errorsOnly_counted s 0x10 (nandRetries env)) (errorsOnly_counted _ 0x14 (nandStruck env)))
    (errorsOnly_weakened _ bs (nandWeak env))

theorem errorsOnly_readCache (s : State) (p : Nat) (pt : Part) (es : List PageEntry) : errorsOnly s (s.readCache p pt es).1 := by
  unfold State.readCache
  split
  · rfl
  · exact foldl_inv (fun a : State × Bool => errorsOnly s a.1) _
      (fun a r h => errorsOnly_trans h (errorsOnly_reads (readsOnly_shareReadChecked a.1 pt r.1 r.2))) _ (s, false) rfl

theorem errorsOnly_restoreRead (s : State) (p : Nat) (pt : Part) (r : Req) (env : List Strike) : errorsOnly s (s.restoreRead p pt r env).1 := by
  unfold State.restoreRead
  split
  · exact errorsOnly_trans (errorsOnly_strike s env) (errorsOnly_readCache _ p pt _)
  · exact errorsOnly_nandErrors s [] env
  · rfl

/-- A read of the share where nothing is struck changes nothing and meets no uncorrectable burst, also beyond the share. -/
theorem shareReadChecked_calm {s : State} (pt : Part) (off n : Nat) (hbad : s.dram.bad = []) (hfailed : s.dram.failed = []) :
    s.shareReadChecked pt off n = (s, s.shareRead pt off n, false) := by
  cases hread : s.shareRead pt off n with
  | some bs => exact shareReadChecked_clean s pt off n bs hbad hfailed hread
  | none =>
    unfold State.shareReadChecked
    cases hruns : pt.dramRuns (pt.dram.length + 1) off n with
    | none => rfl
    | some rs => simp [State.shareRead, hruns] at hread

/-- A cache in LPDDR5X is read as it stands where nothing is struck. -/
theorem readCache_calm {s : State} (p : Nat) (pt : Part) (es : List PageEntry) (hbad : s.dram.bad = []) (hfailed : s.dram.failed = []) :
    s.readCache p pt es = (s, false) := by
  unfold State.readCache
  split
  · rfl
  · refine foldl_inv (fun a : State × Bool => a = (s, false)) _ (fun a r h => ?_) _ (s, false) rfl
    rw [h]
    simp only [shareReadChecked_calm pt r.1 r.2 hbad hfailed, Bool.or_self]

theorem restoreRead_dram {s : State} (p : Nat) (pt : Part) {r : Req} (htier : r.tier = 0) (hbad : s.dram.bad = []) (hfailed : s.dram.failed = []) :
    s.restoreRead p pt r [] = (s, false) := by
  simp only [State.restoreRead, htier, State.strike_nil]
  exact readCache_calm p pt _ hbad hfailed

theorem restoreRead_nand (s : State) (p : Nat) (pt : Part) {r : Req} (env : List Strike) (htier : r.tier = 1) :
    (s.restoreRead p pt r env).2 = (decide (0 < nandStruck env) || s.pauseLost (movedBytes r.moved)) := by
  simp only [State.restoreRead, htier]

theorem restoreRead_lent (s : State) (p : Nat) (pt : Part) {r : Req} (env : List Strike) (htier : 1 < r.tier) :
    s.restoreRead p pt r env = (s, sourceLost env) := by
  unfold State.restoreRead
  split
  · omega
  · omega
  · rfl

/-! ## The end of a restore (R238, R240) -/

theorem req_modReq (s : State) (p h : Nat) (f : Req → Req) :
    (s.modPart p (fun pt => { pt with reqs := NMap.modify pt.reqs h f })).req p h = (s.req p h).map f := by
  rw [State.req, State.part_modPart_self, State.req, Option.map_bind, Option.bind_map]
  exact congrArg _ (funext fun pt => NMap.find_modify_self pt.reqs h f)

/-- A request whose restore has filled its sheets: a candidate, once its last frame has come. -/
def State.restoreEnded (s : State) (p h : Nat) (more : Bool) : State :=
  if more then s.modPart p (fun pt => { pt with reqs := NMap.modify pt.reqs h (fun v => { v with walked := true, candAt := none }) })
  else s.nowCandidate p h

theorem restoreEnded_req {s : State} {p h : Nat} {r : Req} (hr : s.req p h = some r) (more : Bool) : (s.restoreEnded p h more).req p h =
    some { r with walked := true, candAt := if more then none else some s.stamp } := by
  cases more with
  | true => exact (req_modReq s p h _).trans (congrArg (Option.map _) hr)
  | false => exact (req_modReq s p h _).trans (congrArg (Option.map _) hr)

theorem restoreEnded_mem (s : State) (p h : Nat) (more : Bool) : (s.restoreEnded p h more).mem = s.mem := by
  cases more <;> rfl

theorem restoreEnded_stamp (s : State) (p h : Nat) (more : Bool) : (s.restoreEnded p h more).stamp = if more then s.stamp else s.stamp + 1 := by
  cases more <;> rfl

section RestoreComplete
variable {s : State} {p h : Nat} {pt : Part} {r : Req} {env : List Strike} (hp : s.part p = some pt) (hr : NMap.find pt.reqs h = some r)
  (hst : r.st = .restoring) (hwalked : r.walked = false)
include hp hr hst hwalked

/-- A restore whose cache cannot be read buries it. -/
theorem exec_restoreComplete_lost (hlost : (s.restoreRead p pt r env).2 = true) :
    exec (.restoreComplete p h env) s = .next ((s.restoreRead p pt r env).1.buryReq p h .tierFailed) := by
  show execRestoreComplete p h env s = _
  simp only [execRestoreComplete, require, hp, hr, hst, hwalked, beq_self_eq_true, Bool.not_false, Bool.and_self, if_true, hlost]

/-- A restore that has read its cache fills its sheets. -/
theorem exec_restoreComplete_filled (hread : (s.restoreRead p pt r env).2 = false) :
    exec (.restoreComplete p h env) s = .next (((s.restoreRead p pt r env).1.fillRestored p r).restoreEnded p h r.more) := by
  show execRestoreComplete p h env s = _
  simp only [execRestoreComplete, require, hp, hr, hst, hwalked, beq_self_eq_true, Bool.not_false, Bool.and_self, if_true, hread,
    Bool.false_eq_true, if_false]
  rfl

end RestoreComplete

/-- Settles O37: a time-out by the two continuations that it ends, the end of a move by `exec_pauseMoveComplete`, the burials by `buryReq_spec`, a
restore by what it reads (`errorsOnly_restoreRead` and the three tiers) and how it ends (`restoreEnded_req`), a tombstone by `clearTomb_tomb_ne`. -/
theorem requestsWaitAndEnd : Obligations.RequestsWaitAndEnd := by
  refine ⟨fun s p h pt r hp hr hmore => ?timedOut, fun s p h pt r hp hr hst hnew => ?moved,
    fun s p h now t0 pt r hp hr => ⟨fun hends hpast => ?expired, fun hst hwalked env => ?restored⟩, fun s p h htomb => ?dropped⟩
  case timedOut =>
    have htimeout := exec_promptTimeout (req_of_part hp hr) hmore
    refine ⟨fun hnew => ?_, fun hresume => ?_⟩
    · rw [endContinuation_opened hnew] at htimeout
      obtain ⟨hend, v, hv, hgone, hseqs⟩ := endReqNow_end s p h .badFrame pt hp
      exact ⟨htimeout, _, htimeout, ⟨v, hv, hgone, hseqs⟩, hend.2, endOnly_field State.mem (fun _ _ => rfl) hend,
        endOnly_field State.tombs (fun _ _ => rfl) hend⟩
    · rw [endContinuation_resumed hresume] at htimeout
      exact ⟨htimeout, _, htimeout, revertResume_req hp hr .badFrame⟩
  case moved =>
    have hmoved := exec_pauseMoveComplete hp hr hst hnew
    exact ⟨fun c hby => hmoved.trans (by rw [answerMove_asked _ hby]; rfl), fun hby => hmoved.trans (by rw [answerMove_unasked _ hby]; rfl)⟩
  case expired =>
    exact ⟨_, exec_pauseExpiry (req_of_part hp hr) hends hpast, rfl, buryReq_spec (s.at now) p h .expired pt hp⟩
  case restored =>
    have herrors := errorsOnly_restoreRead s p pt r env
    have hpart := (errorsOnly_part herrors p).trans hp
    refine ⟨(unread_eq ..).trans herrors, fun htier hbad hfailed hnone => ?_, restoreRead_nand s p pt env, restoreRead_lent s p pt env,
      fun hlost => ?_, fun hread => ?_⟩
    · rw [hnone]
      exact restoreRead_dram p pt htier hbad hfailed
    · exact ⟨_, exec_restoreComplete_lost hp hr hst hwalked hlost, rfl, buryReq_spec _ p h .tierFailed pt hpart⟩
    · have hfilled := fillRestored_frame (s.restoreRead p pt r env).1 p r
      have hreq := req_of_part ((shareOnly_part hfilled p).trans hpart) hr
      have hstamp : ((s.restoreRead p pt r env).1.fillRestored p r).stamp = s.stamp :=
        (congrArg (fun x : State => x.stamp) hfilled :).trans (errorsOnly_stamp herrors)
      exact ⟨_, exec_restoreComplete_filled hp hr hst hwalked hread, _, _, rfl, hfilled, restoreEnded_req hreq r.more, by rw [hstamp],
        restoreEnded_mem _ p h r.more, hstamp ▸ restoreEnded_stamp _ p h r.more⟩
  case dropped =>
    exact ⟨_, exec_tombstoneExpiry htomb, clearTomb_tomb s p h, fun _ _ => clearTomb_tomb_ne s, rfl⟩

end Sys2Proof.Machine
end

section
/-!
PROOFS. Copies of lendable tensors, the scrub of shards, and insets (O45).
-/
namespace Sys2Proof.Machine

open Sys2Proof

/-! ## LOAD_LENDABLE (R328) -/

/-- Lendable tensors may be copied: a loan is active, the model is started and no copying runs. -/
def Part.lendReady (pt : Part) : Prop := pt.loans.any (fun l => l.active) = true ∧ pt.mstate = .started ∧ pt.lendCopy = none

theorem lendReady_iff (pt : Part) :
    pt.lendReady ↔ (!pt.loans.any (fun l => l.active) || pt.mstate != .started || pt.lendCopy.isSome) = false := by
  simp only [Part.lendReady, Bool.or_eq_false_iff, Bool.not_eq_false', bne_eq_false_iff_eq, Option.isSome_eq_false_iff, Option.isNone_iff_eq_none,
    and_assoc]

section LoadLendable
variable {s : State} {c : Ctx} {pt : Part} (hserve : s.modelServes c 0x0406 pt)
include hserve

theorem exec_loadLendable_refused (hno : ¬pt.lendReady) :
    exec (.loadLendable c []) s = (s.freeMbox c 0x0406).modelNo c 0x0406 .notPermitted := by
  rw [lendReady_iff, Bool.not_eq_false] at hno
  show execLoadLendable c [] s = _
  simp only [execLoadLendable, modelOp_run _ _ _ _ _ hserve, List.isEmpty_nil, Bool.not_true, Bool.false_eq_true, if_false, hno, if_true]

theorem exec_loadLendable_taken (hready : pt.lendReady) : exec (.loadLendable c []) s =
    .next (((s.freeMbox c 0x0406).owe c 0x0406).modPart c.part (fun pt => { pt with lendCopy := some c })) := by
  rw [lendReady_iff] at hready
  show execLoadLendable c [] s = _
  simp only [execLoadLendable, modelOp_run _ _ _ _ _ hserve, List.isEmpty_nil, Bool.not_true, Bool.false_eq_true, if_false, hready]

end LoadLendable

/-- The lendable tensors of an image, in directory order. -/
def Part.lendables (pt : Part) (im : Image) : List DirEntry := (pt.dir im).filter DirEntry.lendable

/-- The first fault of a pod of the lendable tensors. -/
def Part.lendFault (pt : Part) (im : Image) : Option PodFault :=
  (pt.lendables im).findSome? (fun d => shardFault (pt.plainShard (pt.imageOf im d)) d)

section LendableCopy
variable {s : State} {p : Nat} {pt : Part} {c : Ctx} {im : Image} (hp : s.part p = some pt) (hcopy : pt.lendCopy = some c)
  (himage : pt.image = some im)
include hp hcopy himage

/-- Copies of tensors with no pod at fault go into the loans in directory order, until one has no room. -/
theorem exec_lendableCopyComplete_copied (hfault : pt.lendFault im = none) : exec (.lendableCopyComplete p) s =
    .next ((s.putPart p (pt.bareLoans.lendAll im (pt.lendables im)).1).settleModel p c 0x0406
      (if (pt.bareLoans.lendAll im (pt.lendables im)).2 then .ok else .noResource)) := by
  unfold Part.lendFault Part.lendables at hfault
  show execLendableCopyComplete p s = _
  simp only [execLendableCopyComplete, hp, hcopy, himage, hfault]
  rfl

/-- A pod at fault ends the copying with DECODE_FAULT. -/
theorem exec_lendableCopyComplete_fault {e : PodFault} (hfault : pt.lendFault im = some e) : exec (.lendableCopyComplete p) s =
    .next (((s.putPart p pt.bareLoans).podFault p 0 3 e none).settleModel p c 0x0406 .decodeFault) := by
  unfold Part.lendFault Part.lendables at hfault
  show execLendableCopyComplete p s = _
  simp only [execLendableCopyComplete, hp, hcopy, himage, hfault]

end LendableCopy

/-! ## Shard scrub (R329, R330) -/

/-- The state with a mismatch of an image's shard counted and told to the partition's owner. -/
def State.scrubFound (s : State) (p : Nat) (im : Image) : State :=
  ((s.bump .model p 0x1C 1).bump .nt 0 0x28 1).ownerEvent p .digestMismatch 0 im.handle 0

theorem scrubFound_part (s : State) (p : Nat) (im : Image) (q : Nat) : (s.scrubFound p im).part q = s.part q :=
  repliesOnly_field (fun x : State => x.part q) (fun _ _ => rfl) (ownerEvent_only _ _ _ _ _ _)

/-- The fetch that repairs the shard of an image: no frame has asked for it (R330). -/
def Install.repair (p : Nat) (im : Image) : Install :=
  { Install.begin { sess := 0xFFFF, part := p, handle := im.handle, via := none } 0 0 0 with image := some im }

/-- A shard that is being fetched again is not asked for once more. -/
theorem refetchShard_running {s : State} {p : Nat} {pt : Part} (im : Image) (hp : s.part p = some pt) (hrunning : pt.refetch.isSome = true) :
    s.refetchShard p im = s := by
  simp only [State.refetchShard, hp, Option.any_some, hrunning, if_true]

/-- The repair of a shard begins by asking the neighbours for it. -/
theorem refetchShard_begins {s : State} {p : Nat} {pt : Part} (im : Image) (hp : s.part p = some pt) (hidle : pt.refetch = none) :
    s.refetchShard p im = (s.modPart p (fun pt => { pt with refetch := some (Install.repair p im) })).askAll p true im := by
  simp only [State.refetchShard, hp, Option.any_some, hidle, Option.isSome_none, Bool.false_eq_true, if_false]
  rfl

/-- A scrub of a sealed shard finds it as it was, or with a mismatch has it fetched again. -/
theorem exec_shardScrub {s : State} {p : Nat} {next : Bool} {pt : Part} {im : Image} (mismatch : Bool) (hp : s.part p = some pt)
    (himage : (if next = true then pt.next else pt.image) = some im) (hsealed : im.shardSealed = true) :
    exec (.shardScrub p next mismatch) s = .next (if mismatch then (s.scrubFound p im).refetchShard p im else s) := by
  show execShardScrub p next mismatch s = _
  simp only [execShardScrub, hp, himage, Option.filter_some, hsealed, if_true]
  cases mismatch <;> rfl

/-! ## INSTALL_INSET (R325, R326) -/

/-- The inset that an INSTALL_INSET begins. -/
def Inset.asked (c : Ctx) (pl : Bytes) (ts : List Nat) (stamp : Nat) : Inset :=
  { form := beAt pl 0 1, tokens := ts, tensor := beAt pl 8 4, count := beAt pl 4 4, done := 0, list := [], admitted := false, installed := false,
    ctx := c, candAt := stamp, again := none }

section InstallInset
variable {s : State} {c : Ctx} {pl : Bytes} {pt : Part} {im : Image} (hserve : s.modelServes c 0x0301 pt) (himage : pt.image = some im)
  (hfirst : im.isFirst = true)
include hserve himage hfirst

/-- A partition whose model is not started, or that has an inset under the frame's handle, takes none. -/
theorem exec_installInset_notPermitted (hno : pt.mstate ≠ .started ∨ (NMap.find pt.insets c.handle).isSome = true) :
    exec (.installInset c pl) s = (s.freeMbox c 0x0301).modelNo c 0x0301 .notPermitted := by
  have hrefused : (pt.mstate != .started || (NMap.find pt.insets c.handle).isSome) = true := by
    rwa [Bool.or_eq_true, bne_iff_ne]
  show execInstallInset c pl s = _
  simp only [execInstallInset, insetOp_run _ _ _ _ _ _ hserve himage hfirst, hrefused, if_true]

variable (hstarted : pt.mstate = .started) (hfree : NMap.find pt.insets c.handle = none)
include hstarted hfree

theorem exec_installInset_badFrame (htokens : pt.insetTokens im pl = none) :
    exec (.installInset c pl) s = (s.freeMbox c 0x0301).modelNo c 0x0301 .badFrame := by
  show execInstallInset c pl s = _
  simp only [execInstallInset, insetOp_run _ _ _ _ _ _ hserve himage hfirst, hstarted, hfree, htokens, bne_self_eq_false,
    Option.isSome_none, Bool.or_self, Bool.false_eq_true, if_false]

/-- An inset that is asked for waits for a meridian, unless the partition has 256. -/
theorem exec_installInset_taken {ts : List Nat} (htokens : pt.insetTokens im pl = some ts) : exec (.installInset c pl) s =
    (if 256 ≤ pt.insets.length then (s.freeMbox c 0x0301).modelNo c 0x0301 .noResource
     else .next ((((s.freeMbox c 0x0301).owe c 0x0301).modPart c.part (fun pt =>
       { pt with insets := NMap.insert pt.insets c.handle (Inset.asked c pl ts s.stamp) })).setStamp (s.stamp + 1))) := by
  show execInstallInset c pl s = _
  simp only [execInstallInset, insetOp_run _ _ _ _ _ _ hserve himage hfirst, hstarted, hfree, htokens, freeMbox_stamp, bne_self_eq_false,
    Option.isSome_none, Bool.or_self, Bool.false_eq_true, if_false]
  rfl

end InstallInset

/-- A partition without an inset that has not been computed and that no sequence computes. -/
def Part.insetDropped (pt : Part) (h : Nat) : Part :=
  { pt with insets := NMap.erase pt.insets h, gone := Gone.seq (insetSeq h) :: pt.gone.erase (Gone.seq (insetSeq h)) }

/-- The end of an inset that no sequence computes. -/
theorem endInset_waiting {s : State} {p h : Nat} {pt : Part} {v : Inset} (st : Status) (hp : s.part p = some pt)
    (hv : NMap.find pt.insets h = some v) (hinstalled : v.installed = false) (hseqs : ∀ q ∈ pt.seqs, q.handle ≠ insetSeq h) :
    ∃ u : State, onlyPart s u p ∧ u.part p = some (pt.insetDropped h) ∧ s.endInset p h st = u.settleModel p v.ctx 0x0301 st := by
  have hnone : pt.seqs.filter (fun q => q.handle == insetSeq h) = [] :=
    List.filter_eq_nil_iff.mpr (fun q hq => by simp [hseqs q hq])
  have hall : pt.seqs.filter (fun q => q.handle != insetSeq h) = pt.seqs :=
    List.filter_eq_self.mpr (fun q hq => bne_iff_ne.mpr (hseqs q hq))
  simp only [State.endInset, hp, hv]
  refine ⟨_, onlyPart_modPart s p _, ?_, rfl⟩
  rw [part_of_modPart _ hp]
  simp only [hnone, hall, hinstalled, List.foldl_nil, Bool.false_eq_true, if_false]
  rfl

/-- An inset that no meridian has admitted within 10 s ends with NO_RESOURCE. -/
theorem exec_insetTimeout {s : State} {p h : Nat} {pt : Part} {v : Inset} (hp : s.part p = some pt) (hv : NMap.find pt.insets h = some v)
    (hadmitted : v.admitted = false) (hinstalled : v.installed = false) : exec (.insetTimeout p h) s = .next (s.endInset p h .noResource) := by
  show execInsetTimeout p h s = _
  simp only [execInsetTimeout, require, hp, Option.bind_some, hv, Option.any_some, hadmitted, hinstalled, Bool.not_false, Bool.and_self, if_true]

/-! ## REMOVE_INSET (R241, R327) -/

/-- A partition with a REMOVE_INSET staged, in the place of an earlier one of its handle. -/
def Part.removeStaged (pt : Part) (c : Ctx) : Part :=
  { pt with staged := { pt.staged with removeInsets := pt.staged.removeInsets.filter (fun e => e.1 != c.handle) ++ [(c.handle, c)] } }

theorem removeStaged_absent {pt : Part} {c : Ctx} (habsent : ∀ e ∈ pt.staged.removeInsets, e.1 ≠ c.handle) :
    pt.removeStaged c = { pt with staged := { pt.staged with removeInsets := pt.staged.removeInsets ++ [(c.handle, c)] } } := by
  rw [Part.removeStaged, filter_otherHandle_absent habsent]

section RemoveInset
variable {s : State} {c : Ctx} {pt : Part} {im : Image} (hserve : s.modelServes c 0x0302 pt) (himage : pt.image = some im)
  (hfirst : im.isFirst = true)
include hserve himage hfirst

theorem exec_removeInset_refused (hno : ∀ v, NMap.find pt.insets c.handle = some v → v.installed = false) :
    exec (.removeInset c []) s = (s.freeMbox c 0x0302).modelNo c 0x0302 .notPermitted := by
  have hnone : (NMap.find pt.insets c.handle).any (·.installed) = false := by
    cases hv : NMap.find pt.insets c.handle with
    | none => rfl
    | some v => exact hno v hv
  show execRemoveInset c [] s = _
  simp only [execRemoveInset, insetOp_run _ _ _ _ _ _ hserve himage hfirst, hnone, List.isEmpty_nil, Bool.not_true, Bool.not_false,
    Bool.false_eq_true, if_false, if_true]

/-- An installed inset is removed at the next meridian. -/
theorem exec_removeInset_staged {v : Inset} (hv : NMap.find pt.insets c.handle = some v) (hinstalled : v.installed = true)
    (habsent : ∀ e ∈ pt.staged.removeInsets, e.1 ≠ c.handle) :
    exec (.removeInset c []) s = .next (((s.freeMbox c 0x0302).owe c 0x0302).modPart c.part (fun pt => pt.removeStaged c)) := by
  show execRemoveInset c [] s = _
  simp only [execRemoveInset, insetOp_run _ _ _ _ _ _ hserve himage hfirst, hv, Option.any_some, hinstalled, filter_handle_absent habsent,
    List.foldl_nil, List.isEmpty_nil, Bool.not_true, Bool.false_eq_true, if_false]
  rfl

end RemoveInset

/-- Settles O45: LOAD_LENDABLE and its copies by the two ways each goes, a scrub by whether the shard is being fetched again
(`refetchShard_running`, `refetchShard_begins`), insets by `exec_installInset_taken`, `endInset_waiting` and `exec_removeInset_staged`. -/
theorem copiesScrubsAndInsets : Obligations.CopiesScrubsAndInsets := by
  refine ⟨fun s c pt hserve => ⟨exec_loadLendable_refused hserve, exec_loadLendable_taken hserve⟩,
    fun s p pt c im hp hcopy himage =>
      ⟨exec_lendableCopyComplete_copied hp hcopy himage, fun e => exec_lendableCopyComplete_fault hp hcopy himage⟩,
    fun s p next pt im hp himage hsealed => ?scrubbed, fun s c pl pt im hserve himage hfirst => ?installed,
    fun s p h pt v hp hv hadmitted hinstalled hseqs => ?timedOut, fun s c pt im hserve himage hfirst => ?removed⟩
  case scrubbed =>
    have hscrub (mismatch : Bool) := exec_shardScrub mismatch hp himage hsealed
    have hfound := (scrubFound_part s p im p).trans hp
    exact ⟨hscrub false, fun hrunning => (hscrub true).trans (congrArg _ (refetchShard_running im hfound hrunning)),
      fun hidle => (hscrub true).trans (congrArg _ (refetchShard_begins im hfound hidle))⟩
  case installed =>
    refine ⟨exec_installInset_notPermitted hserve himage hfirst, fun hstarted hfree =>
      ⟨exec_installInset_badFrame hserve himage hfirst hstarted hfree, fun ts htokens => ?_⟩⟩
    have htaken := exec_installInset_taken hserve himage hfirst hstarted hfree htokens
    exact ⟨fun hfull => htaken.trans (if_pos hfull), fun hroom => htaken.trans (if_neg (Nat.not_le.mpr hroom))⟩
  case timedOut =>
    obtain ⟨u, honly, hu, hend⟩ := endInset_waiting .noResource hp hv hinstalled hseqs
    exact ⟨u, honly, hu, (exec_insetTimeout hp hv hadmitted hinstalled).trans (congrArg _ hend)⟩
  case removed =>
    refine ⟨exec_removeInset_refused hserve himage hfirst, fun v hv hinstalled habsent => ?_⟩
    exact removeStaged_absent habsent ▸ ⟨_, exec_removeInset_staged hserve himage hfirst hv hinstalled habsent, onlyPart_modPart _ _ _,
      part_of_modPart _ ((owe_part ..).trans ((freeMbox_part ..).trans hserve.2.1))⟩

end Sys2Proof.Machine
end

section
/-!
PROOFS. The registers of the Veolo links, and the writes of TIER_LOAN_CTL that ask for and return loans (O28).
-/
namespace Sys2Proof.Machine

open Sys2Proof

/-! ## VL_LINK_CTL (R284, R300) -/

/-- A link that goes DOWN has lost its replay buffer and its sequence state; the other links keep their states. -/
theorem linkDown_spec (s : State) (i : Nat) :
    ((s.linkDown i).link i).st = .down ∧ ((s.linkDown i).link i).replay = [] ∧ ((s.linkDown i).link i).txSeq = 0 ∧
      ((s.linkDown i).link i).rxSeq = 0 ∧ (∀ j, j ≠ i → ((s.linkDown i).link j).st = (s.link j).st) ∧ (s.linkDown i).setVeolo s.veolo = s := by
  obtain ⟨hself, hothers, hframe⟩ := linkChange_spec s i (fun l => l.fallen .down)
  obtain ⟨hst, hreplay, htx, hrx, -⟩ := keepsLink_get hself (show LState.down ≠ .up by decide) (show LState.down ≠ .miswired by decide)
  exact ⟨hst, hreplay, htx, hrx, fun j hj => (hothers j hj).1, hframe⟩

/-- A write of an enabled link's RETRAIN sends it to DOWN. -/
theorem writeEffect_retrain (s : State) (i : Nat) (old w v : Word) (henable : w.bit 31 = true) (hretrain : v.bit 30 = true) :
    s.writeEffect .vl i 0 old w v = .done ((s.putReg .vl i 0 w).linkDown i) := by
  simp only [State.writeEffect, State.linkControl, henable, hretrain, Bool.not_true, Bool.or_true, Bool.false_eq_true, if_false, if_true]

theorem retrain_answers (s : State) (c : Ctx) (i : Nat) (v : Word) (hw : s.ownerWrites c) (hi : i < 8) (henable : v.bit 31 = true)
    (hretrain : v.bit 30 = true) :
    answered (.retrain c i v) s c 0x0607 .ok [] (fun t => (t.link i).st = .down ∧ (t.link i).replay = [] ∧ (t.link i).txSeq = 0 ∧
      (t.link i).rxSeq = 0 ∧ (∀ j, j ≠ i → (t.link j).st = (s.link j).st) ∧
      t.reg .vl i 0 = writtenWord (Blk.fields .vl 0) (s.reg .vl i 0) v ∧ (t.setRegs s.regs).setVeolo s.veolo = s) := by
  have hbit : (writtenWord (Blk.fields .vl 0) (s.reg .vl i 0) v).bit 31 = true :=
    (written_bit _ _ _ _ (by decide) (by decide) (by decide)).trans henable
  obtain ⟨hst, hreplay, htx, hrx, hothers, hframe⟩ :=
    linkDown_spec (s.putReg .vl i 0 (writtenWord (Blk.fields .vl 0) (s.reg .vl i 0) v)) i
  have hrun := regWriteOne_done hw ⟨hi, by decide, by decide, by decide, rfl, rfl⟩ (fun h => absurd h (by decide)) rfl
    (writeEffect_retrain s i _ _ v hbit hretrain) (congrArg (fun x : State => x.lesar.goDone) hframe :)
  exact ⟨_, hrun, hst, hreplay, htx, hrx, hothers,
    (congrArg (fun x : State => x.reg .vl i 0) hframe :).trans (State.reg_putReg_self s .vl i 0 _),
    (congrArg (fun x : State => x.setRegs s.regs) hframe :)⟩

/-! ## VL_DEV_NUM and VL_TOPO_CTL (R289, R300, R346) -/

/-- The parameter set that the controller writes for a register: VL_DEV_NUM.NEXT (kind 0) or VL_TOPO_CTL (kind 1). -/
def ParamSet.ofRegister (q : ParamSet) (kind n : Nat) : ParamSet :=
  if kind = 0 then { q with numValid := true, devNum := n % 4096 } else { q with topo := BitVec.ofNat 32 n }

/-- A register's value given to an idle controller begins an update of the parameter set. -/
theorem cfSubmit_register (s : State) (kind n : Nat) (hkind : kind < 2) (hn : n < 2 ^ 32) (hop : s.flash.op = none) (hqueue : s.flash.queue = [])
    (hsusp : s.flash.susp = none) :
    s.cfSubmit 0 none (beBytes 1 kind ++ beBytes 4 n) = s.beginParam none 0 (s.params.ofRegister kind n) := by
  have hidle : (s.cfWaits 0 (beBytes 1 kind ++ beBytes 4 n) || (!cfBeside 0 && !s.flash.queue.isEmpty)) = false := by
    simp only [State.cfWaits, hop, hqueue, List.isEmpty_nil, Bool.not_true, Bool.and_false, Bool.or_false]
  have hfirst : beAt (beBytes 1 kind ++ beBytes 4 n) 0 1 = kind :=
    (beAt_first _ _ _).trans (Nat.mod_eq_of_lt (by omega))
  have hlast : beAt (beBytes 1 kind ++ beBytes 4 n) 1 4 = n :=
    (beAt_last _ _ _ _ (beBytes_length _ _)).trans (Nat.mod_eq_of_lt hn)
  show (if _ then _ else State.cfRegisterRun s _) = _
  rw [hidle, if_neg (by decide)]
  simp only [State.cfRegisterRun, hsusp, Option.isSome_none, Bool.false_eq_true, if_false, hfirst, hlast]
  rfl

section Parameters
variable {s : State} {c : Ctx} {i : Instr} {off : Nat} {v w : Word} (hw : s.ownerWrites c)
include hw

/-- The frame of a write that begins an update of the parameter set waits for it. -/
theorem paramWrite_waits {new : ParamSet} (hi : exec i s = s.regWriteOne c .vlDev 0 off v) (hoff : off = 0 ∨ off = 4)
    (hword : w = writtenWord (Blk.fields .vlDev off) (s.regValue .vlDev 0 off) v) (hrange : s.outOfRange .vlDev 0 off w = none)
    (heffect : s.writeEffect .vlDev 0 off (s.reg .vlDev 0 off) w v = .waits ((s.putReg .vlDev 0 off w).beginParam none 0 new) 5 0) :
    completes i s (fun t => waitsFor s t c 5 0 ∧ t.reg .vlDev 0 off = w ∧
      t.flash.op = some (.erase (paramSector (1 - s.params.copy)) (.param none 0 { new with copy := 1 - s.params.copy, seq := s.params.seq + 1 })) ∧
      paramSector (1 - s.params.copy) ∈ t.flash.half ∧ t.mem = { s.mem with flash := t.mem.flash } ∧
      (((t.setRegs s.regs).setLesar s.lesar).setFlash s.flash).setMem s.mem = s) := by
  have hplace : off < (Blk.place .vlDev).2.1 ∧ off % 4 = 0 ∧ Blk.fields .vlDev off ≠ [] := by
    rcases hoff with rfl | rfl <;> decide
  have hentry : s.writeEntry c (Blk.vlDev.at 0 off) v = .waits ((s.putReg .vlDev 0 off w).beginParam none 0 new) 5 0 := by
    rw [writeEntry_owner s c .vlDev 0 off v hw.1 (by decide) hplace.1 hplace.2.1 (fun h => absurd h (by decide)) hplace.2.2 rfl]
    subst hword
    simp only [beq_self_eq_true, if_true, hrange, heffect]
  obtain ⟨hop, hhalf, hframe, hmem⟩ := beginParam_spec (s.putReg .vlDev 0 off w) none 0 new
  have hrun := go_waits s _ c .vlDev 0 off 5 0 v hw (by decide) hplace.1 hentry (congrArg State.lesar hframe :)
  exact ⟨_, hi.trans hrun, rfl, (congrArg (fun x : State => x.reg .vlDev 0 off) hframe :).trans (State.reg_putReg_self s .vlDev 0 off w),
    hop, hhalf, hmem, (congrArg (fun x : State => (x.setRegs s.regs).setLesar s.lesar) hframe :)⟩

variable (hop : s.flash.op = none) (hqueue : s.flash.queue = []) (hsusp : s.flash.susp = none)
include hop hqueue hsusp

theorem vlRegister_updates {new : ParamSet} (hword : w = writtenWord (Blk.fields .vlDev off) (s.regValue .vlDev 0 off) v)
    (hrange : s.outOfRange .vlDev 0 off w = none)
    (hi : (i = .vlDevNumWrite c v ∧ off = 0 ∧ v.bit 15 = true ∧ new = { s.params with numValid := true, devNum := v.field 11 0 }) ∨
      (i = .vlTopoCtlWrite c v ∧ off = 4 ∧ new = { s.params with topo := w })) :
    completes i s (fun t => waitsFor s t c 5 0 ∧ t.reg .vlDev 0 off = w ∧
      t.flash.op = some (.erase (paramSector (1 - s.params.copy)) (.param none 0 { new with copy := 1 - s.params.copy, seq := s.params.seq + 1 })) ∧
      paramSector (1 - s.params.copy) ∈ t.flash.half ∧ t.mem = { s.mem with flash := t.mem.flash } ∧
      (((t.setRegs s.regs).setLesar s.lesar).setFlash s.flash).setMem s.mem = s) := by
  have hsubmit (kind n : Nat) (hkind : kind < 2) (hn : n < 2 ^ 32) :=
    cfSubmit_register (s.putReg .vlDev 0 off w) kind n hkind hn hop hqueue hsusp
  rcases hi with ⟨rfl, rfl, hnext, rfl⟩ | ⟨rfl, rfl, rfl⟩
  · have hbit : w.bit 15 = true := (hword ▸ written_bit _ _ _ _ (by decide) (by decide) (by decide) : w.bit 15 = v.bit 15).trans hnext
    have hfield : w.field 11 0 = v.field 11 0 := hword ▸ written_field _ _ _ _ _ (by decide) (by decide) (by decide)
    have hsmall : w.field 11 0 < 4096 := field_lt w 11 0
    refine paramWrite_waits hw rfl (.inl rfl) hword hrange ?_
    simp only [State.writeEffect, hbit, if_true]
    rw [hsubmit 0 _ (by decide) (by omega), ParamSet.ofRegister, if_pos rfl, Nat.mod_eq_of_lt hsmall, hfield]
    rfl
  · refine paramWrite_waits hw rfl (.inr rfl) hword hrange ?_
    simp only [State.writeEffect]
    rw [hsubmit 1 _ (by decide) w.isLt, ParamSet.ofRegister, if_neg (by decide), BitVec.ofNat_toNat, BitVec.setWidth_eq]
    rfl

end Parameters

/-! ## TIER_LOAN_CTL (R265, R269) -/

/-- A partition that asks for a loan over a link. -/
def Part.asksLoan (pt : Part) (link n : Nat) : Part := { pt with loanAsk := pt.loanAsk ++ [(link, n)] }

/-- A partition whose active loans over a link are under return. -/
def Part.returnsLoans (pt : Part) (link : Nat) : Part :=
  { pt with loans := pt.loans.map (fun l =>
      if l.link == link && l.active then { l with notice := true, returning := true, copies := [] } else l) }

section LoanControl
variable {s : State} {c : Ctx} {p : Nat} {v : Word} {pt : Part} (hw : s.ownerWrites c) (hp : p < 128) (hpt : s.part p = some pt)
  (hres : pt.resetting = none)
include hw hp hpt hres

/-- A GO asks the neighbour for the extents, and its frame waits for the answer. -/
theorem loanRequest_asks (hgo : v.bit 31 = true) (hrel : v.bit 30 = false) (h1 : 1 ≤ v.field 6 0) (h64 : v.field 6 0 ≤ 64)
    (hnbr : s.linkNeighbour (v.field 10 8) = true) (hg7 : (s.link (v.field 10 8)).g7 = true) (hheld : s.loansHeld < 16) :
    completes (.loanRequest c p v) s (fun t => waitsFor s t c (askCode (v.field 10 8) (v.field 6 0)) p ∧
      t.part p = some { pt with loanAsk := pt.loanAsk ++ [(v.field 10 8, v.field 6 0)] } ∧ (∀ q, q ≠ p → t.part q = s.part q) ∧
      t.veolo = (s.sendMessage (v.field 10 8 / 2) .lent p (beBytes 1 0x40 ++ beBytes 1 p ++ beBytes 1 (v.field 10 8) ++ beBytes 1 (v.field 6 0))).veolo ∧
      (((t.setRegs s.regs).setLesar s.lesar).setParts s.parts).setVeolo s.veolo = s) := by
  obtain ⟨w, hlink, hcount, hentry⟩ := tierEntry s c p v pt hw hp hpt hres (by rw [hgo]; rfl)
  generalize hL : v.field 10 8 = link at *
  generalize hN : v.field 6 0 = n at *
  generalize hmsg : beBytes 1 0x40 ++ beBytes 1 p ++ beBytes 1 link ++ beBytes 1 n = msg
  have hstart : (s.putReg .tier p 0x24 w).startLoan p w true false =
      .waits (((s.putReg .tier p 0x24 w).sendMessage (link / 2) .lent p msg).modPart p (fun v => v.asksLoan link n))
        (askCode link n) p := by
    have hsize : (decide (n = 0) || decide (64 < n)) = false := by
      rw [decide_eq_false (by omega), decide_eq_false (by omega)]; rfl
    have hreach : (!(s.putReg .tier p 0x24 w).linkNeighbour link || !((s.putReg .tier p 0x24 w).link link).g7) = false := by
      show (!s.linkNeighbour link || !(s.link link).g7) = false
      rw [hnbr, hg7]; rfl
    have hroom : ¬ 16 ≤ (s.putReg .tier p 0x24 w).loansHeld := Nat.not_le.mpr hheld
    simp only [State.startLoan, show (s.putReg .tier p 0x24 w).part p = some pt from hpt, hlink, hcount, hsize, hreach, hroom, ← hmsg,
      Bool.and_false, Bool.false_eq_true, if_false, if_true]
    rfl
  rw [hgo, hrel, hstart] at hentry
  have hframe := sendMessage_frame s (link / 2) .lent p msg
  have hsend : (s.putReg .tier p 0x24 w).sendMessage (link / 2) .lent p msg = (s.sendMessage (link / 2) .lent p msg).setRegs (s.putReg .tier p 0x24 w).regs :=
    sendMessage_setRegs s _ _ _ _ _
  rw [hsend] at hentry
  generalize s.sendMessage (link / 2) .lent p msg = u at hframe hentry ⊢
  have hrun := go_waits s _ c .tier p 0x24 (askCode link n) p v hw hp (by decide) hentry (congrArg State.lesar hframe :)
  have hparts (q : Nat) : u.part q = s.part q := (congrArg (fun x : State => x.part q) hframe :)
  exact ⟨_, hrun, rfl, part_of_modPart (fun v => v.asksLoan link n) ((hparts p).trans hpt),
    fun q hq => (State.part_modPart_ne u (fun v => v.asksLoan link n) hq).trans (hparts q), rfl,
    (congrArg (fun x : State => ((x.setRegs s.regs).setLesar s.lesar).setParts s.parts) hframe :)⟩

/-- A RELEASE puts the active loans over the link under return, and its frame waits until they have ended. -/
theorem loanRelease_returns (hgo : v.bit 31 = false) (hrel : v.bit 30 = true)
    (hactive : pt.loans.any (fun l => l.link == v.field 10 8 && l.active) = true) :
    completes (.loanRelease c p v) s (fun t => waitsFor s t c (releaseCode (v.field 10 8)) p ∧
      t.part p = some { pt with loans := pt.loans.map (fun l =>
        if l.link == v.field 10 8 && l.active then { l with notice := true, returning := true, copies := [] } else l) } ∧
      (∀ q, q ≠ p → t.part q = s.part q) ∧ ((t.setRegs s.regs).setLesar s.lesar).setParts s.parts = s) := by
  obtain ⟨w, hlink, -, hentry⟩ := tierEntry s c p v pt hw hp hpt hres (by rw [hrel, Bool.or_true])
  have hstart : (s.putReg .tier p 0x24 w).startLoan p w false true =
      .waits ((s.putReg .tier p 0x24 w).modPart p (fun pt => pt.returnsLoans (v.field 10 8))) (releaseCode (v.field 10 8)) p := by
    simp only [State.startLoan, show (s.putReg .tier p 0x24 w).part p = some pt from hpt, hlink, hactive, Bool.false_and, Bool.not_true,
      Bool.false_eq_true, if_false]
    rfl
  rw [hgo, hrel, hstart] at hentry
  have hpart : ((s.putReg .tier p 0x24 w).modPart p (fun pt => pt.returnsLoans (v.field 10 8))).part p = some (pt.returnsLoans (v.field 10 8)) :=
    part_of_modPart _ hpt
  obtain ⟨hframe, hothers⟩ := onlyPart_modPart (s.putReg .tier p 0x24 w) p (fun pt => pt.returnsLoans (v.field 10 8))
  generalize (s.putReg .tier p 0x24 w).modPart p (fun pt => pt.returnsLoans (v.field 10 8)) = u at hentry hpart hframe hothers
  have hrun := go_waits s _ c .tier p 0x24 (releaseCode (v.field 10 8)) p v hw hp (by decide) hentry (congrArg State.lesar hframe :)
  exact ⟨_, hrun, rfl, hpart, hothers, (congrArg (fun x : State => (x.setRegs s.regs).setLesar s.lesar) hframe :)⟩

/-- A write with both GO and RELEASE is refused. -/
theorem loanRequest_badFrame (hgo : v.bit 31 = true) (hrel : v.bit 30 = true) :
    answered (.loanRequest c p v) s c 0x0607 .badFrame (beBytes 4 0) (fun t => t = s) := by
  obtain ⟨w, -, -, hentry⟩ := tierEntry s c p v pt hw hp hpt hres (by rw [hgo]; rfl)
  simp only [hgo, hrel, State.startLoan, show (s.putReg .tier p 0x24 w).part p = some pt from hpt, Bool.and_self, if_true] at hentry
  exact ⟨s, regWriteOne_refused hw ⟨hp, by decide, by decide, by decide, rfl, rfl⟩ hentry, rfl⟩

end LoanControl

/-- Settles O28, write by write: `linkDown_spec` for RETRAIN, `cfSubmit_register` for the two registers of the parameter set, and the three ways that
a write of TIER_LOAN_CTL goes. -/
theorem linkRegistersAndLoans : Obligations.LinkRegistersAndLoans := by
  refine ⟨retrain_answers, fun s c i off v new hw hop hqueue hsusp => ?parameters,
    fun s c p v pt hw hp hpt hres hgo hrel => loanRequest_asks hw hp hpt hres hgo hrel,
    fun s c p v pt hw hp hpt hres => loanRelease_returns hw hp hpt hres,
    fun s c p v pt hw hp hpt hres => loanRequest_badFrame hw hp hpt hres⟩
  case parameters =>
    intro w hrange hi
    exact vlRegister_updates hw hop hqueue hsusp rfl hrange hi

end Sys2Proof.Machine
end

section
/-!
PROOFS. The LPDDR5X: its patrol scrubber, its bursts, refresh, calibration and failed channels (the first part of O39).
-/
namespace Sys2Proof.Machine

open Sys2Proof

/-! ## The patrol scrubber (R252, R253) -/

/-- The state with the error of a data burst counted and recorded. -/
def State.burstCounted (s : State) (ue : Bool) (d : Nat) : State := (s.bump .dr 0 (if ue then 0x14 else 0x10) 1).recordBurst ue (64 * d)

theorem burstCounted_frame (s : State) (ue : Bool) (d : Nat) : (s.burstCounted ue d).setRegs s.regs = s :=
  (congrArg (fun x : State => x.setRegs s.regs) (recordBurst_frame (s.bump .dr 0 (if ue then 0x14 else 0x10) 1) ue (64 * d)) :)

/-- The counter of the error's kind counts it, the other one stands. -/
theorem burstCounted_counts (s : State) (ue : Bool) (d : Nat) :
    ((s.burstCounted ue d).reg .dr 0 (if ue then 0x14 else 0x10)).toNat = min 0xFFFFFFFF ((s.reg .dr 0 (if ue then 0x14 else 0x10)).toNat + 1) ∧
    (s.burstCounted ue d).reg .dr 0 (if ue then 0x10 else 0x14) = s.reg .dr 0 (if ue then 0x10 else 0x14) := by
  constructor
  · rw [State.burstCounted, recordBurst_ne _ _ _ _ (by cases ue <;> decide) (by cases ue <;> decide), State.reg_bump_self]
  · rw [State.burstCounted, recordBurst_ne _ _ _ _ (by cases ue <;> decide) (by cases ue <;> decide),
      reg_bump_ne _ _ _ _ (by cases ue <;> decide)]

/-- The error is recorded unless a correctable one would take the place of an uncorrectable one. -/
theorem burstCounted_records (s : State) (ue : Bool) (d : Nat)
    (h : (s.reg .dr 0 0x18).bit 31 = false ∨ (s.reg .dr 0 0x18).bit 30 = false ∨ ue = true) :
    (s.burstCounted ue d).reg .dr 0 0x18 =
      BitVec.ofNat 32 (2 ^ 31 + (if ue then 2 ^ 30 else 0) + dramChannel (64 * d) * 2 ^ 10 + dramColumn (64 * d)) ∧
    (s.burstCounted ue d).reg .dr 0 0x1C = BitVec.ofNat 32 (dramRow (64 * d)) := by
  refine recordBurst_put _ ue _ ?_
  rwa [reg_bump_ne _ _ _ _ (by cases ue <;> decide)]

section Scrub
variable {s : State} {b d : Nat} (hfailed : s.dram.failed = []) (hsorted : NMap.sorted s.dram.bad = true)
include hfailed hsorted

theorem burstFind_sound (hsound : NMap.find s.dram.bad d = none) : (s.burstFind (64 * d) 64).1 = s := by
  simp only [State.burstFind, burst_one s d hsorted, hsound, Option.map_none, Option.toList_none, List.foldl_nil, hfailed, List.isEmpty_nil,
    if_true]

/-- A correctable error that is found is written back, an uncorrectable one stays. -/
theorem burstFind_held {ue : Bool} (hheld : NMap.find s.dram.bad d = some ue) :
    (s.burstFind (64 * d) 64).1 =
      (s.burstCounted ue d).setDram { s.dram with bad := if ue then s.dram.bad else NMap.erase s.dram.bad d } := by
  have hdram : (s.burstCounted ue d).dram = s.dram := (congrArg State.dram (burstCounted_frame s ue d) :)
  have hworks : s.dram.failed.isEmpty = true := by rw [hfailed]; rfl
  simp only [State.burstFind, burst_one s d hsorted, hheld, Option.map_some, Option.toList_some, List.foldl_cons, List.foldl_nil, hworks,
    if_true]
  show (if ue then s.burstCounted ue d
    else (s.burstCounted ue d).setDram { (s.burstCounted ue d).dram with bad := NMap.erase (s.burstCounted ue d).dram.bad d }) = _
  rw [hdram]
  cases ue with
  | false => rfl
  | true => exact congrArg (s.burstCounted true d).setDram hdram

variable (hb : b < 2 ^ 32) (haddr : 64 * d = burstAddr (b / 2 ^ 26) (b / 32 % 2 ^ 21) (b % 32))
include hb haddr

theorem exec_dramPatrolScrub_sound (h : b % 32 = 31 ∨ NMap.find s.dram.bad d = none) : exec (.dramPatrolScrub b []) s = .next s := by
  show execDramPatrolScrub b [] s = _
  simp only [execDramPatrolScrub, require, decide_eq_true hb, if_true, State.strike_nil, ← haddr]
  rcases h with hcode | hsound
  · rw [if_pos hcode]
  · rw [burstFind_sound hfailed hsorted hsound, ite_self]

theorem dramPatrolScrub_held {ue : Bool} (hdata : b % 32 ≠ 31) (hheld : NMap.find s.dram.bad d = some ue) :
    completes (.dramPatrolScrub b []) s (fun t =>
      t.dram = { s.dram with bad := if ue then s.dram.bad else NMap.erase s.dram.bad d } ∧ (t.setDram s.dram).setRegs s.regs = s ∧
      (t.reg .dr 0 (if ue then 0x14 else 0x10)).toNat = min 0xFFFFFFFF ((s.reg .dr 0 (if ue then 0x14 else 0x10)).toNat + 1) ∧
      t.reg .dr 0 (if ue then 0x10 else 0x14) = s.reg .dr 0 (if ue then 0x10 else 0x14) ∧
      ((s.reg .dr 0 0x18).bit 31 = false ∨ (s.reg .dr 0 0x18).bit 30 = false ∨ ue = true →
        t.reg .dr 0 0x18 = BitVec.ofNat 32 (2 ^ 31 + (if ue then 2 ^ 30 else 0) + dramChannel (64 * d) * 2 ^ 10 + dramColumn (64 * d)) ∧
        t.reg .dr 0 0x1C = BitVec.ofNat 32 (dramRow (64 * d)))) := by
  have hexec : exec (.dramPatrolScrub b []) s =
      .next ((s.burstCounted ue d).setDram { s.dram with bad := if ue then s.dram.bad else NMap.erase s.dram.bad d }) := by
    show execDramPatrolScrub b [] s = _
    simp only [execDramPatrolScrub, require, decide_eq_true hb, if_true, State.strike_nil, ← haddr, if_neg hdata]
    rw [burstFind_held hfailed hsorted hheld]
  exact ⟨_, hexec, rfl, (congrArg (fun x : State => x.setDram s.dram) (burstCounted_frame s ue d) :), (burstCounted_counts s ue d).1,
    (burstCounted_counts s ue d).2, burstCounted_records s ue d⟩

end Scrub

/-! ## The bursts of a channel (R250) -/

/-- What the higher bits of a granule number, those of its group of 64, add to its channel. -/
def channelMix (k : Nat) : Nat := (k ^^^ (k / 2 ^ 6) ^^^ (k / 2 ^ 12) ^^^ (k / 2 ^ 18) ^^^ (k / 2 ^ 24)) % 64

theorem channelMix_lt (k : Nat) : channelMix k < 64 := Nat.mod_lt _ (by decide)

theorem dramChannel_granule (k c x : Nat) (hc : c < 64) (hx : x < 512) : dramChannel (512 * (64 * k + c) + x) = c ^^^ channelMix k := by
  have hg : (512 * (64 * k + c) + x) / 512 = 64 * k + c := by omega
  have hshift (n : Nat) : (64 * k + c) / 2 ^ (6 + n) = k / 2 ^ n := by
    rw [Nat.pow_add, ← Nat.div_div_eq_div_mul]
    congr 1; omega
  have h6 := hshift 0
  have h12 := hshift 6
  have h18 := hshift 12
  have h24 := hshift 18
  have h30 := hshift 24
  have hlow : (64 * k + c) % 2 ^ 6 = c := by omega
  simp only [Nat.add_zero, Nat.pow_zero, Nat.div_one] at h6
  simp only [dramChannel, hg, h6, h12, h18, h24, h30, Nat.xor_assoc]
  refine (Nat.xor_mod_two_pow (n := 6)).trans ?_
  rw [hlow, channelMix]
  simp only [Nat.xor_assoc]

/-- A search that keeps the last match finds the one there is. -/
theorem foldl_onlyMatch (P : Nat → Prop) [DecidablePred P] (x : Nat) : ∀ (l : List Nat) (b : Nat), x ∈ l ∨ b = x → (∀ c ∈ l, P c ↔ c = x) →
    l.foldl (fun b c => if P c then c else b) b = x
  | [], b, h, _ => h.resolve_left List.not_mem_nil
  | a :: l, b, h, hP => by
    refine foldl_onlyMatch P x l _ ?_ (fun c hc => hP c (List.mem_cons_of_mem _ hc))
    by_cases ha : a = x
    · exact .inr ((if_pos ((hP a List.mem_cons_self).mpr ha)).trans ha)
    · refine Or.imp_right (if_neg (fun h' => ha ((hP a List.mem_cons_self).mp h'))).trans ?_
      exact h.imp_left (fun hm => (List.mem_cons.mp hm).resolve_left (Ne.symm ha))

/-- One granule of each group of 64 lies on a channel. -/
theorem granuleOn_eq (k ch : Nat) (hch : ch < 64) : granuleOn k ch = 64 * k + (ch ^^^ channelMix k) := by
  have hlt : ch ^^^ channelMix k < 64 := Nat.xor_lt_two_pow (n := 6) hch (channelMix_lt k)
  rw [granuleOn, foldl_onlyMatch _ (ch ^^^ channelMix k) _ _ (.inl (List.mem_range.mpr hlt)) (fun c hc => ?_)]
  have hchannel := dramChannel_granule k c 0 (List.mem_range.mp hc) (by decide)
  rw [Nat.add_zero] at hchannel
  rw [hchannel]
  constructor
  · rintro rfl
    rw [Nat.xor_xor_cancel_right]
  · rintro rfl
    rw [Nat.xor_xor_cancel_right]

/-- The address of a data burst stands for its channel, its row and its column. -/
theorem burstAddr_place (ch row col : Nat) (hch : ch < 64) (hcol : col < 31) :
    burstAddr ch row col % 64 = 0 ∧ dramChannel (burstAddr ch row col) = ch ∧ dramRow (burstAddr ch row col) = row ∧
      dramColumn (burstAddr ch row col) = col := by
  generalize hn : row * 31 + col = n
  generalize hm : ch ^^^ channelMix (n / 8) = m
  have hlt : m < 64 := hm ▸ Nat.xor_lt_two_pow (n := 6) hch (channelMix_lt _)
  have haddr : burstAddr ch row col = 512 * (64 * (n / 8) + m) + 64 * (n % 8) := by
    simp only [burstAddr, granuleOn_eq _ _ hch, hn, hm]
  have hno : dramBurstNo (burstAddr ch row col) = n := by
    rw [haddr, dramBurstNo]; omega
  refine ⟨by omega, ?_, ?_, ?_⟩
  · rw [haddr, dramChannel_granule _ _ _ hlt (by omega), ← hm, Nat.xor_xor_cancel_right]
  · rw [dramRow, hno]; omega
  · rw [dramColumn, hno]; omega

/-! ## Refresh (R254, R255) -/

theorem refreshRate_quadrupled (t : Nat) : refreshRate t = 2 ↔ 105 < t := by
  unfold refreshRate
  split
  · omega
  · split <;> omega

/-- A package enters the quadrupled rate. -/
def State.quadruples (s : State) (hottest : List Nat) (k : Nat) : Bool := decide (105 < hottest.getD k 0) && s.dram.rates.getD k 0 != 2

section Rates
variable {s : State} {hottest : List Nat} (hlen : hottest.length = 8)
include hlen

/-- Every package takes its rate, and each that enters the quadrupled one has an event. -/
theorem exec_refreshRatePoll : exec (.refreshRatePoll hottest) s =
    .next (((List.range 8).filter (s.quadruples hottest)).foldl (fun s k => s.devEvent .ok 0 0 k)
      (s.setDram { s.dram with rates := hottest.map refreshRate })) := by
  show execRefreshRatePoll hottest s = _
  simp only [execRefreshRatePoll, require, decide_eq_true hlen, if_true, List.foldl_filter, State.quadruples, refreshRate_quadrupled]
  rfl

theorem refreshRatePoll_sets :
    completes (.refreshRatePoll hottest) s (fun t => t.dram = { s.dram with rates := hottest.map refreshRate } ∧ t.parts = s.parts ∧
      t.mem = s.mem ∧ t.tiles = s.tiles) := by
  have honly (u : State) := foldl_inv (fun x : State => repliesOnly u x) (fun s k => s.devEvent .ok 0 0 k)
    (fun x k h => repliesOnly_trans h (devEvent_only x .ok 0 0 k)) ((List.range 8).filter (s.quadruples hottest)) u (repliesOnly_refl u)
  have hrates := honly (s.setDram { s.dram with rates := hottest.map refreshRate })
  exact ⟨_, exec_refreshRatePoll hlen, repliesOnly_field State.dram (fun _ _ => rfl) hrates,
    (repliesOnly_field State.parts (fun _ _ => rfl) hrates :), (repliesOnly_field State.mem (fun _ _ => rfl) hrates :),
    (repliesOnly_field State.tiles (fun _ _ => rfl) hrates :)⟩

theorem exec_refreshRatePoll_quiet (h : ∀ k, k < 8 → 105 < hottest.getD k 0 → s.dram.rates.getD k 0 = 2) :
    exec (.refreshRatePoll hottest) s = .next (s.setDram { s.dram with rates := hottest.map refreshRate }) := by
  have hnone : (List.range 8).filter (s.quadruples hottest) = [] := by
    refine List.filter_eq_nil_iff.mpr (fun k hk => ?_)
    rw [State.quadruples, Bool.and_eq_true, decide_eq_true_eq, bne_iff_ne]
    exact fun ⟨hhot, hold⟩ => hold (h k (List.mem_range.mp hk) hhot)
  rw [exec_refreshRatePoll hlen, hnone]
  rfl

theorem exec_refreshRatePoll_one {k : Nat} (hk : k < 8) (hhot : 105 < hottest.getD k 0) (hold : s.dram.rates.getD k 0 ≠ 2)
    (h : ∀ j, j < 8 → j ≠ k → 105 < hottest.getD j 0 → s.dram.rates.getD j 0 = 2) :
    exec (.refreshRatePoll hottest) s = .next ((s.setDram { s.dram with rates := hottest.map refreshRate }).devEvent .ok 0 0 k) := by
  have hone : (List.range 8).filter (s.quadruples hottest) = [k] := by
    have hcongr : (List.range 8).filter (s.quadruples hottest) = (List.range 8).filter (· == k) := by
      refine List.filter_congr (fun j hj => ?_)
      rw [Bool.eq_iff_iff, State.quadruples, Bool.and_eq_true, decide_eq_true_eq, bne_iff_ne, beq_iff_eq]
      exact ⟨fun ⟨hhot', hold'⟩ => by_contra fun hne => hold' (h j (List.mem_range.mp hj) hne hhot'), fun he => he ▸ ⟨hhot, hold⟩⟩
    rw [hcongr, List.filter_beq, List.count_eq_one_of_mem List.nodup_range (List.mem_range.mpr hk)]
    rfl
  rw [exec_refreshRatePoll hlen, hone]
  rfl

end Rates

/-- The throttlings after a window of the banks that `mine` names: theirs have one window less, and those with none left have ended. -/
theorem mem_throttled_next (l : List (Nat × Nat × Nat)) (mine : Nat → Bool) (port bank left : Nat) :
    (port, bank, left) ∈ (l.map (fun e => if mine e.2.1 then (e.1, e.2.1, e.2.2 - 1) else e)).filter (fun e => decide (0 < e.2.2)) ↔
      0 < left ∧ (port, bank, if mine bank then left + 1 else left) ∈ l := by
  rw [List.mem_filter, decide_eq_true_eq, and_comm, List.mem_map]
  refine and_congr_right (fun hleft => ⟨?_, fun h => ?_⟩)
  · rintro ⟨⟨port', bank', left'⟩, hmem, he⟩
    by_cases hm : mine bank'
    · simp only [hm, if_true, Prod.mk.injEq] at he
      obtain ⟨rfl, rfl, rfl⟩ := he
      rwa [if_pos hm, Nat.sub_add_cancel (Nat.one_le_of_lt (Nat.lt_of_sub_pos hleft))]
    · simp only [hm, Bool.false_eq_true, if_false, Prod.mk.injEq] at he
      obtain ⟨rfl, rfl, rfl⟩ := he
      rwa [if_neg hm]
  · refine ⟨_, h, ?_⟩
    by_cases hm : mine bank
    · simp only [hm, if_true, Nat.add_sub_cancel]
    · simp only [hm, Bool.false_eq_true, if_false]

theorem refreshWindow_clears (s : State) (k : Nat) (hk : k < 8) :
    completes (.refreshWindow k) s (fun t => t.setDram s.dram = s ∧
      (∀ e, e ∈ t.dram.acts ↔ e ∈ s.dram.acts ∧ e.1 / 2 ^ 20 / 128 ≠ k) ∧
      (∀ e, e ∈ t.dram.lastPort ↔ e ∈ s.dram.lastPort ∧ e.1 / 2 ^ 20 / 128 ≠ k) ∧
      (∀ g, g ∈ t.dram.targeted ↔ g ∈ s.dram.targeted ∧ g / 2 ^ 20 / 128 ≠ k) ∧
      (∀ port bank left, (port, bank, left) ∈ t.dram.throttled ↔
        0 < left ∧ (port, bank, if bank / 128 = k then left + 1 else left) ∈ s.dram.throttled) ∧
      { t.dram with acts := s.dram.acts, lastPort := s.dram.lastPort, targeted := s.dram.targeted, throttled := s.dram.throttled } = s.dram) := by
  have hexec : exec (.refreshWindow k) s = .next _ := if_pos (decide_eq_true hk)
  have hother (n : Nat) : (!(n / 128 == k)) = true ↔ n / 128 ≠ k := bne_iff_ne
  refine ⟨_, hexec, rfl, fun e => ?_, fun e => ?_, fun g => ?_, fun port bank left => ?_, rfl⟩
  · exact List.mem_filter.trans (and_congr_right' (hother _))
  · exact List.mem_filter.trans (and_congr_right' (hother _))
  · exact List.mem_filter.trans (and_congr_right' (hother _))
  · refine (mem_throttled_next s.dram.throttled (fun n => n / 128 == k) port bank left).trans ?_
    simp only [beq_iff_eq]

/-! ## Calibration and failed channels (R257, R260) -/

/-- A list that takes one more channel, in order. -/
theorem mem_failed_next (ch k : Nat) (l : List Nat) : k ∈ (ch :: l).mergeSort ↔ k = ch ∨ k ∈ l := by
  rw [List.mem_mergeSort, List.mem_cons]

section Calibration
variable {s : State} {ch : Nat} (hch : ch < 64) (hworks : ch ∉ s.dram.failed)
include hch hworks

theorem exec_dramCalibration (good : Bool) : exec (.dramCalibration ch good) s =
    if good then .next (s.setDram { s.dram with calFails := NMap.erase s.dram.calFails ch })
    else if NMap.get 0 s.dram.calFails ch + 1 < 3 then
      .next (s.setDram { s.dram with calFails := NMap.insert s.dram.calFails ch (NMap.get 0 s.dram.calFails ch + 1) })
    else .next ((s.setDram { s.dram with calFails := NMap.erase s.dram.calFails ch, failed := (ch :: s.dram.failed).mergeSort }).sharedEvent
      s.dramParts .uncorrectable 0 0 ch) := by
  have hno : s.dram.failed.contains ch = false := by rwa [← Bool.not_eq_true, List.contains_iff_mem]
  show execDramCalibration ch good s = _
  simp only [execDramCalibration, require, decide_eq_true hch, hno, Bool.not_false, Bool.and_self, if_true]

/-- The third failure in a row marks the channel failed and tells every partition with an extent (R257). -/
theorem dramCalibration_fails (h : 2 ≤ NMap.get 0 s.dram.calFails ch) :
    completes (.dramCalibration ch false) s (fun t => ∃ d : Dram, t = (s.setDram d).sharedEvent s.dramParts .uncorrectable 0 0 ch ∧
      (∀ k, k ∈ d.failed ↔ k = ch ∨ k ∈ s.dram.failed) ∧
      { d with failed := s.dram.failed } = { s.dram with calFails := NMap.erase s.dram.calFails ch }) := by
  have hexec := exec_dramCalibration hch hworks false
  rw [if_neg (by decide), if_neg (by omega)] at hexec
  exact ⟨_, hexec, _, rfl, fun k => mem_failed_next ch k _, rfl⟩

end Calibration

theorem nandChannelFail_tells (s : State) (ch : Nat) (hch : ch < 16) (hworks : ch ∉ s.nand.failed) :
    completes (.nandChannelFail ch) s (fun t => ∃ f : List Nat,
      t = (s.setNand { s.nand with failed := f }).sharedEvent ((s.parts.filter (fun e => e.2.onNand)).map Prod.fst) .tierFailed 0 0 ch ∧
      ∀ k, k ∈ f ↔ k = ch ∨ k ∈ s.nand.failed) := by
  have hno : s.nand.failed.contains ch = false := by rwa [← Bool.not_eq_true, List.contains_iff_mem]
  refine ⟨_, if_pos ?_, _, rfl, fun k => mem_failed_next ch k _⟩
  rw [decide_eq_true hch, hno]; rfl

end Sys2Proof.Machine
end

section
/-!
PROOFS. The NAND tier: blocks that are renewed, and what its housekeeping does (the second part of O39).
-/
namespace Sys2Proof.Machine

open Sys2Proof

/-! ## Map units placed (R259) -/

theorem placeUnit_frame (v : Nand) (key plane : Nat) : ({ v.placeUnit key plane with map := v.map, fill := v.fill } : Nand) = v := by
  unfold Nand.placeUnit
  split <;> rfl

theorem placeUnit_map_ne (v : Nand) {key k : Nat} (plane : Nat) (h : k ≠ key) : NMap.find (v.placeUnit key plane).map k = NMap.find v.map k := by
  unfold Nand.placeUnit
  split
  · exact NMap.find_insert_ne _ _ h
  · rfl

/-- Map units placed one after the other change the map at their own keys, and the fill of blocks, and nothing else. -/
theorem placeUnits_spec (plane : Nat) (ks : List Nat) (v : Nand) :
    ({ ks.foldl (fun w k => w.placeUnit k plane) v with map := v.map, fill := v.fill } : Nand) = v ∧
      ∀ k, k ∉ ks → NMap.find (ks.foldl (fun w k => w.placeUnit k plane) v).map k = NMap.find v.map k := by
  induction ks generalizing v with
  | nil => exact ⟨rfl, fun _ _ => rfl⟩
  | cons key ks ih =>
    obtain ⟨hframe, hmap⟩ := ih (v.placeUnit key plane)
    rw [List.foldl_cons]
    generalize ks.foldl (fun w k => w.placeUnit k plane) (v.placeUnit key plane) = w at hframe hmap ⊢
    constructor
    · exact (congrArg (fun w : Nand => { w with map := v.map, fill := v.fill }) hframe :).trans (placeUnit_frame v key plane)
    · intro k hk
      rw [List.mem_cons, not_or] at hk
      exact (hmap k hk.2).trans (placeUnit_map_ne v plane hk.1)

/-! ## Blocks renewed (R259, R261) -/

/-- The tier once a block's valid map units are copied within its plane, none of them onto the block itself. -/
def Nand.copyOut (v : Nand) (b : Nat) : Nand :=
  (v.valid b).foldl (fun w k => w.placeUnit k (b % 256)) { v with fill := NMap.insert v.fill b blockPages }

theorem eraseBlock_eq (s : State) (b : Nat) : s.eraseBlock b = s.setNand (
    let w := s.nand.copyOut b
    { w with reads := NMap.erase w.reads b, weak := w.weak.filter (· != b), erases := NMap.insert w.erases b (NMap.get 0 w.erases b + 1),
             fill := NMap.erase w.fill b, dies := NMap.insert w.dies (blockDie b) 0, written := w.written + 16384 * (s.nand.valid b).length }) := rfl

/-- A block whose units are copied and that is erased is renewed. -/
theorem eraseBlock_renewed (s : State) (b : Nat) :
    s.nand.renewed (s.eraseBlock b).nand b ∧ (s.eraseBlock b).nand.dies = NMap.insert s.nand.dies (blockDie b) 0 := by
  obtain ⟨hframe, hmap⟩ : ({ s.nand.copyOut b with map := s.nand.map, fill := NMap.insert s.nand.fill b blockPages } : Nand) =
      { s.nand with fill := NMap.insert s.nand.fill b blockPages } ∧
      ∀ k, k ∉ s.nand.valid b → NMap.find (s.nand.copyOut b).map k = NMap.find s.nand.map k := placeUnits_spec _ _ _
  rw [eraseBlock_eq]
  unfold Nand.renewed
  generalize s.nand.copyOut b = w at hframe hmap ⊢
  have hreads : w.reads = s.nand.reads := (congrArg Nand.reads hframe :)
  have hweak : w.weak = s.nand.weak := (congrArg Nand.weak hframe :)
  have herases : w.erases = s.nand.erases := (congrArg Nand.erases hframe :)
  have hdies : w.dies = s.nand.dies := (congrArg Nand.dies hframe :)
  have hwritten : w.written = s.nand.written := (congrArg Nand.written hframe :)
  have hrest := congrArg (fun x : Nand => { x with
    reads := s.nand.reads, weak := s.nand.weak, erases := s.nand.erases, fill := s.nand.fill, dies := s.nand.dies, written := s.nand.written,
    freeTenths := s.nand.freeTenths, urgent := s.nand.urgent }) hframe
  simp only [State.setNand_nand, hreads, hweak, herases, hdies, hwritten]
  refine ⟨⟨NMap.find_erase_self _ _, ?_, ?_, NMap.find_erase_self _ _, NMap.find_insert_self _ _ _, trivial, hmap, fun c hc => ?_, hrest⟩, trivial⟩
  · simp
  · rw [NMap.get, NMap.find_insert_self]; rfl
  · exact ⟨NMap.find_erase_ne _ hc, NMap.find_insert_ne _ _ hc⟩

/-- A block has been erased: its reads are counted anew, and its die is busy. -/
def Nand.erased (v : Nand) (b : Nat) : Prop := NMap.find v.reads b = none ∧ NMap.find v.dies (blockDie b) = some 0

theorem eraseBlock_erased (s : State) (c b : Nat) (h : b = c ∨ s.nand.erased b) : (s.eraseBlock c).nand.erased b := by
  obtain ⟨⟨hreads, -, -, -, hdie, -, -, hother, -⟩, hdies⟩ := eraseBlock_renewed s c
  by_cases hbc : b = c
  · subst hbc; exact ⟨hreads, hdie⟩
  · obtain ⟨hread, hbusy⟩ := h.resolve_left hbc
    refine ⟨((hother b hbc).1).trans hread, ?_⟩
    by_cases hd : blockDie b = blockDie c
    · rw [hd]; exact hdie
    · rw [hdies, NMap.find_insert_ne _ _ hd]; exact hbusy

theorem eraseBlocks_erased (bs : List Nat) (s : State) (b : Nat) (h : b ∈ bs ∨ s.nand.erased b) : (bs.foldl State.eraseBlock s).nand.erased b := by
  induction bs generalizing s with
  | nil => exact h.resolve_left List.not_mem_nil
  | cons c bs ih =>
    rw [List.mem_cons] at h
    refine ih _ ?_
    rcases h with (rfl | hm) | he
    · exact .inr (eraseBlock_erased s b b (.inl rfl))
    · exact .inl hm
    · exact .inr (eraseBlock_erased s c b (.inr he))

/-- The state with blocks renewed, counted at a register of the tier, and the free blocks after it. -/
def State.renewAll (s : State) (bs : List Nat) (off : Nat) : State := ((bs.foldl State.eraseBlock s).bump .nt 0 off bs.length).freeBlocks

/-- Blocks renewed: what the tier's registers count, and that no other unit changes. -/
theorem renewAll_spec (s : State) (bs : List Nat) (off : Nat) :
    (s.renewAll bs off).nand.sparesOk ∧
      ((s.renewAll bs off).reg .nt 0 off).toNat = min 0xFFFFFFFF ((s.reg .nt 0 off).toNat + bs.length) ∧
      (∀ o, o ≠ off → (s.renewAll bs off).reg .nt 0 o = s.reg .nt 0 o) ∧
      (((s.renewAll bs off).setNand s.nand).setFree s.free).setRegs s.regs = s := by
  have hframe := foldl_inv (fun x : State => x.setNand s.nand = s) State.eraseBlock (fun _ _ h => h) bs s rfl
  unfold State.renewAll
  generalize bs.foldl State.eraseBlock s = u at hframe ⊢
  have hreg (o : Nat) : u.reg .nt 0 o = s.reg .nt 0 o := (congrArg (fun x : State => x.reg .nt 0 o) hframe :)
  obtain ⟨-, -, hspares⟩ := freeBlocks_spec (u.bump .nt 0 off bs.length)
  refine ⟨hspares, ?_, fun o ho => ?_, (congrArg (fun x : State => (x.setFree s.free).setRegs s.regs) hframe :)⟩
  · rw [← hreg]; exact State.reg_bump_self u .nt 0 off bs.length
  · exact (reg_bump_ne u .nt 0 bs.length ho).trans (hreg o)

theorem renewAll_renewed (s : State) (b off : Nat) : s.nand.renewed (s.renewAll [b] off).nand b := (eraseBlock_renewed s b).1

theorem blockOk_of_lt {b : Nat} (h : b < 211968) : blockOk b = true := decide_eq_true h

section Refresh
variable {s : State} {b : Nat} (hb : b < 211968) (hdie : s.dieFree (blockDie b) = true)
include hb hdie

/-- A block that read disturb threatens is renewed (R261). -/
theorem readDisturbRefresh_renews (hdue : (s.reg .nt 0 0).field 31 16 * 1000 ≤ NMap.get 0 s.nand.reads b ∨ b ∈ s.nand.weak) :
    completes (.readDisturbRefresh b) s (fun t => s.nand.renewed t.nand b ∧ t.nand.sparesOk ∧
      (t.reg .nt 0 0x18).toNat = min 0xFFFFFFFF ((s.reg .nt 0 0x18).toNat + 1) ∧ ((t.setNand s.nand).setFree s.free).setRegs s.regs = s) := by
  have hexec : exec (.readDisturbRefresh b) s = .next (s.renewAll [b] 0x18) := by
    refine if_pos ?_
    rw [blockOk_of_lt hb, hdie, Bool.and_self, Bool.true_and, Bool.or_eq_true, decide_eq_true_eq, List.contains_iff_mem]
    exact hdue
  obtain ⟨hspares, hcount, -, hframe⟩ := renewAll_spec s [b] 0x18
  exact ⟨_, hexec, renewAll_renewed s b 0x18, hspares, hcount, hframe⟩

variable {now : Nat} {retries : List Nat} (hnow : s.now ≤ now)
  (hdue : NMap.get 0 s.nand.lastRead b + (s.reg .nt 0 0).field 12 8 * 86400000000000 ≤ now)
include hnow hdue

/-- A block that is due is read at `now`, the retries counted; more than two for one codeword renew it. -/
theorem exec_retentionPatrol {u w : State}
    (hu : u = (s.setNow now).setNand { s.nand with lastRead := NMap.insert s.nand.lastRead b now })
    (hw : w = if retries.sum = 0 then u else u.bump .nt 0 0x10 retries.sum) :
    exec (.retentionPatrol b retries now) s = .next (if retries.any (fun n => decide (2 < n)) then w.renewAll [b] 0x18 else w) := by
  have hat : s.at now = s.setNow now := congrArg s.setNow (Nat.max_eq_right hnow)
  subst hw hu
  show execRetentionPatrol b retries now s = _
  simp only [execRetentionPatrol, require, blockOk_of_lt hb, hdie, hat, State.setNow_now, State.setNow_nand, decide_eq_true hdue, Bool.and_self,
    if_true]
  rfl

theorem exec_retentionPatrol_calm (hcalm : ∀ k ∈ retries, k ≤ 2) {u w : State}
    (hu : u = (s.setNow now).setNand { s.nand with lastRead := NMap.insert s.nand.lastRead b now })
    (hw : w = if retries.sum = 0 then u else u.bump .nt 0 0x10 retries.sum) : exec (.retentionPatrol b retries now) s = .next w := by
  have hany : retries.any (fun n => decide (2 < n)) = false :=
    List.any_eq_false.mpr (fun k hk => by rw [decide_eq_true_eq]; exact Nat.not_lt.mpr (hcalm k hk))
  rw [exec_retentionPatrol hb hdie hnow hdue hu hw, hany]
  rfl

theorem retentionPatrol_renews (hweak : ∃ k ∈ retries, 2 < k) :
    let u := (s.setNow now).setNand { s.nand with lastRead := NMap.insert s.nand.lastRead b now }
    completes (.retentionPatrol b retries now) s (fun t => u.nand.renewed t.nand b ∧ t.nand.sparesOk ∧
      (t.reg .nt 0 0x10).toNat = min 0xFFFFFFFF ((s.reg .nt 0 0x10).toNat + retries.sum) ∧
      (t.reg .nt 0 0x18).toNat = min 0xFFFFFFFF ((s.reg .nt 0 0x18).toNat + 1) ∧ ((t.setNand u.nand).setFree s.free).setRegs s.regs = u) := by
  intro u
  obtain ⟨k, hk, h2⟩ := hweak
  have hsum : retries.sum ≠ 0 := by
    have := List.le_sum_of_mem hk
    omega
  have hany : retries.any (fun n => decide (2 < n)) = true := List.any_eq_true.mpr ⟨k, hk, decide_eq_true h2⟩
  have hexec := exec_retentionPatrol hb hdie hnow hdue (retries := retries) (u := u) rfl rfl
  rw [hany, if_pos rfl, if_neg hsum] at hexec
  obtain ⟨hspares, hcount, hother, hframe⟩ := renewAll_spec (u.bump .nt 0 0x10 retries.sum) [b] 0x18
  have hrenewed : u.nand.renewed ((u.bump .nt 0 0x10 retries.sum).renewAll [b] 0x18).nand b := renewAll_renewed _ b 0x18
  generalize (u.bump .nt 0 0x10 retries.sum).renewAll [b] 0x18 = t at *
  refine ⟨_, hexec, hrenewed, hspares, ?_, ?_, (congrArg (fun x : State => x.setRegs u.regs) hframe :)⟩
  · rw [hother 0x10 (by decide)]; exact State.reg_bump_self u .nt 0 0x10 retries.sum
  · rw [hcount, reg_bump_ne u .nt 0 retries.sum (by decide)]; rfl

end Refresh

/-- Garbage collection renews the blocks with the fewest valid units while few blocks are free (R261). -/
theorem garbageCollection_renews (s : State) (bs : List Nat) (hfew : s.nand.freeTenths < 20) (hsome : bs ≠ [])
    (hblocks : ∀ b ∈ bs, b < 211968 ∧ s.dieFree (blockDie b) = true ∧
      ∀ e ∈ s.nand.fill, e.1 ∈ bs ∨ (s.nand.valid b).length ≤ (s.nand.valid e.1).length) :
    completes (.garbageCollection bs) s (fun t => (∀ b ∈ bs, NMap.find t.nand.reads b = none ∧ NMap.find t.nand.dies (blockDie b) = some 0) ∧
      (∀ b, bs = [b] → s.nand.renewed t.nand b) ∧ t.nand.sparesOk ∧
      (t.reg .nt 0 0x1C).toNat = min 0xFFFFFFFF ((s.reg .nt 0 0x1C).toNat + bs.length) ∧ ((t.setNand s.nand).setFree s.free).setRegs s.regs = s) := by
  have hall : bs.all (fun b => blockOk b && s.dieFree (blockDie b) &&
      s.nand.fill.all (fun e => bs.contains e.1 || decide ((s.nand.valid b).length ≤ (s.nand.valid e.1).length))) = true := by
    refine List.all_eq_true.mpr (fun b hb => ?_)
    obtain ⟨hlt, hdie, hfewest⟩ := hblocks b hb
    rw [blockOk_of_lt hlt, hdie, Bool.and_self, Bool.true_and, List.all_eq_true]
    intro e he
    rw [Bool.or_eq_true, List.contains_iff_mem, decide_eq_true_eq]
    exact hfewest e he
  have hexec : exec (.garbageCollection bs) s = .next (s.renewAll bs 0x1C) := by
    refine if_pos ?_
    rw [decide_eq_true hfew, List.isEmpty_eq_false_iff.mpr hsome, hall]; rfl
  obtain ⟨hspares, hcount, -, hframe⟩ := renewAll_spec s bs 0x1C
  exact ⟨_, hexec, fun b hb => eraseBlocks_erased bs s b (.inl hb), fun b he => he ▸ renewAll_renewed s b 0x1C, hspares, hcount, hframe⟩

/-! ## Wear levelling (R261) -/

/-- A map unit programmed onto the next page of a block. -/
def Nand.placeOn (block : Nat) (w : Nand) (k : Nat) : Nand :=
  { w with map := NMap.insert w.map k (block * blockPages + NMap.get 0 w.fill block), fill := NMap.insert w.fill block (NMap.get 0 w.fill block + 1) }

/-- The map units of the cold block of a block's plane (log entry 25). -/
def Nand.coldUnits (v : Nand) (block : Nat) : List Nat := ((v.coldBlock (block % 256)).map v.valid).getD []

theorem moveCold_eq (v : Nand) (block : Nat) : v.moveCold block = (v.coldUnits block).foldl (Nand.placeOn block) v := by
  unfold Nand.moveCold Nand.coldUnits
  cases v.coldBlock (block % 256) <;> rfl

theorem placedOn_frame (block : Nat) (ks : List Nat) (v : Nand) :
    ({ ks.foldl (Nand.placeOn block) v with map := v.map, fill := v.fill } : Nand) = v :=
  foldl_inv (fun w : Nand => { w with map := v.map, fill := v.fill } = v) (Nand.placeOn block) (fun _ _ h => h) ks v rfl

/-- Map units programmed onto a block from its page `n` on lie there page by page, the others where they lay. -/
theorem placedOn_spec (block : Nat) (ks : List Nat) (v : Nand) (n : Nat) (hfill : NMap.get 0 v.fill block = n) :
    NMap.get 0 (ks.foldl (Nand.placeOn block) v).fill block = n + ks.length ∧
      (∀ k, k ∉ ks → NMap.find (ks.foldl (Nand.placeOn block) v).map k = NMap.find v.map k) ∧
      ∀ k ∈ ks, ∃ i, i < n + ks.length ∧ NMap.find (ks.foldl (Nand.placeOn block) v).map k = some (block * blockPages + i) := by
  induction ks generalizing v n with
  | nil => exact ⟨hfill, fun _ _ => rfl, fun _ h => absurd h List.not_mem_nil⟩
  | cons key ks ih =>
    have hnext : NMap.get 0 (v.placeOn block key).fill block = n + 1 := by
      show (NMap.find (NMap.insert _ _ _) _).getD 0 = _
      rw [NMap.find_insert_self, hfill]; rfl
    obtain ⟨hcount, hkept, hplaced⟩ := ih (v.placeOn block key) (n + 1) hnext
    have hlen : n + (key :: ks).length = n + 1 + ks.length := by rw [List.length_cons]; omega
    rw [hlen]
    refine ⟨hcount, fun k hk => ?_, fun k hk => ?_⟩
    · rw [List.mem_cons, not_or] at hk
      exact (hkept k hk.2).trans (NMap.find_insert_ne _ _ hk.1)
    · by_cases hm : k ∈ ks
      · exact hplaced k hm
      · obtain rfl := (List.mem_cons.mp hk).resolve_right hm
        refine ⟨n, by omega, (hkept k hm).trans ?_⟩
        show NMap.find (NMap.insert _ _ _) _ = _
        rw [NMap.find_insert_self, hfill]

theorem wearLevelling_moves (s : State) (b : Nat) (hb : b < 211968) (hdie : s.dieFree (blockDie b) = true) (hfill : NMap.get 0 s.nand.fill b = 0)
    (hworn : 11 * s.nand.planeErases (b % 256) < 10 * 828 * NMap.get 0 s.nand.erases b) :
    let cold := s.nand.coldUnits b
    completes (.wearLevelling b) s (fun t => (∀ k, k ∉ cold → NMap.find t.nand.map k = NMap.find s.nand.map k) ∧
      (∀ k ∈ cold, ∃ i, i < cold.length ∧ NMap.find t.nand.map k = some (b * 1152 + i)) ∧ NMap.find t.nand.dies (blockDie b) = some 0 ∧
      t.nand.written = s.nand.written + 16384 * cold.length ∧ t.nand.sparesOk ∧
      { t.nand with map := s.nand.map, fill := s.nand.fill, dies := s.nand.dies, written := s.nand.written, freeTenths := s.nand.freeTenths,
                    urgent := s.nand.urgent } = s.nand ∧ (t.setNand s.nand).setFree s.free = s) := by
  intro cold
  obtain ⟨hcount, hkept, hplaced⟩ := placedOn_spec b cold s.nand 0 hfill
  have hframe := placedOn_frame b cold s.nand
  rw [Nat.zero_add] at hcount hplaced
  have hmove : s.nand.moveCold b = cold.foldl (Nand.placeOn b) s.nand := moveCold_eq s.nand b
  generalize cold.foldl (Nand.placeOn b) s.nand = w at hcount hkept hplaced hframe hmove
  have hexec : exec (.wearLevelling b) s =
      .next (s.setNand { w with dies := NMap.insert w.dies (blockDie b) 0, written := w.written + 16384 * NMap.get 0 w.fill b }).freeBlocks := by
    subst hmove
    refine if_pos ?_
    rw [blockOk_of_lt hb, hdie, decide_eq_true hfill, Bool.and_self, Bool.and_self, Bool.true_and]
    exact decide_eq_true hworn
  obtain ⟨hrest, -, hspares⟩ := freeBlocks_spec
    (s.setNand { w with dies := NMap.insert w.dies (blockDie b) 0, written := w.written + 16384 * NMap.get 0 w.fill b })
  refine ⟨_, hexec, hkept, hplaced, NMap.find_insert_self _ _ _, ?_, hspares, ?_, rfl⟩
  · show w.written + 16384 * NMap.get 0 w.fill b = _
    rw [hcount, (congrArg Nand.written hframe :)]
  · exact (congrArg (fun x : Nand => { x with
      dies := s.nand.dies, written := s.nand.written, freeTenths := s.nand.freeTenths, urgent := s.nand.urgent }) hframe :)

/-! ## The map, the dies and the pause area (R259, R261, R262) -/

/-- The map is saved, and what has been written since counts from 0. -/
theorem mapSave_saves (s : State) (h : 256000000 ≤ s.nand.written) : completes .mapSave s (fun t => (t.setNand s.nand).setFree s.free = s ∧
    t.nand = { s.nand with written := 0, saved := s.nand.map, freeTenths := t.nand.freeTenths, urgent := t.nand.urgent } ∧ t.nand.sparesOk) := by
  obtain ⟨-, hnand, hspares⟩ := freeBlocks_spec s.saveMap
  exact ⟨_, if_pos (decide_eq_true h), rfl, hnand, hspares⟩

theorem exec_nandOperationComplete (s : State) (d : Nat) (h : NMap.find s.nand.dies d ≠ none) : exec (.nandOperationComplete d) s =
    .next (s.setNand { s.nand with dies := NMap.erase s.nand.dies d, waiting := NMap.erase s.nand.waiting d }) :=
  if_pos (Option.isSome_iff_ne_none.mpr h)

theorem exec_pauseAreaResize (s : State) (n : Nat) (hwant : s.nand.pauseWant = some n) (hempty : s.nand.pauseUsed = 0) :
    exec .pauseAreaResize s = .next (s.setNand { s.nand with pauseSize := n, pauseWant := none }) := by
  show execPauseAreaResize s = _
  simp only [execPauseAreaResize, hwant, require, decide_eq_true hempty, if_true]

/-- Settles O39: the LPDDR5X by `burstFind_held`, `burstAddr_place`, `exec_refreshRatePoll` and `exec_dramCalibration`, the NAND tier by
`eraseBlock_renewed` and `renewAll_spec` for the blocks that are renewed and `placedOn_spec` for wear levelling. -/
theorem dramAndNandAreKept : Obligations.DramAndNandAreKept := by
  refine ⟨fun s b d hb hfailed hsorted haddr => ⟨exec_dramPatrolScrub_sound hfailed hsorted hb haddr,
      fun ue => dramPatrolScrub_held hfailed hsorted hb haddr⟩,
    burstAddr_place,
    fun s hottest hlen => ⟨refreshRatePoll_sets hlen, exec_refreshRatePoll_quiet hlen, fun k => exec_refreshRatePoll_one hlen⟩,
    refreshWindow_clears, fun s ch hch hworks => ?calibration, nandChannelFail_tells, mapSave_saves,
    fun s b hb hdie => readDisturbRefresh_renews hb hdie, fun s b now retries hb hdie hnow hdue => ?retention, wearLevelling_moves,
    garbageCollection_renews, exec_nandOperationComplete, exec_pauseAreaResize⟩
  case calibration =>
    have hexec := exec_dramCalibration hch hworks
    exact ⟨hexec true, fun hfew => (hexec false).trans (if_pos (Nat.add_lt_add_right hfew 1)), dramCalibration_fails hch hworks⟩
  case retention =>
    refine ⟨fun hsum => ?_, fun hsum hcalm => ?_, retentionPatrol_renews hb hdie hnow hdue⟩
    · have hcalm : ∀ k ∈ retries, k ≤ 2 := fun k hk => by have := List.le_sum_of_mem hk; omega
      exact exec_retentionPatrol_calm hb hdie hnow hdue hcalm rfl (if_pos hsum).symm
    · exact exec_retentionPatrol_calm hb hdie hnow hdue hcalm rfl (if_neg hsum).symm

end Sys2Proof.Machine
end

section
/-!
PROOFS. Loans: their grant, the notice and the end of the grace, the moves out of a reclaimed loan, and the lender's side (O40).
-/
namespace Sys2Proof.Machine

open Sys2Proof

/-! ## LOAN_GRANT (R265) -/

/-- The lowest number that a list does not hold, the one that a new loan takes. -/
def firstFree (ids : List Nat) : Nat := ((List.range (ids.length + 1)).find? (fun k => !ids.contains k)).getD 0

theorem firstFree_not_mem (ids : List Nat) : firstFree ids ∉ ids := by
  unfold firstFree
  cases hfind : (List.range (ids.length + 1)).find? (fun k => !ids.contains k) with
  | some k => simpa using List.find?_some hfind
  | none =>
    have hsub : List.range (ids.length + 1) ⊆ ids := fun k hk => by simpa using List.find?_eq_none.mp hfind k hk
    have hlen := (List.nodup_range.subperm hsub).length_le
    rw [List.length_range] at hlen
    omega

/-- A loan as it is granted: it becomes active at the next meridian. -/
def Loan.granted (id link n : Nat) : Loan :=
  { id := id, link := link, extents := n, active := false, notice := false, returning := false, movesDone := false, graceOver := false,
    copies := [], mem := [] }

/-- A partition whose request for a loan has been answered. -/
def Part.askAnswered (pt : Part) (link n : Nat) : Part := { pt with loanAsk := pt.loanAsk.erase (link, n) }

section Grant
variable {s : State} {p link n : Nat} {pt : Part} (hpt : s.part p = some pt) (hask : (link, n) ∈ pt.loanAsk)
include hpt hask

theorem loanGrant_granted :
    completes (.loanGrant p link n .ok) s (fun t => onlyPart s t p ∧ ∃ l : Loan,
      t.part p = some { pt with loanAsk := pt.loanAsk.erase (link, n), loans := pt.loans ++ [l] } ∧
      (∀ k ∈ pt.loans, k.id ≠ l.id) ∧ l.link = link ∧ l.extents = n ∧ l.active = false ∧ l.notice = false ∧ l.copies = [] ∧ l.mem = []) := by
  have hnew := firstFree_not_mem (pt.loans.map (·.id))
  have hexec : exec (.loanGrant p link n .ok) s = .next (s.modPart p (fun v =>
      { v.askAnswered link n with loans := v.loans ++ [Loan.granted (firstFree (pt.loans.map (·.id))) link n] })) := by
    show execLoanGrant p link n .ok s = _
    simp only [execLoanGrant, hpt, require, List.contains_iff_mem.mpr hask, List.contains_cons, beq_self_eq_true, Bool.true_or, Bool.and_self,
      if_true, State.modPart_modPart]
    rfl
  exact ⟨_, hexec, onlyPart_modPart _ _ _, _, part_of_modPart _ hpt,
    fun k hk he => hnew (List.mem_map.mpr ⟨k, hk, he⟩), rfl, rfl, rfl, rfl, rfl, rfl⟩

/-- Another answer gives the write that asked its final status. -/
theorem exec_loanGrant_refused {st : Status} (hst : st = .notPermitted ∨ st = .noResource ∨ st = .busyRecovery) :
    exec (.loanGrant p link n st) s = .next (((s.modPart p (fun v => v.askAnswered link n)).pushGo (askCode link n) p st).settleAll) := by
  have hok : [Status.ok, .notPermitted, .noResource, .busyRecovery].contains st = true ∧ st ≠ .ok := by
    rcases hst with rfl | rfl | rfl <;> decide
  show execLoanGrant p link n st s = _
  simp only [execLoanGrant, hpt, require, List.contains_iff_mem.mpr hask, hok.1, if_neg hok.2, Bool.and_self, if_true]
  rfl

end Grant

/-! ## RECLAIM_NOTICE, GRACE_EXPIRY, LOAN_MOVES_END (R268) -/

/-- The paused caches of a partition that lie in a loan. -/
def Part.cachesIn (pt : Part) (id : Nat) : List Nat :=
  pt.reqs.keys.filter (fun k => (NMap.find pt.reqs k).any (fun v => v.tier == 16 + id && (v.st == .paused || v.st == .resuming)))

theorem cachesIn_none {pt : Part} {id : Nat}
    (h : ∀ k r, NMap.find pt.reqs k = some r → r.tier = 16 + id → r.st ≠ .paused ∧ r.st ≠ .resuming) : pt.cachesIn id = [] := by
  refine List.filter_eq_nil_iff.mpr (fun k _ => ?_)
  rw [Bool.not_eq_true, Option.any_eq_false]
  intro r hr
  by_cases htier : r.tier = 16 + id
  · obtain ⟨hpaused, hresuming⟩ := h k r hr htier
    rw [beq_eq_false_iff_ne.mpr hpaused, beq_eq_false_iff_ne.mpr hresuming, Bool.or_self, Bool.and_false]
  · rw [beq_eq_false_iff_ne.mpr htier, Bool.false_and]

section Reclaim
variable {s : State} {p id : Nat} {pt : Part} {l : Loan} (hpt : s.part p = some pt) (hloan : pt.loans.find? (fun l => l.id == id) = some l)
include hpt hloan

theorem onLoan_found {ok : Loan → Bool} (body : Loan → Res) (hok : ok l = true) : s.onLoan p id ok body = body l := by
  simp only [State.onLoan, hpt, Option.bind_some, hloan, require, hok, if_true]

/-- A notice drops the weight copies of its loan. -/
theorem exec_reclaimNotice (hnotice : l.notice = false) :
    exec (.reclaimNotice p id) s = .next (s.modLoan p id (fun l => { l with notice := true, copies := [] })) :=
  onLoan_found hpt hloan _ (by rw [hnotice]; rfl)

theorem exec_graceExpiry (hnotice : l.notice = true) :
    exec (.graceExpiry p id) s = .next (s.modLoan p id (fun l => { l with graceOver := true })) :=
  onLoan_found hpt hloan _ hnotice

/-- The caches that lie in a reclaimed loan are moved out one after the other. -/
theorem exec_loanMovesEnd (hnotice : l.notice = true) (hmoves : l.movesDone = false) :
    exec (.loanMovesEnd p id) s =
      .next (((pt.cachesIn id).foldl (fun s h => s.moveCacheOut p h) s).modLoan p id (fun l => { l with movesDone := true })) := by
  show execLoanMovesEnd p id s = _
  unfold execLoanMovesEnd
  rw [onLoan_found hpt hloan _ (by rw [hnotice, hmoves]; rfl), hpt]
  rfl

omit hloan in
/-- A cache goes to the pause area where it has room. -/
theorem moveCacheOut_pauseArea {h : Nat} {r : Req} (hr : NMap.find pt.reqs h = some r) (hroom : s.pauseRoom (movedBytes r.moved) = true) :
    s.moveCacheOut p h =
      (s.nandPauseWrite (movedBytes r.moved)).modPart p (fun pt => { pt with reqs := NMap.insert pt.reqs h { r with tier := 1 } }) := by
  simp only [State.moveCacheOut, hpt, hr, hroom, if_true]

theorem loanMovesEnd_moves {h : Nat} {r : Req} (hnotice : l.notice = true) (hmoves : l.movesDone = false)
    (hr : NMap.find pt.reqs h = some r) (hone : pt.cachesIn id = [h]) (hroom : s.pauseRoom (movedBytes r.moved) = true) :
    completes (.loanMovesEnd p id) s (fun t => (t.part p).bind (fun v => NMap.find v.reqs h) = some { r with tier := 1 } ∧
      t.nand.pauseUsed = s.nand.pauseUsed + movedBytes r.moved ∧
      (t.part p).map (·.loans) = some (pt.loans.map (fun l => if l.id == id then { l with movesDone := true } else l))) := by
  have hexec := exec_loanMovesEnd hpt hloan hnotice hmoves
  rw [hone, List.foldl_cons, List.foldl_nil, moveCacheOut_pauseArea hpt hr hroom, State.modLoan, State.modPart_modPart] at hexec
  have hpart := part_of_modPart (s := s.nandPauseWrite (movedBytes r.moved)) (fun v =>
    { v with reqs := NMap.insert v.reqs h { r with tier := 1 },
             loans := v.loans.map (fun l => if l.id == id then { l with movesDone := true } else l) }) hpt
  refine ⟨_, hexec, ?_, rfl, ?_⟩
  · exact (congrArg (·.bind (fun v => NMap.find v.reqs h)) hpart).trans (NMap.find_insert_self _ _ _)
  · exact congrArg (·.map (·.loans)) hpart

end Reclaim

/-! ## LENT_MEMORY_REQUEST (R266) -/

/-- The lender's answer to a request over a link, sent from state `u` as state `s` knows its neighbour and its own number. -/
def State.lentReply (s u : State) (link loan cls : Nat) (l : Lent) (st : Status) (bs : Bytes) : State :=
  u.sendOn (link / 2) .lent (s.link link).peer s.veolo.num cls l.part (beBytes 1 0x46 ++ beBytes 1 loan ++ beBytes 2 (Status.code st) ++ bs)

theorem lentReply_of_veolo {s u : State} (link loan cls : Nat) (l : Lent) (st : Status) (bs : Bytes) (h : u.veolo = s.veolo) :
    u.lentReply u link loan cls l st bs = s.lentReply u link loan cls l st bs := by
  simp only [State.lentReply, State.link, h]

theorem lentRuns_zero (es : List Nat) (k off : Nat) : lentRuns es k off 0 = [] := by cases k <;> rfl

/-- An access within one extent of a loan is one run. -/
theorem lentRuns_one (es : List Nat) (off len : Nat) (hpos : 1 ≤ len) (hfit : off % 2 ^ 28 + len ≤ 2 ^ 28) :
    lentRuns es (es.length + 1) off len = [(lentAddr es off, len)] := by
  have hmin : min len (2 ^ 28 - off % 2 ^ 28) = len := Nat.min_eq_left (by omega)
  rw [lentRuns, if_neg (by omega)]
  simp only [hmin, Nat.sub_self, lentRuns_zero]

section Lender
variable {s : State} {link loan off len cls : Nat} {l : Lent}
  (hlent : s.lender.loans.find? (fun l => l.link == link && l.id == loan) = some l) (hcls : cls < 8) (hpos : 1 ≤ len)
include hlent hcls hpos

/-- An access beyond the loan is counted and not made. -/
theorem exec_lentMemoryRequest_beyond {w : Option Bytes} (hw : ∀ bs, w = some bs → bs.length = len) (hout : l.extents.length * 2 ^ 28 < off + len) :
    exec (.lentMemoryRequest link loan off w len cls) s =
      .next (s.lentReply (s.bump .dr 0 0x24 1) link loan cls l .notPermitted []) := by
  have hall : w.all (fun bs => decide (bs.length = len)) = true := by
    cases w with
    | none => rfl
    | some bs => exact decide_eq_true (hw bs rfl)
  show execLentMemoryRequest link loan off w len cls s = _
  simp only [execLentMemoryRequest, hlent, require, decide_eq_true hcls, decide_eq_true hpos, hall, Bool.and_self, if_true, if_pos hout]
  rfl

variable (hin : off + len ≤ l.extents.length * 2 ^ 28) (hfit : off % 2 ^ 28 + len ≤ 2 ^ 28) (hfailed : s.dram.failed = [])
  (hbad : s.dram.bad = [])
include hin hfit hfailed hbad

/-- A read within an extent of the loan answers its bytes. -/
theorem lentMemoryRequest_reads :
    completes (.lentMemoryRequest link loan off none len cls) s (fun t => ∃ u : State,
      t = s.lentReply u link loan cls l .ok (Mem.readN 0#8 s.mem.dram (lentAddr l.extents off) len) ∧ u.mem = s.mem ∧ u.veolo = s.veolo ∧
      u.parts = s.parts) := by
  have htouch := touch_only s (linkPort link) (lentAddr l.extents off) len
  generalize hu : s.touch (linkPort link) (lentAddr l.extents off) len = u at htouch
  have hveolo : u.veolo = s.veolo := touchOnly_field State.veolo (fun _ _ _ => rfl) htouch
  have hclean := burstFind_clean u (lentAddr l.extents off) len ((congrArg Dram.bad htouch.2 :).trans hbad)
    ((congrArg Dram.failed htouch.2 :).trans hfailed)
  have hexec : exec (.lentMemoryRequest link loan off none len cls) s =
      .next (u.lentReply u link loan cls l .ok (Mem.readN 0#8 s.mem.dram (lentAddr l.extents off) len)) := by
    show execLentMemoryRequest link loan off none len cls s = _
    simp only [execLentMemoryRequest, hlent, require, decide_eq_true hcls, decide_eq_true hpos, Option.all_none, Bool.and_self, if_true,
      if_neg (Nat.not_lt.mpr hin), lentRuns_one _ _ _ hpos hfit, List.foldl_cons, List.foldl_nil, hu, hclean, Bool.or_self,
      Bool.false_eq_true, if_false, List.flatMap_cons, List.flatMap_nil, List.append_nil]
    rfl
  rw [lentReply_of_veolo _ _ _ _ _ _ hveolo] at hexec
  exact ⟨_, hexec, u, rfl, touchOnly_field State.mem (fun _ _ _ => rfl) htouch, hveolo, touchOnly_field State.parts (fun _ _ _ => rfl) htouch⟩

/-- A write within an extent of the loan writes its bytes there and nowhere else. -/
theorem lentMemoryRequest_writes {bs : Bytes} (hlen : bs.length = len) :
    completes (.lentMemoryRequest link loan off (some bs) len cls) s (fun t => ∃ u : State,
      t = s.lentReply u link loan cls l .ok [] ∧ u.mem = { s.mem with dram := Mem.writeN 0#8 s.mem.dram (lentAddr l.extents off) bs } ∧
      u.veolo = s.veolo ∧ u.parts = s.parts) := by
  have htouch := touch_only s (linkPort link) (lentAddr l.extents off) len
  generalize hu : s.touch (linkPort link) (lentAddr l.extents off) len = u at htouch
  have hveolo : u.veolo = s.veolo := touchOnly_field State.veolo (fun _ _ _ => rfl) htouch
  have hmem : u.mem = s.mem := touchOnly_field State.mem (fun _ _ _ => rfl) htouch
  have hwrite := dramWrite_clean u (lentAddr l.extents off) bs ((congrArg Dram.bad htouch.2 :).trans hbad)
    ((congrArg Dram.failed htouch.2 :).trans hfailed)
  generalize hx : u.setDramMem (Mem.writeN 0#8 u.mem.dram (lentAddr l.extents off) bs) = x at hwrite
  have hexec : exec (.lentMemoryRequest link loan off (some bs) len cls) s = .next (x.lentReply x link loan cls l .ok []) := by
    show execLentMemoryRequest link loan off (some bs) len cls s = _
    simp only [execLentMemoryRequest, hlent, require, decide_eq_true hcls, decide_eq_true hpos, Option.all_some, decide_eq_true hlen,
      Bool.and_self, if_true, if_neg (Nat.not_lt.mpr hin), lentRuns_one _ _ _ hpos hfit, List.foldl_cons, List.foldl_nil, hu, State.writeRuns,
      List.take_of_length_le (Nat.le_of_eq hlen), hwrite]
    rfl
  rw [lentReply_of_veolo _ _ _ _ _ _ ((congrArg State.veolo hx.symm :).trans hveolo)] at hexec
  subst hx
  refine ⟨_, hexec, _, rfl, ?_, hveolo, (touchOnly_field State.parts (fun _ _ _ => rfl) htouch :)⟩
  rw [← hmem]; rfl

end Lender

/-- Settles O40: a grant by `firstFree_not_mem`, a reclaimed loan by `onLoan_found` and `moveCacheOut_pauseArea`, and the lender's side by
`lentRuns_one`, on memory whose bursts are clean. -/
theorem loansAreServed : Obligations.LoansAreServed := by
  refine ⟨fun s p link n st pt hpt hask => ⟨loanGrant_granted hpt hask, exec_loanGrant_refused hpt hask⟩,
    fun s p id pt l hpt hloan => ⟨exec_reclaimNotice hpt hloan, exec_graceExpiry hpt hloan, fun hnotice hmoves hno => ?_,
      fun h r hnotice hmoves hr _ _ hone hroom => loanMovesEnd_moves hpt hloan hnotice hmoves hr hone hroom⟩,
    fun s link loan off len cls l hlent hcls hpos => ⟨fun hout => ?_, fun hin hfit hfailed hbad => ?_⟩⟩
  · have hexec := exec_loanMovesEnd hpt hloan hnotice hmoves
    rw [cachesIn_none hno] at hexec
    exact hexec
  · exact ⟨exec_lentMemoryRequest_beyond hlent hcls hpos (fun _ h => absurd h (by simp)) hout,
      fun bs hlen => exec_lentMemoryRequest_beyond hlent hcls hpos (fun _ h => by cases h; exact hlen) hout⟩
  · exact ⟨lentMemoryRequest_reads hlent hcls hpos hin hfit hfailed hbad,
      fun bs hlen => lentMemoryRequest_writes hlent hcls hpos hin hfit hfailed hbad hlen⟩

end Sys2Proof.Machine
end

section
/-!
PROOFS. Frames of generation 3 read back, the queue behind a command, and what one step runs.
-/
namespace Sys2Proof.Machine

open Sys2Proof

/-! ## A header written and read (R363) -/

/-- Every field of a header, but for LENGTH and CHECK, which are formed when it is sent, lies within its bytes (Table 3 of Host ports). -/
structure Hdr.fits (h : Hdr) : Prop where
  version : h.version < 256
  kind : h.kind < 256
  flags : h.flags < 65536
  part : h.part < 65536
  sess : h.sess < 65536
  seq : h.seq < 4294967296
  ackNum : h.ackNum < 4294967296
  handle : h.handle < 4294967296
  opcode : h.opcode < 65536
  status : h.status < 65536

theorem crc32c_lt (bs : Bytes) : crc32c bs < 4294967296 := BitVec.isLt _

/-- The 28 bytes that the CRC covers with the payload, where LENGTH is the payload's. -/
def Hdr.covered (h : Hdr) (pl : Bytes) : Bytes := Hdr.bytes28 { h with length := pl.length }

theorem Hdr.covered_length (h : Hdr) (pl : Bytes) : (h.covered pl).length = 28 := by
  simp [Hdr.covered, Hdr.bytes28, beBytes_length]

/-- The header's fields stand one behind the other, so each is read where the lengths of those before it add up. -/
theorem parseHdr3_covered {h : Hdr} (hf : h.fits) {pl : Bytes} (hl : pl.length < 4294967296) {k : Nat} (hk : k < 4294967296) (rest : Bytes) :
    parseHdr3 (h.covered pl ++ (beBytes 4 k ++ rest)) = { h with length := pl.length, check := k } := by
  simp only [parseHdr3, Hdr.covered, Hdr.bytes28, List.append_assoc]
  congr 1 <;> simp [beAt_over, beBytes_length, beAt_first, Nat.mod_eq_of_lt, hf.version, hf.kind, hf.flags, hf.part, hf.sess, hf.seq, hf.ackNum,
    hf.handle, hf.opcode, hf.status, hl, hk]

/-- A header of another version than 1 and 2 is read as one of generation 3. -/
theorem parseHdr_three {raw : Bytes} (h1 : beAt raw 0 1 ≠ 1) (h2 : beAt raw 0 1 ≠ 2) : parseHdr raw = parseHdr3 raw := by
  simp [parseHdr, hdrLen, h1, h2]

/-- The pieces of a frame: the header's 28 bytes, CHECK, the payload. -/
theorem buildFrame_pieces (h : Hdr) (pl rest : Bytes) :
    buildFrame h pl ++ rest = h.covered pl ++ (beBytes 4 (crc32c (h.covered pl ++ pl)) ++ (pl ++ rest)) := by
  simp only [buildFrame, Hdr.covered, List.append_assoc]

theorem buildFrame_take (h : Hdr) (pl rest : Bytes) : (buildFrame h pl ++ rest).take 28 = h.covered pl := by
  rw [buildFrame_pieces, List.take_left' (Hdr.covered_length _ _)]

theorem buildFrame_payload (h : Hdr) (pl rest : Bytes) : slice (buildFrame h pl ++ rest) 32 pl.length = pl := by
  rw [buildFrame_pieces, slice_skip _ _ _ _ 28 (Hdr.covered_length _ _) (by omega), slice_skip _ _ _ _ 4 (beBytes_length _ _) (by omega)]
  exact slice_here pl rest _ rfl

theorem parseHdr_buildFrame {h : Hdr} (hf : h.fits) (h1 : h.version ≠ 1) (h2 : h.version ≠ 2) {pl : Bytes} (hl : pl.length < 4294967296)
    (rest : Bytes) : parseHdr (buildFrame h pl ++ rest) = { h with length := pl.length, check := crc32c (h.covered pl ++ pl) } := by
  have hcheck := crc32c_lt (h.covered pl ++ pl)
  rw [buildFrame_pieces]
  generalize crc32c (h.covered pl ++ pl) = k at hcheck ⊢
  have hparse := parseHdr3_covered hf hl hcheck (pl ++ rest)
  have hversion : beAt (h.covered pl ++ (beBytes 4 k ++ (pl ++ rest))) 0 1 = h.version := congrArg Hdr.version hparse
  rw [parseHdr_three (by rwa [hversion]) (by rwa [hversion]), hparse]

/-- Settles O5: the header by `parseHdr_buildFrame`, its 28 bytes and the payload by where they stand in the frame. -/
theorem framesReadBack : Obligations.FramesReadBack := by
  unfold Obligations.FramesReadBack
  intro h pl rest hv h1 h2 hk hfl hp hs hq ha hh ho hst hl
  have hparse := parseHdr_buildFrame ⟨hv, hk, hfl, hp, hs, hq, ha, hh, ho, hst⟩ h1 h2 hl rest
  dsimp only
  rw [hparse, buildFrame_take]
  dsimp only
  rw [buildFrame_payload]
  exact ⟨rfl, rfl, rfl⟩

/-! ## The queue -/

/-- That the queue is `q` is kept by every setter but that of the queue. -/
def queueKeep (q : List Instr) : KeepAll where
  P s := s.pending = q
  now _ _ h := h
  stamp _ _ h := h
  free _ _ h := h
  timeHi _ _ h := h
  regs _ _ h := h
  tiles _ _ h := h
  pods _ _ h := h
  parts _ _ h := h
  tombs _ _ h := h
  walks _ _ h := h
  dev _ _ h := h
  guard _ _ h := h
  keeper _ _ h := h
  flash _ _ h := h
  lesar _ _ h := h
  eth _ _ h := h
  smb _ _ h := h
  dram _ _ h := h
  nand _ _ h := h
  lender _ _ h := h
  veolo _ _ h := h
  survey _ _ h := h
  modPart _ _ _ h := h
  putPart _ _ _ h := h
  mapParts _ _ h := h
  mem _ _ h _ := h

/-- Settles O4: what the queue holds is a property that every command keeps (`exec_keep`). -/
theorem commandsLeaveTheQueue : Obligations.CommandsLeaveTheQueue := fun c s t hexec =>
  (exec_keep (queueKeep s.pending) c s rfl).get t hexec

/-- Settles O1: the two cases of `step`, by what the queue holds. -/
theorem stepRunsTheFrontCommand : Obligations.StepRunsTheFrontCommand :=
  ⟨fun c cs s hq => by rw [step, hq], fun s hq => by rw [step, hq]⟩

end Sys2Proof.Machine
end

section
/-!
PROOFS. Served operations: what the mailbox of a frame leaves alone, and UNBIND_SET.
-/
namespace Sys2Proof.Machine

open Sys2Proof

/-! ## An operation that is let through -/

/-- An operation that the device and its session let through runs its body, its mailbox freed. -/
theorem serve_accepted {s : State} {c : Ctx} {op : Nat} {v : Server} {own : Bool} (h : s.accepts c op v own) (body : State → Res) :
    s.serve c op v own body = body (s.freeMbox c op) := by
  obtain ⟨hrefusal, haddr, howner, hturn⟩ := h
  exact serve_body s c op v own body hrefusal haddr howner hturn

@[simp] theorem freeMbox_parts (s : State) (c : Ctx) (op : Nat) : (s.freeMbox c op).parts = s.parts :=
  freeMbox_field State.parts (fun _ _ => rfl) s c op

@[simp] theorem freeMbox_part_eq (s : State) (c : Ctx) (op p : Nat) : (s.freeMbox c op).part p = s.part p := freeMbox_part s c op p

@[simp] theorem freeMbox_keeper_eq (s : State) (c : Ctx) (op : Nat) : (s.freeMbox c op).keeper = s.keeper := keeper_freeMbox s c op

@[simp] theorem freeMbox_dev_eq (s : State) (c : Ctx) (op : Nat) : (s.freeMbox c op).dev = s.dev := freeMbox_dev s c op

/-- What a reply and a change of the host's link leave, an operation that is owed its answer leaves. -/
theorem owe_field {α : Type} (f : State → α) (hreply : ∀ s w : State, f (s.withReply w) = f s) (hlesar : ∀ (s : State) (l : Lesar), f (s.setLesar l) = f s)
    (s : State) (c : Ctx) (op : Nat) : f (s.owe c op) = f s :=
  (hlesar _ _).trans (reply_field f hreply s c op .pending [])

/-! ## UNBIND_SET (R415) -/

/-- A current or next image of some partition names a device set. -/
def State.setNamed (s : State) (id : Bytes) : Bool :=
  s.parts.any (fun e => e.2.image.any (fun im => im.namesSet id) || e.2.next.any (fun im => im.namesSet id))

theorem setNamed_iff (s : State) (id : Bytes) :
    s.setNamed id = true ↔ ∃ e ∈ s.parts, ∃ im : Image, (e.2.image = some im ∨ e.2.next = some im) ∧ im.hasKeyBlock = true ∧ im.setId = id := by
  simp only [State.setNamed, Image.namesSet, List.any_eq_true, Bool.or_eq_true, Option.any_eq_true, Bool.and_eq_true, beq_iff_eq, or_and_right,
    exists_or]

theorem exec_unbindSet {s : State} {c : Ctx} (h : s.accepts c 0x0806 .keeper true) (id : Bytes) :
    exec (.unbindSet c id) s =
      if id.length != 32 then .next ((s.freeMbox c 0x0806).reply c 0x0806 .badFrame [])
      else if s.setNamed id then .next ((s.freeMbox c 0x0806).reply c 0x0806 .notPermitted [])
      else .next (((s.freeMbox c 0x0806).setKeeper { s.keeper with sets := s.keeper.sets.filter (fun b => b.setId != id) }).reply c 0x0806 .ok []) := by
  show execUnbindSet c id s = _
  simp only [execUnbindSet, serve_accepted h, State.answer, State.setNamed, freeMbox_parts, freeMbox_keeper_eq]
  rfl

/-- Settles O6: the three answers of `exec_unbindSet`, by what `setNamed` says of the images. -/
theorem unbindSetErases : Obligations.UnbindSetErases := by
  intro s c id h
  rw [exec_unbindSet h, ← setNamed_iff]
  exact ⟨fun hlen => if_pos (bne_iff_ne.mpr hlen), fun hlen hnamed => by simp [hlen, hnamed], fun hlen hfree => by simp [hlen, hfree]⟩

end Sys2Proof.Machine
end

section
/-!
PROOFS. Quotes, certificates and keys: ATTEST, GET_CERTS, SET_KEY, SEC_KEY.
-/
namespace Sys2Proof.Machine

open Sys2Proof

/-! ## The quote of Table 5 (R407, R413) -/

theorem padTo_self {n : Nat} {b : Bytes} (h : b.length = n) : padTo n b = b := by
  simp [padTo, List.take_of_length_le (Nat.le_of_eq h), h]

theorem padTo_zeros (n : Nat) : padTo n (List.replicate n 0#8) = List.replicate n 0#8 := padTo_self List.length_replicate

theorem padTo_nil (n : Nat) : padTo n [] = List.replicate n 0#8 := by simp [padTo]

theorem digestOr_some (b : Bytes) : digestOr (some b) = Config.sm3 b := rfl

theorem digestOr_none : digestOr none = List.replicate 32 0#8 := rfl

theorem quoteBody_length (s : State) (p : Nat) (nonce : Bytes) : (s.quoteBody p nonce).length = 384 := by
  simp only [State.quoteBody, List.length_append, beBytes_length, padTo_length, quotePart_length]

section Quote

variable (s : State) (p : Nat)

/-- The numbers of a quote, each by the lengths of the pieces before it. -/
theorem quoteBody_numbers (nonce sig : Bytes) :
    let q := s.quoteBody p nonce ++ sig
    (beAt q 0 4 = 0x51554F54 ∧ beAt q 4 1 = 1 ∧ beAt q 5 1 = Phase.state s.dev.phase % 256 ∧ beAt q 6 2 = p % 65536) ∧
    (beAt q 8 2 = s.numField % 65536 ∧ beAt q 10 2 = 0 ∧ beAt q 12 4 = imageVersion s.dev.rtImage % 4294967296 ∧
      beAt q 16 4 = s.dev.fwVersion % 4294967296 ∧ beAt q 20 4 = s.params.floor % 4294967296 ∧ beAt q 24 8 = s.now % 18446744073709551616) := by
  simp only [State.quoteBody, List.append_assoc]
  refine ⟨⟨?_, ?_, ?_, ?_⟩, ?_, ?_, ?_, ?_, ?_, ?_⟩ <;> simp [beAt_over, beAt_first, beBytes_length]

/-- The nonce, the digests and the partition of a quote. -/
theorem quoteBody_digests {nonce : Bytes} (hn : nonce.length = 32) (sig : Bytes) :
    let q := s.quoteBody p nonce ++ sig
    (slice q 32 32 = nonce ∧ slice q 64 32 = padTo 32 (Config.sm3 Config.identityKey) ∧ slice q 96 32 = padTo 32 (Config.sm3 s.dev.rtImage) ∧
      slice q 128 32 = padTo 32 (digestOr s.runningImage)) ∧
    (slice q 160 32 = padTo 32 (digestOr s.dev.pendingImage) ∧ slice q 192 32 = padTo 32 (digestOr s.keeper.ownerKey) ∧
      slice q 224 32 = padTo 32 (if s.keeper.setIds.isEmpty then [] else Config.sm3 s.keeper.setIds.flatten) ∧
      slice q 256 128 = quotePart (s.part p)) := by
  simp only [State.quoteBody, List.append_assoc, padTo_self hn]
  refine ⟨⟨?_, ?_, ?_, ?_⟩, ?_, ?_, ?_, ?_⟩ <;> simp [slice_over, slice_front, beBytes_length, padTo_length, quotePart_length, hn]

theorem quote_length (nonce : Bytes) : (s.quote p nonce).length = 448 := by
  rw [State.quote, List.length_append, quoteBody_length, padTo_length]

/-- The signature of a quote is that of all that stands before it. -/
theorem quote_signature (nonce : Bytes) : slice (s.quote p nonce) 384 64 = padTo 64 (Config.identitySign ((s.quote p nonce).take 384)) := by
  have hbody := quoteBody_length s p nonce
  rw [State.quote, List.take_left' hbody, slice_skip _ _ _ _ 384 hbody (Nat.le_refl _), slice, Nat.sub_self, List.drop_zero,
    List.take_of_length_le (Nat.le_of_eq (padTo_length _ _))]

end Quote

/-- The SET_IDs are those of the bound sets, in increasing order (R407). -/
theorem setIds_sorted (k : Keeper) : k.setIds.Perm (k.sets.map (·.setId)) ∧ k.setIds.Pairwise (fun a b => ofBe a ≤ ofBe b) := by
  refine ⟨List.mergeSort_perm _ _, ?_⟩
  have hsorted := List.pairwise_mergeSort (le := fun a b : Bytes => decide (ofBe a ≤ ofBe b)) (fun a b c hab hbc => by simp at *; omega)
    (fun a b => by simp; omega) (k.sets.map (·.setId))
  exact hsorted.imp (fun h => of_decide_eq_true h)

theorem setIds_isEmpty (k : Keeper) : k.setIds.isEmpty = k.sets.isEmpty := by
  have hlength := (setIds_sorted k).1.length_eq
  rw [List.length_map] at hlength
  rw [Bool.eq_iff_iff, List.isEmpty_iff_length_eq_zero, List.isEmpty_iff_length_eq_zero, hlength]

theorem quote_freeMbox (s : State) (c : Ctx) (op p : Nat) (nonce : Bytes) : (s.freeMbox c op).quote p nonce = s.quote p nonce :=
  freeMbox_field (fun s => s.quote p nonce) (fun _ _ => rfl) s c op

theorem exec_attest {s : State} {c : Ctx} (h : s.accepts c 0x0801 .keeperEarly false) (pl : Bytes) :
    exec (.attest c pl) s =
      if pl.length != 32 then .next ((s.freeMbox c 0x0801).reply c 0x0801 .badFrame [])
      else if c.part != 0xFFFF && (s.part c.part).isNone then .next ((s.freeMbox c 0x0801).reply c 0x0801 .notPermitted [])
      else .next (((s.freeMbox c 0x0801).bump .kpr 0 0x08 1).reply c 0x0801 .ok (s.quote c.part pl)) := by
  show execAttest c pl s = _
  simp only [execAttest, serve_accepted h, freeMbox_part_eq, quote_freeMbox]
  rfl

/-! ## GET_CERTS (R406) -/

theorem exec_getCerts {s : State} {c : Ctx} (h : s.accepts c 0x0804 .keeper false) (pl : Bytes) :
    exec (.getCerts c pl) s = .next (if pl = [] then (s.freeMbox c 0x0804).reply c 0x0804 .ok (Config.certs.take 4096)
      else (s.freeMbox c 0x0804).reply c 0x0804 .badFrame []) := by
  show execGetCerts c pl s = _
  simp only [execGetCerts, serve_accepted h]
  cases pl <;> rfl

/-! ## SET_KEY (R404, R411) -/

/-- A SET_KEY frame is in its form: the fields within their ranges, and a key of the form of R404 or zeros. -/
theorem setKeyBad_iff (pl : Bytes) : setKeyBad pl = false ↔ pl.length = 72 ∧ beAt pl 0 1 ≤ 2 ∧
    beAt pl 1 1 ≤ (match beAt pl 0 1 with | 0 => 0 | 1 => 7 | _ => 127) ∧ beAt pl 2 2 = 0 ∧ beAt pl 69 3 = 0 ∧
    ((slice pl 4 65).all (· == 0#8) = true ∨ (slice pl 4 65).headD 0#8 = 4#8 ∧ Config.onCurve (slice pl 4 65) = true) := by
  have hkey : pl.length = 72 → (slice pl 4 65).length = 65 := fun h => by simp [slice, h]
  have hform : pl.length = 72 → (keyOk (slice pl 4 65) = true ↔ (slice pl 4 65).headD 0#8 = 4#8 ∧ Config.onCurve (slice pl 4 65) = true) :=
    fun h => by simp [keyOk, hkey h]
  have hrange : ∀ k, within 0 k (beAt pl 1 1) = true ↔ beAt pl 1 1 ≤ k := fun k => by simp [within]
  by_cases hlen : pl.length = 72
  · rw [← hform hlen, ← hrange]
    simp only [setKeyBad, allZero, hlen, Bool.or_eq_false_iff, bne_eq_false_iff_eq, Bool.not_eq_false', decide_eq_false_iff_not, Nat.not_lt, Bool.or_eq_true]
    tauto
  · simp [setKeyBad, hlen]

section SetKey

variable {s : State} {c : Ctx} {pl : Bytes} (h : s.accepts c 0x0803 .keeper true)

include h

theorem exec_setKey_bad (hbad : setKeyBad pl = true) : exec (.setKey c pl) s = .next ((s.freeMbox c 0x0803).reply c 0x0803 .badFrame []) := by
  show execSetKey c pl s = _
  simp only [execSetKey, serve_accepted h, hbad, if_true, State.answer]

variable (hgood : setKeyBad pl = false)

include hgood

/-- The device owner's key is removed only while no partition exists. -/
theorem exec_setKey_owner (hkind : beAt pl 0 1 = 0) :
    exec (.setKey c pl) s = .next (if allZero (slice pl 4 65) then
        if s.parts.isEmpty then ((s.freeMbox c 0x0803).setKeeper s.keeper.unowned).reply c 0x0803 .ok []
        else (s.freeMbox c 0x0803).reply c 0x0803 .notPermitted []
      else ((s.freeMbox c 0x0803).setKeeper { s.keeper with ownerKey := some (slice pl 4 65), ownerMark := 0, commandMark := 0, lastCommand := none }).reply
        c 0x0803 .ok []) := by
  show execSetKey c pl s = _
  simp only [execSetKey, serve_accepted h, hgood, hkind, State.answer, freeMbox_parts, freeMbox_keeper_eq]
  cases allZero (slice pl 4 65) <;> cases s.parts <;> rfl

theorem exec_setKey_signer (hkind : beAt pl 0 1 = 1) :
    exec (.setKey c pl) s = .next (((s.freeMbox c 0x0803).setKeeper { s.keeper with
      signers := if allZero (slice pl 4 65) then NMap.erase s.keeper.signers (beAt pl 1 1)
        else NMap.insert s.keeper.signers (beAt pl 1 1) (slice pl 4 65) }).reply c 0x0803 .ok []) := by
  show execSetKey c pl s = _
  simp only [execSetKey, serve_accepted h, hgood, hkind, State.answer, freeMbox_keeper_eq]
  rfl

theorem exec_setKey_part (hkind : beAt pl 0 1 = 2) :
    exec (.setKey c pl) s = .next (if (s.part (beAt pl 1 1)).isNone then (s.freeMbox c 0x0803).reply c 0x0803 .notPermitted []
      else ((s.freeMbox c 0x0803).modPart (beAt pl 1 1) (fun pt =>
        { pt with ownerKey := if allZero (slice pl 4 65) then none else some (slice pl 4 65), ownerMark := 0 })).reply c 0x0803 .ok []) := by
  show execSetKey c pl s = _
  simp only [execSetKey, serve_accepted h, hgood, hkind, State.answer, freeMbox_part_eq]
  cases s.part (beAt pl 1 1) <;> rfl

end SetKey

/-! ## SEC_KEY (R361, R416) -/

/-- A SEC_KEY frame is in its form. -/
def secKeyForm (pl : Bytes) : Prop :=
  pl.length = 168 ∧ beAt pl 0 1 ≤ 3 ∧ beAt pl 1 1 ≤ 1 ∧ beAt pl 2 1 ≤ 3 ∧ beAt pl 3 1 = 0 ∧ beAt pl 165 3 = 0

/-- The key entry that a SEC_KEY frame carries. -/
def secKeyEntryOf (pl sak : Bytes) : SecKeyEntry :=
  { ssci := beAt pl 4 4, sci := beAt pl 8 8, nextPn := beAt pl 16 8, salt := slice pl 24 12, sak := sak }

/-- The channels whose old association is still accepted after a new key. -/
def Keeper.oldAfter (k : Keeper) (port dir an : Nat) : List (Nat × Nat) :=
  let old := k.secOld.filter (· != (port, dir))
  if k.secKeys.any (fun e => e.1 / 4 == (8 * port + 4 * dir) / 4 && e.1 != 8 * port + 4 * dir + an) then (port, dir) :: old else old

theorem mem_oldAfter_other (k : Keeper) {port dir : Nat} (an : Nat) {q : Nat × Nat} (hq : q ≠ (port, dir)) :
    q ∈ k.oldAfter port dir an ↔ q ∈ k.secOld := by
  unfold Keeper.oldAfter
  split <;> simp [hq]

theorem mem_oldAfter_self (k : Keeper) (port dir an : Nat) :
    (port, dir) ∈ k.oldAfter port dir an ↔ ∃ e ∈ k.secKeys, e.1 / 4 = 2 * port + dir ∧ e.1 ≠ 8 * port + 4 * dir + an := by
  have hbase : (8 * port + 4 * dir) / 4 = 2 * port + dir := by omega
  unfold Keeper.oldAfter
  rw [hbase]
  split
  · next hany => simpa using hany
  · next hany => simpa using hany

theorem exec_secKey {s : State} {c : Ctx} (h : s.accepts c 0x0805 .keeper true) (pl : Bytes) :
    (¬secKeyForm pl → exec (.secKey c pl) s = .next ((s.freeMbox c 0x0805).reply c 0x0805 .badFrame [])) ∧
    (secKeyForm pl → Config.unwrap (slice pl 36 129) = none →
      exec (.secKey c pl) s = .next ((s.freeMbox c 0x0805).reply c 0x0805 .digestMismatch [])) ∧
    (∀ sak, secKeyForm pl → Config.unwrap (slice pl 36 129) = some sak → exec (.secKey c pl) s =
      .next (((s.freeMbox c 0x0805).setKeeper { s.keeper with
        secKeys := NMap.insert s.keeper.secKeys (8 * beAt pl 0 1 + 4 * beAt pl 1 1 + beAt pl 2 1) (secKeyEntryOf pl sak),
        secOld := s.keeper.oldAfter (beAt pl 0 1) (beAt pl 1 1) (beAt pl 2 1) }).reply c 0x0805 .ok [])) := by
  have hform : (pl.length != 168 || decide (3 < beAt pl 0 1) || decide (1 < beAt pl 1 1) || decide (3 < beAt pl 2 1) || beAt pl 3 1 != 0 ||
      beAt pl 165 3 != 0) = false ↔ secKeyForm pl := by
    simp only [secKeyForm, Bool.or_eq_false_iff, bne_eq_false_iff_eq, decide_eq_false_iff_not, Nat.not_lt]
    tauto
  have hexec : exec (.secKey c pl) s = execSecKey c pl s := rfl
  rw [hexec, execSecKey, serve_accepted h]
  refine ⟨fun hbad => ?_, fun hgood hwrap => ?_, fun sak hgood hwrap => ?_⟩
  · simp only [Bool.not_eq_false .. ▸ (not_congr hform).mpr hbad, if_true, State.answer]
  · simp only [hform.mpr hgood, hwrap, Bool.false_eq_true, if_false, State.answer]
  · simp only [hform.mpr hgood, hwrap, Bool.false_eq_true, if_false, State.answer, freeMbox_keeper_eq]
    rfl

/-- Settles O54: the quote by `quote_fields`, the keys by the three objects that SET_KEY names, a key of link security by `exec_secKey`. -/
theorem quotesAndKeys : Obligations.QuotesAndKeys := by
  refine ⟨fun s c pl h => ?_, fun s c pl h => exec_getCerts h pl, fun s c pl h => ?_, fun s c pl h => ?_⟩
  · refine ⟨fun hlen => ?_, fun hlen hpart hnone => ?_, fun hlen hhere => ⟨s.quote c.part pl, ?_⟩⟩
    · rw [exec_attest h, if_pos (bne_iff_ne.mpr hlen)]
    · simp [exec_attest h, hlen, hpart, hnone]
    · obtain ⟨⟨h0, h4, h5, h6⟩, h8, h10, h12, h16, h20, h24⟩ := quoteBody_numbers s c.part pl (padTo 64 (Config.identitySign (s.quoteBody c.part pl)))
      obtain ⟨⟨h32, h64, h96, h128⟩, h160, h192, h224, h256⟩ := quoteBody_digests s c.part hlen (padTo 64 (Config.identitySign (s.quoteBody c.part pl)))
      rw [← State.quote] at *
      have hexists : (c.part != 0xFFFF && (s.part c.part).isNone) = false := by
        rcases hhere with hdev | hsome
        · simp [hdev]
        · simp [Option.isNone_eq_false_iff.mpr hsome]
      refine ⟨by simp [exec_attest h, hlen, hexists], quote_length s c.part pl, h0, h4, h5, h6, h8, h10, h12, h16, h20, h24, h32, h64, h96,
        fun hrun => ?_, fun hstop => ?_, fun img himg => ?_, fun hnone => ?_, fun k hk => ?_, fun hnone => ?_, fun hsets => ?_, fun hsets => ?_, h256, quote_signature s c.part pl⟩
      · rw [h128, State.runningImage, if_pos hrun, digestOr_some]
      · rw [h128, State.runningImage, if_neg hstop, digestOr_none, padTo_zeros]
      · rw [h160, himg, digestOr_some]
      · rw [h160, hnone, digestOr_none, padTo_zeros]
      · rw [h192, hk, digestOr_some]
      · rw [h192, hnone, digestOr_none, padTo_zeros]
      · rw [h224, setIds_isEmpty, hsets]; exact padTo_nil 32
      · refine ⟨s.keeper.setIds, (setIds_sorted _).1, (setIds_sorted _).2, ?_⟩
        rw [h224, setIds_isEmpty, if_neg (by simpa using hsets)]
  · have hform := setKeyBad_iff pl
    have hzeros : (slice pl 4 65).all (· == 0#8) = allZero (slice pl 4 65) := rfl
    rw [hzeros] at hform
    dsimp only
    rw [hzeros]
    refine ⟨fun hbad => exec_setKey_bad h ?_, fun hgood hkind hzero hparts => ?_, fun hgood hkind hzero hparts => ?_, fun hgood hkind hkey => ?_,
      fun hgood hkind hzero => ?_, fun hgood hkind hkey => ?_, fun hgood hkind hnone => ?_, fun pt hgood hkind hpt => ?_⟩
    · by_contra hgood
      exact hbad (hform.mp (Bool.not_eq_true _ ▸ hgood))
    · rw [exec_setKey_owner h (hform.mpr hgood) hkind, if_pos hzero, if_neg (by simpa using hparts)]
    · rw [exec_setKey_owner h (hform.mpr hgood) hkind, if_pos hzero, if_pos (by simpa using hparts)]; rfl
    · rw [exec_setKey_owner h (hform.mpr hgood) hkind, if_neg hkey]
    · rw [exec_setKey_signer h (hform.mpr hgood) hkind, if_pos hzero]
    · rw [exec_setKey_signer h (hform.mpr hgood) hkind, if_neg hkey]
    · rw [exec_setKey_part h (hform.mpr hgood) hkind, hnone]; rfl
    · refine ⟨_, ⟨State.modPart_frame _ _ _, fun q hq => State.part_modPart_ne _ _ hq⟩, fun hzero => ?_, fun hkey => ?_,
        by rw [exec_setKey_part h (hform.mpr hgood) hkind, hpt]; rfl⟩
      · rw [State.part_modPart_self, freeMbox_part_eq, hpt, if_pos hzero]; rfl
      · rw [State.part_modPart_self, freeMbox_part_eq, hpt, if_neg hkey]; rfl
  · obtain ⟨hbad, hshut, hopen⟩ := exec_secKey h pl
    exact ⟨hbad, hshut, fun sak hgood hwrap => ⟨_, hopen sak hgood hwrap, fun q hq => mem_oldAfter_other _ _ hq, mem_oldAfter_self _ _ _ _⟩⟩

end Sys2Proof.Machine
end

section
/-!
PROOFS. Device sets: BIND_SET gathers a certificate and a wrapped key and checks both at LAST (R414).
-/
namespace Sys2Proof.Machine

open Sys2Proof

/-! ## The checks at LAST -/

theorem certSigned_iff (u : State) (cert : Bytes) : u.certSigned cert = true ↔
    ∃ e ∈ u.keeper.signers, Config.sm3 e.2 = slice cert (cert.length - 96) 32 ∧
      Config.sm2Verify e.2 (cert.take (cert.length - 96)) (cert.drop (cert.length - 64)) = true := by
  simp only [State.certSigned, List.any_eq_true, Bool.and_eq_true, beq_iff_eq]

/-- A wrapped key opens to the secret key of a certificate. -/
def opensTo (cert key priv : Bytes) : Prop := key.length = 129 ∧ Config.unwrap key = some priv ∧ Config.keyMatches cert priv = true

/-- The set that a certificate and its secret key make, with this module's number in it. -/
def boundSetOf (cert priv : Bytes) (n : Nat) : BoundSet := { setId := Config.sm3 cert, setKey := slice cert 12 65, devNum := n, priv := priv }

section Finish

variable {u : State} {cert key : Bytes}

theorem finishBind_malformed (hform : certOk cert = false) : u.finishBind cert key = (u, .badFrame) := by
  rw [finishBind_cases, if_pos hform]

variable (hform : certOk cert = true)

include hform

theorem finishBind_unsigned (hsigned : u.certSigned cert = false) : u.finishBind cert key = (u.bump .kpr 0 0x04 1, .signatureInvalid) := by
  simp only [finishBind_cases, hform, hsigned, Bool.true_eq_false, if_false, if_true]

variable (hsigned : u.certSigned cert = true)

include hsigned

theorem finishBind_foreign (hdev : certDevice cert = none) : u.finishBind cert key = (u, .notBound) := by
  simp only [finishBind_cases, hform, hsigned, hdev, Bool.true_eq_false, if_false]

variable {n : Nat} (hdev : certDevice cert = some n)

include hdev

theorem finishBind_shut (hshut : ∀ priv, ¬opensTo cert key priv) : u.finishBind cert key = (u, .digestMismatch) := by
  simp only [finishBind_cases, hform, hsigned, hdev, Bool.true_eq_false, if_false]
  by_cases hlen : key.length = 129
  · cases hkey : Config.unwrap key with
    | none => simp only [hlen, if_true]
    | some priv =>
      have hmatch : Config.keyMatches cert priv = false := by
        by_contra h
        exact hshut priv ⟨hlen, hkey, Bool.not_eq_false _ ▸ h⟩
      simp only [hlen, if_true, hmatch, Bool.not_false]
  · simp only [hlen, if_false]

/-- A key that opens: a set that is bound already is kept, and a new one takes one of 16 places. -/
theorem finishBind_opened {priv : Bytes} (hopen : opensTo cert key priv) :
    u.finishBind cert key = if u.keeper.sets.any (fun b => b.setId == Config.sm3 cert) then (u, .ok)
      else if 16 ≤ u.keeper.sets.length then (u, .noResource)
      else (u.setKeeper { u.keeper with sets := u.keeper.sets ++ [boundSetOf cert priv n] }, .ok) := by
  obtain ⟨hlen, hkey, hmatch⟩ := hopen
  simp only [finishBind_cases, hform, hsigned, hdev, hlen, hkey, hmatch, Bool.true_eq_false, if_false, if_true, Bool.not_true, Bool.false_eq_true]
  rfl

end Finish

/-! ## The messages -/

/-- A BIND_SET frame is in its form. -/
def bindForm (pl : Bytes) : Prop := 8 ≤ pl.length ∧ beAt pl 0 1 < 4 ∧ beAt pl 1 1 ≤ 1 ∧ beAt pl 2 2 = 0 ∧ (pl.drop 8).length ≤ 4080

/-- The BIND_SET that a frame continues: a new one with FIRST, the open one without. -/
def State.bindJob (s : State) (c : Ctx) (pl : Bytes) : Option BindJob :=
  if beAt pl 0 1 % 2 = 1 then some { sess := c.sess, cert := [], key := [], part := 0 } else s.keeper.bind

/-- The state without an open BIND_SET. -/
def State.bindEnded (s : State) (m : State) : State := m.setKeeper { s.keeper with bind := none }

section Frames

variable {s : State} {c : Ctx} {pl : Bytes} (h : s.accepts c 0x0802 .keeper true)

theorem bindForm_iff (pl : Bytes) : (decide (pl.length < 8) || decide (4 ≤ beAt pl 0 1) || decide (1 < beAt pl 1 1) || beAt pl 2 2 != 0 ||
    decide (4080 < (pl.drop 8).length)) = false ↔ bindForm pl := by
  simp only [bindForm, Bool.or_eq_false_iff, bne_eq_false_iff_eq, decide_eq_false_iff_not, Nat.not_lt, Nat.not_le]
  tauto

include h

theorem exec_bindSet_bad (hbad : ¬bindForm pl) : exec (.bindSet c pl) s = .next ((s.freeMbox c 0x0802).reply c 0x0802 .badFrame []) := by
  show execBindSet c pl s = _
  have hform := Bool.not_eq_false _ ▸ (not_congr (bindForm_iff pl)).mpr hbad
  simp only [execBindSet, serve_accepted h, hform, if_true, State.answer]

variable (hgood : bindForm pl)

include hgood

theorem exec_bindSet_busy {j : BindJob} (hj : s.keeper.bind = some j) (hsess : j.sess ≠ c.sess) :
    exec (.bindSet c pl) s = .next ((s.freeMbox c 0x0802).reply c 0x0802 .notPermitted []) := by
  show execBindSet c pl s = _
  simp only [execBindSet, serve_accepted h, (bindForm_iff pl).mpr hgood, freeMbox_keeper_eq, hj, Option.any_some, bne_iff_ne.mpr hsess, Bool.false_eq_true,
    if_false, if_true, State.answer]

variable (hown : ∀ j, s.keeper.bind = some j → j.sess = c.sess)

include hown

/-- A frame of the session that the open BIND_SET belongs to, or of any where none is open. -/
theorem exec_bindSet_taken : exec (.bindSet c pl) s =
    match (s.bindJob c pl).bind (fun j => j.take (beAt pl 1 1) (beAt pl 4 4) (pl.drop 8)) with
    | none => .next ((s.bindEnded (s.freeMbox c 0x0802)).reply c 0x0802 .badFrame [])
    | some j =>
      if beAt pl 0 1 / 2 % 2 = 0 then .next (((s.freeMbox c 0x0802).setKeeper { s.keeper with bind := some j }).reply c 0x0802 .ok [])
      else .next (((s.bindEnded (s.freeMbox c 0x0802)).finishBind j.cert j.key).1.reply c 0x0802
        ((s.bindEnded (s.freeMbox c 0x0802)).finishBind j.cert j.key).2 []) := by
  have hfree : s.keeper.bind.any (fun j => j.sess != c.sess) = false := by
    rw [Option.any_eq_false]
    exact fun j hj => by simp [hown j hj]
  show execBindSet c pl s = _
  simp only [execBindSet, serve_accepted h, (bindForm_iff pl).mpr hgood, freeMbox_keeper_eq, hfree, Bool.false_eq_true, if_false, State.answer]
  rfl

end Frames

/-- Settles O55: a message by what `BindJob.take` makes of it, the last one by the checks of `finishBind` in their order. -/
theorem deviceSetsAreBound : Obligations.DeviceSetsAreBound := by
  refine ⟨fun s c pl h => ⟨fun hbad => exec_bindSet_bad h hbad, fun j hgood hj hsess => exec_bindSet_busy h hgood hj hsess,
    fun hgood hown hastray => ?_, fun j hgood hown hj hfollows => ?_⟩, fun s hopen => ?_⟩
  · obtain ⟨_, _, hpart, _⟩ := id hgood
    have hnone : (s.bindJob c pl).bind (fun j => j.take (beAt pl 1 1) (beAt pl 4 4) (pl.drop 8)) = none := by
      rcases hastray with hj | ⟨j, hj, hnot⟩
      · rw [show s.bindJob c pl = none from hj, Option.bind_none]
      · rw [show s.bindJob c pl = some j from hj, Option.bind_some, take_follows j _ _ _ hpart]
        exact if_neg hnot
    rw [exec_bindSet_taken h hgood hown, hnone]
    rfl
  · obtain ⟨_, _, hpart, _⟩ := id hgood
    have hexec := exec_bindSet_taken h hgood hown
    rw [show s.bindJob c pl = some j from hj, Option.bind_some, take_follows j _ _ _ hpart, if_pos hfollows] at hexec
    refine ⟨fun hmore => hexec.trans (if_pos hmore), fun hlast => ?_⟩
    replace hexec := hexec.trans (if_neg (by omega))
    intro cert key n form signed mine opens id
    have hform : certOk cert = decide form := certOk_iff cert
    have hsigned : (s.bindEnded (s.freeMbox c 0x0802)).certSigned cert = true ↔ signed := certSigned_iff _ cert
    refine ⟨fun hno => ?_, fun hyes hno => ?_, fun hyes hsig hnone => ?_, fun k hyes hsig hk hmine hfirst => ⟨fun hshut => ?_, fun priv hopen => ?_⟩⟩
    · rw [finishBind_malformed (hform.trans (decide_eq_false hno))] at hexec
      exact hexec
    · rw [finishBind_unsigned (hform.trans (decide_eq_true hyes)) (Bool.not_eq_true _ ▸ (not_congr hsigned).mpr hno)] at hexec
      exact hexec
    · rw [finishBind_foreign (hform.trans (decide_eq_true hyes)) (hsigned.mpr hsig) (certDevice_none _ hnone)] at hexec
      exact hexec
    · rw [finishBind_shut (hform.trans (decide_eq_true hyes)) (hsigned.mpr hsig) (certDevice_some _ k hk hmine hfirst) hshut] at hexec
      exact hexec
    · rw [finishBind_opened (hform.trans (decide_eq_true hyes)) (hsigned.mpr hsig) (certDevice_some _ k hk hmine hfirst) hopen] at hexec
      have hbound : (s.bindEnded (s.freeMbox c 0x0802)).keeper.sets = s.keeper.sets := rfl
      rw [hbound] at hexec
      refine ⟨fun hthere => ?_, fun hnew hfull => ?_, fun hnew hroom => ?_⟩
      · rw [if_pos (by simpa using hthere)] at hexec
        exact hexec
      · rw [if_neg (by simpa using hnew), if_pos hfull] at hexec
        exact hexec
      · rw [if_neg (by simpa using hnew), if_neg (by omega)] at hexec
        exact hexec
  · show execBindSetTimeout s = _
    simp [execBindSetTimeout, require, Option.isSome_iff_ne_none, hopen]

end Sys2Proof.Machine
end

section
/-!
PROOFS. CREATE_PARTITION, SET_ENDPOINT and RESIZE_PARTITION.
-/
namespace Sys2Proof.Machine

open Sys2Proof

/-! ## What the checks of the payloads rule out (Table 7) -/

theorem endpointBad_eq_false (e : Nat × Nat × Nat × Nat) : endpointBad e = false ↔ e.1 / 2 ^ 40 % 2 = 0 ∧ e.2.1 ≤ 4094 := by
  simp [endpointBad]

theorem keyOk_iff (k : Bytes) : keyOk k = true ↔ k.length = 65 ∧ k.headD 0#8 = 4#8 ∧ Config.onCurve k = true := by
  simp [keyOk, and_assoc]

theorem createBad_eq_false (pl : Bytes) : createBad pl = false ↔
    pl.length = 132 ∧ beAt pl 0 1 ≤ 127 ∧ beAt pl 1 1 ≤ 7 ∧ beAt pl 2 2 = 0 ∧ quadsOf (slice pl 4 16) ≠ [] ∧ 1 ≤ beAt pl 20 2 ∧ beAt pl 20 2 ≤ 984 ∧
      beAt pl 22 2 ≤ 225 ∧ beAt pl 24 4 ≤ 1048576 ∧ beAt pl 28 6 / 2 ^ 40 % 2 = 0 ∧ beAt pl 34 2 ≤ 4094 ∧ beAt pl 56 1 ≤ 1 ∧ beAt pl 57 7 = 0 ∧
      beAt pl 129 3 = 0 ∧
      (if beAt pl 56 1 = 1 then (slice pl 64 65).length = 65 ∧ (slice pl 64 65).headD 0#8 = 4#8 ∧ Config.onCurve (slice pl 64 65) = true
        else (slice pl 64 65).all (· == 0#8) = true) := by
  have hkey : (if beAt pl 56 1 = 1 then !keyOk (slice pl 64 65) else !allZero (slice pl 64 65)) = false ↔
      (if beAt pl 56 1 = 1 then (slice pl 64 65).length = 65 ∧ (slice pl 64 65).headD 0#8 = 4#8 ∧ Config.onCurve (slice pl 64 65) = true
        else (slice pl 64 65).all (· == 0#8) = true) := by
    split
    · rw [Bool.not_eq_false', keyOk_iff]
    · rw [Bool.not_eq_false']; rfl
  rw [createBad, ← hkey]
  simp only [Bool.or_eq_false_iff, endpointBad_eq_false, within, bne_eq_false_iff_eq, Bool.not_eq_false', List.isEmpty_eq_false_iff, Bool.and_eq_true,
    decide_eq_true_eq, endpointAt, Nat.zero_le, true_and]
  tauto

theorem resizeBad_eq_false (pl : Bytes) : resizeBad pl = false ↔
    pl.length = 28 ∧ beAt pl 0 1 ≤ 127 ∧ beAt pl 1 1 ≤ 7 ∧ beAt pl 2 1 < 16 ∧ beAt pl 3 1 = 0 ∧ (beAt pl 2 1 % 2 = 1 → quadsOf (slice pl 4 16) ≠ []) ∧
      beAt pl 20 2 ≤ 984 ∧ (beAt pl 2 1 / 2 % 2 = 1 → beAt pl 20 2 ≠ 0) ∧ beAt pl 22 2 ≤ 225 ∧ beAt pl 24 4 ≤ 1048576 := by
  simp only [resizeBad, Bool.or_eq_false_iff, within, bne_eq_false_iff_eq, Bool.not_eq_false', Bool.and_eq_true, decide_eq_true_eq, decide_eq_false_iff_not,
    Bool.and_eq_false_imp, beq_iff_eq, beq_eq_false_iff_ne, List.isEmpty_eq_false_iff, Nat.zero_le, true_and, Nat.not_le, Nat.not_lt]
  tauto

/-- The header of a frame names another partition than its payload (R485). -/
def misnamed (c : Ctx) (pl : Bytes) : Bool := c.part != 0xFFFF && c.part != beAt pl 0 1

theorem misnamed_eq_false (c : Ctx) (pl : Bytes) : misnamed c pl = false ↔ c.part = 0xFFFF ∨ c.part = beAt pl 0 1 := by
  simp [misnamed, Decidable.or_iff_not_imp_left]

/-! ## CREATE_PARTITION (R418) -/

/-- What a partition to be created needs is not free. -/
def State.createLacks (s : State) (pl : Bytes) : Bool :=
  (quadsOf (slice pl 4 16)).any (fun q => !s.quadFree q) || decide (s.freeDram.length < beAt pl 20 2) ||
    decide (s.freeNand.length < beAt pl 22 2) || decide (1048576 < s.quotaTaken (beAt pl 0 1) + beAt pl 24 4)

theorem createLacks_iff (s : State) (pl : Bytes) : s.createLacks pl = true ↔
    (∃ q ∈ quadsOf (slice pl 4 16), s.quadFree q = false) ∨ s.freeDram.length < beAt pl 20 2 ∨ s.freeNand.length < beAt pl 22 2 ∨
      1048576 < s.quotaTaken (beAt pl 0 1) + beAt pl 24 4 := by
  simp [State.createLacks, or_assoc]

theorem createLacks_mbox (s : State) (c : Ctx) (op : Nat) (pl : Bytes) : (s.freeMbox c op).createLacks pl = s.createLacks pl :=
  freeMbox_field (fun x : State => x.createLacks pl) (fun _ _ => rfl) s c op

/-- The partition that CREATE_PARTITION makes exists, or one of its addresses is in use. -/
def State.createUsed (s : State) (pl : Bytes) : Bool := (s.part (beAt pl 0 1)).isSome || s.addressUsed (beAt pl 0 1) (endpointAt pl 28)

theorem createUsed_mbox (s : State) (c : Ctx) (op : Nat) (pl : Bytes) : (s.freeMbox c op).createUsed pl = s.createUsed pl :=
  freeMbox_field (fun x : State => x.createUsed pl) (fun _ _ => rfl) s c op

theorem exec_createPartition {s : State} {c : Ctx} (h : s.accepts c 0x0501 .firmware true) (pl : Bytes) :
    exec (.createPartition c pl) s =
      if misnamed c pl || createBad pl then .next ((s.freeMbox c 0x0501).reply c 0x0501 .badFrame [])
      else if s.createUsed pl then .next ((s.freeMbox c 0x0501).reply c 0x0501 .notPermitted [])
      else if s.createLacks pl then .next ((s.freeMbox c 0x0501).reply c 0x0501 .noResource [])
      else .next (((s.freeMbox c 0x0501).createPart (beAt pl 0 1) pl).reply c 0x0501 .ok []) := by
  rw [← createUsed_mbox s c 0x0501, ← createLacks_mbox s c 0x0501]
  show execCreatePartition c pl s = _
  simp only [execCreatePartition, serve_accepted h, State.answer]
  rfl

/-- The registers of a partition before CREATE_PARTITION writes its two fields. -/
def State.createRegs (s : State) (p : Nat) (pl : Bytes) : State :=
  ((s.takeKept (s.freeNand.take (beAt pl 22 2))).1.resetPartRegs p).resetRegs .part p

theorem createRegs_frame (s : State) (p : Nat) (pl : Bytes) :
    (((s.createRegs p pl).setRegs s.regs).setNand s.nand).setMem { (s.createRegs p pl).mem with nand := s.mem.nand } = s := by
  obtain ⟨k, hk⟩ : ∃ k, (s.takeKept (s.freeNand.take (beAt pl 22 2))).1 = k := ⟨_, rfl⟩
  have hkept := takeKept_frame s (s.freeNand.take (beAt pl 22 2))
  have hregs := resetPartRegs_frame k p
  unfold State.createRegs
  rw [hk] at hkept ⊢
  calc (((((k.resetPartRegs p).resetRegs .part p).setRegs s.regs).setNand s.nand).setMem
          { ((k.resetPartRegs p).resetRegs .part p).mem with nand := s.mem.nand } : State)
      = ((((k.resetPartRegs p).setRegs k.regs).setRegs s.regs).setNand s.nand).setMem
          { ((k.resetPartRegs p).setRegs k.regs).mem with nand := s.mem.nand } := rfl
    _ = ((k.setRegs s.regs).setNand s.nand).setMem { k.mem with nand := s.mem.nand } := by rw [hregs]
    _ = (((k.setNand s.nand).setMem { k.mem with nand := s.mem.nand }).setRegs s.regs) := rfl
    _ = s := by rw [hkept]; rfl

theorem createRegs_find (s : State) (p : Nat) (pl : Bytes) {b : Blk} (hb : b = Blk.part ∨ b ∈ partBlocks) {a : Nat} (hlo : b.at p 0 ≤ a)
    (hhi : a < b.at (p + 1) 0) : NMap.find (s.createRegs p pl).regs a = none := by
  unfold State.createRegs
  rw [resetRegs_find]
  rcases hb with rfl | hb
  · rw [if_pos ⟨hlo, hhi⟩]
  · split
    · rfl
    · exact (resetRegs_folded p a partBlocks _).1 ⟨b, hb, hlo, hhi⟩

theorem putField_find_ne (s : State) (b : Blk) (k off hi lo v : Nat) {a : Nat} (h : a ≠ b.at k off) :
    NMap.find (s.putField b k off hi lo v).regs a = NMap.find s.regs a := NMap.find_insert_ne _ _ h

/-- The partition that CREATE_PARTITION makes. -/
def State.newPart (s : State) (pl : Bytes) : Part :=
  { Part.created s.now with
    cls := beAt pl 1 1, quads := quadsOf (slice pl 4 16), dram := s.freeDram.take (beAt pl 20 2), nand := s.freeNand.take (beAt pl 22 2),
    mac := beAt pl 28 6, vid := beAt pl 34 2, ip4 := beAt pl 36 4, ip6 := beAt pl 40 16,
    ownerKey := if beAt pl 56 1 = 1 then some (slice pl 64 65) else none, shards := (s.takeKept (s.freeNand.take (beAt pl 22 2))).2 }

theorem createPart_eq (s : State) (p : Nat) (pl : Bytes) : s.createPart p pl =
    (((s.createRegs p pl).putField .gz p 0 20 0 (beAt pl 24 4)).putField .grat p 0 24 16 (4 * (quadsOf (slice pl 4 16)).headD 0)).putPart p (s.newPart pl) := rfl

theorem firstQuad_lt (bs : Bytes) : (quadsOf bs).headD 0 < 128 := by
  cases hq : quadsOf bs with
  | nil => decide
  | cons q qs =>
    have hmem : q ∈ quadsOf bs := hq ▸ List.mem_cons_self ..
    exact List.mem_range.mp (List.mem_of_mem_filter hmem)

/-- A state whose registers, NAND tier and NAND bytes alone differ from another's. -/
theorem sharesRest_field {α : Type} (f : State → α) (hregs : ∀ (s : State) r, f (s.setRegs r) = f s) (hnand : ∀ (s : State) n, f (s.setNand n) = f s)
    (hmem : ∀ (s : State) x, f (s.setMem { s.mem with nand := x }) = f s) {s r : State}
    (h : ((r.setRegs s.regs).setNand s.nand).setMem { r.mem with nand := s.mem.nand } = s) : f r = f s := by
  have hleft := (hmem ((r.setRegs s.regs).setNand s.nand) s.mem.nand).trans ((hnand _ _).trans (hregs r s.regs))
  exact hleft.symm.trans (congrArg f h)

/-- What CREATE_PARTITION leaves of the state that it starts from. -/
theorem createPart_field {α : Type} (f : State → α) (hregs : ∀ (s : State) r, f (s.setRegs r) = f s) (hnand : ∀ (s : State) n, f (s.setNand n) = f s)
    (hmem : ∀ (s : State) x, f (s.setMem { s.mem with nand := x }) = f s) (hparts : ∀ (s : State) v, f (s.setParts v) = f s) (s : State) (p : Nat) (pl : Bytes) :
    f (s.createPart p pl) = f s := by
  have hrest := sharesRest_field f hregs hnand hmem (createRegs_frame s p pl)
  rw [createPart_eq]
  generalize s.createRegs p pl = r at hrest ⊢
  exact ((hparts _ _).trans ((hregs _ _).trans (hregs r _))).trans hrest

theorem createRegs_part (s : State) (p : Nat) (pl : Bytes) (q : Nat) : (s.createRegs p pl).part q = s.part q :=
  sharesRest_field (fun x : State => x.part q) (fun _ _ => rfl) (fun _ _ => rfl) (fun _ _ => rfl) (createRegs_frame s p pl)

theorem createPart_part_ne (s : State) {p q : Nat} (pl : Bytes) (h : q ≠ p) : (s.createPart p pl).part q = s.part q := by
  have hregs := createRegs_part s p pl q
  rw [createPart_eq, State.part_putPart_ne _ _ h]
  generalize s.createRegs p pl = r at hregs ⊢
  exact hregs

theorem createPart_part_self (s : State) (p : Nat) (pl : Bytes) : (s.createPart p pl).part p = some (s.newPart pl) := by
  rw [createPart_eq, State.part_putPart_self]

theorem putField_field_putField (s : State) (p v w : Nat) (hp : p ≤ 127) (hv : v ≤ 1048576) :
    (((s.putField .gz p 0 20 0 v).putField .grat p 0 24 16 w).reg .gz p 0).field 20 0 = v := by
  have hplace : Blk.at .gz p 0 ≠ Blk.at .grat p 0 := by simp only [Blk.at, Blk.place]; omega
  have hreg : ((s.putField .gz p 0 20 0 v).putField .grat p 0 24 16 w).reg .gz p 0 = (s.putField .gz p 0 20 0 v).reg .gz p 0 :=
    State.rawReg_putReg_ne _ .grat p 0 _ hplace
  rw [hreg]
  exact putField_field _ _ _ _ _ _ _ (by decide) (by decide) (by omega)

theorem createPart_quota (s : State) {p : Nat} (pl : Bytes) (hp : p ≤ 127) (hquota : beAt pl 24 4 ≤ 1048576) :
    ((s.createPart p pl).reg .gz p 0).field 20 0 = beAt pl 24 4 := by
  rw [createPart_eq]
  generalize s.createRegs p pl = r
  exact putField_field_putField r p _ _ hp hquota

theorem createPart_origin (s : State) (p : Nat) (pl : Bytes) :
    ((s.createPart p pl).reg .grat p 0).field 24 16 = 4 * (quadsOf (slice pl 4 16)).headD 0 := by
  have hq := firstQuad_lt (slice pl 4 16)
  rw [createPart_eq]
  generalize s.createRegs p pl = r
  generalize (quadsOf (slice pl 4 16)).headD 0 = q at hq ⊢
  exact putField_field (r.putField .gz p 0 20 0 (beAt pl 24 4)) .grat p 0 24 16 (4 * q) (by decide) (by decide) (by omega)

theorem createPart_find (s : State) (p : Nat) (pl : Bytes) {b : Blk} (hb : b = Blk.part ∨ b ∈ partBlocks) {a : Nat} (hlo : b.at p 0 ≤ a)
    (hhi : a < b.at (p + 1) 0) (hgz : a ≠ Blk.at .gz p 0) (hgrat : a ≠ Blk.at .grat p 0) : NMap.find (s.createPart p pl).regs a = none := by
  have hreset := createRegs_find s p pl hb hlo hhi
  rw [createPart_eq]
  generalize s.createRegs p pl = r at hreset ⊢
  exact (putField_find_ne _ _ _ _ _ _ _ hgrat).trans ((putField_find_ne _ _ _ _ _ _ _ hgz).trans hreset)

/-! ## SET_ENDPOINT (R418) -/

theorem exec_setEndpoint_absent {s : State} {c : Ctx} (h : s.accepts c 0x0505 .firmware true) (pl : Bytes) (hp : s.part c.part = none) :
    exec (.setEndpoint c pl) s = .next ((s.freeMbox c 0x0505).reply c 0x0505 .notPermitted []) := by
  show execSetEndpoint c pl s = _
  simp only [execSetEndpoint, serve_accepted h, freeMbox_part_eq, hp, State.answer]

theorem exec_setEndpoint {s : State} {c : Ctx} {pt : Part} (h : s.accepts c 0x0505 .firmware true) (pl : Bytes) (hp : s.part c.part = some pt) :
    exec (.setEndpoint c pl) s =
      if pt.resetting.isSome then .next ((s.freeMbox c 0x0505).reply c 0x0505 .busyRecovery [])
      else if pl.length != 28 || endpointBad (endpointAt pl 0) then .next ((s.freeMbox c 0x0505).reply c 0x0505 .badFrame [])
      else if s.addressUsed c.part (endpointAt pl 0) then .next ((s.freeMbox c 0x0505).reply c 0x0505 .notPermitted [])
      else .next (((s.freeMbox c 0x0505).modPart c.part
        (fun pt => { pt with mac := beAt pl 0 6, vid := beAt pl 6 2, ip4 := beAt pl 8 4, ip6 := beAt pl 12 16 })).reply c 0x0505 .ok []) := by
  show execSetEndpoint c pl s = _
  simp only [execSetEndpoint, serve_accepted h, freeMbox_part_eq, hp, State.answer, addressUsed_mbox]
  rfl

theorem endpoint_good_iff (pl : Bytes) : (pl.length != 28 || endpointBad (endpointAt pl 0)) = false ↔
    pl.length = 28 ∧ beAt pl 0 6 / 2 ^ 40 % 2 = 0 ∧ beAt pl 6 2 ≤ 4094 := by
  rw [Bool.or_eq_false_iff, endpointBad_eq_false, bne_eq_false_iff_eq]
  rfl


/-! ## RESIZE_PARTITION (R419) -/

/-- The state without what a staged resize of a partition has reserved. -/
def State.resizeFreed (s : State) (p : Nat) : State := s.modPart p (fun pt => { pt with staged := { pt.staged with resize := none } })

/-- What a resize adds is not free. -/
def State.resizeLacks (s : State) (pt : Part) (pl : Bytes) : Bool :=
  (beAt pl 2 1 % 2 == 1 && (quadsOf (slice pl 4 16)).any (fun q => !pt.quads.contains q && !s.quadFree q)) ||
    (beAt pl 2 1 / 2 % 2 == 1 && (decide (pt.dram.length + s.freeDram.length < beAt pl 20 2) || decide (pt.nand.length + s.freeNand.length < beAt pl 22 2))) ||
    (beAt pl 2 1 / 8 % 2 == 1 && decide (1048576 < s.quotaTaken (beAt pl 0 1) + max (s.gzQuota (beAt pl 0 1)) (beAt pl 24 4)))

theorem resizeLacks_iff (s : State) (pt : Part) (pl : Bytes) : s.resizeLacks pt pl = true ↔
    (beAt pl 2 1 % 2 = 1 ∧ ∃ q ∈ quadsOf (slice pl 4 16), q ∉ pt.quads ∧ s.quadFree q = false) ∨
      (beAt pl 2 1 / 2 % 2 = 1 ∧ (pt.dram.length + s.freeDram.length < beAt pl 20 2 ∨ pt.nand.length + s.freeNand.length < beAt pl 22 2)) ∨
      (beAt pl 2 1 / 8 % 2 = 1 ∧ 1048576 < s.quotaTaken (beAt pl 0 1) + max (s.gzQuota (beAt pl 0 1)) (beAt pl 24 4)) := by
  simp only [State.resizeLacks, Bool.or_eq_true, Bool.and_eq_true, beq_iff_eq, decide_eq_true_eq, List.any_eq_true, Bool.not_eq_true',
    List.contains_eq_mem, decide_eq_false_iff_not, or_assoc]

/-- A resize that is accepted, with what it takes of the extents that are free. -/
def State.newResize (s : State) (c : Ctx) (pt : Part) (pl : Bytes) : Resize :=
  { ctx := c, flags := beAt pl 2 1, cls := beAt pl 1 1, quads := quadsOf (slice pl 4 16), dram := extentsAt pt.dram s.freeDram (beAt pl 20 2),
    nand := extentsAt pt.nand s.freeNand (beAt pl 22 2), quota := beAt pl 24 4 }

/-- The frame of a staged resize that another one takes the place of is answered. -/
def State.replaceResize (s : State) : Option Resize → State
  | some old => s.settle old.ctx 0x0502 .ok []
  | none => s

theorem exec_resizePartition_misnamed {s : State} {c : Ctx} {pl : Bytes} (h : s.accepts c 0x0502 .firmware true) (hname : misnamed c pl = true) :
    exec (.resizePartition c pl) s = .next ((s.freeMbox c 0x0502).reply c 0x0502 .badFrame []) := by
  unfold misnamed at hname
  show execResizePartition c pl s = _
  simp only [execResizePartition, serve_accepted h, State.answer, hname, if_true]

theorem exec_resizePartition_absent {s : State} {c : Ctx} {pl : Bytes} (h : s.accepts c 0x0502 .firmware true) (hname : misnamed c pl = false)
    (hp : s.part (beAt pl 0 1) = none) :
    exec (.resizePartition c pl) s = .next ((s.freeMbox c 0x0502).reply c 0x0502 (if resizeBad pl then .badFrame else .notPermitted) []) := by
  unfold misnamed at hname
  show execResizePartition c pl s = _
  simp only [execResizePartition, serve_accepted h, State.answer, hname, State.part_modPart_self, freeMbox_part_eq, hp, Option.map_none]
  rfl

theorem exec_resizePartition {s : State} {c : Ctx} {pl : Bytes} {pt : Part} (h : s.accepts c 0x0502 .firmware true) (hname : misnamed c pl = false)
    (hp : s.part (beAt pl 0 1) = some pt) :
    let m := s.freeMbox c 0x0502
    let f := m.resizeFreed (beAt pl 0 1)
    exec (.resizePartition c pl) s =
      if pt.resetting.isSome then .next (m.reply c 0x0502 .busyRecovery [])
      else if resizeBad pl then .next (m.reply c 0x0502 .badFrame [])
      else if f.resizeLacks pt pl then .next (m.reply c 0x0502 .noResource [])
      else if pt.resizeRefused (beAt pl 2 1) (quadsOf (slice pl 4 16)) (beAt pl 20 2) (beAt pl 22 2) then .next (m.reply c 0x0502 .notPermitted [])
      else .next (((m.replaceResize pt.staged.resize).owe c 0x0502).modPart (beAt pl 0 1)
        (fun v => { v with staged := { v.staged with resize := some (f.newResize c pt pl) } })) := by
  intro m f
  unfold misnamed at hname
  show execResizePartition c pl s = _
  simp only [execResizePartition, serve_accepted h, State.answer, hname, State.part_modPart_self, freeMbox_part_eq, hp, Option.map_some, Option.bind_some,
    Bool.false_eq_true, if_false]
  cases pt.staged.resize <;> rfl

theorem replaceResize_part (s : State) (o : Option Resize) (q : Nat) : (s.replaceResize o).part q = s.part q := by
  cases o with
  | none => rfl
  | some r => exact settle_part _ _ _ _ _ _

/-! ## Partitions are made -/

theorem createUsed_iff (s : State) (pl : Bytes) : s.createUsed pl = true ↔
    (s.part (beAt pl 0 1)).isSome = true ∨ s.addressUsed (beAt pl 0 1) (endpointAt pl 28) = true := by
  rw [State.createUsed, Bool.or_eq_true]

theorem createPartition_settled {s : State} {c : Ctx} (h : s.accepts c 0x0501 .firmware true) (pl : Bytes) :
    let m := s.freeMbox c 0x0501
    let answers := fun (st : Status) => exec (.createPartition c pl) s = .next (m.reply c 0x0501 st [])
    (¬(misnamed c pl = false ∧ createBad pl = false) → answers .badFrame) ∧
    (misnamed c pl = false → createBad pl = false → s.createUsed pl = true → answers .notPermitted) ∧
    (misnamed c pl = false → createBad pl = false → ¬s.createUsed pl = true → s.createLacks pl = true → answers .noResource) ∧
    (misnamed c pl = false → createBad pl = false → ¬s.createUsed pl = true → ¬s.createLacks pl = true →
      exec (.createPartition c pl) s = .next ((m.createPart (beAt pl 0 1) pl).reply c 0x0501 .ok [])) := by
  intro m answers
  have hx := exec_createPartition h pl
  refine ⟨fun hbad => ?_, fun hn hg hu => ?_, fun hn hg hu hl => ?_, fun hn hg hu hl => ?_⟩
  · refine hx.trans (if_pos ?_)
    rwa [← Bool.or_eq_false_iff, Bool.not_eq_false] at hbad
  all_goals rw [hn, hg, Bool.or_false, if_neg Bool.false_ne_true] at hx
  · exact hx.trans (if_pos hu)
  · exact hx.trans ((if_neg hu).trans (if_pos hl))
  · exact hx.trans ((if_neg hu).trans (if_neg hl))

theorem setEndpoint_settled {s : State} {c : Ctx} {pt : Part} (h : s.accepts c 0x0505 .firmware true) (pl : Bytes) (hp : s.part c.part = some pt) :
    let m := s.freeMbox c 0x0505
    let answers := fun (st : Status) => exec (.setEndpoint c pl) s = .next (m.reply c 0x0505 st [])
    let good := pl.length = 28 ∧ beAt pl 0 6 / 2 ^ 40 % 2 = 0 ∧ beAt pl 6 2 ≤ 4094
    (pt.resetting ≠ none → answers .busyRecovery) ∧ (pt.resetting = none → ¬good → answers .badFrame) ∧
    (pt.resetting = none → good → s.addressUsed c.part (endpointAt pl 0) = true → answers .notPermitted) ∧
    (pt.resetting = none → good → s.addressUsed c.part (endpointAt pl 0) = false → ∃ u : State, onlyPart m u c.part ∧
      u.part c.part = some { pt with mac := beAt pl 0 6, vid := beAt pl 6 2, ip4 := beAt pl 8 4, ip6 := beAt pl 12 16 } ∧
      exec (.setEndpoint c pl) s = .next (u.reply c 0x0505 .ok [])) := by
  intro m answers good
  have hx := exec_setEndpoint h pl hp
  refine ⟨fun hr => hx.trans (if_pos (Option.isSome_iff_ne_none.mpr hr)), fun hr hg => ?_, fun hr hg hu => ?_, fun hr hg hu => ?_⟩
  all_goals rw [hr, Option.isSome_none, if_neg Bool.false_ne_true] at hx
  · exact hx.trans (if_pos (eq_true_of_ne_false (mt (endpoint_good_iff pl).mp hg)))
  all_goals rw [(endpoint_good_iff pl).mpr hg, if_neg Bool.false_ne_true] at hx
  · exact hx.trans (if_pos hu)
  · rw [hu, if_neg Bool.false_ne_true] at hx
    exact ⟨_, onlyPart_modPart _ _ _, part_of_modPart _ ((freeMbox_part_eq s c 0x0505 c.part).trans hp), hx⟩

theorem resizePartition_settled {s : State} {c : Ctx} {pl : Bytes} {pt : Part} (h : s.accepts c 0x0502 .firmware true) (hname : misnamed c pl = false)
    (hp : s.part (beAt pl 0 1) = some pt) :
    let m := s.freeMbox c 0x0502
    let f := m.resizeFreed (beAt pl 0 1)
    let answers := fun (st : Status) => exec (.resizePartition c pl) s = .next (m.reply c 0x0502 st [])
    let barred := pt.resizeRefused (beAt pl 2 1) (quadsOf (slice pl 4 16)) (beAt pl 20 2) (beAt pl 22 2) = true
    (pt.resetting ≠ none → answers .busyRecovery) ∧ (pt.resetting = none → ¬(resizeBad pl = false) → answers .badFrame) ∧
    (pt.resetting = none → resizeBad pl = false → f.resizeLacks pt pl = true → answers .noResource) ∧
    (pt.resetting = none → resizeBad pl = false → ¬f.resizeLacks pt pl = true → barred → answers .notPermitted) ∧
    (pt.resetting = none → resizeBad pl = false → ¬f.resizeLacks pt pl = true → ¬barred →
      exec (.resizePartition c pl) s = .next (((m.replaceResize pt.staged.resize).owe c 0x0502).modPart (beAt pl 0 1)
        (fun v => { v with staged := { v.staged with resize := some (f.newResize c pt pl) } }))) := by
  intro m f answers barred
  have hx := exec_resizePartition h hname hp
  dsimp only at hx
  refine ⟨fun hr => hx.trans (if_pos (Option.isSome_iff_ne_none.mpr hr)), fun hr hg => ?_, fun hr hg hl => ?_, fun hr hg hl hb => ?_, fun hr hg hl hb => ?_⟩
  all_goals rw [hr, Option.isSome_none, if_neg Bool.false_ne_true] at hx
  · exact hx.trans (if_pos (eq_true_of_ne_false hg))
  all_goals rw [hg, if_neg Bool.false_ne_true] at hx
  · exact hx.trans (if_pos hl)
  · exact hx.trans ((if_neg hl).trans (if_pos hb))
  · exact hx.trans ((if_neg hl).trans (if_neg hb))

/-- Settles O56: the answers of the three operations, with the checks of their payloads in the form of Table 7. -/
theorem partitionsAreMade : Obligations.PartitionsAreMade := by
  refine ⟨fun s c pl h => ?_, fun s c pl pt h hp => ?_, fun s c pl h hp => exec_setEndpoint_absent h pl hp, fun s c pl h => ?_⟩
  · obtain ⟨hbad, hused, hlacks, hmade⟩ := createPartition_settled h pl
    rw [misnamed_eq_false, createBad_eq_false] at hbad hused hlacks hmade
    rw [createUsed_iff] at hused hlacks hmade
    rw [createLacks_iff] at hlacks hmade
    refine ⟨hbad, hused, hlacks, fun hn hg hu hl => ⟨_, (s.freeMbox c 0x0501).newPart pl, hmade hn hg hu hl, ?_⟩⟩
    have hnew : ∀ {α : Type} (f : State → α), (∀ (s : State) (l : Lesar), f (s.setLesar l) = f s) → f (s.freeMbox c 0x0501) = f s := fun f hf =>
      freeMbox_field f hf s c 0x0501
    obtain ⟨_, hp, _, _, _, _, _, _, hquota, _⟩ := hg
    refine ⟨createPart_part_self _ _ _, fun q hq => ?_,
      ⟨rfl, rfl, congrArg (List.take _) (hnew State.freeDram fun _ _ => rfl), congrArg (List.take _) (hnew State.freeNand fun _ _ => rfl), rfl, rfl⟩,
      ⟨rfl, rfl, rfl, rfl, rfl, rfl, rfl, rfl, rfl, rfl⟩,
      ⟨createPart_quota _ _ hp hquota, createPart_origin _ _ _, fun b hb a hlo hhi hgz hgrat => createPart_find _ _ _ hb hlo hhi hgz hgrat⟩, ?_⟩
    · exact (createPart_part_ne _ _ hq).trans (freeMbox_part_eq s c 0x0501 q)
    · have hkept : ∀ {α : Type} (f : State → α), (∀ (s : State) r, f (s.setRegs r) = f s) → (∀ (s : State) n, f (s.setNand n) = f s) →
          (∀ (s : State) x, f (s.setMem { s.mem with nand := x }) = f s) → (∀ (s : State) v, f (s.setParts v) = f s) →
          f ((s.freeMbox c 0x0501).createPart (beAt pl 0 1) pl) = f (s.freeMbox c 0x0501) := fun f h1 h2 h3 h4 => createPart_field f h1 h2 h3 h4 _ _ _
      exact ⟨(hkept (fun x => x.mem.dram) (fun _ _ => rfl) (fun _ _ => rfl) (fun _ _ => rfl) (fun _ _ => rfl)).trans (hnew (fun x => x.mem.dram) fun _ _ => rfl),
        (hkept (fun x => x.mem.scratch) (fun _ _ => rfl) (fun _ _ => rfl) (fun _ _ => rfl) (fun _ _ => rfl)).trans (hnew (fun x => x.mem.scratch) fun _ _ => rfl),
        (hkept State.tiles (fun _ _ => rfl) (fun _ _ => rfl) (fun _ _ => rfl) (fun _ _ => rfl)).trans (hnew State.tiles fun _ _ => rfl),
        (hkept State.keeper (fun _ _ => rfl) (fun _ _ => rfl) (fun _ _ => rfl) (fun _ _ => rfl)).trans (hnew State.keeper fun _ _ => rfl),
        hkept State.lesar (fun _ _ => rfl) (fun _ _ => rfl) (fun _ _ => rfl) (fun _ _ => rfl)⟩
  · exact setEndpoint_settled h pl hp
  · refine ⟨fun h1 h2 => ?_, fun hn hp => ?_, fun pt hn hp => ?_⟩
    · exact exec_resizePartition_misnamed h (by simp [misnamed, h1, h2])
    · have hx := exec_resizePartition_absent h ((misnamed_eq_false c pl).mpr hn) hp
      refine ⟨fun hg => ?_, fun hg => ?_⟩
      · rwa [eq_true_of_ne_false (mt (resizeBad_eq_false pl).mp hg), if_pos rfl] at hx
      · rwa [(resizeBad_eq_false pl).mpr hg, if_neg Bool.false_ne_true] at hx
    · obtain ⟨hreset, hbad, hlacks, hbarred, hmade⟩ := resizePartition_settled h ((misnamed_eq_false c pl).mpr hn) hp
      rw [resizeBad_eq_false] at hbad hlacks hbarred hmade
      rw [resizeLacks_iff] at hlacks hbarred hmade
      rw [resizeRefused_iff] at hbarred hmade
      refine ⟨hreset, hbad, hlacks, hbarred, fun hr hg hl hb => ⟨_, ((s.freeMbox c 0x0502).resizeFreed (beAt pl 0 1)).newResize c pt pl,
        ⟨rfl, rfl, rfl, rfl, rfl, rfl, rfl⟩, ?_, fun q hq => ?_, hmade hr hg hl hb, fun hnone => ?_, fun old hold => ?_⟩⟩
      · exact part_of_modPart _ ((owe_part _ _ _ _).trans ((replaceResize_part _ _ _).trans ((freeMbox_part_eq _ _ _ _).trans hp)))
      · exact (State.part_modPart_ne _ _ hq).trans ((owe_part _ _ _ _).trans ((replaceResize_part _ _ _).trans (freeMbox_part_eq _ _ _ _)))
      · rw [hnone]; exact onlyPart_modPart _ _ _
      · rw [hold]; exact onlyPart_modPart _ _ _

end Sys2Proof.Machine
end

section
/-!
PROOFS. The partition reset and the deletion of a partition.
-/
namespace Sys2Proof.Machine

open Sys2Proof

/-! ## RESET_PARTITION and DELETE_PARTITION (R420, R424) -/

/-- The sender of a partition reset: the device's owner or the partition's. -/
def State.mayReset (s : State) (c : Ctx) : Bool := s.isOwner c || s.role c == some .partOwner

theorem mayReset_iff (s : State) (c : Ctx) : s.mayReset c = true ↔ s.role c = some .devOwner ∨ s.role c = some .partOwner := by
  rw [State.mayReset, Bool.or_eq_true, State.isOwner, beq_iff_eq, beq_iff_eq]

theorem exec_resetPartition_absent {s : State} {c : Ctx} (h : s.accepts c 0x0503 .firmware false) (pl : Bytes) (hp : s.part c.part = none) :
    exec (.resetPartition c pl) s = .next ((s.freeMbox c 0x0503).reply c 0x0503 .notPermitted []) := by
  show execResetPartition c pl s = _
  simp only [execResetPartition, serve_accepted h, freeMbox_part_eq, hp, State.answer]

theorem exec_resetPartition {s : State} {c : Ctx} {pt : Part} (h : s.accepts c 0x0503 .firmware false) (pl : Bytes) (hp : s.part c.part = some pt) :
    exec (.resetPartition c pl) s =
      if !s.mayReset c || pt.resetting.isSome then .next ((s.freeMbox c 0x0503).reply c 0x0503 .notPermitted [])
      else if !pl.isEmpty then .next ((s.freeMbox c 0x0503).reply c 0x0503 .badFrame [])
      else .next (((s.freeMbox c 0x0503).owe c 0x0503).beginPartReset c.part pt c false) := by
  show execResetPartition c pl s = _
  simp only [execResetPartition, serve_accepted h, freeMbox_part_eq, hp, State.answer]
  rfl

theorem exec_deletePartition_absent {s : State} {c : Ctx} (h : s.accepts c 0x0504 .firmware true) (pl : Bytes) (hp : s.part c.part = none) :
    exec (.deletePartition c pl) s = .next ((s.freeMbox c 0x0504).reply c 0x0504 .notPermitted []) := by
  show execDeletePartition c pl s = _
  simp only [execDeletePartition, serve_accepted h, freeMbox_part_eq, hp, State.answer]

/-- The state that a deletion begins in: its frame stays in its mailbox and is owed an answer. -/
def State.owesDeletion (s : State) (c : Ctx) : State :=
  (s.freeMbox c 0x0504).setLesar
    { (s.freeMbox c 0x0504).lesar with mboxes := s.lesar.mboxes, owed := (s.freeMbox c 0x0504).lesar.owed ++ [{ ctx := c, opcode := 0x0504 }] }

theorem exec_deletePartition {s : State} {c : Ctx} {pt : Part} (h : s.accepts c 0x0504 .firmware true) (pl : Bytes) (hp : s.part c.part = some pt) :
    exec (.deletePartition c pl) s =
      if pt.resetting.isSome then .next ((s.freeMbox c 0x0504).reply c 0x0504 .busyRecovery [])
      else if !pl.isEmpty then .next ((s.freeMbox c 0x0504).reply c 0x0504 .badFrame [])
      else if pt.mstate != .empty then .next ((s.freeMbox c 0x0504).reply c 0x0504 .notPermitted [])
      else .next ((s.owesDeletion c).beginPartReset c.part pt c true) := by
  show execDeletePartition c pl s = _
  simp only [execDeletePartition, serve_accepted h, freeMbox_part_eq, hp, State.answer]
  rfl

/-- The reset of a partition begins in a state whose partitions, memories and tiles are those of `s`. -/
theorem beginPartReset_from {s t : State} {c : Ctx} {pt : Part} (d : Bool) (hp : s.part c.part = some pt) (hparts : ∀ q, t.part q = s.part q)
    (hmem : t.mem = s.mem) (htiles : t.tiles = s.tiles) :
    (t.beginPartReset c.part pt c d).part c.part =
        some { pt with resetting := some (c, d), staged := { pt.staged with resize := none, reset := some c } } ∧
      (∀ q, q ≠ c.part → (t.beginPartReset c.part pt c d).part q = s.part q) ∧ (t.beginPartReset c.part pt c d).mem = s.mem ∧
      (t.beginPartReset c.part pt c d).tiles = s.tiles := by
  obtain ⟨hself, hother, hmem', htiles'⟩ := beginPartReset_spec t c.part pt c d ((hparts _).trans hp)
  exact ⟨hself, fun q hq => (hother q hq).trans (hparts q), hmem'.trans hmem, htiles'.trans htiles⟩

theorem resetPartition_begins {s : State} {c : Ctx} {pt : Part} (h : s.accepts c 0x0503 .firmware false) (hp : s.part c.part = some pt)
    (hmay : s.mayReset c = true) (hr : pt.resetting = none) :
    completes (.resetPartition c []) s (fun t =>
      t.part c.part = some { pt with resetting := some (c, false), staged := { pt.staged with resize := none, reset := some c } } ∧
      (∀ q, q ≠ c.part → t.part q = s.part q) ∧ t.mem = s.mem ∧ t.tiles = s.tiles) := by
  have hx := exec_resetPartition h [] hp
  rw [hmay, hr] at hx
  have hkept : ∀ {α : Type} (f : State → α), (∀ s w : State, f (s.withReply w) = f s) → (∀ (s : State) (l : Lesar), f (s.setLesar l) = f s) →
      f ((s.freeMbox c 0x0503).owe c 0x0503) = f s := fun f hreply hlesar =>
    (owe_field f hreply hlesar _ c 0x0503).trans (freeMbox_field f hlesar s c 0x0503)
  exact ⟨_, hx, beginPartReset_from false hp (fun q => hkept (fun x => x.part q) (fun _ _ => rfl) fun _ _ => rfl)
    (hkept State.mem (fun _ _ => rfl) fun _ _ => rfl) (hkept State.tiles (fun _ _ => rfl) fun _ _ => rfl)⟩

theorem deletePartition_begins {s : State} {c : Ctx} {pt : Part} (h : s.accepts c 0x0504 .firmware true) (hp : s.part c.part = some pt)
    (hr : pt.resetting = none) (hempty : pt.mstate = .empty) :
    completes (.deletePartition c []) s (fun t =>
      t.part c.part = some { pt with resetting := some (c, true), staged := { pt.staged with resize := none, reset := some c } } ∧
      (∀ q, q ≠ c.part → t.part q = s.part q) ∧ t.mem = s.mem ∧ t.tiles = s.tiles) := by
  have hx := exec_deletePartition h [] hp
  rw [hr, hempty] at hx
  exact ⟨_, hx, beginPartReset_from true hp (fun q => freeMbox_part_eq s c 0x0504 q)
    (freeMbox_field State.mem (fun _ _ => rfl) s c 0x0504) (freeMbox_field State.tiles (fun _ _ => rfl) s c 0x0504)⟩

/-! ## The fill (R424) -/

/-- The filled state before the partition takes its place again. -/
def State.filled (s : State) (p : Nat) (pt : Part) : State := (pt.tiles.foldl State.tileLeaves (pt.dram.foldl State.clearExtent s)).resetPartRegs p

theorem partCleared_eq (s : State) (p : Nat) (pt : Part) :
    s.partCleared p pt = ((s.filled p pt).putField .gz p 0 20 0 (s.gzQuota p)).putPart p (filledPart s pt) := rfl

/-- What lies in a partition's share has been cleared in `t`, and nothing else of the memories that `s` has. -/
structure ShareCleared (s t : State) (pt : Part) : Prop where
  dram : ∀ a, Mem.read 0#8 t.mem.dram a = if a / 2 ^ 28 ∈ pt.dram then 0#8 else Mem.read 0#8 s.mem.dram a
  scratch : ∀ a, Mem.read 0#8 t.mem.scratch a = if a / 2 ^ 20 ∈ pt.tiles then 0#8 else Mem.read 0#8 s.mem.scratch a
  nand : t.mem.nand = s.mem.nand
  flash : t.mem.flash = s.mem.flash
  lesar : t.lesar = s.lesar
  keeper : t.keeper = s.keeper

theorem partCleared_share (s : State) (p : Nat) (pt : Part) : ShareCleared s (s.partCleared p pt) pt := by
  obtain ⟨_, hlesar, hkeeper, hnand, hflash, hdram, hscratch, _, _⟩ := filled_spec s p pt
  have hfilled : ShareCleared s (s.filled p pt) pt := ⟨hdram, hscratch, hnand, hflash, hlesar, hkeeper⟩
  rw [partCleared_eq]
  generalize s.filled p pt = r at hfilled ⊢
  obtain ⟨hdram, hscratch, hnand, hflash, hlesar, hkeeper⟩ := hfilled
  exact ⟨hdram, hscratch, hnand, hflash, hlesar, hkeeper⟩

theorem partCleared_part_self (s : State) (p : Nat) (pt : Part) : (s.partCleared p pt).part p = some (filledPart s pt) := by
  rw [partCleared_eq]
  exact State.part_putPart_self _ _ _

theorem partCleared_part_ne (s : State) {p q : Nat} (pt : Part) (h : q ≠ p) : (s.partCleared p pt).part q = s.part q := by
  obtain ⟨hparts, _⟩ := filled_spec s p pt
  have hpart : (s.filled p pt).part q = s.part q := hparts q
  rw [partCleared_eq]
  generalize s.filled p pt = r at hpart ⊢
  generalize filledPart s pt = v
  exact (State.part_putPart_ne (r.putField .gz p 0 20 0 (s.gzQuota p)) v h).trans hpart

theorem partCleared_quota (s : State) (p : Nat) (pt : Part) : ((s.partCleared p pt).reg .gz p 0).field 20 0 = (s.reg .gz p 0).field 20 0 := by
  have hlt : s.gzQuota p < 2 ^ (20 + 1 - 0) := by
    unfold State.gzQuota Word.field
    exact Nat.mod_lt _ (Nat.two_pow_pos _)
  rw [partCleared_eq, show (s.reg .gz p 0).field 20 0 = s.gzQuota p from rfl]
  generalize s.filled p pt = r
  generalize s.gzQuota p = quota at hlt ⊢
  exact putField_field r .gz p 0 20 0 quota (by decide) (by decide) hlt

/-- The registers that a partition reset returns to their reset values do not reach into PART_. -/
theorem part_apart {p a : Nat} (hp : p < 128) (hlo : Blk.at .part p 0 ≤ a) (hhi : a < Blk.at .part (p + 1) 0) :
    (∀ b ∈ partBlocks, ¬(b.at p 0 ≤ a ∧ a < b.at (p + 1) 0)) ∧ a ≠ Blk.at .gz p 0 := by
  simp only [partBlocks, List.forall_mem_cons, List.not_mem_nil, false_implies, implies_true, and_true, Blk.at, Blk.place] at hlo hhi ⊢
  omega

theorem partCleared_partRegs (s : State) {p : Nat} (pt : Part) (hp : p < 128) {a : Nat} (hlo : Blk.at .part p 0 ≤ a) (hhi : a < Blk.at .part (p + 1) 0) :
    (s.partCleared p pt).rawReg a = s.rawReg a := by
  obtain ⟨hblocks, hgz⟩ := part_apart hp hlo hhi
  obtain ⟨_, _, _, _, _, _, _, _, hregs⟩ := filled_spec s p pt
  have hfind : NMap.find (s.partCleared p pt).regs a = NMap.find s.regs a :=
    (putField_find_ne (s.filled p pt) .gz p 0 20 0 (s.gzQuota p) hgz).trans (hregs a hblocks)
  unfold State.rawReg
  rw [hfind]

theorem partCleared_reset (s : State) (p : Nat) (pt : Part) {b : Blk} (hb : b ∈ partBlocks) {a : Nat} (hlo : b.at p 0 ≤ a) (hhi : a < b.at (p + 1) 0)
    (hgz : a ≠ Blk.at .gz p 0) : NMap.find (s.partCleared p pt).regs a = none := by
  obtain ⟨_, _, _, _, _, _, _, hreset, _⟩ := filled_spec s p pt
  exact (putField_find_ne (s.filled p pt) .gz p 0 20 0 (s.gzQuota p) hgz).trans (hreset b hb a hlo hhi)

theorem exec_resetFill {s : State} {p : Nat} {pt : Part} {c : Ctx} (hp : s.part p = some pt) (hr : pt.resetting = some (c, false))
    (hdone : pt.staged.reset = none) :
    exec (.partitionResetFillComplete p) s =
      .next (((((s.partCleared p pt).bump .part p 0x20 1).resetEvents p .ok).settle c 0x0503 .ok []).settleAll) := by
  show execPartitionResetFillComplete p s = _
  simp only [execPartitionResetFillComplete, hp, hr, hdone, Option.isNone_none, require, if_true, Bool.false_eq_true, if_false]

theorem exec_deletionFill {s : State} {p : Nat} {pt : Part} {c : Ctx} (hp : s.part p = some pt) (hr : pt.resetting = some (c, true))
    (hdone : pt.staged.reset = none) :
    exec (.partitionResetFillComplete p) s =
      (let u := (((s.partCleared p pt).bump .part p 0x20 1).resetEvents p .ok).deletePart p pt
       .next (((u.lesar.owed.filter (fun o => o.opcode == 0x0504 && o.ctx.part == p)).foldl
         (fun s o => (s.freeMbox o.ctx 0x0504).settle o.ctx 0x0504 .ok []) u).settleAll)) := by
  show execPartitionResetFillComplete p s = _
  simp only [execPartitionResetFillComplete, hp, hr, hdone, Option.isNone_none, require, if_true]

/-! ## The deletion (R420) -/

/-- The sessions of a partition. -/
def State.partSessions (s : State) (p : Nat) : List Nat := (s.lesar.sessions.filter (fun e => e.2.part == p)).map Prod.fst

theorem mem_partSessions {s : State} {n p : Nat} {v : Session} (h : s.session n = some v) (hp : v.part = p) : n ∈ s.partSessions p :=
  List.mem_map.mpr ⟨(n, v), List.mem_filter.mpr ⟨find_mem n v _ h, beq_iff_eq.mpr hp⟩, rfl⟩

/-- The state with the sessions of a deleted partition closed and its NAND extents cleared, before the partition is taken out. -/
def State.unseated (s : State) (p : Nat) (pt : Part) : State := pt.nand.foldl State.clearNandExtent ((s.partSessions p).foldl State.closeSession s)

theorem unseated_spec (s : State) (p : Nat) (pt : Part) :
    (s.unseated p pt).mem.dram = s.mem.dram ∧
    (∀ a, Mem.read 0#8 (s.unseated p pt).mem.nand a = if a / 2 ^ 34 ∈ pt.nand then 0#8 else Mem.read 0#8 s.mem.nand a) ∧
    (∀ n v, (s.unseated p pt).session n = some v → v.part ≠ p) ∧
    (∀ q, ((s.unseated p pt).part q).map holdings = (s.part q).map holdings) := by
  obtain ⟨hmem, hsessions, hparts⟩ := closeSessions_spec (s.partSessions p) s
  unfold State.unseated
  obtain ⟨x, hx⟩ : ∃ x, (s.partSessions p).foldl State.closeSession s = x := ⟨_, rfl⟩
  rw [hx] at hmem hsessions hparts ⊢
  obtain ⟨hdram, hlesar, hpart⟩ := foldl_inv (fun y : State => y.mem.dram = x.mem.dram ∧ y.lesar = x.lesar ∧ y.parts = x.parts) State.clearNandExtent
    (fun _ _ h => h) pt.nand x ⟨rfl, rfl, rfl⟩
  refine ⟨hdram.trans (congrArg Mems.dram hmem), fun a => (clearNand_read a pt.nand x).trans (by rw [hmem]), fun n v hn hp => ?_, fun q => ?_⟩
  · have hopen : NMap.find x.lesar.sessions n = some v := (congrArg (fun l : Lesar => NMap.find l.sessions n) hlesar).symm.trans hn
    rw [hsessions n] at hopen
    split at hopen
    · exact nomatch hopen
    · rename_i hout
      exact hout (mem_partSessions hopen hp)
  · exact (congrArg (fun l : NMap Part => (NMap.find l q).map holdings) hpart).trans (hparts q)

/-- The state of a deletion before the partition is taken out: its share cleared and its registers at reset. -/
def State.vacated (s : State) (p : Nat) (pt : Part) : State := ((s.unseated p pt).resetPartRegs p).resetRegs .part p

theorem deletePart_eq (s : State) (p : Nat) (pt : Part) : s.deletePart p pt =
    ((((s.vacated p pt).setParts (NMap.erase (s.vacated p pt).parts p)).setTombs ((s.vacated p pt).tombs.filter (fun t => t.part != p))).setWalks
      ((s.vacated p pt).walks.filter (fun w => w.1 != p))).setLesar
        { (s.vacated p pt).lesar with evts := NMap.erase (s.vacated p pt).lesar.evts p } := rfl

theorem vacated_field {α : Type} (f : State → α) (hf : ∀ (s : State) r, f (s.setRegs r) = f s) (s : State) (p : Nat) (pt : Part) :
    f (s.vacated p pt) = f (s.unseated p pt) := by
  have hregs := resetPartRegs_frame (s.unseated p pt) p
  unfold State.vacated
  generalize s.unseated p pt = x at hregs ⊢
  generalize x.resetPartRegs p = y at hregs ⊢
  exact (hf y _).trans ((hf y x.regs).symm.trans (congrArg f hregs))

theorem vacated_find (s : State) (p : Nat) (pt : Part) {b : Blk} (hb : b = Blk.part ∨ b ∈ partBlocks) {a : Nat} (hlo : b.at p 0 ≤ a)
    (hhi : a < b.at (p + 1) 0) : NMap.find (s.vacated p pt).regs a = none := by
  unfold State.vacated
  generalize s.unseated p pt = x
  rw [resetRegs_find]
  rcases hb with rfl | hb
  · rw [if_pos ⟨hlo, hhi⟩]
  · split
    · rfl
    · exact (resetRegs_folded p a partBlocks x).1 ⟨b, hb, hlo, hhi⟩

theorem deletePart_spec (s : State) (p : Nat) (pt : Part) :
    (s.deletePart p pt).part p = none ∧ (∀ q, q ≠ p → ((s.deletePart p pt).part q).map holdings = (s.part q).map holdings) ∧
    (∀ n v, (s.deletePart p pt).session n = some v → v.part ≠ p) ∧ (∀ w ∈ (s.deletePart p pt).walks, w.1 ≠ p) ∧
    (∀ t ∈ (s.deletePart p pt).tombs, t.part ≠ p) ∧ (s.deletePart p pt).mem.dram = s.mem.dram ∧
    (∀ a, Mem.read 0#8 (s.deletePart p pt).mem.nand a = if a / 2 ^ 34 ∈ pt.nand then 0#8 else Mem.read 0#8 s.mem.nand a) ∧
    (∀ b, b = Blk.part ∨ b ∈ partBlocks → ∀ a, b.at p 0 ≤ a → a < b.at (p + 1) 0 → NMap.find (s.deletePart p pt).regs a = none) := by
  obtain ⟨hdram, hnand, hsessions, hparts⟩ := unseated_spec s p pt
  have hmem := vacated_field State.mem (fun _ _ => rfl) s p pt
  have hpart := vacated_field State.parts (fun _ _ => rfl) s p pt
  have hlesar := vacated_field State.lesar (fun _ _ => rfl) s p pt
  have hregs := fun (b : Blk) (hb : b = Blk.part ∨ b ∈ partBlocks) (a : Nat) (hlo : b.at p 0 ≤ a) (hhi : a < b.at (p + 1) 0) =>
    vacated_find s p pt hb hlo hhi
  rw [deletePart_eq]
  generalize s.vacated p pt = y at hmem hpart hlesar hregs ⊢
  generalize s.unseated p pt = x at hdram hnand hsessions hparts hmem hpart hlesar
  refine ⟨NMap.find_erase_self _ _, fun q hq => ?_, fun n v hn => ?_, fun w hw => ?_, fun t ht => ?_, ?_, fun a => ?_, hregs⟩
  · have hkept : ((NMap.find y.parts q).map holdings) = (x.part q).map holdings := congrArg (fun l : NMap Part => (NMap.find l q).map holdings) hpart
    exact (congrArg (Option.map holdings) (NMap.find_erase_ne y.parts hq)).trans (hkept.trans (hparts q))
  · exact hsessions n v ((congrArg (fun l : Lesar => NMap.find l.sessions n) hlesar).symm.trans hn)
  · exact bne_iff_ne.mp (List.mem_filter.mp hw).2
  · exact bne_iff_ne.mp (List.mem_filter.mp ht).2
  · exact (congrArg Mems.dram hmem).trans hdram
  · exact (congrArg (fun m : Mems => Mem.read 0#8 m.nand a) hmem).trans (hnand a)

/-- The events of a partition reset and its count leave the memories and what the partitions hold. -/
theorem resetCounted_field {α : Type} (f : State → α) (hlesar : ∀ (s : State) (l : Lesar), f (s.setLesar l) = f s)
    (hregs : ∀ (s : State) r, f (s.setRegs r) = f s) (s : State) (p : Nat) (st : Status) : f ((s.bump .part p 0x20 1).resetEvents p st) = f s := by
  have hev : evOnly (s.bump .part p 0x20 1) ((s.bump .part p 0x20 1).resetEvents p st) :=
    evOnly_trans (pushEvent_ev _ _ _) (pushEvent_ev _ _ _)
  exact (ev_field f (fun s l r => (hregs _ _).trans (hlesar _ _)) hev).trans (hregs s _)

/-! ## Partitions are reset -/

/-- Settles O57: both operations begin the reset (`beginPartReset_from`), the fill leaves `filledPart`, a deletion ends with `deletePart_spec`. -/
theorem partitionsAreReset : Obligations.PartitionsAreReset := by
  refine ⟨fun s c pl i op delete hi h => ?_, fun s p pt c hp128 hp hr hdone => ?_, fun s p pt c hp hr hdone => ?_⟩
  · rcases hi with ⟨rfl, rfl, rfl⟩ | ⟨rfl, rfl, rfl⟩
    · refine ⟨fun hp => exec_resetPartition_absent h pl hp, fun pt hp => ?_⟩
      have hx := exec_resetPartition h pl hp
      have hmay : ∀ {x : Prop}, ((false = true ∨ s.role c = some .devOwner ∨ s.role c = some .partOwner) → x) ↔ (s.mayReset c = true → x) := fun {x} => by
        rw [mayReset_iff, or_iff_right Bool.false_ne_true]
      refine ⟨fun _ hno => hx.trans (if_pos ?_), fun hd => absurd hd Bool.false_ne_true, hmay.mpr fun hm hnone hpl => ?_,
        fun hd => absurd hd Bool.false_ne_true, hmay.mpr fun hm hnone hpl _ => ?_⟩
      · rw [or_iff_right Bool.false_ne_true, ← mayReset_iff] at hno
        simpa [Option.isSome_iff_ne_none] using hno
      · rw [hm, hnone, show pl.isEmpty = false from List.isEmpty_eq_false_iff.mpr hpl] at hx
        exact hx
      · subst hpl
        exact resetPartition_begins h hp hm hnone
    · refine ⟨fun hp => exec_deletePartition_absent h pl hp, fun pt hp => ?_⟩
      have hx := exec_deletePartition h pl hp
      refine ⟨fun hd => absurd hd.symm Bool.false_ne_true, fun _ hr => hx.trans (if_pos (Option.isSome_iff_ne_none.mpr hr)), fun _ hnone hpl => ?_,
        fun _ hnone hpl hst => ?_, fun _ hnone hpl hst => ?_⟩
      · rw [hnone, show pl.isEmpty = false from List.isEmpty_eq_false_iff.mpr hpl] at hx
        exact hx
      · rw [hnone, hpl] at hx
        rw [hpl]
        exact hx.trans (if_pos (bne_iff_ne.mpr hst))
      · subst hpl
        exact deletePartition_begins h hp hnone (hst rfl)
  · have hshare := partCleared_share s p pt
    refine ⟨s.partCleared p pt, filledPart s pt, exec_resetFill hp hr hdone, partCleared_part_self s p pt, fun q hq => partCleared_part_ne s pt hq,
      ⟨rfl, rfl, rfl, rfl, rfl, rfl, rfl, rfl, rfl, rfl, rfl⟩, ⟨rfl, rfl, rfl, rfl, rfl, rfl, rfl, rfl, rfl⟩, hshare.dram, hshare.scratch,
      ⟨hshare.nand, hshare.flash, hshare.lesar, hshare.keeper⟩, partCleared_quota s p pt,
      fun a hlo hhi => partCleared_partRegs s pt hp128 hlo hhi, fun b hb a hlo hhi hgz => partCleared_reset s p pt hb hlo hhi hgz⟩
  · have hshare := partCleared_share s p pt
    have hparts := fun (q : Nat) (hq : q ≠ p) => partCleared_part_ne s pt hq
    have hmem := resetCounted_field State.mem (fun _ _ => rfl) (fun _ _ => rfl) (s.partCleared p pt) p .ok
    have hpart := fun q => resetCounted_field (fun x : State => x.part q) (fun _ _ => rfl) (fun _ _ => rfl) (s.partCleared p pt) p .ok
    have hx := exec_deletionFill hp hr hdone
    obtain ⟨hgone, hothers, hsessions, hwalks, htombs, hdram, hnand, hregs⟩ :=
      deletePart_spec (((s.partCleared p pt).bump .part p 0x20 1).resetEvents p .ok) p pt
    dsimp only at hx
    generalize ((s.partCleared p pt).bump .part p 0x20 1).resetEvents p .ok = y at *
    refine ⟨_, hx, hgone, fun q hq => (hothers q hq).trans ?_, hsessions, hwalks, htombs, fun a => ?_, fun a => (hnand a).trans ?_, hregs⟩
    · rw [hpart, hparts q hq]
      rfl
    · rw [hdram, hmem]
      exact hshare.dram a
    · rw [hmem, hshare.nand]

end Sys2Proof.Machine
end

section
/-!
PROOFS. Which partition a management frame acts on.
-/
namespace Sys2Proof.Machine

open Sys2Proof

/-! ## Frames of a partition that does not exist (R308, R485) -/

theorem modelOp_absent {s : State} {c : Ctx} {op : Nat} (h : s.accepts c op .firmware true) (hp : s.part c.part = none)
    (body : State → Part → Res) : s.modelOp c op body = .next ((s.freeMbox c op).reply c op .notPermitted []) := by
  simp only [State.modelOp, serve_accepted h, freeMbox_part_eq, hp, State.answer]

/-! ## CREATE_PARTITION and RESIZE_PARTITION act on PART alone -/

theorem createPartition_acts {s : State} {c : Ctx} (h : s.accepts c 0x0501 .firmware true) (pl : Bytes) :
    ∃ t, exec (.createPartition c pl) s = .next t ∧ ∀ q, q ≠ beAt pl 0 1 → t.part q = s.part q := by
  have hrefused : ∀ st q, ((s.freeMbox c 0x0501).reply c 0x0501 st []).part q = s.part q := fun st q =>
    (reply_part _ _ _ _ _ _).trans (freeMbox_part_eq _ _ _ _)
  rw [exec_createPartition h]
  split
  · exact ⟨_, rfl, fun q _ => hrefused _ q⟩
  split
  · exact ⟨_, rfl, fun q _ => hrefused _ q⟩
  split
  · exact ⟨_, rfl, fun q _ => hrefused _ q⟩
  · exact ⟨_, rfl, fun q hq => (reply_part _ _ _ _ _ _).trans ((createPart_part_ne _ _ hq).trans (freeMbox_part_eq _ _ _ _))⟩

theorem resizePartition_acts {s : State} {c : Ctx} (h : s.accepts c 0x0502 .firmware true) (pl : Bytes) :
    ∃ t, exec (.resizePartition c pl) s = .next t ∧ ∀ q, q ≠ beAt pl 0 1 → t.part q = s.part q := by
  have hrefused : ∀ st q, ((s.freeMbox c 0x0502).reply c 0x0502 st []).part q = s.part q := fun st q =>
    (reply_part _ _ _ _ _ _).trans (freeMbox_part_eq _ _ _ _)
  cases hname : misnamed c pl with
  | true => exact ⟨_, exec_resizePartition_misnamed h hname, fun q _ => hrefused _ q⟩
  | false =>
    cases hp : s.part (beAt pl 0 1) with
    | none => exact ⟨_, exec_resizePartition_absent h hname hp, fun q _ => hrefused _ q⟩
    | some pt =>
      rw [exec_resizePartition h hname hp]
      split
      · exact ⟨_, rfl, fun q _ => hrefused _ q⟩
      split
      · exact ⟨_, rfl, fun q _ => hrefused _ q⟩
      split
      · exact ⟨_, rfl, fun q _ => hrefused _ q⟩
      split
      · exact ⟨_, rfl, fun q _ => hrefused _ q⟩
      · exact ⟨_, rfl, fun q hq => (State.part_modPart_ne _ _ hq).trans
          ((owe_part _ _ _ _).trans ((replaceResize_part _ _ _).trans (freeMbox_part_eq _ _ _ _)))⟩

/-- Settles O7: the two operations that name their partition, and those whose header names it. -/
theorem partitionsAreNamed : Obligations.PartitionsAreNamed := by
  refine ⟨fun s c pl i op hi h => ?_, fun s c pl h hname hp h1 h2 h3 h4 h5 h6 h7 h8 => ?_, fun s c pl i op hp hi => ?_⟩
  · have hmisnamed : c.part ≠ 0xFFFF → c.part ≠ beAt pl 0 1 → misnamed c pl = true := fun h1 h2 => by simp [misnamed, h1, h2]
    rcases hi with ⟨rfl, rfl⟩ | ⟨rfl, rfl⟩
    · refine ⟨fun h1 h2 => ?_, createPartition_acts h pl⟩
      rw [exec_createPartition h, hmisnamed h1 h2, Bool.true_or, if_pos rfl]
    · exact ⟨fun h1 h2 => exec_resizePartition_misnamed h (hmisnamed h1 h2), resizePartition_acts h pl⟩
  · have hgood : resizeBad pl = false := (resizeBad_eq_false pl).mpr
      ⟨h1, h2, h3, by omega, h5, fun hodd => by omega, by omega, fun hodd => by omega, h7, h8⟩
    rw [exec_resizePartition_absent h ((misnamed_eq_false c pl).mpr hname) hp, hgood]
    rfl
  · rcases hi with ⟨rfl, rfl, h⟩ | ⟨rfl, rfl, h⟩ | ⟨rfl, rfl, h⟩ | ⟨rfl, rfl, h⟩ | ⟨rfl, rfl, h⟩ | ⟨rfl, rfl, h⟩ | ⟨rfl, rfl, h⟩ | ⟨rfl, rfl, h⟩ |
      ⟨rfl, rfl, h⟩ | ⟨rfl, rfl, h⟩ | ⟨rfl, rfl, h⟩
    · exact exec_resetPartition_absent h pl hp
    · exact exec_deletePartition_absent h pl hp
    · exact exec_setEndpoint_absent h pl hp
    · show execInstallInset c pl s = _
      unfold execInstallInset State.insetOp
      exact modelOp_absent h hp _
    · show execRemoveInset c pl s = _
      unfold execRemoveInset State.insetOp
      exact modelOp_absent h hp _
    · show execInstallModel c pl s = _
      unfold execInstallModel
      exact modelOp_absent h hp _
    · show execSwapLayers c pl s = _
      unfold execSwapLayers
      exact modelOp_absent h hp _
    · show execStopModel c pl s = _
      unfold execStopModel
      exact modelOp_absent h hp _
    · show execStartModel c pl s = _
      unfold execStartModel
      exact modelOp_absent h hp _
    · show execLoadLendable c pl s = _
      unfold execLoadLendable
      exact modelOp_absent h hp _
    · show execRemoveModel c pl s = _
      unfold execRemoveModel
      exact modelOp_absent h hp _

end Sys2Proof.Machine
end

section
/-!
PROOFS. The first step failure since SV_LAST_FAULT was read.
-/
namespace Sys2Proof.Machine

open Sys2Proof

/-- Every status fits its 16 bits. -/
theorem statusCode_lt (st : Status) : Status.code st < 65536 := by
  cases st <;> decide

/-- The failure of the second replay abandons the step (R456). -/
def faultOutcome (outcome : Nat) (v : StepSt) : Nat := if outcome = 0 && decide (3 ≤ v.attempts) then 1 else outcome

theorem faultOutcome_eq (outcome : Nat) (v : StepSt) : faultOutcome outcome v = if outcome = 0 ∧ 3 ≤ v.attempts then 1 else outcome := by
  simp only [faultOutcome, Bool.and_eq_true, decide_eq_true_eq]

/-- The record of a failure in SV_LAST_FAULT (R468). -/
def faultRecord (p : Nat) (st : Status) (outcome : Nat) (v : StepSt) : Word :=
  BitVec.ofNat 32 (2 ^ 31 + p % 128 * 2 ^ 24 + faultOutcome outcome v * 2 ^ 22 + Status.code st)

/-- The fields of the record. -/
theorem faultRecord_fields {p : Nat} (st : Status) {outcome : Nat} (v : StepSt) (hp : p < 128) (ho : outcome < 3) :
    (faultRecord p st outcome v).bit 31 = true ∧ (faultRecord p st outcome v).field 30 24 = p ∧
      (faultRecord p st outcome v).field 23 22 = faultOutcome outcome v ∧ (faultRecord p st outcome v).field 21 16 = 0 ∧
      (faultRecord p st outcome v).field 15 0 = Status.code st := by
  have hcode := statusCode_lt st
  have hout : faultOutcome outcome v < 3 := by
    rw [faultOutcome_eq]
    split <;> omega
  unfold faultRecord Word.bit Word.field
  generalize Status.code st = x at hcode ⊢
  generalize faultOutcome outcome v = o at hout ⊢
  rw [BitVec.toNat_ofNat, beq_iff_eq]
  omega

theorem recordFault_eq (s : State) (p : Nat) (st : Status) (outcome : Nat) (v : StepSt) : s.recordFault p st outcome v =
    (if decide (3 ≤ v.attempts) && v.failed.isNone then s.bump .sv 0 0x4C 1 else s).recordFirst .sv 0 0x44 (faultRecord p st outcome v) := rfl

/-- The counter of abandoned steps is all that a failure changes before it is recorded. -/
theorem abandonCounted (s : State) (b : Bool) :
    ((if b then s.bump .sv 0 0x4C 1 else s).setRegs s.regs = s) ∧
      (if b then s.bump .sv 0 0x4C 1 else s).reg .sv 0 0x44 = s.reg .sv 0 0x44 ∧
      ∀ a, a ≠ Blk.at .sv 0 0x4C → (if b then s.bump .sv 0 0x4C 1 else s).rawReg a = s.rawReg a := by
  cases b with
  | false => exact ⟨rfl, rfl, fun _ _ => rfl⟩
  | true => exact ⟨rfl, reg_putReg_ne _ _ _ _ (by decide), fun a ha => State.rawReg_putReg_ne _ _ _ _ _ ha⟩

/-- Settles O8: the first failure writes `faultRecord`, while a record stands nothing does, and the owner's read clears it. -/
theorem firstFaultIsKept : Obligations.FirstFaultIsKept := by
  refine ⟨fun s p st outcome v hp ho hfree => ?_, fun s p st outcome v hheld => ?_, fun s c hown => ?_⟩
  · obtain ⟨_, hkept, _⟩ := abandonCounted s (decide (3 ≤ v.attempts) && v.failed.isNone)
    have hrecord : (s.recordFault p st outcome v).reg .sv 0 0x44 = faultRecord p st outcome v := by
      rw [recordFault_eq, State.recordFirst, hkept, hfree]
      exact State.reg_putReg_self _ _ _ _ _
    dsimp only
    rw [hrecord, ← faultOutcome_eq]
    exact faultRecord_fields st v hp ho
  · obtain ⟨hframe, hkept, hregs⟩ := abandonCounted s (decide (3 ≤ v.attempts) && v.failed.isNone)
    rw [recordFault_eq, State.recordFirst, hkept, hheld]
    exact ⟨hframe, hregs⟩
  · obtain ⟨hclear, _⟩ := afterRead_spec s .sv 0 0x44
    exact ⟨_, readEntry_owner s c .sv 0 0x44 hown (by decide) (by decide) (by decide) (by decide), hclear rfl (fun h => nomatch h)⟩

end Sys2Proof.Machine
end

section
/-!
PROOFS. RUN_SURVEY and how it starts a survey.
-/
namespace Sys2Proof.Machine

open Sys2Proof

/-! ## The payload (R466) -/

/-- A payload of RUN_SURVEY: its class, its item and its tile. -/
def surveyFrame (cls item tile : Nat) : Bytes := beBytes 1 cls ++ beBytes 1 item ++ beBytes 2 tile ++ beBytes 4 0

theorem runSurvey_bad {s : State} {c : Ctx} (h : s.accepts c 0x0901 .firmware true) {pl : Bytes} (hbad : surveyBad pl = true) :
    s.runSurvey c pl = .next ((s.freeMbox c 0x0901).reply c 0x0901 .badFrame []) := by
  rw [runSurvey_run s c pl h, if_pos hbad]
  rfl

theorem runSurvey_s0 {s : State} {c : Ctx} (h : s.accepts c 0x0901 .firmware true) {item : Nat} (hitem : item ≤ 3) :
    s.runSurvey c (surveyFrame 0 item 0) = (s.freeMbox c 0x0901).beginS0 c item := by
  obtain ⟨hlen, hcls, hit, htile, hzero⟩ := surveyPl 0 item 0
  rw [Nat.mod_eq_of_lt (by omega : item < 256)] at hit
  have hgood : surveyBad (surveyFrame 0 item 0) = false := by
    rw [surveyBad_iff, Bool.not_eq_false', decide_eq_true_eq]
    exact ⟨hlen, hzero, Or.inl ⟨hcls, hit.trans_le hitem, htile⟩⟩
  rw [runSurvey_run s c _ h, hgood, surveyFrame, hcls, hit]
  rfl

theorem runSurvey_s1 {s : State} {c : Ctx} (h : s.accepts c 0x0901 .firmware true) {t : Nat} (ht : t < 512) :
    s.runSurvey c (surveyFrame 1 0 t) = (s.freeMbox c 0x0901).beginS1 c t := by
  obtain ⟨hlen, hcls, hit, htile, hzero⟩ := surveyPl 1 0 t
  rw [Nat.mod_eq_of_lt (by omega : t < 65536)] at htile
  have hgood : surveyBad (surveyFrame 1 0 t) = false := by
    rw [surveyBad_iff, Bool.not_eq_false', decide_eq_true_eq]
    exact ⟨hlen, hzero, Or.inr (Or.inl ⟨hcls, hit, htile.trans_lt ht⟩)⟩
  rw [runSurvey_run s c _ h, hgood, surveyFrame, hcls, hit, htile]
  rfl

theorem runSurvey_gazetteer {s : State} {c : Ctx} (h : s.accepts c 0x0901 .firmware true) :
    s.runSurvey c (surveyFrame 1 1 0) = (s.freeMbox c 0x0901).beginS1Gazetteer c := by
  obtain ⟨hlen, hcls, hit, htile, hzero⟩ := surveyPl 1 1 0
  have hgood : surveyBad (surveyFrame 1 1 0) = false := by
    rw [surveyBad_iff, Bool.not_eq_false', decide_eq_true_eq]
    exact ⟨hlen, hzero, Or.inr (Or.inr (Or.inl ⟨hcls, hit, htile⟩))⟩
  rw [runSurvey_run s c _ h, hgood, surveyFrame, hcls, hit]
  rfl

theorem runSurvey_s2 {s : State} {c : Ctx} (h : s.accepts c 0x0901 .firmware true) :
    s.runSurvey c (surveyFrame 2 0 0) = (s.freeMbox c 0x0901).beginS2 c := by
  obtain ⟨hlen, hcls, hit, htile, hzero⟩ := surveyPl 2 0 0
  have hgood : surveyBad (surveyFrame 2 0 0) = false := by
    rw [surveyBad_iff, Bool.not_eq_false', decide_eq_true_eq]
    exact ⟨hlen, hzero, Or.inr (Or.inr (Or.inr ⟨hcls, hit, htile⟩))⟩
  rw [runSurvey_run s c _ h, hgood, surveyFrame, hcls]
  rfl

/-! ## S0 (R461) -/

theorem beginS0_settled (s : State) (c : Ctx) (item : Nat) :
    (s.survey.s2 ≠ none → s.beginS0 c item = .next (s.reply c 0x0901 .busyRecovery [])) ∧
    (s.survey.s2 = none → (∃ e ∈ s.survey.s0, e.1 = item) → s.beginS0 c item = .next (s.reply c 0x0901 .notPermitted [])) ∧
    (s.survey.s2 = none → (∀ e ∈ s.survey.s0, e.1 ≠ item) →
      s.beginS0 c item = .next ((s.owe c 0x0901).setSurvey { s.survey with s0 := s.survey.s0 ++ [(item, c)] })) := by
  have hrun : s.survey.s0.any (fun e => e.1 == item) = true ↔ ∃ e ∈ s.survey.s0, e.1 = item := by
    simp only [List.any_eq_true, beq_iff_eq]
  unfold State.beginS0
  refine ⟨fun h2 => if_pos (Option.isSome_iff_ne_none.mpr h2), fun h2 he => ?_, fun h2 he => ?_⟩
  all_goals rw [h2, Option.isSome_none, if_neg Bool.false_ne_true]
  · exact if_pos (hrun.mpr he)
  · exact if_neg fun hany => by
      obtain ⟨e, hmem, heq⟩ := hrun.mp hany
      exact he e hmem heq

/-! ## S1 of a tile (R462, R467) -/

theorem mem_quadTiles (u q : Nat) : u ∈ quadTiles q ↔ u / 4 = q := by
  simp only [quadTiles, List.mem_cons, List.not_mem_nil, or_false]
  omega

theorem tileOut_iff (s : State) (u : Nat) : s.tileOut u = true ↔ u ∈ s.survey.failed ∨ ∃ e ∈ s.survey.out, e.1 = u := by
  simp only [State.tileOut, Bool.or_eq_true, List.contains_eq_mem, decide_eq_true_eq, List.any_eq_true, beq_iff_eq]

theorem stagedOut_iff (s : State) (u : Nat) : s.stagedOut u = true ↔ ∃ e ∈ s.parts, ∃ v ∈ e.2.staged.takeOut, v.1 = u := by
  simp only [State.stagedOut, List.any_eq_true, beq_iff_eq]

/-- Another tile of the quad of `t` is away or is to be taken out. -/
def State.quadThin (s : State) (t : Nat) : Bool := (quadTiles (t / 4)).any (fun u => u != t && (s.tileOut u || s.stagedOut u))

theorem quadThin_iff (s : State) (t : Nat) : s.quadThin t = true ↔
    ∃ u, u / 4 = t / 4 ∧ u ≠ t ∧ ((u ∈ s.survey.failed ∨ ∃ e ∈ s.survey.out, e.1 = u) ∨ ∃ e ∈ s.parts, ∃ v ∈ e.2.staged.takeOut, v.1 = u) := by
  simp only [State.quadThin, List.any_eq_true, mem_quadTiles, Bool.and_eq_true, bne_iff_ne, Bool.or_eq_true, tileOut_iff, stagedOut_iff]

/-- The partition that owns a tile is being reset. -/
def State.ownerResets (s : State) (t : Nat) : Bool := ((s.ownerOf t).bind s.part).any (·.resetting.isSome)

theorem ownerResets_iff (s : State) (t : Nat) : s.ownerResets t = true ↔ ∃ p pt, s.ownerOf t = some p ∧ s.part p = some pt ∧ pt.resetting ≠ none := by
  simp only [State.ownerResets, Option.any_eq_true, Option.bind_eq_some_iff, Option.isSome_iff_ne_none]
  constructor
  · rintro ⟨pt, ⟨p, hown, hp⟩, hr⟩
    exact ⟨p, pt, hown, hp, hr⟩
  · rintro ⟨p, pt, hown, hp, hr⟩
    exact ⟨pt, ⟨p, hown, hp⟩, hr⟩

/-- The state after the frames of an earlier request to take the same tile out have been answered (R22). -/
def State.takeOutReplaced (s : State) (t : Nat) (pt : Part) : State :=
  (pt.staged.takeOut.filter (fun v => v.1 == t)).foldl (fun s v => s.settle v.2 0x0901 .ok (surveyResult false 0)) s

theorem takeOutReplaced_field {α : Type} (f : State → α) (hreply : ∀ s w : State, f (s.withReply w) = f s)
    (hlesar : ∀ (s : State) (l : Lesar), f (s.setLesar l) = f s) (s : State) (t : Nat) (pt : Part) : f (s.takeOutReplaced t pt) = f s :=
  foldl_inv (fun x : State => f x = f s) (fun (s : State) (v : Nat × Ctx) => s.settle v.2 0x0901 .ok (surveyResult false 0))
    (fun x v hx => (settle_field f hreply hlesar x v.2 0x0901 .ok (surveyResult false 0)).trans hx) _ s rfl

/-- The refusals of an S1 test, in their order. -/
theorem beginS1_refused (s : State) (c : Ctx) (t : Nat) :
    (s.survey.s2 ≠ none → s.beginS1 c t = .next (s.reply c 0x0901 .notPermitted [])) ∧
    (s.survey.s2 = none → s.ownerResets t = true → s.beginS1 c t = .next (s.reply c 0x0901 .busyRecovery [])) ∧
    (s.survey.s2 = none → s.ownerResets t = false → s.tileOut t = true → s.beginS1 c t = .next (s.reply c 0x0901 .notPermitted [])) ∧
    (s.survey.s2 = none → s.ownerResets t = false → s.tileOut t = false → s.quadThin t = true →
      s.beginS1 c t = .next (s.reply c 0x0901 .noResource [])) := by
  unfold State.beginS1 State.ownerResets State.quadThin
  dsimp only
  refine ⟨fun h2 => if_pos (Option.isSome_iff_ne_none.mpr h2), fun h2 hr => ?_, fun h2 hr hout => ?_, fun h2 hr hout hthin => ?_⟩
  all_goals rw [h2, Option.isSome_none, if_neg Bool.false_ne_true, hr]
  · exact if_pos rfl
  · rw [if_neg Bool.false_ne_true, hout, if_pos rfl]
    rfl
  · rw [if_neg Bool.false_ne_true, hout, if_neg Bool.false_ne_true, hthin, if_pos rfl]
    rfl

theorem beginS1_unowned {s : State} (c : Ctx) {t : Nat} (h2 : s.survey.s2 = none) (hout : s.tileOut t = false) (hthin : s.quadThin t = false)
    (hown : s.ownerOf t = none) : s.beginS1 c t = .next ((s.owe c 0x0901).setSurvey { s.survey with out := s.survey.out ++ [(t, some c, false)] }) := by
  unfold State.quadThin at hthin
  unfold State.beginS1
  simp only [h2, hown, hout, hthin, Option.isSome_none, Option.bind_none, Option.any_none, Bool.false_eq_true, if_false]

theorem beginS1_owned {s : State} (c : Ctx) {t p : Nat} {pt : Part} (h2 : s.survey.s2 = none) (hr : s.ownerResets t = false)
    (hout : s.tileOut t = false) (hthin : s.quadThin t = false) (hown : s.ownerOf t = some p) (hp : s.part p = some pt) :
    s.beginS1 c t = .next (((s.takeOutReplaced t pt).owe c 0x0901).modPart p (fun v =>
      { v with staged := { v.staged with takeOut := v.staged.takeOut.filter (fun v => v.1 != t) ++ [(t, c)] } })) := by
  unfold State.quadThin at hthin
  unfold State.ownerResets at hr
  rw [hown] at hr
  unfold State.beginS1
  simp only [h2, hown, hr, hp, hout, hthin, Option.isSome_none, Bool.false_eq_true, if_false, Option.map_some, Option.getD_some]
  rfl

/-! ## S1 of the gazetteer index (R464) -/

theorem beginS1Gazetteer_settled (s : State) (c : Ctx) :
    (s.survey.s2 ≠ none ∨ s.survey.gzOut ≠ none → s.beginS1Gazetteer c = .next (s.reply c 0x0901 .notPermitted [])) ∧
    (s.survey.s2 = none → s.survey.gzOut = none → s.beginS1Gazetteer c =
      (let s1 := (s.owe c 0x0901).setSurvey { s.survey with gzOut := some c }
       .next (s1.setParts (s1.parts.map (fun e => (e.1, if e.2.gzState = 2 then { e.2 with gzState := 3 } else e.2)))))) := by
  unfold State.beginS1Gazetteer
  refine ⟨fun h => if_pos ?_, fun h2 hg => ?_⟩
  · rwa [Bool.or_eq_true, Option.isSome_iff_ne_none, Option.isSome_iff_ne_none]
  · rw [h2, hg]
    rfl

/-! ## S2 (R465, R467) -/

theorem s1Runs_iff (s : State) : s.s1Runs = true ↔ s.survey.out ≠ [] ∨ s.survey.gzOut ≠ none ∨ ∃ e ∈ s.parts, e.2.staged.takeOut ≠ [] := by
  simp only [State.s1Runs, Bool.or_eq_true, Bool.not_eq_true', List.isEmpty_eq_false_iff, Option.isSome_iff_ne_none, List.any_eq_true, or_assoc]

theorem quiet_iff (pt : Part) : pt.quiet = true ↔
    (pt.mstate = .empty ∨ pt.mstate = .loaded) ∧ pt.reqs = [] ∧ pt.streams = [] ∧ pt.resetting = none ∧ pt.loans = [] ∧ pt.loanAsk = [] := by
  simp only [Part.quiet, Bool.and_eq_true, Bool.or_eq_true, beq_iff_eq, List.isEmpty_iff, Option.isNone_iff_eq_none, and_assoc]

/-- Some partition is not drained. -/
def State.undrained (s : State) : Bool := s.parts.any (fun e => !e.2.quiet)

theorem undrained_iff (s : State) : s.undrained = true ↔
    ¬∀ e ∈ s.parts, (e.2.mstate = .empty ∨ e.2.mstate = .loaded) ∧ e.2.reqs = [] ∧ e.2.streams = [] ∧ e.2.resetting = none ∧ e.2.loans = [] ∧
      e.2.loanAsk = [] := by
  simp only [State.undrained, List.any_eq_true, Bool.not_eq_true', ← quiet_iff, not_forall, Bool.not_eq_true, exists_prop]

theorem beginS2_settled (s : State) (c : Ctx) :
    (s.survey.s2 ≠ none → s.beginS2 c = .next (s.reply c 0x0901 .busyRecovery [])) ∧
    (s.survey.s2 = none → s.s1Runs = true ∨ s.undrained = true → s.beginS2 c = .next (s.reply c 0x0901 .notPermitted [])) ∧
    (s.survey.s2 = none → s.s1Runs = false → s.undrained = false → s.guard.level ≠ 0 → s.beginS2 c = .next (s.reply c 0x0901 .deferred [])) ∧
    (s.survey.s2 = none → s.s1Runs = false → s.undrained = false → s.guard.level = 0 →
      s.beginS2 c = .next ((s.owe c 0x0901).setSurvey { s.survey with s2 := some c })) := by
  unfold State.beginS2 State.undrained
  refine ⟨fun h2 => if_pos (Option.isSome_iff_ne_none.mpr h2), fun h2 hs => ?_, fun h2 h1 hd hl => ?_, fun h2 h1 hd hl => ?_⟩
  all_goals rw [h2, Option.isSome_none, if_neg Bool.false_ne_true]
  · exact if_pos (Bool.or_eq_true _ _ ▸ hs)
  · rw [h1, hd, Bool.or_false, if_neg Bool.false_ne_true, if_pos (bne_iff_ne.mpr hl)]
    rfl
  · rw [h1, hd, Bool.or_false, if_neg Bool.false_ne_true, hl]
    rfl

/-! ## Surveys start -/

/-- What RUN_SURVEY reads of the state that its mailbox is freed in. -/
theorem surveyMbox (s : State) (c : Ctx) (op t : Nat) :
    (s.freeMbox c op).ownerOf t = s.ownerOf t ∧ (s.freeMbox c op).tileOut t = s.tileOut t ∧ (s.freeMbox c op).quadThin t = s.quadThin t ∧
      (s.freeMbox c op).ownerResets t = s.ownerResets t := by
  have hkept : ∀ {α : Type} (f : State → α), (∀ (s : State) (l : Lesar), f (s.setLesar l) = f s) → f (s.freeMbox c op) = f s := fun f hf =>
    freeMbox_field f hf s c op
  exact ⟨hkept (fun x => x.ownerOf t) fun _ _ => rfl, hkept (fun x => x.tileOut t) fun _ _ => rfl, hkept (fun x => x.quadThin t) fun _ _ => rfl,
    hkept (fun x => x.ownerResets t) fun _ _ => rfl⟩

/-- The S1 test of a tile that a partition owns is staged with the partition. -/
theorem beginS1_stages {s m : State} {c : Ctx} {t p : Nat} {pt : Part} (hfield : ∀ {α : Type} (f : State → α), (∀ (s : State) (l : Lesar), f (s.setLesar l) = f s) → f m = f s)
    (hx : m.beginS1 c t = .next (((m.takeOutReplaced t pt).owe c 0x0901).modPart p (fun v =>
      { v with staged := { v.staged with takeOut := v.staged.takeOut.filter (fun v => v.1 != t) ++ [(t, c)] } })))
    (hp : s.part p = some pt) :
    ∃ u : State, m.beginS1 c t = .next u ∧
      u.part p = some { pt with staged := { pt.staged with takeOut := pt.staged.takeOut.filter (fun v => v.1 != t) ++ [(t, c)] } } ∧
      (∀ q, q ≠ p → u.part q = s.part q) ∧ u.survey = s.survey ∧ u.mem = s.mem ∧
      ((∀ v ∈ pt.staged.takeOut, v.1 ≠ t) → onlyPart (m.owe c 0x0901) u p) := by
  have hkept : ∀ {α : Type} (f : State → α), (∀ s w : State, f (s.withReply w) = f s) → (∀ (s : State) (l : Lesar), f (s.setLesar l) = f s) →
      f ((m.takeOutReplaced t pt).owe c 0x0901) = f s := fun f hreply hlesar =>
    (owe_field f hreply hlesar _ c 0x0901).trans ((takeOutReplaced_field f hreply hlesar m t pt).trans (hfield f hlesar))
  refine ⟨_, hx, part_of_modPart _ ((hkept (fun x => x.part p) (fun _ _ => rfl) fun _ _ => rfl).trans hp), fun q hq => ?_,
    hkept State.survey (fun _ _ => rfl) fun _ _ => rfl, hkept State.mem (fun _ _ => rfl) fun _ _ => rfl, fun hnew => ?_⟩
  · exact (State.part_modPart_ne _ _ hq).trans (hkept (fun x => x.part q) (fun _ _ => rfl) fun _ _ => rfl)
  · have hnone : pt.staged.takeOut.filter (fun v => v.1 == t) = [] := List.filter_eq_nil_iff.mpr fun v hv => by simpa using hnew v hv
    have hsame : m.takeOutReplaced t pt = m := by
      rw [State.takeOutReplaced, hnone]
      rfl
    rw [hsame]
    exact onlyPart_modPart _ _ _

/-- Settles O58: the payload picks the survey, and each of the four starts or is refused by its own checks. -/
theorem surveysStart : Obligations.SurveysStart := by
  refine ⟨fun s c pl i hi h hbad => ?_, fun s c item h hitem => ?_, fun s c t h ht => ?_, fun s c h => ?_, fun s c h => ?_⟩
  · have hrun : exec i s = s.runSurvey c pl := by
      simp only [List.mem_cons, List.not_mem_nil, or_false] at hi
      rcases hi with rfl | rfl | rfl | rfl <;> rfl
    rw [hrun]
    refine runSurvey_bad h ?_
    rw [surveyBad_iff, Bool.not_eq_true', decide_eq_false_iff_not]
    exact hbad
  · have hx := runSurvey_s0 h hitem
    have hset := beginS0_settled (s.freeMbox c 0x0901) c item
    rw [← hx, survey_freeMbox] at hset
    exact hset
  · have hx := runSurvey_s1 h ht
    obtain ⟨hown, hout, hthin, hresets⟩ := surveyMbox s c 0x0901 t
    have hsv := survey_freeMbox s c 0x0901
    have hrefused := beginS1_refused (s.freeMbox c 0x0901) c t
    rw [← hx, hsv, hout, hthin, hresets] at hrefused
    obtain ⟨h1, h2, h3, h4⟩ := hrefused
    have hthin' := quadThin_iff s t
    have hout' := tileOut_iff s t
    have hresets' := ownerResets_iff s t
    refine ⟨h1, fun hs2 hr => h2 hs2 (hresets'.mpr hr), fun hs2 hr ho => h3 hs2 (eq_false_of_ne_true (mt hresets'.mp hr)) (hout'.mpr ho),
      fun hs2 hr ho hn => h4 hs2 (eq_false_of_ne_true (mt hresets'.mp hr)) (eq_false_of_ne_true (mt hout'.mp ho)) (hthin'.mpr hn),
      fun hs2 ho hn hno => ?_, fun p pt hs2 hr ho hn hsome hp => ?_⟩
    · refine hx.trans ?_
      have hgo := beginS1_unowned c (hsv ▸ hs2) (hout.trans (eq_false_of_ne_true (mt hout'.mp ho))) (hthin.trans (eq_false_of_ne_true (mt hthin'.mp hn)))
        (hown.trans hno)
      rwa [hsv] at hgo
    · have hgo := beginS1_owned c (hsv ▸ hs2) (hresets.trans (eq_false_of_ne_true (mt hresets'.mp hr)))
        (hout.trans (eq_false_of_ne_true (mt hout'.mp ho))) (hthin.trans (eq_false_of_ne_true (mt hthin'.mp hn))) (hown.trans hsome)
        ((freeMbox_part_eq s c 0x0901 p).trans hp)
      obtain ⟨u, hu, hrest⟩ := beginS1_stages (fun f hf => freeMbox_field f hf s c 0x0901) hgo hp
      exact ⟨u, hx.trans hu, hrest⟩
  · have hx := runSurvey_gazetteer h
    have hsv := survey_freeMbox s c 0x0901
    have hset := beginS1Gazetteer_settled (s.freeMbox c 0x0901) c
    rw [← hx, hsv] at hset
    obtain ⟨hrefused, hbegun⟩ := hset
    refine ⟨hrefused, fun h2 hg => ⟨_, hbegun h2 hg, ?_, fun p => ?_⟩⟩
    · have hparts : s.parts = (s.freeMbox c 0x0901).parts := (freeMbox_parts s c 0x0901).symm
      rw [hparts, ← owe_field State.parts (fun _ _ => rfl) (fun _ _ => rfl) (s.freeMbox c 0x0901) c 0x0901]
      rfl
    · have hfind := find_mapVals (fun pt : Part => if pt.gzState = 2 then { pt with gzState := 3 } else pt) p
        (((s.freeMbox c 0x0901).owe c 0x0901).setSurvey { s.survey with gzOut := some c }).parts
      refine hfind.trans (congrArg (Option.map _) ?_)
      exact (owe_part _ _ _ _).trans (freeMbox_part_eq _ _ _ _)
  · have hx := runSurvey_s2 h
    have hset := beginS2_settled (s.freeMbox c 0x0901) c
    have hs1 : (s.freeMbox c 0x0901).s1Runs = s.s1Runs := freeMbox_field State.s1Runs (fun _ _ => rfl) s c 0x0901
    have hund : (s.freeMbox c 0x0901).undrained = s.undrained := freeMbox_field State.undrained (fun _ _ => rfl) s c 0x0901
    have hguard : (s.freeMbox c 0x0901).guard = s.guard := freeMbox_field State.guard (fun _ _ => rfl) s c 0x0901
    rw [← hx, survey_freeMbox, hs1, hund, hguard] at hset
    obtain ⟨h1, h2, h3, h4⟩ := hset
    have hs1' := s1Runs_iff s
    have hund' := undrained_iff s
    exact ⟨h1, fun hs2 hor => h2 hs2 (hor.imp hs1'.mpr hund'.mpr),
      fun hs2 hn hd hl => h3 hs2 (eq_false_of_ne_true (mt hs1'.mp hn)) (eq_false_of_ne_true (mt hund'.mp (not_not_intro hd))) hl,
      fun hs2 hn hd hl => h4 hs2 (eq_false_of_ne_true (mt hs1'.mp hn)) (eq_false_of_ne_true (mt hund'.mp (not_not_intro hd))) hl⟩

end Sys2Proof.Machine
end

section
/-!
PROOFS. How a survey ends.
-/
namespace Sys2Proof.Machine

open Sys2Proof

/-! ## The S1 test of a tile (R462, R463) -/

/-- The final reply of a survey, where a frame waits for it. -/
def State.surveyAnswered (s : State) (fail : Bool) (detail : Nat) : Option Ctx → State
  | some c => s.settle c 0x0901 .ok (surveyResult fail detail)
  | none => s

theorem exec_surveyS1Passed {s : State} {t : Nat} {co : Option Ctx} (h : s.survey.out.find? (fun e => e.1 == t && !e.2.2) = some (t, co, false)) :
    exec (.surveyS1TestComplete t true) s = .next (((s.bump .sv 0 0x5C 1).tilePassed t co).surveyAnswered false 0 co) := by
  show execSurveyS1TestComplete t true s = _
  simp only [execSurveyS1TestComplete, h]
  cases co <;> rfl

theorem exec_surveyS1Failed {s : State} {t : Nat} {co : Option Ctx} (h : s.survey.out.find? (fun e => e.1 == t && !e.2.2) = some (t, co, false)) :
    exec (.surveyS1TestComplete t false) s =
      .next ((((s.bump .sv 0 0x5C 1).bump .sv 0 0x60 1).tileFailed t).surveyAnswered true t co) := by
  show execSurveyS1TestComplete t false s = _
  simp only [execSurveyS1TestComplete, h]
  cases co <;> rfl

/-- A tile that has left is cleared, and its rows read as zero. -/
theorem tileLeaves_zeroed (s : State) (t : Nat) : (s.tileLeaves t).tile t = Tile.cleared ∧
    ∀ a, Mem.read 0#8 (s.tileLeaves t).mem.scratch a = if a / 2 ^ 20 = t then 0#8 else Mem.read 0#8 s.mem.scratch a := by
  refine ⟨State.tile_modTile_self (s.clearTile t) t fun _ => Tile.cleared, fun a => ?_⟩
  have hread := tilesLeave_read a [t] s
  simpa only [List.foldl_cons, List.foldl_nil, List.mem_singleton] using hread

theorem tilePassed_unowned {s : State} {t : Nat} (co : Option Ctx) (hown : s.ownerOf t = none) :
    s.tilePassed t co = (s.tileLeaves t).setSurvey { s.survey with out := s.survey.out.filter (fun e => e.1 != t) } := by
  simp only [State.tilePassed, hown]

theorem tilePassed_resetting {s : State} {t p : Nat} {pt : Part} (co : Option Ctx) (hown : s.ownerOf t = some p) (hp : s.part p = some pt)
    (hr : pt.resetting ≠ none) :
    s.tilePassed t co = (s.tileLeaves t).setSurvey { s.survey with out := s.survey.out.filter (fun e => e.1 != t) } := by
  simp only [State.tilePassed, hown, hp, Option.any_some, if_pos (Option.isSome_iff_ne_none.mpr hr)]

theorem tilePassed_returns {s : State} {t p : Nat} {pt : Part} (co : Option Ctx) (hown : s.ownerOf t = some p) (hp : s.part p = some pt)
    (hr : pt.resetting = none) :
    s.tilePassed t co = (s.setSurvey { s.survey with out := s.survey.out.filter (fun e => e.1 != t) ++ [(t, co, true)] }).modPart p (fun pt =>
      { pt with staged := { pt.staged with putBack := pt.staged.putBack ++ [t] } }) := by
  simp only [State.tilePassed, hown, hp, Option.any_some, hr, Option.isSome_none, Bool.false_eq_true, if_false]

theorem tileFailed_unowned {s : State} {t : Nat} (hown : s.ownerOf t = none) :
    s.tileFailed t = (s.setSurvey { s.survey with out := s.survey.out.filter (fun e => e.1 != t), failed := t :: s.survey.failed.filter (· != t) }).devEvent
      .uncorrectable 0x0901 0 t := by
  simp only [State.tileFailed, hown]

theorem tileFailed_owned {s : State} {t p : Nat} (hown : s.ownerOf t = some p) :
    s.tileFailed t =
      (((s.setSurvey { s.survey with out := s.survey.out.filter (fun e => e.1 != t), failed := t :: s.survey.failed.filter (· != t) }).partEvent p
        .uncorrectable 0x0901 0 t).ownerEvent p .uncorrectable 0x0901 0 t) := by
  simp only [State.tileFailed, hown]

/-- A tile that passed returns at its partition's next meridian, or at once where no partition waits for it. -/
theorem surveyS1_passed {s : State} {t : Nat} {co : Option Ctx} (h : s.survey.out.find? (fun e => e.1 == t && !e.2.2) = some (t, co, false)) :
    let away := s.survey.out.filter (fun e => e.1 != t)
    let returned := fun (u : State) => u.survey = { s.survey with out := away } ∧ u.parts = s.parts ∧ u.regs = (s.bump .sv 0 0x5C 1).regs ∧
      u.tile t = Tile.cleared ∧ ∀ a, Mem.read 0#8 u.mem.scratch a = if a / 2 ^ 20 = t then 0#8 else Mem.read 0#8 s.mem.scratch a
    (s.ownerOf t = none → ∃ u : State, exec (.surveyS1TestComplete t true) s = .next (u.surveyAnswered false 0 co) ∧ returned u) ∧
    (∀ p pt, s.ownerOf t = some p → s.part p = some pt → pt.resetting = none → ∃ u : State,
      exec (.surveyS1TestComplete t true) s = .next (u.surveyAnswered false 0 co) ∧ u.survey = { s.survey with out := away ++ [(t, co, true)] } ∧
      u.part p = some { pt with staged := { pt.staged with putBack := pt.staged.putBack ++ [t] } } ∧ u.mem = s.mem ∧ u.regs = (s.bump .sv 0 0x5C 1).regs) ∧
    (∀ p pt, s.ownerOf t = some p → s.part p = some pt → pt.resetting ≠ none → ∃ u : State,
      exec (.surveyS1TestComplete t true) s = .next (u.surveyAnswered false 0 co) ∧ returned u) := by
  intro away returned
  have hx := exec_surveyS1Passed h
  have hown : (s.bump .sv 0 0x5C 1).ownerOf t = s.ownerOf t := rfl
  have hzero := tileLeaves_zeroed (s.bump .sv 0 0x5C 1) t
  refine ⟨fun hno => ?_, fun p pt hsome hp hr => ?_, fun p pt hsome hp hr => ?_⟩
  · rw [tilePassed_unowned co (hown.trans hno)] at hx
    exact ⟨_, hx, rfl, rfl, rfl, hzero⟩
  · rw [tilePassed_returns co (hown.trans hsome) hp hr] at hx
    exact ⟨_, hx, rfl, part_of_modPart _ hp, rfl, rfl⟩
  · rw [tilePassed_resetting co (hown.trans hsome) hp hr] at hx
    exact ⟨_, hx, rfl, rfl, rfl, hzero⟩

/-- A tile that failed is marked and reported. -/
theorem surveyS1_failed {s : State} {t : Nat} {co : Option Ctx} (h : s.survey.out.find? (fun e => e.1 == t && !e.2.2) = some (t, co, false)) :
    let s2 := ((s.bump .sv 0 0x5C 1).bump .sv 0 0x60 1).setSurvey
      { s.survey with out := s.survey.out.filter (fun e => e.1 != t), failed := t :: s.survey.failed.filter (· != t) }
    (s.ownerOf t = none → exec (.surveyS1TestComplete t false) s = .next ((s2.devEvent .uncorrectable 0x0901 0 t).surveyAnswered true t co)) ∧
    (∀ p, s.ownerOf t = some p → exec (.surveyS1TestComplete t false) s =
      .next (((s2.partEvent p .uncorrectable 0x0901 0 t).ownerEvent p .uncorrectable 0x0901 0 t).surveyAnswered true t co)) := by
  have hx := exec_surveyS1Failed h
  refine ⟨fun hno => ?_, fun p hsome => ?_⟩
  · rw [tileFailed_unowned (s := (s.bump .sv 0 0x5C 1).bump .sv 0 0x60 1) hno] at hx
    exact hx
  · rw [tileFailed_owned (s := (s.bump .sv 0 0x5C 1).bump .sv 0 0x60 1) hsome] at hx
    exact hx

/-! ## The S1 test of the gazetteer index (R464) -/

theorem exec_gazetteerIndexTestEnd {s : State} {c : Ctx} (h : s.survey.gzOut = some c) (pass : Bool) :
    exec (.gazetteerIndexTestEnd pass) s =
      (let s1 := (s.setSurvey { s.survey with gzOut := none }).bump .sv 0 0x5C 1
       .next ((if pass then s1 else s1.bump .sv 0 0x60 1).settle c 0x0901 .ok (surveyResult (!pass) 0))) := by
  show execGazetteerIndexTestEnd pass s = _
  simp only [execGazetteerIndexTestEnd, h]

/-! ## S2 (R465) -/

/-- The state of S2 with the LPDDR5X trained afresh and the tiles tested, before its events. -/
def State.s2Cleared (s : State) (channels : List Nat) : State :=
  let s1 := (s.setDramMem []).setDram
    { s.dram with acts := [], lastPort := [], targeted := [], openRows := [], throttled := [], calFails := [], bad := [], failed := channels.eraseDups.mergeSort }
  ((s1.setScratch []).setTiles []).setSurvey { s1.survey with s2 := none, failed := [] }

/-- The channels that S2 has found bad anew are reported. -/
def State.channelsReported (s : State) (news : List Nat) : State := news.foldl (fun s k => s.sharedEvent s.dramParts .uncorrectable 0 0 k) s

theorem sharedEvent_ev (s : State) (ps : List Nat) (st : Status) (a b c : Nat) : evOnly s (s.sharedEvent ps st a b c) :=
  evOnly_trans (foldl_inv (fun x : State => evOnly s x) (fun (s : State) p => s.partEvent p st a b c) (fun x _ hx => evOnly_trans hx (pushEvent_ev x _ _)) ps s
    (evOnly_refl s)) (devEvent_ev _ _ _ _ _)

theorem channelsReported_ev (s : State) (news : List Nat) : evOnly s (s.channelsReported news) :=
  foldl_inv (fun x : State => evOnly s x) (fun (s : State) k => s.sharedEvent s.dramParts .uncorrectable 0 0 k)
    (fun x _ hx => evOnly_trans hx (sharedEvent_ev x _ _ _ _ _)) news s (evOnly_refl s)

/-- The state in which S2 is answered. -/
def State.s2Ended (s : State) (channels tiles : List Nat) : State :=
  let s4 := tiles.eraseDups.foldl State.tileFailed ((s.s2Cleared channels).channelsReported (channels.filter (fun k => !s.dram.failed.contains k)))
  ((s4.parts.keys.foldl State.emptyAfterS2 s4).bump .sv 0 0x64 1).saveMap

theorem exec_surveyS2Complete {s : State} {c : Ctx} {channels tiles : List Nat} (h : s.survey.s2 = some c) (hch : ∀ k ∈ channels, k < 64)
    (ht : ∀ t ∈ tiles, t < 512) :
    exec (.surveyS2Complete channels tiles) s = .next ((s.s2Ended channels tiles).settle c 0x0901 .ok
      (surveyResult (!channels.isEmpty || !tiles.isEmpty) ((channels ++ tiles).headD 0))) := by
  have hrange : (channels.all (fun k => decide (k < 64)) && tiles.all (fun t => decide (t < 512))) = true := by
    simp only [Bool.and_eq_true, List.all_eq_true, decide_eq_true_eq]
    exact ⟨hch, ht⟩
  show execSurveyS2Complete channels tiles s = _
  simp only [execSurveyS2Complete, h, hrange, require, if_true]
  rfl

/-- What S2 leaves: everything but partitions, registers, replies and events as `s2Cleared` with the failed tiles marked. -/
theorem s2Ended_spec (s : State) (channels tiles : List Nat) :
    (s.s2Ended channels tiles).mem = { s.mem with dram := [], scratch := [] } ∧ (s.s2Ended channels tiles).tiles = [] ∧
    (s.s2Ended channels tiles).survey.s2 = none ∧ (s.s2Ended channels tiles).dram.failed = channels.eraseDups.mergeSort ∧
    (∀ t, t ∈ (s.s2Ended channels tiles).survey.failed ↔ t ∈ tiles) ∧
    (s.s2Ended channels tiles).nand = { s.nand with written := 0, saved := s.nand.map } ∧
    ∀ p, (s.s2Ended channels tiles).part p = (s.part p).map emptiedAfter := by
  obtain ⟨x, hx⟩ : ∃ x, x = (s.s2Cleared channels).channelsReported (channels.filter (fun k => !s.dram.failed.contains k)) := ⟨_, rfl⟩
  obtain ⟨y, hy⟩ : ∃ y, y = tiles.eraseDups.foldl State.tileFailed x := ⟨_, rfl⟩
  obtain ⟨z, hz⟩ : ∃ z, z = y.parts.keys.foldl State.emptyAfterS2 y := ⟨_, rfl⟩
  have hend : s.s2Ended channels tiles = (z.bump .sv 0 0x64 1).saveMap := by
    subst hz hy hx
    rfl
  have hev := channelsReported_ev (s.s2Cleared channels) (channels.filter (fun k => !s.dram.failed.contains k))
  rw [← hx] at hev
  obtain ⟨hfailed, hs2, hparts, hmem, htiles, hdram, hnand⟩ := tilesFailed_spec tiles.eraseDups x
  rw [← hy] at hfailed hs2 hparts hmem htiles hdram hnand
  have hfold : ∀ {α : Type} (f : State → α), (∀ s w : State, f (s.withReply w) = f s) → (∀ (s : State) (l : Lesar), f (s.setLesar l) = f s) →
      (∀ (s : State) r, f (s.setRegs r) = f s) → (∀ (s : State) l, f (s.setParts l) = f s) → f z = f y := fun f h1 h2 h3 h4 => by
    rw [hz]
    exact foldl_inv (fun w : State => f w = f y) State.emptyAfterS2 (fun w p hw => (emptyAfter_field f h1 h2 h3 h4 w p).trans hw) _ y rfl
  have hpart : ∀ p, z.part p = (s.part p).map emptiedAfter := fun p => by
    have hpy : y.part p = s.part p := (congrArg (fun m => NMap.find m p) hparts).trans ((ev_field (fun w : State => w.part p) (fun _ _ _ => rfl) hev).trans rfl)
    rw [hz, emptyAfters_part, hpy]
    split
    · rfl
    · rename_i hout
      cases hs : s.part p with
      | none => rfl
      | some v => exact absurd (keys_mem p v _ (hpy.trans hs)) hout
  have hzmem := hfold State.mem (fun _ _ => rfl) (fun _ _ => rfl) (fun _ _ => rfl) fun _ _ => rfl
  have hztiles := hfold State.tiles (fun _ _ => rfl) (fun _ _ => rfl) (fun _ _ => rfl) fun _ _ => rfl
  have hzsurvey := hfold State.survey (fun _ _ => rfl) (fun _ _ => rfl) (fun _ _ => rfl) fun _ _ => rfl
  have hzdram := hfold State.dram (fun _ _ => rfl) (fun _ _ => rfl) (fun _ _ => rfl) fun _ _ => rfl
  have hznand := hfold State.nand (fun _ _ => rfl) (fun _ _ => rfl) (fun _ _ => rfl) fun _ _ => rfl
  have hxmem := ev_field State.mem (fun _ _ _ => rfl) hev
  have hxtiles := ev_field State.tiles (fun _ _ _ => rfl) hev
  have hxsurvey := ev_field State.survey (fun _ _ _ => rfl) hev
  have hxdram := ev_field State.dram (fun _ _ _ => rfl) hev
  have hxnand := ev_field State.nand (fun _ _ _ => rfl) hev
  rw [hend]
  refine ⟨hzmem.trans (hmem.trans hxmem), hztiles.trans (htiles.trans hxtiles), ?_, ?_, fun t => ?_, ?_, hpart⟩
  · exact (congrArg Survey.s2 hzsurvey).trans (hs2.trans (congrArg Survey.s2 hxsurvey))
  · exact congrArg Dram.failed (hzdram.trans (hdram.trans hxdram))
  · refine (iff_of_eq (congrArg (fun v : Survey => t ∈ v.failed) hzsurvey)).trans ((hfailed t).trans ?_)
    rw [hxsurvey]
    simp [State.s2Cleared]
  · exact congrArg (fun n : Nand => { n with written := 0, saved := n.map }) (hznand.trans (hnand.trans hxnand))

theorem emptiedAfter_loaded {pt : Part} (h : pt.mstate = .loaded) : emptiedAfter pt = Part.trimKeys { modelBlank pt with mstate := .empty } := if_pos h

theorem emptiedAfter_other {pt : Part} (h : pt.mstate ≠ .loaded) : emptiedAfter pt = pt := if_neg h

/-! ## Surveys end -/

/-- Settles O59: the passes and tests end with their results, and `s2Ended_spec` says what S2 leaves. -/
theorem surveysEnd : Obligations.SurveysEnd := by
  refine ⟨fun s e fail detail h => ?_, fun s t co pass h => ?_, fun s c pass h => ?_, fun s c channels tiles h hch ht => ?_⟩
  · show execSurveyS0Complete e.1 fail detail s = _
    simp only [execSurveyS0Complete, h]
    rfl
  · cases pass with
    | true =>
      obtain ⟨hunowned, howned, hresetting⟩ := surveyS1_passed h
      cases co with
      | none => exact ⟨fun _ => hunowned, fun p pt _ => howned p pt, fun p pt _ => hresetting p pt, fun hno => nomatch hno⟩
      | some c => exact ⟨fun _ => hunowned, fun p pt _ => howned p pt, fun p pt _ => hresetting p pt, fun hno => nomatch hno⟩
    | false =>
      obtain ⟨hunowned, howned⟩ := surveyS1_failed h
      cases co with
      | none => exact ⟨fun hno => (nomatch hno), fun _ _ hno => (nomatch hno), fun _ _ hno => (nomatch hno), fun _ => ⟨hunowned, howned⟩⟩
      | some c => exact ⟨fun hno => (nomatch hno), fun _ _ hno => (nomatch hno), fun _ _ hno => (nomatch hno), fun _ => ⟨hunowned, howned⟩⟩
  · have hx := exec_gazetteerIndexTestEnd h pass
    cases pass <;> exact hx
  · have hx := exec_surveyS2Complete h hch ht
    obtain ⟨hmem, htiles, hs2, hdram, hfailed, hnand, hparts⟩ := s2Ended_spec s channels tiles
    have hresult : surveyResult (!channels.isEmpty || !tiles.isEmpty) ((channels ++ tiles).headD 0) =
        beBytes 1 (if channels = [] ∧ tiles = [] then 0 else 1) ++ beBytes 3 0 ++ beBytes 4 ((channels ++ tiles).headD 0) := by
      cases channels <;> cases tiles <;> rfl
    rw [hresult] at hx
    generalize s.s2Ended channels tiles = u at hx hmem htiles hs2 hdram hfailed hnand hparts
    refine ⟨u, hx, congrArg Mems.dram hmem, congrArg Mems.scratch hmem, (congrArg Mems.nand hmem).trans rfl, htiles, hs2, fun k => ?_, hfailed,
      congrArg Nand.saved hnand, congrArg Nand.written hnand, fun p pt hp => ⟨fun hl => ?_, fun hl => ?_⟩⟩
    · rw [hdram]
      simp
    · rw [hparts, hp, Option.map_some, emptiedAfter_other hl]
    · refine ⟨_, (hparts p).trans ((congrArg _ hp).trans (congrArg some (emptiedAfter_loaded hl))), rfl, rfl, rfl, rfl, rfl, rfl, rfl, rfl, rfl, rfl⟩

end Sys2Proof.Machine
end

section
/-!
PROOFS. Resets: what each level clears, and the sources that start and hold them.
-/
namespace Sys2Proof.Machine

open Sys2Proof

/-! ## DEVICE_RESET (R401, R432) -/

/-- The device once a queued activation and its image are discarded (R401). -/
def Dev.unqueued (d : Dev) : Dev := if d.actQueued.isSome = true then { d with actQueued := none, pendingImage := none } else d

theorem unqueued_reset (d : Dev) : d.unqueued.reset = d.reset := by
  unfold Dev.unqueued
  split <;> rfl

/-- The payload of DEVICE_RESET. -/
theorem resetPayload {lv : Nat} (h : lv < 2) : (beBytes 1 lv ++ beBytes 3 0).length = 4 ∧ beAt (beBytes 1 lv ++ beBytes 3 0) 0 1 = lv ∧
    beAt (beBytes 1 lv ++ beBytes 3 0) 1 3 = 0 := by
  refine ⟨by simp only [List.length_append, beBytes_length], (beAt_first _ _ _).trans (Nat.mod_eq_of_lt (by omega)), ?_⟩
  rw [beAt_over _ _ _ _ (by rw [beBytes_length])]
  rfl

/-- DEVICE_RESET with a payload that is in order, from the state that its mailbox is freed in. -/
def State.joinReset (m : State) (c : Ctx) (system : Bool) : State :=
  let s1 := m.setDev m.dev.unqueued
  match m.dev.reset with
  | none => s1.beginReset [c] system false
  | some j =>
    if j.saved then (s1.setDev { s1.dev with reset := some { j with system := j.system || system } }).reply c 0x0603 .ok []
    else s1.setDev { s1.dev with reset := some { j with system := j.system || system, ctxs := j.ctxs ++ [c] } }

theorem exec_deviceReset {s : State} {c : Ctx} {lv : Nat} (h : s.accepts c 0x0603 .keeperEarly true) (hlv : lv < 2) :
    exec (.deviceReset c (beBytes 1 lv ++ beBytes 3 0)) s = .next ((s.freeMbox c 0x0603).joinReset c (lv == 1)) := by
  obtain ⟨hlen, hlevel, hzero⟩ := resetPayload hlv
  have hunq : ∀ m : State, (if m.dev.actQueued.isSome = true then m.setDev { m.dev with actQueued := none, pendingImage := none } else m) =
      m.setDev m.dev.unqueued := fun m => by
    unfold Dev.unqueued
    split <;> rfl
  have hrange : ¬1 < lv := by omega
  show execDeviceReset c (beBytes 1 lv ++ beBytes 3 0) s = _
  simp only [execDeviceReset, serve_accepted h, hlen, hlevel, hzero, hunq, bne_self_eq_false, Bool.or_false, Bool.false_or, decide_eq_true_eq, hrange, if_false]
  unfold State.joinReset
  generalize s.freeMbox c 0x0603 = m
  have hdev : (m.setDev m.dev.unqueued).dev.reset = m.dev.reset := unqueued_reset m.dev
  rw [hdev]
  cases m.dev.reset with
  | none => rfl
  | some j =>
    dsimp only
    split <;> rfl

theorem joinReset_begins {m : State} (c : Ctx) (system : Bool) (h : m.dev.reset = none) :
    (m.joinReset c system).setVeolo m.veolo = m.setDev { m.dev.unqueued with reset := some { ctxs := [c], system := system, activation := false, saved := false } } := by
  unfold State.joinReset
  rw [h]
  exact beginReset_frame (m.setDev m.dev.unqueued) [c] system false

/-! ## What a core reset leaves (R402, R427) -/

/-- What every reset clears of the work, and what it keeps of the memories and the Keeper's keys. -/
def workCleared (s t : State) : Prop :=
  t.parts = [] ∧ t.tiles = [] ∧ t.tombs = [] ∧ t.lender.loans = [] ∧ t.lesar.sessions = [] ∧ t.lesar.mboxes = [] ∧ t.mem.scratch = [] ∧ t.mem.dram = [] ∧
    t.mem.nand = s.mem.nand ∧ t.mem.flash = s.mem.flash ∧ t.keeper = { s.keeper with bind := none }

theorem clearWork_cleared (s : State) : workCleared s s.clearWork := by
  obtain ⟨h1, h2, h3, h4, h5, h6, h7, h8, h9, h10, h11, _, _⟩ := clearWork_spec s
  exact ⟨h1, h2, h3, h4, h5, h6, h7, h8, h9, h10, h11⟩

theorem clearAll_cleared (s : State) (g : Guard) (r : NMap Word) : workCleared s (s.clearAll g r) := by
  obtain ⟨h1, h2, h3, h4, h5, h6, h7, h8, h9, h10, h11, _, _, _, _⟩ := clearAll_spec s g r
  exact ⟨h1, h2, h3, h4, h5, h6, h7, h8, h9, h10, h11⟩

/-- The registers after a core reset. -/
def State.coreRegs (s : State) : State := (coreBlocks.foldl State.resetBlock s.clearWork).putReg .dev 0 0x104 0

theorem setRegs_twice (s : State) (a b : NMap Word) : (s.setRegs a).setRegs b = s.setRegs b := rfl

theorem coreRegs_frame (s : State) : s.coreRegs.setRegs s.clearWork.regs = s.clearWork := by
  unfold State.coreRegs
  have h := resetBlocks_frame coreBlocks s.clearWork
  generalize coreBlocks.foldl State.resetBlock s.clearWork = x at h ⊢
  exact (setRegs_twice x _ _).trans h

theorem coreRegs_field {α : Type} (f : State → α) (hf : ∀ (s : State) r, f (s.setRegs r) = f s) (s : State) : f s.coreRegs = f s.clearWork :=
  (hf s.coreRegs s.clearWork.regs).symm.trans (congrArg f (coreRegs_frame s))

theorem coreBlocks_spare (b : Blk) (hb : b ∈ coreBlocks) : b.covers (Blk.at .dev 0 0x104) = false := by
  simp only [coreBlocks, List.mem_cons, List.not_mem_nil, or_false] at hb
  rcases hb with rfl | rfl | rfl | rfl | rfl | rfl | rfl | rfl | rfl | rfl | rfl | rfl | rfl | rfl | rfl | rfl | rfl <;> rfl

theorem clearWork_regs (s : State) : s.clearWork.regs = s.regs := by
  simp only [State.clearWork, State.setScratch, State.setDramMem, State.setLesar_regs, State.setKeeper_regs, State.setNand_regs, State.setDram_regs,
    State.setLender_regs, State.setWalks_regs, State.setTombs_regs, State.setParts_regs, State.setPods_regs, State.setTiles_regs, State.setMem_regs]

theorem coreRegs_find (s : State) (a : Nat) :
    ((∃ b ∈ coreBlocks, b.covers a = true) → NMap.find s.coreRegs.regs a = none) ∧
    ((∀ b ∈ coreBlocks, b.covers a = false) → a ≠ Blk.at .dev 0 0x104 → NMap.find s.coreRegs.regs a = NMap.find s.regs a) := by
  obtain ⟨hreset, hkept, _⟩ := resetBlocks_find a coreBlocks s.clearWork
  rw [clearWork_regs] at hkept
  unfold State.coreRegs
  generalize coreBlocks.foldl State.resetBlock s.clearWork = x at hreset hkept ⊢
  refine ⟨fun hcov => ?_, fun hcov ha => (NMap.find_insert_ne _ _ ha).trans (hkept hcov)⟩
  have hne : a ≠ Blk.at .dev 0 0x104 := by
    rintro rfl
    obtain ⟨b, hb, hc⟩ := hcov
    exact Bool.false_ne_true ((coreBlocks_spare b hb).symm.trans hc)
  exact (NMap.find_insert_ne _ _ hne).trans (hreset hcov)

theorem electMaster_num (s : State) : s.electMaster.veolo.num = s.veolo.num := by
  unfold State.electMaster
  simp only
  split <;> rfl

/-- Everything but the links, the survey, the sideband, the flash controller and the device is as the cleared work with its registers reset. -/
theorem coreReset_field {α : Type} (f : State → α) (hveolo : ∀ (s : State) v, f (s.setVeolo v) = f s) (hsurvey : ∀ (s : State) v, f (s.setSurvey v) = f s)
    (hsmb : ∀ (s : State) v, f (s.setSmb v) = f s) (hflash : ∀ (s : State) v, f (s.setFlash v) = f s) (hdev : ∀ (s : State) v, f (s.setDev v) = f s)
    (s : State) (code : Nat) (activation : Bool) : f (s.coreReset code activation) = f s.coreRegs := by
  have helect := congrArg f (electMaster_frame (s.coreRegs.setVeolo s.veolo.rejoin))
  rw [hveolo, hveolo] at helect
  exact (hdev _ _).trans ((hflash _ _).trans ((hsmb _ _).trans ((hsurvey _ _).trans helect)))

theorem coreReset_cleared (s : State) (code : Nat) (activation : Bool) : workCleared s (s.coreReset code activation) := by
  have hfield : ∀ {α : Type} (f : State → α), (∀ (s : State) v, f (s.setVeolo v) = f s) → (∀ (s : State) v, f (s.setSurvey v) = f s) →
      (∀ (s : State) v, f (s.setSmb v) = f s) → (∀ (s : State) v, f (s.setFlash v) = f s) → (∀ (s : State) v, f (s.setDev v) = f s) →
      (∀ (s : State) r, f (s.setRegs r) = f s) → f (s.coreReset code activation) = f s.clearWork := fun f h1 h2 h3 h4 h5 h6 =>
    (coreReset_field f h1 h2 h3 h4 h5 s code activation).trans (coreRegs_field f h6 s)
  have hall := hfield (fun t => workCleared s t) (fun _ _ => rfl) (fun _ _ => rfl) (fun _ _ => rfl) (fun _ _ => rfl) (fun _ _ => rfl) fun _ _ => rfl
  rw [hall]
  exact clearWork_cleared s

theorem coreReset_spec (s : State) (code : Nat) (activation : Bool) :
    (s.coreReset code activation).eth = s.eth ∧ (s.coreReset code activation).guard = s.guard ∧
    (s.coreReset code activation).veolo.num = s.veolo.num ∧ (s.coreReset code activation).regs = s.coreRegs.regs := by
  obtain ⟨_, _, _, _, _, _, _, _, _, _, _, heth, hguard⟩ := clearWork_spec s
  have heth' := (coreReset_field State.eth (fun _ _ => rfl) (fun _ _ => rfl) (fun _ _ => rfl) (fun _ _ => rfl) (fun _ _ => rfl) s code activation).trans
    (coreRegs_field State.eth (fun _ _ => rfl) s)
  have hguard' := (coreReset_field State.guard (fun _ _ => rfl) (fun _ _ => rfl) (fun _ _ => rfl) (fun _ _ => rfl) (fun _ _ => rfl) s code activation).trans
    (coreRegs_field State.guard (fun _ _ => rfl) s)
  have hregs := coreReset_field State.regs (fun _ _ => rfl) (fun _ _ => rfl) (fun _ _ => rfl) (fun _ _ => rfl) (fun _ _ => rfl) s code activation
  exact ⟨heth'.trans heth, hguard'.trans hguard, electMaster_num (s.coreRegs.setVeolo s.veolo.rejoin), hregs⟩

theorem exec_coreReset {s : State} {j : ResetJob} (h : s.dev.reset = some j) (hsaved : j.saved = true) (hcore : j.system = false) :
    exec .coreReset s = .next (s.coreReset (if j.activation then 8 else 7) j.activation) := by
  show execCoreReset s = _
  simp only [execCoreReset, h, require, hsaved, hcore, Bool.not_false, Bool.and_self, if_true]

/-! ## A system reset and its sources (R426 to R431, R440, R441) -/

theorem systemReset_runs {s : State} (code : Nat) {hold : Option Hold} (hoff : s.dev.phase ≠ .off) (hheld : s.dev.phase ≠ .held) (htrip : hold ≠ some .trip) :
    s.systemReset code hold = (s.clearAll (s.guard.registersReset s.now) []).setDev (s.dev.systemReset code hold) := by
  unfold State.systemReset
  split
  · exact absurd ‹_› hoff
  · exact absurd ‹_› hheld
  · rw [if_neg htrip]

theorem systemReset_trips {s : State} (code : Nat) (hoff : s.dev.phase ≠ .off) (hheld : s.dev.phase ≠ .held) :
    s.systemReset code (some .trip) = (s.clearAll s.guard s.guardRegs).setDev (s.dev.systemReset code (some .trip)) := by
  unfold State.systemReset
  split
  · exact absurd ‹_› hoff
  · exact absurd ‹_› hheld
  · rw [if_pos rfl]

theorem systemReset_held {s : State} (code : Nat) (hold : Option Hold) (hheld : s.dev.phase = .held) :
    s.systemReset code hold = s.setDev { s.dev with
      sticky := s.dev.sticky ||| 2 ^ code, holds := s.dev.holds ++ hold.toList.filter (fun h => !s.dev.holds.contains h),
      locked := s.dev.locked && hold != some .clock } := by
  simp only [State.systemReset, hheld]

theorem mem_addedHold (hs : List Hold) (hold : Option Hold) (h : Hold) :
    h ∈ hs ++ hold.toList.filter (fun h => !hs.contains h) ↔ h ∈ hs ∨ hold = some h := by
  cases hold with
  | none => simp
  | some k =>
    by_cases hk : k ∈ hs
    · simp [hk]
      rintro rfl
      exact hk
    · simp [hk, eq_comm]

/-- A source of Table 1 that starts a system reset, with its code and its hold. -/
def resetSource (s : State) (i : Instr) (code : Nat) (hold : Option Hold) : Prop :=
  (i, code, hold) ∈ [(Instr.watchdogExpiry, 2, none), (.resetN, 1, some .pin), (.clockLoss, 5, some .clock), (.overVoltageFault, 6, some .overVoltage)] ∨
    (i = .systemReset ∧ code = 3 ∧ hold = none ∧ ∃ j, s.dev.reset = some j ∧ j.saved = true ∧ j.system = true)

theorem resetSource_trip {s : State} {i : Instr} {code : Nat} {hold : Option Hold} (h : resetSource s i code hold) : hold ≠ some .trip := by
  simp only [resetSource, List.mem_cons, List.not_mem_nil, or_false, Prod.mk.injEq] at h
  rcases h with (⟨_, _, rfl⟩ | ⟨_, _, rfl⟩ | ⟨_, _, rfl⟩ | ⟨_, _, rfl⟩) | ⟨_, _, rfl, _⟩ <;> decide

/-- Every source starts the system reset; an over-voltage leaves its mark in the sideband as well. -/
theorem resetSource_runs {s : State} {i : Instr} {code : Nat} {hold : Option Hold} (h : resetSource s i code hold) (hoff : s.dev.phase ≠ .off)
    (hheld : s.dev.phase = .held → hold ≠ none) : ∃ v, exec i s = .next ((s.systemReset code hold).setSmb v) := by
  have hpow : s.powered = true := bne_iff_ne.mpr hoff
  simp only [resetSource, List.mem_cons, List.not_mem_nil, or_false, Prod.mk.injEq] at h
  rcases h with (⟨rfl, rfl, rfl⟩ | ⟨rfl, rfl, rfl⟩ | ⟨rfl, rfl, rfl⟩ | ⟨rfl, rfl, rfl⟩) | ⟨rfl, rfl, rfl, j, hj, hsaved, hsys⟩
  · refine ⟨(s.systemReset 2 none).smb, ?_⟩
    have hup : (s.dev.phase != .held) = true := bne_iff_ne.mpr fun hp => hheld hp rfl
    show execWatchdogExpiry s = _
    rw [execWatchdogExpiry, hpow, hup]
    rfl
  · refine ⟨(s.systemReset 1 (some .pin)).smb, ?_⟩
    show execResetN s = _
    rw [execResetN, hpow]
    rfl
  · refine ⟨(s.systemReset 5 (some .clock)).smb, ?_⟩
    show execClockLoss s = _
    rw [execClockLoss, hpow]
    rfl
  · refine ⟨{ (s.systemReset 6 (some .overVoltage)).smb with ovFault := true }, ?_⟩
    show execOverVoltageFault s = _
    rw [execOverVoltageFault, hpow]
    rfl
  · refine ⟨(s.systemReset 3 none).smb, ?_⟩
    show execSystemReset s = _
    simp only [execSystemReset, hj, require, hsaved, hsys, Bool.and_self, if_true]
    rfl

/-! ## The end of a hold -/

theorem releaseHold_last {s : State} {h : Hold} (hl : s.dev.holds.filter (· != h) = []) : s.releaseHold h = s.setDev s.dev.released := by
  simp only [State.releaseHold, hl, List.isEmpty_nil, if_true]

theorem releaseHold_more {s : State} {h : Hold} (hl : s.dev.holds.filter (· != h) ≠ []) :
    s.releaseHold h = s.setDev { s.dev with holds := s.dev.holds.filter (· != h) } := by
  rw [State.releaseHold, List.isEmpty_eq_false_iff.mpr hl]
  rfl

theorem heldBy_of {s : State} {h : Hold} (hheld : s.dev.phase = .held) (hmem : h ∈ s.dev.holds) : s.heldBy h = true := by
  rw [State.heldBy, hheld, List.contains_iff_mem.mpr hmem]
  rfl

theorem exec_release {s : State} {i : Instr} {h : Hold} (hi : (i, h) ∈ [(Instr.resetNRelease, Hold.pin), (.clockRecovery, .clock), (.overVoltageRecovery, .overVoltage)])
    (hheld : s.dev.phase = .held) (hmem : h ∈ s.dev.holds) :
    exec i s = .next ((s.setDev (if h = .clock then { s.dev with locked := true } else s.dev)).releaseHold h) := by
  have hby := heldBy_of hheld hmem
  simp only [List.mem_cons, List.not_mem_nil, or_false, Prod.mk.injEq] at hi
  rcases hi with ⟨rfl, rfl⟩ | ⟨rfl, rfl⟩ | ⟨rfl, rfl⟩
  · show execResetNRelease s = _
    rw [execResetNRelease, hby]
    rfl
  · show execClockRecovery s = _
    rw [execClockRecovery, hby]
    rfl
  · show execOverVoltageRecovery s = _
    rw [execOverVoltageRecovery, hby]
    rfl

/-! ## Power (R426, R441) -/

theorem exec_powerOnReset {s : State} (h : s.dev.phase = .off) :
    exec .powerOnReset s = .next ((s.clearAll Guard.start []).setDev { Dev.released { s.dev with sticky := 1 } with lastCause := 0, powerGood := true, locked := true }) := by
  show execPowerOnReset s = _
  rw [execPowerOnReset, State.powered, h]
  rfl

theorem exec_underVoltageFault {s : State} (h : s.dev.phase ≠ .off) : exec .underVoltageFault s = .next s.powerOff := by
  have hpow : s.powered = true := bne_iff_ne.mpr h
  show execUnderVoltageFault s = _
  rw [execUnderVoltageFault, hpow]
  rfl

/-! ## Resets clear -/

theorem systemReset_clears {s : State} {i : Instr} {code : Nat} {hold : Option Hold} (h : resetSource s i code hold) (hoff : s.dev.phase ≠ .off)
    (hheld : s.dev.phase ≠ .held) : completes i s (fun t => workCleared s t ∧
      t.regs = [] ∧ t.eth = [] ∧ t.guard.level = 0 ∧ t.veolo.numValid = false ∧ t.dev.lastCause = code ∧ t.dev.sticky = s.dev.sticky ||| 2 ^ code ∧
      (hold = none → t.dev.phase = .rom ∧ t.dev.holds = [] ∧ t.dev.bootSrc = s.dev.bootSrcPins) ∧
      (∀ h, hold = some h → t.dev.phase = .held ∧ t.dev.holds = [h] ∧ t.dev.faultLow = true)) := by
  obtain ⟨v, hx⟩ := resetSource_runs h hoff fun hp => absurd hp hheld
  rw [systemReset_runs code hoff hheld (resetSource_trip h)] at hx
  have hwork := clearAll_cleared s (s.guard.registersReset s.now) []
  obtain ⟨_, _, _, _, _, _, _, _, _, _, _, hregs, heth, hguard, hveolo⟩ := clearAll_spec s (s.guard.registersReset s.now) []
  generalize s.clearAll (s.guard.registersReset s.now) [] = x at hx hwork hregs heth hguard hveolo
  refine ⟨_, hx, hwork, hregs, heth, congrArg Guard.level hguard, congrArg Veolo.numValid hveolo, ?_, ?_, ?_, ?_⟩
  · cases hold <;> rfl
  · cases hold <;> rfl
  · rintro rfl
    exact ⟨rfl, rfl, rfl⟩
  · rintro h rfl
    exact ⟨rfl, rfl, rfl⟩

/-- Settles O51: what each level clears is said by `coreReset_cleared` and `clearAll_cleared`, what starts and ends it by the sources and holds. -/
theorem resetsClear : Obligations.ResetsClear := by
  refine ⟨fun s c lv h hlv => ?_, fun s j hj hsaved => ?_, fun s j hj hsaved hcore => ?_, fun s i code hold h => ⟨fun hoff hheld => ?_, fun hheld hsome => ?_⟩,
    fun s i h hi hheld hmem => ?_, fun s hoff => ?_, fun s hon => ⟨?_, ?_, ?_⟩, fun s => ⟨fun hw => ?_, fun hw => ?_, fun hp => ?_⟩⟩
  · have hx := exec_deviceReset h hlv
    have hdev := freeMbox_dev_eq s c 0x0603
    have hveolo := freeMbox_field State.veolo (fun _ _ => rfl) s c 0x0603
    refine ⟨fun hnone => ⟨_, hx, ?_⟩, fun j hj hsaved => ?_, fun j hj hsaved => ?_⟩
    · have hbegin := joinReset_begins c (lv == 1) (hdev ▸ hnone)
      rwa [hveolo, hdev] at hbegin
    · rw [hx, State.joinReset, hdev, hj]
      simp only [hsaved, Bool.false_eq_true, if_false]
      rfl
    · rw [hx, State.joinReset, hdev, hj]
      simp only [hsaved, if_true]
      rfl
  · show execDeviceResetMapSaved s = _
    simp only [execDeviceResetMapSaved, hj, hsaved, require, Bool.not_false, if_true]
    rfl
  · obtain ⟨heth, hguard, hnum, hregs⟩ := coreReset_spec s (if j.activation then 8 else 7) j.activation
    refine ⟨_, exec_coreReset hj hsaved hcore, coreReset_cleared s _ _, heth, hguard, hnum, rfl, rfl, rfl, rfl, fun a ha => ?_, fun a ha hne => ?_⟩
    · rw [hregs]
      exact (coreRegs_find s a).1 ha
    · rw [hregs]
      exact (coreRegs_find s a).2 ha hne
  · exact systemReset_clears h hoff hheld
  · obtain ⟨k, hk⟩ := hsome
    obtain ⟨v, hx⟩ := resetSource_runs h (fun hp => nomatch hheld.symm.trans hp) fun _ hn => nomatch hk.symm.trans hn
    rw [systemReset_held code hold hheld] at hx
    exact ⟨_, hx, rfl, rfl, hheld, rfl, fun h => mem_addedHold _ _ _⟩
  · have hx := exec_release hi hheld hmem
    have hholds : (if h = .clock then { s.dev with locked := true } else s.dev : Dev).holds = s.dev.holds := by split <;> rfl
    refine ⟨fun hl => ?_, fun hl => ?_⟩
    · rw [releaseHold_last (by rw [State.setDev_dev, hholds]; exact hl)] at hx
      exact hx
    · rw [releaseHold_more (by rw [State.setDev_dev, hholds]; exact hl)] at hx
      rw [State.setDev_dev, hholds] at hx
      exact hx
  · have hwork := clearAll_cleared s Guard.start []
    obtain ⟨_, _, _, _, _, _, _, _, _, _, _, hregs, heth, _, _⟩ := clearAll_spec s Guard.start []
    have hx := exec_powerOnReset hoff
    generalize s.clearAll Guard.start [] = x at hx hwork hregs heth
    obtain ⟨hparts, _, _, _, hsess, _, hscratch, hdram, hnand, hflash, _⟩ := hwork
    exact ⟨_, hx, hparts, hsess, hscratch, hdram, hnand, hflash, hregs, heth, rfl, rfl, rfl, rfl, rfl⟩
  · have hwork := clearAll_cleared s Guard.start []
    obtain ⟨_, _, _, _, _, _, _, _, _, _, _, hregs, heth, _, _⟩ := clearAll_spec s Guard.start []
    have hx := exec_underVoltageFault hon
    unfold State.powerOff at hx
    generalize s.clearAll Guard.start [] = x at hx hwork hregs heth
    obtain ⟨hparts, _, _, _, hsess, _, hscratch, hdram, hnand, hflash, _⟩ := hwork
    exact ⟨_, hx, hparts, hsess, hscratch, hdram, hnand, hflash, hregs, heth, rfl, rfl⟩
  · show execUnderVoltageWarning s = _
    rw [execUnderVoltageWarning, State.powered, bne_iff_ne.mpr hon]
    rfl
  · show execOverVoltageWarning s = _
    rw [execOverVoltageWarning, State.powered, bne_iff_ne.mpr hon]
    rfl
  · show execVoltageWarningEnd true s = _
    rw [execVoltageWarningEnd, if_pos rfl, hw]
    rfl
  · show execVoltageWarningEnd false s = _
    rw [execVoltageWarningEnd, if_neg Bool.false_ne_true, hw]
    rfl
  · show execWatchdogRestart s = _
    rw [execWatchdogRestart, List.contains_iff_mem.mpr hp]
    rfl

end Sys2Proof.Machine
end

section
/-!
PROOFS. The power guard: its level and its TRIP.
-/
namespace Sys2Proof.Machine

open Sys2Proof

/-! ## The level (R443, Table 12) -/

theorem guardEntries (cap : Nat) : guardEntry cap 0 1 = 400 ∧ guardEntry cap 0 2 = 412 ∧ guardEntry cap 1 1 = 352 ∧ guardEntry cap 1 2 = 368 ∧
    guardEntry cap 2 1 = cap * 8000 ∧ guardEntry cap 2 2 = (cap + 15) * 8000 := ⟨rfl, rfl, rfl, rfl, rfl, rfl⟩

theorem judge_fromNormal (g : Guard) (now cap : Nat) (hj : g.causeJ = 0) (hl : g.causeL = 0) (hp : g.causeP = 0) :
    let lvl := fun (a b v : Int) => if b ≤ v then 2 else if a ≤ v then 1 else 0
    (g.judge now cap).level = max (lvl 400 412 g.junction) (max (lvl 352 368 g.lid) (lvl (cap * 8000) ((cap + 15) * 8000) (g.average 10000000))) := by
  obtain ⟨e1, e2, e3, e4, e5, e6⟩ := guardEntries cap
  simp only [Guard.judge, hj, hl, hp, guardLevel_new, e1, e2, e3, e4, e5, e6]

/-! ## The sample (R443 to R446) -/

theorem trips_iff (g : Guard) (now : Nat) : g.trips now = true ↔
    (∃ t, g.hot = some t ∧ t + 100000 ≤ now) ∨ 392 ≤ g.lid ∨ 320 * 8000 ≤ g.average 100000 ∨ ∃ t, g.overSince = some t ∧ t + 10000 ≤ now := by
  simp only [Guard.trips, Bool.or_eq_true, Option.any_eq_true, decide_eq_true_eq, or_assoc]

/-- The guard after a sample, its level formed. -/
def State.sampled (s : State) (g : GuardReading) : Guard := (s.guard.read g (max s.now g.now)).judge (max s.now g.now) ((s.reg .pg 0 4).field 7 0)

/-- The state of a sample once the counters and the event of the level are done. -/
def State.sampleCounted (s : State) (g : GuardReading) : State :=
  ((s.at g.now).guardCounts s.guard (s.sampled g)).guardEvent s.guard (s.sampled g)

/-- The mark that the level leaves in the sideband. -/
def State.sampleMarked (s : State) (g : GuardReading) : State :=
  if (s.sampled g).level = 0 then s.sampleCounted g else (s.sampleCounted g).setSmb { (s.sampleCounted g).smb with otWarn := true }

theorem exec_guardSample {s : State} {g : GuardReading} (hon : s.dev.phase ≠ .off) {l : List Int} (hg : g.junctions = some l) (hlen : l.length = 64) :
    exec (.guardSample g) s =
      if (s.sampled g).trips (max s.now g.now) then
        (let s3 := ((s.sampleMarked g).setGuard { (s.sampleMarked g).guard with tripAt := max s.now g.now }).systemReset 4 (some .trip)
         .next (s3.setSmb { s3.smb with otFault := true }))
      else .next (s.sampleMarked g) := by
  show execGuardSample g s = _
  rw [execGuardSample, State.powered, bne_iff_ne.mpr hon, hg, Option.all_some, hlen]
  rfl

theorem sampleCounted_field {α : Type} (f : State → α) (hlesar : ∀ (s : State) (l : Lesar), f (s.setLesar l) = f s)
    (hregs : ∀ (s : State) r, f (s.setRegs r) = f s) (hguard : ∀ (s : State) v, f (s.setGuard v) = f s) (s : State) (g : GuardReading) :
    f (s.sampleCounted g) = f (s.at g.now) := by
  obtain ⟨_, hframe, _⟩ := guardCounts_spec (s.at g.now) s.guard (s.sampled g)
  have hcounts := (hguard _ _).symm.trans ((hregs _ _).symm.trans (congrArg f hframe))
  exact (ev_field f (fun s l r => (hregs _ _).trans (hlesar _ _)) (guardEvent_ev _ s.guard (s.sampled g))).trans hcounts

theorem sampleCounted_guard (s : State) (g : GuardReading) : ∃ k, (s.sampleCounted g).guard = { s.sampled g with thinNs := k } := by
  obtain ⟨k, _, hguard⟩ := guardCounts_spec (s.at g.now) s.guard (s.sampled g)
  exact ⟨k, (ev_field State.guard (fun _ _ _ => rfl) (guardEvent_ev _ s.guard (s.sampled g))).trans hguard⟩

theorem sampleMarked_field {α : Type} (f : State → α) (hsmb : ∀ (s : State) v, f (s.setSmb v) = f s) (s : State) (g : GuardReading) :
    f (s.sampleMarked g) = f (s.sampleCounted g) := by
  unfold State.sampleMarked
  split
  · rfl
  · exact hsmb _ _

theorem sampleMarked_warns (s : State) (g : GuardReading) : (s.sampleMarked g).smb.otWarn = (s.smb.otWarn || (s.sampled g).level != 0) := by
  have hsmb := sampleCounted_field State.smb (fun _ _ => rfl) (fun _ _ => rfl) (fun _ _ => rfl) s g
  unfold State.sampleMarked
  by_cases hl : (s.sampled g).level = 0
  · rw [if_pos hl, hsmb, hl]
    exact (Bool.or_false _).symm
  · rw [if_neg hl, bne_iff_ne.mpr hl, Bool.or_true]
    rfl

/-- Settles O52: a sample marks its level (`sampleMarked`), a TRIP resets and holds the device, and its release ends the hold. -/
theorem powerGuardActs : Obligations.PowerGuardActs := by
  refine ⟨fun s g l hon hg hlen => ?_, fun s hheld hmem hsince hlevel htrips => ?_⟩
  · have hx := exec_guardSample hon hg hlen
    obtain ⟨k, hcounted⟩ := sampleCounted_guard s g
    have hguard := (sampleMarked_field State.guard (fun _ _ => rfl) s g).trans hcounted
    have hwarns := sampleMarked_warns s g
    have hfield : ∀ {α : Type} (f : State → α), (∀ (s : State) v, f (s.setSmb v) = f s) → (∀ (s : State) (l : Lesar), f (s.setLesar l) = f s) →
        (∀ (s : State) r, f (s.setRegs r) = f s) → (∀ (s : State) v, f (s.setGuard v) = f s) → f (s.sampleMarked g) = f (s.at g.now) :=
      fun f h1 h2 h3 h4 => (sampleMarked_field f h1 s g).trans (sampleCounted_field f h2 h3 h4 s g)
    have hdev := hfield State.dev (fun _ _ => rfl) (fun _ _ => rfl) (fun _ _ => rfl) fun _ _ => rfl
    refine ⟨fun hno => ?_, fun htrip hheld => ?_, ?_, fun hj hl hp _ => judge_fromNormal _ _ _ hj hl hp⟩
    · rw [if_neg (mt (trips_iff (s.sampled g) (max s.now g.now)).mp hno)] at hx
      exact ⟨_, hx, congrArg (fun v : Guard => { v with thinNs := (s.sampled g).thinNs }) hguard,
        hfield State.now (fun _ _ => rfl) (fun _ _ => rfl) (fun _ _ => rfl) fun _ _ => rfl, hdev,
        hfield State.mem (fun _ _ => rfl) (fun _ _ => rfl) (fun _ _ => rfl) fun _ _ => rfl,
        hfield State.parts (fun _ _ => rfl) (fun _ _ => rfl) (fun _ _ => rfl) fun _ _ => rfl, hwarns⟩
    · rw [if_pos ((trips_iff (s.sampled g) (max s.now g.now)).mpr htrip)] at hx
      obtain ⟨x, hxdef⟩ : ∃ x, x = (s.sampleMarked g).setGuard { (s.sampleMarked g).guard with tripAt := max s.now g.now } := ⟨_, rfl⟩
      have hxdev : x.dev = s.dev := by
        rw [hxdef]
        exact hdev
      have hxguard : x.guard = { (s.sampleMarked g).guard with tripAt := max s.now g.now } := by rw [hxdef]; rfl
      rw [← hxdef] at hx
      dsimp only at hx
      rw [systemReset_trips 4 (hxdev ▸ hon) (hxdev ▸ hheld)] at hx
      obtain ⟨hparts, _, _, _, hsess, _, _, _, _, _, _, _, _, hcleared, _⟩ := clearAll_spec x x.guard x.guardRegs
      generalize x.clearAll x.guard x.guardRegs = y at hx hparts hsess hcleared
      rw [hxdev] at hx
      have hlevel : y.guard.level = (s.sampled g).level := by rw [hcleared, hxguard, hguard]
      have htripAt : y.guard.tripAt = max s.now g.now := by rw [hcleared, hxguard]
      exact ⟨_, hx, rfl, rfl, rfl, rfl, rfl, htripAt, hlevel, rfl, hparts, hsess⟩
    · have hne : l ≠ [] := fun hnil => nomatch (congrArg List.length hnil).symm.trans hlen
      obtain ⟨hmax, hmem⟩ := hottest_spec l hne
      have hjunction : (s.guard.read g (max s.now g.now)).junction = (hottestOf l).1 := by simp only [Guard.read, hg]
      rw [hjunction]
      exact ⟨rfl, rfl, rfl, rfl, hmax, hmem⟩
  · have hx : exec .tripRelease s = .next (s.releaseHold .trip) := by
      show execTripRelease s = _
      simp only [execTripRelease, heldBy_of hheld hmem, hsince, hlevel, htrips, require, decide_true, beq_self_eq_true, Bool.not_false, Bool.and_self, if_true]
    refine ⟨fun hl => ?_, fun hl => ?_⟩
    · rw [hx, releaseHold_last hl]
      rfl
    · rw [hx, releaseHold_more hl]

end Sys2Proof.Machine
end

section
/-!
PROOFS. The start sequence, from the Keeper ROM to READY_FOR_FIRMWARE.
-/
namespace Sys2Proof.Machine

open Sys2Proof

/-! ## The ROM and the runtime (R344, R351, R392) -/

/-- The state in which the ROM chooses how the start goes on: the flash scanned, the device numbered. -/
def State.romScanned (s : State) : State := s.scanFlash.setVeolo (s.scanFlash.veolo.numbered s.scanFlash.params)

theorem romScanned_dev (s : State) : s.romScanned.dev = s.dev := by
  rw [State.romScanned, State.setVeolo_dev, scanFlash_dev]

theorem keeperRomStart_twin {s : State} (h : s.dev.phase = .rom) {t : Nat} {other : Bool} (hsrc : s.dev.bootSrc = 0)
    (ht : s.romScanned.bootTwin = some (t, other)) : exec .keeperRomStart s =
      .next ((s.romScanned.setDev { s.dev with phase := .runtime, rtImage := s.romScanned.twinImage t, rtFromNet := false }).setFlash
        { s.romScanned.flash with fallback := other }) := by
  rw [← romScanned_dev s]
  unfold State.romScanned at ht ⊢
  show execKeeperRomStart s = _
  simp only [execKeeperRomStart, h, require, beq_self_eq_true, if_true, hsrc, ht]

theorem keeperRomStart_recovers {s : State} (h : s.dev.phase = .rom) (hsrc : s.dev.bootSrc = 0 ∧ s.romScanned.bootTwin = none ∨ s.dev.bootSrc = 2) :
    exec .keeperRomStart s = .next (s.romScanned.setDev { s.dev with phase := .recovery }) := by
  rw [← romScanned_dev s]
  unfold State.romScanned at hsrc ⊢
  show execKeeperRomStart s = _
  rcases hsrc with ⟨hsrc, ht⟩ | hsrc
  · simp only [execKeeperRomStart, h, require, beq_self_eq_true, if_true, hsrc, ht]
  · simp only [execKeeperRomStart, h, require, beq_self_eq_true, if_true, hsrc]

theorem keeperRomStart_nets {s : State} (h : s.dev.phase = .rom) (hsrc : s.dev.bootSrc = 1) :
    exec .keeperRomStart s = .next (s.romScanned.setDev { s.dev with phase := .netBoot }) := by
  rw [← romScanned_dev s]
  show execKeeperRomStart s = _
  simp only [execKeeperRomStart, h, require, beq_self_eq_true, if_true, hsrc]
  rfl

theorem keeperRomStart_tests {s : State} (h : s.dev.phase = .rom) (hsrc : 3 ≤ s.dev.bootSrc) :
    exec .keeperRomStart s = .next (s.romScanned.setDev { s.dev with phase := .factory }) := by
  rw [← romScanned_dev s]
  obtain ⟨k, hk⟩ := Nat.exists_eq_add_of_le' hsrc
  show execKeeperRomStart s = _
  simp only [execKeeperRomStart, h, require, beq_self_eq_true, if_true, hk]
  rfl

/-- The state of the runtime's start once the rings are mended and the HALF_ERASED sectors checked. -/
def State.ringsMended (s : State) (blank : List Nat) : State :=
  s.mendRings.setFlash { s.mendRings.flash with blankOk := s.mendRings.flash.half.map (fun n => (n, blank.contains n)) }

theorem exec_keeperRuntimeStart {s : State} (h : s.dev.phase = .runtime) (blank : List Nat) : exec (.keeperRuntimeStart blank) s =
    (let s2 := s.ringsMended blank
     let recover := fun (t : State) => t.setDev { t.dev with phase := .recovery, wdogMs := 1000 }
     if 4 ≤ s2.flash.starts then .next (recover s2)
     else .next (if 4 ≤ (s2.counter 0x11).flash.starts then recover (s2.counter 0x11)
       else (s2.counter 0x11).setDev { (s2.counter 0x11).dev with phase := .checked, wdogMs := 1000 })) := by
  show execKeeperRuntimeStart blank s = _
  simp only [execKeeperRuntimeStart, h, require, beq_self_eq_true, if_true]
  rfl

theorem counter_starts (s : State) : (s.counter 0x11).flash.starts = min 255 (s.flash.starts + 1) := by
  obtain ⟨_, _, hstarts, _⟩ := counter_keeps s 0x11
  exact hstarts

/-! ## The Port die (R391) -/

/-- A link that hails at the release of the Port die, where it may. -/
def State.hailed (s : State) (i : Nat) : Link :=
  if (s.link i).st = .disabled ∨ (s.veolo.numValid = true ∧ s.expected (i / 2) = none) then s.link i else { s.link i with st := .hail, equalHails := 0 }

theorem linkHails_hailed (s : State) (i : Nat) : (s.linkHails i).link i = s.hailed i := by
  obtain ⟨_, _, _, hdisabled, hbeyond, hhails⟩ := linkHails_spec s i
  unfold State.hailed
  split
  · rename_i hno
    rcases hno with hd | ⟨hv, he⟩
    · exact hdisabled hd
    · exact hbeyond hv he
  · rename_i hno
    rw [not_or, not_and] at hno
    refine hhails hno.1 ?_
    cases hv : s.veolo.numValid with
    | false => exact Or.inl rfl
    | true => exact Or.inr (Option.isSome_iff_ne_none.mpr (hno.2 hv))

/-- Only links have changed: those of `done` are as `hailed` says, the others as they were. -/
structure HailedOnly (s t : State) (done : List Nat) : Prop where
  frame : t.setVeolo s.veolo = s
  veolo : t.veolo = { s.veolo with links := t.veolo.links }
  links : ∀ i, t.link i = if i ∈ done then s.hailed i else s.link i

theorem HailedOnly.next {s t : State} {done : List Nat} (h : HailedOnly s t done) {i : Nat} (hi : i ∉ done) : HailedOnly s (t.linkHails i) (i :: done) := by
  obtain ⟨hframe, hveolo, hlinks⟩ := h
  obtain ⟨hframe', hveolo', hothers, _⟩ := linkHails_spec t i
  have hlink : t.link i = s.link i := (hlinks i).trans (if_neg hi)
  have hvalid : t.veolo.numValid = s.veolo.numValid := (congrArg Veolo.numValid hveolo).trans rfl
  have hexpected : ∀ d, t.expected d = s.expected d := fun d => by
    unfold State.expected
    rw [hveolo]
  have hhailed : t.hailed i = s.hailed i := by
    unfold State.hailed
    rw [hlink, hvalid, hexpected]
  refine ⟨?_, ?_, fun j => ?_⟩
  · exact (congrArg (fun x : State => x.setVeolo s.veolo) hframe').trans hframe
  · rw [hveolo'] at *
    rw [hveolo]
  · by_cases hj : j = i
    · rw [hj, linkHails_hailed, hhailed, if_pos (List.mem_cons_self ..)]
    · rw [hothers j hj, hlinks j]
      simp only [List.mem_cons, hj, false_or]

theorem hailedOnly_fold (s : State) : ∀ (l : List Nat) (done : List Nat) (t : State), HailedOnly s t done → l.Nodup → (∀ i ∈ l, i ∉ done) →
    HailedOnly s (l.foldl State.linkHails t) (l.reverse ++ done)
  | [], _, _, h, _, _ => h
  | i :: l, done, t, h, hnodup, hout => by
    rw [List.foldl_cons, List.reverse_cons, List.append_assoc]
    obtain ⟨hi, hl⟩ := List.nodup_cons.mp hnodup
    refine hailedOnly_fold s l (i :: done) (t.linkHails i) (h.next (hout i (List.mem_cons_self ..))) hl fun j hj hmem => ?_
    rcases List.mem_cons.mp hmem with rfl | hmem
    · exact hi hj
    · exact hout j (List.mem_cons_of_mem _ hj) hmem

theorem linksHail (s : State) : HailedOnly s ((List.range 8).foldl State.linkHails s) ((List.range 8).reverse ++ []) :=
  hailedOnly_fold s (List.range 8) [] s ⟨rfl, rfl, fun _ => rfl⟩ List.nodup_range fun _ _ => List.not_mem_nil

theorem portDieRelease_completes {s : State} (h : s.dev.phase = .checked) : completes .portDieRelease s (fun t =>
    t.dev = { s.dev with phase := .portDie } ∧ t.mem = { s.mem with scratch := [] } ∧ ∀ i, i < 8 → t.link i = s.hailed i) := by
  obtain ⟨x, hx⟩ : ∃ x, x = (s.setScratch []).setDev { s.dev with phase := .portDie } := ⟨_, rfl⟩
  obtain ⟨hframe, _, hlinks⟩ := linksHail x
  have hexec : exec .portDieRelease s = .next ((List.range 8).foldl State.linkHails x).electMaster := by
    rw [hx]
    show execPortDieRelease s = _
    simp only [execPortDieRelease, h, require, beq_self_eq_true, if_true]
  have hfield : ∀ {α : Type} (f : State → α), (∀ (s : State) v, f (s.setVeolo v) = f s) → f ((List.range 8).foldl State.linkHails x).electMaster = f x :=
    fun f hf => ((hf _ _).symm.trans (congrArg f (electMaster_frame _))).trans ((hf _ _).symm.trans (congrArg f hframe))
  refine ⟨_, hexec, (hfield State.dev fun _ _ => rfl).trans (by rw [hx]; rfl), (hfield State.mem fun _ _ => rfl).trans (by rw [hx]; rfl), fun i hi => ?_⟩
  have hsame : x.hailed i = s.hailed i := by rw [hx]; rfl
  rw [electMaster_link, hlinks i, hsame, if_pos]
  rw [List.append_nil, List.mem_reverse, List.mem_range]
  exact hi

/-! ## The training of the memory (R391) -/

theorem dramTraining_completes {s : State} {bad : List Nat} (h : s.dev.phase = .portDie) (hbad : ∀ k ∈ bad, k < 64) :
    completes (.dramTrainingComplete bad) s (fun t => t.dev = { s.dev with phase := .trained } ∧ t.mem = s.mem ∧ t.parts = s.parts ∧ t.dram.calFails = [] ∧
      (∀ k, k ∈ t.dram.failed ↔ k ∈ bad) ∧ (bad = [] → t.lesar = s.lesar)) := by
  obtain ⟨x, hx⟩ : ∃ x, x = (s.setDram { s.dram with failed := bad.eraseDups.mergeSort, calFails := [] }).setDev { s.dev with phase := .trained } := ⟨_, rfl⟩
  have hrange : bad.all (fun k => decide (k < 64)) = true := by
    rw [List.all_eq_true]
    exact fun k hk => decide_eq_true (hbad k hk)
  have hexec : exec (.dramTrainingComplete bad) s = .next (bad.eraseDups.mergeSort.foldl (fun s k => s.devEvent .uncorrectable 0 0 k) x) := by
    rw [hx]
    show execDramTrainingComplete bad s = _
    simp only [execDramTrainingComplete, h, hrange, require, beq_self_eq_true, Bool.and_self, if_true]
  have hev : evOnly x (bad.eraseDups.mergeSort.foldl (fun s k => s.devEvent .uncorrectable 0 0 k) x) :=
    foldl_inv (fun w : State => evOnly x w) (fun (s : State) k => s.devEvent .uncorrectable 0 0 k) (fun w _ hw => evOnly_trans hw (devEvent_ev w _ _ _ _)) _ x
      (evOnly_refl x)
  have hfield : ∀ {α : Type} (f : State → α), (∀ (s : State) (l : Lesar) r, f ((s.setLesar l).setRegs r) = f s) →
      f (bad.eraseDups.mergeSort.foldl (fun s k => s.devEvent .uncorrectable 0 0 k) x) = f x := fun f hf => ev_field f hf hev
  refine ⟨_, hexec, (hfield State.dev fun _ _ _ => rfl).trans (by rw [hx]; rfl), (hfield State.mem fun _ _ _ => rfl).trans (by rw [hx]; rfl),
    (hfield State.parts fun _ _ _ => rfl).trans (by rw [hx]; rfl), (hfield (fun t => t.dram.calFails) fun _ _ _ => rfl).trans (by rw [hx]; rfl), fun k => ?_,
    fun hnone => ?_⟩
  · rw [(hfield (fun t => t.dram.failed) fun _ _ _ => rfl).trans (by rw [hx]; rfl : x.dram.failed = bad.eraseDups.mergeSort)]
    simp
  · have hsorted : bad.eraseDups.mergeSort = [] := by
      rw [hnone]
      simp
    rw [hsorted, List.foldl_nil, hx]
    rfl

/-! ## READY_FOR_FIRMWARE and the frames held until then (R391, R393, R394, R400) -/

/-- The state of READY_FOR_FIRMWARE before a pending image is looked at. -/
def State.firmwareReady (s : State) (ms : Nat) : State :=
  (s.setLesar { s.lesar with startBuf := [] }).setDev { s.dev with phase := .ready, readyMs := min 0xFFFF ms, activating := false }

/-- A pending image is released where its check finds nothing. -/
def releaseChecked (img : Bytes) : Option Status × State → State
  | (none, t) => (t.setDev { t.dev with pendingImage := none }).release img none
  | (some _, t) => t

/-- After an activation the pending image is checked again and released (R400). -/
def State.pendingReleased (s : State) (gen : Nat) : Bool → Option Bytes → State
  | true, some img => releaseChecked img (s.firmwareCheck img gen)
  | _, _ => s

theorem exec_readyForFirmware {s : State} (h : s.dev.phase = .trained) (ms : Nat) : exec (.readyForFirmware ms) s =
    State.processStart s.lesar.startBuf ((s.firmwareReady ms).pendingReleased s.dev.pendingGen s.dev.activating s.dev.pendingImage) := by
  show execReadyForFirmware ms s = _
  simp only [execReadyForFirmware, h, require, beq_self_eq_true, if_true]
  unfold State.pendingReleased
  rfl

theorem pendingReleased_none (s : State) (gen : Nat) {activating : Bool} {pending : Option Bytes} (h : activating = false ∨ pending = none) :
    s.pendingReleased gen activating pending = s := by
  rcases h with rfl | rfl
  · rfl
  · cases activating <;> rfl

theorem andThen_next (r : Res) : andThen r (fun s => .next s) = r := by
  cases r <;> rfl

theorem processStart_one (s : State) (f : Via × Bytes) : State.processStart [f] s = s.lesarFrame f.1 f.2 := andThen_next _

theorem firmwareCheck_invalid {img : Bytes} {st : Status} (s : State) (gen : Nat) (hcheck : imageCheck 2 img = some st) :
    s.firmwareCheck img gen = (some st, if st = .signatureInvalid then s.bump .kpr 0 0x04 1 else s) := by
  unfold State.firmwareCheck
  rw [hcheck]

theorem firmwareCheck_valid {img : Bytes} (s : State) (gen : Nat) (hcheck : imageCheck 2 img = none) :
    s.firmwareCheck img gen = (if s.compatible img gen then none else some .fwVersionRefused, s) := by
  unfold State.firmwareCheck
  rw [hcheck]

theorem pendingReleased_good {s : State} {gen : Nat} {img : Bytes} (hcheck : imageCheck 2 img = none) (hcomp : s.compatible img gen = true) :
    s.pendingReleased gen true (some img) = s.setDev { s.dev with pendingImage := none, fwImage := img, fwAwait := some none, heartbeats := 0 } := by
  have hvalid := firmwareCheck_valid s gen hcheck
  rw [hcomp, if_pos rfl] at hvalid
  show releaseChecked img (s.firmwareCheck img gen) = _
  rw [hvalid]
  rfl

theorem compatible_congr {x y : State} (h : x.dev.rtImage = y.dev.rtImage) (img : Bytes) (gen : Nat) : x.compatible img gen = y.compatible img gen := by
  unfold State.compatible
  rw [h]

theorem readyForFirmware_activates {s : State} (h : s.dev.phase = .trained) (ms : Nat) {img : Bytes} (ha : s.dev.activating = true)
    (hp : s.dev.pendingImage = some img) (hbuf : s.lesar.startBuf = []) (hcheck : imageCheck 2 img = none) (hcomp : s.compatible img s.dev.pendingGen = true) :
    exec (.readyForFirmware ms) s = .next ((s.firmwareReady ms).setDev
      { (s.firmwareReady ms).dev with pendingImage := none, fwImage := img, fwAwait := some none, heartbeats := 0 }) := by
  rw [exec_readyForFirmware h ms, ha, hp, hbuf, pendingReleased_good (s := s.firmwareReady ms) hcheck ((compatible_congr rfl img _).trans hcomp)]
  rfl

theorem startFrame_holds (s : State) (via : Via) {raw : Bytes} (h5 : (parseHdr raw).kind ≠ 5) (h6 : (parseHdr raw).kind ≠ 6) :
    s.startFrame via raw = s.holdFrame via raw := by
  simp only [State.startFrame, h5, h6, decide_false, Bool.or_false, Bool.false_and, Bool.false_eq_true, if_false]

theorem exec_startFrameHold {s : State} (h : s.dev.phase = .portDie ∨ s.dev.phase = .trained) (via : Via) {raw : Bytes} (h5 : (parseHdr raw).kind ≠ 5)
    (h6 : (parseHdr raw).kind ≠ 6) : exec (.startFrameHold via raw) s = .next (s.holdFrame via raw) := by
  have hphase : (s.dev.phase == .portDie || s.dev.phase == .trained) = true := by
    rwa [Bool.or_eq_true, beq_iff_eq, beq_iff_eq]
  show execStartFrameHold via raw s = _
  rw [execStartFrameHold, hphase, startFrame_holds s via h5 h6]
  rfl

theorem holdFrame_room {s : State} {via : Via} (raw : Bytes)
    (h : s.lesar.startBuf.length < 64 ∧ (s.lesar.startBuf.filter (fun e => e.1.src == via.src)).length < 8) :
    s.holdFrame via raw = s.setLesar { s.lesar with startBuf := s.lesar.startBuf ++ [(via, raw)] } := by
  simp only [State.holdFrame, h, decide_true, Bool.and_self, if_true]

theorem holdFrame_full {s : State} {via : Via} (raw : Bytes)
    (h : ¬(s.lesar.startBuf.length < 64 ∧ (s.lesar.startBuf.filter (fun e => e.1.src == via.src)).length < 8)) :
    s.holdFrame via raw = s.setDev { s.dev with startDrops := min 0xFFFFFFFF (s.dev.startDrops + 1) } := by
  simp only [State.holdFrame]
  rw [if_neg (by rwa [Bool.and_eq_true, decide_eq_true_eq, decide_eq_true_eq])]

/-! ## Network boot (R392) -/

/-- A message of network boot outside its layout. -/
def netBad (pl : Bytes) : Bool :=
  pl.length < 8 || decide (4 ≤ beAt pl 0 1) || beAt pl 1 3 != 0 || beAt pl 4 4 % 16 != 0 || (pl.drop 8).length % 16 != 0 ||
    decide (4080 < (pl.drop 8).length)

theorem netBad_eq_false (pl : Bytes) : netBad pl = false ↔ 8 ≤ pl.length ∧ beAt pl 0 1 < 4 ∧ beAt pl 1 3 = 0 ∧ beAt pl 4 4 % 16 = 0 ∧
    (pl.drop 8).length % 16 = 0 ∧ (pl.drop 8).length ≤ 4080 := by
  simp only [netBad, Bool.or_eq_false_iff, decide_eq_false_iff_not, bne_eq_false_iff_eq, Nat.not_le, Nat.not_lt, and_assoc]

/-- The context of a frame of network boot. -/
def netCtx (via : Via) (handle : Nat) : Ctx := { sess := 0xFFFF, part := 0xFFFF, handle := handle, via := some via }

/-- The answer to a message of network boot. -/
def State.netSays (s : State) (via : Via) (handle : Nat) (st : Status) : State := s.sendBare via (replyFrame (netCtx via handle) 0x0601 st 48 [])

/-- The state that a message of network boot comes to where the bytes before it are `bs`. -/
def State.netTakes (s : State) (via : Via) (handle : Nat) (pl bs : Bytes) : State :=
  let img := bs ++ pl.drop 8
  let ended := s.setDev { s.dev with load := none, netSrc := none }
  if beAt pl 4 4 != bs.length || decide (16777216 < img.length) then ended.netSays via handle .badFrame
  else if beAt pl 0 1 / 2 % 2 = 0 then
    (s.setDev { s.dev with netSrc := some via.src, load := some { sess := 0xFFFF, ctx := netCtx via handle, gen := 3, bytes := img, last := false } }).netSays via handle .ok
  else
    match imageCheck 1 img with
    | some st => (if st = .signatureInvalid then ended.bump .kpr 0 0x04 1 else ended).netSays via handle st
    | none =>
      if imageVersion img < s.params.floor then ended.netSays via handle .notPermitted
      else (s.setDev { s.dev with load := none, netSrc := none, rtImage := img, rtFromNet := true, phase := .runtime }).netSays via handle .ok

theorem exec_networkBootImage {s : State} (h : s.dev.phase = .netBoot) {via : Via} (hport : via.port = 0) (handle : Nat) (pl : Bytes) :
    exec (.networkBootImage via handle pl) s = .next (s.netBootFrame via handle pl) := by
  show execNetworkBootImage via handle pl s = _
  simp only [execNetworkBootImage, h, hport, require, beq_self_eq_true, Bool.and_self, if_true]

theorem netBootFrame_otherSource {s : State} {via : Via} (handle : Nat) (pl : Bytes) (h : ∃ n, s.dev.netSrc = some n ∧ n ≠ via.src) :
    s.netBootFrame via handle pl = s.netSays via handle .notPermitted := by
  obtain ⟨n, hn, hne⟩ := h
  simp only [State.netBootFrame, hn, Option.any_some, if_pos (bne_iff_ne.mpr hne)]
  rfl

theorem netSource_same {s : State} {via : Via} (h : ∀ n, s.dev.netSrc = some n → n = via.src) : s.dev.netSrc.any (· != via.src) = false := by
  cases hn : s.dev.netSrc with
  | none => rfl
  | some n => exact bne_eq_false_iff_eq.mpr (h n hn)

theorem netBootFrame_bad {s : State} {via : Via} (handle : Nat) {pl : Bytes} (h : ∀ n, s.dev.netSrc = some n → n = via.src) (hbad : netBad pl = true) :
    s.netBootFrame via handle pl = s.netSays via handle .badFrame := by
  unfold netBad at hbad
  simp only [State.netBootFrame, netSource_same h, Bool.false_eq_true, if_false, hbad, if_true]
  rfl

theorem netBootFrame_takes {s : State} {via : Via} (handle : Nat) {pl bs : Bytes} (h : ∀ n, s.dev.netSrc = some n → n = via.src) (hgood : netBad pl = false)
    (hbs : (if beAt pl 0 1 % 2 = 1 then some [] else s.dev.load.map (·.bytes)) = some bs) :
    s.netBootFrame via handle pl = s.netTakes via handle pl bs := by
  unfold netBad at hgood
  simp only [State.netBootFrame, netSource_same h, Bool.false_eq_true, if_false, hgood, hbs]
  rfl

theorem netTakes_misplaced {s : State} {via : Via} {handle : Nat} {pl bs : Bytes} (h : beAt pl 4 4 ≠ bs.length ∨ 16777216 < (bs ++ pl.drop 8).length) :
    s.netTakes via handle pl bs = (s.setDev { s.dev with load := none, netSrc := none }).netSays via handle .badFrame := by
  refine if_pos ?_
  rwa [Bool.or_eq_true, bne_iff_ne, decide_eq_true_eq]

/-- A message in its place: what is left to look at is whether it is the last one. -/
theorem netTakes_placed {pl bs : Bytes} (h : beAt pl 4 4 = bs.length) (hlen : (bs ++ pl.drop 8).length ≤ 16777216) :
    (beAt pl 4 4 != bs.length || decide (16777216 < (bs ++ pl.drop 8).length)) = false := by
  rw [Bool.or_eq_false_iff, bne_eq_false_iff_eq, decide_eq_false_iff_not]
  exact ⟨h, Nat.not_lt.mpr hlen⟩

/-! ## The start sequence runs -/

/-- Settles O53: the start's commands, one after the other. -/
theorem startSequenceRuns : Obligations.StartSequenceRuns := by
  refine ⟨fun s h => ⟨fun t other hsrc ht => keeperRomStart_twin h hsrc ht, fun hsrc => keeperRomStart_recovers h hsrc, fun hsrc => keeperRomStart_nets h hsrc,
      fun hsrc => keeperRomStart_tests h hsrc⟩, fun s blank h => ?_, fun s h => ?_, fun s bad h hbad => dramTraining_completes h hbad, fun s ms h => ?_,
    fun s via raw h h5 h6 => ?_, fun s via handle pl h hport => ?_⟩
  · have hx := exec_keeperRuntimeStart h blank
    have hstarts := counter_starts (s.ringsMended blank)
    dsimp only at hx
    rw [hstarts] at hx
    refine ⟨fun hfew => ?_, fun hthree => ?_, fun hmany => ?_⟩
    · have hfew' : (s.ringsMended blank).flash.starts < 3 := hfew
      rw [if_neg (by omega), if_neg (by omega)] at hx
      exact hx
    · have hthree' : (s.ringsMended blank).flash.starts = 3 := hthree
      rw [if_neg (by omega), if_pos (by omega)] at hx
      exact hx
    · have hmany' : 4 ≤ (s.ringsMended blank).flash.starts := hmany
      rw [if_pos hmany'] at hx
      exact hx
  · obtain ⟨t, hx, hdev, hmem, hlinks⟩ := portDieRelease_completes h
    refine ⟨t, hx, hdev, hmem, fun i hi => ⟨fun hd => ?_, fun hv he => ?_, fun hd hv => ?_⟩⟩
    · exact (hlinks i hi).trans (if_pos (Or.inl hd))
    · exact (hlinks i hi).trans (if_pos (Or.inr ⟨hv, he⟩))
    · refine (hlinks i hi).trans (if_neg ?_)
      rintro (hd' | ⟨hv', he⟩)
      · exact hd hd'
      · rcases hv with hv | he'
        · exact Bool.false_ne_true (hv.symm.trans hv')
        · rw [he] at he'
          exact Bool.false_ne_true he'
  · refine ⟨fun hnone => ⟨fun hbuf => ?_, fun via raw hbuf => ?_⟩, fun img ha hp hbuf hcheck hcomp => readyForFirmware_activates h ms ha hp hbuf hcheck hcomp⟩
    · rw [exec_readyForFirmware h ms, pendingReleased_none _ _ hnone, hbuf]
      rfl
    · rw [exec_readyForFirmware h ms, pendingReleased_none _ _ hnone, hbuf]
      exact processStart_one _ _
  · rw [exec_startFrameHold h via h5 h6]
    exact ⟨fun hroom => congrArg _ (holdFrame_room raw hroom), fun hfull => congrArg _ (holdFrame_full raw hfull)⟩
  · rw [exec_networkBootImage h hport]
    refine ⟨fun hother => congrArg _ (netBootFrame_otherSource handle pl hother), fun hsame hbad => ?_, fun bs hsame hgood hbs => ?_⟩
    · exact congrArg _ (netBootFrame_bad handle hsame (eq_true_of_ne_false (mt (netBad_eq_false pl).mp hbad)))
    · rw [netBootFrame_takes handle hsame ((netBad_eq_false pl).mpr hgood) hbs]
      refine ⟨fun hoff => congrArg _ (netTakes_misplaced hoff), fun hoff hlen => ?_⟩
      have hplaced := netTakes_placed hoff hlen
      refine ⟨fun hmore => ?_, fun hlast hcheck hold => ?_, fun hlast hcheck hnew => ?_⟩
      all_goals unfold State.netTakes
      · simp only [hplaced, Bool.false_eq_true, if_false, if_pos hmore]
        rfl
      · simp only [hplaced, Bool.false_eq_true, if_false, hlast, one_ne_zero, hcheck, hold, if_true]
        rfl
      · simp only [hplaced, Bool.false_eq_true, if_false, hlast, one_ne_zero, hcheck, if_neg (Nat.not_lt.mpr hnew)]
        rfl

end Sys2Proof.Machine
end

section
/-!
PROOFS. LOAD_FIRMWARE, the check of its image and the first heartbeat.
-/
namespace Sys2Proof.Machine

open Sys2Proof

/-! ## LOAD_FIRMWARE (R396) -/

/-- The payload of LOAD_FIRMWARE. -/
def loadFrame (flags off : Nat) (d : Bytes) : Bytes := beBytes 1 flags ++ (beBytes 3 0 ++ (beBytes 4 off ++ d))

theorem loadFrame_fields {flags off : Nat} (d : Bytes) (hf : flags < 4) (ho : off < 4294967296) :
    (loadFrame flags off d).length - 8 = d.length ∧ 8 ≤ (loadFrame flags off d).length ∧ beAt (loadFrame flags off d) 0 1 = flags ∧
      beAt (loadFrame flags off d) 1 3 = 0 ∧ beAt (loadFrame flags off d) 4 4 = off ∧ (loadFrame flags off d).drop 8 = d := by
  have hlen : (loadFrame flags off d).length = 8 + d.length := by
    simp only [loadFrame, List.length_append, beBytes_length]
    omega
  refine ⟨by omega, by omega, (beAt_first _ _ _).trans (Nat.mod_eq_of_lt (by omega)), ?_, ?_, ?_⟩
  · rw [loadFrame, beAt_skip _ _ _ _ 1 (beBytes_length _ _) (by decide)]
    exact beAt_first _ _ _
  · rw [loadFrame, beAt_skip _ _ _ _ 1 (beBytes_length _ _) (by decide), beAt_skip _ _ _ _ 3 (beBytes_length _ _) (by decide)]
    exact (beAt_first _ _ _).trans (Nat.mod_eq_of_lt ho)
  · rw [loadFrame, ← List.append_assoc, ← List.append_assoc]
    exact List.drop_left' (by simp only [List.length_append, beBytes_length])

theorem loadFrame_good {flags off gen : Nat} {d : Bytes} (hf : flags < 4) (ho : off < 4294967296) (h16 : off % 16 = 0) (hd : d.length % 16 = 0)
    (hlen : d.length ≤ if gen = 2 then 224 else 4080) : loadBad gen (loadFrame flags off d) = false := by
  obtain ⟨hrest, h8, hflags, hzero, hoff, _⟩ := loadFrame_fields d hf ho
  have h8' : ¬(loadFrame flags off d).length < 8 := by omega
  have hf' : ¬4 ≤ flags := by omega
  simp only [loadBad, hrest, hflags, hzero, hoff, h16, hd, h8', hf', Nat.not_lt.mpr hlen, decide_false, bne_self_eq_false, Bool.or_self]

/-- The load of a frame that may go on is the frame's own, and no image is being tried or waits for its activation. -/
def State.loadOpen (s : State) (c : Ctx) (first : Bool) : Prop :=
  s.dev.fwAwait = none ∧ (∀ l, s.dev.load = some l → l.last = false ∧ l.sess = c.sess) ∧ (first = true → s.dev.actQueued = none)

theorem loadOpen_iff (s : State) (c : Ctx) (first : Bool) : s.loadOpen c first ↔
    (s.dev.fwAwait.isSome || s.dev.load.any (fun l => l.last || l.sess != c.sess) || (first && s.dev.actQueued.isSome)) = false := by
  simp only [State.loadOpen, Bool.or_eq_false_iff, Option.isSome_eq_false_iff, Option.isNone_iff_eq_none, Option.any_eq_false, bne_eq_false_iff_eq,
    Bool.and_eq_false_imp, and_assoc]

/-- The bytes of the image before a message. -/
def State.loadedSoFar (s : State) (first : Bool) : Option Bytes := if first then some [] else s.dev.load.map (·.bytes)

/-- The state of a LOAD_FIRMWARE whose message takes its place behind the bytes `bs`. -/
def State.loadTaken (s m : State) (c : Ctx) (first last : Bool) (img : Bytes) : State :=
  m.setDev { s.dev with pendingImage := if first then none else s.dev.pendingImage,
                        load := some { sess := c.sess, ctx := c, gen := s.genOf c, bytes := img, last := last } }

/-- What a message that is let in comes to, by the bytes before it. -/
def State.loadResult (s m : State) (c : Ctx) (first last : Bool) (off : Nat) (d : Bytes) : Option Bytes → State
  | none => (m.setDev { s.dev with load := none }).reply c 0x0601 .badFrame []
  | some bs =>
    if off != bs.length || decide (16777216 < (bs ++ d).length) then (m.setDev { s.dev with load := none }).reply c 0x0601 .badFrame []
    else if last then (s.loadTaken m c first last (bs ++ d)).owe c 0x0601
    else (s.loadTaken m c first last (bs ++ d)).reply c 0x0601 .ok []

theorem exec_loadFirmware {s : State} {c : Ctx} {flags off : Nat} {d : Bytes} (h : s.accepts c 0x0601 .keeperEarly true) (hf : flags < 4)
    (ho : off < 4294967296) (h16 : off % 16 = 0) (hd : d.length % 16 = 0) (hlen : d.length ≤ if s.genOf c = 2 then 224 else 4080)
    (hopen : s.loadOpen c (flags % 2 == 1)) :
    exec (.loadFirmware c (loadFrame flags off d)) s =
      .next (s.loadResult (s.freeMbox c 0x0601) c (flags % 2 == 1) (flags / 2 % 2 == 1) off d (s.loadedSoFar (flags % 2 == 1))) := by
  obtain ⟨_, _, hflags, _, hoff, hdrop⟩ := loadFrame_fields d hf ho
  have hgood := loadFrame_good (gen := s.genOf c) hf ho h16 hd hlen
  have hopen' := (loadOpen_iff s c _).mp hopen
  show execLoadFirmware c (loadFrame flags off d) s = _
  simp only [execLoadFirmware, serve_accepted h, freeMbox_genOf, freeMbox_dev_eq, hflags, hoff, hdrop, hgood, hopen', Bool.false_eq_true, if_false]
  unfold State.loadedSoFar
  generalize (if (flags % 2 == 1) = true then some [] else s.dev.load.map (·.bytes) : Option Bytes) = so
  cases so with
  | none => rfl
  | some bs =>
    simp only [State.loadResult]
    split
    · rfl
    · split <;> rfl

theorem loadResult_misplaced {s m : State} {c : Ctx} {first last : Bool} {off : Nat} {d : Bytes} {so : Option Bytes}
    (h : so = none ∨ ∃ bs, so = some bs ∧ (off ≠ bs.length ∨ 16777216 < (bs ++ d).length)) :
    s.loadResult m c first last off d so = (m.setDev { s.dev with load := none }).reply c 0x0601 .badFrame [] := by
  rcases h with rfl | ⟨bs, rfl, hbs⟩
  · rfl
  · refine if_pos ?_
    rwa [Bool.or_eq_true, bne_iff_ne, decide_eq_true_eq]

theorem loadResult_placed {s m : State} {c : Ctx} {first last : Bool} {off : Nat} {d bs : Bytes} (hoff : off = bs.length) (hlen : (bs ++ d).length ≤ 16777216) :
    s.loadResult m c first last off d (some bs) =
      if last then (s.loadTaken m c first last (bs ++ d)).owe c 0x0601 else (s.loadTaken m c first last (bs ++ d)).reply c 0x0601 .ok [] := by
  refine if_neg ?_
  rw [Bool.or_eq_true, bne_iff_ne, decide_eq_true_eq]
  rintro (hne | hgt)
  · exact hne hoff
  · exact absurd hgt (Nat.not_lt.mpr hlen)

/-! ## The check of the image (R397) -/

/-- The end of a check: a refused image is answered, a good one kept or released. -/
def State.checkEnded (s : State) (l : FwLoad) : Option Status × State → State
  | (some st, t) => t.settle l.ctx 0x0601 st []
  | (none, t) =>
    if s.dev.phase = .running then (t.setDev { t.dev with pendingImage := some l.bytes, pendingGen := l.gen }).settle l.ctx 0x0601 .ok []
    else t.release l.bytes (some l.ctx)

theorem exec_firmwareCheckComplete {s : State} {l : FwLoad} (h : s.dev.load = some l) (hlast : l.last = true) :
    exec .firmwareCheckComplete s = .next (s.checkEnded l ((s.setDev { s.dev with load := none }).firmwareCheck l.bytes l.gen)) := by
  have hfilter : s.dev.load.filter (·.last) = some l := by rw [h, Option.filter_some, if_pos hlast]
  show execFirmwareCheckComplete s = _
  simp only [execFirmwareCheckComplete, hfilter]
  generalize (s.setDev { s.dev with load := none }).firmwareCheck l.bytes l.gen = r
  obtain ⟨st, t⟩ := r
  cases st <;> rfl

/-! ## The first heartbeat (R397) -/

theorem exec_firstHeartbeatTimeout {s : State} {c : Ctx} (h : s.dev.fwAwait = some (some c)) :
    exec .firstHeartbeatTimeout s = .next ((s.setDev { s.dev with fwAwait := none, fwImage := [] }).settle c 0x0601 .busyRecovery []) := by
  show execFirstHeartbeatTimeout s = _
  simp only [execFirstHeartbeatTimeout, h]

theorem exec_heartbeat_first {s : State} {c : Ctx} (h : s.dev.fwAwait = some (some c)) (hready : s.dev.phase = .ready) (hhalf : s.flash.half = []) :
    exec .heartbeat s =
      .next ((s.setDev { s.dev with heartbeats := (s.dev.heartbeats + 1) % 2 ^ 32, phase := .running, fwVersion := imageVersion s.dev.fwImage, fwAwait := none,
                                    fwHalted := false }).settle c 0x0601 .ok []) := by
  show execHeartbeat s = _
  simp only [execHeartbeat, h, hready, require, beq_self_eq_true, if_true, State.nowRunning, State.setDev_flash, hhalf, List.isEmpty_nil]
  rfl

theorem exec_heartbeat_again {s : State} (h : s.dev.fwAwait = none) (hrun : s.dev.phase = .running) :
    exec .heartbeat s = .next (s.setDev { s.dev with heartbeats := (s.dev.heartbeats + 1) % 2 ^ 32 }) := by
  have hx : execHeartbeat s = require (s.dev.phase == .running) "no firmware runs" (.next (s.setDev { s.dev with heartbeats := (s.dev.heartbeats + 1) % 2 ^ 32 })) := by
    unfold execHeartbeat
    dsimp only
    split
    · rename_i c hc
      exact nomatch h.symm.trans hc
    · rfl
  refine hx.trans ?_
  rw [hrun]
  rfl

/-! ## Firmware is loaded -/

/-- Settles O32: the messages of the image, its check, and the heartbeats that follow. -/
theorem firmwareIsLoaded : Obligations.FirmwareIsLoaded := by
  refine ⟨fun s c flags off d h hf h16 hd hlen hawait hload hqueue ho => ?_, fun s l hl hmore => ?_, fun s l hl hlast howed => ?_, fun s c hawait howed => ?_,
    fun s hawait hrun => exec_heartbeat_again hawait hrun⟩
  · have hx := exec_loadFirmware h hf ho h16 hd hlen ⟨hawait, hload, fun hfirst => hqueue (beq_iff_eq.mp hfirst)⟩
    have hso : s.loadedSoFar (flags % 2 == 1) = if flags % 2 = 1 then some [] else s.dev.load.map (·.bytes) := by
      simp only [State.loadedSoFar, beq_iff_eq]
    have htaken : ∀ img, s.loadTaken (s.freeMbox c 0x0601) c (flags % 2 == 1) (flags / 2 % 2 == 1) img =
        (s.freeMbox c 0x0601).setDev { s.dev with
          pendingImage := if flags % 2 = 1 then none else s.dev.pendingImage,
          load := some { sess := c.sess, ctx := c, gen := s.genOf c, bytes := img, last := flags / 2 % 2 == 1 } } := fun img => by
      simp only [State.loadTaken, beq_iff_eq]
    rw [hso] at hx
    refine ⟨fun bs hbs hoff hfit => ?_, fun hmis => hx.trans (congrArg _ (loadResult_misplaced hmis))⟩
    rw [hbs, loadResult_placed hoff hfit, htaken] at hx
    refine ⟨fun hmore => hx.trans (congrArg _ (if_neg ?_)), fun hlast => hx.trans (congrArg _ (if_pos ?_))⟩
    · rw [beq_iff_eq, hmore]
      decide
    · rw [beq_iff_eq, hlast]
  · have hopen : s.dev.load.any (fun l => !l.last) = true := by rw [hl, Option.any_some, hmore]; rfl
    show execLoadFirmwareTimeout s = _
    rw [execLoadFirmwareTimeout, hopen]
    rfl
  · have hx := exec_firmwareCheckComplete hl hlast
    refine ⟨fun st hst => ?_, fun hvalid hcomp => ?_, fun hvalid hcomp => ?_⟩
    · rw [firmwareCheck_invalid _ _ hst] at hx
      refine hx.trans (congrArg _ ?_)
      show State.settle _ _ _ _ _ = _
      split
      · exact settle_owed _ _ _ _ _ howed
      · exact settle_owed _ _ _ _ _ howed
    · have hcomp' := (compatible_congr (x := s.setDev { s.dev with load := none }) rfl l.bytes l.gen).trans hcomp
      rw [firmwareCheck_valid _ _ hvalid, hcomp', if_neg Bool.false_ne_true] at hx
      exact hx.trans (congrArg _ (settle_owed _ _ _ _ _ howed))
    · have hcomp' := (compatible_congr (x := s.setDev { s.dev with load := none }) rfl l.bytes l.gen).trans hcomp
      rw [firmwareCheck_valid _ _ hvalid, hcomp', if_pos rfl] at hx
      refine ⟨fun hrun => hx.trans (congrArg _ ((if_pos hrun).trans (settle_owed _ _ _ _ _ howed))), fun hready => hx.trans (congrArg _ (if_neg ?_))⟩
      rw [hready]
      decide
  · refine ⟨?_, fun hready hhalf => ?_⟩
    · exact (exec_firstHeartbeatTimeout hawait).trans (congrArg _ (settle_owed _ _ _ _ _ howed))
    · exact (exec_heartbeat_first hawait hready hhalf).trans (congrArg _ (settle_owed _ _ _ _ _ howed))

end Sys2Proof.Machine
end

section
/-!
PROOFS. Ethernet ports outside Lesar.
-/
namespace Sys2Proof.Machine

open Sys2Proof

/-- What a port has to be for its link to come up so (R354). -/
def State.mayLink (s : State) (port speed sqi : Nat) (master : Bool) : Bool :=
  decide (port < 4) && decide (speed ≤ 4) && decide (sqi ≤ 7) && (s.reg .eth port 0).bit 31 && Phase.hears s.dev.phase &&
    ((s.reg .eth port 0).bit 30 || (speed == (s.reg .eth port 0).field 2 0 && master == (s.reg .eth port 0).bit 27))

theorem mayLink_of {s : State} {port speed sqi : Nat} {master : Bool} (hport : port < 4) (hspeed : speed ≤ 4) (hsqi : sqi ≤ 7)
    (hhears : s.dev.phase.hears = true) (hon : (s.reg .eth port 0).bit 31 = true)
    (hforced : (s.reg .eth port 0).bit 30 = true ∨ (speed = (s.reg .eth port 0).field 2 0 ∧ master = (s.reg .eth port 0).bit 27)) :
    s.mayLink port speed sqi master = true := by
  simp only [State.mayLink, Bool.and_eq_true, Bool.or_eq_true, decide_eq_true_eq, beq_iff_eq]
  exact ⟨⟨⟨⟨⟨hport, hspeed⟩, hsqi⟩, hon⟩, hhears⟩, hforced⟩

theorem exec_ethLinkUp {s : State} {port speed sqi : Nat} {master : Bool} (h : s.mayLink port speed sqi master = true) :
    exec (.ethLinkUp port speed master sqi) s = .next (s.setEth (NMap.insert s.eth port { up := true, master := master, speed := speed, sqi := sqi })) := by
  show require (s.mayLink port speed sqi master) _ _ = _
  rw [h]
  rfl

theorem exec_arpRequest (s : State) (via : Via) (a : Nat) (h : s.hears via = true) :
    (∀ m, s.mac4 via.port a = some m → exec (.arpRequest via a) s =
      .next (s.answerRaw via.port (beBytes 1 1 ++ beBytes 6 m ++ beBytes 4 a ++ beBytes 6 via.src))) ∧
    (s.mac4 via.port a = none → exec (.arpRequest via a) s = .next s) := by
  refine ⟨fun m hm => ?_, fun hm => ?_⟩
  all_goals show execArpRequest via a s = _
  · simp only [execArpRequest, h, if_true, hm]
  · simp only [execArpRequest, h, if_true, hm]

theorem exec_neighbourSolicitation (s : State) (via : Via) (a : Nat) (h : s.hears via = true) :
    (∀ m, s.mac6 via.port a = some m → exec (.neighbourSolicitation via a) s =
      .next (s.answerRaw via.port (beBytes 1 2 ++ beBytes 6 m ++ beBytes 16 a ++ beBytes 16 via.src))) ∧
    (s.mac6 via.port a = none → exec (.neighbourSolicitation via a) s = .next s) := by
  refine ⟨fun m hm => ?_, fun hm => ?_⟩
  all_goals show execNeighbourSolicitation via a s = _
  · simp only [execNeighbourSolicitation, h, if_true, hm]
  · simp only [execNeighbourSolicitation, h, if_true, hm]

/-- Settles O46: each command by the condition that lets it act. -/
theorem portsServe : Obligations.PortsServe := by
  refine ⟨fun s port speed sqi master hport hspeed hsqi hhears hon hforced => ?_, fun s port hup => ⟨?_, fun w => ?_, fun hsec => ?_⟩, fun s port dir hold => ?_,
    fun s hold => ?_, fun s via a h => ?_, fun s via v6 d h => ⟨fun hmine => ?_, fun hmine => ?_⟩⟩
  · exact ⟨_, exec_ethLinkUp (mayLink_of hport hspeed hsqi hhears hon hforced), rfl, NMap.find_insert_self _ _ _, fun q hq => NMap.find_insert_ne _ _ hq⟩
  · show execEthLinkDown port s = _
    rw [execEthLinkDown, hup]
    rfl
  · show execEthFrameDrop port w s = _
    rw [execEthFrameDrop, hup]
    rfl
  · show execSecFrameFail port s = _
    rw [execSecFrameFail, hup, hsec]
    rfl
  · show execOldAssociationExpiry port dir s = _
    rw [execOldAssociationExpiry, List.contains_iff_mem.mpr hold]
    rfl
  · have hany : (s.lesar.oldEtherType.isSome || s.lesar.oldUdpPort.isSome) = true := by
      rwa [Bool.or_eq_true, Option.isSome_iff_ne_none, Option.isSome_iff_ne_none]
    show execLesarCarrierChangeExpiry s = _
    rw [execLesarCarrierChangeExpiry, hany]
    rfl
  · obtain ⟨harp, hnoArp⟩ := exec_arpRequest s via a h
    obtain ⟨hsol, hnoSol⟩ := exec_neighbourSolicitation s via a h
    exact ⟨harp, hnoArp, hsol, hnoSol⟩
  · obtain ⟨hend, hserves⟩ := hmine
    refine congrArg _ (if_pos ?_)
    rw [h, hserves, decide_eq_true (bne_iff_ne.mpr hend)]
    rfl
  · refine congrArg _ (if_neg fun hall => hmine ?_)
    rw [Bool.and_eq_true, Bool.and_eq_true, decide_eq_true_eq, bne_iff_ne] at hall
    obtain ⟨⟨_, hend⟩, hserves⟩ := hall
    exact ⟨hend, hserves⟩

end Sys2Proof.Machine
end

section
/-!
PROOFS. The SMBus sideband.
-/
namespace Sys2Proof.Machine

open Sys2Proof

/-! ## PMBus commands (R382, R383, R385) -/

theorem pmbus_iff (s : State) : s.pmbus = true ↔ s.dev.phase ≠ .off ∧ s.smb.deadUntil ≤ s.now := by
  rw [State.pmbus, State.powered, Bool.and_eq_true, bne_iff_ne, decide_eq_true_eq]

theorem smbDo_silent {s : State} {ok : Bool} (h : ok = false) (t : State) : s.smbDo ok t = .next s := by
  rw [State.smbDo, h, if_neg Bool.false_ne_true]

theorem smbDo_acts {s : State} {ok : Bool} (h : ok = true) (t : State) : s.smbDo ok t = .next t := by
  rw [State.smbDo, h, if_pos rfl]

theorem alert_iff (v : Smb) : v.alert = true ↔ v.statusWord ≠ 0 ∨ v.replyReady = true := by
  rw [Smb.alert, Bool.or_eq_true, bne_iff_ne]

/-- Settles O49: the twelve commands do nothing without their acknowledgement, and what they say with it. -/
theorem sidebandReadsAndClears : Obligations.SidebandReadsAndClears := by
  refine ⟨fun s i hdead hi => ?_, fun s hon hlive => ?_⟩
  · have hno : s.pmbus = false := eq_false_of_ne_true fun hyes => by
      obtain ⟨hon, hlive⟩ := (pmbus_iff s).mp hyes
      rcases hdead with hoff | hdead
      · exact hon hoff
      · exact absurd hdead (Nat.not_lt.mpr hlive)
    have halert : (s.pmbus && s.smb.alert) = false := by rw [hno, Bool.false_and]
    simp only [List.mem_cons, List.not_mem_nil, or_false] at hi
    rcases hi with rfl | rfl | rfl | rfl | rfl | rfl | rfl | rfl | rfl | rfl | rfl | rfl
    case inr.inr.inr.inr.inr.inr.inr.inr.inr.inr.inr => exact smbDo_silent halert _
    all_goals exact smbDo_silent hno _
  · have hyes : s.pmbus = true := (pmbus_iff s).mpr ⟨hon, hlive⟩
    refine ⟨smbDo_acts hyes _, smbDo_acts hyes _, smbDo_acts hyes _, smbDo_acts hyes _, smbDo_acts hyes _, smbDo_acts hyes _, smbDo_acts hyes _,
      smbDo_acts hyes _, smbDo_acts hyes _, smbDo_acts hyes _, smbDo_acts hyes _, fun hal => smbDo_acts ?_ _, fun hw hr => smbDo_silent ?_ _⟩
    · rw [hyes, Bool.true_and, alert_iff]
      exact hal
    · rw [hyes, Bool.true_and]
      refine eq_false_of_ne_true fun hal => ?_
      rcases (alert_iff _).mp hal with hword | hready
      · exact hword hw
      · exact Bool.false_ne_true (hr.symm.trans hready)

end Sys2Proof.Machine
end

section
/-!
PROOFS. The register window and the mailbox of the sideband.
-/
namespace Sys2Proof.Machine

open Sys2Proof

/-! ## The register window (R383) -/

theorem sidebandReg_reads {s : State} {a : Nat} {b : Blk} {k off : Nat} (hplace : regPlace a = some (b, k, off)) (h4 : a % 4 = 0)
    (hside : b.sideband off = true) (hocc : b.occupied off = true) : s.sidebandReg a = (s.afterRead b k off, s.regValue b k off) := by
  simp only [State.sidebandReg, hplace, h4, hside, hocc, bne_self_eq_false, Bool.not_true, Bool.or_self, Bool.false_eq_true, if_false, if_true]

theorem sidebandReg_faults {s : State} {a : Nat} (h : regPlace a = none ∨ a % 4 ≠ 0) : s.sidebandReg a = (s.smbFault, 0xFFFFFFFF#32) := by
  unfold State.sidebandReg
  split
  · rename_i b k off hplace
    have h4 : a % 4 ≠ 0 := h.resolve_left fun hnone => nomatch hplace.symm.trans hnone
    rw [bne_iff_ne.mpr h4, Bool.true_or, if_pos rfl]
  · rfl

/-! ## The mailbox (R384) -/

theorem exec_mfrMboxGo_busy {s : State} (h : s.smbMailbox = true) (hbusy : s.smb.busy = true) :
    exec .mfrMboxGo s = .next (s.setSmb { s.smb with error := true }) := by
  show execMfrMboxGo s = _
  rw [execMfrMboxGo, h, hbusy]
  rfl

/-- The state in which the mailbox has given up its message. -/
def State.mailboxGiven (s : State) : State := s.setSmb { s.smb with busy := true, mbox := [], reply := none, readPos := 0, replyReady := false }

theorem exec_mfrMboxGo {s : State} (h : s.smbMailbox = true) (hbusy : s.smb.busy = false) :
    exec .mfrMboxGo s = s.mailboxGiven.sidebandMessage s.smb.mbox := by
  show execMfrMboxGo s = _
  rw [execMfrMboxGo, h, hbusy]
  rfl

/-- The context of a sideband message. -/
def sidebandCtx (raw : Bytes) : Ctx := { sess := sidebandSess, part := (parseHdr3 raw).part, handle := (parseHdr3 raw).handle, via := none }

theorem sidebandMessage_refused {s : State} {raw : Bytes} {st : Status} (h : sidebandRefusal raw = some st) :
    s.sidebandMessage raw = .next (s.reply (sidebandCtx raw) (parseHdr3 raw).opcode st []) := by
  unfold State.sidebandMessage
  dsimp only
  rw [h]
  rfl

theorem sidebandMessage_barred {s : State} {raw : Bytes} (h : sidebandRefusal raw = none)
    (hno : (parseHdr3 raw).opcode = 0x0604 ∨ (s.isOwner (sidebandCtx raw) = false ∧ (parseHdr3 raw).opcode ≠ 0x0606)) :
    s.sidebandMessage raw = .next (s.reply (sidebandCtx raw) (parseHdr3 raw).opcode .notPermitted []) := by
  unfold State.sidebandMessage
  dsimp only
  rw [h]
  refine if_pos ?_
  rw [Bool.or_eq_true, Bool.and_eq_true, Bool.not_eq_true', bne_iff_ne, beq_iff_eq]
  exact hno.symm

/-- A message that takes a mailbox is none of those that the Port die serves itself. -/
theorem runMgmt_mbox (s : State) (gen : Nat) (c : Ctx) {op : Nat} (pl : Bytes) (h : usesMbox op = true) :
    s.runMgmt gen c op pl = .next (s.setLesar { s.lesar with mboxes := s.lesar.mboxes ++
      [{ sess := c.sess, left := none, gen := gen, part := c.part, handle := c.handle, opcode := op, payload := pl, complete := true }] }) := by
  unfold State.runMgmt
  split
  · exact nomatch h
  · exact nomatch h
  · exact nomatch h
  · exact nomatch h
  · rfl

theorem sidebandMessage_taken {s : State} {raw : Bytes} (h : sidebandRefusal raw = none) (howner : s.isOwner (sidebandCtx raw) = true)
    (hbox : usesMbox (parseHdr3 raw).opcode = true) :
    s.sidebandMessage raw = s.runMgmt 3 (sidebandCtx raw) (parseHdr3 raw).opcode (slice raw 32 (parseHdr3 raw).length) := by
  unfold State.sidebandMessage
  dsimp only
  rw [h]
  refine if_neg fun hno => ?_
  rw [Bool.or_eq_true, Bool.and_eq_true, Bool.not_eq_true', beq_iff_eq] at hno
  rcases hno with ⟨hno, _⟩ | hopen
  · exact Bool.false_ne_true (hno.symm.trans howner)
  · rw [hopen] at hbox
    exact nomatch hbox

theorem exec_mfrMboxWr {s : State} (h : s.smbMailbox = true) (d : Bytes) :
    exec (.mfrMboxWr d) s = .next (if !within 1 128 d.length then s.smbFault
      else s.setSmb { s.smb with mbox := (s.smb.mbox ++ d).take 256, error := s.smb.error || decide (256 < (s.smb.mbox ++ d).length) }) := smbDo_acts h _

theorem exec_mfrMboxRd {s : State} (h : s.smbMailbox = true) (n : Nat) :
    exec (.mfrMboxRd n) s =
      (let bs := if s.smb.replyReady then slice s.smb.replyBytes s.smb.readPos (min 128 n) else []
       let pos := s.smb.readPos + bs.length
       .next (s.setSmb { s.smb with
         readOut := s.smb.readOut ++ [bs], readPos := pos, replyReady := s.smb.replyReady && decide (pos < s.smb.replyBytes.length),
         reply := if s.smb.replyReady && decide (s.smb.replyBytes.length ≤ pos) then none else s.smb.reply })) := smbDo_acts h _

/-- Settles O50: the register window, the mailbox with its reply, and both unacknowledged. -/
theorem sidebandMailboxServes : Obligations.SidebandMailboxServes := by
  refine ⟨fun s h => ⟨fun a => smbDo_acts h _, fun b k off hplace h4 hside hocc => ?_, fun hbad => ?_⟩,
    fun s h => ⟨fun d h1 h128 => ?_, fun d hbad => ?_, smbDo_acts h _, smbDo_acts h _, fun n hidle => ?_, fun n hready => ?_,
      fun hbusy => exec_mfrMboxGo_busy h hbusy, fun hidle => ?_⟩, fun s f hf hidle => ?_, fun s i d n h hi => ?_, fun s a h => ⟨smbDo_silent h _, smbDo_silent h _⟩⟩
  · show execMfrRegData s = _
    simp only [execMfrRegData, sidebandReg_reads hplace h4 hside hocc]
    exact smbDo_acts h _
  · show execMfrRegData s = _
    simp only [execMfrRegData, sidebandReg_faults hbad]
    exact smbDo_acts h _
  · have hrange : within 1 128 d.length = true := by
      rw [within, decide_eq_true h1, decide_eq_true h128]
      rfl
    rw [exec_mfrMboxWr h, hrange, List.length_append]
    rfl
  · have hrange : within 1 128 d.length = false := by
      rcases hbad with rfl | hbad
      · rfl
      · rw [within, decide_eq_false (Nat.not_le.mpr hbad), Bool.and_false]
    rw [exec_mfrMboxWr h, hrange]
    rfl
  · rw [exec_mfrMboxRd h]
    simp only [hidle, Bool.false_and, Bool.false_eq_true, if_false, List.length_nil, Nat.add_zero]
  · rw [exec_mfrMboxRd h, hready]
    simp only [if_true, Bool.true_and, decide_eq_true_eq]
  · refine ⟨fun st hst => ?_, fun hnone hno => ?_, fun hnone howner hbox => ?_⟩
    · exact (exec_mfrMboxGo h hidle).trans (sidebandMessage_refused hst)
    · exact (exec_mfrMboxGo h hidle).trans (sidebandMessage_barred hnone hno)
    · exact (exec_mfrMboxGo h hidle).trans ((sidebandMessage_taken hnone howner hbox).trans (runMgmt_mbox _ _ _ _ hbox))
  · show execSidebandReplyReady s = _
    simp only [execSidebandReplyReady, hf, hidle, require, Bool.not_false, if_true]
  · simp only [List.mem_cons, List.not_mem_nil, or_false] at hi
    rcases hi with rfl | rfl | rfl | rfl | rfl
    case inr.inl =>
      show execMfrMboxGo s = _
      rw [execMfrMboxGo, h]
      rfl
    all_goals exact smbDo_silent h _

end Sys2Proof.Machine
end

section
/-!
PROOFS. A port takes, refuses, holds and acknowledges frames.
-/
namespace Sys2Proof.Machine

open Sys2Proof

/-! ## Frames that are not taken (R356) -/

theorem ethFrameReceive_ignores {s : State} {via : Via} {raw : Bytes} (hup : s.linkUp via.port = true)
    (h : s.hears via = false ∨ s.portCheck via raw = .ignore) : exec (.ethFrameReceive via raw) s = .next s := by
  show execEthFrameReceive via raw s = _
  rw [execEthFrameReceive, hup, require, if_pos rfl]
  cases hhears : s.hears via with
  | false => rfl
  | true =>
    rw [h.resolve_left fun hno => Bool.false_ne_true (hno.symm.trans hhears)]
    rfl

theorem ethFrameReceive_drops {s : State} {via : Via} {raw : Bytes} (hup : s.linkUp via.port = true) (hhears : s.hears via = true)
    (h : s.portCheck via raw = .drop) : exec (.ethFrameReceive via raw) s = .next (s.bump .eth via.port 0x10 1) := by
  show execEthFrameReceive via raw s = _
  rw [execEthFrameReceive, hup, require, if_pos rfl, hhears, h]
  rfl

/-! ## A frame that has passed the header checks (R364, R365) -/

section Good

variable {s : State} {via : Via} {raw : Bytes} {h : Hdr} {pl : Bytes}

theorem goodFrame_discover (h5 : h.kind = 5) (hn : h.sess = 0xFFFF) :
    s.goodFrame via raw h pl = .next (s.greets via h.version 5 h.handle pl.length s.discoverPayload) := by
  simp only [State.goodFrame, h5, hn, decide_true, Bool.true_or, if_true, bne_self_eq_false, Bool.false_eq_true, if_false]

variable (h5 : h.kind ≠ 5) (h6 : h.kind ≠ 6) (hn : h.sess ≠ 0xFFFF) (hphase : s.dev.phase ≠ .factory)
include h5 h6 hn hphase

theorem goodFrame_unopened (hno : s.session h.sess = none) :
    s.goodFrame via raw h pl = .next (s.refuseHeader via h.version h.sess h.part h.handle h.opcode .unknownSession) := by
  simp only [State.goodFrame, h5, h6, hn, hphase, decide_false, Bool.or_self, Bool.false_eq_true, if_false, hno]

theorem goodFrame_unbound {v : Session} (hv : s.session h.sess = some v) (hb : v.boundTo via = false) :
    s.goodFrame via raw h pl = .next (s.refuseHeader via h.version h.sess h.part h.handle h.opcode .unknownSession) := by
  simp only [State.goodFrame, h5, h6, hn, hphase, decide_false, Bool.or_self, Bool.false_eq_true, if_false, hv, hb, Bool.not_false, if_true]

theorem goodFrame_otherGeneration {v : Session} (hv : s.session h.sess = some v) (hb : v.boundTo via = true) (hgen : v.gen ≠ h.version) :
    s.goodFrame via raw h pl = .next (s.refuseHeader via h.version h.sess h.part h.handle h.opcode .badVersion) := by
  simp only [State.goodFrame, h5, h6, hn, hphase, decide_false, Bool.or_self, Bool.false_eq_true, if_false, hv, hb, Bool.not_true,
    if_pos (bne_iff_ne.mpr hgen)]

/-- The state once a frame of a session is known to be the peer's: where it came by, and what it acknowledges (R365, R367). -/
def State.heardFrame (s : State) (via : Via) (h : Hdr) : State :=
  if h.flags % 2 = 1 then (s.heardOn h.sess via).acknowledge h.sess h.ackNum else s.heardOn h.sess via

theorem goodFrame_heard {v : Session} (hv : s.session h.sess = some v) (hb : v.boundTo via = true) (hgen : v.gen = h.version) :
    s.goodFrame via raw h pl = if h.kind = 4 then .next (s.heardFrame via h) else (s.heardFrame via h).sequence h.sess via h pl := by
  simp only [State.goodFrame, h5, h6, hn, hphase, decide_false, Bool.or_self, Bool.false_eq_true, if_false, hv, hb, Bool.not_true, hgen, bne_self_eq_false]
  rfl

end Good

/-! ## Frames by their number (R368) -/

section Sequenced

variable {s : State} {n : Nat} {via : Via} {h : Hdr} {pl : Bytes} {v : Session}

theorem sequence_early (hv : s.session n = some v) (h1 : 1 ≤ (h.seq + 2 ^ 32 - v.rxNext) % 2 ^ 32) (h64 : (h.seq + 2 ^ 32 - v.rxNext) % 2 ^ 32 < 64) :
    s.sequence n via h pl = .next ((s.modSession n (fun v => { v with early := NMap.insert v.early h.seq (via, h, pl) })).sendAck n) := by
  unfold State.sequence
  rw [hv]
  dsimp only
  rw [if_neg (by omega), if_pos h64]

theorem sequence_old (hv : s.session n = some v) (hold : 2 ^ 31 ≤ (h.seq + 2 ^ 32 - v.rxNext) % 2 ^ 32) :
    s.sequence n via h pl = .next (s.sendAck n) := by
  unfold State.sequence
  rw [hv]
  dsimp only
  rw [if_neg (by omega), if_neg (by omega), if_pos hold]

theorem sequence_beyond (hv : s.session n = some v) (h64 : 64 ≤ (h.seq + 2 ^ 32 - v.rxNext) % 2 ^ 32) (hnew : (h.seq + 2 ^ 32 - v.rxNext) % 2 ^ 32 < 2 ^ 31) :
    s.sequence n via h pl = .next (s.bump .ls 0 0x10 1) := by
  unfold State.sequence
  rw [hv]
  dsimp only
  rw [if_neg (by omega), if_neg (by omega), if_neg (by omega)]

/-- A frame in its turn whose processing leaves nothing held: its number is acknowledged. -/
theorem sequence_turn {t : State} (hv : s.session n = some v) (hd : (h.seq + 2 ^ 32 - v.rxNext) % 2 ^ 32 = 0)
    (ht : s.processFrame n via h pl = .next t) (hearly : (t.session n).map (·.early) = some [] ∨ t.session n = none) :
    s.sequence n via h pl = .next (t.ackProcessed n s.lesar.out.length) := by
  unfold State.sequence
  rw [hv]
  dsimp only
  rw [if_pos hd, ht]
  show andThen (State.processHeld n 64 t) _ = _
  rw [processHeld_none n 64 t hearly]
  rfl

end Sequenced

/-! ## A whole message in its turn (R374, R375) -/

/-- The session has taken the number of a frame. -/
def State.numberTaken (s : State) (n : Nat) : State := s.modSession n (fun v => { v with rxNext := (v.rxNext + 1) % 2 ^ 32, started := true })

/-- The context of a frame of a session. -/
def frameCtx (n : Nat) (h : Hdr) : Ctx := { sess := n, part := h.part, handle := h.handle, via := none }

/-- A frame came to an endpoint that serves its partition. -/
def serves (via : Via) (h : Hdr) : Bool := decide (0xFFFE ≤ via.endpoint) || via.endpoint == h.part

theorem processFrame_whole {s : State} {n : Nat} {via : Via} {h : Hdr} {pl : Bytes} (h3 : h.version = 3) (hkind : h.kind = 2) (hflags : h.flags / 16 % 4 = 3)
    (hidle : s.lesar.mboxes.find? (fun m => !m.complete && m.sess == n) = none) :
    s.processFrame n via h pl = (s.numberTaken n).beginMessage 3 (frameCtx n h) h.opcode pl (serves via h) true := by
  have hfirst : (h.flags / 16 % 2 == 1) = true := by
    rw [beq_iff_eq]
    omega
  have hlast : (h.flags / 32 % 2 == 1) = true := by
    rw [beq_iff_eq]
    omega
  have hnone : (s.numberTaken n).assembling n = none := hidle
  unfold State.numberTaken at hnone ⊢
  simp only [State.processFrame, State.takeMgmt, h3, hkind, hfirst, hlast, hnone, OfNat.ofNat_ne_one, if_false, bne_self_eq_false, Bool.false_or, if_true]
  rfl

theorem beginMessage_refused {s : State} {gen : Nat} {c : Ctx} {op : Nat} {pl : Bytes} {there : Bool} {st : Status}
    (h : s.firstRefusal c gen op there pl.length = some st) :
    s.beginMessage gen c op pl there true = .next ((s.reply c op st []).setSwallow c.sess false) := by
  unfold State.beginMessage
  rw [h]
  rfl

theorem beginMessage_taken {s : State} {gen : Nat} {c : Ctx} {op : Nat} {pl : Bytes} {there : Bool} (h : s.firstRefusal c gen op there pl.length = none)
    (hbox : usesMbox op = true) :
    s.beginMessage gen c op pl there true = .next ((s.setSwallow c.sess false).setLesar { (s.setSwallow c.sess false).lesar with
      mboxes := (s.setSwallow c.sess false).lesar.mboxes ++
        [{ sess := c.sess, left := none, gen := gen, part := c.part, handle := c.handle, opcode := op, payload := pl, complete := true }] }) := by
  unfold State.beginMessage
  rw [h]
  exact runMgmt_mbox _ _ _ _ hbox

/-- A change of a session that leaves its held frames. -/
theorem modSession_early {f : Session → Session} (hf : ∀ v, (f v).early = v.early) (s : State) (n : Nat) :
    ((s.modSession n f).session n).map (·.early) = (s.session n).map (·.early) := by
  rw [session_modSession]
  cases s.session n with
  | none => rfl
  | some v => exact congrArg some (hf v)

/-! ## Greetings (R381) -/

/-- A bare reply to a source, with the time at which it was given. -/
def State.greeted (s : State) (via : Via) (f : OutFrame) : State :=
  (s.sendBare via f).setLesar { (s.sendBare via f).lesar with
    lastReply := (via.src, s.now) :: s.lesar.lastReply.filter (fun e => e.1 != via.src && decide (s.now < e.2 + 10000000)) }

/-- The reply of DISCOVER (kind 5) or STATUS (kind 6). -/
def greetFrame (via : Via) (kind handle : Nat) (st : Status) (pl : Bytes) : OutFrame :=
  { gen := 3, kind := kind, flags := 4, sess := 0xFFFF, part := 0xFFFF, seq := 0, ackNum := 0, handle := handle, opcode := 0, status := st,
    payload := pl, via := via, pcp := 0, dscp := 0 }

theorem rateOk_of_old {s : State} {src : Nat} (h : ∀ e ∈ s.lesar.lastReply, e.1 = src → e.2 + 10000000 ≤ s.now) : s.rateOk src = true := by
  simp only [State.rateOk, Bool.not_eq_true', List.any_eq_false, Bool.and_eq_true, beq_iff_eq, decide_eq_true_eq]
  rintro e he ⟨hsrc, hnew⟩
  exact Nat.not_lt.mpr (h e he hsrc) hnew

theorem rateOk_of_recent {s : State} {src : Nat} (h : ∃ e ∈ s.lesar.lastReply, e.1 = src ∧ s.now < e.2 + 10000000) : s.rateOk src = false := by
  simpa only [State.rateOk, Bool.not_eq_false', List.any_eq_true, Bool.and_eq_true, beq_iff_eq, decide_eq_true_eq] using h

theorem greetStatus_eq (s : State) : s.greetStatus = if s.dev.phase = .running ∨ s.dev.phase = .recovery then Status.ok else Status.busyStarting := by
  simp only [State.greetStatus, Bool.or_eq_true, decide_eq_true_eq]

section Greetings

variable {s : State} {via : Via} {kind handle : Nat} {pl : Bytes} (hhears : s.hears via = true)
include hhears

theorem greets_endpoint (hend : via.endpoint < 0xFFFE) :
    s.greets via 3 kind handle 0 pl = s.refuseHeader via 3 0xFFFF 0xFFFF handle 0 .notPermitted := by
  rw [State.greets, hhears, if_neg (by decide), if_pos hend]

variable (hend : 0xFFFE ≤ via.endpoint)
include hend

theorem greets_device : s.greets via 3 kind handle 0 pl = s.greet via 3 kind handle s.greetStatus pl := by
  rw [State.greets, hhears, if_neg (by decide), if_neg (Nat.not_lt.mpr hend), if_neg (by decide)]

theorem greets_answers (hok : s.rateOk via.src = true) :
    s.greets via 3 kind handle 0 pl = s.greeted via (greetFrame via kind handle s.greetStatus pl) := by
  rw [greets_device hhears hend, State.greet, if_pos hok]
  rfl

theorem greets_tooSoon (hno : s.rateOk via.src = false) : s.greets via 3 kind handle 0 pl = s.bump .ls 0 0x18 1 := by
  rw [greets_device hhears hend, State.greet, if_neg (by rw [hno]; decide)]

end Greetings

theorem status_running {s : State} {via : Via} {handle : Nat} (h : s.dev.phase = .running) :
    exec (.status via handle []) s = .next (s.greets via 3 6 handle 0 s.statusPayload) := by
  have hrec : (decide (s.dev.phase = .recovery) && s.hears via && decide (0xFFFE ≤ via.endpoint)) = false := by
    rw [h]
    rfl
  have hlate : (decide (s.dev.phase = .netBoot) || decide (s.dev.phase = .factory)) = false := by
    rw [h]
    rfl
  show Host.Outcome.next (State.statusFrame _ _ _ _ _ _) = _
  rw [State.statusFrame, if_neg (by rw [hrec]; decide), if_neg (by rw [hlate]; decide)]
  rfl

/-! ## A frame of a session that is taken -/

section Taken

variable {s : State} {via : Via} {raw : Bytes} {h : Hdr} {pl : Bytes} (ht : s.takesFrame via raw h pl)
include ht

theorem takesFrame_version : h.version = 3 := by
  obtain ⟨_, _, _, _, _, _, hversion, _, _⟩ := ht
  exact hversion

theorem ethFrameReceive_badCheck (hcrc : crc32c (raw.take 28 ++ pl) ≠ h.check) :
    exec (.ethFrameReceive via raw) s =
      .next (((s.bump .eth via.port 0x08 1).bump .ls 0 0x0C 1).refuseHeader via 3 h.sess h.part h.handle h.opcode .badFrame) :=
  (takesFrame_run s via raw h pl ht).trans (if_pos (bne_iff_ne.mpr hcrc))

theorem ethFrameReceive_good (hcrc : crc32c (raw.take 28 ++ pl) = h.check) :
    exec (.ethFrameReceive via raw) s = (s.bump .eth via.port 0x08 1).goodFrame via raw h pl :=
  (takesFrame_run s via raw h pl ht).trans (if_neg (by rw [hcrc, bne_self_eq_false]; decide))

end Taken

theorem numberTaken_early (s : State) (n : Nat) : ((s.numberTaken n).session n).map (·.early) = (s.session n).map (·.early) :=
  modSession_early (f := fun v => { v with rxNext := (v.rxNext + 1) % 2 ^ 32, started := true }) (fun _ => rfl) s n

theorem setSwallow_early (s : State) (n : Nat) (b : Bool) : ((s.setSwallow n b).session n).map (·.early) = (s.session n).map (·.early) :=
  modSession_early (f := fun v => { v with swallow := b }) (fun _ => rfl) s n

theorem sequence_whole {s : State} {n : Nat} {via : Via} {h : Hdr} {pl : Bytes} {v : Session} (hv : s.session n = some v)
    (hd : (h.seq + 2 ^ 32 - v.rxNext) % 2 ^ 32 = 0) (h3 : h.version = 3) (hkind : h.kind = 2) (hflags : h.flags / 16 % 4 = 3) (hbox : usesMbox h.opcode = true)
    (hearly : v.early = []) (hidle : s.lesar.mboxes.find? (fun m => !m.complete && m.sess == n) = none) :
    (∀ st, (s.numberTaken n).firstRefusal (frameCtx n h) 3 h.opcode (serves via h) pl.length = some st →
      s.sequence n via h pl = .next ((((s.numberTaken n).reply (frameCtx n h) h.opcode st []).setSwallow n false).ackProcessed n s.lesar.out.length)) ∧
    ((s.numberTaken n).firstRefusal (frameCtx n h) 3 h.opcode (serves via h) pl.length = none →
      s.sequence n via h pl = .next ((((s.numberTaken n).setSwallow n false).setLesar { ((s.numberTaken n).setSwallow n false).lesar with
        mboxes := ((s.numberTaken n).setSwallow n false).lesar.mboxes ++
          [{ sess := n, left := none, gen := 3, part := h.part, handle := h.handle, opcode := h.opcode, payload := pl, complete := true }] }).ackProcessed n
            s.lesar.out.length)) := by
  have htaken : ((s.numberTaken n).session n).map (·.early) = some [] := by rw [numberTaken_early, hv, Option.map_some, hearly]
  refine ⟨fun st hst => ?_, fun hnone => ?_⟩
  · refine sequence_turn hv hd ((processFrame_whole h3 hkind hflags hidle).trans (beginMessage_refused hst)) (Or.inl ?_)
    exact (setSwallow_early _ n false).trans ((reply_early _ n _ _ _ _).trans htaken)
  · refine sequence_turn hv hd ((processFrame_whole h3 hkind hflags hidle).trans (beginMessage_taken hnone hbox)) (Or.inl ?_)
    exact (setSwallow_early _ n false).trans htaken

/-- Settles O47: a frame that passes the port's checks is followed through the checks of its header, its session and its number in the order of the model. -/
theorem framesAreTaken : Obligations.FramesAreTaken := by
  unfold Obligations.FramesAreTaken
  refine ⟨?ports, ?header, ?session, ?greetings⟩
  case ports => exact fun s via raw hup => ⟨ethFrameReceive_ignores hup, ethFrameReceive_drops hup⟩
  case header =>
    intro s via raw h pl ht
    have h3 := takesFrame_version ht
    refine ⟨ethFrameReceive_badCheck ht, fun hcrc h5 hn => ?_, fun hcrc h5 h6 hn hphase => ⟨?_, fun v hv hb hgen => ?_⟩⟩
    · exact (ethFrameReceive_good ht hcrc).trans ((goodFrame_discover h5 hn).trans (by rw [h3]))
    · rintro (hno | ⟨v, hv, hb⟩)
      · exact (ethFrameReceive_good ht hcrc).trans ((goodFrame_unopened (s := s.bump .eth via.port 0x08 1) h5 h6 hn hphase hno).trans (by rw [h3]))
      · exact (ethFrameReceive_good ht hcrc).trans ((goodFrame_unbound (s := s.bump .eth via.port 0x08 1) h5 h6 hn hphase hv hb).trans (by rw [h3]))
    · exact (ethFrameReceive_good ht hcrc).trans ((goodFrame_otherGeneration (s := s.bump .eth via.port 0x08 1) h5 h6 hn hphase hv hb (by rwa [h3])).trans (by rw [h3]))
  case session =>
    intro s via raw h pl v ht hcrc h5 h6 hn hphase hv hb hgen
    have h3 := takesFrame_version ht
    have hrun := (ethFrameReceive_good ht hcrc).trans (goodFrame_heard (s := s.bump .eth via.port 0x08 1) h5 h6 hn hphase hv hb (hgen.trans h3.symm))
    refine ⟨fun h4 => hrun.trans (if_pos h4), fun v3 h4 hv3 => ?_⟩
    have hseq := hrun.trans (if_neg h4)
    refine ⟨fun h1 h64 => hseq.trans (sequence_early hv3 h1 h64), fun hold => hseq.trans (sequence_old hv3 hold),
      fun h64 hnew => hseq.trans (sequence_beyond hv3 h64 hnew), fun hd hkind hflags hbox hearly hidle => ?_⟩
    obtain ⟨hrefused, htaken⟩ := sequence_whole hv3 hd h3 hkind hflags hbox hearly hidle
    exact ⟨fun st hst => hseq.trans (hrefused st hst), fun hnone => hseq.trans (htaken hnone)⟩
  case greetings =>
    intro s via handle hhears
    refine ⟨fun hend => congrArg Host.Outcome.next (greets_endpoint hhears hend), fun hend => ⟨fun hold => ⟨?_, fun hrun => ?_⟩, fun hnew => ⟨?_, fun hrun => ?_⟩⟩⟩
    · rw [← greetStatus_eq]
      exact congrArg Host.Outcome.next (greets_answers hhears hend (rateOk_of_old hold))
    · rw [← greetStatus_eq]
      exact (status_running hrun).trans (congrArg Host.Outcome.next (greets_answers hhears hend (rateOk_of_old hold)))
    · exact congrArg Host.Outcome.next (greets_tooSoon hhears hend (rateOk_of_recent hnew))
    · exact (status_running hrun).trans (congrArg Host.Outcome.next (greets_tooSoon hhears hend (rateOk_of_recent hnew)))

end Sys2Proof.Machine
end

section
/-!
PROOFS. Sessions are opened, kept alive and closed.
-/
namespace Sys2Proof.Machine

open Sys2Proof

theorem freeMbox_session (s : State) (c : Ctx) (op n : Nat) : (s.freeMbox c op).session n = s.session n := by
  unfold State.freeMbox
  split <;> rfl

/-! ## OPEN_SESSION (R365, R408, R409) -/

/-- OPEN_SESSION comes to an endpoint that does not serve its partition (R357). -/
def opensElsewhere (via : Via) (c : Ctx) : Bool := decide (via.endpoint < 0xFFFE) && via.endpoint != c.part

/-- The payload of an OPEN_SESSION breaks its layout (R365). -/
def opensBadly (pl : Bytes) : Bool :=
  pl.length != 72 || beAt pl 6 2 != 0 || !(beAt pl 4 2 == 0 || (decide (16 ≤ beAt pl 4 2) && decide (beAt pl 4 2 ≤ 128)))

/-- OPEN_SESSION names a partition that does not exist. -/
def State.opensNowhere (s : State) (c : Ctx) : Bool := c.part != 0xFFFF && (s.part c.part).isNone

theorem opensElsewhere_iff (via : Via) (c : Ctx) : opensElsewhere via c = true ↔ ¬ (0xFFFE ≤ via.endpoint ∨ via.endpoint = c.part) := by
  simp only [opensElsewhere, Bool.and_eq_true, decide_eq_true_eq, bne_iff_ne, not_or, Nat.not_le, ne_eq]

theorem opensBadly_iff (pl : Bytes) :
    opensBadly pl = true ↔ ¬ (pl.length = 72 ∧ beAt pl 6 2 = 0 ∧ (beAt pl 4 2 = 0 ∨ 16 ≤ beAt pl 4 2 ∧ beAt pl 4 2 ≤ 128)) := by
  simp only [opensBadly, Bool.or_eq_true, bne_iff_ne, Bool.not_eq_true', Bool.or_eq_false_iff, Bool.and_eq_false_iff, beq_eq_false_iff_ne, decide_eq_false_iff_not]
  tauto

theorem opensNowhere_iff (s : State) (c : Ctx) : s.opensNowhere c = true ↔ ¬ (c.part = 0xFFFF ∨ (s.part c.part).isSome = true) := by
  rw [State.opensNowhere]
  cases s.part c.part <;> simp

section Opening

variable {s : State} {via : Via} {c : Ctx} {retry : Bool} {gen : Nat} {pl : Bytes} (hserved : s.serveRefusal c 0x0604 .early = none)
include hserved

theorem openSession_elsewhere (haway : opensElsewhere via c = true) :
    exec (.openSession via c retry gen pl) s = .next (s.answerOpen via c gen .notPermitted []) := by
  show execOpenSession via c retry gen pl s = _
  unfold execOpenSession
  dsimp only
  rw [hserved]
  exact if_pos haway

variable (hhere : opensElsewhere via c = false)
include hhere

theorem openSession_badFrame (hbad : opensBadly pl = true) :
    exec (.openSession via c retry gen pl) s = .next (s.answerOpen via c gen .badFrame []) := by
  show execOpenSession via c retry gen pl s = _
  unfold execOpenSession
  dsimp only
  rw [hserved]
  exact (if_neg (Bool.eq_false_iff.mp hhere)).trans (if_pos hbad)

variable (hgood : opensBadly pl = false)
include hgood

theorem openSession_nowhere (hno : s.opensNowhere c = true) :
    exec (.openSession via c retry gen pl) s = .next (s.answerOpen via c gen .notPermitted []) := by
  show execOpenSession via c retry gen pl s = _
  unfold execOpenSession
  dsimp only
  rw [hserved]
  exact (if_neg (Bool.eq_false_iff.mp hhere)).trans ((if_neg (Bool.eq_false_iff.mp hgood)).trans (if_pos hno))

variable (hthere : s.opensNowhere c = false)
include hthere

theorem openSession_full (hfull : 4096 ≤ s.lesar.sessions.length) :
    exec (.openSession via c false gen pl) s = .next (s.answerOpen via c gen .noResource []) := by
  show execOpenSession via c false gen pl s = _
  unfold execOpenSession
  dsimp only
  rw [hserved]
  exact (if_neg (Bool.eq_false_iff.mp hhere)).trans
    ((if_neg (Bool.eq_false_iff.mp hgood)).trans ((if_neg (Bool.eq_false_iff.mp hthere)).trans (if_pos hfull)))

variable (hroom : s.lesar.sessions.length < 4096)
include hroom

theorem openSession_refused {s1 : State} {e : Status × Bytes} (h : s.decideRole c.part (beAt pl 0 4) (pl.drop 8) = (s1, .error e)) :
    exec (.openSession via c false gen pl) s = .next (s1.answerOpen via c gen e.1 e.2) := by
  show execOpenSession via c false gen pl s = _
  unfold execOpenSession
  dsimp only
  rw [hserved]
  refine (if_neg (Bool.eq_false_iff.mp hhere)).trans
    ((if_neg (Bool.eq_false_iff.mp hgood)).trans ((if_neg (Bool.eq_false_iff.mp hthere)).trans ((if_neg (Nat.not_le.mpr hroom)).trans ?_)))
  rw [h]

theorem openSession_opens {s1 : State} {role : Role} (h : s.decideRole c.part (beAt pl 0 4) (pl.drop 8) = (s1, .ok role)) :
    exec (.openSession via c false gen pl) s = .next (s1.newSession via c gen pl role) := by
  show execOpenSession via c false gen pl s = _
  unfold execOpenSession
  dsimp only
  rw [hserved]
  refine (if_neg (Bool.eq_false_iff.mp hhere)).trans
    ((if_neg (Bool.eq_false_iff.mp hgood)).trans ((if_neg (Bool.eq_false_iff.mp hthere)).trans ((if_neg (Nat.not_le.mpr hroom)).trans ?_)))
  rw [h]

end Opening

/-! ## The role that a credential gives (R408, R409) -/

section Role

variable {s : State} {p isn : Nat} {cred : Bytes}

theorem decideRole_client (hzero : allZero cred = true) (hp : p ≠ 0xFFFF) : s.decideRole p isn cred = (s, .ok .client) := by
  unfold State.decideRole
  rw [if_pos hzero, if_pos (bne_iff_ne.mpr hp)]

theorem decideRole_firstOwner (hzero : allZero cred = true) (hp : p = 0xFFFF) (hkey : s.keeper.ownerKey = none) : s.decideRole p isn cred = (s, .ok .devOwner) := by
  unfold State.decideRole
  rw [if_pos hzero, hp, hkey]
  rfl

theorem decideRole_ownedDevice (hzero : allZero cred = true) (hp : p = 0xFFFF) (hkey : s.keeper.ownerKey ≠ none) :
    s.decideRole p isn cred = (s, .error (.notPermitted, [])) := by
  obtain ⟨key, hkey⟩ := Option.ne_none_iff_exists'.mp hkey
  unfold State.decideRole
  rw [if_pos hzero, hp, hkey]
  rfl

theorem decideRole_owner (hcred : allZero cred = false) (hgood : credentialGood s.keeper.ownerKey s.keeper.ownerMark p isn cred = true) :
    s.decideRole p isn cred = (s.setKeeper { s.keeper with ownerMark := isn }, .ok .devOwner) := by
  unfold State.decideRole
  rw [if_neg (Bool.eq_false_iff.mp hcred), if_pos hgood]

variable {pt : Part} (hcred : allZero cred = false) (howner : credentialGood s.keeper.ownerKey s.keeper.ownerMark p isn cred = false) (hpt : s.part p = some pt)
include hcred howner hpt

theorem decideRole_partOwner (hgood : credentialGood pt.ownerKey pt.ownerMark p isn cred = true) :
    s.decideRole p isn cred = (s.modPart p (fun pt => { pt with ownerMark := isn }), .ok .partOwner) := by
  unfold State.decideRole
  rw [if_neg (Bool.eq_false_iff.mp hcred), if_neg (Bool.eq_false_iff.mp howner), hpt]
  exact if_pos hgood

theorem decideRole_signatureInvalid (hbad : credentialGood pt.ownerKey pt.ownerMark p isn cred = false) :
    s.decideRole p isn cred =
      (s.bump .kpr 0 0x04 1, .error (.signatureInvalid, beBytes 4 (if pt.ownerKey.isSome then pt.ownerMark else s.keeper.ownerMark))) := by
  unfold State.decideRole
  rw [if_neg (Bool.eq_false_iff.mp hcred), if_neg (Bool.eq_false_iff.mp howner), hpt]
  exact if_neg (Bool.eq_false_iff.mp hbad)

end Role

theorem credentialGood_of {key : Bytes} {ownerKey : Option Bytes} {mark part isn : Nat} {cred : Bytes} (hkey : ownerKey = some key)
    (hsig : Config.sm2Verify key (credentialMessage part isn) cred = true) (hmark : mark < isn) : credentialGood ownerKey mark part isn cred = true := by
  rw [credentialGood, hkey, Option.any_some, hsig, decide_eq_true hmark]
  rfl

/-- The session that OPEN_SESSION makes is bound to its source and expects the numbers that it names, and no other session changes. -/
theorem newSession_session (s : State) (via : Via) (c : Ctx) (gen : Nat) (pl : Bytes) (role : Role) :
    ∃ v, (s.newSession via c gen pl role).session (lowestFree s.lesar.sessions) = some v ∧ v.role = role ∧ v.part = c.part ∧ v.gen = gen ∧ v.src = via.src ∧
      v.carrier = via.carrier ∧ v.isn = beAt pl 0 4 ∧ v.rxNext = beAt pl 0 4 ∧ v.window = (if beAt pl 4 2 = 0 then 64 else beAt pl 4 2) ∧
      v.peerAck = v.txNext ∧ v.unacked = [] :=
  ⟨_, NMap.find_insert_self _ _ _, rfl, rfl, rfl, rfl, rfl, rfl, rfl, rfl, rfl, rfl⟩

theorem newSession_others (s : State) (via : Via) (c : Ctx) (gen : Nat) (pl : Bytes) (role : Role) {q : Nat} (hq : q ≠ lowestFree s.lesar.sessions) :
    (s.newSession via c gen pl role).session q = s.session q :=
  NMap.find_insert_ne _ _ hq

/-! ## Closing (R366) -/

section Closing

variable {s : State} {n : Nat} {v : Session} (hv : s.session n = some v)
include hv

theorem sessionIdleTimeout_closes : exec (.sessionIdleTimeout n) s = .next (s.closeSession n) := by
  show execSessionIdleTimeout n s = _
  rw [execSessionIdleTimeout, hv]
  rfl

theorem closeSession_answers {c : Ctx} (hc : c.sess = n) (h : s.accepts c 0x0605 .early false) :
    exec (.closeSession c []) s = .next (((s.freeMbox c 0x0605).reply c 0x0605 .ok []).closeSession n) := by
  show execCloseSession c [] s = _
  rw [execCloseSession, serve_accepted h, freeMbox_session, hc, hv]
  rfl

theorem closeSession_regs_lesar : (s.closeSession n).regs = s.regs ∧ (s.closeSession n).lesar = Lesar.orphan n s.lesar := by
  have setters : ∀ (a a' : NMap Part) (b : Lesar) (f : Flash) (d : Dev) (e : Keeper) (u : Survey),
      let t := ((((((s.setParts a).setParts a').setLesar b).setFlash f).setDev d).setKeeper e).setSurvey u
      t.regs = s.regs ∧ t.lesar = b := by
    intro a a' b f d e u
    simp
  unfold State.closeSession State.sessionWorkClosed
  rw [if_neg (by rw [hv, Option.isNone_some]; exact Bool.false_ne_true)]
  dsimp only
  exact setters _ _ _ _ _ _ _

end Closing

theorem orphan_evts (n : Nat) (l : Lesar) : ∀ e ∈ (Lesar.orphan n l).evts, e.2.sess ≠ some n := by
  intro e he hsess
  obtain ⟨he, -⟩ := List.mem_filter.mp he
  obtain ⟨e, -, rfl⟩ := List.mem_map.mp he
  dsimp only at hsess
  split at hsess
  · cases hsess
  · exact absurd hsess ‹_›

theorem orphan_mboxes (n : Nat) (l : Lesar) : ∀ m ∈ (Lesar.orphan n l).mboxes, m.sess ≠ n ∨ n = closedSess := by
  intro m hm
  obtain ⟨m, -, rfl⟩ := List.mem_map.mp hm
  split
  · exact (em (n = closedSess)).symm.imp_left fun hne => Ne.symm hne
  · exact Or.inl ‹_›

/-! ## Retransmission and acknowledgement (R367, R369) -/

section Sending

variable {s : State} {n : Nat} {v : Session} (hv : s.session n = some v)
include hv

theorem retransmitTimeout_closes {f : OutFrame} {k seq : Nat} (hf : v.unacked.find? (fun u => u.1.seq == seq) = some (f, k)) (hk : 10 ≤ k) :
    exec (.retransmitTimeout n seq) s = .next (s.closeSession n) := by
  show execRetransmitTimeout n seq s = _
  unfold execRetransmitTimeout
  rw [hv, Option.bind_some, hf]
  exact if_pos hk

/-- A frame as it is sent again: marked with RETRY, by the port its session was last heard on. -/
def Session.again (v : Session) (home : Via) (f : OutFrame) : OutFrame :=
  { f with flags := if f.flags / 2 % 2 = 1 then f.flags else f.flags + 2, ackNum := v.rxNext, via := { f.via with port := home.port, endpoint := home.endpoint } }

theorem retransmitTimeout_again {f : OutFrame} {k seq : Nat} (hf : v.unacked.find? (fun u => u.1.seq == seq) = some (f, k)) (hk : k < 10) :
    exec (.retransmitTimeout n seq) s = .next (((s.modSession n (fun w => { w with unacked := w.unacked.map (fun u =>
      if u.1.seq = seq then (v.again (s.viaOf v) f, k + 1) else u) })).transmit (v.again (s.viaOf v) f)).bump .ls 0 0x14 1) := by
  show execRetransmitTimeout n seq s = _
  unfold execRetransmitTimeout
  rw [hv, Option.bind_some, hf]
  exact if_neg (Nat.not_le.mpr hk)

theorem ack_own {via : Via} {a : Nat} (hb : v.boundTo via = true) : exec (.ack via n a) s = .next ((s.heardOn n via).acknowledge n a) := by
  show execAck via n a s = _
  rw [execAck, hv, Option.any_some, if_pos hb]

theorem ack_other {via : Via} {a : Nat} (hb : v.boundTo via = false) : exec (.ack via n a) s = .next (s.refuseHeader via 3 n 0xFFFF 0 0 .unknownSession) := by
  show execAck via n a s = _
  rw [execAck, hv, Option.any_some, hb]
  rfl

end Sending

theorem segmentTimeout_refuses {s : State} {n : Nat} {m : Mbox} (h : s.assembling n = some m) :
    exec (.segmentTimeout n) s = .next ((s.refuseMessage m).setSwallow n true) := by
  show execSegmentTimeout n s = _
  rw [execSegmentTimeout, h]

/-! ## Registration for events (R378 to R380) -/

/-- The sessions that ask and that are named may both have the events of a partition. -/
def State.mayRegister (s : State) (c : Ctx) (n : Nat) : Bool :=
  (s.session c.sess).any (fun v => v.takesEvents c.part) && (s.session n).any (fun v => v.gen == 3 && v.takesEvents c.part)

/-- Session `k` takes the events of the frame's partition, and what was held for it. -/
def State.registered (s : State) (c : Ctx) (k : Nat) : State :=
  ((s.putEvtStream c.part { s.evtStream c.part with sess := some k }).reply c 0x0608 .ok []).flushEvents c.part

section Register

variable {s : State} {c : Ctx} {k : Nat} (h : s.accepts c 0x0608 .port false) (hk : k < 2 ^ 16)
include h hk

theorem eventRegister_run : exec (.eventRegister c (beBytes 2 k)) s =
    if c.part != 0xFFFF && (s.part c.part).isNone then .next ((s.freeMbox c 0x0608).reply c 0x0608 .notPermitted [])
    else if s.mayRegister c k then
      .next (if c.part = 0xFFFF then
        (((s.freeMbox c 0x0608).registered c k).lesar.evts.keys.filter (fun k => decide (0x10000 ≤ k))).foldl State.flushEvents ((s.freeMbox c 0x0608).registered c k)
        else (s.freeMbox c 0x0608).registered c k)
    else .next ((s.freeMbox c 0x0608).reply c 0x0608 .notPermitted []) := by
  have hn : beAt (beBytes 2 k) 0 2 = k := (beAt_last [] 2 k 0 rfl).trans (Nat.mod_eq_of_lt hk)
  show execEventRegister c (beBytes 2 k) s = _
  simp only [execEventRegister, serve_accepted h, hn, beBytes_length, bne_self_eq_false, Bool.false_eq_true, if_false, freeMbox_part_eq, freeMbox_session,
    State.answer]
  rfl

/-- What may have the events of no partition, or not of this one, is refused. -/
theorem eventRegister_refused (hno : c.part ≠ 0xFFFF ∧ s.part c.part = none ∨ s.mayRegister c k = false) :
    exec (.eventRegister c (beBytes 2 k)) s = .next ((s.freeMbox c 0x0608).reply c 0x0608 .notPermitted []) := by
  rw [eventRegister_run h hk]
  rcases hno with ⟨hp, hnone⟩ | hno
  · exact if_pos (by rw [hnone, bne_iff_ne.mpr hp]; rfl)
  · rw [hno, if_neg Bool.false_ne_true, ite_self]

theorem eventRegister_part (hp : c.part ≠ 0xFFFF) (hpt : (s.part c.part).isSome = true) (hmay : s.mayRegister c k = true) :
    exec (.eventRegister c (beBytes 2 k)) s = .next ((s.freeMbox c 0x0608).registered c k) := by
  have hthere : (c.part != 0xFFFF && (s.part c.part).isNone) = false := by rw [Option.isNone_eq_false_iff.mpr hpt, Bool.and_false]
  rw [eventRegister_run h hk, hthere, if_neg Bool.false_ne_true, if_pos hmay, if_neg hp]

theorem eventRegister_device (hp : c.part = 0xFFFF) (hmay : s.mayRegister c k = true) :
    exec (.eventRegister c (beBytes 2 k)) s = .next ((((s.freeMbox c 0x0608).registered c k).lesar.evts.keys.filter (fun k => decide (0x10000 ≤ k))).foldl
      State.flushEvents ((s.freeMbox c 0x0608).registered c k)) := by
  have hthere : (c.part != 0xFFFF && (s.part c.part).isNone) = false := by rw [hp, bne_self_eq_false, Bool.false_and]
  rw [eventRegister_run h hk, hthere, if_neg Bool.false_ne_true, if_pos hmay, if_pos hp]

end Register

theorem mayRegister_iff {s : State} {c : Ctx} {k : Nat} {v w : Session} (hv : s.session c.sess = some v) (hw : s.session k = some w) :
    s.mayRegister c k = true ↔ v.takesEvents c.part = true ∧ w.gen = 3 ∧ w.takesEvents c.part = true := by
  rw [State.mayRegister, hv, hw]
  simp only [Option.any_some, Bool.and_eq_true, beq_iff_eq]

theorem eventHoldExpiry_sends {s : State} {k n : Nat} (hn : s.evtSession k = some n) (hheld : (s.evtStream k).held ≠ []) :
    exec (.eventHoldExpiry k) s = .next (s.flushEvents k) := by
  have hsome : ((s.evtSession k).isSome && !(s.evtStream k).held.isEmpty) = true := by
    rw [hn, List.isEmpty_eq_false_iff.mpr hheld]
    rfl
  show execEventHoldExpiry k s = _
  rw [execEventHoldExpiry, hsome]
  rfl

theorem flushEvents_open {s : State} {k n : Nat} (hn : s.evtSession k = some n) :
    s.flushEvents k = (batches 9 (s.evtStream k).held).foldl (fun u es => u.sendSeq n (eventFrame (if 0x10000 ≤ k then k - 0x10000 else k) es))
      (s.putEvtStream k { s.evtStream k with held := [] }) := by
  unfold State.flushEvents
  rw [hn]

/-- Settles O48: the opening by its checks in order and the role that `decideRole` gives, the closing by what `Lesar.orphan` leaves. -/
theorem sessionsOpenAndClose : Obligations.SessionsOpenAndClose := by
  unfold Obligations.SessionsOpenAndClose
  refine ⟨?opening, ?opened, ?closing, ?segments, ?registration, ?holding⟩
  case opening =>
    intro s via c retry pl hserved
    dsimp only
    refine ⟨fun haway => openSession_elsewhere hserved ((opensElsewhere_iff _ _).mpr haway), fun hhere hbad => ?_, fun hhere hgood hno => ?_,
      fun hhere hgood hthere hretry => ?_⟩
    all_goals have hhere := Bool.eq_false_iff.mpr fun haway => (opensElsewhere_iff _ _).mp haway hhere
    · exact openSession_badFrame hserved hhere ((opensBadly_iff _).mpr hbad)
    all_goals have hgood := Bool.eq_false_iff.mpr fun hbad => (opensBadly_iff _).mp hbad hgood
    · exact openSession_nowhere hserved hhere hgood ((opensNowhere_iff _ _).mpr hno)
    have hthere := Bool.eq_false_iff.mpr fun hno => (opensNowhere_iff _ _).mp hno hthere
    subst hretry
    refine ⟨openSession_full hserved hhere hgood hthere, fun hroom => ⟨fun hzero hp hkey => ?_, fun hzero hp => ?_, fun hzero hp hkey => ?_,
      fun key hcred hkey hsig hmark => ?_, fun pt hcred howner hpt => ⟨fun hyes => ?_, fun hnot => ?_⟩⟩⟩
    · exact openSession_refused hserved hhere hgood hthere hroom (decideRole_ownedDevice hzero hp hkey)
    · exact openSession_opens hserved hhere hgood hthere hroom (decideRole_client hzero hp)
    · exact openSession_opens hserved hhere hgood hthere hroom (decideRole_firstOwner hzero hp hkey)
    · exact openSession_opens hserved hhere hgood hthere hroom (decideRole_owner hcred (credentialGood_of hkey hsig hmark))
    · exact openSession_opens hserved hhere hgood hthere hroom (decideRole_partOwner hcred howner hpt hyes)
    · exact openSession_refused hserved hhere hgood hthere hroom (decideRole_signatureInvalid hcred howner hpt hnot)
  case opened =>
    intro s via c gen pl role
    obtain ⟨v, hv, hrole, hpart, hgen, hsrc, hcarrier, hisn, hrx, hwindow, hack, hunacked⟩ := newSession_session s via c gen pl role
    exact ⟨v, hv, hrole, hpart, hgen, hsrc, hcarrier, hisn, hrx, hwindow, hack, hunacked, lowestFree_free _, fun q hq => newSession_others s via c gen pl role hq⟩
  case closing =>
    intro s n v hv
    obtain ⟨hmem, hsessions, -⟩ := closeSession_spec s n
    obtain ⟨hregs, hlesar⟩ := closeSession_regs_lesar hv
    refine ⟨sessionIdleTimeout_closes hv, fun c hc h => closeSession_answers hv hc h,
      ⟨(hsessions n).trans (if_pos rfl), fun q hq => (hsessions q).trans (if_neg hq), hmem, hregs, ?_, ?_⟩,
      fun f k seq hf => ⟨retransmitTimeout_closes hv hf, retransmitTimeout_again hv hf⟩, fun via a => ⟨ack_own hv, ack_other hv⟩⟩
    · rw [hlesar]
      exact orphan_evts n s.lesar
    · rw [hlesar]
      exact orphan_mboxes n s.lesar
  case segments => exact fun s n m h => segmentTimeout_refuses h
  case registration =>
    intro s c k v w h hk hv hw
    have hmay := mayRegister_iff hv hw
    refine ⟨fun hno => eventRegister_refused h hk (Or.inl hno), fun hno => eventRegister_refused h hk (Or.inr (Bool.eq_false_iff.mpr fun hyes => ?_)),
      fun hp hpt h1 h2 h3 => eventRegister_part h hk hp hpt (hmay.mpr ⟨h1, h2, h3⟩), fun hp h1 h2 h3 => eventRegister_device h hk hp (hmay.mpr ⟨h1, h2, h3⟩)⟩
    obtain ⟨h1, h2, h3⟩ := hmay.mp hyes
    simp [h1, h2, h3] at hno
  case holding => exact fun s k n hn hheld => (eventHoldExpiry_sends hn hheld).trans (congrArg Host.Outcome.next (flushEvents_open hn))

end Sys2Proof.Machine
end

section
/-!
PROOFS. The configuration flash: what its commands answer, and the reads.
-/
namespace Sys2Proof.Machine

open Sys2Proof

/-! ## Commands of the flash that run at once (R336) -/

/-- A final status given to a frame is recorded in CF_STATUS and answered. -/
theorem flashAnswered_done {i : Instr} {s u : State} {c : Ctx} {op : Nat} {st : Status} {pl : Bytes} {P : State → Prop} (hst : st ≠ .pending) (hP : P u)
    (h : exec i s = .next (u.cfDone (some c) op st pl)) : flashAnswered i s c op st pl P :=
  ⟨_, h, u, hP, congrArg (State.freeMbox · c op) (if_neg hst)⟩

/-- A command that does not wait for a program or an erase, with none queued before it, is carried out. -/
theorem cfFrame_quick {s : State} {c : Ctx} {op : Nat} {pl : Bytes} (h : s.flashServes c op) (hq : s.flash.queue = []) (hop : cfExclusive op = false) :
    s.cfFrame op c pl = .next (s.cfRun op c pl) := by
  rw [cfFrame_run s c op pl h, cfSubmit_run s c op pl (Or.inr ⟨hq, Or.inl hop⟩)]

/-- A command that programs or erases is carried out where none runs and none is queued. -/
theorem cfFrame_idle {s : State} {c : Ctx} {op : Nat} {pl : Bytes} (h : s.flashServes c op) (hq : s.flash.queue = []) (hop : s.flash.op = none) :
    s.cfFrame op c pl = .next (s.cfRun op c pl) := by
  rw [cfFrame_run s c op pl h, cfSubmit_run s c op pl (Or.inr ⟨hq, Or.inr hop⟩)]

/-- A command that is carried out beside what runs. -/
theorem cfFrame_beside {s : State} {c : Ctx} {op : Nat} {pl : Bytes} (h : s.flashServes c op) (hop : cfBeside op = true) :
    s.cfFrame op c pl = .next (s.cfRun op c pl) := by
  rw [cfFrame_run s c op pl h, cfSubmit_run s c op pl (Or.inl hop)]

/-! ## Reads (R335, R342) -/

theorem cfReadBytes_clean {s : State} {c : Ctx} {op a n : Nat} (hhalf : s.flash.half = []) (hbad : s.flash.badWords = []) :
    s.cfReadBytes c op a n = s.cfDone (some c) op .ok
      ((if op = 0x0701 then [0#8, 0#8, 0#8, 0#8] else []) ++ (List.range n).map (fun i => Mem.read 0xFF#8 s.mem.flash (a + i))) := by
  rw [State.cfReadBytes, flashRead_clean s a n hhalf hbad]
  rfl

theorem cfReadBytes_half {s : State} {c : Ctx} {a n : Nat} (hn : 1 ≤ n) (hhalf : s.flash.half.contains (sectorAt a) = true) :
    s.cfReadBytes c 0x0701 a n = (s.flashRead a n).1.cfDone (some c) 0x0701 .ok ([1#8, 0#8, 0#8, 0#8] ++ (s.flashRead a n).2.1) := by
  obtain ⟨hunreliable, -, -⟩ := flashRead_half s a n hn hhalf
  rw [State.cfReadBytes, hunreliable]
  rfl

/-- The parts of a CF_LOG_READ. -/
theorem logPayload {area off n : Nat} (harea : area < 2) (hoff : off < 2 ^ 32) (hn : n < 2 ^ 32) :
    let pl := [BitVec.ofNat 8 area, 0#8, 0#8, 0#8] ++ (beBytes 4 off ++ beBytes 4 n)
    pl.length = 12 ∧ beAt pl 0 1 = area ∧ beAt pl 4 4 = off ∧ beAt pl 8 4 = n := by
  refine ⟨by simp only [List.length_append, beBytes_length]; rfl, ?_, ?_, ?_⟩
  · obtain rfl | rfl : area = 0 ∨ area = 1 := by omega
    · rfl
    · rfl
  · exact (beAt_append _ _ _ _ _ rfl).trans (Nat.mod_eq_of_lt hoff)
  · rw [← List.append_assoc]
    exact (beAt_last _ _ _ _ (by simp only [List.length_append, beBytes_length]; rfl)).trans (Nat.mod_eq_of_lt hn)

theorem cfLogRead_run {s : State} {c : Ctx} {area off n : Nat} (h : s.flashServes c 0x070F) (harea : area < 2) (h1 : 1 ≤ n) (h2 : n ≤ 4096)
    (hoff : off + n ≤ if area = 0 then 983040 else 32768) :
    exec (.cfLogRead c ([BitVec.ofNat 8 area, 0#8, 0#8, 0#8] ++ (beBytes 4 off ++ beBytes 4 n)) []) s =
      .next (s.cfReadBytes c 0x070F ((if area = 0 then 0x01010000 else 0x01008000) + off) n) := by
  have hsmall : off + n ≤ 983040 := hoff.trans (by split <;> omega)
  obtain ⟨hlength, hfirst, hsecond, hthird⟩ := logPayload (off := off) (n := n) harea (by omega) (by omega)
  show (s.strike []).cfFrame 0x070F c _ = _
  rw [State.strike_nil, cfFrame_beside h rfl]
  refine congrArg Host.Outcome.next ?_
  simp only [State.cfRun]
  rw [hlength, hfirst, hsecond, hthird]
  refine if_neg ?_
  simp
  omega

/-! ## Lists and protection (R344, R347) -/

theorem cfBlankCheck_run {s : State} {c : Ctx} {k : Nat} (h : s.flashServes c 0x0706) (hq : s.flash.queue = []) (hk : sectorOk k = true)
    (hhalf : s.flash.half.contains k = false) :
    exec (.cfBlankCheck c (beBytes 2 k)) s = .next (s.cfDone (some c) 0x0706 .ok
      [if s.mem.flash.any (fun e => decide (sectorBase k ≤ e.1) && decide (e.1 < sectorBase k + sectorSize k)) then 1#8 else 0#8]) := by
  have hsmall : k < 2 ^ 16 := by
    simp only [sectorOk, Bool.or_eq_true, Bool.and_eq_true, decide_eq_true_eq] at hk
    omega
  have hn : beAt (beBytes 2 k) 0 2 = k := (beAt_last [] 2 k 0 rfl).trans (Nat.mod_eq_of_lt hsmall)
  have hgood : ((beBytes 2 k).length != 2 || !sectorOk k) = false := by rw [beBytes_length, hk]; rfl
  refine (cfFrame_quick h hq rfl).trans (congrArg Host.Outcome.next ?_)
  simp only [State.cfRun]
  rw [hn, hgood, if_neg Bool.false_ne_true, hhalf, if_neg Bool.false_ne_true]

theorem cfHalfList_run {s : State} {c : Ctx} (h : s.flashServes c 0x0707) (hq : s.flash.queue = []) :
    exec (.cfHalfList c []) s = .next (s.cfDone (some c) 0x0707 .ok s.halfList) :=
  cfFrame_quick h hq rfl

theorem cfProtRead_run {s : State} {c : Ctx} (h : s.flashServes c 0x070A) (hq : s.flash.queue = []) :
    exec (.cfProtRead c []) s = .next (s.cfDone (some c) 0x070A .ok (s.params.protMain ++ beBytes 4 s.params.protParam.toNat)) :=
  cfFrame_quick h hq rfl

/-- Settles O29: each command answers from what `flashRead` gives of a clean or a HALF_ERASED sector, or from the array's used bytes. -/
theorem flashReads : Obligations.FlashReads := by
  unfold Obligations.FlashReads
  refine ⟨?read, ?log, ?blank, ?lists⟩
  case read =>
    intro s c a n h h1 h2 h3
    have hrun := cfRead_run s c a n h h1 h2 h3
    refine ⟨fun hout hhalf hbad => ?_, fun hout hhalf => ?_, fun hlow hhigh => ?_⟩
    · exact flashAnswered_done (by decide) rfl (hrun.trans (congrArg Host.Outcome.next ((if_neg (by omega)).trans (cfReadBytes_clean hhalf hbad))))
    · obtain ⟨-, hflash, hmem⟩ := flashRead_half s a n h1 hhalf
      refine ⟨_, flashAnswered_done (u := (s.flashRead a n).1) (by decide) ⟨by rw [hflash], hmem, by rw [hflash]⟩
        (hrun.trans (congrArg Host.Outcome.next ((if_neg (by omega)).trans (cfReadBytes_half h1 hhalf))))⟩
    · exact flashAnswered_done (by decide) rfl (hrun.trans (congrArg Host.Outcome.next (if_pos ⟨hlow, hhigh⟩)))
  case log =>
    intro s c area off n h harea h1 h2 hoff hhalf hbad
    exact flashAnswered_done (by decide) rfl ((cfLogRead_run h harea h1 h2 hoff).trans (congrArg Host.Outcome.next (cfReadBytes_clean hhalf hbad)))
  case blank =>
    intro s c k h hq hk hhalf hwf
    have hused := flash_used s.mem.flash (sectorBase k) (sectorSize k) hwf
    have hrun := cfBlankCheck_run h hq hk hhalf
    refine ⟨fun hall => ?_, fun x hx hne => ?_⟩
    · rw [if_neg fun hany => (hused.mp hany).elim fun x hx => hx.2 (hall x hx.1)] at hrun
      exact flashAnswered_done (by decide) rfl hrun
    · rw [if_pos (hused.mpr ⟨x, hx, hne⟩)] at hrun
      exact flashAnswered_done (by decide) rfl hrun
  case lists =>
    exact fun s c hq => ⟨fun h => flashAnswered_done (by decide) rfl (cfHalfList_run h hq), fun h => flashAnswered_done (by decide) rfl (cfProtRead_run h hq)⟩

end Sys2Proof.Machine
end

section
/-!
PROOFS. The configuration flash: programs, erases and the boot twins.
-/
namespace Sys2Proof.Machine

open Sys2Proof

theorem flashRaw_erased {s : State} {a n : Nat} (h : ∀ x, x < n → Mem.read 0xFF#8 s.mem.flash (a + x) = 0xFF#8) :
    (s.flashRaw a n).all (· == 0xFF#8) = true := by
  rw [State.flashRaw, readN_map, List.all_map, List.all_eq_true]
  exact fun x hx => beq_iff_eq.mpr (h x (List.mem_range.mp hx))

/-! ## CF_PROGRAM (R335, R337, R338) -/

section Program

variable {s : State} {c : Ctx} {a n : Nat} {d : Bytes}

/-- A program of aligned words within one page. -/
def programsPage (a n : Nat) (d : Bytes) : Prop :=
  d.length = n ∧ a % 16 = 0 ∧ n % 16 = 0 ∧ 1 ≤ n ∧ n ≤ 256 ∧ a / 256 = (a + n - 1) / 256 ∧ a < 2 ^ 25

theorem cfProgram_run (h : s.flashServes c 0x0702) (hop : s.flash.op = none) (hq : s.flash.queue = []) (pl : Bytes) :
    exec (.cfProgram c pl) s = .next (s.cfProgramRun c pl) :=
  cfFrame_idle h hq hop

/-- What CF_PROGRAM does of a program within a page, by its sector and what stands there. -/
theorem cfProgramRun_page (h : programsPage a n d) : s.cfProgramRun c (beBytes 4 a ++ (beBytes 4 n ++ d)) =
    if !ownerSector (sectorAt a) || s.params.protects (sectorAt a) then s.cfDone (some c) 0x0702 .protected_ []
    else if s.flash.half.contains (sectorAt a) then s.cfDone (some c) 0x0702 .halfErased []
    else if !(s.flashRaw a n).all (· == 0xFF#8) || (List.range (n / 16)).any (fun i => (NMap.find s.flash.badWords (a / 16 + i)).isSome) then
      s.cfDone (some c) 0x0702 .notPermitted []
    else s.setFlash { s.flash with op := some (.program c 0x0702 a d) } := by
  obtain ⟨hlength, ha, hn, h1, h2, hpage, hsmall⟩ := h
  obtain ⟨hfirst, hsecond, hdrop, hall⟩ := beAt_second a n d
  unfold State.cfProgramRun
  dsimp only
  rw [hfirst, hsecond, hdrop, hall, hlength, Nat.mod_eq_of_lt (show a < 2 ^ 32 by omega), Nat.mod_eq_of_lt (show n < 2 ^ 32 by omega)]
  refine if_neg ?_
  simp
  omega

variable (h : s.flashServes c 0x0702) (hop : s.flash.op = none) (hq : s.flash.queue = []) (hpl : programsPage a n d)
include h hop hq hpl

theorem cfProgram_protected (hno : ownerSector (sectorAt a) = false ∨ s.params.protects (sectorAt a) = true) :
    exec (.cfProgram c (beBytes 4 a ++ (beBytes 4 n ++ d))) s = .next (s.cfDone (some c) 0x0702 .protected_ []) := by
  rw [cfProgram_run h hop hq, cfProgramRun_page hpl]
  refine congrArg Host.Outcome.next (if_pos ?_)
  rcases hno with hno | hno
  · rw [hno]
    rfl
  · rw [hno, Bool.or_true]

variable (howner : ownerSector (sectorAt a) = true) (hfree : s.params.protects (sectorAt a) = false)
include howner hfree

theorem cfProgram_halfErased (hhalf : s.flash.half.contains (sectorAt a) = true) :
    exec (.cfProgram c (beBytes 4 a ++ (beBytes 4 n ++ d))) s = .next (s.cfDone (some c) 0x0702 .halfErased []) := by
  rw [cfProgram_run h hop hq, cfProgramRun_page hpl, howner, hfree]
  exact congrArg Host.Outcome.next ((if_neg Bool.false_ne_true).trans (if_pos hhalf))

theorem cfProgram_starts (hhalf : s.flash.half.contains (sectorAt a) = false) (hbad : s.flash.badWords = [])
    (herased : ∀ x, x < n → Mem.read 0xFF#8 s.mem.flash (a + x) = 0xFF#8) :
    exec (.cfProgram c (beBytes 4 a ++ (beBytes 4 n ++ d))) s = .next (s.setFlash { s.flash with op := some (.program c 0x0702 a d) }) := by
  have hblank : (!(s.flashRaw a n).all (· == 0xFF#8) || (List.range (n / 16)).any (fun i => (NMap.find s.flash.badWords (a / 16 + i)).isSome)) = false := by
    rw [flashRaw_erased herased, hbad]
    simp
  rw [cfProgram_run h hop hq, cfProgramRun_page hpl, howner, hfree, hhalf, hblank]
  rfl

end Program

/-! ## Completion of a program (R335, R346) -/

section ProgramDone

variable {s : State} {c : Ctx} {op : Nat} (hq : s.flash.queue = []) (hwait : s.flash.resumeWait = none) (hgo : s.lesar.goDone = [])
include hq hwait hgo

/-- An answer of the controller after which nothing waits: nothing follows it. -/
theorem cfDone_rests {u : State} {st : Status} (hflash : u.flash.queue = s.flash.queue) (hresume : u.flash.resumeWait = s.flash.resumeWait)
    (hlesar : u.lesar.goDone = s.lesar.goDone) :
    (u.cfDone (some c) op st []).flash.resumeWait = none ∧ (u.cfDone (some c) op st []).cfPump 8 = u.cfDone (some c) op st [] ∧
      (u.cfDone (some c) op st []).settleAll = u.cfDone (some c) op st [] := by
  obtain ⟨hf, -, hg⟩ := cfDone_keeps u c op st []
  exact ⟨by rw [hf, hresume, hwait], cfPump_idle _ _ (by rw [hf, hflash, hq]), settleAll_idle _ (by rw [hg, hlesar, hgo])⟩

theorem cfProgramComplete_program {a : Nat} {d : Bytes} (hop : s.flash.op = some (.program c op a d)) :
    exec .cfProgramComplete s = .next (((s.setFlash { s.flash with op := none }).flashPut a d).cfDone (some c) op .ok []) := by
  obtain ⟨hresume, hpump, hsettle⟩ := cfDone_rests (c := c) (op := op) (st := .ok) hq hwait hgo
    (u := (s.setFlash { s.flash with op := none }).flashPut a d) rfl rfl rfl
  show execCfProgramComplete s = _
  unfold execCfProgramComplete
  rw [hop]
  unfold State.cfProgramDone
  dsimp only
  rw [hresume]
  exact congrArg Host.Outcome.next ((congrArg State.settleAll hpump).trans hsettle)

theorem cfProgramComplete_param {new : ParamSet} (hop : s.flash.op = some (.param (some c) op new)) :
    exec .cfProgramComplete s = .next ((((s.setFlash { s.flash with op := none }).flashPut (sectorBase (paramSector new.copy)) new.bytes).setFlash
      { s.flash with op := none, params := some new }).cfDone (some c) op .ok []) := by
  obtain ⟨hresume, hpump, hsettle⟩ := cfDone_rests (c := c) (op := op) (st := .ok) hq hwait hgo
    (u := ((s.setFlash { s.flash with op := none }).flashPut (sectorBase (paramSector new.copy)) new.bytes).setFlash
      { s.flash with op := none, params := some new }) rfl rfl rfl
  show execCfProgramComplete s = _
  unfold execCfProgramComplete
  rw [hop]
  unfold State.cfProgramDone
  dsimp only
  refine congrArg Host.Outcome.next ((congrArg State.settleAll (?_ : _ = State.cfDone _ _ _ _ _)).trans hsettle)
  refine Eq.trans ?_ hpump
  have hflash : ((s.setFlash { s.flash with op := none }).flashPut (sectorBase (paramSector new.copy)) new.bytes).flash = { s.flash with op := none } := rfl
  rw [hflash, hresume]

end ProgramDone

/-! ## CF_ERASE and its completion (R337, R339, R340) -/

theorem cfErase_starts {s : State} {c : Ctx} {n : Nat} (h : s.flashServes c 0x0703) (hop : s.flash.op = none) (hq : s.flash.queue = [])
    (hsusp : s.flash.susp = none) (hn : sectorOk n = true) (howner : ownerSector n = true) (hfree : s.params.protects n = false) :
    exec (.cfErase c (beBytes 2 n)) s = .next ((s.cfDone (some c) 0x0703 .pending []).beginErase n (.answer c)) := by
  have hsmall : n < 2 ^ 16 := by
    simp only [sectorOk, Bool.or_eq_true, Bool.and_eq_true, decide_eq_true_eq] at hn
    omega
  have hread : beAt (beBytes 2 n) 0 2 = n := (beAt_last [] 2 n 0 rfl).trans (Nat.mod_eq_of_lt hsmall)
  refine (cfFrame_idle h hq hop).trans (congrArg Host.Outcome.next ?_)
  show s.cfEraseRun c (beBytes 2 n) = _
  unfold State.cfEraseRun
  dsimp only
  rw [hread, hn, howner, hfree, hsusp, beBytes_length]
  rfl

/-- What the end of an erase leaves of the controller: the journal, the words of its sector and what the erase held. -/
theorem endErase_keeps (s : State) (n : Nat) :
    (s.endErase n).flash.op = none ∧ (s.endErase n).flash.half = s.flash.half.filter (· != n) ∧ (s.endErase n).flash.queue = s.flash.queue ∧
      flashOnly s (s.endErase n) := by
  have hkept := journal_keeps (s.flashClear n) 2 n
  have hhalf := congrArg Flash.half hkept
  have hqueue := congrArg Flash.queue hkept
  refine ⟨rfl, congrArg (List.filter (· != n)) hhalf, hqueue, ?_⟩
  exact flashOnly_trans (flashOnly_trans (flashClear_only s n) (journal_only _ _ _)) (setFlash_only _ _)

theorem endErase_erased {s : State} {n : Nat} (howner : ownerSector n = true) (hhead : s.flash.jHead < 2048) :
    ∀ x, x < sectorSize n → Mem.read 0xFF#8 (s.endErase n).mem.flash (sectorBase n + x) = 0xFF#8 := by
  have hclear : erasedAt n (s.flashClear n) := by
    refine ⟨hhead, fun x hx => (Mem.read_clear 0xFF#8 s.mem.flash (sectorBase n) (sectorSize n) (sectorBase n + x)).trans (if_pos ?_)⟩
    omega
  obtain ⟨-, herased⟩ := erased_journal howner _ 2 n hclear
  exact herased

theorem cfEraseComplete_answers {s : State} {c : Ctx} {n : Nat} (hop : s.flash.op = some (.erase n (.answer c))) (hq : s.flash.queue = [])
    (hgo : s.lesar.goDone = []) : exec .cfEraseComplete s = .next ((s.endErase n).cfDone (some c) 0x0703 .ok []) := by
  obtain ⟨-, -, hqueue, hframe, -⟩ := endErase_keeps s n
  obtain ⟨hf, -, hg⟩ := cfDone_keeps (s.endErase n) c 0x0703 .ok []
  have hpump := cfPump_idle ((s.endErase n).cfDone (some c) 0x0703 .ok []) 8 (by rw [hf, hqueue, hq])
  have hlesar := congrArg (fun u : State => u.lesar.goDone) hframe
  show execCfEraseComplete s = _
  unfold execCfEraseComplete
  rw [hop]
  refine congrArg Host.Outcome.next ((congrArg State.settleAll hpump).trans (settleAll_idle _ ?_))
  exact hg.trans (hlesar.trans hgo)

/-! ## CF_SUSPEND and CF_RESUME (R339) -/

section Suspension

variable {s : State} {c : Ctx}

theorem cfSuspend_run (h : s.flashServes c 0x0704) : exec (.cfSuspend c []) s = .next ((s.cfSuspendRun c).cfPump 8) := by
  show execCfSuspend c [] s = _
  rw [execCfSuspend, cfFrame_beside h rfl]
  rfl

theorem cfSuspend_holds (h : s.flashServes c 0x0704) {n : Nat} {after : FlashAfter} (hop : s.flash.op = some (.erase n after)) (hsusp : s.flash.susp = none)
    (hq : s.flash.queue = []) : exec (.cfSuspend c []) s =
      .next ((s.setFlash { s.flash with op := none, susp := some (.erase n after) }).cfDone (some c) 0x0704 .ok []) := by
  have hrun : s.cfSuspendRun c = (s.setFlash { s.flash with op := none, susp := some (.erase n after) }).cfDone (some c) 0x0704 .ok [] := by
    unfold State.cfSuspendRun
    rw [hop, hsusp]
  obtain ⟨hf, -, -⟩ := cfDone_keeps (s.setFlash { s.flash with op := none, susp := some (.erase n after) }) c 0x0704 .ok []
  rw [cfSuspend_run h, hrun]
  exact congrArg Host.Outcome.next (cfPump_idle _ 8 (by rw [hf]; exact hq))

theorem cfSuspend_nothing (h : s.flashServes c 0x0704) (hop : s.flash.op = none) (hq : s.flash.queue = []) :
    exec (.cfSuspend c []) s = .next (s.cfDone (some c) 0x0704 .notPermitted []) := by
  have hrun : s.cfSuspendRun c = s.cfDone (some c) 0x0704 .notPermitted [] := by
    unfold State.cfSuspendRun
    rw [hop]
  obtain ⟨hf, -, -⟩ := cfDone_keeps s c 0x0704 .notPermitted []
  rw [cfSuspend_run h, hrun]
  exact congrArg Host.Outcome.next (cfPump_idle _ 8 (by rw [hf]; exact hq))

variable (h : s.flashServes c 0x0705)
include h

theorem cfResume_run : exec (.cfResume c []) s = .next (s.cfResumeRun c) := cfFrame_beside h rfl

theorem cfResume_runs {e : FlashOp} (hsusp : s.flash.susp = some e) (hop : s.flash.op = none) :
    exec (.cfResume c []) s = .next ((s.setFlash { s.flash with op := some e, susp := none }).cfDone (some c) 0x0705 .ok []) := by
  rw [cfResume_run h, State.cfResumeRun, hsusp, hop]

theorem cfResume_nothing (hsusp : s.flash.susp = none) : exec (.cfResume c []) s = .next (s.cfDone (some c) 0x0705 .notPermitted []) := by
  rw [cfResume_run h, State.cfResumeRun, hsusp]

theorem cfResume_waits {e o : FlashOp} (hsusp : s.flash.susp = some e) (hop : s.flash.op = some o) (hwait : s.flash.resumeWait = none) :
    exec (.cfResume c []) s = .next (s.setFlash { s.flash with resumeWait := some c }) := by
  rw [cfResume_run h, State.cfResumeRun, hsusp, hop]
  dsimp only
  rw [hwait]
  rfl

end Suspension

/-! ## CF_TWIN_WRITE (R349) -/

theorem beginErase_twinWrite (s : State) (n : Nat) (after : FlashAfter) : (s.beginErase n after).flash.twinWrite = s.flash.twinWrite := by
  have hkept := congrArg Flash.twinWrite (journal_keeps s 1 n)
  exact hkept

/-- The parts of a CF_TWIN_WRITE. -/
theorem twinPayload {flags off : Nat} (d : Bytes) (hflags : flags < 256) (hoff : off < 2 ^ 32) :
    let pl := [BitVec.ofNat 8 flags, 0#8, 0#8, 0#8] ++ (beBytes 4 off ++ d)
    pl.length = 8 + d.length ∧ beAt pl 0 1 = flags ∧ beAt pl 4 4 = off ∧ pl.drop 8 = d := by
  refine ⟨?_, ?_, (beAt_append _ _ _ _ _ rfl).trans (Nat.mod_eq_of_lt hoff), ?_⟩
  · simp only [List.length_append, beBytes_length, List.length_cons, List.length_nil]
    omega
  · simp [beAt, ofBe, Nat.mod_eq_of_lt hflags]
  · rw [← List.append_assoc]
    exact List.drop_left' (by simp only [List.length_append, beBytes_length, List.length_cons, List.length_nil])

/-- What a twin write continues with. -/
def twinNext (last off : Nat) (d : Bytes) : Option Nat := if last = 1 then none else some (off + d.length)

section Twin

variable {s : State} {c : Ctx} {last off : Nat} {d : Bytes} (h : s.flashServes c 0x070B) (hop : s.flash.op = none) (hq : s.flash.queue = []) (hlast : last < 2)
  (hd : d.length % 16 = 0) (hsmall : d.length ≤ 4096) (hoff : off % 16 = 0) (hfits : off + d.length ≤ twinSize)
include hlast hd hsmall hoff hfits

theorem cfTwinRun_first (hnone : s.flash.twinWrite = none) (hsusp : s.flash.susp = none) :
    s.cfTwinRun c ([BitVec.ofNat 8 (1 + 2 * last), 0#8, 0#8, 0#8] ++ (beBytes 4 off ++ d)) =
      ((s.cfDone (some c) 0x070B .pending []).setFlash
        { (s.cfDone (some c) 0x070B .pending []).flash with twinWrite := twinNext last off d }).beginErase ((twinSectors (1 - s.params.bootActive)).headD 0)
          (.twin c ((twinSectors (1 - s.params.bootActive)).drop 1) off d) := by
  have htwin : twinSize = 2097152 := rfl
  obtain ⟨hlength, hflags, hread, hdrop⟩ := twinPayload (flags := 1 + 2 * last) (off := off) d (by omega) (by omega)
  have hbad : (decide (8 + d.length < 8) || d.length % 16 != 0 || off % 16 != 0 || decide (4096 < d.length) || decide (twinSize < off + d.length)) = false := by
    rw [hd, hoff, decide_eq_false (by omega), decide_eq_false (by omega), decide_eq_false (by omega)]
    rfl
  have hnext : (if (1 + 2 * last) / 2 % 2 = 1 then none else some (off + d.length)) = twinNext last off d := by
    rw [twinNext, show (1 + 2 * last) / 2 % 2 = last by omega]
  unfold State.cfTwinRun
  dsimp only
  rw [hlength, hflags, hread, hdrop, hbad, hnone, hsusp, hnext, if_neg Bool.false_ne_true, if_pos (show (1 + 2 * last) % 2 = 1 by omega)]
  rfl

theorem cfTwinRun_next (hmid : s.flash.twinWrite = some off) :
    s.cfTwinRun c ([BitVec.ofNat 8 (2 * last), 0#8, 0#8, 0#8] ++ (beBytes 4 off ++ d)) =
      s.setFlash { s.flash with twinWrite := twinNext last off d, op := some (.program c 0x070B (twinBase (1 - s.params.bootActive) + off) d) } := by
  have htwin : twinSize = 2097152 := rfl
  obtain ⟨hlength, hflags, hread, hdrop⟩ := twinPayload (flags := 2 * last) (off := off) d (by omega) (by omega)
  have hbad : (decide (8 + d.length < 8) || d.length % 16 != 0 || off % 16 != 0 || decide (4096 < d.length) || decide (twinSize < off + d.length)) = false := by
    rw [hd, hoff, decide_eq_false (by omega), decide_eq_false (by omega), decide_eq_false (by omega)]
    rfl
  have hnext : (if 2 * last / 2 % 2 = 1 then none else some (off + d.length)) = twinNext last off d := by
    rw [twinNext, show 2 * last / 2 % 2 = last by omega]
  unfold State.cfTwinRun
  dsimp only
  rw [hlength, hflags, hread, hdrop, hbad, hmid, hnext, if_neg Bool.false_ne_true, if_neg (show ¬ 2 * last % 2 = 1 by omega), bne_self_eq_false,
    if_neg Bool.false_ne_true]

end Twin

/-- A result of a command, and what holds of it. -/
theorem completes_of {i : Instr} {s t : State} {P : State → Prop} (h : exec i s = .next t) (hP : P t) : completes i s P := ⟨t, h, hP⟩

/-- Settles O30: each command from its checks in order; the completions by what the array and the journal hold after them. -/
theorem flashProgramsAndErases : Obligations.FlashProgramsAndErases := by
  unfold Obligations.FlashProgramsAndErases
  refine ⟨?program, ?programmed, ?erase, ?erased, ?suspend, ?resume, ?twin⟩
  case program =>
    intro s c a n d h hop hq hlength ha hn h1 h2 hpage hsmall
    have hpl : programsPage a n d := ⟨hlength, ha, hn, h1, h2, hpage, hsmall⟩
    exact ⟨fun hno => flashAnswered_done (by decide) rfl (cfProgram_protected h hop hq hpl hno),
      fun howner hfree hhalf => flashAnswered_done (by decide) rfl (cfProgram_halfErased h hop hq hpl howner hfree hhalf),
      fun howner hfree hhalf hbad herased => completes_of (cfProgram_starts h hop hq hpl howner hfree hhalf hbad herased) rfl⟩
  case programmed =>
    intro s c op a d hop hq hwait hgo
    obtain ⟨hin, hout⟩ := flashPut_read (s.setFlash { s.flash with op := none }) a d
    exact flashAnswered_done (by decide) ⟨rfl, hin, hout, rfl, rfl⟩ (cfProgramComplete_program hq hwait hgo hop)
  case erase =>
    intro s c n h hop hq hsusp hn howner hfree
    obtain ⟨hstart, hhalf⟩ := beginErase_op (s.cfDone (some c) 0x0703 .pending []) n (.answer c)
    obtain ⟨hframe, hmem⟩ := beginErase_only (s.cfDone (some c) 0x0703 .pending []) n (.answer c)
    obtain ⟨-, hkept, -⟩ := cfDone_keeps s c 0x0703 .pending []
    exact completes_of (cfErase_starts h hop hq hsusp hn howner hfree) ⟨hstart, hhalf, hmem.trans (by rw [hkept]), hframe⟩
  case erased =>
    intro s c n hop hq howner hhead hgo
    obtain ⟨hnone, hhalf, -, hframe, hmem⟩ := endErase_keeps s n
    exact flashAnswered_done (by decide) ⟨hnone, hhalf, endErase_erased howner hhead, hmem, hframe⟩ (cfEraseComplete_answers hop hq hgo)
  case suspend =>
    exact fun s c h => ⟨fun n a hop hsusp hq => flashAnswered_done (by decide) rfl (cfSuspend_holds h hop hsusp hq),
      fun hop hq => flashAnswered_done (by decide) rfl (cfSuspend_nothing h hop hq)⟩
  case resume =>
    exact fun s c h => ⟨fun e hsusp hop => flashAnswered_done (by decide) rfl (cfResume_runs h hsusp hop),
      fun hsusp => flashAnswered_done (by decide) rfl (cfResume_nothing h hsusp),
      fun e o hsusp hop hwait => completes_of (cfResume_waits h hsusp hop hwait) rfl⟩
  case twin =>
    intro s c last off d h hop hq hlast hd hsmall hoff hfits
    refine ⟨fun hnone hsusp => ?_, fun hmid => ?_⟩
    · exact completes_of ((cfFrame_idle h hq hop).trans (congrArg Host.Outcome.next (cfTwinRun_first hlast hd hsmall hoff hfits hnone hsusp))) 
        ⟨rfl, beginErase_twinWrite _ _ _⟩
    · exact completes_of ((cfFrame_idle h hq hop).trans (congrArg Host.Outcome.next (cfTwinRun_next hlast hd hsmall hoff hfits hmid))) rfl

end Sys2Proof.Machine
end

section
/-!
PROOFS. The configuration flash: protection, password, boot bank and start record.
-/
namespace Sys2Proof.Machine

open Sys2Proof

/-! ## What an update of the parameter set leaves (R346) -/

theorem params_congr {s t : State} (h : t.flash.params = s.flash.params) : t.params = s.params := congrArg (Option.getD · ParamSet.blank) h

theorem beginParam_pwFails (s : State) (c : Option Ctx) (op : Nat) (new : ParamSet) : (s.beginParam c op new).flash.pwFails = s.flash.pwFails := by
  have hkept := congrArg Flash.pwFails (journal_keeps s 1 (paramSector (1 - s.params.copy)))
  exact hkept

theorem beginParam_op {s q : State} (hq : q.params = s.params) (c : Option Ctx) (op : Nat) (new : ParamSet) :
    (q.beginParam c op new).flash.op =
      some (.erase (paramSector (1 - s.params.copy)) (.param c op { new with copy := 1 - s.params.copy, seq := s.params.seq + 1 })) := by
  obtain ⟨hop, -, -⟩ := beginParam_spec q c op new
  rw [hop, hq]

theorem written_reads (s : State) (f : Flash) (a : Nat) (d : Bytes) :
    ∀ x, x < d.length → Mem.read 0xFF#8 ((s.flashPut a d).setFlash f).mem.flash (a + x) = d.getD x 0#8 := by
  obtain ⟨hin, -⟩ := flashPut_read s a d
  exact hin

/-! ## Passwords (R347, R348) -/

section Password

variable {s : State} {pw : Bytes}

theorem cfPassword_locked (h : 8 ≤ s.flash.pwFails) : s.cfPassword pw = (s, some .passwordLocked) := if_pos h

variable (h : s.flash.pwFails < 8)
include h

theorem cfPassword_unset (hset : s.params.pwSet = false) : s.cfPassword pw = (s, none) := by
  rw [State.cfPassword, if_neg (Nat.not_le.mpr h), hset]
  rfl

theorem cfPassword_passes (hset : s.params.pwSet = true) (hpw : passwordDigest pw = s.params.pwDigest) : s.cfPassword pw = (s.counter 0x14, none) := by
  rw [State.cfPassword, if_neg (Nat.not_le.mpr h), hset, if_neg (by decide), if_pos hpw]

theorem cfPassword_fails (hset : s.params.pwSet = true) (hpw : passwordDigest pw ≠ s.params.pwDigest) :
    s.cfPassword pw = (s.counter 0x13, some .notPermitted) := by
  rw [State.cfPassword, if_neg (Nat.not_le.mpr h), hset, if_neg (by decide), if_neg hpw]

end Password

/-- CF_PROT_SET or CF_PW_SET with a password, and the parameter set that it asks for. -/
def asksProtection (i : Instr) (s : State) (c : Ctx) (op : Nat) (pw : Bytes) (new : ParamSet) : Prop :=
  (∃ (m : Bytes) (w : Word), i = .cfProtSet c (m ++ (beBytes 4 w.toNat ++ pw)) ∧ op = 0x0708 ∧ m.length = 64 ∧
      new = { s.params with protMain := m, protParam := w }) ∨
    (∃ nw : Bytes, i = .cfPwSet c (pw ++ nw) ∧ op = 0x0709 ∧ nw.length = 16 ∧
      new = { s.params with pwSet := !allZero nw, pwDigest := if allZero nw then List.replicate 32 0 else passwordDigest nw })

section Protection

variable {i : Instr} {s : State} {c : Ctx} {op : Nat} {pw : Bytes} {new : ParamSet} (h : s.flashServes c op) (hop : s.flash.op = none) (hq : s.flash.queue = [])
  (hsusp : s.flash.susp = none) (hpw : pw.length = 16) (hasks : asksProtection i s c op pw new)
include h hop hq hsusp hpw hasks

/-- Both commands check their password and then begin their update. -/
theorem asksProtection_run {r : State} (hrefused : ∀ q st, s.cfPassword pw = (q, some st) → r = q.cfDone (some c) op st [])
    (hbegins : ∀ q, s.cfPassword pw = (q, none) → r = q.beginParam (some c) op new) : exec i s = .next r := by
  have key : ∀ pl : Bytes, (s.cfProtectRun c op pl = match (s.cfPassword pw).2 with
      | some st => (s.cfPassword pw).1.cfDone (some c) op st []
      | none => (s.cfPassword pw).1.beginParam (some c) op new) → s.cfProtectRun c op pl = r := by
    intro pl hpl
    rw [hpl]
    cases hword : s.cfPassword pw with
    | mk q st =>
      cases st with
      | some st => exact (hrefused q st hword).symm
      | none => exact (hbegins q hword).symm
  rcases hasks with ⟨m, w, rfl, rfl, hm, rfl⟩ | ⟨nw, rfl, rfl, hnw, rfl⟩
  · obtain ⟨hlength, hmain, hparam, hword⟩ := protPayload m pw w.toNat hm hpw
    refine (cfFrame_idle h hq hop).trans (congrArg Host.Outcome.next (key _ (protect_run s c 0x0708 pw _ _ hsusp hlength hword fun q => ?_)))
    rw [if_pos rfl, hmain, hparam, Nat.mod_eq_of_lt w.isLt, BitVec.ofNat_toNat, BitVec.setWidth_eq]
  · obtain ⟨hlength, hword, hnew⟩ := pwPayload pw nw hpw hnw
    refine (cfFrame_idle h hq hop).trans (congrArg Host.Outcome.next (key _ (protect_run s c 0x0709 pw _ _ hsusp hlength hword fun q => ?_)))
    rw [if_neg (by decide), hnew]

theorem asksProtection_refused {q : State} {st : Status} (hword : s.cfPassword pw = (q, some st)) : exec i s = .next (q.cfDone (some c) op st []) :=
  asksProtection_run h hop hq hsusp hpw hasks (fun q' st' h' => by cases hword.symm.trans h'; rfl) (fun q' h' => nomatch hword.symm.trans h')

theorem asksProtection_begins {q : State} (hword : s.cfPassword pw = (q, none)) : exec i s = .next (q.beginParam (some c) op new) :=
  asksProtection_run h hop hq hsusp hpw hasks (fun q' st' h' => nomatch hword.symm.trans h') (fun q' h' => by cases hword.symm.trans h'; rfl)

end Protection

/-! ## CF_BOOT_SWAP (R350) -/

/-- The payload of a CF_BOOT_SWAP. -/
def swapPayload (raise : Bool) : Bytes := [if raise then 1#8 else 0#8, 0#8, 0#8, 0#8]

theorem swapPayload_raises (raise : Bool) : beAt (swapPayload raise) 0 1 % 2 = if raise then 1 else 0 := by
  cases raise <;> rfl

section Swap

variable {s : State} {c : Ctx} {raise : Bool} (h : s.flashServes c 0x070C) (hop : s.flash.op = none) (hq : s.flash.queue = []) (hsusp : s.flash.susp = none)
include h hop hq hsusp

theorem cfBootSwap_begins (hgood : s.twinGood (1 - s.params.bootActive) = true)
    (hfloor : s.params.floor ≤ imageVersion (s.twinImage (1 - s.params.bootActive))) :
    exec (.cfBootSwap c (swapPayload raise)) s = .next ((s.cfDone (some c) 0x070C .pending []).beginParam (some c) 0x070C
      { s.params with bootActive := 1 - s.params.bootActive,
                      floor := if raise = true then imageVersion (s.twinImage (1 - s.params.bootActive)) else s.params.floor }) := by
  have hraise : (beAt (swapPayload raise) 0 1 % 2 = 1) = (raise = true) := by
    rw [swapPayload_raises]
    cases raise <;> simp
  refine (cfFrame_idle h hq hop).trans (congrArg Host.Outcome.next ?_)
  show s.cfSwapRun c (swapPayload raise) = _
  unfold State.cfSwapRun
  dsimp only
  rw [hsusp, hgood, if_neg (show ¬ ((swapPayload raise).length != 4) = true from Bool.false_ne_true), if_neg (by decide), if_neg (by decide),
    if_neg (Nat.not_lt.mpr hfloor)]
  simp only [hraise]

theorem cfBootSwap_invalid (hbad : s.twinGood (1 - s.params.bootActive) = false) :
    exec (.cfBootSwap c (swapPayload raise)) s =
      .next (((s.cfDone (some c) 0x070C .pending []).bump .kpr 0 0x04 1).cfDone (some c) 0x070C .signatureInvalid []) := by
  refine (cfFrame_idle h hq hop).trans (congrArg Host.Outcome.next ?_)
  show s.cfSwapRun c (swapPayload raise) = _
  unfold State.cfSwapRun
  dsimp only
  rw [hsusp, hbad, if_neg (show ¬ ((swapPayload raise).length != 4) = true from Bool.false_ne_true), if_neg (by decide), if_pos (by decide)]

end Swap

/-! ## CF_PW_RESET (R412) -/

/-- The message of a CF_PW_RESET. -/
def resetToken (n : Nat) : Bytes := beBytes 4 0x50575253 ++ ([0#8, 0#8, 0#8, 0#8] ++ (Config.sm3 Config.identityKey ++ beBytes 8 n))

theorem resetToken_length {n : Nat} (hid : (Config.sm3 Config.identityKey).length = 32) : (resetToken n).length = 48 := by
  simp only [resetToken, List.length_append, beBytes_length, hid, List.length_cons, List.length_nil]

/-- The parts of a CF_PW_RESET. -/
theorem resetToken_parts {n : Nat} {sig : Bytes} (hid : (Config.sm3 Config.identityKey).length = 32) (hn : n < 2 ^ 64) (hsig : sig.length = 64) :
    (resetToken n ++ sig).length = 112 ∧ beAt (resetToken n ++ sig) 0 4 = 0x50575253 ∧ beAt (resetToken n ++ sig) 4 4 = 0 ∧
      slice (resetToken n ++ sig) 8 32 = Config.sm3 Config.identityKey ∧ beAt (resetToken n ++ sig) 40 8 = n ∧
      (resetToken n ++ sig).take 48 = resetToken n ∧ (resetToken n ++ sig).drop 48 = sig := by
  have hlength := resetToken_length (n := n) hid
  have hflat : resetToken n ++ sig =
      beBytes 4 0x50575253 ++ ([0#8, 0#8, 0#8, 0#8] ++ (Config.sm3 Config.identityKey ++ (beBytes 8 n ++ sig))) := by
    simp only [resetToken, List.append_assoc]
  refine ⟨by rw [List.length_append, hlength, hsig], ?_, ?_, ?_, ?_, List.take_left' hlength, List.drop_left' hlength⟩
  · rw [hflat, beAt_first]
    norm_num
  · rw [hflat, beAt_skip _ _ 4 4 4 (beBytes_length _ _) (Nat.le_refl _)]
    rfl
  · rw [hflat, slice_skip _ _ 8 32 4 (beBytes_length _ _) (by decide), slice_skip _ _ 4 32 4 rfl (by decide)]
    exact slice_front _ _ 32 hid
  · rw [hflat, beAt_skip _ _ 40 8 4 (beBytes_length _ _) (by decide), beAt_skip _ _ 36 8 4 rfl (by decide), beAt_skip _ _ 32 8 32 hid (by decide), beAt_first,
      Nat.mod_eq_of_lt (by omega)]

section Reset

variable {s : State} {c : Ctx} {n : Nat} {key sig : Bytes} (hlast : s.keeper.lastCommand = none) (hkey : s.keeper.ownerKey = some key)
  (hid : (Config.sm3 Config.identityKey).length = 32) (hn : n < 2 ^ 64) (hsig : sig.length = 64)
include hkey hid hn hsig

/-- The answer of a token that does not act. -/
def State.tokenRefused (s : State) (c : Ctx) : State := (s.bump .kpr 0 0x04 1).cfDone (some c) 0x070E .signatureInvalid (beBytes 8 s.keeper.commandMark)

theorem cfPwResetRun_forged (hbad : Config.sm2Verify key (resetToken n) sig = false) : s.cfPwResetRun c (resetToken n ++ sig) = s.tokenRefused c := by
  obtain ⟨hlength, hmagic, hzero, hdigest, -, htake, hdrop⟩ := resetToken_parts hid hn hsig
  unfold State.cfPwResetRun
  dsimp only
  rw [hlength, hmagic, hzero, hdigest, htake, hdrop, hkey, Option.any_some, hbad, if_neg (by decide), if_pos (by rw [Bool.not_false, Bool.or_true])]
  rfl

include hlast in
theorem cfPwResetRun_signed (hgood : Config.sm2Verify key (resetToken n) sig = true) :
    s.cfPwResetRun c (resetToken n ++ sig) = State.cfPwResetRun.go s c (s.tokenRefused c) n := by
  obtain ⟨hlength, hmagic, hzero, hdigest, hcount, htake, hdrop⟩ := resetToken_parts hid hn hsig
  unfold State.cfPwResetRun
  dsimp only
  rw [hlength, hmagic, hzero, hdigest, hcount, htake, hdrop, hkey, hlast, Option.any_some, hgood, if_neg (by decide), if_neg (by simp)]
  rfl

end Reset

/-- The mark raised to a token's counter. -/
def Keeper.tokenTaken (k : Keeper) (c : Ctx) (n : Nat) : Keeper := { k with commandMark := n, lastCommand := some (n, replyFrame c 0x070E .ok 0 []) }

/-- A token's reset begun: the mark raised, the failures cleared, the update without a password begun. -/
def State.tokenReset (s : State) (c : Ctx) (n : Nat) : State :=
  ((s.setKeeper (s.keeper.tokenTaken c n)).counter 0x14).beginParam (some c) 0x070E { s.params with pwSet := false, pwDigest := List.replicate 32 0 }

theorem tokenActs {s no : State} {c : Ctx} {n : Nat} (hmark : s.keeper.commandMark < n) (hsusp : s.flash.susp = none) :
    State.cfPwResetRun.go s c no n = s.tokenReset c n := by
  rw [State.cfPwResetRun.go, if_neg (Nat.not_le.mpr hmark), hsusp]
  rfl

theorem tokenReset_spec (s : State) (c : Ctx) (n : Nat) :
    (s.tokenReset c n).flash.op = some (.erase (paramSector (1 - s.params.copy)) (.param (some c) 0x070E
      { s.params with pwSet := false, pwDigest := List.replicate 32 0, copy := 1 - s.params.copy, seq := s.params.seq + 1 })) ∧
    (s.tokenReset c n).flash.pwFails = 0 ∧ (s.tokenReset c n).keeper = s.keeper.tokenTaken c n := by
  obtain ⟨-, hcounted, -, hfails⟩ := counter_keeps (s.setKeeper (s.keeper.tokenTaken c n)) 0x14
  obtain ⟨-, -, hbegun⟩ := beginParam_spec ((s.setKeeper (s.keeper.tokenTaken c n)).counter 0x14) (some c) 0x070E
    { s.params with pwSet := false, pwDigest := List.replicate 32 0 }
  obtain ⟨hframe, -⟩ := flashOnly_trans hcounted hbegun
  have hkeeper := congrArg State.keeper hframe
  exact ⟨beginParam_op (params_congr (counter_params (s.setKeeper (s.keeper.tokenTaken c n)) 0x14)) _ _ _, (beginParam_pwFails _ _ _ _).trans hfails, hkeeper⟩

/-- Settles O31: both protection commands from what `cfPassword` answers, the others from their checks in order. -/
theorem flashProtection : Obligations.FlashProtection := by
  unfold Obligations.FlashProtection
  refine ⟨?protection, ?updated, ?swap, ?start, ?reset⟩
  case protection =>
    intro s c i op pw new h hop hq hsusp hpw hasks
    refine ⟨fun hlocked => ?_, fun hopen hset hwrong => ?_, fun hopen hpass => ?_⟩
    · exact flashAnswered_done (by decide) rfl (asksProtection_refused h hop hq hsusp hpw hasks (cfPassword_locked hlocked))
    · obtain ⟨-, ⟨hframe, -⟩, -, hfails⟩ := counter_keeps s 0x13
      exact flashAnswered_done (by decide) ⟨hfails.trans (if_pos rfl), (counter_op s 0x13).trans hop, hframe⟩
        (asksProtection_refused h hop hq hsusp hpw hasks (cfPassword_fails hopen hset hwrong))
    · cases hset : s.params.pwSet with
      | false =>
        obtain ⟨-, -, hframe, -⟩ := beginParam_spec s (some c) op new
        exact completes_of (asksProtection_begins h hop hq hsusp hpw hasks (cfPassword_unset hopen hset)) ⟨beginParam_op rfl _ _ _, fun hno => absurd hno Bool.false_ne_true, hframe⟩
      | true =>
        have hmatch := hpass.resolve_left fun hno => nomatch hset.symm.trans hno
        obtain ⟨-, hcounted, -, hfails⟩ := counter_keeps s 0x14
        obtain ⟨-, -, hbegun⟩ := beginParam_spec (s.counter 0x14) (some c) op new
        obtain ⟨hframe, -⟩ := flashOnly_trans hcounted hbegun
        exact completes_of (asksProtection_begins h hop hq hsusp hpw hasks (cfPassword_passes hopen hset hmatch))
          ⟨beginParam_op (params_congr (counter_params s 0x14)) _ _ _, fun _ => (beginParam_pwFails _ _ _ _).trans hfails, hframe⟩
  case updated =>
    intro s c op new hop hq hwait hgo
    refine flashAnswered_done (by decide) ?_ (cfProgramComplete_param hq hwait hgo hop)
    exact ⟨rfl, written_reads _ _ _ _⟩
  case swap =>
    intro s c raise h hop hq hsusp
    obtain ⟨hflash, hmem, -⟩ := cfDone_keeps s c 0x070C .pending []
    refine ⟨fun hgood hfloor => ?_, fun hbad => ?_⟩
    · exact completes_of (cfBootSwap_begins h hop hq hsusp hgood hfloor) (beginParam_op (params_congr (congrArg Flash.params hflash)) _ _ _)
    · exact flashAnswered_done (u := (s.cfDone (some c) 0x070C .pending []).bump .kpr 0 0x04 1) (by decide) ⟨hflash, hmem⟩
        (cfBootSwap_invalid (raise := raise) h hop hq hsusp hbad)
  case start =>
    intro s c h hq
    obtain ⟨-, ⟨hframe, -⟩, hstarts, hfails⟩ := counter_keeps s 0x12
    exact flashAnswered_done (by decide) ⟨hstarts, hfails, counter_params s 0x12, hframe⟩ (cfFrame_quick h hq rfl)
  case reset =>
    intro s c n key sig h hop hq hsusp hlast hkey hsig hn msg hid
    obtain ⟨token, htoken⟩ : ∃ token, token = resetToken n := ⟨_, rfl⟩
    have hmsg : msg = token := htoken.symm
    clear_value msg
    subst hmsg htoken
    have hrun : exec (.cfPwReset c (resetToken n ++ sig)) s = .next (s.cfPwResetRun c (resetToken n ++ sig)) := cfFrame_idle h hq hop
    refine ⟨fun hgood hmark => ?_, fun hno => ?_⟩
    · rw [cfPwResetRun_signed hlast hkey hid hn hsig hgood, tokenActs hmark hsusp] at hrun
      obtain ⟨hop', hfails, hkeeper⟩ := tokenReset_spec s c n
      exact completes_of hrun ⟨hop', hfails, congrArg Keeper.commandMark hkeeper⟩
    · cases hgood : Config.sm2Verify key (resetToken n) sig with
      | false =>
        rw [cfPwResetRun_forged hkey hid hn hsig hgood] at hrun
        exact flashAnswered_done (by decide) rfl hrun
      | true =>
        have hmark := hno.resolve_left fun hbad => nomatch hgood.symm.trans hbad
        rw [cfPwResetRun_signed hlast hkey hid hn hsig hgood, State.cfPwResetRun.go, if_pos hmark] at hrun
        exact flashAnswered_done (by decide) rfl hrun

end Sys2Proof.Machine
end

section
/-!
PROOFS. The states of a Veolo link.
-/
namespace Sys2Proof.Machine

open Sys2Proof

/-- A command whose condition holds gives the state that it leads to. -/
theorem require_next {b : Bool} {why : String} {t : State} (h : b = true) : require b why (.next t) = .next t := if_pos h

/-! ## Links that go DOWN (R280, R284) -/

/-- A link that goes DOWN, with what it keeps of its peer. -/
theorem linkDown_falls (s : State) (i : Nat) :
    ((s.linkDown i).link i).st = .down ∧ ((s.linkDown i).link i).replay = [] ∧ ((s.linkDown i).link i).txSeq = 0 ∧ ((s.linkDown i).link i).rxSeq = 0 ∧
      ((s.linkDown i).link i).peer = (s.link i).peer ∧ (∀ j, j ≠ i → ((s.linkDown i).link j).st = (s.link j).st) ∧ (s.linkDown i).setVeolo s.veolo = s := by
  obtain ⟨hst, hreplay, htx, hrx, hothers, hframe⟩ := linkDown_spec s i
  obtain ⟨hself, -⟩ := linkChange_spec s i (·.fallen .down)
  obtain ⟨-, -, -, -, hpeer, -⟩ := keepsLink_get hself (fun h => nomatch h) (fun h => nomatch h)
  exact ⟨hst, hreplay, htx, hrx, hpeer, hothers, hframe⟩

section Down

variable {s : State} {i : Nat} (hi : i < 8)
include hi

theorem linkLossOfSignal_falls (h : (s.link i).st ≠ .disabled) : exec (.linkLossOfSignal i) s = .next (s.linkDown i) := by
  refine (require_next (decide_eq_true hi)).trans (congrArg Host.Outcome.next (if_neg ?_))
  rw [beq_iff_eq]
  exact h

theorem linkLossOfSignal_disabled (h : (s.link i).st = .disabled) : exec (.linkLossOfSignal i) s = .next s :=
  (require_next (decide_eq_true hi)).trans (congrArg Host.Outcome.next (if_pos (beq_iff_eq.mpr h)))

theorem trainTimeout_falls (h : (s.link i).st = .train) : exec (.trainTimeout i) s = .next (s.linkDown i) :=
  require_next (linkIn_of hi h rfl)

theorem fastRetrainTimeout_falls (h : (s.link i).st = .fastRetrain) : exec (.fastRetrainTimeout i) s = .next (s.linkDown i) :=
  require_next (linkIn_of hi h rfl)

/-! ## Hails (R280, R281, R288) -/

theorem linkSignalDetect_run (h : (s.link i).st = .down) (hrun : s.portsRun = true) : exec (.linkSignalDetect i) s =
    .next (if s.veolo.numValid && (s.expected (i / 2)).isNone then s else s.putLink i { s.link i with st := .hail, equalHails := 0 }) :=
  require_next (by rw [linkIn_of hi h rfl, hrun]; rfl)

theorem hail_equal {n : Nat} (h : (s.link i).st = .hail) (hrank : s.rank < 8192) (hn : (s.link i).equalHails + 1 = n) : exec (.hail i s.rank) s =
    if n < 8 then .next (s.putLink i { s.link i with equalHails := n })
    else .next ((s.putLink i { s.link i with equalHails := n, st := .duplicate }).devEvent .notPermitted 0 0 i) := by
  subst hn
  show execHail i s.rank s = _
  rw [execHail, linkIn_of hi h rfl, decide_eq_true hrank, if_pos rfl]
  rfl

theorem hail_other {r : Nat} (h : (s.link i).st = .hail) (hr : r < 8192) (hne : r ≠ s.rank) : exec (.hail i r) s =
    .next ((s.modLink i (fun l => { l with peer := r % 4096, peerValid := decide (r < 4096) })).linkTrains i .train) := by
  show execHail i r s = _
  rw [execHail, linkIn_of hi h rfl, decide_eq_true hr, if_neg hne]
  rfl

theorem hailTimeout_backs_off (h : (s.link i).st = .hail) :
    exec (.hailTimeout i) s = .next (s.putLink i { s.link i with st := .backoff, draws := (s.link i).draws + 1 }) :=
  require_next (linkIn_of hi h rfl)

theorem backoffExpiry_hails (h : (s.link i).st = .backoff) :
    exec (.backoffExpiry i) s = .next (s.putLink i { s.link i with st := .hail, equalHails := 0 }) :=
  require_next (linkIn_of hi h rfl)

end Down

/-- A hail of another rank: the peer is noted and the link trains. -/
theorem trains_with_peer (s : State) (i peer : Nat) (valid : Bool) :
    let t := (s.modLink i (fun l => { l with peer := peer, peerValid := valid })).linkTrains i .train
    (t.link i).st = .train ∧ (t.link i).peer = peer ∧ (t.link i).peerValid = valid ∧
      (t.reg .vl i 0x14).toNat = min 0xFFFFFFFF ((s.reg .vl i 0x14).toNat + 1) ∧ (∀ j, j ≠ i → (t.link j).st = (s.link j).st) ∧
      (t.setVeolo s.veolo).setRegs s.regs = s := by
  intro t
  obtain ⟨hself, hothers, hframe, hcount⟩ := linkTrains_spec (s.modLink i (fun l => { l with peer := peer, peerValid := valid })) i .train
  rw [modLink_link_self] at hself
  obtain ⟨hst, -, -, -, hpeer, hvalid, -⟩ := keepsLink_get hself (fun h => nomatch h) (fun h => nomatch h)
  refine ⟨hst, hpeer, hvalid, hcount, fun j hj => ?_, congrArg (fun u : State => u.setVeolo s.veolo) hframe⟩
  exact (hothers j hj).1.trans (congrArg Link.st (modLink_link_ne s _ hj))

/-! ## A training that completes (R279, R282, R288) -/

/-- A link as a completed training leaves it. -/
def Link.trained (l : Link) (allowG7 : Bool) (p : PeerInfo) (st : LState) : Link :=
  { l with st := st, g7 := p.g7 && !p.pb5 && allowG7, pb5 := p.pb5, peer := p.num % 4096, peerValid := p.valid, peerLink := p.link % 8, peerAligned := p.aligned }

/-- What training sets of a link and what is sent on it does not change. -/
def Link.terms (l : Link) : LState × Bool × Bool × Nat × Bool × Nat × Bool := (l.st, l.g7, l.pb5, l.peer, l.peerValid, l.peerLink, l.peerAligned)

/-- The state that a completed training gives its link. -/
def State.trainedState (s : State) (i : Nat) (p : PeerInfo) : LState := if s.wiredRight i p then .up else .miswired

/-- The state once a link has trained, its neighbour has been judged and the master elected. -/
def State.trained (s : State) (i : Nat) (p : PeerInfo) : State :=
  ((s.modLink i (fun l => l.trained ((s.reg .vl i 0).bit 29) p (s.trainedState i p))).refreshNbr (i / 2)).electMaster

theorem trainComplete_run {s : State} {i : Nat} {p : PeerInfo} (hi : i < 8) (h : (s.link i).st = .train) : exec (.trainComplete i p) s =
    .next (if s.wiredRight i p then s.trained i p else (s.trained i p).devEvent .notPermitted 0 i (p.num % 4096)) :=
  require_next (linkIn_of hi h rfl)

theorem trained_terms (s : State) (i : Nat) (p : PeerInfo) :
    ((s.trained i p).link i).terms = ((s.link i).trained ((s.reg .vl i 0).bit 29) p (s.trainedState i p)).terms := by
  rw [State.trained, electMaster_link, refreshNbr_fn Link.terms (fun _ _ _ _ _ _ _ _ => rfl), modLink_link_self]

theorem trained_others (s : State) (i : Nat) (p : PeerInfo) : (∀ j, j ≠ i → ((s.trained i p).link j).st = (s.link j).st) ∧ (s.trained i p).setVeolo s.veolo = s := by
  obtain ⟨-, hothers, hframe⟩ := linkChange_spec s i (fun l => l.trained ((s.reg .vl i 0).bit 29) p (s.trainedState i p))
  exact ⟨fun j hj => (hothers j hj).1, hframe⟩

theorem trained_nbr {s : State} {i : Nat} (p : PeerInfo) (hi : i < 8) (hlength : s.veolo.nbrs.length = 4) :
    (s.trained i p).veolo.nbrs.getD (i / 2) .absent =
      (s.modLink i (fun l => l.trained ((s.reg .vl i 0).bit 29) p (s.trainedState i p))).judgeNbr (i / 2) := by
  rw [State.trained, electMaster_nbrs, refreshNbr_nbrs, List.getD_eq_getElem?_getD, List.getElem?_set_self]
  · rfl
  · show i / 2 < s.veolo.nbrs.length
    omega

theorem judgeNbr_miswired {s : State} {i : Nat} (h : (s.link i).st = .miswired) : s.judgeNbr (i / 2) = .miswired := by
  unfold State.judgeNbr
  dsimp only
  refine if_pos ?_
  rw [Bool.or_eq_true, beq_iff_eq, beq_iff_eq]
  rcases Nat.mod_two_eq_zero_or_one i with heven | hodd
  · left
    rwa [show 2 * (i / 2) = i by omega]
  · right
    rwa [show 2 * (i / 2) + 1 = i by omega]

/-- A neighbour with one link UP, whose number is valid. -/
theorem judgeNbr_one {s : State} {i : Nat} (hup : (s.link i).st = .up) (hother : ∀ j, j / 2 = i / 2 → j ≠ i → (s.link j).st ≠ .up ∧ (s.link j).st ≠ .miswired)
    (hvalid : (s.link i).peerValid = true) (hnum : s.veolo.numValid = true) :
    s.judgeNbr (i / 2) = if (s.link i).peerAligned then .degraded else .joining := by
  have key : ∀ k, k / 2 = i / 2 → k ≠ i → ((s.link k).st == .up) = false ∧ ((s.link k).st == .miswired) = false := fun k hk hne =>
    ⟨beq_eq_false_iff_ne.mpr (hother k hk hne).1, beq_eq_false_iff_ne.mpr (hother k hk hne).2⟩
  have hself : ((s.link i).st == .up) = true ∧ ((s.link i).st == .miswired) = false := by
    rw [hup]
    exact ⟨rfl, rfl⟩
  rcases Nat.mod_two_eq_zero_or_one i with heven | hodd
  · have ha : 2 * (i / 2) = i := by omega
    obtain ⟨hbup, hbwired⟩ := key (i + 1) (by omega) (by omega)
    simp only [State.judgeNbr, State.upCount, ha, hself, hbup, hbwired, List.filter_cons, List.filter_nil, hvalid, hnum, if_true, Bool.false_eq_true, if_false,
      Bool.or_self, Bool.not_true]
    cases (s.link i).peerAligned <;> rfl
  · have hb : 2 * (i / 2) + 1 = i := by omega
    obtain ⟨haup, hawired⟩ := key (2 * (i / 2)) (by omega) (by omega)
    simp only [State.judgeNbr, State.upCount, hb, hself, haup, hawired, List.filter_cons, List.filter_nil, hvalid, hnum, if_true, Bool.false_eq_true, if_false,
      Bool.or_self, Bool.not_true]
    cases (s.link i).peerAligned <;> rfl

/-! ## Fast retraining (R284) -/

theorem fastRetrain_run {s : State} {i : Nat} (hi : i < 8) (h : (s.link i).st = .up) : exec (.fastRetrain i) s = .next (s.linkTrains i .fastRetrain) :=
  require_next (linkIn_of hi h rfl)

theorem fastRetrain_keeps (s : State) (i : Nat) :
    ((s.linkTrains i .fastRetrain).link i).st = .fastRetrain ∧ ((s.linkTrains i .fastRetrain).link i).replay = (s.link i).replay ∧
      ((s.linkTrains i .fastRetrain).link i).txSeq = (s.link i).txSeq ∧ ((s.linkTrains i .fastRetrain).link i).rxSeq = (s.link i).rxSeq ∧
      ((s.linkTrains i .fastRetrain).reg .vl i 0x14).toNat = min 0xFFFFFFFF ((s.reg .vl i 0x14).toNat + 1) ∧
      (∀ j, j ≠ i → ((s.linkTrains i .fastRetrain).link j).st = (s.link j).st) ∧ ((s.linkTrains i .fastRetrain).setVeolo s.veolo).setRegs s.regs = s := by
  obtain ⟨hself, hothers, hframe, hcount⟩ := linkTrains_spec s i .fastRetrain
  obtain ⟨hst, hreplay, htx, hrx, -⟩ := keepsLink_get hself (fun h => nomatch h) (fun h => nomatch h)
  exact ⟨hst, hreplay, htx, hrx, hcount, fun j hj => (hothers j hj).1, hframe⟩

/-- A link that is UP again after a fast retraining. -/
def Link.resumed (l : Link) : Link := { l with st := .up, resends := if l.replay.isEmpty then 0 else 1 }

theorem fastRetrainComplete_run {s : State} {i : Nat} (hi : i < 8) (h : (s.link i).st = .fastRetrain) :
    exec (.fastRetrainComplete i) s = .next ((s.modLink i Link.resumed).refreshNbr (i / 2)) :=
  require_next (linkIn_of hi h rfl)

theorem resumed_keeps (s : State) (i : Nat) :
    let t := (s.modLink i Link.resumed).refreshNbr (i / 2)
    (t.link i).st = .up ∧ (s.link i).replay <+: (t.link i).replay ∧ (t.link i).rxSeq = (s.link i).rxSeq ∧ (∀ j, j ≠ i → (t.link j).st = (s.link j).st) ∧
      t.setVeolo s.veolo = s := by
  intro t
  have hself := modLink_link_self s i Link.resumed
  obtain ⟨hst, -⟩ := refreshNbr_link (s.modLink i Link.resumed) (i / 2) i
  have hreplay := refreshNbr_replay (s.modLink i Link.resumed) (i / 2) i
  have hrx := refreshNbr_fn Link.rxSeq (fun _ _ _ _ _ _ _ _ => rfl) (s.modLink i Link.resumed) (i / 2) i
  rw [hself] at hst hreplay hrx
  refine ⟨hst, hreplay, hrx, fun j hj => ?_, veolo_trans (putLink_frame _ _ _) (refreshNbr_frame _ _)⟩
  obtain ⟨hother, -⟩ := refreshNbr_link (s.modLink i Link.resumed) (i / 2) j
  rw [modLink_link_ne s _ hj] at hother
  exact hother

/-- Settles O41: each event by the one change of a link that it makes, and what judging the neighbour and sending keep of every link. -/
theorem linksTrain : Obligations.LinksTrain := by
  unfold Obligations.LinksTrain
  refine ⟨?down, fun s i hi h => linkLossOfSignal_disabled hi h, ?signal, ?hails, fun s i hi h => backoffExpiry_hails hi h, ?trained, ?retrains, ?resumes⟩
  case down =>
    rintro s i c hi (⟨rfl, h⟩ | ⟨rfl, h⟩ | ⟨rfl, h⟩)
    · exact completes_of (linkLossOfSignal_falls hi h) (linkDown_falls s i)
    · exact completes_of (trainTimeout_falls hi h) (linkDown_falls s i)
    · exact completes_of (fastRetrainTimeout_falls hi h) (linkDown_falls s i)
  case signal =>
    intro s i hi h hrun
    have hall := linkSignalDetect_run hi h hrun
    refine ⟨fun hnum hnone => ?_, fun hsome => ?_⟩
    · rw [hall, hnum, hnone]
      rfl
    · refine hall.trans (congrArg Host.Outcome.next (if_neg ?_))
      rw [Bool.and_eq_true, Option.isNone_iff_eq_none]
      rintro ⟨hnum, hnone⟩
      exact hsome.elim (fun hno => nomatch hnum.symm.trans hno) fun hne => hne hnone
  case hails =>
    intro s i hi h
    exact ⟨fun hrank hn => (hail_equal hi h hrank rfl).trans (if_pos hn), fun hrank hn => (hail_equal hi h hrank rfl).trans (if_neg (Nat.not_lt.mpr hn)),
      fun r hr hne => completes_of (hail_other hi h hr hne) (trains_with_peer s i (r % 4096) (decide (r < 4096))), hailTimeout_backs_off hi h⟩
  case trained =>
    intro s i p hi h hlength
    have hrun := trainComplete_run (p := p) hi h
    obtain ⟨hothers, hframe⟩ := trained_others s i p
    have hterms := trained_terms s i p
    have hnbr := trained_nbr p hi hlength
    have hself := modLink_link_self s i (fun l => l.trained ((s.reg .vl i 0).bit 29) p (s.trainedState i p))
    simp only [Link.terms, Prod.mk.injEq] at hterms
    obtain ⟨hst, hg7, hpb5, hpeer, hvalid, hlink, haligned⟩ := hterms
    have hparts := congrArg State.parts hframe
    have hmem := congrArg State.mem hframe
    cases hright : s.wiredRight i p with
    | true =>
      rw [hright, if_pos rfl] at hrun
      have hup : s.trainedState i p = .up := if_pos hright
      refine completes_of hrun ⟨hst.trans hup, hpeer, hvalid, hlink, haligned, hg7, hpb5, hothers, hparts, hmem, fun _ => hframe, fun hno => absurd hno.symm Bool.false_ne_true,
        fun _ hnum hp hother => hnbr.trans ?_⟩
      refine (judgeNbr_one (s := s.modLink i (fun l => l.trained ((s.reg .vl i 0).bit 29) p (s.trainedState i p))) (i := i) ?_ (fun j hj hne => ?_) ?_ hnum).trans ?_
      · rw [hself]; exact hup
      · rw [modLink_link_ne s _ hne]; exact hother j hj hne
      · rw [hself]; exact hp
      · rw [hself]; rfl
    | false =>
      rw [hright, if_neg Bool.false_ne_true] at hrun
      have hwrong : s.trainedState i p = .miswired := if_neg (Bool.eq_false_iff.mp hright)
      have hev := devEvent_ev (s.trained i p) .notPermitted 0 i (p.num % 4096)
      have hveolo := ev_field State.veolo (fun _ _ _ => rfl) hev
      have hsame : ∀ j, ((s.trained i p).devEvent .notPermitted 0 i (p.num % 4096)).link j = (s.trained i p).link j := fun j =>
        congrArg (fun v : Veolo => NMap.get Link.start v.links j) hveolo
      refine completes_of hrun ?_
      rw [hsame, hveolo]
      refine ⟨hst.trans hwrong, hpeer, hvalid, hlink, haligned, hg7, hpb5, fun j hj => (congrArg Link.st (hsame j)).trans (hothers j hj),
        (ev_field State.parts (fun _ _ _ => rfl) hev).trans hparts, (ev_field State.mem (fun _ _ _ => rfl) hev).trans hmem, fun hno => absurd hno Bool.false_ne_true,
        fun _ => hnbr.trans (judgeNbr_miswired ?_), fun hno => absurd hno Bool.false_ne_true⟩
      rw [hself]; exact hwrong
  case retrains => exact fun s i hi h => completes_of (fastRetrain_run hi h) (fastRetrain_keeps s i)
  case resumes => exact fun s i hi h => completes_of (fastRetrainComplete_run hi h) (resumed_keeps s i)

end Sys2Proof.Machine
end

section
/-!
PROOFS. Flits, replay and credits of a Veolo link, and the notices of neighbours.
-/
namespace Sys2Proof.Machine

open Sys2Proof

/-! ## Nothing but the fabric's state and the registers has changed -/

theorem fabricOnly_trans {a b c : State} (h1 : (b.setVeolo a.veolo).setRegs a.regs = a) (h2 : (c.setVeolo b.veolo).setRegs b.regs = b) :
    (c.setVeolo a.veolo).setRegs a.regs = a := by
  have hall : (((c.setVeolo b.veolo).setRegs b.regs).setVeolo a.veolo).setRegs a.regs = a := by rw [h2]; exact h1
  exact hall

theorem fabricOnly_of {a b : State} (h : b.setVeolo a.veolo = a) : (b.setVeolo a.veolo).setRegs a.regs = a := by
  rw [h]
  rfl

theorem bump_fabricOnly (s : State) (b : Blk) (k off n : Nat) : ((s.bump b k off n).setVeolo s.veolo).setRegs s.regs = s := rfl

theorem modLink_fabricOnly (s : State) (i : Nat) (f : Link → Link) : ((s.modLink i f).setVeolo s.veolo).setRegs s.regs = s :=
  fabricOnly_of (putLink_frame s i _)

/-! ## Flits (R283, R285, R287) -/

/-- A flit that the fabric can bring to a link that carries traffic. -/
def flitArrives (s : State) (i : Nat) (f : Flit) : Prop :=
  i < 8 ∧ ((s.link i).st = .up ∨ (s.link i).st = .miswired) ∧ f.seq < 4096 ∧ 1 ≤ f.len ∧ f.len ≤ 240 ∧ f.payload.length ≤ 240 ∧ f.part < 128

/-- What a flit acknowledges has left the replay buffer. -/
def State.ackedBy (s : State) (i : Nat) (f : Flit) : State := if f.ackValid then s.modLink i (fun l => l.acked f.ackSeq) else s

/-- The link has taken a data flit in its turn. -/
def State.flitTaken (s : State) (i : Nat) : State := s.modLink i (fun l => { l with rxSeq := (l.rxSeq + 1) % 4096, nakked := false })

section Flits

variable {s : State} {i : Nat} {f : Flit} (h : flitArrives s i f)
include h

theorem flit_can_arrive : (s.linkIn i [.up, .miswired] && decide (f.seq < 4096) && decide (1 ≤ f.len) && decide (f.len ≤ 240) &&
    decide (f.payload.length ≤ 240) && decide (f.part < 128)) = true := by
  obtain ⟨hi, hst, hseq, h1, h240, hpl, hpart⟩ := h
  rw [linkIn_two hi hst, decide_eq_true hseq, decide_eq_true h1, decide_eq_true h240, decide_eq_true hpl, decide_eq_true hpart]
  rfl

theorem flit_corrupt (hcrc : f.crcOk = false) :
    exec (.flit i f []) s = .next ((s.putLink i { s.link i with nakked := true }).bump .vl i 0x10 1) := by
  show execFlit i f [] s = _
  rw [execFlit, flit_can_arrive h, hcrc]
  rfl

variable (hcrc : f.crcOk = true)
include hcrc

theorem flit_outOfTurn (hkind : f.kind = 0) (hseq : f.seq ≠ (s.link i).rxSeq) : exec (.flit i f []) s =
    .next (if (s.link i).nakked then s else (s.putLink i { s.link i with nakked := true }).bump .vl i 0x10 1) := by
  have hturn : (decide (f.kind = 0) && f.seq != (s.link i).rxSeq) = true := by rw [decide_eq_true hkind, bne_iff_ne.mpr hseq]; rfl
  show execFlit i f [] s = _
  rw [execFlit, flit_can_arrive h, hcrc, hturn]
  rfl

theorem flit_control (hkind : f.kind ≠ 0) : exec (.flit i f []) s = .next ((s.ackedBy i f).pumpPair (i / 2)) := by
  have hturn : (decide (f.kind = 0) && f.seq != (s.link i).rxSeq) = false := by rw [decide_eq_false hkind]; rfl
  show execFlit i f [] s = _
  rw [execFlit, flit_can_arrive h, hcrc, hturn]
  exact if_pos hkind

theorem flit_data (hkind : f.kind = 0) (hseq : f.seq = (s.link i).rxSeq) (hack : f.ackValid = false) (hup : (s.link i).st = .up)
    (hnum : s.veolo.numValid = true) :
    exec (.flit i f []) s = .next ((((s.flitTaken i).takeFlit i f).sweepInbox).pumpPair (i / 2)).pumpAll := by
  have hturn : (decide (f.kind = 0) && f.seq != (s.link i).rxSeq) = false := by rw [hseq, bne_self_eq_false, Bool.and_false]
  have hopen : ((s.link i).st == .miswired || !s.veolo.numValid) = false := by rw [hup, hnum]; rfl
  show execFlit i f [] s = _
  rw [execFlit, flit_can_arrive h, hcrc, hturn]
  dsimp only
  rw [hack, hopen]
  exact if_neg (not_not_intro hkind)

end Flits

theorem ackedBy_rxSeq (s : State) (i : Nat) (f : Flit) : ((s.ackedBy i f).link i).rxSeq = (s.link i).rxSeq := by
  rw [State.ackedBy]
  split
  · rw [modLink_link_self, acked_rxSeq]
  · rfl

theorem ackedBy_frame (s : State) (i : Nat) (f : Flit) : (s.ackedBy i f).setVeolo s.veolo = s := by
  rw [State.ackedBy]
  split <;> rfl

/-- A control flit: what it acknowledges leaves the replay buffer, and no more. -/
theorem flit_control_spec (s : State) (i : Nat) (f : Flit) :
    let t := (s.ackedBy i f).pumpPair (i / 2)
    t.setVeolo s.veolo = s ∧ (t.link i).rxSeq = (s.link i).rxSeq ∧
      (∀ k, f.ackValid = true → (s.link i).replay.findIdx? (fun g => g.seq == f.ackSeq) = some k → (s.link i).replay.drop (k + 1) <+: (t.link i).replay) ∧
      (f.ackValid = false → (s.link i).replay <+: (t.link i).replay) := by
  have hreplay := pumpPair_replay (s.ackedBy i f) (i / 2) i
  refine ⟨veolo_trans (ackedBy_frame s i f) (pumpPair_frame _ _),
    (pumpPair_fn Link.rxSeq (fun _ _ _ _ _ _ _ _ => rfl) _ _ _).trans (ackedBy_rxSeq s i f), fun k hack hk => ?_, fun hack => ?_⟩
  · have hleft : ((s.ackedBy i f).link i).replay = (s.link i).replay.drop (k + 1) := by
      rw [State.ackedBy, if_pos hack, modLink_link_self, acked_drop _ _ _ hk]
    rwa [hleft] at hreplay
  · have hsame : s.ackedBy i f = s := if_neg (Bool.eq_false_iff.mp hack)
    rwa [hsame] at hreplay ⊢

/-- What receiving sets of a link and what is sent on it does not change. -/
def Link.received (l : Link) : Nat × Bool × List Flit := (l.rxSeq, l.nakked, l.rxBuf)

theorem flitTaken_link (s : State) (i : Nat) :
    (s.flitTaken i).link i = { s.link i with rxSeq := ((s.link i).rxSeq + 1) % 4096, nakked := false } :=
  modLink_link_self _ _ _

theorem sweepInbox_link (s : State) (j : Nat) : s.sweepInbox.link j = s.link j := rfl

theorem sweepInbox_frame (s : State) : s.sweepInbox.setVeolo s.veolo = s := rfl

/-- What is sent after a flit has been taken leaves what receiving set. -/
theorem pumped_received {s u : State} {i : Nat} {l : Link} (dir : Nat) (hlink : u.link i = l) (hframe : u.setVeolo s.veolo = s) :
    (u.sweepInbox.pumpPair dir).setVeolo s.veolo = s ∧ ((u.sweepInbox.pumpPair dir).link i).received = l.received := by
  refine ⟨veolo_trans (veolo_trans hframe (sweepInbox_frame u)) (pumpPair_frame _ _), ?_⟩
  rw [pumpPair_fn Link.received (fun _ _ _ _ _ _ _ _ => rfl), sweepInbox_link, hlink]

theorem takeFlit_first {s : State} {i : Nat} {f : Flit} (hlast : f.last = false) :
    s.takeFlit i f = s.putLink i { s.link i with rxBuf := (s.link i).rxBuf ++ [f] } := by
  unfold State.takeFlit
  dsimp only
  rw [hlast]
  rfl

/-- A flit that does not end its message is kept until its last one. -/
theorem flit_first_spec {s : State} {i : Nat} {f : Flit} (hlast : f.last = false) :
    let t := (((s.flitTaken i).takeFlit i f).sweepInbox).pumpPair (i / 2)
    t.setVeolo s.veolo = s ∧ (t.link i).rxSeq = ((s.link i).rxSeq + 1) % 4096 ∧ (t.link i).nakked = false ∧ (t.link i).rxBuf = (s.link i).rxBuf ++ [f] := by
  rw [takeFlit_first hlast, flitTaken_link]
  obtain ⟨hframe, hreceived⟩ := pumped_received (s := s) (i / 2)
    (link_putLink_self (s.flitTaken i) i
      { s.link i with rxSeq := ((s.link i).rxSeq + 1) % 4096, nakked := false, rxBuf := (s.link i).rxBuf ++ [f] })
    (veolo_trans (putLink_frame s i _) (putLink_frame _ _ _))
  simp only [Link.received, Prod.mk.injEq] at hreceived
  exact ⟨hframe, hreceived⟩

/-- What a message that has arrived sets of the fabric's state and what is sent does not change. -/
def Veolo.arrived (v : Veolo) : List (Nat × LClass × Nat × Bytes) × List Nat × List (Nat × Nat × LClass × Nat × Bytes) := (v.inbox, v.pairRx, v.early)

/-- A message put into the inbox in its turn: what is swept and sent after it leaves it there. -/
theorem delivered_spec {s u : State} {i n pair : Nat} {rx : List Nat} {box : List (Nat × LClass × Nat × Bytes)} (dir : Nat)
    (hlink : u.link i = { s.link i with rxSeq := n, nakked := false, rxBuf := [] }) (hframe : u.setVeolo s.veolo = s)
    (hkept : box.filter (fun e => e.2.1 != .management) = box) :
    let t := (u.setVeolo { u.veolo with early := [], pairRx := rx.set dir (pair + 1), inbox := box }).sweepInbox.pumpPair dir
    t.setVeolo s.veolo = s ∧ (t.link i).rxSeq = n ∧ t.veolo.inbox = box ∧ t.veolo.pairRx = rx.set dir (pair + 1) ∧ t.veolo.early = [] := by
  intro t
  obtain ⟨hpumped, hreceived⟩ := pumped_received (s := s) (u := u.setVeolo { u.veolo with early := [], pairRx := rx.set dir (pair + 1), inbox := box }) dir hlink
    (veolo_trans hframe (setVeolo_frame u _))
  simp only [Link.received, Prod.mk.injEq] at hreceived
  obtain ⟨hrx, -⟩ := hreceived
  have hveolo := congrArg Veolo.arrived
    (pumpPair_veolo (u.setVeolo { u.veolo with early := [], pairRx := rx.set dir (pair + 1), inbox := box }).sweepInbox dir)
  have hall : t.veolo.arrived = (box, rx.set dir (pair + 1), []) := hveolo.trans (congrArg (fun x => (x, rx.set dir (pair + 1), [])) hkept)
  simp only [Veolo.arrived, Prod.mk.injEq] at hall
  exact ⟨hpumped, hrx, hall⟩

section LastFlit

variable {s : State} {i : Nat} {f : Flit} (hlast : f.last = true) (hcls : f.cls = .activation ∨ f.cls = .ring ∨ f.cls = .collective) (hdest : f.dest = s.veolo.num)
  (himage : (s.part f.part).any (·.image.isSome) = true) (hbuf : (s.link i).rxBuf = []) (hearly : s.veolo.early = [])
  (hpair : f.pair = s.veolo.pairRx.getD (i / 2) 0) (hinbox : ∀ e ∈ s.veolo.inbox, e.2.1 ≠ .management)
include hlast hcls hdest himage hbuf hearly hpair

theorem takeFlit_delivers : (s.flitTaken i).takeFlit i f =
    ((s.flitTaken i).putLink i { (s.flitTaken i).link i with rxBuf := [] }).setVeolo
      { ((s.flitTaken i).putLink i { (s.flitTaken i).link i with rxBuf := [] }).veolo with
        early := [], pairRx := s.veolo.pairRx.set (i / 2) (f.pair + 1), inbox := s.veolo.inbox ++ [(i / 2, f.cls, f.part, f.payload.take f.len)] } := by
  have hmanagement : (f.cls == .management) = false ∧ (f.cls == .lent) = false := by
    rcases hcls with hcls | hcls | hcls <;> rw [hcls] <;> exact ⟨rfl, rfl⟩
  have hbuf' : ((s.flitTaken i).link i).rxBuf = [] := by
    rw [State.flitTaken, modLink_link_self]
    exact hbuf
  have hearly' : (s.flitTaken i).veolo.early = [] := hearly
  refine (takeFlit_last (s.flitTaken i) i f hlast hbuf' hdest hmanagement.1 hmanagement.2 himage).trans ?_
  rw [hearly']
  exact deliver_one _ (i / 2) f.pair f.cls f.part (f.payload.take f.len) rfl hpair.symm

include hinbox in
/-- The last flit of a message for this module delivers it. -/
theorem flit_last_spec :
    let t := (((s.flitTaken i).takeFlit i f).sweepInbox).pumpPair (i / 2)
    t.setVeolo s.veolo = s ∧ (t.link i).rxSeq = ((s.link i).rxSeq + 1) % 4096 ∧
      t.veolo.inbox = s.veolo.inbox ++ [(i / 2, f.cls, f.part, f.payload.take f.len)] ∧ t.veolo.pairRx = s.veolo.pairRx.set (i / 2) (f.pair + 1) ∧
      t.veolo.early = [] := by
  have hkept : (s.veolo.inbox ++ [(i / 2, f.cls, f.part, f.payload.take f.len)]).filter (fun e => e.2.1 != .management) =
      s.veolo.inbox ++ [(i / 2, f.cls, f.part, f.payload.take f.len)] := by
    refine List.filter_eq_self.mpr fun e he => bne_iff_ne.mpr ?_
    rcases List.mem_append.mp he with he | he
    · exact hinbox e he
    · cases List.mem_singleton.mp he
      show f.cls ≠ .management
      rcases hcls with hcls | hcls | hcls <;> rw [hcls] <;> exact fun h => nomatch h
  rw [takeFlit_delivers hlast hcls hdest himage hbuf hearly hpair]
  obtain ⟨u, hu⟩ : ∃ u, (s.flitTaken i).putLink i { (s.flitTaken i).link i with rxBuf := [] } = u := ⟨_, rfl⟩
  have hlink : u.link i = { s.link i with rxSeq := ((s.link i).rxSeq + 1) % 4096, nakked := false, rxBuf := [] } := by
    rw [← hu, link_putLink_self, flitTaken_link]
  have hframe : u.setVeolo s.veolo = s := by
    rw [← hu]
    exact veolo_trans (putLink_frame s i _) (putLink_frame _ _ _)
  rw [hu]
  exact delivered_spec (i / 2) hlink hframe hkept

end LastFlit

/-! ## NAKs and credits (R283 to R285) -/

/-- The replay buffer of a link that a NAK has cut. -/
def State.replayCut (s : State) (i k n : Nat) : State :=
  (s.bump .vl i 0x10 1).modLink i (fun l => { l with replay := l.replay.drop k, resends := n })

section Naks

variable {s : State} {i seq : Nat} (hi : i < 8) (hst : (s.link i).st = .up ∨ (s.link i).st = .miswired) (hseq : seq < 4096)
include hi hst hseq

theorem nak_known {k n : Nat} (hk : (s.link i).replay.findIdx? (fun f => f.seq == seq) = some k) (hn : (if k = 0 then (s.link i).resends + 1 else 2) = n) :
    exec (.nak i seq) s =
      .next (if 8 ≤ n && (s.link i).st == .up then (s.replayCut i k n).linkTrains i .fastRetrain else (s.replayCut i k n).pumpPair (i / 2)) := by
  have hcan : (s.linkIn i [.up, .miswired] && decide (seq < 4096)) = true := by rw [linkIn_two hi hst, decide_eq_true hseq]; rfl
  show execNak i seq s = _
  rw [execNak, hcan]
  dsimp only
  rw [hk]
  dsimp only
  rw [hn]
  rfl

theorem nak_unknown (hk : (s.link i).replay.findIdx? (fun f => f.seq == seq) = none) (hne : seq ≠ (s.link i).txSeq) :
    exec (.nak i seq) s = .next (s.bump .vl i 0x10 1) := by
  have hcan : (s.linkIn i [.up, .miswired] && decide (seq < 4096)) = true := by rw [linkIn_two hi hst, decide_eq_true hseq]; rfl
  show execNak i seq s = _
  rw [execNak, hcan]
  dsimp only
  rw [hk]
  dsimp only
  rw [if_neg hne]
  rfl

end Naks

theorem replayCut_fabricOnly (s : State) (i k n : Nat) : ((s.replayCut i k n).setVeolo s.veolo).setRegs s.regs = s :=
  fabricOnly_trans (bump_fabricOnly s .vl i 0x10 1) (modLink_fabricOnly _ _ _)

theorem replayCut_reg (s : State) (i k n : Nat) (b : Blk) (j off : Nat) : (s.replayCut i k n).reg b j off = (s.bump .vl i 0x10 1).reg b j off := rfl

theorem reg_of_fabric {s t : State} (h : t.setVeolo s.veolo = s) (b : Blk) (j off : Nat) : t.reg b j off = s.reg b j off := by
  rw [← h]
  rfl

theorem pumpPair_reg (s : State) (dir : Nat) (b : Blk) (j off : Nat) : (s.pumpPair dir).reg b j off = s.reg b j off :=
  reg_of_fabric (pumpPair_frame s dir) b j off

theorem replayCut_link (s : State) (i k n : Nat) : (s.replayCut i k n).link i = { s.link i with replay := (s.link i).replay.drop k, resends := n } :=
  modLink_link_self _ _ _

/-- A NAK that is resent: what came before the flit it names is gone, the rest is kept. -/
theorem nak_resends_spec (s : State) (i k n : Nat) :
    let t := (s.replayCut i k n).pumpPair (i / 2)
    (s.link i).replay.drop k <+: (t.link i).replay ∧ (t.link i).st = (s.link i).st ∧ (t.setVeolo s.veolo).setRegs s.regs = s ∧
      (t.reg .vl i 0x10).toNat = min 0xFFFFFFFF ((s.reg .vl i 0x10).toNat + 1) := by
  have hreplay := pumpPair_replay (s.replayCut i k n) (i / 2) i
  obtain ⟨hst, -⟩ := pumpPair_link (s.replayCut i k n) (i / 2) i
  rw [replayCut_link] at hreplay hst
  refine ⟨hreplay, hst, fabricOnly_trans (replayCut_fabricOnly s i k n) (fabricOnly_of (pumpPair_frame _ _)), ?_⟩
  rw [pumpPair_reg, replayCut_reg, State.reg_bump_self]

/-- A NAK with the eighth resending: the link retrains. -/
theorem nak_retrains_spec (s : State) (i k n : Nat) :
    let t := (s.replayCut i k n).linkTrains i .fastRetrain
    (t.link i).st = .fastRetrain ∧ (t.link i).replay = (s.link i).replay.drop k ∧
      (t.reg .vl i 0x14).toNat = min 0xFFFFFFFF ((s.reg .vl i 0x14).toNat + 1) ∧ (t.setVeolo s.veolo).setRegs s.regs = s := by
  obtain ⟨hst, hreplay, -, -, hcount, -, hframe⟩ := fastRetrain_keeps (s.replayCut i k n) i
  rw [replayCut_link] at hreplay
  rw [replayCut_reg, reg_bump_ne _ _ _ _ (by decide)] at hcount
  exact ⟨hst, hreplay, hcount, fabricOnly_trans (replayCut_fabricOnly s i k n) hframe⟩

/-- A credit that has come back to a class. -/
def Link.credited (l : Link) (k : Nat) : Link := { l with credits := l.credits.set k (l.credits.getD k 0 + 1) }

theorem creditReturn_run {s : State} {i : Nat} {cls : LClass} (hi : i < 8) (hst : (s.link i).st = .up ∨ (s.link i).st = .miswired)
    (hout : (s.link i).credits.getD (LClass.code cls) 0 < [128, 128, 96, 128, 16].getD (LClass.code cls) 0) :
    exec (.creditReturn i cls) s = .next ((s.modLink i (·.credited (LClass.code cls))).pumpPair (i / 2)) :=
  require_next (by rw [linkIn_two hi hst]; exact decide_eq_true hout)

theorem creditReturn_spec (s : State) (i k : Nat) :
    let t := (s.modLink i (·.credited k)).pumpPair (i / 2)
    t.setVeolo s.veolo = s ∧ (t.link i).st = (s.link i).st ∧
      ((∀ j, j / 2 = i / 2 → (s.link j).queue = []) → (t.link i).credits = (s.link i).credits.set k ((s.link i).credits.getD k 0 + 1)) := by
  obtain ⟨hst, -⟩ := pumpPair_link (s.modLink i (·.credited k)) (i / 2) i
  rw [modLink_link_self] at hst
  refine ⟨veolo_trans (putLink_frame _ _ _) (pumpPair_frame _ _), hst, fun hempty => ?_⟩
  have hqueue : ∀ j, j / 2 = i / 2 → ((s.modLink i (·.credited k)).link j).queue = [] := by
    intro j hj
    by_cases hne : j = i
    · subst hne
      rw [modLink_link_self]
      exact hempty j rfl
    · rw [modLink_link_ne s _ hne]
      exact hempty j hj
  have hkept := pumpPair_empty Link.credits (fun _ _ _ => rfl) (s.modLink i (·.credited k)) (i / 2) i (hqueue _ (by omega)) (hqueue _ (by omega))
  rw [modLink_link_self] at hkept
  exact hkept

/-! ## The second's codewords (R461) -/

/-- The codewords of a second counted on one link, and the link retrained above 10^-5 uncorrectable. -/
def State.rated (co un cw : List Nat) (s : State) (i : Nat) : State :=
  if (s.link i).st != .up then s
  else
    let s1 := (s.bump .vl i 0x08 (co.getD i 0)).bump .vl i 0x0C (un.getD i 0)
    if cw.getD i 0 < 100000 * un.getD i 0 then (s1.linkTrains i .fastRetrain).bump .sv 0 0x68 1 else s1

/-- What a second's check looks at and sets of a link. -/
def State.rate (s : State) (i : Nat) : LState × Word × Word := ((s.link i).st, s.reg .vl i 0x08, s.reg .vl i 0x0C)

/-- What a second's check makes of a link. -/
def ratedTo (co un cw : List Nat) (i : Nat) (v w : LState × Word × Word) : Prop :=
  (v.1 ≠ .up → w = v) ∧
  (v.1 = .up → w.1 = (if cw.getD i 0 < 100000 * un.getD i 0 then .fastRetrain else .up) ∧ w.2.1.toNat = min 0xFFFFFFFF (v.2.1.toNat + co.getD i 0) ∧
    w.2.2.toNat = min 0xFFFFFFFF (v.2.2.toNat + un.getD i 0))

theorem linkTrains_reg (s : State) (i : Nat) (st : LState) (b : Blk) (k off : Nat) : (s.linkTrains i st).reg b k off = (s.bump .vl i 0x14 1).reg b k off := by
  have hframe := congrArg (fun u : State => u.reg b k off) (refreshNbr_frame ((s.modLink i (fun l => { l with st := st })).bump .vl i 0x14 1) (i / 2))
  exact hframe

theorem reg_bump_apart (s : State) {b d : Blk} {i j o p : Nat} (n : Nat) (h : d.at j p ≠ b.at i o) : (s.bump b i o n).reg d j p = s.reg d j p :=
  State.rawReg_putReg_ne s b i o _ h

theorem sv_vl_apart {j p : Nat} (hp : p < 0x20) : Blk.vl.at j p ≠ Blk.sv.at 0 0x68 := by
  simp only [Blk.at, Blk.place]
  omega

/-- The counters of errors of a link, which the count of trainings leaves. -/
theorem trained_rate (s : State) {i j p : Nat} (hp : p = 0x08 ∨ p = 0x0C) :
    ((s.linkTrains i .fastRetrain).bump .sv 0 0x68 1).reg .vl j p = s.reg .vl j p := by
  have hsmall : p < 0x20 := by omega
  rw [reg_bump_apart _ 1 (sv_vl_apart hsmall), linkTrains_reg]
  by_cases hne : j = i
  · subst hne
    exact reg_bump_ne s .vl j 1 (by omega)
  · exact reg_bump_apart s 1 (vl_apart hne hsmall (by decide))

theorem rated_self (co un cw : List Nat) (s : State) (i : Nat) : ratedTo co un cw i (s.rate i) ((s.rated co un cw i).rate i) := by
  refine ⟨fun hdown => ?_, fun hup => ?_⟩
  · have hst : (s.link i).st ≠ .up := hdown
    rw [State.rated, if_pos (bne_iff_ne.mpr hst)]
  · have h8 : (((s.bump .vl i 0x08 (co.getD i 0)).bump .vl i 0x0C (un.getD i 0)).reg .vl i 0x08).toNat = min 0xFFFFFFFF ((s.reg .vl i 0x08).toNat + co.getD i 0) := by
      rw [reg_bump_ne _ _ _ _ (by decide), State.reg_bump_self]
    have hC : (((s.bump .vl i 0x08 (co.getD i 0)).bump .vl i 0x0C (un.getD i 0)).reg .vl i 0x0C).toNat = min 0xFFFFFFFF ((s.reg .vl i 0x0C).toNat + un.getD i 0) := by
      rw [State.reg_bump_self, reg_bump_ne _ _ _ _ (by decide)]
    have hst : (s.link i).st = .up := hup
    rw [State.rated, if_neg (by rw [hst]; decide)]
    dsimp only
    by_cases hbad : cw.getD i 0 < 100000 * un.getD i 0
    · obtain ⟨htrains, -⟩ := fastRetrain_keeps ((s.bump .vl i 0x08 (co.getD i 0)).bump .vl i 0x0C (un.getD i 0)) i
      rw [if_pos hbad, if_pos hbad]
      exact ⟨htrains, (congrArg BitVec.toNat (trained_rate _ (Or.inl rfl))).trans h8, (congrArg BitVec.toNat (trained_rate _ (Or.inr rfl))).trans hC⟩
    · rw [if_neg hbad, if_neg hbad]
      exact ⟨hup, h8, hC⟩

theorem counted_fabricOnly (s : State) (i a b : Nat) : (((s.bump .vl i 0x08 a).bump .vl i 0x0C b).setVeolo s.veolo).setRegs s.regs = s :=
  fabricOnly_trans (bump_fabricOnly s .vl i 0x08 a) (bump_fabricOnly _ _ _ _ _)

theorem counted_rate (s : State) {i j : Nat} (a b : Nat) (hne : j ≠ i) : ((s.bump .vl i 0x08 a).bump .vl i 0x0C b).rate j = s.rate j := by
  have key : ∀ p, p < 0x20 → ((s.bump .vl i 0x08 a).bump .vl i 0x0C b).reg .vl j p = s.reg .vl j p := fun p hp =>
    (reg_bump_apart _ b (vl_apart hne hp (by decide))).trans (reg_bump_apart s a (vl_apart hne hp (by decide)))
  rw [State.rate, key 0x08 (by decide), key 0x0C (by decide)]
  rfl

theorem rated_others (co un cw : List Nat) (s : State) {i j : Nat} (hne : j ≠ i) : (s.rated co un cw i).rate j = s.rate j := by
  rw [State.rated]
  split
  · rfl
  · have hcounted := counted_rate s (co.getD i 0) (un.getD i 0) hne
    dsimp only
    split
    · obtain ⟨-, -, -, -, -, hothers, -⟩ := fastRetrain_keeps ((s.bump .vl i 0x08 (co.getD i 0)).bump .vl i 0x0C (un.getD i 0)) i
      refine Eq.trans ?_ hcounted
      rw [State.rate, trained_rate _ (Or.inl rfl), trained_rate _ (Or.inr rfl)]
      exact congrArg (·, _, _) (hothers j hne)
    · exact hcounted

theorem rated_frame (co un cw : List Nat) (s : State) (i : Nat) : ((s.rated co un cw i).setVeolo s.veolo).setRegs s.regs = s := by
  rw [State.rated]
  split
  · rfl
  · dsimp only
    split
    · obtain ⟨-, -, -, -, -, -, hframe⟩ := fastRetrain_keeps ((s.bump .vl i 0x08 (co.getD i 0)).bump .vl i 0x0C (un.getD i 0)) i
      exact fabricOnly_trans (fabricOnly_trans (counted_fabricOnly s i _ _) hframe) (bump_fabricOnly _ _ _ _ _)
    · exact counted_fabricOnly s i _ _

/-- Each link of a second's check is rated once. -/
theorem rated_fold (co un cw : List Nat) : ∀ (l : List Nat), l.Nodup → ∀ s : State,
    (∀ i ∈ l, ratedTo co un cw i (s.rate i) ((l.foldl (State.rated co un cw) s).rate i)) ∧
      (∀ j, j ∉ l → (l.foldl (State.rated co un cw) s).rate j = s.rate j) ∧
      ((l.foldl (State.rated co un cw) s).setVeolo s.veolo).setRegs s.regs = s
  | [], _, _ => ⟨fun _ h => absurd h List.not_mem_nil, fun _ _ => rfl, rfl⟩
  | k :: l, hnodup, s => by
    obtain ⟨hk, hnodup⟩ := List.nodup_cons.mp hnodup
    obtain ⟨hin, hout, hframe⟩ := rated_fold co un cw l hnodup (s.rated co un cw k)
    rw [List.foldl_cons]
    refine ⟨fun i hi => ?_, fun j hnot => ?_, fabricOnly_trans (rated_frame co un cw s k) hframe⟩
    · rcases List.mem_cons.mp hi with rfl | hi
      · rw [hout i hk]
        exact rated_self co un cw s i
      · have hne : i ≠ k := fun he => hk (he ▸ hi)
        have hrated := hin i hi
        rwa [rated_others co un cw s hne] at hrated
    · obtain ⟨hne, hnot⟩ := not_or.mp (mt List.mem_cons.mpr hnot)
      exact (hout j hnot).trans (rated_others co un cw s hne)

theorem veoloErrorRateCheck_run (s : State) (co un cw : List Nat) :
    exec (.veoloErrorRateCheck co un cw) s = .next ((List.range 8).foldl (State.rated co un cw) s) := by
  show execVeoloErrorRateCheck co un cw s = _
  unfold execVeoloErrorRateCheck State.rated
  rfl

/-! ## The time base (R294, R295) -/

section TimeBase

variable {s : State} {i : Nat} {t1 t2 t3 t4 : Int} (hi : i < 8) (hup : (s.link i).st = .up)
include hi hup

theorem timeMarker_ignored (h : s.veolo.master = true ∨ s.route s.veolo.masterNum ≠ some (i / 2)) : exec (.timeMarker i t1 t2 t3 t4) s = .next s := by
  refine (if_pos (linkIn_of hi hup rfl)).trans (if_pos ?_)
  rw [Bool.or_eq_true, bne_iff_ne]
  exact h

theorem timeMarker_steers (hmaster : s.veolo.master = false) (hroute : s.route s.veolo.masterNum = some (i / 2)) : exec (.timeMarker i t1 t2 t3 t4) s =
    .next (if s.veolo.joined then s.setVeolo { s.veolo with offset := ((t2 - t1) - (t4 - t3)) / 2, joined := true }
      else (s.setVeolo { s.veolo with offset := ((t2 - t1) - (t4 - t3)) / 2, joined := true }).setNow
        (max 0 ((s.now : Int) + ((t2 - t1) - (t4 - t3)) / 2)).toNat) := by
  refine (if_pos (linkIn_of hi hup rfl)).trans (if_neg ?_)
  rw [hmaster, hroute, bne_self_eq_false]
  decide

end TimeBase

/-- What sending does not change of the fabric's state. -/
theorem sendMessage_kept {α : Type} (f : Veolo → α) (hf : ∀ (v : Veolo) links pairTx, f { v with links := links, pairTx := pairTx } = f v) (s : State) (dir : Nat)
    (cls : LClass) (part : Nat) (bs : Bytes) : f (s.sendMessage dir cls part bs).veolo = f s.veolo := by
  have hqueue : ∀ (u : State) (fs : List Flit) (pair : Nat), f (u.queueFlits dir fs pair).veolo = f u.veolo := by
    intro u fs pair
    unfold State.queueFlits
    extract_lets n up k l
    split
    · rfl
    · rw [pumpPair_veolo]
      exact hf u.veolo _ u.veolo.pairTx
  unfold State.sendMessage State.sendOn
  extract_lets pair fs
  exact (hqueue _ _ _).trans (hf s.veolo s.veolo.links _)

/-- A module that becomes aligned: its neighbours are told, and nothing but the fabric's state changes. -/
theorem aligned_spec (s : State) :
    let t := (List.range 4).foldl (fun s d => s.sendMessage d .management 0 alignedNotice) (s.setVeolo { s.veolo with aligned := true })
    t.veolo.aligned = true ∧ t.setVeolo s.veolo = s ∧ t.veolo.nbrs = s.veolo.nbrs := by
  refine foldl_inv (fun u : State => u.veolo.aligned = true ∧ u.setVeolo s.veolo = s ∧ u.veolo.nbrs = s.veolo.nbrs) _ ?_ _ _ ⟨rfl, rfl, rfl⟩
  rintro u d ⟨haligned, hframe, hnbrs⟩
  exact ⟨(sendMessage_kept Veolo.aligned (fun _ _ _ => rfl) _ _ _ _ _).trans haligned, veolo_trans hframe (sendMessage_frame _ _ _ _ _),
    (sendMessage_kept Veolo.nbrs (fun _ _ _ => rfl) _ _ _ _ _).trans hnbrs⟩

theorem timeAligned_tells {s : State} (h : s.veolo.joined = true ∨ s.veolo.master = true) : exec .timeAligned s =
    .next ((List.range 4).foldl (fun s d => s.sendMessage d .management 0 alignedNotice) (s.setVeolo { s.veolo with aligned := true })) := by
  show execTimeAligned s = _
  unfold execTimeAligned
  exact require_next (by rw [Bool.or_eq_true]; exact h)

/-! ## Neighbours that leave or are lost (R298) -/

theorem loseNeighbour_settled {s : State} {d : Nat} {st : NState} (hparts : s.parts = []) (hloans : s.lender.loans = []) (hgo : s.lesar.goDone = []) :
    ∃ t : State, (s.loseNeighbour d st).settleAll = t.passReach d (s.nbrDev d) false ∧ t.veolo.nbrs = s.veolo.nbrs.set d st ∧
      (∀ j, j / 2 = d → (t.link j).replay = [] ∧ (t.link j).queue = [] ∧ (t.link j).rxBuf = []) ∧ (∀ j, j / 2 ≠ d → t.link j = s.link j) ∧
      (∀ e ∈ t.veolo.early, e.1 ≠ d) ∧ t.mem = s.mem ∧ t.parts = [] := by
  obtain ⟨u, hu, hnbrs, hcut, hothers, hearly, hlesar, hmem, hkept⟩ := loseNeighbour_alone s d st hparts hloans
  have hevents := sharedEvent_only u [] .uncorrectable 0 0 (s.nbrDev d)
  have hveolo := repliesOnly_field State.veolo (fun _ _ => rfl) hevents
  have hlink : ∀ j, (u.sharedEvent [] .uncorrectable 0 0 (s.nbrDev d)).link j = u.link j := fun j => congrArg (fun v : Veolo => NMap.get Link.start v.links j) hveolo
  refine ⟨u.sharedEvent [] .uncorrectable 0 0 (s.nbrDev d), ?_, (congrArg Veolo.nbrs hveolo).trans hnbrs, fun j hj => ?_, fun j hj => (hlink j).trans (hothers j hj), ?_,
    (repliesOnly_field State.mem (fun _ _ => rfl) hevents).trans hmem, (repliesOnly_field State.parts (fun _ _ => rfl) hevents).trans (hkept.trans hparts)⟩
  · have hpassed := congrArg (fun w : State => w.lesar.goDone) (passReach_frame (u.sharedEvent [] .uncorrectable 0 0 (s.nbrDev d)) d (s.nbrDev d) false)
    obtain ⟨hgos, -⟩ := sharedEvent_gos u [] .uncorrectable 0 0 (s.nbrDev d)
    rw [hu]
    exact settleAll_idle _ (hpassed.trans (hgos.trans ((congrArg Lesar.goDone hlesar).trans hgo)))
  · rw [hlink]
    exact hcut j hj
  · rw [hveolo]
    exact hearly

/-! ## Notices of other stages (R425, R455) -/

theorem resetNotice_holds {s : State} {p stage : Nat} {pt : Part} {im : Image} (hp : s.part p = some pt) (him : pt.image = some im) (hstage : stage < im.stages)
    (hne : stage ≠ im.stage) : exec (.resetNotice p stage) s = .next (s.modPart p (fun pt =>
      { pt with held := stage :: pt.held.filter (· != stage), joined := false, staged := { pt.staged with endAll := some stage } })) := by
  show execResetNotice p stage s = _
  rw [execResetNotice, hp]
  refine require_next ?_
  rw [him, Option.any_some, decide_eq_true hstage, bne_iff_ne.mpr hne]
  rfl

section Abort

variable {s : State} {p count : Nat} {pt : Part} {im : Image} (hp : s.part p = some pt) (him : pt.image = some im) (hfirst : im.isFirst = false)
include hp him hfirst

theorem abortNotice_run : exec (.abortNotice p count) s =
    if pt.step.any (fun v => v.count == count && !v.empty) then .next ((s.abortStep p .uncorrectable false).dropReceived p) else .next s := by
  show execAbortNotice p count s = _
  rw [execAbortNotice, hp]
  refine if_pos ?_
  rw [him, Option.any_some, hfirst]
  rfl

theorem abortNotice_taken {v : StepSt} (hv : pt.step = some v) (hcount : v.count = count) (hbusy : v.empty = false) :
    exec (.abortNotice p count) s = .next ((s.abortStep p .uncorrectable false).dropReceived p) := by
  rw [abortNotice_run hp him hfirst, hv, Option.any_some, hcount, hbusy, beq_self_eq_true]
  rfl

theorem abortNotice_ignored (hother : ∀ v, pt.step = some v → v.count ≠ count ∨ v.empty = true) : exec (.abortNotice p count) s = .next s := by
  rw [abortNotice_run hp him hfirst]
  refine if_neg ?_
  rw [Option.any_eq_true]
  rintro ⟨v, hv, hmatch⟩
  rw [Bool.and_eq_true, beq_iff_eq, Bool.not_eq_true'] at hmatch
  obtain ⟨hcount, hbusy⟩ := hmatch
  exact (hother v hv).elim (fun hne => hne hcount) fun hempty => Bool.false_ne_true (hbusy.symm.trans hempty)

end Abort

/-- Settles O42: each event from the change that it makes of its link, with what sending on a pair of links keeps. -/
theorem linksCarryAndHear : Obligations.LinksCarryAndHear := by
  unfold Obligations.LinksCarryAndHear
  refine ⟨?flits, ?naks, ?credits, ?rates, ?markers, ?aligned, ?neighbours, ?resets, ?aborts⟩
  case flits =>
    intro s i f hi hst hseq h1 h240 hpl hpart
    have h : flitArrives s i f := ⟨hi, hst, hseq, h1, h240, hpl, hpart⟩
    refine ⟨flit_corrupt h, flit_outOfTurn h, fun hcrc hkind => completes_of (flit_control h hcrc hkind) (flit_control_spec s i f),
      fun hcrc hkind hturn hack hup hnum hdest => ⟨fun hlast => ?_, fun hlast hcls himage hbuf hearly hpair hinbox => ?_⟩⟩
    · exact completes_of (flit_data h hcrc hkind hturn hack hup hnum) ⟨_, rfl, flit_first_spec hlast⟩
    · exact completes_of (flit_data h hcrc hkind hturn hack hup hnum) ⟨_, rfl, flit_last_spec hlast hcls hdest himage hbuf hearly hpair hinbox⟩
  case naks =>
    intro s i seq hi hst hseq
    refine ⟨?_, nak_unknown hi hst hseq⟩
    intro k hk n
    obtain ⟨m, hm⟩ : ∃ m, (if k = 0 then (s.link i).resends + 1 else 2) = m := ⟨_, rfl⟩
    have hrun := nak_known hi hst hseq hk hm
    have hnm : n = m := hm
    clear_value n
    subst hnm
    refine ⟨fun hn => ?_, fun hn hup => ?_⟩
    · rw [decide_eq_false (Nat.not_le.mpr hn), Bool.false_and, if_neg Bool.false_ne_true] at hrun
      exact completes_of hrun (nak_resends_spec s i k n)
    · rw [decide_eq_true hn, hup, if_pos (show (true && LState.up == LState.up) = true from rfl)] at hrun
      exact completes_of hrun (nak_retrains_spec s i k n)
  case credits => exact fun s i cls hi hst hout => completes_of (creditReturn_run hi hst hout) (creditReturn_spec s i _)
  case rates =>
    intro s co un cw
    obtain ⟨hrated, -, hframe⟩ := rated_fold co un cw (List.range 8) List.nodup_range s
    have hrun := veoloErrorRateCheck_run s co un cw
    obtain ⟨t, ht⟩ : ∃ t, (List.range 8).foldl (State.rated co un cw) s = t := ⟨_, rfl⟩
    rw [ht] at hrated hframe hrun
    refine completes_of hrun ⟨hframe, fun i hi => ?_⟩
    obtain ⟨hdown, hup⟩ := hrated i (List.mem_range.mpr hi)
    refine ⟨fun hst => ?_, hup⟩
    have hsame := hdown hst
    simp only [State.rate, Prod.mk.injEq] at hsame
    exact hsame
  case markers =>
    intro s i t1 t2 t3 t4 hi hup
    refine ⟨timeMarker_ignored hi hup, fun hmaster hroute => ⟨fun hjoined => ?_, fun hfresh => ?_⟩⟩
    · have hkept : { s.veolo with offset := ((t2 - t1) - (t4 - t3)) / 2, joined := true } = { s.veolo with offset := ((t2 - t1) - (t4 - t3)) / 2 } := by
        rw [← hjoined]
      rw [timeMarker_steers hi hup hmaster hroute, if_pos hjoined, hkept]
    · exact (timeMarker_steers hi hup hmaster hroute).trans (congrArg Host.Outcome.next (if_neg (Bool.eq_false_iff.mp hfresh)))
  case aligned =>
    intro s hready
    exact completes_of (timeAligned_tells hready) (aligned_spec s)
  case neighbours =>
    intro s d h
    have hleave : exec (.leaveNotice d) s = .next (s.loseNeighbour d .left).settleAll := require_next h
    have hlost : exec (.neighbourLost d) s = .next (s.loseNeighbour d .lost).settleAll := require_next h
    refine ⟨hleave, hlost, ?_⟩
    rintro i st (⟨rfl, rfl⟩ | ⟨rfl, rfl⟩) hparts hloans hgo
    · exact completes_of hleave (loseNeighbour_settled hparts hloans hgo)
    · exact completes_of hlost (loseNeighbour_settled hparts hloans hgo)
  case resets => exact fun s p stage pt im hp him hstage hne => resetNotice_holds hp him hstage hne
  case aborts =>
    exact fun s p count pt im hp him hfirst => ⟨fun v hv hcount hbusy => abortNotice_taken hp him hfirst hv hcount hbusy, abortNotice_ignored hp him hfirst⟩

end Sys2Proof.Machine
end

section
/-!
PROOFS. Models are installed, and their bytes taken from the host.
-/
namespace Sys2Proof.Machine

open Sys2Proof

/-! ## INSTALL_MODEL (R309, R310) -/

/-- The payload of an INSTALL_MODEL breaks its layout. -/
def installBad (pl : Bytes) : Bool :=
  pl.length != 16 || decide (3 < beAt pl 0 1) || !allZero (slice pl 1 3) || decide (65536 < beAt pl 4 4) || !within 20 16400 (beAt pl 8 4) ||
    !allZero (slice pl 12 4)

theorem installBad_iff (pl : Bytes) : installBad pl = true ↔
    ¬ (pl.length = 16 ∧ beAt pl 0 1 < 4 ∧ allZero (slice pl 1 3) = true ∧ beAt pl 4 4 ≤ 65536 ∧ 20 ≤ beAt pl 8 4 ∧ beAt pl 8 4 ≤ 16400 ∧
      allZero (slice pl 12 4) = true) := by
  simp only [installBad, within, Bool.or_eq_true, bne_iff_ne, decide_eq_true_eq, Bool.not_eq_true', Bool.and_eq_false_iff, decide_eq_false_iff_not]
  grind

/-- The state that a partition's model has while an installation of it runs. -/
def MState.installing (m : MState) (flags : Nat) : MState := if flags % 2 = 0 ∧ (m = .empty ∨ m = .loaded) then .fetching else m

theorem installing_eq (m : MState) (flags : Nat) :
    (if !(flags % 2 == 1) && (m == .empty || m == .loaded) then MState.fetching else m) = m.installing flags := by
  have hcond : (!(flags % 2 == 1) && (m == .empty || m == .loaded)) = true ↔ flags % 2 = 0 ∧ (m = .empty ∨ m = .loaded) := by
    rw [Bool.and_eq_true, Bool.or_eq_true, beq_iff_eq, beq_iff_eq, Bool.not_eq_true', beq_eq_false_iff_ne, Nat.mod_two_ne_one]
  rw [MState.installing]
  by_cases h : flags % 2 = 0 ∧ (m = .empty ∨ m = .loaded)
  · rw [if_pos h, if_pos (hcond.mpr h)]
  · rw [if_neg h, if_neg (mt hcond.mp h)]

section Installing

variable {s : State} {c : Ctx} {pl : Bytes} {pt : Part} (h : s.modelServes c 0x0401 pt)
include h

theorem installModel_badFrame (hbad : installBad pl = true) :
    exec (.installModel c pl) s = .next (((s.freeMbox c 0x0401).reply c 0x0401 .badFrame []).modelStatus c.part .badFrame) := by
  show execInstallModel c pl s = _
  rw [execInstallModel, modelOp_run s c 0x0401 pt _ h]
  exact if_pos hbad

variable (hgood : installBad pl = false)
include hgood

theorem installModel_busy (hbusy : pt.mstate.busy = true ∨ pt.install.isSome = true) :
    exec (.installModel c pl) s = .next (((s.freeMbox c 0x0401).reply c 0x0401 .notPermitted []).modelStatus c.part .notPermitted) := by
  show execInstallModel c pl s = _
  rw [execInstallModel, modelOp_run s c 0x0401 pt _ h]
  exact (if_neg (Bool.eq_false_iff.mp hgood)).trans (if_pos (by rw [Bool.or_eq_true]; exact hbusy))

variable (hidle : pt.mstate.busy = false) (hnone : pt.install = none)
include hidle hnone

theorem installModel_fetches (hnext : ∀ im, pt.next = some im → im.handle ≠ c.handle) : exec (.installModel c pl) s =
    .next (((s.freeMbox c 0x0401).owe c 0x0401).modPart c.part (fun x =>
      { x with install := some (Install.begin c (beAt pl 0 1) (beAt pl 4 4) (beAt pl 8 4)), mstate := pt.mstate.installing (beAt pl 0 1) })) := by
  have hfetched : pt.next.filter (fun im => im.handle == c.handle) = none := by
    rw [Option.filter_eq_none_iff]
    exact fun im him => by rw [beq_iff_eq]; exact hnext im him
  show execInstallModel c pl s = _
  rw [execInstallModel, modelOp_run s c 0x0401 pt _ h]
  refine (if_neg (Bool.eq_false_iff.mp hgood)).trans ((if_neg (by rw [hidle, hnone]; decide)).trans ?_)
  dsimp only
  rw [hfetched, ← installing_eq]
  rfl

theorem installModel_loads {im : Image} (hnext : pt.next = some im) (him : im.handle = c.handle) : exec (.installModel c pl) s =
    .next ((((s.freeMbox c 0x0401).owe c 0x0401).modPart c.part (fun pt =>
      { pt with install := some { Install.begin c (beAt pl 0 1) (beAt pl 4 4) (beAt pl 8 4) with fetchOnly := false, image := some im } })).beginLoad c.part im) := by
  have hfetched : pt.next.filter (fun im => im.handle == c.handle) = some im := by
    rw [hnext, Option.filter_some, if_pos (beq_iff_eq.mpr him)]
  show execInstallModel c pl s = _
  rw [execInstallModel, modelOp_run s c 0x0401 pt _ h]
  refine (if_neg (Bool.eq_false_iff.mp hgood)).trans ((if_neg (by rw [hidle, hnone]; decide)).trans ?_)
  dsimp only
  rw [hfetched]

end Installing

/-! ## The bytes that an installation takes (R311) -/

/-- The head of a SHARD_DATA keeps its layout. -/
def shardDataGood (pl : Bytes) : Bool := decide (16 ≤ pl.length) && allZero (slice pl 1 7)

theorem shardDataGood_iff (pl : Bytes) : shardDataGood pl = true ↔ 16 ≤ pl.length ∧ allZero (slice pl 1 7) = true := by
  rw [shardDataGood, Bool.and_eq_true, decide_eq_true_eq]

/-- What a SHARD_DATA gives an installation. -/
def Install.took (v : Install) (pl : Bytes) : Option Install :=
  if shardDataGood pl then v.take (beAt pl 0 1) (beAt pl 8 8) (pl.drop 16) else none

section Took

variable {v : Install} {pl : Bytes}

theorem took_none (h : ¬ (16 ≤ pl.length ∧ allZero (slice pl 1 7) = true) ∨ v.take (beAt pl 0 1) (beAt pl 8 8) (pl.drop 16) = none) : v.took pl = none := by
  rw [Install.took]
  rcases h with h | h
  · exact if_neg (mt (shardDataGood_iff pl).mp h)
  · rw [h, ite_self]

variable (hgood : 16 ≤ pl.length ∧ allZero (slice pl 1 7) = true)
include hgood

theorem took_cart (hpart : beAt pl 0 1 = 0) (him : v.image = none) (hoff : beAt pl 8 8 = v.cart.length)
    (hfits : v.cart.length + (pl.drop 16).length ≤ v.cartLen) : v.took pl = some { v with cart := v.cart ++ pl.drop 16 } := by
  rw [Install.took, if_pos ((shardDataGood_iff pl).mpr hgood), hpart, hoff]
  refine if_pos ?_
  rw [him, beq_self_eq_true, decide_eq_true hfits]
  rfl

theorem took_atlas (hpart : beAt pl 0 1 = 1) (him : v.image = none) (hcart : v.cart.length = v.cartLen) (hoff : beAt pl 8 8 = v.atlas.length)
    (hfits : v.atlas.length + (pl.drop 16).length ≤ v.atlasLen) : v.took pl = some { v with atlas := v.atlas ++ pl.drop 16 } := by
  rw [Install.took, if_pos ((shardDataGood_iff pl).mpr hgood), hpart, hoff]
  refine if_pos ?_
  rw [him, hcart, beq_self_eq_true, beq_self_eq_true, decide_eq_true hfits]
  rfl

theorem took_shard {im : Image} (hpart : beAt pl 0 1 = 2) (hsrc : v.src = .host) (him : v.image = some im) (hoff : beAt pl 8 8 = v.shard.length)
    (hfits : v.shard.length + (pl.drop 16).length ≤ im.shardLen) : v.took pl = some { v with shard := v.shard ++ pl.drop 16 } := by
  rw [Install.took, if_pos ((shardDataGood_iff pl).mpr hgood), hpart, hoff]
  refine if_pos ?_
  rw [hsrc, him, Option.any_some, beq_self_eq_true, beq_self_eq_true, decide_eq_true hfits]
  rfl

end Took

/-! ## SHARD_DATA (R311) -/

/-- The installation that a SHARD_DATA is for. -/
def Part.dataInstall (pt : Part) (c : Ctx) : Option Install :=
  pt.install.filter (fun v => v.ctx.sess == c.sess && v.ctx.handle == c.handle && !v.loading)

/-- The repair that a SHARD_DATA is for. -/
def Part.dataRepair (pt : Part) (c : Ctx) : Option Install := pt.refetch.filter (fun v => v.ctx.handle == c.handle && v.src == .host)

/-- An installation with what it has taken of a SHARD_DATA, or ended. -/
def State.installTakes (s : State) (p : Nat) : Option Install → State
  | some w => (s.modFetch p false (fun _ => w)).afterPart p
  | none => s.endInstall p .badFrame

/-- A repair with what it has taken of a SHARD_DATA, or ended. -/
def State.repairTakes (s : State) (p : Nat) : Option Install → State
  | some w => s.modFetch p true (fun _ => w)
  | none => s.failFetch p true .badFrame

/-- A SHARD_DATA given to the installation, or else the repair, that it is for. -/
def State.dataFor (s : State) (c : Ctx) (pl : Bytes) : Option Install → Option Install → State
  | some v, _ => s.installTakes c.part (v.took pl)
  | none, some v => s.repairTakes c.part (v.took pl)
  | none, none => s.reply c 0x0405 .notPermitted []

theorem shardData_run {s : State} {c : Ctx} {pt : Part} (h : s.accepts c 0x0405 .port true) (hpt : s.part c.part = some pt)
    (hhandle : badHandle c.handle = false) (pl : Bytes) :
    exec (.shardData c pl) s = .next ((s.freeMbox c 0x0405).dataFor c pl (pt.dataInstall c) (pt.dataRepair c)) := by
  show execShardData c pl s = _
  rw [execShardData, serve_accepted h, freeMbox_part_eq, hpt]
  dsimp only
  rw [hhandle]
  refine (if_neg Bool.false_ne_true).trans ?_
  unfold Part.dataInstall Part.dataRepair
  cases pt.install.filter (fun v => v.ctx.sess == c.sess && v.ctx.handle == c.handle && !v.loading) with
  | some v =>
    show _ = Host.Outcome.next (State.installTakes _ _ (v.took pl))
    unfold Install.took shardDataGood
    dsimp only
    split <;> (rename_i htook; rw [htook]; rfl)
  | none =>
    cases pt.refetch.filter (fun v => v.ctx.handle == c.handle && v.src == .host) with
    | some v =>
      show _ = Host.Outcome.next (State.repairTakes _ _ (v.took pl))
      unfold Install.took shardDataGood
      dsimp only
      split <;> (rename_i htook; rw [htook]; rfl)
    | none => rfl

theorem dataInstall_some {pt : Part} {c : Ctx} {v : Install} (hv : pt.install = some v) (hsess : v.ctx.sess = c.sess) (hhandle : v.ctx.handle = c.handle)
    (hwaits : v.loading = false) : pt.dataInstall c = some v := by
  rw [Part.dataInstall, hv, Option.filter_some]
  refine if_pos ?_
  rw [hsess, hhandle, hwaits, beq_self_eq_true, beq_self_eq_true]
  rfl

theorem dataInstall_none {pt : Part} {c : Ctx} (h : pt.install = none) : pt.dataInstall c = none := by
  rw [Part.dataInstall, h]
  rfl

theorem dataRepair_some {pt : Part} {c : Ctx} {v : Install} (hv : pt.refetch = some v) (hhandle : v.ctx.handle = c.handle) (hsrc : v.src = .host) :
    pt.dataRepair c = some v := by
  rw [Part.dataRepair, hv, Option.filter_some]
  refine if_pos ?_
  rw [hhandle, hsrc, beq_self_eq_true]
  rfl

theorem dataRepair_none {pt : Part} {c : Ctx} (h : pt.refetch = none) : pt.dataRepair c = none := by
  rw [Part.dataRepair, h]
  rfl

/-! ## What follows a part, and a fetch that fails -/

section AfterPart

variable {u : State} {p : Nat} {pt : Part} {v : Install} (hpt : u.part p = some pt) (hv : pt.install = some v)
include hpt hv

theorem afterPart_waits (h : v.image ≠ none ∨ v.cart.length ≠ v.cartLen ∨ v.atlas.length ≠ v.atlasLen) : u.afterPart p = u := by
  rw [State.afterPart, hpt, Option.bind_some, hv]
  refine if_neg ?_
  rw [Bool.and_eq_true, Bool.and_eq_true, Option.isNone_iff_eq_none, beq_iff_eq, beq_iff_eq]
  tauto

theorem afterPart_checks (him : v.image = none) (hcart : v.cart.length = v.cartLen) (hatlas : v.atlas.length = v.atlasLen) :
    u.afterPart p = u.partsDone p v := by
  rw [State.afterPart, hpt, Option.bind_some, hv]
  refine if_pos ?_
  rw [him, hcart, hatlas, beq_self_eq_true, beq_self_eq_true]
  rfl

end AfterPart

/-- An installation that has taken bytes. -/
theorem modFetch_install {m : State} {p : Nat} {pt : Part} {v : Install} (w : Install) (hpt : m.part p = some pt) (hv : pt.install = some v) :
    onlyPart m (m.modFetch p false (fun _ => w)) p ∧ (m.modFetch p false (fun _ => w)).part p = some { pt with install := some w } := by
  obtain ⟨honly, hpart⟩ := modFetch_only m p pt hpt false (fun _ => w)
  rw [if_neg Bool.false_ne_true, hv] at hpart
  exact ⟨honly, hpart⟩

/-- A repair that has taken bytes. -/
theorem modFetch_refetch {m : State} {p : Nat} {pt : Part} {v : Install} (w : Install) (hpt : m.part p = some pt) (hv : pt.refetch = some v) :
    onlyPart m (m.modFetch p true (fun _ => w)) p ∧ (m.modFetch p true (fun _ => w)).part p = some { pt with refetch := some w } := by
  obtain ⟨honly, hpart⟩ := modFetch_only m p pt hpt true (fun _ => w)
  rw [if_pos rfl, hv] at hpart
  exact ⟨honly, hpart⟩

theorem failFetch_repair {s : State} {p : Nat} {pt : Part} {v : Install} (st : Status) (hpt : s.part p = some pt) (hv : pt.refetch = some v) :
    s.failFetch p true st = (s.modPart p (fun pt => { pt with refetch := none })).ownerEvent p .digestMismatch 0 v.ctx.handle 0 := by
  rw [State.failFetch, if_pos rfl, hpt, Option.bind_some, hv]

end Sys2Proof.Machine
end

section
/-!
PROOFS. Shards are asked for, checked and loaded.
-/
namespace Sys2Proof.Machine

open Sys2Proof

/-! ## Timeouts of SHARD_DATA and queries (R311, R312) -/

section Timeouts

variable {s : State} {p : Nat} {pt : Part} {v : Install} (hpt : s.part p = some pt)
include hpt

theorem shardDataTimeout_ends (hwaits : v.awaits = true) (hv : pt.install = some v) : exec (.shardDataTimeout p) s = .next (s.endInstall p .badFrame) := by
  show execShardDataTimeout p s = _
  rw [execShardDataTimeout, hpt]
  exact if_pos (by rw [hv, Option.any_some, hwaits])

theorem shardDataTimeout_fails (hwaits : v.awaits = true) (hnone : pt.install = none) (hv : pt.refetch = some v) :
    exec (.shardDataTimeout p) s = .next (s.failFetch p true .badFrame) := by
  show execShardDataTimeout p s = _
  rw [execShardDataTimeout, hpt]
  exact (if_neg (by rw [hnone]; decide)).trans (require_next (by rw [hv, Option.any_some, hwaits]))

variable (hv : pt.install = some v) (hsrc : v.src = .query)
include hv hsrc

theorem shardQueryTimeout_unanswered : exec (.shardQueryTimeout p []) s = .next (s.toHost p false) := by
  have hrun : pt.install.any (fun v => v.src == .query) = true := by rw [hv, Option.any_some, hsrc]; rfl
  show execShardQueryTimeout p [] s = _
  rw [execShardQueryTimeout, hpt]
  dsimp only
  rw [hrun]
  exact if_pos hrun

theorem shardQueryTimeout_answered (a : Nat) (as : List Nat) : exec (.shardQueryTimeout p (a :: as)) s = .next (s.askNeighbour p false (as.foldl min a)) := by
  have hrun : pt.install.any (fun v => v.src == .query) = true := by rw [hv, Option.any_some, hsrc]; rfl
  show execShardQueryTimeout p (a :: as) s = _
  rw [execShardQueryTimeout, hpt]
  dsimp only
  rw [hrun]
  exact if_pos hrun

end Timeouts

theorem shardQuery_run {s : State} {l : Nat} (dg : Bytes) (hl : l < 8) (hup : (s.link l).st = .up) : exec (.shardQuery l dg) s =
    .next (if (s.shardWith dg).isSome then s.sendMessage (l / 2) .management 0 (beBytes 1 0x19 ++ dg) else s) :=
  require_next (by rw [decide_eq_true hl, hup]; rfl)

section Sources

variable {s : State} {p : Nat} {pt : Part} {v : Install} (hpt : s.part p = some pt) (hv : pt.install = some v)
include hpt hv

theorem toHost_refused (hno : v.noHost = true) : s.toHost p false = s.endInstall p .tierFailed := by
  have hfetch : (s.part p).bind (fun pt => pt.fetch false) = some v := by rw [hpt]; exact hv
  rw [State.toHost, hfetch]
  exact if_pos hno

theorem toHost_asks (hno : v.noHost = false) : s.toHost p false =
    (s.modFetch p false (fun v => { v with src := .host, shard := [] })).ownerEvent p .pending 0x0401 v.ctx.handle 0 := by
  have hfetch : (s.part p).bind (fun pt => pt.fetch false) = some v := by rw [hpt]; exact hv
  rw [State.toHost, hfetch]
  exact if_neg (Bool.eq_false_iff.mp hno)

theorem askNeighbour_asks {im : Image} (him : v.image = some im) (dev : Nat) : s.askNeighbour p false dev =
    (s.modFetch p false (fun v => { v with src := .neighbour dev, shard := [] })).sendTo dev .lent p
      (beBytes 1 0x47 ++ beBytes 1 p ++ beBytes 1 0 ++ im.digest) := by
  have hfetch : ((s.part p).bind (fun pt => pt.fetch false)).bind (·.image) = some im := by
    rw [hpt, Option.bind_some, Part.fetch, if_neg Bool.false_ne_true, hv]
    exact him
  rw [State.askNeighbour, hfetch]
  rfl

end Sources

/-! ## A shard that has arrived (R313) -/

theorem complete_of {v : Install} {im : Image} (hsrc : v.src = .host ∨ ∃ d, v.src = .neighbour d) (him : v.image = some im)
    (hlength : v.shard.length = im.shardLen) : v.complete = true := by
  rw [Install.complete, him, Option.any_some, beq_iff_eq.mpr hlength, Bool.and_true]
  rcases hsrc with hsrc | ⟨d, hsrc⟩ <;> rw [hsrc] <;> rfl

section Arrived

variable {s : State} {p : Nat} {pt : Part} {v : Install} {im : Image} (hpt : s.part p = some pt) (him : v.image = some im) (hcomplete : v.complete = true)
include hpt him hcomplete

theorem shardArrived_install (hv : pt.install = some v) : exec (.shardArrived p) s =
    .next (if Config.sm3 v.shard != im.digest then s.shardBad p false v else s.shardReady p v.shard) := by
  have hany : pt.install.any Install.complete = true := by rw [hv, Option.any_some, hcomplete]
  have hfetch : (pt.fetch false).filter Install.complete = some v := by
    rw [Part.fetch, if_neg Bool.false_ne_true, hv, Option.filter_some, if_pos hcomplete]
  show execShardArrived p s = _
  rw [execShardArrived, hpt]
  dsimp only
  rw [hany, Bool.not_true, hfetch, Option.bind_some, him]
  dsimp only
  rw [if_neg Bool.false_ne_true]
  split <;> rfl

theorem shardArrived_repair (hnone : pt.install = none) (hv : pt.refetch = some v) (hdigest : Config.sm3 v.shard = im.digest) :
    exec (.shardArrived p) s = .next (s.repairShard p im v.shard) := by
  have hany : pt.install.any Install.complete = false := by rw [hnone]; rfl
  have hfetch : (pt.fetch true).filter Install.complete = some v := by
    rw [Part.fetch, if_pos rfl, hv, Option.filter_some, if_pos hcomplete]
  show execShardArrived p s = _
  rw [execShardArrived, hpt]
  dsimp only
  rw [hany, Bool.not_false, hfetch, Option.bind_some, him]
  dsimp only
  rw [hdigest, bne_self_eq_false, if_neg Bool.false_ne_true, if_pos rfl]

end Arrived

/-! ## A shard without its digest -/

section Bad

variable {s : State} {p : Nat} {v : Install}

theorem shardBad_hostAgain (hsrc : v.src = .host) (hagain : v.again = true) : s.shardBad p false v = (s.bump .model p 0x1C 1).endInstall p .digestMismatch := by
  rw [State.shardBad, hsrc, hagain]
  rfl

theorem shardBad_hostOnce (hsrc : v.src = .host) (hagain : v.again = false) :
    s.shardBad p false v = ((s.bump .model p 0x1C 1).modFetch p false (fun v => { v with again := true })).toHost p false := by
  rw [State.shardBad, hsrc, hagain]
  rfl

variable {d : Nat} (hsrc : v.src = .neighbour d)
include hsrc

theorem shardBad_neighbourOnce (hagain : v.again = false) :
    s.shardBad p false v = ((s.bump .model p 0x1C 1).modFetch p false (fun v => { v with again := true })).askNeighbour p false d := by
  rw [State.shardBad, hsrc, hagain]
  rfl

theorem shardBad_neighbourOnly (hagain : v.again = true) (hno : v.noHost = true) :
    s.shardBad p false v = (s.bump .model p 0x1C 1).endInstall p .digestMismatch := by
  rw [State.shardBad, hsrc, hagain, hno]
  rfl

theorem shardBad_neighbourAgain (hagain : v.again = true) (hno : v.noHost = false) :
    s.shardBad p false v = ((s.bump .model p 0x1C 1).modFetch p false (fun v => { v with again := false })).toHost p false := by
  rw [State.shardBad, hsrc, hagain, hno]
  rfl

end Bad

/-! ## A shard with its digest (R310, R313) -/

section Ready

variable {s : State} {p : Nat} {pt : Part} {v : Install} {im : Image} (hpt : s.part p = some pt) (hv : pt.install = some v) (him : v.image = some im) (b : Bytes)
include hpt hv him

theorem shardReady_refused {st : Status}
    (hcheck : s.installCheck { pt with swapEn := s.swapEnable p } { im with shard := b } (pt.plainShard { im with shard := b }) = some st) :
    s.shardReady p b = s.endInstall p st := by
  unfold State.shardReady
  rw [hpt]
  dsimp only
  rw [hv] at hcheck ⊢
  rw [Option.bind_some, him]
  dsimp only
  rw [hcheck]

variable (hcheck : s.installCheck { pt with swapEn := s.swapEnable p } { im with shard := b } (pt.plainShard { im with shard := b }) = none)
include hcheck

theorem shardReady_loads (hfetch : v.fetchOnly = false) : s.shardReady p b = (s.storeShard p b).beginLoad p { im with shard := b } := by
  unfold State.shardReady
  rw [hpt]
  dsimp only
  rw [hv] at hcheck ⊢
  rw [Option.bind_some, him]
  dsimp only
  rw [hcheck]
  exact if_neg (Bool.eq_false_iff.mp hfetch)

theorem shardReady_keeps (hfetch : v.fetchOnly = true) : s.shardReady p b = ((s.storeShard p b).modPart p (fun pt =>
    { pt with next := some { im with shard := b }, swap := pt.swap.filter (·.active) })).endInstall p .ok := by
  unfold State.shardReady
  rw [hpt]
  dsimp only
  rw [hv] at hcheck ⊢
  rw [Option.bind_some, him]
  dsimp only
  rw [hcheck]
  exact if_pos hfetch

end Ready

/-! ## Loading (R314) -/

section Loading

variable {s : State} {p : Nat} {pt : Part} {v : Install} {im : Image} (hpt : s.part p = some pt) (hv : pt.install = some v) (him : v.image = some im)
  (hloading : v.loading = true)
include hpt hv him hloading

theorem loadComplete_unreadable : exec (.loadComplete p false) s = .next ((s.modPart p (fun pt => { pt with mstate := .empty })).endInstall p .tierFailed) := by
  show execLoadComplete p false s = _
  rw [execLoadComplete, hpt, Option.bind_some, hv, Option.bind_some, him]
  exact if_pos hloading

theorem loadComplete_fault {e : PodFault} (hfault : pt.loadFault im = some e) : exec (.loadComplete p true) s =
    .next ((((s.countPodFault p 0 3 e).countPodFault p 0 3 e).modPart p (fun pt => { pt with mstate := .empty })).endInstall p .tierFailed) := by
  show execLoadComplete p true s = _
  rw [execLoadComplete, hpt, Option.bind_some, hv, Option.bind_some, him]
  dsimp only
  rw [Option.bind_some, hfault]
  exact if_pos hloading

theorem loadComplete_loads (hclean : pt.loadFault im = none) : exec (.loadComplete p true) s = .next ((s.loadImage p im).endInstall p .ok) := by
  show execLoadComplete p true s = _
  rw [execLoadComplete, hpt, Option.bind_some, hv, Option.bind_some, him]
  dsimp only
  rw [Option.bind_some, hclean]
  exact if_pos hloading

end Loading

/-- The programs and tensors of a load change the partition's programs and nothing else of any partition. -/
theorem loadPrograms_part {s : State} {p : Nat} {pt : Part} (im : Image) (tb : Bytes) (g : Program) (hpt : s.part p = some pt) :
    (((s.loadTensors pt im).loadTables pt tb).storePrograms p g).part p = some { pt with progs := pt.bayPrograms g } := by
  have htensors := shareOnly_parts (loadTensors_only s pt im)
  obtain ⟨htables, -⟩ := loadTables_book (s.loadTensors pt im) pt tb
  have hsame : ((s.loadTensors pt im).loadTables pt tb).part p = some pt :=
    (congrArg (fun m : NMap Part => NMap.find m p) (htables.trans htensors)).trans hpt
  obtain ⟨hpart, -⟩ := storePrograms_spec _ p g pt hsame
  exact hpart

/-- A partition as a completed load leaves it. -/
def Part.loadedWith (pt : Part) (im : Image) (en : Bool) (room : List (Nat × Nat)) : Part :=
  { pt with image := some im, swapEn := en, mstate := .loaded, firstStep := true, lastAmax := 0#32, lastEmpty := true,
            gzState := if im.isFirst then 0 else 4, staged := { pt.staged with edition := true }, room := room,
            xcache := List.replicate im.xcacheSlots XSlot.empty }

/-- The registers that a load sets. -/
def State.loadRegs (s : State) (p : Nat) (im : Image) (n : Nat) : State :=
  (((s.putField .sfu p 0 0 0 im.sfuMode).putReg .narrow p 0 im.narrowCtl).putReg .kv p 0 im.poolCfg).putReg .kv p 4 (BitVec.ofNat 32 n)

theorem loadRegs_spec (s : State) {p : Nat} (im : Image) (n : Nat) (hp : p < 128) : (s.loadRegs p im n).part p = s.part p ∧
    (s.loadRegs p im n).reg .narrow p 0 = im.narrowCtl ∧ (s.loadRegs p im n).reg .kv p 0 = im.poolCfg := by
  refine ⟨rfl, ?_, ?_⟩
  · refine (State.rawReg_putReg_ne _ .kv p 4 _ ?_).trans ((State.rawReg_putReg_ne _ .kv p 0 _ ?_).trans (State.reg_putReg_self _ _ _ _ _))
    · simp only [Blk.at, Blk.place]; omega
    · simp only [Blk.at, Blk.place]; omega
  · exact (reg_putReg_ne _ .kv p _ (by decide)).trans (State.reg_putReg_self _ _ _ _ _)

theorem loadImage_spec {s : State} {p : Nat} {pt : Part} {im : Image} (hp : p < 128) (hpt : s.part p = some pt) :
    ∃ room, (s.loadImage p im).part p =
        some (Part.loadedWith { pt with progs := pt.bayPrograms (Image.program (pt.plainShard im)) } im (s.swapEnable p) room) ∧
      (s.loadImage p im).reg .narrow p 0 = im.narrowCtl ∧ (s.loadImage p im).reg .kv p 0 = im.poolCfg := by
  unfold State.loadImage
  rw [hpt]
  dsimp only
  obtain ⟨u, hu⟩ : ∃ u, ((s.loadTensors pt im).loadTables pt (shardTables (pt.plainShard im))).storePrograms p (Image.program (pt.plainShard im)) = u := ⟨_, rfl⟩
  have hpart := loadPrograms_part im (shardTables (pt.plainShard im)) (Image.program (pt.plainShard im)) hpt
  rw [hu] at hpart ⊢
  obtain ⟨hsame, hnarrow, hpool⟩ := loadRegs_spec u im (im.poolSheets (sheetsFor im (layoutOf im (pt.dir im) (s.swapEnable p)) pt.shareBytes)) hp
  exact ⟨_, part_of_modPart _ (hsame.trans hpart), hnarrow, hpool⟩

/-- Settles O43: each frame and event by the checks of its model in order, the load by what its programs, tensors and registers change. -/
theorem modelsArriveWithShards : Obligations.ModelsArriveWithShards := by
  unfold Obligations.ModelsArriveWithShards
  refine ⟨?install, ?data, ?timeout, ?query, ?queryTimeout, ?arrived, ?repaired, ?loaded⟩
  case install =>
    intro s c pl pt h
    dsimp only
    have hiff := installBad_iff pl
    refine ⟨fun hbad => installModel_badFrame h (hiff.mpr hbad), fun hgood hbusy => ?_, fun hgood hidle hnone hnext => ?_, fun im hgood hidle hnone hnext him => ?_⟩
    all_goals have hgood := Bool.eq_false_iff.mpr fun hbad => hiff.mp hbad hgood
    · exact installModel_busy h hgood hbusy
    · exact installModel_fetches h hgood hidle hnone hnext
    · exact installModel_loads h hgood hidle hnone hnext him
  case data =>
    intro s c pl pt h hpt hhandle
    have hrun := shardData_run h hpt hhandle pl
    have hm : (s.freeMbox c 0x0405).part c.part = some pt := (freeMbox_part_eq _ _ _ _).trans hpt
    refine ⟨fun hnone hrepair => ?_, fun v hv hsess hh hwaits => ?_, fun v im hnone hv hh hsrc him => ?_⟩
    · rw [dataInstall_none hnone, dataRepair_none hrepair] at hrun
      exact hrun
    · rw [dataInstall_some hv hsess hh hwaits, State.dataFor] at hrun
      refine ⟨fun hbad => ?_, fun hgood hpart him hoff hfits hwait => ?_, fun hgood hpart him hcart hoff hfits => ⟨fun hwait => ?_, fun hall => ?_⟩,
        fun im hgood hpart hsrc him hoff hfits => ?_⟩
      · rw [took_none hbad] at hrun
        exact hrun.trans (congrArg Host.Outcome.next (endInstall_of _ c.part pt v hm hv .badFrame))
      · rw [took_cart hgood hpart him hoff hfits] at hrun
        obtain ⟨honly, htaken⟩ := modFetch_install { v with cart := v.cart ++ pl.drop 16 } hm hv
        refine completes_of (hrun.trans (congrArg Host.Outcome.next (afterPart_waits htaken rfl (Or.inr ?_)))) ⟨honly, htaken⟩
        rwa [List.length_append]
      · rw [took_atlas hgood hpart him hcart hoff hfits] at hrun
        obtain ⟨honly, htaken⟩ := modFetch_install { v with atlas := v.atlas ++ pl.drop 16 } hm hv
        exact completes_of (hrun.trans (congrArg Host.Outcome.next (afterPart_waits htaken rfl (Or.inr (Or.inr hwait))))) ⟨honly, htaken⟩
      · rw [took_atlas hgood hpart him hcart hoff hfits] at hrun
        obtain ⟨honly, htaken⟩ := modFetch_install { v with atlas := v.atlas ++ pl.drop 16 } hm hv
        exact ⟨_, honly, htaken, hrun.trans (congrArg Host.Outcome.next (afterPart_checks htaken rfl him hcart hall))⟩
      · rw [took_shard hgood hpart hsrc him hoff hfits] at hrun
        obtain ⟨honly, htaken⟩ := modFetch_install { v with shard := v.shard ++ pl.drop 16 } hm hv
        refine completes_of (hrun.trans (congrArg Host.Outcome.next (afterPart_waits htaken rfl (Or.inl fun hnone => ?_)))) ⟨honly, htaken⟩
        exact Option.some_ne_none im (him.symm.trans hnone)
    · rw [dataInstall_none hnone, dataRepair_some hv hh hsrc] at hrun
      refine ⟨fun hgood hpart hoff hfits => ?_, fun hbad => ?_⟩
      · rw [State.dataFor, took_shard hgood hpart hsrc him hoff hfits] at hrun
        exact completes_of hrun (modFetch_refetch { v with shard := v.shard ++ pl.drop 16 } hm hv)
      · rw [State.dataFor, took_none (Or.inl hbad)] at hrun
        exact hrun.trans (congrArg Host.Outcome.next (failFetch_repair .badFrame hm hv))
  case timeout =>
    intro s p pt v hpt hwaits
    refine ⟨fun hv => ?_, fun hnone hv => ?_⟩
    · exact (shardDataTimeout_ends hpt hwaits hv).trans (congrArg Host.Outcome.next (endInstall_of s p pt v hpt hv .badFrame))
    · exact (shardDataTimeout_fails hpt hwaits hnone hv).trans (congrArg Host.Outcome.next (failFetch_repair .badFrame hpt hv))
  case query =>
    intro s l dg hl hup
    refine ⟨fun b hb => ?_, fun hnone => ?_⟩
    · exact (shardQuery_run dg hl hup).trans (congrArg Host.Outcome.next (if_pos (by rw [hb]; rfl)))
    · exact (shardQuery_run dg hl hup).trans (congrArg Host.Outcome.next (if_neg (by rw [hnone]; decide)))
  case queryTimeout =>
    intro s p a as pt v im hpt hv hsrc him
    exact ⟨fun hno => (shardQueryTimeout_unanswered hpt hv hsrc).trans (congrArg Host.Outcome.next (toHost_refused hpt hv hno)),
      fun hno => (shardQueryTimeout_unanswered hpt hv hsrc).trans (congrArg Host.Outcome.next (toHost_asks hpt hv hno)),
      (shardQueryTimeout_answered hpt hv hsrc a as).trans (congrArg Host.Outcome.next (askNeighbour_asks hpt hv him _))⟩
  case arrived =>
    intro s p pt v im hpt hv him hlength
    have hrun := fun hsrc => shardArrived_install hpt him (complete_of hsrc him hlength) hv
    refine ⟨fun hne => ?_, fun heq hsrc => ?_⟩
    · have hbad := fun hsrc => (hrun hsrc).trans (congrArg Host.Outcome.next (if_pos (bne_iff_ne.mpr hne)))
      refine ⟨fun hsrc hagain => (hbad (Or.inl hsrc)).trans (congrArg Host.Outcome.next (shardBad_hostAgain hsrc hagain)),
        fun hsrc hagain => (hbad (Or.inl hsrc)).trans (congrArg Host.Outcome.next (shardBad_hostOnce hsrc hagain)), fun d hsrc => ?_⟩
      have hnext := hbad (Or.inr ⟨d, hsrc⟩)
      exact ⟨fun hagain => hnext.trans (congrArg Host.Outcome.next (shardBad_neighbourOnce hsrc hagain)),
        fun hagain hno => hnext.trans (congrArg Host.Outcome.next (shardBad_neighbourOnly hsrc hagain hno)),
        fun hagain hno => hnext.trans (congrArg Host.Outcome.next (shardBad_neighbourAgain hsrc hagain hno))⟩
    · have hready := (hrun hsrc).trans (congrArg Host.Outcome.next (if_neg (by rw [heq, bne_self_eq_false]; exact Bool.false_ne_true)))
      exact ⟨fun st hst => hready.trans (congrArg Host.Outcome.next (shardReady_refused hpt hv him v.shard hst)), fun hnone =>
        ⟨fun hfetch => hready.trans (congrArg Host.Outcome.next (shardReady_loads hpt hv him v.shard hnone hfetch)),
          fun hfetch => hready.trans (congrArg Host.Outcome.next (shardReady_keeps hpt hv him v.shard hnone hfetch))⟩⟩
  case repaired =>
    intro s p pt v im hpt hnone hv him hlength hsrc heq
    exact shardArrived_repair hpt him (complete_of (Or.inl hsrc) him hlength) hnone hv heq
  case loaded =>
    intro s p pt v im hp hpt hv him hloading
    refine ⟨loadComplete_unreadable hpt hv him hloading, fun e he => loadComplete_fault hpt hv him hloading he, fun hclean => ?_⟩
    obtain ⟨room, hpart, hnarrow, hpool⟩ := loadImage_spec (im := im) hp hpt
    exact ⟨s.loadImage p im, _, hpart,
      (loadComplete_loads hpt hv him hloading hclean).trans (congrArg Host.Outcome.next (endInstall_of _ p _ v hpart hv .ok)), rfl, rfl, hv, rfl, rfl, rfl,
      List.length_replicate, hnarrow, hpool, rfl, rfl⟩

end Sys2Proof.Machine
end
